-- ==== Sys2Proof/Word.lean ====
section
/-! DEFINITION. The word types of the PF8 and their plainest names (R2, R3). -/

namespace Sys2Proof

/-- A byte, 8 bits (R2). -/
abbrev Byte := BitVec 8
/-- A word, 32 bits (R2). -/
abbrev Word := BitVec 32
/-- A dword, 64 bits (R2). -/
abbrev DWord := BitVec 64
/-- A virtual address of 56 bits (R10, Table 1.2). -/
abbrev VAddr := BitVec 56
/-- One bit for each lane of a gang (R23). -/
abbrev LaneMask := BitVec 32
/-- One bit for each slice of a gang (R23). -/
abbrev SliceMask := BitVec 8

/-- Bits [hi:lo] of a number (R3). -/
def bits (x hi lo : Nat) : Nat := x / 2 ^ lo % 2 ^ (hi + 1 - lo)

/-- Bit n of a number (R3). -/
def bit (x n : Nat) : Bool := x / 2 ^ n % 2 == 1

end Sys2Proof
end

