-- ==== Sys2Proof/Syntax.lean ====
section
/-! DEFINITION. The syntax of the PF8: one constructor for every row of the opcode table. The 196 instruction words
carry their fields as Table 3.2 names them. The 108 steps that no word names carry what arrives with them. -/

namespace Sys2Proof

/-- A register field of the flat namespace of Table 2.3 (R39). -/
abbrev RegField := BitVec 8
/-- A predicate index (R55). -/
abbrev PredField := BitVec 6
/-- An index field, a code or an imm8 as it stands in the word (R55). -/
abbrev ByteField := BitVec 8

/-- Who writes a register from outside the instruction stream (R389, R402): the physical function, or the virtual
function of the partition named. -/
inductive Source where
  | pf
  | vf
  deriving DecidableEq, Repr

/-- The five remote operations (R281). -/
inductive RemoteKind where
  | rld
  | rst
  | add
  | cas
  | fadd
  deriving DecidableEq, Repr

/-- One lane of a remote operation: its address and its data (R281). -/
structure RemoteLane where
  lane : Nat
  addr : Nat
  arg : DWord
  new : DWord
  deriving DecidableEq, Repr

/-- A remote operation on its way to a peer (R281, R400). stream, seq: the gang that sends it, and its place among the
operations of that gang to the peer (R217, R362; log 61). -/
structure RemoteOp where
  ident : Nat
  srcPkg : Nat
  srcPart : Nat
  stream : Nat
  seq : Nat
  part : Nat
  kind : RemoteKind
  etype : BitVec 4
  sat : Bool
  lanes : List RemoteLane
  deriving DecidableEq, Repr

/-- What a peer answers for one lane: a value, or a fault with its cause (R282-R284). -/
inductive LaneReply where
  | value (lane : Nat) (v : DWord)
  | fault (lane : Nat) (cause : Byte) (ecc : Bool)
  deriving DecidableEq, Repr

/-- A peer's answer to a remote operation (R282, R283). refused: its atomic capability lacks the operation. -/
structure RemoteReply where
  ident : Nat
  refused : Bool
  lanes : List LaneReply
  deriving DecidableEq, Repr

/-- A message of a collective (R286, R401): who sends it, the collective's number on its communicator, what the
members must agree on, and the sender's SEND bytes. -/
structure CollMsg where
  part : Nat
  comm : Nat
  rank : Nat
  number : Nat
  op : Nat
  fmt : Nat
  len : Nat
  root : Nat
  seq : Word
  members : Nat
  digest : List Byte
  data : List Byte
  deriving DecidableEq, Repr

/-- The first failure of a QSEND: cause, address, and whether it is an error that cannot be corrected (R374, R430). -/
structure QFault where
  cause : Byte
  addr : Nat
  ecc : Bool := false
  deriving DecidableEq, Repr

/-- Bytes of a QSEND on their way to a peer (R373). seq: their place in what the send queue has sent (R362; log 61). -/
structure QData where
  ident : Nat
  srcPkg : Nat
  srcPart : Nat
  seq : Nat
  part : Nat
  dst : Nat
  data : List Byte
  last : Bool
  total : Nat
  note : Bool
  nva : Nat
  deriving DecidableEq, Repr

/-- What a flit of the peer fabric carries (R432, KIND). -/
inductive NetMsg where
  | remote (op : RemoteOp)
  | reply (r : RemoteReply)
  | coll (m : CollMsg)
  | qdata (d : QData)
  deriving DecidableEq, Repr

/-- The types of flit (Table 18.1). A link-control flit carries the TGTW of its sender (R446, log 38). other: TYPE 6-15. -/
inductive FlitType where
  | data
  | idle
  | nak
  | width (w : Nat)
  | remap (site lam : Nat)
  | control (tgtw : Nat)
  | other
  deriving DecidableEq, Repr

/-- A flit (R432): its type, sequence numbers and message; switchAt is FSEQ F of a width-change or remap flit. ok: every
codeword could be corrected and the CRC matches (R433). -/
structure Flit where
  type : FlitType
  fseq : BitVec 12
  aseq : BitVec 12
  switchAt : BitVec 12
  peer : Nat
  msg : Option NetMsg
  ok : Bool
  deriving DecidableEq, Repr

/-- What an ageing save counts (R452): the powered hours since the last save, and how many of them the array donated a line. -/
structure AgedHours where
  powered : Nat
  given : Nat
  deriving DecidableEq, Repr

/-- A channel whose training has ended, and the lowest and the highest Abnel version of its far end (R408, R471). -/
structure TrainedChan where
  chan : Nat
  lo : Nat
  hi : Nat
  deriving DecidableEq, Repr

/-- How a retraining has ended: the channels that work, and the lowest and the highest Abnel version of the far end (R408, R442). -/
structure Retrained where
  works : List Nat
  lo : Nat
  hi : Nat
  deriving DecidableEq, Repr

/-- Where an error of Table 17.10 is found (R430). -/
inductive ErrorPlace where
  | register (core slot : Nat)
  | scratchpad (core slot : Nat)
  | vaultLane (core slot : Nat) (lanes : LaneMask) (addr : Nat)
  | vaultRequest (req : Nat) (addr : Nat)
  | vaultWord (pa : Nat)
  | accRow (core row : Nat)
  | operandA (core row : Nat)
  | operandB (core : Nat)
  | tagEntry (core entry : Nat)
  | image (part team : Nat)
  | stopArea (part : Nat)
  deriving DecidableEq, Repr

/-- The place of a circuit: a slot entry (j, p) or the static circuit of port p (R368). -/
inductive Circuit where
  | slot (j p : Nat)
  | port (p : Nat)
  deriving DecidableEq, Repr

/-- A SETUP for a circuit: its place, and its number among those that its sender has sent for it (log 69). -/
structure SetupRef where
  circ : Circuit
  num : Nat
  deriving DecidableEq, Repr

/-- Why a circuit SETUP is answered NAK (R368). -/
inductive NakCause where
  | blocked
  | mismatch
  | version
  deriving DecidableEq, Repr

/-- A window table entry of a module (Table 16.6a). -/
structure Window where
  pkg : Nat
  part : Nat
  rd : Bool
  wr : Bool
  flushReq : Bool
  minSeq : BitVec 16
  vbase : Nat
  obase : Nat
  len : Nat
  deriving DecidableEq, Repr

/-- What reaches a saved team (R425). -/
inductive SavedArrival where
  | reply (gang : Nat) (r : RemoteReply)
  | requestEnd (req : Nat)
  | mailbox (gang m : Nat) (v : DWord)
  | cancel
  deriving DecidableEq, Repr

/-- What the controller of a module sends while it is attested (R407): its nonce, or its report of KIND 0. -/
inductive AttestMsg where
  | nonce (n : List Byte)
  | report (bytes : List Byte)
  deriving DecidableEq, Repr

/-- The outcome of checking the firmware images at power-on (R468, R470). -/
inductive BootResult where
  | good (image main fuses : List Byte) (version : BitVec 16)
  | badKey
  | badFirst
  | badMain (image : List Byte)
  | badFlash
  deriving DecidableEq, Repr

/-- One constructor for each row of the opcode table. -/
inductive Instr where
  -- control and mask (Table 5.2)
  | nop
  | mode (payload : BitVec 24)
  | braAny (i : BitVec 24)
  | braAll (i : BitVec 24)
  | braz (i : BitVec 24)
  | brx (a : RegField)
  | call (i : BitVec 24)
  | ret
  | exit
  | regang (a : RegField)
  | yield
  | mand (a : PredField)
  | mrestore (a : RegField)
  | msave (d : RegField)
  | mandn (a : PredField)
  | brk (imm : BitVec 16)
  -- integer and logic (Tables 5.4 and 5.5)
  | add (d a b : RegField)
  | sub (d a b : RegField)
  | mul (d a b : RegField)
  | mulh (d a b : RegField)
  | mad (d a b : RegField)
  | absd (d a b : RegField)
  | min (d a b : RegField)
  | max (d a b : RegField)
  | and (d a b : RegField)
  | or (d a b : RegField)
  | xor (d a b : RegField)
  | andn (d a b : RegField)
  | shl (d a b : RegField)
  | shr (d a b : RegField)
  | sar (d a b : RegField)
  | rotl (d a b : RegField)
  | addi (d a : RegField) (imm : ByteField)
  | shli (d a : RegField) (imm : ByteField)
  | shri (d a : RegField) (imm : ByteField)
  | sari (d a : RegField) (imm : ByteField)
  | andi (d a : RegField) (imm : ByteField)
  | ori (d a : RegField) (imm : ByteField)
  | li (d : RegField) (imm : BitVec 16)
  | lih (d : RegField) (imm : BitVec 16)
  | clz (d a : RegField)
  | popc (d a : RegField)
  | brev (d a : RegField)
  | bfe (d a b : RegField)
  | bfi (d a b : RegField)
  | mov (d a : RegField)
  | neg (d a : RegField)
  | abs (d a : RegField)
  -- compare and predicate
  | cmpEq (d : PredField) (a b : RegField)
  | cmpNe (d : PredField) (a b : RegField)
  | cmpLt (d : PredField) (a b : RegField)
  | cmpLe (d : PredField) (a b : RegField)
  | cmpGt (d : PredField) (a b : RegField)
  | cmpGe (d : PredField) (a b : RegField)
  | cmpUn (d : PredField) (a b : RegField)
  | cmpi (cond : BitVec 2) (d : PredField) (a : RegField) (imm : ByteField)
  | pand (d a b : PredField)
  | por (d a b : PredField)
  | pxor (d a b : PredField)
  | pnot (d a : PredField)
  | pmov (d a : PredField)
  | pset (d : PredField) (code : ByteField)
  | vote (d : RegField) (a : PredField) (code : ByteField)
  | pfrom (d : PredField) (a : RegField)
  -- float
  | fadd (d a b : RegField)
  | fsub (d a b : RegField)
  | fmul (d a b : RegField)
  | fma (d a b : RegField)
  | fms (d a b : RegField)
  | fmin (d a b : RegField)
  | fmax (d a b : RegField)
  | fminnm (d a b : RegField)
  | fmaxnm (d a b : RegField)
  | fabs (d a : RegField)
  | fneg (d a : RegField)
  | frcp (d a : RegField)
  | frsq (d a : RegField)
  | fsqrt (d a : RegField)
  | fdiv (d a b : RegField)
  | fexp2 (d a : RegField)
  | flog2 (d a : RegField)
  | fsin (d a : RegField)
  | fcos (d a : RegField)
  | fscale (d a b : RegField)
  | frnd (d a : RegField)
  | fclass (d a : RegField)
  | ftanh (d a : RegField)
  | fsigm (d a : RegField)
  | cvt (d a : RegField) (code : ByteField)
  | cvtb (d a b : RegField)
  | pack (d a b : RegField)
  | unpack (d a : RegField) (code : ByteField)
  | dot2 (d a b : RegField)
  | dot4 (d a b : RegField)
  | fcmpx (d a b : RegField)
  -- lane
  | perm (d a b : RegField)
  | shflXor (d a b : RegField)
  | shflUp (d a b : RegField)
  | shflDown (d a b : RegField)
  | gred (d a : RegField) (code : ByteField)
  | gscan (d a : RegField) (code : ByteField)
  | bcast (d a b : RegField)
  -- scratchpad, vault, atomics, fences, tag table
  | ld (d a : RegField) (imm : ByteField)
  | st (d a : RegField) (imm : ByteField)
  | ldv (d a b : RegField)
  | stv (d a b : RegField)
  | lr (d a b : RegField)
  | sc (d a b : RegField)
  | atomAdd (d a : RegField) (b : ByteField)
  | atomMin (d a : RegField) (b : ByteField)
  | atomMax (d a : RegField) (b : ByteField)
  | atomAnd (d a : RegField) (b : ByteField)
  | atomOr (d a : RegField) (b : ByteField)
  | atomXor (d a : RegField) (b : ByteField)
  | atomExch (d a : RegField) (b : ByteField)
  | atomCas (d a : RegField) (b : ByteField)
  | atomFadd (d a : RegField) (b : ByteField)
  | fence (code : ByteField)
  | ldt (d a b : RegField)
  | tagset (d a b : RegField)
  | taginv (a : RegField)
  | ldvs (d a b : RegField)
  | stvs (d a b : RegField)
  | ldp (d a b : RegField)
  | stp (d a b : RegField)
  -- far requests and their waits
  | fget (a : RegField) (t : ByteField)
  | fput (a : RegField) (t : ByteField)
  | fcopy (a : RegField) (t : ByteField)
  | fred (a : RegField) (t : ByteField)
  | ffill (a : RegField) (t : ByteField)
  | fwalk (a : RegField) (t : ByteField)
  | frule (a : RegField) (t : ByteField)
  | fmcast (a : RegField) (t : ByteField)
  | mcrecv (a : RegField) (t : ByteField)
  | tagwaitAny (a : RegField)
  | tagwaitAll (a : RegField)
  | tagff (d a : RegField)
  | tagrel (a : RegField)
  | chunkt (d a b : RegField)
  | winset (a b : RegField)
  | fstat (d a : RegField) (code : ByteField)
  -- remote, collective, circuits
  | rld (d a b : RegField)
  | rst (d a b : RegField)
  | ratomAdd (d a b : RegField)
  | ratomCas (d a b : RegField)
  | ratomFadd (d a b : RegField)
  | rfence (code : ByteField)
  | coll (a : RegField) (t : ByteField)
  | collq (d a : RegField)
  | qsend (a : RegField) (t : ByteField)
  | qstat (d a : RegField)
  | cslot (d : RegField)
  -- matrix
  | mclaim (a : RegField)
  | mrel (a : RegField)
  | mload (d a b : RegField)
  | mma (a : RegField) (k : ByteField)
  | mmag (a : RegField) (k : ByteField)
  | mzero (a : RegField)
  | mrd (d a b : RegField)
  | mwr (d a b : RegField)
  | mrowscl (d a : RegField) (code : ByteField)
  | mcvt (d a : RegField) (code : ByteField)
  | mdrain (d a : RegField) (code : ByteField)
  | mfill (d a b : RegField)
  | mstat (d a : RegField)
  | mrowred (d a : RegField) (code : ByteField)
  -- barriers, events, mailboxes, counters, launch
  | barinit (n : ByteField) (a b : RegField)
  | bararr (n : ByteField) (a : RegField)
  | barwait (n : ByteField) (a : RegField)
  | bartest (d : RegField) (n : ByteField)
  | barbytes (n : ByteField) (a : RegField)
  | wany (d a : RegField) (n : ByteField)
  | evmask (a : RegField)
  | evclr (a : RegField)
  | evget (d : RegField)
  | mbsend (n : ByteField) (a b : RegField)
  | mbrecv (d : RegField) (n : ByteField)
  | kinc (n : ByteField)
  | kwaitle (n : ByteField) (a : RegField)
  | krd (d : RegField) (n : ByteField)
  | deadl (a : RegField)
  | workget (a : RegField)
  | launch (a : RegField)
  | cancel (a : RegField) (code : ByteField)
  | cntrd (d a : RegField) (code : ByteField)
  -- system
  | sysrd (d : RegField) (addr : BitVec 16)
  | syswr (d : RegField) (addr : BitVec 16)
  | trap (imm : BitVec 16)
  | tret
  | tsave (a : RegField)
  | tload (a : RegField)
  | acrrd (d : RegField)
  | acrwr (a : RegField)
  | halt
  | ctxsv (a : RegField)
  | tlbinv (a : RegField)
  -- steps that no word names: issue and vault
  | illegalOpcode (w : BitVec 32)
  | fetchFault
  | groupTurnSwitch (core slot : Nat)
  | vaultWriteApply (n : Nat)
  | vaultReadReply (n : Nat)
  | lrHoldExpiry (n : Nat)
  -- matrix engine
  | engineOpComplete (core : Nat)
  | mclaimGrant (core : Nat)
  | mrelRelease (core : Nat)
  | followOnMmaAccept (req : Nat)
  -- far memory
  | chunkLand (req chunk : Nat)
  | farRequestEnd (req : Nat)
  | lintelAdmit (core : Nat)
  | moduleRequestArrival (req modid : Nat) (badOffsets : List Nat)
  | forcedSelfRefresh (modid : Nat)
  | selfRefreshExit (modid : Nat)
  | cairnReadReturn (req : Nat) (dramError : Bool)
  | corbelSlotFilled (cluster slot : Nat)
  -- remote, collective and send queue traffic
  | rldReply (r : RemoteReply)
  | rstAck (r : RemoteReply)
  | ratomResponse (r : RemoteReply)
  | remoteOpArrival (op : RemoteOp)
  | collMessageArrival (m : CollMsg)
  | qsendDataArrival (d : QData)
  | qsendCompletionReport (req : Nat) (failed : Option QFault)
  -- distributor
  | lqWrWrite (part q : Nat) (wr : BitVec 16)
  | launchPacketRead (part q : Nat)
  | teamPlace (part : Nat)
  | launchBlocking (part launch : Nat)
  | launchComplete (launch : Nat)
  | gangSlotRelease (gang : Nat)
  | cancelStop (team : Nat)
  | workgetReply (gang : Nat)
  | preemptRequest (part n q : Nat) (launch : Option Nat)
  | hwPreemptTrigger (part launch : Nat)
  | preemptNoticeExpiry (part : Nat)
  | contextSave (team : Nat)
  | savedTeamArrival (team : Nat) (a : SavedArrival)
  -- gang events and recovery
  | regangDeadlock (gang : Nat)
  | deadlineExpiry (gang : Nat)
  | trapEntry (gang : Nat)
  | hctlResume (part : Nat)
  | hctlDiscard (part : Nat)
  | singleBitError (part : Nat)
  | uncorrectableError (part : Nat) (place : ErrorPlace)
  | scrub
  -- circuits
  | slotMarker (j : Nat)
  | guardEnd
  | slotWindowClose (nextMarker : Bool)
  | circtlWrite (src : Source) (part : Nat) (v : Word)
  | slotSetup (j p : Nat)
  | slotTdown (j p : Nat)
  | portSetup (p : Nat)
  | portTdown (p : Nat)
  | setup (c : SetupRef) (peer : Nat) (caps : BitVec 7) (version : Nat × Nat)
  | ack (c : SetupRef) (caps : BitVec 7) (version : Nat)
  | nak (c : SetupRef) (cause : NakCause)
  | teardown (c : Circuit)
  | setupTimeout (c : Circuit)
  | setupRetry (c : Circuit)
  -- links, rings and lasers
  | flitSend (link : Nat)
  | dataFlitReceive (link : Nat) (f : Flit)
  | nakFlitReceive (link : Nat) (fseq : BitVec 12)
  | widthChangeFlit (link : Nat) (f : Flit)
  | remapFlit (link : Nat) (f : Flit)
  | ackTimeout (link : Nat)
  | clockRecoveryLoss (chan : Nat)
  | retrainComplete (link : Nat) (end_ : Retrained)
  | monitorSample (samples : List (Nat × BitVec 16 × BitVec 8))
  | laserLineLoss (array lam : Nat)
  | channelWakeComplete (chan : Nat) (locked : Bool)
  | channelParkComplete (chan : Nat)
  | linkTgtwWrite (src : Source) (part link : Nat) (w : BitVec 4)
  | linkRetrain (src : Source) (part link : Nat)
  | chanParkWrite (src : Source) (part chan : Nat) (park : Bool)
  | pairFabreqWrite (src : Source) (part pair : Nat) (peer : Bool)
  | planSpare (part chan : Nat) (ring : Bool)
  | planRelease (part chan : Nat)
  | planRetrain (part link : Nat)
  | planShare (part target : Nat)
  | planUnshare (part target : Nat) (recovered : Bool)
  | laserSample (array lam : Nat) (bias power : BitVec 12)
  | ageingCounterSave (array : Nat) (hours : AgedHours)
  -- isolation, host and identity
  | partitionResourceWrite (part addr : Nat) (v : Word)
  | shootdown (part : Nat) (nseq : BitVec 16)
  | shootdownComplete (part : Nat)
  | flushed (modid pkg part : Nat) (seq : BitVec 16)
  | faultQueueAck (part : Nat) (v : Word)
  | moduleAttest (part : Nat)
  | attestReportReceive (modid part : Nat) (m : AttestMsg)
  | moduleControllerRestart (modid : Nat)
  | attestReportRequest (part : Nat)
  | attestReportWritten (part : Nat)
  | hostBar2Access (part offset len : Nat) (write : Option (List Byte))
  -- start-up and housekeeping
  | powerOnReset (boot : BootResult)
  | linkPhaseTimeout
  | pcieTrained
  | meshPortUp (port : Nat)
  | opticalLightPoll (chans : List Nat)
  | channelTrainTimeout (chan : Nat)
  | powerStateRequest (req : BitVec 2)
  | thermalSample (temps : List (BitVec 10)) (watts : BitVec 12)
  | registerWrite (src : Source) (part addr : Nat) (v : Word)
  | controlMeshPortDown (port : Nat)
  | windowTableLoad (modid : Nat) (ws : List Window)
  | clockRampComplete
  | spareRingLock (chan : Nat) (locked : Bool)
  | channelTrainingComplete (chan : TrainedChan)
  deriving DecidableEq, Repr

end Sys2Proof
end

