-- ==== Sys2Proof/WellFormed.lean ====
section
/-! DEFINITION. Which terms of the syntax stand for a word or for a step of the machine: the codes that the instruction
descriptions list (R55, R56), and the numbers of the parts of a package (R7, R12, R13, R18, R361, R386). Register and
index fields are judged by the meanings, since they trap ILLEGAL_OPERAND (R40), and so is the count of WANY (R336). -/

namespace Sys2Proof

/-- PSET: 0 or 1 (R137). -/
def Code.pset (c : ByteField) : Bool := decide (c.toNat ≤ 1)
/-- VOTE, UNPACK, FSTAT, CANCEL and CNTRD: 0-3 (R138, R153, R280, R341). -/
def Code.low2 (c : ByteField) : Bool := decide (c.toNat ≤ 3)
/-- CVT: the types 0-13 (R150). -/
def Code.cvt (c : ByteField) : Bool := decide (c.toNat ≤ 13)
/-- GRED: 0-5 (R156). -/
def Code.gred (c : ByteField) : Bool := decide (c.toNat ≤ 5)
/-- GSCAN: 0-5 and 8-13 (R157). -/
def Code.gscan (c : ByteField) : Bool := decide (c.toNat ≤ 5) || (decide (8 ≤ c.toNat) && decide (c.toNat ≤ 13))
/-- FENCE: SCOPE 0-4 in [2:0], KIND in [5:4], the other bits 0 (R207). -/
def Code.fence (c : ByteField) : Bool := decide (c.toNat % 16 ≤ 4) && decide (c.toNat < 64)
/-- RFENCE: SCOPE 4 (R207). -/
def Code.rfence (c : ByteField) : Bool := decide (c.toNat % 16 = 4) && decide (c.toNat < 64)
/-- MROWSCL: op 0-2 in [1:0], F64 in [2], no exp2 under F64 (R177). -/
def Code.mrowscl (c : ByteField) : Bool :=
  decide (c.toNat < 8) && decide (c.toNat % 4 ≠ 3) && decide (c.toNat ≠ 6)
/-- MROWRED: op in [1:0], F64 in [2] (R178). -/
def Code.mrowred (c : ByteField) : Bool := decide (c.toNat < 8)
/-- MCVT: counter in [2:0], TRANS in [3], rounding in [6:4] but for 5 and 7 (R179). -/
def Code.mcvt (c : ByteField) : Bool :=
  decide (c.toNat < 128) && decide (c.toNat / 16 ≠ 5) && decide (c.toNat / 16 ≠ 7)
/-- MDRAIN: counter in [2:0], V in [3], S in [4] (R185). -/
def Code.mdrain (c : ByteField) : Bool := decide (c.toNat < 32)
/-- The unassigned opcodes (R54). -/
def Code.unassigned (op : Nat) : Bool :=
  op == 0x5F || op == 0x67 || op == 0x7F || (decide (0x9B ≤ op) && decide (op ≤ 0x9F)) || op == 0xAE || op == 0xAF ||
  (decide (0xC3 ≤ op) && decide (op ≤ 0xEF)) || (decide (0xFB ≤ op) && decide (op ≤ 0xFF))

/-- The term stands for a word that the encoding allows, or for a step whose numbers name parts of the package. -/
def Instr.wellFormed : Instr → Bool
  | .nop => true
  | .mode _ => true
  | .braAny _ => true
  | .braAll _ => true
  | .braz _ => true
  | .brx _ => true
  | .call _ => true
  | .ret => true
  | .exit => true
  | .regang _ => true
  | .yield => true
  | .mand _ => true
  | .mrestore _ => true
  | .msave _ => true
  | .mandn _ => true
  | .brk _ => true
  | .add _ _ _ => true
  | .sub _ _ _ => true
  | .mul _ _ _ => true
  | .mulh _ _ _ => true
  | .mad _ _ _ => true
  | .absd _ _ _ => true
  | .min _ _ _ => true
  | .max _ _ _ => true
  | .and _ _ _ => true
  | .or _ _ _ => true
  | .xor _ _ _ => true
  | .andn _ _ _ => true
  | .shl _ _ _ => true
  | .shr _ _ _ => true
  | .sar _ _ _ => true
  | .rotl _ _ _ => true
  | .addi _ _ _ => true
  | .shli _ _ _ => true
  | .shri _ _ _ => true
  | .sari _ _ _ => true
  | .andi _ _ _ => true
  | .ori _ _ _ => true
  | .li _ _ => true
  | .lih _ _ => true
  | .clz _ _ => true
  | .popc _ _ => true
  | .brev _ _ => true
  | .bfe _ _ _ => true
  | .bfi _ _ _ => true
  | .mov _ _ => true
  | .neg _ _ => true
  | .abs _ _ => true
  | .cmpEq _ _ _ => true
  | .cmpNe _ _ _ => true
  | .cmpLt _ _ _ => true
  | .cmpLe _ _ _ => true
  | .cmpGt _ _ _ => true
  | .cmpGe _ _ _ => true
  | .cmpUn _ _ _ => true
  | .cmpi _ _ _ _ => true
  | .pand _ _ _ => true
  | .por _ _ _ => true
  | .pxor _ _ _ => true
  | .pnot _ _ => true
  | .pmov _ _ => true
  | .pset _ code => Code.pset code
  | .vote _ _ code => Code.low2 code
  | .pfrom _ _ => true
  | .fadd _ _ _ => true
  | .fsub _ _ _ => true
  | .fmul _ _ _ => true
  | .fma _ _ _ => true
  | .fms _ _ _ => true
  | .fmin _ _ _ => true
  | .fmax _ _ _ => true
  | .fminnm _ _ _ => true
  | .fmaxnm _ _ _ => true
  | .fabs _ _ => true
  | .fneg _ _ => true
  | .frcp _ _ => true
  | .frsq _ _ => true
  | .fsqrt _ _ => true
  | .fdiv _ _ _ => true
  | .fexp2 _ _ => true
  | .flog2 _ _ => true
  | .fsin _ _ => true
  | .fcos _ _ => true
  | .fscale _ _ _ => true
  | .frnd _ _ => true
  | .fclass _ _ => true
  | .ftanh _ _ => true
  | .fsigm _ _ => true
  | .cvt _ _ code => Code.cvt code
  | .cvtb _ _ _ => true
  | .pack _ _ _ => true
  | .unpack _ _ code => Code.low2 code
  | .dot2 _ _ _ => true
  | .dot4 _ _ _ => true
  | .fcmpx _ _ _ => true
  | .perm _ _ _ => true
  | .shflXor _ _ _ => true
  | .shflUp _ _ _ => true
  | .shflDown _ _ _ => true
  | .gred _ _ code => Code.gred code
  | .gscan _ _ code => Code.gscan code
  | .bcast _ _ _ => true
  | .ld _ _ _ => true
  | .st _ _ _ => true
  | .ldv _ _ _ => true
  | .stv _ _ _ => true
  | .lr _ _ _ => true
  | .sc _ _ _ => true
  | .atomAdd _ _ _ => true
  | .atomMin _ _ _ => true
  | .atomMax _ _ _ => true
  | .atomAnd _ _ _ => true
  | .atomOr _ _ _ => true
  | .atomXor _ _ _ => true
  | .atomExch _ _ _ => true
  | .atomCas _ _ _ => true
  | .atomFadd _ _ _ => true
  | .fence code => Code.fence code
  | .ldt _ _ _ => true
  | .tagset _ _ _ => true
  | .taginv _ => true
  | .ldvs _ _ _ => true
  | .stvs _ _ _ => true
  | .ldp _ _ _ => true
  | .stp _ _ _ => true
  | .fget _ _ => true
  | .fput _ _ => true
  | .fcopy _ _ => true
  | .fred _ _ => true
  | .ffill _ _ => true
  | .fwalk _ _ => true
  | .frule _ _ => true
  | .fmcast _ _ => true
  | .mcrecv _ _ => true
  | .tagwaitAny _ => true
  | .tagwaitAll _ => true
  | .tagff _ _ => true
  | .tagrel _ => true
  | .chunkt _ _ _ => true
  | .winset _ _ => true
  | .fstat _ _ code => Code.low2 code
  | .rld _ _ _ => true
  | .rst _ _ _ => true
  | .ratomAdd _ _ _ => true
  | .ratomCas _ _ _ => true
  | .ratomFadd _ _ _ => true
  | .rfence code => Code.rfence code
  | .coll _ _ => true
  | .collq _ _ => true
  | .qsend _ _ => true
  | .qstat _ _ => true
  | .cslot _ => true
  | .mclaim _ => true
  | .mrel _ => true
  | .mload _ _ _ => true
  | .mma _ _ => true
  | .mmag _ _ => true
  | .mzero _ => true
  | .mrd _ _ _ => true
  | .mwr _ _ _ => true
  | .mrowscl _ _ code => Code.mrowscl code
  | .mcvt _ _ code => Code.mcvt code
  | .mdrain _ _ code => Code.mdrain code
  | .mfill _ _ _ => true
  | .mstat _ _ => true
  | .mrowred _ _ code => Code.mrowred code
  | .barinit _ _ _ => true
  | .bararr _ _ => true
  | .barwait _ _ => true
  | .bartest _ _ => true
  | .barbytes _ _ => true
  | .wany _ _ _ => true
  | .evmask _ => true
  | .evclr _ => true
  | .evget _ => true
  | .mbsend _ _ _ => true
  | .mbrecv _ _ => true
  | .kinc _ => true
  | .kwaitle _ _ => true
  | .krd _ _ => true
  | .deadl _ => true
  | .workget _ => true
  | .launch _ => true
  | .cancel _ code => Code.low2 code
  | .cntrd _ _ code => Code.low2 code
  | .sysrd _ _ => true
  | .syswr _ _ => true
  | .trap _ => true
  | .tret => true
  | .tsave _ => true
  | .tload _ => true
  | .acrrd _ => true
  | .acrwr _ => true
  | .halt => true
  | .ctxsv _ => true
  | .tlbinv _ => true
  | .illegalOpcode w => Code.unassigned (w.toNat / 0x1000000)
  | .fetchFault => true
  | .groupTurnSwitch core slot => decide (core < 160) && decide (slot < 64)
  | .vaultWriteApply _ => true
  | .vaultReadReply _ => true
  | .lrHoldExpiry _ => true
  | .engineOpComplete core => decide (core < 160)
  | .mclaimGrant core => decide (core < 160)
  | .mrelRelease core => decide (core < 160)
  | .followOnMmaAccept _ => true
  | .chunkLand _ _ => true
  | .farRequestEnd _ => true
  | .lintelAdmit core => decide (core < 160)
  | .moduleRequestArrival _ modid _ => decide (modid < 4096)
  | .forcedSelfRefresh modid => decide (modid < 4096)
  | .selfRefreshExit modid => decide (modid < 4096)
  | .cairnReadReturn _ _ => true
  | .corbelSlotFilled cluster slot => decide (cluster < 40) && decide (slot < 8)
  | .rldReply _ => true
  | .rstAck _ => true
  | .ratomResponse _ => true
  | .remoteOpArrival _ => true
  | .collMessageArrival _ => true
  | .qsendDataArrival _ => true
  | .qsendCompletionReport _ _ => true
  | .lqWrWrite part q _ => decide (part < 16) && decide (q < 32)
  | .launchPacketRead part q => decide (part < 16) && decide (q < 32)
  | .teamPlace part => decide (part < 16)
  | .launchBlocking part _ => decide (part < 16)
  | .launchComplete _ => true
  | .gangSlotRelease _ => true
  | .cancelStop _ => true
  | .workgetReply _ => true
  | .preemptRequest part _ q _ => decide (part < 16) && decide (q < 4)
  | .hwPreemptTrigger part _ => decide (part < 16)
  | .preemptNoticeExpiry part => decide (part < 16)
  | .contextSave _ => true
  | .savedTeamArrival _ _ => true
  | .regangDeadlock _ => true
  | .deadlineExpiry _ => true
  | .trapEntry _ => true
  | .hctlResume part => decide (part < 16)
  | .hctlDiscard part => decide (part < 16)
  | .singleBitError part => decide (part < 16)
  | .uncorrectableError part _ => decide (part < 16)
  | .scrub => true
  | .slotMarker j => decide (j < 64)
  | .guardEnd => true
  | .slotWindowClose _ => true
  | .circtlWrite _ part _ => decide (part < 16)
  | .slotSetup j p => decide (j < 64) && decide (p < 8)
  | .slotTdown j p => decide (j < 64) && decide (p < 8)
  | .portSetup p => decide (p < 8)
  | .portTdown p => decide (p < 8)
  | .setup _ _ _ _ => true
  | .ack _ _ _ => true
  | .nak _ _ => true
  | .teardown _ => true
  | .setupTimeout _ => true
  | .setupRetry _ => true
  | .flitSend link => decide (link < 128)
  | .dataFlitReceive link _ => decide (link < 128)
  | .nakFlitReceive link _ => decide (link < 128)
  | .widthChangeFlit link _ => decide (link < 128)
  | .remapFlit link _ => decide (link < 128)
  | .ackTimeout link => decide (link < 128)
  | .clockRecoveryLoss chan => decide (chan < 1024)
  | .retrainComplete link _ => decide (link < 1152)
  | .monitorSample _ => true
  | .laserLineLoss array lam => decide (array < 16) && decide (lam < 16)
  | .channelWakeComplete chan _ => decide (chan < 1024)
  | .channelParkComplete chan => decide (chan < 1024)
  | .linkTgtwWrite _ part link _ => decide (part < 16) && decide (link < 128)
  | .linkRetrain _ part link => decide (part < 16) && decide (link < 128)
  | .chanParkWrite _ part chan _ => decide (part < 16) && decide (chan < 1024)
  | .pairFabreqWrite _ part pair _ => decide (part < 16) && decide (pair < 64)
  | .planSpare part chan _ => decide (part < 16) && decide (chan < 1024)
  | .planRelease part chan => decide (part < 16) && decide (chan < 1024)
  | .planRetrain part link => decide (part < 16) && decide (link < 128)
  | .planShare part _ => decide (part < 16)
  | .planUnshare part _ _ => decide (part < 16)
  | .laserSample array lam _ _ => decide (array < 16) && decide (lam < 16)
  | .ageingCounterSave array _ => decide (array < 16)
  | .partitionResourceWrite part _ _ => decide (part < 16)
  | .shootdown part _ => decide (part < 16)
  | .shootdownComplete part => decide (part < 16)
  | .flushed modid _ part _ => decide (modid < 4096) && decide (part < 16)
  | .faultQueueAck part _ => decide (part < 16)
  | .moduleAttest part => decide (part < 16)
  | .attestReportReceive modid part _ => decide (modid < 4096) && decide (part < 16)
  | .moduleControllerRestart modid => decide (modid < 4096)
  | .attestReportRequest part => decide (part < 16)
  | .attestReportWritten part => decide (part < 16)
  | .hostBar2Access part _ len write => decide (part < 16) && match write with
    | some bs => decide (bs.length = len)
    | none => true
  | .powerOnReset _ => true
  | .linkPhaseTimeout => true
  | .pcieTrained => true
  | .meshPortUp port => decide (port < 2)
  | .opticalLightPoll _ => true
  | .channelTrainTimeout chan => decide (chan < 1024)
  | .powerStateRequest _ => true
  | .thermalSample temps _ => decide (temps.length = 5)
  | .registerWrite _ part _ _ => decide (part < 16)
  | .controlMeshPortDown port => decide (port < 2)
  | .windowTableLoad modid _ => decide (modid < 4096)
  | .clockRampComplete => true
  | .spareRingLock chan _ => decide (chan < 1024)
  | .channelTrainingComplete chan => decide (chan.chan < 1024)

end Sys2Proof
end

