-- ==== Sys2Proof/Decode.lean ====
section
/-! DEFINITION. From words to instructions and back (R53-R59, Tables 3.1 and 3.2). Decoding is total: it answers an
instruction, or the trap that the word raises. -/

namespace Sys2Proof

/-- Why a word is not an instruction (R54, R56). -/
inductive DecodeError where
  | illegalOpcode
  | illegalEncoding
  deriving DecidableEq, Repr

/-! ### The forms of Table 3.2 -/

/-- d, a and b are reserved. -/
def formZ (i : Instr) (d a b : BitVec 8) : Except DecodeError Instr :=
  if d = 0 ∧ a = 0 ∧ b = 0 then .ok i else .error .illegalEncoding
/-- Only a is used. -/
def formA (f : BitVec 8 → Instr) (d a b : BitVec 8) : Except DecodeError Instr :=
  if d = 0 ∧ b = 0 then .ok (f a) else .error .illegalEncoding
/-- Only d is used. -/
def formD (f : BitVec 8 → Instr) (d a b : BitVec 8) : Except DecodeError Instr :=
  if a = 0 ∧ b = 0 then .ok (f d) else .error .illegalEncoding
/-- Only a is used, a predicate. -/
def formP (f : BitVec 6 → Instr) (d a b : BitVec 8) : Except DecodeError Instr :=
  if d = 0 ∧ b = 0 ∧ a.toNat < 64 then .ok (f (a.setWidth 6)) else .error .illegalEncoding
/-- An imm16 in [15:0], d reserved. -/
def formI (f : BitVec 16 → Instr) (d a b : BitVec 8) : Except DecodeError Instr :=
  if d = 0 then .ok (f (a ++ b)) else .error .illegalEncoding
/-- d and a are used. -/
def formDA (f : BitVec 8 → BitVec 8 → Instr) (d a b : BitVec 8) : Except DecodeError Instr :=
  if b = 0 then .ok (f d a) else .error .illegalEncoding
/-- a and b are used. -/
def formAB (f : BitVec 8 → BitVec 8 → Instr) (d a b : BitVec 8) : Except DecodeError Instr :=
  if d = 0 then .ok (f a b) else .error .illegalEncoding
/-- A predicate destination with two registers. -/
def formPAB (f : BitVec 6 → BitVec 8 → BitVec 8 → Instr) (d a b : BitVec 8) : Except DecodeError Instr :=
  if d.toNat < 64 then .ok (f (d.setWidth 6) a b) else .error .illegalEncoding
/-- Three predicates. -/
def formPPP (f : BitVec 6 → BitVec 6 → BitVec 6 → Instr) (d a b : BitVec 8) : Except DecodeError Instr :=
  if d.toNat < 64 ∧ a.toNat < 64 ∧ b.toNat < 64 then .ok (f (d.setWidth 6) (a.setWidth 6) (b.setWidth 6))
  else .error .illegalEncoding
/-- Two predicates, b reserved. -/
def formPP (f : BitVec 6 → BitVec 6 → Instr) (d a b : BitVec 8) : Except DecodeError Instr :=
  if d.toNat < 64 ∧ a.toNat < 64 ∧ b = 0 then .ok (f (d.setWidth 6) (a.setWidth 6)) else .error .illegalEncoding
/-- A predicate destination and a register, b reserved. -/
def formPA (f : BitVec 6 → BitVec 8 → Instr) (d a b : BitVec 8) : Except DecodeError Instr :=
  if d.toNat < 64 ∧ b = 0 then .ok (f (d.setWidth 6) a) else .error .illegalEncoding
/-- A predicate destination and a code, a reserved. -/
def formPC (f : BitVec 6 → BitVec 8 → Instr) (ok : BitVec 8 → Bool) (d a b : BitVec 8) : Except DecodeError Instr :=
  if d.toNat < 64 ∧ a = 0 ∧ ok b = true then .ok (f (d.setWidth 6) b) else .error .illegalEncoding
/-- A register destination, a predicate and a code. -/
def formDPC (f : BitVec 8 → BitVec 6 → BitVec 8 → Instr) (ok : BitVec 8 → Bool) (d a b : BitVec 8) :
    Except DecodeError Instr :=
  if a.toNat < 64 ∧ ok b = true then .ok (f d (a.setWidth 6) b) else .error .illegalEncoding
/-- Two registers and a code. -/
def formDAC (f : BitVec 8 → BitVec 8 → BitVec 8 → Instr) (ok : BitVec 8 → Bool) (d a b : BitVec 8) :
    Except DecodeError Instr :=
  if ok b = true then .ok (f d a b) else .error .illegalEncoding
/-- A register in a and a code, d reserved. -/
def formAC (f : BitVec 8 → BitVec 8 → Instr) (ok : BitVec 8 → Bool) (d a b : BitVec 8) : Except DecodeError Instr :=
  if d = 0 ∧ ok b = true then .ok (f a b) else .error .illegalEncoding
/-- A code, d and a reserved. -/
def formC (f : BitVec 8 → Instr) (ok : BitVec 8 → Bool) (d a b : BitVec 8) : Except DecodeError Instr :=
  if d = 0 ∧ a = 0 ∧ ok b = true then .ok (f b) else .error .illegalEncoding

/-! ### The opcode map -/

/-- Row 0 of Table 3.1. -/
def decodeRow0 (lo : Nat) (d a b : BitVec 8) : Except DecodeError Instr :=
  match lo with
  | 0 => formZ .nop d a b
  | 1 => .ok (.mode (d ++ a ++ b))
  | 2 => .ok (.braAny (d ++ a ++ b))
  | 3 => .ok (.braAll (d ++ a ++ b))
  | 4 => .ok (.braz (d ++ a ++ b))
  | 5 => formA .brx d a b
  | 6 => .ok (.call (d ++ a ++ b))
  | 7 => formZ .ret d a b
  | 8 => formZ .exit d a b
  | 9 => formA .regang d a b
  | 10 => formZ .yield d a b
  | 11 => formP .mand d a b
  | 12 => formA .mrestore d a b
  | 13 => formD .msave d a b
  | 14 => formP .mandn d a b
  | _ => formI .brk d a b

/-- Row 1 of Table 3.1. -/
def decodeRow1 (lo : Nat) (d a b : BitVec 8) : Except DecodeError Instr :=
  match lo with
  | 0 => .ok (.add d a b)
  | 1 => .ok (.sub d a b)
  | 2 => .ok (.mul d a b)
  | 3 => .ok (.mulh d a b)
  | 4 => .ok (.mad d a b)
  | 5 => .ok (.absd d a b)
  | 6 => .ok (.min d a b)
  | 7 => .ok (.max d a b)
  | 8 => .ok (.and d a b)
  | 9 => .ok (.or d a b)
  | 10 => .ok (.xor d a b)
  | 11 => .ok (.andn d a b)
  | 12 => .ok (.shl d a b)
  | 13 => .ok (.shr d a b)
  | 14 => .ok (.sar d a b)
  | _ => .ok (.rotl d a b)

/-- Row 2 of Table 3.1. -/
def decodeRow2 (lo : Nat) (d a b : BitVec 8) : Except DecodeError Instr :=
  match lo with
  | 0 => .ok (.addi d a b)
  | 1 => .ok (.shli d a b)
  | 2 => .ok (.shri d a b)
  | 3 => .ok (.sari d a b)
  | 4 => .ok (.andi d a b)
  | 5 => .ok (.ori d a b)
  | 6 => .ok (.li d (a ++ b))
  | 7 => .ok (.lih d (a ++ b))
  | 8 => formDA .clz d a b
  | 9 => formDA .popc d a b
  | 10 => formDA .brev d a b
  | 11 => .ok (.bfe d a b)
  | 12 => .ok (.bfi d a b)
  | 13 => formDA .mov d a b
  | 14 => formDA .neg d a b
  | _ => formDA .abs d a b

/-- Row 3 of Table 3.1. -/
def decodeRow3 (lo : Nat) (d a b : BitVec 8) : Except DecodeError Instr :=
  match lo with
  | 0 => formPAB .cmpEq d a b
  | 1 => formPAB .cmpNe d a b
  | 2 => formPAB .cmpLt d a b
  | 3 => formPAB .cmpLe d a b
  | 4 => formPAB .cmpGt d a b
  | 5 => formPAB .cmpGe d a b
  | 6 => formPAB .cmpUn d a b
  | 7 => .ok (.cmpi (d.extractLsb' 6 2) (d.setWidth 6) a b)
  | 8 => formPPP .pand d a b
  | 9 => formPPP .por d a b
  | 10 => formPPP .pxor d a b
  | 11 => formPP .pnot d a b
  | 12 => formPP .pmov d a b
  | 13 => formPC .pset Code.pset d a b
  | 14 => formDPC .vote Code.low2 d a b
  | _ => formPA .pfrom d a b

/-- Row 4 of Table 3.1. -/
def decodeRow4 (lo : Nat) (d a b : BitVec 8) : Except DecodeError Instr :=
  match lo with
  | 0 => .ok (.fadd d a b)
  | 1 => .ok (.fsub d a b)
  | 2 => .ok (.fmul d a b)
  | 3 => .ok (.fma d a b)
  | 4 => .ok (.fms d a b)
  | 5 => .ok (.fmin d a b)
  | 6 => .ok (.fmax d a b)
  | 7 => .ok (.fminnm d a b)
  | 8 => .ok (.fmaxnm d a b)
  | 9 => formDA .fabs d a b
  | 10 => formDA .fneg d a b
  | 11 => formDA .frcp d a b
  | 12 => formDA .frsq d a b
  | 13 => formDA .fsqrt d a b
  | 14 => .ok (.fdiv d a b)
  | _ => formDA .fexp2 d a b

/-- Row 5 of Table 3.1. -/
def decodeRow5 (lo : Nat) (d a b : BitVec 8) : Except DecodeError Instr :=
  match lo with
  | 0 => formDA .flog2 d a b
  | 1 => formDA .fsin d a b
  | 2 => formDA .fcos d a b
  | 3 => .ok (.fscale d a b)
  | 4 => formDA .frnd d a b
  | 5 => formDA .fclass d a b
  | 6 => formDA .ftanh d a b
  | 7 => formDA .fsigm d a b
  | 8 => formDAC .cvt Code.cvt d a b
  | 9 => .ok (.cvtb d a b)
  | 10 => .ok (.pack d a b)
  | 11 => formDAC .unpack Code.low2 d a b
  | 12 => .ok (.dot2 d a b)
  | 13 => .ok (.dot4 d a b)
  | 14 => .ok (.fcmpx d a b)
  | _ => .error .illegalOpcode

/-- Row 6 of Table 3.1. -/
def decodeRow6 (lo : Nat) (d a b : BitVec 8) : Except DecodeError Instr :=
  match lo with
  | 0 => .ok (.perm d a b)
  | 1 => .ok (.shflXor d a b)
  | 2 => .ok (.shflUp d a b)
  | 3 => .ok (.shflDown d a b)
  | 4 => formDAC .gred Code.gred d a b
  | 5 => formDAC .gscan Code.gscan d a b
  | 6 => .ok (.bcast d a b)
  | 8 => .ok (.ld d a b)
  | 9 => .ok (.st d a b)
  | 10 => .ok (.ldv d a b)
  | 11 => .ok (.stv d a b)
  | 12 => .ok (.lr d a b)
  | 13 => .ok (.sc d a b)
  | 14 => .ok (.atomAdd d a b)
  | 15 => .ok (.atomMin d a b)
  | _ => .error .illegalOpcode

/-- Row 7 of Table 3.1. -/
def decodeRow7 (lo : Nat) (d a b : BitVec 8) : Except DecodeError Instr :=
  match lo with
  | 0 => .ok (.atomMax d a b)
  | 1 => .ok (.atomAnd d a b)
  | 2 => .ok (.atomOr d a b)
  | 3 => .ok (.atomXor d a b)
  | 4 => .ok (.atomExch d a b)
  | 5 => .ok (.atomCas d a b)
  | 6 => .ok (.atomFadd d a b)
  | 7 => formC .fence Code.fence d a b
  | 8 => .ok (.ldt d a b)
  | 9 => .ok (.tagset d a b)
  | 10 => formA .taginv d a b
  | 11 => .ok (.ldvs d a b)
  | 12 => .ok (.stvs d a b)
  | 13 => .ok (.ldp d a b)
  | 14 => .ok (.stp d a b)
  | _ => .error .illegalOpcode

/-- Row 8 of Table 3.1. -/
def decodeRow8 (lo : Nat) (d a b : BitVec 8) : Except DecodeError Instr :=
  match lo with
  | 0 => formAB .fget d a b
  | 1 => formAB .fput d a b
  | 2 => formAB .fcopy d a b
  | 3 => formAB .fred d a b
  | 4 => formAB .ffill d a b
  | 5 => formAB .fwalk d a b
  | 6 => formAB .frule d a b
  | 7 => formAB .fmcast d a b
  | 8 => formAB .mcrecv d a b
  | 9 => formA .tagwaitAny d a b
  | 10 => formA .tagwaitAll d a b
  | 11 => formDA .tagff d a b
  | 12 => formA .tagrel d a b
  | 13 => .ok (.chunkt d a b)
  | 14 => formAB .winset d a b
  | _ => formDAC .fstat Code.low2 d a b

/-- Row 9 of Table 3.1. -/
def decodeRow9 (lo : Nat) (d a b : BitVec 8) : Except DecodeError Instr :=
  match lo with
  | 0 => .ok (.rld d a b)
  | 1 => .ok (.rst d a b)
  | 2 => .ok (.ratomAdd d a b)
  | 3 => .ok (.ratomCas d a b)
  | 4 => .ok (.ratomFadd d a b)
  | 5 => formC .rfence Code.rfence d a b
  | 6 => formAB .coll d a b
  | 7 => formDA .collq d a b
  | 8 => formAB .qsend d a b
  | 9 => formDA .qstat d a b
  | 10 => formD .cslot d a b
  | _ => .error .illegalOpcode

/-- Row A of Table 3.1. -/
def decodeRowA (lo : Nat) (d a b : BitVec 8) : Except DecodeError Instr :=
  match lo with
  | 0 => formA .mclaim d a b
  | 1 => formA .mrel d a b
  | 2 => .ok (.mload d a b)
  | 3 => formAB .mma d a b
  | 4 => formAB .mmag d a b
  | 5 => formA .mzero d a b
  | 6 => .ok (.mrd d a b)
  | 7 => .ok (.mwr d a b)
  | 8 => formDAC .mrowscl Code.mrowscl d a b
  | 9 => formDAC .mcvt Code.mcvt d a b
  | 10 => formDAC .mdrain Code.mdrain d a b
  | 11 => .ok (.mfill d a b)
  | 12 => formDA .mstat d a b
  | 13 => formDAC .mrowred Code.mrowred d a b
  | _ => .error .illegalOpcode

/-- Row B of Table 3.1. -/
def decodeRowB (lo : Nat) (d a b : BitVec 8) : Except DecodeError Instr :=
  match lo with
  | 0 => .ok (.barinit d a b)
  | 1 => formDA .bararr d a b
  | 2 => formDA .barwait d a b
  | 3 => formDA .bartest d a b
  | 4 => formDA .barbytes d a b
  | 5 => .ok (.wany d a b)
  | 6 => formA .evmask d a b
  | 7 => formA .evclr d a b
  | 8 => formD .evget d a b
  | 9 => .ok (.mbsend d a b)
  | 10 => formDA .mbrecv d a b
  | 11 => formD .kinc d a b
  | 12 => formDA .kwaitle d a b
  | 13 => formDA .krd d a b
  | 14 => formA .deadl d a b
  | _ => formA .workget d a b

/-- Row C of Table 3.1. -/
def decodeRowC (lo : Nat) (d a b : BitVec 8) : Except DecodeError Instr :=
  match lo with
  | 0 => formA .launch d a b
  | 1 => formAC .cancel Code.low2 d a b
  | 2 => formDAC .cntrd Code.low2 d a b
  | _ => .error .illegalOpcode

/-- Row F of Table 3.1. -/
def decodeRowF (lo : Nat) (d a b : BitVec 8) : Except DecodeError Instr :=
  match lo with
  | 0 => .ok (.sysrd d (a ++ b))
  | 1 => .ok (.syswr d (a ++ b))
  | 2 => formI .trap d a b
  | 3 => formZ .tret d a b
  | 4 => formA .tsave d a b
  | 5 => formA .tload d a b
  | 6 => formD .acrrd d a b
  | 7 => formA .acrwr d a b
  | 8 => formZ .halt d a b
  | 9 => formA .ctxsv d a b
  | 10 => formA .tlbinv d a b
  | _ => .error .illegalOpcode

/-- The instruction of opcode op and fields d, a and b (Table 3.1). -/
def decodeFields (op d a b : BitVec 8) : Except DecodeError Instr :=
  match op.toNat / 16 with
  | 0 => decodeRow0 (op.toNat % 16) d a b
  | 1 => decodeRow1 (op.toNat % 16) d a b
  | 2 => decodeRow2 (op.toNat % 16) d a b
  | 3 => decodeRow3 (op.toNat % 16) d a b
  | 4 => decodeRow4 (op.toNat % 16) d a b
  | 5 => decodeRow5 (op.toNat % 16) d a b
  | 6 => decodeRow6 (op.toNat % 16) d a b
  | 7 => decodeRow7 (op.toNat % 16) d a b
  | 8 => decodeRow8 (op.toNat % 16) d a b
  | 9 => decodeRow9 (op.toNat % 16) d a b
  | 10 => decodeRowA (op.toNat % 16) d a b
  | 11 => decodeRowB (op.toNat % 16) d a b
  | 12 => decodeRowC (op.toNat % 16) d a b
  | 15 => decodeRowF (op.toNat % 16) d a b
  | _ => .error .illegalOpcode

/-- The instruction of a word (R53). -/
def decode (w : BitVec 32) : Except DecodeError Instr :=
  decodeFields (w.extractLsb' 24 8) (w.extractLsb' 16 8) (w.extractLsb' 8 8) (w.extractLsb' 0 8)

/-- The word that the four bytes at the PC hold, the byte at the PC lowest (R53). -/
def wordOfBytes (b0 b1 b2 b3 : BitVec 8) : BitVec 32 := b3 ++ b2 ++ b1 ++ b0

/-- The decoder on the bytes at the PC, with the bytes that follow the word. A word that is cut short is no word. -/
def decodeBytes : List (BitVec 8) → Option (Except DecodeError Instr × List (BitVec 8))
  | b0 :: b1 :: b2 :: b3 :: rest => some (decode (wordOfBytes b0 b1 b2 b3), rest)
  | _ => none

/-- Byte n of a word, little-endian (R53). -/
def byteOfWord (w : BitVec 32) (n : Nat) : BitVec 8 := w.extractLsb' (8 * n) 8

/-- The decoder on a row of the opcode table, its bits numbered as the table numbers them: one word, stored
little-endian at the PC (R53). A word has 32 bits. -/
def decodeTableWord (nbits w : Nat) : Option Instr :=
  let x := BitVec.ofNat 32 (w % 2 ^ nbits)
  match decodeBytes [byteOfWord x 0, byteOfWord x 1, byteOfWord x 2, byteOfWord x 3] with
  | some (.ok i, _) => some i
  | _ => none

/-! ### Encoding -/

/-- A word from its four fields (R53). -/
def word (op d a b : BitVec 8) : BitVec 32 := op ++ d ++ a ++ b
/-- A word with an imm16 in [15:0] (R53). -/
def word16 (op d : BitVec 8) (i : BitVec 16) : BitVec 32 := op ++ d ++ i
/-- A word with an imm24 in [23:0] (R53). -/
def word24 (op : BitVec 8) (i : BitVec 24) : BitVec 32 := op ++ i

/-- The word of an instruction; a step that no word names has none. -/
def encode : Instr → Option (BitVec 32)
  | .nop => .some (word 0x00 0 0 0)
  | .mode payload => .some (word24 0x01 payload)
  | .braAny i => .some (word24 0x02 i)
  | .braAll i => .some (word24 0x03 i)
  | .braz i => .some (word24 0x04 i)
  | .brx a => .some (word 0x05 0 a 0)
  | .call i => .some (word24 0x06 i)
  | .ret => .some (word 0x07 0 0 0)
  | .exit => .some (word 0x08 0 0 0)
  | .regang a => .some (word 0x09 0 a 0)
  | .yield => .some (word 0x0A 0 0 0)
  | .mand a => .some (word 0x0B 0 (a.setWidth 8) 0)
  | .mrestore a => .some (word 0x0C 0 a 0)
  | .msave d => .some (word 0x0D d 0 0)
  | .mandn a => .some (word 0x0E 0 (a.setWidth 8) 0)
  | .brk imm => .some (word16 0x0F 0 imm)
  | .add d a b => .some (word 0x10 d a b)
  | .sub d a b => .some (word 0x11 d a b)
  | .mul d a b => .some (word 0x12 d a b)
  | .mulh d a b => .some (word 0x13 d a b)
  | .mad d a b => .some (word 0x14 d a b)
  | .absd d a b => .some (word 0x15 d a b)
  | .min d a b => .some (word 0x16 d a b)
  | .max d a b => .some (word 0x17 d a b)
  | .and d a b => .some (word 0x18 d a b)
  | .or d a b => .some (word 0x19 d a b)
  | .xor d a b => .some (word 0x1A d a b)
  | .andn d a b => .some (word 0x1B d a b)
  | .shl d a b => .some (word 0x1C d a b)
  | .shr d a b => .some (word 0x1D d a b)
  | .sar d a b => .some (word 0x1E d a b)
  | .rotl d a b => .some (word 0x1F d a b)
  | .addi d a imm => .some (word 0x20 d a imm)
  | .shli d a imm => .some (word 0x21 d a imm)
  | .shri d a imm => .some (word 0x22 d a imm)
  | .sari d a imm => .some (word 0x23 d a imm)
  | .andi d a imm => .some (word 0x24 d a imm)
  | .ori d a imm => .some (word 0x25 d a imm)
  | .li d imm => .some (word16 0x26 d imm)
  | .lih d imm => .some (word16 0x27 d imm)
  | .clz d a => .some (word 0x28 d a 0)
  | .popc d a => .some (word 0x29 d a 0)
  | .brev d a => .some (word 0x2A d a 0)
  | .bfe d a b => .some (word 0x2B d a b)
  | .bfi d a b => .some (word 0x2C d a b)
  | .mov d a => .some (word 0x2D d a 0)
  | .neg d a => .some (word 0x2E d a 0)
  | .abs d a => .some (word 0x2F d a 0)
  | .cmpEq d a b => .some (word 0x30 (d.setWidth 8) a b)
  | .cmpNe d a b => .some (word 0x31 (d.setWidth 8) a b)
  | .cmpLt d a b => .some (word 0x32 (d.setWidth 8) a b)
  | .cmpLe d a b => .some (word 0x33 (d.setWidth 8) a b)
  | .cmpGt d a b => .some (word 0x34 (d.setWidth 8) a b)
  | .cmpGe d a b => .some (word 0x35 (d.setWidth 8) a b)
  | .cmpUn d a b => .some (word 0x36 (d.setWidth 8) a b)
  | .cmpi cond d a imm => .some (word 0x37 (cond ++ d) a imm)
  | .pand d a b => .some (word 0x38 (d.setWidth 8) (a.setWidth 8) (b.setWidth 8))
  | .por d a b => .some (word 0x39 (d.setWidth 8) (a.setWidth 8) (b.setWidth 8))
  | .pxor d a b => .some (word 0x3A (d.setWidth 8) (a.setWidth 8) (b.setWidth 8))
  | .pnot d a => .some (word 0x3B (d.setWidth 8) (a.setWidth 8) 0)
  | .pmov d a => .some (word 0x3C (d.setWidth 8) (a.setWidth 8) 0)
  | .pset d code => .some (word 0x3D (d.setWidth 8) 0 code)
  | .vote d a code => .some (word 0x3E d (a.setWidth 8) code)
  | .pfrom d a => .some (word 0x3F (d.setWidth 8) a 0)
  | .fadd d a b => .some (word 0x40 d a b)
  | .fsub d a b => .some (word 0x41 d a b)
  | .fmul d a b => .some (word 0x42 d a b)
  | .fma d a b => .some (word 0x43 d a b)
  | .fms d a b => .some (word 0x44 d a b)
  | .fmin d a b => .some (word 0x45 d a b)
  | .fmax d a b => .some (word 0x46 d a b)
  | .fminnm d a b => .some (word 0x47 d a b)
  | .fmaxnm d a b => .some (word 0x48 d a b)
  | .fabs d a => .some (word 0x49 d a 0)
  | .fneg d a => .some (word 0x4A d a 0)
  | .frcp d a => .some (word 0x4B d a 0)
  | .frsq d a => .some (word 0x4C d a 0)
  | .fsqrt d a => .some (word 0x4D d a 0)
  | .fdiv d a b => .some (word 0x4E d a b)
  | .fexp2 d a => .some (word 0x4F d a 0)
  | .flog2 d a => .some (word 0x50 d a 0)
  | .fsin d a => .some (word 0x51 d a 0)
  | .fcos d a => .some (word 0x52 d a 0)
  | .fscale d a b => .some (word 0x53 d a b)
  | .frnd d a => .some (word 0x54 d a 0)
  | .fclass d a => .some (word 0x55 d a 0)
  | .ftanh d a => .some (word 0x56 d a 0)
  | .fsigm d a => .some (word 0x57 d a 0)
  | .cvt d a code => .some (word 0x58 d a code)
  | .cvtb d a b => .some (word 0x59 d a b)
  | .pack d a b => .some (word 0x5A d a b)
  | .unpack d a code => .some (word 0x5B d a code)
  | .dot2 d a b => .some (word 0x5C d a b)
  | .dot4 d a b => .some (word 0x5D d a b)
  | .fcmpx d a b => .some (word 0x5E d a b)
  | .perm d a b => .some (word 0x60 d a b)
  | .shflXor d a b => .some (word 0x61 d a b)
  | .shflUp d a b => .some (word 0x62 d a b)
  | .shflDown d a b => .some (word 0x63 d a b)
  | .gred d a code => .some (word 0x64 d a code)
  | .gscan d a code => .some (word 0x65 d a code)
  | .bcast d a b => .some (word 0x66 d a b)
  | .ld d a imm => .some (word 0x68 d a imm)
  | .st d a imm => .some (word 0x69 d a imm)
  | .ldv d a b => .some (word 0x6A d a b)
  | .stv d a b => .some (word 0x6B d a b)
  | .lr d a b => .some (word 0x6C d a b)
  | .sc d a b => .some (word 0x6D d a b)
  | .atomAdd d a b => .some (word 0x6E d a b)
  | .atomMin d a b => .some (word 0x6F d a b)
  | .atomMax d a b => .some (word 0x70 d a b)
  | .atomAnd d a b => .some (word 0x71 d a b)
  | .atomOr d a b => .some (word 0x72 d a b)
  | .atomXor d a b => .some (word 0x73 d a b)
  | .atomExch d a b => .some (word 0x74 d a b)
  | .atomCas d a b => .some (word 0x75 d a b)
  | .atomFadd d a b => .some (word 0x76 d a b)
  | .fence code => .some (word 0x77 0 0 code)
  | .ldt d a b => .some (word 0x78 d a b)
  | .tagset d a b => .some (word 0x79 d a b)
  | .taginv a => .some (word 0x7A 0 a 0)
  | .ldvs d a b => .some (word 0x7B d a b)
  | .stvs d a b => .some (word 0x7C d a b)
  | .ldp d a b => .some (word 0x7D d a b)
  | .stp d a b => .some (word 0x7E d a b)
  | .fget a t => .some (word 0x80 0 a t)
  | .fput a t => .some (word 0x81 0 a t)
  | .fcopy a t => .some (word 0x82 0 a t)
  | .fred a t => .some (word 0x83 0 a t)
  | .ffill a t => .some (word 0x84 0 a t)
  | .fwalk a t => .some (word 0x85 0 a t)
  | .frule a t => .some (word 0x86 0 a t)
  | .fmcast a t => .some (word 0x87 0 a t)
  | .mcrecv a t => .some (word 0x88 0 a t)
  | .tagwaitAny a => .some (word 0x89 0 a 0)
  | .tagwaitAll a => .some (word 0x8A 0 a 0)
  | .tagff d a => .some (word 0x8B d a 0)
  | .tagrel a => .some (word 0x8C 0 a 0)
  | .chunkt d a b => .some (word 0x8D d a b)
  | .winset a b => .some (word 0x8E 0 a b)
  | .fstat d a code => .some (word 0x8F d a code)
  | .rld d a b => .some (word 0x90 d a b)
  | .rst d a b => .some (word 0x91 d a b)
  | .ratomAdd d a b => .some (word 0x92 d a b)
  | .ratomCas d a b => .some (word 0x93 d a b)
  | .ratomFadd d a b => .some (word 0x94 d a b)
  | .rfence code => .some (word 0x95 0 0 code)
  | .coll a t => .some (word 0x96 0 a t)
  | .collq d a => .some (word 0x97 d a 0)
  | .qsend a t => .some (word 0x98 0 a t)
  | .qstat d a => .some (word 0x99 d a 0)
  | .cslot d => .some (word 0x9A d 0 0)
  | .mclaim a => .some (word 0xA0 0 a 0)
  | .mrel a => .some (word 0xA1 0 a 0)
  | .mload d a b => .some (word 0xA2 d a b)
  | .mma a k => .some (word 0xA3 0 a k)
  | .mmag a k => .some (word 0xA4 0 a k)
  | .mzero a => .some (word 0xA5 0 a 0)
  | .mrd d a b => .some (word 0xA6 d a b)
  | .mwr d a b => .some (word 0xA7 d a b)
  | .mrowscl d a code => .some (word 0xA8 d a code)
  | .mcvt d a code => .some (word 0xA9 d a code)
  | .mdrain d a code => .some (word 0xAA d a code)
  | .mfill d a b => .some (word 0xAB d a b)
  | .mstat d a => .some (word 0xAC d a 0)
  | .mrowred d a code => .some (word 0xAD d a code)
  | .barinit n a b => .some (word 0xB0 n a b)
  | .bararr n a => .some (word 0xB1 n a 0)
  | .barwait n a => .some (word 0xB2 n a 0)
  | .bartest d n => .some (word 0xB3 d n 0)
  | .barbytes n a => .some (word 0xB4 n a 0)
  | .wany d a n => .some (word 0xB5 d a n)
  | .evmask a => .some (word 0xB6 0 a 0)
  | .evclr a => .some (word 0xB7 0 a 0)
  | .evget d => .some (word 0xB8 d 0 0)
  | .mbsend n a b => .some (word 0xB9 n a b)
  | .mbrecv d n => .some (word 0xBA d n 0)
  | .kinc n => .some (word 0xBB n 0 0)
  | .kwaitle n a => .some (word 0xBC n a 0)
  | .krd d n => .some (word 0xBD d n 0)
  | .deadl a => .some (word 0xBE 0 a 0)
  | .workget a => .some (word 0xBF 0 a 0)
  | .launch a => .some (word 0xC0 0 a 0)
  | .cancel a code => .some (word 0xC1 0 a code)
  | .cntrd d a code => .some (word 0xC2 d a code)
  | .sysrd d addr => .some (word16 0xF0 d addr)
  | .syswr d addr => .some (word16 0xF1 d addr)
  | .trap imm => .some (word16 0xF2 0 imm)
  | .tret => .some (word 0xF3 0 0 0)
  | .tsave a => .some (word 0xF4 0 a 0)
  | .tload a => .some (word 0xF5 0 a 0)
  | .acrrd d => .some (word 0xF6 d 0 0)
  | .acrwr a => .some (word 0xF7 0 a 0)
  | .halt => .some (word 0xF8 0 0 0)
  | .ctxsv a => .some (word 0xF9 0 a 0)
  | .tlbinv a => .some (word 0xFA 0 a 0)
  | .illegalOpcode _ => .none
  | .fetchFault => .none
  | .groupTurnSwitch _ _ => .none
  | .vaultWriteApply _ => .none
  | .vaultReadReply _ => .none
  | .lrHoldExpiry _ => .none
  | .engineOpComplete _ => .none
  | .mclaimGrant _ => .none
  | .mrelRelease _ => .none
  | .followOnMmaAccept _ => .none
  | .chunkLand _ _ => .none
  | .farRequestEnd _ => .none
  | .lintelAdmit _ => .none
  | .moduleRequestArrival _ _ _ => .none
  | .forcedSelfRefresh _ => .none
  | .selfRefreshExit _ => .none
  | .cairnReadReturn _ _ => .none
  | .corbelSlotFilled _ _ => .none
  | .rldReply _ => .none
  | .rstAck _ => .none
  | .ratomResponse _ => .none
  | .remoteOpArrival _ => .none
  | .collMessageArrival _ => .none
  | .qsendDataArrival _ => .none
  | .qsendCompletionReport _ _ => .none
  | .lqWrWrite _ _ _ => .none
  | .launchPacketRead _ _ => .none
  | .teamPlace _ => .none
  | .launchBlocking _ _ => .none
  | .launchComplete _ => .none
  | .gangSlotRelease _ => .none
  | .cancelStop _ => .none
  | .workgetReply _ => .none
  | .preemptRequest _ _ _ _ => .none
  | .hwPreemptTrigger _ _ => .none
  | .preemptNoticeExpiry _ => .none
  | .contextSave _ => .none
  | .savedTeamArrival _ _ => .none
  | .regangDeadlock _ => .none
  | .deadlineExpiry _ => .none
  | .trapEntry _ => .none
  | .hctlResume _ => .none
  | .hctlDiscard _ => .none
  | .singleBitError _ => .none
  | .uncorrectableError _ _ => .none
  | .scrub => .none
  | .slotMarker _ => .none
  | .guardEnd => .none
  | .slotWindowClose _ => .none
  | .circtlWrite _ _ _ => .none
  | .slotSetup _ _ => .none
  | .slotTdown _ _ => .none
  | .portSetup _ => .none
  | .portTdown _ => .none
  | .setup _ _ _ _ => .none
  | .ack _ _ _ => .none
  | .nak _ _ => .none
  | .teardown _ => .none
  | .setupTimeout _ => .none
  | .setupRetry _ => .none
  | .flitSend _ => .none
  | .dataFlitReceive _ _ => .none
  | .nakFlitReceive _ _ => .none
  | .widthChangeFlit _ _ => .none
  | .remapFlit _ _ => .none
  | .ackTimeout _ => .none
  | .clockRecoveryLoss _ => .none
  | .retrainComplete _ _ => .none
  | .monitorSample _ => .none
  | .laserLineLoss _ _ => .none
  | .channelWakeComplete _ _ => .none
  | .channelParkComplete _ => .none
  | .linkTgtwWrite _ _ _ _ => .none
  | .linkRetrain _ _ _ => .none
  | .chanParkWrite _ _ _ _ => .none
  | .pairFabreqWrite _ _ _ _ => .none
  | .planSpare _ _ _ => .none
  | .planRelease _ _ => .none
  | .planRetrain _ _ => .none
  | .planShare _ _ => .none
  | .planUnshare _ _ _ => .none
  | .laserSample _ _ _ _ => .none
  | .ageingCounterSave _ _ => .none
  | .partitionResourceWrite _ _ _ => .none
  | .shootdown _ _ => .none
  | .shootdownComplete _ => .none
  | .flushed _ _ _ _ => .none
  | .faultQueueAck _ _ => .none
  | .moduleAttest _ => .none
  | .attestReportReceive _ _ _ => .none
  | .moduleControllerRestart _ => .none
  | .attestReportRequest _ => .none
  | .attestReportWritten _ => .none
  | .hostBar2Access _ _ _ _ => .none
  | .powerOnReset _ => .none
  | .linkPhaseTimeout => .none
  | .pcieTrained => .none
  | .meshPortUp _ => .none
  | .opticalLightPoll _ => .none
  | .channelTrainTimeout _ => .none
  | .powerStateRequest _ => .none
  | .thermalSample _ _ => .none
  | .registerWrite _ _ _ _ => .none
  | .controlMeshPortDown _ => .none
  | .windowTableLoad _ _ => .none
  | .clockRampComplete => .none
  | .spareRingLock _ _ => .none
  | .channelTrainingComplete _ => .none

end Sys2Proof
end

