-- ==== Sys2Proof/Machine/Table.lean ====
section
/-! DEFINITION. Sparse tables: memories, register files and every other array of the machine. A table lists, with keys
strictly rising, the entries that differ from what an unlisted key reads as, so that equal tables are equal lists. -/

/-- An element put in its place in a sorted list, before its equals. -/
def List.insertBy {α : Type} (le : α → α → Bool) (x : α) : List α → List α
  | [] => [x]
  | y :: ys => if le x y then x :: y :: ys else y :: List.insertBy le x ys

/-- A list sorted by le; equals keep their order. -/
def List.sortedBy {α : Type} (l : List α) (le : α → α → Bool) : List α := l.foldr (List.insertBy le) []

namespace Sys2Proof.Machine

/-- A sparse table. -/
abbrev Tbl (α : Type) := List (Nat × α)

/-- The entry of key k; d is what an unlisted key reads as. -/
def Tbl.get {α : Type} (d : α) : Tbl α → Nat → α
  | [], _ => d
  | (j, v) :: t, k => if j = k then v else Tbl.get d t k

/-- The table with key k removed. -/
def Tbl.erase {α : Type} : Tbl α → Nat → Tbl α
  | [], _ => []
  | (j, v) :: t, k => if j = k then Tbl.erase t k else (j, v) :: Tbl.erase t k

/-- The table with entry v at key k, whatever v is. -/
def Tbl.insert {α : Type} : Tbl α → Nat → α → Tbl α
  | [], k, v => [(k, v)]
  | (j, w) :: t, k, v =>
    if k < j then (k, v) :: (j, w) :: t
    else if j = k then (k, v) :: t
    else (j, w) :: Tbl.insert t k v

/-- The table with entry v at key k: an entry that equals what an unlisted key reads as is not listed. -/
def Tbl.set {α : Type} [DecidableEq α] (d : α) (t : Tbl α) (k : Nat) (v : α) : Tbl α :=
  if v = d then Tbl.erase t k else Tbl.insert t k v

/-- The keys are above b and strictly rising. -/
def Tbl.sorted {α : Type} : Option Nat → Tbl α → Bool
  | _, [] => true
  | none, (j, _) :: t => Tbl.sorted (some j) t
  | some b, (j, _) :: t => decide (b < j) && Tbl.sorted (some j) t

/-- The canonical form of a table. -/
def Tbl.wf {α : Type} [DecidableEq α] (d : α) (t : Tbl α) : Bool :=
  Tbl.sorted none t && t.all (fun e => decide (e.2 ≠ d))

/-- The entry of key k changed by f. -/
def Tbl.modify {α : Type} [DecidableEq α] (d : α) (t : Tbl α) (k : Nat) (f : α → α) : Tbl α :=
  Tbl.set d t k (f (Tbl.get d t k))

/-- The table with the entry of every listed key changed by f. -/
def Tbl.mapAll {α : Type} [DecidableEq α] (d : α) (t : Tbl α) (f : Nat → α → α) : Tbl α :=
  t.foldl (fun acc e => Tbl.set d acc e.1 (f e.1 (Tbl.get d t e.1))) t

/-- A memory: bytes by address, 0 where nothing is listed. -/
abbrev Memory := Tbl Byte

/-- One byte of a memory. -/
def Memory.readByte (m : Memory) (a : Nat) : Byte := Tbl.get 0 m a

/-- One byte written. -/
def Memory.writeByte (m : Memory) (a : Nat) (v : Byte) : Memory := Tbl.set 0 m a v

/-- n bytes from address a, the lowest address first. -/
def Memory.readBytes (m : Memory) (a : Nat) : Nat → List Byte
  | 0 => []
  | n + 1 => Memory.readByte m a :: Memory.readBytes m (a + 1) n

/-- Bytes written from address a up. -/
def Memory.writeBytes (m : Memory) (a : Nat) : List Byte → Memory
  | [] => m
  | b :: bs => Memory.writeBytes (Memory.writeByte m a b) (a + 1) bs

/-- The number that bytes stand for, little-endian (R2). -/
def leNat : List Byte → Nat
  | [] => 0
  | b :: bs => b.toNat + 256 * leNat bs

/-- The n bytes of a number, little-endian (R2). -/
def leBytes : Nat → Nat → List Byte
  | 0, _ => []
  | n + 1, x => BitVec.ofNat 8 x :: leBytes n (x / 256)

/-- n bytes from address a as a number (R2). -/
def Memory.readNat (m : Memory) (a n : Nat) : Nat := leNat (Memory.readBytes m a n)

/-- A number written as n bytes from address a (R2). -/
def Memory.writeNat (m : Memory) (a n x : Nat) : Memory := Memory.writeBytes m a (leBytes n x)

/-- The canonical form of a memory. -/
abbrev Memory.wf (m : Memory) : Bool := Tbl.wf (0 : Byte) m

end Sys2Proof.Machine
end

