-- ==== Sys2Proof/Machine/Keccak.lean ====
section
/-! DEFINITION. SHAKE256 (FIPS 202), which the spec names for digests (R401, R405, R468). -/

namespace Sys2Proof.Machine

/-- A lane of the Keccak state: lane x + 5y. -/
abbrev Lanes := List (BitVec 64)

def laneAt (a : Lanes) (x y : Nat) : BitVec 64 := a.getD (x % 5 + 5 * (y % 5)) 0

/-- The state with every lane given by its coordinates. -/
def lanesOfFn (f : Nat → Nat → BitVec 64) : Lanes := (List.range 25).map (fun i => f (i % 5) (i / 5))

/-- Column parities. -/
def parity (a : Lanes) (x : Nat) : BitVec 64 :=
  laneAt a x 0 ^^^ laneAt a x 1 ^^^ laneAt a x 2 ^^^ laneAt a x 3 ^^^ laneAt a x 4

def theta (a : Lanes) : Lanes :=
  let c := (List.range 5).map (parity a)
  let d := (List.range 5).map (fun x => c.getD ((x + 4) % 5) 0 ^^^ (c.getD ((x + 1) % 5) 0).rotateLeft 1)
  lanesOfFn (fun x y => laneAt a x y ^^^ d.getD x 0)

/-- Rotation offsets, at x + 5y. -/
def rhoOffsets : List Nat :=
  [0, 1, 62, 28, 27, 36, 44, 6, 55, 20, 3, 10, 43, 25, 39, 41, 45, 15, 21, 8, 18, 2, 61, 56, 14]

def rhoPi (a : Lanes) : Lanes :=
  lanesOfFn (fun x y =>
    let sx := (x + 3 * y) % 5
    (laneAt a sx x).rotateLeft (rhoOffsets.getD (sx + 5 * x) 0))

def chi (b : Lanes) : Lanes :=
  lanesOfFn (fun x y => laneAt b x y ^^^ (~~~(laneAt b (x + 1) y) &&& laneAt b (x + 2) y))

/-- Round constants. -/
def roundConstants : List (BitVec 64) :=
  [0x0000000000000001#64, 0x0000000000008082#64, 0x800000000000808A#64, 0x8000000080008000#64,
   0x000000000000808B#64, 0x0000000080000001#64, 0x8000000080008081#64, 0x8000000000008009#64,
   0x000000000000008A#64, 0x0000000000000088#64, 0x0000000080008009#64, 0x000000008000000A#64] ++
  [0x000000008000808B#64, 0x800000000000008B#64, 0x8000000000008089#64, 0x8000000000008003#64,
   0x8000000000008002#64, 0x8000000000000080#64, 0x000000000000800A#64, 0x800000008000000A#64,
   0x8000000080008081#64, 0x8000000000008080#64, 0x0000000080000001#64, 0x8000000080008008#64]

/-- Keccak-f[1600]. -/
def keccakF (a : Lanes) : Lanes :=
  roundConstants.foldl (fun a rc =>
    let c := chi (rhoPi (theta a))
    (laneAt c 0 0 ^^^ rc) :: c.drop 1) a

/-- A block of 136 bytes absorbed. -/
def absorb (a : Lanes) (block : List Byte) : Lanes :=
  keccakF (lanesOfFn (fun x y =>
    let i := x + 5 * y
    laneAt a x y ^^^ (if i < 17 then BitVec.ofNat 64 (leNat ((block.drop (8 * i)).take 8)) else 0)))

/-- The message padded to blocks of 136 bytes. -/
def padShake (m : List Byte) : List Byte :=
  let k := 136 - m.length % 136
  if k = 1 then m ++ [0x9F] else m ++ [0x1F] ++ List.replicate (k - 2) 0 ++ [0x80]

/-- Blocks absorbed one after another; n bounds them. -/
def absorbAll : Nat → Lanes → List Byte → Lanes
  | 0, a, _ => a
  | n + 1, a, m => if m.isEmpty then a else absorbAll n (absorb a (m.take 136)) (m.drop 136)

/-- The first 8n bytes of SHAKE256, for n up to 17. -/
def shakeOut (n : Nat) (m : List Byte) : List Byte :=
  let p := padShake m
  let a := absorbAll (p.length / 136) (List.replicate 25 0) p
  (a.take n).flatMap (fun x => leBytes 8 x.toNat)

/-- The first 32 bytes of SHAKE256. -/
def shake256 (m : List Byte) : List Byte := shakeOut 4 m

end Sys2Proof.Machine
end

