-- ==== Sys2Proof/Config.lean ====
section
/-! DEFINITION. What one package fixes and the manual leaves open: uninterpreted constants, so that no proof can see
their values. -/

namespace Sys2Proof.Config

/-- An opaque byte of a reconvergence block or of a section of the team image whose layout is not architected
(R418, Table 17.9): a FREE value, byte n of the block (log 7). -/
opaque freeBlockByte (n : Nat) : BitVec 8

/-- Rows that a matrix operation had written when a freeze stopped it (R167, R188): a FREE value, at most the
operation's rows (log 8). -/
opaque freeFreezeRows (n : Nat) : Nat

/-- How far an engine of a module had come with a request when it was stopped, or how many requests a core had not yet
sent (R245, R420, R423): a FREE value (log 8). -/
opaque freeUnits (n : Nat) : Nat

/-- Local cycles from the raising of the halt line to the stop of an engine (Table 17.6, SKID): a FREE value, of which
the machine takes at most the bound of Table 17.5 (log 8). -/
opaque freeSkid (n : Nat) : Nat

/-- An address of a fault record that no rule states: a FREE value (log 11). -/
opaque freeAddr (n : Nat) : BitVec 56

/-- The number of cores that the distributor's own pre-emption request names: a FREE value, of which the machine takes 1
to 160 (R304, log 12). -/
opaque freeCores (n : Nat) : Nat

/-- The ML-DSA-65 signature of the device key over a message (R405, R406): uninterpreted (log 9). -/
opaque sign (message : List (BitVec 8)) : List (BitVec 8)

/-- A byte of a nonce that the package sends to a module (R407): a FREE value (log 9). -/
opaque freeNonce (n : Nat) : BitVec 8

/-- The signature over a message verifies against the vendor's ML-DSA-65 root key (R407): uninterpreted (log 9). -/
opaque verify (message signature : List (BitVec 8)) : Bool

/-- The package's ML-DSA-65 public key, 1,952 bytes (R406): uninterpreted (log 9). -/
opaque publicKey (n : Nat) : BitVec 8

end Sys2Proof.Config
end

