-- ==== Sys2Proof/Machine/State.lean ====
section
/-! DEFINITION. The state of one PF8 package, of the Enaris modules it reaches, and of the messages between them and the
world outside. Everything is plain data; arrays are sparse tables. -/

namespace Sys2Proof.Machine

/-! ### Gangs -/

/-- One element of a gang's register state: a lane of a vector register, a scalar register, a lane of a predicate. -/
inductive RegElem where
  | v (r lane : Nat)
  | s (i : Nat)
  | p (i lane : Nat)
  deriving DecidableEq, Repr

/-- A register named by a field or reached through one (R78). -/
inductive RegRef where
  | v (n : Nat)
  | s (n : Nat)
  | p (n : Nat)
  deriving DecidableEq, Repr

/-- A register that a fixed-latency word is still to write, whatever lanes it took effect in (R78): the register, a slice of the
producing group, and the distance that the slice's group has still to go. -/
structure Flight where
  reg : RegRef
  slice : Nat
  left : Nat
  deriving DecidableEq, Repr

/-- A fixed-latency result on its way (R72-R74): for each slice of the producing group, the distance that slice's group
has still to go. A predicate's value is its lowest bit. -/
structure Pending where
  dest : RegElem
  val : Word
  left : List (Nat × Nat)
  deriving DecidableEq, Repr

/-- What an interlocked register element waits for (R75): a request to the vault or to a scratchpad by rank, or a remote
operation. -/
inductive AwaitKind where
  | vault (n : Nat)
  | remote (ident : Nat)
  deriving DecidableEq, Repr

/-- An element whose variable-latency result is not yet written (R75). -/
structure Await where
  dest : RegElem
  kind : AwaitKind
  deriving DecidableEq, Repr

/-- A lane record (Table 17.3). -/
structure LaneRecord where
  addr : DWord
  cause : Byte
  flags : Byte
  more : BitVec 16
  detail : Word
  deriving DecidableEq, Repr

/-- A lane that holds no record reads as zero (R415). -/
def LaneRecord.zero : LaneRecord := ⟨0, 0, 0, 0, 0⟩

/-- Why a group is parked, with what its instruction read at issue (R312). fqfull: the record of its fault waits for room in the
fault queue (R404). present: the instruction may be presented again,
keeping its place among the requests parked (R188, R236, R241, R271). faulting: some lanes of the word at opc have faulted,
with their records, and the trap waits for the vault's answers to the others, the requests of one batch (R410). -/
inductive Park where
  | regang (m : SliceMask)
  | barwait (b : Nat) (p : Bool)
  | wany (d : Nat) (list : List Word)
  | kwaitle (k t : Nat)
  | tagwait (all : Bool) (mask : DWord)
  | tagrel (mask : DWord)
  | mbsend (gang m : Nat) (v : DWord)
  | mbrecv (d m : Nat)
  | mclaim (slots blocks : Word)
  | mrel (slots blocks : Word)
  | lintel (charge : Nat) (pool present : Bool)
  | corbel (present : Bool)
  | qfull (peer : Nat)
  | ratom (ident : Nat)
  | faultq (index : Nat)
  | fqfull (va : Nat) (lanes : LaneMask)
  | launchq (q : Nat) (bytes : List Byte)
  | workget
  | ctxsv
  | frozen (present : Bool)
  | faulting (batch : Nat) (opc : VAddr) (records : List (Nat × LaneRecord))
  deriving DecidableEq, Repr

/-- A group of slices that share one PC (R26). since orders parks; deliver: the next instruction runs as in the hardware
mode of translation faults (R404, step 4); idle: cycles, the present one included, before the group may issue again after
its last word (R68, R307). -/
structure Group where
  slices : SliceMask
  pc : VAddr
  park : Option Park
  since : Nat
  deliver : Bool := false
  idle : Nat := 0
  deriving DecidableEq, Repr

/-- What the reconvergence block captures (R412, R418). -/
structure Block where
  groups : List Group
  trapping : SliceMask
  emask : LaneMask
  mr : Tbl (BitVec 24)
  deriving DecidableEq, Repr

/-- The trap state registers 0x1800-0x1809 (Table 17.2), without INH. -/
structure TrapState where
  cause : Byte
  laneClass : Bool
  known : Bool
  defer : Bool
  badblk : Bool
  loaded : Bool
  imm : BitVec 16
  tpc : VAddr
  tmask : LaneMask
  tlanes : LaneMask
  rpc : VAddr
  opc : VAddr
  group : SliceMask
  live : SliceMask
  ngrp : Nat
  deriving DecidableEq, Repr

/-- The trap state after reset and after TRET. -/
def TrapState.zero : TrapState :=
  { cause := 0, laneClass := false, known := false, defer := false, badblk := false, loaded := false, imm := 0,
    tpc := 0, tmask := 0, tlanes := 0, rpc := 0, opc := 0, group := 0, live := 0, ngrp := 0 }

/-- Where a deferred fault is posted (R411). -/
inductive PostedAt where
  | counter (k : Nat)
  | tag (t : Nat)
  | elems (es : List RegElem)
  | barrier (b : Nat)
  deriving DecidableEq, Repr

/-- A fault posted and not yet delivered (R190, R229, R284, R286, R322). lanes: the lanes that take a record, with their
addresses and causes; none for the lowest-numbered lane of the rule; ecc: those whose word holds an error (R430). req: the request or remote operation it belongs to. -/
structure Posted where
  at_ : PostedAt
  cause : Byte
  addr : Nat
  lanes : List (Nat × Nat × Byte)
  opc : VAddr
  flags : Byte
  fdet : Byte
  req : Nat
  more : Nat
  chunks : List (Bool × Nat)
  ecc : List Nat := []
  deriving DecidableEq, Repr

/-- A trap that a gang is to take before it issues again, at the group of these slices; handler: it fell on the gang in
handler mode. -/
structure PendTrap where
  cause : Byte
  handler : Bool
  slices : SliceMask
  posted : Option Posted
  tpc : VAddr
  opc : VAddr
  deriving DecidableEq, Repr

/-- A gang (Table 2.2 and the rules that add to it). turn: the lowest slice of the group that has
the turn; turnIssues: its issues in that turn, more than 32 once it has given the turn up (R29, R309); waitFrom: the cycle in
which the gang was last not ready, or issued (R308);
yielded: the cycle in which the other ready gangs of its sub-core come first (R124). -/
structure Gang where
  team : Nat
  index : Nat
  rank : Nat
  core : Nat
  slot : Nat
  alloc : Nat
  v : Tbl Word
  s : Tbl Word
  p : Tbl Bool
  pend : List Pending
  flight : List Flight
  awaits : List Await
  mr : Tbl (BitVec 24)
  emask : LaneMask
  exited : LaneMask
  groups : List Group
  turn : Nat
  turnIssues : Nat
  plumbEn : Bool
  plumbSt : BitVec 15
  acr : Word
  mxf : BitVec 6
  k : Tbl Nat
  tokens : List (Nat × Nat)
  posted : List Posted
  evpend : BitVec 19
  evmask : BitVec 27
  deadline : Nat
  mbox : Tbl (Option DWord)
  reserve : Tbl (Option Nat)
  workget : Option Nat
  ctxsv : Bool
  inh : Bool
  trap : TrapState
  records : Tbl LaneRecord
  block : Option Block
  pendTraps : List PendTrap
  fixedAllow : Option Nat
  waitFrom : Nat
  yielded : Option Nat
  ended : Bool
  stopped : Bool
  deriving DecidableEq, Repr

/-! ### Teams -/

/-- A barrier (Table 11.3). -/
structure Barrier where
  phase : Bool
  expg : Nat
  expb : Nat
  dmem : SliceMask
  arr : Nat
  early : Nat
  bytes : Nat
  ebytes : Nat
  umask : SliceMask
  eumask : SliceMask
  a : BitVec 128
  e : BitVec 128
  mism : Bool
  ovb : Bool
  deriving DecidableEq, Repr

/-- A barrier at team placement (Table 11.3); n: the team's gang count. -/
def Barrier.init (n : Nat) : Barrier :=
  { phase := false, expg := n, expb := 0, dmem := 0xFF, arr := 0, early := 0, bytes := 0, ebytes := 0,
    umask := 0, eumask := 0, a := 0, e := 0, mism := false, ovb := false }

/-- What a team keeps on one of its cores: its scratchpad and its arrival maps (R192, R234). A map counts the
outstanding writers of each chunk; its bit is 1 where the count is 0. -/
structure TeamCore where
  core : Nat
  scratch : Memory
  spadWriters : Tbl Nat
  slotWriters : Tbl Nat
  spadErr : List Nat
  slotErr : List Nat
  deriving DecidableEq, Repr

/-! ### Cores -/

/-- The states of a tag (R227). -/
inductive TagState where
  | free
  | busy
  | ready
  deriving DecidableEq, Repr

/-- A copy tag (Table 8.3, R228). -/
structure Tag where
  state : TagState
  err : Bool
  cause : Byte
  pend : Nat
  owner : Nat
  deriving DecidableEq, Repr

/-- A free tag. -/
def Tag.reset : Tag := { state := .free, err := false, cause := 0, pend := 0, owner := 0 }

/-- An entry of the scratchpad tag table (R240). -/
structure TagEntry where
  valid : Bool
  team : Nat
  key : Word
  val : Word
  deriving DecidableEq, Repr

/-- A cleared entry. -/
def TagEntry.reset : TagEntry := { valid := false, team := 0, key := 0, val := 0 }

/-- An operation of the matrix engine that completes to a counter (R166). grouped: an MMAG. -/
inductive EngineKind where
  | mma (grouped : Bool) (desc : List Word) (groups : List Nat)
  | mcvt (src0 src1 dst0 dst1 : Word) (trans : Bool) (rnd : Nat)
  | mdrain (slotSource : Bool) (src : Word) (vault : Bool) (dst : Nat)
  deriving DecidableEq, Repr

/-- An accepted operation of the matrix engine that has not completed (R164-R167). counted: the number at which its
counter rose (R176, R326); next: rows written so far; ran: its effect on slots and rows is made; out: the bytes a drain has
read; flags: for MXF. -/
structure EngineOp where
  id : Nat
  gang : Nat
  team : Nat
  opc : VAddr
  k : Nat
  counted : Nat
  kind : EngineKind
  next : Nat
  ran : Bool
  out : List Byte
  flags : BitVec 6
  faults : List Posted
  deriving DecidableEq, Repr

/-- What a core holds (R42). freeFrom: the first cycle in which a unit that was given back may be claimed again (R163): slot n
is unit n, row block n is unit 32 + n. -/
structure Core where
  tags : Tbl Tag
  table : Tbl TagEntry
  slotOwner : Tbl (Option Nat)
  blockOwner : Tbl (Option Nat)
  slots : Memory
  acc : Tbl Word
  poison : Tbl Bool
  engine : List EngineOp
  heldMma : List (Nat × EngineOp)
  freeFrom : Tbl Nat
  deriving DecidableEq, Repr

/-- A core after reset. -/
def Core.reset : Core :=
  { tags := [], table := [], slotOwner := [], blockOwner := [], slots := [], acc := [], poison := [],
    engine := [], heldMma := [], freeFrom := [] }

/-- What a saved team keeps of one of its cores, in the order of its ranks (R424, R426): tags, operations of the engine
that have not completed and those held by the freeze, masks of the slots and blocks held, poisoned rows. -/
structure SavedCore where
  tags : Tbl Tag
  ops : List EngineOp
  held : List (Nat × EngineOp)
  slots : Word
  blocks : Word
  poison : List Nat
  deriving DecidableEq, Repr

/-- How a team stands (R298, R301, R305). -/
inductive TeamStatus where
  | running
  | saved
  | ended
  | stopped
  deriving DecidableEq, Repr

/-- A team (R24, Table 2.1). workgets: WORKGETs that outlive their gangs, whose slots are released: gang, core by rank and
offset of the mailbox (R31, R303). -/
structure Team where
  part : Nat
  launch : Nat
  tid : Nat
  gangs : Nat
  cores : List TeamCore
  alloc : Nat
  priv : Bool
  barriers : Tbl Barrier
  status : TeamStatus
  victim : Bool
  withdrawn : List Nat
  order : Nat
  image : Option Nat
  saving : Bool
  saved : List SavedCore
  workgets : List (Nat × Nat × Nat) := []
  deriving DecidableEq, Repr

/-- A slot of a cluster's Corbel (R241, R242). left: cores that have not drained it; claimed: cores claimed for. -/
structure CorbelSlot where
  used : Bool
  full : Bool
  len : Nat
  order : Nat
  chan : Nat
  launch : Nat
  left : List Nat
  claimed : List Nat
  data : List Byte
  deriving DecidableEq, Repr

/-- A free slot. -/
def CorbelSlot.reset : CorbelSlot :=
  { used := false, full := false, len := 0, order := 0, chan := 0, launch := 0, left := [], claimed := [], data := [] }

/-! ### Vault -/

/-- Who acts on the vault, for LR holds and reservations (R220, R222). -/
inductive Actor where
  | lane (gang lane : Nat)
  | engine (gang : Nat)
  | iod
  deriving DecidableEq, Repr

/-- What the package sends out: the log of its messages, interrupts and records. -/
inductive Out where
  | msix (part vec : Nat)
  | pfMsix (vec : Nat)
  | circSetup (c : SetupRef) (peer : Nat)
  | circAck (c : SetupRef) (peer : Nat)
  | circNak (c : SetupRef) (peer : Nat) (cause : NakCause)
  | circTeardown (c : Circuit) (peer : Nat)
  | qsendReport (pkg ident : Nat) (failed : Option QFault)
  | flushedTo (part : Nat) (seq : BitVec 16)
  | attest (modid part : Nat) (nonce : List Byte)
  | attestReport (modid part : Nat) (report : List Byte)
  | flit (link : Nat) (f : Flit)
  | hostRead (part : Nat) (bytes : List Byte)
  | hostUnsupported (part : Nat)
  | hostAbort (part : Nat)
  | hostRegister (src : Source) (part addr : Nat) (v : Word)
  deriving DecidableEq, Repr

/-- What one vault request does (R204, R263-R266). A write holds the number that its bytes stand for; booked: the place, in
order of arrival, of a write that waits and is made by a step of its own (R222). -/
inductive VaultKind where
  | read
  | write (v : Nat)
  | atom (op : Nat) (etype : BitVec 4) (sat : Bool) (x new : DWord)
  | lr
  | sc (v : DWord)
  | booked
  deriving DecidableEq, Repr

/-- A vault request that is not yet applied or answered (R204). batch: the number that the requests of one instruction
share; agent: its agent, 0-4; stamp: the clock it carries; dst: the elements that receive the result; after: what is sent
once it is performed (R295, R404, R406); opc: the PC of its instruction; va: its virtual address. -/
structure VaultReq where
  id : Nat
  batch : Nat
  actor : Actor
  agent : Nat
  pa : Nat
  size : Nat
  kind : VaultKind
  stamp : List (BitVec 16)
  etype : BitVec 4
  dst : List RegElem
  after : List Out
  opc : VAddr := 0
  va : Nat := 0
  deriving DecidableEq, Repr

/-- A lane's access to the scratchpad of one of the team's cores that is not yet performed (R199, R200, R260, R261, R263): the
gang, its team, the core, whether it names the gang's own core by an offset alone, the offset in the allocation, what it does,
and the elements that receive the result. -/
structure PadReq where
  id : Nat
  gang : Nat
  team : Nat
  core : Nat
  own : Bool
  off : Nat
  size : Nat
  kind : VaultKind
  etype : BitVec 4
  dst : List RegElem
  deriving DecidableEq, Repr

/-- A store of the IOD agent that waits to be stamped, for it may have no more unapplied (R205): where, what, and what is
sent once it is performed. -/
structure IodStore where
  pa : Nat
  bytes : List Byte
  after : List Out
  deriving DecidableEq, Repr

/-- A lane's hold on a granule, up to the cycle til (R222). bare: since its LR the gang has issued only words that a constrained
loop may hold (R223). -/
structure LrHold where
  id : Nat
  batch : Nat
  gang : Nat
  lane : Nat
  granule : Nat
  til : Nat
  bare : Bool
  deriving DecidableEq, Repr

/-- A cached translation (R396): the page, its size and the entry. -/
structure CachedPage where
  part : Nat
  va : Nat
  size : Nat
  entry : DWord
  deriving DecidableEq, Repr

/-! ### Far requests and modules -/

/-- A run of far bytes of a request that lies on one page of one module: local offset of the run's first byte, far address,
the page's first address, module, module offset, length, sequence number (R225). -/
structure Piece where
  local_ : Nat
  far : Nat
  page : Nat
  modid : Nat
  offset : Nat
  len : Nat
  mseq : BitVec 16
  deriving DecidableEq, Repr

/-- The tensor box of FGET and FPUT (Table 8.4). -/
structure BoxDesc where
  far : Nat
  loc : Nat
  laddr : Nat
  ndim : Nat
  esz : Nat
  b0 : Nat
  b1 : Nat
  b2 : Nat
  b3 : Nat
  st1 : Nat
  st2 : Nat
  st3 : Nat
  bar : Option Nat
  fmma : Option (Nat × List Word)
  deriving DecidableEq, Repr

/-- A walk of the Cairn as it runs (R248-R253). wait: the memory read under way, its module offset and length. -/
structure Walk where
  start : Nat
  prog : Nat
  pol : Nat
  limit : Nat
  key : List Byte
  res : Nat
  modid : Nat
  mseq : BitVec 16
  words : List Word
  p : Nat
  w : Tbl DWord
  staged : List Byte
  steps : Nat
  retries : Nat
  rule : Nat
  run : Nat
  reads : Nat
  started : Bool
  wait : Option (Nat × Nat)
  result : Option (List Byte)
  deriving DecidableEq, Repr

/-- What a far request does (Table 9.5), and the two fabric requests that end under a tag. -/
inductive FarKind where
  | get (b : BoxDesc)
  | put (b : BoxDesc)
  | copy (dst src len : Nat)
  | red (fmt dst src len : Nat)
  | fill (dst len : Nat) (pat : DWord)
  | walk
  | rule (prog : Nat) (words : List Word) (mva : Nat)
  | mcast (cluster slot : Nat) (fromSp : Bool) (src len : Nat)
  | mcrecv (chan dest : Nat) (claimed : Option Nat)
  | coll (comm : Nat)
  | qsend (peer : Nat) (kc : Option Nat)
  deriving DecidableEq, Repr

/-- A failure of a request (Table 8.2): cause, address, ECC, FDET. -/
structure FarFail where
  cause : Byte
  addr : Nat
  ecc : Bool
  fdet : Byte
  deriving DecidableEq, Repr

/-- A request accepted under a tag that has not ended (R227). pieces, srcPieces: the far runs it writes or reads, and those
that FCOPY and FRED read; sent: the package's checks passed; arrived: the modules that have performed it; src: bytes read
at the source, by local offset; chunks: local chunks that have not landed; fails: its failures, each with its place in the
order of R226; pool: the core whose Lintel pool holds the charge (R424); posted: a failure has been posted to its gang
(R229); left: the runs without effect so far at the modules where a stop has caught it (R420); held: it was not yet sent
when its partition halted (R423); performed: its own step is done (a follow-on MMA accepted, a tile in its slot, a walk's or
a drain's landing begun). -/
structure FarReq where
  gang : Nat
  team : Nat
  core : Nat
  tag : Nat
  opc : VAddr
  kind : FarKind
  charge : Nat
  pool : Nat
  pieces : List Piece
  srcPieces : List Piece
  arrived : List Nat
  sent : Bool
  src : Tbl (Option Byte)
  chunks : List Nat
  landed : Nat
  fails : List (Nat × FarFail)
  badChunks : List (Bool × Nat)
  posted : Bool
  left : List (Nat × List Piece)
  held : Bool
  walk : Option Walk
  performed : Bool
  deriving DecidableEq, Repr

/-- An Enaris module as this package sees it (R18, R398). refresh: it is in self-refresh or powered down; asked: a request for
that waits (R245). -/
structure Module where
  windows : List Window
  programs : Tbl (List Word)
  mem : Memory
  refresh : Bool
  asked : Bool
  deriving DecidableEq, Repr

/-- A module after reset: nothing granted, nothing installed. -/
def Module.reset : Module := { windows := [], programs := [], mem := [], refresh := false, asked := false }

/-! ### Remote operations, collectives and send queues -/

/-- A remote operation that this package has sent and whose answer is outstanding (R282-R284). mask, tmask: the issuing
group's slices and active lanes; answered: lanes answered; faults: records of a RATOM's faulting lanes so far. -/
structure RemoteOut where
  gang : Nat
  opc : VAddr
  d : Nat
  kc : Option Nat
  op : RemoteOp
  peer : Nat
  mask : SliceMask
  tmask : LaneMask
  answered : List Nat
  faults : List (Nat × LaneRecord)
  deriving DecidableEq, Repr

/-- A descriptor in a send queue (R370). part: the partition of the peer that the domain entry named as it was accepted
(R400); src: its source as physical runs, at the virtual address va; sent: bytes sent so far. -/
structure QDesc where
  req : Nat
  part : Nat
  src : List (Nat × Nat)
  va : Nat
  dst : Nat
  len : Nat
  note : Bool
  nva : Nat
  sent : Nat
  deriving DecidableEq, Repr

/-- A COLL accepted here and not ended (R286). recv: its destination as physical runs. -/
structure CollLocal where
  req : Nat
  recv : List (Nat × Nat)
  msg : CollMsg
  deriving DecidableEq, Repr

/-- A communicator's progress at this package (R286, R289). -/
structure Comm where
  accepted : Nat
  ended : Nat
  mis : Bool
  waiting : List CollLocal
  msgs : List CollMsg
  deriving DecidableEq, Repr

/-- A communicator on which nothing has happened. -/
def Comm.reset : Comm := { accepted := 0, ended := 0, mis := false, waiting := [], msgs := [] }

/-! ### Partitions and launches -/

/-- A launch queue (Table 10.1). -/
structure LaunchQueue where
  base : Nat
  en : Bool
  log2n : Nat
  ref : Bool
  wr : BitVec 16
  rd : BitVec 16
  deriving DecidableEq, Repr

/-- A launch queue after reset. -/
def LaunchQueue.reset : LaunchQueue := { base := 0, en := false, log2n := 4, ref := false, wr := 0, rd := 0 }

/-- A launch read and not completed (R293, R296, R301). order: place in which it was read; readyAt: place in which it
became ready. -/
structure Launch where
  part : Nat
  lid : Word
  prio : Nat
  irq : Bool
  igncxl : Bool
  vec : Nat
  entry : VAddr
  vregs : Nat
  gangs : Nat
  cores : Nat
  scratch : Nat
  total : Nat
  graph : Nat
  phase : Nat
  job : Nat
  cpla : Nat
  args : List Word
  priv : Bool
  preds : List Nat
  order : Nat
  readyAt : Nat
  nextTid : Nat
  gone : Nat
  counted : Nat
  cancelled : Bool
  stopped : Bool
  blocking : Bool
  deriving DecidableEq, Repr

/-- A pre-emption notice in force (R304, R305). -/
structure Notice where
  victims : List Nat
  prio : Nat
  expired : Bool
  vacated : List Nat
  deriving DecidableEq, Repr

/-- A partition's registers and holdings. nonces: what it has sent to the modules that it attests (R407); planRun: the
planned step under way, by CMD and TGT; shootAt: requests below this number are awaited by the shootdown under way (R397). -/
structure Partition where
  privq : Word
  modes : BitVec 6
  vbase : Nat
  vsize : Nat
  clusters : BitVec 40
  ptbase : Nat
  topbits : Nat
  seq : BitVec 16
  stale : Bool
  nseq : BitVec 16
  shootBusy : Bool
  dombase : Nat
  commbase : Nat
  fqbase : Nat
  fqlog2n : Nat
  fqwr : BitVec 16
  fqrd : BitVec 16
  fqlost : Nat
  fqvec : Byte
  shvec : Byte
  atvec : Byte
  stvec : Byte
  modid : Nat
  trust : Tbl Nat
  nonces : Tbl (List Byte)
  attaddr : Nat
  abusy : Bool
  aerr : Bool
  queues : Tbl LaunchQueue
  served : Tbl Nat
  notices : List Notice
  th : VAddr
  then_ : Bool
  ctxbase : Nat
  ctxsize : Nat
  ctxUsed : List (Nat × Nat)
  stopbase : Nat
  halted : Bool
  fatal : Bool
  first : Byte
  hseq : BitVec 16
  stopLost : Nat
  stopNext : Nat
  sece : Nat
  seue : Nat
  noroom : Bool
  sendq : Tbl (List QDesc)
  comms : Tbl Comm
  optvec : Byte
  opten : Bool
  planCmd : BitVec 4
  planTgt : Nat
  planRing : Bool
  planStatus : Nat
  planRun : Option (Nat × Nat)
  shootAt : Nat
  deriving DecidableEq, Repr

/-- A partition after reset (Table 16.3, Table 17.7, Table 10.1, Tables 18.5 and 18.6). -/
def Partition.reset : Partition :=
  { privq := 0, modes := 0, vbase := 0, vsize := 0, clusters := 0, ptbase := 0, topbits := 0, seq := 0,
    stale := false, nseq := 0, shootBusy := false, dombase := 0, commbase := 0, fqbase := 0, fqlog2n := 4,
    fqwr := 0, fqrd := 0, fqlost := 0, fqvec := 0, shvec := 0, atvec := 0, stvec := 0, modid := 0, trust := [], nonces := [],
    attaddr := 0, abusy := false, aerr := false, queues := [], served := [], notices := [], th := 0,
    then_ := false, ctxbase := 0, ctxsize := 0, ctxUsed := [], stopbase := 0, halted := false, fatal := false,
    first := 0, hseq := 0, stopLost := 0, stopNext := 0, sece := 0, seue := 0, noroom := false, sendq := [],
    comms := [], optvec := 0, opten := false, planCmd := 0, planTgt := 0, planRing := false,
    planStatus := 0, planRun := none, shootAt := 0 }

/-! ### Circuits -/

/-- The states of a circuit (Table 14.7). -/
inductive CircState where
  | idle
  | pending
  | active
  | failed
  deriving DecidableEq, Repr

/-- What a slot entry and a static port have in common (Tables 14.5 and 14.6). backoff: a retry of R369 is due; num: SETUPs sent
so far; stale: SETUPs given up before they were answered, by timing out or by TDOWN, each with the peer it went to: its ACK is
answered with TEARDOWN. -/
structure Circ where
  peer : Nat
  valid : Bool
  state : CircState
  naks : Nat
  cause : Nat
  backoff : Bool
  num : Nat
  stale : List (Nat × Nat)
  deriving DecidableEq, Repr

/-- A circuit after reset. -/
def Circ.reset : Circ :=
  { peer := 0, valid := false, state := .idle, naks := 0, cause := 0, backoff := false, num := 0, stale := [] }

/-- A port (Table 14.5): MODE, and its static circuit, whose peer is SPEER. now: the peer of the slot in which a slotted
port sends (R366). -/
structure Port where
  mode : Nat
  circ : Circ
  now : Option Nat
  deriving DecidableEq, Repr

/-- A port after reset. -/
def Port.reset : Port := { mode := 0, circ := Circ.reset, now := none }

/-- The circuit timing of the package (Tables 14.1 to 14.3). held: NSLOT-1 and SLOTLEN written and not yet in force; seen: a
marker has been obeyed since reset. -/
structure Rotation where
  en : Bool
  nslot1 : Nat
  slotlen : Nat
  hostm : Bool
  held : Option (Nat × Nat)
  slot : Nat
  guard : Bool
  windowOpen : Bool
  sync : Bool
  miss : Bool
  resync : Bool
  rot : Word
  seen : Bool
  deriving DecidableEq, Repr

/-- The circuit timing after reset. -/
def Rotation.reset : Rotation :=
  { en := false, nslot1 := 0, slotlen := 1000, hostm := false, held := none, slot := 0, guard := false,
    windowOpen := false, sync := false, miss := false, resync := false, rot := 0, seen := false }

/-! ### Optics -/

/-- A fibre pair (Table 18.7, Table 14.4). trained: a circuit SETUP has trained it in the peer fabric (R471). -/
structure Pair where
  owner : Nat
  ownv : Bool
  fabreq : Bool
  fab : Bool
  ref : Bool
  spuse : BitVec 2
  evt : Bool
  plane : Nat
  trained : Bool
  deriving DecidableEq, Repr

/-- A pair after reset: in the memory fabric (R471). -/
def Pair.reset : Pair :=
  { owner := 0, ownv := false, fabreq := false, fab := false, ref := false, spuse := 0, evt := false, plane := 0, trained := false }

/-- The states of a link (Table 18.7). -/
inductive LinkState where
  | up
  | retraining
  | down
  | widthChange
  deriving DecidableEq, Repr

/-- A peer link (R431-R436, Table 18.7). farTgtw: the other end's request (R446); sent: flits sent and not acknowledged;
again: flits to resend; expect: next FSEQ expected; discarding: a failed flit has been seen and NAKed; nextWidth: the width
to change to; rxw, rxNext: the width at which flits arrive, and the next with its FSEQ; remap: a channel and a site, and
the remap flit for them that awaits its acknowledgement; ctlOwed: a link-control flit is due; stuck: only a RETRAIN starts the
link again (R442); qturn: the partition whose queue was served last. A
memory-fabric channel c is link 128 + c (R431). -/
structure Link where
  tgtw : Nat
  farTgtw : Nat
  curw : Nat
  state : LinkState
  fseq : BitVec 12
  expect : BitVec 12
  sent : List Flit
  again : List Flit
  owed : List Flit
  discarding : Bool
  nakOwed : Bool
  nakLast : BitVec 12
  nakRun : Nat
  nextWidth : Option Nat
  rxw : Nat
  rxNext : Option (Nat × BitVec 12)
  remap : Option (Nat × Nat × BitVec 12)
  ctlOwed : Bool
  stuck : Bool
  qturn : Nat
  failures : Nat
  replays : Nat
  retrains : Nat
  version : Nat
  deriving DecidableEq, Repr

/-- A link after reset (Table 18.7). -/
def Link.reset : Link :=
  { tgtw := 8, farTgtw := 8, curw := 0, state := .down, fseq := 0, expect := 0, sent := [], again := [], owed := [],
    discarding := false, nakOwed := false, nakLast := 0, nakRun := 0, nextWidth := none, rxw := 8, rxNext := none,
    remap := none, ctlOwed := false, stuck := false, qturn := 0, failures := 0,
    replays := 0, retrains := 0, version := 0 }

/-- The states of a channel (Table 18.7). -/
inductive ChanState where
  | active
  | parked
  | waking
  | down
  deriving DecidableEq, Repr

/-- A channel (Table 18.7). tuning: the site being tuned for it, and whether a planned step asked for it; parking: it
has been left and is to become PARKED; trying, tried: its ring is being trained, has been (R471); ps1: PS1 parked it (R473); owes:
its sparing was broken off, and a sample that still finds it weak begins it again (R438, R449); rewake: it is to wake once it
is PARKED (R447). -/
structure Chan where
  state : ChanState
  park : Bool
  spare : Nat
  weak : Bool
  wfail : Bool
  margin : Byte
  cer : BitVec 16
  tuning : Option (Nat × Bool)
  swap : Option Nat
  parking : Bool
  trying : Bool
  tried : Bool
  ps1 : Bool
  owes : Bool
  rewake : Bool
  deriving DecidableEq, Repr

/-- A channel after reset (R471). -/
def Chan.reset : Chan :=
  { state := .down, park := false, spare := 0, weak := false, wfail := false, margin := 0, cer := 0, tuning := none,
    swap := none, parking := false, trying := false, tried := false, ps1 := false, owes := false,
    rewake := false }

/-- A laser line (Table 18.8). -/
structure Line where
  bias : BitVec 12
  power : BitVec 12
  lost : Bool
  donor : Bool
  fed : Bool
  deriving DecidableEq, Repr

/-- A laser line after reset. -/
def Line.reset : Line := { bias := 0, power := 0, lost := false, donor := false, fed := false }

/-- The life counters of a laser array (R452), in hours and tenths of an hour. gave, rested: at some time since they were
last saved the array has donated a line, has donated none. -/
structure Array_ where
  lifeh : Word
  penh : Word
  gave : Bool
  rested : Bool
  deriving DecidableEq, Repr

/-- An array whose counters read 0 (log 3). -/
def Array_.reset : Array_ := { lifeh := 0, penh := 0, gave := false, rested := true }

/-! ### Housekeeping -/

/-- The registers of Table 21.3 and what start-up and the power states hold (R468-R475). cooling: no die may resume before
all read below 95 degrees. -/
structure House where
  phase : Nat
  meshDown : Bool
  hot : Bool
  err : Nat
  fwver : BitVec 16
  req : BitVec 2
  cur : BitVec 2
  ref : Bool
  tmax : BitVec 10
  tdie : BitVec 3
  pwr : BitVec 12
  pcap : BitVec 12
  pcx : Bool
  pcvec : Byte
  mesh0 : Bool
  mesh1 : Bool
  pcie : Bool
  late : Bool
  entering : Option (BitVec 2)
  ramping : Bool
  wakeAsked : Bool
  polled : Bool
  cooling : Bool
  deriving DecidableEq, Repr

/-- Housekeeping after reset (Table 21.3). -/
def House.reset : House :=
  { phase := 1, meshDown := false, hot := false, err := 0, fwver := 0, req := 0, cur := 0, ref := false, tmax := 0,
    tdie := 0, pwr := 0, pcap := 2400, pcx := false, pcvec := 0, mesh0 := false, mesh1 := false, pcie := false,
    late := false, entering := none, ramping := false, wakeAsked := false, polled := false, cooling := false }

/-- What happens next, when something other than the default order decides it (log 1): a step of the table, between two
cycles; core cycles that end, without a word; a cycle in which the sub-cores named issue; an access to a scratchpad performed;
a request that puts a module in self-refresh without forcing it; a cached translation dropped; or the host reading
a register. -/
inductive Stimulus where
  | event (i : Instr)
  | tick (n : Nat)
  | issues (subcores : List Nat)
  | pad (n : Nat)
  | refresh (modid : Nat)
  | evict (part va : Nat)
  | hostReads (src : Source) (part addr : Nat)
  deriving DecidableEq, Repr

/-- A bit of type RW1C that the words of a cycle can set (R6): REF and EVT of a pair. -/
inductive Risen where
  | pairRef (f : Nat)
  | pairEvt (f : Nat)
  deriving DecidableEq, Repr

/-- The group that holds the issue slot: its gang and its slices (R32). -/
structure Issue where
  gang : Nat
  slices : SliceMask
  deriving DecidableEq, Repr

/-- The state of the package, of the modules it reaches and of what is on its way between them. inbound: messages of peers
that have arrived and are not performed; netq: messages owed to peers; sentSeq, rcvdSeq: the next number of each stream
that leaves this package, and that is performed here (R217, R362); qbad: the first failing page of a QSEND arriving here, by
sender and number (R374); badWords: the 8-byte vault words, by number, that hold an error which cannot be corrected (R430);
wiring: the module to which an output port of the memory fabric leads (R16); attests: partitions whose report is asked for, in
order (R406); dealt: the link that took the last new flit to a peer, one more than its number (R17, R362); issueFrom: the first
cycle in which a sub-core may issue again (R116); risen: bits that the hardware has set in this cycle (R6). -/
structure State where
  pkg : Nat
  gangs : Tbl (Option Gang)
  teams : Tbl (Option Team)
  cores : Tbl Core
  corbel : Tbl CorbelSlot
  vault : Memory
  vc : Tbl (List (BitVec 16))
  av : Tbl (List (BitVec 16))
  vreqs : List VaultReq
  preqs : List PadReq
  iodq : List IodStore
  badWords : List Nat
  holds : List LrHold
  tlb : List CachedPage
  parts : Tbl Partition
  launches : Tbl (Option Launch)
  reqs : Tbl (Option FarReq)
  modules : Tbl Module
  wiring : Tbl Nat
  remotes : Tbl (Option RemoteOut)
  inbound : List NetMsg
  qbad : List (Nat × Nat × QFault)
  caps : Tbl (BitVec 7)
  netq : List (Nat × NetMsg)
  sentSeq : Tbl Nat
  rcvdSeq : Tbl Nat
  dealt : Tbl Nat
  rot : Rotation
  ports : Tbl Port
  entries : Tbl Circ
  pairs : Tbl Pair
  links : Tbl Link
  chans : Tbl Chan
  weakMrg : Byte
  weakCer : BitVec 16
  period : Byte
  lines : Tbl Line
  arrays : Tbl Array_
  attests : List Nat
  house : House
  meas : Tbl (List Byte)
  out : List Out
  now : Nat
  issueFrom : Tbl Nat
  risen : List Risen
  next : Nat
  free : Nat
  cur : Option Issue
  agenda : List Stimulus
  deriving DecidableEq, Repr

/-- The machine right after reset: phase 1 of start-up, nothing placed, nothing listed (R468, log 2, log 3). -/
def State.reset : State :=
  { pkg := 0, gangs := [], teams := [], cores := [], corbel := [], vault := [], vc := [], av := [], vreqs := [], preqs := [],
    iodq := [], badWords := [], holds := [], tlb := [], parts := [], launches := [], reqs := [], modules := [],
    wiring := [], remotes := [],
    inbound := [], qbad := [], caps := [], netq := [], sentSeq := [], rcvdSeq := [], dealt := [], rot := Rotation.reset, ports := [],
    entries := [], pairs := [], links := [], chans := [],
    weakMrg := 20, weakCer := 4096, period := 10, lines := [], arrays := [], attests := [], house := House.reset, meas := [],
    out := [], now := 0, issueFrom := [], risen := [], next := 1, free := 0, cur := none, agenda := [] }

/-- Reasons the machine stops with a fault. -/
inductive Fault where
  /-- Raised by nothing: every fault that the manual describes is a trap, a posted fault or a halt, and the machine goes
  on (R409-R422). It stands here so that the type is not empty. Safe. -/
  | lost
  deriving DecidableEq, Repr

/-- Reasons a step is refused. -/
inductive Refusal where
  /-- An instruction that this model gives no meaning. Safe. -/
  | notModelled (mnemonic : String)
  /-- An instruction word executed while no group of a resident gang holds the issue slot: no such execution exists on
  the machine, and step never asks for one. Raised by every instruction word. Safe. -/
  | noIssuingGroup
  deriving DecidableEq, Repr

end Sys2Proof.Machine
end

