-- ==== Sys2Proof/Machine/Base.lean ====
section
/-! DEFINITION. Named reads and writes of the parts of the state. -/

namespace Sys2Proof.Machine

/-! ### Parts by number -/

def State.gang? (s : State) (id : Nat) : Option Gang := Tbl.get none s.gangs id
def State.putGang (s : State) (id : Nat) (g : Gang) : State := { s with gangs := Tbl.set none s.gangs id (some g) }
def State.dropGang (s : State) (id : Nat) : State := { s with gangs := Tbl.set none s.gangs id none }
def State.modGang (s : State) (id : Nat) (f : Gang → Gang) : State :=
  match s.gang? id with
  | some g => s.putGang id (f g)
  | none => s

def State.team? (s : State) (id : Nat) : Option Team := Tbl.get none s.teams id
def State.putTeam (s : State) (id : Nat) (t : Team) : State := { s with teams := Tbl.set none s.teams id (some t) }
def State.dropTeam (s : State) (id : Nat) : State := { s with teams := Tbl.set none s.teams id none }
def State.modTeam (s : State) (id : Nat) (f : Team → Team) : State :=
  match s.team? id with
  | some t => s.putTeam id (f t)
  | none => s

def State.launch? (s : State) (id : Nat) : Option Launch := Tbl.get none s.launches id
def State.putLaunch (s : State) (id : Nat) (l : Launch) : State :=
  { s with launches := Tbl.set none s.launches id (some l) }
def State.dropLaunch (s : State) (id : Nat) : State := { s with launches := Tbl.set none s.launches id none }
def State.modLaunch (s : State) (id : Nat) (f : Launch → Launch) : State :=
  match s.launch? id with
  | some l => s.putLaunch id (f l)
  | none => s

def State.req? (s : State) (id : Nat) : Option FarReq := Tbl.get none s.reqs id
def State.putReq (s : State) (id : Nat) (r : FarReq) : State := { s with reqs := Tbl.set none s.reqs id (some r) }
def State.dropReq (s : State) (id : Nat) : State := { s with reqs := Tbl.set none s.reqs id none }
def State.modReq (s : State) (id : Nat) (f : FarReq → FarReq) : State :=
  match s.req? id with
  | some r => s.putReq id (f r)
  | none => s

def State.remote? (s : State) (id : Nat) : Option RemoteOut := Tbl.get none s.remotes id
def State.putRemote (s : State) (id : Nat) (r : RemoteOut) : State :=
  { s with remotes := Tbl.set none s.remotes id (some r) }
def State.dropRemote (s : State) (id : Nat) : State := { s with remotes := Tbl.set none s.remotes id none }

def State.core (s : State) (n : Nat) : Core := Tbl.get Core.reset s.cores n
def State.putCore (s : State) (n : Nat) (c : Core) : State := { s with cores := Tbl.set Core.reset s.cores n c }
def State.modCore (s : State) (n : Nat) (f : Core → Core) : State := s.putCore n (f (s.core n))

def State.part (s : State) (n : Nat) : Partition := Tbl.get Partition.reset s.parts n
def State.putPart (s : State) (n : Nat) (p : Partition) : State :=
  { s with parts := Tbl.set Partition.reset s.parts n p }
def State.modPart (s : State) (n : Nat) (f : Partition → Partition) : State := s.putPart n (f (s.part n))

def State.module (s : State) (n : Nat) : Module := Tbl.get Module.reset s.modules n
def State.putModule (s : State) (n : Nat) (m : Module) : State :=
  { s with modules := Tbl.set Module.reset s.modules n m }
def State.modModule (s : State) (n : Nat) (f : Module → Module) : State := s.putModule n (f (s.module n))

/-- A fibre pair. -/
def State.pair (s : State) (f : Nat) : Pair := Tbl.get Pair.reset s.pairs f
def State.putPair (s : State) (f : Nat) (x : Pair) : State := { s with pairs := Tbl.set Pair.reset s.pairs f x }
/-- A link: 2f + h of a peer-fabric pair, or 128 + c for channel c of the memory fabric (R431). -/
def State.link (s : State) (k : Nat) : Link := Tbl.get Link.reset s.links k
def State.putLink (s : State) (k : Nat) (x : Link) : State := { s with links := Tbl.set Link.reset s.links k x }
def State.chan (s : State) (c : Nat) : Chan := Tbl.get Chan.reset s.chans c
def State.putChan (s : State) (c : Nat) (x : Chan) : State := { s with chans := Tbl.set Chan.reset s.chans c x }
def State.modChan (s : State) (c : Nat) (f : Chan → Chan) : State := s.putChan c (f (s.chan c))
/-- The pair of a channel (R13). -/
def pairOfChan (c : Nat) : Nat := c / 16
/-- The link carries flits. -/
def Link.carries (x : Link) : Bool := x.state == .up || x.state == .widthChange

/-- Slot n of the Corbel of a cluster (R241). -/
def State.corbelSlot (s : State) (cluster n : Nat) : CorbelSlot := Tbl.get CorbelSlot.reset s.corbel (8 * cluster + n)
def State.putCorbel (s : State) (cluster n : Nat) (c : CorbelSlot) : State :=
  { s with corbel := Tbl.set CorbelSlot.reset s.corbel (8 * cluster + n) c }

/-- Trap causes (Table 17.1). -/
def Cause.illegalOpcode : Byte := 0x01
def Cause.illegalEncoding : Byte := 0x02
def Cause.illegalOperand : Byte := 0x03
def Cause.privileged : Byte := 0x04
def Cause.stallShort : Byte := 0x05
def Cause.membership : Byte := 0x06
def Cause.groupPartial : Byte := 0x07
def Cause.illegalEvent : Byte := 0x08
def Cause.barrierOverrun : Byte := 0x09
def Cause.regangDeadlock : Byte := 0x0A
def Cause.atomicUnsupported : Byte := 0x0B
def Cause.misaligned : Byte := 0x10
def Cause.translation : Byte := 0x11
def Cause.permission : Byte := 0x12
def Cause.farSpace : Byte := 0x13
def Cause.slotState : Byte := 0x14
def Cause.accPoison : Byte := 0x15
def Cause.walkFault : Byte := 0x16
def Cause.collMismatch : Byte := 0x17
def Cause.software : Byte := 0x18
def Cause.breakpoint : Byte := 0x19
def Cause.contextFatal : Byte := 0x20

/-- A message added to the log of what the package sends. -/
def State.emit (s : State) (o : Out) : State := { s with out := s.out ++ [o] }

/-- A fresh number for a gang, team, launch or request. -/
def State.fresh (s : State) : Nat × State := (s.next, { s with next := s.next + 1 })

/-- The keys of a table of optional parts, with the part that a read of the key gives. -/
def listed {α : Type} (t : Tbl (Option α)) : List (Nat × α) :=
  t.filterMap (fun e => (Tbl.get none t e.1).map (fun v => (e.1, v)))

/-- A copy tag of a core (Table 8.3). -/
def Core.tag (c : Core) (t : Nat) : Tag := Tbl.get Tag.reset c.tags t
def Core.putTag (c : Core) (t : Nat) (g : Tag) : Core := { c with tags := Tbl.set Tag.reset c.tags t g }

/-- Who holds an operand slot, and a row block (R159). -/
def Core.slotHolder (c : Core) (n : Nat) : Option Nat := Tbl.get none c.slotOwner n
def Core.blockHolder (c : Core) (n : Nat) : Option Nat := Tbl.get none c.blockOwner n

/-- A barrier of a team (Table 11.3). -/
def Team.barrier (t : Team) (n : Nat) : Barrier := Tbl.get (Barrier.init t.gangs) t.barriers n
def Team.putBarrier (t : Team) (n : Nat) (b : Barrier) : Team :=
  { t with barriers := Tbl.set (Barrier.init t.gangs) t.barriers n b }

/-- What a team keeps on a core. -/
def Team.onCore (t : Team) (core : Nat) : Option TeamCore := t.cores.find? (fun c => c.core == core)
def Team.modCore (t : Team) (core : Nat) (f : TeamCore → TeamCore) : Team :=
  { t with cores := t.cores.map (fun c => if c.core == core then f c else c) }

/-- The compute die of a core, its agent for the vector clock (R7, R204). -/
def dieOf (core : Nat) : Nat := core / 40
/-- The cluster of a core (R7). -/
def clusterOf (core : Nat) : Nat := core / 4
/-- The sub-core of a gang slot: slots 16k to 16k + 15 are sub-core k's. -/
def subcoreOf (slot : Nat) : Nat := slot / 16

/-! ### Lanes, slices and groups -/

/-- The lanes of a gang. -/
def allLanes : List Nat := List.range 32
/-- The slices of a gang. -/
def allSlices : List Nat := List.range 8
/-- The slice of a lane (R23). -/
def sliceOf (lane : Nat) : Nat := lane / 4

/-- The lanes of a set of slices (R23). -/
def lanesOf (m : SliceMask) : List Nat := allLanes.filter (fun l => m.getLsbD (sliceOf l))
/-- The members of a mask of w bits. -/
def members {w : Nat} (m : BitVec w) : List Nat := (List.range w).filter (fun i => m.getLsbD i)
/-- A mask from the members that satisfy f. -/
def maskOf (w : Nat) (f : Nat → Bool) : BitVec w :=
  BitVec.ofNat w ((List.range w).foldl (fun acc i => if f i then acc + 2 ^ i else acc) 0)

/-- Has the slice a lane that has not exited? (R31) -/
def Gang.sliceLive (g : Gang) (sl : Nat) : Bool := (List.range 4).any (fun i => !g.exited.getLsbD (4 * sl + i))
/-- The live slices (R31). -/
def Gang.live (g : Gang) : SliceMask := maskOf 8 g.sliceLive

/-- MR copies start at the reset value (Table 3.4). -/
def mrReset : BitVec 24 := 0xFC8000#24
/-- The MR copy of a slice (R30). -/
def Gang.mrOf (g : Gang) (sl : Nat) : BitVec 24 := Tbl.get mrReset g.mr sl
def Gang.putMr (g : Gang) (sl : Nat) (v : BitVec 24) : Gang := { g with mr := Tbl.set mrReset g.mr sl v }

/-- Fields of MR (Table 3.4). -/
def Mr.guard (m : BitVec 24) : Nat := (m.extractLsb' 18 6).toNat
def Mr.neg (m : BitVec 24) : Bool := m.getLsbD 17
def Mr.etype (m : BitVec 24) : Nat := (m.extractLsb' 13 4).toNat
def Mr.rnd (m : BitVec 24) : Nat := (m.extractLsb' 10 3).toNat
def Mr.perma (m : BitVec 24) : Nat := (m.extractLsb' 7 3).toNat
def Mr.permb (m : BitVec 24) : Nat := (m.extractLsb' 4 3).toNat
def Mr.cad (m : BitVec 24) : Nat := (m.extractLsb' 0 2).toNat

/-- A counter k0-k7. -/
def Gang.counter (g : Gang) (k : Nat) : Nat := Tbl.get 0 g.k k
def Gang.putCounter (g : Gang) (k v : Nat) : Gang := { g with k := Tbl.set 0 g.k k v }

/-- A mailbox m0-m7: its value if FULL (R329). -/
def Gang.mailbox (g : Gang) (m : Nat) : Option DWord := Tbl.get none g.mbox m
def Gang.putMailbox (g : Gang) (m : Nat) (v : Option DWord) : Gang := { g with mbox := Tbl.set none g.mbox m v }

/-- The group with exactly these slices. -/
def Gang.group? (g : Gang) (m : SliceMask) : Option Group := g.groups.find? (fun x => x.slices == m)

/-- The lowest member of a slice mask; 8 if there is none. -/
def lowestSlice (m : SliceMask) : Nat := (allSlices.find? (fun i => m.getLsbD i)).getD 8

/-- A group put in its place by its lowest slice (R29). -/
def insertGroup (x : Group) : List Group → List Group
  | [] => [x]
  | y :: ys => if lowestSlice x.slices ≤ lowestSlice y.slices then x :: y :: ys else y :: insertGroup x ys

/-- The group that has the turn gives it up: the next ready group is to take it (R307, R309). -/
def Gang.yieldTurn (g : Gang) : Gang := { g with turnIssues := 33 }
/-- The group of these slices gives up the turn, if it has it. -/
def Gang.givesTurn (g : Gang) (m : SliceMask) : Gang := if g.turn = lowestSlice m then g.yieldTurn else g

/-- The group with these slices changed by f. -/
def Gang.modGroup (g : Gang) (m : SliceMask) (f : Group → Group) : Gang :=
  { g with groups := g.groups.map (fun x => if x.slices == m then f x else x) }

/-- The group with these slices removed. -/
def Gang.dropGroup (g : Gang) (m : SliceMask) : Gang :=
  { g with groups := g.groups.filter (fun x => !(x.slices == m)) }

/-- The gang is parted (R26). -/
def Gang.parted (g : Gang) : Bool :=
  match g.groups with
  | [x] => !(x.slices == g.live)
  | _ => true

/-! ### Registers of a gang -/

/-- One element of a gang's registers as it stands; the tables are keyed by lane and number together. p63 reads 1 (R38). -/
def Gang.elem (g : Gang) : RegElem → Word
  | .v r l => Tbl.get 0 g.v (Nat.pair l r)
  | .s i => Tbl.get 0 g.s i
  | .p i l => if i = 63 then 1 else if Tbl.get false g.p (Nat.pair l i) then 1 else 0

/-- One element written. A write to p63 is discarded (R38). -/
def Gang.putElem (g : Gang) (e : RegElem) (x : Word) : Gang :=
  match e with
  | .v r l => { g with v := Tbl.set 0 g.v (Nat.pair l r) x }
  | .s i => { g with s := Tbl.set 0 g.s i x }
  | .p i l => if i = 63 then g else { g with p := Tbl.set false g.p (Nat.pair l i) (x.getLsbD 0) }

/-- The element belongs to the register. -/
def RegRef.has : RegRef → RegElem → Bool
  | .v n, .v r _ => n == r
  | .s n, .s i => n == i
  | .p n, .p i _ => n == i
  | _, _ => false

/-- The register of a flight is the one of the element, in the element's slice. -/
def Flight.meets (x : Flight) (e : RegElem) : Bool := x.reg.has e && match e with
  | .s _ => true
  | .v _ l => x.slice == sliceOf l
  | .p _ l => x.slice == sliceOf l

/-- The results for which f holds become visible, in program order; a result that becomes visible discards the earlier
ones of its element (R73). kept: those already passed over. -/
def commitGo (f : Pending → Bool) : List Pending → List Pending → Gang → List Pending × Gang
  | [], kept, g => (kept, g)
  | p :: ps, kept, g =>
    if f p then commitGo f ps (kept.filter (fun q => !(q.dest == p.dest))) (g.putElem p.dest p.val)
    else commitGo f ps (kept ++ [p]) g

/-- The pending results for which f holds become visible (R73). -/
def Gang.commit (g : Gang) (f : Pending → Bool) : Gang :=
  let r := commitGo f g.pend [] g
  { r.2 with pend := r.1 }

/-- Every pending result of the gang becomes visible (R74). -/
def Gang.commitAll (g : Gang) : Gang := { g.commit (fun _ => true) with flight := [] }

/-- The pending results that a group of these slices produced become visible (R74, R477). -/
def Gang.commitGroup (g : Gang) (m : SliceMask) : Gang :=
  { g.commit (fun p => p.left.any (fun x => m.getLsbD x.1)) with flight := g.flight.filter (fun x => !m.getLsbD x.slice) }

/-- A flight taken up as the distance of the group of these slices grows by n: one that lands leaves the list, and with it the
earlier ones of its register (R73). -/
def flightStep (m : SliceMask) (n : Nat) (acc : List Flight) (x : Flight) : List Flight :=
  if !m.getLsbD x.slice then acc ++ [x]
  else if n < x.left then acc ++ [{ x with left := x.left - n }]
  else acc.filter (fun y => !(y.reg == x.reg && y.slice == x.slice))

/-- The issue distance of the group of these slices grows by n (R72). -/
def Gang.advance (g : Gang) (m : SliceMask) (n : Nat) : Gang :=
  Gang.commit { g with flight := g.flight.foldl (flightStep m n) [], pend := g.pend.map (fun p =>
      { p with left := p.left.map (fun x => if m.getLsbD x.1 then (x.1, x.2 - n) else x) }) }
    (fun p => p.left.isEmpty || p.left.any (fun x => x.2 == 0))

/-- A word of latency lat that writes these registers has issued (R71, R78). -/
def Gang.launch (g : Gang) (m : SliceMask) (lat : Nat) (rs : List RegRef) : Gang :=
  { g with flight := g.flight ++ rs.flatMap (fun r => (members m).map (fun sl => ⟨r, sl, lat⟩)) }

/-- Fixed-latency results of a group, visible after distance lat (R71, R72). -/
def Gang.writeFixed (g : Gang) (m : SliceMask) (lat : Nat) (ws : List (RegElem × Word)) : Gang :=
  { g with pend := g.pend ++ ws.map (fun w =>
      { dest := w.1, val := w.2,
        left := match w.1 with
          | .s _ => (members m).map (fun sl => (sl, lat))
          | .v _ l => [(sliceOf l, lat)]
          | .p _ l => [(sliceOf l, lat)] }) }

/-- One result written at once, in place of every earlier pending result of its element (R75). -/
def Gang.putNow (g : Gang) (e : RegElem) (x : Word) : Gang :=
  Gang.putElem { g with pend := g.pend.filter (fun p => !(p.dest == e)), flight := g.flight.filter (fun y => !y.meets e) } e x

/-- Results of variable latency that are ready: written at once (R75). -/
def Gang.writeNow (g : Gang) (ws : List (RegElem × Word)) : Gang := ws.foldl (fun a w => a.putNow w.1 w.2) g

/-- The element waits for an interlocked result (R75). -/
def Gang.awaited (g : Gang) (f : RegElem → Bool) : Bool := g.awaits.any (fun a => f a.dest)

/-- The status word of WANY events (Table 11.8). -/
def Gang.eventWord (g : Gang) : Word :=
  BitVec.ofNat 32 (g.evpend.toNat +
    (List.range 8).foldl (fun acc m => if (g.mailbox m).isSome then acc + 2 ^ (19 + m) else acc) 0 +
    (if g.deadline = 0 then 0 else 2 ^ 27))

/-- An edge event latches in EVPEND (R334): bit n of Table 11.8. -/
def Gang.latch (g : Gang) (n : Nat) : Gang := { g with evpend := g.evpend ||| BitVec.ofNat 19 (2 ^ n) }

/-- Every gang of a team changed by f. -/
def State.modTeamGangs (s : State) (team : Nat) (f : Gang → Gang) : State :=
  (listed s.gangs).foldl (fun acc e => if e.2.team == team then acc.putGang e.1 (f e.2) else acc) s

/-- The gangs of a team, with their numbers. -/
def State.teamGangs (s : State) (team : Nat) : List (Nat × Gang) :=
  (listed s.gangs).filter (fun e => e.2.team == team)

/-- The partition of a team, of a gang. -/
def State.teamPart (s : State) (team : Nat) : Nat := match s.team? team with
  | some t => t.part
  | none => 0
def State.gangPart (s : State) (id : Nat) : Nat := match s.gang? id with
  | some g => s.teamPart g.team
  | none => 0

end Sys2Proof.Machine
end

