-- ==== Sys2Proof/Machine/Flags.lean ====
section
/-! DEFINITION. The exception flags of float results and the arithmetic control register (R97-R107). -/

namespace Sys2Proof.Machine

/-- The flags that one rounding or one invalid operation raises (Table 4.5). -/
structure Flags where
  nv : Bool
  dz : Bool
  of : Bool
  uf : Bool
  nx : Bool
  deriving DecidableEq, Repr

/-- No flag. -/
def Flags.none : Flags := ⟨false, false, false, false, false⟩
/-- Invalid operation (R101). -/
def Flags.invalid : Flags := ⟨true, false, false, false, false⟩
/-- Divide by zero (R102). -/
def Flags.divZero : Flags := ⟨false, true, false, false, false⟩
/-- The OR of two sets of flags (R107). -/
def Flags.or (a b : Flags) : Flags :=
  ⟨a.nv || b.nv, a.dz || b.dz, a.of || b.of, a.uf || b.uf, a.nx || b.nx⟩
/-- Invalid if the condition holds. -/
def Flags.nvIf (c : Bool) : Flags := if c then Flags.invalid else Flags.none
/-- Bits [4:0] of ACR, and of MXF for the matrix engine (Tables 4.5 and 6.6). -/
def Flags.toNat (f : Flags) : Nat :=
  f.nv.toNat + 2 * f.dz.toNat + 4 * f.of.toNat + 8 * f.uf.toNat + 16 * f.nx.toNat
/-- The OR of many sets of flags. -/
def Flags.orAll (l : List Flags) : Flags := l.foldl Flags.or Flags.none

/-- ACR with flags ORed in (R107). -/
def Acr.set (acr : Word) (f : Flags) : Word := acr ||| BitVec.ofNat 32 f.toNat
/-- FTZ, bit 8 of ACR (R105). -/
def Acr.ftz (acr : Word) : Bool := acr.getLsbD 8
/-- SEED, bits [31:16] of ACR (R99). -/
def Acr.seed (acr : Word) : BitVec 16 := acr.extractLsb' 16 16
/-- What ACRWR keeps of its operand (R109). -/
def Acr.writable (v : Word) : Word := v &&& 0xFFFF011F#32

/-- The srd draw for lane l and element j (R99). -/
def srdDraw (seed : BitVec 16) (l j : Nat) : Nat :=
  let t := seed + BitVec.ofNat 16 (0x9E37 * (2 * l + j + 1))
  let t := t ^^^ (t >>> 8)
  let t := t * 0x6D2B#16
  (t ^^^ (t >>> 7)).toNat

/-- The advance of SEED (R100). -/
def srdAdvance (s : BitVec 16) : BitVec 16 :=
  if s = 0 then 1 else if s.getLsbD 0 then (s >>> 1) ^^^ 0xB400#16 else s >>> 1

/-- ACR with SEED advanced (R100). -/
def Acr.advance (acr : Word) : Word := (srdAdvance (Acr.seed acr)) ++ acr.extractLsb' 0 16

end Sys2Proof.Machine
end

