-- ==== Sys2Proof/Machine/Float.lean ====
section
/-! DEFINITION. Floating-point formats, exact values and the one rounding (R87-R105). -/

namespace Sys2Proof.Machine

/-- A floating-point encoding (Table 4.1): exponent and mantissa widths, bias, whether it has infinities, and whether
its all-ones pattern alone is a NaN (E4M3). -/
structure Fmt where
  eb : Nat
  mb : Nat
  bias : Nat
  inf : Bool
  nanOnes : Bool
  deriving DecidableEq, Repr

def Fmt.f64 : Fmt := ⟨11, 52, 1023, true, false⟩
def Fmt.f32 : Fmt := ⟨8, 23, 127, true, false⟩
def Fmt.tf32 : Fmt := ⟨8, 10, 127, true, false⟩
def Fmt.bf16 : Fmt := ⟨8, 7, 127, true, false⟩
def Fmt.f16 : Fmt := ⟨5, 10, 15, true, false⟩
def Fmt.e5m2 : Fmt := ⟨5, 2, 15, true, false⟩
def Fmt.e4m3 : Fmt := ⟨4, 3, 7, false, true⟩
def Fmt.e3m2 : Fmt := ⟨3, 2, 3, false, false⟩
def Fmt.e2m3 : Fmt := ⟨2, 3, 1, false, false⟩
def Fmt.e2m1 : Fmt := ⟨2, 1, 1, false, false⟩

/-- Bits of an encoding. -/
def Fmt.bits (f : Fmt) : Nat := 1 + f.eb + f.mb
/-- Does the format hold NaNs? (R87) -/
def Fmt.hasNan (f : Fmt) : Bool := f.inf || f.nanOnes
/-- The pattern of the largest finite magnitude. -/
def Fmt.maxBits (f : Fmt) : Nat :=
  if f.inf then (2 ^ f.eb - 1) * 2 ^ f.mb - 1
  else if f.nanOnes then 2 ^ (f.eb + f.mb) - 2 else 2 ^ (f.eb + f.mb) - 1
/-- The pattern of +∞, in a format that has one. -/
def Fmt.infBits (f : Fmt) : Nat := (2 ^ f.eb - 1) * 2 ^ f.mb
/-- The canonical quiet NaN (Table 4.2); +0 in the formats without NaN (R88). -/
def Fmt.nanBits (f : Fmt) : Nat :=
  if f.inf then (2 ^ f.eb - 1) * 2 ^ f.mb + 2 ^ (f.mb - 1)
  else if f.nanOnes then 2 ^ (f.eb + f.mb) - 1 else 0
/-- The sign bit. -/
def Fmt.signBit (f : Fmt) (neg : Bool) : Nat := if neg then 2 ^ (f.eb + f.mb) else 0
/-- Exponent of the smallest normal. -/
def Fmt.emin (f : Fmt) : Int := 1 - (f.bias : Int)
/-- Exponent of the largest normal (R93, step 3). -/
def Fmt.emax (f : Fmt) : Int :=
  if f.inf then (2 ^ f.eb - 2 : Nat) - (f.bias : Int) else (2 ^ f.eb - 1 : Nat) - (f.bias : Int)

/-- What an encoding stands for: the number (−1)^neg · m · 2^e, an infinity, or a NaN, quiet or signalling. -/
inductive Val where
  | num (neg : Bool) (m : Nat) (e : Int)
  | inf (neg : Bool)
  | nan (sig : Bool)
  deriving DecidableEq, Repr

/-- The value of an encoding (R87, R88). -/
def Fmt.decode (f : Fmt) (x : Nat) : Val :=
  let neg := x / 2 ^ (f.eb + f.mb) % 2 == 1
  let ex := x / 2 ^ f.mb % 2 ^ f.eb
  let m := x % 2 ^ f.mb
  if f.inf && ex == 2 ^ f.eb - 1 then
    if m == 0 then .inf neg else .nan (m / 2 ^ (f.mb - 1) == 0)
  else if f.nanOnes && ex == 2 ^ f.eb - 1 && m == 2 ^ f.mb - 1 then .nan false
  else if ex == 0 then .num neg m (f.emin - f.mb)
  else .num neg (2 ^ f.mb + m) (f.emin - f.mb + ((ex : Int) - 1))

/-- Is the value a subnormal number of the format? -/
def Fmt.isSub (f : Fmt) (x : Nat) : Bool := x / 2 ^ f.mb % 2 ^ f.eb == 0 && x % 2 ^ f.mb != 0

/-- The value of an encoding, a subnormal read as zero of its sign under FTZ (R105). -/
def Fmt.read (f : Fmt) (ftz : Bool) (x : Nat) : Val :=
  match f.decode x with
  | .num neg m e => if ftz && f.isSub x then .num neg 0 e else .num neg m e
  | v => v

def Val.isNan : Val → Bool
  | .nan _ => true
  | _ => false
def Val.isSnan : Val → Bool
  | .nan s => s
  | _ => false
def Val.isInf : Val → Bool
  | .inf _ => true
  | _ => false
def Val.isZero : Val → Bool
  | .num _ m _ => m == 0
  | _ => false
def Val.neg : Val → Bool
  | .num n _ _ => n
  | .inf n => n
  | .nan _ => false
def Val.negate : Val → Val
  | .num n m e => .num (!n) m e
  | .inf n => .inf (!n)
  | .nan s => .nan s
def Val.absv : Val → Val
  | .num _ m e => .num false m e
  | .inf _ => .inf false
  | .nan s => .nan s

/-- The rounding codes of Table 3.6. -/
inductive Rnd where
  | rne
  | rtz
  | rup
  | rdn
  | rna
  | srd
  | sat
  deriving DecidableEq, Repr

def Rnd.ofCode : Nat → Rnd
  | 1 => .rtz
  | 2 => .rup
  | 3 => .rdn
  | 4 => .rna
  | 5 => .srd
  | 6 => .sat
  | _ => .rne

/-- How a result is rounded: the mode, the srd draw (R99), and whether tiny results are flushed (R105). -/
structure RndEnv where
  rnd : Rnd
  draw : Nat
  ftz : Bool
  deriving DecidableEq, Repr

/-- To nearest, ties to even, nothing flushed. -/
def RndEnv.rne : RndEnv := ⟨.rne, 0, false⟩

/-- m / 2^k rounded to a whole number: lo or lo + 1 (R97, R99), and whether it was inexact. -/
def roundShiftAt (r : RndEnv) (neg : Bool) (m k : Nat) : Nat × Bool :=
  let lo := m / 2 ^ k
  let rem := m % 2 ^ k
  if rem = 0 then (lo, false)
  else
    let hi := match r.rnd with
      | .rne | .sat => decide (2 ^ k < 2 * rem) || (2 * rem == 2 ^ k && lo % 2 == 1)
      | .rna => decide (2 ^ k ≤ 2 * rem)
      | .rtz => false
      | .rup => !neg
      | .rdn => neg
      | .srd => decide (65536 ≤ rem * 65536 / 2 ^ k + r.draw)
    (if hi then lo + 1 else lo, true)

/-- m / 2^k rounded to a whole number. A shift far beyond m's bits gives the same answer as one by 64 bits more than m has. -/
def roundShift (r : RndEnv) (neg : Bool) (m k : Nat) : Nat × Bool := roundShiftAt r neg m (min k (Nat.log2 m + 64))

/-- m · 2^e rounded to whole units of 2^p, and whether it was inexact. -/
def roundTo (r : RndEnv) (neg : Bool) (m : Nat) (e p : Int) : Nat × Bool :=
  if p - e ≤ 0 then (m * 2 ^ (-(p - e)).toNat, false) else roundShift r neg m (p - e).toNat

/-- The magnitude delivered on overflow (Table 4.4). -/
def Fmt.overflowBits (f : Fmt) (r : RndEnv) (neg : Bool) : Nat :=
  if f.inf then
    match r.rnd with
    | .rne | .rna | .srd => f.infBits
    | .rtz | .sat => f.maxBits
    | .rup => if neg then f.maxBits else f.infBits
    | .rdn => if neg then f.infBits else f.maxBits
  else f.maxBits

/-- The number (−1)^neg · m · 2^e rounded once to the format, with its flags (R97, R98, R104, R105). -/
def Fmt.round (f : Fmt) (r : RndEnv) (neg : Bool) (m : Nat) (e : Int) : Nat × Flags :=
  if m = 0 then (f.signBit neg, Flags.none)
  else
    let E : Int := (Nat.log2 m : Int) + e
    let E' := max E f.emin
    let u := roundTo r neg m e (E' - f.mb)
    let w := roundTo r neg m e (E - f.mb)
    let tiny := decide (E < f.emin) && !(decide (E = f.emin - 1) && w.1 == 2 ^ (f.mb + 1))
    let code := (E' - f.emin).toNat * 2 ^ f.mb + u.1
    if tiny && r.ftz then (f.signBit neg, ⟨false, false, false, true, true⟩)
    else if f.maxBits < code then (f.signBit neg + f.overflowBits r neg, ⟨false, false, true, false, true⟩)
    else (f.signBit neg + code, ⟨false, false, false, tiny && u.2, u.2⟩)

/-- A value written in the format: a NaN is canonical, an infinity stays infinite or becomes the largest number with NV
(R103), a number is rounded. -/
def Fmt.deliver (f : Fmt) (r : RndEnv) (v : Val) : Nat × Flags :=
  match v with
  | .nan s => (f.nanBits, Flags.nvIf (s || !f.hasNan))
  | .inf n => if f.inf then (f.signBit n + f.infBits, Flags.none) else (f.signBit n + f.maxBits, Flags.invalid)
  | .num n m e => f.round r n m e

/-- The canonical quiet NaN with NV (R101). -/
def Fmt.invalid (f : Fmt) : Nat × Flags := (f.nanBits, Flags.invalid)

/-- A signed whole number scaled by 2^e, as sign and magnitude. -/
def Val.ofInt (x : Int) (e : Int) (zeroNeg : Bool) : Val :=
  .num (if x = 0 then zeroNeg else decide (x < 0)) x.natAbs e

/-- The signed mantissa of a number at exponent e0, which is at most its own. -/
def signedAt (neg : Bool) (m : Nat) (e e0 : Int) : Int :=
  let x : Int := (m * 2 ^ (e - e0).toNat : Nat)
  if neg then -x else x

/-- The exact sum. An exact zero of opposite signs has the sign of R140; zneg: rounding is rdn. -/
def Val.add (zneg : Bool) : Val → Val → Option Val
  | .nan _, _ => none
  | _, .nan _ => none
  | .inf a, .inf b => if a == b then some (.inf a) else none
  | .inf a, _ => some (.inf a)
  | _, .inf b => some (.inf b)
  | .num a m e, .num b n f =>
    if m = 0 ∧ n = 0 then some (.num (if a == b then a else zneg) 0 0)
    else
      let e0 := min e f
      some (Val.ofInt (signedAt a m e e0 + signedAt b n f e0) e0 zneg)

/-- The exact product. -/
def Val.mul : Val → Val → Option Val
  | .nan _, _ => none
  | _, .nan _ => none
  | .inf a, .inf b => some (.inf (a != b))
  | .inf a, .num b n _ => if n = 0 then none else some (.inf (a != b))
  | .num a m _, .inf b => if m = 0 then none else some (.inf (a != b))
  | .num a m e, .num b n f => some (.num (a != b) (m * n) (e + f))

/-- Delivers an operation on operands: a signalling NaN or an invalid operation sets NV, a quiet NaN none (R101). -/
def Fmt.finish (f : Fmt) (r : RndEnv) (ops : List Val) (res : Option Val) : Nat × Flags :=
  if ops.any Val.isNan then (f.nanBits, Flags.nvIf (ops.any Val.isSnan))
  else match res with
    | none => f.invalid
    | some v => f.deliver r v

/-- The sum of two encodings (R140). -/
def Fmt.add (f : Fmt) (r : RndEnv) (x y : Nat) : Nat × Flags :=
  let a := f.read r.ftz x
  let b := f.read r.ftz y
  f.finish r [a, b] (Val.add (r.rnd == .rdn) a b)

/-- The difference of two encodings (R140). -/
def Fmt.sub (f : Fmt) (r : RndEnv) (x y : Nat) : Nat × Flags :=
  let a := f.read r.ftz x
  let b := f.read r.ftz y
  f.finish r [a, b] (Val.add (r.rnd == .rdn) a b.negate)

/-- The product of two encodings (R140). -/
def Fmt.mul (f : Fmt) (r : RndEnv) (x y : Nat) : Nat × Flags :=
  let a := f.read r.ftz x
  let b := f.read r.ftz y
  f.finish r [a, b] (Val.mul a b)

/-- x · y + z, or x · y − z, with one rounding (R141). A 0 · ∞ product sets NV whatever z is (R101). -/
def Fmt.fma (f : Fmt) (r : RndEnv) (negz : Bool) (x y z : Nat) : Nat × Flags :=
  let a := f.read r.ftz x
  let b := f.read r.ftz y
  let c := f.read r.ftz z
  let c' := if negz then c.negate else c
  match Val.mul a b with
  | none =>
    if a.isNan || b.isNan then (f.nanBits, Flags.nvIf (a.isSnan || b.isSnan || c.isSnan)) else f.invalid
  | some p => f.finish r [c] (Val.add (r.rnd == .rdn) p c')

/-- The order of two numbers or infinities, −0 equal to +0: true if a is less than b. -/
def Val.lt : Val → Val → Bool
  | .num a m e, .num b n f =>
    let e0 := min e f
    decide (signedAt a m e e0 < signedAt b n f e0)
  | .inf a, .inf b => a && !b
  | .inf a, .num _ _ _ => a
  | .num _ _ _, .inf b => !b
  | _, _ => false

/-- Equality of two numbers or infinities, −0 equal to +0. -/
def Val.eqv : Val → Val → Bool
  | .num a m e, .num b n f =>
    let e0 := min e f
    decide (signedAt a m e e0 = signedAt b n f e0)
  | .inf a, .inf b => a == b
  | _, _ => false

/-- Is the first operand the one that minimum delivers? −0 counts as less than +0 (R142). -/
def Val.minFirst (a b : Val) : Bool := Val.lt a b || (Val.eqv a b && a.neg)

/-- The encoding with a subnormal replaced by zero of its sign under FTZ (R105, R142). -/
def Fmt.flush (f : Fmt) (ftz : Bool) (x : Nat) : Nat :=
  if ftz && f.isSub x then x / 2 ^ (f.eb + f.mb) % 2 * 2 ^ (f.eb + f.mb) else x

/-- Minimum and maximum; num: a single NaN gives the other operand (R142). -/
def Fmt.minMax (f : Fmt) (ftz max num : Bool) (x y : Nat) : Nat × Flags :=
  let a := f.read ftz x
  let b := f.read ftz y
  let fl := Flags.nvIf (a.isSnan || b.isSnan)
  let x' := f.flush ftz x
  let y' := f.flush ftz y
  if a.isNan || b.isNan then
    if !num || (a.isNan && b.isNan) then (f.nanBits, fl)
    else if a.isNan then (y', fl) else (x', fl)
  else if max then (if Val.minFirst a b then y' else x', fl)
  else (if Val.minFirst a b then x' else y', fl)

/-- Extra bits that a quotient or a root is computed to before its sticky bit. -/
def divBits : Nat := 200

/-- The quotient of two magnitudes, m·2^e / n·2^f, to divBits bits below n's, with a sticky bit. -/
def quotient (m : Nat) (e : Int) (n : Nat) (f : Int) : Nat × Int :=
  let k := divBits + Nat.log2 n
  let q := m * 2 ^ k / n
  (2 * q + (if m * 2 ^ k % n = 0 then 0 else 1), e - f - k - 1)

/-- a / b (R144, Table 5.7). -/
def Fmt.div (f : Fmt) (r : RndEnv) (x y : Nat) : Nat × Flags :=
  match f.read r.ftz x, f.read r.ftz y with
  | .nan s, b => (f.nanBits, Flags.nvIf (s || b.isSnan))
  | _, .nan s => (f.nanBits, Flags.nvIf s)
  | .inf _, .inf _ => f.invalid
  | .inf a, .num b _ _ => (f.signBit (a != b) + f.infBits, Flags.none)
  | .num a _ _, .inf b => (f.signBit (a != b), Flags.none)
  | .num a m e, .num b n g =>
    if n = 0 then
      if m = 0 then f.invalid else (f.signBit (a != b) + f.infBits, Flags.divZero)
    else
      let (q, qe) := quotient m e n g
      f.round r (a != b) q qe

/-- The whole square root, by its bits from bit n down. -/
def isqrtGo (x : Nat) : Nat → Nat → Nat
  | 0, acc => if (acc + 1) * (acc + 1) ≤ x then acc + 1 else acc
  | n + 1, acc =>
    let t := acc + 2 ^ (n + 1)
    isqrtGo x n (if t * t ≤ x then t else acc)

/-- The greatest whole number whose square is at most x. -/
def isqrt (x : Nat) : Nat := isqrtGo x (Nat.log2 x / 2 + 1) 0

/-- The square root of m·2^e, with a sticky bit. -/
def root (m : Nat) (e : Int) : Nat × Int :=
  let k := 2 * divBits + (if e % 2 = 0 then 0 else 1)
  let x := m * 2 ^ k
  let q := isqrt x
  (2 * q + (if q * q = x then 0 else 1), (e - k) / 2 - 1)

/-- √a (R144, Table 5.7). -/
def Fmt.sqrt (f : Fmt) (r : RndEnv) (x : Nat) : Nat × Flags :=
  match f.read r.ftz x with
  | .nan s => (f.nanBits, Flags.nvIf s)
  | .inf n => if n then f.invalid else (f.infBits, Flags.none)
  | .num n m e =>
    if m = 0 then (f.signBit n, Flags.none)
    else if n then f.invalid
    else
      let (q, qe) := root m e
      f.round r false q qe

/-- 1 / a (R144, Table 5.7). -/
def Fmt.rcp (f : Fmt) (r : RndEnv) (x : Nat) : Nat × Flags :=
  match f.read r.ftz x with
  | .nan s => (f.nanBits, Flags.nvIf s)
  | .inf n => (f.signBit n, Flags.none)
  | .num n m e =>
    if m = 0 then (f.signBit n + f.infBits, Flags.divZero)
    else
      let (q, qe) := quotient 1 0 m e
      f.round r n q qe

/-- 1 / √a (R144, Table 5.7): the root of 1/a, each with more bits than any boundary needs. -/
def Fmt.rsq (f : Fmt) (r : RndEnv) (x : Nat) : Nat × Flags :=
  match f.read r.ftz x with
  | .nan s => (f.nanBits, Flags.nvIf s)
  | .inf n => if n then f.invalid else (0, Flags.none)
  | .num n m e =>
    if m = 0 then (f.signBit n + f.infBits, Flags.divZero)
    else if n then f.invalid
    else
      -- 1/√(m·2^e) = √(2^k/m) · 2^(−(e+k)/2), k chosen so that e + k is even
      let k := 4 * divBits + (if e % 2 = 0 then 0 else 1)
      let y := 2 ^ k / m
      let exact := 2 ^ k % m = 0
      let q := isqrt y
      f.round r false (2 * q + (if exact ∧ q * q = y then 0 else 1)) (-(e + k) / 2 - 1)

/-- A number rounded to a whole number under the mode, sat as rne: sign, magnitude, inexact (R103, R147). -/
def toWhole (r : RndEnv) (n : Bool) (m : Nat) (e : Int) : Nat × Bool :=
  if 0 ≤ e then (m * 2 ^ e.toNat, false) else roundShift r n m (-e).toNat

/-- FRND: a rounded to a whole number in its own format, without NX (R147). -/
def Fmt.rnd (f : Fmt) (r : RndEnv) (x : Nat) : Nat × Flags :=
  match f.read r.ftz x with
  | .nan s => (f.nanBits, Flags.nvIf s)
  | .inf n => (f.signBit n + f.infBits, Flags.none)
  | .num n m e =>
    let (w, _) := toWhole r n m e
    ((f.round ⟨.rne, 0, false⟩ n w 0).1, Flags.none)

/-- FSCALE: a · 2^n (R146). -/
def Fmt.scale (f : Fmt) (r : RndEnv) (x : Nat) (n : Int) : Nat × Flags :=
  match f.read r.ftz x with
  | .num s m e => f.round r s m (e + n)
  | v => f.deliver r v

/-- FCLASS: the bit of Table 5.9 (R148). -/
def Fmt.classBit (f : Fmt) (x : Nat) : Nat :=
  match f.decode x with
  | .nan s => if s then 8 else 9
  | .inf n => if n then 0 else 7
  | .num n m _ =>
    if m = 0 then (if n then 3 else 4)
    else if f.isSub x then (if n then 2 else 5) else (if n then 1 else 6)

/-- FCMPX: less, equal, greater, unordered as bits 0-3 (R149). -/
def Fmt.cmpx (f : Fmt) (ftz : Bool) (x y : Nat) : Nat × Flags :=
  let a := f.read ftz x
  let b := f.read ftz y
  if a.isNan || b.isNan then (8, Flags.nvIf (a.isSnan || b.isSnan))
  else (if Val.lt a b then 1 else if Val.eqv a b then 2 else 4, Flags.none)

end Sys2Proof.Machine
end

