-- ==== Sys2Proof/Machine/Elem.lean ====
section
/-! DEFINITION. Element types (Table 3.5, Table 4.3, Table 5.1, Table 9.1): widths, signedness, the integers they stand
for, and bringing an exact integer into range (R96). -/

namespace Sys2Proof.Machine

/-- Bits of an element (Table 4.3); x2 is one 32-bit element. -/
def ebits (t : Nat) : Nat :=
  if t ≤ 1 then 8 else if t ≤ 3 then 16 else if t ≤ 5 then 32 else if t ≤ 7 then 64 else if t ≤ 9 then 16
  else if t = 11 then 64 else if t = 12 then 8 else if t = 13 then 8 else 32

/-- Bytes of an element in memory (Table 9.1). -/
def esize (t : Nat) : Nat := ebits t / 8

/-- The type is a pair (R36). -/
def isWide (t : Nat) : Bool := ebits t == 64

/-- s8, s16, s32, s64 are signed; b32 acts as n32 (R115). -/
def isSigned (t : Nat) : Bool := t == 0 || t == 2 || t == 4 || t == 6

/-- The sets of Table 5.1. -/
def inINT (t : Nat) : Bool := decide (t ≤ 7) || t == 14
def inINT32 (t : Nat) : Bool := (decide (4 ≤ t) && decide (t ≤ 7)) || t == 14
def inFLT (t : Nat) : Bool := decide (8 ≤ t) && decide (t ≤ 11)
def inFX (t : Nat) : Bool := inFLT t || t == 15
def inF8 (t : Nat) : Bool := t == 12 || t == 13
def inANY (t : Nat) : Bool := decide (t ≤ 15)

/-- The format of a float type; x2 holds bf16 halves (R116). -/
def fmtOf (t : Nat) : Fmt :=
  if t = 8 then Fmt.f16 else if t = 9 then Fmt.bf16 else if t = 11 then Fmt.f64 else if t = 12 then Fmt.e4m3
  else if t = 13 then Fmt.e5m2 else if t = 15 then Fmt.bf16 else Fmt.f32

/-- The integer that the low w bits of a pattern stand for. -/
def asInt (signed : Bool) (w x : Nat) : Int :=
  let y := x % 2 ^ w
  if signed && decide (2 ^ (w - 1) ≤ y) then (y : Int) - (2 ^ w : Nat) else y

/-- The integer that an element of type t stands for. -/
def elemInt (t x : Nat) : Int := asInt (isSigned t) (ebits t) x

/-- Least and greatest values of w bits. -/
def intMin (signed : Bool) (w : Nat) : Int := if signed then -((2 ^ (w - 1) : Nat) : Int) else 0
def intMax (signed : Bool) (w : Nat) : Int := if signed then ((2 ^ (w - 1) : Nat) : Int) - 1 else (2 ^ w : Nat) - 1

/-- An exact integer brought into range, as a w-bit pattern: clamped under sat, else reduced modulo 2^w (R96). -/
def fitBits (signed : Bool) (w : Nat) (sat : Bool) (x : Int) : Nat :=
  let y := if sat then max (intMin signed w) (min (intMax signed w) x) else x
  (y % (2 ^ w : Nat)).toNat

/-- fit of R114 for element type t. -/
def fitElem (t : Nat) (sat : Bool) (x : Int) : Nat := fitBits (isSigned t) (ebits t) sat x

/-- The low w bits of a pattern extended to n bits (R95). -/
def extend (signed : Bool) (w n x : Nat) : Nat := (asInt signed w x % (2 ^ n : Nat)).toNat

/-- A result of type t as the register or pair holds it (R95). -/
def elemOut (t x : Nat) : Nat :=
  if inINT t then extend (isSigned t) (ebits t) (if isWide t then 64 else 32) x
  else x % 2 ^ (if isWide t then 64 else 32)

/-- The halves of an x2 element, and an x2 element of two halves. -/
def half (x j : Nat) : Nat := x / 2 ^ (16 * j) % 65536
def halves (lo hi : Nat) : Nat := lo % 65536 + 65536 * (hi % 65536)

/-- The new value of an atomic operation, none where nothing is written (Table 9.3, R264, R265): 0 add, 1 min, 2 max,
3 and, 4 or, 5 xor, 6 exch, 7 cas, 8 fadd. -/
def atomNew (op t : Nat) (sat : Bool) (old x new : Nat) : Option Nat :=
  let a := elemInt t old
  let b := elemInt t x
  match op with
  | 0 => some (fitElem t sat (a + b))
  | 1 => some (if a ≤ b then old else x)
  | 2 => some (if a ≤ b then x else old)
  | 3 => some (old &&& x)
  | 4 => some (old ||| x)
  | 5 => some (old ^^^ x)
  | 6 => some x
  | 7 => if old = x then some new else none
  | _ =>
    if t = 15 then
      some (halves (Fmt.bf16.add RndEnv.rne (half old 0) (half x 0)).1 (Fmt.bf16.add RndEnv.rne (half old 1) (half x 1)).1)
    else some ((fmtOf t).add RndEnv.rne old x).1

end Sys2Proof.Machine
end

