-- ==== Sys2Proof/Machine/Engine.lean ====
section
/-! DEFINITION. What the matrix engine does to slots and rows (R158-R180, R110-R112), as functions of one core. -/

namespace Sys2Proof.Machine

/-! ### Rows and slots -/

/-- Column c of a row, 32 bits (R158). -/
def Core.col (k : Core) (row c : Nat) : Word := Tbl.get 0 k.acc (128 * row + c)
def Core.putCol (k : Core) (row c : Nat) (v : Word) : Core := { k with acc := Tbl.set 0 k.acc (128 * row + c) v }
/-- FP64 column c of a row: 32-bit columns 2c and 2c + 1 (R158). -/
def Core.col64 (k : Core) (row c : Nat) : Nat := (k.col row (2 * c)).toNat + 2 ^ 32 * (k.col row (2 * c + 1)).toNat
def Core.putCol64 (k : Core) (row c v : Nat) : Core :=
  (k.putCol row (2 * c) (BitVec.ofNat 32 v)).putCol row (2 * c + 1) (BitVec.ofNat 32 (v / 2 ^ 32))
/-- A column of either width. -/
def Core.colW (k : Core) (wide : Bool) (row c : Nat) : Nat := if wide then k.col64 row c else (k.col row c).toNat
def Core.putColW (k : Core) (wide : Bool) (row c v : Nat) : Core :=
  if wide then k.putCol64 row c v else k.putCol row c (BitVec.ofNat 32 v)
/-- The poison bit of a row. -/
def Core.poisoned (k : Core) (row : Nat) : Bool := Tbl.get false k.poison row
def Core.putPoison (k : Core) (row : Nat) (b : Bool) : Core := { k with poison := Tbl.set false k.poison row b }

/-- A row of 512 bytes, and a row from 512 bytes; its poison cleared (R184). -/
def Core.rowBytes (k : Core) (row : Nat) : List Byte :=
  (List.range 128).flatMap (fun c => leBytes 4 (k.col row c).toNat)
def Core.putRow (k : Core) (row : Nat) (bs : List Byte) : Core :=
  ((List.range 128).foldl (fun acc c =>
    acc.putCol row c (BitVec.ofNat 32 (leNat ((bs.drop (4 * c)).take 4)))) k).putPoison row false
/-- A row of zeros without poison (R160, R182). -/
def Core.zeroRow (k : Core) (row : Nat) : Core :=
  { k with acc := k.acc.filter (fun e => e.1 / 128 != row), poison := Tbl.set false k.poison row false }
/-- A slot of zeros (R160). -/
def Core.zeroSlot (k : Core) (n : Nat) : Core := { k with slots := k.slots.filter (fun e => e.1 / 16384 != n) }

/-! ### Formats of Table 6.1 -/

/-- Bits of a format. -/
def mfBits (f : Nat) : Nat :=
  match f with
  | 0 => 64
  | 1 | 2 => 32
  | 3 | 4 | 15 => 16
  | 7 | 8 | 12 | 13 => 6
  | 9 | 14 | 18 | 19 => 4
  | _ => 8
/-- Classes D, T, F, I as 0-3. -/
def mfClass (f : Nat) : Nat := if f = 0 then 0 else if f ≤ 2 then 1 else if f ≤ 14 then 2 else 3
/-- The format is block-scaled. -/
def mfScaled (f : Nat) : Bool := decide (10 ≤ f) && decide (f ≤ 14)
/-- The format is FP6. -/
def mfSix (f : Nat) : Bool := mfBits f == 6
/-- The float encoding of an element. -/
def mfFmt (f : Nat) : Fmt :=
  match f with
  | 0 => Fmt.f64
  | 1 => Fmt.f32
  | 2 => Fmt.tf32
  | 3 => Fmt.bf16
  | 4 => Fmt.f16
  | 5 | 10 => Fmt.e5m2
  | 6 | 11 => Fmt.e4m3
  | 7 | 12 => Fmt.e3m2
  | 8 | 13 => Fmt.e2m3
  | _ => Fmt.e2m1
/-- Is an integer format signed? -/
def mfSigned (f : Nat) : Bool := f == 15 || f == 16 || f == 18
/-- Elements of a K-block (Table 4.7). -/
def mfBlock (f : Nat) : Nat := if f = 0 then 1 else if f ≤ 2 then 8 else 32
/-- Bytes of a row of n elements (R170). -/
def mfRowBytes (f n : Nat) : Nat :=
  let b := (n * mfBits f + 7) / 8
  if mfSix f then (b + 2) / 3 * 3 else b
/-- A pitch is legal for n elements (R170). -/
def mfPitchOk (f n pitch : Nat) : Bool :=
  pitch % (if mfSix f then 48 else 16) == 0 && decide (mfRowBytes f n ≤ pitch)

/-- Element k of a row that starts at byte a, as a pattern (R90, R170). -/
def mfElem (m : Memory) (f a k : Nat) : Nat :=
  let off := k * mfBits f
  Memory.readNat m (a + off / 8) (mfBits f / 8 + 2) / 2 ^ (off % 8) % 2 ^ mfBits f

/-- The value of a float element times its block scale; sc none: not scaled (R92). -/
def mfVal (f pat : Nat) (sc : Option Nat) : Val :=
  let v := (mfFmt f).decode (if f = 2 then pat / 2 ^ 13 else pat)
  match sc with
  | none => v
  | some 255 => .nan false
  | some e => match v with
    | .num n m x => .num n m (x + ((e : Int) - 127))
    | w => w

/-! ### Descriptors (Table 6.2) -/

/-- A matrix descriptor, its fields as Table 6.2 names them, the lengths with their 1 added. -/
structure MDesc where
  aslot : Nat
  ans : Nat
  bslot : Nat
  bns : Nat
  afmt : Nat
  bfmt : Nat
  accum : Bool
  sat : Bool
  m : Nat
  n : Nat
  k : Nat
  apitch : Nat
  bpitch : Nat
  ascl : Nat
  bscl : Nat
  row0 : Nat
  col0 : Nat
  gtab : Nat
  g : Nat
  bgstr : Nat
  deriving DecidableEq, Repr

/-- Word i of a descriptor. -/
def dword (ws : List Word) (i : Nat) : Nat := (ws.getD i 0).toNat

/-- The fields of a descriptor. -/
def MDesc.of (ws : List Word) : MDesc :=
  { aslot := bits (dword ws 0) 4 0, ans := bits (dword ws 0) 8 5 + 1, bslot := bits (dword ws 0) 13 9,
    bns := bits (dword ws 0) 17 14 + 1, afmt := bits (dword ws 0) 22 18, bfmt := bits (dword ws 0) 27 23,
    accum := bit (dword ws 0) 28, sat := bit (dword ws 0) 29,
    m := bits (dword ws 1) 7 0 + 1, n := bits (dword ws 1) 14 8 + 1, k := bits (dword ws 1) 27 16 + 1,
    apitch := bits (dword ws 2) 15 0, bpitch := bits (dword ws 2) 31 16, ascl := bits (dword ws 3) 15 0,
    bscl := bits (dword ws 3) 31 16, row0 := bits (dword ws 4) 9 0, col0 := bits (dword ws 4) 22 16,
    gtab := bits (dword ws 5) 19 0, g := bits (dword ws 5) 29 24 + 1, bgstr := bits (dword ws 6) 15 0 }

/-- The reserved fields of a descriptor are zero (R173). -/
def MDesc.reservedOk (mmag : Bool) (ws : List Word) : Bool :=
  bits (dword ws 0) 31 30 == 0 && bits (dword ws 1) 15 15 == 0 && bits (dword ws 1) 31 28 == 0 &&
  bits (dword ws 4) 15 10 == 0 && bits (dword ws 4) 31 23 == 0 && dword ws 7 == 0 && bits (dword ws 6) 31 16 == 0 &&
  (if mmag then bits (dword ws 5) 23 20 == 0 && bits (dword ws 5) 31 30 == 0 && bits (dword ws 5) 19 0 % 4 == 0
   else dword ws 5 == 0 && dword ws 6 == 0)

/-- K-blocks of the descriptor. -/
def MDesc.blocks (d : MDesc) : Nat := (d.k + mfBlock d.afmt - 1) / mfBlock d.afmt
/-- Scale blocks of 32 along K (R171). -/
def MDesc.scaleBlocks (d : MDesc) : Nat := (d.k + 31) / 32

/-- A tile of rows of K elements from byte start of a run of n slots lies inside the run, with its scales (R172). -/
def tileInside (f rows k pitch scl start slots : Nat) : Bool :=
  decide (start + (rows - 1) * pitch + mfRowBytes f k ≤ slots * 16384) &&
  (!mfScaled f || decide (start + scl * 16 + rows * ((k + 31) / 32) ≤ slots * 16384))

/-- The checks of R169 to R173 on a descriptor. -/
def MDesc.ok (mmag : Bool) (ws : List Word) : Bool :=
  let d := MDesc.of ws
  let w := if d.afmt = 0 then 64 else 128
  MDesc.reservedOk mmag ws && decide (d.afmt < 20) && decide (d.bfmt < 20) && mfClass d.afmt == mfClass d.bfmt &&
  (!d.sat || mfClass d.afmt == 3) && decide (d.aslot + d.ans ≤ 32) && decide (d.bslot + d.bns ≤ 32) &&
  decide (d.n ≤ w) && decide (d.col0 + d.n ≤ w) && decide (d.row0 + d.m ≤ 1024) &&
  mfPitchOk d.afmt d.k d.apitch && mfPitchOk d.bfmt d.k d.bpitch &&
  tileInside d.afmt d.m d.k d.apitch d.ascl 0 d.ans &&
  (List.range (if mmag then d.g else 1)).all (fun g =>
    tileInside d.bfmt d.n d.k d.bpitch d.bscl (if mmag then g * 16 * d.bgstr else 0) d.bns)

/-- The slots that a descriptor reads, and the rows it writes (R174). -/
def MDesc.slots (d : MDesc) : List Nat :=
  (List.range d.ans).map (fun i => d.aslot + i) ++ (List.range d.bns).map (fun i => d.bslot + i)
def MDesc.rows (d : MDesc) : List Nat := (List.range d.m).map (fun i => d.row0 + i)

/-! ### Sums (R110-R112) -/

/-- The exact sum of products, none for NaN (R111). -/
def sumVals : List (Option Val) → Option Val
  | [] => some (.num false 0 0)
  | [x] => x
  | x :: xs => match x, sumVals xs with
    | some a, some b => Val.add false a b
    | _, _ => none

/-- The scale byte of a row and block of an operand; none if the format is not scaled (R171). -/
def mfScale (m : Memory) (f start scl nb row b : Nat) : Option Nat :=
  if mfScaled f then some (Memory.readByte m (start + 16 * scl + row * nb + b)).toNat else none

/-- The product of element k of A row i and B row n of the tile at byte bt of B's run. -/
def MDesc.product (d : MDesc) (m : Memory) (i n bt k : Nat) : Option Val :=
  let at_ := d.aslot * 16384
  let bs := d.bslot * 16384 + bt
  let nb := d.scaleBlocks
  Val.mul (mfVal d.afmt (mfElem m d.afmt (at_ + i * d.apitch) k) (mfScale m d.afmt at_ d.ascl nb i (k / 32)))
    (mfVal d.bfmt (mfElem m d.bfmt (bs + n * d.bpitch) k) (mfScale m d.bfmt bs d.bscl nb n (k / 32)))

/-- The K indices of block b. -/
def MDesc.blockKs (d : MDesc) (b : Nat) : List Nat :=
  ((List.range (mfBlock d.afmt)).map (fun j => b * mfBlock d.afmt + j)).filter (fun k => k < d.k)

/-- The integer product sum of block b. -/
def MDesc.intBlock (d : MDesc) (m : Memory) (i n bt b : Nat) : Int :=
  (d.blockKs b).foldl (fun acc k => acc +
    asInt (mfSigned d.afmt) (mfBits d.afmt) (mfElem m d.afmt (d.aslot * 16384 + i * d.apitch) k) *
    asInt (mfSigned d.bfmt) (mfBits d.bfmt) (mfElem m d.bfmt (d.bslot * 16384 + bt + n * d.bpitch) k)) 0

/-- One output element: x is its accumulator (R175). -/
def MDesc.element (d : MDesc) (m : Memory) (i n bt x : Nat) : Nat :=
  (List.range d.blocks).foldl (fun acc b =>
    if mfClass d.afmt = 3 then fitBits true 32 d.sat (asInt true 32 acc + d.intBlock m i n bt b)
    else
      let f := if d.afmt = 0 then Fmt.f64 else Fmt.f32
      let s := sumVals ((d.blockKs b).map (fun k => d.product m i n bt k))
      match s with
      | none => f.nanBits
      | some v => (f.finish RndEnv.rne [f.decode acc] (Val.add false (f.decode acc) v)).1) x

/-- Row i of the result against the tile at byte bt: a poisoned row is not written (R175, R189). -/
def MDesc.row (d : MDesc) (k : Core) (i bt : Nat) : Core :=
  if k.poisoned (d.row0 + i) then k
  else (List.range d.n).foldl (fun acc n =>
    let wide := d.afmt == 0
    let x := if d.accum then k.colW wide (d.row0 + i) (d.col0 + n) else 0
    acc.putColW wide (d.row0 + i) (d.col0 + n) (d.element k.slots i n bt x)) k

/-- The rows that the groups cover, each with its tile, in increasing order (R175). groups: the row counts. -/
def groupRows (m bgstr : Nat) : List Nat → Nat → Nat → List (Nat × Nat)
  | [], _, _ => []
  | c :: cs, g, start =>
    ((List.range c).map (fun j => start + j)).filterMap (fun i => if i < m then some (i, g * 16 * bgstr) else none) ++
      groupRows m bgstr cs (g + 1) (start + c)

/-- Some group of the table exceeds M (R175). -/
def groupsClip (m : Nat) : List Nat → Nat → Bool
  | [], _ => false
  | c :: cs, start => decide (m < start + c) || groupsClip m cs (start + c)

/-- MMA and MMAG on rows lo to hi − 1 of their list of rows. -/
def Core.mma (k : Core) (desc : List Word) (groups : List Nat) (lo hi : Nat) : Core :=
  let d := MDesc.of desc
  (((groupRows d.m d.bgstr groups 0 0).take hi).drop lo).foldl (fun acc r => d.row acc r.1 r.2) k

/-! ### Block conversion (R93) -/

/-- The largest magnitude of numbers, as mantissa and exponent; a zero counts as 0. -/
def maxVal : List Val → Val
  | [] => .num false 0 0
  | v :: vs =>
    let b := maxVal vs
    if Val.lt b v.absv then v.absv else b

/-- A block of values converted to a block-scaled format: the scale byte, the elements, the flags. Each value carries
the rounding of its lane (R93). -/
def mxBlock (f : Fmt) (vs : List (RndEnv × Val)) : Nat × List Nat × Flags :=
  let vals := vs.map (fun v => v.2)
  if vals.any (fun v => v.isNan || v.isInf) then
    (255, vs.map (fun _ => 0), Flags.nvIf (vals.any (fun v => v.isInf || v.isSnan)))
  else match maxVal vals with
    | .num _ m e =>
      if m = 0 then (127, vals.map (fun v => f.signBit v.neg), Flags.none)
      else
        let x := max (-127) (min 127 ((Nat.log2 m : Int) + e - f.emax))
        let outs := vs.map (fun v => match v.2 with
          | .num n vm ve =>
            let q := Val.num false vm (ve - x)
            if Val.lt (f.decode f.maxBits) q then
              (f.signBit n + f.maxBits, (⟨false, false, true, false, true⟩ : Flags))
            else f.round v.1 n vm (ve - x)
          | _ => (0, Flags.none))
        ((x + 127).toNat, outs.map (fun o => o.1), Flags.orAll (outs.map (fun o => o.2)))
    | _ => (127, vs.map (fun _ => 0), Flags.none)

/-! ### MCVT (R179, R180) -/

/-- The operands of MCVT (Table 6.4). -/
structure McvtDesc where
  row0 : Nat
  m : Nat
  col0 : Nat
  scl : Nat
  addr : Nat
  pitch : Nat
  n : Nat
  fmt : Nat
  trans : Bool
  rnd : Nat
  deriving DecidableEq, Repr

/-- The fields of s[j], s[j+1], s[i], s[i+1]. -/
def McvtDesc.of (j0 j1 i0 i1 : Word) (trans : Bool) (rnd : Nat) : McvtDesc :=
  { row0 := bits j0.toNat 9 0, m := bits j0.toNat 23 16 + 1, col0 := bits j1.toNat 6 0, scl := bits j1.toNat 31 16,
    addr := bits i0.toNat 18 0, pitch := bits i1.toNat 15 0, n := bits i1.toNat 22 16 + 1, fmt := bits i1.toNat 27 23,
    trans := trans, rnd := rnd }

/-- Rows of the destination, and elements of each. -/
def McvtDesc.dstRows (d : McvtDesc) : Nat := if d.trans then d.n else d.m
def McvtDesc.dstLen (d : McvtDesc) : Nat := if d.trans then d.m else d.n

/-- First and last slot bytes of the destination, scales included, plus 1. -/
def McvtDesc.endByte (d : McvtDesc) : Nat := d.addr + (d.dstRows - 1) * d.pitch + mfRowBytes d.fmt d.dstLen
def McvtDesc.endScale (d : McvtDesc) : Nat := d.addr + 16 * d.scl + d.dstRows * ((d.dstLen + 31) / 32)

/-- The limits of Table 6.4 (R179). -/
def McvtDesc.ok (j0 j1 i0 i1 : Word) (d : McvtDesc) : Bool :=
  bits j0.toNat 15 10 == 0 && bits j0.toNat 31 24 == 0 && bits j1.toNat 15 7 == 0 && bits i0.toNat 31 19 == 0 &&
  bits i1.toNat 31 28 == 0 && decide (d.fmt < 20) && decide (d.row0 + d.m ≤ 1024) && d.addr % 16 == 0 &&
  decide (d.n ≤ 128) && decide (d.col0 + d.n ≤ (if d.fmt = 0 then 64 else 128)) && mfPitchOk d.fmt d.dstLen d.pitch &&
  decide (d.endByte ≤ 524288) && (!mfScaled d.fmt || decide (d.endScale ≤ 524288))

/-- The source of destination element c of row r: its row and column. -/
def McvtDesc.source (d : McvtDesc) (r c : Nat) : Nat × Nat :=
  if d.trans then (d.row0 + c, d.col0 + r) else (d.row0 + r, d.col0 + c)

/-- The source value of a float conversion; a poisoned row stands for a quiet NaN (R180). -/
def McvtDesc.val (d : McvtDesc) (k : Core) (r c : Nat) : Val :=
  let s := d.source r c
  if k.poisoned s.1 then .nan false
  else if d.fmt = 0 then Fmt.f64.decode (k.col64 s.1 s.2) else Fmt.f32.decode (k.col s.1 s.2).toNat

/-- Blocks of at most 32 of a list; n bounds them. -/
def blocksOf {α : Type} : Nat → List α → List (List α)
  | 0, _ => []
  | n + 1, l => if l.isEmpty then [] else l.take 32 :: blocksOf n (l.drop 32)

/-- Destination row r: its elements, its scales and its flags (R180). -/
def McvtDesc.row (d : McvtDesc) (k : Core) (r : Nat) : List Nat × List Nat × Flags :=
  let env : RndEnv := ⟨Rnd.ofCode d.rnd, 0, false⟩
  if mfClass d.fmt = 3 then
    let es := (List.range d.dstLen).map (fun c =>
      let s := d.source r c
      if k.poisoned s.1 then (0, Flags.invalid)
      else (fitBits (mfSigned d.fmt) (mfBits d.fmt) (d.rnd == 6) (asInt true 32 (k.col s.1 s.2).toNat), Flags.none))
    (es.map (fun e => e.1), [], Flags.orAll (es.map (fun e => e.2)))
  else if mfScaled d.fmt then
    let bs := (blocksOf (d.dstLen / 32 + 1) ((List.range d.dstLen).map (fun c => (env, d.val k r c)))).map
      (mxBlock (mfFmt d.fmt))
    (bs.flatMap (fun b => b.2.1), bs.map (fun b => b.1), Flags.orAll (bs.map (fun b => b.2.2)))
  else
    let es := (List.range d.dstLen).map (fun c => (mfFmt d.fmt).deliver env (d.val k r c))
    (es.map (fun e => if d.fmt = 2 then e.1 * 2 ^ 13 else e.1), [], Flags.orAll (es.map (fun e => e.2)))

/-- Elements of b bits packed from the lowest bit up (R90). -/
def packBits (b : Nat) : List Nat → Nat
  | [] => 0
  | e :: es => e % 2 ^ b + 2 ^ b * packBits b es

/-- Destination rows lo to hi − 1 written into the slots, with their flags. -/
def Core.mcvt (k : Core) (d : McvtDesc) (lo hi : Nat) : Core × Flags :=
  (((List.range d.dstRows).take hi).drop lo).foldl (fun acc r =>
    let (es, scs, fl) := d.row k r
    let bytes := leBytes (mfRowBytes d.fmt d.dstLen) (packBits (mfBits d.fmt) es)
    let s1 := Memory.writeBytes acc.1.slots (d.addr + r * d.pitch) bytes
    let s2 := Memory.writeBytes s1 (d.addr + 16 * d.scl + r * ((d.dstLen + 31) / 32)) (scs.map (BitVec.ofNat 8))
    ({ acc.1 with slots := s2 }, Flags.or acc.2 fl)) (k, Flags.none)

/-- The poisoned source row that a conversion reports (R180). DESIGN CHOICE (log 75): the lowest. -/
def McvtDesc.firstPoison (d : McvtDesc) (k : Core) : Option Nat :=
  ((List.range d.m).map (fun i => d.row0 + i)).find? (fun r => k.poisoned r)

/-! ### MDRAIN (R185) -/

/-- The bytes of a drain: rows, poisoned ones as canonical quiet NaN words, or slot bytes. -/
def Core.drainBytes (k : Core) (slotSource : Bool) (src : Word) : List Byte :=
  if slotSource then
    Memory.readBytes k.slots (bits src.toNat 18 0) (512 * (bits src.toNat 28 19 + 1))
  else
    (List.range (bits src.toNat 25 16 + 1)).flatMap (fun r =>
      let row := bits src.toNat 9 0 + r
      if k.poisoned row then (List.range 128).flatMap (fun _ => leBytes 4 0x7FC00000) else k.rowBytes row)

/-- The lowest poisoned row of a drain. -/
def Core.drainPoison (k : Core) (slotSource : Bool) (src : Word) : Option Nat :=
  if slotSource then none
  else ((List.range (bits src.toNat 25 16 + 1)).map (fun r => bits src.toNat 9 0 + r)).find? (fun r => k.poisoned r)

/-! ### Running accepted operations -/

/-- Rows that an operation writes one by one. -/
def EngineKind.rowCount : EngineKind → Nat
  | .mma _ desc groups => (groupRows (MDesc.of desc).m (MDesc.of desc).bgstr groups 0 0).length
  | .mcvt s0 s1 d0 d1 tr rnd => (McvtDesc.of d0 d1 s0 s1 tr rnd).dstRows
  | .mdrain _ _ _ _ => 0

/-- Marks of a slot byte address, an accumulator row and a tag in a lane record (R159, R228). -/
def slotMark (a : Nat) : Nat := 0x4000000000000000 + a
def rowMark (r : Nat) : Nat := 0x8000000000000000 + r
def tagMark (t : Nat) : Nat := 0xC000000000000000 + t

/-- A fault posted against the counter of an operation (R190). -/
def EngineOp.fault (o : EngineOp) (cause : Byte) (addr : Nat) : Posted :=
  { at_ := .counter o.k, cause := cause, addr := addr, lanes := [], opc := o.opc, flags := 0, fdet := 0, req := o.id,
    more := 0, chunks := [] }

/-- A fault put among those posted: before the faults of its counter that belong to later operations (R190). -/
def insertPosted (p : Posted) : List Posted → List Posted
  | [] => [p]
  | q :: qs => if q.at_ = p.at_ ∧ p.req < q.req then p :: q :: qs else q :: insertPosted p qs

/-- The faults of an operation posted to its gang; one that has ended takes none. -/
def Gang.postAll (g : Gang) (ps : List Posted) : Gang :=
  if g.ended then g else { g with posted := ps.foldl (fun acc p => insertPosted p acc) g.posted }

/-- An accepted operation performed up to row hi of its rows; whole, once hi reaches its count (R164, R167). -/
def Core.runOp (c : Core) (o : EngineOp) (hi : Nat) : Core × EngineOp :=
  if o.ran then (c, o)
  else
    let whole := decide (o.kind.rowCount ≤ hi)
    match o.kind with
    | .mma _ desc groups =>
      let clip := groupsClip (MDesc.of desc).m groups 0
      (c.mma desc groups o.next hi,
        { o with next := hi, ran := whole, flags := if clip then o.flags ||| 32#6 else o.flags })
    | .mcvt s0 s1 d0 d1 tr rnd =>
      let d := McvtDesc.of d0 d1 s0 s1 tr rnd
      let (c', fl) := c.mcvt d o.next hi
      let faults := match d.firstPoison c with
        | some r => if whole then o.faults ++ [o.fault Cause.accPoison (rowMark r)] else o.faults
        | none => o.faults
      (c', { o with next := hi, ran := whole, flags := o.flags ||| BitVec.ofNat 6 fl.toNat, faults := faults })
    | .mdrain ss src _ _ =>
      let faults := match c.drainPoison ss src with
        | some r => o.faults ++ [o.fault Cause.accPoison (rowMark r)]
        | none => o.faults
      (c, { o with next := hi, ran := true, out := c.drainBytes ss src, faults := faults })

/-- Every accepted operation performed, in engine order (R164); the list keeps them until they complete. -/
def runAll : List EngineOp → Core → List EngineOp × Core
  | [], c => ([], c)
  | o :: os, c =>
    let (c1, o1) := c.runOp o (o.kind.rowCount)
    let (os', c2) := runAll os c1
    (o1 :: os', c2)

/-- The core with every accepted operation performed: what the next operation in engine order finds (R164). -/
def Core.flushEngine (c : Core) : Core :=
  let (os, c') := runAll c.engine c
  { c' with engine := os }

/-- The freeze: performed operations stand; the first one that is not stops after rows of its own number, and the later
ones have not begun (R167, R188). rows: a free number of rows. -/
def freezeGo (rows : Nat) : List EngineOp → Core → List EngineOp × Core
  | [], c => ([], c)
  | o :: os, c =>
    if o.ran then
      let (os', c') := freezeGo rows os c
      (o :: os', c')
    else
      let n := rows % (o.kind.rowCount + 1)
      if n ≤ o.next then (o :: os, c)
      else
        let (c1, o1) := c.runOp o n
        (o1 :: os, c1)

/-- The operation at work: the first accepted one that is not wholly performed (R164). -/
def Core.working (c : Core) : Option EngineOp := c.engine.find? (fun o => !o.ran)

/-- The accumulator rows of an MMA or MMAG in the order in which it writes them. -/
def EngineKind.rows : EngineKind → List Nat
  | .mma _ desc groups => (groupRows (MDesc.of desc).m (MDesc.of desc).bgstr groups 0 0).map (fun r => (MDesc.of desc).row0 + r.1)
  | _ => []

/-- The operation at work performed up to its row n. -/
def Core.workTo (c : Core) (n : Nat) : Core := match c.working with
  | none => c
  | some o =>
    let (c1, o1) := c.runOp o (max o.next n)
    { c1 with engine := c1.engine.map (fun x => if x.id = o.id then o1 else x) }

/-- Rows poisoned by an error in operand bytes that the operation at work reads: of those that it has not written, one row,
or all of them (R189). -/
def Core.poisonOutput (c : Core) (row : Option Nat) : Core :=
  match c.working with
  | none => c
  | some o => (o.kind.rows.drop o.next).foldl (fun k r =>
      if row.isNone || row == some r then { k with poison := Tbl.set false k.poison r true } else k) c

/-- An error in the B operand: the operation at work has reached a row of its own, free unless it stands stopped, and every
row from there on is poisoned (R189). -/
def Core.poisonRest (c : Core) (stands : Bool) (free : Nat) : Core :=
  match c.working with
  | none => c
  | some o =>
    let left := o.kind.rows.length - o.next
    ((if stands || left = 0 then c else c.workTo (o.next + free % left)).poisonOutput none)

/-- The engine stopped by a freeze (R188). -/
def Core.freeze (c : Core) (rows : Nat) : Core :=
  let (os, c') := freezeGo rows c.engine c
  { c' with engine := os }

end Sys2Proof.Machine
end

