-- ==== Sys2Proof/Machine/Vault.lean ====
section
/-! DEFINITION. The vault: translation (R394-R396, R224), the vector clocks and the stamped writes (R203-R205), LR
reservations and holds (R220-R222). -/

namespace Sys2Proof.Machine

/-! ### Translation -/

/-- Entry fields (Tables 16.5 and 8.1). -/
def Pte.v (e : Nat) : Bool := bit e 0
def Pte.far (e : Nat) : Bool := bit e 1
def Pte.rd (e : Nat) : Bool := bit e 2
def Pte.wr (e : Nat) : Bool := bit e 3
def Pte.tbl (e : Nat) : Bool := bit e 4
def Pte.x (e : Nat) : Bool := bit e 5
def Pte.modid (e : Nat) : Nat := bits e 19 8
def Pte.mseq (e : Nat) : Nat := bits e 35 20
/-- First byte of the page: physical in the vault, or the module offset. -/
def Pte.base (e : Nat) : Nat := if Pte.far e then bits e 59 36 * 65536 else bits e 28 16 * 65536

/-- A run of physical bytes lies within the partition's range (R395). -/
def Partition.owns (p : Partition) (pa len : Nat) : Bool :=
  decide (p.vbase * 65536 ≤ pa) && decide (pa + len ≤ (p.vbase + p.vsize) * 65536)

/-- A leaf entry that maps a page of sz bytes (R224, R395). -/
def Pte.leafOk (p : Partition) (e sz : Nat) : Bool :=
  if Pte.far e then bits e 7 4 == 0 && bits e 63 60 == 0 && Pte.base e % sz == 0
  else bits e 7 6 == 0 && bits e 15 8 == 0 && bits e 63 29 == 0 && Pte.base e % sz == 0 && p.owns (Pte.base e) sz

/-- A pointer entry without reserved bits (Table 16.5). -/
def Pte.pointerOk (e : Nat) : Bool := bits e 3 1 == 0 && bits e 7 5 == 0 && bits e 63 29 == 0

/-- The walk below a table at tbl: levels from there down, each with its page size and its index bits (Table 16.4).
Answers the page size and the leaf entry; none if unmapped. -/
def walkFrom (vault : Memory) (p : Partition) (va : Nat) : List (Nat × Nat) → Nat → Option (Nat × Nat)
  | [], _ => none
  | (sz, ib) :: rest, tbl =>
    if !p.owns tbl (8 * 2 ^ ib) then none
    else
      let e := Memory.readNat vault (tbl + 8 * (va / sz % 2 ^ ib)) 8
      if !Pte.v e then none
      else if Pte.tbl e then
        if Pte.pointerOk e then walkFrom vault p va rest (bits e 28 8 * 256) else none
      else if Pte.leafOk p e sz then some (sz, e) else none

/-- The levels of Table 16.4, for a root of 2^top entries. -/
def walkLevels (top : Nat) : List (Nat × Nat) := [(2 ^ 30, top), (2 ^ 26, 4), (2 ^ 21, 5), (2 ^ 16, 5)]

/-- The walk from the root (R394). -/
def walkTables (vault : Memory) (p : Partition) (va : Nat) : Option (Nat × Nat) :=
  let root := p.ptbase * 256
  let size := 8 * 2 ^ p.topbits
  if 2 ^ p.topbits ≤ va / 2 ^ 30 then none
  else if decide (256 < size) && root % size != 0 then none
  else walkFrom vault p va (walkLevels p.topbits) root

/-- The cached translation of an address (R396). -/
def State.cached (s : State) (part va : Nat) : Option CachedPage :=
  s.tlb.find? (fun c => c.part == part && c.va == va / c.size * c.size)

/-- The page of an address: a cached one, which is unmapped once it lies outside the partition's range (R395), or what the
tables give: its size and its entry (R394, R396). -/
def State.page (s : State) (part va : Nat) : Option (Nat × Nat) :=
  match s.cached part va with
  | some c => if Pte.leafOk (s.part part) c.entry.toNat c.size then some (c.size, c.entry.toNat) else none
  | none => walkTables s.vault (s.part part) va

/-- The translation of an address is cached; a walk that ends unmapped is not (R396). -/
def State.cache (s : State) (part va : Nat) : State :=
  match s.cached part va with
  | some _ => s
  | none => match walkTables s.vault (s.part part) va with
    | some (sz, e) => { s with tlb := ⟨part, va / sz * sz, sz, BitVec.ofNat 64 e⟩ :: s.tlb }
    | none => s

/-- What an access asks of a page (R395). -/
structure Need where
  rd : Bool
  wr : Bool
  x : Bool
  deriving DecidableEq, Repr

def Need.load : Need := ⟨true, false, false⟩
def Need.store : Need := ⟨false, true, false⟩
def Need.atomic : Need := ⟨true, true, false⟩
def Need.fetch : Need := ⟨false, false, true⟩

/-- A vault access: the physical address, or the cause of the fault, in the order of R194. -/
def State.access (s : State) (part va size : Nat) (n : Need) : Except Byte Nat :=
  if va % size ≠ 0 then .error Cause.misaligned
  else if 2 ^ 56 ≤ va then .error Cause.translation
  else match s.page part va with
    | none => .error Cause.translation
    | some (sz, e) =>
      if Pte.far e then .error Cause.farSpace
      else if (n.rd && !Pte.rd e) || (n.wr && !Pte.wr e) || (n.x && !Pte.x e) then .error Cause.permission
      else .ok (Pte.base e + va % sz)

/-- The bytes of a run that lie on one page, up to the page's end: length and physical address of each piece, or the
first fault. n bounds the number of pieces. -/
def State.runGo (s : State) (part : Nat) (need : Need) : Nat → Nat → Nat → List (Nat × Nat × Except Byte Nat)
  | 0, _, _ => []
  | n + 1, va, len =>
    if len = 0 then []
    else
      let here := min len (65536 - va % 65536)
      (va, here, s.access part (va % 2 ^ 64) 1 need) :: State.runGo s part need n (va + here) (len - here)

/-- A run of virtual bytes, page by page (64 KiB pieces): address, length, physical address or fault. -/
def State.run (s : State) (part va len : Nat) (need : Need) : List (Nat × Nat × Except Byte Nat) :=
  s.runGo part need (len / 65536 + 2) va len

/-- The physical runs of those pieces that do not fault. -/
def okRuns (rs : List (Nat × Nat × Except Byte Nat)) : List (Nat × Nat) :=
  rs.filterMap (fun r => match r.2.2 with
    | .ok pa => some (pa, r.2.1)
    | .error _ => none)

/-! ### Clocks -/

/-- A clock of five counters at 0. -/
def clock0 : List (BitVec 16) := [0, 0, 0, 0, 0]
/-- Component a of a clock. -/
def clockAt (c : List (BitVec 16)) (a : Nat) : BitVec 16 := c.getD a 0
/-- a is at least b, modulo 2^16 (R205). -/
def atLeast (a b : BitVec 16) : Bool := decide ((a - b).toNat < 32768)
/-- The greater of two clocks, per component (R204). -/
def clockMax (x y : List (BitVec 16)) : List (BitVec 16) :=
  (List.range 5).map (fun a => if atLeast (clockAt y a) (clockAt x a) then clockAt y a else clockAt x a)
/-- A clock with component a one greater. -/
def clockTick (x : List (BitVec 16)) (a : Nat) : List (BitVec 16) :=
  (List.range 5).map (fun b => if b = a then clockAt x b + 1 else clockAt x b)

/-- vc of an agent, av of a slice (R204). -/
def State.vcOf (s : State) (a : Nat) : List (BitVec 16) := Tbl.get clock0 s.vc a
def State.avOf (s : State) (sl : Nat) : List (BitVec 16) := Tbl.get clock0 s.av sl

/-- The vault slice of a physical byte (R203). -/
def vaultSlice (pa : Nat) : Nat := 32 * bits pa 28 27 + bits pa 10 6
/-- The 64-byte granule of a physical byte (R220). -/
def granuleOf (pa : Nat) : Nat := pa / 64

/-- The request writes. -/
def VaultKind.writes : VaultKind → Bool
  | .write _ => true
  | .atom _ _ _ _ _ => true
  | .sc _ => true
  | .read => false
  | .lr => false
  | .booked => false

/-- The request returns something to its lane. -/
def VaultKind.loads : VaultKind → Bool
  | .write _ => false
  | .booked => false
  | _ => true

/-- The gang that made a request, if a gang's lane did. -/
def Actor.gang? : Actor → Option Nat
  | .lane g _ => some g
  | .engine _ => none
  | .iod => none

/-- Loads of a gang not yet answered. -/
def State.loadsOut (s : State) (gang : Nat) : Bool :=
  s.vreqs.any (fun r => r.kind.loads && (r.actor.gang? == some gang))

/-- A write is covered by a clock (R204). -/
def VaultReq.coveredBy (r : VaultReq) (x : List (BitVec 16)) : Bool :=
  atLeast (clockAt x r.agent) (clockAt r.stamp r.agent)

/-- Some write that a clock covers is not yet applied. -/
def State.uncovered (s : State) (x : List (BitVec 16)) : Bool :=
  s.vreqs.any (fun r => r.kind.writes && r.coveredBy x)

/-- Writes of an agent that are not yet applied (R205). -/
def State.unapplied (s : State) (a : Nat) : Nat :=
  (s.vreqs.filter (fun r => r.kind.writes && r.agent == a)).length

/-- The granules of a run of bytes (R220). -/
def granulesOf (pa len : Nat) : List Nat :=
  (List.range (len / 64 + 2)).filterMap (fun i =>
    if (pa / 64 + i) * 64 < pa + len then some (pa / 64 + i) else none)

/-- Two runs of bytes have a granule in common. -/
def meetGranules (pa len pb lenb : Nat) : Bool := decide (pa / 64 * 64 < pb + lenb) && decide (pb / 64 * 64 < pa + len)

/-- Two runs of bytes have a vault slice in common. -/
def meetSlices (pa len pb lenb : Nat) : Bool :=
  (granulesOf pa len).any (fun g => (granulesOf pb lenb).any (fun h => vaultSlice (64 * g) == vaultSlice (64 * h)))

/-- The hold is in force: 256 core cycles have not passed since its LR (R222). -/
def State.inForce (s : State) (h : LrHold) : Bool := decide (s.now < h.til)

/-- The hold covers some of these bytes. -/
def LrHold.over (h : LrHold) (pa len : Nat) : Bool := meetGranules (64 * h.granule) 64 pa len

/-- The lane has the hold of the granule, or the request is of the same LR instruction (R222). -/
def LrHold.passes (h : LrHold) (r : VaultReq) : Bool :=
  r.actor == Actor.lane h.gang h.lane || (r.kind == VaultKind.lr && r.batch == h.batch)

/-- What a hold makes wait: every write, one that has its place booked among them, and every LR (R222). -/
def VaultReq.holdable (r : VaultReq) : Bool := r.kind.writes || r.kind == VaultKind.lr || r.kind == VaultKind.booked

/-- The request waits for another lane's hold (R222). -/
def State.heldFrom (s : State) (r : VaultReq) : Bool :=
  r.holdable && s.holds.any (fun h => s.inForce h && h.over r.pa r.size && !h.passes r)

/-- The requests before request n in order of arrival. -/
def beforeReq (n : Nat) (l : List VaultReq) : List VaultReq := l.takeWhile (fun r => r.id != n)

/-- The hold that request r's own lane took as it entered a constrained loop makes w, another gang's, wait: r goes before it
(R222, R223). -/
def State.waitsFor (s : State) (w r : VaultReq) : Bool :=
  w.holdable && w.actor.gang? != r.actor.gang? &&
    s.holds.any (fun h => h.bare && s.inForce h && h.over w.pa w.size && !h.passes w && h.over r.pa r.size && h.passes r)

/-- A write to a slice of request r that its stamp covers is still to be applied (R204), and r does not go before it. -/
def State.writesFirst (s : State) (r : VaultReq) : Bool :=
  s.vreqs.any (fun w => w.kind.writes && w.id != r.id && meetSlices w.pa w.size r.pa r.size && w.coveredBy r.stamp &&
    !s.waitsFor w r)

/-- An earlier load of the gang is still to be answered (R199). -/
def State.loadsAhead (s : State) (r : VaultReq) : Bool :=
  r.kind.loads && (beforeReq r.id s.vreqs).any (fun w => w.kind.loads && w.actor.gang? == r.actor.gang?)

/-- An earlier request keeps a later one back: writes and LRs of a granule are performed in the order in which they
arrived (R196, R222), but for those that wait for a hold, for a covered write or for a load (log 58). -/
def State.keepsBack (s : State) (w r : VaultReq) : Bool :=
  w.holdable && r.holdable && meetGranules w.pa w.size r.pa r.size && !s.heldFrom w &&
    (w.kind == VaultKind.booked || !(s.writesFirst w || s.loadsAhead w))

/-- Request n can be performed now: every covered write to its slices is applied (R204), but for those that its lane's hold
makes wait; earlier requests of its granules and, for a load, earlier loads of its gang are done; and no other lane holds a
granule of it (R222). -/
def State.reqReady (s : State) (r : VaultReq) : Bool :=
  !s.writesFirst r && !(s.heldFrom r) && !((beforeReq r.id s.vreqs).any (fun w => s.keepsBack w r)) && !s.loadsAhead r

/-- The lane's reservation (R220). -/
def Gang.reserved (g : Gang) (lane : Nat) : Option Nat := Tbl.get none g.reserve lane
def Gang.setReserve (g : Gang) (lane : Nat) (v : Option Nat) : Gang :=
  { g with reserve := Tbl.set none g.reserve lane v }

/-- Every lane's reservation of a granule is lost, but for the actor's own (R220). -/
def State.breakReserve (s : State) (gr : Nat) (a : Actor) : State :=
  (listed s.gangs).foldl (fun acc e =>
    let hit := e.2.reserve.filter (fun r => r.2 == some gr && !(a == Actor.lane e.1 r.1))
    if hit.isEmpty then acc
    else acc.putGang e.1 (hit.foldl (fun g r => g.setReserve r.1 none) e.2)) s

/-- The holds of a lane end (R222). -/
def State.dropHold (s : State) (gang lane : Nat) : State :=
  { s with holds := s.holds.filter (fun h => !(h.gang == gang && h.lane == lane)) }
/-- The holds of a gang end: a trap, a save, its end. -/
def State.dropHolds (s : State) (gang : Nat) : State := { s with holds := s.holds.filter (fun h => h.gang != gang) }

/-- A trap or a save of the gang: its reservations are lost, its holds end, and an LR that has still to be answered sets
neither (R220, R222). -/
def State.loseReserves (s : State) (gang : Nat) : State :=
  { (s.modGang gang (fun g => { g with reserve := [] })).dropHolds gang with
    vreqs := s.vreqs.map (fun r =>
      if r.kind == VaultKind.lr && r.actor.gang? == some gang then { r with kind := .read } else r) }

/-- A stamp for a write of agent a (R204). -/
def State.stampWrite (s : State) (a : Nat) : List (BitVec 16) × State :=
  let c := clockTick (s.vcOf a) a
  (c, { s with vc := Tbl.set clock0 s.vc a c })

/-- A write to the vault put on its way (R204); after: what is sent once it is performed. -/
def State.pushWriteThen (s : State) (batch : Nat) (actor : Actor) (agent pa size : Nat) (k : VaultKind) (etype : BitVec 4)
    (dst : List RegElem) (after : List Out) : State :=
  let (st, s1) := s.stampWrite agent
  let (id, s2) := s1.fresh
  { s2 with vreqs := s2.vreqs ++ [⟨id, batch, actor, agent, pa, size, k, st, etype, dst, after, 0, 0⟩] }
def State.pushWrite (s : State) (batch : Nat) (actor : Actor) (agent pa size : Nat) (k : VaultKind) (etype : BitVec 4)
    (dst : List RegElem) : State := s.pushWriteThen batch actor agent pa size k etype dst []

/-- A read of the vault put on its way (R204). -/
def State.pushRead (s : State) (batch : Nat) (actor : Actor) (agent pa size : Nat) (k : VaultKind) (etype : BitVec 4)
    (dst : List RegElem) : State :=
  let (id, s2) := s.fresh
  { s2 with vreqs := s2.vreqs ++ [⟨id, batch, actor, agent, pa, size, k, s.vcOf agent, etype, dst, [], 0, 0⟩] }

/-- Some bytes put on their way as one store. -/
def State.pushStore (s : State) (actor : Actor) (agent pa : Nat) (bs : List Byte) (after : List Out) : State :=
  s.pushWriteThen 0 actor agent pa bs.length (.write (leNat bs)) 0 [] after

/-- An agent has as many writes unapplied as it may (R205). -/
def State.fullOf (s : State) (agent : Nat) : Bool := decide (32767 ≤ s.unapplied agent)

/-- A store of the IOD agent: stamped at once, or, while the agent may have no more unapplied, once it may (R205). -/
def State.iodStore (s : State) (pa : Nat) (bs : List Byte) (after : List Out) : State :=
  if s.iodq.isEmpty && !s.fullOf 4 then s.pushStore .iod 4 pa bs after
  else { s with iodq := s.iodq ++ [⟨pa, bs, after⟩] }

/-- The IOD agent's next waiting store is stamped, if it may be. -/
def State.iodNext (s : State) : State :=
  match s.iodq with
  | x :: rest => if s.fullOf 4 then s else { s with iodq := rest }.pushStore .iod 4 x.pa x.bytes x.after
  | [] => s

/-- Bytes of the IOD agent in aligned 8-byte units (R195); n bounds the units. -/
def State.iodBytes : Nat → State → Nat → List Byte → State
  | 0, s, _, _ => s
  | n + 1, s, pa, bs =>
    if bs.isEmpty then s
    else State.iodBytes n (s.iodStore pa (bs.take (8 - pa % 8)) []) (pa + (8 - pa % 8)) (bs.drop (8 - pa % 8))

/-- The whole of an 8-byte word lies in a run of bytes. -/
def wholeWord (w pa len : Nat) : Bool := decide (pa ≤ 8 * w) && decide (8 * w + 8 ≤ pa + len)

/-- The words of a run that hold an error, but for one that a write on its way replaces whole (R430). -/
def State.badIn (s : State) (pa len : Nat) : List Nat :=
  s.badWords.filter (fun w => decide (8 * w < pa + len) && decide (pa < 8 * w + 8) &&
    !(s.vreqs.any (fun r => match r.kind with
      | .write _ => wholeWord w r.pa r.size
      | _ => false)))

/-- The physical runs of a local buffer, or its first fault with the address, and whether that is an error which cannot be
corrected in a word that is read (R430). -/
def State.runs (s : State) (part va len : Nat) (need : Need) : Except (Byte × Nat × Bool) (List (Nat × Nat)) :=
  (s.run part va len need).foldl (fun acc r => match acc, r.2.2 with
    | .error e, _ => .error e
    | .ok rs, .ok pa => match if need.rd then s.badIn pa r.2.1 else [] with
      | [] => .ok (rs ++ [(pa, r.2.1)])
      | w :: _ => .error (Cause.permission, max r.1 (r.1 + 8 * w - pa), true)
    | .ok _, .error e => .error (e, r.1, false)) (.ok [])

/-- Bytes of physical runs. -/
def State.readRuns (s : State) (rs : List (Nat × Nat)) : List Byte := rs.flatMap (fun r => Memory.readBytes s.vault r.1 r.2)

/-- An access finds an error: it reads a word that holds one, or writes a part of it (R430). -/
def State.spoiled (s : State) (pa len : Nat) (need : Need) : Bool :=
  (s.badIn pa len).any (fun w => need.rd || !wholeWord w pa len)

/-- A write applied at its slices: memory, applied vectors, reservations (R204, R220); a word that it replaces whole is good
again (R430). -/
def State.applyAt (s : State) (actor : Actor) (pa size : Nat) (v : Nat) (stamp : List (BitVec 16)) : State :=
  (granulesOf pa size).foldl (fun acc g =>
    ({ acc with av := Tbl.set clock0 acc.av (vaultSlice (64 * g)) (clockMax (acc.avOf (vaultSlice (64 * g))) stamp) } : State).breakReserve
      g actor)
    { s with vault := Memory.writeNat s.vault pa size v, badWords := s.badWords.filter (fun w => !wholeWord w pa size) }

/-- A write that updates nothing still takes its place in the applied vector. -/
def State.touchAt (s : State) (pa : Nat) (stamp : List (BitVec 16)) : State :=
  { s with av := Tbl.set clock0 s.av (vaultSlice pa) (clockMax (s.avOf (vaultSlice pa)) stamp) }

/-- A whole write by an agent performed at once. -/
def State.writeAtOnce (s : State) (actor : Actor) (agent pa : Nat) (bs : List Byte) : State :=
  let (st, s1) := s.stampWrite agent
  s1.applyAt actor pa bs.length (leNat bs) st

/-! ### Writes that a step makes at once -/

/-- No lane holds a granule of these bytes (R222). -/
def State.notHeld (s : State) (pa len : Nat) : Bool :=
  !(s.holds.any (fun h => s.inForce h && h.over pa len))

/-- The place that a write of these bytes by an agent has booked. -/
def State.bookedAt (s : State) (agent pa len : Nat) : Option VaultReq :=
  s.vreqs.find? (fun r => r.kind == VaultKind.booked && r.agent == agent && r.pa == pa && r.size == len)

/-- The requests that arrived before a write of these bytes: before its booked place, or all (R222). -/
def State.aheadOf (s : State) (agent pa len : Nat) : List VaultReq := match s.bookedAt agent pa len with
  | some r => beforeReq r.id s.vreqs
  | none => s.vreqs

/-- No lane holds a granule of these bytes, and no request that arrived earlier waits for one (R222). -/
def State.granulesFree (s : State) (agent pa len : Nat) : Bool :=
  s.notHeld pa len && !((s.aheadOf agent pa len).any (fun w => w.holdable && meetGranules w.pa w.size pa len))

/-- Request w arrived behind one of these writes, on a granule of it: it goes after it. -/
def State.behind (s : State) (agent : Nat) (runs : List (Nat × Nat)) (w : VaultReq) : Bool :=
  runs.any (fun r => meetGranules w.pa w.size r.1 r.2 && !(s.aheadOf agent r.1 r.2).any (fun x => x.id == w.id))

/-- An agent may stamp and apply writes of these bytes at once: their granules are free, and every write to their slices that
the stamp would cover is applied (R204). release: every write whatever that its clock covers. -/
def State.runsReady (s : State) (agent : Nat) (runs : List (Nat × Nat)) (release : Bool) : Bool :=
  runs.all (fun r => s.granulesFree agent r.1 r.2) &&
  !(s.vreqs.any (fun w => w.kind.writes && w.coveredBy (s.vcOf agent) && !s.behind agent runs w &&
    (release || runs.any (fun r => meetSlices w.pa w.size r.1 r.2))))

/-- The same for one run. -/
def State.writeReady (s : State) (agent pa len : Nat) : Bool := s.runsReady agent [(pa, len)] false

/-- A place in order of arrival booked for a write that waits (R222). -/
def State.bookRun (s : State) (actor : Actor) (agent : Nat) (r : Nat × Nat) : State :=
  if (s.bookedAt agent r.1 r.2).isSome then s
  else
    let (id, s1) := s.fresh
    { s1 with vreqs := s1.vreqs ++ [⟨id, 0, actor, agent, r.1, r.2, .booked, clock0, 0, [], [], 0, 0⟩] }

/-- The places booked for these writes are given up. -/
def State.unbook (s : State) (agent : Nat) (runs : List (Nat × Nat)) : State :=
  { s with vreqs := s.vreqs.filter (fun w => !(w.kind == VaultKind.booked && w.agent == agent && runs.contains (w.pa, w.size))) }

/-- A booked place is given up when a cycle ends in which nothing holds its granules any more: the write has not been made. -/
def State.settleBooked (s : State) : State :=
  { s with vreqs := s.vreqs.filter (fun w => !(w.kind == VaultKind.booked && s.granulesFree w.agent w.pa w.size)) }

/-- A step that is to make these writes waits: it has its places in order of arrival from the first time that a granule is held
(R222). -/
def State.bookRuns (s : State) (actor : Actor) (agent : Nat) (runs : List (Nat × Nat)) : State :=
  if runs.all (fun r => s.granulesFree agent r.1 r.2) then s
  else runs.foldl (fun acc r => acc.bookRun actor agent r) s

/-- A step that makes these writes at once: its effect, if they can be made; else it waits (R204, R222). -/
def State.writing (s : State) (actor : Actor) (agent : Nat) (runs : List (Nat × Nat)) (release : Bool)
    (effect : State → State) : State :=
  if s.runsReady agent runs release then effect (s.unbook agent runs) else s.bookRuns actor agent runs

/-- An agent that has read these bytes merges what their slices have applied (R204). -/
def State.mergeRuns (s : State) (agent : Nat) (runs : List (Nat × Nat)) : State :=
  { s with vc := Tbl.set clock0 s.vc agent ((runs.flatMap (fun r => granulesOf r.1 r.2)).foldl (fun x g =>
      clockMax x (s.avOf (vaultSlice (64 * g)))) (s.vcOf agent)) }

/-- The reply is merged into the agent's clock, and into the later loads of the gang that still wait (R204). -/
def State.merge (s : State) (r : VaultReq) : State :=
  let a := s.avOf (vaultSlice r.pa)
  { s with
    vc := Tbl.set clock0 s.vc r.agent (clockMax (s.vcOf r.agent) a)
    vreqs := s.vreqs.map (fun w =>
      if w.kind.loads && !w.kind.writes && w.actor.gang? == r.actor.gang? then { w with stamp := clockMax w.stamp a } else w) }

/-- A loaded value as the destination elements hold it (R95): low word, and high word of a pair. -/
def elemWords (t v : Nat) (dst : List RegElem) : List (RegElem × Word) :=
  let x := elemOut t v
  match dst with
  | [a] => [(a, BitVec.ofNat 32 x)]
  | [a, b] => [(a, BitVec.ofNat 32 x), (b, BitVec.ofNat 32 (x / 2 ^ 32))]
  | _ => []

/-- The result of request r reaches its lane: the elements are written and are no longer awaited (R75). -/
def State.answer (s : State) (r : VaultReq) (ws : List (RegElem × Word)) : State :=
  match r.actor.gang? with
  | none => s
  | some id => s.modGang id (fun g =>
      Gang.writeNow { g with awaits := g.awaits.filter (fun a => a.kind != AwaitKind.vault r.id) } ws)

/-- Request r leaves the list of requests. -/
def State.dropVreq (s : State) (r : VaultReq) : State := { s with vreqs := s.vreqs.filter (fun w => w.id != r.id) }

/-- A write, an atomic or an SC performed at its slice (R204, R221, R263). -/
def State.performWrite (s : State) (r : VaultReq) : State :=
  let old := Memory.readNat s.vault r.pa r.size
  let s0 := s.dropVreq r
  match r.kind with
  | .write v => { s0.applyAt r.actor r.pa r.size v r.stamp with out := s0.out ++ r.after }.iodNext
  | .atom op et sat x new =>
    let s1 := match atomNew op et.toNat sat old x.toNat new.toNat with
      | some v => s0.applyAt r.actor r.pa r.size v r.stamp
      | none => s0.touchAt r.pa r.stamp
    (s1.answer r (elemWords r.etype.toNat old r.dst)).merge r
  | .sc v =>
    match r.actor with
    | .lane gid l =>
      let holds := match s0.gang? gid with
        | some g => g.reserved l == some (granuleOf r.pa)
        | none => false
      let s1 := if holds then s0.applyAt r.actor r.pa r.size v.toNat r.stamp else s0.touchAt r.pa r.stamp
      let s2 := (s1.modGang gid (fun g => g.setReserve l none)).dropHold gid l
      (s2.answer r (elemWords 5 (if holds then 0 else 1) r.dst)).merge r
    | _ => s0
  | _ => s

/-- A read or an LR answered (R204, R220, R222). -/
def State.performRead (s : State) (r : VaultReq) : State :=
  let v := Memory.readNat s.vault r.pa r.size
  let s0 := s.dropVreq r
  let s1 := match r.kind, r.actor with
    | .lr, .lane gid l =>
      let s1 := (s0.dropHold gid l).modGang gid (fun g => g.setReserve l (some (granuleOf r.pa)))
      if s1.holds.any (fun h => s.inForce h && h.granule == granuleOf r.pa) then s1
      else { s1 with holds := s1.holds ++ [LrHold.mk r.id r.batch gid l (granuleOf r.pa) (s.now + 256) true] }
    | _, _ => s0
  (s1.answer r (elemWords r.etype.toNat v r.dst)).merge r

end Sys2Proof.Machine
end

