-- ==== Sys2Proof/Machine/Cairn.lean ====
section
/-! DEFINITION. The Cairn: the rule words of a walk and its pointer checks (R248-R254), as functions of a walk and of a
module's windows and memory (R398). -/

namespace Sys2Proof.Machine

/-- First offset that no request can reach (R245, Table 8.2). -/
def moduleTop : Nat := 0x6000000000

/-- The window grants run o to o + len − 1 to a partition of a package (R398), whatever else it says. -/
def winCovers (w : Window) (pkg part o len : Nat) : Bool :=
  w.pkg == pkg && w.part == part && decide (w.obase * 65536 ≤ o) && decide (o + len ≤ (w.obase + w.len) * 65536)

/-- The window accepts an access (R398). -/
def winAccepts (w : Window) (need : Need) (mseq : BitVec 16) : Bool :=
  (!need.rd || w.rd) && (!need.wr || w.wr) && !w.flushReq && atLeast mseq w.minSeq

/-- The window that covers a pointer (R398). DESIGN CHOICE (log 75): of several, the first in the order of the table. -/
def Module.windowAt (m : Module) (pkg part p : Nat) : Option Window :=
  m.windows.find? (fun w => w.pkg == pkg && w.part == part && decide (w.vbase * 65536 ≤ p) &&
    decide (p < (w.vbase + w.len) * 65536))

/-- A run at a virtual address: its module offset, or FDET (R252). aligned: pointers and 8-byte reads. -/
def Module.translate (m : Module) (pkg part : Nat) (mseq : BitVec 16) (aligned : Bool) (p len : Nat) : Except Nat Nat :=
  if 2 ^ 56 ≤ p ∨ (aligned ∧ p % 8 ≠ 0) then .error 1
  else match m.windowAt pkg part p with
    | none => .error 2
    | some w =>
      if (w.vbase + w.len) * 65536 < p + len then .error 2
      else
        let o := w.obase * 65536 + p - w.vbase * 65536
        if winAccepts w Need.load mseq && decide (o + len ≤ moduleTop) then .ok o else .error 3

/-- Status codes (Table 8.10). -/
def Walk.hit : Nat := 1
def Walk.miss : Nat := 2
def Walk.limitCode : Nat := 3
def Walk.fault : Nat := 4
def Walk.ruleEnd : Nat := 5
def Walk.noProg : Nat := 6

/-- The walk ends: its 272 bytes (R253). -/
def Walk.finish (k : Walk) (code fdet rule lastp : Nat) : Walk :=
  let rec_ := if code = Walk.hit then k.staged else []
  let body := rec_ ++ List.replicate (256 - rec_.length) 0
  let st := leBytes 1 code ++ leBytes 1 fdet ++ leBytes 2 k.steps ++ leBytes 2 rec_.length ++ leBytes 1 rule ++
    leBytes 1 k.retries ++ leBytes 8 lastp
  { k with result := some (body ++ st), wait := none }

/-- The walk meets a failing pointer (R252). -/
def Walk.fails (k : Walk) (fdet addr : Nat) : Walk :=
  k.finish (if k.pol = 1 then Walk.miss else Walk.fault) fdet k.rule addr

/-- w[i], and w[i] written. -/
def Walk.reg (k : Walk) (i : Nat) : Nat := (Tbl.get 0 k.w i).toNat
def Walk.putReg (k : Walk) (i v : Nat) : Walk := { k with w := Tbl.set 0 k.w i (BitVec.ofNat 64 v) }

/-- The walk goes on at rule r. -/
def Walk.goto (k : Walk) (r : Nat) : Walk := { k with rule := r }
def Walk.nextRule (k : Walk) : Walk := k.goto (k.rule + 1)

/-- The walk at its first rule (R248). -/
def Walk.restart (k : Walk) : Walk :=
  { k with p := k.start, w := Tbl.set 0 [] 0 (BitVec.ofNat 64 k.start), staged := [], rule := 0 }

/-- One step counted, or the end at the limit (R251). -/
def Walk.step (k : Walk) (f : Walk → Walk) : Walk :=
  if k.limit < k.steps + 1 then k.finish Walk.limitCode 0 k.rule k.p
  else f { k with steps := k.steps + 1, run := 0 }

/-- A retry (R251). -/
def Walk.retry (k : Walk) : Walk := k.step (fun k => { k.restart with retries := min (k.retries + 1) 255 })

/-- P takes a value and is checked (R251, R252). -/
def Walk.move (m : Module) (pkg part : Nat) (k : Walk) (p : Nat) : Walk :=
  let k1 := { k with p := p }
  match m.translate pkg part k.mseq true p 1 with
  | .ok _ => k1.nextRule
  | .error e => k1.fails e p

/-- The sign-extension of w bits to 64. -/
def sext64 (w x : Nat) : Nat := (asInt true w x % 2 ^ 64).toNat

/-- The second operand of an I-form (R249). -/
def Walk.second (k : Walk) (op x : Nat) : Nat :=
  if bit x 21 then
    match op with
    | 8 => sext64 16 (bits x 15 0)
    | 9 => bits x 15 0
    | _ => bits x 5 0
  else k.reg (bits x 20 18)

/-- The read that a rule word asks for: length, and whether it must be aligned; none if it reads nothing. -/
def ruleRead (x : Nat) : Option (Nat × Bool) :=
  match bits x 31 28 with
  | 0 => some (8, true)
  | 1 => some (bits x 24 20 + 1, false)
  | 11 => some (8, true)
  | 13 => if bits x 24 16 = 0 then none else some (bits x 24 16, false)
  | _ => none

/-- A rule word that reads nothing (Table 8.9). -/
def Walk.plain (m : Module) (pkg part : Nat) (k : Walk) (x : Nat) : Walk :=
  let ra := bits x 27 25
  let rb := bits x 24 22
  let op := bits x 31 28
  match op with
  | 2 | 3 | 4 =>
    let y := if bit x 21 then sext64 15 (bits x 20 6) else k.reg rb
    let take := match op with
      | 2 => k.reg ra == y
      | 3 => k.reg ra != y
      | _ => decide (asInt true 64 (k.reg ra) < asInt true 64 y)
    if take then k.goto (bits x 5 0) else k.nextRule
  | 5 => k.step (fun k => Walk.move m pkg part k (k.reg ra))
  | 6 => k.step (fun k => Walk.move m pkg part k
      ((k.reg rb + k.reg ra % 2 ^ bits x 21 16 * 2 ^ bits x 15 12) % 2 ^ 64))
  | 7 => (k.putReg ra (k.key.foldl (fun h b => (h ^^^ b.toNat) * 0x100000001B3 % 2 ^ 64) (k.reg rb))).nextRule
  | 8 => (k.putReg ra (k.reg rb + k.second 8 x)).nextRule
  | 9 => (k.putReg ra (k.reg rb &&& k.second 9 x)).nextRule
  | 10 => (k.putReg ra (k.reg rb / 2 ^ (k.second 10 x % 64))).nextRule
  | 12 => k.retry
  | 13 => if bit x 27 then k.finish Walk.hit 0 k.rule k.p else k.nextRule
  | _ => k.finish Walk.miss 0 k.rule k.p

/-- The walk runs to its next read or its end (R248, R251); n bounds the words. -/
def Walk.runGo (m : Module) (pkg part : Nat) : Nat → Walk → Walk
  | 0, k => k
  | n + 1, k =>
    match k.words[k.rule]? with
    | none => k.finish Walk.ruleEnd 0 k.words.length k.p
    | some w =>
      if k.run = 64 then k.finish Walk.limitCode 0 k.rule k.p
      else
        let k1 := { k with run := k.run + 1 }
        match ruleRead w.toNat with
        | some (len, al) =>
          let a := (k1.p + bits w.toNat 15 0) % 2 ^ 64
          match m.translate pkg part k1.mseq al a len with
          | .ok o => { k1 with wait := some (o, len) }
          | .error e => k1.fails e a
        | none =>
          let k2 := Walk.plain m pkg part k1 w.toNat
          if k2.result.isSome then k2 else Walk.runGo m pkg part n k2

/-- The most words that a walk can run without a read: 64 between two of at most 65,535 steps. -/
def walkFuel (k : Walk) : Nat := 64 * (k.limit + 2)

def Walk.run_ (m : Module) (pkg part : Nat) (k : Walk) : Walk := Walk.runGo m pkg part (walkFuel k) k

/-- The walk starts at the module, with the program as it stands (R246, R248). -/
def Walk.begin_ (m : Module) (pkg part : Nat) (k : Walk) : Walk :=
  let k1 := { k.restart with words := Tbl.get [] m.programs (16 * part + k.prog), started := true, steps := 0,
                             retries := 0, run := 0 }
  match m.translate pkg part k.mseq true k.start 1 with
  | .error e => k1.fails e k.start
  | .ok _ => if k1.words.isEmpty then k1.finish Walk.noProg 0 0 k1.p else Walk.run_ m pkg part k1

/-- The words of a rule whose read has returned bytes (Table 8.9). -/
def Walk.gotBytes (k : Walk) (x : Nat) (bs : List Byte) : Walk :=
  let v := leNat bs
  let ra := bits x 27 25
  match bits x 31 28 with
  | 0 => (k.putReg ra v).nextRule
  | 1 =>
    let y := leNat (k.key.take bs.length)
    (k.putReg ra (if y = v then 0 else if v < y then 1 else 2 ^ 64 - 1)).nextRule
  | 11 => if v ≠ k.reg ra ∨ v % 2 = 1 then k.retry else k.nextRule
  | _ =>
    let k1 := { k with staged := bs }
    if bit x 27 then k1.finish Walk.hit 0 k1.rule k1.p else k1.nextRule

/-- The read under way returns, or meets a DRAM error, and the walk runs on (R249, R252). -/
def Walk.returned (m : Module) (pkg part : Nat) (k : Walk) (dramError : Bool) : Walk :=
  match k.wait, k.words[k.rule]? with
  | some (o, len), some w =>
    if dramError then k.fails 4 ((k.p + bits w.toNat 15 0) % 2 ^ 64)
    else
      let k1 := { k with wait := none, reads := k.reads + len }
      let k2 := k1.gotBytes w.toNat (Memory.readBytes m.mem o len)
      if k2.result.isSome then k2 else Walk.run_ m pkg part k2
  | _, _ => k

end Sys2Proof.Machine
end

