-- ==== Sys2Proof/Machine/Modules.lean ====
section
/-! DEFINITION. Requests at the Enaris modules: the channels that reach a module (R16, R431), what the module refuses and
performs (R19, R226, R238, R244, R245, R398), and where a request stands when its engine is stopped (R420). -/

namespace Sys2Proof.Machine

/-! ### The memory fabric -/

/-- The output port of the memory fabric that a channel reaches: pair f is input port f mod 16 of group f / 16 (R16,
log 60). -/
def memPort (c : Nat) : Nat := 16 * (c / 256) + (c / 16 + c % 16) % 16

/-- The module to which an output port is wired (R16, log 60). -/
def State.wired (s : State) (port : Nat) : Nat := Tbl.get port s.wiring port

/-- A memory-fabric channel carries requests of a module: it is ACTIVE, its link is up, and it reaches a port of the module
(R16, R431). -/
def State.reachesModule (s : State) (m : Nat) : Bool :=
  s.chans.any (fun e => e.2.state == .active && !(s.pair (pairOfChan e.1)).fab && (s.link (128 + e.1)).carries &&
    s.wired (memPort e.1) == m)

/-! ### Runs -/

/-- The engines of the request's partition stand still under its halt line (R420). -/
def State.reqHalted (s : State) (r : FarReq) : Bool := (s.part (s.teamPart r.team)).halted

/-- Places of failures in the order of R226: those of the package come first, its far pages before the local side; then
those of a module, on the side that is written or alone, and on the side that FCOPY and FRED read. -/
def localKey (o : Nat) : Nat := 1 + o
def moduleKey (o : Nat) : Nat := 2 ^ 60 + o
def sourceKey (o : Nat) : Nat := 2 ^ 61 + o

/-- The tag of a request whose team's tags were freed before its end (R423): none of t0-t63. -/
def noTag : Nat := 64

/-- The far runs of the request that lie on a module. -/
def FarReq.on (r : FarReq) (m : Nat) : List Piece := r.pieces.filter (fun p => p.modid == m)
def FarReq.srcOn (r : FarReq) (m : Nat) : List Piece := r.srcPieces.filter (fun p => p.modid == m)

/-- The modules of a request. -/
def FarReq.modules (r : FarReq) : List Nat := ((r.pieces ++ r.srcPieces).map (fun p => p.modid)).dedup

/-- Every module has performed the request. -/
def FarReq.allArrived (r : FarReq) : Bool := r.modules.all (fun m => r.arrived.contains m)

/-- The request is still at work at module m: not yet there, or its walk still runs. -/
def FarReq.busyAt (r : FarReq) (m : Nat) : Bool :=
  r.sent && r.modules.contains m && (!r.arrived.contains m || match r.walk with
    | some k => k.result.isNone
    | none => false)

/-- Requests of one gang reach one module in program order (R238). -/
def State.firstAt (s : State) (id : Nat) (r : FarReq) (m : Nat) : Bool :=
  !(s.reqs.any (fun e => match e.2 with
    | some q => decide (e.1 < id) && q.gang == r.gang && q.busyAt m
    | none => false))

/-- The range that a request names within one page: its first module offset, and its length (R225). -/
def pageRange (page : Nat) (ps : List Piece) : Nat × Nat :=
  let mine := ps.filter (fun p => p.page == page)
  let lo := mine.foldl (fun a p => min a p.offset) (2 ^ 64)
  (lo, mine.foldl (fun a p => max a (p.offset + p.len)) 0 - lo)

/-- The module accepts a page of a request: one window covers the whole range named in it (R225, R226, R398). -/
def Module.acceptsPage (m : Module) (pkg part : Nat) (need : Need) (ps : List Piece) (p : Piece) : Bool :=
  let (lo, len) := pageRange p.page ps
  decide (lo + len ≤ moduleTop) && m.windows.any (fun w => winCovers w pkg part lo len && winAccepts w need p.mseq)

/-- The pages that the module refuses (Table 8.2). -/
def Module.refusedPages (m : Module) (pkg part : Nat) (need : Need) (ps : List Piece) : List Nat :=
  ((ps.filter (fun p => !m.acceptsPage pkg part need ps p)).map (fun p => p.page)).dedup

/-- A refused page that a window with FLUSHREQ covers (R399). -/
def Module.flushRefused (m : Module) (pkg part : Nat) (need : Need) (ps : List Piece) : Bool :=
  (m.refusedPages pkg part need ps).any (fun g => m.windows.any (fun w =>
    winCovers w pkg part (pageRange g ps).1 (pageRange g ps).2 && w.flushReq))

/-- The failures of refused pages: each at the request's first byte in the page; key: place of the side in the order. -/
def refusals (key : Nat → Nat) (refused : List Nat) (ps : List Piece) : List (Nat × FarFail) :=
  refused.filterMap (fun g => (ps.find? (fun p => p.page == g)).map (fun p =>
    (key p.local_, ⟨Cause.permission, p.far, false, 0⟩)))

/-- Bytes as entries of a table from an offset. -/
def bytesFrom (off : Nat) (bs : List Byte) : Tbl (Option Byte) := (bs.zipIdx).map (fun x => (off + x.2, some x.1))

/-- Entries put into a table. -/
def putBytes (t xs : Tbl (Option Byte)) : Tbl (Option Byte) := xs.foldl (fun t x => Tbl.set none t x.1 x.2) t

/-- The bytes of accepted runs, by local offset. -/
def Module.readPieces (m : Module) (ps : List Piece) : Tbl (Option Byte) :=
  ps.foldl (fun acc p => putBytes acc (bytesFrom p.local_ (Memory.readBytes m.mem p.offset p.len))) []

/-- Local offsets at which a run reads a byte with an uncorrectable DRAM error, with their far addresses. -/
def badBytes (bad : List Nat) (ps : List Piece) : List (Nat × Nat) :=
  ps.flatMap (fun p => (bad.filter (fun o => decide (p.offset ≤ o) && decide (o < p.offset + p.len))).map (fun o =>
    (p.local_ + (o - p.offset), p.far + (o - p.offset))))

/-- ECC failures at some bytes: the 512-byte chunks concerned, counted from base, are not read (Table 8.2). -/
def eccFails (key : Nat → Nat) (bs : List (Nat × Nat)) : List (Nat × FarFail) :=
  bs.map (fun b => (key b.1, ⟨Cause.permission, b.2, true, 0⟩))
def dropChunks (base : Nat) (bs : List (Nat × Nat)) (t : Tbl (Option Byte)) : Tbl (Option Byte) :=
  t.filter (fun x => !(bs.any (fun b => (base + b.1) / 512 == (base + x.1) / 512)))

/-- Bytes written into runs of a module where the source holds one, in increasing local offset (R231). -/
def Module.writePieces (m : Module) (src : Tbl (Option Byte)) (ps : List Piece) : Module :=
  { m with mem := ps.foldl (fun mem p => (List.range p.len).foldl (fun mem i =>
      match Tbl.get none src (p.local_ + i) with
      | some b => Memory.writeByte mem (p.offset + i) b
      | none => mem) mem) m.mem }

/-- x + y of FRED (R244): 0 BF16, 1 FP32, 2 S32. -/
def redAdd (fmt x y : Nat) : Nat :=
  match fmt with
  | 0 => (Fmt.bf16.add RndEnv.rne x y).1
  | 1 => (Fmt.f32.add RndEnv.rne x y).1
  | _ => (x + y) % 2 ^ 32

/-- FRED over accepted runs: elements whose source bytes were all read (R244). -/
def Module.redPieces (m : Module) (fmt : Nat) (src : Tbl (Option Byte)) (ps : List Piece) : Module :=
  let n := if fmt = 0 then 2 else 4
  { m with mem := ps.foldl (fun mem p => (List.range (p.len / n)).foldl (fun mem i =>
      let ys := (List.range n).map (fun j => Tbl.get none src (p.local_ + n * i + j))
      if ys.all Option.isSome then
        let y := leNat (ys.map (fun b => b.getD 0))
        let a := p.offset + n * i
        Memory.writeNat mem a n (redAdd fmt (Memory.readNat mem a n) y)
      else mem) mem) m.mem }

/-- The pattern of FFILL by local offset (R244). -/
def fillBytes (pat : DWord) (len : Nat) : Tbl (Option Byte) :=
  (List.range len).map (fun i => (i, some (pat.extractLsb' (8 * (i % 8)) 8)))

/-! ### Performing -/

/-- What the module's runs ask for (R398): read, write, or both. -/
def FarKind.need : FarKind → Need
  | .put _ | .copy _ _ _ | .fill _ _ _ | .rule _ _ _ => Need.store
  | .red _ _ _ _ => Need.atomic
  | _ => Need.load

/-- Place of a request's local bytes among 512-byte chunks. -/
def FarKind.chunkBase : FarKind → Nat
  | .get b => b.laddr
  | _ => 0

/-- A request to far memory, not a fabric request under a tag. -/
def FarKind.isFar : FarKind → Bool
  | .coll _ | .qsend _ _ => false
  | _ => true

/-- The request works in a unit that self-refresh holds back (R245). -/
def FarKind.paused : FarKind → Bool
  | .copy _ _ _ | .red _ _ _ _ | .fill _ _ _ => true
  | _ => false

/-- What a module makes of a request: its failures, the runs it works on, and the bytes that it has read or been sent. -/
structure ModuleWork where
  fails : List (Nat × FarFail)
  ok : List Piece
  src : Tbl (Option Byte)

/-- The module's checks of a request, and its reads: every byte of a copy's source before any destination byte is written (R226,
R244). DESIGN CHOICE (log 75): the same for a reduction whose source and destination overlap. bad: module offsets whose bytes cannot
be read. -/
def FarReq.work (r : FarReq) (pkg part id_ : Nat) (m : Module) (bad : List Nat) : ModuleWork :=
  let ps := r.on id_
  let refused := match r.kind with
    | .walk => []
    | _ => m.refusedPages pkg part r.kind.need ps
  let ok := ps.filter (fun p => !refused.contains p.page)
  let srcRefused := m.refusedPages pkg part Need.load (r.srcOn id_)
  let srcOk := (r.srcOn id_).filter (fun p => !srcRefused.contains p.page)
  let fails := refusals moduleKey refused ps ++ refusals sourceKey srcRefused (r.srcOn id_)
  let bb := badBytes bad srcOk
  let db := badBytes bad ok
  match r.kind with
  | .get _ | .mcast _ _ _ _ _ => ⟨fails ++ eccFails moduleKey db, ok, dropChunks r.kind.chunkBase db (m.readPieces ok)⟩
  | .copy _ _ _ => ⟨fails ++ eccFails sourceKey bb, ok, dropChunks 0 bb (m.readPieces srcOk)⟩
  | .red _ _ _ _ =>
    ⟨fails ++ eccFails moduleKey db ++ eccFails sourceKey bb, ok, dropChunks 0 (bb ++ db) (m.readPieces srcOk)⟩
  | .fill _ len pat => ⟨fails, ok, fillBytes pat len⟩
  | _ => ⟨fails, ok, r.src⟩

/-- The writes of a request into runs of a module. -/
def FarKind.writeTo (k : FarKind) (m : Module) (src : Tbl (Option Byte)) (ps : List Piece) : Module := match k with
  | .red fmt _ _ _ => m.redPieces fmt src ps
  | .put _ | .copy _ _ _ | .fill _ _ _ => m.writePieces src ps
  | _ => m

/-- The work of a request at a module: that which a stop has left, else all of it (R420). -/
def FarReq.workLeft (r : FarReq) (pkg part id_ : Nat) (m : Module) (bad : List Nat) : ModuleWork :=
  match r.left.find? (fun x => x.1 == id_), r.kind with
  | some x, .fill _ len pat => ⟨[], x.2, fillBytes pat len⟩
  | some x, _ => ⟨[], x.2, r.src⟩
  | none, _ => r.work pkg part id_ m bad

/-- A request performed at module m (R226, R244, R246, R248). -/
def FarReq.perform (r : FarReq) (pkg part id_ : Nat) (m : Module) (bad : List Nat) : FarReq × Module :=
  let w := r.workLeft pkg part id_ m bad
  let r1 := { r with arrived := r.arrived ++ [id_], fails := r.fails ++ w.fails, left := r.left.filter (fun x => x.1 != id_) }
  match r.kind with
  | .get _ | .mcast _ _ _ _ _ => ({ r1 with src := putBytes r.src w.src }, m)
  | .rule prog words _ =>
    (r1, if w.ok.isEmpty then m else { m with programs := Tbl.set [] m.programs (16 * part + prog) words })
  | .walk => ({ r1 with walk := r.walk.map (Walk.begin_ m pkg part) }, m)
  | k => (r1, k.writeTo m w.src w.ok)

/-! ### Stops (R245, R420) -/

/-- Runs cut after n bytes. -/
def splitPieces : Nat → List Piece → List Piece × List Piece
  | _, [] => ([], [])
  | n, p :: ps =>
    if p.len ≤ n then
      let (a, b) := splitPieces (n - p.len) ps
      (p :: a, b)
    else if n = 0 then ([], p :: ps)
    else ([{ p with len := n }],
      { p with local_ := p.local_ + n, far := p.far + n, offset := p.offset + n, len := p.len - n } :: ps)

/-- An engine of module m may be at work on the request: it has been sent and not performed there, and none of its gang's
comes before it. -/
def State.atWork (s : State) (id : Nat) (r : FarReq) (m : Nat) : Bool :=
  r.sent && !r.held && r.modules.contains m && !r.arrived.contains m && r.walk.isNone && s.firstAt id r m &&
  s.reachesModule m && !((s.module m).refresh && r.kind.paused)

/-- The request stands at module m after a free number of whole 8-byte units, or has not begun there. Answers the units
performed and the module offset reached, if it has begun. A read that is stopped is made again. -/
def State.stopAt (s : State) (id m : Nat) : State × Option (Nat × Nat) :=
  match s.req? id with
  | none => (s, none)
  | some r =>
    let w := r.workLeft s.pkg (s.teamPart r.team) m (s.module m) []
    let free := Config.freeUnits s.free
    let s1 := { s with free := s.free + 1 }
    if free = 0 then (s1, none)
    else
      let n := 8 * (free % ((w.ok.map (fun p => p.len)).sum / 8 + 1))
      let (done, rest) := splitPieces n w.ok
      let reached := match rest, done.getLast? with
        | p :: _, _ => p.offset
        | [], some p => p.offset + p.len
        | [], none => 0
      let keep := match r.kind with
        | .get _ | .mcast _ _ _ _ _ | .rule _ _ _ => false
        | _ => true
      if keep then
        let r1 := { r with
          fails := r.fails ++ w.fails
          src := match r.kind with
            | .copy _ _ _ | .red _ _ _ _ => w.src
            | _ => r.src
          left := r.left.filter (fun x => x.1 != m) ++ [(m, rest)] }
        ((s1.putReq id r1).putModule m (r.kind.writeTo (s.module m) w.src done), some (n, reached))
      else (s1, some (n, reached))

end Sys2Proof.Machine
end

