-- ==== Sys2Proof/Machine/Halt.lean ====
section
/-! DEFINITION. Ends and stops of gangs and teams (R31, R161, R228, R301), the halt line and its stop records
(R420-R422). -/

namespace Sys2Proof.Machine

/-! ### Who is where -/

/-- The cores of a partition (R386). -/
def Partition.coreList (p : Partition) : List Nat := (List.range 160).filter (fun n => p.clusters.getLsbD (clusterOf n))

/-- The partition of a core: the one that owns its cluster; 16 if none does. -/
def State.partOfCore (s : State) (core : Nat) : Nat :=
  ((List.range 16).find? (fun n => (s.part n).clusters.getLsbD (clusterOf core))).getD 16

/-- The team is running: neither saved, ended nor stopped. -/
def State.teamRuns (s : State) (team : Nat) : Bool := match s.team? team with
  | some t => t.status == .running
  | none => false

/-- The gang is resident and has not ended (R50). -/
def State.resident (s : State) (g : Gang) : Bool := s.teamRuns g.team && !g.ended

/-- The gang holds its gang slot: until it is released (R31), and not while its team is saved (R424). -/
def State.holdsSlot (s : State) (g : Gang) : Bool := match s.team? g.team with
  | some t => t.status != .saved
  | none => true

/-- The engine of a core is frozen: the halt line, or a save of a team on the core (R188). -/
def State.frozen (s : State) (core : Nat) : Bool :=
  (s.part (s.partOfCore core)).halted ||
    (listed s.teams).any (fun e => e.2.saving && e.2.cores.any (fun c => c.core == core))

/-! ### Ends -/

/-- Everything that the dies have written or seen is released to the IOD agent (R295, R300). -/
def State.releaseToIod (s : State) : State :=
  { s with vc := Tbl.set clock0 s.vc 4 ((List.range 4).foldl (fun x a => clockMax x (s.vcOf a)) (s.vcOf 4)) }

/-- An agent acquires what the IOD agent has been released (R300). -/
def State.acquireFromIod (s : State) (a : Nat) : State :=
  { s with vc := Tbl.set clock0 s.vc a (clockMax (s.vcOf a) (s.vcOf 4)) }

/-- The team leaves its launch's counter, with the teams it withdrew; counted: they ended without being stopped; stopped:
they were stopped (R295, R300, R301, R303). -/
def State.teamGone (s : State) (t : Team) (counted stopped : Bool) : State :=
  s.releaseToIod.modLaunch t.launch (fun l =>
    { l with
      gone := l.gone + 1 + t.withdrawn.length
      counted := if counted then l.counted + 1 + t.withdrawn.length else l.counted
      stopped := l.stopped || stopped })

/-- The cores of a victim that has ended, or been saved, count as vacated (R305). -/
def State.vacate (s : State) (team : Nat) (t : Team) : State :=
  s.modPart t.part (fun p => { p with notices := p.notices.map (fun n =>
    if n.victims.contains team then
      { n with victims := n.victims.filter (· != team), vacated := n.vacated ++ t.cores.map TeamCore.core }
    else n) })

/-- A team's barriers and scratchpads released (R31, R317). -/
def Team.released (t : Team) (st : TeamStatus) : Team :=
  { t with status := st, barriers := [], saving := false, workgets := [], cores := t.cores.map (fun c => { c with scratch := [] }) }

/-- The gang has ended: it has no group, and its mailboxes are discarded (R31, R329). -/
def Gang.finish (g : Gang) : Gang :=
  { g with groups := [], mbox := [], ended := true, ctxsv := false, pendTraps := [], posted := [],
           block := none, inh := false, fixedAllow := none }

/-- Every gang of the team has ended. -/
def State.allEnded (s : State) (team : Nat) : Bool := (s.teamGangs team).all (fun e => e.2.ended)

/-- The team ends once its last gang has ended: barriers and scratchpad are released (R31, R317). -/
def State.endTeamIfDone (s : State) (team : Nat) : State :=
  match s.team? team with
  | none => s
  | some t =>
    if t.status == .running && s.allEnded team then
      (((s.modTeamGangs team (fun g => { g with workget := none })).putTeam team (t.released .ended)).vacate team t).teamGone
        t true false
    else s

/-- A gang without a live slice ends (R31). -/
def State.endGangIfDone (s : State) (id : Nat) : State :=
  match s.gang? id with
  | none => s
  | some g => if g.live = 0 && !g.ended then (s.putGang id g.finish).endTeamIfDone g.team else s

/-- The gangs of a team issue nothing more, and what the team held is released as R161 and R228 give. Those of a saved team
hold no slot, and go with its context (R301). -/
def State.endAll (s : State) (team : Nat) (t : Team) : State :=
  let s1 := s.modTeamGangs team (fun g => { g.finish with stopped := true, workget := none })
  let s2 := ((s1.teamGangs team).map (fun e => e.1)).foldl (fun acc i => acc.dropHolds i) s1
  let s3 := s2.modPart t.part (fun p => { p with ctxUsed := match t.image with
    | some base => p.ctxUsed.filter (fun u => u.1 * 65536 != base)
    | none => p.ctxUsed })
  let s4 := (s3.putTeam team { t.released .stopped with image := none, saved := [] }).vacate team t
  if t.status == .saved then ((s4.teamGangs team).map (fun e => e.1)).foldl State.dropGang s4 else s4

/-- A team is stopped (R301, step 3). -/
def State.stopTeam (s : State) (team : Nat) : State :=
  match s.team? team with
  | none => s
  | some t => if t.status == .running then (s.endAll team t).teamGone t false true else s

/-- A victim is dropped: no context is kept (R301, step 1; R302). -/
def State.dropVictim (s : State) (team : Nat) : State :=
  match s.team? team with
  | none => s
  | some t =>
    if t.status == .running || t.status == .saved then (s.endAll team t).teamGone t false false else s

/-- Some accepted engine operation of the team on the core has not completed (R161). -/
def Core.engineBusy (c : Core) (team : Nat) : Bool := c.engine.any (fun o => o.team == team)

/-- A core gives back what an ended team held: slots and blocks once the engine has completed its operations (R161), tags
once every request under them has ended (R228). -/
def Core.reap (c : Core) (team : Nat) : Core :=
  let c1 := if c.engineBusy team then c else
    { c with slotOwner := c.slotOwner.filter (fun e => e.2 != some team),
             blockOwner := c.blockOwner.filter (fun e => e.2 != some team) }
  { c1 with tags := c1.tags.filter (fun e => !(e.2.owner == team && e.2.state != .free && e.2.pend == 0)) }

/-- The ended or stopped teams give back what they can, and a team of which nothing is left is forgotten. -/
def State.reapTeams (s : State) : State :=
  (listed s.teams).foldl (fun acc e =>
    if e.2.status == .ended || e.2.status == .stopped then
      let acc := e.2.cores.foldl (fun a c => a.modCore c.core (fun k => k.reap e.1)) acc
      let busy := (listed acc.gangs).any (fun g => g.2.team == e.1) ||
        e.2.cores.any (fun c => (acc.core c.core).engineBusy e.1) ||
        (listed acc.reqs).any (fun r => r.2.team == e.1)
      if busy then acc else acc.dropTeam e.1
    else acc) s

/-! ### Stop records (Table 17.6) -/

/-- The bytes from 0 to 63 of a record given as fields: offset, length, value. -/
def recordBytes (len : Nat) (fs : List (Nat × Nat × Nat)) : List Byte :=
  Memory.readBytes (fs.foldl (fun m f => Memory.writeNat m f.1 f.2.1 f.2.2) []) 0 len

/-- Fields common to every stop record. skid: at most the bound of Table 17.5; its value is free. -/
def stopHead (kind : Nat) (busy : Bool) (unit hseq skid : Nat) : List (Nat × Nat × Nat) :=
  [(0, 1, kind), (1, 1, busy.toNat), (2, 2, unit), (4, 4, hseq), (8, 8, skid)]

/-- A gang to name in the record of its core: slot, cause, PC. -/
structure Culprit where
  core : Nat
  slot : Nat
  cause : Byte
  pc : VAddr
  deriving DecidableEq, Repr

/-- The gangs of a core that hold their slots. -/
def State.gangsOn (s : State) (core : Nat) : List (Nat × Gang) :=
  (listed s.gangs).filter (fun e => e.2.core == core && s.holdsSlot e.2)

/-- The stop record of a core. -/
def State.coreRecord (s : State) (core hseq skid : Nat) (c : Option Culprit) : List Byte :=
  let gs := (s.gangsOn core).filter (fun e => s.resident e.2)
  let slots := gs.foldl (fun acc e => acc + 2 ^ e.2.slot) 0
  let who := match c with
    | some x => if x.core = core then [(24, 1, x.slot), (25, 1, x.cause.toNat), (32, 8, x.pc.toNat)] else [(24, 1, 255)]
    | none => [(24, 1, 255)]
  recordBytes 64 (stopHead 1 (!gs.isEmpty) core hseq (min skid 48) ++ [(16, 8, slots)] ++ who)

/-- Operand words of an engine operation, its opcode and its first row. -/
def EngineKind.words : EngineKind → List Word
  | .mma _ desc _ => desc
  | .mcvt s0 s1 d0 d1 _ _ => [d0, d1, s0, s1]
  | .mdrain _ src _ dst => [src, BitVec.ofNat 32 dst, BitVec.ofNat 32 (dst / 2 ^ 32)]
def EngineKind.opcode : EngineKind → Nat
  | .mma grouped _ _ => if grouped then 0xA4 else 0xA3
  | .mcvt _ _ _ _ _ _ => 0xA9
  | .mdrain _ _ _ _ => 0xAA
def EngineKind.firstRow : EngineKind → Nat
  | .mma _ desc _ => (MDesc.of desc).row0
  | .mcvt _ _ d0 _ _ _ => bits d0.toNat 9 0
  | .mdrain _ src _ _ => bits src.toNat 9 0

/-- The stop record of a matrix engine that stands at an operation. -/
def State.engineRecord (s : State) (at_ : Option EngineOp) (core hseq skid : Nat) : List Byte :=
  match at_ with
  | none => recordBytes 64 (stopHead 2 false core hseq (min skid 256))
  | some o =>
    let slot := match s.gang? o.gang with
      | some g => g.slot
      | none => 0
    recordBytes 64 (stopHead 2 true core hseq (min skid 256) ++
      [(16, 1, o.kind.opcode), (17, 1, slot), (18, 1, o.k), (20, 2, o.kind.firstRow), (22, 2, o.kind.firstRow + o.next)] ++
      (List.range 8).map (fun i => (24 + 4 * i, 4, dword o.kind.words i)))

/-- The stop record of a core's matrix engine. -/
def State.matrixRecord (s : State) (core hseq skid : Nat) : List Byte :=
  s.engineRecord (s.core core).working core hseq skid

/-- The stop record of a core's Lintel and fetch engine. -/
def State.fetchRecord (s : State) (core hseq skid : Nat) : List Byte :=
  let busy := (s.core core).tags.foldl (fun acc e => if e.2.state == .busy then acc + 2 ^ e.1 else acc) 0
  let held := ((listed s.reqs).filter (fun r => r.2.core == core && (!r.2.sent || r.2.held))).length
  recordBytes 64 (stopHead 3 (busy != 0) core hseq (min skid 2100) ++ [(16, 8, busy), (24, 2, held)])

/-- The stop record of a module engine at work on a request. -/
def moduleRecord (modid hseq skid core tag done reached : Nat) : List Byte :=
  recordBytes 64 (stopHead 4 true modid hseq (min skid 8400) ++
    [(16, 2, core), (18, 1, tag), (24, 8, done), (32, 8, reached)])

/-- Record n of a partition's stop area, one store of the IOD agent; none if the area lies outside the partition's range
(R395, R422). -/
def State.putStopRecord (s : State) (part n : Nat) (bs : List Byte) : State :=
  let p := s.part part
  let a := p.stopbase * 65536 + 64 * n
  if p.owns a 64 then s.iodStore a bs [] else s

/-- A free SKID. -/
def State.freeSkid (s : State) : Nat × State := (Config.freeSkid s.free, { s with free := s.free + 1 })

/-- The stop records of one core: core, matrix engine, Lintel and fetch engine. -/
def State.stopCore (s : State) (part hseq : Nat) (c : Option Culprit) (core : Nat) : State :=
  let (k1, s1) := s.freeSkid
  let (k2, s2) := s1.freeSkid
  let (k3, s3) := s2.freeSkid
  ((s3.putStopRecord part core (s3.coreRecord core hseq k1 c)).putStopRecord part (160 + core)
    (s3.matrixRecord core hseq k2)).putStopRecord part (320 + core) (s3.fetchRecord core hseq k3)

/-- A freeze that reaches a parked MCLAIM: it is executed afresh when the freeze ends, in its place (R162). -/
def Group.claimFrozen (x : Group) : Group := match x.park with
  | some (.mclaim _ _) => { x with park := some (.frozen false) }
  | _ => x

/-- The engine of a core freezes, after a free number of rows (R188), and so do the claims that wait there (R162). -/
def State.freezeCore (s : State) (core : Nat) : State :=
  let s1 := ({ s with free := s.free + 1 } : State).modCore core (fun c => c.freeze (Config.freeFreezeRows s.free))
  (s1.gangsOn core).foldl (fun acc e => acc.modGang e.1 (fun g => { g with groups := g.groups.map Group.claimFrozen })) s1

/-- A stop record of a module engine, in order of arrival; one that finds no room is counted (R422). -/
def State.putModuleRecord (s : State) (part hseq modid : Nat) (r : FarReq) (done reached : Nat) : State :=
  let p := s.part part
  if p.stopNext < 544 then
    let (k, s1) := s.freeSkid
    (s1.putStopRecord part (480 + p.stopNext) (moduleRecord modid hseq k r.core r.tag done reached)).modPart part
      (fun q => { q with stopNext := q.stopNext + 1 })
  else s.modPart part (fun q => { q with stopLost := (q.stopLost + 1) % 2 ^ 32 })

/-- The request is caught at a module: an engine at work on it stops at the end of the 8-byte unit in flight and writes its
record (R420, Table 17.5). -/
def State.stopRequest (s : State) (part hseq : Nat) (id : Nat) (r : FarReq) (m : Nat) : State :=
  if s.atWork id r m then
    match s.stopAt id m with
    | (s1, some x) => s1.putModuleRecord part hseq m r x.1 x.2
    | (s1, none) => s1
  else s

/-- The engines of the modules stop: at walks that run, and at the other requests that they have begun. -/
def State.stopModules (s : State) (part hseq : Nat) : State :=
  (listed s.reqs).foldl (fun acc e =>
    if acc.teamPart e.2.team != part then acc
    else match e.2.walk with
      | some w =>
        if w.started && w.result.isNone then acc.putModuleRecord part hseq w.modid e.2 (8 * w.reads) w.res else acc
      | none => e.2.modules.foldl (fun a m => a.stopRequest part hseq e.1 e.2 m) acc) s

/-- Nothing of the request has reached a module. -/
def FarReq.untouched (r : FarReq) : Bool := r.sent && r.arrived.isEmpty && r.left.isEmpty && !r.modules.isEmpty

/-- The requests that the Lintel of a core has not yet sent when the line rises: a free number of the last that it accepted,
of those that have reached no module (R420). -/
def State.holdRequests (s : State) (core : Nat) : State :=
  match ((listed s.reqs).filter (fun e => e.2.core == core)).reverse.takeWhile (fun e => e.2.untouched) with
  | [] => s
  | last =>
    let n := Config.freeUnits s.free % (last.length + 1)
    (last.take n).foldl (fun acc e => acc.putReq e.1 { e.2 with held := true }) { s with free := s.free + 1 }

/-- The halt line of a partition is raised: its engines stop and write their stop records. While it is raised, a further
raise only joins FATAL (R420). fatal: CONTEXT_FATAL, with the gang concerned if one is. -/
def State.raiseHalt (s : State) (part : Nat) (fatal : Bool) (c : Option Culprit) : State :=
  let p := s.part part
  if p.halted then s.modPart part (fun q => { q with fatal := q.fatal || fatal })
  else
    let hseq := p.hseq + 1
    let s1 := s.putPart part { p with halted := true, fatal := fatal, first := if fatal then Cause.contextFatal else 0,
                                      hseq := hseq, stopNext := 0 }
    let cores := p.coreList
    let s2 := cores.foldl State.holdRequests (cores.foldl State.freezeCore s1)
    let s3 := cores.foldl (fun acc n => acc.stopCore part hseq.toNat c n) s2
    s3.stopModules part hseq.toNat

/-- CONTEXT_FATAL raised by a gang (R421). -/
def State.contextFatal (s : State) (id : Nat) (cause : Byte) (pc : VAddr) : State :=
  match s.gang? id with
  | some g => s.raiseHalt (s.teamPart g.team) true (some ⟨g.core, g.slot, cause, pc⟩)
  | none => s

end Sys2Proof.Machine
end

