-- ==== Sys2Proof/Machine/Ops.lean ====
section
/-! DEFINITION. The operations that every meaning is written over: the issuing group and its lanes (R32), the checks in
the order of R62, retiring, parking (R312), taking a trap (R409-R415) and returning from one (R417). -/

namespace Sys2Proof.Machine

/-- A step whose premise fails changes nothing (log 1). -/
def whenever (p : Bool) (s effect : State) : Host.Outcome State Fault Refusal := .next (if p then effect else s)

/-- The package is READY. Before, and in RECOVERY, no virtual function is exposed, and the physical function reaches Table
21.3 alone (R469, R470). -/
def State.isReady (s : State) : Bool := s.house.phase == 5

/-- The physical function reaches Table 21.3: once PCIe has trained, and in RECOVERY (R469, R470). -/
def State.pfReaches (s : State) : Bool := s.isReady || s.house.phase == 7 || s.house.pcie

/-- A write by a function, which reaches its register once the package is READY (R469, R470). -/
def whenReady (s effect : State) : Host.Outcome State Fault Refusal := whenever s.isReady s effect

/-! ### The issuing group -/

/-- The group that issues, with its gang: what a meaning sees. -/
structure Ctx where
  s : State
  id : Nat
  g : Gang
  grp : Group
  deriving DecidableEq, Repr

/-- The group that holds the issue slot, if it is a group of a gang. -/
def State.issuing (s : State) : Option Ctx :=
  match s.cur with
  | none => none
  | some i => match s.gang? i.gang with
    | none => none
    | some g => match g.group? i.slices with
      | none => none
      | some x => some ⟨s, i.gang, g, x⟩

/-- A meaning of an instruction word: it acts for the group that holds the issue slot. -/
def withIssue (s : State) (f : Ctx → Host.Outcome State Fault Refusal) : Host.Outcome State Fault Refusal :=
  match s.issuing with
  | some c => f c
  | none => .refused .noIssuingGroup

def Ctx.slices (c : Ctx) : SliceMask := c.grp.slices
def Ctx.pc (c : Ctx) : VAddr := c.grp.pc
/-- The lanes of the issuing group (R79, issuing). -/
def Ctx.lanes (c : Ctx) : List Nat := lanesOf c.slices
/-- The lowest-numbered slice, whose MR copy decides for the whole word (R70). -/
def Ctx.lead (c : Ctx) : Nat := lowestSlice c.slices
def Ctx.mr (c : Ctx) : BitVec 24 := c.g.mrOf c.lead
def Ctx.etype (c : Ctx) : Nat := Mr.etype c.mr
def Ctx.rnd (c : Ctx) : Nat := Mr.rnd c.mr
def Ctx.team (c : Ctx) : Option Team := c.s.team? c.g.team
def Ctx.part (c : Ctx) : Nat := c.s.teamPart c.g.team
def Ctx.core (c : Ctx) : Core := c.s.core c.g.core

/-- Lane l is active (R32). -/
def Ctx.active (c : Ctx) (l : Nat) : Bool :=
  c.slices.getLsbD (sliceOf l) && c.g.emask.getLsbD l && !c.g.exited.getLsbD l

/-- The guard of lane l, by the MR copy of its own slice (R32, R70). -/
def Ctx.guard (c : Ctx) (l : Nat) : Bool :=
  let m := c.g.mrOf (sliceOf l)
  (c.g.elem (.p (Mr.guard m) l) == 1) != Mr.neg m

/-- Lane l takes effect (R32). -/
def Ctx.takes (c : Ctx) (l : Nat) : Bool := c.active l && c.guard l
/-- The lanes that take effect, lowest first. -/
def Ctx.takers (c : Ctx) : List Nat := allLanes.filter c.takes
def Ctx.actives (c : Ctx) : List Nat := allLanes.filter c.active
/-- The lowest-numbered active lane. -/
def Ctx.lowest (c : Ctx) : Option Nat := allLanes.find? c.active
/-- once() (R45). -/
def Ctx.once (c : Ctx) : Bool := match c.lowest with
  | some l => c.guard l
  | none => false
/-- The active lanes as a mask (TMASK). -/
def Ctx.tmask (c : Ctx) : LaneMask := maskOf 32 c.active

/-- The lowest-numbered lane of a gang that has not exited. -/
def Gang.lowestLive (g : Gang) : Nat := (allLanes.find? (fun l => !g.exited.getLsbD l)).getD 0

/-! ### Taking a trap -/

/-- What a trap records. -/
structure TrapInfo where
  cause : Byte
  imm : BitVec 16
  tpc : VAddr
  opc : VAddr
  after : VAddr
  tmask : LaneMask
  group : SliceMask
  defer : Bool
  records : List (Nat × LaneRecord)
  deriving DecidableEq, Repr

/-- Is the cause lane-class? (R409) -/
def laneCause (c : Byte) : Bool := decide (0x10 ≤ c.toNat) && decide (c.toNat ≤ 0x16)

/-- The group is parked at a REGANG. -/
def Group.atRegang (x : Group) : Bool := match x.park with
  | some (.regang _) => true
  | _ => false

/-- The reconvergence point and KNOWN (R47): the lowest-numbered slice's REGANG among groups parked at one, else the PC
after the trapping instruction. -/
def Gang.reconverge (g : Gang) (after : VAddr) : VAddr × Bool :=
  match g.groups.find? Group.atRegang with
  | some x => (x.pc, true)
  | none => (after, false)

/-- A group as the reconvergence block keeps it: only a REGANG arrival outlives a trap; every other wait is executed
afresh (R312). A RATOM that its peer has been sent keeps waiting for its answer (R283, log 37), and so does a trap of lanes
for the answers to the others (R410). -/
def Group.captured (x : Group) : Group := match x.park with
  | some (.regang _) => x
  | some (.ratom _) => x
  | some (.faulting _ _ _) => x
  | _ => { x with park := none, deliver := false }

/-- The gang in its handler: all live slices one group at THADDR, emask every live lane (R412, step 5). -/
def Gang.enterHandler (g : Gang) (th : VAddr) (t : TrapInfo) : Gang :=
  let r := g.reconverge t.after
  { g with
    block := some { groups := g.groups.map Group.captured, trapping := t.group, emask := g.emask, mr := g.mr }
    trap := { cause := t.cause, laneClass := laneCause t.cause, known := r.2, defer := t.defer, badblk := false,
              loaded := false, imm := t.imm, tpc := t.tpc, tmask := t.tmask,
              tlanes := maskOf 32 (fun l => t.records.any (fun x => x.1 == l)), rpc := r.1, opc := t.opc,
              group := t.group, live := g.live, ngrp := g.groups.length }
    records := t.records.foldl (fun acc x => Tbl.set LaneRecord.zero acc x.1 x.2) []
    inh := true
    groups := [{ slices := g.live, pc := th, park := none, since := 0 }]
    emask := ~~~g.exited
    turn := lowestSlice g.live
    turnIssues := 0 }

/-- A trap of a gang is taken (R412): its pending results become visible, its reservations are lost, it enters its handler, and
its wait restarts (R309). In handler mode the trap is CONTEXT_FATAL (R414); without a handler the team stops (R413). -/
def State.takeTrap (s : State) (id : Nat) (t : TrapInfo) : State :=
  match s.gang? id with
  | none => s
  | some g =>
    if g.inh then s.contextFatal id t.cause t.opc
    else
      let p := s.part (s.teamPart g.team)
      let g1 := { g.commitAll with reserve := [], waitFrom := s.now }
      let s1 := (s.putGang id g1).loseReserves id
      if p.then_ then s1.putGang id (g1.enterHandler p.th t)
      else
        let part := s.teamPart g.team
        let (k, s2) := s1.freeSkid
        (s2.putStopRecord part g.core
          (s2.coreRecord g.core p.hseq.toNat k (some ⟨g.core, g.slot, t.cause, t.tpc⟩))).stopTeam g.team

/-- A gang-class trap, precise at the issuing instruction (R79, raise). -/
def Ctx.trapInfo (c : Ctx) (cause : Byte) (imm : BitVec 16) (tpc : VAddr) : TrapInfo :=
  { cause := cause, imm := imm, tpc := tpc, opc := c.pc, after := c.pc + 4, tmask := c.tmask, group := c.slices,
    defer := false, records := [] }

def Ctx.raise (c : Ctx) (cause : Byte) : State := c.s.takeTrap c.id (c.trapInfo cause 0 c.pc)

/-! ### Deferred faults -/

/-- DETAIL of a lane record: tag or counter number, which of the two, FDET (Table 17.3). -/
def Posted.detail (p : Posted) : Nat :=
  match p.at_ with
  | .counter k => k + 256 + p.fdet.toNat * 65536
  | .tag t => t + p.fdet.toNat * 65536
  | _ => 0

/-- The lane records of a posted fault; lane: the lane its rule names. -/
def Posted.records (p : Posted) (lane more : Nat) : List (Nat × LaneRecord) :=
  if laneCause p.cause then
    (if p.lanes.isEmpty then [(lane, p.addr, p.cause)] else p.lanes).map (fun x =>
      (x.1, { addr := BitVec.ofNat 64 x.2.1, cause := x.2.2,
              flags := p.flags ||| 2#8 ||| (if p.ecc.contains x.1 then 4#8 else 0#8),
              more := BitVec.ofNat 16 (min more 65535), detail := BitVec.ofNat 32 p.detail }))
  else []

/-- The field number under which a register fault ranks (R411, Table 2.3). -/
def RegElem.field : RegElem → Nat
  | .v r _ => r
  | .s i => 0xC0 + i
  | .p i _ => i

/-- The rank of a posted fault: counters, tags, registers, barriers, the lowest number first (R411). -/
def Posted.rank (p : Posted) : Nat :=
  match p.at_ with
  | .counter k => k
  | .tag t => 8 + t
  | .elems es => 72 + (es.map RegElem.field).foldl min 255
  | .barrier b => 400 + b

/-- The first in rank of the posted faults that satisfy f; the earliest among equals. -/
def firstPosted (f : Posted → Bool) : List Posted → Option Posted
  | [] => none
  | p :: ps =>
    match firstPosted f ps with
    | none => if f p then some p else none
    | some q => if f p && decide (p.rank ≤ q.rank) then some p else some q

/-- Faults of one place that are delivered together: those of a counter or of a tag (R190, R229). Of a register each is
delivered alone, the others at a later execution (R284, R411), and so is each completion of a barrier (R322). -/
def PostedAt.joins : PostedAt → Bool
  | .counter _ => true
  | .tag _ => true
  | .elems _ => false
  | .barrier _ => false

/-- The faults of a gang that leave with a posted one. -/
def Gang.postedWith (g : Gang) (p : Posted) : List Posted :=
  if p.at_.joins then g.posted.filter (fun q => q.at_ == p.at_) else [p]

/-- The faults that stay posted when p is delivered. -/
def Gang.postedBut (g : Gang) (p : Posted) : List Posted :=
  if p.at_.joins then g.posted.filter (fun q => !(q.at_ == p.at_)) else g.posted.erase p

/-- A posted fault is delivered: it and those that leave with it are no longer posted, and the trap is taken. -/
def State.deliver (s : State) (id : Nat) (p : Posted) (lane : Nat) (t : TrapInfo) : State :=
  match s.gang? id with
  | none => s
  | some g =>
    let more := p.more + (g.postedWith p).length - 1
    (s.putGang id { g with posted := g.postedBut p }).takeTrap id
      { t with
        cause := p.cause
        opc := match p.at_ with
          | .barrier _ => t.opc
          | _ => p.opc
        defer := true
        records := p.records lane more }

/-- The active lanes of a group of these slices. -/
def Gang.activeMask (g : Gang) (m : SliceMask) : LaneMask :=
  maskOf 32 (fun l => m.getLsbD (sliceOf l) && g.emask.getLsbD l && !g.exited.getLsbD l)

/-- A trap that follows an instruction which has completed: the group of these slices stands at tpc, the instruction was
at opc (R229, R322, R339). -/
def Gang.followInfo (g : Gang) (m : SliceMask) (tpc opc : VAddr) : TrapInfo :=
  { cause := 0, imm := 0, tpc := tpc, opc := opc, after := opc + 4, tmask := g.activeMask m, group := m, defer := true,
    records := [] }

/-- An instruction that has completed delivers the first in rank of the posted faults that it observed. -/
def State.follow (s : State) (id : Nat) (m : SliceMask) (tpc opc : VAddr) (f : Posted → Bool) : State :=
  match s.gang? id with
  | none => s
  | some g => match firstPosted f g.posted with
    | none => s
    | some p =>
      let lane := (allLanes.find? (fun l => (g.activeMask m).getLsbD l)).getD g.lowestLive
      s.deliver id p lane (g.followInfo m tpc opc)

/-! ### The end of an instruction -/

/-- The group goes on at pc: the issue distance grows by 1 + CAD (R72), and it idles for CAD cycles after this one (R68). -/
def Gang.retire (g : Gang) (m : SliceMask) (pc : VAddr) (cad : Nat) : Gang :=
  (g.modGroup m (fun x => { x with pc := pc, park := none, deliver := false, idle := cad + 1 })).advance m (1 + cad)

/-- The instruction has executed: its gang, changed to g, goes on at pc. -/
def Ctx.nextAt (c : Ctx) (s : State) (g : Gang) (pc : VAddr) : State :=
  s.putGang c.id (g.retire c.slices pc (Mr.cad c.mr))

/-- The instruction has executed and the group goes on at the next word. -/
def Ctx.next (c : Ctx) (s : State) (g : Gang) : State := c.nextAt s g (c.pc + 4)

/-- The instruction has executed without effect. -/
def Ctx.skip (c : Ctx) : State := c.next c.s c.g

/-- The instruction has executed in a state whose gang stands changed in it. -/
def Ctx.nextIn (c : Ctx) (s : State) : State := match s.gang? c.id with
  | some g => c.next s g
  | none => s

/-- A lane-class fault of a lane: lane, cause, address, and whether an error that cannot be corrected is its reason (R79,
R430). -/
structure LaneFault where
  lane : Nat
  cause : Byte
  addr : Nat
  ecc : Bool := false
  deriving DecidableEq, Repr

/-- The record of a precise lane fault: an effect was suppressed (Table 17.3). -/
def LaneFault.record (f : LaneFault) : Nat × LaneRecord :=
  (f.lane, ⟨BitVec.ofNat 64 f.addr, f.cause, if f.ecc then 5 else 1, 0, 0⟩)

/-- The trap of the faulting lanes, delivered when the instruction has completed in the others: the cause is that of
the lowest-numbered faulting lane, and TPC is the next word (R409, R410). -/
def Ctx.laneTrap (c : Ctx) (s : State) (fs : List LaneFault) : State :=
  match fs with
  | [] => s
  | f :: _ => s.takeTrap c.id { c.trapInfo f.cause 0 (c.pc + 4) with records := fs.map LaneFault.record }

/-- The lane faults of a vault instruction whose requests are those of a batch: the trap waits for the answers that the other
lanes await (R410); s: the state in which the word has executed in them. -/
def Ctx.vaultTrap (c : Ctx) (s : State) (batch : Nat) (fs : List LaneFault) : State :=
  if fs.isEmpty || !(s.vreqs.any (fun r => r.batch == batch && r.kind.loads)) then c.laneTrap s fs
  else ({ s with next := s.next + 1 } : State).modGang c.id (fun g =>
    ((g.givesTurn c.slices).commitGroup c.slices).modGroup c.slices (fun x =>
    { x with park := some (.faulting batch c.pc (fs.map LaneFault.record)), since := s.next }))

/-- A group that waits for the other lanes of a word some of whose lanes have faulted no longer does; any other wait goes on. -/
def Group.faultOver (x : Group) : Group := match x.park with
  | some (.faulting _ _ _) => { x with park := none }
  | _ => x

/-- The trap of a group's lanes that faulted at the word at opc, whose wait for the other lanes is over; the group goes on at
pc (R409, R410). -/
def State.faultsDue (s : State) (id : Nat) (m : SliceMask) (pc opc : VAddr) (rs : List (Nat × LaneRecord)) : State :=
  match s.gang? id, rs with
  | some g, r :: _ =>
    (s.modGang id (fun g => g.modGroup m Group.faultOver)).takeTrap id
      { g.followInfo m pc opc with cause := r.2.cause, after := pc, defer := false, records := rs }
  | _, _ => s

/-- A lane fault of an instruction that executes once, in the lowest-numbered active lane (R159, R262). -/
def Ctx.onceFault (c : Ctx) (cause : Byte) (addr : Nat) (ecc : Bool := false) : State :=
  c.laneTrap c.skip [⟨c.lowest.getD c.g.lowestLive, cause, addr, ecc⟩]

/-- The group parks at its instruction: its pending results become visible (R74, R312), and it gives up its turn (R309). -/
def Ctx.parkIn (c : Ctx) (s : State) (p : Park) : State :=
  ({ s with next := s.next + 1 } : State).modGang c.id (fun g =>
    ((g.givesTurn c.slices).commitGroup c.slices).modGroup c.slices (fun x =>
      { x with park := some p, since := s.next, idle := Mr.cad c.mr + 1 }))

def Ctx.park (c : Ctx) (p : Park) : State := c.parkIn c.s p

/-- The group waits at its instruction without parking; the wait counts for R74 (R166, R205). -/
def Ctx.waitHere (c : Ctx) : State := c.s.modGang c.id (fun g => g.commitGroup c.slices)

/-- What an instruction that acts once does: nothing if once() is false (R45). -/
def Ctx.onceDo (c : Ctx) (s : State) : State := if c.once then s else c.skip

/-- Cycles for which the group of these slices still idles after its word: those that are left if it has parked there, else
CAD of them and the present one (R68). -/
def Gang.idleOf (g : Gang) (m : SliceMask) (cad : Nat) : Nat := match g.group? m with
  | some x => if x.park.isSome then x.idle else cad + 1
  | none => cad + 1

/-- A group goes on at pc after the word at which it has waited, or need not wait; that word counts in the issue distance,
and its idle cycles count from its issue (R68). -/
def State.wake (s : State) (id : Nat) (m : SliceMask) (pc : VAddr) : State :=
  s.modGang id (fun g =>
    let cad := Mr.cad (g.mrOf (lowestSlice m))
    (g.retire m pc cad).modGroup m (fun x => { x with idle := g.idleOf m cad }))

/-- A parked group presents its instruction again. -/
def State.represent (s : State) (id : Nat) (m : SliceMask) : State :=
  s.modGang id (fun g => g.modGroup m (fun x => { x with park := none }))

/-! ### Checks -/

/-- Why an instruction does not execute: it waits, it traps, or Plumb stops it. -/
inductive Stop where
  | stall
  | trap (cause : Byte)
  | short (field : Nat) (kind : Nat) (short : Nat)
  | deferred (p : Posted)
  deriving DecidableEq, Repr

/-- PLUMBST after a STALL_SHORT (Table 3.11). -/
def plumbWord (field kind short : Nat) : BitVec 15 :=
  BitVec.ofNat 15 (field % 256 + 256 * (short % 16) + 4096 * (kind % 4) + 16384)

/-- The lane that records a deferred fault: the lowest-numbered live lane for a counter (R190), else the lowest-numbered
active lane (R229). -/
def Ctx.deliverLane (c : Ctx) (p : Posted) : Nat :=
  match p.at_ with
  | .counter _ => c.g.lowestLive
  | _ => c.lowest.getD c.g.lowestLive

/-- The first in rank of the gang's posted faults that satisfy f is delivered (R411). -/
def Ctx.posted (c : Ctx) (f : Posted → Bool) : Option Stop := (firstPosted f c.g.posted).map Stop.deferred

/-- What a stop does (R62, R78, R411). A stalled instruction changes nothing and is presented again. -/
def Ctx.stopped (c : Ctx) : Stop → State
  | .stall => c.s
  | .trap cause => c.raise cause
  | .short f k n => (c.s.putGang c.id { c.g with plumbSt := plumbWord f k n }).takeTrap c.id
      (c.trapInfo Cause.stallShort 0 c.pc)
  | .deferred p => c.s.deliver c.id p (c.deliverLane p) (c.trapInfo p.cause 0 c.pc)

/-- An instruction: the first check that it fails, else its effect (R62). -/
def Ctx.run (c : Ctx) (stop : Option Stop) (effect : State) : Host.Outcome State Fault Refusal :=
  .next (match stop with
    | some x => c.stopped x
    | none => effect)

/-- A check: the trap if it fails. -/
def check (ok : Bool) (cause : Byte) : Option Stop := if ok then none else some (.trap cause)

/-- The checks of group-wide instructions: ganged with every live lane enabled, then the membership mask (R47-R49). -/
def Ctx.groupWide (c : Ctx) (mask : Nat) : Option Stop :=
  if c.g.parted || !(c.g.emask ||| c.g.exited == BitVec.allOnes 32) then some (.trap Cause.groupPartial)
  else check (decide (mask % 256 = c.g.live.toNat)) Cause.membership

/-! ### Return from a trap -/

/-- Handler mode ends (R417): the captured groups stand again, the trapping group at TPC, emask and MR as captured; a group
whose slices are all dead ceases to exist. The trap state reads zero from then on (R459). The trapping group has given up its
turn (R309). DESIGN CHOICE (log 75): so it is where another group had the turn as the trap was taken. -/
def Gang.leaveHandler (g : Gang) (b : Block) : Gang :=
  let live := g.live
  let groups := (b.groups.map (fun x => if x.slices == b.trapping then { x with pc := g.trap.tpc } else x)).filterMap
    (fun x => if x.slices &&& live = 0 then none else some { x with slices := x.slices &&& live, idle := 0 })
  { g with groups := groups.foldr insertGroup [], emask := b.emask &&& ~~~g.exited, mr := b.mr, inh := false,
           trap := TrapState.zero,
           records := [], block := none, turn := lowestSlice b.trapping, turnIssues := 33 }

/-! ### Fetching -/

/-- The word at a PC, or the cause of the fetch fault (R53, R478). -/
def State.fetchWord (s : State) (part : Nat) (pc : VAddr) : Except Byte (BitVec 32) :=
  match s.access part pc.toNat 4 Need.fetch with
  | .error e => .error e
  | .ok pa => .ok (BitVec.ofNat 32 (Memory.readNat s.vault pa 4))

end Sys2Proof.Machine
end

