-- ==== Sys2Proof/Machine/Operands.lean ====
section
/-! DEFINITION. Operand forms: the register namespace of Table 2.3, the checks of R36-R40 and R60, permuted reads (R66),
interlocks and Plumb (R75, R78), and the writing of results (R44, R95, R114). -/

namespace Sys2Proof.Machine

/-! ### Fields -/

/-- The field names a vector source (Table 2.3). -/
def isVec (f : RegField) : Bool := decide (f.toNat < 0xC0) || f == 0xF9 || f == 0xFA
/-- The field names a scalar register s0-s55. -/
def isSreg (f : RegField) : Bool := decide (0xC0 ≤ f.toNat) && decide (f.toNat < 0xF8)
/-- The field names a vector register. -/
def isVreg (f : RegField) : Bool := decide (f.toNat < 0xC0)
/-- The index of the scalar register that a field names. -/
def sreg (f : RegField) : Nat := f.toNat - 0xC0

/-- The field value of a register (Table 2.3), or the index of a predicate: PLUMBST.FIELD. -/
def RegRef.field : RegRef → Nat
  | .v n => n
  | .s n => 0xC0 + n
  | .p n => n

/-- The registers that a field names, the odd one of a pair included. -/
def regsOf (f : RegField) (wide : Bool) : List RegRef :=
  if isVreg f then (if wide then [.v f.toNat, .v (f.toNat + 1)] else [.v f.toNat])
  else if isSreg f then (if wide then [.s (sreg f), .s (sreg f + 1)] else [.s (sreg f)])
  else []

/-- The register that a predicate destination names; none for p63, which holds 1 (R38). -/
def predRegs (d : PredField) : List RegRef := if d.toNat = 63 then [] else [.p d.toNat]

/-- A legal source: within the allocation; a pair at an even register, and never a special operand (R36, R37, R40). -/
def Ctx.srcOk (c : Ctx) (f : RegField) (wide : Bool) : Bool :=
  if isVreg f then
    if wide then f.toNat % 2 == 0 && decide (f.toNat + 1 < c.g.alloc) else decide (f.toNat < c.g.alloc)
  else if isSreg f then !wide || sreg f % 2 == 0
  else !wide

/-- A legal destination: also no special operand (R40). -/
def Ctx.dstOk (c : Ctx) (f : RegField) (wide : Bool) : Bool := (isVreg f || isSreg f) && c.srcOk f wide

/-- A legal scalar operand of one register (R60, R311). -/
def scalarOk (f : RegField) : Bool := !isVec f
/-- A legal scalar destination. -/
def scalarDst (f : RegField) : Bool := isSreg f
/-- A legal scalar pair: s[i] with i even (R37, R311). -/
def pairOk (f : RegField) : Bool := isSreg f && sreg f % 2 == 0
/-- A legal base of an operand block that ends at s[i + n]: i even, i at most 55 − n (R60). -/
def blockOk (f : RegField) (last : Nat) : Bool := pairOk f && decide (sreg f ≤ last)

/-! ### Reads -/

/-- The source lane of a permuted read (Table 3.7). -/
def permLane (code l : Nat) : Nat :=
  match code with
  | 1 => (l + 1) % 32
  | 2 => (l + 31) % 32
  | 3 => l ^^^ 1
  | 4 => l ^^^ 2
  | 5 => 31 - l
  | 6 => 4 * (l / 4)
  | 7 => 0
  | _ => l

/-- The value that a field reads as in source lane j, 32 bits (Table 2.3). -/
def Ctx.field32 (c : Ctx) (f : RegField) (j : Nat) : Nat :=
  let n := f.toNat
  if n < 0xC0 then (c.g.elem (.v n j)).toNat
  else if n < 0xF8 then (c.g.elem (.s (n - 0xC0))).toNat
  else
    let tid := match c.team with
      | some t => t.tid
      | none => 0
    match n with
    | 0xF9 => j
    | 0xFA => sliceOf j
    | 0xFB => c.g.index
    | 0xFC => c.g.rank
    | 0xFD => c.g.emask.toNat
    | 0xFE => tid % 2 ^ 32
    | 0xFF => tid / 2 ^ 32 % 2 ^ 32
    | _ => 0

/-- The value that a field reads as in source lane j; a pair has the even register low (R36, R37). -/
def Ctx.fieldAt (c : Ctx) (f : RegField) (wide : Bool) (j : Nat) : Nat :=
  if wide then c.field32 f j + 2 ^ 32 * c.field32 (f + 1) j else c.field32 f j

/-- Operand a in lane l, permuted if it is a vector (R66). -/
def Ctx.readA (c : Ctx) (f : RegField) (wide : Bool) (l : Nat) : Nat :=
  c.fieldAt f wide (if isVec f then permLane (Mr.perma c.mr) l else l)
/-- Operand b in lane l, permuted if it is a vector (R66). -/
def Ctx.readB (c : Ctx) (f : RegField) (wide : Bool) (l : Nat) : Nat :=
  c.fieldAt f wide (if isVec f then permLane (Mr.permb c.mr) l else l)
/-- Operand d in lane l, never permuted (R66). -/
def Ctx.readD (c : Ctx) (f : RegField) (wide : Bool) (l : Nat) : Nat := c.fieldAt f wide l
/-- A scalar operand. -/
def Ctx.readS (c : Ctx) (f : RegField) : Word := BitVec.ofNat 32 (c.field32 f 0)
/-- Scalar register s[i]. -/
def Ctx.sval (c : Ctx) (i : Nat) : Word := c.g.elem (.s i)
/-- The pair s[i], s[i+1]. -/
def Ctx.spair (c : Ctx) (i : Nat) : Nat := (c.sval i).toNat + 2 ^ 32 * (c.sval (i + 1)).toNat
/-- Predicate i in lane l. -/
def Ctx.pred (c : Ctx) (i : PredField) (l : Nat) : Bool := c.g.elem (.p i.toNat l) == 1
/-- n scalar registers from s[i]. -/
def Ctx.block (c : Ctx) (i n : Nat) : List Word := (List.range n).map (fun j => c.sval (i + j))
def sregs (i n : Nat) : List RegRef := (List.range n).map (fun j => .s (i + j))

/-! ### Interlocks and Plumb -/

/-- Fields through which a register is read (Table 3.11, KIND). -/
def kindA : Nat := 0
def kindB : Nat := 1
def kindD : Nat := 2
def kindGuard : Nat := 3

/-- Distance that the group's latest pending result of a register still has to go; 0 if none is pending (R72, R78). The producer
counts whatever lanes it took effect in. -/
def Ctx.shortOf (c : Ctx) (r : RegRef) : Nat :=
  match (c.g.flight.filter (fun x => x.reg == r && c.slices.getLsbD x.slice)).getLast? with
  | some x => x.left
  | none => (c.g.pend.filter (fun p => r.has p.dest)).foldl (fun acc p =>
    match p.left.find? (fun x => c.slices.getLsbD x.1) with
    | some x => x.2
    | none => acc) 0

/-- The guard predicates that the group reads: one for each MR copy of its slices. -/
def Ctx.guardRegs (c : Ctx) : List RegRef := (members c.slices).map (fun sl => .p (Mr.guard (c.g.mrOf sl)))

/-- The short operand of lowest register field among some registers. -/
def Ctx.firstShort (c : Ctx) (kind : Nat) (rs : List RegRef) : Option Stop :=
  rs.foldl (fun acc r =>
    if c.shortOf r = 0 then acc
    else match acc with
      | some (.short f k n) => if r.field < f then some (.short r.field kind (c.shortOf r)) else some (.short f k n)
      | _ => some (.short r.field kind (c.shortOf r))) none

/-- Some register waits for an interlocked result (R75). -/
def Ctx.waits (c : Ctx) (rs : List RegRef) : Bool := rs.any (fun r => c.g.awaited r.has)

/-- The interlock of R75: the instruction waits while a register it reads or writes awaits a result. -/
def Ctx.interlock (c : Ctx) (rs : List RegRef) : Option Stop := if c.waits rs then some .stall else none

/-- Step 5 of R62: the registers read through each field, in the order a, b, d, guard (R78). -/
def Ctx.plumb (c : Ctx) (a b d guard : List RegRef) : Option Stop :=
  if c.g.plumbEn then
    c.firstShort kindA a <|> c.firstShort kindB b <|> c.firstShort kindD d <|> c.firstShort kindGuard guard
  else none

/-- A posted fault of a register that the instruction reads (R284). -/
def Posted.ofRegs (rs : List RegRef) (p : Posted) : Bool := match p.at_ with
  | .elems es => es.any (fun e => rs.any (fun r => r.has e))
  | _ => false

/-- A remote load's fault is delivered at the first instruction that reads its destination (R284, R411). -/
def Ctx.readPosted (c : Ctx) (rs : List RegRef) : Option Stop :=
  if c.g.posted.isEmpty then none else c.posted (Posted.ofRegs rs)

/-- The interlock, Plumb and the faults of the registers read, for an instruction none of whose checks reads a register. -/
def Ctx.hazard (c : Ctx) (a b d guard writes : List RegRef) : Option Stop :=
  c.interlock (a ++ b ++ d ++ guard ++ writes) <|> c.plumb a b d guard <|> c.readPosted (a ++ b ++ d ++ guard)

/-! ### Results -/

/-- The elements that a destination field names in lane l. -/
def dstElems (f : RegField) (wide : Bool) (l : Nat) : List RegElem :=
  if isVreg f then (if wide then [.v f.toNat l, .v (f.toNat + 1) l] else [.v f.toNat l])
  else if isSreg f then (if wide then [.s (sreg f), .s (sreg f + 1)] else [.s (sreg f)])
  else []

/-- A result over its elements, the low word first. -/
def spread (es : List RegElem) (x : Nat) : List (RegElem × Word) :=
  match es with
  | [a] => [(a, BitVec.ofNat 32 x)]
  | [a, b] => [(a, BitVec.ofNat 32 x), (b, BitVec.ofNat 32 (x / 2 ^ 32))]
  | _ => []

/-- The lanes in which an instruction with destination d acts: those that take effect, or once as lane 0 (R44, R45). -/
def Ctx.lanesFor (c : Ctx) (d : RegField) : List Nat := if isSreg d then (if c.once then [0] else []) else c.takers

/-- The checks of a data instruction (R62, R114): the type, the operands, the interlocks. -/
def Ctx.dataStop (c : Ctx) (typeOk operandOk : Bool) (d : RegField) (dWide dRead : Bool) (a b : List (RegField × Bool)) :
    Option Stop :=
  check typeOk Cause.illegalEncoding <|>
  check (operandOk && c.dstOk d dWide && (a ++ b).all (fun x => c.srcOk x.1 x.2) &&
    !(isSreg d && (a ++ b).any (fun x => isVec x.1))) Cause.illegalOperand <|>
  c.hazard (a.flatMap (fun x => regsOf x.1 x.2)) (b.flatMap (fun x => regsOf x.1 x.2))
    (if dRead then regsOf d dWide else []) c.guardRegs (regsOf d dWide)

/-- The flags and the seed after an instruction: flags of every lane, and one advance if it rounded under srd in some
lane (R100, R107). -/
def Gang.arith (g : Gang) (srd : Bool) (fs : List Flags) : Gang :=
  let acr := Acr.set g.acr (Flags.orAll fs)
  { g with acr := if srd && !fs.isEmpty then Acr.advance acr else acr }

/-- The effect of a data instruction of latency lat: f gives each lane's result and flags (R114). -/
def Ctx.data (c : Ctx) (lat : Nat) (d : RegField) (dWide srd : Bool) (f : Nat → Nat × Flags) : State :=
  let rs := (c.lanesFor d).map (fun l => (l, f l))
  let ws := rs.flatMap (fun r => spread (dstElems d dWide r.1) r.2.1)
  c.next c.s (((c.g.arith srd (rs.map (fun r => r.2.2))).launch c.slices lat (regsOf d dWide)).writeFixed c.slices lat ws)

/-- The effect of an instruction with a predicate destination (R133); a write to p63 is discarded (R38). -/
def Ctx.predData (c : Ctx) (d : PredField) (f : Nat → Bool × Flags) : State :=
  let rs := c.takers.map (fun l => (l, f l))
  let ws := if d.toNat = 63 then [] else rs.map (fun r => (RegElem.p d.toNat r.1, if r.2.1 then (1 : Word) else 0))
  c.next c.s (((c.g.arith false (rs.map (fun r => r.2.2))).launch c.slices 2 (predRegs d)).writeFixed c.slices 2 ws)

/-- The effect of an instruction with a scalar result of variable latency that is ready, under once() (R45, R75). -/
def Ctx.scalarResult (c : Ctx) (d : RegField) (v : Word) : State :=
  if c.once then c.next c.s (c.g.writeNow [(.s (sreg d), v)]) else c.skip

/-- The rounding of lane l, element j (R65, R99, R105). -/
def Ctx.env (c : Ctx) (l j : Nat) : RndEnv :=
  { rnd := Rnd.ofCode c.rnd, draw := srdDraw (Acr.seed c.g.acr) l j, ftz := Acr.ftz c.g.acr }
/-- The instruction saturates integers: RND 6 (R96). -/
def Ctx.sat (c : Ctx) : Bool := c.rnd == 6
/-- The instruction rounds under srd: RND 5. -/
def Ctx.srd (c : Ctx) : Bool := c.rnd == 5

/-- The gang's earlier vault loads are waited for: a write is stamped only after they have merged (R204). -/
def Ctx.loadsFirst (c : Ctx) : Option Stop := if c.s.loadsOut c.id then some .stall else none

/-- The agent of a core: its compute die (R204). -/
def Ctx.agent (c : Ctx) : Nat := dieOf c.g.core

/-- The vault is read by the gang's engines after every earlier store of the gang: none of the writes that its agent's
clock covers is outstanding (R214, R340). -/
def Ctx.storesFirst (c : Ctx) : Bool := c.s.uncovered (c.s.vcOf c.agent)

/-- A source in the vault is read after the gang's earlier loads and stores there (R196, R204). -/
def Ctx.sourceFirst (c : Ctx) : Option Stop := if c.s.loadsOut c.id || c.storesFirst then some .stall else none

/-- Some access of a gang to a scratchpad is not yet performed (R199, R200). -/
def State.padsOut (s : State) (gang : Nat) : Bool := s.preqs.any (fun r => r.gang == gang)

/-- An instruction of another kind that reads or writes the own core's scratchpad comes after the gang's loads and stores there
(R196, R200). -/
def Ctx.ownPadFirst (c : Ctx) : Option Stop :=
  if c.s.preqs.any (fun r => r.gang == c.id && r.core == c.g.core) then some .stall else none

/-- Some vault or scratchpad access of the gang is not yet performed. -/
def Ctx.accessesOut (c : Ctx) : Bool := c.s.loadsOut c.id || c.s.padsOut c.id || c.storesFirst

/-- A release at team scope is made after the gang's earlier loads, and its accesses to scratchpads, are performed; its vault
stores go with its agent's clock (R208, R212). -/
def Ctx.releaseFirst (c : Ctx) : Option Stop := if c.s.loadsOut c.id || c.s.padsOut c.id then some .stall else none

/-- A release at package scope is made after every earlier access of the gang (R208, R340). -/
def Ctx.accessesFirst (c : Ctx) : Option Stop := if c.accessesOut then some .stall else none

/-- Some remote operation of the gang is not performed (R267). -/
def State.remoteBusy (s : State) (id : Nat) : Bool := (listed s.remotes).any (fun r => r.2.gang == id)

/-- Some remote operation of the gang that writes is not performed. -/
def State.remoteStores (s : State) (id : Nat) : Bool :=
  (listed s.remotes).any (fun r => r.2.gang == id && r.2.op.kind != .rld)

/-- A source is read after every earlier store of the gang, in any space (R214, R272, R373), and after its earlier loads from the
vault (R196). -/
def Ctx.allStoresFirst (c : Ctx) : Option Stop :=
  if c.s.loadsOut c.id || c.storesFirst || c.s.remoteStores c.id ||
    c.s.preqs.any (fun r => r.gang == c.id && r.kind.writes) then some .stall
  else none

/-- The checks of an instruction that acts once over scalar operands (R60, R62, R311): its fields, the values of its
operands, whether the gang may run it, Plumb. a, b, d: registers read through each field; writes: registers written. -/
def Ctx.onceChecks (c : Ctx) (fields values privileged : Bool) (a b d writes : List RegRef) : Option Stop :=
  check fields Cause.illegalOperand <|>
  c.interlock (a ++ b ++ d ++ c.guardRegs ++ writes) <|>
  check values Cause.illegalOperand <|>
  check privileged Cause.privileged <|>
  c.plumb a b d c.guardRegs

/-- Those checks, and the faults of the registers that the instruction reads (R284, R411). -/
def Ctx.onceStop (c : Ctx) (fields values privileged : Bool) (a b d writes : List RegRef) : Option Stop :=
  c.onceChecks fields values privileged a b d writes <|> c.readPosted (a ++ b ++ d)

/-- Those checks, where the instruction may also deliver the faults that satisfy f (R411). -/
def Ctx.oncePosted (c : Ctx) (fields values : Bool) (a b writes : List RegRef) (f : Posted → Bool) : Option Stop :=
  c.onceChecks fields values true a b [] writes <|>
  (if c.g.posted.isEmpty then none else c.posted (fun p => (c.once && f p) || Posted.ofRegs (a ++ b) p))

end Sys2Proof.Machine
end

