-- ==== Sys2Proof/Machine/Memory.lean ====
section
/-! DEFINITION. Scratchpad, vault, atomic and fence instructions and the scratchpad tag table, 0x68-0x7E (R192-R194,
R220-R222, R260-R269), with the translation-fault service (R404). -/

namespace Sys2Proof.Machine

/-- The lanes in which a memory instruction acts: per lane if any operand that decides it is a vector, else once, in the
lowest-numbered active lane (R44, R45, R262). -/
def Ctx.memLanes (c : Ctx) (perLane : Bool) : List Nat :=
  if perLane then c.takers
  else if c.once then [c.lowest.getD 0] else []

/-- Bytes of the issuing type's element. -/
def Ctx.size (c : Ctx) : Nat := esize c.etype

/-- Operand d as the value stored: its low 8 · size bits (R257). -/
def Ctx.stored (c : Ctx) (d : RegField) (l : Nat) : Nat := c.readD d (isWide c.etype) l % 2 ^ (8 * c.size)

/-! ### Scratchpad -/

/-- A scratchpad allocation of A declared bytes (R192). -/
def padSize (a : Nat) : Nat :=
  if a = 0 then 0 else (((List.range 40).map (fun i => 2 ^ i)).find? (fun p => decide (max a 16 ≤ p))).getD 0

/-- An offset wrapped into an allocation of p bytes and aligned down to the size (R192). -/
def padOffset (p size x : Nat) : Nat :=
  let e := x % 2 ^ 32 % p
  e - e % size

/-- Bytes of a team's scratchpad on a core; zero without an allocation (R192). -/
def State.padRead (s : State) (team core off size : Nat) : Nat :=
  match s.team? team with
  | none => 0
  | some t => if t.alloc = 0 then 0 else match t.onCore core with
    | some k => Memory.readNat k.scratch off size
    | none => 0

/-- Bytes written into a team's scratchpad on a core; discarded without an allocation (R192). -/
def State.padWriteBytes (s : State) (team core off : Nat) (bs : List Byte) : State :=
  match s.team? team with
  | none => s
  | some t =>
    if t.alloc = 0 then s
    else s.putTeam team (t.modCore core (fun k => { k with scratch := Memory.writeBytes k.scratch off bs }))
def State.padWrite (s : State) (team core off size v : Nat) : State := s.padWriteBytes team core off (leBytes size v)

/-- The allocation of the issuing team. -/
def Ctx.padAlloc (c : Ctx) : Nat := match c.team with
  | some t => t.alloc
  | none => 0

/-- The scratchpad offset of lane l, from operand a and imm8 (R57, R192). -/
def Ctx.padAt (c : Ctx) (a : RegField) (imm : ByteField) (l : Nat) : Nat :=
  padOffset c.padAlloc c.size (c.readA a false l + imm.toNat * c.size)

/-- The checks of an instruction with register operands a and b and a destination d that may also be read (R62). ok: the
rules of its own on its fields. -/
def Ctx.loadStop (c : Ctx) (ok : Bool) (d : RegField) (dRead : Bool) (a b : List (RegField × Bool)) : Option Stop :=
  let w := isWide c.etype
  check (ok && c.dstOk d w && (a ++ b).all (fun x => c.srcOk x.1 x.2)) Cause.illegalOperand <|>
  c.hazard (a.flatMap (fun x => regsOf x.1 x.2)) (b.flatMap (fun x => regsOf x.1 x.2))
    (if dRead then regsOf d w else []) c.guardRegs (regsOf d w)

/-- The checks of a store: d is data (R62, R257). -/
def Ctx.storeStop (c : Ctx) (ok : Bool) (d : RegField) (a b : List (RegField × Bool)) : Option Stop :=
  let w := isWide c.etype
  check (ok && c.srcOk d w && (a ++ b).all (fun x => c.srcOk x.1 x.2)) Cause.illegalOperand <|>
  c.hazard (a.flatMap (fun x => regsOf x.1 x.2)) (b.flatMap (fun x => regsOf x.1 x.2)) (regsOf d w) c.guardRegs []

/-- The result of the next request is awaited by these elements (R75). -/
def State.await (s : State) (id : Nat) (dst : List RegElem) : State :=
  s.modGang id (fun g => { g with awaits := g.awaits ++ dst.map (fun e => ⟨e, .vault s.next⟩) })

/-- A lane's access to a scratchpad goes on its way: own, or by rank; what it does, the elements that receive its result, the
core and the offset (R199, R200). -/
def Ctx.sendPad (c : Ctx) (own : Bool) (kind : VaultKind) (dst : List RegElem) (x : Nat × Nat) (s : State) : State :=
  let (id, s1) := (s.await c.id dst).fresh
  { s1 with preqs := s1.preqs ++ [⟨id, c.id, c.g.team, x.1, own, x.2, c.size, kind, BitVec.ofNat 4 c.etype, dst⟩] }

/-- Two accesses of one gang to the scratchpad of one core keep their order: both own, both by rank, or to bytes in common
(R196, R199, R200). -/
def PadReq.keeps (w r : PadReq) : Bool :=
  w.gang == r.gang && w.core == r.core &&
    (w.own == r.own || (decide (w.off < r.off + r.size) && decide (r.off < w.off + w.size)))

/-- No earlier access of the gang with which it keeps its order is still to be performed. -/
def State.padReady (s : State) (r : PadReq) : Bool :=
  !((s.preqs.takeWhile (fun w => w.id != r.id)).any (fun w => w.keeps r))

/-- What an access leaves at its place where old stood, if it writes (R263). -/
def PadReq.stores (r : PadReq) (old : Nat) : Option Nat := match r.kind with
  | .write v => some v
  | .atom op etype sat x new => atomNew op etype.toNat sat old x.toNat new.toNat
  | _ => none

/-- The access performed in one step: what it reads reaches the elements that await it (R75, R195, R263). -/
def State.performPad (s : State) (r : PadReq) : State :=
  let old := s.padRead r.team r.core r.off r.size
  let s1 := { s with preqs := s.preqs.filter (fun w => w.id != r.id) }
  let s2 := match r.stores old with
    | some v => s1.padWrite r.team r.core r.off r.size v
    | none => s1
  if r.dst.isEmpty then s2
  else s2.modGang r.gang (fun g =>
    Gang.writeNow { g with awaits := g.awaits.filter (fun a => a.kind != AwaitKind.vault r.id) }
      (elemWords r.etype.toNat old r.dst))

/-- An access to a scratchpad is performed: a step that no row of the opcode table names (log 17). -/
def execPad (n : Nat) (s : State) : Host.Outcome State Fault Refusal :=
  match s.preqs.find? (fun r => r.id == n) with
  | some r => whenever (s.padReady r) s (s.performPad r)
  | none => .next s

/-- A load from the scratchpads: at gives the core and the offset of each lane. -/
def Ctx.padLoad (c : Ctx) (own : Bool) (lanes : List Nat) (d : RegField) (at_ : Nat → Nat × Nat) : State :=
  c.nextIn (lanes.foldl (fun s l => c.sendPad own .read (dstElems d (isWide c.etype) l) (at_ l) s) c.s)

/-- A store to the scratchpads, in increasing lane number (R195). -/
def Ctx.padStore (c : Ctx) (own : Bool) (lanes : List Nat) (d : RegField) (at_ : Nat → Nat × Nat) : State :=
  c.nextIn (lanes.foldl (fun s l => c.sendPad own (.write (c.stored d l)) [] (at_ l) s) c.s)

/-- LD (R260). -/
def execLd (d a : RegField) (imm : ByteField) (s : State) : Host.Outcome State Fault Refusal :=
  withIssue s fun c =>
    c.run (c.loadStop (isVreg d || !isVec a) d false [(a, false)] [])
      (c.padLoad true (c.memLanes (isVreg d)) d (fun l => (c.g.core, c.padAt a imm l)))

/-- ST (R260). -/
def execSt (d a : RegField) (imm : ByteField) (s : State) : Host.Outcome State Fault Refusal :=
  withIssue s fun c =>
    c.run (c.storeStop true d [(a, false)] [])
      (c.padStore true (c.memLanes (isVec d || isVec a)) d (fun l => (c.g.core, c.padAt a imm l)))

/-- The core and the offset that LDP and STP name in lane l: a is read as an element, b as 32 bits (R261). -/
def Ctx.peerAt (c : Ctx) (a b : RegField) (l : Nat) : Nat × Nat :=
  let cores := match c.team with
    | some t => t.cores.map TeamCore.core
    | none => []
  let rank := c.readA a (isWide c.etype) l % 4 % cores.length
  (cores.getD rank c.g.core, padOffset c.padAlloc c.size (c.readB b false l))

/-- LDP (R261). -/
def execLdp (d a b : RegField) (s : State) : Host.Outcome State Fault Refusal :=
  withIssue s fun c =>
    c.run (c.loadStop (isVreg d || !(isVec a || isVec b)) d false [(a, isWide c.etype)] [(b, false)])
      (c.padLoad false (c.memLanes (isVreg d)) d (c.peerAt a b))

/-- STP (R261). -/
def execStp (d a b : RegField) (s : State) : Host.Outcome State Fault Refusal :=
  withIssue s fun c =>
    c.run (c.storeStop true d [(a, isWide c.etype)] [(b, false)])
      (c.padStore false (c.memLanes (isVec d || isVec a || isVec b)) d (c.peerAt a b))

/-! ### Vault addresses and the translation-fault service -/

/-- The vault address of lane l (R194, R262). -/
def Ctx.vaddr (c : Ctx) (a b : RegField) (l : Nat) : Nat := (c.spair (sreg a) + c.readB b false l) % 2 ^ 64

/-- A lane's access: its address, the physical address or the fault (R194), and whether the fault is an error that cannot be
corrected (R430). -/
structure LaneAccess where
  lane : Nat
  va : Nat
  pa : Except Byte Nat
  ecc : Bool

/-- The accesses of the lanes. -/
def Ctx.accesses (c : Ctx) (lanes : List Nat) (addr : Nat → Nat) (size : Nat) (need : Need) : List LaneAccess :=
  lanes.map (fun l => match c.s.access c.part (addr l) size need with
    | .ok pa => if c.s.spoiled pa size need then ⟨l, addr l, .error Cause.permission, true⟩ else ⟨l, addr l, .ok pa, false⟩
    | .error e => ⟨l, addr l, .error e, false⟩)

/-- The lane finds an unmapped page (R404, step 2). -/
def Ctx.unmapped (c : Ctx) (size : Nat) (x : LaneAccess) : Bool :=
  x.va % size == 0 && decide (x.va < 2 ^ 56) && (c.s.page c.part x.va).isNone

/-- Entries of a fault queue (Table 16.3). -/
def Partition.fqSize (p : Partition) : Nat := 2 ^ p.fqlog2n
/-- The fault queue is full. -/
def Partition.fqFull (p : Partition) : Bool := decide (p.fqSize ≤ (p.fqwr - p.fqrd).toNat)

/-- A record written at entry FQWR, FQWR advanced and FQVEC raised (R404). A buffer outside the partition's range is
unmapped and takes no write (R395). -/
def State.queueFault (s : State) (part : Nat) (rec_ : List Byte) : State :=
  let p := s.part part
  let a := p.fqbase * 8192 + 32 * (p.fqwr.toNat % p.fqSize)
  let s1 := if p.owns a 32 then s.iodStore a rec_ [.msix part p.fqvec.toNat] else s.emit (.msix part p.fqvec.toNat)
  s1.putPart part { p with fqwr := p.fqwr + 1 }

/-- A record of KIND 2 or 3: dropped and counted on a full queue (R404). -/
def State.queueNotice (s : State) (part : Nat) (rec_ : List Byte) : State :=
  if (s.part part).fqFull then s.modPart part (fun p => { p with fqlost := (p.fqlost + 1) % 2 ^ 32 })
  else s.queueFault part rec_

/-- The record of KIND 1 (R404, step 3). -/
def Ctx.faultRecord (c : Ctx) (va : Nat) (lanes : LaneMask) : List Byte :=
  recordBytes 32 [(0, 1, 1), (2, 2, c.g.core), (4, 1, c.g.slot), (8, 8, va), (16, 8, c.pc.toNat), (24, 4, lanes.toNat)]

/-- The group parks on its unmapped pages: the fault is queued, or waits for room in the queue (R404). -/
def Ctx.parkFault (c : Ctx) (xs : List LaneAccess) : State :=
  let p := c.s.part c.part
  let va := match xs with
    | x :: _ => x.va
    | [] => 0
  let lanes : LaneMask := maskOf 32 (fun l => xs.any (fun x => x.lane == l))
  if p.fqFull then c.park (.fqfull va lanes)
  else c.parkIn (c.s.queueFault c.part (c.faultRecord va lanes)) (.faultq p.fqwr.toNat)

/-- The queue has room for the record of a parked group's fault: it is written, and the group waits for its acknowledgement (R404,
step 3). -/
def Ctx.faultQueued (c : Ctx) (va : Nat) (lanes : LaneMask) : State :=
  let p := c.s.part c.part
  if p.fqFull then c.s
  else (c.s.queueFault c.part (c.faultRecord va lanes)).modGang c.id (fun g =>
    g.modGroup c.slices (fun x => { x with park := some (.faultq p.fqwr.toNat) }))

/-- Translation-fault service is host-assisted, and this is no presentation after ACKACT 1 (R404). -/
def Ctx.assisted (c : Ctx) : Bool := (c.s.part c.part).modes.getLsbD 5 && !c.grp.deliver

/-- The faults among accesses. -/
def accessFaults (xs : List LaneAccess) : List LaneFault :=
  xs.filterMap (fun x => match x.pa with
    | .error e => some ⟨x.lane, e, x.va, x.ecc⟩
    | .ok _ => none)

/-- A vault instruction in its lanes: each lane without a fault performs, in increasing lane number, then the faults are
delivered (R194, R262, R410). -/
def Ctx.vaultDo (c : Ctx) (lanes : List Nat) (addr : Nat → Nat) (size : Nat) (need : Need)
    (perform : Nat → Nat → State → State) (suppressed : Nat → State → State) : State :=
  let xs := c.accesses lanes addr size need
  let um := xs.filter (c.unmapped size)
  if c.assisted && !um.isEmpty then c.parkFault um
  else
    let s0 := xs.foldl (fun s x => s.cache c.part x.va) c.s
    let s1 := xs.foldl (fun s x => match x.pa with
      | .ok pa => perform x.lane pa s
      | .error _ => suppressed x.lane s) s0
    let s2 := { s1 with vreqs := s1.vreqs.map (fun r => if r.batch == c.s.next then { r with opc := c.pc, va := match r.actor with
      | .lane _ l => addr l
      | _ => 0 } else r) }
    c.vaultTrap (c.nextIn s2) c.s.next (accessFaults xs)

/-- Lane l's read of the vault goes on its way. -/
def Ctx.sendRead (c : Ctx) (k : VaultKind) (dst : List RegElem) (l pa : Nat) (s : State) : State :=
  (s.await c.id dst).pushRead c.s.next (.lane c.id l) c.agent pa c.size k (BitVec.ofNat 4 c.etype) dst

/-- Lane l's write, atomic or SC goes on its way. -/
def Ctx.sendWrite (c : Ctx) (k : VaultKind) (dst : List RegElem) (l pa : Nat) (s : State) : State :=
  (if dst.isEmpty then s else s.await c.id dst).pushWrite c.s.next (.lane c.id l) c.agent pa c.size k
    (BitVec.ofNat 4 c.etype) dst

/-- The agent's bound on writes not applied (R205); the stall counts as a wait. n: writes of the instruction. -/
def Ctx.bounded (c : Ctx) (n : Nat) (effect : State) : State :=
  if 32767 < c.s.unapplied c.agent + n then c.waitHere else effect

/-- A vault load (R262). -/
def Ctx.vaultLoad (c : Ctx) (d a b : RegField) : State :=
  c.vaultDo (c.memLanes (isVreg d)) (c.vaddr a b) c.size Need.load
    (fun l pa s => c.sendRead .read (dstElems d (isWide c.etype) l) l pa s) (fun _ s => s)

/-- A vault store (R262). -/
def Ctx.vaultStore (c : Ctx) (perLane : Bool) (d a b : RegField) : State :=
  let lanes := c.memLanes perLane
  c.bounded lanes.length (c.vaultDo lanes (c.vaddr a b) c.size Need.store
    (fun l pa s => c.sendWrite (.write (c.stored d l)) [] l pa s) (fun _ s => s))

/-- LDV (R262). -/
def execLdv (d a b : RegField) (s : State) : Host.Outcome State Fault Refusal :=
  withIssue s fun c =>
    c.run (c.loadStop (pairOk a && (isVreg d || !isVec b)) d false [(a, true)] [(b, false)]) (c.vaultLoad d a b)

/-- STV (R262). -/
def execStv (d a b : RegField) (s : State) : Host.Outcome State Fault Refusal :=
  withIssue s fun c =>
    c.run (c.storeStop (pairOk a) d [(a, true)] [(b, false)] <|> c.loadsFirst)
      (c.vaultStore (isVec d || isVec b) d a b)

/-- LDVS: scalar operands only (R262). -/
def execLdvs (d a b : RegField) (s : State) : Host.Outcome State Fault Refusal :=
  withIssue s fun c =>
    c.run (c.loadStop (pairOk a && isSreg d && scalarOk b) d false [(a, true)] [(b, false)]) (c.vaultLoad d a b)

/-- STVS: scalar operands only (R262). -/
def execStvs (d a b : RegField) (s : State) : Host.Outcome State Fault Refusal :=
  withIssue s fun c =>
    c.run (c.storeStop (pairOk a && scalarOk d && scalarOk b) d [(a, true)] [(b, false)] <|> c.loadsFirst)
      (c.vaultStore false d a b)

/-! ### Atomics and reservations -/

/-- The types of an atomic operation (Table 9.3). -/
def atomTypeOk (op t : Nat) : Bool :=
  match op with
  | 0 | 3 | 4 | 5 => t == 4 || t == 5 || t == 14 || t == 6 || t == 7
  | 1 | 2 => t == 4 || t == 5 || t == 6 || t == 7
  | 6 | 7 => decide (4 ≤ t) && decide (t ≤ 7) || t == 10 || t == 11 || t == 14 || t == 15
  | _ => t == 10 || t == 11 || t == 15

/-- The registers of ATOM.cas: the compare value's and the new value's (R264). -/
def Ctx.casOk (c : Ctx) (d : RegField) (wide : Bool) : Bool :=
  let n := if wide then 3 else 1
  c.dstOk d wide && (if isVreg d then decide (d.toNat + n < c.g.alloc) else decide (sreg d + n ≤ 55))

/-- The new value's register or pair (R264). -/
def casNew (d : RegField) (wide : Bool) : RegField := d + (if wide then 2 else 1)

/-- The new value of lane l, if the operation is cas. -/
def Ctx.newOf (c : Ctx) (op : Nat) (d : RegField) (l : Nat) : Nat :=
  if op = 7 then c.stored (casNew d (isWide c.etype)) l else 0

/-- What a lane of an ATOM asks for (R263). -/
def Ctx.atomKind (c : Ctx) (op : Nat) (d : RegField) (l : Nat) : VaultKind :=
  .atom op (BitVec.ofNat 4 c.etype) c.sat (BitVec.ofNat 64 (c.stored d l)) (BitVec.ofNat 64 (c.newOf op d l))

/-- The scratchpad form: each lane's step in increasing lane number, its old value the lane's result (R263). -/
def Ctx.padAtom (c : Ctx) (op : Nat) (d a : RegField) (imm : ByteField) : State :=
  c.nextIn ((c.memLanes (isVreg d)).foldl (fun s l =>
    c.sendPad true (c.atomKind op d l) (dstElems d (isWide c.etype) l) (c.g.core, c.padAt a imm l) s) c.s)

/-- The vault form (R263). -/
def Ctx.vaultAtom (c : Ctx) (op : Nat) (d a b : RegField) : State :=
  let lanes := c.memLanes (isVreg d)
  c.bounded lanes.length (c.vaultDo lanes (c.vaddr a b) c.size Need.atomic
    (fun l pa s => c.sendWrite (c.atomKind op d l)
      (dstElems d (isWide c.etype) l) l pa s) (fun _ s => s))

/-- ATOM of operation op: a vector a selects the scratchpad, a scalar a the vault (R263). -/
def Ctx.atom (c : Ctx) (op : Nat) (d a : RegField) (b : ByteField) : Host.Outcome State Fault Refusal :=
  let w := isWide c.etype
  let pad := isVec a
  let extra := if op = 7 then regsOf (casNew d w) w else []
  let ok := (if op = 7 then c.casOk d w else c.dstOk d w) &&
    (if pad then c.srcOk a false && isVreg d else pairOk a && c.srcOk b false && (isVreg d || !isVec b))
  c.run (check (atomTypeOk op c.etype) Cause.illegalEncoding <|> check ok Cause.illegalOperand <|>
      c.hazard (regsOf a (!pad)) (if pad then [] else regsOf b false) (regsOf d w ++ extra) c.guardRegs (regsOf d w) <|>
      (if pad then none else c.loadsFirst))
    (if pad then c.padAtom op d a b else c.vaultAtom op d a b)

/-- ATOM.add (R263). -/
def execAtomAdd (d a : RegField) (b : ByteField) (s : State) : Host.Outcome State Fault Refusal :=
  withIssue s fun c => c.atom 0 d a b
/-- ATOM.min (R263). -/
def execAtomMin (d a : RegField) (b : ByteField) (s : State) : Host.Outcome State Fault Refusal :=
  withIssue s fun c => c.atom 1 d a b
/-- ATOM.max (R263). -/
def execAtomMax (d a : RegField) (b : ByteField) (s : State) : Host.Outcome State Fault Refusal :=
  withIssue s fun c => c.atom 2 d a b
/-- ATOM.and (R263). -/
def execAtomAnd (d a : RegField) (b : ByteField) (s : State) : Host.Outcome State Fault Refusal :=
  withIssue s fun c => c.atom 3 d a b
/-- ATOM.or (R263). -/
def execAtomOr (d a : RegField) (b : ByteField) (s : State) : Host.Outcome State Fault Refusal :=
  withIssue s fun c => c.atom 4 d a b
/-- ATOM.xor (R263). -/
def execAtomXor (d a : RegField) (b : ByteField) (s : State) : Host.Outcome State Fault Refusal :=
  withIssue s fun c => c.atom 5 d a b
/-- ATOM.exch (R263). -/
def execAtomExch (d a : RegField) (b : ByteField) (s : State) : Host.Outcome State Fault Refusal :=
  withIssue s fun c => c.atom 6 d a b
/-- ATOM.cas (R264). -/
def execAtomCas (d a : RegField) (b : ByteField) (s : State) : Host.Outcome State Fault Refusal :=
  withIssue s fun c => c.atom 7 d a b
/-- ATOM.fadd (R265). -/
def execAtomFadd (d a : RegField) (b : ByteField) (s : State) : Host.Outcome State Fault Refusal :=
  withIssue s fun c => c.atom 8 d a b

/-- LR (R220, R266). -/
def execLr (d a b : RegField) (s : State) : Host.Outcome State Fault Refusal :=
  withIssue s fun c =>
    c.run (check (atomTypeOk 6 c.etype) Cause.illegalEncoding <|>
        c.loadStop (pairOk a && isVreg d && isVec b) d false [(a, true)] [(b, false)])
      (c.vaultDo c.takers (c.vaddr a b) c.size Need.load
        (fun l pa s => c.sendRead .lr (dstElems d (isWide c.etype) l) l pa s) (fun _ s => s))

/-- SC (R221, R266): a lane that faults loses its reservation and its hold. -/
def execSc (d a b : RegField) (s : State) : Host.Outcome State Fault Refusal :=
  withIssue s fun c =>
    c.run (check (atomTypeOk 6 c.etype) Cause.illegalEncoding <|>
        c.loadStop (pairOk a && isVreg d && isVec b) d true [(a, true)] [(b, false)] <|> c.loadsFirst)
      (c.bounded c.takers.length (c.vaultDo c.takers (c.vaddr a b) c.size Need.store
        (fun l pa s => c.sendWrite (.sc (BitVec.ofNat 64 (c.stored d l))) (dstElems d (isWide c.etype) l) l pa s)
        (fun l s => (s.modGang c.id (fun g => g.setReserve l none)).dropHold c.id l)))

/-! ### Fences -/

/-- A fault that a peer reported (R284): it names the lanes concerned. -/
def Posted.remote (p : Posted) : Bool := !p.lanes.isEmpty

/-- FENCE (R207, R208, R267): it waits for the gang's loads and its accesses to scratchpads by rank; of kind rel, ar or sc
at scope pkg or dom for every vault write that the agent's clock covers; at scope dom for the remote operations, whose
faults it delivers. -/
def execFence (code : ByteField) (s : State) : Host.Outcome State Fault Refusal :=
  withIssue s fun c =>
    let scope := code.toNat % 8
    let kind := code.toNat / 16
    let waits := s.loadsOut c.id || s.padsOut c.id || (kind != 0 && decide (3 ≤ scope) && s.uncovered (s.vcOf c.agent)) ||
      (scope == 4 && s.remoteBusy c.id)
    c.run (check (Code.fence code) Cause.illegalEncoding <|>
        (if scope = 4 ∧ ¬ waits then c.posted Posted.remote else none))
      (if waits then c.waitHere else c.skip)

/-! ### The scratchpad tag table -/

/-- An entry of the tag table (R240). -/
def Core.tagEntry (k : Core) (n : Nat) : TagEntry := Tbl.get TagEntry.reset k.table n
def Core.putTagEntry (k : Core) (n : Nat) (e : TagEntry) : Core := { k with table := Tbl.set TagEntry.reset k.table n e }

/-- The entry is the team's and holds the key. -/
def TagEntry.hits (e : TagEntry) (team : Nat) (key : Word) : Bool := e.valid && e.team == team && e.key == key

/-- The entries of a key's set. -/
def setOf (key : Word) : List Nat := (List.range 4).map (fun w => 4 * (key.toNat % 64) + w)

/-- What LDT returns (R240). -/
def Core.lookup (k : Core) (team : Nat) (key : Word) : Word :=
  match (setOf key).find? (fun n => (k.tagEntry n).hits team key) with
  | some n => (k.tagEntry n).val
  | none => 0xFFFFFFFF#32

/-- LDT: b must name zero (R268). It ignores ETYPE, and keeps its place in the core's scratchpad order (R200, R240, R269). -/
def execLdt (d a b : RegField) (s : State) : Host.Outcome State Fault Refusal :=
  withIssue s fun c =>
    c.run (check (b == 0xF8 && c.dstOk d false && c.srcOk a false && (isVreg d || !isVec a)) Cause.illegalOperand <|>
        c.hazard (regsOf a false) [] [] c.guardRegs (regsOf d false) <|>
        (if (c.memLanes (isVreg d)).isEmpty then none else c.ownPadFirst))
      (c.next s (c.g.writeNow ((c.memLanes (isVreg d)).flatMap (fun l =>
        spread (dstElems d false l) (c.core.lookup c.g.team (BitVec.ofNat 32 (c.readA a false l))).toNat))))

/-- TAGSET (R200, R240, R269). -/
def execTagset (d a b : RegField) (s : State) : Host.Outcome State Fault Refusal :=
  withIssue s fun c =>
    let n := (c.readS d).toNat
    c.run (c.onceStop (scalarOk d && scalarOk a && scalarOk b) (n / 256 == 0) true (regsOf a false) (regsOf b false)
        (regsOf d false) [] <|> (if c.once then c.ownPadFirst else none))
      (c.onceDo (c.skip.modCore c.g.core (fun k =>
        k.putTagEntry n { valid := true, team := c.g.team, key := c.readS a, val := c.readS b })))

/-- TAGINV (R200, R240, R269). -/
def execTaginv (a : RegField) (s : State) : Host.Outcome State Fault Refusal :=
  withIssue s fun c =>
    let key := c.readS a
    c.run (c.onceStop (scalarOk a) true true (regsOf a false) [] [] [] <|> (if c.once then c.ownPadFirst else none))
      (c.onceDo (c.skip.modCore c.g.core (fun k => (setOf key).foldl (fun k n =>
        if (k.tagEntry n).hits c.g.team key then k.putTagEntry n { k.tagEntry n with valid := false } else k) k)))

end Sys2Proof.Machine
end

