-- ==== Sys2Proof/Machine/Sync.lean ====
section
/-! DEFINITION. REGANG (R313-R316), barriers (R317-R325), gang counters (R326-R328), mailboxes (R329-R331), the deadline
(R332), events and WANY (R333-R339). -/

namespace Sys2Proof.Machine

/-! ### REGANG -/

/-- The mask that a group parked at a REGANG at pc holds. -/
def Group.arrivedAt (x : Group) (pc : VAddr) : Option SliceMask :=
  match x.park with
  | some (.regang m) => if x.pc = pc then some m else none
  | _ => none

/-- The slices parked at the REGANG at pc. -/
def Gang.arrived (g : Gang) (pc : VAddr) : SliceMask :=
  g.groups.foldl (fun acc x => if (x.arrivedAt pc).isSome then acc ||| x.slices else acc) 0

/-- The REGANG at pc completes: one group at the next word, with the MR copy of its lowest slice (R314); it idles
until each of the groups has (R68). -/
def Gang.mergeAt (g : Gang) (pc : VAddr) (m : SliceMask) : Gang :=
  let mr := g.mrOf (lowestSlice m)
  let here := g.groups.filter (fun x => (x.arrivedAt pc).isSome)
  let rest := g.groups.filter (fun x => (x.arrivedAt pc).isNone)
  let merged : Group :=
    { slices := m, pc := pc + 4, park := none, since := 0, idle := (here.map Group.idle).foldl max 0 }
  (members m).foldl (fun g sl => g.putMr sl mr) { g with groups := insertGroup merged rest }

/-- REGANG: the issuing group arrives with its expected slices (R313). -/
def execRegang (a : RegField) (s : State) : Host.Outcome State Fault Refusal :=
  withIssue s fun c =>
    let m : SliceMask := (c.readS a).extractLsb' 0 8
    c.run (check (scalarOk a) Cause.illegalOperand <|> c.interlock (regsOf a false) <|> c.plumb (regsOf a false) [] [] [] <|>
        check (m &&& ~~~c.g.live == 0 && c.slices &&& ~~~m == 0 &&
          c.g.groups.all (fun x => match x.arrivedAt c.pc with
            | some k => k == m
            | none => true)) Cause.membership <|>
        c.readPosted (regsOf a false))
      ((c.park (.regang m)).modGang c.id (fun g => if g.arrived c.pc = m then g.mergeAt c.pc m else g))

/-- Slices that stop being live undo an arrival: for each REGANG at which a group parked with a mask that names one of
them, the lowest-numbered group parked there raises MEMBERSHIP (R315). seen: PCs done. -/
def sliceDiedGo (dead : SliceMask) (handler : Bool) : List VAddr → List Group → List PendTrap
  | _, [] => []
  | seen, x :: xs =>
    match x.park with
    | some (.regang m) =>
      if m &&& dead != 0 && !seen.contains x.pc then
        { cause := Cause.membership, handler := handler, slices := x.slices, posted := none, tpc := x.pc, opc := x.pc } ::
          sliceDiedGo dead handler (x.pc :: seen) xs
      else sliceDiedGo dead handler seen xs
    | _ => sliceDiedGo dead handler seen xs

/-- The gang after slices stopped being live (R315): the traps wait for it, and the arrivals concerned are undone. -/
def Gang.slicesDied (g : Gang) (dead : SliceMask) : Gang :=
  let ts := sliceDiedGo dead g.inh [] g.groups
  ts.foldl (fun g t => g.modGroup t.slices (fun x => { x with park := none }))
    { g with pendTraps := g.pendTraps ++ ts }

/-- Every live group of the gang is parked at a REGANG, and no arrival is being undone: none can complete (R316). -/
def Gang.deadlocked (g : Gang) : Bool :=
  !g.groups.isEmpty && g.groups.all Group.atRegang && g.pendTraps.isEmpty

/-! ### Barriers -/

/-- An arrival applied (R321); p: its parity, m: its mask. -/
def Barrier.arrive (b : Barrier) (g : Nat) (p : Bool) (m : SliceMask) : Barrier :=
  if p = b.phase then { b with a := b.a ||| BitVec.ofNat 128 (2 ^ g), arr := b.arr + 1, umask := b.umask ||| m }
  else { b with e := b.e ||| BitVec.ofNat 128 (2 ^ g), early := b.early + 1, eumask := b.eumask ||| m }

/-- A credit applied (R321). -/
def Barrier.credit (b : Barrier) (n : Nat) (p : Bool) : Barrier :=
  let b1 := if p = b.phase then
      let x := b.bytes + n
      { b with bytes := min x b.expb, ebytes := b.ebytes + (x - min x b.expb) }
    else { b with ebytes := b.ebytes + n }
  if b1.expb < b1.ebytes then { b1 with ebytes := b1.expb, ovb := true } else b1

/-- The barrier's phase is complete (R321). -/
def Barrier.complete (b : Barrier) : Bool := decide (b.expg ≤ b.arr) && b.bytes == b.expb

/-- The phase advances (R321). -/
def Barrier.flip (b : Barrier) : Barrier :=
  { b with
    mism := decide (0 < b.expg) && b.umask != b.dmem
    phase := !b.phase
    arr := b.early
    bytes := b.ebytes
    umask := b.eumask
    a := b.e
    e := 0
    early := 0
    ebytes := 0
    eumask := 0 }

/-- Every gang of the team latches the barrier's event, and holds a pending MEMBERSHIP trap if the completion failed the
check (R322, R334). -/
def Gang.sawBarrier (g : Gang) (b : Nat) (mism : Bool) : Gang :=
  if g.ended then g
  else
    let g1 := g.latch b
    if mism then
      { g1 with posted := g1.posted ++ [{ at_ := .barrier b, cause := Cause.membership, addr := 0, lanes := [], opc := 0,
                                          flags := 0, fdet := 0, req := 0, more := 0, chunks := [] }] }
    else g1

/-- Barrier b of a team takes a new state; its completion is checked at the end of the cycle (R321). -/
def State.putBarrier (s : State) (team b : Nat) (x : Barrier) : State :=
  s.modTeam team (fun t => t.putBarrier b x)

/-- The phase of a complete barrier advances, and every gang of the team sees it (R321, R322, R334). -/
def State.flipBarrier (s : State) (team b : Nat) (x : Barrier) : State :=
  (s.putBarrier team b x.flip).modTeamGangs team (fun g => g.sawBarrier b x.flip.mism)

/-- Bytes of a fetch credited to a barrier, with parity PHASE (R320). -/
def State.creditBarrier (s : State) (team b n : Nat) : State :=
  match s.team? team with
  | none => s
  | some t => s.putBarrier team b ((t.barrier b).credit n (t.barrier b).phase)

/-- The numbers of a team's barriers whose phase is complete. -/
def Team.complete (t : Team) : List Nat := (List.range 16).filter (fun n => (t.barrier n).complete)

/-- Every barrier of a team that is complete, by what reached it in the cycle or by what was carried into it, advances
once (R321). -/
def State.flipComplete (s : State) (team : Nat) (t : Team) : State :=
  t.complete.foldl (fun acc n => acc.flipBarrier team n (t.barrier n)) s

/-- The one update of a cycle, for every team that runs (R321). -/
def State.updateBarriers (s : State) : State :=
  (listed s.teams).foldl (fun acc e => if e.2.status == .running then acc.flipComplete e.1 e.2 else acc) s

/-- The group is parked in BARWAIT on barrier b. -/
def Group.inBarwait (x : Group) (b : Nat) : Bool := match x.park with
  | some (.barwait n _) => n == b
  | _ => false

/-- The request is an FGET that credits barrier b. -/
def FarReq.credits (r : FarReq) (b : Nat) : Bool := match r.kind with
  | .get d => d.bar == some b
  | _ => false

/-- Barrier b of the team is busy (R318). -/
def State.barrierBusy (s : State) (team : Nat) (b : Nat) (x : Barrier) : Bool :=
  x.arr != 0 || x.early != 0 || x.bytes != 0 || x.ebytes != 0 ||
  (s.teamGangs team).any (fun g => g.2.groups.any (fun y => y.inBarwait b)) ||
  (listed s.reqs).any (fun r => r.2.team == team && r.2.credits b)

/-- The barrier that BARINIT leaves (R318). -/
def Barrier.fresh (expg expb : Nat) (dmem : SliceMask) : Barrier :=
  { Barrier.init expg with expb := expb, dmem := dmem }

/-- Barrier n of the issuing team. -/
def Ctx.barrier (c : Ctx) (n : Nat) : Barrier := match c.team with
  | some t => t.barrier n
  | none => Barrier.init 0

/-- BARINIT (R318). A busy barrier traps when the instruction reaches it. -/
def execBarinit (n : ByteField) (a b : RegField) (s : State) : Host.Outcome State Fault Refusal :=
  withIssue s fun c =>
    let x := (c.readS a).toNat
    let expb := (c.readS b).toNat
    c.run (c.onceStop (decide (n.toNat ≤ 15) && scalarOk a && scalarOk b)
        (x / 65536 == 0 && decide (x % 256 ≤ 128) && (x % 256 != 0 || expb != 0)) true
        (regsOf a false) (regsOf b false) [] [])
      (c.onceDo
        (if s.barrierBusy c.g.team n.toNat (c.barrier n.toNat) then c.raise Cause.illegalOperand
         else c.skip.modTeam c.g.team (fun t =>
           t.putBarrier n.toNat (Barrier.fresh (x % 256) expb (BitVec.ofNat 8 (x / 256))))))

/-- The arrival of gang g is refused (Table 11.4). -/
def Barrier.overrun (b : Barrier) (g : Nat) (p : Bool) : Bool :=
  b.e.getLsbD g || (b.a.getLsbD g && p == b.phase)

/-- BARARR (R319): a release, it waits for the gang's earlier loads (R212). -/
def execBararr (n : ByteField) (a : RegField) (s : State) : Host.Outcome State Fault Refusal :=
  withIssue s fun c =>
    let x := (c.readS a).toNat
    let b := c.barrier n.toNat
    c.run (check (decide (n.toNat ≤ 15) && scalarOk a) Cause.illegalOperand <|>
        c.interlock (regsOf a false) <|> check (x / 512 == 0) Cause.illegalOperand <|>
        c.plumb (regsOf a false) [] [] [] <|> c.groupWide x <|> c.readPosted (regsOf a false) <|>
        check (!b.overrun c.g.index (bit x 8)) Cause.barrierOverrun <|> c.releaseFirst)
      (c.skip.putBarrier c.g.team n.toNat (b.arrive c.g.index (bit x 8) (BitVec.ofNat 8 x)))

/-- The pending MEMBERSHIP trap of a barrier (R322). -/
def Posted.ofBarrier (n : Nat) (p : Posted) : Bool := p.at_ == .barrier n

/-- A BARWAIT that returns: the group goes on, and a pending MEMBERSHIP trap follows (R322, R323). -/
def State.barwaitReturns (s : State) (id : Nat) (m : SliceMask) (pc : VAddr) (n : Nat) : State :=
  (s.wake id m (pc + 4)).follow id m (pc + 4) pc (Posted.ofBarrier n)

/-- BARWAIT (R323). -/
def execBarwait (n : ByteField) (a : RegField) (s : State) : Host.Outcome State Fault Refusal :=
  withIssue s fun c =>
    let x := (c.readS a).toNat
    c.run (check (decide (n.toNat ≤ 15) && scalarOk a) Cause.illegalOperand <|>
        c.interlock (regsOf a false) <|> check (x / 512 == 0) Cause.illegalOperand <|>
        c.plumb (regsOf a false) [] [] [] <|> c.groupWide x <|> c.readPosted (regsOf a false))
      (if (c.barrier n.toNat).phase != bit x 8 then s.barwaitReturns c.id c.slices c.pc n.toNat
       else c.park (.barwait n.toNat (bit x 8)))

/-- The status word of Table 11.5 for gang g. -/
def Barrier.status (b : Barrier) (g : Nat) : Nat :=
  b.arr % 256 + 256 * (b.early % 256) + 65536 * (b.phase.toNat + 2 * b.mism.toNat + 4 * b.ovb.toNat +
    8 * (b.a.getLsbD g).toNat + 16 * (b.e.getLsbD g).toNat)

/-- BARTEST (R324). -/
def execBartest (d : RegField) (n : ByteField) (s : State) : Host.Outcome State Fault Refusal :=
  withIssue s fun c =>
    c.run (c.onceStop (decide (n.toNat ≤ 15) && scalarDst d) true true [] [] [] (regsOf d false))
      (c.onceDo ((c.scalarResult d (BitVec.ofNat 32 ((c.barrier n.toNat).status c.g.index))).follow c.id c.slices
        (c.pc + 4) c.pc (Posted.ofBarrier n.toNat)))

/-- BARBYTES (R320). -/
def execBarbytes (n : ByteField) (a : RegField) (s : State) : Host.Outcome State Fault Refusal :=
  withIssue s fun c =>
    let x := (c.readS a).toNat
    c.run (c.onceStop (decide (n.toNat ≤ 15) && scalarOk a) (x / 2 ^ 29 == 0) true (regsOf a false) [] [] [])
      (c.onceDo
        (if x % 2 ^ 28 = 0 then c.skip
         else c.skip.putBarrier c.g.team n.toNat ((c.barrier n.toNat).credit (x % 2 ^ 28) (bit x 28))))

/-! ### Events and WANY -/

/-- The bit of EVPEND of an edge event (Table 11.8). -/
def edgeBit (id : Nat) : Option Nat :=
  if 0x40 ≤ id ∧ id ≤ 0x4F then some (id - 0x40)
  else if 0x58 ≤ id ∧ id ≤ 0x5A then some (id - 0x58 + 16)
  else none

/-- Fields of a list entry (R85, R338). -/
def entryId (e : Word) : Nat := (e.extractLsb' 24 8).toNat
def entryKeep (e : Word) : Bool := e.getLsbD 22
/-- The handler of an entry: PC + 4 · sext(offset, 22) (R336). -/
def entryHandler (pc : VAddr) (e : Word) : VAddr := pc + ((e.extractLsb' 0 22).signExtend 56 <<< 2)

/-- The entry names an event (R336). -/
def entryOk (e : Word) : Bool := decide (entryId e ≤ 0x5A) && !e.getLsbD 23

/-- Tag t of the core is READY and the team holds it (R227, R337). -/
def State.tagReady (s : State) (core team t : Nat) : Bool :=
  let g := (s.core core).tag t
  g.state == .ready && g.owner == team

/-- The entry is eligible (Table 11.9). -/
def State.eligible (s : State) (g : Gang) (e : Word) : Bool :=
  let id := entryId e
  match edgeBit id with
  | some b => g.evpend.getLsbD b && !g.evmask.getLsbD b
  | none =>
    if id < 0x40 then s.tagReady g.core g.team id
    else (g.mailbox (id - 0x50)).isSome && !g.evmask.getLsbD (19 + (id - 0x50))

/-- The lowest index of an eligible entry. -/
def State.firstEligible (s : State) (g : Gang) : List Word → Nat → Option (Nat × Word)
  | [], _ => none
  | e :: es, k => if s.eligible g e then some (k, e) else State.firstEligible s g es (k + 1)

/-- The posted faults that an event carries (R339). -/
def Posted.ofEvent (id : Nat) (p : Posted) : Bool :=
  match p.at_ with
  | .tag t => t == id
  | .barrier b => 0x40 + b == id
  | _ => false

/-- WANY takes entry e, at index k (R338, R339). -/
def State.wanyTakes (s : State) (id : Nat) (m : SliceMask) (pc : VAddr) (d k : Nat) (e : Word) : State :=
  let s1 := s.modGang id (fun g =>
    let g1 := g.putNow (.s d) (BitVec.ofNat 32 (entryId e * 256 + k))
    match edgeBit (entryId e) with
    | some b => if entryKeep e then g1 else { g1 with evpend := g1.evpend &&& ~~~(BitVec.ofNat 19 (2 ^ b)) }
    | none => g1)
  (s1.wake id m (entryHandler pc e)).follow id m (entryHandler pc e) pc (Posted.ofEvent (entryId e))

/-- WANY (R336, R338). -/
def execWany (d a : RegField) (n : ByteField) (s : State) : Host.Outcome State Fault Refusal :=
  withIssue s fun c =>
    let k := n.toNat
    let es := c.block (sreg a) k
    let list := if isSreg a then sregs (sreg a) k else []
    c.run (check (decide (1 ≤ k) && decide (k ≤ 8)) Cause.illegalEncoding <|>
        check (isSreg a && decide (sreg a + k ≤ 56) && scalarDst d) Cause.illegalOperand <|>
        c.interlock (list ++ regsOf d false) <|> c.plumb list [] (regsOf d false) [] <|>
        c.groupWide (c.readS d).toNat <|> c.readPosted (list ++ regsOf d false) <|> check (es.all entryOk) Cause.illegalEvent)
      (match s.firstEligible c.g es 0 with
       | some (k, e) => s.wanyTakes c.id c.slices c.pc (sreg d) k e
       | none => c.park (.wany (sreg d) es))

/-- EVMASK (R335). -/
def execEvmask (a : RegField) (s : State) : Host.Outcome State Fault Refusal :=
  withIssue s fun c =>
    let x := c.readS a
    c.run (c.onceStop (scalarOk a) (x.toNat / 2 ^ 27 == 0) true (regsOf a false) [] [] [])
      (c.onceDo (c.next s { c.g with evmask := x.extractLsb' 0 27 }))

/-- EVCLR (R335). -/
def execEvclr (a : RegField) (s : State) : Host.Outcome State Fault Refusal :=
  withIssue s fun c =>
    let x := c.readS a
    c.run (c.onceStop (scalarOk a) (x.toNat / 2 ^ 19 == 0) true (regsOf a false) [] [] [])
      (c.onceDo (c.next s { c.g with evpend := c.g.evpend &&& ~~~(x.extractLsb' 0 19) }))

/-- EVGET (R335). -/
def execEvget (d : RegField) (s : State) : Host.Outcome State Fault Refusal :=
  withIssue s fun c =>
    c.run (c.onceStop (scalarDst d) true true [] [] [] (regsOf d false)) (c.scalarResult d c.g.eventWord)

/-! ### Mailboxes -/

/-- The gang of a team with an index, if it has not ended. -/
def State.member (s : State) (team index : Nat) : Option (Nat × Gang) :=
  (s.teamGangs team).find? (fun e => e.2.index == index && !e.2.ended)

/-- A group of the team is parked at an MBSEND to mailbox m of the gang with this index (R329). -/
def State.sendersWait (s : State) (team index m : Nat) : Bool :=
  (s.teamGangs team).any (fun e => e.2.groups.any (fun x => match x.park with
    | some (.mbsend t n _) => t == index && n == m
    | _ => false))

/-- MBSEND (R329): a release, it waits for the gang's earlier loads (R212). Senders that are parked at the mailbox fill it first,
in the order in which they came. -/
def execMbsend (n : ByteField) (a b : RegField) (s : State) : Host.Outcome State Fault Refusal :=
  withIssue s fun c =>
    let x := (c.readS a).toNat
    let gangs := match c.team with
      | some t => t.gangs
      | none => 0
    let v := BitVec.ofNat 64 (c.spair (sreg b))
    c.run (c.onceStop (decide (n.toNat ≤ 7) && scalarOk a && pairOk b) (x / 128 == 0 && decide (x < gangs)) true
        (regsOf a false) (regsOf b true) [] [] <|> (if c.once then c.releaseFirst else none))
      (c.onceDo (match s.member c.g.team x with
        | none => c.skip
        | some (id, g) =>
          if (g.mailbox n.toNat).isNone && !s.sendersWait c.g.team x n.toNat then
            c.skip.modGang id (fun g => g.putMailbox n.toNat (some v))
          else c.park (.mbsend x n.toNat v)))

/-- The pair of scalar registers from s[d] receives a value. -/
def Gang.putPair (g : Gang) (d : Nat) (v : DWord) : Gang :=
  g.writeNow [(.s d, v.extractLsb' 0 32), (.s (d + 1), v.extractLsb' 32 32)]

/-- MBRECV (R330). -/
def execMbrecv (d : RegField) (n : ByteField) (s : State) : Host.Outcome State Fault Refusal :=
  withIssue s fun c =>
    c.run (c.onceStop (decide (n.toNat ≤ 7) && pairOk d) true true [] [] [] (regsOf d true))
      (c.onceDo (match c.g.mailbox n.toNat with
        | some v => c.next s ((c.g.putMailbox n.toNat none).putPair (sreg d) v)
        | none => c.park (.mbrecv (sreg d) n.toNat)))

/-! ### Counters and the deadline -/

/-- The request counts on a counter of its gang: a QSEND that names one (R372), an FGET whose follow-on has not yet passed
to the engine (R176). -/
def FarReq.counts (r : FarReq) : Bool := match r.kind with
  | .qsend _ kc => kc.isSome
  | .get b => b.fmma.isSome && !r.performed
  | _ => false

/-- The operations that the engines hold for a gang, those held by a freeze and those of a saved team among them. -/
def State.opsOf (s : State) (g : Gang) : List EngineOp := match s.team? g.team with
  | some t =>
    if t.status == .saved then t.saved.flatMap (fun k => k.ops ++ k.held.map (fun o => o.2))
    else (s.core g.core).engine ++ (s.core g.core).heldMma.map (fun o => o.2)
  | none => (s.core g.core).engine

/-- A counted operation of the gang, accepted before number n, has not completed (R326). -/
def State.countedBefore (s : State) (id : Nat) (g : Gang) (n : Nat) : Bool :=
  (s.opsOf g).any (fun o => o.gang == id && decide (o.counted < n)) ||
  s.remotes.any (fun e => match e.2 with
    | some r => r.gang == id && r.kc.isSome && decide (e.1 < n)
    | none => false) ||
  s.reqs.any (fun e => match e.2 with
    | some r => r.gang == id && r.counts && decide (e.1 < n)
    | none => false)

/-- Tokens end from the earliest on, up to the first that an earlier operation holds. -/
def sweepGo (held : Nat → Bool) : List (Nat × Nat) → Gang → Gang
  | [], g => { g with tokens := [] }
  | (k, n) :: ts, g =>
    if held n then { g with tokens := (k, n) :: ts } else sweepGo held ts (g.putCounter k (g.counter k - 1))

/-- The tokens of a gang that have come to an end leave their counters (R326). -/
def State.sweepTokens (s : State) (id : Nat) : State :=
  s.modGang id (fun g => sweepGo (s.countedBefore id g) g.tokens g)

/-- KINC: a token that ends when every earlier counted operation of the gang has completed (R326). -/
def execKinc (n : ByteField) (s : State) : Host.Outcome State Fault Refusal :=
  withIssue s fun c =>
    let k := n.toNat
    c.run (c.onceStop (decide (k ≤ 7)) true true [] [] [] [])
      (c.onceDo
        (if c.g.counter k = 4095 then c.waitHere
         else
           let s1 := c.next { s with next := s.next + 1 }
             { c.g.putCounter k (c.g.counter k + 1) with tokens := c.g.tokens ++ [(k, s.next)] }
           s1.sweepTokens c.id))

/-- A fault posted against counter k (R190). -/
def Posted.ofCounter (k : Nat) (p : Posted) : Bool := p.at_ == .counter k

/-- KWAITLE (R327). -/
def execKwaitle (n : ByteField) (a : RegField) (s : State) : Host.Outcome State Fault Refusal :=
  withIssue s fun c =>
    let k := n.toNat
    let t := (c.readS a).toNat
    c.run (c.oncePosted (decide (k ≤ 7) && scalarOk a) (t / 4096 == 0) (regsOf a false) [] [] (Posted.ofCounter k))
      (c.onceDo (if c.g.counter k ≤ t then c.skip else c.park (.kwaitle k t)))

/-- KRD (R328). -/
def execKrd (d : RegField) (n : ByteField) (s : State) : Host.Outcome State Fault Refusal :=
  withIssue s fun c =>
    let k := n.toNat
    c.run (c.oncePosted (decide (k ≤ 7) && scalarDst d) true [] [] (regsOf d false) (Posted.ofCounter k))
      (c.scalarResult d (BitVec.ofNat 32 (c.g.counter k)))

/-- DEADL: C = 0 disarms the deadline and latches nothing; an old count that reaches 0 in the cycle in which a DEADL replaces
it still latches (R332). -/
def execDeadl (a : RegField) (s : State) : Host.Outcome State Fault Refusal :=
  withIssue s fun c =>
    c.run (c.onceStop (scalarOk a) true true (regsOf a false) [] [] [])
      (c.onceDo (c.next s { (if c.g.deadline = 1 ∧ c.readS a ≠ 0 then c.g.latch 18 else c.g) with deadline := (c.readS a).toNat }))

end Sys2Proof.Machine
end

