-- ==== Sys2Proof/Machine/Far.lean ====
section
/-! DEFINITION. Far requests at issue (R224-R236, R241-R247, R270-R272) and the waits on tags and chunks, 0x80-0x8F
(R274-R280). -/

namespace Sys2Proof.Machine

/-! ### Tags -/

/-- A tag held by another team (R228). -/
def Core.tagForeign (k : Core) (team t : Nat) : Bool := (k.tag t).state != .free && (k.tag t).owner != team

/-- A request accepted under a tag (R227, R228). -/
def Tag.accept (g : Tag) (team : Nat) : Tag :=
  { g with state := .busy, pend := g.pend + 1, owner := team }

/-- A request under the tag ends; failed: its cause (R227, Table 8.3). -/
def Tag.finish (g : Tag) (failed : Option Byte) : Tag :=
  let g1 := { g with pend := g.pend - 1, state := if g.pend ≤ 1 then .ready else g.state }
  match failed with
  | some c => if g1.err then g1 else { g1 with err := true, cause := c }
  | none => g1

/-- The status word (Table 8.3). -/
def Tag.word (g : Tag) : Nat :=
  (match g.state with
   | .free => 0
   | .busy => 1
   | .ready => 2) + 4 * g.err.toNat + 256 * g.cause.toNat + 65536 * g.pend

/-! ### Chunk arrival maps -/

/-- Where a request writes on the local side: 0 scratchpad, 1 operand slots, 2 vault; first byte; length. -/
structure Landing where
  loc : Nat
  base : Nat
  len : Nat

/-- The chunks of a landing, counted from its first. -/
def Landing.chunks (l : Landing) : List Nat :=
  if l.len = 0 then [] else List.range ((l.base + l.len - 1) / 512 - l.base / 512 + 1)

/-- Local offsets of chunk k: the first, and the first beyond it. -/
def Landing.bounds (l : Landing) (k : Nat) : Nat × Nat :=
  ((l.base / 512 + k) * 512 - l.base, min l.len ((l.base / 512 + k + 1) * 512 - l.base))

/-- The chunk of the arrival map that chunk k falls in, for an allocation of p bytes (R192, R234). -/
def Landing.mapChunk (l : Landing) (p k : Nat) : Nat :=
  if l.loc = 0 then (l.base / 512 + k) * 512 % p / 512 else l.base / 512 + k

/-- A writer of chunk c of the slot map or of the scratchpad map is outstanding: the bit clears (R234). -/
def TeamCore.chunkOut (t : TeamCore) (slots : Bool) (c : Nat) : TeamCore :=
  if slots then { t with slotWriters := Tbl.modify 0 t.slotWriters c (· + 1) }
  else { t with spadWriters := Tbl.modify 0 t.spadWriters c (· + 1) }

/-- The ERR mark of chunk c of either map clears (R234). -/
def TeamCore.chunkClean (t : TeamCore) (slots : Bool) (c : Nat) : TeamCore :=
  if slots then { t with slotErr := t.slotErr.filter (· != c) } else { t with spadErr := t.spadErr.filter (· != c) }

/-- A writer of chunk c has written its last byte there, or failed there (R234). -/
def TeamCore.chunkIn (t : TeamCore) (slots : Bool) (c : Nat) (failed : Bool) : TeamCore :=
  if slots then { t with slotWriters := Tbl.modify 0 t.slotWriters c (· - 1),
                         slotErr := if failed && !t.slotErr.contains c then c :: t.slotErr else t.slotErr }
  else { t with spadWriters := Tbl.modify 0 t.spadWriters c (· - 1),
                spadErr := if failed && !t.spadErr.contains c then c :: t.spadErr else t.spadErr }

/-- The arrival bit of a chunk (R234). -/
def TeamCore.arrived (t : TeamCore) (slots : Bool) (c : Nat) : Bool :=
  (if slots then Tbl.get 0 t.slotWriters c else Tbl.get 0 t.spadWriters c) == 0

/-- A landing has a map: not in the vault, nor in a scratchpad that the team does not have (R234). -/
def Landing.mapped (l : Landing) (t : Team) : Bool := l.loc == 1 || (l.loc == 0 && t.alloc != 0)

/-- A chunk of a map that a landing covers, for an allocation of p bytes. -/
def Landing.covers (l : Landing) (p : Nat) (x : Bool × Nat) : Bool :=
  x.1 == (l.loc == 1) && l.chunks.any (fun c => l.mapChunk p c == x.2)

/-- Failures in chunks whose ERR marks clear are no longer theirs (R234). -/
def State.forgetChunks (s : State) (team core : Nat) (f : Bool × Nat → Bool) : State :=
  let s1 := (listed s.gangs).foldl (fun acc e =>
    if e.2.team = team ∧ e.2.core = core ∧ e.2.posted.any (fun p => p.chunks.any f) then
      acc.putGang e.1 { e.2 with posted := e.2.posted.map (fun p => { p with chunks := p.chunks.filter (fun x => !f x) }) }
    else acc) s
  (listed s1.reqs).foldl (fun acc e =>
    if e.2.team = team ∧ e.2.core = core ∧ e.2.badChunks.any f then
      acc.putReq e.1 { e.2 with badChunks := e.2.badChunks.filter (fun x => !f x) } else acc) s1

/-- A change of a map at every chunk of a landing that has one. -/
def State.atChunks (s : State) (team core : Nat) (l : Landing) (f : Bool → Nat → TeamCore → TeamCore) : State :=
  s.modTeam team (fun t =>
    if l.mapped t then
      t.modCore core (fun k => l.chunks.foldl (fun k c => f (l.loc == 1) (l.mapChunk t.alloc c) k) k)
    else t)

/-- The bit of every chunk of a landing clears (R234). -/
def State.bitsOut (s : State) (team core : Nat) (l : Landing) : State :=
  s.atChunks team core l (fun slots c k => k.chunkOut slots c)

/-- The ERR mark of every chunk of a landing clears (R234). -/
def State.marksOut (s : State) (team core : Nat) (l : Landing) : State :=
  match s.team? team with
  | none => s
  | some t =>
    if l.mapped t then
      (s.atChunks team core l (fun slots c k => k.chunkClean slots c)).forgetChunks team core (l.covers t.alloc)
    else s

/-- Every chunk of a landing clears at issue, with its ERR mark (R234). -/
def State.chunksOut (s : State) (team core : Nat) (l : Landing) : State := (s.bitsOut team core l).marksOut team core l

/-- Chunk c of a landing is in, or has failed. -/
def State.chunkIn (s : State) (team core : Nat) (l : Landing) (c : Nat) (failed : Bool) : State :=
  s.modTeam team (fun t =>
    if l.mapped t then t.modCore core (fun k => k.chunkIn (l.loc == 1) (l.mapChunk t.alloc c) failed) else t)

/-- Bytes at scratchpad offsets that wrap (R192, R232). -/
def State.padReadRun (s : State) (team core off n : Nat) : List Byte :=
  (List.range n).map (fun i => BitVec.ofNat 8 (s.padRead team core (match s.team? team with
    | some t => (off + i) % t.alloc
    | none => 0) 1))
def State.padWriteRun (s : State) (team core off : Nat) (bs : List Byte) : State :=
  match s.team? team with
  | none => s
  | some t =>
    if t.alloc = 0 then s
    else s.putTeam team (t.modCore core (fun k =>
      { k with scratch := (bs.zipIdx).foldl (fun m x => Memory.writeByte m ((off + x.2) % t.alloc) x.1) k.scratch }))

/-! ### Far pages (R224-R226) -/

/-- A run of far bytes on one page: local offset, far address, length, the page's size and entry if it is mapped, what the
request asks of it. -/
structure RawPiece where
  local_ : Nat
  far : Nat
  len : Nat
  page : Option (Nat × Nat)
  need : Need

/-- A far run cut at the pages it touches; n bounds the cuts. Addresses are taken modulo 2^56: those of
the tensor box as R231 gives, those of every other range by DESIGN CHOICE (log 72). -/
def State.cutGo (s : State) (part : Nat) (need : Need) : Nat → Nat → Nat → Nat → List RawPiece
  | 0, _, _, _ => []
  | n + 1, loc, far, len =>
    if len = 0 then []
    else
      let a := far % 2 ^ 56
      let pg := s.page part a
      let room := match pg with
        | some (sz, _) => sz - a % sz
        | none => 65536 - a % 65536
      let here := min len room
      ⟨loc, a, here, pg, need⟩ :: State.cutGo s part need n (loc + here) (a + here) (len - here)

def State.cut (s : State) (part : Nat) (need : Need) (loc far len : Nat) : List RawPiece :=
  s.cutGo part need (len / 65536 + 2) loc far len

/-- The module of a piece whose page is a far page. -/
def RawPiece.modid? (p : RawPiece) : Option Nat := match p.page with
  | some (_, e) => if Pte.far e then some (Pte.modid e) else none
  | none => none

/-- The cause for which the package refuses a piece (Table 8.2). -/
def RawPiece.refuse (p : RawPiece) : Option Byte := match p.page with
  | none => some Cause.translation
  | some (_, e) =>
    if !Pte.far e then some Cause.farSpace
    else if (p.need.rd && !Pte.rd e) || (p.need.wr && !Pte.wr e) then some Cause.permission
    else none

/-- The module's trust for the partition is 2 (R407). -/
def RawPiece.trusted (trust : Tbl Nat) (p : RawPiece) : Bool := match p.modid? with
  | some m => Tbl.get 0 trust m == 2
  | none => true

/-- A piece as it is sent (R225). -/
def RawPiece.piece (p : RawPiece) : Piece := match p.page with
  | some (sz, e) =>
    { local_ := p.local_, far := p.far, page := p.far / sz * sz, modid := Pte.modid e,
      offset := Pte.base e + p.far % sz, len := p.len, mseq := BitVec.ofNat 16 (Pte.mseq e) }
  | none => { local_ := p.local_, far := p.far, page := 0, modid := 0, offset := 0, len := p.len, mseq := 0 }

/-- A failure found by the package. -/
def pkgFail (c : Byte) (addr : Nat) : Nat × FarFail := (0, ⟨c, addr, false, 0⟩)

/-- The package's checks in the order of R226: trust, each page, one module. -/
def packageCheck (trust : Tbl Nat) (oneModule : Bool) (ps : List RawPiece) : Option (Nat × FarFail) :=
  match ps.find? (fun p => !p.trusted trust) with
  | some p => some (pkgFail Cause.farSpace p.far)
  | none => match ps.findSome? (fun p => p.refuse.map (fun c => pkgFail c p.far)) with
    | some f => some f
    | none =>
      if oneModule then
        match ps.find? (fun p => p.modid? != (ps.head?.bind RawPiece.modid?)) with
        | some p => some (pkgFail Cause.farSpace p.far)
        | none => none
      else none

/-! ### The Lintel -/

/-- The resident gangs of a core (R50, R235). -/
def State.coreGangs (s : State) (core : Nat) : List (Nat × Gang) :=
  (listed s.gangs).filter (fun e => e.2.core == core && s.resident e.2)

/-- Units outstanding of a gang, and of a core's pool (R235). -/
def State.outstanding (s : State) (id : Nat) : Nat :=
  (listed s.reqs).foldl (fun acc r => if r.2.gang == id then acc + r.2.charge else acc) 0
def State.pool (s : State) (core : Nat) : Nat :=
  (listed s.reqs).foldl (fun acc r => if r.2.pool == core then acc + r.2.charge else acc) 0

/-- Units fixed by WINSET on a core, but for one gang's. -/
def State.fixedUnits (s : State) (core but : Nat) : Nat :=
  (s.coreGangs core).foldl (fun acc e => if e.1 = but then acc else acc + e.2.fixedAllow.getD 0) 0

/-- A gang's allowance in units (R235). -/
def State.allowance (s : State) (g : Gang) : Nat :=
  match g.fixedAllow with
  | some n => n
  | none =>
    let shared := ((s.coreGangs g.core).filter (fun e => e.2.fixedAllow.isNone)).length
    (16384 - s.fixedUnits g.core 0) / shared

/-- A request of charge c passes its gang's allowance test (R236). -/
def State.allowed (s : State) (id : Nat) (g : Gang) (c : Nat) : Bool :=
  decide (s.outstanding id + c ≤ s.allowance g) || s.outstanding id == 0

/-- A group parked for the pool of a core before number n (R236). -/
def State.poolWaits (s : State) (core n : Nat) : Bool :=
  (s.coreGangs core).any (fun e => e.2.groups.any (fun x => match x.park with
    | some (.lintel _ true _) => decide (x.since < n)
    | _ => false))

/-- The group's place among those parked for the pool: its own if it has one, else the last. -/
def Ctx.poolPlace (c : Ctx) : Nat := match c.grp.park with
  | some (.lintel _ true _) => c.grp.since
  | _ => c.s.next

/-- The group parks for the Lintel, in the place it has. -/
def Ctx.parkLintel (c : Ctx) (charge : Nat) : State :=
  let pool := c.s.allowed c.id c.g charge
  (c.park (.lintel charge pool false)).modGang c.id (fun g =>
    g.modGroup c.slices (fun x => { x with since := if pool then c.poolPlace else x.since }))

/-- The pool can take the charge, and no request parked earlier for it waits (R236). -/
def Ctx.poolTakes (c : Ctx) (charge : Nat) : Bool :=
  decide (c.s.pool c.g.core + charge ≤ 16384) && !c.s.poolWaits c.g.core c.poolPlace

/-! ### Acceptance (R271) -/

/-- A far request as it is presented: its tag, its kind, its charge, its far runs, those it copies from, whether they must
lie on one module, where it lands, and the address of a slot or row that the team lacks. -/
structure FarCall where
  tag : Nat
  kind : FarKind
  charge : Nat
  pieces : List RawPiece
  srcPieces : List RawPiece
  oneModule : Bool
  landing : Option Landing
  missing : Option Nat
  walk : Option Walk
  src : Tbl (Option Byte)
  fails : List (Nat × FarFail)

/-- A call with nothing but its tag and its kind. -/
def FarCall.plain (t : Nat) (k : FarKind) : FarCall :=
  { tag := t, kind := k, charge := 0, pieces := [], srcPieces := [], oneModule := false, landing := none,
    missing := none, walk := none, src := [], fails := [] }

/-- A receive that has no slot, whose length is not known (R242). -/
def FarKind.unsized : FarKind → Bool
  | .mcrecv _ _ none => true
  | _ => false

/-- The request is accepted: the tag becomes BUSY, the chunk bits clear, with the ERR marks unless the chunks that it writes
are still to be known (log 26), the far pages are translated, and the request is sent unless a check of the package fails (R225, R226, R271, step 6). -/
def Ctx.acceptIn (c : Ctx) (s : State) (f : FarCall) (g : Gang) : State :=
  let n := s.next
  let fail := packageCheck (s.part c.part).trust f.oneModule (f.pieces ++ f.srcPieces)
  let r : FarReq :=
    { gang := c.id, team := c.g.team, core := c.g.core, tag := f.tag, opc := c.pc, kind := f.kind, charge := f.charge,
      pool := c.g.core,
      pieces := if fail.isSome then [] else f.pieces.map RawPiece.piece,
      srcPieces := if fail.isSome then [] else f.srcPieces.map RawPiece.piece,
      arrived := [], sent := fail.isNone, src := f.src,
      chunks := match f.landing with
        | some l => l.chunks
        | none => [],
      landed := 0, fails := fail.toList ++ f.fails, badChunks := [], posted := false, left := [], held := false,
      walk := f.walk, performed := false }
  let s0 := (f.pieces ++ f.srcPieces).foldl (fun s p => s.cache c.part p.far) { s with next := n + 1 }
  let s1 := (s0.putReq n r).modCore c.g.core (fun k => k.putTag f.tag ((k.tag f.tag).accept c.g.team))
  match f.landing with
  | some l =>
    let s2 := s1.putGang c.id g
    c.nextIn (if f.kind.unsized then s2.bitsOut c.g.team c.g.core l else s2.chunksOut c.g.team c.g.core l)
  | none => c.next s1 g

/-- The checks of R271 after those of the operand block: tag, slots, PEND, the Corbel, the Lintel, which a fabric request
does not pass (R285, R372). corbel: what an FMCAST without a free slot does. -/
def Ctx.present (c : Ctx) (f : FarCall) (corbel : Option State) (accept : State) : State :=
  if c.core.tagForeign c.g.team f.tag then c.onceFault Cause.slotState (tagMark f.tag)
  else match f.missing with
    | some a => c.onceFault Cause.slotState a
    | none =>
      if (c.core.tag f.tag).pend = 4095 then c.waitHere
      else match corbel with
        | some st => st
        | none =>
          if !f.kind.isFar || (c.s.allowed c.id c.g f.charge && c.poolTakes f.charge) then accept
          else c.parkLintel f.charge

/-- The checks of a far request: those of R62 on the word, and, under once(), those of the operand block, which is read only
then (R271). -/
def Ctx.farStop (c : Ctx) (fields : Bool) (t : ByteField) (regs : List RegRef) (block : Option Stop) : Option Stop :=
  c.onceStop (fields && decide (t.toNat ≤ 63)) true true (if c.once then regs else []) [] [] [] <|>
  (if c.once then block else none)

/-- Words of an operand block. -/
def Ctx.words (c : Ctx) (a : RegField) (n : Nat) : List Word := c.block (sreg a) n

/-! ### FGET and FPUT (R230-R233) -/

/-- The fields of a tensor descriptor (Table 8.4). -/
def BoxDesc.of (w : List Word) (follow : List Word) : BoxDesc :=
  let d := dword w
  { far := d 0 + 2 ^ 32 * bits (d 1) 23 0, loc := bits (d 1) 25 24,
    laddr := d 2 + 2 ^ 32 * bits (d 3) 23 0, ndim := bits (d 1) 27 26 + 1, esz := 2 ^ bits (d 1) 29 28,
    b0 := bits (d 4) 15 0 + 1, b1 := bits (d 5) 11 0 + 1, b2 := bits (d 4) 23 16 + 1, b3 := bits (d 4) 31 24 + 1,
    st1 := bits (d 6) 19 0, st2 := bits (d 7) 19 0, st3 := bits (d 5) 31 12,
    bar := if bit (d 1) 30 then some (bits (d 3) 27 24) else none,
    fmma := if bit (d 1) 31 then some (bits (d 3) 30 28, follow) else none }

/-- Bytes of the box (R231). -/
def BoxDesc.size (b : BoxDesc) : Nat := b.esz * b.b0 * b.b1 * b.b2 * b.b3
/-- FMREG of a descriptor. -/
def fmreg (w : List Word) : Nat := bits (dword w 6) 24 20

/-- The limits of Table 8.4, R231, R232 and R233. -/
def BoxDesc.ok (put : Bool) (w : List Word) (b : BoxDesc) : Bool :=
  let d := dword w
  decide (b.loc ≠ 3) && b.far % b.esz == 0 && b.laddr % 16 == 0 && (b.loc == 2 || bits (d 3) 23 0 == 0) &&
  !bit (d 3) 31 && bits (d 6) 31 25 == 0 && bits (d 7) 31 20 == 0 &&
  (b.bar.isSome || bits (d 3) 27 24 == 0) && (b.fmma.isSome || (bits (d 3) 30 28 == 0 && fmreg w == 0)) &&
  decide (2 * fmreg w ≤ 48) &&
  (decide (2 ≤ b.ndim) || (b.b1 == 1 && b.st1 == 0)) && (decide (3 ≤ b.ndim) || (b.b2 == 1 && b.st2 == 0)) &&
  (decide (4 ≤ b.ndim) || (b.b3 == 1 && b.st3 == 0)) && decide (b.size ≤ 262144) &&
  (b.loc != 1 || decide (b.laddr + b.size ≤ 524288)) &&
  (if put then b.loc != 1 && b.bar.isNone && b.fmma.isNone else b.fmma.isNone || b.loc == 1)

/-- The far runs of the box, in increasing local offset: local offset and far address of each row of dimension 0 (R231). -/
def BoxDesc.rows (b : BoxDesc) : List (Nat × Nat) :=
  (List.range (b.b1 * b.b2 * b.b3)).map (fun i =>
    (b.esz * b.b0 * i,
      b.far + 16 * ((i % b.b1) * b.st1 + (i / b.b1 % b.b2) * b.st2 + (i / (b.b1 * b.b2)) * b.st3)))

def State.boxPieces (s : State) (part : Nat) (need : Need) (b : BoxDesc) : List RawPiece :=
  b.rows.flatMap (fun r => s.cut part need r.1 r.2 (b.esz * b.b0))

/-- The local side of a box. -/
def BoxDesc.landing (b : BoxDesc) : Landing := ⟨b.loc, b.laddr, b.size⟩

/-- The first byte of a run of slots that the team does not hold (R159, R232). -/
def Core.slotGap (k : Core) (team base len : Nat) : Option Nat :=
  ((List.range 32).find? (fun n => decide (n * 16384 < base + len) && decide (base < (n + 1) * 16384) &&
    k.slotHolder n != some team)).map (fun n => slotMark (max base (n * 16384)))

/-- The first slot or row that a matrix operation names and its team does not hold (R159, R174). DEDUCED (log 22): slots come before
rows. -/
def Core.mmaGap (k : Core) (team : Nat) (d : MDesc) : Option Nat :=
  match (d.slots.sortedBy (fun a b => decide (a ≤ b))).find? (fun n => k.slotHolder n != some team) with
  | some n => some (slotMark (16384 * n))
  | none => (d.rows.find? (fun r => k.blockHolder (r / 32) != some team)).map rowMark

/-- The words of the follow-on descriptor, if the tensor descriptor asks for one. -/
def Ctx.followWords (c : Ctx) (w : List Word) : List Word := if bit (dword w 1) 31 then c.block (2 * fmreg w) 8 else []

/-- Registers that FGET reads: its block and the follow-on descriptor's (R78). -/
def Ctx.fgetRegs (c : Ctx) (a : RegField) : List RegRef :=
  let w := c.words a 8
  sregs (sreg a) 8 ++ (if bit (dword w 1) 31 && decide (2 * fmreg w ≤ 48) then sregs (2 * fmreg w) 8 else [])

/-- The stop of an operand block: ILLEGAL_OPERAND. -/
def operandStop (ok : Bool) : Option Stop := check ok Cause.illegalOperand

/-- FGET (R230-R233, R270, R271). -/
def execFget (a : RegField) (t : ByteField) (s : State) : Host.Outcome State Fault Refusal :=
  withIssue s fun c =>
    let w := c.words a 8
    let b := BoxDesc.of w (c.followWords w)
    let follow := match b.fmma with
      | some (_, ws) => MDesc.ok false ws
      | none => true
    let gap := match (if b.loc = 1 then c.core.slotGap c.g.team b.laddr b.size else none), b.fmma with
      | some x, _ => some x
      | none, some (_, ws) => c.core.mmaGap c.g.team (MDesc.of ws)
      | none, none => none
    let f := { FarCall.plain t.toNat (.get b) with
      charge := (b.size + 511) / 512, pieces := s.boxPieces c.part Need.load b, landing := some b.landing, missing := gap }
    c.run (c.farStop (blockOk a 48) t (c.fgetRegs a) (operandStop (b.ok false w) <|> operandStop follow))
      (c.onceDo (match b.fmma with
        | some (k, _) =>
          c.present f (if c.g.counter k = 4095 then some c.waitHere else none)
            (c.acceptIn s f (c.g.putCounter k (c.g.counter k + 1)))
        | none => c.present f none (c.acceptIn s f c.g)))

/-- The bytes of a local source, page by page for the vault: bytes, and the failures of pages (R214, R232). -/
def Ctx.readLocal (c : Ctx) (l : Landing) : Tbl (Option Byte) × List (Nat × FarFail) :=
  if l.loc = 2 then
    (c.s.run c.part l.base l.len Need.load).foldl (fun acc r => match r.2.2 with
      | .ok pa =>
        let bad := (c.s.badIn pa r.2.1).map (fun w => (max pa (8 * w) - pa + (r.1 - l.base), max pa (8 * w) - pa + r.1))
        (acc.1 ++ dropChunks l.base bad (bytesFrom (r.1 - l.base) (Memory.readBytes c.s.vault pa r.2.1)),
          acc.2 ++ eccFails localKey bad)
      | .error e => (acc.1, acc.2 ++ [(localKey (r.1 - l.base), ⟨e, r.1, false, 0⟩)])) ([], [])
  else (bytesFrom 0 (c.s.padReadRun c.g.team c.g.core l.base l.len), [])

/-- The physical runs of a local source in the vault, which its reader merges (R204). -/
def Ctx.localRuns (c : Ctx) (l : Landing) : List (Nat × Nat) :=
  if l.loc = 2 then okRuns (c.s.run c.part l.base l.len Need.load) else []

/-- FPUT: its source is read after every earlier store of the gang, in any space (R204, R214, R230-R232). -/
def execFput (a : RegField) (t : ByteField) (s : State) : Host.Outcome State Fault Refusal :=
  withIssue s fun c =>
    let w := c.words a 8
    let b := BoxDesc.of w []
    let src := c.readLocal b.landing
    let f := { FarCall.plain t.toNat (.put b) with
      charge := (b.size + 511) / 512, pieces := s.boxPieces c.part Need.store b, src := src.1, fails := src.2 }
    c.run (c.farStop (blockOk a 48) t (sregs (sreg a) 8) (operandStop (b.ok true w) <|>
        c.allStoresFirst))
      (c.onceDo (c.present f none ((c.acceptIn s f c.g).mergeRuns c.agent (c.localRuns b.landing))))

/-! ### FCOPY, FRED, FFILL (R243) -/

/-- The limits of Table 8.7. red, fill: which of the three. -/
def engineDescOk (red fill : Bool) (w : List Word) : Bool :=
  let d := dword w
  let dva := d 0 + 2 ^ 32 * bits (d 1) 23 0
  let sva := d 2 + 2 ^ 32 * bits (d 3) 23 0
  bits (d 1) 31 26 == 0 && (if red then bits (d 1) 25 24 != 3 else bits (d 1) 25 24 == 0) && dva % 8 == 0 &&
  (fill || (sva % 8 == 0 && bits (d 3) 31 24 == 0)) && d 4 % 8 == 0 && decide (8 ≤ d 4) &&
  d 5 == 0 && d 6 == 0 && d 7 == 0

/-- The fields of Table 8.7: destination, source, pattern, length, format. -/
def engineDva (w : List Word) : Nat := dword w 0 + 2 ^ 32 * bits (dword w 1) 23 0
def engineSva (w : List Word) : Nat := dword w 2 + 2 ^ 32 * bits (dword w 3) 23 0
def enginePat (w : List Word) : DWord := BitVec.ofNat 64 (dword w 2 + 2 ^ 32 * dword w 3)

/-- A module engine's request (R226, R243, R244). -/
def Ctx.engineCall (c : Ctx) (t : ByteField) (k : FarKind) (dst src : Option Need) (w : List Word) : FarCall :=
  { FarCall.plain t.toNat k with
    pieces := match dst with
      | some n => c.s.cut c.part n 0 (engineDva w) (dword w 4)
      | none => []
    srcPieces := match src with
      | some n => c.s.cut c.part n 0 (engineSva w) (dword w 4)
      | none => []
    oneModule := src.isSome }

/-- FCOPY (R243, R244). -/
def execFcopy (a : RegField) (t : ByteField) (s : State) : Host.Outcome State Fault Refusal :=
  withIssue s fun c =>
    let w := c.words a 8
    let f := c.engineCall t (.copy (engineDva w) (engineSva w) (dword w 4)) (some Need.store) (some Need.load) w
    c.run (c.farStop (blockOk a 48) t (sregs (sreg a) 8) (operandStop (engineDescOk false false w)))
      (c.onceDo (c.present f none (c.acceptIn s f c.g)))

/-- FRED: a read-modify-write of its destination (R243, R244). -/
def execFred (a : RegField) (t : ByteField) (s : State) : Host.Outcome State Fault Refusal :=
  withIssue s fun c =>
    let w := c.words a 8
    let f := c.engineCall t (.red (bits (dword w 1) 25 24) (engineDva w) (engineSva w) (dword w 4)) (some Need.atomic)
      (some Need.load) w
    c.run (c.farStop (blockOk a 48) t (sregs (sreg a) 8) (operandStop (engineDescOk true false w)))
      (c.onceDo (c.present f none (c.acceptIn s f c.g)))

/-- FFILL (R243, R244). -/
def execFfill (a : RegField) (t : ByteField) (s : State) : Host.Outcome State Fault Refusal :=
  withIssue s fun c =>
    let w := c.words a 8
    let f := c.engineCall t (.fill (engineDva w) (dword w 4) (enginePat w)) (some Need.store) none w
    c.run (c.farStop (blockOk a 48) t (sregs (sreg a) 8) (operandStop (engineDescOk false true w)))
      (c.onceDo (c.present f none (c.acceptIn s f c.g)))

/-! ### FWALK and FRULE (R246-R250) -/

/-- The key of a walk: its first KLEN bytes (Table 8.8). -/
def walkKey (w : List Word) : List Byte :=
  ((List.range 4).flatMap (fun i => leBytes 4 (dword w (4 + i))) ++
    (List.range 4).flatMap (fun i => leBytes 4 (dword w (8 + i)))).take (bits (dword w 2) 20 16 + 1)

/-- A walk at its start (R247, R248). -/
def walkOf (w : List Word) : Walk :=
  let d := dword w
  { start := d 0 + 2 ^ 32 * bits (d 1) 23 0, prog := bits (d 1) 27 24, pol := bits (d 1) 29 28,
    limit := bits (d 2) 15 0, key := walkKey w, res := bits (d 3) 19 0, modid := 0, mseq := 0, words := [],
    p := 0, w := [], staged := [], steps := 0, retries := 0, rule := 0, run := 0, reads := 0, started := false,
    wait := none, result := none }

/-- The key is longer than 16 bytes: twelve registers are read (R247). -/
def longKey (w : List Word) : Bool := decide (16 < bits (dword w 2) 20 16 + 1)

/-- The limits of Table 8.8. -/
def walkDescOk (w : List Word) : Bool :=
  let d := dword w
  bits (d 1) 31 30 == 0 && bits (d 2) 15 0 != 0 && bits (d 2) 31 21 == 0 && bits (d 3) 31 20 == 0 &&
  bits (d 3) 19 0 % 16 == 0

/-- FWALK (R247). -/
def execFwalk (a : RegField) (t : ByteField) (s : State) : Host.Outcome State Fault Refusal :=
  withIssue s fun c =>
    let long := longKey (c.words a 8)
    let fits := !long || decide (sreg a ≤ 44)
    let w := c.words a (if long then 12 else 8)
    let k := walkOf w
    let ps := (s.cut c.part Need.load 0 k.start 1)
    let k1 := match ps with
      | [p] => { k with modid := p.piece.modid, mseq := p.piece.mseq }
      | _ => k
    let f := { FarCall.plain t.toNat .walk with
      charge := 1, pieces := ps, landing := some ⟨0, k.res, 272⟩, walk := some k1 }
    c.run (c.farStop (blockOk a 48) t (sregs (sreg a) (if long && fits then 12 else 8))
        (check (k.pol != 3) Cause.illegalEncoding <|> operandStop (fits && walkDescOk w)))
      (c.onceDo (c.present f none (c.acceptIn s f c.g)))

/-- The reserved bits of a rule word are zero (R249, Table 8.9). -/
def ruleReservedOk (x : Nat) : Bool :=
  match bits x 31 28 with
  | 0 => bits x 24 16 == 0
  | 1 => bits x 19 16 == 0
  | 2 | 3 | 4 => if bit x 21 then bits x 24 22 == 0 else bits x 20 6 == 0
  | 5 => bits x 24 0 == 0
  | 6 => bits x 11 0 == 0
  | 7 => bits x 21 0 == 0
  | 8 | 9 => if bit x 21 then bits x 20 16 == 0 else bits x 17 0 == 0
  | 10 => if bit x 21 then bits x 20 16 == 0 && bits x 15 6 == 0 else bits x 17 0 == 0
  | 11 => bits x 24 16 == 0
  | 12 => bits x 27 0 == 0
  | 13 => bits x 26 25 == 0
  | 14 => bits x 27 0 == 0
  | _ => false

/-- FRULE accepts a word of a program of n words (R250). -/
def ruleOk (n : Nat) (w : Word) : Bool :=
  let x := w.toNat
  let op := bits x 31 28
  op != 15 && ruleReservedOk x &&
  (!(op == 2 || op == 3 || op == 4) || decide (bits x 5 0 < n)) &&
  (op != 13 || decide (bits x 24 16 ≤ 256)) && (!(op == 0 || op == 11) || bits x 15 0 % 8 == 0)

/-- The limits of Table 9.6. -/
def ruleDescOk (w : List Word) : Bool :=
  let d := dword w
  d 0 % 4 == 0 && bits (d 1) 31 24 == 0 && bits (d 2) 7 4 == 0 && bits (d 2) 31 14 == 0 && d 3 == 0 &&
  bits (d 5) 31 24 == 0

/-- The rule words read from the vault: each word, or the cause of its fault with its address (R246). -/
def Ctx.ruleWords (c : Ctx) (va n : Nat) : List (Except (Byte × Nat × Bool) Word) :=
  (List.range n).map (fun i => match c.s.access c.part (va + 4 * i) 4 Need.load with
    | .ok pa =>
      if c.s.spoiled pa 4 Need.load then .error (Cause.permission, va + 4 * i, true)
      else .ok (BitVec.ofNat 32 (Memory.readNat c.s.vault pa 4))
    | .error e => .error (e, va + 4 * i, false))

/-- Where the rule words that can be read stand. -/
def Ctx.ruleRuns (c : Ctx) (va n : Nat) : List (Nat × Nat) := (List.range n).filterMap (fun i =>
  match c.s.access c.part (va + 4 * i) 4 Need.load with
  | .ok pa => some (pa, 4)
  | .error _ => none)

/-- FRULE (R204, R246, R250, R271): the words are read at issue, after every earlier store of the gang. -/
def execFrule (a : RegField) (t : ByteField) (s : State) : Host.Outcome State Fault Refusal :=
  withIssue s fun c =>
    let w := c.words a 6
    let n := bits (dword w 2) 13 8 + 1
    let va := dword w 0 + 2 ^ 32 * bits (dword w 1) 23 0
    let ws := c.ruleWords va n
    let good := ws.filterMap (fun x => match x with
      | .ok v => some v
      | .error _ => none)
    let bad := ws.findSome? (fun x => match x with
      | .ok _ => none
      | .error e => some e)
    let mva := dword w 4 + 2 ^ 32 * bits (dword w 5) 23 0
    let f := { FarCall.plain t.toNat (.rule (bits (dword w 2) 3 0) good mva) with
      pieces := s.cut c.part Need.store 0 mva 1 }
    c.run (c.farStop (blockOk a 50) t (sregs (sreg a) 6)
        (operandStop (ruleDescOk w) <|> c.allStoresFirst <|>
          (if bad.isSome then none else check (good.all (ruleOk n)) Cause.illegalEncoding)))
      (c.onceDo (match bad with
        | some (e, x, ecc) => c.onceFault e x ecc
        | none => c.present f none ((c.acceptIn s f c.g).mergeRuns c.agent (c.ruleRuns va n))))

/-! ### FMCAST and MCRECV (R241, R242) -/

/-- The launch of a team. -/
def State.launchOf (s : State) (team : Nat) : Nat := match s.team? team with
  | some t => t.launch
  | none => 0

/-- The lowest-numbered free slot of a Corbel (R241). -/
def State.freeCorbel (s : State) (cluster : Nat) : Option Nat :=
  (List.range 8).find? (fun n => !(s.corbelSlot cluster n).used)

/-- The oldest slot that a receive may claim (R242). -/
def State.corbelFor (s : State) (cluster core chan launch : Nat) : Option Nat :=
  ((List.range 8).foldl (fun (best : Option (Nat × Nat)) n =>
    let c := s.corbelSlot cluster n
    if c.used && c.chan == chan && c.launch == launch && c.left.contains core && !c.claimed.contains core then
      match best with
      | some (o, m) => if c.order < o then some (c.order, n) else some (o, m)
      | none => some (c.order, n)
    else best) none).map (fun x => x.2)

/-- Where a receive that has claimed no slot may land: the longest tile (Table 8.6, log 26). -/
def tileLanding (dest : Nat) : Landing := ⟨0, dest, 65536⟩

/-- A receive that has claimed slot n lands there: the ERR marks of the tile's chunks clear, and the chunks beyond it are no
longer waited for (R234, R242, log 26). -/
def State.claimSlot (s : State) (id : Nat) (r : FarReq) (chan dest n : Nat) : State :=
  let cl := clusterOf r.core
  let c := s.corbelSlot cl n
  let l : Landing := ⟨0, dest, c.len⟩
  let s1 := s.putCorbel cl n { c with claimed := c.claimed ++ [r.core] }
  let s2 := (s1.putReq id { r with kind := .mcrecv chan dest (some n), chunks := l.chunks }).marksOut r.team r.core l
  ((tileLanding dest).chunks.drop l.chunks.length).foldl (fun s k => s.chunkIn r.team r.core (tileLanding dest) k false) s2

/-- A waiting receive claims a slot, if one is there for it (R242). A receive carried by a saved team waits (R424). -/
def State.tryClaim (s : State) (id : Nat) (r : FarReq) : State :=
  match r.kind with
  | .mcrecv chan dest none =>
    if s.teamRuns r.team then
      match s.corbelFor (clusterOf r.core) r.core chan (s.launchOf r.team) with
      | some n => s.claimSlot id r chan dest n
      | none => s
    else s
  | _ => s

/-- The waiting receives of a cluster claim, in the order of their acceptance. -/
def State.claimAll (s : State) (cluster : Nat) : State :=
  (listed s.reqs).foldl (fun acc e => if clusterOf e.2.core = cluster then acc.tryClaim e.1 e.2 else acc) s

/-- A group parked for the Corbel of a cluster before number n (R241). -/
def State.corbelWaits (s : State) (cluster n : Nat) : Bool :=
  (listed s.gangs).any (fun e => clusterOf e.2.core == cluster && s.resident e.2 && e.2.groups.any (fun x =>
    match x.park with
    | some (.corbel _) => decide (x.since < n)
    | _ => false))

/-- The group's place among those parked for the Corbel. -/
def Ctx.corbelPlace (c : Ctx) : Nat := match c.grp.park with
  | some (.corbel _) => c.grp.since
  | _ => c.s.next

/-- The group parks for a free slot, in the place it has. -/
def Ctx.parkCorbel (c : Ctx) : State :=
  (c.park (.corbel false)).modGang c.id (fun g => g.modGroup c.slices (fun x => { x with since := c.corbelPlace }))

/-- The limits of Table 8.6. -/
def mcastDescOk (w : List Word) : Bool :=
  let d := dword w
  let fromSp := bit (d 1) 24
  d 0 % 16 == 0 && (!fromSp || bits (d 1) 23 0 == 0) && bits (d 1) 31 25 == 0 && d 2 % 512 == 0 &&
  decide (512 ≤ d 2) && decide (d 2 ≤ 65536) && bits (d 3) 3 0 != 0 && bits (d 3) 15 4 == 0 &&
  d 4 == 0 && d 5 == 0 && d 6 == 0 && d 7 == 0

/-- FMCAST (R241): a scratchpad source is read after every earlier store of the gang (R272). -/
def execFmcast (a : RegField) (t : ByteField) (s : State) : Host.Outcome State Fault Refusal :=
  withIssue s fun c =>
    let w := c.words a 8
    let d := dword w
    let cl := clusterOf c.g.core
    let fromSp := bit (d 1) 24
    let srcA := d 0 + 2 ^ 32 * bits (d 1) 23 0
    let slot := s.freeCorbel cl
    let f := { FarCall.plain t.toNat (.mcast cl (slot.getD 0) fromSp srcA (d 2)) with
      charge := if fromSp then 0 else d 2 / 512
      pieces := if fromSp then [] else s.cut c.part Need.load 0 srcA (d 2)
      src := if fromSp then bytesFrom 0 (s.padReadRun c.g.team c.g.core srcA (d 2)) else [] }
    let fill : CorbelSlot :=
      { used := true, full := false, len := d 2, order := s.next, chan := bits (d 3) 31 16, launch := s.launchOf c.g.team,
        left := ((List.range 4).filter (fun n => bit (d 3) n)).map (fun n => 4 * cl + n), claimed := [], data := [] }
    c.run (c.farStop (blockOk a 48) t (sregs (sreg a) 8) (operandStop (mcastDescOk w) <|>
        (if fromSp then c.allStoresFirst else none)))
      (c.onceDo (c.present f
        (if slot.isNone || s.corbelWaits cl c.corbelPlace then some c.parkCorbel else none)
        (((c.acceptIn s f c.g).putCorbel cl (slot.getD 0) fill).claimAll cl)))

/-- MCRECV (R242). -/
def execMcrecv (a : RegField) (t : ByteField) (s : State) : Host.Outcome State Fault Refusal :=
  withIssue s fun c =>
    let w := c.words a 2
    let d := dword w
    let ok := bits (d 0) 31 16 == 0 && bits (d 1) 31 20 == 0 && bits (d 1) 19 0 % 16 == 0
    let dest := bits (d 1) 19 0
    let f := { FarCall.plain t.toNat (.mcrecv (bits (d 0) 15 0) dest none) with landing := some (tileLanding dest) }
    c.run (c.farStop (blockOk a 54) t (sregs (sreg a) 2) (operandStop ok))
      (c.onceDo (c.present f none ((c.acceptIn s f c.g).claimAll (clusterOf c.g.core))))

/-! ### Waiting on tags and chunks -/

/-- The tags of a mask, lowest first. -/
def tagsOf (m : DWord) : List Nat := members m

/-- The mask of a wait (R274). -/
def Ctx.tagMask (c : Ctx) (a : RegField) : DWord := BitVec.ofNat 64 (c.spair (sreg a))

/-- The lowest named tag that another team holds (R274). -/
def Ctx.foreignTag (c : Ctx) (m : DWord) : Option Nat := (tagsOf m).find? (c.core.tagForeign c.g.team)

/-- TAGWAIT returns (R275). -/
def Core.waitOver (k : Core) (all : Bool) (m : DWord) : Bool :=
  let ts := tagsOf m
  ts.all (fun t => (k.tag t).state != .busy) || (!all && ts.any (fun t => (k.tag t).state == .ready))

/-- A failure under one of the named tags that is READY (R229, R275). -/
def Core.failureUnder (k : Core) (m : DWord) (p : Posted) : Bool := match p.at_ with
  | .tag t => m.getLsbD t && (k.tag t).state == .ready
  | _ => false

/-- The group takes the trap of a failure under its tags, at the wait itself (R275, R276, R411). -/
def State.deliverAt (s : State) (id : Nat) (m : SliceMask) (pc : VAddr) (p : Posted) : State :=
  match s.gang? id with
  | some g =>
    let lane := (allLanes.find? (fun l => (g.activeMask m).getLsbD l)).getD g.lowestLive
    (s.represent id m).deliver id p lane (g.followInfo m pc pc)
  | none => s

/-- A TAGWAIT whose condition holds: a failure of the gang is delivered, else the group goes on (R275). -/
def State.tagwaitReturns (s : State) (id : Nat) (m : SliceMask) (pc : VAddr) (mask : DWord) : State :=
  match s.gang? id with
  | none => s
  | some g => match firstPosted ((s.core g.core).failureUnder mask) g.posted with
    | some p => s.deliverAt id m pc p
    | none => s.wake id m (pc + 4)

/-- TAGREL once no named tag is BUSY: READY tags become FREE, unless a failure is delivered (R227, R276). DESIGN CHOICE (log 72):
the owners of the tags, looked at as the TAGREL or TAGWAIT issued, are not looked at again as it returns. -/
def State.tagrelDone (s : State) (id : Nat) (m : SliceMask) (pc : VAddr) (mask : DWord) : State :=
  match s.gang? id with
  | none => s
  | some g => match firstPosted ((s.core g.core).failureUnder mask) g.posted with
    | some p => s.deliverAt id m pc p
    | none =>
      (s.modCore g.core (fun k => (tagsOf mask).foldl (fun k t =>
        if (k.tag t).state == .ready then k.putTag t Tag.reset else k) k)).wake id m (pc + 4)

/-- TAGWAIT, any or all (R274, R275). -/
def Ctx.tagwait (c : Ctx) (all : Bool) (a : RegField) : Host.Outcome State Fault Refusal :=
  let m := c.tagMask a
  c.run (c.oncePosted (pairOk a) true (regsOf a true) [] [] (fun p =>
      (c.foreignTag m).isNone && c.core.waitOver all m && c.core.failureUnder m p))
    (c.onceDo (match c.foreignTag m with
      | some t => c.onceFault Cause.slotState (tagMark t)
      | none =>
        if c.core.waitOver all m then c.s.tagwaitReturns c.id c.slices c.pc m else c.park (.tagwait all m)))

/-- TAGWAIT.any (R275). -/
def execTagwaitAny (a : RegField) (s : State) : Host.Outcome State Fault Refusal :=
  withIssue s fun c => c.tagwait false a

/-- TAGWAIT.all (R275). -/
def execTagwaitAll (a : RegField) (s : State) : Host.Outcome State Fault Refusal :=
  withIssue s fun c => c.tagwait true a

/-- TAGREL (R276). -/
def execTagrel (a : RegField) (s : State) : Host.Outcome State Fault Refusal :=
  withIssue s fun c =>
    let m := c.tagMask a
    c.run (c.oncePosted (pairOk a) true (regsOf a true) [] [] (fun p =>
        (c.foreignTag m).isNone && c.core.waitOver true m && c.core.failureUnder m p))
      (c.onceDo (match c.foreignTag m with
        | some t => c.onceFault Cause.slotState (tagMark t)
        | none => if c.core.waitOver true m then s.tagrelDone c.id c.slices c.pc m else c.park (.tagrel m)))

/-- TAGFF (R277). -/
def execTagff (d a : RegField) (s : State) : Host.Outcome State Fault Refusal :=
  withIssue s fun c =>
    let m := c.tagMask a
    let t := (tagsOf m).find? (fun t => (c.core.tag t).state == .ready)
    c.run (c.oncePosted (pairOk a && scalarDst d) true (regsOf a true) [] (regsOf d false) (fun p =>
        (c.foreignTag m).isNone && (match t with
          | some t => p.at_ == .tag t
          | none => false)))
      (c.onceDo (match c.foreignTag m with
        | some t => c.onceFault Cause.slotState (tagMark t)
        | none => match t with
          | none => c.scalarResult d 0xFFFFFFFF#32
          | some t => c.scalarResult d (BitVec.ofNat 32 t)))

/-- Chunks of a map: of the scratchpad map of an allocation of p bytes, or of the slot map (R278). -/
def mapChunks (slots : Bool) (p : Nat) : Nat := if slots then 1024 else (p + 511) / 512

/-- The bits that CHUNKT reports (R278). -/
def Ctx.chunkBits (c : Ctx) (slots : Bool) (start : Nat) (mask : Word) : Word :=
  let n := mapChunks slots c.padAlloc
  match c.team.bind (fun t => t.onCore c.g.core) with
  | none => mask
  | some k => maskOf 32 (fun i => mask.getLsbD i && (n == 0 || k.arrived slots ((start + i) % n)))

/-- The chunks that CHUNKT reports as landed. -/
def Ctx.chunksSeen (c : Ctx) (slots : Bool) (start : Nat) (bits_ : Word) : List Nat :=
  let n := mapChunks slots c.padAlloc
  if n = 0 then [] else (members bits_).map (fun i => (start + i) % n)

/-- The failing chunks of a posted fault: those of its request while it runs, else those it was posted with (R229). -/
def State.failedChunks (s : State) (p : Posted) : List (Bool × Nat) := match s.req? p.req with
  | some r => r.badChunks ++ p.chunks
  | none => p.chunks

/-- The chunk carries an ERR mark (R234). -/
def Ctx.chunkErr (c : Ctx) (slots : Bool) (n : Nat) : Bool := match c.team.bind (fun t => t.onCore c.g.core) with
  | some k => if slots then k.slotErr.contains n else k.spadErr.contains n
  | none => false

/-- The failure of a request behind the ERR mark of a chunk that CHUNKT reports (R229, R234). -/
def Ctx.chunkFailure (c : Ctx) (slots : Bool) (seen : List Nat) (p : Posted) : Bool := match p.at_ with
  | .tag _ => (c.s.failedChunks p).any (fun x => x.1 == slots && seen.contains x.2 && c.chunkErr slots x.2)
  | _ => false

/-- CHUNKT (R278). -/
def execChunkt (d a b : RegField) (s : State) : Host.Outcome State Fault Refusal :=
  withIssue s fun c =>
    let x := (c.readS a).toNat
    let slots := bit x 31
    let r := c.chunkBits slots (bits x 10 0) (c.readS b)
    let seen := c.chunksSeen slots (bits x 10 0) r
    c.run (c.oncePosted (scalarDst d && scalarOk a && scalarOk b) (bits x 30 11 == 0) (regsOf a false) (regsOf b false)
        (regsOf d false) (c.chunkFailure slots seen))
      (c.scalarResult d r)

/-- WINSET (R235, R279). -/
def execWinset (a b : RegField) (s : State) : Host.Outcome State Fault Refusal :=
  withIssue s fun c =>
    let x := (c.readS a).toNat
    let units := (c.readS b).toNat / 512
    c.run (c.onceStop (scalarOk a && scalarOk b) (x / 128 == 0) true (regsOf a false) (regsOf b false) [] [])
      (c.onceDo (match (s.coreGangs c.g.core).find? (fun e => e.2.team == c.g.team && e.2.index == x) with
        | none => c.skip
        | some (id, _) => c.skip.modGang id (fun g =>
            { g with fixedAllow := if units = 0 then none
                                   else some (min units (16384 - s.fixedUnits c.g.core id)) })))

/-- TAGRDY bits of tags that the team holds (R228, R280). -/
def Ctx.tagReady (c : Ctx) (base : Nat) : Word := maskOf 32 (fun i => c.s.tagReady c.g.core c.g.team (base + i))

/-- FSTAT (R280). -/
def execFstat (d a : RegField) (code : ByteField) (s : State) : Host.Outcome State Fault Refusal :=
  withIssue s fun c =>
    let x := (c.readS a).toNat
    let sel := code.toNat
    let reads := if sel = 0 then regsOf a false else []
    let tag := c.core.tag (x % 64)
    let v : Word := match sel with
      | 0 => if c.core.tagForeign c.g.team (x % 64) then 0 else BitVec.ofNat 32 tag.word
      | 1 => c.tagReady 0
      | 2 => c.tagReady 32
      | _ => maskOf 32 (fun n => decide (n < 8) && !(s.corbelSlot (clusterOf c.g.core) n).used)
    c.run (check (Code.low2 code) Cause.illegalEncoding <|>
        c.onceStop (scalarDst d && scalarOk a) (sel != 0 || decide (x < 64)) true reads [] [] (regsOf d false))
      (c.scalarResult d v)

end Sys2Proof.Machine
end

