-- ==== Sys2Proof/Machine/Context.lean ====
section
/-! DEFINITION. What is written out of a gang: the trap state words (Table 17.2), the lane records (Table 17.3), the
reconvergence block (Table 17.4) and the context images (Tables 17.8 and 17.9). -/

namespace Sys2Proof.Machine

/-! ### Trap state words -/

/-- Word n of Table 17.2, for n from 0 to 9: 0x1800 + n. -/
def Gang.trapWord (g : Gang) (n : Nat) : Nat :=
  let t := g.trap
  match n with
  | 0 => t.cause.toNat + 256 * (t.laneClass.toNat + 4 * t.known.toNat + 8 * t.defer.toNat + 16 * t.badblk.toNat +
      32 * t.loaded.toNat) + 65536 * t.imm.toNat
  | 1 => t.tpc.toNat % 2 ^ 32
  | 2 => t.tpc.toNat / 2 ^ 32
  | 3 => t.tmask.toNat
  | 4 => t.tlanes.toNat
  | 5 => t.rpc.toNat % 2 ^ 32
  | 6 => t.rpc.toNat / 2 ^ 32
  | 7 => t.opc.toNat % 2 ^ 32
  | 8 => t.opc.toNat / 2 ^ 32
  | 9 => t.group.toNat + 256 * t.live.toNat + 65536 * (t.ngrp % 16) + 2 ^ 20 * g.inh.toNat
  | _ => 0

/-- The lane record of lane l (R415). -/
def Gang.laneRecord (g : Gang) (l : Nat) : LaneRecord := Tbl.get LaneRecord.zero g.records l

/-- The bytes of a lane record (Table 17.3). -/
def LaneRecord.bytes (r : LaneRecord) : List Byte :=
  leBytes 8 r.addr.toNat ++ [r.cause, r.flags] ++ leBytes 2 r.more.toNat ++ leBytes 4 r.detail.toNat

/-- A lane record from its 16 bytes. -/
def LaneRecord.ofBytes (bs : List Byte) : LaneRecord :=
  { addr := BitVec.ofNat 64 (leNat (bs.take 8)), cause := bs.getD 8 0, flags := bs.getD 9 0,
    more := BitVec.ofNat 16 (leNat ((bs.drop 10).take 2)), detail := BitVec.ofNat 32 (leNat ((bs.drop 12).take 4)) }

/-! ### The reconvergence block -/

/-- One bit of the CRC-32 of IEEE 802.3, reflected. -/
def crcBit (c : Nat) : Nat := if c % 2 = 1 then c / 2 ^^^ 0xEDB88320 else c / 2
/-- One byte of it. -/
def crcByte (c : Nat) (b : Byte) : Nat := (List.range 8).foldl (fun c _ => crcBit c) (c ^^^ b.toNat)
/-- The CRC-32 of some bytes (Table 17.4, CHK). -/
def crc32 (bs : List Byte) : Nat := bs.foldl crcByte 0xFFFFFFFF ^^^ 0xFFFFFFFF

/-- A group in the block: its slices, its REGANG mask if it is parked at one, its PC. -/
def Group.blockBytes (x : Group) : List Byte :=
  leBytes 1 x.slices.toNat ++
  (match x.park with
   | some (.regang m) => [1, m]
   | _ => [0, 0]) ++
  leBytes 7 x.pc.toNat

/-- A group from its ten bytes. -/
def Group.ofBlock (bs : List Byte) : Group :=
  { slices := bs.getD 0 0, park := if bs.getD 1 0 = 1 then some (.regang (bs.getD 2 0)) else none,
    pc := BitVec.ofNat 56 (leNat ((bs.drop 3).take 7)), since := 0 }

/-- Some bytes brought to a length with zeros. -/
def padTo (n : Nat) (bs : List Byte) : List Byte := (bs ++ List.replicate (n - bs.length) 0).take n

/-- What the 112 opaque bytes hold, before they are hidden: the group structure, emask and the MR copies. -/
def Block.plain (b : Block) : List Byte :=
  padTo 112 (leBytes 1 b.groups.length ++ [b.trapping] ++ leBytes 4 b.emask.toNat ++
    allSlices.flatMap (fun sl => leBytes 3 (Tbl.get mrReset b.mr sl).toNat) ++ b.groups.flatMap Group.blockBytes)

/-- The opaque bytes hidden, or shown again: their values are free, what they hold is not (R418, log 7). -/
def hideBytes (bs : List Byte) : List Byte := (bs.zipIdx).map (fun x => x.1 ^^^ Config.freeBlockByte x.2)

/-- The 128 bytes of a block (Table 17.4). -/
def Block.bytes (b : Block) (gang tid : Nat) : List Byte :=
  let head := leBytes 1 1 ++ leBytes 1 gang ++ leBytes 2 0 ++ leBytes 8 tid
  let opq := hideBytes b.plain
  head ++ leBytes 4 (crc32 (head ++ opq)) ++ opq

/-- A block from its opaque bytes, shown. -/
def Block.ofPlain (bs : List Byte) : Block :=
  { groups := (List.range (bs.getD 0 0).toNat).map (fun i => Group.ofBlock ((bs.drop (30 + 10 * i)).take 10)),
    trapping := bs.getD 1 0,
    emask := BitVec.ofNat 32 (leNat ((bs.drop 2).take 4)),
    mr := allSlices.foldl (fun t sl => Tbl.set mrReset t sl (BitVec.ofNat 24 (leNat ((bs.drop (6 + 3 * sl)).take 3)))) [] }

/-- Every arrival of the block is one that R313 would accept. -/
def Block.arrivalsOk (b : Block) (live : SliceMask) : Bool :=
  b.groups.all (fun x => match x.park with
    | some (.regang m) => m &&& ~~~live == 0 && x.slices &&& ~~~m == 0 &&
        b.groups.all (fun y => match y.park with
          | some (.regang k) => y.pc != x.pc || k == m
          | _ => true)
    | _ => true)

/-- TRET can resume the structure (R418). -/
def Block.resumable (b : Block) (live : SliceMask) : Bool :=
  decide (1 ≤ b.groups.length) && decide (b.groups.length ≤ 8) &&
  allSlices.all (fun sl => (b.groups.filter (fun x => x.slices.getLsbD sl)).length == (live.getLsbD sl).toNat) &&
  b.groups.all (fun x => x.slices != 0 && x.pc.toNat % 4 == 0) && b.arrivalsOk live

/-- The block that TLOAD accepts from 128 bytes (R418). -/
def Block.ofBytes (bs : List Byte) (gang tid : Nat) (live : SliceMask) : Option Block :=
  let b := Block.ofPlain (hideBytes ((bs.drop 16).take 112))
  if bs.getD 0 0 == 1 && (bs.getD 1 0).toNat == gang && leNat ((bs.drop 4).take 8) == tid &&
      leNat ((bs.drop 12).take 4) == crc32 (bs.take 12 ++ (bs.drop 16).take 112) && b.resumable live then some b
  else none

/-- The group structure of a gang as a block: the captured one in handler mode, else the present one (R424). -/
def Gang.snapshot (g : Gang) : Block := match g.block with
  | some b => b
  | none => { groups := g.groups.map Group.captured, trapping := 0, emask := g.emask, mr := g.mr }

/-! ### The gang image (Table 17.8) -/

/-- The element waits for a register field's scoreboard bit. -/
def Gang.waitsField (g : Gang) (f : Nat) : Bool :=
  g.awaits.any (fun a => match a.dest with
    | .v r _ => r == f
    | .s i => 0xC0 + i == f
    | .p _ _ => false)

/-- The gang image. -/
def Gang.image (g : Gang) (tid : Nat) : List Byte :=
  leBytes 1 1 ++ leBytes 1 g.index ++ leBytes 1 (g.alloc / 8) ++ leBytes 1 (g.inh.toNat + 2 * g.ctxsv.toNat) ++
  leBytes 60 0 ++
  allSlices.flatMap (fun sl => leBytes 4 (g.mrOf sl).toNat) ++
  leBytes 4 g.emask.toNat ++ leBytes 4 (~~~g.exited).toNat ++ leBytes 4 g.acr.toNat ++ leBytes 4 g.mxf.toNat ++
  leBytes 4 g.plumbEn.toNat ++ leBytes 4 g.plumbSt.toNat ++ leBytes 4 g.evpend.toNat ++ leBytes 4 g.evmask.toNat ++
  (List.range 8).flatMap (fun k => leBytes 4 (g.counter k)) ++
  leBytes 4 g.deadline ++
  leBytes 4 ((List.range 8).foldl (fun acc m => if (g.mailbox m).isSome then acc + 2 ^ m else acc) 0) ++
  leBytes 4 (match g.workget with
    | some o => o + 1
    | none => 0) ++
  leBytes 20 0 ++
  (List.range 8).flatMap (fun m => leBytes 8 ((g.mailbox m).getD 0).toNat) ++
  g.snapshot.bytes g.index tid ++
  padTo 64 (if g.inh then (List.range 10).flatMap (fun n => leBytes 4 (g.trapWord n)) else []) ++
  (List.range 8).flatMap (fun n => leBytes 4 ((List.range 32).foldl (fun acc i =>
    if g.waitsField (32 * n + i) then acc + 2 ^ i else acc) 0)) ++
  leBytes 32 0 ++
  (List.range 56).flatMap (fun i => leBytes 4 (g.elem (.s i)).toNat) ++
  leBytes 32 0 ++
  (List.range 64).flatMap (fun i => leBytes 4 (maskOf 32 (fun l => g.elem (.p i l) == 1)).toNat) ++
  allLanes.flatMap (fun l => (g.laneRecord l).bytes) ++
  (List.range g.alloc).flatMap (fun r => allLanes.flatMap (fun l => leBytes 4 (g.elem (.v r l)).toNat))

/-- Bytes of a gang image. -/
def Gang.imageSize (g : Gang) : Nat := 0x600 + 128 * g.alloc

/-- Little-endian value of n bytes at an offset. -/
def imageNat (bs : List Byte) (o n : Nat) : Nat := leNat ((bs.drop o).take n)

/-- The trap state in the ten words of Table 17.2 at offset o of an image. -/
def TrapState.ofImage (bs : List Byte) (o : Nat) : TrapState :=
  let w := fun n => imageNat bs (o + 4 * n) 4
  { cause := BitVec.ofNat 8 (w 0), laneClass := bit (w 0) 8, known := bit (w 0) 10, defer := bit (w 0) 11,
    badblk := bit (w 0) 12, loaded := bit (w 0) 13, imm := BitVec.ofNat 16 (w 0 / 65536),
    tpc := BitVec.ofNat 56 (w 1 / 4 * 4 + 2 ^ 32 * w 2), tmask := BitVec.ofNat 32 (w 3), tlanes := BitVec.ofNat 32 (w 4),
    rpc := BitVec.ofNat 56 (w 5 + 2 ^ 32 * w 6), opc := BitVec.ofNat 56 (w 7 + 2 ^ 32 * w 8),
    group := BitVec.ofNat 8 (w 9), live := BitVec.ofNat 8 (w 9 / 256), ngrp := bits (w 9) 19 16 }

/-- Groups read from a block: one that reads as it was written is the group itself, with what the opaque bytes stand for, a
wait for a RATOM and a lane-class trap that is due among it (R418, log 34). -/
def regroup (old new : List Group) : List Group :=
  new.map (fun x => (old.find? (fun y => y.blockBytes == x.blockBytes)).getD x)

/-- The captured block that a block read back becomes: an unchanged group keeps what it waits for. -/
def Gang.blockBack (g : Gang) (b : Block) : Block :=
  { b with groups := regroup ((g.block.map (fun k => k.groups)).getD []) b.groups }

/-- The group structure that an image gives back: in handler mode the captured one (R426, step 4). A block that TLOAD would
refuse gives nothing back (log 34). -/
def Gang.takeBlock (g : Gang) (bs : List Byte) (tid : Nat) : Gang :=
  match Block.ofBytes ((bs.drop 0x100).take 128) g.index tid g.live with
  | none => g
  | some b =>
    if g.inh then { g with block := some (g.blockBack b) }
    else { g with groups := regroup g.groups b.groups, block := none }

/-- The gang as its image has it (R426, log 34). DESIGN CHOICE (log 64): an MR copy with rnd 7 is taken as it stands, and rounds
as rne. -/
def Gang.fromImage (g : Gang) (bs : List Byte) (tid : Nat) : Gang :=
  let exited := ~~~BitVec.ofNat 32 (imageNat bs 0x64 4)
  let inh := bit (imageNat bs 3 1) 0
  let score := imageNat bs 0x1C0 32
  let g1 := { g with
    mr := allSlices.foldl (fun t sl => Tbl.set mrReset t sl (BitVec.ofNat 24 (imageNat bs (0x40 + 4 * sl) 4))) []
    exited := exited
    emask := BitVec.ofNat 32 (imageNat bs 0x60 4) &&& ~~~exited
    acr := Acr.writable (BitVec.ofNat 32 (imageNat bs 0x68 4))
    mxf := BitVec.ofNat 6 (imageNat bs 0x6C 4)
    plumbEn := bit (imageNat bs 0x70 4) 0
    plumbSt := BitVec.ofNat 15 (imageNat bs 0x74 4)
    evpend := BitVec.ofNat 19 (imageNat bs 0x78 4)
    evmask := BitVec.ofNat 27 (imageNat bs 0x7C 4)
    k := (List.range 8).foldl (fun t i => Tbl.set 0 t i (imageNat bs (0x80 + 4 * i) 4 % 4096)) []
    deadline := imageNat bs 0xA0 4
    mbox := (List.range 8).foldl (fun t m => Tbl.set none t m
      (if bit (imageNat bs 0xA4 4) m then some (BitVec.ofNat 64 (imageNat bs (0xC0 + 8 * m) 8)) else none)) []
    workget := if imageNat bs 0xA8 4 = 0 then none else some (imageNat bs 0xA8 4 - 1)
    ctxsv := bit (imageNat bs 3 1) 1
    inh := inh
    trap := if inh then TrapState.ofImage bs 0x180 else g.trap
    awaits := g.awaits.filter (fun a => match a.dest with
      | .v r _ => bit score r
      | .s i => bit score (0xC0 + i)
      | .p _ _ => true)
    records := allLanes.foldl (fun t l => Tbl.set LaneRecord.zero t l
      (LaneRecord.ofBytes ((bs.drop (0x400 + 16 * l)).take 16))) []
    s := [], p := [], v := [] }
  let g2 := (List.range 56).foldl (fun g i => g.putElem (.s i) (BitVec.ofNat 32 (imageNat bs (0x200 + 4 * i) 4))) g1
  let g3 := (List.range 64).foldl (fun g i => allLanes.foldl (fun g l =>
    g.putElem (.p i l) (if bit (imageNat bs (0x300 + 4 * i) 4) l then 1 else 0)) g) g2
  ((List.range g.alloc).foldl (fun g r => allLanes.foldl (fun g l =>
    g.putElem (.v r l) (BitVec.ofNat 32 (imageNat bs (0x600 + 128 * r + 4 * l) 4))) g) g3).takeBlock bs tid

/-! ### The team image (Table 17.9) -/

/-- A section brought to a multiple of 4 KiB. -/
def section4K (bs : List Byte) : List Byte := padTo ((bs.length + 4095) / 4096 * 4096) bs

/-- A barrier in the image, its fields in the order of Table 11.3. -/
def Barrier.image (b : Barrier) : List Byte :=
  padTo 64 (leBytes 1 b.phase.toNat ++ leBytes 1 b.expg ++ leBytes 4 b.expb ++ leBytes 1 b.dmem.toNat ++ leBytes 1 b.arr ++
    leBytes 1 b.early ++ leBytes 4 b.bytes ++ leBytes 4 b.ebytes ++ leBytes 1 b.umask.toNat ++ leBytes 1 b.eumask.toNat ++
    leBytes 16 b.a.toNat ++ leBytes 16 b.e.toNat ++ leBytes 1 (b.mism.toNat + 2 * b.ovb.toNat))

/-- A barrier from its 64 bytes. -/
def Barrier.ofImage (bs : List Byte) : Barrier :=
  { phase := bit (imageNat bs 0 1) 0, expg := imageNat bs 1 1, expb := imageNat bs 2 4,
    dmem := BitVec.ofNat 8 (imageNat bs 6 1), arr := imageNat bs 7 1, early := imageNat bs 8 1, bytes := imageNat bs 9 4,
    ebytes := imageNat bs 13 4, umask := BitVec.ofNat 8 (imageNat bs 17 1), eumask := BitVec.ofNat 8 (imageNat bs 18 1),
    a := BitVec.ofNat 128 (imageNat bs 19 16), e := BitVec.ofNat 128 (imageNat bs 35 16),
    mism := bit (imageNat bs 51 1) 0, ovb := bit (imageNat bs 51 1) 1 }

/-- The header: image version, LID, team linear ID, gangs, cores, P, privilege. -/
def Team.imageHead (t : Team) (lid : Nat) : List Byte :=
  padTo 64 (leBytes 1 1 ++ leBytes 1 t.priv.toNat ++ leBytes 1 t.gangs ++ leBytes 1 t.cores.length ++ leBytes 4 lid ++
    leBytes 8 t.tid ++ leBytes 4 t.alloc)

/-- The gangs of a team in gang order. -/
def State.gangsInOrder (s : State) (team : Nat) : List (Nat × Gang) :=
  (s.teamGangs team).sortedBy (fun a b => decide (a.2.index ≤ b.2.index))

/-- The slots and blocks that a team holds on a core. -/
def Core.slotMask (k : Core) (team : Nat) : Word := maskOf 32 (fun n => k.slotHolder n == some team)
def Core.blockMask (k : Core) (team : Nat) : Word := maskOf 32 (fun n => k.blockHolder n == some team)

/-- Contents of held slots, then of held row blocks. -/
def Core.heldBytes (c : Core) (k : SavedCore) : List Byte :=
  (members k.slots).flatMap (fun n => Memory.readBytes c.slots (16384 * n) 16384) ++
  (members k.blocks).flatMap (fun j => (List.range 32).flatMap (fun r => c.rowBytes (32 * j + r)))

/-- A tag in the image: its status word, and the PC of an outstanding request under it (log 34). -/
def Tag.image (g : Tag) (pc : Nat) : List Byte := leBytes 4 g.word ++ leBytes 8 pc ++ leBytes 4 0

/-- A team's tag from its status word. -/
def Tag.ofWord (w team : Nat) : Tag :=
  match w % 4 with
  | 1 => { state := .busy, err := bit w 2, cause := BitVec.ofNat 8 (w / 256), pend := bits w 27 16, owner := team }
  | 2 => { state := .ready, err := bit w 2, cause := BitVec.ofNat 8 (w / 256), pend := bits w 27 16, owner := team }
  | _ => Tag.reset

/-- The tags that a team holds on its cores. -/
def State.tagImage (s : State) (team : Nat) (t : Team) : List Byte :=
  (t.cores.zip t.saved).flatMap (fun c => (List.range 64).flatMap (fun n =>
    (Tbl.get Tag.reset c.2.tags n).image
      (match (listed s.reqs).find? (fun r => r.2.team == team && r.2.core == c.1.core && r.2.tag == n) with
       | some r => r.2.opc.toNat
       | none => 0)))

/-- Bytes of a scratchpad's chunk map. -/
def mapSize (p : Nat) : Nat := (mapChunks false p + 7) / 8

/-- What follows a rank's scratchpad: slot map, slots held, blocks held, scratchpad map, poison bits of each held block, and
for each gang of the rank its fixed allowance plus 1, or 0 (log 34). A bit of a map is 1 where no writer is outstanding. -/
def rankTail (p : Nat) (c : TeamCore) (k : SavedCore) (allow : List (Option Nat)) : List Byte :=
  padTo 512 (leBytes 128 ((List.range 1024).foldl (fun acc i => if c.arrived true i then acc + 2 ^ i else acc) 0) ++
    leBytes 4 k.slots.toNat ++ leBytes 4 k.blocks.toNat ++
    leBytes (mapSize p) ((List.range (mapChunks false p)).foldl (fun acc i =>
      if c.arrived false i then acc + 2 ^ i else acc) 0) ++
    (members k.blocks).flatMap (fun j => leBytes 4 (maskOf 32 (fun i => k.poison.contains (32 * j + i))).toNat) ++
    allow.flatMap (fun a => leBytes 2 (match a with
      | some n => n + 1
      | none => 0)))

/-- Writers outstanding as a map read back has them: none where its bit is 1. -/
def writersOf (old : Tbl Nat) (n : Nat) (map : Nat) : Tbl Nat :=
  (List.range n).foldl (fun t i => Tbl.set 0 t i (if bit map i then 0 else max 1 (Tbl.get 0 old i))) []

/-- A rank's maps read back. -/
def TeamCore.ofTail (c : TeamCore) (p : Nat) (bs : List Byte) : TeamCore :=
  { c with slotWriters := writersOf c.slotWriters 1024 (imageNat bs 0 128),
           spadWriters := writersOf c.spadWriters (mapChunks false p) (imageNat bs 136 (mapSize p)) }

/-- Where the poison bits of the held block number i stand in a rank's tail, and the allowance of its gang number i. -/
def poisonAt (p i : Nat) : Nat := 136 + mapSize p + 4 * i
def SavedCore.allowAt (k : SavedCore) (p i : Nat) : Nat := poisonAt p (members k.blocks).length + 2 * i

/-- The poisoned rows of a rank read back; those for which the tail has no room are as they were. -/
def SavedCore.ofTail (k : SavedCore) (p : Nat) (bs : List Byte) : SavedCore :=
  { k with poison := ((members k.blocks).zipIdx).flatMap (fun x =>
      (List.range 32).filterMap (fun r =>
        if (if poisonAt p x.2 + 4 ≤ 512 then bit (imageNat bs (poisonAt p x.2) 4) r else k.poison.contains (32 * x.1 + r)) then
          some (32 * x.1 + r) else none)) }

/-- The gangs of a team on one rank, in gang order. -/
def State.rankGangs (s : State) (team rank : Nat) : List (Nat × Gang) :=
  (s.gangsInOrder team).filter (fun e => e.2.rank == rank)

/-- A rank's MCRECVs that have claimed no slot: tag, channel, destination (R424, step 2). -/
def State.carriedBytes (s : State) (team core : Nat) : List Byte :=
  (listed s.reqs).flatMap (fun r => if r.2.team = team ∧ r.2.core = core then (match r.2.kind with
    | .mcrecv chan dest none => leBytes 1 (r.2.tag + 128) ++ leBytes 3 chan ++ leBytes 4 dest
    | _ => []) else [])

/-- The slot of a gang. -/
def State.slotOfGang (s : State) (id : Nat) : Nat := match s.gang? id with
  | some g => g.slot
  | none => 0

/-- The tail of each rank of a team. -/
def State.rankTails (s : State) (team : Nat) (t : Team) : List (List Byte) :=
  ((t.cores.zip t.saved).zipIdx).map (fun c =>
    rankTail t.alloc c.1.1 c.1.2 ((s.rankGangs team c.2).map (fun e => e.2.fixedAllow)))

/-- The sections of the image before the gang images, of a team with what its cores give up. -/
def State.teamSections (s : State) (team : Nat) (t : Team) (lid hseq : Nat) : List (List Byte) :=
  [section4K (t.imageHead lid), section4K ((List.range 16).flatMap (fun b => (t.barrier b).image)),
    section4K (s.tagImage team t)] ++
  (t.cores.zip (s.rankTails team t)).map (fun c => section4K (Memory.readBytes c.1.scratch 0 t.alloc ++ c.2)) ++
  (t.cores.zip t.saved).map (fun c => section4K ((s.core c.1.core).heldBytes c.2)) ++
  (t.cores.zip t.saved).map (fun c => section4K (padTo 128
    (s.engineRecord (c.2.ops.find? (fun o => !o.ran)) c.1.core hseq 0 ++ s.carriedBytes team c.1.core)))

/-- The whole image. -/
def State.teamImage (s : State) (team : Nat) (t : Team) (lid hseq : Nat) : List Byte :=
  (s.teamSections team t lid hseq).flatten ++ section4K ((s.gangsInOrder team).flatMap (fun g => g.2.image t.tid))

/-- Bytes of a team's image before its gang images; held: bytes of slots and blocks of each core. -/
def imageBase (t : Team) (held : List Nat) : Nat :=
  let up := fun n => (n + 4095) / 4096 * 4096
  up 64 + up 1024 + up (1024 * t.cores.length) + t.cores.length * up (t.alloc + 512) + (held.map up).sum +
    t.cores.length * up 128

/-- Bytes of slots and blocks that a saved core holds. -/
def SavedCore.heldSize (k : SavedCore) : Nat := 16384 * ((members k.slots).length + (members k.blocks).length)

/-- Address of a saved team's gang images, and of its scratchpad and slot sections by rank. -/
def Team.gangsAt (t : Team) (base : Nat) : Nat := base + imageBase t (t.saved.map SavedCore.heldSize)
def Team.padAt (t : Team) (base rank : Nat) : Nat :=
  base + 8192 + (1024 * t.cores.length + 4095) / 4096 * 4096 + rank * ((t.alloc + 512 + 4095) / 4096 * 4096)
def Team.heldAt (t : Team) (base rank : Nat) : Nat :=
  t.padAt base t.cores.length + ((t.saved.take rank).map (fun k => (k.heldSize + 4095) / 4096 * 4096)).sum

/-- Each gang of a team with the offset of its image from the first gang image. -/
def imageOffsets : List (Nat × Gang) → Nat → List (Nat × Gang × Nat)
  | [], _ => []
  | g :: gs, o => (g.1, g.2, o) :: imageOffsets gs (o + g.2.imageSize)

/-- Some bytes of an image. -/
def State.imageBytes (s : State) (a n : Nat) : List Byte := Memory.readBytes s.vault a n

/-- A saved team as its image has it: barriers, tags, maps, poison bits (R426). -/
def State.readTeam (s : State) (team : Nat) (t : Team) (base : Nat) : Team :=
  { t with
    barriers := (List.range 16).foldl (fun tb b => Tbl.set (Barrier.init t.gangs) tb b
      (Barrier.ofImage (s.imageBytes (base + 4096 + 64 * b) 64))) []
    cores := t.cores.zipIdx.map (fun c => c.1.ofTail t.alloc (s.imageBytes (t.padAt base c.2 + t.alloc) 512))
    saved := t.saved.zipIdx.map (fun k => { (k.1.ofTail t.alloc (s.imageBytes (t.padAt base k.2 + t.alloc) 512)) with
      tags := (List.range 64).foldl (fun tb n => Tbl.set Tag.reset tb n
        (Tag.ofWord (imageNat (s.imageBytes (base + 8192 + 1024 * k.2 + 16 * n) 4) 0 4) team)) [] }) }

/-- The fixed allowance of a gang as its rank's tail has it. -/
def State.readAllow (s : State) (team : Nat) (t : Team) (base : Nat) (id : Nat) (g : Gang) : Option Nat :=
  match t.saved[g.rank]? with
  | none => g.fixedAllow
  | some k =>
    let o := k.allowAt t.alloc (((s.rankGangs team g.rank).findIdx? (fun e => e.1 == id)).getD 0)
    if 512 < o + 2 then g.fixedAllow
    else
      let n := imageNat (s.imageBytes (t.padAt base g.rank + t.alloc) 512) o 2
      if n = 0 then none else some (n - 1)

/-- A saved team and its gangs as their image has them. -/
def State.readImages (s : State) (team : Nat) : State :=
  match s.team? team with
  | some t => match t.image with
    | some base =>
      (imageOffsets (s.gangsInOrder team) (t.gangsAt base)).foldl (fun acc x =>
        acc.putGang x.1 { (x.2.1.fromImage (s.imageBytes x.2.2 x.2.1.imageSize) t.tid) with
          fixedAllow := s.readAllow team t base x.1 x.2.1 }) (s.putTeam team (s.readTeam team t base))
    | none => s
  | none => s

/-- The parts of a saved team's image that arrivals change, written again: barriers, tags, what follows each scratchpad, and
the gang images (R425). -/
def State.writeImages (s : State) (team : Nat) : State :=
  match s.team? team with
  | some t => match t.image with
    | some base =>
      let w := fun (acc : State) (x : Nat × List Byte) => acc.writeAtOnce .iod 4 x.1 x.2
      let parts := [(base + 4096, (List.range 16).flatMap (fun b => (t.barrier b).image)), (base + 8192, s.tagImage team t)] ++
        (s.rankTails team t).zipIdx.map (fun r => (t.padAt base r.2 + t.alloc, r.1)) ++
        (imageOffsets (s.gangsInOrder team) (t.gangsAt base)).map (fun x => (x.2.2, x.2.1.image t.tid))
      parts.foldl w s
    | none => s
  | none => s

/-- Where the image of a saved team lies. -/
def State.imageRuns (s : State) (team : Nat) : List (Nat × Nat) := match s.team? team with
  | some t => match t.image with
    | some base => [(base, imageBase t (t.saved.map SavedCore.heldSize) + ((s.teamGangs team).map (fun g => g.2.imageSize)).sum)]
    | none => []
  | none => []

/-- The image of a saved team can be read and written: the writes to it that the IOD agent's clock covers are applied, no lane
holds a granule of it, and no earlier write of one waits (R204, R222). -/
def State.imageReady (s : State) (team : Nat) : Bool := s.runsReady 4 (s.imageRuns team) false

/-- The team is saved: what reaches it reaches its image (R425). -/
def State.isSaved (s : State) (team : Nat) : Bool := match s.team? team with
  | some t => t.status == .saved
  | none => false

/-- A change of a team: of a saved one, through its image (R425). -/
def State.throughImage (s : State) (team : Nat) (f : State → State) : State :=
  if s.isSaved team then (f ((s.unbook 4 (s.imageRuns team)).readImages team)).writeImages team else f s

/-- A step that is to write the image of a saved team: it waits until it can, and has its place in order of arrival (R222, R425). -/
def State.onImage (s : State) (team : Nat) (act : State → State) : State :=
  if s.imageReady team then act s else s.bookRuns .iod 4 (s.imageRuns team)

end Sys2Proof.Machine
end

