-- ==== Sys2Proof/Machine/FarEvents.lean ====
section
/-! DEFINITION. What happens to far requests after acceptance: at the modules (R19, R226, R238, R244, R245, R398, R399), in
the Cairn, at landing (R232-R234), in the Corbel (R241, R242), and at their end (R227, R229, R233, R176). -/

namespace Sys2Proof.Machine

/-! ### Failures -/

/-- The failure that is recorded: the first in the order of R226. -/
def firstFail : List (Nat × FarFail) → Option FarFail
  | [] => none
  | x :: xs => some (xs.foldl (fun b y => if y.1 < b.1 then y else b) x).2

/-- A failure posted against a tag (R229). -/
def FarReq.fault (r : FarReq) (id : Nat) (f : FarFail) : Posted :=
  { at_ := .tag r.tag, cause := f.cause, addr := f.addr, lanes := [], opc := r.opc,
    flags := if f.ecc then 4#8 else 0#8, fdet := f.fdet, req := id, more := 0, chunks := r.badChunks }

/-- The request's failure is posted to its gang, once (R229); until it is delivered, an earlier one in the order of R226 takes
its place. -/
def State.postFail (s : State) (id : Nat) : State :=
  match s.req? id with
  | none => s
  | some r => match firstFail r.fails with
    | none => s
    | some f =>
      if r.posted then s.modGang r.gang (fun g => { g with posted := g.posted.map (fun p =>
        if p.req = id ∧ p.at_ = .tag r.tag then r.fault id f else p) })
      else (s.putReq id { r with posted := true }).modGang r.gang (fun g =>
        if g.ended then g else { g with posted := g.posted ++ [r.fault id f] })

/-! ### At a module -/

/-- The walk's failing pointer under TRAP (R252): WALK_FAULT with its detail. -/
def Walk.failure (k : Walk) : List (Nat × FarFail) :=
  match k.result with
  | some bs =>
    let code := (bs.getD 256 0).toNat
    let fdet := bs.getD 257 0
    if k.pol = 2 ∧ code = Walk.fault ∧ fdet ≠ 0 then
      [(0, ⟨Cause.walkFault, leNat ((bs.drop 264).take 8), false, fdet⟩)]
    else []
  | none => []

/-- A walk that has just ended adds its failure. -/
def FarReq.walkEnded (r : FarReq) : FarReq := match r.walk with
  | some k => { r with fails := r.fails ++ k.failure }
  | none => r

/-- A refusal by FLUSHREQ at module m sets STALE and raises STVEC (R399). -/
def State.staleRefusal (s : State) (part : Nat) (hit : Bool) : State :=
  if hit then (s.modPart part (fun p => { p with stale := true })).emit (.msix part (s.part part).stvec.toNat) else s

/-- MODULE_REQUEST_ARRIVAL: module modid receives a request, checks its windows and performs it or refuses it (R19, R226,
R238, R244, R398). -/
def execModuleRequestArrival (req modid : Nat) (badOffsets : List Nat) (s : State) : Host.Outcome State Fault Refusal :=
  match s.req? req with
  | none => .next s
  | some r =>
    let m := s.module modid
    let part := s.teamPart r.team
    let ready := r.sent && !r.held && r.modules.contains modid && !r.arrived.contains modid && s.firstAt req r modid &&
      s.reachesModule modid && !s.reqHalted r && !(m.refresh && r.kind.paused)
    let (r1, m1) := r.perform s.pkg part modid m badOffsets
    let stale := match r.kind with
      | .walk => false
      | _ => m.flushRefused s.pkg part r.kind.need (r.on modid) || m.flushRefused s.pkg part Need.load (r.srcOn modid)
    whenever ready s (((s.putReq req r1.walkEnded).putModule modid m1).staleRefusal part stale)

/-- FORCED_SELF_REFRESH: the operations at work stand where they are after a free number of units, the reduce engine with
its partial state in the save region, and the copy, reduce and fill engines pause (R245). -/
def execForcedSelfRefresh (modid : Nat) (s : State) : Host.Outcome State Fault Refusal :=
  .next (((listed s.reqs).foldl (fun acc r =>
    if r.2.kind.paused && acc.atWork r.1 r.2 modid then (acc.stopAt r.1 modid).1 else acc) s).modModule modid
      (fun m => { m with refresh := true }))

/-- A request to power a module down, or to put it in self-refresh, that does not force it (R245): a step that no row of the
opcode table names (log 8). -/
def State.askRefresh (s : State) (modid : Nat) : State := s.modModule modid (fun m => { m with asked := true })

/-- The request is granted once no reduce operation is at work at the module (R245). -/
def execRefreshGrant (modid : Nat) (s : State) : Host.Outcome State Fault Refusal :=
  let summing := (listed s.reqs).any (fun r => (match r.2.kind with
    | .red _ _ _ _ => true
    | _ => false) && s.atWork r.1 r.2 modid)
  whenever ((s.module modid).asked && !summing) s (s.modModule modid (fun m => { m with asked := false, refresh := true }))

/-- SELF_REFRESH_EXIT: the engines resume (R245). -/
def execSelfRefreshExit (modid : Nat) (s : State) : Host.Outcome State Fault Refusal :=
  .next (s.modModule modid (fun m => { m with refresh := false }))

/-- CAIRN_READ_RETURN: the read of a walk returns, and the walk runs to its next read or its end (R249). -/
def execCairnReadReturn (req : Nat) (dramError : Bool) (s : State) : Host.Outcome State Fault Refusal :=
  match s.req? req with
  | none => .next s
  | some r => match r.walk with
    | none => .next s
    | some k =>
      let k1 := k.returned (s.module k.modid) s.pkg (s.teamPart r.team) dramError
      whenever (k.wait.isSome && k.result.isNone && !s.reqHalted r) s
        (s.putReq req (FarReq.walkEnded { r with walk := some k1 }))

/-! ### Landing -/

/-- Where the request lands. -/
def State.landingOf (s : State) (r : FarReq) : Option Landing :=
  match r.kind with
  | .get b => some b.landing
  | .walk => r.walk.map (fun k => ⟨0, k.res, 272⟩)
  | .mcrecv _ dest (some n) => some ⟨0, dest, (s.corbelSlot (clusterOf r.core) n).len⟩
  | .mcrecv _ dest none => some (tileLanding dest)
  | _ => none

/-- The bytes of a landing from lo to hi, by local offset: a failed byte is none. -/
def State.landingBytes (s : State) (r : FarReq) (lo hi : Nat) : List (Nat × Option Byte) :=
  (List.range (hi - lo)).map (fun i =>
    let o := lo + i
    (o, match r.kind with
      | .get _ => Tbl.get none r.src o
      | .walk => (r.walk.bind (fun k => k.result)).bind (fun bs => bs[o]?)
      | .mcrecv _ _ (some n) => (s.corbelSlot (clusterOf r.core) n).data[o]?
      | _ => none))

/-- The bytes of a chunk are there, or have failed. -/
def State.chunkReady (s : State) (r : FarReq) (lo hi : Nat) : Bool :=
  match r.kind with
  | .get _ => r.sent && r.pieces.all (fun p =>
      !(decide (p.local_ < hi) && decide (lo < p.local_ + p.len)) || (r.arrived.contains p.modid && s.reachesModule p.modid))
  | .walk => match r.walk with
    | some k => k.result.isSome && (r.arrived.isEmpty || s.reachesModule k.modid)
    | none => false
  | .mcrecv _ _ (some n) => (s.corbelSlot (clusterOf r.core) n).full
  | _ => false

/-- One byte lands at local offset o, with what the translation gave for the vault. -/
def State.landByte (s : State) (r : FarReq) (l : Landing) (o : Nat) (b : Byte) : State :=
  if l.loc = 0 then s.padWriteRun r.team r.core (l.base + o) [b]
  else
    let a := l.base + o
    if (s.core r.core).slotHolder (a / 16384) = some r.team then
      s.modCore r.core (fun k => { k with slots := Memory.writeByte k.slots a b })
    else s

/-- A landing in the vault: the bytes that are there, as one write of the die's agent; a page that fails takes none
(R232, Table 8.2). DESIGN CHOICE (log 75): a far page on the local side fails FAR_SPACE, as a lane's access to one does (R194).
Answers the state, the bytes written and the failures. -/
def State.landVault (s : State) (r : FarReq) (l : Landing) (lo : Nat) (bs : List (Nat × Option Byte)) :
    State × Nat × List (Nat × FarFail) :=
  let va := l.base + lo
  match s.access (s.teamPart r.team) (va % 2 ^ 64) 1 Need.store with
  | .error e => (s, 0, [(localKey lo, ⟨e, va, false, 0⟩)])
  | .ok pa =>
    let ok := bs.filterMap (fun x => x.2.map (fun b => (x.1, b)))
    let s0 := s.cache (s.teamPart r.team) va
    if s.spoiled pa bs.length Need.store then (s0, 0, [(localKey lo, ⟨Cause.permission, va, true, 0⟩)])
    else (if ok.length = bs.length then s0.writeAtOnce (.engine r.gang) (dieOf r.core) pa (ok.map (fun x => x.2))
     else ok.foldl (fun s x => s.writeAtOnce (.engine r.gang) (dieOf r.core) (pa + (x.1 - lo)) [x.2]) s0, ok.length, [])

/-- The physical run of a chunk that lands in the vault. -/
def State.landRuns (s : State) (r : FarReq) (l : Landing) (lo hi : Nat) : List (Nat × Nat) :=
  if l.loc != 2 then []
  else match s.access (s.teamPart r.team) ((l.base + lo) % 2 ^ 64) 1 Need.store with
    | .ok pa => [(pa, hi - lo)]
    | .error _ => []

/-- A drained core leaves the slot, which is free once every core has drained it (R242). -/
def State.drained (s : State) (r : FarReq) : State :=
  match r.kind with
  | .mcrecv _ _ (some n) =>
    let cl := clusterOf r.core
    let c := s.corbelSlot cl n
    let left := c.left.filter (· != r.core)
    s.putCorbel cl n (if left.isEmpty then CorbelSlot.reset else { c with left := left })
  | _ => s

/-- Chunk k of a request lands: its bytes are written, its bits and marks set, its bytes credited (R232-R234, R253). -/
def State.landChunk (s : State) (id : Nat) (r : FarReq) (l : Landing) (k : Nat) : State :=
  let (lo, hi) := l.bounds k
  let bs := s.landingBytes r lo hi
  let holes := bs.any (fun x => x.2.isNone)
  let (s1, n, fs) :=
    if l.loc = 2 then s.landVault r l lo bs
    else
      (bs.foldl (fun s x => match x.2 with
        | some b => s.landByte r l x.1 b
        | none => s) s, (bs.filter (fun x => x.2.isSome)).length, [])
  let failed := holes || !fs.isEmpty || (r.walk.isSome && !r.fails.isEmpty)
  let chunks := r.chunks.filter (· != k)
  let mc := match s.team? r.team with
    | some t => l.mapChunk t.alloc k
    | none => 0
  let r1 := { r with chunks := chunks, landed := r.landed + n, fails := r.fails ++ fs,
                     badChunks := if failed && l.loc != 2 then r.badChunks ++ [(l.loc == 1, mc)] else r.badChunks }
  let s2 := (s1.putReq id r1).chunkIn r.team r.core l k failed
  let s3 := match r.kind with
    | .get b => match b.bar with
      | some x => s2.creditBarrier r.team x n
      | none => s2
    | _ => s2
  let s4 := if failed then s3.postFail id else s3
  if chunks.isEmpty then s4.drained r1 else s4

/-- CHUNK_LAND (R232-R234, R239, R253). -/
def execChunkLand (req chunk : Nat) (s : State) : Host.Outcome State Fault Refusal :=
  match s.req? req with
  | none => .next s
  | some r => match s.landingOf r with
    | none => .next s
    | some l =>
      let (lo, hi) := l.bounds chunk
      whenever (r.chunks.contains chunk && s.chunkReady r lo hi && !s.reqHalted r) s
        (s.onImage r.team (fun s => s.writing (.engine r.gang) (dieOf r.core) (s.landRuns r l lo hi) false (fun s =>
          s.throughImage r.team (fun s => s.landChunk req r l chunk))))

/-! ### The follow-on MMA (R176) -/

/-- The follow-on of a request: its counter and its descriptor. -/
def FarReq.follow (r : FarReq) : Option (Nat × List Word) := match r.kind with
  | .get b => b.fmma
  | _ => none

/-- The follow-on is not performed: its counter falls (R176). -/
def State.dropFollow (s : State) (r : FarReq) (k : Nat) : State :=
  (s.modGang r.gang (fun g => g.putCounter k (g.counter k - 1))).sweepTokens r.gang

/-- The follow-on as an operation of the engine, counted when its FGET was accepted. -/
def FarReq.followOp (r : FarReq) (req k : Nat) (ws : List Word) : EngineOp :=
  { id := req, gang := r.gang, team := r.team, opc := r.opc, k := k, counted := req, kind := .mma false ws [(MDesc.of ws).m],
    next := 0, ran := false, out := [], flags := 0, faults := [] }

/-- An operation put behind everything already accepted, after its slots and rows are checked again (R164, R176). -/
def State.acceptFollow (s : State) (core : Nat) (o : EngineOp) : State :=
  let o1 := { o with id := s.next }
  let s1 := { s with next := s.next + 1 }
  match o.kind with
  | .mma _ ws _ =>
    match (s.core core).mmaGap o.team (MDesc.of ws) with
    | some a =>
      (s1.modGang o.gang (fun g =>
        (g.postAll [o1.fault Cause.slotState a]).putCounter o.k (g.counter o.k - 1))).sweepTokens o.gang
    | none => s1.modCore core (fun c => { c with engine := c.engine ++ [o1] })
  | _ => s1

/-- The groups that the freeze of a core holds, in the order in which they came (R188). -/
def State.frozenParked (s : State) (core : Nat) : List (Nat × Group) :=
  ((s.coreGangs core).flatMap (fun e => (e.2.groups.filter (fun x => match x.park with
    | some (.frozen _) => true
    | _ => false)).map (fun x => (e.1, x)))).sortedBy (fun a b => decide (a.2.since ≤ b.2.since))

/-- An operation that the freeze held became ready before number n and is not yet accepted (R188). -/
def State.frozenBefore (s : State) (core n : Nat) : Bool :=
  (s.frozenParked core).any (fun e => decide (e.2.since < n)) ||
    (s.core core).heldMma.any (fun o => decide (o.1 < n))

/-- The last operand byte of a fetch has landed, and its follow-on has not yet passed to the engine (R176). -/
def FarReq.followDue (r : FarReq) : Bool := r.sent && r.chunks.isEmpty && r.fails.isEmpty && !r.performed

/-- FOLLOW_ON_MMA_ACCEPT: the last operand byte has landed; a frozen engine, and one that has not yet accepted what its
freeze held, holds the operation (R176, R188). -/
def execFollowOnMmaAccept (req : Nat) (s : State) : Host.Outcome State Fault Refusal :=
  match s.req? req with
  | none => .next s
  | some r => match r.follow with
    | none => .next s
    | some (k, ws) =>
      let o := r.followOp req k ws
      whenever r.followDue s
        (let s1 := { s.putReq req { r with performed := true } with next := s.next + 1 }
         if s.frozen r.core || s.frozenBefore r.core s.next then
           s1.modCore r.core (fun c => { c with heldMma := c.heldMma ++ [(s.next, o)] })
         else s1.acceptFollow r.core o)

/-! ### Ends -/

/-- The request has nothing left to do (R227). -/
def FarReq.over (r : FarReq) : Bool :=
  if !r.sent then (match r.kind with
    | .coll _ => r.performed
    | .qsend _ _ => r.performed
    | _ => true)
  else match r.kind with
    | .get _ => r.chunks.isEmpty && (r.follow.isNone || r.performed || !r.fails.isEmpty)
    | .put _ | .copy _ _ _ | .red _ _ _ _ | .fill _ _ _ | .rule _ _ _ => r.allArrived
    | .walk => r.chunks.isEmpty
    | .mcast _ _ _ _ _ => r.performed || (r.allArrived && !r.fails.isEmpty)
    | .mcrecv _ _ claimed => (claimed.isSome && r.chunks.isEmpty) || !r.fails.isEmpty
    | .coll _ | .qsend _ _ => r.performed

/-- The chunks that never landed fail (R234). -/
def State.failChunks (s : State) (id : Nat) (r : FarReq) : State :=
  match s.landingOf r with
  | none => s
  | some l =>
    let bad := match s.team? r.team with
      | some t => if l.loc = 2 then [] else r.chunks.map (fun k => (l.loc == 1, l.mapChunk t.alloc k))
      | none => []
    (r.chunks.foldl (fun s k => s.chunkIn r.team r.core l k true) s).putReq id
      { r with chunks := [], badChunks := r.badChunks ++ bad }

/-- The request's tag hears of its end: on its core, or in the image of a saved team (R227, R425). A request that outlived the
tags of its team has none (R423). -/
def State.finishTag (s : State) (r : FarReq) (failed : Option Byte) : State :=
  match s.team? r.team with
  | some t =>
    if noTag ≤ r.tag then s
    else if t.status == .saved then
      s.putTeam r.team { t with saved := (t.saved.zip t.cores).map (fun x =>
        if x.2.core = r.core then
          { x.1 with tags := Tbl.set Tag.reset x.1.tags r.tag ((Tbl.get Tag.reset x.1.tags r.tag).finish failed) }
        else x.1) }
    else s.modCore r.core (fun c => c.putTag r.tag ((c.tag r.tag).finish failed))
  | none => s.modCore r.core (fun c => c.putTag r.tag ((c.tag r.tag).finish failed))

/-- The end of a request under its tag: failure posted, bytes credited, follow-on dropped, PEND one less (R176, R227, R229,
R233). -/
def State.endRequest (s : State) (id : Nat) : State :=
  match s.req? id with
  | none => s
  | some r0 =>
    let s0 := s.failChunks id r0
    match s0.req? id with
    | none => s0
    | some r =>
      let fail := firstFail r.fails
      let s1 := s0.postFail id
      let s2 := s1.modGang r.gang (fun g => { g with posted := g.posted.map (fun p =>
        if p.req == id then { p with chunks := r.badChunks } else p) })
      let s3 := match r.kind with
        | .get b => match b.bar with
          | some x => if r.landed < b.size then s2.creditBarrier r.team x (b.size - r.landed) else s2
          | none => s2
        | _ => s2
      let s4 := match r.follow with
        | some (k, _) => if r.performed then s3 else s3.dropFollow r k
        | none => s3
      (s4.finishTag r (fail.map (fun f => f.cause))).dropReq id

/-- The request writes locally, and every byte has landed or failed: it ends with the cycle, if not before (R227). -/
def FarReq.landed? (r : FarReq) : Bool := match r.kind with
  | .get _ | .walk => r.sent && r.over
  | .mcrecv _ _ claimed => claimed.isSome && r.over
  | _ => false

/-- The modules' reports can reach the package (R227, R431); a request that writes locally needs none. -/
def State.reported (s : State) (r : FarReq) : Bool := match r.kind with
  | .put _ | .copy _ _ _ | .red _ _ _ _ | .fill _ _ _ | .rule _ _ _ => !r.sent || r.modules.all s.reachesModule
  | _ => true

/-- FAR_REQUEST_END (R227). -/
def execFarRequestEnd (req : Nat) (s : State) : Host.Outcome State Fault Refusal :=
  match s.req? req with
  | none => .next s
  | some r => whenever (r.over && s.reported r && !s.reqHalted r && !s.isSaved r.team) s (s.endRequest req)

/-! ### The Corbel -/

/-- The request that fills a slot. -/
def FarReq.fills (r : FarReq) (cluster slot : Nat) : Bool := match r.kind with
  | .mcast c n _ _ _ => c == cluster && n == slot && !r.performed
  | _ => false

/-- CORBEL_SLOT_FILLED: the tile is wholly in its slot, and drains claimed on it begin (R241, R242). -/
def execCorbelSlotFilled (cluster slot : Nat) (s : State) : Host.Outcome State Fault Refusal :=
  match (listed s.reqs).find? (fun e => e.2.fills cluster slot) with
  | none => .next s
  | some (id, r) =>
    let c := s.corbelSlot cluster slot
    let data := (List.range c.len).map (fun i => (Tbl.get none r.src i).getD 0)
    whenever (r.sent && r.allArrived && r.modules.all s.reachesModule && r.fails.isEmpty && !s.reqHalted r) s
      ((((s.putCorbel cluster slot (if c.used && c.order == id then { c with full := true, data := data } else c)).putReq id
        { r with performed := true }).claimAll cluster).endRequest id)

/-! ### LINTEL_ADMIT -/

/-- The requests parked for the Lintel of a core, in the order in which they parked: gang, group. -/
def State.lintelParked (s : State) (core : Nat) : List (Nat × Group) :=
  ((s.coreGangs core).flatMap (fun e => (e.2.groups.filter (fun x => match x.park with
    | some (.lintel _ _ false) => true
    | _ => false)).map (fun x => (e.1, x)))).sortedBy (fun a b => decide (a.2.since ≤ b.2.since))

/-- A parked request of charge c that passes its gang's allowance test parks for the pool from then on, behind those that do so
already (R236). -/
def Ctx.joinPool (c : Ctx) (charge : Nat) : State :=
  if c.s.allowed c.id c.g charge then
    ({ c.s with next := c.s.next + 1 } : State).modGang c.id (fun g => g.modGroup c.slices (fun x =>
      { x with park := some (.lintel charge true false), since := c.s.next }))
  else c.s

/-- The parked requests of a core that pass their gangs' allowance tests park for the pool (R236). -/
def State.toPool (s : State) (core : Nat) : State :=
  (s.lintelParked core).foldl (fun s e => match e.2.park, s.gang? e.1 with
    | some (.lintel c false _), some g => (⟨s, e.1, g, e.2⟩ : Ctx).joinPool c
    | _, _ => s) s

/-- The first request parked for the pool that both tests now pass: it is presented again (R236, R271). DESIGN CHOICE (log 72):
one whose own allowance test no longer passes keeps its place, and holds back those behind it. -/
def State.lintelNext (s : State) (core : Nat) : Option (Nat × Group) :=
  match (s.lintelParked core).find? (fun e => match e.2.park with
    | some (.lintel _ pool _) => pool
    | _ => false) with
  | some (id, x) => match x.park, s.gang? id with
    | some (.lintel c _ _), some g =>
      if s.allowed id g c && decide (s.pool core + c ≤ 16384) && !s.poolWaits core x.since then some (id, x) else none
    | _, _ => none
  | none => none

/-- LINTEL_ADMIT: parked requests whose allowance test passes join those parked for the pool, and the first that the pool
can take is presented again (R236). -/
def execLintelAdmit (core : Nat) (s : State) : Host.Outcome State Fault Refusal :=
  let s1 := s.toPool core
  match s1.lintelNext core with
  | none => .next s1
  | some (id, x) => .next (s1.modGang id (fun g => g.modGroup x.slices (fun y => match y.park with
      | some (.lintel c p _) => { y with park := some (.lintel c p true) }
      | _ => y)))

end Sys2Proof.Machine
end

