-- ==== Sys2Proof/Machine/Work.lean ====
section
/-! DEFINITION. WORKGET, LAUNCH, CANCEL and CNTRD (R300-R303, R340-R343). -/

namespace Sys2Proof.Machine

/-! ### Launches -/

/-- The launches of a partition that are read and not completed. -/
def State.partLaunches (s : State) (part : Nat) : List (Nat × Launch) :=
  (listed s.launches).filter (fun e => e.2.part == part)

/-- The launches that a level and an ID name (R301): 0 launch, 1 graph, 2 phase, 3 job. -/
def Launch.named (l : Launch) (level id : Nat) : Bool :=
  match level with
  | 0 => l.lid.toNat == id
  | 1 => l.graph == id
  | 2 => l.phase == id
  | _ => l.job == id

/-- The counter of Table 10.5. -/
def State.launchCounter (s : State) (part level id : Nat) : Nat :=
  let ls := (s.partLaunches part).filter (fun e => e.2.named level id)
  if level = 0 then
    match ls with
    | e :: _ => min (e.2.total - e.2.gone) 0xFFFFFFFF
    | [] => 0
  else ls.length

/-- The teams of a launch. -/
def State.launchTeams (s : State) (launch : Nat) : List (Nat × Team) :=
  (listed s.teams).filter (fun e => e.2.launch == launch)

/-- A launch is cancelled, once (R301, R302): teams never placed and victims are dropped, and every gang of its running
teams latches the cancel event. DESIGN CHOICE (log 68): a victim that CTXSV made is dropped at once, as one of a notice is. -/
def State.cancelLaunch (s : State) (id : Nat) : State :=
  match s.launch? id with
  | none => s
  | some l =>
    if l.cancelled then s
    else
      let s1 := s.putLaunch id { l with cancelled := true, gone := l.gone + (l.total - l.nextTid), nextTid := l.total }
      (s1.launchTeams id).foldl (fun acc e =>
        if e.2.victim && (e.2.status == .running || e.2.status == .saved) then acc.dropVictim e.1
        else if e.2.status == .running then acc.modTeamGangs e.1 (fun g => if g.ended then g else g.latch 16)
        else acc) s1

/-! ### The instructions -/

/-- WORKGET (R303, R343): the mailbox is written to zero at acceptance. -/
def execWorkget (a : RegField) (s : State) : Host.Outcome State Fault Refusal :=
  withIssue s fun c =>
    let off := padOffset c.padAlloc 16 (c.readS a).toNat
    c.run (c.onceStop (scalarOk a) (c.padAlloc != 0) true (regsOf a false) [] [] [] <|> (if c.once then c.ownPadFirst else none))
      (c.onceDo
        (if c.g.workget.isSome then c.park .workget
         else (c.next s { c.g with workget := some off }).padWriteBytes c.g.team c.g.core off (List.replicate 16 0)))

/-- Packets that a queue holds unread, its size, and the address of entry n (R290). -/
def LaunchQueue.unread (q : LaunchQueue) : Nat := (q.wr - q.rd).toNat
def LaunchQueue.size (q : LaunchQueue) : Nat := 2 ^ q.log2n
def LaunchQueue.entryAt (q : LaunchQueue) (n : BitVec 16) : Nat := q.base + 128 * (n.toNat % q.size)

/-- A launch queue of a partition. -/
def Partition.queue (p : Partition) (q : Nat) : LaunchQueue := Tbl.get LaunchQueue.reset p.queues q
def Partition.putQueue (p : Partition) (q : Nat) (x : LaunchQueue) : Partition :=
  { p with queues := Tbl.set LaunchQueue.reset p.queues q x }

/-- The limits of Table 11.11. -/
def launchBlockOk (w : List Word) : Bool :=
  let d := dword w
  d 0 % 16 == 0 && bits (d 1) 31 24 == 0 && bits (d 2) 31 5 == 0 && d 3 == 0 && d 4 == 0 && d 5 == 0 && d 6 == 0 && d 7 == 0

/-- The packet written at entry WR, WR advanced: a release of the gang's earlier accesses (R340, step 4). -/
def Ctx.post (c : Ctx) (q pa : Nat) (bs : List Byte) : State :=
  let s1 := c.skip.writeAtOnce (.engine c.id) c.agent pa bs
  (s1.modPart c.part (fun p => p.putQueue q { p.queue q with wr := (p.queue q).wr + 1 })).releaseToIod

/-- The gang is privileged (R388). -/
def Ctx.privileged (c : Ctx) : Bool := match c.team with
  | some t => t.priv
  | none => false

/-- A LAUNCH that has read its packet from these runs, which its die merges (R204): the packet is posted, or waits for a free entry
or for a granule that a lane holds (R222, R340). -/
def Ctx.launchFrom (c : Ctx) (q : Nat) (rs : List (Nat × Nat)) : State :=
  let x := (c.s.part c.part).queue q
  let ea := x.entryAt x.wr
  let bs := c.s.readRuns rs
  let c1 : Ctx := { c with s := c.s.mergeRuns c.agent rs }
  if x.size ≤ x.unread then c1.park (.launchq q bs)
  else match c.s.access c.part ea 128 Need.store with
    | .error e => c1.onceFault e ea
    | .ok pa => if c1.s.writeReady c.agent pa 128 then c1.post q pa bs else c1.park (.launchq q bs)

/-- LAUNCH (R340). -/
def execLaunch (a : RegField) (s : State) : Host.Outcome State Fault Refusal :=
  withIssue s fun c =>
    let w := c.words a 8
    let q := bits (dword w 2) 4 0
    let p := s.part c.part
    c.run (c.onceStop (blockOk a 48) (launchBlockOk w) (c.privileged || !p.privq.getLsbD q) (sregs (sreg a) 8) [] [] [] <|>
        (if c.once then c.accessesFirst else none))
      (c.onceDo (match s.runs c.part (dword w 0 + 2 ^ 32 * bits (dword w 1) 23 0) 128 Need.load with
        | .error e => c.onceFault e.1 e.2.1 e.2.2
        | .ok rs => c.launchFrom q rs))

/-- The bits of s[a] that a level reserves are zero (R341). -/
def levelOk (code : ByteField) (x : Nat) : Bool :=
  match code.toNat with
  | 0 => true
  | 1 => decide (x < 4096)
  | 2 => decide (x < 256)
  | _ => decide (x < 16)

/-- CANCEL (R301, R302, R341). -/
def execCancel (a : RegField) (code : ByteField) (s : State) : Host.Outcome State Fault Refusal :=
  withIssue s fun c =>
    let x := (c.readS a).toNat
    c.run (check (Code.low2 code) Cause.illegalEncoding <|>
        c.onceStop (scalarOk a) (levelOk code x) true (regsOf a false) [] [] [])
      (c.onceDo (((s.partLaunches c.part).filter (fun e => e.2.named code.toNat x)).foldl (fun acc e =>
        acc.cancelLaunch e.1) c.skip))

/-- CNTRD (R300, R342): a read of 0 acquires. -/
def execCntrd (d a : RegField) (code : ByteField) (s : State) : Host.Outcome State Fault Refusal :=
  withIssue s fun c =>
    let x := (c.readS a).toNat
    let n := s.launchCounter c.part code.toNat x
    let r := c.scalarResult d (BitVec.ofNat 32 n)
    c.run (check (Code.low2 code) Cause.illegalEncoding <|>
        c.onceStop (scalarDst d && scalarOk a) (levelOk code x) true (regsOf a false) [] [] (regsOf d false))
      (c.onceDo (if n = 0 then r.acquireFromIod c.agent else r))

end Sys2Proof.Machine
end

