-- ==== Sys2Proof/Machine/Distributor.lean ====
section
/-! DEFINITION. The distributor: launch queues and packets (R290-R296), placement (R297, R298, R306, R426), completion
(R295), cancels (R301), WORKGET (R303), pre-emption (R304, R305) and context saves (R424, R425). -/

namespace Sys2Proof.Machine

/-! ### Queues and packets -/

/-- The distributor may read queues: the package is READY and in PS0 (R468, R473). -/
def State.distributorOn (s : State) : Bool :=
  s.house.phase == 5 && s.house.cur == 0 && s.house.entering.isNone && !s.house.ramping

/-- A write of WR; on an enabled queue in or around PS1 it asks for PS0 (R473). -/
def State.writeWr (s : State) (part q : Nat) (wr : BitVec 16) : State :=
  let x := (s.part part).queue q
  let s1 := s.modPart part (fun p => p.putQueue q { x with wr := wr })
  if x.en && (s.house.cur == 1 || s.house.entering == some 1) then
    { s1 with house := { s1.house with wakeAsked := true } }
  else s1

/-- LQ_WR_WRITE (R292, R473). -/
def execLqWrWrite (part q : Nat) (wr : BitVec 16) (s : State) : Host.Outcome State Fault Refusal :=
  whenReady s (s.writeWr part q wr)

/-- A word of a packet. -/
def packetWord (bs : List Byte) (o : Nat) : Nat := leNat ((bs.drop o).take 4)

/-- Vector registers, in fields of the packet (Table 10.2). -/
def packetVregs (bs : List Byte) : Nat := 8 * bits (packetWord bs 0x10) 7 0
def packetEntry (bs : List Byte) : Nat := packetWord bs 8 + 2 ^ 32 * bits (packetWord bs 0xC) 23 0
def packetCpla (bs : List Byte) : Nat := packetWord bs 0x28 + 2 ^ 32 * bits (packetWord bs 0x2C) 23 0
def packetNpred (bs : List Byte) : Nat := bits (packetWord bs 0) 14 12
def packetGangs (bs : List Byte) : Nat := bits (packetWord bs 0x10) 15 8 + 1
def packetCores (bs : List Byte) : Nat := bits (packetWord bs 0x10) 17 16 + 1
def packetGrid (bs : List Byte) : Nat := packetWord bs 0x18 * packetWord bs 0x1C * packetWord bs 0x20
def packetPreds (bs : List Byte) : List Nat := (List.range 4).map (fun i => packetWord bs (0x30 + 4 * i))

/-- The checks of FORMAT (R294). -/
def packetFormatOk (bs : List Byte) : Bool :=
  !bit (packetWord bs 0) 15 && bits (packetWord bs 0) 31 24 == 0 && bits (packetWord bs 0xC) 31 24 == 0 &&
  bits (packetWord bs 0x10) 31 18 == 0 && bits (packetWord bs 0x24) 31 24 == 0 && bits (packetWord bs 0x2C) 31 24 == 0 &&
  (bs.drop 0x60).all (· == 0) && decide (packetNpred bs ≤ 4) && ((packetPreds bs).drop (packetNpred bs)).all (· == 0) &&
  decide (8 ≤ packetVregs bs) && decide (packetVregs bs ≤ 192) && decide (packetWord bs 0x14 ≤ 1048576) &&
  packetEntry bs % 4 == 0 && packetCpla bs % 16 == 0

/-- Gangs of a team of G gangs a core on sub-core k (R24). -/
def gangsOnSub (g k : Nat) : Nat := (g + 3 - k) / 4

/-- The team shape keeps R24. -/
def shapeOk (gangs cores vregs : Nat) : Bool :=
  gangs % cores == 0 && decide (gangs ≤ 128) && decide (gangs / cores ≤ 64) &&
  decide (vregs * gangsOnSub (gangs / cores) 0 ≤ 2048) && decide (gangsOnSub (gangs / cores) 0 ≤ 16)

/-- The status with which a packet is refused, in the order of R294. -/
def State.packetRefusal (s : State) (part : Nat) (bs : List Byte) : Option Nat :=
  if bits (packetWord bs 0) 7 0 ≠ 1 then some 0x10
  else if !packetFormatOk bs then some 0x11
  else if !shapeOk (packetGangs bs) (packetCores bs) (packetVregs bs) then some 0x12
  else if packetGrid bs = 0 ∨ 2 ^ 48 < packetGrid bs then some 0x13
  else match s.access part (packetEntry bs) 4 Need.fetch with
    | .error _ => some 0x14
    | .ok _ =>
      if (s.partLaunches part).any (fun e => e.2.lid.toNat == packetWord bs 4) then some 0x15 else none

/-- The launch that a packet describes (Table 10.2). preds: the launches it waits for. -/
def packetLaunch (part order : Nat) (priv : Bool) (preds : List Nat) (bs : List Byte) : Launch :=
  { part := part, lid := BitVec.ofNat 32 (packetWord bs 4), prio := bits (packetWord bs 0) 9 8,
    irq := bit (packetWord bs 0) 10, igncxl := bit (packetWord bs 0) 11, vec := bits (packetWord bs 0) 23 16,
    entry := BitVec.ofNat 56 (packetEntry bs), vregs := packetVregs bs, gangs := packetGangs bs, cores := packetCores bs,
    scratch := packetWord bs 0x14, total := packetGrid bs, graph := bits (packetWord bs 0x24) 11 0,
    phase := bits (packetWord bs 0x24) 19 12, job := bits (packetWord bs 0x24) 23 20, cpla := packetCpla bs,
    args := (List.range 8).map (fun i => BitVec.ofNat 32 (packetWord bs (0x40 + 4 * i))), priv := priv, preds := preds,
    order := order, readyAt := order, nextTid := 0, gone := 0, counted := 0, cancelled := false, stopped := false,
    blocking := false }

/-- The completion record (Table 10.3). -/
def completionRecord (status lid teams : Nat) : List Byte :=
  leBytes 1 status ++ leBytes 3 0 ++ leBytes 4 lid ++ leBytes 6 teams ++ leBytes 2 0

/-- What is raised after a completion: the vector of a launch, if it asks for one (R295). -/
def irqOut (part : Nat) (irq : Bool) (vec : Nat) : List Out := if irq then [.msix part vec] else []

/-- A record at CPLA, as one store of the IOD agent, and what follows once it is performed; a page that faults takes none and
is reported (R295, R404). -/
def State.writeCompletion (s : State) (part cpla lid : Nat) (rec_ : List Byte) (after : List Out) : State :=
  if cpla = 0 ∨ cpla % 16 ≠ 0 then { s with out := s.out ++ after }
  else match s.access part cpla 16 Need.store with
    | .ok pa => (s.cache part cpla).iodStore pa rec_ after
    | .error _ =>
      let s1 := s.queueNotice part (recordBytes 32 [(0, 1, 2), (8, 8, cpla), (28, 4, lid)])
      { s1 with out := s1.out ++ after }

/-- A packet taken from queue q: refused, or entered (R294-R296, R300). -/
def State.takePacket (s : State) (part q : Nat) (bs : List Byte) : State :=
  match s.packetRefusal part bs with
  | some st =>
    let s1 := s.modPart part (fun p => p.putQueue q { p.queue q with ref := true })
    s1.writeCompletion part (packetCpla bs) (packetWord bs 4) (completionRecord st (packetWord bs 4) 0)
      (irqOut part (bit (packetWord bs 0) 10) (bits (packetWord bs 0) 23 16))
  | none =>
    let preds := ((packetPreds bs).take (packetNpred bs)).filterMap (fun lid =>
      ((s.partLaunches part).find? (fun e => e.2.lid.toNat == lid)).map (fun e => e.1))
    { s with next := s.next + 1 }.putLaunch s.next
      (packetLaunch part s.next ((s.part part).privq.getLsbD q) preds bs)

/-- LAUNCH_PACKET_READ (R290, R292, R294, R296, R300). -/
def execLaunchPacketRead (part q : Nat) (s : State) : Host.Outcome State Fault Refusal :=
  let p := s.part part
  let x := p.queue q
  let va := x.entryAt x.rd
  let s1 := s.putPart part (p.putQueue q { x with rd := x.rd + 1 })
  whenever (s.distributorOn && !p.halted && x.en && x.wr != x.rd && decide ((s.partLaunches part).length < 1024) &&
      !s.uncovered (s.vcOf 4)) s
    (match s.access part va 128 Need.load with
     | .ok pa => ((s1.cache part va).mergeRuns 4 [(pa, 128)]).takePacket part q (Memory.readBytes s.vault pa 128)
     | .error _ => (s1.modPart part (fun p => p.putQueue q { p.queue q with ref := true })).queueNotice part
         (recordBytes 32 [(0, 1, 3), (1, 1, q), (8, 8, va), (16, 2, x.rd.toNat)]))

/-! ### Completion -/

/-- The slots of the Corbels that a launch filled are freed; drains claimed on them fail (R242, log 11). -/
def State.freeCorbels (s : State) (launch : Nat) : State :=
  s.corbel.foldl (fun acc e =>
    if e.2.used && e.2.launch == launch then
      let hit := fun (r : FarReq) => match r.kind with
        | .mcrecv _ _ (some n) => 8 * clusterOf r.core + n == e.1 && !r.chunks.isEmpty
        | _ => false
      let acc1 := (listed acc.reqs).foldl (fun a x =>
        if hit x.2 then
          { a with free := a.free + 1 }.putReq x.1
            { x.2 with fails := x.2.fails ++ [(0, FarFail.mk Cause.farSpace (Config.freeAddr a.free).toNat false 0)] }
        else a) acc
      { acc1 with corbel := Tbl.set CorbelSlot.reset acc1.corbel e.1 CorbelSlot.reset }
    else acc) s

/-- A successor learns that a predecessor has completed with a status (R296). DESIGN CHOICE (log 68): launches that one
completion makes ready are ready in the order in which they were read. -/
def State.releaseSuccessor (s : State) (done : Nat) (status : Nat) (e : Nat × Launch) : State :=
  if !e.2.preds.contains done then s
  else
    let preds := e.2.preds.filter (· != done)
    let s1 := { s with next := s.next + 1 }.putLaunch e.1
      { e.2 with preds := preds, readyAt := if preds.isEmpty then s.next else e.2.readyAt }
    if status ≠ 0 ∧ ¬ e.2.igncxl then s1.cancelLaunch e.1 else s1

/-- The status of a launch whose teams have all gone (R295, R301). -/
def Launch.status (l : Launch) : Nat := if l.stopped then 2 else if l.cancelled then 1 else 0

/-- A launch completes (R295, R296, R242). -/
def State.completeLaunch (s : State) (id : Nat) (l : Launch) : State :=
  let s1 := (s.dropLaunch id).freeCorbels id
  let s2 := s1.writeCompletion l.part l.cpla l.lid.toNat (completionRecord l.status l.lid.toNat l.counted)
    (irqOut l.part l.irq l.vec)
  (s2.partLaunches l.part).foldl (fun acc e => acc.releaseSuccessor id l.status e) s2

/-- LAUNCH_COMPLETE (R295). -/
def execLaunchComplete (launch : Nat) (s : State) : Host.Outcome State Fault Refusal :=
  match s.launch? launch with
  | none => .next s
  | some l => whenever (decide (l.total ≤ l.gone)) s (s.completeLaunch launch l)

/-! ### Fit -/

/-- Gang slots held on sub-core k of a core, and the vector registers of their gangs (R298). -/
def State.subUsed (s : State) (core k : Nat) : List Nat × Nat :=
  let gs := (s.gangsOn core).filter (fun e => subcoreOf e.2.slot == k)
  (gs.map (fun e => e.2.slot), (gs.map (fun e => e.2.alloc)).sum)

/-- Scratchpad bytes allocated on a core. -/
def State.padUsed (s : State) (core : Nat) : Nat :=
  ((listed s.teams).filter (fun e => e.2.status == .running && e.2.cores.any (fun c => c.core == core))).foldl
    (fun acc e => acc + e.2.alloc) 0

/-- The slots, blocks and tags that a saved rank needs are free on a core (R161, R426, log 35). -/
def State.heldFree (s : State) (core : Nat) (k : SavedCore) : Bool :=
  let c := s.core core
  (members k.slots).all (fun n => (c.slotHolder n).isNone) && (members k.blocks).all (fun n => (c.blockHolder n).isNone) &&
  k.tags.all (fun e => (c.tag e.1).state == .free)

/-- A core has room for a rank of a team of the launch (R298). -/
def State.coreFits (s : State) (l : Launch) (k : Option SavedCore) (core : Nat) : Bool :=
  let g := l.gangs / l.cores
  (List.range 4).all (fun j =>
    let u := s.subUsed core j
    decide (u.1.length + gangsOnSub g j ≤ 16) && decide (u.2 + l.vregs * gangsOnSub g j ≤ 2048)) &&
  decide (s.padUsed core + padSize l.scratch ≤ 1048576) &&
  (match k with
   | some x => s.heldFree core x
   | none => true)

/-- No notice keeps the core from launches of this priority (R305). -/
def Partition.offers (p : Partition) (prio core : Nat) : Bool :=
  p.notices.all (fun n => !n.vacated.contains core || decide (n.prio ≤ prio))

/-- The cores of a cluster for a list of ranks, the lowest that fits for each. -/
def pickCores (fits : Option SavedCore → Nat → Bool) : List (Option SavedCore) → List Nat → Option (List Nat)
  | [], _ => some []
  | k :: ks, cs => match cs.find? (fits k) with
    | none => none
    | some c => (pickCores fits ks (cs.filter (· != c))).map (fun r => c :: r)

/-- The lowest saved victim of a launch (R306). -/
def State.lowestVictim (s : State) (launch : Nat) : Option (Nat × Team) :=
  ((s.launchTeams launch).filter (fun e => e.2.status == .saved)).foldl (fun best e => match best with
    | some b => if e.2.tid < b.2.tid then some e else some b
    | none => some e) none

/-- The ranks of the next team of a launch: what each must find on its core. -/
def State.nextRanks (s : State) (id : Nat) (l : Launch) : List (Option SavedCore) :=
  match s.lowestVictim id with
  | some e => e.2.saved.map some
  | none => List.replicate l.cores none

/-- The cores on which the next team of a launch fits: of the lowest-numbered cluster, the lowest (R298). -/
def State.fit (s : State) (id : Nat) (l : Launch) : Option (List Nat) :=
  let p := s.part l.part
  (List.range 40).findSome? (fun cl =>
    if p.clusters.getLsbD cl then
      pickCores (fun k c => s.coreFits l k c && p.offers l.prio c) (s.nextRanks id l) ((List.range 4).map (fun i => 4 * cl + i))
    else none)

/-- The launch is ready and holds teams still to place (R296, R297). -/
def State.wantsPlace (s : State) (id : Nat) (l : Launch) : Bool :=
  l.preds.isEmpty && (decide (l.nextTid < l.total) || (s.lowestVictim id).isSome)

/-- A blocking launch of the same or a higher priority holds the launch back (R297). -/
def State.heldByBlocking (s : State) (id : Nat) (l : Launch) : Bool :=
  (s.partLaunches l.part).any (fun e => e.1 != id && e.2.blocking && s.wantsPlace e.1 e.2 && decide (l.prio ≤ e.2.prio))

/-- The turn order of the launches of one priority: those ready after the one served last, then the others (R297). -/
def turnOrder (served : Nat) (ls : List (Nat × Launch)) : List (Nat × Launch) :=
  let xs := ls.sortedBy (fun a b => decide (a.2.readyAt ≤ b.2.readyAt))
  xs.filter (fun e => decide (served < e.2.readyAt)) ++ xs.filter (fun e => decide (e.2.readyAt ≤ served))

/-- The launch whose turn it is, with the cores for its next team (R297). -/
def State.nextPlace (s : State) (part : Nat) : Option (Nat × Launch × List Nat) :=
  let ls := (s.partLaunches part).filter (fun e => s.wantsPlace e.1 e.2 && !s.heldByBlocking e.1 e.2)
  ([3, 2, 1, 0] : List Nat).findSome? (fun p =>
    (turnOrder (Tbl.get 0 (s.part part).served p) (ls.filter (fun e => e.2.prio == p))).findSome? (fun e =>
      (s.fit e.1 e.2).map (fun cs => (e.1, e.2, cs))))

/-! ### Placement -/

/-- A gang at its start (Table 2.2); now: the cycle in which it becomes ready (R308). -/
def Gang.start (l : Launch) (team index rank core slot now : Nat) : Gang :=
  { team := team, index := index, rank := rank, core := core, slot := slot, alloc := l.vregs, v := [],
    s := (l.args.zipIdx).foldl (fun t x => Tbl.set 0 t x.2 x.1) [], p := [], pend := [], flight := [], awaits := [], mr := [],
    emask := BitVec.allOnes 32, exited := 0,
    groups := [{ slices := BitVec.allOnes 8, pc := l.entry, park := none, since := 0 }], turn := 0, turnIssues := 0,
    plumbEn := false, plumbSt := 0, acr := 0, mxf := 0, k := [], tokens := [], posted := [], evpend := 0, evmask := 0,
    deadline := 0, mbox := [], reserve := [], workget := none, ctxsv := false, inh := false, trap := TrapState.zero,
    records := [], block := none, pendTraps := [], fixedAllow := none, waitFrom := now,
    yielded := none, ended := false, stopped := false }

/-- The lowest free gang slot of the sub-core of gang j of a core (R24, log 36); given: slots already given away. -/
def State.freeSlot (s : State) (core j : Nat) (given : List (Nat × Nat)) : Nat :=
  let used := (s.subUsed core (j % 4)).1
  ((List.range 16).map (fun i => 16 * (j % 4) + i)).find? (fun n => !used.contains n && !given.contains (core, n)) |>.getD 0

/-- The gangs of a new team, in gang order. -/
def State.startGangs (l : Launch) (team : Nat) (cores : List Nat) : List Nat → State → State
  | [], s => s
  | g :: gs, s =>
    let per := l.gangs / l.cores
    let core := cores.getD (g / per) 0
    let slot := s.freeSlot core (g % per) []
    let new := Gang.start l team g (g / per) core slot s.now
    State.startGangs l team cores gs ({ s with next := s.next + 1 }.putGang s.next new)

/-- A team placed for the first time (R298). -/
def State.placeNew (s : State) (id : Nat) (l : Launch) (cores : List Nat) : State :=
  let team := s.next
  let t : Team :=
    { part := l.part, launch := id, tid := l.nextTid, gangs := l.gangs,
      cores := cores.map (fun c => { core := c, scratch := [], spadWriters := [], slotWriters := [], spadErr := [],
                                     slotErr := [] }),
      alloc := padSize l.scratch, priv := l.priv, barriers := [], status := .running, victim := false, withdrawn := [],
      order := team, image := none, saving := false, saved := [] }
  let s1 := ({ s with next := s.next + 1 }.putTeam team t).putLaunch id { l with nextTid := l.nextTid + 1 }
  (State.startGangs l team cores (List.range l.gangs) s1).acquireFromIod (dieOf (cores.getD 0 0))

/-- A core takes back what a saved team held: slots, blocks, rows, poison, tags, and its operations at the head of engine
order (R426). bs: contents of the slots, then of the blocks. -/
def Core.restore (c : Core) (team : Nat) (k : SavedCore) (bs : List Byte) : Core :=
  let ns := members k.slots
  let js := members k.blocks
  let c1 := (ns.zipIdx).foldl (fun c x =>
    { c with slotOwner := Tbl.set none c.slotOwner x.1 (some team),
             slots := Memory.writeBytes c.slots (16384 * x.1) ((bs.drop (16384 * x.2)).take 16384) }) c
  let c2 := (js.zipIdx).foldl (fun c x =>
    (List.range 32).foldl (fun c r => c.putRow (32 * x.1 + r) ((bs.drop (16384 * (ns.length + x.2) + 512 * r)).take 512))
      { c with blockOwner := Tbl.set none c.blockOwner x.1 (some team) }) c1
  let c3 := k.poison.foldl (fun c r => c.putPoison r true) c2
  { c3 with tags := k.tags.foldl (fun t e => Tbl.set Tag.reset t e.1 e.2) c3.tags,
            engine := k.ops ++ c3.engine, heldMma := c3.heldMma ++ k.held }

/-- Bytes of a saved team's image. -/
def Team.imageSize (t : Team) (s : State) (team : Nat) : Nat :=
  imageBase t (t.saved.map SavedCore.heldSize) + ((s.teamGangs team).map (fun g => g.2.imageSize)).sum

/-- The image and each of its gang images match the launch and have version 1 (R426, step 1). -/
def State.imageOk (s : State) (team : Nat) (t : Team) (lid base : Nat) : Bool :=
  Memory.readBytes s.vault base 24 == (t.imageHead lid).take 24 &&
  (imageOffsets (s.gangsInOrder team) (t.gangsAt base)).all (fun x =>
    Memory.readBytes s.vault x.2.2 3 == [1, BitVec.ofNat 8 x.2.1.index, BitVec.ofNat 8 (x.2.1.alloc / 8)])

/-- The gangs of a restored team take slots on its new cores, in gang order; each gives up its turn, and its wait restarts
(R309). -/
def State.reseatGangs (cores : List Nat) (per : Nat) : List (Nat × Gang) → List (Nat × Nat) → State → State
  | [], _, s => s
  | e :: es, given, s =>
    let core := cores.getD e.2.rank 0
    let slot := s.freeSlot core (e.2.index % per) given
    State.reseatGangs cores per es (given ++ [(core, slot)])
      (s.modGang e.1 (fun g => { g.yieldTurn with core := core, slot := slot, ctxsv := false, waitFrom := s.now }))

/-- A saved team placed again (R306, R426). DESIGN CHOICE (log 75): for the age of its gangs (R308) it stays placed as it was first. -/
def State.restoreTeam (s : State) (l : Launch) (team : Nat) (t : Team) (cores : List Nat) : State :=
  match t.image with
  | none => s
  | some base =>
    if !s.imageOk team t l.lid.toNat base || !(s.badIn base (t.imageSize s team)).isEmpty then
      s.raiseHalt l.part true (some ⟨cores.getD 0 0, 255, Cause.contextFatal, 0⟩)
    else
      let s0 := s.readImages team
      let t := (s0.team? team).getD t
      let ranks := (t.cores.zip cores).zipIdx
      let tcs := ranks.map (fun x => { x.1.1 with
        core := x.1.2
        scratch := Memory.writeBytes [] 0 (Memory.readBytes s.vault (t.padAt base x.2) t.alloc) })
      let s1 := ranks.foldl (fun acc x => match t.saved[x.2]? with
        | some k => acc.modCore x.1.2 (fun c => c.restore team k (Memory.readBytes s.vault (t.heldAt base x.2) k.heldSize))
        | none => acc) s0
      let s2 := ranks.foldl (fun acc x => (listed acc.reqs).foldl (fun a r =>
        if r.2.team = team ∧ r.2.core = x.1.1.core ∧ ¬ (ranks.any (fun y => decide (y.2 < x.2) && y.1.2 == r.2.core)) then
          a.putReq r.1 { r.2 with core := x.1.2 } else a) acc) s1
      let gs := s.gangsInOrder team
      let s3 := State.reseatGangs cores (l.gangs / l.cores) gs [] s2
      let s4 := s3.putTeam team { t with cores := tcs, status := .running, victim := false, image := none, saved := [] }
      let s5 := s4.modPart l.part (fun p => { p with ctxUsed := p.ctxUsed.filter (fun u => u.1 * 65536 != base) })
      (s5.acquireFromIod (dieOf (cores.getD 0 0))).claimAll (clusterOf (cores.getD 0 0))

/-- Notices come to their end (R305): expired, their victims handled, and no launch of their priority fits what they
vacated. -/
def State.endNotices (s : State) (part : Nat) : State :=
  let p := s.part part
  let finished := fun (n : Notice) => n.expired && n.victims.isEmpty &&
    (s.partLaunches part).all (fun e => decide (e.2.prio < n.prio) || !s.wantsPlace e.1 e.2 || match s.fit e.1 e.2 with
      | some cs => cs.all (fun c => !n.vacated.contains c)
      | none => true)
  s.putPart part { p with notices := p.notices.filter (fun n => !finished n) }

/-- The launch chosen places its next team: a saved one once the writes to its image have been performed (R425). -/
def State.placeTeam (s : State) (id : Nat) (l : Launch) (cores : List Nat) : State :=
  let s1 := s.modPart l.part (fun p => { p with served := Tbl.set 0 p.served l.prio l.readyAt })
  let l1 := { l with blocking := false }
  match s.lowestVictim id with
  | some e => if s.imageReady e.1 then (s1.putLaunch id l1).restoreTeam l1 e.1 e.2 cores else s
  | none => s1.placeNew id l1 cores

/-- TEAM_PLACE (R297, R298, R306, R426). -/
def execTeamPlace (part : Nat) (s : State) : Host.Outcome State Fault Refusal :=
  let s0 := s.endNotices part
  if s.distributorOn && !(s.part part).halted then
    .next (match s0.nextPlace part with
      | some (id, l, cores) => s0.placeTeam id l cores
      | none => s0)
  else .next s

/-- LAUNCH_BLOCKING (R297): the next team of the launch has been unable to fit for 20 µs. A launch that a blocking one
holds back has no turn in which to find that (log 56). -/
def execLaunchBlocking (part launch : Nat) (s : State) : Host.Outcome State Fault Refusal :=
  match s.launch? launch with
  | none => .next s
  | some l => whenever (l.part == part && s.wantsPlace launch l && !s.heldByBlocking launch l && (s.fit launch l).isNone) s
      (s.putLaunch launch { l with blocking := true })

/-! ### Ends -/

/-- A remote load whose reply is addressed to the gang is outstanding (R31). -/
def State.replyOut (s : State) (gang : Nat) : Bool :=
  (listed s.remotes).any (fun r => r.2.gang == gang && r.2.op.kind == .rld)

/-- GANG_SLOT_RELEASE (R31): a WORKGET that is still outstanding stays with the team (R303). -/
def execGangSlotRelease (gang : Nat) (s : State) : Host.Outcome State Fault Refusal :=
  match s.gang? gang with
  | none => .next s
  | some g => whenever (g.ended && g.k.all (fun e => e.2 == 0) && !s.replyOut gang) s
      (match g.workget with
       | none => s.dropGang gang
       | some off => (s.modTeam g.team (fun t => { t with workgets := t.workgets ++ [(gang, g.rank, off)] })).dropGang gang)

/-- CANCEL_STOP (R301, step 3). -/
def execCancelStop (team : Nat) (s : State) : Host.Outcome State Fault Refusal :=
  match s.team? team with
  | none => .next s
  | some t => whenever (t.status == .running && match s.launch? t.launch with
      | some l => l.cancelled
      | none => false) s (s.stopTeam team)

/-- The outstanding WORKGET of a gang, which may have left its slot: its team, the core and the offset of its mailbox, and the
state without it (R31, R303). -/
def State.takeWorkget (s : State) (gang : Nat) : Option (Nat × Nat × Nat × State) :=
  match s.gang? gang with
  | some g => g.workget.map (fun off => (g.team, g.core, off, s.putGang gang { g with workget := none }))
  | none => (listed s.teams).findSome? (fun e => (e.2.workgets.find? (fun w => w.1 == gang)).bind (fun w =>
      (e.2.cores[w.2.1]?).map (fun c =>
        (e.1, c.core, w.2.2, s.putTeam e.1 { e.2 with workgets := e.2.workgets.filter (fun x => x.1 != gang) }))))

/-- WORKGET_REPLY (R303): the lowest team never placed or withdrawn is withdrawn, and the mailbox written in one step. DESIGN
CHOICE (log 68): a launch that is blocking for a team which is withdrawn stays so for its next. -/
def execWorkgetReply (gang : Nat) (s : State) : Host.Outcome State Fault Refusal :=
  match s.takeWorkget gang with
  | none => .next s
  | some (team, core, off, s1) => match s1.team? team with
    | none => .next s
    | some t =>
      let none_ := s1.padWriteBytes team core off (leBytes 4 2 ++ leBytes 12 0)
      whenever (t.status == .running && !t.saving && !(s.part t.part).halted) s
        (match s.launch? t.launch with
         | some l =>
           if l.nextTid < l.total ∧ ¬ l.cancelled then
             ((s1.putLaunch t.launch { l with nextTid := l.nextTid + 1 }).putTeam team
               { t with withdrawn := t.withdrawn ++ [l.nextTid] }).padWriteBytes team core off
                 (leBytes 4 1 ++ leBytes 8 l.nextTid ++ leBytes 4 0)
           else none_
         | none => none_)

/-! ### Pre-emption -/

/-- The candidate teams of a request, in the order in which they are taken (R304). DESIGN CHOICE (log 68): a team that is a victim
already is none. -/
def State.candidates (s : State) (part q : Nat) (named : Option Nat) : List (Nat × Team) :=
  let ls := (s.partLaunches part).filter (fun e => match named with
    | some lid => e.2.lid.toNat == lid
    | none => decide (e.2.prio < q))
  let order := ls.sortedBy (fun a b => decide (a.2.prio < b.2.prio) ||
    (a.2.prio == b.2.prio && decide (b.2.order ≤ a.2.order)))
  order.flatMap (fun e => ((s.launchTeams e.1).filter (fun t => t.2.status == .running && !t.2.victim)).sortedBy
    (fun a b => decide (b.2.tid ≤ a.2.tid)))

/-- Teams taken until their cores total n. -/
def takeVictims : Nat → List (Nat × Team) → List Nat
  | _, [] => []
  | n, t :: ts => if n = 0 then [] else t.1 :: takeVictims (n - t.2.cores.length) ts

/-- A pre-emption request takes its victims, which latch the event (R304, R305). -/
def State.preempt (s : State) (part n q : Nat) (named : Option Nat) : State :=
  let vs := takeVictims n (s.candidates part q named)
  let s1 := vs.foldl (fun acc t => (acc.modTeam t (fun x => { x with victim := true })).modTeamGangs t (fun g =>
    if g.ended then g else g.latch 17)) s
  s1.modPart part (fun p => { p with notices := p.notices ++ [{ victims := vs, prio := q, expired := false, vacated := [] }] })

/-- PREEMPT_REQUEST (R304, R403): a launch is named in the host-assisted mode alone. -/
def execPreemptRequest (part n q : Nat) (launch : Option Nat) (s : State) : Host.Outcome State Fault Refusal :=
  let assisted := (s.part part).modes.getLsbD 4
  whenever (s.isReady && decide (1 ≤ n) && decide (n ≤ 160) && decide (1 ≤ q) && decide (q ≤ 3) && launch.isSome == assisted) s
    (s.preempt part n q launch)

/-- HW_PREEMPT_TRIGGER (R304): a ready launch that has been blocking for 20 µs, in the hardware mode. The number of cores
is free (log 12). -/
def execHwPreemptTrigger (part launch : Nat) (s : State) : Host.Outcome State Fault Refusal :=
  match s.launch? launch with
  | none => .next s
  | some l => whenever (l.part == part && l.blocking && s.wantsPlace launch l && decide (1 ≤ l.prio) &&
      !(s.part part).modes.getLsbD 4) s
      ({ s with free := s.free + 1 }.preempt part (1 + Config.freeCores s.free % 160) l.prio none)

/-- A gang stops for a save (R424, step 1): its pending results become visible (R74), its waits are to be executed afresh,
and a CTXSV has done its part (R428). -/
def Gang.stopForSave (g : Gang) : Gang :=
  let g1 := g.commitAll
  { g1 with ctxsv := g1.groups.any (fun x => x.park == some .ctxsv), groups := g1.groups.map (fun x => match x.park with
    | some .ctxsv => { x with pc := x.pc + 4, park := none, deliver := false }
    | _ => x.captured) }

/-- The save of a team begins: its gangs stop and the engines of its cores freeze (R188, R424). -/
def State.beginSave (s : State) (team : Nat) : State :=
  match s.team? team with
  | none => s
  | some t =>
    if t.status == .running && !t.saving then
      let s1 := t.cores.foldl (fun acc c => if acc.frozen c.core then acc else acc.freezeCore c.core) s
      let s2 := (s1.putTeam team { t with saving := true }).modTeamGangs team Gang.stopForSave
      ((s2.teamGangs team).map (fun e => e.1)).foldl (fun acc i => acc.loseReserves i) s2
    else s

/-- PREEMPT_NOTICE_EXPIRY (R305): the victims of the earliest notice that have not ended are stopped for saving. -/
def execPreemptNoticeExpiry (part : Nat) (s : State) : Host.Outcome State Fault Refusal :=
  let p := s.part part
  match p.notices.find? (fun n => !n.expired) with
  | none => .next s
  | some n =>
    let ns := (p.notices.takeWhile (fun x => x.expired)) ++ { n with expired := true } ::
      (p.notices.dropWhile (fun x => x.expired)).drop 1
    .next (n.victims.foldl (fun acc t => acc.beginSave t) (s.putPart part { p with notices := ns }))

/-! ### Saving -/

/-- A request keeps a save waiting: it writes the team's scratchpad or slots and has not ended; an MCRECV that has claimed
no slot does not (R424, step 2). -/
def FarReq.blocksSave (r : FarReq) : Bool := match r.kind with
  | .get b => b.loc != 2
  | .walk => true
  | .mcrecv _ _ claimed => claimed.isSome
  | _ => false

/-- The save can be made (R424, steps 2 and 3). -/
def State.saveReady (s : State) (team : Nat) (t : Team) : Bool :=
  t.saving && !(s.part t.part).halted &&
  !((listed s.reqs).any (fun r => r.2.team == team && r.2.blocksSave)) &&
  (s.teamGangs team).all (fun e => !s.loadsOut e.1 && !s.padsOut e.1 && e.2.groups.all (fun x => match x.park with
    | some (.faulting _ _ _) => false
    | _ => true)) &&
  t.cores.all (fun c => !s.uncovered (s.vcOf (dieOf c.core)))

/-- The lowest 64 KiB units of the save area with room for n units (R424, step 4); k bounds the places tried. -/
def Partition.roomFor (p : Partition) (n : Nat) : Option Nat :=
  let free := fun u => p.ctxUsed.all (fun x => decide (u + n ≤ x.1) || decide (x.1 + x.2 ≤ u))
  ((p.ctxbase :: p.ctxUsed.map (fun x => x.1 + x.2)).sortedBy (fun a b => decide (a ≤ b))).find? (fun u =>
    decide (p.ctxbase ≤ u) && decide (u + n ≤ p.ctxbase + p.ctxsize) && p.owns (u * 65536) (n * 65536) && free u)

/-- What a core gives up of a team (R424, step 5). -/
def Core.takeTeam (c : Core) (team : Nat) : SavedCore × Core :=
  ({ tags := c.tags.filter (fun e => e.2.owner == team && e.2.state != .free),
     ops := c.engine.filter (fun o => o.team == team), held := c.heldMma.filter (fun o => o.2.team == team),
     slots := c.slotMask team, blocks := c.blockMask team,
     poison := ((List.range 1024).filter (fun r => c.blockHolder (r / 32) == some team && c.poisoned r)) },
   { c with tags := c.tags.filter (fun e => !(e.2.owner == team && e.2.state != .free)),
            engine := c.engine.filter (fun o => o.team != team), heldMma := c.heldMma.filter (fun o => o.2.team != team),
            slotOwner := c.slotOwner.filter (fun e => e.2 != some team),
            blockOwner := c.blockOwner.filter (fun e => e.2 != some team) })

/-- The team is not saved and keeps running (R424). -/
def State.noRoom (s : State) (team : Nat) (t : Team) : State :=
  let s1 := (s.putTeam team { t with saving := false, victim := false }).modTeamGangs team (fun g => { g with ctxsv := false })
  s1.modPart t.part (fun p =>
    { p with noroom := true, notices := p.notices.map (fun n => { n with victims := n.victims.filter (· != team) }) })

/-- CONTEXT_SAVE (R424): the image is written, as stores of the IOD agent, and what the team held is released. -/
def execContextSave (team : Nat) (s : State) : Host.Outcome State Fault Refusal :=
  match s.team? team with
  | none => .next s
  | some t =>
    let p := s.part t.part
    let lid := match s.launch? t.launch with
      | some l => l.lid.toNat
      | none => 0
    let ks := t.cores.map (fun c => ((s.core c.core).takeTeam team).1)
    let bs := s.teamImage team { t with saved := ks } lid p.hseq.toNat
    let n := (bs.length + 65535) / 65536
    whenever (s.saveReady team t) s (match p.roomFor n with
      | none => s.noRoom team t
      | some u => (s.releaseToIod).writing .iod 4 [(u * 65536, bs.length)] false fun s =>
        let s1 := s.writeAtOnce .iod 4 (u * 65536) bs
        let s2 := t.cores.foldl (fun acc c => acc.modCore c.core (fun k => (k.takeTeam team).2)) s1
        let s3 := s2.putTeam team { t with status := .saved, victim := true, saving := false, image := some (u * 65536),
                                           saved := ks }
        (s3.vacate team t).modPart t.part (fun p => { p with ctxUsed := p.ctxUsed ++ [(u, n)] }))

end Sys2Proof.Machine
end

