-- ==== Sys2Proof/Machine/Remote.lean ====
section
/-! DEFINITION. Remote operations, 0x90-0x95 (R217-R219, R281-R284, R400): their issue, their arrival at this package's IOD
agent, and the answers of peers. -/

namespace Sys2Proof.Machine

/-! ### The load/store domain (R400) -/

/-- The domain entry of a package: the peer partition, if the entry is valid. -/
def State.domain (s : State) (part pkg : Nat) : Option Nat :=
  let p := s.part part
  let a := p.dombase * 2048 + 2 * pkg
  let e := Memory.readNat s.vault a 2
  if p.owns a 2 && bit e 15 then some (bits e 3 0) else none

/-- The package that sends a message, as the message says. -/
def msgSource : NetMsg → Nat
  | .remote op => op.srcPkg
  | .qdata d => d.srcPkg
  | _ => 0

/-- The stream of a message towards or from another package, and the message's number in it (R362): the remote operations
of one gang, the data of one send queue. Messages of a collective and answers are told apart by what they carry. -/
def msgStream (far : Nat) : NetMsg → Option (Nat × Nat)
  | .remote op => some (2 * (1024 * op.stream + far % 1024), op.seq)
  | .qdata d => some (2 * (1024 * d.srcPart + far % 1024) + 1, d.seq)
  | _ => none

/-- A message takes the next number of its stream as it is sent to a peer. -/
def State.numbered (s : State) (peer : Nat) (m : NetMsg) : State × NetMsg :=
  match msgStream peer m with
  | none => (s, m)
  | some (k, _) =>
    let n := Tbl.get 0 s.sentSeq k
    ({ s with sentSeq := Tbl.set 0 s.sentSeq k (n + 1) }, match m with
      | .remote op => .remote { op with seq := n }
      | .qdata d => .qdata { d with seq := n }
      | m => m)

/-- A message owed to a peer. -/
def State.owe (s : State) (pkg : Nat) (m : NetMsg) : State := { s with netq := s.netq ++ [(pkg, m)] }

/-- Bit of Table 9.11 for an operation and a type: ADD32, ADD64, CAS32, CAS64, FADD32, FADD64, FADDX2. -/
def capBit (k : RemoteKind) (t : Nat) : Nat :=
  match k with
  | .add => if isWide t then 1 else 0
  | .cas => if isWide t then 3 else 2
  | _ => if t = 11 then 5 else if t = 15 then 6 else 4

/-- The recorded capabilities of a peer: the package's own are all of them (R281, R283). -/
def State.hasCap (s : State) (peer : Nat) (k : RemoteKind) (t : Nat) : Bool :=
  peer == s.pkg || (Tbl.get 0 s.caps peer).getLsbD (capBit k t)

/-! ### Answers -/

/-- The elements of lane l of a remote operation's destination. -/
def RemoteOut.elems (r : RemoteOut) (l : Nat) : List RegElem :=
  if r.op.kind = .rst then [] else dstElems (BitVec.ofNat 8 r.d) (isWide r.op.etype.toNat) l

/-- The address of a lane of the operation. -/
def RemoteOut.addr (r : RemoteOut) (l : Nat) : Nat := match r.op.lanes.find? (fun x => x.lane == l) with
  | some x => x.addr
  | none => 0

def replyLane : LaneReply → Nat
  | .value l _ => l
  | .fault l _ _ => l

/-- The lanes of an answer that met an error that cannot be corrected (R430). -/
def replyEcc (x : RemoteReply) : List Nat := x.lanes.filterMap (fun y => match y with
  | .fault l _ true => some l
  | _ => none)

/-- The faults of an answer: lane, address, cause, lowest lane first. -/
def RemoteOut.faultsOf (r : RemoteOut) (x : RemoteReply) : List (Nat × Nat × Byte) :=
  (x.lanes.filterMap (fun y => match y with
    | .value _ _ => none
    | .fault l c _ => some (l, r.addr l, c))).sortedBy (fun a b => decide (a.1 ≤ b.1))

/-- The values of an answer reach the gang's registers, and its lanes no longer wait (R75, R282). -/
def Gang.takeReply (g : Gang) (ident : Nat) (r : RemoteOut) (x : RemoteReply) : Gang :=
  let lanes := x.lanes.map replyLane
  let done := lanes.flatMap r.elems
  Gang.writeNow { g with awaits := g.awaits.filter (fun a => a.kind != .remote ident || !done.contains a.dest) }
    (x.lanes.flatMap (fun y => match y with
      | .value l v => elemWords r.op.etype.toNat v.toNat (r.elems l)
      | .fault _ _ _ => []))

/-- The faults of an RLD or RST posted against its destination or its counter, joined to those that the same operation
has posted (R284): reported by the peer, and the lane's effect suppressed (Table 17.3). -/
def Gang.postRemote (g : Gang) (ident : Nat) (r : RemoteOut) (fs : List (Nat × Nat × Byte)) (ecc : List Nat) : Gang :=
  match fs with
  | [] => g
  | f :: _ =>
    if g.ended then g
    else
      let es := fs.flatMap (fun x => r.elems x.1)
      let place : PostedAt := match r.kc with
        | some k => .counter k
        | none => .elems es
      match g.posted.find? (fun p => p.req == ident && !p.lanes.isEmpty) with
      | some _ => { g with posted := g.posted.map (fun p =>
          if p.req == ident && !p.lanes.isEmpty then
            let ls := (p.lanes ++ fs).sortedBy (fun a b => decide (a.1 ≤ b.1))
            { p with
              lanes := ls
              ecc := p.ecc ++ ecc
              cause := match ls with
                | y :: _ => y.2.2
                | [] => p.cause
              at_ := match p.at_ with
                | .elems old => .elems (old ++ es)
                | a => a }
          else p) }
      | none => { g with posted := g.posted ++
          [{ at_ := place, cause := f.2.2, addr := f.2.1, lanes := fs, opc := r.opc, flags := 9, fdet := 0, req := ident,
             more := 0, chunks := [], ecc := ecc }] }

/-- Every lane of the operation has been answered. -/
def RemoteOut.over (r : RemoteOut) : Bool := r.op.lanes.all (fun x => r.answered.contains x.lane)

/-- The lanes answered are noted; an operation wholly answered is performed, and leaves its counter (R267, R282). -/
def State.answered (s : State) (ident : Nat) (r : RemoteOut) : State :=
  if r.over then
    let s1 := s.dropRemote ident
    match r.kc with
    | some k => (s1.modGang r.gang (fun g => g.putCounter k (g.counter k - 1))).sweepTokens r.gang
    | none => s1
  else s.putRemote ident r

/-- An answer to an RLD or an RST (R282, R284). -/
def State.plainReply (s : State) (r : RemoteOut) (x : RemoteReply) : State :=
  let r1 := { r with answered := r.answered ++ x.lanes.map replyLane }
  (s.modGang r.gang (fun g => (g.takeReply x.ident r x).postRemote x.ident r (r.faultsOf x) (replyEcc x))).answered x.ident r1

/-- The record of a RATOM's lane that faulted at the peer: precise, suppressed, reported by the peer (R283). -/
def peerRecord (ecc : List Nat) (f : Nat × Nat × Byte) : Nat × LaneRecord :=
  (f.1, { addr := BitVec.ofNat 64 f.2.1, cause := f.2.2, flags := if ecc.contains f.1 then 13 else 9, more := 0, detail := 0 })

/-- The group still waits for the answer to its RATOM. -/
def Gang.waitsRatom (g : Gang) (ident : Nat) (m : SliceMask) : Bool :=
  g.groups.any (fun x => x.slices == m && x.park == some (.ratom ident))

/-- An answer to a RATOM (R283): refused, it traps at the RATOM; else the group goes on, the old values are written, and
faults of lanes, its own of issue included, are taken. -/
def State.ratomReply (s : State) (r : RemoteOut) (x : RemoteReply) : State :=
  match s.gang? r.gang with
  | none => s.dropRemote x.ident
  | some g =>
    let waiting := g.waitsRatom x.ident r.mask
    let pc := r.opc
    let info : TrapInfo := { g.followInfo r.mask pc pc with tmask := r.tmask, defer := false }
    if x.refused then
      let freed := fun (g : Gang) => { g with awaits := g.awaits.filter (fun a => a.kind != .remote x.ident) }
      let s1 := (s.modGang r.gang freed).dropRemote x.ident
      if waiting then (s1.represent r.gang r.mask).takeTrap r.gang { info with cause := Cause.atomicUnsupported } else s1
    else
      let faults := (r.faults ++ (r.faultsOf x).map (peerRecord (replyEcc x))).sortedBy (fun a b => decide (a.1 ≤ b.1))
      let r1 := { r with answered := r.answered ++ x.lanes.map replyLane, faults := [] }
      let s1 := (s.modGang r.gang (fun g => g.takeReply x.ident r x)).answered x.ident r1
      if waiting then
        let s2 := s1.wake r.gang r.mask (pc + 4)
        match faults with
        | [] => s2
        | f :: _ => s2.takeTrap r.gang { info with cause := f.2.cause, tpc := pc + 4, records := faults }
      else s1

/-- An answer reaches the gang that waits for it; its gang may have ended. -/
def State.reply (s : State) (x : RemoteReply) : State :=
  match s.remote? x.ident with
  | none => s
  | some r => match r.op.kind with
    | .rld => s.plainReply r x
    | .rst => s.plainReply r x
    | _ => s.ratomReply r x

/-- The gang of an outstanding operation is saved. -/
def State.replySaved (s : State) (x : RemoteReply) : Bool := match s.remote? x.ident with
  | some r => match s.gang? r.gang with
    | some g => s.isSaved g.team
    | none => false
  | none => false

/-- An answer that reaches a saved gang is written into its image (R425). -/
def State.replyAnywhere (s : State) (x : RemoteReply) : State :=
  if s.replySaved x then
    match s.remote? x.ident with
    | some r => match s.gang? r.gang with
      | some g => s.throughImage g.team (fun s => s.reply x)
      | none => s
    | none => s
  else s.reply x

/-! ### Arrival at this package (R217, R400) -/

/-- What a lane of the operation asks of its page. -/
def remoteNeed : RemoteKind → Need
  | .rld => Need.load
  | .rst => Need.store
  | _ => Need.atomic

/-- The atomic operation of Table 9.3 that a remote one computes. -/
def remoteAtom : RemoteKind → Nat
  | .add => 0
  | .cas => 7
  | _ => 8

/-- The lane's access at this package, or the cause of its fault, and whether that is an error which cannot be corrected
(R281, R400, R430). -/
def State.remoteAccess (s : State) (op : RemoteOp) (l : RemoteLane) : Except (Byte × Bool) Nat :=
  let n := esize op.etype.toNat
  if s.domain op.part op.srcPkg = some op.srcPart then
    match s.access op.part l.addr n (remoteNeed op.kind) with
    | .ok pa => if s.spoiled pa n (remoteNeed op.kind) then .error (Cause.permission, true) else .ok pa
    | .error e => .error (e, false)
  else .error (Cause.permission, false)

/-- The IOD agent merges what a slice has applied (R204). -/
def State.mergeIod (s : State) (pa : Nat) : State :=
  { s with vc := Tbl.set clock0 s.vc 4 (clockMax (s.vcOf 4) (s.avOf (vaultSlice pa))) }

/-- One lane performed by the IOD agent, at the place that the check of its access gave: its value or its fault (R217, R282,
R283). -/
def State.remoteLane (s : State) (op : RemoteOp) (l : RemoteLane) (access : Except (Byte × Bool) Nat) : State × LaneReply :=
  match access with
  | .error e => (s, .fault l.lane e.1 e.2)
  | .ok pa =>
    let n := esize op.etype.toNat
    let s0 := s.cache op.part l.addr
    let old := Memory.readNat s0.vault pa n
    match op.kind with
    | .rld => (s0.mergeIod pa, .value l.lane (BitVec.ofNat 64 old))
    | .rst => (s0.writeAtOnce .iod 4 pa (leBytes n l.arg.toNat), .value l.lane 0)
    | _ =>
      let s1 := match atomNew (remoteAtom op.kind) op.etype.toNat op.sat old l.arg.toNat l.new.toNat with
        | some v => s0.writeAtOnce .iod 4 pa (leBytes n v)
        | none => s0
      (s1.mergeIod pa, .value l.lane (BitVec.ofNat 64 old))

/-- Every lane is checked, and then they are performed in increasing lane number (R283). -/
def State.remoteLanes (s : State) (op : RemoteOp) : State × List LaneReply :=
  (op.lanes.map (fun l => (l, s.remoteAccess op l))).foldl (fun acc x =>
    let r := acc.1.remoteLane op x.1 x.2
    (r.1, acc.2 ++ [r.2])) (s, [])

/-- The physical runs that the operation writes. -/
def State.remoteRuns (s : State) (op : RemoteOp) : List (Nat × Nat) :=
  if op.kind == .rld then []
  else op.lanes.filterMap (fun l => match s.remoteAccess op l with
    | .ok pa => some (pa, esize op.etype.toNat)
    | .error _ => none)

/-- An operation that this package's own gang has sent here answers at once: the image of the gang, if it is saved, must be able to
take the answer (R281, R425). -/
def State.onReply (s : State) (op : RemoteOp) (act : State → State) : State :=
  if op.srcPkg != s.pkg then act s
  else match (s.remote? op.ident).bind (fun r => s.gang? r.gang) with
    | some g => s.onImage g.team act
    | none => act s

/-- The operation performed, and answered: over the fabric, or at once to this package's own gang (R281). -/
def State.performRemote (s : State) (op : RemoteOp) : State :=
  let r := s.remoteLanes op
  let x : RemoteReply := { ident := op.ident, refused := false, lanes := r.2 }
  if op.srcPkg = s.pkg then r.1.replyAnywhere x else r.1.owe op.srcPkg (.reply x)

/-- A message is not yet performed. -/
def State.isDue (s : State) (m : NetMsg) : Bool := match msgStream (msgSource m) m with
  | some (k, n) => decide (Tbl.get 0 s.rcvdSeq k ≤ n)
  | none => true

/-- A message that arrives joins those not yet performed. -/
def State.arrive (s : State) (m : NetMsg) : State :=
  if s.inbound.contains m || !s.isDue m then s else { s with inbound := s.inbound ++ [m] }

/-- A message is performed: the next of its stream may be. -/
def State.performed (s : State) (m : NetMsg) : State :=
  let s1 := { s with inbound := s.inbound.filter (· != m) }
  match msgStream (msgSource m) m with
  | some (k, n) => { s1 with rcvdSeq := Tbl.set 0 s1.rcvdSeq k (n + 1) }
  | none => s1

/-- The message is the next of its stream: the target restores the order in which a stream was sent (R17, R217, R362). -/
def State.firstInbound (s : State) (m : NetMsg) : Bool := match msgStream (msgSource m) m with
  | some (k, n) => Tbl.get 0 s.rcvdSeq k == n
  | none => true

/-- REMOTE_OP_ARRIVAL (R217, R400): an operation arrives, and is performed once the stream's earlier ones are, the writes that
the IOD agent's clock covers are applied and no lane holds a granule that it writes (R204, R222). -/
def execRemoteOpArrival (op : RemoteOp) (s : State) : Host.Outcome State Fault Refusal :=
  let s1 := s.arrive (.remote op)
  whenever (s1.firstInbound (.remote op)) s1
    (s1.onReply op (fun s => s.writing .iod 4 (s.remoteRuns op) true (fun s => (s.performed (.remote op)).performRemote op)))

/-- RLD_REPLY (R282, R284). -/
def execRldReply (r : RemoteReply) (s : State) : Host.Outcome State Fault Refusal :=
  whenever (match s.remote? r.ident with
    | some o => o.op.kind == .rld && !s.replySaved r
    | none => false) s ((s.performed (.reply r)).reply r)

/-- RST_ACK (R282, R284). -/
def execRstAck (r : RemoteReply) (s : State) : Host.Outcome State Fault Refusal :=
  whenever (match s.remote? r.ident with
    | some o => o.op.kind == .rst && !s.replySaved r
    | none => false) s ((s.performed (.reply r)).reply r)

/-- RATOM_RESPONSE (R283). -/
def execRatomResponse (r : RemoteReply) (s : State) : Host.Outcome State Fault Refusal :=
  whenever (match s.remote? r.ident with
    | some o => o.op.kind != .rld && o.op.kind != .rst && !s.replySaved r
    | none => false) s ((s.performed (.reply r)).reply r)

/-! ### Issue -/

/-- The types that an operation accepts (R281). -/
def remoteTypeOk (k : RemoteKind) (t : Nat) : Bool :=
  match k with
  | .rld => true
  | .rst => true
  | .add => atomTypeOk 0 t
  | .cas => atomTypeOk 7 t
  | .fadd => atomTypeOk 8 t

/-- The limits of Table 9.10. -/
def remoteBlockOk (rst : Bool) (w : List Word) : Bool :=
  bits (dword w 1) 31 24 == 0 && bits (dword w 2) 31 22 == 0 && (rst || bits (dword w 2) 21 18 == 0)

/-- The fields of a remote operation: d is a vector, a register within the allocation with all that the operation uses, or,
as the data of RST, any vector source. -/
def Ctx.remoteOk (c : Ctx) (k : RemoteKind) (d a b : RegField) : Bool :=
  let w := isWide c.etype
  (match k with
   | .rst => isVec d && c.srcOk d w
   | .cas => isVreg d && c.casOk d w
   | _ => isVreg d && c.dstOk d w) && blockOk a 52 && c.srcOk b false

/-- A lane's address (R281). -/
def Ctx.remoteAddr (c : Ctx) (w : List Word) (b : RegField) (l : Nat) : Nat :=
  dword w 0 + 2 ^ 32 * bits (dword w 1) 23 0 + c.readB b false l

/-- The fault of a lane at issue (R281). -/
def Ctx.remoteFault (c : Ctx) (w : List Word) (b : RegField) (peer : Nat) (l : Nat) : Option LaneFault :=
  let a := c.remoteAddr w b l
  if a % c.size ≠ 0 then some ⟨l, Cause.misaligned, a, false⟩
  else if (c.s.domain c.part peer).isNone then some ⟨l, Cause.permission, a, false⟩
  else none

/-- The operation on its way: over the fabric, or to this package's own IOD agent (R281). -/
def State.dispatchRemote (s : State) (peer : Nat) (op : RemoteOp) : State :=
  if peer = s.pkg then
    let x := s.numbered peer (.remote op)
    x.1.arrive x.2
  else s.owe peer (.remote op)

/-- The operation is sent (R281-R283): its lanes without a fault at issue, in increasing lane number. -/
def Ctx.sendRemote (c : Ctx) (k : RemoteKind) (d b : RegField) (w : List Word) : State :=
  let s := c.s
  let peer := bits (dword w 2) 17 8
  let fs := c.takers.filterMap (c.remoteFault w b peer)
  let lanes := c.takers.filter (fun l => (c.remoteFault w b peer l).isNone)
  let kc := if k = .rst ∧ bit (dword w 2) 21 then some (bits (dword w 2) 20 18) else none
  let op : RemoteOp :=
    { ident := s.next, srcPkg := s.pkg, srcPart := c.part, stream := c.id, seq := 0,
      part := (s.domain c.part peer).getD 0, kind := k, etype := BitVec.ofNat 4 c.etype, sat := c.sat,
      lanes := lanes.map (fun l =>
        { lane := l, addr := c.remoteAddr w b l,
          arg := if k = .rld then 0 else BitVec.ofNat 64 (c.stored d l),
          new := BitVec.ofNat 64 (if k = .cas then c.newOf 7 d l else 0) }) }
  let r : RemoteOut :=
    { gang := c.id, opc := c.pc, d := d.toNat, kc := kc, op := op, peer := peer, mask := c.slices, tmask := c.tmask,
      answered := [], faults := fs.map LaneFault.record }
  if lanes.isEmpty then c.laneTrap c.skip fs
  else
    let g1 := { c.g with awaits := c.g.awaits ++ (lanes.flatMap r.elems).map (fun e => ⟨e, .remote s.next⟩) }
    let g2 := match kc with
      | some n => g1.putCounter n (g1.counter n + 1)
      | none => g1
    let s1 := ({ s with next := s.next + 1 }.putRemote s.next r).putGang c.id g2
    let wait := k = .add ∨ k = .cas ∨ k = .fadd
    if wait then ({ c with g := g2 }.parkIn s1 (.ratom s.next)).dispatchRemote peer op
    else c.laneTrap (c.nextIn (s1.dispatchRemote peer op)) fs

/-- The checks of RLD, RST and RATOM (R281, R283). -/
def Ctx.remoteStop (c : Ctx) (k : RemoteKind) (d a b : RegField) : Option Stop :=
  let w := c.words a 3
  let wide := isWide c.etype
  let rst := k = .rst
  let atomic := k = .add ∨ k = .cas ∨ k = .fadd
  let block := if blockOk a 52 then sregs (sreg a) 3 else []
  let dregs := if k = .rld then [] else regsOf d wide ++ (if k = .cas then regsOf (casNew d wide) wide else [])
  let writes := if rst then [] else regsOf d wide
  check (remoteTypeOk k c.etype) Cause.illegalEncoding <|>
  check (c.remoteOk k d a b) Cause.illegalOperand <|>
  c.interlock (block ++ regsOf b false ++ dregs ++ c.guardRegs ++ writes) <|>
  check (remoteBlockOk rst w) Cause.illegalOperand <|>
  c.plumb block (regsOf b false) dregs c.guardRegs <|>
  c.groupWide (dword w 2) <|> c.readPosted (block ++ regsOf b false ++ dregs ++ c.guardRegs) <|>
  check (!atomic || c.s.hasCap (bits (dword w 2) 17 8) k c.etype) Cause.atomicUnsupported

/-- RLD, RST and RATOM (R281-R283). -/
def Ctx.remote (c : Ctx) (k : RemoteKind) (d a b : RegField) : Host.Outcome State Fault Refusal :=
  let w := c.words a 3
  c.run (c.remoteStop k d a b)
    (if c.takers.isEmpty then c.skip
     else if k = .rst ∧ bit (dword w 2) 21 ∧ c.g.counter (bits (dword w 2) 20 18) = 4095 then c.waitHere
     else c.sendRemote k d b w)

/-- RLD (R281, R282). -/
def execRld (d a b : RegField) (s : State) : Host.Outcome State Fault Refusal := withIssue s fun c => c.remote .rld d a b
/-- RST (R281, R282). -/
def execRst (d a b : RegField) (s : State) : Host.Outcome State Fault Refusal := withIssue s fun c => c.remote .rst d a b
/-- RATOM.add (R281, R283). -/
def execRatomAdd (d a b : RegField) (s : State) : Host.Outcome State Fault Refusal := withIssue s fun c => c.remote .add d a b
/-- RATOM.cas (R281, R283). -/
def execRatomCas (d a b : RegField) (s : State) : Host.Outcome State Fault Refusal := withIssue s fun c => c.remote .cas d a b
/-- RATOM.fadd (R281, R283). -/
def execRatomFadd (d a b : RegField) (s : State) : Host.Outcome State Fault Refusal :=
  withIssue s fun c => c.remote .fadd d a b

/-- RFENCE (R207, R218, R267): it waits for the gang's remote operations and delivers their faults. -/
def execRfence (code : ByteField) (s : State) : Host.Outcome State Fault Refusal :=
  withIssue s fun c =>
    let waits := s.remoteBusy c.id
    c.run (check (Code.rfence code) Cause.illegalEncoding <|> (if waits then none else c.posted Posted.remote))
      (if waits then c.waitHere else c.skip)

end Sys2Proof.Machine
end

