-- ==== Sys2Proof/Machine/Collective.lean ====
section
/-! DEFINITION. Collectives, 0x96 and 0x97 (R216, R285-R289, R401). -/

namespace Sys2Proof.Machine

/-! ### Communicators (R401) -/

/-- An entry of the communicator table: P, the rank of this package, the member packages in rank order. -/
structure CommEntry where
  p : Nat
  rank : Nat
  list : List Byte
  deriving DecidableEq, Repr

/-- Package number of rank r. -/
def CommEntry.pkg (c : CommEntry) (r : Nat) : Nat := leNat ((c.list.drop (2 * r)).take 2)

/-- The entry of a communicator; P is 0 if it is not loaded, or lies outside the allocation. -/
def State.commEntry (s : State) (part comm : Nat) : CommEntry :=
  let q := s.part part
  let a := q.commbase * 4096 + 16 * comm
  let n := if q.owns a 16 then Memory.readNat s.vault a 2 else 0
  let la := Memory.readNat s.vault (a + 8) 4
  { p := if n ≤ 1024 then n else 0, rank := Memory.readNat s.vault (a + 2) 2,
    list := if n ≤ 1024 ∧ q.owns la (2 * n) then Memory.readBytes s.vault la (2 * n) else [] }

/-- A COLL may use the entry (R401). -/
def State.commOk (s : State) (part : Nat) (c : CommEntry) : Bool :=
  let ps := (List.range c.p).map c.pkg
  c.p != 0 && decide (c.rank < c.p) && c.list.length == 2 * c.p && c.pkg c.rank == s.pkg && decide ps.Nodup &&
  ps.all (fun k => decide (k < 1024) && (s.domain part k).isSome)

/-- A communicator's progress. -/
def Partition.comm (p : Partition) (n : Nat) : Comm := Tbl.get Comm.reset p.comms n
def Partition.putComm (p : Partition) (n : Nat) (c : Comm) : Partition := { p with comms := Tbl.set Comm.reset p.comms n c }

/-! ### Reduction (R287) -/

/-- Neighbours combined, once. -/
def pairUp {α : Type} (f : α → α → α) : List α → List α
  | a :: b :: t => f a b :: pairUp f t
  | l => l

/-- The tree of R287 over the ranks; n bounds its levels. -/
def collTree {α : Type} (f : α → α → α) : Nat → List α → List α
  | 0, l => l
  | n + 1, l => collTree f n (pairUp f l)

/-- Bytes of an element of a format: 0 BF16, 1 FP32, 2 S32. -/
def collSize (fmt : Nat) : Nat := if fmt = 0 then 2 else 4

/-- One step of a reduction: the sum, or the maximum of IEEE 754-2019. -/
def collOp (max : Bool) (fmt x y : Nat) : Nat :=
  if max then
    match fmt with
    | 0 => (Fmt.bf16.minMax false true false x y).1
    | 1 => (Fmt.f32.minMax false true false x y).1
    | _ => if asInt true 32 x ≤ asInt true 32 y then y else x
  else redAdd fmt x y

/-- The reduction of the members' bytes, element by element. -/
def collReduce (max : Bool) (fmt len : Nat) (xs : List (List Byte)) : List Byte :=
  let n := collSize fmt
  (List.range (len / n)).flatMap (fun i =>
    leBytes n ((collTree (collOp max fmt) 11 (xs.map (fun x => leNat ((x.drop (n * i)).take n)))).getD 0 0))

/-- What the member of a rank receives (R287). -/
def collResult (op fmt len root rank : Nat) (xs : List (List Byte)) : List Byte :=
  match op with
  | 0 => collReduce false fmt len xs
  | 1 => collReduce true fmt len xs
  | 2 => ((collReduce false fmt len xs).drop (rank * (len / xs.length))).take (len / xs.length)
  | 3 => xs.flatten
  | 4 => xs.getD root []
  | _ => []

/-! ### Progress (R286-R288) -/

/-- Messages of the other members for a collective. -/
def Comm.others (c : Comm) (w : CollLocal) : List CollMsg := c.msgs.filter (fun m => m.number == w.msg.number)

/-- Two members agree on P and the member list (R401). -/
def CollMsg.sameGroup (a b : CollMsg) : Bool := a.members == b.members && a.digest == b.digest

/-- Two members agree (R286, R401). -/
def CollMsg.agrees (a b : CollMsg) : Bool :=
  CollMsg.sameGroup a b && a.op == b.op && a.fmt == b.fmt && a.len == b.len && a.root == b.root && a.seq == b.seq

/-- The collective has formed: every member's message is there, or one shows another group (R286, R401). -/
def Comm.formed (c : Comm) (w : CollLocal) : Bool :=
  let ms := c.others w
  (List.range w.msg.members).all (fun r => r == w.msg.rank || ms.any (fun m => m.rank == r)) ||
    ms.any (fun m => !CollMsg.sameGroup m w.msg)

/-- The members' bytes in rank order. -/
def Comm.data (c : Comm) (w : CollLocal) : List (List Byte) :=
  (List.range w.msg.members).map (fun r =>
    if r = w.msg.rank then w.msg.data
    else match (c.others w).find? (fun m => m.rank == r) with
      | some m => m.data
      | none => [])

/-- Bytes written over physical runs, by the IOD agent. -/
def State.writeRuns (actor : Actor) (agent : Nat) : List (Nat × Nat) → List Byte → State → State
  | [], _, s => s
  | (pa, n) :: rs, bs, s => State.writeRuns actor agent rs (bs.drop n) (s.writeAtOnce actor agent pa (bs.take n))

/-- The collective at the head of a communicator ends: its tag's request is performed (R286, R288). -/
def State.endColl (s : State) (part comm : Nat) (c : Comm) (w : CollLocal) (mismatch : Bool) : State :=
  let s1 := s.modPart part (fun p => p.putComm comm
    { c with ended := c.ended + 1, mis := mismatch, waiting := c.waiting.drop 1,
             msgs := c.msgs.filter (fun m => m.number != w.msg.number) })
  s1.modReq w.req (fun r => { r with
    performed := true
    fails := if mismatch then r.fails ++ [(0, ⟨Cause.collMismatch, 0, false, 0⟩)] else r.fails })

/-- The collective at the head of a communicator makes what progress it can: formed, it checks agreement, reduces and
writes RECV. -/
def State.collProgress (s : State) (part comm : Nat) : State :=
  let p := s.part part
  let c := p.comm comm
  match c.waiting with
  | [] => s
  | w :: _ =>
    if p.halted || !c.formed w then s
    else if !(c.others w).all (fun m => CollMsg.agrees m w.msg) then s.endColl part comm c w true
    else
      let out := collResult w.msg.op w.msg.fmt w.msg.len w.msg.root w.msg.rank (c.data w)
      s.writing .iod 4 w.recv true (fun s => (State.writeRuns .iod 4 w.recv out s).endColl part comm c w false)

/-- COLL_MESSAGE_ARRIVAL (R286-R288). -/
def execCollMessageArrival (m : CollMsg) (s : State) : Host.Outcome State Fault Refusal :=
  let s1 := (s.performed (.coll m)).modPart m.part (fun p =>
    let c := p.comm m.comm
    p.putComm m.comm { c with msgs := c.msgs ++ [m] })
  .next (s1.collProgress m.part m.comm)

/-! ### COLL and COLLQ -/

/-- Fields of Table 9.12. -/
def collSend (w : List Word) : Nat := dword w 0 + 2 ^ 32 * bits (dword w 1) 23 0
def collRecv (w : List Word) : Nat := dword w 2 + 2 ^ 32 * bits (dword w 3) 23 0
def collCode (w : List Word) : Nat := bits (dword w 1) 27 24
def collFmt (w : List Word) : Nat := bits (dword w 1) 29 28
def collRoot (w : List Word) : Nat := bits (dword w 5) 17 8

/-- SEND is read at this member (R285). -/
def collReads (w : List Word) (rank : Nat) : Bool := decide (collCode w ≤ 3) || (collCode w == 4 && collRoot w == rank)

/-- The limits of Table 9.12 (R285). -/
def collOk (w : List Word) (e : CommEntry) : Bool :=
  let d := dword w
  let op := collCode w
  decide (op ≤ 5) && bits (d 1) 31 30 == 0 && bits (d 3) 31 24 == 0 && bits (d 5) 31 18 == 0 && bits (d 7) 31 8 == 0 &&
  (collFmt w != 3 || op == 3 || op == 4) &&
  (if op = 5 then collRecv w == 0 && d 4 == 0
   else collRecv w % 16 == 0 && d 4 % 8 == 0 && decide (8 ≤ d 4) && decide (d 4 ≤ 0x40000000) &&
     (op != 2 || d 4 % (8 * e.p) == 0)) &&
  (if op = 4 then decide (collRoot w < e.p) else collRoot w == 0) &&
  (!collReads w e.rank || collSend w % 16 == 0)

/-- Bytes of RECV (R287). -/
def collRecvLen (w : List Word) (p : Nat) : Nat :=
  match collCode w with
  | 2 => dword w 4 / p
  | 3 => p * dword w 4
  | 5 => 0
  | _ => dword w 4

/-- The request is entered on its communicator, and its message goes to every other member (R286, R401). The IOD agent has read
SEND (R204). -/
def Ctx.joinColl (c : Ctx) (f : FarCall) (w : List Word) (e : CommEntry) (send recv : List (Nat × Nat)) : State :=
  let s1 := (c.acceptIn c.s f c.g).mergeRuns 4 send
  let comm := bits (dword w 5) 7 0
  let k := (s1.part c.part).comm comm
  let m : CollMsg :=
    { part := c.part, comm := comm, rank := e.rank, number := k.accepted, op := collCode w, fmt := collFmt w,
      len := dword w 4, root := collRoot w, seq := w.getD 6 0, members := e.p, digest := shake256 e.list,
      data := c.s.readRuns send }
  let s2 := s1.modPart c.part (fun p => p.putComm comm
    { k with accepted := k.accepted + 1, waiting := k.waiting ++ [{ req := c.s.next, recv := recv, msg := m }] })
  let s3 := ((List.range e.p).filter (· != e.rank)).foldl (fun s r =>
    s.owe (e.pkg r) (.coll { m with part := (s.domain c.part (e.pkg r)).getD 0 })) s2
  s3.collProgress c.part comm

/-- The entry of the communicator that a COLL names. -/
def Ctx.collEntry (c : Ctx) (a : RegField) : CommEntry := c.s.commEntry c.part (bits (dword (c.words a 8) 5) 7 0)

/-- The physical runs of SEND, where it is read, and of RECV (R285, R287). -/
def Ctx.collSendRuns (c : Ctx) (a : RegField) : Except (Byte × Nat × Bool) (List (Nat × Nat)) :=
  let w := c.words a 8
  if collReads w (c.collEntry a).rank then c.s.runs c.part (collSend w) (dword w 4) Need.load else .ok []
def Ctx.collRecvRuns (c : Ctx) (a : RegField) : Except (Byte × Nat × Bool) (List (Nat × Nat)) :=
  let w := c.words a 8
  c.s.runs c.part (collRecv w) (collRecvLen w (c.collEntry a).p) Need.store

/-- The checks of a COLL, in the order of R62: its word, its block and its entry, Plumb, GROUP, posted faults. Under once()
it then waits for the gang's earlier accesses, which the collective releases (R216, R285, R286). -/
def Ctx.collStop (c : Ctx) (a : RegField) (t : ByteField) : Option Stop :=
  let w := c.words a 8
  let e := c.collEntry a
  c.onceChecks (blockOk a 48 && decide (t.toNat ≤ 63)) (c.s.commOk c.part e && collOk w e) true (sregs (sreg a) 8) [] [] [] <|>
  c.groupWide (dword w 7) <|> c.readPosted (sregs (sreg a) 8) <|>
  (if c.once ∧ (c.accessesOut || c.s.remoteBusy c.id) then some .stall else none)

/-- COLL (R285, R286). DESIGN CHOICE (log 72): a fault of SEND comes before one of RECV, and both before those of the tag. -/
def execColl (a : RegField) (t : ByteField) (s : State) : Host.Outcome State Fault Refusal :=
  withIssue s fun c =>
    let w := c.words a 8
    c.run (c.collStop a t)
      (c.onceDo (match c.collSendRuns a, c.collRecvRuns a with
        | .error x, _ => c.onceFault x.1 x.2.1 x.2.2
        | _, .error x => c.onceFault x.1 x.2.1 x.2.2
        | .ok ss, .ok rs =>
          c.present (FarCall.plain t.toNat (.coll (bits (dword w 5) 7 0))) none
            (c.joinColl (FarCall.plain t.toNat (.coll (bits (dword w 5) 7 0))) w (c.collEntry a) ss rs)))

/-- COLLQ (R289). -/
def execCollq (d a : RegField) (s : State) : Host.Outcome State Fault Refusal :=
  withIssue s fun c =>
    let x := (c.readS a).toNat
    let k := (s.part c.part).comm x
    c.run (c.onceStop (scalarDst d && scalarOk a) (decide (x < 256) && (s.commEntry c.part x).p != 0) true (regsOf a false)
        [] [] (regsOf d false))
      (c.scalarResult d (BitVec.ofNat 32 (k.ended % 65536 + 65536 * (k.waiting.length % 4096) + 2 ^ 28 * k.mis.toNat)))

end Sys2Proof.Machine
end

