-- ==== Sys2Proof/Machine/SendQueue.lean ====
section
/-! DEFINITION. Send queues, 0x98-0x9A (R370-R376): QSEND, QSTAT and CSLOT, the bytes that arrive here, and the reports of
peers; and what reaches a saved team (R425). -/

namespace Sys2Proof.Machine

/-! ### Circuits that name a peer -/

/-- A slot entry (Table 14.6), a port (Table 14.5). -/
def State.entry (s : State) (j p : Nat) : Circ := Tbl.get Circ.reset s.entries (8 * j + p)
def State.putEntry (s : State) (j p : Nat) (c : Circ) : State := { s with entries := Tbl.set Circ.reset s.entries (8 * j + p) c }
def State.port (s : State) (p : Nat) : Port := Tbl.get Port.reset s.ports p
def State.putPort (s : State) (p : Nat) (x : Port) : State := { s with ports := Tbl.set Port.reset s.ports p x }

/-- The links of port p: those of the peer-fabric pairs attached to plane p (R361). -/
def State.portLinks (s : State) (p : Nat) : List Nat :=
  (List.range 64).flatMap (fun f => if (s.pair f).fab && (s.pair f).plane == p then [2 * f, 2 * f + 1] else [])

/-- The peer to which port p may send now (R361, R364, R366). -/
def State.portPeer (s : State) (p : Nat) : Option Nat :=
  let x := s.port p
  if x.mode = 1 then (if x.circ.state = .active then some x.circ.peer else none)
  else if x.mode = 2 ∧ s.rot.en ∧ s.rot.windowOpen then x.now
  else none

/-- An ACTIVE entry or static port names the peer (R371, Table 14.9). -/
def State.reaches (s : State) (peer : Nat) : Bool :=
  s.entries.any (fun e => e.2.state == .active && e.2.valid && e.2.peer == peer) ||
  (List.range 8).any (fun p => (s.port p).mode == 1 && (s.port p).circ.state == .active && (s.port p).circ.peer == peer)

/-- A circuit to the peer is sending now (Table 14.9). -/
def State.sendsTo (s : State) (peer : Nat) : Bool :=
  (List.range 8).any (fun p => s.portPeer p == some peer && !(s.portLinks p).isEmpty)

/-! ### QSEND -/

/-- The send queue of a partition to a peer (R370). -/
def Partition.sendQueue (p : Partition) (peer : Nat) : List QDesc := Tbl.get [] p.sendq peer
def Partition.putSendQueue (p : Partition) (peer : Nat) (q : List QDesc) : Partition :=
  { p with sendq := Tbl.set [] p.sendq peer q }

/-- Fields of Table 14.8. -/
def qsendSrc (w : List Word) : Nat := dword w 0 + 2 ^ 32 * bits (dword w 1) 23 0
def qsendDst (w : List Word) : Nat := dword w 2 + 2 ^ 32 * bits (dword w 3) 23 0
def qsendNva (w : List Word) : Nat := dword w 6 + 2 ^ 32 * bits (dword w 7) 23 0
def qsendPeer (w : List Word) : Nat := bits (dword w 5) 9 0
def qsendCounter (w : List Word) : Option Nat := if bit (dword w 5) 10 then some (bits (dword w 5) 13 11) else none
def qsendNote (w : List Word) : Bool := bit (dword w 5) 14

/-- The limits of Table 14.8. -/
def qsendOk (pkg : Nat) (w : List Word) : Bool :=
  let d := dword w
  bits (d 1) 31 24 == 0 && bits (d 3) 31 24 == 0 && bits (d 5) 31 15 == 0 && bits (d 7) 31 24 == 0 &&
  qsendSrc w % 16 == 0 && qsendDst w % 16 == 0 && d 4 % 16 == 0 && decide (16 ≤ d 4) && decide (d 4 ≤ 0x40000000) &&
  qsendPeer w != pkg && (bit (d 5) 10 || bits (d 5) 13 11 == 0) &&
  (if qsendNote w then qsendNva w % 8 == 0 else qsendNva w == 0)

/-- The descriptor enters its queue, and its counter rises (R372). -/
def Ctx.enqueue (c : Ctx) (f : FarCall) (w : List Word) (src : List (Nat × Nat)) : State :=
  let g := match qsendCounter w with
    | some k => c.g.putCounter k (c.g.counter k + 1)
    | none => c.g
  let d : QDesc :=
    { req := c.s.next, part := (c.s.domain c.part (qsendPeer w)).getD 0, src := src, va := qsendSrc w, dst := qsendDst w, len := dword w 4,
      note := qsendNote w, nva := qsendNva w, sent := 0 }
  (c.acceptIn c.s f g).modPart c.part (fun p => p.putSendQueue (qsendPeer w) (p.sendQueue (qsendPeer w) ++ [d]))

/-- QSEND (R372). -/
def execQsend (a : RegField) (t : ByteField) (s : State) : Host.Outcome State Fault Refusal :=
  withIssue s fun c =>
    let w := c.words a 8
    let peer := qsendPeer w
    let kc := qsendCounter w
    let f := FarCall.plain t.toNat (.qsend peer kc)
    let full := if 16 ≤ ((s.part c.part).sendQueue peer).length then some (c.park (.qfull peer))
      else match kc with
        | some k => if c.g.counter k = 4095 then some c.waitHere else none
        | none => none
    c.run (c.farStop (blockOk a 48) t (sregs (sreg a) 8) (operandStop (qsendOk s.pkg w) <|>
        c.allStoresFirst))
      (c.onceDo
        (if (s.domain c.part peer).isNone then c.onceFault Cause.permission (qsendDst w)
         else match s.runs c.part (qsendSrc w) (dword w 4) Need.load with
           | .error x => c.onceFault x.1 x.2.1 x.2.2
           | .ok rs => c.present f full (c.enqueue f w rs)))

/-- Bytes of a queue not yet sent, in units of 1,024 rounded up, saturating (Table 14.9). -/
def queueRem (q : List QDesc) : Nat := min ((q.foldl (fun acc d => acc + (d.len - d.sent)) 0 + 1023) / 1024) 0xFFFFFF

/-- QSTAT (R375). -/
def execQstat (d a : RegField) (s : State) : Host.Outcome State Fault Refusal :=
  withIssue s fun c =>
    let x := (c.readS a).toNat
    let q := (s.part c.part).sendQueue x
    c.run (c.onceStop (scalarDst d && scalarOk a) (decide (x < 1024) && (s.domain c.part x).isSome) true (regsOf a false)
        [] [] (regsOf d false))
      (c.scalarResult d (BitVec.ofNat 32
        (q.length + 32 * (s.reaches x).toNat + 64 * (s.sendsTo x).toNat + 256 * queueRem q)))

/-- CIRST[7:0]: SLOT, GUARD, SYNC (Table 14.2). -/
def Rotation.low (r : Rotation) : Nat := r.slot % 64 + 64 * r.guard.toNat + 128 * r.sync.toNat

/-- CSLOT (R376). -/
def execCslot (d : RegField) (s : State) : Host.Outcome State Fault Refusal :=
  withIssue s fun c =>
    c.run (c.onceStop (pairOk d) true true [] [] [] (regsOf d true))
      (c.onceDo (c.next s (c.g.writeNow
        [(.s (sreg d), BitVec.ofNat 32 s.rot.low), (.s (sreg d + 1), s.rot.rot)])))

/-! ### At the peer (R373, R374) -/

/-- The first failure noted of a QSEND that arrives here. -/
def State.qFailure (s : State) (d : QData) : Option QFault :=
  (s.qbad.find? (fun x => x.1 == d.srcPkg && x.2.1 == d.ident)).map (fun x => x.2.2)

/-- A failing page is noted, the first alone. -/
def State.qFail (s : State) (d : QData) (x : QFault) : State :=
  if (s.qFailure d).isSome then s else { s with qbad := s.qbad ++ [(d.srcPkg, d.ident, x)] }

/-- The sender is of this partition's domain (R400). -/
def State.qAccepted (s : State) (d : QData) : Bool := s.domain d.part d.srcPkg == some d.srcPart

/-- The runs that the bytes fall in. -/
def State.qRuns (s : State) (d : QData) : List (Nat × Nat × Except Byte Nat) :=
  s.run d.part d.dst d.data.length Need.store

/-- The physical runs that the bytes and the notify write. -/
def State.qPlaces (s : State) (d : QData) : List (Nat × Nat) :=
  okRuns (s.qRuns d) ++
  (if d.last && d.note then match s.access d.part d.nva 8 Need.atomic with
    | .ok pa => [(pa, 8)]
    | .error _ => []
   else [])

/-- The bytes written, page by page; a page that faults is not. -/
def State.qWrite (s : State) (d : QData) : State :=
  (s.qRuns d).foldl (fun acc r => match r.2.2 with
    | .ok pa => (acc.cache d.part r.1).writeAtOnce .iod 4 pa ((d.data.drop (r.1 - d.dst)).take r.2.1)
    | .error e => acc.qFail d { cause := e, addr := r.1 }) s

/-- The notify: LEN added to the word at NVA (R373); a word that cannot be corrected fails it (R430). -/
def State.qNotify (s : State) (d : QData) : State :=
  if !d.note || (s.qFailure d).isSome then s
  else match s.access d.part d.nva 8 Need.atomic with
    | .ok pa =>
      if s.spoiled pa 8 Need.atomic then s.qFail d { cause := Cause.permission, addr := d.nva, ecc := true }
      else (s.cache d.part d.nva).writeAtOnce .iod 4 pa (leBytes 8 (Memory.readNat s.vault pa 8 + d.total))
    | .error e => s.qFail d { cause := e, addr := d.nva }

/-- The last bytes are written: the notify, and the report to the sender (R373, R374). -/
def State.qLast (s : State) (d : QData) : State :=
  let s1 := if s.qAccepted d then s.qNotify d else s
  let s2 := s1.emit (.qsendReport d.srcPkg d.ident (s1.qFailure d))
  { s2 with qbad := s2.qbad.filter (fun x => !(x.1 == d.srcPkg && x.2.1 == d.ident)) }

/-- The bytes of a QSEND taken: written, or refused; the last of them make the notify and the report (R373, R374, R400). -/
def State.qTake (s : State) (d : QData) : State :=
  let s1 := s.performed (.qdata d)
  let s2 := if s1.qAccepted d then s1.qWrite d else s1.qFail d { cause := Cause.permission, addr := d.dst }
  if d.last then s2.qLast d else s2

/-- QSEND_DATA_ARRIVAL (R373, R374, R400): the IOD agent writes once its covered writes are applied and no lane holds a granule
(R204, R222). -/
def execQsendDataArrival (d : QData) (s : State) : Host.Outcome State Fault Refusal :=
  let s1 := s.arrive (.qdata d)
  whenever (s1.firstInbound (.qdata d)) s1 (s1.writing .iod 4 (s1.qPlaces d) true (fun s => s.qTake d))

/-! ### At the sender -/

/-- The request has wholly left its queue. -/
def State.qSent (s : State) (part peer req : Nat) : Bool := !(((s.part part).sendQueue peer).any (fun d => d.req == req))

/-- A QSEND ends: its counter falls, and its tag's request ends (R373). -/
def State.endQsend (s : State) (req : Nat) (r : FarReq) (kc : Option Nat) (failed : Option QFault) : State :=
  let s1 := s.putReq req { r with
    performed := true
    fails := match failed with
      | some x => r.fails ++ [(0, ⟨x.cause, x.addr, x.ecc, 0⟩)]
      | none => r.fails }
  let s2 := match kc with
    | some k => s1.modGang r.gang (fun g => g.putCounter k (g.counter k - 1))
    | none => s1
  (s2.endRequest req).sweepTokens r.gang

/-- QSEND_COMPLETION_REPORT (R373, R374). -/
def execQsendCompletionReport (req : Nat) (failed : Option QFault) (s : State) : Host.Outcome State Fault Refusal :=
  match s.req? req with
  | none => .next s
  | some r => match r.kind with
    | .qsend peer kc => whenever (s.qSent (s.teamPart r.team) peer req) s
        (s.onImage r.team (fun s => s.throughImage r.team (fun s => s.endQsend req r kc failed)))
    | _ => .next s

/-! ### Saved teams (R425) -/

/-- A send to a saved gang fills its mailbox if it is EMPTY (R331). -/
def Gang.takeMail (g : Gang) (m : Nat) (v : DWord) : Gang := if (g.mailbox m).isNone then g.putMailbox m (some v) else g

/-- SAVED_TEAM_ARRIVAL (R331, R425): what is addressed to a saved team is written into its image. -/
def execSavedTeamArrival (team : Nat) (a : SavedArrival) (s : State) : Host.Outcome State Fault Refusal :=
  match a with
  | .reply gang r => whenever (s.isSaved team && match s.remote? r.ident, s.gang? gang with
      | some o, some g => o.gang == gang && g.team == team
      | _, _ => false) s (s.onImage team (fun s => (s.performed (.reply r)).replyAnywhere r))
  | .requestEnd req => match s.req? req with
    | none => .next s
    | some r => whenever (s.isSaved team && r.team == team && r.over && s.reported r && !s.reqHalted r) s
        (s.onImage team (fun s => s.throughImage team (fun s => s.endRequest req)))
  | .mailbox gang m v => match s.gang? gang with
    | none => .next s
    | some g => whenever (s.isSaved team && g.team == team) s
        (s.onImage team (fun s => s.throughImage team (fun s => s.modGang gang (fun g => g.takeMail m v))))
  | .cancel => whenever (s.isSaved team) s
      (s.onImage team (fun s => s.throughImage team (fun s => s.modTeamGangs team (fun g => g.latch 16))))

end Sys2Proof.Machine
end

