-- ==== Sys2Proof/Machine/Circuits.lean ====
section
/-! DEFINITION. Optical pairs, links and channels as one end sees them (R431, R446-R450), and circuits: rotation of the
slots and the set-up of a circuit (R361-R369). -/

namespace Sys2Proof.Machine

/-! ### Pairs, links, channels, lines -/

/-- Laser line λ of array e (R439). -/
def State.line (s : State) (e lam : Nat) : Line := Tbl.get Line.reset s.lines (16 * e + lam)
def State.putLine (s : State) (e lam : Nat) (x : Line) : State := { s with lines := Tbl.set Line.reset s.lines (16 * e + lam) x }

/-- The pair of a link (R431). -/
def pairOfLink (k : Nat) : Nat := if k < 128 then k / 2 else pairOfChan (k - 128)
/-- The channels of a link (R431). -/
def linkChans (k : Nat) : List Nat := if k < 128 then (List.range 8).map (fun i => 8 * k + i) else [k - 128]
/-- The link of a channel, by the fabric of its pair. -/
def State.linkOf (s : State) (c : Nat) : Nat := if (s.pair (pairOfChan c)).fab then c / 8 else 128 + c

/-- The partition that owns a pair. -/
def Pair.owner? (f : Pair) : Option Nat := if f.ownv then some f.owner else none
/-- The partition owns the pair; it owns at least one. -/
def State.ownsPair (s : State) (part f : Nat) : Bool := (s.pair f).owner? == some part
def State.ownsSome (s : State) (part : Nat) : Bool := (List.range 64).any (s.ownsPair part)

/-- The partition that owns the pair has selected the host-assisted mode of bit n of MODES (R403). -/
def State.assistedPair (s : State) (f n : Nat) : Bool := match (s.pair f).owner? with
  | some p => (s.part p).modes.getLsbD n
  | none => false

/-- A bit of type RW1C has set: as the effect of a word, it prevails over every clear of its cycle (R6). -/
def State.rise (s : State) (b : Risen) : State := if s.cur.isSome then { s with risen := b :: s.risen } else s

/-- EVT of a pair sets; its owner's OPTVEC is raised (Tables 18.5 and 18.7). -/
def State.setEvt (s : State) (f : Nat) : State :=
  let x := s.pair f
  let s1 := (s.putPair f { x with evt := true }).rise (.pairEvt f)
  match x.owner? with
  | some p => if !x.evt && (s.part p).opten then s1.emit (.msix p (s.part p).optvec.toNat) else s1
  | none => s1

/-- The target width of a link: the larger of the two ends' requests (R446); 1 in the memory fabric. -/
def State.targetOf (s : State) (k : Nat) : Nat := if k < 128 then max (s.link k).tgtw (s.link k).farTgtw else 1

/-- The channels of a link that are not DOWN. -/
def State.liveChans (s : State) (k : Nat) : List Nat := (linkChans k).filter (fun c => (s.chan c).state != .down)

/-- The channel lies within its link's target (R447). A memory-fabric channel does while its PARK is 0. -/
def State.within (s : State) (k c : Nat) : Bool :=
  if k < 128 then ((s.liveChans k).take (s.targetOf k)).contains c else !(s.chan c).park

/-- The ACTIVE channels of a link, but for those being parked. -/
def State.activeChans (s : State) (k : Nat) : List Nat :=
  (linkChans k).filter (fun c => (s.chan c).state == .active && !(s.chan c).parking)

/-- The largest of 8, 4, 2 and 1 that is at most n; 0 if none is (R446). -/
def widthAtMost (n : Nat) : Nat := if 8 ≤ n then 8 else if 4 ≤ n then 4 else if 2 ≤ n then 2 else if 1 ≤ n then 1 else 0

/-- The width that R446 gives a link. -/
def State.widthFor (s : State) (k : Nat) : Nat := widthAtMost (min (s.targetOf k) (s.activeChans k).length)

/-- Its parked channels wake as their target asks: a peer pair once a circuit SETUP has trained it (R447). -/
def State.wakes (s : State) (k : Nat) : Bool := decide (128 ≤ k) || (s.pair (pairOfLink k)).trained

/-- A parked channel within the target wakes; while it parks, the wake waits (R447, R450). -/
def State.wakeChan (s : State) (k c : Nat) : State :=
  let x := s.chan c
  if x.state == .parked && s.within k c && !x.ps1 && s.wakes k then s.putChan c { x with state := .waking } else s

/-- A peer link still uses the channel: it is one of the first ACTIVE ones, as many as its width (R446, R448). -/
def State.carriesOn (s : State) (k c : Nat) : Bool := decide (k < 128) && ((s.activeChans k).take (s.link k).curw).contains c

/-- An active channel beyond the target, which its link has left, begins to park (R447). -/
def State.parkChan (s : State) (k c : Nat) : State :=
  let x := s.chan c
  if x.state == .active && !s.within k c && !x.parking && !s.carriesOn k c then s.putChan c { x with parking := true } else s

/-- Messages of flits that are not acknowledged, in order (R442). -/
def Link.unacked (x : Link) : List Flit := x.sent.filter (fun f => f.msg.isSome)

/-- A link without an active channel goes down (R446): what it owed waits for another link or for its own return. -/
def Link.fall (x : Link) : Link :=
  { x with state := .down, curw := 0, owed := x.owed ++ x.unacked, sent := [], again := [], nakOwed := false, nakRun := 0,
           discarding := false, nextWidth := none, remap := none }

/-- A link comes up at a width; both directions count their flits from 0 (log 39). -/
def Link.rise (x : Link) (w : Nat) : Link :=
  { x with state := .up, curw := w, rxw := w, rxNext := none, fseq := 0, expect := 0, nextWidth := none, remap := none,
           discarding := false, nakOwed := false, nakRun := 0 }

/-- A link follows its channels and its target (R446-R448): parked channels within the target wake; the link comes up, goes
down, or is to change its width; a link that has narrowed parks the channels it has left. While it retrains, nothing of
this begins (R443). -/
def State.settleLink (s : State) (k : Nat) : State :=
  let s1 := if (s.link k).state == .retraining then s else (linkChans k).foldl (fun acc c => acc.wakeChan k c) s
  let x := s1.link k
  let w := s1.widthFor k
  match x.state with
  | .retraining => s1
  | .down => if w = 0 ∨ x.stuck then s1 else s1.putLink k (x.rise w)
  | _ =>
    if w = 0 then s1.putLink k x.fall
    else if 128 ≤ k then (linkChans k).foldl (fun acc c => acc.parkChan k c) s1
    else if w = x.curw then
      (linkChans k).foldl (fun acc c => acc.parkChan k c) (s1.putLink k { x with state := .up, nextWidth := none })
    else s1.putLink k { x with state := .widthChange, nextWidth := some w }

/-- A memory-fabric channel that is told to park narrows its link to nothing: it parks as it stands (R447). While its link retrains
nothing of this begins: it is done after that (R443). -/
def State.settleChan (s : State) (c : Nat) : State :=
  let k := s.linkOf c
  if 128 ≤ k ∧ (s.link k).state ≠ .retraining then (((s.wakeChan k c).parkChan k c).settleLink k) else s.settleLink k

/-! ### Training by a SETUP (R447, R471) -/

/-- The channels of a pair begin to train: DOWN channels are tried, parked ones within the target wake. -/
def State.trainPair (s : State) (f : Nat) : State :=
  let x := s.pair f
  if x.fab && !x.trained then
    let s1 := s.putPair f { x with trained := true }
    let s2 := ((List.range 16).map (fun i => 16 * f + i)).foldl (fun acc c =>
      if (acc.chan c).state == .down then acc.modChan c (fun y => { y with trying := true, tried := true }) else acc) s1
    (s2.settleLink (2 * f)).settleLink (2 * f + 1)
  else s

/-- The pairs of port p train. -/
def State.trainPort (s : State) (p : Nat) : State :=
  (List.range 64).foldl (fun acc f => if (acc.pair f).plane == p then acc.trainPair f else acc) s

/-! ### Circuits (Table 14.7) -/

/-- The circuit of a slot entry or of a static port. -/
def State.circ (s : State) : Circuit → Circ
  | .slot j p => s.entry j p
  | .port p => (s.port p).circ
def State.putCirc (s : State) (c : Circuit) (x : Circ) : State := match c with
  | .slot j p => s.putEntry j p x
  | .port p => s.putPort p { s.port p with circ := x }
def circuitPort : Circuit → Nat
  | .slot _ p => p
  | .port p => p

/-- The peer that a circuit names: an entry with VALID, a static port in MODE 1 (R368). -/
def State.circTarget (s : State) (c : Circuit) : Option Nat := match c with
  | .slot j p => if (s.entry j p).valid then some (s.entry j p).peer else none
  | .port p => if (s.port p).mode = 1 then some (s.port p).circ.peer else none

/-- The port no longer sends in the slot that names this entry. -/
def State.leaveSlot (s : State) (c : Circuit) : State := match c with
  | .slot j p => if j = s.rot.slot then s.putPort p { s.port p with now := none } else s
  | .port _ => s

/-- The SETUP that was sent last is given up unanswered. -/
def Circ.giveUp (x : Circ) : Circ := { x with stale := x.stale ++ [(x.num, x.peer)] }

/-- SETUP is sent to a peer: first, or again after a back-off (R368, R369). -/
def State.sendSetup (s : State) (c : Circuit) (x : Circ) (peer : Nat) : State :=
  (s.putCirc c { x with backoff := false, num := x.num + 1 }).emit (.circSetup ⟨c, x.num + 1⟩ peer)

/-- SETUP written (Table 14.7). -/
def State.circSetup (s : State) (c : Circuit) : State :=
  let x := s.circ c
  match s.circTarget c with
  | none => s
  | some peer =>
    if x.state == .idle || x.state == .failed then
      (s.sendSetup c { x with state := .pending, naks := 0, cause := 0 } peer).trainPort (circuitPort c)
    else s

/-- TDOWN written (Table 14.7). -/
def State.circTdown (s : State) (c : Circuit) : State :=
  let x := s.circ c
  match x.state with
  | .pending => s.putCirc c { (if x.backoff then x else x.giveUp) with state := .idle, backoff := false }
  | .active => ((s.putCirc c { x with state := .idle }).leaveSlot c).emit (.circTeardown c x.peer)
  | _ => s

/-- What a link records of its peer: its Abnel version. -/
def State.recordPeer (s : State) (c : Circuit) (peer : Nat) (caps : BitVec 7) (version : Nat) : State :=
  (s.portLinks (circuitPort c)).foldl (fun acc k => acc.putLink k { acc.link k with version := version })
    { s with caps := Tbl.set 0 s.caps peer caps }

/-- The highest Abnel version that both ends implement; this package implements 1 and 2 (R408, Table 16.7). -/
def abnelCommon (lo hi : Nat) : Option Nat := if lo ≤ min hi 2 ∧ 1 ≤ min hi 2 then some (min hi 2) else none

/-- A SETUP from a peer (R368, R408): NAK unless the entry names the sender and a version is common; else ACK, and the
entry is ACTIVE. -/
def State.circReceive (s : State) (r : SetupRef) (peer : Nat) (caps : BitVec 7) (lo hi : Nat) : State :=
  let c := r.circ
  let x := s.circ c
  if s.circTarget c ≠ some peer then s.emit (.circNak r peer .mismatch)
  else match abnelCommon lo hi with
    | none => s.emit (.circNak r peer .version)
    | some v =>
      let idle := x.state == .idle || x.state == .failed
      let y := { x with
        state := .active
        naks := if idle then 0 else x.naks
        cause := if idle then 0 else x.cause
        backoff := false }
      ((((s.putCirc c y).recordPeer c peer caps v).trainPort (circuitPort c))).emit (.circAck r peer)

/-- The answer is to the SETUP for which the entry waits. -/
def Circ.awaits (x : Circ) (n : Nat) : Bool := x.state == .pending && n == x.num
/-- The SETUP is answered: it is no longer one given up. -/
def Circ.answered (x : Circ) (n : Nat) : Circ := { x with stale := x.stale.filter (fun e => e.1 != n) }

/-- An ACK (Table 14.7): that of a SETUP given up is answered with TEARDOWN. -/
def State.circAck (s : State) (r : SetupRef) (caps : BitVec 7) (version : Nat) : State :=
  let c := r.circ
  let x := s.circ c
  if x.awaits r.num then
    (s.putCirc c { x with state := .active, backoff := false }).recordPeer c x.peer caps version
  else match x.stale.find? (fun e => e.1 == r.num) with
    | some e => (s.putCirc c (x.answered r.num)).emit (.circTeardown c e.2)
    | none => s

/-- A NAK (Table 14.7, R369). -/
def State.circNak (s : State) (r : SetupRef) (cause : NakCause) : State :=
  let c := r.circ
  let x := s.circ c
  if !x.awaits r.num then s.putCirc c (x.answered r.num)
  else match cause with
    | .blocked =>
      if s.rot.hostm || x.naks = 15 then s.putCirc c { x with state := .failed, naks := x.naks + 1, cause := 1 }
      else s.putCirc c { x with naks := x.naks + 1, backoff := true }
    | .mismatch => s.putCirc c { x with state := .failed, cause := 2 }
    | .version => s.putCirc c { x with state := .failed, cause := 3 }

/-- A SETUP received (R368, R408). -/
def execSetup (c : SetupRef) (peer : Nat) (caps : BitVec 7) (version : Nat × Nat) (s : State) :
    Host.Outcome State Fault Refusal := .next (s.circReceive c peer caps version.1 version.2)

/-- An ACK received (R368). -/
def execAck (c : SetupRef) (caps : BitVec 7) (version : Nat) (s : State) : Host.Outcome State Fault Refusal :=
  .next (s.circAck c caps version)

/-- A NAK received (R368, R369). -/
def execNak (c : SetupRef) (cause : NakCause) (s : State) : Host.Outcome State Fault Refusal := .next (s.circNak c cause)

/-- A TEARDOWN received (R368). -/
def execTeardown (c : Circuit) (s : State) : Host.Outcome State Fault Refusal :=
  whenever ((s.circ c).state == .active) s ((s.putCirc c { s.circ c with state := .idle }).leaveSlot c)

/-- SETUP_TIMEOUT: 1 ms without an answer to the last SETUP sent (R368, R480). -/
def execSetupTimeout (c : Circuit) (s : State) : Host.Outcome State Fault Refusal :=
  let x := s.circ c
  whenever (x.state == .pending && !x.backoff) s (s.putCirc c { x.giveUp with state := .failed, cause := 4 })

/-- SETUP_RETRY: the back-off of R369 is over. -/
def execSetupRetry (c : Circuit) (s : State) : Host.Outcome State Fault Refusal :=
  let x := s.circ c
  whenever (x.state == .pending && x.backoff) s (s.sendSetup c x x.peer)

/-- SLOT_SETUP (R368). -/
def execSlotSetup (j p : Nat) (s : State) : Host.Outcome State Fault Refusal := whenReady s (s.circSetup (.slot j p))
/-- SLOT_TDOWN (R368). -/
def execSlotTdown (j p : Nat) (s : State) : Host.Outcome State Fault Refusal := whenReady s (s.circTdown (.slot j p))
/-- PORT_SETUP (R368). -/
def execPortSetup (p : Nat) (s : State) : Host.Outcome State Fault Refusal := whenReady s (s.circSetup (.port p))
/-- PORT_TDOWN (R368). -/
def execPortTdown (p : Nat) (s : State) : Host.Outcome State Fault Refusal := whenReady s (s.circTdown (.port p))

/-! ### Markers and windows (R364-R366) -/

/-- A held NSLOT and SLOTLEN come into force. -/
def Rotation.apply (r : Rotation) : Rotation := match r.held with
  | some (n, l) => { r with nslot1 := n, slotlen := l, held := none }
  | none => r

/-- The peer to which a slotted port sends in slot j: that of its entry, if ACTIVE as the marker arrives (R366). -/
def State.slotPeer (s : State) (j p : Nat) : Option Nat :=
  if (s.entry j p).state == .active then some (s.entry j p).peer else none

/-- The ports take their peers for a slot; none while they idle. -/
def State.setPorts (s : State) (f : Nat → Option Nat) : State :=
  (List.range 8).foldl (fun acc p => acc.putPort p { acc.port p with now := f p }) s

/-- SLOT_MARKER (R365): a marker of slot 0 first applies what is held; a number at or above NSLOT is not obeyed. -/
def State.marker (s : State) (j : Nat) : State :=
  let r := if j = 0 then s.rot.apply else s.rot
  if r.nslot1 < j then
    { s with rot := { r with resync := true, sync := true, guard := false, windowOpen := false } }.setPorts (fun _ => none)
  else
    { s with rot := { r with
        slot := j, seen := true, sync := true, guard := true, windowOpen := false,
        resync := r.resync || (r.seen && j != (r.slot + 1) % (r.nslot1 + 1)),
        rot := if j = 0 then r.rot + 1 else r.rot } }.setPorts (s.slotPeer j)

def execSlotMarker (j : Nat) (s : State) : Host.Outcome State Fault Refusal := .next (s.marker j)

/-- GUARD_END: the window opens for slotted links (R364). -/
def execGuardEnd (s : State) : Host.Outcome State Fault Refusal :=
  whenever s.rot.guard s { s with rot := { s.rot with guard := false, windowOpen := true } }

/-- SLOT_WINDOW_CLOSE (R364, R365): the window closes; if no new marker has come, slotted ports idle and MISS sets. -/
def execSlotWindowClose (nextMarker : Bool) (s : State) : Host.Outcome State Fault Refusal :=
  let r := { s.rot with windowOpen := false }
  whenever s.rot.sync s
    (if nextMarker then { s with rot := r }
     else { s with rot := { r with guard := false, sync := false, miss := true } }.setPorts (fun _ => none))

/-- A write of CIRCTL (R365): NSLOT-1 and SLOTLEN that differ from those in force are held. -/
def Rotation.write (r : Rotation) (v : Word) : Rotation :=
  let n := bits v.toNat 6 1
  let l := max 100 (bits v.toNat 23 8)
  { r with en := v.getLsbD 0, hostm := v.getLsbD 24,
           held := if n = r.nslot1 ∧ l = r.slotlen then none else some (n, l) }

/-- CIRCTL_WRITE (R365, R367): by a gang or the virtual function of a partition that owns a pair. -/
def execCirctlWrite (src : Source) (part : Nat) (v : Word) (s : State) : Host.Outcome State Fault Refusal :=
  whenever (s.isReady && src == .vf && s.ownsSome part) s { s with rot := s.rot.write v }

/-! ### Registers (Tables 14.1-14.6) -/

/-- The code of a circuit's state. -/
def circCode : CircState → Nat
  | .idle => 0
  | .pending => 1
  | .active => 2
  | .failed => 3

/-- Values of the registers. -/
def Rotation.ctl (r : Rotation) : Nat := r.en.toNat + 2 * (r.nslot1 % 64) + 256 * (r.slotlen % 65536) + 2 ^ 24 * r.hostm.toNat
def Rotation.status (r : Rotation) : Nat := r.low + 256 * r.held.isSome.toNat + 65536 * r.miss.toNat + 131072 * r.resync.toNat
def Circ.tail (x : Circ) : Nat := circCode x.state + 4 * (x.naks % 32) + 128 * (x.cause % 8)
def State.portWord (s : State) (p : Nat) : Nat :=
  let x := s.port p
  x.mode % 4 + 4 * (x.circ.peer % 1024) + 2 ^ 14 * x.circ.tail + 2 ^ 24 * min 255 (s.portLinks p).length
def Circ.word (x : Circ) : Nat := x.peer % 1024 + 1024 * x.valid.toNat + 2 ^ 13 * x.tail

/-- A write of PORTCFG p (Table 14.5). -/
def State.writePort (s : State) (p : Nat) (v : Word) : State :=
  let x := s.port p
  let n := v.toNat
  let free := (x.circ.state == .idle || x.circ.state == .failed) && (List.range 64).all (fun j =>
    (s.entry j p).state != .pending && (s.entry j p).state != .active)
  let s1 := if free then s.putPort p { x with mode := if bits n 1 0 = 3 then x.mode else bits n 1 0,
                                              circ := { x.circ with peer := bits n 11 2 } } else s
  let s2 := if bit n 12 then s1.circSetup (.port p) else s1
  if bit n 13 then s2.circTdown (.port p) else s2

/-- A write of slot entry (j, p) (Table 14.6): PEER and VALID before SETUP acts. -/
def State.writeEntry (s : State) (j p : Nat) (v : Word) : State :=
  let x := s.entry j p
  let n := v.toNat
  let s1 := if x.state == .idle || x.state == .failed then s.putEntry j p { x with peer := bits n 9 0, valid := bit n 10 } else s
  let s2 := if bit n 11 then s1.circSetup (.slot j p) else s1
  if bit n 12 then s2.circTdown (.slot j p) else s2

/-- Every channel of the pair is parked or down (R15, R361). -/
def State.pairQuiet (s : State) (f : Nat) : Bool :=
  (List.range 16).all (fun i => (s.chan (16 * f + i)).state == .parked || (s.chan (16 * f + i)).state == .down)

/-- A write of PAIRPLN f (R361). -/
def State.writePlane (s : State) (f : Nat) (v : Word) : State :=
  if s.pairQuiet f then s.putPair f { s.pair f with plane := bits v.toNat 2 0 } else s

end Sys2Proof.Machine
end

