-- ==== Sys2Proof/Machine/Integer.lean ====
section
/-! DEFINITION. Integer and logic instructions, 0x10-0x2F (R127-R132). -/

namespace Sys2Proof.Machine

/-- A binary integer instruction under INT: f takes the type, whether it saturates, and the patterns of a and b (R127). -/
def Ctx.binInt (c : Ctx) (d a b : RegField) (f : Nat → Bool → Nat → Nat → Nat) : Host.Outcome State Fault Refusal :=
  let t := c.etype
  let w := isWide t
  c.run (c.dataStop (inINT t) true d w false [(a, w)] [(b, w)])
    (c.data 4 d w false (fun l =>
      (elemOut t (f t c.sat (c.readA a w l % 2 ^ ebits t) (c.readB b w l % 2 ^ ebits t)), Flags.none)))

/-- A shift: its count is read32 of b (R128). -/
def Ctx.shiftInt (c : Ctx) (d a b : RegField) (f : Nat → Nat → Nat → Nat) : Host.Outcome State Fault Refusal :=
  let t := c.etype
  let w := isWide t
  c.run (c.dataStop (inINT t) true d w false [(a, w)] [(b, false)])
    (c.data 4 d w false (fun l =>
      (elemOut t (f (ebits t) (c.readA a w l % 2 ^ ebits t) (c.readB b false l)), Flags.none)))

/-- A unary or immediate integer instruction (R129, R131). -/
def Ctx.unInt (c : Ctx) (d a : RegField) (f : Nat → Bool → Nat → Nat) : Host.Outcome State Fault Refusal :=
  let t := c.etype
  let w := isWide t
  c.run (c.dataStop (inINT t) true d w false [(a, w)] [])
    (c.data 4 d w false (fun l => (elemOut t (f t c.sat (c.readA a w l % 2 ^ ebits t)), Flags.none)))

/-- x shifted left by n, 0 from the width on (R128). -/
def shlBits (w x n : Nat) : Nat := if w ≤ n then 0 else x * 2 ^ n % 2 ^ w
/-- x shifted right with zeros, 0 from the width on (R128). -/
def shrBits (w x n : Nat) : Nat := if w ≤ n then 0 else x / 2 ^ n
/-- x shifted right with copies of bit w − 1 (R128). -/
def sarBits (w x n : Nat) : Nat := ((asInt true w x / (2 ^ min n w : Nat)) % (2 ^ w : Nat)).toNat
/-- x rotated left by n mod w (R128). -/
def rotlBits (w x n : Nat) : Nat := (x * 2 ^ (n % w) % 2 ^ w) + x / 2 ^ (w - n % w)

/-- Leading zero bits of a w-bit pattern (R131). -/
def clzBits (w x : Nat) : Nat := if x = 0 then w else w - 1 - Nat.log2 x
/-- One bits of a w-bit pattern (R131). -/
def popBits (w x : Nat) : Nat := ((List.range w).filter (fun i => x.testBit i)).length
/-- The w bits in reverse order (R131). -/
def revBits (w x : Nat) : Nat := (List.range w).foldl (fun acc i => if x.testBit i then acc + 2 ^ (w - 1 - i) else acc) 0

/-- The field of len bits from bit pos of x; a bit at w or above reads as bit w − 1 if signed, else 0 (R132). -/
def bfeBits (signed : Bool) (w x pos len : Nat) : Nat :=
  if len = 0 then 0
  else
    let n := min len w
    let v := ((asInt signed w x / (2 ^ pos : Nat)) % (2 ^ n : Nat)).toNat
    extend signed n w v
/-- d with bits pos to min(pos + len, w) − 1 replaced by the low bits of x (R132). -/
def bfiBits (w d x pos len : Nat) : Nat :=
  if len = 0 ∨ w ≤ pos then d
  else
    let n := min (pos + len) w - pos
    d - (d / 2 ^ pos % 2 ^ n) * 2 ^ pos + (x % 2 ^ n) * 2 ^ pos

/-- ADD: fit(x + y) (R127). -/
def execAdd (d a b : RegField) (s : State) : Host.Outcome State Fault Refusal :=
  withIssue s fun c => c.binInt d a b (fun t sat x y => fitElem t sat (elemInt t x + elemInt t y))

/-- SUB: fit(x − y) (R127). -/
def execSub (d a b : RegField) (s : State) : Host.Outcome State Fault Refusal :=
  withIssue s fun c => c.binInt d a b (fun t sat x y => fitElem t sat (elemInt t x - elemInt t y))

/-- MUL: fit(x · y) (R127). -/
def execMul (d a b : RegField) (s : State) : Host.Outcome State Fault Refusal :=
  withIssue s fun c => c.binInt d a b (fun t sat x y => fitElem t sat (elemInt t x * elemInt t y))

/-- MULH: the upper half of the exact product (R127). -/
def execMulh (d a b : RegField) (s : State) : Host.Outcome State Fault Refusal :=
  withIssue s fun c => c.binInt d a b (fun t _ x y => ((elemInt t x * elemInt t y / (2 ^ ebits t : Nat)) % (2 ^ ebits t : Nat)).toNat)

/-- MAD: fit(x · y + z), z being d as it stood (R127). -/
def execMad (d a b : RegField) (s : State) : Host.Outcome State Fault Refusal :=
  withIssue s fun c =>
    let t := c.etype
    let w := isWide t
    c.run (c.dataStop (inINT t) true d w true [(a, w)] [(b, w)])
      (c.data 4 d w false (fun l =>
        (elemOut t (fitElem t c.sat (elemInt t (c.readA a w l) * elemInt t (c.readB b w l) + elemInt t (c.readD d w l))),
          Flags.none)))

/-- ABSD: fit(abs(x − y)) (R127). -/
def execAbsd (d a b : RegField) (s : State) : Host.Outcome State Fault Refusal :=
  withIssue s fun c => c.binInt d a b (fun t sat x y => fitElem t sat ((elemInt t x - elemInt t y).natAbs : Int))

/-- MIN: the lesser (R127). -/
def execMin (d a b : RegField) (s : State) : Host.Outcome State Fault Refusal :=
  withIssue s fun c => c.binInt d a b (fun t _ x y => if elemInt t x ≤ elemInt t y then x else y)

/-- MAX: the greater (R127). -/
def execMax (d a b : RegField) (s : State) : Host.Outcome State Fault Refusal :=
  withIssue s fun c => c.binInt d a b (fun t _ x y => if elemInt t x ≤ elemInt t y then y else x)

/-- AND (R127). -/
def execAnd (d a b : RegField) (s : State) : Host.Outcome State Fault Refusal :=
  withIssue s fun c => c.binInt d a b (fun _ _ x y => x &&& y)

/-- OR (R127). -/
def execOr (d a b : RegField) (s : State) : Host.Outcome State Fault Refusal :=
  withIssue s fun c => c.binInt d a b (fun _ _ x y => x ||| y)

/-- XOR (R127). -/
def execXor (d a b : RegField) (s : State) : Host.Outcome State Fault Refusal :=
  withIssue s fun c => c.binInt d a b (fun _ _ x y => x ^^^ y)

/-- ANDN: x and not y (R127). -/
def execAndn (d a b : RegField) (s : State) : Host.Outcome State Fault Refusal :=
  withIssue s fun c => c.binInt d a b (fun t _ x y => x &&& (2 ^ ebits t - 1 - y))

/-- SHL (R128). -/
def execShl (d a b : RegField) (s : State) : Host.Outcome State Fault Refusal :=
  withIssue s fun c => c.shiftInt d a b shlBits

/-- SHR (R128). -/
def execShr (d a b : RegField) (s : State) : Host.Outcome State Fault Refusal :=
  withIssue s fun c => c.shiftInt d a b shrBits

/-- SAR (R128). -/
def execSar (d a b : RegField) (s : State) : Host.Outcome State Fault Refusal :=
  withIssue s fun c => c.shiftInt d a b sarBits

/-- ROTL (R128). -/
def execRotl (d a b : RegField) (s : State) : Host.Outcome State Fault Refusal :=
  withIssue s fun c => c.shiftInt d a b rotlBits

/-- ADDI: fit(x + sext(imm8)), with the immediate as an integer (R129; log 57). -/
def execAddi (d a : RegField) (imm : ByteField) (s : State) : Host.Outcome State Fault Refusal :=
  withIssue s fun c => c.unInt d a (fun t sat x => fitElem t sat (elemInt t x + imm.toInt))

/-- SHLI (R129). -/
def execShli (d a : RegField) (imm : ByteField) (s : State) : Host.Outcome State Fault Refusal :=
  withIssue s fun c => c.unInt d a (fun t _ x => shlBits (ebits t) x imm.toNat)

/-- SHRI (R129). -/
def execShri (d a : RegField) (imm : ByteField) (s : State) : Host.Outcome State Fault Refusal :=
  withIssue s fun c => c.unInt d a (fun t _ x => shrBits (ebits t) x imm.toNat)

/-- SARI (R129). -/
def execSari (d a : RegField) (imm : ByteField) (s : State) : Host.Outcome State Fault Refusal :=
  withIssue s fun c => c.unInt d a (fun t _ x => sarBits (ebits t) x imm.toNat)

/-- ANDI: x and zext(imm8) (R129). -/
def execAndi (d a : RegField) (imm : ByteField) (s : State) : Host.Outcome State Fault Refusal :=
  withIssue s fun c => c.unInt d a (fun _ _ x => x &&& imm.toNat)

/-- ORI: x or zext(imm8) (R129). -/
def execOri (d a : RegField) (imm : ByteField) (s : State) : Host.Outcome State Fault Refusal :=
  withIssue s fun c => c.unInt d a (fun _ _ x => x ||| imm.toNat)

/-- LI: zext(imm16) to one 32-bit register, whatever the type (R130). -/
def execLi (d : RegField) (imm : BitVec 16) (s : State) : Host.Outcome State Fault Refusal :=
  withIssue s fun c =>
    c.run (c.dataStop true true d false false [] []) (c.data 4 d false false (fun _ => (imm.toNat, Flags.none)))

/-- LIH: imm16 over the low half of d (R130). -/
def execLih (d : RegField) (imm : BitVec 16) (s : State) : Host.Outcome State Fault Refusal :=
  withIssue s fun c =>
    c.run (c.dataStop true true d false true [] [])
      (c.data 4 d false false (fun l => (imm.toNat * 65536 + c.readD d false l % 65536, Flags.none)))

/-- CLZ (R131). -/
def execClz (d a : RegField) (s : State) : Host.Outcome State Fault Refusal :=
  withIssue s fun c => c.unInt d a (fun t _ x => clzBits (ebits t) x)

/-- POPC (R131). -/
def execPopc (d a : RegField) (s : State) : Host.Outcome State Fault Refusal :=
  withIssue s fun c => c.unInt d a (fun t _ x => popBits (ebits t) x)

/-- BREV (R131). -/
def execBrev (d a : RegField) (s : State) : Host.Outcome State Fault Refusal :=
  withIssue s fun c => c.unInt d a (fun t _ x => revBits (ebits t) x)

/-- The operands of BFE and BFI: INT32 types, b one 32-bit register (R132). -/
def Ctx.bitField (c : Ctx) (dRead : Bool) (d a b : RegField) (f : Nat → Nat → Nat → Nat → Nat → Nat) :
    Host.Outcome State Fault Refusal :=
  let t := c.etype
  let w := isWide t
  c.run (c.dataStop (inINT32 t) true d w dRead [(a, w)] [(b, false)])
    (c.data 4 d w false (fun l =>
      let y := c.readB b false l
      (elemOut t (f t (c.readD d w l) (c.readA a w l) (bits y 7 0) (bits y 15 8)), Flags.none)))

/-- BFE (R132). -/
def execBfe (d a b : RegField) (s : State) : Host.Outcome State Fault Refusal :=
  withIssue s fun c => c.bitField false d a b (fun t _ x pos len => bfeBits (isSigned t) (ebits t) x pos len)

/-- BFI (R132). -/
def execBfi (d a b : RegField) (s : State) : Host.Outcome State Fault Refusal :=
  withIssue s fun c => c.bitField true d a b (fun t old x pos len => bfiBits (ebits t) old x pos len)

/-- MOV: x as read, unchanged, under every type (R131). -/
def execMov (d a : RegField) (s : State) : Host.Outcome State Fault Refusal :=
  withIssue s fun c =>
    let t := c.etype
    let w := isWide t
    c.run (c.dataStop (inANY t) true d w false [(a, w)] [])
      (c.data 4 d w false (fun l => (elemOut t (c.readA a w l % 2 ^ ebits t), Flags.none)))

/-- NEG: fit(−x) (R131). -/
def execNeg (d a : RegField) (s : State) : Host.Outcome State Fault Refusal :=
  withIssue s fun c => c.unInt d a (fun t sat x => fitElem t sat (-elemInt t x))

/-- ABS: fit(abs(x)) (R131). -/
def execAbs (d a : RegField) (s : State) : Host.Outcome State Fault Refusal :=
  withIssue s fun c => c.unInt d a (fun t sat x => fitElem t sat ((elemInt t x).natAbs : Int))

end Sys2Proof.Machine
end

