-- ==== Sys2Proof/Machine/Compare.lean ====
section
/-! DEFINITION. Compares, predicates, VOTE and PFROM, 0x30-0x3F (R133-R139). -/

namespace Sys2Proof.Machine

/-- The checks of an instruction with a predicate destination: the type, the sources, the interlocks (R133). -/
def Ctx.predStop (c : Ctx) (typeOk : Bool) (d : PredField) (a b : List (RegField × Bool)) (preds : List RegRef)
    (bpreds : List RegRef) : Option Stop :=
  check typeOk Cause.illegalEncoding <|>
  check ((a ++ b).all (fun x => c.srcOk x.1 x.2)) Cause.illegalOperand <|>
  c.hazard (a.flatMap (fun x => regsOf x.1 x.2) ++ preds) (b.flatMap (fun x => regsOf x.1 x.2) ++ bpreds) []
    c.guardRegs [.p d.toNat]

/-- A compare: on integers by the type's signedness, on floats without flushing (R133, R134). quiet: a quiet NaN sets NV. -/
def Ctx.compare (c : Ctx) (d : PredField) (a b : RegField) (onInt : Int → Int → Bool) (onVal : Val → Val → Bool)
    (unordered quiet : Bool) : Host.Outcome State Fault Refusal :=
  let t := c.etype
  let w := isWide t
  c.run (c.predStop (inINT t || inFLT t || inF8 t) d [(a, w)] [(b, w)] [] [])
    (c.predData d (fun l =>
      let x := c.readA a w l % 2 ^ ebits t
      let y := c.readB b w l % 2 ^ ebits t
      if inINT t then (onInt (elemInt t x) (elemInt t y), Flags.none)
      else
        let u := (fmtOf t).decode x
        let v := (fmtOf t).decode y
        if u.isNan || v.isNan then (unordered, Flags.nvIf (u.isSnan || v.isSnan || quiet))
        else (onVal u v, Flags.none)))

/-- CMP.eq (R133, R134). -/
def execCmpEq (d : PredField) (a b : RegField) (s : State) : Host.Outcome State Fault Refusal :=
  withIssue s fun c => c.compare d a b (fun x y => decide (x = y)) Val.eqv false false

/-- CMP.ne (R133, R134). -/
def execCmpNe (d : PredField) (a b : RegField) (s : State) : Host.Outcome State Fault Refusal :=
  withIssue s fun c => c.compare d a b (fun x y => decide (x ≠ y)) (fun u v => !Val.eqv u v) true false

/-- CMP.lt (R133, R134). -/
def execCmpLt (d : PredField) (a b : RegField) (s : State) : Host.Outcome State Fault Refusal :=
  withIssue s fun c => c.compare d a b (fun x y => decide (x < y)) Val.lt false true

/-- CMP.le (R133, R134). -/
def execCmpLe (d : PredField) (a b : RegField) (s : State) : Host.Outcome State Fault Refusal :=
  withIssue s fun c => c.compare d a b (fun x y => decide (x ≤ y)) (fun u v => Val.lt u v || Val.eqv u v) false true

/-- CMP.gt (R133, R134). -/
def execCmpGt (d : PredField) (a b : RegField) (s : State) : Host.Outcome State Fault Refusal :=
  withIssue s fun c => c.compare d a b (fun x y => decide (y < x)) (fun u v => Val.lt v u) false true

/-- CMP.ge (R133, R134). -/
def execCmpGe (d : PredField) (a b : RegField) (s : State) : Host.Outcome State Fault Refusal :=
  withIssue s fun c => c.compare d a b (fun x y => decide (y ≤ x)) (fun u v => Val.lt v u || Val.eqv u v) false true

/-- CMP.un: false for every integer type (R133, R134). -/
def execCmpUn (d : PredField) (a b : RegField) (s : State) : Host.Outcome State Fault Refusal :=
  withIssue s fun c => c.compare d a b (fun _ _ => false) (fun _ _ => false) true false

/-- The imm8 of CMPI: sign-extended to the width of the type, and read as signed or unsigned as the type is (R57, R135; log 57). -/
def immInt (t : Nat) (imm : ByteField) : Int := elemInt t (imm.signExtend 64).toNat

/-- CMPI: x against sext(imm8) under eq, ne, lt or ge (R59, R135). -/
def execCmpi (cond : BitVec 2) (d : PredField) (a : RegField) (imm : ByteField) (s : State) :
    Host.Outcome State Fault Refusal :=
  withIssue s fun c =>
    let t := c.etype
    let w := isWide t
    c.run (c.predStop (inINT t) d [(a, w)] [] [] [])
      (c.predData d (fun l =>
        let x := elemInt t (c.readA a w l)
        let y := immInt t imm
        (match cond.toNat with
          | 0 => decide (x = y)
          | 1 => decide (x ≠ y)
          | 2 => decide (x < y)
          | _ => decide (y ≤ x), Flags.none)))

/-- PAND (R136). -/
def execPand (d a b : PredField) (s : State) : Host.Outcome State Fault Refusal :=
  withIssue s fun c => c.run (c.predStop true d [] [] [.p a.toNat] [.p b.toNat])
    (c.predData d (fun l => (c.pred a l && c.pred b l, Flags.none)))

/-- POR (R136). -/
def execPor (d a b : PredField) (s : State) : Host.Outcome State Fault Refusal :=
  withIssue s fun c => c.run (c.predStop true d [] [] [.p a.toNat] [.p b.toNat])
    (c.predData d (fun l => (c.pred a l || c.pred b l, Flags.none)))

/-- PXOR (R136). -/
def execPxor (d a b : PredField) (s : State) : Host.Outcome State Fault Refusal :=
  withIssue s fun c => c.run (c.predStop true d [] [] [.p a.toNat] [.p b.toNat])
    (c.predData d (fun l => (c.pred a l != c.pred b l, Flags.none)))

/-- PNOT (R136). -/
def execPnot (d a : PredField) (s : State) : Host.Outcome State Fault Refusal :=
  withIssue s fun c => c.run (c.predStop true d [] [] [.p a.toNat] [])
    (c.predData d (fun l => (!c.pred a l, Flags.none)))

/-- PMOV (R136). -/
def execPmov (d a : PredField) (s : State) : Host.Outcome State Fault Refusal :=
  withIssue s fun c => c.run (c.predStop true d [] [] [.p a.toNat] [])
    (c.predData d (fun l => (c.pred a l, Flags.none)))

/-- PSET: 0 or 1 (R137). -/
def execPset (d : PredField) (code : ByteField) (s : State) : Host.Outcome State Fault Refusal :=
  withIssue s fun c => c.run (c.predStop (decide (code.toNat ≤ 1)) d [] [] [] [])
    (c.predData d (fun _ => (code == 1, Flags.none)))

/-- The reductions of Table 5.6 over the lanes that take effect. -/
def voteWord (code : Nat) (takers : List Nat) (p : Nat → Bool) : Nat :=
  match code with
  | 0 => if takers.any p then 1 else 0
  | 1 => if takers.all p then 1 else 0
  | 2 => takers.foldl (fun acc l => if p l then acc + 2 ^ l else acc) 0
  | _ => (takers.filter p).length

/-- VOTE: executes once if the group has an active lane, whatever the guard (R138). -/
def execVote (d : RegField) (a : PredField) (code : ByteField) (s : State) : Host.Outcome State Fault Refusal :=
  withIssue s fun c =>
    c.run (check (decide (code.toNat ≤ 3)) Cause.illegalEncoding <|> check (scalarDst d) Cause.illegalOperand <|>
        c.hazard [.p a.toNat] [] [] c.guardRegs (regsOf d false))
      (let g := c.g.launch c.slices 2 (regsOf d false)
       if c.actives.isEmpty then c.next c.s g
       else c.next c.s (g.writeFixed c.slices 2
         [(.s (sreg d), BitVec.ofNat 32 (voteWord code.toNat c.takers (c.pred a)))]))

/-- PFROM: bit l of a scalar, or whether the lane's register is not 0 (R139). -/
def execPfrom (d : PredField) (a : RegField) (s : State) : Host.Outcome State Fault Refusal :=
  withIssue s fun c => c.run (c.predStop true d [(a, false)] [] [] [])
    (c.predData d (fun l =>
      (if isVec a then c.readA a false l != 0 else (c.field32 a 0).testBit l, Flags.none)))

end Sys2Proof.Machine
end

