-- ==== Sys2Proof/Machine/Control.lean ====
section
/-! DEFINITION. Control and mask instructions, 0x00-0x0F but for REGANG (R69, R113-R126), with TRAP and TRET (R416,
R417). -/

namespace Sys2Proof.Machine

/-- NOP: no effect (R113). -/
def execNop (s : State) : Host.Outcome State Fault Refusal := withIssue s fun c => c.run none c.skip

/-- MODE: the MR copy of every slice of the issuing group, neither guarded nor masked; RND 7 is refused (R69). -/
def execMode (payload : BitVec 24) (s : State) : Host.Outcome State Fault Refusal :=
  withIssue s fun c =>
    c.run (check (Mr.rnd payload != 7) Cause.illegalEncoding)
      (let s' := c.skip
       s'.modGang c.id (fun g => (members c.slices).foldl (fun g sl => g.putMr sl payload) g))

/-- The target of a branch: PC + 4 · sext(imm24), modulo 2^56 (R58). -/
def Ctx.target (c : Ctx) (i : BitVec 24) : VAddr := c.pc + (i.signExtend 56 <<< 2)

/-- The issuing group goes on at pc, with its issue distance advanced. -/
def Ctx.goTo (c : Ctx) (pc : VAddr) : State := c.nextAt c.s c.g pc

/-- The slices of the group that take a branch go on at target, the others at the next word; the group divides if both
sets are non-empty (R27, R118). -/
def Ctx.branch (c : Ctx) (take : SliceMask) (target : VAddr) : State :=
  let yes := c.slices &&& take
  let no := c.slices &&& ~~~take
  if yes = 0 then c.skip
  else if no = 0 then c.goTo target
  else
    let g := c.g.retire c.slices (c.pc + 4) (Mr.cad c.mr)
    let g1 := g.dropGroup c.slices
    let mk := fun m pc => ({ slices := m, pc := pc, park := none, since := 0, idle := Mr.cad c.mr + 1 } : Group)
    c.s.putGang c.id { g1 with groups := insertGroup (mk yes target) (insertGroup (mk no (c.pc + 4)) g1.groups) }

/-- The active lanes of a slice. -/
def Ctx.activeIn (c : Ctx) (sl : Nat) : List Nat := (List.range 4).map (fun i => 4 * sl + i) |>.filter c.active

/-- BRA.any: a slice takes the branch if the guard holds in one of its active lanes (R118). -/
def execBraAny (i : BitVec 24) (s : State) : Host.Outcome State Fault Refusal :=
  withIssue s fun c =>
    c.run (c.hazard [] [] [] c.guardRegs [])
      (c.branch (maskOf 8 (fun sl => (c.activeIn sl).any c.guard)) (c.target i))

/-- BRA.all: a slice with an active lane takes the branch if the guard holds in each of them (R118). -/
def execBraAll (i : BitVec 24) (s : State) : Host.Outcome State Fault Refusal :=
  withIssue s fun c =>
    c.run (c.hazard [] [] [] c.guardRegs [])
      (c.branch (maskOf 8 (fun sl => !(c.activeIn sl).isEmpty && (c.activeIn sl).all c.guard)) (c.target i))

/-- BRAZ: a slice takes the branch if its four emask bits are zero, whatever the guard (R118). -/
def execBraz (i : BitVec 24) (s : State) : Host.Outcome State Fault Refusal :=
  withIssue s fun c =>
    c.run none (c.branch (maskOf 8 (fun sl => c.g.emask.extractLsb' (4 * sl) 4 == 0)) (c.target i))

/-- BRX: to the 56-bit address of the PC's high part and s[a], bits [1:0] zero (R119). -/
def execBrx (a : RegField) (s : State) : Host.Outcome State Fault Refusal :=
  withIssue s fun c =>
    c.run (c.onceStop (scalarOk a) true true (regsOf a false) [] [] [])
      (if c.once then c.goTo (c.pc.extractLsb' 32 24 ++ (c.readS a &&& 0xFFFFFFFC#32)) else c.skip)

/-- CALL: s55 receives PC + 4, visible to the next word (R120). -/
def execCall (i : BitVec 24) (s : State) : Host.Outcome State Fault Refusal :=
  withIssue s fun c =>
    c.run (c.hazard [] [] [] c.guardRegs [.s 55])
      (if c.once then
         c.nextAt c.s (c.g.writeNow [(.s 55, (c.pc + 4).extractLsb' 0 32)]) (c.target i)
       else c.skip)

/-- RET: to s55 within the PC's 4 GiB region (R120). DESIGN CHOICE (log 64): a short read of s55, which no field of the word
names, is recorded with KIND a. -/
def execRet (s : State) : Host.Outcome State Fault Refusal :=
  withIssue s fun c =>
    c.run (c.hazard [.s 55] [] [] c.guardRegs [])
      (if c.once then c.goTo (c.pc.extractLsb' 32 24 ++ (c.sval 55 &&& 0xFFFFFFFC#32)) else c.skip)

/-- Pending results wait no longer for dead slices; those whose producing group has ceased to exist become visible (R477). -/
def Gang.pruneDead (g : Gang) : Gang :=
  Gang.commit { g with flight := g.flight.filter (fun x => g.sliceLive x.slice), pend := g.pend.map (fun p => { p with
      left := p.left.filter (fun x => g.sliceLive x.1) }) }
    (fun p => p.left.isEmpty)

/-- The group of slices m keeps those of left: it takes its place among the groups by its lowest slice, and the turn, if it
is the group's, stays with it (R29, R31). -/
def Gang.shrink (g : Gang) (m left : SliceMask) : Gang :=
  let gs := (g.groups.map (fun x => if x.slices == m then { x with slices := left } else x)).foldr insertGroup []
  { g with groups := gs, turn := if g.turn = lowestSlice m then lowestSlice left else g.turn }

/-- The EXIT would end the gang: every lane that has not exited takes effect (R190, R229). -/
def Ctx.endsGang (c : Ctx) : Bool := allLanes.all (fun l => c.g.exited.getLsbD l || c.takes l)

/-- A posted fault that the last EXIT delivers: one against a counter, a tag or a register (R190, R229, R284). -/
def Posted.atExit (p : Posted) : Bool := match p.at_ with
  | .barrier _ => false
  | _ => true

/-- EXIT: the lanes that take effect retire; a slice without a live lane leaves its group (R31, R122), and undoes the
arrivals that name it (R315). The EXIT that would end the gang first delivers a posted fault (R419). -/
def execExit (s : State) : Host.Outcome State Fault Refusal :=
  withIssue s fun c =>
    c.run (c.hazard [] [] [] c.guardRegs [] <|> (if c.endsGang then c.posted Posted.atExit else none))
      (if c.takers.isEmpty then c.skip
       else
         let m := maskOf 32 c.takes
         let g1 := { c.g with exited := c.g.exited ||| m, emask := c.g.emask &&& ~~~m }
         let g2 := g1.retire c.slices (c.pc + 4) (Mr.cad c.mr)
         let left := c.slices &&& g2.live
         let g3 := if left = 0 then g2.dropGroup c.slices else g2.shrink c.slices left
         (c.s.putGang c.id (g3.pruneDead.slicesDied (c.g.live &&& ~~~g2.live))).endGangIfDone c.id)

/-- The group may issue: it does not idle (R68), and it is not parked, or its parked instruction is presented again
(R307). -/
def Group.issuable (x : Group) : Bool := x.idle == 0 && match x.park with
  | none => true
  | some (.lintel _ _ present) => present
  | some (.corbel present) => present
  | some (.frozen present) => present
  | _ => false

/-- The group after the one whose turn it is, in increasing order of lowest slice, passing over parked groups (R29). -/
def Gang.nextTurn (g : Gang) : Nat :=
  let ready := g.groups.filter Group.issuable
  match ready.find? (fun x => decide (g.turn < lowestSlice x.slices)) with
  | some x => lowestSlice x.slices
  | none => match ready with
    | x :: _ => lowestSlice x.slices
    | [] => g.turn

/-- The turn passes to the next group (R29). -/
def Gang.passTurn (g : Gang) : Gang := { g with turn := g.nextTurn, turnIssues := 0 }

/-- YIELD: the turn passes to the next group of the gang, or, if the gang is ganged, the next cycle of its sub-core to
another ready gang; no architected state changes (R124). -/
def execYield (s : State) : Host.Outcome State Fault Refusal :=
  withIssue s fun c => c.run none ((c.skip).modGang c.id (fun g =>
    if g.parted then g.passTurn else { g.passTurn with yielded := some (c.s.now + 1) }))

/-- emask of the issuing group's slices replaced by f of each lane (R34, R125). -/
def Ctx.setEmask (c : Ctx) (f : Nat → Bool) : State :=
  c.next c.s { c.g with emask := maskOf 32 (fun l =>
    if c.slices.getLsbD (sliceOf l) then f l else c.g.emask.getLsbD l) }

/-- MAND (R125). -/
def execMand (a : PredField) (s : State) : Host.Outcome State Fault Refusal :=
  withIssue s fun c =>
    c.run (c.hazard [.p a.toNat] [] [] [] []) (c.setEmask (fun l => c.g.emask.getLsbD l && c.pred a l))

/-- MANDN (R125). -/
def execMandn (a : PredField) (s : State) : Host.Outcome State Fault Refusal :=
  withIssue s fun c =>
    c.run (c.hazard [.p a.toNat] [] [] [] []) (c.setEmask (fun l => c.g.emask.getLsbD l && !c.pred a l))

/-- MRESTORE: never sets the bit of an exited lane (R34, R125). -/
def execMrestore (a : RegField) (s : State) : Host.Outcome State Fault Refusal :=
  withIssue s fun c =>
    c.run (check (scalarOk a) Cause.illegalOperand <|> c.hazard (regsOf a false) [] [] [] [])
      (c.setEmask (fun l => (c.readS a).getLsbD l && !c.g.exited.getLsbD l))

/-- MSAVE: all 32 bits of emask, once for every issuing group (R125). -/
def execMsave (d : RegField) (s : State) : Host.Outcome State Fault Refusal :=
  withIssue s fun c =>
    c.run (check (scalarDst d) Cause.illegalOperand <|> c.hazard [] [] [] [] (regsOf d false))
      (c.next c.s (c.g.writeNow [(.s (sreg d), c.g.emask)]))

/-- BRK: BREAKPOINT, precise at the BRK, with its imm16 (R126). -/
def execBrk (imm : BitVec 16) (s : State) : Host.Outcome State Fault Refusal :=
  withIssue s fun c => c.run none (c.s.takeTrap c.id (c.trapInfo Cause.breakpoint imm c.pc))

/-- TRAP: SOFTWARE under once(), TPC the next word (R416). -/
def execTrap (imm : BitVec 16) (s : State) : Host.Outcome State Fault Refusal :=
  withIssue s fun c =>
    c.run (c.hazard [] [] [] c.guardRegs [])
      (if c.once then c.s.takeTrap c.id (c.trapInfo Cause.software imm (c.pc + 4)) else c.skip)

/-- TRET: handler mode ends; outside it the word is illegal (R417). A gang left without a live slice has ended (R31). DESIGN
CHOICE (log 64): the fixed-latency results that the handler still has pending all become visible. -/
def execTret (s : State) : Host.Outcome State Fault Refusal :=
  withIssue s fun c =>
    c.run (check c.g.inh Cause.illegalEncoding)
      (match c.g.block with
       | some b =>
         let g := c.g.commitAll.leaveHandler b
         (c.s.putGang c.id (g.slicesDied (c.g.trap.live &&& ~~~g.live))).endGangIfDone c.id
       | none => c.skip)

end Sys2Proof.Machine
end

