-- ==== Sys2Proof/Machine/Convert.lean ====
section
/-! DEFINITION. Conversion, packing and dot products, 0x58-0x5D (R103, R150-R154, R93). -/

namespace Sys2Proof.Machine

/-- A float value converted to an integer of w bits (R103). -/
def valToInt (r : RndEnv) (signed : Bool) (w : Nat) : Val → Nat × Flags
  | .nan _ => (0, Flags.invalid)
  | .inf n => (fitBits signed w true (if n then intMin signed w else intMax signed w), Flags.invalid)
  | .num n m e =>
    let (u, inexact) := toWhole r n m e
    let x : Int := if n then -(u : Int) else u
    if x < intMin signed w ∨ intMax signed w < x then (fitBits signed w true x, Flags.invalid)
    else (fitBits signed w false x, ⟨false, false, false, false, inexact⟩)

/-- An integer converted to a float format (R103). -/
def intToFloat (f : Fmt) (r : RndEnv) (x : Int) : Nat × Flags := f.round r (decide (x < 0)) x.natAbs 0

/-- An element of type t converted to type u (R103, R150). -/
def convert (t u : Nat) (sat : Bool) (r : RndEnv) (x : Nat) : Nat × Flags :=
  match inINT t, inINT u with
  | true, true => (fitElem u sat (elemInt t x), Flags.none)
  | true, false => intToFloat (fmtOf u) r (elemInt t x)
  | false, true => valToInt r (isSigned u) (ebits u) ((fmtOf t).read r.ftz x)
  | false, false => (fmtOf u).deliver r ((fmtOf t).read r.ftz x)

/-- CVT: from MR's type to the type that the code names (R150). It rounds under srd unless both types are integers (R100). -/
def execCvt (d a : RegField) (code : ByteField) (s : State) : Host.Outcome State Fault Refusal :=
  withIssue s fun c =>
    let t := c.etype
    let u := code.toNat
    c.run (c.dataStop (decide (t ≤ 13) && decide (u ≤ 13)) true d (isWide u) false [(a, isWide t)] [])
      (c.data 5 d (isWide u) (c.srd && !(inINT t && inINT u)) (fun l =>
        let r := convert t u c.sat (c.env l 0) (c.readA a (isWide t) l % 2 ^ ebits t)
        (elemOut u r.1, r.2)))

/-- The element formats of CVTB (R151). -/
def cvtbFmt (n : Nat) : Fmt :=
  match n with
  | 0 => Fmt.e5m2
  | 1 => Fmt.e4m3
  | 2 => Fmt.e3m2
  | 3 => Fmt.e2m3
  | _ => Fmt.e2m1

/-- CVTB: the lanes that take effect are one block of a block-scaled format (R151, R93). DESIGN CHOICE (log 64): a scalar a is
read by every lane. -/
def execCvtb (d a b : RegField) (s : State) : Host.Outcome State Fault Refusal :=
  withIssue s fun c =>
    let sel := (c.readS b).toNat % 8
    c.run
      (check (c.etype == 10) Cause.illegalEncoding <|>
        c.onceStop (c.dstOk d false && isVreg d && c.srcOk a false && scalarOk b) (decide (sel ≤ 4)) true
          (regsOf a false) (regsOf b false) [] (regsOf d false))
      (let ls := c.takers
       let (sc, es, fl) := mxBlock (cvtbFmt sel)
         (ls.map (fun l => (c.env l 0, Fmt.f32.read (Acr.ftz c.g.acr) (c.readA a false l))))
       let ws := (ls.zip es).map (fun x => (RegElem.v d.toNat x.1, BitVec.ofNat 32 (sc * 2 ^ 24 + x.2)))
       c.next c.s (((c.g.arith c.srd (ls.map (fun _ => fl))).launch c.slices 5 (regsOf d false)).writeFixed c.slices 5 ws))

/-- The types of PACK and UNPACK (R152). -/
def inPack (t : Nat) : Bool := t == 8 || t == 9 || t == 2 || t == 3 || t == 12 || t == 13 || t == 0 || t == 1

/-- A source of PACK converted to the element type: from f32 under a float type, from s32 or n32 under an integer type. -/
def packElem (t : Nat) (sat : Bool) (r : RndEnv) (x : Nat) : Nat × Flags :=
  if inINT t then (fitElem t sat (asInt (isSigned t) 32 x), Flags.none)
  else (fmtOf t).deliver r (Fmt.f32.read r.ftz x)

/-- PACK (R152): the conversion of a draws with j = 0 and that of b with j = 1. DESIGN CHOICE (log 64): a scalar d makes it
execute once, and a and b may be scalars. -/
def execPack (d a b : RegField) (s : State) : Host.Outcome State Fault Refusal :=
  withIssue s fun c =>
    let t := c.etype
    let narrow := ebits t == 8
    c.run (c.dataStop (inPack t) true d false narrow [(a, false)] [(b, false)])
      (c.data 5 d false (c.srd && !inINT t) (fun l =>
        let x := packElem t c.sat (c.env l 0) (c.readA a false l)
        let y := packElem t c.sat (c.env l 1) (c.readB b false l)
        (if narrow then c.readD d false l % 65536 * 65536 + y.1 * 256 + x.1 else y.1 * 65536 + x.1, Flags.or x.2 y.2)))

/-- UNPACK (R153). DESIGN CHOICE (log 64): a scalar d with a scalar a makes it execute once; and it widens exactly, so under srd
it does not advance ACR.SEED. -/
def execUnpack (d a : RegField) (code : ByteField) (s : State) : Host.Outcome State Fault Refusal :=
  withIssue s fun c =>
    let t := c.etype
    let n := ebits t
    c.run (c.dataStop (inPack t && decide (code.toNat < 32 / n)) true d false false [(a, false)] [])
      (c.data 5 d false false (fun l =>
        let x := c.readA a false l / 2 ^ (n * code.toNat) % 2 ^ n
        if inINT t then (extend (isSigned t) n 32 x, Flags.none)
        else Fmt.f32.deliver RndEnv.rne ((fmtOf t).read (Acr.ftz c.g.acr) x)))

/-- Element i of n bits of a packed register. -/
def packed (x n i : Nat) : Nat := x / 2 ^ (n * i) % 2 ^ n

/-- The sum d + Σ aᵢ · bᵢ of float elements, exact but for one rounding (R154). DESIGN CHOICE (log 64): an exact zero has the
sign that R140 gives a sum of two terms, carried over all of them; and infinities of both signs set NV only where no
operand is a quiet NaN. -/
def dotFloat (t n : Nat) (r : RndEnv) (x y z : Nat) : Nat × Flags :=
  let f := fmtOf t
  let ps := (List.range (32 / n)).map (fun i => (f.read r.ftz (packed x n i), f.read r.ftz (packed y n i)))
  let d := Fmt.f32.read r.ftz z
  let ops := d :: ps.flatMap (fun p => [p.1, p.2])
  let prods := ps.map (fun p => (Val.mul p.1 p.2, p.1.isNan || p.2.isNan))
  let snan := ops.any Val.isSnan
  let invalidProd := prods.any (fun p => p.1.isNone && !p.2)
  if ops.any Val.isNan || invalidProd then (Fmt.f32.nanBits, Flags.nvIf (snan || invalidProd))
  else
    let terms := prods.filterMap (fun p => p.1)
    let nums := (d :: terms).filter (fun v => !v.isInf)
    let infs := (d :: terms).filter Val.isInf
    if infs.any Val.neg && infs.any (fun v => !v.neg) then Fmt.f32.invalid
    else match infs with
      | v :: _ => Fmt.f32.deliver r v
      | [] =>
        match nums.foldl (fun acc v => acc.bind (fun a => Val.add (r.rnd == .rdn) a v)) (some d |>.map (fun _ => Val.num d.neg 0 0)) with
        | some v => Fmt.f32.deliver r v
        | none => Fmt.f32.invalid

/-- The exact sum d + Σ aᵢ · bᵢ of integer elements, fitted at 32 bits (R154). -/
def dotInt (t n : Nat) (sat : Bool) (x y z : Nat) : Nat :=
  let sg := isSigned t
  let sum := (List.range (32 / n)).foldl (fun acc i => acc + asInt sg n (packed x n i) * asInt sg n (packed y n i))
    (asInt sg 32 z)
  fitBits sg 32 sat sum

/-- DOT2 and DOT4: d is one 32-bit accumulator, read and written (R154). -/
def Ctx.dot (c : Ctx) (typeOk : Nat → Bool) (d a b : RegField) : Host.Outcome State Fault Refusal :=
  let t := c.etype
  c.run (c.dataStop (typeOk t) true d false true [(a, false)] [(b, false)])
    (c.data 5 d false (c.srd && !inINT t) (fun l =>
      let x := c.readA a false l
      let y := c.readB b false l
      let z := c.readD d false l
      if inINT t then (dotInt t (ebits t) c.sat x y z, Flags.none) else dotFloat t (ebits t) (c.env l 0) x y z))

/-- DOT2: f16 and bf16 (R154). -/
def execDot2 (d a b : RegField) (s : State) : Host.Outcome State Fault Refusal :=
  withIssue s fun c => c.dot (fun t => t == 8 || t == 9) d a b

/-- DOT4: e4m3, e5m2, s8 and n8 (R154). -/
def execDot4 (d a b : RegField) (s : State) : Host.Outcome State Fault Refusal :=
  withIssue s fun c => c.dot (fun t => t == 12 || t == 13 || t == 0 || t == 1) d a b

end Sys2Proof.Machine
end

