-- ==== Sys2Proof/Machine/Elementary.lean ====
section
/-! DEFINITION. The functions of Table 5.8 (R145), computed in fixed point to workBits bits and rounded once. Where the
exact value is not a number of the format it is irrational, so a sticky bit stands below the computed bits (log 10). -/

namespace Sys2Proof.Machine

/-- Fraction bits of the fixed-point work. -/
def workBits : Nat := 768
/-- 1 in fixed point. -/
def fxOne : Nat := 2 ^ workBits

/-- atanh of z = p/q below 1 in fixed point, n terms: term is z^(2k+1). -/
def atanhGo (z2 : Nat) : Nat → Nat → Nat → Nat → Nat
  | 0, _, _, acc => acc
  | n + 1, k, term, acc => atanhGo z2 n (k + 1) (term * z2 / fxOne) (acc + term / (2 * k + 1))

/-- atanh z, z at most 1/3 in fixed point. -/
def fxAtanh (z : Nat) : Nat := atanhGo (z * z / fxOne) 250 0 z 0
/-- ln 2 = 2 atanh(1/3). -/
def fxLn2 : Nat := 2 * fxAtanh (fxOne / 3)

/-- atan of 1/q by its alternating series, n terms. -/
def atanInvGo (q2 : Nat) : Nat → Nat → Nat → Int → Int
  | 0, _, _, acc => acc
  | n + 1, k, term, acc =>
    let t : Int := (term / (2 * k + 1) : Nat)
    atanInvGo q2 n (k + 1) (term / q2) (if k % 2 = 0 then acc + t else acc - t)

/-- π = 16 atan(1/5) − 4 atan(1/239). -/
def fxPi : Nat :=
  (16 * atanInvGo 25 180 0 (fxOne / 5) 0 - 4 * atanInvGo 57121 60 0 (fxOne / 239) 0).toNat

/-- The exponential series: term is t^k/k!. -/
def expGo (t : Nat) : Nat → Nat → Nat → Nat → Nat
  | 0, _, _, acc => acc
  | n + 1, k, term, acc => expGo t n (k + 1) (term * t / fxOne / (k + 1)) (acc + term)

/-- e^t for t from 0 to 1 in fixed point. -/
def fxExp (t : Nat) : Nat := expGo t 180 0 fxOne 0

/-- The sine series: term is t^(2k+1)/(2k+1)!. -/
def sinGo (t2 : Nat) : Nat → Nat → Nat → Int → Int
  | 0, _, _, acc => acc
  | n + 1, k, term, acc =>
    let acc' : Int := if k % 2 = 0 then acc + (term : Int) else acc - (term : Int)
    sinGo t2 n (k + 1) (term * t2 / fxOne / ((2 * k + 2) * (2 * k + 3))) acc'

/-- sin t for t from 0 to π/2 in fixed point. -/
def fxSin (t : Nat) : Nat := (sinGo (t * t / fxOne) 100 0 t 0).toNat

/-- The magnitude m·2^e in fixed point, rounded down. -/
def fxOf (m : Nat) (e : Int) : Nat :=
  let k := e + workBits
  if 0 ≤ k then m * 2 ^ k.toNat else m / 2 ^ (-k).toNat

/-- A positive irrational: its computed fixed-point bits but the last 64, and a sticky bit below them. -/
def stick (v : Nat) (e : Int) : Nat × Int := (2 * (v / 2 ^ 64) + 1, e + 63)

/-- 2^a for the number a = ±m·2^e, as magnitude and exponent; a whole a is exact. -/
def exp2Val (n : Bool) (m : Nat) (e : Int) : Nat × Int :=
  let big : Bool := decide ((Nat.log2 m : Int) + e ≥ 12) && m != 0
  if big then (if n then (1, -5000) else (1, 5000))
  else if 0 ≤ e ∨ m % 2 ^ (-e).toNat = 0 then
    let w : Int := if 0 ≤ e then (m * 2 ^ e.toNat : Nat) else (m / 2 ^ (-e).toNat : Nat)
    (1, if n then -w else w)
  else
    let fr := m % 2 ^ (-e).toNat
    let wh : Int := (m / 2 ^ (-e).toNat : Nat)
    let (wh', fr') := if n then (-wh - 1, 2 ^ (-e).toNat - fr) else (wh, fr)
    let y := fxExp (fxOf fr' e * fxLn2 / fxOne)
    stick y (wh' - workBits)

/-- e^(−u) for u = m·2^e from 0 to 2^11: y·2^(−workBits−n), y from 1/2 to 1 in fixed point. -/
def expNeg (m : Nat) (e : Int) : Nat × Nat :=
  let u := fxOf m e
  let n := u / fxLn2
  (fxOne * fxOne / fxExp (u - n * fxLn2), n)

/-- FEXP2 of a value (R145). -/
def Fmt.exp2V (f : Fmt) (r : RndEnv) : Val → Nat × Flags
  | .nan s => (f.nanBits, Flags.nvIf s)
  | .inf n => (if n then 0 else f.infBits, Flags.none)
  | .num n m e => let (q, qe) := exp2Val n m e; f.round r false q qe

/-- FLOG2 of a value (R145). -/
def Fmt.log2V (f : Fmt) (r : RndEnv) : Val → Nat × Flags
  | .nan s => (f.nanBits, Flags.nvIf s)
  | .inf n => if n then f.invalid else (f.infBits, Flags.none)
  | .num n m e =>
    if m = 0 then (f.signBit true + f.infBits, Flags.divZero)
    else if n then f.invalid
    else
      let E : Int := (Nat.log2 m : Int) + e
      if m = 2 ^ Nat.log2 m then f.round r (decide (E < 0)) E.natAbs 0
      else
        let x := fxOf m (-(Nat.log2 m : Int))
        let z := (x - fxOne) * fxOne / (x + fxOne)
        let l : Int := E * (fxOne : Int) + ((2 * fxAtanh z * fxOne / fxLn2 : Nat) : Int)
        let (q, qe) := stick l.natAbs (-(workBits : Int))
        f.round r (decide (l < 0)) q qe

/-- sin(π·h/2^k) for a fraction of a turn h from 0 to 2^(k+1): sign and fixed-point magnitude; exact at the halves. -/
def sinTurn (h k : Nat) : Bool × Nat × Int :=
  let one := 2 ^ k
  let (neg, h1) := if one ≤ h then (true, h - one) else (false, h)
  let h2 := if one < 2 * h1 then one - h1 else h1
  if h2 = 0 then (neg, 0, 0)
  else if 2 * h2 = one then (neg, 1, 0)
  else
    let y := fxSin (fxOf h2 (-(k : Int)) * fxPi / fxOne)
    let (q, qe) := stick y (-(workBits : Int))
    (neg, q, qe)

/-- The magnitude m·2^e reduced modulo 2, as h/2^k. -/
def modTwo (m : Nat) (e : Int) : Nat × Nat :=
  if 0 ≤ e then (m * 2 ^ e.toNat % 2, 0) else (m % 2 ^ ((-e).toNat + 1), (-e).toNat)

/-- FSIN of a value, the argument in half-turns (R145). -/
def Fmt.sinV (f : Fmt) (r : RndEnv) : Val → Nat × Flags
  | .nan s => (f.nanBits, Flags.nvIf s)
  | .inf _ => f.invalid
  | .num n m e =>
    let (h, k) := modTwo m e
    let (neg, q, qe) := sinTurn h k
    if q = 0 then (f.signBit n, Flags.none) else f.round r (n != neg) q qe

/-- FCOS of a value, the argument in half-turns (R145). -/
def Fmt.cosV (f : Fmt) (r : RndEnv) : Val → Nat × Flags
  | .nan s => (f.nanBits, Flags.nvIf s)
  | .inf _ => f.invalid
  | .num _ m e =>
    let (h, k) := modTwo m e
    let (neg, q, qe) := sinTurn ((2 * h + 2 ^ k) % 2 ^ (k + 2)) (k + 1)
    if q = 0 then (0, Flags.none) else f.round r neg q qe

/-- FTANH of a value (R145). -/
def Fmt.tanhV (f : Fmt) (r : RndEnv) : Val → Nat × Flags
  | .nan s => (f.nanBits, Flags.nvIf s)
  | .inf n => f.deliver r (.num n 1 0)
  | .num n m e =>
    if m = 0 then (f.signBit n, Flags.none)
    else if (Nat.log2 m : Int) + e ≥ 9 then f.round r n (2 * fxOne - 1) (-(workBits : Int) - 1)
    else
      let (y, k) := expNeg m (e + 1)
      let one := fxOne * 2 ^ k
      let (q, qe) := stick ((one - y) * fxOne / (one + y)) (-(workBits : Int))
      f.round r n q qe

/-- FSIGM of a value (R145). -/
def Fmt.sigmV (f : Fmt) (r : RndEnv) : Val → Nat × Flags
  | .nan s => (f.nanBits, Flags.nvIf s)
  | .inf n => if n then (0, Flags.none) else f.round r false 1 0
  | .num n m e =>
    if m = 0 then f.round r false 1 (-1)
    else if (Nat.log2 m : Int) + e ≥ 10 then
      if n then f.round r false 1 (-5000) else f.round r false (2 * fxOne - 1) (-(workBits : Int) - 1)
    else
      let (y, k) := expNeg m e
      let d := fxOne * 2 ^ k + y
      let sh := 2400
      let v := if n then y * 2 ^ (workBits + sh) / d else fxOne * 2 ^ (k + workBits + sh) / d
      let (q, qe) := stick v (-(workBits + sh : Nat))
      f.round r false q qe

/-- The functions of Table 5.8 on encodings. -/
def Fmt.exp2 (f : Fmt) (r : RndEnv) (x : Nat) : Nat × Flags := f.exp2V r (f.read r.ftz x)
def Fmt.log2 (f : Fmt) (r : RndEnv) (x : Nat) : Nat × Flags := f.log2V r (f.read r.ftz x)
def Fmt.sin (f : Fmt) (r : RndEnv) (x : Nat) : Nat × Flags := f.sinV r (f.read r.ftz x)
def Fmt.cos (f : Fmt) (r : RndEnv) (x : Nat) : Nat × Flags := f.cosV r (f.read r.ftz x)
def Fmt.tanh (f : Fmt) (r : RndEnv) (x : Nat) : Nat × Flags := f.tanhV r (f.read r.ftz x)
def Fmt.sigm (f : Fmt) (r : RndEnv) (x : Nat) : Nat × Flags := f.sigmV r (f.read r.ftz x)

end Sys2Proof.Machine
end

