-- ==== Sys2Proof/Machine/FloatOps.lean ====
section
/-! DEFINITION. Float arithmetic, 0x40-0x57 and FCMPX (R140-R149). -/

namespace Sys2Proof.Machine

/-- An operation on one or two elements under FX: once, or on each bf16 half under x2, with its own j (R116). -/
def Ctx.each (c : Ctx) (t l : Nat) (x y z : Nat) (f : Fmt → RndEnv → Nat → Nat → Nat → Nat × Flags) : Nat × Flags :=
  if t = 15 then
    let lo := f Fmt.bf16 (c.env l 0) (half x 0) (half y 0) (half z 0)
    let hi := f Fmt.bf16 (c.env l 1) (half x 1) (half y 1) (half z 1)
    (halves lo.1 hi.1, Flags.or lo.2 hi.2)
  else
    let m := 2 ^ ebits t
    f (fmtOf t) (c.env l 0) (x % m) (y % m) (z % m)

/-- A float instruction with sources a, b and, if dRead, d; srd: it rounds (R100). -/
def Ctx.floatOp (c : Ctx) (typeOk : Nat → Bool) (lat : Nat) (rounds dRead hasB : Bool) (d a b : RegField)
    (f : Fmt → RndEnv → Nat → Nat → Nat → Nat × Flags) : Host.Outcome State Fault Refusal :=
  let t := c.etype
  let w := isWide t
  c.run (c.dataStop (typeOk t) true d w dRead [(a, w)] (if hasB then [(b, w)] else []))
    (c.data lat d w (rounds && c.srd) (fun l =>
      c.each t l (c.readA a w l) (if hasB then c.readB b w l else 0) (if dRead then c.readD d w l else 0) f))

/-- FADD (R140). -/
def execFadd (d a b : RegField) (s : State) : Host.Outcome State Fault Refusal :=
  withIssue s fun c => c.floatOp inFX 5 true false true d a b (fun f r x y _ => f.add r x y)

/-- FSUB (R140). -/
def execFsub (d a b : RegField) (s : State) : Host.Outcome State Fault Refusal :=
  withIssue s fun c => c.floatOp inFX 5 true false true d a b (fun f r x y _ => f.sub r x y)

/-- FMUL (R140). -/
def execFmul (d a b : RegField) (s : State) : Host.Outcome State Fault Refusal :=
  withIssue s fun c => c.floatOp inFX 5 true false true d a b (fun f r x y _ => f.mul r x y)

/-- FMA: a · b + d (R141). -/
def execFma (d a b : RegField) (s : State) : Host.Outcome State Fault Refusal :=
  withIssue s fun c => c.floatOp inFX 5 true true true d a b (fun f r x y z => f.fma r false x y z)

/-- FMS: a · b − d (R141). -/
def execFms (d a b : RegField) (s : State) : Host.Outcome State Fault Refusal :=
  withIssue s fun c => c.floatOp inFX 5 true true true d a b (fun f r x y z => f.fma r true x y z)

/-- FMIN: minimum (R142). -/
def execFmin (d a b : RegField) (s : State) : Host.Outcome State Fault Refusal :=
  withIssue s fun c => c.floatOp inFX 5 false false true d a b (fun f r x y _ => f.minMax r.ftz false false x y)

/-- FMAX: maximum (R142). -/
def execFmax (d a b : RegField) (s : State) : Host.Outcome State Fault Refusal :=
  withIssue s fun c => c.floatOp inFX 5 false false true d a b (fun f r x y _ => f.minMax r.ftz true false x y)

/-- FMINNM: minimumNumber (R142). -/
def execFminnm (d a b : RegField) (s : State) : Host.Outcome State Fault Refusal :=
  withIssue s fun c => c.floatOp inFX 5 false false true d a b (fun f r x y _ => f.minMax r.ftz false true x y)

/-- FMAXNM: maximumNumber (R142). -/
def execFmaxnm (d a b : RegField) (s : State) : Host.Outcome State Fault Refusal :=
  withIssue s fun c => c.floatOp inFX 5 false false true d a b (fun f r x y _ => f.minMax r.ftz true true x y)

/-- FABS and FNEG: the sign bit cleared or inverted, every other bit as it stands (R143). -/
def Ctx.signOp (c : Ctx) (d a : RegField) (f : Bool → Bool) : Host.Outcome State Fault Refusal :=
  c.floatOp (fun t => inFX t || inF8 t) 5 false false false d a a (fun fm _ x _ _ =>
    let sign := 2 ^ (fm.eb + fm.mb)
    (x % sign + (if f (decide (sign ≤ x)) then sign else 0), Flags.none))

/-- FABS (R143). -/
def execFabs (d a : RegField) (s : State) : Host.Outcome State Fault Refusal :=
  withIssue s fun c => c.signOp d a (fun _ => false)

/-- FNEG (R143). -/
def execFneg (d a : RegField) (s : State) : Host.Outcome State Fault Refusal :=
  withIssue s fun c => c.signOp d a (fun n => !n)

/-- FRCP: 1/a (R144). -/
def execFrcp (d a : RegField) (s : State) : Host.Outcome State Fault Refusal :=
  withIssue s fun c => c.floatOp inFLT 14 true false false d a a (fun f r x _ _ => f.rcp r x)

/-- FRSQ: 1/√a (R144). -/
def execFrsq (d a : RegField) (s : State) : Host.Outcome State Fault Refusal :=
  withIssue s fun c => c.floatOp inFLT 14 true false false d a a (fun f r x _ _ => f.rsq r x)

/-- FSQRT (R144). -/
def execFsqrt (d a : RegField) (s : State) : Host.Outcome State Fault Refusal :=
  withIssue s fun c => c.floatOp inFLT 14 true false false d a a (fun f r x _ _ => f.sqrt r x)

/-- FDIV: a/b (R144). -/
def execFdiv (d a b : RegField) (s : State) : Host.Outcome State Fault Refusal :=
  withIssue s fun c => c.floatOp inFLT 14 true false true d a b (fun f r x y _ => f.div r x y)

/-- The types of the transcendental instructions (R145). -/
def inTrans (t : Nat) : Bool := decide (8 ≤ t) && decide (t ≤ 10)

/-- FEXP2 (R145). -/
def execFexp2 (d a : RegField) (s : State) : Host.Outcome State Fault Refusal :=
  withIssue s fun c => c.floatOp inTrans 14 true false false d a a (fun f r x _ _ => f.exp2 r x)

/-- FLOG2 (R145). -/
def execFlog2 (d a : RegField) (s : State) : Host.Outcome State Fault Refusal :=
  withIssue s fun c => c.floatOp inTrans 14 true false false d a a (fun f r x _ _ => f.log2 r x)

/-- FSIN (R145). -/
def execFsin (d a : RegField) (s : State) : Host.Outcome State Fault Refusal :=
  withIssue s fun c => c.floatOp inTrans 14 true false false d a a (fun f r x _ _ => f.sin r x)

/-- FCOS (R145). -/
def execFcos (d a : RegField) (s : State) : Host.Outcome State Fault Refusal :=
  withIssue s fun c => c.floatOp inTrans 14 true false false d a a (fun f r x _ _ => f.cos r x)

/-- FSCALE: a · 2^n, n = read32(b) as s32; one n serves both halves of x2 (R146). -/
def execFscale (d a b : RegField) (s : State) : Host.Outcome State Fault Refusal :=
  withIssue s fun c =>
    let t := c.etype
    let w := isWide t
    c.run (c.dataStop (inFX t) true d w false [(a, w)] [(b, false)])
      (c.data 5 d w c.srd (fun l =>
        let n := asInt true 32 (c.readB b false l)
        c.each t l (c.readA a w l) 0 0 (fun f r x _ _ => f.scale r x n)))

/-- FRND: a rounded to a whole number in its own format (R147). -/
def execFrnd (d a : RegField) (s : State) : Host.Outcome State Fault Refusal :=
  withIssue s fun c => c.floatOp inFX 5 true false false d a a (fun f r x _ _ => f.rnd r x)

/-- FCLASS: a class mask in one 32-bit register, never a pair; two masks under x2 (R148). -/
def execFclass (d a : RegField) (s : State) : Host.Outcome State Fault Refusal :=
  withIssue s fun c =>
    let t := c.etype
    let w := isWide t
    c.run (c.dataStop (inFX t || inF8 t) true d false false [(a, w)] [])
      (c.data 5 d false false (fun l =>
        let x := c.readA a w l
        (if t = 15 then 2 ^ Fmt.bf16.classBit (half x 0) + 65536 * 2 ^ Fmt.bf16.classBit (half x 1)
         else 2 ^ (fmtOf t).classBit (x % 2 ^ ebits t), Flags.none)))

/-- FTANH (R145). -/
def execFtanh (d a : RegField) (s : State) : Host.Outcome State Fault Refusal :=
  withIssue s fun c => c.floatOp inTrans 14 true false false d a a (fun f r x _ _ => f.tanh r x)

/-- FSIGM (R145). -/
def execFsigm (d a : RegField) (s : State) : Host.Outcome State Fault Refusal :=
  withIssue s fun c => c.floatOp inTrans 14 true false false d a a (fun f r x _ _ => f.sigm r x)

/-- FCMPX: less, equal, greater or unordered in one 32-bit register, never a pair (R149). -/
def execFcmpx (d a b : RegField) (s : State) : Host.Outcome State Fault Refusal :=
  withIssue s fun c =>
    let t := c.etype
    let w := isWide t
    c.run (c.dataStop (inFLT t) true d false false [(a, w)] [(b, w)])
      (c.data 5 d false false (fun l =>
        (fmtOf t).cmpx (Acr.ftz c.g.acr) (c.readA a w l % 2 ^ ebits t) (c.readB b w l % 2 ^ ebits t)))

end Sys2Proof.Machine
end

