-- ==== Sys2Proof/Machine/Links.lean ====
section
/-! DEFINITION. Flits: what a link sends at a flit boundary (R362, R363, R370, R371, R434), what it does with those that
arrive (R433, R434, R446), and retraining (R436, R442, R443). -/

namespace Sys2Proof.Machine

/-! ### Sending -/

/-- The port of a peer link: the plane of its pair (R361). -/
def State.linkPort (s : State) (k : Nat) : Nat := (s.pair (pairOfLink k)).plane
/-- The peer to which the circuit of a link's port leads now. -/
def State.linkPeer (s : State) (k : Nat) : Option Nat :=
  if k < 128 && (s.pair (pairOfLink k)).fab then s.portPeer (s.linkPort k) else none

/-- A flit without payload. -/
def bareFlit (t : FlitType) (fseq aseq : BitVec 12) (peer : Nat) : Flit :=
  { type := t, fseq := fseq, aseq := aseq, switchAt := 0, peer := peer, msg := none, ok := true }

/-- The last FSEQ received in order (Table 18.1, ASEQ). -/
def Link.aseq (x : Link) : BitVec 12 := x.expect - 1

/-- A sequenced flit is sent: it takes the next FSEQ and stays in the replay buffer (R434). -/
def State.sendSeq (s : State) (k : Nat) (f : Flit) : State :=
  let x := s.link k
  let g := { f with fseq := x.fseq, aseq := x.aseq }
  (s.putLink k { x with fseq := x.fseq + 1, sent := x.sent ++ [g] }).emit (.flit k g)

/-- A message is sent to a peer: it takes its number in its stream. -/
def State.sendMsg (s : State) (k peer : Nat) (m : NetMsg) : State :=
  let x := s.numbered peer m
  x.1.sendSeq k { bareFlit .data 0 0 peer with msg := some x.2 }

/-- A flit that is not sequenced. -/
def State.sendBare (s : State) (k peer : Nat) (t : FlitType) (fseq : BitVec 12) : State :=
  s.emit (.flit k (bareFlit t fseq (s.link k).aseq peer))

/-- The replay buffer is full: 64 flits for each channel of the current width (R434). -/
def Link.full (x : Link) : Bool := decide (64 * x.curw ≤ x.sent.length)

/-- The channel of a link whose switch of rings is ready and not yet announced (R438). -/
def State.swapDue (s : State) (k : Nat) : Option (Nat × Nat) :=
  (linkChans k).findSome? (fun c => match (s.chan c).swap with
    | some site => some (c, site)
    | none => none)

/-- A link that has kept flits for a peer: they wait for the next circuit to it, on whatever link (R362, R371, R442). -/
def State.strandedLink (s : State) (peer : Nat) : Option Nat :=
  (List.range 128).find? (fun j => (s.link j).owed.any (fun f => f.peer == peer))

/-- The order of a message among those owed to a peer (R363): remote operations and replies, then collective messages. -/
def msgRank : NetMsg → Nat
  | .remote _ => 0
  | .reply _ => 0
  | .coll _ => 1
  | .qdata _ => 2

/-- The next message owed to a peer: the oldest of the first rank. -/
def State.nextMsg (s : State) (peer : Nat) : Option NetMsg :=
  let ms := (s.netq.filter (fun m => m.1 == peer)).map (fun m => m.2)
  (ms.find? (fun m => msgRank m == 0)) <|> (ms.find? (fun m => msgRank m == 1)) <|> ms.head?

/-- The message leaves the list of those owed: its first entry. -/
def State.takeMsg (s : State) (peer : Nat) (m : NetMsg) : State := { s with netq := s.netq.erase (peer, m) }

/-- The partitions from the one after the last served, in turn (R370). -/
def qturnOrder (last : Nat) : List Nat := (List.range 16).map (fun i => (last + 1 + i) % 16)

/-- k bytes of a source of physical runs, from an offset on: the runs in which they lie. -/
def subRuns : List (Nat × Nat) → Nat → Nat → List (Nat × Nat)
  | [], _, _ => []
  | (pa, n) :: rs, o, k =>
    if k = 0 then []
    else if n ≤ o then subRuns rs (o - n) k
    else (pa + o, min (n - o) k) :: subRuns rs 0 (k - min (n - o) k)

/-- The offset of the first word of some runs that holds an error; o: that of the first run (R430). -/
def State.firstBad (s : State) : List (Nat × Nat) → Nat → Option Nat
  | [], _ => none
  | (pa, n) :: rs, o => match s.badIn pa n with
    | w :: _ => some (o + (max pa (8 * w) - pa))
    | [] => s.firstBad rs (o + n)

/-- Bytes of the next flit of a descriptor: at most 240. -/
def QDesc.take (d : QDesc) : Nat := min 240 (d.len - d.sent)
/-- Where they stand. -/
def QDesc.places (d : QDesc) : List (Nat × Nat) := subRuns d.src d.sent d.take

/-- The IOD agent may read the next bytes of a queue: every write to their slices that its clock covers is applied (R204). -/
def State.dataReady (s : State) (part peer : Nat) : Bool := match (s.part part).sendQueue peer with
  | [] => false
  | d :: _ => !(s.vreqs.any (fun w => w.kind.writes && w.coveredBy (s.vcOf 4) &&
      d.places.any (fun r => meetSlices w.pa w.size r.1 r.2)))

/-- A word of the source cannot be corrected: the QSEND fails there (R430, Table 8.2). -/
def State.sourceFails (s : State) (d : QDesc) (off : Nat) : State :=
  s.modReq d.req (fun r => { r with fails := r.fails ++ [(localKey 0, ⟨Cause.permission, d.va + d.sent + off, true, 0⟩)] })

/-- The QSEND has failed at its source. -/
def State.sourceFailed (s : State) (d : QDesc) : Bool := match s.req? d.req with
  | some r => !r.fails.isEmpty
  | none => false

/-- The next flit of a send queue: at most 240 bytes of its first descriptor, read as the flit is formed (R204, R370, R373); none if
a word of them cannot be corrected, and no notify then (R374, R430). -/
def State.sendData (s : State) (k part peer : Nat) (d : QDesc) : State :=
  let last := decide (d.len ≤ d.sent + d.take)
  let bad := s.firstBad d.places 0
  let s0 := match bad with
    | some off => s.sourceFails d off
    | none => s
  let msg : QData :=
    { ident := d.req, srcPkg := s.pkg, srcPart := part, seq := 0, part := d.part, dst := d.dst + d.sent,
      data := if bad.isSome then [] else s.readRuns d.places, last := last, total := d.len,
      note := d.note && !s0.sourceFailed d, nva := d.nva }
  let q := (s.part part).sendQueue peer
  let q1 := if last then q.drop 1 else { d with sent := d.sent + d.take } :: q.drop 1
  let s1 := (s0.modPart part (fun p => p.putSendQueue peer q1)).putLink k { s.link k with qturn := part }
  (s1.mergeRuns 4 d.places).sendMsg k peer (.qdata msg)

/-- The next flit owed to a peer, sent by a link (R363): one that another link could not deliver, a message, queue data; none if
nothing is owed. -/
def State.sendNew (s : State) (k peer : Nat) : Option State :=
  match s.strandedLink peer with
  | some j =>
    let x := s.link j
    (x.owed.find? (fun f => f.peer == peer)).map (fun f => (s.putLink j { x with owed := x.owed.erase f }).sendSeq k f)
  | none => match s.nextMsg peer with
    | some m => some ((s.takeMsg peer m).sendMsg k peer m)
    | none => ((qturnOrder (s.link k).qturn).find? (fun n => s.dataReady n peer)).bind (fun n =>
      ((s.part n).sendQueue peer).head?.map (s.sendData k n peer))

/-- The link can take a new flit to the peer now: it is up, its port holds a circuit to the peer, and neither replay nor link control
comes first (R362, R363, R434). -/
def State.takesNew (s : State) (peer k : Nat) : Bool :=
  let x := s.link k
  x.carries && s.linkPeer k == some peer && !x.nakOwed && x.again.all (fun f => f.peer != peer) && !x.full && x.remap.isNone &&
    x.nextWidth.isNone && (s.swapDue k).isNone && !x.ctlOwed

/-- The link to which the next flit owed to a peer is dealt: of those that can take it, the next in turn after the one that took the
last (R17, R362). -/
def State.dealtTo (s : State) (peer : Nat) : Option Nat :=
  ((List.range 128).map (fun i => (Tbl.get 0 s.dealt peer + i) % 128)).find? (s.takesNew peer)

/-- A link whose turn it is sends the next flit owed to the peer, if there is one; another waits its turn (R17, R362). -/
def State.sendDealt (s : State) (k peer : Nat) : State :=
  if s.dealtTo peer ≠ some k then s.sendBare k peer .idle 0
  else match s.sendNew k peer with
    | none => s.sendBare k peer .idle 0
    | some t => { t with dealt := Tbl.set 0 t.dealt peer (k + 1) }

/-- What a link sends at a flit boundary while its port holds a circuit to a peer (R363): a NAK, replay of what that peer has
not acknowledged, and link control first. A remap flit is followed by nothing sequenced until it is acknowledged (log 40). -/
def State.sendTo (s : State) (k peer : Nat) : State :=
  let x := s.link k
  if x.nakOwed then (s.putLink k { x with nakOwed := false }).sendBare k peer .nak x.expect
  else match x.again.find? (fun f => f.peer == peer) with
    | some f => (s.putLink k { x with again := x.again.erase f }).emit (.flit k { f with aseq := x.aseq })
    | none =>
      if x.full || x.remap.isSome then s.sendBare k peer .idle 0
      else match x.nextWidth with
        | some w =>
          let f := { bareFlit (.width w) 0 0 peer with switchAt := x.fseq + 1 }
          let s1 := s.sendSeq k f
          (s1.putLink k { s1.link k with curw := w, nextWidth := none, state := .up }).settleLink k
        | none => match s.swapDue k with
          | some (c, site) =>
            let f := { bareFlit (.remap site (c % 16)) 0 0 peer with switchAt := x.fseq + 1 }
            (s.putLink k { x with remap := some (c, site, x.fseq) }).sendSeq k f
          | none =>
            if x.ctlOwed then (s.putLink k { x with ctlOwed := false }).sendBare k peer (.control x.tgtw) 0
            else s.sendDealt k peer

/-- A flit boundary: a link whose port is off, whose circuit is not ACTIVE, or whose slot has no open window sends nothing
(R361, R364-R366). -/
def State.flitBoundary (s : State) (k : Nat) : State := match s.linkPeer k with
  | some peer => s.sendTo k peer
  | none => s

/-- FLIT_SEND: a flit boundary of a link that is up (R363). -/
def execFlitSend (link : Nat) (s : State) : Host.Outcome State Fault Refusal :=
  let x := s.link link
  whenever (decide (link < 128) && (x.state == .up || x.state == .widthChange)) s (s.flitBoundary link)

/-! ### Ring switches (R438) -/

/-- A channel is switched to a site: 0 and 1 its pair's spare sites, 2 its own rings. The site it leaves is free. -/
def State.switchRing (s : State) (c site : Nat) : State :=
  let x := s.chan c
  let f := pairOfChan c
  let p := s.pair f
  let used := if x.spare = 0 then p.spuse else p.spuse &&& ~~~(BitVec.ofNat 2 (2 ^ (x.spare - 1)))
  let used := if site < 2 then used ||| BitVec.ofNat 2 (2 ^ site) else used
  (s.putPair f { p with spuse := used }).putChan c
    { x with spare := if site < 2 then site + 1 else 0, swap := none, tuning := none }

/-- A planned step of a partition ends with a status (R444). -/
def State.endPlan (s : State) (part st : Nat) : State := s.modPart part (fun p => { p with planStatus := st, planRun := none })

/-- The planned steps that satisfy f end with a status. -/
def State.endPlans (s : State) (f : Nat × Nat → Bool) (st : Nat) : State :=
  (List.range 16).foldl (fun acc n => match (acc.part n).planRun with
    | some r => if f r then acc.endPlan n st else acc
    | none => acc) s

/-- The step moves a channel: SPARE or RELEASE. -/
def movesChan (c : Nat) (r : Nat × Nat) : Bool := (r.1 == 1 || r.1 == 2) && r.2 == c

/-- The channels on line λ of array e: those of its four pairs (R439). -/
def lineChans (e lam : Nat) : List Nat := (List.range 4).map (fun j => 16 * (4 * e + j) + lam)

/-- The step shares the line on which a channel lies, or has unshared it and wakes its channels. -/
def State.sharesChan (s : State) (c : Nat) (r : Nat × Nat) : Bool :=
  (r.1 == 4 || (r.1 == 5 && !(s.line (c / 64) (c % 16)).fed)) && r.2 == 16 * (c / 64) + c % 16

/-- A SHARE or UNSHARE step ends when none of its four channels wakes any more: done, or failed if one of them has stayed
DOWN (R444). -/
def State.shareDone (s : State) (c : Nat) : State :=
  let cs := lineChans (c / 64) (c % 16)
  if cs.any (fun d => (s.chan d).state == .waking || (s.chan d).rewake) then s
  else s.endPlans (s.sharesChan c) (if cs.any (fun d => (s.chan d).state == .down && (s.chan d).tried) then 5 else 2)

/-- A remap flit sent for a channel switches nothing any more, once it is acknowledged. -/
def State.voidRemap (s : State) (c : Nat) : State :=
  let k := s.linkOf c
  match (s.link k).remap with
  | some (d, _, q) => if d = c then s.putLink k { s.link k with remap := some (d, 3, q) } else s
  | none => s

/-- A claimed site is given up. -/
def State.dropSite (s : State) (c : Nat) : State :=
  let f := pairOfChan c
  match (s.chan c).tuning with
  | some (n, _) =>
    let s1 := if n < 2 then s.putPair f { s.pair f with spuse := (s.pair f).spuse &&& ~~~(BitVec.ofNat 2 (2 ^ n)) } else s
    (s1.voidRemap c).modChan c (fun x => { x with tuning := none, swap := none })
  | none => s

/-- The remap mux has switched: a planned step that asked for it is done. -/
def State.remapDone (s : State) (c site : Nat) : State := (s.switchRing c site).endPlans (movesChan c) 2

/-- The remap flit of a channel is acknowledged (R438): its rings switch to the site, unless that switch has been given up. -/
def State.finishSwap (s : State) (c site : Nat) : State := if (s.chan c).swap = some site then s.remapDone c site else s

/-- A channel leaves ACTIVE while a ring is tuned for it: its sparing ends without effect, since a channel that is not ACTIVE is
not spared (R449); a planned step cannot finish (R444). -/
def State.breakOff (s : State) (c : Nat) : State := match (s.chan c).tuning with
  | none => s
  | some (_, true) => (s.dropSite c).endPlans (movesChan c) 5
  | some (_, false) => (s.dropSite c).modChan c (fun x => { x with owes := x.owes || x.state == .active })

/-! ### Receiving -/

/-- Flits up to and with FSEQ n leave a list; a number that no flit has acknowledges nothing. -/
def dropAcked (n : BitVec 12) (fs : List Flit) : List Flit :=
  if fs.any (fun f => f.fseq == n) then (fs.dropWhile (fun f => f.fseq != n)).drop 1 else fs

/-- ASEQ acknowledges (R434); an acknowledged remap flit switches the rings (R438). -/
def State.acknowledge (s : State) (k : Nat) (n : BitVec 12) : State :=
  let x := s.link k
  let sent := dropAcked n x.sent
  let s1 := s.putLink k { x with sent := sent, again := dropAcked n x.again,
                                 nakRun := if sent.length < x.sent.length then 0 else x.nakRun }
  match x.remap with
  | some (c, site, q) =>
    if sent.any (fun f => f.fseq == q) then s1
    else
      let s2 := s1.finishSwap c site
      s2.putLink k { s2.link k with remap := none }
  | none => s1

/-- A flit fails at the receiver (R433); a flit out of sequence after one that failed is only discarded. -/
def State.failFlit (s : State) (k : Nat) (nak : Bool) : State :=
  s.putLink k { s.link k with discarding := true, nakOwed := (s.link k).nakOwed || nak }

/-- What a flit taken in order does. -/
def State.takeFlit (s : State) (k : Nat) (f : Flit) : State :=
  let x := s.link k
  let x1 := { x with
    expect := x.expect + 1
    discarding := false
    rxw := match x.rxNext with
      | some (w, n) => if n == x.expect then w else x.rxw
      | none => x.rxw
    rxNext := match x.rxNext with
      | some (w, n) => if n == x.expect then none else some (w, n)
      | none => none }
  match f.type with
  | .data => match f.msg with
    | some m => (s.putLink k x1).arrive m
    | none => s.putLink k x1
  | .width w => s.putLink k (if f.switchAt == x1.expect then { x1 with rxw := w } else { x1 with rxNext := some (w, f.switchAt) })
  | _ => s.putLink k x1

/-- Sequenced types (Table 18.1). -/
def sequenced : FlitType → Bool
  | .data => true
  | .width _ => true
  | .remap _ _ => true
  | _ => false

/-- A NAK that names an FSEQ: the flits from it on are sent again, and eight in a row that name one ask for retraining
(R434, R436). -/
def Link.replay (x : Link) (n : BitVec 12) : Link :=
  let again := x.sent.dropWhile (fun f => f.fseq != n)
  { x with again := again, replays := if again.isEmpty then x.replays else min 65535 (x.replays + 1), nakLast := n,
           nakRun := if x.nakLast == n then x.nakRun + 1 else 1 }

/-! ### Retraining (R436, R442, R443) -/

/-- A channel goes DOWN, and its pair shows it (Table 18.7). Its training, and a switch of rings under way, end without effect, and a
site being tuned is free again; a planned step that moves the channel, or was to wake it, cannot finish (R444). -/
def State.chanDown (s : State) (c : Nat) : State :=
  let lost := match (s.chan c).tuning with
    | some (_, planned) => !planned && (s.chan c).state == .active
    | none => false
  let s1 := (s.dropSite c).modChan c (fun x =>
    { x with state := .down, trying := false, swap := none, parking := false, rewake := false, ps1 := false, owes := x.owes || lost })
  (((s1.endPlans (movesChan c) 5).shareDone c).setEvt (pairOfChan c))

/-- The step retrains a link. -/
def retrainsLink (k : Nat) (r : Nat × Nat) : Bool := r.1 == 3 && r.2 == k

/-- A link goes DOWN; a planned step that retrains it cannot finish (R444). stuck: only a RETRAIN starts it again (R442). -/
def State.fallLink (s : State) (k : Nat) (stuck : Bool) : State :=
  (s.putLink k { (s.link k).fall with stuck := stuck }).endPlans (retrainsLink k) 5

/-- The link is left DOWN with its channels (R442). -/
def State.linkDown (s : State) (k : Nat) : State := ((linkChans k).foldl State.chanDown s).fallLink k true

/-- Retraining begins (R442): flits not acknowledged wait for another link or for this one. It takes the place of a wake in
progress, whose ring is replaced no more (R443). -/
def State.retrain (s : State) (k : Nat) : State :=
  let x := s.link k
  let s1 := (linkChans k).foldl (fun acc c => if (acc.chan c).state == .waking then acc.dropSite c else acc) s
  s1.putLink k { x.fall with state := .retraining, curw := x.curw, retrains := min 65535 (x.retrains + 1) }

/-- A link meets R436: it retrains, or goes DOWN in the host-assisted mode. -/
def State.mustRetrain (s : State) (k : Nat) : State :=
  if s.assistedPair (pairOfLink k) 2 then s.linkDown k else (s.putLink k { s.link k with failures := 0 }).retrain k

/-- A flit arrives at a link (R433): a NAK, an idle or a control flit is not sequenced. One that fails acknowledges nothing. -/
def State.receiveFlit (s : State) (k : Nat) (f : Flit) : State :=
  let x := s.link k
  if !f.ok then s.failFlit k true
  else match f.type with
    | .other => s.failFlit k true
    | .nak =>
      let s1 := s.acknowledge k f.aseq
      let y := (s1.link k).replay f.fseq
      let s2 := s1.putLink k y
      if 8 ≤ y.nakRun then s2.mustRetrain k else s2
    | .control w =>
      let s1 := s.acknowledge k f.aseq
      (s1.putLink k { s1.link k with farTgtw := widthAtMost w }).settleLink k
    | .data | .width _ | .remap _ _ =>
      if f.fseq == x.expect then (s.acknowledge k f.aseq).takeFlit k f else s.failFlit k (!x.discarding)
    | .idle => s.acknowledge k f.aseq

/-- DATA_FLIT_RECEIVE (R433). -/
def execDataFlitReceive (link : Nat) (f : Flit) (s : State) : Host.Outcome State Fault Refusal :=
  whenever (s.link link).carries s (s.receiveFlit link f)

/-- NAK_FLIT_RECEIVE (R434, R436): a NAK names the expected FSEQ, which acknowledges every flit before it. -/
def execNakFlitReceive (link : Nat) (fseq : BitVec 12) (s : State) : Host.Outcome State Fault Refusal :=
  whenever (s.link link).carries s (s.receiveFlit link (bareFlit .nak fseq (fseq - 1) 0))

/-- WIDTH_CHANGE_FLIT (R446). -/
def execWidthChangeFlit (link : Nat) (f : Flit) (s : State) : Host.Outcome State Fault Refusal :=
  whenever ((s.link link).carries && match f.type with
    | .width _ => true
    | _ => false) s (s.receiveFlit link f)

/-- REMAP_FLIT (R438): the far end switches its own rings at the FSEQ it names; it is acknowledged as any other. -/
def execRemapFlit (link : Nat) (f : Flit) (s : State) : Host.Outcome State Fault Refusal :=
  whenever ((s.link link).carries && match f.type with
    | .remap _ _ => true
    | _ => false) s (s.receiveFlit link f)

/-- ACK_TIMEOUT (R436). -/
def execAckTimeout (link : Nat) (s : State) : Host.Outcome State Fault Refusal :=
  whenever ((s.link link).carries && !(s.link link).sent.isEmpty) s (s.mustRetrain link)

/-- CLOCK_RECOVERY_LOSS on a channel of the current width (R436). -/
def execClockRecoveryLoss (chan : Nat) (s : State) : Host.Outcome State Fault Refusal :=
  let k := s.linkOf chan
  whenever ((s.link k).carries && ((s.activeChans k).take (s.link k).curw).contains chan) s (s.mustRetrain k)

/-- The laser feeds the channel: its line is not lost, or its neighbour feeds it (R439, R440). -/
def State.lit (s : State) (c : Nat) : Bool :=
  let l := s.line (c / 64) (c % 16)
  !l.lost || l.fed

/-- A retraining negotiates the Abnel version (R408): without a common one nothing works. One that succeeds brings up the channels
that it finds working and that have light, DOWN ones too; the others go DOWN, and parked ones stay as they are (R442, R449). The
target is applied after it (R443). -/
def State.retrainUp (s : State) (k : Nat) (r : Retrained) : State :=
  let works := if (abnelCommon r.lo r.hi).isSome then r.works else []
  let s1 := (linkChans k).foldl (fun acc c =>
    let x := acc.chan c
    if x.state == .parked then acc
    else if works.contains c && acc.lit c then acc.putChan c { x with state := .active, trying := false, tried := true, ps1 := false }
    else if x.state == .down then acc
    else acc.chanDown c) s
  let w := s1.widthFor k
  if w = 0 then s1
  else
    let x := { (s1.link k).rise w with failures := 0, version := (abnelCommon r.lo r.hi).getD (s1.link k).version }
    let s2 := ((s1.putLink k x).settleLink k).setEvt (pairOfLink k)
    (linkChans k).foldl State.shareDone (s2.endPlans (retrainsLink k) 2)

/-- PS1 or PS2 holds the optics: nothing trains until the return to PS0 (R472, log 71). -/
def State.opticsHeld (s : State) : Bool := s.house.cur != 0 && !s.house.ramping

/-- PS2: no channel wakes (R472, log 71). -/
def State.asleep (s : State) : Bool := s.house.cur == 2 && !s.house.ramping

/-- RETRAIN_COMPLETE (R408, R442): up, on the channels that work; with none, or after three failures in a row, DOWN. -/
def execRetrainComplete (link : Nat) (end_ : Retrained) (s : State) : Host.Outcome State Fault Refusal :=
  let x := s.link link
  let up := s.retrainUp link end_
  whenever (x.state == .retraining && !s.opticsHeld) s
    (if (up.link link).state != .retraining then up
     else if 2 ≤ x.failures then s.linkDown link
     else (s.putLink link { x with failures := x.failures + 1 }).retrain link)

end Sys2Proof.Machine
end

