-- ==== Sys2Proof/Machine/Optics.lean ====
section
/-! DEFINITION. Optical recovery: the monitor and spare rings (R437, R438), laser lines and their sharing (R439-R441),
planned steps (R444, R445), parking and waking (R446-R450), the laser counters (R451, R452), fabrics (R15) and training
(R471). -/

namespace Sys2Proof.Machine

/-! ### Spare sites -/

/-- Site n of a pair is taken: by a switched channel or by one being tuned. -/
def State.siteUsed (s : State) (f n : Nat) : Bool := (s.pair f).spuse.getLsbD n

/-- The channel for which a planned step has claimed site n of a pair and not yet switched. -/
def State.plannedHolder (s : State) (f n : Nat) : Option Nat :=
  ((List.range 16).map (fun i => 16 * f + i)).find? (fun c => (s.chan c).tuning == some (n, true))

/-- A site of a pair is claimed for a channel, which EVT shows; it is then tuned. -/
def State.claimSite (s : State) (c n : Nat) (planned : Bool) : State :=
  let f := pairOfChan c
  let p := s.pair f
  let s1 := if n < 2 then (s.putPair f { p with spuse := p.spuse ||| BitVec.ofNat 2 (2 ^ n) }).setEvt f else s
  s1.modChan c (fun x => { x with tuning := some (n, planned) })

/-- A planned step on a channel gives way to a failover: what it has done is undone, and it ends SPARE_TAKEN (R445). -/
def State.giveWay (s : State) (c : Nat) : State := match (s.chan c).tuning with
  | some (_, true) => (s.dropSite c).endPlans (movesChan c) 3
  | _ => s

/-- The site that hardware sparing takes: the lowest-numbered free one, as though the planned steps that have claimed a site
and not switched had not been started. Those on that site, and on the channel itself, give way (R438, R445, log 70). -/
def State.takeSite (s : State) (c : Nat) : State :=
  let f := pairOfChan c
  match ([0, 1] : List Nat).find? (fun n => !s.siteUsed f n || (s.plannedHolder f n).isSome) with
  | some n =>
    let s1 := match s.plannedHolder f n with
      | some d => s.giveWay d
      | none => s
    (s1.giveWay c).claimSite c n false
  | none => s

/-- Hardware sparing of the channel has begun, and its switch is not yet made (R438). -/
def Chan.sparing (x : Chan) : Bool := match x.tuning with
  | some (_, false) => true
  | _ => false

/-- Hardware sparing of a channel begins, unless one is under way. -/
def State.spareNow (s : State) (c : Nat) : State :=
  if (s.chan c).sparing then s else (s.modChan c (fun x => { x with owes := false })).takeSite c

/-- A sample of a channel (R437, R449): only an ACTIVE one is sampled. WEAK, as it sets, starts hardware sparing, which a later
sample begins again if it was broken off. -/
def State.sample (s : State) (x : Nat × BitVec 16 × BitVec 8) : State :=
  let c := x.1
  let y := s.chan c
  if y.state != .active then s
  else
    let bad := decide (s.weakCer.toNat < x.2.1.toNat) || decide (x.2.2.toNat < s.weakMrg.toNat)
    let s1 := s.putChan c { y with cer := x.2.1, margin := x.2.2, weak := y.weak || bad }
    if s.assistedPair (pairOfChan c) 1 then (if bad && !y.weak then s1.setEvt (pairOfChan c) else s1)
    else if bad && (!y.weak || y.owes) then s1.spareNow c
    else s1

/-- MONITOR_SAMPLE (R437, R438). -/
def execMonitorSample (samples : List (Nat × BitVec 16 × BitVec 8)) (s : State) : Host.Outcome State Fault Refusal :=
  .next (samples.foldl State.sample s)

/-- The neighbour of an array (R439). -/
def neighbour (e : Nat) : Nat := e ^^^ 1

/-- A channel that has woken is ACTIVE; in PS1 it is parked with the others (R450, R472). -/
def State.comeUp (s : State) (c : Nat) : State :=
  let held := s.house.cur == 1 && !s.house.ramping
  ((s.modChan c (fun x => { x with state := if held then .parked else .active, ps1 := held })).settleChan c).shareDone c

/-- A channel that cannot lock as it wakes goes DOWN with WFAIL (R450). -/
def State.wakeFail (s : State) (c : Nat) : State :=
  ((s.chanDown c).modChan c (fun x => { x with wfail := true })).settleChan c

/-- A ring has locked or not (R438, R444, R450): a waking channel becomes ACTIVE on it, or DOWN; an ACTIVE one is
switched once its link has agreed it, a memory-fabric channel at once; without a lock the channel goes on as it is. -/
def State.ringLock (s : State) (c : Nat) (locked : Bool) : State :=
  let x := s.chan c
  match x.tuning with
  | none => s
  | some (site, planned) =>
    if locked then
      if x.state == .waking then (s.switchRing c site).comeUp c
      else if s.linkOf c < 128 && (s.link (s.linkOf c)).carries then s.putChan c { x with swap := some site }
      else s.remapDone c site
    else if x.state == .waking then s.wakeFail c
    else
      let s1 := s.dropSite c
      if planned then s1.endPlans (movesChan c) 5 else s1

/-- A retraining has taken the place of the channel's wake (R443), or PS2 holds it (R472). -/
def State.wakeHeld (s : State) (c : Nat) : Bool :=
  (s.chan c).state == .waking && ((s.link (s.linkOf c)).state == .retraining || s.asleep)

/-- SPARE_RING_LOCK (R438, R443, R450). -/
def execSpareRingLock (chan : Nat) (locked : Bool) (s : State) : Host.Outcome State Fault Refusal :=
  whenever ((s.chan chan).swap.isNone && !s.wakeHeld chan) s (s.ringLock chan locked)

/-! ### Laser lines -/

/-- Every link of some channels follows them. -/
def State.settleChans (s : State) (cs : List Nat) : State := cs.foldl State.settleChan s

/-- The dark channels of a line are woken (R440, R441): those that have been tried. -/
def State.wakeDark (s : State) (cs : List Nat) : State :=
  cs.foldl (fun acc c => acc.modChan c (fun x => if x.state == .down &&
    x.tried then { x with state := .waking, trying := false } else x)) s

/-- The life counters of an array. -/
def State.array (s : State) (e : Nat) : Array_ := Tbl.get Array_.reset s.arrays e
def State.putArray (s : State) (e : Nat) (x : Array_) : State := { s with arrays := Tbl.set Array_.reset s.arrays e x }

/-- The array donates a line (R452). -/
def State.donates (s : State) (e : Nat) : Bool := (List.range 16).any (fun lam => (s.line e lam).donor)

/-- A line of an array begins to feed the neighbour's channels, or no longer does: the array's counters hear of it. -/
def State.setDonor (s : State) (e lam : Nat) (b : Bool) : State :=
  let s1 := s.putLine e lam { s.line e lam with donor := b }
  let x := s1.array e
  s1.putArray e { x with gave := x.gave || s1.donates e, rested := x.rested || !s1.donates e }

/-- The eye margin of some channels changed by f. -/
def State.shiftMargin (s : State) (cs : List Nat) (f : Nat → Nat) : State :=
  cs.foldl (fun acc c => acc.modChan c (fun x => { x with margin := BitVec.ofNat 8 (f x.margin.toNat) })) s

/-- The neighbour's line can feed line λ of array e: it is neither lost nor sharing, and e's is lost and not fed (R440). -/
def State.canShare (s : State) (e lam : Nat) : Bool :=
  let own := s.line e lam
  let donor := s.line (neighbour e) lam
  own.lost && !own.fed && !donor.lost && !donor.donor

/-- The line of the neighbour feeds both engines (R440): the dark channels wake, and all eight run with 1.2 dB less. -/
def State.share (s : State) (e lam : Nat) : State :=
  let d := neighbour e
  let s1 := (s.setDonor d lam true).putLine e lam { s.line e lam with fed := true }
  (s1.wakeDark (lineChans e lam)).shiftMargin (lineChans e lam ++ lineChans d lam) (fun m => m - 12)

/-- The partitions that own pairs of the two engines that a line and its neighbour feed. -/
def State.lineOwners (s : State) (e : Nat) : List Nat :=
  ((List.range 4).map (fun j => 4 * e + j) ++ (List.range 4).map (fun j => 4 * neighbour e + j)).filterMap (fun f =>
    (s.pair f).owner?)

/-- Failover by hardware: not if every partition that owns a pair of the two engines has chosen the other mode (R440). -/
def State.failsOver (s : State) (e : Nat) : Bool :=
  (s.lineOwners e).isEmpty || (s.lineOwners e).any (fun p => !(s.part p).modes.getLsbD 0)

/-- EVT sets on the pairs of the channels that are dark (R441). -/
def State.setDarkEvt (s : State) (cs : List Nat) : State :=
  cs.foldl (fun acc c => if (acc.chan c).state == .down then acc.setEvt (pairOfChan c) else acc) s

/-- A line is lost (R439, R441): the channels it feeds go DOWN, those of the neighbour too if it was sharing. Where the
neighbour's line cannot cover it, EVT shows on the pairs of both engines whose channels are dark. -/
def State.loseLine (s : State) (e lam : Nat) : State :=
  let x := s.line e lam
  let d := neighbour e
  let s1 := (s.setDonor e lam false).putLine e lam { x with lost := true, donor := false }
  let s2 := if x.donor then s1.putLine d lam { s1.line d lam with fed := false } else s1
  let cs := lineChans e lam ++ (if x.donor then lineChans d lam else [])
  let s3 := (cs.foldl State.chanDown s2).settleChans cs
  if !s3.canShare e lam then s3.setDarkEvt (lineChans e lam ++ lineChans d lam)
  else if s3.failsOver e then s3.share e lam
  else s3

/-- LASER_LINE_LOSS (R439-R441). -/
def execLaserLineLoss (array lam : Nat) (s : State) : Host.Outcome State Fault Refusal :=
  whenever (!(s.line array lam).lost) s (s.loseLine array lam)

/-! ### Waking, parking, widths -/

/-- A wake has ended (R450): ACTIVE; without a lock a site replaces the ring in the hardware mode, as R445 gives; else DOWN. -/
def State.wakeEnd (s : State) (c : Nat) (locked : Bool) : State :=
  let s1 := if s.assistedPair (pairOfChan c) 1 then s else s.takeSite c
  if locked then s.comeUp c
  else if (s1.chan c).tuning.isSome then s1
  else s.wakeFail c

/-- CHANNEL_WAKE_COMPLETE (R448, R450): a retraining takes the place of a wake (R443). -/
def execChannelWakeComplete (chan : Nat) (locked : Bool) (s : State) : Host.Outcome State Fault Refusal :=
  let x := s.chan chan
  whenever (x.state == .waking && x.tuning.isNone && !s.wakeHeld chan) s (s.wakeEnd chan locked)

/-- CHANNEL_PARK_COMPLETE (R447): a wake asked for meanwhile begins then. -/
def execChannelParkComplete (chan : Nat) (s : State) : Host.Outcome State Fault Refusal :=
  whenever ((s.chan chan).parking) s
    (((s.breakOff chan).modChan chan (fun x =>
      { x with state := if x.rewake then .waking else .parked, parking := false, rewake := false })).settleChan chan)

/-- Who may write a register of a pair: the physical function, or the partition that owns it (R389). -/
def State.mayWrite (s : State) (src : Source) (part f : Nat) : Bool := src == .pf || s.ownsPair part f

/-- A write of TGTW (R446, Table 18.7): other values are discarded. The far end is told. -/
def State.writeTgtw (s : State) (k w : Nat) : State :=
  if (w == 8 || w == 4 || w == 2 || w == 1) && (s.pair (pairOfLink k)).fab then
    (s.putLink k { s.link k with tgtw := w, ctlOwed := (s.link k).ctlOwed || (s.link k).tgtw != w }).settleLink k
  else s

/-- LINK_TGTW_WRITE (R446). -/
def execLinkTgtwWrite (src : Source) (part link : Nat) (w : BitVec 4) (s : State) : Host.Outcome State Fault Refusal :=
  whenever (s.isReady && s.mayWrite src part (pairOfLink link)) s (s.writeTgtw link w.toNat)

/-- RETRAIN written (R436, R442): also for a link that is DOWN; not for a pair outside the peer fabric. -/
def State.askRetrain (s : State) (k : Nat) : State :=
  if (s.pair (pairOfLink k)).fab && (s.link k).state != .retraining then
    (s.putLink k { s.link k with failures := 0, stuck := false }).retrain k
  else s

/-- LINK_RETRAIN (R442). -/
def execLinkRetrain (src : Source) (part link : Nat) (s : State) : Host.Outcome State Fault Refusal :=
  whenever (s.isReady && s.mayWrite src part (pairOfLink link)) s (s.askRetrain link)

/-- A write of PARK: discarded for a peer-fabric channel (R447, Table 18.7). -/
def State.writePark (s : State) (c : Nat) (park : Bool) : State :=
  if (s.pair (pairOfChan c)).fab then s else (s.modChan c (fun x => { x with park := park })).settleChan c

/-- CHAN_PARK_WRITE (R447). -/
def execChanParkWrite (src : Source) (part chan : Nat) (park : Bool) (s : State) : Host.Outcome State Fault Refusal :=
  whenever (s.isReady && s.mayWrite src part (pairOfChan chan)) s (s.writePark chan park)

/-! ### Measurement and fabrics -/

/-- Measurement register n: 64 bytes, zero at power-on (R405). -/
def State.meas? (s : State) (n : Nat) : List Byte := Tbl.get (List.replicate 64 0) s.meas n
/-- Extension: M := SHAKE256(M ‖ D), 64 bytes (R405). -/
def State.extend (s : State) (n : Nat) (d : List Byte) : State :=
  { s with meas := Tbl.set (List.replicate 64 0) s.meas n (shakeOut 8 (s.meas? n ++ d)) }

/-- A pair changes its fabric (R15, R447, R471): its channels keep their states, PARK of each parked one sets on the move to
the memory fabric, and M3 is extended with the pair and the fabric (log 41). -/
def State.moveFabric (s : State) (f : Nat) (peer : Bool) : State :=
  let s1 := s.putPair f { s.pair f with fab := peer, trained := false }
  let s2 := ((List.range 16).map (fun i => 16 * f + i)).foldl (fun acc c =>
    acc.modChan c (fun x => { x with park := !peer && x.state == .parked, trying := false })) s1
  let s3 := ([2 * f, 2 * f + 1] ++ (List.range 16).map (fun i => 128 + 16 * f + i)).foldl (fun acc k =>
    acc.fallLink k false) s2
  s3.extend 3 [BitVec.ofNat 8 f, if peer then 1 else 0]

/-- A write of FABREQ (R15): a change of fabric is refused unless every channel of the pair is parked or down. DESIGN CHOICE
(log 75): a write that names the fabric which the pair is in asks for nothing, and is not refused. -/
def State.writeFabreq (s : State) (f : Nat) (peer : Bool) : State :=
  let p := s.pair f
  let s1 := s.putPair f { p with fabreq := peer }
  if p.fab == peer then s1
  else if s.pairQuiet f then s1.moveFabric f peer
  else (s1.putPair f { p with fabreq := peer, ref := true }).rise (.pairRef f)

/-- PAIR_FABREQ_WRITE (R15). -/
def execPairFabreqWrite (src : Source) (part pair : Nat) (peer : Bool) (s : State) : Host.Outcome State Fault Refusal :=
  whenever (s.isReady && s.mayWrite src part pair) s (s.writeFabreq pair peer)

/-! ### Planned steps (R444, R445) -/

/-- The pairs on which the target of a step lies (R444). -/
def planPairs (cmd tgt : Nat) : List Nat :=
  if cmd = 1 ∨ cmd = 2 then [tgt / 16]
  else if cmd = 3 then (if tgt < 128 then [tgt / 2] else [])
  else if (cmd = 4 ∨ cmd = 5) ∧ tgt < 256 then
    (List.range 4).map (fun j => 4 * (tgt / 16) + j) ++ (List.range 4).map (fun j => 4 * neighbour (tgt / 16) + j)
  else []

/-- SPARE (Table 18.3). A site that another channel has is SPARE_TAKEN. -/
def State.planSpare (s : State) (part c n : Nat) : State :=
  let x := s.chan c
  if x.state != .active then s.endPlan part 4
  else if x.spare = n + 1 then s.endPlan part 2
  else if s.siteUsed (pairOfChan c) n || x.tuning.isSome || x.swap.isSome then s.endPlan part 3
  else s.claimSite c n true

/-- RELEASE (Table 18.3): back to the channel's own rings; one that carries nothing is switched as it stands. -/
def State.planRelease (s : State) (part c : Nat) : State :=
  let x := s.chan c
  if x.spare = 0 then s.endPlan part 2
  else if x.tuning.isSome || x.swap.isSome then s.endPlan part 3
  else if x.state == .active then s.claimSite c 2 true
  else (s.switchRing c 2).endPlan part 2

/-- RETRAIN (Table 18.3). -/
def State.planRetrain (s : State) (part k : Nat) : State :=
  if (s.pair (pairOfLink k)).fab then s.askRetrain k else s.endPlan part 4

/-- SHARE (Table 18.3): for a lost line; a donor that shares already is SPARE_TAKEN. -/
def State.planShare (s : State) (part t : Nat) : State :=
  let e := t / 16
  let lam := t % 16
  if s.canShare e lam then (s.share e lam).shareDone (16 * (4 * e) + lam)
  else if (s.line e lam).lost && (s.line (neighbour e) lam).donor then s.endPlan part 3
  else s.endPlan part 4

/-- UNSHARE (R441, R449): accepted only for a line that has measured rated power for 1 s. Its four channels wake, those that
are DOWN too, and one that is parking once it has parked (R447). -/
def State.planUnshare (s : State) (part t : Nat) (recovered : Bool) : State :=
  let e := t / 16
  let lam := t % 16
  let x := s.line e lam
  if x.fed && recovered then
    let s1 := (s.putLine e lam { x with lost := false, fed := false }).setDonor (neighbour e) lam false
    let cs := lineChans e lam
    let wake := fun (y : Chan) => if y.state != .active then y
      else if y.parking then { y with rewake := true } else { y with state := .waking }
    let s2 := (cs.foldl (fun acc c => (acc.breakOff c).modChan c wake) s1).wakeDark cs
    let s3 := (s2.settleChans cs).shiftMargin (cs ++ lineChans (neighbour e) lam) (fun m => min 255 (m + 12))
    s3.shareDone (16 * (4 * e) + lam)
  else s.endPlan part 4

/-- GO (R444): the step starts, unless the partition owns no pair of its target, CMD names no step, or one is busy. An
UNSHARE waits for the measurement of its line (log 42). -/
def State.planGo (s : State) (part cmd tgt : Nat) (ring : Bool) : State :=
  let p := s.part part
  if p.planRun.isSome then s.modPart part (fun p => { p with planStatus := 4 })
  else if !((planPairs cmd tgt).any (s.ownsPair part)) then s.endPlan part 4
  else
    let s1 := s.modPart part (fun p => { p with planStatus := 1, planRun := some (cmd, tgt) })
    match cmd with
    | 1 => s1.planSpare part tgt ring.toNat
    | 2 => s1.planRelease part tgt
    | 3 => s1.planRetrain part tgt
    | 4 => s1.planShare part tgt
    | _ => s1

/-- A write of PLAN (Table 18.6). -/
def State.writePlan (s : State) (part : Nat) (v : Nat) : State :=
  let s1 := s.modPart part (fun p =>
    { p with planCmd := BitVec.ofNat 4 (bits v 3 0), planTgt := bits v 13 4, planRing := bit v 14 })
  if bit v 16 then s1.planGo part (bits v 3 0) (bits v 13 4) (bit v 14) else s1

/-- The word of PLAN that starts a step. -/
def planWord (cmd tgt : Nat) (ring : Bool) : Nat := cmd + 16 * (tgt % 1024) + 16384 * ring.toNat + 65536

/-- PLAN_SPARE (R444). -/
def execPlanSpare (part chan : Nat) (ring : Bool) (s : State) : Host.Outcome State Fault Refusal :=
  whenReady s (s.writePlan part (planWord 1 chan ring))
/-- PLAN_RELEASE (R444). -/
def execPlanRelease (part chan : Nat) (s : State) : Host.Outcome State Fault Refusal :=
  whenReady s (s.writePlan part (planWord 2 chan false))
/-- PLAN_RETRAIN (R444). -/
def execPlanRetrain (part link : Nat) (s : State) : Host.Outcome State Fault Refusal :=
  whenReady s (s.writePlan part (planWord 3 link false))
/-- PLAN_SHARE (R444). -/
def execPlanShare (part target : Nat) (s : State) : Host.Outcome State Fault Refusal :=
  whenReady s (s.writePlan part (planWord 4 target false))
/-- PLAN_UNSHARE (R441): the step started by PLAN, or by this write of it, is decided by the measurement. -/
def execPlanUnshare (part target : Nat) (recovered : Bool) (s : State) : Host.Outcome State Fault Refusal :=
  let s1 := if (s.part part).planRun == some (5, target) then s else s.writePlan part (planWord 5 target false)
  whenReady s (if (s1.part part).planRun == some (5, target) then s1.planUnshare part target recovered else s1)

/-! ### Laser measurement and ageing -/

/-- LASER_SAMPLE (R451). -/
def execLaserSample (array lam : Nat) (bias power : BitVec 12) (s : State) : Host.Outcome State Fault Refusal :=
  .next (s.putLine array lam { s.line array lam with bias := bias, power := power })

/-- AGEING_COUNTER_SAVE: powered hours since the last save, and how many of them the array donated a line (R452); none if it
never did since, all if it always did. -/
def execAgeingCounterSave (array : Nat) (hours : AgedHours) (s : State) : Host.Outcome State Fault Refusal :=
  let x := s.array array
  let n := if !x.gave then 0 else if !x.rested then hours.powered else min hours.given hours.powered
  let g := s.donates array
  .next (s.putArray array { lifeh := x.lifeh + BitVec.ofNat 32 hours.powered,
                            penh := x.penh + BitVec.ofNat 32 (10 * hours.powered + 8 * n), gave := g, rested := !g })

/-! ### Training (R471) -/

/-- A channel is tried: DOWN, untried, of a memory-fabric pair, with light. -/
def State.tryChan (s : State) (c : Nat) : State :=
  let x := s.chan c
  if x.state == .down && !x.tried && !(s.pair (pairOfChan c)).fab then s.putChan c { x with trying := true, tried := true }
  else s

/-- OPTICAL_LIGHT_POLL: channels whose receive fibre carries light from a module port (R471), in phase 4 and after, in
PS0 and as PS2 is left (R472). -/
def execOpticalLightPoll (chans : List Nat) (s : State) : Host.Outcome State Fault Refusal :=
  whenever ((s.house.phase == 4 || s.house.phase == 5) && (s.house.cur == 0 || (s.house.cur == 2 && s.house.ramping))) s
    (chans.foldl State.tryChan { s with house := { s.house with polled := true } })

/-- CHANNEL_TRAINING_COMPLETE (R408, R471): the Abnel version is negotiated with what the far end implements, and the channel
is ACTIVE; with no common version, or while its laser line is dark (R440, R441), it does not come up, and CHANNEL_TRAIN_TIMEOUT
follows. -/
def execChannelTrainingComplete (chan : TrainedChan) (s : State) : Host.Outcome State Fault Refusal :=
  let c := chan.chan
  let k := s.linkOf c
  whenever ((s.chan c).trying && s.lit c && !s.opticsHeld) s
    (match abnelCommon chan.lo chan.hi with
     | some v => ((s.modChan c (fun x => { x with state := .active, trying := false })).putLink k
         { s.link k with version := v }).settleChan c
     | none => s)

/-- CHANNEL_TRAIN_TIMEOUT (R471): the channel stays DOWN, with WFAIL and EVT. -/
def execChannelTrainTimeout (chan : Nat) (s : State) : Host.Outcome State Fault Refusal :=
  whenever ((s.chan chan).trying && !s.opticsHeld) s
    ((s.modChan chan (fun x => { x with trying := false, wfail := true })).setEvt (pairOfChan chan))

/-! ### Registers (Tables 18.5-18.8) -/

def chanCode : ChanState → Nat
  | .active => 0
  | .parked => 1
  | .waking => 2
  | .down => 3
def linkCode : LinkState → Nat
  | .up => 0
  | .retraining => 1
  | .down => 2
  | .widthChange => 3

def State.pairWord (s : State) (f : Nat) : Nat :=
  let p := s.pair f
  p.owner % 16 + 16 * p.ownv.toNat + 32 * p.fabreq.toNat + 64 * p.fab.toNat + 128 * p.ref.toNat + 256 * p.spuse.toNat +
    1024 * p.evt.toNat
/-- LINK and LCNT read zero for a pair outside the peer fabric. -/
def State.linkWord (s : State) (k : Nat) : Nat :=
  let x := s.link k
  if (s.pair (pairOfLink k)).fab then x.tgtw % 16 + 16 * (x.curw % 16) + 256 * linkCode x.state else 0
def State.countWord (s : State) (k : Nat) : Nat :=
  let x := s.link k
  if (s.pair (pairOfLink k)).fab then x.replays % 65536 + 65536 * (x.retrains % 65536) else 0
/-- PARK of a peer-fabric channel reads whether it lies beyond the target. -/
def State.chanWord (s : State) (c : Nat) : Nat :=
  let x := s.chan c
  let park := if (s.pair (pairOfChan c)).fab then !s.within (c / 8) c else x.park
  chanCode x.state + 4 * park.toNat + 8 * (x.spare % 4) + 32 * x.weak.toNat + 64 * x.wfail.toNat + 256 * x.margin.toNat +
    65536 * x.cer.toNat
def Line.stateCode (x : Line) : Nat := if x.lost then (if x.fed then 3 else 1) else if x.donor then 2 else 0
def Line.word (x : Line) : Nat := x.bias.toNat + 4096 * x.power.toNat + 2 ^ 24 * x.stateCode
/-- LASARR word n of array e. -/
def State.arrayWord (s : State) (e n : Nat) : Nat :=
  let x := s.array e
  let mask := fun (f : Line → Bool) => (maskOf 16 (fun lam => f (s.line e lam))).toNat
  match n with
  | 0 => x.lifeh.toNat
  | 1 => x.penh.toNat
  | 2 => mask Line.donor + 65536 * mask Line.fed
  | _ => 0
def Partition.planReg (p : Partition) : Nat :=
  p.planCmd.toNat + 16 * (p.planTgt % 1024) + 16384 * p.planRing.toNat + 2 ^ 20 * p.planStatus

end Sys2Proof.Machine
end

