-- ==== Sys2Proof/Machine/Lane.lean ====
section
/-! DEFINITION. Lane instructions, 0x60-0x66 (R155-R157). -/

namespace Sys2Proof.Machine

/-- A lane move: the element of a in source lane j l n, n = read32(b)[4:0]; PERMA is ignored (R155).
DESIGN CHOICE (log 64): a scalar a is read for every lane. DESIGN CHOICE (log 75): a lane of another group whose fixed-latency write
is on its way gives the value before it, of the two that R76 allows. -/
def Ctx.laneMove (c : Ctx) (bScalar : Bool) (d a b : RegField) (j : Nat → Nat → Nat) : Host.Outcome State Fault Refusal :=
  let t := c.etype
  let w := isWide t
  c.run (c.dataStop (inANY t) (isVreg d && (!bScalar || scalarOk b)) d w false [(a, w)] [(b, false)])
    (c.data 6 d w false (fun l =>
      (elemOut t (c.fieldAt a w (j l (c.readB b false l % 32)) % 2 ^ ebits t), Flags.none)))

/-- PERM (R155). -/
def execPerm (d a b : RegField) (s : State) : Host.Outcome State Fault Refusal :=
  withIssue s fun c => c.laneMove false d a b (fun _ n => n)

/-- SHFL.xor (R155). -/
def execShflXor (d a b : RegField) (s : State) : Host.Outcome State Fault Refusal :=
  withIssue s fun c => c.laneMove false d a b (fun l n => l ^^^ n)

/-- SHFL.up (R155). -/
def execShflUp (d a b : RegField) (s : State) : Host.Outcome State Fault Refusal :=
  withIssue s fun c => c.laneMove false d a b (fun l n => if n ≤ l then l - n else l)

/-- SHFL.down (R155). -/
def execShflDown (d a b : RegField) (s : State) : Host.Outcome State Fault Refusal :=
  withIssue s fun c => c.laneMove false d a b (fun l n => if l + n ≤ 31 then l + n else l)

/-- The types and codes of GRED and GSCAN: INT under every code, FLT under codes 0-2 but not under srd (R156). -/
def Ctx.reduceTypeOk (c : Ctx) (op : Nat) : Bool :=
  inINT c.etype || (inFLT c.etype && decide (op ≤ 2) && !c.srd)

/-- The exact value of an integer reduction step; the bitwise ones act on the type's pattern (R156). -/
def reduceInt (t op : Nat) (x y : Int) : Int :=
  let w := ebits t
  let px := (x % (2 ^ w : Nat)).toNat
  let py := (y % (2 ^ w : Nat)).toNat
  match op with
  | 0 => x + y
  | 1 => min x y
  | 2 => max x y
  | 3 => elemInt t (px &&& py)
  | 4 => elemInt t (px ||| py)
  | _ => elemInt t (px ^^^ py)

/-- The identities for integers (R156). -/
def identInt (t op : Nat) : Int :=
  match op with
  | 1 => intMax (isSigned t) (ebits t)
  | 2 => intMin (isSigned t) (ebits t)
  | 3 => elemInt t (2 ^ ebits t - 1)
  | _ => 0

/-- A float reduction step, rounded under RND (R156). -/
def reduceFloat (f : Fmt) (r : RndEnv) (op x y : Nat) : Nat × Flags :=
  match op with
  | 0 => f.add r x y
  | 1 => f.minMax r.ftz false false x y
  | _ => f.minMax r.ftz true false x y

/-- The identities for floats: −0, +∞, −∞ (R156). -/
def identFloat (f : Fmt) (op : Nat) : Nat :=
  match op with
  | 0 => f.signBit true
  | 1 => f.infBits
  | _ => f.signBit true + f.infBits

/-- One level of the tree: pairs of neighbours combined. -/
def treeLevel (f : Nat → Nat → Nat × Flags) : List Nat → List (Nat × Flags)
  | x :: y :: rest => f x y :: treeLevel f rest
  | [x] => [(x, Flags.none)]
  | [] => []

/-- n levels of the tree, with the OR of every rounding's flags. -/
def treeReduce (f : Nat → Nat → Nat × Flags) : Nat → List Nat → Flags → Nat × Flags
  | 0, xs, fl => (xs.headD 0, fl)
  | n + 1, xs, fl =>
    let ys := treeLevel f xs
    treeReduce f n (ys.map (fun y => y.1)) (Flags.or fl (Flags.orAll (ys.map (fun y => y.2))))

/-- Operand a of each lane, the identity where the lane does not take effect (R156). -/
def Ctx.gather (c : Ctx) (a : RegField) (w : Bool) (ident : Nat) : List Nat :=
  allLanes.map (fun l => if c.takes l then c.readA a w l % 2 ^ ebits c.etype else ident)

/-- Lane instructions do not flush (R117). -/
def Ctx.laneEnv (c : Ctx) : RndEnv := { c.env 0 0 with ftz := false }

/-- GRED's result and flags (R156). -/
def Ctx.reduce (c : Ctx) (a : RegField) (op : Nat) : Nat × Flags :=
  let t := c.etype
  let w := isWide t
  if inINT t then
    let xs := allLanes.filterMap (fun l => if c.takes l then some (elemInt t (c.readA a w l)) else none)
    let r := xs.foldl (reduceInt t op) (identInt t op)
    (fitElem t c.sat r, Flags.none)
  else treeReduce (reduceFloat (fmtOf t) c.laneEnv op) 5 (c.gather a w (identFloat (fmtOf t) op)) Flags.none

/-- GRED: over the lanes that take effect, if the group has an active lane (R156). -/
def execGred (d a : RegField) (code : ByteField) (s : State) : Host.Outcome State Fault Refusal :=
  withIssue s fun c =>
    let t := c.etype
    let w := isWide t
    let op := code.toNat
    c.run (check (decide (op ≤ 5) && c.reduceTypeOk op) Cause.illegalEncoding <|>
        check (c.dstOk d w && c.srcOk a w) Cause.illegalOperand <|>
        c.hazard (regsOf a w) [] [] c.guardRegs (regsOf d w))
      (if c.actives.isEmpty then c.next c.s (c.g.launch c.slices 6 (regsOf d w))
       else
         let r := c.reduce a op
         let ls := if isSreg d then [0] else c.takers
         let ws := ls.flatMap (fun l => spread (dstElems d w l) (elemOut t r.1))
         c.next c.s (((c.g.arith false [r.2]).launch c.slices 6 (regsOf d w)).writeFixed c.slices 6 ws))

/-- The inclusive or exclusive prefix of a list (R157): y is the value before the list. -/
def scanGo {α : Type} (f : α → α → α × Flags) (excl : Bool) : α → List α → List α × Flags
  | _, [] => ([], Flags.none)
  | y, x :: xs =>
    let z := f y x
    let r := scanGo f excl z.1 xs
    ((if excl then y else z.1) :: r.1, Flags.or z.2 r.2)

/-- GSCAN's outputs by lane, and its flags (R157). -/
def Ctx.scan (c : Ctx) (a : RegField) (op : Nat) (excl : Bool) : List Nat × Flags :=
  let t := c.etype
  let w := isWide t
  if inINT t then
    let xs := allLanes.map (fun l => if c.takes l then elemInt t (c.readA a w l) else identInt t op)
    let r := scanGo (fun y x => (reduceInt t op y x, Flags.none)) excl (identInt t op) xs
    (r.1.map (fitElem t c.sat), Flags.none)
  else
    scanGo (reduceFloat (fmtOf t) c.laneEnv op) excl (identFloat (fmtOf t) op)
      (c.gather a w (identFloat (fmtOf t) op))

/-- GSCAN: a prefix in increasing lane order (R157). DESIGN CHOICE (log 64): a scalar a is read for every lane. -/
def execGscan (d a : RegField) (code : ByteField) (s : State) : Host.Outcome State Fault Refusal :=
  withIssue s fun c =>
    let t := c.etype
    let w := isWide t
    let op := code.toNat % 8
    let excl := decide (8 ≤ code.toNat)
    c.run (check (decide (op ≤ 5) && decide (code.toNat ≤ 13) && c.reduceTypeOk op) Cause.illegalEncoding <|>
        check (c.dstOk d w && isVreg d && c.srcOk a w) Cause.illegalOperand <|>
        c.hazard (regsOf a w) [] [] c.guardRegs (regsOf d w))
      (let r := c.scan a op excl
       let ws := c.takers.flatMap (fun l => spread (dstElems d w l) (elemOut t (r.1.getD l 0)))
       c.next c.s (((c.g.arith false (if c.takers.isEmpty then [] else [r.2])).launch c.slices 6 (regsOf d w)).writeFixed c.slices
         6 ws))

/-- BCAST: b scalar (R155). -/
def execBcast (d a b : RegField) (s : State) : Host.Outcome State Fault Refusal :=
  withIssue s fun c => c.laneMove true d a b (fun _ n => n)

end Sys2Proof.Machine
end

