-- ==== Sys2Proof/Machine/Matrix.lean ====
section
/-! DEFINITION. The matrix instructions, 0xA0-0xAD, and the engine's own steps (R158-R190). -/

namespace Sys2Proof.Machine

/-! ### The freeze (R188) -/

/-- The place of a group among the instructions that the freeze of its core holds. -/
def Ctx.frozenPlace (c : Ctx) : Nat := match c.grp.park with
  | some (.frozen _) => c.grp.since
  | _ => c.s.next

/-- The engine does not accept the instruction yet: it is frozen, or operations that it held come first (R188). -/
def Ctx.engineHolds (c : Ctx) : Bool := c.s.frozen c.g.core || c.s.frozenBefore c.g.core c.frozenPlace

/-- The group parks without being accepted, in its place (R188). -/
def Ctx.parkFrozen (c : Ctx) : State :=
  (c.park (.frozen false)).modGang c.id (fun g => g.modGroup c.slices (fun x => { x with since := c.frozenPlace }))

/-- An engine operation that a freeze holds, else its effect. -/
def Ctx.engineDo (c : Ctx) (effect : State) : State := if c.engineHolds then c.parkFrozen else effect

/-- An operation that executes once: SLOT_STATE for what the team does not hold, the freeze, its effect (R159, R188). -/
def Ctx.engineOnce (c : Ctx) (gap : Option Nat) (effect : State) : State :=
  match gap with
  | some a => c.onceFault Cause.slotState a
  | none => c.engineDo effect

/-- The state with every accepted operation of the core performed, for an operation that is accepted now (R164); a frozen
engine performs none (R188). -/
def State.flushed (s : State) (core : Nat) : State :=
  if s.frozen core then s else s.modCore core Core.flushEngine

/-- Held follow-on operations are accepted up to the first group that the freeze parked before them (R176, R188). -/
def State.acceptHeld (s : State) (core : Nat) : State :=
  let first := match s.frozenParked core with
    | e :: _ => e.2.since
    | [] => s.next
  let k := s.core core
  let go := k.heldMma.filter (fun o => decide (o.1 < first))
  go.foldl (fun s o => s.acceptFollow core o.2)
    (s.putCore core { k with heldMma := k.heldMma.filter (fun o => !decide (o.1 < first)) })

/-- The freeze of a core has ended: held operations are accepted, and the first group that it parked is presented again
(R188). -/
def State.unfreeze (s : State) (core : Nat) : State :=
  if s.frozen core then s
  else
    let s1 := s.acceptHeld core
    match s1.frozenParked core with
    | (id, x) :: _ => match x.park with
      | some (.frozen false) => s1.modGang id (fun g => g.modGroup x.slices (fun y => { y with park := some (.frozen true) }))
      | _ => s1
    | [] => s1

/-! ### MCLAIM and MREL -/

/-- Unit n has not been given back in this cycle (R163). -/
def Core.freeAt (k : Core) (now n : Nat) : Bool := decide (Tbl.get 0 k.freeFrom n ≤ now)

/-- Every unit of a claim is the team's, or free (R162, R163). -/
def Core.claimFree (k : Core) (now team : Nat) (slots blocks : Word) : Bool :=
  (members slots).all (fun n => k.slotHolder n == none && k.freeAt now n || k.slotHolder n == some team) &&
  (members blocks).all (fun n => k.blockHolder n == none && k.freeAt now (32 + n) || k.blockHolder n == some team)

/-- An MCLAIM that parked on the core before number n names a unit of the claim (R162). -/
def State.claimBefore (s : State) (core n : Nat) (slots blocks : Word) : Bool :=
  (s.coreGangs core).any (fun e => e.2.groups.any (fun x => match x.park with
    | some (.mclaim a b) => decide (x.since < n) && (a &&& slots != 0 || b &&& blocks != 0)
    | _ => false))

/-- The claim can be granted. -/
def State.claimable (s : State) (core team n : Nat) (slots blocks : Word) : Bool :=
  (s.core core).claimFree s.now team slots blocks && !s.claimBefore core n slots blocks

/-- A slot or a block newly held is zero and free of poison (R160). -/
def Core.grantSlot (k : Core) (team n : Nat) : Core :=
  if k.slotHolder n = some team then k
  else
    let k1 := k.zeroSlot n
    { k1 with slotOwner := Tbl.set none k1.slotOwner n (some team) }
def Core.grantBlock (k : Core) (team n : Nat) : Core :=
  if k.blockHolder n = some team then k
  else
    let k1 := (List.range 32).foldl (fun k r => k.zeroRow (32 * n + r)) k
    { k1 with blockOwner := Tbl.set none k1.blockOwner n (some team) }

/-- The claim is granted whole, in engine order (R162). -/
def State.grantClaim (s : State) (core team : Nat) (slots blocks : Word) : State :=
  (s.flushed core).modCore core (fun k =>
    (members blocks).foldl (fun k n => k.grantBlock team n) ((members slots).foldl (fun k n => k.grantSlot team n) k))

/-- The checks of MCLAIM and MREL. -/
def Ctx.claimStop (c : Ctx) (a : RegField) : Option Stop := c.onceStop (blockOk a 54) true true (sregs (sreg a) 2) [] [] []

/-- MCLAIM (R162). DESIGN CHOICE (log 75): an empty claim ends with no effect while the engine is frozen too, and does not park
(R188). -/
def execMclaim (a : RegField) (s : State) : Host.Outcome State Fault Refusal :=
  withIssue s fun c =>
    let sl := c.sval (sreg a)
    let bl := c.sval (sreg a + 1)
    c.run (c.claimStop a)
      (c.onceDo (if sl = 0 ∧ bl = 0 then c.skip
        else c.engineDo
          (if s.claimable c.g.core c.g.team s.next sl bl then c.nextIn (s.grantClaim c.g.core c.g.team sl bl)
           else (c.park (.mclaim sl bl)).modGang c.id (fun g => g.modGroup c.slices (fun x =>
             { x with since := c.frozenPlace })))))

/-- An accepted request of the team that writes into one of these slots has not ended (R163). -/
def State.slotWriter (s : State) (core team : Nat) (slots : Word) : Bool :=
  (listed s.reqs).any (fun e => e.2.team == team && e.2.core == core && (match s.landingOf e.2 with
    | some l => l.loc == 1 && (members slots).any (fun n =>
        decide (n * 16384 < l.base + l.len) && decide (l.base < (n + 1) * 16384))
    | none => false))

/-- The named slots that the team holds. -/
def Core.heldSlots (k : Core) (team : Nat) (slots : Word) : Word :=
  maskOf 32 (fun n => slots.getLsbD n && k.slotHolder n == some team)
def Core.heldBlocks (k : Core) (team : Nat) (blocks : Word) : Word :=
  maskOf 32 (fun n => blocks.getLsbD n && k.blockHolder n == some team)

/-- The owners of the named units, with those of the team taken out. -/
def ownersWithout (t : Tbl (Option Nat)) (team : Nat) (units : Word) : Tbl (Option Nat) :=
  (members units).foldl (fun t n => if Tbl.get none t n = some team then Tbl.set none t n none else t) t

/-- These units are free from the cycle after now (R163). -/
def Core.freedAt (k : Core) (now : Nat) (slots blocks : Word) : Tbl Nat :=
  (members slots ++ (members blocks).map (32 + ·)).foldl (fun t n => Tbl.set 0 t n (now + 1)) k.freeFrom

/-- The named units that the team holds are given back, in engine order, and are free from the next cycle on (R163). -/
def State.giveBack (s : State) (core team : Nat) (slots blocks : Word) : State :=
  (s.flushed core).modCore core (fun k =>
    { k with slotOwner := ownersWithout k.slotOwner team slots, blockOwner := ownersWithout k.blockOwner team blocks,
             freeFrom := k.freedAt s.now (k.heldSlots team slots) (k.heldBlocks team blocks) })

/-- MREL (R163). -/
def execMrel (a : RegField) (s : State) : Host.Outcome State Fault Refusal :=
  withIssue s fun c =>
    let sl := c.core.heldSlots c.g.team (c.sval (sreg a))
    let bl := c.core.heldBlocks c.g.team (c.sval (sreg a + 1))
    c.run (c.claimStop a)
      (c.onceDo (c.engineDo
        (if s.slotWriter c.g.core c.g.team sl then c.park (.mrel sl bl)
         else c.nextIn (s.giveBack c.g.core c.g.team sl bl))))

/-- MCLAIM_GRANT: the first claim in the order of parking that can be granted is granted (R162). -/
def execMclaimGrant (core : Nat) (s : State) : Host.Outcome State Fault Refusal :=
  let waiting := ((s.coreGangs core).flatMap (fun e => e.2.groups.filterMap (fun x => match x.park with
    | some (.mclaim a b) => if s.claimable core e.2.team x.since a b then some (e, x, a, b) else none
    | _ => none))).sortedBy (fun p q => decide (p.2.1.since ≤ q.2.1.since))
  match waiting with
  | (e, x, a, b) :: _ => whenever (!s.frozen core) s ((s.grantClaim core e.2.team a b).wake e.1 x.slices (x.pc + 4))
  | [] => .next s

/-- MREL_RELEASE: the requests that wrote into the slots of a parked MREL have ended (R163). -/
def execMrelRelease (core : Nat) (s : State) : Host.Outcome State Fault Refusal :=
  let waiting := ((s.coreGangs core).flatMap (fun e => e.2.groups.filterMap (fun x => match x.park with
    | some (.mrel a b) => if s.slotWriter core e.2.team a then none else some (e, x, a, b)
    | _ => none))).sortedBy (fun p q => decide (p.2.1.since ≤ q.2.1.since))
  match waiting with
  | (e, x, a, b) :: _ => whenever (!s.frozen core) s ((s.giveBack core e.2.team a b).wake e.1 x.slices (x.pc + 4))
  | [] => .next s

/-! ### Counted operations -/

/-- An operation of the issuing group, as the engine holds it (R166). -/
def Ctx.engineOp (c : Ctx) (k : Nat) (kind : EngineKind) : EngineOp :=
  { id := c.s.next, gang := c.id, team := c.g.team, opc := c.pc, k := k, counted := c.s.next, kind := kind, next := 0,
    ran := false, out := [], flags := 0, faults := [] }

/-- The operation is accepted, and its counter rises; at 4,095 the group waits (R166). -/
def Ctx.acceptOp (c : Ctx) (k : Nat) (o : EngineOp) : State :=
  if c.g.counter k = 4095 then c.waitHere
  else c.next (({ c.s with next := c.s.next + 1 } : State).modCore c.g.core (fun e => { e with engine := e.engine ++ [o] }))
    (c.g.putCounter k (c.g.counter k + 1))

/-- MMA and MMAG; groups: their row counts (R173-R175). -/
def Ctx.mma (c : Ctx) (mmag : Bool) (a : RegField) (k : ByteField) : Host.Outcome State Fault Refusal :=
  let w := c.words a 8
  let d := MDesc.of w
  let groups := if mmag then (List.range d.g).map (fun g =>
      c.s.padRead c.g.team c.g.core (padOffset c.padAlloc 4 (d.gtab + 4 * g)) 4 % 65536) else [d.m]
  c.run (c.onceStop (blockOk a 48 && decide (k.toNat ≤ 7)) (MDesc.ok mmag w) true (sregs (sreg a) 8) [] [] [] <|>
      (if mmag && c.once then c.ownPadFirst else none))
    (c.onceDo (c.engineOnce (c.core.mmaGap c.g.team d) (c.acceptOp k.toNat (c.engineOp k.toNat (.mma mmag w groups)))))

/-- MMA (R174, R175). -/
def execMma (a : RegField) (k : ByteField) (s : State) : Host.Outcome State Fault Refusal :=
  withIssue s fun c => c.mma false a k

/-- MMAG: its group table is read at issue (R175). -/
def execMmag (a : RegField) (k : ByteField) (s : State) : Host.Outcome State Fault Refusal :=
  withIssue s fun c => c.mma true a k

/-- The first of n rows from row0 that the team does not hold (R159). -/
def Core.rowGap (k : Core) (team row0 n : Nat) : Option Nat :=
  ((List.range n).find? (fun i => k.blockHolder ((row0 + i) / 32) != some team)).map (fun i => rowMark (row0 + i))

/-- The first slot byte that a conversion writes, or row that it reads, and that the team does not hold (R179). -/
def Core.mcvtGap (k : Core) (team : Nat) (d : McvtDesc) : Option Nat :=
  ((List.range d.dstRows).findSome? (fun r => k.slotGap team (d.addr + r * d.pitch) (mfRowBytes d.fmt d.dstLen))) <|>
  (if mfScaled d.fmt then k.slotGap team (d.addr + 16 * d.scl) (d.dstRows * ((d.dstLen + 31) / 32)) else none) <|>
  k.rowGap team d.row0 d.m

/-- MCVT (R179, R180). -/
def execMcvt (d a : RegField) (code : ByteField) (s : State) : Host.Outcome State Fault Refusal :=
  withIssue s fun c =>
    let k := code.toNat % 8
    let tr := bit code.toNat 3
    let rnd := bits code.toNat 6 4
    let j0 := c.sval (sreg d)
    let j1 := c.sval (sreg d + 1)
    let i0 := c.sval (sreg a)
    let i1 := c.sval (sreg a + 1)
    let m := McvtDesc.of j0 j1 i0 i1 tr rnd
    c.run (check (Code.mcvt code) Cause.illegalEncoding <|>
        c.onceStop (blockOk d 54 && blockOk a 54) (McvtDesc.ok j0 j1 i0 i1 m) true (sregs (sreg a) 2) []
          (sregs (sreg d) 2) [])
      (c.onceDo (c.engineOnce (c.core.mcvtGap c.g.team m) (c.acceptOp k (c.engineOp k (.mcvt i0 i1 j0 j1 tr rnd)))))

/-- The fields of a row range word: first row, count (R182). -/
def rangeRow (x : Word) : Nat := bits x.toNat 9 0
def rangeCount (x : Word) : Nat := bits x.toNat 25 16 + 1
/-- The row range word is legal (R182). -/
def rangeOk (x : Word) : Bool :=
  bits x.toNat 15 10 == 0 && bits x.toNat 31 26 == 0 && decide (rangeRow x + rangeCount x ≤ 1024)

/-- The bytes that a drain moves (R185). -/
def drainLen (slotSource : Bool) (x : Word) : Nat :=
  512 * (if slotSource then bits x.toNat 28 19 + 1 else rangeCount x)
/-- The source word of a drain is legal (R185). -/
def drainOk (slotSource : Bool) (x : Word) : Bool :=
  if slotSource then bits x.toNat 31 29 == 0 && bits x.toNat 18 0 % 512 == 0 &&
    decide (bits x.toNat 18 0 + drainLen true x ≤ 524288)
  else rangeOk x

/-- MDRAIN: it issues while the engine is frozen too, and then moves what the rows and slots hold (R185, R188). To the
scratchpad it writes through the arrival map (R234). -/
def execMdrain (d a : RegField) (code : ByteField) (s : State) : Host.Outcome State Fault Refusal :=
  withIssue s fun c =>
    let k := code.toNat % 8
    let v := bit code.toNat 3
    let ss := bit code.toNat 4
    let x := c.readS d
    let dst := if v then c.spair (sreg a) else (c.readS a).toNat
    let gap := if ss then c.core.slotGap c.g.team (bits x.toNat 18 0) (drainLen ss x)
               else c.core.rowGap c.g.team (rangeRow x) (rangeCount x)
    let o := c.engineOp k (.mdrain ss x v dst)
    let o' := if s.frozen c.g.core then (c.core.runOp o 0).2 else o
    let l : Landing := ⟨0, dst, drainLen ss x⟩
    let held := s.frozenBefore c.g.core c.frozenPlace && !s.frozen c.g.core
    c.run (check (Code.mdrain code) Cause.illegalEncoding <|>
        c.onceStop (scalarOk d && (if v then pairOk a else scalarOk a)) (drainOk ss x && dst % 16 == 0) true
          (regsOf a v) [] (regsOf d false) [])
      (c.onceDo (match gap with
        | some g => c.onceFault Cause.slotState g
        | none =>
          if held then c.parkFrozen
          else if c.g.counter k = 4095 then c.waitHere
          else if v then c.acceptOp k o' else (c.acceptOp k o').chunksOut c.g.team c.g.core l))

/-! ### Completion -/

/-- The operation that completes next: the head of engine order; while frozen, one that has been performed (R164, R188). -/
def State.completing (s : State) (core : Nat) : Option EngineOp :=
  if s.frozen core then (s.core core).engine.find? (fun o => o.ran) else (s.core core).engine.head?

/-- The pieces of a drain to the vault, each with its bytes. -/
def State.drainRuns (s : State) (o : EngineOp) (dst : Nat) : List (Nat × List Byte × Except Byte Nat) :=
  (s.run (s.teamPart o.team) dst o.out.length Need.store).map (fun r => (r.1, (o.out.drop (r.1 - dst)).take r.2.1, r.2.2))

/-- An operation that completes to the vault: a drain (R185). -/
def EngineOp.drainsVault (o : EngineOp) : Option Nat := match o.kind with
  | .mdrain _ _ true dst => some dst
  | _ => none

/-- The physical runs that a drain writes. -/
def State.drainPlaces (s : State) (o : EngineOp) (dst : Nat) : List (Nat × Nat) :=
  (s.drainRuns o dst).filterMap (fun r => match r.2.2 with
    | .ok pa => some (pa, r.2.1.length)
    | .error _ => none)

/-- A vault load that the gang made before the operation is not yet answered. -/
def State.loadsBefore (s : State) (o : EngineOp) : Bool :=
  s.vreqs.any (fun r => r.kind.loads && r.actor.gang? == some o.gang && decide (r.id < o.id))

/-- A step that completes an operation: a drain to the vault, whose writes are the gang's stores, waits until the gang's earlier
loads are answered, no lane holds a granule of it and every earlier store of its die is applied (R185, R199, R204, R208, R222). -/
def State.draining (s : State) (core : Nat) (o : EngineOp) (effect : State → State) : State := match o.drainsVault with
  | some dst => if s.loadsBefore o then s else s.writing (.engine o.gang) (dieOf core) (s.drainPlaces o dst) true effect
  | none => effect s

/-- The memory writes of a completing operation, with the faults of vault pages (R185). -/
def State.drainOut (s : State) (core : Nat) (o : EngineOp) : State × List Posted :=
  match o.kind with
  | .mdrain _ _ true dst =>
    let rs := s.drainRuns o dst
    (rs.foldl (fun s r => match r.2.2 with
        | .ok pa => (s.cache (s.teamPart o.team) r.1).writeAtOnce (.engine o.gang) (dieOf core) pa r.2.1
        | .error _ => s) s,
      match rs.findSome? (fun r => match r.2.2 with
        | .error e => some (o.fault e r.1)
        | .ok _ => none) with
      | some p => [p]
      | none => [])
  | .mdrain _ _ false dst =>
    let l : Landing := ⟨0, dst, o.out.length⟩
    (l.chunks.foldl (fun s k => s.chunkIn o.team core l k false) (s.padWriteRun o.team core dst o.out), [])
  | _ => (s, [])

/-- The operation has completed: its counter falls, and a gang that has not ended has its flags and faults (R166, R187,
R190). DESIGN CHOICE (log 75): the ACC_POISON of a drain comes before its vault fault (R185). -/
def State.completeOp (s : State) (core : Nat) (o : EngineOp) : State :=
  let (s1, fs) := s.drainOut core o
  (s1.modGang o.gang (fun g =>
    { (g.postAll (o.faults ++ fs)).putCounter o.k (g.counter o.k - 1) with
      mxf := if g.ended then g.mxf else g.mxf ||| o.flags })).sweepTokens o.gang

/-- ENGINE_OP_COMPLETE (R164, R166). -/
def execEngineOpComplete (core : Nat) (s : State) : Host.Outcome State Fault Refusal :=
  match s.completing core with
  | none => .next s
  | some o =>
    let (c1, o1) := (s.core core).runOp o o.kind.rowCount
    .next (s.draining core o1 (fun s =>
      (s.putCore core { c1 with engine := c1.engine.filter (fun x => x.id != o.id) }).completeOp core o1))

/-! ### Row operations -/

/-- Operations of the engine round to nearest even and honour subnormals (R177). -/
def matrixEnv : RndEnv := ⟨.rne, 0, false⟩

/-- The fields of a row span word. -/
def spanRow (x : Word) : Nat := bits x.toNat 9 0
def spanCol (x : Word) : Nat := bits x.toNat 22 16
def spanLen (x : Word) : Nat := bits x.toNat 30 24 + 1
/-- The row span word is legal for w columns. -/
def spanOk (x : Word) (w : Nat) : Bool :=
  bits x.toNat 15 10 == 0 && !bit x.toNat 23 && !bit x.toNat 31 && decide (spanCol x + spanLen x ≤ w)

/-- The gang with flags ORed into MXF (R187). -/
def Gang.mxOr (g : Gang) (f : Flags) : Gang := { g with mxf := g.mxf ||| BitVec.ofNat 6 f.toNat }

/-- One element rescaled (R177). -/
def rowScale (f : Fmt) (op x y : Nat) : Nat × Flags :=
  match op with
  | 0 => f.mul matrixEnv x y
  | 1 => f.add matrixEnv x y
  | _ =>
    let a := f.decode x
    let b := f.decode y
    if a.isNan || b.isNan then (f.nanBits, Flags.nvIf (a.isSnan || b.isSnan))
    else match Val.add false a b with
      | none => f.invalid
      | some v => f.exp2V matrixEnv v

/-- Row r rescaled over columns c0 to c0 + n − 1 by factor y. -/
def Core.scaleRow (k : Core) (wide : Bool) (op r c0 n y : Nat) : Core × Flags :=
  (List.range n).foldl (fun acc i =>
    let x := rowScale (if wide then Fmt.f64 else Fmt.f32) op (acc.1.colW wide r (c0 + i)) y
    (acc.1.putColW wide r (c0 + i) x.1, Flags.or acc.2 x.2)) (k, Flags.none)

/-- The lanes whose row the team holds, and the faults of the others (R159); row: the row of each lane. -/
def Ctx.heldLanes (c : Ctx) (ls : List Nat) (row : Nat → Nat) : List Nat × List LaneFault :=
  let ok := fun l => c.core.blockHolder (row l / 32) == some c.g.team
  (ls.filter ok, (ls.filter (fun l => !ok l)).map (fun l => ⟨l, Cause.slotState, rowMark (row l), false⟩))

/-- MROWSCL (R177). -/
def execMrowscl (d a : RegField) (code : ByteField) (s : State) : Host.Outcome State Fault Refusal :=
  withIssue s fun c =>
    let op := code.toNat % 4
    let w := bit code.toNat 2
    let x := c.readS d
    let row := fun l => spanRow x + l
    let (ls, fs) := c.heldLanes (c.takers.filter (fun l => decide (row l ≤ 1023))) row
    let s1 := s.flushed c.g.core
    let r := ls.foldl (fun acc l =>
        if acc.1.poisoned (row l) then acc
        else
          let y := acc.1.scaleRow w op (row l) (spanCol x) (spanLen x) (c.readA a w l)
          (y.1, Flags.or acc.2 y.2)) (s1.core c.g.core, Flags.none)
    c.run (check (Code.mrowscl code) Cause.illegalEncoding <|>
        c.onceStop (isSreg d && isVec a && c.srcOk a w) (spanOk x (if w then 64 else 128)) true (regsOf a w) []
          (regsOf d false) [])
      (c.engineDo (c.laneTrap (c.next (s1.putCore c.g.core r.1) (c.g.mxOr r.2)) fs))

/-- One reduction step of MROWRED: 0 sum, 1 max, 2 min, 3 amax (R178). -/
def rowStep (f : Fmt) (op x y : Nat) : Nat × Flags :=
  if op = 0 then f.add matrixEnv x y else f.minMax false (op != 2) false x y

/-- The identity of a reduction (R178). -/
def rowIdent (f : Fmt) (op : Nat) : Nat :=
  if op = 0 then f.signBit true else f.signBit (op != 2) + f.infBits

/-- The reduction of row r (R178). -/
def Core.reduceRow (k : Core) (wide : Bool) (op r c0 n : Nat) : Nat × Flags :=
  let f := if wide then Fmt.f64 else Fmt.f32
  let w := if wide then 64 else 128
  if k.poisoned r then (f.nanBits, Flags.none)
  else
    let xs := (List.range w).map (fun i =>
      if i < n then
        let x := k.colW wide r (c0 + i)
        if op = 3 then x % 2 ^ (f.eb + f.mb) else x
      else rowIdent f op)
    treeReduce (rowStep f op) (if wide then 6 else 7) xs Flags.none

/-- MROWRED (R178). -/
def execMrowred (d a : RegField) (code : ByteField) (s : State) : Host.Outcome State Fault Refusal :=
  withIssue s fun c =>
    let op := code.toNat % 4
    let w := bit code.toNat 2
    let x := c.readS a
    let row := fun l => spanRow x + l
    let (ls, fs) := c.heldLanes (c.takers.filter (fun l => decide (row l ≤ 1023))) row
    let s1 := s.flushed c.g.core
    let rs := ls.map (fun l => (l, (s1.core c.g.core).reduceRow w op (row l) (spanCol x) (spanLen x)))
    let ws := rs.flatMap (fun r => spread (dstElems d w r.1) r.2.1)
    c.run (check (Code.mrowred code) Cause.illegalEncoding <|>
        c.onceStop (isVreg d && c.dstOk d w && scalarOk a) (spanOk x (if w then 64 else 128)) true (regsOf a false) [] []
          (regsOf d w))
      (c.engineDo (c.laneTrap
        (c.next s1 ((c.g.mxOr (Flags.orAll (rs.map (fun r => r.2.2)))).writeNow ws)) fs))

/-! ### Moves, zeroing, loads, fills and status -/

/-- The types of MRD and MWR (R181). -/
def moveTypeOk (t : Nat) : Bool := inINT32 t || t == 10 || t == 11

/-- The row and the column of lane l (R181). -/
def Ctx.moveAt (c : Ctx) (a b : RegField) (l : Nat) : Nat × Nat :=
  let x := (c.readS a).toNat
  let y := c.readB b (isWide c.etype) l
  ((bits x 9 0 + bits y 9 0) % 1024, (bits x 22 16 + bits y 22 16) % (if isWide c.etype then 64 else 128))

/-- MRD: a frozen engine is read as it stands (R181, R188). -/
def execMrd (d a b : RegField) (s : State) : Host.Outcome State Fault Refusal :=
  withIssue s fun c =>
    let w := isWide c.etype
    let pos := c.moveAt a b
    let (ls, fs) := c.heldLanes c.takers (fun l => (pos l).1)
    let s1 := s.flushed c.g.core
    let k := s1.core c.g.core
    let held := s.frozenBefore c.g.core c.frozenPlace && !s.frozen c.g.core
    let ws := ls.flatMap (fun l => spread (dstElems d w l)
      (if k.poisoned (pos l).1 then (if w then Fmt.f64.nanBits else Fmt.f32.nanBits) else k.colW w (pos l).1 (pos l).2))
    c.run (check (moveTypeOk c.etype) Cause.illegalEncoding <|>
        c.onceStop (isVreg d && c.dstOk d w && scalarOk a && c.srcOk b w) true true (regsOf a false) (regsOf b w)
          [] (regsOf d w))
      (if held then c.parkFrozen else c.laneTrap (c.next s1 (c.g.writeNow ws)) fs)

/-- MWR: the highest-numbered lane's value stands, and a poisoned row is not written (R181, R189). -/
def execMwr (d a b : RegField) (s : State) : Host.Outcome State Fault Refusal :=
  withIssue s fun c =>
    let w := isWide c.etype
    let pos := c.moveAt a b
    let (ls, fs) := c.heldLanes c.takers (fun l => (pos l).1)
    let s1 := s.flushed c.g.core
    let k := ls.foldl (fun k l =>
      if k.poisoned (pos l).1 then k else k.putColW w (pos l).1 (pos l).2 (c.readD d w l)) (s1.core c.g.core)
    c.run (check (moveTypeOk c.etype) Cause.illegalEncoding <|>
        c.onceStop (isVec d && c.srcOk d w && scalarOk a && c.srcOk b w) true true (regsOf a false) (regsOf b w)
          (regsOf d w) [])
      (c.engineDo (c.laneTrap (c.next (s1.putCore c.g.core k) c.g) fs))

/-- MZERO (R182). -/
def execMzero (a : RegField) (s : State) : Host.Outcome State Fault Refusal :=
  withIssue s fun c =>
    let x := c.readS a
    c.run (c.onceStop (scalarOk a) (rangeOk x) true (regsOf a false) [] [] [])
      (c.onceDo (c.engineOnce (c.core.rowGap c.g.team (rangeRow x) (rangeCount x))
        (c.next ((s.flushed c.g.core).modCore c.g.core (fun k =>
          (List.range (rangeCount x)).foldl (fun k i => k.zeroRow (rangeRow x + i)) k)) c.g)))

/-- MLOAD (R165, R183). -/
def execMload (d a b : RegField) (s : State) : Host.Outcome State Fault Refusal :=
  withIssue s fun c =>
    let at_ := (c.readS d).toNat
    let off := (c.readS a).toNat
    let n := (c.readS b).toNat
    c.run (c.onceStop (scalarOk d && scalarOk a && scalarOk b)
        (decide (at_ < 2 ^ 19) && at_ % 16 == 0 && off % 16 == 0 && n % 16 == 0 && decide (16 ≤ n) &&
          decide (n ≤ 262144) && decide (at_ + n ≤ 524288)) true
        (regsOf a false) (regsOf b false) (regsOf d false) [] <|> (if c.once then c.ownPadFirst else none))
      (c.onceDo (c.engineOnce (c.core.slotGap c.g.team at_ n)
        (c.next ((s.flushed c.g.core).modCore c.g.core (fun k =>
          { k with slots := Memory.writeBytes k.slots at_ (s.padReadRun c.g.team c.g.core off n) })) c.g)))

/-- Rows from row0 filled from bytes, their poison cleared (R184). -/
def Core.fillRows (k : Core) (row0 n : Nat) (bs : List Byte) : Core :=
  (List.range n).foldl (fun k i => k.putRow (row0 + i) ((bs.drop (512 * i)).take 512)) k

/-- MFILL: a vault source is read after every earlier store and load of the gang, and what its slices have applied is merged
(R165, R184, R196, R204). -/
def execMfill (d a b : RegField) (s : State) : Host.Outcome State Fault Refusal :=
  withIssue s fun c =>
    let x := c.readS d
    let sp := (c.readS b).toNat
    let v := sp % 2 == 1
    let src := if v then c.spair (sreg a) else (c.readS a).toNat
    let n := 512 * rangeCount x
    let runs := s.run c.part src n Need.load
    let bytes := if v then runs.flatMap (fun r => match r.2.2 with
        | .ok pa => Memory.readBytes s.vault pa r.2.1
        | .error _ => []) else s.padReadRun c.g.team c.g.core src n
    let bad := if v then runs.findSome? (fun r => match r.2.2 with
        | .error e => some (e, r.1, false)
        | .ok pa => (s.badIn pa r.2.1).head?.map (fun w => (Cause.permission, max r.1 (r.1 + 8 * w - pa), true))) else none
    let s1 := if v then (runs.foldl (fun s r => s.cache c.part r.1) s).mergeRuns c.agent (okRuns runs) else s
    c.run (c.onceStop (scalarOk d && scalarOk a && scalarOk b)
        (sp / 2 == 0 && (!v || pairOk a) && rangeOk x && src % 16 == 0) true
        (regsOf a v) (regsOf b false) (regsOf d false) [] <|>
        (if !c.once then none else if !v then c.ownPadFirst else c.sourceFirst))
      (c.onceDo (c.engineOnce (c.core.rowGap c.g.team (rangeRow x) (rangeCount x))
        (match bad with
        | some (e, va, ecc) => c.onceFault e va ecc
        | none => c.next ((s1.flushed c.g.core).modCore c.g.core (fun k => k.fillRows (rangeRow x) (rangeCount x) bytes)) c.g)))

/-- Flags of the gang's performed operations that have not yet reached MXF (R186, R187). -/
def Core.flagsOf (k : Core) (gang : Nat) : BitVec 6 :=
  (k.engine.filter (fun o => o.gang == gang && o.ran)).foldl (fun acc o => acc ||| o.flags) 0
/-- Those flags taken. -/
def Core.takeFlags (k : Core) (gang : Nat) : Core :=
  { k with engine := k.engine.map (fun o => if o.gang == gang && o.ran then { o with flags := 0 } else o) }

/-- MSTAT: a frozen engine is read as it stands (R186, R188). DESIGN CHOICE (log 75): a reserved bit of s[a] that is set traps
ILLEGAL_OPERAND. -/
def execMstat (d a : RegField) (s : State) : Host.Outcome State Fault Refusal :=
  withIssue s fun c =>
    let x := (c.readS a).toNat
    let sel := x % 16
    let s1 := s.flushed c.g.core
    let k := s1.core c.g.core
    let held := s.frozenBefore c.g.core c.frozenPlace && !s.frozen c.g.core
    let j := bits x 12 8
    let v : Word := match sel with
      | 0 => BitVec.ofNat 32 ((c.g.mxf ||| k.flagsOf c.id).toNat + 64 * (s.frozen c.g.core).toNat)
      | 1 => k.heldSlots c.g.team (BitVec.allOnes 32)
      | 2 => k.heldBlocks c.g.team (BitVec.allOnes 32)
      | 3 => if k.blockHolder j = some c.g.team then maskOf 32 (fun i => k.poisoned (32 * j + i)) else 0
      | _ => maskOf 32 (fun n => k.slotHolder n == none)
    let g := if sel = 0 then { c.g with mxf := 0 } else c.g
    let s2 := if sel = 0 then s1.putCore c.g.core (k.takeFlags c.id) else s1
    c.run (c.onceStop (scalarDst d && scalarOk a) (bits x 7 4 == 0 && x / 2 ^ 13 == 0 && decide (sel ≤ 4)) true
        (regsOf a false) [] [] (regsOf d false))
      (c.onceDo (if held then c.parkFrozen else c.next s2 (g.writeNow [(.s (sreg d), v)])))

end Sys2Proof.Machine
end

