-- ==== Sys2Proof/Machine/Recovery.lean ====
section
/-! DEFINITION. ACRRD, ACRWR, TSAVE, TLOAD, HALT, CTXSV and TLBINV, and the steps of recovery: illegal words, fetch
faults, turns, deadlines, late traps, the end of a halt, and soft errors (R29, R54, R107-R109, R316, R332, R392,
R409-R430, R478). -/

namespace Sys2Proof.Machine

/-! ### ACR -/

/-- ACRRD (R108): flags are written as their instruction executes, so nothing is waited for (R107). -/
def execAcrrd (d : RegField) (s : State) : Host.Outcome State Fault Refusal :=
  withIssue s fun c =>
    c.run (c.onceStop (scalarDst d) true true [] [] [] (regsOf d false)) (c.scalarResult d c.g.acr)

/-- ACRWR (R109). -/
def execAcrwr (a : RegField) (s : State) : Host.Outcome State Fault Refusal :=
  withIssue s fun c =>
    c.run (c.onceStop (scalarOk a) true true (regsOf a false) [] [] [])
      (c.onceDo (c.next s { c.g with acr := Acr.writable (c.readS a) }))

/-! ### TSAVE and TLOAD -/

/-- The checks of TSAVE and TLOAD (R418). -/
def Ctx.blockStop (c : Ctx) (a : RegField) : Option Stop :=
  check c.g.inh Cause.illegalEncoding <|>
  c.onceStop (blockOk a 54) (c.spair (sreg a) % 64 == 0) true (regsOf a true) [] [] []

/-- The team linear ID. -/
def Ctx.tid (c : Ctx) : Nat := match c.team with
  | some t => t.tid
  | none => 0

/-- The pieces of the block's 128 bytes, or the fault of the access. -/
def Ctx.blockRuns (c : Ctx) (a : RegField) (need : Need) : Except (Byte × Nat × Bool) (List (Nat × Nat)) :=
  c.s.runs c.part (c.spair (sreg a)) 128 need

/-- Bytes put on their way to the vault over physical runs, one store each. -/
def State.pushRuns (actor : Actor) (agent : Nat) : List (Nat × Nat) → List Byte → State → State
  | [], _, s => s
  | (pa, n) :: rs, bs, s => State.pushRuns actor agent rs (bs.drop n) (s.pushStore actor agent pa (bs.take n) [])

/-- TSAVE (R418): a fault is CONTEXT_FATAL (R414). -/
def execTsave (a : RegField) (s : State) : Host.Outcome State Fault Refusal :=
  withIssue s fun c =>
    c.run (c.blockStop a <|> (if c.once then c.loadsFirst else none))
      (c.onceDo (match c.blockRuns a Need.store with
        | .error e => s.contextFatal c.id e.1 c.pc
        | .ok rs => c.bounded rs.length (State.pushRuns (.engine c.id) c.agent rs (c.g.snapshot.bytes c.g.index c.tid) c.skip)))

/-- TLOAD (R204, R418): it reads after every earlier store and load of the gang, and a block that fails a check sets BADBLK alone. -/
def execTload (a : RegField) (s : State) : Host.Outcome State Fault Refusal :=
  withIssue s fun c =>
    c.run (c.blockStop a <|> (if c.once then c.sourceFirst else none))
      (c.onceDo (match c.blockRuns a Need.load with
        | .error e => s.contextFatal c.id e.1 c.pc
        | .ok rs => match Block.ofBytes (s.readRuns rs) c.g.index c.tid c.g.live with
          | some b => c.next (s.mergeRuns c.agent rs)
              { c.g with block := some (c.g.blockBack b), trap := { c.g.trap with loaded := true } }
          | none => c.next (s.mergeRuns c.agent rs) { c.g with trap := { c.g.trap with badblk := true } }))

/-! ### HALT, TLBINV and CTXSV -/

/-- HALT: the partition's halt line rises (R392, R420). -/
def execHalt (s : State) : Host.Outcome State Fault Refusal :=
  withIssue s fun c =>
    c.run (c.onceStop true true c.privileged [] [] [] []) (c.onceDo (c.skip.raiseHalt c.part false none))

/-- Cached translations of a partition dropped: all of them, or those of the page that holds an address (R392, R396). -/
def State.dropPages (s : State) (part : Nat) (va : Option Nat) : State :=
  { s with tlb := s.tlb.filter (fun p => !(p.part == part && match va with
    | none => true
    | some x => p.va == x / p.size * p.size)) }

/-- TLBINV (R392). -/
def execTlbinv (a : RegField) (s : State) : Host.Outcome State Fault Refusal :=
  withIssue s fun c =>
    let lo := (c.sval (sreg a)).toNat
    let hi := (c.sval (sreg a + 1)).toNat
    let va := bits lo 31 16 * 65536 + bits hi 23 0 * 2 ^ 32
    c.run (c.onceStop (blockOk a 54) (bits hi 31 24 == 0) c.privileged (sregs (sreg a) 2) [] [] [])
      (c.onceDo (c.skip.dropPages c.part (if bit lo 0 then none else some va)))

/-- CTXSV (R428): with REQ 1 a team that is no victim becomes one. -/
def execCtxsv (a : RegField) (s : State) : Host.Outcome State Fault Refusal :=
  withIssue s fun c =>
    let x := (c.readS a).toNat
    let victim : Bool := match c.team with
      | some t => t.victim
      | none => false
    c.run (c.onceStop (scalarOk a) (decide (x ≤ 1)) true (regsOf a false) [] [] [])
      (c.onceDo
        (if x == 0 && !victim then c.skip
         else ((c.park .ctxsv).modGang c.id (fun g => { g with ctxsv := true })).modTeam c.g.team (fun t =>
           { t with victim := true })))

/-! ### Words that do not execute -/

/-- ILLEGAL_OPCODE (R54). -/
def execIllegalOpcode (_w : BitVec 32) (s : State) : Host.Outcome State Fault Refusal :=
  withIssue s fun c => c.run none (c.raise Cause.illegalOpcode)

/-- FETCH_FAULT (R478): one record, that of the group's lowest-numbered lane that has not exited. -/
def execFetchFault (s : State) : Host.Outcome State Fault Refusal :=
  withIssue s fun c =>
    match s.fetchWord c.part c.pc with
    | .ok _ => .next s
    | .error e =>
      let lane := (c.lanes.find? (fun l => !c.g.exited.getLsbD l)).getD c.g.lowestLive
      .next (s.takeTrap c.id { c.trapInfo e 0 c.pc with records := [LaneFault.record ⟨lane, e, c.pc.toNat, false⟩] })

/-! ### Turns, deadlines and late traps -/

/-- GROUP_TURN_SWITCH (R29): a group that has issued for 32 cycles gives its turn to the next. -/
def execGroupTurnSwitch (core slot : Nat) (s : State) : Host.Outcome State Fault Refusal :=
  match (s.gangsOn core).find? (fun e => e.2.slot == slot && s.resident e.2) with
  | none => .next s
  | some (id, g) => whenever (decide (32 ≤ g.turnIssues)) s (s.putGang id g.passTurn)

/-- REGANG_DEADLOCK (R316): precise at the REGANG of the group that holds the lowest live slice, whose arrival is undone. -/
def execRegangDeadlock (gang : Nat) (s : State) : Host.Outcome State Fault Refusal :=
  match s.gang? gang with
  | none => .next s
  | some g => match g.groups.find? (fun x => x.slices.getLsbD (lowestSlice g.live)) with
    | none => .next s
    | some x => whenever (g.deadlocked && s.resident g && !(s.part (s.teamPart g.team)).halted) s
        ((s.putGang gang (g.modGroup x.slices (fun y => { y with park := none }))).takeTrap gang
          { g.followInfo x.slices x.pc x.pc with cause := Cause.regangDeadlock, defer := false })

/-- DEADLINE_EXPIRY (R332): the edge latches and the deadline disarms. -/
def execDeadlineExpiry (gang : Nat) (s : State) : Host.Outcome State Fault Refusal :=
  match s.gang? gang with
  | none => .next s
  | some g => whenever (g.deadline != 0 && s.resident g) s (s.putGang gang ({ g with deadline := 0 }.latch 18))

/-- A trap that waits for the gang: none of its groups may have begun anything since. -/
def Gang.trapDue (g : Gang) : Option PendTrap := g.pendTraps.find? (fun p => p.handler == g.inh)

/-- TRAP_ENTRY (R315, R412): a trap that fell on a gang outside an instruction of its own is taken. -/
def execTrapEntry (gang : Nat) (s : State) : Host.Outcome State Fault Refusal :=
  match s.gang? gang with
  | none => .next s
  | some g => match g.trapDue with
    | none => .next s
    | some p =>
      let m := p.slices &&& g.live
      let g1 := { g with pendTraps := g.pendTraps.erase p }
      whenever (s.teamRuns g.team) s
        (if (g.group? m).isNone then s.putGang gang g1
         else (s.putGang gang g1).takeTrap gang { g.followInfo m p.tpc p.opc with cause := p.cause, defer := false })

/-! ### The end of a halt (R423) -/

/-- The freeze of a partition's cores has ended (R188). -/
def State.unfreezeAll (s : State) (part : Nat) : State := (s.part part).coreList.foldl State.unfreeze s

/-- The requests held unsent by a halt are sent (R423). -/
def State.sendHeld (s : State) (part : Nat) : State :=
  (listed s.reqs).foldl (fun acc e =>
    if acc.teamPart e.2.team == part && e.2.held then acc.putReq e.1 { e.2 with held := false } else acc) s

/-- RESUME: the line falls, and what it stopped goes on (R423); not while FATAL, nor while a die is too hot (R475). -/
def State.resume (s : State) (part : Nat) : State :=
  let p := s.part part
  if p.halted && !p.fatal && !s.house.cooling then ((s.putPart part { p with halted := false }).sendHeld part).unfreezeAll part
  else s

/-- HCTL_RESUME (R423). -/
def execHctlResume (part : Nat) (s : State) : Host.Outcome State Fault Refusal := whenReady s (s.resume part)

/-- A request that a discard ends: held unsent, stopped at a unit of a module's engine, a walk, a queued QSEND, a collective
or a receive that has not ended. What has been sent goes on (R423). -/
def State.discards (s : State) (part : Nat) (id : Nat) (r : FarReq) : Bool :=
  !r.sent && r.kind.isFar || r.held || match r.kind with
    | .coll _ => !r.performed
    | .qsend peer _ => !s.qSent part peer id
    | .mcrecv _ _ none => true
    | .walk | .mcast _ _ _ _ _ => true
    | k => k.paused && !r.left.isEmpty

/-- The gangs of a discarded team, without counters (R423). -/
def Gang.discarded (g : Gang) : Gang := { g with k := [], tokens := [] }

/-- Every team of a partition is stopped and releases what it holds (R423). -/
def State.discardTeams (s : State) (part : Nat) : State :=
  (listed s.teams).foldl (fun acc e =>
    if e.2.part == part && (e.2.status == .running || e.2.status == .saved) then
      (acc.endAll e.1 e.2).modTeamGangs e.1 Gang.discarded
    else acc) s

/-- Every launch of a partition completes with STOPPED (R423). -/
def State.discardLaunches (s : State) (part : Nat) : State :=
  (s.partLaunches part).foldl (fun acc e => match acc.launch? e.1 with
    | some l => acc.completeLaunch e.1 { l with stopped := true }
    | none => acc) s

/-- A message owed to a peer belongs to a collective that waits here (R286). -/
def State.ofWaiting (s : State) (part : Nat) (e : Nat × NetMsg) : Bool := match e.2 with
  | .coll m => m.part == (s.domain part e.1).getD 0 &&
      (s.part part).comms.any (fun c => c.2.waiting.any (fun w => { m with part := w.msg.part } == w.msg))
  | _ => false

/-- The work that a halt stopped ends (R423): held requests, walks and queued sends are dropped, frozen operations are
discarded, and its collectives never complete: what they still owe to other members is not sent. -/
def State.discardWork (s : State) (part : Nat) : State :=
  let s1 := (listed s.reqs).foldl (fun acc e =>
    if acc.teamPart e.2.team != part then acc
    else if acc.discards part e.1 e.2 then acc.dropReq e.1
    else acc.putReq e.1 { e.2 with tag := noTag }) { s with netq := s.netq.filter (fun e => !s.ofWaiting part e) }
  let s2 := s1.modPart part (fun p => { p with sendq := [], comms := p.comms.map (fun c => (c.1, { c.2 with waiting := [] })) })
  (s2.part part).coreList.foldl (fun acc n => acc.modCore n (fun k => { k with engine := [], heldMma := [], tags := [] })) s2

/-- DISCARD (R423): every launch completes STOPPED, what its teams hold is released, and the line falls. -/
def State.discard (s : State) (part : Nat) : State :=
  if (s.part part).halted then
    ((((s.discardWork part).discardTeams part).discardLaunches part).modPart part (fun p => { p with halted := false })).reapTeams
  else s

/-- HCTL_DISCARD (R423). -/
def execHctlDiscard (part : Nat) (s : State) : Host.Outcome State Fault Refusal := whenReady s (s.discard part)

/-! ### Soft errors -/

/-- SINGLE_BIT_ERROR: corrected and counted (R429). -/
def execSingleBitError (part : Nat) (s : State) : Host.Outcome State Fault Refusal :=
  .next (s.modPart part (fun p => { p with sece := (p.sece + 1) % 2 ^ 32 }))

/-- SCRUB: nothing visible (R429). -/
def execScrub (s : State) : Host.Outcome State Fault Refusal := .next s

/-- The gang in a slot of a core. -/
def State.gangAt (s : State) (core slot : Nat) : Option (Nat × Gang) :=
  (s.gangsOn core).find? (fun e => e.2.slot == slot && s.resident e.2)

/-- CONTEXT_FATAL against the gang in a slot; without one, an engine of the core has read the word. -/
def State.fatalAt (s : State) (core slot : Nat) : State :=
  match s.gangAt core slot with
  | some (id, g) => s.contextFatal id Cause.contextFatal (match g.groups with
      | x :: _ => x.pc
      | [] => 0)
  | none => s.raiseHalt (s.partOfCore core) true none

/-- A request of a lane that finds an error in its word: a read, an atomic, a write of a part of a word (R430). -/
def VaultReq.readsWord (r : VaultReq) : Bool := r.kind.loads || (r.kind.writes && !(r.pa % 8 == 0 && r.size % 8 == 0))

/-- The trap of lanes whose words of batch n hold an error, due for the group that holds them: once the other lanes have their
answers, and at once if the group is parked at a REGANG or a RATOM, whose waits outlast a trap (R410, R430). -/
def State.faultsFound (s : State) (id : Nat) (x : Group) (n : Nat) (opc : VAddr) (rs : List (Nat × LaneRecord)) : State :=
  let old := match x.park with
    | some (.faulting k _ ys) => if k = n then ys else []
    | _ => []
  let all := (old ++ rs).sortedBy (fun a b => decide (a.1 ≤ b.1))
  let waits := s.vreqs.any (fun r => r.batch == n && r.kind.loads) && match x.park with
    | some (.regang _) => false
    | some (.ratom _) => false
    | some (.faulting k _ _) => k == n
    | _ => true
  if waits then ({ s with next := s.next + 1 } : State).modGang id (fun g =>
    (g.givesTurn x.slices).modGroup x.slices (fun y => { y with park := some (.faulting n opc all), since := s.next }))
  else s.faultsDue id x.slices x.pc opc all

/-- Requests leave the list unperformed: their lanes' registers are not written, and a write takes its place in the applied vector
all the same. -/
def State.suppress (s : State) (id : Nat) (hit : List VaultReq) : State :=
  (hit.foldl (fun acc r => if r.kind.writes then acc.touchAt r.pa r.stamp else acc)
    ({ s with vreqs := s.vreqs.filter (fun r => !hit.contains r) } : State)).modGang id (fun g =>
      { g with awaits := g.awaits.filter (fun a => !(hit.any (fun r => a.kind == AwaitKind.vault r.id))) })

/-- A vault word that lanes of a gang read, or write a part of, in request q, cannot be corrected: PERMISSION with ECC, and what the
instruction does in these lanes is suppressed (R430). The trap is that of the instruction, after which its group may have executed
other words: it goes on where it stands (log 45). -/
def State.eccFound (s : State) (id : Nat) (q : VaultReq) (ls : List Nat) (addr : Nat) : State :=
  let hit := s.vreqs.filter (fun r => r.batch == q.batch && ls.any (fun l => r.actor == Actor.lane id l))
  let rs := ls.map (fun l =>
    (l, ({ addr := BitVec.ofNat 64 addr, cause := Cause.permission, flags := 5, more := 0, detail := 0 } : LaneRecord)))
  let s1 := s.suppress id hit
  match (s1.gang? id).bind (fun g => g.groups.find? (fun x => ls.any (fun l => x.slices.getLsbD (sliceOf l)))) with
  | none => s1
  | some x => s1.faultsFound id x q.batch q.opc rs

/-- The first request of these lanes whose word holds an error that the environment names (log 45). -/
def State.eccLanes (s : State) (core slot : Nat) (lanes : LaneMask) (addr : Nat) : State :=
  match s.gangAt core slot with
  | none => s
  | some (id, _) =>
    let mine := fun (r : VaultReq) => r.readsWord && match r.actor with
      | .lane i l => i == id && lanes.getLsbD l
      | _ => false
    match s.vreqs.find? mine with
    | none => s
    | some q => s.eccFound id q (allLanes.filter (fun l => s.vreqs.any (fun r => mine r && r.batch == q.batch &&
        r.actor == Actor.lane id l))) addr

/-- A word that request r reads, or writes a part of, holds an error (R430). -/
def State.findsError (s : State) (r : VaultReq) : Bool :=
  r.readsWord && s.badWords.any (fun w => decide (8 * w < r.pa + r.size) && decide (r.pa < 8 * w + 8))

/-- A request performed at its slice: that of a lane fails if its word cannot be corrected (R430). -/
def State.performReq (s : State) (r : VaultReq) : State := match r.actor, s.findsError r with
  | .lane id l, true => s.eccFound id r [l] r.va
  | _, _ => if r.kind.writes then s.performWrite r else s.performRead r

/-- The effect of Table 17.10. -/
def State.uncorrectable (s : State) : ErrorPlace → State
  | .register core slot => s.fatalAt core slot
  | .scratchpad core slot => s.fatalAt core slot
  | .vaultLane core slot lanes addr => s.eccLanes core slot lanes addr
  | .vaultRequest req addr => match s.req? req with
    | some r => (s.putReq req { r with fails := r.fails ++ [(localKey 0, ⟨Cause.permission, addr, true, 0⟩)] }).postFail req
    | none => s
  | .accRow core row => s.modCore core (fun k => k.putPoison row true)
  | .operandA core row => s.modCore core (fun k => k.poisonOutput (some row))
  | .operandB core => ({ s with free := s.free + 1 } : State).modCore core (fun k =>
      k.poisonRest (s.frozen core) (Config.freeFreezeRows s.free))
  | .tagEntry core entry => s.modCore core (fun k => k.putTagEntry entry TagEntry.reset)
  | .vaultWord pa => { s with badWords := (s.badWords.filter (fun w => w != pa / 8)) ++ [pa / 8] }
  | .image part team => match s.team? team with
    | some t =>
      if t.part == part then match t.image with
        | some base => { s with badWords := s.badWords ++ [base / 8] }
        | none => s
      else s
    | none => s
  | .stopArea part => s.raiseHalt part true none

/-- UNCORRECTABLE_ERROR (R430). -/
def execUncorrectableError (part : Nat) (place : ErrorPlace) (s : State) : Host.Outcome State Fault Refusal :=
  .next ((s.modPart part (fun p => { p with seue := (p.seue + 1) % 2 ^ 32 })).uncorrectable place)

/-! ### The vault's own steps -/

/-- VAULT_WRITE_APPLY (R204, R430). -/
def execVaultWriteApply (n : Nat) (s : State) : Host.Outcome State Fault Refusal :=
  match s.vreqs.find? (fun r => r.id == n) with
  | none => .next s
  | some r => whenever (r.kind.writes && s.reqReady r) s (s.performReq r)

/-- VAULT_READ_REPLY (R204, R430). -/
def execVaultReadReply (n : Nat) (s : State) : Host.Outcome State Fault Refusal :=
  match s.vreqs.find? (fun r => r.id == n) with
  | none => .next s
  | some r => whenever (!r.kind.writes && r.kind.loads && s.reqReady r) s (s.performReq r)

/-- LR_HOLD_EXPIRY (R222): a hold that has been in force for its 256 cycles ends. -/
def execLrHoldExpiry (n : Nat) (s : State) : Host.Outcome State Fault Refusal :=
  .next { s with holds := s.holds.filter (fun h => h.id != n || s.inForce h) }

end Sys2Proof.Machine
end

