-- ==== Sys2Proof/Machine/Isolation.lean ====
section
/-! DEFINITION. Assignment of resources (R386), shootdown (R397, R399), the fault queue (R404), attestation (R405-R407),
windows (R398) and the host's vault window (R402). -/

namespace Sys2Proof.Machine

/-! ### Resources (R386) -/

/-- The partition holds no launch that has been read and has not completed. -/
def State.noLaunch (s : State) (part : Nat) : Bool := (s.partLaunches part).isEmpty

/-- Ranges of pages a to a + n - 1 and b to b + m - 1 meet. -/
def rangesMeet (a n b m : Nat) : Bool := decide (a < b + m) && decide (b < a + n) && n != 0 && m != 0

/-- Another partition holds some of these resources. -/
def State.conflicts (s : State) (part : Nat) (q : Partition) : Bool :=
  (List.range 16).any (fun n => n != part &&
    ((s.part n).clusters &&& q.clusters != 0 || rangesMeet (s.part n).vbase (s.part n).vsize q.vbase q.vsize))

/-- A write of VBASE, VSIZE, CLLO or CLHI by the physical function. DESIGN CHOICE (log 64): a VSIZE above 8,192 is written as
8,192, and a range that runs past page 8,191 is accepted as any other. -/
def State.assignPart (s : State) (part addr : Nat) (v : Word) : State :=
  let p := s.part part
  let q := match addr with
    | 0x1003 => { p with vbase := bits v.toNat 12 0 }
    | 0x1004 => { p with vsize := min 8192 (bits v.toNat 13 0) }
    | 0x1005 => { p with clusters := p.clusters.extractLsb' 32 8 ++ v }
    | 0x1006 => { p with clusters := v.extractLsb' 0 8 ++ p.clusters.extractLsb' 0 32 }
    | _ => p
  if s.noLaunch part && !s.conflicts part q then s.putPart part q else s

/-- The write of OWNER and OWNV that PAIR f takes from the physical function: one that gives a free pair to a partition, or
frees it, while that partition holds no launch; or one that leaves the pair where it is. A pair that another partition holds
must first be freed. -/
def State.ownerOk (s : State) (f : Nat) (v : Word) : Bool :=
  let new := if bit v.toNat 4 then some (bits v.toNat 3 0) else none
  match (s.pair f).owner?, new with
  | none, none => true
  | none, some n => s.noLaunch n
  | some n, none => s.noLaunch n
  | some n, some m => n == m

/-- A write of PAIR f (Table 18.7): OWNER and OWNV by the physical function alone. It clears no bit that a word of the same cycle
has set (R6). -/
def State.writePair (s : State) (pf : Bool) (f : Nat) (v : Word) : State :=
  let n := v.toNat
  if pf && !s.ownerOk f v then s
  else
    let p := s.pair f
    let p1 := if pf then { p with owner := bits n 3 0, ownv := bit n 4 } else p
    let p2 := { p1 with ref := p1.ref && (!bit n 7 || s.risen.contains (.pairRef f)),
                        evt := p1.evt && (!bit n 10 || s.risen.contains (.pairEvt f)) }
    (s.putPair f p2).writeFabreq f (bit n 5)

/-- PARTITION_RESOURCE_WRITE (R386): cores, vault range, pairs. -/
def execPartitionResourceWrite (part addr : Nat) (v : Word) (s : State) : Host.Outcome State Fault Refusal :=
  whenReady s (if 0x4040 ≤ addr ∧ addr < 0x4080 then s.writePair true (addr - 0x4040) v else s.assignPart part addr v)

/-! ### Shootdown (R397, R399) -/

/-- GO written: SEQ takes the number and every cached translation of the partition is dropped (R397, steps 1 and 2);
while one runs, only NSEQ is written. -/
def State.shoot (s : State) (part : Nat) (nseq : BitVec 16) (go : Bool) : State :=
  let s1 := s.modPart part (fun p => { p with nseq := nseq })
  if go && !(s.part part).shootBusy then
    (s1.modPart part (fun p => { p with seq := nseq, shootBusy := true, shootAt := s.next })).dropPages part none
  else s1

/-- SHOOTDOWN (R397). -/
def execShootdown (part : Nat) (nseq : BitVec 16) (s : State) : Host.Outcome State Fault Refusal :=
  whenReady s (s.shoot part nseq true)

/-- The vault accesses of the partition that used a dropped translation are performed, those of its send queues and of its
collectives too, and its far requests have sent their pages (R397, step 3). -/
def State.shootDone (s : State) (part : Nat) : Bool :=
  let p := s.part part
  p.shootBusy && s.vreqs.all (fun r => decide (p.shootAt ≤ r.id) || !p.owns r.pa 1) &&
  s.iodq.all (fun x => !p.owns x.pa 1) &&
  p.sendq.all (fun q => q.2.all (fun d => decide (p.shootAt ≤ d.req))) &&
  p.comms.all (fun c => c.2.waiting.all (fun w => decide (p.shootAt ≤ w.req))) &&
  (listed s.reqs).all (fun r => decide (p.shootAt ≤ r.1) || s.teamPart r.2.team != part || !r.2.held)

/-- SHOOTDOWN_COMPLETE (R397, steps 4 and 5). -/
def execShootdownComplete (part : Nat) (s : State) : Host.Outcome State Fault Refusal :=
  let p := s.part part
  whenever (s.shootDone part) s
    (((s.putPart part { p with shootBusy := false }).emit (.flushedTo part p.seq)).emit (.msix part p.shvec.toNat))

/-- FLUSHED at a module: FLUSHREQ clears in the sender's entries whose MINSEQ it reaches (R399). -/
def execFlushed (modid pkg part : Nat) (seq : BitVec 16) (s : State) : Host.Outcome State Fault Refusal :=
  .next (s.modModule modid (fun m => { m with windows := m.windows.map (fun w =>
    if w.pkg = pkg ∧ w.part = part ∧ atLeast seq w.minSeq then { w with flushReq := false } else w) }))

/-- WINDOW_TABLE_LOAD (R398, R399). -/
def execWindowTableLoad (modid : Nat) (ws : List Window) (s : State) : Host.Outcome State Fault Refusal :=
  .next (s.modModule modid (fun m => { m with windows := ws }))

/-! ### The fault queue (R404) -/

/-- The groups of a partition parked on an entry of the fault queue. -/
def State.faultWaiters (s : State) (part index : Nat) : List (Nat × Group) :=
  (listed s.gangs).flatMap (fun e =>
    if s.teamPart e.2.team == part && s.resident e.2 then
      (e.2.groups.filter (fun x => x.park == some (.faultq index))).map (fun x => (e.1, x))
    else [])

/-- FQACK written: the group presents its instruction afresh, or as in the hardware mode (R404, step 4). -/
def State.faultAck (s : State) (part : Nat) (v : Word) : State :=
  (s.faultWaiters part (bits v.toNat 15 0)).foldl (fun acc e =>
    acc.modGang e.1 (fun g => g.modGroup e.2.slices (fun x => { x with park := none, deliver := bit v.toNat 16 }))) s

/-- FAULT_QUEUE_ACK (R404). -/
def execFaultQueueAck (part : Nat) (v : Word) (s : State) : Host.Outcome State Fault Refusal :=
  whenReady s (s.faultAck part v)

/-! ### Attestation (R406, R407) -/

/-- A nonce of 32 bytes, which nothing has seen before. -/
def freshNonce (n : Nat) : List Byte := (List.range 32).map (fun i => Config.freeNonce (32 * n + i))

/-- MGO written: the selected module's trust is pending, and its controller is sent a nonce (R407). -/
def State.attestModule (s : State) (part : Nat) : State :=
  let p := s.part part
  let n := freshNonce s.free
  ({ s.putPart part { p with trust := Tbl.set 0 p.trust p.modid 1, nonces := Tbl.set [] p.nonces p.modid n } with
      free := s.free + 1 }).emit (.attest p.modid part n)

/-- MODULE_ATTEST (R407). -/
def execModuleAttest (part : Nat) (s : State) : Host.Outcome State Fault Refusal :=
  whenReady s (s.attestModule part)

/-- MODULE_CONTROLLER_RESTART: its trust returns to 0 (R407). -/
def execModuleControllerRestart (modid : Nat) (s : State) : Host.Outcome State Fault Refusal :=
  .next ((List.range 16).foldl (fun acc n => acc.modPart n (fun p => { p with trust := Tbl.set 0 p.trust modid 0 })) s)

/-- The report buffer of a partition (R406). -/
def Partition.reportBuffer (p : Partition) : Nat := p.attaddr * 16

/-- AGO written (R406): a buffer outside the allocation sets AERR; else the report is owed. -/
def State.askReport (s : State) (part : Nat) : State :=
  let p := s.part part
  if p.abusy then s
  else if p.owns p.reportBuffer 3904 then
    { s.putPart part { p with abusy := true, aerr := false } with attests := s.attests ++ [part] }
  else s.putPart part { p with aerr := true }

/-- ATTEST_REPORT_REQUEST (R406). -/
def execAttestReportRequest (part : Nat) (s : State) : Host.Outcome State Fault Refusal :=
  whenReady s (s.askReport part)

/-- VERS (Table 16.3, R408). -/
def versWord : Nat := 0x1121

/-- Bytes 1 to 567 of a report of KIND 0, but for the nonce: version, PART and PKGNO (log 43), the measurements, VERS. -/
def State.reportBytes (s : State) (part : Nat) (head : List Byte) : List Byte :=
  let front := head.take 1 ++ [1, BitVec.ofNat 8 part] ++ leBytes 2 s.pkg ++ [0, 0, 0] ++ (head.drop 8).take 32
  front ++ (List.range 8).flatMap (fun n => s.meas? n) ++ leBytes 4 versWord ++ List.replicate 12 0

/-- What the controller writes: offset in the buffer, and bytes (R406). -/
def State.report (s : State) (part : Nat) (head : List Byte) : Nat × List Byte :=
  if head.getD 0 0 == 1 then (568, (List.range 1952).map Config.publicKey)
  else
    let m := s.reportBytes part head
    (0, m ++ padTo 3309 (Config.sign m))

/-- ATTEST_REPORT_WRITTEN (R406): requests are served in order; the IOD agent writes. A buffer that is outside the allocation
by now sets AERR, and nothing is written (log 63). -/
def execAttestReportWritten (part : Nat) (s : State) : Host.Outcome State Fault Refusal :=
  let p := s.part part
  let a := p.reportBuffer
  let r := s.report part (Memory.readBytes s.vault a 40)
  let s1 := { s with attests := s.attests.drop 1 }
  whenever (s.attests.head? == some part) s
    (if !p.owns a 3904 then s1.putPart part { p with abusy := false, aerr := true }
     else s.writing .iod 4 [(a, 3904)] true (fun s =>
       (({ s with attests := s.attests.drop 1 }.putPart part { p with abusy := false }).writeAtOnce .iod 4 (a + r.1)
         r.2).emit (.msix part p.atvec.toNat)))

/-- The report of a module, laid out as the package's own (R406, log 62): KIND 0, report version 1, the nonce that it answers,
module version 1, and a signature that verifies (R407, R408). -/
def trustedReport (nonce bytes : List Byte) : Bool :=
  let body := bytes.take 568
  bytes.length == 3877 && body.getD 0 1 == 0 && body.getD 1 0 == 1 && (body.drop 8).take 32 == nonce &&
  bits (leNat ((body.drop 552).take 4)) 11 8 == 1 && Config.verify body (bytes.drop 568)

/-- ATTEST_REPORT_RECEIVE (R407): a nonce is answered with the package's own report; a report leaves the module trusted, or
failed. -/
def execAttestReportReceive (modid part : Nat) (m : AttestMsg) (s : State) : Host.Outcome State Fault Refusal :=
  let p := s.part part
  whenever (Tbl.get 0 p.trust modid == 1) s (match m with
    | .nonce n => s.emit (.attestReport modid part (s.report part (padTo 8 [] ++ n)).2)
    | .report bs => s.putPart part { p with
        trust := Tbl.set 0 p.trust modid (if trustedReport (Tbl.get [] p.nonces modid) bs then 2 else 3) })

/-! ### The host's window on the vault (R402, R474) -/

/-- HOST_BAR2_ACCESS (R402, R474): offset x is VBASE·2^16 + x; outside the range, Unsupported Request; in PS2, Completer
Abort. A write is of the bytes it brings. Writes are the IOD agent's, in the order received; a read waits for them and merges what its slices have applied (R204). -/
def execHostBar2Access (part offset len : Nat) (write : Option (List Byte)) (s : State) : Host.Outcome State Fault Refusal :=
  let p := s.part part
  let pa := p.vbase * 65536 + offset
  let n := match write with
    | some bs => bs.length
    | none => len
  whenReady s
    (if s.house.cur = 2 then s.emit (.hostAbort part)
     else if p.vsize * 65536 ≤ offset ∨ p.vsize * 65536 < offset + n then s.emit (.hostUnsupported part)
     else match write with
       | some bs => State.iodBytes (bs.length + 1) s pa bs
       | none =>
         if s.uncovered (s.vcOf 4) then s
         else ((List.range (len / 64 + 2)).foldl (fun acc i => acc.mergeIod (pa + 64 * i)) s).emit
           (.hostRead part (Memory.readBytes s.vault pa len)))

end Sys2Proof.Machine
end

