-- ==== Sys2Proof/Machine/Startup.lean ====
section
/-! DEFINITION. Start-up (R468-R471), power states (R472-R474), temperature and power (R475). -/

namespace Sys2Proof.Machine

/-! ### Power-on -/

/-- What power-on keeps: the package number, the modules, the laser counters (R452), the log and the agenda. Everything
else is at its reset value: SRAM is zero, every register holds its reset value (R468, phase 3). -/
def State.powerCycle (s : State) : State :=
  { State.reset with pkg := s.pkg, modules := s.modules,
                     arrays := Tbl.mapAll Array_.reset s.arrays (fun _ x => { x with rested := true }),
                     wiring := s.wiring, out := s.out, free := s.free, now := s.now, next := s.next, agenda := s.agenda }

/-- RECOVERY: a check failed (R470). -/
def State.recovery (s : State) (err : Nat) : State := { s with house := { s.house with phase := 7, err := err } }

/-- POWER_ON_RESET (R468, R470): the images are checked and measured; phases 1 to 3 pass, and phase 4 begins. -/
def execPowerOnReset (boot : BootResult) (s : State) : Host.Outcome State Fault Refusal :=
  let s0 := s.powerCycle
  .next (match boot with
    | .good image main fuses version =>
      let s1 := ((s0.extend 0 image).extend 1 main).extend 2 fuses
      { s1 with house := { s1.house with phase := 4, fwver := version } }
    | .badKey => s0.recovery 1
    | .badFirst => s0.recovery 2
    | .badMain image => (s0.extend 0 image).recovery 3
    | .badFlash => s0.recovery 4)

/-! ### The end of phase 4 (R468, R469) -/

/-- ERR while phase 4 lasts beyond 50 ms. -/
def House.lateErr (h : House) : Nat := if !h.mesh0 && !h.mesh1 then 5 else if !h.pcie then 6 else 0

/-- Phase 4 ends: at once with both mesh ports and PCIe, after 50 ms with one (R468, R469). -/
def House.tryReady (h : House) : House :=
  if h.phase != 4 then h
  else if h.pcie && h.mesh0 && h.mesh1 then { h with phase := 5, err := 0, meshDown := false }
  else if h.late && h.pcie && (h.mesh0 || h.mesh1) then { h with phase := 5, err := 0, meshDown := true }
  else if h.late then { h with err := h.lateErr }
  else h

/-- LINK_PHASE_TIMEOUT: 50 ms of phase 4 have passed (R469). -/
def execLinkPhaseTimeout (s : State) : Host.Outcome State Fault Refusal :=
  whenever (s.house.phase == 4) s { s with house := { s.house with late := true }.tryReady }

/-- PCIE_TRAINED (R469); the link trains from phase 4 on. -/
def execPcieTrained (s : State) : Host.Outcome State Fault Refusal :=
  whenever (s.house.phase == 4 || s.house.phase == 5) s { s with house := { s.house with pcie := true }.tryReady }

/-- MESH_PORT_UP (R469). -/
def execMeshPortUp (port : Nat) (s : State) : Host.Outcome State Fault Refusal :=
  whenever (s.house.phase == 4 || s.house.phase == 5) s
    { s with house := (if port = 0 then { s.house with mesh0 := true } else { s.house with mesh1 := true }).tryReady }

/-- CONTROL_MESH_PORT_DOWN (R11, R469): the other port carries everything. DESIGN CHOICE (log 73): with both ports down after
READY, control-mesh messages are still sent and taken. -/
def execControlMeshPortDown (port : Nat) (s : State) : Host.Outcome State Fault Refusal :=
  .next { s with house := (if port = 0 then { s.house with mesh0 := false } else { s.house with mesh1 := false }).tryReady }

/-! ### Power states -/

/-- Something keeps the package in PS0: a launch not completed, or a queue not read to its end (R473). -/
def State.busy (s : State) : Bool :=
  !(listed s.launches).isEmpty ||
  (List.range 16).any (fun n => (s.part n).queues.any (fun q => q.2.en && q.2.wr != q.2.rd))

/-- The return to PS0 begins: in PS1 the channels that it parked wake, then the clock ramps (R473). -/
def State.beginWake (s : State) : State :=
  if s.house.ramping || s.house.entering.isSome || s.house.cur = 0 then s
  else
    let s1 := { s with house := { s.house with ramping := true, wakeAsked := false, polled := false } }
    s1.chans.foldl (fun acc e => if e.2.ps1 && e.2.state == .parked then
      acc.modChan e.1 (fun x => { x with state := .waking }) else acc) s1

/-- A write of REQ (R472, R473); 3 is discarded. A state that is asked for while another is being entered, or left, is entered
instead (log 71). -/
def State.askPower (s : State) (req : BitVec 2) : State :=
  if req = 3 then s
  else
    let s1 := { s with house := { s.house with req := req } }
    if req = 0 then s1.beginWake
    else if s.busy then { s1 with house := { s1.house with ref := true } }
    else if req = s.house.cur ∧ s.house.entering = none ∧ s.house.ramping = false then s1
    else { s1 with house := { s1.house with entering := some req, ramping := false } }

/-- POWER_STATE_REQUEST (R473). -/
def execPowerStateRequest (req : BitVec 2) (s : State) : Host.Outcome State Fault Refusal :=
  whenever s.pfReaches s (s.askPower req)

/-- PS1 is entered: every peer and memory channel is parked (R472). -/
def State.enterStandby (s : State) : State :=
  let cs := (s.chans.filter (fun e => e.2.state == .active || e.2.state == .waking || e.2.parking)).map (fun e => e.1)
  let s1 := cs.foldl (fun acc c => (acc.breakOff c).modChan c (fun x =>
    { x with state := .parked, parking := false, rewake := false, ps1 := true })) s
  cs.foldl State.settleChan s1

/-- What a core keeps in PS2: nothing of its slots, accumulators and tags (R472). -/
def Core.sleep (_c : Core) : Core := Core.reset

/-- PS2 is entered: scratchpad, slots, accumulators and tags are lost, and every link goes DOWN (R472). -/
def State.enterSleep (s : State) : State :=
  let s1 := { s with cores := Tbl.mapAll Core.reset s.cores (fun _ c => c.sleep), corbel := [] }
  let s2 := (listed s1.teams).foldl (fun acc e =>
    acc.putTeam e.1 { e.2 with cores := e.2.cores.map (fun c => { c with scratch := [] }) }) s1
  let s3 := (s2.chans.map (fun e => e.1)).foldl (fun acc c =>
    (acc.chanDown c).modChan c (fun x => { x with trying := false, tried := false })) s2
  let s4 := (s3.pairs.map (fun e => e.1)).foldl (fun acc f => acc.putPair f { acc.pair f with trained := false }) s3
  (s4.links.map (fun e => e.1)).foldl (fun acc k => acc.fallLink k false) s4

/-- The return to PS0 may end: every channel that PS1 parked has ended its wake (R473); from PS2, the channels that carry light have
been tried (R471, R472). -/
def State.awake (s : State) : Bool :=
  s.house.ramping && s.chans.all (fun e => !e.2.ps1) &&
    (s.house.cur != 2 || (s.house.polled && s.chans.all (fun e => !e.2.trying)))

/-- CLOCK_RAMP_COMPLETE: an entry finishes, or a return to PS0 does (R472, R473). -/
def execClockRampComplete (s : State) : Host.Outcome State Fault Refusal :=
  match s.house.entering with
  | some r =>
    let s1 := { s with house := { s.house with entering := none, cur := r } }
    .next (if r = 1 then s1.enterStandby
           else { s1 with house := { s1.house with wakeAsked := false } }.enterSleep)
  | none => whenever s.awake s
      { s with house := { s.house with ramping := false, cur := 0, wakeAsked := false } }

/-! ### Temperature and power (R475) -/

/-- The hottest die and its temperature, in units of 0.5 °C; the lowest-numbered among equals. -/
def hottest : List (BitVec 10) → Nat → Nat × BitVec 10 → Nat × BitVec 10
  | [], _, best => best
  | t :: ts, i, best => hottest ts (i + 1) (if best.2.toNat < t.toNat then (i, t) else best)

/-- THERMAL_SAMPLE (R475): above 105 °C every partition's halt line is raised; above PCAP, PCX sets. -/
def execThermalSample (temps : List (BitVec 10)) (watts : BitVec 12) (s : State) : Host.Outcome State Fault Refusal :=
  let h := hottest temps 0 (0, temps.headD 0)
  let hot := temps.any (fun t => decide (210 < t.toNat))
  let cool := temps.all (fun t => decide (t.toNat < 190))
  let above := decide (s.house.pcap.toNat < watts.toNat)
  let s1 := { s with house := { s.house with
    tmax := h.2, tdie := BitVec.ofNat 3 h.1, pwr := watts, hot := s.house.hot || hot,
    cooling := hot || (s.house.cooling && !cool), pcx := s.house.pcx || above } }
  let s2 := if hot then (List.range 16).foldl (fun acc n => acc.raiseHalt n false none) s1 else s1
  .next (if above && !s.house.pcx then s2.emit (.pfMsix s.house.pcvec.toNat) else s2)

end Sys2Proof.Machine
end

