-- ==== Sys2Proof/Machine/System.lean ====
section
/-! DEFINITION. The system register space: SYSRD and SYSWR, and writes by the host (R4, R6, R43, R77, R237, R344, R389-R393,
R402, R476). -/

namespace Sys2Proof.Machine

/-! ### The gang's own registers (R43, R77, R237, R344) -/

/-- GSTATE (Table 2.4). -/
def Ctx.gstate (c : Ctx) : Nat :=
  let wait := c.g.groups.foldl (fun m x => if x.atRegang then m ||| x.slices else m) 0
  c.g.live.toNat + 256 * c.slices.toNat + 65536 * wait.toNat + 2 ^ 24 * (c.g.groups.length % 16) + 2 ^ 28 * c.g.parted.toNat

/-- LNTST (Table 8.5). -/
def Ctx.lntst (c : Ctx) : Nat :=
  c.s.allowance c.g % 32768 + 32768 * c.g.fixedAllow.isSome.toNat + 65536 * (c.s.outstanding c.id % 65536)

/-- A barrier of the team. -/
def Ctx.barrierOf (c : Ctx) (n : Nat) : Barrier := match c.team with
  | some t => t.barrier n
  | none => Barrier.init 0

/-- A register of the gang space. -/
def Ctx.gangReg (c : Ctx) (a : Nat) : Nat :=
  if a = 0x0000 then c.gstate
  else if a = 0x0001 then (~~~c.g.exited).toNat
  else if a = 0x0002 then c.g.eventWord.toNat
  else if a = 0x0003 then c.g.evmask.toNat
  else if a = 0x0004 then c.g.deadline % 2 ^ 32
  else if a = 0x0010 then c.lntst
  else if 0x0020 ≤ a ∧ a < 0x0030 then (c.barrierOf (a - 0x0020)).bytes % 2 ^ 32
  else if 0x0030 ≤ a ∧ a < 0x0040 then (c.barrierOf (a - 0x0030)).ebytes % 2 ^ 32
  else if a = 0x0180 then c.g.plumbEn.toNat
  else if a = 0x0181 then c.g.plumbSt.toNat
  else 0

/-- A word of the trap state or of a lane record (Tables 17.2 and 17.3). -/
def Gang.trapReg (g : Gang) (a : Nat) : Nat :=
  if a < 0x180A then g.trapWord (a - 0x1800)
  else if 0x1820 ≤ a ∧ a < 0x18A0 then
    leNat (((g.laneRecord ((a - 0x1820) / 4)).bytes.drop (4 * ((a - 0x1820) % 4))).take 4)
  else 0

/-- A write of the trap state: TPC and BADBLK (Table 17.2). -/
def Gang.writeTrap (g : Gang) (a : Nat) (v : Word) : Gang :=
  let t := g.trap
  if a = 0x1800 then { g with trap := { t with badblk := t.badblk && !v.getLsbD 12 } }
  else if a = 0x1801 then { g with trap := { t with tpc := t.tpc.extractLsb' 32 24 ++ (v &&& 0xFFFFFFFC#32) } }
  else if a = 0x1802 then { g with trap := { t with tpc := v.extractLsb' 0 24 ++ t.tpc.extractLsb' 0 32 } }
  else g

/-- A write of PLUMBCTL or PLUMBST (Tables 3.10 and 3.11). -/
def Gang.writePlumb (g : Gang) (a : Nat) (v : Word) : Gang :=
  if a = 0x0180 then { g with plumbEn := v.getLsbD 0 }
  else if a = 0x0181 then { g with plumbSt := if v.getLsbD 14 then g.plumbSt &&& 0x3FFF#15 else g.plumbSt }
  else g

/-! ### Partition registers (Table 16.3, Table 10.1) -/

/-- A register 0x1000-0x10FF and 0x1100 of a partition. -/
def State.partReg (s : State) (part a : Nat) : Nat :=
  let p := s.part part
  match a with
  | 0x1000 => part % 16 + 16 * (s.pkg % 1024)
  | 0x1001 => p.privq.toNat
  | 0x1002 => (p.modes &&& 0x37#6).toNat + 8 * s.rot.hostm.toNat
  | 0x1003 => p.vbase
  | 0x1004 => p.vsize
  | 0x1005 => p.clusters.toNat % 2 ^ 32
  | 0x1006 => p.clusters.toNat / 2 ^ 32
  | 0x1007 => p.ptbase + 2 ^ 21 * p.topbits
  | 0x1008 => p.seq.toNat + 65536 * p.stale.toNat
  | 0x1009 => p.nseq.toNat + 2 ^ 17 * p.shootBusy.toNat
  | 0x100A => p.dombase
  | 0x100B => p.commbase
  | 0x100C => p.fqbase + 65536 * p.fqlog2n
  | 0x100D => p.fqwr.toNat + 65536 * p.fqrd.toNat
  | 0x100F => p.fqlost
  | 0x1010 => p.fqvec.toNat + 256 * p.shvec.toNat + 65536 * p.atvec.toNat + 2 ^ 24 * p.stvec.toNat
  | 0x1020 => p.modid + 65536 * Tbl.get 0 p.trust p.modid
  | 0x1040 => p.attaddr
  | 0x1041 => 2 * p.abusy.toNat + 4 * p.aerr.toNat
  | 0x1100 => versWord
  | _ =>
    if 0x1080 ≤ a ∧ a < 0x1100 then leNat (((s.meas? ((a - 0x1080) / 16)).drop (4 * ((a - 0x1080) % 16))).take 4) else 0

/-- Register k of a launch queue (Table 10.1). -/
def LaunchQueue.reg (q : LaunchQueue) : Nat → Nat
  | 0 => q.base % 2 ^ 32
  | 1 => q.base / 2 ^ 32 % 2 ^ 24
  | 2 => q.en.toNat + 2 * (q.log2n % 16) + 256 * q.ref.toNat
  | _ => q.wr.toNat + 65536 * q.rd.toNat

/-- Table 21.3. -/
def House.reg (h : House) : Nat → Nat
  | 0x1700 => h.phase % 8 + 8 * h.meshDown.toNat + 16 * h.hot.toNat + 32 * (h.err % 8) + 65536 * h.fwver.toNat
  | 0x1701 => h.req.toNat + 4 * h.cur.toNat + 16 * h.ref.toNat
  | 0x1702 => h.tmax.toNat + 1024 * h.tdie.toNat + 65536 * h.pwr.toNat
  | 0x1703 => h.pcap.toNat + 4096 * h.pcx.toNat + 65536 * h.pcvec.toNat
  | _ => 0

/-- Table 17.7. -/
def Partition.recoveryReg (p : Partition) : Nat → Nat
  | 0x18C0 => p.th.toNat % 2 ^ 32
  | 0x18C1 => p.th.toNat / 2 ^ 32 + 2 ^ 24 * p.then_.toNat
  | 0x18C2 => p.ctxbase
  | 0x18C3 => p.ctxsize
  | 0x18C4 => p.stopbase
  | 0x18C5 => p.halted.toNat + 2 * p.fatal.toNat + 256 * p.first.toNat + 65536 * p.hseq.toNat
  | 0x18C7 => p.stopLost
  | 0x18C8 => p.sece
  | 0x18C9 => p.seue
  | 0x18CA => p.noroom.toNat
  | _ => 0

/-! ### Optics and circuits, as R390 gives them -/

/-- The partition owns a pair of one of the two engines of an array and its neighbour. -/
def State.seesArray (s : State) (part e : Nat) : Bool := (s.lineOwners e).contains part
/-- The partition owns a peer-fabric pair. -/
def State.seesTiming (s : State) (part : Nat) : Bool := (List.range 64).any (fun f => s.ownsPair part f && (s.pair f).fab)
/-- The partition owns a pair attached to plane p. -/
def State.seesPort (s : State) (part p : Nat) : Bool := (List.range 64).any (fun f => s.ownsPair part f && (s.pair f).plane == p)

/-- A value, or zero where the register is withheld. -/
def shown (b : Bool) (n : Nat) : Nat := if b then n else 0

/-- A register of 0x4000-0x4FFF, as a partition reads it, or the physical function, which reads every one (R390). -/
def State.opticReg (s : State) (pf : Bool) (part a : Nat) : Nat :=
  let p := s.part part
  if a = 0x4000 then p.optvec.toNat + 256 * p.opten.toNat
  else if a = 0x4002 then s.weakMrg.toNat + 256 * s.weakCer.toNat + 2 ^ 24 * s.period.toNat
  else if a = 0x4010 then p.planReg
  else if 0x4040 ≤ a ∧ a < 0x4080 then shown (pf || s.ownsPair part (a - 0x4040)) (s.pairWord (a - 0x4040))
  else if 0x4100 ≤ a ∧ a < 0x4180 then shown (pf || s.ownsPair part (pairOfLink (a - 0x4100))) (s.linkWord (a - 0x4100))
  else if 0x4180 ≤ a ∧ a < 0x4200 then shown (pf || s.ownsPair part (pairOfLink (a - 0x4180))) (s.countWord (a - 0x4180))
  else if 0x4400 ≤ a ∧ a < 0x4800 then shown (pf || s.ownsPair part (pairOfChan (a - 0x4400))) (s.chanWord (a - 0x4400))
  else if 0x4800 ≤ a ∧ a < 0x4900 then
    shown (pf || s.seesArray part ((a - 0x4800) / 16)) (s.line ((a - 0x4800) / 16) ((a - 0x4800) % 16)).word
  else if 0x4900 ≤ a ∧ a < 0x4940 then
    shown (pf || s.seesArray part ((a - 0x4900) / 4)) (s.arrayWord ((a - 0x4900) / 4) ((a - 0x4900) % 4))
  else 0

/-- A register of 0x5000-0x57FF, as a partition or the physical function reads it (R390). -/
def State.circuitReg (s : State) (pf : Bool) (part a : Nat) : Nat :=
  if a = 0x5000 then shown (pf || s.seesTiming part) s.rot.ctl
  else if a = 0x5001 then shown (pf || s.seesTiming part) s.rot.status
  else if a = 0x5002 then shown (pf || s.seesTiming part) s.rot.rot.toNat
  else if 0x5008 ≤ a ∧ a < 0x5010 then shown (pf || s.seesPort part (a - 0x5008)) (s.portWord (a - 0x5008))
  else if 0x5040 ≤ a ∧ a < 0x5080 then
    shown (pf || s.ownsPair part (a - 0x5040)) ((s.pair (a - 0x5040)).plane % 8 + 8 * (s.pair (a - 0x5040)).fab.toNat)
  else if 0x5100 ≤ a ∧ a < 0x5300 then
    shown (pf || s.seesPort part ((a - 0x5100) % 8)) (s.entry ((a - 0x5100) / 8) ((a - 0x5100) % 8)).word
  else 0

/-! ### Reads -/

/-- A register that stands outside the gang's own state, as a partition or the physical function reads it (Table 16.2). -/
def State.sharedReg (s : State) (pf : Bool) (part a : Nat) : Nat :=
  if 0x1000 ≤ a ∧ a < 0x1200 then s.partReg part a
  else if 0x1200 ≤ a ∧ a < 0x1280 then ((s.part part).queue ((a - 0x1200) / 4)).reg ((a - 0x1200) % 4)
  else if 0x1700 ≤ a ∧ a < 0x1704 then s.house.reg a
  else if 0x18C0 ≤ a ∧ a < 0x18CB then (s.part part).recoveryReg a
  else if 0x4000 ≤ a ∧ a < 0x5000 then s.opticReg pf part a
  else if 0x5000 ≤ a ∧ a < 0x5800 then s.circuitReg pf part a
  else 0

/-- A register as a gang reads it. -/
def Ctx.sysReg (c : Ctx) (a : Nat) : Nat :=
  if a < 0x0200 then c.gangReg a
  else if 0x1800 ≤ a ∧ a < 0x18C0 then c.g.trapReg a
  else c.s.sharedReg false c.part a

/-- What reading a register changes: those of type RC clear (R6). -/
def State.afterRead (s : State) (pf : Bool) (part a : Nat) : State :=
  if a = 0x100F then s.modPart part (fun p => { p with fqlost := 0 })
  else if a = 0x18C7 then s.modPart part (fun p => { p with stopLost := 0 })
  else if a = 0x18C8 then s.modPart part (fun p => { p with sece := 0 })
  else if a = 0x18C9 then s.modPart part (fun p => { p with seue := 0 })
  else if 0x4180 ≤ a ∧ a < 0x4200 then
    let k := a - 0x4180
    if (pf || s.ownsPair part (pairOfLink k)) && (s.pair (pairOfLink k)).fab then
      s.putLink k { s.link k with replays := 0, retrains := 0 }
    else s
  else s

/-! ### Writes -/

/-- A write of a partition register (Table 16.3); VBASE to CLHI by the physical function alone. -/
def State.writePart (s : State) (pf : Bool) (part a : Nat) (v : Word) : State :=
  let n := v.toNat
  match a with
  | 0x1001 => s.modPart part (fun p => { p with privq := v })
  | 0x1002 => s.modPart part (fun p => { p with modes := v.extractLsb' 0 6 &&& 0x37#6 })
  | 0x1003 | 0x1004 | 0x1005 | 0x1006 => if pf then s.assignPart part a v else s
  | 0x1007 => s.modPart part (fun p => { p with ptbase := bits n 20 0, topbits := min 26 (bits n 25 21) })
  | 0x1008 => s.modPart part (fun p => { p with stale := p.stale && !bit n 16 })
  | 0x1009 => s.shoot part (v.extractLsb' 0 16) (bit n 16)
  | 0x100A => s.modPart part (fun p => { p with dombase := bits n 17 0 })
  | 0x100B => s.modPart part (fun p => { p with commbase := bits n 16 0 })
  | 0x100C => s.modPart part (fun p => { p with fqbase := bits n 15 0, fqlog2n := max 4 (min 8 (bits n 19 16)) })
  | 0x100D => s.modPart part (fun p => { p with fqrd := v.extractLsb' 16 16 })
  | 0x100E => s.faultAck part v
  | 0x1010 => s.modPart part (fun p => { p with
      fqvec := v.extractLsb' 0 8, shvec := v.extractLsb' 8 8, atvec := v.extractLsb' 16 8, stvec := v.extractLsb' 24 8 })
  | 0x1020 =>
    let s1 := s.modPart part (fun p => { p with modid := bits n 11 0 })
    if bit n 12 then s1.attestModule part else s1
  | 0x1040 => s.modPart part (fun p => { p with attaddr := bits n 24 0 })
  | 0x1041 => if bit n 0 then s.askReport part else s
  | _ => s

/-- A write of register k of a launch queue (Table 10.1): the base and the size only while EN is 0. -/
def State.writeQueue (s : State) (part q k : Nat) (v : Word) : State :=
  let x := (s.part part).queue q
  let n := v.toNat
  let put := fun (y : LaunchQueue) => s.modPart part (fun p => p.putQueue q y)
  match k with
  | 0 => if x.en then s else put { x with base := x.base / 2 ^ 32 * 2 ^ 32 + bits n 31 7 * 128 }
  | 1 => if x.en then s else put { x with base := bits n 23 0 * 2 ^ 32 + x.base % 2 ^ 32 }
  | 2 => put { x with en := bit n 0, log2n := if x.en then x.log2n else max 4 (bits n 4 1), ref := x.ref && !bit n 8 }
  | _ => s.writeWr part q (v.extractLsb' 0 16)

/-- A write of Table 21.3, by the physical function alone. -/
def State.writeHouse (s : State) (a : Nat) (v : Word) : State :=
  let n := v.toNat
  match a with
  | 0x1700 => { s with house := { s.house with hot := s.house.hot && !bit n 4 } }
  | 0x1701 => State.askPower { s with house := { s.house with ref := s.house.ref && !bit n 4 } } (v.extractLsb' 0 2)
  | 0x1703 => { s with house := { s.house with
      pcap := v.extractLsb' 0 12, pcx := s.house.pcx && !bit n 12, pcvec := v.extractLsb' 16 8 } }
  | _ => s

/-- A write of Table 17.7. HCTL ends a halt: DISCARD, else RESUME (R423). -/
def State.writeRecovery (s : State) (part a : Nat) (v : Word) : State :=
  let n := v.toNat
  match a with
  | 0x18C0 => s.modPart part (fun p => { p with th := p.th.extractLsb' 32 24 ++ (v &&& 0xFFFFFFFC#32) })
  | 0x18C1 => s.modPart part (fun p => { p with th := v.extractLsb' 0 24 ++ p.th.extractLsb' 0 32, then_ := bit n 24 })
  | 0x18C2 => s.modPart part (fun p => { p with ctxbase := bits n 12 0 })
  | 0x18C3 => s.modPart part (fun p => { p with ctxsize := bits n 13 0 })
  | 0x18C4 => s.modPart part (fun p => { p with stopbase := bits n 12 0 })
  | 0x18C6 => if bit n 1 then s.discard part else if bit n 0 then s.resume part else s
  | 0x18CA => s.modPart part (fun p => { p with noroom := p.noroom && !bit n 0 })
  | _ => s

/-- A write of an optical register (Tables 18.5-18.7): those of a pair by its owner or the physical function. -/
def State.writeOptic (s : State) (pf : Bool) (part a : Nat) (v : Word) : State :=
  let n := v.toNat
  let mine := fun (f : Nat) => pf || s.ownsPair part f
  if a = 0x4000 then s.modPart part (fun p => { p with optvec := v.extractLsb' 0 8, opten := bit n 8 })
  else if a = 0x4002 then
    if pf then { s with weakMrg := v.extractLsb' 0 8, weakCer := v.extractLsb' 8 16,
                        period := if v.extractLsb' 24 8 = 0 then 1 else v.extractLsb' 24 8 }
    else s
  else if a = 0x4010 then s.writePlan part n
  else if 0x4040 ≤ a ∧ a < 0x4080 then (if mine (a - 0x4040) then s.writePair pf (a - 0x4040) v else s)
  else if 0x4100 ≤ a ∧ a < 0x4180 then
    let k := a - 0x4100
    if mine (pairOfLink k) then
      let s1 := s.writeTgtw k (bits n 3 0)
      if bit n 10 then s1.askRetrain k else s1
    else s
  else if 0x4400 ≤ a ∧ a < 0x4800 then
    let c := a - 0x4400
    if mine (pairOfChan c) then
      (s.modChan c (fun x => { x with weak := x.weak && !bit n 5, wfail := x.wfail && !bit n 6 })).writePark c (bit n 2)
    else s
  else s

/-- A write of a circuit register (Tables 14.1-14.6): PAIRPLN of a pair that another partition owns is discarded. -/
def State.writeCircuit (s : State) (part a : Nat) (v : Word) : State :=
  if a = 0x5000 then { s with rot := s.rot.write v }
  else if a = 0x5001 then
    { s with rot := { s.rot with miss := s.rot.miss && !v.getLsbD 16, resync := s.rot.resync && !v.getLsbD 17 } }
  else if 0x5008 ≤ a ∧ a < 0x5010 then s.writePort (a - 0x5008) v
  else if 0x5040 ≤ a ∧ a < 0x5080 then
    let f := a - 0x5040
    if (s.pair f).ownv && !s.ownsPair part f then s else s.writePlane f v
  else if 0x5100 ≤ a ∧ a < 0x5300 then s.writeEntry ((a - 0x5100) / 8) ((a - 0x5100) % 8) v
  else s

/-- A write of a register outside the gang's own state. -/
def State.writeShared (s : State) (pf : Bool) (part a : Nat) (v : Word) : State :=
  if 0x1000 ≤ a ∧ a < 0x1200 then s.writePart pf part a v
  else if 0x1200 ≤ a ∧ a < 0x1280 then s.writeQueue part ((a - 0x1200) / 4) ((a - 0x1200) % 4) v
  else if 0x1700 ≤ a ∧ a < 0x1704 then (if pf then s.writeHouse a v else s)
  else if 0x18C0 ≤ a ∧ a < 0x18CB then s.writeRecovery part a v
  else if 0x4000 ≤ a ∧ a < 0x5000 then s.writeOptic pf part a v
  else if 0x5000 ≤ a ∧ a < 0x5800 then s.writeCircuit part a v
  else s

/-- A write of a register by a gang, once its instruction has executed. The distributor reads a queue up to WR after what the
gang has stored (R205, R292). -/
def Ctx.writeSys (c : Ctx) (a : Nat) (v : Word) : State :=
  if a < 0x0200 then c.next c.s (c.g.writePlumb a v)
  else if 0x1800 ≤ a ∧ a < 0x18C0 then c.next c.s (c.g.writeTrap a v)
  else if 0x1200 ≤ a ∧ a < 0x1280 ∧ a % 4 = 3 then c.skip.releaseToIod.writeShared false c.part a v
  else c.skip.writeShared false c.part a v

/-! ### Who may read and write (Table 16.2) -/

/-- SYSRD of the address is not refused (R389, Tables 17.2 and 17.7). -/
def Ctx.mayRead (c : Ctx) (a : Nat) : Bool :=
  if 0x1000 ≤ a ∧ a < 0x1800 then c.privileged
  else if 0x1800 ≤ a ∧ a < 0x1900 then c.privileged || c.g.inh
  else true

/-- SYSWR of the address is not refused (R367, R389, Tables 17.2 and 17.7). -/
def Ctx.mayWrite (c : Ctx) (a : Nat) : Bool :=
  if 0x1000 ≤ a ∧ a < 0x1800 then c.privileged
  else if 0x1800 ≤ a ∧ a < 0x18C0 then c.privileged || c.g.inh
  else if 0x18C0 ≤ a ∧ a < 0x1900 then c.privileged
  else if 0x4000 ≤ a ∧ a < 0x5800 then c.privileged && c.s.ownsSome c.part
  else true

/-- SYSRD (R391). -/
def execSysrd (d : RegField) (addr : BitVec 16) (s : State) : Host.Outcome State Fault Refusal :=
  withIssue s fun c =>
    let a := addr.toNat
    c.run (c.onceStop (scalarDst d) true (c.mayRead a) [] [] [] (regsOf d false))
      (c.onceDo ((c.scalarResult d (BitVec.ofNat 32 (c.sysReg a))).afterRead false c.part a))

/-- SYSWR (R391). -/
def execSyswr (d : RegField) (addr : BitVec 16) (s : State) : Host.Outcome State Fault Refusal :=
  withIssue s fun c =>
    let a := addr.toNat
    c.run (c.onceStop (scalarOk d) true (c.mayWrite a) [] [] (regsOf d false) [])
      (c.onceDo (c.writeSys a (c.readS d)))

/-! ### The host (R402, R469, R470, R476) -/

/-- The function reaches the register: a virtual function once the package is READY; before, the physical function
reaches Table 21.3 alone. -/
def State.hostReaches (s : State) (pf : Bool) (a : Nat) : Bool :=
  s.isReady || (pf && decide (0x1700 ≤ a) && decide (a < 0x1704) && s.pfReaches)

/-- A virtual function writes as a privileged gang does (R389); the physical function writes no circuit register (R367) and no
register of Table 17.7. -/
def State.hostMayWrite (s : State) (pf : Bool) (part a : Nat) : Bool :=
  if 0x5000 ≤ a ∧ a < 0x5800 then !pf && s.ownsSome part
  else if 0x18C0 ≤ a ∧ a < 0x1900 then !pf
  else pf || !(decide (0x4000 ≤ a) && decide (a < 0x5000)) || s.ownsSome part

/-- The host reads a register through BAR0 (R389, R390, R393, R402): its value goes to the host, and fields of type RC clear
(R6). A virtual function reads its partition's copy; the physical function reads every register. -/
def State.hostRegister (s : State) (src : Source) (part addr : Nat) : State :=
  let pf := src == .pf
  if s.hostReaches pf addr then
    (s.emit (.hostRegister src part addr (BitVec.ofNat 32 (s.sharedReg pf part addr)))).afterRead pf part addr
  else s

/-- REGISTER_WRITE: a write through BAR0 (R6, R393, R402). -/
def execRegisterWrite (src : Source) (part addr : Nat) (v : Word) (s : State) : Host.Outcome State Fault Refusal :=
  let pf := src == .pf
  whenever (s.hostReaches pf addr && s.hostMayWrite pf part addr) s (s.writeShared pf part addr v)

end Sys2Proof.Machine
end

