-- ==== Sys2Proof/Machine/Settle.lean ====
section
/-! DEFINITION. What the end of a cycle settles: parked groups whose waits are over go on (R312), counter tokens end (R326),
held engine work is accepted (R188), saves that CTXSV asks for begin (R428), collectives make progress (R286) and teams that
have ended give back what they held (R31, R161, R228). -/

namespace Sys2Proof.Machine

/-- The groups of the gang act: its team runs, and neither a save (R424) nor the halt line (R420) stops it. -/
def State.acts (s : State) (g : Gang) : Bool :=
  match s.team? g.team with
  | some t => t.status == .running && !t.saving && !g.ended && !(s.part t.part).halted
  | none => false

/-- A parked group of a gang may go on: its gang acts, or a trap of its lanes is under way, whose entry neither a save nor a
halt holds up (R419). -/
def State.mayUnpark (s : State) (g : Gang) (x : Group) : Bool := match x.park with
  | none => false
  | some (.faulting _ _ _) => s.resident g
  | some _ => s.acts g

/-- The parked groups that may go on, in the order in which they parked. -/
def State.parkedGroups (s : State) : List (Nat × Group) :=
  ((listed s.gangs).flatMap (fun e => (e.2.groups.filter (s.mayUnpark e.2)).map (fun x => (e.1, x)))).sortedBy
    (fun a b => decide (a.2.since ≤ b.2.since))

/-- The parked group goes on at the next word, in a state. -/
def Ctx.goOn (c : Ctx) (s : State) : State := s.wake c.id c.slices (c.pc + 4)
/-- The parked group presents its instruction again. -/
def Ctx.again (c : Ctx) : State := c.s.represent c.id c.slices

/-- A parked LAUNCH finds room in its queue (R340, steps 3 and 4). -/
def Ctx.launchReturns (c : Ctx) (q : Nat) (bs : List Byte) : State :=
  let x := (c.s.part c.part).queue q
  let ea := x.entryAt x.wr
  if x.size ≤ x.unread ∨ c.accessesOut then c.s
  else match c.s.access c.part ea 128 Need.store with
    | .error e => c.onceFault e ea
    | .ok pa => c.s.writing (.engine c.id) c.agent [(pa, 128)] false (fun s => { c with s := s }.post q pa bs)

/-- A parked MBSEND: the target has ended, or its mailbox is EMPTY (R329). -/
def Ctx.sendReturns (c : Ctx) (x m : Nat) (v : DWord) : State :=
  match c.s.member c.g.team x with
  | none => c.goOn c.s
  | some (id, g) => if (g.mailbox m).isNone then c.goOn (c.s.modGang id (fun g => g.putMailbox m (some v))) else c.s

/-- A parked MBRECV: its mailbox is FULL (R330). -/
def Ctx.recvReturns (c : Ctx) (d m : Nat) : State :=
  match c.g.mailbox m with
  | some v => c.goOn (c.s.putGang c.id ((c.g.putMailbox m none).putPair d v))
  | none => c.s

/-- A slot of the cluster's Corbel is free, and no group parked earlier waits for it (R241). -/
def Ctx.corbelFree (c : Ctx) : Bool :=
  (c.s.freeCorbel (clusterOf c.g.core)).isSome && !c.s.corbelWaits (clusterOf c.g.core) c.grp.since

/-- What becomes of a parked group: its wait ends, its instruction is presented again, or it waits on. Claims, releases,
far requests at the Lintel, RATOMs and queued faults wait for steps of their own. -/
def Ctx.unpark (c : Ctx) : Park → State
  | .regang _ => c.s
  | .barwait b p => if (c.barrier b).phase != p then c.s.barwaitReturns c.id c.slices c.pc b else c.s
  | .wany d es => match c.s.firstEligible c.g es 0 with
    | some (k, e) => c.s.wanyTakes c.id c.slices c.pc d k e
    | none => c.s
  | .kwaitle k t =>
    if c.g.posted.any (Posted.ofCounter k) then c.again else if c.g.counter k ≤ t then c.goOn c.s else c.s
  | .tagwait all m => if c.core.waitOver all m then c.s.tagwaitReturns c.id c.slices c.pc m else c.s
  | .tagrel m => if c.core.waitOver true m then c.s.tagrelDone c.id c.slices c.pc m else c.s
  | .mbsend x m v => c.sendReturns x m v
  | .mbrecv d m => c.recvReturns d m
  | .mclaim _ _ => c.s
  | .mrel _ _ => c.s
  | .lintel charge pool _ => if pool then c.s else c.joinPool charge
  | .corbel present =>
    if !present && c.corbelFree then
      c.s.modGang c.id (fun g => g.modGroup c.slices (fun x => { x with park := some (.corbel true) }))
    else c.s
  | .qfull peer => if ((c.s.part c.part).sendQueue peer).length < 16 then c.again else c.s
  | .ratom _ => c.s
  | .faultq _ => c.s
  | .fqfull va lanes => c.faultQueued va lanes
  | .launchq q bs => c.launchReturns q bs
  | .workget => if c.g.workget.isNone then c.again else c.s
  | .ctxsv => c.s
  | .frozen _ => c.s
  | .faulting n opc rs =>
    if c.s.vreqs.any (fun r => r.batch == n && r.kind.loads) then c.s else c.s.faultsDue c.id c.slices c.pc opc rs

/-- A group that was parked is looked at again. -/
def State.settleGroup (s : State) (id : Nat) (m : SliceMask) : State :=
  match s.gang? id with
  | none => s
  | some g => match g.group? m with
    | none => s
    | some x => match x.park with
      | none => s
      | some p => if s.mayUnpark g x then (⟨s, id, g, x⟩ : Ctx).unpark p else s

/-- Every parked group, in the order of parking. -/
def State.settleGroups (s : State) : State :=
  s.parkedGroups.foldl (fun acc e => acc.settleGroup e.1 e.2.slices) s

/-- The state of a step. -/
def State.after (s : State) (f : State → Host.Outcome State Fault Refusal) : State := match f s with
  | .next t => t
  | _ => s

/-- Fetches whose last byte has landed hand over their follow-ons (R176), and requests whose last byte has landed end
(R227). -/
def State.settleLandings (s : State) : State :=
  (listed s.reqs).foldl (fun acc e =>
    let s1 := if e.2.followDue then acc.after (execFollowOnMmaAccept e.1) else acc
    match s1.req? e.1 with
    | some r => if r.landed? then
        s1.after (if s1.isSaved r.team then execSavedTeamArrival r.team (.requestEnd e.1) else execFarRequestEnd e.1) else s1
    | none => s1) s

/-- Tokens of every gang that holds some (R326); those of a saved gang end with what its image hears of (R425). -/
def State.settleTokens (s : State) : State :=
  (listed s.gangs).foldl (fun acc e => if e.2.tokens.isEmpty || s.isSaved e.2.team then acc else acc.sweepTokens e.1) s

/-- The cores on which the end of a freeze has something to accept. -/
def State.heldCores (s : State) : List Nat :=
  ((s.cores.filter (fun c => !c.2.heldMma.isEmpty)).map (fun c => c.1) ++
    (listed s.gangs).filterMap (fun e =>
      if e.2.groups.any (fun x => match x.park with
        | some (.frozen _) => true
        | _ => false) then some e.2.core else none)).dedup

/-- The gang is ready for the save that CTXSV asks for: parked at it, with no group that issues (R428). -/
def Gang.saveReady (g : Gang) : Bool :=
  g.ended || (g.ctxsv && g.groups.all (fun x => x.park.isSome) && g.groups.any (fun x => x.park == some .ctxsv))

/-- Every live gang of the team is parked at a CTXSV (R428). -/
def State.saveAsked (s : State) (team : Nat) (t : Team) : Bool :=
  let gs := s.teamGangs team
  t.status == .running && !t.saving && !(s.part t.part).halted && gs.any (fun e => !e.2.ended) &&
    gs.all (fun e => e.2.saveReady)

/-- Saves that CTXSV asks for begin (R428). -/
def State.settleSaves (s : State) : State :=
  (listed s.teams).foldl (fun acc e => if acc.saveAsked e.1 e.2 then acc.beginSave e.1 else acc) s

/-- Every communicator at which a collective waits makes what progress it can (R286). -/
def State.settleComms (s : State) : State :=
  s.parts.foldl (fun acc p => p.2.comms.foldl (fun acc c =>
    if c.2.waiting.isEmpty then acc else acc.collProgress p.1 c.1) acc) s

/-- The return to PS0 begins once PS1 or PS2 is reached, where REQ reads 0 by then or a doorbell was rung in or around PS1
(R473). -/
def State.settlePower (s : State) : State :=
  let h := s.house
  if (h.req == 0 || (h.wakeAsked && h.cur == 1)) && h.cur != 0 && h.entering.isNone && !h.ramping then s.beginWake else s

/-- What the end of a cycle settles. -/
def State.settle (s : State) : State :=
  let s1 := s.settleLandings.settleGroups.settleTokens
  let s2 := s1.heldCores.foldl State.unfreeze s1
  s2.settleSaves.settleComms.settleBooked.reapTeams.settlePower

end Sys2Proof.Machine
end

