-- ==== Sys2Proof/Machine/Dispatch.lean ====
section
/-! DEFINITION. The meaning of every instruction: each arm is one call. -/

namespace Sys2Proof.Machine

/-- What an instruction does (R79; the meanings are in the files of the families). -/
def exec (i : Instr) (s : State) : Host.Outcome State Fault Refusal :=
  match i with
  | .nop => Sys2Proof.Machine.execNop s
  | .mode payload => Sys2Proof.Machine.execMode payload s
  | .braAny imm => Sys2Proof.Machine.execBraAny imm s
  | .braAll imm => Sys2Proof.Machine.execBraAll imm s
  | .braz imm => Sys2Proof.Machine.execBraz imm s
  | .brx a => Sys2Proof.Machine.execBrx a s
  | .call imm => Sys2Proof.Machine.execCall imm s
  | .ret => Sys2Proof.Machine.execRet s
  | .exit => Sys2Proof.Machine.execExit s
  | .regang a => Sys2Proof.Machine.execRegang a s
  | .yield => Sys2Proof.Machine.execYield s
  | .mand a => Sys2Proof.Machine.execMand a s
  | .mrestore a => Sys2Proof.Machine.execMrestore a s
  | .msave d => Sys2Proof.Machine.execMsave d s
  | .mandn a => Sys2Proof.Machine.execMandn a s
  | .brk imm => Sys2Proof.Machine.execBrk imm s
  | .add d a b => Sys2Proof.Machine.execAdd d a b s
  | .sub d a b => Sys2Proof.Machine.execSub d a b s
  | .mul d a b => Sys2Proof.Machine.execMul d a b s
  | .mulh d a b => Sys2Proof.Machine.execMulh d a b s
  | .mad d a b => Sys2Proof.Machine.execMad d a b s
  | .absd d a b => Sys2Proof.Machine.execAbsd d a b s
  | .min d a b => Sys2Proof.Machine.execMin d a b s
  | .max d a b => Sys2Proof.Machine.execMax d a b s
  | .and d a b => Sys2Proof.Machine.execAnd d a b s
  | .or d a b => Sys2Proof.Machine.execOr d a b s
  | .xor d a b => Sys2Proof.Machine.execXor d a b s
  | .andn d a b => Sys2Proof.Machine.execAndn d a b s
  | .shl d a b => Sys2Proof.Machine.execShl d a b s
  | .shr d a b => Sys2Proof.Machine.execShr d a b s
  | .sar d a b => Sys2Proof.Machine.execSar d a b s
  | .rotl d a b => Sys2Proof.Machine.execRotl d a b s
  | .addi d a imm => Sys2Proof.Machine.execAddi d a imm s
  | .shli d a imm => Sys2Proof.Machine.execShli d a imm s
  | .shri d a imm => Sys2Proof.Machine.execShri d a imm s
  | .sari d a imm => Sys2Proof.Machine.execSari d a imm s
  | .andi d a imm => Sys2Proof.Machine.execAndi d a imm s
  | .ori d a imm => Sys2Proof.Machine.execOri d a imm s
  | .li d imm => Sys2Proof.Machine.execLi d imm s
  | .lih d imm => Sys2Proof.Machine.execLih d imm s
  | .clz d a => Sys2Proof.Machine.execClz d a s
  | .popc d a => Sys2Proof.Machine.execPopc d a s
  | .brev d a => Sys2Proof.Machine.execBrev d a s
  | .bfe d a b => Sys2Proof.Machine.execBfe d a b s
  | .bfi d a b => Sys2Proof.Machine.execBfi d a b s
  | .mov d a => Sys2Proof.Machine.execMov d a s
  | .neg d a => Sys2Proof.Machine.execNeg d a s
  | .abs d a => Sys2Proof.Machine.execAbs d a s
  | .cmpEq d a b => Sys2Proof.Machine.execCmpEq d a b s
  | .cmpNe d a b => Sys2Proof.Machine.execCmpNe d a b s
  | .cmpLt d a b => Sys2Proof.Machine.execCmpLt d a b s
  | .cmpLe d a b => Sys2Proof.Machine.execCmpLe d a b s
  | .cmpGt d a b => Sys2Proof.Machine.execCmpGt d a b s
  | .cmpGe d a b => Sys2Proof.Machine.execCmpGe d a b s
  | .cmpUn d a b => Sys2Proof.Machine.execCmpUn d a b s
  | .cmpi cond d a imm => Sys2Proof.Machine.execCmpi cond d a imm s
  | .pand d a b => Sys2Proof.Machine.execPand d a b s
  | .por d a b => Sys2Proof.Machine.execPor d a b s
  | .pxor d a b => Sys2Proof.Machine.execPxor d a b s
  | .pnot d a => Sys2Proof.Machine.execPnot d a s
  | .pmov d a => Sys2Proof.Machine.execPmov d a s
  | .pset d code => Sys2Proof.Machine.execPset d code s
  | .vote d a code => Sys2Proof.Machine.execVote d a code s
  | .pfrom d a => Sys2Proof.Machine.execPfrom d a s
  | .fadd d a b => Sys2Proof.Machine.execFadd d a b s
  | .fsub d a b => Sys2Proof.Machine.execFsub d a b s
  | .fmul d a b => Sys2Proof.Machine.execFmul d a b s
  | .fma d a b => Sys2Proof.Machine.execFma d a b s
  | .fms d a b => Sys2Proof.Machine.execFms d a b s
  | .fmin d a b => Sys2Proof.Machine.execFmin d a b s
  | .fmax d a b => Sys2Proof.Machine.execFmax d a b s
  | .fminnm d a b => Sys2Proof.Machine.execFminnm d a b s
  | .fmaxnm d a b => Sys2Proof.Machine.execFmaxnm d a b s
  | .fabs d a => Sys2Proof.Machine.execFabs d a s
  | .fneg d a => Sys2Proof.Machine.execFneg d a s
  | .frcp d a => Sys2Proof.Machine.execFrcp d a s
  | .frsq d a => Sys2Proof.Machine.execFrsq d a s
  | .fsqrt d a => Sys2Proof.Machine.execFsqrt d a s
  | .fdiv d a b => Sys2Proof.Machine.execFdiv d a b s
  | .fexp2 d a => Sys2Proof.Machine.execFexp2 d a s
  | .flog2 d a => Sys2Proof.Machine.execFlog2 d a s
  | .fsin d a => Sys2Proof.Machine.execFsin d a s
  | .fcos d a => Sys2Proof.Machine.execFcos d a s
  | .fscale d a b => Sys2Proof.Machine.execFscale d a b s
  | .frnd d a => Sys2Proof.Machine.execFrnd d a s
  | .fclass d a => Sys2Proof.Machine.execFclass d a s
  | .ftanh d a => Sys2Proof.Machine.execFtanh d a s
  | .fsigm d a => Sys2Proof.Machine.execFsigm d a s
  | .cvt d a code => Sys2Proof.Machine.execCvt d a code s
  | .cvtb d a b => Sys2Proof.Machine.execCvtb d a b s
  | .pack d a b => Sys2Proof.Machine.execPack d a b s
  | .unpack d a code => Sys2Proof.Machine.execUnpack d a code s
  | .dot2 d a b => Sys2Proof.Machine.execDot2 d a b s
  | .dot4 d a b => Sys2Proof.Machine.execDot4 d a b s
  | .fcmpx d a b => Sys2Proof.Machine.execFcmpx d a b s
  | .perm d a b => Sys2Proof.Machine.execPerm d a b s
  | .shflXor d a b => Sys2Proof.Machine.execShflXor d a b s
  | .shflUp d a b => Sys2Proof.Machine.execShflUp d a b s
  | .shflDown d a b => Sys2Proof.Machine.execShflDown d a b s
  | .gred d a code => Sys2Proof.Machine.execGred d a code s
  | .gscan d a code => Sys2Proof.Machine.execGscan d a code s
  | .bcast d a b => Sys2Proof.Machine.execBcast d a b s
  | .ld d a imm => Sys2Proof.Machine.execLd d a imm s
  | .st d a imm => Sys2Proof.Machine.execSt d a imm s
  | .ldv d a b => Sys2Proof.Machine.execLdv d a b s
  | .stv d a b => Sys2Proof.Machine.execStv d a b s
  | .lr d a b => Sys2Proof.Machine.execLr d a b s
  | .sc d a b => Sys2Proof.Machine.execSc d a b s
  | .atomAdd d a b => Sys2Proof.Machine.execAtomAdd d a b s
  | .atomMin d a b => Sys2Proof.Machine.execAtomMin d a b s
  | .atomMax d a b => Sys2Proof.Machine.execAtomMax d a b s
  | .atomAnd d a b => Sys2Proof.Machine.execAtomAnd d a b s
  | .atomOr d a b => Sys2Proof.Machine.execAtomOr d a b s
  | .atomXor d a b => Sys2Proof.Machine.execAtomXor d a b s
  | .atomExch d a b => Sys2Proof.Machine.execAtomExch d a b s
  | .atomCas d a b => Sys2Proof.Machine.execAtomCas d a b s
  | .atomFadd d a b => Sys2Proof.Machine.execAtomFadd d a b s
  | .fence code => Sys2Proof.Machine.execFence code s
  | .ldt d a b => Sys2Proof.Machine.execLdt d a b s
  | .tagset d a b => Sys2Proof.Machine.execTagset d a b s
  | .taginv a => Sys2Proof.Machine.execTaginv a s
  | .ldvs d a b => Sys2Proof.Machine.execLdvs d a b s
  | .stvs d a b => Sys2Proof.Machine.execStvs d a b s
  | .ldp d a b => Sys2Proof.Machine.execLdp d a b s
  | .stp d a b => Sys2Proof.Machine.execStp d a b s
  | .fget a t => Sys2Proof.Machine.execFget a t s
  | .fput a t => Sys2Proof.Machine.execFput a t s
  | .fcopy a t => Sys2Proof.Machine.execFcopy a t s
  | .fred a t => Sys2Proof.Machine.execFred a t s
  | .ffill a t => Sys2Proof.Machine.execFfill a t s
  | .fwalk a t => Sys2Proof.Machine.execFwalk a t s
  | .frule a t => Sys2Proof.Machine.execFrule a t s
  | .fmcast a t => Sys2Proof.Machine.execFmcast a t s
  | .mcrecv a t => Sys2Proof.Machine.execMcrecv a t s
  | .tagwaitAny a => Sys2Proof.Machine.execTagwaitAny a s
  | .tagwaitAll a => Sys2Proof.Machine.execTagwaitAll a s
  | .tagff d a => Sys2Proof.Machine.execTagff d a s
  | .tagrel a => Sys2Proof.Machine.execTagrel a s
  | .chunkt d a b => Sys2Proof.Machine.execChunkt d a b s
  | .winset a b => Sys2Proof.Machine.execWinset a b s
  | .fstat d a code => Sys2Proof.Machine.execFstat d a code s
  | .rld d a b => Sys2Proof.Machine.execRld d a b s
  | .rst d a b => Sys2Proof.Machine.execRst d a b s
  | .ratomAdd d a b => Sys2Proof.Machine.execRatomAdd d a b s
  | .ratomCas d a b => Sys2Proof.Machine.execRatomCas d a b s
  | .ratomFadd d a b => Sys2Proof.Machine.execRatomFadd d a b s
  | .rfence code => Sys2Proof.Machine.execRfence code s
  | .coll a t => Sys2Proof.Machine.execColl a t s
  | .collq d a => Sys2Proof.Machine.execCollq d a s
  | .qsend a t => Sys2Proof.Machine.execQsend a t s
  | .qstat d a => Sys2Proof.Machine.execQstat d a s
  | .cslot d => Sys2Proof.Machine.execCslot d s
  | .mclaim a => Sys2Proof.Machine.execMclaim a s
  | .mrel a => Sys2Proof.Machine.execMrel a s
  | .mload d a b => Sys2Proof.Machine.execMload d a b s
  | .mma a k => Sys2Proof.Machine.execMma a k s
  | .mmag a k => Sys2Proof.Machine.execMmag a k s
  | .mzero a => Sys2Proof.Machine.execMzero a s
  | .mrd d a b => Sys2Proof.Machine.execMrd d a b s
  | .mwr d a b => Sys2Proof.Machine.execMwr d a b s
  | .mrowscl d a code => Sys2Proof.Machine.execMrowscl d a code s
  | .mcvt d a code => Sys2Proof.Machine.execMcvt d a code s
  | .mdrain d a code => Sys2Proof.Machine.execMdrain d a code s
  | .mfill d a b => Sys2Proof.Machine.execMfill d a b s
  | .mstat d a => Sys2Proof.Machine.execMstat d a s
  | .mrowred d a code => Sys2Proof.Machine.execMrowred d a code s
  | .barinit n a b => Sys2Proof.Machine.execBarinit n a b s
  | .bararr n a => Sys2Proof.Machine.execBararr n a s
  | .barwait n a => Sys2Proof.Machine.execBarwait n a s
  | .bartest d n => Sys2Proof.Machine.execBartest d n s
  | .barbytes n a => Sys2Proof.Machine.execBarbytes n a s
  | .wany d a n => Sys2Proof.Machine.execWany d a n s
  | .evmask a => Sys2Proof.Machine.execEvmask a s
  | .evclr a => Sys2Proof.Machine.execEvclr a s
  | .evget d => Sys2Proof.Machine.execEvget d s
  | .mbsend n a b => Sys2Proof.Machine.execMbsend n a b s
  | .mbrecv d n => Sys2Proof.Machine.execMbrecv d n s
  | .kinc n => Sys2Proof.Machine.execKinc n s
  | .kwaitle n a => Sys2Proof.Machine.execKwaitle n a s
  | .krd d n => Sys2Proof.Machine.execKrd d n s
  | .deadl a => Sys2Proof.Machine.execDeadl a s
  | .workget a => Sys2Proof.Machine.execWorkget a s
  | .launch a => Sys2Proof.Machine.execLaunch a s
  | .cancel a code => Sys2Proof.Machine.execCancel a code s
  | .cntrd d a code => Sys2Proof.Machine.execCntrd d a code s
  | .sysrd d addr => Sys2Proof.Machine.execSysrd d addr s
  | .syswr d addr => Sys2Proof.Machine.execSyswr d addr s
  | .trap imm => Sys2Proof.Machine.execTrap imm s
  | .tret => Sys2Proof.Machine.execTret s
  | .tsave a => Sys2Proof.Machine.execTsave a s
  | .tload a => Sys2Proof.Machine.execTload a s
  | .acrrd d => Sys2Proof.Machine.execAcrrd d s
  | .acrwr a => Sys2Proof.Machine.execAcrwr a s
  | .halt => Sys2Proof.Machine.execHalt s
  | .ctxsv a => Sys2Proof.Machine.execCtxsv a s
  | .tlbinv a => Sys2Proof.Machine.execTlbinv a s
  | .illegalOpcode w => Sys2Proof.Machine.execIllegalOpcode w s
  | .fetchFault => Sys2Proof.Machine.execFetchFault s
  | .groupTurnSwitch core slot => Sys2Proof.Machine.execGroupTurnSwitch core slot s
  | .vaultWriteApply n => Sys2Proof.Machine.execVaultWriteApply n s
  | .vaultReadReply n => Sys2Proof.Machine.execVaultReadReply n s
  | .lrHoldExpiry n => Sys2Proof.Machine.execLrHoldExpiry n s
  | .engineOpComplete core => Sys2Proof.Machine.execEngineOpComplete core s
  | .mclaimGrant core => Sys2Proof.Machine.execMclaimGrant core s
  | .mrelRelease core => Sys2Proof.Machine.execMrelRelease core s
  | .followOnMmaAccept req => Sys2Proof.Machine.execFollowOnMmaAccept req s
  | .chunkLand req chunk => Sys2Proof.Machine.execChunkLand req chunk s
  | .farRequestEnd req => Sys2Proof.Machine.execFarRequestEnd req s
  | .lintelAdmit core => Sys2Proof.Machine.execLintelAdmit core s
  | .moduleRequestArrival req modid badOffsets => Sys2Proof.Machine.execModuleRequestArrival req modid badOffsets s
  | .forcedSelfRefresh modid => Sys2Proof.Machine.execForcedSelfRefresh modid s
  | .selfRefreshExit modid => Sys2Proof.Machine.execSelfRefreshExit modid s
  | .cairnReadReturn req dramError => Sys2Proof.Machine.execCairnReadReturn req dramError s
  | .corbelSlotFilled cluster slot => Sys2Proof.Machine.execCorbelSlotFilled cluster slot s
  | .rldReply r => Sys2Proof.Machine.execRldReply r s
  | .rstAck r => Sys2Proof.Machine.execRstAck r s
  | .ratomResponse r => Sys2Proof.Machine.execRatomResponse r s
  | .remoteOpArrival op => Sys2Proof.Machine.execRemoteOpArrival op s
  | .collMessageArrival m => Sys2Proof.Machine.execCollMessageArrival m s
  | .qsendDataArrival d => Sys2Proof.Machine.execQsendDataArrival d s
  | .qsendCompletionReport req failed => Sys2Proof.Machine.execQsendCompletionReport req failed s
  | .lqWrWrite part q wr => Sys2Proof.Machine.execLqWrWrite part q wr s
  | .launchPacketRead part q => Sys2Proof.Machine.execLaunchPacketRead part q s
  | .teamPlace part => Sys2Proof.Machine.execTeamPlace part s
  | .launchBlocking part launch => Sys2Proof.Machine.execLaunchBlocking part launch s
  | .launchComplete launch => Sys2Proof.Machine.execLaunchComplete launch s
  | .gangSlotRelease gang => Sys2Proof.Machine.execGangSlotRelease gang s
  | .cancelStop team => Sys2Proof.Machine.execCancelStop team s
  | .workgetReply gang => Sys2Proof.Machine.execWorkgetReply gang s
  | .preemptRequest part n q launch => Sys2Proof.Machine.execPreemptRequest part n q launch s
  | .hwPreemptTrigger part launch => Sys2Proof.Machine.execHwPreemptTrigger part launch s
  | .preemptNoticeExpiry part => Sys2Proof.Machine.execPreemptNoticeExpiry part s
  | .contextSave team => Sys2Proof.Machine.execContextSave team s
  | .savedTeamArrival team a => Sys2Proof.Machine.execSavedTeamArrival team a s
  | .regangDeadlock gang => Sys2Proof.Machine.execRegangDeadlock gang s
  | .deadlineExpiry gang => Sys2Proof.Machine.execDeadlineExpiry gang s
  | .trapEntry gang => Sys2Proof.Machine.execTrapEntry gang s
  | .hctlResume part => Sys2Proof.Machine.execHctlResume part s
  | .hctlDiscard part => Sys2Proof.Machine.execHctlDiscard part s
  | .singleBitError part => Sys2Proof.Machine.execSingleBitError part s
  | .uncorrectableError part place => Sys2Proof.Machine.execUncorrectableError part place s
  | .scrub => Sys2Proof.Machine.execScrub s
  | .slotMarker j => Sys2Proof.Machine.execSlotMarker j s
  | .guardEnd => Sys2Proof.Machine.execGuardEnd s
  | .slotWindowClose nextMarker => Sys2Proof.Machine.execSlotWindowClose nextMarker s
  | .circtlWrite src part v => Sys2Proof.Machine.execCirctlWrite src part v s
  | .slotSetup j p => Sys2Proof.Machine.execSlotSetup j p s
  | .slotTdown j p => Sys2Proof.Machine.execSlotTdown j p s
  | .portSetup p => Sys2Proof.Machine.execPortSetup p s
  | .portTdown p => Sys2Proof.Machine.execPortTdown p s
  | .setup c peer caps version => Sys2Proof.Machine.execSetup c peer caps version s
  | .ack c caps version => Sys2Proof.Machine.execAck c caps version s
  | .nak c cause => Sys2Proof.Machine.execNak c cause s
  | .teardown c => Sys2Proof.Machine.execTeardown c s
  | .setupTimeout c => Sys2Proof.Machine.execSetupTimeout c s
  | .setupRetry c => Sys2Proof.Machine.execSetupRetry c s
  | .flitSend link => Sys2Proof.Machine.execFlitSend link s
  | .dataFlitReceive link f => Sys2Proof.Machine.execDataFlitReceive link f s
  | .nakFlitReceive link fseq => Sys2Proof.Machine.execNakFlitReceive link fseq s
  | .widthChangeFlit link f => Sys2Proof.Machine.execWidthChangeFlit link f s
  | .remapFlit link f => Sys2Proof.Machine.execRemapFlit link f s
  | .ackTimeout link => Sys2Proof.Machine.execAckTimeout link s
  | .clockRecoveryLoss chan => Sys2Proof.Machine.execClockRecoveryLoss chan s
  | .retrainComplete link end_ => Sys2Proof.Machine.execRetrainComplete link end_ s
  | .monitorSample samples => Sys2Proof.Machine.execMonitorSample samples s
  | .laserLineLoss array lam => Sys2Proof.Machine.execLaserLineLoss array lam s
  | .channelWakeComplete chan locked => Sys2Proof.Machine.execChannelWakeComplete chan locked s
  | .channelParkComplete chan => Sys2Proof.Machine.execChannelParkComplete chan s
  | .linkTgtwWrite src part link w => Sys2Proof.Machine.execLinkTgtwWrite src part link w s
  | .linkRetrain src part link => Sys2Proof.Machine.execLinkRetrain src part link s
  | .chanParkWrite src part chan park => Sys2Proof.Machine.execChanParkWrite src part chan park s
  | .pairFabreqWrite src part pair peer => Sys2Proof.Machine.execPairFabreqWrite src part pair peer s
  | .planSpare part chan ring => Sys2Proof.Machine.execPlanSpare part chan ring s
  | .planRelease part chan => Sys2Proof.Machine.execPlanRelease part chan s
  | .planRetrain part link => Sys2Proof.Machine.execPlanRetrain part link s
  | .planShare part target => Sys2Proof.Machine.execPlanShare part target s
  | .planUnshare part target recovered => Sys2Proof.Machine.execPlanUnshare part target recovered s
  | .laserSample array lam bias power => Sys2Proof.Machine.execLaserSample array lam bias power s
  | .ageingCounterSave array hours => Sys2Proof.Machine.execAgeingCounterSave array hours s
  | .partitionResourceWrite part addr v => Sys2Proof.Machine.execPartitionResourceWrite part addr v s
  | .shootdown part nseq => Sys2Proof.Machine.execShootdown part nseq s
  | .shootdownComplete part => Sys2Proof.Machine.execShootdownComplete part s
  | .flushed modid pkg part seq => Sys2Proof.Machine.execFlushed modid pkg part seq s
  | .faultQueueAck part v => Sys2Proof.Machine.execFaultQueueAck part v s
  | .moduleAttest part => Sys2Proof.Machine.execModuleAttest part s
  | .attestReportReceive modid part m => Sys2Proof.Machine.execAttestReportReceive modid part m s
  | .moduleControllerRestart modid => Sys2Proof.Machine.execModuleControllerRestart modid s
  | .attestReportRequest part => Sys2Proof.Machine.execAttestReportRequest part s
  | .attestReportWritten part => Sys2Proof.Machine.execAttestReportWritten part s
  | .hostBar2Access part offset len write => Sys2Proof.Machine.execHostBar2Access part offset len write s
  | .powerOnReset boot => Sys2Proof.Machine.execPowerOnReset boot s
  | .linkPhaseTimeout => Sys2Proof.Machine.execLinkPhaseTimeout s
  | .pcieTrained => Sys2Proof.Machine.execPcieTrained s
  | .meshPortUp port => Sys2Proof.Machine.execMeshPortUp port s
  | .opticalLightPoll chans => Sys2Proof.Machine.execOpticalLightPoll chans s
  | .channelTrainTimeout chan => Sys2Proof.Machine.execChannelTrainTimeout chan s
  | .powerStateRequest req => Sys2Proof.Machine.execPowerStateRequest req s
  | .thermalSample temps watts => Sys2Proof.Machine.execThermalSample temps watts s
  | .registerWrite src part addr v => Sys2Proof.Machine.execRegisterWrite src part addr v s
  | .controlMeshPortDown port => Sys2Proof.Machine.execControlMeshPortDown port s
  | .windowTableLoad modid ws => Sys2Proof.Machine.execWindowTableLoad modid ws s
  | .clockRampComplete => Sys2Proof.Machine.execClockRampComplete s
  | .spareRingLock chan locked => Sys2Proof.Machine.execSpareRingLock chan locked s
  | .channelTrainingComplete chan => Sys2Proof.Machine.execChannelTrainingComplete chan s

end Sys2Proof.Machine
end

