-- ==== Sys2Proof/Machine/Schedule.lean ====
section
/-! DEFINITION. What the machine may do of itself in a state (log 1), and the order in which the gangs of its sub-cores
issue (R29, R307, R308). -/

namespace Sys2Proof.Machine

/-! ### Time -/

/-- n core cycles pass for a gang: an armed deadline falls, and one that reaches 0 latches and disarms (R332). -/
def Gang.deadlineFalls (g : Gang) (n : Nat) : Gang :=
  if g.deadline = 0 then g
  else if n < g.deadline then { g with deadline := g.deadline - n }
  else { g with deadline := 0 }.latch 18

/-- n core cycles pass for the groups of a gang: idle cycles after a word run out (R68). -/
def Gang.idlePasses (g : Gang) (n : Nat) : Gang :=
  { g with groups := g.groups.map (fun x => { x with idle := x.idle - n }) }

/-- A gang changed by f, in every gang of the package. -/
def State.modGangs (s : State) (f : Gang → Gang) : State :=
  (listed s.gangs).foldl (fun acc e => acc.putGang e.1 (f e.2)) s

/-- The deadlines of the gangs that are resident fall by n (R332). -/
def State.deadlinesFall (s : State) (n : Nat) : State :=
  s.modGangs (fun g => if s.resident g then g.deadlineFalls n else g)

/-- n core cycles pass: the clock advances, and idle cycles run out. -/
def State.clockOn (s : State) (n : Nat) : State := ({ s with now := s.now + n } : State).modGangs (fun g => g.idlePasses n)

/-! ### Steps that no word names -/

/-- A step of the machine. -/
abbrev Move := State → Host.Outcome State Fault Refusal

/-- Traps and turns that are due. -/
def State.gangSteps (s : State) : List Move :=
  (listed s.gangs).flatMap (fun e =>
    (if s.acts e.2 && e.2.trapDue.isSome then [execTrapEntry e.1] else []) ++
    (if s.acts e.2 && e.2.turnIssues == 32 then [execGroupTurnSwitch e.2.core e.2.slot] else []) ++
    (if e.2.deadlocked then [execRegangDeadlock e.1] else []) ++
    (if e.2.workget.isSome then [execWorkgetReply e.1] else []) ++
    (if e.2.ended then [execGangSlotRelease e.1] else []))

/-- WORKGETs that have outlived their gangs. -/
def State.teamSteps (s : State) : List Move :=
  (listed s.teams).flatMap (fun e => e.2.workgets.map (fun w => execWorkgetReply w.1))

/-- Vault requests that may be applied or answered, and accesses to scratchpads by rank. -/
def State.vaultSteps (s : State) : List Move :=
  (s.holds.filter (fun h => !s.inForce h)).map (fun h => execLrHoldExpiry h.id) ++
  (s.vreqs.filter (fun r => r.kind != VaultKind.booked)).map (fun r => if r.kind.writes then execVaultWriteApply r.id else execVaultReadReply r.id) ++
  s.preqs.map (fun r => execPad r.id)

/-- Steps of the engines and claims of the cores in use. -/
def State.coreSteps (s : State) : List Move :=
  (s.cores.filter (fun c => !c.2.engine.isEmpty)).map (fun c => execEngineOpComplete c.1) ++
  ((listed s.gangs).filter (fun e => e.2.groups.any (fun x => x.park.isSome))).flatMap (fun e =>
    [execLintelAdmit e.2.core, execMclaimGrant e.2.core, execMrelRelease e.2.core])

/-- Steps of one far request. -/
def State.requestSteps (s : State) (id : Nat) (r : FarReq) : List Move :=
  (r.modules.filter (fun m => !r.arrived.contains m)).map (fun m => execModuleRequestArrival id m []) ++
  (if r.walk.isSome then [execCairnReadReturn id false] else []) ++
  r.chunks.map (fun k => execChunkLand id k) ++
  (if r.follow.isSome then [execFollowOnMmaAccept id] else []) ++
  (match r.kind with
   | .mcast c n _ _ _ => [execCorbelSlotFilled c n]
   | _ => []) ++
  (if s.isSaved r.team then [execSavedTeamArrival r.team (.requestEnd id)] else [execFarRequestEnd id])

/-- A message of a peer that has arrived is performed; an answer to a saved gang goes to its image. -/
def State.messageSteps (s : State) : NetMsg → List Move
  | .remote op => [execRemoteOpArrival op]
  | .qdata d => [execQsendDataArrival d]
  | .coll m => [execCollMessageArrival m]
  | .reply r => match s.remote? r.ident with
    | none => []
    | some o => match s.gang? o.gang with
      | none => [execRldReply r, execRstAck r, execRatomResponse r]
      | some g =>
        if s.isSaved g.team then [execSavedTeamArrival g.team (.reply o.gang r)]
        else [execRldReply r, execRstAck r, execRatomResponse r]

/-- Steps of the distributor and of the housekeeping of a partition. -/
def State.partSteps (s : State) (n : Nat) (p : Partition) : List Move :=
  (p.queues.filter (fun q => q.2.en && q.2.wr != q.2.rd)).map (fun q => execLaunchPacketRead n q.1) ++
  (if (s.partLaunches n).any (fun e => s.wantsPlace e.1 e.2) || !p.notices.isEmpty then [execTeamPlace n] else []) ++
  (if p.shootBusy then [execShootdownComplete n] else []) ++
  (if p.abusy then [execAttestReportWritten n] else [])

/-- The steps that the machine may take of itself, in the order in which this model tries them (log 1). -/
def State.ownSteps (s : State) : List Move :=
  s.gangSteps ++ s.teamSteps ++ s.vaultSteps ++ s.coreSteps ++
  (listed s.reqs).flatMap (fun e => s.requestSteps e.1 e.2) ++
  (s.modules.filter (fun m => m.2.asked)).map (fun m => execRefreshGrant m.1) ++
  s.inbound.flatMap s.messageSteps ++
  ((listed s.teams).filter (fun e => e.2.saving)).map (fun e => execContextSave e.1) ++
  (listed s.launches).map (fun e => execLaunchComplete e.1) ++
  s.parts.flatMap (fun e => s.partSteps e.1 e.2) ++
  (if s.house.ramping && s.house.cur == 2 && !s.house.polled then [execOpticalLightPoll []] else []) ++
  (if s.house.entering.isSome || s.house.ramping then [execClockRampComplete] else [])

/-! ### The order of issue -/

/-- The gang has a group that may issue, and no trap comes first. -/
def State.mayIssue (s : State) (g : Gang) : Bool := s.acts g && g.trapDue.isNone && g.groups.any Group.issuable

/-- The sub-core of a gang: four to a core. -/
def Gang.subcore (g : Gang) : Nat := 4 * g.core + subcoreOf g.slot

/-- Gang a is older than gang b, or the same (R308). -/
def State.older (s : State) (a b : Gang) : Bool :=
  let o := fun (g : Gang) => match s.team? g.team with
    | some t => t.order
    | none => 0
  decide (o a < o b) || (o a == o b && decide (a.index ≤ b.index))

/-- A YIELD of the gang lets the others of its sub-core come first in this cycle (R124). -/
def State.hangsBack (s : State) (g : Gang) : Bool := g.yielded == some s.now

/-- Gang a comes before gang b on its sub-core (R308, R124). -/
def State.before (s : State) (a b : Gang) : Bool :=
  let w := fun (g : Gang) => decide (64 ≤ s.now - g.waitFrom)
  if s.hangsBack a != s.hangsBack b then s.hangsBack b
  else if w a && w b then decide (a.waitFrom < b.waitFrom) || (a.waitFrom == b.waitFrom && s.older a b)
  else if w a then true
  else if w b then false
  else s.older a b

/-- Where the search for the group whose turn it is begins: at the group that has the turn, or behind it once it has issued for
32 cycles or given the turn up (R29, R307, R309). -/
def Gang.turnFrom (g : Gang) : Nat := if 32 ≤ g.turnIssues then g.turn + 1 else g.turn

/-- The groups of a gang that satisfy f, from the one whose turn it is (R29, R307). -/
def Gang.turnsOf (g : Gang) (f : Group → Bool) : List SliceMask :=
  let xs := (g.groups.filter f).map Group.slices
  xs.filter (fun m => decide (g.turnFrom ≤ lowestSlice m)) ++ xs.filter (fun m => decide (lowestSlice m < g.turnFrom))

/-- The groups of a gang that may issue, from the one whose turn it is. -/
def Gang.turns (g : Gang) : List SliceMask := g.turnsOf Group.issuable

/-- An f64 instruction of the vector unit still holds the issue of the sub-core (R116). -/
def State.issueHeld (s : State) (sub : Nat) : Bool := decide (s.now < Tbl.get 0 s.issueFrom sub)

/-- The groups of one sub-core that may issue, in the order in which they are tried: gangs as R308 gives, groups of a gang
as R29 gives. -/
def State.issueOrder (s : State) (sub : Nat) : List (Nat × SliceMask) :=
  if s.issueHeld sub then []
  else (((listed s.gangs).filter (fun e => e.2.subcore == sub && s.mayIssue e.2)).sortedBy (fun a b => s.before a.2 b.2)).flatMap
    (fun e => e.2.turns.map (fun m => (e.1, m)))

/-- The sub-cores on which some gang may issue, in increasing number (R164, R273). -/
def State.subcores (s : State) : List Nat :=
  (((listed s.gangs).filter (fun e => s.mayIssue e.2)).map (fun e => e.2.subcore)).dedup.sortedBy (fun a b => decide (a ≤ b))

/-! ### A program placed from outside (log 2) -/

/-- The launch that a placed program belongs to. -/
def placedLaunch (order : Nat) : Launch :=
  { part := 0, lid := 0, prio := 0, irq := false, igncxl := false, vec := 0, entry := 0x10000#56, vregs := 192, gangs := 1,
    cores := 1, scratch := 1048576, total := 1, graph := 0, phase := 0, job := 0, cpla := 0, args := [], priv := true,
    preds := [], order := order, readyAt := order, nextTid := 0, gone := 0, counted := 0, cancelled := false,
    stopped := false, blocking := false }

/-- Partition 0 holds the cluster of a core and the lowest 64 MiB of the vault, mapped at the same addresses (Tables 16.4 and
16.5). -/
def Partition.placed (core : Nat) (p : Partition) : Partition :=
  { p with clusters := p.clusters ||| BitVec.ofNat 40 (2 ^ clusterOf core), vbase := 0, vsize := 1024, ptbase := 0, topbits := 0, halted := false }

/-- Its page tables: one root entry, and one leaf of 64 MiB that may be read, written and executed. -/
def placedTables (m : Memory) : Memory := Memory.writeNat (Memory.writeNat m 0 8 0x111) 0x100 8 0x2D

/-- A program of one word is loaded: the package is READY, and a team of one gang stands at the word, on the lowest core that
holds no gang, whose sub-core 0 is to issue. -/
def State.placeWord (s : State) (w : Nat) : State :=
  let core := ((List.range 160).find? (fun k => (s.gangsOn k).isEmpty)).getD 0
  let s1 := { s with house := { s.house with phase := 5 },
                     vault := Memory.writeNat (placedTables s.vault) 0x10000 4 w,
                     tlb := s.tlb.filter (fun c => c.part != 0),
                     next := s.next + 1 }
  let s2 := (s1.modPart 0 (Partition.placed core)).putLaunch s.next (placedLaunch s.next)
  let s3 := s2.placeNew s.next (placedLaunch s.next) [core]
  { s3 with agenda := .issues [4 * core] :: s.agenda }

end Sys2Proof.Machine
end

