-- ==== Sys2Proof/Machine/Issue.lean ====
section
/-! DEFINITION. Issuing words: fetch, decode, execute (R53, R54, R56, R478), and the cycle in which every sub-core issues
one (R308) and every barrier takes one update (R321). -/

namespace Sys2Proof.Machine

/-- A word that a constrained loop may hold, by opcode (R223, Table 3.1): none that accesses memory but its LR and SC, asks an
engine for something, or is a WANY, a barrier instruction, a REGANG or a YIELD. -/
def loopWord (w : BitVec 32) : Bool :=
  let op := w.toNat / 2 ^ 24
  let within := fun (a b : Nat) => decide (a ≤ op) && decide (op ≤ b)
  let memory := within 0x68 0x7E && op != 0x6C && op != 0x6D && op != 0x77 || within 0x90 0x94 || op == 0xC0 || within 0xF4 0xF5
  let engine := within 0x80 0x88 || op == 0x96 || op == 0x98 || within 0xA0 0xAD
  !(memory || engine || within 0xB0 0xB5 || op == 0x09 || op == 0x0A)

/-- A group issues the word at a PC: if no constrained loop may hold it, the holds of the group's lanes are no longer those of one
(R223). -/
def State.leaveLoop (s : State) (id : Nat) (m : SliceMask) (pc : VAddr) : State :=
  let stays := match s.fetchWord (s.gangPart id) pc with
    | .ok w => loopWord w
    | .error _ => false
  { s with holds := if stays then s.holds else s.holds.map (fun h =>
      if h.gang = id ∧ m.getLsbD (sliceOf h.lane) = true then { h with bare := false } else h) }

/-- The group takes the issue slot: its page is cached (R396), and its gang's turn and wait count the issue (R29, R308). -/
def State.beginIssue (s : State) (id : Nat) (m : SliceMask) : State :=
  let pc : VAddr := match s.gang? id with
    | some g => match g.group? m with
      | some x => x.pc
      | none => 0
    | none => 0
  let s1 := ((s.leaveLoop id m pc).cache (s.gangPart id) pc.toNat).modGang id (fun g =>
    { g with turn := lowestSlice m, turnIssues := (if g.turn = lowestSlice m ∧ g.turnIssues < 32 then g.turnIssues + 1 else 1),
             waitFrom := s.now })
  { s1 with cur := some ⟨id, m⟩ }

/-- The word raises ILLEGAL_ENCODING (R56). -/
def State.illegalEncoding (s : State) : Host.Outcome State Fault Refusal :=
  withIssue s fun c => c.run none (c.raise Cause.illegalEncoding)

/-- What a decoded word does. -/
def State.execWord (s : State) (w : BitVec 32) : Host.Outcome State Fault Refusal :=
  match decode w with
  | .ok i => exec i s
  | .error .illegalOpcode => exec (.illegalOpcode w) s
  | .error .illegalEncoding => s.illegalEncoding

/-- The group that holds the issue slot fetches its word, and it executes. -/
def State.execNext (s : State) : Host.Outcome State Fault Refusal :=
  withIssue s fun c => match s.fetchWord c.part c.pc with
    | .error _ => exec .fetchFault s
    | .ok w => s.execWord w

/-- The groups of a gang; none if it is no more. -/
def State.groupsOf (s : State) (id : Nat) : Option (List Group) := (s.gang? id).map Gang.groups

/-- A group of a gang of the state may issue. -/
def State.mayIssueAs (s : State) (id : Nat) (m : SliceMask) : Bool := match s.gang? id with
  | some g => s.mayIssue g && g.groups.any (fun x => x.slices == m && x.issuable)
  | none => false

/-- The group's next word is an f64 instruction of the vector unit: one of 0x10 to 0x66 that reads ETYPE (R115, R116, Table
3.1). -/
def State.f64Word (s : State) (id : Nat) (m : SliceMask) : Bool := match s.gang? id with
  | none => false
  | some g => Mr.etype (g.mrOf (lowestSlice m)) == 11 && match g.group? m with
    | none => false
    | some x => match s.fetchWord (s.gangPart id) x.pc with
      | .error _ => false
      | .ok w =>
        let op := w.toNat / 2 ^ 24
        decide (0x10 ≤ op) && decide (op ≤ 0x66) && op != 0x26 && op != 0x27 && !(decide (0x38 ≤ op) && decide (op ≤ 0x3F))

/-- In t, which the presentation of a group's word in s gave, the group has gone on to the next word. -/
def State.wentOn (s : State) (id : Nat) (m : SliceMask) (t : State) : Bool := match s.gang? id, t.gang? id with
  | some g, some h => match g.group? m, h.group? m with
    | some x, some y => y.pc == x.pc + 4
    | _, _ => false
  | _, _ => false

/-- In t, which the presentation of a gang's word in s gave, the word was stalled: its groups stand as they stood, and it may
still issue. -/
def State.stalledIn (s : State) (id : Nat) (t : State) : Bool := t.groupsOf id == s.groupsOf id && match t.gang? id with
  | some g => t.mayIssue g
  | none => false

/-- The sub-core of a gang issues nothing in the next cycle (R116). -/
def State.holdIssue (s : State) (id : Nat) : State := match s.gang? id with
  | some g => { s with issueFrom := Tbl.set 0 s.issueFrom g.subcore (s.now + 2) }
  | none => s

/-- The issue slot is given up: a group that was stalled gives its turn up (R29, R307), and an f64 instruction of the vector unit
that has executed holds its sub-core's issue for another cycle (R116). -/
def State.endIssue (s t : State) (id : Nat) (m : SliceMask) : State :=
  let u := { t with cur := none }
  if s.stalledIn id t then u.modGang id Gang.yieldTurn
  else if s.f64Word id m && s.wentOn id m t then u.holdIssue id
  else u

/-- One presentation of a group's next word. -/
def State.present (s : State) (id : Nat) (m : SliceMask) : Host.Outcome State Fault Refusal :=
  match (s.beginIssue id m).execNext with
  | .next t => .next (s.endIssue t id m)
  | .fault r => .fault r
  | .refused r => .refused r

/-! ### Readiness -/

/-- What the presentation of a group's next word comes to: the state after it, and whether the word was stalled. -/
def State.tries (s : State) (id : Nat) (m : SliceMask) : State × Bool := match s.present id m with
  | .next t => (t, s.stalledIn id t)
  | _ => (s, true)

/-- The group is ready (R307): it is not parked and idles no more, no interlock holds its next word, and its unit can accept
the word, for it would execute. -/
def State.ready (s : State) (id : Nat) (m : SliceMask) : Bool := s.mayIssueAs id m && !(s.tries id m).2

/-- A gang whose groups, of which those of f are ready, have been looked at for a cycle: a group that has the turn and is not
ready yields it, and the next ready group takes it (R307); the wait of a gang that is not ready restarts (R308). -/
def Gang.surveyed (g : Gang) (now : Nat) (f : SliceMask → Bool) : Gang :=
  match g.turnsOf (fun x => f x.slices) with
  | [] => { g.yieldTurn with waitFrom := now }
  | m :: _ => if lowestSlice m = g.turn ∧ g.turnIssues < 32 then g else { g with turn := lowestSlice m, turnIssues := 0 }

/-- The stalled groups of a gang wait at their instructions: their results that a wait makes visible are visible (R74). -/
def State.waits (s : State) (id : Nat) (ms : List SliceMask) : State :=
  ms.foldl (fun acc m => match (acc.tries id m).1.gang? id with
    | some g' => acc.modGang id (fun g => { g' with turn := g.turn, turnIssues := g.turnIssues, waitFrom := g.waitFrom })
    | none => acc) s

/-- A gang looked at for a cycle. -/
def State.surveyGang (s : State) (id : Nat) (g : Gang) : State :=
  let ms := (g.groups.map Group.slices).filter (s.mayIssueAs id)
  let ready := ms.filter (s.ready id)
  (s.waits id (ms.filter (fun m => !ready.contains m))).modGang id (fun x => x.surveyed s.now ready.contains)

/-- Every gang looked at for a cycle. -/
def State.survey (s : State) : State := (listed s.gangs).foldl (fun acc e => acc.surveyGang e.1 e.2) s

/-- A cycle begins: what has happened since the last one settles, and the groups that are ready are known. -/
def State.begun (s : State) : State := s.settle.survey

/-- Where the group whose word a sub-core is to issue fetches it: the head of the agenda names the sub-core. -/
def State.fetchPlace (s : State) : Option Nat := match s.agenda with
  | .issues (k :: _) :: _ => match (s.begun.issueOrder k).head? with
    | some (id, m) => match s.gang? id with
      | some g => match g.group? m with
        | some x => match s.access (s.gangPart id) x.pc.toNat 4 Need.fetch with
          | .ok pa => some pa
          | .error _ => none
        | none => none
      | none => none
    | none => none
  | _ => none

/-! ### A cycle -/

/-- Barriers of saved teams take their one update of the cycle too, in their images (R321, R425). -/
def State.updateSaved (s : State) : State :=
  (listed s.teams).foldl (fun acc e =>
    if e.2.status == .saved && !e.2.complete.isEmpty then
      acc.onImage e.1 (fun s => s.throughImage e.1 (fun s => s.flipComplete e.1 e.2))
    else acc) s

/-- The one update of every barrier in a cycle (R321). -/
def State.barrierCycle (s : State) : State := s.updateBarriers.updateSaved

/-- The state at the end of a cycle, which a WANY sees: deadlines have fallen, and what is due has settled (R338). -/
def State.evening (s : State) : State := (s.deadlinesFall 1).settle

/-- The part of its cycle in which a word takes effect. 0: it meets the state as the cycle found it, where others change it in
the cycle: reads of registers and clears of events (R6, R334), BARINIT (R318, R325) and MBRECV (R330). 1: the others. 2: it
meets the barriers after their update (R324, R325), a write of a register prevails (R6), and a CANCEL finds the teams that have
ended in the cycle ended (R302). 3: WANY, which meets the state at the end of the cycle (R338). -/
def partOf : Instr → Nat
  | .sysrd _ _ => 0
  | .evget _ => 0
  | .evclr _ => 0
  | .barinit _ _ _ => 0
  | .mbrecv _ _ => 0
  | .bartest _ _ => 2
  | .barwait _ _ => 2
  | .syswr _ _ => 2
  | .cancel _ _ => 2
  | .wany _ _ _ => 3
  | _ => 1

/-- The part of the cycle in which the group's next word takes effect. -/
def State.partAt (s : State) (id : Nat) (m : SliceMask) : Nat :=
  match s.gang? id with
  | none => 1
  | some g => match g.group? m with
    | none => 1
    | some x => match s.fetchWord (s.gangPart id) x.pc with
      | .ok w => match decode w with
        | .ok i => partOf i
        | .error _ => 1
      | .error _ => 1

/-- The word that a sub-core issues in a cycle that has begun, if it issues one: the first of its groups, in the order of issue,
that is ready (R307, R308), with the part of the cycle in which the word takes effect. -/
def State.pick (s : State) (sub : Nat) : Option (Nat × SliceMask × Nat) :=
  ((s.issueOrder sub).find? (fun x => s.ready x.1 x.2)).map (fun x => (x.1, x.2, s.partAt x.1 x.2))

/-- The word of a pick is presented, if its group may still issue; one that another word of the cycle has stalled does not
issue. -/
def State.issuePick (s : State) (p : Nat × SliceMask × Nat) : State :=
  if s.mayIssueAs p.1 p.2.1 then
    let (t, stalled) := s.tries p.1 p.2.1
    if stalled then s.waits p.1 [p.2.1] else t
  else s

/-- Part n of a cycle: the words that take effect in it, in the order of the picks. -/
def State.issuePart (s : State) (n : Nat) (ps : List (Nat × SliceMask × Nat)) : State :=
  (ps.filter (fun p => p.2.2 == n)).foldl State.issuePick s

/-- The words of a cycle that has begun: each of the sub-cores, in increasing number, issues one (R164, R273, R308), each word
in its part of the cycle; the barriers take their update between parts 1 and 2 (R321). -/
def State.words (s : State) (subs : List Nat) : State :=
  let ps := subs.filterMap s.pick
  ((((s.issuePart 0 ps).issuePart 1 ps).barrierCycle.issuePart 2 ps).evening).issuePart 3 ps

/-- A cycle in which these sub-cores issue. -/
def State.cycle (s : State) (subs : State → List Nat) : State :=
  let s0 := s.begun
  { (s0.words (subs s0)).clockOn 1 with risen := [] }

/-- n cycles pass in which no word issues. -/
def State.ticks (s : State) : Nat → State
  | 0 => s
  | n + 1 => (s.cycle (fun _ => [])).ticks n

/-- The first of these steps that changes the state. -/
def State.firstStep (s : State) : List Move → Option State
  | [] => none
  | f :: fs =>
    match f s with
    | .next t => if t = s then State.firstStep s fs else some t
    | _ => State.firstStep s fs

/-- What happens when nothing outside decides it (log 1): a step of the machine's own; else
a cycle passes in which every sub-core issues. -/
def State.default (s : State) : State :=
  match s.firstStep s.ownSteps with
  | some t => t
  | none => s.cycle State.subcores

/-- The instruction executes only as the word of a group that issues. -/
def isWord (i : Instr) : Bool := (encode i).isSome || match i with
  | .illegalOpcode _ => true
  | .fetchFault => true
  | _ => false

/-- One happening that the agenda names. Words execute only by being fetched. -/
def State.happen (s : State) : Stimulus → Host.Outcome State Fault Refusal
  | .event i => if isWord i then .next s else exec i s
  | .tick n => .next (s.ticks n)
  | .issues ks => .next (s.cycle (fun _ => ks.dedup.sortedBy (fun a b => decide (a ≤ b))))
  | .pad n => execPad n s
  | .refresh modid => .next (s.askRefresh modid)
  | .hostReads src part addr => .next (s.hostRegister src part addr)
  | .evict part va => .next { s with tlb := s.tlb.filter (fun c => !(c.part == part && c.va == va)) }

end Sys2Proof.Machine
end

