-- ==== Sys2Proof/Machine/Step.lean ====
section
/-! DEFINITION. One step of the machine. -/

namespace Sys2Proof.Machine

/-- One step: the head of the agenda, which what is outside decides; with an empty agenda, the default order (log 1). -/
def step (s : State) : Host.Outcome State Fault Refusal :=
  match s.agenda with
  | x :: rest => State.happen { s with agenda := rest } x
  | [] => .next s.default

/-- The state with a word where the next step fetches: at the PC of the group that the agenda names next, else in a program
of one word placed from outside (log 2). -/
def State.withFetchWord (s : State) (nbits w : Nat) : State :=
  let x := w % 2 ^ nbits
  match s.fetchPlace with
  | some pa => { s with vault := Memory.writeNat s.vault pa 4 x }
  | none => s.placeWord x

end Sys2Proof.Machine
end

