-- ==== Sys2Proof/Safety.lean ====
section
/-! DEFINITION. The terms in which claims speak: what a register comes to read as, what an executed word leaves, and the
forms that a sound state keeps. -/

namespace Sys2Proof.Machine

/-! ### What registers come to read as -/

/-- The value an element of a gang has once every result on its way has become visible (R74). -/
def Gang.settled (g : Gang) (e : RegElem) : Word := g.commitAll.elem e

/-- A gang without its registers, the results on their way and its groups: what a frame keeps whole. -/
def Gang.rest (g : Gang) : Gang := { g with v := [], s := [], p := [], pend := [], flight := [], groups := [] }

/-- The groups of the gang of c when its own group stands at pc, waiting for nothing but its idle cycles (R68); the others
as they are. -/
def Ctx.groupsAt (c : Ctx) (pc : VAddr) : List Group :=
  c.g.groups.map (fun x => if x.slices == c.slices then
    { x with pc := pc, park := none, deliver := false, idle := Mr.cad c.mr + 1 } else x)

/-- Executing i in s answers a next state, and P holds of it. -/
def Gives (i : Instr) (s : State) (P : State → Prop) : Prop := ∃ t, exec i s = .next t ∧ P t

/-- The word of c has executed, t is the state after it. In t only the gang of c differs from s1. That gang is g1 but for its
registers, whose elements come to read as f; its group goes on at pc. -/
def Ctx.went (c : Ctx) (s1 : State) (g1 : Gang) (pc : VAddr) (f : RegElem → Word) (t : State) : Prop :=
  ∃ g', t = s1.putGang c.id g' ∧ g'.rest = g1.rest ∧ g'.groups = c.groupsAt pc ∧ ∀ e, g'.settled e = f e

/-- The word of c has executed, changed nothing outside the registers of its gang, and the group goes on at the next word. -/
def Ctx.wrote (c : Ctx) (f : RegElem → Word) (t : State) : Prop := c.went c.s c.g (c.pc + 4) f t

/-- The elements after a result with destination d, which is f l in the lanes l that take effect; a scalar destination takes
the result of lane 0 under once(); a wide result takes the pair, the even register low (R32, R36, R44, R45). -/
def Ctx.result (c : Ctx) (d : RegField) (wide : Bool) (f : Nat → Nat) : RegElem → Word
  | .v r l =>
    if d.toNat < 0xC0 ∧ l < 32 ∧ c.takes l = true ∧ r = d.toNat then BitVec.ofNat 32 (f l)
    else if d.toNat < 0xC0 ∧ l < 32 ∧ c.takes l = true ∧ wide = true ∧ r = d.toNat + 1 then BitVec.ofNat 32 (f l / 2 ^ 32)
    else c.g.settled (.v r l)
  | .s i =>
    if 0xC0 ≤ d.toNat ∧ d.toNat < 0xF8 ∧ c.once = true ∧ i = d.toNat - 0xC0 then BitVec.ofNat 32 (f 0)
    else if 0xC0 ≤ d.toNat ∧ d.toNat < 0xF8 ∧ c.once = true ∧ wide = true ∧ i = d.toNat - 0xC0 + 1 then
      BitVec.ofNat 32 (f 0 / 2 ^ 32)
    else c.g.settled (.s i)
  | .p i l => c.g.settled (.p i l)

/-- The elements after a result with predicate destination d, which is f l in the lanes l that take effect; a write to p63 is
discarded (R32, R38). -/
def Ctx.predResult (c : Ctx) (d : PredField) (f : Nat → Bool) : RegElem → Word
  | .p i l =>
    if d.toNat ≠ 63 ∧ l < 32 ∧ c.takes l = true ∧ i = d.toNat then (if f l then 1 else 0) else c.g.settled (.p i l)
  | e => c.g.settled e

/-- The flags that the lanes of a data instruction with destination d raise: of every lane that takes effect, or of lane 0
under once() (R45, R100). -/
def Ctx.raised (c : Ctx) (d : RegField) (f : Nat → Flags) : Flags := Flags.orAll ((c.lanesFor d).map f)

/-- ACR after a data instruction with destination d: its flags set, and SEED advanced once if it rounds under srd and acts
in some lane (R100, R107). -/
def Ctx.acrAfter (c : Ctx) (d : RegField) (srd : Bool) (f : Nat → Flags) : Word :=
  let acr := Acr.set c.g.acr (c.raised d f)
  if srd && !(c.lanesFor d).isEmpty then Acr.advance acr else acr

/-- A data instruction with destination d has executed: f gives each lane's result and flags (R114). -/
def Ctx.computed (c : Ctx) (d : RegField) (wide srd : Bool) (f : Nat → Nat × Flags) (t : State) : Prop :=
  c.went c.s { c.g with acr := c.acrAfter d srd (fun l => (f l).2) } (c.pc + 4) (c.result d wide (fun l => (f l).1)) t

/-- The word of c wrote these elements of its gang, changed nothing else, and the group goes on at the next word. -/
def Ctx.wroteAt (c : Ctx) (ws : List (RegElem × Word)) (t : State) : Prop :=
  c.wrote (fun e => match ws.find? (fun w => w.1 == e) with
    | some w => w.2
    | none => c.g.settled e) t

/-- The group of c has parked at its word: p says why. Its results on their way are visible (R74, R312), and it has given up its
turn (R309); nothing else of the machine has changed but the count that orders parks. -/
def Ctx.parked (c : Ctx) (p : Park) (t : State) : Prop :=
  ∃ g', t = State.putGang { c.s with next := c.s.next + 1 } c.id g' ∧ g'.rest = (c.g.givesTurn c.slices).rest ∧
    (∀ e, g'.settled e = c.g.settled e) ∧
    g'.groups = c.g.groups.map (fun x => if x.slices == c.slices then
      { x with park := some p, since := c.s.next, idle := Mr.cad c.mr + 1 } else x)

/-- A branch has executed: the slices that take it go on at target, the others at the next word, as one group if all decide
alike, else as two (R27). -/
def Ctx.branched (c : Ctx) (take : Nat → Bool) (target : VAddr) (t : State) : Prop :=
  ∃ yes no : SliceMask,
    (∀ i < 8, yes.getLsbD i = (c.slices.getLsbD i && take i)) ∧ (∀ i < 8, no.getLsbD i = (c.slices.getLsbD i && !take i)) ∧
    (yes = 0 → c.wrote c.g.settled t) ∧
    (yes ≠ 0 → no = 0 → c.went c.s c.g target c.g.settled t) ∧
    (yes ≠ 0 → no ≠ 0 → ∃ g', t = c.s.putGang c.id g' ∧ g'.rest = c.g.rest ∧ (∀ e, g'.settled e = c.g.settled e) ∧
      ∀ x, x ∈ g'.groups ↔ (x ∈ c.g.groups ∧ x.slices ≠ c.slices) ∨
        x = { slices := yes, pc := target, park := none, since := 0, idle := Mr.cad c.mr + 1 } ∨
        x = { slices := no, pc := c.pc + 4, park := none, since := 0, idle := Mr.cad c.mr + 1 })

/-! ### Vault accesses -/

/-- The physical address of lane l's vault access, 0 if it faults (R194). -/
def Ctx.physical (c : Ctx) (a b : RegField) (need : Need) (l : Nat) : Nat :=
  match c.s.access c.part (c.vaddr a b l) c.size need with
  | .ok pa => pa
  | .error _ => 0

/-- No lane's vault access faults (R194), nor finds an error that cannot be corrected (R430). -/
def Ctx.reaches (c : Ctx) (lanes : List Nat) (a b : RegField) (need : Need) : Prop :=
  ∀ l ∈ lanes, ∃ pa, c.s.access c.part (c.vaddr a b l) c.size need = .ok pa ∧
    c.s.spoiled pa c.size need = false

/-- The word of c has executed, and has put one vault request of each lane on its way, in increasing lane order: pa, kind and
dst give the physical address, what is done and the elements that receive the result, which are awaited from then on (R75,
R204). The vault itself, every register and every other gang are as they were. -/
def Ctx.requested (c : Ctx) (lanes : List Nat) (pa : Nat → Nat) (kind : Nat → VaultKind) (dst : Nat → List RegElem)
    (t : State) : Prop :=
  t = { c.s with gangs := t.gangs, vreqs := t.vreqs, vc := t.vc, tlb := t.tlb, next := t.next } ∧
  t.vreqs.take c.s.vreqs.length = c.s.vreqs ∧
  (t.vreqs.drop c.s.vreqs.length).map (fun r => (r.actor, r.agent, r.pa, r.size, r.kind, r.dst)) =
    lanes.map (fun l => (Actor.lane c.id l, c.agent, pa l, c.size, kind l, dst l)) ∧
  (∀ j, j ≠ c.id → t.gang? j = c.s.gang? j) ∧
  ∃ g', t.gang? c.id = some g' ∧ g'.groups = c.groupsAt (c.pc + 4) ∧ (∀ e, g'.settled e = c.g.settled e) ∧
    g'.rest = { c.g.rest with awaits := g'.awaits } ∧
    g'.awaits.map Await.dest = c.g.awaits.map Await.dest ++ lanes.flatMap dst

/-- The word of c has executed, and has put one access to a scratchpad of each lane on its way, in increasing lane order: own
tells one to the own core's by an offset alone from one by rank, kind gives what it does, at_ the core and the offset, dst the
elements that receive the result, which are awaited from then on (R75, R199, R260, R261, R263). Everything else, every byte of
every scratchpad among it, is as it was. -/
def Ctx.padRequested (c : Ctx) (own : Bool) (lanes : List Nat) (kind : Nat → VaultKind) (at_ : Nat → Nat × Nat)
    (dst : Nat → List RegElem) (t : State) : Prop :=
  t = { c.s with gangs := t.gangs, preqs := t.preqs, next := t.next } ∧
  t.preqs.take c.s.preqs.length = c.s.preqs ∧
  (t.preqs.drop c.s.preqs.length).map (fun r => (r.gang, r.team, r.core, r.own, r.off, r.size, r.kind, r.etype, r.dst)) =
    lanes.map (fun l => (c.id, c.g.team, (at_ l).1, own, (at_ l).2, c.size, kind l, BitVec.ofNat 4 c.etype, dst l)) ∧
  (∀ j, j ≠ c.id → t.gang? j = c.s.gang? j) ∧
  ∃ g', t.gang? c.id = some g' ∧ g'.groups = c.groupsAt (c.pc + 4) ∧ (∀ e, g'.settled e = c.g.settled e) ∧
    g'.rest = { c.g.rest with awaits := g'.awaits } ∧
    g'.awaits.map Await.dest = c.g.awaits.map Await.dest ++ lanes.flatMap dst

/-! ### The matrix engine -/

/-- The matrix instruction of c has executed. Outside its gang and its core only cached translations, the numbers given
out and the clocks have changed, and the clocks are vc; its gang is g1 but for its registers, whose elements come to read as
f, its group goes on at the next word, and P holds of its core. -/
def Ctx.workedMerging (c : Ctx) (vc : Tbl (List (BitVec 16))) (g1 : Gang) (f : RegElem → Word) (P : Core → Prop) (t : State) :
    Prop :=
  t = { c.s with gangs := t.gangs, cores := t.cores, tlb := t.tlb, vc := vc, next := t.next } ∧
  (∀ n, n ≠ c.g.core → t.core n = c.s.core n) ∧ (∀ j, j ≠ c.id → t.gang? j = c.s.gang? j) ∧ P (t.core c.g.core) ∧
  ∃ g', t.gang? c.id = some g' ∧ g'.rest = g1.rest ∧ g'.groups = c.groupsAt (c.pc + 4) ∧ ∀ e, g'.settled e = f e

/-- The same for an instruction that reads nothing in the vault: the clocks stay. -/
def Ctx.worked (c : Ctx) (g1 : Gang) (f : RegElem → Word) (P : Core → Prop) (t : State) : Prop :=
  c.workedMerging c.s.vc g1 f P t

/-- The core of c once the engine has performed every operation that it has accepted (R164). -/
def Ctx.engineCore (c : Ctx) : Core := (c.s.flushed c.g.core).core c.g.core

/-- The core k holds rows as k0 does, but for those that f names. -/
def Core.rowsBut (k k0 : Core) (f : Nat → Prop) : Prop :=
  ∀ r, ¬ f r → k.poisoned r = k0.poisoned r ∧ ∀ c < 128, k.col r c = k0.col r c

/-- The core k holds slot bytes as k0 does, but for those that f names. -/
def Core.slotsBut (k k0 : Core) (f : Nat → Prop) : Prop :=
  ∀ x, ¬ f x → Memory.readByte k.slots x = Memory.readByte k0.slots x

/-! ### Far requests -/

/-- A gang, and a request, without the lists of failed chunks of its faults (R229). -/
def Gang.sansChunks (g : Gang) : Gang := { g with posted := g.posted.map (fun p => { p with chunks := [] }) }
def FarReq.sansChunks (r : FarReq) : FarReq := { r with badChunks := [] }

/-- The far request of c under tag t has been accepted: the tag is BUSY and the team's, with one more request pending; the
request r, of which P holds, waits for its end; the arrival bits of the chunks it writes are clear, and so are their ERR
marks: no fault of the team on that core names them any more; the gang is g, its group goes on at the next word, and nothing
else has changed but cached translations, and the clocks, which are vc: those of a source that it has read are merged (R204,
R227, R228, R234, R271). -/
def Ctx.accepted (c : Ctx) (t : ByteField) (g : Gang) (l : Option Landing) (vc : Tbl (List (BitVec 16)))
    (P : FarReq → Prop) (st : State) : Prop :=
  ∃ (r : FarReq) (g1 : Gang) (teams : Tbl (Option Team)) (gangs : Tbl (Option Gang)) (reqs : Tbl (Option FarReq))
      (tlb : List CachedPage),
    (r.gang = c.id ∧ r.team = c.g.team ∧ r.core = c.g.core ∧ r.tag = t.toNat ∧ r.opc = c.pc ∧ r.performed = false ∧ P r) ∧
    c.went ((State.putReq
      { c.s with teams := teams, gangs := gangs, reqs := reqs, tlb := tlb, vc := vc, next := c.s.next + 1 }
      c.s.next r).putCore c.g.core
      (c.core.putTag t.toNat { c.core.tag t.toNat with
        state := .busy, pend := (c.core.tag t.toNat).pend + 1, owner := c.g.team })) g1 (c.pc + 4) c.g.settled st ∧
    g1.sansChunks = g.sansChunks ∧
    (∀ j, j ≠ c.id → (Tbl.get none gangs j).map Gang.sansChunks = (c.s.gang? j).map Gang.sansChunks) ∧
    (∀ j, j ≠ c.s.next → (Tbl.get none reqs j).map FarReq.sansChunks = (c.s.req? j).map FarReq.sansChunks) ∧
    (∀ j, j ≠ c.g.team → Tbl.get none teams j = c.s.team? j) ∧
    (l = none → teams = c.s.teams ∧ gangs = c.s.gangs ∧ reqs = c.s.reqs ∧ g1 = g) ∧
    ∀ w tm k, l = some w → c.team = some tm → tm.onCore c.g.core = some k → w.mapped tm = true →
      ∃ tm' k', Tbl.get none teams c.g.team = some tm' ∧ tm'.onCore c.g.core = some k' ∧
        (∀ n ∈ w.chunks, k'.arrived (w.loc == 1) (w.mapChunk tm.alloc n) = false) ∧
        ∀ j gj, st.gang? j = some gj → gj.team = c.g.team → gj.core = c.g.core →
          ∀ p ∈ gj.posted, ∀ x ∈ p.chunks, w.covers tm.alloc x = false

/-! ### Collectives -/

/-- One level of the tree in which R287 reduces the elements x of p members: the members that are multiples of 2k take in what
stands k ranks above them. -/
def rankLevel (op : Nat → Nat → Nat) (p k : Nat) (x : Nat → Nat) (r : Nat) : Nat :=
  if r % (2 * k) = 0 ∧ r + k < p then op (x r) (x (r + k)) else x r

/-- The reduction of R287: k = 1, 2, 4, … while k < p, for at most 1,024 members; the result is that of rank 0. -/
def rankTree (op : Nat → Nat → Nat) (p : Nat) (x : Nat → Nat) : Nat :=
  (List.range 10).foldl (fun y i => rankLevel op p (2 ^ i) y) x 0

/-! ### Exact results -/

/-- The rational number that a finite value stands for. -/
def Val.rat : Val → ℚ
  | .num neg m e => (if neg then -1 else 1) * m * (2 : ℚ) ^ e
  | _ => 0

/-- The value is a number, a zero among them. -/
def Val.finite (v : Val) : Prop := v.isNan = false ∧ v.isInf = false

/-- The value is less than another, neither a NaN (R142, R149). -/
def Val.Less : Val → Val → Prop
  | .inf a, .inf b => a = true ∧ b = false
  | .inf a, _ => a = true
  | _, .inf b => b = false
  | a, b => a.rat < b.rat

/-- The whole number u is the magnitude x of a number of sign neg, rounded (R97, R99). -/
def Rounds (r : RndEnv) (neg : Bool) (x : ℚ) (u : Nat) : Prop :=
  let lo := ⌊x⌋₊
  let part := x - lo
  if part = 0 then u = lo
  else match r.rnd with
    | .rne | .sat => (u = lo ∨ u = lo + 1) ∧ (part < 1 / 2 → u = lo) ∧ (1 / 2 < part → u = lo + 1) ∧ (part = 1 / 2 → u % 2 = 0)
    | .rna => u = if part < 1 / 2 then lo else lo + 1
    | .rtz => u = lo
    | .rup => u = if neg then lo else lo + 1
    | .rdn => u = if neg then lo + 1 else lo
    | .srd => u = if 65536 ≤ ⌊part * 65536⌋₊ + r.draw then lo + 1 else lo

/-- The largest finite number of a format. -/
def Fmt.largest (f : Fmt) : ℚ := (f.decode f.maxBits).rat

/-- An overflow of sign neg gives an infinity (Table 4.4). -/
def Fmt.overflowsToInf (f : Fmt) (r : RndEnv) (neg : Bool) : Prop :=
  f.inf = true ∧ (r.rnd = .rne ∨ r.rnd = .rna ∨ r.rnd = .srd ∨ r.rnd = .rup ∧ neg = false ∨ r.rnd = .rdn ∧ neg = true)

/-- The magnitude x of a number of sign neg, rounded once to a format, with the flags. With 2^E ≤ x < 2^(E+1), y is x rounded
to units of the format's last place, and w the significand that it has with an unbounded exponent, by which it is tiny: it is
flushed under FTZ; it overflows; or y is the result, NX says that it is inexact, UF that it is tiny as well (R97, R98, R104,
R105). -/
def Fmt.Rounded (f : Fmt) (r : RndEnv) (neg : Bool) (x : ℚ) (res : Nat × Flags) : Prop :=
  (x = 0 → res = (f.signBit neg, Flags.none)) ∧
  ∀ E : Int, 2 ^ E ≤ x → x < 2 ^ (E + 1) → ∃ u w : Nat,
    let y : ℚ := u * 2 ^ (max E f.emin - f.mb)
    let tiny := (w : ℚ) * 2 ^ (E - f.mb) < 2 ^ f.emin
    Rounds r neg (x / 2 ^ (max E f.emin - f.mb)) u ∧ Rounds r neg (x / 2 ^ (E - f.mb)) w ∧
    (tiny ∧ r.ftz = true → res = (f.signBit neg, ⟨false, false, false, true, true⟩)) ∧
    (¬ (tiny ∧ r.ftz = true) →
      (f.largest < y → res.2 = ⟨false, false, true, false, true⟩ ∧
        (f.overflowsToInf r neg → res.1 = f.signBit neg + f.infBits) ∧
        (¬ f.overflowsToInf r neg → res.1 = f.signBit neg + f.maxBits)) ∧
      (y ≤ f.largest → ∃ k e uf nx, f.decode res.1 = .num neg k e ∧ (k : ℚ) * 2 ^ e = y ∧
        res.2 = ⟨false, false, false, uf, nx⟩ ∧ (uf = true ↔ tiny ∧ y ≠ x) ∧ (nx = true ↔ y ≠ x)))

/-- The exact number x, of sign neg0 where it is zero, rounded once to a format. -/
def Fmt.Delivers (f : Fmt) (r : RndEnv) (neg0 : Bool) (x : ℚ) (res : Nat × Flags) : Prop :=
  f.Rounded r (if x = 0 then neg0 else decide (x < 0)) |x| res

/-- A value converted to a format (R88, R103). -/
def Fmt.Converted (f : Fmt) (r : RndEnv) (v : Val) (res : Nat × Flags) : Prop :=
  (v.isNan = true → res = (f.nanBits, Flags.nvIf (v.isSnan || !f.hasNan))) ∧
  (v.isInf = true → res = if f.inf then (f.signBit v.neg + f.infBits, Flags.none)
    else (f.signBit v.neg + f.maxBits, Flags.invalid)) ∧
  (v.finite → f.Delivers r v.neg v.rat res)

/-- The exact sum of the terms ds and of the products of the pairs ps, rounded once (R97, R101, R140, R141, R154): a NaN
operand or a product 0 · ∞ gives the canonical NaN, infinities of both signs too, one infinity itself; an exact zero has the
sign of its terms where they agree, else + or, under rdn, −. -/
def Fmt.Sums (f : Fmt) (r : RndEnv) (ds : List Val) (ps : List (Val × Val)) (res : Nat × Flags) : Prop :=
  let ops := ds ++ ps.flatMap (fun p => [p.1, p.2])
  let lost := ps.any (fun p => p.1.isInf && p.2.isZero || p.1.isZero && p.2.isInf)
  let signs := ds.map Val.neg ++ ps.map (fun p => p.1.neg != p.2.neg)
  let infs := (ds.filter Val.isInf).map Val.neg ++
    (ps.filter (fun p => p.1.isInf || p.2.isInf)).map (fun p => p.1.neg != p.2.neg)
  let x := (ds.map Val.rat).sum + (ps.map (fun p => p.1.rat * p.2.rat)).sum
  if ops.any Val.isNan || lost then res = (f.nanBits, Flags.nvIf (ops.any Val.isSnan || lost))
  else if true ∈ infs ∧ false ∈ infs then res = (f.nanBits, Flags.invalid)
  else if infs ≠ [] then res = (f.signBit (infs.headD false) + f.infBits, Flags.none)
  else f.Delivers r (signs.all id || (r.rnd == .rdn && signs.any id)) x res

/-- A value converted to whole numbers of a type: rounded, a NaN 0, and beyond the type's range its nearest end (R103). -/
def ConvertedToInt (r : RndEnv) (signed : Bool) (w : Nat) (v : Val) (res : Nat × Flags) : Prop :=
  res.1 < 2 ^ w ∧
  (v.isNan = true → res = (0, Flags.invalid)) ∧
  (v.isInf = true → asInt signed w res.1 = (if v.neg then intMin signed w else intMax signed w) ∧ res.2 = Flags.invalid) ∧
  (v.finite → ∃ u : Nat, Rounds r v.neg |v.rat| u ∧
    let y : Int := if v.neg then -u else u
    (y < intMin signed w → asInt signed w res.1 = intMin signed w ∧ res.2 = Flags.invalid) ∧
    (intMax signed w < y → asInt signed w res.1 = intMax signed w ∧ res.2 = Flags.invalid) ∧
    (intMin signed w ≤ y → y ≤ intMax signed w → asInt signed w res.1 = y ∧
      ∃ nx, res.2 = ⟨false, false, false, false, nx⟩ ∧ (nx = true ↔ (u : ℚ) ≠ |v.rat|)))

/-- A block of values, each with the rounding of its lane, converted to a block-scaled format: a is the largest magnitude, 2^E
and 2^X the powers of two at or below it and the format's largest number (R93). -/
def Fmt.Blocked (f : Fmt) (vs : List (RndEnv × Val)) (res : Nat × List Nat × Flags) : Prop :=
  ((∃ v ∈ vs, ¬ v.2.finite) → res = (255, vs.map (fun _ => 0), Flags.nvIf (vs.any (fun v => v.2.isInf || v.2.isSnan)))) ∧
  ((∀ v ∈ vs, v.2.finite ∧ v.2.rat = 0) → res = (127, vs.map (fun v => f.signBit v.2.neg), Flags.none)) ∧
  ((∀ v ∈ vs, v.2.finite) → ∀ (a : ℚ) (E X : Int), 0 < a → (∃ v ∈ vs, |v.2.rat| = a) → (∀ v ∈ vs, |v.2.rat| ≤ a) →
    2 ^ E ≤ a → a < 2 ^ (E + 1) → 2 ^ X ≤ f.largest → f.largest < 2 ^ (X + 1) →
    let x := max (-127) (min 127 (E - X))
    ∃ outs : List (Nat × Flags), res = ((x + 127).toNat, outs.map Prod.fst, Flags.orAll (outs.map Prod.snd)) ∧
      List.Forall₂ (fun v o =>
        (f.largest < |v.2.rat| / 2 ^ x → o = (f.signBit v.2.neg + f.maxBits, ⟨false, false, true, false, true⟩)) ∧
        (|v.2.rat| / 2 ^ x ≤ f.largest → f.Rounded v.1 v.2.neg (|v.2.rat| / 2 ^ x) o)) vs outs)

/-- The element at place i after n levels of the tree in which R156 and R178 reduce the elements x. -/
def treeAt (f : Nat → Nat → Nat × Flags) (x : Nat → Nat) : Nat → Nat → Nat
  | 0, i => x i
  | n + 1, i => (f (treeAt f x n i) (treeAt f x n (i + 2 ^ n))).1

/-- The flags of every rounding in n levels of the tree. -/
def treeFlags (f : Nat → Nat → Nat × Flags) (x : Nat → Nat) (n : Nat) : List Flags :=
  (List.range n).flatMap (fun k => (List.range (2 ^ (n - k - 1))).map (fun j =>
    (f (treeAt f x k (2 ^ (k + 1) * j)) (treeAt f x k (2 ^ (k + 1) * j + 2 ^ k))).2))

/-! ### Sound states -/

/-- The canonical form of the vault (R2, log 4). -/
def State.vaultSound (s : State) : Prop := Memory.wf s.vault = true

/-- The power state in force and the one being entered are states of Table 21.2: 3 is none (R472). -/
def State.powerSound (s : State) : Prop := s.house.cur ≠ 3 ∧ s.house.entering ≠ some 3

end Sys2Proof.Machine
end

