-- ==== Sys2Proof/Certificates/Slice0/Obligations.lean ====
section
/-! DEFINITION. What the provers are asked for: the rules of the spec as statements about the machine. Hypotheses named
by a stop (dataStop, onceStop, farStop and the like, = none) say that nothing holds the word up: the encoding, the operands,
the interlocks, Plumb, privilege and posted faults, as the meaning itself reads them. -/

open Sys2Proof Sys2Proof.Machine

/-- R29, R53, R54, R56, R164, R307, R308, R321, R478: when the agenda lets sub-core k issue and the first of its groups
that is ready is that of the slices m of gang id, one step is the execution of the instruction that the word at its PC
decodes to, in the state in which the group holds the issue slot, in the part of the cycle to which its word belongs (R6,
R318, R330, R338); then the slot is given up, every barrier takes its one update, the cycle ends and what is due settles.
A word that observes barriers comes after the update, and a WANY after the end of the cycle; one that the cycle has
stalled by then does not issue, and its group waits. With no group ready the cycle passes. A word that is no instruction
executes as its trap, and a page that cannot be fetched as the fetch fault. Where the agenda names several sub-cores they
issue in increasing number, each the word that it chose as the cycle began. An event that no word names executes as it
stands, and one that is a word does nothing. The agenda, its order and the parts of a cycle are the model's (log 1). -/
def Obligations.StepRunsTheDecodedInstruction : Prop :=
  ∀ (s : State) (rest : List Stimulus),
    let s0 := { s with agenda := rest }
    (∀ k : Nat, s.agenda = .issues [k] :: rest →
      let b := s0.begun
      let ends := fun t : State => ({ t.clockOn 1 with risen := [] } : State)
      (b.pick k = none ↔ ∀ x ∈ b.issueOrder k, b.ready x.1 x.2 = false) ∧
      (b.pick k = none → step s = .next (ends b.barrierCycle.evening)) ∧
      (∀ (id : Nat) (m : SliceMask) (p : Nat) (c : Ctx), b.pick k = some (id, m, p) →
        let noon := b.barrierCycle
        let u := if p ≤ 1 then b else if p = 2 then noon else noon.evening
        let s1 := u.beginIssue id m
        let after := fun e : State => ends (if p ≤ 1 then e.barrierCycle.evening else if p = 2 then e.evening else e)
        let runs := fun o => ∀ t, o = Host.Outcome.next t →
          let e := u.endIssue t id m
          step s = .next (after (if u.stalledIn id e then u.waits id [m] else e))
        (∃ before later, b.issueOrder k = before ++ (id, m) :: later ∧ b.ready id m = true ∧
          ∀ x ∈ before, b.ready x.1 x.2 = false) ∧
        (u.mayIssueAs id m = false → step s = .next (after u)) ∧
        (u.mayIssueAs id m = true → s1.issuing = some c →
          (∀ w, s1.fetchWord c.part c.pc = .ok w →
            (∀ i, decode w = .ok i → runs (exec i s1)) ∧
            (decode w = .error .illegalOpcode → runs (exec (.illegalOpcode w) s1)) ∧
            (decode w = .error .illegalEncoding → runs (.next (c.raise Cause.illegalEncoding)))) ∧
          (∀ cause, s1.fetchWord c.part c.pc = .error cause → runs (exec .fetchFault s1))))) ∧
    (∀ ks, s.agenda = .issues ks :: rest →
      step s = .next (s0.cycle (fun _ => ks.dedup.sortedBy (fun a b => decide (a ≤ b))))) ∧
    (∀ i, s.agenda = .event i :: rest →
      (isWord i = false → step s = exec i s0) ∧ (isWord i = true → step s = .next s0)) ∧
    (∀ n, s.agenda = .tick n :: rest → step s = .next (s0.ticks n)) ∧
    (∀ n, s.agenda = .pad n :: rest → step s = execPad n s0) ∧
    (∀ modid, s.agenda = .refresh modid :: rest → step s = .next (s0.askRefresh modid)) ∧
    (∀ src part addr, s.agenda = .hostReads src part addr :: rest → step s = .next (s0.hostRegister src part addr)) ∧
    (∀ part va, s.agenda = .evict part va :: rest →
      step s = .next { s0 with tlb := s0.tlb.filter (fun x => !(x.part == part && x.va == va)) }) ∧
    (s.agenda = [] → step s = .next s.default)

/-- R53, R54, R56, Tables 3.1 and 3.2: what some words decode to. -/
def Obligations.DecodedWordsAreTheTables : Prop :=
  decode 0x00000000 = .ok .nop ∧ decode 0x10C2C0C1 = .ok (.add 0xC2 0xC0 0xC1) ∧ decode 0x26C01234 = .ok (.li 0xC0 0x1234) ∧
  decode 0x02FFFFFF = .ok (.braAny 0xFFFFFF) ∧ decode 0x37850712 = .ok (.cmpi 2 5 7 0x12) ∧
  decode 0x3E060203 = .ok (.vote 6 2 3) ∧ decode 0x68000104 = .ok (.ld 0 1 4) ∧ decode 0x8000C003 = .ok (.fget 0xC0 3) ∧
  decode 0xA300C802 = .ok (.mma 0xC8 2) ∧ decode 0xB5C0C103 = .ok (.wany 0xC0 0xC1 3) ∧ decode 0xF2000012 = .ok (.trap 0x12) ∧
  decode 0xFFFFFFFF = .error .illegalOpcode ∧ decode 0x5F000000 = .error .illegalOpcode ∧
  decode 0x00000001 = .error .illegalEncoding ∧ decode 0x3D000002 = .error .illegalEncoding

/-- R468, Table 21.3, log 3: the machine right after reset. Phase 1 of start-up, power state PS0, no gang, team, launch or
request, no halt line raised, every tag FREE, every slot and row block held by nobody and no row poisoned, every byte of
the vault 0, and every circuit IDLE. The values that no rule gives are the model's choice (log 3, log 4). -/
def Obligations.ResetLeavesTheSpecifiedState : Prop :=
  let s := State.reset
  s.house.phase = 1 ∧ s.house.cur = 0 ∧ s.house.err = 0 ∧ s.house.pcap = 2400 ∧
  (∀ id, s.gang? id = none ∧ s.team? id = none ∧ s.launch? id = none ∧ s.req? id = none ∧ s.remote? id = none) ∧
  (∀ n, (s.part n).halted = false ∧ (s.part n).then_ = false ∧ (s.part n).fatal = false ∧ (s.part n).hseq = 0) ∧
  (∀ k t, ((s.core k).tag t).state = .free ∧ ((s.core k).tag t).pend = 0) ∧
  (∀ k n, (s.core k).slotHolder n = none ∧ (s.core k).blockHolder n = none ∧ (s.core k).poisoned n = false) ∧
  (∀ x, Memory.readByte s.vault x = 0) ∧ s.vaultSound ∧ s.powerSound ∧
  s.rot.sync = false ∧ s.rot.nslot1 = 0 ∧ (∀ c, (s.circ c).state = .idle)

/-- R53-R56, Tables 3.1 and 3.2: decoding the word of a well-formed instruction gives the instruction back, with every
operand; a word that decodes is the word of what it decodes to, which is well formed; and a word raises ILLEGAL_OPCODE
exactly when its opcode is one that R54 lists. -/
def Obligations.DecodeAndEncodeAgree : Prop :=
  (∀ (i : Instr) (w : BitVec 32), i.wellFormed = true → encode i = some w → decode w = .ok i) ∧
  (∀ (i : Instr) (w : BitVec 32), decode w = .ok i → encode i = some w ∧ i.wellFormed = true) ∧
  (∀ w : BitVec 32, decode w = .error .illegalOpcode ↔
    let op := w.toNat / 2 ^ 24
    op = 0x5F ∨ op = 0x67 ∨ op = 0x7F ∨ (0x9B ≤ op ∧ op ≤ 0x9F) ∨ (0xAE ≤ op ∧ op ≤ 0xAF) ∨ (0xC3 ≤ op ∧ op ≤ 0xEF) ∨ 0xFB ≤ op)

/-- R2, R472: a step from any state whose vault is in its canonical form, and whose power states are states of Table 21.2,
leads to such a state: a request for the value 3 is discarded (Table 21.3). The canonical form is the model's (log 4). -/
def Obligations.StepsKeepTheSoundForms : Prop :=
  ∀ s t : State, s.vaultSound → s.powerSound → step s = .next t → t.vaultSound ∧ t.powerSound

/-- R409, R54, R56, R478: nothing that a program or anything outside can ask stops the machine: every step, from any
state, answers a next state. Each fault that the manual describes is a trap, a posted fault or a halt, after which the
machine goes on. -/
def Obligations.EveryStepAnswersANextState : Prop := ∀ s : State, ∃ t, step s = .next t

/-- R71, R72, R73, R74: a result of latency lat, the only one on its way to its element, is read from the issue distance
lat on; before, reads give the value from before it; an event that makes every result visible makes it visible. R71, R72,
Table 3.8: when one of these words has executed, every element of its destination, in the lanes that take effect, or once,
has a result on its way if the latency that Table 3.8 gives the word exceeds the word's own distance 1 + CAD, and reads as
the results from before give it at that distance; the result has, of its latency, still what that distance left of it, in
each slice that counts it. Every other result on its way was on its way before. -/
def Obligations.ResultsAppearAtTheirLatency : Prop :=
  (∀ (g : Gang) (m : SliceMask) (lat : Nat) (e : RegElem) (x : Word) (ds : List Nat), 0 < lat →
     (∀ p ∈ g.pend, p.dest ≠ e) → (∀ i < 8, m.getLsbD i = false → match e with
       | .v _ l => sliceOf l ≠ i
       | .p _ l => sliceOf l ≠ i
       | .s _ => True) →
     (match e with
       | .v _ l => l < 32
       | .p i l => l < 32 ∧ i ≠ 63 ∧ x.toNat ≤ 1
       | .s _ => m ≠ 0) →
     let h := ds.foldl (fun a n => a.advance m n) (g.writeFixed m lat [(e, x)])
     (ds.sum < lat → h.elem e = g.elem e) ∧ (lat ≤ ds.sum → h.elem e = x) ∧ h.commitAll.elem e = x ∧ h.settled e = x) ∧
  (∀ (s : State) (c : Ctx) (d a b : RegField) (p q r : PredField) (imm code : ByteField) (imm16 : BitVec 16) (cond : BitVec 2),
     s.issuing = some c →
     let w := isWide c.etype
     let own := 1 + Mr.cad c.mr
     let ps := c.takers.map (fun l => RegElem.p p.toNat l)
     let es := fun wide : Bool => (c.lanesFor d).flatMap (fun l => dstElems d wide l)
     let all := fun wide : Bool =>
       if c.actives = [] then [] else (if isSreg d then [0] else c.takers).flatMap (fun l => dstElems d wide l)
     let two : List (Instr × List RegElem) :=
       [(.cmpEq p a b, ps), (.cmpNe p a b, ps), (.cmpLt p a b, ps), (.cmpLe p a b, ps), (.cmpGt p a b, ps),
        (.cmpGe p a b, ps), (.cmpUn p a b, ps), (.cmpi cond p a imm, ps), (.pand p q r, ps), (.por p q r, ps),
        (.pxor p q r, ps), (.pnot p q, ps), (.pmov p q, ps), (.pset p code, ps), (.pfrom p a, ps),
        (.vote d p code, if c.actives = [] then [] else [.s (d.toNat - 0xC0)])]
     let four : List (Instr × List RegElem) :=
       [(.add d a b, es w), (.sub d a b, es w), (.mul d a b, es w), (.mulh d a b, es w), (.mad d a b, es w),
        (.absd d a b, es w), (.min d a b, es w), (.max d a b, es w), (.and d a b, es w), (.or d a b, es w),
        (.xor d a b, es w), (.andn d a b, es w), (.shl d a b, es w), (.shr d a b, es w), (.sar d a b, es w),
        (.rotl d a b, es w), (.addi d a imm, es w), (.shli d a imm, es w), (.shri d a imm, es w), (.sari d a imm, es w),
        (.andi d a imm, es w), (.ori d a imm, es w), (.li d imm16, es false), (.lih d imm16, es false), (.clz d a, es w),
        (.popc d a, es w), (.brev d a, es w), (.mov d a, es w), (.neg d a, es w), (.abs d a, es w), (.bfe d a b, es w),
        (.bfi d a b, es w)]
     let five : List (Instr × List RegElem) :=
       [(.fadd d a b, es w), (.fsub d a b, es w), (.fmul d a b, es w), (.fma d a b, es w), (.fms d a b, es w),
        (.fmin d a b, es w), (.fmax d a b, es w), (.fminnm d a b, es w), (.fmaxnm d a b, es w), (.fscale d a b, es w),
        (.fabs d a, es w), (.fneg d a, es w), (.frnd d a, es w), (.fclass d a, es false),
        (.cvt d a code, es (isWide code.toNat)), (.cvtb d a b, es false), (.pack d a b, es false),
        (.unpack d a code, es false), (.dot2 d a b, es false), (.dot4 d a b, es false), (.fcmpx d a b, es false)]
     let six : List (Instr × List RegElem) :=
       [(.perm d a b, es w), (.shflXor d a b, es w), (.shflUp d a b, es w), (.shflDown d a b, es w), (.bcast d a b, es w),
        (.gscan d a code, es w), (.gred d a code, all w)]
     let fourteen : List (Instr × List RegElem) :=
       [(.frcp d a, es w), (.frsq d a, es w), (.fsqrt d a, es w), (.fexp2 d a, es w), (.flog2 d a, es w),
        (.fsin d a, es w), (.fcos d a, es w), (.ftanh d a, es w), (.fsigm d a, es w), (.fdiv d a b, es w)]
     let left := fun (x : Pending) (lat : Nat) => x.left ≠ [] ∧ ∀ y ∈ x.left, c.slices.getLsbD y.1 = true ∧ y.2 + own = lat
     ∀ e ∈ [(2, two), (4, four), (5, five), (6, six), (14, fourteen)], ∀ i ∈ e.2, ∀ t, exec i.1 s = .next t →
       ∀ g', t.gang? c.id = some g' →
         (∀ x ∈ g'.pend, (∃ o ∈ c.g.pend, x.dest = o.dest ∧ x.val = o.val) ∨ left x e.1) ∧
         (g'.groups = c.groupsAt (c.pc + 4) → own < e.1 → ∀ el ∈ i.2,
           (∃ x ∈ g'.pend, x.dest = el ∧ left x e.1) ∧ g'.elem el = (c.g.advance c.slices own).elem el))

/-- R114: the checks of a data instruction pass exactly when its type and operands are admitted, no register that it reads
or writes awaits an interlocked result, Plumb (if on) finds no operand short, and no fault is posted against a register
read. -/
def Obligations.DataChecksPassExactlyWhen : Prop :=
  ∀ (c : Ctx) (typeOk operandOk dWide dRead : Bool) (d : RegField) (a b : List (RegField × Bool)),
    let ra := a.flatMap (fun x => regsOf x.1 x.2)
    let rb := b.flatMap (fun x => regsOf x.1 x.2)
    let rd := if dRead then regsOf d dWide else []
    c.dataStop typeOk operandOk d dWide dRead a b = none ↔
      typeOk = true ∧ operandOk = true ∧ c.dstOk d dWide = true ∧ (∀ x ∈ a ++ b, c.srcOk x.1 x.2 = true) ∧
      (isSreg d = true → ∀ x ∈ a ++ b, isVec x.1 = false) ∧
      (∀ w ∈ c.g.awaits, ∀ r ∈ ra ++ rb ++ rd ++ c.guardRegs ++ regsOf d dWide, r.has w.dest = false) ∧
      (c.g.plumbEn = true → ∀ r ∈ ra ++ rb ++ rd ++ c.guardRegs, c.shortOf r = 0) ∧
      (∀ p ∈ c.g.posted, Posted.ofRegs (ra ++ rb ++ rd ++ c.guardRegs) p = false)

/-- Table 5.4 (R127), the results that pass through fit, and MULH, MIN and MAX: the destination takes the exact result
brought into the type's range, in every lane that takes effect, or once; nothing else changes and no flag is set. -/
def Obligations.IntegerArithmeticResults : Prop :=
  ∀ (s : State) (c : Ctx) (d a b : RegField), s.issuing = some c →
    let t := c.etype
    let w := isWide t
    let x := fun l => elemInt t (c.readA a w l)
    let y := fun l => elemInt t (c.readB b w l)
    let z := fun l => elemInt t (c.readD d w l)
    let fit := fun v : Int => elemOut t (fitElem t c.sat v)
    (c.dataStop (inINT t) true d w false [(a, w)] [(b, w)] = none →
      Gives (.add d a b) s (c.wrote (c.result d w (fun l => fit (x l + y l)))) ∧
      Gives (.sub d a b) s (c.wrote (c.result d w (fun l => fit (x l - y l)))) ∧
      Gives (.mul d a b) s (c.wrote (c.result d w (fun l => fit (x l * y l)))) ∧
      Gives (.mulh d a b) s (c.wrote (c.result d w (fun l =>
        elemOut t (x l * y l / 2 ^ ebits t % 2 ^ ebits t).toNat))) ∧
      Gives (.absd d a b) s (c.wrote (c.result d w (fun l => fit |x l - y l|))) ∧
      Gives (.min d a b) s (c.wrote (c.result d w (fun l => elemOut t (fitElem t false (min (x l) (y l)))))) ∧
      Gives (.max d a b) s (c.wrote (c.result d w (fun l => elemOut t (fitElem t false (max (x l) (y l))))))) ∧
    (c.dataStop (inINT t) true d w true [(a, w)] [(b, w)] = none →
      Gives (.mad d a b) s (c.wrote (c.result d w (fun l => fit (x l * y l + z l)))))

/-- Table 5.4 (R127, the bits results) and R128: AND, OR, XOR and ANDN on the w-bit patterns; SHL and SHR give 0 for a
count of w or more, SAR copies of bit w − 1, and ROTL rotates by the count modulo w. The count is read32 of b, unsigned.
-/
def Obligations.IntegerLogicAndShiftResults : Prop :=
  ∀ (s : State) (c : Ctx) (d a b : RegField), s.issuing = some c →
    let t := c.etype
    let w := isWide t
    let n := ebits t
    let x := fun l => c.readA a w l % 2 ^ n
    let y := fun l => c.readB b w l % 2 ^ n
    let k := fun l => c.readB b false l
    (c.dataStop (inINT t) true d w false [(a, w)] [(b, w)] = none →
      Gives (.and d a b) s (c.wrote (c.result d w (fun l => elemOut t (x l &&& y l)))) ∧
      Gives (.or d a b) s (c.wrote (c.result d w (fun l => elemOut t (x l ||| y l)))) ∧
      Gives (.xor d a b) s (c.wrote (c.result d w (fun l => elemOut t (x l ^^^ y l)))) ∧
      Gives (.andn d a b) s (c.wrote (c.result d w (fun l => elemOut t (x l &&& (y l ^^^ (2 ^ n - 1))))))) ∧
    (c.dataStop (inINT t) true d w false [(a, w)] [(b, false)] = none →
      Gives (.shl d a b) s (c.wrote (c.result d w (fun l => elemOut t (if n ≤ k l then 0 else x l * 2 ^ k l % 2 ^ n)))) ∧
      Gives (.shr d a b) s (c.wrote (c.result d w (fun l => elemOut t (if n ≤ k l then 0 else x l / 2 ^ k l)))) ∧
      Gives (.sar d a b) s (c.wrote (c.result d w (fun l =>
        elemOut t (if n ≤ k l then (if x l < 2 ^ (n - 1) then 0 else 2 ^ n - 1)
          else (asInt true n (x l) / 2 ^ k l % 2 ^ n).toNat)))) ∧
      Gives (.rotl d a b) s (c.wrote (c.result d w (fun l =>
        elemOut t (x l * 2 ^ (k l % n) % 2 ^ n + x l / 2 ^ (n - k l % n))))))

/-- R129 and R130: the immediate forms. ADDI adds its immediate, sign-extended, as an exact integer, and brings the sum
into the type's range: under n32 and sat, 5 + −1 is 4. LI and LIH write one 32-bit register whatever the type; LIH keeps
the low half. R131 and R132: the unary integer instructions, MOV under every type, and the bit field instructions, whose
position and length are bits [7:0] and [15:8] of read32 of b. -/
def Obligations.ImmediateUnaryAndFieldResults : Prop :=
  (∀ (s : State) (c : Ctx) (d a : RegField) (imm : ByteField) (imm16 : BitVec 16), s.issuing = some c →
     let t := c.etype
     let w := isWide t
     let n := ebits t
     let i := imm.toNat
     let x := fun l => c.readA a w l % 2 ^ n
     (c.dataStop (inINT t) true d w false [(a, w)] [] = none →
       Gives (.addi d a imm) s (c.wrote (c.result d w (fun l => elemOut t (fitElem t c.sat (elemInt t (x l) + imm.toInt))))) ∧
       Gives (.shli d a imm) s (c.wrote (c.result d w (fun l => elemOut t (if n ≤ i then 0 else x l * 2 ^ i % 2 ^ n)))) ∧
       Gives (.shri d a imm) s (c.wrote (c.result d w (fun l => elemOut t (if n ≤ i then 0 else x l / 2 ^ i)))) ∧
       Gives (.sari d a imm) s (c.wrote (c.result d w (fun l =>
         elemOut t (if n ≤ i then (if x l < 2 ^ (n - 1) then 0 else 2 ^ n - 1)
           else (asInt true n (x l) / 2 ^ i % 2 ^ n).toNat)))) ∧
       Gives (.andi d a imm) s (c.wrote (c.result d w (fun l => elemOut t (x l &&& i)))) ∧
       Gives (.ori d a imm) s (c.wrote (c.result d w (fun l => elemOut t (x l ||| i))))) ∧
     (c.dataStop true true d false false [] [] = none →
       Gives (.li d imm16) s (c.wrote (c.result d false (fun _ => imm16.toNat)))) ∧
     (c.dataStop true true d false true [] [] = none →
       Gives (.lih d imm16) s (c.wrote (c.result d false (fun l => imm16.toNat * 2 ^ 16 + c.readD d false l % 2 ^ 16))))) ∧
  (∀ (s : State) (c : Ctx) (d a b : RegField), s.issuing = some c →
     let t := c.etype
     let w := isWide t
     let n := ebits t
     let x := fun l => c.readA a w l % 2 ^ n
     let pos := fun l => c.readB b false l % 2 ^ 8
     let len := fun l => c.readB b false l / 2 ^ 8 % 2 ^ 8
     (c.dataStop (inINT t) true d w false [(a, w)] [] = none →
       Gives (.clz d a) s (c.wrote (c.result d w (fun l => elemOut t (if x l = 0 then n else n - 1 - Nat.log2 (x l))))) ∧
       Gives (.popc d a) s (c.wrote (c.result d w (fun l => elemOut t ((List.range n).countP (fun i => (x l).testBit i))))) ∧
       Gives (.brev d a) s (c.wrote (c.result d w (fun l => elemOut t (BitVec.ofNat n (x l)).reverse.toNat))) ∧
       Gives (.neg d a) s (c.wrote (c.result d w (fun l => elemOut t (fitElem t c.sat (-elemInt t (x l)))))) ∧
       Gives (.abs d a) s (c.wrote (c.result d w (fun l => elemOut t (fitElem t c.sat |elemInt t (x l)|))))) ∧
     (c.dataStop (inANY t) true d w false [(a, w)] [] = none →
       Gives (.mov d a) s (c.wrote (c.result d w (fun l => elemOut t (x l))))) ∧
     (c.dataStop (inINT32 t) true d w false [(a, w)] [(b, false)] = none →
       Gives (.bfe d a b) s (c.wrote (c.result d w (fun l => elemOut t
         (if len l = 0 then 0
          else extend (isSigned t) (min (len l) n) n
            (asInt (isSigned t) n (x l) / 2 ^ pos l % 2 ^ min (len l) n).toNat))))) ∧
     (c.dataStop (inINT32 t) true d w true [(a, w)] [(b, false)] = none →
       Gives (.bfi d a b) s (c.wrote (c.result d w (fun l => elemOut t (bfiBits n (c.readD d w l) (x l) (pos l) (len l)))))))

/-- R133 and R134, R135: compares. Integers compare by the type's signedness and CMP.un is false for them; floats compare
with −0 equal to +0, a NaN operand makes ne and un true and the other five false, a signalling NaN sets NV and a quiet one
does so under lt, le, gt and ge. Each lane that takes effect writes its bit of the predicate, and p63 keeps reading 1.
That CMPI's immediate is sign-extended to the width of the type and then read as the type reads a register, so that under
an unsigned type a negative one is a large number, is the model's reading (log 57). -/
def Obligations.CompareResults : Prop :=
  ∀ (s : State) (c : Ctx) (d : PredField) (a b : RegField) (imm : ByteField) (cond : BitVec 2), s.issuing = some c →
    let t := c.etype
    let w := isWide t
    let x := fun l => elemInt t (c.readA a w l)
    let y := fun l => elemInt t (c.readB b w l)
    let u := fun l => (fmtOf t).decode (c.readA a w l % 2 ^ ebits t)
    let v := fun l => (fmtOf t).decode (c.readB b w l % 2 ^ ebits t)
    let nan := fun l => (u l).isNan || (v l).isNan
    let i := elemInt t (imm.signExtend 64).toNat
    let onInt := fun (i : Instr) (f : Int → Int → Bool) =>
      Gives i s (c.wrote (c.predResult d (fun l => f (x l) (y l))))
    let onFloat := fun (i : Instr) (quiet ifNan : Bool) (f : Val → Val → Bool) =>
      Gives i s (c.went c.s
        { c.g with acr := Acr.set c.g.acr (Flags.orAll (c.takers.map (fun l =>
            Flags.nvIf ((u l).isSnan || (v l).isSnan || (quiet && nan l))))) }
        (c.pc + 4) (c.predResult d (fun l => if nan l then ifNan else f (u l) (v l))))
    (c.predStop (inINT t || inFLT t || inF8 t) d [(a, w)] [(b, w)] [] [] = none →
      (inINT t = true →
        onInt (.cmpEq d a b) (fun i j => i == j) ∧ onInt (.cmpNe d a b) (fun i j => i != j) ∧
        onInt (.cmpLt d a b) (fun i j => decide (i < j)) ∧ onInt (.cmpLe d a b) (fun i j => decide (i ≤ j)) ∧
        onInt (.cmpGt d a b) (fun i j => decide (i > j)) ∧ onInt (.cmpGe d a b) (fun i j => decide (i ≥ j)) ∧
        onInt (.cmpUn d a b) (fun _ _ => false)) ∧
      (inINT t = false →
        onFloat (.cmpEq d a b) false false Val.eqv ∧ onFloat (.cmpNe d a b) false true (fun p q => !Val.eqv p q) ∧
        onFloat (.cmpLt d a b) true false Val.lt ∧
        onFloat (.cmpLe d a b) true false (fun p q => Val.lt p q || Val.eqv p q) ∧
        onFloat (.cmpGt d a b) true false (fun p q => Val.lt q p) ∧
        onFloat (.cmpGe d a b) true false (fun p q => Val.lt q p || Val.eqv p q) ∧
        onFloat (.cmpUn d a b) false true (fun _ _ => false))) ∧
    (c.predStop (inINT t) d [(a, w)] [] [] [] = none →
      Gives (.cmpi cond d a imm) s (c.wrote (c.predResult d (fun l =>
        if cond = 0 then x l == i else if cond = 1 then x l != i
        else if cond = 2 then decide (x l < i) else decide (x l ≥ i)))))

/-- R38: p63 reads as 1 in every lane, and a write to it is discarded. R136, R137 and R139: predicate logic in each lane
that takes effect; PSET writes its code and traps on a code above 1; PFROM takes bit l of a scalar, or whether the lane's
vector register is not 0. R138: VOTE executes once if the group has an active lane, whatever the guard holds, and else has
no effect. It reduces the predicate over the lanes of the group that take effect. A code above 3 and a destination that is
no scalar register trap. -/
def Obligations.PredicateAndVoteResults : Prop :=
  (∀ (g : Gang) (l : Nat) (v : Word), g.elem (.p 63 l) = 1 ∧ g.putElem (.p 63 l) v = g) ∧
  (∀ (s : State) (c : Ctx) (d a b : PredField) (r : RegField) (code : ByteField), s.issuing = some c →
     (c.predStop true d [] [] [.p a.toNat] [.p b.toNat] = none →
       Gives (.pand d a b) s (c.wrote (c.predResult d (fun l => c.pred a l && c.pred b l))) ∧
       Gives (.por d a b) s (c.wrote (c.predResult d (fun l => c.pred a l || c.pred b l))) ∧
       Gives (.pxor d a b) s (c.wrote (c.predResult d (fun l => xor (c.pred a l) (c.pred b l))))) ∧
     (c.predStop true d [] [] [.p a.toNat] [] = none →
       Gives (.pnot d a) s (c.wrote (c.predResult d (fun l => !c.pred a l))) ∧
       Gives (.pmov d a) s (c.wrote (c.predResult d (fun l => c.pred a l)))) ∧
     (code.toNat ≤ 1 → c.predStop true d [] [] [] [] = none →
       Gives (.pset d code) s (c.wrote (c.predResult d (fun _ => code == 1)))) ∧
     (1 < code.toNat → exec (.pset d code) s = .next (c.raise Cause.illegalEncoding)) ∧
     (c.predStop true d [(r, false)] [] [] [] = none →
       Gives (.pfrom d r) s (c.wrote (c.predResult d (fun l =>
         if isVec r then c.readA r false l != 0 else (c.readA r false 0).testBit l))))) ∧
  (∀ (s : State) (c : Ctx) (d : RegField) (a : PredField) (code : ByteField), s.issuing = some c →
     let yes := fun l => decide (l < 32) && (c.takes l && c.pred a l)
     (3 < code.toNat → exec (.vote d a code) s = .next (c.raise Cause.illegalEncoding)) ∧
     (code.toNat ≤ 3 → isSreg d = false → exec (.vote d a code) s = .next (c.raise Cause.illegalOperand)) ∧
     (code.toNat ≤ 3 → isSreg d = true → c.hazard [.p a.toNat] [] [] c.guardRegs (regsOf d false) = none →
       ((∀ l < 32, c.active l = false) → Gives (.vote d a code) s (c.wrote c.g.settled)) ∧
       ((∃ l < 32, c.active l = true) → ∃ v : Word,
         Gives (.vote d a code) s (c.wrote (fun e => if e = .s (d.toNat - 0xC0) then v else c.g.settled e)) ∧
         (code = 0 → v = if (List.range 32).any yes then 1 else 0) ∧
         (code = 1 → v = if (List.range 32).all (fun l => !c.takes l || c.pred a l) then 1 else 0) ∧
         (code = 2 → ∀ l < 32, v.getLsbD l = yes l) ∧
         (code = 3 → v = BitVec.ofNat 32 ((List.range 32).countP yes)))))

/-- R140, R141, R144, R149: the float operations, on each element or on both bf16 halves under x2, with the flags that the
lanes raise and, where the instruction rounds under srd, one advance of SEED (R100). FCMPX writes one 32-bit register.
R142, R143, R148: minimum and maximum, the sign instructions, which change the sign bit alone and set no flag, and FCLASS,
whose mask goes to one 32-bit register. None of them rounds, so none advances SEED. R144 to R147: the unary float
operations, FSCALE, whose count is read32 of b as s32 and serves both halves of x2, and FRND. How precise a transcendental
is, is the model's reading (log 10). R87, R88, R97 to R101, R104, R105: what an encoding of a format stands for, the
largest number of each format, and that a sum, a difference, a product, a fused product and sum, an FSCALE, a FRND, a
minimum, a maximum and a comparison of any two encodings is the exact result, rounded once, with the flags of that
rounding; quotients and roots are named as the meaning computes them. -/
def Obligations.FloatResults : Prop :=
  (∀ (s : State) (c : Ctx) (d a b : RegField), s.issuing = some c →
     let t := c.etype
     let w := isWide t
     let x := fun l => c.readA a w l
     let y := fun l => c.readB b w l
     let z := fun l => c.readD d w l
     (c.dataStop (inFX t) true d w false [(a, w)] [(b, w)] = none →
       Gives (.fadd d a b) s (c.computed d w c.srd (fun l => c.each t l (x l) (y l) 0 (fun f r p q _ => f.add r p q))) ∧
       Gives (.fsub d a b) s (c.computed d w c.srd (fun l => c.each t l (x l) (y l) 0 (fun f r p q _ => f.sub r p q))) ∧
       Gives (.fmul d a b) s (c.computed d w c.srd (fun l => c.each t l (x l) (y l) 0 (fun f r p q _ => f.mul r p q)))) ∧
     (c.dataStop (inFX t) true d w true [(a, w)] [(b, w)] = none →
       Gives (.fma d a b) s (c.computed d w c.srd (fun l => c.each t l (x l) (y l) (z l) (fun f r p q o => f.fma r false p q o))) ∧
       Gives (.fms d a b) s (c.computed d w c.srd (fun l => c.each t l (x l) (y l) (z l) (fun f r p q o => f.fma r true p q o)))) ∧
     (c.dataStop (inFLT t) true d w false [(a, w)] [(b, w)] = none →
       Gives (.fdiv d a b) s (c.computed d w c.srd (fun l => c.each t l (x l) (y l) 0 (fun f r p q _ => f.div r p q)))) ∧
     (c.dataStop (inFLT t) true d false false [(a, w)] [(b, w)] = none →
       Gives (.fcmpx d a b) s (c.computed d false false (fun l =>
         (fmtOf t).cmpx (Acr.ftz c.g.acr) (x l % 2 ^ ebits t) (y l % 2 ^ ebits t))))) ∧
  (∀ (s : State) (c : Ctx) (d a b : RegField), s.issuing = some c →
     let t := c.etype
     let w := isWide t
     let x := fun l => c.readA a w l
     let y := fun l => c.readB b w l
     (c.dataStop (inFX t) true d w false [(a, w)] [(b, w)] = none →
       Gives (.fmin d a b) s (c.computed d w false (fun l => c.each t l (x l) (y l) 0 (fun f r p q _ => f.minMax r.ftz false false p q))) ∧
       Gives (.fmax d a b) s (c.computed d w false (fun l => c.each t l (x l) (y l) 0 (fun f r p q _ => f.minMax r.ftz true false p q))) ∧
       Gives (.fminnm d a b) s (c.computed d w false (fun l => c.each t l (x l) (y l) 0 (fun f r p q _ => f.minMax r.ftz false true p q))) ∧
       Gives (.fmaxnm d a b) s (c.computed d w false (fun l => c.each t l (x l) (y l) 0 (fun f r p q _ => f.minMax r.ftz true true p q)))) ∧
     (c.dataStop (inFX t || inF8 t) true d w false [(a, w)] [] = none →
       ((t ≠ 15 →
         let m := 2 ^ (ebits t - 1)
         Gives (.fabs d a) s (c.wrote (c.result d w (fun l => x l % m))) ∧
         Gives (.fneg d a) s (c.wrote (c.result d w (fun l => x l % (2 * m) ^^^ m)))) ∧
        (t = 15 →
         Gives (.fabs d a) s (c.wrote (c.result d w (fun l => x l % 2 ^ 32 &&& 0x7FFF7FFF))) ∧
         Gives (.fneg d a) s (c.wrote (c.result d w (fun l => x l % 2 ^ 32 ^^^ 0x80008000)))))) ∧
     (c.dataStop (inFX t || inF8 t) true d false false [(a, w)] [] = none →
       Gives (.fclass d a) s (c.wrote (c.result d false (fun l =>
         if t = 15 then 2 ^ Fmt.bf16.classBit (x l % 2 ^ 16) + 2 ^ 16 * 2 ^ Fmt.bf16.classBit (x l / 2 ^ 16 % 2 ^ 16)
         else 2 ^ (fmtOf t).classBit (x l % 2 ^ ebits t)))))) ∧
  (∀ (s : State) (c : Ctx) (d a b : RegField), s.issuing = some c →
     let t := c.etype
     let w := isWide t
     let x := fun l => c.readA a w l
     let unary := fun (i : Instr) (f : Fmt → RndEnv → Nat → Nat × Flags) =>
       Gives i s (c.computed d w c.srd (fun l => c.each t l (x l) 0 0 (fun fm r p _ _ => f fm r p)))
     (c.dataStop (inFLT t) true d w false [(a, w)] [] = none →
       unary (.frcp d a) Fmt.rcp ∧ unary (.frsq d a) Fmt.rsq ∧ unary (.fsqrt d a) Fmt.sqrt) ∧
     (c.dataStop (inTrans t) true d w false [(a, w)] [] = none →
       unary (.fexp2 d a) Fmt.exp2 ∧ unary (.flog2 d a) Fmt.log2 ∧ unary (.fsin d a) Fmt.sin ∧ unary (.fcos d a) Fmt.cos ∧
       unary (.ftanh d a) Fmt.tanh ∧ unary (.fsigm d a) Fmt.sigm) ∧
     (c.dataStop (inFX t) true d w false [(a, w)] [] = none → unary (.frnd d a) Fmt.rnd) ∧
     (c.dataStop (inFX t) true d w false [(a, w)] [(b, false)] = none →
       Gives (.fscale d a b) s (c.computed d w c.srd (fun l => c.each t l (x l) 0 0 (fun fm r p _ _ =>
         fm.scale r p (BitVec.ofNat 32 (c.readB b false l)).toInt))))) ∧
  (∀ (f : Fmt) (r : RndEnv) (x y z : Nat) (k : Int), 1 ≤ f.eb →
     let a := f.read r.ftz x
     let b := f.read r.ftz y
     let c := f.read r.ftz z
     (let neg := decide (x / 2 ^ (f.eb + f.mb) % 2 = 1)
      let e := x / 2 ^ f.mb % 2 ^ f.eb
      let m := x % 2 ^ f.mb
      (f.inf = true → e = 2 ^ f.eb - 1 → a = if m = 0 then .inf neg else .nan (decide (m < 2 ^ (f.mb - 1)))) ∧
      (f.inf = false → f.nanOnes = true → e = 2 ^ f.eb - 1 → m = 2 ^ f.mb - 1 → a = .nan false) ∧
      ((f.inf = true → e ≠ 2 ^ f.eb - 1) → (f.nanOnes = true → e = 2 ^ f.eb - 1 → m ≠ 2 ^ f.mb - 1) →
        a.finite ∧ a.neg = neg ∧ a.rat = (if neg then -1 else 1) *
          (if e = 0 then (if r.ftz then 0 else (m : ℚ) / 2 ^ f.mb * 2 ^ (1 - (f.bias : Int)))
            else (1 + (m : ℚ) / 2 ^ f.mb) * 2 ^ ((e : Int) - f.bias)))) ∧
     (f.inf = true →
       f.Sums r [a, b] [] (f.add r x y) ∧ f.Sums r [a, b.negate] [] (f.sub r x y) ∧ f.Sums r [] [(a, b)] (f.mul r x y) ∧
       f.Sums r [c] [(a, b)] (f.fma r false x y z) ∧ f.Sums r [c.negate] [(a, b)] (f.fma r true x y z)) ∧
     (a.finite → f.Delivers r a.neg (a.rat * 2 ^ k) (f.scale r x k) ∧
       (f.rnd r x).2 = Flags.none ∧ ∃ u fl, Rounds r a.neg |a.rat| u ∧ f.Rounded RndEnv.rne a.neg u ((f.rnd r x).1, fl)) ∧
     (let p := f.flush r.ftz x
      let q := f.flush r.ftz y
      let fl := Flags.nvIf (a.isSnan || b.isSnan)
      let gives := fun (lo hi : Nat) (num : Bool) => f.minMax r.ftz false num x y = (lo, fl) ∧
        f.minMax r.ftz true num x y = (hi, fl)
      (a.isNan || b.isNan → gives f.nanBits f.nanBits false ∧ f.cmpx r.ftz x y = (8, fl)) ∧
      (a.isNan = true → b.isNan = true → gives f.nanBits f.nanBits true) ∧
      (a.isNan = true → b.isNan = false → gives q q true) ∧ (a.isNan = false → b.isNan = true → gives p p true) ∧
      (a.isNan = false → b.isNan = false →
        (a.Less b → (∀ n, gives p q n) ∧ f.cmpx r.ftz x y = (1, Flags.none)) ∧
        (b.Less a → (∀ n, gives q p n) ∧ f.cmpx r.ftz x y = (4, Flags.none)) ∧
        (¬ a.Less b → ¬ b.Less a → (∀ n, gives (if a.neg then p else q) (if a.neg then q else p) n) ∧
          f.cmpx r.ftz x y = (2, Flags.none))))) ∧
  (Fmt.f64.largest = (2 - 2 ^ (-52 : Int)) * 2 ^ 1023 ∧ Fmt.f32.largest = (2 - 2 ^ (-23 : Int)) * 2 ^ 127 ∧
   Fmt.tf32.largest = (2 - 2 ^ (-10 : Int)) * 2 ^ 127 ∧ Fmt.bf16.largest = (2 - 2 ^ (-7 : Int)) * 2 ^ 127 ∧
   Fmt.f16.largest = 65504 ∧ Fmt.e5m2.largest = 57344 ∧ Fmt.e4m3.largest = 448 ∧ Fmt.e3m2.largest = 28 ∧
   Fmt.e2m3.largest = 15 / 2 ∧ Fmt.e2m1.largest = 6)

/-- R150 to R154: conversions. CVT converts from MR's type to the type of its code; PACK converts two sources to one
register, keeping the upper half of d above 8-bit elements; UNPACK widens the element its code names; DOT2 and DOT4 add
the products of packed elements to the 32-bit accumulator d. CVT, PACK, DOT2 and DOT4 round under srd, and then advance
SEED, unless all their elements are integers; UNPACK is exact and advances nothing. That PACK and UNPACK take scalar
registers, that an UNPACK under srd leaves SEED, and the sign of a zero and the NV flag of a DOT are the model's choice
(log 64). R96, R97, R103: each conversion is exact but for one rounding, or the clamping or wrapping of an integer, and a
float DOT adds the exact products to the accumulator with one rounding. -/
def Obligations.ConversionResults : Prop :=
  (∀ (s : State) (c : Ctx) (d a b : RegField) (code : ByteField), s.issuing = some c →
    let t := c.etype
    let n := ebits t
    let u := code.toNat
    let x := fun l => c.readA a false l
    let y := fun l => c.readB b false l
    let z := fun l => c.readD d false l
    (c.dataStop (decide (t ≤ 13) && decide (u ≤ 13)) true d (isWide u) false [(a, isWide t)] [] = none →
      Gives (.cvt d a code) s (c.computed d (isWide u) (c.srd && !(inINT t && inINT u)) (fun l =>
        let r := convert t u c.sat (c.env l 0) (c.readA a (isWide t) l % 2 ^ n)
        (elemOut u r.1, r.2)))) ∧
    (c.dataStop (inPack t) true d false (n == 8) [(a, false)] [(b, false)] = none →
      Gives (.pack d a b) s (c.computed d false (c.srd && !inINT t) (fun l =>
        let p := packElem t c.sat (c.env l 0) (x l)
        let q := packElem t c.sat (c.env l 1) (y l)
        (if n = 8 then z l % 2 ^ 16 * 2 ^ 16 + q.1 * 2 ^ 8 + p.1 else q.1 * 2 ^ 16 + p.1, Flags.or p.2 q.2)))) ∧
    (c.dataStop (inPack t && decide (u < 32 / n)) true d false false [(a, false)] [] = none →
      Gives (.unpack d a code) s (c.computed d false false (fun l =>
        let p := x l / 2 ^ (n * u) % 2 ^ n
        if inINT t then (extend (isSigned t) n 32 p, Flags.none)
        else Fmt.f32.deliver RndEnv.rne ((fmtOf t).read (Acr.ftz c.g.acr) p)))) ∧
    (c.dataStop (t == 8 || t == 9) true d false true [(a, false)] [(b, false)] = none →
      Gives (.dot2 d a b) s (c.computed d false c.srd (fun l => dotFloat t n (c.env l 0) (x l) (y l) (z l)))) ∧
    (c.dataStop (t == 12 || t == 13 || t == 0 || t == 1) true d false true [(a, false)] [(b, false)] = none →
      (12 ≤ t → Gives (.dot4 d a b) s (c.computed d false c.srd (fun l => dotFloat t n (c.env l 0) (x l) (y l) (z l)))) ∧
      (t ≤ 1 → Gives (.dot4 d a b) s (c.wrote (c.result d false (fun l =>
        let at_ := fun v i => asInt (isSigned t) 8 (v / 2 ^ (8 * i))
        fitBits (isSigned t) 32 c.sat (asInt (isSigned t) 32 (z l) + at_ (x l) 0 * at_ (y l) 0 + at_ (x l) 1 * at_ (y l) 1 +
          at_ (x l) 2 * at_ (y l) 2 + at_ (x l) 3 * at_ (y l) 3))))))) ∧
  (∀ (t u : Nat) (sat : Bool) (r : RndEnv) (x y z : Nat), t ≤ 13 → u ≤ 13 →
    let v := (fmtOf t).read r.ftz x
    let w := Fmt.f32.read r.ftz x
    let fitted := fun (u : Nat) (i : Int) (res : Nat × Flags) => res.2 = Flags.none ∧ res.1 < 2 ^ ebits u ∧
      (sat = true → asInt (isSigned u) (ebits u) res.1 =
        max (intMin (isSigned u) (ebits u)) (min (intMax (isSigned u) (ebits u)) i)) ∧
      (sat = false → (res.1 : Int) = i % 2 ^ ebits u)
    (inINT t = true → inINT u = true → fitted u (elemInt t x) (convert t u sat r x)) ∧
    (inINT t = true → inINT u = false → (fmtOf u).Delivers r false (elemInt t x) (convert t u sat r x)) ∧
    (inINT t = false → inINT u = true → ConvertedToInt r (isSigned u) (ebits u) v (convert t u sat r x)) ∧
    (inINT t = false → inINT u = false → (fmtOf u).Converted r v (convert t u sat r x)) ∧
    (inINT t = true → fitted t (asInt (isSigned t) 32 x) (packElem t sat r x)) ∧
    (inINT t = false → (fmtOf t).Converted r w (packElem t sat r x) ∧
      Fmt.f32.Converted RndEnv.rne v (Fmt.f32.deliver RndEnv.rne v) ∧
      ∀ n, Fmt.f32.Sums r [Fmt.f32.read r.ftz z] ((List.range (32 / n)).map (fun i =>
        ((fmtOf t).read r.ftz (x / 2 ^ (n * i) % 2 ^ n), (fmtOf t).read r.ftz (y / 2 ^ (n * i) % 2 ^ n)))) (dotFloat t n r x y z)))

/-- R155: lane moves. Each lane that takes effect receives the element of a in the source lane that its own b names; PERMA
is ignored, and BCAST's b is scalar. That a scalar a is taken as the same value in every lane is the model's choice (log
64), and so is that a lane of another group whose fixed-latency write is on its way is read as it stands before that write
(log 75). -/
def Obligations.LaneMoveResults : Prop :=
  ∀ (s : State) (c : Ctx) (d a b : RegField), s.issuing = some c →
    let t := c.etype
    let w := isWide t
    let n := fun l => c.readB b false l % 32
    let moved := fun (i : Instr) (j : Nat → Nat) =>
      Gives i s (c.wrote (c.result d w (fun l => elemOut t (c.fieldAt a w (j l) % 2 ^ ebits t))))
    (c.dataStop (inANY t) (isVreg d) d w false [(a, w)] [(b, false)] = none →
      moved (.perm d a b) n ∧
      moved (.shflXor d a b) (fun l => l ^^^ n l) ∧
      moved (.shflUp d a b) (fun l => if n l ≤ l then l - n l else l) ∧
      moved (.shflDown d a b) (fun l => if l + n l ≤ 31 then l + n l else l)) ∧
    (c.dataStop (inANY t) (isVreg d && scalarOk b) d w false [(a, w)] [(b, false)] = none →
      moved (.bcast d a b) n)

/-- R156 and R157: GRED reduces operand a over the lanes that take effect, and GSCAN gives each of them the prefix up to
it, itself included or not. A GRED in a group without active lanes has no effect. CVTB makes of the lanes that take effect
one block of a block-scaled format (R151). That GSCAN and CVTB take a scalar a, with one value for every lane, is the
model's choice (log 64). The value that a GRED delivers is that of R156's tree over the 32 lanes, for integers the exact
operation over the lanes that take effect, and GSCAN's are R157's prefixes, each with the flags of every rounding; the
scale and the elements of a block are those of R93. -/
def Obligations.ReductionResults : Prop :=
  (∀ (s : State) (c : Ctx) (d a b : RegField) (code : ByteField), s.issuing = some c →
    let t := c.etype
    let w := isWide t
    let op := code.toNat % 8
    let acrOf := fun (act : Bool) (fl : Flags) => if act then Acr.set c.g.acr fl else c.g.acr
    (code.toNat ≤ 5 → c.reduceTypeOk code.toNat = true → c.dstOk d w = true → c.srcOk a w = true →
      c.hazard (regsOf a w) [] [] c.guardRegs (regsOf d w) = none →
      (c.actives = [] → Gives (.gred d a code) s (c.wrote c.g.settled)) ∧
      (c.actives ≠ [] → Gives (.gred d a code) s (c.went c.s
        { c.g with acr := acrOf true (c.reduce a code.toNat).2 } (c.pc + 4) (fun e => match e with
          | .s i => if isSreg d = true ∧ (i = d.toNat - 0xC0 ∨ w = true ∧ i = d.toNat - 0xC0 + 1) then
              BitVec.ofNat 32 (elemOut t (c.reduce a code.toNat).1 / 2 ^ (32 * (i - (d.toNat - 0xC0))))
            else c.g.settled e
          | _ => c.result d w (fun _ => elemOut t (c.reduce a code.toNat).1) e)))) ∧
    ((op ≤ 5 ∧ code.toNat ≤ 13) → c.reduceTypeOk op = true → c.dstOk d w = true → isVreg d = true → c.srcOk a w = true →
      c.hazard (regsOf a w) [] [] c.guardRegs (regsOf d w) = none →
      let r := c.scan a op (decide (8 ≤ code.toNat))
      Gives (.gscan d a code) s (c.went c.s { c.g with acr := acrOf (!c.takers.isEmpty) r.2 } (c.pc + 4)
        (c.result d w (fun l => elemOut t (r.1.getD l 0))))) ∧
    (c.etype = 10 → (c.dstOk d false && isVreg d && c.srcOk a false && scalarOk b) = true →
      let sel := (c.readS b).toNat % 8
      c.onceStop true (decide (sel ≤ 4)) true (regsOf a false) (regsOf b false) [] (regsOf d false) = none →
      let ls := c.takers
      let blk := mxBlock (cvtbFmt sel) (ls.map (fun l => (c.env l 0, Fmt.f32.read (Acr.ftz c.g.acr) (c.readA a false l))))
      Gives (.cvtb d a b) s (c.went c.s
        { c.g with acr := (let x := Acr.set c.g.acr (Flags.orAll (ls.map (fun _ => blk.2.2)))
                           if c.srd && !ls.isEmpty then Acr.advance x else x) } (c.pc + 4)
        (c.result d false (fun l => blk.1 * 2 ^ 24 + blk.2.1.getD (ls.idxOf l) 0))))) ∧
  (∀ (c : Ctx) (a : RegField) (op : Nat) (excl : Bool),
    let t := c.etype
    let f := fmtOf t
    let r : RndEnv := { c.env 0 0 with ftz := false }
    let read := fun l => c.readA a (isWide t) l % 2 ^ ebits t
    let pat := fun z : Int => (z % (2 ^ ebits t : Nat)).toNat
    let whole := fun x y : Int => if op = 0 then x + y else if op = 1 then min x y else if op = 2 then max x y
      else elemInt t (if op = 3 then pat x &&& pat y else if op = 4 then pat x ||| pat y else pat x ^^^ pat y)
    let zero : Int := if op = 1 then intMax (isSigned t) (ebits t) else if op = 2 then intMin (isSigned t) (ebits t)
      else if op = 3 then elemInt t (2 ^ ebits t - 1) else 0
    let step := fun x y => if op = 0 then f.add r x y else f.minMax false (op == 2) false x y
    let ident := if op = 0 then f.signBit true else f.signBit (op == 2) + f.infBits
    let x := fun l => if l < 32 ∧ c.takes l = true then read l else if l < 32 then ident else 0
    let i := fun l => if c.takes l then elemInt t (c.readA a (isWide t) l) else zero
    (inINT t = true → op ≤ 5 →
      c.reduce a op = (fitElem t c.sat ((c.takers.map (fun l => elemInt t (c.readA a (isWide t) l))).foldl whole zero), Flags.none) ∧
      (c.scan a op excl).2 = Flags.none ∧ ∃ y : Nat → Int, y 0 = zero ∧ ∀ l < 32, y (l + 1) = whole (y l) (i l) ∧
        (c.scan a op excl).1.getD l 0 = fitElem t c.sat (if excl then y l else y (l + 1))) ∧
    (inINT t = false → op ≤ 2 →
      c.reduce a op = (treeAt step x 5 0, Flags.orAll (treeFlags step x 5)) ∧
      ∃ y : Nat → Nat, y 0 = ident ∧ (∀ l < 32, y (l + 1) = (step (y l) (x l)).1 ∧
        (c.scan a op excl).1.getD l 0 = if excl then y l else y (l + 1)) ∧
        (c.scan a op excl).2 = Flags.orAll ((List.range 32).map (fun l => (step (y l) (x l)).2)))) ∧
  (∀ (n : Nat) (vs : List (RndEnv × Val)), (cvtbFmt n).Blocked vs (mxBlock (cvtbFmt n) vs))

/-- R69, R113, R124: NOP has no effect; YIELD changes no architected state: it ends the turn of the group, or gives up the
next cycle of its sub-core; MODE writes the MR copy of every slice of the issuing group, whatever the guard and the masks
hold, and traps on RND 7. -/
def Obligations.NopYieldAndModeComplete : Prop :=
  ∀ (s : State) (c : Ctx) (payload : BitVec 24), s.issuing = some c →
    Gives .nop s (c.wrote c.g.settled) ∧
    Gives .yield s (fun t => ∃ turn, c.went c.s
      { c.g with turn := turn, turnIssues := 0, yielded := if c.g.parted then c.g.yielded else some (s.now + 1) } (c.pc + 4)
      c.g.settled t) ∧
    (Mr.rnd payload ≠ 7 → Gives (.mode payload) s (fun t => ∃ mr : Tbl (BitVec 24),
      (∀ i < 8, Tbl.get mrReset mr i = if c.slices.getLsbD i then payload else c.g.mrOf i) ∧
      c.went c.s { c.g with mr := mr } (c.pc + 4) c.g.settled t)) ∧
    (Mr.rnd payload = 7 → exec (.mode payload) s = .next (c.raise Cause.illegalEncoding))

/-- R27, R58, R118: each slice of the issuing group decides for itself whether it takes a branch, and the group divides if
they do not decide alike. R119 and R120: BRX, CALL and RET move the whole group under once(), and else go on at the next
word. CALL leaves PC + 4 in s55, visible at once. -/
def Obligations.BranchesDivideAndJumpsMoveGroups : Prop :=
  (∀ (s : State) (c : Ctx) (imm : BitVec 24), s.issuing = some c →
     let target := c.pc + 4 * imm.signExtend 56
     let lanes := fun i : Nat => [4 * i, 4 * i + 1, 4 * i + 2, 4 * i + 3]
     Gives (.braz imm) s (c.branched (fun i => (lanes i).all (fun l => !c.g.emask.getLsbD l)) target) ∧
     (c.hazard [] [] [] c.guardRegs [] = none →
       Gives (.braAny imm) s (c.branched (fun i => (lanes i).any (fun l => c.active l && c.guard l)) target) ∧
       Gives (.braAll imm) s (c.branched (fun i =>
         (lanes i).any c.active && (lanes i).all (fun l => !c.active l || c.guard l)) target))) ∧
  (∀ (s : State) (c : Ctx) (a : RegField) (imm : BitVec 24), s.issuing = some c →
     let within := fun low : Word => c.pc.extractLsb' 32 24 ++ (low &&& 0xFFFFFFFC#32)
     (c.onceStop (scalarOk a) true true (regsOf a false) [] [] [] = none →
       Gives (.brx a) s (c.went c.s c.g (if c.once then within (c.readS a) else c.pc + 4) c.g.settled)) ∧
     (scalarOk a = false → exec (.brx a) s = .next (c.raise Cause.illegalOperand)) ∧
     (c.hazard [] [] [] c.guardRegs [.s 55] = none →
       (c.once = false → Gives (.call imm) s (c.wrote c.g.settled)) ∧
       (c.once = true → Gives (.call imm) s (fun t =>
         c.went c.s c.g (c.pc + 4 * imm.signExtend 56)
           (fun e => if e = .s 55 then (c.pc + 4).extractLsb' 0 32 else c.g.settled e) t ∧
         ∃ g', t.gang? c.id = some g' ∧ g'.elem (.s 55) = (c.pc + 4).extractLsb' 0 32))) ∧
     (c.hazard [.s 55] [] [] c.guardRegs [] = none →
       Gives .ret s (c.went c.s c.g (if c.once then within (c.sval 55) else c.pc + 4) c.g.settled)))

/-- R34 and R125: MAND, MANDN and MRESTORE change emask in the issuing group's slices alone, whatever the guard holds;
MSAVE gives all 32 bits, once for every issuing group. R31 and R122: EXIT retires the lanes that take effect: they are
exited and disabled. With none it has no effect. The group goes on with the slices still live; the gang ends when no lane
of it is left. -/
def Obligations.MasksTouchTheirSlicesAndExitRetires : Prop :=
  (∀ (s : State) (c : Ctx) (p : PredField) (a d : RegField), s.issuing = some c →
     let masked := fun (f : Nat → Bool) (t : State) => ∃ em : LaneMask,
       (∀ l < 32, em.getLsbD l = if c.slices.getLsbD (l / 4) then f l else c.g.emask.getLsbD l) ∧
       c.went c.s { c.g with emask := em } (c.pc + 4) c.g.settled t
     (c.hazard [.p p.toNat] [] [] [] [] = none →
       Gives (.mand p) s (masked (fun l => c.g.emask.getLsbD l && c.pred p l)) ∧
       Gives (.mandn p) s (masked (fun l => c.g.emask.getLsbD l && !c.pred p l))) ∧
     (scalarOk a = true → c.hazard (regsOf a false) [] [] [] [] = none →
       Gives (.mrestore a) s (masked (fun l => (c.readS a).getLsbD l && !c.g.exited.getLsbD l))) ∧
     (scalarOk a = false → exec (.mrestore a) s = .next (c.raise Cause.illegalOperand)) ∧
     (isSreg d = true → c.hazard [] [] [] [] (regsOf d false) = none →
       Gives (.msave d) s (c.wroteAt [(.s (d.toNat - 0xC0), c.g.emask)])) ∧
     (isSreg d = false → exec (.msave d) s = .next (c.raise Cause.illegalOperand))) ∧
  (∀ (s : State) (c : Ctx), s.issuing = some c → c.hazard [] [] [] c.guardRegs [] = none →
     (c.endsGang = true → c.g.posted.filter Posted.atExit = []) →
     ((∀ l < 32, c.takes l = false) → c.endsGang = false → Gives .exit s (c.wrote c.g.settled)) ∧
     ((∃ l < 32, c.takes l = true) → Gives .exit s (fun t => ∃ g', t.gang? c.id = some g' ∧
       (∀ l < 32, g'.exited.getLsbD l = (c.g.exited.getLsbD l || c.takes l)) ∧
       (∀ l < 32, g'.emask.getLsbD l = (c.g.emask.getLsbD l && !c.takes l)) ∧
       (c.endsGang = true → g'.ended = true) ∧
       (c.endsGang = false → ∀ i < 8, c.slices.getLsbD i = true → g'.sliceLive i = true →
         ∃ x ∈ g'.groups, x.slices.getLsbD i = true ∧ x.pc = c.pc + 4 ∧ x.park = none))))

/-- R313 and R314: a REGANG whose mask is not wholly live, or leaves out a slice of the issuing group, or differs from the
mask of a group parked there, traps MEMBERSHIP. Else the group parks holding the mask; when every slice of the mask is
parked there, those groups become one at the next word, whose slices all take the MR copy of the lowest, and which idles
for the CAD cycles of the word at least (R68). -/
def Obligations.RegangMergesTheExpectedSlices : Prop :=
  ∀ (s : State) (c : Ctx) (a : RegField), s.issuing = some c → scalarOk a = true →
    c.hazard (regsOf a false) [] [] [] [] = none →
    let m : SliceMask := (c.readS a).extractLsb' 0 8
    let agree := ∀ x ∈ c.g.groups, ∀ k, x.park = some (.regang k) → x.pc = c.pc → k = m
    let here := c.slices ||| c.g.arrived c.pc
    (¬ (m &&& ~~~c.g.live = 0 ∧ c.slices &&& ~~~m = 0 ∧ agree) →
      exec (.regang a) s = .next (c.raise Cause.membership)) ∧
    (m &&& ~~~c.g.live = 0 → c.slices &&& ~~~m = 0 → agree → c.grp.park = none →
      (here ≠ m → Gives (.regang a) s (c.parked (.regang m))) ∧
      (here = m → Gives (.regang a) s (fun t => ∃ g' k, t.gang? c.id = some g' ∧ Mr.cad c.mr < k ∧
        (∀ e, g'.settled e = c.g.settled e) ∧
        (∀ x, x ∈ g'.groups ↔ x = { slices := m, pc := c.pc + 4, park := none, since := 0, idle := k } ∨
          (x ∈ c.g.groups ∧ x.slices ≠ c.slices ∧ x.arrivedAt c.pc = none)) ∧
        (∀ i < 8, g'.mrOf i = if m.getLsbD i then c.g.mrOf (lowestSlice m) else c.g.mrOf i))))

/-- R318: BARINIT of a barrier that is not busy sets EXPG, EXPB and DMEM and clears every other field; of a busy barrier
it traps ILLEGAL_OPERAND, which is looked at only where once() holds: where it does not, BARINIT has no effect (R311; that
reading is log 22). R319 and Table 11.4: BARARR that the barrier refuses traps BARRIER_OVERRUN, and one that it counts is
applied in the phase of its parity, once the gang's earlier loads are performed (R212). -/
def Obligations.BarriersAreSetAndArrivedAt : Prop :=
  (∀ (s : State) (c : Ctx) (tm : Team) (n : ByteField) (a b : RegField), s.issuing = some c → c.team = some tm →
     let x := (c.readS a).toNat
     let expb := (c.readS b).toNat
     c.onceStop (decide (n.toNat ≤ 15) && scalarOk a && scalarOk b)
       (x / 65536 == 0 && decide (x % 256 ≤ 128) && (x % 256 != 0 || expb != 0)) true
       (regsOf a false) (regsOf b false) [] [] = none →
     (c.once = false → Gives (.barinit n a b) s (c.wrote c.g.settled)) ∧
     (c.once = true → s.barrierBusy c.g.team n.toNat (c.barrier n.toNat) = true →
       exec (.barinit n a b) s = .next (c.raise Cause.illegalOperand)) ∧
     (c.once = true → s.barrierBusy c.g.team n.toNat (c.barrier n.toNat) = false →
       Gives (.barinit n a b) s (fun t => ∃ tm', c.went (s.putTeam c.g.team tm') c.g (c.pc + 4) c.g.settled t ∧
         tm' = { tm with barriers := tm'.barriers } ∧
         (∀ k, k ≠ n.toNat → tm'.barrier k = tm.barrier k) ∧
         tm'.barrier n.toNat =
           { phase := false, expg := x % 256, expb := expb, dmem := BitVec.ofNat 8 (x / 256), arr := 0, early := 0, bytes := 0,
             ebytes := 0, umask := 0, eumask := 0, a := 0, e := 0, mism := false, ovb := false }))) ∧
  (∀ (s : State) (c : Ctx) (tm : Team) (n : ByteField) (a : RegField), s.issuing = some c → c.team = some tm →
     let x := (c.readS a).toNat
     let b := tm.barrier n.toNat
     let p := decide (x / 256 % 2 = 1)
     let mine := b.a.getLsbD c.g.index
     let early := b.e.getLsbD c.g.index
     n.toNat ≤ 15 → scalarOk a = true → c.interlock (regsOf a false) = none → x < 512 →
     c.plumb (regsOf a false) [] [] [] = none → c.groupWide x = none → c.readPosted (regsOf a false) = none →
     (early = true ∨ (mine = true ∧ p = b.phase) → exec (.bararr n a) s = .next (c.raise Cause.barrierOverrun)) ∧
     (early = false → (mine = false ∨ p ≠ b.phase) → s.loadsOut c.id = false → s.padsOut c.id = false →
       Gives (.bararr n a) s (fun t => t = c.skip.putBarrier c.g.team n.toNat
         (if p = b.phase then
           { b with a := b.a ||| BitVec.ofNat 128 (2 ^ c.g.index), arr := b.arr + 1, umask := b.umask ||| BitVec.ofNat 8 x }
          else
           { b with
             e := b.e ||| BitVec.ofNat 128 (2 ^ c.g.index), early := b.early + 1, eumask := b.eumask ||| BitVec.ofNat 8 x }))))

/-- R321 and R322: what reaches a barrier is recorded in it. Once in a cycle each barrier of a running team is checked:
one whose arrivals and bytes are complete advances its phase, checks the masks, carries the early counts over, and latches
its event in every gang of the team that has not ended; one that is not complete keeps what it has counted. -/
def Obligations.BarrierPhaseAdvancesOnCompletion : Prop :=
  let done := fun (b : Barrier) => b.expg ≤ b.arr ∧ b.bytes = b.expb
  let fails := fun (b : Barrier) => 0 < b.expg ∧ b.umask ≠ b.dmem
  let advanced := fun (b x : Barrier) => x =
    { b with
      phase := !b.phase, mism := decide (0 < b.expg ∧ b.umask ≠ b.dmem), arr := b.early, bytes := b.ebytes,
      umask := b.eumask, a := b.e, e := 0, early := 0, ebytes := 0, eumask := 0 }
  (∀ (s : State) (team n : Nat) (tm : Team) (b : Barrier), s.team? team = some tm →
    (s.putBarrier team n b).gangs = s.gangs ∧
    (∃ tm', (s.putBarrier team n b).team? team = some tm' ∧ tm'.barrier n = b ∧ ∀ k, k ≠ n → tm'.barrier k = tm.barrier k) ∧
    (let t := s.flipBarrier team n b
     (∃ tm', t.team? team = some tm' ∧ (∀ k, k ≠ n → tm'.barrier k = tm.barrier k) ∧ advanced b (tm'.barrier n)) ∧
     (∀ id g, s.gang? id = some g → g.team = team → g.ended = false → n < 16 → ∃ g', t.gang? id = some g' ∧
       g'.evpend = g.evpend ||| BitVec.ofNat 19 (2 ^ n) ∧
       (fails b → ∃ p, g'.posted = g.posted ++ [p] ∧ p.at_ = .barrier n ∧ p.cause = Cause.membership) ∧
       (¬ fails b → g'.posted = g.posted)) ∧
     (∀ id g, s.gang? id = some g → g.team ≠ team → t.gang? id = some g))) ∧
  (∀ (s : State) (team n : Nat) (tm : Team), s.team? team = some tm → n < 16 →
    let t := s.updateBarriers
    ∃ tm', t.team? team = some tm' ∧
      (tm.status = .running → done (tm.barrier n) → advanced (tm.barrier n) (tm'.barrier n)) ∧
      ((tm.status ≠ .running ∨ ¬ done (tm.barrier n)) → tm'.barrier n = tm.barrier n) ∧
      ∀ id g, s.gang? id = some g → g.team = team → ∃ g', t.gang? id = some g' ∧
        (g'.evpend.getLsbD n = true ↔
          g.evpend.getLsbD n = true ∨ (tm.status = .running ∧ g.ended = false ∧ done (tm.barrier n))))

/-- R320, R323, R324: BARBYTES credits bytes by parity; BARWAIT goes on once PHASE differs from its parity and else parks;
BARTEST reads the status word of Table 11.5. -/
def Obligations.BarrierWaitsAndReads : Prop :=
  ∀ (s : State) (c : Ctx) (tm : Team) (n : ByteField) (a d : RegField), s.issuing = some c → c.team = some tm →
    let x := (c.readS a).toNat
    let b := tm.barrier n.toNat
    let p := decide (x / 256 % 2 = 1)
    let unseen := ∀ q ∈ c.g.posted, q.at_ ≠ .barrier n.toNat
    (n.toNat ≤ 15 → scalarOk a = true → c.interlock (regsOf a false) = none → x < 512 →
      c.plumb (regsOf a false) [] [] [] = none → c.groupWide x = none → c.readPosted (regsOf a false) = none →
      (b.phase ≠ p → unseen → Gives (.barwait n a) s (c.wrote c.g.settled)) ∧
      (b.phase = p → Gives (.barwait n a) s (c.parked (.barwait n.toNat p)))) ∧
    (c.onceStop (decide (n.toNat ≤ 15) && scalarOk a) (x / 2 ^ 29 == 0) true (regsOf a false) [] [] [] = none →
      (c.once = false ∨ x % 2 ^ 28 = 0 → Gives (.barbytes n a) s (c.wrote c.g.settled)) ∧
      (c.once = true → x % 2 ^ 28 ≠ 0 → Gives (.barbytes n a) s (fun t =>
        t = c.skip.putBarrier c.g.team n.toNat (b.credit (x % 2 ^ 28) (decide (x / 2 ^ 28 % 2 = 1)))))) ∧
    (c.onceStop (decide (n.toNat ≤ 15) && scalarDst d) true true [] [] [] (regsOf d false) = none →
      (c.once = false → Gives (.bartest d n) s (c.wrote c.g.settled)) ∧
      (c.once = true → unseen → Gives (.bartest d n) s (c.wroteAt [(.s (d.toNat - 0xC0),
        BitVec.ofNat 32 (b.arr % 2 ^ 8 + 2 ^ 8 * (b.early % 2 ^ 8) + 2 ^ 16 * b.phase.toNat + 2 ^ 17 * b.mism.toNat +
          2 ^ 18 * b.ovb.toNat + 2 ^ 19 * (b.a.getLsbD c.g.index).toNat + 2 ^ 20 * (b.e.getLsbD c.g.index).toNat))])))

/-- R326 to R328, R332, R335: KINC takes a token of its counter, which ends when every earlier counted operation of the
gang has completed; KWAITLE goes on at a counter at or below its bound and else parks; KRD, EVGET, EVMASK, EVCLR and DEADL
read and write the gang's counters, events and deadline; a count that the cycle of a DEADL that replaces it takes to 0
still latches, and one that a DEADL of 0 disarms does not. -/
def Obligations.CountersEventsAndDeadline : Prop :=
  ∀ (s : State) (c : Ctx) (n : ByteField) (a d : RegField), s.issuing = some c → c.once = true →
    let k := n.toNat
    let x := c.readS a
    let outstanding := s.countedBefore c.id c.g s.next
    (c.onceStop (decide (k ≤ 7)) true true [] [] [] [] = none → c.g.counter k < 4095 → c.g.tokens = [] →
      (outstanding = true → Gives (.kinc n) s (fun t => ∃ g1 : Gang,
        c.went { s with next := s.next + 1 } g1 (c.pc + 4) c.g.settled t ∧ g1.counter k = c.g.counter k + 1 ∧
        g1.tokens = [(k, s.next)] ∧ { g1 with k := c.g.k, tokens := [] } = c.g)) ∧
      (outstanding = false → Gives (.kinc n) s (fun t => ∃ g', t.gang? c.id = some g' ∧ g'.counter k = c.g.counter k ∧
        g'.tokens = [] ∧ g'.groups = c.groupsAt (c.pc + 4)))) ∧
    (c.oncePosted (decide (k ≤ 7) && scalarOk a) (x.toNat / 4096 == 0) (regsOf a false) [] [] (Posted.ofCounter k) = none →
      (c.g.counter k ≤ x.toNat → Gives (.kwaitle n a) s (c.wrote c.g.settled)) ∧
      (x.toNat < c.g.counter k → Gives (.kwaitle n a) s (c.parked (.kwaitle k x.toNat)))) ∧
    (c.oncePosted (decide (k ≤ 7) && scalarDst d) true [] [] (regsOf d false) (Posted.ofCounter k) = none →
      Gives (.krd d n) s (c.wroteAt [(.s (d.toNat - 0xC0), BitVec.ofNat 32 (c.g.counter k))])) ∧
    (c.onceStop (scalarDst d) true true [] [] [] (regsOf d false) = none →
      Gives (.evget d) s (c.wroteAt [(.s (d.toNat - 0xC0), c.g.eventWord)])) ∧
    (c.onceStop (scalarOk a) (x.toNat / 2 ^ 27 == 0) true (regsOf a false) [] [] [] = none →
      Gives (.evmask a) s (c.went s { c.g with evmask := x.extractLsb' 0 27 } (c.pc + 4) c.g.settled)) ∧
    (c.onceStop (scalarOk a) (x.toNat / 2 ^ 19 == 0) true (regsOf a false) [] [] [] = none →
      Gives (.evclr a) s (c.went s { c.g with evpend := c.g.evpend &&& ~~~x.extractLsb' 0 19 } (c.pc + 4) c.g.settled)) ∧
    (c.onceStop (scalarOk a) true true (regsOf a false) [] [] [] = none →
      Gives (.deadl a) s (c.went s
        { c.g with
          deadline := x.toNat
          evpend := if c.g.deadline = 1 ∧ x ≠ 0 then c.g.evpend ||| BitVec.ofNat 19 (2 ^ 18) else c.g.evpend } (c.pc + 4)
        c.g.settled))

/-- R329 and R330: MBSEND fills an EMPTY mailbox of the named gang of its team, has no effect on a gang that has ended,
and parks at a FULL one and behind senders that are parked there; a release, it comes after the gang's loads (R212).
MBRECV empties a FULL mailbox into its pair and parks at an EMPTY one. -/
def Obligations.MailboxesPassOneValue : Prop :=
  ∀ (s : State) (c : Ctx) (tm : Team) (n : ByteField) (a b d : RegField), s.issuing = some c → c.once = true →
    c.team = some tm →
    let x := (c.readS a).toNat
    let v : DWord := BitVec.ofNat 64 (c.spair (b.toNat - 0xC0))
    (c.onceStop (decide (n.toNat ≤ 7) && scalarOk a && pairOk b) (x / 128 == 0 && decide (x < tm.gangs)) true
        (regsOf a false) (regsOf b true) [] [] = none → s.loadsOut c.id = false → s.padsOut c.id = false →
      (s.member c.g.team x = none → Gives (.mbsend n a b) s (c.wrote c.g.settled)) ∧
      (∀ id g, s.member c.g.team x = some (id, g) → g.mailbox n.toNat ≠ none ∨ s.sendersWait c.g.team x n.toNat = true →
        Gives (.mbsend n a b) s (c.parked (.mbsend x n.toNat v))) ∧
      (∀ id g, s.member c.g.team x = some (id, g) → g.mailbox n.toNat = none → s.sendersWait c.g.team x n.toNat = false →
        Gives (.mbsend n a b) s (fun t => ∃ g' h', t.gang? id = some g' ∧ g'.mailbox n.toNat = some v ∧
          (∀ m, m ≠ n.toNat → g'.mailbox m = g.mailbox m) ∧ t.gang? c.id = some h' ∧ h'.groups = c.groupsAt (c.pc + 4) ∧
          (∀ j, j ≠ id → j ≠ c.id → t.gang? j = s.gang? j)))) ∧
    (c.onceStop (decide (n.toNat ≤ 7) && pairOk d) true true [] [] [] (regsOf d true) = none →
      (c.g.mailbox n.toNat = none → Gives (.mbrecv d n) s (c.parked (.mbrecv (d.toNat - 0xC0) n.toNat))) ∧
      (∀ u, c.g.mailbox n.toNat = some u → Gives (.mbrecv d n) s (fun t => ∃ g1 : Gang,
        c.went s g1 (c.pc + 4) (fun e => if e = .s (d.toNat - 0xC0) then u.extractLsb' 0 32
          else if e = .s (d.toNat - 0xC0 + 1) then u.extractLsb' 32 32 else c.g.settled e) t ∧
        g1.mailbox n.toNat = none ∧ (∀ m, m ≠ n.toNat → g1.mailbox m = c.g.mailbox m) ∧ { g1 with mbox := c.g.mbox } = c.g)))

/-- R338 and R339: WANY takes the first eligible entry of its list: s[d] receives the event and the index, an edge event's
pending bit clears unless KEEP holds, and the group goes on at the entry's handler. With no entry eligible it parks. -/
def Obligations.WanyTakesTheFirstEligibleEntry : Prop :=
  ∀ (s : State) (c : Ctx) (d a : RegField) (n : ByteField), s.issuing = some c →
    let k := n.toNat
    let es := c.block (a.toNat - 0xC0) k
    let list := sregs (a.toNat - 0xC0) k
    1 ≤ k → k ≤ 8 → isSreg a = true → a.toNat - 0xC0 + k ≤ 56 → isSreg d = true →
    c.interlock (list ++ regsOf d false) = none → c.plumb list [] (regsOf d false) [] = none →
    c.groupWide (c.readS d).toNat = none → c.readPosted (list ++ regsOf d false) = none → (∀ e ∈ es, entryOk e = true) →
    ((∀ e ∈ es, s.eligible c.g e = false) → Gives (.wany d a n) s (c.parked (.wany (d.toNat - 0xC0) es))) ∧
    (∀ i < k, s.eligible c.g (es.getD i 0) = true → (∀ j < i, s.eligible c.g (es.getD j 0) = false) →
      (∀ q ∈ c.g.posted, Posted.ofEvent (entryId (es.getD i 0)) q = false) →
      let e := es.getD i 0
      Gives (.wany d a n) s (fun t => ∃ ev, c.went s { c.g with evpend := ev } (c.pc + 4 * (e.extractLsb' 0 22).signExtend 56)
          (fun r => if r = .s (d.toNat - 0xC0) then BitVec.ofNat 32 (entryId e * 256 + i) else c.g.settled r) t ∧
        ev = match edgeBit (entryId e) with
          | some b => if entryKeep e then c.g.evpend else c.g.evpend &&& ~~~BitVec.ofNat 19 (2 ^ b)
          | none => c.g.evpend))

/-- R192, R199, R200, R260, R261: LD puts one access of each lane on its way, to the team's scratchpad on its own core, at
the offset wrapped into the allocation and aligned down; LDP to the core of the rank that a names. Its result is awaited
and arrives in a step of its own. No lane faults, whatever its offset. R196, R199, R200: the accesses of a gang to one
core keep their order if both are to its own core by an offset, if both are by rank, and where they have a byte in common;
others may be performed in any order. That an access is on its way until a later step performs it is the model's form of
R200 (log 17). -/
def Obligations.ScratchpadLoadsNeverFault : Prop :=
  (∀ (s : State) (c : Ctx) (d a b : RegField) (imm : ByteField), s.issuing = some c →
     let w := isWide c.etype
     let n := c.size
     let wrap := fun x : Nat => let e := x % 2 ^ 32 % c.padAlloc; e - e % n
     let cores := match c.team with
       | some tm => tm.cores.map TeamCore.core
       | none => []
     let loads := fun (own : Bool) (at_ : Nat → Nat × Nat) =>
       c.padRequested own (c.memLanes (isVreg d)) (fun _ => VaultKind.read) at_ (fun l => dstElems d w l)
     (c.loadStop (isVreg d || !isVec a) d false [(a, false)] [] = none →
       Gives (.ld d a imm) s (loads true (fun l => (c.g.core, wrap (c.readA a false l + imm.toNat * n))))) ∧
     (c.loadStop (isVreg d || !(isVec a || isVec b)) d false [(a, w)] [(b, false)] = none →
       Gives (.ldp d a b) s
         (loads false (fun l => (cores.getD (c.readA a w l % 4 % cores.length) c.g.core, wrap (c.readB b false l)))))) ∧
  (∀ (s : State) (n : Nat) (r : PadReq), s.preqs.find? (fun q => q.id == n) = some r →
     (s.padReady r = true ↔ ∀ w ∈ s.preqs.takeWhile (fun w => w.id != r.id), w.gang = r.gang → w.core = r.core →
       w.own ≠ r.own ∧ (r.off + r.size ≤ w.off ∨ w.off + w.size ≤ r.off)) ∧
     (s.padReady r = false → execPad n s = .next s)) ∧
  (∀ (s : State) (n : Nat) (r : PadReq) (g : Gang), s.preqs.find? (fun q => q.id == n) = some r → r.kind = .read →
     s.gang? r.gang = some g → r.dst.Nodup → s.padReady r = true →
     ∃ t g', execPad n s = .next t ∧ t.gang? r.gang = some g' ∧
       t = { s with gangs := t.gangs, preqs := s.preqs.filter (fun q => q.id != n) } ∧
       (∀ j, j ≠ r.gang → t.gang? j = s.gang? j) ∧ (r.dst ≠ [] → ∀ x ∈ g'.awaits, x.kind ≠ .vault n) ∧
       let v := elemOut r.etype.toNat (s.padRead r.team r.core r.off r.size)
       (∀ e, r.dst = [e] → (∀ i j, e ≠ .p i j) → g'.settled e = BitVec.ofNat 32 v) ∧
       (∀ e f, r.dst = [e, f] → (∀ i j, e ≠ .p i j) → (∀ i j, f ≠ .p i j) →
         g'.settled e = BitVec.ofNat 32 v ∧ g'.settled f = BitVec.ofNat 32 (v / 2 ^ 32)) ∧
       ∀ e, e ∉ r.dst → g'.settled e = g.settled e)

/-- R192, R195, R199, R200, R260, R261: ST and STP put one store of each lane on its way, in increasing lane number, ST to
its own core at its wrapped offset, STP to the core of the rank that a names. Performed, a store changes the bytes it
names alone. The steps that perform such stores are the model's form of R200 (log 17). -/
def Obligations.ScratchpadStoresTouchTheirBytesAlone : Prop :=
  (∀ (s : State) (c : Ctx) (d a b : RegField) (imm : ByteField), s.issuing = some c →
     let stores := fun (own perLane : Bool) (at_ : Nat → Nat × Nat) =>
       c.padRequested own (c.memLanes perLane) (fun l => VaultKind.write (c.stored d l)) at_ (fun _ => [])
     (c.storeStop true d [(a, false)] [] = none →
       Gives (.st d a imm) s (stores true (isVec d || isVec a) (fun l => (c.g.core, c.padAt a imm l)))) ∧
     (c.storeStop true d [(a, isWide c.etype)] [(b, false)] = none →
       Gives (.stp d a b) s (stores false (isVec d || isVec a || isVec b) (c.peerAt a b)))) ∧
  (∀ (s : State) (n v : Nat) (r : PadReq) (tm : Team), s.preqs.find? (fun q => q.id == n) = some r → r.kind = .write v →
     r.dst = [] → s.team? r.team = some tm → s.padReady r = true →
     ∃ t, execPad n s = .next t ∧
       t = { s with teams := t.teams, preqs := s.preqs.filter (fun q => q.id != n) } ∧
       (∀ j, j ≠ r.team → t.team? j = s.team? j) ∧
       (∀ core x, (core = r.core → x < r.off ∨ r.off + r.size ≤ x) → t.padRead r.team core x 1 = s.padRead r.team core x 1) ∧
       (tm.alloc ≠ 0 → tm.onCore r.core ≠ none → t.padRead r.team r.core r.off r.size = v % 256 ^ r.size))

/-- R262: a vault load whose lanes all reach their element puts one read of each lane on its way, and awaits its result.
LDVS does it once. R204, R205, R262: a vault store whose lanes all reach their element puts one write of each lane on its
way, once the gang's loads have merged and while its agent has less than 32,768 writes unapplied. STVS does it once. R220,
R221, R266: LR and SC act in every lane that takes effect; each puts its request on its way, and SC awaits its status.
That an access is on its way until a later step performs it, and that a store waits for the gang's loads, is the model's
form of R204 (log 6). -/
def Obligations.VaultAccessesAreRequested : Prop :=
  (∀ (s : State) (c : Ctx) (d a b : RegField), s.issuing = some c →
     let dst := fun l => dstElems d (isWide c.etype) l
     let load := c.requested (c.memLanes (isVreg d)) (c.physical a b Need.load) (fun _ => VaultKind.read) dst
     c.reaches (c.memLanes (isVreg d)) a b Need.load →
     (c.loadStop (pairOk a && (isVreg d || !isVec b)) d false [(a, true)] [(b, false)] = none → Gives (.ldv d a b) s load) ∧
     (c.loadStop (pairOk a && isSreg d && scalarOk b) d false [(a, true)] [(b, false)] = none → Gives (.ldvs d a b) s load)) ∧
  (∀ (s : State) (c : Ctx) (d a b : RegField), s.issuing = some c → s.loadsOut c.id = false →
     let store := fun (lanes : List Nat) => c.requested lanes (c.physical a b Need.store)
       (fun l => VaultKind.write (c.stored d l)) (fun _ => [])
     let fits := fun (lanes : List Nat) => c.reaches lanes a b Need.store ∧ s.unapplied c.agent + lanes.length ≤ 32767
     (fits (c.memLanes (isVec d || isVec b)) → c.storeStop (pairOk a) d [(a, true)] [(b, false)] = none →
       Gives (.stv d a b) s (store (c.memLanes (isVec d || isVec b)))) ∧
     (fits (c.memLanes false) → c.storeStop (pairOk a && scalarOk d && scalarOk b) d [(a, true)] [(b, false)] = none →
       Gives (.stvs d a b) s (store (c.memLanes false)))) ∧
  (∀ (s : State) (c : Ctx) (d a b : RegField), s.issuing = some c → atomTypeOk 6 c.etype = true →
     let dst := fun l => dstElems d (isWide c.etype) l
     let ok := pairOk a && isVreg d && isVec b
     (c.reaches c.takers a b Need.load → c.loadStop ok d false [(a, true)] [(b, false)] = none →
       Gives (.lr d a b) s (c.requested c.takers (c.physical a b Need.load) (fun _ => VaultKind.lr) dst)) ∧
     (c.reaches c.takers a b Need.store → c.loadStop ok d true [(a, true)] [(b, false)] = none →
       s.loadsOut c.id = false → s.unapplied c.agent + c.takers.length ≤ 32767 →
       Gives (.sc d a b) s (c.requested c.takers (c.physical a b Need.store)
         (fun l => VaultKind.sc (BitVec.ofNat 64 (c.stored d l))) dst)))

/-- R263 and R264: the atomic instructions put one request of each lane on its way, in increasing lane number, to the
team's scratchpad or to the vault. Performed in a scratchpad, it reads the element, stores the new value that Table 9.3
gives (a failed compare stores nothing), changes no other byte and gives its lane the old one. Table 9.3, R264, R265: the
values that the atomic operations store. That an atomic is on its way until a later step performs it is the model's form
of R200 and R204 (logs 6 and 17). -/
def Obligations.AtomicsReadModifyWrite : Prop :=
  (∀ (s : State) (c : Ctx) (d a : RegField) (b : ByteField), s.issuing = some c →
     let t := c.etype
     let w := isWide t
     let ops : List (Nat × (RegField → RegField → ByteField → Instr)) :=
       [(0, Instr.atomAdd), (1, Instr.atomMin), (2, Instr.atomMax), (3, Instr.atomAnd), (4, Instr.atomOr), (5, Instr.atomXor),
        (6, Instr.atomExch), (7, Instr.atomCas), (8, Instr.atomFadd)]
     ∀ e ∈ ops, atomTypeOk e.1 t = true → (if e.1 = 7 then c.casOk d w else c.dstOk d w) = true →
       let extra := if e.1 = 7 then regsOf (casNew d w) w else []
       let kind := fun l => VaultKind.atom e.1 (BitVec.ofNat 4 t) c.sat (BitVec.ofNat 64 (c.stored d l))
         (BitVec.ofNat 64 (c.newOf e.1 d l))
       (isVec a = true → c.srcOk a false = true → isVreg d = true →
         c.hazard (regsOf a false) [] (regsOf d w ++ extra) c.guardRegs (regsOf d w) = none →
         Gives (e.2 d a b) s (c.padRequested true (c.memLanes (isVreg d)) kind (fun l => (c.g.core, c.padAt a b l))
           (fun l => dstElems d w l))) ∧
       (isVec a = false → pairOk a = true → c.srcOk b false = true → (isVreg d || !isVec b) = true →
         c.hazard (regsOf a true) (regsOf b false) (regsOf d w ++ extra) c.guardRegs (regsOf d w) = none →
         s.loadsOut c.id = false → c.reaches (c.memLanes (isVreg d)) a b Need.atomic →
         s.unapplied c.agent + (c.memLanes (isVreg d)).length ≤ 32767 →
         Gives (e.2 d a b) s (c.requested (c.memLanes (isVreg d)) (c.physical a b Need.atomic) kind
           (fun l => dstElems d w l)))) ∧
  (∀ (s : State) (n op : Nat) (et : BitVec 4) (sat : Bool) (x new : DWord) (r : PadReq) (tm : Team) (g : Gang),
     s.preqs.find? (fun q => q.id == n) = some r → r.kind = .atom op et sat x new → s.team? r.team = some tm →
     s.gang? r.gang = some g → r.dst.Nodup → s.padReady r = true →
     let old := s.padRead r.team r.core r.off r.size
     ∃ t g', execPad n s = .next t ∧ t.gang? r.gang = some g' ∧
       t = { s with gangs := t.gangs, teams := t.teams, preqs := s.preqs.filter (fun q => q.id != n) } ∧
       (∀ j, j ≠ r.gang → t.gang? j = s.gang? j) ∧ (∀ j, j ≠ r.team → t.team? j = s.team? j) ∧
       (∀ e, r.dst = [e] → (∀ i j, e ≠ .p i j) → g'.settled e = BitVec.ofNat 32 (elemOut r.etype.toNat old)) ∧
       (∀ e f, r.dst = [e, f] → (∀ i j, e ≠ .p i j) → (∀ i j, f ≠ .p i j) →
         g'.settled e = BitVec.ofNat 32 (elemOut r.etype.toNat old) ∧
         g'.settled f = BitVec.ofNat 32 (elemOut r.etype.toNat old / 2 ^ 32)) ∧
       (∀ e, e ∉ r.dst → g'.settled e = g.settled e) ∧
       match atomNew op et.toNat sat old x.toNat new.toNat with
       | none => t.teams = s.teams
       | some v =>
         (∀ core y, (core = r.core → y < r.off ∨ r.off + r.size ≤ y) → t.padRead r.team core y 1 = s.padRead r.team core y 1) ∧
         (tm.alloc ≠ 0 → tm.onCore r.core ≠ none → t.padRead r.team r.core r.off r.size = v % 256 ^ r.size)) ∧
  (∀ (t old x new : Nat) (sat : Bool),
     atomNew 0 t sat old x new = some (fitElem t sat (elemInt t old + elemInt t x)) ∧
     (∃ v, atomNew 1 t sat old x new = some v ∧ elemInt t v = min (elemInt t old) (elemInt t x)) ∧
     (∃ v, atomNew 2 t sat old x new = some v ∧ elemInt t v = max (elemInt t old) (elemInt t x)) ∧
     atomNew 3 t sat old x new = some (old &&& x) ∧ atomNew 4 t sat old x new = some (old ||| x) ∧
     atomNew 5 t sat old x new = some (old ^^^ x) ∧ atomNew 6 t sat old x new = some x ∧
     (old = x → atomNew 7 t sat old x new = some new) ∧ (old ≠ x → atomNew 7 t sat old x new = none) ∧
     (t ≠ 15 → atomNew 8 t sat old x new = some ((fmtOf t).add RndEnv.rne old x).1) ∧
     (t = 15 → atomNew 8 t sat old x new = some
       ((Fmt.bf16.add RndEnv.rne (old % 2 ^ 16) (x % 2 ^ 16)).1 % 2 ^ 16 +
         2 ^ 16 * ((Fmt.bf16.add RndEnv.rne (old / 2 ^ 16 % 2 ^ 16) (x / 2 ^ 16 % 2 ^ 16)).1 % 2 ^ 16))))

/-- R207, R208, R267: a FENCE traps on a code that R207 refuses. It waits for the gang's vault loads and its accesses to
scratchpads by rank, of kind rel, ar or sc at scope pkg or dom for the writes that its agent's clock covers, and at scope
dom for the gang's remote operations; else it goes on. What it waits for is the model's form of R204 and R208 (log 6). -/
def Obligations.FenceWaitsForWhatItOrders : Prop :=
  ∀ (s : State) (c : Ctx) (code : ByteField), s.issuing = some c →
    let scope := code.toNat % 8
    let kind := code.toNat / 16
    let waits := s.loadsOut c.id = true ∨ s.padsOut c.id = true ∨ (kind ≠ 0 ∧ 3 ≤ scope ∧ s.uncovered (s.vcOf c.agent) = true) ∨
      (scope = 4 ∧ s.remoteBusy c.id = true)
    (4 < scope ∨ code.getLsbD 3 = true ∨ 64 ≤ code.toNat → exec (.fence code) s = .next (c.raise Cause.illegalEncoding)) ∧
    (scope ≤ 4 → code.getLsbD 3 = false → code.toNat < 64 →
      (waits → Gives (.fence code) s (fun t => ∃ g', t = s.putGang c.id g' ∧ g'.groups = c.g.groups ∧ g'.rest = c.g.rest ∧
        ∀ e, g'.settled e = c.g.settled e)) ∧
      (¬ waits → (scope = 4 → ∀ p ∈ c.g.posted, p.remote = false) → Gives (.fence code) s (c.wrote c.g.settled)))

/-- R240, R268, R269: TAGSET writes one entry of its core's table whatever it held; LDT returns the value of the lowest
way of the key's set that holds the key for the issuing team, else all ones; TAGINV invalidates the team's entries of the
key. Each takes place once the gang's earlier accesses to its own core's scratchpad are performed (R191, R200). -/
def Obligations.TagTableLooksUpTheKeysSet : Prop :=
  ∀ (s : State) (c : Ctx) (d a b : RegField), s.issuing = some c →
    let hit := fun (key : Word) (n : Nat) =>
      (c.core.tagEntry n).valid = true ∧ (c.core.tagEntry n).team = c.g.team ∧ (c.core.tagEntry n).key = key
    (b = 0xF8 → c.dstOk d false = true → c.srcOk a false = true → (isVreg d || !isVec a) = true → c.ownPadFirst = none →
      c.hazard (regsOf a false) [] [] c.guardRegs (regsOf d false) = none →
      ∃ f : Nat → Nat, Gives (.ldt d a b) s (c.wrote (c.result d false f)) ∧
        ∀ l, let key := BitVec.ofNat 32 (c.readA a false l)
          let set := key.toNat % 64
          ((∀ w < 4, ¬ hit key (4 * set + w)) → f l = 2 ^ 32 - 1) ∧
          (∀ w < 4, hit key (4 * set + w) → (∀ u < w, ¬ hit key (4 * set + u)) →
            f l = (c.core.tagEntry (4 * set + w)).val.toNat)) ∧
    (let n := (c.readS d).toNat
     c.onceStop (scalarOk d && scalarOk a && scalarOk b) (n / 256 == 0) true (regsOf a false) (regsOf b false)
       (regsOf d false) [] = none →
     (c.once = false → Gives (.tagset d a b) s (c.wrote c.g.settled)) ∧
     (c.once = true → c.ownPadFirst = none → Gives (.tagset d a b) s (fun t => ∃ k, c.went (s.putCore c.g.core k) c.g (c.pc + 4) c.g.settled t ∧
       k = { c.core with table := k.table } ∧ (∀ m, m ≠ n → k.tagEntry m = c.core.tagEntry m) ∧
       k.tagEntry n = { valid := true, team := c.g.team, key := c.readS a, val := c.readS b }))) ∧
    (let key := c.readS a
     c.onceStop (scalarOk a) true true (regsOf a false) [] [] [] = none →
     (c.once = false → Gives (.taginv a) s (c.wrote c.g.settled)) ∧
     (c.once = true → c.ownPadFirst = none → Gives (.taginv a) s (fun t => ∃ k, c.went (s.putCore c.g.core k) c.g (c.pc + 4) c.g.settled t ∧
       k = { c.core with table := k.table } ∧
       ∀ m, k.tagEntry m = { c.core.tagEntry m with
         valid := (c.core.tagEntry m).valid && !(decide (m / 4 = key.toNat % 64 ∧ hit key m)) })))

/-- R204, R220, R221, R222: a request that may be performed. A store changes the bytes it names and no other byte; an
atomic stores its new value and an SC its word if its lane still holds the granule, and each answers its lane, in one
register or in a pair; an applied write ends every other lane's reservation of every granule that it touches, and what
waits for a store (an interrupt) is sent after it. A read changes no byte and gives its lane the bytes as they stand; an
LR also takes the reservation. R410, R430: a lane's read, or its write of a part of a word, that meets a word which cannot
be corrected is not performed; once the other lanes of its instruction have their answers the gang takes the trap
PERMISSION, with ECC in the lane's record, and until then its group waits. That requests are performed by steps of their
own is the model's form of R204 (log 6), and so is that such a word is found by the step that performs the request (log
45). -/
def Obligations.VaultRequestsArePerformed : Prop :=
  ∀ (s : State) (n : Nat) (r : VaultReq), s.vreqs.find? (fun q => q.id == n) = some r → s.reqReady r = true →
    0 < r.size → n < s.next →
    let old := Memory.readNat s.vault r.pa r.size
    let result := fun (t : State) (v : Nat) => ∀ id l g, r.actor = .lane id l → s.gang? id = some g → ∃ g', t.gang? id = some g' ∧
      (∀ e, r.dst = [e] → (∀ i j, e ≠ .p i j) → g'.settled e = BitVec.ofNat 32 v) ∧
      (∀ e f, r.dst = [e, f] → e ≠ f → (∀ i j, e ≠ .p i j) → (∀ i j, f ≠ .p i j) →
        g'.settled e = BitVec.ofNat 32 v ∧ g'.settled f = BitVec.ofNat 32 (v / 2 ^ 32)) ∧
      (∀ e, e ∉ r.dst → g'.settled e = g.settled e) ∧ (∀ w ∈ g'.awaits, w.kind ≠ .vault r.id)
    let silent := fun (t : State) => ∀ x, (x < r.pa ∨ r.pa + r.size ≤ x) → Memory.readByte t.vault x = Memory.readByte s.vault x
    let broken := fun (t : State) => ∀ id g, t.gang? id = some g → ∀ l, r.actor ≠ .lane id l →
      ∀ x, r.pa ≤ x → x < r.pa + r.size → g.reserved l ≠ some (granuleOf x)
    let corrected := ∀ id l, r.actor = .lane id l → s.findsError r = false
    (r.kind.writes = true → corrected → Gives (.vaultWriteApply n) s (fun t => silent t ∧ (∀ q ∈ t.vreqs, q.id ≠ r.id) ∧
      (∀ v, r.kind = .write v → Memory.readNat t.vault r.pa r.size = v % 256 ^ r.size ∧ broken t ∧
        ∀ x ∈ r.after, x ∈ t.out) ∧
      (∀ op et sat x new, r.kind = .atom op et sat x new → result t (elemOut r.etype.toNat old) ∧
        match atomNew op et.toNat sat old x.toNat new.toNat with
        | some v => Memory.readNat t.vault r.pa r.size = v % 256 ^ r.size ∧ broken t
        | none => t.vault = s.vault) ∧
      (∀ v id l g, r.kind = .sc v → r.actor = .lane id l → s.gang? id = some g →
        (g.reserved l = some (granuleOf r.pa) →
          Memory.readNat t.vault r.pa r.size = v.toNat % 256 ^ r.size ∧ broken t ∧ result t 0) ∧
        (g.reserved l ≠ some (granuleOf r.pa) → t.vault = s.vault ∧ result t 1) ∧
        ∃ g', t.gang? id = some g' ∧ g'.reserved l = none))) ∧
    (r.kind.writes = false → r.kind.loads = true → corrected →
      Gives (.vaultReadReply n) s (fun t => t.vault = s.vault ∧ (∀ q ∈ t.vreqs, q.id ≠ r.id) ∧
        result t (elemOut r.etype.toNat old) ∧
        (∀ id l g, r.kind = .lr → r.actor = .lane id l → s.gang? id = some g → ∃ g', t.gang? id = some g' ∧
          g'.reserved l = some (granuleOf r.pa) ∧ ∃ h ∈ t.holds, h.granule = granuleOf r.pa))) ∧
    (∀ id l g x, r.actor = .lane id l → s.findsError r = true → s.gang? id = some g →
      g.groups.find? (fun y => y.slices.getLsbD (sliceOf l)) = some x → x.park = none →
      let i := if r.kind.writes = true then Instr.vaultWriteApply n else Instr.vaultReadReply n
      let record : LaneRecord := { addr := BitVec.ofNat 64 r.va, cause := Cause.permission, flags := 5, more := 0, detail := 0 }
      let mine := fun q : VaultReq => q.batch = r.batch ∧ q.actor = r.actor
      let others := ∃ q ∈ s.vreqs, q.batch = r.batch ∧ ¬ mine q ∧ q.kind.loads = true
      let fails := fun (P : Gang → Prop) => Gives i s (fun t => t.vault = s.vault ∧ t.badWords = s.badWords ∧
        (∀ q ∈ t.vreqs, ¬ mine q) ∧ ∃ g', t.gang? id = some g' ∧ P g')
      (others → fails (fun g' => (∀ e, g'.settled e = g.settled e) ∧ ∃ y ∈ g'.groups, y.slices = x.slices ∧
        y.pc = x.pc ∧ y.park = some (.faulting r.batch r.opc [(l, record)]))) ∧
      (¬ others → g.inh = false → (s.part (s.teamPart g.team)).then_ = true →
        fails (fun g' => g'.inh = true ∧ g'.trap.cause = Cause.permission ∧ g'.trap.tpc = x.pc ∧ g'.trap.opc = r.opc ∧
          g'.laneRecord l = record ∧ ∀ e, g'.elem e = g.settled e)))

/-- R412 and R415: outside handler mode, with a handler, a trap makes every result on its way visible, drops the gang's
reservations and holds, captures groups, emask and MR, records the trap state and the lane records, and enters the handler
as one group of every live slice with every live lane enabled. R47: the reconvergence point is the PC of the
lowest-numbered slice that is parked on REGANG, with KNOWN, else the PC after the instruction. An LR on its way only reads
from then on (R220; that an LR may still be on its way then is the model's form, log 6). The vault, other gangs, MR,
barriers and counters stay. R413 and R422: with no handler (THEN = 0) a running team stops as CANCEL stops one: its gangs
have ended, its barriers are released, its launch has a stopped team more and none that counts; the core's stop record,
with the gang's slot, the cause and the PC, is put on its way as one store of the IOD agent, where STOPBASE's area lies in
the partition's range; no other team and no halt line is touched. -/
def Obligations.TrapEntrySavesAndEnters : Prop :=
  (∀ (s : State) (id : Nat) (g : Gang) (t : TrapInfo), s.gang? id = some g → g.inh = false →
    (s.part (s.teamPart g.team)).then_ = true →
    let s' := s.takeTrap id t
    s' = { s with
      gangs := s'.gangs
      holds := s'.holds
      vreqs := s.vreqs.map (fun r =>
        if r.kind = .lr ∧ r.actor.gang? = some id then { r with kind := VaultKind.read } else r) } ∧
    (∀ j, j ≠ id → s'.gang? j = s.gang? j) ∧
    (∀ h ∈ s'.holds, h.gang ≠ id) ∧
    ∃ g', s'.gang? id = some g' ∧ g'.inh = true ∧
      g'.groups = [{ slices := g.live, pc := (s.part (s.teamPart g.team)).th, park := none, since := 0 }] ∧
      (∀ l < 32, g'.emask.getLsbD l = !g.exited.getLsbD l) ∧
      (∀ e, g'.elem e = g.settled e) ∧ g'.pend = [] ∧ g'.reserve = [] ∧
      g'.mr = g.mr ∧ g'.acr = g.acr ∧ g'.k = g.k ∧ g'.mbox = g.mbox ∧ g'.exited = g.exited ∧
      (∃ b, g'.block = some b ∧ b.trapping = t.group ∧ b.emask = g.emask ∧ b.mr = g.mr ∧
        b.groups.map Group.slices = g.groups.map Group.slices ∧ b.groups.map Group.pc = g.groups.map Group.pc) ∧
      g'.trap.cause = t.cause ∧ g'.trap.imm = t.imm ∧ g'.trap.tpc = t.tpc ∧ g'.trap.opc = t.opc ∧
      g'.trap.tmask = t.tmask ∧ g'.trap.group = t.group ∧ g'.trap.live = g.live ∧ g'.trap.defer = t.defer ∧
      g'.trap.ngrp = g.groups.length ∧ g'.trap.laneClass = decide (0x10 ≤ t.cause.toNat ∧ t.cause.toNat ≤ 0x16) ∧
      ((∀ x ∈ g.groups, x.atRegang = false) → g'.trap.known = false ∧ g'.trap.rpc = t.after) ∧
      (g.groups.Pairwise (fun x y => lowestSlice x.slices < lowestSlice y.slices) → ∀ x ∈ g.groups, x.atRegang = true →
        (∀ y ∈ g.groups, y.atRegang = true → lowestSlice x.slices ≤ lowestSlice y.slices) →
        g'.trap.known = true ∧ g'.trap.rpc = x.pc) ∧
      (∀ l, (∀ r ∈ t.records, r.1 ≠ l) → g'.laneRecord l = LaneRecord.zero) ∧
      (∀ l r, (l, r) ∈ t.records → (∀ q, (l, q) ∈ t.records → q = r) → g'.laneRecord l = r) ∧
      (∀ l < 32, g'.trap.tlanes.getLsbD l = t.records.any (fun x => x.1 == l))) ∧
  (∀ (s : State) (id : Nat) (g : Gang) (t : TrapInfo) (tm : Team), s.gang? id = some g → g.inh = false →
    (s.part (s.teamPart g.team)).then_ = false → s.team? g.team = some tm → tm.status = .running →
    let s' := s.takeTrap id t
    let p := s.part (s.teamPart g.team)
    let pa := p.stopbase * 65536 + 64 * g.core
    s'.vault = s.vault ∧ (∀ n, (s'.part n).halted = (s.part n).halted) ∧
    (∃ tm', s'.team? g.team = some tm' ∧ tm'.status = .stopped ∧ tm'.barriers = [] ∧ tm'.workgets = []) ∧
    (∀ j gj, s.gang? j = some gj → gj.team = g.team → ∃ gj', s'.gang? j = some gj' ∧ gj'.groups = [] ∧ gj'.ended = true ∧
      gj'.stopped = true ∧ gj'.mbox = []) ∧
    (∀ j gj, s.gang? j = some gj → gj.team ≠ g.team → s'.gang? j = some gj) ∧
    (∀ j, j ≠ g.team → s'.team? j = s.team? j) ∧
    (∀ l, s.launch? tm.launch = some l → ∃ l', s'.launch? tm.launch = some l' ∧ l'.stopped = true ∧
      l'.counted = l.counted ∧ l'.gone = l.gone + 1 + tm.withdrawn.length) ∧
    (p.owns pa 64 = true → s.iodq = [] → s.fullOf 4 = false → ∃ (r : VaultReq) (bs : List Byte), r ∈ s'.vreqs ∧
      r.agent = 4 ∧ r.pa = pa ∧ r.size = 64 ∧ r.kind = .write (leNat bs) ∧ bs.length = 64 ∧
      let field := fun o n : Nat => leNat ((bs.drop o).take n)
      field 0 1 = 1 ∧ field 2 2 = g.core % 65536 ∧ field 24 1 = g.slot % 256 ∧ field 25 1 = t.cause.toNat ∧
      field 32 8 = t.tpc.toNat))

/-- R54, R126, R410, R414, R416, R478: BRK traps BREAKPOINT at itself, TRAP traps SOFTWARE under once() with the next word
as TPC, an unassigned opcode traps ILLEGAL_OPCODE, and a word that cannot be fetched traps with one record. Taken in
handler mode, any of them is CONTEXT_FATAL: the partition's halt line rises with FATAL. The record of a fetch fault is
that of the lowest-numbered lane of the group that has not exited. -/
def Obligations.TrappingWordsTakeTheirTrap : Prop :=
  ∀ (s : State) (c : Ctx) (imm : BitVec 16) (w : BitVec 32), s.issuing = some c →
    let info := fun (cause : Byte) (i : BitVec 16) (tpc : VAddr) =>
      ({ cause := cause, imm := i, tpc := tpc, opc := c.pc, after := c.pc + 4, tmask := c.tmask, group := c.slices,
         defer := false, records := [] } : TrapInfo)
    exec (.brk imm) s = .next (s.takeTrap c.id (info 0x19 imm c.pc)) ∧
    exec (.illegalOpcode w) s = .next (s.takeTrap c.id (info 0x01 0 c.pc)) ∧
    (c.hazard [] [] [] c.guardRegs [] = none →
      (c.once = true → exec (.trap imm) s = .next (s.takeTrap c.id (info 0x18 imm (c.pc + 4)))) ∧
      (c.once = false → Gives (.trap imm) s (c.wrote c.g.settled))) ∧
    (∀ cause lane, s.fetchWord c.part c.pc = .error cause →
      c.slices.getLsbD (lane / 4) = true → lane < 32 → c.g.exited.getLsbD lane = false →
      (∀ l < lane, c.slices.getLsbD (l / 4) = true → c.g.exited.getLsbD l = true) →
      exec .fetchFault s = .next (s.takeTrap c.id { info cause 0 c.pc with
        records := [(lane, { addr := BitVec.ofNat 64 c.pc.toNat, cause := cause, flags := 1, more := 0, detail := 0 })] })) ∧
    (c.g.inh = true → (s.part (s.teamPart c.g.team)).halted = false → ∀ t : TrapInfo,
      let p := (s.takeTrap c.id t).part (s.teamPart c.g.team)
      p.halted = true ∧ p.fatal = true ∧ p.first = 0x20 ∧ p.hseq = (s.part (s.teamPart c.g.team)).hseq + 1)

/-- R417: TRET outside handler mode traps ILLEGAL_ENCODING. In it, every result is visible, the captured groups stand
again, the trapping one at TPC, in increasing order of lowest slice, with their arrivals, emask and MR; lanes that exited
in the handler stay disabled, and a group all of whose slices are dead is gone. That the handler's own results on their
way are visible then is the model's choice (log 64). -/
def Obligations.TrapReturnRestoresTheCapturedGroups : Prop :=
  ∀ (s : State) (c : Ctx), s.issuing = some c →
    (c.g.inh = false → exec .tret s = .next (c.raise Cause.illegalEncoding)) ∧
    (∀ b, c.g.inh = true → c.g.block = some b → c.g.live ≠ 0 →
      let kept := (b.groups.filter (fun x => x.slices &&& c.g.live != 0)).map (fun x =>
        { x with slices := x.slices &&& c.g.live, pc := if x.slices = b.trapping then c.g.trap.tpc else x.pc, idle := 0 })
      Gives .tret s (fun t => ∃ g', t = s.putGang c.id g' ∧ g'.inh = false ∧ g'.block = none ∧ g'.mr = b.mr ∧
        (∀ l < 32, g'.emask.getLsbD l = (b.emask.getLsbD l && !c.g.exited.getLsbD l)) ∧
        (∀ e, g'.elem e = c.g.settled e) ∧ g'.trap = TrapState.zero ∧ (∀ l, g'.laneRecord l = LaneRecord.zero) ∧
        (∀ y, y ∈ g'.groups.map (fun x => (x.slices, x.pc)) ↔ y ∈ kept.map (fun x => (x.slices, x.pc))) ∧
        g'.groups.Pairwise (fun x y => lowestSlice x.slices ≤ lowestSlice y.slices) ∧
        (c.g.live = c.g.trap.live → ∀ y, y ∈ g'.groups ↔ y ∈ kept) ∧
        g'.exited = c.g.exited ∧ g'.acr = c.g.acr ∧ g'.k = c.g.k ∧ g'.mbox = c.g.mbox ∧ g'.evpend = c.g.evpend))

/-- R108, R109, R392, R418, R428: ACRRD and ACRWR read and write ACR, reserved bits excepted; HALT raises the partition's
halt line and TLBINV drops its cached translations, both from a privileged gang alone; CTXSV parks; TSAVE and TLOAD, in
handler mode alone, write the reconvergence block and read it back, setting BADBLK for one that is not a block of this
gang; a group whose bytes are unchanged stands as it was captured. The opaque bytes of the block are free (logs 7 and 34).
-/
def Obligations.RecoveryInstructionsComplete : Prop :=
  ∀ (s : State) (c : Ctx) (d a : RegField), s.issuing = some c → c.once = true →
    let x := c.readS a
    let lo := (c.sval (a.toNat - 0xC0)).toNat
    let hi := (c.sval (a.toNat - 0xC0 + 1)).toNat
    (c.onceStop (scalarDst d) true true [] [] [] (regsOf d false) = none →
      Gives (.acrrd d) s (c.wroteAt [(.s (d.toNat - 0xC0), c.g.acr)])) ∧
    (c.onceStop (scalarOk a) true true (regsOf a false) [] [] [] = none →
      Gives (.acrwr a) s (c.went s { c.g with acr := x &&& 0xFFFF011F#32 } (c.pc + 4) c.g.settled)) ∧
    (c.interlock c.guardRegs = none → c.privileged = false → exec .halt s = .next (c.raise Cause.privileged)) ∧
    (c.onceStop true true c.privileged [] [] [] [] = none → Gives .halt s (fun t => (t.part c.part).halted = true ∧
      ((s.part c.part).halted = false → (t.part c.part).hseq = (s.part c.part).hseq + 1 ∧ (t.part c.part).fatal = false))) ∧
    (c.onceStop (blockOk a 54) (bits hi 31 24 == 0) c.privileged (sregs (a.toNat - 0xC0) 2) [] [] [] = none →
      Gives (.tlbinv a) s (fun t => ∃ tlb, c.went { s with tlb := tlb } c.g (c.pc + 4) c.g.settled t ∧
        ∀ p, p ∈ tlb ↔ p ∈ s.tlb ∧ ¬ (p.part = c.part ∧ (lo % 2 = 1 ∨
          p.va = (lo / 2 ^ 16 * 2 ^ 16 + hi % 2 ^ 24 * 2 ^ 32) / p.size * p.size)))) ∧
    (∀ tm, c.team = some tm → c.onceStop (scalarOk a) (decide (x.toNat ≤ 1)) true (regsOf a false) [] [] [] = none →
      (x = 0 → tm.victim = false → Gives (.ctxsv a) s (c.wrote c.g.settled)) ∧
      (x = 1 ∨ tm.victim = true → Gives (.ctxsv a) s (fun t => ∃ g', t.gang? c.id = some g' ∧ g'.ctxsv = true ∧
        t.team? c.g.team = some { tm with victim := true } ∧ (∃ y ∈ g'.groups, y.slices = c.slices ∧ y.pc = c.pc ∧
          y.park = some .ctxsv)))) ∧
    (c.g.inh = false → exec (.tsave a) s = .next (c.raise Cause.illegalEncoding) ∧
      exec (.tload a) s = .next (c.raise Cause.illegalEncoding)) ∧
    (∀ rs, c.blockStop a = none → c.blockRuns a Need.store = .ok rs → s.loadsOut c.id = false →
      s.unapplied c.agent + rs.length ≤ 32767 →
      exec (.tsave a) s = .next (State.pushRuns (.engine c.id) c.agent rs (c.g.snapshot.bytes c.g.index c.tid) c.skip)) ∧
    (∀ rs, c.blockStop a = none → c.blockRuns a Need.load = .ok rs → c.sourceFirst = none →
      let bs := rs.flatMap (fun r => Memory.readBytes s.vault r.1 r.2)
      let s1 := s.mergeRuns c.agent rs
      (∀ b, Block.ofBytes bs c.g.index c.tid c.g.live = some b → Gives (.tload a) s
        (c.went s1 { c.g with block := some (c.g.blockBack b), trap := { c.g.trap with loaded := true } } (c.pc + 4) c.g.settled)) ∧
      (Block.ofBytes bs c.g.index c.tid c.g.live = none → Gives (.tload a) s
        (c.went s1 { c.g with trap := { c.g.trap with badblk := true } } (c.pc + 4) c.g.settled))) ∧
    (∀ b k : Block, c.g.block = some k → (c.g.blockBack b).groups.length = b.groups.length ∧
      (c.g.blockBack b).trapping = b.trapping ∧ (c.g.blockBack b).emask = b.emask ∧ (c.g.blockBack b).mr = b.mr ∧
      ∀ (i : Nat) (x : Group), b.groups[i]? = some x → ∃ y, (c.g.blockBack b).groups[i]? = some y ∧ y.blockBytes = x.blockBytes ∧
        ((∀ z ∈ k.groups, z.blockBytes ≠ x.blockBytes) → y = x) ∧
        ((∃ z ∈ k.groups, z.blockBytes = x.blockBytes) → y ∈ k.groups))

/-- R29, R315, R316, R332, R423, R429, R430, R222: the steps by which a turn passes after 32 issues, a deadline latches, a
trap that fell outside an instruction is taken, a REGANG that nobody can complete is undone and trapped, a halt ends by
RESUME or by DISCARD, which a function can write once the package is READY (R469), errors are counted, and an LR hold
expires, 256 cycles after its LR. That SCRUB finds nothing and that an error is a step which names its place (log 45),
that the counts wrap (log 54), and that a hold's expiry is a step of its own (log 58) are the model's readings. -/
def Obligations.RecoveryStepsHaveTheirEffect : Prop :=
  ∀ (s : State) (core slot gang part n : Nat) (g : Gang) (place : ErrorPlace), s.gang? gang = some g →
    (∀ id h, s.gangAt core slot = some (id, h) → 32 ≤ h.turnIssues →
      Gives (.groupTurnSwitch core slot) s (fun t => t = s.putGang id { h with turn := h.nextTurn, turnIssues := 0 })) ∧
    (g.deadline ≠ 0 → s.resident g = true → Gives (.deadlineExpiry gang) s (fun t =>
      t = s.putGang gang { g with deadline := 0, evpend := g.evpend ||| BitVec.ofNat 19 (2 ^ 18) })) ∧
    (∀ p, g.trapDue = some p → s.teamRuns g.team = true →
      let g1 := { g with pendTraps := g.pendTraps.erase p }
      let m := p.slices &&& g.live
      (g.group? m = none → Gives (.trapEntry gang) s (fun t => t = s.putGang gang g1)) ∧
      (g.group? m ≠ none → Gives (.trapEntry gang) s (fun t => t = (s.putGang gang g1).takeTrap gang
        { cause := p.cause, imm := 0, tpc := p.tpc, opc := p.opc, after := p.opc + 4, tmask := g.activeMask m, group := m,
          defer := false, records := [] }))) ∧
    (∀ x, g.groups ≠ [] → (∀ y ∈ g.groups, y.atRegang = true) → g.pendTraps = [] → s.resident g = true →
      (s.part (s.teamPart g.team)).halted = false →
      g.groups.find? (fun y => y.slices.getLsbD (lowestSlice g.live)) = some x →
      Gives (.regangDeadlock gang) s (fun t =>
        t = (s.putGang gang (g.modGroup x.slices (fun y => { y with park := none }))).takeTrap gang
          { cause := 0x0A, imm := 0, tpc := x.pc, opc := x.pc, after := x.pc + 4, tmask := g.activeMask x.slices,
            group := x.slices, defer := false, records := [] })) ∧
    (s.house.phase ≠ 5 → exec (.hctlResume part) s = .next s ∧ exec (.hctlDiscard part) s = .next s) ∧
    (s.house.phase = 5 → (s.part part).halted = true → (s.part part).fatal = false → s.house.cooling = false →
      Gives (.hctlResume part) s (fun t => (t.part part).halted = false ∧ (t.part part).hseq = (s.part part).hseq ∧
        t.teams = s.teams ∧ t.vault = s.vault)) ∧
    ((s.part part).halted = true → (s.part part).fatal = true → exec (.hctlResume part) s = .next s) ∧
    (s.house.phase = 5 → (s.part part).halted = true → Gives (.hctlDiscard part) s (fun t => (t.part part).halted = false ∧
      (∀ id l, t.launch? id = some l → l.part ≠ part) ∧
      (∀ id tm, t.team? id = some tm → tm.part = part → tm.status ≠ .running ∧ tm.status ≠ .saved))) ∧
    Gives (.singleBitError part) s (fun t => t = s.modPart part (fun p => { p with sece := (p.sece + 1) % 2 ^ 32 })) ∧
    Gives (.uncorrectableError part place) s (fun t => (t.part part).seue = ((s.part part).seue + 1) % 2 ^ 32 ∧
      (∀ k row, place = .accRow k row → t.cores = Tbl.set Core.reset s.cores k ((s.core k).putPoison row true)) ∧
      (∀ k e, place = .tagEntry k e → t.cores = Tbl.set Core.reset s.cores k ((s.core k).putTagEntry e TagEntry.reset)) ∧
      (∀ pa, place = .vaultWord pa → ∀ w, w ∈ t.badWords ↔ w ∈ s.badWords ∨ w = pa / 8) ∧
      (∀ p, place = .stopArea p → (t.part p).halted = true ∧ (t.part p).fatal = true)) ∧
    Gives .scrub s (fun t => t = s) ∧
    Gives (.lrHoldExpiry n) s (fun t => t = { s with holds := t.holds } ∧ ∀ h, h ∈ t.holds ↔ h ∈ s.holds ∧
      (h.id ≠ n ∨ s.now < h.til))

/-- R389, R391, R393, R402: SYSRD and SYSWR of a register that the gang may not reach trap PRIVILEGED: 0x1000 to 0x17FF
asks for a privileged gang, the trap state also admits a gang in its handler, 0x18C0 up is written by a privileged gang
alone, and optics and circuits by one whose partition owns a pair. SYSRD gives the register's value and clears it if reads
clear it. A host's write through BAR0 has the effect of a privileged gang's, once the function reaches the register, but
for the circuit registers and those of Table 17.7, which the physical function does not write (R367, R389); a host's read
gives the value and clears it likewise. A queue's WR carries the writes that the gang has seen to the distributor (R292).
The value of every register stands field by field as its table gives it: Tables 2.4, 2.5, 3.10, 3.11, 8.5, 10.1, 11.8,
14.1 to 14.6, 16.3, 17.2, 17.3, 17.7, 18.5 to 18.8 and 21.3; a register of a pair, a link or a channel that the partition
does not own reads zero (R390), an address of no range reads zero. -/
def Obligations.SystemRegistersAskForPrivilege : Prop :=
  (∀ (s : State) (c : Ctx) (d : RegField) (addr : BitVec 16) (src : Source) (part a : Nat) (v : Word), s.issuing = some c →
    let n := addr.toNat
    (c.mayRead n = true ↔ ((0x1000 ≤ n ∧ n < 0x1800 → c.privileged = true) ∧
      (0x1800 ≤ n ∧ n < 0x1900 → c.privileged = true ∨ c.g.inh = true))) ∧
    (c.mayWrite n = true ↔ ((0x1000 ≤ n ∧ n < 0x1800 → c.privileged = true) ∧
      (0x1800 ≤ n ∧ n < 0x18C0 → c.privileged = true ∨ c.g.inh = true) ∧ (0x18C0 ≤ n ∧ n < 0x1900 → c.privileged = true) ∧
      (0x4000 ≤ n ∧ n < 0x5800 → c.privileged = true ∧ s.ownsSome c.part = true))) ∧
    (isSreg d = true → c.interlock (c.guardRegs ++ regsOf d false) = none → c.mayRead n = false →
      exec (.sysrd d addr) s = .next (c.raise Cause.privileged)) ∧
    (scalarOk d = true → c.interlock (regsOf d false ++ c.guardRegs) = none → c.mayWrite n = false →
      exec (.syswr d addr) s = .next (c.raise Cause.privileged)) ∧
    (c.onceStop (isSreg d) true (c.mayRead n) [] [] [] (regsOf d false) = none →
      (c.once = false → Gives (.sysrd d addr) s (c.wrote c.g.settled)) ∧
      (c.once = true → Gives (.sysrd d addr) s (c.went (s.afterRead false c.part n) c.g (c.pc + 4)
        (fun e => if e = .s (d.toNat - 0xC0) then BitVec.ofNat 32 (c.sysReg n) else c.g.settled e)))) ∧
    (c.onceStop (scalarOk d) true (c.mayWrite n) [] [] (regsOf d false) [] = none →
      (c.once = false → Gives (.syswr d addr) s (c.wrote c.g.settled)) ∧
      (c.once = true → n < 0x200 → Gives (.syswr d addr) s
        (c.went s (c.g.writePlumb n (c.readS d)) (c.pc + 4) c.g.settled)) ∧
      (c.once = true → 0x1800 ≤ n → n < 0x18C0 → Gives (.syswr d addr) s
        (c.went s (c.g.writeTrap n (c.readS d)) (c.pc + 4) c.g.settled)) ∧
      (c.once = true → 0x1200 ≤ n → n < 0x1280 → n % 4 = 3 →
        exec (.syswr d addr) s = .next (c.skip.releaseToIod.writeShared false c.part n (c.readS d))) ∧
      (c.once = true → 0x200 ≤ n → ¬ (0x1800 ≤ n ∧ n < 0x18C0) → ¬ (0x1200 ≤ n ∧ n < 0x1280 ∧ n % 4 = 3) →
        exec (.syswr d addr) s = .next (c.skip.writeShared false c.part n (c.readS d)))) ∧
    (s.hostReaches (src == .pf) a = true → s.hostMayWrite (src == .pf) part a = true →
      exec (.registerWrite src part a v) s = .next (s.writeShared (src == .pf) part a v)) ∧
    (s.house.phase ≠ 5 → src ≠ .pf → exec (.registerWrite src part a v) s = .next s) ∧
    (src = .pf → 0x5000 ≤ a → a < 0x5800 → exec (.registerWrite src part a v) s = .next s) ∧
    (let t := s.hostRegister src part a
     (s.hostReaches (src == .pf) a = false → t = s) ∧
     (s.hostReaches (src == .pf) a = true →
       t.out = s.out ++ [.hostRegister src part a (BitVec.ofNat 32 (s.sharedReg (src == .pf) part a))] ∧ t.gangs = s.gangs ∧
       t.vault = s.vault ∧ (a = 0x100F → (t.part part).fqlost = 0) ∧ (a = 0x18C7 → (t.part part).stopLost = 0) ∧
       (a = 0x18C8 → (t.part part).sece = 0) ∧ (a = 0x18C9 → (t.part part).seue = 0))) ∧
    (0x18C0 ≤ a → a < 0x1900 → s.hostMayWrite true part a = false ∧ s.hostMayWrite false part a = true)) ∧
  (∀ c : Ctx,
    let v := c.sysReg
    let f := fun a lo n : Nat => v a / 2 ^ lo % 2 ^ n
    let s := c.s
    let p := s.part c.part
    let r := c.g.trap
    let h := s.house
    (f 0 0 8 = c.g.live.toNat ∧ f 0 8 8 = c.slices.toNat ∧ f 0 24 4 = c.g.groups.length % 16 ∧ f 0 28 4 = c.g.parted.toNat ∧
      ∀ i < 8, f 0 (16 + i) 1 = 1 ↔ ∃ x ∈ c.g.groups, x.atRegang = true ∧ x.slices.getLsbD i = true) ∧
    (∀ l < 32, f 1 l 1 = 1 ↔ c.g.exited.getLsbD l = false) ∧
    (∀ i < 19, f 2 i 1 = 1 ↔ c.g.evpend.getLsbD i = true) ∧ (∀ i < 8, f 2 (19 + i) 1 = 1 ↔ (c.g.mailbox i).isSome = true) ∧
    (f 2 27 1 = 1 ↔ c.g.deadline ≠ 0) ∧ v 3 = c.g.evmask.toNat ∧ v 4 = c.g.deadline % 2 ^ 32 ∧
    (f 0x10 0 15 = s.allowance c.g % 2 ^ 15 ∧ f 0x10 15 1 = c.g.fixedAllow.isSome.toNat ∧
      f 0x10 16 16 = s.outstanding c.id % 2 ^ 16) ∧
    (∀ n < 16, v (0x20 + n) = (c.barrierOf n).bytes % 2 ^ 32 ∧ v (0x30 + n) = (c.barrierOf n).ebytes % 2 ^ 32) ∧
    v 0x180 = c.g.plumbEn.toNat ∧ v 0x181 = c.g.plumbSt.toNat ∧
    (f 0x1800 0 8 = r.cause.toNat ∧ f 0x1800 8 2 = r.laneClass.toNat ∧ f 0x1800 10 1 = r.known.toNat ∧
      f 0x1800 11 1 = r.defer.toNat ∧ f 0x1800 12 1 = r.badblk.toNat ∧ f 0x1800 13 3 = r.loaded.toNat ∧
      f 0x1800 16 16 = r.imm.toNat) ∧
    (v 0x1801 + 2 ^ 32 * v 0x1802 = r.tpc.toNat ∧ v 0x1803 = r.tmask.toNat ∧ v 0x1804 = r.tlanes.toNat ∧
      v 0x1805 + 2 ^ 32 * v 0x1806 = r.rpc.toNat ∧ v 0x1807 + 2 ^ 32 * v 0x1808 = r.opc.toNat) ∧
    (f 0x1809 0 8 = r.group.toNat ∧ f 0x1809 8 8 = r.live.toNat ∧ f 0x1809 16 4 = r.ngrp % 16 ∧
      f 0x1809 20 12 = c.g.inh.toNat) ∧
    (∀ l < 32, let x := c.g.laneRecord l
      v (0x1820 + 4 * l) + 2 ^ 32 * v (0x1821 + 4 * l) = x.addr.toNat ∧ f (0x1822 + 4 * l) 0 8 = x.cause.toNat ∧
      f (0x1822 + 4 * l) 8 8 = x.flags.toNat ∧ f (0x1822 + 4 * l) 16 16 = x.more.toNat ∧
      v (0x1823 + 4 * l) = x.detail.toNat) ∧
    (f 0x1000 0 4 = c.part % 16 ∧ f 0x1000 4 28 = s.pkg % 1024 ∧ v 0x1001 = p.privq.toNat ∧
      (∀ i < 6, i ≠ 3 → (f 0x1002 i 1 = 1 ↔ p.modes.getLsbD i = true)) ∧ f 0x1002 3 1 = s.rot.hostm.toNat ∧
      v 0x1003 = p.vbase ∧ v 0x1004 = p.vsize ∧ v 0x1005 + 2 ^ 32 * v 0x1006 = p.clusters.toNat ∧
      (p.ptbase < 2 ^ 21 → f 0x1007 0 21 = p.ptbase ∧ v 0x1007 / 2 ^ 21 = p.topbits) ∧
      f 0x1008 0 16 = p.seq.toNat ∧ f 0x1008 16 16 = p.stale.toNat ∧ f 0x1009 0 17 = p.nseq.toNat ∧
      f 0x1009 17 15 = p.shootBusy.toNat ∧ v 0x100A = p.dombase ∧ v 0x100B = p.commbase ∧
      (p.fqbase < 2 ^ 16 → f 0x100C 0 16 = p.fqbase ∧ v 0x100C / 2 ^ 16 = p.fqlog2n) ∧
      f 0x100D 0 16 = p.fqwr.toNat ∧ f 0x100D 16 16 = p.fqrd.toNat ∧ v 0x100E = 0 ∧ v 0x100F = p.fqlost ∧
      f 0x1010 0 8 = p.fqvec.toNat ∧ f 0x1010 8 8 = p.shvec.toNat ∧ f 0x1010 16 8 = p.atvec.toNat ∧
      f 0x1010 24 8 = p.stvec.toNat ∧ (p.modid < 2 ^ 12 → f 0x1020 0 16 = p.modid ∧
        v 0x1020 / 2 ^ 16 = Tbl.get 0 p.trust p.modid) ∧ v 0x1040 = p.attaddr ∧
      f 0x1041 0 1 = 0 ∧ f 0x1041 1 1 = p.abusy.toNat ∧ f 0x1041 2 30 = p.aerr.toNat ∧
      (∀ n < 8, ∀ k < 16, (s.meas? n).length = 64 → leBytes 4 (v (0x1080 + 16 * n + k)) =
        ((s.meas? n).drop (4 * k)).take 4)) ∧
    (∀ q < 32, let x := p.queue q
      v (0x1200 + 4 * q) + 2 ^ 32 * v (0x1201 + 4 * q) = x.base % 2 ^ 56 ∧ f (0x1202 + 4 * q) 0 1 = x.en.toNat ∧
      f (0x1202 + 4 * q) 1 7 = x.log2n % 16 ∧ f (0x1202 + 4 * q) 8 24 = x.ref.toNat ∧
      f (0x1203 + 4 * q) 0 16 = x.wr.toNat ∧ f (0x1203 + 4 * q) 16 16 = x.rd.toNat) ∧
    (f 0x1700 0 3 = h.phase % 8 ∧ f 0x1700 3 1 = h.meshDown.toNat ∧ f 0x1700 4 1 = h.hot.toNat ∧ f 0x1700 5 11 = h.err % 8 ∧
      f 0x1700 16 16 = h.fwver.toNat ∧ f 0x1701 0 2 = h.req.toNat ∧ f 0x1701 2 2 = h.cur.toNat ∧
      f 0x1701 4 28 = h.ref.toNat ∧ f 0x1702 0 10 = h.tmax.toNat ∧ f 0x1702 10 6 = h.tdie.toNat ∧
      f 0x1702 16 16 = h.pwr.toNat ∧ f 0x1703 0 12 = h.pcap.toNat ∧ f 0x1703 12 4 = h.pcx.toNat ∧
      f 0x1703 16 16 = h.pcvec.toNat) ∧
    (v 0x18C0 + 2 ^ 32 * f 0x18C1 0 24 = p.th.toNat ∧ f 0x18C1 24 8 = p.then_.toNat ∧ v 0x18C2 = p.ctxbase ∧
      v 0x18C3 = p.ctxsize ∧ v 0x18C4 = p.stopbase ∧ f 0x18C5 0 1 = p.halted.toNat ∧ f 0x18C5 1 7 = p.fatal.toNat ∧
      f 0x18C5 8 8 = p.first.toNat ∧ f 0x18C5 16 16 = p.hseq.toNat ∧ v 0x18C6 = 0 ∧ v 0x18C7 = p.stopLost ∧
      v 0x18C8 = p.sece ∧ v 0x18C9 = p.seue ∧ v 0x18CA = p.noroom.toNat) ∧
    (f 0x4000 0 8 = p.optvec.toNat ∧ f 0x4000 8 24 = p.opten.toNat ∧ f 0x4002 0 8 = s.weakMrg.toNat ∧
      f 0x4002 8 16 = s.weakCer.toNat ∧ f 0x4002 24 8 = s.period.toNat ∧ f 0x4010 0 4 = p.planCmd.toNat ∧
      f 0x4010 4 10 = p.planTgt % 1024 ∧ f 0x4010 14 6 = p.planRing.toNat ∧ v 0x4010 / 2 ^ 20 = p.planStatus) ∧
    (∀ n < 64, let x := s.pair n
      (s.ownsPair c.part n = false → v (0x4040 + n) = 0 ∧ v (0x5040 + n) = 0) ∧
      (s.ownsPair c.part n = true → let q := 0x4040 + n
        f q 0 4 = x.owner % 16 ∧ f q 4 1 = x.ownv.toNat ∧ f q 5 1 = x.fabreq.toNat ∧ f q 6 1 = x.fab.toNat ∧
        f q 7 1 = x.ref.toNat ∧ f q 8 2 = x.spuse.toNat ∧ f q 10 22 = x.evt.toNat ∧ f (0x5040 + n) 0 3 = x.plane % 8 ∧
        f (0x5040 + n) 3 29 = x.fab.toNat)) ∧
    (∀ k < 128, let x := s.link k
      let seen := s.ownsPair c.part (pairOfLink k) = true ∧ (s.pair (pairOfLink k)).fab = true
      (¬ seen → v (0x4100 + k) = 0 ∧ v (0x4180 + k) = 0) ∧
      (seen → f (0x4100 + k) 0 4 = x.tgtw % 16 ∧ f (0x4100 + k) 4 4 = x.curw % 16 ∧
        f (0x4100 + k) 8 24 = (match x.state with | .up => 0 | .retraining => 1 | .down => 2 | .widthChange => 3) ∧
        f (0x4180 + k) 0 16 = x.replays % 2 ^ 16 ∧ f (0x4180 + k) 16 16 = x.retrains % 2 ^ 16)) ∧
    (∀ n < 1024, let x := s.chan n
      let q := 0x4400 + n
      (s.ownsPair c.part (pairOfChan n) = false → v q = 0) ∧
      (s.ownsPair c.part (pairOfChan n) = true →
        f q 0 2 = (match x.state with | .active => 0 | .parked => 1 | .waking => 2 | .down => 3) ∧
        ((s.pair (pairOfChan n)).fab = false → f q 2 1 = x.park.toNat) ∧
        ((s.pair (pairOfChan n)).fab = true → f q 2 1 = (!s.within (n / 8) n).toNat) ∧
        f q 3 2 = x.spare % 4 ∧ f q 5 1 = x.weak.toNat ∧ f q 6 2 = x.wfail.toNat ∧ f q 8 8 = x.margin.toNat ∧
        f q 16 16 = x.cer.toNat)) ∧
    (∀ e < 16, ((s.seesArray c.part e = false → (∀ i < 16, v (0x4800 + 16 * e + i) = 0) ∧ ∀ i < 4, v (0x4900 + 4 * e + i) = 0) ∧
      (s.seesArray c.part e = true → (∀ i < 16, let x := s.line e i
        let q := 0x4800 + 16 * e + i
        f q 0 12 = x.bias.toNat ∧ f q 12 12 = x.power.toNat ∧
        f q 24 8 = (if x.lost = true then (if x.fed = true then 3 else 1) else if x.donor = true then 2 else 0) ∧
        (f (0x4902 + 4 * e) i 1 = 1 ↔ x.donor = true) ∧ (f (0x4902 + 4 * e) (16 + i) 1 = 1 ↔ x.fed = true)) ∧
        v (0x4900 + 4 * e) = (s.array e).lifeh.toNat ∧ v (0x4901 + 4 * e) = (s.array e).penh.toNat))) ∧
    ((s.seesTiming c.part = false → v 0x5000 = 0 ∧ v 0x5001 = 0 ∧ v 0x5002 = 0) ∧
      (s.seesTiming c.part = true → f 0x5000 0 1 = s.rot.en.toNat ∧ f 0x5000 1 7 = s.rot.nslot1 % 64 ∧
        f 0x5000 8 16 = s.rot.slotlen % 2 ^ 16 ∧ f 0x5000 24 8 = s.rot.hostm.toNat ∧ f 0x5001 0 6 = s.rot.slot % 64 ∧
        f 0x5001 6 1 = s.rot.guard.toNat ∧ f 0x5001 7 1 = s.rot.sync.toNat ∧ f 0x5001 8 8 = s.rot.held.isSome.toNat ∧
        f 0x5001 16 1 = s.rot.miss.toNat ∧ f 0x5001 17 15 = s.rot.resync.toNat ∧ v 0x5002 = s.rot.rot.toNat)) ∧
    (∀ n < 8, (s.seesPort c.part n = false → v (0x5008 + n) = 0 ∧ ∀ j < 64, v (0x5100 + 8 * j + n) = 0) ∧
      (s.seesPort c.part n = true →
        let code := fun x : Circ => match x.state with | .idle => 0 | .pending => 1 | .active => 2 | .failed => 3
        (let q := 0x5008 + n
         let x := s.port n
         f q 0 2 = x.mode % 4 ∧ f q 2 12 = x.circ.peer % 1024 ∧ f q 14 2 = code x.circ ∧ f q 16 5 = x.circ.naks % 32 ∧
         f q 21 3 = x.circ.cause % 8 ∧ f q 24 8 = min 255 (s.portLinks n).length) ∧
        ∀ j < 64, let q := 0x5100 + 8 * j + n
          let x := s.entry j n
          f q 0 10 = x.peer % 1024 ∧ f q 10 3 = x.valid.toNat ∧ f q 13 2 = code x ∧ f q 15 5 = x.naks % 32 ∧
          f q 20 12 = x.cause % 8)) ∧
    (∀ a, (0x40 ≤ a ∧ a < 0x180) ∨ (0x200 ≤ a ∧ a < 0x1000) ∨ (0x1280 ≤ a ∧ a < 0x1700) ∨ (0x1704 ≤ a ∧ a < 0x1800) ∨
      (0x1900 ≤ a ∧ a < 0x4000) ∨ 0x5800 ≤ a → v a = 0))

/-- R227, R228, R231-R236, R241-R243, R246, R247, R270, R271: the far instructions. Each acts once. One whose tag another
team holds traps SLOT_STATE. Else, once its tag counts fewer than 4,095 requests and the Lintel can take its charge (the
units of 512 bytes that FGET, FPUT and FMCAST move, 1 for FWALK, 0 for the others), the request is accepted; a source is
read once every earlier store of the gang is performed. -/
def Obligations.FarInstructionsAreAccepted : Prop :=
  ∀ (s : State) (c : Ctx) (a : RegField) (t : ByteField), s.issuing = some c →
    let w := c.words a 8
    let w2 := c.words a 2
    let w6 := c.words a 6
    let d := dword w
    let tag := c.core.tag t.toNat
    let lands := fun (i : Instr) (ch : Nat) (P : State → Prop) =>
      (c.once = false → Gives i s (c.wrote c.g.settled)) ∧
      (c.once = true → c.core.tagForeign c.g.team t.toNat = true →
        exec i s = .next (c.onceFault Cause.slotState (tagMark t.toNat))) ∧
      (c.once = true → c.core.tagForeign c.g.team t.toNat = false → tag.pend ≠ 4095 →
        s.allowed c.id c.g ch = true → c.poolTakes ch = true → Gives i s P)
    let box := BoxDesc.of w (c.followWords w)
    let out := BoxDesc.of w []
    let dva := engineDva w
    let sva := engineSva w
    let slot := s.freeCorbel (clusterOf c.g.core)
    let far := d 0 + 2 ^ 32 * bits (d 1) 23 0
    let n := bits (dword w6 2) 13 8 + 1
    (c.farStop (blockOk a 48) t (c.fgetRegs a) (operandStop (box.ok false w) <|> operandStop (match box.fmma with
        | some (_, ws) => MDesc.ok false ws
        | none => true)) = none →
      (box.loc = 1 → c.core.slotGap c.g.team box.laddr box.size = none) →
      (∀ k ws, box.fmma = some (k, ws) → c.core.mmaGap c.g.team (MDesc.of ws) = none ∧ c.g.counter k ≠ 4095) →
      lands (.fget a t) ((box.size + 511) / 512) (c.accepted t (match box.fmma with
        | some (k, _) => c.g.putCounter k (c.g.counter k + 1)
        | none => c.g) (some box.landing) s.vc (fun r => r.kind = .get box ∧ r.charge = (box.size + 511) / 512))) ∧
    (c.farStop (blockOk a 48) t (sregs (sreg a) 8) (operandStop (out.ok true w)) = none →
      c.allStoresFirst = none →
      lands (.fput a t) ((out.size + 511) / 512) (c.accepted t c.g none (s.mergeRuns c.agent (c.localRuns out.landing)).vc
        (fun r => r.kind = .put out ∧ r.charge = (out.size + 511) / 512 ∧ r.src = (c.readLocal out.landing).1))) ∧
    (c.farStop (blockOk a 48) t (sregs (sreg a) 8) (operandStop (engineDescOk false false w)) = none →
      lands (.fcopy a t) 0 (c.accepted t c.g none s.vc (fun r => r.kind = .copy dva sva (d 4)))) ∧
    (c.farStop (blockOk a 48) t (sregs (sreg a) 8) (operandStop (engineDescOk true false w)) = none →
      lands (.fred a t) 0 (c.accepted t c.g none s.vc (fun r => r.kind = .red (bits (d 1) 25 24) dva sva (d 4)))) ∧
    (c.farStop (blockOk a 48) t (sregs (sreg a) 8) (operandStop (engineDescOk false true w)) = none →
      lands (.ffill a t) 0 (c.accepted t c.g none s.vc (fun r => r.kind = .fill dva (d 4) (enginePat w)))) ∧
    (let long := longKey w
     let ws := c.words a (if long then 12 else 8)
     (long = true → sreg a ≤ 44) → bits (d 1) 29 28 ≠ 3 → walkDescOk ws = true →
      c.farStop (blockOk a 48) t (sregs (sreg a) (if long then 12 else 8)) none = none →
      lands (.fwalk a t) 1 (c.accepted t c.g (some ⟨0, bits (dword ws 3) 19 0, 272⟩) s.vc (fun r => r.kind = .walk ∧ r.charge = 1 ∧
        ∃ k, r.walk = some k ∧ k.key = walkKey ws ∧ k.start = (walkOf ws).start ∧ k.prog = (walkOf ws).prog ∧
          k.limit = bits (dword ws 2) 15 0))) ∧
    (∀ ws, ruleDescOk w6 = true → c.allStoresFirst = none →
      c.ruleWords (dword w6 0 + 2 ^ 32 * bits (dword w6 1) 23 0) n = ws.map Except.ok → ws.all (ruleOk n) = true →
      c.farStop (blockOk a 50) t (sregs (sreg a) 6) none = none →
      lands (.frule a t) 0 (c.accepted t c.g none
        (s.mergeRuns c.agent (c.ruleRuns (dword w6 0 + 2 ^ 32 * bits (dword w6 1) 23 0) n)).vc (fun r =>
          r.kind = .rule (bits (dword w6 2) 3 0) ws (dword w6 4 + 2 ^ 32 * bits (dword w6 5) 23 0)))) ∧
    (∀ m, c.farStop (blockOk a 48) t (sregs (sreg a) 8) (operandStop (mcastDescOk w)) = none → slot = some m →
      s.corbelWaits (clusterOf c.g.core) c.corbelPlace = false →
      let fromSp := bit (d 1) 24
      (fromSp = true → c.allStoresFirst = none) →
      lands (.fmcast a t) (if fromSp then 0 else d 2 / 512) (fun st =>
        (st.core c.g.core).tag t.toNat = { tag with state := .busy, pend := tag.pend + 1, owner := c.g.team } ∧
        (∃ r, st.req? s.next = some r ∧ r.gang = c.id ∧ r.kind = .mcast (clusterOf c.g.core) m fromSp far (d 2)) ∧
        (∃ g', st.gang? c.id = some g' ∧ g'.groups = c.groupsAt (c.pc + 4) ∧ g'.rest = c.g.rest) ∧
        let e := st.corbelSlot (clusterOf c.g.core) m
        e.used = true ∧ e.full = false ∧ e.len = d 2 ∧ e.chan = bits (d 3) 31 16 ∧ e.launch = s.launchOf c.g.team ∧
          ∀ k < 4, (4 * clusterOf c.g.core + k ∈ e.left ↔ bit (d 3) k = true))) ∧
    (bits (dword w2 0) 31 16 = 0 → bits (dword w2 1) 31 20 = 0 → bits (dword w2 1) 19 0 % 16 = 0 →
      c.farStop (blockOk a 54) t (sregs (sreg a) 2) none = none →
      lands (.mcrecv a t) 0 (fun st =>
        (st.core c.g.core).tag t.toNat = { tag with state := .busy, pend := tag.pend + 1, owner := c.g.team } ∧
        (∃ r m, st.req? s.next = some r ∧ r.gang = c.id ∧
          r.kind = .mcrecv (bits (dword w2 0) 15 0) (bits (dword w2 1) 19 0) m) ∧
        ∃ g', st.gang? c.id = some g' ∧ g'.groups = c.groupsAt (c.pc + 4) ∧ g'.rest.sansChunks = c.g.rest.sansChunks))

/-- R227, R274-R280: the instructions that wait on tags and read what the far requests left. A tag that another team holds
traps SLOT_STATE. TAGWAIT.all returns when no named tag is BUSY, TAGWAIT.any also when one is READY, TAGREL when none is
BUSY, and it frees the READY ones; else the group parks. TAGFF gives the lowest READY tag or all ones, CHUNKT the arrival
bits, FSTAT a status word, and WINSET fixes an allowance. R229, R234, R411: a wait that is over, a TAGFF and a CHUNKT
deliver, first in rank, a failure that is posted under a READY tag which they name or give, or behind the ERR mark of a
chunk that they report, and do not execute. That a WINSET of fewer than 512 bytes fixes none is the model's reading (log
27). -/
def Obligations.TagAndChunkInstructions : Prop :=
  ∀ (s : State) (c : Ctx) (d a b : RegField) (code : ByteField), s.issuing = some c →
    let m := c.tagMask a
    let tag := fun n => c.core.tag n
    let ready := fun n => m.getLsbD n = true ∧ (tag n).state = .ready
    let noBusy := ∀ n < 64, m.getLsbD n = true → (tag n).state ≠ .busy
    let anyReady := ∃ n < 64, ready n
    let foreign := fun n => m.getLsbD n = true ∧ (tag n).state ≠ .free ∧ (tag n).owner ≠ c.g.team
    let own := ∀ n < 64, ¬ foreign n
    let turned := fun (i : Instr) => ∀ n < 64, foreign n → (∀ k < n, ¬ foreign k) →
      exec i s = .next (c.onceFault Cause.slotState (tagMark n))
    let delivers := fun (i : Instr) (f : Posted → Prop) => ∀ xs p ys, c.g.posted = xs ++ p :: ys → f p →
      (∀ q ∈ xs, f q → p.rank < q.rank) → (∀ q ∈ ys, f q → p.rank ≤ q.rank) →
      exec i s = .next (s.deliver c.id p (c.deliverLane p) (c.trapInfo p.cause 0 c.pc))
    let quiet := fun (f : Posted → Prop) => ∀ p ∈ c.g.posted, ¬ f p
    let failed := fun (p : Posted) => ∃ n, p.at_ = .tag n ∧ ready n
    (c.onceStop (pairOk a) true true (regsOf a true) [] [] [] = none →
      (c.once = false → Gives (.tagwaitAll a) s (c.wrote c.g.settled) ∧ Gives (.tagwaitAny a) s (c.wrote c.g.settled) ∧
        Gives (.tagrel a) s (c.wrote c.g.settled)) ∧
      (c.once = true → turned (.tagwaitAll a) ∧ turned (.tagwaitAny a) ∧ turned (.tagrel a) ∧
        (own → noBusy → delivers (.tagwaitAll a) failed ∧ delivers (.tagrel a) failed) ∧
        (own → noBusy ∨ anyReady → delivers (.tagwaitAny a) failed) ∧
        (own → noBusy → quiet failed → Gives (.tagwaitAll a) s (c.wrote c.g.settled)) ∧
        (own → ¬ noBusy → Gives (.tagwaitAll a) s (c.parked (.tagwait true m))) ∧
        (own → noBusy ∨ anyReady → quiet failed → Gives (.tagwaitAny a) s (c.wrote c.g.settled)) ∧
        (own → ¬ noBusy → ¬ anyReady → Gives (.tagwaitAny a) s (c.parked (.tagwait false m))) ∧
        (own → noBusy → quiet failed → Gives (.tagrel a) s (fun t => ∃ k, c.went (s.putCore c.g.core k) c.g (c.pc + 4) c.g.settled t ∧
          k = { c.core with tags := k.tags } ∧ (∀ n, ready n → k.tag n = Tag.reset) ∧ ∀ n, ¬ ready n → k.tag n = tag n)) ∧
        (own → ¬ noBusy → Gives (.tagrel a) s (c.parked (.tagrel m))))) ∧
    (c.onceStop (pairOk a && scalarDst d) true true (regsOf a true) [] [] (regsOf d false) = none →
      let gives := fun (v : Word) => Gives (.tagff d a) s (c.wroteAt [(.s (d.toNat - 0xC0), v)])
      (c.once = false → Gives (.tagff d a) s (c.wrote c.g.settled)) ∧
      (c.once = true → turned (.tagff d a) ∧
        (own → ∀ n < 64, ready n → (∀ k < n, ¬ ready k) →
          let mine := fun (p : Posted) => p.at_ = .tag n
          delivers (.tagff d a) mine ∧ (quiet mine → gives (BitVec.ofNat 32 n))) ∧
        (own → ¬ anyReady → gives 0xFFFFFFFF#32))) ∧
    (let x := (c.readS a).toNat
     c.onceStop (scalarDst d && scalarOk a && scalarOk b) (bits x 30 11 == 0) true (regsOf a false) (regsOf b false) []
       (regsOf d false) = none →
      (c.once = false → Gives (.chunkt d a b) s (c.wrote c.g.settled)) ∧
      (∀ tm k, c.once = true → c.team = some tm → tm.onCore c.g.core = some k →
        let slots := x.testBit 31
        let n := if slots = true then 1024 else (tm.alloc + 511) / 512
        let seen := fun j => n ≠ 0 ∧ ∃ i < 32, (c.readS b).getLsbD i = true ∧ j = (x % 2 ^ 11 + i) % n ∧ k.arrived slots j = true
        let behind := fun (p : Posted) => (∃ t, p.at_ = .tag t) ∧ ∃ y ∈ s.failedChunks p, y.1 = slots ∧ seen y.2 ∧
          (if slots = true then k.slotErr else k.spadErr).contains y.2 = true
        delivers (.chunkt d a b) behind ∧
        (quiet behind → ∃ v : Word, Gives (.chunkt d a b) s (c.wroteAt [(.s (d.toNat - 0xC0), v)]) ∧
          ∀ i < 32, (v.getLsbD i = true ↔ (c.readS b).getLsbD i = true ∧
            (n = 0 ∨ k.arrived slots ((x % 2 ^ 11 + i) % n) = true))))) ∧
    (let x := (c.readS a).toNat
     let units := (c.readS b).toNat / 512
     c.onceStop (scalarOk a && scalarOk b) (x / 128 == 0) true (regsOf a false) (regsOf b false) [] [] = none →
      (c.once = false → Gives (.winset a b) s (c.wrote c.g.settled)) ∧
      (c.once = true → ∀ j g, s.gang? j = some g →
        (∀ k h, s.gang? k = some h → (k = j ↔ s.resident h = true ∧ h.core = c.g.core ∧ h.team = c.g.team ∧ h.index = x)) →
        let fixed := if units = 0 then none else some (min units (16384 - s.fixedUnits c.g.core j))
        Gives (.winset a b) s (fun t => t = { s with gangs := t.gangs } ∧
          (∀ k, k ≠ j → k ≠ c.id → t.gang? k = s.gang? k) ∧
          (j ≠ c.id → t.gang? j = some { g with fixedAllow := fixed }) ∧
          ∃ g', t.gang? c.id = some g' ∧ g'.groups = c.groupsAt (c.pc + 4) ∧ (∀ e, g'.settled e = c.g.settled e) ∧
            (j ≠ c.id → g'.rest = c.g.rest) ∧ (j = c.id → g'.rest = { c.g.rest with fixedAllow := fixed })))) ∧
    (let x := (c.readS a).toNat
     let sel := code.toNat
     sel ≤ 3 → (sel = 0 → x < 64) →
     c.onceStop (scalarDst d && scalarOk a) true true (if sel = 0 then regsOf a false else []) [] [] (regsOf d false) = none →
      (c.once = false → Gives (.fstat d a code) s (c.wrote c.g.settled)) ∧
      (c.once = true → ∃ v : Word, Gives (.fstat d a code) s (c.wroteAt [(.s (d.toNat - 0xC0), v)]) ∧
        (sel = 0 → ((tag x).state ≠ .free ∧ (tag x).owner ≠ c.g.team → v = 0) ∧
          ((tag x).state = .free ∨ (tag x).owner = c.g.team → v = BitVec.ofNat 32 ((match (tag x).state with
            | .free => 0
            | .busy => 1
            | .ready => 2) + 4 * (tag x).err.toNat + 256 * (tag x).cause.toNat + 65536 * (tag x).pend))) ∧
        (sel = 1 ∨ sel = 2 → ∀ i < 32, let n := 32 * (sel - 1) + i
          (v.getLsbD i = true ↔ (tag n).state = .ready ∧ (tag n).owner = c.g.team)) ∧
        (sel = 3 → ∀ i < 32, (v.getLsbD i = true ↔ i < 8 ∧ (s.corbelSlot (clusterOf c.g.core) i).used = false))))

/-- R225, R226, R231, R243-R245, R398, R431: what a request of one run does at its module when it arrives there, over the
memory fabric. If no window accepts the run, nothing is written and the request records a PERMISSION failure at its first
byte. Else FGET reads the run, FPUT writes its source into it, FFILL its pattern, FCOPY the bytes of its source run, and
FRED adds to each element the source element at the same offset, as R244 gives for its format; every other byte of the
module stays. FRULE installs its words in the partition's program slot, and no other (R246). A module in self-refresh
performs no FCOPY, FRED or FFILL until it exits; one that is asked, and not forced, enters it once no FRED is at work. How
channels reach modules is the model's choice (log 60), as is how a failure's place in the order of R226 is kept; so is
that FRED, where its two runs overlap, reads every source element first, as FCOPY does (log 75). -/
def Obligations.ModulesPerformTheirRuns : Prop :=
  ∀ (s : State) (id modid : Nat) (r : FarReq) (p : Piece), s.req? id = some r →
    let m := s.module modid
    let part := s.teamPart r.team
    let byte := fun (t : State) x => Memory.readByte (t.module modid).mem x
    let outside := fun (t : State) => ∀ x, (x < p.offset ∨ p.offset + p.len ≤ x) → byte t x = byte s x
    Gives (.forcedSelfRefresh modid) s (fun t => (t.module modid).refresh = true ∧
      ((∀ j q, s.req? j = some q → q.kind.paused = true → s.atWork j q modid = false) →
        t = s.putModule modid { m with refresh := true })) ∧
    Gives (.selfRefreshExit modid) s (fun t => t = s.putModule modid { m with refresh := false }) ∧
    s.askRefresh modid = s.putModule modid { m with asked := true } ∧
    (m.asked = true → (∀ j q, s.req? j = some q → q.kind.paused = true → s.atWork j q modid = false) →
      execRefreshGrant modid s = .next (s.putModule modid { m with asked := false, refresh := true })) ∧
    (∀ f d a l, r.kind = .red f d a l → s.atWork id r modid = true → execRefreshGrant modid s = .next s) ∧
    (m.refresh = true → r.kind.paused = true → Gives (.moduleRequestArrival id modid []) s (fun t => t = s)) ∧
    (s.reachesModule modid = false → Gives (.moduleRequestArrival id modid []) s (fun t => t = s)) ∧
    (r.sent = true → r.held = false → r.pieces = [p] → p.modid = modid → r.arrived = [] → r.left = [] → r.walk = none →
      s.firstAt id r modid = true → s.reachesModule modid = true → s.reqHalted r = false →
      (m.refresh = false ∨ r.kind.paused = false) →
      let gives := fun (P : State → FarReq → Prop) => Gives (.moduleRequestArrival id modid []) s (fun t =>
        ∃ r', t.req? id = some r' ∧ r'.arrived = [modid] ∧ r'.kind = r.kind ∧ r'.tag = r.tag ∧ P t r')
      (∀ b, r.kind = .get b ∨ r.kind = .put b → r.srcPieces = [] → m.acceptsPage s.pkg part r.kind.need [p] p = false →
        gives (fun t r' => (t.module modid).mem = m.mem ∧
          r'.fails = r.fails ++ [(moduleKey p.local_, ⟨Cause.permission, p.far, false, 0⟩)])) ∧
      (m.acceptsPage s.pkg part r.kind.need [p] p = true →
        (∀ b, r.kind = .get b → r.srcPieces = [] → gives (fun t r' => t.module modid = m ∧ r'.fails = r.fails ∧
          ∀ i < p.len, Tbl.get none r'.src (p.local_ + i) = some (byte s (p.offset + i)))) ∧
        (∀ b, r.kind = .put b → r.srcPieces = [] → gives (fun t r' => r'.fails = r.fails ∧ outside t ∧
          ∀ i < p.len, byte t (p.offset + i) = (Tbl.get none r.src (p.local_ + i)).getD (byte s (p.offset + i)))) ∧
        (∀ dst len pat, r.kind = .fill dst len pat → r.srcPieces = [] → p.local_ + p.len ≤ len →
          gives (fun t r' => r'.fails = r.fails ∧ outside t ∧
            ∀ i < p.len, byte t (p.offset + i) = pat.extractLsb' (8 * ((p.local_ + i) % 8)) 8)) ∧
        (∀ dst src len q, r.kind = .copy dst src len → r.srcPieces = [q] → q.modid = modid →
          m.acceptsPage s.pkg part Need.load [q] q = true → q.local_ = p.local_ → q.len = p.len →
          gives (fun t r' => r'.fails = r.fails ∧ outside t ∧
            ∀ i < p.len, byte t (p.offset + i) = byte s (q.offset + i))) ∧
        (∀ fmt dst src len q, r.kind = .red fmt dst src len → r.srcPieces = [q] → q.modid = modid →
          m.acceptsPage s.pkg part Need.load [q] q = true → q.local_ = p.local_ → q.len = p.len →
          let n := if fmt = 0 then 2 else 4
          let sum := fun x y : Nat => if fmt = 0 then (Fmt.bf16.add RndEnv.rne x y).1
            else if fmt = 1 then (Fmt.f32.add RndEnv.rne x y).1 else x + y
          gives (fun t r' => r'.fails = r.fails ∧ outside t ∧
            ∀ i < p.len / n, Memory.readNat (t.module modid).mem (p.offset + n * i) n =
              sum (Memory.readNat m.mem (p.offset + n * i) n) (Memory.readNat m.mem (q.offset + n * i) n) % 256 ^ n)) ∧
        (∀ prog words mva, r.kind = .rule prog words mva → r.srcPieces = [] →
          gives (fun t r' => r'.fails = r.fails ∧ t.module modid = { m with programs := (t.module modid).programs } ∧
            ∀ j, Tbl.get [] (t.module modid).programs j = if j = 16 * part + prog then words else Tbl.get [] m.programs j))))

/-- R176, R227, R229, R232-R234, R236, R241: what follows. A chunk of an FGET whose bytes are there lands in the
scratchpad or in the team's slots, and touches no other byte there. A request that is over leaves its tag: PEND falls, the
last makes it READY, a first failure sets ERR and its cause and is posted to the gang; the bytes of a fetch that never
landed are credited to its barrier, early ones held for the next phase; the counter of a follow-on MMA that was not
performed falls. A follow-on MMA joins the engine, is held by a freeze, or, where the team no longer holds its slots and
rows, posts SLOT_STATE and gives its counter back; a Corbel slot fills; a group parked first for the Lintel whose tests
pass is presented again; a walk's read that meets a DRAM error ends or fails the walk as its policy says. The order in
which these steps come is the agenda's (log 1). R248-R253, Tables 8.9 and 8.10: what each rule word of a walk does, when
it ends and with which bytes, and how its pointers and its reads are checked. -/
def Obligations.FarRequestsLandAndEnd : Prop :=
  (∀ (s : State) (id : Nat) (r : FarReq), s.req? id = some r →
    let core := r.core
    let tag := (s.core core).tag r.tag
    let finished := fun (t : State) (f : Option FarFail) => (t.core core).tag r.tag =
      { tag with
        pend := tag.pend - 1
        state := if tag.pend ≤ 1 then .ready else tag.state
        err := tag.err || f.isSome
        cause := match f with
          | some x => if tag.err = true then tag.cause else x.cause
          | none => tag.cause }
    (∀ b k tm tc, r.kind = .get b → b.bar = none → s.team? r.team = some tm → tm.onCore core = some tc →
      let lo := (b.landing.bounds k).1
      let hi := (b.landing.bounds k).2
      k ∈ r.chunks → s.chunkReady r lo hi = true → s.reqHalted r = false → s.isSaved r.team = false →
      s.imageReady r.team = true →
      (∀ o, lo ≤ o → o < hi → (Tbl.get none r.src o).isSome = true) →
      (b.loc = 0 → 512 ≤ tm.alloc → Gives (.chunkLand id k) s (fun t => (∃ r', t.req? id = some r' ∧ k ∉ r'.chunks) ∧
        (∀ o, lo ≤ o → o < hi → t.padRead r.team core ((b.laddr + o) % tm.alloc) 1 =
          ((Tbl.get none r.src o).getD 0).toNat) ∧
        ∀ team n x, (team ≠ r.team ∨ n ≠ core ∨ ∀ o, lo ≤ o → o < hi → (b.laddr + o) % tm.alloc ≠ x) →
          t.padRead team n x 1 = s.padRead team n x 1)) ∧
      (b.loc = 1 → (∀ o, lo ≤ o → o < hi → (s.core core).slotHolder ((b.laddr + o) / 16384) = some r.team) →
        Gives (.chunkLand id k) s (fun t => (∃ r', t.req? id = some r' ∧ k ∉ r'.chunks) ∧
          (∀ o, lo ≤ o → o < hi → Memory.readByte (t.core core).slots (b.laddr + o) = (Tbl.get none r.src o).getD 0) ∧
          ∀ x, (x < b.laddr + lo ∨ b.laddr + hi ≤ x) →
            Memory.readByte (t.core core).slots x = Memory.readByte (s.core core).slots x))) ∧
    (r.over = true → s.reported r = true → r.tag < 64 → r.chunks = [] → s.reqHalted r = false → s.isSaved r.team = false →
      let f := firstFail r.fails
      Gives (.farRequestEnd id) s (fun t => t.req? id = none ∧ finished t f ∧
        ∀ x g, f = some x → r.posted = false → s.gang? r.gang = some g → g.ended = false →
          ∃ g' q, t.gang? r.gang = some g' ∧ q ∈ g'.posted ∧ q.at_ = .tag r.tag ∧ q.cause = x.cause ∧ q.addr = x.addr ∧
            q.opc = r.opc) ∧
      (∀ b x tm, r.kind = .get b → b.bar = some x → s.team? r.team = some tm → Gives (.farRequestEnd id) s (fun t =>
        ∃ tm', t.team? r.team = some tm' ∧
          let old := tm.barrier x
          let sum := old.bytes + (b.size - r.landed)
          let early := old.ebytes + (sum - min sum old.expb)
          tm'.barrier x = if r.landed < b.size then
            { old with bytes := min sum old.expb, ebytes := min early old.expb, ovb := old.ovb || decide (old.expb < early) }
            else old)) ∧
      (∀ b k ws g, r.kind = .get b → b.fmma = some (k, ws) → s.gang? r.gang = some g → g.tokens = [] →
        Gives (.farRequestEnd id) s (fun t => ∃ g', t.gang? r.gang = some g' ∧
          g'.counter k = (if r.performed = true then g.counter k else g.counter k - 1) ∧
          ∀ j, j ≠ k → g'.counter j = g.counter j))) ∧
    (∀ k ws, r.follow = some (k, ws) → r.sent = true → r.chunks = [] → r.fails = [] → r.performed = false →
      s.frozen core = false → s.frozenBefore core s.next = false → (s.core core).mmaGap r.team (MDesc.of ws) = none →
      Gives (.followOnMmaAccept id) s (fun t => t.req? id = some { r with performed := true } ∧
        ∃ o, t.core core = { s.core core with engine := (s.core core).engine ++ [o] } ∧ o.gang = r.gang ∧ o.team = r.team ∧
          o.k = k ∧ o.opc = r.opc ∧ o.kind = .mma false ws [(MDesc.of ws).m])) ∧
    (∀ k ws, r.follow = some (k, ws) → r.sent = true → r.chunks = [] → r.fails = [] → r.performed = false →
      (s.frozen core = true ∨ s.frozenBefore core s.next = true → Gives (.followOnMmaAccept id) s (fun t =>
        t.req? id = some { r with performed := true } ∧
        ∃ o, t.core core = { s.core core with heldMma := (s.core core).heldMma ++ [(s.next, o)] } ∧ o.gang = r.gang ∧
          o.team = r.team ∧ o.k = k ∧ o.opc = r.opc ∧ o.kind = .mma false ws [(MDesc.of ws).m])) ∧
      (∀ a g, s.frozen core = false → s.frozenBefore core s.next = false → (s.core core).mmaGap r.team (MDesc.of ws) = some a →
        s.gang? r.gang = some g → g.ended = false → g.tokens = [] → Gives (.followOnMmaAccept id) s (fun t =>
          t.req? id = some { r with performed := true } ∧ t.core core = s.core core ∧
          ∃ g' q, t.gang? r.gang = some g' ∧ g'.counter k = g.counter k - 1 ∧ (∀ j, j ≠ k → g'.counter j = g.counter j) ∧
            q ∈ g'.posted ∧ q.at_ = .counter k ∧ q.cause = Cause.slotState ∧ q.addr = a ∧ q.opc = r.opc))) ∧
    (∀ cl n fromSp src len, r.kind = .mcast cl n fromSp src len → r.performed = false → r.sent = true →
      r.allArrived = true → r.modules.all s.reachesModule = true → r.tag < 64 → r.fails = [] → s.reqHalted r = false →
      s.isSaved r.team = false →
      (∀ j q, s.req? j = some q → q.fills cl n = true → j = id) →
      (s.corbelSlot cl n).used = true → (s.corbelSlot cl n).order = id →
      Gives (.corbelSlotFilled cl n) s (fun t => t.req? id = none ∧ finished t none ∧
        let e := t.corbelSlot cl n
        e.full = true ∧ e.used = true ∧ e.data.length = e.len ∧ e.len = (s.corbelSlot cl n).len ∧
          ∀ i < e.len, e.data[i]? = some ((Tbl.get none r.src i).getD 0))) ∧
    (∀ k dram, r.walk = some k → k.wait.isSome = true → k.result = none → s.reqHalted r = false →
      Gives (.cairnReadReturn id dram) s (fun t => ∃ r' k', t.req? id = some r' ∧ r'.walk = some k' ∧ r'.kind = r.kind ∧
        k' = k.returned (s.module k.modid) s.pkg (s.teamPart r.team) dram)) ∧
    (∀ n j g x ch, s.lintelParked n = [(j, x)] → s.gang? j = some g → x.park = some (.lintel ch true false) →
      s.allowed j g ch = true → s.pool n + ch ≤ 16384 → s.poolWaits n x.since = false →
      Gives (.lintelAdmit n) s (fun t => ∃ g', t = s.putGang j g' ∧ g'.rest = g.rest ∧ (∀ e, g'.elem e = g.elem e) ∧
        ∀ y ∈ g'.groups, y.slices = x.slices → ∀ q p d, y.park = some (.lintel q p d) → d = true))) ∧
  (∀ (m : Module) (pkg part : Nat) (k : Walk) (x : Nat), x < 2 ^ 32 →
    let f := fun lo n : Nat => x / 2 ^ lo % 2 ^ n
    let reg := fun i => (Tbl.get 0 k.w i).toNat
    let signed := fun v n : Nat => if v < 2 ^ (n - 1) then v else v + 2 ^ 64 - 2 ^ n
    let next := { k with rule := k.rule + 1 }
    let sets := fun (k' : Walk) (i v : Nat) => k' = { next with w := k'.w } ∧
      ∀ j, (Tbl.get 0 k'.w j).toNat = if j = i then v % 2 ^ 64 else reg j
    let stepped := { k with steps := k.steps + 1, run := 0 }
    let moves := fun (k' : Walk) (p : Nat) =>
      (k.limit < k.steps + 1 → k' = k.finish 3 0 k.rule k.p) ∧
      (k.steps + 1 ≤ k.limit →
        (∀ o, m.translate pkg part k.mseq true p 1 = .ok o → k' = { stepped with p := p, rule := k.rule + 1 }) ∧
        (∀ e, m.translate pkg part k.mseq true p 1 = .error e → k' = { stepped with p := p }.fails e p))
    let retries := fun k' : Walk =>
      (k.limit < k.steps + 1 → k' = k.finish 3 0 k.rule k.p) ∧
      (k.steps + 1 ≤ k.limit →
        k' = { stepped with p := k.start, w := k'.w, staged := [], rule := 0, retries := min (k.retries + 1) 255 } ∧
        ∀ j, (Tbl.get 0 k'.w j).toNat = if j = 0 then k.start % 2 ^ 64 else 0)
    let branch := fun c : Bool => if c then { k with rule := f 0 6 } else next
    let plain := Walk.plain m pkg part k x
    let y15 := if f 21 1 = 1 then signed (f 6 15) 15 else reg (f 22 3)
    let y16 := fun imm : Nat => if f 21 1 = 1 then imm else reg (f 18 3)
    (f 28 4 = 2 → plain = branch (reg (f 25 3) == y15)) ∧
    (f 28 4 = 3 → plain = branch (reg (f 25 3) != y15)) ∧
    (f 28 4 = 4 → plain = branch (decide ((BitVec.ofNat 64 (reg (f 25 3))).toInt < (BitVec.ofNat 64 y15).toInt))) ∧
    (f 28 4 = 5 → moves plain (reg (f 25 3))) ∧
    (f 28 4 = 6 → moves plain ((reg (f 22 3) + reg (f 25 3) % 2 ^ f 16 6 * 2 ^ f 12 4) % 2 ^ 64)) ∧
    (f 28 4 = 7 → sets plain (f 25 3)
      (k.key.foldl (fun h b => (h ^^^ b.toNat) * 0x100000001B3 % 2 ^ 64) (reg (f 22 3)))) ∧
    (f 28 4 = 8 → sets plain (f 25 3) (reg (f 22 3) + y16 (signed (f 0 16) 16))) ∧
    (f 28 4 = 9 → sets plain (f 25 3) (reg (f 22 3) &&& y16 (f 0 16))) ∧
    (f 28 4 = 10 → sets plain (f 25 3) (reg (f 22 3) / 2 ^ (y16 (f 0 6) % 64))) ∧
    (f 28 4 = 12 → retries plain) ∧
    (f 28 4 = 13 → plain = if f 27 1 = 1 then k.finish 1 0 k.rule k.p else next) ∧
    (f 28 4 = 14 → plain = k.finish 2 0 k.rule k.p) ∧
    (∀ bs : List Byte, let got := k.gotBytes x bs
      (f 28 4 = 0 → sets got (f 25 3) (leNat bs)) ∧
      (f 28 4 = 1 → let y := leNat (k.key.take bs.length)
        sets got (f 25 3) (if y = leNat bs then 0 else if leNat bs < y then 1 else 2 ^ 64 - 1)) ∧
      (f 28 4 = 11 → (leNat bs ≠ reg (f 25 3) ∨ leNat bs % 2 = 1 → retries got) ∧
        (leNat bs = reg (f 25 3) → leNat bs % 2 = 0 → got = next)) ∧
      (f 28 4 = 13 → got = if f 27 1 = 1 then { k with staged := bs }.finish 1 0 k.rule k.p else { next with staged := bs })) ∧
    ruleRead x = (if f 28 4 = 0 ∨ f 28 4 = 11 then some (8, true) else if f 28 4 = 1 then some (f 20 5 + 1, false)
      else if f 28 4 = 13 ∧ f 16 9 ≠ 0 then some (f 16 9, false) else none) ∧
    (∀ n, let runs := Walk.runGo m pkg part (n + 1) k
      let counted := { k with run := k.run + 1 }
      (k.words[k.rule]? = none → runs = k.finish 5 0 k.words.length k.p) ∧
      (∀ w, k.words[k.rule]? = some w →
        (k.run = 64 → runs = k.finish 3 0 k.rule k.p) ∧
        (k.run ≠ 64 → ∀ len al, ruleRead w.toNat = some (len, al) → let a := (k.p + w.toNat % 2 ^ 16) % 2 ^ 64
          (∀ o, m.translate pkg part k.mseq al a len = .ok o → runs = { counted with wait := some (o, len) }) ∧
          (∀ e, m.translate pkg part k.mseq al a len = .error e → runs = counted.fails e a)) ∧
        (k.run ≠ 64 → ruleRead w.toNat = none → let k1 := Walk.plain m pkg part counted w.toNat
          runs = if k1.result.isSome then k1 else Walk.runGo m pkg part n k1))) ∧
    (∀ e a, k.fails e a = k.finish (if k.pol = 1 then 2 else 4) e k.rule a) ∧
    (∀ code fdet rule lastp, k.staged.length ≤ 256 → ∃ bs, (k.finish code fdet rule lastp).result = some bs ∧
      bs.length = 272 ∧ (∀ i < 256, bs.getD i 0 = if code = 1 then k.staged.getD i 0 else 0) ∧
      let at_ := fun o n => leNat ((bs.drop (256 + o)).take n)
      at_ 0 1 = code % 2 ^ 8 ∧ at_ 1 1 = fdet % 2 ^ 8 ∧ at_ 2 2 = k.steps % 2 ^ 16 ∧
      at_ 4 2 = (if code = 1 then k.staged.length else 0) ∧ at_ 6 1 = rule % 2 ^ 8 ∧ at_ 7 1 = k.retries % 2 ^ 8 ∧
      at_ 8 8 = lastp % 2 ^ 64)) ∧
  (∀ (m : Module) (pkg part : Nat) (mseq : BitVec 16) (al : Bool) (p len : Nat),
    let covers := fun w : Window => w.pkg = pkg ∧ w.part = part ∧ w.vbase * 65536 ≤ p ∧ p < (w.vbase + w.len) * 65536
    let tr := m.translate pkg part mseq al p len
    (2 ^ 56 ≤ p ∨ (al = true ∧ p % 8 ≠ 0) → tr = .error 1) ∧
    (p < 2 ^ 56 → (al = true → p % 8 = 0) →
      ((∀ w ∈ m.windows, ¬ covers w) → tr = .error 2) ∧
      (∀ w ∈ m.windows, covers w → (∀ v ∈ m.windows, covers v → v = w) →
        let o := w.obase * 65536 + p - w.vbase * 65536
        let refused := w.rd = false ∨ w.flushReq = true ∨ atLeast mseq w.minSeq = false ∨ 0x6000000000 < o + len
        ((w.vbase + w.len) * 65536 < p + len → tr = .error 2) ∧
        (p + len ≤ (w.vbase + w.len) * 65536 → (refused → tr = .error 3) ∧ (¬ refused → tr = .ok o)))))

/-- R281-R283: RLD, RST and RATOM whose lanes all lie in the domain and are aligned send one operation to the peer that
the block names, or to this package's own agent, with each taking lane's address, source and, for RATOM.cas, new value in
increasing lane number. RLD and RATOM await their destination; RST counts in its counter; the group of a RATOM parks. One
whose peer lacks the capability of Table 9.11 (bits 0 to 6 of the record, in the table's order) traps ATOMIC_UNSUPPORTED.
One to this package takes the next number of its gang's stream at once, one to a peer as it is sent (log 61). RFENCE traps
on a code that R207 refuses, waits while the gang has operations outstanding, and else goes on. -/
def Obligations.RemoteOperationsAreSent : Prop :=
  ∀ (s : State) (c : Ctx) (d a b : RegField) (code : ByteField), s.issuing = some c →
    let w := c.words a 3
    let peer := bits (dword w 2) 17 8
    let kc := bit (dword w 2) 21
    let ks := bits (dword w 2) 20 18
    let ops : List (RemoteKind × Instr) :=
      [(.rld, .rld d a b), (.rst, .rst d a b), (.add, .ratomAdd d a b), (.cas, .ratomCas d a b), (.fadd, .ratomFadd d a b)]
    (∀ e ∈ ops, c.remoteStop e.1 d a b = none →
      (c.takers = [] → Gives e.2 s (c.wrote c.g.settled)) ∧
      (c.takers ≠ [] → (∀ l ∈ c.takers, c.remoteFault w b peer l = none) →
        (e.1 = .rst → kc = true → c.g.counter ks ≠ 4095) →
        let waits := if e.1 = .rst then [] else (c.takers.flatMap (dstElems d (isWide c.etype))).map (fun x =>
          (⟨x, .remote s.next⟩ : Await))
        let g1 : Gang := { c.g with awaits := c.g.awaits ++ waits }
        let g2 := if e.1 = .rst ∧ kc = true then g1.putCounter ks (g1.counter ks + 1) else g1
        Gives e.2 s (fun t => ∃ (op : RemoteOp) (r : RemoteOut) (g' : Gang),
          t = { s with
            gangs := t.gangs, next := t.next, remotes := t.remotes, netq := t.netq, inbound := t.inbound
            sentSeq := t.sentSeq } ∧
          (∀ j, j ≠ c.id → t.gang? j = s.gang? j) ∧ t.gang? c.id = some g' ∧ (∀ x, g'.settled x = c.g.settled x) ∧
          (e.1 = .rld ∨ e.1 = .rst → g'.rest = g2.rest ∧ g'.groups = c.groupsAt (c.pc + 4)) ∧
          (e.1 ≠ .rld → e.1 ≠ .rst → g'.rest = (g2.givesTurn c.slices).rest ∧
            ∀ x ∈ g'.groups, x.slices = c.slices → x.park = some (.ratom s.next)) ∧
          (peer ≠ s.pkg → t.netq = s.netq ++ [(peer, .remote op)] ∧ t.inbound = s.inbound) ∧
          (let k := 2 * (1024 * c.id + peer % 1024)
           let n := Tbl.get 0 s.sentSeq k
           peer = s.pkg → t.netq = s.netq ∧ Tbl.get 0 t.sentSeq k = n + 1 ∧
             (Tbl.get 0 s.rcvdSeq k ≤ n → NetMsg.remote { op with seq := n } ∈ t.inbound)) ∧
          op.stream = c.id ∧ op.seq = 0 ∧
          t.remote? s.next = some r ∧ r.gang = c.id ∧ r.op = op ∧ r.kc = (if e.1 = .rst ∧ kc = true then some ks else none) ∧
          op.kind = e.1 ∧ op.etype.toNat = c.etype % 16 ∧ op.srcPkg = s.pkg ∧ op.srcPart = c.part ∧ op.ident = s.next ∧
          op.lanes.map (fun x => (x.lane, x.addr)) = c.takers.map (fun l => (l, c.remoteAddr w b l)) ∧
          (e.1 ≠ .rld → op.lanes.map RemoteLane.arg = c.takers.map (fun l => BitVec.ofNat 64 (c.stored d l))) ∧
          (e.1 = .cas → op.lanes.map RemoteLane.new = c.takers.map (fun l =>
            BitVec.ofNat 64 (c.stored (d + (if isWide c.etype = true then 2 else 1)) l)))))) ∧
    (∀ e ∈ ops, e.1 ≠ .rld → e.1 ≠ .rst →
      let all : Ctx := { c with s := { s with caps := Tbl.set 0 s.caps peer 127 } }
      all.remoteStop e.1 d a b = none → s.hasCap peer e.1 c.etype = false →
        exec e.2 s = .next (c.raise Cause.atomicUnsupported)) ∧
    (∀ t, let cap := fun n => (Tbl.get 0 s.caps peer).getLsbD n
      (peer = s.pkg → ∀ k, s.hasCap peer k t = true) ∧
      (peer ≠ s.pkg → s.hasCap peer .add t = cap (if isWide t = true then 1 else 0) ∧
        s.hasCap peer .cas t = cap (if isWide t = true then 3 else 2) ∧
        s.hasCap peer .fadd t = cap (if t = 11 then 5 else if t = 15 then 6 else 4))) ∧
    (Code.rfence code = false → exec (.rfence code) s = .next (c.raise Cause.illegalEncoding)) ∧
    (Code.rfence code = true →
      (s.remoteBusy c.id = true → Gives (.rfence code) s (fun t => ∃ g', t = s.putGang c.id g' ∧ g'.groups = c.g.groups ∧
        g'.rest = c.g.rest ∧ ∀ e, g'.settled e = c.g.settled e)) ∧
      (s.remoteBusy c.id = false → (∀ p ∈ c.g.posted, p.remote = false) → Gives (.rfence code) s (c.wrote c.g.settled)))

/-- R217, R220, R222, R281-R284, R400, R430: an operation that arrives first in its stream is performed by the IOD agent
once that agent's covered writes are applied and no lane holds a granule that it writes: every lane is checked, and then
they are performed in increasing lane number; outside the domain, and on a word that cannot be corrected, a lane faults
PERMISSION; else RLD answers the element, RST stores it, and RATOM stores the new value of Table 9.3 and answers the old
one; a write breaks every lane's reservation of its granules. The answer reaches the gang's registers, the operation is no
longer outstanding, and an RST leaves its counter; a RATOM that the peer refuses traps ATOMIC_UNSUPPORTED. An operation
that overtakes an earlier one of its stream waits for it (R217, R362). That the agent writes at once is the model's form
(log 20), as are the streams' numbers (log 61). -/
def Obligations.RemoteOperationsArePerformedAndAnswered : Prop :=
  (∀ (s : State) (op : RemoteOp) (l : RemoteLane), op.lanes = [l] → op.srcPkg ≠ s.pkg →
    let s1 := s.arrive (.remote op)
    s1.firstInbound (.remote op) = true → s1.runsReady 4 (s1.remoteRuns op) true = true →
    let n := esize op.etype.toNat
    let answers := fun (t : State) (x : LaneReply) =>
      t.netq = s.netq ++ [(op.srcPkg, .reply { ident := op.ident, refused := false, lanes := [x] })]
    let faults := fun cause ecc =>
      Gives (.remoteOpArrival op) s (fun t => t.vault = s.vault ∧ answers t (.fault l.lane cause ecc))
    (s.domain op.part op.srcPkg ≠ some op.srcPart → faults Cause.permission false) ∧
    (s.domain op.part op.srcPkg = some op.srcPart →
      (∀ e, s.access op.part l.addr n (remoteNeed op.kind) = .error e → faults e false) ∧
      (∀ pa, s.access op.part l.addr n (remoteNeed op.kind) = .ok pa → s.spoiled pa n (remoteNeed op.kind) = true →
        faults Cause.permission true) ∧
      (∀ pa, s.access op.part l.addr n (remoteNeed op.kind) = .ok pa → s.spoiled pa n (remoteNeed op.kind) = false →
        let old := Memory.readNat s.vault pa n
        Gives (.remoteOpArrival op) s (fun t =>
          answers t (.value l.lane (if op.kind = .rst then 0 else BitVec.ofNat 64 old)) ∧
          (∀ x, (x < pa ∨ pa + n ≤ x) → Memory.readByte t.vault x = Memory.readByte s.vault x) ∧
          (op.kind = .rld → t.vault = s.vault) ∧
          (op.kind = .rst → Memory.readNat t.vault pa n = l.arg.toNat % 256 ^ n) ∧
          (op.kind ≠ .rld → op.kind ≠ .rst →
            match atomNew (remoteAtom op.kind) op.etype.toNat op.sat old l.arg.toNat l.new.toNat with
            | some v => Memory.readNat t.vault pa n = v % 256 ^ n
            | none => t.vault = s.vault) ∧
          (op.kind = .rst ∨ (op.kind ≠ .rld ∧
              (atomNew (remoteAtom op.kind) op.etype.toNat op.sat old l.arg.toNat l.new.toNat).isSome = true) →
            ∀ id g lane gr, s.gang? id = some g → g.reserved lane = some gr → ∃ g', t.gang? id = some g' ∧
              (pa < 64 * gr + 64 ∧ 64 * gr < pa + n → g'.reserved lane = none) ∧
              (¬ (pa < 64 * gr + 64 ∧ 64 * gr < pa + n) → Tbl.wf none g.reserve = true → g'.reserved lane = some gr)))))) ∧
  (∀ (s : State) (op : RemoteOp), op.srcPkg ≠ s.pkg →
    let s1 := s.arrive (.remote op)
    s1.firstInbound (.remote op) = true → s1.runsReady 4 (s1.remoteRuns op) true = true →
    let n := esize op.etype.toNat
    let performs := fun (m : Memory × List LaneReply) (l : RemoteLane) =>
      let fault := fun cause ecc => (m.1, m.2 ++ [LaneReply.fault l.lane cause ecc])
      if s.domain op.part op.srcPkg ≠ some op.srcPart then fault Cause.permission false
      else match s.access op.part l.addr n (remoteNeed op.kind) with
        | .error e => fault e false
        | .ok pa =>
          if s.spoiled pa n (remoteNeed op.kind) = true then fault Cause.permission true
          else
            let old := Memory.readNat m.1 pa n
            let v := if op.kind = .rld then none else if op.kind = .rst then some l.arg.toNat
              else atomNew (remoteAtom op.kind) op.etype.toNat op.sat old l.arg.toNat l.new.toNat
            (match v with
              | some v => Memory.writeNat m.1 pa n v
              | none => m.1, m.2 ++ [.value l.lane (if op.kind = .rst then 0 else BitVec.ofNat 64 old)])
    let done := op.lanes.foldl performs (s.vault, [])
    Gives (.remoteOpArrival op) s (fun t => t.vault = done.1 ∧
      t.netq = s.netq ++ [(op.srcPkg, .reply { ident := op.ident, refused := false, lanes := done.2 })])) ∧
  (∀ (s : State) (op : RemoteOp), s.firstInbound (.remote op) = false → s.isDue (.remote op) = true →
    Gives (.remoteOpArrival op) s (fun t => t = { s with inbound := t.inbound } ∧ NetMsg.remote op ∈ t.inbound)) ∧
  (∀ (s : State) (r : RemoteOut) (g : Gang) (ident l : Nat) (v : DWord) (d : RegField), s.remote? ident = some r →
    s.gang? r.gang = some g → s.isSaved g.team = false → (∀ x ∈ r.op.lanes, x.lane = l) → r.d = d.toNat →
    let elems := dstElems d (isWide r.op.etype.toNat) l
    let x : RemoteReply := { ident := ident, refused := false, lanes := [.value l v] }
    let out := elemOut r.op.etype.toNat v.toNat
    let takes := fun (t : State) (writes : Bool) => t.remote? ident = none ∧ t.vault = s.vault ∧ ∃ g', t.gang? r.gang = some g' ∧
      (writes = true → (∀ a b, elems = [a, b] → g'.settled a = BitVec.ofNat 32 out ∧
        g'.settled b = BitVec.ofNat 32 (out / 2 ^ 32)) ∧
        (∀ a, elems = [a] → g'.settled a = BitVec.ofNat 32 out)) ∧
      (∀ e, e ∉ elems → g'.settled e = g.settled e)
    (r.op.kind = .rld → r.kc = none → Gives (.rldReply x) s (fun t => takes t true)) ∧
    (∀ k, r.op.kind = .rst → r.kc = some k → g.tokens = [] → Gives (.rstAck x) s (fun t => takes t false ∧
      ∃ g', t.gang? r.gang = some g' ∧ g'.counter k = g.counter k - 1 ∧ ∀ j, j ≠ k → g'.counter j = g.counter j)) ∧
    (r.op.kind ≠ .rld → r.op.kind ≠ .rst → r.kc = none → r.faults = [] → g.waitsRatom ident r.mask = true →
      Gives (.ratomResponse x) s (fun t => takes t true ∧ ∃ g', t.gang? r.gang = some g' ∧
        ∀ y ∈ g'.groups, y.slices = r.mask → y.pc = r.opc + 4 ∧ y.park = none)) ∧
    (r.op.kind ≠ .rld → r.op.kind ≠ .rst → g.waitsRatom ident r.mask = true → g.inh = false →
      (s.part (s.teamPart g.team)).then_ = true →
      Gives (.ratomResponse { x with refused := true, lanes := [] }) s (fun t => t.remote? ident = none ∧ t.vault = s.vault ∧
        ∃ g', t.gang? r.gang = some g' ∧ g'.inh = true ∧ g'.trap.cause = Cause.atomicUnsupported ∧ g'.trap.tpc = r.opc)))

/-- R285, R286, R289, R370-R372, R375, R376, R401: COLL enters its communicator, whose entry gives P, RANK and the list of
members, and sends its message to every other member: SEND's bytes, P, SEQ and the SHAKE256 digest of the list in it;
COLLQ gives the communicator's counts. QSEND parks while its queue holds 16 descriptors, and else puts its descriptor
behind them; QSTAT gives a queue's state, CSLOT that of the rotation. COLL and QSEND act once, trap SLOT_STATE on another
team's tag, and count under their own as R271 gives. No allowance and no pool of the Lintel holds them up: that is the
model's reading (log 66). -/
def Obligations.CollectivesAndSendsAreEntered : Prop :=
  ∀ (s : State) (c : Ctx) (d a : RegField) (t : ByteField), s.issuing = some c →
    let w := c.words a 8
    let tag := c.core.tag t.toNat
    let foreign := c.core.tagForeign c.g.team t.toNat
    let accepted := fun (st : State) (k : FarKind) (g : Gang) =>
      (st.core c.g.core).tag t.toNat = { tag with state := .busy, pend := tag.pend + 1, owner := c.g.team } ∧
      (∃ r, st.req? s.next = some r ∧ r.gang = c.id ∧ r.team = c.g.team ∧ r.tag = t.toNat ∧ r.kind = k) ∧
      ∃ g', st.gang? c.id = some g' ∧ g'.groups = c.groupsAt (c.pc + 4) ∧ (∀ x, g'.settled x = c.g.settled x) ∧ g'.k = g.k
    let x := (c.readS a).toNat
    let part := s.part c.part
    (let comm := bits (dword w 5) 7 0
     let e := c.collEntry a
     let row := part.commbase * 4096 + 16 * comm
     c.collStop a t = none →
      (c.once = false → Gives (.coll a t) s (c.wrote c.g.settled)) ∧
      (e.p = Memory.readNat s.vault row 2 ∧ e.rank = Memory.readNat s.vault (row + 2) 2 ∧
        e.list = Memory.readBytes s.vault (Memory.readNat s.vault (row + 8) 4) (2 * e.p)) ∧
      (∀ ss rs, c.once = true → c.collSendRuns a = .ok ss → c.collRecvRuns a = .ok rs →
        (foreign = true → exec (.coll a t) s = .next (c.onceFault Cause.slotState (tagMark t.toNat))) ∧
        (foreign = false → tag.pend ≠ 4095 → Gives (.coll a t) s (fun st => accepted st (.coll comm) c.g ∧
          ((st.part c.part).comm comm).accepted = (part.comm comm).accepted + 1 ∧
          ∃ m : CollMsg, m.rank = e.rank ∧ m.comm = comm ∧ m.number = (part.comm comm).accepted ∧ m.members = e.p ∧
            m.seq = w.getD 6 0 ∧ m.digest = shake256 e.list ∧ m.op = collCode w ∧ m.fmt = collFmt w ∧ m.len = dword w 4 ∧
              m.root = collRoot w ∧ m.data = s.readRuns ss ∧
            st.netq = s.netq ++ ((List.range e.p).filter (· != e.rank)).map (fun r =>
              (e.pkg r, NetMsg.coll { m with part := (s.domain c.part (e.pkg r)).getD 0 })))))) ∧
    (c.onceStop (scalarDst d && scalarOk a) (decide (x < 256) && (s.commEntry c.part x).p != 0) true (regsOf a false)
        [] [] (regsOf d false) = none →
      let k := part.comm x
      (c.once = false → Gives (.collq d a) s (c.wrote c.g.settled)) ∧
      (c.once = true → Gives (.collq d a) s (c.wroteAt [(.s (d.toNat - 0xC0),
        BitVec.ofNat 32 (k.ended % 65536 + 65536 * (k.waiting.length % 4096) + 2 ^ 28 * k.mis.toNat))]))) ∧
    (let peer := qsendPeer w
     let q := part.sendQueue peer
     c.farStop (blockOk a 48) t (sregs (sreg a) 8) (operandStop (qsendOk s.pkg w)) = none → c.allStoresFirst = none →
      (c.once = false → Gives (.qsend a t) s (c.wrote c.g.settled)) ∧
      (c.once = true → s.domain c.part peer = none →
        exec (.qsend a t) s = .next (c.onceFault Cause.permission (qsendDst w))) ∧
      (∀ rs, c.once = true → (s.domain c.part peer).isSome = true →
        s.runs c.part (qsendSrc w) (dword w 4) Need.load = .ok rs →
        (foreign = true → exec (.qsend a t) s = .next (c.onceFault Cause.slotState (tagMark t.toNat))) ∧
        (foreign = false → tag.pend ≠ 4095 → 16 ≤ q.length → Gives (.qsend a t) s (c.parked (.qfull peer))) ∧
        (foreign = false → tag.pend ≠ 4095 → q.length < 16 → (∀ k, qsendCounter w = some k → c.g.counter k ≠ 4095) →
          Gives (.qsend a t) s (fun st => accepted st (.qsend peer (qsendCounter w)) (match qsendCounter w with
              | some k => c.g.putCounter k (c.g.counter k + 1)
              | none => c.g) ∧
            (st.part c.part).sendQueue peer = q ++
              [({ req := s.next, part := (s.domain c.part peer).getD 0, src := rs, dst := qsendDst w, len := dword w 4,
                  note := qsendNote w, va := qsendSrc w, nva := qsendNva w, sent := 0 } : QDesc)])))) ∧
    (c.onceStop (scalarDst d && scalarOk a) (decide (x < 1024) && (s.domain c.part x).isSome) true (regsOf a false)
        [] [] (regsOf d false) = none →
      let q := part.sendQueue x
      (c.once = false → Gives (.qstat d a) s (c.wrote c.g.settled)) ∧
      (c.once = true → Gives (.qstat d a) s (c.wroteAt [(.s (d.toNat - 0xC0),
        BitVec.ofNat 32 (q.length + 32 * (s.reaches x).toNat + 64 * (s.sendsTo x).toNat + 256 * queueRem q))]))) ∧
    (c.onceStop (pairOk d) true true [] [] [] (regsOf d true) = none →
      (c.once = false → Gives (.cslot d) s (c.wrote c.g.settled)) ∧
      (c.once = true → Gives (.cslot d) s (c.wroteAt [
        (.s (d.toNat - 0xC0), BitVec.ofNat 32 (s.rot.slot % 64 + 64 * s.rot.guard.toNat + 128 * s.rot.sync.toNat)),
        (.s (d.toNat - 0xC0 + 1), s.rot.rot)])))

/-- R286-R288, R373, R374, R425: what arrives for them. A collective forms once every member's message is there, or one
shows another group: members that agree complete it, and RECV holds what R287 gives; members that differ make it fail with
COLL_MISMATCH. What R287 gives: the reduction of the members' elements in its tree (sums of BF16 and FP32 under rne, sums
of S32 modulo 2^32, maxima), one block of it, every member's bytes, those of the root, or none. The bytes of a QSEND are
written where the sender's partition is of the domain and the page allows it; the last bytes add LEN to the notify word,
if the request has one and no page has failed, and report to the sender. The report ends the request and its counter
falls. A cancel that reaches a saved team latches event 16 in its gangs, and its requests end there. That these bytes are
in the vault in the arrival's own step, once they can be written, is the model's form (log 20). -/
def Obligations.CollectivesAndSendsComplete : Prop :=
  (∀ (s : State) (m : CollMsg) (w : CollLocal) (rest : List CollLocal) (r : FarReq), (s.part m.part).halted = false →
    let c := (s.part m.part).comm m.comm
    c.waiting = w :: rest → s.req? w.req = some r →
    let ms := (c.msgs ++ [m]).filter (fun q => q.number == w.msg.number)
    let full := ∀ k < w.msg.members, k = w.msg.rank ∨ ∃ q ∈ ms, q.rank = k
    let alike := fun q : CollMsg => q.members = w.msg.members ∧ q.digest = w.msg.digest
    let agrees := fun q : CollMsg => alike q ∧ q.op = w.msg.op ∧ q.fmt = w.msg.fmt ∧ q.len = w.msg.len ∧ q.root = w.msg.root ∧
      q.seq = w.msg.seq
    let sent := fun k => if k = w.msg.rank then w.msg.data else match ms.find? (fun q => q.rank == k) with
      | some q => q.data
      | none => []
    let ended := fun (t : State) (bad : Bool) => ((t.part m.part).comm m.comm).ended = c.ended + 1 ∧
      ((t.part m.part).comm m.comm).waiting = rest ∧ ((t.part m.part).comm m.comm).mis = bad ∧
      t.req? w.req = some { r with
        performed := true
        fails := if bad = true then r.fails ++ [(0, ⟨Cause.collMismatch, 0, false, 0⟩)] else r.fails }
    (¬ full → (∀ q ∈ ms, alike q) → Gives (.collMessageArrival m) s (fun t => t.req? w.req = some r ∧ t.vault = s.vault ∧
      (t.part m.part).comm m.comm = { c with msgs := c.msgs ++ [m] })) ∧
    (full ∨ (∃ q ∈ ms, ¬ alike q) → (∃ q ∈ ms, ¬ agrees q) →
      Gives (.collMessageArrival m) s (fun t => ended t true ∧ t.vault = s.vault)) ∧
    (∀ pa n, full → (∀ q ∈ ms, agrees q) → w.recv = [(pa, n)] → s.runsReady 4 [(pa, n)] true = true →
      let out := collResult w.msg.op w.msg.fmt w.msg.len w.msg.root w.msg.rank ((List.range w.msg.members).map sent)
      out.length = n → Gives (.collMessageArrival m) s (fun t => ended t false ∧ Memory.readBytes t.vault pa n = out ∧
        ∀ x, (x < pa ∨ pa + n ≤ x) → Memory.readByte t.vault x = Memory.readByte s.vault x))) ∧
  (∀ (fmt len root rank : Nat) (xs : List (List Byte)), fmt ≤ 2 → xs ≠ [] → xs.length ≤ 1024 →
    let n := if fmt = 0 then 2 else 4
    let f := if fmt = 0 then Fmt.bf16 else Fmt.f32
    let sum := fun x y : Nat => if fmt = 2 then (x + y) % 2 ^ 32 else (f.add RndEnv.rne x y).1
    let greater := fun x y : Nat => if fmt = 2 then (if asInt true 32 x ≤ asInt true 32 y then y else x)
      else (f.minMax false true false x y).1
    let reduces := fun (out : List Byte) (op : Nat → Nat → Nat) => out.length = len / n * n ∧ ∀ i < len / n,
      leNat ((out.drop (n * i)).take n) =
        rankTree op xs.length (fun r => leNat (((xs.getD r []).drop (n * i)).take n)) % 256 ^ n
    reduces (collResult 0 fmt len root rank xs) sum ∧ reduces (collResult 1 fmt len root rank xs) greater ∧
    collResult 2 fmt len root rank xs =
      ((collResult 0 fmt len root rank xs).drop (rank * (len / xs.length))).take (len / xs.length)) ∧
  (∀ (fmt len root rank : Nat) (xs : List (List Byte)), collResult 3 fmt len root rank xs = xs.flatten ∧
    collResult 4 fmt len root rank xs = xs.getD root [] ∧ collResult 5 fmt len root rank xs = []) ∧
  (∀ (s : State) (d : QData) (va n : Nat), let s1 := s.arrive (.qdata d)
    s1.firstInbound (.qdata d) = true → s1.runsReady 4 (s1.qPlaces d) true = true → s.qbad = [] →
    let gives := fun (P : State → Prop) => Gives (.qsendDataArrival d) s P
    let reports := fun (t : State) (x : Option QFault) => t.out = s.out ++ [.qsendReport d.srcPkg d.ident x]
    (s.domain d.part d.srcPkg ≠ some d.srcPart → gives (fun t => t.vault = s.vault ∧
      (d.last = true → reports t (some { cause := Cause.permission, addr := d.dst })))) ∧
    (∀ e, s.domain d.part d.srcPkg = some d.srcPart → s.qRuns d = [(va, n, .error e)] → gives (fun t => t.vault = s.vault ∧
      (d.last = true → reports t (some { cause := e, addr := va })))) ∧
    (∀ pa, s.domain d.part d.srcPkg = some d.srcPart → s.qRuns d = [(va, n, .ok pa)] → va = d.dst → n = d.data.length →
      let s2 := ((s1.unbook 4 (s1.qPlaces d)).performed (.qdata d)).qWrite d
      (Memory.readBytes s2.vault pa n = d.data ∧
        ∀ x, (x < pa ∨ pa + n ≤ x) → Memory.readByte s2.vault x = Memory.readByte s.vault x) ∧
      (d.last = false → gives (fun t => t = s2)) ∧
      (d.last = true → d.note = false → gives (fun t => t.vault = s2.vault ∧ reports t none)) ∧
      (d.last = true → d.note = true →
        (∀ pn, s2.access d.part d.nva 8 Need.atomic = .ok pn → s2.spoiled pn 8 Need.atomic = false → gives (fun t =>
          Memory.readNat t.vault pn 8 = (Memory.readNat s2.vault pn 8 + d.total) % 2 ^ 64 ∧ reports t none ∧
          ∀ x, (x < pn ∨ pn + 8 ≤ x) → Memory.readByte t.vault x = Memory.readByte s2.vault x)) ∧
        (∀ pn, s2.access d.part d.nva 8 Need.atomic = .ok pn → s2.spoiled pn 8 Need.atomic = true → gives (fun t =>
          t.vault = s2.vault ∧ reports t (some { cause := Cause.permission, addr := d.nva, ecc := true }))) ∧
        (∀ e, s2.access d.part d.nva 8 Need.atomic = .error e → gives (fun t => t.vault = s2.vault ∧
          reports t (some { cause := e, addr := d.nva })))))) ∧
  (∀ (s : State) (id peer : Nat) (r : FarReq) (kc : Option Nat) (g : Gang), s.req? id = some r → r.kind = .qsend peer kc →
    s.qSent (s.teamPart r.team) peer id = true → r.tag < 64 → s.isSaved r.team = false → s.imageReady r.team = true →
    s.gang? r.gang = some g → g.tokens = [] →
    ∀ failed : Option QFault,
      let fails := match failed with
        | some x => r.fails ++ [(0, ⟨x.cause, x.addr, x.ecc, 0⟩)]
        | none => r.fails
      Gives (.qsendCompletionReport id failed) s (fun t => t.req? id = none ∧
        (t.core r.core).tag r.tag = ((s.core r.core).tag r.tag).finish ((firstFail fails).map FarFail.cause) ∧
        ∃ g', t.gang? r.gang = some g' ∧ ∀ k, g'.counter k = if kc = some k then g.counter k - 1 else g.counter k)) ∧
  (∀ (s : State) (team id : Nat) (r : FarReq), s.isSaved team = true → s.imageReady team = true →
    Gives (.savedTeamArrival team .cancel) s (fun t => ∀ j g, t.gang? j = some g → g.team = team →
      g.evpend.getLsbD 16 = true) ∧
    (s.req? id = some r → r.team = team → r.over = true → s.reported r = true → s.reqHalted r = false →
      Gives (.savedTeamArrival team (.requestEnd id)) s (fun t => t.req? id = none)))

/-- R160, R162, R163, R186, R188: MCLAIM takes every unit that it names, those newly held being zero, or parks; MREL gives
back those that the team holds, once no request writes into them, or parks, and what it gives back is free for a claim
from the next cycle on; MSTAT tells of flags, holdings, poison and free slots. A frozen engine parks MCLAIM and MREL. A
claim or a release that parked completes when it can. When an accepted operation is performed is the model's form of R164
(log 13), and that a claim of nothing ends under a freeze too is its choice (log 75). -/
def Obligations.MatrixUnitsAreClaimed : Prop :=
  (∀ (s : State) (c : Ctx) (d a : RegField), s.issuing = some c →
    let team := c.g.team
    let f := c.engineCore
    let sl := c.sval (a.toNat - 0xC0)
    let bl := c.sval (a.toNat - 0xC0 + 1)
    let x := (c.readS a).toNat
    let sel := x % 16
    (c.claimStop a = none →
      (c.once = false → Gives (.mclaim a) s (c.wrote c.g.settled) ∧ Gives (.mrel a) s (c.wrote c.g.settled)) ∧
      (c.once = true → sl = 0 → bl = 0 → Gives (.mclaim a) s (c.wrote c.g.settled)) ∧
      (c.once = true → c.engineHolds = true → c.grp.park = none → Gives (.mrel a) s (c.parked (.frozen false)) ∧
        (sl ≠ 0 ∨ bl ≠ 0 → Gives (.mclaim a) s (c.parked (.frozen false)))) ∧
      (c.once = true → c.engineHolds = false →
        (sl ≠ 0 ∨ bl ≠ 0 → c.grp.park = none → s.claimable c.g.core team s.next sl bl = false →
          Gives (.mclaim a) s (c.parked (.mclaim sl bl))) ∧
        (sl ≠ 0 ∨ bl ≠ 0 → s.claimable c.g.core team s.next sl bl = true →
          Gives (.mclaim a) s (c.worked c.g c.g.settled (fun k =>
            (∀ n < 32, k.slotHolder n = (if sl.getLsbD n = true then some team else f.slotHolder n) ∧
              k.blockHolder n = (if bl.getLsbD n = true then some team else f.blockHolder n)) ∧
            (∀ n < 32, sl.getLsbD n = true → f.slotHolder n ≠ some team → ∀ y, y / 16384 = n →
              Memory.readByte k.slots y = 0) ∧
            (∀ n < 32, bl.getLsbD n = true → f.blockHolder n ≠ some team → ∀ r, r / 32 = n →
              k.poisoned r = false ∧ ∀ j < 128, k.col r j = 0)))) ∧
        (s.slotWriter c.g.core team (c.core.heldSlots team sl) = true →
          Gives (.mrel a) s (c.parked (.mrel (c.core.heldSlots team sl) (c.core.heldBlocks team bl)))) ∧
        (s.slotWriter c.g.core team (c.core.heldSlots team sl) = false →
          Gives (.mrel a) s (c.worked c.g c.g.settled (fun k =>
            (∀ n < 32, c.core.slotHolder n = f.slotHolder n → c.core.blockHolder n = f.blockHolder n →
              k.slotHolder n = (if sl.getLsbD n = true ∧ f.slotHolder n = some team then none else f.slotHolder n) ∧
              k.blockHolder n = (if bl.getLsbD n = true ∧ f.blockHolder n = some team then none else f.blockHolder n) ∧
              (sl.getLsbD n = true → f.slotHolder n = some team → ∀ now, k.freeAt now n = decide (s.now < now)) ∧
              (bl.getLsbD n = true → f.blockHolder n = some team → ∀ now, k.freeAt now (32 + n) = decide (s.now < now))) ∧
            k.rowsBut f (fun _ => False) ∧ k.slotsBut f (fun _ => False)))))) ∧
    (c.onceStop (scalarDst d && scalarOk a) (bits x 7 4 == 0 && x / 2 ^ 13 == 0 && decide (sel ≤ 4)) true
        (regsOf a false) [] [] (regsOf d false) = none → s.frozenBefore c.g.core c.frozenPlace = false →
      (c.once = false → Gives (.mstat d a) s (c.wrote c.g.settled)) ∧
      (c.once = true → ∃ v : Word, Gives (.mstat d a) s (c.worked
          (if sel = 0 then { c.g with mxf := 0 } else c.g) (fun e => if e = .s (d.toNat - 0xC0) then v else c.g.settled e)
          (fun k => k.rowsBut f (fun _ => False) ∧ k.slotsBut f (fun _ => False))) ∧
        (sel = 0 → v.extractLsb' 0 6 = c.g.mxf ||| f.flagsOf c.id ∧ (v.getLsbD 6 = true ↔ s.frozen c.g.core = true)) ∧
        (∀ n < 32, (sel = 1 → (v.getLsbD n = true ↔ f.slotHolder n = some team)) ∧
          (sel = 2 → (v.getLsbD n = true ↔ f.blockHolder n = some team)) ∧
          (sel = 3 → (v.getLsbD n = true ↔ f.blockHolder (x / 256) = some team ∧ f.poisoned (32 * (x / 256) + n) = true)) ∧
          (sel = 4 → (v.getLsbD n = true ↔ f.slotHolder n = none)))))) ∧
  (∀ (s : State) (id core : Nat) (g : Gang) (x : Group) (sl bl : Word), s.gang? id = some g → s.resident g = true →
    g.core = core → x ∈ g.groups → s.frozen core = false →
    (∀ j h y p q, s.gang? j = some h → s.resident h = true → h.core = core → y ∈ h.groups →
      y.park = some (.mclaim p q) ∨ y.park = some (.mrel p q) → j = id ∧ y = x) →
    let went := fun (t : State) => ∃ g', t.gang? id = some g' ∧ ∀ y ∈ g'.groups, y.slices = x.slices →
      y.pc = x.pc + 4 ∧ y.park = none
    (x.park = some (.mclaim sl bl) → s.claimable core g.team x.since sl bl = true →
      Gives (.mclaimGrant core) s (fun t => went t ∧
        (∀ n < 32, sl.getLsbD n = true → (t.core core).slotHolder n = some g.team) ∧
        ∀ n < 32, bl.getLsbD n = true → (t.core core).blockHolder n = some g.team)) ∧
    (x.park = some (.mrel sl bl) → s.slotWriter core g.team sl = false →
      Gives (.mrelRelease core) s (fun t => went t ∧
        (∀ n < 32, sl.getLsbD n = true → (t.core core).slotHolder n ≠ some g.team) ∧
        ∀ n < 32, bl.getLsbD n = true → (t.core core).blockHolder n ≠ some g.team)))

/-- R164-R166, R174-R177, R179, R181-R185: the operations on slots and rows that the team holds. MMA, MMAG, MCVT and
MDRAIN are accepted by the engine and counted; the others find every accepted operation performed, touch the rows and the
slots that they name and no other, and complete at once. When an accepted operation is performed is the model's form of
R164 (log 13). A reduced row is the value of R178's tree, and MROWSCL's product and sum are exact but for one rounding;
its exp2 is named as the meaning computes it (log 10). -/
def Obligations.MatrixOperationsActOnHeldUnits : Prop :=
  (∀ (s : State) (c : Ctx) (d a b : RegField) (k code : ByteField), s.issuing = some c → c.engineHolds = false →
   let w8 := c.words a 8
   let m := MDesc.of w8
   let f := c.engineCore
   let x := c.readS d
   let xa := c.readS a
   let w := isWide c.etype
   let n := rangeCount x
   let accepted := fun (i : Instr) (kk : Nat) (kind : EngineKind) =>
     (c.once = false → Gives i s (c.wrote c.g.settled)) ∧
     (c.once = true → c.g.counter kk ≠ 4095 → Gives i s (c.worked (c.g.putCounter kk (c.g.counter kk + 1)) c.g.settled (fun e =>
       ∃ o, e = { c.core with engine := c.core.engine ++ [o] } ∧ o.gang = c.id ∧ o.team = c.g.team ∧ o.k = kk ∧
         o.opc = c.pc ∧ o.kind = kind)))
   let acts := fun (i : Instr) (P : Core → Prop) => (c.once = false → Gives i s (c.wrote c.g.settled)) ∧
     (c.once = true → Gives i s (c.worked c.g c.g.settled P))
   let groups := (List.range m.g).map (fun g =>
     s.padRead c.g.team c.g.core (padOffset c.padAlloc 4 (m.gtab + 4 * g)) 4 % 65536)
   let held := fun (p : Nat → Nat × Nat) => ∀ l ∈ c.takers, c.core.blockHolder ((p l).1 / 32) = some c.g.team
   let pos := c.moveAt a b
   (c.onceStop (blockOk a 48 && decide (k.toNat ≤ 7)) (MDesc.ok false w8) true (sregs (sreg a) 8) [] [] [] = none →
     c.core.mmaGap c.g.team m = none → accepted (.mma a k) k.toNat (.mma false w8 [m.m])) ∧
   (c.onceStop (blockOk a 48 && decide (k.toNat ≤ 7)) (MDesc.ok true w8) true (sregs (sreg a) 8) [] [] [] = none →
     c.core.mmaGap c.g.team m = none → c.ownPadFirst = none → accepted (.mmag a k) k.toNat (.mma true w8 groups)) ∧
   (let j0 := c.sval (sreg d)
    let j1 := c.sval (sreg d + 1)
    let i0 := c.sval (sreg a)
    let i1 := c.sval (sreg a + 1)
    let tr := bit code.toNat 3
    let rnd := bits code.toNat 6 4
    let desc := McvtDesc.of j0 j1 i0 i1 tr rnd
    Code.mcvt code = true → c.onceStop (blockOk d 54 && blockOk a 54) (McvtDesc.ok j0 j1 i0 i1 desc) true (sregs (sreg a) 2) []
      (sregs (sreg d) 2) [] = none → c.core.mcvtGap c.g.team desc = none →
     accepted (.mcvt d a code) (code.toNat % 8) (.mcvt i0 i1 j0 j1 tr rnd)) ∧
   (let ss := bit code.toNat 4
    Code.mdrain code = true → bit code.toNat 3 = true →
     c.onceStop (scalarOk d && pairOk a) (drainOk ss x && c.spair (sreg a) % 16 == 0) true (regsOf a true) []
       (regsOf d false) [] = none →
     (if ss then c.core.slotGap c.g.team (bits x.toNat 18 0) (drainLen ss x)
       else c.core.rowGap c.g.team (rangeRow x) (rangeCount x)) = none →
     accepted (.mdrain d a code) (code.toNat % 8) (.mdrain ss x true (c.spair (sreg a)))) ∧
   (let ss := bit code.toNat 4
    let kk := code.toNat % 8
    Code.mdrain code = true → bit code.toNat 3 = false →
     c.onceStop (scalarOk d && scalarOk a) (drainOk ss x && xa.toNat % 16 == 0) true (regsOf a false) []
       (regsOf d false) [] = none →
     (if ss then c.core.slotGap c.g.team (bits x.toNat 18 0) (drainLen ss x)
       else c.core.rowGap c.g.team (rangeRow x) (rangeCount x)) = none →
     (c.once = false → Gives (.mdrain d a code) s (c.wrote c.g.settled)) ∧
     (c.once = true → c.g.counter kk ≠ 4095 → Gives (.mdrain d a code) s (fun t =>
       (∃ o, t.core c.g.core = { c.core with engine := c.core.engine ++ [o] } ∧ o.gang = c.id ∧ o.k = kk ∧
         o.kind = .mdrain ss x false xa.toNat) ∧
       ∃ g', t.gang? c.id = some g' ∧ g'.rest = (c.g.putCounter kk (c.g.counter kk + 1)).rest ∧
         g'.groups = c.groupsAt (c.pc + 4) ∧ ∀ e, g'.settled e = c.g.settled e))) ∧
   (c.onceStop (scalarOk a) (rangeOk xa) true (regsOf a false) [] [] [] = none →
     c.core.rowGap c.g.team (rangeRow xa) (rangeCount xa) = none →
     acts (.mzero a) (fun e => (∀ r, rangeRow xa ≤ r → r < rangeRow xa + rangeCount xa →
         e.poisoned r = false ∧ ∀ j < 128, e.col r j = 0) ∧
       e.rowsBut f (fun r => rangeRow xa ≤ r ∧ r < rangeRow xa + rangeCount xa) ∧ e.slotsBut f (fun _ => False))) ∧
   (let at_ := x.toNat
    let len := (c.readS b).toNat
    c.onceStop (scalarOk d && scalarOk a && scalarOk b)
       (decide (at_ < 2 ^ 19) && at_ % 16 == 0 && xa.toNat % 16 == 0 && len % 16 == 0 && decide (16 ≤ len) &&
         decide (len ≤ 262144) && decide (at_ + len ≤ 524288)) true
       (regsOf a false) (regsOf b false) (regsOf d false) [] = none → c.core.slotGap c.g.team at_ len = none →
     c.ownPadFirst = none →
     acts (.mload d a b) (fun e => (∀ i < len, Memory.readByte e.slots (at_ + i) =
         (s.padReadRun c.g.team c.g.core xa.toNat len).getD i 0) ∧
       e.slotsBut f (fun y => at_ ≤ y ∧ y < at_ + len) ∧ e.rowsBut f (fun _ => False))) ∧
   (let sp := (c.readS b).toNat
    let v := sp % 2 = 1
    let src := if v then c.spair (sreg a) else xa.toNat
    ∀ bytes vc, c.onceStop (scalarOk d && scalarOk a && scalarOk b)
       (sp / 2 == 0 && (!(sp % 2 == 1) || pairOk a) && rangeOk x && src % 16 == 0) true
       (regsOf a (sp % 2 == 1)) (regsOf b false) (regsOf d false) [] = none → (v → c.sourceFirst = none) →
     (¬ v → c.ownPadFirst = none) →
     c.core.rowGap c.g.team (rangeRow x) n = none →
     (v → ∃ pa, s.run c.part src (512 * n) Need.load = [(src, 512 * n, .ok pa)] ∧
       s.badIn pa (512 * n) = [] ∧ bytes = Memory.readBytes s.vault pa (512 * n) ∧
       vc = (s.mergeRuns c.agent [(pa, 512 * n)]).vc) →
     (¬ v → bytes = s.padReadRun c.g.team c.g.core src (512 * n) ∧ vc = s.vc) →
     (c.once = false → Gives (.mfill d a b) s (c.wrote c.g.settled)) ∧
     (c.once = true → Gives (.mfill d a b) s (c.workedMerging vc c.g c.g.settled (fun e =>
       (∀ i < n, e.poisoned (rangeRow x + i) = false ∧ ∀ j < 128,
         e.col (rangeRow x + i) j = BitVec.ofNat 32 (leNat ((bytes.drop (512 * i + 4 * j)).take 4))) ∧
       e.rowsBut f (fun r => rangeRow x ≤ r ∧ r < rangeRow x + n) ∧ e.slotsBut f (fun _ => False))))) ∧
   (moveTypeOk c.etype = true → held pos → c.onceStop (isVreg d && c.dstOk d w && scalarOk a && c.srcOk b w) true true
       (regsOf a false) (regsOf b w) [] (regsOf d w) = none →
     Gives (.mrd d a b) s (c.worked c.g (c.result d w (fun l =>
       if f.poisoned (pos l).1 then (if w then Fmt.f64.nanBits else Fmt.f32.nanBits) else f.colW w (pos l).1 (pos l).2))
       (fun e => e.rowsBut f (fun _ => False) ∧ e.slotsBut f (fun _ => False)))) ∧
   (moveTypeOk c.etype = true → held pos → c.onceStop (isVec d && c.srcOk d w && scalarOk a && c.srcOk b w) true true
       (regsOf a false) (regsOf b w) (regsOf d w) [] = none →
     Gives (.mwr d a b) s (c.worked c.g c.g.settled (fun e => e.slotsBut f (fun _ => False) ∧
       (∀ r, e.poisoned r = f.poisoned r) ∧
       (∀ l ∈ c.takers, f.poisoned (pos l).1 = false → (∀ l' ∈ c.takers, l < l' → pos l' ≠ pos l) →
         e.colW w (pos l).1 (pos l).2 = c.readD d w l % 2 ^ (if w then 64 else 32)) ∧
       ∀ r j, j < (if w then 64 else 128) → (∀ l ∈ c.takers, pos l ≠ (r, j) ∨ f.poisoned r = true) →
         e.colW w r j = f.colW w r j))) ∧
   (let wide := bit code.toNat 2
    let row := fun l => spanRow x + l
    Code.mrowscl code = true → (∀ l ∈ c.takers, row l ≤ 1023 ∧ c.core.blockHolder (row l / 32) = some c.g.team) →
     c.onceStop (isSreg d && isVec a && c.srcOk a wide) (spanOk x (if wide then 64 else 128)) true (regsOf a wide) []
       (regsOf d false) [] = none →
     Gives (.mrowscl d a code) s (fun t => ∃ fl, c.worked { c.g with mxf := c.g.mxf ||| fl } c.g.settled (fun e =>
       e.slotsBut f (fun _ => False) ∧
       e.rowsBut f (fun r => ∃ l ∈ c.takers, row l = r ∧ f.poisoned r = false) ∧
       ∀ l ∈ c.takers, f.poisoned (row l) = false → ∀ i < spanLen x, e.colW wide (row l) (spanCol x + i) =
         (rowScale (if wide then Fmt.f64 else Fmt.f32) (code.toNat % 4) (f.colW wide (row l) (spanCol x + i))
           (c.readA a wide l)).1 % 2 ^ (if wide then 64 else 32)) t)) ∧
   (let wide := bit code.toNat 2
    let row := fun l => spanRow xa + l
    Code.mrowred code = true →
     (∀ l ∈ c.takers, row l ≤ 1023 ∧ c.core.blockHolder (row l / 32) = some c.g.team) →
     c.onceStop (isVreg d && c.dstOk d wide && scalarOk a) (spanOk xa (if wide then 64 else 128)) true (regsOf a false) [] []
       (regsOf d wide) = none →
     Gives (.mrowred d a code) s (fun t => ∃ fl, c.worked { c.g with mxf := c.g.mxf ||| fl } (c.result d wide (fun l =>
       (f.reduceRow wide (code.toNat % 4) (row l) (spanCol xa) (spanLen xa)).1))
       (fun e => e.rowsBut f (fun _ => False) ∧ e.slotsBut f (fun _ => False)) t))) ∧
  (∀ (k : Core) (wide : Bool) (op r c0 n x y : Nat),
   let f := if wide then Fmt.f64 else Fmt.f32
   let step := fun x y => if op = 0 then f.add RndEnv.rne x y else f.minMax false (op != 2) false x y
   let held := fun i => if op = 3 then k.colW wide r (c0 + i) % 2 ^ (f.eb + f.mb) else k.colW wide r (c0 + i)
   let ident := if op = 0 then f.signBit true else f.signBit (op != 2) + f.infBits
   let e := fun i => if i < (if wide then 64 else 128) then (if i < n then held i else ident) else 0
   (k.poisoned r = true → k.reduceRow wide op r c0 n = (f.nanBits, Flags.none)) ∧
   (k.poisoned r = false → k.reduceRow wide op r c0 n =
     (treeAt step e (if wide then 6 else 7) 0, Flags.orAll (treeFlags step e (if wide then 6 else 7)))) ∧
   f.Sums RndEnv.rne [] [(f.decode x, f.decode y)] (rowScale f 0 x y) ∧
   f.Sums RndEnv.rne [f.decode x, f.decode y] [] (rowScale f 1 x y))

/-- R164, R170, R176, R190: the operation at the head of a core's engine completes. An MMA has added its products to the
rows that it names, but for poisoned ones, has touched no other row and no slot, and has left its counter. R110 to R112,
R175: an element takes in its K-blocks in increasing order, each the exact sum of its products, added to the accumulator
with one rounding to nearest even, or, for integers, wrapping or clamped. -/
def Obligations.EngineCompletesProducts : Prop :=
  (∀ (s : State) (core : Nat) (o : EngineOp) (rest : List EngineOp) (ws : List Word) (g : Gang),
   let d := MDesc.of ws
   let k := s.core core
   let wide := d.afmt == 0
   s.frozen core = false → k.engine = o :: rest → (∀ x ∈ rest, x.id ≠ o.id) → o.kind = .mma false ws [d.m] → o.next = 0 →
   o.ran = false → MDesc.ok false ws = true → s.gang? o.gang = some g → g.ended = false → g.tokens = [] →
   Gives (.engineOpComplete core) s (fun t => (t.core core).engine = rest ∧
     (t.core core).slotsBut k (fun _ => False) ∧
     (t.core core).rowsBut k (fun r => d.row0 ≤ r ∧ r < d.row0 + d.m ∧ k.poisoned r = false) ∧
     (∀ i < d.m, k.poisoned (d.row0 + i) = false → ∀ n < d.n, (t.core core).colW wide (d.row0 + i) (d.col0 + n) =
       d.element k.slots i n 0 (if d.accum then k.colW wide (d.row0 + i) (d.col0 + n) else 0) %
         2 ^ (if wide then 64 else 32)) ∧
     ∃ g', t.gang? o.gang = some g' ∧ ∀ j, g'.counter j = if j = o.k then g.counter j - 1 else g.counter j)) ∧
  (∀ (d : MDesc) (m : Memory) (i n bt x : Nat),
   let f := if d.afmt = 0 then Fmt.f64 else Fmt.f32
   let pa := fun k => mfElem m d.afmt (d.aslot * 16384 + i * d.apitch) k
   let pb := fun k => mfElem m d.bfmt (d.bslot * 16384 + bt + n * d.bpitch) k
   let va := fun k => mfVal d.afmt (pa k) (mfScale m d.afmt (d.aslot * 16384) d.ascl d.scaleBlocks i (k / 32))
   let vb := fun k => mfVal d.bfmt (pb k) (mfScale m d.bfmt (d.bslot * 16384 + bt) d.bscl d.scaleBlocks n (k / 32))
   (∀ b k, k ∈ d.blockKs b ↔ k < d.k ∧ k / mfBlock d.afmt = b) ∧ (∀ b, (d.blockKs b).Nodup) ∧
   ∃ acc : Nat → Nat, acc 0 = x ∧ d.element m i n bt x = acc d.blocks ∧ ∀ b < d.blocks,
     (mfClass d.afmt = 3 →
       let y := asInt true 32 (acc b) + ((d.blockKs b).map (fun k =>
         asInt (mfSigned d.afmt) (mfBits d.afmt) (pa k) * asInt (mfSigned d.bfmt) (mfBits d.bfmt) (pb k))).sum
       acc (b + 1) < 2 ^ 32 ∧ (d.sat = true → asInt true 32 (acc (b + 1)) = max (-2 ^ 31) (min (2 ^ 31 - 1) y)) ∧
       (d.sat = false → (acc (b + 1) : Int) = y % 2 ^ 32)) ∧
     (mfClass d.afmt ≠ 3 → ∃ fl, f.Sums RndEnv.rne [f.decode (acc b)] ((d.blockKs b).map (fun k => (va k, vb k)))
       (acc (b + 1), fl)))

/-- R300-R303, R340-R343, R388: WORKGET writes its mailbox to zero and stays pending, and parks while one is; LAUNCH, once
the gang's earlier accesses are made, reads its packet, which its die merges (R204), parks on a full queue or for a write
that its own comes behind, and else writes the packet at entry WR and advances WR; it traps PRIVILEGED on a privileged
queue outside privilege. CANCEL cancels the launches that its level and ID name: their teams never placed are gone. CNTRD
reads a counter of Table 10.5. -/
def Obligations.WorkInstructionsComplete : Prop :=
  ∀ (s : State) (c : Ctx) (d a : RegField) (code : ByteField), s.issuing = some c →
    let x := (c.readS a).toNat
    (c.onceStop (scalarOk a) (c.padAlloc != 0) true (regsOf a false) [] [] [] = none → c.ownPadFirst = none →
      (c.once = false → Gives (.workget a) s (c.wrote c.g.settled)) ∧
      (∀ off, c.once = true → c.g.workget = some off → Gives (.workget a) s (c.parked .workget)) ∧
      (∀ tm k, c.once = true → c.g.workget = none → c.team = some tm → tm.onCore c.g.core = some k →
        let off := x % tm.alloc / 16 * 16
        Gives (.workget a) s (fun t => t = { s with gangs := t.gangs, teams := t.teams } ∧
          (∀ i < 16, t.padRead c.g.team c.g.core (off + i) 1 = 0) ∧
          (∀ y, (y < off ∨ off + 16 ≤ y) → t.padRead c.g.team c.g.core y 1 = s.padRead c.g.team c.g.core y 1) ∧
          ∃ g', t.gang? c.id = some g' ∧ g'.rest = { c.g.rest with workget := some off } ∧
            g'.groups = c.groupsAt (c.pc + 4) ∧ ∀ e, g'.settled e = c.g.settled e))) ∧
    (let w := c.words a 8
     let q := bits (dword w 2) 4 0
     let lq := (s.part c.part).queue q
     let ea := lq.entryAt lq.wr
     (c.interlock (sregs (sreg a) 8 ++ c.guardRegs) = none → blockOk a 48 = true → launchBlockOk w = true →
       c.privileged = false → (s.part c.part).privq.getLsbD q = true →
       exec (.launch a) s = .next (c.raise Cause.privileged)) ∧
     (c.onceStop (blockOk a 48) (launchBlockOk w) (c.privileged || !(s.part c.part).privq.getLsbD q) (sregs (sreg a) 8) [] []
        [] = none → c.accessesFirst = none →
      (c.once = false → Gives (.launch a) s (c.wrote c.g.settled)) ∧
      (∀ rs, c.once = true → s.runs c.part (dword w 0 + 2 ^ 32 * bits (dword w 1) 23 0) 128 Need.load = .ok rs →
        let s1 := s.mergeRuns c.agent rs
        let c1 : Ctx := { c with s := s1 }
        let bs := s.readRuns rs
        bs.length = 128 →
        (lq.size ≤ lq.unread → Gives (.launch a) s (c1.parked (.launchq q bs))) ∧
        (∀ pa, lq.unread < lq.size → s.access c.part ea 128 Need.store = .ok pa → s1.writeReady c.agent pa 128 = false →
          Gives (.launch a) s (c1.parked (.launchq q bs))) ∧
        (∀ pa, lq.unread < lq.size → s.access c.part ea 128 Need.store = .ok pa → s1.writeReady c.agent pa 128 = true →
          Gives (.launch a) s (fun t => Memory.readBytes t.vault pa 128 = bs ∧
            (∀ y, (y < pa ∨ pa + 128 ≤ y) → Memory.readByte t.vault y = Memory.readByte s.vault y) ∧
            (t.part c.part).queue q = { lq with wr := lq.wr + 1 } ∧
            ∃ g', t.gang? c.id = some g' ∧ g'.groups = c.groupsAt (c.pc + 4) ∧ ∀ e, g'.settled e = c.g.settled e))))) ∧
    (Code.low2 code = true → c.onceStop (scalarOk a) (levelOk code x) true (regsOf a false) [] [] [] = none →
      (c.once = false → Gives (.cancel a code) s (c.wrote c.g.settled)) ∧
      (c.once = true → Gives (.cancel a code) s (fun t => t.vault = s.vault ∧
        (∀ id l, s.launch? id = some l → l.part = c.part → l.named code.toNat x = true → ∃ l', t.launch? id = some l' ∧
          l'.cancelled = true ∧ (l.cancelled = false → l'.nextTid = l.total)) ∧
        ((∀ tm, c.team = some tm → tm.victim = false) → ∃ g', t.gang? c.id = some g' ∧ g'.groups = c.groupsAt (c.pc + 4) ∧
          ∀ e, g'.settled e = c.g.settled e)))) ∧
    (Code.low2 code = true → c.onceStop (scalarDst d && scalarOk a) (levelOk code x) true (regsOf a false) [] []
        (regsOf d false) = none →
      let n := s.launchCounter c.part code.toNat x
      (c.once = false → Gives (.cntrd d a code) s (c.wrote c.g.settled)) ∧
      (c.once = true → Gives (.cntrd d a code) s (fun t =>
        c.wroteAt [(.s (d.toNat - 0xC0), BitVec.ofNat 32 n)] { t with vc := s.vc } ∧ (n ≠ 0 → t.vc = s.vc))))

/-- R31, R290, R292, R294-R296, R301, R303, R473: the distributor reads packets and completes launches. A packet that R294
refuses sets REF; any other becomes a launch. A new WR is written once the package is READY, and in PS1 asks for PS0. A
pending WORKGET takes the lowest team never placed, if there is one. A launch whose teams have all gone completes: its
record is one store of the IOD agent, and its vector follows once that is performed; a launch that waited for it waits for
it no longer, and is cancelled with it unless it ignores that; a cancelled one's team stops; an ended gang whose counters
are zero releases its slot once its remote loads are answered, and a WORKGET of it that still waits stays with its team,
which is the model's reading (log 29); a launch whose turn finds it no place for 20 µs becomes blocking (log 56). -/
def Obligations.TheDistributorRunsLaunches : Prop :=
  ∀ (s : State) (part q : Nat),
    let p := s.part part
    let x := p.queue q
    (∀ wr, (s.house.phase ≠ 5 → Gives (.lqWrWrite part q wr) s (fun t => t = s)) ∧
      (s.house.phase = 5 → Gives (.lqWrWrite part q wr) s (fun t => (t.part part).queue q = { x with wr := wr } ∧
        (x.en = true → s.house.cur = 1 ∨ s.house.entering = some 1 → t.house.wakeAsked = true)))) ∧
    (∀ pa, s.distributorOn = true → p.halted = false → x.en = true → x.wr ≠ x.rd → (s.partLaunches part).length < 1024 →
      s.uncovered (s.vcOf 4) = false → s.access part (x.entryAt x.rd) 128 Need.load = .ok pa →
      let bs := Memory.readBytes s.vault pa 128
      let s1 := (s.putPart part (p.putQueue q { x with rd := x.rd + 1 })).cache part (x.entryAt x.rd)
      (s1.packetRefusal part bs = none → Gives (.launchPacketRead part q) s (fun t =>
        ((t.part part).queue q).rd = x.rd + 1 ∧ ∃ n, t.launch? s.next = some n ∧ n.part = part ∧
          n.lid.toNat = packetWord bs 4 % 2 ^ 32 ∧ n.total = packetGrid bs ∧ n.gangs = packetGangs bs ∧
          n.cores = packetCores bs ∧ n.vregs = packetVregs bs ∧ n.prio = bits (packetWord bs 0) 9 8 ∧ n.nextTid = 0 ∧
          n.gone = 0 ∧ n.cancelled = false)) ∧
      (∀ st, s1.packetRefusal part bs = some st → Gives (.launchPacketRead part q) s (fun t =>
        ((t.part part).queue q).rd = x.rd + 1 ∧ ((t.part part).queue q).ref = true ∧ t.launches = s.launches))) ∧
    (∀ launch l, s.launch? launch = some l → l.total ≤ l.gone →
      let status := if l.stopped = true then 2 else if l.cancelled = true then 1 else 0
      (∀ j n, s.launch? j = some n → n.part = l.part → j ≠ launch → launch ∈ n.preds →
        Gives (.launchComplete launch) s (fun t => t.launch? launch = none ∧ ∃ n', t.launch? j = some n' ∧
          n'.preds = n.preds.filter (· != launch) ∧
          n'.cancelled = (n.cancelled || (decide (status ≠ 0) && !n.igncxl)))) ∧
      (∀ j n, s.launch? j = some n → (n.part ≠ l.part ∨ (j ≠ launch ∧ launch ∉ n.preds)) →
        Gives (.launchComplete launch) s (fun t => t.launch? j = some n))) ∧
    (∀ launch l, s.launch? launch = some l → l.total ≤ l.gone →
      (∀ j n, s.launch? j = some n → n.part = l.part → j ≠ launch → launch ∉ n.preds) →
      let status := if l.stopped = true then 2 else if l.cancelled = true then 1 else 0
      let vecs := if l.irq = true then [Out.msix l.part l.vec] else []
      let ends := fun (P : State → Prop) => Gives (.launchComplete launch) s (fun t => t.launch? launch = none ∧
        t.vault = s.vault ∧ P t)
      (l.cpla = 0 ∨ l.cpla % 16 ≠ 0 → ends (fun t => t.out = s.out ++ vecs)) ∧
      (∀ pa, l.cpla ≠ 0 → l.cpla % 16 = 0 → s.access l.part l.cpla 16 Need.store = .ok pa → s.iodq = [] →
        s.fullOf 4 = false → ends (fun t => t.out = s.out ∧ ∃ r ∈ t.vreqs, r.agent = 4 ∧ r.pa = pa ∧ r.size = 16 ∧
          r.after = vecs ∧ r.kind = .write (leNat (leBytes 1 status ++ leBytes 3 0 ++ leBytes 4 l.lid.toNat ++
            leBytes 6 l.counted ++ leBytes 2 0))))) ∧
    (∀ launch l, s.launch? launch = some l → l.part = part → s.wantsPlace launch l = true →
      s.heldByBlocking launch l = false → s.fit launch l = none →
      Gives (.launchBlocking part launch) s (fun t => t = s.putLaunch launch { l with blocking := true })) ∧
    (∀ gang g, s.gang? gang = some g → g.ended = true → (∀ e ∈ g.k, e.2 = 0) → s.replyOut gang = false →
      (g.workget = none → Gives (.gangSlotRelease gang) s (fun t => t.gang? gang = none ∧
        (∀ j, j ≠ gang → t.gang? j = s.gang? j) ∧ t = { s with gangs := t.gangs })) ∧
      (∀ off tm, g.workget = some off → s.team? g.team = some tm → Gives (.gangSlotRelease gang) s (fun t =>
        t.gang? gang = none ∧ (∀ j, j ≠ gang → t.gang? j = s.gang? j) ∧
        t.team? g.team = some { tm with workgets := tm.workgets ++ [(gang, g.rank, off)] } ∧
        t = { s with gangs := t.gangs, teams := t.teams }))) ∧
    (∀ launch team l tm, s.launch? launch = some l → s.team? team = some tm → tm.status = .running → tm.launch = launch →
      l.cancelled = true →
      Gives (.cancelStop team) s (fun t => (∃ tm', t.team? team = some tm' ∧ tm'.status = .stopped) ∧
        (∀ j h, t.gang? j = some h → h.team = team → h.groups = [] ∧ h.ended = true ∧ h.stopped = true) ∧
        ∃ l', t.launch? launch = some l' ∧ l'.stopped = true ∧ l'.gone = l.gone + 1 + tm.withdrawn.length)) ∧
    (∀ launch gang team l g tm off k, s.launch? launch = some l → s.gang? gang = some g → s.team? team = some tm →
      g.team = team → g.workget = some off → tm.status = .running → tm.saving = false →
      (s.part tm.part).halted = false → tm.launch = launch → tm.onCore g.core = some k → 0 < tm.alloc →
      let read := fun (t : State) o n => t.padRead team g.core (off + o) n
      (l.nextTid < l.total → l.cancelled = false → Gives (.workgetReply gang) s (fun t => read t 0 4 = 1 ∧
        read t 4 8 = l.nextTid % 2 ^ 64 ∧ (∃ l', t.launch? launch = some l' ∧ l'.nextTid = l.nextTid + 1) ∧
        (∃ tm', t.team? team = some tm' ∧ tm'.withdrawn = tm.withdrawn ++ [l.nextTid]) ∧
        ∃ g', t.gang? gang = some g' ∧ g'.workget = none)) ∧
      (l.total ≤ l.nextTid ∨ l.cancelled = true → Gives (.workgetReply gang) s (fun t => read t 0 4 = 2 ∧
        t.launch? launch = some l ∧ ∃ g', t.gang? gang = some g' ∧ g'.workget = none)))

/-- R297, R298, R304-R306, R424, Table 2.2: a team whose turn it is starts with every gang in its initial state; a
pre-emption request takes its victims, which latch event 17; at a notice's end its victims are stopped and saved, or go on
if the save area has no room. R426, Table 17.8: a saved team is placed again before a new one: where its image is
another's, CONTEXT_FATAL is raised and the team stays; else scratchpads, slots and rows are written back from the image,
every gang has the registers, masks and counters that its image has, its groups at their saved PCs, in handler mode if INH
was set, and the area is free again; its age is that of its first placement (log 75). The gang slots chosen, the layout of
the rest of an image, that an image is in the vault as soon as the save is made, and that a victim is no candidate again,
are the model's choice (log 34, log 36, log 20, log 68). -/
def Obligations.TeamsArePlacedAndSaved : Prop :=
  ∀ (s : State) (part : Nat),
    let p := s.part part
    (∀ id l cores, s.distributorOn = true → p.halted = false → (s.endNotices part).nextPlace part = some (id, l, cores) →
      (s.endNotices part).lowestVictim id = none →
      Gives (.teamPlace part) s (fun t => (∃ l', t.launch? id = some l' ∧ l'.nextTid = l.nextTid + 1) ∧
        (∃ tm, t.team? s.next = some tm ∧ tm.launch = id ∧ tm.tid = l.nextTid ∧ tm.status = .running ∧ tm.priv = l.priv ∧
          tm.cores.map TeamCore.core = cores ∧ tm.alloc = padSize l.scratch) ∧
        ∀ n < l.gangs, ∃ g, t.gang? (s.next + 1 + n) = some g ∧ g.team = s.next ∧ g.index = n ∧ g.alloc = l.vregs ∧
          g.groups = [{ slices := 0xFF#8, pc := l.entry, park := none, since := 0 }] ∧ g.exited = 0 ∧
          g.emask = 0xFFFFFFFF#32 ∧ g.acr = 0 ∧ g.inh = false ∧
          (∀ i < l.args.length, g.elem (.s i) = l.args.getD i 0) ∧ (∀ i, l.args.length ≤ i → g.elem (.s i) = 0) ∧
          ∀ r k, g.elem (.v r k) = 0)) ∧
    (∀ id l cores team tm base, s.distributorOn = true → p.halted = false →
      let s0 := s.endNotices part
      s0.nextPlace part = some (id, l, cores) → s0.lowestVictim id = some (team, tm) → tm.image = some base →
      s0.imageReady team = true →
      (s0.imageOk team tm l.lid.toNat base = false ∨ s0.badIn base (tm.imageSize s0 team) ≠ [] →
        Gives (.teamPlace part) s (fun t => (t.part part).halted = true ∧ (t.part part).fatal = true ∧
          t.team? team = some tm)) ∧
      (s0.imageOk team tm l.lid.toNat base = true → s0.badIn base (tm.imageSize s0 team) = [] → cores.Nodup →
        cores.length = tm.cores.length → Tbl.wf none s.gangs = true → Gives (.teamPlace part) s (fun t => t.vault = s.vault ∧
          (∃ tm', t.team? team = some tm' ∧ tm'.status = .running ∧ tm'.image = none ∧ tm'.victim = false ∧ tm'.saved = [] ∧
            tm'.order = tm.order ∧ tm'.cores.map TeamCore.core = cores) ∧
          (∀ u ∈ (t.part part).ctxUsed, u.1 * 65536 ≠ base) ∧
          (∀ r < cores.length, ∀ x < tm.alloc, t.padRead team (cores.getD r 0) x 1 =
            (Memory.readByte s.vault (tm.padAt base r + x)).toNat) ∧
          (∀ r k, r < cores.length → tm.saved[r]? = some k → let c := t.core (cores.getD r 0)
            let at_ := fun i => tm.heldAt base r + 16384 * i
            (∀ i n, (members k.slots)[i]? = some n → c.slotHolder n = some team ∧
              ∀ x < 16384, Memory.readByte c.slots (16384 * n + x) = Memory.readByte s.vault (at_ i + x)) ∧
            (∀ i n, (members k.blocks)[i]? = some n → c.blockHolder n = some team ∧
              ∀ q < 32, c.rowBytes (32 * n + q) =
                Memory.readBytes s.vault (at_ ((members k.slots).length + i) + 512 * q) 512)) ∧
          ∀ j g a, (j, g, a) ∈ imageOffsets (s0.gangsInOrder team) (tm.gangsAt base) →
            let w := fun o => Memory.readNat s.vault (a + o) 4
            ∃ g', t.gang? j = some g' ∧ g'.core = cores.getD g.rank 0 ∧
              (g'.inh = true ↔ (Memory.readByte s.vault (a + 3)).getLsbD 0 = true) ∧
              g'.exited = ~~~(BitVec.ofNat 32 (w 0x64)) ∧ g'.emask = BitVec.ofNat 32 (w 0x60) &&& ~~~g'.exited ∧
              (∀ i < 8, g'.counter i = w (0x80 + 4 * i) % 4096) ∧
              (∀ i < 56, g'.elem (.s i) = BitVec.ofNat 32 (w (0x200 + 4 * i))) ∧
              (∀ i < 63, ∀ k < 32, g'.elem (.p i k) = if bit (w (0x300 + 4 * i)) k = true then 1 else 0) ∧
              (∀ r < g.alloc, ∀ k < 32, g'.elem (.v r k) = BitVec.ofNat 32 (w (0x600 + 128 * r + 4 * k))) ∧
              ∀ b, Block.ofBytes (Memory.readBytes s.vault (a + 0x100) 128) g.index tm.tid g'.live = some b → g'.inh = false →
                g'.groups.map (fun x => (x.slices, x.pc)) = b.groups.map (fun x => (x.slices, x.pc))))) ∧
    (∀ n q named, s.house.phase = 5 → 1 ≤ n → n ≤ 160 → 1 ≤ q → q ≤ 3 → named.isSome = p.modes.getLsbD 4 →
      let vs := takeVictims n (s.candidates part q named)
      Gives (.preemptRequest part n q named) s (fun t =>
        (t.part part).notices = p.notices ++ [{ victims := vs, prio := q, expired := false, vacated := [] }] ∧
        (∀ v ∈ vs, ∃ tm, t.team? v = some tm ∧ tm.victim = true) ∧
        ∀ j g, t.gang? j = some g → g.team ∈ vs → g.ended = false → g.evpend.getLsbD 17 = true)) ∧
    (∀ launch l, s.launch? launch = some l → l.part = part → l.blocking = true → s.wantsPlace launch l = true →
      1 ≤ l.prio → p.modes.getLsbD 4 = false →
      Gives (.hwPreemptTrigger part launch) s (fun t => ∃ n, (t.part part).notices = p.notices ++ [n] ∧ n.prio = l.prio ∧
        n.expired = false ∧ ∀ v ∈ n.victims, ∃ tm, t.team? v = some tm ∧ tm.victim = true)) ∧
    (∀ n rest, p.notices = n :: rest → n.expired = false →
      Gives (.preemptNoticeExpiry part) s (fun t => (t.part part).notices = { n with expired := true } :: rest ∧
        ∀ v ∈ n.victims, ∀ tm, s.team? v = some tm → tm.status = .running → ∃ tm', t.team? v = some tm' ∧
          tm'.saving = true)) ∧
    (∀ team tm, s.team? team = some tm → tm.part = part → s.saveReady team tm = true →
      (let lid := match s.launch? tm.launch with
         | some l => l.lid.toNat
         | none => 0
       let held := tm.cores.map (fun c => ((s.core c.core).takeTeam team).1)
       let bs := s.teamImage team { tm with saved := held } lid p.hseq.toNat
       let n := (bs.length + 65535) / 65536
       (p.roomFor n = none → Gives (.contextSave team) s (fun t => t.team? team = some { tm with saving := false, victim := false } ∧
         (t.part part).noroom = true ∧ t.vault = s.vault)) ∧
       (∀ u, p.roomFor n = some u → s.releaseToIod.runsReady 4 [(u * 65536, bs.length)] false = true → Gives (.contextSave team) s (fun t =>
         Memory.readBytes t.vault (u * 65536) bs.length = bs ∧
         (∃ tm', t.team? team = some tm' ∧ tm'.status = .saved ∧ tm'.image = some (u * 65536) ∧ tm'.victim = true) ∧
         (u, n) ∈ (t.part part).ctxUsed))))

/-- R364-R369, R408, Table 14.7: the life of a circuit, by what its end is told, and the rotation of slots. A SETUP from a
peer that the entry does not name, or without a common version, gets a NAK; any other an ACK, and the circuit is ACTIVE. A
slot marker that is obeyed starts its slot in guard; one at or above NSLOT is not obeyed. Only a partition that owns a
pair writes CIRCTL. The host's writes act once the package is READY. That an ACK or a NAK answers the SETUP that it names,
and that the ACK of a SETUP given up is answered with TEARDOWN to the peer to which that SETUP went, is the model's
reading (log 69); so is when CAUSE clears and when SYNC sets (log 46), and that all this goes on with both control-mesh
ports down (log 73). -/
def Obligations.CircuitsFollowTheirStates : Prop :=
  ∀ (s : State) (c : Circuit) (peer lo hi : Nat) (caps : BitVec 7),
    let x := s.circ c
    let gives := fun (i : Instr) (y : Circ) (out : List Out) => Gives i s (fun t => t.circ c = y ∧ t.out = s.out ++ out)
    let same := fun (i : Instr) => Gives i s (fun t => t = s)
    let free := x.state = .idle ∨ x.state = .failed
    let given := x.stale ++ [(x.num, x.peer)]
    let next : SetupRef := ⟨c, x.num + 1⟩
    let setup := fun (i : Instr) => (s.house.phase ≠ 5 → same i) ∧ (s.house.phase = 5 →
      (∀ p, free → s.circTarget c = some p → gives i
        { x with state := .pending, naks := 0, cause := 0, backoff := false, num := x.num + 1 } [.circSetup next p]) ∧
      (s.circTarget c = none → same i) ∧ (¬ free → same i))
    let tdown := fun (i : Instr) => (s.house.phase ≠ 5 → same i) ∧ (s.house.phase = 5 →
      (x.state = .pending → x.backoff = false → gives i { x with state := .idle, stale := given } []) ∧
      (x.state = .pending → x.backoff = true → gives i { x with state := .idle, backoff := false } []) ∧
      (x.state = .active → gives i { x with state := .idle } [.circTeardown c x.peer]) ∧ (free → same i))
    (∀ n, let r : SetupRef := ⟨c, n⟩
      let forgotten := { x with stale := x.stale.filter (fun e => e.1 != n) }
      (s.circTarget c ≠ some peer → gives (.setup r peer caps (lo, hi)) x [.circNak r peer .mismatch]) ∧
      (s.circTarget c = some peer → ¬ (lo ≤ min hi 2 ∧ 1 ≤ min hi 2) →
        gives (.setup r peer caps (lo, hi)) x [.circNak r peer .version]) ∧
      (s.circTarget c = some peer → lo ≤ min hi 2 → 1 ≤ min hi 2 → Gives (.setup r peer caps (lo, hi)) s (fun t =>
        (t.circ c).state = .active ∧ (t.circ c).peer = x.peer ∧ t.out = s.out ++ [.circAck r peer] ∧
          Tbl.get 0 t.caps peer = caps)) ∧
      (x.state = .pending → n = x.num →
        (∀ v, gives (.ack r caps v) { x with state := .active, backoff := false } []) ∧
        (s.rot.hostm = true ∨ x.naks = 15 →
          gives (.nak r .blocked) { x with state := .failed, naks := x.naks + 1, cause := 1 } []) ∧
        (s.rot.hostm = false → x.naks ≠ 15 → gives (.nak r .blocked) { x with naks := x.naks + 1, backoff := true } []) ∧
        gives (.nak r .mismatch) { x with state := .failed, cause := 2 } [] ∧
        gives (.nak r .version) { x with state := .failed, cause := 3 } []) ∧
      (x.state ≠ .pending ∨ n ≠ x.num →
        (∀ v, (∀ e ∈ x.stale, e.1 ≠ n) → same (.ack r caps v)) ∧
        (∀ v e, x.stale.find? (fun e => e.1 == n) = some e → gives (.ack r caps v) forgotten [.circTeardown c e.2]) ∧
        (∀ why, gives (.nak r why) forgotten []))) ∧
    (x.state = .pending →
      (x.backoff = false → gives (.setupTimeout c) { x with state := .failed, cause := 4, stale := given } []) ∧
      (x.backoff = true → gives (.setupRetry c) { x with backoff := false, num := x.num + 1 } [.circSetup next x.peer])) ∧
    (x.state = .active → gives (.teardown c) { x with state := .idle } []) ∧ (x.state ≠ .active → same (.teardown c)) ∧
    (∀ j p, c = .slot j p → setup (.slotSetup j p) ∧ tdown (.slotTdown j p)) ∧
    (∀ p, c = .port p → setup (.portSetup p) ∧ tdown (.portTdown p)) ∧
    (∀ j, let r := if j = 0 then s.rot.apply else s.rot
      (r.nslot1 < j → Gives (.slotMarker j) s (fun t => t.rot.resync = true ∧ t.rot.sync = true ∧ t.rot.windowOpen = false ∧
        t.rot.slot = r.slot ∧
        ∀ p < 8, (t.port p).now = none)) ∧
      (j ≤ r.nslot1 → Gives (.slotMarker j) s (fun t => t.rot.slot = j ∧ t.rot.guard = true ∧ t.rot.sync = true ∧
        t.rot.windowOpen = false ∧ t.rot.rot = (if j = 0 then r.rot + 1 else r.rot) ∧ t.rot.nslot1 = r.nslot1 ∧
        ∀ p < 8, (t.port p).now = if (s.entry j p).state = .active then some (s.entry j p).peer else none))) ∧
    (s.rot.guard = true → Gives .guardEnd s (fun t =>
      t = { s with rot := { s.rot with guard := false, windowOpen := true } })) ∧
    (s.rot.sync = true →
      Gives (.slotWindowClose true) s (fun t => t = { s with rot := { s.rot with windowOpen := false } }) ∧
      Gives (.slotWindowClose false) s (fun t => t.rot.sync = false ∧ t.rot.miss = true ∧ t.rot.windowOpen = false ∧
        ∀ p < 8, (t.port p).now = none)) ∧
    (∀ part v, s.house.phase = 5 → s.ownsSome part = true →
      Gives (.circtlWrite .vf part v) s (fun t => t = { s with rot := t.rot } ∧ t.rot.en = v.getLsbD 0 ∧
        t.rot.hostm = v.getLsbD 24 ∧ t.rot.nslot1 = s.rot.nslot1 ∧ t.rot.slotlen = s.rot.slotlen ∧
        let n := v.toNat / 2 % 64
        let l := max 100 (v.toNat / 256 % 65536)
        (n = s.rot.nslot1 → l = s.rot.slotlen → t.rot.held = none) ∧
        (n ≠ s.rot.nslot1 ∨ l ≠ s.rot.slotlen → t.rot.held = some (n, l)))) ∧
    (∀ src part v, s.house.phase ≠ 5 ∨ src = .pf ∨ s.ownsSome part = false → same (.circtlWrite src part v))

/-- R17, R361-R364, R366, R370, R373, R374, R408, R433, R434, R436, R438, R442, R446: what a link does at a flit boundary
and with what arrives. A link whose port leads to no peer now sends nothing. NAKs go first, then replay of that peer's
flits, then new traffic, a remote operation or a reply before a collective message, with its number in its stream, and
then the bytes of a send queue, of the partitions in turn; a full replay buffer sends nothing new. New traffic is dealt
over the links that can take it in turn: the next flit goes to the first from the one after the link that took the last,
and a link whose turn it is not sends none. What any link has kept for that peer goes before new traffic. A word of a
send's source that cannot be corrected fails the send: its flit carries no bytes, and no notify is made (R430). A flit
taken in order advances the expected FSEQ and delivers its message, if that is still due; any other is discarded,
acknowledges nothing, and the first gets a NAK. A retraining negotiates the version, and brings up the channels that work
and have light; without a common version, or with no channel that works, it begins again, and after the third failure
leaves the link DOWN. A timeout, a clock loss or the eighth NAK in a row retrains the link, or leaves it DOWN in the
host-assisted mode. That sequence numbers begin at 0 when a link rises, what follows a remap flit, and the numbers of
streams are the model's choice (log 39, log 40, log 61); so is that one data flit carries a whole message (log 21), that a
link without a peer sends no flit at all, and that a flit is sent again only to the peer it was meant for (log 46), and
that a turn falls to the next link in number that can take the flit (log 75). In PS1 and PS2 no retraining ends (log 71).
-/
def Obligations.LinksCarryFlitsInOrder : Prop :=
  ∀ (s : State) (k : Nat),
    let x := s.link k
    let mine := fun (t : State) => t.link k
    let retrains := fun (i : Instr) =>
      (s.assistedPair (pairOfLink k) 2 = false → Gives i s (fun t => (mine t).state = .retraining ∧ (mine t).sent = [] ∧
        (mine t).owed = x.owed ++ x.sent.filter (fun f => f.msg.isSome) ∧ (mine t).retrains = min 65535 (x.retrains + 1))) ∧
      (s.assistedPair (pairOfLink k) 2 = true → Gives i s (fun t => (mine t).state = .down))
    (s.linkPeer k = none → Gives (.flitSend k) s (fun t => t = s)) ∧
    (∀ peer, k < 128 → x.carries = true → s.linkPeer k = some peer →
      let other := ∀ f ∈ x.again, f.peer ≠ peer
      (x.nakOwed = true → Gives (.flitSend k) s (fun t => (mine t).nakOwed = false ∧
        ∃ f : Flit, t.out = s.out ++ [.flit k f] ∧ f.type = .nak ∧ f.fseq = x.expect)) ∧
      (∀ f, x.nakOwed = false → x.again.find? (fun y => y.peer == peer) = some f → Gives (.flitSend k) s (fun t =>
        (mine t).again = x.again.erase f ∧ t.out = s.out ++ [.flit k { f with aseq := x.expect - 1 }])) ∧
      (x.nakOwed = false → other → x.full = true → Gives (.flitSend k) s (fun t => t = { s with out := t.out } ∧
        ∃ f : Flit, t.out = s.out ++ [.flit k f] ∧ f.type = .idle)) ∧
      (x.nakOwed = false → other → x.full = false → x.remap = none → x.nextWidth = none → s.swapDue k = none →
        x.ctlOwed = false → s.dealtTo peer ≠ some k → Gives (.flitSend k) s (fun t => t = { s with out := t.out } ∧
          ∃ f : Flit, t.out = s.out ++ [.flit k f] ∧ f.type = .idle)) ∧
      (s.dealtTo peer = some k →
        let turned := fun t : State => Tbl.get 0 t.dealt peer = k + 1 ∧ ∀ p, p ≠ peer → Tbl.get 0 t.dealt p = Tbl.get 0 s.dealt p
        let sends := fun (t : State) (m : NetMsg) => ∃ f : Flit, f.type = .data ∧ f.msg = some (s.numbered peer m).2 ∧
          f.fseq = x.fseq ∧ f.aseq = x.expect - 1 ∧ t.out = s.out ++ [.flit k f] ∧ (mine t).sent = x.sent ++ [f] ∧
          (mine t).fseq = x.fseq + 1 ∧ turned t
        (∀ m, s.strandedLink peer = none → s.nextMsg peer = some m →
          Gives (.flitSend k) s (fun t => sends t m ∧ t.netq = s.netq.erase (peer, m))) ∧
        (∀ j f, s.strandedLink peer = some j → (s.link j).owed.find? (fun y => y.peer == peer) = some f →
          Gives (.flitSend k) s (fun t => (t.link j).owed = (s.link j).owed.erase f ∧ (mine t).fseq = x.fseq + 1 ∧
            t.netq = s.netq ∧ t.out = s.out ++ [.flit k { f with fseq := x.fseq, aseq := x.expect - 1 }] ∧ turned t)) ∧
        (∀ n d rest, s.strandedLink peer = none → s.nextMsg peer = none →
          (qturnOrder x.qturn).find? (fun n => s.dataReady n peer) = some n → (s.part n).sendQueue peer = d :: rest →
          let size := min 240 (d.len - d.sent)
          let last := decide (d.len ≤ d.sent + size)
          let data := fun (bs : List Byte) (note : Bool) => NetMsg.qdata
            { ident := d.req, srcPkg := s.pkg, srcPart := n, seq := 0, part := d.part, dst := d.dst + d.sent, data := bs,
              last := last, total := d.len, note := note, nva := d.nva }
          let goesOn := fun t : State => (t.part n).sendQueue peer =
            (if last = true then rest else { d with sent := d.sent + size } :: rest) ∧ (mine t).qturn = n
          (s.firstBad d.places 0 = none → Gives (.flitSend k) s (fun t =>
            sends t (data (s.readRuns d.places) (d.note && !s.sourceFailed d)) ∧ goesOn t ∧ t.reqs = s.reqs)) ∧
          (∀ off r, s.firstBad d.places 0 = some off → s.req? d.req = some r → Gives (.flitSend k) s (fun t =>
            sends t (data [] false) ∧ goesOn t ∧ t.req? d.req = some { r with
              fails := r.fails ++ [(localKey 0, ⟨Cause.permission, d.va + d.sent + off, true, 0⟩)] }))))) ∧
    (∀ peer j, s.dealtTo peer = some j → j < 128 ∧ s.takesNew peer j = true ∧
      let turn := fun i => (i + 128 - Tbl.get 0 s.dealt peer % 128) % 128
      ∀ i < 128, s.takesNew peer i = true → turn j ≤ turn i) ∧
    (∀ peer op, (s.numbered peer (.remote op)).2 = .remote { op with
      seq := Tbl.get 0 s.sentSeq (2 * (1024 * op.stream + peer % 1024)) }) ∧
    (∀ f : Flit, x.carries = true → x.remap = none →
      let discards := fun (i : Instr) (nak : Bool) => Gives i s (fun t => (mine t).expect = x.expect ∧ (mine t).discarding = true ∧
        (mine t).nakOwed = (x.nakOwed || nak) ∧ (mine t).sent = x.sent ∧ t.inbound = s.inbound)
      (f.ok = false ∨ f.type = .other → discards (.dataFlitReceive k f) true) ∧
      (∀ m, f.ok = true → f.type = .data → f.msg = some m →
        (f.fseq = x.expect → Gives (.dataFlitReceive k f) s (fun t => (mine t).expect = x.expect + 1 ∧
          (mine t).discarding = false ∧ (mine t).sent = dropAcked f.aseq x.sent ∧
          (s.isDue m = true → m ∈ t.inbound))) ∧
        (f.fseq ≠ x.expect → discards (.dataFlitReceive k f) (!x.discarding))) ∧
      (∀ w, f.ok = true → f.type = .width w → f.fseq = x.expect → Gives (.widthChangeFlit k f) s (fun t =>
        (mine t).expect = x.expect + 1 ∧ (f.switchAt = x.expect + 1 → (mine t).rxw = w) ∧
          (f.switchAt ≠ x.expect + 1 → (mine t).rxNext = some (w, f.switchAt)))) ∧
      (∀ site ch, f.ok = true → f.type = .remap site ch → f.fseq = x.expect → Gives (.remapFlit k f) s (fun t =>
        (mine t).expect = x.expect + 1)) ∧
      (∀ n : BitVec 12, x.nakLast ≠ n → Gives (.nakFlitReceive k n) s (fun t =>
        (mine t).again = (dropAcked (n - 1) x.sent).dropWhile (fun g => g.fseq != n) ∧ (mine t).nakRun = 1))) ∧
    (∀ n : BitVec 12, x.carries = true → x.remap = none → x.nakLast = n → 7 ≤ x.nakRun → dropAcked (n - 1) x.sent = x.sent →
      (s.assistedPair (pairOfLink k) 2 = false → Gives (.nakFlitReceive k n) s (fun t => (mine t).state = .retraining)) ∧
      (s.assistedPair (pairOfLink k) 2 = true → Gives (.nakFlitReceive k n) s (fun t => (mine t).state = .down))) ∧
    (x.carries = true → x.sent ≠ [] → retrains (.ackTimeout k)) ∧
    (∀ c, s.linkOf c = k → x.carries = true → c ∈ (s.activeChans k).take x.curw → retrains (.clockRecoveryLoss c)) ∧
    (x.state = .retraining → s.opticsHeld = true → ∀ e, Gives (.retrainComplete k e) s (fun t => t = s)) ∧
    (x.state = .retraining → s.opticsHeld = false → ∀ e : Retrained,
      let common := e.lo ≤ min e.hi 2 ∧ 1 ≤ min e.hi 2
      (common → ((s.retrainUp k e).link k).state ≠ .retraining → Gives (.retrainComplete k e) s (fun t =>
        (mine t).state = .up ∧ (mine t).failures = 0 ∧ (mine t).version = min e.hi 2 ∧
        ∀ c ∈ linkChans k, (s.chan c).state ≠ .parked →
          (c ∈ e.works → s.lit c = true → (t.chan c).state = .active) ∧ (c ∉ e.works → (t.chan c).state = .down))) ∧
      (e.works = [] ∨ ¬ common →
        (x.failures < 2 → Gives (.retrainComplete k e) s (fun t => (mine t).state = .retraining ∧
          (mine t).failures = x.failures + 1)) ∧
        (2 ≤ x.failures → Gives (.retrainComplete k e) s (fun t => (mine t).state = .down))))

/-- R408, R437-R441, R443, R445, R447-R450, R452, R471, R472: what happens to optical channels and laser lines. A channel
that turns weak, and one that wakes without a lock, takes the lowest spare site that is free or that a planned step has
only claimed; the steps that have claimed it, or move the channel itself, end with status 3. A ring that locks switches
it, or brings a waking one up, unless a retraining has taken the place of the wake; a lost line takes its channels down,
and the neighbour's line feeds them where it can. A woken, trained or parked channel changes state, a trained one if its
line has light and its ends have a version in common; a channel that is being spared is not spared again; counters and
samples are recorded: an hour in which an array gives a line counts 18, any other 10. That the hours since the last save
are charged so is the model's choice (log 65), and so is what becomes of a sparing that a planned step or another switch
stands in the way of (log 70), and what training and waking do in PS1 and PS2 (log 71). -/
def Obligations.OpticalChannelsRecover : Prop :=
  ∀ (s : State) (c : Nat),
    let x := s.chan c
    let f := pairOfChan c
    let p := s.pair f
    let mine := fun (t : State) => t.chan c
    let link := s.linkOf c
    let up := if s.house.cur = 1 ∧ s.house.ramping = false then ChanState.parked else ChanState.active
    (∀ cer margin, let bad := s.weakCer.toNat < cer.toNat ∨ margin.toNat < s.weakMrg.toNat
      (x.state ≠ .active → Gives (.monitorSample [(c, cer, margin)]) s (fun t => t = s)) ∧
      (x.state = .active → Gives (.monitorSample [(c, cer, margin)]) s (fun t => (mine t).cer = cer ∧ (mine t).margin = margin ∧
        ((mine t).weak = true ↔ x.weak = true ∨ bad) ∧ (mine t).state = .active ∧
        (¬ bad ∨ (x.weak = true ∧ x.owes = false) ∨ s.assistedPair f 1 = true → (mine t).tuning = x.tuning) ∧
        (∀ m, x.tuning = some (m, false) → (mine t).tuning = x.tuning ∧ (mine t).swap = x.swap ∧ (t.pair f).spuse = p.spuse) ∧
        (bad → x.weak = false ∨ x.owes = true → s.assistedPair f 1 = false → x.tuning = none → x.swap = none →
          (p.spuse.getLsbD 0 = false → (mine t).tuning = some (0, false) ∧ (t.pair f).spuse.getLsbD 0 = true) ∧
          (p.spuse.getLsbD 0 = true → p.spuse.getLsbD 1 = false → s.plannedHolder f 0 = none →
            (mine t).tuning = some (1, false) ∧ (t.pair f).spuse.getLsbD 1 = true) ∧
          (∀ d, s.plannedHolder f 0 = some d → (mine t).tuning = some (0, false) ∧ (t.chan d).tuning = none ∧
            ∀ n < 16, ∀ r, (s.part n).planRun = some r → movesChan d r = true → (t.part n).planStatus = 3)) ∧
        (∀ m, bad → x.weak = false ∨ x.owes = true → s.assistedPair f 1 = false → x.tuning = some (m, true) → m < 2 →
          x.swap = none → (∃ m', (mine t).tuning = some (m', false)) ∧
            ∀ n < 16, ∀ r, (s.part n).planRun = some r → movesChan c r = true → (t.part n).planStatus = 3)))) ∧
    (∀ site planned, x.swap = none → x.tuning = some (site, planned) →
      (x.state = .waking → (s.link link).state = .retraining ∨ s.asleep = true →
        Gives (.spareRingLock c true) s (fun t => t = s)) ∧
      (x.state = .waking → (s.link link).state ≠ .retraining → s.asleep = false →
        Gives (.spareRingLock c true) s (fun t => (mine t).state = up ∧ (mine t).spare = (if site < 2 then site + 1 else 0)) ∧
        Gives (.spareRingLock c false) s (fun t => (mine t).state = .down ∧ (mine t).wfail = true)) ∧
      (x.state ≠ .waking →
        (link < 128 → (s.link link).carries = true →
          Gives (.spareRingLock c true) s (fun t => t = s.putChan c { x with swap := some site })) ∧
        (128 ≤ link ∨ (s.link link).carries = false → Gives (.spareRingLock c true) s (fun t =>
          (mine t).spare = (if site < 2 then site + 1 else 0) ∧ (mine t).tuning = none ∧ (mine t).state = x.state)) ∧
        Gives (.spareRingLock c false) s (fun t => (mine t).tuning = none ∧ (mine t).spare = x.spare ∧
          (mine t).state = x.state))) ∧
    (∀ e lam, lam < 16 → (s.line e lam).lost = false → (s.line e lam).donor = false →
      let d := s.line (neighbour e) lam
      let shares := d.lost = false ∧ d.donor = false ∧ (s.line e lam).fed = false ∧ s.failsOver e = true
      Gives (.laserLineLoss e lam) s (fun t => (t.line e lam).lost = true ∧
        (¬ shares → (∀ k ∈ lineChans e lam, (t.chan k).state = .down) ∧ (t.line e lam).fed = (s.line e lam).fed) ∧
        (shares → (t.line e lam).fed = true ∧ (t.line (neighbour e) lam).donor = true ∧
          ∀ k ∈ lineChans e lam, (t.chan k).state = if (s.chan k).tried = true then .waking else .down))) ∧
    (x.state = .waking → x.tuning = none → (s.link link).state = .retraining ∨ s.asleep = true →
      ∀ ok, Gives (.channelWakeComplete c ok) s (fun t => t = s)) ∧
    (x.state = .waking → x.tuning = none → (s.link link).state ≠ .retraining → s.asleep = false →
      Gives (.channelWakeComplete c true) s (fun t => (mine t).state = up) ∧
      (s.assistedPair f 1 = false → p.spuse.getLsbD 0 = false → Gives (.channelWakeComplete c false) s (fun t =>
        (mine t).state = .waking ∧ (mine t).tuning = some (0, false))) ∧
      (∀ d, s.assistedPair f 1 = false → p.spuse.getLsbD 0 = true → p.spuse.getLsbD 1 = true →
        s.plannedHolder f 0 = some d → Gives (.channelWakeComplete c false) s (fun t =>
          (mine t).state = .waking ∧ (mine t).tuning = some (0, false) ∧ (t.chan d).tuning = none ∧
          ∀ n < 16, ∀ r, (s.part n).planRun = some r → movesChan d r = true → (t.part n).planStatus = 3)) ∧
      (s.assistedPair f 1 = true ∨ (p.spuse.getLsbD 0 = true ∧ p.spuse.getLsbD 1 = true ∧ s.plannedHolder f 0 = none ∧
          s.plannedHolder f 1 = none) →
        Gives (.channelWakeComplete c false) s (fun t => (mine t).state = .down ∧ (mine t).wfail = true))) ∧
    (x.parking = true → Gives (.channelParkComplete c) s (fun t => (mine t).parking = false ∧
      ((mine t).state = .parked ∨ (mine t).state = .waking) ∧ (x.rewake = true → (mine t).state = .waking))) ∧
    (x.state = .down → x.tried = false → p.fab = false → s.house.phase = 4 ∨ s.house.phase = 5 →
      s.house.cur = 0 ∨ (s.house.cur = 2 ∧ s.house.ramping = true) → Gives (.opticalLightPoll [c]) s (fun t =>
        t = State.putChan { s with house := { s.house with polled := true } } c { x with trying := true, tried := true })) ∧
    (x.trying = true → s.opticsHeld = true →
      (∀ lo hi, Gives (.channelTrainingComplete ⟨c, lo, hi⟩) s (fun t => t = s)) ∧
        Gives (.channelTrainTimeout c) s (fun t => t = s)) ∧
    (x.trying = true → s.opticsHeld = false →
      (∀ lo hi, s.lit c = false → Gives (.channelTrainingComplete ⟨c, lo, hi⟩) s (fun t => t = s)) ∧
      (∀ lo hi, (s.lit c = true → lo ≤ min hi 2 → 1 ≤ min hi 2 → Gives (.channelTrainingComplete ⟨c, lo, hi⟩) s (fun t =>
          (mine t).state = .active ∧ (mine t).trying = false ∧ (t.link link).version = min hi 2)) ∧
        (¬ (lo ≤ min hi 2 ∧ 1 ≤ min hi 2) → Gives (.channelTrainingComplete ⟨c, lo, hi⟩) s (fun t => t = s))) ∧
      Gives (.channelTrainTimeout c) s (fun t => (mine t).state = x.state ∧ (mine t).trying = false ∧ (mine t).wfail = true ∧
        (t.pair f).evt = true)) ∧
    (∀ e lam bias power, Gives (.laserSample e lam bias power) s (fun t =>
      t = s.putLine e lam { s.line e lam with bias := bias, power := power })) ∧
    (∀ e hours given, Gives (.ageingCounterSave e ⟨hours, given⟩) s (fun t => t = { s with arrays := t.arrays } ∧
      let a := Tbl.get Array_.reset s.arrays e
      let b := Tbl.get Array_.reset t.arrays e
      b.lifeh = a.lifeh + BitVec.ofNat 32 hours ∧ (b.gave = true ↔ ∃ lam < 16, (s.line e lam).donor = true) ∧
      b.rested = !b.gave ∧
      (a.gave = false → b.penh = a.penh + BitVec.ofNat 32 (10 * hours)) ∧
      (a.gave = true → a.rested = false → b.penh = a.penh + BitVec.ofNat 32 (18 * hours)) ∧
      (a.gave = true → a.rested = true → given ≤ hours →
        b.penh = a.penh + BitVec.ofNat 32 (10 * (hours - given) + 18 * given))))

/-- R15, R389, R441-R447, R469: what writes to the optical registers do, once the package is READY. Only the physical
function and the owner of a pair write its registers. A planned step is refused with status 4 while another runs or where
the partition owns no pair of its target; else it starts, and ends at once where there is nothing to do. Status 4 for a GO
while a step runs, the measurement that ends an UNSHARE, and that a write of FABREQ which names the fabric that the pair
is in is not refused, are the model's choice (log 42, log 47, log 75). -/
def Obligations.OpticalWritesAndPlansAct : Prop :=
  ∀ (s : State) (part : Nat),
    let p := s.part part
    let same := fun (i : Instr) => Gives i s (fun t => t = s)
    let status := fun (i : Instr) (n : Nat) => Gives i s (fun t => (t.part part).planStatus = n)
    let owns := fun (cmd tgt : Nat) => (planPairs cmd tgt).any (s.ownsPair part) = true
    (s.house.phase ≠ 5 → ∀ src k w park peer ring tgt ok, same (.linkTgtwWrite src part k w) ∧ same (.linkRetrain src part k) ∧
      same (.chanParkWrite src part k park) ∧ same (.pairFabreqWrite src part k peer) ∧ same (.planSpare part tgt ring) ∧
      same (.planRelease part tgt) ∧ same (.planRetrain part tgt) ∧ same (.planShare part tgt) ∧
      same (.planUnshare part tgt ok)) ∧
    (s.house.phase = 5 →
    (∀ src k w, s.mayWrite src part (pairOfLink k) = true →
      (w = 1#4 ∨ w = 2#4 ∨ w = 4#4 ∨ w = 8#4 → (s.pair (pairOfLink k)).fab = true →
        Gives (.linkTgtwWrite src part k w) s (fun t => (t.link k).tgtw = w.toNat)) ∧
      (¬ (w = 1#4 ∨ w = 2#4 ∨ w = 4#4 ∨ w = 8#4) ∨ (s.pair (pairOfLink k)).fab = false → same (.linkTgtwWrite src part k w)) ∧
      ((s.pair (pairOfLink k)).fab = true → (s.link k).state ≠ .retraining → Gives (.linkRetrain src part k) s (fun t =>
        (t.link k).state = .retraining ∧ (t.link k).failures = 0))) ∧
    (∀ src k w, s.mayWrite src part (pairOfLink k) = false → same (.linkTgtwWrite src part k w) ∧ same (.linkRetrain src part k)) ∧
    (∀ src c park, s.mayWrite src part (pairOfChan c) = true →
      ((s.pair (pairOfChan c)).fab = true → same (.chanParkWrite src part c park)) ∧
      ((s.pair (pairOfChan c)).fab = false → Gives (.chanParkWrite src part c park) s (fun t => (t.chan c).park = park))) ∧
    (∀ src f peer, s.mayWrite src part f = true →
      ((s.pair f).fab = peer → Gives (.pairFabreqWrite src part f peer) s (fun t =>
        t = s.putPair f { s.pair f with fabreq := peer })) ∧
      ((s.pair f).fab ≠ peer → s.pairQuiet f = true → Gives (.pairFabreqWrite src part f peer) s (fun t =>
        (t.pair f).fab = peer ∧ (t.pair f).fabreq = peer)) ∧
      ((s.pair f).fab ≠ peer → s.pairQuiet f = false → Gives (.pairFabreqWrite src part f peer) s (fun t =>
        (t.pair f).fab = (s.pair f).fab ∧ (t.pair f).ref = true))) ∧
    (∀ tgt < 1024, ∀ ring,
      (p.planRun.isSome = true →
        status (.planSpare part tgt ring) 4 ∧ status (.planRelease part tgt) 4 ∧ status (.planRetrain part tgt) 4 ∧
        status (.planShare part tgt) 4 ∧ (p.planRun ≠ some (5, tgt) → status (.planUnshare part tgt true) 4)) ∧
      (p.planRun = none →
        (¬ owns 1 tgt → status (.planSpare part tgt ring) 4) ∧ (¬ owns 2 tgt → status (.planRelease part tgt) 4) ∧
        (¬ owns 3 tgt → status (.planRetrain part tgt) 4) ∧ (¬ owns 4 tgt → status (.planShare part tgt) 4) ∧
        (¬ owns 5 tgt → status (.planUnshare part tgt true) 4) ∧
        (let x := s.chan tgt
         let n := ring.toNat
         owns 1 tgt → x.state = .active → x.spare ≠ n + 1 → s.siteUsed (pairOfChan tgt) n = false → x.tuning = none →
          x.swap = none → Gives (.planSpare part tgt ring) s (fun t => (t.part part).planStatus = 1 ∧
            (t.chan tgt).tuning = some (n, true) ∧ (t.pair (pairOfChan tgt)).spuse.getLsbD n = true)) ∧
        (owns 2 tgt → (s.chan tgt).spare = 0 → status (.planRelease part tgt) 2) ∧
        (owns 2 tgt → (s.chan tgt).spare ≠ 0 → (s.chan tgt).tuning = none → (s.chan tgt).swap = none →
          (s.chan tgt).state ≠ .active → Gives (.planRelease part tgt) s (fun t => (t.part part).planStatus = 2 ∧
            (t.chan tgt).spare = 0)) ∧
        (owns 3 tgt → (s.pair (pairOfLink tgt)).fab = true → (s.link tgt).state ≠ .retraining →
          Gives (.planRetrain part tgt) s (fun t => (t.part part).planStatus = 1 ∧ (t.link tgt).state = .retraining)) ∧
        (owns 4 tgt → s.canShare (tgt / 16) (tgt % 16) = true → Gives (.planShare part tgt) s (fun t =>
          (t.line (tgt / 16) (tgt % 16)).fed = true ∧ (t.line (neighbour (tgt / 16)) (tgt % 16)).donor = true)) ∧
        (owns 5 tgt → (s.line (tgt / 16) (tgt % 16)).fed = true → Gives (.planUnshare part tgt true) s (fun t =>
            (t.line (tgt / 16) (tgt % 16)).fed = false ∧ (t.line (tgt / 16) (tgt % 16)).lost = false ∧
            (t.line (neighbour (tgt / 16)) (tgt % 16)).donor = false ∧
            ∀ k ∈ lineChans (tgt / 16) (tgt % 16),
              (((s.chan k).state = .active ∧ (s.chan k).parking = false) ∨
                ((s.chan k).state = .down ∧ (s.chan k).tried = true) → (t.chan k).state = .waking) ∧
              ((s.chan k).state = .active → (s.chan k).parking = true → (t.chan k).state = .active ∧
                (t.chan k).rewake = true)) ∧
          status (.planUnshare part tgt false) 4))))

/-- R386, R397-R399, R402, R404, R406, R407, R469, R470: a function's write does nothing before the package is READY, nor
in RECOVERY. Clusters, the vault range and pairs change hands only while their partition holds no launch and no other
holds them; that a VSIZE above 8,192 is written as 8,192 is the model's choice (log 64); a shootdown drops the partition's
cached translations and completes when no access still uses them; FLUSHED, the window table, FQACK, attestation and the
host's vault window have the effects their rules give. A module is trusted on a report that answers the nonce it was sent
and whose signature verifies. The layout of the head of a report, a module's report, and what a buffer that has moved away
leaves are the model's choice (log 43, log 62, log 63), and so is that a report is in the vault in the step that writes it
(log 20). -/
def Obligations.IsolationEventsHaveTheirEffect : Prop :=
  ∀ (s : State) (part : Nat),
    let p := s.part part
    let same := fun (i : Instr) => Gives i s (fun t => t = s)
    (s.house.phase ≠ 5 → ∀ addr (v : Word) n offset len bs, same (.partitionResourceWrite part addr v) ∧
      same (.shootdown part n) ∧ same (.faultQueueAck part v) ∧ same (.moduleAttest part) ∧ same (.attestReportRequest part) ∧
      same (.hostBar2Access part offset len bs)) ∧
    (s.house.phase = 5 → ∀ v, ∀ e ∈ [(0x1003, { p with vbase := v.toNat % 8192 }),
        (0x1004, { p with vsize := min 8192 (v.toNat % 16384) }),
        (0x1005, { p with clusters := p.clusters.extractLsb' 32 8 ++ v }),
        (0x1006, { p with clusters := v.extractLsb' 0 8 ++ p.clusters.extractLsb' 0 32 })],
      let q : Partition := e.2
      let taken := ∃ n < 16, n ≠ part ∧ let x := s.part n
        (x.clusters &&& q.clusters ≠ 0 ∨ (0 < x.vsize ∧ 0 < q.vsize ∧ x.vbase < q.vbase + q.vsize ∧ q.vbase < x.vbase + x.vsize))
      (s.noLaunch part = true → ¬ taken →
        Gives (.partitionResourceWrite part e.1 v) s (fun t => t = s.putPart part q)) ∧
      (s.noLaunch part = false ∨ taken → same (.partitionResourceWrite part e.1 v))) ∧
    (s.house.phase = 5 → ∀ f < 64, ∀ v : Word, v.getLsbD 5 = (s.pair f).fab →
      let x := s.pair f
      let n := v.toNat % 16
      let takes := Gives (.partitionResourceWrite part (0x4040 + f) v) s (fun t => t = { s with pairs := t.pairs } ∧
        (∀ g, g ≠ f → t.pair g = s.pair g) ∧ (t.pair f).owner = n ∧ (t.pair f).ownv = v.getLsbD 4 ∧
        (t.pair f).fab = x.fab ∧ (t.pair f).spuse = x.spuse)
      (x.ownv = false → v.getLsbD 4 = true → s.noLaunch n = true → takes) ∧
      (x.ownv = false → v.getLsbD 4 = false → takes) ∧ (x.ownv = true → v.getLsbD 4 = false → s.noLaunch x.owner = true → takes) ∧
      (x.ownv = true → v.getLsbD 4 = true → x.owner = n → takes) ∧
      (x.ownv = false → v.getLsbD 4 = true → s.noLaunch n = false → same (.partitionResourceWrite part (0x4040 + f) v))) ∧
    (∀ f < 64, ∀ v : Word, v.getLsbD 4 = true → (s.pair f).ownv = true → (s.pair f).owner ≠ v.toNat % 16 →
      same (.partitionResourceWrite part (0x4040 + f) v)) ∧
    (∀ f < 64, ∀ v : Word, v.getLsbD 4 = false → (s.pair f).ownv = true → s.noLaunch (s.pair f).owner = false →
      same (.partitionResourceWrite part (0x4040 + f) v)) ∧
    (s.house.phase = 5 → ∀ n, (p.shootBusy = false → Gives (.shootdown part n) s (fun t => (t.part part).seq = n ∧
      (t.part part).nseq = n ∧
        (t.part part).shootBusy = true ∧ ∀ e, e ∈ t.tlb ↔ e ∈ s.tlb ∧ e.part ≠ part)) ∧
      (p.shootBusy = true → Gives (.shootdown part n) s (fun t => t = s.putPart part { p with nseq := n }))) ∧
    (s.shootDone part = true → Gives (.shootdownComplete part) s (fun t => (t.part part).shootBusy = false ∧
      t.out = s.out ++ [.flushedTo part p.seq, .msix part p.shvec.toNat])) ∧
    (s.shootDone part = false → same (.shootdownComplete part)) ∧
    (∀ modid pkg seq, Gives (.flushed modid pkg part seq) s (fun t => (t.module modid).windows =
      (s.module modid).windows.map (fun w => if w.pkg = pkg ∧ w.part = part ∧ (seq - w.minSeq).toNat < 2 ^ 15 then
        { w with flushReq := false } else w) ∧ (t.module modid).mem = (s.module modid).mem)) ∧
    (∀ modid ws, Gives (.windowTableLoad modid ws) s (fun t =>
      t = s.putModule modid { s.module modid with windows := ws })) ∧
    (∀ (v : Word) (id : Nat) (g : Gang) (x : Group), s.gang? id = some g → s.resident g = true → s.teamPart g.team = part →
      x ∈ g.groups → x.park = some (.faultq (v.toNat % 2 ^ 16)) → s.house.phase = 5 → Gives (.faultQueueAck part v) s (fun t =>
        ∃ g', t.gang? id = some g' ∧ g'.rest = g.rest ∧ ∀ y ∈ g'.groups, y.slices = x.slices →
          y.park = none ∧ y.deliver = v.getLsbD 16)) ∧
    (s.house.phase = 5 → Gives (.moduleAttest part) s (fun t => Tbl.get 0 (t.part part).trust p.modid = 1 ∧
      ∃ n, n.length = 32 ∧ Tbl.get [] (t.part part).nonces p.modid = n ∧ t.out = s.out ++ [.attest p.modid part n])) ∧
    (∀ modid, (Tbl.get 0 p.trust modid = 1 →
        let nonce := Tbl.get [] p.nonces modid
        (∀ n, Gives (.attestReportReceive modid part (.nonce n)) s (fun t => t.parts = s.parts ∧
          ∃ bs, t.out = s.out ++ [.attestReport modid part bs])) ∧
        (∀ bs, Gives (.attestReportReceive modid part (.report bs)) s (fun t =>
          let v := Tbl.get 0 (t.part part).trust modid
          (v = 2 ∨ v = 3) ∧ (trustedReport nonce bs = true → v = 2) ∧
          (v = 2 → bs.length = 3877 ∧ (bs.drop 8).take 32 = nonce ∧ Config.verify (bs.take 568) (bs.drop 568) = true)))) ∧
      (Tbl.get 0 p.trust modid ≠ 1 → ∀ m, same (.attestReportReceive modid part m)) ∧
      (part < 16 → Gives (.moduleControllerRestart modid) s (fun t => Tbl.get 0 (t.part part).trust modid = 0 ∧
        ∀ m, m ≠ modid → Tbl.get 0 (t.part part).trust m = Tbl.get 0 p.trust m))) ∧
    (p.abusy = false → s.house.phase = 5 →
      (p.owns p.reportBuffer 3904 = true → Gives (.attestReportRequest part) s (fun t => (t.part part).abusy = true ∧
        (t.part part).aerr = false ∧ t.attests = s.attests ++ [part])) ∧
      (p.owns p.reportBuffer 3904 = false → Gives (.attestReportRequest part) s (fun t =>
        t = s.putPart part { p with aerr := true }))) ∧
    (∀ rest, s.attests = part :: rest → p.owns p.reportBuffer 3904 = false → Gives (.attestReportWritten part) s (fun t =>
      t = { s.putPart part { p with abusy := false, aerr := true } with attests := rest })) ∧
    (∀ rest, s.attests = part :: rest → p.owns p.reportBuffer 3904 = true →
      s.runsReady 4 [(p.reportBuffer, 3904)] true = true →
      let r := s.report part (Memory.readBytes s.vault p.reportBuffer 40)
      Gives (.attestReportWritten part) s (fun t => (t.part part).abusy = false ∧ t.attests = rest ∧
        t.out = s.out ++ [.msix part p.atvec.toNat] ∧
        Memory.readBytes t.vault (p.reportBuffer + r.1) r.2.length = r.2)) ∧
    (∀ offset len write, s.house.phase = 5 →
      (s.house.cur = 2 → Gives (.hostBar2Access part offset len write) s (fun t => t = s.emit (.hostAbort part))) ∧
      (s.house.cur ≠ 2 → p.vsize * 65536 ≤ offset ∨ p.vsize * 65536 < offset + (match write with
          | some bs => bs.length
          | none => len) →
        Gives (.hostBar2Access part offset len write) s (fun t => t = s.emit (.hostUnsupported part))) ∧
      (s.house.cur ≠ 2 → offset < p.vsize * 65536 → offset + len ≤ p.vsize * 65536 → s.uncovered (s.vcOf 4) = false →
        Gives (.hostBar2Access part offset len none) s (fun t => t.vault = s.vault ∧
          t.out = s.out ++ [.hostRead part (Memory.readBytes s.vault (p.vbase * 65536 + offset) len)])) ∧
      (∀ bs : List Byte, s.house.cur ≠ 2 → offset + bs.length ≤ p.vsize * 65536 → bs.length = len → 0 < len → offset % 8 + bs.length ≤ 8 → s.iodq = [] →
        s.fullOf 4 = false → Gives (.hostBar2Access part offset len (some bs)) s (fun t => t.vault = s.vault ∧
          ∃ r ∈ t.vreqs, r.agent = 4 ∧ r.pa = p.vbase * 65536 + offset ∧ r.size = bs.length ∧ r.kind = .write (leNat bs))))

/-- R11, R468-R475: start-up, power states and temperature. Power-on passes to phase 4 with the images measured, or to
RECOVERY with its error; phase 4 ends as soon as both mesh ports and PCIe are up, or after 50 ms with PCIe and one port.
PS1 and PS2 are refused with REF while a launch or an unread queue remains; the return to PS0 ends once every channel that
PS1 parked has woken and, from PS2, once the channels that carry light have been tried; above 105 °C every partition's
halt line rises. The order of ramp and wake within one event, a request during a transition, and that modules and their
memory keep their contents over this package's power-on reset are the model's choice (log 48, log 71, log 3). -/
def Obligations.StartUpAndPowerStates : Prop :=
  ∀ (s : State),
    let h := s.house
    (∀ image main fuses version, Gives (.powerOnReset (.good image main fuses version)) s (fun t => t.house.phase = 4 ∧
      t.house.fwver = version ∧ t.house.cur = 0 ∧ t.meas? 0 = shakeOut 8 (List.replicate 64 0 ++ image) ∧
      t.meas? 1 = shakeOut 8 (List.replicate 64 0 ++ main) ∧ t.meas? 2 = shakeOut 8 (List.replicate 64 0 ++ fuses) ∧
      t.vault = [] ∧ t.gangs = [] ∧ t.cores = [] ∧ t.parts = [] ∧ t.modules = s.modules ∧
      ∀ e, (t.array e).lifeh = (s.array e).lifeh ∧ (t.array e).penh = (s.array e).penh)) ∧
    (∀ b n, (b = .badKey ∧ n = 1) ∨ (b = .badFirst ∧ n = 2) ∨ (∃ image, b = .badMain image ∧ n = 3) ∨ (b = .badFlash ∧ n = 4) →
      Gives (.powerOnReset b) s (fun t => t.house.phase = 7 ∧ t.house.err = n)) ∧
    (h.phase = 4 →
      (h.pcie = true → (h.mesh0 = true ∨ h.mesh1 = true) → Gives .linkPhaseTimeout s (fun t => t.house.phase = 5)) ∧
      (h.mesh0 = false → h.mesh1 = false → Gives .linkPhaseTimeout s (fun t => t.house.phase = 4 ∧ t.house.err = 5)) ∧
      (h.pcie = false → (h.mesh0 = true ∨ h.mesh1 = true) → Gives .linkPhaseTimeout s (fun t => t.house.phase = 4 ∧
        t.house.err = 6)) ∧
      (h.mesh0 = true → h.mesh1 = true → Gives .pcieTrained s (fun t => t.house.phase = 5 ∧ t.house.meshDown = false)) ∧
      (h.late = false → ¬ (h.mesh0 = true ∧ h.mesh1 = true) → Gives .pcieTrained s (fun t => t.house.phase = 4 ∧
        t.house.pcie = true)) ∧
      (∀ port, h.pcie = true → (port = 0 → h.mesh1 = true) → (port ≠ 0 → h.mesh0 = true) →
        Gives (.meshPortUp port) s (fun t => t.house.phase = 5))) ∧
    (h.phase = 5 → ∀ port,
      Gives (.meshPortUp port) s (fun t => t.house.phase = 5 ∧ (port = 0 → t.house.mesh0 = true) ∧
        (port ≠ 0 → t.house.mesh1 = true)) ∧
      Gives (.controlMeshPortDown port) s (fun t => t.house.phase = 5 ∧ (port = 0 → t.house.mesh0 = false) ∧
        (port ≠ 0 → t.house.mesh1 = false))) ∧
    (Gives (.powerStateRequest 3) s (fun t => t = s)) ∧
    (s.pfReaches = false → ∀ r, Gives (.powerStateRequest r) s (fun t => t = s)) ∧
    (s.pfReaches = true → ∀ r, (r = 1#2 ∨ r = 2#2) →
      let there := r = h.cur ∧ h.entering = none ∧ h.ramping = false
      (s.busy = true → Gives (.powerStateRequest r) s (fun t => t.house.ref = true ∧ t.house.cur = h.cur ∧
        t.house.entering = h.entering ∧ t.house.ramping = h.ramping)) ∧
      (s.busy = false → there → Gives (.powerStateRequest r) s (fun t => t = { s with house := { h with req := r } })) ∧
      (s.busy = false → ¬ there → Gives (.powerStateRequest r) s (fun t => t = { s with house := t.house } ∧
        t.house.entering = some r ∧ t.house.cur = h.cur ∧ t.house.ramping = false))) ∧
    (s.pfReaches = true → h.cur ≠ 0 → h.entering = none → h.ramping = false → Gives (.powerStateRequest 0) s (fun t => t.house.ramping = true ∧
      t.house.cur = h.cur ∧ t.house.polled = false)) ∧
    (h.entering = some 1 → Gives .clockRampComplete s (fun t => t.house.cur = 1 ∧ t.house.entering = none ∧
      t.cores = s.cores ∧ t.vault = s.vault)) ∧
    (h.entering = some 2 → Gives .clockRampComplete s (fun t => t.house.cur = 2 ∧ t.house.entering = none ∧
      t.vault = s.vault ∧ (∀ n, t.core n = Core.reset) ∧ t.corbel = [] ∧
      ∀ j tm, t.team? j = some tm → ∀ k ∈ tm.cores, k.scratch = [])) ∧
    (let tried := h.cur = 2 → h.polled = true ∧ ∀ e ∈ s.chans, e.2.trying = false
     h.entering = none → h.ramping = true →
      ((∀ e ∈ s.chans, e.2.ps1 = false) → tried → Gives .clockRampComplete s (fun t =>
        t = { s with house := { h with ramping := false, cur := 0, wakeAsked := false } })) ∧
      ((∃ e ∈ s.chans, e.2.ps1 = true) ∨ ¬ tried → Gives .clockRampComplete s (fun t => t = s))) ∧
    (∀ temps watts, let hot := ∃ x ∈ temps, 210 < x.toNat
      (hot → Gives (.thermalSample temps watts) s (fun t => t.house.hot = true ∧ t.house.pwr = watts ∧
        ∀ n < 16, (t.part n).halted = true)) ∧
      (¬ hot → Gives (.thermalSample temps watts) s (fun t => t.house.hot = h.hot ∧ t.house.pwr = watts ∧ t.parts = s.parts ∧
        (h.pcap.toNat < watts.toNat → t.house.pcx = true) ∧ (watts.toNat ≤ h.pcap.toNat → t.house.pcx = h.pcx))))
end

