-- ==== Sys2Proof/Laws/Table.lean ====
section
/-! SUPPORT. Laws of sparse tables and memories: read after write, and the canonical form that every operation keeps. -/

namespace Sys2Proof.Machine

variable {α : Type}

theorem Tbl.get_nil (d : α) (k : Nat) : Tbl.get d [] k = d := rfl

theorem Tbl.get_erase_same (d : α) (t : Tbl α) (k : Nat) : Tbl.get d (Tbl.erase t k) k = d := by
  induction t with
  | nil => rfl
  | cons e t ih =>
    obtain ⟨j, v⟩ := e
    by_cases h : j = k <;> simp [Tbl.erase, Tbl.get, h, ih]

theorem Tbl.get_erase_other (d : α) (t : Tbl α) {k j : Nat} (h : j ≠ k) :
    Tbl.get d (Tbl.erase t k) j = Tbl.get d t j := by
  induction t with
  | nil => rfl
  | cons e t ih =>
    obtain ⟨i, v⟩ := e
    by_cases hi : i = k
    · have : i ≠ j := fun e => h (e.symm.trans hi)
      simp only [Tbl.erase, hi, if_true, Tbl.get, ih]
      simp [h.symm]
    · simp [Tbl.erase, Tbl.get, hi, ih]

theorem Tbl.get_insert_same (d : α) (t : Tbl α) (k : Nat) (v : α) : Tbl.get d (Tbl.insert t k v) k = v := by
  induction t with
  | nil => simp [Tbl.insert, Tbl.get]
  | cons e t ih =>
    obtain ⟨j, w⟩ := e
    simp only [Tbl.insert]
    split
    · simp [Tbl.get]
    · split
      · simp [Tbl.get]
      · rename_i hj
        simp [Tbl.get, hj, ih]

theorem Tbl.get_insert_other (d : α) (t : Tbl α) {k j : Nat} (v : α) (h : j ≠ k) :
    Tbl.get d (Tbl.insert t k v) j = Tbl.get d t j := by
  induction t with
  | nil => simp [Tbl.insert, Tbl.get, h.symm]
  | cons e t ih =>
    obtain ⟨i, w⟩ := e
    simp only [Tbl.insert]
    split
    · simp [Tbl.get, h.symm]
    · split
      · rename_i hi
        have : i ≠ j := fun e => h (e.symm.trans hi)
        simp [Tbl.get, h.symm, this]
      · simp [Tbl.get, ih]

/-- A key written reads as what was written. -/
@[simp] theorem Tbl.get_set_same [DecidableEq α] (d : α) (t : Tbl α) (k : Nat) (v : α) :
    Tbl.get d (Tbl.set d t k v) k = v := by
  unfold Tbl.set
  split
  · rename_i h
    rw [Tbl.get_erase_same, h]
  · exact Tbl.get_insert_same d t k v

/-- Every other key reads as before. -/
@[simp] theorem Tbl.get_set_other [DecidableEq α] (d : α) (t : Tbl α) {k j : Nat} (v : α) (h : j ≠ k) :
    Tbl.get d (Tbl.set d t k v) j = Tbl.get d t j := by
  unfold Tbl.set
  split
  · exact Tbl.get_erase_other d t h
  · exact Tbl.get_insert_other d t v h

theorem Tbl.get_set [DecidableEq α] (d : α) (t : Tbl α) (k j : Nat) (v : α) :
    Tbl.get d (Tbl.set d t k v) j = if j = k then v else Tbl.get d t j := by
  by_cases h : j = k
  · subst h
    simp
  · simp [h]

/-! ### The canonical form -/

/-- The keys of a table are above b. -/
def Tbl.above (b : Option Nat) (k : Nat) : Bool := match b with
  | none => true
  | some x => decide (x < k)

theorem Tbl.sorted_cons (b : Option Nat) (j : Nat) (v : α) (t : Tbl α) :
    Tbl.sorted b ((j, v) :: t) = (Tbl.above b j && Tbl.sorted (some j) t) := by
  cases b <;> simp [Tbl.sorted, Tbl.above]

theorem Tbl.sorted_weaken {b c : Option Nat} {t : Tbl α} (hbc : ∀ k, Tbl.above c k = true → Tbl.above b k = true)
    (h : Tbl.sorted c t = true) : Tbl.sorted b t = true := by
  cases t with
  | nil => cases b <;> rfl
  | cons e t =>
    obtain ⟨j, v⟩ := e
    simp only [Tbl.sorted_cons, Bool.and_eq_true] at h ⊢
    exact ⟨hbc j h.1, h.2⟩

theorem Tbl.sorted_insert {b : Option Nat} {t : Tbl α} {k : Nat} {v : α} (hb : Tbl.above b k = true)
    (h : Tbl.sorted b t = true) : Tbl.sorted b (Tbl.insert t k v) = true := by
  induction t generalizing b with
  | nil => simp [Tbl.insert, Tbl.sorted_cons, hb, Tbl.sorted]
  | cons e t ih =>
    obtain ⟨j, w⟩ := e
    simp only [Tbl.sorted_cons, Bool.and_eq_true] at h
    simp only [Tbl.insert]
    split
    · rename_i hk
      simp only [Tbl.sorted_cons, hb, h.2, Bool.true_and, Bool.and_true]
      simpa [Tbl.above] using hk
    · split
      · rename_i hk
        subst hk
        simp [Tbl.sorted_cons, hb, h.2]
      · rename_i h1 h2
        simp only [Tbl.sorted_cons, Bool.and_eq_true]
        exact ⟨h.1, ih (by simp only [Tbl.above, decide_eq_true_eq]; omega) h.2⟩

theorem Tbl.sorted_erase {b : Option Nat} {t : Tbl α} {k : Nat} (h : Tbl.sorted b t = true) :
    Tbl.sorted b (Tbl.erase t k) = true := by
  induction t generalizing b with
  | nil => exact h
  | cons e t ih =>
    obtain ⟨j, w⟩ := e
    simp only [Tbl.sorted_cons, Bool.and_eq_true] at h
    simp only [Tbl.erase]
    split
    · refine Tbl.sorted_weaken (c := some j) (fun i hi => ?_) (ih h.2)
      have h1 := h.1
      revert h1 hi
      cases b <;> simp [Tbl.above]
      omega
    · simp only [Tbl.sorted_cons, Bool.and_eq_true]
      exact ⟨h.1, ih h.2⟩

theorem Tbl.mem_erase {t : Tbl α} {k : Nat} {e : Nat × α} (h : e ∈ Tbl.erase t k) : e ∈ t := by
  induction t with
  | nil => exact h
  | cons x t ih =>
    obtain ⟨j, w⟩ := x
    simp only [Tbl.erase] at h
    split at h
    · exact List.mem_cons_of_mem _ (ih h)
    · rcases List.mem_cons.1 h with h | h
      · exact h ▸ List.mem_cons_self
      · exact List.mem_cons_of_mem _ (ih h)

theorem Tbl.mem_insert {t : Tbl α} {k : Nat} {v : α} {e : Nat × α} (h : e ∈ Tbl.insert t k v) :
    e = (k, v) ∨ e ∈ t := by
  induction t with
  | nil => simpa [Tbl.insert] using h
  | cons x t ih =>
    obtain ⟨j, w⟩ := x
    simp only [Tbl.insert] at h
    split at h
    · simpa using h
    · split at h
      · rcases List.mem_cons.1 h with h | h
        · exact .inl h
        · exact .inr (List.mem_cons_of_mem _ h)
      · rcases List.mem_cons.1 h with h | h
        · exact .inr (h ▸ List.mem_cons_self)
        · rcases ih h with h | h
          · exact .inl h
          · exact .inr (List.mem_cons_of_mem _ h)

/-- A write keeps the canonical form. -/
theorem Tbl.wf_set [DecidableEq α] {d : α} {t : Tbl α} {k : Nat} {v : α} (h : Tbl.wf d t = true) :
    Tbl.wf d (Tbl.set d t k v) = true := by
  simp only [Tbl.wf, Bool.and_eq_true, List.all_eq_true, decide_eq_true_eq] at h ⊢
  unfold Tbl.set
  split
  · exact ⟨Tbl.sorted_erase h.1, fun e he => h.2 e (Tbl.mem_erase he)⟩
  · rename_i hv
    refine ⟨Tbl.sorted_insert rfl h.1, fun e he => ?_⟩
    rcases Tbl.mem_insert he with rfl | he
    · exact hv
    · exact h.2 e he

/-! ### Memories -/

@[simp] theorem Memory.readByte_writeByte_same (m : Memory) (a : Nat) (v : Byte) :
    Memory.readByte (Memory.writeByte m a v) a = v := Tbl.get_set_same 0 m a v

@[simp] theorem Memory.readByte_writeByte_other (m : Memory) {a b : Nat} (v : Byte) (h : b ≠ a) :
    Memory.readByte (Memory.writeByte m a v) b = Memory.readByte m b := Tbl.get_set_other 0 m v h

/-- A byte outside the bytes written reads as before. -/
theorem Memory.readByte_writeBytes_other (m : Memory) (a b : Nat) (l : List Byte) (h : b < a ∨ a + l.length ≤ b) :
    Memory.readByte (Memory.writeBytes m a l) b = Memory.readByte m b := by
  induction l generalizing m a with
  | nil => rfl
  | cons x l ih =>
    simp only [List.length_cons] at h
    simp only [Memory.writeBytes]
    rw [ih _ _ (by omega), Memory.readByte_writeByte_other _ _ (by omega)]

/-- A byte written reads as what was written. -/
theorem Memory.readByte_writeBytes_same (m : Memory) (a i : Nat) (l : List Byte) (h : i < l.length) :
    Memory.readByte (Memory.writeBytes m a l) (a + i) = l[i] := by
  induction l generalizing m a i with
  | nil => simp at h
  | cons x l ih =>
    simp only [Memory.writeBytes]
    cases i with
    | zero =>
      rw [Memory.readByte_writeBytes_other _ _ _ _ (by omega)]
      simp
    | succ i =>
      have := ih (Memory.writeByte m a x) (a + 1) i (by simpa using h)
      rw [show a + (i + 1) = a + 1 + i by omega]
      simpa using this

@[simp] theorem leBytes_length (n x : Nat) : (leBytes n x).length = n := by
  induction n generalizing x with
  | zero => rfl
  | succ n ih => simp [leBytes, ih]

theorem leNat_leBytes (n x : Nat) : leNat (leBytes n x) = x % 256 ^ n := by
  induction n generalizing x with
  | zero => simp [leBytes, leNat, Nat.mod_one]
  | succ n ih =>
    simp only [leBytes, leNat, ih, BitVec.toNat_ofNat]
    rw [show 256 ^ (n + 1) = 256 * 256 ^ n by rw [Nat.pow_succ, Nat.mul_comm], Nat.mod_mul]

@[simp] theorem Memory.readBytes_length (m : Memory) (a n : Nat) : (Memory.readBytes m a n).length = n := by
  induction n generalizing a with
  | zero => rfl
  | succ n ih => simp [Memory.readBytes, ih]

theorem Memory.readBytes_congr {m m' : Memory} {a n : Nat}
    (h : ∀ b, a ≤ b → b < a + n → Memory.readByte m b = Memory.readByte m' b) :
    Memory.readBytes m a n = Memory.readBytes m' a n := by
  induction n generalizing a with
  | zero => rfl
  | succ n ih =>
    simp only [Memory.readBytes]
    rw [h a (by omega) (by omega), ih (fun b h1 h2 => h b (by omega) (by omega))]

/-- Bytes written read back. -/
theorem Memory.readBytes_writeBytes (m : Memory) (a : Nat) (l : List Byte) :
    Memory.readBytes (Memory.writeBytes m a l) a l.length = l := by
  induction l generalizing m a with
  | nil => rfl
  | cons x l ih =>
    simp only [Memory.writeBytes, List.length_cons, Memory.readBytes]
    rw [ih, Memory.readByte_writeBytes_other _ _ _ _ (by omega), Memory.readByte_writeByte_same]

/-- A number written in n bytes reads back modulo 256^n (R2). -/
theorem Memory.readNat_writeNat (m : Memory) (a n x : Nat) :
    Memory.readNat (Memory.writeNat m a n x) a n = x % 256 ^ n := by
  have := Memory.readBytes_writeBytes m a (leBytes n x)
  rw [leBytes_length] at this
  rw [Memory.readNat, Memory.writeNat, this, leNat_leBytes]

/-- Writing one byte keeps the canonical form. -/
theorem Memory.wf_writeByte {m : Memory} {a : Nat} {v : Byte} (h : Memory.wf m = true) :
    Memory.wf (Memory.writeByte m a v) = true := Tbl.wf_set h

/-- Writing bytes keeps the canonical form. -/
theorem Memory.wf_writeBytes {m : Memory} {a : Nat} {l : List Byte} (h : Memory.wf m = true) :
    Memory.wf (Memory.writeBytes m a l) = true := by
  induction l generalizing m a with
  | nil => exact h
  | cons x l ih => exact ih (Memory.wf_writeByte h)

/-- Writing a number keeps the canonical form. -/
theorem Memory.wf_writeNat {m : Memory} {a n x : Nat} (h : Memory.wf m = true) :
    Memory.wf (Memory.writeNat m a n x) = true := Memory.wf_writeBytes h

end Sys2Proof.Machine
end

