-- ==== Sys2Proof/Laws/Block.lean ====
section
/-! SUPPORT. Laws of the reconvergence block: a block written by TSAVE is one that TLOAD accepts, whatever its opaque bytes
are (R418). -/

namespace Sys2Proof.Machine

@[simp] theorem hideBytes_length (bs : List Byte) : (hideBytes bs).length = bs.length := by simp [hideBytes]

/-- Hiding twice shows the bytes again. -/
@[simp] theorem hideBytes_hideBytes (bs : List Byte) : hideBytes (hideBytes bs) = bs := by
  refine List.ext_getElem (by simp) fun i h _ => ?_
  simp [hideBytes]

@[simp] theorem padTo_length (n : Nat) (bs : List Byte) : (padTo n bs).length = n := by
  simp only [padTo, List.length_take, List.length_append, List.length_replicate]
  omega

@[simp] theorem Block.plain_length (b : Block) : b.plain.length = 112 := padTo_length _ _

@[simp] theorem Block.bytes_length (b : Block) (gang tid : Nat) : (b.bytes gang tid).length = 128 := by simp [Block.bytes]

theorem crcBit_lt {c : Nat} (h : c < 2 ^ 32) : crcBit c < 2 ^ 32 := by
  unfold crcBit
  split
  · exact Nat.xor_lt_two_pow (by omega) (by decide)
  · omega

theorem crcByte_lt {c : Nat} (b : Byte) (h : c < 2 ^ 32) : crcByte c b < 2 ^ 32 := by
  have hb : b.toNat < 2 ^ 32 := Nat.lt_trans b.isLt (by decide)
  suffices ∀ (l : List Nat) (x : Nat), x < 2 ^ 32 → l.foldl (fun c _ => crcBit c) x < 2 ^ 32 from
    this _ _ (Nat.xor_lt_two_pow h hb)
  intro l
  induction l with
  | nil => exact fun _ hx => hx
  | cons _ l ih => exact fun x hx => ih _ (crcBit_lt hx)

theorem crc32_lt (bs : List Byte) : crc32 bs < 2 ^ 32 := by
  suffices ∀ (x : Nat), x < 2 ^ 32 → bs.foldl crcByte x < 2 ^ 32 from Nat.xor_lt_two_pow (this _ (by decide)) (by decide)
  induction bs with
  | nil => exact fun _ hx => hx
  | cons b bs ih => exact fun x hx => ih _ (crcByte_lt b hx)

/-- TLOAD accepts what TSAVE writes, for a block whose groups may go on (R418). -/
theorem Block.ofBytes_bytes (b : Block) (gang tid : Nat) (live : SliceMask) (hg : gang < 256) (ht : tid < 2 ^ 64)
    (hb : (Block.ofPlain b.plain).resumable live = true) :
    Block.ofBytes (b.bytes gang tid) gang tid live = some (Block.ofPlain b.plain) := by
  let head := leBytes 1 1 ++ leBytes 1 gang ++ leBytes 2 0 ++ leBytes 8 tid
  have hl : head.length = 12 := by simp [head]
  have e : b.bytes gang tid = head ++ leBytes 4 (crc32 (head ++ hideBytes b.plain)) ++ hideBytes b.plain := rfl
  have hd : (b.bytes gang tid).drop 16 = hideBytes b.plain := by
    rw [e, List.drop_append_of_le_length (by simp [hl]), List.drop_of_length_le (by simp [hl]), List.nil_append]
  have ho : ((b.bytes gang tid).drop 16).take 112 = hideBytes b.plain := by rw [hd, List.take_of_length_le (by simp)]
  have h12 : (b.bytes gang tid).take 12 = head := by
    rw [e, List.append_assoc, List.take_append_of_le_length (by omega), List.take_of_length_le (by omega)]
  have hc : ((b.bytes gang tid).drop 12).take 4 = leBytes 4 (crc32 (head ++ hideBytes b.plain)) := by
    rw [e, List.append_assoc, List.drop_append_of_le_length (by omega), List.drop_of_length_le (by omega), List.nil_append,
      List.take_append_of_le_length (by simp), List.take_of_length_le (by simp)]
  have h4 : ((b.bytes gang tid).drop 4).take 8 = leBytes 8 tid := by
    rw [e]
    rfl
  have h0 : (b.bytes gang tid).getD 0 0 = 1 := rfl
  have h1 : ((b.bytes gang tid).getD 1 0).toNat = gang := by
    show (BitVec.ofNat 8 gang).toNat = gang
    simpa using hg
  unfold Block.ofBytes
  simp only [ho, h12, hc, h4, h0, h1, hideBytes_hideBytes, leNat_leBytes, beq_self_eq_true, Bool.true_and]
  rw [Nat.mod_eq_of_lt (by simpa using ht), Nat.mod_eq_of_lt (by simpa using crc32_lt _)]
  simp [hb]

end Sys2Proof.Machine
end

