-- ==== Sys2Proof/Laws/Gang.lean ====
section
/-! SUPPORT. Laws of a gang's registers: what elements read as after writes, and after results on their way have landed
(R71-R75). -/

namespace Sys2Proof.Machine

/-! ### The gang table -/

@[simp] theorem State.gang?_putGang_same (s : State) (id : Nat) (g : Gang) : (s.putGang id g).gang? id = some g := by
  simp [State.gang?, State.putGang]

@[simp] theorem State.gang?_putGang_other (s : State) {id j : Nat} (g : Gang) (h : j ≠ id) :
    (s.putGang id g).gang? j = s.gang? j := by
  simp [State.gang?, State.putGang, h]

/-! ### Elements -/

/-- What an element reads as when x is written to it (R38). -/
def RegElem.holds : RegElem → Word → Word
  | .p i _, x => if i = 63 then 1 else if x.getLsbD 0 then 1 else 0
  | _, x => x

theorem Gang.elem_putElem_same (g : Gang) (e : RegElem) (x : Word) : (g.putElem e x).elem e = e.holds x := by
  cases e with
  | v r l => simp [Gang.putElem, Gang.elem, RegElem.holds]
  | s i => simp [Gang.putElem, Gang.elem, RegElem.holds]
  | p i l => by_cases h : i = 63 <;> simp [Gang.putElem, Gang.elem, RegElem.holds, h]

theorem Gang.elem_putElem_other (g : Gang) {e e' : RegElem} (x : Word) (h : e' ≠ e) :
    (g.putElem e x).elem e' = g.elem e' := by
  cases e with
  | v r l =>
    cases e' <;> try rfl
    rename_i r' l'
    simp only [Gang.putElem, Gang.elem]
    rw [Tbl.get_set_other]
    intro hk
    have := Nat.pair_eq_pair.1 hk
    exact h (by rw [this.1, this.2])
  | s i =>
    cases e' <;> try rfl
    rename_i i'
    simp only [Gang.putElem, Gang.elem]
    rw [Tbl.get_set_other]
    intro hk
    exact h (by rw [hk])
  | p i l =>
    by_cases h63 : i = 63
    · simp [Gang.putElem, h63]
    · cases e' <;> simp only [Gang.putElem, Gang.elem, h63, if_false]
      rename_i i' l'
      rw [Tbl.get_set_other]
      intro hk
      have := Nat.pair_eq_pair.1 hk
      exact h (by rw [this.1, this.2])

theorem Gang.elem_p63 (g : Gang) (l : Nat) : g.elem (.p 63 l) = 1 := by simp [Gang.elem]

/-! ### Results on their way -/

/-- What an element reads as after these results, in order, from old. -/
def landed (l : List Pending) (e : RegElem) (old : Word) : Word :=
  l.foldl (fun acc p => if p.dest = e then e.holds p.val else acc) old

theorem landed_nil (e : RegElem) (old : Word) : landed [] e old = old := rfl

theorem landed_append (l l' : List Pending) (e : RegElem) (old : Word) :
    landed (l ++ l') e old = landed l' e (landed l e old) := by simp [landed, List.foldl_append]

theorem landed_cons (p : Pending) (l : List Pending) (e : RegElem) (old : Word) :
    landed (p :: l) e old = landed l e (if p.dest = e then e.holds p.val else old) := rfl

theorem landed_of_not_mem {l : List Pending} {e : RegElem} {old : Word} (h : ∀ p ∈ l, p.dest ≠ e) :
    landed l e old = old := by
  induction l generalizing old with
  | nil => rfl
  | cons p l ih =>
    rw [landed_cons, if_neg (h p List.mem_cons_self), ih (fun q hq => h q (List.mem_cons_of_mem _ hq))]

theorem landed_filter_other {l : List Pending} {e d : RegElem} {old : Word} (h : e ≠ d) :
    landed (l.filter (fun q => !(q.dest == d))) e old = landed l e old := by
  induction l generalizing old with
  | nil => rfl
  | cons p l ih =>
    by_cases hp : p.dest = d
    · have : p.dest ≠ e := fun hh => h (hh.symm.trans hp)
      simp [hp, ih, landed_cons, Ne.symm h]
    · simp [hp, landed_cons, ih]

/-- Committing some results changes nothing of what elements come to read as. -/
theorem landed_commitGo (f : Pending → Bool) (ps kept : List Pending) (g : Gang) (e : RegElem) :
    landed (commitGo f ps kept g).1 e ((commitGo f ps kept g).2.elem e) = landed (kept ++ ps) e (g.elem e) := by
  induction ps generalizing kept g with
  | nil => simp [commitGo]
  | cons p ps ih =>
    simp only [commitGo]
    split
    · rw [ih]
      by_cases he : e = p.dest
      · subst he
        rw [landed_append, landed_append, landed_cons, if_pos rfl, Gang.elem_putElem_same,
          landed_of_not_mem (l := kept.filter _)]
        intro q hq
        simp only [List.mem_filter, Bool.not_eq_true', beq_eq_false_iff_ne] at hq
        exact hq.2
      · rw [landed_append, landed_append, landed_cons, if_neg (fun h => he h.symm), landed_filter_other he,
          Gang.elem_putElem_other _ _ he]
    · rw [ih, List.append_assoc, List.singleton_append]

theorem commitGo_true (ps kept : List Pending) (g : Gang) (h : kept = []) : (commitGo (fun _ => true) ps kept g).1 = [] := by
  induction ps generalizing kept g with
  | nil => simpa [commitGo] using h
  | cons p ps ih => simp only [commitGo, if_true]; exact ih _ _ (by simp [h])

theorem Gang.elem_with_pend (g : Gang) (l : List Pending) (e : RegElem) : Gang.elem { g with pend := l } e = g.elem e := by
  cases e <;> rfl

theorem Gang.elem_with_flight_pend (g : Gang) (fl : List Flight) (l : List Pending) (e : RegElem) :
    Gang.elem { g with flight := fl, pend := l } e = g.elem e := by
  cases e <;> rfl

/-- An element comes to read as the last of its results on their way, or as it stands (R73, R74). -/
theorem Gang.settled_eq (g : Gang) (e : RegElem) : g.settled e = landed g.pend e (g.elem e) := by
  have := landed_commitGo (fun _ => true) g.pend [] g e
  rw [commitGo_true _ _ _ rfl, landed_nil, List.nil_append] at this
  rw [← this, Gang.settled, Gang.commitAll, Gang.commit]
  cases e <;> rfl

/-- Which registers have results on their way is no part of what an element comes to read as. -/
@[simp] theorem Gang.settled_with_flight (g : Gang) (l : List Flight) (e : RegElem) :
    Gang.settled { g with flight := l } e = g.settled e := by
  rw [Gang.settled_eq, Gang.settled_eq]
  cases e <;> rfl

@[simp] theorem Gang.settled_launch (g : Gang) (m : SliceMask) (lat : Nat) (rs : List RegRef) (e : RegElem) :
    (g.launch m lat rs).settled e = g.settled e := Gang.settled_with_flight g _ e

@[simp] theorem Gang.settled_commit (g : Gang) (f : Pending → Bool) (e : RegElem) : (g.commit f).settled e = g.settled e := by
  rw [Gang.settled_eq, Gang.settled_eq, Gang.commit]
  have := landed_commitGo f g.pend [] g e
  rw [List.nil_append] at this
  rw [← this, Gang.elem_with_pend]

@[simp] theorem Gang.settled_commitGroup (g : Gang) (m : SliceMask) (e : RegElem) :
    (g.commitGroup m).settled e = g.settled e :=
  (Gang.settled_with_flight _ _ e).trans (Gang.settled_commit g _ e)

theorem landed_map {l : List Pending} {f : Pending → Pending} (hd : ∀ p, (f p).dest = p.dest) (hv : ∀ p, (f p).val = p.val)
    (e : RegElem) (old : Word) : landed (l.map f) e old = landed l e old := by
  induction l generalizing old with
  | nil => rfl
  | cons p l ih => simp [landed_cons, hd, hv, ih]

@[simp] theorem Gang.settled_advance (g : Gang) (m : SliceMask) (n : Nat) (e : RegElem) :
    (g.advance m n).settled e = g.settled e := by
  rw [Gang.advance, Gang.settled_commit, Gang.settled_eq, Gang.settled_eq, Gang.elem_with_flight_pend]
  exact landed_map (f := fun p => { p with left := p.left.map (fun x => if m.getLsbD x.1 then (x.1, x.2 - n) else x) })
    (fun _ => rfl) (fun _ => rfl) e _

/-- What elements read as after some writes, in order. -/
def overwritten (ws : List (RegElem × Word)) (old : RegElem → Word) (e : RegElem) : Word :=
  ws.foldl (fun acc w => if w.1 = e then e.holds w.2 else acc) (old e)

theorem Gang.settled_writeFixed (g : Gang) (m : SliceMask) (lat : Nat) (ws : List (RegElem × Word)) (e : RegElem) :
    (g.writeFixed m lat ws).settled e = overwritten ws g.settled e := by
  rw [Gang.settled_eq, Gang.writeFixed, overwritten, Gang.elem_with_pend, Gang.settled_eq, landed_append]
  generalize landed g.pend e (g.elem e) = old
  induction ws generalizing old with
  | nil => rfl
  | cons w ws ih => simp only [List.map_cons, landed_cons, List.foldl_cons, ih]

theorem Gang.settled_putNow (g : Gang) (e e' : RegElem) (x : Word) :
    (g.putNow e x).settled e' = if e = e' then e'.holds x else g.settled e' := by
  rw [Gang.settled_eq, Gang.putNow]
  have hp : (Gang.putElem { g with pend := g.pend.filter (fun p => !(p.dest == e)),
                                   flight := g.flight.filter (fun y => !y.meets e) } e x).pend = g.pend.filter (fun p => !(p.dest == e)) := by
    cases e <;> simp only [Gang.putElem]
    split <;> rfl
  rw [hp]
  by_cases h : e = e'
  · subst h
    rw [if_pos rfl, Gang.elem_putElem_same, landed_of_not_mem]
    intro q hq
    simp only [List.mem_filter, Bool.not_eq_true', beq_eq_false_iff_ne] at hq
    exact hq.2
  · rw [if_neg h, landed_filter_other (fun hh => h hh.symm), Gang.elem_putElem_other _ _ (fun hh => h hh.symm), Gang.settled_eq]
    cases e' <;> rfl

theorem Gang.settled_writeNow (g : Gang) (ws : List (RegElem × Word)) (e : RegElem) :
    (g.writeNow ws).settled e = overwritten ws g.settled e := by
  rw [Gang.writeNow, overwritten]
  induction ws generalizing g with
  | nil => rfl
  | cons w ws ih =>
    rw [List.foldl_cons, List.foldl_cons, ih, ← Gang.settled_putNow]

/-! ### What writes to registers leave alone -/

@[simp] theorem Gang.rest_putElem (g : Gang) (e : RegElem) (x : Word) : (g.putElem e x).rest = g.rest := by
  cases e <;> simp only [Gang.putElem, Gang.rest]
  split <;> rfl

theorem Gang.rest_congr {g h : Gang} (hr : g.rest = h.rest) (l : List Pending) : Gang.rest { g with pend := l } = h.rest := hr

theorem Gang.rest_commitGo (f : Pending → Bool) (ps kept : List Pending) (g : Gang) :
    (commitGo f ps kept g).2.rest = g.rest := by
  induction ps generalizing kept g with
  | nil => rfl
  | cons p ps ih =>
    simp only [commitGo]
    split
    · rw [ih, Gang.rest_putElem]
    · rw [ih]

@[simp] theorem Gang.rest_commit (g : Gang) (f : Pending → Bool) : (g.commit f).rest = g.rest :=
  Gang.rest_commitGo f g.pend [] g

@[simp] theorem Gang.rest_commitGroup (g : Gang) (m : SliceMask) : (g.commitGroup m).rest = g.rest :=
  Gang.rest_commit g _

@[simp] theorem Gang.rest_advance (g : Gang) (m : SliceMask) (n : Nat) : (g.advance m n).rest = g.rest :=
  Gang.rest_commit _ _

@[simp] theorem Gang.rest_launch (g : Gang) (m : SliceMask) (lat : Nat) (rs : List RegRef) :
    (g.launch m lat rs).rest = g.rest := rfl

@[simp] theorem Gang.groups_launch (g : Gang) (m : SliceMask) (lat : Nat) (rs : List RegRef) :
    (g.launch m lat rs).groups = g.groups := rfl

@[simp] theorem Gang.rest_writeFixed (g : Gang) (m : SliceMask) (lat : Nat) (ws : List (RegElem × Word)) :
    (g.writeFixed m lat ws).rest = g.rest := rfl

@[simp] theorem Gang.rest_putNow (g : Gang) (e : RegElem) (x : Word) : (g.putNow e x).rest = g.rest :=
  Gang.rest_putElem _ _ _

@[simp] theorem Gang.rest_writeNow (g : Gang) (ws : List (RegElem × Word)) : (g.writeNow ws).rest = g.rest := by
  rw [Gang.writeNow]
  induction ws generalizing g with
  | nil => rfl
  | cons w ws ih => rw [List.foldl_cons, ih, Gang.rest_putNow]

@[simp] theorem Gang.rest_modGroup (g : Gang) (m : SliceMask) (f : Group → Group) : (g.modGroup m f).rest = g.rest := rfl

@[simp] theorem Gang.groups_putElem (g : Gang) (e : RegElem) (x : Word) : (g.putElem e x).groups = g.groups := by
  cases e <;> simp only [Gang.putElem]
  split <;> rfl

theorem Gang.groups_commitGo (f : Pending → Bool) (ps kept : List Pending) (g : Gang) :
    (commitGo f ps kept g).2.groups = g.groups := by
  induction ps generalizing kept g with
  | nil => rfl
  | cons p ps ih =>
    simp only [commitGo]
    split
    · rw [ih, Gang.groups_putElem]
    · rw [ih]

@[simp] theorem Gang.groups_commit (g : Gang) (f : Pending → Bool) : (g.commit f).groups = g.groups :=
  Gang.groups_commitGo f g.pend [] g

@[simp] theorem Gang.groups_commitGroup (g : Gang) (m : SliceMask) : (g.commitGroup m).groups = g.groups :=
  Gang.groups_commit g _

@[simp] theorem Gang.groups_advance (g : Gang) (m : SliceMask) (n : Nat) : (g.advance m n).groups = g.groups :=
  Gang.groups_commit _ _

@[simp] theorem Gang.groups_writeFixed (g : Gang) (m : SliceMask) (lat : Nat) (ws : List (RegElem × Word)) :
    (g.writeFixed m lat ws).groups = g.groups := rfl

@[simp] theorem Gang.groups_putNow (g : Gang) (e : RegElem) (x : Word) : (g.putNow e x).groups = g.groups :=
  Gang.groups_putElem _ _ _

@[simp] theorem Gang.groups_writeNow (g : Gang) (ws : List (RegElem × Word)) : (g.writeNow ws).groups = g.groups := by
  rw [Gang.writeNow]
  induction ws generalizing g with
  | nil => rfl
  | cons w ws ih => rw [List.foldl_cons, ih, Gang.groups_putNow]

@[simp] theorem Gang.groups_givesTurn (g : Gang) (m : SliceMask) : (g.givesTurn m).groups = g.groups := by
  unfold Gang.givesTurn; split <;> rfl

@[simp] theorem Gang.settled_givesTurn (g : Gang) (m : SliceMask) (e : RegElem) : (g.givesTurn m).settled e = g.settled e := by
  unfold Gang.givesTurn
  split
  · rw [Gang.settled_eq, Gang.settled_eq]; rfl
  · rfl

@[simp] theorem Gang.settled_modGroup (g : Gang) (m : SliceMask) (f : Group → Group) (e : RegElem) :
    (g.modGroup m f).settled e = g.settled e := by
  rw [Gang.settled_eq, Gang.settled_eq]
  cases e <;> rfl

/-- What a retired group's gang keeps: everything but the place of the group (R72). -/
@[simp] theorem Gang.settled_retire (g : Gang) (m : SliceMask) (pc : VAddr) (cad : Nat) (e : RegElem) :
    (g.retire m pc cad).settled e = g.settled e := by simp [Gang.retire]

@[simp] theorem Gang.rest_retire (g : Gang) (m : SliceMask) (pc : VAddr) (cad : Nat) :
    (g.retire m pc cad).rest = g.rest := by simp [Gang.retire]

@[simp] theorem Gang.groups_retire (g : Gang) (m : SliceMask) (pc : VAddr) (cad : Nat) :
    (g.retire m pc cad).groups =
      g.groups.map (fun x => if x.slices == m then
        { x with pc := pc, park := none, deliver := false, idle := cad + 1 } else x) := by
  simp [Gang.retire, Gang.modGroup]

/-! ### The end of a word -/

/-- The group of an instruction goes on at pc, and nothing else happens. -/
theorem Ctx.went_nextAt (c : Ctx) (s : State) (g : Gang) (pc : VAddr) (hg : g.groups = c.g.groups) :
    c.went s g pc g.settled (c.nextAt s g pc) :=
  ⟨_, rfl, Gang.rest_retire _ _ _ _, by rw [Gang.groups_retire, hg]; rfl, Gang.settled_retire _ _ _ _⟩

theorem Ctx.went_congr {c : Ctx} {s : State} {g h : Gang} {pc : VAddr} {f f' : RegElem → Word} {t : State}
    (hr : g.rest = h.rest) (hf : ∀ e, f e = f' e) (hw : c.went s g pc f t) : c.went s h pc f' t := by
  obtain ⟨g', h1, h2, h3, h4⟩ := hw
  exact ⟨g', h1, h2.trans hr, h3, fun e => (h4 e).trans (hf e)⟩

/-- The group that issues has its context. -/
theorem withIssue_some {s : State} {c : Ctx} (h : s.issuing = some c) (f : Ctx → Host.Outcome State Fault Refusal) :
    withIssue s f = f c := by rw [withIssue, h]

theorem State.issuing_state {s : State} {c : Ctx} (h : s.issuing = some c) : c.s = s := by
  unfold State.issuing at h
  split at h
  · cases h
  · split at h
    · cases h
    · split at h
      · cases h
      · exact (Option.some.inj h) ▸ rfl

@[simp] theorem Ctx.run_none (c : Ctx) (t : State) : c.run none t = .next t := rfl

end Sys2Proof.Machine
end

