-- ==== Sys2Proof/Laws/Data.lean ====
section
/-! SUPPORT. What a data instruction and an instruction with a predicate destination leave (R44, R45, R114, R133). -/

namespace Sys2Proof.Machine

theorem overwritten_nil (old : RegElem → Word) (e : RegElem) : overwritten [] old e = old e := rfl

theorem overwritten_append (ws ws' : List (RegElem × Word)) (old : RegElem → Word) (e : RegElem) :
    overwritten (ws ++ ws') old e = overwritten ws' (overwritten ws old) e := by
  simp [overwritten, List.foldl_append]

/-- Writes made lane by lane, where a lane's writes to e are either none or end in v. -/
theorem overwritten_flatMap {β : Type} (L : List β) (seg : β → List (RegElem × Word)) (old : RegElem → Word) (e : RegElem)
    (p : β → Prop) [DecidablePred p] (v : Word)
    (hseg : ∀ x ∈ L, ∀ o : RegElem → Word, overwritten (seg x) o e = if p x then v else o e) :
    overwritten (L.flatMap seg) old e = if (∃ x ∈ L, p x) then v else old e := by
  induction L generalizing old with
  | nil => simp [overwritten]
  | cons x L ih =>
    rw [List.flatMap_cons, overwritten_append, ih _ (fun y hy => hseg y (List.mem_cons_of_mem _ hy)),
      hseg x List.mem_cons_self]
    by_cases h : p x <;> simp [h]

/-- The writes of one lane's result to a vector element. -/
theorem overwritten_spread_v (d : RegField) (wide : Bool) (l x r l' : Nat) (old : RegElem → Word) :
    overwritten (spread (dstElems d wide l) x) old (.v r l') =
      if d.toNat < 0xC0 ∧ l' = l ∧ (r = d.toNat ∨ wide = true ∧ r = d.toNat + 1) then
        (if r = d.toNat then BitVec.ofNat 32 x else BitVec.ofNat 32 (x / 2 ^ 32))
      else old (.v r l') := by
  unfold dstElems
  by_cases hv : d.toNat < 0xC0
  · have h1 : isVreg d = true := by simpa [isVreg] using hv
    generalize d.toNat = n at hv ⊢
    cases wide <;>
      simp only [h1, if_true, Bool.false_eq_true, if_false, spread, overwritten, List.foldl_cons, List.foldl_nil,
        RegElem.holds, RegElem.v.injEq, hv, true_and, false_and, or_false] <;>
      split_ifs <;> first | rfl | omega
  · have h1 : isVreg d = false := by simpa [isVreg] using hv
    cases hs : isSreg d <;> cases wide <;> simp [h1, hv, spread, overwritten]

/-- The writes of one lane's result to a scalar register. -/
theorem overwritten_spread_s (d : RegField) (wide : Bool) (l x i : Nat) (old : RegElem → Word) :
    overwritten (spread (dstElems d wide l) x) old (.s i) =
      if isSreg d = true ∧ (i = sreg d ∨ wide = true ∧ i = sreg d + 1) then
        (if i = sreg d then BitVec.ofNat 32 x else BitVec.ofNat 32 (x / 2 ^ 32))
      else old (.s i) := by
  unfold dstElems
  by_cases hv : d.toNat < 0xC0
  · have h1 : isVreg d = true := by simpa [isVreg] using hv
    have h2 : isSreg d = false := by simp [isSreg]; omega
    cases wide <;> simp [h1, h2, spread, overwritten]
  · have h1 : isVreg d = false := by simpa [isVreg] using hv
    cases hs : isSreg d
    · simp [h1, spread, overwritten]
    · generalize sreg d = n
      cases wide <;>
        simp only [h1, if_true, Bool.false_eq_true, if_false, spread, overwritten, List.foldl_cons, List.foldl_nil,
          RegElem.holds, RegElem.s.injEq, true_and, false_and, or_false] <;>
        split_ifs <;> first | rfl | omega

/-- No data instruction writes a predicate. -/
theorem overwritten_spread_p (d : RegField) (wide : Bool) (l x i l' : Nat) (old : RegElem → Word) :
    overwritten (spread (dstElems d wide l) x) old (.p i l') = old (.p i l') := by
  unfold dstElems
  cases isVreg d <;> cases isSreg d <;> cases wide <;> simp [spread, overwritten]

theorem mem_takers {c : Ctx} {l : Nat} : l ∈ c.takers ↔ l < 32 ∧ c.takes l = true := by
  simp [Ctx.takers, allLanes]

theorem isSreg_iff {d : RegField} : isSreg d = true ↔ 0xC0 ≤ d.toNat ∧ d.toNat < 0xF8 := by simp [isSreg]

theorem isVreg_iff {d : RegField} : isVreg d = true ↔ d.toNat < 0xC0 := by simp [isVreg]

/-- The elements after the writes of a data instruction (R114). -/
theorem overwritten_result (c : Ctx) (d : RegField) (wide : Bool) (f : Nat → Nat) (e : RegElem) :
    overwritten ((c.lanesFor d).flatMap (fun l => spread (dstElems d wide l) (f l))) c.g.settled e = c.result d wide f e := by
  cases e with
  | v r l =>
    by_cases hs : isSreg d = true
    · have h1 : ¬ d.toNat < 0xC0 := by have := (isSreg_iff.1 hs).1; omega
      rw [overwritten_flatMap _ _ _ _ (fun _ => False) 0 (fun x _ o => by rw [overwritten_spread_v]; simp [h1])]
      simp [Ctx.result, h1]
    · rw [overwritten_flatMap _ _ _ _
        (fun x => d.toNat < 0xC0 ∧ l = x ∧ (r = d.toNat ∨ wide = true ∧ r = d.toNat + 1))
        (if r = d.toNat then BitVec.ofNat 32 (f l) else BitVec.ofNat 32 (f l / 2 ^ 32))
        (fun x _ o => by
          rw [overwritten_spread_v]
          by_cases hx : l = x
          · subst hx; rfl
          · simp [hx])]
      simp only [Ctx.result, Ctx.lanesFor, hs, Bool.false_eq_true, if_false]
      by_cases hv : d.toNat < 0xC0 ∧ l < 32 ∧ c.takes l = true
      · have hm : l ∈ c.takers := mem_takers.2 hv.2
        by_cases hr : r = d.toNat
        · rw [if_pos ⟨l, hm, hv.1, rfl, .inl hr⟩, if_pos hr, if_pos ⟨hv.1, hv.2.1, hv.2.2, hr⟩]
        · by_cases hw : wide = true ∧ r = d.toNat + 1
          · rw [if_pos ⟨l, hm, hv.1, rfl, .inr hw⟩, if_neg hr, if_neg (fun h => hr h.2.2.2),
              if_pos ⟨hv.1, hv.2.1, hv.2.2, hw.1, hw.2⟩]
          · rw [if_neg, if_neg (fun h => hr h.2.2.2), if_neg (fun h => hw h.2.2.2)]
            rintro ⟨x, _, _, _, h | h⟩
            · exact hr h
            · exact hw h
      · rw [if_neg, if_neg (fun h => hv ⟨h.1, h.2.1, h.2.2.1⟩), if_neg (fun h => hv ⟨h.1, h.2.1, h.2.2.1⟩)]
        rintro ⟨x, hx, h1, h2, _⟩
        subst h2
        exact hv ⟨h1, mem_takers.1 hx⟩
  | s i =>
    by_cases hs : isSreg d = true
    · have hd := isSreg_iff.1 hs
      simp only [Ctx.result, Ctx.lanesFor, hs, if_true]
      by_cases ho : c.once = true
      · rw [if_pos ho, List.flatMap_singleton, overwritten_spread_s]
        have e1 : sreg d = d.toNat - 0xC0 := rfl
        rw [e1]
        obtain ⟨hd1, hd2⟩ := hd
        generalize d.toNat - 0xC0 = n
        by_cases hi : i = n
        · rw [if_pos ⟨hs, .inl hi⟩, if_pos hi, if_pos ⟨hd1, hd2, ho, hi⟩]
        · by_cases hw : wide = true ∧ i = n + 1
          · rw [if_pos ⟨hs, .inr hw⟩, if_neg hi, if_neg (fun h => hi h.2.2.2), if_pos ⟨hd1, hd2, ho, hw⟩]
          · rw [if_neg (fun h => h.2.elim hi hw), if_neg (fun h => hi h.2.2.2), if_neg (fun h => hw h.2.2.2)]
      · rw [if_neg ho, List.flatMap_nil, overwritten_nil]
        simp [ho]
    · rw [overwritten_flatMap _ _ _ _ (fun _ => False) 0 (fun x _ o => by rw [overwritten_spread_s]; simp [hs])]
      have h1 : ∀ P : Prop, ¬ (0xC0 ≤ d.toNat ∧ d.toNat < 0xF8 ∧ P) := fun P h => hs (isSreg_iff.2 ⟨h.1, h.2.1⟩)
      simp only [Ctx.result]
      rw [if_neg (by simp), if_neg (h1 _), if_neg (h1 _)]
  | p i l =>
    rw [overwritten_flatMap _ _ _ _ (fun _ => False) 0 (fun x _ o => by rw [overwritten_spread_p]; simp)]
    simp [Ctx.result]

theorem went_next (c : Ctx) (s : State) (g : Gang) (hg : g.groups = c.g.groups) :
    c.went s g (c.pc + 4) g.settled (c.next s g) := Ctx.went_nextAt c s g _ hg

/-- A word that changes nothing but the place of its group. -/
theorem Ctx.wrote_skip (c : Ctx) : c.wrote c.g.settled c.skip := went_next c c.s c.g rfl

theorem settled_with_acr (g : Gang) (a : Word) (e : RegElem) : Gang.settled { g with acr := a } e = g.settled e := by
  rw [Gang.settled_eq, Gang.settled_eq]
  cases e <;> rfl

theorem arith_eq (g : Gang) (srd : Bool) (fs : List Flags) :
    g.arith srd fs = { g with acr := (g.arith srd fs).acr } := rfl

/-- What a word raises, and what it leaves on its way, are no part of what registers hold before its results. -/
theorem settled_arith_launch (g : Gang) (srd : Bool) (fs : List Flags) (m : SliceMask) (lat : Nat) (rs : List RegRef)
    (e : RegElem) : ((g.arith srd fs).launch m lat rs).settled e = g.settled e :=
  (Gang.settled_launch _ m lat rs e).trans (settled_with_acr g _ e)

/-- A data instruction writes its destination and ACR, and nothing else (R114). -/
theorem Ctx.computed_data (c : Ctx) (lat : Nat) (d : RegField) (wide srd : Bool) (f : Nat → Nat × Flags) :
    c.computed d wide srd f (c.data lat d wide srd f) := by
  refine Ctx.went_congr ?_ ?_ (went_next c c.s _ ?_)
  · rw [Gang.rest_writeFixed]
    simp only [Gang.arith, Ctx.acrAfter, Ctx.raised, List.map_map, List.isEmpty_map]
    rfl
  · intro e
    rw [Gang.settled_writeFixed, List.flatMap_map]
    exact (overwritten_congr _ _ (fun e => settled_arith_launch _ _ _ _ _ _ e)).trans (overwritten_result c d wide _ e)
  · rfl
where
  overwritten_congr (ws : List (RegElem × Word)) (e : RegElem) {o o' : RegElem → Word} (h : ∀ e, o e = o' e) :
      overwritten ws o e = overwritten ws o' e := by
    simp only [overwritten, h]

theorem Flags.or_none (f : Flags) : Flags.or Flags.none f = f := by cases f; simp [Flags.or, Flags.none]

theorem Flags.orAll_const_none {α : Type} (l : List α) : Flags.orAll (l.map (fun _ => Flags.none)) = Flags.none := by
  unfold Flags.orAll
  induction l with
  | nil => rfl
  | cons x l ih => rw [List.map_cons, List.foldl_cons, Flags.or_none, ih]

@[simp] theorem Acr.set_none (a : Word) : Acr.set a Flags.none = a := by simp [Acr.set, Flags.none, Flags.toNat]

/-- A data instruction that raises no flag and does not round under srd writes its destination alone. -/
theorem Ctx.wrote_data (c : Ctx) (lat : Nat) (d : RegField) (wide : Bool) (f : Nat → Nat) :
    c.wrote (c.result d wide f) (c.data lat d wide false (fun l => (f l, Flags.none))) := by
  have h := c.computed_data lat d wide false (fun l => (f l, Flags.none))
  simp only [Ctx.computed, Ctx.acrAfter, Ctx.raised, Flags.orAll_const_none, Acr.set_none, Bool.false_and,
    Bool.false_eq_true, if_false] at h
  exact h

theorem overwritten_predResult (c : Ctx) (d : PredField) (f : Nat → Bool) (e : RegElem) :
    overwritten (if d.toNat = 63 then [] else c.takers.map (fun l => (RegElem.p d.toNat l, if f l then (1 : Word) else 0)))
      c.g.settled e = c.predResult d f e := by
  split
  · rename_i h
    cases e <;> simp [Ctx.predResult, h, overwritten]
  · rename_i h
    rw [← List.flatMap_pure_eq_map]
    cases e with
    | v r l =>
      rw [overwritten_flatMap _ _ _ _ (fun _ => False) 0 (fun x _ o => by simp [overwritten])]
      simp [Ctx.predResult]
    | s i =>
      rw [overwritten_flatMap _ _ _ _ (fun _ => False) 0 (fun x _ o => by simp [overwritten])]
      simp [Ctx.predResult]
    | p i l =>
      rw [overwritten_flatMap _ _ _ _ (fun x => d.toNat = i ∧ x = l) (if f l then 1 else 0) (fun x _ o => by
        by_cases hi : d.toNat = i
        · by_cases hx : x = l
          · subst hx
            have : i ≠ 63 := fun hh => h (hi.trans hh)
            cases hf : f x <;> simp [overwritten, hi, RegElem.holds, this, hf]
          · simp [overwritten, hx]
        · simp [overwritten, hi])]
      simp only [Ctx.predResult]
      by_cases hc : d.toNat ≠ 63 ∧ l < 32 ∧ c.takes l = true ∧ i = d.toNat
      · rw [if_pos hc, if_pos ⟨l, mem_takers.2 ⟨hc.2.1, hc.2.2.1⟩, hc.2.2.2.symm, rfl⟩]
      · rw [if_neg hc, if_neg]
        rintro ⟨x, hx, h1, h2⟩
        subst h2
        exact hc ⟨h, (mem_takers.1 hx).1, (mem_takers.1 hx).2, h1.symm⟩

/-- An instruction with a predicate destination writes it in the lanes that take effect, and ACR (R133). -/
theorem Ctx.went_predData (c : Ctx) (d : PredField) (f : Nat → Bool × Flags) :
    c.went c.s { c.g with acr := Acr.set c.g.acr (Flags.orAll (c.takers.map (fun l => (f l).2))) } (c.pc + 4)
      (c.predResult d (fun l => (f l).1)) (c.predData d f) := by
  refine Ctx.went_congr ?_ ?_ (went_next c c.s _ ?_)
  · rw [Gang.rest_writeFixed]
    simp only [Gang.arith, List.map_map, Bool.false_and, Bool.false_eq_true, if_false]
    rfl
  · intro e
    rw [Gang.settled_writeFixed]
    refine Eq.trans ?_ (overwritten_predResult c d (fun l => (f l).1) e)
    rw [List.map_map]
    exact Ctx.computed_data.overwritten_congr _ _ (fun e => settled_arith_launch _ _ _ _ _ _ e)
  · rfl

/-- The same where no flag is raised. -/
theorem Ctx.wrote_predData (c : Ctx) (d : PredField) (f : Nat → Bool) :
    c.wrote (c.predResult d f) (c.predData d (fun l => (f l, Flags.none))) := by
  have h := c.went_predData d (fun l => (f l, Flags.none))
  simp only [Flags.orAll_const_none, Acr.set_none] at h
  exact h

/-! ### Element patterns -/

theorem asInt_mod (sg : Bool) (w x : Nat) : asInt sg w (x % 2 ^ w) = asInt sg w x := by simp [asInt]

theorem elemInt_mod (t x : Nat) : elemInt t (x % 2 ^ ebits t) = elemInt t x := asInt_mod _ _ _

/-- The integer of a pattern, fitted without saturation, is the pattern (R96). -/
theorem fitElem_elemInt (t x : Nat) : fitElem t false (elemInt t x) = x % 2 ^ ebits t := by
  rw [← elemInt_mod]
  have h : x % 2 ^ ebits t < 2 ^ ebits t := Nat.mod_lt _ (Nat.two_pow_pos _)
  generalize x % 2 ^ ebits t = y at h ⊢
  unfold fitElem fitBits elemInt asInt
  simp only [Nat.mod_eq_of_lt h, Bool.false_eq_true, if_false]
  split
  · rw [Int.sub_emod_right, Int.emod_eq_of_lt (by omega) (by exact_mod_cast h), Int.toNat_natCast]
  · rw [Int.emod_eq_of_lt (by omega) (by exact_mod_cast h), Int.toNat_natCast]

/-! ### Completion of data instructions -/

/-- An instruction that runs Ctx.data without flags writes its destination alone, once no check stops it. -/
theorem gives_data {i : Instr} {s : State} {c : Ctx} {stop : Option Stop} {lat : Nat} {d : RegField} {w : Bool}
    {f f' : Nat → Nat} (he : exec i s = c.run stop (c.data lat d w false (fun l => (f l, Flags.none))))
    (h : stop = none) (hf : ∀ l, f l = f' l) : Gives i s (c.wrote (c.result d w f')) := by
  obtain rfl : f = f' := funext hf
  exact ⟨_, by rw [he, h]; rfl, Ctx.wrote_data _ _ _ _ _⟩

/-- The same with flags and rounding (R100). -/
theorem gives_computed {i : Instr} {s : State} {c : Ctx} {stop : Option Stop} {lat : Nat} {d : RegField} {w srd : Bool}
    {f f' : Nat → Nat × Flags} (he : exec i s = c.run stop (c.data lat d w srd f))
    (h : stop = none) (hf : ∀ l, f l = f' l) : Gives i s (c.computed d w srd f') := by
  obtain rfl : f = f' := funext hf
  exact ⟨_, by rw [he, h]; rfl, Ctx.computed_data _ _ _ _ _ _⟩

/-- The same for a predicate destination without flags (R133). -/
theorem gives_predData {i : Instr} {s : State} {c : Ctx} {stop : Option Stop} {d : PredField}
    {f f' : Nat → Bool} (he : exec i s = c.run stop (c.predData d (fun l => (f l, Flags.none))))
    (h : stop = none) (hf : ∀ l, f l = f' l) : Gives i s (c.wrote (c.predResult d f')) := by
  obtain rfl : f = f' := funext hf
  exact ⟨_, by rw [he, h]; rfl, Ctx.wrote_predData _ _ _⟩

end Sys2Proof.Machine
end

