-- ==== Sys2Proof/Laws/Float.lean ====
section
/-! SUPPORT. The arithmetic of floats against exact numbers: one rounding, the values of encodings, sums and products of two
values, conversions, order (R87-R105, R140-R150). -/

namespace Sys2Proof.Machine

/-- The rounding of m / 2^k, for a shift k within m's reach (R97, R99). -/
theorem roundShiftAt_rounds (r : RndEnv) (neg : Bool) (m k : Nat) :
    Rounds r neg ((m : ℚ) / 2 ^ k) (roundShiftAt r neg m k).1 := by
  have hk : (0 : ℚ) < 2 ^ k := by positivity
  have hf : ⌊(m : ℚ) / 2 ^ k⌋₊ = m / 2 ^ k := by
    have := Nat.floor_div_eq_div (K := ℚ) m (2 ^ k)
    simpa using this
  have hp : (m : ℚ) / 2 ^ k - (m / 2 ^ k : Nat) = ((m % 2 ^ k : Nat) : ℚ) / 2 ^ k := by
    have h := Nat.div_add_mod m (2 ^ k)
    have h' : (m : ℚ) = 2 ^ k * (m / 2 ^ k : Nat) + (m % 2 ^ k : Nat) := by exact_mod_cast h.symm
    rw [div_sub' (ne_of_gt hk), div_left_inj' (ne_of_gt hk)]
    linarith
  have hs : ⌊((m % 2 ^ k : Nat) : ℚ) / 2 ^ k * 65536⌋₊ = m % 2 ^ k * 65536 / 2 ^ k := by
    have := Nat.floor_div_eq_div (K := ℚ) (m % 2 ^ k * 65536) (2 ^ k)
    rw [← this]; congr 1; push_cast; ring
  unfold Rounds roundShiftAt
  simp only [hf, hp, hs]
  generalize m % 2 ^ k = rem
  generalize m / 2 ^ k = lo
  have h2 : ((rem : ℚ) / 2 ^ k < 1 / 2) ↔ 2 * rem < 2 ^ k := by
    rw [div_lt_iff₀ hk]; constructor
    · intro h; have : (2 * rem : ℚ) < 2 ^ k := by linarith
      exact_mod_cast this
    · intro h; have : (2 * rem : ℚ) < 2 ^ k := by exact_mod_cast h
      linarith
  have h3 : (1 / 2 < (rem : ℚ) / 2 ^ k) ↔ 2 ^ k < 2 * rem := by
    rw [lt_div_iff₀ hk]; constructor
    · intro h; have : (2 ^ k : ℚ) < 2 * rem := by linarith
      exact_mod_cast this
    · intro h; have : (2 ^ k : ℚ) < 2 * rem := by exact_mod_cast h
      linarith
  have h4 : ((rem : ℚ) / 2 ^ k = 0) ↔ rem = 0 := by
    rw [div_eq_zero_iff]; simp
  have h5 : ((rem : ℚ) / 2 ^ k = 1 / 2) ↔ 2 * rem = 2 ^ k := by
    rw [div_eq_div_iff (ne_of_gt hk) (by norm_num)]; constructor
    · intro h; have : (2 * rem : ℚ) = 2 ^ k := by linarith
      exact_mod_cast this
    · intro h; have : (2 * rem : ℚ) = 2 ^ k := by exact_mod_cast h
      linarith
  simp only [h2, h3, h4, h5]
  by_cases h0 : rem = 0
  · simp [h0]
  · simp only [h0, if_false]
    have h6 : lo % 2 = 0 ∨ lo % 2 = 1 := by omega
    rcases r with ⟨rnd, draw, ftz⟩
    rcases lt_trichotomy (2 * rem) (2 ^ k) with h | h | h
    · have a : ¬ 2 ^ k < 2 * rem := by omega
      have b : ¬ 2 * rem = 2 ^ k := by omega
      have c : ¬ 2 ^ k ≤ 2 * rem := by omega
      cases rnd <;> cases neg <;> simp [a, b, c, h]
    · have a : ¬ 2 ^ k < 2 * rem := by omega
      have b : ¬ 2 * rem < 2 ^ k := by omega
      have c : 2 ^ k ≤ 2 * rem := by omega
      rcases h6 with d | d <;> have e : (lo + 1) % 2 = 1 - lo % 2 := by omega
      all_goals cases rnd <;> cases neg <;> simp_all
    · have a : ¬ 2 * rem < 2 ^ k := by omega
      have b : ¬ 2 * rem = 2 ^ k := by omega
      have c : 2 ^ k ≤ 2 * rem := by omega
      cases rnd <;> cases neg <;> simp [a, b, c, h]

/-- Magnitudes below any boundary round alike. -/
theorem rounds_tiny {r : RndEnv} {neg : Bool} {x y : ℚ} {u : Nat} (hx : 0 < x) (hx' : x < 1 / 131072)
    (hy : 0 < y) (hy' : y < 1 / 131072) (h : Rounds r neg x u) : Rounds r neg y u := by
  have fx : ⌊x⌋₊ = 0 := Nat.floor_eq_zero.2 (by linarith)
  have fy : ⌊y⌋₊ = 0 := Nat.floor_eq_zero.2 (by linarith)
  have gx : ⌊x * 65536⌋₊ = 0 := Nat.floor_eq_zero.2 (by linarith)
  have gy : ⌊y * 65536⌋₊ = 0 := Nat.floor_eq_zero.2 (by linarith)
  have a : ∀ z : ℚ, 0 < z → z < 1 / 131072 → z < 1 / 2 ∧ ¬ 1 / 2 < z ∧ z ≠ 1 / 2 ∧ z ≠ 0 := fun z h0 h1 =>
    ⟨by linarith, by linarith, by intro h; linarith, ne_of_gt h0⟩
  obtain ⟨a1, a2, a3, a4⟩ := a x hx hx'
  obtain ⟨b1, b2, b3, b4⟩ := a y hy hy'
  revert h
  unfold Rounds
  simp only [fx, fy, Nat.cast_zero, sub_zero, gx, gy, a1, a2, a3, a4, b1, b2, b3, b4]
  exact id

/-- The rounding of m / 2^k (R97, R99). -/
theorem roundShift_rounds (r : RndEnv) (neg : Bool) {m : Nat} (hm : m ≠ 0) (k : Nat) :
    Rounds r neg ((m : ℚ) / 2 ^ k) (roundShift r neg m k).1 ∧
      ((roundShift r neg m k).2 = true ↔ ((roundShift r neg m k).1 : ℚ) ≠ (m : ℚ) / 2 ^ k) := by
  have whole : ∀ j, (roundShiftAt r neg m j).2 = true ↔ ∀ u : Nat, (u : ℚ) ≠ (m : ℚ) / 2 ^ j := fun j => by
    have e : (roundShiftAt r neg m j).2 = true ↔ m % 2 ^ j ≠ 0 := by
      unfold roundShiftAt
      by_cases h : m % 2 ^ j = 0 <;> simp [h]
    rw [e, not_iff_comm, not_forall]
    constructor
    · rintro ⟨u, hu⟩
      rw [not_not, eq_div_iff (by positivity)] at hu
      have : m = u * 2 ^ j := by exact_mod_cast hu.symm
      rw [this, Nat.mul_mod_left]
    · intro h
      refine ⟨m / 2 ^ j, not_not.2 ?_⟩
      rw [eq_div_iff (by positivity)]
      exact_mod_cast Nat.div_mul_cancel (Nat.dvd_of_mod_eq_zero h)
  have lands : ∀ j, (roundShiftAt r neg m j).2 = false → ((roundShiftAt r neg m j).1 : ℚ) = (m : ℚ) / 2 ^ j := fun j h => by
    unfold roundShiftAt at h ⊢
    by_cases h' : m % 2 ^ j = 0
    · rw [if_pos h', eq_div_iff (by positivity)]
      exact_mod_cast Nat.div_mul_cancel (Nat.dvd_of_mod_eq_zero h')
    · simp [h'] at h
  have at_ : roundShift r neg m k = roundShiftAt r neg m (min k (Nat.log2 m + 64)) := rfl
  have hl : (m : ℚ) < 2 ^ (Nat.log2 m + 1) := by exact_mod_cast Nat.lt_log2_self
  have small : ∀ j, Nat.log2 m + 64 ≤ j → (m : ℚ) / 2 ^ j < 1 / 131072 := fun j hj => by
    rw [div_lt_iff₀ (by positivity)]
    have : (2 : ℚ) ^ (Nat.log2 m + 1 + 63) ≤ 2 ^ j := pow_le_pow_right₀ (by norm_num) (by omega)
    rw [pow_add] at this
    have h : (0 : ℚ) < 2 ^ (Nat.log2 m + 1) := by positivity
    linarith
  have pos : ∀ j, 0 < (m : ℚ) / 2 ^ j := fun j => by
    have : (0 : ℚ) < m := by exact_mod_cast Nat.pos_of_ne_zero hm
    positivity
  rw [at_]
  rcases Nat.le_total k (Nat.log2 m + 64) with h | h
  · rw [min_eq_left h]
    refine ⟨roundShiftAt_rounds r neg m k, ?_, ?_⟩
    · intro h; exact (whole k).1 h _
    · intro h
      by_contra hc
      exact h (lands k (by simpa using hc))
  · rw [min_eq_right h]
    have none : ∀ j, Nat.log2 m + 64 ≤ j → ∀ u : Nat, (u : ℚ) ≠ (m : ℚ) / 2 ^ j := fun j hj u hu => by
      have a := small j hj
      have b := pos j
      rw [← hu] at a b
      have c : 0 < u := by exact_mod_cast b
      have d : (1 : ℚ) ≤ u := by exact_mod_cast c
      linarith
    have far := (whole _).2 (none _ (le_refl (Nat.log2 m + 64)))
    exact ⟨rounds_tiny (pos _) (small _ (le_refl _)) (pos k) (small k h) (roundShiftAt_rounds r neg m _), fun _ => none k h _, fun _ => far⟩

/-- A whole number is its own rounding. -/
theorem rounds_nat (r : RndEnv) (neg : Bool) (n : Nat) : Rounds r neg (n : ℚ) n := by simp [Rounds]

theorem Rounds.floor_le {r neg x u} (h : Rounds r neg x u) : ⌊x⌋₊ ≤ u ∧ u ≤ ⌊x⌋₊ + 1 := by
  unfold Rounds at h
  simp only at h
  split at h
  · omega
  · split at h
    · omega
    · omega
    · split at h <;> omega
    · omega
    · split at h <;> omega
    · split at h <;> omega
    · split at h <;> omega

theorem Rounds.le {r neg x u} (h : Rounds r neg x u) {n : Nat} (hn : (n : ℚ) ≤ x) : n ≤ u :=
  le_trans (Nat.le_floor hn) h.floor_le.1

theorem Rounds.lt {r neg x u} (h : Rounds r neg x u) (h0 : 0 ≤ x) {n : Nat} (hn : x < n) : u ≤ n := by
  have := (Nat.floor_lt h0).2 hn
  have := h.floor_le.2
  omega

/-- The magnitude of a finite code, in units of the smallest subnormal. -/
def Fmt.size (f : Fmt) (c : Nat) : Nat :=
  if c / 2 ^ f.mb = 0 then c else (2 ^ f.mb + c % 2 ^ f.mb) * 2 ^ (c / 2 ^ f.mb - 1)

theorem Fmt.size_succ (f : Fmt) (c : Nat) : f.size c < f.size (c + 1) := by
  obtain ⟨k, j, hj, rfl⟩ : ∃ k j, j < 2 ^ f.mb ∧ c = k * 2 ^ f.mb + j :=
    ⟨c / 2 ^ f.mb, c % 2 ^ f.mb, Nat.mod_lt _ (by positivity), by rw [Nat.mul_comm]; exact (Nat.div_add_mod _ _).symm⟩
  have hp : 0 < 2 ^ f.mb := by positivity
  have a : (k * 2 ^ f.mb + j) / 2 ^ f.mb = k := by
    rw [Nat.add_comm, Nat.add_mul_div_right _ _ hp, Nat.div_eq_of_lt hj, Nat.zero_add]
  have b : (k * 2 ^ f.mb + j) % 2 ^ f.mb = j := by
    rw [Nat.add_comm, Nat.add_mul_mod_self_right, Nat.mod_eq_of_lt hj]
  unfold Fmt.size
  rw [a, b]
  by_cases h : j + 1 < 2 ^ f.mb
  · have a' : (k * 2 ^ f.mb + j + 1) / 2 ^ f.mb = k := by
      rw [Nat.add_assoc, Nat.add_comm, Nat.add_mul_div_right _ _ hp, Nat.div_eq_of_lt h, Nat.zero_add]
    have b' : (k * 2 ^ f.mb + j + 1) % 2 ^ f.mb = j + 1 := by
      rw [Nat.add_assoc, Nat.add_comm, Nat.add_mul_mod_self_right, Nat.mod_eq_of_lt h]
    rw [a', b']
    split
    · omega
    · exact Nat.mul_lt_mul_of_pos_right (by omega) (by positivity)
  · have e' : (k + 1) * 2 ^ f.mb = k * 2 ^ f.mb + 2 ^ f.mb := by ring
    have e : k * 2 ^ f.mb + j + 1 = (k + 1) * 2 ^ f.mb := by rw [e']; omega
    rw [e, Nat.mul_div_cancel _ hp, Nat.mul_mod_left, if_neg (Nat.succ_ne_zero k)]
    rcases k with _ | k
    · simp only [if_true, Nat.zero_mul, Nat.zero_add, Nat.sub_self, pow_zero, Nat.mul_one, Nat.add_zero]; exact hj
    · simp only [Nat.add_sub_cancel, if_neg (Nat.succ_ne_zero _), pow_succ]
      have : 0 < 2 ^ k := by positivity
      nlinarith

theorem Fmt.size_lt (f : Fmt) : StrictMono f.size := strictMono_nat_of_lt_succ f.size_succ

theorem Fmt.size_code (f : Fmt) {k u : Nat} (h : k = 0 ∨ 2 ^ f.mb ≤ u) (hu : u ≤ 2 ^ (f.mb + 1)) :
    f.size (k * 2 ^ f.mb + u) = u * 2 ^ k := by
  have hp : 0 < 2 ^ f.mb := by positivity
  rw [pow_succ] at hu
  unfold Fmt.size
  rcases Nat.lt_or_ge u (2 ^ f.mb) with h1 | h1
  · obtain rfl : k = 0 := by omega
    simp [Nat.div_eq_of_lt h1]
  · rcases Nat.lt_or_ge u (2 ^ f.mb * 2) with h2 | h2
    · have e : k * 2 ^ f.mb + u = (u - 2 ^ f.mb) + (k + 1) * 2 ^ f.mb := by rw [Nat.add_mul]; omega
      rw [e, Nat.add_mul_div_right _ _ hp, Nat.div_eq_of_lt (by omega), Nat.add_mul_mod_self_right, Nat.mod_eq_of_lt (by omega)]
      rw [if_neg (by omega), Nat.zero_add, Nat.add_sub_cancel, Nat.add_sub_cancel' h1]
    · obtain rfl : u = 2 ^ f.mb * 2 := by omega
      have e : k * 2 ^ f.mb + 2 ^ f.mb * 2 = (k + 2) * 2 ^ f.mb := by ring
      rw [e, Nat.mul_div_cancel _ hp, Nat.mul_mod_left]
      simp [pow_succ]; ring

/-- A finite code stands for its size times the smallest subnormal (R87, Table 4.1). -/
theorem Fmt.decode_code (f : Fmt) (he : 1 ≤ f.eb) (neg : Bool) {c : Nat} (hc : c ≤ f.maxBits) :
    ∃ k e, f.decode (f.signBit neg + c) = .num neg k e ∧ (k : ℚ) * 2 ^ e = f.size c * 2 ^ (f.emin - f.mb) := by
  have hp : 0 < 2 ^ f.mb := by positivity
  have hq : 2 ≤ 2 ^ f.eb := by calc 2 = 2 ^ 1 := rfl
    _ ≤ _ := Nat.pow_le_pow_right (by norm_num) he
  have hs : 2 ^ (f.eb + f.mb) = 2 ^ f.eb * 2 ^ f.mb := pow_add _ _ _
  have hlt : c < 2 ^ f.eb * 2 ^ f.mb := by
    have h1 : (2 ^ f.eb - 1) * 2 ^ f.mb ≤ 2 ^ f.eb * 2 ^ f.mb := Nat.mul_le_mul_right _ (by omega)
    have h2 : 0 < (2 ^ f.eb - 1) * 2 ^ f.mb := Nat.mul_pos (by omega) hp
    unfold Fmt.maxBits at hc
    rw [hs] at hc
    split at hc
    · omega
    · split at hc <;> omega
  have s0 : f.signBit neg = (if neg then 1 else 0) * 2 ^ f.eb * 2 ^ f.mb := by
    unfold Fmt.signBit; rw [hs]; cases neg <;> simp
  have d1 : (f.signBit neg + c) / 2 ^ (f.eb + f.mb) % 2 = if neg then 1 else 0 := by
    rw [s0, hs, Nat.mul_assoc, Nat.add_comm, Nat.add_mul_div_right _ _ (by positivity), Nat.div_eq_of_lt hlt]
    cases neg <;> rfl
  have d2 : (f.signBit neg + c) / 2 ^ f.mb % 2 ^ f.eb = c / 2 ^ f.mb := by
    rw [s0, Nat.add_comm, Nat.add_mul_div_right _ _ hp, Nat.add_mul_mod_self_right,
      Nat.mod_eq_of_lt (Nat.div_lt_of_lt_mul (by rw [Nat.mul_comm]; exact hlt))]
  have d3 : (f.signBit neg + c) % 2 ^ f.mb = c % 2 ^ f.mb := by
    rw [s0, Nat.add_comm, Nat.add_mul_mod_self_right]
  have n1 : (f.inf && c / 2 ^ f.mb == 2 ^ f.eb - 1) = false := by
    cases hi : f.inf
    · rfl
    · simp only [Fmt.maxBits, hi, if_true] at hc
      have : 0 < (2 ^ f.eb - 1) * 2 ^ f.mb := Nat.mul_pos (by omega) hp
      have : c / 2 ^ f.mb < 2 ^ f.eb - 1 := Nat.div_lt_of_lt_mul (by rw [Nat.mul_comm]; omega)
      simp; omega
  have n2 : (f.nanOnes && c / 2 ^ f.mb == 2 ^ f.eb - 1 && c % 2 ^ f.mb == 2 ^ f.mb - 1) = false := by
    cases hn : f.nanOnes
    · rfl
    · rw [Bool.true_and, Bool.and_eq_false_iff]
      by_contra hcon
      simp only [not_or, Bool.not_eq_false, beq_iff_eq] at hcon
      have e := Nat.div_add_mod c (2 ^ f.mb)
      rw [hcon.1, hcon.2, Nat.mul_comm, Nat.sub_mul] at e
      cases hi : f.inf
      · have h4 : 2 * 1 ≤ 2 ^ f.eb * 2 ^ f.mb := Nat.mul_le_mul hq hp
        have h5 : 1 * 2 ^ f.mb ≤ 2 ^ f.eb * 2 ^ f.mb := Nat.mul_le_mul_right _ (by omega)
        simp only [Fmt.maxBits, hi, hn, hs] at hc
        simp at hc
        omega
      · simp [hi, hcon.1] at n1
  have b : ∀ z : Int, (2 : ℚ) ^ (f.emin - f.mb + z) = 2 ^ z * 2 ^ (f.emin - f.mb) := fun z => by
    rw [zpow_add₀ (by norm_num), mul_comm]
  unfold Fmt.decode Fmt.size
  simp only [d1, d2, d3, n1, n2]
  have sg : ((if neg = true then (1 : Nat) else 0) == 1) = neg := by cases neg <;> rfl
  by_cases h0 : c / 2 ^ f.mb = 0
  · refine ⟨c % 2 ^ f.mb, _, by simp [h0, sg]; rfl, ?_⟩
    have : c % 2 ^ f.mb = c := Nat.mod_eq_of_lt ((Nat.div_eq_zero_iff_lt hp).1 h0)
    rw [if_pos h0, this]
  · refine ⟨2 ^ f.mb + c % 2 ^ f.mb, _, by simp [h0, sg]; rfl, ?_⟩
    rw [if_neg h0, b]
    have : ((c / 2 ^ f.mb : Nat) : Int) - 1 = ((c / 2 ^ f.mb - 1 : Nat) : Int) := by omega
    have this' : (c : Int) / 2 ^ f.mb - 1 = ((c / 2 ^ f.mb - 1 : Nat) : Int) := by rw [← this]; push_cast; rfl
    rw [this', zpow_natCast, Nat.cast_mul, Nat.cast_pow, Nat.cast_ofNat, mul_assoc]

/-- The exponent of a magnitude is unique. -/
theorem expo_unique {m : Nat} (hm : m ≠ 0) {e E : Int} (h1 : (2 : ℚ) ^ E ≤ m * 2 ^ e) (h2 : (m : ℚ) * 2 ^ e < 2 ^ (E + 1)) :
    E = (Nat.log2 m : Int) + e := by
  have a : (2 : ℚ) ^ Nat.log2 m ≤ m := by exact_mod_cast Nat.log2_self_le hm
  have b : (m : ℚ) < 2 ^ (Nat.log2 m + 1) := by exact_mod_cast Nat.lt_log2_self
  have p : (0 : ℚ) < 2 ^ e := by positivity
  have a' : (2 : ℚ) ^ ((Nat.log2 m : Int) + e) ≤ m * 2 ^ e := by
    rw [zpow_add₀ (by norm_num), zpow_natCast]; exact mul_le_mul_of_nonneg_right a p.le
  have b' : (m : ℚ) * 2 ^ e < 2 ^ ((Nat.log2 m : Int) + e + 1) := by
    rw [show (Nat.log2 m : Int) + e + 1 = ((Nat.log2 m + 1 : Nat) : Int) + e by push_cast; ring, zpow_add₀ (by norm_num), zpow_natCast]
    exact mul_lt_mul_of_pos_right b p
  have c := (zpow_lt_zpow_iff_right₀ (a := (2 : ℚ)) (by norm_num)).1 (lt_of_le_of_lt h1 b')
  have d := (zpow_lt_zpow_iff_right₀ (a := (2 : ℚ)) (by norm_num)).1 (lt_of_le_of_lt a' h2)
  omega

theorem roundTo_rounds (r : RndEnv) (neg : Bool) {m : Nat} (hm : m ≠ 0) (e p : Int) :
    Rounds r neg ((m : ℚ) * 2 ^ e / 2 ^ p) (roundTo r neg m e p).1 ∧
      ((roundTo r neg m e p).2 = true ↔ ((roundTo r neg m e p).1 : ℚ) ≠ (m : ℚ) * 2 ^ e / 2 ^ p) := by
  have q : (m : ℚ) * 2 ^ e / 2 ^ p = m / 2 ^ (p - e) := by
    rw [zpow_sub₀ (by norm_num)]; field_simp
  rw [q]
  unfold roundTo
  split
  · rename_i h
    have : (m : ℚ) / 2 ^ (p - e) = (m * 2 ^ (-(p - e)).toNat : Nat) := by
      rw [div_eq_mul_inv, ← zpow_neg, show -(p - e) = (((-(p - e)).toNat : Nat) : Int) by omega, zpow_natCast]
      rw [Nat.cast_mul, Nat.cast_pow, Nat.cast_ofNat, Int.toNat_natCast]
    rw [this]
    exact ⟨rounds_nat _ _ _, by simp⟩
  · rename_i h
    rw [show p - e = (((p - e).toNat : Nat) : Int) by omega, zpow_natCast, Int.toNat_natCast]
    exact roundShift_rounds r neg hm _

theorem Fmt.round_eq (f : Fmt) (r : RndEnv) (neg : Bool) {m : Nat} (hm : m ≠ 0) (e : Int) :
    f.round r neg m e =
      let E : Int := (Nat.log2 m : Int) + e
      let E' := max E f.emin
      let u := roundTo r neg m e (E' - f.mb)
      let w := roundTo r neg m e (E - f.mb)
      let tiny := decide (E < f.emin) && !(decide (E = f.emin - 1) && w.1 == 2 ^ (f.mb + 1))
      let code := (E' - f.emin).toNat * 2 ^ f.mb + u.1
      if tiny && r.ftz then (f.signBit neg, ⟨false, false, false, true, true⟩)
      else if f.maxBits < code then (f.signBit neg + f.overflowBits r neg, ⟨false, false, true, false, true⟩)
      else (f.signBit neg + code, ⟨false, false, false, tiny && u.2, u.2⟩) := by
  simp only [Fmt.round, if_neg hm]

theorem Fmt.overflowBits_inf (f : Fmt) {r : RndEnv} {neg : Bool} (h : f.overflowsToInf r neg) :
    f.overflowBits r neg = f.infBits := by
  obtain ⟨h, h1 | h1 | h1 | ⟨h1, rfl⟩ | ⟨h1, rfl⟩⟩ := h <;> simp [Fmt.overflowBits, h, h1]

theorem Fmt.overflowBits_max (f : Fmt) {r : RndEnv} {neg : Bool} (h : ¬ f.overflowsToInf r neg) :
    f.overflowBits r neg = f.maxBits := by
  unfold Fmt.overflowBits
  split
  · rename_i h1
    simp only [Fmt.overflowsToInf, h1, true_and, not_or, not_and, Bool.not_eq_false, Bool.not_eq_true] at h
    obtain ⟨a, b, c, d, e⟩ := h
    cases hr : r.rnd <;> simp_all
  · rfl

/-- The one rounding is the rounding of R97, R98, R104 and R105. -/
theorem Fmt.round_rounded (f : Fmt) (he : 1 ≤ f.eb) (r : RndEnv) (neg : Bool) (m : Nat) (e : Int) :
    f.Rounded r neg (m * 2 ^ e) (f.round r neg m e) := by
  refine ⟨fun h => ?_, fun E h1 h2 => ?_⟩
  · have : m = 0 := by
      rcases mul_eq_zero.1 h with h | h
      · exact_mod_cast h
      · exact absurd h (by positivity)
    simp [Fmt.round, this]
  · have hm : m ≠ 0 := by
      rintro rfl
      have : (0 : ℚ) < 2 ^ E := by positivity
      simp at h1; linarith
    obtain rfl := expo_unique hm h1 h2
    have hr := f.round_eq r neg hm e
    set E : Int := (Nat.log2 m : Int) + e with hE
    set x : ℚ := m * 2 ^ e with hx
    obtain ⟨hu, hu'⟩ := roundTo_rounds r neg hm e (max E f.emin - f.mb)
    obtain ⟨hw, -⟩ := roundTo_rounds r neg hm e (E - f.mb)
    set u := roundTo r neg m e (max E f.emin - f.mb)
    set w := roundTo r neg m e (E - f.mb)
    rw [← hx] at hu hw hu'
    replace hr : f.round r neg m e =
      if (decide (E < f.emin) && !(decide (E = f.emin - 1) && w.1 == 2 ^ (f.mb + 1))) && r.ftz then
        (f.signBit neg, ⟨false, false, false, true, true⟩)
      else if f.maxBits < (max E f.emin - f.emin).toNat * 2 ^ f.mb + u.1 then
        (f.signBit neg + f.overflowBits r neg, ⟨false, false, true, false, true⟩)
      else (f.signBit neg + ((max E f.emin - f.emin).toNat * 2 ^ f.mb + u.1), ⟨false, false, false,
        (decide (E < f.emin) && !(decide (E = f.emin - 1) && w.1 == 2 ^ (f.mb + 1))) && u.2, u.2⟩) := hr
    have x0 : 0 ≤ x := by positivity
    have zp : ∀ z : Int, (0 : ℚ) < 2 ^ z := fun z => by positivity
    have sc : ∀ a b : Int, (2 : ℚ) ^ a / 2 ^ b = 2 ^ (a - b) := fun a b => (zpow_sub₀ (by norm_num) a b).symm
    have w1 : 2 ^ f.mb ≤ w.1 := hw.le (by
      rw [le_div_iff₀ (zp _)]; push_cast
      rw [← zpow_natCast, ← zpow_add₀ (by norm_num)]
      simpa using h1)
    have w2 : w.1 ≤ 2 ^ (f.mb + 1) := hw.lt (by positivity) (by
      rw [div_lt_iff₀ (zp _)]; push_cast
      rw [← zpow_natCast, ← zpow_add₀ (by norm_num)]
      rw [show ((f.mb + 1 : Nat) : Int) + (E - f.mb) = E + 1 by push_cast; ring]; exact h2)
    have u2 : u.1 ≤ 2 ^ (f.mb + 1) := hu.lt (by positivity) (by
      rw [div_lt_iff₀ (zp _)]; push_cast
      rw [← zpow_natCast, ← zpow_add₀ (by norm_num)]
      refine lt_of_lt_of_le h2 (zpow_le_zpow_right₀ (by norm_num) ?_)
      push_cast; omega)
    have u1 : (max E f.emin - f.emin).toNat = 0 ∨ 2 ^ f.mb ≤ u.1 := by
      rcases le_total E f.emin with h | h
      · left; rw [max_eq_right h]; simp
      · right
        have : u = w := by simp only [u, w, max_eq_left h]
        rw [this]; exact w1
    have tiny : (decide (E < f.emin) && !(decide (E = f.emin - 1) && w.1 == 2 ^ (f.mb + 1))) = true ↔
        (w.1 : ℚ) * 2 ^ (E - f.mb) < 2 ^ f.emin := by
      rw [← lt_div_iff₀ (zp _), sc]
      have wc1 : (2 : ℚ) ^ (f.mb : Int) ≤ w.1 := by rw [zpow_natCast]; exact_mod_cast w1
      have wc2 : (w.1 : ℚ) ≤ 2 ^ ((f.mb : Int) + 1) := by
        rw [show (f.mb : Int) + 1 = ((f.mb + 1 : Nat) : Int) by push_cast; rfl, zpow_natCast]; exact_mod_cast w2
      rcases lt_trichotomy E (f.emin - 1) with h | h | h
      · have : (2 : ℚ) ^ ((f.mb : Int) + 1) < 2 ^ (f.emin - (E - f.mb)) := zpow_lt_zpow_right₀ (by norm_num) (by omega)
        have h1 : E < f.emin := by omega
        have h2 : ¬ E = f.emin - 1 := by omega
        simp only [h1, h2, decide_true, decide_false, Bool.false_and, Bool.not_false, Bool.and_self, true_iff]
        exact lt_of_le_of_lt wc2 this
      · have h1 : E < f.emin := by omega
        have : (2 : ℚ) ^ (f.emin - (E - f.mb)) = (2 ^ (f.mb + 1) : Nat) := by
          rw [show f.emin - (E - f.mb) = ((f.mb + 1 : Nat) : Int) by push_cast; omega, zpow_natCast]; push_cast; rfl
        rw [this, Nat.cast_lt]
        rw [decide_eq_true h1, decide_eq_true h, Bool.true_and, Bool.true_and, Bool.not_eq_true', beq_eq_false_iff_ne]
        omega
      · have : (2 : ℚ) ^ (f.emin - (E - f.mb)) ≤ 2 ^ (f.mb : Int) := zpow_le_zpow_right₀ (by norm_num) (by omega)
        have h1 : ¬ E < f.emin := by omega
        simp only [h1, decide_false, Bool.false_and, Bool.false_eq_true, false_iff, not_lt]
        exact le_trans this wc1
    obtain ⟨km, em, hmx, hmx'⟩ := f.decode_code he false (le_refl f.maxBits)
    have sg : f.signBit false = 0 := rfl
    have size : (u.1 : ℚ) * 2 ^ (max E f.emin - f.mb) =
        f.size ((max E f.emin - f.emin).toNat * 2 ^ f.mb + u.1) * 2 ^ (f.emin - f.mb) := by
      rw [f.size_code u1 u2]
      push_cast
      rw [mul_assoc, ← zpow_natCast, ← zpow_add₀ (by norm_num)]
      congr 2
      omega
    have code : ((max E f.emin - f.emin).toNat * 2 ^ f.mb + u.1 ≤ f.maxBits ↔
        (u.1 : ℚ) * 2 ^ (max E f.emin - f.mb) ≤ f.largest) := by
      rw [sg, Nat.zero_add] at hmx
      rw [Fmt.largest, hmx, size, ← f.size_lt.le_iff_le]
      simp only [Val.rat, Bool.false_eq_true, if_false, one_mul, hmx']
      rw [mul_le_mul_iff_of_pos_right (zp _), Nat.cast_le]
    refine ⟨u.1, w.1, hu, hw, fun t => ?_, fun nt => ⟨fun o => ?_, fun o => ?_⟩⟩
    · rw [hr, tiny.2 t.1, t.2]; rfl
    · have c : f.maxBits < (max E f.emin - f.emin).toNat * 2 ^ f.mb + u.1 := not_le.1 fun h => absurd (code.1 h) (not_le.2 o)
      have t : ¬ ((decide (E < f.emin) && !(decide (E = f.emin - 1) && w.1 == 2 ^ (f.mb + 1))) && r.ftz) = true := by
        rw [Bool.and_eq_true, tiny]; exact nt
      rw [hr, if_neg t, if_pos c]
      exact ⟨rfl, fun h => by rw [f.overflowBits_inf h], fun h => by rw [f.overflowBits_max h]⟩
    · have c := not_lt.2 (code.2 o)
      have t : ¬ ((decide (E < f.emin) && !(decide (E = f.emin - 1) && w.1 == 2 ^ (f.mb + 1))) && r.ftz) = true := by
        rw [Bool.and_eq_true, tiny]; exact nt
      rw [hr, if_neg t, if_neg c]
      obtain ⟨k, e', h1, h2⟩ := f.decode_code he neg (code.2 o)
      have un : u.2 = true ↔ (u.1 : ℚ) * 2 ^ (max E f.emin - f.mb) ≠ x := by
        rw [hu', ne_eq, ne_eq, eq_div_iff (zp _).ne']
      exact ⟨k, e', _, _, h1, by rw [h2, size], rfl, by rw [Bool.and_eq_true, tiny, un], un⟩


/-! ### Exact values -/

@[simp] theorem Val.isNan_num (n : Bool) (m : Nat) (e : Int) : (Val.num n m e).isNan = false := rfl
@[simp] theorem Val.isInf_num (n : Bool) (m : Nat) (e : Int) : (Val.num n m e).isInf = false := rfl
@[simp] theorem Val.isSnan_num (n : Bool) (m : Nat) (e : Int) : (Val.num n m e).isSnan = false := rfl
@[simp] theorem Val.isZero_num (n : Bool) (m : Nat) (e : Int) : (Val.num n m e).isZero = (m == 0) := rfl
@[simp] theorem Val.neg_num (n : Bool) (m : Nat) (e : Int) : (Val.num n m e).neg = n := rfl
@[simp] theorem Val.isNan_inf (n : Bool) : (Val.inf n).isNan = false := rfl
@[simp] theorem Val.isInf_inf (n : Bool) : (Val.inf n).isInf = true := rfl
@[simp] theorem Val.isSnan_inf (n : Bool) : (Val.inf n).isSnan = false := rfl
@[simp] theorem Val.isZero_inf (n : Bool) : (Val.inf n).isZero = false := rfl
@[simp] theorem Val.neg_inf (n : Bool) : (Val.inf n).neg = n := rfl
@[simp] theorem Val.isNan_nan (s : Bool) : (Val.nan s).isNan = true := rfl
@[simp] theorem Val.isInf_nan (s : Bool) : (Val.nan s).isInf = false := rfl
@[simp] theorem Val.isSnan_nan (s : Bool) : (Val.nan s).isSnan = s := rfl
@[simp] theorem Val.isZero_nan (s : Bool) : (Val.nan s).isZero = false := rfl
@[simp] theorem Val.neg_nan (s : Bool) : (Val.nan s).neg = false := rfl

theorem signedAt_rat (neg : Bool) (m : Nat) {e e0 : Int} (h : e0 ≤ e) :
    (signedAt neg m e e0 : ℚ) * 2 ^ e0 = (if neg then -1 else 1) * m * (2 : ℚ) ^ e := by
  have : (2 : ℚ) ^ e = 2 ^ (e - e0).toNat * 2 ^ e0 := by
    rw [← zpow_natCast, ← zpow_add₀ (by norm_num)]; congr 1; omega
  rw [this]
  unfold signedAt
  cases neg <;> push_cast <;> simp <;> ring

theorem Val.ofInt_rat (x : Int) (e : Int) (z : Bool) : (Val.ofInt x e z).rat = x * 2 ^ e := by
  unfold Val.ofInt Val.rat
  have : (x : ℚ) = (if x < 0 then -1 else 1) * (x.natAbs : ℚ) := by
    split
    · rename_i h
      have : (x.natAbs : Int) = -x := by omega
      have : (x.natAbs : ℚ) = -x := by rw [← Int.cast_natCast, this]; push_cast; rfl
      rw [this]; ring
    · rename_i h
      have : (x.natAbs : Int) = x := by omega
      have : (x.natAbs : ℚ) = x := by rw [← Int.cast_natCast, this]
      rw [this]; ring
  by_cases h : x = 0
  · simp [h]
  · simp only [if_neg h, decide_eq_true_eq]
    rw [← this]

theorem Val.rat_neg {v : Val} (h : v.rat ≠ 0) : v.neg = decide (v.rat < 0) := by
  rcases v with ⟨n, m, e⟩ | n | n
  · have p : (0 : ℚ) < 2 ^ e := by positivity
    have m0 : (0 : ℚ) < m := by
      rcases Nat.eq_zero_or_pos m with rfl | h1
      · simp [Val.rat] at h
      · exact_mod_cast h1
    have : 0 < (m : ℚ) * 2 ^ e := by positivity
    cases n <;> simp [Val.rat, Val.neg]
    · positivity
    · linarith
  · simp [Val.rat] at h
  · simp [Val.rat] at h

/-- The sign of an exact zero: that of its terms where they agree, else z. -/
theorem Val.add_num {z : Bool} {a b : Val} (ha : a.finite) (hb : b.finite) : ∃ v, Val.add z a b = some v ∧ v.finite ∧
    v.rat = a.rat + b.rat ∧ (v.rat = 0 → v.neg = (a.neg && b.neg || z && (a.neg || b.neg))) := by
  have same : a.rat + b.rat = 0 → a.rat ≠ 0 → a.neg = !b.neg := fun h h0 => by
    have h1 : b.rat ≠ 0 := fun h1 => h0 (by linarith)
    rw [Val.rat_neg h0, Val.rat_neg h1, ← decide_not, decide_eq_decide]
    constructor
    · intro; linarith
    · intro h2; rcases lt_or_gt_of_ne h1 with h3 | h3
      · exact absurd h3 h2
      · linarith
  rcases a with ⟨n, m, e⟩ | _ | _ <;> [skip; simp [Val.finite, Val.isInf] at ha; simp [Val.finite, Val.isNan] at ha]
  rcases b with ⟨n', m', e'⟩ | _ | _ <;> [skip; simp [Val.finite, Val.isInf] at hb; simp [Val.finite, Val.isNan] at hb]
  unfold Val.add
  simp only
  split
  · rename_i h
    obtain ⟨rfl, rfl⟩ := h
    refine ⟨_, rfl, by simp [Val.finite, Val.isNan, Val.isInf], by simp [Val.rat], fun _ => ?_⟩
    simp only [Val.neg]
    cases n <;> cases n' <;> cases z <;> rfl
  · rename_i h
    have r1 : ((signedAt n m e (min e e') + signedAt n' m' e' (min e e') : Int) : ℚ) * 2 ^ min e e' =
        Val.rat (.num n m e) + Val.rat (.num n' m' e') := by
      push_cast
      rw [add_mul, signedAt_rat n m (min_le_left e e'), signedAt_rat n' m' (min_le_right e e')]
      simp [Val.rat]
    refine ⟨_, rfl, by simp [Val.finite, Val.isNan, Val.isInf, Val.ofInt], by rw [Val.ofInt_rat]; exact r1, fun h0 => ?_⟩
    rw [Val.ofInt_rat] at h0
    have x0 : signedAt n m e (min e e') + signedAt n' m' e' (min e e') = 0 := by
      rcases mul_eq_zero.1 h0 with h0 | h0
      · exact_mod_cast h0
      · exact absurd h0 (by positivity)
    rw [r1] at h0
    have : (Val.ofInt 0 (min e e') z).neg = z := by simp [Val.ofInt, Val.neg]
    rw [x0, this, same h0]
    · cases z <;> cases (Val.num n' m' e').neg <;> rfl
    intro a0
    have b0 : Val.rat (.num n' m' e') = 0 := by rw [a0, zero_add] at h0; exact h0
    have zero : ∀ n m e, Val.rat (.num n m e) = 0 → m = 0 := fun n m e h => by
      have p : (2 : ℚ) ^ e ≠ 0 := by positivity
      cases n <;> simpa [Val.rat, p] using h
    exact h ⟨zero _ _ _ a0, zero _ _ _ b0⟩

theorem Val.mul_num {a b : Val} (ha : a.finite) (hb : b.finite) : ∃ v, Val.mul a b = some v ∧ v.finite ∧
    v.rat = a.rat * b.rat ∧ v.neg = (a.neg != b.neg) := by
  rcases a with ⟨n, m, e⟩ | _ | _ <;> [skip; simp [Val.finite, Val.isInf] at ha; simp [Val.finite, Val.isNan] at ha]
  rcases b with ⟨n', m', e'⟩ | _ | _ <;> [skip; simp [Val.finite, Val.isInf] at hb; simp [Val.finite, Val.isNan] at hb]
  refine ⟨_, rfl, by simp [Val.finite, Val.isNan, Val.isInf], ?_, rfl⟩
  simp only [Val.rat]
  rw [zpow_add₀ (by norm_num)]
  push_cast
  cases n <;> cases n' <;> simp <;> ring

/-! ### Delivery -/

theorem Fmt.round_delivers (f : Fmt) (he : 1 ≤ f.eb) (r : RndEnv) (n : Bool) (m : Nat) (e : Int) :
    f.Delivers r n (Val.num n m e).rat (f.round r n m e) := by
  have p : (0 : ℚ) < 2 ^ e := by positivity
  have ab : |(Val.num n m e).rat| = m * 2 ^ e := by
    cases n <;> simp [Val.rat, abs_mul, abs_of_pos p]
  have sg : (if (Val.num n m e).rat = 0 then n else decide ((Val.num n m e).rat < 0)) = n := by
    split
    · rfl
    · rename_i h; exact (Val.rat_neg h).symm
  unfold Fmt.Delivers
  rw [sg, ab]
  exact f.round_rounded he r n m e

theorem Fmt.deliver_converted (f : Fmt) (he : 1 ≤ f.eb) (r : RndEnv) (v : Val) : f.Converted r v (f.deliver r v) := by
  rcases v with ⟨n, m, e⟩ | n | s
  · exact ⟨by simp [Val.isNan], by simp [Val.isInf], fun _ => f.round_delivers he r n m e⟩
  · exact ⟨by simp [Val.isNan], fun _ => rfl, by simp [Val.finite, Val.isInf]⟩
  · exact ⟨fun _ => rfl, by simp [Val.isInf], by simp [Val.finite, Val.isNan]⟩


theorem Fmt.Delivers.zero {f : Fmt} {r : RndEnv} {n n' : Bool} {x : ℚ} {res : Nat × Flags} (h : f.Delivers r n x res)
    (hn : x = 0 → n = n') : f.Delivers r n' x res := by
  unfold Fmt.Delivers at h ⊢
  by_cases h0 : x = 0
  · rw [if_pos h0] at h ⊢; rwa [← hn h0]
  · rwa [if_neg h0] at h ⊢

theorem Fmt.deliver_delivers (f : Fmt) (he : 1 ≤ f.eb) (r : RndEnv) {v : Val} (hv : v.finite) :
    f.Delivers r v.neg v.rat (f.deliver r v) := (f.deliver_converted he r v).2.2 hv

theorem Val.finite_num (n : Bool) (m : Nat) (e : Int) : (Val.num n m e).finite := ⟨rfl, rfl⟩

/-- A result that delivers the exact sum of finite terms and products. -/
theorem Fmt.sums_finite {f : Fmt} {r : RndEnv} {ds : List Val} {ps : List (Val × Val)} {res : Nat × Flags}
    (hd : ∀ d ∈ ds, d.finite) (hp : ∀ p ∈ ps, p.1.finite ∧ p.2.finite)
    (h : f.Delivers r ((ds.map Val.neg ++ ps.map (fun p => p.1.neg != p.2.neg)).all id || (r.rnd == .rdn &&
      (ds.map Val.neg ++ ps.map (fun p => p.1.neg != p.2.neg)).any id))
      ((ds.map Val.rat).sum + (ps.map (fun p => p.1.rat * p.2.rat)).sum) res) : f.Sums r ds ps res := by
  have n1 : (ds ++ ps.flatMap (fun p => [p.1, p.2])).any Val.isNan = false := by
    rw [List.any_eq_false]
    intro v hv
    rw [List.mem_append, List.mem_flatMap] at hv
    rcases hv with hv | ⟨p, hp', hv⟩
    · simp [(hd v hv).1]
    · have := hp p hp'
      simp only [List.mem_cons, List.not_mem_nil, or_false] at hv
      rcases hv with rfl | rfl
      · simp [this.1.1]
      · simp [this.2.1]
  have n2 : ps.any (fun p => p.1.isInf && p.2.isZero || p.1.isZero && p.2.isInf) = false := by
    rw [List.any_eq_false]
    intro p hp'
    simp [(hp p hp').1.2, (hp p hp').2.2]
  have n3 : ds.filter Val.isInf = [] := by
    rw [List.filter_eq_nil_iff]; intro d h; simp [(hd d h).2]
  have n4 : ps.filter (fun p => p.1.isInf || p.2.isInf) = [] := by
    rw [List.filter_eq_nil_iff]; intro p h; simp [(hp p h).1.2, (hp p h).2.2]
  simp only [Fmt.Sums, n1, n2, n3, n4]
  simpa using h

/-- The sum of two values. -/
theorem Fmt.finish_add (f : Fmt) (he : 1 ≤ f.eb) (hi : f.inf = true) (r : RndEnv) (a b : Val) :
    f.Sums r [a, b] [] (f.finish r [a, b] (Val.add (r.rnd == .rdn) a b)) := by
  rcases a with ⟨n, m, e⟩ | n | s <;> rcases b with ⟨n', m', e'⟩ | n' | s'
  · obtain ⟨v, hv, vf, vr, vs⟩ := Val.add_num (z := r.rnd == .rdn) (Val.finite_num n m e) (Val.finite_num n' m' e')
    refine Fmt.sums_finite (by simp [Val.finite_num]) (by simp) ?_
    rw [hv]
    simpa [← vr, Fmt.finish, Val.isNan] using (f.deliver_delivers he r vf).zero (fun h => vs h)
  all_goals (try cases n) <;> (try cases n') <;> (try cases s) <;> (try cases s') <;>
    simp [Fmt.Sums, Fmt.finish, Fmt.invalid, Val.add, Flags.nvIf, Fmt.deliver, hi, List.filter_cons]

/-- The product of two values. -/
theorem Fmt.finish_mul (f : Fmt) (he : 1 ≤ f.eb) (hi : f.inf = true) (r : RndEnv) (a b : Val) :
    f.Sums r [] [(a, b)] (f.finish r [a, b] (Val.mul a b)) := by
  rcases a with ⟨n, m, e⟩ | n | s <;> rcases b with ⟨n', m', e'⟩ | n' | s'
  · obtain ⟨v, hv, vf, vr, vs⟩ := Val.mul_num (Val.finite_num n m e) (Val.finite_num n' m' e')
    refine Fmt.sums_finite (by simp) (by simp [Val.finite_num]) ?_
    rw [hv]
    simpa [← vr, Fmt.finish, Val.isNan] using (f.deliver_delivers he r vf).zero (fun h => by
      cases n <;> cases n' <;> simp [vs])
  all_goals (try cases n) <;> (try cases n') <;> (try cases s) <;> (try cases s') <;> (try rcases m with _ | m) <;>
    (try rcases m' with _ | m') <;>
    simp [Fmt.Sums, Fmt.finish, Fmt.invalid, Val.mul, Flags.nvIf, Fmt.deliver, hi]

theorem Fmt.add_sums (f : Fmt) (he : 1 ≤ f.eb) (hi : f.inf = true) (r : RndEnv) (x y : Nat) :
    f.Sums r [f.read r.ftz x, f.read r.ftz y] [] (f.add r x y) := f.finish_add he hi r _ _

theorem Fmt.mul_sums (f : Fmt) (he : 1 ≤ f.eb) (hi : f.inf = true) (r : RndEnv) (x y : Nat) :
    f.Sums r [] [(f.read r.ftz x, f.read r.ftz y)] (f.mul r x y) := f.finish_mul he hi r _ _


theorem Fmt.sub_sums (f : Fmt) (he : 1 ≤ f.eb) (hi : f.inf = true) (r : RndEnv) (x y : Nat) :
    f.Sums r [f.read r.ftz x, (f.read r.ftz y).negate] [] (f.sub r x y) := by
  have : f.sub r x y = f.finish r [f.read r.ftz x, (f.read r.ftz y).negate]
      (Val.add (r.rnd == .rdn) (f.read r.ftz x) (f.read r.ftz y).negate) := by
    unfold Fmt.sub Fmt.finish
    cases f.read r.ftz y <;> rfl
  rw [this]
  exact f.finish_add he hi r _ _

/-! ### Conversions (R93, R103) -/

theorem toWhole_rounds (r : RndEnv) (n : Bool) (m : Nat) (e : Int) : Rounds r n ((m : ℚ) * 2 ^ e) (toWhole r n m e).1 ∧
    ((toWhole r n m e).2 = true ↔ ((toWhole r n m e).1 : ℚ) ≠ (m : ℚ) * 2 ^ e) := by
  unfold toWhole
  split
  · rename_i h
    have : (m : ℚ) * 2 ^ e = (m * 2 ^ e.toNat : Nat) := by
      rw [show e = ((e.toNat : Nat) : Int) by omega, zpow_natCast, Int.toNat_natCast]; push_cast; rfl
    rw [this]
    exact ⟨rounds_nat _ _ _, by simp⟩
  · rename_i h
    have q : (m : ℚ) * 2 ^ e = m / 2 ^ (-e).toNat := by
      rw [div_eq_mul_inv, ← zpow_natCast, ← zpow_neg]; congr 2; omega
    rw [q]
    rcases Nat.eq_zero_or_pos m with rfl | hm
    · have z : roundShift r n 0 (-e).toNat = (0, false) := by simp [roundShift, roundShiftAt]
      rw [z]; simp [Rounds]
    · exact roundShift_rounds r n (by omega) _

theorem Val.abs_rat (n : Bool) (m : Nat) (e : Int) : |(Val.num n m e).rat| = m * 2 ^ e := by
  have p : (0 : ℚ) < 2 ^ e := by positivity
  cases n <;> simp [Val.rat, abs_mul, abs_of_pos p]

theorem fitBits_lt (s : Bool) (w : Nat) (t : Bool) (x : Int) : fitBits s w t x < 2 ^ w := by
  unfold fitBits
  have p : (0 : Int) < (2 ^ w : Nat) := by positivity
  have := Int.emod_lt_of_pos (if t then max (intMin s w) (min (intMax s w) x) else x) p
  have := Int.emod_nonneg (if t then max (intMin s w) (min (intMax s w) x) else x) (ne_of_gt p)
  simp only
  omega

theorem asInt_emod {s : Bool} {w : Nat} (hw : 1 ≤ w) {x : Int} (h1 : intMin s w ≤ x) (h2 : x ≤ intMax s w) :
    asInt s w (x % (2 ^ w : Nat)).toNat = x := by
  obtain ⟨q, hq, hp, h0⟩ : ∃ q, 2 ^ (w - 1) = q ∧ 2 ^ w = 2 * q ∧ 0 < q :=
    ⟨_, rfl, by rw [← pow_succ']; congr 1; omega, by positivity⟩
  unfold intMin at h1
  unfold intMax at h2
  unfold asInt
  simp only [hq, hp] at h1 h2 ⊢
  cases s
  · simp only [Bool.false_eq_true, if_false, Bool.false_and] at h1 h2 ⊢
    have : x % ((2 * q : Nat) : Int) = x := Int.emod_eq_of_lt h1 (by omega)
    rw [this, Nat.mod_eq_of_lt (by omega)]
    omega
  · simp only [if_true, Bool.true_and, decide_eq_true_eq] at h1 h2 ⊢
    rcases lt_or_ge x 0 with hx | hx
    · have : x % ((2 * q : Nat) : Int) = x + (2 * q : Nat) := by
        rw [← Int.add_emod_right, Int.emod_eq_of_lt] <;> omega
      rw [this, Nat.mod_eq_of_lt (by omega), if_pos (by omega)]
      omega
    · have : x % ((2 * q : Nat) : Int) = x := Int.emod_eq_of_lt hx (by omega)
      rw [this, Nat.mod_eq_of_lt (by omega), if_neg (by omega)]
      omega

theorem intMin_le_max (s : Bool) (w : Nat) : intMin s w ≤ intMax s w := by
  have : 0 < 2 ^ (w - 1) := by positivity
  have : 0 < 2 ^ w := by positivity
  unfold intMin intMax
  cases s
  · simp only [Bool.false_eq_true, if_false]; omega
  · simp only [if_true]; omega

theorem fitBits_asInt {s : Bool} {w : Nat} (hw : 1 ≤ w) (x : Int) :
    asInt s w (fitBits s w true x) = max (intMin s w) (min (intMax s w) x) := by
  have := intMin_le_max s w
  unfold fitBits
  simp only [if_true]
  exact asInt_emod hw (by omega) (by omega)

theorem valToInt_converted (r : RndEnv) {s : Bool} {w : Nat} (hw : 1 ≤ w) (v : Val) :
    ConvertedToInt r s w v (valToInt r s w v) := by
  have mm := intMin_le_max s w
  rcases v with ⟨n, m, e⟩ | n | t
  · have all : ∀ (y : Int) (nx : Bool),
        let res := if y < intMin s w ∨ intMax s w < y then (fitBits s w true y, Flags.invalid)
          else (fitBits s w false y, (⟨false, false, false, false, nx⟩ : Flags))
        res.1 < 2 ^ w ∧ (y < intMin s w → asInt s w res.1 = intMin s w ∧ res.2 = Flags.invalid) ∧
        (intMax s w < y → asInt s w res.1 = intMax s w ∧ res.2 = Flags.invalid) ∧
        (intMin s w ≤ y → y ≤ intMax s w → asInt s w res.1 = y ∧ res.2 = ⟨false, false, false, false, nx⟩) := by
      intro y nx
      refine ⟨by show (if _ then _ else _ : Nat × Flags).1 < _; split_ifs <;> exact fitBits_lt _ _ _ _, fun h => ?_, fun h => ?_, fun h h' => ?_⟩
      · simp only [if_pos (Or.inl h : y < intMin s w ∨ intMax s w < y)]; exact ⟨by rw [fitBits_asInt hw]; omega, trivial⟩
      · simp only [if_pos (Or.inr h : y < intMin s w ∨ intMax s w < y)]; exact ⟨by rw [fitBits_asInt hw]; omega, trivial⟩
      · simp only [if_neg (by omega : ¬ (y < intMin s w ∨ intMax s w < y))]
        exact ⟨asInt_emod hw h h', trivial⟩
    obtain ⟨h1, h2⟩ := toWhole_rounds r n m e
    obtain ⟨a, b, c, d⟩ := all (if n then -((toWhole r n m e).1 : Int) else ((toWhole r n m e).1 : Int)) (toWhole r n m e).2
    exact ⟨a, by simp, by simp, fun _ => ⟨_, by rw [Val.abs_rat]; exact h1, b, c, fun p q =>
      ⟨(d p q).1, _, (d p q).2, by rw [Val.abs_rat]; exact h2⟩⟩⟩
  · refine ⟨fitBits_lt _ _ _ _, by simp, fun _ => ⟨?_, rfl⟩, by simp [Val.finite]⟩
    show asInt s w (fitBits s w true (if n then intMin s w else intMax s w)) = _
    rw [fitBits_asInt hw]
    cases n
    · simp only [Val.neg_inf, Bool.false_eq_true, if_false]; omega
    · simp only [Val.neg_inf, if_true]; omega
  · refine ⟨?_, fun _ => rfl, by simp, by simp [Val.finite]⟩
    show 0 < 2 ^ w
    positivity

theorem intToFloat_delivers (f : Fmt) (he : 1 ≤ f.eb) (r : RndEnv) (x : Int) : f.Delivers r false x (intToFloat f r x) := by
  have := f.round_delivers he r (decide (x < 0)) x.natAbs 0
  have e : (Val.num (decide (x < 0)) x.natAbs 0).rat = x := by
    have := Val.ofInt_rat x 0 false
    unfold Val.ofInt at this
    by_cases h : x = 0
    · simp [h, Val.rat]
    · rw [if_neg h] at this; rw [this]; simp
  rw [e] at this
  exact this.zero (fun h => by have : x = 0 := by exact_mod_cast h
                               simp [this])

theorem Fmt.scale_delivers (f : Fmt) (he : 1 ≤ f.eb) (r : RndEnv) (x : Nat) (k : Int) (h : (f.read r.ftz x).finite) :
    f.Delivers r (f.read r.ftz x).neg ((f.read r.ftz x).rat * 2 ^ k) (f.scale r x k) := by
  unfold Fmt.scale
  cases hv : f.read r.ftz x with
  | num n m e =>
    have := f.round_delivers he r n m (e + k)
    have q : (Val.num n m (e + k)).rat = (Val.num n m e).rat * 2 ^ k := by
      simp only [Val.rat]; rw [zpow_add₀ (by norm_num)]; ring
    rw [q] at this
    exact this
  | inf n => rw [hv] at h; simp [Val.finite] at h
  | nan s => rw [hv] at h; simp [Val.finite] at h

/-! ### Order (R142, R149) -/

theorem Val.lt_less {a b : Val} (ha : a.isNan = false) (hb : b.isNan = false) : Val.lt a b = true ↔ a.Less b := by
  rcases a with ⟨n, m, e⟩ | n | s <;> rcases b with ⟨n', m', e'⟩ | n' | s' <;> simp at ha hb
  · simp only [Val.lt, Val.Less, decide_eq_true_eq, Val.rat]
    rw [← signedAt_rat n m (min_le_left e e'), ← signedAt_rat n' m' (min_le_right e e'),
      mul_lt_mul_iff_of_pos_right (by positivity), Int.cast_lt]
  · cases n' <;> simp [Val.lt, Val.Less]
  · cases n <;> simp [Val.lt, Val.Less]
  · cases n <;> cases n' <;> simp [Val.lt, Val.Less]

theorem Val.eqv_iff {a b : Val} (ha : a.isNan = false) (hb : b.isNan = false) :
    Val.eqv a b = true ↔ ¬ a.Less b ∧ ¬ b.Less a := by
  rcases a with ⟨n, m, e⟩ | n | s <;> rcases b with ⟨n', m', e'⟩ | n' | s' <;> simp at ha hb
  · simp only [Val.eqv, Val.Less, decide_eq_true_eq, Val.rat]
    rw [← signedAt_rat n m (min_le_left e e'), ← signedAt_rat n' m' (min_le_right e e'),
      mul_lt_mul_iff_of_pos_right (by positivity), mul_lt_mul_iff_of_pos_right (by positivity), Int.cast_lt, Int.cast_lt]
    omega
  · cases n' <;> simp [Val.eqv, Val.Less]
  · cases n <;> simp [Val.eqv, Val.Less]
  · cases n <;> cases n' <;> simp [Val.eqv, Val.Less]

/-! ### Encodings (R87, R88, R105) -/

/-- What an encoding stands for. -/
theorem Fmt.read_spec (f : Fmt) (ftz : Bool) (x : Nat) :
    let s := decide (x / 2 ^ (f.eb + f.mb) % 2 = 1)
    let e := x / 2 ^ f.mb % 2 ^ f.eb
    let m := x % 2 ^ f.mb
    (f.inf = true → e = 2 ^ f.eb - 1 → f.read ftz x = if m = 0 then .inf s else .nan (decide (m < 2 ^ (f.mb - 1)))) ∧
    (f.inf = false → f.nanOnes = true → e = 2 ^ f.eb - 1 → m = 2 ^ f.mb - 1 → f.read ftz x = .nan false) ∧
    ((f.inf = true → e ≠ 2 ^ f.eb - 1) → (f.nanOnes = true → e = 2 ^ f.eb - 1 → m ≠ 2 ^ f.mb - 1) →
      (f.read ftz x).finite ∧ (f.read ftz x).neg = s ∧ (f.read ftz x).rat = (if s then -1 else 1) *
        (if e = 0 then (if ftz then 0 else (m : ℚ) / 2 ^ f.mb * 2 ^ (1 - (f.bias : Int)))
          else (1 + (m : ℚ) / 2 ^ f.mb) * 2 ^ ((e : Int) - f.bias))) := by
  intro s e m
  have sg : (x / 2 ^ (f.eb + f.mb) % 2 == 1) = s := by
    simp only [s]; rw [Bool.eq_iff_iff, beq_iff_eq, decide_eq_true_eq]
  refine ⟨fun hi he => ?_, fun hi hn he hm => ?_, fun hi hn => ?_⟩
  · have d : f.decode x = if m = 0 then .inf s else .nan (decide (m < 2 ^ (f.mb - 1))) := by
      have q : (m / 2 ^ (f.mb - 1) == 0) = decide (m < 2 ^ (f.mb - 1)) := by
        rw [Bool.eq_iff_iff, beq_iff_eq, decide_eq_true_eq, Nat.div_eq_zero_iff_lt (by positivity)]
      unfold Fmt.decode
      simp only [sg]
      rw [if_pos (by simp [hi]; exact he)]
      change (if (m == 0) = true then Val.inf s else .nan (m / 2 ^ (f.mb - 1) == 0)) = _
      rw [q]
      simp only [beq_iff_eq]
    unfold Fmt.read
    rw [d]
    split_ifs <;> rfl
  · have d : f.decode x = .nan false := by
      unfold Fmt.decode
      simp only [hi, hn, Bool.false_and, Bool.false_eq_true, if_false, Bool.true_and]
      rw [if_pos (by simp only [Bool.and_eq_true, beq_iff_eq]; exact ⟨he, hm⟩)]
    unfold Fmt.read
    rw [d]
  · have d : f.decode x = if e = 0 then .num s m (f.emin - f.mb) else .num s (2 ^ f.mb + m) (f.emin - f.mb + ((e : Int) - 1)) := by
      unfold Fmt.decode
      simp only [sg]
      rw [if_neg, if_neg]
      · change (if (e == 0) = true then _ else _) = _
        simp only [beq_iff_eq]
        rfl
      · simp only [Bool.and_eq_true, beq_iff_eq, not_and]; exact fun a b => hn a.1 a.2 b
      · simp only [Bool.and_eq_true, beq_iff_eq, not_and]; exact hi
    have pw : ∀ k : Int, (2 : ℚ) ^ (f.emin - f.mb + k) = 2 ^ (1 - (f.bias : Int) + k) / 2 ^ f.mb := fun k => by
      rw [← zpow_natCast, ← zpow_sub₀ (by norm_num)]; congr 1; unfold Fmt.emin; ring
    have p0 : (2 : ℚ) ^ f.mb ≠ 0 := by positivity
    unfold Fmt.read
    rw [d]
    by_cases e0 : e = 0
    · simp only [if_pos e0]
      by_cases hs : (ftz && f.isSub x) = true
      · rw [Bool.and_eq_true] at hs
        simp only [hs.1, hs.2, Bool.and_self, if_true]
        exact ⟨Val.finite_num _ _ _, rfl, by simp [Val.rat]⟩
      · rw [if_neg hs]
        refine ⟨Val.finite_num _ _ _, rfl, ?_⟩
        have k := pw 0
        rw [add_zero, add_zero] at k
        simp only [Val.rat, k]
        by_cases hf : ftz = true
        · have m0 : m = 0 := by
            rw [hf, Bool.true_and] at hs
            unfold Fmt.isSub at hs
            change ¬ (e == 0 && m != 0) = true at hs
            simpa [e0] using hs
          simp [hf, m0]
        · simp only [hf, Bool.false_eq_true, if_false]
          field_simp
    · simp only [if_neg e0]
      have hs : (ftz && f.isSub x) = false := by
        have : f.isSub x = false := by
          unfold Fmt.isSub
          change (e == 0 && m != 0) = false
          simp [e0]
        rw [this, Bool.and_false]
      rw [hs]
      refine ⟨Val.finite_num _ _ _, rfl, ?_⟩
      simp only [Bool.false_eq_true, if_false, Val.rat, pw]
      rw [show 1 - (f.bias : Int) + ((e : Int) - 1) = (e : Int) - f.bias by ring]
      push_cast
      field_simp


theorem Fmt.read_decode (f : Fmt) (x : Nat) : f.read false x = f.decode x := by
  unfold Fmt.read
  cases f.decode x <;> rfl

/-! ### Minimum and maximum (R142) -/

theorem Val.less_asymm {a b : Val} (h : a.Less b) : ¬ b.Less a := by
  rcases a with ⟨n, m, e⟩ | n | s <;> rcases b with ⟨n', m', e'⟩ | n' | s' <;> simp_all [Val.Less]
  all_goals exact h.le

theorem Val.minFirst_spec {a b : Val} (ha : a.isNan = false) (hb : b.isNan = false) :
    (a.Less b → Val.minFirst a b = true) ∧ (b.Less a → Val.minFirst a b = false) ∧
    (¬ a.Less b → ¬ b.Less a → Val.minFirst a b = a.neg) := by
  have l := Val.lt_less ha hb
  have q := Val.eqv_iff ha hb
  unfold Val.minFirst
  refine ⟨fun h => by rw [l.2 h, Bool.true_or], fun h => ?_, fun h h' => ?_⟩
  · have l0 : Val.lt a b = false := by
      rw [← Bool.not_eq_true, l]; exact Val.less_asymm h
    have q0 : Val.eqv a b = false := by
      rw [← Bool.not_eq_true, q]; exact fun hc => hc.2 h
    rw [l0, q0]; rfl
  · have l0 : Val.lt a b = false := by rw [← Bool.not_eq_true, l]; exact h
    rw [l0, q.2 ⟨h, h'⟩]; rfl

/-! ### Results of one operand -/

/-- FRND's result (R147). -/
theorem Fmt.rnd_spec (f : Fmt) (he : 1 ≤ f.eb) (r : RndEnv) (x : Nat) (ha : (f.read r.ftz x).finite) :
    (f.rnd r x).2 = Flags.none ∧ ∃ u fl, Rounds r (f.read r.ftz x).neg |(f.read r.ftz x).rat| u ∧
      f.Rounded RndEnv.rne (f.read r.ftz x).neg u ((f.rnd r x).1, fl) := by
  unfold Fmt.rnd
  cases hv : f.read r.ftz x with
  | num n m e =>
    refine ⟨rfl, (toWhole r n m e).1, (f.round ⟨.rne, 0, false⟩ n (toWhole r n m e).1 0).2, ?_, ?_⟩
    · rw [Val.abs_rat]; exact (toWhole_rounds r n m e).1
    · have := f.round_rounded he ⟨.rne, 0, false⟩ n (toWhole r n m e).1 0
      rw [zpow_zero, mul_one] at this
      exact this
  | inf n => rw [hv] at ha; simp [Val.finite] at ha
  | nan s => rw [hv] at ha; simp [Val.finite] at ha

/-- The minimum and the maximum, and the order that FCMPX tells (R142, R149). -/
theorem Fmt.minMax_spec (f : Fmt) (r : RndEnv) (x y : Nat) :
    let a := f.read r.ftz x
    let b := f.read r.ftz y
    let p := f.flush r.ftz x
    let q := f.flush r.ftz y
    let fl := Flags.nvIf (a.isSnan || b.isSnan)
    let gives := fun (lo hi : Nat) (num : Bool) => f.minMax r.ftz false num x y = (lo, fl) ∧ f.minMax r.ftz true num x y = (hi, fl)
    (a.isNan || b.isNan → gives f.nanBits f.nanBits false ∧ f.cmpx r.ftz x y = (8, fl)) ∧
    (a.isNan = true → b.isNan = true → gives f.nanBits f.nanBits true) ∧
    (a.isNan = true → b.isNan = false → gives q q true) ∧ (a.isNan = false → b.isNan = true → gives p p true) ∧
    (a.isNan = false → b.isNan = false →
      (a.Less b → (∀ n, gives p q n) ∧ f.cmpx r.ftz x y = (1, Flags.none)) ∧
      (b.Less a → (∀ n, gives q p n) ∧ f.cmpx r.ftz x y = (4, Flags.none)) ∧
      (¬ a.Less b → ¬ b.Less a → (∀ n, gives (if a.neg then p else q) (if a.neg then q else p) n) ∧
        f.cmpx r.ftz x y = (2, Flags.none))) := by
  simp only [Fmt.minMax, Fmt.cmpx]
  generalize f.read r.ftz x = a
  generalize f.read r.ftz y = b
  refine ⟨fun h => ?_, fun h h' => ?_, fun h h' => ?_, fun h h' => ?_, fun h h' => ?_⟩
  · simp [h]
  · simp [h, h']
  · simp [h, h']
  · simp [h, h']
  · obtain ⟨m1, m2, m3⟩ := Val.minFirst_spec h h'
    have l := Val.lt_less h h'
    have l' := Val.lt_less h' h
    have q := Val.eqv_iff h h'
    refine ⟨fun c => ?_, fun c => ?_, fun c c' => ?_⟩
    · simp [h, h', m1 c, l.2 c]
    · have n1 : Val.lt a b = false := by rw [← Bool.not_eq_true, l]; exact Val.less_asymm c
      have n2 : Val.eqv a b = false := by rw [← Bool.not_eq_true, q]; exact fun hc => hc.2 c
      simp [h, h', m2 c, n1, n2]
    · have n1 : Val.lt a b = false := by rw [← Bool.not_eq_true, l]; exact c
      have n2 : Val.eqv a b = true := q.2 ⟨c, c'⟩
      cases hn : a.neg <;> simp [h, h', m3 c c', n1, n2, hn]

theorem Fmt.largest_of {f : Fmt} {m : Nat} {e : Int} (h : f.decode f.maxBits = .num false m e) :
    f.largest = m * (2 : ℚ) ^ e := by
  rw [Fmt.largest, h]; simp [Val.rat]

theorem ebits_pos (t : Nat) : 1 ≤ ebits t := by
  unfold ebits
  split_ifs <;> decide

theorem fmtOf_eb (t : Nat) : 1 ≤ (fmtOf t).eb := by
  unfold fmtOf
  split_ifs <;> decide

theorem fitBits_wrap (s : Bool) (w : Nat) (x : Int) : (fitBits s w false x : Int) = x % 2 ^ w := by
  unfold fitBits
  have p : (0 : Int) < (2 ^ w : Nat) := by positivity
  have := Int.emod_nonneg x (ne_of_gt p)
  simp only [Bool.false_eq_true, if_false]
  rw [Int.toNat_of_nonneg this]
  push_cast
  rfl

end Sys2Proof.Machine
end

