-- ==== Sys2Proof/Laws/State.lean ====
section
/-! SUPPORT. Laws of the state record: what each named update leaves of each field, and read after write of its parts. No
later proof unfolds an update. -/

namespace Sys2Proof.Machine

/-! ### putGang -/

@[simp] theorem State.putGang_pkg (s : State) (id : Nat) (g : Gang) : (s.putGang id g).pkg = s.pkg := rfl
@[simp] theorem State.putGang_teams (s : State) (id : Nat) (g : Gang) : (s.putGang id g).teams = s.teams := rfl
@[simp] theorem State.putGang_cores (s : State) (id : Nat) (g : Gang) : (s.putGang id g).cores = s.cores := rfl
@[simp] theorem State.putGang_corbel (s : State) (id : Nat) (g : Gang) : (s.putGang id g).corbel = s.corbel := rfl
@[simp] theorem State.putGang_vault (s : State) (id : Nat) (g : Gang) : (s.putGang id g).vault = s.vault := rfl
@[simp] theorem State.putGang_vc (s : State) (id : Nat) (g : Gang) : (s.putGang id g).vc = s.vc := rfl
@[simp] theorem State.putGang_av (s : State) (id : Nat) (g : Gang) : (s.putGang id g).av = s.av := rfl
@[simp] theorem State.putGang_vreqs (s : State) (id : Nat) (g : Gang) : (s.putGang id g).vreqs = s.vreqs := rfl
@[simp] theorem State.putGang_preqs (s : State) (id : Nat) (g : Gang) : (s.putGang id g).preqs = s.preqs := rfl
@[simp] theorem State.putGang_iodq (s : State) (id : Nat) (g : Gang) : (s.putGang id g).iodq = s.iodq := rfl
@[simp] theorem State.putGang_badWords (s : State) (id : Nat) (g : Gang) : (s.putGang id g).badWords = s.badWords := rfl
@[simp] theorem State.putGang_holds (s : State) (id : Nat) (g : Gang) : (s.putGang id g).holds = s.holds := rfl
@[simp] theorem State.putGang_tlb (s : State) (id : Nat) (g : Gang) : (s.putGang id g).tlb = s.tlb := rfl
@[simp] theorem State.putGang_parts (s : State) (id : Nat) (g : Gang) : (s.putGang id g).parts = s.parts := rfl
@[simp] theorem State.putGang_launches (s : State) (id : Nat) (g : Gang) : (s.putGang id g).launches = s.launches := rfl
@[simp] theorem State.putGang_reqs (s : State) (id : Nat) (g : Gang) : (s.putGang id g).reqs = s.reqs := rfl
@[simp] theorem State.putGang_modules (s : State) (id : Nat) (g : Gang) : (s.putGang id g).modules = s.modules := rfl
@[simp] theorem State.putGang_wiring (s : State) (id : Nat) (g : Gang) : (s.putGang id g).wiring = s.wiring := rfl
@[simp] theorem State.putGang_remotes (s : State) (id : Nat) (g : Gang) : (s.putGang id g).remotes = s.remotes := rfl
@[simp] theorem State.putGang_inbound (s : State) (id : Nat) (g : Gang) : (s.putGang id g).inbound = s.inbound := rfl
@[simp] theorem State.putGang_qbad (s : State) (id : Nat) (g : Gang) : (s.putGang id g).qbad = s.qbad := rfl
@[simp] theorem State.putGang_caps (s : State) (id : Nat) (g : Gang) : (s.putGang id g).caps = s.caps := rfl
@[simp] theorem State.putGang_netq (s : State) (id : Nat) (g : Gang) : (s.putGang id g).netq = s.netq := rfl
@[simp] theorem State.putGang_sentSeq (s : State) (id : Nat) (g : Gang) : (s.putGang id g).sentSeq = s.sentSeq := rfl
@[simp] theorem State.putGang_rcvdSeq (s : State) (id : Nat) (g : Gang) : (s.putGang id g).rcvdSeq = s.rcvdSeq := rfl
@[simp] theorem State.putGang_dealt (s : State) (id : Nat) (g : Gang) : (s.putGang id g).dealt = s.dealt := rfl
@[simp] theorem State.putGang_rot (s : State) (id : Nat) (g : Gang) : (s.putGang id g).rot = s.rot := rfl
@[simp] theorem State.putGang_ports (s : State) (id : Nat) (g : Gang) : (s.putGang id g).ports = s.ports := rfl
@[simp] theorem State.putGang_entries (s : State) (id : Nat) (g : Gang) : (s.putGang id g).entries = s.entries := rfl
@[simp] theorem State.putGang_pairs (s : State) (id : Nat) (g : Gang) : (s.putGang id g).pairs = s.pairs := rfl
@[simp] theorem State.putGang_links (s : State) (id : Nat) (g : Gang) : (s.putGang id g).links = s.links := rfl
@[simp] theorem State.putGang_chans (s : State) (id : Nat) (g : Gang) : (s.putGang id g).chans = s.chans := rfl
@[simp] theorem State.putGang_weakMrg (s : State) (id : Nat) (g : Gang) : (s.putGang id g).weakMrg = s.weakMrg := rfl
@[simp] theorem State.putGang_weakCer (s : State) (id : Nat) (g : Gang) : (s.putGang id g).weakCer = s.weakCer := rfl
@[simp] theorem State.putGang_period (s : State) (id : Nat) (g : Gang) : (s.putGang id g).period = s.period := rfl
@[simp] theorem State.putGang_lines (s : State) (id : Nat) (g : Gang) : (s.putGang id g).lines = s.lines := rfl
@[simp] theorem State.putGang_arrays (s : State) (id : Nat) (g : Gang) : (s.putGang id g).arrays = s.arrays := rfl
@[simp] theorem State.putGang_attests (s : State) (id : Nat) (g : Gang) : (s.putGang id g).attests = s.attests := rfl
@[simp] theorem State.putGang_house (s : State) (id : Nat) (g : Gang) : (s.putGang id g).house = s.house := rfl
@[simp] theorem State.putGang_meas (s : State) (id : Nat) (g : Gang) : (s.putGang id g).meas = s.meas := rfl
@[simp] theorem State.putGang_out (s : State) (id : Nat) (g : Gang) : (s.putGang id g).out = s.out := rfl
@[simp] theorem State.putGang_now (s : State) (id : Nat) (g : Gang) : (s.putGang id g).now = s.now := rfl
@[simp] theorem State.putGang_issueFrom (s : State) (id : Nat) (g : Gang) : (s.putGang id g).issueFrom = s.issueFrom := rfl
@[simp] theorem State.putGang_risen (s : State) (id : Nat) (g : Gang) : (s.putGang id g).risen = s.risen := rfl
@[simp] theorem State.putGang_next (s : State) (id : Nat) (g : Gang) : (s.putGang id g).next = s.next := rfl
@[simp] theorem State.putGang_free (s : State) (id : Nat) (g : Gang) : (s.putGang id g).free = s.free := rfl
@[simp] theorem State.putGang_cur (s : State) (id : Nat) (g : Gang) : (s.putGang id g).cur = s.cur := rfl
@[simp] theorem State.putGang_agenda (s : State) (id : Nat) (g : Gang) : (s.putGang id g).agenda = s.agenda := rfl

/-! ### dropGang -/

@[simp] theorem State.dropGang_pkg (s : State) (id : Nat) : (s.dropGang id).pkg = s.pkg := rfl
@[simp] theorem State.dropGang_teams (s : State) (id : Nat) : (s.dropGang id).teams = s.teams := rfl
@[simp] theorem State.dropGang_cores (s : State) (id : Nat) : (s.dropGang id).cores = s.cores := rfl
@[simp] theorem State.dropGang_corbel (s : State) (id : Nat) : (s.dropGang id).corbel = s.corbel := rfl
@[simp] theorem State.dropGang_vault (s : State) (id : Nat) : (s.dropGang id).vault = s.vault := rfl
@[simp] theorem State.dropGang_vc (s : State) (id : Nat) : (s.dropGang id).vc = s.vc := rfl
@[simp] theorem State.dropGang_av (s : State) (id : Nat) : (s.dropGang id).av = s.av := rfl
@[simp] theorem State.dropGang_vreqs (s : State) (id : Nat) : (s.dropGang id).vreqs = s.vreqs := rfl
@[simp] theorem State.dropGang_preqs (s : State) (id : Nat) : (s.dropGang id).preqs = s.preqs := rfl
@[simp] theorem State.dropGang_iodq (s : State) (id : Nat) : (s.dropGang id).iodq = s.iodq := rfl
@[simp] theorem State.dropGang_badWords (s : State) (id : Nat) : (s.dropGang id).badWords = s.badWords := rfl
@[simp] theorem State.dropGang_holds (s : State) (id : Nat) : (s.dropGang id).holds = s.holds := rfl
@[simp] theorem State.dropGang_tlb (s : State) (id : Nat) : (s.dropGang id).tlb = s.tlb := rfl
@[simp] theorem State.dropGang_parts (s : State) (id : Nat) : (s.dropGang id).parts = s.parts := rfl
@[simp] theorem State.dropGang_launches (s : State) (id : Nat) : (s.dropGang id).launches = s.launches := rfl
@[simp] theorem State.dropGang_reqs (s : State) (id : Nat) : (s.dropGang id).reqs = s.reqs := rfl
@[simp] theorem State.dropGang_modules (s : State) (id : Nat) : (s.dropGang id).modules = s.modules := rfl
@[simp] theorem State.dropGang_wiring (s : State) (id : Nat) : (s.dropGang id).wiring = s.wiring := rfl
@[simp] theorem State.dropGang_remotes (s : State) (id : Nat) : (s.dropGang id).remotes = s.remotes := rfl
@[simp] theorem State.dropGang_inbound (s : State) (id : Nat) : (s.dropGang id).inbound = s.inbound := rfl
@[simp] theorem State.dropGang_qbad (s : State) (id : Nat) : (s.dropGang id).qbad = s.qbad := rfl
@[simp] theorem State.dropGang_caps (s : State) (id : Nat) : (s.dropGang id).caps = s.caps := rfl
@[simp] theorem State.dropGang_netq (s : State) (id : Nat) : (s.dropGang id).netq = s.netq := rfl
@[simp] theorem State.dropGang_sentSeq (s : State) (id : Nat) : (s.dropGang id).sentSeq = s.sentSeq := rfl
@[simp] theorem State.dropGang_rcvdSeq (s : State) (id : Nat) : (s.dropGang id).rcvdSeq = s.rcvdSeq := rfl
@[simp] theorem State.dropGang_dealt (s : State) (id : Nat) : (s.dropGang id).dealt = s.dealt := rfl
@[simp] theorem State.dropGang_rot (s : State) (id : Nat) : (s.dropGang id).rot = s.rot := rfl
@[simp] theorem State.dropGang_ports (s : State) (id : Nat) : (s.dropGang id).ports = s.ports := rfl
@[simp] theorem State.dropGang_entries (s : State) (id : Nat) : (s.dropGang id).entries = s.entries := rfl
@[simp] theorem State.dropGang_pairs (s : State) (id : Nat) : (s.dropGang id).pairs = s.pairs := rfl
@[simp] theorem State.dropGang_links (s : State) (id : Nat) : (s.dropGang id).links = s.links := rfl
@[simp] theorem State.dropGang_chans (s : State) (id : Nat) : (s.dropGang id).chans = s.chans := rfl
@[simp] theorem State.dropGang_weakMrg (s : State) (id : Nat) : (s.dropGang id).weakMrg = s.weakMrg := rfl
@[simp] theorem State.dropGang_weakCer (s : State) (id : Nat) : (s.dropGang id).weakCer = s.weakCer := rfl
@[simp] theorem State.dropGang_period (s : State) (id : Nat) : (s.dropGang id).period = s.period := rfl
@[simp] theorem State.dropGang_lines (s : State) (id : Nat) : (s.dropGang id).lines = s.lines := rfl
@[simp] theorem State.dropGang_arrays (s : State) (id : Nat) : (s.dropGang id).arrays = s.arrays := rfl
@[simp] theorem State.dropGang_attests (s : State) (id : Nat) : (s.dropGang id).attests = s.attests := rfl
@[simp] theorem State.dropGang_house (s : State) (id : Nat) : (s.dropGang id).house = s.house := rfl
@[simp] theorem State.dropGang_meas (s : State) (id : Nat) : (s.dropGang id).meas = s.meas := rfl
@[simp] theorem State.dropGang_out (s : State) (id : Nat) : (s.dropGang id).out = s.out := rfl
@[simp] theorem State.dropGang_now (s : State) (id : Nat) : (s.dropGang id).now = s.now := rfl
@[simp] theorem State.dropGang_issueFrom (s : State) (id : Nat) : (s.dropGang id).issueFrom = s.issueFrom := rfl
@[simp] theorem State.dropGang_risen (s : State) (id : Nat) : (s.dropGang id).risen = s.risen := rfl
@[simp] theorem State.dropGang_next (s : State) (id : Nat) : (s.dropGang id).next = s.next := rfl
@[simp] theorem State.dropGang_free (s : State) (id : Nat) : (s.dropGang id).free = s.free := rfl
@[simp] theorem State.dropGang_cur (s : State) (id : Nat) : (s.dropGang id).cur = s.cur := rfl
@[simp] theorem State.dropGang_agenda (s : State) (id : Nat) : (s.dropGang id).agenda = s.agenda := rfl

/-! ### putTeam -/

@[simp] theorem State.putTeam_pkg (s : State) (id : Nat) (x : Team) : (s.putTeam id x).pkg = s.pkg := rfl
@[simp] theorem State.putTeam_gangs (s : State) (id : Nat) (x : Team) : (s.putTeam id x).gangs = s.gangs := rfl
@[simp] theorem State.putTeam_cores (s : State) (id : Nat) (x : Team) : (s.putTeam id x).cores = s.cores := rfl
@[simp] theorem State.putTeam_corbel (s : State) (id : Nat) (x : Team) : (s.putTeam id x).corbel = s.corbel := rfl
@[simp] theorem State.putTeam_vault (s : State) (id : Nat) (x : Team) : (s.putTeam id x).vault = s.vault := rfl
@[simp] theorem State.putTeam_vc (s : State) (id : Nat) (x : Team) : (s.putTeam id x).vc = s.vc := rfl
@[simp] theorem State.putTeam_av (s : State) (id : Nat) (x : Team) : (s.putTeam id x).av = s.av := rfl
@[simp] theorem State.putTeam_vreqs (s : State) (id : Nat) (x : Team) : (s.putTeam id x).vreqs = s.vreqs := rfl
@[simp] theorem State.putTeam_preqs (s : State) (id : Nat) (x : Team) : (s.putTeam id x).preqs = s.preqs := rfl
@[simp] theorem State.putTeam_iodq (s : State) (id : Nat) (x : Team) : (s.putTeam id x).iodq = s.iodq := rfl
@[simp] theorem State.putTeam_badWords (s : State) (id : Nat) (x : Team) : (s.putTeam id x).badWords = s.badWords := rfl
@[simp] theorem State.putTeam_holds (s : State) (id : Nat) (x : Team) : (s.putTeam id x).holds = s.holds := rfl
@[simp] theorem State.putTeam_tlb (s : State) (id : Nat) (x : Team) : (s.putTeam id x).tlb = s.tlb := rfl
@[simp] theorem State.putTeam_parts (s : State) (id : Nat) (x : Team) : (s.putTeam id x).parts = s.parts := rfl
@[simp] theorem State.putTeam_launches (s : State) (id : Nat) (x : Team) : (s.putTeam id x).launches = s.launches := rfl
@[simp] theorem State.putTeam_reqs (s : State) (id : Nat) (x : Team) : (s.putTeam id x).reqs = s.reqs := rfl
@[simp] theorem State.putTeam_modules (s : State) (id : Nat) (x : Team) : (s.putTeam id x).modules = s.modules := rfl
@[simp] theorem State.putTeam_wiring (s : State) (id : Nat) (x : Team) : (s.putTeam id x).wiring = s.wiring := rfl
@[simp] theorem State.putTeam_remotes (s : State) (id : Nat) (x : Team) : (s.putTeam id x).remotes = s.remotes := rfl
@[simp] theorem State.putTeam_inbound (s : State) (id : Nat) (x : Team) : (s.putTeam id x).inbound = s.inbound := rfl
@[simp] theorem State.putTeam_qbad (s : State) (id : Nat) (x : Team) : (s.putTeam id x).qbad = s.qbad := rfl
@[simp] theorem State.putTeam_caps (s : State) (id : Nat) (x : Team) : (s.putTeam id x).caps = s.caps := rfl
@[simp] theorem State.putTeam_netq (s : State) (id : Nat) (x : Team) : (s.putTeam id x).netq = s.netq := rfl
@[simp] theorem State.putTeam_sentSeq (s : State) (id : Nat) (x : Team) : (s.putTeam id x).sentSeq = s.sentSeq := rfl
@[simp] theorem State.putTeam_rcvdSeq (s : State) (id : Nat) (x : Team) : (s.putTeam id x).rcvdSeq = s.rcvdSeq := rfl
@[simp] theorem State.putTeam_dealt (s : State) (id : Nat) (x : Team) : (s.putTeam id x).dealt = s.dealt := rfl
@[simp] theorem State.putTeam_rot (s : State) (id : Nat) (x : Team) : (s.putTeam id x).rot = s.rot := rfl
@[simp] theorem State.putTeam_ports (s : State) (id : Nat) (x : Team) : (s.putTeam id x).ports = s.ports := rfl
@[simp] theorem State.putTeam_entries (s : State) (id : Nat) (x : Team) : (s.putTeam id x).entries = s.entries := rfl
@[simp] theorem State.putTeam_pairs (s : State) (id : Nat) (x : Team) : (s.putTeam id x).pairs = s.pairs := rfl
@[simp] theorem State.putTeam_links (s : State) (id : Nat) (x : Team) : (s.putTeam id x).links = s.links := rfl
@[simp] theorem State.putTeam_chans (s : State) (id : Nat) (x : Team) : (s.putTeam id x).chans = s.chans := rfl
@[simp] theorem State.putTeam_weakMrg (s : State) (id : Nat) (x : Team) : (s.putTeam id x).weakMrg = s.weakMrg := rfl
@[simp] theorem State.putTeam_weakCer (s : State) (id : Nat) (x : Team) : (s.putTeam id x).weakCer = s.weakCer := rfl
@[simp] theorem State.putTeam_period (s : State) (id : Nat) (x : Team) : (s.putTeam id x).period = s.period := rfl
@[simp] theorem State.putTeam_lines (s : State) (id : Nat) (x : Team) : (s.putTeam id x).lines = s.lines := rfl
@[simp] theorem State.putTeam_arrays (s : State) (id : Nat) (x : Team) : (s.putTeam id x).arrays = s.arrays := rfl
@[simp] theorem State.putTeam_attests (s : State) (id : Nat) (x : Team) : (s.putTeam id x).attests = s.attests := rfl
@[simp] theorem State.putTeam_house (s : State) (id : Nat) (x : Team) : (s.putTeam id x).house = s.house := rfl
@[simp] theorem State.putTeam_meas (s : State) (id : Nat) (x : Team) : (s.putTeam id x).meas = s.meas := rfl
@[simp] theorem State.putTeam_out (s : State) (id : Nat) (x : Team) : (s.putTeam id x).out = s.out := rfl
@[simp] theorem State.putTeam_now (s : State) (id : Nat) (x : Team) : (s.putTeam id x).now = s.now := rfl
@[simp] theorem State.putTeam_issueFrom (s : State) (id : Nat) (x : Team) : (s.putTeam id x).issueFrom = s.issueFrom := rfl
@[simp] theorem State.putTeam_risen (s : State) (id : Nat) (x : Team) : (s.putTeam id x).risen = s.risen := rfl
@[simp] theorem State.putTeam_next (s : State) (id : Nat) (x : Team) : (s.putTeam id x).next = s.next := rfl
@[simp] theorem State.putTeam_free (s : State) (id : Nat) (x : Team) : (s.putTeam id x).free = s.free := rfl
@[simp] theorem State.putTeam_cur (s : State) (id : Nat) (x : Team) : (s.putTeam id x).cur = s.cur := rfl
@[simp] theorem State.putTeam_agenda (s : State) (id : Nat) (x : Team) : (s.putTeam id x).agenda = s.agenda := rfl

/-! ### dropTeam -/

@[simp] theorem State.dropTeam_pkg (s : State) (id : Nat) : (s.dropTeam id).pkg = s.pkg := rfl
@[simp] theorem State.dropTeam_gangs (s : State) (id : Nat) : (s.dropTeam id).gangs = s.gangs := rfl
@[simp] theorem State.dropTeam_cores (s : State) (id : Nat) : (s.dropTeam id).cores = s.cores := rfl
@[simp] theorem State.dropTeam_corbel (s : State) (id : Nat) : (s.dropTeam id).corbel = s.corbel := rfl
@[simp] theorem State.dropTeam_vault (s : State) (id : Nat) : (s.dropTeam id).vault = s.vault := rfl
@[simp] theorem State.dropTeam_vc (s : State) (id : Nat) : (s.dropTeam id).vc = s.vc := rfl
@[simp] theorem State.dropTeam_av (s : State) (id : Nat) : (s.dropTeam id).av = s.av := rfl
@[simp] theorem State.dropTeam_vreqs (s : State) (id : Nat) : (s.dropTeam id).vreqs = s.vreqs := rfl
@[simp] theorem State.dropTeam_preqs (s : State) (id : Nat) : (s.dropTeam id).preqs = s.preqs := rfl
@[simp] theorem State.dropTeam_iodq (s : State) (id : Nat) : (s.dropTeam id).iodq = s.iodq := rfl
@[simp] theorem State.dropTeam_badWords (s : State) (id : Nat) : (s.dropTeam id).badWords = s.badWords := rfl
@[simp] theorem State.dropTeam_holds (s : State) (id : Nat) : (s.dropTeam id).holds = s.holds := rfl
@[simp] theorem State.dropTeam_tlb (s : State) (id : Nat) : (s.dropTeam id).tlb = s.tlb := rfl
@[simp] theorem State.dropTeam_parts (s : State) (id : Nat) : (s.dropTeam id).parts = s.parts := rfl
@[simp] theorem State.dropTeam_launches (s : State) (id : Nat) : (s.dropTeam id).launches = s.launches := rfl
@[simp] theorem State.dropTeam_reqs (s : State) (id : Nat) : (s.dropTeam id).reqs = s.reqs := rfl
@[simp] theorem State.dropTeam_modules (s : State) (id : Nat) : (s.dropTeam id).modules = s.modules := rfl
@[simp] theorem State.dropTeam_wiring (s : State) (id : Nat) : (s.dropTeam id).wiring = s.wiring := rfl
@[simp] theorem State.dropTeam_remotes (s : State) (id : Nat) : (s.dropTeam id).remotes = s.remotes := rfl
@[simp] theorem State.dropTeam_inbound (s : State) (id : Nat) : (s.dropTeam id).inbound = s.inbound := rfl
@[simp] theorem State.dropTeam_qbad (s : State) (id : Nat) : (s.dropTeam id).qbad = s.qbad := rfl
@[simp] theorem State.dropTeam_caps (s : State) (id : Nat) : (s.dropTeam id).caps = s.caps := rfl
@[simp] theorem State.dropTeam_netq (s : State) (id : Nat) : (s.dropTeam id).netq = s.netq := rfl
@[simp] theorem State.dropTeam_sentSeq (s : State) (id : Nat) : (s.dropTeam id).sentSeq = s.sentSeq := rfl
@[simp] theorem State.dropTeam_rcvdSeq (s : State) (id : Nat) : (s.dropTeam id).rcvdSeq = s.rcvdSeq := rfl
@[simp] theorem State.dropTeam_dealt (s : State) (id : Nat) : (s.dropTeam id).dealt = s.dealt := rfl
@[simp] theorem State.dropTeam_rot (s : State) (id : Nat) : (s.dropTeam id).rot = s.rot := rfl
@[simp] theorem State.dropTeam_ports (s : State) (id : Nat) : (s.dropTeam id).ports = s.ports := rfl
@[simp] theorem State.dropTeam_entries (s : State) (id : Nat) : (s.dropTeam id).entries = s.entries := rfl
@[simp] theorem State.dropTeam_pairs (s : State) (id : Nat) : (s.dropTeam id).pairs = s.pairs := rfl
@[simp] theorem State.dropTeam_links (s : State) (id : Nat) : (s.dropTeam id).links = s.links := rfl
@[simp] theorem State.dropTeam_chans (s : State) (id : Nat) : (s.dropTeam id).chans = s.chans := rfl
@[simp] theorem State.dropTeam_weakMrg (s : State) (id : Nat) : (s.dropTeam id).weakMrg = s.weakMrg := rfl
@[simp] theorem State.dropTeam_weakCer (s : State) (id : Nat) : (s.dropTeam id).weakCer = s.weakCer := rfl
@[simp] theorem State.dropTeam_period (s : State) (id : Nat) : (s.dropTeam id).period = s.period := rfl
@[simp] theorem State.dropTeam_lines (s : State) (id : Nat) : (s.dropTeam id).lines = s.lines := rfl
@[simp] theorem State.dropTeam_arrays (s : State) (id : Nat) : (s.dropTeam id).arrays = s.arrays := rfl
@[simp] theorem State.dropTeam_attests (s : State) (id : Nat) : (s.dropTeam id).attests = s.attests := rfl
@[simp] theorem State.dropTeam_house (s : State) (id : Nat) : (s.dropTeam id).house = s.house := rfl
@[simp] theorem State.dropTeam_meas (s : State) (id : Nat) : (s.dropTeam id).meas = s.meas := rfl
@[simp] theorem State.dropTeam_out (s : State) (id : Nat) : (s.dropTeam id).out = s.out := rfl
@[simp] theorem State.dropTeam_now (s : State) (id : Nat) : (s.dropTeam id).now = s.now := rfl
@[simp] theorem State.dropTeam_issueFrom (s : State) (id : Nat) : (s.dropTeam id).issueFrom = s.issueFrom := rfl
@[simp] theorem State.dropTeam_risen (s : State) (id : Nat) : (s.dropTeam id).risen = s.risen := rfl
@[simp] theorem State.dropTeam_next (s : State) (id : Nat) : (s.dropTeam id).next = s.next := rfl
@[simp] theorem State.dropTeam_free (s : State) (id : Nat) : (s.dropTeam id).free = s.free := rfl
@[simp] theorem State.dropTeam_cur (s : State) (id : Nat) : (s.dropTeam id).cur = s.cur := rfl
@[simp] theorem State.dropTeam_agenda (s : State) (id : Nat) : (s.dropTeam id).agenda = s.agenda := rfl

/-! ### putLaunch -/

@[simp] theorem State.putLaunch_pkg (s : State) (id : Nat) (x : Launch) : (s.putLaunch id x).pkg = s.pkg := rfl
@[simp] theorem State.putLaunch_gangs (s : State) (id : Nat) (x : Launch) : (s.putLaunch id x).gangs = s.gangs := rfl
@[simp] theorem State.putLaunch_teams (s : State) (id : Nat) (x : Launch) : (s.putLaunch id x).teams = s.teams := rfl
@[simp] theorem State.putLaunch_cores (s : State) (id : Nat) (x : Launch) : (s.putLaunch id x).cores = s.cores := rfl
@[simp] theorem State.putLaunch_corbel (s : State) (id : Nat) (x : Launch) : (s.putLaunch id x).corbel = s.corbel := rfl
@[simp] theorem State.putLaunch_vault (s : State) (id : Nat) (x : Launch) : (s.putLaunch id x).vault = s.vault := rfl
@[simp] theorem State.putLaunch_vc (s : State) (id : Nat) (x : Launch) : (s.putLaunch id x).vc = s.vc := rfl
@[simp] theorem State.putLaunch_av (s : State) (id : Nat) (x : Launch) : (s.putLaunch id x).av = s.av := rfl
@[simp] theorem State.putLaunch_vreqs (s : State) (id : Nat) (x : Launch) : (s.putLaunch id x).vreqs = s.vreqs := rfl
@[simp] theorem State.putLaunch_preqs (s : State) (id : Nat) (x : Launch) : (s.putLaunch id x).preqs = s.preqs := rfl
@[simp] theorem State.putLaunch_iodq (s : State) (id : Nat) (x : Launch) : (s.putLaunch id x).iodq = s.iodq := rfl
@[simp] theorem State.putLaunch_badWords (s : State) (id : Nat) (x : Launch) : (s.putLaunch id x).badWords = s.badWords := rfl
@[simp] theorem State.putLaunch_holds (s : State) (id : Nat) (x : Launch) : (s.putLaunch id x).holds = s.holds := rfl
@[simp] theorem State.putLaunch_tlb (s : State) (id : Nat) (x : Launch) : (s.putLaunch id x).tlb = s.tlb := rfl
@[simp] theorem State.putLaunch_parts (s : State) (id : Nat) (x : Launch) : (s.putLaunch id x).parts = s.parts := rfl
@[simp] theorem State.putLaunch_reqs (s : State) (id : Nat) (x : Launch) : (s.putLaunch id x).reqs = s.reqs := rfl
@[simp] theorem State.putLaunch_modules (s : State) (id : Nat) (x : Launch) : (s.putLaunch id x).modules = s.modules := rfl
@[simp] theorem State.putLaunch_wiring (s : State) (id : Nat) (x : Launch) : (s.putLaunch id x).wiring = s.wiring := rfl
@[simp] theorem State.putLaunch_remotes (s : State) (id : Nat) (x : Launch) : (s.putLaunch id x).remotes = s.remotes := rfl
@[simp] theorem State.putLaunch_inbound (s : State) (id : Nat) (x : Launch) : (s.putLaunch id x).inbound = s.inbound := rfl
@[simp] theorem State.putLaunch_qbad (s : State) (id : Nat) (x : Launch) : (s.putLaunch id x).qbad = s.qbad := rfl
@[simp] theorem State.putLaunch_caps (s : State) (id : Nat) (x : Launch) : (s.putLaunch id x).caps = s.caps := rfl
@[simp] theorem State.putLaunch_netq (s : State) (id : Nat) (x : Launch) : (s.putLaunch id x).netq = s.netq := rfl
@[simp] theorem State.putLaunch_sentSeq (s : State) (id : Nat) (x : Launch) : (s.putLaunch id x).sentSeq = s.sentSeq := rfl
@[simp] theorem State.putLaunch_rcvdSeq (s : State) (id : Nat) (x : Launch) : (s.putLaunch id x).rcvdSeq = s.rcvdSeq := rfl
@[simp] theorem State.putLaunch_dealt (s : State) (id : Nat) (x : Launch) : (s.putLaunch id x).dealt = s.dealt := rfl
@[simp] theorem State.putLaunch_rot (s : State) (id : Nat) (x : Launch) : (s.putLaunch id x).rot = s.rot := rfl
@[simp] theorem State.putLaunch_ports (s : State) (id : Nat) (x : Launch) : (s.putLaunch id x).ports = s.ports := rfl
@[simp] theorem State.putLaunch_entries (s : State) (id : Nat) (x : Launch) : (s.putLaunch id x).entries = s.entries := rfl
@[simp] theorem State.putLaunch_pairs (s : State) (id : Nat) (x : Launch) : (s.putLaunch id x).pairs = s.pairs := rfl
@[simp] theorem State.putLaunch_links (s : State) (id : Nat) (x : Launch) : (s.putLaunch id x).links = s.links := rfl
@[simp] theorem State.putLaunch_chans (s : State) (id : Nat) (x : Launch) : (s.putLaunch id x).chans = s.chans := rfl
@[simp] theorem State.putLaunch_weakMrg (s : State) (id : Nat) (x : Launch) : (s.putLaunch id x).weakMrg = s.weakMrg := rfl
@[simp] theorem State.putLaunch_weakCer (s : State) (id : Nat) (x : Launch) : (s.putLaunch id x).weakCer = s.weakCer := rfl
@[simp] theorem State.putLaunch_period (s : State) (id : Nat) (x : Launch) : (s.putLaunch id x).period = s.period := rfl
@[simp] theorem State.putLaunch_lines (s : State) (id : Nat) (x : Launch) : (s.putLaunch id x).lines = s.lines := rfl
@[simp] theorem State.putLaunch_arrays (s : State) (id : Nat) (x : Launch) : (s.putLaunch id x).arrays = s.arrays := rfl
@[simp] theorem State.putLaunch_attests (s : State) (id : Nat) (x : Launch) : (s.putLaunch id x).attests = s.attests := rfl
@[simp] theorem State.putLaunch_house (s : State) (id : Nat) (x : Launch) : (s.putLaunch id x).house = s.house := rfl
@[simp] theorem State.putLaunch_meas (s : State) (id : Nat) (x : Launch) : (s.putLaunch id x).meas = s.meas := rfl
@[simp] theorem State.putLaunch_out (s : State) (id : Nat) (x : Launch) : (s.putLaunch id x).out = s.out := rfl
@[simp] theorem State.putLaunch_now (s : State) (id : Nat) (x : Launch) : (s.putLaunch id x).now = s.now := rfl
@[simp] theorem State.putLaunch_issueFrom (s : State) (id : Nat) (x : Launch) : (s.putLaunch id x).issueFrom = s.issueFrom := rfl
@[simp] theorem State.putLaunch_risen (s : State) (id : Nat) (x : Launch) : (s.putLaunch id x).risen = s.risen := rfl
@[simp] theorem State.putLaunch_next (s : State) (id : Nat) (x : Launch) : (s.putLaunch id x).next = s.next := rfl
@[simp] theorem State.putLaunch_free (s : State) (id : Nat) (x : Launch) : (s.putLaunch id x).free = s.free := rfl
@[simp] theorem State.putLaunch_cur (s : State) (id : Nat) (x : Launch) : (s.putLaunch id x).cur = s.cur := rfl
@[simp] theorem State.putLaunch_agenda (s : State) (id : Nat) (x : Launch) : (s.putLaunch id x).agenda = s.agenda := rfl

/-! ### dropLaunch -/

@[simp] theorem State.dropLaunch_pkg (s : State) (id : Nat) : (s.dropLaunch id).pkg = s.pkg := rfl
@[simp] theorem State.dropLaunch_gangs (s : State) (id : Nat) : (s.dropLaunch id).gangs = s.gangs := rfl
@[simp] theorem State.dropLaunch_teams (s : State) (id : Nat) : (s.dropLaunch id).teams = s.teams := rfl
@[simp] theorem State.dropLaunch_cores (s : State) (id : Nat) : (s.dropLaunch id).cores = s.cores := rfl
@[simp] theorem State.dropLaunch_corbel (s : State) (id : Nat) : (s.dropLaunch id).corbel = s.corbel := rfl
@[simp] theorem State.dropLaunch_vault (s : State) (id : Nat) : (s.dropLaunch id).vault = s.vault := rfl
@[simp] theorem State.dropLaunch_vc (s : State) (id : Nat) : (s.dropLaunch id).vc = s.vc := rfl
@[simp] theorem State.dropLaunch_av (s : State) (id : Nat) : (s.dropLaunch id).av = s.av := rfl
@[simp] theorem State.dropLaunch_vreqs (s : State) (id : Nat) : (s.dropLaunch id).vreqs = s.vreqs := rfl
@[simp] theorem State.dropLaunch_preqs (s : State) (id : Nat) : (s.dropLaunch id).preqs = s.preqs := rfl
@[simp] theorem State.dropLaunch_iodq (s : State) (id : Nat) : (s.dropLaunch id).iodq = s.iodq := rfl
@[simp] theorem State.dropLaunch_badWords (s : State) (id : Nat) : (s.dropLaunch id).badWords = s.badWords := rfl
@[simp] theorem State.dropLaunch_holds (s : State) (id : Nat) : (s.dropLaunch id).holds = s.holds := rfl
@[simp] theorem State.dropLaunch_tlb (s : State) (id : Nat) : (s.dropLaunch id).tlb = s.tlb := rfl
@[simp] theorem State.dropLaunch_parts (s : State) (id : Nat) : (s.dropLaunch id).parts = s.parts := rfl
@[simp] theorem State.dropLaunch_reqs (s : State) (id : Nat) : (s.dropLaunch id).reqs = s.reqs := rfl
@[simp] theorem State.dropLaunch_modules (s : State) (id : Nat) : (s.dropLaunch id).modules = s.modules := rfl
@[simp] theorem State.dropLaunch_wiring (s : State) (id : Nat) : (s.dropLaunch id).wiring = s.wiring := rfl
@[simp] theorem State.dropLaunch_remotes (s : State) (id : Nat) : (s.dropLaunch id).remotes = s.remotes := rfl
@[simp] theorem State.dropLaunch_inbound (s : State) (id : Nat) : (s.dropLaunch id).inbound = s.inbound := rfl
@[simp] theorem State.dropLaunch_qbad (s : State) (id : Nat) : (s.dropLaunch id).qbad = s.qbad := rfl
@[simp] theorem State.dropLaunch_caps (s : State) (id : Nat) : (s.dropLaunch id).caps = s.caps := rfl
@[simp] theorem State.dropLaunch_netq (s : State) (id : Nat) : (s.dropLaunch id).netq = s.netq := rfl
@[simp] theorem State.dropLaunch_sentSeq (s : State) (id : Nat) : (s.dropLaunch id).sentSeq = s.sentSeq := rfl
@[simp] theorem State.dropLaunch_rcvdSeq (s : State) (id : Nat) : (s.dropLaunch id).rcvdSeq = s.rcvdSeq := rfl
@[simp] theorem State.dropLaunch_dealt (s : State) (id : Nat) : (s.dropLaunch id).dealt = s.dealt := rfl
@[simp] theorem State.dropLaunch_rot (s : State) (id : Nat) : (s.dropLaunch id).rot = s.rot := rfl
@[simp] theorem State.dropLaunch_ports (s : State) (id : Nat) : (s.dropLaunch id).ports = s.ports := rfl
@[simp] theorem State.dropLaunch_entries (s : State) (id : Nat) : (s.dropLaunch id).entries = s.entries := rfl
@[simp] theorem State.dropLaunch_pairs (s : State) (id : Nat) : (s.dropLaunch id).pairs = s.pairs := rfl
@[simp] theorem State.dropLaunch_links (s : State) (id : Nat) : (s.dropLaunch id).links = s.links := rfl
@[simp] theorem State.dropLaunch_chans (s : State) (id : Nat) : (s.dropLaunch id).chans = s.chans := rfl
@[simp] theorem State.dropLaunch_weakMrg (s : State) (id : Nat) : (s.dropLaunch id).weakMrg = s.weakMrg := rfl
@[simp] theorem State.dropLaunch_weakCer (s : State) (id : Nat) : (s.dropLaunch id).weakCer = s.weakCer := rfl
@[simp] theorem State.dropLaunch_period (s : State) (id : Nat) : (s.dropLaunch id).period = s.period := rfl
@[simp] theorem State.dropLaunch_lines (s : State) (id : Nat) : (s.dropLaunch id).lines = s.lines := rfl
@[simp] theorem State.dropLaunch_arrays (s : State) (id : Nat) : (s.dropLaunch id).arrays = s.arrays := rfl
@[simp] theorem State.dropLaunch_attests (s : State) (id : Nat) : (s.dropLaunch id).attests = s.attests := rfl
@[simp] theorem State.dropLaunch_house (s : State) (id : Nat) : (s.dropLaunch id).house = s.house := rfl
@[simp] theorem State.dropLaunch_meas (s : State) (id : Nat) : (s.dropLaunch id).meas = s.meas := rfl
@[simp] theorem State.dropLaunch_out (s : State) (id : Nat) : (s.dropLaunch id).out = s.out := rfl
@[simp] theorem State.dropLaunch_now (s : State) (id : Nat) : (s.dropLaunch id).now = s.now := rfl
@[simp] theorem State.dropLaunch_issueFrom (s : State) (id : Nat) : (s.dropLaunch id).issueFrom = s.issueFrom := rfl
@[simp] theorem State.dropLaunch_risen (s : State) (id : Nat) : (s.dropLaunch id).risen = s.risen := rfl
@[simp] theorem State.dropLaunch_next (s : State) (id : Nat) : (s.dropLaunch id).next = s.next := rfl
@[simp] theorem State.dropLaunch_free (s : State) (id : Nat) : (s.dropLaunch id).free = s.free := rfl
@[simp] theorem State.dropLaunch_cur (s : State) (id : Nat) : (s.dropLaunch id).cur = s.cur := rfl
@[simp] theorem State.dropLaunch_agenda (s : State) (id : Nat) : (s.dropLaunch id).agenda = s.agenda := rfl

/-! ### putReq -/

@[simp] theorem State.putReq_pkg (s : State) (id : Nat) (x : FarReq) : (s.putReq id x).pkg = s.pkg := rfl
@[simp] theorem State.putReq_gangs (s : State) (id : Nat) (x : FarReq) : (s.putReq id x).gangs = s.gangs := rfl
@[simp] theorem State.putReq_teams (s : State) (id : Nat) (x : FarReq) : (s.putReq id x).teams = s.teams := rfl
@[simp] theorem State.putReq_cores (s : State) (id : Nat) (x : FarReq) : (s.putReq id x).cores = s.cores := rfl
@[simp] theorem State.putReq_corbel (s : State) (id : Nat) (x : FarReq) : (s.putReq id x).corbel = s.corbel := rfl
@[simp] theorem State.putReq_vault (s : State) (id : Nat) (x : FarReq) : (s.putReq id x).vault = s.vault := rfl
@[simp] theorem State.putReq_vc (s : State) (id : Nat) (x : FarReq) : (s.putReq id x).vc = s.vc := rfl
@[simp] theorem State.putReq_av (s : State) (id : Nat) (x : FarReq) : (s.putReq id x).av = s.av := rfl
@[simp] theorem State.putReq_vreqs (s : State) (id : Nat) (x : FarReq) : (s.putReq id x).vreqs = s.vreqs := rfl
@[simp] theorem State.putReq_preqs (s : State) (id : Nat) (x : FarReq) : (s.putReq id x).preqs = s.preqs := rfl
@[simp] theorem State.putReq_iodq (s : State) (id : Nat) (x : FarReq) : (s.putReq id x).iodq = s.iodq := rfl
@[simp] theorem State.putReq_badWords (s : State) (id : Nat) (x : FarReq) : (s.putReq id x).badWords = s.badWords := rfl
@[simp] theorem State.putReq_holds (s : State) (id : Nat) (x : FarReq) : (s.putReq id x).holds = s.holds := rfl
@[simp] theorem State.putReq_tlb (s : State) (id : Nat) (x : FarReq) : (s.putReq id x).tlb = s.tlb := rfl
@[simp] theorem State.putReq_parts (s : State) (id : Nat) (x : FarReq) : (s.putReq id x).parts = s.parts := rfl
@[simp] theorem State.putReq_launches (s : State) (id : Nat) (x : FarReq) : (s.putReq id x).launches = s.launches := rfl
@[simp] theorem State.putReq_modules (s : State) (id : Nat) (x : FarReq) : (s.putReq id x).modules = s.modules := rfl
@[simp] theorem State.putReq_wiring (s : State) (id : Nat) (x : FarReq) : (s.putReq id x).wiring = s.wiring := rfl
@[simp] theorem State.putReq_remotes (s : State) (id : Nat) (x : FarReq) : (s.putReq id x).remotes = s.remotes := rfl
@[simp] theorem State.putReq_inbound (s : State) (id : Nat) (x : FarReq) : (s.putReq id x).inbound = s.inbound := rfl
@[simp] theorem State.putReq_qbad (s : State) (id : Nat) (x : FarReq) : (s.putReq id x).qbad = s.qbad := rfl
@[simp] theorem State.putReq_caps (s : State) (id : Nat) (x : FarReq) : (s.putReq id x).caps = s.caps := rfl
@[simp] theorem State.putReq_netq (s : State) (id : Nat) (x : FarReq) : (s.putReq id x).netq = s.netq := rfl
@[simp] theorem State.putReq_sentSeq (s : State) (id : Nat) (x : FarReq) : (s.putReq id x).sentSeq = s.sentSeq := rfl
@[simp] theorem State.putReq_rcvdSeq (s : State) (id : Nat) (x : FarReq) : (s.putReq id x).rcvdSeq = s.rcvdSeq := rfl
@[simp] theorem State.putReq_dealt (s : State) (id : Nat) (x : FarReq) : (s.putReq id x).dealt = s.dealt := rfl
@[simp] theorem State.putReq_rot (s : State) (id : Nat) (x : FarReq) : (s.putReq id x).rot = s.rot := rfl
@[simp] theorem State.putReq_ports (s : State) (id : Nat) (x : FarReq) : (s.putReq id x).ports = s.ports := rfl
@[simp] theorem State.putReq_entries (s : State) (id : Nat) (x : FarReq) : (s.putReq id x).entries = s.entries := rfl
@[simp] theorem State.putReq_pairs (s : State) (id : Nat) (x : FarReq) : (s.putReq id x).pairs = s.pairs := rfl
@[simp] theorem State.putReq_links (s : State) (id : Nat) (x : FarReq) : (s.putReq id x).links = s.links := rfl
@[simp] theorem State.putReq_chans (s : State) (id : Nat) (x : FarReq) : (s.putReq id x).chans = s.chans := rfl
@[simp] theorem State.putReq_weakMrg (s : State) (id : Nat) (x : FarReq) : (s.putReq id x).weakMrg = s.weakMrg := rfl
@[simp] theorem State.putReq_weakCer (s : State) (id : Nat) (x : FarReq) : (s.putReq id x).weakCer = s.weakCer := rfl
@[simp] theorem State.putReq_period (s : State) (id : Nat) (x : FarReq) : (s.putReq id x).period = s.period := rfl
@[simp] theorem State.putReq_lines (s : State) (id : Nat) (x : FarReq) : (s.putReq id x).lines = s.lines := rfl
@[simp] theorem State.putReq_arrays (s : State) (id : Nat) (x : FarReq) : (s.putReq id x).arrays = s.arrays := rfl
@[simp] theorem State.putReq_attests (s : State) (id : Nat) (x : FarReq) : (s.putReq id x).attests = s.attests := rfl
@[simp] theorem State.putReq_house (s : State) (id : Nat) (x : FarReq) : (s.putReq id x).house = s.house := rfl
@[simp] theorem State.putReq_meas (s : State) (id : Nat) (x : FarReq) : (s.putReq id x).meas = s.meas := rfl
@[simp] theorem State.putReq_out (s : State) (id : Nat) (x : FarReq) : (s.putReq id x).out = s.out := rfl
@[simp] theorem State.putReq_now (s : State) (id : Nat) (x : FarReq) : (s.putReq id x).now = s.now := rfl
@[simp] theorem State.putReq_issueFrom (s : State) (id : Nat) (x : FarReq) : (s.putReq id x).issueFrom = s.issueFrom := rfl
@[simp] theorem State.putReq_risen (s : State) (id : Nat) (x : FarReq) : (s.putReq id x).risen = s.risen := rfl
@[simp] theorem State.putReq_next (s : State) (id : Nat) (x : FarReq) : (s.putReq id x).next = s.next := rfl
@[simp] theorem State.putReq_free (s : State) (id : Nat) (x : FarReq) : (s.putReq id x).free = s.free := rfl
@[simp] theorem State.putReq_cur (s : State) (id : Nat) (x : FarReq) : (s.putReq id x).cur = s.cur := rfl
@[simp] theorem State.putReq_agenda (s : State) (id : Nat) (x : FarReq) : (s.putReq id x).agenda = s.agenda := rfl

/-! ### dropReq -/

@[simp] theorem State.dropReq_pkg (s : State) (id : Nat) : (s.dropReq id).pkg = s.pkg := rfl
@[simp] theorem State.dropReq_gangs (s : State) (id : Nat) : (s.dropReq id).gangs = s.gangs := rfl
@[simp] theorem State.dropReq_teams (s : State) (id : Nat) : (s.dropReq id).teams = s.teams := rfl
@[simp] theorem State.dropReq_cores (s : State) (id : Nat) : (s.dropReq id).cores = s.cores := rfl
@[simp] theorem State.dropReq_corbel (s : State) (id : Nat) : (s.dropReq id).corbel = s.corbel := rfl
@[simp] theorem State.dropReq_vault (s : State) (id : Nat) : (s.dropReq id).vault = s.vault := rfl
@[simp] theorem State.dropReq_vc (s : State) (id : Nat) : (s.dropReq id).vc = s.vc := rfl
@[simp] theorem State.dropReq_av (s : State) (id : Nat) : (s.dropReq id).av = s.av := rfl
@[simp] theorem State.dropReq_vreqs (s : State) (id : Nat) : (s.dropReq id).vreqs = s.vreqs := rfl
@[simp] theorem State.dropReq_preqs (s : State) (id : Nat) : (s.dropReq id).preqs = s.preqs := rfl
@[simp] theorem State.dropReq_iodq (s : State) (id : Nat) : (s.dropReq id).iodq = s.iodq := rfl
@[simp] theorem State.dropReq_badWords (s : State) (id : Nat) : (s.dropReq id).badWords = s.badWords := rfl
@[simp] theorem State.dropReq_holds (s : State) (id : Nat) : (s.dropReq id).holds = s.holds := rfl
@[simp] theorem State.dropReq_tlb (s : State) (id : Nat) : (s.dropReq id).tlb = s.tlb := rfl
@[simp] theorem State.dropReq_parts (s : State) (id : Nat) : (s.dropReq id).parts = s.parts := rfl
@[simp] theorem State.dropReq_launches (s : State) (id : Nat) : (s.dropReq id).launches = s.launches := rfl
@[simp] theorem State.dropReq_modules (s : State) (id : Nat) : (s.dropReq id).modules = s.modules := rfl
@[simp] theorem State.dropReq_wiring (s : State) (id : Nat) : (s.dropReq id).wiring = s.wiring := rfl
@[simp] theorem State.dropReq_remotes (s : State) (id : Nat) : (s.dropReq id).remotes = s.remotes := rfl
@[simp] theorem State.dropReq_inbound (s : State) (id : Nat) : (s.dropReq id).inbound = s.inbound := rfl
@[simp] theorem State.dropReq_qbad (s : State) (id : Nat) : (s.dropReq id).qbad = s.qbad := rfl
@[simp] theorem State.dropReq_caps (s : State) (id : Nat) : (s.dropReq id).caps = s.caps := rfl
@[simp] theorem State.dropReq_netq (s : State) (id : Nat) : (s.dropReq id).netq = s.netq := rfl
@[simp] theorem State.dropReq_sentSeq (s : State) (id : Nat) : (s.dropReq id).sentSeq = s.sentSeq := rfl
@[simp] theorem State.dropReq_rcvdSeq (s : State) (id : Nat) : (s.dropReq id).rcvdSeq = s.rcvdSeq := rfl
@[simp] theorem State.dropReq_dealt (s : State) (id : Nat) : (s.dropReq id).dealt = s.dealt := rfl
@[simp] theorem State.dropReq_rot (s : State) (id : Nat) : (s.dropReq id).rot = s.rot := rfl
@[simp] theorem State.dropReq_ports (s : State) (id : Nat) : (s.dropReq id).ports = s.ports := rfl
@[simp] theorem State.dropReq_entries (s : State) (id : Nat) : (s.dropReq id).entries = s.entries := rfl
@[simp] theorem State.dropReq_pairs (s : State) (id : Nat) : (s.dropReq id).pairs = s.pairs := rfl
@[simp] theorem State.dropReq_links (s : State) (id : Nat) : (s.dropReq id).links = s.links := rfl
@[simp] theorem State.dropReq_chans (s : State) (id : Nat) : (s.dropReq id).chans = s.chans := rfl
@[simp] theorem State.dropReq_weakMrg (s : State) (id : Nat) : (s.dropReq id).weakMrg = s.weakMrg := rfl
@[simp] theorem State.dropReq_weakCer (s : State) (id : Nat) : (s.dropReq id).weakCer = s.weakCer := rfl
@[simp] theorem State.dropReq_period (s : State) (id : Nat) : (s.dropReq id).period = s.period := rfl
@[simp] theorem State.dropReq_lines (s : State) (id : Nat) : (s.dropReq id).lines = s.lines := rfl
@[simp] theorem State.dropReq_arrays (s : State) (id : Nat) : (s.dropReq id).arrays = s.arrays := rfl
@[simp] theorem State.dropReq_attests (s : State) (id : Nat) : (s.dropReq id).attests = s.attests := rfl
@[simp] theorem State.dropReq_house (s : State) (id : Nat) : (s.dropReq id).house = s.house := rfl
@[simp] theorem State.dropReq_meas (s : State) (id : Nat) : (s.dropReq id).meas = s.meas := rfl
@[simp] theorem State.dropReq_out (s : State) (id : Nat) : (s.dropReq id).out = s.out := rfl
@[simp] theorem State.dropReq_now (s : State) (id : Nat) : (s.dropReq id).now = s.now := rfl
@[simp] theorem State.dropReq_issueFrom (s : State) (id : Nat) : (s.dropReq id).issueFrom = s.issueFrom := rfl
@[simp] theorem State.dropReq_risen (s : State) (id : Nat) : (s.dropReq id).risen = s.risen := rfl
@[simp] theorem State.dropReq_next (s : State) (id : Nat) : (s.dropReq id).next = s.next := rfl
@[simp] theorem State.dropReq_free (s : State) (id : Nat) : (s.dropReq id).free = s.free := rfl
@[simp] theorem State.dropReq_cur (s : State) (id : Nat) : (s.dropReq id).cur = s.cur := rfl
@[simp] theorem State.dropReq_agenda (s : State) (id : Nat) : (s.dropReq id).agenda = s.agenda := rfl

/-! ### putRemote -/

@[simp] theorem State.putRemote_pkg (s : State) (id : Nat) (x : RemoteOut) : (s.putRemote id x).pkg = s.pkg := rfl
@[simp] theorem State.putRemote_gangs (s : State) (id : Nat) (x : RemoteOut) : (s.putRemote id x).gangs = s.gangs := rfl
@[simp] theorem State.putRemote_teams (s : State) (id : Nat) (x : RemoteOut) : (s.putRemote id x).teams = s.teams := rfl
@[simp] theorem State.putRemote_cores (s : State) (id : Nat) (x : RemoteOut) : (s.putRemote id x).cores = s.cores := rfl
@[simp] theorem State.putRemote_corbel (s : State) (id : Nat) (x : RemoteOut) : (s.putRemote id x).corbel = s.corbel := rfl
@[simp] theorem State.putRemote_vault (s : State) (id : Nat) (x : RemoteOut) : (s.putRemote id x).vault = s.vault := rfl
@[simp] theorem State.putRemote_vc (s : State) (id : Nat) (x : RemoteOut) : (s.putRemote id x).vc = s.vc := rfl
@[simp] theorem State.putRemote_av (s : State) (id : Nat) (x : RemoteOut) : (s.putRemote id x).av = s.av := rfl
@[simp] theorem State.putRemote_vreqs (s : State) (id : Nat) (x : RemoteOut) : (s.putRemote id x).vreqs = s.vreqs := rfl
@[simp] theorem State.putRemote_preqs (s : State) (id : Nat) (x : RemoteOut) : (s.putRemote id x).preqs = s.preqs := rfl
@[simp] theorem State.putRemote_iodq (s : State) (id : Nat) (x : RemoteOut) : (s.putRemote id x).iodq = s.iodq := rfl
@[simp] theorem State.putRemote_badWords (s : State) (id : Nat) (x : RemoteOut) : (s.putRemote id x).badWords = s.badWords := rfl
@[simp] theorem State.putRemote_holds (s : State) (id : Nat) (x : RemoteOut) : (s.putRemote id x).holds = s.holds := rfl
@[simp] theorem State.putRemote_tlb (s : State) (id : Nat) (x : RemoteOut) : (s.putRemote id x).tlb = s.tlb := rfl
@[simp] theorem State.putRemote_parts (s : State) (id : Nat) (x : RemoteOut) : (s.putRemote id x).parts = s.parts := rfl
@[simp] theorem State.putRemote_launches (s : State) (id : Nat) (x : RemoteOut) : (s.putRemote id x).launches = s.launches := rfl
@[simp] theorem State.putRemote_reqs (s : State) (id : Nat) (x : RemoteOut) : (s.putRemote id x).reqs = s.reqs := rfl
@[simp] theorem State.putRemote_modules (s : State) (id : Nat) (x : RemoteOut) : (s.putRemote id x).modules = s.modules := rfl
@[simp] theorem State.putRemote_wiring (s : State) (id : Nat) (x : RemoteOut) : (s.putRemote id x).wiring = s.wiring := rfl
@[simp] theorem State.putRemote_inbound (s : State) (id : Nat) (x : RemoteOut) : (s.putRemote id x).inbound = s.inbound := rfl
@[simp] theorem State.putRemote_qbad (s : State) (id : Nat) (x : RemoteOut) : (s.putRemote id x).qbad = s.qbad := rfl
@[simp] theorem State.putRemote_caps (s : State) (id : Nat) (x : RemoteOut) : (s.putRemote id x).caps = s.caps := rfl
@[simp] theorem State.putRemote_netq (s : State) (id : Nat) (x : RemoteOut) : (s.putRemote id x).netq = s.netq := rfl
@[simp] theorem State.putRemote_sentSeq (s : State) (id : Nat) (x : RemoteOut) : (s.putRemote id x).sentSeq = s.sentSeq := rfl
@[simp] theorem State.putRemote_rcvdSeq (s : State) (id : Nat) (x : RemoteOut) : (s.putRemote id x).rcvdSeq = s.rcvdSeq := rfl
@[simp] theorem State.putRemote_dealt (s : State) (id : Nat) (x : RemoteOut) : (s.putRemote id x).dealt = s.dealt := rfl
@[simp] theorem State.putRemote_rot (s : State) (id : Nat) (x : RemoteOut) : (s.putRemote id x).rot = s.rot := rfl
@[simp] theorem State.putRemote_ports (s : State) (id : Nat) (x : RemoteOut) : (s.putRemote id x).ports = s.ports := rfl
@[simp] theorem State.putRemote_entries (s : State) (id : Nat) (x : RemoteOut) : (s.putRemote id x).entries = s.entries := rfl
@[simp] theorem State.putRemote_pairs (s : State) (id : Nat) (x : RemoteOut) : (s.putRemote id x).pairs = s.pairs := rfl
@[simp] theorem State.putRemote_links (s : State) (id : Nat) (x : RemoteOut) : (s.putRemote id x).links = s.links := rfl
@[simp] theorem State.putRemote_chans (s : State) (id : Nat) (x : RemoteOut) : (s.putRemote id x).chans = s.chans := rfl
@[simp] theorem State.putRemote_weakMrg (s : State) (id : Nat) (x : RemoteOut) : (s.putRemote id x).weakMrg = s.weakMrg := rfl
@[simp] theorem State.putRemote_weakCer (s : State) (id : Nat) (x : RemoteOut) : (s.putRemote id x).weakCer = s.weakCer := rfl
@[simp] theorem State.putRemote_period (s : State) (id : Nat) (x : RemoteOut) : (s.putRemote id x).period = s.period := rfl
@[simp] theorem State.putRemote_lines (s : State) (id : Nat) (x : RemoteOut) : (s.putRemote id x).lines = s.lines := rfl
@[simp] theorem State.putRemote_arrays (s : State) (id : Nat) (x : RemoteOut) : (s.putRemote id x).arrays = s.arrays := rfl
@[simp] theorem State.putRemote_attests (s : State) (id : Nat) (x : RemoteOut) : (s.putRemote id x).attests = s.attests := rfl
@[simp] theorem State.putRemote_house (s : State) (id : Nat) (x : RemoteOut) : (s.putRemote id x).house = s.house := rfl
@[simp] theorem State.putRemote_meas (s : State) (id : Nat) (x : RemoteOut) : (s.putRemote id x).meas = s.meas := rfl
@[simp] theorem State.putRemote_out (s : State) (id : Nat) (x : RemoteOut) : (s.putRemote id x).out = s.out := rfl
@[simp] theorem State.putRemote_now (s : State) (id : Nat) (x : RemoteOut) : (s.putRemote id x).now = s.now := rfl
@[simp] theorem State.putRemote_issueFrom (s : State) (id : Nat) (x : RemoteOut) : (s.putRemote id x).issueFrom = s.issueFrom := rfl
@[simp] theorem State.putRemote_risen (s : State) (id : Nat) (x : RemoteOut) : (s.putRemote id x).risen = s.risen := rfl
@[simp] theorem State.putRemote_next (s : State) (id : Nat) (x : RemoteOut) : (s.putRemote id x).next = s.next := rfl
@[simp] theorem State.putRemote_free (s : State) (id : Nat) (x : RemoteOut) : (s.putRemote id x).free = s.free := rfl
@[simp] theorem State.putRemote_cur (s : State) (id : Nat) (x : RemoteOut) : (s.putRemote id x).cur = s.cur := rfl
@[simp] theorem State.putRemote_agenda (s : State) (id : Nat) (x : RemoteOut) : (s.putRemote id x).agenda = s.agenda := rfl

/-! ### dropRemote -/

@[simp] theorem State.dropRemote_pkg (s : State) (id : Nat) : (s.dropRemote id).pkg = s.pkg := rfl
@[simp] theorem State.dropRemote_gangs (s : State) (id : Nat) : (s.dropRemote id).gangs = s.gangs := rfl
@[simp] theorem State.dropRemote_teams (s : State) (id : Nat) : (s.dropRemote id).teams = s.teams := rfl
@[simp] theorem State.dropRemote_cores (s : State) (id : Nat) : (s.dropRemote id).cores = s.cores := rfl
@[simp] theorem State.dropRemote_corbel (s : State) (id : Nat) : (s.dropRemote id).corbel = s.corbel := rfl
@[simp] theorem State.dropRemote_vault (s : State) (id : Nat) : (s.dropRemote id).vault = s.vault := rfl
@[simp] theorem State.dropRemote_vc (s : State) (id : Nat) : (s.dropRemote id).vc = s.vc := rfl
@[simp] theorem State.dropRemote_av (s : State) (id : Nat) : (s.dropRemote id).av = s.av := rfl
@[simp] theorem State.dropRemote_vreqs (s : State) (id : Nat) : (s.dropRemote id).vreqs = s.vreqs := rfl
@[simp] theorem State.dropRemote_preqs (s : State) (id : Nat) : (s.dropRemote id).preqs = s.preqs := rfl
@[simp] theorem State.dropRemote_iodq (s : State) (id : Nat) : (s.dropRemote id).iodq = s.iodq := rfl
@[simp] theorem State.dropRemote_badWords (s : State) (id : Nat) : (s.dropRemote id).badWords = s.badWords := rfl
@[simp] theorem State.dropRemote_holds (s : State) (id : Nat) : (s.dropRemote id).holds = s.holds := rfl
@[simp] theorem State.dropRemote_tlb (s : State) (id : Nat) : (s.dropRemote id).tlb = s.tlb := rfl
@[simp] theorem State.dropRemote_parts (s : State) (id : Nat) : (s.dropRemote id).parts = s.parts := rfl
@[simp] theorem State.dropRemote_launches (s : State) (id : Nat) : (s.dropRemote id).launches = s.launches := rfl
@[simp] theorem State.dropRemote_reqs (s : State) (id : Nat) : (s.dropRemote id).reqs = s.reqs := rfl
@[simp] theorem State.dropRemote_modules (s : State) (id : Nat) : (s.dropRemote id).modules = s.modules := rfl
@[simp] theorem State.dropRemote_wiring (s : State) (id : Nat) : (s.dropRemote id).wiring = s.wiring := rfl
@[simp] theorem State.dropRemote_inbound (s : State) (id : Nat) : (s.dropRemote id).inbound = s.inbound := rfl
@[simp] theorem State.dropRemote_qbad (s : State) (id : Nat) : (s.dropRemote id).qbad = s.qbad := rfl
@[simp] theorem State.dropRemote_caps (s : State) (id : Nat) : (s.dropRemote id).caps = s.caps := rfl
@[simp] theorem State.dropRemote_netq (s : State) (id : Nat) : (s.dropRemote id).netq = s.netq := rfl
@[simp] theorem State.dropRemote_sentSeq (s : State) (id : Nat) : (s.dropRemote id).sentSeq = s.sentSeq := rfl
@[simp] theorem State.dropRemote_rcvdSeq (s : State) (id : Nat) : (s.dropRemote id).rcvdSeq = s.rcvdSeq := rfl
@[simp] theorem State.dropRemote_dealt (s : State) (id : Nat) : (s.dropRemote id).dealt = s.dealt := rfl
@[simp] theorem State.dropRemote_rot (s : State) (id : Nat) : (s.dropRemote id).rot = s.rot := rfl
@[simp] theorem State.dropRemote_ports (s : State) (id : Nat) : (s.dropRemote id).ports = s.ports := rfl
@[simp] theorem State.dropRemote_entries (s : State) (id : Nat) : (s.dropRemote id).entries = s.entries := rfl
@[simp] theorem State.dropRemote_pairs (s : State) (id : Nat) : (s.dropRemote id).pairs = s.pairs := rfl
@[simp] theorem State.dropRemote_links (s : State) (id : Nat) : (s.dropRemote id).links = s.links := rfl
@[simp] theorem State.dropRemote_chans (s : State) (id : Nat) : (s.dropRemote id).chans = s.chans := rfl
@[simp] theorem State.dropRemote_weakMrg (s : State) (id : Nat) : (s.dropRemote id).weakMrg = s.weakMrg := rfl
@[simp] theorem State.dropRemote_weakCer (s : State) (id : Nat) : (s.dropRemote id).weakCer = s.weakCer := rfl
@[simp] theorem State.dropRemote_period (s : State) (id : Nat) : (s.dropRemote id).period = s.period := rfl
@[simp] theorem State.dropRemote_lines (s : State) (id : Nat) : (s.dropRemote id).lines = s.lines := rfl
@[simp] theorem State.dropRemote_arrays (s : State) (id : Nat) : (s.dropRemote id).arrays = s.arrays := rfl
@[simp] theorem State.dropRemote_attests (s : State) (id : Nat) : (s.dropRemote id).attests = s.attests := rfl
@[simp] theorem State.dropRemote_house (s : State) (id : Nat) : (s.dropRemote id).house = s.house := rfl
@[simp] theorem State.dropRemote_meas (s : State) (id : Nat) : (s.dropRemote id).meas = s.meas := rfl
@[simp] theorem State.dropRemote_out (s : State) (id : Nat) : (s.dropRemote id).out = s.out := rfl
@[simp] theorem State.dropRemote_now (s : State) (id : Nat) : (s.dropRemote id).now = s.now := rfl
@[simp] theorem State.dropRemote_issueFrom (s : State) (id : Nat) : (s.dropRemote id).issueFrom = s.issueFrom := rfl
@[simp] theorem State.dropRemote_risen (s : State) (id : Nat) : (s.dropRemote id).risen = s.risen := rfl
@[simp] theorem State.dropRemote_next (s : State) (id : Nat) : (s.dropRemote id).next = s.next := rfl
@[simp] theorem State.dropRemote_free (s : State) (id : Nat) : (s.dropRemote id).free = s.free := rfl
@[simp] theorem State.dropRemote_cur (s : State) (id : Nat) : (s.dropRemote id).cur = s.cur := rfl
@[simp] theorem State.dropRemote_agenda (s : State) (id : Nat) : (s.dropRemote id).agenda = s.agenda := rfl

/-! ### putCore -/

@[simp] theorem State.putCore_pkg (s : State) (n : Nat) (x : Core) : (s.putCore n x).pkg = s.pkg := rfl
@[simp] theorem State.putCore_gangs (s : State) (n : Nat) (x : Core) : (s.putCore n x).gangs = s.gangs := rfl
@[simp] theorem State.putCore_teams (s : State) (n : Nat) (x : Core) : (s.putCore n x).teams = s.teams := rfl
@[simp] theorem State.putCore_corbel (s : State) (n : Nat) (x : Core) : (s.putCore n x).corbel = s.corbel := rfl
@[simp] theorem State.putCore_vault (s : State) (n : Nat) (x : Core) : (s.putCore n x).vault = s.vault := rfl
@[simp] theorem State.putCore_vc (s : State) (n : Nat) (x : Core) : (s.putCore n x).vc = s.vc := rfl
@[simp] theorem State.putCore_av (s : State) (n : Nat) (x : Core) : (s.putCore n x).av = s.av := rfl
@[simp] theorem State.putCore_vreqs (s : State) (n : Nat) (x : Core) : (s.putCore n x).vreqs = s.vreqs := rfl
@[simp] theorem State.putCore_preqs (s : State) (n : Nat) (x : Core) : (s.putCore n x).preqs = s.preqs := rfl
@[simp] theorem State.putCore_iodq (s : State) (n : Nat) (x : Core) : (s.putCore n x).iodq = s.iodq := rfl
@[simp] theorem State.putCore_badWords (s : State) (n : Nat) (x : Core) : (s.putCore n x).badWords = s.badWords := rfl
@[simp] theorem State.putCore_holds (s : State) (n : Nat) (x : Core) : (s.putCore n x).holds = s.holds := rfl
@[simp] theorem State.putCore_tlb (s : State) (n : Nat) (x : Core) : (s.putCore n x).tlb = s.tlb := rfl
@[simp] theorem State.putCore_parts (s : State) (n : Nat) (x : Core) : (s.putCore n x).parts = s.parts := rfl
@[simp] theorem State.putCore_launches (s : State) (n : Nat) (x : Core) : (s.putCore n x).launches = s.launches := rfl
@[simp] theorem State.putCore_reqs (s : State) (n : Nat) (x : Core) : (s.putCore n x).reqs = s.reqs := rfl
@[simp] theorem State.putCore_modules (s : State) (n : Nat) (x : Core) : (s.putCore n x).modules = s.modules := rfl
@[simp] theorem State.putCore_wiring (s : State) (n : Nat) (x : Core) : (s.putCore n x).wiring = s.wiring := rfl
@[simp] theorem State.putCore_remotes (s : State) (n : Nat) (x : Core) : (s.putCore n x).remotes = s.remotes := rfl
@[simp] theorem State.putCore_inbound (s : State) (n : Nat) (x : Core) : (s.putCore n x).inbound = s.inbound := rfl
@[simp] theorem State.putCore_qbad (s : State) (n : Nat) (x : Core) : (s.putCore n x).qbad = s.qbad := rfl
@[simp] theorem State.putCore_caps (s : State) (n : Nat) (x : Core) : (s.putCore n x).caps = s.caps := rfl
@[simp] theorem State.putCore_netq (s : State) (n : Nat) (x : Core) : (s.putCore n x).netq = s.netq := rfl
@[simp] theorem State.putCore_sentSeq (s : State) (n : Nat) (x : Core) : (s.putCore n x).sentSeq = s.sentSeq := rfl
@[simp] theorem State.putCore_rcvdSeq (s : State) (n : Nat) (x : Core) : (s.putCore n x).rcvdSeq = s.rcvdSeq := rfl
@[simp] theorem State.putCore_dealt (s : State) (n : Nat) (x : Core) : (s.putCore n x).dealt = s.dealt := rfl
@[simp] theorem State.putCore_rot (s : State) (n : Nat) (x : Core) : (s.putCore n x).rot = s.rot := rfl
@[simp] theorem State.putCore_ports (s : State) (n : Nat) (x : Core) : (s.putCore n x).ports = s.ports := rfl
@[simp] theorem State.putCore_entries (s : State) (n : Nat) (x : Core) : (s.putCore n x).entries = s.entries := rfl
@[simp] theorem State.putCore_pairs (s : State) (n : Nat) (x : Core) : (s.putCore n x).pairs = s.pairs := rfl
@[simp] theorem State.putCore_links (s : State) (n : Nat) (x : Core) : (s.putCore n x).links = s.links := rfl
@[simp] theorem State.putCore_chans (s : State) (n : Nat) (x : Core) : (s.putCore n x).chans = s.chans := rfl
@[simp] theorem State.putCore_weakMrg (s : State) (n : Nat) (x : Core) : (s.putCore n x).weakMrg = s.weakMrg := rfl
@[simp] theorem State.putCore_weakCer (s : State) (n : Nat) (x : Core) : (s.putCore n x).weakCer = s.weakCer := rfl
@[simp] theorem State.putCore_period (s : State) (n : Nat) (x : Core) : (s.putCore n x).period = s.period := rfl
@[simp] theorem State.putCore_lines (s : State) (n : Nat) (x : Core) : (s.putCore n x).lines = s.lines := rfl
@[simp] theorem State.putCore_arrays (s : State) (n : Nat) (x : Core) : (s.putCore n x).arrays = s.arrays := rfl
@[simp] theorem State.putCore_attests (s : State) (n : Nat) (x : Core) : (s.putCore n x).attests = s.attests := rfl
@[simp] theorem State.putCore_house (s : State) (n : Nat) (x : Core) : (s.putCore n x).house = s.house := rfl
@[simp] theorem State.putCore_meas (s : State) (n : Nat) (x : Core) : (s.putCore n x).meas = s.meas := rfl
@[simp] theorem State.putCore_out (s : State) (n : Nat) (x : Core) : (s.putCore n x).out = s.out := rfl
@[simp] theorem State.putCore_now (s : State) (n : Nat) (x : Core) : (s.putCore n x).now = s.now := rfl
@[simp] theorem State.putCore_issueFrom (s : State) (n : Nat) (x : Core) : (s.putCore n x).issueFrom = s.issueFrom := rfl
@[simp] theorem State.putCore_risen (s : State) (n : Nat) (x : Core) : (s.putCore n x).risen = s.risen := rfl
@[simp] theorem State.putCore_next (s : State) (n : Nat) (x : Core) : (s.putCore n x).next = s.next := rfl
@[simp] theorem State.putCore_free (s : State) (n : Nat) (x : Core) : (s.putCore n x).free = s.free := rfl
@[simp] theorem State.putCore_cur (s : State) (n : Nat) (x : Core) : (s.putCore n x).cur = s.cur := rfl
@[simp] theorem State.putCore_agenda (s : State) (n : Nat) (x : Core) : (s.putCore n x).agenda = s.agenda := rfl

/-! ### modCore -/

@[simp] theorem State.modCore_pkg (s : State) (n : Nat) (f : Core → Core) : (s.modCore n f).pkg = s.pkg := rfl
@[simp] theorem State.modCore_gangs (s : State) (n : Nat) (f : Core → Core) : (s.modCore n f).gangs = s.gangs := rfl
@[simp] theorem State.modCore_teams (s : State) (n : Nat) (f : Core → Core) : (s.modCore n f).teams = s.teams := rfl
@[simp] theorem State.modCore_corbel (s : State) (n : Nat) (f : Core → Core) : (s.modCore n f).corbel = s.corbel := rfl
@[simp] theorem State.modCore_vault (s : State) (n : Nat) (f : Core → Core) : (s.modCore n f).vault = s.vault := rfl
@[simp] theorem State.modCore_vc (s : State) (n : Nat) (f : Core → Core) : (s.modCore n f).vc = s.vc := rfl
@[simp] theorem State.modCore_av (s : State) (n : Nat) (f : Core → Core) : (s.modCore n f).av = s.av := rfl
@[simp] theorem State.modCore_vreqs (s : State) (n : Nat) (f : Core → Core) : (s.modCore n f).vreqs = s.vreqs := rfl
@[simp] theorem State.modCore_preqs (s : State) (n : Nat) (f : Core → Core) : (s.modCore n f).preqs = s.preqs := rfl
@[simp] theorem State.modCore_iodq (s : State) (n : Nat) (f : Core → Core) : (s.modCore n f).iodq = s.iodq := rfl
@[simp] theorem State.modCore_badWords (s : State) (n : Nat) (f : Core → Core) : (s.modCore n f).badWords = s.badWords := rfl
@[simp] theorem State.modCore_holds (s : State) (n : Nat) (f : Core → Core) : (s.modCore n f).holds = s.holds := rfl
@[simp] theorem State.modCore_tlb (s : State) (n : Nat) (f : Core → Core) : (s.modCore n f).tlb = s.tlb := rfl
@[simp] theorem State.modCore_parts (s : State) (n : Nat) (f : Core → Core) : (s.modCore n f).parts = s.parts := rfl
@[simp] theorem State.modCore_launches (s : State) (n : Nat) (f : Core → Core) : (s.modCore n f).launches = s.launches := rfl
@[simp] theorem State.modCore_reqs (s : State) (n : Nat) (f : Core → Core) : (s.modCore n f).reqs = s.reqs := rfl
@[simp] theorem State.modCore_modules (s : State) (n : Nat) (f : Core → Core) : (s.modCore n f).modules = s.modules := rfl
@[simp] theorem State.modCore_wiring (s : State) (n : Nat) (f : Core → Core) : (s.modCore n f).wiring = s.wiring := rfl
@[simp] theorem State.modCore_remotes (s : State) (n : Nat) (f : Core → Core) : (s.modCore n f).remotes = s.remotes := rfl
@[simp] theorem State.modCore_inbound (s : State) (n : Nat) (f : Core → Core) : (s.modCore n f).inbound = s.inbound := rfl
@[simp] theorem State.modCore_qbad (s : State) (n : Nat) (f : Core → Core) : (s.modCore n f).qbad = s.qbad := rfl
@[simp] theorem State.modCore_caps (s : State) (n : Nat) (f : Core → Core) : (s.modCore n f).caps = s.caps := rfl
@[simp] theorem State.modCore_netq (s : State) (n : Nat) (f : Core → Core) : (s.modCore n f).netq = s.netq := rfl
@[simp] theorem State.modCore_sentSeq (s : State) (n : Nat) (f : Core → Core) : (s.modCore n f).sentSeq = s.sentSeq := rfl
@[simp] theorem State.modCore_rcvdSeq (s : State) (n : Nat) (f : Core → Core) : (s.modCore n f).rcvdSeq = s.rcvdSeq := rfl
@[simp] theorem State.modCore_dealt (s : State) (n : Nat) (f : Core → Core) : (s.modCore n f).dealt = s.dealt := rfl
@[simp] theorem State.modCore_rot (s : State) (n : Nat) (f : Core → Core) : (s.modCore n f).rot = s.rot := rfl
@[simp] theorem State.modCore_ports (s : State) (n : Nat) (f : Core → Core) : (s.modCore n f).ports = s.ports := rfl
@[simp] theorem State.modCore_entries (s : State) (n : Nat) (f : Core → Core) : (s.modCore n f).entries = s.entries := rfl
@[simp] theorem State.modCore_pairs (s : State) (n : Nat) (f : Core → Core) : (s.modCore n f).pairs = s.pairs := rfl
@[simp] theorem State.modCore_links (s : State) (n : Nat) (f : Core → Core) : (s.modCore n f).links = s.links := rfl
@[simp] theorem State.modCore_chans (s : State) (n : Nat) (f : Core → Core) : (s.modCore n f).chans = s.chans := rfl
@[simp] theorem State.modCore_weakMrg (s : State) (n : Nat) (f : Core → Core) : (s.modCore n f).weakMrg = s.weakMrg := rfl
@[simp] theorem State.modCore_weakCer (s : State) (n : Nat) (f : Core → Core) : (s.modCore n f).weakCer = s.weakCer := rfl
@[simp] theorem State.modCore_period (s : State) (n : Nat) (f : Core → Core) : (s.modCore n f).period = s.period := rfl
@[simp] theorem State.modCore_lines (s : State) (n : Nat) (f : Core → Core) : (s.modCore n f).lines = s.lines := rfl
@[simp] theorem State.modCore_arrays (s : State) (n : Nat) (f : Core → Core) : (s.modCore n f).arrays = s.arrays := rfl
@[simp] theorem State.modCore_attests (s : State) (n : Nat) (f : Core → Core) : (s.modCore n f).attests = s.attests := rfl
@[simp] theorem State.modCore_house (s : State) (n : Nat) (f : Core → Core) : (s.modCore n f).house = s.house := rfl
@[simp] theorem State.modCore_meas (s : State) (n : Nat) (f : Core → Core) : (s.modCore n f).meas = s.meas := rfl
@[simp] theorem State.modCore_out (s : State) (n : Nat) (f : Core → Core) : (s.modCore n f).out = s.out := rfl
@[simp] theorem State.modCore_now (s : State) (n : Nat) (f : Core → Core) : (s.modCore n f).now = s.now := rfl
@[simp] theorem State.modCore_issueFrom (s : State) (n : Nat) (f : Core → Core) : (s.modCore n f).issueFrom = s.issueFrom := rfl
@[simp] theorem State.modCore_risen (s : State) (n : Nat) (f : Core → Core) : (s.modCore n f).risen = s.risen := rfl
@[simp] theorem State.modCore_next (s : State) (n : Nat) (f : Core → Core) : (s.modCore n f).next = s.next := rfl
@[simp] theorem State.modCore_free (s : State) (n : Nat) (f : Core → Core) : (s.modCore n f).free = s.free := rfl
@[simp] theorem State.modCore_cur (s : State) (n : Nat) (f : Core → Core) : (s.modCore n f).cur = s.cur := rfl
@[simp] theorem State.modCore_agenda (s : State) (n : Nat) (f : Core → Core) : (s.modCore n f).agenda = s.agenda := rfl

/-! ### putPart -/

@[simp] theorem State.putPart_pkg (s : State) (n : Nat) (x : Partition) : (s.putPart n x).pkg = s.pkg := rfl
@[simp] theorem State.putPart_gangs (s : State) (n : Nat) (x : Partition) : (s.putPart n x).gangs = s.gangs := rfl
@[simp] theorem State.putPart_teams (s : State) (n : Nat) (x : Partition) : (s.putPart n x).teams = s.teams := rfl
@[simp] theorem State.putPart_cores (s : State) (n : Nat) (x : Partition) : (s.putPart n x).cores = s.cores := rfl
@[simp] theorem State.putPart_corbel (s : State) (n : Nat) (x : Partition) : (s.putPart n x).corbel = s.corbel := rfl
@[simp] theorem State.putPart_vault (s : State) (n : Nat) (x : Partition) : (s.putPart n x).vault = s.vault := rfl
@[simp] theorem State.putPart_vc (s : State) (n : Nat) (x : Partition) : (s.putPart n x).vc = s.vc := rfl
@[simp] theorem State.putPart_av (s : State) (n : Nat) (x : Partition) : (s.putPart n x).av = s.av := rfl
@[simp] theorem State.putPart_vreqs (s : State) (n : Nat) (x : Partition) : (s.putPart n x).vreqs = s.vreqs := rfl
@[simp] theorem State.putPart_preqs (s : State) (n : Nat) (x : Partition) : (s.putPart n x).preqs = s.preqs := rfl
@[simp] theorem State.putPart_iodq (s : State) (n : Nat) (x : Partition) : (s.putPart n x).iodq = s.iodq := rfl
@[simp] theorem State.putPart_badWords (s : State) (n : Nat) (x : Partition) : (s.putPart n x).badWords = s.badWords := rfl
@[simp] theorem State.putPart_holds (s : State) (n : Nat) (x : Partition) : (s.putPart n x).holds = s.holds := rfl
@[simp] theorem State.putPart_tlb (s : State) (n : Nat) (x : Partition) : (s.putPart n x).tlb = s.tlb := rfl
@[simp] theorem State.putPart_launches (s : State) (n : Nat) (x : Partition) : (s.putPart n x).launches = s.launches := rfl
@[simp] theorem State.putPart_reqs (s : State) (n : Nat) (x : Partition) : (s.putPart n x).reqs = s.reqs := rfl
@[simp] theorem State.putPart_modules (s : State) (n : Nat) (x : Partition) : (s.putPart n x).modules = s.modules := rfl
@[simp] theorem State.putPart_wiring (s : State) (n : Nat) (x : Partition) : (s.putPart n x).wiring = s.wiring := rfl
@[simp] theorem State.putPart_remotes (s : State) (n : Nat) (x : Partition) : (s.putPart n x).remotes = s.remotes := rfl
@[simp] theorem State.putPart_inbound (s : State) (n : Nat) (x : Partition) : (s.putPart n x).inbound = s.inbound := rfl
@[simp] theorem State.putPart_qbad (s : State) (n : Nat) (x : Partition) : (s.putPart n x).qbad = s.qbad := rfl
@[simp] theorem State.putPart_caps (s : State) (n : Nat) (x : Partition) : (s.putPart n x).caps = s.caps := rfl
@[simp] theorem State.putPart_netq (s : State) (n : Nat) (x : Partition) : (s.putPart n x).netq = s.netq := rfl
@[simp] theorem State.putPart_sentSeq (s : State) (n : Nat) (x : Partition) : (s.putPart n x).sentSeq = s.sentSeq := rfl
@[simp] theorem State.putPart_rcvdSeq (s : State) (n : Nat) (x : Partition) : (s.putPart n x).rcvdSeq = s.rcvdSeq := rfl
@[simp] theorem State.putPart_dealt (s : State) (n : Nat) (x : Partition) : (s.putPart n x).dealt = s.dealt := rfl
@[simp] theorem State.putPart_rot (s : State) (n : Nat) (x : Partition) : (s.putPart n x).rot = s.rot := rfl
@[simp] theorem State.putPart_ports (s : State) (n : Nat) (x : Partition) : (s.putPart n x).ports = s.ports := rfl
@[simp] theorem State.putPart_entries (s : State) (n : Nat) (x : Partition) : (s.putPart n x).entries = s.entries := rfl
@[simp] theorem State.putPart_pairs (s : State) (n : Nat) (x : Partition) : (s.putPart n x).pairs = s.pairs := rfl
@[simp] theorem State.putPart_links (s : State) (n : Nat) (x : Partition) : (s.putPart n x).links = s.links := rfl
@[simp] theorem State.putPart_chans (s : State) (n : Nat) (x : Partition) : (s.putPart n x).chans = s.chans := rfl
@[simp] theorem State.putPart_weakMrg (s : State) (n : Nat) (x : Partition) : (s.putPart n x).weakMrg = s.weakMrg := rfl
@[simp] theorem State.putPart_weakCer (s : State) (n : Nat) (x : Partition) : (s.putPart n x).weakCer = s.weakCer := rfl
@[simp] theorem State.putPart_period (s : State) (n : Nat) (x : Partition) : (s.putPart n x).period = s.period := rfl
@[simp] theorem State.putPart_lines (s : State) (n : Nat) (x : Partition) : (s.putPart n x).lines = s.lines := rfl
@[simp] theorem State.putPart_arrays (s : State) (n : Nat) (x : Partition) : (s.putPart n x).arrays = s.arrays := rfl
@[simp] theorem State.putPart_attests (s : State) (n : Nat) (x : Partition) : (s.putPart n x).attests = s.attests := rfl
@[simp] theorem State.putPart_house (s : State) (n : Nat) (x : Partition) : (s.putPart n x).house = s.house := rfl
@[simp] theorem State.putPart_meas (s : State) (n : Nat) (x : Partition) : (s.putPart n x).meas = s.meas := rfl
@[simp] theorem State.putPart_out (s : State) (n : Nat) (x : Partition) : (s.putPart n x).out = s.out := rfl
@[simp] theorem State.putPart_now (s : State) (n : Nat) (x : Partition) : (s.putPart n x).now = s.now := rfl
@[simp] theorem State.putPart_issueFrom (s : State) (n : Nat) (x : Partition) : (s.putPart n x).issueFrom = s.issueFrom := rfl
@[simp] theorem State.putPart_risen (s : State) (n : Nat) (x : Partition) : (s.putPart n x).risen = s.risen := rfl
@[simp] theorem State.putPart_next (s : State) (n : Nat) (x : Partition) : (s.putPart n x).next = s.next := rfl
@[simp] theorem State.putPart_free (s : State) (n : Nat) (x : Partition) : (s.putPart n x).free = s.free := rfl
@[simp] theorem State.putPart_cur (s : State) (n : Nat) (x : Partition) : (s.putPart n x).cur = s.cur := rfl
@[simp] theorem State.putPart_agenda (s : State) (n : Nat) (x : Partition) : (s.putPart n x).agenda = s.agenda := rfl

/-! ### modPart -/

@[simp] theorem State.modPart_pkg (s : State) (n : Nat) (f : Partition → Partition) : (s.modPart n f).pkg = s.pkg := rfl
@[simp] theorem State.modPart_gangs (s : State) (n : Nat) (f : Partition → Partition) : (s.modPart n f).gangs = s.gangs := rfl
@[simp] theorem State.modPart_teams (s : State) (n : Nat) (f : Partition → Partition) : (s.modPart n f).teams = s.teams := rfl
@[simp] theorem State.modPart_cores (s : State) (n : Nat) (f : Partition → Partition) : (s.modPart n f).cores = s.cores := rfl
@[simp] theorem State.modPart_corbel (s : State) (n : Nat) (f : Partition → Partition) : (s.modPart n f).corbel = s.corbel := rfl
@[simp] theorem State.modPart_vault (s : State) (n : Nat) (f : Partition → Partition) : (s.modPart n f).vault = s.vault := rfl
@[simp] theorem State.modPart_vc (s : State) (n : Nat) (f : Partition → Partition) : (s.modPart n f).vc = s.vc := rfl
@[simp] theorem State.modPart_av (s : State) (n : Nat) (f : Partition → Partition) : (s.modPart n f).av = s.av := rfl
@[simp] theorem State.modPart_vreqs (s : State) (n : Nat) (f : Partition → Partition) : (s.modPart n f).vreqs = s.vreqs := rfl
@[simp] theorem State.modPart_preqs (s : State) (n : Nat) (f : Partition → Partition) : (s.modPart n f).preqs = s.preqs := rfl
@[simp] theorem State.modPart_iodq (s : State) (n : Nat) (f : Partition → Partition) : (s.modPart n f).iodq = s.iodq := rfl
@[simp] theorem State.modPart_badWords (s : State) (n : Nat) (f : Partition → Partition) : (s.modPart n f).badWords = s.badWords := rfl
@[simp] theorem State.modPart_holds (s : State) (n : Nat) (f : Partition → Partition) : (s.modPart n f).holds = s.holds := rfl
@[simp] theorem State.modPart_tlb (s : State) (n : Nat) (f : Partition → Partition) : (s.modPart n f).tlb = s.tlb := rfl
@[simp] theorem State.modPart_launches (s : State) (n : Nat) (f : Partition → Partition) : (s.modPart n f).launches = s.launches := rfl
@[simp] theorem State.modPart_reqs (s : State) (n : Nat) (f : Partition → Partition) : (s.modPart n f).reqs = s.reqs := rfl
@[simp] theorem State.modPart_modules (s : State) (n : Nat) (f : Partition → Partition) : (s.modPart n f).modules = s.modules := rfl
@[simp] theorem State.modPart_wiring (s : State) (n : Nat) (f : Partition → Partition) : (s.modPart n f).wiring = s.wiring := rfl
@[simp] theorem State.modPart_remotes (s : State) (n : Nat) (f : Partition → Partition) : (s.modPart n f).remotes = s.remotes := rfl
@[simp] theorem State.modPart_inbound (s : State) (n : Nat) (f : Partition → Partition) : (s.modPart n f).inbound = s.inbound := rfl
@[simp] theorem State.modPart_qbad (s : State) (n : Nat) (f : Partition → Partition) : (s.modPart n f).qbad = s.qbad := rfl
@[simp] theorem State.modPart_caps (s : State) (n : Nat) (f : Partition → Partition) : (s.modPart n f).caps = s.caps := rfl
@[simp] theorem State.modPart_netq (s : State) (n : Nat) (f : Partition → Partition) : (s.modPart n f).netq = s.netq := rfl
@[simp] theorem State.modPart_sentSeq (s : State) (n : Nat) (f : Partition → Partition) : (s.modPart n f).sentSeq = s.sentSeq := rfl
@[simp] theorem State.modPart_rcvdSeq (s : State) (n : Nat) (f : Partition → Partition) : (s.modPart n f).rcvdSeq = s.rcvdSeq := rfl
@[simp] theorem State.modPart_dealt (s : State) (n : Nat) (f : Partition → Partition) : (s.modPart n f).dealt = s.dealt := rfl
@[simp] theorem State.modPart_rot (s : State) (n : Nat) (f : Partition → Partition) : (s.modPart n f).rot = s.rot := rfl
@[simp] theorem State.modPart_ports (s : State) (n : Nat) (f : Partition → Partition) : (s.modPart n f).ports = s.ports := rfl
@[simp] theorem State.modPart_entries (s : State) (n : Nat) (f : Partition → Partition) : (s.modPart n f).entries = s.entries := rfl
@[simp] theorem State.modPart_pairs (s : State) (n : Nat) (f : Partition → Partition) : (s.modPart n f).pairs = s.pairs := rfl
@[simp] theorem State.modPart_links (s : State) (n : Nat) (f : Partition → Partition) : (s.modPart n f).links = s.links := rfl
@[simp] theorem State.modPart_chans (s : State) (n : Nat) (f : Partition → Partition) : (s.modPart n f).chans = s.chans := rfl
@[simp] theorem State.modPart_weakMrg (s : State) (n : Nat) (f : Partition → Partition) : (s.modPart n f).weakMrg = s.weakMrg := rfl
@[simp] theorem State.modPart_weakCer (s : State) (n : Nat) (f : Partition → Partition) : (s.modPart n f).weakCer = s.weakCer := rfl
@[simp] theorem State.modPart_period (s : State) (n : Nat) (f : Partition → Partition) : (s.modPart n f).period = s.period := rfl
@[simp] theorem State.modPart_lines (s : State) (n : Nat) (f : Partition → Partition) : (s.modPart n f).lines = s.lines := rfl
@[simp] theorem State.modPart_arrays (s : State) (n : Nat) (f : Partition → Partition) : (s.modPart n f).arrays = s.arrays := rfl
@[simp] theorem State.modPart_attests (s : State) (n : Nat) (f : Partition → Partition) : (s.modPart n f).attests = s.attests := rfl
@[simp] theorem State.modPart_house (s : State) (n : Nat) (f : Partition → Partition) : (s.modPart n f).house = s.house := rfl
@[simp] theorem State.modPart_meas (s : State) (n : Nat) (f : Partition → Partition) : (s.modPart n f).meas = s.meas := rfl
@[simp] theorem State.modPart_out (s : State) (n : Nat) (f : Partition → Partition) : (s.modPart n f).out = s.out := rfl
@[simp] theorem State.modPart_now (s : State) (n : Nat) (f : Partition → Partition) : (s.modPart n f).now = s.now := rfl
@[simp] theorem State.modPart_issueFrom (s : State) (n : Nat) (f : Partition → Partition) : (s.modPart n f).issueFrom = s.issueFrom := rfl
@[simp] theorem State.modPart_risen (s : State) (n : Nat) (f : Partition → Partition) : (s.modPart n f).risen = s.risen := rfl
@[simp] theorem State.modPart_next (s : State) (n : Nat) (f : Partition → Partition) : (s.modPart n f).next = s.next := rfl
@[simp] theorem State.modPart_free (s : State) (n : Nat) (f : Partition → Partition) : (s.modPart n f).free = s.free := rfl
@[simp] theorem State.modPart_cur (s : State) (n : Nat) (f : Partition → Partition) : (s.modPart n f).cur = s.cur := rfl
@[simp] theorem State.modPart_agenda (s : State) (n : Nat) (f : Partition → Partition) : (s.modPart n f).agenda = s.agenda := rfl

/-! ### putModule -/

@[simp] theorem State.putModule_pkg (s : State) (n : Nat) (x : Module) : (s.putModule n x).pkg = s.pkg := rfl
@[simp] theorem State.putModule_gangs (s : State) (n : Nat) (x : Module) : (s.putModule n x).gangs = s.gangs := rfl
@[simp] theorem State.putModule_teams (s : State) (n : Nat) (x : Module) : (s.putModule n x).teams = s.teams := rfl
@[simp] theorem State.putModule_cores (s : State) (n : Nat) (x : Module) : (s.putModule n x).cores = s.cores := rfl
@[simp] theorem State.putModule_corbel (s : State) (n : Nat) (x : Module) : (s.putModule n x).corbel = s.corbel := rfl
@[simp] theorem State.putModule_vault (s : State) (n : Nat) (x : Module) : (s.putModule n x).vault = s.vault := rfl
@[simp] theorem State.putModule_vc (s : State) (n : Nat) (x : Module) : (s.putModule n x).vc = s.vc := rfl
@[simp] theorem State.putModule_av (s : State) (n : Nat) (x : Module) : (s.putModule n x).av = s.av := rfl
@[simp] theorem State.putModule_vreqs (s : State) (n : Nat) (x : Module) : (s.putModule n x).vreqs = s.vreqs := rfl
@[simp] theorem State.putModule_preqs (s : State) (n : Nat) (x : Module) : (s.putModule n x).preqs = s.preqs := rfl
@[simp] theorem State.putModule_iodq (s : State) (n : Nat) (x : Module) : (s.putModule n x).iodq = s.iodq := rfl
@[simp] theorem State.putModule_badWords (s : State) (n : Nat) (x : Module) : (s.putModule n x).badWords = s.badWords := rfl
@[simp] theorem State.putModule_holds (s : State) (n : Nat) (x : Module) : (s.putModule n x).holds = s.holds := rfl
@[simp] theorem State.putModule_tlb (s : State) (n : Nat) (x : Module) : (s.putModule n x).tlb = s.tlb := rfl
@[simp] theorem State.putModule_parts (s : State) (n : Nat) (x : Module) : (s.putModule n x).parts = s.parts := rfl
@[simp] theorem State.putModule_launches (s : State) (n : Nat) (x : Module) : (s.putModule n x).launches = s.launches := rfl
@[simp] theorem State.putModule_reqs (s : State) (n : Nat) (x : Module) : (s.putModule n x).reqs = s.reqs := rfl
@[simp] theorem State.putModule_wiring (s : State) (n : Nat) (x : Module) : (s.putModule n x).wiring = s.wiring := rfl
@[simp] theorem State.putModule_remotes (s : State) (n : Nat) (x : Module) : (s.putModule n x).remotes = s.remotes := rfl
@[simp] theorem State.putModule_inbound (s : State) (n : Nat) (x : Module) : (s.putModule n x).inbound = s.inbound := rfl
@[simp] theorem State.putModule_qbad (s : State) (n : Nat) (x : Module) : (s.putModule n x).qbad = s.qbad := rfl
@[simp] theorem State.putModule_caps (s : State) (n : Nat) (x : Module) : (s.putModule n x).caps = s.caps := rfl
@[simp] theorem State.putModule_netq (s : State) (n : Nat) (x : Module) : (s.putModule n x).netq = s.netq := rfl
@[simp] theorem State.putModule_sentSeq (s : State) (n : Nat) (x : Module) : (s.putModule n x).sentSeq = s.sentSeq := rfl
@[simp] theorem State.putModule_rcvdSeq (s : State) (n : Nat) (x : Module) : (s.putModule n x).rcvdSeq = s.rcvdSeq := rfl
@[simp] theorem State.putModule_dealt (s : State) (n : Nat) (x : Module) : (s.putModule n x).dealt = s.dealt := rfl
@[simp] theorem State.putModule_rot (s : State) (n : Nat) (x : Module) : (s.putModule n x).rot = s.rot := rfl
@[simp] theorem State.putModule_ports (s : State) (n : Nat) (x : Module) : (s.putModule n x).ports = s.ports := rfl
@[simp] theorem State.putModule_entries (s : State) (n : Nat) (x : Module) : (s.putModule n x).entries = s.entries := rfl
@[simp] theorem State.putModule_pairs (s : State) (n : Nat) (x : Module) : (s.putModule n x).pairs = s.pairs := rfl
@[simp] theorem State.putModule_links (s : State) (n : Nat) (x : Module) : (s.putModule n x).links = s.links := rfl
@[simp] theorem State.putModule_chans (s : State) (n : Nat) (x : Module) : (s.putModule n x).chans = s.chans := rfl
@[simp] theorem State.putModule_weakMrg (s : State) (n : Nat) (x : Module) : (s.putModule n x).weakMrg = s.weakMrg := rfl
@[simp] theorem State.putModule_weakCer (s : State) (n : Nat) (x : Module) : (s.putModule n x).weakCer = s.weakCer := rfl
@[simp] theorem State.putModule_period (s : State) (n : Nat) (x : Module) : (s.putModule n x).period = s.period := rfl
@[simp] theorem State.putModule_lines (s : State) (n : Nat) (x : Module) : (s.putModule n x).lines = s.lines := rfl
@[simp] theorem State.putModule_arrays (s : State) (n : Nat) (x : Module) : (s.putModule n x).arrays = s.arrays := rfl
@[simp] theorem State.putModule_attests (s : State) (n : Nat) (x : Module) : (s.putModule n x).attests = s.attests := rfl
@[simp] theorem State.putModule_house (s : State) (n : Nat) (x : Module) : (s.putModule n x).house = s.house := rfl
@[simp] theorem State.putModule_meas (s : State) (n : Nat) (x : Module) : (s.putModule n x).meas = s.meas := rfl
@[simp] theorem State.putModule_out (s : State) (n : Nat) (x : Module) : (s.putModule n x).out = s.out := rfl
@[simp] theorem State.putModule_now (s : State) (n : Nat) (x : Module) : (s.putModule n x).now = s.now := rfl
@[simp] theorem State.putModule_issueFrom (s : State) (n : Nat) (x : Module) : (s.putModule n x).issueFrom = s.issueFrom := rfl
@[simp] theorem State.putModule_risen (s : State) (n : Nat) (x : Module) : (s.putModule n x).risen = s.risen := rfl
@[simp] theorem State.putModule_next (s : State) (n : Nat) (x : Module) : (s.putModule n x).next = s.next := rfl
@[simp] theorem State.putModule_free (s : State) (n : Nat) (x : Module) : (s.putModule n x).free = s.free := rfl
@[simp] theorem State.putModule_cur (s : State) (n : Nat) (x : Module) : (s.putModule n x).cur = s.cur := rfl
@[simp] theorem State.putModule_agenda (s : State) (n : Nat) (x : Module) : (s.putModule n x).agenda = s.agenda := rfl

/-! ### modModule -/

@[simp] theorem State.modModule_pkg (s : State) (n : Nat) (f : Module → Module) : (s.modModule n f).pkg = s.pkg := rfl
@[simp] theorem State.modModule_gangs (s : State) (n : Nat) (f : Module → Module) : (s.modModule n f).gangs = s.gangs := rfl
@[simp] theorem State.modModule_teams (s : State) (n : Nat) (f : Module → Module) : (s.modModule n f).teams = s.teams := rfl
@[simp] theorem State.modModule_cores (s : State) (n : Nat) (f : Module → Module) : (s.modModule n f).cores = s.cores := rfl
@[simp] theorem State.modModule_corbel (s : State) (n : Nat) (f : Module → Module) : (s.modModule n f).corbel = s.corbel := rfl
@[simp] theorem State.modModule_vault (s : State) (n : Nat) (f : Module → Module) : (s.modModule n f).vault = s.vault := rfl
@[simp] theorem State.modModule_vc (s : State) (n : Nat) (f : Module → Module) : (s.modModule n f).vc = s.vc := rfl
@[simp] theorem State.modModule_av (s : State) (n : Nat) (f : Module → Module) : (s.modModule n f).av = s.av := rfl
@[simp] theorem State.modModule_vreqs (s : State) (n : Nat) (f : Module → Module) : (s.modModule n f).vreqs = s.vreqs := rfl
@[simp] theorem State.modModule_preqs (s : State) (n : Nat) (f : Module → Module) : (s.modModule n f).preqs = s.preqs := rfl
@[simp] theorem State.modModule_iodq (s : State) (n : Nat) (f : Module → Module) : (s.modModule n f).iodq = s.iodq := rfl
@[simp] theorem State.modModule_badWords (s : State) (n : Nat) (f : Module → Module) : (s.modModule n f).badWords = s.badWords := rfl
@[simp] theorem State.modModule_holds (s : State) (n : Nat) (f : Module → Module) : (s.modModule n f).holds = s.holds := rfl
@[simp] theorem State.modModule_tlb (s : State) (n : Nat) (f : Module → Module) : (s.modModule n f).tlb = s.tlb := rfl
@[simp] theorem State.modModule_parts (s : State) (n : Nat) (f : Module → Module) : (s.modModule n f).parts = s.parts := rfl
@[simp] theorem State.modModule_launches (s : State) (n : Nat) (f : Module → Module) : (s.modModule n f).launches = s.launches := rfl
@[simp] theorem State.modModule_reqs (s : State) (n : Nat) (f : Module → Module) : (s.modModule n f).reqs = s.reqs := rfl
@[simp] theorem State.modModule_wiring (s : State) (n : Nat) (f : Module → Module) : (s.modModule n f).wiring = s.wiring := rfl
@[simp] theorem State.modModule_remotes (s : State) (n : Nat) (f : Module → Module) : (s.modModule n f).remotes = s.remotes := rfl
@[simp] theorem State.modModule_inbound (s : State) (n : Nat) (f : Module → Module) : (s.modModule n f).inbound = s.inbound := rfl
@[simp] theorem State.modModule_qbad (s : State) (n : Nat) (f : Module → Module) : (s.modModule n f).qbad = s.qbad := rfl
@[simp] theorem State.modModule_caps (s : State) (n : Nat) (f : Module → Module) : (s.modModule n f).caps = s.caps := rfl
@[simp] theorem State.modModule_netq (s : State) (n : Nat) (f : Module → Module) : (s.modModule n f).netq = s.netq := rfl
@[simp] theorem State.modModule_sentSeq (s : State) (n : Nat) (f : Module → Module) : (s.modModule n f).sentSeq = s.sentSeq := rfl
@[simp] theorem State.modModule_rcvdSeq (s : State) (n : Nat) (f : Module → Module) : (s.modModule n f).rcvdSeq = s.rcvdSeq := rfl
@[simp] theorem State.modModule_dealt (s : State) (n : Nat) (f : Module → Module) : (s.modModule n f).dealt = s.dealt := rfl
@[simp] theorem State.modModule_rot (s : State) (n : Nat) (f : Module → Module) : (s.modModule n f).rot = s.rot := rfl
@[simp] theorem State.modModule_ports (s : State) (n : Nat) (f : Module → Module) : (s.modModule n f).ports = s.ports := rfl
@[simp] theorem State.modModule_entries (s : State) (n : Nat) (f : Module → Module) : (s.modModule n f).entries = s.entries := rfl
@[simp] theorem State.modModule_pairs (s : State) (n : Nat) (f : Module → Module) : (s.modModule n f).pairs = s.pairs := rfl
@[simp] theorem State.modModule_links (s : State) (n : Nat) (f : Module → Module) : (s.modModule n f).links = s.links := rfl
@[simp] theorem State.modModule_chans (s : State) (n : Nat) (f : Module → Module) : (s.modModule n f).chans = s.chans := rfl
@[simp] theorem State.modModule_weakMrg (s : State) (n : Nat) (f : Module → Module) : (s.modModule n f).weakMrg = s.weakMrg := rfl
@[simp] theorem State.modModule_weakCer (s : State) (n : Nat) (f : Module → Module) : (s.modModule n f).weakCer = s.weakCer := rfl
@[simp] theorem State.modModule_period (s : State) (n : Nat) (f : Module → Module) : (s.modModule n f).period = s.period := rfl
@[simp] theorem State.modModule_lines (s : State) (n : Nat) (f : Module → Module) : (s.modModule n f).lines = s.lines := rfl
@[simp] theorem State.modModule_arrays (s : State) (n : Nat) (f : Module → Module) : (s.modModule n f).arrays = s.arrays := rfl
@[simp] theorem State.modModule_attests (s : State) (n : Nat) (f : Module → Module) : (s.modModule n f).attests = s.attests := rfl
@[simp] theorem State.modModule_house (s : State) (n : Nat) (f : Module → Module) : (s.modModule n f).house = s.house := rfl
@[simp] theorem State.modModule_meas (s : State) (n : Nat) (f : Module → Module) : (s.modModule n f).meas = s.meas := rfl
@[simp] theorem State.modModule_out (s : State) (n : Nat) (f : Module → Module) : (s.modModule n f).out = s.out := rfl
@[simp] theorem State.modModule_now (s : State) (n : Nat) (f : Module → Module) : (s.modModule n f).now = s.now := rfl
@[simp] theorem State.modModule_issueFrom (s : State) (n : Nat) (f : Module → Module) : (s.modModule n f).issueFrom = s.issueFrom := rfl
@[simp] theorem State.modModule_risen (s : State) (n : Nat) (f : Module → Module) : (s.modModule n f).risen = s.risen := rfl
@[simp] theorem State.modModule_next (s : State) (n : Nat) (f : Module → Module) : (s.modModule n f).next = s.next := rfl
@[simp] theorem State.modModule_free (s : State) (n : Nat) (f : Module → Module) : (s.modModule n f).free = s.free := rfl
@[simp] theorem State.modModule_cur (s : State) (n : Nat) (f : Module → Module) : (s.modModule n f).cur = s.cur := rfl
@[simp] theorem State.modModule_agenda (s : State) (n : Nat) (f : Module → Module) : (s.modModule n f).agenda = s.agenda := rfl

/-! ### putCorbel -/

@[simp] theorem State.putCorbel_pkg (s : State) (cl n : Nat) (x : CorbelSlot) : (s.putCorbel cl n x).pkg = s.pkg := rfl
@[simp] theorem State.putCorbel_gangs (s : State) (cl n : Nat) (x : CorbelSlot) : (s.putCorbel cl n x).gangs = s.gangs := rfl
@[simp] theorem State.putCorbel_teams (s : State) (cl n : Nat) (x : CorbelSlot) : (s.putCorbel cl n x).teams = s.teams := rfl
@[simp] theorem State.putCorbel_cores (s : State) (cl n : Nat) (x : CorbelSlot) : (s.putCorbel cl n x).cores = s.cores := rfl
@[simp] theorem State.putCorbel_vault (s : State) (cl n : Nat) (x : CorbelSlot) : (s.putCorbel cl n x).vault = s.vault := rfl
@[simp] theorem State.putCorbel_vc (s : State) (cl n : Nat) (x : CorbelSlot) : (s.putCorbel cl n x).vc = s.vc := rfl
@[simp] theorem State.putCorbel_av (s : State) (cl n : Nat) (x : CorbelSlot) : (s.putCorbel cl n x).av = s.av := rfl
@[simp] theorem State.putCorbel_vreqs (s : State) (cl n : Nat) (x : CorbelSlot) : (s.putCorbel cl n x).vreqs = s.vreqs := rfl
@[simp] theorem State.putCorbel_preqs (s : State) (cl n : Nat) (x : CorbelSlot) : (s.putCorbel cl n x).preqs = s.preqs := rfl
@[simp] theorem State.putCorbel_iodq (s : State) (cl n : Nat) (x : CorbelSlot) : (s.putCorbel cl n x).iodq = s.iodq := rfl
@[simp] theorem State.putCorbel_badWords (s : State) (cl n : Nat) (x : CorbelSlot) : (s.putCorbel cl n x).badWords = s.badWords := rfl
@[simp] theorem State.putCorbel_holds (s : State) (cl n : Nat) (x : CorbelSlot) : (s.putCorbel cl n x).holds = s.holds := rfl
@[simp] theorem State.putCorbel_tlb (s : State) (cl n : Nat) (x : CorbelSlot) : (s.putCorbel cl n x).tlb = s.tlb := rfl
@[simp] theorem State.putCorbel_parts (s : State) (cl n : Nat) (x : CorbelSlot) : (s.putCorbel cl n x).parts = s.parts := rfl
@[simp] theorem State.putCorbel_launches (s : State) (cl n : Nat) (x : CorbelSlot) : (s.putCorbel cl n x).launches = s.launches := rfl
@[simp] theorem State.putCorbel_reqs (s : State) (cl n : Nat) (x : CorbelSlot) : (s.putCorbel cl n x).reqs = s.reqs := rfl
@[simp] theorem State.putCorbel_modules (s : State) (cl n : Nat) (x : CorbelSlot) : (s.putCorbel cl n x).modules = s.modules := rfl
@[simp] theorem State.putCorbel_wiring (s : State) (cl n : Nat) (x : CorbelSlot) : (s.putCorbel cl n x).wiring = s.wiring := rfl
@[simp] theorem State.putCorbel_remotes (s : State) (cl n : Nat) (x : CorbelSlot) : (s.putCorbel cl n x).remotes = s.remotes := rfl
@[simp] theorem State.putCorbel_inbound (s : State) (cl n : Nat) (x : CorbelSlot) : (s.putCorbel cl n x).inbound = s.inbound := rfl
@[simp] theorem State.putCorbel_qbad (s : State) (cl n : Nat) (x : CorbelSlot) : (s.putCorbel cl n x).qbad = s.qbad := rfl
@[simp] theorem State.putCorbel_caps (s : State) (cl n : Nat) (x : CorbelSlot) : (s.putCorbel cl n x).caps = s.caps := rfl
@[simp] theorem State.putCorbel_netq (s : State) (cl n : Nat) (x : CorbelSlot) : (s.putCorbel cl n x).netq = s.netq := rfl
@[simp] theorem State.putCorbel_sentSeq (s : State) (cl n : Nat) (x : CorbelSlot) : (s.putCorbel cl n x).sentSeq = s.sentSeq := rfl
@[simp] theorem State.putCorbel_rcvdSeq (s : State) (cl n : Nat) (x : CorbelSlot) : (s.putCorbel cl n x).rcvdSeq = s.rcvdSeq := rfl
@[simp] theorem State.putCorbel_dealt (s : State) (cl n : Nat) (x : CorbelSlot) : (s.putCorbel cl n x).dealt = s.dealt := rfl
@[simp] theorem State.putCorbel_rot (s : State) (cl n : Nat) (x : CorbelSlot) : (s.putCorbel cl n x).rot = s.rot := rfl
@[simp] theorem State.putCorbel_ports (s : State) (cl n : Nat) (x : CorbelSlot) : (s.putCorbel cl n x).ports = s.ports := rfl
@[simp] theorem State.putCorbel_entries (s : State) (cl n : Nat) (x : CorbelSlot) : (s.putCorbel cl n x).entries = s.entries := rfl
@[simp] theorem State.putCorbel_pairs (s : State) (cl n : Nat) (x : CorbelSlot) : (s.putCorbel cl n x).pairs = s.pairs := rfl
@[simp] theorem State.putCorbel_links (s : State) (cl n : Nat) (x : CorbelSlot) : (s.putCorbel cl n x).links = s.links := rfl
@[simp] theorem State.putCorbel_chans (s : State) (cl n : Nat) (x : CorbelSlot) : (s.putCorbel cl n x).chans = s.chans := rfl
@[simp] theorem State.putCorbel_weakMrg (s : State) (cl n : Nat) (x : CorbelSlot) : (s.putCorbel cl n x).weakMrg = s.weakMrg := rfl
@[simp] theorem State.putCorbel_weakCer (s : State) (cl n : Nat) (x : CorbelSlot) : (s.putCorbel cl n x).weakCer = s.weakCer := rfl
@[simp] theorem State.putCorbel_period (s : State) (cl n : Nat) (x : CorbelSlot) : (s.putCorbel cl n x).period = s.period := rfl
@[simp] theorem State.putCorbel_lines (s : State) (cl n : Nat) (x : CorbelSlot) : (s.putCorbel cl n x).lines = s.lines := rfl
@[simp] theorem State.putCorbel_arrays (s : State) (cl n : Nat) (x : CorbelSlot) : (s.putCorbel cl n x).arrays = s.arrays := rfl
@[simp] theorem State.putCorbel_attests (s : State) (cl n : Nat) (x : CorbelSlot) : (s.putCorbel cl n x).attests = s.attests := rfl
@[simp] theorem State.putCorbel_house (s : State) (cl n : Nat) (x : CorbelSlot) : (s.putCorbel cl n x).house = s.house := rfl
@[simp] theorem State.putCorbel_meas (s : State) (cl n : Nat) (x : CorbelSlot) : (s.putCorbel cl n x).meas = s.meas := rfl
@[simp] theorem State.putCorbel_out (s : State) (cl n : Nat) (x : CorbelSlot) : (s.putCorbel cl n x).out = s.out := rfl
@[simp] theorem State.putCorbel_now (s : State) (cl n : Nat) (x : CorbelSlot) : (s.putCorbel cl n x).now = s.now := rfl
@[simp] theorem State.putCorbel_issueFrom (s : State) (cl n : Nat) (x : CorbelSlot) : (s.putCorbel cl n x).issueFrom = s.issueFrom := rfl
@[simp] theorem State.putCorbel_risen (s : State) (cl n : Nat) (x : CorbelSlot) : (s.putCorbel cl n x).risen = s.risen := rfl
@[simp] theorem State.putCorbel_next (s : State) (cl n : Nat) (x : CorbelSlot) : (s.putCorbel cl n x).next = s.next := rfl
@[simp] theorem State.putCorbel_free (s : State) (cl n : Nat) (x : CorbelSlot) : (s.putCorbel cl n x).free = s.free := rfl
@[simp] theorem State.putCorbel_cur (s : State) (cl n : Nat) (x : CorbelSlot) : (s.putCorbel cl n x).cur = s.cur := rfl
@[simp] theorem State.putCorbel_agenda (s : State) (cl n : Nat) (x : CorbelSlot) : (s.putCorbel cl n x).agenda = s.agenda := rfl

/-! ### putPair -/

@[simp] theorem State.putPair_pkg (s : State) (f : Nat) (x : Pair) : (s.putPair f x).pkg = s.pkg := rfl
@[simp] theorem State.putPair_gangs (s : State) (f : Nat) (x : Pair) : (s.putPair f x).gangs = s.gangs := rfl
@[simp] theorem State.putPair_teams (s : State) (f : Nat) (x : Pair) : (s.putPair f x).teams = s.teams := rfl
@[simp] theorem State.putPair_cores (s : State) (f : Nat) (x : Pair) : (s.putPair f x).cores = s.cores := rfl
@[simp] theorem State.putPair_corbel (s : State) (f : Nat) (x : Pair) : (s.putPair f x).corbel = s.corbel := rfl
@[simp] theorem State.putPair_vault (s : State) (f : Nat) (x : Pair) : (s.putPair f x).vault = s.vault := rfl
@[simp] theorem State.putPair_vc (s : State) (f : Nat) (x : Pair) : (s.putPair f x).vc = s.vc := rfl
@[simp] theorem State.putPair_av (s : State) (f : Nat) (x : Pair) : (s.putPair f x).av = s.av := rfl
@[simp] theorem State.putPair_vreqs (s : State) (f : Nat) (x : Pair) : (s.putPair f x).vreqs = s.vreqs := rfl
@[simp] theorem State.putPair_preqs (s : State) (f : Nat) (x : Pair) : (s.putPair f x).preqs = s.preqs := rfl
@[simp] theorem State.putPair_iodq (s : State) (f : Nat) (x : Pair) : (s.putPair f x).iodq = s.iodq := rfl
@[simp] theorem State.putPair_badWords (s : State) (f : Nat) (x : Pair) : (s.putPair f x).badWords = s.badWords := rfl
@[simp] theorem State.putPair_holds (s : State) (f : Nat) (x : Pair) : (s.putPair f x).holds = s.holds := rfl
@[simp] theorem State.putPair_tlb (s : State) (f : Nat) (x : Pair) : (s.putPair f x).tlb = s.tlb := rfl
@[simp] theorem State.putPair_parts (s : State) (f : Nat) (x : Pair) : (s.putPair f x).parts = s.parts := rfl
@[simp] theorem State.putPair_launches (s : State) (f : Nat) (x : Pair) : (s.putPair f x).launches = s.launches := rfl
@[simp] theorem State.putPair_reqs (s : State) (f : Nat) (x : Pair) : (s.putPair f x).reqs = s.reqs := rfl
@[simp] theorem State.putPair_modules (s : State) (f : Nat) (x : Pair) : (s.putPair f x).modules = s.modules := rfl
@[simp] theorem State.putPair_wiring (s : State) (f : Nat) (x : Pair) : (s.putPair f x).wiring = s.wiring := rfl
@[simp] theorem State.putPair_remotes (s : State) (f : Nat) (x : Pair) : (s.putPair f x).remotes = s.remotes := rfl
@[simp] theorem State.putPair_inbound (s : State) (f : Nat) (x : Pair) : (s.putPair f x).inbound = s.inbound := rfl
@[simp] theorem State.putPair_qbad (s : State) (f : Nat) (x : Pair) : (s.putPair f x).qbad = s.qbad := rfl
@[simp] theorem State.putPair_caps (s : State) (f : Nat) (x : Pair) : (s.putPair f x).caps = s.caps := rfl
@[simp] theorem State.putPair_netq (s : State) (f : Nat) (x : Pair) : (s.putPair f x).netq = s.netq := rfl
@[simp] theorem State.putPair_sentSeq (s : State) (f : Nat) (x : Pair) : (s.putPair f x).sentSeq = s.sentSeq := rfl
@[simp] theorem State.putPair_rcvdSeq (s : State) (f : Nat) (x : Pair) : (s.putPair f x).rcvdSeq = s.rcvdSeq := rfl
@[simp] theorem State.putPair_dealt (s : State) (f : Nat) (x : Pair) : (s.putPair f x).dealt = s.dealt := rfl
@[simp] theorem State.putPair_rot (s : State) (f : Nat) (x : Pair) : (s.putPair f x).rot = s.rot := rfl
@[simp] theorem State.putPair_ports (s : State) (f : Nat) (x : Pair) : (s.putPair f x).ports = s.ports := rfl
@[simp] theorem State.putPair_entries (s : State) (f : Nat) (x : Pair) : (s.putPair f x).entries = s.entries := rfl
@[simp] theorem State.putPair_links (s : State) (f : Nat) (x : Pair) : (s.putPair f x).links = s.links := rfl
@[simp] theorem State.putPair_chans (s : State) (f : Nat) (x : Pair) : (s.putPair f x).chans = s.chans := rfl
@[simp] theorem State.putPair_weakMrg (s : State) (f : Nat) (x : Pair) : (s.putPair f x).weakMrg = s.weakMrg := rfl
@[simp] theorem State.putPair_weakCer (s : State) (f : Nat) (x : Pair) : (s.putPair f x).weakCer = s.weakCer := rfl
@[simp] theorem State.putPair_period (s : State) (f : Nat) (x : Pair) : (s.putPair f x).period = s.period := rfl
@[simp] theorem State.putPair_lines (s : State) (f : Nat) (x : Pair) : (s.putPair f x).lines = s.lines := rfl
@[simp] theorem State.putPair_arrays (s : State) (f : Nat) (x : Pair) : (s.putPair f x).arrays = s.arrays := rfl
@[simp] theorem State.putPair_attests (s : State) (f : Nat) (x : Pair) : (s.putPair f x).attests = s.attests := rfl
@[simp] theorem State.putPair_house (s : State) (f : Nat) (x : Pair) : (s.putPair f x).house = s.house := rfl
@[simp] theorem State.putPair_meas (s : State) (f : Nat) (x : Pair) : (s.putPair f x).meas = s.meas := rfl
@[simp] theorem State.putPair_out (s : State) (f : Nat) (x : Pair) : (s.putPair f x).out = s.out := rfl
@[simp] theorem State.putPair_now (s : State) (f : Nat) (x : Pair) : (s.putPair f x).now = s.now := rfl
@[simp] theorem State.putPair_issueFrom (s : State) (f : Nat) (x : Pair) : (s.putPair f x).issueFrom = s.issueFrom := rfl
@[simp] theorem State.putPair_risen (s : State) (f : Nat) (x : Pair) : (s.putPair f x).risen = s.risen := rfl
@[simp] theorem State.putPair_next (s : State) (f : Nat) (x : Pair) : (s.putPair f x).next = s.next := rfl
@[simp] theorem State.putPair_free (s : State) (f : Nat) (x : Pair) : (s.putPair f x).free = s.free := rfl
@[simp] theorem State.putPair_cur (s : State) (f : Nat) (x : Pair) : (s.putPair f x).cur = s.cur := rfl
@[simp] theorem State.putPair_agenda (s : State) (f : Nat) (x : Pair) : (s.putPair f x).agenda = s.agenda := rfl

/-! ### putLink -/

@[simp] theorem State.putLink_pkg (s : State) (k : Nat) (x : Link) : (s.putLink k x).pkg = s.pkg := rfl
@[simp] theorem State.putLink_gangs (s : State) (k : Nat) (x : Link) : (s.putLink k x).gangs = s.gangs := rfl
@[simp] theorem State.putLink_teams (s : State) (k : Nat) (x : Link) : (s.putLink k x).teams = s.teams := rfl
@[simp] theorem State.putLink_cores (s : State) (k : Nat) (x : Link) : (s.putLink k x).cores = s.cores := rfl
@[simp] theorem State.putLink_corbel (s : State) (k : Nat) (x : Link) : (s.putLink k x).corbel = s.corbel := rfl
@[simp] theorem State.putLink_vault (s : State) (k : Nat) (x : Link) : (s.putLink k x).vault = s.vault := rfl
@[simp] theorem State.putLink_vc (s : State) (k : Nat) (x : Link) : (s.putLink k x).vc = s.vc := rfl
@[simp] theorem State.putLink_av (s : State) (k : Nat) (x : Link) : (s.putLink k x).av = s.av := rfl
@[simp] theorem State.putLink_vreqs (s : State) (k : Nat) (x : Link) : (s.putLink k x).vreqs = s.vreqs := rfl
@[simp] theorem State.putLink_preqs (s : State) (k : Nat) (x : Link) : (s.putLink k x).preqs = s.preqs := rfl
@[simp] theorem State.putLink_iodq (s : State) (k : Nat) (x : Link) : (s.putLink k x).iodq = s.iodq := rfl
@[simp] theorem State.putLink_badWords (s : State) (k : Nat) (x : Link) : (s.putLink k x).badWords = s.badWords := rfl
@[simp] theorem State.putLink_holds (s : State) (k : Nat) (x : Link) : (s.putLink k x).holds = s.holds := rfl
@[simp] theorem State.putLink_tlb (s : State) (k : Nat) (x : Link) : (s.putLink k x).tlb = s.tlb := rfl
@[simp] theorem State.putLink_parts (s : State) (k : Nat) (x : Link) : (s.putLink k x).parts = s.parts := rfl
@[simp] theorem State.putLink_launches (s : State) (k : Nat) (x : Link) : (s.putLink k x).launches = s.launches := rfl
@[simp] theorem State.putLink_reqs (s : State) (k : Nat) (x : Link) : (s.putLink k x).reqs = s.reqs := rfl
@[simp] theorem State.putLink_modules (s : State) (k : Nat) (x : Link) : (s.putLink k x).modules = s.modules := rfl
@[simp] theorem State.putLink_wiring (s : State) (k : Nat) (x : Link) : (s.putLink k x).wiring = s.wiring := rfl
@[simp] theorem State.putLink_remotes (s : State) (k : Nat) (x : Link) : (s.putLink k x).remotes = s.remotes := rfl
@[simp] theorem State.putLink_inbound (s : State) (k : Nat) (x : Link) : (s.putLink k x).inbound = s.inbound := rfl
@[simp] theorem State.putLink_qbad (s : State) (k : Nat) (x : Link) : (s.putLink k x).qbad = s.qbad := rfl
@[simp] theorem State.putLink_caps (s : State) (k : Nat) (x : Link) : (s.putLink k x).caps = s.caps := rfl
@[simp] theorem State.putLink_netq (s : State) (k : Nat) (x : Link) : (s.putLink k x).netq = s.netq := rfl
@[simp] theorem State.putLink_sentSeq (s : State) (k : Nat) (x : Link) : (s.putLink k x).sentSeq = s.sentSeq := rfl
@[simp] theorem State.putLink_rcvdSeq (s : State) (k : Nat) (x : Link) : (s.putLink k x).rcvdSeq = s.rcvdSeq := rfl
@[simp] theorem State.putLink_dealt (s : State) (k : Nat) (x : Link) : (s.putLink k x).dealt = s.dealt := rfl
@[simp] theorem State.putLink_rot (s : State) (k : Nat) (x : Link) : (s.putLink k x).rot = s.rot := rfl
@[simp] theorem State.putLink_ports (s : State) (k : Nat) (x : Link) : (s.putLink k x).ports = s.ports := rfl
@[simp] theorem State.putLink_entries (s : State) (k : Nat) (x : Link) : (s.putLink k x).entries = s.entries := rfl
@[simp] theorem State.putLink_pairs (s : State) (k : Nat) (x : Link) : (s.putLink k x).pairs = s.pairs := rfl
@[simp] theorem State.putLink_chans (s : State) (k : Nat) (x : Link) : (s.putLink k x).chans = s.chans := rfl
@[simp] theorem State.putLink_weakMrg (s : State) (k : Nat) (x : Link) : (s.putLink k x).weakMrg = s.weakMrg := rfl
@[simp] theorem State.putLink_weakCer (s : State) (k : Nat) (x : Link) : (s.putLink k x).weakCer = s.weakCer := rfl
@[simp] theorem State.putLink_period (s : State) (k : Nat) (x : Link) : (s.putLink k x).period = s.period := rfl
@[simp] theorem State.putLink_lines (s : State) (k : Nat) (x : Link) : (s.putLink k x).lines = s.lines := rfl
@[simp] theorem State.putLink_arrays (s : State) (k : Nat) (x : Link) : (s.putLink k x).arrays = s.arrays := rfl
@[simp] theorem State.putLink_attests (s : State) (k : Nat) (x : Link) : (s.putLink k x).attests = s.attests := rfl
@[simp] theorem State.putLink_house (s : State) (k : Nat) (x : Link) : (s.putLink k x).house = s.house := rfl
@[simp] theorem State.putLink_meas (s : State) (k : Nat) (x : Link) : (s.putLink k x).meas = s.meas := rfl
@[simp] theorem State.putLink_out (s : State) (k : Nat) (x : Link) : (s.putLink k x).out = s.out := rfl
@[simp] theorem State.putLink_now (s : State) (k : Nat) (x : Link) : (s.putLink k x).now = s.now := rfl
@[simp] theorem State.putLink_issueFrom (s : State) (k : Nat) (x : Link) : (s.putLink k x).issueFrom = s.issueFrom := rfl
@[simp] theorem State.putLink_risen (s : State) (k : Nat) (x : Link) : (s.putLink k x).risen = s.risen := rfl
@[simp] theorem State.putLink_next (s : State) (k : Nat) (x : Link) : (s.putLink k x).next = s.next := rfl
@[simp] theorem State.putLink_free (s : State) (k : Nat) (x : Link) : (s.putLink k x).free = s.free := rfl
@[simp] theorem State.putLink_cur (s : State) (k : Nat) (x : Link) : (s.putLink k x).cur = s.cur := rfl
@[simp] theorem State.putLink_agenda (s : State) (k : Nat) (x : Link) : (s.putLink k x).agenda = s.agenda := rfl

/-! ### putChan -/

@[simp] theorem State.putChan_pkg (s : State) (c : Nat) (x : Chan) : (s.putChan c x).pkg = s.pkg := rfl
@[simp] theorem State.putChan_gangs (s : State) (c : Nat) (x : Chan) : (s.putChan c x).gangs = s.gangs := rfl
@[simp] theorem State.putChan_teams (s : State) (c : Nat) (x : Chan) : (s.putChan c x).teams = s.teams := rfl
@[simp] theorem State.putChan_cores (s : State) (c : Nat) (x : Chan) : (s.putChan c x).cores = s.cores := rfl
@[simp] theorem State.putChan_corbel (s : State) (c : Nat) (x : Chan) : (s.putChan c x).corbel = s.corbel := rfl
@[simp] theorem State.putChan_vault (s : State) (c : Nat) (x : Chan) : (s.putChan c x).vault = s.vault := rfl
@[simp] theorem State.putChan_vc (s : State) (c : Nat) (x : Chan) : (s.putChan c x).vc = s.vc := rfl
@[simp] theorem State.putChan_av (s : State) (c : Nat) (x : Chan) : (s.putChan c x).av = s.av := rfl
@[simp] theorem State.putChan_vreqs (s : State) (c : Nat) (x : Chan) : (s.putChan c x).vreqs = s.vreqs := rfl
@[simp] theorem State.putChan_preqs (s : State) (c : Nat) (x : Chan) : (s.putChan c x).preqs = s.preqs := rfl
@[simp] theorem State.putChan_iodq (s : State) (c : Nat) (x : Chan) : (s.putChan c x).iodq = s.iodq := rfl
@[simp] theorem State.putChan_badWords (s : State) (c : Nat) (x : Chan) : (s.putChan c x).badWords = s.badWords := rfl
@[simp] theorem State.putChan_holds (s : State) (c : Nat) (x : Chan) : (s.putChan c x).holds = s.holds := rfl
@[simp] theorem State.putChan_tlb (s : State) (c : Nat) (x : Chan) : (s.putChan c x).tlb = s.tlb := rfl
@[simp] theorem State.putChan_parts (s : State) (c : Nat) (x : Chan) : (s.putChan c x).parts = s.parts := rfl
@[simp] theorem State.putChan_launches (s : State) (c : Nat) (x : Chan) : (s.putChan c x).launches = s.launches := rfl
@[simp] theorem State.putChan_reqs (s : State) (c : Nat) (x : Chan) : (s.putChan c x).reqs = s.reqs := rfl
@[simp] theorem State.putChan_modules (s : State) (c : Nat) (x : Chan) : (s.putChan c x).modules = s.modules := rfl
@[simp] theorem State.putChan_wiring (s : State) (c : Nat) (x : Chan) : (s.putChan c x).wiring = s.wiring := rfl
@[simp] theorem State.putChan_remotes (s : State) (c : Nat) (x : Chan) : (s.putChan c x).remotes = s.remotes := rfl
@[simp] theorem State.putChan_inbound (s : State) (c : Nat) (x : Chan) : (s.putChan c x).inbound = s.inbound := rfl
@[simp] theorem State.putChan_qbad (s : State) (c : Nat) (x : Chan) : (s.putChan c x).qbad = s.qbad := rfl
@[simp] theorem State.putChan_caps (s : State) (c : Nat) (x : Chan) : (s.putChan c x).caps = s.caps := rfl
@[simp] theorem State.putChan_netq (s : State) (c : Nat) (x : Chan) : (s.putChan c x).netq = s.netq := rfl
@[simp] theorem State.putChan_sentSeq (s : State) (c : Nat) (x : Chan) : (s.putChan c x).sentSeq = s.sentSeq := rfl
@[simp] theorem State.putChan_rcvdSeq (s : State) (c : Nat) (x : Chan) : (s.putChan c x).rcvdSeq = s.rcvdSeq := rfl
@[simp] theorem State.putChan_dealt (s : State) (c : Nat) (x : Chan) : (s.putChan c x).dealt = s.dealt := rfl
@[simp] theorem State.putChan_rot (s : State) (c : Nat) (x : Chan) : (s.putChan c x).rot = s.rot := rfl
@[simp] theorem State.putChan_ports (s : State) (c : Nat) (x : Chan) : (s.putChan c x).ports = s.ports := rfl
@[simp] theorem State.putChan_entries (s : State) (c : Nat) (x : Chan) : (s.putChan c x).entries = s.entries := rfl
@[simp] theorem State.putChan_pairs (s : State) (c : Nat) (x : Chan) : (s.putChan c x).pairs = s.pairs := rfl
@[simp] theorem State.putChan_links (s : State) (c : Nat) (x : Chan) : (s.putChan c x).links = s.links := rfl
@[simp] theorem State.putChan_weakMrg (s : State) (c : Nat) (x : Chan) : (s.putChan c x).weakMrg = s.weakMrg := rfl
@[simp] theorem State.putChan_weakCer (s : State) (c : Nat) (x : Chan) : (s.putChan c x).weakCer = s.weakCer := rfl
@[simp] theorem State.putChan_period (s : State) (c : Nat) (x : Chan) : (s.putChan c x).period = s.period := rfl
@[simp] theorem State.putChan_lines (s : State) (c : Nat) (x : Chan) : (s.putChan c x).lines = s.lines := rfl
@[simp] theorem State.putChan_arrays (s : State) (c : Nat) (x : Chan) : (s.putChan c x).arrays = s.arrays := rfl
@[simp] theorem State.putChan_attests (s : State) (c : Nat) (x : Chan) : (s.putChan c x).attests = s.attests := rfl
@[simp] theorem State.putChan_house (s : State) (c : Nat) (x : Chan) : (s.putChan c x).house = s.house := rfl
@[simp] theorem State.putChan_meas (s : State) (c : Nat) (x : Chan) : (s.putChan c x).meas = s.meas := rfl
@[simp] theorem State.putChan_out (s : State) (c : Nat) (x : Chan) : (s.putChan c x).out = s.out := rfl
@[simp] theorem State.putChan_now (s : State) (c : Nat) (x : Chan) : (s.putChan c x).now = s.now := rfl
@[simp] theorem State.putChan_issueFrom (s : State) (c : Nat) (x : Chan) : (s.putChan c x).issueFrom = s.issueFrom := rfl
@[simp] theorem State.putChan_risen (s : State) (c : Nat) (x : Chan) : (s.putChan c x).risen = s.risen := rfl
@[simp] theorem State.putChan_next (s : State) (c : Nat) (x : Chan) : (s.putChan c x).next = s.next := rfl
@[simp] theorem State.putChan_free (s : State) (c : Nat) (x : Chan) : (s.putChan c x).free = s.free := rfl
@[simp] theorem State.putChan_cur (s : State) (c : Nat) (x : Chan) : (s.putChan c x).cur = s.cur := rfl
@[simp] theorem State.putChan_agenda (s : State) (c : Nat) (x : Chan) : (s.putChan c x).agenda = s.agenda := rfl

/-! ### emit -/

@[simp] theorem State.emit_pkg (s : State) (o : Out) : (s.emit o).pkg = s.pkg := rfl
@[simp] theorem State.emit_gangs (s : State) (o : Out) : (s.emit o).gangs = s.gangs := rfl
@[simp] theorem State.emit_teams (s : State) (o : Out) : (s.emit o).teams = s.teams := rfl
@[simp] theorem State.emit_cores (s : State) (o : Out) : (s.emit o).cores = s.cores := rfl
@[simp] theorem State.emit_corbel (s : State) (o : Out) : (s.emit o).corbel = s.corbel := rfl
@[simp] theorem State.emit_vault (s : State) (o : Out) : (s.emit o).vault = s.vault := rfl
@[simp] theorem State.emit_vc (s : State) (o : Out) : (s.emit o).vc = s.vc := rfl
@[simp] theorem State.emit_av (s : State) (o : Out) : (s.emit o).av = s.av := rfl
@[simp] theorem State.emit_vreqs (s : State) (o : Out) : (s.emit o).vreqs = s.vreqs := rfl
@[simp] theorem State.emit_preqs (s : State) (o : Out) : (s.emit o).preqs = s.preqs := rfl
@[simp] theorem State.emit_iodq (s : State) (o : Out) : (s.emit o).iodq = s.iodq := rfl
@[simp] theorem State.emit_badWords (s : State) (o : Out) : (s.emit o).badWords = s.badWords := rfl
@[simp] theorem State.emit_holds (s : State) (o : Out) : (s.emit o).holds = s.holds := rfl
@[simp] theorem State.emit_tlb (s : State) (o : Out) : (s.emit o).tlb = s.tlb := rfl
@[simp] theorem State.emit_parts (s : State) (o : Out) : (s.emit o).parts = s.parts := rfl
@[simp] theorem State.emit_launches (s : State) (o : Out) : (s.emit o).launches = s.launches := rfl
@[simp] theorem State.emit_reqs (s : State) (o : Out) : (s.emit o).reqs = s.reqs := rfl
@[simp] theorem State.emit_modules (s : State) (o : Out) : (s.emit o).modules = s.modules := rfl
@[simp] theorem State.emit_wiring (s : State) (o : Out) : (s.emit o).wiring = s.wiring := rfl
@[simp] theorem State.emit_remotes (s : State) (o : Out) : (s.emit o).remotes = s.remotes := rfl
@[simp] theorem State.emit_inbound (s : State) (o : Out) : (s.emit o).inbound = s.inbound := rfl
@[simp] theorem State.emit_qbad (s : State) (o : Out) : (s.emit o).qbad = s.qbad := rfl
@[simp] theorem State.emit_caps (s : State) (o : Out) : (s.emit o).caps = s.caps := rfl
@[simp] theorem State.emit_netq (s : State) (o : Out) : (s.emit o).netq = s.netq := rfl
@[simp] theorem State.emit_sentSeq (s : State) (o : Out) : (s.emit o).sentSeq = s.sentSeq := rfl
@[simp] theorem State.emit_rcvdSeq (s : State) (o : Out) : (s.emit o).rcvdSeq = s.rcvdSeq := rfl
@[simp] theorem State.emit_dealt (s : State) (o : Out) : (s.emit o).dealt = s.dealt := rfl
@[simp] theorem State.emit_rot (s : State) (o : Out) : (s.emit o).rot = s.rot := rfl
@[simp] theorem State.emit_ports (s : State) (o : Out) : (s.emit o).ports = s.ports := rfl
@[simp] theorem State.emit_entries (s : State) (o : Out) : (s.emit o).entries = s.entries := rfl
@[simp] theorem State.emit_pairs (s : State) (o : Out) : (s.emit o).pairs = s.pairs := rfl
@[simp] theorem State.emit_links (s : State) (o : Out) : (s.emit o).links = s.links := rfl
@[simp] theorem State.emit_chans (s : State) (o : Out) : (s.emit o).chans = s.chans := rfl
@[simp] theorem State.emit_weakMrg (s : State) (o : Out) : (s.emit o).weakMrg = s.weakMrg := rfl
@[simp] theorem State.emit_weakCer (s : State) (o : Out) : (s.emit o).weakCer = s.weakCer := rfl
@[simp] theorem State.emit_period (s : State) (o : Out) : (s.emit o).period = s.period := rfl
@[simp] theorem State.emit_lines (s : State) (o : Out) : (s.emit o).lines = s.lines := rfl
@[simp] theorem State.emit_arrays (s : State) (o : Out) : (s.emit o).arrays = s.arrays := rfl
@[simp] theorem State.emit_attests (s : State) (o : Out) : (s.emit o).attests = s.attests := rfl
@[simp] theorem State.emit_house (s : State) (o : Out) : (s.emit o).house = s.house := rfl
@[simp] theorem State.emit_meas (s : State) (o : Out) : (s.emit o).meas = s.meas := rfl
@[simp] theorem State.emit_now (s : State) (o : Out) : (s.emit o).now = s.now := rfl
@[simp] theorem State.emit_issueFrom (s : State) (o : Out) : (s.emit o).issueFrom = s.issueFrom := rfl
@[simp] theorem State.emit_risen (s : State) (o : Out) : (s.emit o).risen = s.risen := rfl
@[simp] theorem State.emit_next (s : State) (o : Out) : (s.emit o).next = s.next := rfl
@[simp] theorem State.emit_free (s : State) (o : Out) : (s.emit o).free = s.free := rfl
@[simp] theorem State.emit_cur (s : State) (o : Out) : (s.emit o).cur = s.cur := rfl
@[simp] theorem State.emit_agenda (s : State) (o : Out) : (s.emit o).agenda = s.agenda := rfl

/-! ### modGang: nothing changes if there is no such part -/

@[simp] theorem State.modGang_pkg (s : State) (id : Nat) (f : Gang → Gang) : (s.modGang id f).pkg = s.pkg := by
  unfold State.modGang
  split <;> rfl
@[simp] theorem State.modGang_teams (s : State) (id : Nat) (f : Gang → Gang) : (s.modGang id f).teams = s.teams := by
  unfold State.modGang
  split <;> rfl
@[simp] theorem State.modGang_cores (s : State) (id : Nat) (f : Gang → Gang) : (s.modGang id f).cores = s.cores := by
  unfold State.modGang
  split <;> rfl
@[simp] theorem State.modGang_corbel (s : State) (id : Nat) (f : Gang → Gang) : (s.modGang id f).corbel = s.corbel := by
  unfold State.modGang
  split <;> rfl
@[simp] theorem State.modGang_vault (s : State) (id : Nat) (f : Gang → Gang) : (s.modGang id f).vault = s.vault := by
  unfold State.modGang
  split <;> rfl
@[simp] theorem State.modGang_vc (s : State) (id : Nat) (f : Gang → Gang) : (s.modGang id f).vc = s.vc := by
  unfold State.modGang
  split <;> rfl
@[simp] theorem State.modGang_av (s : State) (id : Nat) (f : Gang → Gang) : (s.modGang id f).av = s.av := by
  unfold State.modGang
  split <;> rfl
@[simp] theorem State.modGang_vreqs (s : State) (id : Nat) (f : Gang → Gang) : (s.modGang id f).vreqs = s.vreqs := by
  unfold State.modGang
  split <;> rfl
@[simp] theorem State.modGang_preqs (s : State) (id : Nat) (f : Gang → Gang) : (s.modGang id f).preqs = s.preqs := by
  unfold State.modGang
  split <;> rfl
@[simp] theorem State.modGang_iodq (s : State) (id : Nat) (f : Gang → Gang) : (s.modGang id f).iodq = s.iodq := by
  unfold State.modGang
  split <;> rfl
@[simp] theorem State.modGang_badWords (s : State) (id : Nat) (f : Gang → Gang) : (s.modGang id f).badWords = s.badWords := by
  unfold State.modGang
  split <;> rfl
@[simp] theorem State.modGang_holds (s : State) (id : Nat) (f : Gang → Gang) : (s.modGang id f).holds = s.holds := by
  unfold State.modGang
  split <;> rfl
@[simp] theorem State.modGang_tlb (s : State) (id : Nat) (f : Gang → Gang) : (s.modGang id f).tlb = s.tlb := by
  unfold State.modGang
  split <;> rfl
@[simp] theorem State.modGang_parts (s : State) (id : Nat) (f : Gang → Gang) : (s.modGang id f).parts = s.parts := by
  unfold State.modGang
  split <;> rfl
@[simp] theorem State.modGang_launches (s : State) (id : Nat) (f : Gang → Gang) : (s.modGang id f).launches = s.launches := by
  unfold State.modGang
  split <;> rfl
@[simp] theorem State.modGang_reqs (s : State) (id : Nat) (f : Gang → Gang) : (s.modGang id f).reqs = s.reqs := by
  unfold State.modGang
  split <;> rfl
@[simp] theorem State.modGang_modules (s : State) (id : Nat) (f : Gang → Gang) : (s.modGang id f).modules = s.modules := by
  unfold State.modGang
  split <;> rfl
@[simp] theorem State.modGang_wiring (s : State) (id : Nat) (f : Gang → Gang) : (s.modGang id f).wiring = s.wiring := by
  unfold State.modGang
  split <;> rfl
@[simp] theorem State.modGang_remotes (s : State) (id : Nat) (f : Gang → Gang) : (s.modGang id f).remotes = s.remotes := by
  unfold State.modGang
  split <;> rfl
@[simp] theorem State.modGang_inbound (s : State) (id : Nat) (f : Gang → Gang) : (s.modGang id f).inbound = s.inbound := by
  unfold State.modGang
  split <;> rfl
@[simp] theorem State.modGang_qbad (s : State) (id : Nat) (f : Gang → Gang) : (s.modGang id f).qbad = s.qbad := by
  unfold State.modGang
  split <;> rfl
@[simp] theorem State.modGang_caps (s : State) (id : Nat) (f : Gang → Gang) : (s.modGang id f).caps = s.caps := by
  unfold State.modGang
  split <;> rfl
@[simp] theorem State.modGang_netq (s : State) (id : Nat) (f : Gang → Gang) : (s.modGang id f).netq = s.netq := by
  unfold State.modGang
  split <;> rfl
@[simp] theorem State.modGang_sentSeq (s : State) (id : Nat) (f : Gang → Gang) : (s.modGang id f).sentSeq = s.sentSeq := by
  unfold State.modGang
  split <;> rfl
@[simp] theorem State.modGang_rcvdSeq (s : State) (id : Nat) (f : Gang → Gang) : (s.modGang id f).rcvdSeq = s.rcvdSeq := by
  unfold State.modGang
  split <;> rfl
@[simp] theorem State.modGang_dealt (s : State) (id : Nat) (f : Gang → Gang) : (s.modGang id f).dealt = s.dealt := by
  unfold State.modGang
  split <;> rfl
@[simp] theorem State.modGang_rot (s : State) (id : Nat) (f : Gang → Gang) : (s.modGang id f).rot = s.rot := by
  unfold State.modGang
  split <;> rfl
@[simp] theorem State.modGang_ports (s : State) (id : Nat) (f : Gang → Gang) : (s.modGang id f).ports = s.ports := by
  unfold State.modGang
  split <;> rfl
@[simp] theorem State.modGang_entries (s : State) (id : Nat) (f : Gang → Gang) : (s.modGang id f).entries = s.entries := by
  unfold State.modGang
  split <;> rfl
@[simp] theorem State.modGang_pairs (s : State) (id : Nat) (f : Gang → Gang) : (s.modGang id f).pairs = s.pairs := by
  unfold State.modGang
  split <;> rfl
@[simp] theorem State.modGang_links (s : State) (id : Nat) (f : Gang → Gang) : (s.modGang id f).links = s.links := by
  unfold State.modGang
  split <;> rfl
@[simp] theorem State.modGang_chans (s : State) (id : Nat) (f : Gang → Gang) : (s.modGang id f).chans = s.chans := by
  unfold State.modGang
  split <;> rfl
@[simp] theorem State.modGang_weakMrg (s : State) (id : Nat) (f : Gang → Gang) : (s.modGang id f).weakMrg = s.weakMrg := by
  unfold State.modGang
  split <;> rfl
@[simp] theorem State.modGang_weakCer (s : State) (id : Nat) (f : Gang → Gang) : (s.modGang id f).weakCer = s.weakCer := by
  unfold State.modGang
  split <;> rfl
@[simp] theorem State.modGang_period (s : State) (id : Nat) (f : Gang → Gang) : (s.modGang id f).period = s.period := by
  unfold State.modGang
  split <;> rfl
@[simp] theorem State.modGang_lines (s : State) (id : Nat) (f : Gang → Gang) : (s.modGang id f).lines = s.lines := by
  unfold State.modGang
  split <;> rfl
@[simp] theorem State.modGang_arrays (s : State) (id : Nat) (f : Gang → Gang) : (s.modGang id f).arrays = s.arrays := by
  unfold State.modGang
  split <;> rfl
@[simp] theorem State.modGang_attests (s : State) (id : Nat) (f : Gang → Gang) : (s.modGang id f).attests = s.attests := by
  unfold State.modGang
  split <;> rfl
@[simp] theorem State.modGang_house (s : State) (id : Nat) (f : Gang → Gang) : (s.modGang id f).house = s.house := by
  unfold State.modGang
  split <;> rfl
@[simp] theorem State.modGang_meas (s : State) (id : Nat) (f : Gang → Gang) : (s.modGang id f).meas = s.meas := by
  unfold State.modGang
  split <;> rfl
@[simp] theorem State.modGang_out (s : State) (id : Nat) (f : Gang → Gang) : (s.modGang id f).out = s.out := by
  unfold State.modGang
  split <;> rfl
@[simp] theorem State.modGang_now (s : State) (id : Nat) (f : Gang → Gang) : (s.modGang id f).now = s.now := by
  unfold State.modGang
  split <;> rfl
@[simp] theorem State.modGang_issueFrom (s : State) (id : Nat) (f : Gang → Gang) : (s.modGang id f).issueFrom = s.issueFrom := by
  unfold State.modGang
  split <;> rfl
@[simp] theorem State.modGang_risen (s : State) (id : Nat) (f : Gang → Gang) : (s.modGang id f).risen = s.risen := by
  unfold State.modGang
  split <;> rfl
@[simp] theorem State.modGang_next (s : State) (id : Nat) (f : Gang → Gang) : (s.modGang id f).next = s.next := by
  unfold State.modGang
  split <;> rfl
@[simp] theorem State.modGang_free (s : State) (id : Nat) (f : Gang → Gang) : (s.modGang id f).free = s.free := by
  unfold State.modGang
  split <;> rfl
@[simp] theorem State.modGang_cur (s : State) (id : Nat) (f : Gang → Gang) : (s.modGang id f).cur = s.cur := by
  unfold State.modGang
  split <;> rfl
@[simp] theorem State.modGang_agenda (s : State) (id : Nat) (f : Gang → Gang) : (s.modGang id f).agenda = s.agenda := by
  unfold State.modGang
  split <;> rfl

/-! ### modTeam: nothing changes if there is no such part -/

@[simp] theorem State.modTeam_pkg (s : State) (id : Nat) (f : Team → Team) : (s.modTeam id f).pkg = s.pkg := by
  unfold State.modTeam
  split <;> rfl
@[simp] theorem State.modTeam_gangs (s : State) (id : Nat) (f : Team → Team) : (s.modTeam id f).gangs = s.gangs := by
  unfold State.modTeam
  split <;> rfl
@[simp] theorem State.modTeam_cores (s : State) (id : Nat) (f : Team → Team) : (s.modTeam id f).cores = s.cores := by
  unfold State.modTeam
  split <;> rfl
@[simp] theorem State.modTeam_corbel (s : State) (id : Nat) (f : Team → Team) : (s.modTeam id f).corbel = s.corbel := by
  unfold State.modTeam
  split <;> rfl
@[simp] theorem State.modTeam_vault (s : State) (id : Nat) (f : Team → Team) : (s.modTeam id f).vault = s.vault := by
  unfold State.modTeam
  split <;> rfl
@[simp] theorem State.modTeam_vc (s : State) (id : Nat) (f : Team → Team) : (s.modTeam id f).vc = s.vc := by
  unfold State.modTeam
  split <;> rfl
@[simp] theorem State.modTeam_av (s : State) (id : Nat) (f : Team → Team) : (s.modTeam id f).av = s.av := by
  unfold State.modTeam
  split <;> rfl
@[simp] theorem State.modTeam_vreqs (s : State) (id : Nat) (f : Team → Team) : (s.modTeam id f).vreqs = s.vreqs := by
  unfold State.modTeam
  split <;> rfl
@[simp] theorem State.modTeam_preqs (s : State) (id : Nat) (f : Team → Team) : (s.modTeam id f).preqs = s.preqs := by
  unfold State.modTeam
  split <;> rfl
@[simp] theorem State.modTeam_iodq (s : State) (id : Nat) (f : Team → Team) : (s.modTeam id f).iodq = s.iodq := by
  unfold State.modTeam
  split <;> rfl
@[simp] theorem State.modTeam_badWords (s : State) (id : Nat) (f : Team → Team) : (s.modTeam id f).badWords = s.badWords := by
  unfold State.modTeam
  split <;> rfl
@[simp] theorem State.modTeam_holds (s : State) (id : Nat) (f : Team → Team) : (s.modTeam id f).holds = s.holds := by
  unfold State.modTeam
  split <;> rfl
@[simp] theorem State.modTeam_tlb (s : State) (id : Nat) (f : Team → Team) : (s.modTeam id f).tlb = s.tlb := by
  unfold State.modTeam
  split <;> rfl
@[simp] theorem State.modTeam_parts (s : State) (id : Nat) (f : Team → Team) : (s.modTeam id f).parts = s.parts := by
  unfold State.modTeam
  split <;> rfl
@[simp] theorem State.modTeam_launches (s : State) (id : Nat) (f : Team → Team) : (s.modTeam id f).launches = s.launches := by
  unfold State.modTeam
  split <;> rfl
@[simp] theorem State.modTeam_reqs (s : State) (id : Nat) (f : Team → Team) : (s.modTeam id f).reqs = s.reqs := by
  unfold State.modTeam
  split <;> rfl
@[simp] theorem State.modTeam_modules (s : State) (id : Nat) (f : Team → Team) : (s.modTeam id f).modules = s.modules := by
  unfold State.modTeam
  split <;> rfl
@[simp] theorem State.modTeam_wiring (s : State) (id : Nat) (f : Team → Team) : (s.modTeam id f).wiring = s.wiring := by
  unfold State.modTeam
  split <;> rfl
@[simp] theorem State.modTeam_remotes (s : State) (id : Nat) (f : Team → Team) : (s.modTeam id f).remotes = s.remotes := by
  unfold State.modTeam
  split <;> rfl
@[simp] theorem State.modTeam_inbound (s : State) (id : Nat) (f : Team → Team) : (s.modTeam id f).inbound = s.inbound := by
  unfold State.modTeam
  split <;> rfl
@[simp] theorem State.modTeam_qbad (s : State) (id : Nat) (f : Team → Team) : (s.modTeam id f).qbad = s.qbad := by
  unfold State.modTeam
  split <;> rfl
@[simp] theorem State.modTeam_caps (s : State) (id : Nat) (f : Team → Team) : (s.modTeam id f).caps = s.caps := by
  unfold State.modTeam
  split <;> rfl
@[simp] theorem State.modTeam_netq (s : State) (id : Nat) (f : Team → Team) : (s.modTeam id f).netq = s.netq := by
  unfold State.modTeam
  split <;> rfl
@[simp] theorem State.modTeam_sentSeq (s : State) (id : Nat) (f : Team → Team) : (s.modTeam id f).sentSeq = s.sentSeq := by
  unfold State.modTeam
  split <;> rfl
@[simp] theorem State.modTeam_rcvdSeq (s : State) (id : Nat) (f : Team → Team) : (s.modTeam id f).rcvdSeq = s.rcvdSeq := by
  unfold State.modTeam
  split <;> rfl
@[simp] theorem State.modTeam_dealt (s : State) (id : Nat) (f : Team → Team) : (s.modTeam id f).dealt = s.dealt := by
  unfold State.modTeam
  split <;> rfl
@[simp] theorem State.modTeam_rot (s : State) (id : Nat) (f : Team → Team) : (s.modTeam id f).rot = s.rot := by
  unfold State.modTeam
  split <;> rfl
@[simp] theorem State.modTeam_ports (s : State) (id : Nat) (f : Team → Team) : (s.modTeam id f).ports = s.ports := by
  unfold State.modTeam
  split <;> rfl
@[simp] theorem State.modTeam_entries (s : State) (id : Nat) (f : Team → Team) : (s.modTeam id f).entries = s.entries := by
  unfold State.modTeam
  split <;> rfl
@[simp] theorem State.modTeam_pairs (s : State) (id : Nat) (f : Team → Team) : (s.modTeam id f).pairs = s.pairs := by
  unfold State.modTeam
  split <;> rfl
@[simp] theorem State.modTeam_links (s : State) (id : Nat) (f : Team → Team) : (s.modTeam id f).links = s.links := by
  unfold State.modTeam
  split <;> rfl
@[simp] theorem State.modTeam_chans (s : State) (id : Nat) (f : Team → Team) : (s.modTeam id f).chans = s.chans := by
  unfold State.modTeam
  split <;> rfl
@[simp] theorem State.modTeam_weakMrg (s : State) (id : Nat) (f : Team → Team) : (s.modTeam id f).weakMrg = s.weakMrg := by
  unfold State.modTeam
  split <;> rfl
@[simp] theorem State.modTeam_weakCer (s : State) (id : Nat) (f : Team → Team) : (s.modTeam id f).weakCer = s.weakCer := by
  unfold State.modTeam
  split <;> rfl
@[simp] theorem State.modTeam_period (s : State) (id : Nat) (f : Team → Team) : (s.modTeam id f).period = s.period := by
  unfold State.modTeam
  split <;> rfl
@[simp] theorem State.modTeam_lines (s : State) (id : Nat) (f : Team → Team) : (s.modTeam id f).lines = s.lines := by
  unfold State.modTeam
  split <;> rfl
@[simp] theorem State.modTeam_arrays (s : State) (id : Nat) (f : Team → Team) : (s.modTeam id f).arrays = s.arrays := by
  unfold State.modTeam
  split <;> rfl
@[simp] theorem State.modTeam_attests (s : State) (id : Nat) (f : Team → Team) : (s.modTeam id f).attests = s.attests := by
  unfold State.modTeam
  split <;> rfl
@[simp] theorem State.modTeam_house (s : State) (id : Nat) (f : Team → Team) : (s.modTeam id f).house = s.house := by
  unfold State.modTeam
  split <;> rfl
@[simp] theorem State.modTeam_meas (s : State) (id : Nat) (f : Team → Team) : (s.modTeam id f).meas = s.meas := by
  unfold State.modTeam
  split <;> rfl
@[simp] theorem State.modTeam_out (s : State) (id : Nat) (f : Team → Team) : (s.modTeam id f).out = s.out := by
  unfold State.modTeam
  split <;> rfl
@[simp] theorem State.modTeam_now (s : State) (id : Nat) (f : Team → Team) : (s.modTeam id f).now = s.now := by
  unfold State.modTeam
  split <;> rfl
@[simp] theorem State.modTeam_issueFrom (s : State) (id : Nat) (f : Team → Team) : (s.modTeam id f).issueFrom = s.issueFrom := by
  unfold State.modTeam
  split <;> rfl
@[simp] theorem State.modTeam_risen (s : State) (id : Nat) (f : Team → Team) : (s.modTeam id f).risen = s.risen := by
  unfold State.modTeam
  split <;> rfl
@[simp] theorem State.modTeam_next (s : State) (id : Nat) (f : Team → Team) : (s.modTeam id f).next = s.next := by
  unfold State.modTeam
  split <;> rfl
@[simp] theorem State.modTeam_free (s : State) (id : Nat) (f : Team → Team) : (s.modTeam id f).free = s.free := by
  unfold State.modTeam
  split <;> rfl
@[simp] theorem State.modTeam_cur (s : State) (id : Nat) (f : Team → Team) : (s.modTeam id f).cur = s.cur := by
  unfold State.modTeam
  split <;> rfl
@[simp] theorem State.modTeam_agenda (s : State) (id : Nat) (f : Team → Team) : (s.modTeam id f).agenda = s.agenda := by
  unfold State.modTeam
  split <;> rfl

/-! ### modLaunch: nothing changes if there is no such part -/

@[simp] theorem State.modLaunch_pkg (s : State) (id : Nat) (f : Launch → Launch) : (s.modLaunch id f).pkg = s.pkg := by
  unfold State.modLaunch
  split <;> rfl
@[simp] theorem State.modLaunch_gangs (s : State) (id : Nat) (f : Launch → Launch) : (s.modLaunch id f).gangs = s.gangs := by
  unfold State.modLaunch
  split <;> rfl
@[simp] theorem State.modLaunch_teams (s : State) (id : Nat) (f : Launch → Launch) : (s.modLaunch id f).teams = s.teams := by
  unfold State.modLaunch
  split <;> rfl
@[simp] theorem State.modLaunch_cores (s : State) (id : Nat) (f : Launch → Launch) : (s.modLaunch id f).cores = s.cores := by
  unfold State.modLaunch
  split <;> rfl
@[simp] theorem State.modLaunch_corbel (s : State) (id : Nat) (f : Launch → Launch) : (s.modLaunch id f).corbel = s.corbel := by
  unfold State.modLaunch
  split <;> rfl
@[simp] theorem State.modLaunch_vault (s : State) (id : Nat) (f : Launch → Launch) : (s.modLaunch id f).vault = s.vault := by
  unfold State.modLaunch
  split <;> rfl
@[simp] theorem State.modLaunch_vc (s : State) (id : Nat) (f : Launch → Launch) : (s.modLaunch id f).vc = s.vc := by
  unfold State.modLaunch
  split <;> rfl
@[simp] theorem State.modLaunch_av (s : State) (id : Nat) (f : Launch → Launch) : (s.modLaunch id f).av = s.av := by
  unfold State.modLaunch
  split <;> rfl
@[simp] theorem State.modLaunch_vreqs (s : State) (id : Nat) (f : Launch → Launch) : (s.modLaunch id f).vreqs = s.vreqs := by
  unfold State.modLaunch
  split <;> rfl
@[simp] theorem State.modLaunch_preqs (s : State) (id : Nat) (f : Launch → Launch) : (s.modLaunch id f).preqs = s.preqs := by
  unfold State.modLaunch
  split <;> rfl
@[simp] theorem State.modLaunch_iodq (s : State) (id : Nat) (f : Launch → Launch) : (s.modLaunch id f).iodq = s.iodq := by
  unfold State.modLaunch
  split <;> rfl
@[simp] theorem State.modLaunch_badWords (s : State) (id : Nat) (f : Launch → Launch) : (s.modLaunch id f).badWords = s.badWords := by
  unfold State.modLaunch
  split <;> rfl
@[simp] theorem State.modLaunch_holds (s : State) (id : Nat) (f : Launch → Launch) : (s.modLaunch id f).holds = s.holds := by
  unfold State.modLaunch
  split <;> rfl
@[simp] theorem State.modLaunch_tlb (s : State) (id : Nat) (f : Launch → Launch) : (s.modLaunch id f).tlb = s.tlb := by
  unfold State.modLaunch
  split <;> rfl
@[simp] theorem State.modLaunch_parts (s : State) (id : Nat) (f : Launch → Launch) : (s.modLaunch id f).parts = s.parts := by
  unfold State.modLaunch
  split <;> rfl
@[simp] theorem State.modLaunch_reqs (s : State) (id : Nat) (f : Launch → Launch) : (s.modLaunch id f).reqs = s.reqs := by
  unfold State.modLaunch
  split <;> rfl
@[simp] theorem State.modLaunch_modules (s : State) (id : Nat) (f : Launch → Launch) : (s.modLaunch id f).modules = s.modules := by
  unfold State.modLaunch
  split <;> rfl
@[simp] theorem State.modLaunch_wiring (s : State) (id : Nat) (f : Launch → Launch) : (s.modLaunch id f).wiring = s.wiring := by
  unfold State.modLaunch
  split <;> rfl
@[simp] theorem State.modLaunch_remotes (s : State) (id : Nat) (f : Launch → Launch) : (s.modLaunch id f).remotes = s.remotes := by
  unfold State.modLaunch
  split <;> rfl
@[simp] theorem State.modLaunch_inbound (s : State) (id : Nat) (f : Launch → Launch) : (s.modLaunch id f).inbound = s.inbound := by
  unfold State.modLaunch
  split <;> rfl
@[simp] theorem State.modLaunch_qbad (s : State) (id : Nat) (f : Launch → Launch) : (s.modLaunch id f).qbad = s.qbad := by
  unfold State.modLaunch
  split <;> rfl
@[simp] theorem State.modLaunch_caps (s : State) (id : Nat) (f : Launch → Launch) : (s.modLaunch id f).caps = s.caps := by
  unfold State.modLaunch
  split <;> rfl
@[simp] theorem State.modLaunch_netq (s : State) (id : Nat) (f : Launch → Launch) : (s.modLaunch id f).netq = s.netq := by
  unfold State.modLaunch
  split <;> rfl
@[simp] theorem State.modLaunch_sentSeq (s : State) (id : Nat) (f : Launch → Launch) : (s.modLaunch id f).sentSeq = s.sentSeq := by
  unfold State.modLaunch
  split <;> rfl
@[simp] theorem State.modLaunch_rcvdSeq (s : State) (id : Nat) (f : Launch → Launch) : (s.modLaunch id f).rcvdSeq = s.rcvdSeq := by
  unfold State.modLaunch
  split <;> rfl
@[simp] theorem State.modLaunch_dealt (s : State) (id : Nat) (f : Launch → Launch) : (s.modLaunch id f).dealt = s.dealt := by
  unfold State.modLaunch
  split <;> rfl
@[simp] theorem State.modLaunch_rot (s : State) (id : Nat) (f : Launch → Launch) : (s.modLaunch id f).rot = s.rot := by
  unfold State.modLaunch
  split <;> rfl
@[simp] theorem State.modLaunch_ports (s : State) (id : Nat) (f : Launch → Launch) : (s.modLaunch id f).ports = s.ports := by
  unfold State.modLaunch
  split <;> rfl
@[simp] theorem State.modLaunch_entries (s : State) (id : Nat) (f : Launch → Launch) : (s.modLaunch id f).entries = s.entries := by
  unfold State.modLaunch
  split <;> rfl
@[simp] theorem State.modLaunch_pairs (s : State) (id : Nat) (f : Launch → Launch) : (s.modLaunch id f).pairs = s.pairs := by
  unfold State.modLaunch
  split <;> rfl
@[simp] theorem State.modLaunch_links (s : State) (id : Nat) (f : Launch → Launch) : (s.modLaunch id f).links = s.links := by
  unfold State.modLaunch
  split <;> rfl
@[simp] theorem State.modLaunch_chans (s : State) (id : Nat) (f : Launch → Launch) : (s.modLaunch id f).chans = s.chans := by
  unfold State.modLaunch
  split <;> rfl
@[simp] theorem State.modLaunch_weakMrg (s : State) (id : Nat) (f : Launch → Launch) : (s.modLaunch id f).weakMrg = s.weakMrg := by
  unfold State.modLaunch
  split <;> rfl
@[simp] theorem State.modLaunch_weakCer (s : State) (id : Nat) (f : Launch → Launch) : (s.modLaunch id f).weakCer = s.weakCer := by
  unfold State.modLaunch
  split <;> rfl
@[simp] theorem State.modLaunch_period (s : State) (id : Nat) (f : Launch → Launch) : (s.modLaunch id f).period = s.period := by
  unfold State.modLaunch
  split <;> rfl
@[simp] theorem State.modLaunch_lines (s : State) (id : Nat) (f : Launch → Launch) : (s.modLaunch id f).lines = s.lines := by
  unfold State.modLaunch
  split <;> rfl
@[simp] theorem State.modLaunch_arrays (s : State) (id : Nat) (f : Launch → Launch) : (s.modLaunch id f).arrays = s.arrays := by
  unfold State.modLaunch
  split <;> rfl
@[simp] theorem State.modLaunch_attests (s : State) (id : Nat) (f : Launch → Launch) : (s.modLaunch id f).attests = s.attests := by
  unfold State.modLaunch
  split <;> rfl
@[simp] theorem State.modLaunch_house (s : State) (id : Nat) (f : Launch → Launch) : (s.modLaunch id f).house = s.house := by
  unfold State.modLaunch
  split <;> rfl
@[simp] theorem State.modLaunch_meas (s : State) (id : Nat) (f : Launch → Launch) : (s.modLaunch id f).meas = s.meas := by
  unfold State.modLaunch
  split <;> rfl
@[simp] theorem State.modLaunch_out (s : State) (id : Nat) (f : Launch → Launch) : (s.modLaunch id f).out = s.out := by
  unfold State.modLaunch
  split <;> rfl
@[simp] theorem State.modLaunch_now (s : State) (id : Nat) (f : Launch → Launch) : (s.modLaunch id f).now = s.now := by
  unfold State.modLaunch
  split <;> rfl
@[simp] theorem State.modLaunch_issueFrom (s : State) (id : Nat) (f : Launch → Launch) : (s.modLaunch id f).issueFrom = s.issueFrom := by
  unfold State.modLaunch
  split <;> rfl
@[simp] theorem State.modLaunch_risen (s : State) (id : Nat) (f : Launch → Launch) : (s.modLaunch id f).risen = s.risen := by
  unfold State.modLaunch
  split <;> rfl
@[simp] theorem State.modLaunch_next (s : State) (id : Nat) (f : Launch → Launch) : (s.modLaunch id f).next = s.next := by
  unfold State.modLaunch
  split <;> rfl
@[simp] theorem State.modLaunch_free (s : State) (id : Nat) (f : Launch → Launch) : (s.modLaunch id f).free = s.free := by
  unfold State.modLaunch
  split <;> rfl
@[simp] theorem State.modLaunch_cur (s : State) (id : Nat) (f : Launch → Launch) : (s.modLaunch id f).cur = s.cur := by
  unfold State.modLaunch
  split <;> rfl
@[simp] theorem State.modLaunch_agenda (s : State) (id : Nat) (f : Launch → Launch) : (s.modLaunch id f).agenda = s.agenda := by
  unfold State.modLaunch
  split <;> rfl

/-! ### modReq: nothing changes if there is no such part -/

@[simp] theorem State.modReq_pkg (s : State) (id : Nat) (f : FarReq → FarReq) : (s.modReq id f).pkg = s.pkg := by
  unfold State.modReq
  split <;> rfl
@[simp] theorem State.modReq_gangs (s : State) (id : Nat) (f : FarReq → FarReq) : (s.modReq id f).gangs = s.gangs := by
  unfold State.modReq
  split <;> rfl
@[simp] theorem State.modReq_teams (s : State) (id : Nat) (f : FarReq → FarReq) : (s.modReq id f).teams = s.teams := by
  unfold State.modReq
  split <;> rfl
@[simp] theorem State.modReq_cores (s : State) (id : Nat) (f : FarReq → FarReq) : (s.modReq id f).cores = s.cores := by
  unfold State.modReq
  split <;> rfl
@[simp] theorem State.modReq_corbel (s : State) (id : Nat) (f : FarReq → FarReq) : (s.modReq id f).corbel = s.corbel := by
  unfold State.modReq
  split <;> rfl
@[simp] theorem State.modReq_vault (s : State) (id : Nat) (f : FarReq → FarReq) : (s.modReq id f).vault = s.vault := by
  unfold State.modReq
  split <;> rfl
@[simp] theorem State.modReq_vc (s : State) (id : Nat) (f : FarReq → FarReq) : (s.modReq id f).vc = s.vc := by
  unfold State.modReq
  split <;> rfl
@[simp] theorem State.modReq_av (s : State) (id : Nat) (f : FarReq → FarReq) : (s.modReq id f).av = s.av := by
  unfold State.modReq
  split <;> rfl
@[simp] theorem State.modReq_vreqs (s : State) (id : Nat) (f : FarReq → FarReq) : (s.modReq id f).vreqs = s.vreqs := by
  unfold State.modReq
  split <;> rfl
@[simp] theorem State.modReq_preqs (s : State) (id : Nat) (f : FarReq → FarReq) : (s.modReq id f).preqs = s.preqs := by
  unfold State.modReq
  split <;> rfl
@[simp] theorem State.modReq_iodq (s : State) (id : Nat) (f : FarReq → FarReq) : (s.modReq id f).iodq = s.iodq := by
  unfold State.modReq
  split <;> rfl
@[simp] theorem State.modReq_badWords (s : State) (id : Nat) (f : FarReq → FarReq) : (s.modReq id f).badWords = s.badWords := by
  unfold State.modReq
  split <;> rfl
@[simp] theorem State.modReq_holds (s : State) (id : Nat) (f : FarReq → FarReq) : (s.modReq id f).holds = s.holds := by
  unfold State.modReq
  split <;> rfl
@[simp] theorem State.modReq_tlb (s : State) (id : Nat) (f : FarReq → FarReq) : (s.modReq id f).tlb = s.tlb := by
  unfold State.modReq
  split <;> rfl
@[simp] theorem State.modReq_parts (s : State) (id : Nat) (f : FarReq → FarReq) : (s.modReq id f).parts = s.parts := by
  unfold State.modReq
  split <;> rfl
@[simp] theorem State.modReq_launches (s : State) (id : Nat) (f : FarReq → FarReq) : (s.modReq id f).launches = s.launches := by
  unfold State.modReq
  split <;> rfl
@[simp] theorem State.modReq_modules (s : State) (id : Nat) (f : FarReq → FarReq) : (s.modReq id f).modules = s.modules := by
  unfold State.modReq
  split <;> rfl
@[simp] theorem State.modReq_wiring (s : State) (id : Nat) (f : FarReq → FarReq) : (s.modReq id f).wiring = s.wiring := by
  unfold State.modReq
  split <;> rfl
@[simp] theorem State.modReq_remotes (s : State) (id : Nat) (f : FarReq → FarReq) : (s.modReq id f).remotes = s.remotes := by
  unfold State.modReq
  split <;> rfl
@[simp] theorem State.modReq_inbound (s : State) (id : Nat) (f : FarReq → FarReq) : (s.modReq id f).inbound = s.inbound := by
  unfold State.modReq
  split <;> rfl
@[simp] theorem State.modReq_qbad (s : State) (id : Nat) (f : FarReq → FarReq) : (s.modReq id f).qbad = s.qbad := by
  unfold State.modReq
  split <;> rfl
@[simp] theorem State.modReq_caps (s : State) (id : Nat) (f : FarReq → FarReq) : (s.modReq id f).caps = s.caps := by
  unfold State.modReq
  split <;> rfl
@[simp] theorem State.modReq_netq (s : State) (id : Nat) (f : FarReq → FarReq) : (s.modReq id f).netq = s.netq := by
  unfold State.modReq
  split <;> rfl
@[simp] theorem State.modReq_sentSeq (s : State) (id : Nat) (f : FarReq → FarReq) : (s.modReq id f).sentSeq = s.sentSeq := by
  unfold State.modReq
  split <;> rfl
@[simp] theorem State.modReq_rcvdSeq (s : State) (id : Nat) (f : FarReq → FarReq) : (s.modReq id f).rcvdSeq = s.rcvdSeq := by
  unfold State.modReq
  split <;> rfl
@[simp] theorem State.modReq_dealt (s : State) (id : Nat) (f : FarReq → FarReq) : (s.modReq id f).dealt = s.dealt := by
  unfold State.modReq
  split <;> rfl
@[simp] theorem State.modReq_rot (s : State) (id : Nat) (f : FarReq → FarReq) : (s.modReq id f).rot = s.rot := by
  unfold State.modReq
  split <;> rfl
@[simp] theorem State.modReq_ports (s : State) (id : Nat) (f : FarReq → FarReq) : (s.modReq id f).ports = s.ports := by
  unfold State.modReq
  split <;> rfl
@[simp] theorem State.modReq_entries (s : State) (id : Nat) (f : FarReq → FarReq) : (s.modReq id f).entries = s.entries := by
  unfold State.modReq
  split <;> rfl
@[simp] theorem State.modReq_pairs (s : State) (id : Nat) (f : FarReq → FarReq) : (s.modReq id f).pairs = s.pairs := by
  unfold State.modReq
  split <;> rfl
@[simp] theorem State.modReq_links (s : State) (id : Nat) (f : FarReq → FarReq) : (s.modReq id f).links = s.links := by
  unfold State.modReq
  split <;> rfl
@[simp] theorem State.modReq_chans (s : State) (id : Nat) (f : FarReq → FarReq) : (s.modReq id f).chans = s.chans := by
  unfold State.modReq
  split <;> rfl
@[simp] theorem State.modReq_weakMrg (s : State) (id : Nat) (f : FarReq → FarReq) : (s.modReq id f).weakMrg = s.weakMrg := by
  unfold State.modReq
  split <;> rfl
@[simp] theorem State.modReq_weakCer (s : State) (id : Nat) (f : FarReq → FarReq) : (s.modReq id f).weakCer = s.weakCer := by
  unfold State.modReq
  split <;> rfl
@[simp] theorem State.modReq_period (s : State) (id : Nat) (f : FarReq → FarReq) : (s.modReq id f).period = s.period := by
  unfold State.modReq
  split <;> rfl
@[simp] theorem State.modReq_lines (s : State) (id : Nat) (f : FarReq → FarReq) : (s.modReq id f).lines = s.lines := by
  unfold State.modReq
  split <;> rfl
@[simp] theorem State.modReq_arrays (s : State) (id : Nat) (f : FarReq → FarReq) : (s.modReq id f).arrays = s.arrays := by
  unfold State.modReq
  split <;> rfl
@[simp] theorem State.modReq_attests (s : State) (id : Nat) (f : FarReq → FarReq) : (s.modReq id f).attests = s.attests := by
  unfold State.modReq
  split <;> rfl
@[simp] theorem State.modReq_house (s : State) (id : Nat) (f : FarReq → FarReq) : (s.modReq id f).house = s.house := by
  unfold State.modReq
  split <;> rfl
@[simp] theorem State.modReq_meas (s : State) (id : Nat) (f : FarReq → FarReq) : (s.modReq id f).meas = s.meas := by
  unfold State.modReq
  split <;> rfl
@[simp] theorem State.modReq_out (s : State) (id : Nat) (f : FarReq → FarReq) : (s.modReq id f).out = s.out := by
  unfold State.modReq
  split <;> rfl
@[simp] theorem State.modReq_now (s : State) (id : Nat) (f : FarReq → FarReq) : (s.modReq id f).now = s.now := by
  unfold State.modReq
  split <;> rfl
@[simp] theorem State.modReq_issueFrom (s : State) (id : Nat) (f : FarReq → FarReq) : (s.modReq id f).issueFrom = s.issueFrom := by
  unfold State.modReq
  split <;> rfl
@[simp] theorem State.modReq_risen (s : State) (id : Nat) (f : FarReq → FarReq) : (s.modReq id f).risen = s.risen := by
  unfold State.modReq
  split <;> rfl
@[simp] theorem State.modReq_next (s : State) (id : Nat) (f : FarReq → FarReq) : (s.modReq id f).next = s.next := by
  unfold State.modReq
  split <;> rfl
@[simp] theorem State.modReq_free (s : State) (id : Nat) (f : FarReq → FarReq) : (s.modReq id f).free = s.free := by
  unfold State.modReq
  split <;> rfl
@[simp] theorem State.modReq_cur (s : State) (id : Nat) (f : FarReq → FarReq) : (s.modReq id f).cur = s.cur := by
  unfold State.modReq
  split <;> rfl
@[simp] theorem State.modReq_agenda (s : State) (id : Nat) (f : FarReq → FarReq) : (s.modReq id f).agenda = s.agenda := by
  unfold State.modReq
  split <;> rfl

/-! ### Reading what was written -/

@[simp] theorem State.team?_putTeam_same (s : State) (n x) : (s.putTeam n x).team? n = some x := by
  simp [State.team?, State.putTeam]

@[simp] theorem State.team?_putTeam_other (s : State) {n m : Nat} (x) (h : m ≠ n) : (s.putTeam n x).team? m = s.team? m := by
  simp [State.team?, State.putTeam, h]

@[simp] theorem State.launch?_putLaunch_same (s : State) (n x) : (s.putLaunch n x).launch? n = some x := by
  simp [State.launch?, State.putLaunch]

@[simp] theorem State.launch?_putLaunch_other (s : State) {n m : Nat} (x) (h : m ≠ n) : (s.putLaunch n x).launch? m = s.launch? m := by
  simp [State.launch?, State.putLaunch, h]

@[simp] theorem State.req?_putReq_same (s : State) (n x) : (s.putReq n x).req? n = some x := by
  simp [State.req?, State.putReq]

@[simp] theorem State.req?_putReq_other (s : State) {n m : Nat} (x) (h : m ≠ n) : (s.putReq n x).req? m = s.req? m := by
  simp [State.req?, State.putReq, h]

@[simp] theorem State.remote?_putRemote_same (s : State) (n x) : (s.putRemote n x).remote? n = some x := by
  simp [State.remote?, State.putRemote]

@[simp] theorem State.remote?_putRemote_other (s : State) {n m : Nat} (x) (h : m ≠ n) : (s.putRemote n x).remote? m = s.remote? m := by
  simp [State.remote?, State.putRemote, h]

@[simp] theorem State.gang?_dropGang_same (s : State) (n : Nat) : (s.dropGang n).gang? n = none := by
  simp [State.gang?, State.dropGang]

@[simp] theorem State.gang?_dropGang_other (s : State) {n m : Nat} (h : m ≠ n) : (s.dropGang n).gang? m = s.gang? m := by
  simp [State.gang?, State.dropGang, h]

@[simp] theorem State.team?_dropTeam_same (s : State) (n : Nat) : (s.dropTeam n).team? n = none := by
  simp [State.team?, State.dropTeam]

@[simp] theorem State.team?_dropTeam_other (s : State) {n m : Nat} (h : m ≠ n) : (s.dropTeam n).team? m = s.team? m := by
  simp [State.team?, State.dropTeam, h]

@[simp] theorem State.launch?_dropLaunch_same (s : State) (n : Nat) : (s.dropLaunch n).launch? n = none := by
  simp [State.launch?, State.dropLaunch]

@[simp] theorem State.launch?_dropLaunch_other (s : State) {n m : Nat} (h : m ≠ n) : (s.dropLaunch n).launch? m = s.launch? m := by
  simp [State.launch?, State.dropLaunch, h]

@[simp] theorem State.req?_dropReq_same (s : State) (n : Nat) : (s.dropReq n).req? n = none := by
  simp [State.req?, State.dropReq]

@[simp] theorem State.req?_dropReq_other (s : State) {n m : Nat} (h : m ≠ n) : (s.dropReq n).req? m = s.req? m := by
  simp [State.req?, State.dropReq, h]

@[simp] theorem State.remote?_dropRemote_same (s : State) (n : Nat) : (s.dropRemote n).remote? n = none := by
  simp [State.remote?, State.dropRemote]

@[simp] theorem State.remote?_dropRemote_other (s : State) {n m : Nat} (h : m ≠ n) : (s.dropRemote n).remote? m = s.remote? m := by
  simp [State.remote?, State.dropRemote, h]

@[simp] theorem State.core_putCore_same (s : State) (n x) : (s.putCore n x).core n = x := by
  simp [State.core, State.putCore]

@[simp] theorem State.core_putCore_other (s : State) {n m : Nat} (x) (h : m ≠ n) : (s.putCore n x).core m = s.core m := by
  simp [State.core, State.putCore, h]

@[simp] theorem State.core_modCore_same (s : State) (n f) : (s.modCore n f).core n = f (s.core n) := by
  simp [State.modCore]

@[simp] theorem State.core_modCore_other (s : State) {n m : Nat} (f) (h : m ≠ n) : (s.modCore n f).core m = s.core m := by
  simp [State.modCore, h]

@[simp] theorem State.part_putPart_same (s : State) (n x) : (s.putPart n x).part n = x := by
  simp [State.part, State.putPart]

@[simp] theorem State.part_putPart_other (s : State) {n m : Nat} (x) (h : m ≠ n) : (s.putPart n x).part m = s.part m := by
  simp [State.part, State.putPart, h]

@[simp] theorem State.part_modPart_same (s : State) (n f) : (s.modPart n f).part n = f (s.part n) := by
  simp [State.modPart]

@[simp] theorem State.part_modPart_other (s : State) {n m : Nat} (f) (h : m ≠ n) : (s.modPart n f).part m = s.part m := by
  simp [State.modPart, h]

@[simp] theorem State.module_putModule_same (s : State) (n x) : (s.putModule n x).module n = x := by
  simp [State.module, State.putModule]

@[simp] theorem State.module_putModule_other (s : State) {n m : Nat} (x) (h : m ≠ n) : (s.putModule n x).module m = s.module m := by
  simp [State.module, State.putModule, h]

@[simp] theorem State.module_modModule_same (s : State) (n f) : (s.modModule n f).module n = f (s.module n) := by
  simp [State.modModule]

@[simp] theorem State.module_modModule_other (s : State) {n m : Nat} (f) (h : m ≠ n) : (s.modModule n f).module m = s.module m := by
  simp [State.modModule, h]

@[simp] theorem State.pair_putPair_same (s : State) (n x) : (s.putPair n x).pair n = x := by
  simp [State.pair, State.putPair]

@[simp] theorem State.pair_putPair_other (s : State) {n m : Nat} (x) (h : m ≠ n) : (s.putPair n x).pair m = s.pair m := by
  simp [State.pair, State.putPair, h]

@[simp] theorem State.link_putLink_same (s : State) (n x) : (s.putLink n x).link n = x := by
  simp [State.link, State.putLink]

@[simp] theorem State.link_putLink_other (s : State) {n m : Nat} (x) (h : m ≠ n) : (s.putLink n x).link m = s.link m := by
  simp [State.link, State.putLink, h]

@[simp] theorem State.chan_putChan_same (s : State) (n x) : (s.putChan n x).chan n = x := by
  simp [State.chan, State.putChan]

@[simp] theorem State.chan_putChan_other (s : State) {n m : Nat} (x) (h : m ≠ n) : (s.putChan n x).chan m = s.chan m := by
  simp [State.chan, State.putChan, h]

/-- The gang changed by f, if there is one. -/
theorem State.gang?_modGang (s : State) (id j : Nat) (f : Gang → Gang) :
    (s.modGang id f).gang? j = if j = id then (s.gang? id).map f else s.gang? j := by
  unfold State.modGang
  cases h : s.gang? id with
  | none =>
    by_cases hj : j = id
    · subst hj
      simp [h]
    · simp [hj]
  | some g => simp [State.gang?, State.putGang, Tbl.get_set]

/-! ### Gang.putMr -/

@[simp] theorem Gang.putMr_team (g : Gang) (sl : Nat) (x : BitVec 24) : (g.putMr sl x).team = g.team := rfl
@[simp] theorem Gang.putMr_index (g : Gang) (sl : Nat) (x : BitVec 24) : (g.putMr sl x).index = g.index := rfl
@[simp] theorem Gang.putMr_rank (g : Gang) (sl : Nat) (x : BitVec 24) : (g.putMr sl x).rank = g.rank := rfl
@[simp] theorem Gang.putMr_core (g : Gang) (sl : Nat) (x : BitVec 24) : (g.putMr sl x).core = g.core := rfl
@[simp] theorem Gang.putMr_slot (g : Gang) (sl : Nat) (x : BitVec 24) : (g.putMr sl x).slot = g.slot := rfl
@[simp] theorem Gang.putMr_alloc (g : Gang) (sl : Nat) (x : BitVec 24) : (g.putMr sl x).alloc = g.alloc := rfl
@[simp] theorem Gang.putMr_v (g : Gang) (sl : Nat) (x : BitVec 24) : (g.putMr sl x).v = g.v := rfl
@[simp] theorem Gang.putMr_s (g : Gang) (sl : Nat) (x : BitVec 24) : (g.putMr sl x).s = g.s := rfl
@[simp] theorem Gang.putMr_p (g : Gang) (sl : Nat) (x : BitVec 24) : (g.putMr sl x).p = g.p := rfl
@[simp] theorem Gang.putMr_pend (g : Gang) (sl : Nat) (x : BitVec 24) : (g.putMr sl x).pend = g.pend := rfl
@[simp] theorem Gang.putMr_awaits (g : Gang) (sl : Nat) (x : BitVec 24) : (g.putMr sl x).awaits = g.awaits := rfl
@[simp] theorem Gang.putMr_emask (g : Gang) (sl : Nat) (x : BitVec 24) : (g.putMr sl x).emask = g.emask := rfl
@[simp] theorem Gang.putMr_exited (g : Gang) (sl : Nat) (x : BitVec 24) : (g.putMr sl x).exited = g.exited := rfl
@[simp] theorem Gang.putMr_groups (g : Gang) (sl : Nat) (x : BitVec 24) : (g.putMr sl x).groups = g.groups := rfl
@[simp] theorem Gang.putMr_turn (g : Gang) (sl : Nat) (x : BitVec 24) : (g.putMr sl x).turn = g.turn := rfl
@[simp] theorem Gang.putMr_turnIssues (g : Gang) (sl : Nat) (x : BitVec 24) : (g.putMr sl x).turnIssues = g.turnIssues := rfl
@[simp] theorem Gang.putMr_plumbEn (g : Gang) (sl : Nat) (x : BitVec 24) : (g.putMr sl x).plumbEn = g.plumbEn := rfl
@[simp] theorem Gang.putMr_plumbSt (g : Gang) (sl : Nat) (x : BitVec 24) : (g.putMr sl x).plumbSt = g.plumbSt := rfl
@[simp] theorem Gang.putMr_acr (g : Gang) (sl : Nat) (x : BitVec 24) : (g.putMr sl x).acr = g.acr := rfl
@[simp] theorem Gang.putMr_mxf (g : Gang) (sl : Nat) (x : BitVec 24) : (g.putMr sl x).mxf = g.mxf := rfl
@[simp] theorem Gang.putMr_k (g : Gang) (sl : Nat) (x : BitVec 24) : (g.putMr sl x).k = g.k := rfl
@[simp] theorem Gang.putMr_tokens (g : Gang) (sl : Nat) (x : BitVec 24) : (g.putMr sl x).tokens = g.tokens := rfl
@[simp] theorem Gang.putMr_posted (g : Gang) (sl : Nat) (x : BitVec 24) : (g.putMr sl x).posted = g.posted := rfl
@[simp] theorem Gang.putMr_evpend (g : Gang) (sl : Nat) (x : BitVec 24) : (g.putMr sl x).evpend = g.evpend := rfl
@[simp] theorem Gang.putMr_evmask (g : Gang) (sl : Nat) (x : BitVec 24) : (g.putMr sl x).evmask = g.evmask := rfl
@[simp] theorem Gang.putMr_deadline (g : Gang) (sl : Nat) (x : BitVec 24) : (g.putMr sl x).deadline = g.deadline := rfl
@[simp] theorem Gang.putMr_mbox (g : Gang) (sl : Nat) (x : BitVec 24) : (g.putMr sl x).mbox = g.mbox := rfl
@[simp] theorem Gang.putMr_reserve (g : Gang) (sl : Nat) (x : BitVec 24) : (g.putMr sl x).reserve = g.reserve := rfl
@[simp] theorem Gang.putMr_workget (g : Gang) (sl : Nat) (x : BitVec 24) : (g.putMr sl x).workget = g.workget := rfl
@[simp] theorem Gang.putMr_ctxsv (g : Gang) (sl : Nat) (x : BitVec 24) : (g.putMr sl x).ctxsv = g.ctxsv := rfl
@[simp] theorem Gang.putMr_inh (g : Gang) (sl : Nat) (x : BitVec 24) : (g.putMr sl x).inh = g.inh := rfl
@[simp] theorem Gang.putMr_trap (g : Gang) (sl : Nat) (x : BitVec 24) : (g.putMr sl x).trap = g.trap := rfl
@[simp] theorem Gang.putMr_records (g : Gang) (sl : Nat) (x : BitVec 24) : (g.putMr sl x).records = g.records := rfl
@[simp] theorem Gang.putMr_block (g : Gang) (sl : Nat) (x : BitVec 24) : (g.putMr sl x).block = g.block := rfl
@[simp] theorem Gang.putMr_pendTraps (g : Gang) (sl : Nat) (x : BitVec 24) : (g.putMr sl x).pendTraps = g.pendTraps := rfl
@[simp] theorem Gang.putMr_fixedAllow (g : Gang) (sl : Nat) (x : BitVec 24) : (g.putMr sl x).fixedAllow = g.fixedAllow := rfl
@[simp] theorem Gang.putMr_waitFrom (g : Gang) (sl : Nat) (x : BitVec 24) : (g.putMr sl x).waitFrom = g.waitFrom := rfl
@[simp] theorem Gang.putMr_yielded (g : Gang) (sl : Nat) (x : BitVec 24) : (g.putMr sl x).yielded = g.yielded := rfl
@[simp] theorem Gang.putMr_ended (g : Gang) (sl : Nat) (x : BitVec 24) : (g.putMr sl x).ended = g.ended := rfl
@[simp] theorem Gang.putMr_stopped (g : Gang) (sl : Nat) (x : BitVec 24) : (g.putMr sl x).stopped = g.stopped := rfl

/-! ### Gang.putCounter -/

@[simp] theorem Gang.putCounter_team (g : Gang) (n x : Nat) : (g.putCounter n x).team = g.team := rfl
@[simp] theorem Gang.putCounter_index (g : Gang) (n x : Nat) : (g.putCounter n x).index = g.index := rfl
@[simp] theorem Gang.putCounter_rank (g : Gang) (n x : Nat) : (g.putCounter n x).rank = g.rank := rfl
@[simp] theorem Gang.putCounter_core (g : Gang) (n x : Nat) : (g.putCounter n x).core = g.core := rfl
@[simp] theorem Gang.putCounter_slot (g : Gang) (n x : Nat) : (g.putCounter n x).slot = g.slot := rfl
@[simp] theorem Gang.putCounter_alloc (g : Gang) (n x : Nat) : (g.putCounter n x).alloc = g.alloc := rfl
@[simp] theorem Gang.putCounter_v (g : Gang) (n x : Nat) : (g.putCounter n x).v = g.v := rfl
@[simp] theorem Gang.putCounter_s (g : Gang) (n x : Nat) : (g.putCounter n x).s = g.s := rfl
@[simp] theorem Gang.putCounter_p (g : Gang) (n x : Nat) : (g.putCounter n x).p = g.p := rfl
@[simp] theorem Gang.putCounter_pend (g : Gang) (n x : Nat) : (g.putCounter n x).pend = g.pend := rfl
@[simp] theorem Gang.putCounter_awaits (g : Gang) (n x : Nat) : (g.putCounter n x).awaits = g.awaits := rfl
@[simp] theorem Gang.putCounter_mr (g : Gang) (n x : Nat) : (g.putCounter n x).mr = g.mr := rfl
@[simp] theorem Gang.putCounter_emask (g : Gang) (n x : Nat) : (g.putCounter n x).emask = g.emask := rfl
@[simp] theorem Gang.putCounter_exited (g : Gang) (n x : Nat) : (g.putCounter n x).exited = g.exited := rfl
@[simp] theorem Gang.putCounter_groups (g : Gang) (n x : Nat) : (g.putCounter n x).groups = g.groups := rfl
@[simp] theorem Gang.putCounter_turn (g : Gang) (n x : Nat) : (g.putCounter n x).turn = g.turn := rfl
@[simp] theorem Gang.putCounter_turnIssues (g : Gang) (n x : Nat) : (g.putCounter n x).turnIssues = g.turnIssues := rfl
@[simp] theorem Gang.putCounter_plumbEn (g : Gang) (n x : Nat) : (g.putCounter n x).plumbEn = g.plumbEn := rfl
@[simp] theorem Gang.putCounter_plumbSt (g : Gang) (n x : Nat) : (g.putCounter n x).plumbSt = g.plumbSt := rfl
@[simp] theorem Gang.putCounter_acr (g : Gang) (n x : Nat) : (g.putCounter n x).acr = g.acr := rfl
@[simp] theorem Gang.putCounter_mxf (g : Gang) (n x : Nat) : (g.putCounter n x).mxf = g.mxf := rfl
@[simp] theorem Gang.putCounter_tokens (g : Gang) (n x : Nat) : (g.putCounter n x).tokens = g.tokens := rfl
@[simp] theorem Gang.putCounter_posted (g : Gang) (n x : Nat) : (g.putCounter n x).posted = g.posted := rfl
@[simp] theorem Gang.putCounter_evpend (g : Gang) (n x : Nat) : (g.putCounter n x).evpend = g.evpend := rfl
@[simp] theorem Gang.putCounter_evmask (g : Gang) (n x : Nat) : (g.putCounter n x).evmask = g.evmask := rfl
@[simp] theorem Gang.putCounter_deadline (g : Gang) (n x : Nat) : (g.putCounter n x).deadline = g.deadline := rfl
@[simp] theorem Gang.putCounter_mbox (g : Gang) (n x : Nat) : (g.putCounter n x).mbox = g.mbox := rfl
@[simp] theorem Gang.putCounter_reserve (g : Gang) (n x : Nat) : (g.putCounter n x).reserve = g.reserve := rfl
@[simp] theorem Gang.putCounter_workget (g : Gang) (n x : Nat) : (g.putCounter n x).workget = g.workget := rfl
@[simp] theorem Gang.putCounter_ctxsv (g : Gang) (n x : Nat) : (g.putCounter n x).ctxsv = g.ctxsv := rfl
@[simp] theorem Gang.putCounter_inh (g : Gang) (n x : Nat) : (g.putCounter n x).inh = g.inh := rfl
@[simp] theorem Gang.putCounter_trap (g : Gang) (n x : Nat) : (g.putCounter n x).trap = g.trap := rfl
@[simp] theorem Gang.putCounter_records (g : Gang) (n x : Nat) : (g.putCounter n x).records = g.records := rfl
@[simp] theorem Gang.putCounter_block (g : Gang) (n x : Nat) : (g.putCounter n x).block = g.block := rfl
@[simp] theorem Gang.putCounter_pendTraps (g : Gang) (n x : Nat) : (g.putCounter n x).pendTraps = g.pendTraps := rfl
@[simp] theorem Gang.putCounter_fixedAllow (g : Gang) (n x : Nat) : (g.putCounter n x).fixedAllow = g.fixedAllow := rfl
@[simp] theorem Gang.putCounter_waitFrom (g : Gang) (n x : Nat) : (g.putCounter n x).waitFrom = g.waitFrom := rfl
@[simp] theorem Gang.putCounter_yielded (g : Gang) (n x : Nat) : (g.putCounter n x).yielded = g.yielded := rfl
@[simp] theorem Gang.putCounter_ended (g : Gang) (n x : Nat) : (g.putCounter n x).ended = g.ended := rfl
@[simp] theorem Gang.putCounter_stopped (g : Gang) (n x : Nat) : (g.putCounter n x).stopped = g.stopped := rfl

/-! ### Gang.putMailbox -/

@[simp] theorem Gang.putMailbox_team (g : Gang) (m : Nat) (x : Option DWord) : (g.putMailbox m x).team = g.team := rfl
@[simp] theorem Gang.putMailbox_index (g : Gang) (m : Nat) (x : Option DWord) : (g.putMailbox m x).index = g.index := rfl
@[simp] theorem Gang.putMailbox_rank (g : Gang) (m : Nat) (x : Option DWord) : (g.putMailbox m x).rank = g.rank := rfl
@[simp] theorem Gang.putMailbox_core (g : Gang) (m : Nat) (x : Option DWord) : (g.putMailbox m x).core = g.core := rfl
@[simp] theorem Gang.putMailbox_slot (g : Gang) (m : Nat) (x : Option DWord) : (g.putMailbox m x).slot = g.slot := rfl
@[simp] theorem Gang.putMailbox_alloc (g : Gang) (m : Nat) (x : Option DWord) : (g.putMailbox m x).alloc = g.alloc := rfl
@[simp] theorem Gang.putMailbox_v (g : Gang) (m : Nat) (x : Option DWord) : (g.putMailbox m x).v = g.v := rfl
@[simp] theorem Gang.putMailbox_s (g : Gang) (m : Nat) (x : Option DWord) : (g.putMailbox m x).s = g.s := rfl
@[simp] theorem Gang.putMailbox_p (g : Gang) (m : Nat) (x : Option DWord) : (g.putMailbox m x).p = g.p := rfl
@[simp] theorem Gang.putMailbox_pend (g : Gang) (m : Nat) (x : Option DWord) : (g.putMailbox m x).pend = g.pend := rfl
@[simp] theorem Gang.putMailbox_awaits (g : Gang) (m : Nat) (x : Option DWord) : (g.putMailbox m x).awaits = g.awaits := rfl
@[simp] theorem Gang.putMailbox_mr (g : Gang) (m : Nat) (x : Option DWord) : (g.putMailbox m x).mr = g.mr := rfl
@[simp] theorem Gang.putMailbox_emask (g : Gang) (m : Nat) (x : Option DWord) : (g.putMailbox m x).emask = g.emask := rfl
@[simp] theorem Gang.putMailbox_exited (g : Gang) (m : Nat) (x : Option DWord) : (g.putMailbox m x).exited = g.exited := rfl
@[simp] theorem Gang.putMailbox_groups (g : Gang) (m : Nat) (x : Option DWord) : (g.putMailbox m x).groups = g.groups := rfl
@[simp] theorem Gang.putMailbox_turn (g : Gang) (m : Nat) (x : Option DWord) : (g.putMailbox m x).turn = g.turn := rfl
@[simp] theorem Gang.putMailbox_turnIssues (g : Gang) (m : Nat) (x : Option DWord) : (g.putMailbox m x).turnIssues = g.turnIssues := rfl
@[simp] theorem Gang.putMailbox_plumbEn (g : Gang) (m : Nat) (x : Option DWord) : (g.putMailbox m x).plumbEn = g.plumbEn := rfl
@[simp] theorem Gang.putMailbox_plumbSt (g : Gang) (m : Nat) (x : Option DWord) : (g.putMailbox m x).plumbSt = g.plumbSt := rfl
@[simp] theorem Gang.putMailbox_acr (g : Gang) (m : Nat) (x : Option DWord) : (g.putMailbox m x).acr = g.acr := rfl
@[simp] theorem Gang.putMailbox_mxf (g : Gang) (m : Nat) (x : Option DWord) : (g.putMailbox m x).mxf = g.mxf := rfl
@[simp] theorem Gang.putMailbox_k (g : Gang) (m : Nat) (x : Option DWord) : (g.putMailbox m x).k = g.k := rfl
@[simp] theorem Gang.putMailbox_tokens (g : Gang) (m : Nat) (x : Option DWord) : (g.putMailbox m x).tokens = g.tokens := rfl
@[simp] theorem Gang.putMailbox_posted (g : Gang) (m : Nat) (x : Option DWord) : (g.putMailbox m x).posted = g.posted := rfl
@[simp] theorem Gang.putMailbox_evpend (g : Gang) (m : Nat) (x : Option DWord) : (g.putMailbox m x).evpend = g.evpend := rfl
@[simp] theorem Gang.putMailbox_evmask (g : Gang) (m : Nat) (x : Option DWord) : (g.putMailbox m x).evmask = g.evmask := rfl
@[simp] theorem Gang.putMailbox_deadline (g : Gang) (m : Nat) (x : Option DWord) : (g.putMailbox m x).deadline = g.deadline := rfl
@[simp] theorem Gang.putMailbox_reserve (g : Gang) (m : Nat) (x : Option DWord) : (g.putMailbox m x).reserve = g.reserve := rfl
@[simp] theorem Gang.putMailbox_workget (g : Gang) (m : Nat) (x : Option DWord) : (g.putMailbox m x).workget = g.workget := rfl
@[simp] theorem Gang.putMailbox_ctxsv (g : Gang) (m : Nat) (x : Option DWord) : (g.putMailbox m x).ctxsv = g.ctxsv := rfl
@[simp] theorem Gang.putMailbox_inh (g : Gang) (m : Nat) (x : Option DWord) : (g.putMailbox m x).inh = g.inh := rfl
@[simp] theorem Gang.putMailbox_trap (g : Gang) (m : Nat) (x : Option DWord) : (g.putMailbox m x).trap = g.trap := rfl
@[simp] theorem Gang.putMailbox_records (g : Gang) (m : Nat) (x : Option DWord) : (g.putMailbox m x).records = g.records := rfl
@[simp] theorem Gang.putMailbox_block (g : Gang) (m : Nat) (x : Option DWord) : (g.putMailbox m x).block = g.block := rfl
@[simp] theorem Gang.putMailbox_pendTraps (g : Gang) (m : Nat) (x : Option DWord) : (g.putMailbox m x).pendTraps = g.pendTraps := rfl
@[simp] theorem Gang.putMailbox_fixedAllow (g : Gang) (m : Nat) (x : Option DWord) : (g.putMailbox m x).fixedAllow = g.fixedAllow := rfl
@[simp] theorem Gang.putMailbox_waitFrom (g : Gang) (m : Nat) (x : Option DWord) : (g.putMailbox m x).waitFrom = g.waitFrom := rfl
@[simp] theorem Gang.putMailbox_yielded (g : Gang) (m : Nat) (x : Option DWord) : (g.putMailbox m x).yielded = g.yielded := rfl
@[simp] theorem Gang.putMailbox_ended (g : Gang) (m : Nat) (x : Option DWord) : (g.putMailbox m x).ended = g.ended := rfl
@[simp] theorem Gang.putMailbox_stopped (g : Gang) (m : Nat) (x : Option DWord) : (g.putMailbox m x).stopped = g.stopped := rfl

/-! ### Gang.latch -/

@[simp] theorem Gang.latch_team (g : Gang) (n : Nat) : (g.latch n).team = g.team := rfl
@[simp] theorem Gang.latch_index (g : Gang) (n : Nat) : (g.latch n).index = g.index := rfl
@[simp] theorem Gang.latch_rank (g : Gang) (n : Nat) : (g.latch n).rank = g.rank := rfl
@[simp] theorem Gang.latch_core (g : Gang) (n : Nat) : (g.latch n).core = g.core := rfl
@[simp] theorem Gang.latch_slot (g : Gang) (n : Nat) : (g.latch n).slot = g.slot := rfl
@[simp] theorem Gang.latch_alloc (g : Gang) (n : Nat) : (g.latch n).alloc = g.alloc := rfl
@[simp] theorem Gang.latch_v (g : Gang) (n : Nat) : (g.latch n).v = g.v := rfl
@[simp] theorem Gang.latch_s (g : Gang) (n : Nat) : (g.latch n).s = g.s := rfl
@[simp] theorem Gang.latch_p (g : Gang) (n : Nat) : (g.latch n).p = g.p := rfl
@[simp] theorem Gang.latch_pend (g : Gang) (n : Nat) : (g.latch n).pend = g.pend := rfl
@[simp] theorem Gang.latch_awaits (g : Gang) (n : Nat) : (g.latch n).awaits = g.awaits := rfl
@[simp] theorem Gang.latch_mr (g : Gang) (n : Nat) : (g.latch n).mr = g.mr := rfl
@[simp] theorem Gang.latch_emask (g : Gang) (n : Nat) : (g.latch n).emask = g.emask := rfl
@[simp] theorem Gang.latch_exited (g : Gang) (n : Nat) : (g.latch n).exited = g.exited := rfl
@[simp] theorem Gang.latch_groups (g : Gang) (n : Nat) : (g.latch n).groups = g.groups := rfl
@[simp] theorem Gang.latch_turn (g : Gang) (n : Nat) : (g.latch n).turn = g.turn := rfl
@[simp] theorem Gang.latch_turnIssues (g : Gang) (n : Nat) : (g.latch n).turnIssues = g.turnIssues := rfl
@[simp] theorem Gang.latch_plumbEn (g : Gang) (n : Nat) : (g.latch n).plumbEn = g.plumbEn := rfl
@[simp] theorem Gang.latch_plumbSt (g : Gang) (n : Nat) : (g.latch n).plumbSt = g.plumbSt := rfl
@[simp] theorem Gang.latch_acr (g : Gang) (n : Nat) : (g.latch n).acr = g.acr := rfl
@[simp] theorem Gang.latch_mxf (g : Gang) (n : Nat) : (g.latch n).mxf = g.mxf := rfl
@[simp] theorem Gang.latch_k (g : Gang) (n : Nat) : (g.latch n).k = g.k := rfl
@[simp] theorem Gang.latch_tokens (g : Gang) (n : Nat) : (g.latch n).tokens = g.tokens := rfl
@[simp] theorem Gang.latch_posted (g : Gang) (n : Nat) : (g.latch n).posted = g.posted := rfl
@[simp] theorem Gang.latch_evmask (g : Gang) (n : Nat) : (g.latch n).evmask = g.evmask := rfl
@[simp] theorem Gang.latch_deadline (g : Gang) (n : Nat) : (g.latch n).deadline = g.deadline := rfl
@[simp] theorem Gang.latch_mbox (g : Gang) (n : Nat) : (g.latch n).mbox = g.mbox := rfl
@[simp] theorem Gang.latch_reserve (g : Gang) (n : Nat) : (g.latch n).reserve = g.reserve := rfl
@[simp] theorem Gang.latch_workget (g : Gang) (n : Nat) : (g.latch n).workget = g.workget := rfl
@[simp] theorem Gang.latch_ctxsv (g : Gang) (n : Nat) : (g.latch n).ctxsv = g.ctxsv := rfl
@[simp] theorem Gang.latch_inh (g : Gang) (n : Nat) : (g.latch n).inh = g.inh := rfl
@[simp] theorem Gang.latch_trap (g : Gang) (n : Nat) : (g.latch n).trap = g.trap := rfl
@[simp] theorem Gang.latch_records (g : Gang) (n : Nat) : (g.latch n).records = g.records := rfl
@[simp] theorem Gang.latch_block (g : Gang) (n : Nat) : (g.latch n).block = g.block := rfl
@[simp] theorem Gang.latch_pendTraps (g : Gang) (n : Nat) : (g.latch n).pendTraps = g.pendTraps := rfl
@[simp] theorem Gang.latch_fixedAllow (g : Gang) (n : Nat) : (g.latch n).fixedAllow = g.fixedAllow := rfl
@[simp] theorem Gang.latch_waitFrom (g : Gang) (n : Nat) : (g.latch n).waitFrom = g.waitFrom := rfl
@[simp] theorem Gang.latch_yielded (g : Gang) (n : Nat) : (g.latch n).yielded = g.yielded := rfl
@[simp] theorem Gang.latch_ended (g : Gang) (n : Nat) : (g.latch n).ended = g.ended := rfl
@[simp] theorem Gang.latch_stopped (g : Gang) (n : Nat) : (g.latch n).stopped = g.stopped := rfl

/-! ### Gang.modGroup -/

@[simp] theorem Gang.modGroup_team (g : Gang) (m : SliceMask) (f : Group → Group) : (g.modGroup m f).team = g.team := rfl
@[simp] theorem Gang.modGroup_index (g : Gang) (m : SliceMask) (f : Group → Group) : (g.modGroup m f).index = g.index := rfl
@[simp] theorem Gang.modGroup_rank (g : Gang) (m : SliceMask) (f : Group → Group) : (g.modGroup m f).rank = g.rank := rfl
@[simp] theorem Gang.modGroup_core (g : Gang) (m : SliceMask) (f : Group → Group) : (g.modGroup m f).core = g.core := rfl
@[simp] theorem Gang.modGroup_slot (g : Gang) (m : SliceMask) (f : Group → Group) : (g.modGroup m f).slot = g.slot := rfl
@[simp] theorem Gang.modGroup_alloc (g : Gang) (m : SliceMask) (f : Group → Group) : (g.modGroup m f).alloc = g.alloc := rfl
@[simp] theorem Gang.modGroup_v (g : Gang) (m : SliceMask) (f : Group → Group) : (g.modGroup m f).v = g.v := rfl
@[simp] theorem Gang.modGroup_s (g : Gang) (m : SliceMask) (f : Group → Group) : (g.modGroup m f).s = g.s := rfl
@[simp] theorem Gang.modGroup_p (g : Gang) (m : SliceMask) (f : Group → Group) : (g.modGroup m f).p = g.p := rfl
@[simp] theorem Gang.modGroup_pend (g : Gang) (m : SliceMask) (f : Group → Group) : (g.modGroup m f).pend = g.pend := rfl
@[simp] theorem Gang.modGroup_awaits (g : Gang) (m : SliceMask) (f : Group → Group) : (g.modGroup m f).awaits = g.awaits := rfl
@[simp] theorem Gang.modGroup_mr (g : Gang) (m : SliceMask) (f : Group → Group) : (g.modGroup m f).mr = g.mr := rfl
@[simp] theorem Gang.modGroup_emask (g : Gang) (m : SliceMask) (f : Group → Group) : (g.modGroup m f).emask = g.emask := rfl
@[simp] theorem Gang.modGroup_exited (g : Gang) (m : SliceMask) (f : Group → Group) : (g.modGroup m f).exited = g.exited := rfl
@[simp] theorem Gang.modGroup_turn (g : Gang) (m : SliceMask) (f : Group → Group) : (g.modGroup m f).turn = g.turn := rfl
@[simp] theorem Gang.modGroup_turnIssues (g : Gang) (m : SliceMask) (f : Group → Group) : (g.modGroup m f).turnIssues = g.turnIssues := rfl
@[simp] theorem Gang.modGroup_plumbEn (g : Gang) (m : SliceMask) (f : Group → Group) : (g.modGroup m f).plumbEn = g.plumbEn := rfl
@[simp] theorem Gang.modGroup_plumbSt (g : Gang) (m : SliceMask) (f : Group → Group) : (g.modGroup m f).plumbSt = g.plumbSt := rfl
@[simp] theorem Gang.modGroup_acr (g : Gang) (m : SliceMask) (f : Group → Group) : (g.modGroup m f).acr = g.acr := rfl
@[simp] theorem Gang.modGroup_mxf (g : Gang) (m : SliceMask) (f : Group → Group) : (g.modGroup m f).mxf = g.mxf := rfl
@[simp] theorem Gang.modGroup_k (g : Gang) (m : SliceMask) (f : Group → Group) : (g.modGroup m f).k = g.k := rfl
@[simp] theorem Gang.modGroup_tokens (g : Gang) (m : SliceMask) (f : Group → Group) : (g.modGroup m f).tokens = g.tokens := rfl
@[simp] theorem Gang.modGroup_posted (g : Gang) (m : SliceMask) (f : Group → Group) : (g.modGroup m f).posted = g.posted := rfl
@[simp] theorem Gang.modGroup_evpend (g : Gang) (m : SliceMask) (f : Group → Group) : (g.modGroup m f).evpend = g.evpend := rfl
@[simp] theorem Gang.modGroup_evmask (g : Gang) (m : SliceMask) (f : Group → Group) : (g.modGroup m f).evmask = g.evmask := rfl
@[simp] theorem Gang.modGroup_deadline (g : Gang) (m : SliceMask) (f : Group → Group) : (g.modGroup m f).deadline = g.deadline := rfl
@[simp] theorem Gang.modGroup_mbox (g : Gang) (m : SliceMask) (f : Group → Group) : (g.modGroup m f).mbox = g.mbox := rfl
@[simp] theorem Gang.modGroup_reserve (g : Gang) (m : SliceMask) (f : Group → Group) : (g.modGroup m f).reserve = g.reserve := rfl
@[simp] theorem Gang.modGroup_workget (g : Gang) (m : SliceMask) (f : Group → Group) : (g.modGroup m f).workget = g.workget := rfl
@[simp] theorem Gang.modGroup_ctxsv (g : Gang) (m : SliceMask) (f : Group → Group) : (g.modGroup m f).ctxsv = g.ctxsv := rfl
@[simp] theorem Gang.modGroup_inh (g : Gang) (m : SliceMask) (f : Group → Group) : (g.modGroup m f).inh = g.inh := rfl
@[simp] theorem Gang.modGroup_trap (g : Gang) (m : SliceMask) (f : Group → Group) : (g.modGroup m f).trap = g.trap := rfl
@[simp] theorem Gang.modGroup_records (g : Gang) (m : SliceMask) (f : Group → Group) : (g.modGroup m f).records = g.records := rfl
@[simp] theorem Gang.modGroup_block (g : Gang) (m : SliceMask) (f : Group → Group) : (g.modGroup m f).block = g.block := rfl
@[simp] theorem Gang.modGroup_pendTraps (g : Gang) (m : SliceMask) (f : Group → Group) : (g.modGroup m f).pendTraps = g.pendTraps := rfl
@[simp] theorem Gang.modGroup_fixedAllow (g : Gang) (m : SliceMask) (f : Group → Group) : (g.modGroup m f).fixedAllow = g.fixedAllow := rfl
@[simp] theorem Gang.modGroup_waitFrom (g : Gang) (m : SliceMask) (f : Group → Group) : (g.modGroup m f).waitFrom = g.waitFrom := rfl
@[simp] theorem Gang.modGroup_yielded (g : Gang) (m : SliceMask) (f : Group → Group) : (g.modGroup m f).yielded = g.yielded := rfl
@[simp] theorem Gang.modGroup_ended (g : Gang) (m : SliceMask) (f : Group → Group) : (g.modGroup m f).ended = g.ended := rfl
@[simp] theorem Gang.modGroup_stopped (g : Gang) (m : SliceMask) (f : Group → Group) : (g.modGroup m f).stopped = g.stopped := rfl

/-! ### Gang.dropGroup -/

@[simp] theorem Gang.dropGroup_team (g : Gang) (m : SliceMask) : (g.dropGroup m).team = g.team := rfl
@[simp] theorem Gang.dropGroup_index (g : Gang) (m : SliceMask) : (g.dropGroup m).index = g.index := rfl
@[simp] theorem Gang.dropGroup_rank (g : Gang) (m : SliceMask) : (g.dropGroup m).rank = g.rank := rfl
@[simp] theorem Gang.dropGroup_core (g : Gang) (m : SliceMask) : (g.dropGroup m).core = g.core := rfl
@[simp] theorem Gang.dropGroup_slot (g : Gang) (m : SliceMask) : (g.dropGroup m).slot = g.slot := rfl
@[simp] theorem Gang.dropGroup_alloc (g : Gang) (m : SliceMask) : (g.dropGroup m).alloc = g.alloc := rfl
@[simp] theorem Gang.dropGroup_v (g : Gang) (m : SliceMask) : (g.dropGroup m).v = g.v := rfl
@[simp] theorem Gang.dropGroup_s (g : Gang) (m : SliceMask) : (g.dropGroup m).s = g.s := rfl
@[simp] theorem Gang.dropGroup_p (g : Gang) (m : SliceMask) : (g.dropGroup m).p = g.p := rfl
@[simp] theorem Gang.dropGroup_pend (g : Gang) (m : SliceMask) : (g.dropGroup m).pend = g.pend := rfl
@[simp] theorem Gang.dropGroup_awaits (g : Gang) (m : SliceMask) : (g.dropGroup m).awaits = g.awaits := rfl
@[simp] theorem Gang.dropGroup_mr (g : Gang) (m : SliceMask) : (g.dropGroup m).mr = g.mr := rfl
@[simp] theorem Gang.dropGroup_emask (g : Gang) (m : SliceMask) : (g.dropGroup m).emask = g.emask := rfl
@[simp] theorem Gang.dropGroup_exited (g : Gang) (m : SliceMask) : (g.dropGroup m).exited = g.exited := rfl
@[simp] theorem Gang.dropGroup_turn (g : Gang) (m : SliceMask) : (g.dropGroup m).turn = g.turn := rfl
@[simp] theorem Gang.dropGroup_turnIssues (g : Gang) (m : SliceMask) : (g.dropGroup m).turnIssues = g.turnIssues := rfl
@[simp] theorem Gang.dropGroup_plumbEn (g : Gang) (m : SliceMask) : (g.dropGroup m).plumbEn = g.plumbEn := rfl
@[simp] theorem Gang.dropGroup_plumbSt (g : Gang) (m : SliceMask) : (g.dropGroup m).plumbSt = g.plumbSt := rfl
@[simp] theorem Gang.dropGroup_acr (g : Gang) (m : SliceMask) : (g.dropGroup m).acr = g.acr := rfl
@[simp] theorem Gang.dropGroup_mxf (g : Gang) (m : SliceMask) : (g.dropGroup m).mxf = g.mxf := rfl
@[simp] theorem Gang.dropGroup_k (g : Gang) (m : SliceMask) : (g.dropGroup m).k = g.k := rfl
@[simp] theorem Gang.dropGroup_tokens (g : Gang) (m : SliceMask) : (g.dropGroup m).tokens = g.tokens := rfl
@[simp] theorem Gang.dropGroup_posted (g : Gang) (m : SliceMask) : (g.dropGroup m).posted = g.posted := rfl
@[simp] theorem Gang.dropGroup_evpend (g : Gang) (m : SliceMask) : (g.dropGroup m).evpend = g.evpend := rfl
@[simp] theorem Gang.dropGroup_evmask (g : Gang) (m : SliceMask) : (g.dropGroup m).evmask = g.evmask := rfl
@[simp] theorem Gang.dropGroup_deadline (g : Gang) (m : SliceMask) : (g.dropGroup m).deadline = g.deadline := rfl
@[simp] theorem Gang.dropGroup_mbox (g : Gang) (m : SliceMask) : (g.dropGroup m).mbox = g.mbox := rfl
@[simp] theorem Gang.dropGroup_reserve (g : Gang) (m : SliceMask) : (g.dropGroup m).reserve = g.reserve := rfl
@[simp] theorem Gang.dropGroup_workget (g : Gang) (m : SliceMask) : (g.dropGroup m).workget = g.workget := rfl
@[simp] theorem Gang.dropGroup_ctxsv (g : Gang) (m : SliceMask) : (g.dropGroup m).ctxsv = g.ctxsv := rfl
@[simp] theorem Gang.dropGroup_inh (g : Gang) (m : SliceMask) : (g.dropGroup m).inh = g.inh := rfl
@[simp] theorem Gang.dropGroup_trap (g : Gang) (m : SliceMask) : (g.dropGroup m).trap = g.trap := rfl
@[simp] theorem Gang.dropGroup_records (g : Gang) (m : SliceMask) : (g.dropGroup m).records = g.records := rfl
@[simp] theorem Gang.dropGroup_block (g : Gang) (m : SliceMask) : (g.dropGroup m).block = g.block := rfl
@[simp] theorem Gang.dropGroup_pendTraps (g : Gang) (m : SliceMask) : (g.dropGroup m).pendTraps = g.pendTraps := rfl
@[simp] theorem Gang.dropGroup_fixedAllow (g : Gang) (m : SliceMask) : (g.dropGroup m).fixedAllow = g.fixedAllow := rfl
@[simp] theorem Gang.dropGroup_waitFrom (g : Gang) (m : SliceMask) : (g.dropGroup m).waitFrom = g.waitFrom := rfl
@[simp] theorem Gang.dropGroup_yielded (g : Gang) (m : SliceMask) : (g.dropGroup m).yielded = g.yielded := rfl
@[simp] theorem Gang.dropGroup_ended (g : Gang) (m : SliceMask) : (g.dropGroup m).ended = g.ended := rfl
@[simp] theorem Gang.dropGroup_stopped (g : Gang) (m : SliceMask) : (g.dropGroup m).stopped = g.stopped := rfl

/-! ### Gang.writeFixed -/

@[simp] theorem Gang.writeFixed_team (g : Gang) (m : SliceMask) (lat : Nat) (ws : List (RegElem × Word)) : (g.writeFixed m lat ws).team = g.team := rfl
@[simp] theorem Gang.writeFixed_index (g : Gang) (m : SliceMask) (lat : Nat) (ws : List (RegElem × Word)) : (g.writeFixed m lat ws).index = g.index := rfl
@[simp] theorem Gang.writeFixed_rank (g : Gang) (m : SliceMask) (lat : Nat) (ws : List (RegElem × Word)) : (g.writeFixed m lat ws).rank = g.rank := rfl
@[simp] theorem Gang.writeFixed_core (g : Gang) (m : SliceMask) (lat : Nat) (ws : List (RegElem × Word)) : (g.writeFixed m lat ws).core = g.core := rfl
@[simp] theorem Gang.writeFixed_slot (g : Gang) (m : SliceMask) (lat : Nat) (ws : List (RegElem × Word)) : (g.writeFixed m lat ws).slot = g.slot := rfl
@[simp] theorem Gang.writeFixed_alloc (g : Gang) (m : SliceMask) (lat : Nat) (ws : List (RegElem × Word)) : (g.writeFixed m lat ws).alloc = g.alloc := rfl
@[simp] theorem Gang.writeFixed_v (g : Gang) (m : SliceMask) (lat : Nat) (ws : List (RegElem × Word)) : (g.writeFixed m lat ws).v = g.v := rfl
@[simp] theorem Gang.writeFixed_s (g : Gang) (m : SliceMask) (lat : Nat) (ws : List (RegElem × Word)) : (g.writeFixed m lat ws).s = g.s := rfl
@[simp] theorem Gang.writeFixed_p (g : Gang) (m : SliceMask) (lat : Nat) (ws : List (RegElem × Word)) : (g.writeFixed m lat ws).p = g.p := rfl
@[simp] theorem Gang.writeFixed_awaits (g : Gang) (m : SliceMask) (lat : Nat) (ws : List (RegElem × Word)) : (g.writeFixed m lat ws).awaits = g.awaits := rfl
@[simp] theorem Gang.writeFixed_mr (g : Gang) (m : SliceMask) (lat : Nat) (ws : List (RegElem × Word)) : (g.writeFixed m lat ws).mr = g.mr := rfl
@[simp] theorem Gang.writeFixed_emask (g : Gang) (m : SliceMask) (lat : Nat) (ws : List (RegElem × Word)) : (g.writeFixed m lat ws).emask = g.emask := rfl
@[simp] theorem Gang.writeFixed_exited (g : Gang) (m : SliceMask) (lat : Nat) (ws : List (RegElem × Word)) : (g.writeFixed m lat ws).exited = g.exited := rfl
@[simp] theorem Gang.writeFixed_groups (g : Gang) (m : SliceMask) (lat : Nat) (ws : List (RegElem × Word)) : (g.writeFixed m lat ws).groups = g.groups := rfl
@[simp] theorem Gang.writeFixed_turn (g : Gang) (m : SliceMask) (lat : Nat) (ws : List (RegElem × Word)) : (g.writeFixed m lat ws).turn = g.turn := rfl
@[simp] theorem Gang.writeFixed_turnIssues (g : Gang) (m : SliceMask) (lat : Nat) (ws : List (RegElem × Word)) : (g.writeFixed m lat ws).turnIssues = g.turnIssues := rfl
@[simp] theorem Gang.writeFixed_plumbEn (g : Gang) (m : SliceMask) (lat : Nat) (ws : List (RegElem × Word)) : (g.writeFixed m lat ws).plumbEn = g.plumbEn := rfl
@[simp] theorem Gang.writeFixed_plumbSt (g : Gang) (m : SliceMask) (lat : Nat) (ws : List (RegElem × Word)) : (g.writeFixed m lat ws).plumbSt = g.plumbSt := rfl
@[simp] theorem Gang.writeFixed_acr (g : Gang) (m : SliceMask) (lat : Nat) (ws : List (RegElem × Word)) : (g.writeFixed m lat ws).acr = g.acr := rfl
@[simp] theorem Gang.writeFixed_mxf (g : Gang) (m : SliceMask) (lat : Nat) (ws : List (RegElem × Word)) : (g.writeFixed m lat ws).mxf = g.mxf := rfl
@[simp] theorem Gang.writeFixed_k (g : Gang) (m : SliceMask) (lat : Nat) (ws : List (RegElem × Word)) : (g.writeFixed m lat ws).k = g.k := rfl
@[simp] theorem Gang.writeFixed_tokens (g : Gang) (m : SliceMask) (lat : Nat) (ws : List (RegElem × Word)) : (g.writeFixed m lat ws).tokens = g.tokens := rfl
@[simp] theorem Gang.writeFixed_posted (g : Gang) (m : SliceMask) (lat : Nat) (ws : List (RegElem × Word)) : (g.writeFixed m lat ws).posted = g.posted := rfl
@[simp] theorem Gang.writeFixed_evpend (g : Gang) (m : SliceMask) (lat : Nat) (ws : List (RegElem × Word)) : (g.writeFixed m lat ws).evpend = g.evpend := rfl
@[simp] theorem Gang.writeFixed_evmask (g : Gang) (m : SliceMask) (lat : Nat) (ws : List (RegElem × Word)) : (g.writeFixed m lat ws).evmask = g.evmask := rfl
@[simp] theorem Gang.writeFixed_deadline (g : Gang) (m : SliceMask) (lat : Nat) (ws : List (RegElem × Word)) : (g.writeFixed m lat ws).deadline = g.deadline := rfl
@[simp] theorem Gang.writeFixed_mbox (g : Gang) (m : SliceMask) (lat : Nat) (ws : List (RegElem × Word)) : (g.writeFixed m lat ws).mbox = g.mbox := rfl
@[simp] theorem Gang.writeFixed_reserve (g : Gang) (m : SliceMask) (lat : Nat) (ws : List (RegElem × Word)) : (g.writeFixed m lat ws).reserve = g.reserve := rfl
@[simp] theorem Gang.writeFixed_workget (g : Gang) (m : SliceMask) (lat : Nat) (ws : List (RegElem × Word)) : (g.writeFixed m lat ws).workget = g.workget := rfl
@[simp] theorem Gang.writeFixed_ctxsv (g : Gang) (m : SliceMask) (lat : Nat) (ws : List (RegElem × Word)) : (g.writeFixed m lat ws).ctxsv = g.ctxsv := rfl
@[simp] theorem Gang.writeFixed_inh (g : Gang) (m : SliceMask) (lat : Nat) (ws : List (RegElem × Word)) : (g.writeFixed m lat ws).inh = g.inh := rfl
@[simp] theorem Gang.writeFixed_trap (g : Gang) (m : SliceMask) (lat : Nat) (ws : List (RegElem × Word)) : (g.writeFixed m lat ws).trap = g.trap := rfl
@[simp] theorem Gang.writeFixed_records (g : Gang) (m : SliceMask) (lat : Nat) (ws : List (RegElem × Word)) : (g.writeFixed m lat ws).records = g.records := rfl
@[simp] theorem Gang.writeFixed_block (g : Gang) (m : SliceMask) (lat : Nat) (ws : List (RegElem × Word)) : (g.writeFixed m lat ws).block = g.block := rfl
@[simp] theorem Gang.writeFixed_pendTraps (g : Gang) (m : SliceMask) (lat : Nat) (ws : List (RegElem × Word)) : (g.writeFixed m lat ws).pendTraps = g.pendTraps := rfl
@[simp] theorem Gang.writeFixed_fixedAllow (g : Gang) (m : SliceMask) (lat : Nat) (ws : List (RegElem × Word)) : (g.writeFixed m lat ws).fixedAllow = g.fixedAllow := rfl
@[simp] theorem Gang.writeFixed_waitFrom (g : Gang) (m : SliceMask) (lat : Nat) (ws : List (RegElem × Word)) : (g.writeFixed m lat ws).waitFrom = g.waitFrom := rfl
@[simp] theorem Gang.writeFixed_yielded (g : Gang) (m : SliceMask) (lat : Nat) (ws : List (RegElem × Word)) : (g.writeFixed m lat ws).yielded = g.yielded := rfl
@[simp] theorem Gang.writeFixed_ended (g : Gang) (m : SliceMask) (lat : Nat) (ws : List (RegElem × Word)) : (g.writeFixed m lat ws).ended = g.ended := rfl
@[simp] theorem Gang.writeFixed_stopped (g : Gang) (m : SliceMask) (lat : Nat) (ws : List (RegElem × Word)) : (g.writeFixed m lat ws).stopped = g.stopped := rfl

@[simp] theorem Gang.counter_putCounter_same (g : Gang) (n x : Nat) : (g.putCounter n x).counter n = x := by
  simp [Gang.counter, Gang.putCounter]

@[simp] theorem Gang.counter_putCounter_other (g : Gang) {n m : Nat} (x : Nat) (h : m ≠ n) :
    (g.putCounter n x).counter m = g.counter m := by
  simp [Gang.counter, Gang.putCounter, h]

@[simp] theorem Gang.mailbox_putMailbox_same (g : Gang) (n x) : (g.putMailbox n x).mailbox n = x := by
  simp [Gang.mailbox, Gang.putMailbox]

@[simp] theorem Gang.mailbox_putMailbox_other (g : Gang) {n m : Nat} (x) (h : m ≠ n) :
    (g.putMailbox n x).mailbox m = g.mailbox m := by
  simp [Gang.mailbox, Gang.putMailbox, h]

@[simp] theorem Gang.mrOf_putMr_same (g : Gang) (n x) : (g.putMr n x).mrOf n = x := by
  simp [Gang.mrOf, Gang.putMr]

@[simp] theorem Gang.mrOf_putMr_other (g : Gang) {n m : Nat} (x) (h : m ≠ n) : (g.putMr n x).mrOf m = g.mrOf m := by
  simp [Gang.mrOf, Gang.putMr, h]

@[simp] theorem Core.tag_putTag_same (c : Core) (n x) : (c.putTag n x).tag n = x := by
  simp [Core.tag, Core.putTag]

@[simp] theorem Core.tag_putTag_other (c : Core) {n m : Nat} (x) (h : m ≠ n) : (c.putTag n x).tag m = c.tag m := by
  simp [Core.tag, Core.putTag, h]

end Sys2Proof.Machine
end

