-- ==== Sys2Proof/Laws/Ops.lean ====
section
/-! SUPPORT. Laws of the shared operations: how an instruction and a step of its own end, what parking, doing nothing and
taking a trap leave. A claim about an instruction cites these and unfolds none of them. -/

namespace Sys2Proof.Machine

/-! ### How a meaning ends -/

theorem Ctx.run_eq (c : Ctx) (stop : Option Stop) (t : State) :
    c.run stop t = .next (match stop with
      | some x => c.stopped x
      | none => t) := rfl

/-- A check that fails decides what happens (R62). -/
@[simp] theorem Ctx.run_some (c : Ctx) (x : Stop) (t : State) : c.run (some x) t = .next (c.stopped x) := rfl

/-- An instruction always answers a next state. -/
theorem Ctx.run_next (c : Ctx) (stop : Option Stop) (t : State) : ∃ t', c.run stop t = .next t' := ⟨_, rfl⟩

/-- A word executed while a group issues answers what its meaning does. -/
theorem withIssue_next {s : State} {c : Ctx} {f : Ctx → Host.Outcome State Fault Refusal} (h : s.issuing = some c)
    (hf : ∃ t, f c = .next t) : ∃ t, withIssue s f = .next t := by rwa [withIssue_some h]

/-- An own step takes place if its premise holds, and else changes nothing. -/
@[simp] theorem whenever_true (s t : State) : whenever true s t = .next t := rfl
@[simp] theorem whenever_false (s t : State) : whenever false s t = .next s := rfl
theorem whenever_next (p : Bool) (s t : State) : ∃ u, whenever p s t = .next u := ⟨_, rfl⟩

/-- What every effect of a step keeps, the step keeps. -/
theorem whenever_keeps {P : State → Prop} {p : Bool} {s t u : State} (h : whenever p s t = .next u) (hs : P s) (ht : P t) : P u := by
  cases p <;> cases h <;> assumption

/-- The same for an instruction: what its stop or its effect keeps. -/
theorem Ctx.run_keeps {P : State → Prop} {c : Ctx} {stop : Option Stop} {t u : State} (h : c.run stop t = .next u)
    (hs : ∀ x, stop = some x → P (c.stopped x)) (ht : P t) : P u := by
  cases stop with
  | none => cases h; exact ht
  | some x => cases h; exact hs x rfl

theorem Gives.mono {i : Instr} {s : State} {P Q : State → Prop} (h : Gives i s P) (hpq : ∀ t, P t → Q t) : Gives i s Q :=
  let ⟨t, ht, hp⟩ := h
  ⟨t, ht, hpq t hp⟩

theorem Gives.and_iff {i : Instr} {s : State} {P Q : State → Prop} :
    Gives i s (fun t => P t ∧ Q t) ↔ Gives i s P ∧ Gives i s Q := by
  constructor
  · exact fun h => ⟨h.mono fun _ x => x.1, h.mono fun _ x => x.2⟩
  · rintro ⟨⟨t, ht, hp⟩, u, hu, hq⟩
    rw [ht] at hu
    cases hu
    exact ⟨t, ht, hp, hq⟩

/-- A word that no check stops has its effect. -/
theorem gives_run {i : Instr} {s : State} {c : Ctx} {stop : Option Stop} {t : State} {P : State → Prop}
    (he : exec i s = c.run stop t) (h : stop = none) (hp : P t) : Gives i s P := ⟨t, by rw [he, h]; rfl, hp⟩

/-- An own step whose premise holds has its effect. -/
theorem gives_whenever {i : Instr} {s t : State} {p : Bool} {P : State → Prop} (he : exec i s = whenever p s t)
    (h : p = true) (hp : P t) : Gives i s P := ⟨t, by rw [he, h]; rfl, hp⟩

/-! ### Checks -/

@[simp] theorem check_true (cause : Byte) : check true cause = none := rfl
@[simp] theorem check_false (cause : Byte) : check false cause = some (.trap cause) := rfl
theorem check_none {ok : Bool} {cause : Byte} : check ok cause = none ↔ ok = true := by cases ok <;> simp

/-- Checks one after another find nothing if and only if each finds nothing. -/
theorem orElse_none {a b : Option Stop} : (a <|> b) = none ↔ a = none ∧ b = none := by cases a <;> simp

/-- What an instruction that acts once has passed when no check stops it (R62). -/
theorem Ctx.onceStop_none {c : Ctx} {fields values privileged : Bool} {a b d writes : List RegRef} :
    c.onceStop fields values privileged a b d writes = none ↔
      fields = true ∧ c.interlock (a ++ b ++ d ++ c.guardRegs ++ writes) = none ∧ values = true ∧ privileged = true ∧
        c.plumb a b d c.guardRegs = none ∧ c.readPosted (a ++ b ++ d) = none := by
  simp only [Ctx.onceStop, Ctx.onceChecks, orElse_none, check_none]
  tauto

theorem Ctx.hazard_none {c : Ctx} {a b d guard writes : List RegRef} :
    c.hazard a b d guard writes = none ↔ c.interlock (a ++ b ++ d ++ guard ++ writes) = none ∧ c.plumb a b d guard = none ∧
      c.readPosted (a ++ b ++ d ++ guard) = none := by
  simp only [Ctx.hazard, orElse_none]

/-! ### Acting once -/

@[simp] theorem Ctx.onceDo_true {c : Ctx} (h : c.once = true) (t : State) : c.onceDo t = t := by simp [Ctx.onceDo, h]
@[simp] theorem Ctx.onceDo_false {c : Ctx} (h : c.once = false) (t : State) : c.onceDo t = c.skip := by simp [Ctx.onceDo, h]

/-- Where once() is false the word has no effect (R45). -/
theorem Ctx.wrote_onceDo {c : Ctx} (h : c.once = false) (t : State) : c.wrote c.g.settled (c.onceDo t) := by
  rw [Ctx.onceDo_false h]
  exact c.wrote_skip

/-- One scalar element written at once. -/
theorem Ctx.wroteAt_writeNow (c : Ctx) (i : Nat) (v : Word) :
    c.wroteAt [(.s i, v)] (c.next c.s (c.g.writeNow [(.s i, v)])) := by
  refine Ctx.went_congr (Gang.rest_writeNow _ _) (fun e => ?_) (went_next c c.s _ (Gang.groups_writeNow _ _))
  rw [Gang.settled_writeNow]
  by_cases h : (RegElem.s i) = e
  · subst h
    simp [overwritten, RegElem.holds]
  · simp [overwritten, h]

/-! ### Parking -/

/-- Parking leaves the word unexecuted, its group waiting, and the group's results visible (R74, R312). -/
theorem Ctx.parked_park {c : Ctx} (p : Park) (hg : c.s.gang? c.id = some c.g) : c.parked p (c.park p) := by
  refine ⟨((c.g.givesTurn c.slices).commitGroup c.slices).modGroup c.slices (fun x =>
    { x with park := some p, since := c.s.next, idle := Mr.cad c.mr + 1 }), ?_, ?_, ?_, ?_⟩
  · have h : State.gang? { c.s with next := c.s.next + 1 } c.id = some c.g := hg
    simp only [Ctx.park, Ctx.parkIn, State.modGang, h]
  · simp
  · intro e
    simp
  · simp [Gang.modGroup]

/-- What a meaning sees is the gang that the state holds. -/
theorem State.issuing_gang {s : State} {c : Ctx} (h : s.issuing = some c) : s.gang? c.id = some c.g := by
  unfold State.issuing at h
  split at h
  · cases h
  · split at h
    · cases h
    · rename_i hg
      split at h
      · cases h
      · cases h
        exact hg

/-! ### Traps -/

/-- Taking a trap outside handler mode, where the partition has a handler (R412): the saved registers, the handler's address. -/
theorem State.takeTrap_handler {s : State} {id : Nat} {g : Gang} {t : TrapInfo} (hg : s.gang? id = some g) (hi : g.inh = false)
    (ht : (s.part (s.teamPart g.team)).then_ = true) :
    s.takeTrap id t = ((s.putGang id { g.commitAll with reserve := [], waitFrom := s.now }).loseReserves id).putGang id
      (Gang.enterHandler { g.commitAll with reserve := [], waitFrom := s.now } (s.part (s.teamPart g.team)).th t) := by
  simp [State.takeTrap, hg, hi, ht]

/-- Inside handler mode a trap is CONTEXT_FATAL (R414). -/
theorem State.takeTrap_inside {s : State} {id : Nat} {g : Gang} {t : TrapInfo} (hg : s.gang? id = some g) (hi : g.inh = true) :
    s.takeTrap id t = s.contextFatal id t.cause t.opc := by
  simp [State.takeTrap, hg, hi]

@[simp] theorem Gang.enterHandler_inh (g : Gang) (th : VAddr) (t : TrapInfo) : (g.enterHandler th t).inh = true := rfl
@[simp] theorem Gang.enterHandler_groups (g : Gang) (th : VAddr) (t : TrapInfo) :
    (g.enterHandler th t).groups = [{ slices := g.live, pc := th, park := none, since := 0 }] := rfl
@[simp] theorem Gang.enterHandler_cause (g : Gang) (th : VAddr) (t : TrapInfo) : (g.enterHandler th t).trap.cause = t.cause := rfl
@[simp] theorem Gang.enterHandler_tpc (g : Gang) (th : VAddr) (t : TrapInfo) : (g.enterHandler th t).trap.tpc = t.tpc := rfl
@[simp] theorem Gang.enterHandler_opc (g : Gang) (th : VAddr) (t : TrapInfo) : (g.enterHandler th t).trap.opc = t.opc := rfl

/-- The lane faults of an instruction: with none it has completed. -/
@[simp] theorem Ctx.laneTrap_nil (c : Ctx) (s : State) : c.laneTrap s [] = s := rfl

/-! ### The vault -/

/-- Taking a step through the registers of one gang alone keeps the canonical form of the vault and the power modes. -/
theorem State.vaultSound_of_eq {s t : State} (h : t.vault = s.vault) (hs : s.vaultSound) : t.vaultSound := by
  unfold State.vaultSound at *
  rwa [h]
theorem State.powerSound_of_eq {s t : State} (h : t.house = s.house) (hs : s.powerSound) : t.powerSound := by
  unfold State.powerSound at *
  rwa [h]

/-- Bytes written keep it (log 4). -/
theorem State.vaultSound_writeBytes {s : State} (a : Nat) (l : List Byte) (h : s.vaultSound) :
    State.vaultSound { s with vault := Memory.writeBytes s.vault a l } := Memory.wf_writeBytes h

/-- A request that may be performed waits for no covered write, no other lane's hold, no earlier request of its granules and
no earlier load of its gang (R199, R204, R222). -/
theorem State.reqReady_iff (s : State) (r : VaultReq) : s.reqReady r = true ↔ s.writesFirst r = false ∧ s.heldFrom r = false ∧
    (∀ w ∈ beforeReq r.id s.vreqs, s.keepsBack w r = false) ∧ s.loadsAhead r = false := by
  simp [State.reqReady, and_assoc]

/-- A word that no constrained loop may hold changes holds alone (R223). -/
theorem State.leaveLoop_eq (s : State) (id : Nat) (m : SliceMask) (pc : VAddr) :
    s.leaveLoop id m pc = { s with holds := (s.leaveLoop id m pc).holds } := rfl

/-- The vault after reset lists nothing. -/
theorem State.reset_vaultSound : State.reset.vaultSound := rfl

/-! ### The clocks of a gang and the words of a cycle -/

@[simp] theorem State.mergeRuns_vault (s : State) (agent : Nat) (runs : List (Nat × Nat)) :
    (s.mergeRuns agent runs).vault = s.vault := rfl
@[simp] theorem State.mergeRuns_vreqs (s : State) (agent : Nat) (runs : List (Nat × Nat)) :
    (s.mergeRuns agent runs).vreqs = s.vreqs := rfl
@[simp] theorem State.mergeRuns_gangs (s : State) (agent : Nat) (runs : List (Nat × Nat)) :
    (s.mergeRuns agent runs).gangs = s.gangs := rfl

/-- What the end of a presentation can do beside clearing the word at issue: a stalled gang yields its turn (R309), and an f64
word that went on holds its sub-core for a second cycle (R116). -/
theorem State.endIssue_cases (s t : State) (id : Nat) (m : SliceMask) :
    s.endIssue t id m = ({ t with cur := none } : State).modGang id Gang.yieldTurn ∨
    s.endIssue t id m = ({ t with cur := none } : State).holdIssue id ∨ s.endIssue t id m = { t with cur := none } := by
  unfold State.endIssue
  split
  · exact .inl rfl
  · split
    · exact .inr (.inl rfl)
    · exact .inr (.inr rfl)

/-- A pick that may no longer issue leaves the cycle as it is. -/
theorem State.issuePick_of_not {s : State} {p : Nat × SliceMask × Nat} (h : s.mayIssueAs p.1 p.2.1 = false) :
    s.issuePick p = s := by simp [State.issuePick, h]

/-- A part of the cycle with no word leaves the cycle as it is. -/
theorem State.issuePart_of_none {s : State} {n : Nat} {ps : List (Nat × SliceMask × Nat)} (h : ∀ p ∈ ps, p.2.2 ≠ n) :
    s.issuePart n ps = s := by
  have : ps.filter (fun p => p.2.2 == n) = [] := by simpa using h
  simp [State.issuePart, this]

end Sys2Proof.Machine
end

