-- ==== Sys2Proof/Laws/PerInstr.lean ====
section
/-! SUPPORT. Laws of the encoding: the fields of a word read back, and the word of every well-formed instruction decodes to
the instruction (R53-R56, Tables 3.1 and 3.2), one lemma for each constructor. -/

namespace Sys2Proof

theorem word_op (op d a b : BitVec 8) : (word op d a b).extractLsb' 24 8 = op := by
  apply BitVec.eq_of_getLsbD_eq
  intro i hi
  simp only [word, BitVec.getLsbD_extractLsb', BitVec.getLsbD_append]
  simp [hi, show ¬ 24 + i < 8 by omega, show ¬ 24 + i - 8 < 8 by omega, show ¬ 24 + i - 8 - 8 < 8 by omega,
    show 24 + i - 8 - 8 - 8 = i by omega]

theorem word_d (op d a b : BitVec 8) : (word op d a b).extractLsb' 16 8 = d := by
  apply BitVec.eq_of_getLsbD_eq
  intro i hi
  simp only [word, BitVec.getLsbD_extractLsb', BitVec.getLsbD_append]
  simp [hi, show ¬ 16 + i < 8 by omega, show ¬ 16 + i - 8 < 8 by omega, show 16 + i - 8 - 8 = i by omega]

theorem word_a (op d a b : BitVec 8) : (word op d a b).extractLsb' 8 8 = a := by
  apply BitVec.eq_of_getLsbD_eq
  intro i hi
  simp only [word, BitVec.getLsbD_extractLsb', BitVec.getLsbD_append]
  simp [hi, show ¬ 8 + i < 8 by omega]

theorem word_b (op d a b : BitVec 8) : (word op d a b).extractLsb' 0 8 = b := by
  apply BitVec.eq_of_getLsbD_eq
  intro i hi
  simp only [word, BitVec.getLsbD_extractLsb', BitVec.getLsbD_append]
  simp only [hi, decide_true, Nat.zero_add, Bool.true_and, if_true]

/-- The decoder reads the fields that a word is made of. -/
theorem decode_word (op d a b : BitVec 8) : decode (word op d a b) = decodeFields op d a b := by
  simp only [decode, word_op, word_d, word_a, word_b]

theorem halves (i : BitVec 16) : i.extractLsb' 8 8 ++ i.extractLsb' 0 8 = i := by
  apply BitVec.eq_of_getLsbD_eq
  intro k hk
  simp only [BitVec.getLsbD_append, BitVec.getLsbD_extractLsb']
  by_cases h : k < 8
  · simp [h]
  · simp only [h, if_false, show k - 8 < 8 by omega, decide_true, Bool.true_and, show 8 + (k - 8) = k by omega]

theorem thirds (i : BitVec 24) : i.extractLsb' 16 8 ++ i.extractLsb' 8 8 ++ i.extractLsb' 0 8 = i := by
  apply BitVec.eq_of_getLsbD_eq
  intro k hk
  simp only [BitVec.getLsbD_append, BitVec.getLsbD_extractLsb']
  by_cases h : k < 8
  · simp [h]
  · by_cases h2 : k - 8 < 8
    · simp only [h, h2, if_false, if_true, decide_true, Bool.true_and, show 8 + (k - 8) = k by omega]
    · simp only [h, h2, if_false, show k - 8 - 8 < 8 by omega, decide_true, Bool.true_and,
        show 16 + (k - 8 - 8) = k by omega]

/-- An imm16 stands in the fields a and b. -/
theorem word16_fields (op d : BitVec 8) (i : BitVec 16) :
    word16 op d i = word op d (i.extractLsb' 8 8) (i.extractLsb' 0 8) := by
  conv_lhs => rw [← halves i]
  apply BitVec.eq_of_getLsbD_eq
  intro k hk
  simp only [word16, word, BitVec.getLsbD_append]
  split_ifs <;> first | rfl | omega

/-- An imm24 stands in the fields d, a and b. -/
theorem word24_fields (op : BitVec 8) (i : BitVec 24) :
    word24 op i = word op (i.extractLsb' 16 8) (i.extractLsb' 8 8) (i.extractLsb' 0 8) := by
  conv_lhs => rw [← thirds i]
  apply BitVec.eq_of_getLsbD_eq
  intro k hk
  simp only [word24, word, BitVec.getLsbD_append]
  split_ifs <;> first | rfl | omega

theorem pred_field_lt (p : BitVec 6) : (p.setWidth 8).toNat < 64 := by
  have := p.isLt
  rw [BitVec.toNat_setWidth]
  omega

theorem pred_field_back (p : BitVec 6) : (p.setWidth 8).setWidth 6 = p := by
  apply BitVec.eq_of_toNat_eq
  have := p.isLt
  simp only [BitVec.toNat_setWidth]
  omega

theorem cond_field_back (c : BitVec 2) (p : BitVec 6) : (c ++ p).extractLsb' 6 2 = c := by
  apply BitVec.eq_of_getLsbD_eq
  intro k hk
  simp only [BitVec.getLsbD_extractLsb', BitVec.getLsbD_append]
  simp [hk]

theorem cond_pred_back (c : BitVec 2) (p : BitVec 6) : (c ++ p).setWidth 6 = p := by
  apply BitVec.eq_of_getLsbD_eq
  intro k hk
  simp only [BitVec.getLsbD_setWidth, BitVec.getLsbD_append]
  simp only [hk, decide_true, Bool.true_and, if_true]

theorem formP_field (f : BitVec 6 → Instr) (p : BitVec 6) : formP f 0 (p.setWidth 8) 0 = .ok (f p) := by
  rw [formP, if_pos ⟨rfl, rfl, pred_field_lt p⟩, pred_field_back]

theorem formPAB_field (f : BitVec 6 → BitVec 8 → BitVec 8 → Instr) (p : BitVec 6) (a b : BitVec 8) :
    formPAB f (p.setWidth 8) a b = .ok (f p a b) := by
  rw [formPAB, if_pos (pred_field_lt p), pred_field_back]

theorem formPPP_field (f : BitVec 6 → BitVec 6 → BitVec 6 → Instr) (p q r : BitVec 6) :
    formPPP f (p.setWidth 8) (q.setWidth 8) (r.setWidth 8) = .ok (f p q r) := by
  rw [formPPP, if_pos ⟨pred_field_lt p, pred_field_lt q, pred_field_lt r⟩, pred_field_back, pred_field_back, pred_field_back]

theorem formPP_field (f : BitVec 6 → BitVec 6 → Instr) (p q : BitVec 6) :
    formPP f (p.setWidth 8) (q.setWidth 8) 0 = .ok (f p q) := by
  rw [formPP, if_pos ⟨pred_field_lt p, pred_field_lt q, rfl⟩, pred_field_back, pred_field_back]

theorem formPA_field (f : BitVec 6 → BitVec 8 → Instr) (p : BitVec 6) (a : BitVec 8) :
    formPA f (p.setWidth 8) a 0 = .ok (f p a) := by
  rw [formPA, if_pos ⟨pred_field_lt p, rfl⟩, pred_field_back]

theorem formPC_field (f : BitVec 6 → BitVec 8 → Instr) (ok : BitVec 8 → Bool) (p : BitVec 6) (b : BitVec 8)
    (h : ok b = true) : formPC f ok (p.setWidth 8) 0 b = .ok (f p b) := by
  rw [formPC, if_pos ⟨pred_field_lt p, rfl, h⟩, pred_field_back]

theorem formDPC_field (f : BitVec 8 → BitVec 6 → BitVec 8 → Instr) (ok : BitVec 8 → Bool) (d : BitVec 8) (p : BitVec 6)
    (b : BitVec 8) (h : ok b = true) : formDPC f ok d (p.setWidth 8) b = .ok (f d p b) := by
  rw [formDPC, if_pos ⟨pred_field_lt p, h⟩, pred_field_back]

namespace Laws

/-- The word of a well-formed instruction decodes to it. A step that no word names has no word. -/
def Encoding.Statement (i : Instr) : Prop := i.wellFormed = true → ∀ w, encode i = some w → decode w = .ok i

theorem Encoding.nop : Encoding.Statement (.nop) := by
  intro _ w h
  cases h
  rw [decode_word]
  rfl

theorem Encoding.mode payload : Encoding.Statement (.mode payload) := by
  intro _ w h
  cases h
  rw [word24_fields, decode_word]
  exact congrArg (fun i => Except.ok (Instr.mode i)) (thirds payload)

theorem Encoding.braAny i : Encoding.Statement (.braAny i) := by
  intro _ w h
  cases h
  rw [word24_fields, decode_word]
  exact congrArg (fun i => Except.ok (Instr.braAny i)) (thirds i)

theorem Encoding.braAll i : Encoding.Statement (.braAll i) := by
  intro _ w h
  cases h
  rw [word24_fields, decode_word]
  exact congrArg (fun i => Except.ok (Instr.braAll i)) (thirds i)

theorem Encoding.braz i : Encoding.Statement (.braz i) := by
  intro _ w h
  cases h
  rw [word24_fields, decode_word]
  exact congrArg (fun i => Except.ok (Instr.braz i)) (thirds i)

theorem Encoding.brx a : Encoding.Statement (.brx a) := by
  intro _ w h
  cases h
  rw [decode_word]
  rfl

theorem Encoding.call i : Encoding.Statement (.call i) := by
  intro _ w h
  cases h
  rw [word24_fields, decode_word]
  exact congrArg (fun i => Except.ok (Instr.call i)) (thirds i)

theorem Encoding.ret : Encoding.Statement (.ret) := by
  intro _ w h
  cases h
  rw [decode_word]
  rfl

theorem Encoding.exit : Encoding.Statement (.exit) := by
  intro _ w h
  cases h
  rw [decode_word]
  rfl

theorem Encoding.regang a : Encoding.Statement (.regang a) := by
  intro _ w h
  cases h
  rw [decode_word]
  rfl

theorem Encoding.yield : Encoding.Statement (.yield) := by
  intro _ w h
  cases h
  rw [decode_word]
  rfl

theorem Encoding.mand a : Encoding.Statement (.mand a) := by
  intro _ w h
  cases h
  rw [decode_word]
  exact formP_field _ _

theorem Encoding.mrestore a : Encoding.Statement (.mrestore a) := by
  intro _ w h
  cases h
  rw [decode_word]
  rfl

theorem Encoding.msave d : Encoding.Statement (.msave d) := by
  intro _ w h
  cases h
  rw [decode_word]
  rfl

theorem Encoding.mandn a : Encoding.Statement (.mandn a) := by
  intro _ w h
  cases h
  rw [decode_word]
  exact formP_field _ _

theorem Encoding.brk imm : Encoding.Statement (.brk imm) := by
  intro _ w h
  cases h
  rw [word16_fields, decode_word]
  exact congrArg (fun i => Except.ok (Instr.brk i)) (halves imm)

theorem Encoding.add d a b : Encoding.Statement (.add d a b) := by
  intro _ w h
  cases h
  rw [decode_word]
  rfl

theorem Encoding.sub d a b : Encoding.Statement (.sub d a b) := by
  intro _ w h
  cases h
  rw [decode_word]
  rfl

theorem Encoding.mul d a b : Encoding.Statement (.mul d a b) := by
  intro _ w h
  cases h
  rw [decode_word]
  rfl

theorem Encoding.mulh d a b : Encoding.Statement (.mulh d a b) := by
  intro _ w h
  cases h
  rw [decode_word]
  rfl

theorem Encoding.mad d a b : Encoding.Statement (.mad d a b) := by
  intro _ w h
  cases h
  rw [decode_word]
  rfl

theorem Encoding.absd d a b : Encoding.Statement (.absd d a b) := by
  intro _ w h
  cases h
  rw [decode_word]
  rfl

theorem Encoding.min d a b : Encoding.Statement (.min d a b) := by
  intro _ w h
  cases h
  rw [decode_word]
  rfl

theorem Encoding.max d a b : Encoding.Statement (.max d a b) := by
  intro _ w h
  cases h
  rw [decode_word]
  rfl

theorem Encoding.and d a b : Encoding.Statement (.and d a b) := by
  intro _ w h
  cases h
  rw [decode_word]
  rfl

theorem Encoding.or d a b : Encoding.Statement (.or d a b) := by
  intro _ w h
  cases h
  rw [decode_word]
  rfl

theorem Encoding.xor d a b : Encoding.Statement (.xor d a b) := by
  intro _ w h
  cases h
  rw [decode_word]
  rfl

theorem Encoding.andn d a b : Encoding.Statement (.andn d a b) := by
  intro _ w h
  cases h
  rw [decode_word]
  rfl

theorem Encoding.shl d a b : Encoding.Statement (.shl d a b) := by
  intro _ w h
  cases h
  rw [decode_word]
  rfl

theorem Encoding.shr d a b : Encoding.Statement (.shr d a b) := by
  intro _ w h
  cases h
  rw [decode_word]
  rfl

theorem Encoding.sar d a b : Encoding.Statement (.sar d a b) := by
  intro _ w h
  cases h
  rw [decode_word]
  rfl

theorem Encoding.rotl d a b : Encoding.Statement (.rotl d a b) := by
  intro _ w h
  cases h
  rw [decode_word]
  rfl

theorem Encoding.addi d a imm : Encoding.Statement (.addi d a imm) := by
  intro _ w h
  cases h
  rw [decode_word]
  rfl

theorem Encoding.shli d a imm : Encoding.Statement (.shli d a imm) := by
  intro _ w h
  cases h
  rw [decode_word]
  rfl

theorem Encoding.shri d a imm : Encoding.Statement (.shri d a imm) := by
  intro _ w h
  cases h
  rw [decode_word]
  rfl

theorem Encoding.sari d a imm : Encoding.Statement (.sari d a imm) := by
  intro _ w h
  cases h
  rw [decode_word]
  rfl

theorem Encoding.andi d a imm : Encoding.Statement (.andi d a imm) := by
  intro _ w h
  cases h
  rw [decode_word]
  rfl

theorem Encoding.ori d a imm : Encoding.Statement (.ori d a imm) := by
  intro _ w h
  cases h
  rw [decode_word]
  rfl

theorem Encoding.li d imm : Encoding.Statement (.li d imm) := by
  intro _ w h
  cases h
  rw [word16_fields, decode_word]
  exact congrArg (fun i => Except.ok (Instr.li d i)) (halves imm)

theorem Encoding.lih d imm : Encoding.Statement (.lih d imm) := by
  intro _ w h
  cases h
  rw [word16_fields, decode_word]
  exact congrArg (fun i => Except.ok (Instr.lih d i)) (halves imm)

theorem Encoding.clz d a : Encoding.Statement (.clz d a) := by
  intro _ w h
  cases h
  rw [decode_word]
  rfl

theorem Encoding.popc d a : Encoding.Statement (.popc d a) := by
  intro _ w h
  cases h
  rw [decode_word]
  rfl

theorem Encoding.brev d a : Encoding.Statement (.brev d a) := by
  intro _ w h
  cases h
  rw [decode_word]
  rfl

theorem Encoding.bfe d a b : Encoding.Statement (.bfe d a b) := by
  intro _ w h
  cases h
  rw [decode_word]
  rfl

theorem Encoding.bfi d a b : Encoding.Statement (.bfi d a b) := by
  intro _ w h
  cases h
  rw [decode_word]
  rfl

theorem Encoding.mov d a : Encoding.Statement (.mov d a) := by
  intro _ w h
  cases h
  rw [decode_word]
  rfl

theorem Encoding.neg d a : Encoding.Statement (.neg d a) := by
  intro _ w h
  cases h
  rw [decode_word]
  rfl

theorem Encoding.abs d a : Encoding.Statement (.abs d a) := by
  intro _ w h
  cases h
  rw [decode_word]
  rfl

theorem Encoding.cmpEq d a b : Encoding.Statement (.cmpEq d a b) := by
  intro _ w h
  cases h
  rw [decode_word]
  exact formPAB_field _ _ _ _

theorem Encoding.cmpNe d a b : Encoding.Statement (.cmpNe d a b) := by
  intro _ w h
  cases h
  rw [decode_word]
  exact formPAB_field _ _ _ _

theorem Encoding.cmpLt d a b : Encoding.Statement (.cmpLt d a b) := by
  intro _ w h
  cases h
  rw [decode_word]
  exact formPAB_field _ _ _ _

theorem Encoding.cmpLe d a b : Encoding.Statement (.cmpLe d a b) := by
  intro _ w h
  cases h
  rw [decode_word]
  exact formPAB_field _ _ _ _

theorem Encoding.cmpGt d a b : Encoding.Statement (.cmpGt d a b) := by
  intro _ w h
  cases h
  rw [decode_word]
  exact formPAB_field _ _ _ _

theorem Encoding.cmpGe d a b : Encoding.Statement (.cmpGe d a b) := by
  intro _ w h
  cases h
  rw [decode_word]
  exact formPAB_field _ _ _ _

theorem Encoding.cmpUn d a b : Encoding.Statement (.cmpUn d a b) := by
  intro _ w h
  cases h
  rw [decode_word]
  exact formPAB_field _ _ _ _

theorem Encoding.cmpi cond d a imm : Encoding.Statement (.cmpi cond d a imm) := by
  intro _ w h
  cases h
  rw [decode_word]
  simp [decodeFields, decodeRow3, cond_field_back, cond_pred_back]

theorem Encoding.pand d a b : Encoding.Statement (.pand d a b) := by
  intro _ w h
  cases h
  rw [decode_word]
  exact formPPP_field _ _ _ _

theorem Encoding.por d a b : Encoding.Statement (.por d a b) := by
  intro _ w h
  cases h
  rw [decode_word]
  exact formPPP_field _ _ _ _

theorem Encoding.pxor d a b : Encoding.Statement (.pxor d a b) := by
  intro _ w h
  cases h
  rw [decode_word]
  exact formPPP_field _ _ _ _

theorem Encoding.pnot d a : Encoding.Statement (.pnot d a) := by
  intro _ w h
  cases h
  rw [decode_word]
  exact formPP_field _ _ _

theorem Encoding.pmov d a : Encoding.Statement (.pmov d a) := by
  intro _ w h
  cases h
  rw [decode_word]
  exact formPP_field _ _ _

theorem Encoding.pset d code : Encoding.Statement (.pset d code) := by
  intro hw w h
  cases h
  rw [decode_word]
  exact formPC_field _ _ _ _ hw

theorem Encoding.vote d a code : Encoding.Statement (.vote d a code) := by
  intro hw w h
  cases h
  rw [decode_word]
  exact formDPC_field _ _ _ _ _ hw

theorem Encoding.pfrom d a : Encoding.Statement (.pfrom d a) := by
  intro _ w h
  cases h
  rw [decode_word]
  exact formPA_field _ _ _

theorem Encoding.fadd d a b : Encoding.Statement (.fadd d a b) := by
  intro _ w h
  cases h
  rw [decode_word]
  rfl

theorem Encoding.fsub d a b : Encoding.Statement (.fsub d a b) := by
  intro _ w h
  cases h
  rw [decode_word]
  rfl

theorem Encoding.fmul d a b : Encoding.Statement (.fmul d a b) := by
  intro _ w h
  cases h
  rw [decode_word]
  rfl

theorem Encoding.fma d a b : Encoding.Statement (.fma d a b) := by
  intro _ w h
  cases h
  rw [decode_word]
  rfl

theorem Encoding.fms d a b : Encoding.Statement (.fms d a b) := by
  intro _ w h
  cases h
  rw [decode_word]
  rfl

theorem Encoding.fmin d a b : Encoding.Statement (.fmin d a b) := by
  intro _ w h
  cases h
  rw [decode_word]
  rfl

theorem Encoding.fmax d a b : Encoding.Statement (.fmax d a b) := by
  intro _ w h
  cases h
  rw [decode_word]
  rfl

theorem Encoding.fminnm d a b : Encoding.Statement (.fminnm d a b) := by
  intro _ w h
  cases h
  rw [decode_word]
  rfl

theorem Encoding.fmaxnm d a b : Encoding.Statement (.fmaxnm d a b) := by
  intro _ w h
  cases h
  rw [decode_word]
  rfl

theorem Encoding.fabs d a : Encoding.Statement (.fabs d a) := by
  intro _ w h
  cases h
  rw [decode_word]
  rfl

theorem Encoding.fneg d a : Encoding.Statement (.fneg d a) := by
  intro _ w h
  cases h
  rw [decode_word]
  rfl

theorem Encoding.frcp d a : Encoding.Statement (.frcp d a) := by
  intro _ w h
  cases h
  rw [decode_word]
  rfl

theorem Encoding.frsq d a : Encoding.Statement (.frsq d a) := by
  intro _ w h
  cases h
  rw [decode_word]
  rfl

theorem Encoding.fsqrt d a : Encoding.Statement (.fsqrt d a) := by
  intro _ w h
  cases h
  rw [decode_word]
  rfl

theorem Encoding.fdiv d a b : Encoding.Statement (.fdiv d a b) := by
  intro _ w h
  cases h
  rw [decode_word]
  rfl

theorem Encoding.fexp2 d a : Encoding.Statement (.fexp2 d a) := by
  intro _ w h
  cases h
  rw [decode_word]
  rfl

theorem Encoding.flog2 d a : Encoding.Statement (.flog2 d a) := by
  intro _ w h
  cases h
  rw [decode_word]
  rfl

theorem Encoding.fsin d a : Encoding.Statement (.fsin d a) := by
  intro _ w h
  cases h
  rw [decode_word]
  rfl

theorem Encoding.fcos d a : Encoding.Statement (.fcos d a) := by
  intro _ w h
  cases h
  rw [decode_word]
  rfl

theorem Encoding.fscale d a b : Encoding.Statement (.fscale d a b) := by
  intro _ w h
  cases h
  rw [decode_word]
  rfl

theorem Encoding.frnd d a : Encoding.Statement (.frnd d a) := by
  intro _ w h
  cases h
  rw [decode_word]
  rfl

theorem Encoding.fclass d a : Encoding.Statement (.fclass d a) := by
  intro _ w h
  cases h
  rw [decode_word]
  rfl

theorem Encoding.ftanh d a : Encoding.Statement (.ftanh d a) := by
  intro _ w h
  cases h
  rw [decode_word]
  rfl

theorem Encoding.fsigm d a : Encoding.Statement (.fsigm d a) := by
  intro _ w h
  cases h
  rw [decode_word]
  rfl

theorem Encoding.cvt d a code : Encoding.Statement (.cvt d a code) := by
  intro hw w h
  cases h
  rw [decode_word]
  exact if_pos (by simpa [Instr.wellFormed] using hw)

theorem Encoding.cvtb d a b : Encoding.Statement (.cvtb d a b) := by
  intro _ w h
  cases h
  rw [decode_word]
  rfl

theorem Encoding.pack d a b : Encoding.Statement (.pack d a b) := by
  intro _ w h
  cases h
  rw [decode_word]
  rfl

theorem Encoding.unpack d a code : Encoding.Statement (.unpack d a code) := by
  intro hw w h
  cases h
  rw [decode_word]
  exact if_pos (by simpa [Instr.wellFormed] using hw)

theorem Encoding.dot2 d a b : Encoding.Statement (.dot2 d a b) := by
  intro _ w h
  cases h
  rw [decode_word]
  rfl

theorem Encoding.dot4 d a b : Encoding.Statement (.dot4 d a b) := by
  intro _ w h
  cases h
  rw [decode_word]
  rfl

theorem Encoding.fcmpx d a b : Encoding.Statement (.fcmpx d a b) := by
  intro _ w h
  cases h
  rw [decode_word]
  rfl

theorem Encoding.perm d a b : Encoding.Statement (.perm d a b) := by
  intro _ w h
  cases h
  rw [decode_word]
  rfl

theorem Encoding.shflXor d a b : Encoding.Statement (.shflXor d a b) := by
  intro _ w h
  cases h
  rw [decode_word]
  rfl

theorem Encoding.shflUp d a b : Encoding.Statement (.shflUp d a b) := by
  intro _ w h
  cases h
  rw [decode_word]
  rfl

theorem Encoding.shflDown d a b : Encoding.Statement (.shflDown d a b) := by
  intro _ w h
  cases h
  rw [decode_word]
  rfl

theorem Encoding.gred d a code : Encoding.Statement (.gred d a code) := by
  intro hw w h
  cases h
  rw [decode_word]
  exact if_pos (by simpa [Instr.wellFormed] using hw)

theorem Encoding.gscan d a code : Encoding.Statement (.gscan d a code) := by
  intro hw w h
  cases h
  rw [decode_word]
  exact if_pos (by simpa [Instr.wellFormed] using hw)

theorem Encoding.bcast d a b : Encoding.Statement (.bcast d a b) := by
  intro _ w h
  cases h
  rw [decode_word]
  rfl

theorem Encoding.ld d a imm : Encoding.Statement (.ld d a imm) := by
  intro _ w h
  cases h
  rw [decode_word]
  rfl

theorem Encoding.st d a imm : Encoding.Statement (.st d a imm) := by
  intro _ w h
  cases h
  rw [decode_word]
  rfl

theorem Encoding.ldv d a b : Encoding.Statement (.ldv d a b) := by
  intro _ w h
  cases h
  rw [decode_word]
  rfl

theorem Encoding.stv d a b : Encoding.Statement (.stv d a b) := by
  intro _ w h
  cases h
  rw [decode_word]
  rfl

theorem Encoding.lr d a b : Encoding.Statement (.lr d a b) := by
  intro _ w h
  cases h
  rw [decode_word]
  rfl

theorem Encoding.sc d a b : Encoding.Statement (.sc d a b) := by
  intro _ w h
  cases h
  rw [decode_word]
  rfl

theorem Encoding.atomAdd d a b : Encoding.Statement (.atomAdd d a b) := by
  intro _ w h
  cases h
  rw [decode_word]
  rfl

theorem Encoding.atomMin d a b : Encoding.Statement (.atomMin d a b) := by
  intro _ w h
  cases h
  rw [decode_word]
  rfl

theorem Encoding.atomMax d a b : Encoding.Statement (.atomMax d a b) := by
  intro _ w h
  cases h
  rw [decode_word]
  rfl

theorem Encoding.atomAnd d a b : Encoding.Statement (.atomAnd d a b) := by
  intro _ w h
  cases h
  rw [decode_word]
  rfl

theorem Encoding.atomOr d a b : Encoding.Statement (.atomOr d a b) := by
  intro _ w h
  cases h
  rw [decode_word]
  rfl

theorem Encoding.atomXor d a b : Encoding.Statement (.atomXor d a b) := by
  intro _ w h
  cases h
  rw [decode_word]
  rfl

theorem Encoding.atomExch d a b : Encoding.Statement (.atomExch d a b) := by
  intro _ w h
  cases h
  rw [decode_word]
  rfl

theorem Encoding.atomCas d a b : Encoding.Statement (.atomCas d a b) := by
  intro _ w h
  cases h
  rw [decode_word]
  rfl

theorem Encoding.atomFadd d a b : Encoding.Statement (.atomFadd d a b) := by
  intro _ w h
  cases h
  rw [decode_word]
  rfl

theorem Encoding.fence code : Encoding.Statement (.fence code) := by
  intro hw w h
  cases h
  rw [decode_word]
  exact if_pos (by simpa [Instr.wellFormed] using hw)

theorem Encoding.ldt d a b : Encoding.Statement (.ldt d a b) := by
  intro _ w h
  cases h
  rw [decode_word]
  rfl

theorem Encoding.tagset d a b : Encoding.Statement (.tagset d a b) := by
  intro _ w h
  cases h
  rw [decode_word]
  rfl

theorem Encoding.taginv a : Encoding.Statement (.taginv a) := by
  intro _ w h
  cases h
  rw [decode_word]
  rfl

theorem Encoding.ldvs d a b : Encoding.Statement (.ldvs d a b) := by
  intro _ w h
  cases h
  rw [decode_word]
  rfl

theorem Encoding.stvs d a b : Encoding.Statement (.stvs d a b) := by
  intro _ w h
  cases h
  rw [decode_word]
  rfl

theorem Encoding.ldp d a b : Encoding.Statement (.ldp d a b) := by
  intro _ w h
  cases h
  rw [decode_word]
  rfl

theorem Encoding.stp d a b : Encoding.Statement (.stp d a b) := by
  intro _ w h
  cases h
  rw [decode_word]
  rfl

theorem Encoding.fget a t : Encoding.Statement (.fget a t) := by
  intro _ w h
  cases h
  rw [decode_word]
  rfl

theorem Encoding.fput a t : Encoding.Statement (.fput a t) := by
  intro _ w h
  cases h
  rw [decode_word]
  rfl

theorem Encoding.fcopy a t : Encoding.Statement (.fcopy a t) := by
  intro _ w h
  cases h
  rw [decode_word]
  rfl

theorem Encoding.fred a t : Encoding.Statement (.fred a t) := by
  intro _ w h
  cases h
  rw [decode_word]
  rfl

theorem Encoding.ffill a t : Encoding.Statement (.ffill a t) := by
  intro _ w h
  cases h
  rw [decode_word]
  rfl

theorem Encoding.fwalk a t : Encoding.Statement (.fwalk a t) := by
  intro _ w h
  cases h
  rw [decode_word]
  rfl

theorem Encoding.frule a t : Encoding.Statement (.frule a t) := by
  intro _ w h
  cases h
  rw [decode_word]
  rfl

theorem Encoding.fmcast a t : Encoding.Statement (.fmcast a t) := by
  intro _ w h
  cases h
  rw [decode_word]
  rfl

theorem Encoding.mcrecv a t : Encoding.Statement (.mcrecv a t) := by
  intro _ w h
  cases h
  rw [decode_word]
  rfl

theorem Encoding.tagwaitAny a : Encoding.Statement (.tagwaitAny a) := by
  intro _ w h
  cases h
  rw [decode_word]
  rfl

theorem Encoding.tagwaitAll a : Encoding.Statement (.tagwaitAll a) := by
  intro _ w h
  cases h
  rw [decode_word]
  rfl

theorem Encoding.tagff d a : Encoding.Statement (.tagff d a) := by
  intro _ w h
  cases h
  rw [decode_word]
  rfl

theorem Encoding.tagrel a : Encoding.Statement (.tagrel a) := by
  intro _ w h
  cases h
  rw [decode_word]
  rfl

theorem Encoding.chunkt d a b : Encoding.Statement (.chunkt d a b) := by
  intro _ w h
  cases h
  rw [decode_word]
  rfl

theorem Encoding.winset a b : Encoding.Statement (.winset a b) := by
  intro _ w h
  cases h
  rw [decode_word]
  rfl

theorem Encoding.fstat d a code : Encoding.Statement (.fstat d a code) := by
  intro hw w h
  cases h
  rw [decode_word]
  exact if_pos (by simpa [Instr.wellFormed] using hw)

theorem Encoding.rld d a b : Encoding.Statement (.rld d a b) := by
  intro _ w h
  cases h
  rw [decode_word]
  rfl

theorem Encoding.rst d a b : Encoding.Statement (.rst d a b) := by
  intro _ w h
  cases h
  rw [decode_word]
  rfl

theorem Encoding.ratomAdd d a b : Encoding.Statement (.ratomAdd d a b) := by
  intro _ w h
  cases h
  rw [decode_word]
  rfl

theorem Encoding.ratomCas d a b : Encoding.Statement (.ratomCas d a b) := by
  intro _ w h
  cases h
  rw [decode_word]
  rfl

theorem Encoding.ratomFadd d a b : Encoding.Statement (.ratomFadd d a b) := by
  intro _ w h
  cases h
  rw [decode_word]
  rfl

theorem Encoding.rfence code : Encoding.Statement (.rfence code) := by
  intro hw w h
  cases h
  rw [decode_word]
  exact if_pos (by simpa [Instr.wellFormed] using hw)

theorem Encoding.coll a t : Encoding.Statement (.coll a t) := by
  intro _ w h
  cases h
  rw [decode_word]
  rfl

theorem Encoding.collq d a : Encoding.Statement (.collq d a) := by
  intro _ w h
  cases h
  rw [decode_word]
  rfl

theorem Encoding.qsend a t : Encoding.Statement (.qsend a t) := by
  intro _ w h
  cases h
  rw [decode_word]
  rfl

theorem Encoding.qstat d a : Encoding.Statement (.qstat d a) := by
  intro _ w h
  cases h
  rw [decode_word]
  rfl

theorem Encoding.cslot d : Encoding.Statement (.cslot d) := by
  intro _ w h
  cases h
  rw [decode_word]
  rfl

theorem Encoding.mclaim a : Encoding.Statement (.mclaim a) := by
  intro _ w h
  cases h
  rw [decode_word]
  rfl

theorem Encoding.mrel a : Encoding.Statement (.mrel a) := by
  intro _ w h
  cases h
  rw [decode_word]
  rfl

theorem Encoding.mload d a b : Encoding.Statement (.mload d a b) := by
  intro _ w h
  cases h
  rw [decode_word]
  rfl

theorem Encoding.mma a k : Encoding.Statement (.mma a k) := by
  intro _ w h
  cases h
  rw [decode_word]
  rfl

theorem Encoding.mmag a k : Encoding.Statement (.mmag a k) := by
  intro _ w h
  cases h
  rw [decode_word]
  rfl

theorem Encoding.mzero a : Encoding.Statement (.mzero a) := by
  intro _ w h
  cases h
  rw [decode_word]
  rfl

theorem Encoding.mrd d a b : Encoding.Statement (.mrd d a b) := by
  intro _ w h
  cases h
  rw [decode_word]
  rfl

theorem Encoding.mwr d a b : Encoding.Statement (.mwr d a b) := by
  intro _ w h
  cases h
  rw [decode_word]
  rfl

theorem Encoding.mrowscl d a code : Encoding.Statement (.mrowscl d a code) := by
  intro hw w h
  cases h
  rw [decode_word]
  exact if_pos (by simpa [Instr.wellFormed] using hw)

theorem Encoding.mcvt d a code : Encoding.Statement (.mcvt d a code) := by
  intro hw w h
  cases h
  rw [decode_word]
  exact if_pos (by simpa [Instr.wellFormed] using hw)

theorem Encoding.mdrain d a code : Encoding.Statement (.mdrain d a code) := by
  intro hw w h
  cases h
  rw [decode_word]
  exact if_pos (by simpa [Instr.wellFormed] using hw)

theorem Encoding.mfill d a b : Encoding.Statement (.mfill d a b) := by
  intro _ w h
  cases h
  rw [decode_word]
  rfl

theorem Encoding.mstat d a : Encoding.Statement (.mstat d a) := by
  intro _ w h
  cases h
  rw [decode_word]
  rfl

theorem Encoding.mrowred d a code : Encoding.Statement (.mrowred d a code) := by
  intro hw w h
  cases h
  rw [decode_word]
  exact if_pos (by simpa [Instr.wellFormed] using hw)

theorem Encoding.barinit n a b : Encoding.Statement (.barinit n a b) := by
  intro _ w h
  cases h
  rw [decode_word]
  rfl

theorem Encoding.bararr n a : Encoding.Statement (.bararr n a) := by
  intro _ w h
  cases h
  rw [decode_word]
  rfl

theorem Encoding.barwait n a : Encoding.Statement (.barwait n a) := by
  intro _ w h
  cases h
  rw [decode_word]
  rfl

theorem Encoding.bartest d n : Encoding.Statement (.bartest d n) := by
  intro _ w h
  cases h
  rw [decode_word]
  rfl

theorem Encoding.barbytes n a : Encoding.Statement (.barbytes n a) := by
  intro _ w h
  cases h
  rw [decode_word]
  rfl

theorem Encoding.wany d a n : Encoding.Statement (.wany d a n) := by
  intro _ w h
  cases h
  rw [decode_word]
  rfl

theorem Encoding.evmask a : Encoding.Statement (.evmask a) := by
  intro _ w h
  cases h
  rw [decode_word]
  rfl

theorem Encoding.evclr a : Encoding.Statement (.evclr a) := by
  intro _ w h
  cases h
  rw [decode_word]
  rfl

theorem Encoding.evget d : Encoding.Statement (.evget d) := by
  intro _ w h
  cases h
  rw [decode_word]
  rfl

theorem Encoding.mbsend n a b : Encoding.Statement (.mbsend n a b) := by
  intro _ w h
  cases h
  rw [decode_word]
  rfl

theorem Encoding.mbrecv d n : Encoding.Statement (.mbrecv d n) := by
  intro _ w h
  cases h
  rw [decode_word]
  rfl

theorem Encoding.kinc n : Encoding.Statement (.kinc n) := by
  intro _ w h
  cases h
  rw [decode_word]
  rfl

theorem Encoding.kwaitle n a : Encoding.Statement (.kwaitle n a) := by
  intro _ w h
  cases h
  rw [decode_word]
  rfl

theorem Encoding.krd d n : Encoding.Statement (.krd d n) := by
  intro _ w h
  cases h
  rw [decode_word]
  rfl

theorem Encoding.deadl a : Encoding.Statement (.deadl a) := by
  intro _ w h
  cases h
  rw [decode_word]
  rfl

theorem Encoding.workget a : Encoding.Statement (.workget a) := by
  intro _ w h
  cases h
  rw [decode_word]
  rfl

theorem Encoding.launch a : Encoding.Statement (.launch a) := by
  intro _ w h
  cases h
  rw [decode_word]
  rfl

theorem Encoding.cancel a code : Encoding.Statement (.cancel a code) := by
  intro hw w h
  cases h
  rw [decode_word]
  exact if_pos (by simpa [Instr.wellFormed] using hw)

theorem Encoding.cntrd d a code : Encoding.Statement (.cntrd d a code) := by
  intro hw w h
  cases h
  rw [decode_word]
  exact if_pos (by simpa [Instr.wellFormed] using hw)

theorem Encoding.sysrd d addr : Encoding.Statement (.sysrd d addr) := by
  intro _ w h
  cases h
  rw [word16_fields, decode_word]
  exact congrArg (fun i => Except.ok (Instr.sysrd d i)) (halves addr)

theorem Encoding.syswr d addr : Encoding.Statement (.syswr d addr) := by
  intro _ w h
  cases h
  rw [word16_fields, decode_word]
  exact congrArg (fun i => Except.ok (Instr.syswr d i)) (halves addr)

theorem Encoding.trap imm : Encoding.Statement (.trap imm) := by
  intro _ w h
  cases h
  rw [word16_fields, decode_word]
  exact congrArg (fun i => Except.ok (Instr.trap i)) (halves imm)

theorem Encoding.tret : Encoding.Statement (.tret) := by
  intro _ w h
  cases h
  rw [decode_word]
  rfl

theorem Encoding.tsave a : Encoding.Statement (.tsave a) := by
  intro _ w h
  cases h
  rw [decode_word]
  rfl

theorem Encoding.tload a : Encoding.Statement (.tload a) := by
  intro _ w h
  cases h
  rw [decode_word]
  rfl

theorem Encoding.acrrd d : Encoding.Statement (.acrrd d) := by
  intro _ w h
  cases h
  rw [decode_word]
  rfl

theorem Encoding.acrwr a : Encoding.Statement (.acrwr a) := by
  intro _ w h
  cases h
  rw [decode_word]
  rfl

theorem Encoding.halt : Encoding.Statement (.halt) := by
  intro _ w h
  cases h
  rw [decode_word]
  rfl

theorem Encoding.ctxsv a : Encoding.Statement (.ctxsv a) := by
  intro _ w h
  cases h
  rw [decode_word]
  rfl

theorem Encoding.tlbinv a : Encoding.Statement (.tlbinv a) := by
  intro _ w h
  cases h
  rw [decode_word]
  rfl

theorem Encoding.illegalOpcode x0 : Encoding.Statement (.illegalOpcode x0) := by
  intro _ w h
  cases h

theorem Encoding.fetchFault : Encoding.Statement (.fetchFault) := by
  intro _ w h
  cases h

theorem Encoding.groupTurnSwitch x0 x1 : Encoding.Statement (.groupTurnSwitch x0 x1) := by
  intro _ w h
  cases h

theorem Encoding.vaultWriteApply x0 : Encoding.Statement (.vaultWriteApply x0) := by
  intro _ w h
  cases h

theorem Encoding.vaultReadReply x0 : Encoding.Statement (.vaultReadReply x0) := by
  intro _ w h
  cases h

theorem Encoding.lrHoldExpiry x0 : Encoding.Statement (.lrHoldExpiry x0) := by
  intro _ w h
  cases h

theorem Encoding.engineOpComplete x0 : Encoding.Statement (.engineOpComplete x0) := by
  intro _ w h
  cases h

theorem Encoding.mclaimGrant x0 : Encoding.Statement (.mclaimGrant x0) := by
  intro _ w h
  cases h

theorem Encoding.mrelRelease x0 : Encoding.Statement (.mrelRelease x0) := by
  intro _ w h
  cases h

theorem Encoding.followOnMmaAccept x0 : Encoding.Statement (.followOnMmaAccept x0) := by
  intro _ w h
  cases h

theorem Encoding.chunkLand x0 x1 : Encoding.Statement (.chunkLand x0 x1) := by
  intro _ w h
  cases h

theorem Encoding.farRequestEnd x0 : Encoding.Statement (.farRequestEnd x0) := by
  intro _ w h
  cases h

theorem Encoding.lintelAdmit x0 : Encoding.Statement (.lintelAdmit x0) := by
  intro _ w h
  cases h

theorem Encoding.moduleRequestArrival x0 x1 x2 : Encoding.Statement (.moduleRequestArrival x0 x1 x2) := by
  intro _ w h
  cases h

theorem Encoding.forcedSelfRefresh x0 : Encoding.Statement (.forcedSelfRefresh x0) := by
  intro _ w h
  cases h

theorem Encoding.selfRefreshExit x0 : Encoding.Statement (.selfRefreshExit x0) := by
  intro _ w h
  cases h

theorem Encoding.cairnReadReturn x0 x1 : Encoding.Statement (.cairnReadReturn x0 x1) := by
  intro _ w h
  cases h

theorem Encoding.corbelSlotFilled x0 x1 : Encoding.Statement (.corbelSlotFilled x0 x1) := by
  intro _ w h
  cases h

theorem Encoding.rldReply x0 : Encoding.Statement (.rldReply x0) := by
  intro _ w h
  cases h

theorem Encoding.rstAck x0 : Encoding.Statement (.rstAck x0) := by
  intro _ w h
  cases h

theorem Encoding.ratomResponse x0 : Encoding.Statement (.ratomResponse x0) := by
  intro _ w h
  cases h

theorem Encoding.remoteOpArrival x0 : Encoding.Statement (.remoteOpArrival x0) := by
  intro _ w h
  cases h

theorem Encoding.collMessageArrival x0 : Encoding.Statement (.collMessageArrival x0) := by
  intro _ w h
  cases h

theorem Encoding.qsendDataArrival x0 : Encoding.Statement (.qsendDataArrival x0) := by
  intro _ w h
  cases h

theorem Encoding.qsendCompletionReport x0 x1 : Encoding.Statement (.qsendCompletionReport x0 x1) := by
  intro _ w h
  cases h

theorem Encoding.lqWrWrite x0 x1 x2 : Encoding.Statement (.lqWrWrite x0 x1 x2) := by
  intro _ w h
  cases h

theorem Encoding.launchPacketRead x0 x1 : Encoding.Statement (.launchPacketRead x0 x1) := by
  intro _ w h
  cases h

theorem Encoding.teamPlace x0 : Encoding.Statement (.teamPlace x0) := by
  intro _ w h
  cases h

theorem Encoding.launchBlocking x0 x1 : Encoding.Statement (.launchBlocking x0 x1) := by
  intro _ w h
  cases h

theorem Encoding.launchComplete x0 : Encoding.Statement (.launchComplete x0) := by
  intro _ w h
  cases h

theorem Encoding.gangSlotRelease x0 : Encoding.Statement (.gangSlotRelease x0) := by
  intro _ w h
  cases h

theorem Encoding.cancelStop x0 : Encoding.Statement (.cancelStop x0) := by
  intro _ w h
  cases h

theorem Encoding.workgetReply x0 : Encoding.Statement (.workgetReply x0) := by
  intro _ w h
  cases h

theorem Encoding.preemptRequest x0 x1 x2 x3 : Encoding.Statement (.preemptRequest x0 x1 x2 x3) := by
  intro _ w h
  cases h

theorem Encoding.hwPreemptTrigger x0 x1 : Encoding.Statement (.hwPreemptTrigger x0 x1) := by
  intro _ w h
  cases h

theorem Encoding.preemptNoticeExpiry x0 : Encoding.Statement (.preemptNoticeExpiry x0) := by
  intro _ w h
  cases h

theorem Encoding.contextSave x0 : Encoding.Statement (.contextSave x0) := by
  intro _ w h
  cases h

theorem Encoding.savedTeamArrival x0 x1 : Encoding.Statement (.savedTeamArrival x0 x1) := by
  intro _ w h
  cases h

theorem Encoding.regangDeadlock x0 : Encoding.Statement (.regangDeadlock x0) := by
  intro _ w h
  cases h

theorem Encoding.deadlineExpiry x0 : Encoding.Statement (.deadlineExpiry x0) := by
  intro _ w h
  cases h

theorem Encoding.trapEntry x0 : Encoding.Statement (.trapEntry x0) := by
  intro _ w h
  cases h

theorem Encoding.hctlResume x0 : Encoding.Statement (.hctlResume x0) := by
  intro _ w h
  cases h

theorem Encoding.hctlDiscard x0 : Encoding.Statement (.hctlDiscard x0) := by
  intro _ w h
  cases h

theorem Encoding.singleBitError x0 : Encoding.Statement (.singleBitError x0) := by
  intro _ w h
  cases h

theorem Encoding.uncorrectableError x0 x1 : Encoding.Statement (.uncorrectableError x0 x1) := by
  intro _ w h
  cases h

theorem Encoding.scrub : Encoding.Statement (.scrub) := by
  intro _ w h
  cases h

theorem Encoding.slotMarker x0 : Encoding.Statement (.slotMarker x0) := by
  intro _ w h
  cases h

theorem Encoding.guardEnd : Encoding.Statement (.guardEnd) := by
  intro _ w h
  cases h

theorem Encoding.slotWindowClose x0 : Encoding.Statement (.slotWindowClose x0) := by
  intro _ w h
  cases h

theorem Encoding.circtlWrite x0 x1 x2 : Encoding.Statement (.circtlWrite x0 x1 x2) := by
  intro _ w h
  cases h

theorem Encoding.slotSetup x0 x1 : Encoding.Statement (.slotSetup x0 x1) := by
  intro _ w h
  cases h

theorem Encoding.slotTdown x0 x1 : Encoding.Statement (.slotTdown x0 x1) := by
  intro _ w h
  cases h

theorem Encoding.portSetup x0 : Encoding.Statement (.portSetup x0) := by
  intro _ w h
  cases h

theorem Encoding.portTdown x0 : Encoding.Statement (.portTdown x0) := by
  intro _ w h
  cases h

theorem Encoding.setup x0 x1 x2 x3 : Encoding.Statement (.setup x0 x1 x2 x3) := by
  intro _ w h
  cases h

theorem Encoding.ack x0 x1 x2 : Encoding.Statement (.ack x0 x1 x2) := by
  intro _ w h
  cases h

theorem Encoding.nak x0 x1 : Encoding.Statement (.nak x0 x1) := by
  intro _ w h
  cases h

theorem Encoding.teardown x0 : Encoding.Statement (.teardown x0) := by
  intro _ w h
  cases h

theorem Encoding.setupTimeout x0 : Encoding.Statement (.setupTimeout x0) := by
  intro _ w h
  cases h

theorem Encoding.setupRetry x0 : Encoding.Statement (.setupRetry x0) := by
  intro _ w h
  cases h

theorem Encoding.flitSend x0 : Encoding.Statement (.flitSend x0) := by
  intro _ w h
  cases h

theorem Encoding.dataFlitReceive x0 x1 : Encoding.Statement (.dataFlitReceive x0 x1) := by
  intro _ w h
  cases h

theorem Encoding.nakFlitReceive x0 x1 : Encoding.Statement (.nakFlitReceive x0 x1) := by
  intro _ w h
  cases h

theorem Encoding.widthChangeFlit x0 x1 : Encoding.Statement (.widthChangeFlit x0 x1) := by
  intro _ w h
  cases h

theorem Encoding.remapFlit x0 x1 : Encoding.Statement (.remapFlit x0 x1) := by
  intro _ w h
  cases h

theorem Encoding.ackTimeout x0 : Encoding.Statement (.ackTimeout x0) := by
  intro _ w h
  cases h

theorem Encoding.clockRecoveryLoss x0 : Encoding.Statement (.clockRecoveryLoss x0) := by
  intro _ w h
  cases h

theorem Encoding.retrainComplete x0 x1 : Encoding.Statement (.retrainComplete x0 x1) := by
  intro _ w h
  cases h

theorem Encoding.monitorSample x0 : Encoding.Statement (.monitorSample x0) := by
  intro _ w h
  cases h

theorem Encoding.laserLineLoss x0 x1 : Encoding.Statement (.laserLineLoss x0 x1) := by
  intro _ w h
  cases h

theorem Encoding.channelWakeComplete x0 x1 : Encoding.Statement (.channelWakeComplete x0 x1) := by
  intro _ w h
  cases h

theorem Encoding.channelParkComplete x0 : Encoding.Statement (.channelParkComplete x0) := by
  intro _ w h
  cases h

theorem Encoding.linkTgtwWrite x0 x1 x2 x3 : Encoding.Statement (.linkTgtwWrite x0 x1 x2 x3) := by
  intro _ w h
  cases h

theorem Encoding.linkRetrain x0 x1 x2 : Encoding.Statement (.linkRetrain x0 x1 x2) := by
  intro _ w h
  cases h

theorem Encoding.chanParkWrite x0 x1 x2 x3 : Encoding.Statement (.chanParkWrite x0 x1 x2 x3) := by
  intro _ w h
  cases h

theorem Encoding.pairFabreqWrite x0 x1 x2 x3 : Encoding.Statement (.pairFabreqWrite x0 x1 x2 x3) := by
  intro _ w h
  cases h

theorem Encoding.planSpare x0 x1 x2 : Encoding.Statement (.planSpare x0 x1 x2) := by
  intro _ w h
  cases h

theorem Encoding.planRelease x0 x1 : Encoding.Statement (.planRelease x0 x1) := by
  intro _ w h
  cases h

theorem Encoding.planRetrain x0 x1 : Encoding.Statement (.planRetrain x0 x1) := by
  intro _ w h
  cases h

theorem Encoding.planShare x0 x1 : Encoding.Statement (.planShare x0 x1) := by
  intro _ w h
  cases h

theorem Encoding.planUnshare x0 x1 x2 : Encoding.Statement (.planUnshare x0 x1 x2) := by
  intro _ w h
  cases h

theorem Encoding.laserSample x0 x1 x2 x3 : Encoding.Statement (.laserSample x0 x1 x2 x3) := by
  intro _ w h
  cases h

theorem Encoding.ageingCounterSave x0 x1 : Encoding.Statement (.ageingCounterSave x0 x1) := by
  intro _ w h
  cases h

theorem Encoding.partitionResourceWrite x0 x1 x2 : Encoding.Statement (.partitionResourceWrite x0 x1 x2) := by
  intro _ w h
  cases h

theorem Encoding.shootdown x0 x1 : Encoding.Statement (.shootdown x0 x1) := by
  intro _ w h
  cases h

theorem Encoding.shootdownComplete x0 : Encoding.Statement (.shootdownComplete x0) := by
  intro _ w h
  cases h

theorem Encoding.flushed x0 x1 x2 x3 : Encoding.Statement (.flushed x0 x1 x2 x3) := by
  intro _ w h
  cases h

theorem Encoding.faultQueueAck x0 x1 : Encoding.Statement (.faultQueueAck x0 x1) := by
  intro _ w h
  cases h

theorem Encoding.moduleAttest x0 : Encoding.Statement (.moduleAttest x0) := by
  intro _ w h
  cases h

theorem Encoding.attestReportReceive x0 x1 x2 : Encoding.Statement (.attestReportReceive x0 x1 x2) := by
  intro _ w h
  cases h

theorem Encoding.moduleControllerRestart x0 : Encoding.Statement (.moduleControllerRestart x0) := by
  intro _ w h
  cases h

theorem Encoding.attestReportRequest x0 : Encoding.Statement (.attestReportRequest x0) := by
  intro _ w h
  cases h

theorem Encoding.attestReportWritten x0 : Encoding.Statement (.attestReportWritten x0) := by
  intro _ w h
  cases h

theorem Encoding.hostBar2Access x0 x1 x2 x3 : Encoding.Statement (.hostBar2Access x0 x1 x2 x3) := by
  intro _ w h
  cases h

theorem Encoding.powerOnReset x0 : Encoding.Statement (.powerOnReset x0) := by
  intro _ w h
  cases h

theorem Encoding.linkPhaseTimeout : Encoding.Statement (.linkPhaseTimeout) := by
  intro _ w h
  cases h

theorem Encoding.pcieTrained : Encoding.Statement (.pcieTrained) := by
  intro _ w h
  cases h

theorem Encoding.meshPortUp x0 : Encoding.Statement (.meshPortUp x0) := by
  intro _ w h
  cases h

theorem Encoding.opticalLightPoll x0 : Encoding.Statement (.opticalLightPoll x0) := by
  intro _ w h
  cases h

theorem Encoding.channelTrainTimeout x0 : Encoding.Statement (.channelTrainTimeout x0) := by
  intro _ w h
  cases h

theorem Encoding.powerStateRequest x0 : Encoding.Statement (.powerStateRequest x0) := by
  intro _ w h
  cases h

theorem Encoding.thermalSample x0 x1 : Encoding.Statement (.thermalSample x0 x1) := by
  intro _ w h
  cases h

theorem Encoding.registerWrite x0 x1 x2 x3 : Encoding.Statement (.registerWrite x0 x1 x2 x3) := by
  intro _ w h
  cases h

theorem Encoding.controlMeshPortDown x0 : Encoding.Statement (.controlMeshPortDown x0) := by
  intro _ w h
  cases h

theorem Encoding.windowTableLoad x0 x1 : Encoding.Statement (.windowTableLoad x0 x1) := by
  intro _ w h
  cases h

theorem Encoding.clockRampComplete : Encoding.Statement (.clockRampComplete) := by
  intro _ w h
  cases h

theorem Encoding.spareRingLock x0 x1 : Encoding.Statement (.spareRingLock x0 x1) := by
  intro _ w h
  cases h

theorem Encoding.channelTrainingComplete x0 : Encoding.Statement (.channelTrainingComplete x0) := by
  intro _ w h
  cases h

end Laws

end Sys2Proof
end

