-- ==== Sys2Proof/Laws/Sums.lean ====
section
/-! SUPPORT. Results of many terms against exact numbers: sums, dot products, block sums, trees, scans, block conversion
(R93, R110-R112, R141, R154-R157, R175-R178). -/

namespace Sys2Proof.Machine

/-! ### Sums of many terms -/

/-- The sign of an exact zero sum. -/
def zeroSign (z : Bool) (l : List Val) : Bool := (l.map Val.neg).all id || (z && (l.map Val.neg).any id)

/-- o is the exact sum of the terms l, none of them a NaN; none where infinities of both signs meet. -/
def Total (z : Bool) (l : List Val) (o : Option Val) : Prop :=
  (∀ v ∈ l, v.isNan = false) ∧ (.inf true ∈ l → .inf false ∈ l → o = none) ∧
  (∀ n, .inf n ∈ l → .inf (!n) ∉ l → o = some (.inf n)) ∧
  ((∀ v ∈ l, v.finite) → ∃ v, o = some v ∧ v.finite ∧ v.rat = (l.map Val.rat).sum ∧ (v.rat = 0 → v.neg = zeroSign z l))

theorem Total.perm {z : Bool} {l l' : List Val} {o : Option Val} (h : Total z l o) (p : l.Perm l') : Total z l' o := by
  have m : ∀ v, v ∈ l' ↔ v ∈ l := fun v => (p.mem_iff).symm
  have q : zeroSign z l' = zeroSign z l := by
    unfold zeroSign
    rw [Bool.eq_iff_iff]
    simp [m]
  unfold Total at *
  simp only [m, q, ← (p.map Val.rat).sum_eq]
  exact h

theorem Val.add_comm (z : Bool) (a b : Val) : Val.add z a b = Val.add z b a := by
  rcases a with ⟨n, m, e⟩ | n | s <;> rcases b with ⟨n', m', e'⟩ | n' | s' <;> try rfl
  · unfold Val.add
    simp only [and_comm, min_comm e e', Int.add_comm]
    split
    · cases n <;> cases n' <;> rfl
    · rfl
  · cases n <;> cases n' <;> rfl

theorem Val.rat_nonpos {v : Val} (h : v.neg = true) : v.rat ≤ 0 := by
  by_contra h0
  have := Val.rat_neg (v := v) (by linarith)
  rw [h] at this
  have := of_decide_eq_true this.symm
  linarith

theorem Val.rat_nonneg {v : Val} (h : v.neg = false) : 0 ≤ v.rat := by
  by_contra h0
  have := Val.rat_neg (v := v) (by linarith)
  rw [h] at this
  have := of_decide_eq_false this.symm
  linarith

theorem sum_nonpos {l : List ℚ} (h : ∀ x ∈ l, x ≤ 0) : l.sum ≤ 0 := by
  induction l with
  | nil => simp
  | cons a l ih =>
    rw [List.sum_cons]
    have := h a (by simp)
    have := ih (fun x hx => h x (by simp [hx]))
    linarith

theorem Val.mixed {l : List Val} {n : Bool} (h : (l.map Val.rat).sum ≠ 0) (hn : decide ((l.map Val.rat).sum < 0) = n) :
    ∃ v ∈ l, v.neg = n := by
  by_contra hc
  push Not at hc
  cases n
  · have : (l.map Val.rat).sum ≤ 0 := sum_nonpos (by
      intro x hx
      obtain ⟨v, hv, rfl⟩ := List.mem_map.1 hx
      exact Val.rat_nonpos (by simpa using hc v hv))
    rw [decide_eq_false_iff_not] at hn
    exact h (le_antisymm this (not_lt.1 hn))
  · have : 0 ≤ (l.map Val.rat).sum := List.sum_nonneg (by
      intro x hx
      obtain ⟨v, hv, rfl⟩ := List.mem_map.1 hx
      exact Val.rat_nonneg (by simpa using hc v hv))
    rw [decide_eq_true_eq] at hn
    linarith

theorem zeroSign_cons (z : Bool) {l : List Val} (hl : l ≠ []) (b : Val) :
    zeroSign z (b :: l) = (zeroSign z l && b.neg || z && (zeroSign z l || b.neg)) := by
  obtain ⟨x, l, rfl⟩ := List.exists_cons_of_ne_nil hl
  simp only [zeroSign, List.map_cons, List.all_cons, List.any_cons, id]
  generalize (l.map Val.neg).any id = p
  generalize (l.map Val.neg).all id = q
  cases x.neg <;> cases b.neg <;> cases z <;> cases p <;> cases q <;> rfl

theorem Total.cons {z : Bool} {l : List Val} (hl : l ≠ []) {w b : Val} (h : Total z l (some w)) (hb : b.isNan = false) :
    Total z (b :: l) (Val.add z w b) := by
  obtain ⟨h1, h2, h3, h4⟩ := h
  have nb : ¬ (.inf true ∈ l ∧ .inf false ∈ l) := fun h => by simpa using h2 h.1 h.2
  have fin : (∀ n, .inf n ∉ l) → ∀ v ∈ l, v.finite := fun h v hv => by
    rcases v with ⟨n, m, e⟩ | n | s
    · exact Val.finite_num _ _ _
    · exact absurd hv (h n)
    · exact absurd (h1 _ hv) (by simp)
  by_cases hi : ∃ n, Val.inf n ∈ l
  · obtain ⟨n, hn⟩ := hi
    have hn' : Val.inf (!n) ∉ l := fun h => nb (by cases n <;> simp_all)
    obtain rfl : w = .inf n := by simpa using h3 n hn hn'
    have nf : ¬ ∀ v ∈ b :: l, v.finite := fun h => by simpa [Val.finite] using h _ (List.mem_cons_of_mem _ hn)
    refine ⟨by simpa [hb] using h1, fun t f => ?_, fun k hk hk' => ?_, fun h => absurd h nf⟩
    · rcases b with ⟨n', m', e'⟩ | n' | s'
      · simp at t f; exact absurd ⟨t, f⟩ nb
      · have : n' = !n := by
          simp at t f
          cases n <;> cases n' <;> simp_all
        subst this
        cases n <;> rfl
      · simp at hb
    · have : k = n := by
        by_contra hne
        have : n = !k := by cases n <;> cases k <;> simp_all
        exact hk' (List.mem_cons_of_mem _ (this ▸ hn))
      subst this
      rcases b with ⟨n', m', e'⟩ | n' | s'
      · rfl
      · have : n' = k := by
          by_contra hne
          have : n' = !k := by cases n' <;> cases k <;> simp_all
          exact hk' (by simp [this])
        subst this
        simp [Val.add]
      · simp at hb
  · push Not at hi
    obtain ⟨v, hv, vf, vr, vs⟩ := h4 (fin hi)
    obtain rfl : w = v := by simpa using hv
    refine ⟨by simpa [hb] using h1, fun t f => ?_, fun k hk hk' => ?_, fun h => ?_⟩
    · simp [hi] at t f; rw [← f] at t; simp at t
    · simp [hi] at hk
      subst hk
      rcases w with ⟨n, m, e⟩ | n | s
      · rfl
      · simp [Val.finite] at vf
      · simp [Val.finite] at vf
    · obtain ⟨u, hu, uf, ur, us⟩ := Val.add_num (z := z) vf (h b (List.mem_cons_self ..))
      refine ⟨u, hu, uf, by rw [ur, vr, List.map_cons, List.sum_cons, Rat.add_comm], fun h0 => ?_⟩
      rw [us h0, zeroSign_cons z hl]
      by_cases w0 : w.rat = 0
      · rw [vs w0]
      · have b0 : b.rat ≠ 0 := fun h => w0 (by rw [ur, h, add_zero] at h0; exact h0)
        have nn : w.neg = !b.neg := by
          rw [Val.rat_neg w0, Val.rat_neg b0, ← decide_not, decide_eq_decide]
          rw [ur] at h0
          constructor
          · intro; linarith
          · intro h2; rcases lt_or_gt_of_ne b0 with h3 | h3
            · exact absurd h3 h2
            · linarith
        obtain ⟨x, hx, hxn⟩ := Val.mixed (l := l) (n := w.neg) (by rw [← vr]; exact w0) (by rw [← vr]; exact (Val.rat_neg w0).symm)
        have : ((l.map Val.neg).all id = true → w.neg = true) ∧ (w.neg = true → (l.map Val.neg).any id = true) := by
          constructor
          · intro h; rw [← hxn]; simpa using (List.all_eq_true.1 h) _ (List.mem_map_of_mem hx)
          · intro h; exact List.any_eq_true.2 ⟨_, List.mem_map_of_mem hx, by simp [hxn, h]⟩
        unfold zeroSign
        revert this
        generalize (l.map Val.neg).any id = p
        generalize (l.map Val.neg).all id = q
        rw [nn]
        cases b.neg <;> cases z <;> cases p <;> cases q <;> simp

theorem Total.none {z : Bool} {l : List Val} {b : Val} (h : Total z l none) (hb : b.isNan = false) :
    Total z (b :: l) none := by
  obtain ⟨h1, h2, h3, h4⟩ := h
  have i1 : Val.inf true ∈ l ∧ Val.inf false ∈ l := by
    by_cases t : Val.inf true ∈ l
    · by_cases f : Val.inf false ∈ l
      · exact ⟨t, f⟩
      · simpa using h3 true t f
    · by_cases f : Val.inf false ∈ l
      · simpa using h3 false f t
      · obtain ⟨v, hv, -⟩ := h4 (fun v hv => by
          rcases v with ⟨n, m, e⟩ | n | s
          · exact Val.finite_num _ _ _
          · cases n <;> simp_all
          · exact absurd (h1 _ hv) (by simp))
        simp at hv
  refine ⟨by simpa [hb] using h1, fun _ _ => rfl, fun n _ hn => ?_, fun h => ?_⟩
  · exact absurd (List.mem_cons_of_mem _ (by cases n <;> simp [i1])) hn
  · simpa [Val.finite] using h _ (List.mem_cons_of_mem _ i1.1)

theorem Total.finite {z : Bool} {l : List Val} {v : Val} (h : ∀ u ∈ l, u.finite) (vf : v.finite)
    (vr : v.rat = (l.map Val.rat).sum) (vs : v.rat = 0 → v.neg = zeroSign z l) : Total z l (some v) :=
  ⟨fun u hu => (h u hu).1, fun hi => by have := (h _ hi).2; simp at this, fun n hi => by have := (h _ hi).2; simp at this,
    fun _ => ⟨v, rfl, vf, vr, vs⟩⟩

theorem Total.single (z : Bool) {v : Val} (h : v.isNan = false) : Total z [v] (some v) := by
  refine ⟨by simpa using h, ?_, ?_, ?_⟩
  · intro a b; simp at a b; rw [← b] at a; simp at a
  · intro n a _; simp at a; rw [a]
  · intro hf; exact ⟨v, rfl, hf v (by simp), by simp, fun _ => by simp [zeroSign]⟩


/-- The exact sum, delivered. -/
theorem Fmt.sums_total {f : Fmt} (he : 1 ≤ f.eb) (hi : f.inf = true) (r : RndEnv) {l : List Val} {o : Option Val}
    (h : Total (r.rnd == .rdn) l o) :
    f.Sums r l [] (o.elim f.invalid (f.deliver r)) := by
  obtain ⟨h1, h2, h3, h4⟩ := h
  have n1 : l.any Val.isNan = false := by rw [List.any_eq_false]; intro v hv; simp [h1 v hv]
  have infs : ∀ n, n ∈ (l.filter Val.isInf).map Val.neg ↔ .inf n ∈ l := fun n => by
    rw [List.mem_map]
    constructor
    · rintro ⟨v, hv, rfl⟩
      rw [List.mem_filter] at hv
      rcases v with ⟨n, m, e⟩ | n | s
      · simp at hv
      · exact hv.1
      · simp at hv
    · intro h; exact ⟨.inf n, by simp [h], rfl⟩
  by_cases hb : Val.inf true ∈ l ∧ Val.inf false ∈ l
  · rw [h2 hb.1 hb.2]
    simp [Fmt.Sums, n1, infs, hb, Fmt.invalid]
  · by_cases hs : ∃ n, Val.inf n ∈ l
    · obtain ⟨n, hn⟩ := hs
      have hn' : Val.inf (!n) ∉ l := fun h => hb (by cases n <;> simp_all)
      rw [h3 n hn hn']
      have ne : (l.filter Val.isInf).map Val.neg ≠ [] := fun h => by simpa [h] using (infs n).2 hn
      have hd : ((l.filter Val.isInf).map Val.neg).headD false = n := by
        obtain ⟨a, t, ht⟩ := List.exists_cons_of_ne_nil ne
        have := (infs a).1 (by rw [ht]; simp)
        rw [ht]
        by_contra hc
        exact hn' (by convert this; cases n <;> cases a <;> simp_all)
      have hb' : ¬ (true ∈ (l.filter Val.isInf).map Val.neg ∧ false ∈ (l.filter Val.isInf).map Val.neg) := by
        rw [infs, infs]; exact hb
      simp only [Fmt.Sums, List.flatMap_nil, List.append_nil, n1, List.any_nil, Bool.or_self, Bool.false_eq_true, if_false,
        List.map_nil, List.filter_nil, if_neg hb', if_pos ne, hd]
      simp [Fmt.deliver, hi]
    · push Not at hs
      have fin : ∀ v ∈ l, v.finite := fun v hv => by
        rcases v with ⟨n, m, e⟩ | n | s
        · exact Val.finite_num _ _ _
        · exact absurd hv (hs n)
        · exact absurd (h1 _ hv) (by simp)
      obtain ⟨v, rfl, vf, vr, vs⟩ := h4 fin
      refine Fmt.sums_finite fin (by simp) ?_
      have := (f.deliver_delivers he r vf).zero (fun h => vs h)
      rw [vr] at this
      simpa [zeroSign] using this

/-- Products that are none of them NaN are terms of their sum. -/
theorem Fmt.sums_products {f : Fmt} {r : RndEnv} {ds ts : List Val} {ps : List (Val × Val)} {res : Nat × Flags}
    (h : ps.map (fun p => Val.mul p.1 p.2) = ts.map some) : f.Sums r ds ps res ↔ f.Sums r (ds ++ ts) [] res := by
  have one : ∀ a b v, Val.mul a b = some v → a.isNan = false ∧ b.isNan = false ∧ a.isSnan = false ∧ b.isSnan = false ∧
      v.isNan = false ∧ v.isSnan = false ∧ (a.isInf && b.isZero || a.isZero && b.isInf) = false ∧ v.isInf = (a.isInf || b.isInf) ∧
      v.neg = (a.neg != b.neg) ∧ v.rat = a.rat * b.rat := by
    intro a b v hv
    rcases a with ⟨n, m, e⟩ | n | s <;> rcases b with ⟨n', m', e'⟩ | n' | s'
    · obtain ⟨u, hu, uf, ur, us⟩ := Val.mul_num (Val.finite_num n m e) (Val.finite_num n' m' e')
      obtain rfl : u = v := by simpa [hu] using hv
      obtain ⟨n2, m2, e2⟩ | _ | _ := u
      · exact ⟨rfl, rfl, rfl, rfl, rfl, rfl, by simp, rfl, us, ur⟩
      · simp [Val.finite] at uf
      · simp [Val.finite] at uf
    all_goals (try rcases m with _ | m) <;> (try rcases m' with _ | m') <;> simp [Val.mul] at hv
    all_goals subst hv; simp [Val.rat]
  have all : (ps.flatMap (fun p => [p.1, p.2])).any Val.isNan = false ∧ (ps.flatMap (fun p => [p.1, p.2])).any Val.isSnan = false ∧
      ts.any Val.isNan = false ∧ ts.any Val.isSnan = false ∧
      ps.any (fun p => p.1.isInf && p.2.isZero || p.1.isZero && p.2.isInf) = false ∧
      (ts.filter Val.isInf).map Val.neg = (ps.filter (fun p => p.1.isInf || p.2.isInf)).map (fun p => p.1.neg != p.2.neg) ∧
      ts.map Val.neg = ps.map (fun p => p.1.neg != p.2.neg) ∧ ts.map Val.rat = ps.map (fun p => p.1.rat * p.2.rat) := by
    induction ps generalizing ts with
    | nil =>
      obtain rfl : ts = [] := by simpa using h.symm
      simp
    | cons p ps ih =>
      rcases ts with _ | ⟨t, ts⟩
      · simp at h
      · simp only [List.map_cons, List.cons.injEq] at h
        obtain ⟨a1, a2, a3, a4, a5, a6, a7, a8, a9, a10⟩ := one _ _ _ h.1
        obtain ⟨b1, b2, b3, b4, b5, b6, b7, b8⟩ := ih h.2
        simp only [List.flatMap_cons, List.cons_append, List.nil_append, List.any_cons, List.map_cons, List.filter_cons, a1, a2, a3,
          a4, a5, a6, a7, a8, a9, a10, b1, b2, b3, b4, b5, b7, b8, Bool.or_self, true_and]
        split <;> simp [b6, a9]
  obtain ⟨b1, b2, b3, b4, b5, b6, b7, b8⟩ := all
  simp only [Fmt.Sums, List.any_append, List.flatMap_nil, List.append_nil, b1, b2, b3, b4, b5, List.any_nil, Bool.or_false,
    List.filter_append, List.map_append, List.map_nil, List.filter_nil, List.sum_append, List.sum_nil, add_zero, b6, b7, b8]

/-! ### The operations of several terms -/

/-- A product that is invalid: a NaN factor, or 0 · ∞. -/
theorem Val.mul_isNone (a b : Val) : (Val.mul a b).isNone =
    (a.isNan || b.isNan || (a.isInf && b.isZero || a.isZero && b.isInf)) := by
  rcases a with ⟨n, m, e⟩ | n | s <;> rcases b with ⟨n', m', e'⟩ | n' | s' <;> simp [Val.mul] <;>
    (try rcases m with _ | m) <;> (try rcases m' with _ | m') <;> simp

theorem Val.mul_notNan {a b v : Val} (h : Val.mul a b = some v) : v.isNan = false := by
  rcases a with ⟨n, m, e⟩ | n | s <;> rcases b with ⟨n', m', e'⟩ | n' | s' <;>
    (try rcases m with _ | m) <;> (try rcases m' with _ | m') <;> simp [Val.mul] at h <;> subst h <;> rfl

theorem Val.snan_nan {v : Val} (h : v.isNan = false) : v.isSnan = false := by cases v <;> simp_all

theorem Fmt.fma_sums (f : Fmt) (he : 1 ≤ f.eb) (hi : f.inf = true) (r : RndEnv) (neg : Bool) (x y z : Nat) :
    f.Sums r [if neg then (f.read r.ftz z).negate else f.read r.ftz z] [(f.read r.ftz x, f.read r.ftz y)]
      (f.fma r neg x y z) := by
  unfold Fmt.fma
  simp only
  generalize f.read r.ftz x = a
  generalize f.read r.ftz y = b
  generalize hc : (if neg then (f.read r.ftz z).negate else f.read r.ftz z) = c
  have c1 : (f.read r.ftz z).isNan = c.isNan ∧ (f.read r.ftz z).isSnan = c.isSnan := by
    rw [← hc]; cases neg <;> cases f.read r.ftz z <;> exact ⟨rfl, rfl⟩
  cases hm : Val.mul a b with
  | none =>
    have := Val.mul_isNone a b
    rw [hm, Option.isNone_none] at this
    simp only [Fmt.Sums, List.flatMap_cons, List.flatMap_nil, List.any_append, List.any_cons, List.any_nil, Bool.or_false,
      List.append_nil, c1.2]
    by_cases hn : (a.isNan || b.isNan) = true
    · have l0 : (a.isInf && b.isZero || a.isZero && b.isInf) = false := by
        clear this hm
        rcases a with ⟨n, m, e⟩ | n | s <;> rcases b with ⟨n', m', e'⟩ | n' | s' <;> simp at hn ⊢
      rw [if_pos (by rw [hn]; simp), if_pos hn, l0]
      cases c.isSnan <;> cases a.isSnan <;> cases b.isSnan <;> rfl
    · rw [Bool.not_eq_true] at hn
      rw [hn, Bool.false_or] at this
      rw [hn, ← this, if_pos (by simp)]
      simp [Flags.nvIf, Fmt.invalid]
  | some p =>
    have pn := Val.mul_notNan hm
    rw [Fmt.sums_products (ts := [p]) (by simp [hm])]
    have fin : f.finish r [f.read r.ftz z] (Val.add (r.rnd == .rdn) p c) =
        f.finish r [c, p] (Val.add (r.rnd == .rdn) c p) := by
      rw [Val.add_comm]
      simp [Fmt.finish, c1.1, c1.2, pn, Val.snan_nan pn]
    simp only [fin]
    exact f.finish_add he hi r c p


/-- The sum of a list of values, from the left. -/
theorem total_foldl {z : Bool} {a : Val} {l0 : List Val} (h0 : l0 ≠ []) (h : Total z l0 (some a)) {l : List Val}
    (hl : ∀ v ∈ l, v.finite) (hf : ∀ v ∈ l0, v.finite) :
    Total z (l.reverse ++ l0) (l.foldl (fun acc v => acc.bind (fun a => Val.add z a v)) (some a)) := by
  induction l generalizing a l0 with
  | nil => simpa using h
  | cons v l ih =>
    have t := h.cons h0 (hl v (by simp)).1
    have fin : ∀ u ∈ v :: l0, u.finite := by
      intro u hu; rcases List.mem_cons.1 hu with rfl | hu
      · exact hl _ (by simp)
      · exact hf _ hu
    obtain ⟨w, hw, -⟩ := t.2.2.2 fin
    rw [hw] at t
    have := ih (by simp) t (fun u hu => hl u (by simp [hu])) fin
    simpa [hw] using this


/-- The products of a list of pairs, none of them NaN. -/
theorem products_some {ps : List (Val × Val)} (h : ∀ p ∈ ps, (Val.mul p.1 p.2).isNone = false) :
    ∃ ts : List Val, ps.map (fun p => Val.mul p.1 p.2) = ts.map some ∧ ts = ps.filterMap (fun p => Val.mul p.1 p.2) ∧
      ∀ t ∈ ts, t.isNan = false := by
  induction ps with
  | nil => exact ⟨[], rfl, rfl, by simp⟩
  | cons p ps ih =>
    obtain ⟨ts, h1, h2, h3⟩ := ih (fun q hq => h q (by simp [hq]))
    obtain ⟨t, ht⟩ : ∃ t, Val.mul p.1 p.2 = some t := Option.isSome_iff_exists.1 (by
      simpa using h p (by simp))
    exact ⟨t :: ts, by simp [ht, h1], by simp [ht, h2], by simpa [Val.mul_notNan ht] using h3⟩

theorem inf_of_isInf {v : Val} (h : v.isInf = true) : v = .inf v.neg := by
  rcases v with ⟨n, m, e⟩ | n | s
  · simp at h
  · rfl
  · simp at h

/-- The terms d and ts, none of them a NaN, added as a dot product adds them. -/
theorem dotTerms_sums (r : RndEnv) (d : Val) (ts : List Val) (nn : ∀ v ∈ d :: ts, v.isNan = false) :
    Fmt.f32.Sums r (d :: ts) []
      (if ((d :: ts).filter Val.isInf).any Val.neg && ((d :: ts).filter Val.isInf).any (fun v => !v.neg) then Fmt.f32.invalid
       else match (d :: ts).filter Val.isInf with
        | v :: _ => Fmt.f32.deliver r v
        | [] => match ((d :: ts).filter (fun v => !v.isInf)).foldl (fun acc v => acc.bind (fun a => Val.add (r.rnd == .rdn) a v))
            (some d |>.map (fun _ => Val.num d.neg 0 0)) with
          | some v => Fmt.f32.deliver r v
          | none => Fmt.f32.invalid) := by
  have key : ∀ o, Total (r.rnd == .rdn) (d :: ts) o → Fmt.f32.Sums r (d :: ts) [] (o.elim Fmt.f32.invalid (Fmt.f32.deliver r)) :=
    fun o h => Fmt.sums_total (by decide) rfl r h
  have hasT : ((d :: ts).filter Val.isInf).any Val.neg = true ↔ Val.inf true ∈ d :: ts := by
    rw [List.any_eq_true]
    refine ⟨fun ⟨v, hv, h⟩ => ?_, fun h => ⟨_, List.mem_filter.2 ⟨h, rfl⟩, rfl⟩⟩
    rw [← h, ← inf_of_isInf (List.mem_filter.1 hv).2]; exact (List.mem_filter.1 hv).1
  have hasF : ((d :: ts).filter Val.isInf).any (fun v => !v.neg) = true ↔ Val.inf false ∈ d :: ts := by
    rw [List.any_eq_true]
    refine ⟨fun ⟨v, hv, h⟩ => ?_, fun h => ⟨_, List.mem_filter.2 ⟨h, rfl⟩, rfl⟩⟩
    rw [Bool.not_eq_true'] at h
    rw [← h, ← inf_of_isInf (List.mem_filter.1 hv).2]; exact (List.mem_filter.1 hv).1
  by_cases both : (((d :: ts).filter Val.isInf).any Val.neg && ((d :: ts).filter Val.isInf).any (fun v => !v.neg)) = true
  · rw [if_pos both]
    rw [Bool.and_eq_true, hasT, hasF] at both
    refine key none ⟨nn, fun _ _ => rfl, fun n _ h => ?_, fun h => ?_⟩
    · cases n
      · exact absurd both.1 h
      · exact absurd both.2 h
    · exact absurd (h _ both.1).2 (by simp)
  · rw [if_neg both]
    rw [Bool.and_eq_true, hasT, hasF] at both
    cases hi : (d :: ts).filter Val.isInf with
    | cons v vs =>
      have hv := List.mem_filter.1 (hi ▸ List.mem_cons_self .. : v ∈ (d :: ts).filter Val.isInf)
      have mem : Val.inf v.neg ∈ d :: ts := inf_of_isInf hv.2 ▸ hv.1
      refine key (some v) ⟨nn, fun a b => absurd ⟨a, b⟩ both, fun n hn h => ?_, fun h => ?_⟩
      · rw [inf_of_isInf hv.2]
        have : v.neg = n := by
          by_contra hne
          have : v.neg = !n := by
            cases n <;> cases hv : v.neg <;> first | rfl | (rw [hv] at hne; exact absurd rfl hne)
          exact h (this ▸ mem)
        rw [this]
      · exact absurd (h _ mem).2 (by simp)
    | nil =>
      have fin : ∀ v ∈ d :: ts, v.finite := fun v hv => ⟨nn v hv, by
        by_contra hcon
        have : v ∈ (d :: ts).filter Val.isInf := List.mem_filter.2 ⟨hv, by simpa using hcon⟩
        rw [hi] at this; exact absurd this (List.not_mem_nil)⟩
      have filt : (d :: ts).filter (fun v => !v.isInf) = d :: ts := by
        rw [List.filter_eq_self]; intro v hv; simp [(fin v hv).2]
      rw [filt]
      have z0 : Total (r.rnd == .rdn) [Val.num d.neg 0 0] (some (Val.num d.neg 0 0)) := Total.single _ rfl
      have tot := total_foldl (by simp) z0 (l := d :: ts) fin (by simp [Val.finite_num])
      obtain ⟨v, hv, vf, vr, vs⟩ := tot.2.2.2 (by
        intro u hu
        rcases List.mem_append.1 hu with hu | hu
        · exact fin u (List.mem_reverse.1 hu)
        · rw [List.mem_singleton.1 hu]; exact Val.finite_num _ _ _)
      have same : zeroSign (r.rnd == .rdn) ((d :: ts).reverse ++ [Val.num d.neg 0 0]) = zeroSign (r.rnd == .rdn) (d :: ts) := by
        simp only [zeroSign, List.map_append, List.map_reverse, List.map_cons, List.map_nil, List.all_append, List.any_append,
          List.all_reverse, List.any_reverse, List.all_cons, List.any_cons, List.all_nil, List.any_nil, Val.neg_num, id]
        generalize (ts.map Val.neg).any id = p
        generalize (ts.map Val.neg).all id = q
        generalize (r.rnd == .rdn) = z
        cases d.neg <;> cases p <;> cases q <;> cases z <;> rfl
      have sums : (((d :: ts).reverse ++ [Val.num d.neg 0 0]).map Val.rat).sum = ((d :: ts).map Val.rat).sum := by
        rw [List.map_append, List.map_reverse, List.sum_append, List.sum_reverse]
        simp [Val.rat]
      simp only [Option.map_some] at hv ⊢
      rw [hv]
      exact key (some v) (Total.finite fin vf (by rw [vr, sums]) (by rw [← same]; exact vs))

theorem dotFloat_sums (t n : Nat) (r : RndEnv) (x y z : Nat) :
    Fmt.f32.Sums r [Fmt.f32.read r.ftz z] ((List.range (32 / n)).map (fun i =>
      ((fmtOf t).read r.ftz (packed x n i), (fmtOf t).read r.ftz (packed y n i)))) (dotFloat t n r x y z) := by
  unfold dotFloat
  simp only
  generalize (List.range (32 / n)).map (fun i =>
      ((fmtOf t).read r.ftz (packed x n i), (fmtOf t).read r.ftz (packed y n i))) = ps
  generalize Fmt.f32.read r.ftz z = d
  have lost : (ps.map (fun p => (Val.mul p.1 p.2, p.1.isNan || p.2.isNan))).any (fun p => p.1.isNone && !p.2) =
      ps.any (fun p => p.1.isInf && p.2.isZero || p.1.isZero && p.2.isInf) := by
    rw [List.any_map]
    congr 1
    funext p
    simp only [Function.comp, Val.mul_isNone]
    rcases p.1 with ⟨n, m, e⟩ | n | s <;> rcases p.2 with ⟨n', m', e'⟩ | n' | s' <;> simp
  rw [lost]
  by_cases hc : ((d :: ps.flatMap (fun p => [p.1, p.2])).any Val.isNan ||
      ps.any (fun p => p.1.isInf && p.2.isZero || p.1.isZero && p.2.isInf)) = true
  · rw [if_pos hc]
    unfold Fmt.Sums
    simp only [List.cons_append, List.nil_append]
    rw [if_pos hc]
    trivial
  · rw [if_neg hc]
    rw [Bool.not_eq_true, Bool.or_eq_false_iff] at hc
    obtain ⟨hn, hl⟩ := hc
    rw [List.any_cons, Bool.or_eq_false_iff] at hn
    obtain ⟨ts, h1, h2, h3⟩ := products_some (ps := ps) (fun p hp => by
      rw [Val.mul_isNone, Bool.or_eq_false_iff]
      have a := List.any_eq_false.1 hn.2 p.1 (List.mem_flatMap.2 ⟨p, hp, by simp⟩)
      have b := List.any_eq_false.1 hn.2 p.2 (List.mem_flatMap.2 ⟨p, hp, by simp⟩)
      have c := List.any_eq_false.1 hl p hp
      simp only [Bool.not_eq_true] at a b c
      exact ⟨by simp [a, b], c⟩)
    rw [Fmt.sums_products h1]
    have terms : (ps.map (fun p => (Val.mul p.1 p.2, p.1.isNan || p.2.isNan))).filterMap (fun p => p.1) = ts := by
      rw [List.filterMap_map, h2]; rfl
    rw [terms]
    exact dotTerms_sums r d ts (by simpa [hn.1] using h3)

/-! ### Block sums (R110, R111) -/

theorem sumVals_total {ts : List Val} (h : ts ≠ []) (nn : ∀ t ∈ ts, t.isNan = false) : Total false ts (sumVals (ts.map some)) := by
  induction ts with
  | nil => exact absurd rfl h
  | cons x xs ih =>
    rcases xs with _ | ⟨y, ys⟩
    · exact Total.single _ (nn x (by simp))
    · have := ih (by simp) (fun t ht => nn t (by simp [ht]))
      have e : sumVals ((x :: y :: ys).map some) = match some x, sumVals ((y :: ys).map some) with
          | some a, some b => Val.add false a b
          | _, _ => none := rfl
      rw [e]
      cases ho : sumVals ((y :: ys).map some) with
      | none => rw [ho] at this; exact this.none (nn x (by simp))
      | some w =>
        rw [ho] at this
        change Total false (x :: y :: ys) (Val.add false x w)
        rw [Val.add_comm]
        exact this.cons (by simp) (nn x (by simp))

theorem sumVals_none {l : List (Option Val)} (h : none ∈ l) : sumVals l = none := by
  induction l with
  | nil => simp at h
  | cons x xs ih =>
    rcases xs with _ | ⟨y, ys⟩
    · simp at h; rw [← h]; rfl
    · rcases List.mem_cons.1 h with h | h
      · rw [← h]; rfl
      · have := ih h
        unfold sumVals
        rw [this]
        cases x <;> rfl

/-- One block added to the accumulator. -/
theorem addBlock_sums {f : Fmt} (he : 1 ≤ f.eb) (hi : f.inf = true) (acc : Val) {ps : List (Val × Val)} (hp : ps ≠ []) :
    ∃ fl, f.Sums RndEnv.rne [acc] ps
      (match sumVals (ps.map (fun p => Val.mul p.1 p.2)) with
        | none => f.nanBits
        | some v => (f.finish RndEnv.rne [acc] (Val.add false acc v)).1, fl) := by
  have nan : ∀ {ps : List (Val × Val)} {b : Nat}, (([acc] ++ ps.flatMap (fun p => [p.1, p.2])).any Val.isNan ||
      ps.any (fun p => p.1.isInf && p.2.isZero || p.1.isZero && p.2.isInf)) = true → b = f.nanBits →
      ∃ fl, f.Sums RndEnv.rne [acc] ps (b, fl) := fun {ps b} hc hb =>
    ⟨Flags.nvIf (([acc] ++ ps.flatMap (fun p => [p.1, p.2])).any Val.isSnan ||
      ps.any (fun p => p.1.isInf && p.2.isZero || p.1.isZero && p.2.isInf)), by
    subst hb; unfold Fmt.Sums; simp only; rw [if_pos hc]; trivial⟩
  by_cases hn : none ∈ ps.map (fun p => Val.mul p.1 p.2)
  · rw [sumVals_none hn]
    obtain ⟨p, hp, hm⟩ := List.mem_map.1 hn
    have m := Val.mul_isNone p.1 p.2
    rw [hm, Option.isNone_none] at m
    refine nan ?_ rfl
    rcases Bool.or_eq_true_iff.1 m.symm with h | h
    · rw [Bool.or_eq_true, List.any_append]
      left
      rw [Bool.or_eq_true]; right
      rcases Bool.or_eq_true_iff.1 h with h | h
      · exact List.any_eq_true.2 ⟨_, List.mem_flatMap.2 ⟨p, hp, by simp⟩, h⟩
      · exact List.any_eq_true.2 ⟨_, List.mem_flatMap.2 ⟨p, hp, List.mem_cons_of_mem _ (List.mem_cons_self ..)⟩, h⟩
    · rw [Bool.or_eq_true]; right
      exact List.any_eq_true.2 ⟨p, hp, h⟩
  · obtain ⟨ts, h1, -, h3⟩ := products_some (ps := ps) (fun p hp => by
      by_contra hc
      exact hn (List.mem_map.2 ⟨p, hp, Option.isNone_iff_eq_none.1 (by simpa using hc)⟩))
    have ne : ts ≠ [] := fun h => hp (by rw [h] at h1; simpa using h1)
    rw [h1]
    simp only [Fmt.sums_products h1]
    have tot := sumVals_total ne h3
    cases ha : acc.isNan with
    | true =>
      refine ⟨(f.finish RndEnv.rne [acc] none).2, ?_⟩
      have fin : ∀ o, (f.finish RndEnv.rne [acc] o) = (f.nanBits, Flags.nvIf acc.isSnan) := fun o => by
        simp [Fmt.finish, ha]
      have nn : ts.any Val.isNan = false := by rw [List.any_eq_false]; intro t ht; simp [h3 t ht]
      have ns : ts.any Val.isSnan = false := by rw [List.any_eq_false]; intro t ht; simp [Val.snan_nan (h3 t ht)]
      have b : (match sumVals (ts.map some) with
          | none => f.nanBits
          | some v => (f.finish RndEnv.rne [acc] (Val.add false acc v)).1) = f.nanBits := by
        split
        · rfl
        · rw [fin]
      rw [b, fin]
      simp [Fmt.Sums, ha, nn, ns]
    | false =>
      have t2 : Total false (acc :: ts) (match sumVals (ts.map some) with
          | none => none
          | some v => Val.add false acc v) := by
        cases ho : sumVals (ts.map some) with
        | none => rw [ho] at tot; exact tot.none ha
        | some w => rw [ho] at tot; simp only; rw [Val.add_comm]; exact tot.cons ne ha
      have := Fmt.sums_total (f := f) he hi RndEnv.rne t2
      have g : ∀ o : Option Val, f.finish RndEnv.rne [acc] o = o.elim f.invalid (f.deliver RndEnv.rne) := fun o => by
        cases o <;> simp [Fmt.finish, ha]
      cases ho : sumVals (ts.map some) with
      | none => rw [ho] at this; exact ⟨_, this⟩
      | some w => rw [ho] at this; simp only at this ⊢; rw [g]; exact ⟨_, this⟩

/-- The steps of a fold over the numbers below n. -/
theorem foldl_range_succ {α : Type} (f : α → Nat → α) (x : α) (n : Nat) :
    (List.range (n + 1)).foldl f x = f ((List.range n).foldl f x) n := by
  rw [List.range_succ, List.foldl_append]; rfl

/-! ### Trees (R156, R178) -/

theorem Flags.or_assoc (a b c : Flags) : Flags.or (Flags.or a b) c = Flags.or a (Flags.or b c) := by
  simp [Flags.or, Bool.or_assoc]

theorem Flags.none_or (a : Flags) : Flags.or Flags.none a = a := by simp [Flags.or, Flags.none]
theorem Flags.or_none_right (a : Flags) : Flags.or a Flags.none = a := by simp [Flags.or, Flags.none]

theorem Flags.foldl_or (l : List Flags) (a : Flags) : l.foldl Flags.or a = Flags.or a (Flags.orAll l) := by
  unfold Flags.orAll
  induction l generalizing a with
  | nil => simp [Flags.or_none_right]
  | cons x l ih => rw [List.foldl_cons, ih, List.foldl_cons, ih (Flags.or Flags.none x), Flags.none_or, Flags.or_assoc]

theorem Flags.orAll_append (l l' : List Flags) : Flags.orAll (l ++ l') = Flags.or (Flags.orAll l) (Flags.orAll l') := by
  unfold Flags.orAll
  rw [List.foldl_append, Flags.foldl_or]
  rfl

theorem Flags.orAll_cons (x : Flags) (l : List Flags) : Flags.orAll (x :: l) = Flags.or x (Flags.orAll l) := by
  rw [show x :: l = [x] ++ l from rfl, Flags.orAll_append]
  congr 1

theorem treeAt_congr {f : Nat → Nat → Nat × Flags} {x y : Nat → Nat} (n i : Nat) (h : ∀ j < 2 ^ n, x (i + j) = y (i + j)) :
    treeAt f x n i = treeAt f y n i := by
  induction n generalizing i with
  | zero => exact h 0 (by simp)
  | succ n ih =>
    unfold treeAt
    rw [ih i (fun j hj => h j (by rw [pow_succ]; omega)),
      ih (i + 2 ^ n) (fun j hj => by rw [Nat.add_assoc]; exact h _ (by rw [pow_succ]; omega))]

/-- The tree above its lowest level is the tree of that level's results. -/
theorem treeAt_level {f : Nat → Nat → Nat × Flags} {x x' : Nat → Nat} (n i : Nat)
    (h : ∀ j < 2 ^ n, x' (i + j) = (f (x (2 * (i + j))) (x (2 * (i + j) + 1))).1) :
    treeAt f x' n i = treeAt f x (n + 1) (2 * i) := by
  induction n generalizing i with
  | zero => exact h 0 (by simp)
  | succ n ih =>
    rw [show treeAt f x' (n + 1) i = (f (treeAt f x' n i) (treeAt f x' n (i + 2 ^ n))).1 from rfl,
      ih i (fun j hj => h j (by rw [pow_succ]; omega)),
      ih (i + 2 ^ n) (fun j hj => by rw [Nat.add_assoc]; exact h _ (by rw [pow_succ]; omega))]
    rw [show 2 * (i + 2 ^ n) = 2 * i + 2 ^ (n + 1) by rw [pow_succ]; ring]
    rfl

theorem treeLevel_spec (f : Nat → Nat → Nat × Flags) (m : Nat) : ∀ xs : List Nat, xs.length = 2 * m →
    treeLevel f xs = (List.range m).map (fun j => f (xs.getD (2 * j) 0) (xs.getD (2 * j + 1) 0)) := by
  induction m with
  | zero => intro xs h; obtain rfl : xs = [] := List.length_eq_zero_iff.1 h; rfl
  | succ m ih =>
    intro xs h
    rcases xs with _ | ⟨x, _ | ⟨y, xs⟩⟩
    · simp at h
    · simp at h; omega
    · rw [treeLevel, ih xs (by simp at h; omega), List.range_succ_eq_map, List.map_cons, List.map_map]
      rfl

theorem treeFlags_level {f : Nat → Nat → Nat × Flags} {x x' : Nat → Nat} (n : Nat)
    (h : ∀ j < 2 ^ n, x' j = (f (x (2 * j)) (x (2 * j + 1))).1) :
    treeFlags f x (n + 1) = (List.range (2 ^ n)).map (fun j => (f (x (2 * j)) (x (2 * j + 1))).2) ++ treeFlags f x' n := by
  unfold treeFlags
  rw [List.range_succ_eq_map, List.flatMap_cons, List.flatMap_map]
  congr 1
  · apply List.flatMap_congr
    intro k hk
    rw [List.mem_range] at hk
    rw [show n + 1 - k.succ - 1 = n - k - 1 by omega]
    apply List.map_congr_left
    intro j hj
    rw [List.mem_range] at hj
    have top : 2 ^ (k + 1) * (j + 1) ≤ 2 ^ n := by
      calc 2 ^ (k + 1) * (j + 1) ≤ 2 ^ (k + 1) * 2 ^ (n - k - 1) := Nat.mul_le_mul_left _ hj
        _ = 2 ^ n := by rw [← pow_add]; congr 1; omega
    rw [Nat.mul_add, Nat.mul_one] at top
    have pk : 2 ^ (k + 1) = 2 * 2 ^ k := by rw [pow_succ]; ring
    rw [treeAt_level (x := x) k (2 ^ (k + 1) * j) (fun i hi => by rw [h _ (by omega)]),
      treeAt_level (x := x) k (2 ^ (k + 1) * j + 2 ^ k) (fun i hi => by rw [h _ (by omega)])]
    rw [show 2 * (2 ^ (k + 1) * j) = 2 ^ (k.succ + 1) * j by rw [Nat.succ_eq_add_one, pow_succ 2 (k + 1)]; ring,
      show 2 * (2 ^ (k + 1) * j + 2 ^ k) = 2 ^ (k.succ + 1) * j + 2 ^ k.succ by
        rw [Nat.succ_eq_add_one, pow_succ 2 (k + 1), pow_succ 2 k]; ring]

/-- n levels of the tree over 2^n elements: its value, and the flags of every rounding. -/
theorem treeReduce_eq (f : Nat → Nat → Nat × Flags) (n : Nat) : ∀ (xs : List Nat) (fl : Flags), xs.length = 2 ^ n →
    treeReduce f n xs fl = (treeAt f (fun i => xs.getD i 0) n 0, Flags.or fl (Flags.orAll (treeFlags f (fun i => xs.getD i 0) n))) := by
  induction n with
  | zero =>
    intro xs fl h
    obtain ⟨x, rfl⟩ := List.length_eq_one_iff.1 h
    simp [treeReduce, treeAt, treeFlags, Flags.orAll, Flags.or_none_right]
  | succ n ih =>
    intro xs fl h
    have lv := treeLevel_spec f (2 ^ n) xs (by rw [h, pow_succ]; ring)
    have x' : ∀ j < 2 ^ n, (fun i => ((treeLevel f xs).map (fun y => y.1)).getD i 0) j =
        (f (xs.getD (2 * j) 0) (xs.getD (2 * j + 1) 0)).1 := fun j hj => by
      rw [lv]; simp [List.getD_eq_getElem?_getD, hj]
    rw [treeReduce, ih _ _ (by rw [lv]; simp), treeFlags_level n x', Flags.orAll_append, Flags.or_assoc]
    congr 1
    · rw [treeAt_level (x := fun i => xs.getD i 0) n 0 (by simpa using x')]
    · rw [lv, List.map_map]; rfl

/-! ### Block conversion (R93) -/

theorem maxVal_spec {l : List Val} (h : ∀ v ∈ l, v.finite) : (maxVal l).finite ∧ (maxVal l).neg = false ∧
    (∀ v ∈ l, |v.rat| ≤ (maxVal l).rat) ∧ ((maxVal l).rat = 0 ∨ ∃ v ∈ l, |v.rat| = (maxVal l).rat) := by
  induction l with
  | nil => exact ⟨Val.finite_num _ _ _, rfl, by simp, Or.inl (by simp [maxVal, Val.rat])⟩
  | cons v vs ih =>
    obtain ⟨h1, h2, h3, h4⟩ := ih (fun u hu => h u (by simp [hu]))
    obtain ⟨n, m, e⟩ | n | s := v
    · have ab : (Val.absv (.num n m e)).rat = |(Val.num n m e).rat| := by rw [Val.abs_rat]; simp [Val.absv, Val.rat]
      have ll := Val.lt_less (a := maxVal vs) (b := Val.absv (.num n m e)) h1.1 rfl
      have less : (maxVal vs).Less (Val.absv (.num n m e)) ↔ (maxVal vs).rat < |(Val.num n m e).rat| := by
        rw [← ab]
        generalize hm : maxVal vs = b at *
        rcases b with ⟨n', m', e'⟩ | n' | s'
        · rfl
        · simp [Val.finite] at h1
        · simp [Val.finite] at h1
      have e : maxVal (.num n m e :: vs) = if Val.lt (maxVal vs) (Val.absv (.num n m e)) then Val.absv (.num n m e) else maxVal vs := rfl
      rw [e]
      split
      · rename_i hl
        have hl := less.1 (ll.1 hl)
        refine ⟨Val.finite_num _ _ _, rfl, ?_, Or.inr ⟨_, List.mem_cons_self .., ab.symm⟩⟩
        intro u hu
        rcases List.mem_cons.1 hu with rfl | hu
        · exact le_of_eq ab.symm
        · exact le_trans (h3 u hu) (by rw [ab]; exact hl.le)
      · rename_i hl
        have hl : |(Val.num n m _).rat| ≤ (maxVal vs).rat := not_lt.1 (fun h => hl (ll.2 (less.2 h)))
        refine ⟨h1, h2, ?_, ?_⟩
        · intro u hu
          rcases List.mem_cons.1 hu with rfl | hu
          · exact hl
          · exact h3 u hu
        · rcases h4 with h4 | ⟨u, hu, hu'⟩
          · exact Or.inl h4
          · exact Or.inr ⟨u, by simp [hu], hu'⟩
    · have := (h _ (List.mem_cons_self ..)).2; simp at this
    · have := (h _ (List.mem_cons_self ..)).1; simp at this

/-- The exponent of the largest number of a block-scaled element format. -/
theorem largest_expo (n : Nat) {X : Int} (h1 : (2 : ℚ) ^ X ≤ (cvtbFmt n).largest) (h2 : (cvtbFmt n).largest < 2 ^ (X + 1)) :
    X = (cvtbFmt n).emax := by
  have : ∀ (f : Fmt) (m : Nat) (e : Int), f.decode f.maxBits = .num false m e → m ≠ 0 → f.emax = (Nat.log2 m : Int) + e →
      (2 : ℚ) ^ X ≤ f.largest → f.largest < 2 ^ (X + 1) → X = f.emax := by
    intro f m e hd hm he h1 h2
    rw [Fmt.largest, hd] at h1 h2
    simp only [Val.rat, Bool.false_eq_true, if_false, one_mul] at h1 h2
    rw [he]
    exact expo_unique hm h1 h2
  rcases n with _ | _ | _ | _ | n
  · exact this Fmt.e5m2 7 13 (by decide) (by decide) (by decide) h1 h2
  · exact this Fmt.e4m3 14 5 (by decide) (by decide) (by decide) h1 h2
  · exact this Fmt.e3m2 7 2 (by decide) (by decide) (by decide) h1 h2
  · exact this Fmt.e2m3 15 (-1) (by decide) (by decide) (by decide) h1 h2
  · exact this Fmt.e2m1 3 1 (by decide) (by decide) (by decide) h1 h2

theorem mxBlock_blocked (n : Nat) (vs : List (RndEnv × Val)) : (cvtbFmt n).Blocked vs (mxBlock (cvtbFmt n) vs) := by
  have he : 1 ≤ (cvtbFmt n).eb := by
    rcases n with _ | _ | _ | _ | n
    all_goals first | decide | exact (by decide : 1 ≤ Fmt.e2m1.eb)
  have lg : ∃ m e, (cvtbFmt n).decode (cvtbFmt n).maxBits = .num false m e := by
    rcases n with _ | _ | _ | _ | n
    · exact ⟨7, 13, by decide⟩
    · exact ⟨14, 5, by decide⟩
    · exact ⟨7, 2, by decide⟩
    · exact ⟨15, -1, by decide⟩
    · exact ⟨3, 1, (by decide : Fmt.e2m1.decode Fmt.e2m1.maxBits = .num false 3 1)⟩
  have lx := fun X => largest_expo n (X := X)
  revert he lg lx
  generalize cvtbFmt n = f
  intro he lg lx
  have special : (vs.map (fun v => v.2)).any (fun v => v.isNan || v.isInf) = true ↔ ∃ v ∈ vs, ¬ v.2.finite := by
    rw [List.any_map, List.any_eq_true]
    refine exists_congr fun v => and_congr_right fun _ => ?_
    simp only [Function.comp, Bool.or_eq_true, Val.finite, not_and_or, Bool.not_eq_false]
  refine ⟨fun h => ?_, fun h => ?_, fun h a E X a0 at_ top h1 h2 h3 h4 => ?_⟩
  · unfold mxBlock
    simp only
    rw [if_pos (special.2 h), List.any_map]
    rfl
  · have fin : ∀ v ∈ vs.map (fun v => v.2), v.finite := fun u hu => by
      obtain ⟨v, hv, rfl⟩ := List.mem_map.1 hu; exact (h v hv).1
    obtain ⟨m1, m2, m3, m4⟩ := maxVal_spec fin
    have m0 : (maxVal (vs.map (fun v => v.2))).rat = 0 := by
      rcases m4 with m4 | ⟨u, hu, hu'⟩
      · exact m4
      · obtain ⟨v, hv, rfl⟩ := List.mem_map.1 hu
        rw [← hu', (h v hv).2, abs_zero]
    unfold mxBlock
    simp only
    rw [if_neg (fun hc => by obtain ⟨v, hv, hn⟩ := special.1 hc; exact hn (h v hv).1)]
    revert m0 m1
    generalize maxVal (vs.map (fun v => v.2)) = w
    intro m1 m0
    rcases w with ⟨n, m, e⟩ | n | s
    · have : m = 0 := by
        have p : (2 : ℚ) ^ e ≠ 0 := by positivity
        cases n <;> simpa [Val.rat, p] using m0
      simp only [this, if_true, List.map_map]
      rfl
    · simp [Val.finite] at m1
    · simp [Val.finite] at m1
  · have fin : ∀ v ∈ vs.map (fun v => v.2), v.finite := fun u hu => by
      obtain ⟨v, hv, rfl⟩ := List.mem_map.1 hu; exact h v hv
    obtain ⟨m1, m2, m3, m4⟩ := maxVal_spec fin
    obtain ⟨b, hb, hba⟩ := at_
    have ma : (maxVal (vs.map (fun v => v.2))).rat = a := by
      apply le_antisymm
      · rcases m4 with m4 | ⟨u, hu, hu'⟩
        · rw [m4]; exact a0.le
        · obtain ⟨v, hv, rfl⟩ := List.mem_map.1 hu
          rw [← hu']; exact top v hv
      · rw [← hba]; exact m3 _ (List.mem_map.2 ⟨b, hb, rfl⟩)
    have hX := lx X h3 h4
    unfold mxBlock
    simp only
    rw [if_neg (fun hc => by obtain ⟨v, hv, hn⟩ := special.1 hc; exact hn (h v hv))]
    revert ma m1 m2
    generalize maxVal (vs.map (fun v => v.2)) = w
    intro m1 m2 ma
    rcases w with ⟨n, m, e⟩ | n | s
    · obtain rfl : n = false := m2
      have ma : (m : ℚ) * 2 ^ e = a := by simpa [Val.rat] using ma
      have hm : m ≠ 0 := by
        rintro rfl; simp at ma; linarith
      have hE := expo_unique hm (E := E) (by rw [ma]; exact h1) (by rw [ma]; exact h2)
      simp only [if_neg hm, hX, hE]
      refine ⟨_, rfl, ?_⟩
      rw [List.forall₂_map_right_iff, List.forall₂_same]
      intro v hv
      obtain ⟨km, ke, hd⟩ := lg
      have dpos : f.largest = (Val.num false km ke).rat := by rw [Fmt.largest, hd]
      rcases hv2 : v.2 with ⟨n, vm, ve⟩ | n | s
      · have q : |(Val.num n vm ve).rat| / 2 ^ max (-127) (min 127 ((Nat.log2 m : Int) + e - f.emax)) =
            (Val.num false vm (ve - max (-127) (min 127 ((Nat.log2 m : Int) + e - f.emax)))).rat := by
          rw [Val.abs_rat]
          simp only [Val.rat, Bool.false_eq_true, if_false, one_mul]
          rw [mul_div_assoc, ← zpow_sub₀ (by norm_num)]
        have ll := Val.lt_less (a := .num false km ke)
          (b := .num false vm (ve - max (-127) (min 127 ((Nat.log2 m : Int) + e - f.emax)))) rfl rfl
        rw [q, dpos]
        simp only [hd]
        constructor
        · intro hl
          rw [if_pos (ll.2 hl)]; rfl
        · intro hl
          rw [if_neg (fun hc => absurd (ll.1 hc) (not_lt.2 hl))]
          have := f.round_rounded he v.1 n vm (ve - max (-127) (min 127 ((Nat.log2 m : Int) + e - f.emax)))
          simpa [Val.rat] using this
      · have := (h v hv).2; rw [hv2] at this; simp at this
      · have := (h v hv).1; rw [hv2] at this; simp at this
    · simp [Val.finite] at m1
    · simp [Val.finite] at m1

/-! ### The steps of a scan (R157) -/

theorem scanGo_spec {α : Type} (f : α → α → α × Flags) (excl : Bool) (d : α) : ∀ (xs : List α) (y : α), ∃ ys : Nat → α, ys 0 = y ∧
    (∀ i < xs.length, ys (i + 1) = (f (ys i) (xs.getD i d)).1 ∧
      (scanGo f excl y xs).1.getD i d = if excl then ys i else ys (i + 1)) ∧
    (scanGo f excl y xs).1.length = xs.length ∧
    (scanGo f excl y xs).2 = Flags.orAll ((List.range xs.length).map (fun i => (f (ys i) (xs.getD i d)).2)) := by
  intro xs
  induction xs with
  | nil => intro y; exact ⟨fun _ => y, rfl, by simp, rfl, rfl⟩
  | cons x xs ih =>
    intro y
    obtain ⟨ys, h0, h1, h2, h3⟩ := ih (f y x).1
    refine ⟨fun i => if i = 0 then y else ys (i - 1), rfl, fun i hi => ?_, by simp [scanGo, h2], ?_⟩
    · rcases i with _ | i
      · refine ⟨by simpa using h0, ?_⟩
        simp [scanGo, h0]
      · obtain ⟨a, b⟩ := h1 i (by simpa using hi)
        refine ⟨by simpa using a, ?_⟩
        simpa [scanGo] using b
    · rw [List.length_cons, List.range_succ_eq_map, List.map_cons, List.map_map, Flags.orAll_cons]
      simp only [scanGo, h3]
      rfl

/-! ### Reductions, rows and elements -/

/-- What GRED and GSCAN deliver, and a block conversion (R93, R156, R157). -/
theorem Ctx.reductions :
(∀ (c : Ctx) (a : RegField) (op : Nat) (excl : Bool),
    let t := c.etype
    let f := fmtOf t
    let r : RndEnv := { c.env 0 0 with ftz := false }
    let read := fun l => c.readA a (isWide t) l % 2 ^ ebits t
    let pat := fun z : Int => (z % (2 ^ ebits t : Nat)).toNat
    let whole := fun x y : Int => if op = 0 then x + y else if op = 1 then min x y else if op = 2 then max x y
      else elemInt t (if op = 3 then pat x &&& pat y else if op = 4 then pat x ||| pat y else pat x ^^^ pat y)
    let zero : Int := if op = 1 then intMax (isSigned t) (ebits t) else if op = 2 then intMin (isSigned t) (ebits t)
      else if op = 3 then elemInt t (2 ^ ebits t - 1) else 0
    let step := fun x y => if op = 0 then f.add r x y else f.minMax false (op == 2) false x y
    let ident := if op = 0 then f.signBit true else f.signBit (op == 2) + f.infBits
    let x := fun l => if l < 32 ∧ c.takes l = true then read l else if l < 32 then ident else 0
    let i := fun l => if c.takes l then elemInt t (c.readA a (isWide t) l) else zero
    (inINT t = true → op ≤ 5 →
      c.reduce a op = (fitElem t c.sat ((c.takers.map (fun l => elemInt t (c.readA a (isWide t) l))).foldl whole zero), Flags.none) ∧
      (c.scan a op excl).2 = Flags.none ∧ ∃ y : Nat → Int, y 0 = zero ∧ ∀ l < 32, y (l + 1) = whole (y l) (i l) ∧
        (c.scan a op excl).1.getD l 0 = fitElem t c.sat (if excl then y l else y (l + 1))) ∧
    (inINT t = false → op ≤ 2 →
      c.reduce a op = (treeAt step x 5 0, Flags.orAll (treeFlags step x 5)) ∧
      ∃ y : Nat → Nat, y 0 = ident ∧ (∀ l < 32, y (l + 1) = (step (y l) (x l)).1 ∧
        (c.scan a op excl).1.getD l 0 = if excl then y l else y (l + 1)) ∧
        (c.scan a op excl).2 = Flags.orAll ((List.range 32).map (fun l => (step (y l) (x l)).2)))) ∧
  (∀ (n : Nat) (vs : List (RndEnv × Val)), (cvtbFmt n).Blocked vs (mxBlock (cvtbFmt n) vs)) := by
  refine ⟨?_, fun n vs => mxBlock_blocked n vs⟩
  intro c a op excl t f r read pat whole zero step ident x i
  have get : ∀ {α : Type} (g : Nat → α) (d : α) (l : Nat), l < 32 → (allLanes.map g).getD l d = g l := fun g d l hl => by
    simp [allLanes, List.getD_eq_getElem?_getD, hl]
  have ls : ∀ {α : Type} (g : Nat → α), (allLanes.map g).length = 32 := fun g => by simp [allLanes]
  refine ⟨fun hi ho => ⟨?_, ?_⟩, fun hi ho => ⟨?_, ?_⟩⟩
  · have w : ∀ x y, reduceInt t op x y = whole x y := fun x y => by
      unfold reduceInt whole pat
      interval_cases op <;> rfl
    have z : identInt t op = zero := by
      unfold identInt zero
      interval_cases op <;> rfl
    have e : ∀ l : List Nat, l.filterMap (fun l => if c.takes l then some (elemInt t (c.readA a (isWide t) l)) else Option.none) =
        (l.filter c.takes).map (fun l => elemInt t (c.readA a (isWide t) l)) := fun l => by
      induction l with
      | nil => rfl
      | cons h l ih => cases ht : c.takes h <;> simp [ht, ih]
    unfold Ctx.reduce
    simp only [show inINT c.etype = true from hi, if_true]
    rw [show reduceInt c.etype op = whole from funext fun x => funext fun y => w x y, show identInt c.etype op = zero from z]
    simp only [allLanes, Ctx.takers]
    rw [← e]
  · have w : ∀ x y, reduceInt t op x y = whole x y := fun x y => by
      unfold reduceInt whole pat
      interval_cases op <;> rfl
    have z : identInt t op = zero := by
      unfold identInt zero
      interval_cases op <;> rfl
    unfold Ctx.scan
    simp only [show inINT c.etype = true from hi, if_true]
    rw [show reduceInt c.etype op = whole from funext fun x => funext fun y => w x y, show identInt c.etype op = zero from z]
    obtain ⟨y, y0, y1, y2, -⟩ := scanGo_spec (fun y x => (whole y x, Flags.none)) excl 0 (allLanes.map i) zero
    refine ⟨trivial, y, y0, fun l hl => ?_⟩
    obtain ⟨a1, a2⟩ := y1 l (by rw [ls]; exact hl)
    rw [get i 0 l hl] at a1
    refine ⟨a1, ?_⟩
    rw [List.getD_eq_getElem?_getD, List.getElem?_map]
    rw [List.getD_eq_getElem?_getD] at a2
    have hlen : l < (scanGo (fun y x => (whole y x, Flags.none)) excl zero (allLanes.map i)).1.length := by rw [y2, ls]; exact hl
    rw [List.getElem?_eq_getElem hlen] at a2 ⊢
    simp only [Option.getD_some] at a2
    simp only [Option.map_some, Option.getD_some, a2]
    rfl
  · have st : reduceFloat (fmtOf c.etype) c.laneEnv op = step := by
      funext x y
      unfold reduceFloat step
      interval_cases op <;> rfl
    have id_ : identFloat (fmtOf c.etype) op = ident := by
      unfold identFloat ident
      interval_cases op
      · rfl
      · simp [Fmt.signBit, f, t]
      · rfl
    have g : (fun i => (c.gather a (isWide c.etype) ident).getD i 0) = x := by
      funext l
      unfold Ctx.gather x
      rw [List.getD_eq_getElem?_getD, List.getElem?_map]
      by_cases hl : l < 32
      · simp [allLanes, hl, read, t]
      · simp [allLanes, hl]
    unfold Ctx.reduce
    simp only [show inINT c.etype = false from hi, Bool.false_eq_true, if_false]
    rw [st, id_, treeReduce_eq _ _ _ _ (by simp [Ctx.gather, allLanes]), Flags.none_or, g]
  · have st : reduceFloat (fmtOf c.etype) c.laneEnv op = step := by
      funext x y
      unfold reduceFloat step
      interval_cases op <;> rfl
    have id_ : identFloat (fmtOf c.etype) op = ident := by
      unfold identFloat ident
      interval_cases op
      · rfl
      · simp [Fmt.signBit, f, t]
      · rfl
    have g : ∀ l < 32, (c.gather a (isWide c.etype) ident).getD l 0 = x l := by
      intro l hl
      unfold Ctx.gather x
      rw [get _ 0 l hl]
      simp [hl, read, t]
    have gl : (c.gather a (isWide c.etype) ident).length = 32 := by simp [Ctx.gather, allLanes]
    unfold Ctx.scan
    simp only [show inINT c.etype = false from hi, Bool.false_eq_true, if_false]
    rw [st, id_]
    obtain ⟨y, y0, y1, y2, y3⟩ := scanGo_spec step excl 0 (c.gather a (isWide c.etype) ident) ident
    rw [gl] at y1 y3
    refine ⟨y, y0, fun l hl => ?_, ?_⟩
    · rw [← g l hl]; exact y1 l hl
    · rw [y3]
      congr 1
      apply List.map_congr_left
      intro l hl
      rw [g l (List.mem_range.1 hl)]

/-- What MROWRED and two forms of MROWSCL deliver (R177, R178). -/
theorem Core.rows :
(∀ (k : Core) (wide : Bool) (op r c0 n x y : Nat),
   let f := if wide then Fmt.f64 else Fmt.f32
   let step := fun x y => if op = 0 then f.add RndEnv.rne x y else f.minMax false (op != 2) false x y
   let held := fun i => if op = 3 then k.colW wide r (c0 + i) % 2 ^ (f.eb + f.mb) else k.colW wide r (c0 + i)
   let ident := if op = 0 then f.signBit true else f.signBit (op != 2) + f.infBits
   let e := fun i => if i < (if wide then 64 else 128) then (if i < n then held i else ident) else 0
   (k.poisoned r = true → k.reduceRow wide op r c0 n = (f.nanBits, Flags.none)) ∧
   (k.poisoned r = false → k.reduceRow wide op r c0 n =
     (treeAt step e (if wide then 6 else 7) 0, Flags.orAll (treeFlags step e (if wide then 6 else 7)))) ∧
   f.Sums RndEnv.rne [] [(f.decode x, f.decode y)] (rowScale f 0 x y) ∧
   f.Sums RndEnv.rne [f.decode x, f.decode y] [] (rowScale f 1 x y)) := by
  intro k wide op r c0 n x y f step held ident e
  have me : matrixEnv = RndEnv.rne := rfl
  refine ⟨fun h => ?_, fun h => ?_, ?_, ?_⟩
  · unfold Core.reduceRow; simp only [h, if_true]; rfl
  · unfold Core.reduceRow
    simp only [h, Bool.false_eq_true, if_false]
    rw [treeReduce_eq _ _ _ _ (by cases wide <;> simp), Flags.none_or]
    have st : rowStep f op = step := by
      funext x y; unfold rowStep step; rfl
    have g : (fun i => ((List.range (if wide then 64 else 128)).map (fun i =>
        if i < n then if op = 3 then k.colW wide r (c0 + i) % 2 ^ (f.eb + f.mb) else k.colW wide r (c0 + i)
        else rowIdent f op)).getD i 0) = e := by
      funext i
      rw [List.getD_eq_getElem?_getD, List.getElem?_map]
      unfold e
      by_cases hi : i < (if wide = true then 64 else 128)
      · rw [List.getElem?_eq_getElem (by simpa using hi)]
        simp [hi, held, ident, rowIdent]
      · rw [List.getElem?_eq_none (by simpa using hi)]
        simp [hi]
    change (treeAt (rowStep f op) _ _ _, Flags.orAll (treeFlags (rowStep f op) _ _)) = _
    rw [st, ← g]
  · have := f.mul_sums (by cases wide <;> decide) (by cases wide <;> rfl) RndEnv.rne x y
    rw [show RndEnv.rne.ftz = false from rfl, Fmt.read_decode, Fmt.read_decode] at this
    exact this
  · have := f.add_sums (by cases wide <;> decide) (by cases wide <;> rfl) RndEnv.rne x y
    rw [show RndEnv.rne.ftz = false from rfl, Fmt.read_decode, Fmt.read_decode] at this
    exact this

/-- The element of a product, block by block (R110 to R112). -/
theorem MDesc.elements :
(∀ (d : MDesc) (m : Memory) (i n bt x : Nat),
   let f := if d.afmt = 0 then Fmt.f64 else Fmt.f32
   let pa := fun k => mfElem m d.afmt (d.aslot * 16384 + i * d.apitch) k
   let pb := fun k => mfElem m d.bfmt (d.bslot * 16384 + bt + n * d.bpitch) k
   let va := fun k => mfVal d.afmt (pa k) (mfScale m d.afmt (d.aslot * 16384) d.ascl d.scaleBlocks i (k / 32))
   let vb := fun k => mfVal d.bfmt (pb k) (mfScale m d.bfmt (d.bslot * 16384 + bt) d.bscl d.scaleBlocks n (k / 32))
   (∀ b k, k ∈ d.blockKs b ↔ k < d.k ∧ k / mfBlock d.afmt = b) ∧ (∀ b, (d.blockKs b).Nodup) ∧
   ∃ acc : Nat → Nat, acc 0 = x ∧ d.element m i n bt x = acc d.blocks ∧ ∀ b < d.blocks,
     (mfClass d.afmt = 3 →
       let y := asInt true 32 (acc b) + ((d.blockKs b).map (fun k =>
         asInt (mfSigned d.afmt) (mfBits d.afmt) (pa k) * asInt (mfSigned d.bfmt) (mfBits d.bfmt) (pb k))).sum
       acc (b + 1) < 2 ^ 32 ∧ (d.sat = true → asInt true 32 (acc (b + 1)) = max (-2 ^ 31) (min (2 ^ 31 - 1) y)) ∧
       (d.sat = false → (acc (b + 1) : Int) = y % 2 ^ 32)) ∧
     (mfClass d.afmt ≠ 3 → ∃ fl, f.Sums RndEnv.rne [f.decode (acc b)] ((d.blockKs b).map (fun k => (va k, vb k)))
       (acc (b + 1), fl))) := by
  intro d m i n bt x f pa pb va vb
  have bp : 0 < mfBlock d.afmt := by unfold mfBlock; split_ifs <;> decide
  have mem : ∀ b k, k ∈ d.blockKs b ↔ k < d.k ∧ k / mfBlock d.afmt = b := fun b k => by
    unfold MDesc.blockKs
    simp only [List.mem_filter, List.mem_map, List.mem_range, decide_eq_true_eq]
    constructor
    · rintro ⟨⟨j, hj, rfl⟩, hk⟩
      exact ⟨hk, by rw [Nat.add_comm, Nat.add_mul_div_right _ _ bp, Nat.div_eq_of_lt hj, Nat.zero_add]⟩
    · rintro ⟨hk, rfl⟩
      exact ⟨⟨k % mfBlock d.afmt, Nat.mod_lt _ bp, by rw [Nat.mul_comm]; exact Nat.div_add_mod _ _⟩, hk⟩
  obtain ⟨acc, a0, as, ae⟩ : ∃ acc : Nat → Nat, acc 0 = x ∧ (∀ b, acc (b + 1) =
      if mfClass d.afmt = 3 then fitBits true 32 d.sat (asInt true 32 (acc b) + d.intBlock m i n bt b)
      else
        match sumVals ((d.blockKs b).map (fun k => d.product m i n bt k)) with
        | none => f.nanBits
        | some v => (f.finish RndEnv.rne [f.decode (acc b)] (Val.add false (f.decode (acc b)) v)).1) ∧
      d.element m i n bt x = acc d.blocks :=
    ⟨fun b => (List.range b).foldl (fun acc b =>
      if mfClass d.afmt = 3 then fitBits true 32 d.sat (asInt true 32 acc + d.intBlock m i n bt b)
      else
        match sumVals ((d.blockKs b).map (fun k => d.product m i n bt k)) with
        | none => f.nanBits
        | some v => (f.finish RndEnv.rne [f.decode acc] (Val.add false (f.decode acc) v)).1) x, rfl,
      fun b => foldl_range_succ _ x b, rfl⟩
  refine ⟨mem, fun b => ?_, acc, a0, ae, fun b hb => ⟨fun hc => ?_, fun hc => ?_⟩⟩
  · unfold MDesc.blockKs
    refine List.Nodup.filter _ (List.Nodup.map (fun a b h => ?_) List.nodup_range)
    simpa using h
  · intro y
    have sum : d.intBlock m i n bt b = ((d.blockKs b).map (fun k =>
        asInt (mfSigned d.afmt) (mfBits d.afmt) (pa k) * asInt (mfSigned d.bfmt) (mfBits d.bfmt) (pb k))).sum := by
      unfold MDesc.intBlock
      rw [List.sum_eq_foldl, List.foldl_map]
    have := as b
    rw [if_pos hc, sum] at this
    rw [this]
    refine ⟨fitBits_lt _ _ _ _, fun h => ?_, fun h => ?_⟩
    · rw [h, fitBits_asInt (by decide)]; rfl
    · rw [h, fitBits_wrap]
  · have ne : (d.blockKs b).map (fun k => (va k, vb k)) ≠ [] := by
      have : b * mfBlock d.afmt ∈ d.blockKs b := (mem b _).2 ⟨by
        unfold MDesc.blocks at hb
        have := (Nat.lt_div_iff_mul_lt bp).1 hb
        omega, Nat.mul_div_cancel _ bp⟩
      intro h
      rw [List.map_eq_nil_iff] at h
      rw [h] at this
      exact absurd this (List.not_mem_nil)
    have := addBlock_sums (f := f) (by unfold f; split_ifs <;> decide) (by unfold f; split_ifs <;> rfl) (f.decode (acc b)) ne
    rw [List.map_map] at this
    have h := as b
    rw [if_neg hc] at h
    rw [h]
    exact this

end Sys2Proof.Machine
end

