-- ==== Sys2Proof/Tests/Slice0.lean ====
section
/-! SUPPORT. Tests: ill-formed terms that each check refuses, a word of every opcode written out from Tables 3.1 and 3.2,
single steps on a small state, and witnesses that meet the hypotheses of every statement. -/

open Sys2Proof Sys2Proof.Machine

namespace Sys2Proof.Tests

set_option Elab.async false

/-! ### Ill-formed terms -/

/-- Codes that the instruction descriptions do not list (R137, R138, R150, R153, R156, R157, R207, R177-R179, R185, R280,
R341), and an illegal-opcode step of an assigned opcode (R54). -/
theorem test_illFormed_codes :
    Instr.wellFormed (.pset 0 2) = false ∧ Instr.wellFormed (.vote 0xC0 0 4) = false ∧
    Instr.wellFormed (.cvt 0 0 14) = false ∧ Instr.wellFormed (.unpack 0 0 4) = false ∧
    Instr.wellFormed (.gred 0 0 6) = false ∧ Instr.wellFormed (.gscan 0 0 6) = false ∧
    Instr.wellFormed (.gscan 0 0 14) = false ∧ Instr.wellFormed (.fence 5) = false ∧
    Instr.wellFormed (.fence 0x40) = false ∧ Instr.wellFormed (.fence 0x08) = false ∧
    Instr.wellFormed (.fstat 0xC0 0xC0 4) = false ∧ Instr.wellFormed (.rfence 0x13) = false ∧
    Instr.wellFormed (.mrowscl 0xC0 0 3) = false ∧ Instr.wellFormed (.mrowscl 0xC0 0 6) = false ∧
    Instr.wellFormed (.mrowscl 0xC0 0 8) = false ∧ Instr.wellFormed (.mcvt 0xC0 0xC2 0x50) = false ∧
    Instr.wellFormed (.mcvt 0xC0 0xC2 0x70) = false ∧ Instr.wellFormed (.mcvt 0xC0 0xC2 0x80) = false ∧
    Instr.wellFormed (.mdrain 0xC0 0xC2 0x20) = false ∧ Instr.wellFormed (.mrowred 0 0xC0 8) = false ∧
    Instr.wellFormed (.cancel 0xC0 4) = false ∧ Instr.wellFormed (.cntrd 0xC1 0xC0 4) = false ∧
    Instr.wellFormed (.illegalOpcode 0x10000000) = false := by
  decide +kernel

/-- Steps of a core, module, cluster or queue that the package does not have (R7, R18, R241, R290). -/
theorem test_illFormed_places :
    Instr.wellFormed (.groupTurnSwitch 160 0) = false ∧ Instr.wellFormed (.groupTurnSwitch 0 64) = false ∧
    Instr.wellFormed (.engineOpComplete 160) = false ∧ Instr.wellFormed (.mclaimGrant 160) = false ∧
    Instr.wellFormed (.mrelRelease 160) = false ∧ Instr.wellFormed (.lintelAdmit 160) = false ∧
    Instr.wellFormed (.moduleRequestArrival 0 4096 []) = false ∧ Instr.wellFormed (.forcedSelfRefresh 4096) = false ∧
    Instr.wellFormed (.selfRefreshExit 4096) = false ∧ Instr.wellFormed (.corbelSlotFilled 40 0) = false ∧
    Instr.wellFormed (.corbelSlotFilled 0 8) = false ∧ Instr.wellFormed (.lqWrWrite 0 32 0) = false ∧
    Instr.wellFormed (.launchPacketRead 0 32) = false ∧ Instr.wellFormed (.moduleControllerRestart 4096) = false ∧
    Instr.wellFormed (.windowTableLoad 4096 []) = false ∧ Instr.wellFormed (.flushed 4096 0 0 0) = false ∧
    Instr.wellFormed (.attestReportReceive 4096 0 (.nonce [])) = false := by
  decide +kernel

/-- Steps of a partition above 15 (R386). -/
theorem test_illFormed_parts :
    Instr.wellFormed (.lqWrWrite 16 0 0) = false ∧ Instr.wellFormed (.launchPacketRead 16 0) = false ∧
    Instr.wellFormed (.teamPlace 16) = false ∧ Instr.wellFormed (.launchBlocking 16 0) = false ∧
    Instr.wellFormed (.preemptRequest 16 1 1 none) = false ∧ Instr.wellFormed (.preemptRequest 0 1 4 none) = false ∧
    Instr.wellFormed (.hwPreemptTrigger 16 0) = false ∧ Instr.wellFormed (.preemptNoticeExpiry 16) = false ∧
    Instr.wellFormed (.hctlResume 16) = false ∧ Instr.wellFormed (.hctlDiscard 16) = false ∧
    Instr.wellFormed (.singleBitError 16) = false ∧ Instr.wellFormed (.uncorrectableError 16 (.stopArea 0)) = false ∧
    Instr.wellFormed (.circtlWrite .pf 16 0) = false ∧ Instr.wellFormed (.linkTgtwWrite .pf 16 0 8) = false ∧
    Instr.wellFormed (.linkRetrain .pf 16 0) = false ∧ Instr.wellFormed (.chanParkWrite .pf 16 0 true) = false ∧
    Instr.wellFormed (.pairFabreqWrite .pf 16 0 true) = false ∧ Instr.wellFormed (.planSpare 16 0 true) = false ∧
    Instr.wellFormed (.planRelease 16 0) = false ∧ Instr.wellFormed (.planRetrain 16 0) = false ∧
    Instr.wellFormed (.planShare 16 0) = false ∧ Instr.wellFormed (.planUnshare 16 0 true) = false ∧
    Instr.wellFormed (.partitionResourceWrite 16 0x1003 0) = false ∧ Instr.wellFormed (.shootdown 16 0) = false ∧
    Instr.wellFormed (.shootdownComplete 16) = false ∧ Instr.wellFormed (.flushed 0 0 16 0) = false ∧
    Instr.wellFormed (.faultQueueAck 16 0) = false ∧ Instr.wellFormed (.moduleAttest 16) = false ∧
    Instr.wellFormed (.attestReportReceive 0 16 (.report [])) = false ∧ Instr.wellFormed (.attestReportRequest 16) = false ∧
    Instr.wellFormed (.attestReportWritten 16) = false ∧ Instr.wellFormed (.hostBar2Access 16 0 0 none) = false ∧
    Instr.wellFormed (.registerWrite .pf 16 0 0) = false := by
  decide +kernel

/-- Steps of an optical part, port or sensor that the package does not have (R12, R13, R361, R475), and a write whose bytes
are not as many as its length. -/
theorem test_illFormed_optics :
    Instr.wellFormed (.slotMarker 64) = false ∧ Instr.wellFormed (.slotSetup 64 0) = false ∧
    Instr.wellFormed (.slotSetup 0 8) = false ∧ Instr.wellFormed (.slotTdown 64 0) = false ∧
    Instr.wellFormed (.slotTdown 0 8) = false ∧ Instr.wellFormed (.portSetup 8) = false ∧
    Instr.wellFormed (.portTdown 8) = false ∧ Instr.wellFormed (.flitSend 128) = false ∧
    Instr.wellFormed (.nakFlitReceive 128 0) = false ∧ Instr.wellFormed (.ackTimeout 128) = false ∧
    Instr.wellFormed (.dataFlitReceive 128 ⟨.idle, 0, 0, 0, 0, none, true⟩) = false ∧
    Instr.wellFormed (.widthChangeFlit 128 ⟨.width 8, 0, 0, 0, 0, none, true⟩) = false ∧
    Instr.wellFormed (.remapFlit 128 ⟨.remap 0 0, 0, 0, 0, 0, none, true⟩) = false ∧
    Instr.wellFormed (.clockRecoveryLoss 1024) = false ∧ Instr.wellFormed (.retrainComplete 1152 ⟨[], 0, 0⟩) = false ∧
    Instr.wellFormed (.laserLineLoss 16 0) = false ∧ Instr.wellFormed (.laserLineLoss 0 16) = false ∧
    Instr.wellFormed (.channelWakeComplete 1024 true) = false ∧ Instr.wellFormed (.channelParkComplete 1024) = false ∧
    Instr.wellFormed (.linkTgtwWrite .pf 0 128 8) = false ∧ Instr.wellFormed (.linkRetrain .pf 0 128) = false ∧
    Instr.wellFormed (.chanParkWrite .pf 0 1024 true) = false ∧ Instr.wellFormed (.pairFabreqWrite .pf 0 64 true) = false ∧
    Instr.wellFormed (.planSpare 0 1024 true) = false ∧ Instr.wellFormed (.planRelease 0 1024) = false ∧
    Instr.wellFormed (.planRetrain 0 128) = false ∧ Instr.wellFormed (.laserSample 16 0 0 0) = false ∧
    Instr.wellFormed (.laserSample 0 16 0 0) = false ∧ Instr.wellFormed (.ageingCounterSave 16 ⟨1, 0⟩) = false ∧
    Instr.wellFormed (.meshPortUp 2) = false ∧ Instr.wellFormed (.controlMeshPortDown 2) = false ∧
    Instr.wellFormed (.channelTrainTimeout 1024) = false ∧ Instr.wellFormed (.thermalSample [] 0) = false ∧
    Instr.wellFormed (.spareRingLock 1024 true) = false ∧ Instr.wellFormed (.channelTrainingComplete ⟨1024, 1, 2⟩) = false ∧
    Instr.wellFormed (.hostBar2Access 0 0 1 (some [])) = false := by
  decide +kernel

/-! ### Decoding -/

/-- Row 0 of Table 3.1: each word has its own opcode and distinct operand fields (Table 3.2). -/
theorem test_words_row0 :
    decode 0x00000000 = .ok .nop ∧
    decode 0x01FEDCBA = .ok (.mode 0xFEDCBA) ∧
    decode 0x02FEDCBA = .ok (.braAny 0xFEDCBA) ∧
    decode 0x03FEDCBA = .ok (.braAll 0xFEDCBA) ∧
    decode 0x04FEDCBA = .ok (.braz 0xFEDCBA) ∧
    decode 0x05003500 = .ok (.brx 0x35) ∧
    decode 0x06FEDCBA = .ok (.call 0xFEDCBA) ∧
    decode 0x07000000 = .ok .ret ∧
    decode 0x08000000 = .ok .exit ∧
    decode 0x09003500 = .ok (.regang 0x35) ∧
    decode 0x0A000000 = .ok .yield ∧
    decode 0x0B001500 = .ok (.mand 0x15) ∧
    decode 0x0C003500 = .ok (.mrestore 0x35) ∧
    decode 0x0DC20000 = .ok (.msave 0xC2) ∧
    decode 0x0E001500 = .ok (.mandn 0x15) ∧
    decode 0x0F00BEEF = .ok (.brk 0xBEEF) := by
  decide +kernel

/-- Row 1 of Table 3.1: each word has its own opcode and distinct operand fields (Table 3.2). -/
theorem test_words_row1 :
    decode 0x10C23591 = .ok (.add 0xC2 0x35 0x91) ∧
    decode 0x11C23591 = .ok (.sub 0xC2 0x35 0x91) ∧
    decode 0x12C23591 = .ok (.mul 0xC2 0x35 0x91) ∧
    decode 0x13C23591 = .ok (.mulh 0xC2 0x35 0x91) ∧
    decode 0x14C23591 = .ok (.mad 0xC2 0x35 0x91) ∧
    decode 0x15C23591 = .ok (.absd 0xC2 0x35 0x91) ∧
    decode 0x16C23591 = .ok (.min 0xC2 0x35 0x91) ∧
    decode 0x17C23591 = .ok (.max 0xC2 0x35 0x91) ∧
    decode 0x18C23591 = .ok (.and 0xC2 0x35 0x91) ∧
    decode 0x19C23591 = .ok (.or 0xC2 0x35 0x91) ∧
    decode 0x1AC23591 = .ok (.xor 0xC2 0x35 0x91) ∧
    decode 0x1BC23591 = .ok (.andn 0xC2 0x35 0x91) ∧
    decode 0x1CC23591 = .ok (.shl 0xC2 0x35 0x91) ∧
    decode 0x1DC23591 = .ok (.shr 0xC2 0x35 0x91) ∧
    decode 0x1EC23591 = .ok (.sar 0xC2 0x35 0x91) ∧
    decode 0x1FC23591 = .ok (.rotl 0xC2 0x35 0x91) := by
  decide +kernel

/-- Row 2 of Table 3.1: each word has its own opcode and distinct operand fields (Table 3.2). -/
theorem test_words_row2 :
    decode 0x20C23591 = .ok (.addi 0xC2 0x35 0x91) ∧
    decode 0x21C23591 = .ok (.shli 0xC2 0x35 0x91) ∧
    decode 0x22C23591 = .ok (.shri 0xC2 0x35 0x91) ∧
    decode 0x23C23591 = .ok (.sari 0xC2 0x35 0x91) ∧
    decode 0x24C23591 = .ok (.andi 0xC2 0x35 0x91) ∧
    decode 0x25C23591 = .ok (.ori 0xC2 0x35 0x91) ∧
    decode 0x26C2BEEF = .ok (.li 0xC2 0xBEEF) ∧
    decode 0x27C2BEEF = .ok (.lih 0xC2 0xBEEF) ∧
    decode 0x28C23500 = .ok (.clz 0xC2 0x35) ∧
    decode 0x29C23500 = .ok (.popc 0xC2 0x35) ∧
    decode 0x2AC23500 = .ok (.brev 0xC2 0x35) ∧
    decode 0x2BC23591 = .ok (.bfe 0xC2 0x35 0x91) ∧
    decode 0x2CC23591 = .ok (.bfi 0xC2 0x35 0x91) ∧
    decode 0x2DC23500 = .ok (.mov 0xC2 0x35) ∧
    decode 0x2EC23500 = .ok (.neg 0xC2 0x35) ∧
    decode 0x2FC23500 = .ok (.abs 0xC2 0x35) := by
  decide +kernel

/-- Row 3 of Table 3.1: each word has its own opcode and distinct operand fields (Table 3.2). -/
theorem test_words_row3 :
    decode 0x302A3591 = .ok (.cmpEq 0x2A 0x35 0x91) ∧
    decode 0x312A3591 = .ok (.cmpNe 0x2A 0x35 0x91) ∧
    decode 0x322A3591 = .ok (.cmpLt 0x2A 0x35 0x91) ∧
    decode 0x332A3591 = .ok (.cmpLe 0x2A 0x35 0x91) ∧
    decode 0x342A3591 = .ok (.cmpGt 0x2A 0x35 0x91) ∧
    decode 0x352A3591 = .ok (.cmpGe 0x2A 0x35 0x91) ∧
    decode 0x362A3591 = .ok (.cmpUn 0x2A 0x35 0x91) ∧
    decode 0x37EA3591 = .ok (.cmpi 0x3 0x2A 0x35 0x91) ∧
    decode 0x382A1533 = .ok (.pand 0x2A 0x15 0x33) ∧
    decode 0x392A1533 = .ok (.por 0x2A 0x15 0x33) ∧
    decode 0x3A2A1533 = .ok (.pxor 0x2A 0x15 0x33) ∧
    decode 0x3B2A1500 = .ok (.pnot 0x2A 0x15) ∧
    decode 0x3C2A1500 = .ok (.pmov 0x2A 0x15) ∧
    decode 0x3D2A0001 = .ok (.pset 0x2A 0x1) ∧
    decode 0x3EC21503 = .ok (.vote 0xC2 0x15 0x3) ∧
    decode 0x3F2A3500 = .ok (.pfrom 0x2A 0x35) := by
  decide +kernel

/-- Row 4 of Table 3.1: each word has its own opcode and distinct operand fields (Table 3.2). -/
theorem test_words_row4 :
    decode 0x40C23591 = .ok (.fadd 0xC2 0x35 0x91) ∧
    decode 0x41C23591 = .ok (.fsub 0xC2 0x35 0x91) ∧
    decode 0x42C23591 = .ok (.fmul 0xC2 0x35 0x91) ∧
    decode 0x43C23591 = .ok (.fma 0xC2 0x35 0x91) ∧
    decode 0x44C23591 = .ok (.fms 0xC2 0x35 0x91) ∧
    decode 0x45C23591 = .ok (.fmin 0xC2 0x35 0x91) ∧
    decode 0x46C23591 = .ok (.fmax 0xC2 0x35 0x91) ∧
    decode 0x47C23591 = .ok (.fminnm 0xC2 0x35 0x91) ∧
    decode 0x48C23591 = .ok (.fmaxnm 0xC2 0x35 0x91) ∧
    decode 0x49C23500 = .ok (.fabs 0xC2 0x35) ∧
    decode 0x4AC23500 = .ok (.fneg 0xC2 0x35) ∧
    decode 0x4BC23500 = .ok (.frcp 0xC2 0x35) ∧
    decode 0x4CC23500 = .ok (.frsq 0xC2 0x35) ∧
    decode 0x4DC23500 = .ok (.fsqrt 0xC2 0x35) ∧
    decode 0x4EC23591 = .ok (.fdiv 0xC2 0x35 0x91) ∧
    decode 0x4FC23500 = .ok (.fexp2 0xC2 0x35) := by
  decide +kernel

/-- Row 5 of Table 3.1: each word has its own opcode and distinct operand fields (Table 3.2). -/
theorem test_words_row5 :
    decode 0x50C23500 = .ok (.flog2 0xC2 0x35) ∧
    decode 0x51C23500 = .ok (.fsin 0xC2 0x35) ∧
    decode 0x52C23500 = .ok (.fcos 0xC2 0x35) ∧
    decode 0x53C23591 = .ok (.fscale 0xC2 0x35 0x91) ∧
    decode 0x54C23500 = .ok (.frnd 0xC2 0x35) ∧
    decode 0x55C23500 = .ok (.fclass 0xC2 0x35) ∧
    decode 0x56C23500 = .ok (.ftanh 0xC2 0x35) ∧
    decode 0x57C23500 = .ok (.fsigm 0xC2 0x35) ∧
    decode 0x58C2350D = .ok (.cvt 0xC2 0x35 0xD) ∧
    decode 0x59C23591 = .ok (.cvtb 0xC2 0x35 0x91) ∧
    decode 0x5AC23591 = .ok (.pack 0xC2 0x35 0x91) ∧
    decode 0x5BC23503 = .ok (.unpack 0xC2 0x35 0x3) ∧
    decode 0x5CC23591 = .ok (.dot2 0xC2 0x35 0x91) ∧
    decode 0x5DC23591 = .ok (.dot4 0xC2 0x35 0x91) ∧
    decode 0x5EC23591 = .ok (.fcmpx 0xC2 0x35 0x91) := by
  decide +kernel

/-- Row 6 of Table 3.1: each word has its own opcode and distinct operand fields (Table 3.2). -/
theorem test_words_row6 :
    decode 0x60C23591 = .ok (.perm 0xC2 0x35 0x91) ∧
    decode 0x61C23591 = .ok (.shflXor 0xC2 0x35 0x91) ∧
    decode 0x62C23591 = .ok (.shflUp 0xC2 0x35 0x91) ∧
    decode 0x63C23591 = .ok (.shflDown 0xC2 0x35 0x91) ∧
    decode 0x64C23505 = .ok (.gred 0xC2 0x35 0x5) ∧
    decode 0x65C2350D = .ok (.gscan 0xC2 0x35 0xD) ∧
    decode 0x66C23591 = .ok (.bcast 0xC2 0x35 0x91) ∧
    decode 0x68C23591 = .ok (.ld 0xC2 0x35 0x91) ∧
    decode 0x69C23591 = .ok (.st 0xC2 0x35 0x91) ∧
    decode 0x6AC23591 = .ok (.ldv 0xC2 0x35 0x91) ∧
    decode 0x6BC23591 = .ok (.stv 0xC2 0x35 0x91) ∧
    decode 0x6CC23591 = .ok (.lr 0xC2 0x35 0x91) ∧
    decode 0x6DC23591 = .ok (.sc 0xC2 0x35 0x91) ∧
    decode 0x6EC23591 = .ok (.atomAdd 0xC2 0x35 0x91) ∧
    decode 0x6FC23591 = .ok (.atomMin 0xC2 0x35 0x91) := by
  decide +kernel

/-- Row 7 of Table 3.1: each word has its own opcode and distinct operand fields (Table 3.2). -/
theorem test_words_row7 :
    decode 0x70C23591 = .ok (.atomMax 0xC2 0x35 0x91) ∧
    decode 0x71C23591 = .ok (.atomAnd 0xC2 0x35 0x91) ∧
    decode 0x72C23591 = .ok (.atomOr 0xC2 0x35 0x91) ∧
    decode 0x73C23591 = .ok (.atomXor 0xC2 0x35 0x91) ∧
    decode 0x74C23591 = .ok (.atomExch 0xC2 0x35 0x91) ∧
    decode 0x75C23591 = .ok (.atomCas 0xC2 0x35 0x91) ∧
    decode 0x76C23591 = .ok (.atomFadd 0xC2 0x35 0x91) ∧
    decode 0x77000034 = .ok (.fence 0x34) ∧
    decode 0x78C23591 = .ok (.ldt 0xC2 0x35 0x91) ∧
    decode 0x79C23591 = .ok (.tagset 0xC2 0x35 0x91) ∧
    decode 0x7A003500 = .ok (.taginv 0x35) ∧
    decode 0x7BC23591 = .ok (.ldvs 0xC2 0x35 0x91) ∧
    decode 0x7CC23591 = .ok (.stvs 0xC2 0x35 0x91) ∧
    decode 0x7DC23591 = .ok (.ldp 0xC2 0x35 0x91) ∧
    decode 0x7EC23591 = .ok (.stp 0xC2 0x35 0x91) := by
  decide +kernel

/-- Row 8 of Table 3.1: each word has its own opcode and distinct operand fields (Table 3.2). -/
theorem test_words_row8 :
    decode 0x80003591 = .ok (.fget 0x35 0x91) ∧
    decode 0x81003591 = .ok (.fput 0x35 0x91) ∧
    decode 0x82003591 = .ok (.fcopy 0x35 0x91) ∧
    decode 0x83003591 = .ok (.fred 0x35 0x91) ∧
    decode 0x84003591 = .ok (.ffill 0x35 0x91) ∧
    decode 0x85003591 = .ok (.fwalk 0x35 0x91) ∧
    decode 0x86003591 = .ok (.frule 0x35 0x91) ∧
    decode 0x87003591 = .ok (.fmcast 0x35 0x91) ∧
    decode 0x88003591 = .ok (.mcrecv 0x35 0x91) ∧
    decode 0x89003500 = .ok (.tagwaitAny 0x35) ∧
    decode 0x8A003500 = .ok (.tagwaitAll 0x35) ∧
    decode 0x8BC23500 = .ok (.tagff 0xC2 0x35) ∧
    decode 0x8C003500 = .ok (.tagrel 0x35) ∧
    decode 0x8DC23591 = .ok (.chunkt 0xC2 0x35 0x91) ∧
    decode 0x8E003591 = .ok (.winset 0x35 0x91) ∧
    decode 0x8FC23503 = .ok (.fstat 0xC2 0x35 0x3) := by
  decide +kernel

/-- Row 9 of Table 3.1: each word has its own opcode and distinct operand fields (Table 3.2). -/
theorem test_words_row9 :
    decode 0x90C23591 = .ok (.rld 0xC2 0x35 0x91) ∧
    decode 0x91C23591 = .ok (.rst 0xC2 0x35 0x91) ∧
    decode 0x92C23591 = .ok (.ratomAdd 0xC2 0x35 0x91) ∧
    decode 0x93C23591 = .ok (.ratomCas 0xC2 0x35 0x91) ∧
    decode 0x94C23591 = .ok (.ratomFadd 0xC2 0x35 0x91) ∧
    decode 0x95000024 = .ok (.rfence 0x24) ∧
    decode 0x96003591 = .ok (.coll 0x35 0x91) ∧
    decode 0x97C23500 = .ok (.collq 0xC2 0x35) ∧
    decode 0x98003591 = .ok (.qsend 0x35 0x91) ∧
    decode 0x99C23500 = .ok (.qstat 0xC2 0x35) ∧
    decode 0x9AC20000 = .ok (.cslot 0xC2) := by
  decide +kernel

/-- Row A of Table 3.1: each word has its own opcode and distinct operand fields (Table 3.2). -/
theorem test_words_rowA :
    decode 0xA0003500 = .ok (.mclaim 0x35) ∧
    decode 0xA1003500 = .ok (.mrel 0x35) ∧
    decode 0xA2C23591 = .ok (.mload 0xC2 0x35 0x91) ∧
    decode 0xA3003591 = .ok (.mma 0x35 0x91) ∧
    decode 0xA4003591 = .ok (.mmag 0x35 0x91) ∧
    decode 0xA5003500 = .ok (.mzero 0x35) ∧
    decode 0xA6C23591 = .ok (.mrd 0xC2 0x35 0x91) ∧
    decode 0xA7C23591 = .ok (.mwr 0xC2 0x35 0x91) ∧
    decode 0xA8C23505 = .ok (.mrowscl 0xC2 0x35 0x5) ∧
    decode 0xA9C2356F = .ok (.mcvt 0xC2 0x35 0x6F) ∧
    decode 0xAAC2351F = .ok (.mdrain 0xC2 0x35 0x1F) ∧
    decode 0xABC23591 = .ok (.mfill 0xC2 0x35 0x91) ∧
    decode 0xACC23500 = .ok (.mstat 0xC2 0x35) ∧
    decode 0xADC23507 = .ok (.mrowred 0xC2 0x35 0x7) := by
  decide +kernel

/-- Row B of Table 3.1: each word has its own opcode and distinct operand fields (Table 3.2). -/
theorem test_words_rowB :
    decode 0xB0C23591 = .ok (.barinit 0xC2 0x35 0x91) ∧
    decode 0xB1C23500 = .ok (.bararr 0xC2 0x35) ∧
    decode 0xB2C23500 = .ok (.barwait 0xC2 0x35) ∧
    decode 0xB3C23500 = .ok (.bartest 0xC2 0x35) ∧
    decode 0xB4C23500 = .ok (.barbytes 0xC2 0x35) ∧
    decode 0xB5C23591 = .ok (.wany 0xC2 0x35 0x91) ∧
    decode 0xB6003500 = .ok (.evmask 0x35) ∧
    decode 0xB7003500 = .ok (.evclr 0x35) ∧
    decode 0xB8C20000 = .ok (.evget 0xC2) ∧
    decode 0xB9C23591 = .ok (.mbsend 0xC2 0x35 0x91) ∧
    decode 0xBAC23500 = .ok (.mbrecv 0xC2 0x35) ∧
    decode 0xBBC20000 = .ok (.kinc 0xC2) ∧
    decode 0xBCC23500 = .ok (.kwaitle 0xC2 0x35) ∧
    decode 0xBDC23500 = .ok (.krd 0xC2 0x35) ∧
    decode 0xBE003500 = .ok (.deadl 0x35) ∧
    decode 0xBF003500 = .ok (.workget 0x35) := by
  decide +kernel

/-- Row C of Table 3.1: each word has its own opcode and distinct operand fields (Table 3.2). -/
theorem test_words_rowC :
    decode 0xC0003500 = .ok (.launch 0x35) ∧
    decode 0xC1003503 = .ok (.cancel 0x35 0x3) ∧
    decode 0xC2C23503 = .ok (.cntrd 0xC2 0x35 0x3) := by
  decide +kernel

/-- Row F of Table 3.1: each word has its own opcode and distinct operand fields (Table 3.2). -/
theorem test_words_rowF :
    decode 0xF0C2BEEF = .ok (.sysrd 0xC2 0xBEEF) ∧
    decode 0xF1C2BEEF = .ok (.syswr 0xC2 0xBEEF) ∧
    decode 0xF200BEEF = .ok (.trap 0xBEEF) ∧
    decode 0xF3000000 = .ok .tret ∧
    decode 0xF4003500 = .ok (.tsave 0x35) ∧
    decode 0xF5003500 = .ok (.tload 0x35) ∧
    decode 0xF6C20000 = .ok (.acrrd 0xC2) ∧
    decode 0xF7003500 = .ok (.acrwr 0x35) ∧
    decode 0xF8000000 = .ok .halt ∧
    decode 0xF9003500 = .ok (.ctxsv 0x35) ∧
    decode 0xFA003500 = .ok (.tlbinv 0x35) := by
  decide +kernel

/-- Words that are no instruction: the first and last unassigned opcodes, all ones, a nonzero reserved field, the reserved bits
of a predicate field, and a code that is not listed (R54, R56). -/
theorem test_words_refused :
    decode 0x5F000000 = .error .illegalOpcode ∧ decode 0xFFFFFFFF = .error .illegalOpcode ∧
    decode 0x9B000000 = .error .illegalOpcode ∧ decode 0xC3000000 = .error .illegalOpcode ∧
    decode 0x00000001 = .error .illegalEncoding ∧ decode 0x28C0C101 = .error .illegalEncoding ∧
    decode 0x30400102 = .error .illegalEncoding ∧ decode 0x3D000002 = .error .illegalEncoding ∧
    decode 0xF2010000 = .error .illegalEncoding := by
  decide +kernel

/-- A word stands little-endian at the PC: the byte there holds bits 7 to 0 (R53). -/
theorem test_words_littleEndian :
    decodeBytes [0x03, 0x02, 0xC6, 0x3E, 0xAA] = some (.ok (.vote 0xC6 2 3), [0xAA]) := by
  decide +kernel

/-! ### A small state -/

/-- The package READY, with one team of one gang at 0x10000 (log 2), and nothing on the agenda. -/
def base : State := { State.reset.placeWord 0 with agenda := [] }

/-- Its gang. -/
def g0 : Gang := Gang.start (placedLaunch 1) 2 0 0 0 0 0

/-- MR copies of type t, rounding r, guard p and CAD d in every slice. -/
def typed (t r p d : Nat) (g : Gang) : Gang :=
  { g with mr := allSlices.map (fun sl => (sl, BitVec.ofNat 24 (p * 2 ^ 18 + t * 2 ^ 13 + r * 2 ^ 10 + d))) }

/-- Elements written at once. -/
def wr (ws : List (RegElem × Word)) (g : Gang) : Gang := g.writeNow ws

/-- The gang g holds the issue slot of s with its one group. -/
def on (s : State) (g : Gang) : State := { s.putGang 3 g with cur := some ⟨3, 0xFF⟩ }

/-- What a meaning sees then. -/
def cx (s : State) (g : Gang) : Ctx := ⟨on s g, 3, g, { slices := 0xFF, pc := 0x10000, park := none, since := 0 }⟩

/-- Executing i gives a next state of which f holds. -/
def gives (i : Instr) (s : State) (f : State → Bool) : Bool := match exec i s with
  | .next t => f t
  | _ => false

/-- The gang in t satisfies f. -/
def gangOf (t : State) (f : Gang → Bool) : Bool := match t.gang? 3 with
  | some g => f g
  | none => false

/-- Executing i for g gives a gang of which f holds. -/
def runs (i : Instr) (g : Gang) (f : Gang → Bool) : Bool := gives i (on base g) (fun t => gangOf t f)

theorem test_base_gang : base.gang? 3 = some g0 := by decide +kernel

theorem test_base_issues : (on base g0).issuing = some (cx base g0) := by decide +kernel

/-! ### Single steps -/

/-- ADD wraps under rne and saturates under sat (R96, R127). -/
theorem test_add_wraps :
    runs (.add 0xC2 0xC0 0xC1) (wr [(.s 0, 0x7FFFFFFF), (.s 1, 1)] g0) (fun g => g.settled (.s 2) == 0x80000000) ∧
    runs (.add 0xC2 0xC0 0xC1) (typed 4 6 63 0 (wr [(.s 0, 0x7FFFFFFF), (.s 1, 1)] g0))
      (fun g => g.settled (.s 2) == 0x7FFFFFFF) := by decide +kernel

/-- MULH of −1 and −1 is 0, of two large unsigned values the upper half (R127). -/
theorem test_mulh :
    runs (.mulh 0xC2 0xC0 0xC0) (wr [(.s 0, 0xFFFFFFFF)] g0) (fun g => g.settled (.s 2) == 0) ∧
    runs (.mulh 0xC2 0xC0 0xC0) (typed 5 0 63 0 (wr [(.s 0, 0xFFFFFFFF)] g0)) (fun g => g.settled (.s 2) == 0xFFFFFFFE) := by
  decide +kernel

/-- SAR by 32 or more copies bit 31, SHL gives 0, ROTL counts modulo 32 (R128). -/
theorem test_shifts_full :
    runs (.sar 0xC2 0xC0 0xC1) (wr [(.s 0, 0x80000000), (.s 1, 32)] g0) (fun g => g.settled (.s 2) == 0xFFFFFFFF) ∧
    runs (.shl 0xC2 0xC0 0xC1) (wr [(.s 0, 1), (.s 1, 32)] g0) (fun g => g.settled (.s 2) == 0) ∧
    runs (.rotl 0xC2 0xC0 0xC1) (wr [(.s 0, 0x80000001), (.s 1, 33)] g0) (fun g => g.settled (.s 2) == 3) := by
  decide +kernel

/-- The examples of R132: BFE under s32. -/
theorem test_bfe_examples :
    runs (.bfe 2 1 0xC3) (wr [(.s 3, 0x408), (.v 1 5, 0xF300), (.v 1 6, 0xF00)] g0)
      (fun g => g.settled (.v 2 5) == 3 && g.settled (.v 2 6) == 0xFFFFFFFF) := by decide +kernel

/-- LIH keeps the low half of what d held (R130). -/
theorem test_lih : runs (.lih 0xC0 0x1234) (wr [(.s 0, 0xAAAA5678)] g0) (fun g => g.settled (.s 0) == 0x12345678) := by
  decide +kernel

/-- The example of R139: VOTE.count, VOTE.ballot and PFROM with p2 set in lanes 1, 2, 6, 9 and 30. -/
theorem test_vote_example :
    let g := [1, 2, 6, 9, 30].foldl (fun g l => wr [(.p 2 l, 1)] g) g0
    runs (.vote 0xC6 2 3) g (fun g => g.settled (.s 6) == 5) ∧
    runs (.vote 0xC7 2 2) g (fun g => g.settled (.s 7) == 0x40000246) ∧
    runs (.pfrom 3 0xC7) (wr [(.s 7, 0x40000246)] g0)
      (fun g => g.settled (.p 3 30) == 1 && g.settled (.p 3 29) == 0 && g.settled (.p 3 1) == 1) := by decide +kernel

/-- A result of latency 4 is not read by the next word with CAD 0, and is with CAD 3 (R72). -/
theorem test_latency :
    runs (.add 0xC2 0xC0 0xC0) (wr [(.s 0, 1)] g0) (fun g => g.elem (.s 2) == 0) ∧
    runs (.add 0xC2 0xC0 0xC0) (typed 4 0 63 3 (wr [(.s 0, 1)] g0)) (fun g => g.elem (.s 2) == 2) := by decide +kernel

/-- Compares of a float with a quiet NaN: ne is true and lt false; lt sets NV (R134). -/
theorem test_compare_nan :
    let g := typed 10 0 63 0 (wr [(.s 0, 0x7FC00000), (.s 1, 0x3F800000)] g0)
    runs (.cmpNe 1 0xC0 0xC1) g (fun g => g.settled (.p 1 0) == 1 && g.acr == 0) ∧
    runs (.cmpLt 1 0xC0 0xC1) g (fun g => g.settled (.p 1 0) == 0 && g.acr == 1) := by decide +kernel

/-- 1 + 2 = 3, 1 / 0 = +∞ and (−1) × 0 = −0 in f32 (R140, R144). -/
theorem test_float_arithmetic :
    let g := typed 10 0 63 0 (wr [(.s 0, 0x3F800000), (.s 1, 0x40000000), (.s 2, 0), (.s 3, 0xBF800000)] g0)
    runs (.fadd 0xC4 0xC0 0xC1) g (fun g => g.settled (.s 4) == 0x40400000) ∧
    runs (.fdiv 0xC4 0xC0 0xC2) g (fun g => g.settled (.s 4) == 0x7F800000) ∧
    runs (.fmul 0xC4 0xC3 0xC2) g (fun g => g.settled (.s 4) == 0x80000000) := by decide +kernel

/-- FSQRT of 4 is 2; CVT of 2.5 in f32 to s32 gives 2, to nearest even (R144, R150). -/
theorem test_sqrt_cvt :
    runs (.fsqrt 0xC1 0xC0) (typed 10 0 63 0 (wr [(.s 0, 0x40800000)] g0)) (fun g => g.settled (.s 1) == 0x40000000) ∧
    runs (.cvt 0xC1 0xC0 4) (typed 10 0 63 0 (wr [(.s 0, 0x40200000)] g0)) (fun g => g.settled (.s 1) == 2) := by
  decide +kernel

/-- DOT4 of signed bytes: 1·1 + 2·2 + 3·3 + (−1)·4 + 10 (R154). -/
theorem test_dot4 :
    runs (.dot4 0xC2 0xC0 0xC1) (typed 0 0 63 0 (wr [(.s 0, 0xFF030201), (.s 1, 0x04030201), (.s 2, 10)] g0))
      (fun g => g.settled (.s 2) == 20) := by decide +kernel

/-- SHFL.up and SHFL.down stay in their lane at the ends (R155). -/
theorem test_shuffle_ends :
    let g := wr [(.v 1 0, 10), (.v 1 31, 41), (.v 1 30, 40), (.s 0, 1)] g0
    runs (.shflUp 2 1 0xC0) g (fun g => g.settled (.v 2 0) == 10 && g.settled (.v 2 31) == 40) ∧
    runs (.shflDown 2 1 0xC0) g (fun g => g.settled (.v 2 31) == 41 && g.settled (.v 2 30) == 41) := by decide +kernel

/-- GRED.add over the lanes that take effect (R156). -/
theorem test_gred :
    runs (.gred 0xC0 1 0) (wr [(.v 1 0, 5), (.v 1 31, 7)] { g0 with emask := 0x80000000#32 })
      (fun g => g.settled (.s 0) == 7) := by decide +kernel

/-- BRA.any with p1 set in lane 4 alone parts the group: slice 1 takes the branch (R27). -/
theorem test_bra_divides :
    runs (.braAny 0x10) (typed 4 0 1 0 (wr [(.p 1 4, 1)] g0)) (fun g =>
      g.groups.map (fun x => (x.slices, x.pc)) == [(0xFD#8, 0x10004#56), (0x02#8, 0x10040#56)]) := by decide +kernel

/-- CALL leaves PC + 4 in s55, visible at once, and goes to PC − 4 (R120). -/
theorem test_call :
    runs (.call 0xFFFFFF) g0 (fun g => g.elem (.s 55) == 0x10004 &&
      g.groups.map Group.pc == [0xFFFC#56]) := by decide +kernel

/-- MAND keeps the lanes of its predicate, MSAVE reads emask (R125). -/
theorem test_masks :
    runs (.mand 1) (wr [(.p 1 4, 1)] g0) (fun g => g.emask == 0x10#32) ∧
    runs (.msave 0xC0) { g0 with emask := 0xF0#32 } (fun g => g.settled (.s 0) == 0xF0) := by decide +kernel

/-- EXIT of every lane ends the gang; of slice 0 alone leaves slices 1 to 7 (R31, R122). -/
theorem test_exit :
    runs .exit g0 (fun g => g.ended) ∧
    runs .exit { g0 with emask := 0xF#32 } (fun g => !g.ended && g.exited == 0xF#32 &&
      g.groups.map (fun x => (x.slices, x.pc)) == [(0xFE#8, 0x10004#56)]) := by decide +kernel

/-- REGANG of every slice by the one group goes on; of a dead slice traps MEMBERSHIP (R313). -/
theorem test_regang :
    runs (.regang 0xC0) (wr [(.s 0, 0xFF)] g0) (fun g => g.groups.map Group.pc == [0x10004#56]) ∧
    runs (.regang 0xC0) (wr [(.s 0, 0x0F)] g0) (fun g => g.groups.all (fun x => x.pc == 0x10000#56)) := by decide +kernel

/-- BARARR of the only gang completes the phase and latches event 0 (R319, R321). -/
theorem test_bararr :
    gives (.bararr 0 0xC0) (on base (wr [(.s 0, 0xFF)] g0)) (fun s =>
      let t := s.barrierCycle
      gangOf t (fun g => g.evpend == 1#19) && match t.team? 2 with
        | some tm => (tm.barrier 0).phase && (tm.barrier 0).arr == 0
        | none => false) := by decide +kernel

/-- The first case of Table 11.10: WANY takes b2, kept, and goes to 0x480 (R338). -/
theorem test_wany_example :
    let grp : Group := { slices := 0xFF, pc := 0x400, park := none, since := 0 }
    let g := wr [(.s 9, 0xFF), (.s 16, 0x05000010), (.s 17, 0x42400020), (.s 18, 0x58000030)]
      { g0 with evpend := 4, groups := [grp] }
    runs (.wany 0xC9 0xD0 3) g (fun g => g.settled (.s 9) == 0x4201 && g.evpend == 4#19 &&
      g.groups.map Group.pc == [0x480#56]) := by decide +kernel

/-- KWAITLE returns at a counter at its bound and parks above it; KRD reads the counter (R327, R328). -/
theorem test_counters :
    runs (.kwaitle 1 0xC0) (wr [(.s 0, 2)] (g0.putCounter 1 2)) (fun g => g.groups.map Group.pc == [0x10004#56]) ∧
    runs (.kwaitle 1 0xC0) (wr [(.s 0, 2)] (g0.putCounter 1 3)) (fun g =>
      g.groups.map Group.park == [some (.kwaitle 1 2)]) ∧
    runs (.krd 0xC0 1) (g0.putCounter 1 3) (fun g => g.settled (.s 0) == 3) := by decide +kernel

/-- A gang may send to itself: MBSEND fills its mailbox with the pair (R329). -/
theorem test_mbsend :
    runs (.mbsend 7 0xC0 0xC2) (wr [(.s 0, 0), (.s 2, 5), (.s 3, 6)] g0)
      (fun g => g.mailbox 7 == some 0x600000005#64) := by decide +kernel

/-- MBRECV empties it into the pair (R330). -/
theorem test_mbrecv :
    runs (.mbrecv 0xC2 7) (g0.putMailbox 7 (some 0x600000005#64))
      (fun g => g.mailbox 7 == none && g.settled (.s 2) == 5 && g.settled (.s 3) == 6) := by decide +kernel

/-- DEADL arms, and EVMASK keeps 27 bits (R332, R335). -/
theorem test_deadline_evmask :
    runs (.deadl 0xC0) (wr [(.s 0, 9)] g0) (fun g => g.deadline == 9) ∧
    runs (.evmask 0xC0) (wr [(.s 0, 0x7FFFFFF)] g0) (fun g => g.evmask == 0x7FFFFFF#27) := by decide +kernel

/-- The accesses to scratchpads that i puts on its way, performed in their order. -/
def padsDone (i : Instr) (s : State) (f : State → Bool) : Bool :=
  gives i s (fun t => f (t.preqs.foldl (fun a r => a.performPad r) t))

/-- ST then a read of the scratchpad: little-endian, the offset wrapped in the 1 MiB allocation and aligned down (R2, R192). -/
theorem test_store_wraps :
    padsDone (.st 0xC1 0xC0 0) (on base (wr [(.s 0, 0x00100003), (.s 1, 0x04030201)] g0)) (fun t =>
      t.padRead 2 0 0 4 == 0x04030201 && t.padRead 2 0 3 1 == 4) := by decide +kernel

/-- LD reads what lies there (R260). -/
theorem test_load :
    padsDone (.ld 0xC1 0xC0 2) (on (base.padWrite 2 0 8 4 0x1234) g0) (fun t =>
      gangOf t (fun g => g.settled (.s 1) == 0x1234)) := by decide +kernel

/-- An atomic add in the scratchpad returns the old value and stores the sum (R263). -/
theorem test_atom_add :
    padsDone (.atomAdd 1 0 0) (on (base.padWrite 2 0 0 4 5) (wr [(.v 1 0, 3)] { g0 with emask := 1 })) (fun t =>
      t.padRead 2 0 0 4 == 8 && gangOf t (fun g => g.settled (.v 1 0) == 5)) := by decide +kernel

/-- A compare-and-swap that fails stores nothing (R264). -/
theorem test_atom_cas_fails :
    padsDone (.atomCas 1 0 0) (on (base.padWrite 2 0 0 4 5) (wr [(.v 1 0, 3), (.v 2 0, 9)] { g0 with emask := 1 })) (fun t =>
      t.padRead 2 0 0 4 == 5 && gangOf t (fun g => g.settled (.v 1 0) == 5 && g.settled (.v 2 0) == 9)) := by
  decide +kernel

/-- A vault load of an unmapped page traps TRANSLATION, with the address in its lane record (R194, R415). -/
theorem test_vault_fault :
    gives (.ldvs 0xC4 0xC0 0xF8) (on (base.modPart 0 (fun p => { p with then_ := true, th := 0x20000 }))
        (wr [(.s 0, 0x08000000)] { g0 with emask := 4 })) (fun t => gangOf t (fun g =>
      g.inh && g.trap.cause == 0x11#8 && g.trap.opc == 0x10000#56 && (g.laneRecord 2).addr == 0x08000000#64 &&
      g.groups.map Group.pc == [0x20000#56])) := by decide +kernel

/-- A vault store is applied later, by the step that performs it (R204). -/
theorem test_vault_store :
    gives (.stvs 0xC4 0xC0 0xF8) (on base (wr [(.s 0, 0x40000), (.s 4, 0xCAFEF00D)] g0)) (fun t =>
      Memory.readNat t.vault 0x40000 4 == 0 && t.vreqs.length == 1 &&
      t.vreqs.all (fun r => gives (.vaultWriteApply r.id) t (fun u => Memory.readNat u.vault 0x40000 4 == 0xCAFEF00D))) := by
  decide +kernel

/-- TAGSET writes an entry, and LDT finds it by the lowest way of the key's set (R240, R268). -/
theorem test_tag_table :
    gives (.tagset 0xC2 0xC0 0xC1) (on base (wr [(.s 0, 65), (.s 1, 77), (.s 2, 5)] g0)) (fun t =>
      gangOf t (fun g => gives (.ldt 0xC3 0xC0 0xF8) (on t g) (fun u => gangOf u (fun h => h.settled (.s 3) == 77)))) ∧
    runs (.ldt 0xC3 0xC0 0xF8) g0 (fun g => g.settled (.s 3) == 0xFFFFFFFF) := by decide +kernel

/-- TRAP enters the handler with TPC at the next word; BRK with TPC at itself (R126, R416). -/
theorem test_trap_brk :
    let s := base.modPart 0 (fun p => { p with then_ := true, th := 0x20000 })
    gives (.trap 0x12) (on s g0) (fun t => gangOf t (fun g => g.inh && g.trap.cause == 0x18#8 && g.trap.imm == 0x12#16 &&
      g.trap.tpc == 0x10004#56)) ∧
    gives (.brk 7) (on s g0) (fun t => gangOf t (fun g => g.trap.cause == 0x19#8 && g.trap.tpc == 0x10000#56)) := by
  decide +kernel

/-- TRET outside handler mode traps ILLEGAL_ENCODING; after a TRAP it goes on at TPC (R417). -/
theorem test_tret :
    let s := base.modPart 0 (fun p => { p with then_ := true, th := 0x20000 })
    gives .tret (on s g0) (fun t => gangOf t (fun g => g.trap.cause == 0x02#8)) ∧
    gives (.trap 0) (on s g0) (fun t => gives .tret t (fun u => gangOf u (fun g => !g.inh &&
      g.groups.map Group.pc == [0x10004#56]))) := by decide +kernel

/-- A trap without a handler stops its team, and its launch will complete with STOPPED (R413). -/
theorem test_trap_no_handler :
    gives (.brk 0) (on base g0) (fun t => !(t.part 0).halted && (match t.team? 2 with
      | some tm => tm.status == .stopped
      | none => true) && match t.launch? 1 with
      | some l => l.stopped
      | none => false) := by decide +kernel

/-- HALT from a gang that is not privileged traps PRIVILEGED (R392). -/
theorem test_halt_privilege :
    let s := (base.modPart 0 (fun p => { p with then_ := true, th := 0x20000 })).modTeam 2 (fun tm => { tm with priv := false })
    gives .halt (on s g0) (fun t => gangOf t (fun g => g.trap.cause == 0x04#8)) ∧
    gives .halt (on base g0) (fun t => (t.part 0).halted) := by decide +kernel

/-- ACRWR keeps the bits of 0xFFFF_011F (R109); SYSRD of PART reads the partition (R393). -/
theorem test_acr_sysrd :
    runs (.acrwr 0xC0) (wr [(.s 0, 0xFFFFFFFF)] g0) (fun g => g.acr == 0xFFFF011F#32) ∧
    runs (.sysrd 0xC0 0x1000) g0 (fun g => g.settled (.s 0) == 0) := by decide +kernel

/-- MCLAIM of free units holds them, and MREL gives them back (R160, R163). -/
theorem test_claim :
    gives (.mclaim 0xC0) (on base (wr [(.s 0, 0x80000000), (.s 1, 1)] g0)) (fun t =>
      (t.core 0).slotHolder 31 == some 2 && (t.core 0).blockHolder 0 == some 2 && (t.core 0).slotHolder 0 == none) := by
  decide +kernel

/-- FWALK of a tag that is free makes it BUSY (R228); TAGFF with none READY gives all ones (R277). -/
theorem test_tags :
    runs (.tagff 0xC4 0xC0) (wr [(.s 0, 0xFFFFFFFF), (.s 1, 0xFFFFFFFF)] g0) (fun g => g.settled (.s 4) == 0xFFFFFFFF) ∧
    runs (.tagwaitAll 0xC0) (wr [(.s 0, 0xFFFFFFFF)] g0) (fun g => g.groups.map Group.pc == [0x10004#56]) := by decide +kernel

/-- The deadline latches event 18 and disarms when its cycles have passed (R332). -/
theorem test_deadline_expires :
    let due : Gang := { g0 with deadline := 5 }
    (g0.deadlineFalls 5).deadline = 0 ∧ (due.deadlineFalls 4).deadline = 1 ∧
    (due.deadlineFalls 5).deadline = 0 ∧ (due.deadlineFalls 5).evpend = 0x40000#19 := by decide +kernel

/-- A slot marker below NSLOT starts its slot in guard (R365). -/
theorem test_slot_marker :
    gives (.slotMarker 0) State.reset (fun t => t.rot.guard && t.rot.sync && t.rot.slot == 0) ∧
    gives (.slotMarker 1) State.reset (fun t => t.rot.resync && !t.rot.guard) := by decide +kernel

/-- The package READY, with nothing in it. -/
def idle : State := { State.reset with house := { State.reset.house with phase := 5 } }

/-- PS1 is entered only when nothing runs, and asked for once the host reaches the register (R469, R473); above 105 °C the halt lines rise (R475). -/
theorem test_power :
    gives (.powerStateRequest 1) base (fun t => t.house.ref && t.house.entering == none) ∧
    gives (.powerStateRequest 1) idle (fun t => t.house.entering == some 1#2) ∧
    gives (.powerStateRequest 1) State.reset (fun t => t.house.entering == none) ∧
    gives (.thermalSample [211, 0, 0, 0, 0] 100) base (fun t => t.house.hot && (t.part 15).halted) ∧
    gives (.thermalSample [210, 0, 0, 0, 0] 100) base (fun t => !t.house.hot && !(t.part 15).halted) := by decide +kernel

/-- A flit taken in order advances the expected FSEQ; one out of order is discarded with a NAK owed (R433, R434). -/
theorem test_flits :
    let s := State.reset.putLink 0 { (State.reset.link 0) with state := .up }
    let f : Flit := ⟨.data, 0, 0, 0, 0, some (.reply ⟨1, false, []⟩), true⟩
    gives (.dataFlitReceive 0 f) s (fun t => (t.link 0).expect == 1#12 && t.inbound.length == 1) ∧
    gives (.dataFlitReceive 0 { f with fseq := 1 }) s (fun t => (t.link 0).expect == 0#12 && (t.link 0).nakOwed) := by
  decide +kernel

/-! ### Witnesses: states and operands that meet the hypotheses of the statements -/

/-- What the meaning of a word sees when g issues in the base state. -/
def c (g : Gang) : Ctx := cx base g

/-- A package whose agenda lets sub-core 0, and so its one gang, issue the word w. -/
def ready (w : Nat) : State := { State.reset.placeWord w with agenda := [.issues [0]] }

/-- The same with the gang's one group at pc. -/
def readyAt (pc : VAddr) : State :=
  (ready 0).putGang 3 { g0 with groups := [{ slices := 0xFF, pc := pc, park := none, since := 0 }] }

/-- Sub-core 0 picks the group of every slice, its word belongs to part p of the cycle, where it may issue, and f holds of what
it fetches there. -/
def fetches (s : State) (p : Nat) (f : Except Byte (BitVec 32) → Bool) : Bool :=
  let b := { s with agenda := [] }.begun
  let noon := b.barrierCycle
  let u := if p ≤ 1 then b else if p = 2 then noon else noon.evening
  let s1 := u.beginIssue 3 0xFF
  b.pick 0 == some (3, 0xFF, p) && u.mayIssueAs 3 0xFF &&
  match s1.issuing with
  | none => false
  | some c => f (s1.fetchWord c.part c.pc) && match s1.execNext with
    | .next t => !u.stalledIn 3 (u.endIssue t 3 0xFF)
    | _ => false

/-- StepRunsTheDecodedInstruction: a word of each part of a cycle (a BARINIT, an ADD, a BARTEST, a WANY), an unassigned opcode,
a reserved field, an unmapped page; and the other heads of an agenda. -/
theorem test_w_step :
    fetches (ready 0xB000C0C1) 0 (fun r => r == .ok 0xB000C0C1) ∧ decode 0xB000C0C1 = .ok (.barinit 0 0xC0 0xC1) ∧
    fetches (ready 0x10C2C0C1) 1 (fun r => r == .ok 0x10C2C0C1) ∧ decode 0x10C2C0C1 = .ok (.add 0xC2 0xC0 0xC1) ∧
    fetches (ready 0xB3C20000) 2 (fun r => r == .ok 0xB3C20000) ∧ decode 0xB3C20000 = .ok (.bartest 0xC2 0) ∧
    fetches (ready 0xB5C9D003) 3 (fun r => r == .ok 0xB5C9D003) ∧ decode 0xB5C9D003 = .ok (.wany 0xC9 0xD0 3) ∧
    fetches (ready 0xFF000000) 1 (fun r => r == .ok 0xFF000000) ∧ decode 0xFF000000 = .error .illegalOpcode ∧
    fetches (ready 1) 1 (fun r => r == .ok 1) ∧ decode 1 = .error .illegalEncoding ∧
    fetches (readyAt 0x4000000) 1 (fun r => r == .error Cause.translation) ∧ isWord .scrub = false ∧ isWord .nop = true ∧
    base.agenda = [] := by decide +kernel

/-- StepRunsTheDecodedInstruction: a sub-core with no group that is ready, and a gang whose group waits. -/
theorem test_w_step_idle :
    let b := { ready 0x10C2C0C1 with agenda := [] }.begun
    let waiting := { (ready 0).putGang 3 ({ g0 with
      groups := [{ slices := 0xFF, pc := 0x10000, park := some (.kwaitle 0 0), since := 0 }], k := [(0, 1)] }) with agenda := [] }.begun
    b.pick 1 = none ∧ (∀ x ∈ b.issueOrder 1, b.ready x.1 x.2 = false) ∧ waiting.pick 0 = none ∧
    waiting.mayIssueAs 3 0xFF = false ∧ b.mayIssueAs 3 0xFF = true := by decide +kernel

/-- DecodeAndEncodeAgree: every field at its highest value. -/
theorem test_w_encode :
    Instr.wellFormed (.cmpi 3 63 0xFF 0xFF) = true ∧ encode (.cmpi 3 63 0xFF 0xFF) = some 0x37FFFFFF ∧
    decode 0x37FFFFFF = .ok (.cmpi 3 63 0xFF 0xFF) := by decide +kernel

/-- StepsKeepTheSoundForms: the machine right after reset steps. -/
theorem test_w_sound : State.reset.vaultSound ∧ State.reset.powerSound ∧ ∃ t, step State.reset = .next t :=
  ⟨rfl, ⟨by decide, by decide⟩, _, rfl⟩

/-- ResultsAppearAtTheirLatency: an element of each kind in the last lane, one cycle too early and in time; a word that leaves
a result on its way. -/
theorem test_w_latency :
    0 < 4 ∧ g0.pend = [] ∧ (0xFF : SliceMask).getLsbD (sliceOf 31) = true ∧ (0xFF : SliceMask) ≠ 0 ∧ (1 : Word).toNat ≤ 1 ∧
    [1, 2].sum < 4 ∧ 4 ≤ [1, 3].sum ∧
    1 + Mr.cad (c g0).mr < 2 ∧ (c g0).takers.length = 32 ∧ (c g0).actives ≠ [] ∧
    runs (.add 0 1 2) g0 (fun g => g.pend.length == 32 && g.groups == (c g0).groupsAt 0x10004) ∧
      runs (.frcp 0xC1 0xC0) (typed 10 0 63 0 g0) (fun g => g.pend.length == 1) ∧
    runs (.cmpEq 1 0 1) g0 (fun g => g.pend.length == 32) ∧ runs (.gred 0xC0 1 0) g0 (fun g => g.pend.length == 1) ∧
    runs (.fadd 0 1 2) (typed 10 0 63 0 g0) (fun g => g.pend.length == 32) := by decide +kernel

/-- IntegerArithmeticResults, IntegerLogicAndShiftResults: 32-bit vectors, and 64-bit pairs at the last of the registers. -/
theorem test_w_integer :
    (c g0).dataStop (inINT 4) true 191 false false [(0, false)] [(1, false)] = none ∧
    (c g0).dataStop (inINT 4) true 191 false true [(0, false)] [(1, false)] = none ∧
    (c (typed 7 0 63 0 g0)).dataStop (inINT 7) true 0xF6 true false [(0xC0, true)] [(0xC2, true)] = none ∧
    (c (typed 7 0 63 0 g0)).dataStop (inINT 7) true 190 true true [(0, true)] [(0xC2, true)] = none ∧
    (c (typed 7 0 63 0 g0)).dataStop (inINT 7) true 190 true false [(0, true)] [(0xF7, false)] = none := by decide +kernel

/-- ImmediateUnaryAndFieldResults: each of its conditions. -/
theorem test_w_immediate :
    (c g0).dataStop (inINT 4) true 191 false false [(0, false)] [] = none ∧
    (c g0).dataStop true true 0xF7 false false [] [] = none ∧ (c g0).dataStop true true 0xF7 false true [] [] = none ∧
    (c (typed 15 0 63 0 g0)).dataStop (inANY 15) true 0 false false [(1, false)] [] = none ∧
    (c g0).dataStop (inINT32 4) true 0 false false [(1, false)] [(0xC3, false)] = none ∧
    (c (typed 6 0 63 0 g0)).dataStop (inINT32 6) true 0xC0 true true [(0xC2, true)] [(0xC4, false)] = none := by
  decide +kernel

/-- CompareResults: an integer type and a float type; p63 as the destination of CMPI. -/
theorem test_w_compare :
    (c g0).predStop (inINT 4 || inFLT 4 || inF8 4) 62 [(0, false)] [(1, false)] [] [] = none ∧ inINT 4 = true ∧
    (c (typed 11 0 63 0 g0)).predStop (inINT 11 || inFLT 11 || inF8 11) 0 [(0, true)] [(0xC0, true)] [] [] = none ∧
    inINT 11 = false ∧ (c g0).predStop (inINT 4) 63 [(0, false)] [] [] [] = none := by decide +kernel

/-- PredicateAndVoteResults: each of its conditions, with and without an active lane. -/
theorem test_w_predicates :
    (c g0).predStop true 62 [] [] [.p 0] [.p 63] = none ∧ (c g0).predStop true 62 [] [] [.p 61] [] = none ∧
    (c g0).predStop true 63 [] [] [] [] = none ∧ (c g0).predStop true 1 [(0xC0, false)] [] [] [] = none ∧
    (0 : ByteField).toNat ≤ 1 ∧ (1 : ByteField).toNat ≤ 1 ∧ 1 < (2 : ByteField).toNat ∧ 3 < (4 : ByteField).toNat ∧
    (3 : ByteField).toNat ≤ 3 ∧ isSreg 0xF7 = true ∧ isSreg 0xBF = false ∧ isSreg 0xF8 = false ∧
    (c g0).hazard [.p 63] [] [] (c g0).guardRegs (regsOf 0xF7 false) = none ∧ (c g0).active 31 = true ∧
    (∀ l < 32, (c { g0 with emask := 0 }).active l = false) ∧
    (c { g0 with emask := 0 }).hazard [.p 0] [] [] (c { g0 with emask := 0 }).guardRegs (regsOf 0xC0 false) = none := by
  decide +kernel

/-- FloatResults: f64 pairs, f32, x2 halves and the 8-bit floats. -/
theorem test_w_float :
    (c (typed 11 0 63 0 g0)).dataStop (inFX 11) true 190 true false [(0, true)] [(0xC0, true)] = none ∧
    (c (typed 15 0 63 0 g0)).dataStop (inFX 15) true 0 false true [(1, false)] [(2, false)] = none ∧
    (c (typed 10 0 63 0 g0)).dataStop (inFLT 10) true 0 false false [(1, false)] [(2, false)] = none ∧
    (c (typed 11 0 63 0 g0)).dataStop (inFLT 11) true 191 false false [(0, true)] [(2, true)] = none ∧
    (c (typed 13 0 63 0 g0)).dataStop (inFX 13 || inF8 13) true 0 false false [(1, false)] [] = none ∧
    (c (typed 15 0 63 0 g0)).dataStop (inFX 15 || inF8 15) true 0 false false [(1, false)] [] = none ∧
    (c (typed 8 0 63 0 g0)).dataStop (inTrans 8) true 0 false false [(1, false)] [] = none ∧
    (c (typed 10 5 63 0 g0)).dataStop (inFLT 10) true 0 false false [(1, false)] [] = none ∧
    (c (typed 10 0 63 0 g0)).dataStop (inFX 10) true 0 false false [(1, false)] [] = none ∧
    (c (typed 15 0 63 0 g0)).dataStop (inFX 15) true 0 false false [(1, false)] [(0xC0, false)] = none := by decide +kernel

/-- ConversionResults: from and to a pair, 8-bit and 16-bit elements, integers and floats. -/
theorem test_w_conversion :
    (c (typed 13 0 63 0 g0)).dataStop (decide (13 ≤ 13) && decide (11 ≤ 13)) true 0 true false [(2, false)] [] = none ∧
    (c (typed 7 0 63 0 g0)).dataStop (decide (7 ≤ 13) && decide (0 ≤ 13)) true 0 false false [(2, true)] [] = none ∧
    (c (typed 0 0 63 0 g0)).dataStop (inPack 0) true 0 false true [(1, false)] [(2, false)] = none ∧
    (c (typed 9 0 63 0 g0)).dataStop (inPack 9) true 0 false false [(1, false)] [(2, false)] = none ∧
    (c (typed 12 0 63 0 g0)).dataStop (inPack 12 && decide (3 < 32 / 8)) true 0 false false [(1, false)] [] = none ∧
    (c (typed 8 0 63 0 g0)).dataStop (8 == 8 || 8 == 9) true 0 false true [(1, false)] [(2, false)] = none ∧
    (c (typed 13 0 63 0 g0)).dataStop (13 == 12 || 13 == 13 || 13 == 0 || 13 == 1) true 0 false true [(1, false)] [(2, false)] =
      none ∧ 12 ≤ 13 ∧
    (c (typed 1 0 63 0 g0)).dataStop (1 == 12 || 1 == 13 || 1 == 0 || 1 == 1) true 0 false true [(1, false)] [(2, false)] =
      none ∧ 1 ≤ 1 := by decide +kernel

/-- LaneMoveResults and ReductionResults: each of their conditions, at the highest codes, with and without active lanes. -/
theorem test_w_lanes :
    (c g0).dataStop (inANY 4) (isVreg 0) 0 false false [(1, false)] [(2, false)] = none ∧
    (c g0).dataStop (inANY 4) (isVreg 0 && scalarOk 0xC0) 0 false false [(1, false)] [(0xC0, false)] = none ∧
    (c g0).reduceTypeOk 5 = true ∧ (c g0).dstOk 0xC0 false = true ∧ (c g0).srcOk 1 false = true ∧
    (c g0).hazard (regsOf 1 false) [] [] (c g0).guardRegs (regsOf 0xC0 false) = none ∧ (c g0).actives ≠ [] ∧
    (c { g0 with emask := 0 }).actives = [] ∧
    (c { g0 with emask := 0 }).hazard (regsOf 1 false) [] [] (c { g0 with emask := 0 }).guardRegs (regsOf 0xC0 false) = none ∧
    (13 : ByteField).toNat % 8 ≤ 5 ∧ (13 : ByteField).toNat ≤ 13 ∧ isVreg 0 = true ∧
    (c g0).hazard (regsOf 1 false) [] [] (c g0).guardRegs (regsOf 0 false) = none ∧
    (c (typed 10 0 63 0 (wr [(.s 0, 4)] g0))).etype = 10 ∧
    ((c g0).dstOk 0 false && isVreg 0 && (c g0).srcOk 1 false && scalarOk 0xC0) = true ∧
    ((c (typed 10 0 63 0 (wr [(.s 0, 4)] g0))).readS 0xC0).toNat % 8 ≤ 4 ∧
    (c (typed 10 0 63 0 (wr [(.s 0, 4)] g0))).onceStop true true true (regsOf 1 false) (regsOf 0xC0 false) []
      (regsOf 0 false) = none := by decide +kernel

/-- NopYieldAndModeComplete, BranchesDivideAndJumpsMoveGroups: rounding modes 6 and 7; operands of BRX that it takes and that
it refuses; once() true and false. -/
theorem test_w_control :
    Mr.rnd 0xFC9800 ≠ 7 ∧ Mr.rnd 0xFC9C00 = 7 ∧ (c g0).hazard [] [] [] (c g0).guardRegs [] = none ∧
    (c g0).onceStop (scalarOk 0xF7) true true (regsOf 0xF7 false) [] [] [] = none ∧ scalarOk 0 = false ∧ scalarOk 0xF9 = false ∧
    (c g0).hazard [] [] [] (c g0).guardRegs [.s 55] = none ∧ (c g0).once = true ∧
    (c (typed 4 0 1 0 g0)).hazard [] [] [] (c (typed 4 0 1 0 g0)).guardRegs [.s 55] = none ∧ (c (typed 4 0 1 0 g0)).once = false ∧
    (c g0).hazard [.s 55] [] [] (c g0).guardRegs [] = none := by decide +kernel

/-- MasksTouchTheirSlicesAndExitRetires: each of its conditions. -/
theorem test_w_masks :
    (c g0).hazard [.p 63] [] [] [] [] = none ∧ scalarOk 0xC0 = true ∧ (c g0).hazard (regsOf 0xC0 false) [] [] [] [] = none ∧
    scalarOk 0xBF = false ∧ isSreg 0xF7 = true ∧ (c g0).hazard [] [] [] [] (regsOf 0xF7 false) = none ∧ isSreg 0xF8 = false ∧
    (c g0).hazard [] [] [] (c g0).guardRegs [] = none ∧ (c g0).endsGang = true ∧ g0.posted.filter Posted.atExit = [] ∧
    (c g0).takes 31 = true ∧ (c { g0 with emask := 0xF }).endsGang = false ∧
    (∀ l < 32, (c { g0 with emask := 0 }).takes l = false) ∧ (c { g0 with emask := 0 }).endsGang = false ∧
    (c { g0 with emask := 0 }).hazard [] [] [] (c { g0 with emask := 0 }).guardRegs [] = none := by decide +kernel

/-- The gang in two groups: slices 4 to 7 parked at the REGANG of every slice, slices 0 to 3 about to issue it. -/
def lowHalf : Group := { slices := 0x0F, pc := 0x10000, park := none, since := 0 }
def parted : Gang :=
  { g0 with groups := [lowHalf, { slices := 0xF0, pc := 0x10000, park := some (.regang 0xFF), since := 1 }] }

/-- What a meaning sees when group x of g issues. -/
def cxOf (s : State) (g : Gang) (x : Group) : Ctx := ⟨{ s.putGang 3 g with cur := some ⟨3, x.slices⟩ }, 3, g, x⟩

/-- REGANG: a mask that leaves the issuing slices out, one that is awaited by nobody yet, and one that is complete; a mask of
slices that have exited. -/
theorem test_w_regang :
    let m := fun (v : Word) => (v.extractLsb' 0 8 : SliceMask)
    let p := cxOf base (wr [(.s 0, 0xFF)] parted) lowHalf
    scalarOk 0xC0 = true ∧ (c (wr [(.s 0, 0xFF)] g0)).hazard (regsOf 0xC0 false) [] [] [] [] = none ∧
    (0xFF : SliceMask) &&& ~~~m 0x0F ≠ 0 ∧ m 0xFF &&& ~~~({ g0 with exited := 0xF } : Gang).live ≠ 0 ∧
    m 0xFF &&& ~~~g0.live = 0 ∧ (0xFF : SliceMask) &&& ~~~m 0xFF = 0 ∧
    p.slices ||| p.g.arrived p.pc = m 0xFF ∧ p.slices ≠ m 0xFF ∧ p.grp.park = none ∧
    p.slices ||| ({ parted with groups := [lowHalf, { lowHalf with slices := 0xF0 }] } : Gang).arrived p.pc ≠ m 0xFF ∧
    (p.g.groups.all (fun x => x.park != some (.regang 0xFF) || x.pc == p.pc)) ∧ p.s.issuing = some p := by decide +kernel

/-- BarriersAreSetAndArrivedAt: barrier 15, set for 128 gangs and for bytes alone; busy and not; an arrival that is counted, one
that is early, one refused. -/
theorem test_w_barriers :
    let init := fun (x y : Word) => (c (wr [(.s 0, x), (.s 1, y)] g0)).onceStop
      (decide ((15 : ByteField).toNat ≤ 15) && scalarOk 0xC0 && scalarOk 0xC1)
      (x.toNat / 65536 == 0 && decide (x.toNat % 256 ≤ 128) && (x.toNat % 256 != 0 || y.toNat != 0)) true
      (regsOf 0xC0 false) (regsOf 0xC1 false) [] []
    let arrive := c (wr [(.s 0, 0x1FF)] g0)
    let b := (Barrier.init 1)
    init 0xFF80 0 = none ∧ init 0 1 = none ∧ (c g0).team.isSome ∧ (c g0).once = true ∧ (c (typed 4 0 1 0 g0)).once = false ∧
    base.barrierBusy 2 15 ((c g0).barrier 15) = false ∧ base.barrierBusy 2 15 { b with arr := 1 } = true ∧
    (15 : ByteField).toNat ≤ 15 ∧ arrive.interlock (regsOf 0xC0 false) = none ∧ 0x1FF < 512 ∧
    arrive.plumb (regsOf 0xC0 false) [] [] [] = none ∧ arrive.groupWide 0x1FF = none ∧
    base.loadsOut 3 = false ∧ base.padsOut 3 = false ∧ arrive.readPosted (regsOf 0xC0 false) = none ∧ b.e.getLsbD 0 = false ∧
      b.a.getLsbD 0 = false ∧
    ({ b with e := 1 } : Barrier).e.getLsbD 0 = true ∧ ({ b with a := 1 } : Barrier).a.getLsbD 0 = true ∧ b.phase = false := by
  decide +kernel

/-- BarrierPhaseAdvancesOnCompletion: complete with a mask that does not match and with one that does, and not complete. -/
theorem test_w_phase :
    let b := Barrier.init 1
    let done := fun (x : Barrier) => x.expg ≤ x.arr ∧ x.bytes = x.expb
    let at_ := fun (x : Barrier) => (base.putBarrier 2 15 x).updateBarriers
    (base.team? 2).isSome ∧ ¬ done b ∧ done { b with arr := 1, umask := 0xFF } ∧ done { b with arr := 1, umask := 0x0F } ∧
    ({ b with umask := 0x0F } : Barrier).umask ≠ b.dmem ∧ (0xFF : SliceMask) = b.dmem ∧ base.gang? 3 = some g0 ∧ g0.team = 2 ∧
    g0.ended = false ∧ gangOf (at_ { b with arr := 1, umask := 0xFF }) (·.evpend.getLsbD 15) = true ∧
    gangOf (at_ b) (fun g => !g.evpend.getLsbD 15) = true := by decide +kernel

/-- BarrierWaitsAndReads: a parity that goes on, one that parks; a credit, an empty one, none under once(). -/
theorem test_w_barwait :
    let w := c (wr [(.s 0, 0x1FF)] g0)
    let k := c (wr [(.s 0, 0x1FFFFFFF)] g0)
    (c g0).team.isSome ∧ (15 : ByteField).toNat ≤ 15 ∧ w.interlock (regsOf 0xC0 false) = none ∧
    w.plumb (regsOf 0xC0 false) [] [] [] = none ∧ w.groupWide 0x1FF = none ∧ w.readPosted (regsOf 0xC0 false) = none ∧
    (Barrier.init 1).phase ≠ decide (0x1FF / 256 % 2 = 1) ∧ (Barrier.init 1).phase = decide (0xFF / 256 % 2 = 1) ∧
    w.g.posted = [] ∧ k.once = true ∧ 0x1FFFFFFF % 2 ^ 28 ≠ 0 ∧ 0x10000000 % 2 ^ 28 = 0 ∧
    k.onceStop (decide ((15 : ByteField).toNat ≤ 15) && scalarOk 0xC0) (0x1FFFFFFF / 2 ^ 29 == 0) true (regsOf 0xC0 false)
      [] [] [] = none ∧
    (c g0).onceStop (decide ((0 : ByteField).toNat ≤ 15) && scalarDst 0xF7) true true [] [] [] (regsOf 0xF7 false) = none := by
  decide +kernel

/-- An operation that counts in k7, accepted before. -/
def engineOp : EngineOp :=
  { id := 1, gang := 3, team := 2, opc := 0x10000, k := 7, counted := 1, kind := .mma false [] [1], next := 0, ran := false,
    out := [], flags := 0, faults := [] }

/-- CountersEventsAndDeadline: each of its conditions, at the highest operand values. -/
theorem test_w_counters :
    let g := wr [(.s 0, 4095)] g0
    let e := wr [(.s 0, 0x7FFFFFF)] g0
    let p := wr [(.s 0, 0x7FFFF)] g0
    let busy := base.modCore 0 (fun k => { k with engine := [engineOp] })
    (c g).once = true ∧ (c g).onceStop (decide ((7 : ByteField).toNat ≤ 7)) true true [] [] [] [] = none ∧
    g.counter 7 < 4095 ∧ g.tokens = [] ∧ busy.countedBefore 3 g0 busy.next = true ∧ base.countedBefore 3 g0 base.next = false ∧
    (c g).oncePosted (decide (7 ≤ 7) && scalarOk 0xC0) (4095 / 4096 == 0) (regsOf 0xC0 false) [] [] (Posted.ofCounter 7) = none ∧
    g.counter 7 ≤ 4095 ∧ 0 < (g.putCounter 7 1).counter 7 ∧
    (c g).oncePosted (decide (7 ≤ 7) && scalarDst 0xF7) true [] [] (regsOf 0xF7 false) (Posted.ofCounter 7) = none ∧
    (c g).onceStop (scalarDst 0xF7) true true [] [] [] (regsOf 0xF7 false) = none ∧
    (c e).onceStop (scalarOk 0xC0) (0x7FFFFFF / 2 ^ 27 == 0) true (regsOf 0xC0 false) [] [] [] = none ∧
    (c p).onceStop (scalarOk 0xC0) (0x7FFFF / 2 ^ 19 == 0) true (regsOf 0xC0 false) [] [] [] = none ∧
    (c g).onceStop (scalarOk 0xC0) true true (regsOf 0xC0 false) [] [] [] = none := by decide +kernel

/-- MailboxesPassOneValue: an EMPTY and a FULL mailbox 7, and a gang that has ended. -/
theorem test_w_mailboxes :
    (c g0).once = true ∧ (c g0).team.isSome ∧
    (c g0).onceStop (decide ((7 : ByteField).toNat ≤ 7) && scalarOk 0xC0 && pairOk 0xF6) (0 / 128 == 0 && decide (0 < 1)) true
      (regsOf 0xC0 false) (regsOf 0xF6 true) [] [] = none ∧
    (c g0).s.loadsOut 3 = false ∧ (c g0).s.padsOut 3 = false ∧ (on base g0).member 2 0 = some (3, g0) ∧ g0.mailbox 7 = none ∧
      (g0.putMailbox 7 (some 5)).mailbox 7 = some 5 ∧
    (base.dropGang 3).member 2 0 = none ∧
    (c g0).onceStop (decide ((7 : ByteField).toNat ≤ 7) && pairOk 0xF6) true true [] [] [] (regsOf 0xF6 true) = none := by
  decide +kernel

/-- WanyTakesTheFirstEligibleEntry: a list of eight entries of which the last is eligible, and one of which none is. -/
theorem test_w_wany :
    let es := (List.range 8).map (fun i => ((RegElem.s (48 + i), 0x42400020) : RegElem × Word))
    let g := { wr ((.s 9, 0xFF) :: es) g0 with evpend := 4 }
    let k := c g
    let l := k.block 48 8
    (8 : ByteField).toNat ≤ 8 ∧ isSreg 0xF0 = true ∧ 48 + 8 ≤ 56 ∧ isSreg 0xC9 = true ∧
    k.interlock (sregs 48 8 ++ regsOf 0xC9 false) = none ∧ k.plumb (sregs 48 8) [] (regsOf 0xC9 false) [] = none ∧
    k.groupWide 0xFF = none ∧ k.readPosted (sregs 48 8 ++ regsOf 0xC9 false) = none ∧ l.all entryOk = true ∧
    base.eligible g (l.getD 0 0) = true ∧ base.eligible { g with evpend := 0 } (l.getD 7 0) = false ∧
    base.eligible { g with evpend := 8 } (0x43000020 : Word) = true ∧ g.posted = [] := by decide +kernel

/-- An access by rank to the scratchpad at 64, which reads the word there or stores one. -/
def preq (id : Nat) (w : Option Nat) : PadReq :=
  ⟨id, 3, 2, 0, false, 64, 4, (w.map VaultKind.write).getD .read, 4, if w.isSome then [] else [.v 0 31]⟩

/-- An access to the gang's own core by offset: its kind, and where. -/
def ownReq (id off : Nat) (k : VaultKind) : PadReq := ⟨id, 3, 2, 0, true, off, 4, k, 4, if k == .write 5 then [] else [.v 0 31]⟩

/-- The step that performs access n gives a state of which f holds. -/
def padGives (n : Nat) (s : State) (f : State → Bool) : Bool := match execPad n s with
  | .next t => f t
  | _ => false

/-- ScratchpadLoadsNeverFault, ScratchpadStoresTouchTheirBytesAlone: vector and scalar forms, an allocation, a rank; an access
by rank that stores, one that waits for it, and one that reads; an access by offset that shares a byte with an earlier one by
rank, and one that shares none. -/
theorem test_w_scratchpad :
    let store := { base with preqs := [preq 8 (some 77), preq 9 none] }
    let load := { base.padWrite 2 0 64 4 77 with preqs := [preq 9 none] }
    (c g0).ownPadFirst = none ∧ store.padReady (preq 8 (some 77)) = true ∧ store.padReady (preq 9 none) = false ∧
    load.padReady (preq 9 none) = true ∧ (preq 9 none).dst.Nodup ∧
    padGives 8 store (fun t => t.padRead 2 0 64 4 == 77 && t.preqs == [preq 9 none]) ∧
    padGives 9 load (fun t => gangOf t (fun g => g.settled (.v 0 31) == 77)) ∧
    padGives 9 store (fun t => t.preqs.length == 2) ∧
    ({ base with preqs := [preq 8 (some 77), ownReq 9 67 .read] } : State).padReady (ownReq 9 67 .read) = false ∧
    ({ base with preqs := [preq 8 (some 77), ownReq 9 68 .read] } : State).padReady (ownReq 9 68 .read) = true ∧
    (c g0).loadStop (isVreg 0 || !isVec 1) 0 false [(1, false)] [] = none ∧
    (c g0).loadStop (isVreg 0xC0 || !(isVec 0xC1 || isVec 0xC2)) 0xC0 false [(0xC1, false)] [(0xC2, false)] = none ∧
    (c (typed 6 0 63 0 g0)).loadStop (isVreg 0 || !(isVec 2 || isVec 4)) 0 false [(2, true)] [(4, false)] = none ∧
    (c g0).storeStop true 191 [(0, false)] [] = none ∧ (c g0).storeStop true 0xC0 [(0, false)] [(1, false)] = none ∧
    (match (c g0).team with
      | some tm => tm.alloc != 0 && (tm.onCore 0).isSome
      | none => false) = true ∧
    ((c g0).memLanes (isVec 191 || isVec 0)).length = 32 := by decide +kernel

/-- A gang whose s0 and s1 hold the vault address 0x40000. -/
def gv : Gang := wr [(.s 0, 0x40000)] g0

/-- VaultAccessesAreRequested: lanes that all reach their element, with no load outstanding and no write unapplied. -/
theorem test_w_vault :
    (c gv).memLanes (isVreg 2) = List.range 32 ∧
    (∀ l < 32, (c gv).s.access (c gv).part ((c gv).vaddr 0xC0 0xF8 l) (c gv).size Need.load = .ok 0x40000) ∧
    (∀ l < 32, (c gv).s.access (c gv).part ((c gv).vaddr 0xC0 0xF8 l) (c gv).size Need.store = .ok 0x40000) ∧
    (c gv).loadStop (pairOk 0xC0 && (isVreg 2 || !isVec 0xF8)) 2 false [(0xC0, true)] [(0xF8, false)] = none ∧
    (c gv).loadStop (pairOk 0xC0 && isSreg 0xC4 && scalarOk 0xF8) 0xC4 false [(0xC0, true)] [(0xF8, false)] = none ∧
    (c gv).s.loadsOut 3 = false ∧ (c gv).s.unapplied (c gv).agent + 32 ≤ 32767 ∧
    (c gv).storeStop (pairOk 0xC0) 2 [(0xC0, true)] [(0xF8, false)] = none ∧
    (c gv).storeStop (pairOk 0xC0 && scalarOk 0xC4 && scalarOk 0xF8) 0xC4 [(0xC0, true)] [(0xF8, false)] = none ∧
    atomTypeOk 6 (c gv).etype = true ∧ (c gv).takers.length = 32 ∧
    (c gv).loadStop (pairOk 0xC0 && isVreg 2 && isVec 1) 2 false [(0xC0, true)] [(1, false)] = none ∧
    (c gv).loadStop (pairOk 0xC0 && isVreg 2 && isVec 1) 2 true [(0xC0, true)] [(1, false)] = none ∧
    (∀ l < 32, (c gv).s.access (c gv).part ((c gv).vaddr 0xC0 1 l) (c gv).size Need.load = .ok 0x40000) := by decide +kernel

/-- AtomicsReadModifyWrite: both forms of an add and of a compare-and-swap; an add performed in the scratchpad. -/
theorem test_w_atomics :
    let add := VaultKind.atom 0 4 false 3 0
    let sum := { base.padWrite 2 0 64 4 77 with preqs := [ownReq 9 64 add] }
    sum.padReady (ownReq 9 64 add) = true ∧ (ownReq 9 64 add).dst.Nodup ∧ (sum.team? 2).isSome ∧ sum.gang? 3 = some g0 ∧
    padGives 9 sum (fun t => t.padRead 2 0 64 4 == 80 && gangOf t (fun g => g.settled (.v 0 31) == 77)) ∧
    (∀ op < 8, atomTypeOk op 4 = true) ∧ atomTypeOk 8 10 = true ∧ atomTypeOk 8 15 = true ∧ (c gv).dstOk 2 false = true ∧
    (c gv).casOk 2 false = true ∧ isVec 1 = true ∧ (c gv).srcOk 1 false = true ∧ isVreg 2 = true ∧
    (c gv).hazard (regsOf 1 false) [] (regsOf 2 false) (c gv).guardRegs (regsOf 2 false) = none ∧
    (c gv).hazard (regsOf 1 false) [] (regsOf 2 false ++ regsOf (casNew 2 false) false) (c gv).guardRegs (regsOf 2 false) = none ∧
    isVec 0xC0 = false ∧ pairOk 0xC0 = true ∧ (c gv).srcOk 0xF8 false = true ∧ (isVreg 2 || !isVec 0xF8) = true ∧
    (c gv).hazard (regsOf 0xC0 true) (regsOf 0xF8 false) (regsOf 2 false) (c gv).guardRegs (regsOf 2 false) = none ∧
    (∀ l < 32, (c gv).s.access (c gv).part ((c gv).vaddr 0xC0 0xF8 l) (c gv).size Need.atomic = .ok 0x40000) := by decide +kernel

/-- FenceWaitsForWhatItOrders: codes that it takes and refuses; a gang that waits for a load, and one that waits for nothing. -/
theorem test_w_fence :
    4 < (5 : ByteField).toNat % 8 ∧ (8 : ByteField).getLsbD 3 = true ∧ 64 ≤ (64 : ByteField).toNat ∧
    (0x34 : ByteField).toNat % 8 ≤ 4 ∧ (0x34 : ByteField).getLsbD 3 = false ∧ (0x34 : ByteField).toNat < 64 ∧
    base.loadsOut 3 = false ∧ base.uncovered (base.vcOf 0) = false ∧ base.remoteBusy 3 = false ∧ g0.posted = [] ∧
    gives (.ldvs 0xC4 0xC0 0xF8) (on base gv) (fun t => t.loadsOut 3) = true := by decide +kernel

/-- TagTableLooksUpTheKeysSet: an entry that is hit in way 3 of its set, and none. -/
theorem test_w_tagTable :
    let k := base.modCore 0 (fun k => k.putTagEntry 7 { valid := true, team := 2, key := 65, val := 9 })
    ((k.core 0).tagEntry 7).valid = true ∧ ((k.core 0).tagEntry 7).team = g0.team ∧ ((k.core 0).tagEntry 7).key = 65 ∧
    4 * (65 % 64) + 3 = 7 ∧ ((base.core 0).tagEntry 7).valid = false ∧ (c g0).dstOk 0 false = true ∧
    (c g0).srcOk 1 false = true ∧ (isVreg 0 || !isVec 1) = true ∧
    (c g0).hazard (regsOf 1 false) [] [] (c g0).guardRegs (regsOf 0 false) = none ∧ (c g0).once = true ∧
    (c (wr [(.s 2, 255)] g0)).onceStop (scalarOk 0xC2 && scalarOk 0xC0 && scalarOk 0xC1) (255 / 256 == 0) true
      (regsOf 0xC0 false) (regsOf 0xC1 false) (regsOf 0xC2 false) [] = none ∧
    (c g0).onceStop (scalarOk 0xC0) true true (regsOf 0xC0 false) [] [] [] = none := by decide +kernel

/-- A request of lane 0 of the gang for the word at 0x40000. -/
def vreq (k : VaultKind) : VaultReq :=
  { id := 9, batch := 0, actor := .lane 3 0, agent := 0, pa := 0x40000, size := 4, kind := k, stamp := base.vcOf 0, etype := 4,
    dst := [.v 0 0], after := [] }

/-- A state in which it is on its way. -/
def pending (k : VaultKind) : State := { base with vreqs := [vreq k], next := 10 }

/-- VaultRequestsArePerformed: a store, an atomic, an SC with and without its reservation, a read and an LR. -/
theorem test_w_requests :
    let ks := [VaultKind.write 5, .atom 0 4 false 1 0, .sc 5, .read, .lr]
    (∀ k ∈ ks, (pending k).vreqs.find? (fun q => q.id == 9) = some (vreq k) ∧ (pending k).reqReady (vreq k) = true) ∧
    9 < (pending .read).next ∧ RegElem.v 0 0 ≠ .v 1 0 ∧
    (let wide := { vreq (.write 5) with pa := 0x4003C, size := 8 }
     let s := { base with vreqs := [wide], next := 10 }
     s.reqReady wide = true ∧ granuleOf 0x4003C ≠ granuleOf 0x40043 ∧
       gives (.vaultWriteApply 9) s (fun t => Memory.readNat t.vault 0x4003C 8 == 5)) ∧
    (let pair := { vreq .read with size := 8, etype := 6, dst := [.v 0 0, .v 1 0] }
     let s := { base with vreqs := [pair], next := 10, vault := Memory.writeNat base.vault 0x40000 8 0x700000009 }
     s.reqReady pair = true ∧ gives (.vaultReadReply 9) s (fun t => gangOf t (fun g =>
       g.settled (.v 0 0) == 9 && g.settled (.v 1 0) == 7))) ∧
    (VaultKind.write 5).writes = true ∧ (VaultKind.sc 5).writes = true ∧ (VaultKind.atom 0 4 false 1 0).writes = true ∧
    VaultKind.read.writes = false ∧ VaultKind.lr.writes = false ∧ g0.reserved 0 = none ∧
    ({ g0 with reserve := [(0, some 0x1000)] } : Gang).reserved 0 = some (granuleOf 0x40000) := by decide +kernel

/-- A partition with a handler at 0x20000. -/
def handled : State := base.modPart 0 (fun p => { p with then_ := true, th := 0x20000 })

/-- TrapEntrySavesAndEnters, TrappingWordsTakeTheirTrap: outside and inside handler mode; a gang with a group at its REGANG, and
a record; the lane that a fetch fault names, the first and one behind lanes that have exited. -/
theorem test_w_traps :
    (on handled g0).gang? 3 = some g0 ∧ g0.inh = false ∧ (handled.part (handled.teamPart 2)).then_ = true ∧
    (c g0).hazard [] [] [] (c g0).guardRegs [] = none ∧ (c g0).once = true ∧ (c (typed 4 0 1 0 g0)).once = false ∧
    (c g0).s.fetchWord 0 0x4000000 = .error Cause.translation ∧ ({ g0 with inh := true } : Gang).inh = true ∧
    (base.part (base.teamPart 2)).halted = false ∧
    parted.groups.Pairwise (fun x y => lowestSlice x.slices < lowestSlice y.slices) ∧
    (parted.groups.map Group.atRegang) = [false, true] ∧ g0.groups.all (fun x => !x.atRegang) ∧
    (let r : LaneRecord := ⟨0x50001, 0x10, 1, 0, 0⟩
     let info : TrapInfo :=
       { cause := 0x10, imm := 0, tpc := 0x10000, opc := 0x10000, after := 0x10004, tmask := 8, group := 0xFF, defer := false,
         records := [(3, r)] }
     gangOf ((on handled parted).takeTrap 3 info) (fun g => g.laneRecord 3 == r && g.laneRecord 2 == LaneRecord.zero &&
       g.trap.known && g.trap.rpc == 0x10000)) ∧
    (c g0).slices.getLsbD (0 / 4) = true ∧ g0.exited.getLsbD 0 = false ∧
    (∀ l < 3, ({ g0 with exited := 7 } : Gang).exited.getLsbD l = true) ∧
      ({ g0 with exited := 7 } : Gang).exited.getLsbD 3 = false ∧
    gives .fetchFault (on handled { g0 with exited := 7, groups := [{ slices := 0xFF, pc := 0x4000000, park := none, since := 0 }] })
      (fun t => gangOf t (fun g => g.trap.tlanes == 8)) := by decide +kernel

/-- VaultRequestsArePerformed: a word that cannot be corrected, met by a read and by a write of a part of it; with and without
other lanes that wait for answers. -/
theorem test_w_request_errors :
    let bad := fun (qs : List VaultReq) => { handled with vreqs := qs, next := 12, badWords := [0x8000] }
    let part : VaultReq := { vreq (.write 5) with size := 2 }
    let other : VaultReq := { vreq .read with id := 10, actor := .lane 3 1, pa := 0x40020, dst := [.v 0 1] }
    (∀ q ∈ [vreq .read, part], (bad [q]).vreqs.find? (fun y => y.id == 9) = some q ∧ (bad [q]).reqReady q = true ∧
      (bad [q]).findsError q = true ∧ q.actor = .lane 3 0 ∧ (bad [q, other]).reqReady q = true) ∧
    (bad [{ vreq (.write 5) with size := 8 }]).findsError { vreq (.write 5) with size := 8 } = false ∧
    (pending .read).findsError (vreq .read) = false ∧
    (bad [vreq .read]).gang? 3 = some g0 ∧ g0.inh = false ∧ (handled.part (handled.teamPart g0.team)).then_ = true ∧
    g0.groups.find? (fun y => y.slices.getLsbD (sliceOf 0)) = some { slices := 0xFF, pc := 0x10000, park := none, since := 0 } ∧
    other.batch = (vreq .read).batch ∧ other.actor ≠ (vreq .read).actor ∧ other.kind.loads = true ∧
    gives (.vaultReadReply 9) (bad [vreq .read]) (fun t => gangOf t (fun g => g.inh && (g.laneRecord 0).flags == 5)) ∧
    gives (.vaultWriteApply 9) (bad [part]) (fun t => gangOf t (fun g => g.inh && g.trap.cause == Cause.permission)) ∧
    gives (.vaultReadReply 9) (bad [vreq .read, other]) (fun t => gangOf t (fun g => !g.inh && g.groups.any (fun y =>
      match y.park with
        | some (.faulting _ _ rs) => rs.map (fun x => x.1) == [0]
        | _ => false))) := by decide +kernel

/-- TrapEntrySavesAndEnters: no handler, with a stop record area in the range and with none. -/
theorem test_w_stop_record :
    let s := base.modPart 0 (fun p => { p with stopbase := 5 })
    let t := s.takeTrap 3 ⟨0x11, 0, 0x10004, 0x10000, 0x10004, 1, 0xFF, false, []⟩
    base.gang? 3 = some g0 ∧ g0.inh = false ∧ (base.part (base.teamPart 2)).then_ = false ∧
    (s.team? 2).map (fun tm => tm.status) = some .running ∧ s.iodq = [] ∧ s.fullOf 4 = false ∧
    (s.part 0).owns (5 * 65536 + 64 * g0.core) 64 = true ∧ (base.part 0).owns (2 ^ 50) 64 = false ∧
    (t.vreqs.any (fun r => r.agent == 4 && r.pa == 0x50000 && r.size == 64)) = true ∧
    (match t.gang? 3 with
      | some g => g.ended && g.stopped
      | none => false) = true := by decide +kernel

/-- A lane faulted while others awaited answers (R410): once they have come the trap is taken, and the group that TRET gives
back waits for nothing (Table 19.2, steps 4 to 7). -/
theorem test_fault_wait_ends :
    let x : Group := { slices := 0xFF, pc := 0x10004, park := some (.faulting 1 0x10000 [(3, ⟨0x50001, 0x10, 1, 0, 0⟩)]), since := 4 }
    let t := (handled.putGang 3 { g0 with groups := [x] }).settleGroups
    gangOf t (fun g => g.inh && g.trap.tlanes == 8 && g.trap.tpc == 0x10004 && match g.block with
      | some b => b.groups.all (fun y => y.park.isNone)
      | none => false) = true := by decide +kernel

/-- The gang in its handler, with a block captured. -/
def inHandler : Gang :=
  { g0 with inh := true, block := some { groups := g0.groups, emask := 0xFFFFFFFF, mr := [], trapping := 0xFF } }

/-- TrapReturnRestoresTheCapturedGroups: in handler mode with a block, and outside it. -/
theorem test_w_tret : inHandler.inh = true ∧ inHandler.block.isSome ∧ inHandler.live ≠ 0 ∧ g0.inh = false := by decide +kernel

/-- RecoveryInstructionsComplete: each of its conditions; a block that TLOAD takes and one that it refuses. -/
theorem test_w_recovery :
    let k := c { wr [(.s 0, 1)] inHandler with inh := true }
    let b := c (wr [(.s 0, 0x40000)] inHandler)
    (c g0).once = true ∧ (c g0).onceStop (scalarDst 0xF7) true true [] [] [] (regsOf 0xF7 false) = none ∧
    (c g0).onceStop (scalarOk 0xF8) true true (regsOf 0xF8 false) [] [] [] = none ∧ (c g0).privileged = true ∧
    (c g0).onceStop true true (c g0).privileged [] [] [] [] = none ∧
    (c g0).onceStop (blockOk 0xF6 54) (bits 0 31 24 == 0) (c g0).privileged (sregs 54 2) [] [] [] = none ∧
    k.onceStop (scalarOk 0xC0) (decide (1 ≤ 1)) true (regsOf 0xC0 false) [] [] [] = none ∧
    (c g0).interlock (c g0).guardRegs = none ∧
    (cx (base.modTeam 2 (fun tm => { tm with priv := false })) g0).privileged = false ∧
    b.blockStop 0xC0 = none ∧ (b.blockRuns 0xC0 Need.store).toOption.isSome ∧ (b.blockRuns 0xC0 Need.load).toOption.isSome ∧
    b.s.loadsOut 3 = false ∧ b.s.unapplied b.agent + 17 ≤ 32767 ∧ b.storesFirst = false ∧
    Block.ofBytes (List.replicate 128 0) 0 0 0xFF = none := by decide +kernel


/-- A block of one group, and the gang in its handler, its page cached, with that block in the vault at 0x40000. -/
def oneBlock : Block := { groups := [{ slices := 0xFF, pc := 0x10000, park := none, since := 0 }], trapping := 0, emask := 1, mr := [] }
def blockHere : State :=
  { base with
    tlb := [{ part := 0, va := 0, size := 0x4000000, entry := 0x2D }]
    vault := Memory.writeBytes base.vault 0x40000 (oneBlock.bytes 0 0) }

/-- RecoveryInstructionsComplete: a block that TLOAD accepts, whatever the opaque bytes are. -/
theorem test_w_tload :
    let k := cx blockHere (wr [(.s 0, 0x40000)] inHandler)
    (k.once = true ∧ k.blockStop 0xC0 = none ∧ k.blockRuns 0xC0 Need.load = .ok [(0x40000, 128)] ∧ k.storesFirst = false ∧
      blockHere.spoiled 0x40000 128 Need.load = false) ∧
    ∃ b, Block.ofBytes ([(0x40000, 128)].flatMap (fun r => Memory.readBytes blockHere.vault r.1 r.2)) k.g.index k.tid k.g.live = some b := by
  refine ⟨by decide +kernel, Block.ofPlain oneBlock.plain, ?_⟩
  have h : Memory.readBytes blockHere.vault 0x40000 128 = oneBlock.bytes 0 0 := by
    have := Memory.readBytes_writeBytes base.vault 0x40000 (oneBlock.bytes 0 0)
    rwa [Block.bytes_length] at this
  rw [List.flatMap_singleton, h]
  exact Block.ofBytes_bytes oneBlock 0 0 _ (by decide) (by decide) (by decide +kernel)
/-- A trap that waits to be taken by the gang's slices m. -/
def due (m : SliceMask) : PendTrap :=
  { cause := Cause.permission, handler := false, slices := m, posted := none, tpc := 0x10004, opc := 0x10000 }

/-- RecoveryStepsHaveTheirEffect: each of its conditions. -/
theorem test_w_recoverySteps :
    let turn := { g0 with turnIssues := 32 }
    let s := fun (g : Gang) => base.putGang 3 g
    let one := { g0 with pendTraps := [due 0xFF] }
    let two := { parted with pendTraps := [due 0xFF] }
    let stuck := { g0 with groups := [{ lowHalf with park := some (.regang 0xFF) },
      { lowHalf with slices := 0xF0, pc := 0x10004, park := some (.regang 0xFF) }] }
    let halt := fun f => base.modPart 0 (fun p => { p with halted := true, fatal := f })
    (s turn).gangAt 0 0 = some (3, turn) ∧ gives (.groupTurnSwitch 0 0) (s turn) (fun t => gangOf t (·.turnIssues == 0)) ∧
    base.resident g0 = true ∧ gives (.deadlineExpiry 3) (s { g0 with deadline := 9 }) (fun t => gangOf t (·.evpend.getLsbD 18)) ∧
    one.trapDue = some (due 0xFF) ∧ base.teamRuns 2 = true ∧ one.group? ((0xFF : SliceMask) &&& one.live) ≠ none ∧
    two.group? ((0xFF : SliceMask) &&& two.live) = none ∧
    gives (.trapEntry 3) (handled.putGang 3 one) (fun t => gangOf t (fun g => g.inh && g.trap.tpc == 0x10004)) ∧
    (∀ y ∈ stuck.groups, y.atRegang = true) ∧ stuck.pendTraps = [] ∧
    (stuck.groups.find? (fun y => y.slices.getLsbD (lowestSlice stuck.live))).isSome ∧
    gives (.regangDeadlock 3) (handled.putGang 3 stuck) (fun t => gangOf t (·.trap.cause == 0x0A)) ∧
    ((halt false).part 0).halted = true ∧ ((halt false).part 0).fatal = false ∧ base.house.cooling = false ∧
    ((halt true).part 0).fatal = true ∧ gives (.hctlResume 0) (halt false) (fun t => !(t.part 0).halted) ∧
    gives (.hctlDiscard 0) (halt true) (fun t => !(t.part 0).halted && (t.launch? 1).isNone) ∧
    gives (.uncorrectableError 0 (.accRow 159 1023)) base (fun t => (t.core 159).poisoned 1023 && (t.part 0).seue == 1) ∧
    gives (.uncorrectableError 0 (.stopArea 15)) base (fun t => (t.part 15).fatal) ∧
    gives (.uncorrectableError 0 (.vaultWord 0x40007)) base (fun t => t.badWords == [0x8000]) := by decide +kernel

/-- The team is not privileged. -/
def user : State := base.modTeam 2 (fun tm => { tm with priv := false })

/-- SystemRegistersAskForPrivilege: registers at both ends of each range, in user mode, in the handler and privileged; once()
and not; the host, before and after start-up. -/
theorem test_w_systemRegisters :
    let u := cx user g0
    let h := cx user { g0 with inh := true }
    let reads := fun (k : Ctx) => [0xFFF, 0x1000, 0x17FF, 0x1800, 0x18FF, 0x1900].map k.mayRead
    let writes := fun (k : Ctx) => [0xFFF, 0x1000, 0x17FF, 0x1800, 0x18BF, 0x18C0, 0x18FF, 0x1900, 0x3FFF, 0x4000, 0x57FF, 0x5800].map
      k.mayWrite
    reads u = [true, false, false, false, false, true] ∧ reads h = [true, false, false, true, true, true] ∧
    writes u = [true, false, false, false, false, false, false, true, true, false, false, true] ∧
    writes h = [true, false, false, true, true, false, false, true, true, false, false, true] ∧
    writes (c g0) = [true, true, true, true, true, true, true, true, true, false, false, true] ∧
    isSreg 0xF7 = true ∧ scalarOk 0xF8 = true ∧ u.interlock (u.guardRegs ++ regsOf 0xF7 false) = none ∧
    u.interlock (regsOf 0xF8 false ++ u.guardRegs) = none ∧
    (c g0).onceStop (isSreg 0xF7) true ((c g0).mayRead 0x1000) [] [] [] (regsOf 0xF7 false) = none ∧
    (c g0).onceStop (scalarOk 0xF8) true ((c g0).mayWrite 0x1000) [] [] (regsOf 0xF8 false) [] = none ∧
    (c g0).once = true ∧ (c (typed 4 0 1 0 g0)).once = false ∧
    base.hostReaches false 0x1000 = true ∧ base.hostMayWrite false 15 0x1000 = true ∧ base.hostMayWrite false 15 0x4000 = false ∧
    ((base.modPart 15 (fun p => { p with fqlost := 3 })).hostRegister .vf 15 0x100F).out = [.hostRegister .vf 15 0x100F 3] ∧
    base.house.phase = 5 ∧ State.reset.house.phase ≠ 5 ∧ Source.vf ≠ Source.pf := by decide +kernel

/-- SystemRegistersAskForPrivilege, the values: every range with a value at both ends of each width, of a pair, a link and a
channel that the partition owns and of ones that it does not own. -/
theorem test_w_registerValues :
    let s1 := base.modPart 0 (fun p =>
      { p with vbase := 0xABCDEF01, ptbase := 2 ^ 21 - 1, topbits := 2047, fqbase := 2 ^ 16 - 1, fqlog2n := 5, modid := 4095,
               trust := [(4095, 3)], fqlost := 2 ^ 32 - 1 })
    let s2 := (((s1.putPair 5 { Pair.reset with ownv := true, evt := true, spuse := 3 }).putPair 6
      { Pair.reset with ownv := true, fab := true, plane := 6 }).putPair 7 { Pair.reset with owner := 1, ownv := true }).putLink 12
        { Link.reset with tgtw := 8, curw := 8, state := .widthChange, replays := 65535 }
    let s := (((s2.putChan 97 { Chan.reset with state := .active }).putChan 80
      { Chan.reset with state := .active, weak := true, cer := 0xFFFF }).putChan 96 Chan.reset).putChan 112 { Chan.reset with weak := true }
    let k := cx s { g0 with exited := 0x80000000, evpend := 1, plumbEn := 1 }
    let v := k.sysReg
    k.part = 0 ∧ v 0 = 0x0100FFFF ∧ v 1 = 0x7FFFFFFF ∧ v 2 % 2 = 1 ∧ v 0x180 = 1 ∧
    v 0x1003 = 0xABCDEF01 ∧ v 0x1007 = 2 ^ 32 - 1 ∧ (s.part 0).ptbase < 2 ^ 21 ∧ v 0x100C = 5 * 2 ^ 16 + 0xFFFF ∧
    (s.part 0).fqbase < 2 ^ 16 ∧ v 0x100F = 2 ^ 32 - 1 ∧ v 0x1020 = 3 * 2 ^ 16 + 4095 ∧ (s.part 0).modid < 2 ^ 12 ∧
    v 0x1700 % 8 = 5 ∧ s.ownsPair 0 5 = true ∧ s.ownsPair 0 7 = false ∧ v 0x4045 = 0x710 ∧ v 0x4047 = 0 ∧
    v 0x5046 = 6 + 8 ∧ v 0x410C = 0x388 ∧ v 0x418C = 65535 ∧ pairOfLink 12 = 6 ∧ v 0x410A = 0 ∧
      (s.pair (pairOfLink 10)).fab = false ∧
    pairOfChan 80 = 5 ∧ v 0x4450 = 0xFFFF0020 ∧ pairOfChan 112 = 7 ∧ v 0x4470 = 0 ∧ s.within 12 96 = false ∧
      v 0x4460 % 8 = 7 ∧ s.within 12 97 = true ∧ v 0x4461 % 8 = 0 ∧
    s.seesArray 0 1 = true ∧ s.seesArray 0 4 = false ∧ v 0x4900 = 0 ∧ s.seesTiming 0 = true ∧ s.seesTiming 1 = false ∧
    s.seesPort 0 6 = true ∧ s.seesPort 0 7 = false ∧ v 0x500F = 0 ∧ (s.meas? 7).length = 64 ∧
    [0x40, 0x17F, 0x200, 0xFFF, 0x1280, 0x16FF, 0x1704, 0x17FF, 0x1900, 0x3FFF, 0x5800, 0xFFFF].all (fun a => v a == 0) ∧
    (s.hostMayWrite true 0 0x18C0, s.hostMayWrite false 0 0x18C0, s.hostMayWrite true 0 0x18FF, s.hostMayWrite true 0 0x18BF) =
      (false, true, false, true) ∧
    (cx s g0).once = true ∧ 0x1200 ≤ 0x1203 ∧ 0x127F % 4 = 3 := by decide +kernel

/-- A gang whose s48 to s55 hold the words ws, in a team that holds every slot and block of its core. -/
def told (ws : List Word) : Gang := wr ((List.range 8).map (fun i => ((RegElem.s (48 + i)), ws.getD i 0))) g0
def ownsAll : State := base.modCore 0 (fun k =>
  { k with slotOwner := (List.range 32).map (fun n => (n, some 2)), blockOwner := (List.range 32).map (fun n => (n, some 2)) })
def co (g : Gang) : Ctx := cx ownsAll g

/-- An MMA of one F64 product: A in slot 0, B in slot 1, accumulated into row 1023. -/
def mma1 : List Word := [0x10000200, 0, 0x00100010, 0, 0x3FF]

/-- FarInstructionsAreAccepted: a block of every kind that is accepted under tag 63, the landing in slots and that in the
scratchpad among them, and a tag of another team. -/
theorem test_w_far :
    let stop := fun (k : Ctx) (regs : List RegRef) (x : Option Stop) => k.farStop (blockOk 0xF0 48) 63 regs x = none
    let eight := sregs (sreg 0xF0) 8
    let zero := co (told [])
    let slots := co (told [0, 0x01000000])
    let eng := co (told [0, 0, 0, 0, 0xFFFFFFF8])
    let walk := co (told [0, 0, 1])
    let fol := wr ((List.range 8).map (fun i => ((RegElem.s (40 + i)), mma1.getD i 0)))
      (told [0, 0x81000000, 0, 0x70000000, 0, 0, 0x01400000])
    let mma := co fol
    let mw := mma.words 0xF0 8
    let mc := co (told [0, 0x01000000, 512, 0xFFFF000F])
    let theirs := ownsAll.modCore 0 (fun k => k.putTag 63 { Tag.reset with state := .busy, pend := 1, owner := 9 })
    zero.once = true ∧ (zero.core.tagForeign 2 63) = false ∧ (theirs.core 0).tagForeign 2 63 = true ∧
      (zero.core.tag 63).pend ≠ 4095 ∧
    (BoxDesc.of (zero.words 0xF0 8) (zero.followWords (zero.words 0xF0 8))).ok false (zero.words 0xF0 8) = true ∧
    stop zero (zero.fgetRegs 0xF0) none ∧ stop zero eight (operandStop ((BoxDesc.of (zero.words 0xF0 8) []).ok true (zero.words 0xF0 8))) ∧
    (BoxDesc.of (slots.words 0xF0 8) []).loc = 1 ∧ slots.core.slotGap 2 0 1 = none ∧
    (BoxDesc.of (slots.words 0xF0 8) []).ok false (slots.words 0xF0 8) = true ∧
    (BoxDesc.of mw (mma.followWords mw)).fmma = some (7, mma1 ++ [0, 0, 0]) ∧
    stop mma (mma.fgetRegs 0xF0) (operandStop ((BoxDesc.of mw (mma.followWords mw)).ok false mw) <|>
      operandStop (MDesc.ok false (mma1 ++ [0, 0, 0]))) ∧ mma.core.mmaGap 2 (MDesc.of (mma1 ++ [0, 0, 0])) = none ∧
    gives (.fget 0xF0 63) (on ownsAll fol) (fun t => gangOf t (·.counter 7 == 1)) ∧
    stop eng eight (operandStop (engineDescOk false false (eng.words 0xF0 8))) ∧
    stop eng eight (operandStop (engineDescOk true false (eng.words 0xF0 8))) ∧
    stop eng eight (operandStop (engineDescOk false true (eng.words 0xF0 8))) ∧
    longKey (walk.words 0xF0 8) = false ∧ bits (dword (walk.words 0xF0 8) 1) 29 28 ≠ 3 ∧ walkDescOk (walk.words 0xF0 8) = true ∧
    stop walk eight none ∧
    ruleDescOk ((co (told [0x10000, 0])).words 0xF0 6) = true ∧ zero.allStoresFirst = none ∧
    zero.ruleWords 0x10000 1 = [0].map Except.ok ∧ [0].all (ruleOk 1) = true ∧
    stop mc eight (operandStop (mcastDescOk (mc.words 0xF0 8))) ∧ ownsAll.freeCorbel 0 = some 0 ∧
    ownsAll.corbelWaits 0 mc.corbelPlace = false ∧ ownsAll.allowed 3 g0 1 = true ∧ zero.poolTakes 16384 = true ∧
    zero.farStop (blockOk 0xF6 54) 63 (sregs (sreg 0xF6) 2) none = none ∧ bits (dword (zero.words 0xF6 2) 1) 19 0 % 16 = 0 := by
  decide +kernel
/-- A failure posted under tag 31. -/
def failed31 : Posted :=
  { at_ := .tag 31, cause := Cause.permission, addr := 0x1000, lanes := [], opc := 0x10000, flags := 0, fdet := 0, req := 9, more := 0,
    chunks := [] }

/-- TagAndChunkInstructions: a READY tag of the team, a BUSY one and one of another team; each instruction's conditions; a
failure posted under the READY tag. -/
theorem test_w_tags :
    let tag := fun (st : TagState) (o : Nat) => ({ Tag.reset with state := st, pend := 1, owner := o } : Tag)
    let s := base.modCore 0 (fun k => ((k.putTag 31 (tag .ready 2)).putTag 32 (tag .busy 2)).putTag 63 (tag .ready 9))
    let k := fun (lo hi : Word) => cx s (wr [(.s 0, lo), (.s 1, hi)] g0)
    let m := fun (lo hi : Word) => (k lo hi).tagMask 0xC0
    gives (.tagwaitAll 0xC0) (on (s.modPart 0 (fun p => { p with then_ := true, th := 0x20000 }))
      { wr [(.s 0, 0x80000000)] g0 with posted := [failed31] }) (fun t => gangOf t (fun g => g.inh &&
        g.trap.cause == Cause.permission &&
        g.posted == [])) ∧ failed31.rank ≤ failed31.rank ∧
    (k 0 0).once = true ∧ g0.posted = [] ∧ (k 0 0).onceStop (pairOk 0xC0) true true (regsOf 0xC0 true) [] [] [] = none ∧
    m 0x80000000 0 = BitVec.ofNat 64 (2 ^ 31) ∧ m 0 1 = BitVec.ofNat 64 (2 ^ 32) ∧ m 0 0x80000000 = BitVec.ofNat 64 (2 ^ 63) ∧
    ((s.core 0).tag 31).state = .ready ∧ ((s.core 0).tag 32).state = .busy ∧ ((s.core 0).tag 63).owner ≠ 2 ∧
    runs (.tagwaitAll 0xC0) (wr [(.s 1, 1)] g0) (fun g => g.groups.all (fun x => x.park.isNone)) ∧
    gives (.tagwaitAll 0xC0) (on s (wr [(.s 1, 1)] g0)) (fun t => gangOf t (fun g => g.groups.any (fun x => x.park.isSome))) ∧
    gives (.tagwaitAny 0xC0) (on s (wr [(.s 0, 0x80000000), (.s 1, 1)] g0)) (fun t =>
      gangOf t (fun g => g.groups.all (fun x => x.park.isNone))) ∧
    gives (.tagrel 0xC0) (on s (wr [(.s 0, 0x80000000)] g0)) (fun t => (t.core 0).tag 31 == Tag.reset &&
      (t.core 0).tag 32 == tag .busy 2) ∧
    (k 0 0).onceStop (pairOk 0xC0 && scalarDst 0xF7) true true (regsOf 0xC0 true) [] [] (regsOf 0xF7 false) = none ∧
    (k 0x800007FF 0).onceStop (scalarDst 0xF7 && scalarOk 0xC0 && scalarOk 0xC1) (bits 0x800007FF 30 11 == 0) true
      (regsOf 0xC0 false) (regsOf 0xC1 false) [] (regsOf 0xF7 false) = none ∧
    (match (k 0 0).team with
      | some tm => (tm.onCore 0).isSome
      | none => false) = true ∧
    (k 127 0).onceStop (scalarOk 0xC0 && scalarOk 0xC1) (127 / 128 == 0) true (regsOf 0xC0 false) (regsOf 0xC1 false) [] [] = none ∧
    base.resident g0 = true ∧ g0.index = 0 ∧ (k 63 0).onceStop (scalarDst 0xF7 && scalarOk 0xC0) true true (regsOf 0xC0 false) [] []
      (regsOf 0xF7 false) = none ∧
    gives (.fstat 0xF7 0xC0 0) (on s (wr [(.s 0, 31)] g0)) (fun t => gangOf t (fun g => g.settled (.s 55) == 0x10002)) := by decide +kernel

/-- A request of the gang under tag 5 on bytes 0x1000 to 0x100F of module 7, which reads pattern bytes from src. -/
def freq (k : FarKind) : FarReq :=
  { gang := 3, team := 2, core := 0, tag := 5, opc := 0x10000, kind := k, charge := 1, pool := 1,
    pieces := [{ local_ := 0, far := 0x1000, page := 0, modid := 7, offset := 0x1000, len := 16, mseq := 0 }], srcPieces := [],
    arrived := [], sent := true, src := (List.range 16).map (fun i => (i, some (BitVec.ofNat 8 (i + 1)))), chunks := [], landed := 0,
    fails := [], badChunks := [], posted := false, left := [], held := false, walk := none, performed := false }

/-- The box of 16 bytes at far address 0x1000, in location loc at 0. -/
def box16 (loc : Nat) : BoxDesc := BoxDesc.of [0x1000, BitVec.ofNat 32 (loc * 2 ^ 24), 0, 0, 15] []

/-- Memory-fabric channel 7, which leads to module 7, is ACTIVE and its link is up. -/
def lit7 (s : State) : State := (s.putChan 7 { Chan.reset with state := .active }).putLink 135 { Link.reset with state := .up }

/-- Module 7, reached, with a window for partition 0 on its first 64 KiB. -/
def windowed : State :=
  lit7 (base.putModule 7 { Module.reset with windows := [⟨base.pkg, 0, true, true, false, 0, 0, 0, 1⟩] })

/-- ModulesPerformTheirRuns: the last byte of the run that each kind touches, and of one that no window accepts. -/
theorem test_w_modules :
    let at_ := fun (s : State) (k : FarKind) => (s.putReq 11 (freq k))
    let p := (freq .walk).pieces.headD ⟨0, 0, 0, 0, 0, 0, 0⟩
    let q : Piece := { p with offset := 0x2000 }
    let ok := fun (s : State) (r : FarReq) => r.sent && r.pieces == [p] && p.modid == 7 && r.arrived == [] &&
      (s.putReq 11 r).firstAt 11 r 7 && !(s.putReq 11 r).reqHalted r
    (∀ k ∈ [FarKind.get (box16 0), .put (box16 0), .fill 0 16 5, .copy 0 0 16], ok windowed (freq k) = true) ∧
    (windowed.module 7).acceptsPage base.pkg 0 Need.load [p] p = true ∧
    (windowed.module 7).acceptsPage base.pkg 0 Need.store [p] p = true ∧
    (base.module 7).acceptsPage base.pkg 0 Need.load [p] p = false ∧
    (windowed.module 7).acceptsPage base.pkg 0 Need.load [q] q = true ∧
    (∀ k ∈ [FarKind.red 2 0 0 16, .rule 15 [7] 0x1000], ok windowed (freq k) = true) ∧
    (windowed.module 7).acceptsPage base.pkg 0 Need.atomic [p] p = true ∧
    gives (.moduleRequestArrival 11 7 []) ((windowed.modModule 7 (fun m => { m with mem := [(0x100C, 3), (0x200C, 9)] })).putReq 11
      { freq (.red 2 0 0 16) with srcPieces := [q] }) (fun t => Memory.readNat (t.module 7).mem 0x100C 4 == 12) ∧
    gives (.moduleRequestArrival 11 7 []) (at_ windowed (.rule 15 [7] 0x1000)) (fun t =>
      Tbl.get [] (t.module 7).programs 15 == [7] && Tbl.get [] (t.module 7).programs 14 == []) ∧
    windowed.reachesModule 7 = true ∧ base.reachesModule 7 = false ∧
    (at_ windowed (.red 0 0 0 16)).atWork 11 (freq (.red 0 0 0 16)) 7 = true ∧
    (FarKind.fill 0 16 5).paused = true ∧ (FarKind.walk).paused = false ∧
    gives (.moduleRequestArrival 11 7 []) (at_ windowed (.put (box16 0))) (fun t => Memory.readByte (t.module 7).mem 0x100F == 16) ∧
    gives (.moduleRequestArrival 11 7 []) (at_ windowed (.fill 0 16 0x0807060504030201)) (fun t =>
      Memory.readByte (t.module 7).mem 0x100F == 8 && Memory.readByte (t.module 7).mem 0x1010 == 0) ∧
    gives (.moduleRequestArrival 11 7 []) (at_ (lit7 base) (.put (box16 0))) (fun t => (t.module 7).mem == [] &&
      match t.req? 11 with
      | some r => r.fails == [(moduleKey 0, ⟨Cause.permission, 0x1000, false, 0⟩)]
      | none => false) ∧
    gives (.moduleRequestArrival 11 7 []) ((windowed.modModule 7 (fun m => { m with mem := [(0x200F, 9)] })).putReq 11
      { freq (.copy 0 0 16) with srcPieces := [q] }) (fun t => Memory.readByte (t.module 7).mem 0x100F == 9) := by decide +kernel

/-- FarRequestsLandAndEnd: a chunk for the scratchpad and one for the slots, an end, a follow-on MMA, a multicast, a walk's read
and a group parked for the Lintel. -/
theorem test_w_farEnds :
    let tagged := (lit7 ownsAll).modCore 0 (fun k => k.putTag 5 { Tag.reset with state := .busy, pend := 1, owner := 2 })
    let chunk := fun loc => { freq (.get (box16 loc)) with chunks := [0], arrived := [7] }
    let mm := { freq (.get (BoxDesc.of [0, 0x81000000, 0, 0x70000000] [0, 0x00000000])) with arrived := [7] }
    let cast := { freq (.mcast 0 7 false 0 16) with arrived := [7] }
    let filled := (tagged.putReq 11 cast).putCorbel 0 7 { CorbelSlot.reset with used := true, order := 11, len := 16 }
    let x : Group := { lowHalf with park := some (.lintel 1 true false), since := 4 }
    let waits := { parted with groups := [x] }
    let lint := base.putGang 3 waits
    (tagged.putReq 11 (chunk 0)).chunkReady (chunk 0) 0 16 = true ∧ base.teamPart 2 = 0 ∧ (base.part 0).halted = false ∧
    (match base.team? 2 with
      | some tm => decide (512 ≤ tm.alloc) && (tm.onCore 0).isSome
      | none => false) = true ∧
    (∀ o < 16, (Tbl.get none (chunk 0).src o).isSome = true) ∧ (tagged.core 0).slotHolder (15 / 16384) = some 2 ∧
    ((box16 1).landing.bounds 0) = (0, 16) ∧
    gives (.chunkLand 11 0) (tagged.putReq 11 (chunk 0)) (fun t => t.padRead 2 0 15 1 == 16) ∧
    gives (.chunkLand 11 0) (tagged.putReq 11 (chunk 1)) (fun t => Memory.readByte (t.core 0).slots 15 == 16) ∧
    ({ chunk 0 with chunks := [] }).over = true ∧ (tagged.putReq 11 (chunk 0)).reported { chunk 0 with chunks := [] } = true ∧
      tagged.isSaved 2 = false ∧ (box16 0).bar = none ∧ (box16 0).fmma = none ∧
    gives (.farRequestEnd 11) (tagged.putReq 11 { chunk 0 with chunks := [] }) (fun t => ((t.core 0).tag 5).state == .ready) ∧
    mm.follow = some (7, [0, 0]) ∧ tagged.frozen 0 = false ∧ tagged.frozenBefore 0 tagged.next = false ∧
      (tagged.core 0).mmaGap 2 (MDesc.of [0, 0]) = none ∧
    gives (.followOnMmaAccept 11) (tagged.putReq 11 mm) (fun t => (t.core 0).engine.length == 1) ∧
    cast.allArrived = true ∧ cast.modules.all filled.reachesModule = true ∧ filled.reqHalted cast = false ∧ cast.fills 0 7 = true ∧
    gives (.corbelSlotFilled 0 7) filled (fun t => (t.corbelSlot 0 7).data == (List.range 16).map (fun i => BitVec.ofNat 8 (i + 1))) ∧
    lint.lintelParked 0 = [(3, x)] ∧ x.park = some (.lintel 1 true false) ∧ lint.allowed 3 waits 1 = true ∧
    lint.pool 0 + 1 ≤ 16384 ∧ lint.poolWaits 0 4 = false ∧
    gives (.lintelAdmit 0) lint (fun t => gangOf t (fun g => g.groups.all (fun y => y.park != x.park))) := by decide +kernel

/-- FarRequestsLandAndEnd, what follows: ends with a barrier, all landed and not, and with a follow-on, performed and not; a
follow-on under a freeze and one whose team holds nothing; another byte of the scratchpad and of the slots. -/
theorem test_w_followOns :
    let tagged := (lit7 ownsAll).modCore 0 (fun k => k.putTag 5 { Tag.reset with state := .busy, pend := 1, owner := 2 })
    let chunk := fun loc => { freq (.get (box16 loc)) with chunks := [0], arrived := [7] }
    let ended := fun n => { freq (.get { box16 0 with bar := some 15 }) with landed := n }
    let expects := (tagged.putGang 3 g0).modTeam 2 (fun tm => tm.putBarrier 15 { tm.barrier 15 with expb := 10 })
    let bytes := fun (t : State) => (t.team? 2).map (fun tm => (tm.barrier 15).bytes)
    let mm := fun b => { freq (.get { box16 0 with fmma := some (7, mma1) }) with arrived := [7], performed := b }
    let counts := tagged.putGang 3 { g0 with k := [(7, 3)] }
    let empty := counts.modCore 0 (fun k => { k with slotOwner := [] })
    let halted := counts.modPart 0 (fun p => { p with halted := true })
    g0.tokens = [] ∧ g0.ended = false ∧
    gives (.chunkLand 11 0) (tagged.putReq 11 (chunk 0)) (fun t => t.padRead 2 0 16 1 == tagged.padRead 2 0 16 1) ∧
    gives (.chunkLand 11 0) (tagged.putReq 11 (chunk 1)) (fun t =>
      Memory.readByte (t.core 0).slots 16 == Memory.readByte (tagged.core 0).slots 16) ∧
    ((ended 15).over, (ended 16).over, (mm true).over, (mm false).over) = (true, true, true, false) ∧
    expects.reported (ended 15) = true ∧ expects.reqHalted (ended 15) = false ∧ expects.isSaved 2 = false ∧
    ((box16 0).size, bytes expects) = (16, some 0) ∧
    gives (.farRequestEnd 11) (expects.putReq 11 (ended 15)) (fun t => bytes t == some 1) ∧
    gives (.farRequestEnd 11) (expects.putReq 11 (ended 16)) (fun t => bytes t == some 0) ∧
    gives (.farRequestEnd 11) (counts.putReq 11 (mm true)) (fun t => gangOf t (·.counter 7 == 3)) ∧
    ({ mm false with fails := [(0, ⟨0x10, 0x1000, false, 0⟩)] }).over = true ∧
    gives (.farRequestEnd 11) (counts.putReq 11 { mm false with fails := [(0, ⟨0x10, 0x1000, false, 0⟩)] }) (fun t =>
      gangOf t (fun g => g.counter 7 == 2 && g.posted.any (fun q => q.at_ == .tag 5))) ∧
    (mm false).follow = some (7, mma1) ∧ (empty.frozen 0, halted.frozen 0) = (false, true) ∧
      empty.frozenBefore 0 empty.next = false ∧
    (empty.core 0).mmaGap 2 (MDesc.of mma1) = some (slotMark 0) ∧
    gives (.followOnMmaAccept 11) (empty.putReq 11 (mm false)) (fun t => gangOf t (fun g => g.counter 7 == 2 &&
      g.posted.any (fun q => q.at_ == .counter 7 && q.cause == Cause.slotState && q.addr == slotMark 0))) ∧
    gives (.followOnMmaAccept 11) (halted.putReq 11 (mm false)) (fun t => (t.core 0).heldMma.length == 1) := by decide +kernel

/-- A walk that has run the words ws no further than their first. -/
def walking (ws : List Word) : Walk :=
  { walkOf [] with modid := 7, words := ws, key := [5], limit := 1, p := 0x10, start := 8, started := true }

/-- FarRequestsLandAndEnd: rule words of each kind; a step within the limit and beyond it; addresses that translate, that no window
covers, that are not aligned. -/
theorem test_w_cairn :
    let m := windowed.module 7
    let plain := fun k (x : Nat) => Walk.plain m base.pkg 0 k x
    let k := walking []
    (Tbl.get 0 (plain k 0x86600005).w 3).toNat = 5 ∧ (plain k 0x86600005).rule = 1 ∧
    (plain k 0x20000009).rule = 9 ∧ (plain k 0x30000009).rule = 1 ∧ (plain k 0x50000000).steps = 1 ∧
    (plain { k with steps := 1 } 0x50000000).result.isSome ∧ (plain k 0xC0000000).retries = 1 ∧
    (plain k 0xE0000000).result.isSome ∧ ruleRead 0x00000008 = some (8, true) ∧ ruleRead 0x10000000 = some (1, false) ∧
    ruleRead 0x86600005 = none ∧ (walking [0xE0000000]).words[(walking [0xE0000000]).rule]? = some 0xE0000000 ∧
    (walking []).words[(walking []).rule]? = none ∧ k.run ≠ 64 ∧ k.staged.length ≤ 256 ∧
    m.translate base.pkg 0 0 true 8 8 = .ok 8 ∧ m.translate base.pkg 0 0 true 9 8 = .error 1 ∧
    m.translate base.pkg 0 0 false 0x10000 1 = .error 2 ∧ m.translate base.pkg 0 0 false 0xFFFF 2 = .error 2 ∧
    ({ m with windows := m.windows.map (fun w => { w with flushReq := true }) } : Module).translate base.pkg 0 0 false 8 1 = .error 3 := by
  decide +kernel

/-- Partition 0's domain: package 1, where it is partition 3, and its own package. -/
def domains : State :=
  { base.modPart 0 (fun p => { p with dombase := 8 }) with
    vault := Memory.writeNat (Memory.writeNat base.vault 0x4000 2 0x8000) 0x4002 2 0x8003, caps := [(1, 0x7F)] }

/-- A gang whose s52 to s54 hold the words of a remote operation, and s0 a value. -/
def asks (w0 w2 x : Word) : Gang := wr [(.s 52, w0), (.s 54, w2), (.s 0, x)] g0

/-- RemoteOperationsAreSent: every kind to a peer and to this package, the counted store, a gang that waits for an answer. -/
theorem test_w_remoteSent :
    let k := cx domains (asks 0x40000 0x1FF 5)
    let f := cx domains (typed 10 0 63 0 (asks 0x40000 0x1FF 5))
    let n := cx domains (asks 0x40000 0x003C01FF 5)
    base.pkg = 0 ∧ domains.domain 0 1 = some 3 ∧ domains.domain 0 0 = some 0 ∧ domains.domain 0 2 = none ∧
    k.remoteStop .rld 190 0xF4 0xF8 = none ∧ k.remoteStop .rst 0 0xF4 0xF8 = none ∧ k.remoteStop .add 0 0xF4 0xF8 = none ∧
    k.remoteStop .cas 2 0xF4 0xF8 = none ∧ f.remoteStop .fadd 0 0xF4 0xF8 = none ∧ k.takers ≠ [] ∧
    (∀ l ∈ k.takers, k.remoteFault (k.words 0xF4 3) 0xF8 1 l = none) ∧ n.g.counter 7 ≠ 4095 ∧
    bit (dword (n.words 0xF4 3) 2) 21 = true ∧ bits (dword (n.words 0xF4 3) 2) 20 18 = 7 ∧
    (cx domains (typed 4 0 1 0 (asks 0x40000 0x1FF 5))).takers = [] ∧
    gives (.ratomAdd 0 0xF4 0xF8) (on domains (asks 0x40000 0x1FF 5)) (fun t => t.remoteBusy 3 && t.netq.length == 1) ∧
    gives (.rst 0 0xF4 0xF8) (on domains (asks 0x40000 0x003C00FF 5)) (fun t => t.inbound.length == 1 &&
      gangOf t (·.counter 7 == 1)) ∧
    Code.rfence 0x13 = false ∧ (List.range 256).any (fun x => Code.rfence (BitVec.ofNat 8 x)) = true := by decide +kernel

/-- RemoteOperationsAreSent: the new value of a CAS of 4 bytes and of 8; each capability that a peer lacks. -/
theorem test_w_remoteCaps :
    let vals := fun (t : Nat) => wr [(.v 0 31, 7), (.v 1 31, 8), (.v 2 31, 9), (.v 3 31, 1)] (typed t 0 63 0 (asks 0x40000 0x1FF 5))
    let swaps := fun (t : Nat) (old new : DWord) => gives (.ratomCas 0 0xF4 0xF8) (on domains (vals t)) (fun s =>
      match s.remote? domains.next with
      | some r => r.op.kind == .cas && r.op.lanes.any (fun x => x.lane == 31 && x.arg == old && x.new == new)
      | none => false)
    let lacks := fun (n : Nat) => { domains with caps := Tbl.set 0 domains.caps 1 (BitVec.ofNat 7 (127 - 2 ^ n)) }
    let traps := fun (i : Instr) (n t : Nat) => gives i
      (on ((lacks n).modPart 0 (fun q => { q with then_ := true, th := 0x20000 })) (vals t)) (fun s =>
        gangOf s (fun g => g.inh && g.trap.cause == Cause.atomicUnsupported))
    swaps 4 7 8 = true ∧ swaps 6 0x800000007 0x100000009 = true ∧
    traps (.ratomAdd 0 0xF4 0xF8) 0 4 = true ∧ traps (.ratomAdd 0 0xF4 0xF8) 1 6 = true ∧
    traps (.ratomCas 0 0xF4 0xF8) 2 4 = true ∧ traps (.ratomCas 0 0xF4 0xF8) 3 6 = true ∧
    traps (.ratomFadd 0 0xF4 0xF8) 4 10 = true ∧ traps (.ratomFadd 0 0xF4 0xF8) 5 11 = true ∧
    traps (.ratomFadd 0 0xF4 0xF8) 6 15 = true ∧
    (∀ e ∈ [(RemoteKind.add, 0, 4), (.add, 1, 6), (.cas, 2, 4), (.cas, 3, 6), (.fadd, 4, 10), (.fadd, 5, 11), (.fadd, 6, 15)],
      (cx domains (vals e.2.2)).remoteStop e.1 0 0xF4 0xF8 = none ∧ (lacks e.2.1).hasCap 1 e.1 e.2.2 = false) ∧
    (127 : BitVec 7) = Tbl.get 0 domains.caps 1 := by decide +kernel

/-- An operation of lane 31 of package 1's partition 3 on the word at 0x40000. -/
def rop (k : RemoteKind) : RemoteOp :=
  { ident := 9, srcPkg := 1, srcPart := 3, stream := 5, seq := 0, part := 0, kind := k, etype := 4, sat := false,
    lanes := [{ lane := 31, addr := 0x40000, arg := 7, new := 8 }] }

/-- RemoteOperationsArePerformedAndAnswered: every kind; outside the domain; an answer to each kind. -/
theorem test_w_remoteAnswered :
    let out := fun (k : RemoteKind) (kc : Option Nat) => (⟨3, 0x10000, 0, kc, rop k, 1, 0xFF, 0xFFFFFFFF, [], []⟩ : RemoteOut)
    let waits := { g0 with groups := [{ slices := 0xFF, pc := 0x10000, park := some (.ratom 9), since := 0 }] }
    let asked := fun (g : Gang) k kc => (handled.putGang 3 g).putRemote 9 (out k kc)
    let answer : RemoteReply := { ident := 9, refused := false, lanes := [.value 31 0x1FF] }
    (∀ k ∈ [RemoteKind.rld, .rst, .add, .cas], (domains.arrive (.remote (rop k))).firstInbound (.remote (rop k)) = true ∧
      (domains.arrive (.remote (rop k))).runsReady 4 ((domains.arrive (.remote (rop k))).remoteRuns (rop k)) true = true ∧
      (domains.access 0 0x40000 4 (remoteNeed k)).toOption = some 0x40000) ∧
    domains.firstInbound (.remote { rop .rst with seq := 1 }) = false ∧ domains.isDue (.remote { rop .rst with seq := 1 }) = true ∧
    domains.domain 0 1 = some (rop .rld).srcPart ∧ base.domain 0 1 ≠ some (rop .rld).srcPart ∧
    (match domains.access 0 0x4000000 4 (remoteNeed .rst) with
      | .error _ => true
      | .ok _ => false) = true ∧
    gives (.remoteOpArrival (rop .add)) domains (fun t => Memory.readNat t.vault 0x40000 4 == 7) ∧
    gives (.remoteOpArrival (rop .add)) base (fun t => Memory.readNat t.vault 0x40000 4 == 0) ∧
    ({ domains with badWords := [0x8000] } : State).spoiled 0x40000 4 Need.load = true ∧
    gives (.remoteOpArrival (rop .rld)) { domains with badWords := [0x8000] } (fun t => t.netq ==
      [(1, .reply { ident := 9, refused := false, lanes := [.fault 31 Cause.permission true] })]) ∧
    (asked g0 .rld none).isSaved 2 = false ∧ g0.tokens = [] ∧ waits.waitsRatom 9 0xFF = true ∧ waits.inh = false ∧
    gives (.rldReply answer) (asked g0 .rld none) (fun t => gangOf t (fun g => g.settled (.v 0 31) == 0x1FF)) ∧
    gives (.rstAck answer) (asked (g0.putCounter 7 2) .rst (some 7)) (fun t => gangOf t (fun g => g.counter 7 == 1)) ∧
    gives (.ratomResponse answer) (asked waits .add none) (fun t => gangOf t (fun g => g.settled (.v 0 31) == 0x1FF &&
      g.groups.all (fun y => y.pc == 0x10004 && y.park.isNone))) ∧
    gives (.ratomResponse { answer with refused := true, lanes := [] }) (asked waits .add none) (fun t =>
      gangOf t (fun g => g.inh && g.trap.cause == Cause.atomicUnsupported)) := by decide +kernel
/-- Communicator 255 of partition 0: packages 0 and 1. -/
def meeting : State :=
  { domains.modPart 0 (fun p => { p with commbase := 5 }) with
    vault := Memory.writeNat (Memory.writeNat (Memory.writeNat domains.vault 0x5FF0 2 2) 0x5FF8 4 0x6000) 0x6002 2 1 }

/-- RemoteOperationsArePerformedAndAnswered: two lanes on one word, one of them outside the mapped pages; reservations on the
granule that is written and on the next. -/
theorem test_w_remoteLanes :
    let two := fun k => { rop k with lanes := [{ lane := 0, addr := 0x40000, arg := 7, new := 8 },
      { lane := 31, addr := 0x40000, arg := 7, new := 9 }] }
    let holds := domains.putGang 3 ((g0.setReserve 0 (some 0x1000)).setReserve 31 (some 0x1001))
    let keeps := fun (t : State) => gangOf t (fun g => g.reserved 31 == some 0x1001)
    let breaks := fun (t : State) => gangOf t (fun g => g.reserved 0 == none)
    (two .add).srcPkg ≠ domains.pkg ∧ (domains.arrive (.remote (two .add))).firstInbound (.remote (two .add)) = true ∧
    (domains.arrive (.remote (two .add))).runsReady 4 ((domains.arrive (.remote (two .add))).remoteRuns (two .add)) true = true ∧
    gives (.remoteOpArrival (two .add)) domains (fun t => Memory.readNat t.vault 0x40000 4 == 14 &&
      t.netq == [(1, .reply { ident := 9, refused := false, lanes := [.value 0 0, .value 31 7] })]) ∧
    gives (.remoteOpArrival (rop .rst)) holds (fun t => breaks t && keeps t) ∧
    gives (.remoteOpArrival (rop .cas)) holds (fun t => !breaks t && keeps t) ∧
    gives (.remoteOpArrival (rop .rld)) holds (fun t => !breaks t && keeps t) := by decide +kernel

/-- A SUM of two S32 elements over it, and the descriptor of a QSEND of 16 bytes to package 1. -/
def collWords : List Word := [0x40000, 0x20000000, 0x48000, 0, 8, 255, 0, 0xFF]
def qsendWords (x : Word) : List Word := [0x40000, 0, 0x48000, 0, 16, x, 0, 0]

/-- CollectivesAndSendsAreEntered: each instruction under tag 63, a full queue, a peer outside the domain. -/
theorem test_w_collectives :
    let k := cx meeting (told collWords)
    let q := fun (x : Word) => cx meeting (told (qsendWords x))
    let full := meeting.modPart 0 (fun p => { p with
      sendq := [(1, (List.range 16).map (fun i => ⟨i, 3, [], 0, 0, 16, false, 0, 0⟩))] })
    let r := fun (x : Word) => cx meeting (wr [(.s 0, x)] g0)
    k.once = true ∧ k.collStop 0xF0 63 = none ∧ k.collSendRuns 0xF0 = .ok [(0x40000, 8)] ∧
    k.collRecvRuns 0xF0 = .ok [(0x48000, 8)] ∧ k.core.tagForeign 2 63 = false ∧ (k.core.tag 63).pend ≠ 4095 ∧
    gives (.coll 0xF0 63) (on meeting (told collWords)) (fun t => t.netq.length == 1) ∧
    (r 255).onceStop (scalarDst 0xF7 && scalarOk 0xC0) (decide (255 < 256) && (meeting.commEntry 0 255).p != 0) true
      (regsOf 0xC0 false) [] [] (regsOf 0xF7 false) = none ∧
    (q 0x3C01).farStop (blockOk 0xF0 48) 63 (sregs (sreg 0xF0) 8) (operandStop (qsendOk 0 (qsendWords 0x3C01))) = none ∧
    (q 1).allStoresFirst = none ∧ qsendCounter (qsendWords 0x3C01) = some 7 ∧ qsendCounter (qsendWords 1) = none ∧
    (meeting.domain 0 1).isSome = true ∧ meeting.domain 0 2 = none ∧ qsendPeer (qsendWords 2) = 2 ∧
    meeting.runs 0 0x40000 16 Need.load = .ok [(0x40000, 16)] ∧ 16 ≤ ((full.part 0).sendQueue 1).length ∧
    ((meeting.part 0).sendQueue 1).length < 16 ∧
    gives (.qsend 0xF0 63) (on meeting (told (qsendWords 0x3C01))) (fun t => ((t.part 0).sendQueue 1).length == 1 &&
      gangOf t (·.counter 7 == 1)) ∧
    gives (.qsend 0xF0 63) (on full (told (qsendWords 1))) (fun t => gangOf t (fun g => g.groups.any (fun x => x.park == some (.qfull 1)))) ∧
    (r 1).onceStop (scalarDst 0xF7 && scalarOk 0xC0) (decide (1 < 1024) && (meeting.domain 0 1).isSome) true
      (regsOf 0xC0 false) [] [] (regsOf 0xF7 false) = none ∧
    (r 0).onceStop (pairOk 0xF6) true true [] [] [] (regsOf 0xF6 true) = none := by decide +kernel

/-- CollectivesAndSendsComplete: messages that agree and that do not, the last bytes of a QSEND from the domain and from outside
it, its report, and what reaches a saved team. -/
theorem test_w_collEnds :
    let m := fun (rank root : Nat) => (⟨0, 255, rank, 0, 0, 2, 8, root, 0, 2, [], [1, 0, 0, 0, 255, 255, 255, 255]⟩ : CollMsg)
    let s := (domains.modPart 0 (fun p => p.putComm 255 { Comm.reset with
      accepted := 1, waiting := [⟨11, [(0x48000, 8)], m 0 0⟩] })).putReq 11 (freq (.coll 255))
    let d : QData := ⟨12, 1, 3, 0, 0, 0x48000, [7, 8], true, 2, false, 0⟩
    let q := base.putReq 11 { freq (.qsend 1 (some 7)) with sent := false, pieces := [] }
    let saved := q.modTeam 2 (fun tm => { tm with status := .saved })
    (s.part 0).halted = false ∧ ((s.part 0).comm 255).msgs = [] ∧ CollMsg.agrees (m 1 0) (m 0 0) = true ∧
    CollMsg.agrees (m 1 1) (m 0 0) = false ∧ s.runsReady 4 [(0x48000, 8)] true = true ∧
    (collResult 0 2 8 0 0 [(m 0 0).data, (m 1 0).data]).length = 8 ∧
    gives (.collMessageArrival (m 1 0)) s (fun t => Memory.readBytes t.vault 0x48000 8 == [2, 0, 0, 0, 254, 255, 255, 255]) ∧
    gives (.collMessageArrival (m 1 1)) s (fun t => ((t.part 0).comm 255).mis) ∧
    (domains.arrive (.qdata d)).firstInbound (.qdata d) = true ∧
      (domains.arrive (.qdata d)).runsReady 4 ((domains.arrive (.qdata d)).qPlaces d) true = true ∧ q.imageReady 2 = true ∧ domains.qbad = [] ∧
    domains.domain 0 1 = some 3 ∧ domains.qRuns d = [(0x48000, 2, .ok 0x48000)] ∧
    gives (.qsendDataArrival d) domains (fun t => Memory.readBytes t.vault 0x48000 2 == [7, 8] &&
      t.out == [.qsendReport 1 12 none]) ∧
    domains.domain 0 1 ≠ some ({ d with srcPart := 4 }).srcPart ∧ q.qSent 0 1 11 = true ∧ q.isSaved 2 = false ∧
    gives (.qsendCompletionReport 11 none) (q.putGang 3 (g0.putCounter 7 2)) (fun t => (t.req? 11).isNone &&
      gangOf t (·.counter 7 == 1)) ∧
    saved.isSaved 2 = true ∧ ({ freq (.qsend 1 none) with sent := false, performed := true }).over = true ∧
    gives (.savedTeamArrival 2 .cancel) saved (fun t => gangOf t (·.evpend.getLsbD 16)) := by decide +kernel

/-- CollectivesAndSendsComplete: a collective of three members, none of the others there, one of another group, all there; the
reductions of three members; the notify word, read, on no page and in error; a failed page and a failed report. -/
theorem test_w_collForms :
    let m := fun (rank digest : Nat) =>
      (⟨0, 255, rank, 0, 0, 2, 4, 0, 0, 3, [BitVec.ofNat 8 digest], [BitVec.ofNat 8 rank, 0, 0, 0]⟩ : CollMsg)
    let at_ := fun (msgs : List CollMsg) => (domains.modPart 0 (fun p => p.putComm 255 { Comm.reset with
      accepted := 1, waiting := [⟨11, [(0x48000, 4)], m 0 0⟩], msgs := msgs })).putReq 11 (freq (.coll 255))
    let d : QData := ⟨12, 1, 3, 0, 0, 0x48000, [7, 8], true, 2, true, 0x48008⟩
    let bad := { domains with badWords := [0x9001] }
    let fails := fun (q : QData) (s : State) (x : QFault) => gives (.qsendDataArrival q) s (fun t =>
      t.out == [.qsendReport 1 12 (some x)])
    let q := base.putReq 11 { freq (.qsend 1 (some 7)) with sent := false, pieces := [] }
    CollMsg.agrees (m 1 0) (m 0 0) = true ∧ CollMsg.agrees (m 1 1) (m 0 0) = false ∧
    gives (.collMessageArrival (m 1 0)) (at_ []) (fun t => ((t.part 0).comm 255).msgs == [m 1 0] && (t.req? 11).isSome) ∧
    gives (.collMessageArrival (m 1 1)) (at_ []) (fun t => ((t.part 0).comm 255).mis && ((t.part 0).comm 255).waiting == []) ∧
    gives (.collMessageArrival (m 2 0)) (at_ [m 1 0]) (fun t => Memory.readNat t.vault 0x48000 4 == 3 &&
      ((t.part 0).comm 255).ended == 1) ∧
    (at_ []).runsReady 4 [(0x48000, 4)] true = true ∧
    collResult 0 2 4 0 1 [[255, 255, 255, 255], [2, 0, 0, 0], [3, 0, 0, 0]] = [4, 0, 0, 0] ∧
    collResult 1 2 4 0 1 [[255, 255, 255, 255], [2, 0, 0, 0], [3, 0, 0, 0]] = [3, 0, 0, 0] ∧
    collResult 0 1 4 0 0 [[0, 0, 0x80, 0x3F], [0, 0, 0, 0x40], [0, 0, 0x80, 0x3F]] = [0, 0, 0x80, 0x40] ∧
    collResult 1 0 2 0 0 [[0x80, 0x3F], [0, 0x40], [0x80, 0x3F]] = [0, 0x40] ∧
    collResult 2 2 8 0 1 [[1, 0, 0, 0, 5, 0, 0, 0], [2, 0, 0, 0, 6, 0, 0, 0]] = [11, 0, 0, 0] ∧
    collResult 4 2 4 1 0 [[1], [2]] = [2] ∧ collResult 5 2 0 0 0 [[], []] = [] ∧
    (let s1 := domains.arrive (.qdata d)
     (s1.firstInbound (.qdata d) && s1.runsReady 4 (s1.qPlaces d) true) = true) ∧
    domains.access 0 0x48008 8 Need.atomic = .ok 0x48008 ∧ domains.spoiled 0x48008 8 Need.atomic = false ∧
    gives (.qsendDataArrival d) domains (fun t => Memory.readNat t.vault 0x48008 8 == 2 && t.out == [.qsendReport 1 12 none]) ∧
    bad.spoiled 0x48008 8 Need.atomic = true ∧ fails d bad { cause := Cause.permission, addr := 0x48008, ecc := true } = true ∧
    fails { d with nva := 0x4000000 } domains { cause := Cause.translation, addr := 0x4000000 } = true ∧
    fails { d with dst := 0x4000000 } domains { cause := Cause.translation, addr := 0x4000000 } = true ∧
    gives (.qsendDataArrival { d with last := false }) domains (fun t => Memory.readBytes t.vault 0x48000 2 == [7, 8] &&
      t.out == []) ∧
    gives (.qsendCompletionReport 11 (some { cause := Cause.permission, addr := 0x48000, ecc := true }))
      (q.putGang 3 (g0.putCounter 7 2)) (fun t => (t.req? 11).isNone &&
        ((t.core 0).tag 5).cause == Cause.permission) := by decide +kernel

/-- MatrixUnitsAreClaimed: units that are free and that are not, a frozen engine, a slot that a request writes, and the groups
that parked for them. -/
theorem test_w_units :
    let k := fun (s : State) (x y : Word) => cx s (wr [(.s 54, x), (.s 55, y)] g0)
    let halt := base.modPart 0 (fun p => { p with halted := true })
    let taken := base.modCore 0 (fun k => { k with slotOwner := [(31, some 9)] })
    let writing := ownsAll.putReq 11 { freq (.get (box16 1)) with chunks := [0] }
    let waits := fun p => { g0 with groups := [{ lowHalf with slices := 0xFF, park := some p }] }
    (k base 1 0).claimStop 0xF6 = none ∧ (k base 1 0).once = true ∧ (k base 1 0).engineHolds = false ∧
      (k halt 1 0).engineHolds = true ∧
    base.claimable 0 2 base.next 0xFFFFFFFF 0xFFFFFFFF = true ∧ taken.claimable 0 2 taken.next 0x80000000 0 = false ∧
    ownsAll.slotWriter 0 2 ((k ownsAll 1 0).core.heldSlots 2 1) = false ∧
    writing.slotWriter 0 2 ((k writing 1 0).core.heldSlots 2 1) = true ∧
    gives (.mclaim 0xF6) (on base (wr [(.s 54, 0x80000000), (.s 55, 0x80000000)] g0)) (fun t =>
      (t.core 0).slotHolder 31 == some 2 && (t.core 0).blockHolder 31 == some 2) ∧
    gives (.mclaim 0xF6) (on taken (wr [(.s 54, 0x80000000)] g0)) (fun t => gangOf t (fun g => g.groups.any (fun x => x.park.isSome))) ∧
    gives (.mrel 0xF6) (on ownsAll (wr [(.s 54, 1)] g0)) (fun t => (t.core 0).slotHolder 0 == none &&
      (t.core 0).slotHolder 1 == some 2) ∧
    (let x := (0x1F03 : Word).toNat
     (cx base (wr [(.s 0, 0x1F03)] g0)).onceStop (scalarDst 0xF7 && scalarOk 0xC0) (bits x 7 4 == 0 && x / 2 ^ 13 == 0 &&
       decide (x % 16 ≤ 4))
       true (regsOf 0xC0 false) [] [] (regsOf 0xF7 false) = none) ∧
    base.frozenBefore 0 (c g0).frozenPlace = false ∧ base.frozen 0 = false ∧
    gives (.mclaimGrant 0) (base.putGang 3 (waits (.mclaim 1 1))) (fun t => (t.core 0).slotHolder 0 == some 2 &&
      gangOf t (fun g => g.groups.all (fun x => x.park.isNone))) ∧
    gives (.mrelRelease 0) (ownsAll.putGang 3 (waits (.mrel 1 0))) (fun t => (t.core 0).slotHolder 0 == none &&
      gangOf t (fun g => g.groups.all (fun x => x.park.isNone))) := by decide +kernel

/-- MatrixUnitsAreClaimed: what MREL gives back is held from a claim of its own cycle and free in the next, the units of both
ends; an empty claim under a freeze. -/
theorem test_w_freeFrom :
    let rel := wr [(.s 54, 0x80000001), (.s 55, 0x80000001)] g0
    let halt := base.modPart 0 (fun p => { p with halted := true })
    let later := fun (t : State) => { t with now := t.now + 1 }
    gives (.mrel 0xF6) (on ownsAll rel) (fun t => !t.claimable 0 9 t.next 1 0 && !t.claimable 0 9 t.next 0 0x80000000 &&
      (later t).claimable 0 9 t.next 0x80000001 0x80000001 && !(later t).claimable 0 9 t.next 2 0) ∧
    (cx halt g0).engineHolds = true ∧ (cx halt g0).claimStop 0xF6 = none ∧
    gives (.mclaim 0xF6) (on halt g0) (fun t => gangOf t (fun g => g.groups.all (fun y => y.pc == 0x10004 && y.park.isNone))) := by
  decide +kernel

/-- MatrixOperationsActOnHeldUnits: a legal form of every operation on units that the team holds, at the last rows and slots. -/
theorem test_w_matrix :
    let k := fun (es : List (RegElem × Word)) => cx ownsAll (wr es g0)
    let m := co (told mma1)
    let sp : Word := 0x7F0003FF
    let cv := k [(.s 54, 0x3FF), (.s 55, 0), (.s 52, 0), (.s 53, 0x10)]
    let mv := k [(.s 0, 0x3FF)]
    m.engineHolds = false ∧ m.once = true ∧ m.ownPadFirst = none ∧ ownsAll.badIn 0x40000 512 = [] ∧
    m.onceStop (blockOk 0xF0 48 && decide ((7 : ByteField).toNat ≤ 7)) (MDesc.ok false (m.words 0xF0 8)) true (sregs (sreg 0xF0) 8) [] [] [] = none ∧
    m.onceStop (blockOk 0xF0 48 && decide ((7 : ByteField).toNat ≤ 7)) (MDesc.ok true (m.words 0xF0 8)) true (sregs (sreg 0xF0) 8) [] [] [] = none ∧
    m.core.mmaGap 2 (MDesc.of (m.words 0xF0 8)) = none ∧ m.g.counter 7 ≠ 4095 ∧
    Code.mcvt 0x0F = true ∧ cv.onceStop (blockOk 0xF6 54 && blockOk 0xF4 54) (McvtDesc.ok 0x3FF 0 0 0x10 (McvtDesc.of 0x3FF 0 0 0x10 true 0))
      true (sregs (sreg 0xF4) 2) [] (sregs (sreg 0xF6) 2) [] = none ∧
    cv.core.mcvtGap 2 (McvtDesc.of 0x3FF 0 0 0x10 true 0) = none ∧
    Code.mdrain 0x1F = true ∧ Code.mdrain 0x0F = true ∧ Code.mdrain 0x17 = true ∧
    (k [(.s 1, 0x3FF)]).onceStop (scalarOk 0xC1 && pairOk 0xC2) (drainOk false 0x3FF &&
      (k []).spair 2 % 16 == 0) true (regsOf 0xC2 true) []
      (regsOf 0xC1 false) [] = none ∧
    (k [(.s 1, 0x7FE00)]).onceStop (scalarOk 0xC1 && scalarOk 0xC2) (drainOk true 0x7FE00 &&
      0 % 16 == 0) true (regsOf 0xC2 false) []
      (regsOf 0xC1 false) [] = none ∧
    ownsAll.core 0 = m.core ∧ m.core.slotGap 2 (bits 0x7FE00 18 0) (drainLen true 0x7FE00) = none ∧ m.core.rowGap 2 1023 1 = none ∧
    (k [(.s 0, 0x3FF)]).onceStop (scalarOk 0xC0) (rangeOk 0x3FF) true (regsOf 0xC0 false) [] [] [] = none ∧
    (k [(.s 0, 0x7FFF0), (.s 2, 16)]).onceStop (scalarOk 0xC0 && scalarOk 0xC1 && scalarOk 0xC2)
      (decide (0x7FFF0 < 2 ^ 19) && 0x7FFF0 % 16 == 0 && 0 % 16 == 0 && 16 % 16 == 0 && decide (16 ≤ 16) && decide (16 ≤ 262144) &&
        decide (0x7FFF0 + 16 ≤ 524288)) true (regsOf 0xC1 false) (regsOf 0xC2 false) (regsOf 0xC0 false) [] = none ∧
    m.core.slotGap 2 0x7FFF0 16 = none ∧
    (k []).onceStop (scalarOk 0xC0 && scalarOk 0xC2 && scalarOk 0xC4) (1 / 2 == 0 && (!(1 % 2 == 1) || pairOk 0xC2) &&
      rangeOk 0x3FF && 0 % 16 == 0)
      true (regsOf 0xC2 true) (regsOf 0xC4 false) (regsOf 0xC0 false) [] = none ∧ (k []).storesFirst = false ∧
    ownsAll.run 0 0x40000 512 Need.load = [(0x40000, 512, .ok 0x40000)] ∧
    moveTypeOk 11 = true ∧ moveTypeOk mv.etype = true ∧ (∀ l ∈ mv.takers, mv.core.blockHolder ((mv.moveAt 0xC0 0xF8 l).1 / 32) = some 2) ∧
    mv.onceStop (isVreg 191 && mv.dstOk 191 false && scalarOk 0xC0 &&
      mv.srcOk 0xF8 false) true true (regsOf 0xC0 false) (regsOf 0xF8 false) []
      (regsOf 191 false) = none ∧
    mv.onceStop (isVec 191 && mv.srcOk 191 false && scalarOk 0xC0 &&
      mv.srcOk 0xF8 false) true true (regsOf 0xC0 false) (regsOf 0xF8 false)
      (regsOf 191 false) [] = none ∧
    Code.mrowscl 5 = true ∧ Code.mrowred 7 = true ∧ spanOk 0x7F0003E0 128 = true ∧ spanRow 0x7F0003E0 + 31 ≤ 1023 ∧
    (∀ l < 32, m.core.blockHolder ((spanRow 0x7F0003E0 + l) / 32) = some 2) ∧ spanOk sp 64 = false ∧
    (k []).onceStop (isSreg 0xC0 && isVec 1 && (k []).srcOk 1 false) (spanOk 0x7F0003E0 128) true (regsOf 1 false) [] (regsOf 0xC0 false) []
      = none ∧
    (k []).onceStop (isVreg 2 && (k []).dstOk 2 true && scalarOk 0xC0) (spanOk 0x3F0003E0 64) true (regsOf 0xC0 false) [] [] (regsOf 2 true)
      = none := by decide +kernel

/-- EngineCompletesProducts: the product of 2 and 3 in F64, by both classes of forms; the row that gets it. -/
theorem test_w_engine :
    let o := { engineOp with kind := .mma false mma1 [1] }
    let s := ownsAll.modCore 0 (fun k => { k with engine := [o], slots := [(7, 0x40), (0x4006, 8), (0x4007, 0x40)] })
    s.frozen 0 = false ∧ (s.core 0).engine = [o] ∧ MDesc.ok false mma1 = true ∧ (MDesc.of mma1).m = 1 ∧
    (MDesc.of mma1).bslot = 1 ∧ (MDesc.of mma1).row0 = 1023 ∧ s.gang? o.gang = some g0 ∧ g0.ended = false ∧ g0.tokens = [] ∧
    gives (.engineOpComplete 0) s (fun t => (t.core 0).colW true 1023 0 == 0x4018000000000000 && (t.core 0).engine.isEmpty) := by
  decide +kernel
/-! ### Witnesses: the distributor, circuits, links and optics -/

/-- FloatResults, ConversionResults, ReductionResults, MatrixOperationsActOnHeldUnits and EngineCompletesProducts, the exact
results: an infinity, both kinds of NaN, the least denormal and its flush; integer and float codes at both ends; blocks of
finite values, of zeros alone and with an infinity; a poisoned row; an integer product and a float one. -/
theorem test_w_exact :
    (Fmt.f32.inf, Fmt.e4m3.inf, Fmt.e4m3.nanOnes, Fmt.e2m1.eb) = (true, false, true, 2) ∧
    Fmt.f32.read false 0xFF800000 = .inf true ∧ Fmt.f32.read false 0x7F800001 = .nan true ∧
    Fmt.f32.read false 0x7FC00000 = .nan false ∧ Fmt.e4m3.read false 0xFF = .nan false ∧
    (Fmt.f32.read false 0x80000001).isNan = false ∧ (Fmt.f32.read false 0x80000001).isInf = false ∧
    (Fmt.f32.read false 0x80000001).neg = true ∧ (Fmt.f32.read true 0x80000001).isZero = true ∧
    (Fmt.f32.flush true 0x80000001, Fmt.f32.minMax true true false 0x80000001 1) = (0x80000000, 0, Flags.none) ∧
    [0, 7, 8, 13].map inINT = [true, true, false, false] ∧
    (mxBlock (cvtbFmt 0) [(RndEnv.rne, .inf false)]).1 = 255 ∧ (mxBlock (cvtbFmt 4) [(RndEnv.rne, .num true 0 0)]).1 = 127 ∧
    (mxBlock (cvtbFmt 4) [(RndEnv.rne, .num true 3 0), (RndEnv.rne, .num false 1 0)]) = (126, [15, 4], Flags.none) ∧
    (let k := { Core.reset with poison := [(1023, true)] }
     (k.poisoned 1023, k.poisoned 0) = (true, false) ∧ k.reduceRow false 0 1023 0 8 = (Fmt.f32.nanBits, Flags.none) ∧
       (k.reduceRow false 3 0 0 8).1 = 0) ∧
    [0, 14, 15].map mfClass = [0, 2, 3] := by decide +kernel

/-- The same: one encoding less than another, an infinity than none, and a number between two powers of two. -/
theorem test_w_less :
    (Fmt.f32.read false 0).Less (Fmt.f32.read false 0x3F800000) ∧ Val.Less (.inf true) (.num false 0 0) ∧
    ¬ Val.Less (.num true 0 0) (.num false 0 0) ∧ (2 : ℚ) ^ (0 : Int) ≤ 3 / 2 ∧ (3 / 2 : ℚ) < 2 ^ ((0 : Int) + 1) := by
  have h : Fmt.f32.read false 0 = .num false 0 (-149) ∧ Fmt.f32.read false 0x3F800000 = .num false 0x800000 (-23) := by
    decide +kernel
  refine ⟨?_, rfl, ?_, ?_, ?_⟩
  · rw [h.1, h.2]; simp [Val.Less, Val.rat]
  · simp [Val.Less, Val.rat]
  · norm_num
  · norm_num

/-- Launch queue 31 of partition 0 at 0x50000, with one entry, and a packet there with launch ID 9. -/
def queued (x : LaunchQueue) (version : Nat) : State :=
  { base.modPart 0 (fun p => p.putQueue 31 x) with
    vault := [(0, version), (4, 9), (8, 0x10000), (0x10, 1), (0x18, 1), (0x1C, 1), (0x20, 1)].foldl
      (fun m (e : Nat × Nat) => Memory.writeNat m (0x50000 + e.1) 4 e.2) base.vault }
def queue31 : LaunchQueue := { LaunchQueue.reset with base := 0x50000, en := true, log2n := 0 }
def packetHere : LaunchQueue := { queue31 with wr := 1 }

/-- WorkInstructionsComplete: WORKGET free and pending, LAUNCH on a queue with room on a full one and where a lane holds the entry, in user mode too, CANCEL
and CNTRD by level 3. -/
theorem test_w_work :
    let k := fun (s : State) g => cx s g
    let x := wr [(.s 0, 0xFFFFFFFF)] g0
    let l := told [0x50000, 0, 31]
    let room := queued queue31 1
    let full := queued packetHere 1
    let j := wr [(.s 0, 15)] g0
    let closed := user.modPart 0 (fun p => { p with privq := 0x80000000 })
    (k base x).onceStop (scalarOk 0xC0) ((k base x).padAlloc != 0) true (regsOf 0xC0 false) [] [] [] = none ∧
      (k base x).once = true ∧
    x.workget = none ∧ ({ x with workget := some 16 } : Gang).workget = some 16 ∧
    gives (.workget 0xC0) (on base x) (fun t => gangOf t (fun g => g.workget == some 0xFFFF0)) ∧
    (k closed l).interlock (sregs (sreg 0xF0) 8 ++ (k closed l).guardRegs) = none ∧ blockOk 0xF0 48 = true ∧
    launchBlockOk [0x50000, 0, 31, 0, 0, 0, 0, 0] = true ∧ (k closed l).privileged = false ∧
      (closed.part 0).privq.getLsbD 31 = true ∧
    (k room l).onceStop (blockOk 0xF0 48) (launchBlockOk ((k room l).words 0xF0 8)) ((k room l).privileged ||
      !(room.part 0).privq.getLsbD 31)
      (sregs (sreg 0xF0) 8) [] [] [] = none ∧ (k room l).accessesFirst = none ∧ (k base x).ownPadFirst = none ∧
    room.runs 0 0x50000 128 Need.load = .ok [(0x50000, 128)] ∧ (room.readRuns [(0x50000, 128)]).length = 128 ∧
    queue31.unread < queue31.size ∧ packetHere.size ≤ packetHere.unread ∧
    (room.access 0 (queue31.entryAt 0) 128 Need.store).toOption = some 0x50000 ∧ room.writeReady 0 0x50000 128 = true ∧
      (k room l).agent = 0 ∧
    gives (.launch 0xF0) (on room l) (fun t => ((t.part 0).queue 31).wr == 1) ∧
    (let held := { room with holds := [⟨1, 0, 9, 0, granuleOf 0x50000, 99, true⟩] }
     held.writeReady 0 0x50000 128 = false ∧ gives (.launch 0xF0) (on held l) (fun t =>
       gangOf t (fun g => g.groups.any (fun y => y.park.isSome)))) ∧
    gives (.launch 0xF0) (on full l) (fun t => gangOf t (fun g => g.groups.any (fun y => y.park.isSome))) ∧
    Code.low2 3 = true ∧ (k base j).onceStop (scalarOk 0xC0) (levelOk 3 15) true (regsOf 0xC0 false) [] [] [] = none ∧
    (k base j).onceStop (scalarDst 0xF7 && scalarOk 0xC0) (levelOk 3 15) true (regsOf 0xC0 false) [] [] (regsOf 0xF7 false) = none ∧
    (match base.launch? 1 with
      | some l => l.part == 0 && l.named 3 0 && !l.cancelled
      | none => false) = true ∧
    gives (.cancel 0xC0 3) (on base g0) (fun t => match t.launch? 1 with
      | some l => l.cancelled
      | none => false) := by decide +kernel

/-- TheDistributorRunsLaunches: a packet that is read and one that is refused; a launch whose teams are gone; one that fits
nowhere; an ended gang; a cancelled launch's team; a pending WORKGET with and without a team to take. -/
theorem test_w_distributor :
    let s := queued packetHere 1
    let l := placedLaunch 1
    let gone := { base with launches := [(1, some { l with nextTid := 1, gone := 1, irq := true })] }
    let recorded := { gone with launches := [(1, some { l with nextTid := 1, gone := 1, irq := true, cpla := 0x40000 })] }
    let big := base.putLaunch 9 { placedLaunch 9 with cores := 4 }
    let narrow := big.modPart 0 (fun p => { p with clusters := 0 })
    let ended := base.putGang 3 { g0 with ended := true, groups := [] }
    let cancelled := { base with launches := [(1, some { l with nextTid := 1, cancelled := true })] }
    let asked := fun n => { base.putGang 3 { g0 with workget := some 0xFFFF0 } with launches := [(1, some { l with nextTid := 1, total := n })] }
    s.distributorOn = true ∧ (s.part 0).halted = false ∧ packetHere.wr ≠ packetHere.rd ∧ (s.partLaunches 0).length < 1024 ∧
    s.uncovered (s.vcOf 4) = false ∧ (s.access 0 (packetHere.entryAt 0) 128 Need.load).toOption = some 0x50000 ∧
    s.packetRefusal 0 (Memory.readBytes s.vault 0x50000 128) = none ∧
    gives (.launchPacketRead 0 31) s (fun t => match t.launch? s.next with
      | some n => n.lid == 9 && n.total == 1
      | none => false) ∧
    gives (.launchPacketRead 0 31) (queued packetHere 2) (fun t => ((t.part 0).queue 31).ref) ∧
    gives (.launchComplete 1) gone (fun t => (t.launch? 1).isNone && t.out == [.msix 0 0]) ∧
    (recorded.access 0 0x40000 16 Need.store).toOption = some 0x40000 ∧ recorded.fullOf 4 = false ∧
    gives (.launchComplete 1) recorded (fun t => t.out == [] && t.vreqs.any (fun r => r.size == 16 && r.after == [.msix 0 0])) ∧
    narrow.wantsPlace 9 { placedLaunch 9 with cores := 4 } = true ∧ narrow.fit 9 { placedLaunch 9 with cores := 4 } = none ∧
    narrow.heldByBlocking 9 { placedLaunch 9 with cores := 4 } = false ∧
    (∀ e ∈ g0.k, e.2 = 0) ∧ ended.replyOut 3 = false ∧ gives (.gangSlotRelease 3) ended (fun t => (t.gang? 3).isNone) ∧
    gives (.gangSlotRelease 3) (base.putGang 3 { g0 with ended := true, groups := [], workget := some 16 }) (fun t =>
      (t.gang? 3).isNone && match t.team? 2 with
        | some tm => tm.workgets == [(3, 0, 16)]
        | none => false) ∧ s.house.phase = 5 ∧
    gives (.lqWrWrite 0 31 9) s (fun t => ((t.part 0).queue 31).wr == 9) ∧
    gives (.lqWrWrite 0 31 9) State.reset (fun t => t == State.reset) ∧
    gives (.cancelStop 2) cancelled (fun t => gangOf t (·.stopped)) ∧
    (match base.team? 2 with
      | some tm => tm.status == .running && tm.launch == 1 && !tm.saving && decide (0 < tm.alloc) && (tm.onCore 0).isSome
      | none => false) = true ∧
    gives (.workgetReply 3) (asked 2) (fun t => t.padRead 2 0 0xFFFF0 4 == 1 && t.padRead 2 0 0xFFFF4 8 == 1) ∧
    gives (.workgetReply 3) (asked 1) (fun t => t.padRead 2 0 0xFFFF0 4 == 2) := by decide +kernel

/-- TheDistributorRunsLaunches: a launch table of one entry, as that of the launch whose teams are gone, holds no other. -/
theorem test_w_oneLaunch (x : Launch) (j : Nat) (n : Launch) (h : Tbl.get none [(1, some x)] j = some n) : j = 1 := by
  by_cases e : j = 1
  · exact e
  · simp [Tbl.get, Ne.symm e] at h

/-- TheDistributorRunsLaunches: a launch whose teams are gone and that was cancelled, a successor that ignores that and one that
does not, a launch that waits for another; a WR write to an enabled queue in PS1 and on the way there. -/
theorem test_w_successors :
    let l := { placedLaunch 1 with nextTid := 1, gone := 1, cancelled := true }
    let n := fun ps ign => { placedLaunch 9 with preds := ps, igncxl := ign }
    let s := fun x => { base with launches := [(1, some l), (9, some x)] }
    let after := fun x (f : Launch → Bool) => gives (.launchComplete 1) (s x) (fun t => (t.launch? 1).isNone &&
      match t.launch? 9 with
      | some y => f y
      | none => false)
    let en := base.modPart 0 (fun p => p.putQueue 31 { queue31 with en := true })
    let low := fun (c : BitVec 2) (e : Option (BitVec 2)) => { en with house := { en.house with cur := c, entering := e } }
    l.total ≤ l.gone ∧ (s (n [1, 7] false)).launch? 1 = some l ∧
    after (n [1, 7] false) (fun y => y.cancelled && y.preds == [7]) = true ∧
    after (n [1, 7] true) (fun y => !y.cancelled && y.preds == [7]) = true ∧
    after (n [7] false) (fun y => y == n [7] false) = true ∧
    after { n [1] false with part := 15 } (fun y => y == { n [1] false with part := 15 }) = true ∧
    gives (.lqWrWrite 0 31 9) (low 1 none) (fun t => t.house.wakeAsked) ∧
    gives (.lqWrWrite 0 31 9) (low 0 (some 1)) (fun t => t.house.wakeAsked) ∧
    gives (.lqWrWrite 0 31 9) (low 0 none) (fun t => !t.house.wakeAsked) := by decide +kernel

/-- TeamsArePlacedAndSaved: a second launch to place; a request and a trigger for its sake; a notice; a team ready to be saved,
without room and with. -/
theorem test_w_teams :
    let l := { placedLaunch 9 with scratch := 512, vregs := 8, prio := 3 }
    let s := base.putLaunch 9 l
    let blocked := base.putLaunch 9 { l with blocking := true }
    let n : Notice := { victims := [2], prio := 3, expired := false, vacated := [] }
    let noticed := base.modPart 0 (fun p => { p with notices := [n] })
    let small := fun (tm : Team) => { tm with saving := true, alloc := 512, cores := tm.cores.map (fun k => { k with scratch := [] }) }
    let saving := fun ctx => ((base.putGang 3 { g0 with alloc := 8 }).modTeam 2 small).modPart 0 (fun p =>
      { p with ctxbase := 16, ctxsize := ctx })
    s.distributorOn = true ∧ (s.part 0).halted = false ∧ (s.endNotices 0).nextPlace 0 = some (9, l, [1]) ∧
    (s.endNotices 0).lowestVictim 9 = none ∧
    gives (.teamPlace 0) s (fun t => match t.gang? (s.next + 1) with
      | some g => g.core == 1 && g.alloc == 8 && g.team == s.next
      | none => false) ∧
    (none : Option Nat).isSome = (base.part 0).modes.getLsbD 4 ∧ takeVictims 160 (base.candidates 0 3 none) = [2] ∧
    gives (.preemptRequest 0 160 3 none) base (fun t => gangOf t (·.evpend.getLsbD 17)) ∧
    blocked.wantsPlace 9 { l with blocking := true } = true ∧
    gives (.hwPreemptTrigger 0 9) blocked (fun _ => true) ∧
    gives (.preemptNoticeExpiry 0) noticed (fun t => match t.team? 2 with
      | some tm => tm.saving
      | none => false) ∧
    (match (saving 1).team? 2 with
      | some tm => (saving 1).saveReady 2 tm
      | none => false) = true ∧
    (saving 1).releaseToIod.runsReady 4 [(0x100000, 65536)] false = true ∧ base.house.phase = 5 ∧
    gives (.contextSave 2) (saving 1) (fun t => match t.team? 2 with
      | some tm => tm.status == .saved && tm.image == some 0x100000
      | none => false) ∧
    gives (.contextSave 2) (saving 0) (fun t => (t.part 0).noroom && match t.team? 2 with
      | some tm => tm.status == .running
      | none => false) := by decide +kernel

/-- The team of the first launch as it stands saved, with block 31 and slot 31 of its core: the head of its image and of its
gang's part of it. -/
def savedTeam : State :=
  let s := base.modTeam 2 (fun tm => { tm with
    status := .saved, image := some 0x100000, victim := true, alloc := 512, saved := [⟨[], [], [], 0x80000000, 0x80000000, []⟩] })
  match s.team? 2 with
  | some tm => { s.modPart 0 (fun p => { p with ctxbase := 16, ctxsize := 1, ctxUsed := [(16, 1)] }) with
      vault := Memory.writeBytes (Memory.writeBytes s.vault 0x100000 ((tm.imageHead (placedLaunch 1).lid.toNat).take 24))
        (tm.gangsAt 0x100000) [1, 0, 24] }
  | none => s

/-- TeamsArePlacedAndSaved, the restore: the team saved before, an image of another team, an image with a word in error. -/
theorem test_w_restore :
    let s0 := savedTeam.endNotices 0
    let other := { savedTeam with vault := Memory.writeNat savedTeam.vault 0x100000 4 0 }
    let bad := { savedTeam with badWords := [0x20000] }
    (savedTeam.team? 2).isSome = true ∧
    (∀ tm ∈ savedTeam.team? 2, tm.image = some 0x100000 ∧ tm.status = .saved ∧ tm.victim = true ∧ tm.cores.length = 1 ∧
      s0.lowestVictim 1 = some (2, tm) ∧ s0.imageOk 2 tm (placedLaunch 1).lid.toNat 0x100000 = true ∧
      (other.endNotices 0).imageOk 2 tm (placedLaunch 1).lid.toNat 0x100000 = false ∧ tm.alloc = 512 ∧
      (s0.gangsInOrder 2).map (fun x => (x.1, x.2.alloc)) = [(3, 192)] ∧ tm.saved.map (fun k => members k.slots) = [[31]]) ∧
    savedTeam.distributorOn = true ∧ (savedTeam.part 0).halted = false ∧ s0.imageReady 2 = true ∧
    (s0.nextPlace 0).map (fun x => (x.1, x.2.2)) = some (1, [0]) ∧ Tbl.wf none savedTeam.gangs = true ∧ [0].Nodup ∧
    gives (.teamPlace 0) other (fun t => (t.part 0).fatal && (t.part 0).halted && t.team? 2 == savedTeam.team? 2) ∧
    gives (.teamPlace 0) bad (fun t => (t.part 0).fatal && (t.part 0).halted && t.team? 2 == savedTeam.team? 2) := by decide +kernel

/-- An entry (63, 7) for peer 1, and a static circuit of port 0 with peer 2, in a state. -/
def circuits (x : Circ) : State :=
  let y := { x with peer := 1, valid := true }
  { base with entries := (base.putEntry 63 7 y).entries, ports := [(0, { mode := 1, circ := { x with peer := 2 }, now := none })] }

/-- CircuitsFollowTheirStates: every state; SETUPs with a version and without; an ACK of the SETUP that is awaited, of one that
was given up, and of none; markers within NSLOT and above it. -/
theorem test_w_circuits :
    let s := fun st => circuits { Circ.reset with state := st, num := 5 }
    let back := circuits { Circ.reset with state := .pending, backoff := true }
    let left := circuits { Circ.reset with state := .pending, num := 6, stale := [(5, 4)] }
    let e := Circuit.slot 63 7
    let r : SetupRef := ⟨e, 5⟩
    let six := { base with rot := { base.rot with nslot1 := 63, sync := true, guard := true } }
    (s .idle).circTarget e = some 1 ∧ (s .idle).circTarget (.port 0) = some 2 ∧ base.circTarget e = none ∧
    ((1 : Nat) ≤ min 3 2 ∧ 1 ≤ min 3 2) ∧ ¬ ((3 : Nat) ≤ min 4 2 ∧ 1 ≤ min 4 2) ∧ base.rot.hostm = false ∧ base.house.phase = 5 ∧
    gives (.setup r 1 0x7F (1, 2)) (s .idle) (fun t => (t.circ e).state == .active && t.out == [.circAck r 1]) ∧
    gives (.setup r 1 0x7F (3, 4)) (s .idle) (fun t => (t.circ e).state == .idle && t.out == [.circNak r 1 .version]) ∧
    gives (.setup r 2 0x7F (1, 2)) (s .idle) (fun t => t.out == [.circNak r 2 .mismatch]) ∧
    gives (.slotSetup 63 7) (s .failed) (fun t => (t.circ e).state == .pending && t.out == [.circSetup ⟨e, 6⟩ 1]) ∧
    gives (.slotTdown 63 7) (s .active) (fun t => (t.circ e).state == .idle) ∧
    gives (.slotTdown 63 7) (s .pending) (fun t => (t.circ e).state == .idle && (t.circ e).stale == [(5, 1)]) ∧
    gives (.ack r 0x7F 2) (s .pending) (fun t => (t.circ e).state == .active) ∧
    (left.circ e).stale.find? (fun x => x.1 == 5) = some (5, 4) ∧ (∀ x ∈ (left.circ e).stale, x.1 ≠ 7) ∧
    gives (.ack r 0x7F 2) left (fun t => (t.circ e).state == .pending && (t.circ e).stale == [] && t.out == [.circTeardown e 4]) ∧
    gives (.ack ⟨e, 7⟩ 0x7F 2) left (fun t => t == left) ∧
    gives (.nak r .blocked) (s .pending) (fun t => (t.circ e).backoff && (t.circ e).naks == 1) ∧
    gives (.setupTimeout e) (s .pending) (fun t => (t.circ e).cause == 4 && (t.circ e).stale == [(5, 1)]) ∧
    gives (.setupRetry e) back (fun t => t.out == [.circSetup ⟨e, 1⟩ 1]) ∧
    gives (.slotMarker 63) six (fun t => t.rot.slot == 63 && t.rot.guard) ∧ gives (.slotMarker 63) base (fun t => t.rot.resync) ∧
    gives .guardEnd six (fun t => t.rot.windowOpen) ∧ gives (.slotWindowClose false) six (fun t => t.rot.miss) ∧
    base.ownsSome 0 = false ∧ (base.putPair 5 { Pair.reset with ownv := true }).ownsSome 0 = true := by decide +kernel

/-- A message to package 2, and link 0 of pair 0 in the peer fabric, up, towards package 2, with the message owed. -/
def owedMsg : NetMsg := .reply { ident := 9, refused := false, lanes := [] }
def linked (f : Link → Link) : State :=
  { (circuits { Circ.reset with state := .active }).putPair 0 { Pair.reset with fab := true } with
    netq := [(2, owedMsg)], links := [(0, f { Link.reset with state := .up, curw := 8, fseq := 0xFFF, expect := 5 })] }

/-- A flit in order, one out of order. -/
def flit5 (n : BitVec 12) : Flit :=
  { type := .data, fseq := n, aseq := 0xFFE, switchAt := 6, peer := 2, msg := some owedMsg, ok := true }

/-- LinksCarryFlitsInOrder: what a link sends first, and with nothing before it; each arrival; the eighth NAK; timeouts. -/
theorem test_w_links :
    let s := linked id
    let held := linked (fun x => { x with sent := [flit5 0xFFE], fseq := 0xFFF })
    let assisted := (held.putPair 0 { Pair.reset with fab := true, ownv := true }).modPart 0 (fun p => { p with modes := 4 })
    let seven := linked (fun x => { x with sent := [flit5 0xFFE], nakLast := 0xFFE, nakRun := 7 })
    let retraining := linked (fun x => { x with state := .retraining, failures := 2 })
    let x := s.link 0
    x.carries = true ∧ x.nakOwed = false ∧ x.again = [] ∧ x.full = false ∧ x.remap = none ∧ x.nextWidth = none ∧
      s.swapDue 0 = none ∧
    x.ctlOwed = false ∧ s.linkPeer 0 = some 2 ∧ s.strandedLink 2 = none ∧ s.opticsHeld = false ∧ s.nextMsg 2 = some owedMsg ∧
      s.isDue owedMsg = true ∧
    base.linkPeer 0 = none ∧ x.again.find? (fun y => y.peer == 2) = none ∧
    gives (.flitSend 0) s (fun t => t.netq.isEmpty && (t.link 0).fseq == 0 && (t.link 0).sent.length == 1) ∧
    (let kept := s.putLink 127 { Link.reset with owed := [flit5 0xFFE] }
     kept.strandedLink 2 = some 127 ∧ gives (.flitSend 0) kept (fun t => (t.link 127).owed.isEmpty && t.netq.length == 1 &&
       (t.link 0).fseq == 0)) ∧
    (let asleep := { retraining with house := { retraining.house with cur := 1 } }
     asleep.opticsHeld = true ∧ gives (.retrainComplete 0 ⟨[7], 1, 1⟩) asleep (fun t => (t.link 0).state == .retraining)) ∧
    gives (.flitSend 0) (linked (fun x => { x with nakOwed := true })) (fun t => t.out.length == 1 && !(t.link 0).nakOwed) ∧
    gives (.flitSend 0) (linked (fun x => { x with again := [flit5 0xFFE] })) (fun t => (t.link 0).again.isEmpty) ∧
    ((linked (fun x => { x with curw := 1, sent := List.replicate 64 (flit5 0) })).link 0).full = true ∧
    gives (.dataFlitReceive 0 (flit5 5)) s (fun t => (t.link 0).expect == 6 && t.inbound == [owedMsg]) ∧
    gives (.dataFlitReceive 0 (flit5 6)) s (fun t => (t.link 0).nakOwed && t.inbound == []) ∧
    gives (.widthChangeFlit 0 { flit5 5 with type := .width 4, msg := none }) s (fun t => (t.link 0).rxw == 4) ∧
    gives (.remapFlit 0 { flit5 5 with type := .remap 1 0, msg := none }) s (fun t => (t.link 0).expect == 6) ∧
    gives (.nakFlitReceive 0 0xFFE) held (fun t => (t.link 0).again.length == 1 && (t.link 0).nakRun == 1) ∧
    dropAcked (0xFFE - 1) (seven.link 0).sent = (seven.link 0).sent ∧
    gives (.nakFlitReceive 0 0xFFE) seven (fun t => (t.link 0).state == .retraining) ∧
    held.assistedPair (pairOfLink 0) 2 = false ∧ assisted.assistedPair (pairOfLink 0) 2 = true ∧
    gives (.ackTimeout 0) held (fun t => (t.link 0).state == .retraining && (t.link 0).owed.length == 1) ∧
    gives (.ackTimeout 0) assisted (fun t => (t.link 0).state == .down) ∧ held.linkOf 7 = 0 ∧
    gives (.retrainComplete 0 ⟨[], 1, 1⟩) retraining (fun t => (t.link 0).state == .down) ∧
      (retraining.link 0).state = .retraining ∧
    gives (.retrainComplete 0 ⟨[7], 1, 1⟩) retraining (fun t => (t.link 0).state == .up && (t.chan 7).state == .active) := by
  decide +kernel

/-- LinksCarryFlitsInOrder, the turns: two links of one port, and which of them the next flit goes to; the bytes of a send queue,
last and not, from a sound source and one in error; a retraining with and without a common version and light. -/
theorem test_w_dealing :
    let two := fun (q : List (Nat × NetMsg)) (d : Nat) => { linked id with
      links := [(0, { Link.reset with state := .up, curw := 8 }), (1, { Link.reset with state := .up, curw := 8 })], netq := q,
      dealt := if d = 0 then [] else [(2, d)] }
    let s := two [(2, owedMsg)]
    let desc := fun len : Nat => ({ req := 9, part := 3, src := [(0x40000, len)], dst := 0x48000, len := len,
                                    note := true, va := 0, nva := 0x10, sent := 0 } : QDesc)
    let queue := fun len (t : State) => t.modPart 15 (fun p => { p with sendq := [(2, [desc len])] })
    let bad := { (queue 16 (two [] 0)).putReq 9 (freq (.qsend 2 none)) with badWords := [0x8001] }
    let sent := fun (t : State) (n : Nat) (note last : Bool) => t.out.any (fun o => match o with
      | .flit 0 f => match f.msg with
        | some (.qdata d) => d.data.length == n && d.note == note && d.last == last
        | _ => false
      | _ => false)
    let up := fun r (t : State) => gives (.retrainComplete 0 r) t (fun u => (u.link 0).state == .up && (u.link 0).failures == 0)
    let retraining := linked (fun x => { x with state := .retraining, failures := 1 })
    (s 0).dealtTo 2 = some 0 ∧ (s 1).dealtTo 2 = some 1 ∧ (s 2).dealtTo 2 = some 0 ∧ base.dealtTo 2 = none ∧
    (s 0).takesNew 2 1 = true ∧ (s 0).strandedLink 2 = none ∧ (s 0).nextMsg 2 = some owedMsg ∧
    gives (.flitSend 0) (s 0) (fun t => t.netq.isEmpty && t.dealtTo 2 == some 1) ∧
    gives (.flitSend 1) (s 0) (fun t => t.netq.length == 1 && t.out.length == 1 && t.dealtTo 2 == some 0) ∧
    (qturnOrder 0).find? (fun n => (queue 16 (two [] 0)).dataReady n 2) = some 15 ∧ (two [] 0).firstBad [(0x40000, 16)] 0 = none ∧
    (queue 16 (two [] 0)).sourceFailed (desc 16) = false ∧ bad.firstBad (desc 16).places 0 = some 8 ∧
    gives (.flitSend 0) (queue 16 (two [] 0)) (fun t => sent t 16 true true && ((t.part 15).sendQueue 2).isEmpty) ∧
    gives (.flitSend 0) (queue 241 (two [] 0)) (fun t => sent t 240 true false && ((t.part 15).sendQueue 2).map (·.sent) == [240]) ∧
    gives (.flitSend 0) bad (fun t => sent t 0 false true &&
      (t.req? 9).any (fun r => r.fails == [(localKey 0, ⟨Cause.permission, 8, true, 0⟩)])) ∧
    up ⟨[0], 1, 2⟩ retraining = true ∧ up ⟨[0], 2, 3⟩ retraining = true ∧ up ⟨[0], 3, 4⟩ retraining = false ∧
    up ⟨[0], 0, 0⟩ retraining = false ∧
    gives (.retrainComplete 0 ⟨[0], 3, 4⟩) retraining (fun t => (t.link 0).state == .retraining && (t.link 0).failures == 2) ∧
    (let dark := retraining.putLine 0 0 { Line.reset with lost := true }
     dark.lit 0 = false ∧ retraining.lit 0 = true ∧
       gives (.retrainComplete 0 ⟨[0, 1], 1, 2⟩) dark (fun t => (t.chan 0).state == .down && (t.chan 1).state == .active)) := by
  decide +kernel

/-- OpticalChannelsRecover: channel 1023 in each state; a line with and without a neighbour to feed it. -/
theorem test_w_optics :
    let s := fun (f : Chan → Chan) => base.putChan 1023 (f Chan.reset)
    let active := s (fun x => { x with state := .active })
    let waking := s (fun x => { x with state := .waking, tuning := some (1, false) })
    let woken := s (fun x => { x with state := .waking })
    let both := (woken.putChan 1022 { Chan.reset with state := .active, tuning := some (0, true) }).putPair 63
      { Pair.reset with spuse := 3 }
    active.weakCer.toNat < (0xFFFF : BitVec 16).toNat ∧ ¬ (active.weakCer.toNat < (0 : BitVec 16).toNat ∨
      (255 : Byte).toNat < active.weakMrg.toNat) ∧
    gives (.monitorSample [(1023, 0xFFFF, 255)]) active (fun t => (t.chan 1023).weak && (t.chan 1023).tuning == some (0, false)) ∧
    gives (.spareRingLock 1023 true) waking (fun t => (t.chan 1023).state == .active && (t.chan 1023).spare == 2) ∧
    128 ≤ active.linkOf 1023 ∧ (waking.link (waking.linkOf 1023)).state ≠ .retraining ∧
    gives (.spareRingLock 1023 true) (waking.putLink (waking.linkOf 1023) { Link.reset with state := .retraining }) (fun t =>
      (t.chan 1023).state == .waking) ∧
    (let planned := (active.putChan 1023 { Chan.reset with state := .active, tuning := some (1, true) }).modPart 0 (fun p =>
        { p with planRun := some (1, 1023), planStatus := 1 })
     gives (.monitorSample [(1023, 0xFFFF, 255)]) planned (fun t => (t.chan 1023).tuning == some (0, false) &&
       (t.part 0).planStatus == 3)) ∧
    gives (.monitorSample [(1023, 0xFFFF, 255)]) ((active.putChan 1022 { Chan.reset with state := .active, tuning := some (0, true) }).putPair 63
      { Pair.reset with spuse := 1 }) (fun t => (t.chan 1023).tuning == some (0, false) && (t.chan 1022).tuning == none) ∧
    gives (.monitorSample [(1023, 0xFFFF, 255)]) (s (fun x => { x with state := .active, weak := true, owes := true })) (fun t =>
      (t.chan 1023).tuning == some (0, false)) ∧
    gives (.channelWakeComplete 1023 true) { woken with house := { woken.house with cur := 1 } } (fun t =>
      (t.chan 1023).state == .parked && (t.chan 1023).ps1) ∧ base.house.cur ≠ 1 ∧ base.opticsHeld = false ∧
    gives (.channelParkComplete 1023) (s (fun x => { x with parking := true, rewake := true, state := .active })) (fun t =>
      (t.chan 1023).state == .waking) ∧
    gives (.channelTrainTimeout 1023) { s (fun x => { x with trying := true }) with house := { base.house with cur := 2 } } (fun t =>
      (t.chan 1023).trying) ∧
    both.plannedHolder 63 0 = some 1022 ∧ gives (.channelWakeComplete 1023 false) both (fun t =>
      (t.chan 1023).tuning == some (0, false) && (t.chan 1022).tuning == none) ∧
    gives (.laserLineLoss 15 15) base (fun t => (t.line 15 15).lost && (t.line 15 15).fed && (t.line 14 15).donor) ∧
    gives (.laserLineLoss 15 15) (base.putLine 14 15 { Line.reset with lost := true }) (fun t => !(t.line 15 15).fed) ∧
    (woken.link (woken.linkOf 1023)).state ≠ .retraining ∧ woken.assistedPair 63 1 = false ∧
    gives (.channelWakeComplete 1023 true) woken (fun t => (t.chan 1023).state == .active) ∧
    gives (.channelParkComplete 1023) (s (fun x => { x with parking := true, state := .active })) (fun t => !(t.chan 1023).parking) ∧
    gives (.opticalLightPoll [1023]) base (fun t => (t.chan 1023).trying) ∧
    gives (.channelTrainingComplete ⟨1023, 1, 3⟩) (s (fun x => { x with trying := true })) (fun t => (t.chan 1023).state == .active) ∧
    gives (.channelTrainingComplete ⟨1023, 3, 4⟩) (s (fun x => { x with trying := true })) (fun t => (t.chan 1023).state == .down) ∧
    gives (.ageingCounterSave 15 ⟨3, 1⟩) (base.putArray 15 { Array_.reset with gave := true }) (fun t =>
      (t.array 15).lifeh == 3 && (t.array 15).penh == 38) ∧
    gives (.channelTrainTimeout 1023) (s (fun x => { x with trying := true })) (fun t => (t.chan 1023).wfail &&
      (t.pair 63).evt) := by
  decide +kernel

/-- OpticalChannelsRecover, what holds it up: a channel that is being spared already, one that wakes while the package sleeps and
while its link retrains, one without light, a poll while PS2 is left; a lock that is to be announced on the link. -/
theorem test_w_opticsHeld :
    let s := fun (f : Chan → Chan) => base.putChan 1023 (f Chan.reset)
    let sparing := s (fun x => { x with state := .active, owes := true, tuning := some (1, false) })
    let woken := s (fun x => { x with state := .waking, tuning := none })
    let ps := fun (c : BitVec 2) (r : Bool) (t : State) => { t with house := { t.house with cur := c, ramping := r } }
    let keeps := fun (i : Instr) (t : State) => gives i t (fun u => u == t)
    let dark := (s (fun x => { x with trying := true })).putLine 15 15 { Line.reset with lost := true }
    let peer := ((base.putPair 0 { Pair.reset with fab := true }).putChan 7
      { Chan.reset with state := .active, tuning := some (2, true) }).putLink 0
      { Link.reset with state := .up, curw := 8 }
    gives (.monitorSample [(1023, 0xFFFF, 0)]) sparing (fun t => (t.chan 1023).tuning == some (1, false) &&
      (t.pair 63).spuse == (sparing.pair 63).spuse && (t.chan 1023).weak) ∧
    (sparing.chan 1023).state = .active ∧ (ps 2 false woken).asleep = true ∧ woken.asleep = false ∧
    keeps (.channelWakeComplete 1023 true) (ps 2 false woken) = true ∧
    keeps (.channelWakeComplete 1023 false) (woken.putLink (woken.linkOf 1023) { Link.reset with state := .retraining }) = true ∧
    dark.lit 1023 = false ∧ dark.opticsHeld = false ∧ keeps (.channelTrainingComplete ⟨1023, 1, 2⟩) dark = true ∧
    gives (.opticalLightPoll [1023]) (ps 2 true base) (fun t => (t.chan 1023).trying && t.house.polled) ∧
    keeps (.opticalLightPoll [1023]) (ps 1 false base) = true ∧
    (peer.linkOf 7, (peer.link 0).carries) = (0, true) ∧
    gives (.spareRingLock 7 true) peer (fun t => (t.chan 7).swap == some 2 && (t.chan 7).tuning == some (2, true)) ∧
    gives (.spareRingLock 7 false) peer (fun t => (t.chan 7).tuning == none && (t.chan 7).spare == 0) := by decide +kernel

/-- OpticalWritesAndPlansAct: the physical function, an owner and one that owns nothing; each planned step that starts, that
ends at once, that is refused. -/
theorem test_w_opticalWrites :
    let own := base.putPair 63 { Pair.reset with ownv := true, owner := 15, fab := true }
    let mem := own.putPair 63 { Pair.reset with ownv := true, owner := 15 }
    let lit := mem.putChan 1023 { Chan.reset with state := .active }
    let lost := mem.putLine 15 15 { Line.reset with lost := true }
    let fed := (mem.putLine 15 15 { Line.reset with lost := true, fed := true }).putLine 14 15 { Line.reset with donor := true }
    let busy := own.modPart 15 (fun p => { p with planRun := some (3, 126) })
    own.mayWrite .pf 0 63 = true ∧ own.mayWrite .vf 15 63 = true ∧ own.mayWrite .vf 14 63 = false ∧ pairOfLink 127 = 63 ∧
      pairOfChan 1023 = 63 ∧
    gives (.linkTgtwWrite .vf 15 127 8) own (fun t => (t.link 127).tgtw == 8) ∧
    gives (.linkRetrain .vf 15 127) own (fun t => (t.link 127).state == .retraining) ∧
    gives (.chanParkWrite .vf 15 1023 true) mem (fun t => (t.chan 1023).park) ∧
    mem.pairQuiet 63 = true ∧ lit.pairQuiet 63 = false ∧ gives (.pairFabreqWrite .vf 15 63 true) mem (fun t => (t.pair 63).fab) ∧
    gives (.pairFabreqWrite .vf 15 63 true) lit (fun t => (t.pair 63).ref && !(t.pair 63).fab) ∧
    (busy.part 15).planRun.isSome = true ∧ (own.part 15).planRun = none ∧ (planPairs 1 1023).any (own.ownsPair 15) = true ∧
    (planPairs 3 127).any (own.ownsPair 15) = true ∧ (planPairs 4 255).any (own.ownsPair 15) = true ∧
    (planPairs 3 1023).any (own.ownsPair 15) = false ∧
    gives (.planSpare 15 1023 true) lit (fun t => (t.part 15).planStatus == 1 && (t.chan 1023).tuning == some (1, true)) ∧
    gives (.planRelease 15 1023) lit (fun t => (t.part 15).planStatus == 2) ∧
    gives (.planRetrain 15 127) own (fun t => (t.part 15).planStatus == 1) ∧
    gives (.planRetrain 15 126) busy (fun t => (t.part 15).planStatus == 4) ∧
    lost.canShare 15 15 = true ∧ gives (.planShare 15 255) lost (fun t => (t.line 15 15).fed) ∧
    gives (.planUnshare 15 255 true) fed (fun t => !(t.line 15 15).fed && !(t.line 14 15).donor) ∧
    gives (.planUnshare 15 255 false) fed (fun t => (t.part 15).planStatus == 4) ∧ own.house.phase = 5 ∧
    gives (.planUnshare 15 255 true) (fed.putChan 1023 { Chan.reset with state := .active, parking := true }) (fun t =>
      (t.chan 1023).rewake && (t.chan 1023).state == .active) ∧
    (let dark := { own with house := { own.house with phase := 7 } }
     gives (.linkRetrain .vf 15 127) dark (fun t => t == dark)) := by decide +kernel

/-- IsolationEventsHaveTheirEffect: resources with and without a launch and a rival; a shootdown that is done; a group that
waits for FQACK; attestation; the host's window in every power state. -/
theorem test_w_isolation :
    let v : Word := 0x1FFF
    let waits := base.putGang 3 { g0 with groups := [{ lowHalf with slices := 0xFF, park := some (.faultq 7) }] }
    let shot := base.modPart 15 (fun p => { p with shootBusy := true })
    let owned := base.putPair 63 { Pair.reset with ownv := true, owner := 3 }
    let at_ := fun n => { base with house := { base.house with cur := n } }
    let report := { base.modPart 0 (fun p => { p with attaddr := 0x4000 }) with attests := [0] }
    base.noLaunch 15 = true ∧ base.noLaunch 0 = false ∧ base.conflicts 15 { base.part 15 with vbase := v.toNat % 8192 } = false ∧
    base.conflicts 15 { base.part 15 with vbase := 1023, vsize := 1 } = true ∧
    gives (.partitionResourceWrite 15 0x1003 v) base (fun t => (t.part 15).vbase == 0x1FFF) ∧
    (owned.pair 63).ownv = true ∧ (0x14 : Word).getLsbD 4 = true ∧ (owned.pair 63).owner ≠ (0x14 : Word).toNat % 16 ∧
    shot.shootDone 15 = true ∧ base.shootDone 15 = false ∧
    gives (.shootdownComplete 15) shot (fun t => t.out.length == 2 && !(t.part 15).shootBusy) ∧
    gives (.shootdown 0 0xFFFF) { base with tlb := [⟨0, 0, 4096, 1⟩] } (fun t => t.tlb == [] && (t.part 0).seq == 0xFFFF) ∧
    (match waits.gang? 3 with
      | some g => waits.resident g && waits.teamPart g.team == 0
      | none => false) = true ∧
    gives (.faultQueueAck 0 0x10007) waits (fun t => gangOf t (fun g => g.groups.all (fun y => y.park.isNone && y.deliver))) ∧
    gives (.moduleAttest 15) base (fun t => Tbl.get 0 (t.part 15).trust (base.part 15).modid == 1) ∧
    gives (.attestReportReceive 0 15 (.report [])) (base.modPart 15 (fun p => { p with trust := [(0, 1)] })) (fun t =>
      Tbl.get 0 (t.part 15).trust 0 == 3) ∧
    (report.part 0).owns (report.part 0).reportBuffer 3904 = true ∧ (base.part 15).owns (base.part 15).reportBuffer 3904 = false ∧
    report.runsReady 4 [((report.part 0).reportBuffer, 3904)] true = true ∧ report.attests = [0] ∧ base.house.phase = 5 ∧
    (let early := { base with house := { base.house with phase := 4 } }
     gives (.partitionResourceWrite 15 0x1003 v) early (fun t => t == early)) ∧
    (at_ 2).house.cur = 2 ∧ (at_ 0).house.cur ≠ 2 ∧ (base.part 0).vsize * 65536 < 0x3FFFFFF + 2 ∧
    0x3FFFFFF + 1 ≤ (base.part 0).vsize * 65536 ∧
    gives (.attestReportWritten 15) { base.modPart 15 (fun p => { p with abusy := true }) with attests := [15] } (fun t =>
      (t.part 15).aerr && !(t.part 15).abusy) ∧
    (owned.noLaunch 3 = true ∧ (base.putPair 63 { Pair.reset with ownv := true }).noLaunch 0 = false) ∧
    gives (.hostBar2Access 0 0x100 1 none) base (fun t => t.out == [.hostRead 0 [0x2D]]) ∧
    gives (.hostBar2Access 0 0x107 1 (some [5])) base (fun t => t.vreqs.length == 1) := by decide +kernel

/-- IsolationEventsHaveTheirEffect: each resource register, taken and free; the owner's writes of a pair, also that of the owner
it has; the first and last bytes of the vault window and those beyond it. -/
theorem test_w_resources :
    let other := base.modPart 14 (fun p => { p with clusters := 0xFF00000001, vsize := 1, vbase := 8191 })
    let writes := fun (a : Nat) (v : Word) (s : State) (f : Partition → Bool) =>
      gives (.partitionResourceWrite 15 a v) s (fun t => f (t.part 15))
    let keeps := fun (i : Instr) (s : State) => gives i s (fun t => t == s)
    let owned := base.putPair 63 { Pair.reset with ownv := true, owner := 3, spuse := 2 }
    let owner := fun (v : Word) (s : State) (n : Nat) (ok : Bool) => gives (.partitionResourceWrite 15 0x407F v) s (fun t =>
      (t.pair 63).owner == n && (t.pair 63).ownv == ok && (t.pair 63).spuse == (s.pair 63).spuse)
    let unsupported := fun (i : Instr) => gives i base (fun t => t.out == [.hostUnsupported 0])
    let p := base.part 15
    let top := (base.part 0).vsize * 65536
    base.noLaunch 15 = true ∧ (base.part 0).clusters.getLsbD 0 = true ∧ (p.clusters, p.vsize) = (0, 0) ∧
    writes 0x1004 0x2001 base (fun q => q.vsize == 8192) = false ∧
      writes 0x1004 0x2001 (base.modPart 0 (fun q => { q with vsize := 0 }))
      (fun q => q.vsize == 8192) = true ∧
    writes 0x1005 0x80000000 base (fun q => q.clusters == 0x80000000) = true ∧
    writes 0x1006 0x180 base (fun q => q.clusters == 0x8000000000) = true ∧
    keeps (.partitionResourceWrite 15 0x1006 0x80) other = true ∧ keeps (.partitionResourceWrite 15 0x1005 1) other = true ∧
    (base.pair 63).ownv = false ∧ base.noLaunch 3 = true ∧ base.noLaunch 0 = false ∧
    owner 0x13 base 3 true = true ∧ owner 3 base 3 false = true ∧ owner 3 owned 3 false = true ∧ owner 0x13 owned 3 true = true ∧
    keeps (.partitionResourceWrite 15 0x407F 0x14) owned = true ∧ keeps (.partitionResourceWrite 15 0x407F 0x10) base = true ∧
    keeps (.partitionResourceWrite 15 0x407F 0) (base.putPair 63 { Pair.reset with ownv := true }) = true ∧
    base.uncovered (base.vcOf 4) = false ∧ base.iodq = [] ∧ base.fullOf 4 = false ∧ top = 0x4000000 ∧
    gives (.hostBar2Access 0 (top - 1) 1 none) base (fun t => t.out == [.hostRead 0 [0]]) ∧
    gives (.hostBar2Access 0 (top - 1) 1 (some [5])) base (fun t => t.vreqs.any (fun r => r.size == 1 && r.kind == .write 5)) ∧
    unsupported (.hostBar2Access 0 (top - 1) 2 none) = true ∧ unsupported (.hostBar2Access 0 top 0 none) = true ∧
    unsupported (.hostBar2Access 0 (top - 1) 2 (some [5, 6])) = true ∧
    gives (.hostBar2Access 0 0 1 none) { base with house := { base.house with cur := 2 } } (fun t => t.out == [.hostAbort 0]) := by
  decide +kernel

/-- StartUpAndPowerStates: phase 4 with each port and PCIe; a busy package and an idle one; both states being entered. -/
theorem test_w_power :
    let s := fun (f : House → House) => { idle with house := f idle.house }
    let four := fun m0 m1 pc => s (fun h => { h with phase := 4, mesh0 := m0, mesh1 := m1, pcie := pc })
    State.reset.pfReaches = false ∧ idle.pfReaches = true ∧ base.pfReaches = true ∧
    State.reset.busy = false ∧ base.busy = true ∧ (1 : BitVec 2) ≠ State.reset.house.cur ∧
    gives .linkPhaseTimeout (four true false true) (fun t => t.house.phase == 5) ∧
    gives .linkPhaseTimeout (four false false true) (fun t => t.house.err == 5) ∧
    gives .linkPhaseTimeout (four true false false) (fun t => t.house.err == 6) ∧
    gives .pcieTrained (four true true false) (fun t => t.house.phase == 5) ∧ (four true false false).house.late = false ∧
    gives (.meshPortUp 1) (four true false true) (fun t => t.house.phase == 5) ∧
    gives (.controlMeshPortDown 0) base (fun t => t.house.phase == 5 && !t.house.mesh0) ∧
    gives (.powerStateRequest 2) base (fun t => t.house.ref) ∧
    gives (.powerStateRequest 2) (s id) (fun t => t.house.entering == some 2) ∧
    gives .clockRampComplete (s (fun h => { h with entering := some 2 })) (fun t => t.house.cur == 2) ∧
    gives .clockRampComplete (s (fun h => { h with entering := some 1 })) (fun t => t.house.cur == 1) ∧
    gives (.powerStateRequest 0) (s (fun h => { h with cur := 1 })) (fun t => t.house.ramping) ∧
    gives .clockRampComplete (s (fun h => { h with cur := 1, ramping := true })) (fun t => t.house.cur == 0) ∧
    gives (.thermalSample [211] 0) base (fun t => t.house.hot && (t.part 15).halted) ∧
    gives (.thermalSample [210] 0xFFF) base (fun t => !t.house.hot && t.house.pwr == 0xFFF) ∧
      ¬ (∃ x ∈ [(210 : Byte)], 210 < x.toNat) := by
  decide +kernel

/-- StartUpAndPowerStates, the requests: one for the state the package is in, with work and without, one while another is under
way; the return from PS2 before and after the channels have been tried, and from PS1 with a channel still parked. -/
theorem test_w_powerRequests :
    let s := fun (f : House → House) => { idle with house := f idle.house }
    let two := s (fun h => { h with cur := 2 })
    let busy := { base with house := { base.house with cur := 2 } }
    let ramp := fun c p => s (fun h => { h with cur := c, ramping := true, polled := p })
    let trying := (ramp 2 true).putChan 7 { Chan.reset with trying := true }
    let parked := (ramp 1 false).putChan 7 { Chan.reset with ps1 := true }
    let keeps := fun (t : State) => gives .clockRampComplete t (fun u => u == t)
    two.busy = false ∧ two.pfReaches = true ∧ busy.busy = true ∧ busy.pfReaches = true ∧
    gives (.powerStateRequest 2) two (fun t => t == { two with house := { two.house with req := 2 } }) ∧
    gives (.powerStateRequest 2) busy (fun t => t.house.ref && t.house.cur == 2) ∧
    gives (.powerStateRequest 1) two (fun t => t.house.entering == some 1 && t.house.cur == 2) ∧
    gives (.powerStateRequest 2) (ramp 2 false) (fun t => t.house.entering == some 2 && !t.house.ramping) ∧
    gives (.powerStateRequest 1) (s (fun h => { h with entering := some 2 })) (fun t => t.house.entering == some 1) ∧
    gives (.powerStateRequest 0) two (fun t => t.house.ramping && !t.house.polled) ∧ keeps (ramp 2 false) = true ∧
    gives .clockRampComplete (ramp 2 true) (fun t => t.house.cur == 0) ∧ keeps trying = true ∧
      keeps parked = true := by decide +kernel

end Sys2Proof.Tests
end

section
/-! PROOFS. Predicate logic, PSET, PFROM and VOTE (R38, R136 to R139). -/

namespace Sys2Proof.Machine

/-! ### What VOTE writes (Table 5.6) -/

/-- One power of 2 added for each number below n that satisfies p. -/
theorem foldl_two_pow_lt (p : Nat → Bool) (n : Nat) :
    (List.range n).foldl (fun acc i => if p i then acc + 2 ^ i else acc) 0 < 2 ^ n := by
  induction n with
  | zero => exact Nat.one_pos
  | succ n ih =>
    rw [List.range_succ, List.foldl_append, List.foldl_cons, List.foldl_nil, pow_succ]
    split <;> omega

/-- The bits of that sum are p below n: each power of 2 added stands above every bit so far. -/
theorem testBit_foldl_two_pow (p : Nat → Bool) (n l : Nat) :
    ((List.range n).foldl (fun acc i => if p i then acc + 2 ^ i else acc) 0).testBit l = (decide (l < n) && p l) := by
  induction n with
  | zero => simp
  | succ n ih =>
    have hn := foldl_two_pow_lt p n
    rw [List.range_succ, List.foldl_append, List.foldl_cons, List.foldl_nil]
    generalize (List.range n).foldl _ 0 = x at ih hn
    rw [apply_ite (Nat.testBit · l), Nat.add_comm]
    rcases Nat.lt_trichotomy l n with h | rfl | h
    · rw [Nat.testBit_two_pow_add_gt h, ite_self, ih]
      simp [h, Nat.lt_succ_of_lt h]
    · rw [Nat.testBit_two_pow_add_eq, Nat.testBit_lt_two_pow hn]
      simp
    · have hl : 2 ^ n + 2 ^ n ≤ 2 ^ l := by
        rw [← Nat.two_mul, ← pow_succ']
        exact Nat.pow_le_pow_right (by decide) h
      rw [Nat.testBit_lt_two_pow (by omega), Nat.testBit_lt_two_pow (by omega)]
      simp [show ¬ l < n + 1 by omega]

/-- Lane l takes effect and satisfies p: a lane that VOTE counts. -/
def Ctx.inFavour (c : Ctx) (p : Nat → Bool) (l : Nat) : Bool := decide (l < 32) && (c.takes l && p l)

theorem Ctx.inFavour_iff {c : Ctx} {p : Nat → Bool} {l : Nat} : c.inFavour p l = true ↔ l ∈ c.takers ∧ p l = true := by
  simp [Ctx.inFavour, mem_takers, and_assoc]

theorem Ctx.takers_filter (c : Ctx) (p : Nat → Bool) : c.takers.filter p = (List.range 32).filter (c.inFavour p) := by
  rw [Ctx.takers, allLanes, List.filter_filter]
  refine List.filter_congr fun l hl => ?_
  rw [Ctx.inFavour, decide_eq_true (List.mem_range.1 hl), Bool.true_and, Bool.and_comm]

theorem voteWord_any (c : Ctx) (p : Nat → Bool) :
    voteWord 0 c.takers p = if (List.range 32).any (c.inFavour p) then 1 else 0 := by
  have same : c.takers.any p = (List.range 32).any (c.inFavour p) := by
    rw [Bool.eq_iff_iff, List.any_eq_true, List.any_eq_true]
    simp only [Ctx.inFavour_iff, mem_takers, List.mem_range]
    tauto
  rw [voteWord, same]

theorem voteWord_all (c : Ctx) (p : Nat → Bool) :
    voteWord 1 c.takers p = if (List.range 32).all (fun l => !c.takes l || p l) then 1 else 0 := by
  rw [voteWord, Ctx.takers, allLanes, List.all_filter]

theorem testBit_voteWord_ballot (c : Ctx) (p : Nat → Bool) {l : Nat} (h : l < 32) :
    (voteWord 2 c.takers p).testBit l = c.inFavour p l := by
  rw [voteWord, ← List.foldl_filter, Ctx.takers_filter, List.foldl_filter, testBit_foldl_two_pow, decide_eq_true h,
    Bool.true_and]

theorem voteWord_count (c : Ctx) (p : Nat → Bool) : voteWord 3 c.takers p = (List.range 32).countP (c.inFavour p) := by
  rw [List.countP_eq_length_filter, ← Ctx.takers_filter]
  rfl

/-! ### What VOTE leaves -/

/-- One scalar register written after a latency: it comes to read as v, and nothing else changes (R71). -/
theorem Ctx.wrote_launch_writeFixed (c : Ctx) (lat : Nat) (rs : List RegRef) (i : Nat) (v : Word) :
    c.wrote (fun e => if e = .s i then v else c.g.settled e)
      (c.next c.s ((c.g.launch c.slices lat rs).writeFixed c.slices lat [(.s i, v)])) := by
  refine Ctx.went_congr rfl (fun e => ?_) (went_next c c.s _ rfl)
  rw [Gang.settled_writeFixed]
  by_cases h : e = .s i
  · subst h
    simp [overwritten, RegElem.holds]
  · simp [overwritten, h, Ne.symm h]

/-- A word that names a destination and writes no element of it (R78). -/
theorem Ctx.wrote_launch (c : Ctx) (lat : Nat) (rs : List RegRef) :
    c.wrote c.g.settled (c.next c.s (c.g.launch c.slices lat rs)) :=
  Ctx.went_congr rfl (Gang.settled_launch _ _ _ _) (went_next c c.s _ rfl)

theorem Ctx.actives_isEmpty_iff {c : Ctx} : c.actives.isEmpty = true ↔ ∀ l < 32, c.active l = false := by
  simp [Ctx.actives, allLanes]

/-- The checks of VOTE, in their order (R62, R138). -/
def Ctx.voteStop (c : Ctx) (d : RegField) (a : PredField) (code : ByteField) : Option Stop :=
  check (decide (code.toNat ≤ 3)) Cause.illegalEncoding <|> check (scalarDst d) Cause.illegalOperand <|>
    c.hazard [.p a.toNat] [] [] c.guardRegs (regsOf d false)

/-- VOTE, once its checks have passed: the register is written if some lane is active, whatever the guard holds (R138). -/
def Ctx.voteEffect (c : Ctx) (d : RegField) (a : PredField) (code : ByteField) : State :=
  let g := c.g.launch c.slices 2 (regsOf d false)
  if c.actives.isEmpty then c.next c.s g
  else c.next c.s (g.writeFixed c.slices 2
    [(.s (sreg d), BitVec.ofNat 32 (voteWord code.toNat c.takers (c.pred a)))])

theorem exec_vote {s : State} {c : Ctx} (hs : s.issuing = some c) (d : RegField) (a : PredField) (code : ByteField) :
    exec (.vote d a code) s = c.run (c.voteStop d a code) (c.voteEffect d a code) := withIssue_some hs _

theorem exec_vote_badCode {s : State} {c : Ctx} (hs : s.issuing = some c) (d : RegField) (a : PredField)
    {code : ByteField} (hc : 3 < code.toNat) : exec (.vote d a code) s = .next (c.raise Cause.illegalEncoding) := by
  have stop : c.voteStop d a code = some (.trap Cause.illegalEncoding) := by
    rw [Ctx.voteStop, decide_eq_false (Nat.not_le.2 hc)]
    rfl
  rw [exec_vote hs, stop, Ctx.run_some, Ctx.stopped]

theorem exec_vote_badOperand {s : State} {c : Ctx} (hs : s.issuing = some c) {d : RegField} (a : PredField)
    {code : ByteField} (hc : code.toNat ≤ 3) (hd : isSreg d = false) :
    exec (.vote d a code) s = .next (c.raise Cause.illegalOperand) := by
  have stop : c.voteStop d a code = some (.trap Cause.illegalOperand) := by
    rw [Ctx.voteStop, decide_eq_true hc, scalarDst, hd]
    rfl
  rw [exec_vote hs, stop, Ctx.run_some, Ctx.stopped]

theorem Ctx.voteStop_none {c : Ctx} {d : RegField} {a : PredField} {code : ByteField} :
    c.voteStop d a code = none ↔ code.toNat ≤ 3 ∧ isSreg d = true ∧
      c.hazard [.p a.toNat] [] [] c.guardRegs (regsOf d false) = none := by
  simp only [Ctx.voteStop, scalarDst, orElse_none, check_none, decide_eq_true_eq]

theorem Ctx.wrote_voteEffect_inactive {c : Ctx} (h : ∀ l < 32, c.active l = false) (d : RegField) (a : PredField)
    (code : ByteField) : c.wrote c.g.settled (c.voteEffect d a code) := by
  rw [Ctx.voteEffect, if_pos (Ctx.actives_isEmpty_iff.2 h)]
  exact c.wrote_launch _ _

theorem Ctx.wrote_voteEffect_active {c : Ctx} (h : ∃ l < 32, c.active l = true) (d : RegField) (a : PredField)
    (code : ByteField) :
    c.wrote (fun e => if e = .s (sreg d) then BitVec.ofNat 32 (voteWord code.toNat c.takers (c.pred a)) else c.g.settled e)
      (c.voteEffect d a code) := by
  obtain ⟨l, hl, ha⟩ := h
  have some_active : ¬ c.actives.isEmpty = true := fun he => by simp [Ctx.actives_isEmpty_iff.1 he l hl] at ha
  rw [Ctx.voteEffect, if_neg some_active]
  exact c.wrote_launch_writeFixed _ _ _ _

/-! ### PSET and PFROM -/

theorem exec_pset {s : State} {c : Ctx} (hs : s.issuing = some c) (d : PredField) (code : ByteField) :
    exec (.pset d code) s = c.run (c.predStop (decide (code.toNat ≤ 1)) d [] [] [] [])
      (c.predData d (fun _ => (code == 1, Flags.none))) := withIssue_some hs _

theorem exec_pset_badCode {s : State} {c : Ctx} (hs : s.issuing = some c) (d : PredField) {code : ByteField}
    (hc : 1 < code.toNat) : exec (.pset d code) s = .next (c.raise Cause.illegalEncoding) := by
  have stop : c.predStop (decide (code.toNat ≤ 1)) d [] [] [] [] = some (.trap Cause.illegalEncoding) := by
    rw [decide_eq_false (Nat.not_le.2 hc)]
    rfl
  rw [exec_pset hs, stop, Ctx.run_some, Ctx.stopped]

/-- Operand a of one register that names no vector is never permuted (R66). -/
theorem Ctx.readA_scalar {c : Ctx} {a : RegField} (h : isVec a = false) (l : Nat) : c.readA a false l = c.field32 a l := by
  simp [Ctx.readA, Ctx.fieldAt, h]

/-- What PFROM takes of a register (R139). -/
theorem Ctx.pfrom_eq_read (c : Ctx) (r : RegField) (l : Nat) :
    (if isVec r then c.readA r false l != 0 else (c.field32 r 0).testBit l) =
      if isVec r then c.readA r false l != 0 else (c.readA r false 0).testBit l := by
  cases hv : isVec r
  · rw [Ctx.readA_scalar hv 0]
  · rfl

/-! ### The statement -/

/-- Settles O13: predicate logic, PSET and PFROM by what an instruction with a predicate destination leaves, VOTE by its
checks and then by whether a lane is active. -/
theorem predicateAndVoteResults : Obligations.PredicateAndVoteResults := by
  unfold Obligations.PredicateAndVoteResults
  refine ⟨fun g l v => ⟨g.elem_p63 l, rfl⟩, ?_, ?_⟩
  · intro s c d a b r code hs
    refine ⟨fun stop => ?_, fun stop => ?_, fun hc stop => ?_, exec_pset_badCode hs d, fun stop => ?_⟩
    · exact ⟨gives_predData (withIssue_some hs _) stop fun _ => rfl, gives_predData (withIssue_some hs _) stop fun _ => rfl,
        gives_predData (withIssue_some hs _) stop fun _ => rfl⟩
    · exact ⟨gives_predData (withIssue_some hs _) stop fun _ => rfl, gives_predData (withIssue_some hs _) stop fun _ => rfl⟩
    · exact gives_predData (exec_pset hs d code) (by rwa [decide_eq_true hc]) fun _ => rfl
    · exact gives_predData (withIssue_some hs _) stop fun l => c.pfrom_eq_read r l
  · intro s c d a code hs yes
    refine ⟨exec_vote_badCode hs d a, exec_vote_badOperand hs a, fun hc hd hz => ?_⟩
    have stop := Ctx.voteStop_none.2 ⟨hc, hd, hz⟩
    refine ⟨fun h => gives_run (exec_vote hs d a code) stop (Ctx.wrote_voteEffect_inactive h d a code),
      fun h => ⟨_, gives_run (exec_vote hs d a code) stop (Ctx.wrote_voteEffect_active h d a code), ?_, ?_, ?_, ?_⟩⟩
    · rintro rfl
      exact (congrArg _ (voteWord_any c _)).trans (apply_ite ..)
    · rintro rfl
      exact (congrArg _ (voteWord_all c _)).trans (apply_ite ..)
    · rintro rfl l hl
      rw [BitVec.getLsbD_ofNat, decide_eq_true hl, Bool.true_and]
      exact testBit_voteWord_ballot c _ hl
    · rintro rfl
      exact congrArg _ (voteWord_count c _)

end Sys2Proof.Machine
end

section
/-! PROOFS. Integer logic and shifts (R127, R128). -/

namespace Sys2Proof.Machine

/-! ### Patterns of a width -/

/-- The complement of a w-bit pattern, by exclusive or and by subtraction (Table 5.4, ANDN). -/
theorem xor_two_pow_sub_one {w y : Nat} (h : y < 2 ^ w) : y ^^^ (2 ^ w - 1) = 2 ^ w - 1 - y := by
  refine Nat.eq_of_testBit_eq fun i => ?_
  rw [Nat.sub_sub, Nat.add_comm 1 y, Nat.testBit_two_pow_sub_succ h, Nat.testBit_xor, Nat.testBit_two_pow_sub_one]
  by_cases hi : i < w
  · simp [hi]
  · have hy : y.testBit i = false :=
      Nat.testBit_lt_two_pow (h.trans_le (Nat.pow_le_pow_right (by decide) (Nat.not_lt.1 hi)))
    simp [hi, hy]

/-- Bit w − 1 copied into every bit: 0 below 2^(w − 1), else all ones. -/
theorem sarBits_of_width_le {w n x : Nat} (h : w ≤ n) (hx : x < 2 ^ w) :
    sarBits w x n = if x < 2 ^ (w - 1) then 0 else 2 ^ w - 1 := by
  have pos := Nat.two_pow_pos w
  simp only [sarBits, asInt, Nat.min_eq_right h, Nat.mod_eq_of_lt hx, Bool.true_and, decide_eq_true_eq, ← Nat.not_lt, ite_not]
  split
  · rw [Int.ediv_eq_zero_of_lt (Int.natCast_nonneg x) (by exact_mod_cast hx)]
    rfl
  · have quot : ((x : Int) - (2 ^ w : Nat)) / (2 ^ w : Nat) = -1 := by
      rw [Int.ediv_eq_iff_of_pos (by exact_mod_cast pos)]
      constructor <;> omega
    rw [quot, ← Int.add_emod_right, Int.emod_eq_of_lt (by omega) (by omega)]
    omega

theorem sarBits_of_lt_width {w n x : Nat} (h : n < w) :
    sarBits w x n = (asInt true w x / 2 ^ n % 2 ^ w).toNat := by
  simp [sarBits, Nat.min_eq_left h.le]

/-- SAR, with the counts from the width on apart (R128). -/
theorem sarBits_eq {w n x : Nat} (hx : x < 2 ^ w) :
    sarBits w x n = if w ≤ n then (if x < 2 ^ (w - 1) then 0 else 2 ^ w - 1)
      else (asInt true w x / 2 ^ n % 2 ^ w).toNat := by
  split_ifs with h
  · rw [sarBits_of_width_le h hx, if_pos ‹_›]
  · rw [sarBits_of_width_le h hx, if_neg ‹_›]
  · exact sarBits_of_lt_width (Nat.not_le.1 h)

/-! ### The statement -/

/-- Settles O10: each word is one data instruction of latency 4. For ANDN the complement is written by exclusive or, for SAR
the counts from the width on stand apart; the other results are those of the model as they stand. -/
theorem integerLogicAndShiftResults : Obligations.IntegerLogicAndShiftResults := by
  unfold Obligations.IntegerLogicAndShiftResults
  intro s c d a b hs t w n x y k
  have x_lt : ∀ l, x l < 2 ^ n := fun l => Nat.mod_lt _ (Nat.two_pow_pos n)
  have y_lt : ∀ l, y l < 2 ^ n := fun l => Nat.mod_lt _ (Nat.two_pow_pos n)
  refine ⟨fun stop => ⟨?and, ?or, ?xor, ?andn⟩, fun stop => ⟨?shl, ?shr, ?sar, ?rotl⟩⟩
  case and => exact gives_data (withIssue_some hs _) stop fun _ => rfl
  case or => exact gives_data (withIssue_some hs _) stop fun _ => rfl
  case xor => exact gives_data (withIssue_some hs _) stop fun _ => rfl
  case andn =>
    refine gives_data (withIssue_some hs _) stop fun l => ?_
    rw [xor_two_pow_sub_one (y_lt l)]
  case shl => exact gives_data (withIssue_some hs _) stop fun _ => rfl
  case shr => exact gives_data (withIssue_some hs _) stop fun _ => rfl
  case sar => exact gives_data (withIssue_some hs _) stop fun l => congrArg _ (sarBits_eq (x_lt l))
  case rotl => exact gives_data (withIssue_some hs _) stop fun _ => rfl

end Sys2Proof.Machine
end

section
/-! PROOFS. Branches, BRX, CALL and RET (R27, R58, R118 to R120). -/

namespace Sys2Proof.Machine

/-! ### Masks and groups -/

/-- A mask has the members that satisfy its condition. -/
theorem getLsbD_maskOf {w : Nat} (f : Nat → Bool) {i : Nat} (h : i < w) : (maskOf w f).getLsbD i = f i := by
  rw [maskOf, BitVec.getLsbD_ofNat, testBit_foldl_two_pow, decide_eq_true h, Bool.true_and, Bool.true_and]

theorem mem_insertGroup {x y : Group} {l : List Group} : y ∈ insertGroup x l ↔ y = x ∨ y ∈ l := by
  induction l with
  | nil => simp [insertGroup]
  | cons z l ih =>
    rw [insertGroup]
    split
    · exact List.mem_cons
    · rw [List.mem_cons, List.mem_cons, ih]
      tauto

theorem Gang.settled_with_groups (g : Gang) (l : List Group) (e : RegElem) :
    Gang.settled { g with groups := l } e = g.settled e := by
  rw [Gang.settled_eq, Gang.settled_eq]
  cases e <;> rfl

/-- Dropping a group that has gone on leaves the others as they were. -/
theorem mem_groups_dropGroup_retire {g : Gang} {m : SliceMask} {pc : VAddr} {cad : Nat} {x : Group} :
    x ∈ ((g.retire m pc cad).dropGroup m).groups ↔ x ∈ g.groups ∧ x.slices ≠ m := by
  rw [Gang.dropGroup, List.mem_filter, Gang.groups_retire, List.mem_map, Bool.not_eq_true', beq_eq_false_iff_ne]
  constructor
  · rintro ⟨⟨y, hy, rfl⟩, hne⟩
    by_cases h : y.slices = m
    · simp [h] at hne
    · simpa [h] using hy
  · rintro ⟨hx, hne⟩
    exact ⟨⟨x, hx, by simp [hne]⟩, hne⟩

/-! ### Branches -/

/-- The target of a branch in words from its own (R58). -/
theorem Ctx.target_eq (c : Ctx) (imm : BitVec 24) : c.target imm = c.pc + 4 * imm.signExtend 56 := by
  rw [Ctx.target, BitVec.mul_comm]
  exact congrArg _ (BitVec.shiftLeft_eq_mul_twoPow _ 2)

/-- The part of the issuing group made of slices m, gone on at pc. -/
def Ctx.piece (c : Ctx) (m : SliceMask) (pc : VAddr) : Group :=
  { slices := m, pc := pc, park := none, since := 0, idle := Mr.cad c.mr + 1 }

/-- The gang of c once its group has divided: the slices yes at target, the slices no at the next word (R27). -/
def Ctx.divided (c : Ctx) (yes no : SliceMask) (target : VAddr) : Gang :=
  let g := (c.g.retire c.slices (c.pc + 4) (Mr.cad c.mr)).dropGroup c.slices
  { g with groups := insertGroup (c.piece yes target) (insertGroup (c.piece no (c.pc + 4)) g.groups) }

theorem Ctx.rest_divided (c : Ctx) (yes no : SliceMask) (target : VAddr) : (c.divided yes no target).rest = c.g.rest :=
  Gang.rest_retire c.g c.slices (c.pc + 4) (Mr.cad c.mr)

theorem Ctx.settled_divided (c : Ctx) (yes no : SliceMask) (target : VAddr) (e : RegElem) :
    (c.divided yes no target).settled e = c.g.settled e :=
  (Gang.settled_with_groups _ _ e).trans ((Gang.settled_with_groups _ _ e).trans (Gang.settled_retire c.g _ _ _ e))

theorem Ctx.mem_groups_divided {c : Ctx} {yes no : SliceMask} {target : VAddr} {x : Group} :
    x ∈ (c.divided yes no target).groups ↔
      (x ∈ c.g.groups ∧ x.slices ≠ c.slices) ∨ x = c.piece yes target ∨ x = c.piece no (c.pc + 4) := by
  rw [Ctx.divided, mem_insertGroup, mem_insertGroup, mem_groups_dropGroup_retire]
  tauto

theorem Ctx.branch_divided {c : Ctx} {take : SliceMask} (target : VAddr) (hy : c.slices &&& take ≠ 0)
    (hn : c.slices &&& ~~~take ≠ 0) :
    c.branch take target = c.s.putGang c.id (c.divided (c.slices &&& take) (c.slices &&& ~~~take) target) := by
  rw [Ctx.branch, if_neg hy, if_neg hn]
  rfl

/-- What a branch leaves, for a mask of the slices that would take it (R27, R118). -/
theorem Ctx.branched_branch {c : Ctx} {take : Nat → Bool} {m : SliceMask} (hm : ∀ i < 8, m.getLsbD i = take i)
    (target : VAddr) : c.branched take target (c.branch m target) := by
  refine ⟨c.slices &&& m, c.slices &&& ~~~m, fun i hi => ?_, fun i hi => ?_, fun hy => ?_, fun hy hn => ?_, fun hy hn => ?_⟩
  · rw [BitVec.getLsbD_and, hm i hi]
  · rw [BitVec.getLsbD_and, BitVec.getLsbD_not, hm i hi, decide_eq_true hi, Bool.true_and]
  · rw [Ctx.branch, if_pos hy]
    exact c.wrote_skip
  · rw [Ctx.branch, if_neg hy, if_pos hn]
    exact Ctx.went_nextAt c c.s c.g target rfl
  · exact ⟨_, Ctx.branch_divided target hy hn, c.rest_divided _ _ _, c.settled_divided _ _ _,
      fun _ => Ctx.mem_groups_divided⟩

theorem not_isEmpty_filter {α : Type} (l : List α) (p : α → Bool) : (!(l.filter p).isEmpty) = l.any p := by
  rw [Bool.eq_iff_iff]
  simp

theorem Ctx.activeIn_eq (c : Ctx) (i : Nat) :
    c.activeIn i = [4 * i, 4 * i + 1, 4 * i + 2, 4 * i + 3].filter c.active := rfl

/-- Four bits are zero if each of them is. -/
theorem extractLsb'_four_beq_zero {w : Nat} (x : BitVec w) (i : Nat) :
    (x.extractLsb' i 4 == 0) = [i, i + 1, i + 2, i + 3].all (fun l => !x.getLsbD l) := by
  rw [Bool.eq_iff_iff, beq_iff_eq, List.all_eq_true]
  constructor
  · intro h l hl
    have bit : (x.extractLsb' i 4).getLsbD (l - i) = false := by simp [h]
    obtain rfl | rfl | rfl | rfl : l = i ∨ l = i + 1 ∨ l = i + 2 ∨ l = i + 3 := by simpa using hl
    all_goals simpa using bit
  · intro h
    refine BitVec.eq_of_getLsbD_eq fun k hk => ?_
    have bit := h (i + k) (by simp; omega)
    simpa [hk] using bit

/-! ### Jumps of the whole group -/

/-- A jump under once(): the group goes on at pc, or else at the next word (R45). -/
theorem Ctx.went_jump (c : Ctx) (pc : VAddr) :
    c.went c.s c.g (if c.once then pc else c.pc + 4) c.g.settled (if c.once then c.goTo pc else c.skip) := by
  split
  · exact Ctx.went_nextAt c c.s c.g pc rfl
  · exact c.wrote_skip

/-! ### A register written at once -/

/-- Results becoming visible add none to those on their way. -/
theorem mem_commitGo {f : Pending → Bool} {ps kept : List Pending} {g : Gang} {p : Pending}
    (h : p ∈ (commitGo f ps kept g).1) : p ∈ kept ∨ p ∈ ps := by
  induction ps generalizing kept g with
  | nil => exact .inl h
  | cons q ps ih =>
    rw [commitGo] at h
    split at h
    · rcases ih h with h | h
      · exact .inl (List.mem_of_mem_filter h)
      · exact .inr (List.mem_cons_of_mem _ h)
    · rcases ih h with h | h
      · rcases List.mem_append.1 h with h | h
        · exact .inl h
        · exact .inr (List.mem_singleton.1 h ▸ List.mem_cons_self)
      · exact .inr (List.mem_cons_of_mem _ h)

/-- As the issue distance grows, no element comes to have a result on its way. -/
theorem Gang.dest_of_mem_pend_retire {g : Gang} {m : SliceMask} {pc : VAddr} {cad : Nat} {p : Pending}
    (h : p ∈ (g.retire m pc cad).pend) : ∃ q ∈ g.pend, q.dest = p.dest := by
  rcases mem_commitGo h with h | h
  · cases h
  · obtain ⟨q, hq, rfl⟩ := List.mem_map.1 h
    exact ⟨q, hq, rfl⟩

theorem Gang.pend_putElem (g : Gang) (e : RegElem) (x : Word) : (g.putElem e x).pend = g.pend := by
  cases e <;> simp only [Gang.putElem]
  split <;> rfl

/-- An element written at once has no result on its way (R75). -/
theorem Gang.dest_ne_of_mem_pend_putNow {g : Gang} {e : RegElem} {x : Word} {p : Pending} (h : p ∈ (g.putNow e x).pend) :
    p.dest ≠ e := by
  rw [Gang.putNow, Gang.pend_putElem] at h
  simpa using (List.mem_filter.1 h).2

/-- A scalar register written at once reads as its value in the very next word (R75). -/
theorem Gang.elem_retire_putNow (g : Gang) (m : SliceMask) (pc : VAddr) (cad i : Nat) (x : Word) :
    ((g.putNow (.s i) x).retire m pc cad).elem (.s i) = x := by
  have none_left : ∀ p ∈ ((g.putNow (.s i) x).retire m pc cad).pend, p.dest ≠ .s i := by
    intro p hp
    obtain ⟨q, hq, hd⟩ := Gang.dest_of_mem_pend_retire hp
    exact hd ▸ Gang.dest_ne_of_mem_pend_putNow hq
  calc ((g.putNow (.s i) x).retire m pc cad).elem (.s i)
      = ((g.putNow (.s i) x).retire m pc cad).settled (.s i) := by rw [Gang.settled_eq, landed_of_not_mem none_left]
    _ = (g.putNow (.s i) x).settled (.s i) := Gang.settled_retire _ _ _ _ _
    _ = x := (Gang.settled_putNow _ _ _ _).trans (if_pos rfl)

/-- One scalar register written at once, and the group going on at pc. -/
theorem Ctx.went_nextAt_putNow (c : Ctx) (pc : VAddr) (i : Nat) (x : Word) :
    c.went c.s c.g pc (fun e => if e = .s i then x else c.g.settled e) (c.nextAt c.s (c.g.putNow (.s i) x) pc) := by
  refine Ctx.went_congr (Gang.rest_putNow _ _ _) (fun e => ?_) (Ctx.went_nextAt c c.s _ pc (Gang.groups_putNow _ _ _))
  rw [Gang.settled_putNow]
  by_cases h : e = .s i
  · subst h
    simp [RegElem.holds]
  · simp [h, Ne.symm h]

theorem exec_brx {s : State} {c : Ctx} (hs : s.issuing = some c) (a : RegField) :
    exec (.brx a) s = c.run (c.onceStop (scalarOk a) true true (regsOf a false) [] [] [])
      (if c.once then c.goTo (c.pc.extractLsb' 32 24 ++ (c.readS a &&& 0xFFFFFFFC#32)) else c.skip) := withIssue_some hs _

theorem exec_brx_badOperand {s : State} {c : Ctx} (hs : s.issuing = some c) {a : RegField} (ha : scalarOk a = false) :
    exec (.brx a) s = .next (c.raise Cause.illegalOperand) := by
  rw [exec_brx hs, ha]
  rfl

theorem exec_call {s : State} {c : Ctx} (hs : s.issuing = some c) (imm : BitVec 24) :
    exec (.call imm) s = c.run (c.hazard [] [] [] c.guardRegs [.s 55])
      (if c.once then c.nextAt c.s (c.g.putNow (.s 55) ((c.pc + 4).extractLsb' 0 32)) (c.target imm) else c.skip) :=
  withIssue_some hs _

/-! ### The statement -/

/-- Settles O19: each branch by the slices that would take it, BRX and RET by the jump under once(), CALL by s55, which is
written at once. -/
theorem branchesDivideAndJumpsMoveGroups : Obligations.BranchesDivideAndJumpsMoveGroups := by
  unfold Obligations.BranchesDivideAndJumpsMoveGroups
  refine ⟨fun s c imm hs => ?_, fun s c a imm hs =>
    ⟨fun stop => ?brx, exec_brx_badOperand hs, fun stop => ?call, fun stop => ?ret⟩⟩
  · rw [← Ctx.target_eq]
    refine ⟨?braz, fun stop => ⟨?braAny, ?braAll⟩⟩
    case braz =>
      refine gives_run (withIssue_some hs _) rfl (Ctx.branched_branch (fun i hi => ?_) _)
      rw [getLsbD_maskOf _ hi, extractLsb'_four_beq_zero]
    case braAny =>
      refine gives_run (withIssue_some hs _) stop (Ctx.branched_branch (fun i hi => ?_) _)
      rw [getLsbD_maskOf _ hi, Ctx.activeIn_eq, List.any_filter]
    case braAll =>
      refine gives_run (withIssue_some hs _) stop (Ctx.branched_branch (fun i hi => ?_) _)
      rw [getLsbD_maskOf _ hi, Ctx.activeIn_eq, List.all_filter, not_isEmpty_filter]
  case brx => exact gives_run (exec_brx hs a) stop (c.went_jump _)
  case call =>
    rw [← Ctx.target_eq]
    refine ⟨fun no => gives_run (exec_call hs imm) stop ?_, fun yes => gives_run (exec_call hs imm) stop ?_⟩
    · rw [no]
      exact c.wrote_skip
    · rw [if_pos yes]
      exact ⟨c.went_nextAt_putNow _ 55 _, _, State.gang?_putGang_same _ _ _, Gang.elem_retire_putNow _ _ _ _ _ _⟩
  case ret => exact gives_run (withIssue_some hs _) stop (c.went_jump _)

end Sys2Proof.Machine
end

section
/-! PROOFS. MAND, MANDN, MRESTORE, MSAVE and EXIT (R31, R34, R122, R125). -/

namespace Sys2Proof.Machine

/-! ### Masks -/

theorem Gang.settled_with_emask (g : Gang) (m : LaneMask) (e : RegElem) :
    Gang.settled { g with emask := m } e = g.settled e := by
  rw [Gang.settled_eq, Gang.settled_eq]
  cases e <;> rfl

/-- What MAND, MANDN and MRESTORE leave: emask is f in the lanes of the issuing group's slices, and as it was in the others
(R34). -/
theorem Ctx.went_setEmask (c : Ctx) (f : Nat → Bool) : ∃ em : LaneMask,
    (∀ l < 32, em.getLsbD l = if c.slices.getLsbD (l / 4) then f l else c.g.emask.getLsbD l) ∧
    c.went c.s { c.g with emask := em } (c.pc + 4) c.g.settled (c.setEmask f) :=
  ⟨_, fun _ hl => getLsbD_maskOf _ hl, Ctx.went_congr rfl (Gang.settled_with_emask _ _) (went_next c c.s _ rfl)⟩

theorem exec_mrestore {s : State} {c : Ctx} (hs : s.issuing = some c) (a : RegField) :
    exec (.mrestore a) s = c.run (check (scalarOk a) Cause.illegalOperand <|> c.hazard (regsOf a false) [] [] [] [])
      (c.setEmask (fun l => (c.readS a).getLsbD l && !c.g.exited.getLsbD l)) := withIssue_some hs _

theorem exec_msave {s : State} {c : Ctx} (hs : s.issuing = some c) (d : RegField) :
    exec (.msave d) s = c.run (check (scalarDst d) Cause.illegalOperand <|> c.hazard [] [] [] [] (regsOf d false))
      (c.next c.s (c.g.writeNow [(.s (sreg d), c.g.emask)])) := withIssue_some hs _

/-- The check of an operand that fails comes before every other (R62). -/
theorem Ctx.run_badOperand (c : Ctx) {ok : Bool} (h : ok = false) (later : Option Stop) (effect : State) :
    c.run (check ok Cause.illegalOperand <|> later) effect = .next (c.raise Cause.illegalOperand) := by
  rw [h]
  rfl

/-! ### The end of a gang -/

theorem mem_listed {α : Type} {t : Tbl (Option α)} {e : Nat × α} (h : e ∈ listed t) : Tbl.get none t e.1 = some e.2 := by
  obtain ⟨x, -, hx⟩ := List.mem_filterMap.1 h
  obtain ⟨v, hv, rfl⟩ := Option.map_eq_some_iff.1 hx
  exact hv

/-- Changing those of some gangs that are of a team leaves a gang as it was, or changed by f. -/
theorem State.gang?_foldl_modTeamGangs {team id : Nat} {f : Gang → Gang} {g : Gang} (l : List (Nat × Gang)) {acc : State}
    (hl : ∀ e ∈ l, e.1 = id → e.2 = g) (h : acc.gang? id = some g ∨ acc.gang? id = some (f g)) :
    let u := l.foldl (fun acc e => if e.2.team == team then acc.putGang e.1 (f e.2) else acc) acc
    u.gang? id = some g ∨ u.gang? id = some (f g) := by
  induction l generalizing acc with
  | nil => exact h
  | cons e l ih =>
    refine ih (fun x hx => hl x (List.mem_cons_of_mem _ hx)) ?_
    dsimp only
    split
    · by_cases hid : e.1 = id
      · rw [hid, hl e List.mem_cons_self hid]
        exact .inr (State.gang?_putGang_same _ _ _)
      · rwa [State.gang?_putGang_other _ _ (Ne.symm hid)]
    · exact h

theorem State.gang?_modTeamGangs {s : State} {team id : Nat} {f : Gang → Gang} {g : Gang} (hg : s.gang? id = some g) :
    (s.modTeamGangs team f).gang? id = some g ∨ (s.modTeamGangs team f).gang? id = some (f g) := by
  refine State.gang?_foldl_modTeamGangs _ ?_ (.inl hg)
  rintro e he rfl
  exact Option.some.inj ((mem_listed he).symm.trans hg)

theorem State.gang?_of_gangs_eq {s t : State} (h : t.gangs = s.gangs) (id : Nat) : t.gang? id = s.gang? id := by
  rw [State.gang?, State.gang?, h]

@[simp] theorem State.teamGone_gangs (s : State) (t : Team) (counted stopped : Bool) :
    (s.teamGone t counted stopped).gangs = s.gangs := State.modLaunch_gangs _ _ _

@[simp] theorem State.vacate_gangs (s : State) (team : Nat) (t : Team) : (s.vacate team t).gangs = s.gangs :=
  State.modPart_gangs _ _ _

/-- The end of a team takes nothing of its gangs but an outstanding WORKGET. -/
theorem State.gang?_endTeamIfDone {s : State} {team id : Nat} {g : Gang} (hg : s.gang? id = some g) :
    ∃ w, (s.endTeamIfDone team).gang? id = some { g with workget := w } := by
  unfold State.endTeamIfDone
  split
  · exact ⟨g.workget, hg⟩
  · split
    · rw [State.gang?_of_gangs_eq (s := s.modTeamGangs team fun g => { g with workget := none }) (by simp)]
      rcases State.gang?_modTeamGangs (f := fun g => { g with workget := none }) hg with h | h
      · exact ⟨g.workget, h⟩
      · exact ⟨none, h⟩
    · exact ⟨g.workget, hg⟩

theorem State.endGangIfDone_eq {s : State} {id : Nat} {g : Gang} (hg : s.gang? id = some g) :
    s.endGangIfDone id = if g.live = 0 && !g.ended then (s.putGang id g.finish).endTeamIfDone g.team else s := by
  rw [State.endGangIfDone, hg]

/-- A gang with a live slice goes on (R31). -/
theorem State.endGangIfDone_of_live {s : State} {id : Nat} {g : Gang} (hg : s.gang? id = some g) (h : g.live ≠ 0) :
    s.endGangIfDone id = s := by
  rw [State.endGangIfDone_eq hg, decide_eq_false h, Bool.false_and, if_neg Bool.false_ne_true]

/-- A gang without a live slice has ended, its lanes as they were (R31). -/
theorem State.gang?_endGangIfDone_of_dead {s : State} {id : Nat} {g : Gang} (hg : s.gang? id = some g) (h : g.live = 0) :
    ∃ g', (s.endGangIfDone id).gang? id = some g' ∧ g'.exited = g.exited ∧ g'.emask = g.emask ∧ g'.ended = true := by
  rw [State.endGangIfDone_eq hg, decide_eq_true h, Bool.true_and]
  cases he : g.ended
  · obtain ⟨w, hw⟩ := State.gang?_endTeamIfDone (team := g.team) (State.gang?_putGang_same s id g.finish)
    exact ⟨_, hw, rfl, rfl, rfl⟩
  · exact ⟨g, hg, rfl, rfl, he⟩

/-! ### Live slices -/

theorem Gang.getLsbD_live (g : Gang) {i : Nat} (h : i < 8) : g.live.getLsbD i = g.sliceLive i := getLsbD_maskOf _ h

/-- No slice is live once every lane has exited (R31). -/
theorem Gang.live_eq_zero_iff {g : Gang} : g.live = 0 ↔ ∀ l < 32, g.exited.getLsbD l = true := by
  constructor
  · intro h l hl
    have dead : g.sliceLive (l / 4) = false := by
      rw [← g.getLsbD_live (by omega), h]
      exact BitVec.getLsbD_zero
    rw [Gang.sliceLive, List.any_eq_false] at dead
    simpa [Nat.div_add_mod] using dead (l % 4) (List.mem_range.2 (Nat.mod_lt _ (by decide)))
  · intro h
    refine BitVec.eq_of_getLsbD_eq fun i hi => ?_
    have dead : g.sliceLive i = false := by
      rw [Gang.sliceLive, List.any_eq_false]
      intro k hk
      rw [h _ (by have := List.mem_range.1 hk; omega)]
      decide
    rw [g.getLsbD_live hi, dead]
    exact BitVec.getLsbD_zero.symm

/-! ### What EXIT makes of the gang -/

/-- The gang of c with the lanes that take effect exited and disabled (R31, R122). -/
def Ctx.retired (c : Ctx) : Gang :=
  { c.g with exited := c.g.exited ||| maskOf 32 c.takes, emask := c.g.emask &&& ~~~maskOf 32 c.takes }

/-- The gang of c once its group has gone on past the EXIT, with the slices that it had. -/
def Ctx.passedExit (c : Ctx) : Gang := c.retired.retire c.slices (c.pc + 4) (Mr.cad c.mr)

/-- The gang of these slices' group kept to those that are still live, or without the group if none is (R31). -/
def Gang.keepLive (g : Gang) (m : SliceMask) : Gang :=
  if m &&& g.live = 0 then g.dropGroup m else g.shrink m (m &&& g.live)

/-- The gang of c after EXIT has retired some lane, before it ends if none is left. -/
def Ctx.exitGang (c : Ctx) : Gang :=
  (c.passedExit.keepLive c.slices).pruneDead.slicesDied (c.g.live &&& ~~~c.passedExit.live)

/-- The checks of EXIT (R62, R419). -/
def Ctx.exitStop (c : Ctx) : Option Stop :=
  c.hazard [] [] [] c.guardRegs [] <|> (if c.endsGang then c.posted Posted.atExit else none)

theorem exec_exit {s : State} {c : Ctx} (hs : s.issuing = some c) :
    exec .exit s = c.run c.exitStop
      (if c.takers.isEmpty then c.skip else (c.s.putGang c.id c.exitGang).endGangIfDone c.id) := withIssue_some hs _

theorem firstPosted_none {f : Posted → Bool} {l : List Posted} (h : l.filter f = []) : firstPosted f l = none := by
  induction l with
  | nil => rfl
  | cons p l ih =>
    rw [List.filter_cons] at h
    split at h
    · cases h
    · rename_i hp
      rw [firstPosted, ih h, if_neg hp]

theorem Ctx.exitStop_none {c : Ctx} (hazard : c.hazard [] [] [] c.guardRegs [] = none)
    (posted : c.endsGang = true → c.g.posted.filter Posted.atExit = []) : c.exitStop = none := by
  refine orElse_none.2 ⟨hazard, ?_⟩
  split
  · rename_i h
    rw [Ctx.posted, firstPosted_none (posted h)]
    rfl
  · rfl

theorem Ctx.takers_isEmpty_iff {c : Ctx} : c.takers.isEmpty = true ↔ ∀ l < 32, c.takes l = false := by
  simp [Ctx.takers, allLanes]

theorem Ctx.endsGang_iff {c : Ctx} : c.endsGang = true ↔ ∀ l < 32, c.retired.exited.getLsbD l = true := by
  simp only [Ctx.endsGang, allLanes, List.all_eq_true, List.mem_range, Ctx.retired, BitVec.getLsbD_or]
  exact forall₂_congr fun l hl => by rw [getLsbD_maskOf _ hl]

/-! ### What the end of slices leaves alone -/

theorem Gang.rest_keepLive (g : Gang) (m : SliceMask) :
    (g.keepLive m).rest = { g.rest with turn := (g.keepLive m).turn } := by
  unfold Gang.keepLive
  split <;> rfl

@[simp] theorem Gang.rest_pruneDead (g : Gang) : g.pruneDead.rest = g.rest := Gang.rest_commit _ _

@[simp] theorem Gang.groups_pruneDead (g : Gang) : g.pruneDead.groups = g.groups := Gang.groups_commit _ _

/-- The arrivals of these traps are undone, and nothing but parks changes (R315). -/
theorem Gang.rest_foldl_unpark (ts : List PendTrap) (g : Gang) :
    (ts.foldl (fun g t => g.modGroup t.slices (fun x => { x with park := none })) g).rest = g.rest := by
  induction ts generalizing g with
  | nil => rfl
  | cons t ts ih => rw [List.foldl_cons, ih, Gang.rest_modGroup]

/-- A group that is not parked stands as it did when arrivals are undone. -/
theorem Gang.mem_groups_foldl_unpark {x : Group} (hp : x.park = none) (ts : List PendTrap) {g : Gang} (hx : x ∈ g.groups) :
    x ∈ (ts.foldl (fun g t => g.modGroup t.slices (fun x => { x with park := none })) g).groups := by
  induction ts generalizing g with
  | nil => exact hx
  | cons t ts ih =>
    refine ih (List.mem_map.2 ⟨x, hx, ?_⟩)
    split
    · rw [← hp]
    · rfl

theorem Gang.rest_slicesDied (g : Gang) (dead : SliceMask) :
    ∃ traps, (g.slicesDied dead).rest = { g.rest with pendTraps := traps } := ⟨_, Gang.rest_foldl_unpark _ _⟩

theorem Gang.mem_groups_slicesDied {g : Gang} {x : Group} (hp : x.park = none) (dead : SliceMask) (hx : x ∈ g.groups) :
    x ∈ (g.slicesDied dead).groups := Gang.mem_groups_foldl_unpark hp _ hx

/-- EXIT changes the lanes, the turn and the traps that undo arrivals, beside registers and groups. -/
theorem Ctx.rest_exitGang (c : Ctx) :
    ∃ turn traps, c.exitGang.rest = { c.retired.rest with turn := turn, pendTraps := traps } := by
  obtain ⟨traps, h⟩ :=
    Gang.rest_slicesDied (c.passedExit.keepLive c.slices).pruneDead (c.g.live &&& ~~~c.passedExit.live)
  refine ⟨(c.passedExit.keepLive c.slices).turn, traps, ?_⟩
  rw [Ctx.exitGang, h, Gang.rest_pruneDead, Gang.rest_keepLive, Ctx.passedExit, Gang.rest_retire]

theorem Ctx.exited_exitGang (c : Ctx) : c.exitGang.exited = c.retired.exited := by
  obtain ⟨_, _, h⟩ := c.rest_exitGang
  exact (congrArg Gang.exited h :)

theorem Ctx.emask_exitGang (c : Ctx) : c.exitGang.emask = c.retired.emask := by
  obtain ⟨_, _, h⟩ := c.rest_exitGang
  exact (congrArg Gang.emask h :)

theorem Ctx.exited_passedExit (c : Ctx) : c.passedExit.exited = c.retired.exited :=
  (congrArg Gang.exited (Gang.rest_retire c.retired c.slices (c.pc + 4) (Mr.cad c.mr)) :)

/-! ### The group that goes on -/

theorem mem_foldr_insertGroup {y : Group} {l : List Group} : y ∈ l.foldr insertGroup [] ↔ y ∈ l := by
  induction l with
  | nil => rfl
  | cons x l ih => rw [List.foldr_cons, mem_insertGroup, ih, List.mem_cons]

/-- The group that issues is one of its gang. -/
theorem State.issuing_mem {s : State} {c : Ctx} (h : s.issuing = some c) : c.grp ∈ c.g.groups := by
  unfold State.issuing at h
  split at h
  · cases h
  · split at h
    · cases h
    · split at h
      · cases h
      · rename_i hx
        cases h
        exact List.mem_of_find?_eq_some hx

/-- The group of c gone on past its word. -/
def Ctx.passed (c : Ctx) : Group := { c.grp with pc := c.pc + 4, park := none, deliver := false, idle := Mr.cad c.mr + 1 }

theorem Ctx.passed_mem {c : Ctx} (h : c.grp ∈ c.g.groups) : c.passed ∈ c.passedExit.groups := by
  rw [Ctx.passedExit, Gang.groups_retire]
  exact List.mem_map.2 ⟨c.grp, h, if_pos (beq_self_eq_true _)⟩

/-- A group of which a slice is live keeps its live slices (R31). -/
theorem Gang.mem_groups_keepLive {g : Gang} {x : Group} (hx : x ∈ g.groups) (h : x.slices &&& g.live ≠ 0) :
    { x with slices := x.slices &&& g.live } ∈ (g.keepLive x.slices).groups := by
  rw [Gang.keepLive, if_neg h]
  exact mem_foldr_insertGroup.2 (List.mem_map.2 ⟨x, hx, if_pos (beq_self_eq_true _)⟩)

/-- After EXIT each slice of its group that is still live stands in a group at the next word, which waits for nothing. -/
theorem Ctx.exitGang_goes_on {c : Ctx} (h : c.grp ∈ c.g.groups) {i : Nat} (hi : i < 8) (hm : c.slices.getLsbD i = true)
    (hl : c.passedExit.sliceLive i = true) :
    ∃ x ∈ c.exitGang.groups, x.slices.getLsbD i = true ∧ x.pc = c.pc + 4 ∧ x.park = none := by
  have bit : (c.slices &&& c.passedExit.live).getLsbD i = true := by
    rw [BitVec.getLsbD_and, hm, Gang.getLsbD_live _ hi, hl]
    rfl
  have some_live : c.slices &&& c.passedExit.live ≠ 0 := by
    intro h0
    rw [h0] at bit
    exact Bool.false_ne_true (BitVec.getLsbD_zero.symm.trans bit)
  refine ⟨{ c.passed with slices := c.slices &&& c.passedExit.live }, ?_, bit, rfl, rfl⟩
  refine Gang.mem_groups_slicesDied rfl _ ?_
  rw [Gang.groups_pruneDead]
  exact Gang.mem_groups_keepLive (Ctx.passed_mem h) some_live

/-! ### The statement -/

/-- The gang after an EXIT that retires some lane: ended if every lane has exited, else as EXIT made it (R31). -/
theorem Ctx.gang?_exit (c : Ctx) : ∃ g', ((c.s.putGang c.id c.exitGang).endGangIfDone c.id).gang? c.id = some g' ∧
    g'.exited = c.retired.exited ∧ g'.emask = c.retired.emask ∧ (c.endsGang = true → g'.ended = true) ∧
    (c.endsGang = false → g' = c.exitGang) := by
  have stands := State.gang?_putGang_same c.s c.id c.exitGang
  have ends : c.exitGang.live = 0 ↔ c.endsGang = true := by
    rw [Gang.live_eq_zero_iff, Ctx.exited_exitGang, Ctx.endsGang_iff]
  by_cases h : c.exitGang.live = 0
  · obtain ⟨g', hg, hx, hm, he⟩ := State.gang?_endGangIfDone_of_dead stands h
    exact ⟨g', hg, hx.trans c.exited_exitGang, hm.trans c.emask_exitGang, fun _ => he, fun hn => by simp [ends.1 h] at hn⟩
  · rw [State.endGangIfDone_of_live stands h]
    exact ⟨_, stands, c.exited_exitGang, c.emask_exitGang, fun hy => absurd (ends.2 hy) h, fun _ => rfl⟩

/-- Settles O20: the mask words by what a change of emask leaves, MSAVE by a register written at once, EXIT by the gang that
it makes and by that gang's end. -/
theorem masksTouchTheirSlicesAndExitRetires : Obligations.MasksTouchTheirSlicesAndExitRetires := by
  unfold Obligations.MasksTouchTheirSlicesAndExitRetires
  refine ⟨fun s c p a d hs => ?_, fun s c hs hazard posted => ?_⟩
  · refine ⟨fun stop => ⟨?mand, ?mandn⟩, fun ha stop => ?mrestore, fun ha => ?mrestoreBad,
      fun hd stop => ?msave, fun hd => ?msaveBad⟩
    case mand => exact gives_run (withIssue_some hs _) stop (c.went_setEmask _)
    case mandn => exact gives_run (withIssue_some hs _) stop (c.went_setEmask _)
    case mrestore => exact gives_run (exec_mrestore hs a) (orElse_none.2 ⟨check_none.2 ha, stop⟩) (c.went_setEmask _)
    case mrestoreBad => exact (exec_mrestore hs a).trans (c.run_badOperand ha _ _)
    case msave => exact gives_run (exec_msave hs d) (orElse_none.2 ⟨check_none.2 hd, stop⟩) (c.wroteAt_writeNow _ _)
    case msaveBad => exact (exec_msave hs d).trans (c.run_badOperand hd _ _)
  · have stop := Ctx.exitStop_none hazard posted
    refine ⟨fun noTaker _ => gives_run (exec_exit hs) stop ?_, fun taker => gives_run (exec_exit hs) stop ?_⟩
    · rw [if_pos (Ctx.takers_isEmpty_iff.2 noTaker)]
      exact c.wrote_skip
    · have nonempty : ¬ c.takers.isEmpty = true := by
        obtain ⟨l, hl, ht⟩ := taker
        exact fun he => by simp [Ctx.takers_isEmpty_iff.1 he l hl] at ht
      obtain ⟨g', hg, hx, hm, ended, goes⟩ := c.gang?_exit
      rw [if_neg nonempty]
      refine ⟨g', hg, fun l hl => ?_, fun l hl => ?_, ended, fun hn i hi hsl hlive => ?_⟩
      · rw [hx, Ctx.retired, BitVec.getLsbD_or, getLsbD_maskOf _ hl]
      · rw [hm, Ctx.retired, BitVec.getLsbD_and, BitVec.getLsbD_not, getLsbD_maskOf _ hl, decide_eq_true hl, Bool.true_and]
      · rw [goes hn] at hlive ⊢
        refine Ctx.exitGang_goes_on (State.issuing_mem hs) hi hsl ?_
        rwa [Gang.sliceLive, c.exited_passedExit, ← c.exited_exitGang]

end Sys2Proof.Machine
end

section
/-! PROOFS. Decoding and encoding (R53 to R56, Tables 3.1 and 3.2). -/

namespace Sys2Proof

/-! ### From instructions to words -/

/-- Every instruction that has a word is read back from it: each word by its own law, a step has none. -/
theorem decode_encode (i : Instr) : Laws.Encoding.Statement i := by
  cases i with
  | nop => exact Laws.Encoding.nop
  | mode => exact Laws.Encoding.mode _
  | braAny => exact Laws.Encoding.braAny _
  | braAll => exact Laws.Encoding.braAll _
  | braz => exact Laws.Encoding.braz _
  | brx => exact Laws.Encoding.brx _
  | call => exact Laws.Encoding.call _
  | ret => exact Laws.Encoding.ret
  | exit => exact Laws.Encoding.exit
  | regang => exact Laws.Encoding.regang _
  | yield => exact Laws.Encoding.yield
  | mand => exact Laws.Encoding.mand _
  | mrestore => exact Laws.Encoding.mrestore _
  | msave => exact Laws.Encoding.msave _
  | mandn => exact Laws.Encoding.mandn _
  | brk => exact Laws.Encoding.brk _
  | add => exact Laws.Encoding.add _ _ _
  | sub => exact Laws.Encoding.sub _ _ _
  | mul => exact Laws.Encoding.mul _ _ _
  | mulh => exact Laws.Encoding.mulh _ _ _
  | mad => exact Laws.Encoding.mad _ _ _
  | absd => exact Laws.Encoding.absd _ _ _
  | min => exact Laws.Encoding.min _ _ _
  | max => exact Laws.Encoding.max _ _ _
  | and => exact Laws.Encoding.and _ _ _
  | or => exact Laws.Encoding.or _ _ _
  | xor => exact Laws.Encoding.xor _ _ _
  | andn => exact Laws.Encoding.andn _ _ _
  | shl => exact Laws.Encoding.shl _ _ _
  | shr => exact Laws.Encoding.shr _ _ _
  | sar => exact Laws.Encoding.sar _ _ _
  | rotl => exact Laws.Encoding.rotl _ _ _
  | addi => exact Laws.Encoding.addi _ _ _
  | shli => exact Laws.Encoding.shli _ _ _
  | shri => exact Laws.Encoding.shri _ _ _
  | sari => exact Laws.Encoding.sari _ _ _
  | andi => exact Laws.Encoding.andi _ _ _
  | ori => exact Laws.Encoding.ori _ _ _
  | li => exact Laws.Encoding.li _ _
  | lih => exact Laws.Encoding.lih _ _
  | clz => exact Laws.Encoding.clz _ _
  | popc => exact Laws.Encoding.popc _ _
  | brev => exact Laws.Encoding.brev _ _
  | bfe => exact Laws.Encoding.bfe _ _ _
  | bfi => exact Laws.Encoding.bfi _ _ _
  | mov => exact Laws.Encoding.mov _ _
  | neg => exact Laws.Encoding.neg _ _
  | abs => exact Laws.Encoding.abs _ _
  | cmpEq => exact Laws.Encoding.cmpEq _ _ _
  | cmpNe => exact Laws.Encoding.cmpNe _ _ _
  | cmpLt => exact Laws.Encoding.cmpLt _ _ _
  | cmpLe => exact Laws.Encoding.cmpLe _ _ _
  | cmpGt => exact Laws.Encoding.cmpGt _ _ _
  | cmpGe => exact Laws.Encoding.cmpGe _ _ _
  | cmpUn => exact Laws.Encoding.cmpUn _ _ _
  | cmpi => exact Laws.Encoding.cmpi _ _ _ _
  | pand => exact Laws.Encoding.pand _ _ _
  | por => exact Laws.Encoding.por _ _ _
  | pxor => exact Laws.Encoding.pxor _ _ _
  | pnot => exact Laws.Encoding.pnot _ _
  | pmov => exact Laws.Encoding.pmov _ _
  | pset => exact Laws.Encoding.pset _ _
  | vote => exact Laws.Encoding.vote _ _ _
  | pfrom => exact Laws.Encoding.pfrom _ _
  | fadd => exact Laws.Encoding.fadd _ _ _
  | fsub => exact Laws.Encoding.fsub _ _ _
  | fmul => exact Laws.Encoding.fmul _ _ _
  | fma => exact Laws.Encoding.fma _ _ _
  | fms => exact Laws.Encoding.fms _ _ _
  | fmin => exact Laws.Encoding.fmin _ _ _
  | fmax => exact Laws.Encoding.fmax _ _ _
  | fminnm => exact Laws.Encoding.fminnm _ _ _
  | fmaxnm => exact Laws.Encoding.fmaxnm _ _ _
  | fabs => exact Laws.Encoding.fabs _ _
  | fneg => exact Laws.Encoding.fneg _ _
  | frcp => exact Laws.Encoding.frcp _ _
  | frsq => exact Laws.Encoding.frsq _ _
  | fsqrt => exact Laws.Encoding.fsqrt _ _
  | fdiv => exact Laws.Encoding.fdiv _ _ _
  | fexp2 => exact Laws.Encoding.fexp2 _ _
  | flog2 => exact Laws.Encoding.flog2 _ _
  | fsin => exact Laws.Encoding.fsin _ _
  | fcos => exact Laws.Encoding.fcos _ _
  | fscale => exact Laws.Encoding.fscale _ _ _
  | frnd => exact Laws.Encoding.frnd _ _
  | fclass => exact Laws.Encoding.fclass _ _
  | ftanh => exact Laws.Encoding.ftanh _ _
  | fsigm => exact Laws.Encoding.fsigm _ _
  | cvt => exact Laws.Encoding.cvt _ _ _
  | cvtb => exact Laws.Encoding.cvtb _ _ _
  | pack => exact Laws.Encoding.pack _ _ _
  | unpack => exact Laws.Encoding.unpack _ _ _
  | dot2 => exact Laws.Encoding.dot2 _ _ _
  | dot4 => exact Laws.Encoding.dot4 _ _ _
  | fcmpx => exact Laws.Encoding.fcmpx _ _ _
  | perm => exact Laws.Encoding.perm _ _ _
  | shflXor => exact Laws.Encoding.shflXor _ _ _
  | shflUp => exact Laws.Encoding.shflUp _ _ _
  | shflDown => exact Laws.Encoding.shflDown _ _ _
  | gred => exact Laws.Encoding.gred _ _ _
  | gscan => exact Laws.Encoding.gscan _ _ _
  | bcast => exact Laws.Encoding.bcast _ _ _
  | ld => exact Laws.Encoding.ld _ _ _
  | st => exact Laws.Encoding.st _ _ _
  | ldv => exact Laws.Encoding.ldv _ _ _
  | stv => exact Laws.Encoding.stv _ _ _
  | lr => exact Laws.Encoding.lr _ _ _
  | sc => exact Laws.Encoding.sc _ _ _
  | atomAdd => exact Laws.Encoding.atomAdd _ _ _
  | atomMin => exact Laws.Encoding.atomMin _ _ _
  | atomMax => exact Laws.Encoding.atomMax _ _ _
  | atomAnd => exact Laws.Encoding.atomAnd _ _ _
  | atomOr => exact Laws.Encoding.atomOr _ _ _
  | atomXor => exact Laws.Encoding.atomXor _ _ _
  | atomExch => exact Laws.Encoding.atomExch _ _ _
  | atomCas => exact Laws.Encoding.atomCas _ _ _
  | atomFadd => exact Laws.Encoding.atomFadd _ _ _
  | fence => exact Laws.Encoding.fence _
  | ldt => exact Laws.Encoding.ldt _ _ _
  | tagset => exact Laws.Encoding.tagset _ _ _
  | taginv => exact Laws.Encoding.taginv _
  | ldvs => exact Laws.Encoding.ldvs _ _ _
  | stvs => exact Laws.Encoding.stvs _ _ _
  | ldp => exact Laws.Encoding.ldp _ _ _
  | stp => exact Laws.Encoding.stp _ _ _
  | fget => exact Laws.Encoding.fget _ _
  | fput => exact Laws.Encoding.fput _ _
  | fcopy => exact Laws.Encoding.fcopy _ _
  | fred => exact Laws.Encoding.fred _ _
  | ffill => exact Laws.Encoding.ffill _ _
  | fwalk => exact Laws.Encoding.fwalk _ _
  | frule => exact Laws.Encoding.frule _ _
  | fmcast => exact Laws.Encoding.fmcast _ _
  | mcrecv => exact Laws.Encoding.mcrecv _ _
  | tagwaitAny => exact Laws.Encoding.tagwaitAny _
  | tagwaitAll => exact Laws.Encoding.tagwaitAll _
  | tagff => exact Laws.Encoding.tagff _ _
  | tagrel => exact Laws.Encoding.tagrel _
  | chunkt => exact Laws.Encoding.chunkt _ _ _
  | winset => exact Laws.Encoding.winset _ _
  | fstat => exact Laws.Encoding.fstat _ _ _
  | rld => exact Laws.Encoding.rld _ _ _
  | rst => exact Laws.Encoding.rst _ _ _
  | ratomAdd => exact Laws.Encoding.ratomAdd _ _ _
  | ratomCas => exact Laws.Encoding.ratomCas _ _ _
  | ratomFadd => exact Laws.Encoding.ratomFadd _ _ _
  | rfence => exact Laws.Encoding.rfence _
  | coll => exact Laws.Encoding.coll _ _
  | collq => exact Laws.Encoding.collq _ _
  | qsend => exact Laws.Encoding.qsend _ _
  | qstat => exact Laws.Encoding.qstat _ _
  | cslot => exact Laws.Encoding.cslot _
  | mclaim => exact Laws.Encoding.mclaim _
  | mrel => exact Laws.Encoding.mrel _
  | mload => exact Laws.Encoding.mload _ _ _
  | mma => exact Laws.Encoding.mma _ _
  | mmag => exact Laws.Encoding.mmag _ _
  | mzero => exact Laws.Encoding.mzero _
  | mrd => exact Laws.Encoding.mrd _ _ _
  | mwr => exact Laws.Encoding.mwr _ _ _
  | mrowscl => exact Laws.Encoding.mrowscl _ _ _
  | mcvt => exact Laws.Encoding.mcvt _ _ _
  | mdrain => exact Laws.Encoding.mdrain _ _ _
  | mfill => exact Laws.Encoding.mfill _ _ _
  | mstat => exact Laws.Encoding.mstat _ _
  | mrowred => exact Laws.Encoding.mrowred _ _ _
  | barinit => exact Laws.Encoding.barinit _ _ _
  | bararr => exact Laws.Encoding.bararr _ _
  | barwait => exact Laws.Encoding.barwait _ _
  | bartest => exact Laws.Encoding.bartest _ _
  | barbytes => exact Laws.Encoding.barbytes _ _
  | wany => exact Laws.Encoding.wany _ _ _
  | evmask => exact Laws.Encoding.evmask _
  | evclr => exact Laws.Encoding.evclr _
  | evget => exact Laws.Encoding.evget _
  | mbsend => exact Laws.Encoding.mbsend _ _ _
  | mbrecv => exact Laws.Encoding.mbrecv _ _
  | kinc => exact Laws.Encoding.kinc _
  | kwaitle => exact Laws.Encoding.kwaitle _ _
  | krd => exact Laws.Encoding.krd _ _
  | deadl => exact Laws.Encoding.deadl _
  | workget => exact Laws.Encoding.workget _
  | launch => exact Laws.Encoding.launch _
  | cancel => exact Laws.Encoding.cancel _ _
  | cntrd => exact Laws.Encoding.cntrd _ _ _
  | sysrd => exact Laws.Encoding.sysrd _ _
  | syswr => exact Laws.Encoding.syswr _ _
  | trap => exact Laws.Encoding.trap _
  | tret => exact Laws.Encoding.tret
  | tsave => exact Laws.Encoding.tsave _
  | tload => exact Laws.Encoding.tload _
  | acrrd => exact Laws.Encoding.acrrd _
  | acrwr => exact Laws.Encoding.acrwr _
  | halt => exact Laws.Encoding.halt
  | ctxsv => exact Laws.Encoding.ctxsv _
  | tlbinv => exact Laws.Encoding.tlbinv _
  | _ => exact fun _ _ h => nomatch h

/-! ### From words to instructions -/

/-- r is what the decoder may answer for opcode op and fields d, a and b: an instruction only if it is well formed and its
word has this opcode and these fields, and ILLEGAL_OPCODE just when no row of the opcode map is named. -/
def Decodes (op d a b : BitVec 8) (r : Except DecodeError Instr) : Prop :=
  (∀ i, r = .ok i → encode i = some (word op d a b) ∧ i.wellFormed = true) ∧
  (r = .error .illegalOpcode ↔ Code.unassigned op.toNat = true)

section
variable {op d a b : BitVec 8}

theorem unassigned_decodes (h : Code.unassigned op.toNat = true) : Decodes op d a b (.error .illegalOpcode) :=
  ⟨nofun, fun _ => h, fun _ => rfl⟩

theorem ok_decodes {i : Instr} (assigned : Code.unassigned op.toNat = false) (hw : encode i = some (word op d a b))
    (hf : i.wellFormed = true) : Decodes op d a b (.ok i) :=
  ⟨fun _ h => Except.ok.inj h ▸ ⟨hw, hf⟩, nofun, fun h => absurd (h.symm.trans assigned) (by decide)⟩

/-- Each form of Table 3.2 judges the reserved fields, and the code if there is one, and else traps ILLEGAL_ENCODING. -/
theorem ite_decodes {P : Prop} [Decidable P] {i : Instr} (assigned : Code.unassigned op.toNat = false)
    (h : P → encode i = some (word op d a b) ∧ i.wellFormed = true) :
    Decodes op d a b (if P then .ok i else .error .illegalEncoding) := by
  split
  · next hp => exact ok_decodes assigned (h hp).1 (h hp).2
  · exact ⟨nofun, nofun, fun h => absurd (h.symm.trans assigned) (by decide)⟩

/-! The fields of a word that has an immediate or a predicate in them. -/

theorem word24_append (op d a b : BitVec 8) : word24 op (d ++ a ++ b) = word op d a b := by
  apply BitVec.eq_of_getLsbD_eq
  intro k hk
  simp only [word24, word, BitVec.getLsbD_append]
  split_ifs <;> first | rfl | omega

theorem word16_append (op d a b : BitVec 8) : word16 op d (a ++ b) = word op d a b := by
  apply BitVec.eq_of_getLsbD_eq
  intro k hk
  simp only [word16, word, BitVec.getLsbD_append]
  split_ifs <;> first | rfl | omega

theorem pred_field_of_lt {x : BitVec 8} (h : x.toNat < 64) : (x.setWidth 6).setWidth 8 = x := by
  apply BitVec.eq_of_toNat_eq
  simp only [BitVec.toNat_setWidth]
  omega

theorem cond_append (d : BitVec 8) : d.extractLsb' 6 2 ++ d.setWidth 6 = d := by
  apply BitVec.eq_of_getLsbD_eq
  intro k hk
  simp only [BitVec.getLsbD_append, BitVec.getLsbD_extractLsb', BitVec.getLsbD_setWidth]
  split
  · next h => simp [h]
  · next h => simp [show k - 6 < 2 by omega, show 6 + (k - 6) = k by omega]

/-! The forms. -/

theorem okImm24_decodes {f : BitVec 24 → Instr} (assigned : Code.unassigned op.toNat = false)
    (hw : encode (f (d ++ a ++ b)) = some (word24 op (d ++ a ++ b))) (hf : (f (d ++ a ++ b)).wellFormed = true) :
    Decodes op d a b (.ok (f (d ++ a ++ b))) :=
  ok_decodes assigned (hw.trans (congrArg some (word24_append op d a b))) hf

theorem okImm16_decodes {f : BitVec 16 → Instr} (assigned : Code.unassigned op.toNat = false)
    (hw : encode (f (a ++ b)) = some (word16 op d (a ++ b))) (hf : (f (a ++ b)).wellFormed = true) :
    Decodes op d a b (.ok (f (a ++ b))) :=
  ok_decodes assigned (hw.trans (congrArg some (word16_append op d a b))) hf

theorem okCmpi_decodes : Decodes 0x37 d a b (.ok (.cmpi (d.extractLsb' 6 2) (d.setWidth 6) a b)) :=
  ok_decodes rfl (congrArg (fun x => some (word 0x37 x a b)) (cond_append d)) rfl

variable (assigned : Code.unassigned op.toNat = false)
include assigned

theorem formZ_decodes {i : Instr} (h : encode i = some (word op 0 0 0) ∧ i.wellFormed = true) :
    Decodes op d a b (formZ i d a b) :=
  ite_decodes assigned (by rintro ⟨rfl, rfl, rfl⟩; exact h)

theorem formA_decodes {f : BitVec 8 → Instr} (h : ∀ a, encode (f a) = some (word op 0 a 0) ∧ (f a).wellFormed = true) :
    Decodes op d a b (formA f d a b) :=
  ite_decodes assigned (by rintro ⟨rfl, rfl⟩; exact h a)

theorem formD_decodes {f : BitVec 8 → Instr} (h : ∀ d, encode (f d) = some (word op d 0 0) ∧ (f d).wellFormed = true) :
    Decodes op d a b (formD f d a b) :=
  ite_decodes assigned (by rintro ⟨rfl, rfl⟩; exact h d)

theorem formP_decodes {f : BitVec 6 → Instr}
    (h : ∀ p : BitVec 6, encode (f p) = some (word op 0 (p.setWidth 8) 0) ∧ (f p).wellFormed = true) :
    Decodes op d a b (formP f d a b) :=
  ite_decodes assigned (by rintro ⟨rfl, rfl, ha⟩; simpa only [pred_field_of_lt ha] using h (a.setWidth 6))

theorem formI_decodes {f : BitVec 16 → Instr} (h : ∀ i, encode (f i) = some (word16 op 0 i) ∧ (f i).wellFormed = true) :
    Decodes op d a b (formI f d a b) :=
  ite_decodes assigned (by rintro rfl; simpa only [word16_append] using h (a ++ b))

theorem formDA_decodes {f : BitVec 8 → BitVec 8 → Instr}
    (h : ∀ d a, encode (f d a) = some (word op d a 0) ∧ (f d a).wellFormed = true) : Decodes op d a b (formDA f d a b) :=
  ite_decodes assigned (by rintro rfl; exact h d a)

theorem formAB_decodes {f : BitVec 8 → BitVec 8 → Instr}
    (h : ∀ a b, encode (f a b) = some (word op 0 a b) ∧ (f a b).wellFormed = true) : Decodes op d a b (formAB f d a b) :=
  ite_decodes assigned (by rintro rfl; exact h a b)

theorem formPAB_decodes {f : BitVec 6 → BitVec 8 → BitVec 8 → Instr}
    (h : ∀ (p : BitVec 6) a b, encode (f p a b) = some (word op (p.setWidth 8) a b) ∧ (f p a b).wellFormed = true) :
    Decodes op d a b (formPAB f d a b) :=
  ite_decodes assigned (fun hd => by simpa only [pred_field_of_lt hd] using h (d.setWidth 6) a b)

theorem formPPP_decodes {f : BitVec 6 → BitVec 6 → BitVec 6 → Instr}
    (h : ∀ p q r : BitVec 6, encode (f p q r) = some (word op (p.setWidth 8) (q.setWidth 8) (r.setWidth 8)) ∧
      (f p q r).wellFormed = true) : Decodes op d a b (formPPP f d a b) :=
  ite_decodes assigned (fun ⟨hd, ha, hb⟩ => by
    simpa only [pred_field_of_lt hd, pred_field_of_lt ha, pred_field_of_lt hb] using
      h (d.setWidth 6) (a.setWidth 6) (b.setWidth 6))

theorem formPP_decodes {f : BitVec 6 → BitVec 6 → Instr}
    (h : ∀ p q : BitVec 6, encode (f p q) = some (word op (p.setWidth 8) (q.setWidth 8) 0) ∧ (f p q).wellFormed = true) :
    Decodes op d a b (formPP f d a b) :=
  ite_decodes assigned (by
    rintro ⟨hd, ha, rfl⟩
    simpa only [pred_field_of_lt hd, pred_field_of_lt ha] using h (d.setWidth 6) (a.setWidth 6))

theorem formPA_decodes {f : BitVec 6 → BitVec 8 → Instr}
    (h : ∀ (p : BitVec 6) a, encode (f p a) = some (word op (p.setWidth 8) a 0) ∧ (f p a).wellFormed = true) :
    Decodes op d a b (formPA f d a b) :=
  ite_decodes assigned (by rintro ⟨hd, rfl⟩; simpa only [pred_field_of_lt hd] using h (d.setWidth 6) a)

theorem formPC_decodes {f : BitVec 6 → BitVec 8 → Instr} {ok : BitVec 8 → Bool}
    (h : ∀ (p : BitVec 6) b, ok b = true → encode (f p b) = some (word op (p.setWidth 8) 0 b) ∧ (f p b).wellFormed = true) :
    Decodes op d a b (formPC f ok d a b) :=
  ite_decodes assigned (by rintro ⟨hd, rfl, hb⟩; simpa only [pred_field_of_lt hd] using h (d.setWidth 6) b hb)

theorem formDPC_decodes {f : BitVec 8 → BitVec 6 → BitVec 8 → Instr} {ok : BitVec 8 → Bool}
    (h : ∀ d (p : BitVec 6) b, ok b = true → encode (f d p b) = some (word op d (p.setWidth 8) b) ∧
      (f d p b).wellFormed = true) : Decodes op d a b (formDPC f ok d a b) :=
  ite_decodes assigned (fun ⟨ha, hb⟩ => by simpa only [pred_field_of_lt ha] using h d (a.setWidth 6) b hb)

theorem formDAC_decodes {f : BitVec 8 → BitVec 8 → BitVec 8 → Instr} {ok : BitVec 8 → Bool}
    (h : ∀ d a b, ok b = true → encode (f d a b) = some (word op d a b) ∧ (f d a b).wellFormed = true) :
    Decodes op d a b (formDAC f ok d a b) :=
  ite_decodes assigned (h d a b)

theorem formAC_decodes {f : BitVec 8 → BitVec 8 → Instr} {ok : BitVec 8 → Bool}
    (h : ∀ a b, ok b = true → encode (f a b) = some (word op 0 a b) ∧ (f a b).wellFormed = true) :
    Decodes op d a b (formAC f ok d a b) :=
  ite_decodes assigned (by rintro ⟨rfl, hb⟩; exact h a b hb)

theorem formC_decodes {f : BitVec 8 → Instr} {ok : BitVec 8 → Bool}
    (h : ∀ b, ok b = true → encode (f b) = some (word op 0 0 b) ∧ (f b).wellFormed = true) :
    Decodes op d a b (formC f ok d a b) :=
  ite_decodes assigned (by rintro ⟨rfl, rfl, hb⟩; exact h b hb)

end

/-! The rows of Table 3.1. -/

theorem decodeRow0_decodes (d a b : BitVec 8) :
    ∀ lo < 16, Decodes (BitVec.ofNat 8 (16 * 0 + lo)) d a b (decodeRow0 lo d a b)
  | 0, _ | 7, _ | 8, _ | 10, _ => formZ_decodes rfl ⟨rfl, rfl⟩
  | 1, _ | 2, _ | 3, _ | 4, _ | 6, _ => okImm24_decodes rfl rfl rfl
  | 5, _ | 9, _ | 12, _ => formA_decodes rfl (fun _ => ⟨rfl, rfl⟩)
  | 11, _ | 14, _ => formP_decodes rfl (fun _ => ⟨rfl, rfl⟩)
  | 13, _ => formD_decodes rfl (fun _ => ⟨rfl, rfl⟩)
  | 15, _ => formI_decodes rfl (fun _ => ⟨rfl, rfl⟩)
  | n + 16, h => absurd h (by omega)

theorem decodeRow1_decodes (d a b : BitVec 8) :
    ∀ lo < 16, Decodes (BitVec.ofNat 8 (16 * 1 + lo)) d a b (decodeRow1 lo d a b)
  | 0, _ | 1, _ | 2, _ | 3, _ | 4, _ | 5, _ | 6, _ | 7, _
  | 8, _ | 9, _ | 10, _ | 11, _ | 12, _ | 13, _ | 14, _ | 15, _ => ok_decodes rfl rfl rfl
  | n + 16, h => absurd h (by omega)

theorem decodeRow2_decodes (d a b : BitVec 8) :
    ∀ lo < 16, Decodes (BitVec.ofNat 8 (16 * 2 + lo)) d a b (decodeRow2 lo d a b)
  | 0, _ | 1, _ | 2, _ | 3, _ | 4, _ | 5, _ | 11, _ | 12, _ => ok_decodes rfl rfl rfl
  | 6, _ | 7, _ => okImm16_decodes rfl rfl rfl
  | 8, _ | 9, _ | 10, _ | 13, _ | 14, _ | 15, _ => formDA_decodes rfl (fun _ _ => ⟨rfl, rfl⟩)
  | n + 16, h => absurd h (by omega)

theorem decodeRow3_decodes (d a b : BitVec 8) :
    ∀ lo < 16, Decodes (BitVec.ofNat 8 (16 * 3 + lo)) d a b (decodeRow3 lo d a b)
  | 0, _ | 1, _ | 2, _ | 3, _ | 4, _ | 5, _ | 6, _ => formPAB_decodes rfl (fun _ _ _ => ⟨rfl, rfl⟩)
  | 7, _ => okCmpi_decodes
  | 8, _ | 9, _ | 10, _ => formPPP_decodes rfl (fun _ _ _ => ⟨rfl, rfl⟩)
  | 11, _ | 12, _ => formPP_decodes rfl (fun _ _ => ⟨rfl, rfl⟩)
  | 13, _ => formPC_decodes rfl (fun _ _ h => ⟨rfl, h⟩)
  | 14, _ => formDPC_decodes rfl (fun _ _ _ h => ⟨rfl, h⟩)
  | 15, _ => formPA_decodes rfl (fun _ _ => ⟨rfl, rfl⟩)
  | n + 16, h => absurd h (by omega)

theorem decodeRow4_decodes (d a b : BitVec 8) :
    ∀ lo < 16, Decodes (BitVec.ofNat 8 (16 * 4 + lo)) d a b (decodeRow4 lo d a b)
  | 0, _ | 1, _ | 2, _ | 3, _ | 4, _ | 5, _ | 6, _ | 7, _ | 8, _ | 14, _ => ok_decodes rfl rfl rfl
  | 9, _ | 10, _ | 11, _ | 12, _ | 13, _ | 15, _ => formDA_decodes rfl (fun _ _ => ⟨rfl, rfl⟩)
  | n + 16, h => absurd h (by omega)

theorem decodeRow5_decodes (d a b : BitVec 8) :
    ∀ lo < 16, Decodes (BitVec.ofNat 8 (16 * 5 + lo)) d a b (decodeRow5 lo d a b)
  | 0, _ | 1, _ | 2, _ | 4, _ | 5, _ | 6, _ | 7, _ => formDA_decodes rfl (fun _ _ => ⟨rfl, rfl⟩)
  | 3, _ | 9, _ | 10, _ | 12, _ | 13, _ | 14, _ => ok_decodes rfl rfl rfl
  | 8, _ | 11, _ => formDAC_decodes rfl (fun _ _ _ h => ⟨rfl, h⟩)
  | 15, _ => unassigned_decodes rfl
  | n + 16, h => absurd h (by omega)

theorem decodeRow6_decodes (d a b : BitVec 8) :
    ∀ lo < 16, Decodes (BitVec.ofNat 8 (16 * 6 + lo)) d a b (decodeRow6 lo d a b)
  | 0, _ | 1, _ | 2, _ | 3, _ | 6, _ | 8, _ | 9, _ | 10, _ | 11, _ | 12, _ | 13, _ | 14, _ | 15, _ => ok_decodes rfl rfl rfl
  | 4, _ | 5, _ => formDAC_decodes rfl (fun _ _ _ h => ⟨rfl, h⟩)
  | 7, _ => unassigned_decodes rfl
  | n + 16, h => absurd h (by omega)

theorem decodeRow7_decodes (d a b : BitVec 8) :
    ∀ lo < 16, Decodes (BitVec.ofNat 8 (16 * 7 + lo)) d a b (decodeRow7 lo d a b)
  | 0, _ | 1, _ | 2, _ | 3, _ | 4, _ | 5, _ | 6, _ | 8, _ | 9, _ | 11, _ | 12, _ | 13, _ | 14, _ => ok_decodes rfl rfl rfl
  | 7, _ => formC_decodes rfl (fun _ h => ⟨rfl, h⟩)
  | 10, _ => formA_decodes rfl (fun _ => ⟨rfl, rfl⟩)
  | 15, _ => unassigned_decodes rfl
  | n + 16, h => absurd h (by omega)

theorem decodeRow8_decodes (d a b : BitVec 8) :
    ∀ lo < 16, Decodes (BitVec.ofNat 8 (16 * 8 + lo)) d a b (decodeRow8 lo d a b)
  | 0, _ | 1, _ | 2, _ | 3, _ | 4, _ | 5, _ | 6, _ | 7, _ | 8, _ | 14, _ => formAB_decodes rfl (fun _ _ => ⟨rfl, rfl⟩)
  | 9, _ | 10, _ | 12, _ => formA_decodes rfl (fun _ => ⟨rfl, rfl⟩)
  | 11, _ => formDA_decodes rfl (fun _ _ => ⟨rfl, rfl⟩)
  | 13, _ => ok_decodes rfl rfl rfl
  | 15, _ => formDAC_decodes rfl (fun _ _ _ h => ⟨rfl, h⟩)
  | n + 16, h => absurd h (by omega)

theorem decodeRow9_decodes (d a b : BitVec 8) :
    ∀ lo < 16, Decodes (BitVec.ofNat 8 (16 * 9 + lo)) d a b (decodeRow9 lo d a b)
  | 0, _ | 1, _ | 2, _ | 3, _ | 4, _ => ok_decodes rfl rfl rfl
  | 5, _ => formC_decodes rfl (fun _ h => ⟨rfl, h⟩)
  | 6, _ | 8, _ => formAB_decodes rfl (fun _ _ => ⟨rfl, rfl⟩)
  | 7, _ | 9, _ => formDA_decodes rfl (fun _ _ => ⟨rfl, rfl⟩)
  | 10, _ => formD_decodes rfl (fun _ => ⟨rfl, rfl⟩)
  | 11, _ | 12, _ | 13, _ | 14, _ | 15, _ => unassigned_decodes rfl
  | n + 16, h => absurd h (by omega)

theorem decodeRowA_decodes (d a b : BitVec 8) :
    ∀ lo < 16, Decodes (BitVec.ofNat 8 (16 * 10 + lo)) d a b (decodeRowA lo d a b)
  | 0, _ | 1, _ | 5, _ => formA_decodes rfl (fun _ => ⟨rfl, rfl⟩)
  | 2, _ | 6, _ | 7, _ | 11, _ => ok_decodes rfl rfl rfl
  | 3, _ | 4, _ => formAB_decodes rfl (fun _ _ => ⟨rfl, rfl⟩)
  | 8, _ | 9, _ | 10, _ | 13, _ => formDAC_decodes rfl (fun _ _ _ h => ⟨rfl, h⟩)
  | 12, _ => formDA_decodes rfl (fun _ _ => ⟨rfl, rfl⟩)
  | 14, _ | 15, _ => unassigned_decodes rfl
  | n + 16, h => absurd h (by omega)

theorem decodeRowB_decodes (d a b : BitVec 8) :
    ∀ lo < 16, Decodes (BitVec.ofNat 8 (16 * 11 + lo)) d a b (decodeRowB lo d a b)
  | 0, _ | 5, _ | 9, _ => ok_decodes rfl rfl rfl
  | 1, _ | 2, _ | 3, _ | 4, _ | 10, _ | 12, _ | 13, _ => formDA_decodes rfl (fun _ _ => ⟨rfl, rfl⟩)
  | 6, _ | 7, _ | 14, _ | 15, _ => formA_decodes rfl (fun _ => ⟨rfl, rfl⟩)
  | 8, _ | 11, _ => formD_decodes rfl (fun _ => ⟨rfl, rfl⟩)
  | n + 16, h => absurd h (by omega)

theorem decodeRowC_decodes (d a b : BitVec 8) :
    ∀ lo < 16, Decodes (BitVec.ofNat 8 (16 * 12 + lo)) d a b (decodeRowC lo d a b)
  | 0, _ => formA_decodes rfl (fun _ => ⟨rfl, rfl⟩)
  | 1, _ => formAC_decodes rfl (fun _ _ h => ⟨rfl, h⟩)
  | 2, _ => formDAC_decodes rfl (fun _ _ _ h => ⟨rfl, h⟩)
  | 3, _ | 4, _ | 5, _ | 6, _ | 7, _ | 8, _ | 9, _ | 10, _ | 11, _ | 12, _ | 13, _ | 14, _ | 15, _ => unassigned_decodes rfl
  | n + 16, h => absurd h (by omega)

theorem decodeRowF_decodes (d a b : BitVec 8) :
    ∀ lo < 16, Decodes (BitVec.ofNat 8 (16 * 15 + lo)) d a b (decodeRowF lo d a b)
  | 0, _ | 1, _ => okImm16_decodes rfl rfl rfl
  | 2, _ => formI_decodes rfl (fun _ => ⟨rfl, rfl⟩)
  | 3, _ | 8, _ => formZ_decodes rfl ⟨rfl, rfl⟩
  | 4, _ | 5, _ | 7, _ | 9, _ | 10, _ => formA_decodes rfl (fun _ => ⟨rfl, rfl⟩)
  | 6, _ => formD_decodes rfl (fun _ => ⟨rfl, rfl⟩)
  | 11, _ | 12, _ | 13, _ | 14, _ | 15, _ => unassigned_decodes rfl
  | n + 16, h => absurd h (by omega)

/-- Every row answers as its opcodes ask; the rows D and E have none. -/
theorem decodeFields_decodes (op d a b : BitVec 8) : Decodes op d a b (decodeFields op d a b) := by
  have lo : op.toNat % 16 < 16 := Nat.mod_lt _ (by decide)
  obtain ⟨hi, hop⟩ : ∃ hi, op.toNat / 16 = hi := ⟨_, rfl⟩
  have split : op = BitVec.ofNat 8 (16 * hi + op.toNat % 16) := by
    rw [← hop, Nat.div_add_mod, BitVec.ofNat_toNat, BitVec.setWidth_eq]
  have small : hi < 16 := by omega
  rw [decodeFields, hop]
  conv in Decodes op => rw [split]
  match hi, small with
  | 0, _ => exact decodeRow0_decodes d a b _ lo
  | 1, _ => exact decodeRow1_decodes d a b _ lo
  | 2, _ => exact decodeRow2_decodes d a b _ lo
  | 3, _ => exact decodeRow3_decodes d a b _ lo
  | 4, _ => exact decodeRow4_decodes d a b _ lo
  | 5, _ => exact decodeRow5_decodes d a b _ lo
  | 6, _ => exact decodeRow6_decodes d a b _ lo
  | 7, _ => exact decodeRow7_decodes d a b _ lo
  | 8, _ => exact decodeRow8_decodes d a b _ lo
  | 9, _ => exact decodeRow9_decodes d a b _ lo
  | 10, _ => exact decodeRowA_decodes d a b _ lo
  | 11, _ => exact decodeRowB_decodes d a b _ lo
  | 12, _ => exact decodeRowC_decodes d a b _ lo
  | 13, _ | 14, _ =>
    refine unassigned_decodes ?_
    simp only [Code.unassigned, BitVec.toNat_ofNat]
    simp
    omega
  | 15, _ => exact decodeRowF_decodes d a b _ lo
  | n + 16, h => exact absurd h (by omega)

/-- A word is its four fields. -/
theorem word_fields (w : BitVec 32) :
    word (w.extractLsb' 24 8) (w.extractLsb' 16 8) (w.extractLsb' 8 8) (w.extractLsb' 0 8) = w := by
  apply BitVec.eq_of_getLsbD_eq
  intro k hk
  simp only [word, BitVec.getLsbD_append, BitVec.getLsbD_extractLsb']
  by_cases h0 : k < 8
  · simp [h0]
  by_cases h1 : k - 8 < 8
  · simp [h0, h1, show 8 + (k - 8) = k by omega]
  by_cases h2 : k - 8 - 8 < 8
  · simp [h0, h1, h2, show 16 + (k - 8 - 8) = k by omega]
  · simp [h0, h1, h2, show k - 8 - 8 - 8 < 8 by omega, show 24 + (k - 8 - 8 - 8) = k by omega]

/-! ### The statement -/

/-- Settles O4: each instruction by the law of its word, each word by the row of the opcode map that it names. -/
theorem decodeAndEncodeAgree : Obligations.DecodeAndEncodeAgree := by
  unfold Obligations.DecodeAndEncodeAgree
  refine ⟨fun i w hf hw => decode_encode i hf w hw, fun i w h => ?_, fun w => ?_⟩
  · have := (decodeFields_decodes _ _ _ _).1 i h
    rwa [word_fields] at this
  · refine (decodeFields_decodes _ _ _ _).2.trans ?_
    simp only [Code.unassigned, BitVec.extractLsb'_toNat, Nat.shiftRight_eq_div_pow, Bool.or_eq_true, Bool.and_eq_true,
      beq_iff_eq, decide_eq_true_eq]
    omega

end Sys2Proof
end

section
/-! PROOFS. Every step answers a next state (R409). -/

namespace Sys2Proof.Machine

/-- What happens of itself or from outside always answers a next state: the other steps take place if their premise holds. -/
theorem exec_next_of_not_word {i : Instr} (h : isWord i = false) (s : State) : ∃ t, exec i s = .next t := by
  cases i with
  | groupTurnSwitch | vaultWriteApply | vaultReadReply | engineOpComplete | mclaimGrant | mrelRelease | followOnMmaAccept
  | chunkLand | farRequestEnd | lintelAdmit | moduleRequestArrival | cairnReadReturn | corbelSlotFilled
  | qsendCompletionReport | teamPlace | launchBlocking | launchComplete | gangSlotRelease | cancelStop | workgetReply
  | hwPreemptTrigger | preemptNoticeExpiry | contextSave | savedTeamArrival | regangDeadlock | deadlineExpiry | trapEntry
  | clockRampComplete =>
    -- These first look for the part of the machine that they name.
    simp only [exec, execGroupTurnSwitch, execVaultWriteApply, execVaultReadReply, execEngineOpComplete, execMclaimGrant,
      execMrelRelease, execFollowOnMmaAccept, execChunkLand, execFarRequestEnd, execLintelAdmit,
      execModuleRequestArrival, execCairnReadReturn, execCorbelSlotFilled, execQsendCompletionReport, execTeamPlace,
      execLaunchBlocking, execLaunchComplete, execGangSlotRelease, execCancelStop, execWorkgetReply,
      execHwPreemptTrigger, execPreemptNoticeExpiry, execContextSave, execSavedTeamArrival, execRegangDeadlock,
      execDeadlineExpiry, execTrapEntry, execClockRampComplete]
    (repeat' split) <;> exact ⟨_, rfl⟩
  | lrHoldExpiry | forcedSelfRefresh | selfRefreshExit | rldReply | rstAck | ratomResponse | remoteOpArrival
  | collMessageArrival | qsendDataArrival | lqWrWrite | launchPacketRead | preemptRequest | hctlResume | hctlDiscard
  | singleBitError | uncorrectableError | scrub | slotMarker | guardEnd | slotWindowClose | circtlWrite | slotSetup
  | slotTdown | portSetup | portTdown | setup | ack | nak | teardown | setupTimeout | setupRetry | flitSend
  | dataFlitReceive | nakFlitReceive | widthChangeFlit | remapFlit | ackTimeout | clockRecoveryLoss | retrainComplete
  | monitorSample | laserLineLoss | channelWakeComplete | channelParkComplete | linkTgtwWrite | linkRetrain
  | chanParkWrite | pairFabreqWrite | planSpare | planRelease | planRetrain | planShare | planUnshare | laserSample
  | ageingCounterSave | partitionResourceWrite | shootdown | shootdownComplete | flushed | faultQueueAck | moduleAttest
  | attestReportReceive | moduleControllerRestart | attestReportRequest | attestReportWritten | hostBar2Access
  | powerOnReset | linkPhaseTimeout | pcieTrained | meshPortUp | opticalLightPoll | channelTrainTimeout
  | powerStateRequest | thermalSample | registerWrite | controlMeshPortDown | windowTableLoad | spareRingLock
  | channelTrainingComplete => exact ⟨_, rfl⟩
  | _ => cases h

theorem execPad_next (n : Nat) (s : State) : ∃ t, execPad n s = .next t := by
  unfold execPad
  split <;> exact ⟨_, rfl⟩

/-! ### The statement -/

theorem State.happen_next (s : State) (x : Stimulus) : ∃ t, s.happen x = .next t := by
  cases x with
  | event i =>
    cases h : isWord i with
    | true => exact ⟨s, by rw [State.happen, if_pos h]⟩
    | false =>
      obtain ⟨t, ht⟩ := exec_next_of_not_word h s
      exact ⟨t, by rw [State.happen, if_neg (by simp [h]), ht]⟩
  | pad n => exact execPad_next n s
  | tick | issues | refresh | hostReads | evict => exact ⟨_, rfl⟩

/-- Settles O6: a word executes within a cycle, which answers a next state whatever its words do; every other step of the
agenda answers one. -/
theorem everyStepAnswersANextState : Obligations.EveryStepAnswersANextState := by
  intro s
  unfold step
  split
  · exact State.happen_next _ _
  · exact ⟨_, rfl⟩

end Sys2Proof.Machine
end

section
/-! PROOFS. Integer arithmetic (R127). -/

namespace Sys2Proof.Machine

/-- A binary integer word takes the integers of its operands as they are read, of whatever width (R127). -/
theorem Ctx.gives_binInt {i : Instr} {s : State} {c : Ctx} {d a b : RegField} {f : Nat → Bool → Nat → Nat → Nat}
    {r : Nat → Nat} (he : exec i s = c.binInt d a b f)
    (stop : c.dataStop (inINT c.etype) true d (isWide c.etype) false [(a, isWide c.etype)] [(b, isWide c.etype)] = none)
    (hf : ∀ l, f c.etype c.sat (c.readA a (isWide c.etype) l % 2 ^ ebits c.etype)
      (c.readB b (isWide c.etype) l % 2 ^ ebits c.etype) = r l) :
    Gives i s (c.wrote (c.result d (isWide c.etype) (fun l => elemOut c.etype (r l)))) :=
  gives_data he stop fun l => congrArg (elemOut c.etype) (hf l)

/-- The lesser of two elements, as a pattern. -/
theorem fitElem_min (t x y : Nat) : (if elemInt t x ≤ elemInt t y then x % 2 ^ ebits t else y % 2 ^ ebits t) =
    fitElem t false (min (elemInt t x) (elemInt t y)) := by
  rw [min_def, apply_ite (fitElem t false), fitElem_elemInt, fitElem_elemInt]

/-- The greater of two elements, as a pattern. -/
theorem fitElem_max (t x y : Nat) : (if elemInt t x ≤ elemInt t y then y % 2 ^ ebits t else x % 2 ^ ebits t) =
    fitElem t false (max (elemInt t x) (elemInt t y)) := by
  rw [max_def, apply_ite (fitElem t false), fitElem_elemInt, fitElem_elemInt]

/-- Settles O9: the words read patterns of the type's width, which stand for the integers of their operands; MIN and MAX keep
a pattern, which is what its integer fits as. -/
theorem integerArithmeticResults : Obligations.IntegerArithmeticResults := by
  unfold Obligations.IntegerArithmeticResults
  intro s c d a b hs t w x y z fit
  refine ⟨fun stop => ⟨?add, ?sub, ?mul, ?mulh, ?absd, ?min, ?max⟩, fun stop => ?mad⟩
  case add => exact Ctx.gives_binInt (withIssue_some hs _) stop fun l => by rw [elemInt_mod, elemInt_mod]
  case sub => exact Ctx.gives_binInt (withIssue_some hs _) stop fun l => by rw [elemInt_mod, elemInt_mod]
  case mul => exact Ctx.gives_binInt (withIssue_some hs _) stop fun l => by rw [elemInt_mod, elemInt_mod]
  case mulh =>
    refine Ctx.gives_binInt (withIssue_some hs _) stop fun l => ?_
    rw [elemInt_mod, elemInt_mod, Nat.cast_pow, Nat.cast_ofNat]
  case absd => exact Ctx.gives_binInt (withIssue_some hs _) stop fun l => by rw [elemInt_mod, elemInt_mod, Int.natCast_natAbs]
  case min =>
    refine Ctx.gives_binInt (withIssue_some hs _) stop fun l => ?_
    rw [elemInt_mod, elemInt_mod]
    exact fitElem_min t _ _
  case max =>
    refine Ctx.gives_binInt (withIssue_some hs _) stop fun l => ?_
    rw [elemInt_mod, elemInt_mod]
    exact fitElem_max t _ _
  case mad => exact gives_data (withIssue_some hs _) stop fun _ => rfl

end Sys2Proof.Machine
end

section
/-! PROOFS. The checks of a data instruction (R62, R75, R78, R114). -/

namespace Sys2Proof.Machine

/-- No register waits exactly when no awaited result is of one of them (R75). -/
theorem Ctx.interlock_none_iff {c : Ctx} {rs : List RegRef} :
    c.interlock rs = none ↔ ∀ w ∈ c.g.awaits, ∀ r ∈ rs, r.has w.dest = false := by
  have waits : c.interlock rs = none ↔ c.waits rs = false := by
    unfold Ctx.interlock
    cases c.waits rs <;> simp
  rw [waits, Ctx.waits, List.any_eq_false]
  simp only [Gang.awaited, List.any_eq_true, not_exists, not_and, Bool.not_eq_true]
  exact ⟨fun h w hw r hr => h r hr w hw, fun h r hr w hw => h w hw r hr⟩

/-- What Plumb has found so far stays found (R78). -/
theorem foldl_none_iff {α β : Type} {f : Option β → α → Option β} {p : α → Prop}
    (step : ∀ acc a, f acc a = none ↔ acc = none ∧ p a) (l : List α) (acc : Option β) :
    l.foldl f acc = none ↔ acc = none ∧ ∀ a ∈ l, p a := by
  induction l generalizing acc with
  | nil => simp
  | cons a l ih => rw [List.foldl_cons, ih, step, List.forall_mem_cons, and_assoc]

/-- Plumb finds nothing among registers none of which is short. -/
theorem Ctx.firstShort_none_iff {c : Ctx} {kind : Nat} {rs : List RegRef} :
    c.firstShort kind rs = none ↔ ∀ r ∈ rs, c.shortOf r = 0 := by
  refine (foldl_none_iff (p := fun r => c.shortOf r = 0) (fun acc r => ?_) rs none).trans (by simp)
  by_cases h : c.shortOf r = 0
  · simp [h]
  · simp only [h, if_false, and_false, iff_false]
    split
    · split <;> simp
    · simp

theorem Ctx.plumb_none_iff {c : Ctx} {a b d guard : List RegRef} :
    c.plumb a b d guard = none ↔ (c.g.plumbEn = true → ∀ r ∈ a ++ b ++ d ++ guard, c.shortOf r = 0) := by
  unfold Ctx.plumb
  split
  · next h => simp only [h, orElse_none, Ctx.firstShort_none_iff, List.forall_mem_append, forall_const, and_assoc]
  · next h => simp [h]

theorem firstPosted_none_iff {f : Posted → Bool} {ps : List Posted} :
    firstPosted f ps = none ↔ ∀ p ∈ ps, f p = false := by
  induction ps with
  | nil => simp [firstPosted]
  | cons p ps ih =>
    rw [firstPosted, List.forall_mem_cons, ← ih]
    cases firstPosted f ps with
    | none => cases f p <;> simp
    | some q =>
      simp only [reduceCtorEq, and_false, iff_false]
      exact fun h => by split at h <;> cases h

theorem Ctx.readPosted_none_iff {c : Ctx} {rs : List RegRef} :
    c.readPosted rs = none ↔ ∀ p ∈ c.g.posted, Posted.ofRegs rs p = false := by
  unfold Ctx.readPosted
  split
  · next h => simp [List.isEmpty_iff.1 h]
  · rw [Ctx.posted, Option.map_eq_none_iff, firstPosted_none_iff]

/-- Settles O8: each check of R62 finds nothing exactly when its condition holds. -/
theorem dataChecksPassExactlyWhen : Obligations.DataChecksPassExactlyWhen := by
  unfold Obligations.DataChecksPassExactlyWhen
  intro c typeOk operandOk dWide dRead d a b ra rb rd
  have operands : (operandOk && c.dstOk d dWide && (a ++ b).all (fun x => c.srcOk x.1 x.2) &&
      !(isSreg d && (a ++ b).any (fun x => isVec x.1))) = true ↔
      operandOk = true ∧ c.dstOk d dWide = true ∧ (∀ x ∈ a ++ b, c.srcOk x.1 x.2 = true) ∧
        (isSreg d = true → ∀ x ∈ a ++ b, isVec x.1 = false) := by
    generalize a ++ b = ops
    cases isSreg d <;> simp [and_assoc]
  rw [Ctx.dataStop, orElse_none, orElse_none, check_none, check_none, operands, Ctx.hazard_none, Ctx.interlock_none_iff,
    Ctx.plumb_none_iff, Ctx.readPosted_none_iff]
  simp only [and_assoc]
  rfl

end Sys2Proof.Machine
end

section
/-! PROOFS. Immediate, unary and bit field instructions (R129 to R132). -/

namespace Sys2Proof.Machine

/-! ### Reversed bits (R131) -/

/-- The places of a pattern, counted from its other end. -/
theorem range_perm_reversed (w : Nat) : (List.range w).Perm ((List.range w).map (fun i => w - 1 - i)) := by
  have reversed : (List.range w).map (fun i => w - 1 - i) = (List.range w).reverse := by
    refine List.ext_getElem (by simp) fun i hi _ => ?_
    simp
  rw [reversed]
  exact (List.reverse_perm _).symm

/-- The reversed bits as a sum over the places that they take. -/
theorem revBits_eq (w x : Nat) :
    revBits w x = (List.range w).foldl (fun acc i => if x.testBit (w - 1 - i) then acc + 2 ^ i else acc) 0 := by
  have comm : RightCommutative (fun acc i => if x.testBit i then acc + 2 ^ (w - 1 - i) else acc) :=
    ⟨fun acc i j => by split_ifs <;> omega⟩
  rw [revBits, List.Perm.foldl_eq (range_perm_reversed w), List.foldl_map]
  refine List.foldl_ext _ _ _ fun acc i hi => ?_
  have hi := List.mem_range.1 hi
  rw [show w - 1 - (w - 1 - i) = i by omega]

theorem revBits_lt (w x : Nat) : revBits w x < 2 ^ w := by
  rw [revBits_eq]
  exact foldl_two_pow_lt _ _

theorem testBit_revBits {w x i : Nat} (h : i < w) : (revBits w x).testBit i = x.testBit (w - 1 - i) := by
  rw [revBits_eq, testBit_foldl_two_pow, decide_eq_true h, Bool.true_and]

/-- BREV reverses the pattern as a word of its width. -/
theorem revBits_eq_reverse (w x : Nat) : revBits w x = (BitVec.ofNat w x).reverse.toNat := by
  refine Nat.eq_of_testBit_eq fun i => ?_
  rw [← BitVec.getLsbD, BitVec.getLsbD_reverse, BitVec.getMsbD_eq_getLsbD, BitVec.getLsbD_ofNat]
  by_cases h : i < w
  · rw [testBit_revBits h]
    simp [h, show w - 1 - i < w by omega]
  · rw [Nat.testBit_lt_two_pow ((revBits_lt w x).trans_le (Nat.pow_le_pow_right (by decide) (Nat.not_lt.1 h)))]
    simp [h]

/-! ### Bit fields (R132) -/

/-- Bits 7 to 0 of a number (R3). -/
theorem bits_seven_zero (x : Nat) : bits x 7 0 = x % 2 ^ 8 := by
  rw [bits, pow_zero, Nat.div_one]

/-- BFE, its position and length taken from y. -/
theorem bfeBits_eq (sg : Bool) (w x y : Nat) : bfeBits sg w x (bits y 7 0) (bits y 15 8) =
    if y / 2 ^ 8 % 2 ^ 8 = 0 then 0
    else extend sg (min (y / 2 ^ 8 % 2 ^ 8) w) w
      (asInt sg w (x % 2 ^ w) / 2 ^ (y % 2 ^ 8) % 2 ^ min (y / 2 ^ 8 % 2 ^ 8) w).toNat := by
  rw [bits_seven_zero, asInt_mod]
  simp only [bfeBits, Nat.cast_pow, Nat.cast_ofNat]
  rfl

/-- BFI, its position and length taken from y, uses the low bits of its source alone. -/
theorem bfiBits_eq (w d x y : Nat) : bfiBits w d x (bits y 7 0) (bits y 15 8) =
    bfiBits w d (x % 2 ^ w) (y % 2 ^ 8) (y / 2 ^ 8 % 2 ^ 8) := by
  have field : ∀ pos len, x % 2 ^ w % 2 ^ (min (pos + len) w - pos) = x % 2 ^ (min (pos + len) w - pos) :=
    fun pos len => Nat.mod_mod_of_dvd x (Nat.pow_dvd_pow 2 (by omega))
  rw [bits_seven_zero]
  simp only [bfiBits, field]
  rfl

/-! ### The statement -/

/-- A unary or immediate integer word (R129, R131). -/
theorem Ctx.gives_unInt {i : Instr} {s : State} {c : Ctx} {d a : RegField} {f : Nat → Bool → Nat → Nat} {r : Nat → Nat}
    (he : exec i s = c.unInt d a f)
    (stop : c.dataStop (inINT c.etype) true d (isWide c.etype) false [(a, isWide c.etype)] [] = none)
    (hf : ∀ l, f c.etype c.sat (c.readA a (isWide c.etype) l % 2 ^ ebits c.etype) = r l) :
    Gives i s (c.wrote (c.result d (isWide c.etype) (fun l => elemOut c.etype (r l)))) :=
  gives_data he stop fun l => congrArg (elemOut c.etype) (hf l)

/-- Settles O11: each word is one data instruction; SARI, POPC, BREV and ABS by what their bits are, BFE and BFI on the low
bits of their source alone. -/
theorem immediateUnaryAndFieldResults : Obligations.ImmediateUnaryAndFieldResults := by
  unfold Obligations.ImmediateUnaryAndFieldResults
  refine ⟨?immediates, ?unaries⟩
  case immediates =>
    intro s c d a imm imm16 hs t w n i x
    have x_lt : ∀ l, x l < 2 ^ n := fun l => Nat.mod_lt _ (Nat.two_pow_pos n)
    refine ⟨fun stop => ⟨?addi, ?shli, ?shri, ?sari, ?andi, ?ori⟩, fun stop => ?li, fun stop => ?lih⟩
    case addi => exact Ctx.gives_unInt (withIssue_some hs _) stop fun _ => rfl
    case shli => exact Ctx.gives_unInt (withIssue_some hs _) stop fun _ => rfl
    case shri => exact Ctx.gives_unInt (withIssue_some hs _) stop fun _ => rfl
    case sari => exact Ctx.gives_unInt (withIssue_some hs _) stop fun l => sarBits_eq (x_lt l)
    case andi => exact Ctx.gives_unInt (withIssue_some hs _) stop fun _ => rfl
    case ori => exact Ctx.gives_unInt (withIssue_some hs _) stop fun _ => rfl
    case li => exact gives_data (withIssue_some hs _) stop fun _ => rfl
    case lih => exact gives_data (withIssue_some hs _) stop fun _ => rfl
  case unaries =>
    intro s c d a b hs t w n x pos len
    refine ⟨fun stop => ⟨?clz, ?popc, ?brev, ?neg, ?abs⟩, fun stop => ?mov, fun stop => ?bfe, fun stop => ?bfi⟩
    case clz => exact Ctx.gives_unInt (withIssue_some hs _) stop fun _ => rfl
    case popc => exact Ctx.gives_unInt (withIssue_some hs _) stop fun _ => List.countP_eq_length_filter.symm
    case brev => exact Ctx.gives_unInt (withIssue_some hs _) stop fun _ => revBits_eq_reverse _ _
    case neg => exact Ctx.gives_unInt (withIssue_some hs _) stop fun _ => rfl
    case abs => exact Ctx.gives_unInt (withIssue_some hs _) stop fun _ => congrArg _ (Int.natCast_natAbs _)
    case mov => exact gives_data (withIssue_some hs _) stop fun _ => rfl
    case bfe => exact gives_data (withIssue_some hs _) stop fun _ => congrArg (elemOut t) (bfeBits_eq _ _ _ _)
    case bfi => exact gives_data (withIssue_some hs _) stop fun _ => congrArg (elemOut t) (bfiBits_eq _ _ _ _)

end Sys2Proof.Machine
end

section
/-! PROOFS. Compares (R133 to R135). -/

namespace Sys2Proof.Machine

/-- Only a NaN signals. -/
theorem Val.isSnan_of_isNan_false {v : Val} (h : v.isNan = false) : v.isSnan = false := by
  cases v with
  | nan => cases h
  | num => rfl
  | inf => rfl

/-- A NaN decides a compare; it signals if it is a signalling one, and a quiet one where quiet holds (R134). -/
theorem compare_lane (u v : Val) (onVal : Val → Val → Bool) (unordered quiet : Bool) :
    (if u.isNan || v.isNan then (unordered, Flags.nvIf (u.isSnan || v.isSnan || quiet)) else (onVal u v, Flags.none)) =
    (if u.isNan || v.isNan then unordered else onVal u v,
      Flags.nvIf (u.isSnan || v.isSnan || (quiet && (u.isNan || v.isNan)))) := by
  cases h : u.isNan || v.isNan with
  | true => simp
  | false =>
    obtain ⟨hu, hv⟩ := Bool.or_eq_false_iff.1 h
    simp [Val.isSnan_of_isNan_false hu, Val.isSnan_of_isNan_false hv, Flags.nvIf]

/-- The float that an operand holds in a lane, read as r reads it. -/
def Ctx.floatAt (c : Ctx) (r : Bool → Nat → Nat) (l : Nat) : Val :=
  (fmtOf c.etype).decode (r (isWide c.etype) l % 2 ^ ebits c.etype)

/-- What a compare under a float type gives lane l. -/
def Ctx.compared (c : Ctx) (a b : RegField) (onVal : Val → Val → Bool) (unordered : Bool) (l : Nat) : Bool :=
  if (c.floatAt (c.readA a) l).isNan || (c.floatAt (c.readB b) l).isNan then unordered
  else onVal (c.floatAt (c.readA a) l) (c.floatAt (c.readB b) l)

/-- The flags that it raises in lane l. -/
def Ctx.comparedFlags (c : Ctx) (a b : RegField) (quiet : Bool) (l : Nat) : Flags :=
  Flags.nvIf ((c.floatAt (c.readA a) l).isSnan || (c.floatAt (c.readB b) l).isSnan ||
    (quiet && ((c.floatAt (c.readA a) l).isNan || (c.floatAt (c.readB b) l).isNan)))

section
variable {i : Instr} {s : State} {c : Ctx} {d : PredField} {a b : RegField} {onInt : Int → Int → Bool}
  {onVal : Val → Val → Bool} {unordered quiet : Bool} (he : exec i s = c.compare d a b onInt onVal unordered quiet)
  (stop : c.predStop (inINT c.etype || inFLT c.etype || inF8 c.etype) d [(a, isWide c.etype)] [(b, isWide c.etype)] [] [] = none)
include he stop

/-- A compare under an integer type (R133). -/
theorem Ctx.gives_compare_int (int : inINT c.etype = true) (f : Int → Int → Bool) (hf : ∀ x y, onInt x y = f x y) :
    Gives i s (c.wrote (c.predResult d (fun l =>
      f (elemInt c.etype (c.readA a (isWide c.etype) l)) (elemInt c.etype (c.readB b (isWide c.etype) l))))) := by
  refine gives_predData ?_ stop fun _ => hf _ _
  rw [he, Ctx.compare]
  simp only [int, if_true, elemInt_mod]

/-- A compare under a float type (R134). -/
theorem Ctx.gives_compare_float (float : inINT c.etype = false) :
    Gives i s (c.went c.s
      { c.g with acr := Acr.set c.g.acr (Flags.orAll (c.takers.map (c.comparedFlags a b quiet))) }
      (c.pc + 4) (c.predResult d (c.compared a b onVal unordered))) := by
  refine gives_run (c := c) (he.trans ?_) stop
    (c.went_predData d (fun l => (c.compared a b onVal unordered l, c.comparedFlags a b quiet l)))
  rw [Ctx.compare]
  simp only [float, Bool.false_eq_true, if_false, compare_lane]
  rfl

end

/-- The compares under two registers, by what each does to integers, to floats and to a NaN (R133, R134). -/
theorem exec_compares {s : State} {c : Ctx} (hs : s.issuing = some c) (d : PredField) (a b : RegField) :
    exec (.cmpEq d a b) s = c.compare d a b (fun x y => decide (x = y)) Val.eqv false false ∧
    exec (.cmpNe d a b) s = c.compare d a b (fun x y => decide (x ≠ y)) (fun u v => !Val.eqv u v) true false ∧
    exec (.cmpLt d a b) s = c.compare d a b (fun x y => decide (x < y)) Val.lt false true ∧
    exec (.cmpLe d a b) s = c.compare d a b (fun x y => decide (x ≤ y)) (fun u v => Val.lt u v || Val.eqv u v) false true ∧
    exec (.cmpGt d a b) s = c.compare d a b (fun x y => decide (y < x)) (fun u v => Val.lt v u) false true ∧
    exec (.cmpGe d a b) s = c.compare d a b (fun x y => decide (y ≤ x)) (fun u v => Val.lt v u || Val.eqv u v) false true ∧
    exec (.cmpUn d a b) s = c.compare d a b (fun _ _ => false) (fun _ _ => false) true false :=
  ⟨withIssue_some hs _, withIssue_some hs _, withIssue_some hs _, withIssue_some hs _, withIssue_some hs _,
    withIssue_some hs _, withIssue_some hs _⟩

/-- CMPI by its condition (R135). -/
theorem cmpi_cond (cond : BitVec 2) (x y : Int) :
    (match cond.toNat with
      | 0 => decide (x = y)
      | 1 => decide (x ≠ y)
      | 2 => decide (x < y)
      | _ => decide (y ≤ x)) =
    if cond = 0 then x == y else if cond = 1 then x != y else if cond = 2 then decide (x < y) else decide (x ≥ y) := by
  obtain rfl | rfl | rfl | rfl : cond = 0 ∨ cond = 1 ∨ cond = 2 ∨ cond = 3 := by
    have := cond.isLt
    rcases Nat.lt_or_ge cond.toNat 2 <;> bv_omega
  · simp [beq_eq_decide]
  · simp [bne, beq_eq_decide]
  · simp
  · simp

/-- Settles O12: one law for the compares under integer types, one under float types; CMPI by its condition. -/
theorem compareResults : Obligations.CompareResults := by
  unfold Obligations.CompareResults
  intro s c d a b imm cond hs t w x y u v nan k integers floats
  obtain ⟨eq, ne, lt, le, gt, ge, un⟩ := exec_compares hs d a b
  refine ⟨fun stop => ⟨fun int => ⟨?_, ?_, ?_, ?_, ?_, ?_, ?_⟩, fun float => ⟨?_, ?_, ?_, ?_, ?_, ?_, ?_⟩⟩, fun stop => ?cmpi⟩
  · exact Ctx.gives_compare_int eq stop int (fun i j => i == j) fun _ _ => (beq_eq_decide _ _).symm
  · exact Ctx.gives_compare_int ne stop int (fun i j => i != j) fun _ _ => by simp [bne, beq_eq_decide]
  · exact Ctx.gives_compare_int lt stop int _ fun _ _ => rfl
  · exact Ctx.gives_compare_int le stop int _ fun _ _ => rfl
  · exact Ctx.gives_compare_int gt stop int _ fun _ _ => rfl
  · exact Ctx.gives_compare_int ge stop int _ fun _ _ => rfl
  · exact Ctx.gives_compare_int un stop int _ fun _ _ => rfl
  · exact Ctx.gives_compare_float eq stop float
  · exact Ctx.gives_compare_float ne stop float
  · exact Ctx.gives_compare_float lt stop float
  · exact Ctx.gives_compare_float le stop float
  · exact Ctx.gives_compare_float gt stop float
  · exact Ctx.gives_compare_float ge stop float
  · exact Ctx.gives_compare_float un stop float
  case cmpi => exact gives_predData (withIssue_some hs _) stop fun l => cmpi_cond cond _ _

end Sys2Proof.Machine
end

section
/-! PROOFS. Lane moves (R155). -/

namespace Sys2Proof.Machine

/-- A lane move whose operands are admitted (R155). -/
theorem Ctx.gives_laneMove {i : Instr} {s : State} {c : Ctx} {bScalar : Bool} {d a b : RegField} {j : Nat → Nat → Nat}
    (he : exec i s = c.laneMove bScalar d a b j)
    (stop : c.dataStop (inANY c.etype) (isVreg d && (!bScalar || scalarOk b)) d (isWide c.etype) false
      [(a, isWide c.etype)] [(b, false)] = none) :
    Gives i s (c.wrote (c.result d (isWide c.etype) (fun l =>
      elemOut c.etype (c.fieldAt a (isWide c.etype) (j l (c.readB b false l % 32)) % 2 ^ ebits c.etype)))) :=
  gives_data he stop fun _ => rfl

/-- Settles O16: each word is a lane move from the lane that it names; all but BCAST take a vector b too. -/
theorem laneMoveResults : Obligations.LaneMoveResults := by
  unfold Obligations.LaneMoveResults
  intro s c d a b hs t w n moved
  refine ⟨fun stop => ?_, fun stop => ?bcast⟩
  · have any : c.dataStop (inANY t) (isVreg d && (!false || scalarOk b)) d w false [(a, w)] [(b, false)] = none := by
      rwa [Bool.not_false, Bool.true_or, Bool.and_true]
    refine ⟨?perm, ?xor, ?up, ?down⟩
    case perm => exact Ctx.gives_laneMove (j := fun _ n => n) (withIssue_some hs _) any
    case xor => exact Ctx.gives_laneMove (j := fun l n => l ^^^ n) (withIssue_some hs _) any
    case up => exact Ctx.gives_laneMove (j := fun l n => if n ≤ l then l - n else l) (withIssue_some hs _) any
    case down => exact Ctx.gives_laneMove (j := fun l n => if l + n ≤ 31 then l + n else l) (withIssue_some hs _) any
  case bcast => exact Ctx.gives_laneMove (bScalar := true) (j := fun _ n => n) (withIssue_some hs _) stop

end Sys2Proof.Machine
end

section
/-! PROOFS. Facts about tables and gangs that several of the proofs below use. -/

namespace Sys2Proof.Machine

/-! ### A part written twice -/

theorem Tbl.insert_insert {α : Type} (t : Tbl α) (k : Nat) (v w : α) :
    Tbl.insert (Tbl.insert t k v) k w = Tbl.insert t k w := by
  induction t with
  | nil => simp [Tbl.insert]
  | cons e t ih =>
    obtain ⟨j, u⟩ := e
    by_cases hlt : k < j
    · simp [Tbl.insert, hlt]
    · by_cases heq : j = k
      · simp [Tbl.insert, heq]
      · simp [Tbl.insert, hlt, heq, ih]

theorem Tbl.set_set {α : Type} [DecidableEq α] {d : α} (t : Tbl α) (k : Nat) {v w : α} (hv : v ≠ d) (hw : w ≠ d) :
    Tbl.set d (Tbl.set d t k v) k w = Tbl.set d t k w := by
  simp [Tbl.set, hv, hw, Tbl.insert_insert]

@[simp] theorem State.putGang_putGang (s : State) (id : Nat) (g h : Gang) :
    (s.putGang id g).putGang id h = s.putGang id h := by
  simp [State.putGang, Tbl.set_set]

theorem State.modGang_some {s : State} {id : Nat} {g : Gang} (h : s.gang? id = some g) (f : Gang → Gang) :
    s.modGang id f = s.putGang id (f g) := by
  rw [State.modGang, h]

@[simp] theorem State.modGang_putGang (s : State) (id : Nat) (g : Gang) (f : Gang → Gang) :
    (s.putGang id g).modGang id f = s.putGang id (f g) := by
  rw [State.modGang_some (s.gang?_putGang_same id g), State.putGang_putGang]

/-! ### The end of a word whose gang is then changed -/

/-- What a change of a gang does beside its registers and groups, it does to the gang that a word without effect leaves. -/
theorem Ctx.went_skip_modGang (c : Ctx) {f : Gang → Gang} {h : Gang}
    (change : ∀ r : Gang, r.rest = c.g.rest → r.groups = c.groupsAt (c.pc + 4) →
      (f r).rest = h.rest ∧ (f r).groups = r.groups ∧ ∀ e, (f r).settled e = r.settled e) :
    c.went c.s h (c.pc + 4) c.g.settled (c.skip.modGang c.id f) := by
  have groups := Gang.groups_retire c.g c.slices (c.pc + 4) (Mr.cad c.mr)
  obtain ⟨rest, same, settled⟩ := change _ (Gang.rest_retire c.g c.slices (c.pc + 4) (Mr.cad c.mr)) groups
  exact ⟨_, State.modGang_putGang _ _ _ _, rest, same.trans groups, fun e => (settled e).trans (Gang.settled_retire _ _ _ _ e)⟩

theorem Gang.settled_congr {g h : Gang} (hp : h.pend = g.pend) (hv : h.v = g.v) (hs : h.s = g.s) (hq : h.p = g.p)
    (e : RegElem) : h.settled e = g.settled e := by
  rw [Gang.settled_eq, Gang.settled_eq, hp]
  cases e <;> simp only [Gang.elem, hv, hs, hq]

theorem mem_members {w : Nat} {m : BitVec w} {i : Nat} : i ∈ members m ↔ i < w ∧ m.getLsbD i = true := by
  simp [members]

end Sys2Proof.Machine
end

section
/-! PROOFS. NOP, YIELD and MODE (R69, R113, R124). -/

namespace Sys2Proof.Machine

/-! ### MODE (R69) -/

/-- The MR copies once those of some slices have been written. -/
def mrsWritten (mr : Tbl (BitVec 24)) (sls : List Nat) (v : BitVec 24) : Tbl (BitVec 24) :=
  sls.foldl (fun t sl => Tbl.set mrReset t sl v) mr

theorem get_mrsWritten (mr : Tbl (BitVec 24)) (sls : List Nat) (v : BitVec 24) (i : Nat) :
    Tbl.get mrReset (mrsWritten mr sls v) i = if i ∈ sls then v else Tbl.get mrReset mr i := by
  induction sls generalizing mr with
  | nil => rfl
  | cons sl sls ih =>
    rw [mrsWritten, List.foldl_cons, ← mrsWritten, ih, Tbl.get_set]
    by_cases h : i = sl <;> simp [h]

theorem Gang.foldl_putMr (g : Gang) (sls : List Nat) (v : BitVec 24) :
    sls.foldl (fun g sl => g.putMr sl v) g = { g with mr := mrsWritten g.mr sls v } := by
  induction sls generalizing g with
  | nil => rfl
  | cons sl sls ih => exact ih (g.putMr sl v)

theorem exec_mode {s : State} {c : Ctx} (hs : s.issuing = some c) (payload : BitVec 24) :
    exec (.mode payload) s = c.run (check (Mr.rnd payload != 7) Cause.illegalEncoding)
      (c.skip.modGang c.id (fun g => (members c.slices).foldl (fun g sl => g.putMr sl payload) g)) := withIssue_some hs _

theorem Ctx.went_mode (c : Ctx) (payload : BitVec 24) :
    c.went c.s { c.g with mr := mrsWritten c.g.mr (members c.slices) payload } (c.pc + 4) c.g.settled
      (c.skip.modGang c.id (fun g => (members c.slices).foldl (fun g sl => g.putMr sl payload) g)) := by
  refine c.went_skip_modGang fun r rest _ => ?_
  have kept : r.mr = c.g.mr := (congrArg Gang.mr rest :)
  rw [Gang.foldl_putMr, kept]
  exact ⟨(congrArg (fun q : Gang => { q with mr := mrsWritten c.g.mr (members c.slices) payload }) rest :), rfl,
    Gang.settled_congr rfl rfl rfl rfl⟩

/-! ### YIELD (R124) -/

/-- As a group goes on, the gang stays parted or ganged (R26). -/
theorem Gang.parted_of_groupsAt {c : Ctx} {r : Gang} {pc : VAddr} (rest : r.rest = c.g.rest)
    (groups : r.groups = c.groupsAt pc) : r.parted = c.g.parted := by
  have live : r.live = c.g.live := (congrArg Gang.live rest :)
  rw [Gang.parted, Gang.parted, groups, live, Ctx.groupsAt]
  match c.g.groups with
  | [] => rfl
  | [x] =>
    simp only [List.map_cons, List.map_nil]
    split <;> rfl
  | _ :: _ :: _ => rfl

/-- A YIELD of the group of c: what it does to the gang. -/
def Ctx.yields (c : Ctx) (g : Gang) : Gang :=
  if g.parted then g.passTurn else { g.passTurn with yielded := some (c.s.now + 1) }

theorem Ctx.yields_eq (c : Ctx) (g : Gang) : c.yields g =
    { g with turn := g.nextTurn, turnIssues := 0, yielded := if g.parted then g.yielded else some (c.s.now + 1) } := by
  unfold Ctx.yields
  split <;> rfl

theorem exec_yield {s : State} {c : Ctx} (hs : s.issuing = some c) :
    exec .yield s = c.run none (c.skip.modGang c.id c.yields) := withIssue_some hs _

/-- The turn passes as the groups stand after the YIELD. -/
theorem Ctx.went_yield (c : Ctx) :
    c.went c.s { c.g with
        turn := Gang.nextTurn { c.g with groups := c.groupsAt (c.pc + 4) }
        turnIssues := 0
        yielded := if c.g.parted then c.g.yielded else some (c.s.now + 1) } (c.pc + 4)
      c.g.settled (c.skip.modGang c.id c.yields) := by
  refine c.went_skip_modGang fun r rest groups => ?_
  have kept : r.yielded = c.g.yielded := (congrArg Gang.yielded rest :)
  have turn : r.nextTurn = Gang.nextTurn { c.g with groups := c.groupsAt (c.pc + 4) } := by
    rw [Gang.nextTurn, Gang.nextTurn, groups, show r.turn = c.g.turn from (congrArg Gang.turn rest :)]
  rw [Ctx.yields_eq, turn, kept, Gang.parted_of_groupsAt rest groups]
  exact ⟨(congrArg (fun q : Gang => { q with
      turn := Gang.nextTurn { c.g with groups := c.groupsAt (c.pc + 4) }
      turnIssues := 0
      yielded := if c.g.parted then c.g.yielded else some (c.s.now + 1) }) rest :), rfl, Gang.settled_congr rfl rfl rfl rfl⟩

/-! ### The statement -/

/-- Settles O18: NOP by the end of a word, YIELD and MODE by what they then do to the gang. -/
theorem nopYieldAndModeComplete : Obligations.NopYieldAndModeComplete := by
  unfold Obligations.NopYieldAndModeComplete
  intro s c payload hs
  obtain rfl := State.issuing_state hs
  refine ⟨?nop, ?yield, fun ok => ?mode, fun bad => ?badMode⟩
  case nop => exact gives_run (withIssue_some hs _) rfl c.wrote_skip
  case yield => exact gives_run (exec_yield hs) rfl ⟨_, c.went_yield⟩
  case mode =>
    refine gives_run (exec_mode hs payload) (check_none.2 (bne_iff_ne.2 ok)) ⟨_, fun i hi => ?_, c.went_mode payload⟩
    simp only [get_mrsWritten, mem_members, hi, true_and, Gang.mrOf]
  case badMode =>
    rw [exec_mode hs, show (Mr.rnd payload != 7) = false by simp [bad], check_false, Ctx.run_some, Ctx.stopped]

end Sys2Proof.Machine
end

section
/-! PROOFS. A step is what the head of the agenda names; a word issues in its part of the cycle (R29, R53, R307, R308). -/

namespace Sys2Proof.Machine

/-! ### The agenda -/

theorem step_of_agenda {s : State} {x : Stimulus} {rest : List Stimulus} (h : s.agenda = x :: rest) :
    step s = State.happen { s with agenda := rest } x := by
  unfold step
  split
  · next y l hl =>
    obtain ⟨rfl, rfl⟩ := List.cons.inj (hl.symm.trans h)
    rfl
  · next hl => exact absurd (hl.symm.trans h) (by simp)

theorem step_of_agenda_nil {s : State} (h : s.agenda = []) : step s = .next s.default := by
  unfold step
  split
  · next hl => exact absurd (hl.symm.trans h) (by simp)
  · rfl

/-! ### One sub-core issues -/

theorem State.cycle_single (s : State) (k : Nat) :
    s.cycle (fun _ => [k].dedup.sortedBy (fun a b => decide (a ≤ b))) =
      { (s.begun.words [k]).clockOn 1 with risen := [] } := by
  rw [State.cycle, show [k].dedup = [k] from List.dedup_cons_of_notMem List.not_mem_nil]
  rfl

theorem State.pick_none_iff {s : State} {k : Nat} :
    s.pick k = none ↔ ∀ x ∈ s.issueOrder k, s.ready x.1 x.2 = false := by
  simp [State.pick]

/-- The pick is the first of its sub-core's groups that is ready (R307). -/
theorem State.pick_some {s : State} {k id p : Nat} {m : SliceMask} (h : s.pick k = some (id, m, p)) :
    p = s.partAt id m ∧ ∃ before later, s.issueOrder k = before ++ (id, m) :: later ∧ s.ready id m = true ∧
      ∀ x ∈ before, s.ready x.1 x.2 = false := by
  obtain ⟨x, hx, heq⟩ := Option.map_eq_some_iff.1 h
  obtain ⟨ready, before, later, order, not_ready⟩ := List.find?_eq_some_iff_append.1 hx
  obtain ⟨rfl, hm⟩ := Prod.mk.inj heq
  obtain ⟨rfl, rfl⟩ := Prod.mk.inj hm
  exact ⟨rfl, before, later, order, ready, fun y hy => by simpa using not_ready y hy⟩

theorem partOf_le_three (i : Instr) : partOf i ≤ 3 := by
  unfold partOf
  split <;> decide

theorem State.partAt_le_three (s : State) (id : Nat) (m : SliceMask) : s.partAt id m ≤ 3 := by
  unfold State.partAt
  split
  · decide
  · split
    · decide
    · split
      · split
        · exact partOf_le_three _
        · decide
      · decide

theorem State.words_of_pick_none {s : State} {k : Nat} (h : s.pick k = none) : s.words [k] = s.barrierCycle.evening := by
  have none_picked : [k].filterMap s.pick = [] := by simp [h]
  have no_word : ∀ (u : State) n, u.issuePart n [] = u := fun u n => State.issuePart_of_none (by simp)
  simp only [State.words, none_picked, no_word]

/-- One word of a part of the cycle is all of that part, and none of another. -/
theorem State.issuePart_single (s : State) (n : Nat) (x : Nat × SliceMask × Nat) :
    s.issuePart n [x] = if x.2.2 = n then s.issuePick x else s := by
  unfold State.issuePart
  by_cases h : x.2.2 = n <;> simp [h]

theorem State.words_of_pick {s : State} {k id p : Nat} {m : SliceMask} (h : s.pick k = some (id, m, p)) :
    s.words [k] = if p ≤ 1 then (s.issuePick (id, m, p)).barrierCycle.evening
      else if p = 2 then (s.barrierCycle.issuePick (id, m, p)).evening
      else s.barrierCycle.evening.issuePick (id, m, p) := by
  have one_picked : [k].filterMap s.pick = [(id, m, p)] := by simp [h]
  have part_le : p ≤ 3 := (State.pick_some h).1 ▸ s.partAt_le_three id m
  unfold State.words
  simp only [one_picked, State.issuePart_single]
  obtain rfl | rfl | rfl | rfl : p = 0 ∨ p = 1 ∨ p = 2 ∨ p = 3 := by omega
  all_goals simp only [reduceIte, Nat.reduceEqDiff, Nat.reduceLeDiff]

/-! ### One word executes -/

theorem State.issuePick_eq {s t : State} {id p : Nat} {m : SliceMask} (may : s.mayIssueAs id m = true)
    (h : (s.beginIssue id m).execNext = .next t) : s.issuePick (id, m, p) =
      if s.stalledIn id (s.endIssue t id m) then s.waits id [m] else s.endIssue t id m := by
  have tries : s.tries id m = (s.endIssue t id m, s.stalledIn id (s.endIssue t id m)) := by
    simp only [State.tries, State.present, h]
  simp only [State.issuePick, may, reduceIte, tries]

theorem State.execNext_word {s : State} {c : Ctx} {w : BitVec 32} (hs : s.issuing = some c)
    (hw : s.fetchWord c.part c.pc = .ok w) : s.execNext = s.execWord w := by
  rw [State.execNext, withIssue_some hs, hw]

theorem State.execNext_fault {s : State} {c : Ctx} {e : Byte} (hs : s.issuing = some c)
    (hw : s.fetchWord c.part c.pc = .error e) : s.execNext = exec .fetchFault s := by
  rw [State.execNext, withIssue_some hs, hw]

theorem State.illegalEncoding_eq {s : State} {c : Ctx} (hs : s.issuing = some c) :
    s.illegalEncoding = .next (c.raise Cause.illegalEncoding) := by
  rw [State.illegalEncoding, withIssue_some hs, Ctx.run_none]

/-! ### The statement -/

/-- Settles O1: a cycle of one sub-core is its word in its part of the cycle; every other step is what the agenda names. -/
theorem stepRunsTheDecodedInstruction : Obligations.StepRunsTheDecodedInstruction := by
  unfold Obligations.StepRunsTheDecodedInstruction
  intro s rest s0
  refine ⟨fun k hk => ?issue, fun ks h => step_of_agenda h, fun i h => ?event, fun n h => step_of_agenda h,
    fun n h => step_of_agenda h, fun modid h => step_of_agenda h, fun src part addr h => step_of_agenda h,
    fun part va h => step_of_agenda h, fun h => step_of_agenda_nil h⟩
  case event =>
    rw [step_of_agenda h, State.happen]
    exact ⟨fun no => if_neg (by simp [no]), fun yes => if_pos yes⟩
  case issue =>
    intro b ends
    have cycle : step s = .next (ends (b.words [k])) :=
      (step_of_agenda hk).trans (congrArg Host.Outcome.next (State.cycle_single s0 k))
    refine ⟨State.pick_none_iff, fun none_picked => ?_, fun id m p c picked => ?_⟩
    · rw [cycle, State.words_of_pick_none none_picked]
    · intro noon u s1 after runs
      have whole : step s = .next (after (u.issuePick (id, m, p))) := by
        rw [cycle, State.words_of_pick picked]
        simp only [after, u, noon]
        split
        · rfl
        · split <;> rfl
      have word : u.mayIssueAs id m = true → ∀ o, s1.execNext = o → runs o := by
        rintro may o rfl t ht
        rw [whole, State.issuePick_eq may ht]
      refine ⟨(State.pick_some picked).2, fun may => ?_, fun may hc => ⟨fun w hw => ?_, fun e he => ?_⟩⟩
      · rw [whole, State.issuePick_of_not may]
      · have fetched := State.execNext_word hc hw
        refine ⟨fun i hi => word may _ ?_, fun hi => word may _ ?_, fun hi => word may _ ?_⟩
        · rw [fetched, State.execWord, hi]
        · rw [fetched, State.execWord, hi]
        · rw [fetched, State.execWord, hi]
          exact State.illegalEncoding_eq hc
      · exact word may _ (State.execNext_fault hc he)

end Sys2Proof.Machine
end

section
/-! PROOFS. Words of the tables, and the machine after reset (R53, R54, R56, R468). -/

namespace Sys2Proof.Machine

/-- Settles O2: each word by the row of the opcode map that it names. -/
theorem decodedWordsAreTheTables : Obligations.DecodedWordsAreTheTables := by
  unfold Obligations.DecodedWordsAreTheTables
  decide

/-- Settles O3: after reset nothing is listed, so that every part reads as its own reset. -/
theorem resetLeavesTheSpecifiedState : Obligations.ResetLeavesTheSpecifiedState := by
  unfold Obligations.ResetLeavesTheSpecifiedState
  refine ⟨rfl, rfl, rfl, rfl, fun _ => ⟨rfl, rfl, rfl, rfl, rfl⟩, fun _ => ⟨rfl, rfl, rfl, rfl⟩, fun _ _ => ⟨rfl, rfl⟩,
    fun _ _ => ⟨rfl, rfl, rfl⟩, fun _ => rfl, State.reset_vaultSound, ⟨by decide, by decide⟩, rfl, rfl, fun c => ?_⟩
  cases c <;> rfl

end Sys2Proof.Machine
end

section
/-! PROOFS. A small machine on which a refutation evaluates a word: one team, one core, one gang whose group issues. -/

namespace Sys2Proof.Machine

/-- A gang as it starts, alone in its team. -/
def aGang : Gang := Gang.start (placedLaunch 1) 2 0 0 0 0 0

/-- The machine with a word placed, in which gang g stands and its group of all slices holds the issue slot. -/
def machineOf (g : Gang) : State :=
  { (State.reset.placeWord 0).putGang 3 g with agenda := [], cur := some ⟨3, 0xFF⟩ }

/-- What the word of a group sees in that machine. -/
def ctxOf (g : Gang) (x : Group) : Ctx := ⟨machineOf g, 3, g, x⟩

theorem machineOf_issuing {g : Gang} {x : Group} (h : g.group? 0xFF = some x) : (machineOf g).issuing = some (ctxOf g x) := by
  have hg : (machineOf g).gang? 3 = some g := State.gang?_putGang_same _ _ _
  have hc : (machineOf g).cur = some ⟨3, 0xFF⟩ := rfl
  simp only [State.issuing, hc, hg, h, ctxOf]

/-- A gang satisfies f in the state after a word, if the word answers one that holds the gang. -/
def gangAfter (i : Instr) (s : State) (f : Gang → Bool) : Bool := match exec i s with
  | .next t => match t.gang? 3 with
    | some g => f g
    | none => true
  | _ => true

/-- What holds of the gang in every state that a word gives, a run that shows otherwise refutes. -/
theorem not_gives_of_gangAfter {i : Instr} {s : State} {P : State → Prop} {f : Gang → Bool}
    (hP : ∀ t, P t → ∃ g, t.gang? 3 = some g ∧ f g = true) (hf : gangAfter i s f = false) : ¬ Gives i s P := by
  rintro ⟨t, ht, hp⟩
  obtain ⟨g, hg, hfg⟩ := hP t hp
  simp [gangAfter, ht, hg, hfg] at hf

end Sys2Proof.Machine
end

section
/-! PROOFS. REGANG, BARWAIT and WANY in states that no run reaches: a gang with two groups of the same slices, and a group that
issues although it is parked. The statements speak of every state, and fail there. -/

namespace Sys2Proof.Machine

/-! ### REGANG -/

/-- Two groups of all slices, the second at another word; the first has its expected slices in s0. -/
def twinGang : Gang :=
  { aGang with
    s := [(0, 0xFF)]
    groups := [{ slices := 0xFF, pc := 0x10000, park := none, since := 0 },
               { slices := 0xFF, pc := 0x20000, park := none, since := 0 }] }

def twinCtx : Ctx := ctxOf twinGang { slices := 0xFF, pc := 0x10000, park := none, since := 0 }

/-- The second group, parked with the first: the merge leaves it where it is. -/
def twinLeft (x : Group) : Bool := x.slices == 0xFF && x.pc == 0x20000

theorem twinLeft_after_regang : gangAfter (.regang 0xC0) (machineOf twinGang) (fun g => !g.groups.any twinLeft) = false := by
  decide +kernel

theorem twinGang_issuing : (machineOf twinGang).issuing = some twinCtx :=
  machineOf_issuing (x := { slices := 0xFF, pc := 0x10000, park := none, since := 0 }) (by decide +kernel)

theorem twinGang_unparked (x : Group) (hx : x ∈ twinGang.groups) : x.park = none := by
  have hall : twinGang.groups.all (fun x => x.park == none) = true := by decide +kernel
  simpa using List.all_eq_true.mp hall x hx

/-- Refutes O21: the groups after a merge are said to be the merged one and those of other slices. In a gang with two groups
of the same slices the word parks both, and the one that stands at another word stays. -/
theorem not_regangMergesTheExpectedSlices : ¬ Obligations.RegangMergesTheExpectedSlices := by
  unfold Obligations.RegangMergesTheExpectedSlices
  intro h
  obtain ⟨-, hm⟩ := h (machineOf twinGang) twinCtx 0xC0 twinGang_issuing (by decide +kernel) (by decide +kernel)
  have hmerge := (hm (by decide +kernel) (by decide +kernel)
    (fun x hx k hk => by rw [twinGang_unparked x hx] at hk; cases hk) (by decide +kernel)).2 (by decide +kernel)
  refine not_gives_of_gangAfter ?_ twinLeft_after_regang hmerge
  rintro t ⟨g', k, hg', -, -, hgroups, -⟩
  refine ⟨g', hg', ?_⟩
  simp only [Bool.not_eq_true', List.any_eq_false]
  intro x hx hleft
  obtain ⟨hsl, hpc⟩ : x.slices = 0xFF ∧ x.pc = 0x20000 := by simpa [twinLeft] using hleft
  rcases (hgroups x).mp hx with rfl | ⟨-, hne, -⟩
  · exact absurd hpc (show ¬ twinCtx.pc + 4 = 0x20000#56 by decide +kernel)
  · exact hne hsl

/-! ### BARWAIT and WANY -/

/-- Registers for both words: the mask 0xFF, and parity 1 for BARWAIT, in s0; a list of the event 0x40, which is pending, in
s1; the group is parked and holds the issue slot. -/
def parkedGang : Gang :=
  { aGang with
    s := [(0, 0x1FF), (1, 0x40000000)]
    evpend := 1
    groups := [{ slices := 0xFF, pc := 0x10000, park := some .ctxsv, since := 0 }] }

def parkedCtx : Ctx := ctxOf parkedGang { slices := 0xFF, pc := 0x10000, park := some .ctxsv, since := 0 }

theorem parkedGang_issuing : (machineOf parkedGang).issuing = some parkedCtx :=
  machineOf_issuing (x := { slices := 0xFF, pc := 0x10000, park := some .ctxsv, since := 0 }) (by decide +kernel)

theorem parkedGang_posted : parkedCtx.g.posted = [] := rfl

/-- The group after the word idles for a cycle at least. -/
def idles (g : Gang) : Bool := g.groups.any (fun x => x.idle == 1)

/-- A word that has executed leaves its group idling (R68), as the frame of a data word says. -/
theorem idles_of_went {s1 : State} {g1 : Gang} {pc : VAddr} {f : RegElem → Word} {t : State}
    (h : parkedCtx.went s1 g1 pc f t) : ∃ g, t.gang? 3 = some g ∧ idles g = true := by
  obtain ⟨g', rfl, -, hgroups, -⟩ := h
  refine ⟨g', State.gang?_putGang_same _ _ _, ?_⟩
  rw [idles, hgroups]
  rfl

/-- Refutes O24: a BARWAIT that returns leaves the idle cycles of a group that was parked as they were, and the frame of a
word that has executed gives CAD and one. -/
theorem not_barrierWaitsAndReads : ¬ Obligations.BarrierWaitsAndReads := by
  unfold Obligations.BarrierWaitsAndReads
  intro h
  obtain ⟨tm, htm⟩ : ∃ tm, parkedCtx.team = some tm := Option.isSome_iff_exists.mp (by decide +kernel)
  obtain ⟨hwait, -⟩ := h (machineOf parkedGang) parkedCtx tm 0 0xC0 0xC0 parkedGang_issuing htm
  have hphase : (tm.barrier 0).phase = false := by
    have : (parkedCtx.team.map (fun tm => (tm.barrier 0).phase)) = some false := by decide +kernel
    simpa [htm] using this
  obtain ⟨hgo, -⟩ := hwait (by decide) (by decide) (by decide +kernel) (by decide +kernel) (by decide +kernel)
    (by decide +kernel) (by decide +kernel)
  have hreturn := hgo (fun he => absurd (he.symm.trans hphase) (by decide +kernel))
    (fun q hq => absurd (parkedGang_posted ▸ hq) List.not_mem_nil)
  refine not_gives_of_gangAfter (f := idles) (fun t ht => idles_of_went ht) ?_ hreturn
  decide +kernel

/-- Refutes O27: a WANY that takes an entry leaves the idle cycles of a group that was parked as they were, and the frame of
a word that has executed gives CAD and one. -/
theorem not_wanyTakesTheFirstEligibleEntry : ¬ Obligations.WanyTakesTheFirstEligibleEntry := by
  unfold Obligations.WanyTakesTheFirstEligibleEntry
  intro h
  obtain ⟨-, htake⟩ := h (machineOf parkedGang) parkedCtx 0xC0 0xC1 1 parkedGang_issuing (by decide) (by decide) (by decide)
    (by decide) (by decide) (by decide +kernel) (by decide +kernel) (by decide +kernel) (by decide +kernel)
    (List.all_eq_true.mp (by decide +kernel))
  have htaken := htake 0 (by decide) (by decide +kernel) (fun j hj => absurd hj (Nat.not_lt_zero j))
    (fun q hq => absurd (parkedGang_posted ▸ hq) List.not_mem_nil)
  refine not_gives_of_gangAfter (f := idles) (fun t ht => ?_) ?_ htaken
  · obtain ⟨ev, hw, -⟩ := ht
    exact idles_of_went hw
  · decide +kernel

end Sys2Proof.Machine
end

section
/-! PROOFS. BARINIT and BARARR (R318, R319). -/

namespace Sys2Proof.Machine

/-! ### The barriers of a team -/

@[simp] theorem Team.barrier_putBarrier_same (t : Team) (n : Nat) (b : Barrier) : (t.putBarrier n b).barrier n = b :=
  Tbl.get_set_same _ _ _ _

theorem Team.barrier_putBarrier_other (t : Team) {n k : Nat} (b : Barrier) (h : k ≠ n) :
    (t.putBarrier n b).barrier k = t.barrier k := Tbl.get_set_other _ _ _ h

theorem State.modTeam_some {s : State} {id : Nat} {t : Team} (h : s.team? id = some t) (f : Team → Team) :
    s.modTeam id f = s.putTeam id (f t) := by
  rw [State.modTeam, h]

theorem Ctx.barrier_of_team {c : Ctx} {tm : Team} (h : c.team = some tm) (n : Nat) : c.barrier n = tm.barrier n := by
  rw [Ctx.barrier, h]

theorem Ctx.skip_team {c : Ctx} {tm : Team} (h : c.team = some tm) : c.skip.team? c.g.team = some tm := h

theorem bit_eight (x : Nat) : bit x 8 = decide (x / 256 % 2 = 1) := rfl

/-! ### BARINIT (R318) -/

theorem exec_barinit {s : State} {c : Ctx} (hs : s.issuing = some c) (n : ByteField) (a b : RegField) :
    exec (.barinit n a b) s =
      c.run (c.onceStop (decide (n.toNat ≤ 15) && scalarOk a && scalarOk b)
          ((c.readS a).toNat / 65536 == 0 && decide ((c.readS a).toNat % 256 ≤ 128) &&
            ((c.readS a).toNat % 256 != 0 || (c.readS b).toNat != 0)) true
          (regsOf a false) (regsOf b false) [] [])
        (c.onceDo
          (if s.barrierBusy c.g.team n.toNat (c.barrier n.toNat) then c.raise Cause.illegalOperand
           else c.skip.modTeam c.g.team (fun t => t.putBarrier n.toNat
             (Barrier.fresh ((c.readS a).toNat % 256) (c.readS b).toNat (BitVec.ofNat 8 ((c.readS a).toNat / 256)))))) :=
  withIssue_some hs _

/-- A word without effect, whose team then changes. -/
theorem Ctx.went_skip_modTeam (c : Ctx) {tm : Team} (h : c.team = some tm) (f : Team → Team) :
    c.went (c.s.putTeam c.g.team (f tm)) c.g (c.pc + 4) c.g.settled (c.skip.modTeam c.g.team f) := by
  obtain ⟨g', hskip, rest, groups, settled⟩ := c.wrote_skip
  refine ⟨g', ?_, rest, groups, settled⟩
  rw [State.modTeam_some (Ctx.skip_team h), hskip]
  rfl

theorem barinit_cases {s : State} {c : Ctx} {tm : Team} (n : ByteField) (a b : RegField) (hs : s.issuing = some c)
    (ht : c.team = some tm)
    (hok : c.onceStop (decide (n.toNat ≤ 15) && scalarOk a && scalarOk b)
       ((c.readS a).toNat / 65536 == 0 && decide ((c.readS a).toNat % 256 ≤ 128) &&
         ((c.readS a).toNat % 256 != 0 || (c.readS b).toNat != 0)) true
       (regsOf a false) (regsOf b false) [] [] = none) :
    (c.once = false → Gives (.barinit n a b) s (c.wrote c.g.settled)) ∧
    (c.once = true → s.barrierBusy c.g.team n.toNat (c.barrier n.toNat) = true →
      exec (.barinit n a b) s = .next (c.raise Cause.illegalOperand)) ∧
    (c.once = true → s.barrierBusy c.g.team n.toNat (c.barrier n.toNat) = false →
      Gives (.barinit n a b) s (fun t => ∃ tm', c.went (s.putTeam c.g.team tm') c.g (c.pc + 4) c.g.settled t ∧
        tm' = tm.putBarrier n.toNat
          (Barrier.fresh ((c.readS a).toNat % 256) (c.readS b).toNat (BitVec.ofNat 8 ((c.readS a).toNat / 256))))) := by
  obtain rfl := State.issuing_state hs
  refine ⟨fun off => gives_run (exec_barinit hs n a b) hok (Ctx.wrote_onceDo off _), fun on busy => ?_, fun on idle => ?_⟩
  · rw [exec_barinit hs, hok, Ctx.onceDo_true on, if_pos busy]
    rfl
  · refine gives_run (exec_barinit hs n a b) hok ?_
    rw [Ctx.onceDo_true on, if_neg (Bool.eq_false_iff.1 idle)]
    exact ⟨_, c.went_skip_modTeam ht _, rfl⟩

/-! ### BARARR (R319) -/

theorem exec_bararr {s : State} {c : Ctx} {tm : Team} (hs : s.issuing = some c) (ht : c.team = some tm) (n : ByteField)
    (a : RegField) :
    exec (.bararr n a) s =
      c.run (check (decide (n.toNat ≤ 15) && scalarOk a) Cause.illegalOperand <|>
          c.interlock (regsOf a false) <|> check ((c.readS a).toNat / 512 == 0) Cause.illegalOperand <|>
          c.plumb (regsOf a false) [] [] [] <|> c.groupWide (c.readS a).toNat <|> c.readPosted (regsOf a false) <|>
          check (!(tm.barrier n.toNat).overrun c.g.index (bit (c.readS a).toNat 8)) Cause.barrierOverrun <|> c.releaseFirst)
        (c.skip.putBarrier c.g.team n.toNat
          ((tm.barrier n.toNat).arrive c.g.index (bit (c.readS a).toNat 8) (BitVec.ofNat 8 (c.readS a).toNat))) := by
  rw [← Ctx.barrier_of_team ht]
  exact withIssue_some hs _

/-- The arrivals that Table 11.4 refuses. -/
theorem Barrier.overrun_iff (b : Barrier) (g : Nat) (p : Bool) :
    b.overrun g p = true ↔ b.e.getLsbD g = true ∨ (b.a.getLsbD g = true ∧ p = b.phase) := by
  simp [Barrier.overrun]

theorem Barrier.overrun_false_iff (b : Barrier) (g : Nat) (p : Bool) :
    b.overrun g p = false ↔ b.e.getLsbD g = false ∧ (b.a.getLsbD g = false ∨ p ≠ b.phase) := by
  simp [Barrier.overrun, imp_iff_not_or]

theorem Ctx.releaseFirst_none {c : Ctx} : c.releaseFirst = none ↔ c.s.loadsOut c.id = false ∧ c.s.padsOut c.id = false := by
  rw [Ctx.releaseFirst, ← Bool.or_eq_false_iff]
  cases c.s.loadsOut c.id || c.s.padsOut c.id <;> simp

/-- Once its operands have passed, a BARARR is judged by its parity and waits for the gang's loads alone. -/
theorem exec_bararr_checked {s : State} {c : Ctx} {tm : Team} {n : ByteField} {a : RegField} (hs : s.issuing = some c)
    (ht : c.team = some tm) (hn : n.toNat ≤ 15) (ha : scalarOk a = true) (hi : c.interlock (regsOf a false) = none)
    (hx : (c.readS a).toNat < 512) (hp : c.plumb (regsOf a false) [] [] [] = none)
    (hw : c.groupWide (c.readS a).toNat = none) (hr : c.readPosted (regsOf a false) = none) :
    exec (.bararr n a) s =
      c.run (check (!(tm.barrier n.toNat).overrun c.g.index (bit (c.readS a).toNat 8)) Cause.barrierOverrun <|> c.releaseFirst)
        (c.skip.putBarrier c.g.team n.toNat
          ((tm.barrier n.toNat).arrive c.g.index (bit (c.readS a).toNat 8) (BitVec.ofNat 8 (c.readS a).toNat))) := by
  have hfields : (decide (n.toNat ≤ 15) && scalarOk a) = true := by simp [hn, ha]
  have hvalue : ((c.readS a).toNat / 512 == 0) = true := by simpa using Nat.div_eq_of_lt hx
  rw [exec_bararr hs ht, hfields, hvalue, hi, hp, hw, hr]
  rfl

/-- Settles O22: the branches of BARINIT by once() and the busy test, those of BARARR by Table 11.4. -/
theorem barriersAreSetAndArrivedAt : Obligations.BarriersAreSetAndArrivedAt := by
  unfold Obligations.BarriersAreSetAndArrivedAt
  constructor
  · intro s c tm n a b hs ht x expb hok
    obtain ⟨off, busy, idle⟩ := barinit_cases n a b hs ht hok
    refine ⟨off, busy, fun on free => (idle on free).mono ?_⟩
    rintro t ⟨tm', went, rfl⟩
    exact ⟨_, went, rfl, fun k hk => Team.barrier_putBarrier_other _ _ hk, Team.barrier_putBarrier_same _ _ _⟩
  · intro s c tm n a hs ht x b p mine early hn ha hi hx hp hw hr
    obtain rfl := State.issuing_state hs
    have checked := exec_bararr_checked hs ht hn ha hi hx hp hw hr
    refine ⟨fun refused => ?_, fun hearly hmine loads pads => gives_run checked ?_ rfl⟩
    · rw [checked, show (tm.barrier n.toNat).overrun c.g.index (bit (c.readS a).toNat 8) = true from
        (b.overrun_iff c.g.index p).2 refused]
      rfl
    · rw [show (tm.barrier n.toNat).overrun c.g.index (bit (c.readS a).toNat 8) = false from
        (b.overrun_false_iff c.g.index p).2 ⟨hearly, hmine⟩, Ctx.releaseFirst_none.2 ⟨loads, pads⟩]
      rfl

end Sys2Proof.Machine
end

section
/-! PROOFS. What a change of every gang of a team does, gang by gang. -/

namespace Sys2Proof.Machine

theorem Tbl.mem_of_get_ne {α : Type} {d : α} {t : Tbl α} {k : Nat} (h : Tbl.get d t k ≠ d) : ∃ v, (k, v) ∈ t := by
  induction t with
  | nil => exact absurd rfl h
  | cons e t ih =>
    obtain ⟨j, v⟩ := e
    by_cases hj : j = k
    · exact ⟨v, hj ▸ List.mem_cons_self⟩
    · rw [Tbl.get, if_neg hj] at h
      obtain ⟨w, hw⟩ := ih h
      exact ⟨w, List.mem_cons_of_mem _ hw⟩

/-- A part that a read gives is listed under its number. -/
theorem mem_listed_of_get {α : Type} {t : Tbl (Option α)} {k : Nat} {v : α} (h : Tbl.get none t k = some v) :
    (k, v) ∈ listed t := by
  obtain ⟨w, hw⟩ := Tbl.mem_of_get_ne (d := none) (t := t) (k := k) (by rw [h]; exact Option.some_ne_none v)
  exact List.mem_filterMap.2 ⟨_, hw, by simp [h]⟩

theorem mem_listed_iff {α : Type} {t : Tbl (Option α)} {e : Nat × α} : e ∈ listed t ↔ Tbl.get none t e.1 = some e.2 :=
  ⟨mem_listed, mem_listed_of_get⟩

/-- Gangs changed one after another, where each entry of the list has the gang of its number: a gang of the list that is of
the team is changed, any other is as it was. -/
theorem State.gang?_foldl_team {team id : Nat} {f : Gang → Gang} (l : List (Nat × Gang)) (acc : State)
    {g : Gang} (hl : ∀ e ∈ l, e.1 = id → e.2 = g) :
    (l.foldl (fun acc e => if e.2.team == team then acc.putGang e.1 (f e.2) else acc) acc).gang? id =
      if g.team = team ∧ id ∈ l.map Prod.fst then some (f g) else acc.gang? id := by
  induction l generalizing acc with
  | nil => simp
  | cons e l ih =>
    rw [List.foldl_cons, ih _ (fun x hx => hl x (List.mem_cons_of_mem _ hx))]
    by_cases hid : e.1 = id
    · have hg : e.2 = g := hl e List.mem_cons_self hid
      by_cases ht : g.team = team <;> simp [hid, hg, ht]
    · have hne : id ≠ e.1 := fun h => hid h.symm
      have hmem : id ∈ (e :: l).map Prod.fst ↔ id ∈ l.map Prod.fst := by simp only [List.map_cons, List.mem_cons, hne, false_or]
      by_cases ht : e.2.team = team <;> simp only [hmem, ht, beq_iff_eq, if_true, if_false, State.gang?_putGang_other _ _ hne]

/-- Every gang of the team is changed, and no other. -/
theorem State.gang?_modTeamGangs_eq (s : State) (team : Nat) (f : Gang → Gang) (id : Nat) :
    (s.modTeamGangs team f).gang? id = (s.gang? id).map (fun g => if g.team = team then f g else g) := by
  cases h : s.gang? id with
  | none =>
    have hl : ∀ e ∈ listed s.gangs, e.1 ≠ id := fun e he hid => by
      have := mem_listed he
      rw [hid] at this
      exact Option.some_ne_none _ (this.symm.trans h)
    rw [State.modTeamGangs, State.gang?_foldl_team (g := aGang) _ _ (fun e he hid => absurd hid (hl e he)), if_neg]
    · exact h
    · rintro ⟨-, hmem⟩
      obtain ⟨e, he, rfl⟩ := List.mem_map.1 hmem
      exact hl e he rfl
  | some g =>
    have hl : ∀ e ∈ listed s.gangs, e.1 = id → e.2 = g := fun e he hid => by
      have := mem_listed he
      rw [hid] at this
      exact Option.some.inj (this.symm.trans h)
    have hmem : id ∈ (listed s.gangs).map Prod.fst := List.mem_map.2 ⟨(id, g), mem_listed_of_get h, rfl⟩
    rw [State.modTeamGangs, State.gang?_foldl_team _ _ hl, h]
    by_cases ht : g.team = team <;> simp [ht, hmem]

/-- A change of gangs is one of the gang table alone. -/
theorem State.foldl_team_eq {team : Nat} {f : Gang → Gang} (l : List (Nat × Gang)) (s : State) : ∃ gs : Tbl (Option Gang),
    l.foldl (fun acc e => if e.2.team == team then acc.putGang e.1 (f e.2) else acc) s = { s with gangs := gs } := by
  induction l generalizing s with
  | nil => exact ⟨s.gangs, rfl⟩
  | cons e l ih =>
    rw [List.foldl_cons]
    split
    · obtain ⟨gs, h⟩ := ih (s.putGang e.1 (f e.2))
      exact ⟨gs, h⟩
    · exact ih s

theorem State.modTeamGangs_with (s : State) (team : Nat) (f : Gang → Gang) : ∃ gs : Tbl (Option Gang),
    s.modTeamGangs team f = { s with gangs := gs } := State.foldl_team_eq _ s

@[simp] theorem State.modTeamGangs_team? (s : State) (team : Nat) (f : Gang → Gang) (k : Nat) :
    (s.modTeamGangs team f).team? k = s.team? k := by
  obtain ⟨gs, h⟩ := s.modTeamGangs_with team f
  rw [h]
  rfl

theorem Gang.getLsbD_evpend_latch {g : Gang} {n k : Nat} (hk : k < 19) :
    (g.latch n).evpend.getLsbD k = (g.evpend.getLsbD k || decide (k = n)) := by
  rw [Gang.latch, BitVec.getLsbD_or, BitVec.getLsbD_ofNat, Nat.testBit_two_pow]
  simp [hk, eq_comm]

end Sys2Proof.Machine
end

section
/-! PROOFS. Barriers and what reaches them, and the one update of a cycle (R321, R322). -/

namespace Sys2Proof.Machine

/-! ### One barrier -/

theorem State.putBarrier_eq {s : State} {team n : Nat} {tm : Team} (h : s.team? team = some tm) (b : Barrier) :
    s.putBarrier team n b = s.putTeam team (tm.putBarrier n b) := State.modTeam_some h _

theorem State.flipBarrier_team? {s : State} {team n : Nat} {tm : Team} (h : s.team? team = some tm) (b : Barrier) :
    (s.flipBarrier team n b).team? team = some (tm.putBarrier n b.flip) := by
  rw [State.flipBarrier, State.modTeamGangs_team?, State.putBarrier_eq h, State.team?_putTeam_same]

theorem State.modTeam_team?_other (s : State) {id k : Nat} (f : Team → Team) (h : k ≠ id) : (s.modTeam id f).team? k = s.team? k := by
  unfold State.modTeam
  split
  · exact State.team?_putTeam_other _ _ h
  · rfl

theorem State.modTeam_gang? (s : State) (id k : Nat) (f : Team → Team) : (s.modTeam id f).gang? k = s.gang? k := by
  unfold State.modTeam
  split <;> rfl

theorem State.flipBarrier_team?_other (s : State) {team k : Nat} (n : Nat) (b : Barrier) (h : k ≠ team) :
    (s.flipBarrier team n b).team? k = s.team? k := by
  rw [State.flipBarrier, State.modTeamGangs_team?, State.putBarrier, State.modTeam_team?_other _ _ h]

/-- Every gang of the team sees the completion, and no other. -/
theorem State.flipBarrier_gang? (s : State) (team n : Nat) (b : Barrier) (id : Nat) :
    (s.flipBarrier team n b).gang? id =
      (s.gang? id).map (fun g => if g.team = team then g.sawBarrier n b.flip.mism else g) := by
  rw [State.flipBarrier, State.gang?_modTeamGangs_eq, State.putBarrier, State.modTeam_gang?]

/-- What a gang that has not ended has of a completion: its event, and a fault that waits if the masks differ (R322). -/
theorem Gang.sawBarrier_of_live {g : Gang} (h : g.ended = false) (n : Nat) (mism : Bool) :
    (g.sawBarrier n mism).evpend = g.evpend ||| BitVec.ofNat 19 (2 ^ n) ∧
    (mism = true → ∃ p, (g.sawBarrier n mism).posted = g.posted ++ [p] ∧ p.at_ = .barrier n ∧ p.cause = Cause.membership) ∧
    (mism = false → (g.sawBarrier n mism).posted = g.posted) := by
  cases mism
  · simp [Gang.sawBarrier, h, Gang.latch]
  · simp [Gang.sawBarrier, h, Gang.latch]

/-- What every gang keeps of a completion, and the event of it in those that have not ended. -/
theorem Gang.sawBarrier_seen (g : Gang) (n : Nat) (mism : Bool) :
    (g.sawBarrier n mism).team = g.team ∧ (g.sawBarrier n mism).ended = g.ended ∧
    ∀ k < 16, (g.sawBarrier n mism).evpend.getLsbD k = (g.evpend.getLsbD k || (!g.ended && decide (k = n))) := by
  cases hended : g.ended
  · have hsaw : (g.sawBarrier n mism).team = g.team ∧ (g.sawBarrier n mism).ended = g.ended ∧
        (g.sawBarrier n mism).evpend = (g.latch n).evpend := by
      cases mism <;> simp [Gang.sawBarrier, hended]
    obtain ⟨team, ended, evpend⟩ := hsaw
    refine ⟨team, ended.trans hended, fun k hk => ?_⟩
    rw [evpend, Gang.getLsbD_evpend_latch (Nat.lt_trans hk (by decide)), Bool.not_false, Bool.true_and]
  · simp [Gang.sawBarrier, hended]

/-- A barrier's masks fail the check of a completion. -/
theorem Barrier.flip_mism (b : Barrier) : b.flip.mism = decide (0 < b.expg ∧ b.umask ≠ b.dmem) := by
  by_cases h : b.umask = b.dmem <;> simp [Barrier.flip, h]

theorem Barrier.flip_eq (b : Barrier) : b.flip =
    { b with
      phase := !b.phase, mism := decide (0 < b.expg ∧ b.umask ≠ b.dmem), arr := b.early, bytes := b.ebytes,
      umask := b.eumask, a := b.e, e := 0, early := 0, ebytes := 0, eumask := 0 } := by
  rw [← Barrier.flip_mism]
  rfl

theorem Barrier.complete_iff (b : Barrier) : b.complete = true ↔ b.expg ≤ b.arr ∧ b.bytes = b.expb := by
  simp [Barrier.complete]

/-! ### The update of a cycle -/

/-- In u the barriers of a team for which f holds have advanced, and the gangs of the team have seen them. -/
def State.advancedTo (s : State) (team : Nat) (tm : Team) (f : Nat → Bool) (u : State) : Prop :=
  (∃ tm', u.team? team = some tm' ∧ ∀ n, tm'.barrier n = if f n then (tm.barrier n).flip else tm.barrier n) ∧
  ∀ id g, s.gang? id = some g → g.team = team → ∃ g', u.gang? id = some g' ∧ g'.team = team ∧ g'.ended = g.ended ∧
    ∀ n < 16, g'.evpend.getLsbD n = (g.evpend.getLsbD n || (!g.ended && f n))

section
variable {s u : State} {team : Nat} {tm : Team} {f : Nat → Bool}

theorem State.advancedTo_refl (h : s.team? team = some tm) : s.advancedTo team tm (fun _ => false) s :=
  ⟨⟨tm, h, fun _ => rfl⟩, fun id g hg ht => ⟨g, hg, ht, rfl, fun n _ => by simp⟩⟩

/-- A barrier of the team that advances. -/
theorem State.advancedTo_flip (h : s.advancedTo team tm f u) (n : Nat) :
    s.advancedTo team tm (fun k => f k || decide (k = n)) (u.flipBarrier team n (tm.barrier n)) := by
  obtain ⟨⟨tm', htm, hbar⟩, hgangs⟩ := h
  refine ⟨⟨_, State.flipBarrier_team? htm _, fun k => ?_⟩, fun id g hg ht => ?_⟩
  · by_cases hk : k = n
    · subst hk
      simp
    · rw [Team.barrier_putBarrier_other _ _ hk, hbar k]
      simp [hk]
  · obtain ⟨g', hg', team', ended', bits⟩ := hgangs id g hg ht
    obtain ⟨hteam, hended, hbits⟩ := g'.sawBarrier_seen n (tm.barrier n).flip.mism
    refine ⟨g'.sawBarrier n (tm.barrier n).flip.mism, ?_, hteam.trans team', hended.trans ended', fun k hk => ?_⟩
    · rw [State.flipBarrier_gang?, hg', Option.map_some, if_pos team']
    · rw [hbits k hk, bits k hk, ended']
      cases g.ended <;> simp [Bool.or_assoc]

/-- A barrier of another team that advances. -/
theorem State.advancedTo_flip_other (h : s.advancedTo team tm f u) {other : Nat} (ho : other ≠ team) (n : Nat) (b : Barrier) :
    s.advancedTo team tm f (u.flipBarrier other n b) := by
  obtain ⟨⟨tm', htm, hbar⟩, hgangs⟩ := h
  refine ⟨⟨tm', (State.flipBarrier_team?_other _ _ _ ho.symm).trans htm, hbar⟩, fun id g hg ht => ?_⟩
  obtain ⟨g', hg', team', rest⟩ := hgangs id g hg ht
  refine ⟨g', ?_, team', rest⟩
  rw [State.flipBarrier_gang?, hg', Option.map_some, if_neg (fun he => ho (he.symm.trans team'))]

theorem State.advancedTo_foldl_flip (ns : List Nat) (h : s.advancedTo team tm f u) :
    s.advancedTo team tm (fun k => f k || decide (k ∈ ns)) (ns.foldl (fun acc n => acc.flipBarrier team n (tm.barrier n)) u) := by
  induction ns generalizing f u with
  | nil => simpa using h
  | cons n ns ih =>
    have := ih (State.advancedTo_flip h n)
    simpa only [List.mem_cons, Bool.decide_or, Bool.or_assoc, List.foldl_cons] using this

theorem State.advancedTo_foldl_flip_other (ns : List Nat) (h : s.advancedTo team tm f u) {other : Nat} (ho : other ≠ team)
    (t : Team) : s.advancedTo team tm f (ns.foldl (fun acc n => acc.flipBarrier other n (t.barrier n)) u) := by
  induction ns generalizing u with
  | nil => exact h
  | cons n ns ih => exact ih (State.advancedTo_flip_other h ho n _)

theorem Team.mem_complete {t : Team} {n : Nat} : n ∈ t.complete ↔ n < 16 ∧ (t.barrier n).complete = true := by
  simp [Team.complete]

/-- The teams listed, one after another: those that run have their complete barriers advanced. -/
theorem State.advancedTo_foldl_teams (l : List (Nat × Team)) (hl : ∀ e ∈ l, e.1 = team → e.2 = tm)
    (h : s.advancedTo team tm f u) : ∃ f' : Nat → Bool,
      s.advancedTo team tm f' (l.foldl (fun acc e => if e.2.status == .running then acc.flipComplete e.1 e.2 else acc) u) ∧
      ∀ n, f' n = (f n || decide (team ∈ l.map Prod.fst ∧ tm.status = .running ∧ n ∈ tm.complete)) := by
  induction l generalizing f u with
  | nil => exact ⟨f, h, fun n => by simp⟩
  | cons e l ih =>
    have hl' : ∀ x ∈ l, x.1 = team → x.2 = tm := fun x hx => hl x (List.mem_cons_of_mem _ hx)
    rw [List.foldl_cons]
    by_cases hteam : e.1 = team
    · have htm : e.2 = tm := hl e List.mem_cons_self hteam
      rw [hteam, htm]
      by_cases hrun : tm.status = .running
      · rw [if_pos (beq_iff_eq.2 hrun)]
        obtain ⟨f', hadv, hf'⟩ := ih hl' (State.advancedTo_foldl_flip tm.complete h)
        refine ⟨f', hadv, fun n => ?_⟩
        rw [hf' n]
        by_cases hmem : n ∈ tm.complete <;> simp [hmem, hrun, hteam]
      · rw [if_neg (by simpa using hrun)]
        obtain ⟨f', hadv, hf'⟩ := ih hl' h
        exact ⟨f', hadv, fun n => by rw [hf' n]; simp [hrun]⟩
    · have hstep : s.advancedTo team tm f (if e.2.status == .running then u.flipComplete e.1 e.2 else u) := by
        split
        · exact State.advancedTo_foldl_flip_other _ h hteam _
        · exact h
      obtain ⟨f', hadv, hf'⟩ := ih hl' hstep
      have hmem : team ∈ (e :: l).map Prod.fst ↔ team ∈ l.map Prod.fst := by
        simp only [List.map_cons, List.mem_cons, show ¬ team = e.1 from fun h => hteam h.symm, false_or]
      exact ⟨f', hadv, fun n => by rw [hf' n]; simp only [hmem]⟩

/-- The barriers of a running team that are complete have advanced, and no other (R321). -/
theorem State.advancedTo_updateBarriers (h : s.team? team = some tm) : ∃ f : Nat → Bool,
    s.advancedTo team tm f s.updateBarriers ∧ ∀ n < 16, f n = (tm.status == .running && (tm.barrier n).complete) := by
  obtain ⟨f, hadv, hf⟩ := State.advancedTo_foldl_teams (listed s.teams) (fun e he hid => by
    have := mem_listed he
    rw [hid] at this
    exact Option.some.inj (this.symm.trans h)) (State.advancedTo_refl h)
  have hmem : team ∈ (listed s.teams).map Prod.fst := List.mem_map.2 ⟨(team, tm), mem_listed_of_get h, rfl⟩
  refine ⟨f, hadv, fun n hn => ?_⟩
  rw [hf n]
  by_cases hrun : tm.status = .running <;> simp [hrun, hmem, Team.mem_complete, hn]

end

/-! ### The statement -/

theorem flipBarrier_advances {s : State} {team : Nat} (n : Nat) {tm : Team} (b : Barrier) (h : s.team? team = some tm) :
    (∃ tm', (s.flipBarrier team n b).team? team = some tm' ∧ (∀ k, k ≠ n → tm'.barrier k = tm.barrier k) ∧
      tm'.barrier n = b.flip) ∧
    (∀ id g, s.gang? id = some g → g.team = team → g.ended = false → ∃ g', (s.flipBarrier team n b).gang? id = some g' ∧
      g'.evpend = g.evpend ||| BitVec.ofNat 19 (2 ^ n) ∧
      (b.flip.mism = true → ∃ p, g'.posted = g.posted ++ [p] ∧ p.at_ = .barrier n ∧ p.cause = Cause.membership) ∧
      (b.flip.mism = false → g'.posted = g.posted)) ∧
    (∀ id g, s.gang? id = some g → g.team ≠ team → (s.flipBarrier team n b).gang? id = some g) := by
  refine ⟨⟨_, State.flipBarrier_team? h b, fun k hk => Team.barrier_putBarrier_other _ _ hk,
    Team.barrier_putBarrier_same _ _ _⟩, fun id g hg ht he => ?_, fun id g hg ht => ?_⟩
  · exact ⟨_, by rw [State.flipBarrier_gang?, hg, Option.map_some, if_pos ht], Gang.sawBarrier_of_live he n _⟩
  · rw [State.flipBarrier_gang?, hg, Option.map_some, if_neg ht]

/-- Settles O23: one barrier by what its advance does, the cycle by an invariant over the teams listed. -/
theorem barrierPhaseAdvancesOnCompletion : Obligations.BarrierPhaseAdvancesOnCompletion := by
  unfold Obligations.BarrierPhaseAdvancesOnCompletion
  refine ⟨fun s team n tm b h => ⟨?_, ?_, ?_, ?_, ?_⟩, fun s team n tm h hn => ?_⟩
  · rw [State.putBarrier_eq h]
    rfl
  · rw [State.putBarrier_eq h]
    exact ⟨_, State.team?_putTeam_same _ _ _, Team.barrier_putBarrier_same _ _ _,
      fun k hk => Team.barrier_putBarrier_other _ _ hk⟩
  · obtain ⟨⟨tm', htm, others, same⟩, -, -⟩ := flipBarrier_advances n b h
    exact ⟨tm', htm, others, same.trans b.flip_eq⟩
  · intro id g hg ht he _
    obtain ⟨-, seen, -⟩ := flipBarrier_advances n b h
    obtain ⟨g', hg', event, fault, noFault⟩ := seen id g hg ht he
    exact ⟨g', hg', event, fun hf => fault (b.flip_mism.trans (decide_eq_true hf)),
      fun hf => noFault (b.flip_mism.trans (decide_eq_false hf))⟩
  · exact (flipBarrier_advances n b h).2.2
  · obtain ⟨f, ⟨⟨tm', htm, hbar⟩, hgangs⟩, hf⟩ := State.advancedTo_updateBarriers h
    refine ⟨tm', htm, fun hrun hdone => ?_, fun hnot => ?_, fun id g hg ht => ?_⟩
    · rw [hbar n, hf n hn, hrun, (Barrier.complete_iff _).2 hdone]
      exact (tm.barrier n).flip_eq
    · have hno : f n = false := by
        rw [hf n hn, Bool.and_eq_false_iff]
        exact hnot.imp (fun h => by simpa using h) (fun h => Bool.eq_false_iff.2 (fun hc => h ((Barrier.complete_iff _).1 hc)))
      rw [hbar n, hno]
      rfl
    · obtain ⟨g', hg', -, -, bits⟩ := hgangs id g hg ht
      refine ⟨g', hg', ?_⟩
      rw [bits n hn, hf n hn, Bool.or_eq_true, Bool.and_eq_true, Bool.and_eq_true, Barrier.complete_iff, beq_iff_eq,
        Bool.not_eq_true']
      tauto

end Sys2Proof.Machine
end

section
/-! PROOFS. Counters, events and the deadline (R326-R328, R332, R335). -/

namespace Sys2Proof.Machine

/-! ### Words that end and change their gang -/

/-- What a change of a gang does beside its registers and groups, it does to the gang that a word leaves. -/
theorem Ctx.went_next_modGang (c : Ctx) (s : State) {g : Gang} (hg : g.groups = c.g.groups) {f : Gang → Gang} {h : Gang}
    (change : ∀ r : Gang, r.rest = g.rest → (f r).rest = h.rest ∧ (f r).groups = r.groups ∧ ∀ e, (f r).settled e = r.settled e) :
    c.went s h (c.pc + 4) g.settled ((c.next s g).modGang c.id f) := by
  obtain ⟨rest, same, settled⟩ := change _ (Gang.rest_retire g c.slices (c.pc + 4) (Mr.cad c.mr))
  refine ⟨_, State.modGang_putGang _ _ _ _, rest, same.trans ?_, fun e => (settled e).trans (Gang.settled_retire _ _ _ _ e)⟩
  rw [Gang.groups_retire, hg]
  rfl

/-- The word changed parts of its gang that are neither registers nor groups. -/
theorem Ctx.went_next_other (c : Ctx) (s : State) {g h : Gang} (rest : g.rest = h.rest := by rfl)
    (hp : g.pend = c.g.pend := by rfl) (hv : g.v = c.g.v := by rfl) (hs : g.s = c.g.s := by rfl)
    (hq : g.p = c.g.p := by rfl) (hgr : g.groups = c.g.groups := by rfl) :
    c.went s h (c.pc + 4) c.g.settled (c.next s g) :=
  Ctx.went_congr rest (Gang.settled_congr hp hv hs hq) (went_next c s g hgr)

/-! ### KINC (R326) -/

/-- The token and the count that a KINC takes. -/
def Ctx.tokenTaken (c : Ctx) (k : Nat) : Gang :=
  { c.g.putCounter k (c.g.counter k + 1) with tokens := c.g.tokens ++ [(k, c.s.next)] }

theorem Ctx.tokenTaken_counter (c : Ctx) (k : Nat) : (c.tokenTaken k).counter k = c.g.counter k + 1 := by
  simp [Ctx.tokenTaken, Gang.counter, Gang.putCounter]

theorem Ctx.tokenTaken_tokens {c : Ctx} (ht : c.g.tokens = []) (k : Nat) : (c.tokenTaken k).tokens = [(k, c.s.next)] := by
  rw [Ctx.tokenTaken, ht]
  rfl

theorem Ctx.tokenTaken_settled (c : Ctx) (k : Nat) (e : RegElem) : (c.tokenTaken k).settled e = c.g.settled e := by
  refine Gang.settled_congr ?_ ?_ ?_ ?_ e <;> rfl

theorem exec_kinc {c : Ctx} (hs : c.s.issuing = some c) (n : ByteField) :
    exec (.kinc n) c.s = c.run (c.onceStop (decide (n.toNat ≤ 7)) true true [] [] [] [])
      (c.onceDo (if c.g.counter n.toNat = 4095 then c.waitHere
        else (c.next { c.s with next := c.s.next + 1 } (c.tokenTaken n.toNat)).sweepTokens c.id)) := withIssue_some hs _

/-- What holds a token up depends on the gang by its team and core alone. -/
theorem State.countedBefore_congr (s : State) (id : Nat) {g h : Gang} (team : g.team = h.team) (core : g.core = h.core) (n : Nat) :
    s.countedBefore id g n = s.countedBefore id h n := by
  simp only [State.countedBefore, State.opsOf, team, core]

theorem Ctx.sweepTokens_next (c : Ctx) (s : State) (g : Gang) :
    (c.next s g).sweepTokens c.id =
      (c.next s g).modGang c.id (fun r => sweepGo (s.countedBefore c.id g) r.tokens r) := by
  have hgang : (c.next s g).gang? c.id = some (g.retire c.slices (c.pc + 4) (Mr.cad c.mr)) := State.gang?_putGang_same _ _ _
  have hrest := Gang.rest_retire g c.slices (c.pc + 4) (Mr.cad c.mr)
  rw [State.sweepTokens, State.modGang_some hgang, State.modGang_some hgang]
  congr 2
  funext n
  exact State.countedBefore_congr s c.id (congrArg Gang.team hrest :) (congrArg Gang.core hrest :) n

/-- A token that something holds up stays. -/
theorem Ctx.went_kinc_held (c : Ctx) (k : Nat) (ht : c.g.tokens = [])
    (held : c.s.countedBefore c.id c.g c.s.next = true) :
    c.went { c.s with next := c.s.next + 1 } (c.tokenTaken k) (c.pc + 4) c.g.settled
      ((c.next { c.s with next := c.s.next + 1 } (c.tokenTaken k)).sweepTokens c.id) := by
  rw [Ctx.sweepTokens_next]
  refine Ctx.went_congr rfl (c.tokenTaken_settled k) (Ctx.went_next_modGang c _ (g := c.tokenTaken k) rfl fun r rest => ?_)
  have tokens : r.tokens = [(k, c.s.next)] := (congrArg Gang.tokens rest :).trans (Ctx.tokenTaken_tokens ht k)
  have held' : State.countedBefore { c.s with next := c.s.next + 1 } c.id (c.tokenTaken k) c.s.next = true := held
  rw [tokens, sweepGo, if_pos held']
  refine ⟨?_, rfl, Gang.settled_congr rfl rfl rfl rfl⟩
  rw [← tokens]
  exact rest

/-- A token that nothing holds up is over at once: the counter is as it was. -/
theorem Ctx.kinc_over (c : Ctx) (k : Nat) (ht : c.g.tokens = [])
    (free : c.s.countedBefore c.id c.g c.s.next = false) :
    ∃ g', ((c.next { c.s with next := c.s.next + 1 } (c.tokenTaken k)).sweepTokens c.id).gang? c.id = some g' ∧
      g'.counter k = c.g.counter k ∧ g'.tokens = [] ∧ g'.groups = c.groupsAt (c.pc + 4) := by
  obtain ⟨r, hr⟩ : ∃ r, r = (c.tokenTaken k).retire c.slices (c.pc + 4) (Mr.cad c.mr) := ⟨_, rfl⟩
  have rest : r.rest = (c.tokenTaken k).rest := by rw [hr]; exact Gang.rest_retire _ _ _ _
  have tokens : r.tokens = [(k, c.s.next)] := (congrArg Gang.tokens rest :).trans (Ctx.tokenTaken_tokens ht k)
  have counts : r.k = Tbl.set 0 c.g.k k (c.g.counter k + 1) := (congrArg Gang.k rest :)
  have free' : State.countedBefore { c.s with next := c.s.next + 1 } c.id (c.tokenTaken k) c.s.next = false := free
  refine ⟨{ r.putCounter k (r.counter k - 1) with tokens := [] }, ?_, ?_, rfl, ?_⟩
  · rw [Ctx.sweepTokens_next, Ctx.next, Ctx.nextAt, ← hr, State.modGang_putGang, State.gang?_putGang_same, tokens, sweepGo, free']
    rfl
  · show Tbl.get 0 (Tbl.set 0 r.k k (r.counter k - 1)) k = _
    rw [Tbl.get_set_same, Gang.counter, counts, Tbl.get_set_same, Nat.add_sub_cancel]
  · show r.groups = _
    rw [hr]
    exact Gang.groups_retire _ _ _ _

/-! ### The other words -/

theorem exec_kwaitle {c : Ctx} (hs : c.s.issuing = some c) (n : ByteField) (a : RegField) :
    exec (.kwaitle n a) c.s = c.run (c.oncePosted (decide (n.toNat ≤ 7) && scalarOk a) ((c.readS a).toNat / 4096 == 0)
        (regsOf a false) [] [] (Posted.ofCounter n.toNat))
      (c.onceDo (if c.g.counter n.toNat ≤ (c.readS a).toNat then c.skip else c.park (.kwaitle n.toNat (c.readS a).toNat))) :=
  withIssue_some hs _

theorem exec_krd {c : Ctx} (hs : c.s.issuing = some c) (d : RegField) (n : ByteField) :
    exec (.krd d n) c.s = c.run (c.oncePosted (decide (n.toNat ≤ 7) && scalarDst d) true [] [] (regsOf d false)
        (Posted.ofCounter n.toNat))
      (c.scalarResult d (BitVec.ofNat 32 (c.g.counter n.toNat))) := withIssue_some hs _

theorem exec_evget {c : Ctx} (hs : c.s.issuing = some c) (d : RegField) :
    exec (.evget d) c.s = c.run (c.onceStop (scalarDst d) true true [] [] [] (regsOf d false))
      (c.scalarResult d c.g.eventWord) := withIssue_some hs _

theorem exec_evmask {c : Ctx} (hs : c.s.issuing = some c) (a : RegField) :
    exec (.evmask a) c.s = c.run (c.onceStop (scalarOk a) ((c.readS a).toNat / 2 ^ 27 == 0) true (regsOf a false) [] [] [])
      (c.onceDo (c.next c.s { c.g with evmask := (c.readS a).extractLsb' 0 27 })) := withIssue_some hs _

theorem exec_evclr {c : Ctx} (hs : c.s.issuing = some c) (a : RegField) :
    exec (.evclr a) c.s = c.run (c.onceStop (scalarOk a) ((c.readS a).toNat / 2 ^ 19 == 0) true (regsOf a false) [] [] [])
      (c.onceDo (c.next c.s { c.g with evpend := c.g.evpend &&& ~~~((c.readS a).extractLsb' 0 19) })) := withIssue_some hs _

theorem exec_deadl {c : Ctx} (hs : c.s.issuing = some c) (a : RegField) :
    exec (.deadl a) c.s = c.run (c.onceStop (scalarOk a) true true (regsOf a false) [] [] [])
      (c.onceDo (c.next c.s { (if c.g.deadline = 1 ∧ c.readS a ≠ 0 then c.g.latch 18 else c.g) with
        deadline := (c.readS a).toNat })) := withIssue_some hs _

/-- A scalar result under once() is one element written. -/
theorem Ctx.wroteAt_scalarResult {c : Ctx} (on : c.once = true) (d : RegField) (v : Word) :
    c.wroteAt [(.s (d.toNat - 0xC0), v)] (c.scalarResult d v) := by
  rw [Ctx.scalarResult, if_pos on]
  exact c.wroteAt_writeNow _ v

/-- The deadline replaced, and the event of an old one that ends in the same cycle. -/
theorem deadline_replaced (g : Gang) (x : Word) :
    ({ (if g.deadline = 1 ∧ x ≠ 0 then g.latch 18 else g) with deadline := x.toNat } : Gang) =
      { g with
        deadline := x.toNat
        evpend := if g.deadline = 1 ∧ x ≠ 0 then g.evpend ||| BitVec.ofNat 19 (2 ^ 18) else g.evpend } := by
  split <;> rfl

/-- Settles O25: each word by the end of its meaning; KINC by what becomes of its token. -/
theorem countersEventsAndDeadline : Obligations.CountersEventsAndDeadline := by
  unfold Obligations.CountersEventsAndDeadline
  intro s c n a d hs on
  obtain rfl := State.issuing_state hs
  refine ⟨fun hok hroom ht => ⟨fun held => ?_, fun free => ?_⟩, fun hok => ⟨fun low => ?_, fun high => ?_⟩, fun hok => ?_,
    fun hok => ?_, fun hok => ?_, fun hok => ?_, fun hok => ?_⟩
  · refine gives_run (exec_kinc hs n) hok ?_
    rw [Ctx.onceDo_true on, if_neg (Nat.ne_of_lt hroom)]
    refine ⟨_, c.went_kinc_held n.toNat ht held, c.tokenTaken_counter _, ?_, ?_⟩
    · exact Ctx.tokenTaken_tokens ht _
    · rw [← ht]
      rfl
  · refine gives_run (exec_kinc hs n) hok ?_
    rw [Ctx.onceDo_true on, if_neg (Nat.ne_of_lt hroom)]
    exact c.kinc_over n.toNat ht free
  · refine gives_run (exec_kwaitle hs n a) hok ?_
    rw [Ctx.onceDo_true on, if_pos low]
    exact c.wrote_skip
  · refine gives_run (exec_kwaitle hs n a) hok ?_
    rw [Ctx.onceDo_true on, if_neg (Nat.not_le.2 high)]
    exact Ctx.parked_park _ (State.issuing_gang hs)
  · exact gives_run (exec_krd hs d n) hok (Ctx.wroteAt_scalarResult on d _)
  · exact gives_run (exec_evget hs d) hok (Ctx.wroteAt_scalarResult on d _)
  · refine gives_run (exec_evmask hs a) hok ?_
    rw [Ctx.onceDo_true on]
    exact c.went_next_other _
  · refine gives_run (exec_evclr hs a) hok ?_
    rw [Ctx.onceDo_true on]
    exact c.went_next_other _
  · refine gives_run (exec_deadl hs a) hok ?_
    rw [Ctx.onceDo_true on, deadline_replaced]
    exact c.went_next_other _

end Sys2Proof.Machine
end

section
/-! PROOFS. Mailboxes (R329, R330). -/

namespace Sys2Proof.Machine

/-! ### MBSEND (R329) -/

theorem exec_mbsend {c : Ctx} {tm : Team} (hs : c.s.issuing = some c) (ht : c.team = some tm) (n : ByteField) (a b : RegField) :
    exec (.mbsend n a b) c.s = c.run
      (c.onceStop (decide (n.toNat ≤ 7) && scalarOk a && pairOk b)
        ((c.readS a).toNat / 128 == 0 && decide ((c.readS a).toNat < tm.gangs)) true
        (regsOf a false) (regsOf b true) [] [] <|> (if c.once then c.releaseFirst else none))
      (c.onceDo (match c.s.member c.g.team (c.readS a).toNat with
        | none => c.skip
        | some (id, g) =>
          if (g.mailbox n.toNat).isNone && !c.s.sendersWait c.g.team (c.readS a).toNat n.toNat then
            c.skip.modGang id (fun g => g.putMailbox n.toNat (some (BitVec.ofNat 64 (c.spair (sreg b)))))
          else c.park (.mbsend (c.readS a).toNat n.toNat (BitVec.ofNat 64 (c.spair (sreg b)))))) := by
  refine (withIssue_some hs _).trans ?_
  rw [ht] <;> rfl

/-- The checks of a MBSEND that the gang's loads do not hold up. -/
theorem mbsend_checks {c : Ctx} {st : Option Stop} (h : st = none) (loads : c.s.loadsOut c.id = false)
    (pads : c.s.padsOut c.id = false) : (st <|> (if c.once then c.releaseFirst else none)) = none := by
  rw [h, Ctx.releaseFirst, loads, pads]
  cases c.once <;> rfl

/-- The gang that a MBSEND names stands in the state under its number. -/
theorem State.gang?_of_member {s : State} {team x id : Nat} {g : Gang} (h : s.member team x = some (id, g)) :
    s.gang? id = some g :=
  mem_listed (List.mem_filter.1 (List.mem_of_find?_eq_some h)).1

/-- The gang of c after its word, and any gang whose mailbox the word fills. -/
theorem Ctx.filled_mailbox (c : Ctx) {id m : Nat} {g : Gang} (hc : c.s.gang? c.id = some c.g) (hg : c.s.gang? id = some g)
    (v : DWord) :
    ∃ g' h', (c.skip.modGang id (fun g => g.putMailbox m (some v))).gang? id = some g' ∧ g'.mailbox m = some v ∧
      (∀ k, k ≠ m → g'.mailbox k = g.mailbox k) ∧
      (c.skip.modGang id (fun g => g.putMailbox m (some v))).gang? c.id = some h' ∧ h'.groups = c.groupsAt (c.pc + 4) ∧
      (∀ j, j ≠ id → j ≠ c.id → (c.skip.modGang id (fun g => g.putMailbox m (some v))).gang? j = c.s.gang? j) := by
  obtain ⟨r, hskip, rest, groups, -⟩ := c.wrote_skip
  have own : c.skip.gang? c.id = some r := by rw [hskip, State.gang?_putGang_same]
  have others : ∀ j, j ≠ c.id → c.skip.gang? j = c.s.gang? j := fun j hj => by rw [hskip, State.gang?_putGang_other _ _ hj]
  have frame : ∀ j, j ≠ id → j ≠ c.id → (c.skip.modGang id (fun g => g.putMailbox m (some v))).gang? j = c.s.gang? j :=
    fun j hj hne => by rw [State.gang?_modGang, if_neg hj, others j hne]
  by_cases hid : id = c.id
  · subst hid
    obtain rfl : c.g = g := Option.some.inj (hc.symm.trans hg)
    have after : (c.skip.modGang c.id (fun g => g.putMailbox m (some v))).gang? c.id = some (r.putMailbox m (some v)) := by
      rw [State.gang?_modGang, if_pos rfl, own, Option.map_some]
    refine ⟨_, _, after, r.mailbox_putMailbox_same m _, fun k hk => ?_, after, groups, frame⟩
    rw [Gang.mailbox_putMailbox_other _ _ hk, Gang.mailbox, show r.mbox = c.g.mbox from (congrArg Gang.mbox rest :), Gang.mailbox]
  · refine ⟨g.putMailbox m (some v), r, ?_, g.mailbox_putMailbox_same m _, fun k hk => g.mailbox_putMailbox_other _ hk, ?_, groups,
      frame⟩
    · rw [State.gang?_modGang, if_pos rfl, others _ hid, hg, Option.map_some]
    · rw [State.gang?_modGang, if_neg (Ne.symm hid), own]

/-! ### MBRECV (R330) -/

theorem exec_mbrecv {c : Ctx} (hs : c.s.issuing = some c) (d : RegField) (n : ByteField) :
    exec (.mbrecv d n) c.s = c.run (c.onceStop (decide (n.toNat ≤ 7) && pairOk d) true true [] [] [] (regsOf d true))
      (c.onceDo (match c.g.mailbox n.toNat with
        | some v => c.next c.s ((c.g.putMailbox n.toNat none).putPair (sreg d) v)
        | none => c.park (.mbrecv (sreg d) n.toNat))) := withIssue_some hs _

/-- What the elements read as once a pair of scalar registers has been written. -/
theorem Gang.settled_putPair (g : Gang) (d : Nat) (v : DWord) (e : RegElem) : (g.putPair d v).settled e =
    if e = .s d then v.extractLsb' 0 32 else if e = .s (d + 1) then v.extractLsb' 32 32 else g.settled e := by
  rw [Gang.putPair, Gang.settled_writeNow]
  by_cases low : e = .s d
  · subst low
    simp [overwritten, RegElem.holds]
  · by_cases high : e = .s (d + 1)
    · subst high
      simp [overwritten, RegElem.holds]
    · simp [overwritten, low, high, eq_comm (b := e)]

theorem Ctx.went_putPair (c : Ctx) {g : Gang} (hg : g.groups = c.g.groups) (hset : ∀ e, g.settled e = c.g.settled e) (d : Nat)
    (v : DWord) :
    c.went c.s g (c.pc + 4) (fun e => if e = .s d then v.extractLsb' 0 32
      else if e = .s (d + 1) then v.extractLsb' 32 32 else c.g.settled e) (c.next c.s (g.putPair d v)) := by
  refine Ctx.went_congr (Gang.rest_writeNow _ _) (fun e => ?_) (went_next c c.s _ ((Gang.groups_writeNow _ _).trans hg))
  rw [← hset e]
  exact g.settled_putPair d v e

/-- Settles O26: MBSEND by the gang that it names, MBRECV by the mailbox. -/
theorem mailboxesPassOneValue : Obligations.MailboxesPassOneValue := by
  unfold Obligations.MailboxesPassOneValue
  intro s c tm n a b d hs on ht x v
  obtain rfl := State.issuing_state hs
  have hc := State.issuing_gang hs
  refine ⟨fun hok loads pads => ⟨fun gone => ?_, fun id g named waits => ?_, fun id g named room first => ?_⟩,
    fun hok => ⟨fun empty => ?_, fun u full => ?_⟩⟩
  · refine gives_run (exec_mbsend hs ht n a b) (mbsend_checks hok loads pads) ?_
    rw [Ctx.onceDo_true on, show c.s.member c.g.team (c.readS a).toNat = none from gone]
    exact c.wrote_skip
  · refine gives_run (exec_mbsend hs ht n a b) (mbsend_checks hok loads pads) ?_
    rw [Ctx.onceDo_true on, show c.s.member c.g.team (c.readS a).toNat = some (id, g) from named]
    dsimp only
    rw [if_neg]
    · exact Ctx.parked_park _ hc
    · rw [Bool.and_eq_true, Option.isNone_iff_eq_none, Bool.not_eq_true']
      rintro ⟨empty, none⟩
      exact waits.elim (fun h => h empty) (fun h => Bool.noConfusion (none.symm.trans h))
  · refine gives_run (exec_mbsend hs ht n a b) (mbsend_checks hok loads pads) ?_
    rw [Ctx.onceDo_true on, show c.s.member c.g.team (c.readS a).toNat = some (id, g) from named]
    dsimp only
    rw [if_pos]
    · exact c.filled_mailbox hc (State.gang?_of_member named) v
    · rw [room, show c.s.sendersWait c.g.team (c.readS a).toNat n.toNat = false from first]
      rfl
  · refine gives_run (exec_mbrecv hs d n) hok ?_
    rw [Ctx.onceDo_true on, empty]
    exact Ctx.parked_park _ hc
  · refine gives_run (exec_mbrecv hs d n) hok ?_
    rw [Ctx.onceDo_true on, full]
    refine ⟨c.g.putMailbox n.toNat none, c.went_putPair (g := c.g.putMailbox n.toNat none) rfl (fun e => ?_) (sreg d) u,
      c.g.mailbox_putMailbox_same _ _, fun m hm => c.g.mailbox_putMailbox_other _ hm, rfl⟩
    refine Gang.settled_congr ?_ ?_ ?_ ?_ e <;> rfl

end Sys2Proof.Machine
end

section
/-! PROOFS. Vault words in a state that no run reaches: a request on its way already has the number that the next word's
requests are to share. The word then writes its own place into that request, and the statements keep every earlier one. -/

namespace Sys2Proof.Machine

/-- A gang no lane of which is enabled. -/
def idleGang : Gang := { aGang with emask := 0 }

/-- A request whose batch is the number given out next. -/
def strayRequest : VaultReq := ⟨0, (machineOf idleGang).next, .iod, 4, 0, 8, .read, clock0, 0, [], [], 0, 0⟩

/-- The machine in which that request is on its way. -/
def strayMachine : State := { machineOf idleGang with vreqs := [strayRequest] }

def strayCtx : Ctx := ⟨strayMachine, 3, idleGang, { slices := 0xFF, pc := 0x10000, park := none, since := 0 }⟩

theorem strayMachine_issuing : strayMachine.issuing = some strayCtx := by decide +kernel

/-- The request stands unchanged after a word. -/
def keepsStray (i : Instr) : Bool := match exec i strayMachine with
  | .next t => t.vreqs.take 1 == [strayRequest]
  | _ => true

/-- Every word that puts vault requests on their way keeps the earlier ones. -/
theorem keepsStray_of_requested {i : Instr} {lanes : List Nat} {pa : Nat → Nat} {kind : Nat → VaultKind}
    {dst : Nat → List RegElem} (h : Gives i strayMachine (strayCtx.requested lanes pa kind dst)) : keepsStray i = true := by
  obtain ⟨t, ht, -, hkept, -⟩ := h
  have htake : t.vreqs.take 1 = [strayRequest] := hkept
  rw [keepsStray, ht]
  simp [htake]

theorem strayCtx_reaches {lanes : List Nat} (h : lanes = []) (a b : RegField) (need : Need) : strayCtx.reaches lanes a b need := by
  subst h
  exact fun l hl => absurd hl List.not_mem_nil

/-- Refutes O30: a LDV in no lane writes its own place into a request that has the number of its batch. -/
theorem not_vaultAccessesAreRequested : ¬ Obligations.VaultAccessesAreRequested := by
  unfold Obligations.VaultAccessesAreRequested
  rintro ⟨hload, -⟩
  obtain ⟨hldv, -⟩ := hload strayMachine strayCtx 0 0xC0 0xC0 strayMachine_issuing
    (strayCtx_reaches (by decide +kernel) _ _ _)
  have hkept := keepsStray_of_requested (hldv (by decide +kernel))
  exact absurd hkept (by decide +kernel)

/-- Refutes O31: so does an ATOM.add to the vault. -/
theorem not_atomicsReadModifyWrite : ¬ Obligations.AtomicsReadModifyWrite := by
  unfold Obligations.AtomicsReadModifyWrite
  rintro ⟨hatom, -⟩
  obtain ⟨-, hvault⟩ := hatom strayMachine strayCtx 0 0xC0 0xC0 strayMachine_issuing (0, Instr.atomAdd) List.mem_cons_self
    (by decide +kernel) (by decide +kernel)
  have hkept := keepsStray_of_requested (hvault (by decide) (by decide) (by decide +kernel) (by decide) (by decide +kernel)
    (by decide +kernel) (strayCtx_reaches (by decide +kernel) _ _ _) (by decide +kernel))
  exact absurd hkept (by decide +kernel)

end Sys2Proof.Machine
end

section
/-! PROOFS. Scratchpad accesses: what LD, LDP, ST and STP put on their way, and what an access does when it is performed (R192-R200,
R260, R261). -/

namespace Sys2Proof.Machine

/-! ### Results that a gang comes to await -/

/-- In u the gang of c awaits results in the elements es beside those it awaited; every other gang is as it was. -/
def Ctx.awaiting (c : Ctx) (es : List RegElem) (u : State) : Prop :=
  (∀ j, j ≠ c.id → u.gang? j = c.s.gang? j) ∧
  ∃ aw, u.gang? c.id = some { c.g with awaits := aw } ∧ aw.map Await.dest = c.g.awaits.map Await.dest ++ es

section
variable {c : Ctx} {es : List RegElem} {u : State}

theorem Ctx.awaiting_refl (hg : c.s.gang? c.id = some c.g) : c.awaiting [] c.s :=
  ⟨fun _ _ => rfl, c.g.awaits, hg, (List.append_nil _).symm⟩

theorem Ctx.awaiting_of_gangs (h : c.awaiting es u) {w : State} (hw : w.gangs = u.gangs) : c.awaiting es w := by
  obtain ⟨others, aw, own, dests⟩ := h
  refine ⟨fun j hj => ?_, aw, ?_, dests⟩
  · rw [State.gang?_of_gangs_eq hw, others j hj]
  · rw [State.gang?_of_gangs_eq hw, own]

theorem Ctx.awaiting_await (h : c.awaiting es u) (dst : List RegElem) : c.awaiting (es ++ dst) (u.await c.id dst) := by
  obtain ⟨others, aw, own, dests⟩ := h
  refine ⟨fun j hj => ?_, aw ++ dst.map (fun e => ⟨e, .vault u.next⟩), ?_, ?_⟩
  · rw [State.await, State.gang?_modGang, if_neg hj, others j hj]
  · rw [State.await, State.gang?_modGang, if_pos rfl, own, Option.map_some]
  · simp [dests, Function.comp_def]

/-- The end of a word whose gang awaits results. -/
theorem Ctx.nextIn_awaiting (h : c.awaiting es u) :
    c.nextIn u = { u with gangs := (c.nextIn u).gangs } ∧ (∀ j, j ≠ c.id → (c.nextIn u).gang? j = c.s.gang? j) ∧
    ∃ g', (c.nextIn u).gang? c.id = some g' ∧ g'.groups = c.groupsAt (c.pc + 4) ∧ (∀ e, g'.settled e = c.g.settled e) ∧
      g'.rest = { c.g.rest with awaits := g'.awaits } ∧
      g'.awaits.map Await.dest = c.g.awaits.map Await.dest ++ es := by
  obtain ⟨others, aw, own, dests⟩ := h
  have hnext : c.nextIn u = c.next u { c.g with awaits := aw } := by rw [Ctx.nextIn, own]
  have rest := Gang.rest_retire { c.g with awaits := aw } c.slices (c.pc + 4) (Mr.cad c.mr)
  rw [hnext]
  refine ⟨rfl, fun j hj => (State.gang?_putGang_other _ _ hj).trans (others j hj), _, State.gang?_putGang_same _ _ _,
    Gang.groups_retire _ _ _ _, fun e => ?_, ?_, ?_⟩
  · rw [Gang.settled_retire]
    exact Gang.settled_congr (by rfl) (by rfl) (by rfl) (by rfl) e
  · have kept : (Gang.retire { c.g with awaits := aw } c.slices (c.pc + 4) (Mr.cad c.mr)).awaits = aw :=
      (congrArg Gang.awaits rest :)
    rw [kept]
    exact rest
  · have kept : (Gang.retire { c.g with awaits := aw } c.slices (c.pc + 4) (Mr.cad c.mr)).awaits = aw :=
      (congrArg Gang.awaits rest :)
    rw [kept, dests]

end

/-! ### Accesses put on their way -/

section
variable (c : Ctx) (own : Bool) (kind : Nat → VaultKind) (at_ : Nat → Nat × Nat) (dst : Nat → List RegElem)

/-- The access with number n that a lane of the word of c sends. -/
def Ctx.padReqOf (n : Nat) (k : VaultKind) (x : Nat × Nat) (es : List RegElem) : PadReq :=
  ⟨n, c.id, c.g.team, x.1, own, x.2, c.size, k, BitVec.ofNat 4 c.etype, es⟩

/-- In u one access of each of the lanes is on its way, behind those that were. -/
def Ctx.padSent (lanes : List Nat) (u : State) : Prop :=
  u = { c.s with gangs := u.gangs, preqs := u.preqs, next := u.next } ∧ c.awaiting (lanes.flatMap dst) u ∧
  ∃ rs, u.preqs = c.s.preqs ++ rs ∧
    rs.map (fun r => (r.gang, r.team, r.core, r.own, r.off, r.size, r.kind, r.etype, r.dst)) =
      lanes.map (fun l => (c.id, c.g.team, (at_ l).1, own, (at_ l).2, c.size, kind l, BitVec.ofNat 4 c.etype, dst l))

variable {c own kind at_ dst}

theorem Ctx.padSent_sendPad {lanes : List Nat} {u : State} (h : c.padSent own kind at_ dst lanes u) (l : Nat) :
    c.padSent own kind at_ dst (lanes ++ [l]) (c.sendPad own (kind l) (dst l) (at_ l) u) := by
  obtain ⟨frame, waits, rs, preqs, hrs⟩ := h
  have awaited := Ctx.awaiting_await waits (dst l)
  obtain ⟨gs, hgs⟩ : ∃ gs, u.await c.id (dst l) = { u with gangs := gs } := by
    unfold State.await State.modGang
    split
    · exact ⟨_, rfl⟩
    · exact ⟨u.gangs, rfl⟩
  have hsent : c.sendPad own (kind l) (dst l) (at_ l) u = { u with
      gangs := (u.await c.id (dst l)).gangs
      next := u.next + 1
      preqs := u.preqs ++ [c.padReqOf own u.next (kind l) (at_ l) (dst l)] } := by
    rw [Ctx.sendPad, hgs]
    rfl
  rw [hsent]
  refine ⟨?_, ?_, rs ++ [c.padReqOf own u.next (kind l) (at_ l) (dst l)], ?_, ?_⟩
  · exact (congrArg (fun v : State => { v with
      gangs := (u.await c.id (dst l)).gangs
      next := u.next + 1
      preqs := u.preqs ++ [c.padReqOf own u.next (kind l) (at_ l) (dst l)] })
      frame :)
  · rw [List.flatMap_append, List.flatMap_singleton]
    exact Ctx.awaiting_of_gangs awaited rfl
  · rw [preqs, List.append_assoc]
  · rw [List.map_append, List.map_append, hrs]
    rfl

theorem Ctx.padSent_foldl (lanes done : List Nat) {u : State} (h : c.padSent own kind at_ dst done u) :
    c.padSent own kind at_ dst (done ++ lanes) (lanes.foldl (fun s l => c.sendPad own (kind l) (dst l) (at_ l) s) u) := by
  induction lanes generalizing done u with
  | nil => simpa using h
  | cons l lanes ih => simpa using ih (done ++ [l]) (Ctx.padSent_sendPad h l)

/-- A word that sends one access of each lane, and ends. -/
theorem Ctx.padRequested_nextIn (hg : c.s.gang? c.id = some c.g) (lanes : List Nat) :
    c.padRequested own lanes kind at_ dst
      (c.nextIn (lanes.foldl (fun s l => c.sendPad own (kind l) (dst l) (at_ l) s) c.s)) := by
  have start : c.padSent own kind at_ dst [] c.s := ⟨rfl, Ctx.awaiting_refl hg, [], (List.append_nil _).symm, rfl⟩
  have sent := Ctx.padSent_foldl lanes [] start
  rw [List.nil_append] at sent
  obtain ⟨frame, waits, rs, preqs, hrs⟩ := sent
  obtain ⟨hnext, others, gang⟩ := Ctx.nextIn_awaiting waits
  generalize lanes.foldl (fun s l => c.sendPad own (kind l) (dst l) (at_ l) s) c.s = u at *
  have hpreqs : (c.nextIn u).preqs = c.s.preqs ++ rs := by
    rw [hnext]
    exact preqs
  refine ⟨?_, ?_, ?_, others, gang⟩
  · have framed := (congrArg (fun v : State => { v with gangs := (c.nextIn u).gangs }) frame :)
    have same : (c.nextIn u).preqs = u.preqs ∧ (c.nextIn u).next = u.next := by
      rw [hnext]
      exact ⟨rfl, rfl⟩
    rw [same.1, same.2]
    exact hnext.trans framed
  · rw [hpreqs, List.take_left]
  · rw [hpreqs, List.drop_left, hrs]

end

/-! ### LD, LDP, ST and STP -/

theorem exec_ld {c : Ctx} (hs : c.s.issuing = some c) (d a : RegField) (imm : ByteField) :
    exec (.ld d a imm) c.s = c.run (c.loadStop (isVreg d || !isVec a) d false [(a, false)] [])
      (c.padLoad true (c.memLanes (isVreg d)) d (fun l => (c.g.core, c.padAt a imm l))) := withIssue_some hs _

theorem exec_ldp {c : Ctx} (hs : c.s.issuing = some c) (d a b : RegField) :
    exec (.ldp d a b) c.s = c.run (c.loadStop (isVreg d || !(isVec a || isVec b)) d false [(a, isWide c.etype)] [(b, false)])
      (c.padLoad false (c.memLanes (isVreg d)) d (c.peerAt a b)) := withIssue_some hs _

theorem exec_st {c : Ctx} (hs : c.s.issuing = some c) (d a : RegField) (imm : ByteField) :
    exec (.st d a imm) c.s = c.run (c.storeStop true d [(a, false)] [])
      (c.padStore true (c.memLanes (isVec d || isVec a)) d (fun l => (c.g.core, c.padAt a imm l))) := withIssue_some hs _

theorem exec_stp {c : Ctx} (hs : c.s.issuing = some c) (d a b : RegField) :
    exec (.stp d a b) c.s = c.run (c.storeStop true d [(a, isWide c.etype)] [(b, false)])
      (c.padStore false (c.memLanes (isVec d || isVec a || isVec b)) d (c.peerAt a b)) := withIssue_some hs _

/-! ### An access that is performed -/

/-- An access may be performed once no earlier one of its gang to its core keeps its order with it (R196, R199, R200). -/
theorem State.padReady_iff (s : State) (r : PadReq) : s.padReady r = true ↔
    ∀ w ∈ s.preqs.takeWhile (fun w => w.id != r.id), w.gang = r.gang → w.core = r.core →
      w.own ≠ r.own ∧ (r.off + r.size ≤ w.off ∨ w.off + w.size ≤ r.off) := by
  simp only [State.padReady, PadReq.keeps, Bool.not_eq_true', List.any_eq_false, Bool.and_eq_true, Bool.or_eq_true, beq_iff_eq,
    decide_eq_true_eq]
  refine forall₂_congr fun w _ => ⟨fun h hg hc => ⟨fun ho => h ⟨⟨hg, hc⟩, .inl ho⟩, ?_⟩, fun h => ?_⟩
  · have := fun hover => h ⟨⟨hg, hc⟩, .inr hover⟩
    omega
  · rintro ⟨⟨hg, hc⟩, ho⟩
    obtain ⟨hne, hoff⟩ := h hg hc
    rcases ho with ho | ho
    · exact hne ho
    · omega

section
variable {s : State} {n : Nat} {r : PadReq} (hf : s.preqs.find? (fun q => q.id == n) = some r)
include hf

theorem exec_pad_found : execPad n s = whenever (s.padReady r) s (s.performPad r) := by
  rw [execPad, hf]

theorem padReq_id : r.id = n := by simpa using List.find?_some hf

end

/-- The gang of an access once its result is there: it awaits it no longer, and its elements hold it (R75). -/
def PadReq.answered (r : PadReq) (old : Nat) (g : Gang) : Gang :=
  Gang.writeNow { g with awaits := g.awaits.filter (fun a => a.kind != AwaitKind.vault r.id) } (elemWords r.etype.toNat old r.dst)

theorem State.performPad_eq (s : State) (r : PadReq) : s.performPad r =
    let s1 : State := { s with preqs := s.preqs.filter (fun w => w.id != r.id) }
    let old := s.padRead r.team r.core r.off r.size
    let s2 := match r.stores old with
      | some v => s1.padWrite r.team r.core r.off r.size v
      | none => s1
    if r.dst.isEmpty then s2 else s2.modGang r.gang (r.answered old) := rfl

theorem PadReq.answered_awaits (r : PadReq) (old : Nat) (g : Gang) :
    ∀ x ∈ (r.answered old g).awaits, x.kind ≠ .vault r.id := by
  have hrest := Gang.rest_writeNow { g with awaits := g.awaits.filter (fun a => a.kind != AwaitKind.vault r.id) }
    (elemWords r.etype.toNat old r.dst)
  have hawaits : (r.answered old g).awaits = g.awaits.filter (fun a => a.kind != AwaitKind.vault r.id) :=
    (congrArg Gang.awaits hrest :)
  rw [hawaits]
  exact fun x hx => by simpa using (List.mem_filter.1 hx).2

theorem RegElem.holds_of_not_pred {e : RegElem} (h : ∀ i j, e ≠ .p i j) (x : Word) : e.holds x = x := by
  cases e with
  | p i j => exact absurd rfl (h i j)
  | _ => rfl

/-- The words of a loaded value: one element takes its low word, a second its high word, and no other element any. -/
theorem overwritten_elemWords (t v : Nat) (dst : List RegElem) (old : RegElem → Word) :
    (∀ e, dst = [e] → (∀ i j, e ≠ .p i j) → overwritten (elemWords t v dst) old e = BitVec.ofNat 32 (elemOut t v)) ∧
    (∀ e f, dst = [e, f] → e ≠ f → (∀ i j, e ≠ .p i j) → (∀ i j, f ≠ .p i j) →
      overwritten (elemWords t v dst) old e = BitVec.ofNat 32 (elemOut t v) ∧
      overwritten (elemWords t v dst) old f = BitVec.ofNat 32 (elemOut t v / 2 ^ 32)) ∧
    (∀ e, e ∉ dst → overwritten (elemWords t v dst) old e = old e) := by
  refine ⟨?_, ?_, fun e he => ?_⟩
  · rintro e rfl hp
    simp [elemWords, overwritten, RegElem.holds_of_not_pred hp]
  · rintro e f rfl hne hp hq
    simp [elemWords, overwritten, RegElem.holds_of_not_pred hp, RegElem.holds_of_not_pred hq, hne, hne.symm]
  · match dst, he with
    | [], _ => rfl
    | [a], he =>
      have : a ≠ e := fun h => he (by simp [h])
      simp [elemWords, overwritten, this]
    | [a, b], he =>
      have ha : a ≠ e := fun h => he (by simp [h])
      have hb : b ≠ e := fun h => he (by simp [h])
      simp [elemWords, overwritten, ha, hb]
    | _ :: _ :: _ :: _, _ => rfl

theorem Gang.settled_with_awaits (g : Gang) (aw : List Await) (e : RegElem) :
    Gang.settled { g with awaits := aw } e = g.settled e :=
  Gang.settled_congr (by rfl) (by rfl) (by rfl) (by rfl) e

theorem PadReq.answered_settled (r : PadReq) (old : Nat) (g : Gang) (e : RegElem) :
    (r.answered old g).settled e = overwritten (elemWords r.etype.toNat old r.dst) g.settled e := by
  rw [PadReq.answered, Gang.settled_writeNow]
  congr 1
  funext e
  exact g.settled_with_awaits _ e

/-- What the gang of an access has once its result is there. -/
def PadReq.delivered (r : PadReq) (old : Nat) (g g' : Gang) : Prop :=
  (r.dst ≠ [] → ∀ x ∈ g'.awaits, x.kind ≠ .vault r.id) ∧
  (∀ e, r.dst = [e] → (∀ i j, e ≠ .p i j) → g'.settled e = BitVec.ofNat 32 (elemOut r.etype.toNat old)) ∧
  (∀ e f, r.dst = [e, f] → (∀ i j, e ≠ .p i j) → (∀ i j, f ≠ .p i j) →
    g'.settled e = BitVec.ofNat 32 (elemOut r.etype.toNat old) ∧
    g'.settled f = BitVec.ofNat 32 (elemOut r.etype.toNat old / 2 ^ 32)) ∧
  ∀ e, e ∉ r.dst → g'.settled e = g.settled e

theorem PadReq.delivered_answered {r : PadReq} (hd : r.dst.Nodup) (old : Nat) (g : Gang) :
    r.delivered old g (r.answered old g) := by
  obtain ⟨one, two, others⟩ := overwritten_elemWords r.etype.toNat old r.dst g.settled
  refine ⟨fun _ => r.answered_awaits old g, fun e he hp => ?_, fun e f he hp hq => ?_, fun e he => ?_⟩
  · rw [r.answered_settled, one e he hp]
  · have hne : e ≠ f := fun h => by simp [he, h] at hd
    rw [r.answered_settled, r.answered_settled]
    exact two e f he hne hp hq
  · rw [r.answered_settled, others e he]

theorem PadReq.delivered_nothing {r : PadReq} (hd : r.dst = []) (old : Nat) (g : Gang) : r.delivered old g g :=
  ⟨fun h => absurd hd h, fun _ he => absurd (hd.symm.trans he) (List.cons_ne_nil _ _).symm,
    fun _ _ he => absurd (hd.symm.trans he) (List.cons_ne_nil _ _).symm, fun _ _ => rfl⟩

/-- A read that is performed changes the gang that asked for it, and leaves the list of accesses. -/
theorem State.performPad_read {s : State} {r : PadReq} {g : Gang} (hk : r.kind = .read) (hg : s.gang? r.gang = some g)
    (hd : r.dst.Nodup) : ∃ g', (s.performPad r).gang? r.gang = some g' ∧
      s.performPad r = { s with gangs := (s.performPad r).gangs, preqs := s.preqs.filter (fun w => w.id != r.id) } ∧
      (∀ j, j ≠ r.gang → (s.performPad r).gang? j = s.gang? j) ∧
      r.delivered (s.padRead r.team r.core r.off r.size) g g' := by
  have hstores : ∀ old, r.stores old = none := fun old => by rw [PadReq.stores, hk]
  rw [State.performPad_eq]
  dsimp only
  rw [hstores]
  by_cases hnil : r.dst = []
  · rw [hnil]
    exact ⟨g, hg, rfl, fun _ _ => rfl, PadReq.delivered_nothing hnil _ g⟩
  · rw [if_neg (by simpa using hnil)]
    have hmod := State.modGang_some (s := { s with preqs := s.preqs.filter (fun w => w.id != r.id) }) hg
      (r.answered (s.padRead r.team r.core r.off r.size))
    rw [hmod]
    exact ⟨_, State.gang?_putGang_same _ _ _, rfl, fun j hj => State.gang?_putGang_other _ _ hj,
      PadReq.delivered_answered hd _ g⟩

/-- Settles O28: the accesses that the words send, the order test, and a read that is performed. -/
theorem scratchpadLoadsNeverFault : Obligations.ScratchpadLoadsNeverFault := by
  unfold Obligations.ScratchpadLoadsNeverFault
  refine ⟨fun s c d a b imm hs => ?_, fun s n r hf => ⟨s.padReady_iff r, fun wait => ?_⟩,
    fun s n r g hf hk hg hd hready => ?_⟩
  · obtain rfl := State.issuing_state hs
    have hg := State.issuing_gang hs
    exact ⟨fun hok => gives_run (exec_ld hs d a imm) hok (Ctx.padRequested_nextIn hg _),
      fun hok => gives_run (exec_ldp hs d a b) hok (Ctx.padRequested_nextIn hg _)⟩
  · rw [exec_pad_found hf, wait, whenever_false]
  · obtain ⟨g', hg', frame, others, waits, one, two, rest⟩ := State.performPad_read hk hg hd
    refine ⟨s.performPad r, g', by rw [exec_pad_found hf, hready, whenever_true], hg', ?_, others, ?_, one, two, rest⟩
    · rw [← padReq_id hf]
      exact frame
    · rw [← padReq_id hf]
      exact waits

end Sys2Proof.Machine
end

section
/-! PROOFS. Stores to the scratchpads (R192, R195, R260, R261). -/

namespace Sys2Proof.Machine

/-! ### A team's part on a core -/

theorem Team.onCore_modCore (t : Team) (k : Nat) {f : TeamCore → TeamCore} (hf : ∀ c, (f c).core = c.core) (core : Nat) :
    (t.modCore k f).onCore core = (t.onCore core).map (fun c => if core = k then f c else c) := by
  simp only [Team.onCore, Team.modCore]
  induction t.cores with
  | nil => rfl
  | cons c cs ih =>
    have hcore : (if c.core == k then f c else c).core = c.core := by split <;> simp [hf]
    rw [List.map_cons, List.find?_cons, List.find?_cons, hcore]
    by_cases h : c.core = core
    · have hif : (if c.core = k then f c else c) = if core = k then f c else c := by rw [h]
      simp only [h, beq_self_eq_true, beq_iff_eq, Option.map_some]
    · simp only [beq_eq_false_iff_ne.2 h, ih]

/-! ### Bytes written to a scratchpad -/

/-- The bytes of a scratchpad that a write does not name stay, and those that it names are the ones written. -/
theorem Memory.readNat_writeNat_one (m : Memory) {a n x v : Nat} (h : x < a ∨ a + n ≤ x) :
    Memory.readNat (Memory.writeNat m a n v) x 1 = Memory.readNat m x 1 := by
  refine congrArg leNat (Memory.readBytes_congr fun b h1 h2 => ?_)
  obtain rfl : b = x := by omega
  exact Memory.readByte_writeBytes_other _ _ _ _ (by rwa [leBytes_length])

section
variable {s : State} {team : Nat} {tm : Team} (h : s.team? team = some tm) (core off size v : Nat)
include h

theorem State.padWrite_eq : s.padWrite team core off size v = if tm.alloc = 0 then s
    else s.putTeam team (tm.modCore core (fun k => { k with scratch := Memory.writeNat k.scratch off size v })) := by
  rw [State.padWrite, State.padWriteBytes, h]
  rfl

theorem State.padWrite_frame : s.padWrite team core off size v = { s with teams := (s.padWrite team core off size v).teams } := by
  rw [State.padWrite_eq h]
  split <;> rfl

theorem State.padWrite_others {j : Nat} (hj : j ≠ team) : (s.padWrite team core off size v).team? j = s.team? j := by
  rw [State.padWrite_eq h]
  split
  · rfl
  · exact State.team?_putTeam_other _ _ hj

/-- A read of a scratchpad after a write. -/
theorem State.padRead_padWrite (c x n : Nat) : (s.padWrite team core off size v).padRead team c x n =
    if tm.alloc = 0 then 0 else match tm.onCore c with
      | some k => Memory.readNat (if c = core then Memory.writeNat k.scratch off size v else k.scratch) x n
      | none => 0 := by
  rw [State.padWrite_eq h]
  by_cases ha : tm.alloc = 0
  · rw [if_pos ha, if_pos ha, State.padRead, h]
    exact if_pos ha
  · rw [if_neg ha, if_neg ha, State.padRead, State.team?_putTeam_same]
    have hm := tm.onCore_modCore core (f := fun k => { k with scratch := Memory.writeNat k.scratch off size v })
      (fun _ => rfl) c
    dsimp only
    rw [hm]
    have halloc : (tm.modCore core (fun k => { k with scratch := Memory.writeNat k.scratch off size v })).alloc = tm.alloc := rfl
    rw [halloc, if_neg ha]
    cases tm.onCore c with
    | none => rfl
    | some k => by_cases hc : c = core <;> simp [hc]

theorem State.padRead_eq (c x n : Nat) : s.padRead team c x n = if tm.alloc = 0 then 0 else match tm.onCore c with
      | some k => Memory.readNat k.scratch x n
      | none => 0 := by
  simp only [State.padRead, h] <;> rfl

theorem State.padRead_padWrite_other {c x : Nat} (hx : c = core → x < off ∨ off + size ≤ x) :
    (s.padWrite team core off size v).padRead team c x 1 = s.padRead team c x 1 := by
  rw [State.padRead_padWrite h, State.padRead_eq h]
  split
  · rfl
  · cases tm.onCore c with
    | none => rfl
    | some k =>
      dsimp only
      split
      · exact Memory.readNat_writeNat_one _ (hx ‹_›)
      · rfl

theorem State.padRead_padWrite_same (ha : tm.alloc ≠ 0) (hk : tm.onCore core ≠ none) :
    (s.padWrite team core off size v).padRead team core off size = v % 256 ^ size := by
  obtain ⟨k, hk⟩ := Option.ne_none_iff_exists'.1 hk
  rw [State.padRead_padWrite h, if_neg ha, hk]
  dsimp only
  rw [if_pos rfl, Memory.readNat_writeNat]

end

/-! ### The statement -/

/-- A store that is performed writes its bytes and leaves the list of accesses. -/
theorem State.performPad_write {s : State} {r : PadReq} {v : Nat} (hk : r.kind = .write v) (hd : r.dst = []) :
    s.performPad r = State.padWrite { s with preqs := s.preqs.filter (fun w => w.id != r.id) } r.team r.core r.off r.size v := by
  have hstores : ∀ old, r.stores old = some v := fun old => by rw [PadReq.stores, hk]
  rw [State.performPad_eq]
  dsimp only
  rw [hstores, hd]
  rfl

/-- Settles O29: the accesses that the words send, and a store that is performed. -/
theorem scratchpadStoresTouchTheirBytesAlone : Obligations.ScratchpadStoresTouchTheirBytesAlone := by
  unfold Obligations.ScratchpadStoresTouchTheirBytesAlone
  refine ⟨fun s c d a b imm hs => ?_, fun s n v r tm hf hk hd ht hready => ?_⟩
  · obtain rfl := State.issuing_state hs
    have hg := State.issuing_gang hs
    exact ⟨fun hok => gives_run (exec_st hs d a imm) hok (Ctx.padRequested_nextIn (dst := fun _ => []) hg _),
      fun hok => gives_run (exec_stp hs d a b) hok (Ctx.padRequested_nextIn (dst := fun _ => []) hg _)⟩
  · have ht' : State.team? { s with preqs := s.preqs.filter (fun w => w.id != r.id) } r.team = some tm := ht
    refine ⟨s.performPad r, by rw [exec_pad_found hf, hready, whenever_true], ?_⟩
    rw [State.performPad_write hk hd]
    refine ⟨?_, fun j hj => State.padWrite_others ht' _ _ _ _ hj, fun core x hx => State.padRead_padWrite_other ht' _ _ _ _ hx,
      fun ha hon => State.padRead_padWrite_same ht' _ _ _ _ ha hon⟩
    rw [← padReq_id hf]
    exact State.padWrite_frame ht' _ _ _ _

end Sys2Proof.Machine
end

section
/-! PROOFS. FENCE (R207, R208, R267), and the scratchpad tag table (R240, R268, R269). -/

namespace Sys2Proof.Machine

/-! ### FENCE -/

/-- What a FENCE waits for (R208, log 6). -/
def Ctx.fenceWaits (c : Ctx) (code : ByteField) : Bool :=
  c.s.loadsOut c.id || c.s.padsOut c.id ||
    (code.toNat / 16 != 0 && decide (3 ≤ code.toNat % 8) && c.s.uncovered (c.s.vcOf c.agent)) ||
    (code.toNat % 8 == 4 && c.s.remoteBusy c.id)

theorem exec_fence {c : Ctx} (hs : c.s.issuing = some c) (code : ByteField) :
    exec (.fence code) c.s = c.run (check (Code.fence code) Cause.illegalEncoding <|>
        (if code.toNat % 8 = 4 ∧ ¬ c.fenceWaits code then c.posted Posted.remote else none))
      (if c.fenceWaits code then c.waitHere else c.skip) := withIssue_some hs _

theorem Code.fence_iff (code : ByteField) : Code.fence code = true ↔
    code.toNat % 8 ≤ 4 ∧ code.getLsbD 3 = false ∧ code.toNat < 64 := by
  have hbit : code.getLsbD 3 = decide (code.toNat / 8 % 2 = 1) := by
    rw [BitVec.getLsbD, Nat.testBit_eq_decide_div_mod_eq]
  simp only [Code.fence, Bool.and_eq_true, decide_eq_true_eq, hbit, decide_eq_false_iff_not]
  omega

theorem Ctx.fenceWaits_iff (c : Ctx) (code : ByteField) : c.fenceWaits code = true ↔
    c.s.loadsOut c.id = true ∨ c.s.padsOut c.id = true ∨
      (code.toNat / 16 ≠ 0 ∧ 3 ≤ code.toNat % 8 ∧ c.s.uncovered (c.s.vcOf c.agent) = true) ∨
      (code.toNat % 8 = 4 ∧ c.s.remoteBusy c.id = true) := by
  simp [Ctx.fenceWaits, or_assoc, and_assoc]

/-- A wait in place makes the results of the group visible and changes nothing else. -/
theorem Ctx.waitHere_spec {c : Ctx} (hg : c.s.gang? c.id = some c.g) :
    ∃ g', c.waitHere = c.s.putGang c.id g' ∧ g'.groups = c.g.groups ∧ g'.rest = c.g.rest ∧ ∀ e, g'.settled e = c.g.settled e :=
  ⟨_, State.modGang_some hg _, Gang.groups_commitGroup _ _, Gang.rest_commitGroup _ _, Gang.settled_commitGroup _ _⟩

/-- Settles O32: by the code, then by what the word waits for. -/
theorem fenceWaitsForWhatItOrders : Obligations.FenceWaitsForWhatItOrders := by
  unfold Obligations.FenceWaitsForWhatItOrders
  intro s c code hs scope kind waits
  obtain rfl := State.issuing_state hs
  have hwaits : c.fenceWaits code = true ↔ waits := c.fenceWaits_iff code
  refine ⟨fun bad => ?_, fun hscope hbit hcode => ?_⟩
  · have hcode : Code.fence code = false := by
      rw [Bool.eq_false_iff, Ne, Code.fence_iff]
      rintro ⟨h1, h2, h3⟩
      rcases bad with h | h | h
      · exact absurd h1 (Nat.not_le.2 h)
      · exact Bool.noConfusion (h2.symm.trans h)
      · exact absurd h3 (Nat.not_lt.2 h)
    rw [exec_fence hs, hcode]
    rfl
  · have hok : Code.fence code = true := (Code.fence_iff code).2 ⟨hscope, hbit, hcode⟩
    refine ⟨fun hw => ?_, fun hw hfaults => ?_⟩
    · refine gives_run (exec_fence hs code) ?_ ?_
      · rw [hok, hwaits.2 hw]
        simp
      · rw [if_pos (hwaits.2 hw)]
        exact Ctx.waitHere_spec (State.issuing_gang hs)
    · have hno : c.fenceWaits code = false := Bool.eq_false_iff.2 (fun h => hw (hwaits.1 h))
      refine gives_run (exec_fence hs code) ?_ ?_
      · rw [hok, check_true]
        show (if code.toNat % 8 = 4 ∧ ¬ c.fenceWaits code then c.posted Posted.remote else none) = none
        split
        · next h => rw [Ctx.posted, firstPosted_none_iff.2 (hfaults h.1), Option.map_none]
        · rfl
      · rw [if_neg (Bool.eq_false_iff.1 hno)]
        exact c.wrote_skip

/-! ### The tag table of a core -/

theorem Core.tagEntry_putTagEntry (k : Core) (n m : Nat) (e : TagEntry) :
    (k.putTagEntry n e).tagEntry m = if m = n then e else k.tagEntry m := Tbl.get_set _ _ _ _ _

theorem mem_setOf {key : Word} {m : Nat} : m ∈ setOf key ↔ m / 4 = key.toNat % 64 := by
  simp only [setOf, List.mem_map, List.mem_range]
  constructor
  · rintro ⟨w, hw, rfl⟩
    omega
  · exact fun h => ⟨m % 4, Nat.mod_lt _ (by decide), by omega⟩

theorem TagEntry.hits_iff (e : TagEntry) (team : Nat) (key : Word) :
    e.hits team key = true ↔ e.valid = true ∧ e.team = team ∧ e.key = key := by
  simp [TagEntry.hits, and_assoc]

/-- A key that no way of its set holds gives all ones (R240). -/
theorem Core.lookup_miss {k : Core} {team : Nat} {key : Word}
    (h : ∀ w < 4, (k.tagEntry (4 * (key.toNat % 64) + w)).hits team key = false) : k.lookup team key = 0xFFFFFFFF#32 := by
  have hnone : (setOf key).find? (fun n => (k.tagEntry n).hits team key) = none := by
    rw [List.find?_eq_none]
    intro n hn
    obtain ⟨w, hw, rfl⟩ := List.mem_map.1 hn
    simp [h w (List.mem_range.1 hw)]
  rw [Core.lookup, hnone]

/-- The lowest way of its set that holds a key gives its value (R240). -/
theorem Core.lookup_hit {k : Core} {team : Nat} {key : Word} {w : Nat} (hw : w < 4)
    (h : (k.tagEntry (4 * (key.toNat % 64) + w)).hits team key = true)
    (hlow : ∀ u < w, (k.tagEntry (4 * (key.toNat % 64) + u)).hits team key = false) :
    k.lookup team key = (k.tagEntry (4 * (key.toNat % 64) + w)).val := by
  have hsome : (setOf key).find? (fun n => (k.tagEntry n).hits team key) = some (4 * (key.toNat % 64) + w) := by
    rw [setOf, List.find?_map, List.find?_range_eq_some.2 ⟨h, List.mem_range.2 hw, fun u hu => ?_⟩]
    · rfl
    · simp [hlow u hu]
  rw [Core.lookup, hsome]

/-! ### LDT -/

/-- What LDT looks up in lane l. -/
def Ctx.lookedUp (c : Ctx) (a : RegField) (l : Nat) : Nat :=
  (c.core.lookup c.g.team (BitVec.ofNat 32 (c.readA a false l))).toNat

theorem exec_ldt {c : Ctx} (hs : c.s.issuing = some c) (d a b : RegField) :
    exec (.ldt d a b) c.s = c.run
      (check (b == 0xF8 && c.dstOk d false && c.srcOk a false && (isVreg d || !isVec a)) Cause.illegalOperand <|>
        c.hazard (regsOf a false) [] [] c.guardRegs (regsOf d false) <|>
        (if (c.memLanes (isVreg d)).isEmpty then none else c.ownPadFirst))
      (c.next c.s (c.g.writeNow ((c.memLanes (isVreg d)).flatMap (fun l => spread (dstElems d false l) (c.lookedUp a l))))) :=
  withIssue_some hs _

/-- A field that is not a vector reads the same in every lane (Table 2.3). -/
theorem Ctx.readA_of_scalar (c : Ctx) {a : RegField} (ha : isVec a = false) (l j : Nat) :
    c.readA a false l = c.readA a false j := by
  have hlow : ¬ a.toNat < 0xC0 := fun h => by simp [isVec, h] at ha
  have h9 : a.toNat ≠ 0xF9 := fun h => by simp [isVec, show a = 0xF9 from BitVec.eq_of_toNat_eq h] at ha
  have hA : a.toNat ≠ 0xFA := fun h => by simp [isVec, show a = 0xFA from BitVec.eq_of_toNat_eq h] at ha
  simp only [Ctx.readA, ha, Bool.false_eq_true, if_false, Ctx.fieldAt, Ctx.field32, hlow]
  split
  · rfl
  · split <;> first | rfl | contradiction

/-- The writes of a LDT are those of a result in the lanes that take effect, or once. -/
theorem Ctx.result_of_memLanes (c : Ctx) {d : RegField} {f : Nat → Nat} (hd : (isVreg d || isSreg d) = true)
    (hf : isVreg d = false → ∀ l, f l = f 0) (e : RegElem) :
    overwritten ((c.memLanes (isVreg d)).flatMap (fun l => spread (dstElems d false l) (f l))) c.g.settled e =
      c.result d false f e := by
  rw [← overwritten_result]
  congr 1
  cases hv : isVreg d
  · have hsreg : isSreg d = true := by simpa [hv] using hd
    rw [Ctx.memLanes, Ctx.lanesFor, if_neg Bool.false_ne_true, if_pos hsreg]
    cases c.once
    · rfl
    · simp [hf hv (c.lowest.getD 0), dstElems, hv, hsreg]
  · have hsreg : isSreg d = false := by
      have := isVreg_iff.1 hv
      exact Bool.eq_false_iff.2 fun h => by have := (isSreg_iff.1 h).1; omega
    rw [Ctx.memLanes, Ctx.lanesFor, if_pos rfl, if_neg (by simp [hsreg])]

theorem Ctx.wrote_result {c : Ctx} {d : RegField} {f : Nat → Nat} {ws : List (RegElem × Word)}
    (h : ∀ e, overwritten ws c.g.settled e = c.result d false f e) :
    c.wrote (c.result d false f) (c.next c.s (c.g.writeNow ws)) :=
  Ctx.went_congr (Gang.rest_writeNow _ _) (fun e => (Gang.settled_writeNow _ _ e).trans (h e))
    (went_next c c.s _ (Gang.groups_writeNow _ _))

/-! ### TAGSET and TAGINV -/

theorem exec_tagset {c : Ctx} (hs : c.s.issuing = some c) (d a b : RegField) :
    exec (.tagset d a b) c.s = c.run
      (c.onceStop (scalarOk d && scalarOk a && scalarOk b) ((c.readS d).toNat / 256 == 0) true (regsOf a false) (regsOf b false)
        (regsOf d false) [] <|> (if c.once then c.ownPadFirst else none))
      (c.onceDo (c.skip.modCore c.g.core (fun k =>
        k.putTagEntry (c.readS d).toNat { valid := true, team := c.g.team, key := c.readS a, val := c.readS b }))) :=
  withIssue_some hs _

/-- The entries of a key's set that are the team's are no longer valid (R269). -/
def Core.tagsCleared (team : Nat) (key : Word) (k : Core) (ns : List Nat) : Core := ns.foldl (fun k n =>
  if (k.tagEntry n).hits team key then k.putTagEntry n { k.tagEntry n with valid := false } else k) k

theorem exec_taginv {c : Ctx} (hs : c.s.issuing = some c) (a : RegField) :
    exec (.taginv a) c.s = c.run
      (c.onceStop (scalarOk a) true true (regsOf a false) [] [] [] <|> (if c.once then c.ownPadFirst else none))
      (c.onceDo (c.skip.modCore c.g.core (fun k => k.tagsCleared c.g.team (c.readS a) (setOf (c.readS a))))) :=
  withIssue_some hs _

theorem Core.tagsCleared_table (team : Nat) (key : Word) (k : Core) (ns : List Nat) :
    k.tagsCleared team key ns = { k with table := (k.tagsCleared team key ns).table } := by
  induction ns generalizing k with
  | nil => rfl
  | cons n ns ih =>
    rw [Core.tagsCleared, List.foldl_cons, ← Core.tagsCleared]
    split
    · exact ih (k.putTagEntry n { k.tagEntry n with valid := false })
    · exact ih k

/-- The entries that are cleared: the listed ones that hold the key for the team. -/
theorem Core.tagEntry_tagsCleared (team : Nat) (key : Word) (k : Core) (ns : List Nat) (m : Nat) :
    (k.tagsCleared team key ns).tagEntry m = { k.tagEntry m with
      valid := (k.tagEntry m).valid && !(decide (m ∈ ns) && (k.tagEntry m).hits team key) } := by
  induction ns generalizing k with
  | nil => simp [Core.tagsCleared]
  | cons n ns ih =>
    rw [Core.tagsCleared, List.foldl_cons, ← Core.tagsCleared, ih]
    by_cases hmn : m = n
    · subst hmn
      cases hhit : (k.tagEntry m).hits team key
      · simp [hhit]
      · simp [Core.tagEntry_putTagEntry]
    · have hsame : Core.tagEntry (if (k.tagEntry n).hits team key then k.putTagEntry n { k.tagEntry n with valid := false } else k) m =
          k.tagEntry m := by
        split
        · rw [Core.tagEntry_putTagEntry, if_neg hmn]
        · rfl
      rw [hsame]
      simp [hmn]

/-- A word without effect, whose core then changes. -/
theorem Ctx.went_skip_modCore (c : Ctx) (f : Core → Core) :
    c.went (c.s.putCore c.g.core (f c.core)) c.g (c.pc + 4) c.g.settled (c.skip.modCore c.g.core f) := by
  obtain ⟨g', hskip, rest, groups, settled⟩ := c.wrote_skip
  refine ⟨g', ?_, rest, groups, settled⟩
  rw [State.modCore, hskip]
  rfl

/-- Where the access waits for nothing, the checks of a word that keeps its place in the core's order find nothing. -/
theorem ownPadFirst_checks {c : Ctx} {st : Option Stop} (h : st = none) (free : c.once = true → c.ownPadFirst = none) :
    (st <|> (if c.once then c.ownPadFirst else none)) = none := by
  rw [h]
  cases hon : c.once
  · rfl
  · exact free hon

/-- Settles O33: LDT by the lookup, TAGSET and TAGINV by what they do to the table. -/
theorem tagTableLooksUpTheKeysSet : Obligations.TagTableLooksUpTheKeysSet := by
  unfold Obligations.TagTableLooksUpTheKeysSet
  intro s c d a b hs hit
  obtain rfl := State.issuing_state hs
  have hhit : ∀ key n, (c.core.tagEntry n).hits c.g.team key = true ↔ hit key n := fun key n => TagEntry.hits_iff _ _ _
  have hmiss : ∀ key n, (c.core.tagEntry n).hits c.g.team key = false ↔ ¬ hit key n := fun key n => by
    rw [← hhit, Bool.not_eq_true]
  refine ⟨fun hb hd ha hv first hok => ⟨c.lookedUp a, ?_, fun l => ?_⟩,
    fun hok => ⟨fun off => ?_, fun on first => ?_⟩, fun hok => ⟨fun off => ?_, fun on first => ?_⟩⟩
  · have hdst : (isVreg d || isSreg d) = true := (Bool.and_eq_true_iff.1 hd).1
    refine gives_run (exec_ldt hs d a b) ?_ (Ctx.wrote_result (fun e => c.result_of_memLanes hdst (fun hvec l => ?_) e))
    · rw [hb, hd, ha, hv, hok, first]
      simp
    · have hscalar : isVec a = false := by simpa [hvec] using hv
      rw [Ctx.lookedUp, Ctx.lookedUp, c.readA_of_scalar hscalar l 0]
  · refine ⟨fun miss => ?_, fun w hw found low => ?_⟩
    · rw [Ctx.lookedUp, Core.lookup_miss fun w hw => (hmiss _ _).2 (miss w hw)]
      rfl
    · rw [Ctx.lookedUp, Core.lookup_hit hw ((hhit _ _).2 found) fun u hu => (hmiss _ _).2 (low u hu)]
  · exact gives_run (exec_tagset hs d a b) (ownPadFirst_checks hok fun on => Bool.noConfusion (off.symm.trans on))
      (Ctx.wrote_onceDo off _)
  · refine gives_run (exec_tagset hs d a b) (ownPadFirst_checks hok fun _ => first) ?_
    rw [Ctx.onceDo_true on]
    refine ⟨_, c.went_skip_modCore _, rfl, fun m hm => ?_, ?_⟩
    · rw [Core.tagEntry_putTagEntry, if_neg hm]
    · rw [Core.tagEntry_putTagEntry, if_pos rfl]
  · exact gives_run (exec_taginv hs a) (ownPadFirst_checks hok fun on => Bool.noConfusion (off.symm.trans on))
      (Ctx.wrote_onceDo off _)
  · refine gives_run (exec_taginv hs a) (ownPadFirst_checks hok fun _ => first) ?_
    rw [Ctx.onceDo_true on]
    refine ⟨_, c.went_skip_modCore _, Core.tagsCleared_table _ _ _ _, fun m => ?_⟩
    rw [Core.tagEntry_tagsCleared]
    rw [← Bool.decide_eq_true (b := (c.core.tagEntry m).hits _ _), ← Bool.decide_and]
    simp only [mem_setOf, hhit]

end Sys2Proof.Machine
end

section
/-! PROOFS. TAGWAIT in a group that issues although it is parked. -/

namespace Sys2Proof.Machine

/-- Refutes O42: a TAGWAIT.all that returns leaves the idle cycles of a group that was parked as they were, and the frame of
a word that has executed gives CAD and one. -/
theorem not_tagAndChunkInstructions : ¬ Obligations.TagAndChunkInstructions := by
  unfold Obligations.TagAndChunkInstructions
  intro h
  obtain ⟨hwait, -⟩ := h (machineOf parkedGang) parkedCtx 0 0xC0 0 0 parkedGang_issuing
  obtain ⟨-, hone⟩ := hwait (by decide +kernel)
  obtain ⟨-, -, -, -, -, hgo, -⟩ := hone (by decide +kernel)
  have hreturn := hgo (fun _ _ hf => hf.2.1 rfl)
    (fun _ _ _ hb => TagState.noConfusion hb)
    (fun q hq => absurd (parkedGang_posted ▸ hq) List.not_mem_nil)
  refine not_gives_of_gangAfter (f := idles) (fun t ht => idles_of_went ht) ?_ hreturn
  decide +kernel

end Sys2Proof.Machine
end

section
/-! PROOFS. RLD, RST and RATOM: the operation that is sent, and RFENCE (R281-R283, R207). -/

namespace Sys2Proof.Machine

/-! ### An operation on its way -/

/-- The key of the stream in which an operation to a peer is numbered. -/
def streamKeyOf (op : RemoteOp) (peer : Nat) : Nat := 2 * (1024 * op.stream + peer % 1024)

/-- An operation to this package takes the next number of its stream and arrives; one to a peer is owed to it. -/
theorem State.dispatchRemote_spec (u : State) (peer : Nat) (op : RemoteOp) (src : op.srcPkg = u.pkg) :
    let t := u.dispatchRemote peer op
    let n := Tbl.get 0 u.sentSeq (streamKeyOf op peer)
    t = { u with netq := t.netq, inbound := t.inbound, sentSeq := t.sentSeq } ∧
    (peer ≠ u.pkg → t.netq = u.netq ++ [(peer, .remote op)] ∧ t.inbound = u.inbound) ∧
    (peer = u.pkg → t.netq = u.netq ∧ Tbl.get 0 t.sentSeq (streamKeyOf op peer) = n + 1 ∧
      (Tbl.get 0 u.rcvdSeq (streamKeyOf op peer) ≤ n → NetMsg.remote { op with seq := n } ∈ t.inbound)) := by
  intro t n
  by_cases hp : peer = u.pkg
  · have ht : t = State.arrive { u with sentSeq := Tbl.set 0 u.sentSeq (streamKeyOf op peer) (n + 1) }
        (.remote { op with seq := n }) := if_pos hp
    rw [ht, State.arrive]
    refine ⟨by split <;> rfl, fun hne => absurd hp hne, fun _ => ⟨by split <;> rfl, ?_, fun hdue => ?_⟩⟩
    · have numbered : ∀ v : State, v.sentSeq = Tbl.set 0 u.sentSeq (streamKeyOf op peer) (n + 1) →
          Tbl.get 0 v.sentSeq (streamKeyOf op peer) = n + 1 := fun v hv => by rw [hv, Tbl.get_set_same]
      exact numbered _ (by split <;> rfl)
    · have due : State.isDue { u with sentSeq := Tbl.set 0 u.sentSeq (streamKeyOf op peer) (n + 1) }
          (.remote { op with seq := n }) = true := by
        have hkey : streamKeyOf op op.srcPkg = streamKeyOf op peer := by rw [src, hp]
        show decide (Tbl.get 0 u.rcvdSeq (streamKeyOf op op.srcPkg) ≤ n) = true
        rw [hkey]
        exact decide_eq_true hdue
      split
      · next h => simpa [due] using h
      · exact List.mem_append_right _ List.mem_cons_self
  · have ht : t = u.owe peer (.remote op) := if_neg hp
    rw [ht]
    exact ⟨rfl, fun _ => ⟨rfl, rfl⟩, fun h => absurd h hp⟩

/-! ### What a word sends -/

section
variable (c : Ctx) (k : RemoteKind) (d a b : RegField)

/-- The package that the block of a word names. -/
def Ctx.remotePeer : Nat := bits (dword (c.words a 3) 2) 17 8

/-- The counter that a word counts in. -/
def Ctx.remoteCounter : Option Nat :=
  if k = .rst ∧ bit (dword (c.words a 3) 2) 21 then some (bits (dword (c.words a 3) 2) 20 18) else none

/-- The operation of a word no lane of which has a fault. -/
def Ctx.remoteSent : RemoteOp :=
  { ident := c.s.next, srcPkg := c.s.pkg, srcPart := c.part, stream := c.id, seq := 0,
    part := (c.s.domain c.part (c.remotePeer a)).getD 0, kind := k, etype := BitVec.ofNat 4 c.etype, sat := c.sat,
    lanes := c.takers.map (fun l =>
      { lane := l, addr := c.remoteAddr (c.words a 3) b l,
        arg := if k = .rld then 0 else BitVec.ofNat 64 (c.stored d l),
        new := BitVec.ofNat 64 (if k = .cas then c.newOf 7 d l else 0) }) }

/-- What the gang keeps of it. -/
def Ctx.remoteKept : RemoteOut :=
  { gang := c.id, opc := c.pc, d := d.toNat, kc := c.remoteCounter k a, op := c.remoteSent k d a b,
    peer := c.remotePeer a, mask := c.slices, tmask := c.tmask, answered := [], faults := [] }

/-- The gang, awaiting the elements of its destination, and counting. -/
def Ctx.remoteGang : Gang :=
  let g1 := { c.g with awaits := c.g.awaits ++
    (c.takers.flatMap (c.remoteKept k d a b).elems).map (fun e => (⟨e, .remote c.s.next⟩ : Await)) }
  match c.remoteCounter k a with
  | some n => g1.putCounter n (g1.counter n + 1)
  | none => g1

/-- The state in which the operation is outstanding, and not yet sent. -/
def Ctx.remoteState : State :=
  ({ c.s with next := c.s.next + 1 }.putRemote c.s.next (c.remoteKept k d a b)).putGang c.id (c.remoteGang k d a b)

variable {c k d a b}

theorem Ctx.sendRemote_of_faultless (htake : c.takers ≠ [])
    (hok : ∀ l ∈ c.takers, c.remoteFault (c.words a 3) b (c.remotePeer a) l = none) :
    c.sendRemote k d b (c.words a 3) =
      if k = .add ∨ k = .cas ∨ k = .fadd then
        ({ c with g := c.remoteGang k d a b }.parkIn (c.remoteState k d a b) (.ratom c.s.next)).dispatchRemote (c.remotePeer a)
          (c.remoteSent k d a b)
      else c.nextIn ((c.remoteState k d a b).dispatchRemote (c.remotePeer a) (c.remoteSent k d a b)) := by
  have nofault : c.takers.filterMap (c.remoteFault (c.words a 3) b (bits (dword (c.words a 3) 2) 17 8)) = [] :=
    List.filterMap_eq_nil_iff.2 hok
  have all : c.takers.filter (fun l => (c.remoteFault (c.words a 3) b (bits (dword (c.words a 3) 2) 17 8) l).isNone) =
      c.takers := List.filter_eq_self.2 (fun l hl => Option.isNone_iff_eq_none.2 (hok l hl))
  unfold Ctx.sendRemote
  simp only [nofault, all, List.isEmpty_iff, htake, if_false]
  rfl

theorem Ctx.remoteKept_elems (l : Nat) : (c.remoteKept k d a b).elems l =
    if k = .rst then [] else dstElems d (isWide c.etype) l := by
  have htype : (BitVec.ofNat 4 c.etype).toNat = c.etype :=
    (BitVec.toNat_ofNat _ _).trans (Nat.mod_eq_of_lt (BitVec.isLt (c.mr.extractLsb' 13 4)))
  have hd : BitVec.ofNat 8 d.toNat = d := BitVec.ofNat_toNat 8 d
  show (if k = .rst then [] else dstElems (BitVec.ofNat 8 d.toNat) (isWide (BitVec.ofNat 4 c.etype).toNat) l) = _
  rw [htype, hd]

theorem Ctx.remoteGang_settled (e : RegElem) : (c.remoteGang k d a b).settled e = c.g.settled e := by
  unfold Ctx.remoteGang
  split <;> exact Gang.settled_congr (by rfl) (by rfl) (by rfl) (by rfl) e

theorem Ctx.remoteGang_groups : (c.remoteGang k d a b).groups = c.g.groups := by
  unfold Ctx.remoteGang
  split <;> rfl

end

theorem exec_remoteOps {c : Ctx} (hs : c.s.issuing = some c) (d a b : RegField) :
    ∀ e ∈ [(RemoteKind.rld, Instr.rld d a b), (.rst, .rst d a b), (.add, .ratomAdd d a b), (.cas, .ratomCas d a b),
      (.fadd, .ratomFadd d a b)], exec e.2 c.s = c.remote e.1 d a b := by
  intro e he
  simp only [List.mem_cons, List.not_mem_nil, or_false] at he
  rcases he with rfl | rfl | rfl | rfl | rfl <;> exact withIssue_some hs _

/-- What the statement says of the machine outside the gang, once the operation has been sent. -/
theorem Ctx.dispatched_spec (c : Ctx) (k : RemoteKind) (d a b : RegField) {u : State}
    (frame : u = { c.s with gangs := u.gangs, next := u.next, remotes := (c.remoteState k d a b).remotes }) :
    let op := c.remoteSent k d a b
    let peer := c.remotePeer a
    let t := u.dispatchRemote peer op
    let n := Tbl.get 0 c.s.sentSeq (streamKeyOf op peer)
    t = { c.s with
      gangs := t.gangs, next := t.next, remotes := t.remotes, netq := t.netq, inbound := t.inbound
      sentSeq := t.sentSeq } ∧
    t.gangs = u.gangs ∧
    (peer ≠ c.s.pkg → t.netq = c.s.netq ++ [(peer, .remote op)] ∧ t.inbound = c.s.inbound) ∧
    (peer = c.s.pkg → t.netq = c.s.netq ∧ Tbl.get 0 t.sentSeq (streamKeyOf op peer) = n + 1 ∧
      (Tbl.get 0 c.s.rcvdSeq (streamKeyOf op peer) ≤ n → NetMsg.remote { op with seq := n } ∈ t.inbound)) ∧
    t.remote? c.s.next = some (c.remoteKept k d a b) := by
  intro op peer t n
  have src : op.srcPkg = u.pkg := by rw [frame]; rfl
  obtain ⟨ht, far, near⟩ := u.dispatchRemote_spec peer op src
  have hseq : u.sentSeq = c.s.sentSeq := (congrArg State.sentSeq frame :)
  have hrcvd : u.rcvdSeq = c.s.rcvdSeq := (congrArg State.rcvdSeq frame :)
  have hpkg : u.pkg = c.s.pkg := (congrArg State.pkg frame :)
  have hnetq : u.netq = c.s.netq := (congrArg State.netq frame :)
  have hin : u.inbound = c.s.inbound := (congrArg State.inbound frame :)
  have hrem : t.remotes = (c.remoteState k d a b).remotes := (congrArg State.remotes ht :).trans (congrArg State.remotes frame :)
  have hnext : t.next = u.next := (congrArg State.next ht :)
  have hgangs : t.gangs = u.gangs := (congrArg State.gangs ht :)
  rw [hseq, hrcvd, hpkg, hnetq] at near
  rw [hpkg, hnetq, hin] at far
  refine ⟨?_, hgangs, far, near, ?_⟩
  · have framed := (congrArg (fun v : State => { v with netq := t.netq, inbound := t.inbound, sentSeq := t.sentSeq }) frame :)
    rw [hgangs, hnext, hrem]
    exact ht.trans framed
  · have hset : (c.remoteState k d a b).remotes = Tbl.set none c.s.remotes c.s.next (some (c.remoteKept k d a b)) := rfl
    rw [State.remote?, hrem, hset, Tbl.get_set_same]

/-- The operation has been sent: t is the state after it, in which the gang of c stands as g'. -/
def Ctx.remoteDone (c : Ctx) (k : RemoteKind) (d a b : RegField) (g' : Gang) (t : State) : Prop :=
  let op := c.remoteSent k d a b
  let peer := c.remotePeer a
  let n := Tbl.get 0 c.s.sentSeq (streamKeyOf op peer)
  t = { c.s with
    gangs := t.gangs, next := t.next, remotes := t.remotes, netq := t.netq, inbound := t.inbound
    sentSeq := t.sentSeq } ∧
  (∀ j, j ≠ c.id → t.gang? j = c.s.gang? j) ∧ t.gang? c.id = some g' ∧ (∀ e, g'.settled e = c.g.settled e) ∧
  (peer ≠ c.s.pkg → t.netq = c.s.netq ++ [(peer, .remote op)] ∧ t.inbound = c.s.inbound) ∧
  (peer = c.s.pkg → t.netq = c.s.netq ∧ Tbl.get 0 t.sentSeq (streamKeyOf op peer) = n + 1 ∧
    (Tbl.get 0 c.s.rcvdSeq (streamKeyOf op peer) ≤ n → NetMsg.remote { op with seq := n } ∈ t.inbound)) ∧
  t.remote? c.s.next = some (c.remoteKept k d a b)

section
variable {c : Ctx} {k : RemoteKind} {d a b : RegField}

/-- After an RLD or an RST the group goes on at the next word. -/
theorem Ctx.remoteDone_nextIn :
    let t := c.nextIn ((c.remoteState k d a b).dispatchRemote (c.remotePeer a) (c.remoteSent k d a b))
    ∃ g', c.remoteDone k d a b g' t ∧ g'.rest = (c.remoteGang k d a b).rest ∧ g'.groups = c.groupsAt (c.pc + 4) := by
  intro t
  obtain ⟨frame, gangs, far, near, out⟩ := c.dispatched_spec k d a b (u := c.remoteState k d a b) rfl
  have own := (State.gang?_of_gangs_eq gangs c.id).trans (State.gang?_putGang_same _ _ _)
  obtain ⟨u, hu⟩ : ∃ u, u = (c.remoteState k d a b).dispatchRemote (c.remotePeer a) (c.remoteSent k d a b) := ⟨_, rfl⟩
  have ht : t = c.nextIn u := by rw [hu]
  rw [← hu] at frame gangs far near out own
  have hnext : c.nextIn u = u.putGang c.id ((c.remoteGang k d a b).retire c.slices (c.pc + 4) (Mr.cad c.mr)) := by
    rw [Ctx.nextIn, own]
    rfl
  have groups : ((c.remoteGang k d a b).retire c.slices (c.pc + 4) (Mr.cad c.mr)).groups = c.groupsAt (c.pc + 4) := by
    rw [Gang.groups_retire, Ctx.remoteGang_groups]
    rfl
  rw [ht, hnext]
  refine ⟨_, ⟨?_, fun j hj => ?_, State.gang?_putGang_same _ _ _, fun e => ?_, far, near, out⟩,
    Gang.rest_retire _ _ _ _, groups⟩
  · exact (congrArg (fun v : State => v.putGang c.id ((c.remoteGang k d a b).retire c.slices (c.pc + 4) (Mr.cad c.mr)))
      frame :)
  · rw [State.gang?_putGang_other _ _ hj, State.gang?_of_gangs_eq gangs j]
    exact State.gang?_putGang_other _ _ hj
  · rw [Gang.settled_retire, Ctx.remoteGang_settled]

/-- After a RATOM the group is parked for the answer. -/
theorem Ctx.remoteDone_parkIn :
    let t := ({ c with g := c.remoteGang k d a b }.parkIn (c.remoteState k d a b) (.ratom c.s.next)).dispatchRemote
      (c.remotePeer a) (c.remoteSent k d a b)
    ∃ g', c.remoteDone k d a b g' t ∧ g'.rest = ((c.remoteGang k d a b).givesTurn c.slices).rest ∧
      ∀ x ∈ g'.groups, x.slices = c.slices → x.park = some (.ratom c.s.next) := by
  intro t
  obtain ⟨u, hu⟩ : ∃ u, u = Ctx.parkIn { c with g := c.remoteGang k d a b } (c.remoteState k d a b) (.ratom c.s.next) :=
    ⟨_, rfl⟩
  have ht : t = u.dispatchRemote (c.remotePeer a) (c.remoteSent k d a b) := by rw [hu]
  let G := (((c.remoteGang k d a b).givesTurn c.slices).commitGroup c.slices).modGroup c.slices (fun x =>
    { x with park := some (.ratom c.s.next), since := (c.remoteState k d a b).next,
             idle := Mr.cad ({ c with g := c.remoteGang k d a b } : Ctx).mr + 1 })
  have parked : u = State.putGang { c.remoteState k d a b with next := (c.remoteState k d a b).next + 1 } c.id G := by
    have own : State.gang? { c.remoteState k d a b with next := (c.remoteState k d a b).next + 1 } c.id =
        some (c.remoteGang k d a b) := State.gang?_putGang_same _ _ _
    rw [hu]
    show State.modGang _ c.id _ = _
    rw [State.modGang_some own]
    rfl
  obtain ⟨frame, gangs, far, near, out⟩ := c.dispatched_spec k d a b (u := u) (by rw [parked]; rfl)
  rw [ht]
  refine ⟨G, ⟨frame, fun j hj => ?_, ?_, fun e => ?_, far, near, out⟩, ?_, fun x hx hsl => ?_⟩
  · rw [State.gang?_of_gangs_eq gangs j, parked, State.gang?_putGang_other _ _ hj]
    exact State.gang?_putGang_other _ _ hj
  · rw [State.gang?_of_gangs_eq gangs, parked, State.gang?_putGang_same]
  · rw [Gang.settled_modGroup, Gang.settled_commitGroup, Gang.settled_givesTurn, Ctx.remoteGang_settled]
  · rw [Gang.rest_modGroup, Gang.rest_commitGroup]
  · obtain ⟨y, -, rfl⟩ := List.mem_map.1 hx
    by_cases h : y.slices = c.slices
    · simp [h]
    · simp [h] at hsl

end

theorem exec_rfence {c : Ctx} (hs : c.s.issuing = some c) (code : ByteField) :
    exec (.rfence code) c.s = c.run (check (Code.rfence code) Cause.illegalEncoding <|>
        (if c.s.remoteBusy c.id then none else c.posted Posted.remote))
      (if c.s.remoteBusy c.id then c.waitHere else c.skip) := withIssue_some hs _

/-- The gang as the statement writes it. -/
theorem Ctx.remoteGang_eq (c : Ctx) (k : RemoteKind) (d a b : RegField) :
    let kc := bit (dword (c.words a 3) 2) 21
    let ks := bits (dword (c.words a 3) 2) 20 18
    let waits := if k = .rst then [] else (c.takers.flatMap (dstElems d (isWide c.etype))).map (fun x =>
      (⟨x, .remote c.s.next⟩ : Await))
    let g1 : Gang := { c.g with awaits := c.g.awaits ++ waits }
    c.remoteGang k d a b = if k = .rst ∧ kc = true then g1.putCounter ks (g1.counter ks + 1) else g1 := by
  intro kc ks waits g1
  have elems : c.takers.flatMap (c.remoteKept k d a b).elems =
      if k = .rst then [] else c.takers.flatMap (dstElems d (isWide c.etype)) := by
    rw [funext fun l => c.remoteKept_elems (k := k) (d := d) (a := a) (b := b) l]
    split
    · simp
    · rfl
  have hwaits : (c.takers.flatMap (c.remoteKept k d a b).elems).map (fun e => (⟨e, .remote c.s.next⟩ : Await)) = waits := by
    rw [elems]
    show _ = if k = .rst then [] else _
    split <;> rfl
  unfold Ctx.remoteGang Ctx.remoteCounter
  simp only [hwaits]
  split
  · next n h =>
    split at h
    · cases h
      rw [if_pos ‹_›]
    · cases h
  · next h =>
    split at h
    · cases h
    · rw [if_neg ‹_›]

/-- The checks of a word but for the last, of the peer's capability. -/
def Ctx.remoteStopHead (c : Ctx) (k : RemoteKind) (d a b : RegField) : Option Stop :=
  let w := c.words a 3
  let wide := isWide c.etype
  let block := if blockOk a 52 then sregs (sreg a) 3 else []
  let dregs := if k = .rld then [] else regsOf d wide ++ (if k = .cas then regsOf (casNew d wide) wide else [])
  let writes := if k = .rst then [] else regsOf d wide
  check (remoteTypeOk k c.etype) Cause.illegalEncoding <|>
  check (c.remoteOk k d a b) Cause.illegalOperand <|>
  c.interlock (block ++ regsOf b false ++ dregs ++ c.guardRegs ++ writes) <|>
  check (remoteBlockOk (k = .rst) w) Cause.illegalOperand <|>
  c.plumb block (regsOf b false) dregs c.guardRegs <|>
  c.groupWide (dword w 2) <|> c.readPosted (block ++ regsOf b false ++ dregs ++ c.guardRegs)

theorem orElse_assoc (a b c : Option Stop) : (a <|> b <|> c) = ((a <|> b) <|> c) := by cases a <;> rfl

theorem Ctx.remoteStop_eq (c : Ctx) (k : RemoteKind) (d a b : RegField) : c.remoteStop k d a b =
    (c.remoteStopHead k d a b <|>
      check (!decide (k = .add ∨ k = .cas ∨ k = .fadd) || c.s.hasCap (c.remotePeer a) k c.etype) Cause.atomicUnsupported) := by
  simp only [Ctx.remoteStop, Ctx.remoteStopHead, ← orElse_assoc]
  rfl

/-- The checks of a word whose peer has every capability, and what is left of them. -/
theorem Ctx.remoteStop_caps (c : Ctx) (k : RemoteKind) (d a b : RegField) {all : Ctx}
    (hall : all = { c with s := { c.s with caps := Tbl.set 0 c.s.caps (c.remotePeer a) 127 } })
    (atomic : k = .add ∨ k = .cas ∨ k = .fadd) (hok : all.remoteStop k d a b = none)
    (hcap : c.s.hasCap (c.remotePeer a) k c.etype = false) : c.remoteStop k d a b = some (.trap Cause.atomicUnsupported) := by
  have hchecks : all.remoteStop k d a b = (c.remoteStopHead k d a b <|>
      check (!decide (k = .add ∨ k = .cas ∨ k = .fadd) || all.s.hasCap (c.remotePeer a) k c.etype) Cause.atomicUnsupported) := by
    subst hall
    exact Ctx.remoteStop_eq _ k d a b
  rw [c.remoteStop_eq, (orElse_none.1 (hchecks.symm.trans hok)).1, hcap, decide_eq_true atomic]
  rfl

/-- A word with takers, no fault of a lane and room in its counter sends its operation. -/
theorem Ctx.remote_sends {c : Ctx} {k : RemoteKind} {d a b : RegField} (pass : c.remoteStop k d a b = none)
    (htake : c.takers ≠ []) (hroom : k = .rst → bit (dword (c.words a 3) 2) 21 = true →
      c.g.counter (bits (dword (c.words a 3) 2) 20 18) ≠ 4095) :
    c.remote k d a b = .next (c.sendRemote k d b (c.words a 3)) := by
  have hfull : ¬ (k = .rst ∧ bit (dword (c.words a 3) 2) 21 = true ∧
      c.g.counter (bits (dword (c.words a 3) 2) 20 18) = 4095) := fun h => hroom h.1 h.2.1 h.2.2
  simp [Ctx.remote, Ctx.run, pass, htake, hfull]

/-- What a word that sends leaves, the group going on or parked as its kind says. -/
theorem Ctx.remoteDone_sendRemote {c : Ctx} {k : RemoteKind} {d a b : RegField} (htake : c.takers ≠ [])
    (hok : ∀ l ∈ c.takers, c.remoteFault (c.words a 3) b (c.remotePeer a) l = none) :
    ∃ g', c.remoteDone k d a b g' (c.sendRemote k d b (c.words a 3)) ∧
      (k = .rld ∨ k = .rst → g'.rest = (c.remoteGang k d a b).rest ∧ g'.groups = c.groupsAt (c.pc + 4)) ∧
      (k ≠ .rld → k ≠ .rst → g'.rest = ((c.remoteGang k d a b).givesTurn c.slices).rest ∧
        ∀ x ∈ g'.groups, x.slices = c.slices → x.park = some (.ratom c.s.next)) := by
  rw [Ctx.sendRemote_of_faultless htake hok]
  split
  · next atomic =>
    obtain ⟨g', done, after⟩ := c.remoteDone_parkIn (k := k) (d := d) (a := a) (b := b)
    refine ⟨g', done, fun plain => ?_, fun _ _ => after⟩
    rcases plain with rfl | rfl <;> simp at atomic
  · next plain =>
    obtain ⟨g', done, after⟩ := c.remoteDone_nextIn (k := k) (d := d) (a := a) (b := b)
    exact ⟨g', done, fun _ => after, fun h1 h2 => absurd (by cases k <;> simp_all) plain⟩

/-- Settles O45: the operation that is sent, lane by lane, and what becomes of the gang; then the capability, and RFENCE. -/
theorem remoteOperationsAreSent : Obligations.RemoteOperationsAreSent := by
  unfold Obligations.RemoteOperationsAreSent
  intro s c d a b code hs w peer kc ks ops
  obtain rfl := State.issuing_state hs
  have hexec := exec_remoteOps hs d a b
  refine ⟨fun e he pass => ⟨fun nobody => ?_, fun htake hok hroom => ?_⟩, fun e he h1 h2 => fun pass hcap => ?_,
    fun t => ⟨fun h k => ?_, fun h => ?_⟩,
    fun hcode => ?_, fun hcode => ⟨fun busy => ?_, fun idle quiet => ?_⟩⟩
  · refine ⟨c.skip, ?_, c.wrote_skip⟩
    rw [hexec e he, Ctx.remote, pass, nobody]
    rfl
  · intro waits g1 g2
    have hg2 : c.remoteGang e.1 d a b = g2 := c.remoteGang_eq e.1 d a b
    obtain ⟨g', ⟨frame, others, own, settled, far, near, out⟩, plain, atomic⟩ :=
      Ctx.remoteDone_sendRemote (k := e.1) (d := d) htake hok
    rw [hg2] at plain atomic
    have hetype : (BitVec.ofNat 4 c.etype).toNat = c.etype % 16 := BitVec.toNat_ofNat _ _
    refine ⟨_, (hexec e he).trans (Ctx.remote_sends pass htake hroom), c.remoteSent e.1 d a b, c.remoteKept e.1 d a b, g', frame,
      others, own, settled, plain, atomic, far, near, rfl, rfl, out, rfl, rfl, rfl, rfl, hetype, rfl, rfl, rfl, ?_,
      fun hk => ?_, fun hk => ?_⟩
    · exact List.map_map
    · simp [Ctx.remoteSent, hk]
    · simp [Ctx.remoteSent, hk, Ctx.newOf, casNew]
  · have atomic : e.1 = .add ∨ e.1 = .cas ∨ e.1 = .fadd := by
      cases hk : e.1 <;> simp_all
    rw [hexec e he, Ctx.remote, c.remoteStop_caps e.1 d a b rfl atomic pass hcap]
    rfl
  · simp [State.hasCap, h]
  · simp [State.hasCap, capBit, h]
  · rw [exec_rfence hs, hcode]
    rfl
  · refine gives_run (exec_rfence hs code) ?_ ?_
    · rw [hcode, busy]
      rfl
    · rw [busy]
      exact Ctx.waitHere_spec (State.issuing_gang hs)
  · refine gives_run (exec_rfence hs code) ?_ ?_
    · rw [hcode, idle, Ctx.posted, firstPosted_none_iff.2 fun p hp => quiet p hp]
      rfl
    · rw [idle]
      exact c.wrote_skip

end Sys2Proof.Machine
end

section
/-! PROOFS. FMCAST where a receive of the same gang waits for the tile: the claim clears ERR marks of the receive's chunks, and with
them chunks of a failure that the gang still has posted (R234). -/

namespace Sys2Proof.Machine

/-- A failure in chunk 0 of the scratchpad, posted under tag 5. -/
def chunkFailure : Posted :=
  { at_ := .tag 5, cause := Cause.permission, addr := 0, lanes := [], opc := 0x10000, flags := 0, fdet := 0, req := 0, more := 0,
    chunks := [(false, 0)] }

/-- s0 to s7 hold the block of a FMCAST of 512 bytes from scratchpad offset 0 to core 0, on channel 5. -/
def castGang : Gang := { aGang with s := [(1, 0x01000000), (2, 512), (3, 0x00050001)], posted := [chunkFailure] }

/-- The receive, of the same gang: channel 5, to scratchpad offset 0. -/
def waitingReceive : FarReq :=
  { gang := 3, team := 2, core := 0, tag := 6, opc := 0x10000, kind := .mcrecv 5 0 none, charge := 0, pool := 0, pieces := [],
    srcPieces := [], arrived := [], sent := true, src := [], chunks := [], landed := 0, fails := [], badChunks := [],
    posted := false, left := [], held := false, walk := none, performed := false }

def castMachine : State := { machineOf castGang with reqs := [(1, some waitingReceive)] }

def castCtx : Ctx := ⟨castMachine, 3, castGang, { slices := 0xFF, pc := 0x10000, park := none, since := 0 }⟩

theorem castMachine_issuing : castMachine.issuing = some castCtx := by decide +kernel

/-- The failure still names its chunk. -/
def keepsFailure (g : Gang) : Bool := g.posted == [chunkFailure]

/-- Refutes O41: the statement has nothing of the gang changed by a FMCAST but its groups and registers; the claim of the
waiting receive takes a chunk from the failure that the gang has posted. -/
theorem not_farInstructionsAreAccepted : ¬ Obligations.FarInstructionsAreAccepted := by
  unfold Obligations.FarInstructionsAreAccepted
  intro h
  obtain ⟨-, -, -, -, -, -, -, hcast, -⟩ := h castMachine castCtx 0xC0 1 castMachine_issuing
  have hlands := hcast 0 (by decide +kernel) (by decide +kernel) (by decide +kernel) (fun _ => by decide +kernel)
  have hdone := hlands.2.2 (by decide +kernel) (by decide +kernel) (by decide +kernel) (by decide +kernel) (by decide +kernel)
  refine not_gives_of_gangAfter (f := keepsFailure) (fun t ht => ?_) ?_ hdone
  · obtain ⟨-, -, ⟨g', hg', -, hrest⟩, -⟩ := ht
    have hposted : g'.posted = castGang.posted := (congrArg Gang.posted hrest :)
    exact ⟨g', hg', by rw [keepsFailure, hposted]; exact beq_self_eq_true _⟩
  · decide +kernel

end Sys2Proof.Machine
end

section
/-! PROOFS. TRET: the groups, masks and MR copies that a trap captured stand again (R417). -/

namespace Sys2Proof.Machine

/-! ### Groups in order, and groups that are no longer parked -/

theorem pairwise_insertGroup {x : Group} {l : List Group}
    (h : l.Pairwise (fun x y => lowestSlice x.slices ≤ lowestSlice y.slices)) :
    (insertGroup x l).Pairwise (fun x y => lowestSlice x.slices ≤ lowestSlice y.slices) := by
  induction l with
  | nil => simp [insertGroup]
  | cons y ys ih =>
    obtain ⟨first, rest⟩ := List.pairwise_cons.1 h
    rw [insertGroup]
    split
    · next hle => exact List.pairwise_cons.2 ⟨fun z hz => (List.mem_cons.1 hz).elim (fun e => e ▸ hle)
        (fun hz => hle.trans (first z hz)), h⟩
    · next hlt =>
      refine List.pairwise_cons.2 ⟨fun z hz => ?_, ih rest⟩
      rcases mem_insertGroup.1 hz with rfl | hz
      · exact (Nat.lt_of_not_le hlt).le
      · exact first z hz

theorem pairwise_foldr_insertGroup (l : List Group) :
    (l.foldr insertGroup []).Pairwise (fun x y => lowestSlice x.slices ≤ lowestSlice y.slices) := by
  induction l with
  | nil => exact List.Pairwise.nil
  | cons x l ih => exact pairwise_insertGroup ih

/-- Undoing arrivals leaves where each group stands. -/
theorem Gang.foldl_unpark_shape (ts : List PendTrap) (g : Gang) :
    ∃ gs, ts.foldl (fun g t => g.modGroup t.slices (fun x => { x with park := none })) g = { g with groups := gs } ∧
      gs.map (fun x => (x.slices, x.pc)) = g.groups.map (fun x => (x.slices, x.pc)) := by
  induction ts generalizing g with
  | nil => exact ⟨g.groups, rfl, rfl⟩
  | cons t ts ih =>
    obtain ⟨gs, hgs, hmap⟩ := ih (g.modGroup t.slices (fun x => { x with park := none }))
    refine ⟨gs, hgs, hmap.trans ?_⟩
    rw [Gang.modGroup, List.map_map]
    refine List.map_congr_left fun x _ => ?_
    show (_, _) = (_, _)
    dsimp only
    split <;> rfl

theorem Gang.slicesDied_shape (g : Gang) (dead : SliceMask) :
    ∃ ts gs, g.slicesDied dead = { g with pendTraps := ts, groups := gs } ∧
      gs.map (fun x => (x.slices, x.pc)) = g.groups.map (fun x => (x.slices, x.pc)) := by
  obtain ⟨gs, hgs, hmap⟩ := Gang.foldl_unpark_shape (sliceDiedGo dead g.inh [] g.groups)
    { g with pendTraps := g.pendTraps ++ sliceDiedGo dead g.inh [] g.groups }
  exact ⟨_, gs, hgs, hmap⟩

theorem sliceDiedGo_zero (handler : Bool) (seen : List VAddr) (l : List Group) : sliceDiedGo 0 handler seen l = [] := by
  induction l generalizing seen with
  | nil => rfl
  | cons x l ih =>
    rw [sliceDiedGo]
    split
    · rw [if_neg (by simp), ih]
    · exact ih seen

/-- Where no slice has died, no arrival is undone. -/
theorem Gang.groups_slicesDied_zero (g : Gang) : (g.slicesDied 0).groups = g.groups := by
  rw [Gang.slicesDied, sliceDiedGo_zero]
  rfl

/-! ### The gang after TRET -/

/-- A captured group as it stands again: its live slices, the trapping one at TPC. -/
def Group.backAt (live trapping : SliceMask) (tpc : VAddr) (x : Group) : Group :=
  { x with slices := x.slices &&& live, pc := if x.slices = trapping then tpc else x.pc, idle := 0 }

theorem groups_backAt (live trapping : SliceMask) (tpc : VAddr) (l : List Group) :
    (l.map (fun x => if x.slices == trapping then { x with pc := tpc } else x)).filterMap
        (fun x => if x.slices &&& live = 0 then none else some { x with slices := x.slices &&& live, idle := 0 }) =
      (l.filter (fun x => x.slices &&& live != 0)).map (Group.backAt live trapping tpc) := by
  induction l with
  | nil => rfl
  | cons x l ih =>
    by_cases ht : x.slices = trapping <;> by_cases hl : x.slices &&& live = 0 <;> simp_all [Group.backAt]

theorem Gang.live_commitAll (g : Gang) : g.commitAll.live = g.live := by
  have rest : g.commitAll.rest = g.rest := Gang.rest_commit g _
  have hex : g.commitAll.exited = g.exited := (congrArg Gang.exited rest :)
  have hslice : g.commitAll.sliceLive = g.sliceLive := by
    funext sl
    rw [Gang.sliceLive, Gang.sliceLive, hex]
  rw [Gang.live, Gang.live, hslice]

/-- What TRET leaves of the gang, but for the groups of slices that died in the handler. -/
def Ctx.tretGang (c : Ctx) (b : Block) : Gang :=
  (c.g.commitAll.leaveHandler b).slicesDied (c.g.trap.live &&& ~~~(c.g.commitAll.leaveHandler b).live)

theorem exec_tret {c : Ctx} (hs : c.s.issuing = some c) : exec .tret c.s = c.run (check c.g.inh Cause.illegalEncoding)
    (match c.g.block with
     | some b => (c.s.putGang c.id (c.tretGang b)).endGangIfDone c.id
     | none => c.skip) := withIssue_some hs _

/-- Settles O37: the gang after TRET, field by field, and its groups. -/
theorem trapReturnRestoresTheCapturedGroups : Obligations.TrapReturnRestoresTheCapturedGroups := by
  unfold Obligations.TrapReturnRestoresTheCapturedGroups
  intro s c hs
  obtain rfl := State.issuing_state hs
  refine ⟨fun hin => ?_, fun b hin hb hlive => ?_⟩
  · rw [exec_tret hs, hin]
    rfl
  intro kept
  have rest : c.g.commitAll.rest = c.g.rest := Gang.rest_commit c.g _
  have hlv : (c.g.commitAll.leaveHandler b).live = c.g.live := c.g.live_commitAll
  have htpc : c.g.commitAll.trap.tpc = c.g.trap.tpc := (congrArg (fun g : Gang => g.trap.tpc) rest :)
  have hexited : c.g.commitAll.exited = c.g.exited := (congrArg Gang.exited rest :)
  have hgroups : (c.g.commitAll.leaveHandler b).groups = kept.foldr insertGroup [] := by
    show List.foldr insertGroup [] _ = _
    rw [groups_backAt, Gang.live_commitAll, htpc]
    rfl
  have hsame : c.g.live = c.g.trap.live → (c.tretGang b).groups = kept.foldr insertGroup [] := by
    intro h
    have hdead : c.g.trap.live &&& ~~~(c.g.commitAll.leaveHandler b).live = 0 := by
      rw [hlv, ← h]
      simp
    rw [Ctx.tretGang, hdead, Gang.groups_slicesDied_zero, hgroups]
  obtain ⟨ts, gs, hshape, hmap⟩ := (c.g.commitAll.leaveHandler b).slicesDied_shape
    (c.g.trap.live &&& ~~~(c.g.commitAll.leaveHandler b).live)
  have hgang : c.tretGang b = { c.g.commitAll.leaveHandler b with pendTraps := ts, groups := gs } := hshape
  rw [hgroups] at hmap
  refine gives_run (c := c) (stop := check c.g.inh Cause.illegalEncoding) (t := c.s.putGang c.id (c.tretGang b)) ?_ (by rw [hin]; rfl) ⟨c.tretGang b, rfl, ?_⟩
  · have hl : (c.tretGang b).live = c.g.live := by
      rw [hgang]
      exact hlv
    have hdone : (c.s.putGang c.id (c.tretGang b)).endGangIfDone c.id = c.s.putGang c.id (c.tretGang b) := by
      simp [State.endGangIfDone, hl, show c.g.live ≠ 0#8 from hlive]
    rw [exec_tret hs, hb]
    exact congrArg (c.run _) hdone
  · have hgs : (c.tretGang b).groups = gs := by rw [hgang]
    rw [hgs] at hsame
    rw [hgang]
    refine ⟨rfl, rfl, rfl, fun l hl => ?_, fun e => rfl, rfl, fun l => rfl, fun y => ?_, ?_, fun h y => ?_, hexited,
      (congrArg Gang.acr rest :), (congrArg Gang.k rest :), (congrArg Gang.mbox rest :), (congrArg Gang.evpend rest :)⟩
    · show (b.emask &&& ~~~c.g.commitAll.exited).getLsbD l = _
      rw [hexited]
      simp [hl]
    · show y ∈ gs.map _ ↔ _
      rw [hmap]
      simp only [List.mem_map, mem_foldr_insertGroup]
    · have sorted := pairwise_foldr_insertGroup kept
      have hpairs := fun l => List.pairwise_map (l := l) (f := fun x : Group => (x.slices, x.pc))
        (R := fun p q : SliceMask × VAddr => lowestSlice p.1 ≤ lowestSlice q.1)
      exact (hpairs gs).1 (hmap ▸ (hpairs _).2 sorted)
    · show y ∈ gs ↔ _
      rw [hsame h, mem_foldr_insertGroup]

end Sys2Proof.Machine
end

section
/-! PROOFS. What raising a halt line leaves of teams and of the partitions' halts (R420). -/

namespace Sys2Proof.Machine

/-- The state of a partition's halt line: raised, fatal, its first cause, its sequence number. -/
def Partition.haltLine (p : Partition) : Bool × Bool × Byte × BitVec 16 := (p.halted, p.fatal, p.first, p.hseq)

/-- A partition but for its stop area's places, its save area and its notices. -/
def Partition.kept (p : Partition) : Partition := { p with stopNext := 0, stopLost := 0, ctxUsed := [], notices := [] }

/-- t holds every partition of s as it stands there, but for those. -/
def State.keepsParts (s t : State) : Prop := ∀ n, (t.part n).kept = (s.part n).kept

/-- t holds the teams of s too. -/
def State.sameHalts (s t : State) : Prop := t.teams = s.teams ∧ s.keepsParts t

section
variable {s t u : State}

theorem State.sameHalts_refl (s : State) : s.sameHalts s := ⟨rfl, fun _ => rfl⟩

theorem State.sameHalts_trans (h : s.sameHalts t) (h' : t.sameHalts u) : s.sameHalts u :=
  ⟨h'.1.trans h.1, fun n => (h'.2 n).trans (h.2 n)⟩

theorem State.sameHalts_of_eq (s : State) {t : State} (hteams : t.teams = s.teams) (hparts : t.parts = s.parts) : s.sameHalts t :=
  ⟨hteams, fun n => by rw [State.part, State.part, hparts]⟩

theorem State.sameHalts_foldl {α : Type} (l : List α) {f : State → α → State} (h : ∀ (v : State) a, v.sameHalts (f v a)) (s : State) :
    s.sameHalts (l.foldl f s) :=
  List.foldlRecOn l f (motive := fun v => s.sameHalts v) (State.sameHalts_refl s) (fun _ hv a _ => State.sameHalts_trans hv (h _ a))

theorem State.part_putPart (s : State) (n m : Nat) (p : Partition) : (s.putPart n p).part m = if m = n then p else s.part m :=
  Tbl.get_set _ _ _ _ _

theorem State.keepsParts_modPart (s : State) (n : Nat) {f : Partition → Partition} (hf : ∀ p, (f p).kept = p.kept) :
    s.keepsParts (s.modPart n f) := by
  intro m
  rw [State.modPart, State.part_putPart]
  split
  · next h => rw [hf, h]
  · rfl

theorem State.sameHalts_modGang (s : State) (id : Nat) (f : Gang → Gang) : s.sameHalts (s.modGang id f) := by
  unfold State.modGang
  split
  · exact ⟨rfl, fun _ => rfl⟩
  · exact State.sameHalts_refl s

theorem State.sameHalts_freezeCore (s : State) (core : Nat) : s.sameHalts (s.freezeCore core) :=
  State.sameHalts_trans (t := State.modCore { s with free := s.free + 1 } core (fun c => c.freeze (Config.freeFreezeRows s.free)))
    ⟨rfl, fun _ => rfl⟩ (State.sameHalts_foldl _ (fun v _ => v.sameHalts_modGang _ _) _)

theorem State.sameHalts_holdRequests (s : State) (core : Nat) : s.sameHalts (s.holdRequests core) := by
  have held : ∀ (v : State) (e : Nat × FarReq), v.sameHalts (v.putReq e.1 { e.2 with held := true }) :=
    fun _ _ => ⟨rfl, fun _ => rfl⟩
  unfold State.holdRequests
  split
  · exact State.sameHalts_refl s
  · exact State.sameHalts_trans (t := { s with free := s.free + 1 }) ⟨rfl, fun _ => rfl⟩
      (State.sameHalts_foldl _ held _)

theorem State.sameHalts_putStopRecord (s : State) (part n : Nat) (bs : List Byte) : s.sameHalts (s.putStopRecord part n bs) := by
  have hstore : ∀ pa, s.sameHalts (s.iodStore pa bs []) := fun pa => by
    unfold State.iodStore
    split <;> exact ⟨rfl, fun _ => rfl⟩
  rw [State.putStopRecord]
  split
  · exact hstore _
  · exact State.sameHalts_refl s

theorem State.sameHalts_stopCore (s : State) (part hseq : Nat) (c : Option Culprit) (core : Nat) :
    s.sameHalts (s.stopCore part hseq c core) :=
  State.sameHalts_trans (t := { s with free := s.free + 1 + 1 + 1 }) ⟨rfl, fun _ => rfl⟩
    (State.sameHalts_trans (State.sameHalts_putStopRecord _ _ _ _)
      (State.sameHalts_trans (State.sameHalts_putStopRecord _ _ _ _) (State.sameHalts_putStopRecord _ _ _ _)))

theorem State.sameHalts_putModuleRecord (s : State) (part hseq modid : Nat) (r : FarReq) (done reached : Nat) :
    s.sameHalts (s.putModuleRecord part hseq modid r done reached) := by
  rw [State.putModuleRecord]
  split
  · exact State.sameHalts_trans (t := { s with free := s.free + 1 }) ⟨rfl, fun _ => rfl⟩
      (State.sameHalts_trans (State.sameHalts_putStopRecord _ _ _ _) (⟨rfl, State.keepsParts_modPart _ _ fun _ => rfl⟩))
  · exact ⟨rfl, State.keepsParts_modPart _ _ fun _ => rfl⟩

theorem State.sameHalts_stopAt (s : State) (id m : Nat) : s.sameHalts (s.stopAt id m).1 := by
  unfold State.stopAt
  split
  · exact State.sameHalts_refl s
  · dsimp only
    split
    · exact ⟨rfl, fun _ => rfl⟩
    · split <;> exact ⟨rfl, fun _ => rfl⟩

theorem State.sameHalts_stopRequest (s : State) (part hseq id : Nat) (r : FarReq) (m : Nat) :
    s.sameHalts (s.stopRequest part hseq id r m) := by
  have hat := s.sameHalts_stopAt id m
  unfold State.stopRequest
  split
  · split
    · next s1 x h =>
      rw [h] at hat
      exact State.sameHalts_trans hat (State.sameHalts_putModuleRecord _ _ _ _ _ _ _)
    · next s1 h =>
      rw [h] at hat
      exact hat
  · exact State.sameHalts_refl s

theorem State.sameHalts_stopModules (s : State) (part hseq : Nat) : s.sameHalts (s.stopModules part hseq) := by
  refine State.sameHalts_foldl _ (fun v e => ?_) s
  split
  · exact State.sameHalts_refl v
  · split
    · split
      · exact State.sameHalts_putModuleRecord _ _ _ _ _ _ _
      · exact State.sameHalts_refl v
    · exact State.sameHalts_foldl _ (fun w m => w.sameHalts_stopRequest _ _ _ _ _) v

/-- The effect of a raise on a line that is down: the line, and what is kept (R420). -/
theorem State.raiseHalt_kept {part : Nat} (h : (s.part part).halted = false) (fatal : Bool) (c : Option Culprit) :
    (s.raiseHalt part fatal c).teams = s.teams ∧
    ∀ n, ((s.raiseHalt part fatal c).part n).kept = if n = part then
      { (s.part part).kept with
        halted := true, fatal := fatal, first := if fatal then Cause.contextFatal else 0, hseq := (s.part part).hseq + 1 }
      else (s.part n).kept := by
  have raised : State.sameHalts (s.putPart part { s.part part with
      halted := true, fatal := fatal, first := if fatal then Cause.contextFatal else 0
      hseq := (s.part part).hseq + 1, stopNext := 0 }) (s.raiseHalt part fatal c) := by
    rw [State.raiseHalt, if_neg (show ¬ (s.part part).halted = true by simp [h])]
    exact State.sameHalts_trans (State.sameHalts_foldl _ State.sameHalts_freezeCore _)
      (State.sameHalts_trans (State.sameHalts_foldl _ State.sameHalts_holdRequests _)
        (State.sameHalts_trans (State.sameHalts_foldl _ (fun v n => v.sameHalts_stopCore _ _ _ n) _)
          (State.sameHalts_stopModules _ _ _)))
  refine ⟨raised.1, fun n => ?_⟩
  rw [raised.2, State.part_putPart]
  split <;> rfl

/-- A halt line that is down rises; nothing else of a halt line or of a team changes (R420). -/
theorem State.raiseHalt_down {part : Nat} (h : (s.part part).halted = false) (fatal : Bool) (c : Option Culprit) :
    (s.raiseHalt part fatal c).teams = s.teams ∧
    ∀ n, ((s.raiseHalt part fatal c).part n).haltLine = if n = part then
      (true, fatal, if fatal then Cause.contextFatal else 0, (s.part part).hseq + 1) else (s.part n).haltLine := by
  obtain ⟨teams, kept⟩ := State.raiseHalt_kept h fatal c
  refine ⟨teams, fun n => ?_⟩
  have line := congrArg Partition.haltLine (kept n)
  change ((s.raiseHalt part fatal c).part n).haltLine = _ at line
  rw [line]
  split <;> rfl

/-- A halt line that is up stays up, and a fatal raise makes it fatal. -/
theorem State.raiseHalt_up {part : Nat} (h : (s.part part).halted = true) (fatal : Bool) (c : Option Culprit) :
    s.raiseHalt part fatal c = s.modPart part (fun q => { q with fatal := q.fatal || fatal }) := by
  rw [State.raiseHalt, if_pos h]

/-- A raise changes no part of a partition but its halt line. -/
theorem State.raiseHalt_but (s : State) (part : Nat) (fatal : Bool) (c : Option Culprit) (n : Nat) :
    ∃ halted fatal' first hseq, ((s.raiseHalt part fatal c).part n).kept =
      { (s.part n).kept with halted := halted, fatal := fatal', first := first, hseq := hseq } := by
  cases h : (s.part part).halted
  · have kept := (State.raiseHalt_kept h fatal c).2 n
    rw [kept]
    split
    · next hn =>
      rw [hn]
      exact ⟨_, _, _, _, rfl⟩
    · exact ⟨_, _, _, _, rfl⟩
  · rw [State.raiseHalt_up h, State.modPart, State.part_putPart]
    split
    · next hn =>
      rw [hn]
      exact ⟨_, _, _, _, rfl⟩
    · exact ⟨_, _, _, _, rfl⟩

end

end Sys2Proof.Machine
end

section
/-! PROOFS. Words and fetches that trap (R54, R126, R414, R478). -/

namespace Sys2Proof.Machine

theorem exec_brk {c : Ctx} (hs : c.s.issuing = some c) (imm : BitVec 16) :
    exec (.brk imm) c.s = .next (c.s.takeTrap c.id (c.trapInfo Cause.breakpoint imm c.pc)) := withIssue_some hs _

theorem exec_illegalOpcode {c : Ctx} (hs : c.s.issuing = some c) (w : BitVec 32) :
    exec (.illegalOpcode w) c.s = .next (c.raise Cause.illegalOpcode) := withIssue_some hs _

theorem exec_trap {c : Ctx} (hs : c.s.issuing = some c) (imm : BitVec 16) :
    exec (.trap imm) c.s = c.run (c.hazard [] [] [] c.guardRegs [])
      (if c.once then c.s.takeTrap c.id (c.trapInfo Cause.software imm (c.pc + 4)) else c.skip) := withIssue_some hs _

/-- The lane that the record of a fetch fault names. -/
def Ctx.fetchLane (c : Ctx) : Nat := (c.lanes.find? (fun l => !c.g.exited.getLsbD l)).getD c.g.lowestLive

theorem exec_fetchFault {c : Ctx} (hs : c.s.issuing = some c) {cause : Byte} (h : c.s.fetchWord c.part c.pc = .error cause) :
    exec .fetchFault c.s = .next (c.s.takeTrap c.id { c.trapInfo cause 0 c.pc with
      records := [LaneFault.record ⟨c.fetchLane, cause, c.pc.toNat, false⟩] }) := by
  have hexec : exec .fetchFault c.s = withIssue c.s _ := rfl
  rw [hexec, withIssue_some hs]
  simp only [h]
  rfl

/-- The lowest lane of the group that has not exited. -/
theorem Ctx.fetchLane_eq {c : Ctx} {lane : Nat} (hl : lane < 32) (hin : c.slices.getLsbD (lane / 4) = true)
    (hlive : c.g.exited.getLsbD lane = false)
    (hlow : ∀ l < lane, c.slices.getLsbD (l / 4) = true → c.g.exited.getLsbD l = true) : c.fetchLane = lane := by
  have hfind : c.lanes.find? (fun l => !c.g.exited.getLsbD l) = some lane := by
    rw [Ctx.lanes, lanesOf, allLanes, List.find?_filter, List.find?_range_eq_some]
    refine ⟨by simp [sliceOf, hin, hlive], List.mem_range.2 hl, fun l hlt => ?_⟩
    cases hs : c.slices.getLsbD (l / 4)
    · simp [sliceOf, hs]
    · simp [hlow l hlt hs]
  rw [Ctx.fetchLane, hfind, Option.getD_some]

/-- Settles O36: each word's trap, the record of a fetch fault, and CONTEXT_FATAL. -/
theorem trappingWordsTakeTheirTrap : Obligations.TrappingWordsTakeTheirTrap := by
  unfold Obligations.TrappingWordsTakeTheirTrap
  intro s c imm w hs info
  obtain rfl := State.issuing_state hs
  refine ⟨exec_brk hs imm, exec_illegalOpcode hs w, fun hok => ⟨fun on => ?_, fun off => ?_⟩,
    fun cause lane hfault hin hl hlive hlow => ?_, fun hin hdown t => ?_⟩
  · rw [exec_trap hs, hok, on]
    rfl
  · refine gives_run (exec_trap hs imm) hok ?_
    rw [off]
    exact c.wrote_skip
  · rw [exec_fetchFault hs hfault, Ctx.fetchLane_eq hl hin hlive hlow]
    rfl
  · intro p
    have hg := State.issuing_gang hs
    have htrap : c.s.takeTrap c.id t = c.s.raiseHalt (c.s.teamPart c.g.team) true (some ⟨c.g.core, c.g.slot, t.cause, t.opc⟩) := by
      rw [State.takeTrap_inside hg hin, State.contextFatal, hg]
    have hline := (State.raiseHalt_down hdown true (some ⟨c.g.core, c.g.slot, t.cause, t.opc⟩)).2 (c.s.teamPart c.g.team)
    rw [if_pos rfl, ← htrap] at hline
    exact ⟨congrArg Prod.fst hline, congrArg (fun x => x.2.1) hline, congrArg (fun x => x.2.2.1) hline,
      congrArg (fun x => x.2.2.2) hline⟩

end Sys2Proof.Machine
end

section
/-! PROOFS. ACRRD, ACRWR, HALT, TLBINV, CTXSV, TSAVE and TLOAD (R108, R109, R392, R418, R428). -/

namespace Sys2Proof.Machine

section
variable {c : Ctx} (hs : c.s.issuing = some c)
include hs

theorem exec_acrrd (d : RegField) : exec (.acrrd d) c.s =
    c.run (c.onceStop (scalarDst d) true true [] [] [] (regsOf d false)) (c.scalarResult d c.g.acr) := withIssue_some hs _

theorem exec_acrwr (a : RegField) : exec (.acrwr a) c.s =
    c.run (c.onceStop (scalarOk a) true true (regsOf a false) [] [] [])
      (c.onceDo (c.next c.s { c.g with acr := Acr.writable (c.readS a) })) := withIssue_some hs _

theorem exec_halt : exec .halt c.s =
    c.run (c.onceStop true true c.privileged [] [] [] []) (c.onceDo (c.skip.raiseHalt c.part false none)) := withIssue_some hs _

/-- The address whose page a TLBINV drops. -/
def Ctx.tlbAddress (c : Ctx) (a : RegField) : Nat :=
  bits (c.sval (sreg a)).toNat 31 16 * 65536 + bits (c.sval (sreg a + 1)).toNat 23 0 * 2 ^ 32

theorem exec_tlbinv (a : RegField) : exec (.tlbinv a) c.s =
    c.run (c.onceStop (blockOk a 54) (bits (c.sval (sreg a + 1)).toNat 31 24 == 0) c.privileged (sregs (sreg a) 2) [] [] [])
      (c.onceDo (c.skip.dropPages c.part (if bit (c.sval (sreg a)).toNat 0 then none else some (c.tlbAddress a)))) :=
  withIssue_some hs _

theorem exec_tsave (a : RegField) : exec (.tsave a) c.s =
    c.run (c.blockStop a <|> (if c.once then c.loadsFirst else none))
      (c.onceDo (match c.blockRuns a Need.store with
        | .error e => c.s.contextFatal c.id e.1 c.pc
        | .ok rs => c.bounded rs.length
            (State.pushRuns (.engine c.id) c.agent rs (c.g.snapshot.bytes c.g.index c.tid) c.skip))) := withIssue_some hs _

theorem exec_tload (a : RegField) : exec (.tload a) c.s =
    c.run (c.blockStop a <|> (if c.once then c.sourceFirst else none))
      (c.onceDo (match c.blockRuns a Need.load with
        | .error e => c.s.contextFatal c.id e.1 c.pc
        | .ok rs => match Block.ofBytes (c.s.readRuns rs) c.g.index c.tid c.g.live with
          | some b => c.next (c.s.mergeRuns c.agent rs)
              { c.g with block := some (c.g.blockBack b), trap := { c.g.trap with loaded := true } }
          | none => c.next (c.s.mergeRuns c.agent rs) { c.g with trap := { c.g.trap with badblk := true } })) :=
  withIssue_some hs _

end

/-- CTXSV of a team: it goes on, or parks and makes the team a victim. -/
theorem exec_ctxsv {c : Ctx} (hs : c.s.issuing = some c) {tm : Team} (ht : c.team = some tm) (a : RegField) :
    exec (.ctxsv a) c.s =
    c.run (c.onceStop (scalarOk a) (decide ((c.readS a).toNat ≤ 1)) true (regsOf a false) [] [] [])
      (c.onceDo
        (if (c.readS a).toNat == 0 && !tm.victim then c.skip
         else ((c.park .ctxsv).modGang c.id (fun g => { g with ctxsv := true })).modTeam c.g.team (fun t =>
           { t with victim := true }))) := by
  have hexec : exec (.ctxsv a) c.s = withIssue c.s _ := rfl
  rw [hexec, withIssue_some hs]
  simp only [ht]

/-! ### What the words leave -/

/-- A HALT raises the line, which was down or up. -/
theorem Ctx.raiseHalt_of_halt (c : Ctx) : let t := c.skip.raiseHalt c.part false none
    (t.part c.part).halted = true ∧ ((c.s.part c.part).halted = false →
      (t.part c.part).hseq = (c.s.part c.part).hseq + 1 ∧ (t.part c.part).fatal = false) := by
  intro t
  cases h : (c.s.part c.part).halted
  · have hline := (State.raiseHalt_down (s := c.skip) (part := c.part) h false none).2 c.part
    rw [if_pos rfl] at hline
    exact ⟨congrArg Prod.fst hline, fun _ => ⟨congrArg (fun x => x.2.2.2) hline, congrArg (fun x => x.2.1) hline⟩⟩
  · have hup : t = c.skip.modPart c.part (fun q => { q with fatal := q.fatal || false }) :=
      State.raiseHalt_up (s := c.skip) (part := c.part) h false none
    refine ⟨?_, fun hdown => Bool.noConfusion hdown⟩
    rw [hup, State.modPart, State.part_putPart, if_pos rfl]
    exact h

theorem tlbinv_address {u v : Nat} (hu : u < 2 ^ 32) :
    bits u 31 16 * 65536 + bits v 23 0 * 2 ^ 32 = u / 2 ^ 16 * 2 ^ 16 + v % 2 ^ 24 * 2 ^ 32 := by
  have hhigh : u / 2 ^ 16 % 2 ^ 16 = u / 2 ^ 16 := Nat.mod_eq_of_lt (by omega)
  show u / 2 ^ 16 % 2 ^ 16 * 65536 + v / 2 ^ 0 % 2 ^ 24 * 2 ^ 32 = _
  rw [hhigh, Nat.pow_zero, Nat.div_one]
  rfl

/-- The cached pages that a TLBINV leaves. -/
theorem mem_dropPages {s : State} {part : Nat} {va : Option Nat} {p : CachedPage} : p ∈ (s.dropPages part va).tlb ↔
    p ∈ s.tlb ∧ ¬ (p.part = part ∧ ∀ x, va = some x → p.va = x / p.size * p.size) := by
  cases va with
  | none => simp [State.dropPages]
  | some x => simp [State.dropPages, ← Decidable.not_and_iff_or_not]

/-- A CTXSV that parks: its group waits, its gang and its team hold its request. -/
theorem Ctx.ctxsv_parked {c : Ctx} (hg : c.s.gang? c.id = some c.g) (hgrp : c.grp ∈ c.g.groups) {tm : Team} (ht : c.team = some tm) :
    let t := ((c.park .ctxsv).modGang c.id (fun g => { g with ctxsv := true })).modTeam c.g.team (fun t => { t with victim := true })
    ∃ g', t.gang? c.id = some g' ∧ g'.ctxsv = true ∧ t.team? c.g.team = some { tm with victim := true } ∧
      (∃ y ∈ g'.groups, y.slices = c.slices ∧ y.pc = c.pc ∧ y.park = some .ctxsv) := by
  intro t
  obtain ⟨g', hpark, -, -, hgroups⟩ := Ctx.parked_park .ctxsv hg
  have hteam : (c.park .ctxsv).team? c.g.team = some tm := by
    rw [hpark]
    exact ht
  have hself : (c.park .ctxsv).gang? c.id = some g' := by
    rw [hpark, State.gang?_putGang_same]
  have htt : t = ((c.park .ctxsv).putGang c.id { g' with ctxsv := true }).putTeam c.g.team { tm with victim := true } := by
    show State.modTeam _ _ _ = _
    rw [State.modGang_some hself]
    exact State.modTeam_some (s := (c.park .ctxsv).putGang c.id { g' with ctxsv := true }) hteam _
  rw [htt]
  refine ⟨{ g' with ctxsv := true }, State.gang?_putGang_same _ _ _, rfl, State.team?_putTeam_same _ _ _,
    { c.grp with park := some .ctxsv, since := c.s.next, idle := Mr.cad c.mr + 1 }, ?_, rfl, rfl, rfl⟩
  show _ ∈ g'.groups
  rw [hgroups]
  exact List.mem_map.2 ⟨c.grp, hgrp, if_pos (beq_self_eq_true _)⟩

theorem Ctx.blockStop_outside {c : Ctx} (h : c.g.inh = false) (a : RegField) :
    c.blockStop a = some (.trap Cause.illegalEncoding) := by
  rw [Ctx.blockStop, h]
  rfl

/-- The groups of a block read back: one whose bytes are those of a captured group stands as that group was captured. -/
theorem Gang.blockBack_groups {g : Gang} {k : Block} (hk : g.block = some k) (b : Block) {i : Nat} {x : Group}
    (hx : b.groups[i]? = some x) : ∃ y, (g.blockBack b).groups[i]? = some y ∧ y.blockBytes = x.blockBytes ∧
      ((∀ z ∈ k.groups, z.blockBytes ≠ x.blockBytes) → y = x) ∧
      ((∃ z ∈ k.groups, z.blockBytes = x.blockBytes) → y ∈ k.groups) := by
  have hback : (g.blockBack b).groups = b.groups.map (fun x =>
      (k.groups.find? (fun y => y.blockBytes == x.blockBytes)).getD x) := by
    rw [Gang.blockBack, hk]
    rfl
  refine ⟨(k.groups.find? (fun y => y.blockBytes == x.blockBytes)).getD x, by rw [hback, List.getElem?_map, hx]; rfl, ?_⟩
  cases hfind : k.groups.find? (fun y => y.blockBytes == x.blockBytes) with
  | none =>
    have none_of := List.find?_eq_none.1 hfind
    exact ⟨rfl, fun _ => rfl, fun ⟨z, hz, he⟩ => absurd (beq_iff_eq.2 he) (none_of z hz)⟩
  | some y =>
    have heq : y.blockBytes = x.blockBytes := by simpa using List.find?_some hfind
    have hmem := List.mem_of_find?_eq_some hfind
    exact ⟨heq, fun h => absurd heq (h y hmem), fun _ => hmem⟩

/-- Settles O38: word by word. -/
theorem recoveryInstructionsComplete : Obligations.RecoveryInstructionsComplete := by
  unfold Obligations.RecoveryInstructionsComplete
  intro s c d a hs on x lo hi
  obtain rfl := State.issuing_state hs
  refine ⟨fun hok => ?_, fun hok => ?_, fun hwait hpriv => ?_, fun hok => ?_, fun hok => ?_, fun tm ht hok => ⟨fun hx hv => ?_, fun hx => ?_⟩,
    fun hin => ⟨?_, ?_⟩, fun rs hok hruns hloads hroom => ?_, fun rs hok hruns hfirst => ?_, fun b k hk => ⟨?_, rfl, rfl, rfl, fun i x hx => ?_⟩⟩
  · exact gives_run (exec_acrrd hs d) hok (Ctx.wroteAt_scalarResult on d _)
  · refine gives_run (exec_acrwr hs a) hok ?_
    rw [Ctx.onceDo_true on]
    exact Ctx.went_next_other c c.s
  · rw [exec_halt hs, Ctx.onceStop, Ctx.onceChecks, hpriv]
    simp only [List.nil_append, List.append_nil, hwait]
    rfl
  · refine gives_run (exec_halt hs) hok ?_
    rw [Ctx.onceDo_true on]
    exact c.raiseHalt_of_halt
  · refine gives_run (exec_tlbinv hs a) hok ?_
    rw [Ctx.onceDo_true on]
    refine ⟨(c.skip.dropPages c.part (if bit lo 0 then none else some (c.tlbAddress a))).tlb, ?_, fun p => ?_⟩
    · obtain ⟨g', hskip, after⟩ := c.wrote_skip
      rw [hskip]
      exact ⟨g', rfl, after⟩
    · have haddr : c.tlbAddress a = lo / 2 ^ 16 * 2 ^ 16 + hi % 2 ^ 24 * 2 ^ 32 := tlbinv_address (c.sval (sreg a)).isLt
      have hbit : bit lo 0 = decide (lo % 2 = 1) := by
        rw [bit, pow_zero, Nat.div_one]
        rfl
      have hsame : c.skip.tlb = c.s.tlb := rfl
      refine mem_dropPages.trans ?_
      rw [haddr, hbit, hsame]
      by_cases hall : lo % 2 = 1 <;> simp [hall]
  · refine gives_run (exec_ctxsv hs ht a) hok ?_
    have hzero : (c.readS a).toNat = 0 := congrArg BitVec.toNat hx
    rw [Ctx.onceDo_true on, hzero, hv]
    exact c.wrote_skip
  · refine gives_run (exec_ctxsv hs ht a) hok ?_
    have hpark : ((c.readS a).toNat == 0 && !tm.victim) = false := by
      rcases hx with hx | hv
      · rw [show (c.readS a).toNat = 1 from congrArg BitVec.toNat hx]
        rfl
      · simp [hv]
    rw [Ctx.onceDo_true on, hpark]
    exact Ctx.ctxsv_parked (State.issuing_gang hs) (State.issuing_mem hs) ht
  · rw [exec_tsave hs, Ctx.blockStop_outside hin]
    rfl
  · rw [exec_tload hs, Ctx.blockStop_outside hin]
    rfl
  · have hroom' : ¬ 32767 < c.s.unapplied c.agent + rs.length := Nat.not_lt.2 hroom
    rw [exec_tsave hs, hok, on, hruns, Ctx.loadsFirst, hloads]
    simp only [Ctx.onceDo_true on, Ctx.bounded, if_neg hroom']
    rfl
  · intro bs s1
    have loads : ∀ t : State, (match Block.ofBytes (c.s.readRuns rs) c.g.index c.tid c.g.live with
        | some b => c.next s1 { c.g with block := some (c.g.blockBack b), trap := { c.g.trap with loaded := true } }
        | none => c.next s1 { c.g with trap := { c.g.trap with badblk := true } }) = t → exec (.tload a) c.s = .next t := by
      intro t ht
      rw [exec_tload hs, hok, on, hruns, hfirst]
      simp only [Ctx.onceDo_true on]
      exact congrArg Host.Outcome.next ht
    refine ⟨fun b hb => ⟨_, loads _ rfl, ?_⟩, fun hb => ⟨_, loads _ rfl, ?_⟩⟩
    · have hb' : Block.ofBytes (c.s.readRuns rs) c.g.index c.tid c.g.live = some b := hb
      rw [hb']
      exact Ctx.went_next_other c s1
    · have hb' : Block.ofBytes (c.s.readRuns rs) c.g.index c.tid c.g.live = none := hb
      rw [hb']
      exact Ctx.went_next_other c s1
  · exact List.length_map _
  · exact Gang.blockBack_groups hk b hx

end Sys2Proof.Machine
end

section
/-! PROOFS. The fields of a record (Table 17.6). -/

namespace Sys2Proof.Machine

theorem Memory.drop_readBytes (m : Memory) (a n o : Nat) : (Memory.readBytes m a n).drop o = Memory.readBytes m (a + o) (n - o) := by
  induction o generalizing a n with
  | zero => rfl
  | succ o ih =>
    cases n with
    | zero => simp [Memory.readBytes]
    | succ n =>
      rw [Memory.readBytes, List.drop_succ_cons, ih, Nat.succ_sub_succ]
      congr 1
      omega

theorem Memory.take_readBytes (m : Memory) (a : Nat) {n k : Nat} (h : k ≤ n) :
    (Memory.readBytes m a n).take k = Memory.readBytes m a k := by
  induction k generalizing a n with
  | zero => rfl
  | succ k ih =>
    cases n with
    | zero => omega
    | succ n => rw [Memory.readBytes, List.take_succ_cons, ih _ (Nat.le_of_succ_le_succ h), Memory.readBytes]

/-- The field of a run of bytes is the number at its place. -/
theorem Memory.field_readBytes (m : Memory) {len o n : Nat} (h : o + n ≤ len) :
    leNat (((Memory.readBytes m 0 len).drop o).take n) = Memory.readNat m o n := by
  rw [Memory.drop_readBytes, Memory.take_readBytes _ _ (by omega), Nat.zero_add, Memory.readNat]

theorem Memory.readNat_writeNat_apart (m : Memory) {a n b k x : Nat} (h : b + k ≤ a ∨ a + n ≤ b) :
    Memory.readNat (Memory.writeNat m a n x) b k = Memory.readNat m b k := by
  refine congrArg leNat (Memory.readBytes_congr fun i _ _ => Memory.readByte_writeBytes_other _ _ _ _ ?_)
  rw [leBytes_length]
  omega

/-- The bytes of a record, its fields written one after another. -/
theorem recordBytes_length (len : Nat) (fs : List (Nat × Nat × Nat)) : (recordBytes len fs).length = len :=
  Memory.readBytes_length _ _ _

/-- A field of a record holds what was written there last: no later field of it touches those bytes. -/
theorem recordBytes_field {len o n x : Nat} (before after : List (Nat × Nat × Nat)) (hlen : o + n ≤ len)
    (h : ∀ f ∈ after, f.1 + f.2.1 ≤ o ∨ o + n ≤ f.1) :
    leNat (((recordBytes len (before ++ (o, n, x) :: after)).drop o).take n) = x % 256 ^ n := by
  rw [recordBytes, Memory.field_readBytes _ hlen, List.foldl_append, List.foldl_cons]
  generalize before.foldl _ _ = m
  rw [← Memory.readNat_writeNat m o n x]
  generalize Memory.writeNat m o n x = m'
  induction after generalizing m' with
  | nil => rfl
  | cons f after ih =>
    rw [List.foldl_cons, ih (fun g hg => h g (List.mem_cons_of_mem _ hg)), Memory.readNat_writeNat_apart]
    have := h f List.mem_cons_self
    omega

end Sys2Proof.Machine
end

section
/-! PROOFS. What stopping a team changes (R301, R413). -/

namespace Sys2Proof.Machine

/-- The gang of a team that is stopped. -/
def Gang.stoppedWith (g : Gang) : Gang := { g.finish with stopped := true, workget := none }

/-- The team that is stopped: nothing of it is kept. -/
def Team.stoppedOf (t : Team) : Team := { t.released .stopped with image := none, saved := [] }

theorem State.foldl_dropHolds (l : List Nat) (s : State) : ∃ hs, l.foldl State.dropHolds s = { s with holds := hs } := by
  induction l generalizing s with
  | nil => exact ⟨s.holds, rfl⟩
  | cons i l ih =>
    obtain ⟨hs, h⟩ := ih (s.dropHolds i)
    exact ⟨hs, h⟩

/-- The save area that a stopped team gives back. -/
def Team.freeArea (t : Team) (p : Partition) : Partition :=
  { p with ctxUsed := match t.image with
    | some base => p.ctxUsed.filter (fun u => u.1 * 65536 != base)
    | none => p.ctxUsed }

/-- What the end of a team that is not saved changes: its gangs, its holds, its partition's save area and notices, and the
team. -/
theorem State.endAll_eq {s : State} (team : Nat) {t : Team} (h : (t.status == .saved) = false) : ∃ hs,
    s.endAll team t = State.vacate ((State.modPart { s.modTeamGangs team Gang.stoppedWith with holds := hs } t.part
      t.freeArea).putTeam team t.stoppedOf) team t := by
  obtain ⟨hs, hfold⟩ := State.foldl_dropHolds (((s.modTeamGangs team Gang.stoppedWith).teamGangs team).map (fun e => e.1))
    (s.modTeamGangs team Gang.stoppedWith)
  refine ⟨hs, ?_⟩
  rw [← hfold]
  simp only [State.endAll, h, Bool.false_eq_true, if_false]
  rfl

theorem State.teamGone_shape (s : State) (t : Team) (counted stopped : Bool) : ∃ ls clocks,
    s.teamGone t counted stopped = { s with launches := ls, vc := clocks } := by
  rw [State.teamGone, State.modLaunch]
  split
  · exact ⟨_, _, rfl⟩
  · exact ⟨s.launches, _, rfl⟩

section
variable {s : State} {team : Nat} {t : Team}

theorem State.stopTeam_running (ht : s.team? team = some t) (hrun : t.status = .running) :
    s.stopTeam team = (s.endAll team t).teamGone t false true := by
  rw [State.stopTeam, ht]
  simp [hrun]

/-- What stopping a running team changes: its gangs, its holds, its partition's save area and notices, the team, its launch and
the clocks. -/
theorem State.stopTeam_shape (ht : s.team? team = some t) (hrun : t.status = .running) : ∃ gs hs ls clocks,
    s.stopTeam team = { s with
      gangs := gs, holds := hs, launches := ls, vc := clocks
      teams := Tbl.set none s.teams team (some t.stoppedOf)
      parts := (State.vacate (s.modPart t.part t.freeArea) team t).parts } := by
  obtain ⟨hs, hall⟩ := State.endAll_eq (s := s) team (t := t) (by rw [hrun]; rfl)
  obtain ⟨gs, hgangs⟩ := s.modTeamGangs_with team Gang.stoppedWith
  obtain ⟨ls, clocks, hgone⟩ := State.teamGone_shape (s.endAll team t) t false true
  rw [State.stopTeam_running ht hrun, hgone, hall, hgangs]
  exact ⟨gs, hs, ls, clocks, rfl⟩

theorem State.keepsParts_vacate (s : State) (team : Nat) (t : Team) : s.keepsParts (s.vacate team t) :=
  State.keepsParts_modPart _ _ fun _ => rfl

theorem State.keepsParts_stopTeam (s : State) (team : Nat) : s.keepsParts (s.stopTeam team) := by
  cases ht : s.team? team with
  | none =>
    rw [State.stopTeam, ht]
    exact fun _ => rfl
  | some t =>
    by_cases hrun : t.status = .running
    · obtain ⟨gs, hs, ls, clocks, h⟩ := State.stopTeam_shape ht hrun
      have area : s.keepsParts (s.modPart t.part t.freeArea) := State.keepsParts_modPart _ _ fun _ => rfl
      rw [h]
      exact fun n => (State.keepsParts_vacate (s.modPart t.part t.freeArea) team t n).trans (area n)
    · rw [State.stopTeam, ht]
      simp [hrun, State.keepsParts]

/-- Every gang of the stopped team has ended, and no other gang is touched. -/
theorem State.gang?_stopTeam (ht : s.team? team = some t) (hrun : t.status = .running) (j : Nat) :
    (s.stopTeam team).gang? j = (s.gang? j).map (fun g => if g.team = team then g.stoppedWith else g) := by
  obtain ⟨hs, hall⟩ := State.endAll_eq (s := s) team (t := t) (by rw [hrun]; rfl)
  rw [State.stopTeam_running ht hrun, ← State.gang?_modTeamGangs_eq]
  refine State.gang?_of_gangs_eq ?_ j
  rw [State.teamGone_gangs, hall, State.vacate_gangs]
  rfl

theorem State.team?_stopTeam_same (ht : s.team? team = some t) (hrun : t.status = .running) :
    (s.stopTeam team).team? team = some t.stoppedOf := by
  obtain ⟨gs, hs, ls, clocks, h⟩ := State.stopTeam_shape ht hrun
  rw [h]
  exact State.team?_putTeam_same s team t.stoppedOf

theorem State.team?_stopTeam_other {j : Nat} (hj : j ≠ team) : (s.stopTeam team).team? j = s.team? j := by
  cases ht : s.team? team with
  | none => rw [State.stopTeam, ht]
  | some t =>
    by_cases hrun : t.status = .running
    · obtain ⟨gs, hs, ls, clocks, h⟩ := State.stopTeam_shape ht hrun
      rw [h]
      exact State.team?_putTeam_other s t.stoppedOf hj
    · rw [State.stopTeam, ht]
      simp [hrun]

/-- The launch of the stopped team has a stopped team more, and none that counts. -/
theorem State.launch?_stopTeam {l : Launch} (ht : s.team? team = some t) (hrun : t.status = .running)
    (hl : s.launch? t.launch = some l) :
    (s.stopTeam team).launch? t.launch = some { l with
      gone := l.gone + 1 + t.withdrawn.length, stopped := true } := by
  obtain ⟨hs, hall⟩ := State.endAll_eq (s := s) team (t := t) (by rw [hrun]; rfl)
  have hl' : (s.endAll team t).releaseToIod.launch? t.launch = some l := by
    obtain ⟨gs, hgangs⟩ := s.modTeamGangs_with team Gang.stoppedWith
    rw [hall, hgangs]
    exact hl
  rw [State.stopTeam_running ht hrun, State.teamGone, State.modLaunch, hl']
  refine (Tbl.get_set_same _ _ _ _).trans (congrArg some ?_)
  simp

end

end Sys2Proof.Machine
end

section
/-! PROOFS. What a trap leaves of the gang that takes it, and of a team without a handler (R412, R413). -/

namespace Sys2Proof.Machine

/-! ### The records of a trap -/

/-- The lane records of a trap, written one after another into r. -/
def putRecords (r : Tbl LaneRecord) (l : List (Nat × LaneRecord)) : Tbl LaneRecord :=
  l.foldl (fun acc x => Tbl.set LaneRecord.zero acc x.1 x.2) r

theorem putRecords_of_not_named (l : List (Nat × LaneRecord)) (t : Tbl LaneRecord) {k : Nat} (h : ∀ r ∈ l, r.1 ≠ k) :
    Tbl.get LaneRecord.zero (putRecords t l) k = Tbl.get LaneRecord.zero t k := by
  induction l generalizing t with
  | nil => rfl
  | cons x l ih =>
    rw [putRecords, List.foldl_cons, ← putRecords, ih _ (fun r hr => h r (List.mem_cons_of_mem _ hr)),
      Tbl.get_set_other _ _ _ (Ne.symm (h x List.mem_cons_self))]

/-- A lane that the trap names has its record, if the trap names one of it alone. -/
theorem putRecords_of_named (l : List (Nat × LaneRecord)) (t : Tbl LaneRecord) {k : Nat} {r : LaneRecord} (hr : (k, r) ∈ l)
    (hone : ∀ q, (k, q) ∈ l → q = r) : Tbl.get LaneRecord.zero (putRecords t l) k = r := by
  induction l generalizing t with
  | nil => exact absurd hr List.not_mem_nil
  | cons x l ih =>
    rw [putRecords, List.foldl_cons, ← putRecords]
    by_cases hl : (k, r) ∈ l
    · exact ih _ hl (fun q hq => hone q (List.mem_cons_of_mem _ hq))
    · obtain rfl : (k, r) = x := (List.mem_cons.1 hr).resolve_right hl
      rw [putRecords_of_not_named _ _ (fun q hq hk => hl (by
        have := hone q.2 (hk ▸ List.mem_cons_of_mem _ hq)
        rwa [← hk, ← this])), Tbl.get_set_same]

/-! ### The point of reconvergence -/

theorem Gang.reconverge_of_none {g : Gang} (h : ∀ x ∈ g.groups, x.atRegang = false) (after : VAddr) :
    g.reconverge after = (after, false) := by
  rw [Gang.reconverge, List.find?_eq_none.2 (fun x hx => by simp [h x hx])]

/-- Of groups in increasing order of their lowest slices, the first at a REGANG is the one of lowest slice there. -/
theorem find?_of_lowest {l : List Group} (h : l.Pairwise (fun x y => lowestSlice x.slices < lowestSlice y.slices)) {x : Group}
    (hx : x ∈ l) (hat : x.atRegang = true)
    (hlow : ∀ y ∈ l, y.atRegang = true → lowestSlice x.slices ≤ lowestSlice y.slices) :
    l.find? Group.atRegang = some x := by
  induction l with
  | nil => exact absurd hx List.not_mem_nil
  | cons y l ih =>
    rw [List.pairwise_cons] at h
    rcases List.mem_cons.1 hx with rfl | hx
    · exact List.find?_cons_of_pos hat
    · have hlt := h.1 x hx
      have hnot : ¬ y.atRegang = true := fun hy => absurd (hlow y List.mem_cons_self hy) (by omega)
      rw [List.find?_cons_of_neg hnot]
      exact ih h.2 hx (fun z hz => hlow z (List.mem_cons_of_mem _ hz))

theorem Gang.reconverge_of_lowest {g : Gang} {x : Group} (h : g.groups.find? Group.atRegang = some x) (after : VAddr) :
    g.reconverge after = (x.pc, true) := by
  rw [Gang.reconverge, h]

/-! ### The gang that takes a trap -/

/-- The gang as its trap finds it: every result visible, no reservation held, its wait begun again (R412). -/
def Gang.trapped (g : Gang) (now : Nat) : Gang := { g.commitAll with reserve := [], waitFrom := now }

theorem Gang.rest_commitAll (g : Gang) : g.commitAll.rest = g.rest := Gang.rest_commit g _

theorem Gang.groups_commitAll (g : Gang) : g.commitAll.groups = g.groups := Gang.groups_commit g _

theorem Gang.pend_commitAll (g : Gang) : g.commitAll.pend = [] := commitGo_true _ _ _ rfl

theorem Gang.live_trapped (g : Gang) (now : Nat) : (g.trapped now).live = g.live := g.live_commitAll

theorem Gang.reconverge_trapped (g : Gang) (now : Nat) (after : VAddr) :
    (g.trapped now).reconverge after = g.reconverge after := by
  show g.commitAll.reconverge after = _
  rw [Gang.reconverge, Gang.groups_commitAll, Gang.reconverge]

theorem Group.captured_slices (x : Group) : x.captured.slices = x.slices := by
  unfold Group.captured
  split <;> rfl

theorem Group.captured_pc (x : Group) : x.captured.pc = x.pc := by
  unfold Group.captured
  split <;> rfl

/-- A gang that has been put and loses its reservations (R220, R222). -/
theorem State.loseReserves_putGang (s : State) (id : Nat) (g : Gang) : (s.putGang id g).loseReserves id = { s with
    gangs := Tbl.set none s.gangs id (some { g with reserve := [] })
    holds := s.holds.filter (fun h => h.gang != id)
    vreqs := s.vreqs.map (fun r =>
      if r.kind = .lr ∧ r.actor.gang? = some id then { r with kind := VaultKind.read } else r) } := by
  have hmap : (fun r : VaultReq => if r.kind == VaultKind.lr && r.actor.gang? == some id then { r with kind := .read } else r) =
      fun r => if r.kind = .lr ∧ r.actor.gang? = some id then { r with kind := VaultKind.read } else r :=
    funext fun r => if_congr (by simp) rfl rfl
  rw [State.loseReserves, State.modGang_some (State.gang?_putGang_same _ _ _), State.putGang_putGang, hmap]
  rfl

/-- What a trap changes of the state, and the gang it leaves (R412). -/
theorem State.takeTrap_handler_shape {s : State} {id : Nat} {g : Gang} (t : TrapInfo) (hg : s.gang? id = some g)
    (hin : g.inh = false) (hth : (s.part (s.teamPart g.team)).then_ = true) :
    s.takeTrap id t = { s with
      gangs := Tbl.set none s.gangs id (some ((g.trapped s.now).enterHandler (s.part (s.teamPart g.team)).th t))
      holds := s.holds.filter (fun h => h.gang != id)
      vreqs := s.vreqs.map (fun r =>
        if r.kind = .lr ∧ r.actor.gang? = some id then { r with kind := VaultKind.read } else r) } := by
  rw [State.takeTrap_handler hg hin hth, State.loseReserves_putGang]
  exact congrArg (fun gs : Tbl (Option Gang) => ({ s with
      gangs := gs
      holds := s.holds.filter (fun h => h.gang != id)
      vreqs := s.vreqs.map (fun r =>
        if r.kind = .lr ∧ r.actor.gang? = some id then { r with kind := VaultKind.read } else r) } : State))
    (Tbl.set_set _ _ (Option.some_ne_none _) (Option.some_ne_none _))

/-! ### The stop of a team without a handler -/

/-- A store of the IOD agent changes what is on its way alone (R205). -/
theorem State.iodStore_shape (s : State) (pa : Nat) (bs : List Byte) (after : List Out) : ∃ vs q clocks n,
    s.iodStore pa bs after = { s with vreqs := vs, iodq := q, vc := clocks, next := n } := by
  rw [State.iodStore]
  split
  · exact ⟨_, s.iodq, _, _, rfl⟩
  · exact ⟨s.vreqs, _, s.vc, s.next, rfl⟩

theorem State.putStopRecord_shape (s : State) (part n : Nat) (bs : List Byte) : ∃ vs q clocks n',
    s.putStopRecord part n bs = { s with vreqs := vs, iodq := q, vc := clocks, next := n' } := by
  rw [State.putStopRecord]
  split
  · exact s.iodStore_shape _ _ _
  · exact ⟨s.vreqs, s.iodq, s.vc, s.next, rfl⟩

/-- Where the IOD agent may put a store on its way at once, it does. -/
theorem State.mem_vreqs_iodStore {s : State} (hq : s.iodq = []) (hfull : s.fullOf 4 = false) (pa : Nat) (bs : List Byte) :
    ∃ r ∈ (s.iodStore pa bs []).vreqs, r.agent = 4 ∧ r.pa = pa ∧ r.size = bs.length ∧ r.kind = .write (leNat bs) := by
  rw [State.iodStore, hq, hfull]
  exact ⟨_, List.mem_append_right _ (List.mem_singleton_self _), rfl, rfl, rfl, rfl⟩

/-- That an LR only reads from now on leaves the writes of an agent as many. -/
theorem unapplied_asReads (s : State) (p : VaultReq → Prop) [DecidablePred p] (hp : ∀ r, p r → r.kind = .lr) (a : Nat) :
    State.unapplied { s with vreqs := s.vreqs.map (fun r => if p r then { r with kind := VaultKind.read } else r) } a =
      s.unapplied a := by
  have hsame : ∀ r : VaultReq, ((fun r : VaultReq => r.kind.writes && r.agent == a) ∘
      fun r => if p r then { r with kind := VaultKind.read } else r) r = (r.kind.writes && r.agent == a) := by
    intro r
    by_cases h : p r <;> simp [h, hp, VaultKind.writes]
  rw [State.unapplied, List.filter_map, List.length_map, funext hsame, State.unapplied]

/-- The fields of a core's stop record that name it and the gang (Table 17.6). -/
theorem State.coreRecord_fields (s : State) (core hseq skid slot : Nat) (cause : Byte) (pc : VAddr) :
    let field := fun o n : Nat => leNat (((s.coreRecord core hseq skid (some ⟨core, slot, cause, pc⟩)).drop o).take n)
    field 0 1 = 1 ∧ field 2 2 = core % 65536 ∧ field 24 1 = slot % 256 ∧ field 25 1 = cause.toNat ∧ field 32 8 = pc.toNat := by
  obtain ⟨b, h, k, m, hrec⟩ : ∃ b h k m, s.coreRecord core hseq skid (some ⟨core, slot, cause, pc⟩) =
      recordBytes 64 [(0, 1, 1), (1, 1, b), (2, 2, core), (4, 4, h), (8, 8, k), (16, 8, m),
        (24, 1, slot), (25, 1, cause.toNat), (32, 8, pc.toNat)] := by
    unfold State.coreRecord
    dsimp only
    rw [if_pos rfl]
    exact ⟨_, _, _, _, rfl⟩
  have hcause : cause.toNat < 256 ^ 1 := cause.isLt
  have hpc : pc.toNat < 256 ^ 8 := Nat.lt_of_lt_of_le pc.isLt (by norm_num)
  rw [hrec]
  refine ⟨?_, ?_, ?_, ?_, ?_⟩
  · exact recordBytes_field [] [(1, 1, b), (2, 2, core), (4, 4, h), (8, 8, k), (16, 8, m), (24, 1, slot), (25, 1, cause.toNat),
      (32, 8, pc.toNat)] (by decide) (by simp)
  · exact recordBytes_field [(0, 1, 1), (1, 1, b)] [(4, 4, h), (8, 8, k), (16, 8, m), (24, 1, slot), (25, 1, cause.toNat),
      (32, 8, pc.toNat)] (by decide) (by simp)
  · exact recordBytes_field [(0, 1, 1), (1, 1, b), (2, 2, core), (4, 4, h), (8, 8, k), (16, 8, m)]
      [(25, 1, cause.toNat), (32, 8, pc.toNat)] (by decide) (by simp)
  · exact (recordBytes_field [(0, 1, 1), (1, 1, b), (2, 2, core), (4, 4, h), (8, 8, k), (16, 8, m), (24, 1, slot)]
      [(32, 8, pc.toNat)] (by decide) (by simp)).trans (Nat.mod_eq_of_lt hcause)
  · exact (recordBytes_field [(0, 1, 1), (1, 1, b), (2, 2, core), (4, 4, h), (8, 8, k), (16, 8, m), (24, 1, slot),
      (25, 1, cause.toNat)] [] (by decide) (by simp)).trans (Nat.mod_eq_of_lt hpc)

/-- The state in which a trap without a handler writes its stop record: the gang has lost what a trap takes from it. -/
def State.unhandled (s : State) (id : Nat) (g : Gang) : State := { s with
  gangs := Tbl.set none s.gangs id (some (g.trapped s.now))
  holds := s.holds.filter (fun h => h.gang != id)
  vreqs := s.vreqs.map (fun r =>
    if r.kind = .lr ∧ r.actor.gang? = some id then { r with kind := VaultKind.read } else r)
  free := s.free + 1 }

/-- Without a handler the core's stop record is put on its way, and the team stops (R413, R422). -/
theorem State.takeTrap_unhandled {s : State} {id : Nat} {g : Gang} (t : TrapInfo) (hg : s.gang? id = some g)
    (hin : g.inh = false) (hth : (s.part (s.teamPart g.team)).then_ = false) : ∃ skid, s.takeTrap id t =
      ((s.unhandled id g).putStopRecord (s.teamPart g.team) g.core ((s.unhandled id g).coreRecord g.core
        (s.part (s.teamPart g.team)).hseq.toNat skid (some ⟨g.core, g.slot, t.cause, t.tpc⟩))).stopTeam g.team := by
  rw [State.takeTrap, hg]
  simp only [hin, hth, Bool.false_eq_true, if_false, State.loseReserves_putGang]
  exact ⟨_, rfl⟩

/-- Settles O35: the gang in its handler, field by field; and the stop of a team without one. -/
theorem trapEntrySavesAndEnters : Obligations.TrapEntrySavesAndEnters := by
  unfold Obligations.TrapEntrySavesAndEnters
  refine ⟨fun s id g t hg hin hth => ?_, fun s id g t tm hg hin hth htm hrun => ?_⟩
  · have hshape := State.takeTrap_handler_shape t hg hin hth
    have hgang : (s.takeTrap id t).gang? id =
        some ((g.trapped s.now).enterHandler (s.part (s.teamPart g.team)).th t) := by
      rw [hshape]
      exact State.gang?_putGang_same s id _
    have rest : g.commitAll.rest = g.rest := g.rest_commitAll
    have hex : g.commitAll.exited = g.exited := (congrArg Gang.exited rest :)
    have hrec := g.reconverge_trapped s.now t.after
    refine ⟨?_, fun j hj => ?_, fun h hh => ?_, _, hgang, rfl, ?_, fun l hl => ?_, fun e => rfl, g.pend_commitAll, rfl,
      (congrArg Gang.mr rest :), (congrArg Gang.acr rest :), (congrArg Gang.k rest :), (congrArg Gang.mbox rest :),
      (congrArg Gang.exited rest :), ⟨_, rfl, rfl, (congrArg Gang.emask rest :), (congrArg Gang.mr rest :), ?_, ?_⟩,
      rfl, rfl, rfl, rfl, rfl, rfl, g.live_trapped s.now, rfl, ?_, ?_, fun hnone => ?_, fun hord x hx hat hlow => ?_,
      fun l hl => ?_, fun l r hr hone => ?_, fun l hl => getLsbD_maskOf _ hl⟩
    · rw [hshape]
    · rw [hshape]
      exact State.gang?_putGang_other s _ hj
    · rw [hshape] at hh
      simpa using (List.mem_filter.1 hh).2
    · rw [Gang.enterHandler_groups, Gang.live_trapped]
    · show (~~~g.commitAll.exited).getLsbD l = _
      rw [hex, BitVec.getLsbD_not, decide_eq_true hl, Bool.true_and]
    · show (g.commitAll.groups.map Group.captured).map Group.slices = _
      rw [g.groups_commitAll, List.map_map]
      exact List.map_congr_left fun x _ => x.captured_slices
    · show (g.commitAll.groups.map Group.captured).map Group.pc = _
      rw [g.groups_commitAll, List.map_map]
      exact List.map_congr_left fun x _ => x.captured_pc
    · show g.commitAll.groups.length = _
      rw [g.groups_commitAll]
    · show laneCause t.cause = _
      rw [laneCause, Bool.decide_and]
    · have h := hrec.trans (Gang.reconverge_of_none hnone t.after)
      exact ⟨congrArg Prod.snd h, congrArg Prod.fst h⟩
    · have h := hrec.trans (Gang.reconverge_of_lowest (find?_of_lowest hord hx hat hlow) t.after)
      exact ⟨congrArg Prod.snd h, congrArg Prod.fst h⟩
    · exact putRecords_of_not_named _ _ hl
    · exact putRecords_of_named _ _ hr hone
  · intro s' p pa
    obtain ⟨skid, (htrap : s' = _)⟩ := State.takeTrap_unhandled t hg hin hth
    generalize hrec : (s.unhandled id g).coreRecord g.core (s.part (s.teamPart g.team)).hseq.toNat skid
      (some ⟨g.core, g.slot, t.cause, t.tpc⟩) = bs at htrap
    obtain ⟨vs, q, clocks, n, hput⟩ := (s.unhandled id g).putStopRecord_shape (s.teamPart g.team) g.core bs
    generalize hu : (s.unhandled id g).putStopRecord (s.teamPart g.team) g.core bs = u at htrap hput
    have hutm : u.team? g.team = some tm := by rw [hput]; exact htm
    have hugang : ∀ j, u.gang? j = if j = id then some (g.trapped s.now) else s.gang? j := fun j => by
      rw [hput]
      exact Tbl.get_set _ s.gangs id j (some (g.trapped s.now))
    have huteam : ∀ j gj, s.gang? j = some gj → ∃ gj', u.gang? j = some gj' ∧ gj'.team = gj.team ∧ (j ≠ id → gj' = gj) := by
      intro j gj hj
      rw [hugang]
      by_cases hid : j = id
      · subst hid
        obtain rfl : g = gj := Option.some.inj (hg.symm.trans hj)
        exact ⟨_, if_pos rfl, (congrArg Gang.team g.rest_commitAll :), fun h => absurd rfl h⟩
      · exact ⟨gj, by rw [if_neg hid, hj], rfl, fun _ => rfl⟩
    obtain ⟨gs, hs, ls, clocks', hstop⟩ := State.stopTeam_shape hutm hrun
    refine ⟨?_, fun m => ?_, ⟨tm.stoppedOf, ?_, rfl, rfl, rfl⟩, fun j gj hj hteam => ?_, fun j gj hj hteam => ?_, fun j hj => ?_,
      fun l hl => ?_, fun howns hq hfull => ?_⟩
    · rw [htrap, hstop, hput]
      rfl
    · rw [htrap]
      refine (congrArg Partition.halted (u.keepsParts_stopTeam g.team m) :).trans ?_
      rw [hput]
      rfl
    · rw [htrap]
      exact State.team?_stopTeam_same hutm hrun
    · obtain ⟨gj', hj', hteam', -⟩ := huteam j gj hj
      exact ⟨gj'.stoppedWith, by rw [htrap, State.gang?_stopTeam hutm hrun, hj', Option.map_some, if_pos (hteam'.trans hteam)],
        rfl, rfl, rfl, rfl⟩
    · obtain ⟨gj', hj', hteam', hsame⟩ := huteam j gj hj
      obtain rfl := hsame (fun h => hteam (by
        subst h
        rw [Option.some.inj (hg.symm.trans hj)]))
      rw [htrap, State.gang?_stopTeam hutm hrun, hj', Option.map_some, if_neg hteam]
    · rw [htrap, State.team?_stopTeam_other hj, hput]
      rfl
    · have hul : u.launch? tm.launch = some l := by rw [hput]; exact hl
      rw [htrap]
      exact ⟨_, State.launch?_stopTeam hutm hrun hul, rfl, rfl, rfl⟩
    · have hfull' : (s.unhandled id g).fullOf 4 = false := by
        rw [← hfull, State.fullOf, State.fullOf, ← unapplied_asReads s (fun r => r.kind = .lr ∧ r.actor.gang? = some id)
          (fun _ h => h.1)]
        rfl
      obtain ⟨r, hr, hagent, hpa, hsize, hkind⟩ := State.mem_vreqs_iodStore (s := s.unhandled id g) hq hfull' pa bs
      have hlen : bs.length = 64 := by
        rw [← hrec]
        exact recordBytes_length _ _
      refine ⟨r, bs, ?_, hagent, hpa, hsize.trans hlen, hkind, hlen, ?_⟩
      · rw [htrap, hstop]
        show r ∈ u.vreqs
        rw [← hu, State.putStopRecord]
        exact (if_pos (α := State) howns).symm ▸ hr
      · rw [← hrec]
        exact State.coreRecord_fields _ _ _ _ _ _ _

end Sys2Proof.Machine
end

section
/-! PROOFS. Counts that traps and halts leave, and what the end of a halt keeps (R423, R430). -/

namespace Sys2Proof.Machine

section
variable {s t u : State}

/-! ### The count of uncorrectable errors -/

/-- t counts as many uncorrectable errors in each partition as s. -/
def State.keepsSeue (s t : State) : Prop := ∀ n, (t.part n).seue = (s.part n).seue

theorem State.keepsSeue_of_keepsParts (h : s.keepsParts t) : s.keepsSeue t := fun n => (congrArg Partition.seue (h n) :)

theorem State.keepsSeue_of_parts (h : t.parts = s.parts) : s.keepsSeue t := fun n => by rw [State.part, State.part, h]

theorem State.keepsSeue_trans (h : s.keepsSeue t) (h' : t.keepsSeue u) : s.keepsSeue u := fun n => (h' n).trans (h n)

theorem State.keepsSeue_raiseHalt (s : State) (part : Nat) (fatal : Bool) (c : Option Culprit) :
    s.keepsSeue (s.raiseHalt part fatal c) := fun n => by
  obtain ⟨halted, fatal', first, hseq, h⟩ := State.raiseHalt_but s part fatal c n
  exact (congrArg Partition.seue h :)

theorem State.keepsSeue_contextFatal (s : State) (id : Nat) (cause : Byte) (pc : VAddr) :
    s.keepsSeue (s.contextFatal id cause pc) := by
  unfold State.contextFatal
  split
  · exact State.keepsSeue_raiseHalt _ _ _ _
  · exact fun _ => rfl

theorem State.keepsSeue_takeTrap (s : State) (id : Nat) (t : TrapInfo) : s.keepsSeue (s.takeTrap id t) := by
  cases hg : s.gang? id with
  | none =>
    rw [State.takeTrap, hg]
    exact fun _ => rfl
  | some g =>
    cases hin : g.inh with
    | true =>
      rw [State.takeTrap_inside hg hin]
      exact State.keepsSeue_contextFatal _ _ _ _
    | false =>
      cases hth : (s.part (s.teamPart g.team)).then_ with
      | true =>
        rw [State.takeTrap_handler_shape t hg hin hth]
        exact fun _ => rfl
      | false =>
        obtain ⟨skid, htrap⟩ := State.takeTrap_unhandled t hg hin hth
        rw [htrap]
        refine State.keepsSeue_trans (t := State.putStopRecord (s.unhandled id g) _ _ _) ?_
          (State.keepsSeue_of_keepsParts (State.keepsParts_stopTeam _ _))
        obtain ⟨vs, q, clocks, n, hput⟩ := (s.unhandled id g).putStopRecord_shape (s.teamPart g.team) g.core
          ((s.unhandled id g).coreRecord g.core (s.part (s.teamPart g.team)).hseq.toNat skid
            (some ⟨g.core, g.slot, t.cause, t.tpc⟩))
        rw [hput]
        exact fun _ => rfl

theorem State.keepsSeue_foldl {α : Type} (l : List α) {f : State → α → State} (h : ∀ (v : State) a, v.keepsSeue (f v a))
    (s : State) : s.keepsSeue (l.foldl f s) :=
  List.foldlRecOn l f (motive := fun v => s.keepsSeue v) (fun _ => rfl) (fun _ hv a _ => State.keepsSeue_trans hv (h _ a))

theorem State.keepsSeue_modGang (s : State) (id : Nat) (f : Gang → Gang) : s.keepsSeue (s.modGang id f) :=
  State.keepsSeue_of_parts (State.modGang_parts _ _ _)

/-! ### Errors found by requests -/

theorem State.keepsSeue_suppress (s : State) (id : Nat) (hit : List VaultReq) : s.keepsSeue (s.suppress id hit) := by
  refine State.keepsSeue_trans ?_ (State.keepsSeue_modGang _ id _)
  refine State.keepsSeue_trans (t := { s with vreqs := s.vreqs.filter (fun r => !hit.contains r) }) (fun _ => rfl)
    (State.keepsSeue_foldl _ (fun v r => ?_) _)
  split <;> exact fun _ => rfl

theorem State.keepsSeue_faultsDue (s : State) (id : Nat) (m : SliceMask) (pc opc : VAddr) (rs : List (Nat × LaneRecord)) :
    s.keepsSeue (s.faultsDue id m pc opc rs) := by
  unfold State.faultsDue
  split
  · exact State.keepsSeue_trans (State.keepsSeue_modGang _ _ _) (State.keepsSeue_takeTrap _ _ _)
  · exact fun _ => rfl

theorem State.keepsSeue_faultsFound (s : State) (id : Nat) (x : Group) (n : Nat) (opc : VAddr) (rs : List (Nat × LaneRecord)) :
    s.keepsSeue (s.faultsFound id x n opc rs) := by
  have found : ∀ (waits : Bool) (f : Gang → Gang) (all : List (Nat × LaneRecord)), s.keepsSeue
      (if waits then ({ s with next := s.next + 1 } : State).modGang id f else s.faultsDue id x.slices x.pc opc all) := by
    intro waits f all
    cases waits
    · exact State.keepsSeue_faultsDue _ _ _ _ _ _
    · exact State.keepsSeue_trans (t := { s with next := s.next + 1 }) (fun _ => rfl) (State.keepsSeue_modGang _ _ _)
  exact found _ _ _

theorem State.keepsSeue_eccFound (s : State) (id : Nat) (q : VaultReq) (ls : List Nat) (addr : Nat) :
    s.keepsSeue (s.eccFound id q ls addr) := by
  have found : ∀ o : Option Group, s.keepsSeue (match o with
      | none => s.suppress id (s.vreqs.filter (fun r => r.batch == q.batch && ls.any (fun l => r.actor == Actor.lane id l)))
      | some x => (s.suppress id (s.vreqs.filter (fun r => r.batch == q.batch &&
          ls.any (fun l => r.actor == Actor.lane id l)))).faultsFound id x q.batch q.opc (ls.map (fun l => (l,
            ({ addr := BitVec.ofNat 64 addr, cause := Cause.permission, flags := 5, more := 0, detail := 0 } : LaneRecord))))) := by
    intro o
    cases o with
    | none => exact State.keepsSeue_suppress _ _ _
    | some x => exact State.keepsSeue_trans (State.keepsSeue_suppress _ _ _) (State.keepsSeue_faultsFound _ _ _ _ _ _)
  exact found _

theorem State.keepsSeue_postFail (s : State) (id : Nat) : s.keepsSeue (s.postFail id) := by
  unfold State.postFail
  split
  · exact fun _ => rfl
  · split
    · exact fun _ => rfl
    · split
      · exact State.keepsSeue_modGang _ _ _
      · exact State.keepsSeue_trans (State.keepsSeue_of_parts (State.putReq_parts _ _ _)) (State.keepsSeue_modGang _ _ _)

/-- What an error does to where it is found leaves the counts (R430). -/
theorem State.keepsSeue_uncorrectable (s : State) (place : ErrorPlace) : s.keepsSeue (s.uncorrectable place) := by
  have fatalAt : ∀ core slot, s.keepsSeue (s.fatalAt core slot) := fun core slot => by
    unfold State.fatalAt
    split
    · exact State.keepsSeue_contextFatal _ _ _ _
    · exact State.keepsSeue_raiseHalt _ _ _ _
  cases place with
  | register core slot => exact fatalAt core slot
  | scratchpad core slot => exact fatalAt core slot
  | vaultLane core slot lanes addr =>
    show s.keepsSeue (s.eccLanes core slot lanes addr)
    unfold State.eccLanes
    split
    · exact fun _ => rfl
    · dsimp only
      split
      · exact fun _ => rfl
      · exact State.keepsSeue_eccFound _ _ _ _ _
  | vaultRequest req addr =>
    simp only [State.uncorrectable]
    split
    · exact State.keepsSeue_trans (State.keepsSeue_of_parts (State.putReq_parts _ _ _)) (State.keepsSeue_postFail _ _)
    · exact fun _ => rfl
  | image part team =>
    simp only [State.uncorrectable]
    split
    · split
      · split <;> exact fun _ => rfl
      · exact fun _ => rfl
    · exact fun _ => rfl
  | stopArea part => exact State.keepsSeue_raiseHalt _ _ _ _
  | vaultWord pa => exact fun _ => rfl
  | accRow core row => exact fun _ => rfl
  | operandA core row => exact fun _ => rfl
  | operandB core => exact fun _ => rfl
  | tagEntry core entry => exact fun _ => rfl

/-- A fatal raise leaves the line up and fatal (R420). -/
theorem State.raiseHalt_fatal (s : State) (part : Nat) (c : Option Culprit) :
    ((s.raiseHalt part true c).part part).halted = true ∧ ((s.raiseHalt part true c).part part).fatal = true := by
  cases h : (s.part part).halted
  · have line := (State.raiseHalt_down h true c).2 part
    rw [if_pos rfl] at line
    exact ⟨(congrArg Prod.fst line :), (congrArg (fun l => l.2.1) line :)⟩
  · rw [State.raiseHalt_up h, State.modPart, State.part_putPart, if_pos rfl]
    exact ⟨h, by simp⟩

/-! ### RESUME -/

/-- t holds the teams, the partitions and the vault of s. -/
def State.sameBulk (s t : State) : Prop := t.teams = s.teams ∧ t.parts = s.parts ∧ t.vault = s.vault

theorem State.sameBulk_trans (h : s.sameBulk t) (h' : t.sameBulk u) : s.sameBulk u :=
  ⟨h'.1.trans h.1, h'.2.1.trans h.2.1, h'.2.2.trans h.2.2⟩

theorem State.sameBulk_foldl {α : Type} (l : List α) {f : State → α → State} (h : ∀ (v : State) a, v.sameBulk (f v a))
    (s : State) : s.sameBulk (l.foldl f s) :=
  List.foldlRecOn l f (motive := fun v => s.sameBulk v) ⟨rfl, rfl, rfl⟩ (fun _ hv a _ => State.sameBulk_trans hv (h _ a))

theorem State.sameBulk_modGang (s : State) (id : Nat) (f : Gang → Gang) : s.sameBulk (s.modGang id f) := by simp [State.sameBulk]

theorem State.sameBulk_acceptFollow (s : State) (core : Nat) (o : EngineOp) : s.sameBulk (s.acceptFollow core o) := by
  have hnext : s.sameBulk { s with next := s.next + 1 } := ⟨rfl, rfl, rfl⟩
  unfold State.acceptFollow
  dsimp only
  split
  · split
    · exact State.sameBulk_trans hnext (State.sameBulk_trans (State.sameBulk_modGang _ _ _) (State.sameBulk_modGang _ _ _))
    · exact State.sameBulk_trans hnext ⟨rfl, rfl, rfl⟩
  · exact hnext

theorem State.sameBulk_acceptHeld (s : State) (core : Nat) : s.sameBulk (s.acceptHeld core) :=
  State.sameBulk_trans (t := s.putCore core _) ⟨rfl, rfl, rfl⟩ (State.sameBulk_foldl _ (fun v o => v.sameBulk_acceptFollow _ _) _)

theorem State.sameBulk_unfreeze (s : State) (core : Nat) : s.sameBulk (s.unfreeze core) := by
  unfold State.unfreeze
  split
  · exact ⟨rfl, rfl, rfl⟩
  · refine State.sameBulk_trans (State.sameBulk_acceptHeld s core) ?_
    dsimp only
    split
    · split
      · exact State.sameBulk_modGang _ _ _
      · exact ⟨rfl, rfl, rfl⟩
    · exact ⟨rfl, rfl, rfl⟩

theorem State.sameBulk_sendHeld (s : State) (part : Nat) : s.sameBulk (s.sendHeld part) :=
  State.sameBulk_foldl _ (fun v e => by split <;> exact ⟨rfl, rfl, rfl⟩) s

end

end Sys2Proof.Machine
end

section
/-! PROOFS. The steps of recovery; a discard leaves no launch of its partition, and no team of it that runs or is saved (R423). -/

namespace Sys2Proof.Machine

section
variable {s t u : State}

/-! ### What ends goes on to be ended -/

/-- Every launch of t is one of s, and every team too, as it stands there or stopped. -/
structure State.EndsInto (s t : State) : Prop where
  launch : ∀ id l, t.launch? id = some l → ∃ l', s.launch? id = some l' ∧ l'.part = l.part
  team : ∀ id x, t.team? id = some x → ∃ x', s.team? id = some x' ∧ x'.part = x.part ∧ (x.status = x'.status ∨ x.status = .stopped)

theorem State.EndsInto.of_eq (hl : t.launches = s.launches) (ht : t.teams = s.teams) : s.EndsInto t where
  launch id l h := ⟨l, by rw [State.launch?, ← hl]; exact h, rfl⟩
  team id x h := ⟨x, by rw [State.team?, ← ht]; exact h, rfl, .inl rfl⟩

theorem State.EndsInto.refl (s : State) : s.EndsInto s := .of_eq rfl rfl

theorem State.EndsInto.trans (h : s.EndsInto t) (h' : t.EndsInto u) : s.EndsInto u where
  launch id l hl := by
    obtain ⟨l', hl', hp'⟩ := h'.launch id l hl
    obtain ⟨l'', hl'', hp''⟩ := h.launch id l' hl'
    exact ⟨l'', hl'', hp''.trans hp'⟩
  team id x hx := by
    obtain ⟨x', hx', hp', hs'⟩ := h'.team id x hx
    obtain ⟨x'', hx'', hp'', hs''⟩ := h.team id x' hx'
    refine ⟨x'', hx'', hp''.trans hp', ?_⟩
    rcases hs' with hs' | hs'
    · rw [hs']
      exact hs''
    · exact .inr hs'

theorem State.EndsInto.foldl {α : Type} (l : List α) {f : State → α → State} (h : ∀ (v : State), ∀ a ∈ l, v.EndsInto (f v a))
    (s : State) : s.EndsInto (l.foldl f s) :=
  List.foldlRecOn l f (motive := fun v => s.EndsInto v) (.refl s) (fun v hv a ha => hv.trans (h v a ha))

/-- A launch that stood in s may be put back. -/
theorem State.EndsInto.thenPutLaunch (hst : s.EndsInto t) {id : Nat} {l l' : Launch} (h : s.launch? id = some l')
    (hp : l'.part = l.part) : s.EndsInto (t.putLaunch id l) where
  launch j m hm := by
    by_cases hj : j = id
    · subst hj
      obtain rfl : l = m := Option.some.inj ((Tbl.get_set_same none t.launches j (some l)).symm.trans hm)
      exact ⟨l', h, hp⟩
    · exact hst.launch j m ((Tbl.get_set_other none t.launches (some l) hj).symm.trans hm)
  team j x hx := hst.team j x hx

theorem State.EndsInto.putLaunch {id : Nat} {l l' : Launch} (h : s.launch? id = some l') (hp : l'.part = l.part) :
    s.EndsInto (s.putLaunch id l) := (State.EndsInto.refl s).thenPutLaunch h hp

theorem State.EndsInto.modLaunch (id : Nat) {f : Launch → Launch} (hf : ∀ l, (f l).part = l.part) :
    s.EndsInto (s.modLaunch id f) := by
  unfold State.modLaunch
  split
  · next l hl => exact .putLaunch hl (hf l).symm
  · exact .refl s

theorem State.EndsInto.putTeam {id : Nat} {x x' : Team} (h : s.team? id = some x') (hp : x'.part = x.part)
    (hs : x.status = x'.status ∨ x.status = .stopped) : s.EndsInto (s.putTeam id x) where
  launch _ l hl := ⟨l, hl, rfl⟩
  team j y hy := by
    by_cases hj : j = id
    · subst hj
      obtain rfl : x = y := Option.some.inj ((Tbl.get_set_same none s.teams j (some x)).symm.trans hy)
      exact ⟨x', h, hp, hs⟩
    · exact ⟨y, (Tbl.get_set_other none s.teams (some x) hj).symm.trans hy, rfl, .inl rfl⟩

theorem State.EndsInto.dropLaunch (s : State) (id : Nat) : s.EndsInto (s.dropLaunch id) where
  launch j m hm := by
    by_cases hj : j = id
    · subst hj
      exact absurd ((Tbl.get_set_same none s.launches j none).symm.trans hm) (Option.some_ne_none m).symm
    · exact ⟨m, (Tbl.get_set_other none s.launches none hj).symm.trans hm, rfl⟩
  team _ x hx := ⟨x, hx, rfl, .inl rfl⟩

theorem State.EndsInto.dropTeam (s : State) (id : Nat) : s.EndsInto (s.dropTeam id) where
  launch _ l hl := ⟨l, hl, rfl⟩
  team j y hy := by
    by_cases hj : j = id
    · subst hj
      exact absurd ((Tbl.get_set_same none s.teams j none).symm.trans hy) (Option.some_ne_none y).symm
    · exact ⟨y, (Tbl.get_set_other none s.teams none hj).symm.trans hy, rfl, .inl rfl⟩

/-! ### The end of a team -/

theorem State.foldl_dropGang (l : List Nat) (s : State) : ∃ gs, l.foldl State.dropGang s = { s with gangs := gs } := by
  induction l generalizing s with
  | nil => exact ⟨s.gangs, rfl⟩
  | cons i l ih =>
    obtain ⟨gs, h⟩ := ih (s.dropGang i)
    exact ⟨gs, h⟩

/-- The end of a team stops it, and no launch or other team changes. -/
theorem State.endAll_bulk (s : State) (team : Nat) (x : Team) :
    (s.endAll team x).launches = s.launches ∧ (s.endAll team x).teams = (s.putTeam team x.stoppedOf).teams := by
  obtain ⟨gs, hgs⟩ := s.modTeamGangs_with team Gang.stoppedWith
  obtain ⟨hs, hhs⟩ := State.foldl_dropHolds (((s.modTeamGangs team Gang.stoppedWith).teamGangs team).map (fun e => e.1))
    (s.modTeamGangs team Gang.stoppedWith)
  generalize hv : State.vacate ((State.modPart { s.modTeamGangs team Gang.stoppedWith with holds := hs } x.part x.freeArea).putTeam
    team x.stoppedOf) team x = v
  have hbulk : v.launches = s.launches ∧ v.teams = (s.putTeam team x.stoppedOf).teams := by
    rw [← hv, hgs]
    exact ⟨rfl, rfl⟩
  have hall : s.endAll team x = if x.status == .saved then ((v.teamGangs team).map (fun e => e.1)).foldl State.dropGang v else v := by
    rw [← hv, ← hhs]
    rfl
  rw [hall]
  split
  · obtain ⟨gs', h⟩ := State.foldl_dropGang ((v.teamGangs team).map (fun e => e.1)) v
    rw [h]
    exact hbulk
  · exact hbulk

theorem State.team?_endAll (s : State) (team : Nat) (x : Team) (id : Nat) :
    (s.endAll team x).team? id = if id = team then some x.stoppedOf else s.team? id := by
  rw [State.team?, (s.endAll_bulk team x).2]
  exact Tbl.get_set none s.teams team id (some x.stoppedOf)

theorem State.EndsInto.endAll {team : Nat} {x x' : Team} (h : s.team? team = some x') (hp : x'.part = x.part) :
    s.EndsInto (s.endAll team x) :=
  (State.EndsInto.putTeam (x := x.stoppedOf) h hp (.inr rfl)).trans
    (.of_eq (s.endAll_bulk team x).1 (s.endAll_bulk team x).2)

theorem State.EndsInto.modTeamGangs (s : State) (team : Nat) (f : Gang → Gang) : s.EndsInto (s.modTeamGangs team f) := by
  obtain ⟨gs, h⟩ := s.modTeamGangs_with team f
  rw [h]
  exact .of_eq rfl rfl

theorem State.EndsInto.dropVictim (s : State) (team : Nat) : s.EndsInto (s.dropVictim team) := by
  unfold State.dropVictim
  split
  · exact .refl s
  · next x hx =>
    split
    · refine (State.EndsInto.endAll hx rfl).trans ?_
      refine State.EndsInto.trans (t := (s.endAll team x).releaseToIod) (.of_eq rfl rfl) ?_
      exact .modLaunch _ fun _ => rfl
    · exact .refl s

/-! ### The end of a launch -/

theorem State.EndsInto.cancelLaunch (s : State) (id : Nat) : s.EndsInto (s.cancelLaunch id) := by
  unfold State.cancelLaunch
  split
  · exact .refl s
  · next l hl =>
    split
    · exact .refl s
    · dsimp only
      refine State.EndsInto.trans (.putLaunch hl ?_) (.foldl _ (fun v e _ => ?_) _)
      · rfl
      · split
        · exact .dropVictim v e.1
        · split
          · exact .modTeamGangs _ _ _
          · exact .refl v

theorem State.EndsInto.freeCorbels (s : State) (launch : Nat) : s.EndsInto (s.freeCorbels launch) := by
  refine .foldl _ (fun v e _ => ?_) s
  dsimp only
  split
  · refine State.EndsInto.trans (.foldl (listed v.reqs) (fun w x _ => ?_) v) (.of_eq rfl rfl)
    split_ifs
    · exact .of_eq rfl rfl
    · exact .refl w
  · exact .refl v

theorem State.EndsInto.iodStore (s : State) (pa : Nat) (bs : List Byte) (after : List Out) :
    s.EndsInto (s.iodStore pa bs after) := by
  obtain ⟨vs, q, clocks, n, h⟩ := s.iodStore_shape pa bs after
  rw [h]
  exact .of_eq rfl rfl

theorem State.EndsInto.cache (s : State) (part va : Nat) : s.EndsInto (s.cache part va) := by
  unfold State.cache
  split
  · exact .refl s
  · split <;> exact .of_eq rfl rfl

theorem State.EndsInto.queueNotice (s : State) (part : Nat) (bs : List Byte) : s.EndsInto (s.queueNotice part bs) := by
  unfold State.queueNotice
  split
  · exact .of_eq rfl rfl
  · rw [State.queueFault]
    split
    · exact (State.EndsInto.iodStore s _ _ _).trans (.of_eq rfl rfl)
    · exact .of_eq rfl rfl

theorem State.EndsInto.writeCompletion (s : State) (part cpla lid : Nat) (bs : List Byte) (after : List Out) :
    s.EndsInto (s.writeCompletion part cpla lid bs after) := by
  unfold State.writeCompletion
  split
  · exact .of_eq rfl rfl
  · split
    · exact (State.EndsInto.cache s part cpla).trans (.iodStore _ _ _ _)
    · exact (State.EndsInto.queueNotice s part _).trans (.of_eq rfl rfl)

/-- What a successor learns puts back a launch that stood. -/
theorem State.EndsInto.thenReleaseSuccessor (hst : s.EndsInto t) {done status : Nat} {e : Nat × Launch}
    (h : s.launch? e.1 = some e.2) : s.EndsInto (t.releaseSuccessor done status e) := by
  unfold State.releaseSuccessor
  split
  · exact hst
  · have put : s.EndsInto (State.putLaunch { t with next := t.next + 1 } e.1 { e.2 with
        preds := e.2.preds.filter (· != done)
        readyAt := if (e.2.preds.filter (· != done)).isEmpty then t.next else e.2.readyAt }) :=
      (hst.trans (State.EndsInto.of_eq (t := { t with next := t.next + 1 }) rfl rfl)).thenPutLaunch h rfl
    dsimp only
    split
    · exact put.trans (.cancelLaunch _ _)
    · exact put

theorem State.mem_partLaunches {part : Nat} {e : Nat × Launch} :
    e ∈ s.partLaunches part ↔ s.launch? e.1 = some e.2 ∧ e.2.part = part := by
  rw [State.partLaunches, List.mem_filter, mem_listed_iff, State.launch?, beq_iff_eq]

/-- A launch that completes is gone, and no other comes of it. -/
theorem State.EndsInto.completeLaunch (s : State) (id : Nat) (l : Launch) :
    (s.dropLaunch id).EndsInto (s.completeLaunch id l) := by
  have before := (State.EndsInto.freeCorbels (s.dropLaunch id) id).trans
    (State.EndsInto.writeCompletion ((s.dropLaunch id).freeCorbels id) l.part l.cpla l.lid.toNat
      (completionRecord l.status l.lid.toNat l.counted) (irqOut l.part l.irq l.vec))
  refine before.trans (List.foldlRecOn _ _ (motive := fun v => State.EndsInto _ v) (.refl _) fun v hv e he => ?_)
  exact hv.thenReleaseSuccessor (State.mem_partLaunches.1 he).1

/-! ### DISCARD -/

/-- No team of the partition runs or is saved. -/
def State.noTeam (s : State) (part : Nat) : Prop :=
  ∀ id x, s.team? id = some x → x.part = part → x.status ≠ .running ∧ x.status ≠ .saved

/-- No launch is of the partition. -/
def State.noLaunchOf (s : State) (part : Nat) : Prop := ∀ id l, s.launch? id = some l → l.part ≠ part

theorem State.EndsInto.noTeam (h : s.EndsInto t) {part : Nat} (hs : s.noTeam part) : t.noTeam part := by
  intro id x hx hp
  obtain ⟨x', hx', hp', hstat⟩ := h.team id x hx
  have := hs id x' hx' (hp'.trans hp)
  rcases hstat with hstat | hstat
  · rwa [hstat]
  · rw [hstat]
    exact ⟨by simp, by simp⟩

theorem State.EndsInto.noLaunchOf (h : s.EndsInto t) {part : Nat} (hs : s.noLaunchOf part) : t.noLaunchOf part := by
  intro id l hl
  obtain ⟨l', hl', hp⟩ := h.launch id l hl
  exact hp ▸ hs id l' hl'

theorem Team.not_runs_stoppedOf (x : Team) : x.stoppedOf.status ≠ .running ∧ x.stoppedOf.status ≠ .saved :=
  ⟨by simp [Team.stoppedOf, Team.released], by simp [Team.stoppedOf, Team.released]⟩

/-- One team after another: the listed ones of the partition are stopped, and the others are as they were. -/
theorem State.discardTeams_fold (part : Nat) (l : List (Nat × Team)) (v : State) :
    ∀ id x, (l.foldl (fun acc e =>
      if e.2.part == part && (e.2.status == .running || e.2.status == .saved) then
        (acc.endAll e.1 e.2).modTeamGangs e.1 Gang.discarded
      else acc) v).team? id = some x →
      x.status ≠ .running ∧ x.status ≠ .saved ∨ v.team? id = some x ∧
        ∀ e ∈ l, e.1 = id → ¬ (e.2.part = part ∧ (e.2.status = .running ∨ e.2.status = .saved)) := by
  induction l generalizing v with
  | nil => exact fun id x hx => .inr ⟨hx, by simp⟩
  | cons e l ih =>
    intro id x hx
    rw [List.foldl_cons] at hx
    rcases ih _ id x hx with hdone | ⟨hv, hl⟩
    · exact .inl hdone
    · split at hv
      · rw [State.modTeamGangs_team?, State.team?_endAll] at hv
        by_cases hid : id = e.1
        · rw [if_pos hid] at hv
          exact .inl (Option.some.inj hv ▸ e.2.not_runs_stoppedOf)
        · rw [if_neg hid] at hv
          exact .inr ⟨hv, List.forall_mem_cons.2 ⟨fun h => absurd h.symm hid, hl⟩⟩
      · next h =>
        exact .inr ⟨hv, List.forall_mem_cons.2 ⟨fun _ => by simpa using h, hl⟩⟩

/-- No team of the partition is left that runs or is saved. -/
theorem State.noTeam_discardTeams (s : State) (part : Nat) : (s.discardTeams part).noTeam part := by
  intro id x hx hp
  rcases State.discardTeams_fold part (listed s.teams) s id x hx with hdone | ⟨hs, hl⟩
  · exact hdone
  · have := hl (id, x) (mem_listed_of_get hs) rfl
    exact ⟨fun h => this ⟨hp, .inl h⟩, fun h => this ⟨hp, .inr h⟩⟩

theorem State.EndsInto.discardOne (s : State) (e : Nat × Launch) : s.EndsInto (match s.launch? e.1 with
    | some l => s.completeLaunch e.1 { l with stopped := true }
    | none => s) := by
  split
  · exact (State.EndsInto.dropLaunch s e.1).trans (.completeLaunch s e.1 _)
  · exact .refl s

/-- Every launch of the partition is gone: each completes in its turn, and none comes of a completion. -/
theorem State.noLaunchOf_discardLaunches (s : State) (part : Nat) : (s.discardLaunches part).noLaunchOf part := by
  have gone : ∀ (ls : List (Nat × Launch)) (v : State) (id : Nat), (∃ l, (id, l) ∈ ls) → (ls.foldl (fun acc e =>
      match acc.launch? e.1 with
      | some l => acc.completeLaunch e.1 { l with stopped := true }
      | none => acc) v).launch? id = none := by
    intro ls
    induction ls with
    | nil => simp
    | cons e ls ih =>
      intro v id ⟨l, hl⟩
      rw [List.foldl_cons]
      rcases List.mem_cons.1 hl with rfl | hl
      · have hfirst : State.launch? (match v.launch? id with
            | some l => v.completeLaunch id { l with stopped := true }
            | none => v) id = none := by
          split
          · refine Option.eq_none_iff_forall_ne_some.2 fun m hm => ?_
            obtain ⟨m', hm', -⟩ := (State.EndsInto.completeLaunch v id _).launch id m hm
            exact absurd ((Tbl.get_set_same none v.launches id none).symm.trans hm') (Option.some_ne_none m').symm
          · next h => exact h
        refine Option.eq_none_iff_forall_ne_some.2 fun m hm => ?_
        obtain ⟨m', hm', -⟩ := (State.EndsInto.foldl ls (fun w e _ => .discardOne w e) _).launch id m hm
        exact Option.some_ne_none m' (hm'.symm.trans hfirst)
      · exact ih _ id ⟨l, hl⟩
  intro id l hl hp
  obtain ⟨l', hl', hp'⟩ := (State.EndsInto.foldl (s.partLaunches part) (fun w e _ => .discardOne w e) s).launch id l hl
  have := gone (s.partLaunches part) s id ⟨l', State.mem_partLaunches.2 ⟨hl', hp'.trans hp⟩⟩
  exact Option.some_ne_none l (hl.symm.trans this)

theorem State.foldl_reap (cs : List TeamCore) (team : Nat) (v : State) :
    ∃ ks, cs.foldl (fun a c => a.modCore c.core (fun k => k.reap team)) v = { v with cores := ks } := by
  induction cs generalizing v with
  | nil => exact ⟨v.cores, rfl⟩
  | cons c cs ih =>
    obtain ⟨ks, h⟩ := ih (v.modCore c.core (fun k => k.reap team))
    exact ⟨ks, h⟩

/-- What ended teams give back is of cores, and the teams that are forgotten. -/
theorem State.reapTeams_spec (s : State) : s.EndsInto s.reapTeams ∧ s.reapTeams.parts = s.parts := by
  refine List.foldlRecOn _ _ (motive := fun v => s.EndsInto v ∧ v.parts = s.parts) ⟨.refl s, rfl⟩ fun v ⟨hv, hparts⟩ e _ => ?_
  dsimp only
  split
  · obtain ⟨ks, h⟩ := State.foldl_reap e.2.cores e.1 v
    have given : v.EndsInto { v with cores := ks } := .of_eq rfl rfl
    rw [h]
    split
    · exact ⟨hv.trans given, hparts⟩
    · exact ⟨hv.trans (given.trans (.dropTeam _ e.1)), hparts⟩
  · exact ⟨hv, hparts⟩

/-- What a discard leaves (R423). -/
theorem State.discard_spec {part : Nat} (h : (s.part part).halted = true) : ((s.discard part).part part).halted = false ∧
    (s.discard part).noLaunchOf part ∧ (s.discard part).noTeam part := by
  rw [State.discard, if_pos h]
  generalize s.discardWork part = v
  have hteam : ((v.discardTeams part).discardLaunches part).noTeam part :=
    (State.EndsInto.foldl _ (fun w e _ => .discardOne w e) _).noTeam (v.noTeam_discardTeams part)
  have hlaunch := State.noLaunchOf_discardLaunches (v.discardTeams part) part
  generalize (v.discardTeams part).discardLaunches part = w at hteam hlaunch
  obtain ⟨reap, parts⟩ := (w.modPart part (fun p => { p with halted := false })).reapTeams_spec
  have fell : w.EndsInto (w.modPart part (fun p => { p with halted := false })) := .of_eq rfl rfl
  have ends := fell.trans reap
  refine ⟨?_, ends.noLaunchOf hlaunch, ends.noTeam hteam⟩
  rw [State.part, parts]
  exact congrArg Partition.halted (w.part_putPart part part { w.part part with halted := false } |>.trans (if_pos rfl))

end

/-! ### The steps -/

theorem exec_groupTurnSwitch (core slot : Nat) {s : State} {id : Nat} {h : Gang} (hg : s.gangAt core slot = some (id, h)) :
    exec (.groupTurnSwitch core slot) s = whenever (decide (32 ≤ h.turnIssues)) s (s.putGang id h.passTurn) := by
  show execGroupTurnSwitch core slot s = _
  rw [execGroupTurnSwitch, show (s.gangsOn core).find? _ = some (id, h) from hg]

theorem exec_deadlineExpiry {s : State} {gang : Nat} {g : Gang} (hg : s.gang? gang = some g) : exec (.deadlineExpiry gang) s =
    whenever (g.deadline != 0 && s.resident g) s (s.putGang gang ({ g with deadline := 0 }.latch 18)) := by
  show execDeadlineExpiry gang s = _
  rw [execDeadlineExpiry, hg]

theorem exec_trapEntry {s : State} {gang : Nat} {g : Gang} {p : PendTrap} (hg : s.gang? gang = some g) (hp : g.trapDue = some p) :
    exec (.trapEntry gang) s = whenever (s.teamRuns g.team) s
      (if (g.group? (p.slices &&& g.live)).isNone then s.putGang gang { g with pendTraps := g.pendTraps.erase p }
       else (s.putGang gang { g with pendTraps := g.pendTraps.erase p }).takeTrap gang
        { g.followInfo (p.slices &&& g.live) p.tpc p.opc with cause := p.cause, defer := false }) := by
  show execTrapEntry gang s = _
  simp only [execTrapEntry, hg, hp]

theorem exec_regangDeadlock {s : State} {gang : Nat} {g : Gang} {x : Group} (hg : s.gang? gang = some g)
    (hx : g.groups.find? (fun y => y.slices.getLsbD (lowestSlice g.live)) = some x) : exec (.regangDeadlock gang) s =
    whenever (g.deadlocked && s.resident g && !(s.part (s.teamPart g.team)).halted) s
      ((s.putGang gang (g.modGroup x.slices (fun y => { y with park := none }))).takeTrap gang
        { g.followInfo x.slices x.pc x.pc with cause := Cause.regangDeadlock, defer := false }) := by
  show execRegangDeadlock gang s = _
  simp only [execRegangDeadlock, hg, hx]

theorem gives_whenReady {i : Instr} {s t : State} {P : State → Prop} (he : exec i s = whenReady s t) (h : s.house.phase = 5)
    (hp : P t) : Gives i s P := gives_whenever he (by simp [State.isReady, h]) hp

/-- Settles O39: the effect of each step. -/
theorem recoveryStepsHaveTheirEffect : Obligations.RecoveryStepsHaveTheirEffect := by
  unfold Obligations.RecoveryStepsHaveTheirEffect
  intro s core slot gang part n g place hg
  refine ⟨fun id h hat hturn => ?_, fun hd hres => ?_, fun p hp hruns => ⟨fun hnone => ?_, fun hsome => ?_⟩,
    fun x hne hall hpend hres hup hx => ?_, fun hphase => ?_, fun hphase hup hfatal hcool => ?_, fun hup hfatal => ?_,
    fun hphase hup => ?_, ⟨_, rfl, rfl⟩, ⟨_, rfl, ?_, ?_, ?_, ?_, ?_⟩, ⟨_, rfl, rfl⟩, ⟨_, rfl, rfl, fun h => ?_⟩⟩
  · exact gives_whenever (exec_groupTurnSwitch core slot hat) (decide_eq_true hturn) rfl
  · exact gives_whenever (exec_deadlineExpiry hg) (by simp [hd, hres]) rfl
  · exact gives_whenever (exec_trapEntry hg hp) hruns (by rw [hnone]; rfl)
  · exact gives_whenever (exec_trapEntry hg hp) hruns (if_neg (by simpa using hsome))
  · refine gives_whenever (exec_regangDeadlock hg hx) ?_ rfl
    simp [Gang.deadlocked, hres, hup, hpend, hne, List.all_eq_true.2 hall]
  · have hready : s.isReady = false := by simp [State.isReady, hphase]
    exact ⟨congrArg (fun b => whenever b s _) hready, congrArg (fun b => whenever b s _) hready⟩
  · refine gives_whenReady (t := s.resume part) rfl hphase ?_
    rw [State.resume, if_pos (by simp [hup, hfatal, hcool])]
    generalize hv : (s.putPart part { s.part part with halted := false }).sendHeld part = v
    have bulk : State.sameBulk (s.putPart part { s.part part with halted := false }) (v.unfreezeAll part) :=
      State.sameBulk_trans (hv ▸ State.sameBulk_sendHeld _ part) (State.sameBulk_foldl _ State.sameBulk_unfreeze v)
    obtain ⟨teams, parts, vault⟩ := bulk
    have hpart : (v.unfreezeAll part).part part = { s.part part with halted := false } := by
      rw [State.part, parts]
      exact (s.part_putPart part part _).trans (if_pos rfl)
    exact ⟨by rw [hpart], by rw [hpart], teams, vault⟩
  · show whenever s.isReady s (s.resume part) = .next s
    rw [State.resume, if_neg (by simp [hup, hfatal]), whenever, ite_self]
  · exact gives_whenReady (t := s.discard part) rfl hphase (State.discard_spec hup)
  · rw [State.keepsSeue_uncorrectable, State.modPart, State.part_putPart, if_pos rfl]
  · rintro k row rfl
    rfl
  · rintro k e rfl
    rfl
  · rintro pa rfl w
    by_cases hw : w = pa / 8 <;> simp [State.uncorrectable, hw]
  · rintro p rfl
    exact State.raiseHalt_fatal _ _ _
  · simp only [List.mem_filter, Bool.or_eq_true, bne_iff_ne, State.inForce, decide_eq_true_eq]

end Sys2Proof.Machine
end

section
/-! PROOFS. The matrix state of a core: rows, slots and their holders (R158-R163), and what a word that works on it leaves. -/

theorem List.mem_insertBy {α : Type} {le : α → α → Bool} {x y : α} {l : List α} :
    y ∈ List.insertBy le x l ↔ y = x ∨ y ∈ l := by
  induction l with
  | nil => simp [List.insertBy]
  | cons z l ih =>
    rw [List.insertBy]
    split
    · simp
    · simp only [List.mem_cons, ih]
      tauto

theorem List.mem_sortedBy {α : Type} {le : α → α → Bool} {y : α} {l : List α} : y ∈ l.sortedBy le ↔ y ∈ l := by
  induction l with
  | nil => rfl
  | cons x l ih => rw [List.sortedBy, List.foldr_cons, ← List.sortedBy, List.mem_insertBy, ih, List.mem_cons]

namespace Sys2Proof.Machine

/-! ### Tables with entries taken out -/

/-- A table without the entries whose keys satisfy p: those read as the default. -/
theorem Tbl.get_filter {α : Type} (d : α) (t : Tbl α) (p : Nat → Bool) (k : Nat) :
    Tbl.get d (t.filter (fun e => p e.1)) k = if p k then Tbl.get d t k else d := by
  induction t with
  | nil => simp [Tbl.get]
  | cons e t ih =>
    obtain ⟨j, v⟩ := e
    by_cases hj : j = k
    · subst hj
      cases h : p j <;> simp_all [Tbl.get]
    · cases h : p j <;> simp_all [Tbl.get]

/-! ### Rows -/

theorem Core.col_zeroRow (k : Core) (row r : Nat) {j : Nat} (hj : j < 128) :
    (k.zeroRow row).col r j = if r = row then 0 else k.col r j := by
  have hdiv : (128 * r + j) / 128 = r := by omega
  show Tbl.get 0 (k.acc.filter (fun e => e.1 / 128 != row)) (128 * r + j) = _
  rw [Tbl.get_filter 0 k.acc (fun n => n / 128 != row), hdiv]
  by_cases h : r = row <;> simp [h, Core.col]

theorem Core.poisoned_zeroRow (k : Core) (row r : Nat) :
    (k.zeroRow row).poisoned r = if r = row then false else k.poisoned r := Tbl.get_set false k.poison row r false

/-- Rows zeroed one after another. -/
theorem Core.zeroRows_spec (k : Core) (rows : List Nat) :
    let k' := rows.foldl Core.zeroRow k
    (∀ r j, j < 128 → k'.col r j = if r ∈ rows then 0 else k.col r j) ∧
    (∀ r, k'.poisoned r = if r ∈ rows then false else k.poisoned r) ∧
    k' = { k with acc := k'.acc, poison := k'.poison } := by
  induction rows generalizing k with
  | nil => exact ⟨fun _ _ _ => by simp, fun _ => by simp, rfl⟩
  | cons row rows ih =>
    obtain ⟨col, poison, shape⟩ := ih (k.zeroRow row)
    refine ⟨fun r j hj => ?_, fun r => ?_, ?_⟩
    · rw [List.foldl_cons, col r j hj, Core.col_zeroRow _ _ _ hj]
      by_cases h : r = row <;> by_cases h' : r ∈ rows <;> simp [h, h']
    · rw [List.foldl_cons, poison, Core.poisoned_zeroRow]
      by_cases h : r = row <;> by_cases h' : r ∈ rows <;> simp [h, h']
    · rw [List.foldl_cons]
      exact shape

/-! ### Slots -/

theorem Core.readByte_zeroSlot (k : Core) (n y : Nat) :
    Memory.readByte (k.zeroSlot n).slots y = if y / 16384 = n then 0 else Memory.readByte k.slots y := by
  show Tbl.get 0 (k.slots.filter (fun e => e.1 / 16384 != n)) y = _
  rw [Tbl.get_filter 0 k.slots (fun m => m / 16384 != n)]
  by_cases h : y / 16384 = n <;> simp [h, Memory.readByte]

/-! ### A word that works on the core of its gang -/

section
variable {c : Ctx} {u t : State} {g1 : Gang} {f : RegElem → Word} {P : Core → Prop}

/-- Where a word goes on from a state that differs in cores, cached translations and clocks, it has worked there. -/
theorem Ctx.worked_of_went (hw : c.went u g1 (c.pc + 4) f t) (hgangs : u.gangs = c.s.gangs)
    (hu : u = { c.s with gangs := u.gangs, cores := u.cores, tlb := u.tlb, vc := u.vc, next := u.next })
    (hother : ∀ n, n ≠ c.g.core → u.core n = c.s.core n) (hP : P (u.core c.g.core)) : c.workedMerging u.vc g1 f P t := by
  obtain ⟨g', rfl, rest, groups, settled⟩ := hw
  refine ⟨?_, hother, fun j hj => ?_, hP, g', State.gang?_putGang_same _ _ _, rest, groups, settled⟩
  · exact congrArg (fun v : State => v.putGang c.id g') hu
  · rw [State.gang?_putGang_other _ _ hj]
    exact State.gang?_of_gangs_eq hgangs j

/-- The accepted operations of a core are performed, or, while it is frozen, none is (R164, R188). -/
theorem State.flushed_eq (s : State) (core : Nat) : s.flushed core = s ∨ s.flushed core = s.modCore core Core.flushEngine := by
  rw [State.flushed]
  split
  · exact .inl rfl
  · exact .inr rfl

/-- A word that changes its core, its engine's accepted operations performed. -/
theorem Ctx.worked_flushed (F : Core → Core) (hw : c.went ((c.s.flushed c.g.core).modCore c.g.core F) g1 (c.pc + 4) f t)
    (hP : P (F c.engineCore)) : c.worked g1 f P t := by
  have hown : ((c.s.flushed c.g.core).modCore c.g.core F).core c.g.core = F c.engineCore := State.core_putCore_same _ _ _
  rcases c.s.flushed_eq c.g.core with h | h
  · rw [h] at hw hown
    exact Ctx.worked_of_went (u := c.s.modCore c.g.core F) hw rfl rfl (fun n hn => State.core_putCore_other _ _ hn) (hown ▸ hP)
  · rw [h] at hw hown
    exact Ctx.worked_of_went (u := (c.s.modCore c.g.core Core.flushEngine).modCore c.g.core F) hw rfl rfl (fun n hn =>
      (State.core_putCore_other _ _ hn).trans (State.core_putCore_other _ _ hn)) (hown ▸ hP)

/-- A word that only reads its core, its engine's accepted operations performed. -/
theorem Ctx.worked_reading (hw : c.went (c.s.flushed c.g.core) g1 (c.pc + 4) f t) (hP : P c.engineCore) :
    c.worked g1 f P t := by
  have hP' : P ((c.s.flushed c.g.core).core c.g.core) := hP
  rcases c.s.flushed_eq c.g.core with h | h
  · rw [h] at hw hP'
    exact Ctx.worked_of_went (u := c.s) hw rfl rfl (fun _ _ => rfl) hP'
  · rw [h] at hw hP'
    exact Ctx.worked_of_went (u := c.s.modCore c.g.core Core.flushEngine) hw rfl rfl
      (fun n hn => State.core_putCore_other _ _ hn) hP'

end

/-- The accepted operations of a core that is not frozen are performed (R164). -/
theorem State.flushed_of_thawed {s : State} {core : Nat} (h : s.frozen core = false) :
    s.flushed core = s.modCore core Core.flushEngine := by rw [State.flushed, h, if_neg Bool.false_ne_true]

end Sys2Proof.Machine
end

section
/-! PROOFS. MCLAIM, MREL and MSTAT (R160-R163, R186). -/

namespace Sys2Proof.Machine

/-! ### Claims (R160, R162) -/

theorem Core.grantSlot_spec (k : Core) (team n : Nat) :
    (∀ m, (k.grantSlot team n).slotHolder m = if m = n then some team else k.slotHolder m) ∧
    (∀ y, Memory.readByte (k.grantSlot team n).slots y =
      if y / 16384 = n ∧ k.slotHolder n ≠ some team then 0 else Memory.readByte k.slots y) ∧
    k.grantSlot team n = { k with slots := (k.grantSlot team n).slots, slotOwner := (k.grantSlot team n).slotOwner } := by
  unfold Core.grantSlot
  split
  · next h =>
    refine ⟨fun m => ?_, fun y => by simp [h], rfl⟩
    split
    · next hm => rw [hm, h]
    · rfl
  · next h =>
    refine ⟨fun m => Tbl.get_set none k.slotOwner n m (some team), fun y => ?_, rfl⟩
    refine (k.readByte_zeroSlot n y).trans ?_
    simp only [h, not_false_eq_true, and_true, ne_eq]

/-- A claim's slots: held, and zero where they are newly held. -/
theorem Core.grantSlots_spec (k : Core) (team : Nat) (ns : List Nat) :
    let k' := ns.foldl (fun k n => k.grantSlot team n) k
    (∀ m, k'.slotHolder m = if m ∈ ns then some team else k.slotHolder m) ∧
    (∀ y, y / 16384 ∈ ns → k.slotHolder (y / 16384) ≠ some team → Memory.readByte k'.slots y = 0) ∧
    (∀ y, Memory.readByte k.slots y = 0 → Memory.readByte k'.slots y = 0) ∧
    k' = { k with slots := k'.slots, slotOwner := k'.slotOwner } := by
  induction ns generalizing k with
  | nil => exact ⟨fun _ => by simp, fun _ h => absurd h List.not_mem_nil, fun _ h => h, rfl⟩
  | cons n ns ih =>
    obtain ⟨holder, zero, keeps, shape⟩ := ih (k.grantSlot team n)
    obtain ⟨holder1, byte1, shape1⟩ := k.grantSlot_spec team n
    refine ⟨fun m => ?_, fun y hy hnew => ?_, fun y hy => keeps y (by rw [byte1, hy, ite_self]), ?_⟩
    · rw [List.foldl_cons, holder, holder1]
      by_cases h : m = n <;> by_cases h' : m ∈ ns <;> simp [h, h']
    · by_cases h : y / 16384 = n
      · exact keeps y (by rw [byte1, if_pos ⟨h, h ▸ hnew⟩])
      · exact zero y ((List.mem_cons.1 hy).resolve_left h) (by rwa [holder1, if_neg h])
    · rw [List.foldl_cons]
      exact shape.trans (by rw [shape1])

theorem Core.grantBlock_spec (k : Core) (team n : Nat) :
    (∀ m, (k.grantBlock team n).blockHolder m = if m = n then some team else k.blockHolder m) ∧
    (∀ r j, j < 128 → (k.grantBlock team n).col r j = if r / 32 = n ∧ k.blockHolder n ≠ some team then 0 else k.col r j) ∧
    (∀ r, (k.grantBlock team n).poisoned r = if r / 32 = n ∧ k.blockHolder n ≠ some team then false else k.poisoned r) ∧
    k.grantBlock team n = { k with
      acc := (k.grantBlock team n).acc, poison := (k.grantBlock team n).poison
      blockOwner := (k.grantBlock team n).blockOwner } := by
  have rows : (List.range 32).foldl (fun k r => k.zeroRow (32 * n + r)) k =
      ((List.range 32).map (fun r => 32 * n + r)).foldl Core.zeroRow k := (List.foldl_map ..).symm
  have hmem : ∀ r, r ∈ (List.range 32).map (fun r => 32 * n + r) ↔ r / 32 = n := by
    intro r
    simp only [List.mem_map, List.mem_range]
    exact ⟨by rintro ⟨i, hi, rfl⟩; omega, fun h => ⟨r % 32, by omega, by omega⟩⟩
  unfold Core.grantBlock
  split
  · next h =>
    refine ⟨fun m => ?_, fun r j _ => by simp [h], fun r => by simp [h], rfl⟩
    split
    · next hm => rw [hm, h]
    · rfl
  · next h =>
    obtain ⟨col, poison, shape⟩ := k.zeroRows_spec ((List.range 32).map (fun r => 32 * n + r))
    rw [rows]
    generalize ((List.range 32).map (fun r => 32 * n + r)).foldl Core.zeroRow k = k1 at col poison shape
    have howner : k1.blockOwner = k.blockOwner := by rw [shape]
    refine ⟨fun m => ?_, fun r j hj => ?_, fun r => ?_, ?_⟩
    · refine (Tbl.get_set none k1.blockOwner n m (some team)).trans ?_
      rw [howner]
      rfl
    · refine (col r j hj).trans ?_
      simp only [hmem, h, not_false_eq_true, and_true, ne_eq]
    · refine (poison r).trans ?_
      simp only [hmem, h, not_false_eq_true, and_true, ne_eq]
    · exact congrArg (fun v : Core => { v with blockOwner := Tbl.set none k1.blockOwner n (some team) }) shape

/-- A claim's blocks: held, and their rows zero and free of poison where they are newly held. -/
theorem Core.grantBlocks_spec (k : Core) (team : Nat) (ns : List Nat) :
    let k' := ns.foldl (fun k n => k.grantBlock team n) k
    (∀ m, k'.blockHolder m = if m ∈ ns then some team else k.blockHolder m) ∧
    (∀ r, r / 32 ∈ ns → k.blockHolder (r / 32) ≠ some team → k'.poisoned r = false ∧ ∀ j < 128, k'.col r j = 0) ∧
    (∀ r, (k.poisoned r = false ∧ ∀ j < 128, k.col r j = 0) → k'.poisoned r = false ∧ ∀ j < 128, k'.col r j = 0) ∧
    k' = { k with acc := k'.acc, poison := k'.poison, blockOwner := k'.blockOwner } := by
  induction ns generalizing k with
  | nil => exact ⟨fun _ => by simp, fun _ h => absurd h List.not_mem_nil, fun _ h => h, rfl⟩
  | cons n ns ih =>
    obtain ⟨holder, zero, keeps, shape⟩ := ih (k.grantBlock team n)
    obtain ⟨holder1, col1, poison1, shape1⟩ := k.grantBlock_spec team n
    refine ⟨fun m => ?_, fun r hr hnew => ?_, fun r hr => keeps r ⟨by rw [poison1, hr.1, ite_self], fun j hj => by
      rw [col1 r j hj, hr.2 j hj, ite_self]⟩, ?_⟩
    · rw [List.foldl_cons, holder, holder1]
      by_cases h : m = n <;> by_cases h' : m ∈ ns <;> simp [h, h']
    · by_cases h : r / 32 = n
      · exact keeps r ⟨by rw [poison1, if_pos ⟨h, h ▸ hnew⟩], fun j hj => by rw [col1 r j hj, if_pos ⟨h, h ▸ hnew⟩]⟩
      · exact zero r ((List.mem_cons.1 hr).resolve_left h) (by rwa [holder1, if_neg h])
    · rw [List.foldl_cons]
      exact shape.trans (by rw [shape1])

/-- The core after a claim. -/
def Core.granted (k : Core) (team : Nat) (slots blocks : Word) : Core :=
  (members blocks).foldl (fun k n => k.grantBlock team n) ((members slots).foldl (fun k n => k.grantSlot team n) k)

/-- What a claim leaves of its core (R160, R162). -/
theorem Core.granted_spec (k : Core) (team : Nat) (slots blocks : Word) :
    (∀ n < 32, (k.granted team slots blocks).slotHolder n = (if slots.getLsbD n = true then some team else k.slotHolder n) ∧
      (k.granted team slots blocks).blockHolder n = (if blocks.getLsbD n = true then some team else k.blockHolder n)) ∧
    (∀ n < 32, slots.getLsbD n = true → k.slotHolder n ≠ some team → ∀ y, y / 16384 = n →
      Memory.readByte (k.granted team slots blocks).slots y = 0) ∧
    (∀ n < 32, blocks.getLsbD n = true → k.blockHolder n ≠ some team → ∀ r, r / 32 = n →
      (k.granted team slots blocks).poisoned r = false ∧ ∀ j < 128, (k.granted team slots blocks).col r j = 0) := by
  obtain ⟨slotHolder, zero, -, shape⟩ := k.grantSlots_spec team (members slots)
  generalize hk : (members slots).foldl (fun k n => k.grantSlot team n) k = k1 at slotHolder zero shape
  obtain ⟨blockHolder, clear, -, shape2⟩ := k1.grantBlocks_spec team (members blocks)
  have hgranted : k.granted team slots blocks = (members blocks).foldl (fun k n => k.grantBlock team n) k1 := by rw [← hk]; rfl
  have hblock : ∀ n, k1.blockHolder n = k.blockHolder n := fun n => by rw [shape]; rfl
  rw [hgranted]
  refine ⟨fun n hn => ⟨?_, ?_⟩, fun n hn hsl hnew y hy => ?_, fun n hn hbl hnew r hr => ?_⟩
  · rw [shape2]
    refine (slotHolder n).trans ?_
    simp only [mem_members, hn, true_and]
  · rw [blockHolder, hblock]
    simp only [mem_members, hn, true_and]
  · rw [shape2]
    exact zero y (mem_members.2 (hy.symm ▸ ⟨hn, hsl⟩)) (hy.symm ▸ hnew)
  · exact clear r (mem_members.2 (hr.symm ▸ ⟨hn, hbl⟩)) (by rw [hblock, hr]; exact hnew)

/-! ### Releases (R163) -/

theorem Tbl.get_foldl_set {α : Type} [DecidableEq α] (d v : α) (ns : List Nat) (t : Tbl α) (n : Nat) :
    Tbl.get d (ns.foldl (fun t n => Tbl.set d t n v) t) n = if n ∈ ns then v else Tbl.get d t n := by
  induction ns generalizing t with
  | nil => simp
  | cons m ns ih =>
    rw [List.foldl_cons, ih, Tbl.get_set]
    by_cases h : n = m <;> by_cases h' : n ∈ ns <;> simp [h, h']

theorem get_ownersWithout_list (team : Nat) (ns : List Nat) (t : Tbl (Option Nat)) (n : Nat) :
    Tbl.get none (ns.foldl (fun t n => if Tbl.get none t n = some team then Tbl.set none t n none else t) t) n =
      if n ∈ ns ∧ Tbl.get none t n = some team then none else Tbl.get none t n := by
  induction ns generalizing t with
  | nil => simp
  | cons m ns ih =>
    rw [List.foldl_cons, ih]
    by_cases hm : Tbl.get none t m = some team
    · rw [if_pos hm, Tbl.get_set]
      by_cases h : n = m
      · simp [h, hm]
      · simp [h]
    · rw [if_neg hm]
      by_cases h : n = m
      · simp [h, hm]
      · simp [h]

theorem get_ownersWithout (t : Tbl (Option Nat)) (team : Nat) (units : Word) {n : Nat} (hn : n < 32) :
    Tbl.get none (ownersWithout t team units) n =
      if units.getLsbD n = true ∧ Tbl.get none t n = some team then none else Tbl.get none t n := by
  rw [ownersWithout, get_ownersWithout_list]
  simp only [mem_members, hn, true_and]

theorem Core.getLsbD_heldSlots (k : Core) (team : Nat) (sl : Word) {n : Nat} (hn : n < 32) :
    (k.heldSlots team sl).getLsbD n = (sl.getLsbD n && k.slotHolder n == some team) := getLsbD_maskOf _ hn
theorem Core.getLsbD_heldBlocks (k : Core) (team : Nat) (bl : Word) {n : Nat} (hn : n < 32) :
    (k.heldBlocks team bl).getLsbD n = (bl.getLsbD n && k.blockHolder n == some team) := getLsbD_maskOf _ hn

/-- The core after a release. -/
def Core.released (k : Core) (now team : Nat) (slots blocks : Word) : Core :=
  { k with
    slotOwner := ownersWithout k.slotOwner team slots, blockOwner := ownersWithout k.blockOwner team blocks
    freeFrom := k.freedAt now (k.heldSlots team slots) (k.heldBlocks team blocks) }

theorem Core.freeAt_released (k : Core) (now team : Nat) (slots blocks : Word) {n : Nat}
    (h : n ∈ members (k.heldSlots team slots) ++ (members (k.heldBlocks team blocks)).map (32 + ·)) (t : Nat) :
    (k.released now team slots blocks).freeAt t n = decide (now < t) := by
  show decide (Tbl.get 0 (List.foldl _ k.freeFrom _) n ≤ t) = _
  rw [Tbl.get_foldl_set, if_pos h]
  rfl

/-- What a release leaves of its core: sl and bl name the units, of which those that the team holds are given back. -/
theorem Core.released_spec (k : Core) {k0 : Core} (now team : Nat) (sl bl : Word) {n : Nat} (hn : n < 32)
    (hslot : k0.slotHolder n = k.slotHolder n) (hblock : k0.blockHolder n = k.blockHolder n) :
    let e := k.released now team (k0.heldSlots team sl) (k0.heldBlocks team bl)
    e.slotHolder n = (if sl.getLsbD n = true ∧ k.slotHolder n = some team then none else k.slotHolder n) ∧
    e.blockHolder n = (if bl.getLsbD n = true ∧ k.blockHolder n = some team then none else k.blockHolder n) ∧
    (sl.getLsbD n = true → k.slotHolder n = some team → ∀ t, e.freeAt t n = decide (now < t)) ∧
    (bl.getLsbD n = true → k.blockHolder n = some team → ∀ t, e.freeAt t (32 + n) = decide (now < t)) := by
  refine ⟨(get_ownersWithout _ _ _ hn).trans (if_congr ?_ rfl rfl), (get_ownersWithout _ _ _ hn).trans (if_congr ?_ rfl rfl),
    fun h hheld t => k.freeAt_released now team _ _ ?_ t, fun h hheld t => k.freeAt_released now team _ _ ?_ t⟩
  · rw [k0.getLsbD_heldSlots _ _ hn, hslot, Bool.and_eq_true, beq_iff_eq, and_assoc]
    exact and_congr_right' (and_self_iff ..)
  · rw [k0.getLsbD_heldBlocks _ _ hn, hblock, Bool.and_eq_true, beq_iff_eq, and_assoc]
    exact and_congr_right' (and_self_iff ..)
  · refine List.mem_append_left _ (mem_members.2 ⟨hn, ?_⟩)
    rw [k.getLsbD_heldSlots _ _ hn, k0.getLsbD_heldSlots _ _ hn, hslot, h, hheld]
    simp
  · refine List.mem_append_right _ (List.mem_map_of_mem (mem_members.2 ⟨hn, ?_⟩))
    rw [k.getLsbD_heldBlocks _ _ hn, k0.getLsbD_heldBlocks _ _ hn, hblock, h, hheld]
    simp

theorem get_ownersWithout_ne (t : Tbl (Option Nat)) (team : Nat) (units : Word) {n : Nat} (hn : n < 32)
    (h : units.getLsbD n = true) : Tbl.get none (ownersWithout t team units) n ≠ some team := by
  rw [get_ownersWithout _ _ _ hn]
  by_cases hheld : Tbl.get none t n = some team <;> simp [h, hheld]

/-! ### The words -/

theorem exec_mclaim {c : Ctx} (hs : c.s.issuing = some c) (a : RegField) : exec (.mclaim a) c.s = c.run (c.claimStop a)
    (c.onceDo (if c.sval (a.toNat - 0xC0) = 0 ∧ c.sval (a.toNat - 0xC0 + 1) = 0 then c.skip
      else c.engineDo
        (if c.s.claimable c.g.core c.g.team c.s.next (c.sval (a.toNat - 0xC0)) (c.sval (a.toNat - 0xC0 + 1)) then
          c.nextIn (c.s.grantClaim c.g.core c.g.team (c.sval (a.toNat - 0xC0)) (c.sval (a.toNat - 0xC0 + 1)))
         else (c.park (.mclaim (c.sval (a.toNat - 0xC0)) (c.sval (a.toNat - 0xC0 + 1)))).modGang c.id (fun g => g.modGroup c.slices (fun x =>
           { x with since := c.frozenPlace }))))) := withIssue_some hs _

theorem exec_mrel {c : Ctx} (hs : c.s.issuing = some c) (a : RegField) : exec (.mrel a) c.s = c.run (c.claimStop a)
    (c.onceDo (c.engineDo
      (if c.s.slotWriter c.g.core c.g.team (c.core.heldSlots c.g.team (c.sval (a.toNat - 0xC0))) then
        c.park (.mrel (c.core.heldSlots c.g.team (c.sval (a.toNat - 0xC0))) (c.core.heldBlocks c.g.team (c.sval (a.toNat - 0xC0 + 1))))
       else c.nextIn (c.s.giveBack c.g.core c.g.team (c.core.heldSlots c.g.team (c.sval (a.toNat - 0xC0)))
         (c.core.heldBlocks c.g.team (c.sval (a.toNat - 0xC0 + 1))))))) := withIssue_some hs _

/-- The status word of MSTAT (R186). -/
def Ctx.statusWord (c : Ctx) (k : Core) (sel j : Nat) : Word := match sel with
  | 0 => BitVec.ofNat 32 ((c.g.mxf ||| k.flagsOf c.id).toNat + 64 * (c.s.frozen c.g.core).toNat)
  | 1 => k.heldSlots c.g.team (BitVec.allOnes 32)
  | 2 => k.heldBlocks c.g.team (BitVec.allOnes 32)
  | 3 => if k.blockHolder j = some c.g.team then maskOf 32 (fun i => k.poisoned (32 * j + i)) else 0
  | _ => maskOf 32 (fun n => k.slotHolder n == none)

theorem exec_mstat {c : Ctx} (hs : c.s.issuing = some c) (d a : RegField) : exec (.mstat d a) c.s =
    c.run (c.onceStop (scalarDst d && scalarOk a)
        (bits (c.readS a).toNat 7 4 == 0 && (c.readS a).toNat / 2 ^ 13 == 0 && decide ((c.readS a).toNat % 16 ≤ 4)) true
        (regsOf a false) [] [] (regsOf d false))
      (c.onceDo (if c.s.frozenBefore c.g.core c.frozenPlace && !c.s.frozen c.g.core then c.parkFrozen
        else c.next (if (c.readS a).toNat % 16 = 0 then (c.s.flushed c.g.core).modCore c.g.core (fun k => k.takeFlags c.id)
            else c.s.flushed c.g.core)
          ((if (c.readS a).toNat % 16 = 0 then { c.g with mxf := 0 } else c.g).writeNow
            [(.s (sreg d), c.statusWord c.engineCore ((c.readS a).toNat % 16) (bits (c.readS a).toNat 12 8))]))) :=
  withIssue_some hs _

/-! ### What the words leave -/

section
variable {c : Ctx}

/-- A group that has not waited for the engine before parks in the order of the words that park. -/
theorem Ctx.parked_fresh (hg : c.s.gang? c.id = some c.g) (hpark : c.grp.park = none) (p : Park) :
    c.parked p ((c.park p).modGang c.id (fun g => g.modGroup c.slices (fun x => { x with since := c.frozenPlace }))) := by
  have hplace : c.frozenPlace = c.s.next := by rw [Ctx.frozenPlace, hpark]
  obtain ⟨g', hpk, rest, settled, groups⟩ := c.parked_park p hg
  refine ⟨g'.modGroup c.slices (fun x => { x with since := c.frozenPlace }), ?_, ?_, fun e => ?_, ?_⟩
  · rw [hpk, State.modGang_some (State.gang?_putGang_same _ _ _), State.putGang_putGang]
  · rw [Gang.rest_modGroup, rest]
  · rw [← settled e]
    exact Gang.settled_modGroup _ _ _ e
  · show List.map _ g'.groups = _
    rw [groups, List.map_map, hplace]
    refine List.map_congr_left fun x _ => ?_
    by_cases h : x.slices = c.slices <;> simp [h]

theorem Ctx.engineDo_held (h : c.engineHolds = true) (t : State) : c.engineDo t = c.parkFrozen := if_pos h
theorem Ctx.engineDo_free (h : c.engineHolds = false) (t : State) : c.engineDo t = t := by
  rw [Ctx.engineDo, h, if_neg Bool.false_ne_true]

theorem Ctx.thawed_of_free (h : c.engineHolds = false) : c.s.frozen c.g.core = false := (Bool.or_eq_false_iff.1 h).1

/-- A word that works on its core and leaves its gang's registers. -/
theorem Ctx.worked_nextIn (hg : c.s.gang? c.id = some c.g) (F : Core → Core) {P : Core → Prop} (hP : P (F c.engineCore)) :
    c.worked c.g c.g.settled P (c.nextIn ((c.s.flushed c.g.core).modCore c.g.core F)) := by
  have hgang : ((c.s.flushed c.g.core).modCore c.g.core F).gang? c.id = some c.g := by
    rcases c.s.flushed_eq c.g.core with h | h
    · rw [h]
      exact hg
    · rw [h]
      exact hg
  rw [Ctx.nextIn, hgang]
  exact Ctx.worked_flushed F (went_next c _ c.g rfl) hP

theorem Ctx.went_statusWord (u : State) (g : Gang) (hg : g.groups = c.g.groups) (hs : ∀ e, g.settled e = c.g.settled e) (i : Nat)
    (v : Word) : c.went u g (c.pc + 4) (fun e => if e = .s i then v else c.g.settled e) (c.next u (g.writeNow [(.s i, v)])) := by
  refine Ctx.went_congr (Gang.rest_writeNow _ _) (fun e => ?_) (went_next c u _ ((Gang.groups_writeNow _ _).trans hg))
  rw [Gang.settled_writeNow]
  by_cases h : (RegElem.s i) = e
  · subst h
    simp [overwritten, RegElem.holds]
  · simp [overwritten, h, Ne.symm h, hs]

/-- The bits of the status word (R186). -/
theorem Ctx.statusWord_spec (k : Core) (j : Nat) :
    ((c.statusWord k 0 j).extractLsb' 0 6 = c.g.mxf ||| k.flagsOf c.id ∧
      ((c.statusWord k 0 j).getLsbD 6 = true ↔ c.s.frozen c.g.core = true)) ∧
    ∀ n < 32, ((c.statusWord k 1 j).getLsbD n = true ↔ k.slotHolder n = some c.g.team) ∧
      ((c.statusWord k 2 j).getLsbD n = true ↔ k.blockHolder n = some c.g.team) ∧
      ((c.statusWord k 3 j).getLsbD n = true ↔ k.blockHolder j = some c.g.team ∧ k.poisoned (32 * j + n) = true) ∧
      ((c.statusWord k 4 j).getLsbD n = true ↔ k.slotHolder n = none) := by
  refine ⟨?_, fun n hn => ⟨?_, ?_, ?_, ?_⟩⟩
  · show (BitVec.ofNat 32 _).extractLsb' 0 6 = _ ∧ ((BitVec.ofNat 32 _).getLsbD 6 = true ↔ _)
    generalize c.g.mxf ||| k.flagsOf c.id = m
    have hm := m.isLt
    constructor
    · refine BitVec.eq_of_toNat_eq ?_
      rw [BitVec.extractLsb'_toNat, BitVec.toNat_ofNat, Nat.shiftRight_zero]
      cases c.s.frozen c.g.core <;> simp only [Bool.toNat_false, Bool.toNat_true] <;> omega
    · rw [BitVec.getLsbD_ofNat, Nat.testBit_eq_decide_div_mod_eq]
      cases c.s.frozen c.g.core <;> simp only [Bool.toNat_false, Bool.toNat_true] <;> simp <;> omega
  · show (k.heldSlots _ _).getLsbD n = true ↔ _
    rw [k.getLsbD_heldSlots _ _ hn, BitVec.getLsbD_allOnes, decide_eq_true hn, Bool.true_and, beq_iff_eq]
  · show (k.heldBlocks _ _).getLsbD n = true ↔ _
    rw [k.getLsbD_heldBlocks _ _ hn, BitVec.getLsbD_allOnes, decide_eq_true hn, Bool.true_and, beq_iff_eq]
  · show (if k.blockHolder j = some c.g.team then maskOf 32 (fun i => k.poisoned (32 * j + i)) else 0 : Word).getLsbD n = true ↔ _
    split
    · next h => rw [getLsbD_maskOf _ hn]; simp [h]
    · next h => simp [h]
  · show (maskOf 32 (fun n => k.slotHolder n == none)).getLsbD n = true ↔ _
    rw [getLsbD_maskOf _ hn, beq_iff_eq]

end

/-! ### What waits for the engine -/

theorem State.mem_coreGangs {s : State} {core : Nat} {e : Nat × Gang} :
    e ∈ s.coreGangs core ↔ s.gang? e.1 = some e.2 ∧ e.2.core = core ∧ s.resident e.2 = true := by
  rw [State.coreGangs, List.mem_filter, mem_listed_iff, State.gang?, Bool.and_eq_true, beq_iff_eq]

/-- The group of a claim or a release that ends goes on at the next word. -/
theorem State.woken {s : State} {id : Nat} {g : Gang} (hg : s.gang? id = some g) (x : Group) :
    ∃ g', (s.wake id x.slices (x.pc + 4)).gang? id = some g' ∧ ∀ y ∈ g'.groups, y.slices = x.slices →
      y.pc = x.pc + 4 ∧ y.park = none := by
  rw [State.wake, State.modGang_some hg]
  refine ⟨_, State.gang?_putGang_same _ _ _, fun y hy hslices => ?_⟩
  simp only [Gang.modGroup, Gang.groups_retire, List.map_map, List.mem_map, Function.comp_apply] at hy
  obtain ⟨z, -, rfl⟩ := hy
  by_cases h : z.slices = x.slices
  · simp [h]
  · simp [h] at hslices

theorem State.wake_core (s : State) (id : Nat) (m : SliceMask) (pc : VAddr) (n : Nat) : (s.wake id m pc).core n = s.core n := by
  unfold State.wake State.modGang
  split <;> rfl

/-- What parks at the core, by what it waits for: the gang, the group and the two words. -/
abbrev Waiting := (Nat × Gang) × Group × Word × Word

section
variable {s : State} {core id : Nat} {g : Gang} {x : Group}

/-- Group x of gang id is all that waits on the core for a claim or a release. -/
def State.waitsAlone (s : State) (core id : Nat) (x : Group) : Prop :=
  ∀ j h y p q, s.gang? j = some h → s.resident h = true → h.core = core → y ∈ h.groups →
    y.park = some (.mclaim p q) ∨ y.park = some (.mrel p q) → j = id ∧ y = x

/-- Of what waits there, the group that waits alone is the first. -/
theorem State.head_waiting (hg : s.gang? id = some g) (hres : s.resident g = true) (hcore : g.core = core) (hx : x ∈ g.groups)
    (halone : s.waitsAlone core id x) {f : Nat × Gang → Group → Option Waiting} {w : Waiting} (hw : f (id, g) x = some w)
    (hf : ∀ e y v, f e y = some v → ∃ p q, y.park = some (.mclaim p q) ∨ y.park = some (.mrel p q))
    (le : Waiting → Waiting → Bool) :
    ∃ rest, ((s.coreGangs core).flatMap (fun e => e.2.groups.filterMap (f e))).sortedBy le = w :: rest := by
  have hmem : w ∈ (s.coreGangs core).flatMap (fun e => e.2.groups.filterMap (f e)) :=
    List.mem_flatMap.2 ⟨(id, g), State.mem_coreGangs.2 ⟨hg, hcore, hres⟩, List.mem_filterMap.2 ⟨x, hx, hw⟩⟩
  cases h : ((s.coreGangs core).flatMap (fun e => e.2.groups.filterMap (f e))).sortedBy le with
  | nil => exact absurd (List.mem_sortedBy.2 hmem) (h ▸ List.not_mem_nil)
  | cons v rest =>
    have hv := List.mem_sortedBy.1 (h ▸ List.mem_cons_self : v ∈ List.sortedBy _ le)
    obtain ⟨e, he, hv⟩ := List.mem_flatMap.1 hv
    obtain ⟨y, hy, hv⟩ := List.mem_filterMap.1 hv
    obtain ⟨hge, hce, hre⟩ := State.mem_coreGangs.1 he
    obtain ⟨p, q, hp⟩ := hf e y v hv
    obtain ⟨hid, rfl⟩ := halone e.1 e.2 y p q hge hre hce hy hp
    have he : e = (id, g) := Prod.ext hid (Option.some.inj (hge.symm.trans (hid ▸ hg)))
    rw [he, hw] at hv
    exact ⟨rest, by rw [Option.some.inj hv]⟩

theorem exec_mclaimGrant {sl bl : Word} (hg : s.gang? id = some g) (hres : s.resident g = true) (hcore : g.core = core)
    (hx : x ∈ g.groups) (halone : s.waitsAlone core id x) (hpark : x.park = some (.mclaim sl bl))
    (hfree : s.claimable core g.team x.since sl bl = true) : exec (.mclaimGrant core) s =
      whenever (!s.frozen core) s ((s.grantClaim core g.team sl bl).wake id x.slices (x.pc + 4)) := by
  obtain ⟨rest, hhead⟩ := State.head_waiting hg hres hcore hx halone (w := ((id, g), x, sl, bl))
    (f := fun e x => match x.park with
      | some (.mclaim a b) => if s.claimable core e.2.team x.since a b then some (e, x, a, b) else none
      | _ => none) (by simp [hpark, hfree])
    (fun e y v hv => by
      split at hv
      · next a b hp => exact ⟨a, b, .inl hp⟩
      · exact absurd hv.symm (Option.some_ne_none v)) (fun p q => decide (p.2.1.since ≤ q.2.1.since))
  exact congrArg (fun l : List Waiting => match l with
    | (e, x, a, b) :: _ => whenever (!s.frozen core) s ((s.grantClaim core e.2.team a b).wake e.1 x.slices (x.pc + 4))
    | [] => .next s) hhead

theorem exec_mrelRelease {sl bl : Word} (hg : s.gang? id = some g) (hres : s.resident g = true) (hcore : g.core = core)
    (hx : x ∈ g.groups) (halone : s.waitsAlone core id x) (hpark : x.park = some (.mrel sl bl))
    (hfree : s.slotWriter core g.team sl = false) : exec (.mrelRelease core) s =
      whenever (!s.frozen core) s ((s.giveBack core g.team sl bl).wake id x.slices (x.pc + 4)) := by
  obtain ⟨rest, hhead⟩ := State.head_waiting hg hres hcore hx halone (w := ((id, g), x, sl, bl))
    (f := fun e x => match x.park with
      | some (.mrel a b) => if s.slotWriter core e.2.team a then none else some (e, x, a, b)
      | _ => none) (by simp [hpark, hfree])
    (fun e y v hv => by
      split at hv
      · next a b hp => exact ⟨a, b, .inr hp⟩
      · exact absurd hv.symm (Option.some_ne_none v)) (fun p q => decide (p.2.1.since ≤ q.2.1.since))
  exact congrArg (fun l : List Waiting => match l with
    | (e, x, a, b) :: _ => whenever (!s.frozen core) s ((s.giveBack core e.2.team a b).wake e.1 x.slices (x.pc + 4))
    | [] => .next s) hhead

theorem State.gang?_flushed (s : State) (core j : Nat) : (s.flushed core).gang? j = s.gang? j := by
  rcases s.flushed_eq core with h | h
  · rw [h]
  · rw [h]
    rfl

theorem State.core_woken (u : State) (F : Core → Core) (core id : Nat) (m : SliceMask) (pc : VAddr) :
    ((u.modCore core F).wake id m pc).core core = F (u.core core) := by
  rw [State.wake_core, State.core_modCore_same]

end

/-- Settles O49: the claims, the releases, what waits for them, and the status word. -/
theorem matrixUnitsAreClaimed : Obligations.MatrixUnitsAreClaimed := by
  unfold Obligations.MatrixUnitsAreClaimed
  refine ⟨fun s c d a hs => ?_, fun s id core g x sl bl hg hres hcore hx hfrozen halone => ?_⟩
  · obtain rfl := State.issuing_state hs
    have hg : c.s.gang? c.id = some c.g := State.issuing_gang hs
    dsimp only
    refine ⟨fun hok => ⟨fun off => ⟨?_, ?_⟩, fun on hsl hbl => ?_, fun on held hpark => ⟨?_, fun hnz => ?_⟩, fun on free =>
      ⟨fun hnz hpark hnot => ?_, fun hnz hcan => ?_, fun hw => ?_, fun hw => ?_⟩⟩, fun hok hfree => ⟨fun off => ?_, fun on =>
      ⟨c.statusWord c.engineCore ((c.readS a).toNat % 16) (bits (c.readS a).toNat 12 8), ?_, ?_, ?_⟩⟩⟩
    · exact gives_run (exec_mclaim hs a) hok (Ctx.wrote_onceDo off _)
    · exact gives_run (exec_mrel hs a) hok (Ctx.wrote_onceDo off _)
    · refine gives_run (exec_mclaim hs a) hok ?_
      rw [Ctx.onceDo_true on, if_pos ⟨hsl, hbl⟩]
      exact c.wrote_skip
    · refine gives_run (exec_mrel hs a) hok ?_
      rw [Ctx.onceDo_true on, Ctx.engineDo_held held]
      exact Ctx.parked_fresh hg hpark _
    · refine gives_run (exec_mclaim hs a) hok ?_
      rw [Ctx.onceDo_true on, if_neg (not_and_or.2 hnz), Ctx.engineDo_held held]
      exact Ctx.parked_fresh hg hpark _
    · refine gives_run (exec_mclaim hs a) hok ?_
      rw [Ctx.onceDo_true on, if_neg (not_and_or.2 hnz), Ctx.engineDo_free free, if_neg (Bool.eq_false_iff.1 hnot)]
      exact Ctx.parked_fresh hg hpark _
    · refine gives_run (exec_mclaim hs a) hok ?_
      rw [Ctx.onceDo_true on, if_neg (not_and_or.2 hnz), Ctx.engineDo_free free, if_pos hcan]
      exact Ctx.worked_nextIn hg (fun k => k.granted c.g.team _ _) (c.engineCore.granted_spec c.g.team _ _)
    · refine gives_run (exec_mrel hs a) hok ?_
      rw [Ctx.onceDo_true on, Ctx.engineDo_free free, if_pos hw]
      exact c.parked_park _ hg
    · refine gives_run (exec_mrel hs a) hok ?_
      rw [Ctx.onceDo_true on, Ctx.engineDo_free free, if_neg (Bool.eq_false_iff.1 hw)]
      refine Ctx.worked_nextIn hg (fun k => k.released c.s.now c.g.team (c.core.heldSlots c.g.team _) (c.core.heldBlocks c.g.team _))
        ⟨fun n hn hslot hblock => ?_, fun _ _ => ⟨rfl, fun _ _ => rfl⟩, fun _ _ => rfl⟩
      exact c.engineCore.released_spec c.s.now c.g.team _ _ hn hslot hblock
    · exact gives_run (exec_mstat hs d a) hok (Ctx.wrote_onceDo off _)
    · refine gives_run (exec_mstat hs d a) hok ?_
      rw [Ctx.onceDo_true on, hfree, Bool.false_and, if_neg Bool.false_ne_true]
      by_cases h0 : (c.readS a).toNat % 16 = 0
      · rw [if_pos h0, if_pos h0]
        exact Ctx.worked_flushed (fun k => k.takeFlags c.id) (Ctx.went_statusWord _ { c.g with mxf := 0 } rfl
          (Gang.settled_congr rfl rfl rfl rfl) _ _) ⟨fun _ _ => ⟨rfl, fun _ _ => rfl⟩, fun _ _ => rfl⟩
      · rw [if_neg h0, if_neg h0]
        exact Ctx.worked_reading (Ctx.went_statusWord _ c.g rfl (fun _ => rfl) _ _)
          ⟨fun _ _ => ⟨rfl, fun _ _ => rfl⟩, fun _ _ => rfl⟩
    · intro h0
      rw [h0]
      exact (Ctx.statusWord_spec c.engineCore _).1
    · intro n hn
      obtain ⟨slots, blocks, poisoned, free⟩ := (c.statusWord_spec c.engineCore (bits (c.readS a).toNat 12 8)).2 n hn
      have hj : bits (c.readS a).toNat 12 8 = (c.readS a).toNat / 256 := by
        obtain ⟨-, -, hvalues, -⟩ := Ctx.onceStop_none.1 hok
        simp only [Bool.and_eq_true, beq_iff_eq] at hvalues
        obtain ⟨⟨-, htop⟩, -⟩ := hvalues
        show (c.readS a).toNat / 2 ^ 8 % 2 ^ 5 = _
        omega
      refine ⟨fun h => by rw [h]; exact slots, fun h => by rw [h]; exact blocks, fun h => ?_, fun h => by rw [h]; exact free⟩
      rw [h, ← hj]
      exact poisoned
  · intro went
    refine ⟨fun hpark hfree => ?_, fun hpark hfree => ?_⟩
    · obtain ⟨g', hg', hwent⟩ := State.woken (s := s.grantClaim core g.team sl bl) (id := id) (g := g)
        ((s.gang?_flushed core id).trans hg) x
      have hcores := State.core_woken (s.flushed core) (fun k => k.granted g.team sl bl) core id x.slices (x.pc + 4)
      obtain ⟨holders, -, -⟩ := Core.granted_spec ((s.flushed core).core core) g.team sl bl
      refine gives_whenever (exec_mclaimGrant hg hres hcore hx halone hpark hfree) (by simp [hfrozen])
        ⟨⟨g', hg', hwent⟩, fun n hn h => ?_, fun n hn h => ?_⟩
      · exact (congrArg (fun k => k.slotHolder n) hcores).trans ((holders n hn).1.trans (if_pos h))
      · exact (congrArg (fun k => k.blockHolder n) hcores).trans ((holders n hn).2.trans (if_pos h))
    · obtain ⟨g', hg', hwent⟩ := State.woken (s := s.giveBack core g.team sl bl) (id := id) (g := g)
        ((s.gang?_flushed core id).trans hg) x
      have hcores := State.core_woken (s.flushed core) (fun k => k.released s.now g.team sl bl) core id x.slices (x.pc + 4)
      refine gives_whenever (exec_mrelRelease hg hres hcore hx halone hpark hfree) (by simp [hfrozen])
        ⟨⟨g', hg', hwent⟩, fun n hn h heq => ?_, fun n hn h heq => ?_⟩
      · exact get_ownersWithout_ne _ _ _ hn h ((congrArg (fun k => k.slotHolder n) hcores).symm.trans heq)
      · exact get_ownersWithout_ne _ _ _ hn h ((congrArg (fun k => k.blockHolder n) hcores).symm.trans heq)

end Sys2Proof.Machine
end

section
/-! PROOFS. Columns of rows, of either width, and rows written column by column (R158). -/

namespace Sys2Proof.Machine

/-- Columns of a row, of either width, and the values that they hold. -/
def colCount (wide : Bool) : Nat := if wide then 64 else 128
def colMod (wide : Bool) : Nat := 2 ^ (if wide then 64 else 32)

theorem Core.col_putCol (k : Core) {row c r j : Nat} (v : Word) (hc : c < 128) (hj : j < 128) :
    (k.putCol row c v).col r j = if r = row ∧ j = c then v else k.col r j := by
  refine (Tbl.get_set 0 k.acc (128 * row + c) (128 * r + j) v).trans (if_congr ?_ rfl rfl)
  omega

theorem Core.putColW_shape (k : Core) (wide : Bool) (row c v : Nat) :
    k.putColW wide row c v = { k with acc := (k.putColW wide row c v).acc } := by cases wide <;> rfl

/-- A column written changes no other than it stands for. -/
theorem Core.col_putColW (k : Core) {wide : Bool} {row c r j : Nat} (v : Nat) (hc : c < colCount wide) (hj : j < 128)
    (h : ¬ (r = row ∧ (if wide then j / 2 else j) = c)) : (k.putColW wide row c v).col r j = k.col r j := by
  cases wide
  · exact (k.col_putCol _ hc hj).trans (if_neg h)
  · have hc : c < 64 := hc
    have h : ¬ (r = row ∧ j / 2 = c) := h
    rw [Core.putColW, if_pos rfl, Core.putCol64, Core.col_putCol _ _ (by omega) hj, if_neg (by omega),
      Core.col_putCol _ _ (by omega) hj, if_neg (by omega)]

theorem Core.colW_putColW (k : Core) {wide : Bool} {row c r j : Nat} (v : Nat) (hc : c < colCount wide) (hj : j < colCount wide) :
    (k.putColW wide row c v).colW wide r j = if r = row ∧ j = c then v % colMod wide else k.colW wide r j := by
  cases wide
  · rw [Core.putColW, Core.colW, if_neg Bool.false_ne_true, if_neg Bool.false_ne_true, Core.col_putCol _ _ hc hj]
    split
    · exact BitVec.toNat_ofNat v 32
    · rfl
  · have hc : c < 64 := hc
    have hj : j < 64 := hj
    rw [Core.putColW, Core.colW, if_pos rfl, if_pos rfl, Core.putCol64, Core.col64,
      Core.col_putCol _ _ (by omega) (by omega), Core.col_putCol _ _ (by omega) (by omega),
      Core.col_putCol _ _ (by omega) (by omega), Core.col_putCol _ _ (by omega) (by omega)]
    by_cases h : r = row ∧ j = c
    · obtain ⟨rfl, rfl⟩ := h
      have hodd : ¬ (2 * j = 2 * j + 1) := by omega
      simp only [true_and, and_self, if_true, hodd, if_false, BitVec.toNat_ofNat, colMod]
      omega
    · have heven : ¬ (r = row ∧ 2 * j = 2 * c) := by omega
      have hodd : ¬ (r = row ∧ 2 * j + 1 = 2 * c + 1) := by omega
      rw [if_neg (by omega), if_neg heven, if_neg hodd, if_neg (by omega), if_neg h]
      rfl

/-- Of the core the columns alone differ, and of those the ones of rows that satisfy f. -/
structure Core.Within (k k' : Core) (f : Nat → Prop) : Prop where
  shape : k' = { k with acc := k'.acc }
  col : ∀ r, ¬ f r → ∀ j < 128, k'.col r j = k.col r j

theorem Core.Within.slots {k k' : Core} {f : Nat → Prop} (h : k.Within k' f) : k'.slots = k.slots := by rw [h.shape]
theorem Core.Within.engine {k k' : Core} {f : Nat → Prop} (h : k.Within k' f) : k'.engine = k.engine := by rw [h.shape]
theorem Core.Within.poison {k k' : Core} {f : Nat → Prop} (h : k.Within k' f) (r : Nat) : k'.poisoned r = k.poisoned r := by
  rw [h.shape]
  rfl

theorem Core.Within.colW {k k' : Core} {f : Nat → Prop} (h : k.Within k' f) {wide : Bool} {r j : Nat} (hr : ¬ f r)
    (hj : j < colCount wide) : k'.colW wide r j = k.colW wide r j := by
  cases wide
  · exact congrArg BitVec.toNat (h.col r hr j hj)
  · have hj : j < 64 := hj
    show (k'.col r (2 * j)).toNat + 2 ^ 32 * (k'.col r (2 * j + 1)).toNat = _
    rw [h.col r hr _ (by omega), h.col r hr _ (by omega)]
    rfl

theorem Core.Within.rowsBut {k k' : Core} {f : Nat → Prop} (h : k.Within k' f) : k'.rowsBut k f :=
  fun r hr => ⟨h.poison r, h.col r hr⟩

theorem Core.Within.slotsBut {k k' : Core} {f : Nat → Prop} (h : k.Within k' f) : k'.slotsBut k (fun _ => False) :=
  fun y _ => by rw [h.slots]

theorem Core.Within.refl (k : Core) (f : Nat → Prop) : k.Within k f := ⟨rfl, fun _ _ _ _ => rfl⟩

theorem Core.Within.trans {k k' k'' : Core} {f : Nat → Prop} (h : k.Within k' f) (h' : k'.Within k'' f) : k.Within k'' f :=
  ⟨h'.shape.trans (by rw [h.shape]), fun r hr j hj => (h'.col r hr j hj).trans (h.col r hr j hj)⟩

theorem Core.Within.mono {k k' : Core} {f f' : Nat → Prop} (h : k.Within k' f) (hff : ∀ r, f r → f' r) : k.Within k' f' :=
  ⟨h.shape, fun r hr => h.col r (fun hf => hr (hff r hf))⟩

/-- A row written at columns c0 to c0 + n - 1, each from the core at the start of the row. -/
def Core.putCols (k : Core) (wide : Bool) (row c0 n : Nat) (v : Nat → Nat) : Core :=
  (List.range n).foldl (fun acc i => acc.putColW wide row (c0 + i) (v i)) k

theorem Core.putCols_succ (k : Core) (wide : Bool) (row c0 n : Nat) (v : Nat → Nat) :
    k.putCols wide row c0 (n + 1) v = (k.putCols wide row c0 n v).putColW wide row (c0 + n) (v n) := by
  simp [Core.putCols, List.range_succ]

theorem Core.putCols_within (k : Core) {wide : Bool} (row c0 : Nat) {n : Nat} (v : Nat → Nat) (h : c0 + n ≤ colCount wide) :
    k.Within (k.putCols wide row c0 n v) (fun r => r = row) := by
  induction n with
  | zero => exact .refl k _
  | succ n ih =>
    rw [Core.putCols_succ]
    exact (ih (by omega)).trans ⟨Core.putColW_shape _ _ _ _ _,
      fun r hr j hj => Core.col_putColW _ _ (by omega) hj (fun h => hr h.1)⟩

/-- Its columns hold what was written, and the others of the row what they held. -/
theorem Core.colW_putCols (k : Core) {wide : Bool} (row c0 : Nat) {n : Nat} (v : Nat → Nat) (h : c0 + n ≤ colCount wide) {j : Nat}
    (hj : j < colCount wide) : (k.putCols wide row c0 n v).colW wide row j =
      if c0 ≤ j ∧ j < c0 + n then v (j - c0) % colMod wide else k.colW wide row j := by
  induction n with
  | zero => rw [if_neg (by omega)]; rfl
  | succ n ih =>
    rw [Core.putCols_succ, Core.colW_putColW _ _ (by omega) hj, ih (by omega)]
    by_cases hjn : j = c0 + n
    · rw [if_pos ⟨rfl, hjn⟩, if_pos (by omega), hjn, Nat.add_sub_cancel_left]
    · rw [if_neg (fun h => hjn h.2)]
      exact if_congr (by omega) rfl rfl

end Sys2Proof.Machine
end

section
/-! PROOFS. The completion of an MMA (R164, R166, R175). -/

namespace Sys2Proof.Machine

/-! ### The rows of a product -/

/-- The element that a product leaves in column n of row i, with one group. -/
def MDesc.out (d : MDesc) (k : Core) (i n : Nat) : Nat :=
  d.element k.slots i n 0 (if d.accum then k.colW (d.afmt == 0) (d.row0 + i) (d.col0 + n) else 0)

theorem MDesc.row_eq (d : MDesc) (k : Core) (i : Nat) : d.row k i 0 =
    if k.poisoned (d.row0 + i) then k else k.putCols (d.afmt == 0) (d.row0 + i) d.col0 d.n (d.out k i) := rfl

theorem MDesc.row_within {d : MDesc} (hn : d.col0 + d.n ≤ colCount (d.afmt == 0)) (k : Core) (i : Nat) :
    k.Within (d.row k i 0) (fun r => r = d.row0 + i ∧ k.poisoned r = false) := by
  rw [d.row_eq]
  split
  · exact .refl k _
  · next h =>
    refine (k.putCols_within (d.row0 + i) d.col0 (d.out k i) hn).mono fun r hr => ⟨hr, ?_⟩
    rw [hr]
    exact Bool.eq_false_iff.2 h

/-- The rows of an MMA, one after another: those that are not poisoned, and each as its product gives. -/
theorem MDesc.rows_spec {d : MDesc} (hn : d.col0 + d.n ≤ colCount (d.afmt == 0)) (k : Core) (m : Nat) :
    let k' := (List.range m).foldl (fun acc i => d.row acc i 0) k
    k.Within k' (fun r => d.row0 ≤ r ∧ r < d.row0 + m ∧ k.poisoned r = false) ∧
    ∀ i < m, k.poisoned (d.row0 + i) = false → ∀ n < d.n,
      k'.colW (d.afmt == 0) (d.row0 + i) (d.col0 + n) = d.out k i n % colMod (d.afmt == 0) := by
  induction m with
  | zero => exact ⟨.refl k _, fun i hi => absurd hi (Nat.not_lt_zero i)⟩
  | succ m ih =>
    intro k'
    obtain ⟨within, out⟩ := ih
    have hk' : k' = d.row ((List.range m).foldl (fun acc i => d.row acc i 0) k) m 0 := by simp [k', List.range_succ]
    rw [hk']
    generalize (List.range m).foldl (fun acc i => d.row acc i 0) k = k1 at within out
    have last := d.row_within hn k1 m
    have hnot : ¬ (d.row0 ≤ d.row0 + m ∧ d.row0 + m < d.row0 + m ∧ k.poisoned (d.row0 + m) = false) := by omega
    refine ⟨(within.mono fun r h => ⟨h.1, by omega, h.2.2⟩).trans (last.mono fun r ⟨hr, hp⟩ =>
      ⟨by omega, by omega, (within.poison r).symm.trans hp⟩), fun i hi hp n hlt => ?_⟩
    rcases Nat.lt_succ_iff_lt_or_eq.1 hi with hi | rfl
    · rw [last.colW (by omega) (by omega)]
      exact out i hi hp n hlt
    · have hp1 : k1.poisoned (d.row0 + i) = false := (within.poison _).trans hp
      have hsame : d.out k1 i n = d.out k i n := by
        rw [MDesc.out, MDesc.out, within.slots, within.colW hnot (by omega)]
      rw [d.row_eq, if_neg (Bool.eq_false_iff.1 hp1), Core.colW_putCols _ _ _ _ hn (by omega), if_pos (by omega),
        Nat.add_sub_cancel_left, hsame]

/-- The rows of a single group of M rows. -/
theorem groupRows_one (m bgstr : Nat) : groupRows m bgstr [m] 0 0 = (List.range m).map (fun i => (i, 0)) := by
  have hall : ∀ l : List Nat, (∀ i ∈ l, i < m) →
      (l.map (fun j => 0 + j)).filterMap (fun i => if i < m then some (i, 0 * 16 * bgstr) else none) = l.map (fun i => (i, 0)) := by
    intro l hl
    rw [List.filterMap_map, ← List.filterMap_eq_map]
    refine List.filterMap_congr fun i hi => ?_
    simp [hl i hi]
  rw [groupRows, hall _ (fun i hi => List.mem_range.1 hi), groupRows, List.append_nil]

theorem Core.mma_one (k : Core) (ws : List Word) :
    k.mma ws [(MDesc.of ws).m] 0 (EngineKind.mma false ws [(MDesc.of ws).m]).rowCount =
      (List.range (MDesc.of ws).m).foldl (fun acc i => (MDesc.of ws).row acc i 0) k := by
  rw [Core.mma, EngineKind.rowCount, List.take_length, List.drop_zero, groupRows_one, List.foldl_map]

theorem Core.runOp_mma (k : Core) {o : EngineOp} {ws : List Word} (hkind : o.kind = .mma false ws [(MDesc.of ws).m])
    (hnext : o.next = 0) (hran : o.ran = false) : ∃ o1, k.runOp o o.kind.rowCount =
      ((List.range (MDesc.of ws).m).foldl (fun acc i => (MDesc.of ws).row acc i 0) k, o1) ∧ o1.kind = o.kind ∧
        o1.gang = o.gang ∧ o1.k = o.k := by
  rw [Core.runOp, hran, if_neg Bool.false_ne_true]
  simp only [hkind, hnext, Core.mma_one]
  exact ⟨_, rfl, rfl, rfl, rfl⟩

/-! ### The end of an operation -/

theorem Gang.counter_putCounter (g : Gang) (k v j : Nat) : (g.putCounter k v).counter j = if j = k then v else g.counter j :=
  Tbl.get_set 0 g.k k j v

theorem Gang.postAll_shape (g : Gang) (ps : List Posted) : ∃ posted, g.postAll ps = { g with posted := posted } := by
  rw [Gang.postAll]
  split
  · exact ⟨g.posted, rfl⟩
  · exact ⟨_, rfl⟩

/-- What an operation that drains nothing leaves as it completes: its core, and one in its counter less (R166). -/
theorem State.completeOp_mma {s : State} {core : Nat} {o : EngineOp} {g : Gang} {grouped : Bool} {ws : List Word} {gs : List Nat}
    (hkind : o.kind = .mma grouped ws gs) (hg : s.gang? o.gang = some g) (htok : g.tokens = []) :
    (s.completeOp core o).cores = s.cores ∧ ∃ g', (s.completeOp core o).gang? o.gang = some g' ∧
      ∀ j, g'.counter j = if j = o.k then g.counter j - 1 else g.counter j := by
  obtain ⟨posted, hpost⟩ := g.postAll_shape (o.faults ++ [])
  have hdrain : s.drainOut core o = (s, []) := by rw [State.drainOut, hkind]
  have hdone : s.completeOp core o = (s.modGang o.gang (fun g =>
      { (g.postAll (o.faults ++ [])).putCounter o.k (g.counter o.k - 1) with
        mxf := if g.ended then g.mxf else g.mxf ||| o.flags })).sweepTokens o.gang := by rw [State.completeOp, hdrain]
  rw [hdone, State.modGang_some hg, State.sweepTokens, State.modGang_some (State.gang?_putGang_same _ _ _)]
  refine ⟨rfl, _, State.gang?_putGang_same _ _ _, fun j => ?_⟩
  rw [hpost]
  show Gang.counter (sweepGo _ g.tokens _) j = _
  rw [htok]
  refine (Gang.counter_putCounter g o.k (g.counter o.k - 1) j).trans ?_
  split
  · next h => rw [h]
  · rfl

theorem exec_engineOpComplete {s : State} {core : Nat} {o : EngineOp} {rest : List EngineOp} (hfrozen : s.frozen core = false)
    (hengine : (s.core core).engine = o :: rest) : exec (.engineOpComplete core) s =
    .next (s.draining core ((s.core core).runOp o o.kind.rowCount).2 (fun s' =>
      (s'.putCore core { ((s.core core).runOp o o.kind.rowCount).1 with
        engine := ((s.core core).runOp o o.kind.rowCount).1.engine.filter (fun x => x.id != o.id) }).completeOp core
          ((s.core core).runOp o o.kind.rowCount).2)) := by
  have hfirst : s.completing core = some o := by
    rw [State.completing, hfrozen, if_neg Bool.false_ne_true, hengine]
    rfl
  show execEngineOpComplete core s = _
  simp only [execEngineOpComplete, hfirst]

/-- Settles O51: the completion of an MMA, and its elements. -/
theorem engineCompletesProducts : Obligations.EngineCompletesProducts := by
  unfold Obligations.EngineCompletesProducts
  refine ⟨fun s core o rest ws g => ?_, MDesc.elements⟩
  intro d k wide hfrozen hengine hids hkind hnext hran hok hg _ htok
  have hn : d.col0 + d.n ≤ colCount (d.afmt == 0) := by
    simp only [MDesc.ok, Bool.and_eq_true, decide_eq_true_eq] at hok
    obtain ⟨⟨⟨⟨⟨⟨⟨-, -⟩, hcols⟩, -⟩, -⟩, -⟩, -⟩, -⟩ := hok
    simpa only [colCount, beq_iff_eq] using hcols
  obtain ⟨o1, hrun, hkind1, hgang1, hk1⟩ := k.runOp_mma hkind hnext hran
  obtain ⟨within, out⟩ := d.rows_spec hn k d.m
  generalize hk' : (List.range d.m).foldl (fun acc i => d.row acc i 0) k = k' at within out
  rw [show (List.range (MDesc.of ws).m).foldl _ k = k' from hk'] at hrun
  have hvault : o1.drainsVault = none := by rw [EngineOp.drainsVault, hkind1, hkind]
  let e : Core := { k' with engine := k'.engine.filter (fun x => x.id != o.id) }
  obtain ⟨cores, g', hg', counter⟩ := State.completeOp_mma (s := s.putCore core e) (core := core) (hkind1.trans hkind)
    (show (s.putCore core e).gang? o1.gang = some g by rw [hgang1]; exact hg) htok
  refine ⟨(s.putCore core e).completeOp core o1, ?_, ?_⟩
  · rw [exec_engineOpComplete hfrozen hengine, hrun, State.draining, hvault]
  · have hcore : ((s.putCore core e).completeOp core o1).core core = e := by
      rw [State.core, cores]
      exact State.core_putCore_same s core e
    show (State.core _ core).engine = rest ∧ _
    rw [hcore]
    refine ⟨?_, within.slotsBut, within.rowsBut, out, g', by rw [← hgang1]; exact hg', by rw [← hk1]; exact counter⟩
    show k'.engine.filter (fun x => x.id != o.id) = rest
    rw [within.engine, hengine, List.filter_cons_of_neg (by simp), List.filter_eq_self]
    exact fun x hx => bne_iff_ne.2 (hids x hx)

end Sys2Proof.Machine
end

section
/-! PROOFS. MDRAIN to the scratchpad of a gang that has a failure posted: the drain clears the chunks that it writes from the
failure (R234). -/

namespace Sys2Proof.Machine

/-- A gang of zeros, with a failure in chunk 0 of the scratchpad posted under tag 5. -/
def drainGang : Gang := { aGang with posted := [chunkFailure] }

/-- Its team holds slot 0 of its core. -/
def drainMachine : State := { machineOf drainGang with cores := [(0, { Core.reset with slotOwner := [(0, some 2)] })] }

def drainCtx : Ctx := ⟨drainMachine, 3, drainGang, { slices := 0xFF, pc := 0x10000, park := none, since := 0 }⟩

theorem drainMachine_issuing : drainMachine.issuing = some drainCtx := by decide +kernel

/-- Refutes O50: the statement has nothing of the gang changed by a drain of slot 0 to scratchpad offset 0 but its counter; it
takes the chunk from the failure that the gang has posted. -/
theorem not_matrixOperationsActOnHeldUnits : ¬ Obligations.MatrixOperationsActOnHeldUnits := by
  unfold Obligations.MatrixOperationsActOnHeldUnits
  intro h
  obtain ⟨-, -, -, -, hdrain, -⟩ := h.1 drainMachine drainCtx 0xC0 0xC0 0xC0 0 0x10 drainMachine_issuing (by decide +kernel)
  have hdone := (hdrain (by decide +kernel) (by decide +kernel) (by decide +kernel) (by decide +kernel)).2 (by decide +kernel)
    (by decide +kernel)
  refine not_gives_of_gangAfter (f := keepsFailure) (fun t ht => ?_) ?_ hdone
  · obtain ⟨-, g', hg', hrest, -⟩ := ht
    have hposted : g'.posted = drainGang.posted := (congrArg Gang.posted hrest :)
    exact ⟨g', hg', by rw [keepsFailure, hposted]; exact beq_self_eq_true _⟩
  · decide +kernel

end Sys2Proof.Machine
end

section
/-! PROOFS. The life of a circuit and the rotation of slots (R364-R369, Table 14.7). -/

namespace Sys2Proof.Machine

/-! ### Training touches the optical tables alone -/

/-- The machine but for what training and the links' states write: pairs, links and channels. -/
def State.unlit (s : State) : State := { s with pairs := [], links := [], chans := [] }

section
variable {s t u : State}

theorem State.unlit_foldl {α : Type} (l : List α) {f : State → α → State} (h : ∀ (v : State) a, (f v a).unlit = v.unlit)
    (s : State) : (l.foldl f s).unlit = s.unlit :=
  List.foldlRecOn l f (motive := fun v => v.unlit = s.unlit) rfl (fun v hv a _ => (h v a).trans hv)

theorem State.unlit_wakeChan (s : State) (k c : Nat) : (s.wakeChan k c).unlit = s.unlit := by
  unfold State.wakeChan; dsimp only; split <;> rfl

theorem State.unlit_parkChan (s : State) (k c : Nat) : (s.parkChan k c).unlit = s.unlit := by
  unfold State.parkChan; dsimp only; split <;> rfl

theorem State.unlit_parkChans (s : State) (k : Nat) (l : List Nat) : (l.foldl (fun acc c => acc.parkChan k c) s).unlit = s.unlit :=
  State.unlit_foldl l (fun v c => v.unlit_parkChan k c) s

theorem State.unlit_settleLink (s : State) (k : Nat) : (s.settleLink k).unlit = s.unlit := by
  have hwoken : (if (s.link k).state == .retraining then s
      else (linkChans k).foldl (fun acc c => acc.wakeChan k c) s).unlit = s.unlit := by
    split
    · rfl
    · exact State.unlit_foldl _ (fun v c => v.unlit_wakeChan k c) s
  unfold State.settleLink
  generalize (if (s.link k).state == .retraining then s
      else (linkChans k).foldl (fun acc c => acc.wakeChan k c) s) = s1 at hwoken
  refine Eq.trans ?_ hwoken
  dsimp only
  split
  · rfl
  · split_ifs <;> rfl
  · split_ifs
    · rfl
    · exact State.unlit_parkChans _ _ _
    · exact State.unlit_parkChans _ _ _
    · rfl

theorem State.unlit_trainPair (s : State) (f : Nat) : (s.trainPair f).unlit = s.unlit := by
  unfold State.trainPair
  dsimp only
  split
  · rw [State.unlit_settleLink, State.unlit_settleLink]
    refine Eq.trans (State.unlit_foldl _ (fun v c => ?_) _) rfl
    split <;> rfl
  · rfl

theorem State.unlit_trainPort (s : State) (p : Nat) : (s.trainPort p).unlit = s.unlit := by
  refine State.unlit_foldl _ (fun v f => ?_) s
  split
  · exact v.unlit_trainPair f
  · rfl

theorem State.unlit_recordPeer (s : State) (c : Circuit) (peer : Nat) (caps : BitVec 7) (version : Nat) :
    (s.recordPeer c peer caps version).unlit = { s with caps := Tbl.set 0 s.caps peer caps }.unlit := by
  unfold State.recordPeer
  exact State.unlit_foldl (f := fun acc k => acc.putLink k { acc.link k with version := version }) _ (fun _ _ => rfl) _

/-- What is not optical reads the same in two states that agree but for the optical tables. -/
theorem State.eq_of_unlit {α : Type} (h : t.unlit = s.unlit) (f : State → α) (hf : ∀ v : State, f v = f v.unlit) : f t = f s := by
  rw [hf t, h, ← hf s]

theorem State.circ_of_unlit (h : t.unlit = s.unlit) (c : Circuit) : t.circ c = s.circ c :=
  State.eq_of_unlit h (fun v => v.circ c) (fun _ => by cases c <;> rfl)

theorem State.out_of_unlit (h : t.unlit = s.unlit) : t.out = s.out := State.eq_of_unlit h State.out (fun _ => rfl)

theorem State.caps_of_unlit (h : t.unlit = s.unlit) : t.caps = s.caps := State.eq_of_unlit h State.caps (fun _ => rfl)

end

/-! ### The registers of a circuit -/

@[simp] theorem State.circ_putCirc (s : State) (c : Circuit) (x : Circ) : (s.putCirc c x).circ c = x := by
  cases c with
  | slot j p => exact Tbl.get_set_same _ _ _ _
  | port p => exact congrArg Port.circ (Tbl.get_set_same Port.reset s.ports p _)

@[simp] theorem State.out_putCirc (s : State) (c : Circuit) (x : Circ) : (s.putCirc c x).out = s.out := by cases c <;> rfl

@[simp] theorem State.caps_putCirc (s : State) (c : Circuit) (x : Circ) : (s.putCirc c x).caps = s.caps := by cases c <;> rfl

@[simp] theorem State.circ_emit (s : State) (o : Out) (c : Circuit) : (s.emit o).circ c = s.circ c := by cases c <;> rfl

@[simp] theorem State.caps_emit (s : State) (o : Out) : (s.emit o).caps = s.caps := rfl

@[simp] theorem State.out_emit (s : State) (o : Out) : (s.emit o).out = s.out ++ [o] := rfl

theorem State.circ_leaveSlot (s : State) (c : Circuit) : (s.leaveSlot c).circ c = s.circ c := by
  cases c with
  | slot j p => unfold State.leaveSlot; dsimp only; split <;> rfl
  | port p => rfl

theorem State.out_leaveSlot (s : State) (c : Circuit) : (s.leaveSlot c).out = s.out := by
  unfold State.leaveSlot
  cases c with
  | slot j p => dsimp only; split <;> rfl
  | port p => rfl

theorem State.circ_caps (s : State) (caps : Tbl (BitVec 7)) (c : Circuit) : State.circ { s with caps := caps } c = s.circ c := by
  cases c <;> rfl

/-! ### SETUP and TDOWN as registers -/

section
variable {s : State} {c : Circuit} {i : Instr}

/-- Circuit c stands at y, and o has been sent. -/
def State.circBecomes (s : State) (c : Circuit) (y : Circ) (o : List Out) (t : State) : Prop := t.circ c = y ∧ t.out = s.out ++ o

theorem State.circBecomes_putCirc (s : State) (c : Circuit) (y : Circ) : s.circBecomes c y [] (s.putCirc c y) := by
  simp [State.circBecomes]

theorem State.circBecomes_emit {t : State} {y : Circ} (h : s.circBecomes c y [] t) (o : Out) : s.circBecomes c y [o] (t.emit o) := by
  obtain ⟨hc, ho⟩ := h
  simp [State.circBecomes, hc, ho]

theorem State.circBecomes_unlit {t u : State} {y : Circ} {o : List Out} (h : s.circBecomes c y o t) (hu : u.unlit = t.unlit) :
    s.circBecomes c y o u :=
  ⟨(State.circ_of_unlit hu c).trans h.1, (State.out_of_unlit hu).trans h.2⟩

theorem State.circBecomes_leaveSlot {t : State} {y : Circ} {o : List Out} (h : s.circBecomes c y o t) :
    s.circBecomes c y o (t.leaveSlot c) :=
  ⟨(t.circ_leaveSlot c).trans h.1, (t.out_leaveSlot c).trans h.2⟩

theorem State.circBecomes_recordPeer {t : State} {y : Circ} {o : List Out} (h : s.circBecomes c y o t) (peer : Nat) (caps : BitVec 7)
    (version : Nat) : s.circBecomes c y o (t.recordPeer c peer caps version) :=
  State.circBecomes_unlit (t := { t with caps := Tbl.set 0 t.caps peer caps }) ⟨(t.circ_caps _ c).trans h.1, h.2⟩
    (t.unlit_recordPeer c peer caps version)

theorem State.circBecomes_sendSetup (s : State) (c : Circuit) (x : Circ) (peer : Nat) :
    s.circBecomes c { x with backoff := false, num := x.num + 1 } [.circSetup ⟨c, x.num + 1⟩ peer] (s.sendSetup c x peer) :=
  State.circBecomes_emit (s.circBecomes_putCirc c _) _

theorem gives_unready {t : State} (he : exec i s = whenReady s t) (h : s.house.phase ≠ 5) : Gives i s (fun u => u = s) :=
  ⟨s, by rw [he]; simp [whenReady, whenever, State.isReady, h], rfl⟩

theorem gives_kept {t : State} (he : exec i s = whenReady s t) (h : t = s) : Gives i s (fun u => u = s) :=
  ⟨s, by rw [he, h]; simp [whenReady, whenever], rfl⟩

theorem Circ.free_iff (x : Circ) : (x.state == .idle || x.state == .failed) = true ↔ x.state = .idle ∨ x.state = .failed := by
  simp

theorem State.circSetup_sent (hfree : (s.circ c).state = .idle ∨ (s.circ c).state = .failed) {p : Nat}
    (hp : s.circTarget c = some p) :
    s.circBecomes c { s.circ c with state := .pending, naks := 0, cause := 0, backoff := false, num := (s.circ c).num + 1 }
      [.circSetup ⟨c, (s.circ c).num + 1⟩ p] (s.circSetup c) := by
  simp only [State.circSetup, hp, if_pos ((s.circ c).free_iff.mpr hfree)]
  exact State.circBecomes_unlit (s.circBecomes_sendSetup c { s.circ c with state := .pending, naks := 0, cause := 0 } p)
    (State.unlit_trainPort _ _)

theorem State.circSetup_unnamed (hp : s.circTarget c = none) : s.circSetup c = s := by simp only [State.circSetup, hp]

theorem State.circSetup_busy (hfree : ¬ ((s.circ c).state = .idle ∨ (s.circ c).state = .failed)) : s.circSetup c = s := by
  unfold State.circSetup
  dsimp only
  split
  · rfl
  · rw [if_neg (mt (s.circ c).free_iff.mp hfree)]

theorem State.circTdown_pending (hp : (s.circ c).state = .pending) (hb : (s.circ c).backoff = false) :
    s.circBecomes c { s.circ c with state := .idle, stale := (s.circ c).stale ++ [((s.circ c).num, (s.circ c).peer)] } []
      (s.circTdown c) := by
  have hdone : s.circTdown c = s.putCirc c
      { s.circ c with state := .idle, stale := (s.circ c).stale ++ [((s.circ c).num, (s.circ c).peer)] } := by
    simp [State.circTdown, hp, hb, Circ.giveUp]
  rw [hdone]
  exact s.circBecomes_putCirc c _

theorem State.circTdown_backoff (hp : (s.circ c).state = .pending) (hb : (s.circ c).backoff = true) :
    s.circBecomes c { s.circ c with state := .idle, backoff := false } [] (s.circTdown c) := by
  have hdone : s.circTdown c = s.putCirc c { s.circ c with state := .idle, backoff := false } := by
    simp [State.circTdown, hp, hb]
  rw [hdone]
  exact s.circBecomes_putCirc c _

theorem State.circTdown_active (hp : (s.circ c).state = .active) :
    s.circBecomes c { s.circ c with state := .idle } [.circTeardown c (s.circ c).peer] (s.circTdown c) := by
  simp only [State.circTdown, hp]
  exact State.circBecomes_emit (State.circBecomes_leaveSlot (s.circBecomes_putCirc c _)) _

theorem State.circTdown_free (hfree : (s.circ c).state = .idle ∨ (s.circ c).state = .failed) : s.circTdown c = s := by
  rcases hfree with h | h <;> simp only [State.circTdown, h]

end

/-! ### Answers -/

section
variable {s : State} {r : SetupRef} {caps : BitVec 7}

theorem State.circReceive_accepted {peer lo hi : Nat} (hp : s.circTarget r.circ = some peer) (hv : lo ≤ min hi 2 ∧ 1 ≤ min hi 2) :
    let t := s.circReceive r peer caps lo hi
    (t.circ r.circ).state = .active ∧ (t.circ r.circ).peer = (s.circ r.circ).peer ∧ t.out = s.out ++ [.circAck r peer] ∧
      Tbl.get 0 t.caps peer = caps := by
  have hc : abnelCommon lo hi = some (min hi 2) := if_pos hv
  simp only [State.circReceive, hp, ne_eq, not_true, if_false, hc, State.circ_emit, State.out_emit, State.caps_emit]
  generalize hy : ({ s.circ r.circ with state := .active, naks := _, cause := _, backoff := false } : Circ) = y
  have hrec := (s.circBecomes_putCirc r.circ y)
  obtain ⟨hcirc, hout⟩ := State.circBecomes_unlit (State.circBecomes_recordPeer hrec peer caps (min hi 2))
    (State.unlit_trainPort _ (circuitPort r.circ))
  have hcaps := (State.caps_of_unlit (State.unlit_trainPort ((s.putCirc r.circ y).recordPeer r.circ peer caps (min hi 2))
    (circuitPort r.circ))).trans (State.caps_of_unlit (State.unlit_recordPeer _ r.circ peer caps (min hi 2)))
  rw [hcirc, hout, hcaps, List.append_nil, ← hy]
  exact ⟨rfl, rfl, rfl, Tbl.get_set_same _ _ _ _⟩

theorem Circ.awaits_iff (x : Circ) (n : Nat) : x.awaits n = true ↔ x.state = .pending ∧ n = x.num := by simp [Circ.awaits]

theorem Circ.not_awaits {x : Circ} {n : Nat} (h : x.state ≠ .pending ∨ n ≠ x.num) : x.awaits n = false := by
  rw [Bool.eq_false_iff, ne_eq, Circ.awaits_iff]
  tauto

theorem State.circAck_awaited (h : (s.circ r.circ).awaits r.num = true) (version : Nat) :
    s.circBecomes r.circ { s.circ r.circ with state := .active, backoff := false } [] (s.circAck r caps version) := by
  simp only [State.circAck, if_pos h]
  exact State.circBecomes_recordPeer (s.circBecomes_putCirc _ _) _ _ _

theorem State.circAck_unknown (h : (s.circ r.circ).awaits r.num = false) (hs : ∀ e ∈ (s.circ r.circ).stale, e.1 ≠ r.num)
    (version : Nat) : s.circAck r caps version = s := by
  have hnone : (s.circ r.circ).stale.find? (fun e => e.1 == r.num) = none := by simpa using hs
  simp only [State.circAck, h, Bool.false_eq_true, if_false, hnone]

theorem State.circAck_stale (h : (s.circ r.circ).awaits r.num = false) {e : Nat × Nat}
    (he : (s.circ r.circ).stale.find? (fun e => e.1 == r.num) = some e) (version : Nat) :
    s.circBecomes r.circ ((s.circ r.circ).answered r.num) [.circTeardown r.circ e.2] (s.circAck r caps version) := by
  simp only [State.circAck, h, Bool.false_eq_true, if_false, he]
  exact State.circBecomes_emit (s.circBecomes_putCirc _ _) _

theorem State.circNak_unawaited (h : (s.circ r.circ).awaits r.num = false) (why : NakCause) :
    s.circBecomes r.circ ((s.circ r.circ).answered r.num) [] (s.circNak r why) := by
  simp only [State.circNak, h, Bool.not_false, if_true]
  exact s.circBecomes_putCirc _ _

theorem State.circNak_blocked_last (h : (s.circ r.circ).awaits r.num = true) (hl : s.rot.hostm = true ∨ (s.circ r.circ).naks = 15) :
    s.circNak r .blocked =
      s.putCirc r.circ { s.circ r.circ with state := .failed, naks := (s.circ r.circ).naks + 1, cause := 1 } := by
  simp [State.circNak, h, hl]

theorem State.circNak_blocked_again (h : (s.circ r.circ).awaits r.num = true) (hh : s.rot.hostm = false)
    (hn : (s.circ r.circ).naks ≠ 15) :
    s.circNak r .blocked = s.putCirc r.circ { s.circ r.circ with naks := (s.circ r.circ).naks + 1, backoff := true } := by
  simp [State.circNak, h, hh, hn]

theorem State.circNak_refused (h : (s.circ r.circ).awaits r.num = true) :
    s.circNak r .mismatch = s.putCirc r.circ { s.circ r.circ with state := .failed, cause := 2 } ∧
      s.circNak r .version = s.putCirc r.circ { s.circ r.circ with state := .failed, cause := 3 } := by
  simp [State.circNak, h]

end

/-! ### The rotation -/

theorem State.setPorts_rot (s : State) (f : Nat → Option Nat) : (s.setPorts f).rot = s.rot :=
  List.foldlRecOn (motive := fun v : State => v.rot = s.rot) _ _ rfl (fun _ hv _ _ => hv)

theorem State.foldl_setPorts (f : Nat → Option Nat) (s : State) : ∀ l : List Nat, l.Nodup → ∀ p ∈ l,
    ((l.foldl (fun acc p => acc.putPort p { acc.port p with now := f p }) s).port p).now = f p := by
  intro l
  induction l using List.reverseRecOn with
  | nil => simp
  | append_singleton l q ih =>
    intro hl p hp
    rw [List.foldl_append, List.foldl_cons, List.foldl_nil]
    by_cases h : p = q
    · subst h
      exact congrArg Port.now (Tbl.get_set_same _ _ _ _)
    · refine (congrArg Port.now (Tbl.get_set_other _ _ _ h)).trans ?_
      exact ih (List.nodup_append.mp hl).1 p (by simpa [h] using hp)

theorem State.setPorts_now (s : State) (f : Nat → Option Nat) {p : Nat} (hp : p < 8) : ((s.setPorts f).port p).now = f p :=
  State.foldl_setPorts f s _ List.nodup_range p (List.mem_range.mpr hp)

theorem Rotation.write_held (r : Rotation) (v : Word) : (r.write v).held =
    if v.toNat / 2 % 64 = r.nslot1 ∧ max 100 (v.toNat / 256 % 65536) = r.slotlen then none
    else some (v.toNat / 2 % 64, max 100 (v.toNat / 256 % 65536)) := by
  have hn : bits v.toNat 6 1 = v.toNat / 2 % 64 := rfl
  have hl : bits v.toNat 23 8 = v.toNat / 256 % 65536 := rfl
  rw [← hn, ← hl]
  rfl

/-! ### O55 -/

/-- The two writes by which a circuit is set up and taken down, i for SETUP and i' for TDOWN. -/
theorem circuitWrites {s : State} {c : Circuit} {i i' : Instr} (he : exec i s = whenReady s (s.circSetup c))
    (he' : exec i' s = whenReady s (s.circTdown c)) :
    ((s.house.phase ≠ 5 → Gives i s (fun t => t = s)) ∧ (s.house.phase = 5 →
      (∀ p, ((s.circ c).state = .idle ∨ (s.circ c).state = .failed) → s.circTarget c = some p → Gives i s (s.circBecomes c
        { s.circ c with state := .pending, naks := 0, cause := 0, backoff := false, num := (s.circ c).num + 1 }
          [.circSetup ⟨c, (s.circ c).num + 1⟩ p])) ∧
      (s.circTarget c = none → Gives i s (fun t => t = s)) ∧
      (¬ ((s.circ c).state = .idle ∨ (s.circ c).state = .failed) → Gives i s (fun t => t = s)))) ∧
    ((s.house.phase ≠ 5 → Gives i' s (fun t => t = s)) ∧ (s.house.phase = 5 →
      ((s.circ c).state = .pending → (s.circ c).backoff = false → Gives i' s (s.circBecomes c
        { s.circ c with state := .idle, stale := (s.circ c).stale ++ [((s.circ c).num, (s.circ c).peer)] } [])) ∧
      ((s.circ c).state = .pending → (s.circ c).backoff = true → Gives i' s (s.circBecomes c
        { s.circ c with state := .idle, backoff := false } [])) ∧
      ((s.circ c).state = .active → Gives i' s (s.circBecomes c
        { s.circ c with state := .idle } [.circTeardown c (s.circ c).peer])) ∧
      (((s.circ c).state = .idle ∨ (s.circ c).state = .failed) → Gives i' s (fun t => t = s)))) :=
  ⟨⟨gives_unready he, fun hr => ⟨fun _ hfree hp => gives_whenReady he hr (State.circSetup_sent hfree hp),
      fun hp => gives_kept he (State.circSetup_unnamed hp), fun hb => gives_kept he (State.circSetup_busy hb)⟩⟩,
    ⟨gives_unready he', fun hr => ⟨fun hp hb => gives_whenReady he' hr (State.circTdown_pending hp hb),
      fun hp hb => gives_whenReady he' hr (State.circTdown_backoff hp hb),
      fun hp => gives_whenReady he' hr (State.circTdown_active hp), fun hf => gives_kept he' (State.circTdown_free hf)⟩⟩⟩

/-- Settles O55: each event of a circuit and of the rotation has its effect. -/
theorem circuitsFollowTheirStates : Obligations.CircuitsFollowTheirStates := by
  unfold Obligations.CircuitsFollowTheirStates
  intro s c peer lo hi caps
  dsimp only
  refine ⟨fun n => ⟨?_, ?_, ?_, ?_, ?_⟩, fun hp => ⟨?_, ?_⟩, ?_, ?_, ?_, ?_, fun j => ⟨?_, ?_⟩, ?_, fun hsync => ⟨?_, ?_⟩, ?_, ?_⟩
  · intro ht
    exact ⟨_, rfl, by rw [State.circReceive, if_pos ht]; exact ⟨State.circ_emit _ _ _, rfl⟩⟩
  · intro ht hv
    have hc : abnelCommon lo hi = none := if_neg hv
    exact ⟨_, rfl, by simp only [State.circReceive, ht, ne_eq, not_true, if_false, hc]; exact ⟨State.circ_emit _ _ _, rfl⟩⟩
  · intro ht hlo hhi
    exact ⟨_, rfl, State.circReceive_accepted (r := ⟨c, n⟩) ht ⟨hlo, hhi⟩⟩
  · intro hp hn
    have hw : (s.circ c).awaits n = true := (Circ.awaits_iff _ _).mpr ⟨hp, hn⟩
    have becomes : ∀ {why y}, s.circNak ⟨c, n⟩ why = s.putCirc c y →
        Gives (.nak ⟨c, n⟩ why) s (s.circBecomes c y []) := fun h => ⟨_, rfl, by rw [h]; exact s.circBecomes_putCirc c _⟩
    exact ⟨fun v => ⟨_, rfl, State.circAck_awaited (r := ⟨c, n⟩) hw v⟩,
      fun hl => becomes (State.circNak_blocked_last (r := ⟨c, n⟩) hw hl),
      fun hh hk => becomes (State.circNak_blocked_again (r := ⟨c, n⟩) hw hh hk),
      becomes (State.circNak_refused (r := ⟨c, n⟩) hw).1, becomes (State.circNak_refused (r := ⟨c, n⟩) hw).2⟩
  · intro hp
    have hw : (s.circ c).awaits n = false := Circ.not_awaits hp
    exact ⟨fun v hs => ⟨_, rfl, State.circAck_unknown (r := ⟨c, n⟩) hw hs v⟩,
      fun v e he => ⟨_, rfl, State.circAck_stale (r := ⟨c, n⟩) hw he v⟩,
      fun why => ⟨_, rfl, State.circNak_unawaited (r := ⟨c, n⟩) hw why⟩⟩
  · intro hb
    exact gives_whenever rfl (by simp [hp, hb]) (s.circBecomes_putCirc c _)
  · intro hb
    exact gives_whenever rfl (by simp [hp, hb]) (s.circBecomes_sendSetup c _ _)
  · intro ha
    exact gives_whenever rfl (by simp [ha]) (State.circBecomes_leaveSlot (s.circBecomes_putCirc c _))
  · intro ha
    exact ⟨_, rfl, by simp [ha]⟩
  · rintro j p rfl
    exact circuitWrites rfl rfl
  · rintro p rfl
    exact circuitWrites rfl rfl
  · intro hj
    refine ⟨_, rfl, ?_⟩
    rw [State.marker, if_pos hj]
    dsimp only
    rw [State.setPorts_rot]
    exact ⟨rfl, rfl, rfl, rfl, fun p hp => State.setPorts_now _ _ hp⟩
  · intro hj
    refine ⟨_, rfl, ?_⟩
    rw [State.marker, if_neg (Nat.not_lt.mpr hj)]
    dsimp only
    rw [State.setPorts_rot]
    refine ⟨rfl, rfl, rfl, rfl, rfl, rfl, fun p hp => (State.setPorts_now _ _ hp).trans ?_⟩
    simp [State.slotPeer]
  · intro hg
    exact gives_whenever rfl hg rfl
  · exact gives_whenever rfl hsync rfl
  · refine gives_whenever rfl hsync ?_
    rw [if_neg Bool.false_ne_true]
    dsimp only
    rw [State.setPorts_rot]
    exact ⟨rfl, rfl, rfl, fun p hp => State.setPorts_now _ _ hp⟩
  · intro part v hr ho
    refine gives_whenever rfl (by simp [State.isReady, hr, ho]) ?_
    refine ⟨rfl, rfl, rfl, rfl, rfl, fun hn hl => ?_, fun hd => ?_⟩
    · rw [Rotation.write_held, if_pos ⟨hn, hl⟩]
    · rw [Rotation.write_held, if_neg (not_and_or.mpr hd)]
  · intro src part v h
    refine ⟨s, ?_, rfl⟩
    refine congrArg Host.Outcome.next (if_neg ?_)
    obtain h | h | h := h <;> simp [State.isReady, h]

end Sys2Proof.Machine
end

section
/-! PROOFS. Reductions, prefixes and block conversion (R156, R157, R151). -/

namespace Sys2Proof.Machine

section
variable {s : State} {c : Ctx} {d a b : RegField} {code : ByteField}

/-- A word whose writes are on their way, with the flags that it raises. -/
theorem Ctx.went_writes (c : Ctx) (srd : Bool) (fs : List Flags) (lat : Nat) (rs : List RegRef) (ws : List (RegElem × Word)) :
    c.went c.s { c.g with acr := (c.g.arith srd fs).acr } (c.pc + 4) (overwritten ws c.g.settled)
      (c.next c.s (((c.g.arith srd fs).launch c.slices lat rs).writeFixed c.slices lat ws)) := by
  refine Ctx.went_congr ?_ (fun e => ?_) (went_next c c.s _ rfl)
  · rw [Gang.rest_writeFixed]
    rfl
  · rw [Gang.settled_writeFixed]
    exact Ctx.computed_data.overwritten_congr _ _ (settled_arith_launch c.g srd fs c.slices lat rs)

/-- The accrued flags after one set of flags. -/
theorem Gang.arith_single (g : Gang) (fl : Flags) : (g.arith false [fl]).acr = Acr.set g.acr fl := by
  simp [Gang.arith, Flags.orAll, Flags.or_none]

theorem Gang.arith_nil (g : Gang) : (g.arith false []).acr = g.acr := Acr.set_none g.acr

theorem lanesFor_vector (h : isVreg d = true) : c.lanesFor d = c.takers := by
  have hs : isSreg d = false := by
    rw [Bool.eq_false_iff, ne_eq, isSreg_iff]
    have := isVreg_iff.1 h
    omega
  rw [Ctx.lanesFor, hs, if_neg Bool.false_ne_true]

/-- What GRED leaves in every register (R156): a scalar destination is written whatever once() says. -/
theorem Ctx.gred_result (w : Bool) (x : Nat) (e : RegElem) :
    overwritten ((if isSreg d then [0] else c.takers).flatMap (fun l => spread (dstElems d w l) x)) c.g.settled e =
      match e with
      | .s i => if isSreg d = true ∧ (i = d.toNat - 0xC0 ∨ w = true ∧ i = d.toNat - 0xC0 + 1) then
          BitVec.ofNat 32 (x / 2 ^ (32 * (i - (d.toNat - 0xC0)))) else c.g.settled e
      | _ => c.result d w (fun _ => x) e := by
  by_cases hs : isSreg d = true
  · rw [if_pos hs, List.flatMap_singleton]
    have hd := (isSreg_iff.1 hs).1
    cases e with
    | v r l =>
      rw [overwritten_spread_v, if_neg (fun h => absurd h.1 (by omega))]
      simp only [Ctx.result]
      rw [if_neg (fun h => absurd h.1 (by omega)), if_neg (fun h => absurd h.1 (by omega))]
    | p i l =>
      rw [overwritten_spread_p]
      rfl
    | s i =>
      rw [overwritten_spread_s]
      have e1 : sreg d = d.toNat - 0xC0 := rfl
      rw [e1]
      generalize d.toNat - 0xC0 = n
      by_cases h : isSreg d = true ∧ (i = n ∨ w = true ∧ i = n + 1)
      · dsimp only
        rw [if_pos h, if_pos h]
        obtain rfl | ⟨_, rfl⟩ := h.2 <;> simp
      · dsimp only
        rw [if_neg h, if_neg h]
  · have hl : c.takers = c.lanesFor d := by rw [Ctx.lanesFor, if_neg hs]
    rw [if_neg hs, hl, overwritten_result]
    cases e with
    | v r l => rfl
    | p i l => rfl
    | s i =>
      dsimp only
      rw [if_neg (fun h => hs h.1)]
      have h1 : ∀ P : Prop, ¬ (0xC0 ≤ d.toNat ∧ d.toNat < 0xF8 ∧ P) := fun P h => hs (isSreg_iff.2 ⟨h.1, h.2.1⟩)
      simp only [Ctx.result]
      rw [if_neg (h1 _), if_neg (h1 _)]

theorem mxBlock_length (f : Fmt) (vs : List (RndEnv × Val)) : (mxBlock f vs).2.1.length = vs.length := by
  unfold mxBlock
  dsimp only
  split
  · simp
  · split
    · split <;> simp
    · simp

/-- Elements of a list, paired with what a list of the same length holds in their places. -/
theorem zip_eq_map_idxOf : ∀ (ls es : List Nat), ls.Nodup → es.length = ls.length →
    ls.zip es = ls.map (fun l => (l, es.getD (ls.idxOf l) 0))
  | [], _, _, _ => rfl
  | l :: ls, [], _, h => by simp at h
  | l :: ls, e :: es, hn, h => by
    obtain ⟨hl, hn⟩ := List.nodup_cons.mp hn
    rw [List.zip_cons_cons, List.map_cons, zip_eq_map_idxOf ls es hn (by simpa using h), List.idxOf_cons_self,
      List.getD_cons_zero]
    refine congrArg _ (List.map_congr_left (fun x hx => ?_))
    have hne : l ≠ x := fun he => hl (he ▸ hx)
    rw [List.idxOf_cons_ne _ hne, List.getD_cons_succ]

theorem takers_nodup (c : Ctx) : c.takers.Nodup := List.nodup_range.filter _

/-- The block that CVTB makes of the lanes that take effect (R151). -/
def Ctx.cvtbBlock (c : Ctx) (a b : RegField) : Nat × List Nat × Flags :=
  mxBlock (cvtbFmt ((c.readS b).toNat % 8)) (c.takers.map (fun l => (c.env l 0, Fmt.f32.read (Acr.ftz c.g.acr) (c.readA a false l))))

theorem Ctx.cvtbBlock_length (c : Ctx) (a b : RegField) : (c.cvtbBlock a b).2.1.length = c.takers.length := by
  rw [Ctx.cvtbBlock, mxBlock_length, List.length_map]

theorem exec_cvtb (hs : s.issuing = some c) {blk : Nat × List Nat × Flags} (h : c.cvtbBlock a b = blk) :
    exec (.cvtb d a b) s = c.run
      (check (c.etype == 10) Cause.illegalEncoding <|>
        c.onceStop (c.dstOk d false && isVreg d && c.srcOk a false && scalarOk b) (decide ((c.readS b).toNat % 8 ≤ 4)) true
          (regsOf a false) (regsOf b false) [] (regsOf d false))
      (c.next c.s (((c.g.arith c.srd (c.takers.map (fun _ => blk.2.2))).launch c.slices 5 (regsOf d false)).writeFixed c.slices 5
        ((c.takers.zip blk.2.1).map (fun x => (RegElem.v d.toNat x.1, BitVec.ofNat 32 (blk.1 * 2 ^ 24 + x.2)))))) := by
  subst h
  exact withIssue_some hs _

end

/-- Settles O17: the state after each word; its value is Ctx.reductions. -/
theorem reductionResults : Obligations.ReductionResults := by
  unfold Obligations.ReductionResults
  refine ⟨?_, Ctx.reductions⟩
  intro s c d a b code hs
  dsimp only
  refine ⟨fun hcode htype hd ha hz => ?gred, fun ⟨hop, hcode⟩ htype hd hv ha hz => ?gscan, fun ht hops stop => ?cvtb⟩
  case gred =>
    have hstop : (check (decide (code.toNat ≤ 5) && c.reduceTypeOk code.toNat) Cause.illegalEncoding <|>
        check (c.dstOk d (isWide c.etype) && c.srcOk a (isWide c.etype)) Cause.illegalOperand <|>
        c.hazard (regsOf a (isWide c.etype)) [] [] c.guardRegs (regsOf d (isWide c.etype))) = none := by
      rw [htype, hd, ha, hz, decide_eq_true hcode]; rfl
    refine ⟨fun hnone => gives_run (withIssue_some hs _) hstop ?_, fun hsome => gives_run (withIssue_some hs _) hstop ?_⟩
    · rw [hnone, List.isEmpty_nil, if_pos rfl]
      exact Ctx.went_congr (g := c.g.launch c.slices 6 (regsOf d (isWide c.etype))) (Gang.rest_launch _ _ _ _)
        (fun e => Gang.settled_launch _ _ _ _ e) (went_next c c.s _ rfl)
    · rw [List.isEmpty_eq_false_iff.mpr hsome, if_neg Bool.false_ne_true, if_pos rfl, ← Gang.arith_single]
      exact Ctx.went_congr rfl (fun e => Ctx.gred_result _ _ e) (Ctx.went_writes _ _ _ _ _ _)
  case gscan =>
    have hstop : (check (decide (code.toNat % 8 ≤ 5) && decide (code.toNat ≤ 13) && c.reduceTypeOk (code.toNat % 8))
          Cause.illegalEncoding <|>
        check (c.dstOk d (isWide c.etype) && isVreg d && c.srcOk a (isWide c.etype)) Cause.illegalOperand <|>
        c.hazard (regsOf a (isWide c.etype)) [] [] c.guardRegs (regsOf d (isWide c.etype))) = none := by
      rw [htype, hd, hv, ha, hz, decide_eq_true hop, decide_eq_true hcode]; rfl
    refine gives_run (withIssue_some hs _) hstop ?_
    refine Ctx.went_congr ?_ (fun e => ?_) (Ctx.went_writes _ _ _ _ _ _)
    · cases c.takers.isEmpty
      · exact congrArg Gang.rest (congrArg (fun x => { c.g with acr := x }) (Gang.arith_single c.g _))
      · exact congrArg Gang.rest (congrArg (fun x => { c.g with acr := x }) (Gang.arith_nil c.g))
    · rw [← lanesFor_vector hv]
      exact overwritten_result c d _ _ e
  case cvtb =>
    have hstop : (check (c.etype == 10) Cause.illegalEncoding <|>
        c.onceStop (c.dstOk d false && isVreg d && c.srcOk a false && scalarOk b) (decide ((c.readS b).toNat % 8 ≤ 4)) true
          (regsOf a false) (regsOf b false) [] (regsOf d false)) = none := by
      rw [ht, hops, stop]; rfl
    have hv : isVreg d = true := by
      simp only [Bool.and_eq_true] at hops
      exact hops.1.1.2
    have hlen := c.cvtbBlock_length a b
    refine Exists.imp (fun t ht => ?_) (?_ : Gives (.cvtb d a b) s (c.went c.s
      { c.g with acr := (c.g.arith c.srd (c.takers.map (fun _ => (c.cvtbBlock a b).2.2))).acr } (c.pc + 4)
      (c.result d false (fun l => (c.cvtbBlock a b).1 * 2 ^ 24 + (c.cvtbBlock a b).2.1.getD (c.takers.idxOf l) 0))))
    · rw [Gang.arith, List.isEmpty_map] at ht
      exact ht
    generalize hblk : c.cvtbBlock a b = blk at hlen ⊢
    refine gives_run (exec_cvtb hs hblk) hstop (Ctx.went_congr rfl (fun e => ?_) (Ctx.went_writes _ _ _ _ _ _))
    rw [zip_eq_map_idxOf _ _ (takers_nodup c) hlen, List.map_map]
    refine Eq.trans ?_ (overwritten_result c d false (fun l => blk.1 * 2 ^ 24 + blk.2.1.getD (c.takers.idxOf l) 0) e)
    rw [lanesFor_vector hv, ← List.flatMap_pure_eq_map]
    refine congrArg (fun ws => overwritten ws c.g.settled e) (List.flatMap_congr (fun l _ => ?_))
    simp [dstElems, hv, spread]

end Sys2Proof.Machine
end

section
/-! PROOFS. Float results (R140-R149). -/

namespace Sys2Proof.Machine

/-! ### Signs -/

theorem xor_concat (i : Nat) {a b x y : Nat} (hb : b < 2 ^ i) (hy : y < 2 ^ i) :
    (2 ^ i * a + b) ^^^ (2 ^ i * x + y) = 2 ^ i * (a ^^^ x) + (b ^^^ y) := by
  refine Nat.eq_of_testBit_eq (fun j => ?_)
  rw [Nat.testBit_xor, Nat.testBit_two_pow_mul_add _ hb, Nat.testBit_two_pow_mul_add _ hy,
    Nat.testBit_two_pow_mul_add _ (Nat.xor_lt_two_pow hb hy)]
  split <;> rw [Nat.testBit_xor]

theorem and_concat (i : Nat) {a b x y : Nat} (hb : b < 2 ^ i) (hy : y < 2 ^ i) :
    (2 ^ i * a + b) &&& (2 ^ i * x + y) = 2 ^ i * (a &&& x) + (b &&& y) := by
  refine Nat.eq_of_testBit_eq (fun j => ?_)
  rw [Nat.testBit_and, Nat.testBit_two_pow_mul_add _ hb, Nat.testBit_two_pow_mul_add _ hy,
    Nat.testBit_two_pow_mul_add _ (Nat.and_lt_two_pow _ hy)]
  split <;> rw [Nat.testBit_and]

/-- The sign bit of a pattern of k + 1 bits, changed. -/
theorem xor_sign (k : Nat) {y : Nat} (hy : y < 2 * 2 ^ k) : y ^^^ 2 ^ k = y % 2 ^ k + if 2 ^ k ≤ y then 0 else 2 ^ k := by
  have hpos := Nat.two_pow_pos k
  have hsplit : y ^^^ 2 ^ k = 2 ^ k * (y / 2 ^ k ^^^ 1) + (y % 2 ^ k ^^^ 0) := by
    rw [← xor_concat k (Nat.mod_lt _ hpos) hpos, Nat.div_add_mod, Nat.mul_one, Nat.add_zero]
  rw [hsplit, Nat.xor_zero, Nat.add_comm]
  by_cases h : 2 ^ k ≤ y
  · rw [if_pos h, (Nat.div_eq_iff hpos).mpr (by omega : 1 * 2 ^ k ≤ y ∧ y ≤ 1 * 2 ^ k + 2 ^ k - 1)]
    rfl
  · rw [if_neg h, Nat.div_eq_of_lt (Nat.not_le.mp h)]
    simp

theorem halves_split (x : Nat) : x % 2 ^ 32 = 2 ^ 16 * half x 1 + half x 0 := by
  simp only [half]
  omega

theorem half_lt (x j : Nat) : half x j < 2 ^ 16 := Nat.mod_lt _ (by decide)

theorem halves_of_lt {lo hi : Nat} (hl : lo < 2 ^ 16) (hh : hi < 2 ^ 16) : halves lo hi = 2 ^ 16 * hi + lo := by
  rw [halves]
  omega

/-- Both bf16 halves with their signs cleared (R143). -/
theorem halves_abs (x : Nat) : halves (half x 0 % 2 ^ 15) (half x 1 % 2 ^ 15) = x % 2 ^ 32 &&& 0x7FFF7FFF := by
  have clear : ∀ y : Nat, y % 2 ^ 15 = y &&& 0x7FFF := fun y => (Nat.and_two_pow_sub_one_eq_mod y 15).symm
  have lt : ∀ y : Nat, y % 2 ^ 15 < 2 ^ 16 := fun y => by omega
  have hmask : 0x7FFF7FFF = 2 ^ 16 * 0x7FFF + 0x7FFF := rfl
  rw [halves_of_lt (lt _) (lt _), clear, clear, ← and_concat 16 (half_lt x 0) (by decide), ← halves_split, hmask]

/-- Both bf16 halves with their signs changed (R143). -/
theorem halves_neg (x : Nat) : halves (half x 0 ^^^ 2 ^ 15) (half x 1 ^^^ 2 ^ 15) = x % 2 ^ 32 ^^^ 0x80008000 := by
  have lt : ∀ j, half x j ^^^ 2 ^ 15 < 2 ^ 16 := fun j => Nat.xor_lt_two_pow (half_lt x j) (by decide)
  have hmask : 0x80008000 = 2 ^ 16 * 2 ^ 15 + 2 ^ 15 := rfl
  rw [halves_of_lt (lt 0) (lt 1), hmask, ← xor_concat 16 (half_lt x 0) (by decide), ← halves_split]

/-- The sign bit of a float element is its topmost (Table 4.1). -/
theorem signPlace {t : Nat} (ht : (inFX t || inF8 t) = true) : (fmtOf t).eb + (fmtOf t).mb = if t = 15 then 15 else ebits t - 1 := by
  have hle : t ≤ 15 := by
    simp only [inFX, inFLT, inF8, Bool.or_eq_true, Bool.and_eq_true, decide_eq_true_eq, beq_iff_eq] at ht
    omega
  interval_cases t <;> first | rfl | exact absurd ht (by decide)

section
variable {s : State} {c : Ctx} {i : Instr} {d a b : RegField} {t : Nat}

theorem Ctx.dataStop_type {typeOk more wide dRead : Bool} {xs ys : List (RegField × Bool)}
    (h : c.dataStop typeOk more d wide dRead xs ys = none) : typeOk = true := by
  cases typeOk with
  | true => rfl
  | false => simp [Ctx.dataStop] at h

/-- An element operation that raises no flag, on each half under x2 (R116). -/
theorem Ctx.each_quiet (c : Ctx) (t l x y z : Nat) (f : Fmt → Nat → Nat) :
    c.each t l x y z (fun fm _ p _ _ => (f fm p, Flags.none)) =
      (if t = 15 then halves (f Fmt.bf16 (half x 0)) (f Fmt.bf16 (half x 1)) else f (fmtOf t) (x % 2 ^ ebits t), Flags.none) := by
  unfold Ctx.each
  split
  · rfl
  · rfl

/-- The element y of a format with the sign that g gives it (R143). -/
def signed (g : Bool → Bool) (f : Fmt) (y : Nat) : Nat :=
  y % 2 ^ (f.eb + f.mb) + if g (decide (2 ^ (f.eb + f.mb) ≤ y)) then 2 ^ (f.eb + f.mb) else 0

/-- A word that changes signs alone. -/
theorem Ctx.gives_signOp {g : Bool → Bool} {f : Nat → Nat} (he : exec i s = c.signOp d a g)
    (stop : c.dataStop (inFX c.etype || inF8 c.etype) true d (isWide c.etype) false [(a, isWide c.etype)] [] = none)
    (hf : ∀ x, (if c.etype = 15 then halves (signed g Fmt.bf16 (half x 0)) (signed g Fmt.bf16 (half x 1))
      else signed g (fmtOf c.etype) (x % 2 ^ ebits c.etype)) = f x) :
    Gives i s (c.wrote (c.result d (isWide c.etype) (fun l => f (c.readA a (isWide c.etype) l)))) := by
  refine gives_data (f := fun l => f (c.readA a (isWide c.etype) l)) (lat := 5) (he.trans ?_) stop (fun _ => rfl)
  rw [Ctx.signOp, Ctx.floatOp]
  simp only [Ctx.each_quiet, ← hf]
  rfl

end

/-- A word read as s32 (R144). -/
theorem asInt_toInt (x : Nat) : asInt true 32 x = (BitVec.ofNat 32 x).toInt := by
  rw [BitVec.toInt_eq_toNat_cond, BitVec.toNat_ofNat, asInt]
  simp only [Bool.true_and, decide_eq_true_eq]
  split_ifs <;> omega

/-- The largest numbers of the formats (Table 4.1). -/
theorem Fmt.largest_values :
    Fmt.f64.largest = (2 - 2 ^ (-52 : Int)) * 2 ^ 1023 ∧ Fmt.f32.largest = (2 - 2 ^ (-23 : Int)) * 2 ^ 127 ∧
    Fmt.tf32.largest = (2 - 2 ^ (-10 : Int)) * 2 ^ 127 ∧ Fmt.bf16.largest = (2 - 2 ^ (-7 : Int)) * 2 ^ 127 ∧
    Fmt.f16.largest = 65504 ∧ Fmt.e5m2.largest = 57344 ∧ Fmt.e4m3.largest = 448 ∧ Fmt.e3m2.largest = 28 ∧
    Fmt.e2m3.largest = 15 / 2 ∧ Fmt.e2m1.largest = 6 := by
  rw [Fmt.largest_of (f := Fmt.f64) (m := 2 ^ 53 - 1) (e := 971) (by decide +kernel),
    Fmt.largest_of (f := Fmt.f32) (m := 2 ^ 24 - 1) (e := 104) (by decide +kernel),
    Fmt.largest_of (f := Fmt.tf32) (m := 2 ^ 11 - 1) (e := 117) (by decide +kernel),
    Fmt.largest_of (f := Fmt.bf16) (m := 2 ^ 8 - 1) (e := 120) (by decide +kernel),
    Fmt.largest_of (f := Fmt.f16) (m := 2047) (e := 5) (by decide +kernel),
    Fmt.largest_of (f := Fmt.e5m2) (m := 7) (e := 13) (by decide +kernel),
    Fmt.largest_of (f := Fmt.e4m3) (m := 14) (e := 5) (by decide +kernel),
    Fmt.largest_of (f := Fmt.e3m2) (m := 7) (e := 2) (by decide +kernel),
    Fmt.largest_of (f := Fmt.e2m3) (m := 15) (e := -1) (by decide +kernel),
    Fmt.largest_of (f := Fmt.e2m1) (m := 3) (e := 1) (by decide +kernel)]
  have hpow : (2 : ℚ) ^ 1023 = 2 ^ 52 * 2 ^ 971 := by rw [← pow_add]
  rw [hpow, zpow_ofNat]
  generalize (2 : ℚ) ^ 971 = y
  norm_num
  ring

/-- Settles O14: each word delivers its operation, whose exact meaning the laws of the formats give. -/
theorem floatResults : Obligations.FloatResults := by
  unfold Obligations.FloatResults
  refine ⟨?arith, ?minmax, ?unary, ?exact, ?largest⟩
  case arith =>
    intro s c d a b hs
    dsimp only
    refine ⟨fun stop => ⟨?_, ?_, ?_⟩, fun stop => ⟨?_, ?_⟩, fun stop => ?_, fun stop => ?_⟩
    all_goals exact gives_computed (withIssue_some hs _) stop (fun _ => rfl)
  case minmax =>
    intro s c d a b hs
    dsimp only
    refine ⟨fun stop => ⟨?_, ?_, ?_, ?_⟩, fun stop => ?sign, fun stop => ?mask⟩
    case sign =>
      have hsign := signPlace (Ctx.dataStop_type stop)
      have hsign2 := Nat.two_pow_pos (ebits c.etype - 1)
      have hbits : 2 ^ ebits c.etype = 2 * 2 ^ (ebits c.etype - 1) := by
        rw [← Nat.pow_succ', Nat.succ_eq_add_one, Nat.sub_add_cancel (ebits_pos _)]
      refine ⟨fun ht => ?_, fun ht => ?_⟩
      · rw [if_neg ht] at hsign
        refine ⟨Ctx.gives_signOp (f := fun x => x % 2 ^ (ebits c.etype - 1)) (withIssue_some hs _) stop (fun x => ?_),
          Ctx.gives_signOp (f := fun x => x % (2 * 2 ^ (ebits c.etype - 1)) ^^^ 2 ^ (ebits c.etype - 1)) (withIssue_some hs _) stop
            (fun x => ?_)⟩
        · simp only [if_neg ht, signed, hsign, Bool.false_eq_true, if_false, Nat.add_zero, hbits]
          exact Nat.mod_mod_of_dvd _ (Dvd.intro_left 2 rfl)
        · rw [xor_sign _ (Nat.mod_lt _ (by omega))]
          simp only [if_neg ht, signed, hsign, hbits, Bool.not_eq_true', decide_eq_false_iff_not, ite_not]
      · refine ⟨Ctx.gives_signOp (f := fun x => x % 2 ^ 32 &&& 0x7FFF7FFF) (withIssue_some hs _) stop (fun x => ?_),
          Ctx.gives_signOp (f := fun x => x % 2 ^ 32 ^^^ 0x80008000) (withIssue_some hs _) stop (fun x => ?_)⟩
        · simp only [if_pos ht, signed, Bool.false_eq_true, if_false, Nat.add_zero]
          exact halves_abs x
        · rw [← halves_neg, xor_sign 15 (half_lt x 0), xor_sign 15 (half_lt x 1)]
          simp only [if_pos ht, signed, Bool.not_eq_true', decide_eq_false_iff_not, ite_not]
          rfl
    case mask =>
      refine gives_data (withIssue_some hs _) stop (fun l => ?_)
      simp only [half, Nat.mul_zero, Nat.pow_zero, Nat.div_one, Nat.mul_one]
      rfl
    all_goals exact gives_computed (withIssue_some hs _) stop (fun _ => rfl)
  case unary =>
    intro s c d a b hs
    dsimp only
    refine ⟨fun stop => ⟨?_, ?_, ?_⟩, fun stop => ⟨?_, ?_, ?_, ?_, ?_, ?_⟩, fun stop => ?_, fun stop => ?scale⟩
    case scale =>
      refine gives_computed (withIssue_some hs _) stop (fun l => ?_)
      rw [← asInt_toInt]
    all_goals exact gives_computed (withIssue_some hs _) stop (fun _ => rfl)
  case exact =>
    intro f r x y z k he
    exact ⟨Fmt.read_spec f r.ftz x, fun hi => ⟨f.add_sums he hi r x y, f.sub_sums he hi r x y, f.mul_sums he hi r x y,
        f.fma_sums he hi r false x y z, f.fma_sums he hi r true x y z⟩,
      fun ha => ⟨f.scale_delivers he r x k ha, f.rnd_spec he r x ha⟩, f.minMax_spec r x y⟩
  case largest => exact Fmt.largest_values

end Sys2Proof.Machine
end

section
/-! PROOFS. Conversions, packed elements and dot products (R150-R154). -/

namespace Sys2Proof.Machine

/-- An integer fitted to an element: its range, and its value clamped or wrapped (R96). -/
theorem fitElem_fitted (u : Nat) (sat : Bool) (i : Int) : fitElem u sat i < 2 ^ ebits u ∧
    (sat = true → asInt (isSigned u) (ebits u) (fitElem u sat i) =
      max (intMin (isSigned u) (ebits u)) (min (intMax (isSigned u) (ebits u)) i)) ∧
    (sat = false → (fitElem u sat i : Int) = i % 2 ^ ebits u) := by
  refine ⟨fitBits_lt _ _ _ _, ?_, ?_⟩
  · rintro rfl
    exact fitBits_asInt (ebits_pos u) i
  · rintro rfl
    exact fitBits_wrap _ _ i

/-- A conversion, by the kinds of its two types (R150). -/
theorem convert_kinds (t u : Nat) (sat : Bool) (r : RndEnv) (x : Nat) :
    (inINT t = true → inINT u = true → convert t u sat r x = (fitElem u sat (elemInt t x), Flags.none)) ∧
    (inINT t = true → inINT u = false → convert t u sat r x = intToFloat (fmtOf u) r (elemInt t x)) ∧
    (inINT t = false → inINT u = true → convert t u sat r x = valToInt r (isSigned u) (ebits u) ((fmtOf t).read r.ftz x)) ∧
    (inINT t = false → inINT u = false → convert t u sat r x = (fmtOf u).deliver r ((fmtOf t).read r.ftz x)) := by
  refine ⟨?_, ?_, ?_, ?_⟩ <;> intro ht hu <;> rw [convert, ht, hu]

/-- The exact values of the conversions (R96, R97, R103, R154). -/
theorem conversions_exact (t u : Nat) (sat : Bool) (r : RndEnv) (x y z : Nat) :
    let v := (fmtOf t).read r.ftz x
    let w := Fmt.f32.read r.ftz x
    let fitted := fun (u : Nat) (i : Int) (res : Nat × Flags) => res.2 = Flags.none ∧ res.1 < 2 ^ ebits u ∧
      (sat = true → asInt (isSigned u) (ebits u) res.1 =
        max (intMin (isSigned u) (ebits u)) (min (intMax (isSigned u) (ebits u)) i)) ∧
      (sat = false → (res.1 : Int) = i % 2 ^ ebits u)
    (inINT t = true → inINT u = true → fitted u (elemInt t x) (convert t u sat r x)) ∧
    (inINT t = true → inINT u = false → (fmtOf u).Delivers r false (elemInt t x) (convert t u sat r x)) ∧
    (inINT t = false → inINT u = true → ConvertedToInt r (isSigned u) (ebits u) v (convert t u sat r x)) ∧
    (inINT t = false → inINT u = false → (fmtOf u).Converted r v (convert t u sat r x)) ∧
    (inINT t = true → fitted t (asInt (isSigned t) 32 x) (packElem t sat r x)) ∧
    (inINT t = false → (fmtOf t).Converted r w (packElem t sat r x) ∧
      Fmt.f32.Converted RndEnv.rne v (Fmt.f32.deliver RndEnv.rne v) ∧
      ∀ n, Fmt.f32.Sums r [Fmt.f32.read r.ftz z] ((List.range (32 / n)).map (fun i =>
        ((fmtOf t).read r.ftz (x / 2 ^ (n * i) % 2 ^ n), (fmtOf t).read r.ftz (y / 2 ^ (n * i) % 2 ^ n)))) (dotFloat t n r x y z)) := by
  obtain ⟨ints, toFloat, toInt, floats⟩ := convert_kinds t u sat r x
  refine ⟨fun ht hu => ?_, fun ht hu => ?_, fun ht hu => ?_, fun ht hu => ?_, fun ht => ?_, fun ht => ⟨?_, ?_, ?_⟩⟩
  · rw [ints ht hu]
    exact ⟨rfl, fitElem_fitted u sat _⟩
  · rw [toFloat ht hu]
    exact intToFloat_delivers _ (fmtOf_eb u) r _
  · rw [toInt ht hu]
    exact valToInt_converted r (ebits_pos u) _
  · rw [floats ht hu]
    exact Fmt.deliver_converted _ (fmtOf_eb u) r _
  · rw [packElem, if_pos ht]
    exact ⟨rfl, fitElem_fitted t sat _⟩
  · rw [packElem, ht, if_neg Bool.false_ne_true]
    exact Fmt.deliver_converted _ (fmtOf_eb t) r _
  · exact Fmt.deliver_converted _ (by decide) _ _
  · exact fun n => dotFloat_sums t n r x y z

/-- The dot product of four bytes, written out (R154). -/
theorem dotInt_bytes (t : Nat) (sat : Bool) (x y z : Nat) : dotInt t 8 sat x y z =
    let at_ := fun v i => asInt (isSigned t) 8 (v / 2 ^ (8 * i))
    fitBits (isSigned t) 32 sat (asInt (isSigned t) 32 z + at_ x 0 * at_ y 0 + at_ x 1 * at_ y 1 + at_ x 2 * at_ y 2 +
      at_ x 3 * at_ y 3) := by
  have byte : ∀ v j, asInt (isSigned t) 8 (packed v 8 j) = asInt (isSigned t) 8 (v / 2 ^ (8 * j)) := fun v j => asInt_mod _ _ _
  simp only [dotInt, byte]
  rfl

section
variable {s : State} {c : Ctx} {i : Instr} {d a b : RegField}

/-- A dot product of float elements (R154). -/
theorem Ctx.gives_dotFloat {typeOk : Nat → Bool} (he : exec i s = c.dot typeOk d a b) (ht : inINT c.etype = false)
    (stop : c.dataStop (typeOk c.etype) true d false true [(a, false)] [(b, false)] = none) :
    Gives i s (c.computed d false c.srd (fun l =>
      dotFloat c.etype (ebits c.etype) (c.env l 0) (c.readA a false l) (c.readB b false l) (c.readD d false l))) := by
  refine gives_computed (lat := 5) (he.trans ?_) stop (fun _ => rfl)
  rw [Ctx.dot]
  simp only [ht, Bool.not_false, Bool.and_true, Bool.false_eq_true, if_false]

/-- A dot product of integer elements raises no flag (R154). -/
theorem Ctx.gives_dotInt {typeOk : Nat → Bool} (he : exec i s = c.dot typeOk d a b) (ht : inINT c.etype = true)
    (stop : c.dataStop (typeOk c.etype) true d false true [(a, false)] [(b, false)] = none) :
    Gives i s (c.wrote (c.result d false (fun l =>
      dotInt c.etype (ebits c.etype) c.sat (c.readA a false l) (c.readB b false l) (c.readD d false l)))) := by
  refine gives_data (lat := 5) (he.trans ?_) stop (fun _ => rfl)
  rw [Ctx.dot]
  simp only [ht, Bool.not_true, Bool.and_false, if_true]

end

/-- Settles O15: what each word delivers is the conversion, whose exact value conversions_exact gives. -/
theorem conversionResults : Obligations.ConversionResults := by
  unfold Obligations.ConversionResults
  refine ⟨?words, fun t u sat r x y z _ _ => conversions_exact t u sat r x y z⟩
  intro s c d a b code hs
  dsimp only
  refine ⟨fun stop => ?cvt, fun stop => ?pack, fun stop => ?unpack, fun stop => ?dot2, fun stop => ⟨fun ht => ?dot4, fun ht => ?int4⟩⟩
  case cvt => exact gives_computed (withIssue_some hs _) stop (fun _ => rfl)
  case pack =>
    refine gives_computed (withIssue_some hs _) stop (fun l => ?_)
    simp only [beq_iff_eq]
    rfl
  case unpack => exact gives_computed (withIssue_some hs _) stop (fun _ => rfl)
  case dot2 =>
    have hint : inINT c.etype = false := by
      have := Ctx.dataStop_type stop
      simp only [Bool.or_eq_true, beq_iff_eq] at this
      obtain h | h := this <;> rw [h] <;> rfl
    exact Ctx.gives_dotFloat (typeOk := fun t => t == 8 || t == 9) (withIssue_some hs _) hint stop
  case dot4 =>
    have hint : inINT c.etype = false := by
      have := Ctx.dataStop_type stop
      simp only [Bool.or_eq_true, beq_iff_eq] at this
      obtain ((h | h) | h) | h := this
      · rw [h]; rfl
      · rw [h]; rfl
      · omega
      · omega
    exact Ctx.gives_dotFloat (typeOk := fun t => t == 12 || t == 13 || t == 0 || t == 1) (withIssue_some hs _) hint stop
  case int4 =>
    have hint : inINT c.etype = true := by
      rw [inINT, decide_eq_true (by omega : c.etype ≤ 7), Bool.true_or]
    have hn : ebits c.etype = 8 := if_pos ht
    have h := Ctx.gives_dotInt (typeOk := fun t => t == 12 || t == 13 || t == 0 || t == 1) (i := .dot4 d a b)
      (withIssue_some hs _) hint stop
    rw [hn] at h
    simpa only [dotInt_bytes] using h

end Sys2Proof.Machine
end

section
/-! PROOFS. What a write to the vault that is made at once leaves as it was (R204, R220). -/

namespace Sys2Proof.Machine

/-- The machine but for the vault, the clocks, the requests for it, and the gangs. -/
def State.beyondVault (s : State) : State :=
  { s with vault := [], vc := [], av := [], vreqs := [], badWords := [], next := 0, gangs := [] }

/-- A gang but for its reservations. -/
def Gang.unreserved (g : Gang) : Gang := { g with reserve := [] }

/-- t is s but for the vault, its clocks and requests, and the reservations of gangs. -/
def State.vaultOnly (s t : State) : Prop :=
  t.beyondVault = s.beyondVault ∧ ∀ id, (t.gang? id).map Gang.unreserved = (s.gang? id).map Gang.unreserved

section
variable {s t u : State}

theorem State.vaultOnly_refl (s : State) : s.vaultOnly s := ⟨rfl, fun _ => rfl⟩

theorem State.vaultOnly_trans (h : s.vaultOnly t) (h' : t.vaultOnly u) : s.vaultOnly u :=
  ⟨h'.1.trans h.1, fun id => (h'.2 id).trans (h.2 id)⟩

theorem State.vaultOnly_foldl {α : Type} (l : List α) {f : State → α → State} (h : ∀ (v : State) a, a ∈ l → v.vaultOnly (f v a))
    (s : State) : s.vaultOnly (l.foldl f s) :=
  List.foldlRecOn l f (motive := fun v => s.vaultOnly v) s.vaultOnly_refl (fun _ hv a ha => State.vaultOnly_trans hv (h _ a ha))

/-- Whatever the vault and the gangs have no part in is the same. -/
theorem State.vaultOnly.same {α : Type} (h : s.vaultOnly t) (f : State → α) (hf : ∀ v : State, f v.beyondVault = f v) : f t = f s := by
  rw [← hf t, h.1, hf]

theorem State.vaultOnly.gang (h : s.vaultOnly t) {id : Nat} {g : Gang} (hg : s.gang? id = some g) :
    ∃ g', t.gang? id = some g' ∧ g'.unreserved = g.unreserved := by
  have := h.2 id
  rw [hg, Option.map_some, Option.map_eq_some_iff] at this
  exact this

/-- Reservations cleared lane by lane. -/
theorem Gang.unreserved_foldl (l : List (Nat × Option Nat)) (g : Gang) :
    (l.foldl (fun g r => g.setReserve r.1 none) g).unreserved = g.unreserved :=
  List.foldlRecOn l _ (motive := fun v : Gang => v.unreserved = g.unreserved) rfl (fun _ hv _ _ => hv)

theorem State.vaultOnly_putGang {id : Nat} {g g' : Gang} (hg : (s.gang? id).map Gang.unreserved = some g.unreserved)
    (h : g'.unreserved = g.unreserved) : s.vaultOnly (s.putGang id g') := by
  refine ⟨rfl, fun n => ?_⟩
  by_cases hn : n = id
  · subst hn
    rw [State.gang?_putGang_same, Option.map_some, h, hg]
  · rw [State.gang?_putGang_other _ _ hn]

theorem State.vaultOnly_breakReserve (s : State) (gr : Nat) (a : Actor) : s.vaultOnly (s.breakReserve gr a) := by
  refine List.foldlRecOn (listed s.gangs) _ (motive := fun v => s.vaultOnly v) s.vaultOnly_refl (fun v hv e he => ?_)
  dsimp only
  split
  · exact hv
  · refine State.vaultOnly_trans hv (State.vaultOnly_putGang (g := e.2) ?_ (Gang.unreserved_foldl _ _))
    rw [hv.2 e.1, State.gang?, mem_listed he, Option.map_some]

theorem State.vaultOnly_applyAt (s : State) (actor : Actor) (pa size v : Nat) (stamp : List (BitVec 16)) :
    s.vaultOnly (s.applyAt actor pa size v stamp) :=
  State.vaultOnly_trans (t := { s with
      vault := Memory.writeNat s.vault pa size v, badWords := s.badWords.filter (fun w => !wholeWord w pa size) }) ⟨rfl, fun _ => rfl⟩
    (State.vaultOnly_foldl _ (fun v gr _ =>
      State.vaultOnly_trans (t := { v with
          av := Tbl.set clock0 v.av (vaultSlice (64 * gr)) (clockMax (v.avOf (vaultSlice (64 * gr))) stamp) })
        ⟨rfl, fun _ => rfl⟩ (State.vaultOnly_breakReserve _ _ _)) _)

theorem State.vaultOnly_writeAtOnce (s : State) (actor : Actor) (agent pa : Nat) (bs : List Byte) :
    s.vaultOnly (s.writeAtOnce actor agent pa bs) :=
  State.vaultOnly_trans (t := (s.stampWrite agent).2) ⟨rfl, fun _ => rfl⟩ (State.vaultOnly_applyAt _ _ _ _ _ _)

theorem State.vaultOnly_writeRuns (actor : Actor) (agent : Nat) (rs : List (Nat × Nat)) : ∀ (bs : List Byte) (s : State),
    s.vaultOnly (State.writeRuns actor agent rs bs s) := by
  induction rs with
  | nil => exact fun _ s => s.vaultOnly_refl
  | cons r rs ih => exact fun bs s => State.vaultOnly_trans (s.vaultOnly_writeAtOnce actor agent r.1 _) (ih _ _)

theorem State.vaultOnly_unbook (s : State) (agent : Nat) (runs : List (Nat × Nat)) : s.vaultOnly (s.unbook agent runs) :=
  ⟨rfl, fun _ => rfl⟩

theorem State.vaultOnly_bookRuns (s : State) (actor : Actor) (agent : Nat) (runs : List (Nat × Nat)) :
    s.vaultOnly (s.bookRuns actor agent runs) := by
  unfold State.bookRuns
  split
  · exact s.vaultOnly_refl
  · refine State.vaultOnly_foldl _ (fun v r _ => ?_) s
    unfold State.bookRun
    split
    · exact v.vaultOnly_refl
    · exact ⟨rfl, fun _ => rfl⟩

theorem State.vaultOnly_mergeRuns (s : State) (agent : Nat) (runs : List (Nat × Nat)) : s.vaultOnly (s.mergeRuns agent runs) :=
  ⟨rfl, fun _ => rfl⟩

/-! ### What it leaves, part by part -/

theorem State.vaultOnly.core (h : s.vaultOnly t) (n : Nat) : t.core n = s.core n := h.same (fun v => v.core n) (fun _ => rfl)
theorem State.vaultOnly.part (h : s.vaultOnly t) (n : Nat) : t.part n = s.part n := h.same (fun v => v.part n) (fun _ => rfl)
theorem State.vaultOnly.req (h : s.vaultOnly t) (n : Nat) : t.req? n = s.req? n := h.same (fun v => v.req? n) (fun _ => rfl)
theorem State.vaultOnly.netq (h : s.vaultOnly t) : t.netq = s.netq := h.same State.netq (fun _ => rfl)

end

/-- What two gangs that differ in their reservations alone have in common. -/
theorem Gang.of_unreserved {g h : Gang} (e : g.unreserved = h.unreserved) :
    g.groups = h.groups ∧ g.k = h.k ∧ ∀ x, g.settled x = h.settled x :=
  ⟨(congrArg Gang.groups e :), (congrArg Gang.k e :),
    Gang.settled_congr (congrArg Gang.pend e :) (congrArg Gang.v e :) (congrArg Gang.s e :) (congrArg Gang.p e :)⟩

end Sys2Proof.Machine
end

section
/-! PROOFS. COLL, COLLQ, QSEND, QSTAT and CSLOT (R285, R286, R289, R370-R376, R401). -/

namespace Sys2Proof.Machine

/-! ### A request that has been accepted -/

/-- What never changes of a request: its gang, team, tag and kind. -/
def FarReq.name (r : FarReq) : Nat × Nat × Nat × FarKind := (r.gang, r.team, r.tag, r.kind)

/-- t has the cores of s, its requests by name, and its gangs but for reservations. -/
def State.keepsAccepted (s t : State) : Prop :=
  t.cores = s.cores ∧ (∀ n, (t.req? n).map FarReq.name = (s.req? n).map FarReq.name) ∧
    ∀ id, (t.gang? id).map Gang.unreserved = (s.gang? id).map Gang.unreserved

/-- The request of kind k has been accepted on tag n; the gang has gone on as g (R271). -/
def Ctx.tookRequest (c : Ctx) (n : Nat) (st : State) (k : FarKind) (g : Gang) : Prop :=
  (st.core c.g.core).tag n = { c.core.tag n with state := .busy, pend := (c.core.tag n).pend + 1, owner := c.g.team } ∧
  (∃ r, st.req? c.s.next = some r ∧ r.gang = c.id ∧ r.team = c.g.team ∧ r.tag = n ∧ r.kind = k) ∧
  ∃ g', st.gang? c.id = some g' ∧ g'.groups = c.groupsAt (c.pc + 4) ∧ (∀ x, g'.settled x = c.g.settled x) ∧ g'.k = g.k

section
variable {s t u : State} {c : Ctx} {n : Nat} {k : FarKind} {g : Gang}

theorem State.keepsAccepted_trans (h : s.keepsAccepted t) (h' : t.keepsAccepted u) : s.keepsAccepted u :=
  ⟨h'.1.trans h.1, fun n => (h'.2.1 n).trans (h.2.1 n), fun id => (h'.2.2 id).trans (h.2.2 id)⟩

theorem State.keepsAccepted_of_eq (hc : t.cores = s.cores) (hr : t.reqs = s.reqs) (hg : t.gangs = s.gangs) : s.keepsAccepted t :=
  ⟨hc, fun n => by rw [State.req?, hr, State.req?], fun id => by rw [State.gang?, hg, State.gang?]⟩

theorem State.vaultOnly.keepsAccepted (h : s.vaultOnly t) : s.keepsAccepted t :=
  ⟨h.same State.cores (fun _ => rfl), fun n => by rw [h.req], h.2⟩

theorem State.keepsAccepted_modReq (s : State) (id : Nat) {f : FarReq → FarReq} (hf : ∀ r, (f r).name = r.name) :
    s.keepsAccepted (s.modReq id f) := by
  unfold State.modReq
  split
  · next r hr =>
    refine ⟨rfl, fun n => ?_, fun _ => rfl⟩
    by_cases hn : n = id
    · subst hn
      rw [State.req?_putReq_same, hr, Option.map_some, Option.map_some, hf]
    · rw [State.req?_putReq_other _ _ hn]
  · exact State.keepsAccepted_of_eq rfl rfl rfl

theorem Ctx.tookRequest_keeps (ha : c.tookRequest n s k g) (h : s.keepsAccepted t) : c.tookRequest n t k g := by
  obtain ⟨htag, ⟨r, hr, hgang, hteam, htn, hk⟩, g', hg', hgroups, hset, hcount⟩ := ha
  refine ⟨?_, ?_, ?_⟩
  · rw [State.core, h.1]
    exact htag
  · have hname := h.2.1 c.s.next
    rw [hr, Option.map_some, Option.map_eq_some_iff] at hname
    obtain ⟨r', hr', hname⟩ := hname
    obtain ⟨e1, e2, e3, e4⟩ : r'.gang = r.gang ∧ r'.team = r.team ∧ r'.tag = r.tag ∧ r'.kind = r.kind := by
      simpa [FarReq.name] using hname
    exact ⟨r', hr', e1.trans hgang, e2.trans hteam, e3.trans htn, e4.trans hk⟩
  · have hun := h.2.2 c.id
    rw [hg', Option.map_some, Option.map_eq_some_iff] at hun
    obtain ⟨g2, hg2, hun⟩ := hun
    obtain ⟨e1, e2, e3⟩ := Gang.of_unreserved hun
    exact ⟨g2, hg2, e1.trans hgroups, fun x => (e3 x).trans (hset x), e2.trans hcount⟩

/-- A call that moves nothing is accepted by its tag alone (R271). -/
theorem Ctx.acceptIn_plain (c : Ctx) (n : Nat) (k : FarKind) (g : Gang) : ∃ r : FarReq, r.name = (c.id, c.g.team, n, k) ∧
    c.acceptIn c.s (FarCall.plain n k) g =
      c.next ((State.putReq { c.s with next := c.s.next + 1 } c.s.next r).modCore c.g.core
        (fun k => k.putTag n ((k.tag n).accept c.g.team))) g := ⟨_, rfl, rfl⟩

theorem Ctx.tookRequest_acceptIn (hg : g.groups = c.g.groups) (hset : ∀ x, g.settled x = c.g.settled x) :
    c.tookRequest n (c.acceptIn c.s (FarCall.plain n k) g) k g := by
  obtain ⟨r, hname, hshape⟩ := c.acceptIn_plain n k g
  rw [hshape]
  obtain ⟨e1, e2, e3, e4⟩ : r.gang = c.id ∧ r.team = c.g.team ∧ r.tag = n ∧ r.kind = k := by
    simpa [FarReq.name] using hname
  generalize hs1 : (State.putReq { c.s with next := c.s.next + 1 } c.s.next r).modCore c.g.core
    (fun k => k.putTag n ((k.tag n).accept c.g.team)) = s1
  obtain ⟨g', ht, hrest, hgroups, hsettled⟩ := went_next c s1 g hg
  rw [ht]
  refine ⟨?_, ⟨r, ?_, e1, e2, e3, e4⟩, g', State.gang?_putGang_same _ _ _, hgroups, fun x => (hsettled x).trans (hset x),
    (congrArg Gang.k hrest :)⟩
  · rw [← hs1]
    refine (congrArg (fun k : Core => k.tag n) (State.core_putCore_same _ _ _)).trans ?_
    exact Tbl.get_set_same Tag.reset (c.s.core c.g.core).tags n ((c.core.tag n).accept c.g.team)
  · rw [← hs1]
    exact State.req?_putReq_same _ _ _

theorem Ctx.acceptIn_plain_vault (c : Ctx) (n : Nat) (k : FarKind) (g : Gang) :
    let t := c.acceptIn c.s (FarCall.plain n k) g
    t.vault = c.s.vault ∧ t.parts = c.s.parts ∧ t.netq = c.s.netq := by
  obtain ⟨r, -, hshape⟩ := c.acceptIn_plain n k g
  rw [hshape]
  exact ⟨rfl, rfl, rfl⟩

/-- A call that is no far request and names a tag of its team, which has room. -/
theorem Ctx.present_plain (hf : c.core.tagForeign c.g.team n = false) (hp : (c.core.tag n).pend ≠ 4095) (hk : k.isFar = false)
    (first : Option State) (st : State) : c.present (FarCall.plain n k) first st = first.getD st := by
  have hn : (FarCall.plain n k).tag = n := rfl
  have hkind : (FarCall.plain n k).kind = k := rfl
  have hm : (FarCall.plain n k).missing = none := rfl
  unfold Ctx.present
  rw [hn, hkind, hm, hf, hk, if_neg Bool.false_ne_true]
  dsimp only
  rw [if_neg hp]
  cases first <;> rfl

theorem Ctx.present_foreign (hf : c.core.tagForeign c.g.team n = true) (first : Option State) (st : State) :
    c.present (FarCall.plain n k) first st = c.onceFault Cause.slotState (tagMark n) := if_pos hf

/-! ### Communicators -/

theorem Partition.comm_putComm_same (p : Partition) (n : Nat) (x : Comm) : (p.putComm n x).comm n = x := Tbl.get_set_same _ _ _ _

/-- What the progress of a communicator keeps: what has been accepted, sent and entered. -/
theorem State.collProgress_keeps (s : State) (part comm : Nat) : s.keepsAccepted (s.collProgress part comm) ∧
    (s.collProgress part comm).netq = s.netq ∧
      (((s.collProgress part comm).part part).comm comm).accepted = ((s.part part).comm comm).accepted := by
  have hend : ∀ (v : State) (x : Comm) w b, v.keepsAccepted (v.endColl part comm x w b) ∧ (v.endColl part comm x w b).netq = v.netq ∧
      (((v.endColl part comm x w b).part part).comm comm).accepted = x.accepted := by
    intro v x w b
    have hparts : ∀ (v : State) (id : Nat) (f : FarReq → FarReq), (v.modReq id f).netq = v.netq ∧ (v.modReq id f).parts = v.parts := by
      intro v id f
      unfold State.modReq
      split <;> exact ⟨rfl, rfl⟩
    unfold State.endColl
    refine ⟨State.keepsAccepted_trans (State.keepsAccepted_of_eq rfl rfl rfl) (State.keepsAccepted_modReq _ _ (fun _ => rfl)),
      (hparts _ _ _).1, ?_⟩
    rw [State.part, (hparts _ _ _).2]
    refine (congrArg (fun p : Partition => (p.comm comm).accepted)
      ((State.part_putPart v part part _).trans (if_pos rfl))).trans ?_
    dsimp only
    rw [Partition.comm_putComm_same]
  have hsame : s.keepsAccepted s := State.keepsAccepted_of_eq rfl rfl rfl
  unfold State.collProgress
  dsimp only
  split
  · exact ⟨hsame, rfl, rfl⟩
  · split_ifs
    · exact ⟨hsame, rfl, rfl⟩
    · exact hend _ _ _ _
    · unfold State.writing
      split
      · next w rest _ _ _ _ =>
        obtain ⟨ha, hn, hc⟩ := hend (State.writeRuns .iod 4 w.recv
          (collResult w.msg.op w.msg.fmt w.msg.len w.msg.root w.msg.rank (((s.part part).comm comm).data w)) (s.unbook 4 w.recv))
          ((s.part part).comm comm) w false
        have hv := State.vaultOnly_trans (s.vaultOnly_unbook 4 w.recv) (State.vaultOnly_writeRuns .iod 4 w.recv
          (collResult w.msg.op w.msg.fmt w.msg.len w.msg.root w.msg.rank (((s.part part).comm comm).data w)) _)
        exact ⟨State.keepsAccepted_trans hv.keepsAccepted ha, hn.trans hv.netq, hc⟩
      · have hv := s.vaultOnly_bookRuns .iod 4
        exact ⟨(hv _).keepsAccepted, (hv _).netq, by rw [(hv _).part]⟩

/-- Messages owed one after another; owing changes no domain. -/
theorem State.foldl_owe (part : Nat) (pkg : Nat → Nat) (m : CollMsg) (l : List Nat) : ∀ s : State,
    l.foldl (fun s r => s.owe (pkg r) (.coll { m with part := (s.domain part (pkg r)).getD 0 })) s =
      { s with netq := s.netq ++ l.map (fun r => (pkg r, NetMsg.coll { m with part := (s.domain part (pkg r)).getD 0 })) } := by
  induction l with
  | nil => intro s; simp
  | cons r l ih =>
    intro s
    rw [List.foldl_cons, ih, List.map_cons]
    refine congrArg (fun q => ({ s with netq := q } : State)) ?_
    exact List.append_assoc _ _ _

/-- The table of packages is read from the vault, at the place that the partition gives (R399). -/
theorem State.domain_congr (hv : t.vault = s.vault) (part pkg : Nat) (hd : (t.part part).dombase = (s.part part).dombase)
    (ho : (t.part part).owns = (s.part part).owns) : t.domain part pkg = s.domain part pkg := by
  unfold State.domain
  dsimp only
  rw [hv, hd, ho]

/-- The message of a collective that is entered (R285, R286). -/
def Ctx.collMsg (c : Ctx) (w : List Word) (e : CommEntry) (ss : List (Nat × Nat)) : CollMsg :=
  { part := c.part, comm := bits (dword w 5) 7 0, rank := e.rank,
    number := ((c.s.part c.part).comm (bits (dword w 5) 7 0)).accepted, op := collCode w, fmt := collFmt w,
    len := dword w 4, root := collRoot w, seq := w.getD 6 0, members := e.p, digest := shake256 e.list,
    data := c.s.readRuns ss }

/-- The communicator with the request that is entered. -/
def Ctx.collEntered (c : Ctx) (w : List Word) (e : CommEntry) (ss rs : List (Nat × Nat)) : Comm :=
  let k := (c.s.part c.part).comm (bits (dword w 5) 7 0)
  { k with accepted := k.accepted + 1, waiting := k.waiting ++ [{ req := c.s.next, recv := rs, msg := c.collMsg w e ss }] }

/-- The state in which the collective has been entered and its messages are owed. -/
def Ctx.collOwed (c : Ctx) (n : Nat) (f : FarKind) (w : List Word) (e : CommEntry) (ss rs : List (Nat × Nat)) : State :=
  ((List.range e.p).filter (· != e.rank)).foldl
    (fun s r => s.owe (e.pkg r) (.coll { c.collMsg w e ss with part := (s.domain c.part (e.pkg r)).getD 0 }))
    (((c.acceptIn c.s (FarCall.plain n f) c.g).mergeRuns 4 ss).modPart c.part (fun p =>
      p.putComm (bits (dword w 5) 7 0) (c.collEntered w e ss rs)))

theorem Ctx.joinColl_eq (c : Ctx) (n : Nat) (f : FarKind) (w : List Word) (e : CommEntry) (ss rs : List (Nat × Nat)) :
    c.joinColl (FarCall.plain n f) w e ss rs = (c.collOwed n f w e ss rs).collProgress c.part (bits (dword w 5) 7 0) := rfl

/-- What a joined collective leaves (R286). -/
theorem Ctx.joinColl_joined (c : Ctx) (n : Nat) (f : FarKind) (w : List Word) (e : CommEntry) (ss rs : List (Nat × Nat)) :
    let t := c.joinColl (FarCall.plain n f) w e ss rs
    let comm := bits (dword w 5) 7 0
    c.tookRequest n t f c.g ∧ ((t.part c.part).comm comm).accepted = ((c.s.part c.part).comm comm).accepted + 1 ∧
    t.netq = c.s.netq ++ ((List.range e.p).filter (· != e.rank)).map (fun r =>
      (e.pkg r, NetMsg.coll { c.collMsg w e ss with part := (c.s.domain c.part (e.pkg r)).getD 0 })) := by
  dsimp only
  rw [Ctx.joinColl_eq]
  have htook := c.tookRequest_acceptIn (n := n) (k := f) (g := c.g) rfl (fun _ => rfl)
  obtain ⟨hvault, hparts, hnetq⟩ := c.acceptIn_plain_vault n f c.g
  generalize hu : (((c.acceptIn c.s (FarCall.plain n f) c.g).mergeRuns 4 ss).modPart c.part (fun p =>
      p.putComm (bits (dword w 5) 7 0) (c.collEntered w e ss rs))) = u
  have howed : c.collOwed n f w e ss rs = { u with netq := u.netq ++ ((List.range e.p).filter (· != e.rank)).map (fun r =>
      (e.pkg r, NetMsg.coll { c.collMsg w e ss with part := (u.domain c.part (e.pkg r)).getD 0 })) } := by
    rw [Ctx.collOwed, hu]
    exact State.foldl_owe _ _ _ _ _
  have hpart : u.part c.part = (c.s.part c.part).putComm (bits (dword w 5) 7 0) (c.collEntered w e ss rs) := by
    rw [← hu, State.modPart, State.part_putPart, if_pos rfl]
    rfl
  have hdomain : ∀ pkg, u.domain c.part pkg = c.s.domain c.part pkg := fun pkg =>
    State.domain_congr (by rw [← hu]; rfl) c.part pkg (by rw [hpart]; rfl) (by rw [hpart]; rfl)
  obtain ⟨hkeep, hq, hacc⟩ := (c.collOwed n f w e ss rs).collProgress_keeps c.part (bits (dword w 5) 7 0)
  refine ⟨?_, ?_, ?_⟩
  · refine Ctx.tookRequest_keeps htook (State.keepsAccepted_trans ?_ hkeep)
    rw [howed]
    exact State.keepsAccepted_of_eq (by rw [← hu]; rfl) (by rw [← hu]; rfl) (by rw [← hu]; rfl)
  · rw [hacc, howed]
    refine (congrArg (fun p : Partition => (p.comm (bits (dword w 5) 7 0)).accepted) hpart).trans ?_
    rw [Partition.comm_putComm_same]
    rfl
  · rw [hq, howed]
    simp only [hdomain]
    rw [← hu]
    rfl

/-! ### The entry of a communicator -/

/-- An entry that a COLL may use is what the table holds (R401). -/
theorem State.commEntry_table {part comm : Nat} (h : s.commOk part (s.commEntry part comm) = true) :
    let e := s.commEntry part comm
    let row := (s.part part).commbase * 4096 + 16 * comm
    e.p = Memory.readNat s.vault row 2 ∧ e.rank = Memory.readNat s.vault (row + 2) 2 ∧
      e.list = Memory.readBytes s.vault (Memory.readNat s.vault (row + 8) 4) (2 * e.p) := by
  simp only [State.commOk, Bool.and_eq_true, bne_iff_ne, beq_iff_eq] at h
  obtain ⟨⟨⟨⟨⟨hp, -⟩, hlen⟩, -⟩, -⟩, -⟩ := h
  simp only [State.commEntry] at hp hlen ⊢
  by_cases hrow : (s.part part).owns ((s.part part).commbase * 4096 + 16 * comm) 16 = true
  · rw [if_pos hrow] at hp hlen ⊢
    by_cases hn : Memory.readNat s.vault ((s.part part).commbase * 4096 + 16 * comm) 2 ≤ 1024
    · rw [if_pos hn] at hp hlen ⊢
      by_cases hl : (s.part part).owns (Memory.readNat s.vault ((s.part part).commbase * 4096 + 16 * comm + 8) 4)
          (2 * Memory.readNat s.vault ((s.part part).commbase * 4096 + 16 * comm) 2) = true
      · exact ⟨rfl, trivial, if_pos ⟨hn, hl⟩⟩
      · rw [if_neg (fun h => hl h.2), List.length_nil] at hlen
        exact absurd (by omega) hp
    · rw [if_neg hn] at hp
      exact absurd rfl hp
  · rw [if_neg hrow, if_pos (Nat.zero_le _)] at hp
    exact absurd rfl hp

/-! ### The words -/

theorem Ctx.collStop_commOk {a : RegField} {t : ByteField} (h : c.collStop a t = none) :
    c.s.commOk c.part (c.collEntry a) = true := by
  simp only [Ctx.collStop, Ctx.onceChecks, orElse_none] at h
  obtain ⟨⟨-, -, hvalues, -⟩, -⟩ := h
  cases hv : c.s.commOk c.part (c.collEntry a) with
  | true => rfl
  | false => simp [hv] at hvalues

theorem exec_coll (hs : c.s.issuing = some c) (a : RegField) (t : ByteField) :
    exec (.coll a t) c.s = c.run (c.collStop a t)
      (c.onceDo (match c.collSendRuns a, c.collRecvRuns a with
        | .error x, _ => c.onceFault x.1 x.2.1 x.2.2
        | _, .error x => c.onceFault x.1 x.2.1 x.2.2
        | .ok ss, .ok rs =>
          c.present (FarCall.plain t.toNat (.coll (bits (dword (c.words a 8) 5) 7 0))) none
            (c.joinColl (FarCall.plain t.toNat (.coll (bits (dword (c.words a 8) 5) 7 0))) (c.words a 8) (c.collEntry a) ss rs))) :=
  withIssue_some hs _

/-- The queue to peer is full, or the counter of the request is. -/
def Ctx.qsendWaits (c : Ctx) (w : List Word) : Option State :=
  if 16 ≤ ((c.s.part c.part).sendQueue (qsendPeer w)).length then some (c.park (.qfull (qsendPeer w)))
  else match qsendCounter w with
    | some k => if c.g.counter k = 4095 then some c.waitHere else none
    | none => none

theorem exec_qsend (hs : c.s.issuing = some c) (a : RegField) (t : ByteField) :
    exec (.qsend a t) c.s = c.run (c.farStop (blockOk a 48) t (sregs (sreg a) 8) (operandStop (qsendOk c.s.pkg (c.words a 8)) <|>
        c.allStoresFirst))
      (c.onceDo
        (if (c.s.domain c.part (qsendPeer (c.words a 8))).isNone then c.onceFault Cause.permission (qsendDst (c.words a 8))
         else match c.s.runs c.part (qsendSrc (c.words a 8)) (dword (c.words a 8) 4) Need.load with
           | .error x => c.onceFault x.1 x.2.1 x.2.2
           | .ok rs => c.present (FarCall.plain t.toNat (.qsend (qsendPeer (c.words a 8)) (qsendCounter (c.words a 8))))
              (c.qsendWaits (c.words a 8))
              (c.enqueue (FarCall.plain t.toNat (.qsend (qsendPeer (c.words a 8)) (qsendCounter (c.words a 8)))) (c.words a 8) rs))) :=
  withIssue_some hs _

theorem exec_collq (hs : c.s.issuing = some c) (d a : RegField) :
    exec (.collq d a) c.s = c.run (c.onceStop (scalarDst d && scalarOk a)
        (decide ((c.readS a).toNat < 256) && (c.s.commEntry c.part (c.readS a).toNat).p != 0) true (regsOf a false)
        [] [] (regsOf d false))
      (c.scalarResult d (BitVec.ofNat 32 (((c.s.part c.part).comm (c.readS a).toNat).ended % 65536 +
        65536 * (((c.s.part c.part).comm (c.readS a).toNat).waiting.length % 4096) +
          2 ^ 28 * ((c.s.part c.part).comm (c.readS a).toNat).mis.toNat))) := withIssue_some hs _

theorem exec_qstat (hs : c.s.issuing = some c) (d a : RegField) :
    exec (.qstat d a) c.s = c.run (c.onceStop (scalarDst d && scalarOk a)
        (decide ((c.readS a).toNat < 1024) && (c.s.domain c.part (c.readS a).toNat).isSome) true (regsOf a false)
        [] [] (regsOf d false))
      (c.scalarResult d (BitVec.ofNat 32 (((c.s.part c.part).sendQueue (c.readS a).toNat).length +
        32 * (c.s.reaches (c.readS a).toNat).toNat + 64 * (c.s.sendsTo (c.readS a).toNat).toNat +
          256 * queueRem ((c.s.part c.part).sendQueue (c.readS a).toNat)))) := withIssue_some hs _

theorem exec_cslot (hs : c.s.issuing = some c) (d : RegField) :
    exec (.cslot d) c.s = c.run (c.onceStop (pairOk d) true true [] [] [] (regsOf d true))
      (c.onceDo (c.next c.s (c.g.writeNow
        [(.s (sreg d), BitVec.ofNat 32 c.s.rot.low), (.s (sreg d + 1), c.s.rot.rot)]))) := withIssue_some hs _

/-- The gang whose counter, if it names one, counts one request more. -/
def Ctx.counted (c : Ctx) (w : List Word) : Gang := match qsendCounter w with
  | some k => c.g.putCounter k (c.g.counter k + 1)
  | none => c.g

/-- What an accepted QSEND leaves (R372). -/
theorem Ctx.enqueue_entered (c : Ctx) (n : Nat) (f : FarKind) (w : List Word) (rs : List (Nat × Nat)) :
    let t := c.enqueue (FarCall.plain n f) w rs
    c.tookRequest n t f (c.counted w) ∧
    (t.part c.part).sendQueue (qsendPeer w) = (c.s.part c.part).sendQueue (qsendPeer w) ++
      [({ req := c.s.next, part := (c.s.domain c.part (qsendPeer w)).getD 0, src := rs, dst := qsendDst w, len := dword w 4,
          note := qsendNote w, va := qsendSrc w, nva := qsendNva w, sent := 0 } : QDesc)] := by
  have hsame : (c.counted w).groups = c.g.groups ∧ ∀ x, (c.counted w).settled x = c.g.settled x := by
    unfold Ctx.counted
    split
    · exact ⟨rfl, Gang.settled_congr rfl rfl rfl rfl⟩
    · exact ⟨rfl, fun _ => rfl⟩
  refine ⟨Ctx.tookRequest_keeps (c.tookRequest_acceptIn hsame.1 hsame.2) (State.keepsAccepted_of_eq rfl rfl rfl), ?_⟩
  refine (congrArg (fun p : Partition => p.sendQueue (qsendPeer w)) ((State.part_putPart _ _ _ _).trans (if_pos rfl))).trans ?_
  exact Tbl.get_set_same ([] : List QDesc) _ _ _

/-- Two neighbouring scalar registers written at once. -/
theorem Ctx.wroteAt_pair (c : Ctx) (i : Nat) (v v' : Word) :
    c.wroteAt [(.s i, v), (.s (i + 1), v')] (c.next c.s (c.g.writeNow [(.s i, v), (.s (i + 1), v')])) := by
  refine Ctx.went_congr (Gang.rest_writeNow _ _) (fun e => ?_) (went_next c c.s _ (Gang.groups_writeNow _ _))
  rw [Gang.settled_writeNow]
  by_cases h : RegElem.s i = e
  · subst h
    simp [overwritten, RegElem.holds]
  · by_cases h' : RegElem.s (i + 1) = e
    · subst h'
      simp [overwritten, RegElem.holds]
    · simp [overwritten, h, h']

end

/-- Settles O47: each word under once() and without it, on a foreign tag, on a full queue, and accepted. -/
theorem collectivesAndSendsAreEntered : Obligations.CollectivesAndSendsAreEntered := by
  unfold Obligations.CollectivesAndSendsAreEntered
  intro s c d a t hs
  obtain rfl := State.issuing_state hs
  dsimp only
  refine ⟨fun stop => ⟨fun off => ?_, State.commEntry_table (Ctx.collStop_commOk stop), fun ss rs on hss hrs => ⟨fun hf => ?_,
      fun hf hp => ?_⟩⟩, fun stop => ⟨fun off => ?_, fun on => ?_⟩,
    fun stop wait => ?_, fun stop => ⟨fun off => ?_, fun on => ?_⟩, fun stop => ⟨fun off => ?_, fun on => ?_⟩⟩
  · exact gives_run (exec_coll hs a t) stop (Ctx.wrote_onceDo off _)
  · rw [exec_coll hs, stop, Ctx.onceDo_true on, hss, hrs]
    exact congrArg Host.Outcome.next (Ctx.present_foreign hf _ _)
  · refine gives_run (exec_coll hs a t) stop ?_
    rw [Ctx.onceDo_true on, hss, hrs]
    dsimp only
    rw [Ctx.present_plain hf hp rfl, Option.getD_none]
    obtain ⟨htook, hacc, hq⟩ := c.joinColl_joined t.toNat (.coll (bits (dword (c.words a 8) 5) 7 0)) (c.words a 8)
      (c.collEntry a) ss rs
    exact ⟨htook, hacc, c.collMsg (c.words a 8) (c.collEntry a) ss, rfl, rfl, rfl, rfl, rfl, rfl, rfl, rfl, rfl, rfl, rfl, hq⟩
  · refine gives_run (exec_collq hs d a) stop ?_
    rw [Ctx.scalarResult, off, if_neg Bool.false_ne_true]
    exact c.wrote_skip
  · exact gives_run (exec_collq hs d a) stop (Ctx.wroteAt_scalarResult on d _)
  · have hstop : c.farStop (blockOk a 48) t (sregs (sreg a) 8) (operandStop (qsendOk c.s.pkg (c.words a 8)) <|>
        c.allStoresFirst) = none := by
      simp only [Ctx.farStop, orElse_none] at stop ⊢
      refine ⟨stop.1, ?_⟩
      split
      · next on => exact orElse_none.mpr ⟨by simpa [on] using stop.2, wait⟩
      · rfl
    refine ⟨fun off => gives_run (exec_qsend hs a t) hstop (Ctx.wrote_onceDo off _), fun on hnone => ?_,
      fun rs on hsome hrs => ⟨fun hf => ?_, fun hf hp hfull => ?_, fun hf hp hroom hk => ?_⟩⟩
    · rw [exec_qsend hs, hstop, Ctx.onceDo_true on, hnone]
      rfl
    · rw [exec_qsend hs, hstop, Ctx.onceDo_true on, if_neg (by simpa [Option.isSome_iff_ne_none] using hsome), hrs]
      exact congrArg Host.Outcome.next (Ctx.present_foreign hf _ _)
    · refine gives_run (exec_qsend hs a t) hstop ?_
      rw [Ctx.onceDo_true on, if_neg (by simpa [Option.isSome_iff_ne_none] using hsome), hrs]
      dsimp only
      rw [Ctx.present_plain hf hp rfl, Ctx.qsendWaits, if_pos hfull]
      exact Ctx.parked_park _ (State.issuing_gang hs)
    · have hroom' : c.qsendWaits (c.words a 8) = none := by
        rw [Ctx.qsendWaits, if_neg (Nat.not_le.mpr hroom)]
        split
        · next k hkc => rw [if_neg (hk k hkc)]
        · rfl
      refine gives_run (exec_qsend hs a t) hstop ?_
      rw [Ctx.onceDo_true on, if_neg (by simpa [Option.isSome_iff_ne_none] using hsome), hrs]
      dsimp only
      rw [Ctx.present_plain hf hp rfl, hroom']
      exact c.enqueue_entered t.toNat _ _ _
  · refine gives_run (exec_qstat hs d a) stop ?_
    rw [Ctx.scalarResult, off, if_neg Bool.false_ne_true]
    exact c.wrote_skip
  · exact gives_run (exec_qstat hs d a) stop (Ctx.wroteAt_scalarResult on d _)
  · exact gives_run (exec_cslot hs d) stop (Ctx.wrote_onceDo off _)
  · refine gives_run (exec_cslot hs d) stop ?_
    rw [Ctx.onceDo_true on]
    exact c.wroteAt_pair _ _ _

end Sys2Proof.Machine
end

section
/-! PROOFS. The end of a team, and a cancelled launch (R301, R302, R424). -/

namespace Sys2Proof.Machine

section
variable {s t u : State}

theorem State.foldl_dropGang_gangs (l : List Nat) (s : State) : ∃ gs, l.foldl State.dropGang s = { s with gangs := gs } ∧
    ∀ i, i ∉ l → Tbl.get none gs i = s.gang? i := by
  induction l generalizing s with
  | nil => exact ⟨s.gangs, rfl, fun _ _ => rfl⟩
  | cons j l ih =>
    obtain ⟨gs, h, hg⟩ := ih (s.dropGang j)
    refine ⟨gs, h, fun i hi => ?_⟩
    rw [hg i (fun hm => hi (List.mem_cons_of_mem _ hm))]
    exact (Tbl.get_set_other none s.gangs none (List.ne_of_not_mem_cons hi) :)

/-- The end of all of a team touches the gangs of that team alone. -/
theorem State.endAll_shape (s : State) (team : Nat) (x : Team) : ∃ gs hs,
    s.endAll team x = { s with
      gangs := gs, holds := hs
      teams := Tbl.set none s.teams team (some x.stoppedOf)
      parts := (State.vacate (s.modPart x.part x.freeArea) team x).parts } ∧
    ∀ i g, s.gang? i = some g → g.team ≠ team → Tbl.get none gs i = some g := by
  obtain ⟨gs1, hmod⟩ := s.modTeamGangs_with team Gang.stoppedWith
  have hgang1 : ∀ i g, s.gang? i = some g → g.team ≠ team → Tbl.get none gs1 i = some g := fun i g hg hne => by
    have := State.gang?_modTeamGangs_eq s team Gang.stoppedWith i
    rw [hg, Option.map_some, if_neg hne, hmod] at this
    exact this
  obtain ⟨hs, hfold⟩ := State.foldl_dropHolds (((s.modTeamGangs team Gang.stoppedWith).teamGangs team).map (fun e => e.1))
    (s.modTeamGangs team Gang.stoppedWith)
  generalize hs4 : State.vacate ((State.modPart { s.modTeamGangs team Gang.stoppedWith with holds := hs } x.part
    x.freeArea).putTeam team x.stoppedOf) team x = s4
  have hend : s.endAll team x = if x.status == .saved then ((s4.teamGangs team).map (fun e => e.1)).foldl State.dropGang s4 else s4 := by
    rw [← hs4, ← hfold]
    rfl
  have hform : s4 = { s with
      gangs := gs1, holds := hs
      teams := Tbl.set none s.teams team (some x.stoppedOf)
      parts := (State.vacate (s.modPart x.part x.freeArea) team x).parts } := by
    rw [← hs4, hmod]
    rfl
  by_cases hsaved : (x.status == .saved) = true
  · obtain ⟨gs2, hdrop, hgang2⟩ := State.foldl_dropGang_gangs ((s4.teamGangs team).map (fun e => e.1)) s4
    refine ⟨gs2, hs, ?_, fun i g hg hne => ?_⟩
    · rw [hend, if_pos hsaved, hdrop]
      rw [hform]
    · have hi : s4.gang? i = some g := by
        rw [State.gang?, hform]
        exact hgang1 i g hg hne
      rw [hgang2 i, hi]
      intro hm
      obtain ⟨e, he, rfl⟩ := List.mem_map.mp hm
      obtain ⟨hl, hteam⟩ := List.mem_filter.mp he
      have := mem_listed hl
      rw [State.gang?, this] at hi
      obtain rfl := Option.some.inj hi
      exact hne (by simpa using hteam)
  · exact ⟨gs1, hs, by rw [hend, if_neg hsaved, hform], hgang1⟩

/-! ### What others keep -/

/-- A gang but for its events on their way. -/
def Gang.unlatched (g : Gang) : Gang := { g with evpend := 0 }

/-- Team n and the gang i of it stand in t as in s, but for events latched. -/
structure State.spares (n i : Nat) (s t : State) : Prop where
  team : t.team? n = s.team? n
  gang : ∀ g, s.gang? i = some g → g.team = n → ∃ g', t.gang? i = some g' ∧ g'.unlatched = g.unlatched

theorem State.spares.refl (n i : Nat) (s : State) : State.spares n i s s := ⟨rfl, fun g hg _ => ⟨g, hg, rfl⟩⟩

theorem State.spares.trans {n i : Nat} (h : State.spares n i s t) (h' : State.spares n i t u) : State.spares n i s u := by
  refine ⟨h'.team.trans h.team, fun g hg hn => ?_⟩
  obtain ⟨g1, hg1, e1⟩ := h.gang g hg hn
  obtain ⟨g2, hg2, e2⟩ := h'.gang g1 hg1 ((congrArg Gang.team e1 :).trans hn)
  exact ⟨g2, hg2, e2.trans e1⟩

theorem State.spares.of_eq {n i : Nat} (ht : t.teams = s.teams) (hg : t.gangs = s.gangs) : State.spares n i s t :=
  ⟨by rw [State.team?, ht, State.team?], fun g h _ => ⟨g, by rw [State.gang?, hg]; exact h, rfl⟩⟩

/-! ### Launches that go on -/

/-- l' is l, or l cancelled (R301). -/
def Launch.wentOn (l l' : Launch) : Prop :=
  (l'.total = l.total ∧ l'.preds = l.preds) ∧ (l'.cancelled = l.cancelled ∧ l'.nextTid = l.nextTid ∨
    l.cancelled = false ∧ l'.cancelled = true ∧ l'.nextTid = l.total)

theorem Launch.wentOn.refl (l : Launch) : l.wentOn l := ⟨⟨rfl, rfl⟩, .inl ⟨rfl, rfl⟩⟩

theorem Launch.wentOn.trans {l l' l'' : Launch} (h : l.wentOn l') (h' : l'.wentOn l'') : l.wentOn l'' := by
  obtain ⟨⟨ht, hp⟩, hc⟩ := h
  obtain ⟨⟨ht', hp'⟩, hc'⟩ := h'
  refine ⟨⟨ht'.trans ht, hp'.trans hp⟩, ?_⟩
  rcases hc with ⟨c, n⟩ | ⟨c0, c, n⟩ <;> rcases hc' with ⟨c', n'⟩ | ⟨c0', c', n'⟩
  · exact .inl ⟨c'.trans c, n'.trans n⟩
  · exact .inr ⟨c.symm.trans c0', c', n'.trans ht⟩
  · exact .inr ⟨c0, c'.trans c, n'.trans n⟩
  · rw [c] at c0'
    cases c0'

/-- Every launch of s has gone on in t. -/
def State.launchesGoOn (s t : State) : Prop := ∀ id l, s.launch? id = some l → ∃ l', t.launch? id = some l' ∧ l.wentOn l'

theorem State.launchesGoOn.refl (s : State) : s.launchesGoOn s := fun _ l hl => ⟨l, hl, .refl l⟩

theorem State.launchesGoOn.trans (h : s.launchesGoOn t) (h' : t.launchesGoOn u) : s.launchesGoOn u := fun id l hl => by
  obtain ⟨l1, h1, w1⟩ := h id l hl
  obtain ⟨l2, h2, w2⟩ := h' id l1 h1
  exact ⟨l2, h2, w1.trans w2⟩

theorem State.launchesGoOn.of_eq (h : t.launches = s.launches) : s.launchesGoOn t := fun id l hl =>
  ⟨l, by rw [State.launch?, h]; exact hl, .refl l⟩

theorem State.launchesGoOn.putLaunch {id : Nat} {l l' : Launch} (hl : s.launch? id = some l) (h : l.wentOn l') :
    s.launchesGoOn (s.putLaunch id l') := fun n x hx => by
  by_cases hn : n = id
  · subst hn
    obtain rfl : l = x := Option.some.inj (hl.symm.trans hx)
    exact ⟨l', State.launch?_putLaunch_same _ _ _, h⟩
  · exact ⟨x, by rw [State.launch?_putLaunch_other _ _ hn]; exact hx, .refl x⟩

/-! ### A victim that is dropped, a launch that is cancelled -/

/-- The vault, and every launch, which goes on. -/
def State.cancels (s t : State) : Prop := t.vault = s.vault ∧ s.launchesGoOn t

theorem State.cancels.trans (h : s.cancels t) (h' : t.cancels u) : s.cancels u := ⟨h'.1.trans h.1, h.2.trans h'.2⟩

theorem State.cancels_teamGone (s : State) (x : Team) (counted stopped : Bool) : s.cancels (s.teamGone x counted stopped) := by
  obtain ⟨ls, clocks, h⟩ := s.teamGone_shape x counted stopped
  refine ⟨by rw [h], ?_⟩
  unfold State.teamGone State.modLaunch
  split
  · next l hl => exact State.launchesGoOn.trans (.of_eq (t := s.releaseToIod) rfl) (.putLaunch hl ⟨⟨rfl, rfl⟩, .inl ⟨rfl, rfl⟩⟩)
  · exact .of_eq rfl

theorem State.cancels_dropVictim (s : State) (team : Nat) : s.cancels (s.dropVictim team) := by
  unfold State.dropVictim
  split
  · exact ⟨rfl, .refl s⟩
  · next x _ =>
    split
    · obtain ⟨gs, hs, h, -⟩ := s.endAll_shape team x
      refine State.cancels.trans (t := s.endAll team x) ⟨by rw [h], ?_⟩ (State.cancels_teamGone _ _ _ _)
      rw [h]
      exact .of_eq rfl
    · exact ⟨rfl, .refl s⟩

theorem State.spares_dropVictim {n i : Nat} (s : State) {team : Nat} (hn : team ≠ n) : State.spares n i s (s.dropVictim team) := by
  unfold State.dropVictim
  split
  · exact .refl n i s
  · next x _ =>
    split
    · obtain ⟨gs, hs, h, hg⟩ := s.endAll_shape team x
      obtain ⟨ls, clocks, hgone⟩ := (s.endAll team x).teamGone_shape x false false
      refine State.spares.trans (t := s.endAll team x) ?_ (by rw [hgone]; exact .of_eq rfl rfl)
      rw [h]
      exact ⟨(Tbl.get_set_other none s.teams (some x.stoppedOf) hn.symm :), fun g hgi ht => ⟨g, hg i g hgi (by rw [ht]; exact hn.symm), rfl⟩⟩
    · exact .refl n i s

theorem State.spares_latch {n i : Nat} (s : State) (team : Nat) :
    State.spares n i s (s.modTeamGangs team (fun g => if g.ended then g else g.latch 16)) := by
  refine ⟨State.modTeamGangs_team? _ _ _ _, fun g hg _ => ?_⟩
  rw [State.gang?_modTeamGangs_eq, hg, Option.map_some]
  refine ⟨_, rfl, ?_⟩
  split_ifs <;> rfl

theorem State.cancels_modTeamGangs (s : State) (team : Nat) (f : Gang → Gang) : s.cancels (s.modTeamGangs team f) := by
  obtain ⟨gs, h⟩ := s.modTeamGangs_with team f
  rw [h]
  exact ⟨rfl, .of_eq rfl⟩

/-- The launch as its cancel leaves it (R302). -/
def Launch.cancel (l : Launch) : Launch := { l with cancelled := true, gone := l.gone + (l.total - l.nextTid), nextTid := l.total }

/-- What a cancel does to one team of its launch. -/
def State.cancelTeam (s : State) (e : Nat × Team) : State :=
  if e.2.victim && (e.2.status == .running || e.2.status == .saved) then s.dropVictim e.1
  else if e.2.status == .running then s.modTeamGangs e.1 (fun g => if g.ended then g else g.latch 16)
  else s

theorem State.cancelLaunch_some {id : Nat} {l : Launch} (hl : s.launch? id = some l) (hc : l.cancelled = false) :
    s.cancelLaunch id = ((s.putLaunch id l.cancel).launchTeams id).foldl State.cancelTeam (s.putLaunch id l.cancel) := by
  rw [State.cancelLaunch, hl]
  dsimp only
  rw [hc, if_neg Bool.false_ne_true]
  rfl

theorem State.cancels_cancelTeam (s : State) (e : Nat × Team) : s.cancels (s.cancelTeam e) := by
  unfold State.cancelTeam
  split_ifs
  · exact s.cancels_dropVictim _
  · exact s.cancels_modTeamGangs _ _
  · exact ⟨rfl, .refl s⟩

theorem State.cancels_foldl {α : Type} (l : List α) {f : State → α → State} (h : ∀ (v : State) a, v.cancels (f v a)) (s : State) :
    s.cancels (l.foldl f s) :=
  List.foldlRecOn l f (motive := fun v => s.cancels v) ⟨rfl, .refl s⟩ (fun _ hv a _ => hv.trans (h _ a))

theorem State.cancels_cancelLaunch (s : State) (id : Nat) : s.cancels (s.cancelLaunch id) := by
  cases hl : s.launch? id with
  | none =>
    rw [State.cancelLaunch, hl]
    exact ⟨rfl, .refl s⟩
  | some l =>
    cases hc : l.cancelled with
    | true =>
      rw [State.cancelLaunch, hl]
      simp only [hc, if_true]
      exact ⟨rfl, .refl s⟩
    | false =>
      rw [State.cancelLaunch_some hl hc]
      exact State.cancels.trans (t := s.putLaunch id l.cancel) ⟨rfl, .putLaunch hl ⟨⟨rfl, rfl⟩, .inr ⟨hc, rfl, rfl⟩⟩⟩
        (State.cancels_foldl _ State.cancels_cancelTeam _)

/-- What a cancel does to the teams of its launch leaves every other launch. -/
theorem State.launch?_cancelTeams {id j : Nat} (hj : j ≠ id) (s : State) :
    ((s.launchTeams id).foldl State.cancelTeam s).launch? j = s.launch? j := by
  have keep : ∀ (v : State) (e : Nat × Team), (∀ n x, v.team? n = some x → ∃ x0, s.team? n = some x0 ∧ x.launch = x0.launch) →
      e ∈ s.launchTeams id → (v.cancelTeam e).launch? j = v.launch? j ∧
        ∀ n x, (v.cancelTeam e).team? n = some x → ∃ x0, s.team? n = some x0 ∧ x.launch = x0.launch := by
    intro v e hv he
    obtain ⟨hl, hlaunch⟩ := List.mem_filter.mp he
    have hteam : s.team? e.1 = some e.2 := mem_listed hl
    have hlaunch : e.2.launch = id := by simpa using hlaunch
    unfold State.cancelTeam
    split_ifs
    · unfold State.dropVictim
      split
      · exact ⟨rfl, hv⟩
      · next x hx =>
        have hxl : x.launch = id := by
          obtain ⟨x0, hx0, h0⟩ := hv e.1 x hx
          rw [h0, ← hlaunch, Option.some.inj (hx0.symm.trans hteam)]
        split
        · obtain ⟨gs, hs, h, -⟩ := v.endAll_shape e.1 x
          have hgone : ∀ u : State, (u.teamGone x false false).launch? j = u.launch? j := fun u => by
            unfold State.teamGone State.modLaunch
            split
            · exact State.launch?_putLaunch_other _ _ (hxl.symm ▸ hj)
            · rfl
          refine ⟨(hgone _).trans (by rw [h]; rfl), fun n y hy => ?_⟩
          obtain ⟨ls, clocks, hshape⟩ := (v.endAll e.1 x).teamGone_shape x false false
          have hy' : (v.endAll e.1 x).team? n = some y := by
            rw [hshape] at hy
            exact hy
          rw [State.team?_endAll] at hy'
          split at hy'
          · next hn =>
            subst hn
            obtain rfl := Option.some.inj hy'
            obtain ⟨x0, hx0, h0⟩ := hv e.1 x hx
            exact ⟨x0, hx0, h0⟩
          · exact hv n y hy'
        · exact ⟨rfl, hv⟩
    · obtain ⟨gs, h⟩ := v.modTeamGangs_with e.1 (fun g => if g.ended then g else g.latch 16)
      rw [h]
      exact ⟨rfl, hv⟩
    · exact ⟨rfl, hv⟩
  exact (List.foldlRecOn (s.launchTeams id) State.cancelTeam (motive := fun v => v.launch? j = s.launch? j ∧
    ∀ n x, v.team? n = some x → ∃ x0, s.team? n = some x0 ∧ x.launch = x0.launch) ⟨rfl, fun n x hx => ⟨x, hx, rfl⟩⟩
    (fun v hv e he => ⟨(keep v e hv.2 he).1.trans hv.1, (keep v e hv.2 he).2⟩)).1

theorem State.launch?_cancelLaunch_other {id j : Nat} (hj : j ≠ id) (s : State) : (s.cancelLaunch id).launch? j = s.launch? j := by
  cases hl : s.launch? id with
  | none => rw [State.cancelLaunch, hl]
  | some l =>
    cases hc : l.cancelled with
    | true =>
      rw [State.cancelLaunch, hl]
      simp only [hc, if_true]
    | false =>
      rw [State.cancelLaunch_some hl hc, State.launch?_cancelTeams hj]
      exact State.launch?_putLaunch_other _ _ hj

/-- The launch has been cancelled. -/
theorem State.cancelLaunch_cancelled {id : Nat} {l : Launch} (hl : s.launch? id = some l) :
    ∃ l', (s.cancelLaunch id).launch? id = some l' ∧ l'.cancelled = true := by
  cases hc : l.cancelled with
  | true =>
    refine ⟨l, ?_, hc⟩
    rw [State.cancelLaunch, hl]
    simp only [hc, if_true]
    exact hl
  | false =>
    rw [State.cancelLaunch_some hl hc]
    obtain ⟨l', hl', hw⟩ := (State.cancels_foldl ((s.putLaunch id l.cancel).launchTeams id) State.cancels_cancelTeam
      (s.putLaunch id l.cancel)).2 id l.cancel (State.launch?_putLaunch_same _ _ _)
    refine ⟨l', hl', ?_⟩
    rcases hw.2 with ⟨h, -⟩ | ⟨-, h, -⟩
    · exact h
    · exact h

/-- A cancel spares a gang whose team is no victim. -/
theorem State.spares_cancelLaunch {n i : Nat} (s : State) (id : Nat) (hv : ∀ tm, s.team? n = some tm → tm.victim = false) :
    State.spares n i s (s.cancelLaunch id) := by
  cases hl : s.launch? id with
  | none =>
    rw [State.cancelLaunch, hl]
    exact .refl n i s
  | some l =>
    cases hc : l.cancelled with
    | true =>
      rw [State.cancelLaunch, hl]
      simp only [hc, if_true]
      exact .refl n i s
    | false =>
      rw [State.cancelLaunch_some hl hc]
      refine State.spares.trans (t := s.putLaunch id l.cancel) (.of_eq rfl rfl)
        (List.foldlRecOn _ _ (motive := fun v => State.spares n i _ v) (.refl n i _) (fun v hspare e he => hspare.trans ?_))
      have hteam : s.team? e.1 = some e.2 := mem_listed (List.mem_filter.mp he).1
      unfold State.cancelTeam
      split_ifs with h1
      · refine State.spares_dropVictim _ (fun hn => ?_)
        rw [hn] at hteam
        simp [hv _ hteam] at h1
      · exact State.spares_latch _ _
      · exact .refl n i v

end

end Sys2Proof.Machine
end

section
/-! PROOFS. WORKGET, LAUNCH, CANCEL and CNTRD (R300-R303, R340-R343). -/

namespace Sys2Proof.Machine

/-! ### Bytes written at once -/

theorem leBytes_leNat : ∀ bs : List Byte, leBytes bs.length (leNat bs) = bs
  | [] => rfl
  | b :: bs => by
    have hb : b.toNat < 256 := b.isLt
    rw [List.length_cons, leBytes, leNat]
    refine congrArg₂ List.cons ?_ ?_
    · refine BitVec.eq_of_toNat_eq ?_
      rw [BitVec.toNat_ofNat]
      omega
    · have hrest : (b.toNat + 256 * leNat bs) / 256 = leNat bs := by omega
      rw [hrest]
      exact leBytes_leNat bs

theorem State.vault_breakReserve (s : State) (gr : Nat) (a : Actor) : (s.breakReserve gr a).vault = s.vault :=
  List.foldlRecOn (listed s.gangs) _ (motive := fun v : State => v.vault = s.vault) rfl (fun v hv e _ => by
    dsimp only
    split
    · exact hv
    · exact hv)

theorem State.vault_applyAt (s : State) (actor : Actor) (pa size v : Nat) (stamp : List (BitVec 16)) :
    (s.applyAt actor pa size v stamp).vault = Memory.writeNat s.vault pa size v :=
  List.foldlRecOn (granulesOf pa size) _ (motive := fun u : State => u.vault = Memory.writeNat s.vault pa size v) rfl
    (fun _ hu _ _ => (State.vault_breakReserve _ _ _).trans hu)

theorem State.vault_writeAtOnce (s : State) (actor : Actor) (agent pa : Nat) (bs : List Byte) :
    (s.writeAtOnce actor agent pa bs).vault = Memory.writeBytes s.vault pa bs :=
  (State.vault_applyAt _ _ _ _ _ _).trans (congrArg (Memory.writeBytes s.vault pa) (leBytes_leNat bs))

/-! ### WORKGET -/

/-- Every byte of zeros reads 0. -/
theorem Memory.readNat_zeros (m : Memory) (off : Nat) {i : Nat} (hi : i < 16) :
    Memory.readNat (Memory.writeNat m off 16 0) (off + i) 1 = 0 := by
  have hbyte : Memory.readByte (Memory.writeNat m off 16 0) (off + i) = (leBytes 16 0)[i]'(by rwa [leBytes_length]) :=
    Memory.readByte_writeBytes_same m off i (leBytes 16 0) (by rwa [leBytes_length])
  have hzero : ∀ b ∈ leBytes 16 0, b = 0 := by decide
  rw [Memory.readNat, Memory.readBytes, hbyte, hzero _ (List.getElem_mem _)]
  rfl

theorem padOffset_16 (p : Nat) (x : Word) : padOffset p 16 x.toNat = x.toNat % p / 16 * 16 := by
  rw [padOffset, Nat.mod_eq_of_lt x.isLt]
  have := Nat.div_add_mod (x.toNat % p) 16
  omega

section
variable {c : Ctx}

theorem exec_workget (hs : c.s.issuing = some c) (a : RegField) :
    exec (.workget a) c.s = c.run (c.onceStop (scalarOk a) (c.padAlloc != 0) true (regsOf a false) [] [] [] <|>
        (if c.once then c.ownPadFirst else none))
      (c.onceDo (if c.g.workget.isSome then c.park .workget
        else State.padWrite (c.next c.s { c.g with workget := some (padOffset c.padAlloc 16 (c.readS a).toNat) }) c.g.team c.g.core
          (padOffset c.padAlloc 16 (c.readS a).toNat) 16 0)) := withIssue_some hs _

theorem exec_launch (hs : c.s.issuing = some c) (a : RegField) :
    exec (.launch a) c.s = c.run (c.onceStop (blockOk a 48) (launchBlockOk (c.words a 8))
        (c.privileged || !(c.s.part c.part).privq.getLsbD (bits (dword (c.words a 8) 2) 4 0)) (sregs (sreg a) 8) [] [] [] <|>
        (if c.once then c.accessesFirst else none))
      (c.onceDo (match c.s.runs c.part (dword (c.words a 8) 0 + 2 ^ 32 * bits (dword (c.words a 8) 1) 23 0) 128 Need.load with
        | .error e => c.onceFault e.1 e.2.1 e.2.2
        | .ok rs => c.launchFrom (bits (dword (c.words a 8) 2) 4 0) rs)) := withIssue_some hs _

theorem exec_cancel (hs : c.s.issuing = some c) (a : RegField) (code : ByteField) :
    exec (.cancel a code) c.s = c.run (check (Code.low2 code) Cause.illegalEncoding <|>
        c.onceStop (scalarOk a) (levelOk code (c.readS a).toNat) true (regsOf a false) [] [] [])
      (c.onceDo (((c.s.partLaunches c.part).filter (fun e => e.2.named code.toNat (c.readS a).toNat)).foldl (fun acc e =>
        acc.cancelLaunch e.1) c.skip)) := withIssue_some hs _

theorem exec_cntrd (hs : c.s.issuing = some c) (d a : RegField) (code : ByteField) {n : Nat}
    (hn : c.s.launchCounter c.part code.toNat (c.readS a).toNat = n) :
    exec (.cntrd d a code) c.s = c.run (check (Code.low2 code) Cause.illegalEncoding <|>
        c.onceStop (scalarDst d && scalarOk a) (levelOk code (c.readS a).toNat) true (regsOf a false) [] [] (regsOf d false))
      (c.onceDo (if n = 0 then (c.scalarResult d (BitVec.ofNat 32 n)).acquireFromIod c.agent
        else c.scalarResult d (BitVec.ofNat 32 n))) := by
  subst hn
  exact withIssue_some hs _

/-- What an accepted WORKGET leaves (R303). -/
theorem Ctx.workget_taken {tm : Team} {k : TeamCore} (ht : c.team = some tm) (hk : tm.onCore c.g.core = some k)
    (ha : tm.alloc ≠ 0) (off : Nat) :
    let t := State.padWrite (c.next c.s { c.g with workget := some off }) c.g.team c.g.core off 16 0
    t = { c.s with gangs := t.gangs, teams := t.teams } ∧
      (∀ i < 16, t.padRead c.g.team c.g.core (off + i) 1 = 0) ∧
      (∀ y, (y < off ∨ off + 16 ≤ y) → t.padRead c.g.team c.g.core y 1 = c.s.padRead c.g.team c.g.core y 1) ∧
      ∃ g', t.gang? c.id = some g' ∧ g'.rest = { c.g.rest with workget := some off } ∧
        g'.groups = c.groupsAt (c.pc + 4) ∧ ∀ e, g'.settled e = c.g.settled e := by
  intro t
  have hteam : (c.next c.s { c.g with workget := some off }).team? c.g.team = some tm := ht
  have hframe := State.padWrite_frame hteam c.g.core off 16 0
  have hgangs : t.gangs = (c.next c.s { c.g with workget := some off }).gangs := (congrArg State.gangs hframe :)
  refine ⟨by rw [hgangs]; exact hframe, fun i hi => ?_, fun y hy => State.padRead_padWrite_other hteam _ _ _ _ (fun _ => hy), ?_⟩
  · rw [State.padRead_padWrite hteam, if_neg ha, hk]
    dsimp only
    rw [if_pos rfl]
    exact Memory.readNat_zeros _ _ hi
  · obtain ⟨g', hnext, hrest, hgroups, hset⟩ := went_next c c.s { c.g with workget := some off } rfl
    refine ⟨g', ?_, hrest, hgroups, fun e => (hset e).trans ?_⟩
    · rw [State.gang?, hgangs, hnext]
      exact State.gang?_putGang_same _ _ _
    · refine Gang.settled_congr ?_ ?_ ?_ ?_ e <;> rfl

/-! ### LAUNCH -/

/-- What a posted packet leaves (R340). -/
theorem Ctx.post_posted (c : Ctx) (q pa : Nat) (bs : List Byte) :
    let t := c.post q pa bs
    Memory.readBytes t.vault pa bs.length = bs ∧
    (∀ y, (y < pa ∨ pa + bs.length ≤ y) → Memory.readByte t.vault y = Memory.readByte c.s.vault y) ∧
    (t.part c.part).queue q = { (c.s.part c.part).queue q with wr := ((c.s.part c.part).queue q).wr + 1 } ∧
    ∃ g', t.gang? c.id = some g' ∧ g'.groups = c.groupsAt (c.pc + 4) ∧ ∀ e, g'.settled e = c.g.settled e := by
  intro t
  have hvault : t.vault = Memory.writeBytes c.s.vault pa bs := State.vault_writeAtOnce c.skip (.engine c.id) c.agent pa bs
  have hwrite := State.vaultOnly_writeAtOnce c.skip (.engine c.id) c.agent pa bs
  refine ⟨by rw [hvault, Memory.readBytes_writeBytes], fun y hy => by rw [hvault, Memory.readByte_writeBytes_other _ _ _ _ hy], ?_, ?_⟩
  · have hpart : (c.skip.writeAtOnce (.engine c.id) c.agent pa bs).part c.part = c.s.part c.part := hwrite.part c.part
    have hput : t.part c.part = ((c.skip.writeAtOnce (.engine c.id) c.agent pa bs).part c.part).putQueue q
        { ((c.skip.writeAtOnce (.engine c.id) c.agent pa bs).part c.part).queue q with
          wr := (((c.skip.writeAtOnce (.engine c.id) c.agent pa bs).part c.part).queue q).wr + 1 } :=
      (State.part_putPart _ _ _ _).trans (if_pos rfl)
    rw [hput, hpart]
    exact Tbl.get_set_same LaunchQueue.reset _ _ _
  · obtain ⟨g1, hskip, hrest, hgroups, hset⟩ := c.wrote_skip
    obtain ⟨g', hg', hun⟩ := hwrite.gang (id := c.id) (g := g1) (by rw [hskip]; exact State.gang?_putGang_same _ _ _)
    obtain ⟨e1, e2, e3⟩ := Gang.of_unreserved hun
    exact ⟨g', hg', e1.trans hgroups, fun e => (e3 e).trans (hset e)⟩

/-! ### CANCEL -/

/-- What two gangs that differ in their latched events alone have in common. -/
theorem Gang.of_unlatched {g h : Gang} (e : g.unlatched = h.unlatched) : g.groups = h.groups ∧ ∀ x, g.settled x = h.settled x :=
  ⟨(congrArg Gang.groups e :), Gang.settled_congr (congrArg Gang.pend e :) (congrArg Gang.v e :) (congrArg Gang.s e :)
    (congrArg Gang.p e :)⟩

/-- What a CANCEL of these launches leaves (R301, R302). -/
theorem State.cancels_all (l : List (Nat × Launch)) (s : State) :
    s.cancels (l.foldl (fun acc e => acc.cancelLaunch e.1) s) ∧
    ∀ e ∈ l, (∃ x, s.launch? e.1 = some x) →
      ∃ x', (l.foldl (fun acc e => acc.cancelLaunch e.1) s).launch? e.1 = some x' ∧ x'.cancelled = true := by
  induction l generalizing s with
  | nil => exact ⟨⟨rfl, .refl s⟩, by simp⟩
  | cons a l ih =>
    obtain ⟨hc, hall⟩ := ih (s.cancelLaunch a.1)
    have hfirst := s.cancels_cancelLaunch a.1
    refine ⟨hfirst.trans hc, fun e he hx => ?_⟩
    obtain ⟨x, hx⟩ := hx
    rcases List.mem_cons.mp he with rfl | he
    · obtain ⟨x1, hx1, hcan⟩ := State.cancelLaunch_cancelled hx
      obtain ⟨x2, hx2, hw⟩ := hc.2 e.1 x1 hx1
      refine ⟨x2, hx2, ?_⟩
      rcases hw.2 with ⟨h, -⟩ | ⟨-, h, -⟩
      · exact h.trans hcan
      · exact h
    · obtain ⟨x1, hx1, -⟩ := hfirst.2 e.1 x hx
      exact hall e he ⟨x1, hx1⟩

theorem State.spares_all {n i : Nat} (l : List (Nat × Launch)) (s : State) (hv : ∀ tm, s.team? n = some tm → tm.victim = false) :
    State.spares n i s (l.foldl (fun acc e => acc.cancelLaunch e.1) s) :=
  List.foldlRecOn l _ (motive := fun v => State.spares n i s v) (.refl n i s)
    (fun v h e _ => h.trans (v.spares_cancelLaunch e.1 (by rw [h.team]; exact hv)))

end

/-- Settles O52: each of the four words, under once() and without it. -/
theorem workInstructionsComplete : Obligations.WorkInstructionsComplete := by
  unfold Obligations.WorkInstructionsComplete
  intro s c d a code hs
  obtain rfl := State.issuing_state hs
  dsimp only
  refine ⟨fun stop first => ?workget, ⟨fun hi hb hw hp hq => ?denied, fun stop first => ⟨fun off => ?launchOff, ?launchOn⟩⟩,
    fun hcode stop => ⟨fun off => ?cancelOff, fun on => ?cancelOn⟩, fun hcode stop => ⟨fun off => ?cntrdOff, fun on => ?cntrdOn⟩⟩
  case workget =>
    have hstop : (c.onceStop (scalarOk a) (c.padAlloc != 0) true (regsOf a false) [] [] [] <|>
        (if c.once then c.ownPadFirst else none)) = none := orElse_none.mpr ⟨stop, by rw [first, ite_self]⟩
    refine ⟨fun off => gives_run (exec_workget hs a) hstop (Ctx.wrote_onceDo off _), fun off on hw => ?_, fun tm k on hw ht hk => ?_⟩
    · refine gives_run (exec_workget hs a) hstop ?_
      rw [Ctx.onceDo_true on, hw, Option.isSome_some, if_pos rfl]
      exact Ctx.parked_park _ (State.issuing_gang hs)
    · refine gives_run (exec_workget hs a) hstop ?_
      have halloc : c.padAlloc = tm.alloc := by rw [Ctx.padAlloc, ht]
      have ha : tm.alloc ≠ 0 := by
        rw [← halloc]
        obtain ⟨-, -, hv, -⟩ := Ctx.onceStop_none.mp stop
        simpa using hv
      rw [Ctx.onceDo_true on, hw, Option.isSome_none, if_neg Bool.false_ne_true, halloc, padOffset_16]
      exact Ctx.workget_taken ht hk ha _
  case denied =>
    have hstop : (c.onceStop (blockOk a 48) (launchBlockOk (c.words a 8))
        (c.privileged || !(c.s.part c.part).privq.getLsbD (bits (dword (c.words a 8) 2) 4 0)) (sregs (sreg a) 8) [] [] [] <|>
        (if c.once then c.accessesFirst else none)) = some (.trap Cause.privileged) := by
      rw [hb, hw, hp, hq]
      simp only [Ctx.onceStop, Ctx.onceChecks, List.append_nil, hi, check_true]
      rfl
    rw [exec_launch hs, hstop]
    rfl
  case launchOff =>
    exact gives_run (exec_launch hs a) (orElse_none.mpr ⟨stop, by rw [first, ite_self]⟩) (Ctx.wrote_onceDo off _)
  case launchOn =>
    intro rs on hrs hlen
    have hfirst : (if c.once then c.accessesFirst else none) = none := by rw [first, ite_self]
    have done : ∀ {P : State → Prop}, P (c.launchFrom (bits (dword (c.words a 8) 2) 4 0) rs) → Gives (.launch a) c.s P :=
      fun hP => gives_run (exec_launch hs a) (orElse_none.mpr ⟨stop, hfirst⟩) (by rw [Ctx.onceDo_true on, hrs]; exact hP)
    have hg : ({ c with s := c.s.mergeRuns c.agent rs } : Ctx).s.gang? c.id = some c.g := (State.issuing_gang hs :)
    refine ⟨fun hfull => done ?_, fun pa hroom hpa hready => done ?_, fun pa hroom hpa hready => done ?_⟩
    · rw [Ctx.launchFrom, if_pos hfull]
      exact Ctx.parked_park _ hg
    · rw [Ctx.launchFrom, if_neg (Nat.not_le.mpr hroom), hpa]
      dsimp only
      rw [hready, if_neg Bool.false_ne_true]
      exact Ctx.parked_park _ hg
    · rw [Ctx.launchFrom, if_neg (Nat.not_le.mpr hroom), hpa]
      dsimp only
      rw [hready, if_pos rfl]
      have hpost := Ctx.post_posted { c with s := c.s.mergeRuns c.agent rs } (bits (dword (c.words a 8) 2) 4 0) pa (c.s.readRuns rs)
      rw [hlen] at hpost
      exact hpost
  case cancelOff =>
    exact gives_run (exec_cancel hs a code) (orElse_none.mpr ⟨by rw [hcode]; rfl, stop⟩) (Ctx.wrote_onceDo off _)
  case cancelOn =>
    refine gives_run (exec_cancel hs a code) (orElse_none.mpr ⟨by rw [hcode]; rfl, stop⟩) ?_
    rw [Ctx.onceDo_true on]
    obtain ⟨hcancels, hall⟩ := State.cancels_all
      ((c.s.partLaunches c.part).filter (fun e => e.2.named code.toNat (c.readS a).toNat)) c.skip
    refine ⟨hcancels.1, fun id l hl hp hn => ?_, fun hv => ?_⟩
    · have hmem : (id, l) ∈ (c.s.partLaunches c.part).filter (fun e => e.2.named code.toNat (c.readS a).toNat) :=
        List.mem_filter.mpr ⟨List.mem_filter.mpr ⟨mem_listed_of_get hl, by simpa using hp⟩, hn⟩
      obtain ⟨x, hx, hcan⟩ := hall (id, l) hmem ⟨l, hl⟩
      obtain ⟨x', hx', hw⟩ := hcancels.2 id l hl
      obtain rfl : x = x' := Option.some.inj (hx.symm.trans hx')
      refine ⟨x, hx, hcan, fun hfresh => ?_⟩
      rcases hw.2 with ⟨h, -⟩ | ⟨-, -, h⟩
      · rw [hcan, hfresh] at h
        cases h
      · exact h
    · obtain ⟨g1, hskip, hrest, hgroups, hset⟩ := c.wrote_skip
      have hspare := State.spares_all (n := c.g.team) (i := c.id)
        ((c.s.partLaunches c.part).filter (fun e => e.2.named code.toNat (c.readS a).toNat)) c.skip hv
      obtain ⟨g', hg', hun⟩ := hspare.gang g1 (by rw [hskip]; exact State.gang?_putGang_same _ _ _) (congrArg Gang.team hrest :)
      obtain ⟨e1, e2⟩ := Gang.of_unlatched hun
      exact ⟨g', hg', e1.trans hgroups, fun e => (e2 e).trans (hset e)⟩
  case cntrdOff =>
    generalize hn : c.s.launchCounter c.part code.toNat (c.readS a).toNat = n
    exact gives_run (exec_cntrd hs d a code hn) (orElse_none.mpr ⟨by rw [hcode]; rfl, stop⟩) (Ctx.wrote_onceDo off _)
  case cntrdOn =>
    generalize hn : c.s.launchCounter c.part code.toNat (c.readS a).toNat = n
    refine gives_run (exec_cntrd hs d a code hn) (orElse_none.mpr ⟨by rw [hcode]; rfl, stop⟩) ?_
    rw [Ctx.onceDo_true on]
    have hwrote := Ctx.wroteAt_scalarResult on d (BitVec.ofNat 32 n)
    have hvc : (c.scalarResult d (BitVec.ofNat 32 n)).vc = c.s.vc := by
      rw [Ctx.scalarResult, if_pos on]
      rfl
    have hsame : ∀ t : State, t.vc = c.s.vc → ({ t with vc := c.s.vc } : State) = t := fun t h => by rw [← h]
    have hread : ({ c.scalarResult d (BitVec.ofNat 32 n) with vc := c.s.vc } : State) = c.scalarResult d (BitVec.ofNat 32 n) :=
      hsame _ hvc
    split
    · next h0 => exact ⟨by rw [← hread] at hwrote; exact hwrote, fun h => absurd h0 h⟩
    · exact ⟨by rw [hread]; exact hwrote, fun _ => hvc⟩

end Sys2Proof.Machine
end

section
/-! PROOFS. The distributor: packets, completions, WORKGET replies and the ends of gangs (R290-R296, R301, R303). -/

namespace Sys2Proof.Machine

/-! ### Records -/

/-- The machine but for what a record of the IOD agent and a fault queue's entry change. -/
def State.beyondRecords (s : State) : State :=
  { s with vreqs := [], iodq := [], vc := [], next := 0, parts := [], tlb := [], out := [] }

/-- t is s but for those, and the launch queues of every partition stand. -/
def State.records (s t : State) : Prop := t.beyondRecords = s.beyondRecords ∧ ∀ n, (t.part n).queues = (s.part n).queues

section
variable {s t u : State}

theorem State.records.refl (s : State) : s.records s := ⟨rfl, fun _ => rfl⟩

theorem State.records.trans (h : s.records t) (h' : t.records u) : s.records u :=
  ⟨h'.1.trans h.1, fun n => (h'.2 n).trans (h.2 n)⟩

theorem State.records.launches (h : s.records t) : t.launches = s.launches := (congrArg State.launches h.1 :)
theorem State.records.vault (h : s.records t) : t.vault = s.vault := (congrArg State.vault h.1 :)

theorem State.records_modPart (s : State) (n : Nat) {f : Partition → Partition} (hf : ∀ p, (f p).queues = p.queues) :
    s.records (s.modPart n f) := by
  refine ⟨rfl, fun m => ?_⟩
  rw [State.modPart, State.part_putPart]
  split
  · next h => rw [hf, h]
  · rfl

theorem State.records_iodStore (s : State) (pa : Nat) (bs : List Byte) (after : List Out) : s.records (s.iodStore pa bs after) := by
  obtain ⟨vs, q, clocks, n, h⟩ := s.iodStore_shape pa bs after
  rw [h]
  exact ⟨rfl, fun _ => rfl⟩

theorem State.records_cache (s : State) (part va : Nat) : s.records (s.cache part va) := by
  unfold State.cache
  split
  · exact .refl s
  · split <;> exact ⟨rfl, fun _ => rfl⟩

theorem State.records_queueNotice (s : State) (part : Nat) (bs : List Byte) : s.records (s.queueNotice part bs) := by
  unfold State.queueNotice
  split
  · exact s.records_modPart _ (fun _ => rfl)
  · have hput : ∀ v : State, s.records v → s.records (v.putPart part { s.part part with fqwr := (s.part part).fqwr + 1 }) := by
      refine fun v hv => hv.trans ⟨rfl, fun m => ?_⟩
      rw [State.part_putPart]
      split
      · next h => rw [h, hv.2]
      · rfl
    unfold State.queueFault
    refine hput _ ?_
    split
    · exact s.records_iodStore _ _ _
    · exact ⟨rfl, fun _ => rfl⟩

theorem State.records_writeCompletion (s : State) (part cpla lid : Nat) (bs : List Byte) (after : List Out) :
    s.records (s.writeCompletion part cpla lid bs after) := by
  unfold State.writeCompletion
  split
  · exact ⟨rfl, fun _ => rfl⟩
  · split
    · exact (s.records_cache part cpla).trans (State.records_iodStore _ _ _ _)
    · exact (s.records_queueNotice part _).trans ⟨rfl, fun _ => rfl⟩

/-! ### Successors -/

theorem State.releaseSuccessor_none {done status : Nat} {e : Nat × Launch} (h : done ∉ e.2.preds) :
    s.releaseSuccessor done status e = s := by
  rw [State.releaseSuccessor, if_pos (by simpa using h)]

/-- A launch is told of a completion once, and no other launch is told with it. -/
theorem State.releaseSuccessor_other {done status j : Nat} {e : Nat × Launch} (h : j ≠ e.1 ∨ done ∉ e.2.preds) :
    (s.releaseSuccessor done status e).launch? j = s.launch? j := by
  by_cases hd : done ∈ e.2.preds
  · have hj : j ≠ e.1 := h.resolve_right (fun hn => hn hd)
    rw [State.releaseSuccessor, if_neg (by simpa using hd)]
    dsimp only
    split
    · rw [State.launch?_cancelLaunch_other hj]
      exact State.launch?_putLaunch_other _ _ hj
    · exact State.launch?_putLaunch_other _ _ hj
  · rw [State.releaseSuccessor_none hd]

theorem Launch.wentOn.cancelled {l l' : Launch} (h : l.wentOn l') (hc : l.cancelled = true) : l'.cancelled = true := by
  rcases h.2 with ⟨h, -⟩ | ⟨-, h, -⟩
  · exact h.trans hc
  · exact h

/-- The launch has learned of a completion with this status: n is what it was (R296). -/
def State.told (s : State) (done status j : Nat) (n : Launch) : Prop :=
  ∃ n', s.launch? j = some n' ∧ n'.preds = n.preds.filter (· != done) ∧
    n'.cancelled = (n.cancelled || (decide (status ≠ 0) && !n.igncxl))

theorem State.releaseSuccessor_told {done status j : Nat} {n : Launch} (h : done ∈ n.preds) :
    (s.releaseSuccessor done status (j, n)).told done status j n := by
  rw [State.releaseSuccessor, if_neg (by simpa using h)]
  dsimp only
  have hput := State.launch?_putLaunch_same { s with next := s.next + 1 } j
    { n with preds := n.preds.filter (· != done), readyAt := if (n.preds.filter (· != done)).isEmpty then s.next else n.readyAt }
  split
  · next hc =>
    obtain ⟨n', hn', hw⟩ := (State.cancels_cancelLaunch _ j).2 j _ hput
    obtain ⟨n2, hn2, hcan⟩ := State.cancelLaunch_cancelled hput
    obtain rfl : n' = n2 := Option.some.inj (hn'.symm.trans hn2)
    refine ⟨n', hn', hw.1.2, ?_⟩
    rw [hcan]
    simp [hc.1, hc.2]
  · next hc =>
    refine ⟨_, hput, rfl, ?_⟩
    cases hi : n.igncxl
    · have : status = 0 := by simpa [hi] using hc
      simp [this]
    · simp

/-- All successors told: one that waits for the launch has learned of it, and no other has changed. -/
theorem State.foldl_releaseSuccessor {done status : Nat} (L : List (Nat × Launch)) (s : State) :
    (∀ j, (∀ e ∈ L, j ≠ e.1 ∨ done ∉ e.2.preds) →
      (L.foldl (fun acc e => acc.releaseSuccessor done status e) s).launch? j = s.launch? j) ∧
    ∀ j n, done ∈ n.preds → (∀ e ∈ L, j = e.1 → e.2 = n) → ((j, n) ∈ L ∨ s.told done status j n) →
      (L.foldl (fun acc e => acc.releaseSuccessor done status e) s).told done status j n := by
  induction L generalizing s with
  | nil => exact ⟨fun _ _ => rfl, fun j n _ _ h => by simpa using h⟩
  | cons a L ih =>
    obtain ⟨hother, htold⟩ := ih (s.releaseSuccessor done status a)
    refine ⟨fun j hj => ?_, fun j n hd heq hmem => ?_⟩
    · exact (hother j (fun e he => hj e (List.mem_cons_of_mem _ he))).trans
        (State.releaseSuccessor_other (hj a List.mem_cons_self))
    · refine htold j n hd (fun e he => heq e (List.mem_cons_of_mem _ he)) ?_
      by_cases hja : j = a.1
      · obtain rfl : a = (j, n) := Prod.ext hja.symm (heq a List.mem_cons_self hja)
        exact .inr (State.releaseSuccessor_told hd)
      · rcases hmem with hmem | ⟨n', hn', hp, hc⟩
        · exact .inl ((List.mem_cons.mp hmem).resolve_left (fun h => hja (congrArg Prod.fst h)))
        · exact .inr ⟨n', (State.releaseSuccessor_other (.inl hja)).trans hn', hp, hc⟩

/-! ### Completion -/

/-- The machine but for requests, Corbels and the count of free values. -/
def State.beyondCorbels (s : State) : State := { s with reqs := [], corbel := [], free := 0 }

theorem State.freeCorbels_shape (s : State) (launch : Nat) : ∃ rs cs n,
    s.freeCorbels launch = { s with reqs := rs, corbel := cs, free := n } := by
  have hsame : (s.freeCorbels launch).beyondCorbels = s.beyondCorbels := by
    refine List.foldlRecOn s.corbel _ (motive := fun v : State => v.beyondCorbels = s.beyondCorbels) rfl (fun v hv e _ => ?_)
    refine Eq.trans ?_ hv
    dsimp only
    split
    · refine Eq.trans rfl (List.foldlRecOn (listed v.reqs) _ (motive := fun u : State => u.beyondCorbels = v.beyondCorbels) rfl
        (fun u hu x _ => Eq.trans ?_ hu))
      split_ifs <;> rfl
    · rfl
  generalize s.freeCorbels launch = t at hsame
  exact ⟨t.reqs, t.corbel, t.free,
    (congrArg (fun u : State => ({ u with reqs := t.reqs, corbel := t.corbel, free := t.free } : State)) hsame :)⟩

/-- The state in which the completion record of a launch has been written. -/
def State.recorded (s : State) (id : Nat) (l : Launch) : State :=
  ((s.dropLaunch id).freeCorbels id).writeCompletion l.part l.cpla l.lid.toNat
    (completionRecord l.status l.lid.toNat l.counted) (irqOut l.part l.irq l.vec)

theorem State.completeLaunch_eq (s : State) (id : Nat) (l : Launch) : s.completeLaunch id l =
    ((s.recorded id l).partLaunches l.part).foldl (fun acc e => acc.releaseSuccessor id l.status e) (s.recorded id l) := rfl

theorem State.launch?_recorded (s : State) (id : Nat) (l : Launch) (j : Nat) :
    (s.recorded id l).launch? j = if j = id then none else s.launch? j := by
  obtain ⟨rs, cs, n, h⟩ := (s.dropLaunch id).freeCorbels_shape id
  have hl : (s.recorded id l).launches = (s.dropLaunch id).launches := by
    rw [State.recorded, (State.records_writeCompletion _ _ _ _ _ _).launches, h]
  rw [State.launch?, hl]
  exact Tbl.get_set none s.launches id j none

theorem State.mem_recorded {id : Nat} {l : Launch} {e : Nat × Launch} :
    e ∈ (s.recorded id l).partLaunches l.part ↔ e.1 ≠ id ∧ s.launch? e.1 = some e.2 ∧ e.2.part = l.part := by
  rw [State.mem_partLaunches, State.launch?_recorded]
  by_cases h : e.1 = id <;> simp [h]

/-- What a completion leaves of the other launches (R296). -/
theorem State.completeLaunch_launches (s : State) (id : Nat) (l : Launch) :
    (s.completeLaunch id l).launch? id = none ∧
    (∀ j n, s.launch? j = some n → n.part = l.part → j ≠ id → id ∈ n.preds → (s.completeLaunch id l).told id l.status j n) ∧
    (∀ j n, s.launch? j = some n → j ≠ id → (n.part ≠ l.part ∨ id ∉ n.preds) → (s.completeLaunch id l).launch? j = some n) := by
  obtain ⟨hother, htold⟩ := State.foldl_releaseSuccessor (done := id) (status := l.status)
    ((s.recorded id l).partLaunches l.part) (s.recorded id l)
  rw [State.completeLaunch_eq]
  refine ⟨?_, fun j n hn hp hj hd => ?_, fun j n hn hj hd => ?_⟩
  · rw [hother id (fun e he => .inl (State.mem_recorded.mp he).1.symm), State.launch?_recorded, if_pos rfl]
  · refine htold j n hd (fun e he hje => ?_) (.inl (State.mem_recorded.mpr ⟨hj, hn, hp⟩))
    have := (State.mem_recorded.mp he).2.1
    rw [← hje, hn] at this
    exact (Option.some.inj this).symm
  · rw [hother j (fun e he => ?_), State.launch?_recorded, if_neg hj, hn]
    by_cases hje : j = e.1
    · obtain ⟨-, he1, hpart⟩ := State.mem_recorded.mp he
      rw [← hje, hn] at he1
      obtain rfl := Option.some.inj he1
      exact .inr (hd.resolve_left (fun h => h hpart))
    · exact .inl hje

/-- A launch that no other waits for completes with its record alone. -/
theorem State.completeLaunch_unwaited {id : Nat} {l : Launch}
    (h : ∀ j n, s.launch? j = some n → n.part = l.part → j ≠ id → id ∉ n.preds) : s.completeLaunch id l = s.recorded id l := by
  rw [State.completeLaunch_eq]
  have hnone : ∀ e ∈ (s.recorded id l).partLaunches l.part, id ∉ e.2.preds := fun e he => by
    obtain ⟨hj, hn, hp⟩ := State.mem_recorded.mp he
    exact h e.1 e.2 hn hp hj
  generalize (s.recorded id l).partLaunches l.part = L at hnone
  induction L with
  | nil => rfl
  | cons e L ih =>
    rw [List.foldl_cons, State.releaseSuccessor_none (hnone e List.mem_cons_self)]
    exact ih (fun e he => hnone e (List.mem_cons_of_mem _ he))

/-! ### The record -/

theorem State.cache_shape (s : State) (part va : Nat) : ∃ tl, s.cache part va = { s with tlb := tl } := by
  unfold State.cache
  split
  · exact ⟨s.tlb, rfl⟩
  · split
    · exact ⟨_, rfl⟩
    · exact ⟨s.tlb, rfl⟩

/-- Where the IOD agent may put a store on its way at once, it does, with what follows it. -/
theorem State.iodStore_now (hq : s.iodq = []) (hfull : s.fullOf 4 = false) (pa : Nat) (bs : List Byte) (after : List Out) :
    ∃ r ∈ (s.iodStore pa bs after).vreqs, r.agent = 4 ∧ r.pa = pa ∧ r.size = bs.length ∧ r.after = after ∧
      r.kind = .write (leNat bs) := by
  rw [State.iodStore, hq, hfull]
  exact ⟨_, List.mem_append_right _ (List.mem_singleton_self _), rfl, rfl, rfl, rfl, rfl⟩

theorem completionRecord_length (status lid teams : Nat) : (completionRecord status lid teams).length = 16 := by
  simp [completionRecord]

/-- A completion without a record raises its vector at once (R295). -/
theorem State.recorded_unwritten {id : Nat} {l : Launch} (hc : l.cpla = 0 ∨ l.cpla % 16 ≠ 0) :
    (s.recorded id l).vault = s.vault ∧ (s.recorded id l).out = s.out ++ irqOut l.part l.irq l.vec := by
  obtain ⟨rs, cs, n, h⟩ := (s.dropLaunch id).freeCorbels_shape id
  rw [State.recorded, State.writeCompletion, if_pos hc, h]
  exact ⟨rfl, rfl⟩

/-- A completion with a record: one store of the IOD agent, which the vector follows (R295). -/
theorem State.recorded_written {id pa : Nat} {l : Launch} (h0 : l.cpla ≠ 0) (h16 : l.cpla % 16 = 0)
    (hpa : s.access l.part l.cpla 16 Need.store = .ok pa) (hq : s.iodq = []) (hfull : s.fullOf 4 = false) :
    (s.recorded id l).vault = s.vault ∧ (s.recorded id l).out = s.out ∧ ∃ r ∈ (s.recorded id l).vreqs, r.agent = 4 ∧ r.pa = pa ∧
      r.size = 16 ∧ r.after = irqOut l.part l.irq l.vec ∧ r.kind = .write (leNat (completionRecord l.status l.lid.toNat l.counted)) := by
  obtain ⟨rs, cs, n, h⟩ := (s.dropLaunch id).freeCorbels_shape id
  have hc : ¬ (l.cpla = 0 ∨ l.cpla % 16 ≠ 0) := fun hc => hc.elim h0 (fun h => h h16)
  have hacc : ((s.dropLaunch id).freeCorbels id).access l.part l.cpla 16 Need.store = .ok pa := by
    rw [h]
    exact hpa
  obtain ⟨tl, hcache⟩ := ((s.dropLaunch id).freeCorbels id).cache_shape l.part l.cpla
  rw [State.recorded, State.writeCompletion, if_neg hc, hacc]
  dsimp only
  rw [hcache, h]
  generalize hu : ({ s.dropLaunch id with reqs := rs, corbel := cs, free := n } : State) = u
  have huq : ({ u with tlb := tl } : State).iodq = [] := by rw [← hu]; exact hq
  have huf : ({ u with tlb := tl } : State).fullOf 4 = false := by rw [← hu]; exact hfull
  obtain ⟨r, hr, ha, hp, hsize, hafter, hkind⟩ := State.iodStore_now huq huf pa
    (completionRecord l.status l.lid.toNat l.counted) (irqOut l.part l.irq l.vec)
  obtain ⟨vs, q, clocks, k, hshape⟩ := State.iodStore_shape { u with tlb := tl } pa
    (completionRecord l.status l.lid.toNat l.counted) (irqOut l.part l.irq l.vec)
  refine ⟨?_, ?_, r, hr, ha, hp, hsize.trans (completionRecord_length _ _ _), hafter, hkind⟩
  · rw [hshape, ← hu]
    rfl
  · rw [hshape, ← hu]
    rfl

/-! ### Packets -/

theorem Partition.queue_putQueue (p : Partition) (q : Nat) (x : LaunchQueue) : (p.putQueue q x).queue q = x :=
  Tbl.get_set_same LaunchQueue.reset _ _ _

/-- The state in which entry rd of a queue has been read (R292). -/
def State.packetRead (s : State) (part q va pa : Nat) (x : LaunchQueue) : State :=
  ((s.putPart part ((s.part part).putQueue q { x with rd := x.rd + 1 })).cache part va).mergeRuns 4 [(pa, 128)]

theorem State.packetRead_shape (s : State) (part q va pa : Nat) (x : LaunchQueue) : ∃ tl clocks,
    s.packetRead part q va pa x =
      { s.putPart part ((s.part part).putQueue q { x with rd := x.rd + 1 }) with tlb := tl, vc := clocks } := by
  obtain ⟨tl, h⟩ := (s.putPart part ((s.part part).putQueue q { x with rd := x.rd + 1 })).cache_shape part va
  rw [State.packetRead, h]
  exact ⟨tl, _, rfl⟩

theorem State.packetRead_queue (s : State) (part q va pa : Nat) (x : LaunchQueue) :
    ((s.packetRead part q va pa x).part part).queue q = { x with rd := x.rd + 1 } := by
  obtain ⟨tl, clocks, h⟩ := s.packetRead_shape part q va pa x
  have hpart : (s.packetRead part q va pa x).part part = (s.part part).putQueue q { x with rd := x.rd + 1 } := by
    rw [h]
    exact (State.part_putPart _ _ _ _).trans (if_pos rfl)
  rw [hpart, Partition.queue_putQueue]

/-- A packet that is refused sets REF and enters no launch (R294). -/
theorem State.takePacket_refused {part q st : Nat} {bs : List Byte} (h : s.packetRefusal part bs = some st) :
    ((s.takePacket part q bs).part part).queue q = { (s.part part).queue q with ref := true } ∧
      (s.takePacket part q bs).launches = s.launches := by
  rw [State.takePacket, h]
  dsimp only
  have hrec := State.records_writeCompletion (s.modPart part (fun p => p.putQueue q { p.queue q with ref := true })) part (packetCpla bs)
    (packetWord bs 4) (completionRecord st (packetWord bs 4) 0) (irqOut part (bit (packetWord bs 0) 10) (bits (packetWord bs 0) 23 16))
  refine ⟨?_, hrec.launches⟩
  rw [Partition.queue, hrec.2 part, State.modPart, State.part_putPart, if_pos rfl]
  exact Partition.queue_putQueue _ _ _

end

/-! ### WORKGET replies -/

/-- A part of the bytes written reads back. -/
theorem Memory.readNat_writeBytes (m : Memory) (a : Nat) {l : List Byte} {o n : Nat} (h : o + n ≤ l.length) :
    Memory.readNat (Memory.writeBytes m a l) (a + o) n = leNat ((l.drop o).take n) := by
  have hdrop : l.drop o = Memory.readBytes (Memory.writeBytes m a l) (a + o) (l.length - o) := by
    conv_lhs => rw [← Memory.readBytes_writeBytes m a l]
    exact Memory.drop_readBytes _ _ _ _
  rw [hdrop, Memory.take_readBytes _ _ (by omega), Memory.readNat]

section
variable {s : State} {team : Nat} {tm : Team} {k : TeamCore}

theorem State.padWriteBytes_some (ht : s.team? team = some tm) (ha : tm.alloc ≠ 0) (core off : Nat) (bs : List Byte) :
    s.padWriteBytes team core off bs =
      s.putTeam team (tm.modCore core (fun k => { k with scratch := Memory.writeBytes k.scratch off bs })) := by
  rw [State.padWriteBytes, ht]
  exact if_neg ha

/-- A part of the bytes that a team's mailbox has been given. -/
theorem State.padRead_padWriteBytes (ht : s.team? team = some tm) (ha : tm.alloc ≠ 0) {core : Nat} (hk : tm.onCore core = some k)
    (off : Nat) {bs : List Byte} {o n : Nat} (h : o + n ≤ bs.length) :
    (s.padWriteBytes team core off bs).padRead team core (off + o) n = leNat ((bs.drop o).take n) := by
  have hcore := Team.onCore_modCore tm core (f := fun k => { k with scratch := Memory.writeBytes k.scratch off bs }) (fun _ => rfl) core
  rw [hk, Option.map_some, if_pos rfl] at hcore
  rw [State.padWriteBytes_some ht ha, State.padRead, State.team?_putTeam_same]
  refine (if_neg ha).trans ?_
  rw [hcore]
  exact Memory.readNat_writeBytes _ _ h

end

theorem leNat_take_leBytes (n x : Nat) (rest : List Byte) : leNat ((leBytes n x ++ rest).take n) = x % 256 ^ n := by
  rw [List.take_append_of_le_length (leBytes_length n x).ge, List.take_of_length_le (leBytes_length n x).le, leNat_leBytes]

theorem exec_launchPacketRead {s : State} {part q pa : Nat} {x : LaunchQueue} (hx : (s.part part).queue q = x)
    (hpa : s.access part (x.entryAt x.rd) 128 Need.load = .ok pa) :
    exec (.launchPacketRead part q) s = whenever (s.distributorOn && !(s.part part).halted && x.en && x.wr != x.rd &&
        decide ((s.partLaunches part).length < 1024) && !s.uncovered (s.vcOf 4)) s
      ((s.packetRead part q (x.entryAt x.rd) pa x).takePacket part q (Memory.readBytes s.vault pa 128)) := by
  subst hx
  show execLaunchPacketRead part q s = _
  unfold execLaunchPacketRead
  dsimp only
  rw [hpa]
  rfl

theorem exec_launchComplete {s : State} {launch : Nat} {l : Launch} (hl : s.launch? launch = some l) :
    exec (.launchComplete launch) s = whenever (decide (l.total ≤ l.gone)) s (s.completeLaunch launch l) := by
  show execLaunchComplete launch s = _
  rw [execLaunchComplete, hl]

theorem exec_launchBlocking {s : State} {part launch : Nat} {l : Launch} (hl : s.launch? launch = some l) :
    exec (.launchBlocking part launch) s = whenever (l.part == part && s.wantsPlace launch l && !s.heldByBlocking launch l &&
      (s.fit launch l).isNone) s (s.putLaunch launch { l with blocking := true }) := by
  show execLaunchBlocking part launch s = _
  rw [execLaunchBlocking, hl]

theorem exec_gangSlotRelease {s : State} {gang : Nat} {g : Gang} (hg : s.gang? gang = some g) :
    exec (.gangSlotRelease gang) s = whenever (g.ended && g.k.all (fun e => e.2 == 0) && !s.replyOut gang) s
      (match g.workget with
       | none => s.dropGang gang
       | some off => (s.modTeam g.team (fun t => { t with workgets := t.workgets ++ [(gang, g.rank, off)] })).dropGang gang) := by
  show execGangSlotRelease gang s = _
  rw [execGangSlotRelease, hg] <;> rfl

theorem exec_cancelStop {s : State} {team : Nat} {t : Team} (ht : s.team? team = some t) :
    exec (.cancelStop team) s = whenever (t.status == .running && match s.launch? t.launch with
      | some l => l.cancelled
      | none => false) s (s.stopTeam team) := by
  show execCancelStop team s = _
  rw [execCancelStop, ht] <;> rfl

/-- A gang that has ended, whose counters are zero and to which no reply is due, releases its slot (R31). -/
theorem gang_over {s : State} {gang : Nat} {g : Gang} (he : g.ended = true) (hk : ∀ e ∈ g.k, e.2 = 0)
    (hr : s.replyOut gang = false) : (g.ended && g.k.all (fun e => e.2 == 0) && !s.replyOut gang) = true := by
  have hall : g.k.all (fun e => e.2 == 0) = true := List.all_eq_true.mpr (fun e hm => by simpa using hk e hm)
  rw [he, hall, hr]
  rfl

/-- The mailbox's answer to a gang that waits: what is read, for a team that runs (R303). -/
theorem exec_workgetReply {s : State} {gang off : Nat} {g : Gang} {tm : Team} (hg : s.gang? gang = some g) (hw : g.workget = some off)
    (ht : s.team? g.team = some tm) :
    exec (.workgetReply gang) s = whenever (tm.status == .running && !tm.saving && !(s.part tm.part).halted) s
      (match s.launch? tm.launch with
        | some l =>
          if l.nextTid < l.total ∧ ¬ l.cancelled then
            (((s.putGang gang { g with workget := none }).putLaunch tm.launch { l with nextTid := l.nextTid + 1 }).putTeam g.team
              { tm with withdrawn := tm.withdrawn ++ [l.nextTid] }).padWriteBytes g.team g.core off
                (leBytes 4 1 ++ leBytes 8 l.nextTid ++ leBytes 4 0)
          else (s.putGang gang { g with workget := none }).padWriteBytes g.team g.core off (leBytes 4 2 ++ leBytes 12 0)
        | none => (s.putGang gang { g with workget := none }).padWriteBytes g.team g.core off (leBytes 4 2 ++ leBytes 12 0)) := by
  have htake : s.takeWorkget gang = some (g.team, g.core, off, s.putGang gang { g with workget := none }) := by
    rw [State.takeWorkget, hg]
    dsimp only
    rw [hw]
    rfl
  have ht' : (s.putGang gang { g with workget := none }).team? g.team = some tm := ht
  show execWorkgetReply gang s = _
  rw [execWorkgetReply, htake]
  dsimp only
  rw [ht'] <;> rfl

/-- Settles O53: each step of the distributor. -/
theorem theDistributorRunsLaunches : Obligations.TheDistributorRunsLaunches := by
  unfold Obligations.TheDistributorRunsLaunches
  intro s part q
  dsimp only
  refine ⟨fun wr => ⟨gives_unready rfl, fun hr => ?wr⟩, fun pa hon hhalt hen hne hroom hcov hpa => ⟨fun hok => ?taken, fun st href => ?refused⟩,
    fun launch l hl hgone => ⟨fun j n hn hp hj hd => ?told, fun j n hn hd => ?others⟩,
    fun launch l hl hgone hnone => ⟨fun hc => ?unwritten, fun pa h0 h16 hpa hq hfull => ?written⟩,
    fun launch l hl hp hw hh hf => ?blocking, fun gang g hg he hk hr => ⟨fun hw => ?slot, fun off tm hw ht => ?slotWaits⟩,
    fun launch team l tm hl ht hrun hlaunch hc => ?stop,
    fun launch gang team l g tm off k hl hg ht hteam hw hrun hsave hhalt hlaunch hk ha => ⟨fun hn hc => ?work, fun hn => ?noWork⟩⟩
  case wr =>
    refine gives_whenReady rfl hr ?_
    unfold State.writeWr
    dsimp only
    have hput : ((s.modPart part (fun p => p.putQueue q { (s.part part).queue q with wr := wr })).part part).queue q =
        { (s.part part).queue q with wr := wr } := by
      rw [State.modPart, State.part_putPart, if_pos rfl]
      exact Partition.queue_putQueue _ _ _
    split
    · exact ⟨hput, fun _ _ => rfl⟩
    · next h =>
      refine ⟨hput, fun hx hc => absurd ?_ h⟩
      rw [hx, Bool.true_and, Bool.or_eq_true, beq_iff_eq, beq_iff_eq]
      exact hc
  case taken =>
    refine gives_whenever (exec_launchPacketRead rfl hpa) (by simp [hon, hhalt, hen, hne, hroom, hcov]) ?_
    have hqueue := s.packetRead_queue part q (((s.part part).queue q).entryAt ((s.part part).queue q).rd) pa ((s.part part).queue q)
    obtain ⟨tl, clocks, hshape⟩ := s.packetRead_shape part q (((s.part part).queue q).entryAt ((s.part part).queue q).rd) pa
      ((s.part part).queue q)
    have hnext := congrArg State.next hshape
    have hok' : (s.packetRead part q (((s.part part).queue q).entryAt ((s.part part).queue q).rd) pa
        ((s.part part).queue q)).packetRefusal part (Memory.readBytes s.vault pa 128) = none := hok
    generalize s.packetRead part q (((s.part part).queue q).entryAt ((s.part part).queue q).rd) pa ((s.part part).queue q) = u
      at hqueue hnext hok' ⊢
    have hun : u.next = s.next := hnext
    rw [State.takePacket, hok', ← hun]
    exact ⟨congrArg LaunchQueue.rd hqueue, _, State.launch?_putLaunch_same _ _ _, rfl, BitVec.toNat_ofNat _ _, rfl, rfl, rfl, rfl, rfl,
      rfl, rfl, rfl⟩
  case refused =>
    refine gives_whenever (exec_launchPacketRead rfl hpa) (by simp [hon, hhalt, hen, hne, hroom, hcov]) ?_
    have hqueue := s.packetRead_queue part q (((s.part part).queue q).entryAt ((s.part part).queue q).rd) pa ((s.part part).queue q)
    obtain ⟨tl, clocks, hshape⟩ := s.packetRead_shape part q (((s.part part).queue q).entryAt ((s.part part).queue q).rd) pa
      ((s.part part).queue q)
    have hlaunches := congrArg State.launches hshape
    have href' : (s.packetRead part q (((s.part part).queue q).entryAt ((s.part part).queue q).rd) pa
        ((s.part part).queue q)).packetRefusal part (Memory.readBytes s.vault pa 128) = some st := href
    obtain ⟨hq', hl'⟩ := State.takePacket_refused href'
    rw [hqueue] at hq'
    exact ⟨congrArg LaunchQueue.rd hq', congrArg LaunchQueue.ref hq', hl'.trans hlaunches⟩
  case told =>
    obtain ⟨hgone', htold, -⟩ := s.completeLaunch_launches launch l
    exact gives_whenever (exec_launchComplete hl) (decide_eq_true hgone) ⟨hgone', htold j n hn hp hj hd⟩
  case others =>
    obtain ⟨-, -, hother⟩ := s.completeLaunch_launches launch l
    refine gives_whenever (exec_launchComplete hl) (decide_eq_true hgone) (hother j n hn ?_ (hd.imp_right And.right))
    rintro rfl
    obtain rfl := Option.some.inj (hl.symm.trans hn)
    exact hd.elim (fun h => h rfl) (fun h => h.1 rfl)
  case unwritten =>
    refine gives_whenever (exec_launchComplete hl) (decide_eq_true hgone) ?_
    rw [State.completeLaunch_unwaited hnone]
    obtain ⟨hv, ho⟩ := State.recorded_unwritten (s := s) (id := launch) hc
    exact ⟨by rw [State.launch?_recorded, if_pos rfl], hv, ho⟩
  case written =>
    refine gives_whenever (exec_launchComplete hl) (decide_eq_true hgone) ?_
    rw [State.completeLaunch_unwaited hnone]
    obtain ⟨hv, ho, r, hr⟩ := State.recorded_written (s := s) (id := launch) h0 h16 hpa hq hfull
    exact ⟨by rw [State.launch?_recorded, if_pos rfl], hv, ho, r, hr⟩
  case blocking => exact gives_whenever (exec_launchBlocking hl) (by simp [hp, hw, hh, hf]) rfl
  case slot =>
    refine gives_whenever (exec_gangSlotRelease hg) (gang_over he hk hr) ?_
    rw [hw]
    exact ⟨State.gang?_dropGang_same s gang, fun j hj => State.gang?_dropGang_other s hj, rfl⟩
  case slotWaits =>
    refine gives_whenever (exec_gangSlotRelease hg) (gang_over he hk hr) ?_
    rw [hw]
    dsimp only
    rw [State.modTeam_some ht]
    exact ⟨State.gang?_dropGang_same _ gang, fun j hj => State.gang?_dropGang_other _ hj, State.team?_putTeam_same s _ _, rfl⟩
  case stop =>
    subst hlaunch
    refine gives_whenever (exec_cancelStop ht) (by rw [hrun, hl]; exact hc) ?_
    refine ⟨⟨_, State.team?_stopTeam_same ht hrun, rfl⟩, fun j h hj hteam => ?_, ⟨_, State.launch?_stopTeam ht hrun hl, rfl, rfl⟩⟩
    rw [State.gang?_stopTeam ht hrun, Option.map_eq_some_iff] at hj
    obtain ⟨h0, -, rfl⟩ := hj
    have ht0 : h0.team = team := by
      split at hteam
      · next h => exact h
      · exact hteam
    rw [if_pos ht0]
    exact ⟨rfl, rfl, rfl⟩
  case work =>
    subst hteam hlaunch
    refine gives_whenever (exec_workgetReply hg hw ht) (by simp [hrun, hsave, hhalt]) ?_
    rw [hl]
    dsimp only
    rw [if_pos ⟨hn, by rw [hc]; exact Bool.false_ne_true⟩]
    have hteam := State.team?_putTeam_same ((s.putGang gang { g with workget := none }).putLaunch tm.launch
      { l with nextTid := l.nextTid + 1 }) g.team { tm with withdrawn := tm.withdrawn ++ [l.nextTid] }
    have hread : ∀ o n, o + n ≤ 16 → State.padRead (State.padWriteBytes _ g.team g.core off
        (leBytes 4 1 ++ leBytes 8 l.nextTid ++ leBytes 4 0)) g.team g.core (off + o) n =
          leNat (((leBytes 4 1 ++ leBytes 8 l.nextTid ++ leBytes 4 0).drop o).take n) :=
      fun o n h => State.padRead_padWriteBytes hteam ha.ne' hk off (by simpa using h)
    have hwithdrawn := (congrArg (fun v : State => v.team? g.team) (State.padWriteBytes_some hteam ha.ne' g.core off
      (leBytes 4 1 ++ leBytes 8 l.nextTid ++ leBytes 4 0))).trans (State.team?_putTeam_same _ _ _)
    refine ⟨?_, ?_, ⟨{ l with nextTid := l.nextTid + 1 }, ?_, rfl⟩, ⟨_, hwithdrawn, rfl⟩,
      ⟨{ g with workget := none }, ?_, rfl⟩⟩
    · rw [hread 0 4 (by decide)]
      rfl
    · rw [hread 4 8 (by decide)]
      exact leNat_take_leBytes 8 l.nextTid (leBytes 4 0)
    · rw [State.padWriteBytes_some hteam ha.ne']
      exact State.launch?_putLaunch_same _ _ _
    · rw [State.padWriteBytes_some hteam ha.ne']
      exact State.gang?_putGang_same s gang _
  case noWork =>
    subst hteam hlaunch
    refine gives_whenever (exec_workgetReply hg hw ht) (by simp [hrun, hsave, hhalt]) ?_
    rw [hl]
    dsimp only
    rw [if_neg (fun h => hn.elim (Nat.not_le.mpr h.1) h.2)]
    have hteam : (s.putGang gang { g with workget := none }).team? g.team = some tm := ht
    refine ⟨?_, ?_, ⟨{ g with workget := none }, ?_, rfl⟩⟩
    · refine (State.padRead_padWriteBytes hteam ha.ne' hk off (o := 0) (n := 4) (by simp)).trans rfl
    · rw [State.padWriteBytes_some hteam ha.ne']
      exact hl
    · rw [State.padWriteBytes_some hteam ha.ne']
      exact State.gang?_putGang_same s gang _

end Sys2Proof.Machine
end

section
/-! PROOFS. Which reservations a write to the vault takes from the lanes (R220). -/

namespace Sys2Proof.Machine

/-- A table in its form holds what it lists. -/
theorem Tbl.get_of_mem_wf {α : Type} [DecidableEq α] {d : α} {t : Tbl α} {k : Nat} {v : α} (h : Tbl.wf d t = true)
    (hm : (k, v) ∈ t) : Tbl.get d t k = v := by
  have hsorted : Tbl.sorted none t = true := (Bool.and_eq_true_iff.mp h).1
  clear h
  suffices ∀ b, Tbl.sorted b t = true → Tbl.get d t k = v ∧ Tbl.above b k = true from (this none hsorted).1
  clear hsorted
  induction t with
  | nil => exact absurd hm List.not_mem_nil
  | cons e t ih =>
    obtain ⟨j, w⟩ := e
    intro b hb
    rw [Tbl.sorted_cons, Bool.and_eq_true] at hb
    rcases List.mem_cons.mp hm with heq | hm
    · obtain ⟨rfl, rfl⟩ := Prod.mk.injEq .. ▸ heq
      exact ⟨if_pos rfl, hb.1⟩
    · obtain ⟨hget, habove⟩ := ih hm (some j) hb.2
      have hlt : j < k := by simpa [Tbl.above] using habove
      refine ⟨(if_neg hlt.ne).trans hget, ?_⟩
      cases b with
      | none => rfl
      | some b => have := hb.1; simp only [Tbl.above, decide_eq_true_eq] at this ⊢; omega

/-- What a table gives, but for its default, is listed in it. -/
theorem Tbl.mem_get {α : Type} {d : α} {t : Tbl α} {k : Nat} {v : α} (h : Tbl.get d t k = v) (hv : v ≠ d) : (k, v) ∈ t := by
  induction t with
  | nil => exact absurd h.symm hv
  | cons e t ih =>
    obtain ⟨j, w⟩ := e
    simp only [Tbl.get] at h
    split at h
    · rename_i hjk
      rw [← hjk, ← h]; exact .head _
    · exact .tail _ (ih h)

/-- What becomes of the reservations of gang id, from g to g', as a writes a granule for which hits holds. -/
structure Gang.Broken (hits : Nat → Prop) (a : Actor) (id : Nat) (g g' : Gang) : Prop where
  /-- A lane keeps its reservation or has none. -/
  less : ∀ l, g'.reserved l = g.reserved l ∨ g'.reserved l = none
  /-- No lane but the actor keeps one of such a granule. -/
  lost : ∀ l gr, hits gr → a ≠ .lane id l → g'.reserved l ≠ some gr
  /-- The actor keeps its own. -/
  own : ∀ l, a = .lane id l → g'.reserved l = g.reserved l
  /-- Every lane keeps one of another granule. -/
  kept : Tbl.wf none g.reserve = true →
    Tbl.wf none g'.reserve = true ∧ ∀ l gr, ¬ hits gr → g.reserved l = some gr → g'.reserved l = some gr

theorem Gang.reserved_setReserve (g : Gang) (l m : Nat) (v : Option Nat) :
    (g.setReserve l v).reserved m = if m = l then v else g.reserved m := Tbl.get_set none g.reserve l m v

/-- The lanes listed lose their reservation. -/
theorem Gang.reserved_clear (rs : List (Nat × Option Nat)) (g : Gang) (m : Nat) :
    (rs.foldl (fun g r => g.setReserve r.1 none) g).reserved m = if m ∈ rs.map Prod.fst then none else g.reserved m := by
  induction rs generalizing g with
  | nil => rfl
  | cons r rs ih =>
    rw [List.foldl_cons, ih, Gang.reserved_setReserve]
    simp only [List.map_cons, List.mem_cons]
    by_cases hm : m = r.1 <;> by_cases hr : m ∈ rs.map Prod.fst <;> simp [hm, hr]

theorem Gang.wf_clear (rs : List (Nat × Option Nat)) {g : Gang} (h : Tbl.wf none g.reserve = true) :
    Tbl.wf none (rs.foldl (fun g r => g.setReserve r.1 none) g).reserve = true :=
  List.foldlRecOn rs _ (motive := fun v : Gang => Tbl.wf none v.reserve = true) h
    (fun v hv r _ => (Tbl.wf_set hv : Tbl.wf none (Tbl.set none v.reserve r.1 none) = true))

/-- The reservations of gang id that a write of granule gr by a takes. -/
def Gang.hit (g : Gang) (id gr : Nat) (a : Actor) : List (Nat × Option Nat) :=
  g.reserve.filter (fun r => r.2 == some gr && !(a == Actor.lane id r.1))

theorem Gang.mem_hit {g : Gang} {id gr : Nat} {a : Actor} {r : Nat × Option Nat} :
    r ∈ g.hit id gr a ↔ r ∈ g.reserve ∧ r.2 = some gr ∧ a ≠ .lane id r.1 := by
  simp [Gang.hit]

theorem Gang.broken_hit (g : Gang) (id gr : Nat) (a : Actor) :
    Gang.Broken (· = gr) a id g ((g.hit id gr a).foldl (fun g r => g.setReserve r.1 none) g) where
  less l := by
    rw [Gang.reserved_clear]
    split
    · exact Or.inr rfl
    · exact Or.inl rfl
  lost l gr' he ha hkeep := by
    subst he
    rw [Gang.reserved_clear] at hkeep
    split at hkeep
    · exact Option.some_ne_none _ hkeep.symm
    · rename_i hno
      have hin : (l, some gr') ∈ g.reserve := Tbl.mem_get hkeep (Option.some_ne_none _)
      exact hno (List.mem_map.mpr ⟨(l, some gr'), Gang.mem_hit.mpr ⟨hin, rfl, ha⟩, rfl⟩)
  own l ha := by
    rw [Gang.reserved_clear, if_neg]
    intro hin
    obtain ⟨r, hr, rfl⟩ := List.mem_map.mp hin
    exact (Gang.mem_hit.mp hr).2.2 ha
  kept hwf := ⟨Gang.wf_clear _ hwf, fun l gr' hne hl => by
    rw [Gang.reserved_clear, if_neg, hl]
    intro hin
    obtain ⟨r, hr, rfl⟩ := List.mem_map.mp hin
    obtain ⟨hmem, hgr, -⟩ := Gang.mem_hit.mp hr
    have : g.reserved r.1 = some gr := Tbl.get_of_mem_wf hwf (by rw [← hgr]; exact hmem)
    exact hne (Option.some.inj (hl.symm.trans this))⟩

theorem Gang.Broken.refl {hits : Nat → Prop} (h : ∀ gr, ¬ hits gr) (a : Actor) (id : Nat) (g : Gang) : Gang.Broken hits a id g g where
  less _ := Or.inl rfl
  lost _ gr hgr := absurd hgr (h gr)
  own _ _ := rfl
  kept hwf := ⟨hwf, fun _ _ _ h => h⟩

theorem Gang.Broken.trans {p q : Nat → Prop} {a : Actor} {id : Nat} {f g h : Gang} (hp : Gang.Broken p a id f g)
    (hq : Gang.Broken q a id g h) : Gang.Broken (fun gr => p gr ∨ q gr) a id f h where
  less l := by
    rcases hq.less l with e | e
    · rw [e]; exact hp.less l
    · exact Or.inr e
  lost l gr hgr ha hkeep := by
    rcases hgr with hgr | hgr
    · rcases hq.less l with e | e
      · exact hp.lost l gr hgr ha (e.symm.trans hkeep)
      · exact Option.some_ne_none _ (hkeep.symm.trans e)
    · exact hq.lost l gr hgr ha hkeep
  own l ha := (hq.own l ha).trans (hp.own l ha)
  kept hwf :=
    have hp' := hp.kept hwf
    have hq' := hq.kept hp'.1
    ⟨hq'.1, fun l gr hno hl => hq'.2 l gr (fun h => hno (Or.inr h)) (hp'.2 l gr (fun h => hno (Or.inl h)) hl)⟩

theorem Gang.Broken.congr {p q : Nat → Prop} {a : Actor} {id : Nat} {f g : Gang} (h : Gang.Broken p a id f g) (e : ∀ x, q x ↔ p x) :
    Gang.Broken q a id f g := by
  rwa [show q = p from funext fun x => propext (e x)]

/-- Every gang of s stands in t, its reservations broken as hits tells. -/
def State.broke (hits : Nat → Prop) (a : Actor) (s t : State) : Prop :=
  ∀ id, (s.gang? id = none → t.gang? id = none) ∧
    ∀ g, s.gang? id = some g → ∃ g', t.gang? id = some g' ∧ g'.unreserved = g.unreserved ∧ Gang.Broken hits a id g g'

theorem State.broke_trans {p q : Nat → Prop} {a : Actor} {s t u : State} (h : State.broke p a s t) (h' : State.broke q a t u) :
    State.broke (fun gr => p gr ∨ q gr) a s u := fun id =>
  ⟨fun hn => (h' id).1 ((h id).1 hn), fun g hg => by
    obtain ⟨g1, hg1, e1, b1⟩ := (h id).2 g hg
    obtain ⟨g2, hg2, e2, b2⟩ := (h' id).2 g1 hg1
    exact ⟨g2, hg2, e2.trans e1, b1.trans b2⟩⟩

theorem State.broke_congr {p q : Nat → Prop} {a : Actor} {s t : State} (h : State.broke p a s t) (e : ∀ x, q x ↔ p x) :
    State.broke q a s t := by
  rwa [show q = p from funext fun x => propext (e x)]

/-- Gang g of number id without the reservations that a write of granule gr by a takes. -/
def Gang.cleared (g : Gang) (id gr : Nat) (a : Actor) : Gang := (g.hit id gr a).foldl (fun g r => g.setReserve r.1 none) g

/-- One gang is seen to. -/
def State.clearGang (gr : Nat) (a : Actor) (s : State) (e : Nat × Gang) : State :=
  if (e.2.hit e.1 gr a).isEmpty then s else s.putGang e.1 (e.2.cleared e.1 gr a)

theorem State.breakReserve_eq (s : State) (gr : Nat) (a : Actor) :
    s.breakReserve gr a = (listed s.gangs).foldl (State.clearGang gr a) s := rfl

theorem State.gang?_clearGang {s : State} {gr : Nat} {a : Actor} {e : Nat × Gang}
    (h : s.gang? e.1 = some e.2 ∨ s.gang? e.1 = some (e.2.cleared e.1 gr a)) (id : Nat) :
    (s.clearGang gr a e).gang? id = if id = e.1 then some (e.2.cleared e.1 gr a) else s.gang? id := by
  unfold State.clearGang
  split
  · rename_i hempty
    split
    · rename_i hid
      have hsame : e.2.cleared e.1 gr a = e.2 := by rw [Gang.cleared, List.isEmpty_iff.mp hempty]; rfl
      rw [hid, hsame]
      rcases h with h | h
      · exact h
      · rwa [hsame] at h
    · rfl
  · split
    · rename_i hid
      rw [hid]; exact State.gang?_putGang_same _ _ _
    · rename_i hid
      exact State.gang?_putGang_other _ _ hid

/-- Every gang listed is seen to. -/
theorem State.gang?_clearGangs (s : State) (gr : Nat) (a : Actor) (es : List (Nat × Gang)) (hes : ∀ e ∈ es, s.gang? e.1 = some e.2)
    (t : State) (ht : ∀ id, t.gang? id = s.gang? id ∨ t.gang? id = (s.gang? id).map (·.cleared id gr a)) (id : Nat) :
    (es.foldl (State.clearGang gr a) t).gang? id =
      if id ∈ es.map Prod.fst then (s.gang? id).map (·.cleared id gr a) else t.gang? id := by
  induction es generalizing t with
  | nil => rfl
  | cons e es ih =>
    have he := hes e (.head _)
    have hstep : ∀ n, (t.clearGang gr a e).gang? n = if n = e.1 then (s.gang? n).map (·.cleared n gr a) else t.gang? n := by
      intro n
      rw [State.gang?_clearGang (by have := ht e.1; rwa [he] at this)]
      split
      · rename_i hn
        rw [hn, he]; rfl
      · rfl
    rw [List.foldl_cons, ih (fun x hx => hes x (.tail _ hx)) _ (fun n => ?_), hstep]
    · simp only [List.map_cons, List.mem_cons]
      by_cases h1 : id ∈ es.map Prod.fst <;> by_cases h2 : id = e.1 <;> simp [h1, h2]
    · rw [hstep]
      split
      · exact Or.inr rfl
      · exact ht n

theorem State.gang?_breakReserve (s : State) (gr : Nat) (a : Actor) (id : Nat) :
    (s.breakReserve gr a).gang? id = (s.gang? id).map (·.cleared id gr a) := by
  rw [State.breakReserve_eq, State.gang?_clearGangs s gr a _ (fun e he => mem_listed he) s (fun _ => Or.inl rfl)]
  split
  · rfl
  · rename_i hno
    cases hg : s.gang? id with
    | none => rfl
    | some g => exact absurd (List.mem_map.mpr ⟨(id, g), mem_listed_of_get hg, rfl⟩) hno

theorem State.broke_breakReserve (s : State) (gr : Nat) (a : Actor) : State.broke (· = gr) a s (s.breakReserve gr a) := fun id =>
  ⟨fun hn => by rw [State.gang?_breakReserve, hn]; rfl, fun g hg =>
    ⟨_, by rw [State.gang?_breakReserve, hg]; rfl, Gang.unreserved_foldl _ _, Gang.broken_hit g id gr a⟩⟩

/-- A state with the same gangs. -/
theorem State.broke_same {hits : Nat → Prop} (h : ∀ gr, ¬ hits gr) {a : Actor} {s t : State} (e : t.gangs = s.gangs) :
    State.broke hits a s t := fun id => by
  have hid : t.gang? id = s.gang? id := congrArg (fun x => Tbl.get none x id) e
  exact ⟨fun hn => hid.trans hn, fun g hg => ⟨g, hid.trans hg, rfl, Gang.Broken.refl h a id g⟩⟩

/-- The granules of a run of bytes. -/
theorem mem_granulesOf {pa len gr : Nat} : gr ∈ granulesOf pa len ↔ pa < 64 * gr + 64 ∧ 64 * gr < pa + len := by
  simp only [granulesOf, List.mem_filterMap, List.mem_range, Option.ite_none_right_eq_some, Option.some.injEq]
  constructor
  · rintro ⟨i, hi, hlt, rfl⟩
    omega
  · rintro ⟨h1, h2⟩
    exact ⟨gr - pa / 64, by omega, by omega, by omega⟩

theorem State.broke_applyAt (s : State) (a : Actor) (pa size v : Nat) (stamp : List (BitVec 16)) :
    State.broke (fun gr => pa < 64 * gr + 64 ∧ 64 * gr < pa + size) a s (s.applyAt a pa size v stamp) := by
  have hgo : ∀ (grs : List Nat) (u : State), State.broke (fun gr => gr ∈ grs) a u (grs.foldl (fun acc g =>
      ({ acc with av := Tbl.set clock0 acc.av (vaultSlice (64 * g)) (clockMax (acc.avOf (vaultSlice (64 * g))) stamp) } : State).breakReserve
        g a) u) := by
    intro grs
    induction grs with
    | nil => exact fun u => State.broke_same (fun _ => List.not_mem_nil) rfl
    | cons gr grs ih =>
      intro u
      let w : State := { u with av := Tbl.set clock0 u.av (vaultSlice (64 * gr)) (clockMax (u.avOf (vaultSlice (64 * gr))) stamp) }
      have hfirst : State.broke (fun x => False ∨ x = gr) a u (w.breakReserve gr a) :=
        State.broke_trans (State.broke_same (fun _ => id) rfl) (State.broke_breakReserve w gr a)
      refine State.broke_congr (State.broke_trans hfirst (ih (w.breakReserve gr a))) (fun x => ?_)
      simp
  let w : State := { s with
    vault := Memory.writeNat s.vault pa size v, badWords := s.badWords.filter (fun w => !wholeWord w pa size) }
  have hall : State.broke (fun x => False ∨ x ∈ granulesOf pa size) a s (s.applyAt a pa size v stamp) :=
    State.broke_trans (State.broke_same (t := w) (fun _ => id) rfl) (hgo (granulesOf pa size) w)
  exact State.broke_congr hall (fun x => by simp [mem_granulesOf])

theorem State.broke_writeAtOnce (s : State) (a : Actor) (agent pa : Nat) (bs : List Byte) :
    State.broke (fun gr => pa < 64 * gr + 64 ∧ 64 * gr < pa + bs.length) a s (s.writeAtOnce a agent pa bs) :=
  State.broke_congr (State.broke_trans (p := fun _ => False) (State.broke_same (fun _ => id) rfl)
    (State.broke_applyAt (s.stampWrite agent).2 a pa bs.length _ _)) (fun x => by simp)

end Sys2Proof.Machine
end

section
/-! PROOFS. Remote operations at the peer and their answers (R217, R281-R284, R400). -/

namespace Sys2Proof.Machine

/-! ### One lane at the peer -/

/-- The place of a lane's element, as its page and its word allow it. -/
theorem State.remoteAccess_congr {s t : State} (op : RemoteOp) (l : RemoteLane)
    (h : t = { s with inbound := t.inbound, vreqs := t.vreqs, rcvdSeq := t.rcvdSeq })
    (hbad : ∀ pa n, t.badIn pa n = s.badIn pa n) : t.remoteAccess op l = s.remoteAccess op l := by
  have hsp : ∀ pa n need, t.spoiled pa n need = s.spoiled pa n need := fun pa n need => by
    rw [State.spoiled, State.spoiled, hbad]
  have hdom : t.domain = s.domain := by rw [h]; rfl
  have hacc : t.access = s.access := by rw [h]; rfl
  rw [State.remoteAccess, State.remoteAccess, hdom, hacc]
  simp only [hsp]

/-- What a lane stores, over the old value. -/
def remoteValue (op : RemoteOp) (l : RemoteLane) (old : Nat) : Option Nat :=
  if op.kind = .rld then none else if op.kind = .rst then some l.arg.toNat
  else atomNew (remoteAtom op.kind) op.etype.toNat op.sat old l.arg.toNat l.new.toNat

/-- What a lane's answer tells. -/
def remoteTold (op : RemoteOp) (l : RemoteLane) (old : Nat) : LaneReply :=
  .value l.lane (if op.kind = .rst then 0 else BitVec.ofNat 64 old)

/-- A lane that faults changes nothing. -/
theorem State.remoteLane_error (s : State) (op : RemoteOp) (l : RemoteLane) (e : Byte × Bool) :
    s.remoteLane op l (.error e) = (s, .fault l.lane e.1 e.2) := rfl

theorem State.vaultOnly_mergeIod (s : State) (pa : Nat) : s.vaultOnly (s.mergeIod pa) := ⟨rfl, fun _ => rfl⟩

/-- The write of a lane, if it makes one. -/
def State.remoteWrite (s : State) (op : RemoteOp) (pa : Nat) : Option Nat → State
  | some v => s.writeAtOnce .iod 4 pa (leBytes (esize op.etype.toNat) v)
  | none => s

theorem State.remoteLane_ok_eq (s : State) (op : RemoteOp) (l : RemoteLane) (pa : Nat) :
    ∃ tl : List CachedPage, ∃ t : State,
      let old := Memory.readNat s.vault pa (esize op.etype.toNat)
      t = ({ s with tlb := tl } : State).remoteWrite op pa (remoteValue op l old) ∧
      (s.remoteLane op l (.ok pa) = (t, remoteTold op l old) ∨ s.remoteLane op l (.ok pa) = (t.mergeIod pa, remoteTold op l old)) := by
  obtain ⟨tl, hcache⟩ := s.cache_shape op.part l.addr
  refine ⟨tl, _, rfl, ?_⟩
  rw [State.remoteLane]
  simp only [hcache]
  cases hk : op.kind with
  | rld => right; simp only [remoteValue, remoteTold, hk]; rfl
  | rst => left; simp only [remoteValue, remoteTold, hk]; rfl
  | add => right; simp only [remoteValue, remoteTold, hk]; rfl
  | cas => right; simp only [remoteValue, remoteTold, hk]; rfl
  | fadd => right; simp only [remoteValue, remoteTold, hk]; rfl

/-- A lane's write reaches the bytes of its element and the reservations of its granules. -/
theorem State.remoteWrite_spec (s : State) (op : RemoteOp) (pa : Nat) (v : Option Nat) :
    (s.remoteWrite op pa v).netq = s.netq ∧
    (s.remoteWrite op pa v).vault = (match v with
      | some v => Memory.writeNat s.vault pa (esize op.etype.toNat) v
      | none => s.vault) ∧
    State.broke (fun gr => v.isSome = true ∧ pa < 64 * gr + 64 ∧ 64 * gr < pa + esize op.etype.toNat) .iod s (s.remoteWrite op pa v) := by
  cases v with
  | none => exact ⟨rfl, rfl, State.broke_same (fun gr h => Bool.noConfusion h.1) rfl⟩
  | some v =>
    have hb := State.broke_writeAtOnce s .iod 4 pa (leBytes (esize op.etype.toNat) v)
    rw [leBytes_length] at hb
    exact ⟨(State.vaultOnly_writeAtOnce s _ _ _ _).netq, State.vault_writeAtOnce s _ _ _ _,
      State.broke_congr hb (fun gr => by simp)⟩

/-- A lane that reaches its element: what it leaves. -/
theorem State.remoteLane_ok (s : State) (op : RemoteOp) (l : RemoteLane) (pa : Nat) :
    let n := esize op.etype.toNat
    let old := Memory.readNat s.vault pa n
    let r := s.remoteLane op l (.ok pa)
    r.2 = remoteTold op l old ∧ r.1.netq = s.netq ∧
    r.1.vault = (match remoteValue op l old with
      | some v => Memory.writeNat s.vault pa n v
      | none => s.vault) ∧
    State.broke (fun gr => (remoteValue op l old).isSome = true ∧ pa < 64 * gr + 64 ∧ 64 * gr < pa + n) .iod s r.1 := by
  dsimp only
  obtain ⟨tl, t, ht, hr⟩ := s.remoteLane_ok_eq op l pa
  obtain ⟨hnet, hvault, hbroke⟩ := State.remoteWrite_spec ({ s with tlb := tl } : State) op pa
    (remoteValue op l (Memory.readNat s.vault pa (esize op.etype.toNat)))
  rw [← ht] at hnet hvault hbroke
  rcases hr with hr | hr <;> rw [hr]
  · exact ⟨rfl, hnet, hvault, hbroke⟩
  · exact ⟨rfl, hnet, hvault, hbroke⟩

/-! ### The operation at the peer -/

/-- The machine as the lanes of an operation that has arrived are checked. -/
def State.remoteStart (s : State) (op : RemoteOp) : State :=
  ((s.arrive (.remote op)).unbook 4 ((s.arrive (.remote op)).remoteRuns op)).performed (.remote op)

theorem State.arrive_shape (s : State) (m : NetMsg) : ∃ ms, s.arrive m = { s with inbound := ms } := by
  unfold State.arrive
  split
  · exact ⟨s.inbound, rfl⟩
  · exact ⟨_, rfl⟩

/-- Booked places given up leave every error that a write on its way replaces. -/
theorem State.badIn_unbook (s : State) (agent : Nat) (runs : List (Nat × Nat)) (pa n : Nat) :
    (s.unbook agent runs).badIn pa n = s.badIn pa n := by
  refine List.filter_congr (fun w _ => congrArg (_ && ·) (congrArg (! ·) ?_))
  rw [State.unbook, List.any_filter]
  congr 1
  funext r
  cases hk : r.kind <;> simp

theorem State.remoteStart_shape (s : State) (op : RemoteOp) : ∃ ms rs seqs,
    s.remoteStart op = { s with inbound := ms, vreqs := rs, rcvdSeq := seqs } ∧
    (∀ pa n, ({ s with inbound := ms, vreqs := rs, rcvdSeq := seqs } : State).badIn pa n = s.badIn pa n) := by
  obtain ⟨ms, h⟩ := s.arrive_shape (.remote op)
  refine ⟨_, _, _, by rw [State.remoteStart, h]; rfl, fun pa n => ?_⟩
  exact State.badIn_unbook s 4 _ pa n

theorem State.remoteStart_access (s : State) (op : RemoteOp) (l : RemoteLane) :
    (s.remoteStart op).remoteAccess op l = s.remoteAccess op l := by
  obtain ⟨ms, rs, seqs, h, hbad⟩ := s.remoteStart_shape op
  rw [h]
  exact State.remoteAccess_congr op l rfl hbad

/-- What the lanes of the operation leave, and their answers, one by one. -/
def State.remoteStep (s : State) (op : RemoteOp) (acc : State × List LaneReply) (l : RemoteLane) : State × List LaneReply :=
  ((acc.1.remoteLane op l (s.remoteAccess op l)).1, acc.2 ++ [(acc.1.remoteLane op l (s.remoteAccess op l)).2])

theorem State.remoteLanes_start (s : State) (op : RemoteOp) :
    (s.remoteStart op).remoteLanes op = op.lanes.foldl (s.remoteStep op) (s.remoteStart op, []) := by
  rw [State.remoteLanes, List.foldl_map]
  simp only [State.remoteStart_access]
  rfl

theorem exec_remoteOpArrival (s : State) (op : RemoteOp) : exec (.remoteOpArrival op) s =
    whenever ((s.arrive (.remote op)).firstInbound (.remote op)) (s.arrive (.remote op)) ((s.arrive (.remote op)).onReply op
      (fun t => t.writing .iod 4 (t.remoteRuns op) true (fun t => (t.performed (.remote op)).performRemote op))) := rfl

/-- An operation of another package that comes first in its stream, and whose writes can be made, is performed and answered. -/
theorem gives_remoteArrival {s : State} {op : RemoteOp} {P : State → Prop} (hne : op.srcPkg ≠ s.pkg)
    (hfirst : (s.arrive (.remote op)).firstInbound (.remote op) = true)
    (hready : (s.arrive (.remote op)).runsReady 4 ((s.arrive (.remote op)).remoteRuns op) true = true)
    (hP : ∀ r, r = op.lanes.foldl (s.remoteStep op) (s.remoteStart op, []) →
      P (r.1.owe op.srcPkg (.reply { ident := op.ident, refused := false, lanes := r.2 }))) :
    Gives (.remoteOpArrival op) s P := by
  refine (⟨_, by rw [exec_remoteOpArrival, hfirst]; rfl, ?_⟩ : ∃ t, exec (.remoteOpArrival op) s = .next t ∧ P t)
  obtain ⟨ms, h⟩ := s.arrive_shape (.remote op)
  have hpkg : (s.arrive (.remote op)).pkg = s.pkg := by rw [h]
  have hstart : (s.remoteStart op).pkg = s.pkg := by
    obtain ⟨ms, rs, seqs, h, -⟩ := s.remoteStart_shape op
    rw [h]
  have hother : (op.srcPkg != (s.arrive (.remote op)).pkg) = true := by rw [hpkg]; simpa using hne
  rw [State.onReply, if_pos hother, State.writing, if_pos hready]
  show P ((s.remoteStart op).performRemote op)
  rw [State.performRemote, if_neg (by rw [hstart]; exact hne), State.remoteLanes_start]
  exact hP _ rfl

/-- One lane after the others, as the statement performs it on the bytes. -/
def State.remoteBytes (s : State) (op : RemoteOp) (m : Memory × List LaneReply) (l : RemoteLane) : Memory × List LaneReply :=
  let n := esize op.etype.toNat
  let fault := fun cause ecc => (m.1, m.2 ++ [LaneReply.fault l.lane cause ecc])
  if s.domain op.part op.srcPkg ≠ some op.srcPart then fault Cause.permission false
  else match s.access op.part l.addr n (remoteNeed op.kind) with
    | .error e => fault e false
    | .ok pa =>
      if s.spoiled pa n (remoteNeed op.kind) = true then fault Cause.permission true
      else
        let old := Memory.readNat m.1 pa n
        let v := if op.kind = .rld then none else if op.kind = .rst then some l.arg.toNat
          else atomNew (remoteAtom op.kind) op.etype.toNat op.sat old l.arg.toNat l.new.toNat
        (match v with
          | some v => Memory.writeNat m.1 pa n v
          | none => m.1, m.2 ++ [.value l.lane (if op.kind = .rst then 0 else BitVec.ofNat 64 old)])

section
variable {s : State} {op : RemoteOp} {l : RemoteLane}

theorem State.remoteAccess_foreign (h : s.domain op.part op.srcPkg ≠ some op.srcPart) :
    s.remoteAccess op l = .error (Cause.permission, false) := if_neg h

theorem State.remoteAccess_error (h : s.domain op.part op.srcPkg = some op.srcPart) {e : Byte}
    (he : s.access op.part l.addr (esize op.etype.toNat) (remoteNeed op.kind) = .error e) : s.remoteAccess op l = .error (e, false) := by
  rw [State.remoteAccess, if_pos h, he]

theorem State.remoteAccess_spoiled (h : s.domain op.part op.srcPkg = some op.srcPart) {pa : Nat}
    (he : s.access op.part l.addr (esize op.etype.toNat) (remoteNeed op.kind) = .ok pa)
    (hs : s.spoiled pa (esize op.etype.toNat) (remoteNeed op.kind) = true) : s.remoteAccess op l = .error (Cause.permission, true) := by
  rw [State.remoteAccess, if_pos h, he]
  exact if_pos hs

theorem State.remoteAccess_ok (h : s.domain op.part op.srcPkg = some op.srcPart) {pa : Nat}
    (he : s.access op.part l.addr (esize op.etype.toNat) (remoteNeed op.kind) = .ok pa)
    (hs : s.spoiled pa (esize op.etype.toNat) (remoteNeed op.kind) = false) : s.remoteAccess op l = .ok pa := by
  rw [State.remoteAccess, if_pos h, he]
  exact if_neg (by rw [hs]; exact Bool.false_ne_true)

end

theorem State.remoteStep_bytes (s : State) (op : RemoteOp) (acc : State × List LaneReply) (l : RemoteLane) :
    ((s.remoteStep op acc l).1.vault, (s.remoteStep op acc l).2) = s.remoteBytes op (acc.1.vault, acc.2) l ∧
    (s.remoteStep op acc l).1.netq = acc.1.netq := by
  by_cases hdom : s.domain op.part op.srcPkg = some op.srcPart
  · rw [State.remoteBytes]
    dsimp only
    rw [if_neg (not_not.mpr hdom)]
    cases hacc : s.access op.part l.addr (esize op.etype.toNat) (remoteNeed op.kind) with
    | error e => rw [State.remoteStep, State.remoteAccess_error hdom hacc]; exact ⟨rfl, rfl⟩
    | ok pa =>
      dsimp only
      split
      · next hs => rw [State.remoteStep, State.remoteAccess_spoiled hdom hacc hs]; exact ⟨rfl, rfl⟩
      · next hs =>
        rw [State.remoteStep, State.remoteAccess_ok hdom hacc (Bool.eq_false_iff.mpr hs)]
        obtain ⟨htold, hnet, hvault, -⟩ := acc.1.remoteLane_ok op l pa
        exact ⟨Prod.ext hvault (congrArg (acc.2 ++ [·]) htold), hnet⟩
  · rw [State.remoteStep, State.remoteAccess_foreign hdom, State.remoteBytes]
    dsimp only
    rw [if_pos hdom]
    exact ⟨rfl, rfl⟩

theorem State.remoteSteps_bytes (s : State) (op : RemoteOp) (ls : List RemoteLane) (acc : State × List LaneReply) :
    ((ls.foldl (s.remoteStep op) acc).1.vault, (ls.foldl (s.remoteStep op) acc).2) =
      ls.foldl (s.remoteBytes op) (acc.1.vault, acc.2) ∧
    (ls.foldl (s.remoteStep op) acc).1.netq = acc.1.netq := by
  induction ls generalizing acc with
  | nil => exact ⟨rfl, rfl⟩
  | cons l ls ih =>
    obtain ⟨h1, h2⟩ := ih (s.remoteStep op acc l)
    obtain ⟨h3, h4⟩ := s.remoteStep_bytes op acc l
    rw [List.foldl_cons, List.foldl_cons]
    exact ⟨h1.trans (by rw [h3]), h2.trans h4⟩

theorem State.remoteStart_same (s : State) (op : RemoteOp) :
    (s.remoteStart op).vault = s.vault ∧ (s.remoteStart op).netq = s.netq ∧ (s.remoteStart op).gangs = s.gangs := by
  obtain ⟨ms, rs, seqs, h, -⟩ := s.remoteStart_shape op
  rw [h]
  exact ⟨rfl, rfl, rfl⟩

/-- O46, all lanes. -/
theorem remoteOperation_performed {s : State} {op : RemoteOp} (hne : op.srcPkg ≠ s.pkg)
    (hfirst : (s.arrive (.remote op)).firstInbound (.remote op) = true)
    (hready : (s.arrive (.remote op)).runsReady 4 ((s.arrive (.remote op)).remoteRuns op) true = true) :
    Gives (.remoteOpArrival op) s (fun t => t.vault = (op.lanes.foldl (s.remoteBytes op) (s.vault, [])).1 ∧
      t.netq = s.netq ++ [(op.srcPkg,
        .reply { ident := op.ident, refused := false, lanes := (op.lanes.foldl (s.remoteBytes op) (s.vault, [])).2 })]) := by
  refine gives_remoteArrival hne hfirst hready (fun r hr => ?_)
  obtain ⟨hv, hn, -⟩ := s.remoteStart_same op
  obtain ⟨hbytes, hnet⟩ := s.remoteSteps_bytes op op.lanes (s.remoteStart op, [])
  rw [← hr, hv] at hbytes
  rw [← hr, hn] at hnet
  rw [← hbytes]
  exact ⟨rfl, congrArg (· ++ _) hnet⟩

/-- O46, one lane: it faults. -/
theorem remoteOperation_faults {s : State} {op : RemoteOp} {l : RemoteLane} (hl : op.lanes = [l]) (hne : op.srcPkg ≠ s.pkg)
    (hfirst : (s.arrive (.remote op)).firstInbound (.remote op) = true)
    (hready : (s.arrive (.remote op)).runsReady 4 ((s.arrive (.remote op)).remoteRuns op) true = true) {cause : Byte} {ecc : Bool}
    (h : s.remoteAccess op l = .error (cause, ecc)) :
    Gives (.remoteOpArrival op) s (fun t => t.vault = s.vault ∧
      t.netq = s.netq ++ [(op.srcPkg, .reply { ident := op.ident, refused := false, lanes := [.fault l.lane cause ecc] })]) := by
  refine gives_remoteArrival hne hfirst hready (fun r hr => ?_)
  obtain ⟨hv, hn, -⟩ := s.remoteStart_same op
  rw [hl, List.foldl_cons, List.foldl_nil, State.remoteStep, h, State.remoteLane_error] at hr
  subst hr
  exact ⟨hv, congrArg (· ++ _) hn⟩

/-- O46, one lane: it reaches its element. -/
theorem remoteOperation_reaches {s : State} {op : RemoteOp} {l : RemoteLane} (hl : op.lanes = [l]) (hne : op.srcPkg ≠ s.pkg)
    (hfirst : (s.arrive (.remote op)).firstInbound (.remote op) = true)
    (hready : (s.arrive (.remote op)).runsReady 4 ((s.arrive (.remote op)).remoteRuns op) true = true) {pa : Nat}
    (h : s.remoteAccess op l = .ok pa) :
    let n := esize op.etype.toNat
    let old := Memory.readNat s.vault pa n
    Gives (.remoteOpArrival op) s (fun t =>
      t.netq = s.netq ++ [(op.srcPkg, .reply { ident := op.ident, refused := false, lanes := [remoteTold op l old] })] ∧
      t.vault = (match remoteValue op l old with
        | some v => Memory.writeNat s.vault pa n v
        | none => s.vault) ∧
      State.broke (fun gr => (remoteValue op l old).isSome = true ∧ pa < 64 * gr + 64 ∧ 64 * gr < pa + n) .iod s t) := by
  dsimp only
  refine gives_remoteArrival hne hfirst hready (fun r hr => ?_)
  obtain ⟨hv, hn, hg⟩ := s.remoteStart_same op
  obtain ⟨htold, hnet, hvault, hbroke⟩ := (s.remoteStart op).remoteLane_ok op l pa
  rw [hl, List.foldl_cons, List.foldl_nil, State.remoteStep, h] at hr
  rw [hv] at htold hvault hbroke
  rw [hn] at hnet
  subst hr
  refine ⟨?_, hvault, ?_⟩
  · rw [← htold, ← hnet]; rfl
  · exact State.broke_congr (State.broke_trans (State.broke_same (fun _ => id) hg)
      (State.broke_trans hbroke (State.broke_same (fun _ => id) rfl))) (fun gr => by simp)

/-- What a lane's write of a run leaves of the bytes. -/
theorem Memory.writeNat_spec (m : Memory) (pa n : Nat) (v : Option Nat) (m' : Memory)
    (h : m' = (match v with
      | some v => Memory.writeNat m pa n v
      | none => m)) :
    (∀ x, (x < pa ∨ pa + n ≤ x) → Memory.readByte m' x = Memory.readByte m x) ∧ (v = none → m' = m) ∧
    ∀ w, v = some w → Memory.readNat m' pa n = w % 256 ^ n := by
  subst h
  cases v with
  | none => exact ⟨fun _ _ => rfl, fun _ => rfl, fun _ h => absurd h (Option.some_ne_none _).symm⟩
  | some v =>
    refine ⟨fun x hx => ?_, fun h => absurd h (Option.some_ne_none _), fun w hw => ?_⟩
    · exact Memory.readByte_writeBytes_other _ _ _ _ (by rwa [leBytes_length])
    · rw [← Option.some.inj hw]
      exact Memory.readNat_writeNat m pa n v

/-! ### Answers -/

section
variable {s : State} {r : RemoteOut} {g : Gang}

/-- An operation all of whose lanes are answered leaves the list, and its counter. -/
theorem State.answered_over {r : RemoteOut} (h : r.over = true) (hk : r.kc = none) (s : State) (ident : Nat) :
    s.answered ident r = s.dropRemote ident := by
  rw [State.answered, if_pos h, hk]

theorem RemoteOut.over_of {r : RemoteOut} {l : Nat} {as : List Nat} (hl : ∀ x ∈ r.op.lanes, x.lane = l) :
    ({ r with answered := as ++ [l] } : RemoteOut).over = true := by
  refine List.all_eq_true.mpr (fun x hx => ?_)
  rw [hl x hx]
  simp

/-- The gang of an operation that is answered: only that of r.gang changes. -/
theorem State.gang?_answered (s : State) (ident : Nat) (x : Nat) : (s.dropRemote ident).gang? x = s.gang? x := rfl

theorem State.remote?_dropRemote (s : State) (ident : Nat) : (s.dropRemote ident).remote? ident = none :=
  Tbl.get_set_same none s.remotes ident none

theorem dstElems_pair {d : RegField} {w : Bool} {l : Nat} {a b : RegElem} (h : dstElems d w l = [a, b]) : a ≠ b := by
  rintro rfl
  unfold dstElems at h
  split_ifs at h <;> simp at h
  all_goals obtain ⟨h1, h2⟩ := h
  all_goals rw [← h1] at h2
  all_goals simp at h2

theorem dstElems_register {d : RegField} {w : Bool} {l : Nat} {a : RegElem} (h : a ∈ dstElems d w l) : ∀ i j, a ≠ .p i j := by
  unfold dstElems at h
  split_ifs at h
  all_goals simp at h
  all_goals intro i j e
  all_goals subst e
  all_goals simp at h

theorem RemoteOut.elems_of {r : RemoteOut} {d : RegField} (hd : r.d = d.toNat) (hk : r.op.kind ≠ .rst) (l : Nat) :
    r.elems l = dstElems d (isWide r.op.etype.toNat) l := by
  rw [RemoteOut.elems, if_neg hk, hd, BitVec.ofNat_toNat, BitVec.setWidth_eq]

/-- The gang once an answer of one lane is there, element by element. -/
theorem Gang.settled_takeReply (g : Gang) (ident l : Nat) (v : DWord) (r : RemoteOut) (x : RemoteReply) (hx : x.lanes = [.value l v])
    (e : RegElem) : (g.takeReply ident r x).settled e = overwritten (elemWords r.op.etype.toNat v.toNat (r.elems l)) g.settled e := by
  rw [Gang.takeReply, Gang.settled_writeNow, hx]
  simp only [List.flatMap_cons, List.flatMap_nil, List.append_nil]
  exact congrArg (fun f => overwritten _ f e) (funext fun e => g.settled_with_awaits _ e)

/-- The elements that the answer of lane l writes take its value. -/
theorem Gang.takeReply_writes (g : Gang) (ident l : Nat) (v : DWord) {d : RegField} (hd : r.d = d.toNat) (hk : r.op.kind ≠ .rst)
    (x : RemoteReply) (hx : x.lanes = [.value l v]) :
    let elems := dstElems d (isWide r.op.etype.toNat) l
    let out := elemOut r.op.etype.toNat v.toNat
    let g' := g.takeReply ident r x
    (∀ a b, elems = [a, b] → g'.settled a = BitVec.ofNat 32 out ∧ g'.settled b = BitVec.ofNat 32 (out / 2 ^ 32)) ∧
    (∀ a, elems = [a] → g'.settled a = BitVec.ofNat 32 out) := by
  dsimp only
  simp only [Gang.settled_takeReply g ident l v r x hx, RemoteOut.elems_of hd hk]
  obtain ⟨one, two, -⟩ := overwritten_elemWords r.op.etype.toNat v.toNat (dstElems d (isWide r.op.etype.toNat) l) g.settled
  refine ⟨fun a b h => two a b h (dstElems_pair h) (dstElems_register (h ▸ List.Mem.head _)) (dstElems_register (h ▸ List.Mem.tail _ (List.Mem.head _))),
    fun a h => one a h (dstElems_register (h ▸ List.Mem.head _))⟩

/-- No other element changes. -/
theorem Gang.takeReply_keeps (g : Gang) (ident l : Nat) (v : DWord) {d : RegField} (hd : r.d = d.toNat)
    (x : RemoteReply) (hx : x.lanes = [.value l v]) {e : RegElem} (he : e ∉ dstElems d (isWide r.op.etype.toNat) l) :
    (g.takeReply ident r x).settled e = g.settled e := by
  rw [Gang.settled_takeReply g ident l v r x hx]
  refine (overwritten_elemWords _ _ _ _).2.2 e (fun hin => he ?_)
  by_cases hk : r.op.kind = .rst
  · rw [RemoteOut.elems, if_pos hk] at hin
    exact absurd hin List.not_mem_nil
  · rwa [RemoteOut.elems_of hd hk] at hin

theorem Gang.rest_takeReply (g : Gang) (ident : Nat) (r : RemoteOut) (x : RemoteReply) :
    ∃ aw, (g.takeReply ident r x).rest = Gang.rest { g with awaits := aw } ∧ (g.takeReply ident r x).groups = g.groups :=
  ⟨_, Gang.rest_writeNow _ _, Gang.groups_writeNow _ _⟩

/-- An answer of one value reports no fault. -/
theorem RemoteOut.faultsOf_value (r : RemoteOut) (ident l : Nat) (v : DWord) :
    r.faultsOf { ident := ident, refused := false, lanes := [.value l v] } = [] := rfl

theorem State.replySaved_false (x : RemoteReply) (hr : s.remote? x.ident = some r) (hg : s.gang? r.gang = some g)
    (h : s.isSaved g.team = false) : s.replySaved x = false := by
  rw [State.replySaved, hr]
  dsimp only
  rw [hg]
  exact h

/-- The answer of one value to an RLD or an RST. -/
theorem State.plainReply_value {l ident : Nat} (v : DWord) (hg : s.gang? r.gang = some g) (hl : ∀ x ∈ r.op.lanes, x.lane = l) :
    let x : RemoteReply := { ident := ident, refused := false, lanes := [.value l v] }
    ∃ r1 : RemoteOut, r1.over = true ∧ r1.kc = r.kc ∧ r1.gang = r.gang ∧
      s.plainReply r x = (s.putGang r.gang (g.takeReply ident r x)).answered ident r1 := by
  refine ⟨{ r with answered := r.answered ++ [l] }, RemoteOut.over_of hl, rfl, rfl, ?_⟩
  rw [State.plainReply, State.modGang_some hg, RemoteOut.faultsOf_value]
  rfl

end

/-- What an answer leaves: the operation is over, the vault stands, and the gang's registers hold the value, if it writes one. -/
def RemoteOut.takes (r : RemoteOut) (s : State) (g : Gang) (ident l : Nat) (v : DWord) (d : RegField) (t : State) (writes : Bool) : Prop :=
  let elems := dstElems d (isWide r.op.etype.toNat) l
  let out := elemOut r.op.etype.toNat v.toNat
  t.remote? ident = none ∧ t.vault = s.vault ∧ ∃ g', t.gang? r.gang = some g' ∧
    (writes = true → (∀ a b, elems = [a, b] → g'.settled a = BitVec.ofNat 32 out ∧
      g'.settled b = BitVec.ofNat 32 (out / 2 ^ 32)) ∧
      (∀ a, elems = [a] → g'.settled a = BitVec.ofNat 32 out)) ∧
    (∀ e, e ∉ elems → g'.settled e = g.settled e)

section
variable {s : State} {r : RemoteOut} {g : Gang} {ident l : Nat} {v : DWord} {d : RegField}

theorem State.performed_reply (s : State) (x : RemoteReply) : ∃ ms, s.performed (.reply x) = { s with inbound := ms } := ⟨_, rfl⟩

/-- What the gang holds once the value is there. -/
theorem RemoteOut.takes_of {t : State} {g' : Gang} {writes : Bool} (hd : r.d = d.toNat) (hw : writes = true → r.op.kind ≠ .rst)
    (ht : t.remote? ident = none) (hv : t.vault = s.vault) (hg : t.gang? r.gang = some g')
    (he : ∀ e, g'.settled e = (g.takeReply ident r { ident := ident, refused := false, lanes := [.value l v] }).settled e) :
    r.takes s g ident l v d t writes := by
  refine ⟨ht, hv, g', hg, fun h => ?_, fun e hout => ?_⟩
  · simp only [he]
    exact g.takeReply_writes ident l v hd (hw h) _ rfl
  · rw [he]
    exact g.takeReply_keeps ident l v hd _ rfl hout

theorem exec_rldReply (s : State) (x : RemoteReply) : exec (.rldReply x) s = whenever (match s.remote? x.ident with
    | some o => o.op.kind == .rld && !s.replySaved x
    | none => false) s ((s.performed (.reply x)).reply x) := rfl

theorem exec_rstAck (s : State) (x : RemoteReply) : exec (.rstAck x) s = whenever (match s.remote? x.ident with
    | some o => o.op.kind == .rst && !s.replySaved x
    | none => false) s ((s.performed (.reply x)).reply x) := rfl

theorem exec_ratomResponse (s : State) (x : RemoteReply) : exec (.ratomResponse x) s = whenever (match s.remote? x.ident with
    | some o => o.op.kind != .rld && o.op.kind != .rst && !s.replySaved x
    | none => false) s ((s.performed (.reply x)).reply x) := rfl

/-- O46, the answer to an RLD. -/
theorem rldReply_takes (hr : s.remote? ident = some r) (hg : s.gang? r.gang = some g) (hsaved : s.isSaved g.team = false)
    (hl : ∀ x ∈ r.op.lanes, x.lane = l) (hd : r.d = d.toNat) (hk : r.op.kind = .rld) (hkc : r.kc = none) :
    Gives (.rldReply { ident := ident, refused := false, lanes := [.value l v] }) s (fun t => r.takes s g ident l v d t true) := by
  let x : RemoteReply := { ident := ident, refused := false, lanes := [.value l v] }
  obtain ⟨ms, hs⟩ := s.performed_reply x
  let u : State := { s with inbound := ms }
  obtain ⟨r1, hover, hkc1, hgang1, hreply⟩ := State.plainReply_value (s := u) (ident := ident) v hg hl
  refine gives_whenever (exec_rldReply s x) (by rw [show s.remote? x.ident = some r from hr]; dsimp only; rw [hk, State.replySaved_false x hr hg hsaved]; rfl) ?_
  rw [hs, State.reply, show u.remote? x.ident = some r from hr]
  dsimp only
  rw [hk]
  dsimp only
  rw [hreply, State.answered_over hover (hkc1.trans hkc)]
  exact RemoteOut.takes_of hd (fun _ h => by rw [hk] at h; cases h) (State.remote?_dropRemote _ _) rfl
    (State.gang?_putGang_same u r.gang _) (fun _ => rfl)

/-- O46, the answer to an RST. -/
theorem rstAck_takes (hr : s.remote? ident = some r) (hg : s.gang? r.gang = some g) (hsaved : s.isSaved g.team = false)
    (hl : ∀ x ∈ r.op.lanes, x.lane = l) (hd : r.d = d.toNat) (hk : r.op.kind = .rst) {k : Nat} (hkc : r.kc = some k)
    (htok : g.tokens = []) :
    Gives (.rstAck { ident := ident, refused := false, lanes := [.value l v] }) s (fun t => r.takes s g ident l v d t false ∧
      ∃ g', t.gang? r.gang = some g' ∧ g'.counter k = g.counter k - 1 ∧ ∀ j, j ≠ k → g'.counter j = g.counter j) := by
  let x : RemoteReply := { ident := ident, refused := false, lanes := [.value l v] }
  obtain ⟨ms, hs⟩ := s.performed_reply x
  let u : State := { s with inbound := ms }
  obtain ⟨r1, hover, hkc1, hgang1, hreply⟩ := State.plainReply_value (s := u) (ident := ident) v hg hl
  refine gives_whenever (exec_rstAck s x) (by rw [show s.remote? x.ident = some r from hr]; dsimp only; rw [hk, State.replySaved_false x hr hg hsaved]; rfl) ?_
  rw [hs, State.reply, show u.remote? x.ident = some r from hr]
  dsimp only
  rw [hk]
  dsimp only
  rw [hreply, State.answered, if_pos hover, hkc1, hkc, hgang1]
  dsimp only
  obtain ⟨aw, hrest, -⟩ := g.rest_takeReply ident r x
  generalize hg1 : g.takeReply ident r x = g1 at hrest
  have htok1 : g1.tokens = [] := (congrArg Gang.tokens hrest :).trans htok
  have hk1 : g1.k = g.k := (congrArg Gang.k hrest :)
  have hput : ((u.putGang r.gang g1).dropRemote ident).gang? r.gang = some g1 := State.gang?_putGang_same _ _ _
  rw [State.modGang_some hput]
  generalize hu1 : ((u.putGang r.gang g1).dropRemote ident).putGang r.gang (g1.putCounter k (g1.counter k - 1)) = u1
  have hget : u1.gang? r.gang = some (g1.putCounter k (g1.counter k - 1)) := by rw [← hu1]; exact State.gang?_putGang_same _ _ _
  have hgo : sweepGo (u1.countedBefore r.gang (g1.putCounter k (g1.counter k - 1))) (g1.putCounter k (g1.counter k - 1)).tokens
      (g1.putCounter k (g1.counter k - 1)) = { g1.putCounter k (g1.counter k - 1) with tokens := [] } := by
    rw [show (g1.putCounter k (g1.counter k - 1)).tokens = [] from htok1]
    rfl
  have hlast : ((u1.sweepTokens r.gang).gang? r.gang) = some { g1.putCounter k (g1.counter k - 1) with tokens := [] } := by
    rw [State.sweepTokens, State.modGang_some hget, hgo]
    exact State.gang?_putGang_same _ _ _
  refine ⟨RemoteOut.takes_of hd (fun h => Bool.noConfusion h) ?_ ?_ hlast (fun e => ?_), _, hlast, ?_, fun j hj => ?_⟩
  · rw [State.sweepTokens, State.modGang_some hget, ← hu1]
    exact State.remote?_dropRemote _ _
  · rw [State.sweepTokens, State.modGang_some hget, ← hu1]
    rfl
  · rw [show g.takeReply ident r _ = g1 from hg1]
    exact Gang.settled_congr (by rfl) (by rfl) (by rfl) (by rfl) e
  · refine (Gang.counter_putCounter g1 k _ k).trans ?_
    rw [if_pos rfl, Gang.counter, hk1]; rfl
  · refine (Gang.counter_putCounter g1 k _ j).trans ?_
    rw [if_neg hj, Gang.counter, hk1]; rfl

/-- The parts of a RATOM's answer that its group does not wait for. -/
theorem RemoteOut.faultsOf_none (r : RemoteOut) (x : RemoteReply) (hf : r.faults = []) (hx : x.lanes = [.value l v]) :
    (r.faults ++ (r.faultsOf x).map (peerRecord (replyEcc x))).sortedBy (fun a b => decide (a.1 ≤ b.1)) = [] := by
  rw [hf, RemoteOut.faultsOf, hx]
  rfl

/-- The answer to an operation that is neither an RLD nor an RST is a RATOM's. -/
theorem State.reply_ratom {x : RemoteReply} (hr : s.remote? x.ident = some r) (hk : r.op.kind ≠ .rld) (hk' : r.op.kind ≠ .rst) :
    s.reply x = s.ratomReply r x := by
  rw [State.reply, hr]
  cases hkind : r.op.kind with
  | rld => exact absurd hkind hk
  | rst => exact absurd hkind hk'
  | add => simp only [hkind]
  | cas => simp only [hkind]
  | fadd => simp only [hkind]

/-- O46, the answer to a RATOM. -/
theorem ratomResponse_takes (hr : s.remote? ident = some r) (hg : s.gang? r.gang = some g) (hsaved : s.isSaved g.team = false)
    (hl : ∀ x ∈ r.op.lanes, x.lane = l) (hd : r.d = d.toNat) (hk : r.op.kind ≠ .rld) (hk' : r.op.kind ≠ .rst) (hkc : r.kc = none)
    (hf : r.faults = []) (hw : g.waitsRatom ident r.mask = true) :
    Gives (.ratomResponse { ident := ident, refused := false, lanes := [.value l v] }) s (fun t => r.takes s g ident l v d t true ∧
      ∃ g', t.gang? r.gang = some g' ∧ ∀ y ∈ g'.groups, y.slices = r.mask → y.pc = r.opc + 4 ∧ y.park = none) := by
  let x : RemoteReply := { ident := ident, refused := false, lanes := [.value l v] }
  obtain ⟨ms, hs⟩ := s.performed_reply x
  let u : State := { s with inbound := ms }
  refine gives_whenever (exec_ratomResponse s x) (by
    rw [show s.remote? x.ident = some r from hr]
    simp [hk, hk', State.replySaved_false x hr hg hsaved]) ?_
  have hreply : u.reply x = u.ratomReply r x := State.reply_ratom hr hk hk'
  rw [hs]
  show (fun t => _) (u.reply x)
  have hover : ({ r with answered := r.answered ++ [l], faults := [] } : RemoteOut).over = true := by
    refine List.all_eq_true.mpr (fun y hy => ?_)
    rw [hl y hy]
    simp
  have hshape : u.ratomReply r x =
      ((u.putGang r.gang (g.takeReply ident r x)).dropRemote ident).wake r.gang r.mask (r.opc + 4) := by
    rw [State.ratomReply, show u.gang? r.gang = some g from hg]
    dsimp only
    rw [if_neg Bool.false_ne_true, if_pos hw, RemoteOut.faultsOf_none r x hf rfl, State.modGang_some (show u.gang? r.gang = some g from hg)]
    dsimp only
    rw [State.answered_over (r := { r with answered := r.answered ++ x.lanes.map replyLane, faults := [] }) hover hkc]
  rw [hreply, hshape]
  generalize hg1 : g.takeReply ident r x = g1
  have hput : ((u.putGang r.gang g1).dropRemote ident).gang? r.gang = some g1 := State.gang?_putGang_same _ _ _
  rw [State.wake, State.modGang_some hput]
  refine ⟨RemoteOut.takes_of hd (fun _ => hk') (State.remote?_dropRemote _ _) rfl (State.gang?_putGang_same _ _ _) (fun e => ?_),
    _, State.gang?_putGang_same _ _ _, fun y hy hm => ?_⟩
  · rw [Gang.settled_modGroup, Gang.settled_retire, ← hg1]
  · obtain ⟨z, hz, rfl⟩ := List.mem_map.mp hy
    rw [Gang.groups_retire] at hz
    obtain ⟨w, hw, rfl⟩ := List.mem_map.mp hz
    by_cases hwm : w.slices == r.mask
    · simp [hwm]
    · simp [hwm] at hm
      exact absurd hm (by simpa using hwm)

/-- O46, the refusal of a RATOM. -/
theorem ratomResponse_refused (hr : s.remote? ident = some r) (hg : s.gang? r.gang = some g) (hsaved : s.isSaved g.team = false)
    (hk : r.op.kind ≠ .rld) (hk' : r.op.kind ≠ .rst) (hw : g.waitsRatom ident r.mask = true) (hin : g.inh = false)
    (hth : (s.part (s.teamPart g.team)).then_ = true) :
    Gives (.ratomResponse { ident := ident, refused := true, lanes := [] }) s (fun t => t.remote? ident = none ∧ t.vault = s.vault ∧
      ∃ g', t.gang? r.gang = some g' ∧ g'.inh = true ∧ g'.trap.cause = Cause.atomicUnsupported ∧ g'.trap.tpc = r.opc) := by
  let x : RemoteReply := { ident := ident, refused := true, lanes := [] }
  obtain ⟨ms, hs⟩ := s.performed_reply x
  let u : State := { s with inbound := ms }
  refine gives_whenever (exec_ratomResponse s x) (by
    rw [show s.remote? x.ident = some r from hr]
    simp [hk, hk', State.replySaved_false x hr hg hsaved]) ?_
  have hreply : u.reply x = u.ratomReply r x := State.reply_ratom hr hk hk'
  let freed : Gang := { g with awaits := g.awaits.filter (fun a => a.kind != .remote ident) }
  let back : Gang := freed.modGroup r.mask (fun y => { y with park := none })
  let info : TrapInfo :=
    { g.followInfo r.mask r.opc r.opc with tmask := r.tmask, defer := false, cause := Cause.atomicUnsupported }
  have hshape : u.ratomReply r x =
      (((u.putGang r.gang freed).dropRemote ident).putGang r.gang back).takeTrap r.gang info := by
    rw [State.ratomReply, show u.gang? r.gang = some g from hg]
    dsimp only
    rw [if_pos rfl, if_pos hw, State.modGang_some (show u.gang? r.gang = some g from hg), State.represent,
      State.modGang_some (s := (u.putGang r.gang freed).dropRemote ident) (g := freed) (State.gang?_putGang_same _ _ _)]
  have hput : (((u.putGang r.gang freed).dropRemote ident).putGang r.gang back).gang? r.gang = some back :=
    State.gang?_putGang_same _ _ _
  rw [hs]
  show (fun t => _) (u.reply x)
  rw [hreply, hshape, State.takeTrap_handler_shape info hput hin hth]
  exact ⟨State.remote?_dropRemote _ _, rfl, _, State.gang?_putGang_same _ r.gang _, rfl, rfl, rfl⟩

end

/-- Settles O46: the arrival, one lane and all; what waits for its turn; and the answers, each to its kind. -/
theorem remoteOperationsArePerformedAndAnswered : Obligations.RemoteOperationsArePerformedAndAnswered := by
  unfold Obligations.RemoteOperationsArePerformedAndAnswered
  dsimp only
  refine ⟨fun s op l hl hne hfirst hready => ⟨fun hdom => ?_, fun hdom => ⟨fun e he => ?_, fun pa hpa hs => ?_, fun pa hpa hs => ?_⟩⟩,
    fun s op hne hfirst hready => remoteOperation_performed hne hfirst hready, fun s op hfirst hdue => ?_,
    fun s r g ident l v d hr hg hsaved hl hd => ⟨fun hk hkc => rldReply_takes hr hg hsaved hl hd hk hkc,
      fun k hk hkc htok => rstAck_takes hr hg hsaved hl hd hk hkc htok,
      fun hk hk' hkc hf hw => ratomResponse_takes hr hg hsaved hl hd hk hk' hkc hf hw,
      fun hk hk' hw hin hth => ratomResponse_refused hr hg hsaved hk hk' hw hin hth⟩⟩
  · exact remoteOperation_faults hl hne hfirst hready (State.remoteAccess_foreign hdom)
  · exact remoteOperation_faults hl hne hfirst hready (State.remoteAccess_error hdom he)
  · exact remoteOperation_faults hl hne hfirst hready (State.remoteAccess_spoiled hdom hpa hs)
  · obtain ⟨t, ht, hnet, hvault, hbroke⟩ := remoteOperation_reaches hl hne hfirst hready (State.remoteAccess_ok hdom hpa hs)
    obtain ⟨hsilent, hnone, hsome⟩ := Memory.writeNat_spec _ _ _ _ _ hvault
    refine ⟨t, ht, hnet, hsilent, fun hk => hnone ?_, fun hk => hsome _ ?_, fun hk hk' => ?_, fun hwrites id g lane gr hg hgr => ?_⟩
    · rw [remoteValue, if_pos hk]
    · rw [remoteValue, if_neg (by rw [hk]; exact RemoteKind.noConfusion), if_pos hk]
    · have hv : remoteValue op l (Memory.readNat s.vault pa (esize op.etype.toNat)) = atomNew (remoteAtom op.kind) op.etype.toNat op.sat
          (Memory.readNat s.vault pa (esize op.etype.toNat)) l.arg.toNat l.new.toNat := by
        rw [remoteValue, if_neg hk, if_neg hk']
      rw [← hv]
      split
      · next v hv => exact hsome v hv
      · next hv => exact hnone hv
    · have hval : (remoteValue op l (Memory.readNat s.vault pa (esize op.etype.toNat))).isSome = true := by
        rcases hwrites with hk | ⟨hk, hnew⟩
        · rw [remoteValue, if_neg (by rw [hk]; exact RemoteKind.noConfusion), if_pos hk]; rfl
        · rw [remoteValue, if_neg hk]
          split
          · rfl
          · exact hnew
      obtain ⟨g', hg', -, hb⟩ := (hbroke id).2 g hg
      refine ⟨g', hg', fun hin => ?_, fun hout hwf => (hb.kept hwf).2 lane gr (fun h => hout h.2) hgr⟩
      rcases hb.less lane with e | e
      · exact absurd (e.trans hgr) (hb.lost lane gr ⟨hval, hin⟩ (by simp))
      · exact e
  · have hrcvd : (s.arrive (.remote op)).firstInbound (.remote op) = false := by
      obtain ⟨ms, h⟩ := s.arrive_shape (.remote op)
      rw [h]; exact hfirst
    refine ⟨s.arrive (.remote op), by rw [exec_remoteOpArrival, hrcvd]; rfl, ?_⟩
    rw [State.arrive, hdue]
    split
    · next h =>
      refine ⟨rfl, ?_⟩
      simpa using h
    · exact ⟨rfl, List.mem_append_right _ (List.mem_singleton_self _)⟩

end Sys2Proof.Machine
end

section
/-! PROOFS. The refutation of O48: bytes of a QSEND that fall on the domain table (R373, R400). -/

namespace Sys2Proof.Machine

/-- A machine whose partition 0 has one page of the vault at address 0; its domain table, at the start of that page, names
partition 0 of package 1, which is 0x8000 at byte 2. -/
def domainMachine : State :=
  { State.reset with
    vault := Memory.writeNat [] 2 2 0x8000
    parts := [(0, { Partition.reset with vsize := 1 })]
    tlb := [⟨0, 0, 65536, 13⟩] }

/-- The last two bytes of a QSEND of package 1, zeros that fall on that entry, with a notify at byte 64. -/
def domainBytes : QData :=
  { ident := 7, srcPkg := 1, srcPart := 0, seq := 0, part := 0, dst := 2, data := [0, 0], last := true, total := 1, note := true, nva := 64 }

/-- The machine once those bytes are in the vault. -/
def domainWritten : State :=
  ((((domainMachine.arrive (.qdata domainBytes)).unbook 4 ((domainMachine.arrive (.qdata domainBytes)).qPlaces domainBytes)).performed
    (.qdata domainBytes)).qWrite domainBytes)

/-- The notify word after the arrival. -/
def domainNotify : Option Nat := match exec (.qsendDataArrival domainBytes) domainMachine with
  | .next t => some (Memory.readNat t.vault 64 8)
  | _ => none

/-- The bytes leave the sender outside the domain, so that its notify is not made. -/
theorem domainNotify_eq : domainNotify = some 0 := by decide +kernel

/-- Refutes O48: the last bytes of a QSEND are written over the entry of the domain table that admits their sender; the domain is
looked at again before the notify, which is then not made, though its page can be written. -/
theorem not_collectivesAndSendsComplete : ¬ Obligations.CollectivesAndSendsComplete := by
  unfold Obligations.CollectivesAndSendsComplete
  intro h
  obtain ⟨-, -, -, hq, -⟩ := h
  obtain ⟨-, -, hok⟩ := hq domainMachine domainBytes 2 2 (by decide +kernel) (by decide +kernel) (by decide +kernel)
  obtain ⟨-, -, -, hnote⟩ := hok 2 (by decide +kernel) (by decide +kernel) rfl rfl
  have hacc : domainWritten.access 0 64 8 Need.atomic = .ok 64 := by decide +kernel
  have hzero : Memory.readNat domainWritten.vault 64 8 = 0 := by decide +kernel
  obtain ⟨t, ht, hsum, -, -⟩ := (hnote rfl rfl).1 64 hacc (by decide +kernel)
  have hread : domainNotify = some (Memory.readNat t.vault 64 8) := by rw [domainNotify, ht]
  have hone : Memory.readNat t.vault 64 8 = 1 := hsum.trans (congrArg (fun x => (x + domainBytes.total) % 2 ^ 64) hzero)
  rw [domainNotify_eq, hone] at hread
  exact absurd (Option.some.inj hread) (by decide)

end Sys2Proof.Machine
end

section
/-! PROOFS. Resources, shootdowns, windows, the fault queue and attestation (R386, R397-R407). -/

namespace Sys2Proof.Machine

/-! ### Resources (R386) -/

theorem rangesMeet_iff (a n b m : Nat) : rangesMeet a n b m = true ↔ 0 < n ∧ 0 < m ∧ a < b + m ∧ b < a + n := by
  simp only [rangesMeet, Bool.and_eq_true, decide_eq_true_eq, bne_iff_ne]
  omega

/-- Another partition holds some of what q would. -/
theorem State.conflicts_iff (s : State) (part : Nat) (q : Partition) : s.conflicts part q = true ↔ ∃ n < 16, n ≠ part ∧
    ((s.part n).clusters &&& q.clusters ≠ 0 ∨ (0 < (s.part n).vsize ∧ 0 < q.vsize ∧ (s.part n).vbase < q.vbase + q.vsize ∧
      q.vbase < (s.part n).vbase + (s.part n).vsize)) := by
  simp [State.conflicts, rangesMeet_iff]

/-- The registers of a partition that the physical function writes, and what they become. -/
theorem State.assignPart_eq (s : State) (part : Nat) (v : Word) (e : Nat × Partition)
    (he : e ∈ [(0x1003, { s.part part with vbase := v.toNat % 8192 }),
        (0x1004, { s.part part with vsize := min 8192 (v.toNat % 16384) }),
        (0x1005, { s.part part with clusters := (s.part part).clusters.extractLsb' 32 8 ++ v }),
        (0x1006, { s.part part with clusters := v.extractLsb' 0 8 ++ (s.part part).clusters.extractLsb' 0 32 })]) :
    s.assignPart part e.1 v = if s.noLaunch part && !s.conflicts part e.2 then s.putPart part e.2 else s := by
  have h13 : bits v.toNat 12 0 = v.toNat % 8192 := by simp [bits]
  have h14 : bits v.toNat 13 0 = v.toNat % 16384 := by simp [bits]
  simp only [List.mem_cons, List.not_mem_nil, or_false] at he
  rcases he with rfl | rfl | rfl | rfl
  · simp only [State.assignPart, h13]
  · simp only [State.assignPart, h14]
  · rfl
  · rfl

/-- A write of one of them. -/
theorem exec_resource {s : State} {part : Nat} {v : Word} {e : Nat × Partition}
    (he : e ∈ [(0x1003, { s.part part with vbase := v.toNat % 8192 }),
        (0x1004, { s.part part with vsize := min 8192 (v.toNat % 16384) }),
        (0x1005, { s.part part with clusters := (s.part part).clusters.extractLsb' 32 8 ++ v }),
        (0x1006, { s.part part with clusters := v.extractLsb' 0 8 ++ (s.part part).clusters.extractLsb' 0 32 })]) :
    exec (.partitionResourceWrite part e.1 v) s =
      whenReady s (if s.noLaunch part && !s.conflicts part e.2 then s.putPart part e.2 else s) := by
  rw [← State.assignPart_eq s part v e he]
  have haddr : ¬ (0x4040 ≤ e.1 ∧ e.1 < 0x4080) := by
    simp only [List.mem_cons, List.not_mem_nil, or_false] at he
    rcases he with rfl | rfl | rfl | rfl <;> simp
  show execPartitionResourceWrite part e.1 v s = _
  rw [execPartitionResourceWrite, if_neg haddr]

theorem exec_pairOwner {s : State} {part f : Nat} (v : Word) (h : f < 64) :
    exec (.partitionResourceWrite part (0x4040 + f) v) s = whenReady s (s.writePair true f v) := by
  show execPartitionResourceWrite part (0x4040 + f) v s = _
  rw [execPartitionResourceWrite, if_pos ⟨by omega, by omega⟩, Nat.add_sub_cancel_left]

/-- A write of a pair that its owner's launches or another owner forbids. -/
theorem State.writePair_refused {s : State} {f : Nat} {v : Word} (h : s.ownerOk f v = false) : s.writePair true f v = s := by
  rw [State.writePair, h]; rfl

theorem bit_getLsbD {n : Nat} (v : BitVec n) (i : Nat) : bit v.toNat i = v.getLsbD i := by
  rw [bit, BitVec.getLsbD, Nat.testBit_eq_decide_div_mod_eq]
  exact beq_eq_decide _ _

/-- What the owner of a pair becomes (R386). -/
theorem State.ownerOk_eq (s : State) (f : Nat) (v : Word) : s.ownerOk f v =
    if (s.pair f).ownv = true then
      if v.getLsbD 4 = true then decide ((s.pair f).owner = v.toNat % 16) else s.noLaunch (s.pair f).owner
    else if v.getLsbD 4 = true then s.noLaunch (v.toNat % 16) else true := by
  have h4 : bits v.toNat 3 0 = v.toNat % 16 := by simp [bits]
  rw [State.ownerOk, Pair.owner?, bit_getLsbD, h4]
  cases (s.pair f).ownv <;> cases v.getLsbD 4 <;> simp [beq_eq_decide]

/-- Pair f as a write by the physical function leaves it, but for its fabric. -/
def State.pairTaken (s : State) (f : Nat) (v : Word) : Pair :=
  { s.pair f with
    owner := bits v.toNat 3 0
    ownv := bit v.toNat 4
    ref := (s.pair f).ref && (!bit v.toNat 7 || s.risen.contains (.pairRef f))
    evt := (s.pair f).evt && (!bit v.toNat 10 || s.risen.contains (.pairEvt f)) }

/-- A write of a pair that leaves its fabric where it is. -/
theorem State.writePair_taken {s : State} {f : Nat} {v : Word} (h : s.ownerOk f v = true) (hfab : v.getLsbD 5 = (s.pair f).fab) :
    let t := s.writePair true f v
    t = { s with pairs := t.pairs } ∧ (∀ g, g ≠ f → t.pair g = s.pair g) ∧ (t.pair f).owner = v.toNat % 16 ∧
      (t.pair f).ownv = v.getLsbD 4 ∧ (t.pair f).fab = (s.pair f).fab ∧ (t.pair f).spuse = (s.pair f).spuse := by
  have h4 : bits v.toNat 3 0 = v.toNat % 16 := by simp [bits]
  intro t
  obtain ⟨x, hx, ho, hv, hf, hu⟩ : ∃ x : Pair, t = (s.putPair f x).writeFabreq f (s.pair f).fab ∧ x.owner = v.toNat % 16 ∧
      x.ownv = v.getLsbD 4 ∧ x.fab = (s.pair f).fab ∧ x.spuse = (s.pair f).spuse := by
    refine ⟨s.pairTaken f v, ?_, h4, bit_getLsbD v 4, rfl, rfl⟩
    show s.writePair true f v = _
    rw [State.writePair, h, if_neg (by decide), bit_getLsbD v 5, hfab]
    rfl
  have hpair : (s.putPair f x).pair f = x := Tbl.get_set_same _ _ _ _
  have ht : t = (s.putPair f x).putPair f { x with fabreq := (s.pair f).fab } := by
    rw [hx, State.writeFabreq, hpair, if_pos (by rw [hf]; exact beq_self_eq_true _)]
  have hsame : t.pair f = { x with fabreq := (s.pair f).fab } := by
    rw [ht]; exact Tbl.get_set_same _ _ _ _
  rw [hsame]
  refine ⟨by rw [ht]; rfl, fun g hg => ?_, ho, hv, hf, hu⟩
  rw [ht]
  exact (Tbl.get_set_other _ _ _ hg).trans (Tbl.get_set_other _ _ _ hg)

/-! ### The fault queue (R404) -/

/-- A gang but for its groups. -/
theorem Gang.rest_of_groups {g h : Gang} (e : h = { g with groups := h.groups }) : h.rest = g.rest := by rw [e]; rfl

/-- One group of the fault queue is answered. -/
def State.answerFault (b : Bool) (s : State) (e : Nat × Group) : State :=
  s.modGang e.1 (fun g => g.modGroup e.2.slices (fun x => { x with park := none, deliver := b }))

/-- What the answers to some groups leave of a gang. -/
theorem State.answerFaults_gang (b : Bool) (es : List (Nat × Group)) (s : State) (id : Nat) (g : Gang) (hg : s.gang? id = some g) :
    ∃ g', (es.foldl (State.answerFault b) s).gang? id = some g' ∧ g'.rest = g.rest ∧
      ∀ m, ((∃ x, (id, x) ∈ es ∧ x.slices = m) ∨ ∀ y ∈ g.groups, y.slices = m → y.park = none ∧ y.deliver = b) →
        ∀ y ∈ g'.groups, y.slices = m → y.park = none ∧ y.deliver = b := by
  induction es generalizing s g with
  | nil =>
    refine ⟨g, hg, rfl, fun m h => ?_⟩
    rcases h with ⟨x, hx, -⟩ | h
    · exact absurd hx List.not_mem_nil
    · exact h
  | cons e es ih =>
    by_cases hid : e.1 = id
    · have hstep : (s.answerFault b e).gang? id = some (g.modGroup e.2.slices (fun x => { x with park := none, deliver := b })) := by
        rw [State.answerFault, hid, State.modGang_some hg]
        exact State.gang?_putGang_same _ _ _
      obtain ⟨g', hg', hrest, hall⟩ := ih _ _ hstep
      refine ⟨g', hg', hrest.trans (Gang.rest_modGroup _ _ _), fun m h => hall m ?_⟩
      by_cases hm : e.2.slices = m
      · right
        intro y hy hs
        obtain ⟨z, -, rfl⟩ := List.mem_map.mp hy
        by_cases hz : z.slices == e.2.slices
        · simp [hz]
        · simp only [hz, Bool.false_eq_true, if_false] at hs
          exact absurd (hs.trans hm.symm) (by simpa using hz)
      · rcases h with ⟨x, hx, hs⟩ | h
        · left
          rcases List.mem_cons.mp hx with rfl | hx
          · exact absurd hs hm
          · exact ⟨x, hx, hs⟩
        · right
          intro y hy hs
          obtain ⟨z, hz, rfl⟩ := List.mem_map.mp hy
          by_cases hze : z.slices == e.2.slices
          · simp [hze]
          · simp only [hze, Bool.false_eq_true, if_false] at hs ⊢
            exact h z hz hs
    · have hstep : (s.answerFault b e).gang? id = some g := by
        rw [State.answerFault, State.modGang]
        split
        · exact (State.gang?_putGang_other _ _ (Ne.symm hid)).trans hg
        · exact hg
      obtain ⟨g', hg', hrest, hall⟩ := ih _ _ hstep
      refine ⟨g', hg', hrest, fun m h => hall m ?_⟩
      rcases h with ⟨x, hx, hs⟩ | h
      · rcases List.mem_cons.mp hx with rfl | hx
        · exact absurd rfl hid
        · exact Or.inl ⟨x, hx, hs⟩
      · exact Or.inr h

/-- The groups of a partition that wait for an entry of the fault queue. -/
theorem State.mem_faultWaiters {s : State} {part index id : Nat} {g : Gang} {x : Group} (hg : s.gang? id = some g)
    (hres : s.resident g = true) (hpart : s.teamPart g.team = part) (hx : x ∈ g.groups) (hp : x.park = some (.faultq index)) :
    (id, x) ∈ s.faultWaiters part index := by
  refine List.mem_flatMap.mpr ⟨(id, g), mem_listed_of_get hg, ?_⟩
  rw [if_pos (by simp [hpart, hres])]
  exact List.mem_map.mpr ⟨x, List.mem_filter.mpr ⟨hx, by simp [hp]⟩, rfl⟩

/-- O59, FQACK. -/
theorem faultAck_spec {s : State} {part id : Nat} {v : Word} {g : Gang} {x : Group} (hg : s.gang? id = some g)
    (hres : s.resident g = true) (hpart : s.teamPart g.team = part) (hx : x ∈ g.groups)
    (hp : x.park = some (.faultq (v.toNat % 2 ^ 16))) :
    ∃ g', (s.faultAck part v).gang? id = some g' ∧ g'.rest = g.rest ∧
      ∀ y ∈ g'.groups, y.slices = x.slices → y.park = none ∧ y.deliver = v.getLsbD 16 := by
  have h16 : bits v.toNat 15 0 = v.toNat % 2 ^ 16 := by simp [bits]
  obtain ⟨g', hg', hrest, hall⟩ := State.answerFaults_gang (v.getLsbD 16) (s.faultWaiters part (v.toNat % 2 ^ 16)) s id g hg
  refine ⟨g', ?_, hrest, hall x.slices (Or.inl ⟨x, State.mem_faultWaiters hg hres hpart hx hp, rfl⟩)⟩
  rw [State.faultAck, h16, bit_getLsbD]
  exact hg'

/-! ### Attestation (R406, R407) -/

theorem State.part_modPart (s : State) (n : Nat) (f : Partition → Partition) : (s.modPart n f).part n = f (s.part n) := by
  rw [State.modPart, State.part_putPart, if_pos rfl]

theorem State.part_dropPages (s : State) (part n : Nat) (va : Option Nat) : (s.dropPages part va).part n = s.part n := rfl

/-- A shootdown begins (R397). -/
theorem State.shoot_go {s : State} {part : Nat} (n : BitVec 16) (hb : (s.part part).shootBusy = false) :
    (s.shoot part n true).part part = { s.part part with nseq := n, seq := n, shootBusy := true, shootAt := s.next } ∧
    (s.shoot part n true).tlb = s.tlb.filter (fun p => !(p.part == part)) := by
  have hgo : s.shoot part n true = ((s.modPart part (fun p => { p with nseq := n })).modPart part
      (fun p => { p with seq := n, shootBusy := true, shootAt := s.next })).dropPages part none := by
    rw [State.shoot, hb, if_pos (by decide)]
  rw [hgo]
  refine ⟨?_, ?_⟩
  · rw [State.part_dropPages, State.part_modPart, State.part_modPart]
  · show List.filter _ s.tlb = _
    simp

theorem freshNonce_length (n : Nat) : (freshNonce n).length = 32 := by simp [freshNonce]

/-- A report that is trusted has its length, the nonce, and a signature that verifies. -/
theorem trustedReport_parts {nonce bs : List Byte} (h : trustedReport nonce bs = true) :
    bs.length = 3877 ∧ (bs.drop 8).take 32 = nonce ∧ Config.verify (bs.take 568) (bs.drop 568) = true := by
  simp only [trustedReport, Bool.and_eq_true, beq_iff_eq] at h
  obtain ⟨⟨⟨⟨⟨hlen, -⟩, -⟩, hnonce⟩, -⟩, hver⟩ := h
  refine ⟨hlen, ?_, hver⟩
  rw [← hnonce, List.drop_take, List.take_take]
  rfl

/-- The trust of one module falls in each of some partitions. -/
theorem State.trust_forgotten (modid : Nat) (ns : List Nat) (s : State) (part m : Nat) :
    Tbl.get 0 ((ns.foldl (fun acc n => acc.modPart n (fun p => { p with trust := Tbl.set 0 p.trust modid 0 })) s).part part).trust m =
      if part ∈ ns ∧ m = modid then 0 else Tbl.get 0 (s.part part).trust m := by
  induction ns generalizing s with
  | nil => simp
  | cons n ns ih =>
    have hone : Tbl.get 0 ((s.modPart n (fun p => { p with trust := Tbl.set 0 p.trust modid 0 })).part part).trust m =
        if part = n ∧ m = modid then 0 else Tbl.get 0 (s.part part).trust m := by
      rw [State.modPart, State.part_putPart]
      by_cases hn : part = n
      · subst hn
        rw [if_pos rfl]
        refine (Tbl.get_set 0 (s.part part).trust modid m 0).trans ?_
        simp
      · rw [if_neg hn, if_neg (fun h => hn h.1)]
    rw [List.foldl_cons, ih, hone]
    by_cases h1 : part ∈ ns <;> by_cases h2 : m = modid <;> by_cases h3 : part = n <;> simp [h1, h2, h3]

/-- A report of the package, written. -/
theorem gives_attestReportWritten {s : State} {part : Nat} {rest : List Nat} (hrest : s.attests = part :: rest)
    (howns : (s.part part).owns (s.part part).reportBuffer 3904 = true)
    (hready : s.runsReady 4 [((s.part part).reportBuffer, 3904)] true = true) :
    let p := s.part part
    let r := s.report part (Memory.readBytes s.vault p.reportBuffer 40)
    Gives (.attestReportWritten part) s (fun t => (t.part part).abusy = false ∧ t.attests = rest ∧
      t.out = s.out ++ [.msix part p.atvec.toNat] ∧ Memory.readBytes t.vault (p.reportBuffer + r.1) r.2.length = r.2) := by
  intro p r
  let u : State := { s.unbook 4 [(p.reportBuffer, 3904)] with attests := s.attests.drop 1 }.putPart part { p with abusy := false }
  let t : State := (u.writeAtOnce .iod 4 (p.reportBuffer + r.1) r.2).emit (.msix part p.atvec.toNat)
  have he : exec (.attestReportWritten part) s = .next t := by
    show execAttestReportWritten part s = _
    have hhead : (s.attests.head? == some part) = true := by rw [hrest]; simp
    rw [execAttestReportWritten, howns, hhead, State.writing, if_pos hready]
    rfl
  have hbeyond := State.vaultOnly_writeAtOnce u .iod 4 (p.reportBuffer + r.1) r.2
  refine ⟨t, he, ?_, ?_, ?_, ?_⟩
  · show Partition.abusy ((u.writeAtOnce .iod 4 (p.reportBuffer + r.1) r.2).part part) = false
    rw [hbeyond.part, State.part_putPart, if_pos rfl]
  · refine (hbeyond.same State.attests (fun _ => rfl)).trans ?_
    show s.attests.drop 1 = rest
    rw [hrest]; rfl
  · exact congrArg (· ++ _) (hbeyond.same State.out (fun _ => rfl))
  · show Memory.readBytes (u.writeAtOnce .iod 4 (p.reportBuffer + r.1) r.2).vault _ _ = _
    rw [State.vault_writeAtOnce]
    exact Memory.readBytes_writeBytes _ _ _

/-! ### The host's window on the vault (R402, R474) -/

section
variable {s : State} {part offset len : Nat}

theorem exec_hostBar2 (s : State) (part offset len : Nat) (write : Option (List Byte)) :
    exec (.hostBar2Access part offset len write) s = whenReady s
      (if s.house.cur = 2 then s.emit (.hostAbort part)
       else if (s.part part).vsize * 65536 ≤ offset ∨ (s.part part).vsize * 65536 < offset + (match write with
           | some bs => bs.length
           | none => len) then s.emit (.hostUnsupported part)
       else match write with
         | some bs => State.iodBytes (bs.length + 1) s ((s.part part).vbase * 65536 + offset) bs
         | none =>
           if s.uncovered (s.vcOf 4) then s
           else ((List.range (len / 64 + 2)).foldl (fun acc i => acc.mergeIod ((s.part part).vbase * 65536 + offset + 64 * i)) s).emit
             (.hostRead part (Memory.readBytes s.vault ((s.part part).vbase * 65536 + offset) len))) := by
  cases write <;> rfl

/-- What the IOD agent merges is its clock alone. -/
theorem State.mergeIods_same (pas : List Nat) (f : Nat → Nat) (s : State) :
    (pas.foldl (fun acc i => acc.mergeIod (f i)) s).vault = s.vault ∧ (pas.foldl (fun acc i => acc.mergeIod (f i)) s).out = s.out :=
  List.foldlRecOn pas _ (motive := fun v : State => v.vault = s.vault ∧ v.out = s.out) ⟨rfl, rfl⟩ (fun _ hv _ _ => hv)

/-- Bytes within one aligned unit are one store of the IOD agent (R195). -/
theorem State.iodBytes_one {pa : Nat} {bs : List Byte} (hne : bs ≠ []) (hfit : pa % 8 + bs.length ≤ 8) :
    State.iodBytes (bs.length + 1) s pa bs = s.iodStore pa bs [] := by
  have htake : bs.take (8 - pa % 8) = bs := List.take_of_length_le (by omega)
  have hdrop : bs.drop (8 - pa % 8) = [] := List.drop_eq_nil_of_le (by omega)
  rw [State.iodBytes, if_neg (by simpa using hne), htake, hdrop]
  cases bs with
  | nil => exact absurd rfl hne
  | cons b bs => rfl

/-- O59, a write of the host within one unit. -/
theorem hostWrite_spec {bs : List Byte} (hphase : s.house.phase = 5) (hcur : s.house.cur ≠ 2)
    (hin : offset + bs.length ≤ (s.part part).vsize * 65536) (hne : 0 < bs.length) (hfit : offset % 8 + bs.length ≤ 8)
    (hq : s.iodq = []) (hfull : s.fullOf 4 = false) :
    Gives (.hostBar2Access part offset len (some bs)) s (fun t => t.vault = s.vault ∧
      ∃ r ∈ t.vreqs, r.agent = 4 ∧ r.pa = (s.part part).vbase * 65536 + offset ∧ r.size = bs.length ∧ r.kind = .write (leNat bs)) := by
  refine gives_whenReady (exec_hostBar2 s part offset len (some bs)) hphase ?_
  have hpa : ((s.part part).vbase * 65536 + offset) % 8 = offset % 8 := by omega
  rw [if_neg hcur, if_neg (by simp only; omega)]
  dsimp only
  rw [State.iodBytes_one (List.ne_nil_of_length_pos hne) (by rw [hpa]; exact hfit), State.iodStore, hq, hfull]
  exact ⟨rfl, _, List.mem_append_right _ (List.mem_singleton_self _), rfl, rfl, rfl, rfl⟩

end

/-- Settles O59: each event of the isolation, clause by clause. -/
theorem isolationEventsHaveTheirEffect : Obligations.IsolationEventsHaveTheirEffect := by
  unfold Obligations.IsolationEventsHaveTheirEffect
  intro s part
  dsimp only
  refine ⟨fun hp addr v n offset len bs => ⟨?_, ?_, ?_, ?_, ?_, ?_⟩, fun hp v e he => ⟨fun hn ht => ?_, fun h => ?_⟩,
    fun hp f hf v hfab => ?_, fun f hf v hv ho hne => ?_, fun f hf v hv ho hl => ?_, fun hp n => ⟨fun hb => ?_, fun hb => ?_⟩,
    fun hd => ?_, fun hd => ?_, fun modid pkg seq => ?_, fun modid ws => ?_, fun v id g x hg hres hpart hx hpk hp => ?_, fun hp => ?_,
    fun modid => ⟨fun htr => ⟨fun n => ?_, fun bs => ?_⟩, fun htr m => ?_, fun hlt => ?_⟩, fun hb hp => ⟨fun ho => ?_, fun ho => ?_⟩,
    fun rest hrest ho => ?_, fun rest hrest ho hready => ?_, fun offset len write hp => ⟨fun hc => ?_, fun hc h => ?_,
    fun hc h1 h2 hu => ?_, fun bs hc hin hlen hpos hfit hq hfull => ?_⟩⟩
  · exact gives_unready (t := if 0x4040 ≤ addr ∧ addr < 0x4080 then s.writePair true (addr - 0x4040) v else s.assignPart part addr v)
      rfl hp
  · exact gives_unready (t := s.shoot part n true) rfl hp
  · exact gives_unready (t := s.faultAck part v) rfl hp
  · exact gives_unready (t := s.attestModule part) rfl hp
  · exact gives_unready (t := s.askReport part) rfl hp
  · exact gives_unready (exec_hostBar2 s part offset len bs) hp
  · refine gives_whenReady (exec_resource he) hp ?_
    rw [hn, Bool.eq_false_iff.mpr (fun hc => ht ((State.conflicts_iff s part e.2).mp hc))]
    rfl
  · refine gives_kept (exec_resource he) ?_
    rcases h with h | h
    · rw [h]; rfl
    · rw [(State.conflicts_iff s part e.2).mpr h, Bool.not_true, Bool.and_false]; rfl
  · refine ⟨fun ho hv hn => gives_whenReady (exec_pairOwner v hf) hp (State.writePair_taken ?_ hfab),
      fun ho hv => gives_whenReady (exec_pairOwner v hf) hp (State.writePair_taken ?_ hfab),
      fun ho hv hn => gives_whenReady (exec_pairOwner v hf) hp (State.writePair_taken ?_ hfab),
      fun ho hv hn => gives_whenReady (exec_pairOwner v hf) hp (State.writePair_taken ?_ hfab),
      fun ho hv hn => gives_kept (exec_pairOwner v hf) (State.writePair_refused ?_)⟩
    · rw [State.ownerOk_eq, ho, hv, hn]; rfl
    · rw [State.ownerOk_eq, ho, hv]; rfl
    · rw [State.ownerOk_eq, ho, hv, hn]; rfl
    · rw [State.ownerOk_eq, ho, hv, hn]; simp
    · rw [State.ownerOk_eq, ho, hv, hn]; rfl
  · refine gives_kept (exec_pairOwner v hf) (State.writePair_refused ?_)
    rw [State.ownerOk_eq, ho, hv]
    simp [hne]
  · refine gives_kept (exec_pairOwner v hf) (State.writePair_refused ?_)
    rw [State.ownerOk_eq, ho, hv, hl]; rfl
  · refine gives_whenReady (t := s.shoot part n true) rfl hp ?_
    obtain ⟨hpart, htlb⟩ := State.shoot_go n hb
    rw [hpart]
    refine ⟨rfl, rfl, rfl, fun e => ?_⟩
    rw [htlb]
    simp
  · refine gives_whenReady (t := s.shoot part n true) rfl hp ?_
    exact if_neg (by rw [hb]; decide)
  · refine gives_whenever (t := ((s.putPart part { s.part part with shootBusy := false }).emit (.flushedTo part (s.part part).seq)).emit
      (.msix part (s.part part).shvec.toNat)) rfl hd ⟨?_, ?_⟩
    · show Partition.shootBusy ((s.putPart part { s.part part with shootBusy := false }).part part) = false
      rw [State.part_putPart, if_pos rfl]
    · show (s.out ++ [_]) ++ [_] = _
      rw [List.append_assoc]; rfl
  · exact ⟨s, by show whenever (s.shootDone part) s _ = _; rw [hd]; rfl, rfl⟩
  · refine ⟨_, rfl, ?_⟩
    have hmod : ∀ m : Module, (s.putModule modid m).module modid = m := fun m => Tbl.get_set_same _ _ _ _
    dsimp only [State.modModule]
    rw [hmod]
    exact ⟨by simp only [atLeast, decide_eq_true_eq]; rfl, rfl⟩
  · exact ⟨_, rfl, rfl⟩
  · exact gives_whenReady (t := s.faultAck part v) rfl hp (faultAck_spec hg hres hpart hx hpk)
  · refine gives_whenReady (t := s.attestModule part) rfl hp ?_
    have hpart : (s.attestModule part).part part = { s.part part with
        trust := Tbl.set 0 (s.part part).trust (s.part part).modid 1
        nonces := Tbl.set [] (s.part part).nonces (s.part part).modid (freshNonce s.free) } :=
      (State.part_putPart s part part _).trans (if_pos rfl)
    rw [hpart]
    exact ⟨Tbl.get_set_same 0 (s.part part).trust (s.part part).modid 1, freshNonce s.free, freshNonce_length _,
      Tbl.get_set_same [] (s.part part).nonces (s.part part).modid (freshNonce s.free), rfl⟩
  · exact gives_whenever (t := s.emit (.attestReport modid part (s.report part (padTo 8 [] ++ n)).2)) rfl (by simp [htr]) ⟨rfl, _, rfl⟩
  · refine gives_whenever (t := s.putPart part { s.part part with
      trust := Tbl.set 0 (s.part part).trust modid (if trustedReport (Tbl.get [] (s.part part).nonces modid) bs then 2 else 3) })
      rfl (by simp [htr]) ?_
    rw [State.part_putPart, if_pos rfl, Tbl.get_set_same]
    split
    · next h => exact ⟨Or.inl rfl, fun _ => rfl, fun _ => trustedReport_parts h⟩
    · next h => exact ⟨Or.inr rfl, fun h' => absurd h' h, fun h' => absurd h' (by decide)⟩
  · refine ⟨s, ?_, rfl⟩
    have hno : (Tbl.get 0 (s.part part).trust modid == 1) = false := by simpa using htr
    show whenever (Tbl.get 0 (s.part part).trust modid == 1) s _ = _
    rw [hno]; rfl
  · refine ⟨_, rfl, ?_, fun m hm => ?_⟩
    · rw [State.trust_forgotten, if_pos ⟨List.mem_range.mpr hlt, rfl⟩]
    · rw [State.trust_forgotten, if_neg (fun h => hm h.2)]
  · refine gives_whenReady (t := s.askReport part) rfl hp ?_
    have ht : s.askReport part =
        { s.putPart part { s.part part with abusy := true, aerr := false } with attests := s.attests ++ [part] } := by
      rw [State.askReport, hb, if_neg Bool.false_ne_true, if_pos ho]
    have hpart : (s.askReport part).part part = { s.part part with abusy := true, aerr := false } := by
      rw [ht]
      exact (State.part_putPart s part part _).trans (if_pos rfl)
    rw [hpart]
    exact ⟨rfl, rfl, by rw [ht]⟩
  · refine gives_whenReady (t := s.askReport part) rfl hp ?_
    rw [State.askReport, hb, ho, if_neg Bool.false_ne_true]
    exact if_neg Bool.false_ne_true
  · refine ⟨{ s.putPart part { s.part part with abusy := false, aerr := true } with attests := rest }, ?_, rfl⟩
    have hhead : (s.attests.head? == some part) = true := by rw [hrest]; simp
    have hdrop : s.attests.drop 1 = rest := by rw [hrest]; rfl
    show execAttestReportWritten part s = _
    rw [execAttestReportWritten, hhead, ho, hdrop]
    rfl
  · exact gives_attestReportWritten hrest ho hready
  · refine gives_whenReady (exec_hostBar2 s part offset len write) hp ?_
    rw [if_pos hc]
  · refine gives_whenReady (exec_hostBar2 s part offset len write) hp ?_
    rw [if_neg hc, if_pos (by cases write <;> exact h)]
  · refine gives_whenReady (exec_hostBar2 s part offset len none) hp ?_
    rw [if_neg hc, if_neg (by simp only; omega)]
    dsimp only
    rw [hu, if_neg Bool.false_ne_true]
    obtain ⟨hv, ho⟩ := State.mergeIods_same (List.range (len / 64 + 2)) (fun i => (s.part part).vbase * 65536 + offset + 64 * i) s
    exact ⟨hv, congrArg (· ++ _) ho⟩
  · exact hostWrite_spec hp hc hin (by omega) hfit hq hfull

end Sys2Proof.Machine
end

section
/-! PROOFS. What the optical operations leave as it was (R437-R450). -/

namespace Sys2Proof.Machine

/-- The machine but for what optical recovery writes: pairs, links, channels, the plans of the partitions, and what is sent. -/
def State.dark (s : State) : State := { s with pairs := [], links := [], chans := [], parts := [], out := [], risen := [] }

/-- t is s but for those, and every pair keeps its fabric and its owner, every partition its modes. -/
structure State.Optical (s t : State) : Prop where
  dark : t.dark = s.dark
  fab : ∀ f, (t.pair f).fab = (s.pair f).fab
  owner : ∀ f, (t.pair f).owner? = (s.pair f).owner?
  modes : ∀ n, (t.part n).modes = (s.part n).modes

section
variable {s t u : State}

theorem State.Optical.refl (s : State) : s.Optical s := ⟨rfl, fun _ => rfl, fun _ => rfl, fun _ => rfl⟩

theorem State.Optical.trans (h : s.Optical t) (h' : t.Optical u) : s.Optical u :=
  ⟨h'.dark.trans h.dark, fun f => (h'.fab f).trans (h.fab f), fun f => (h'.owner f).trans (h.owner f),
    fun n => (h'.modes n).trans (h.modes n)⟩

theorem State.optical_foldl {α : Type} (l : List α) {f : State → α → State} (h : ∀ (v : State) a, v.Optical (f v a)) (s : State) :
    s.Optical (l.foldl f s) :=
  List.foldlRecOn l f (motive := fun v => s.Optical v) (.refl s) (fun v hv a _ => hv.trans (h v a))

/-- Pairs and partitions as they stand. -/
theorem State.Optical.of_same (hd : t.dark = s.dark) (hp : t.pairs = s.pairs) (hq : t.parts = s.parts) : s.Optical t := by
  have pair : ∀ f, t.pair f = s.pair f := fun f => congrArg (fun x => Tbl.get Pair.reset x f) hp
  have part : ∀ n, t.part n = s.part n := fun n => congrArg (fun x => Tbl.get Partition.reset x n) hq
  exact ⟨hd, fun f => by rw [pair], fun f => by rw [pair], fun n => by rw [part]⟩

theorem State.pair_putPair (s : State) (f g : Nat) (x : Pair) : (s.putPair f x).pair g = if g = f then x else s.pair g :=
  Tbl.get_set Pair.reset s.pairs f g x

theorem State.chan_putChan (s : State) (c d : Nat) (x : Chan) : (s.putChan c x).chan d = if d = c then x else s.chan d :=
  Tbl.get_set Chan.reset s.chans c d x

theorem State.chan_modChan (s : State) (c d : Nat) (f : Chan → Chan) :
    (s.modChan c f).chan d = if d = c then f (s.chan c) else s.chan d := s.chan_putChan c d _

theorem State.link_putLink (s : State) (k j : Nat) (x : Link) : (s.putLink k x).link j = if j = k then x else s.link j :=
  Tbl.get_set Link.reset s.links k j x

theorem State.optical_putChan (s : State) (c : Nat) (x : Chan) : s.Optical (s.putChan c x) := .of_same rfl rfl rfl
theorem State.optical_modChan (s : State) (c : Nat) (f : Chan → Chan) : s.Optical (s.modChan c f) := .of_same rfl rfl rfl
theorem State.optical_putLink (s : State) (k : Nat) (x : Link) : s.Optical (s.putLink k x) := .of_same rfl rfl rfl

theorem State.optical_putPair {f : Nat} {x : Pair} (hfab : x.fab = (s.pair f).fab) (hown : x.owner? = (s.pair f).owner?) :
    s.Optical (s.putPair f x) := by
  refine ⟨rfl, fun g => ?_, fun g => ?_, fun _ => rfl⟩ <;> rw [State.pair_putPair] <;> split
  · next h => rw [h, hfab]
  · rfl
  · next h => rw [h, hown]
  · rfl

/-! ### Plans -/

/-- What is left of a partition whose step ends. -/
def Partition.planEnded (p : Partition) (st : Nat) : Partition := { p with planStatus := st, planRun := none }

/-- The step of a partition is one of these. -/
def Partition.plans (p : Partition) (f : Nat × Nat → Bool) : Bool := p.planRun.any f

theorem Partition.plans_planEnded (p : Partition) (st : Nat) (f : Nat × Nat → Bool) : (p.planEnded st).plans f = false := rfl

theorem State.part_endPlan (s : State) (part st n : Nat) : (s.endPlan part st).part n =
    if n = part then (s.part part).planEnded st else s.part n := by
  rw [State.endPlan, State.modPart, State.part_putPart]; rfl

/-- The step of one partition ends, if it is one of these. -/
def State.endPlanIf (f : Nat × Nat → Bool) (st : Nat) (s : State) (n : Nat) : State :=
  if (s.part n).plans f = true then s.endPlan n st else s

theorem State.endPlans_eq (s : State) (f : Nat × Nat → Bool) (st : Nat) :
    s.endPlans f st = (List.range 16).foldl (State.endPlanIf f st) s := by
  unfold State.endPlans
  congr
  funext acc n
  unfold State.endPlanIf Partition.plans
  cases (acc.part n).planRun <;> rfl

theorem State.part_endPlansGo (f : Nat × Nat → Bool) (st : Nat) (ns : List Nat) (s : State) (n : Nat) :
    (ns.foldl (State.endPlanIf f st) s).part n =
    if n ∈ ns ∧ (s.part n).plans f = true then (s.part n).planEnded st else s.part n := by
  induction ns generalizing s with
  | nil => simp
  | cons m ns ih =>
    rw [List.foldl_cons, ih, State.endPlanIf]
    by_cases hm : (s.part m).plans f = true
    · rw [if_pos hm, State.part_endPlan]
      by_cases hn : n = m
      · subst hn
        simp [hm, Partition.plans_planEnded]
      · simp [hn]
    · rw [if_neg hm]
      by_cases hn : n = m
      · subst hn
        simp [hm]
      · simp [hn]

/-- The steps of the partitions that end, and no other. -/
theorem State.part_endPlans (s : State) (f : Nat × Nat → Bool) (st n : Nat) : (s.endPlans f st).part n =
    if n < 16 ∧ (s.part n).plans f = true then (s.part n).planEnded st else s.part n := by
  rw [State.endPlans_eq, State.part_endPlansGo]
  simp only [List.mem_range]

/-- Nothing but the partitions changes. -/
theorem State.endPlans_shape (s : State) (f : Nat × Nat → Bool) (st : Nat) : ∃ ps, s.endPlans f st = { s with parts := ps } := by
  rw [State.endPlans_eq]
  refine List.foldlRecOn (List.range 16) (State.endPlanIf f st) (motive := fun v : State => ∃ ps, v = { s with parts := ps })
    ⟨s.parts, rfl⟩ (fun v hv n _ => ?_)
  obtain ⟨ps, rfl⟩ := hv
  unfold State.endPlanIf
  split
  · exact ⟨_, rfl⟩
  · exact ⟨ps, rfl⟩

theorem State.optical_endPlans (s : State) (f : Nat × Nat → Bool) (st : Nat) : s.Optical (s.endPlans f st) := by
  have hpart := s.part_endPlans f st
  obtain ⟨ps, h⟩ := s.endPlans_shape f st
  refine ⟨by rw [h]; rfl, fun _ => by rw [h]; rfl, fun _ => by rw [h]; rfl, fun n => ?_⟩
  rw [hpart]
  split <;> rfl

theorem State.chan_endPlans (s : State) (f : Nat × Nat → Bool) (st c : Nat) : (s.endPlans f st).chan c = s.chan c := by
  obtain ⟨ps, h⟩ := s.endPlans_shape f st
  rw [h]; rfl

theorem State.link_endPlans (s : State) (f : Nat × Nat → Bool) (st k : Nat) : (s.endPlans f st).link k = s.link k := by
  obtain ⟨ps, h⟩ := s.endPlans_shape f st
  rw [h]; rfl

theorem State.pair_endPlans (s : State) (f : Nat × Nat → Bool) (st g : Nat) : (s.endPlans f st).pair g = s.pair g := by
  obtain ⟨ps, h⟩ := s.endPlans_shape f st
  rw [h]; rfl

/-- A step that a shared line's channels bring to its end. -/
theorem State.shareDone_eq (s : State) (c : Nat) : s.shareDone c = s ∨ ∃ st, s.shareDone c = s.endPlans (s.sharesChan c) st := by
  unfold State.shareDone
  dsimp only
  split
  · exact Or.inl rfl
  · exact Or.inr ⟨_, rfl⟩

theorem State.optical_shareDone (s : State) (c : Nat) : s.Optical (s.shareDone c) := by
  rcases s.shareDone_eq c with h | ⟨st, h⟩ <;> rw [h]
  · exact .refl s
  · exact s.optical_endPlans _ _

theorem State.chan_shareDone (s : State) (c d : Nat) : (s.shareDone c).chan d = s.chan d := by
  rcases s.shareDone_eq c with h | ⟨st, h⟩ <;> rw [h]
  exact s.chan_endPlans _ _ _

theorem State.link_shareDone (s : State) (c k : Nat) : (s.shareDone c).link k = s.link k := by
  rcases s.shareDone_eq c with h | ⟨st, h⟩ <;> rw [h]
  exact s.link_endPlans _ _ _

/-! ### EVT -/

/-- EVT of one pair sets; what is sent and has risen aside, nothing else changes. -/
theorem State.setEvt_shape (s : State) (f : Nat) : ∃ o r, s.setEvt f =
    { s.putPair f { s.pair f with evt := true } with out := o, risen := r } := by
  have hrise : ∃ r, (s.putPair f { s.pair f with evt := true }).rise (.pairEvt f) =
      { s.putPair f { s.pair f with evt := true } with risen := r } := by
    unfold State.rise
    split
    · exact ⟨_, rfl⟩
    · exact ⟨s.risen, rfl⟩
  obtain ⟨r, hr⟩ := hrise
  unfold State.setEvt
  dsimp only
  rw [hr]
  split
  · split
    · exact ⟨_, r, rfl⟩
    · exact ⟨s.out, r, rfl⟩
  · exact ⟨s.out, r, rfl⟩

theorem State.pair_setEvt (s : State) (f g : Nat) :
    (s.setEvt f).pair g = if g = f then { s.pair f with evt := true } else s.pair g := by
  obtain ⟨o, r, h⟩ := s.setEvt_shape f
  rw [h]
  exact s.pair_putPair f g _

theorem State.optical_setEvt (s : State) (f : Nat) : s.Optical (s.setEvt f) := by
  obtain ⟨o, r, h⟩ := s.setEvt_shape f
  rw [h]
  exact State.Optical.trans (t := s.putPair f { s.pair f with evt := true }) (State.optical_putPair rfl rfl) (.of_same rfl rfl rfl)

theorem State.chan_setEvt (s : State) (f c : Nat) : (s.setEvt f).chan c = s.chan c := by
  obtain ⟨o, r, h⟩ := s.setEvt_shape f
  rw [h]; rfl

theorem State.link_setEvt (s : State) (f k : Nat) : (s.setEvt f).link k = s.link k := by
  obtain ⟨o, r, h⟩ := s.setEvt_shape f
  rw [h]; rfl

theorem State.part_setEvt (s : State) (f n : Nat) : (s.setEvt f).part n = s.part n := by
  obtain ⟨o, r, h⟩ := s.setEvt_shape f
  rw [h]; rfl

/-! ### Sites -/

/-- A channel without what was claimed for it. -/
def Chan.freed (x : Chan) : Chan := if x.tuning.isSome then { x with tuning := none, swap := none } else x

theorem Chan.freed_some {x : Chan} (h : x.tuning.isSome = true) : x.freed = { x with tuning := none, swap := none } := if_pos h
theorem Chan.freed_none {x : Chan} (h : x.tuning = none) : x.freed = x := by rw [Chan.freed, h]; rfl
theorem Chan.freed_tuning (x : Chan) : x.freed.tuning = none := by
  cases h : x.tuning with
  | none => rw [Chan.freed_none h, h]
  | some y => rw [Chan.freed_some (by rw [h]; rfl)]

/-- A remapping that a channel gives up: only its link changes. -/
theorem State.voidRemap_shape (s : State) (c : Nat) : ∃ ls, s.voidRemap c = { s with links := ls } := by
  unfold State.voidRemap
  dsimp only
  split
  · split
    · exact ⟨_, rfl⟩
    · exact ⟨s.links, rfl⟩
  · exact ⟨s.links, rfl⟩

/-- A channel's site is given up. -/
theorem State.dropSite_spec (s : State) (c : Nat) : s.Optical (s.dropSite c) ∧
    (∀ d, (s.dropSite c).chan d = if d = c then (s.chan c).freed else s.chan d) ∧ (∀ n, (s.dropSite c).part n = s.part n) ∧
    (s.dropSite c).out = s.out := by
  cases ht : (s.chan c).tuning with
  | none =>
    have hs : s.dropSite c = s := by rw [State.dropSite, ht]
    rw [hs]
    refine ⟨.refl s, fun d => ?_, fun _ => rfl, rfl⟩
    rw [Chan.freed_none ht]
    split
    · next h => rw [h]
    · rfl
  | some y =>
    obtain ⟨n, b⟩ := y
    have hput : ∃ ps, (if n < 2 then s.putPair (pairOfChan c)
        { s.pair (pairOfChan c) with spuse := (s.pair (pairOfChan c)).spuse &&& ~~~(BitVec.ofNat 2 (2 ^ n)) } else s) = { s with pairs := ps } ∧
        s.Optical { s with pairs := ps } := by
      split
      · exact ⟨_, rfl, State.optical_putPair rfl rfl⟩
      · exact ⟨s.pairs, rfl, .refl s⟩
    obtain ⟨ps, hps, hopt⟩ := hput
    obtain ⟨ls, hls⟩ := ({ s with pairs := ps } : State).voidRemap_shape c
    have hs : s.dropSite c = ({ s with pairs := ps, links := ls } : State).modChan c (fun x => { x with tuning := none, swap := none }) := by
      rw [State.dropSite, ht]
      dsimp only
      rw [hps, hls]
    rw [hs]
    refine ⟨hopt.trans (.of_same rfl rfl rfl), fun d => ?_, fun _ => rfl, rfl⟩
    rw [State.chan_modChan, Chan.freed_some (x := s.chan c) (by rw [ht]; rfl)]
    rfl

theorem State.optical_dropSite (s : State) (c : Nat) : s.Optical (s.dropSite c) := (s.dropSite_spec c).1
theorem State.chan_dropSite (s : State) (c d : Nat) : (s.dropSite c).chan d = if d = c then (s.chan c).freed else s.chan d :=
  (s.dropSite_spec c).2.1 d
theorem State.part_dropSite (s : State) (c n : Nat) : (s.dropSite c).part n = s.part n := (s.dropSite_spec c).2.2.1 n

/-- A site is claimed for a channel. -/
theorem State.claimSite_spec (s : State) (c n : Nat) (planned : Bool) : s.Optical (s.claimSite c n planned) ∧
    (∀ d, (s.claimSite c n planned).chan d = if d = c then { s.chan c with tuning := some (n, planned) } else s.chan d) ∧
    (∀ m, (s.claimSite c n planned).part m = s.part m) ∧
    (n < 2 → ((s.claimSite c n planned).pair (pairOfChan c)).spuse = (s.pair (pairOfChan c)).spuse ||| BitVec.ofNat 2 (2 ^ n)) := by
  have hmod : ∀ u : State, s.Optical u → (∀ d, u.chan d = s.chan d) → (∀ m, u.part m = s.part m) →
      s.Optical (u.modChan c (fun x => { x with tuning := some (n, planned) })) ∧
      (∀ d, (u.modChan c (fun x => { x with tuning := some (n, planned) })).chan d =
        if d = c then { s.chan c with tuning := some (n, planned) } else s.chan d) ∧
      (∀ m, (u.modChan c (fun x => { x with tuning := some (n, planned) })).part m = s.part m) := by
    intro u ho hc hp
    refine ⟨ho.trans (u.optical_modChan _ _), fun d => ?_, hp⟩
    rw [State.chan_modChan, hc, hc]
  rw [State.claimSite]
  dsimp only
  split
  · obtain ⟨h1, h2, h3⟩ := hmod _ (State.Optical.trans
        (State.optical_putPair (s := s) (f := pairOfChan c)
          (x := { s.pair (pairOfChan c) with spuse := (s.pair (pairOfChan c)).spuse ||| BitVec.ofNat 2 (2 ^ n) }) rfl rfl)
        (State.optical_setEvt _ (pairOfChan c))) (fun d => State.chan_setEvt _ _ d) (fun m => State.part_setEvt _ _ m)
    refine ⟨h1, h2, h3, fun _ => ?_⟩
    show (State.pair (State.setEvt _ _) (pairOfChan c)).spuse = _
    rw [State.pair_setEvt, if_pos rfl, State.pair_putPair, if_pos rfl]
  · next hn =>
    obtain ⟨h1, h2, h3⟩ := hmod s (.refl s) (fun _ => rfl) (fun _ => rfl)
    exact ⟨h1, h2, h3, fun h => absurd h hn⟩

/-- A channel's ring is switched to a site. -/
theorem State.switchRing_spec (s : State) (c site : Nat) : s.Optical (s.switchRing c site) ∧
    (∀ d, (s.switchRing c site).chan d =
      if d = c then { s.chan c with spare := if site < 2 then site + 1 else 0, swap := none, tuning := none } else s.chan d) ∧
    (∀ m, (s.switchRing c site).part m = s.part m) ∧ ∀ k, (s.switchRing c site).link k = s.link k :=
  ⟨by unfold State.switchRing; exact (State.optical_putPair (by rfl) (by rfl)).trans (State.optical_putChan _ _ _),
    fun d => State.chan_putChan _ _ _ _, fun _ => rfl, fun _ => rfl⟩

/-- A planned step on a channel that gives way. -/
theorem State.giveWay_eq (s : State) (c : Nat) : s.giveWay c =
    if (s.chan c).tuning.any Prod.snd = true then (s.dropSite c).endPlans (movesChan c) 3 else s := by
  unfold State.giveWay
  rcases h : (s.chan c).tuning with _ | ⟨n, _ | _⟩ <;> rfl

/-- The channel that gives way is free; every other stands. -/
theorem State.giveWay_spec (s : State) (c : Nat) : s.Optical (s.giveWay c) ∧
    (∀ d, d ≠ c → (s.giveWay c).chan d = s.chan d) ∧
    ((s.chan c).tuning.any Prod.snd = false → s.giveWay c = s) ∧
    ((s.chan c).tuning.any Prod.snd = true → (s.giveWay c).chan c = { s.chan c with tuning := none, swap := none } ∧
      ∀ n, (s.giveWay c).part n = if n < 16 ∧ (s.part n).plans (movesChan c) = true then (s.part n).planEnded 3 else s.part n) := by
  rw [State.giveWay_eq]
  split
  · next h =>
    refine ⟨(s.optical_dropSite c).trans (State.optical_endPlans _ _ _), fun d hd => ?_, fun h' => ?_, fun _ => ⟨?_, fun n => ?_⟩⟩
    · rw [State.chan_endPlans, State.chan_dropSite, if_neg hd]
    · rw [h] at h'; cases h'
    · rw [State.chan_endPlans, State.chan_dropSite, if_pos rfl, Chan.freed_some]
      cases ht : (s.chan c).tuning with
      | none => rw [ht] at h; cases h
      | some y => rfl
    · rw [State.part_endPlans, State.part_dropSite]
  · next h => exact ⟨.refl s, fun _ _ => rfl, fun _ => rfl, fun h' => absurd h' h⟩

/-! ### Channels that follow their link -/

/-- What a link makes of a channel: a parked one may begin to wake, an ACTIVE one to park. -/
def Chan.Follows (x y : Chan) : Prop :=
  y = x ∨ (x.state = .parked ∧ x.ps1 = false ∧ y = { x with state := .waking }) ∨
    (x.state = .active ∧ x.parking = false ∧ y = { x with parking := true })

theorem Chan.Follows.trans {x y z : Chan} (h : x.Follows y) (h' : y.Follows z) : x.Follows z := by
  rcases h with rfl | ⟨hs, hp, rfl⟩ | ⟨hs, hp, rfl⟩
  · exact h'
  · rcases h' with rfl | ⟨hs', -, -⟩ | ⟨hs', -, -⟩
    · exact Or.inr (Or.inl ⟨hs, hp, rfl⟩)
    · cases hs'
    · cases hs'
  · rcases h' with rfl | ⟨hs', -, -⟩ | ⟨-, hp', -⟩
    · exact Or.inr (Or.inr ⟨hs, hp, rfl⟩)
    · exact absurd (hs.symm.trans hs') (by simp)
    · cases hp'

/-- t is s but for channels that follow their links, and links that come up, fall or change width. -/
structure State.Settles (s t : State) : Prop where
  unlit : t.unlit = s.unlit
  pairs : t.pairs = s.pairs
  chan : ∀ d, (s.chan d).Follows (t.chan d)
  tgtw : ∀ k, (t.link k).tgtw = (s.link k).tgtw
  version : ∀ k, (t.link k).version = (s.link k).version

theorem State.Settles.refl (s : State) : s.Settles s := ⟨rfl, rfl, fun _ => Or.inl rfl, fun _ => rfl, fun _ => rfl⟩

theorem State.Settles.trans (h : s.Settles t) (h' : t.Settles u) : s.Settles u :=
  ⟨h'.unlit.trans h.unlit, h'.pairs.trans h.pairs, fun d => (h.chan d).trans (h'.chan d), fun k => (h'.tgtw k).trans (h.tgtw k),
    fun k => (h'.version k).trans (h.version k)⟩

theorem State.Settles.part (h : s.Settles t) (n : Nat) : t.part n = s.part n :=
  State.eq_of_unlit h.unlit (fun v => v.part n) (fun _ => rfl)

theorem State.Settles.optical (h : s.Settles t) : s.Optical t := by
  refine .of_same ?_ h.pairs (State.eq_of_unlit h.unlit State.parts (fun _ => rfl))
  exact (congrArg (fun v : State => ({ v with parts := [], out := [], risen := [] } : State)) h.unlit :)

theorem State.settles_foldl {α : Type} (l : List α) {f : State → α → State} (h : ∀ (v : State) a, v.Settles (f v a)) (s : State) :
    s.Settles (l.foldl f s) :=
  List.foldlRecOn l f (motive := fun v => s.Settles v) (.refl s) (fun v hv a _ => hv.trans (h v a))

theorem State.settles_putChan {c : Nat} {x : Chan} (h : (s.chan c).Follows x) : s.Settles (s.putChan c x) := by
  refine ⟨rfl, rfl, fun d => ?_, fun _ => rfl, fun _ => rfl⟩
  rw [State.chan_putChan]
  split
  · next hd => rw [hd]; exact h
  · exact Or.inl rfl

theorem State.settles_putLink {k : Nat} {x : Link} (h : x.tgtw = (s.link k).tgtw) (h' : x.version = (s.link k).version) :
    s.Settles (s.putLink k x) := by
  refine ⟨rfl, rfl, fun d => Or.inl rfl, fun j => ?_, fun j => ?_⟩ <;> rw [State.link_putLink] <;> split
  · next hj => rw [hj, h]
  · rfl
  · next hj => rw [hj, h']
  · rfl

theorem State.settles_wakeChan (s : State) (k c : Nat) : s.Settles (s.wakeChan k c) := by
  unfold State.wakeChan
  dsimp only
  split
  · next h =>
    simp only [Bool.and_eq_true, beq_iff_eq, Bool.not_eq_true'] at h
    obtain ⟨⟨⟨hs, -⟩, hp⟩, -⟩ := h
    exact State.settles_putChan (Or.inr (Or.inl ⟨hs, hp, rfl⟩))
  · exact .refl s

theorem State.settles_parkChan (s : State) (k c : Nat) : s.Settles (s.parkChan k c) := by
  unfold State.parkChan
  dsimp only
  split
  · next h =>
    simp only [Bool.and_eq_true, beq_iff_eq, Bool.not_eq_true'] at h
    obtain ⟨⟨⟨hs, -⟩, hp⟩, -⟩ := h
    exact State.settles_putChan (Or.inr (Or.inr ⟨hs, hp, rfl⟩))
  · exact .refl s

theorem State.settles_settleLink (s : State) (k : Nat) : s.Settles (s.settleLink k) := by
  have hwoken : s.Settles (if (s.link k).state == .retraining then s else (linkChans k).foldl (fun acc c => acc.wakeChan k c) s) := by
    split
    · exact .refl s
    · exact State.settles_foldl _ (fun v c => v.settles_wakeChan k c) s
  unfold State.settleLink
  generalize (if (s.link k).state == .retraining then s else (linkChans k).foldl (fun acc c => acc.wakeChan k c) s) = s1 at hwoken
  refine hwoken.trans ?_
  have hput : ∀ x : Link, x.tgtw = (s1.link k).tgtw → x.version = (s1.link k).version → s1.Settles (s1.putLink k x) :=
    fun x h h' => State.settles_putLink h h'
  have hpark : ∀ v : State, v.Settles ((linkChans k).foldl (fun acc c => acc.parkChan k c) v) :=
    fun v => State.settles_foldl _ (fun v c => v.settles_parkChan k c) v
  dsimp only
  split
  · exact .refl s1
  · split_ifs
    · exact .refl s1
    · exact hput _ rfl rfl
  · split_ifs
    · exact hput _ rfl rfl
    · exact hpark s1
    · exact (hput _ (by rfl) (by rfl)).trans (hpark _)
    · exact hput _ rfl rfl

theorem State.settles_settleChan (s : State) (c : Nat) : s.Settles (s.settleChan c) := by
  unfold State.settleChan
  dsimp only
  split
  · exact ((s.settles_wakeChan _ _).trans (State.settles_parkChan _ _ _)).trans (State.settles_settleLink _ _)
  · exact s.settles_settleLink _

theorem State.settles_settleChans (s : State) (cs : List Nat) : s.Settles (s.settleChans cs) :=
  State.settles_foldl cs (fun v c => v.settles_settleChan c) s

theorem State.optical_settleChan (s : State) (c : Nat) : s.Optical (s.settleChan c) := (s.settles_settleChan c).optical

/-- A channel that is neither parked nor ACTIVE follows no link. -/
theorem Chan.Follows.still {x y : Chan} (h : x.Follows y) (hp : x.state ≠ .parked ∨ x.ps1 = true) (ha : x.state ≠ .active) : y = x := by
  rcases h with h | ⟨hs, h1, -⟩ | ⟨hs, -, -⟩
  · exact h
  · rcases hp with hp | hp
    · exact absurd hs hp
    · rw [h1] at hp; cases hp
  · exact absurd hs ha

theorem Chan.Follows.active {x y : Chan} (h : x.Follows y) (ha : x.state = .active) : y.state = .active := by
  rcases h with rfl | ⟨hs, -, -⟩ | ⟨-, -, rfl⟩
  · exact ha
  · rw [ha] at hs; cases hs
  · exact ha

/-! ### Channels that go down, and sparings broken off -/

/-- The channel as it goes DOWN. -/
theorem State.chanDown_spec (s : State) (c : Nat) : s.Optical (s.chanDown c) ∧
    (∀ d, d ≠ c → (s.chanDown c).chan d = s.chan d) ∧
    ((s.chanDown c).chan c).state = .down ∧ ((s.chanDown c).chan c).tried = (s.chan c).tried := by
  unfold State.chanDown
  dsimp only
  have hbase : ∀ x : Chan → Chan, s.Optical (((((s.dropSite c).modChan c x).endPlans (movesChan c) 5).shareDone c).setEvt (pairOfChan c)) ∧
      ∀ d, (((((s.dropSite c).modChan c x).endPlans (movesChan c) 5).shareDone c).setEvt (pairOfChan c)).chan d =
        if d = c then x (s.chan c).freed else s.chan d := by
    intro x
    refine ⟨((((s.optical_dropSite c).trans (State.optical_modChan _ _ _)).trans (State.optical_endPlans _ _ _)).trans
      (State.optical_shareDone _ _)).trans (State.optical_setEvt _ _), fun d => ?_⟩
    rw [State.chan_setEvt, State.chan_shareDone, State.chan_endPlans, State.chan_modChan, State.chan_dropSite, State.chan_dropSite,
      if_pos rfl]
    split
    · rfl
    · rfl
  refine ⟨(hbase _).1, fun d hd => ((hbase _).2 d).trans (if_neg hd), ?_, ?_⟩
  · exact congrArg Chan.state (((hbase _).2 c).trans (if_pos rfl))
  · refine (congrArg Chan.tried (((hbase _).2 c).trans (if_pos rfl))).trans ?_
    show (s.chan c).freed.tried = _
    unfold Chan.freed
    split <;> rfl

theorem State.optical_chanDown (s : State) (c : Nat) : s.Optical (s.chanDown c) := (s.chanDown_spec c).1

/-- A sparing that is broken off leaves the channel's state, what it is to do next, and every other channel. -/
theorem State.breakOff_spec (s : State) (c : Nat) : s.Optical (s.breakOff c) ∧ (∀ d, d ≠ c → (s.breakOff c).chan d = s.chan d) ∧
    ((s.breakOff c).chan c).state = (s.chan c).state ∧ ((s.breakOff c).chan c).parking = (s.chan c).parking ∧
    ((s.breakOff c).chan c).rewake = (s.chan c).rewake ∧ ((s.breakOff c).chan c).tried = (s.chan c).tried := by
  have hfreed : ∀ x : Chan, x.freed.state = x.state ∧ x.freed.parking = x.parking ∧ x.freed.rewake = x.rewake ∧ x.freed.tried = x.tried := by
    intro x
    unfold Chan.freed
    split <;> exact ⟨rfl, rfl, rfl, rfl⟩
  have hdrop : ∀ d, d ≠ c → (s.dropSite c).chan d = s.chan d := fun d hd => (s.chan_dropSite c d).trans (if_neg hd)
  have hown : (s.dropSite c).chan c = (s.chan c).freed := (s.chan_dropSite c c).trans (if_pos rfl)
  unfold State.breakOff
  split
  · exact ⟨.refl s, fun _ _ => rfl, rfl, rfl, rfl, rfl⟩
  · refine ⟨(s.optical_dropSite c).trans (State.optical_endPlans _ _ _), fun d hd => ?_, ?_⟩
    · rw [State.chan_endPlans, hdrop d hd]
    · rw [State.chan_endPlans, hown]
      exact hfreed _
  · refine ⟨(s.optical_dropSite c).trans (State.optical_modChan _ _ _), fun d hd => ?_, ?_⟩
    · rw [State.chan_modChan, if_neg hd, hdrop d hd]
    · rw [State.chan_modChan, if_pos rfl, hown]
      exact hfreed _

theorem State.optical_breakOff (s : State) (c : Nat) : s.Optical (s.breakOff c) := (s.breakOff_spec c).1

theorem State.optical_fallLink (s : State) (k : Nat) (stuck : Bool) : s.Optical (s.fallLink k stuck) :=
  (s.optical_putLink k _).trans (State.optical_endPlans _ _ _)

end

end Sys2Proof.Machine
end

section
/-! PROOFS. Operations that leave the power state as it is, and the vault in its form (R2, R472). -/

namespace Sys2Proof.Machine

/-- t has the power state of s, and its vault is canonical if that of s is. -/
structure State.Calm (s t : State) : Prop where
  house : t.house = s.house
  vault : s.vaultSound → t.vaultSound

section
variable {s t u : State}

theorem State.Calm.refl (s : State) : s.Calm s := ⟨rfl, id⟩

theorem State.Calm.trans (h : s.Calm t) (h' : t.Calm u) : s.Calm u := ⟨h'.house.trans h.house, fun hs => h'.vault (h.vault hs)⟩

theorem State.Calm.of_same (h : t.house = s.house) (hv : t.vault = s.vault) : s.Calm t := ⟨h, State.vaultSound_of_eq hv⟩

theorem State.calm_foldl {α : Type} (l : List α) {f : State → α → State} (h : ∀ (v : State) a, v.Calm (f v a)) (s : State) :
    s.Calm (l.foldl f s) :=
  List.foldlRecOn l f (motive := fun v => s.Calm v) (.refl s) (fun v hv a _ => hv.trans (h v a))

/-- The power states of a calm state are those before. -/
theorem State.Calm.power (h : s.Calm t) (hs : s.powerSound) : t.powerSound := State.powerSound_of_eq h.house hs

theorem State.Calm.of_dark (h : t.dark = s.dark) : s.Calm t :=
  .of_same (congrArg State.house h :) (congrArg State.vault h :)

theorem State.Optical.calm (h : s.Optical t) : s.Calm t := .of_dark h.dark

theorem State.calm_modGang (s : State) (id : Nat) (f : Gang → Gang) : s.Calm (s.modGang id f) :=
  .of_same (s.modGang_house id f) (s.modGang_vault id f)

theorem State.calm_iodStore (s : State) (pa : Nat) (bs : List Byte) (after : List Out) : s.Calm (s.iodStore pa bs after) := by
  obtain ⟨vs, q, clocks, n, h⟩ := s.iodStore_shape pa bs after
  rw [h]
  exact .of_same rfl rfl

theorem State.calm_putStopRecord (s : State) (part n : Nat) (bs : List Byte) : s.Calm (s.putStopRecord part n bs) := by
  unfold State.putStopRecord
  dsimp only
  split
  · exact s.calm_iodStore _ _ _
  · exact .refl s

/-! ### Halts (R420) -/

theorem State.calm_freezeCore (s : State) (core : Nat) : s.Calm (s.freezeCore core) :=
  State.Calm.trans (t := State.modCore { s with free := s.free + 1 } core (fun c => c.freeze (Config.freeFreezeRows s.free)))
    (.of_same rfl rfl) (State.calm_foldl _ (fun v _ => v.calm_modGang _ _) _)

theorem State.calm_holdRequests (s : State) (core : Nat) : s.Calm (s.holdRequests core) := by
  unfold State.holdRequests
  split
  · exact .refl s
  · refine State.Calm.trans (t := { s with free := s.free + 1 }) (.of_same rfl rfl) ?_
    exact State.calm_foldl _ (fun v e => .of_same (v.putReq_house _ _) (v.putReq_vault _ _)) _

theorem State.calm_stopCore (s : State) (part hseq : Nat) (c : Option Culprit) (core : Nat) : s.Calm (s.stopCore part hseq c core) :=
  State.Calm.trans (t := { s with free := s.free + 1 + 1 + 1 }) (.of_same rfl rfl)
    ((State.calm_putStopRecord _ _ _ _).trans ((State.calm_putStopRecord _ _ _ _).trans (State.calm_putStopRecord _ _ _ _)))

theorem State.calm_putModuleRecord (s : State) (part hseq modid : Nat) (r : FarReq) (done reached : Nat) :
    s.Calm (s.putModuleRecord part hseq modid r done reached) := by
  unfold State.putModuleRecord
  dsimp only
  split
  · exact State.Calm.trans (t := { s with free := s.free + 1 }) (.of_same rfl rfl)
      ((State.calm_putStopRecord _ _ _ _).trans (.of_same rfl rfl))
  · exact .of_same rfl rfl

theorem State.calm_stopAt (s : State) (id m : Nat) : s.Calm (s.stopAt id m).1 := by
  unfold State.stopAt
  split
  · exact .refl s
  · dsimp only
    split
    · exact .of_same rfl rfl
    · split <;> exact .of_same rfl rfl

theorem State.calm_stopRequest (s : State) (part hseq id : Nat) (r : FarReq) (m : Nat) :
    s.Calm (s.stopRequest part hseq id r m) := by
  have hat := s.calm_stopAt id m
  unfold State.stopRequest
  split
  · split
    · next s1 x h =>
      rw [h] at hat
      exact hat.trans (State.calm_putModuleRecord _ _ _ _ _ _ _)
    · next s1 h =>
      rw [h] at hat
      exact hat
  · exact .refl s

theorem State.calm_stopModules (s : State) (part hseq : Nat) : s.Calm (s.stopModules part hseq) := by
  refine State.calm_foldl _ (fun v e => ?_) s
  split
  · exact .refl v
  · split
    · split
      · exact State.calm_putModuleRecord _ _ _ _ _ _ _
      · exact .refl v
    · exact State.calm_foldl _ (fun w m => w.calm_stopRequest _ _ _ _ _) v

theorem State.calm_raiseHalt (s : State) (part : Nat) (fatal : Bool) (c : Option Culprit) : s.Calm (s.raiseHalt part fatal c) := by
  unfold State.raiseHalt
  dsimp only
  split
  · exact .of_same rfl rfl
  · refine State.Calm.trans ?_ (State.calm_stopModules _ _ _)
    refine State.Calm.trans ?_ (State.calm_foldl _ (fun v n => v.calm_stopCore _ _ _ n) _)
    refine State.Calm.trans ?_ (State.calm_foldl _ (fun v n => v.calm_holdRequests n) _)
    refine State.Calm.trans ?_ (State.calm_foldl _ (fun v n => v.calm_freezeCore n) _)
    exact .of_same rfl rfl

end

end Sys2Proof.Machine
end

section
/-! PROOFS. Start-up, power states and temperature (R468-R475). -/

namespace Sys2Proof.Machine

/-! ### Power-on -/

theorem State.meas?_extend (s : State) (n m : Nat) (d : List Byte) :
    (s.extend n d).meas? m = if m = n then shakeOut 8 (s.meas? n ++ d) else s.meas? m := Tbl.get_set _ _ _ _ _

theorem Tbl.get_mapAllGo {α : Type} [DecidableEq α] (d : α) (t : Tbl α) (f : Nat → α → α) (es acc : Tbl α) (k : Nat) :
    Tbl.get d (es.foldl (fun acc e => Tbl.set d acc e.1 (f e.1 (Tbl.get d t e.1))) acc) k =
      if k ∈ es.map Prod.fst then f k (Tbl.get d t k) else Tbl.get d acc k := by
  induction es generalizing acc with
  | nil => rfl
  | cons e es ih =>
    rw [List.foldl_cons, ih, Tbl.get_set]
    by_cases h1 : k ∈ es.map Prod.fst <;> by_cases h2 : k = e.1 <;> simp [h1, h2]

/-- A number that a table does not list has the default. -/
theorem Tbl.get_of_not_listed {α : Type} {d : α} {t : Tbl α} {k : Nat} (h : k ∉ t.map Prod.fst) : Tbl.get d t k = d := by
  by_contra hne
  obtain ⟨v, hv⟩ := Tbl.mem_of_get_ne hne
  exact h (List.mem_map.mpr ⟨(k, v), hv, rfl⟩)

/-- Every value that a table lists is mapped. -/
theorem Tbl.get_mapAll {α : Type} [DecidableEq α] (d : α) (t : Tbl α) (f : Nat → α → α) (k : Nat) :
    Tbl.get d (Tbl.mapAll d t f) k = if k ∈ t.map Prod.fst then f k (Tbl.get d t k) else d := by
  rw [Tbl.mapAll, Tbl.get_mapAllGo]
  split
  · rfl
  · next h => exact Tbl.get_of_not_listed h

/-- Every array keeps its hours over power-on. -/
theorem array_rested (arrays : Tbl Array_) (e : Nat) :
    let b := Tbl.get Array_.reset (Tbl.mapAll Array_.reset arrays (fun _ x => { x with rested := true })) e
    b.lifeh = (Tbl.get Array_.reset arrays e).lifeh ∧ b.penh = (Tbl.get Array_.reset arrays e).penh := by
  dsimp only
  rw [Tbl.get_mapAll]
  split
  · exact ⟨rfl, rfl⟩
  · next h => rw [Tbl.get_of_not_listed h]; exact ⟨rfl, rfl⟩

/-! ### Power states (R472, R473) -/

/-- Whatever optical recovery does not write is the same. -/
theorem State.Optical.same {α : Type} {s t : State} (h : s.Optical t) (f : State → α) (hf : ∀ v : State, f v.dark = f v) : f t = f s := by
  rw [← hf t, h.dark, hf]

/-- PS1 is entered: only channels, links and what hangs on them change. -/
theorem State.optical_enterStandby (s : State) : s.Optical s.enterStandby := by
  unfold State.enterStandby
  refine State.Optical.trans ?_ (State.optical_foldl _ (fun v c => v.optical_settleChan c) _)
  exact State.optical_foldl _ (fun v c => (v.optical_breakOff c).trans (State.optical_modChan _ _ _)) s

/-- The scratchpads of every team are lost. -/
def Team.sleeps (t : Team) : Team := { t with cores := t.cores.map (fun c => { c with scratch := [] }) }

theorem State.team?_sleeps (es : List (Nat × Team)) (s : State) (j : Nat) :
    (es.foldl (fun acc e => acc.putTeam e.1 e.2.sleeps) s).team? j = match es.reverse.find? (fun e => e.1 == j) with
      | some e => some e.2.sleeps
      | none => s.team? j := by
  induction es generalizing s with
  | nil => rfl
  | cons e es ih =>
    rw [List.foldl_cons, ih, List.reverse_cons, List.find?_append]
    cases hf : es.reverse.find? (fun e => e.1 == j) with
    | some x => rfl
    | none =>
      by_cases hj : e.1 = j
      · simp [hj, State.team?_putTeam_same]
      · simp [hj, State.team?_putTeam_other _ _ (Ne.symm hj)]

/-- What PS2 leaves of cores, teams and the vault. -/
theorem State.enterSleep_spec (s : State) : s.enterSleep.house = s.house ∧ s.enterSleep.vault = s.vault ∧
    (∀ n, s.enterSleep.core n = Core.reset) ∧ s.enterSleep.corbel = [] ∧
    ∀ j tm, s.enterSleep.team? j = some tm → ∀ k ∈ tm.cores, k.scratch = [] := by
  let s1 : State := { s with cores := Tbl.mapAll Core.reset s.cores (fun _ c => c.sleep), corbel := [] }
  let s2 := (listed s.teams).foldl (fun acc e => acc.putTeam e.1 e.2.sleeps) s1
  have hteams : s2.house = s.house ∧ s2.vault = s.vault ∧ s2.cores = s1.cores ∧ s2.corbel = [] :=
    List.foldlRecOn (listed s.teams) _ (motive := fun v : State => v.house = s.house ∧ v.vault = s.vault ∧ v.cores = s1.cores ∧
      v.corbel = []) ⟨rfl, rfl, rfl, rfl⟩ (fun _ hv _ _ => hv)
  have hopt : s2.Optical s.enterSleep := by
    unfold State.enterSleep
    refine State.Optical.trans ?_ (State.optical_foldl _ (fun v k => v.optical_fallLink k false) _)
    refine State.Optical.trans ?_ (State.optical_foldl _ (fun v f => State.optical_putPair (by rfl) (by rfl)) _)
    exact State.optical_foldl _ (fun v c => (v.optical_chanDown c).trans (State.optical_modChan _ _ _)) s2
  obtain ⟨hhouse, hvault, hcores, hcorbel⟩ := hteams
  refine ⟨(hopt.same State.house (fun _ => rfl)).trans hhouse, (hopt.same State.vault (fun _ => rfl)).trans hvault, fun n => ?_,
    (hopt.same State.corbel (fun _ => rfl)).trans hcorbel, fun j tm htm k hk => ?_⟩
  · rw [show s.enterSleep.core n = s2.core n from hopt.same (fun v => v.core n) (fun _ => rfl), State.core, hcores]
    rw [show s1.cores = Tbl.mapAll Core.reset s.cores (fun _ c => c.sleep) from rfl, Tbl.get_mapAll]
    split <;> rfl
  · rw [show s.enterSleep.team? j = s2.team? j from hopt.same (fun v => v.team? j) (fun _ => rfl), State.team?_sleeps] at htm
    cases hf : (listed s.teams).reverse.find? (fun e => e.1 == j) with
    | some e =>
      rw [hf] at htm
      obtain rfl := Option.some.inj htm
      obtain ⟨c, -, rfl⟩ := List.mem_map.mp hk
      rfl
    | none =>
      rw [hf] at htm
      have hin := List.find?_eq_none.mp hf (j, tm) (List.mem_reverse.mpr (mem_listed_of_get htm))
      exact absurd (beq_self_eq_true j) hin

/-- A return to PS0 that begins. -/
theorem State.beginWake_house {s : State} (hr : s.house.ramping = false) (he : s.house.entering = none) (hc : s.house.cur ≠ 0) :
    s.beginWake.house = { s.house with ramping := true, wakeAsked := false, polled := false } := by
  unfold State.beginWake
  rw [hr, he]
  simp only [Option.isSome_none, Bool.or_self, hc]
  refine List.foldlRecOn _ _ (motive := fun v : State => v.house = { s.house with ramping := true, wakeAsked := false, polled := false })
    rfl (fun v hv e _ => ?_)
  dsimp only
  split
  · exact hv
  · exact hv

/-! ### Temperature (R475) -/

/-- A raise raises one line, and lets none fall. -/
theorem State.raiseHalt_halted (s : State) (n m : Nat) (fatal : Bool) (c : Option Culprit) :
    ((s.raiseHalt n fatal c).part m).halted = (decide (m = n) || (s.part m).halted) := by
  cases h : (s.part n).halted with
  | true =>
    rw [State.raiseHalt_up h, State.modPart, State.part_putPart]
    by_cases hm : m = n
    · subst hm; simp [h]
    · simp [hm]
  | false =>
    have := congrArg Prod.fst ((State.raiseHalt_down h fatal c).2 m)
    rw [show ((s.raiseHalt n fatal c).part m).halted = _ from this]
    by_cases hm : m = n
    · simp [hm]
    · simp [hm, Partition.haltLine]

theorem State.raiseHalts_halted (ns : List Nat) (s : State) (m : Nat) :
    ((ns.foldl (fun acc n => acc.raiseHalt n false none) s).part m).halted = (decide (m ∈ ns) || (s.part m).halted) := by
  induction ns generalizing s with
  | nil => rfl
  | cons n ns ih =>
    rw [List.foldl_cons, ih, State.raiseHalt_halted]
    by_cases h1 : m ∈ ns <;> by_cases h2 : m = n <;> simp [h1, h2]

/-- A sample: what the house holds, and whose lines rise. -/
theorem thermalSample_spec (s : State) (temps : List (BitVec 10)) (watts : BitVec 12) :
    Gives (.thermalSample temps watts) s (fun t =>
      t.house.hot = (s.house.hot || temps.any (fun x => decide (210 < x.toNat))) ∧ t.house.pwr = watts ∧
      t.house.pcx = (s.house.pcx || decide (s.house.pcap.toNat < watts.toNat)) ∧
      (temps.any (fun x => decide (210 < x.toNat)) = true → ∀ n < 16, (t.part n).halted = true) ∧
      (temps.any (fun x => decide (210 < x.toNat)) = false → t.parts = s.parts)) := by
  let h := hottest temps 0 (0, temps.headD 0)
  let hot := temps.any (fun t => decide (210 < t.toNat))
  let above := decide (s.house.pcap.toNat < watts.toNat)
  let s1 : State := { s with house := { s.house with
    tmax := h.2, tdie := BitVec.ofNat 3 h.1, pwr := watts, hot := s.house.hot || hot,
    cooling := hot || (s.house.cooling && !temps.all (fun t => decide (t.toNat < 190))), pcx := s.house.pcx || above } }
  let s2 : State := if hot then (List.range 16).foldl (fun acc n => acc.raiseHalt n false none) s1 else s1
  have hhouse : s2.house = s1.house := by
    show State.house (if hot then _ else s1) = _
    split
    · exact (State.calm_foldl _ (fun v n => v.calm_raiseHalt n false none) s1).house
    · rfl
  have hup : hot = true → ∀ n < 16, (s2.part n).halted = true := by
    intro hh n hn
    rw [show s2 = (List.range 16).foldl (fun acc n => acc.raiseHalt n false none) s1 from if_pos hh, State.raiseHalts_halted]
    simp [hn]
  have hsame : hot = false → s2.parts = s.parts := fun hh => by
    rw [show s2 = s1 from if_neg (by rw [hh]; exact Bool.false_ne_true)]
  have he : exec (.thermalSample temps watts) s =
      .next (if above && !s.house.pcx then s2.emit (.pfMsix s.house.pcvec.toNat) else s2) := rfl
  refine ⟨_, he, ?_⟩
  split
  · exact ⟨congrArg House.hot hhouse, congrArg House.pwr hhouse, congrArg House.pcx hhouse, hup, hsame⟩
  · exact ⟨congrArg House.hot hhouse, congrArg House.pwr hhouse, congrArg House.pcx hhouse, hup, hsame⟩

/-- The images of a package that has just been powered, measured. -/
theorem State.measured (u : State) (image main fuses : List Byte) (h : ∀ n, u.meas? n = List.replicate 64 0) :
    let t := ((u.extend 0 image).extend 1 main).extend 2 fuses
    t.meas? 0 = shakeOut 8 (List.replicate 64 0 ++ image) ∧ t.meas? 1 = shakeOut 8 (List.replicate 64 0 ++ main) ∧
    t.meas? 2 = shakeOut 8 (List.replicate 64 0 ++ fuses) := by
  intro t
  refine ⟨?_, ?_, ?_⟩
  · rw [State.meas?_extend, if_neg (by decide), State.meas?_extend, if_neg (by decide), State.meas?_extend, if_pos rfl, h]
  · rw [State.meas?_extend, if_neg (by decide), State.meas?_extend, if_pos rfl, State.meas?_extend, if_neg (by decide), h]
  · rw [State.meas?_extend, if_pos rfl, State.meas?_extend, if_neg (by decide), State.meas?_extend, if_neg (by decide), h]

/-- The package as its images are measured, in phase 4. -/
def State.powered (s : State) (image main fuses : List Byte) (version : BitVec 16) : State :=
  let u := ((s.powerCycle.extend 0 image).extend 1 main).extend 2 fuses
  { u with house := { u.house with phase := 4, fwver := version } }

/-- Power-on with images that are good. -/
theorem powerOn_good (s : State) (image main fuses : List Byte) (version : BitVec 16) :
    Gives (.powerOnReset (.good image main fuses version)) s (fun t => t.house.phase = 4 ∧
      t.house.fwver = version ∧ t.house.cur = 0 ∧ t.meas? 0 = shakeOut 8 (List.replicate 64 0 ++ image) ∧
      t.meas? 1 = shakeOut 8 (List.replicate 64 0 ++ main) ∧ t.meas? 2 = shakeOut 8 (List.replicate 64 0 ++ fuses) ∧
      t.vault = [] ∧ t.gangs = [] ∧ t.cores = [] ∧ t.parts = [] ∧ t.modules = s.modules ∧
      ∀ e, (t.array e).lifeh = (s.array e).lifeh ∧ (t.array e).penh = (s.array e).penh) := by
  obtain ⟨h0, h1, h2⟩ := State.measured s.powerCycle image main fuses (fun _ => rfl)
  have hmeas : ∀ n, (s.powered image main fuses version).meas? n =
      (((s.powerCycle.extend 0 image).extend 1 main).extend 2 fuses).meas? n := fun n => by
    simp only [State.powered, State.meas?]
  refine ⟨s.powered image main fuses version, ?_, ?_, ?_, ?_, (hmeas 0).trans h0, (hmeas 1).trans h1, (hmeas 2).trans h2, ?_⟩
  · rfl
  · rfl
  · rfl
  · rfl
  · have harrays : (s.powered image main fuses version).arrays = s.powerCycle.arrays := by
      simp only [State.powered, State.extend]
    refine ⟨rfl, rfl, rfl, rfl, rfl, fun e => ?_⟩
    rw [State.array, harrays]
    exact array_rested s.arrays e

/-! ### The obligation -/

section
variable {s : State}

theorem State.awake_iff (hr : s.house.ramping = true) : s.awake = true ↔ (∀ e ∈ s.chans, e.2.ps1 = false) ∧
    (s.house.cur = 2 → s.house.polled = true ∧ ∀ e ∈ s.chans, e.2.trying = false) := by
  simp only [State.awake, hr, Bool.true_and, Bool.and_eq_true, List.all_eq_true, Bool.not_eq_true', Bool.or_eq_true, bne_iff_ne, ne_eq]
  rw [imp_iff_not_or]

theorem exec_clockRamp_none (he : s.house.entering = none) : exec .clockRampComplete s = whenever s.awake s
    { s with house := { s.house with ramping := false, cur := 0, wakeAsked := false } } := by
  show execClockRampComplete s = _
  rw [execClockRampComplete, he]

theorem exec_clockRamp_one (he : s.house.entering = some 1) : exec .clockRampComplete s =
    .next ({ s with house := { s.house with entering := none, cur := 1 } } : State).enterStandby := by
  show execClockRampComplete s = _
  rw [execClockRampComplete, he]
  rfl

theorem exec_clockRamp_two (he : s.house.entering = some 2) : exec .clockRampComplete s =
    .next ({ s with house := { s.house with entering := none, cur := 2, wakeAsked := false } } : State).enterSleep := by
  show execClockRampComplete s = _
  rw [execClockRampComplete, he]
  rfl

/-- A request that something keeps from being met. -/
theorem State.askPower_busy {r : BitVec 2} (h : r = 1#2 ∨ r = 2#2) (hb : s.busy = true) :
    s.askPower r = { s with house := { s.house with req := r, ref := true } } := by
  rcases h with rfl | rfl <;> simp [State.askPower, hb]

/-- A request for the state that the package is in. -/
theorem State.askPower_there {r : BitVec 2} (h : r = 1#2 ∨ r = 2#2) (hb : s.busy = false)
    (ht : r = s.house.cur ∧ s.house.entering = none ∧ s.house.ramping = false) :
    s.askPower r = { s with house := { s.house with req := r } } := by
  unfold State.askPower
  rcases h with rfl | rfl <;> rw [if_neg (by decide), if_neg (by decide), if_neg (by rw [hb]; decide), if_pos ht]

/-- A request for another state. -/
theorem State.askPower_elsewhere {r : BitVec 2} (h : r = 1#2 ∨ r = 2#2) (hb : s.busy = false)
    (ht : ¬ (r = s.house.cur ∧ s.house.entering = none ∧ s.house.ramping = false)) :
    s.askPower r = { s with house := { s.house with req := r, entering := some r, ramping := false } } := by
  unfold State.askPower
  rcases h with rfl | rfl <;> rw [if_neg (by decide), if_neg (by decide), if_neg (by rw [hb]; decide), if_neg ht]

/-- Phase 4 that ends, or does not (R468, R469). -/
theorem House.tryReady_both {h : House} (hp : h.phase = 4) (h1 : h.pcie = true) (h2 : h.mesh0 = true) (h3 : h.mesh1 = true) :
    h.tryReady.phase = 5 ∧ h.tryReady.meshDown = false := by simp [House.tryReady, hp, h1, h2, h3]

theorem House.tryReady_kept {h : House} (hp : h.phase ≠ 4) : h.tryReady = h := by simp [House.tryReady, hp]

end

/-- Settles O60: start-up, power states and temperature, clause by clause. -/
theorem startUpAndPowerStates : Obligations.StartUpAndPowerStates := by
  unfold Obligations.StartUpAndPowerStates
  intro s
  dsimp only
  refine ⟨fun image main fuses version => ?_, fun b n h => ?_, fun hp => ⟨fun h1 h2 => ?_, fun h1 h2 => ?_, fun h1 h2 => ?_,
    fun h1 h2 => ?_, fun h1 h2 => ?_, fun port h1 h2 h3 => ?_⟩, fun hp port => ⟨?_, ?_⟩, ?_, fun hr r => ?_, fun hr r h12 => ⟨fun hb => ?_,
    fun hb hth => ?_, fun hb hth => ?_⟩, fun hr hc he hrp => ?_, fun he => ?_, fun he => ?_, fun he hr => ⟨fun h1 h2 => ?_, fun h => ?_⟩,
    fun temps watts => ⟨fun hh => ?_, fun hh => ?_⟩⟩
  · exact powerOn_good s image main fuses version
  · rcases h with ⟨rfl, rfl⟩ | ⟨rfl, rfl⟩ | ⟨image, rfl, rfl⟩ | ⟨rfl, rfl⟩ <;> exact ⟨_, rfl, rfl, rfl⟩
  · refine gives_whenever (t := { s with house := ({ s.house with late := true } : House).tryReady }) rfl (by simp [hp]) ?_
    rcases h2 with h2 | h2 <;> simp [House.tryReady, hp, h1, h2] <;> split_ifs <;> rfl
  · refine gives_whenever (t := { s with house := ({ s.house with late := true } : House).tryReady }) rfl (by simp [hp]) ?_
    simp [House.tryReady, House.lateErr, hp, h1, h2]
  · refine gives_whenever (t := { s with house := ({ s.house with late := true } : House).tryReady }) rfl (by simp [hp]) ?_
    rcases h2 with h2 | h2 <;> simp [House.tryReady, House.lateErr, hp, h1, h2]
  · refine gives_whenever (t := { s with house := ({ s.house with pcie := true } : House).tryReady }) rfl (by simp [hp]) ?_
    exact House.tryReady_both (h := { s.house with pcie := true }) hp rfl h1 h2
  · refine gives_whenever (t := { s with house := ({ s.house with pcie := true } : House).tryReady }) rfl (by simp [hp]) ?_
    simp [House.tryReady, hp, h1]
    rw [if_neg h2]
    exact ⟨rfl, rfl⟩
  · refine gives_whenever (t := { s with house :=
      (if port = 0 then { s.house with mesh0 := true } else { s.house with mesh1 := true } : House).tryReady }) rfl (by simp [hp]) ?_
    by_cases hport : port = 0
    · rw [if_pos hport]
      exact (House.tryReady_both (h := { s.house with mesh0 := true }) hp h1 rfl (h2 hport)).1
    · rw [if_neg hport]
      exact (House.tryReady_both (h := { s.house with mesh1 := true }) hp h1 (h3 hport) rfl).1
  · refine gives_whenever (t := { s with house :=
      (if port = 0 then { s.house with mesh0 := true } else { s.house with mesh1 := true } : House).tryReady }) rfl (by simp [hp]) ?_
    by_cases hport : port = 0
    · rw [if_pos hport]
      dsimp only
      rw [House.tryReady_kept (by simp [hp])]
      exact ⟨hp, fun _ => rfl, fun h => absurd hport h⟩
    · rw [if_neg hport]
      dsimp only
      rw [House.tryReady_kept (by simp [hp])]
      exact ⟨hp, fun h => absurd h hport, fun _ => rfl⟩
  · refine ⟨{ s with house :=
      (if port = 0 then { s.house with mesh0 := false } else { s.house with mesh1 := false } : House).tryReady }, rfl, ?_⟩
    by_cases hport : port = 0
    · rw [if_pos hport]
      dsimp only
      rw [House.tryReady_kept (by simp [hp])]
      exact ⟨hp, fun _ => rfl, fun h => absurd hport h⟩
    · rw [if_neg hport]
      dsimp only
      rw [House.tryReady_kept (by simp [hp])]
      exact ⟨hp, fun h => absurd h hport, fun _ => rfl⟩
  · refine ⟨s, ?_, rfl⟩
    show whenever s.pfReaches s s = _
    rw [whenever, ite_self]
  · refine ⟨s, ?_, rfl⟩
    show whenever s.pfReaches s (s.askPower r) = _
    rw [hr]; rfl
  · refine gives_whenever (t := s.askPower r) rfl hr ?_
    rw [State.askPower_busy h12 hb]
    exact ⟨rfl, rfl, rfl, rfl⟩
  · refine gives_whenever (t := s.askPower r) rfl hr ?_
    exact State.askPower_there h12 hb hth
  · refine gives_whenever (t := s.askPower r) rfl hr ?_
    rw [State.askPower_elsewhere h12 hb hth]
    exact ⟨rfl, rfl, rfl, rfl⟩
  · refine gives_whenever (t := s.askPower 0) rfl hr ?_
    have hwake : s.askPower 0 = ({ s with house := { s.house with req := 0 } } : State).beginWake := rfl
    rw [hwake, State.beginWake_house (s := { s with house := { s.house with req := 0 } }) hrp he hc]
    exact ⟨rfl, rfl, rfl⟩
  · refine ⟨_, exec_clockRamp_one he, ?_⟩
    have hopt := State.optical_enterStandby { s with house := { s.house with entering := none, cur := 1 } }
    have hhouse := hopt.same State.house (fun _ => rfl)
    exact ⟨congrArg House.cur hhouse, congrArg House.entering hhouse, hopt.same State.cores (fun _ => rfl), hopt.same State.vault (fun _ => rfl)⟩
  · refine ⟨_, exec_clockRamp_two he, ?_⟩
    obtain ⟨hhouse, hvault, hcores, hcorbel, hteams⟩ :=
      State.enterSleep_spec { s with house := { s.house with entering := none, cur := 2, wakeAsked := false } }
    exact ⟨congrArg House.cur hhouse, congrArg House.entering hhouse, hvault, hcores, hcorbel, hteams⟩
  · exact gives_whenever (exec_clockRamp_none he) ((State.awake_iff hr).mpr ⟨h1, h2⟩) rfl
  · have hno : s.awake = false := by
      refine Bool.eq_false_iff.mpr (fun ha => ?_)
      obtain ⟨h1, h2⟩ := (State.awake_iff hr).mp ha
      rcases h with ⟨e, he, hps⟩ | h
      · rw [h1 e he] at hps; cases hps
      · exact h h2
    exact ⟨s, by rw [exec_clockRamp_none he, hno]; rfl, rfl⟩
  · have hany : temps.any (fun x => decide (210 < x.toNat)) = true := by simpa using hh
    obtain ⟨t, ht, hhot, hpwr, -, hup, -⟩ := thermalSample_spec s temps watts
    exact ⟨t, ht, by rw [hhot, hany, Bool.or_true], hpwr, hup hany⟩
  · have hany : temps.any (fun x => decide (210 < x.toNat)) = false := by simpa using hh
    obtain ⟨t, ht, hhot, hpwr, hpcx, -, hsame⟩ := thermalSample_spec s temps watts
    refine ⟨t, ht, by rw [hhot, hany, Bool.or_false], hpwr, hsame hany, fun h => ?_, fun h => ?_⟩
    · rw [hpcx, decide_eq_true h, Bool.or_true]
    · rw [hpcx, decide_eq_false (by omega), Bool.or_false]

end Sys2Proof.Machine
end

section
/-! PROOFS. Writes to optical registers and planned steps (R441-R447). -/

namespace Sys2Proof.Machine

section
variable {s : State} {i : Instr}

/-- What a write by one that may not write a register does. -/
theorem gives_refused {p : Bool} {t : State} (he : exec i s = whenever p s t) (h : p = false) : Gives i s (fun u => u = s) :=
  ⟨s, by rw [he, h]; rfl, rfl⟩

/-- What a write that asks for nothing does. -/
theorem gives_idle {p : Bool} {t : State} (he : exec i s = whenever p s t) (h : t = s) : Gives i s (fun u => u = s) :=
  ⟨s, by rw [he, h, whenever, ite_self], rfl⟩

/-! ### TGTW, RETRAIN, PARK -/

theorem State.tgtw_of_write {k w : Nat} (hw : w = 1 ∨ w = 2 ∨ w = 4 ∨ w = 8) (hf : (s.pair (pairOfLink k)).fab = true) :
    ((s.writeTgtw k w).link k).tgtw = w := by
  have hcond : ((w == 8 || w == 4 || w == 2 || w == 1) && (s.pair (pairOfLink k)).fab) = true := by
    rcases hw with rfl | rfl | rfl | rfl <;> simp [hf]
  rw [State.writeTgtw, if_pos hcond, (State.settles_settleLink _ k).tgtw, State.link_putLink, if_pos rfl]

/-- A retraining begins; what the waking channels of the link had claimed is free. -/
theorem State.retrain_spec (s : State) (k : Nat) : s.Optical (s.retrain k) ∧ (∀ n, (s.retrain k).part n = s.part n) ∧
    ((s.retrain k).link k).state = .retraining ∧ ((s.retrain k).link k).failures = (s.link k).failures := by
  have hfold : s.Optical ((linkChans k).foldl (fun acc c => if (acc.chan c).state == .waking then acc.dropSite c else acc) s) ∧
      ∀ n, ((linkChans k).foldl (fun acc c => if (acc.chan c).state == .waking then acc.dropSite c else acc) s).part n = s.part n := by
    refine List.foldlRecOn _ _ (motive := fun v : State => s.Optical v ∧ ∀ n, v.part n = s.part n) ⟨.refl s, fun _ => rfl⟩
      (fun v hv c _ => ?_)
    split
    · exact ⟨hv.1.trans (v.optical_dropSite c), fun n => (v.part_dropSite c n).trans (hv.2 n)⟩
    · exact hv
  unfold State.retrain
  dsimp only
  refine ⟨hfold.1.trans (State.optical_putLink _ _ _), hfold.2, ?_, ?_⟩
  · rw [State.link_putLink, if_pos rfl]
  · rw [State.link_putLink, if_pos rfl]
    rfl

theorem State.askRetrain_spec {k : Nat} (hf : (s.pair (pairOfLink k)).fab = true) (hs : (s.link k).state ≠ .retraining) :
    ((s.askRetrain k).link k).state = .retraining ∧ ((s.askRetrain k).link k).failures = 0 ∧
      ∀ n, (s.askRetrain k).part n = s.part n := by
  rw [State.askRetrain, if_pos (by simp [hf, hs])]
  obtain ⟨-, hpart, hstate, hfail⟩ := (s.putLink k { s.link k with failures := 0, stuck := false }).retrain_spec k
  refine ⟨hstate, hfail.trans ?_, hpart⟩
  rw [State.link_putLink, if_pos rfl]

/-- A channel that follows its link keeps its PARK, its site and what is claimed for it. -/
theorem Chan.Follows.keeps {x y : Chan} (h : x.Follows y) : y.park = x.park ∧ y.spare = x.spare ∧ y.tuning = x.tuning ∧
    y.rewake = x.rewake ∧ y.tried = x.tried ∧ y.wfail = x.wfail ∧ y.trying = x.trying := by
  rcases h with rfl | ⟨-, -, rfl⟩ | ⟨-, -, rfl⟩ <;> exact ⟨rfl, rfl, rfl, rfl, rfl, rfl, rfl⟩

theorem State.park_of_write {c : Nat} (park : Bool) (hf : (s.pair (pairOfChan c)).fab = false) :
    ((s.writePark c park).chan c).park = park := by
  rw [State.writePark, hf, if_neg Bool.false_ne_true, ((State.settles_settleChan _ c).chan c).keeps.1, State.chan_modChan, if_pos rfl]

/-! ### FABREQ -/

theorem State.pair_extend (s : State) (n : Nat) (d : List Byte) (f : Nat) : (s.extend n d).pair f = s.pair f := rfl

theorem State.fab_of_move (s : State) (f : Nat) (peer : Bool) :
    ((s.moveFabric f peer).pair f).fab = peer ∧ ((s.moveFabric f peer).pair f).fabreq = (s.pair f).fabreq := by
  have hchans : ∀ (v : State) (cs : List Nat) (x : Chan → Chan) (g : Nat),
      (cs.foldl (fun acc c => acc.modChan c x) v).pair g = v.pair g := fun v cs x g =>
    List.foldlRecOn cs _ (motive := fun u : State => u.pair g = v.pair g) rfl (fun _ hu _ _ => hu)
  have hlinks : ∀ (v : State) (ks : List Nat) (g : Nat), (ks.foldl (fun acc k => acc.fallLink k false) v).pair g = v.pair g :=
    fun v ks g => List.foldlRecOn ks _ (motive := fun u : State => u.pair g = v.pair g) rfl
      (fun u hu k _ => (State.pair_endPlans _ _ _ _).trans hu)
  have hpair : (s.moveFabric f peer).pair f = { s.pair f with fab := peer, trained := false } := by
    rw [State.moveFabric, State.pair_extend]
    refine Eq.trans (hlinks _ _ f) ?_
    refine Eq.trans (hchans _ _ _ f) ?_
    rw [State.pair_putPair, if_pos rfl]
  rw [hpair]
  exact ⟨rfl, rfl⟩

/-- A write of FABREQ (R15). -/
theorem State.writeFabreq_spec (s : State) (f : Nat) (peer : Bool) :
    ((s.pair f).fab = peer → s.writeFabreq f peer = s.putPair f { s.pair f with fabreq := peer }) ∧
    ((s.pair f).fab ≠ peer → s.pairQuiet f = true →
      ((s.writeFabreq f peer).pair f).fab = peer ∧ ((s.writeFabreq f peer).pair f).fabreq = peer) ∧
    ((s.pair f).fab ≠ peer → s.pairQuiet f = false →
      ((s.writeFabreq f peer).pair f).fab = (s.pair f).fab ∧ ((s.writeFabreq f peer).pair f).ref = true) := by
  unfold State.writeFabreq
  dsimp only
  refine ⟨fun h => ?_, fun h hq => ?_, fun h hq => ?_⟩
  · rw [if_pos (by simp [h])]
  · rw [if_neg (by simpa using h), if_pos hq]
    obtain ⟨h1, h2⟩ := (s.putPair f { s.pair f with fabreq := peer }).fab_of_move f peer
    refine ⟨h1, h2.trans ?_⟩
    rw [State.pair_putPair, if_pos rfl]
  · rw [if_neg (by simpa using h), if_neg (by rw [hq]; exact Bool.false_ne_true)]
    have hrise : ∀ (v : State) (b : Risen), (v.rise b).pair f = v.pair f := fun v b => by
      unfold State.rise
      split <;> rfl
    rw [hrise, State.pair_putPair, if_pos rfl]
    exact ⟨rfl, rfl⟩

/-! ### Planned steps (R444) -/

/-- The word of PLAN, field by field. -/
theorem planWord_fields {cmd tgt : Nat} (hc : cmd < 16) (ht : tgt < 1024) (ring : Bool) :
    bits (planWord cmd tgt ring) 3 0 = cmd ∧ bits (planWord cmd tgt ring) 13 4 = tgt ∧ bit (planWord cmd tgt ring) 14 = ring ∧
    bit (planWord cmd tgt ring) 16 = true := by
  have hr : ring.toNat < 2 := Bool.toNat_lt ring
  have h14 : bit (planWord cmd tgt ring) 14 = (ring.toNat == 1) := by
    rw [bit, planWord, Nat.mod_eq_of_lt ht]
    congr 1
    omega
  refine ⟨?_, ?_, ?_, ?_⟩
  · simp only [bits, planWord, Nat.mod_eq_of_lt ht]; omega
  · simp only [bits, planWord, Nat.mod_eq_of_lt ht]; omega
  · rw [h14]; cases ring <;> rfl
  · have : planWord cmd tgt ring / 2 ^ 16 % 2 = 1 := by
      simp only [planWord, Nat.mod_eq_of_lt ht]; omega
    rw [bit, this]; rfl

/-- PLAN holds a step that is asked for. -/
def State.planAsked (s : State) (part cmd tgt : Nat) (ring : Bool) : State :=
  s.putPart part { s.part part with planCmd := BitVec.ofNat 4 cmd, planTgt := tgt, planRing := ring }

theorem State.writePlan_word {cmd tgt : Nat} (hc : cmd < 16) (ht : tgt < 1024) (ring : Bool) (s : State) (part : Nat) :
    s.writePlan part (planWord cmd tgt ring) = (s.planAsked part cmd tgt ring).planGo part cmd tgt ring := by
  obtain ⟨h1, h2, h3, h4⟩ := planWord_fields hc ht ring
  rw [State.writePlan, h1, h2, h3, h4, if_pos rfl]
  rfl

/-- PLAN holds a step that has started. -/
def State.planStarted (s : State) (part cmd tgt : Nat) (ring : Bool) : State :=
  (s.planAsked part cmd tgt ring).modPart part (fun p => { p with planStatus := 1, planRun := some (cmd, tgt) })

theorem State.part_planAsked (s : State) (part cmd tgt : Nat) (ring : Bool) : (s.planAsked part cmd tgt ring).part part =
    { s.part part with planCmd := BitVec.ofNat 4 cmd, planTgt := tgt, planRing := ring } := by
  rw [State.planAsked, State.part_putPart, if_pos rfl]

/-- The step that a partition asks for. -/
def State.planRuns (s : State) (part cmd tgt : Nat) (ring : Bool) : State :=
  match cmd with
  | 1 => s.planSpare part tgt ring.toNat
  | 2 => s.planRelease part tgt
  | 3 => s.planRetrain part tgt
  | 4 => s.planShare part tgt
  | _ => s

theorem State.planGo_spec (s : State) (part cmd tgt : Nat) (ring : Bool) :
    let u := s.planAsked part cmd tgt ring
    ((s.part part).planRun.isSome = true → (u.planGo part cmd tgt ring).part part =
      { s.part part with planCmd := BitVec.ofNat 4 cmd, planTgt := tgt, planRing := ring, planStatus := 4 }) ∧
    ((s.part part).planRun = none → ¬ (planPairs cmd tgt).any (s.ownsPair part) = true →
      (u.planGo part cmd tgt ring).part part = (u.part part).planEnded 4) ∧
    ((s.part part).planRun = none → (planPairs cmd tgt).any (s.ownsPair part) = true →
      u.planGo part cmd tgt ring = (s.planStarted part cmd tgt ring).planRuns part cmd tgt ring) := by
  intro u
  have hu := s.part_planAsked part cmd tgt ring
  have hrun : (u.part part).planRun = (s.part part).planRun := by rw [hu]
  have howns : u.ownsPair part = s.ownsPair part := rfl
  rw [State.planGo, hrun, howns]
  dsimp only
  refine ⟨fun h => ?_, fun h hno => ?_, fun h hown => ?_⟩
  · rw [if_pos h, State.part_modPart, hu]
  · rw [h, if_neg (by simp), if_pos (by simpa using hno), State.part_endPlan, if_pos rfl]
  · rw [h, if_neg (by simp), if_neg (by rw [hown]; decide)]
    rfl

theorem State.part_planStarted (s : State) (part cmd tgt : Nat) (ring : Bool) :
    ((s.planStarted part cmd tgt ring).part part).planStatus = 1 := by
  rw [State.planStarted, State.part_modPart]

/-- A step of PLAN that ends at once, or has only been started. -/
theorem gives_plan {part cmd tgt : Nat} {ring : Bool} {P : State → Prop} (hp : s.house.phase = 5) (hc : cmd < 16) (ht : tgt < 1024)
    (he : exec i s = whenReady s (s.writePlan part (planWord cmd tgt ring)))
    (hP : P ((s.planAsked part cmd tgt ring).planGo part cmd tgt ring)) : Gives i s P :=
  gives_whenReady he hp (by rw [State.writePlan_word hc ht]; exact hP)

/-- A step while another runs (R444). -/
theorem State.planGo_while {part cmd tgt : Nat} {ring : Bool} (h : (s.part part).planRun.isSome = true) :
    (((s.planAsked part cmd tgt ring).planGo part cmd tgt ring).part part).planStatus = 4 := by
  rw [(s.planGo_spec part cmd tgt ring).1 h]

/-- A step on pairs of others (R444). -/
theorem State.planGo_foreign {part cmd tgt : Nat} {ring : Bool} (h : (s.part part).planRun = none)
    (hno : ¬ (planPairs cmd tgt).any (s.ownsPair part) = true) :
    (((s.planAsked part cmd tgt ring).planGo part cmd tgt ring).part part).planStatus = 4 := by
  rw [(s.planGo_spec part cmd tgt ring).2.1 h hno]
  rfl

/-- A step that starts (R444). -/
theorem State.planGo_started {part cmd tgt : Nat} {ring : Bool} (h : (s.part part).planRun = none)
    (hown : (planPairs cmd tgt).any (s.ownsPair part) = true) :
    (s.planAsked part cmd tgt ring).planGo part cmd tgt ring = (s.planStarted part cmd tgt ring).planRuns part cmd tgt ring :=
  (s.planGo_spec part cmd tgt ring).2.2 h hown

theorem getLsbD_or_two_pow (b : BitVec 2) {n : Nat} (hn : n < 2) : (b ||| BitVec.ofNat 2 (2 ^ n)).getLsbD n = true := by
  have : n = 0 ∨ n = 1 := by omega
  rcases this with rfl | rfl <;> simp

theorem State.planSpare_spec {part c n : Nat} (hn : n < 2) (hs : (s.chan c).state = .active) (hne : (s.chan c).spare ≠ n + 1)
    (hu : s.siteUsed (pairOfChan c) n = false) (ht : (s.chan c).tuning = none) (hw : (s.chan c).swap = none) :
    (∀ m, (s.planSpare part c n).part m = s.part m) ∧ ((s.planSpare part c n).chan c).tuning = some (n, true) ∧
      ((s.planSpare part c n).pair (pairOfChan c)).spuse.getLsbD n = true := by
  have hclaim : s.planSpare part c n = s.claimSite c n true := by
    unfold State.planSpare
    dsimp only
    rw [if_neg (by simp [hs]), if_neg hne, if_neg (by simp [hu, ht, hw])]
  obtain ⟨-, hchan, hpart, hsp⟩ := s.claimSite_spec c n true
  rw [hclaim]
  refine ⟨hpart, ?_, ?_⟩
  · rw [hchan, if_pos rfl]
  · rw [hsp hn]
    exact getLsbD_or_two_pow _ hn

theorem State.planRelease_own {part c : Nat} (h : (s.chan c).spare = 0) : s.planRelease part c = s.endPlan part 2 := by
  unfold State.planRelease
  dsimp only
  rw [if_pos h]

theorem State.planRelease_still {part c : Nat} (h : (s.chan c).spare ≠ 0) (ht : (s.chan c).tuning = none) (hw : (s.chan c).swap = none)
    (hs : (s.chan c).state ≠ .active) : s.planRelease part c = (s.switchRing c 2).endPlan part 2 := by
  unfold State.planRelease
  dsimp only
  rw [if_neg h, if_neg (by simp [ht, hw]), if_neg (by simpa using hs)]

theorem State.spare_released (s : State) (part c : Nat) : (((s.switchRing c 2).endPlan part 2).chan c).spare = 0 := by
  show ((s.switchRing c 2).chan c).spare = 0
  rw [(s.switchRing_spec c 2).2.1 c, if_pos rfl]
  rfl

/-! ### Lines (R440, R441) -/

theorem State.line_putLine (s : State) (e lam : Nat) (x : Line) : (s.putLine e lam x).line e lam = x := Tbl.get_set_same _ _ _ _

theorem State.line_putLine_other {e lam e' lam' : Nat} (x : Line) (hne : 16 * e' + lam' ≠ 16 * e + lam) :
    (s.putLine e lam x).line e' lam' = s.line e' lam' := Tbl.get_set_other _ _ _ hne

theorem neighbour_ne (e : Nat) : neighbour e ≠ e := by
  intro h
  have := congrArg (· ^^^ e) h
  simp [neighbour] at this

theorem State.line_setDonor (s : State) (e lam : Nat) (b : Bool) : (s.setDonor e lam b).line e lam = { s.line e lam with donor := b } :=
  s.line_putLine e lam _

theorem State.line_setDonor_other {e lam e' lam' : Nat} (b : Bool) (hne : 16 * e' + lam' ≠ 16 * e + lam) :
    (s.setDonor e lam b).line e' lam' = s.line e' lam' := s.line_putLine_other _ hne

/-- Lines of a state that the channels of another differ from. -/
theorem State.line_wakeDark (s : State) (cs : List Nat) (e lam : Nat) : (s.wakeDark cs).line e lam = s.line e lam :=
  List.foldlRecOn cs _ (motive := fun v : State => v.line e lam = s.line e lam) rfl (fun _ hv _ _ => hv)

theorem State.line_shiftMargin (s : State) (cs : List Nat) (f : Nat → Nat) (e lam : Nat) : (s.shiftMargin cs f).line e lam = s.line e lam :=
  List.foldlRecOn cs _ (motive := fun v : State => v.line e lam = s.line e lam) rfl (fun _ hv _ _ => hv)

theorem State.Optical.line {t : State} (h : s.Optical t) (e lam : Nat) : t.line e lam = s.line e lam :=
  h.same (fun v => v.line e lam) (fun _ => rfl)

/-- The neighbour's line feeds both engines (R440). -/
theorem State.share_lines (s : State) {e lam : Nat} : ((s.share e lam).line e lam).fed = true ∧
    ((s.share e lam).line (neighbour e) lam).donor = true ∧ ((s.share e lam).line e lam).lost = (s.line e lam).lost := by
  have hne : 16 * e + lam ≠ 16 * neighbour e + lam := fun h => neighbour_ne e (by omega)
  unfold State.share
  dsimp only
  rw [State.line_shiftMargin, State.line_wakeDark, State.line_shiftMargin, State.line_wakeDark, State.line_putLine,
    State.line_putLine_other _ hne.symm, State.line_setDonor]
  exact ⟨rfl, rfl, rfl⟩

/-! ### The end of a sharing (R441, R449) -/

/-- What a wake or a sharing's end looks at in a channel. -/
def Chan.mood (x : Chan) : ChanState × Bool × Bool × Bool := (x.state, x.parking, x.rewake, x.tried)

/-- A channel whose line comes back. -/
def Chan.rewoken (y : Chan) : Chan :=
  if y.state != .active then y else if y.parking then { y with rewake := true } else { y with state := .waking }

/-- A dark channel that has been tried wakes. -/
def Chan.lighted (x : Chan) : Chan := if x.state == .down && x.tried then { x with state := .waking, trying := false } else x

theorem Chan.of_mood {x y : Chan} (h : x.mood = y.mood) : x.state = y.state ∧ x.rewake = y.rewake :=
  ⟨congrArg Prod.fst h, congrArg (fun m => m.2.2.1) h⟩

theorem Chan.mood_rewoken_congr {x y : Chan} (h : x.mood = y.mood) : x.rewoken.mood = y.rewoken.mood := by
  obtain ⟨h1, h2, h3, h4⟩ : x.state = y.state ∧ x.parking = y.parking ∧ x.rewake = y.rewake ∧ x.tried = y.tried := by
    simpa [Chan.mood] using h
  unfold Chan.rewoken
  rw [h1, h2]
  split_ifs <;> simp [Chan.mood, h1, h2, h3, h4]

theorem Chan.mood_rewoken_twice (x : Chan) : x.rewoken.rewoken.mood = x.rewoken.mood := by
  unfold Chan.rewoken
  cases hs : x.state <;> cases hp : x.parking <;> simp [hs, hp, Chan.mood]

theorem Chan.mood_lighted_congr {x y : Chan} (h : x.mood = y.mood) : x.lighted.mood = y.lighted.mood := by
  obtain ⟨h1, h2, h3, h4⟩ : x.state = y.state ∧ x.parking = y.parking ∧ x.rewake = y.rewake ∧ x.tried = y.tried := by
    simpa [Chan.mood] using h
  unfold Chan.lighted
  rw [h1, h4]
  split_ifs <;> simp [Chan.mood, h1, h2, h3, h4]

theorem Chan.mood_lighted_twice (x : Chan) : x.lighted.lighted.mood = x.lighted.mood := by
  unfold Chan.lighted
  cases hs : x.state <;> cases ht : x.tried <;> simp [hs, ht, Chan.mood]

/-- Channels changed one after another, each as f tells, f twice being f. -/
theorem State.mood_fold (step : State → Nat → State) (f : Chan → Chan)
    (hother : ∀ v c d, d ≠ c → (State.chan (step v c) d).mood = (v.chan d).mood)
    (hown : ∀ v c, (State.chan (step v c) c).mood = (f (v.chan c)).mood)
    (hcongr : ∀ x y : Chan, x.mood = y.mood → (f x).mood = (f y).mood) (htwice : ∀ x : Chan, (f (f x)).mood = (f x).mood)
    (cs : List Nat) (s : State) (k : Nat) :
    ((cs.foldl step s).chan k).mood = if k ∈ cs then (f (s.chan k)).mood else (s.chan k).mood := by
  induction cs generalizing s with
  | nil => rfl
  | cons c cs ih =>
    rw [List.foldl_cons, ih]
    by_cases hc : k = c
    · subst hc
      by_cases hk : k ∈ cs
      · rw [if_pos hk, if_pos (.head _), hcongr _ _ (hown s k), htwice]
      · rw [if_neg hk, if_pos (.head _), hown]
    · have hstep := hother s c k hc
      by_cases hk : k ∈ cs
      · rw [if_pos hk, if_pos (.tail _ hk), hcongr _ _ hstep]
      · rw [if_neg hk, if_neg (by simp [hc, hk]), hstep]

/-- The channels of a line as its wakes begin. -/
def State.rewaken (s : State) (cs : List Nat) : State := (cs.foldl (fun acc c => (acc.breakOff c).modChan c Chan.rewoken) s).wakeDark cs

theorem State.mood_rewaken (s : State) (cs : List Nat) {k : Nat} (hk : k ∈ cs) :
    ((s.rewaken cs).chan k).mood = (s.chan k).rewoken.lighted.mood := by
  have hwake : ∀ v : State, ((v.wakeDark cs).chan k).mood = (v.chan k).lighted.mood := by
    intro v
    refine (State.mood_fold (fun acc c => acc.modChan c Chan.lighted) Chan.lighted (fun v c d hd => ?_) (fun v c => ?_)
      (fun _ _ h => Chan.mood_lighted_congr h) Chan.mood_lighted_twice cs v k).trans (if_pos hk)
    · rw [State.chan_modChan, if_neg hd]
    · rw [State.chan_modChan, if_pos rfl]
  have hbreak : ∀ v : State, ((cs.foldl (fun acc c => (acc.breakOff c).modChan c Chan.rewoken) v).chan k).mood =
      (v.chan k).rewoken.mood := by
    intro v
    refine (State.mood_fold (fun acc c => (acc.breakOff c).modChan c Chan.rewoken) Chan.rewoken (fun v c d hd => ?_) (fun v c => ?_)
      (fun _ _ h => Chan.mood_rewoken_congr h) Chan.mood_rewoken_twice cs v k).trans (if_pos hk)
    · rw [State.chan_modChan, if_neg hd, (v.breakOff_spec c).2.1 d hd]
    · rw [State.chan_modChan, if_pos rfl]
      obtain ⟨-, -, h1, h2, h3, h4⟩ := v.breakOff_spec c
      exact Chan.mood_rewoken_congr (by simp [Chan.mood, h1, h2, h3, h4])
  rw [State.rewaken, hwake, Chan.mood_lighted_congr (hbreak s)]

theorem State.optical_rewaken (s : State) (cs : List Nat) : s.Optical (s.rewaken cs) :=
  (State.optical_foldl _ (fun v c => (v.optical_breakOff c).trans (State.optical_modChan _ _ _)) s).trans
    (State.optical_foldl _ (fun _ _ => State.optical_modChan _ _ _) _)

theorem State.mood_shiftMargin (s : State) (cs : List Nat) (f : Nat → Nat) (k : Nat) :
    ((s.shiftMargin cs f).chan k).mood = (s.chan k).mood := by
  refine List.foldlRecOn cs _ (motive := fun v : State => (v.chan k).mood = (s.chan k).mood) rfl (fun v hv c _ => ?_)
  rw [State.chan_modChan]
  split
  · next h => rw [h] at hv; rw [h]; exact hv
  · exact hv

theorem State.optical_shiftMargin (s : State) (cs : List Nat) (f : Nat → Nat) : s.Optical (s.shiftMargin cs f) :=
  State.optical_foldl cs (fun _ _ => State.optical_modChan _ _ _) s

/-- The lines of a sharing that ends. -/
theorem State.unfed_lines (s : State) (e lam : Nat) :
    ((s.putLine e lam { s.line e lam with lost := false, fed := false }).setDonor (neighbour e) lam false).line e lam =
      { s.line e lam with lost := false, fed := false } ∧
    (((s.putLine e lam { s.line e lam with lost := false, fed := false }).setDonor (neighbour e) lam false).line
      (neighbour e) lam).donor = false := by
  have hne : 16 * e + lam ≠ 16 * neighbour e + lam := fun h => neighbour_ne e (by omega)
  rw [State.line_setDonor_other _ hne, State.line_putLine, State.line_setDonor]
  exact ⟨rfl, rfl⟩

/-- The lines as a sharing ends. -/
def State.unfed (s : State) (e lam : Nat) : State :=
  (s.putLine e lam { s.line e lam with lost := false, fed := false }).setDonor (neighbour e) lam false

/-- The channels as a sharing ends. -/
def State.unshared (s : State) (e lam : Nat) : State := (s.rewaken (lineChans e lam)).settleChans (lineChans e lam)

/-- A sharing ended (R441). -/
def State.shareEnded (s : State) (e lam : Nat) : State :=
  (((s.unfed e lam).unshared e lam).shiftMargin (lineChans e lam ++ lineChans (neighbour e) lam) (fun m => min 255 (m + 12))).shareDone
    (16 * (4 * e) + lam)

theorem State.planUnshare_eq {part t : Nat} (hf : (s.line (t / 16) (t % 16)).fed = true) :
    s.planUnshare part t true = s.shareEnded (t / 16) (t % 16) := by
  unfold State.planUnshare
  dsimp only
  rw [hf, if_pos (by decide)]
  rfl

theorem State.optical_shareEnded (s : State) (e lam : Nat) : (s.unfed e lam).Optical (s.shareEnded e lam) :=
  State.Optical.trans (((s.unfed e lam).optical_rewaken _).trans (State.settles_settleChans _ _).optical)
    (State.Optical.trans (State.optical_shiftMargin _ _ _) (State.optical_shareDone _ _))

theorem State.mood_shareEnded (s : State) (e lam k : Nat) :
    ((s.shareEnded e lam).chan k).mood = (((s.unfed e lam).unshared e lam).chan k).mood := by
  rw [State.shareEnded, State.chan_shareDone]
  exact State.mood_shiftMargin _ _ _ _

/-- The channels of a line that comes back (R441, R449). -/
theorem State.unshared_chan (s : State) {e lam k : Nat} (hk : k ∈ lineChans e lam) :
    (((s.chan k).state = .active ∧ (s.chan k).parking = false) ∨ ((s.chan k).state = .down ∧ (s.chan k).tried = true) →
      ((s.unshared e lam).chan k).state = .waking) ∧
    ((s.chan k).state = .active → (s.chan k).parking = true →
      ((s.unshared e lam).chan k).state = .active ∧ ((s.unshared e lam).chan k).rewake = true) := by
  obtain ⟨hst, hrw⟩ := Chan.of_mood (s.mood_rewaken _ hk)
  have hfollow : ((s.rewaken (lineChans e lam)).chan k).Follows ((s.unshared e lam).chan k) :=
    (State.settles_settleChans (s.rewaken (lineChans e lam)) (lineChans e lam)).chan k
  refine ⟨fun h => ?_, fun ha hp => ?_⟩
  · have hnow : ((s.rewaken (lineChans e lam)).chan k).state = .waking := by
      rw [hst]
      rcases h with ⟨h1, h2⟩ | ⟨h1, h2⟩ <;> simp [Chan.rewoken, Chan.lighted, h1, h2]
    rw [hfollow.still (Or.inl (by rw [hnow]; simp)) (by rw [hnow]; simp), hnow]
  · have hnow : (s.chan k).rewoken.lighted = { s.chan k with rewake := true } := by simp [Chan.rewoken, Chan.lighted, ha, hp]
    rw [hnow] at hst hrw
    exact ⟨hfollow.active (hst.trans ha), hfollow.keeps.2.2.2.1.trans hrw⟩

theorem State.chan_unfed (s : State) (e lam k : Nat) : (s.unfed e lam).chan k = s.chan k := rfl

/-- The lines and the channels of a sharing that has ended (R441). -/
theorem State.shareEnded_spec (s : State) (e lam : Nat) :
    ((s.shareEnded e lam).line e lam).fed = false ∧ ((s.shareEnded e lam).line e lam).lost = false ∧
    ((s.shareEnded e lam).line (neighbour e) lam).donor = false ∧
    ∀ k ∈ lineChans e lam,
      (((s.chan k).state = .active ∧ (s.chan k).parking = false) ∨ ((s.chan k).state = .down ∧ (s.chan k).tried = true) →
        ((s.shareEnded e lam).chan k).state = .waking) ∧
      ((s.chan k).state = .active → (s.chan k).parking = true →
        ((s.shareEnded e lam).chan k).state = .active ∧ ((s.shareEnded e lam).chan k).rewake = true) := by
  have hopt := s.optical_shareEnded e lam
  obtain ⟨hline, hdonor⟩ : (s.unfed e lam).line e lam = { s.line e lam with lost := false, fed := false } ∧
    ((s.unfed e lam).line (neighbour e) lam).donor = false := s.unfed_lines e lam
  have hmood := s.mood_shareEnded e lam
  generalize s.shareEnded e lam = u at hopt hmood ⊢
  rw [hopt.line, hopt.line, hline]
  refine ⟨rfl, rfl, hdonor, fun k hk => ?_⟩
  obtain ⟨hstate, hrew⟩ := Chan.of_mood (hmood k)
  have hchan := (s.unfed e lam).unshared_chan hk
  rw [State.chan_unfed, ← hstate, ← hrew] at hchan
  exact hchan

/-- An UNSHARE that its measurement grants (R441). -/
theorem State.planUnshare_granted {part t : Nat} (hf : (s.line (t / 16) (t % 16)).fed = true) :
    let e := t / 16
    let lam := t % 16
    let u := s.planUnshare part t true
    (u.line e lam).fed = false ∧ (u.line e lam).lost = false ∧ (u.line (neighbour e) lam).donor = false ∧
    ∀ k ∈ lineChans e lam,
      (((s.chan k).state = .active ∧ (s.chan k).parking = false) ∨ ((s.chan k).state = .down ∧ (s.chan k).tried = true) →
        (u.chan k).state = .waking) ∧
      ((s.chan k).state = .active → (s.chan k).parking = true → (u.chan k).state = .active ∧ (u.chan k).rewake = true) := by
  dsimp only
  rw [State.planUnshare_eq hf]
  exact s.shareEnded_spec _ _

theorem State.planUnshare_refused (part t : Nat) : s.planUnshare part t false = s.endPlan part 4 := by
  unfold State.planUnshare
  dsimp only
  rw [if_neg (by simp)]

end

theorem exec_planUnshare (s : State) (part target : Nat) (recovered : Bool) : exec (.planUnshare part target recovered) s =
    whenReady s
      (let s1 := if (s.part part).planRun == some (5, target) then s else s.writePlan part (planWord 5 target false)
       if (s1.part part).planRun == some (5, target) then s1.planUnshare part target recovered else s1) := rfl

theorem gives_planUnshare {s : State} {part t : Nat} {ok : Bool} {P : State → Prop} (hp : s.house.phase = 5) (ht : t < 1024)
    (hne : (s.part part).planRun ≠ some (5, t)) (h : let u := (s.planAsked part 5 t false).planGo part 5 t false
      P (if (u.part part).planRun == some (5, t) then u.planUnshare part t ok else u)) : Gives (.planUnshare part t ok) s P := by
  refine gives_whenReady (exec_planUnshare s part t ok) hp ?_
  have hb : ((s.part part).planRun == some (5, t)) = false := by simpa using hne
  dsimp only
  rw [hb, if_neg Bool.false_ne_true, State.writePlan_word (by omega) ht]
  exact h

/-- An UNSHARE that starts is decided by its measurement at once (R441). -/
theorem gives_planUnshare_started {s : State} {part t : Nat} {ok : Bool} {P : State → Prop} (hp : s.house.phase = 5) (ht : t < 1024)
    (hr : (s.part part).planRun = none) (hown : (planPairs 5 t).any (s.ownsPair part) = true)
    (hP : P ((s.planStarted part 5 t false).planUnshare part t ok)) : Gives (.planUnshare part t ok) s P := by
  refine gives_planUnshare hp ht (by rw [hr]; exact (Option.some_ne_none _).symm) ?_
  have hrun : ((s.planStarted part 5 t false).part part).planRun = some (5, t) := by rw [State.planStarted, State.part_modPart]
  dsimp only
  rw [State.planGo_started hr hown]
  show P (if ((s.planStarted part 5 t false).part part).planRun == some (5, t) then _ else _)
  rw [hrun, if_pos (by simp)]
  exact hP

/-- An UNSHARE while another step runs, or of the pairs of others (R444). -/
theorem status_planUnshare {s : State} {part t : Nat} (hp : s.house.phase = 5) (ht : t < 1024)
    (h : ((s.part part).planRun.isSome = true ∧ (s.part part).planRun ≠ some (5, t)) ∨
      ((s.part part).planRun = none ∧ ¬ (planPairs 5 t).any (s.ownsPair part) = true)) :
    Gives (.planUnshare part t true) s (fun u => (u.part part).planStatus = 4) := by
  obtain ⟨hwhile, hforeign, -⟩ := s.planGo_spec part 5 t false
  rcases h with ⟨hr, hne⟩ | ⟨hr, hno⟩
  · refine gives_planUnshare hp ht hne ?_
    have hpart := hwhile hr
    dsimp only
    rw [if_neg (by rw [hpart]; simpa using hne), hpart]
  · refine gives_planUnshare hp ht (by rw [hr]; exact (Option.some_ne_none _).symm) ?_
    have hpart := hforeign hr hno
    dsimp only
    rw [if_neg (by rw [hpart]; simp [Partition.planEnded]), hpart]
    rfl

theorem State.status_endPlan (s : State) (part st : Nat) : ((s.endPlan part st).part part).planStatus = st := by
  rw [State.part_endPlan, if_pos rfl]; rfl

theorem State.fed_share {s : State} {part tgt : Nat} (h : s.canShare (tgt / 16) (tgt % 16) = true) :
    ((s.planShare part tgt).line (tgt / 16) (tgt % 16)).fed = true ∧
    ((s.planShare part tgt).line (neighbour (tgt / 16)) (tgt % 16)).donor = true := by
  unfold State.planShare
  dsimp only
  rw [if_pos h, (State.optical_shareDone _ _).line, (State.optical_shareDone _ _).line]
  exact ⟨s.share_lines.1, s.share_lines.2.1⟩

theorem State.planRetrain_spec {s : State} (part : Nat) {k : Nat} (hf : (s.pair (pairOfLink k)).fab = true)
    (hs : (s.link k).state ≠ .retraining) : ((s.planRetrain part k).link k).state = .retraining ∧
    ∀ n, (s.planRetrain part k).part n = s.part n := by
  obtain ⟨hstate, -, hpart⟩ := State.askRetrain_spec hf hs
  rw [State.planRetrain, if_pos hf]
  exact ⟨hstate, hpart⟩

section
variable {s : State} {part tgt : Nat} (hp : s.house.phase = 5) (ht : tgt < 1024) (hr : (s.part part).planRun = none)

include hp ht hr

/-- A step that starts (R444). -/
theorem gives_plan_started {i : Instr} {cmd : Nat} {ring : Bool} {P : State → Prop} (hc : cmd < 16)
    (hown : (planPairs cmd tgt).any (s.ownsPair part) = true)
    (he : exec i s = whenReady s (s.writePlan part (planWord cmd tgt ring)))
    (hP : P ((s.planStarted part cmd tgt ring).planRuns part cmd tgt ring)) : Gives i s P :=
  gives_plan hp hc ht he (by rw [State.planGo_started hr hown]; exact hP)

theorem gives_planSpare {ring : Bool} (hown : (planPairs 1 tgt).any (s.ownsPair part) = true) (hs : (s.chan tgt).state = .active)
    (hne : (s.chan tgt).spare ≠ ring.toNat + 1) (hu : s.siteUsed (pairOfChan tgt) ring.toNat = false)
    (htune : (s.chan tgt).tuning = none) (hswap : (s.chan tgt).swap = none) : Gives (.planSpare part tgt ring) s (fun t =>
      (t.part part).planStatus = 1 ∧ (t.chan tgt).tuning = some (ring.toNat, true) ∧
      (t.pair (pairOfChan tgt)).spuse.getLsbD ring.toNat = true) := by
  refine gives_plan_started hp ht hr (cmd := 1) (by omega) hown (by rfl) ?_
  obtain ⟨hpart, htun, hsite⟩ := (s.planStarted part 1 tgt ring).planSpare_spec (part := part) (Bool.toNat_lt ring) hs hne hu
    htune hswap
  exact ⟨(congrArg Partition.planStatus (hpart part)).trans (s.part_planStarted _ _ _ _), htun, hsite⟩

theorem gives_planRelease_own (hown : (planPairs 2 tgt).any (s.ownsPair part) = true) (h : (s.chan tgt).spare = 0) :
    Gives (.planRelease part tgt) s (fun t => (t.part part).planStatus = 2) := by
  refine gives_plan_started hp ht hr (cmd := 2) (by omega) hown (by rfl) ?_
  show (State.part (State.planRelease _ _ _) _).planStatus = 2
  rw [State.planRelease_own (by exact h), State.status_endPlan]

theorem gives_planRelease (hown : (planPairs 2 tgt).any (s.ownsPair part) = true) (h : (s.chan tgt).spare ≠ 0)
    (htune : (s.chan tgt).tuning = none) (hswap : (s.chan tgt).swap = none) (hs : (s.chan tgt).state ≠ .active) :
    Gives (.planRelease part tgt) s (fun t => (t.part part).planStatus = 2 ∧ (t.chan tgt).spare = 0) := by
  refine gives_plan_started hp ht hr (cmd := 2) (by omega) hown (by rfl) ?_
  show (State.part (State.planRelease _ _ _) _).planStatus = 2 ∧ (State.chan (State.planRelease _ _ _) _).spare = 0
  rw [State.planRelease_still (by exact h) (by exact htune) (by exact hswap) (by exact hs), State.status_endPlan]
  exact ⟨rfl, State.spare_released _ part tgt⟩

theorem gives_planRetrain (hown : (planPairs 3 tgt).any (s.ownsPair part) = true) (hf : (s.pair (pairOfLink tgt)).fab = true)
    (hs : (s.link tgt).state ≠ .retraining) :
    Gives (.planRetrain part tgt) s (fun t => (t.part part).planStatus = 1 ∧ (t.link tgt).state = .retraining) := by
  refine gives_plan_started hp ht hr (cmd := 3) (by omega) hown (by rfl) ?_
  obtain ⟨hstate, hpart⟩ := State.planRetrain_spec (s := s.planStarted part 3 tgt false) part hf hs
  exact ⟨(congrArg Partition.planStatus (hpart part)).trans (s.part_planStarted _ _ _ _), hstate⟩

theorem gives_planShare (hown : (planPairs 4 tgt).any (s.ownsPair part) = true)
    (hs : s.canShare (tgt / 16) (tgt % 16) = true) : Gives (.planShare part tgt) s (fun t =>
      (t.line (tgt / 16) (tgt % 16)).fed = true ∧ (t.line (neighbour (tgt / 16)) (tgt % 16)).donor = true) :=
  gives_plan_started hp ht hr (cmd := 4) (by omega) hown (by rfl) (State.fed_share (s := s.planStarted part 4 tgt false) hs)

end

/-- Settles O58: the writes, one by one, and the planned steps. -/
theorem opticalWritesAndPlansAct : Obligations.OpticalWritesAndPlansAct := by
  unfold Obligations.OpticalWritesAndPlansAct
  intro s part
  dsimp only
  have hready : s.house.phase = 5 → s.isReady = true := fun h => by simp [State.isReady, h]
  refine ⟨fun hp src k w park peer ring tgt ok => ?_, fun hp => ⟨fun src k w hm => ⟨fun hw hf => ?_, fun h => ?_, fun hf hs => ?_⟩,
    fun src k w hm => ⟨?_, ?_⟩, fun src c park hm => ⟨fun hf => ?_, fun hf => ?_⟩,
    fun src f peer hm => ⟨fun h => ?_, fun h hq => ?_, fun h hq => ?_⟩, fun tgt ht ring => ⟨fun hr => ?_, fun hr => ?_⟩⟩⟩
  · have hno : s.isReady = false := by simp [State.isReady, hp]
    have hoff : ∀ b, (s.isReady && b) = false := fun b => by rw [hno, Bool.false_and]
    exact ⟨gives_refused (by rfl) (hoff _), gives_refused (by rfl) (hoff _), gives_refused (by rfl) (hoff _),
      gives_refused (by rfl) (hoff _), gives_unready (by rfl) hp, gives_unready (by rfl) hp, gives_unready (by rfl) hp,
      gives_unready (by rfl) hp, gives_unready (exec_planUnshare _ _ _ _) hp⟩
  · refine gives_whenever (by rfl) (by rw [hready hp, hm]; rfl) (s.tgtw_of_write ?_ hf)
    rcases hw with rfl | rfl | rfl | rfl <;> simp
  · refine gives_idle (by rfl) ?_
    rw [State.writeTgtw, if_neg]
    rcases h with h | h
    · intro hc
      have hw : w.toNat = 8 ∨ w.toNat = 4 ∨ w.toNat = 2 ∨ w.toNat = 1 := by
        simp only [Bool.and_eq_true, Bool.or_eq_true, beq_iff_eq] at hc
        omega
      exact h (by bv_omega)
    · rw [h, Bool.and_false]; exact Bool.false_ne_true
  · obtain ⟨hstate, hfail, -⟩ := State.askRetrain_spec hf hs
    exact gives_whenever (by rfl) (by rw [hready hp, hm]; rfl) ⟨hstate, hfail⟩
  · exact gives_refused (by rfl) (by rw [hm, Bool.and_false])
  · exact gives_refused (by rfl) (by rw [hm, Bool.and_false])
  · exact gives_idle (by rfl) (by rw [State.writePark, if_pos hf])
  · exact gives_whenever (by rfl) (by rw [hready hp, hm]; rfl) (State.park_of_write park hf)
  · exact gives_whenever (by rfl) (by rw [hready hp, hm]; rfl) ((s.writeFabreq_spec f peer).1 h)
  · exact gives_whenever (by rfl) (by rw [hready hp, hm]; rfl) ((s.writeFabreq_spec f peer).2.1 h hq)
  · exact gives_whenever (by rfl) (by rw [hready hp, hm]; rfl) ((s.writeFabreq_spec f peer).2.2 h hq)
  · exact ⟨gives_plan (cmd := 1) hp (by omega) ht (by rfl) (s.planGo_while hr),
      gives_plan (cmd := 2) hp (by omega) ht (by rfl) (s.planGo_while hr),
      gives_plan (cmd := 3) hp (by omega) ht (by rfl) (s.planGo_while hr),
      gives_plan (cmd := 4) hp (by omega) ht (by rfl) (s.planGo_while hr),
      fun hne => status_planUnshare hp ht (.inl ⟨hr, hne⟩)⟩
  · refine ⟨fun h => ?_, fun h => ?_, fun h => ?_, fun h => ?_, fun h => status_planUnshare hp ht (.inr ⟨hr, h⟩),
      fun hown hs hne hu htune hswap => ?_, fun hown h0 => ?_, fun hown h0 htune hswap hs => ?_, fun hown hf hs => ?_,
      fun hown hs => ?_, fun hown hf => ⟨?_, ?_⟩⟩
    · exact gives_plan (cmd := 1) hp (by omega) ht (by rfl) (s.planGo_foreign hr h)
    · exact gives_plan (cmd := 2) hp (by omega) ht (by rfl) (s.planGo_foreign hr h)
    · exact gives_plan (cmd := 3) hp (by omega) ht (by rfl) (s.planGo_foreign hr h)
    · exact gives_plan (cmd := 4) hp (by omega) ht (by rfl) (s.planGo_foreign hr h)
    · exact gives_planSpare hp ht hr hown hs hne hu htune hswap
    · exact gives_planRelease_own hp ht hr hown h0
    · exact gives_planRelease hp ht hr hown h0 htune hswap hs
    · exact gives_planRetrain hp ht hr hown hf hs
    · exact gives_planShare hp ht hr hown hs
    · exact gives_planUnshare_started hp ht hr hown (State.planUnshare_granted (s := s.planStarted part 5 tgt false) hf)
    · refine gives_planUnshare_started hp ht hr hown ?_
      rw [State.planUnshare_refused, State.status_endPlan]

end Sys2Proof.Machine
end

section
/-! PROOFS. Optical channels and laser lines (R437-R441, R447-R452, R471). -/

namespace Sys2Proof.Machine

section
variable {s t : State}

/-! ### The site that a sparing takes -/

/-- The site that hardware sparing takes (R438, R445). -/
def State.spareSite (s : State) (f : Nat) : Option Nat :=
  ([0, 1] : List Nat).find? (fun n => !s.siteUsed f n || (s.plannedHolder f n).isSome)

/-- The planned step that has claimed a site gives way (R445). -/
def State.vacated (s : State) (f n : Nat) : State := match s.plannedHolder f n with
  | some d => s.giveWay d
  | none => s

theorem State.takeSite_none {c : Nat} (h : s.spareSite (pairOfChan c) = none) : s.takeSite c = s := by
  unfold State.spareSite at h
  unfold State.takeSite
  dsimp only
  rw [h]

theorem State.takeSite_some {c n : Nat} (h : s.spareSite (pairOfChan c) = some n) :
    s.takeSite c = ((s.vacated (pairOfChan c) n).giveWay c).claimSite c n false := by
  unfold State.spareSite at h
  unfold State.takeSite
  dsimp only
  rw [h]
  rfl

theorem State.spareSite_first {f : Nat} (h : s.siteUsed f 0 = false ∨ (s.plannedHolder f 0).isSome = true) : s.spareSite f = some 0 := by
  have : (!s.siteUsed f 0 || (s.plannedHolder f 0).isSome) = true := by rcases h with h | h <;> simp [h]
  rw [State.spareSite, List.find?_cons, this]

theorem State.spareSite_second {f : Nat} (h0 : s.siteUsed f 0 = true) (hp : s.plannedHolder f 0 = none)
    (h : s.siteUsed f 1 = false ∨ (s.plannedHolder f 1).isSome = true) : s.spareSite f = some 1 := by
  have h1 : (!s.siteUsed f 1 || (s.plannedHolder f 1).isSome) = true := by rcases h with h | h <;> simp [h]
  have h2 : (!s.siteUsed f 0 || (s.plannedHolder f 0).isSome) = false := by simp [h0, hp]
  rw [State.spareSite, List.find?_cons, h2]
  dsimp only
  rw [List.find?_cons, h1]

theorem State.spareSite_none {f : Nat} (h0 : s.siteUsed f 0 = true) (h1 : s.siteUsed f 1 = true) (hp0 : s.plannedHolder f 0 = none)
    (hp1 : s.plannedHolder f 1 = none) : s.spareSite f = none := by
  simp [State.spareSite, List.find?, h0, h1, hp0, hp1]

theorem State.spareSite_lt {f n : Nat} (h : s.spareSite f = some n) : n < 2 := by
  have := List.mem_of_find?_eq_some h
  simp only [List.mem_cons, List.not_mem_nil, or_false] at this
  omega

/-- The channel that a planned step has claimed a site for. -/
theorem State.tuning_of_planned {f n d : Nat} (h : s.plannedHolder f n = some d) : (s.chan d).tuning = some (n, true) := by
  have := List.find?_some h
  simpa using this

theorem State.planned_of_tuning {c n : Nat} (h : (s.chan c).tuning = some (n, true)) :
    (s.plannedHolder (pairOfChan c) n).isSome = true := by
  rw [State.plannedHolder, List.find?_isSome]
  refine ⟨c, List.mem_map.mpr ⟨c % 16, List.mem_range.mpr (Nat.mod_lt _ (by omega)), Nat.div_add_mod c 16⟩, by simp [h]⟩

/-- What a channel that takes a site keeps. -/
def Chan.Claims (x y : Chan) : Prop := y = { x with tuning := y.tuning, swap := y.swap }

/-- Steps that give way leave every channel but for its claim. -/
theorem State.giveWay_claims (s : State) (c d : Nat) : (s.chan d).Claims ((s.giveWay c).chan d) := by
  obtain ⟨-, hother, hstill, hfree⟩ := s.giveWay_spec c
  by_cases hd : d = c
  · subst hd
    cases h : (s.chan d).tuning.any Prod.snd with
    | false => rw [hstill h]; rfl
    | true => rw [(hfree h).1]; rfl
  · rw [hother d hd, Chan.Claims]

theorem Chan.Claims.trans {x y z : Chan} (h : x.Claims y) (h' : y.Claims z) : x.Claims z := by
  unfold Chan.Claims at *
  rw [h', h]

/-- The step on a channel that gives way ends with status 3; none that had ended so is touched. -/
theorem State.giveWay_planEnded {c n : Nat} (hn : n < 16) {r : Nat × Nat} (hr : (s.part n).planRun = some r) {d : Nat}
    (hd : movesChan d r = true) (h : (d = c ∧ (s.chan c).tuning.any Prod.snd = true)) :
    (s.giveWay c).part n = (s.part n).planEnded 3 := by
  obtain ⟨rfl, hpl⟩ := h
  have hplans : (s.part n).plans (movesChan d) = true := by rw [Partition.plans, hr]; exact hd
  rw [((s.giveWay_spec d).2.2.2 hpl).2 n, if_pos ⟨hn, hplans⟩]

theorem State.giveWay_part (s : State) (c n : Nat) : (s.giveWay c).part n = s.part n ∨ (s.giveWay c).part n = (s.part n).planEnded 3 := by
  obtain ⟨-, -, hstill, hfree⟩ := s.giveWay_spec c
  cases h : (s.chan c).tuning.any Prod.snd with
  | false => rw [hstill h]; exact .inl rfl
  | true =>
    rw [(hfree h).2 n]
    split
    · exact .inr rfl
    · exact .inl rfl

/-- A sparing that finds its site (R438, R445). -/
theorem State.takeSite_spec {c n : Nat} (h : s.spareSite (pairOfChan c) = some n) :
    s.Optical (s.takeSite c) ∧ (s.chan c).Claims ((s.takeSite c).chan c) ∧ ((s.takeSite c).chan c).tuning = some (n, false) ∧
    ((s.takeSite c).pair (pairOfChan c)).spuse.getLsbD n = true ∧
    (∀ d, d ≠ c → s.plannedHolder (pairOfChan c) n = some d → ((s.takeSite c).chan d).tuning = none) ∧
    ∀ d, s.plannedHolder (pairOfChan c) n = some d ∨ (d = c ∧ (s.chan c).tuning.any Prod.snd = true) →
      ∀ m < 16, ∀ r, (s.part m).planRun = some r → movesChan d r = true → ((s.takeSite c).part m).planStatus = 3 := by
  have hn := State.spareSite_lt h
  obtain ⟨hclaimO, hclaimC, hclaimP, hclaimS⟩ := ((s.vacated (pairOfChan c) n).giveWay c).claimSite_spec c n false
  have hvac : s.Optical (s.vacated (pairOfChan c) n) ∧ (s.chan c).Claims ((s.vacated (pairOfChan c) n).chan c) := by
    unfold State.vacated
    split
    · exact ⟨(s.giveWay_spec _).1, s.giveWay_claims _ _⟩
    · exact ⟨.refl s, rfl⟩
  rw [State.takeSite_some h]
  refine ⟨(hvac.1.trans (State.giveWay_spec _ c).1).trans hclaimO, ?_, ?_, ?_, fun d hd hh => ?_, fun d hd m hm r hr hmv => ?_⟩
  · refine hvac.2.trans (Chan.Claims.trans (State.giveWay_claims _ c c) ?_)
    rw [hclaimC, if_pos rfl]
    rfl
  · rw [hclaimC, if_pos rfl]
  · rw [hclaimS hn]
    exact getLsbD_or_two_pow _ hn
  · have htun : (s.chan d).tuning.any Prod.snd = true := by rw [State.tuning_of_planned hh]; rfl
    rw [hclaimC, if_neg hd, (State.giveWay_spec _ c).2.1 d hd, State.vacated, hh]
    show ((s.giveWay d).chan d).tuning = none
    rw [((s.giveWay_spec d).2.2.2 htun).1]
  · rw [hclaimP]
    have hended : (s.vacated (pairOfChan c) n).part m = (s.part m).planEnded 3 ∨
        ((s.vacated (pairOfChan c) n).part m = s.part m ∧ d = c ∧ ((s.vacated (pairOfChan c) n).chan c).tuning.any Prod.snd = true) := by
      cases hp : s.plannedHolder (pairOfChan c) n with
      | none =>
        rw [State.vacated, hp]
        rcases hd with hd | ⟨hd, ht⟩
        · rw [hp] at hd; cases hd
        · exact .inr ⟨rfl, hd, ht⟩
      | some e =>
        have hv : s.vacated (pairOfChan c) n = s.giveWay e := by rw [State.vacated, hp]
        rw [hv]
        by_cases hde : d = e
        · have ht : (s.chan e).tuning.any Prod.snd = true := by rw [State.tuning_of_planned hp]; rfl
          exact .inl (State.giveWay_planEnded hm hr hmv ⟨hde, ht⟩)
        · rcases hd with hd | ⟨rfl, ht⟩
          · rw [hp] at hd; cases hd; exact absurd rfl hde
          · rcases s.giveWay_part e m with h' | h'
            · exact .inr ⟨h', rfl, by rw [(s.giveWay_spec e).2.1 d hde]; exact ht⟩
            · exact .inl h'
    rcases hended with he | ⟨hs, rfl, ht⟩
    · rcases State.giveWay_part (s.vacated (pairOfChan c) n) c m with hp | hp <;> rw [hp, he] <;> rfl
    · rw [State.giveWay_planEnded hm (by rw [hs]; exact hr) hmv ⟨rfl, ht⟩]; rfl

/-! ### Samples (R437) -/

theorem State.plannedHolder_congr {f n : Nat} (h : ∀ d, (t.chan d).tuning = (s.chan d).tuning) :
    t.plannedHolder f n = s.plannedHolder f n := by
  unfold State.plannedHolder
  simp only [h]

theorem State.siteUsed_eq (s : State) (f n : Nat) : s.siteUsed f n = (s.pair f).spuse.getLsbD n := rfl

theorem State.spareSite_congr {f : Nat} (h : ∀ d, (t.chan d).tuning = (s.chan d).tuning) (hp : t.pairs = s.pairs) :
    t.spareSite f = s.spareSite f := by
  have hu : ∀ n, t.siteUsed f n = s.siteUsed f n := fun n => congrArg (fun ps => (Tbl.get Pair.reset ps f).spuse.getLsbD n) hp
  unfold State.spareSite
  simp only [hu, State.plannedHolder_congr h]

/-- A sample shows. -/
def Chan.sampled (x : Chan) (cer : BitVec 16) (margin : BitVec 8) (bad : Bool) : Chan :=
  { x with cer := cer, margin := margin, weak := x.weak || bad }

/-- The sample of a channel is bad. -/
def State.badSample (s : State) (cer : BitVec 16) (margin : BitVec 8) : Bool :=
  decide (s.weakCer.toNat < cer.toNat) || decide (margin.toNat < s.weakMrg.toNat)

theorem State.badSample_iff (s : State) (cer : BitVec 16) (margin : BitVec 8) :
    s.badSample cer margin = true ↔ (s.weakCer.toNat < cer.toNat ∨ margin.toNat < s.weakMrg.toNat) := by
  simp [State.badSample]

/-- A channel sampled, before any sparing. -/
def State.noted (s : State) (c : Nat) (cer : BitVec 16) (margin : BitVec 8) : State :=
  s.putChan c ((s.chan c).sampled cer margin (s.badSample cer margin))

/-- A channel sampled, as its sparing begins. -/
def State.alarmed (s : State) (c : Nat) (cer : BitVec 16) (margin : BitVec 8) : State :=
  (s.noted c cer margin).modChan c (fun x => { x with owes := false })

theorem State.assistedPair_noted (s : State) (c : Nat) (cer : BitVec 16) (margin : BitVec 8) (f n : Nat) :
    (s.noted c cer margin).assistedPair f n = s.assistedPair f n := rfl

theorem State.sample_eq (s : State) (c : Nat) (cer : BitVec 16) (margin : BitVec 8) (ha : (s.chan c).state = .active) :
    s.sample (c, cer, margin) =
      if s.assistedPair (pairOfChan c) 1 = true then
        (if (s.badSample cer margin && !(s.chan c).weak) = true then (s.noted c cer margin).setEvt (pairOfChan c) else s.noted c cer margin)
      else if (s.badSample cer margin && (!(s.chan c).weak || (s.chan c).owes)) = true then (s.noted c cer margin).spareNow c
      else s.noted c cer margin := by
  unfold State.sample
  dsimp only
  rw [if_neg (by simp [ha])]
  rfl

theorem Chan.sparing_of_tuning {x : Chan} {m : Nat} (h : x.tuning = some (m, false)) : x.sparing = true := by rw [Chan.sparing, h]

theorem Chan.sparing_not {x : Chan} (h : x.tuning = none ∨ ∃ m, x.tuning = some (m, true)) : x.sparing = false := by
  rcases h with h | ⟨m, h⟩ <;> rw [Chan.sparing, h]

theorem State.chan_noted (s : State) (c : Nat) (cer : BitVec 16) (margin : BitVec 8) :
    (s.noted c cer margin).chan c = (s.chan c).sampled cer margin (s.badSample cer margin) := by
  rw [State.noted, State.chan_putChan, if_pos rfl]

theorem State.tuning_noted (s : State) (c d : Nat) (cer : BitVec 16) (margin : BitVec 8) :
    ((s.noted c cer margin).chan d).tuning = (s.chan d).tuning := by
  rw [State.noted, State.chan_putChan]
  split
  · next h => rw [h]; rfl
  · rfl

theorem State.tuning_alarmed (s : State) (c d : Nat) (cer : BitVec 16) (margin : BitVec 8) :
    ((s.alarmed c cer margin).chan d).tuning = (s.chan d).tuning := by
  rw [State.alarmed, State.chan_modChan]
  split
  · next h => rw [h]; exact s.tuning_noted c c cer margin
  · exact s.tuning_noted c d cer margin

/-- What every sample of an ACTIVE channel leaves of it. -/
theorem State.sample_claims {c : Nat} (cer : BitVec 16) (margin : BitVec 8) (ha : (s.chan c).state = .active) :
    ((s.sample (c, cer, margin)).chan c).cer = cer ∧ ((s.sample (c, cer, margin)).chan c).margin = margin ∧
    ((s.sample (c, cer, margin)).chan c).weak = ((s.chan c).weak || s.badSample cer margin) ∧
    ((s.sample (c, cer, margin)).chan c).state = .active := by
  have hclaims : ∃ o, ({ (s.chan c).sampled cer margin (s.badSample cer margin) with owes := o } : Chan).Claims
      ((s.sample (c, cer, margin)).chan c) := by
    have hnoted : ({ (s.chan c).sampled cer margin (s.badSample cer margin) with owes := (s.chan c).owes } : Chan).Claims
        ((s.noted c cer margin).chan c) := by rw [s.chan_noted]; rfl
    rw [s.sample_eq c cer margin ha]
    split_ifs
    · exact ⟨_, by rw [State.chan_setEvt]; exact hnoted⟩
    · exact ⟨_, hnoted⟩
    · rw [State.spareNow]
      split
      · exact ⟨_, hnoted⟩
      · refine ⟨false, ?_⟩
        have halarm : ((s.alarmed c cer margin).chan c) = { (s.chan c).sampled cer margin (s.badSample cer margin) with owes := false } := by
          rw [State.alarmed, State.chan_modChan, if_pos rfl, s.chan_noted]
        rw [← halarm]
        show Chan.Claims _ (((s.alarmed c cer margin).takeSite c).chan c)
        cases hs : (s.alarmed c cer margin).spareSite (pairOfChan c) with
        | none => rw [State.takeSite_none hs]; rfl
        | some n => exact (State.takeSite_spec hs).2.1
    · exact ⟨_, hnoted⟩
  obtain ⟨o, h⟩ := hclaims
  rw [h]
  exact ⟨rfl, rfl, rfl, ha⟩

/-- A sample that starts no sparing. -/
theorem State.sample_idle {c : Nat} {cer : BitVec 16} {margin : BitVec 8} (ha : (s.chan c).state = .active)
    (h : s.badSample cer margin = false ∨ ((s.chan c).weak = true ∧ (s.chan c).owes = false) ∨ s.assistedPair (pairOfChan c) 1 = true ∨
      (s.chan c).sparing = true) :
    ((s.sample (c, cer, margin)).chan c).tuning = (s.chan c).tuning ∧ ((s.sample (c, cer, margin)).chan c).swap = (s.chan c).swap ∧
    ((s.sample (c, cer, margin)).pair (pairOfChan c)).spuse = (s.pair (pairOfChan c)).spuse := by
  have hnoted : ((s.noted c cer margin).chan c).tuning = (s.chan c).tuning ∧ ((s.noted c cer margin).chan c).swap = (s.chan c).swap ∧
      ((s.noted c cer margin).pair (pairOfChan c)).spuse = (s.pair (pairOfChan c)).spuse := by
    rw [s.chan_noted]; exact ⟨rfl, rfl, rfl⟩
  rw [s.sample_eq c cer margin ha]
  split_ifs with h1 h2 h2
  · rw [State.chan_setEvt, State.pair_setEvt, if_pos rfl]
    exact hnoted
  · exact hnoted
  · have hsp : ((s.noted c cer margin).chan c).sparing = true := by
      rw [s.chan_noted]
      rcases h with h | ⟨h, h'⟩ | h | h
      · rw [h] at h2; cases h2
      · rw [h, h'] at h2; simp at h2
      · exact absurd h h1
      · exact h
    rw [State.spareNow, if_pos hsp]
    exact hnoted
  · exact hnoted

/-- A sample that starts a sparing. -/
theorem State.sample_spares {c : Nat} {cer : BitVec 16} {margin : BitVec 8} (ha : (s.chan c).state = .active)
    (hb : s.badSample cer margin = true) (hw : (s.chan c).weak = false ∨ (s.chan c).owes = true)
    (has : s.assistedPair (pairOfChan c) 1 = false) (ht : (s.chan c).tuning = none ∨ ∃ m, (s.chan c).tuning = some (m, true)) :
    s.sample (c, cer, margin) = (s.alarmed c cer margin).takeSite c := by
  have hsp : ((s.noted c cer margin).chan c).sparing = false := by rw [s.chan_noted]; exact Chan.sparing_not ht
  have hcond : (s.badSample cer margin && (!(s.chan c).weak || (s.chan c).owes)) = true := by
    rcases hw with h | h <;> simp [hb, h]
  rw [s.sample_eq c cer margin ha, has, if_neg Bool.false_ne_true, if_pos hcond, State.spareNow, hsp, if_neg Bool.false_ne_true]
  rfl

/-- The sparing that a sample starts (R438, R445). -/
theorem State.sample_takes {c n : Nat} {cer : BitVec 16} {margin : BitVec 8} (ha : (s.chan c).state = .active)
    (hb : s.badSample cer margin = true) (hw : (s.chan c).weak = false ∨ (s.chan c).owes = true)
    (has : s.assistedPair (pairOfChan c) 1 = false) (ht : (s.chan c).tuning = none ∨ ∃ m, (s.chan c).tuning = some (m, true))
    (hn : s.spareSite (pairOfChan c) = some n) :
    ((s.sample (c, cer, margin)).chan c).tuning = some (n, false) ∧
    ((s.sample (c, cer, margin)).pair (pairOfChan c)).spuse.getLsbD n = true ∧
    (∀ d, d ≠ c → s.plannedHolder (pairOfChan c) n = some d → ((s.sample (c, cer, margin)).chan d).tuning = none) ∧
    ∀ d, s.plannedHolder (pairOfChan c) n = some d ∨ (d = c ∧ (s.chan c).tuning.any Prod.snd = true) → ∀ m < 16, ∀ r,
      (s.part m).planRun = some r → movesChan d r = true → ((s.sample (c, cer, margin)).part m).planStatus = 3 := by
  have htun : ∀ d, ((s.alarmed c cer margin).chan d).tuning = (s.chan d).tuning := fun d => s.tuning_alarmed c d cer margin
  have hsite : (s.alarmed c cer margin).spareSite (pairOfChan c) = some n := (State.spareSite_congr htun rfl).trans hn
  have hholder : ∀ m, (s.alarmed c cer margin).plannedHolder (pairOfChan c) m = s.plannedHolder (pairOfChan c) m :=
    fun m => State.plannedHolder_congr htun
  obtain ⟨-, -, h1, h2, h3, h4⟩ := State.takeSite_spec hsite
  rw [State.sample_spares ha hb hw has ht]
  simp only [hholder, htun] at h3 h4
  exact ⟨h1, h2, h3, h4⟩

/-! ### Rings and wakes (R438, R443, R450) -/

/-- The state in which a channel comes up. -/
def State.wokenState (s : State) : ChanState := if s.house.cur = 1 ∧ s.house.ramping = false then .parked else .active

/-- A channel that has woken, held in PS1 or not. -/
def Chan.cameUp (held : Bool) (x : Chan) : Chan := { x with state := if held then .parked else .active, ps1 := held }

theorem State.comeUp_eq (s : State) (c : Nat) :
    s.comeUp c = ((s.modChan c (Chan.cameUp (s.house.cur == 1 && !s.house.ramping))).settleChan c).shareDone c := rfl

/-- A channel that changes and then follows its link. -/
theorem State.follows_settled (s : State) (c : Nat) (f : Chan → Chan) : (f (s.chan c)).Follows (((s.modChan c f).settleChan c).chan c) := by
  have h := (State.settles_settleChan (s.modChan c f) c).chan c
  rw [State.chan_modChan, if_pos rfl] at h
  exact h

theorem State.comeUp_spec (s : State) (c : Nat) : ((s.comeUp c).chan c).state = s.wokenState ∧
    ((s.comeUp c).chan c).spare = (s.chan c).spare := by
  have hfollow := s.follows_settled c (Chan.cameUp (s.house.cur == 1 && !s.house.ramping))
  rw [State.comeUp_eq, State.chan_shareDone]
  refine ⟨?_, hfollow.keeps.2.1⟩
  by_cases hh : s.house.cur = 1 ∧ s.house.ramping = false
  · have hheld : (s.house.cur == 1 && !s.house.ramping) = true := by simp [hh]
    rw [hheld] at hfollow ⊢
    rw [State.wokenState, if_pos hh, hfollow.still (.inr rfl) (by simp [Chan.cameUp])]
    rfl
  · have hheld : (s.house.cur == 1 && !s.house.ramping) = false := by simpa using hh
    rw [hheld] at hfollow ⊢
    rw [State.wokenState, if_neg hh, hfollow.active rfl]

theorem State.wakeFail_spec (s : State) (c : Nat) : ((s.wakeFail c).chan c).state = .down ∧ ((s.wakeFail c).chan c).wfail = true := by
  have hdown := (s.chanDown_spec c).2.2.1
  have hfollow := (s.chanDown c).follows_settled c (fun x => { x with wfail := true })
  unfold State.wakeFail
  generalize s.chanDown c = v at hdown hfollow ⊢
  have hst : ({ v.chan c with wfail := true } : Chan).state = .down := hdown
  rw [hfollow.still (.inl (by rw [hst]; simp)) (by rw [hst]; simp)]
  exact ⟨hdown, rfl⟩

/-- A ring that locks while its channel wakes (R450). -/
theorem State.ringLock_waking {c site : Nat} {planned : Bool} (ht : (s.chan c).tuning = some (site, planned))
    (hs : (s.chan c).state = .waking) : s.ringLock c true = (s.switchRing c site).comeUp c ∧ s.ringLock c false = s.wakeFail c := by
  have hw : ((s.chan c).state == .waking) = true := by rw [hs]; rfl
  unfold State.ringLock
  dsimp only
  rw [ht]
  dsimp only
  rw [if_pos hw, if_pos hw, if_pos rfl, if_neg Bool.false_ne_true]
  exact ⟨rfl, rfl⟩

theorem State.ringLock_still {c site : Nat} {planned : Bool} (ht : (s.chan c).tuning = some (site, planned))
    (hs : (s.chan c).state ≠ .waking) : s.ringLock c true =
      (if (s.linkOf c < 128 && (s.link (s.linkOf c)).carries) = true then s.putChan c { s.chan c with swap := some site }
      else s.remapDone c site) ∧
    s.ringLock c false = (if planned = true then (s.dropSite c).endPlans (movesChan c) 5 else s.dropSite c) := by
  have hw : ((s.chan c).state == .waking) = false := by simpa using hs
  unfold State.ringLock
  dsimp only
  rw [ht]
  dsimp only
  rw [hw, if_pos rfl, if_neg Bool.false_ne_true, if_neg Bool.false_ne_true, if_neg Bool.false_ne_true]
  exact ⟨rfl, rfl⟩

theorem State.remapDone_spec (s : State) (c site : Nat) :
    (s.remapDone c site).chan c = { s.chan c with spare := if site < 2 then site + 1 else 0, swap := none, tuning := none } := by
  rw [State.remapDone, State.chan_endPlans, (s.switchRing_spec c site).2.1, if_pos rfl]

theorem State.ringLock_lost {c site : Nat} {planned : Bool} (ht : (s.chan c).tuning = some (site, planned))
    (hs : (s.chan c).state ≠ .waking) : (s.ringLock c false).chan c = { s.chan c with tuning := none, swap := none } := by
  have hdrop : (s.dropSite c).chan c = { s.chan c with tuning := none, swap := none } := by
    rw [State.chan_dropSite, if_pos rfl, Chan.freed_some (by rw [ht]; rfl)]
  rw [(State.ringLock_still ht hs).2]
  split
  · rw [State.chan_endPlans, hdrop]
  · exact hdrop

theorem State.wakeHeld_iff (s : State) (c : Nat) : s.wakeHeld c = true ↔
    (s.chan c).state = .waking ∧ ((s.link (s.linkOf c)).state = .retraining ∨ s.asleep = true) := by
  simp [State.wakeHeld]

/-- The end of a wake (R450). -/
theorem State.wakeEnd_locked (s : State) (c : Nat) : s.wakeEnd c true = s.comeUp c := by
  unfold State.wakeEnd
  dsimp only
  rw [if_pos rfl]

theorem State.wakeEnd_spared {c n : Nat} (has : s.assistedPair (pairOfChan c) 1 = false) (hn : s.spareSite (pairOfChan c) = some n) :
    s.wakeEnd c false = s.takeSite c := by
  unfold State.wakeEnd
  dsimp only
  rw [has, if_neg Bool.false_ne_true, if_neg Bool.false_ne_true, if_pos]
  rw [(State.takeSite_spec hn).2.2.1]
  rfl

theorem State.wakeEnd_failed {c : Nat} (ht : (s.chan c).tuning = none)
    (h : s.assistedPair (pairOfChan c) 1 = true ∨ s.spareSite (pairOfChan c) = none) : s.wakeEnd c false = s.wakeFail c := by
  have hs1 : (if s.assistedPair (pairOfChan c) 1 then s else s.takeSite c) = s := by
    split
    · rfl
    · next hno =>
      rcases h with h | h
      · exact absurd h hno
      · exact State.takeSite_none h
  unfold State.wakeEnd
  rw [hs1]
  dsimp only
  rw [if_neg Bool.false_ne_true, ht, if_neg (by simp)]

/-- A channel whose parking ends (R447). -/
def Chan.parkEnded (x : Chan) : Chan := { x with state := if x.rewake then .waking else .parked, parking := false, rewake := false }

/-- Parking ends (R447). -/
theorem State.parkEnd_spec (s : State) (c : Nat) :
    let t := ((s.breakOff c).modChan c (fun x =>
      { x with state := if x.rewake then .waking else .parked, parking := false, rewake := false })).settleChan c
    (t.chan c).parking = false ∧ ((t.chan c).state = .parked ∨ (t.chan c).state = .waking) ∧
      ((s.chan c).rewake = true → (t.chan c).state = .waking) := by
  intro t
  have hrew := (s.breakOff_spec c).2.2.2.2.1
  have hfollow := (s.breakOff c).follows_settled c Chan.parkEnded
  have ht : t = ((s.breakOff c).modChan c Chan.parkEnded).settleChan c := rfl
  rw [ht]
  clear ht t
  generalize s.breakOff c = v at hrew hfollow ⊢
  generalize ((v.modChan c Chan.parkEnded).settleChan c).chan c = y at hfollow ⊢
  generalize hx : (v.chan c).parkEnded = x at hfollow
  have hst : x.state = if (s.chan c).rewake then .waking else .parked := by rw [← hx, ← hrew]; rfl
  have hpk : x.parking = false := by rw [← hx]; rfl
  rcases hfollow with h | ⟨hs, -, h⟩ | ⟨hs, -, -⟩
  · rw [h, hst]
    refine ⟨hpk, ?_, fun hr => if_pos hr⟩
    split <;> simp
  · rw [h]
    exact ⟨hpk, .inr rfl, fun _ => rfl⟩
  · rw [hst] at hs
    split at hs <;> cases hs

/-! ### Laser lines (R439-R441) -/

theorem State.chanDowns_spec (s : State) (cs : List Nat) : s.Optical (cs.foldl State.chanDown s) ∧
    ∀ k, ((cs.foldl State.chanDown s).chan k).tried = (s.chan k).tried ∧
      (k ∈ cs → ((cs.foldl State.chanDown s).chan k).state = .down) := by
  induction cs generalizing s with
  | nil => exact ⟨.refl s, fun k => ⟨rfl, fun h => nomatch h⟩⟩
  | cons c cs ih =>
    obtain ⟨hopt, hother, hdown, htried⟩ := s.chanDown_spec c
    obtain ⟨ihopt, ihk⟩ := ih (s.chanDown c)
    rw [List.foldl_cons]
    refine ⟨hopt.trans ihopt, fun k => ⟨(ihk k).1.trans ?_, fun hk => ?_⟩⟩
    · by_cases hkc : k = c
      · rw [hkc, htried]
      · rw [hother k hkc]
    · by_cases hmem : k ∈ cs
      · exact (ihk k).2 hmem
      · have hkc : k = c := by simpa [hmem] using hk
        subst hkc
        have hkeep : ∀ (l : List Nat) (v : State), k ∉ l → (l.foldl State.chanDown v).chan k = v.chan k := by
          intro l
          induction l with
          | nil => exact fun v _ => rfl
          | cons a l ih' =>
            intro v hk'
            have ⟨h1, h2⟩ : k ≠ a ∧ k ∉ l := by simpa using hk'
            rw [List.foldl_cons, ih' _ h2, (v.chanDown_spec a).2.1 k h1]
        rw [hkeep cs _ hmem]
        exact hdown

theorem State.optical_setDarkEvt (s : State) (cs : List Nat) : s.Optical (s.setDarkEvt cs) ∧ ∀ k, (s.setDarkEvt cs).chan k = s.chan k := by
  refine List.foldlRecOn cs _ (motive := fun v : State => s.Optical v ∧ ∀ k, v.chan k = s.chan k) ⟨.refl s, fun _ => rfl⟩ (fun v hv c _ => ?_)
  split
  · exact ⟨hv.1.trans (v.optical_setEvt _), fun k => (State.chan_setEvt _ _ _).trans (hv.2 k)⟩
  · exact hv

theorem State.Optical.owners (h : s.Optical t) (e : Nat) : t.failsOver e = s.failsOver e := by
  unfold State.failsOver State.lineOwners
  simp only [h.owner, h.modes]

/-- The lines as one is lost. -/
def State.lineGone (s : State) (e lam : Nat) : State :=
  (s.setDonor e lam false).putLine e lam { s.line e lam with lost := true, donor := false }

/-- The channels as a line is lost. -/
def State.lineDark (s : State) (e lam : Nat) : State :=
  ((lineChans e lam).foldl State.chanDown (s.lineGone e lam)).settleChans (lineChans e lam)

theorem State.loseLine_eq {e lam : Nat} (hd : (s.line e lam).donor = false) : s.loseLine e lam =
    if (s.lineDark e lam).canShare e lam = false then (s.lineDark e lam).setDarkEvt (lineChans e lam ++ lineChans (neighbour e) lam)
    else if (s.lineDark e lam).failsOver e = true then (s.lineDark e lam).share e lam else s.lineDark e lam := by
  unfold State.loseLine
  dsimp only
  rw [hd]
  simp only [Bool.false_eq_true, if_false, List.append_nil, Bool.not_eq_true']
  rfl

theorem State.lineDark_spec (s : State) (e lam : Nat) : (s.lineGone e lam).Optical (s.lineDark e lam) ∧
    ∀ k ∈ lineChans e lam, ((s.lineDark e lam).chan k).state = .down ∧ ((s.lineDark e lam).chan k).tried = (s.chan k).tried := by
  obtain ⟨hopt, hk⟩ := (s.lineGone e lam).chanDowns_spec (lineChans e lam)
  have hset := State.settles_settleChans ((lineChans e lam).foldl State.chanDown (s.lineGone e lam)) (lineChans e lam)
  refine ⟨hopt.trans hset.optical, fun k hmem => ?_⟩
  have hdown := (hk k).2 hmem
  have hstill := (hset.chan k).still (.inl (by rw [hdown]; simp)) (by rw [hdown]; simp)
  rw [State.lineDark, hstill]
  exact ⟨hdown, (hk k).1⟩

theorem State.lineGone_lines (s : State) (e lam : Nat) : (s.lineGone e lam).line e lam = { s.line e lam with lost := true, donor := false } ∧
    (s.lineGone e lam).line (neighbour e) lam = s.line (neighbour e) lam := by
  have hne : 16 * neighbour e + lam ≠ 16 * e + lam := fun h => neighbour_ne e (by omega)
  rw [State.lineGone, State.line_putLine, State.line_putLine_other _ hne, State.line_setDonor_other _ hne]
  exact ⟨rfl, rfl⟩

/-- The channels of a line that its neighbour feeds (R440). -/
theorem State.share_chan (s : State) {e lam k : Nat} (hk : k ∈ lineChans e lam) (hd : (s.chan k).state = .down) :
    ((s.share e lam).chan k).state = if (s.chan k).tried = true then .waking else .down := by
  have hmood : ((s.share e lam).chan k).mood = (s.chan k).lighted.mood := by
    unfold State.share
    dsimp only
    rw [State.mood_shiftMargin]
    refine (State.mood_fold (fun acc c => acc.modChan c Chan.lighted) Chan.lighted (fun v c d hd => ?_) (fun v c => ?_)
      (fun _ _ h => Chan.mood_lighted_congr h) Chan.mood_lighted_twice (lineChans e lam) _ k).trans (if_pos hk)
    · rw [State.chan_modChan, if_neg hd]
    · rw [State.chan_modChan, if_pos rfl]
  rw [(Chan.of_mood hmood).1, Chan.lighted]
  cases (s.chan k).tried <;> simp [hd]

/-- The neighbour's line takes over (R440). -/
def State.lineShares (s : State) (e lam : Nat) : Prop :=
  (s.line (neighbour e) lam).lost = false ∧ (s.line (neighbour e) lam).donor = false ∧ (s.line e lam).fed = false ∧ s.failsOver e = true

theorem State.line_lineDark (s : State) (e lam : Nat) :
    (s.lineDark e lam).line e lam = { s.line e lam with lost := true, donor := false } ∧
    (s.lineDark e lam).line (neighbour e) lam = s.line (neighbour e) lam := by
  have hopt := (s.lineDark_spec e lam).1
  obtain ⟨hown, hnb⟩ := s.lineGone_lines e lam
  exact ⟨(hopt.line e lam).trans hown, (hopt.line _ lam).trans hnb⟩

theorem State.lineShares_iff (s : State) (e lam : Nat) :
    s.lineShares e lam ↔ (s.lineDark e lam).canShare e lam = true ∧ (s.lineDark e lam).failsOver e = true := by
  have hgone : (s.lineGone e lam).failsOver e = s.failsOver e := by
    unfold State.failsOver State.lineOwners
    rfl
  have hfails : (s.lineDark e lam).failsOver e = s.failsOver e := ((s.lineDark_spec e lam).1.owners e).trans hgone
  obtain ⟨hown, hnb⟩ := s.line_lineDark e lam
  unfold State.canShare State.lineShares
  rw [hown, hnb, hfails]
  simp only [Bool.and_eq_true, Bool.not_eq_true', true_and]
  exact ⟨fun ⟨h1, h2, h3, h4⟩ => ⟨⟨⟨h3, h1⟩, h2⟩, h4⟩, fun ⟨⟨⟨h3, h1⟩, h2⟩, h4⟩ => ⟨h1, h2, h3, h4⟩⟩

/-- A line is lost, and its neighbour's feeds both engines (R440). -/
theorem State.loseLine_shares {e lam : Nat} (hd : (s.line e lam).donor = false) (hs : s.lineShares e lam) :
    s.loseLine e lam = (s.lineDark e lam).share e lam := by
  obtain ⟨h1, h2⟩ := (s.lineShares_iff e lam).mp hs
  rw [s.loseLine_eq hd, if_neg (by rw [h1]; simp), if_pos h2]

/-- A line is lost, and nothing takes over (R439, R441). -/
theorem State.loseLine_dark {e lam : Nat} (hd : (s.line e lam).donor = false) (hs : ¬ s.lineShares e lam) :
    (s.loseLine e lam).line e lam = (s.lineDark e lam).line e lam ∧ ∀ k, (s.loseLine e lam).chan k = (s.lineDark e lam).chan k := by
  rw [s.lineShares_iff] at hs
  rw [s.loseLine_eq hd]
  generalize s.lineDark e lam = v at hs ⊢
  split_ifs with h1 h2
  · obtain ⟨hev, hch⟩ := v.optical_setDarkEvt (lineChans e lam ++ lineChans (neighbour e) lam)
    exact ⟨hev.line e lam, hch⟩
  · exact absurd ⟨by simpa using h1, h2⟩ hs
  · exact ⟨rfl, fun _ => rfl⟩

/-- A line is lost (R439-R441). -/
theorem State.loseLine_spec {e lam : Nat} (hd : (s.line e lam).donor = false) :
    ((s.loseLine e lam).line e lam).lost = true ∧
    (¬ s.lineShares e lam → (∀ k ∈ lineChans e lam, ((s.loseLine e lam).chan k).state = .down) ∧
      ((s.loseLine e lam).line e lam).fed = (s.line e lam).fed) ∧
    (s.lineShares e lam → ((s.loseLine e lam).line e lam).fed = true ∧ ((s.loseLine e lam).line (neighbour e) lam).donor = true ∧
      ∀ k ∈ lineChans e lam, ((s.loseLine e lam).chan k).state = if (s.chan k).tried = true then .waking else .down) := by
  have hchan := (s.lineDark_spec e lam).2
  have hline := (s.line_lineDark e lam).1
  by_cases hsh : s.lineShares e lam
  · have ht := State.loseLine_shares hd hsh
    generalize s.lineDark e lam = v at hchan hline ht
    obtain ⟨hfed, hdonor, hlost⟩ := v.share_lines (e := e) (lam := lam)
    rw [ht]
    refine ⟨hlost.trans (by rw [hline]), fun h => absurd hsh h, fun _ => ⟨hfed, hdonor, fun k hk => ?_⟩⟩
    rw [v.share_chan hk (hchan k hk).1, (hchan k hk).2]
  · have ht := State.loseLine_dark hd hsh
    generalize s.lineDark e lam = v at hchan hline ht
    refine ⟨by rw [ht.1, hline], fun _ => ⟨fun k hk => by rw [ht.2]; exact (hchan k hk).1, by rw [ht.1, hline]⟩, fun h => absurd h hsh⟩

/-! ### Training and ageing (R408, R452, R471) -/

theorem abnelCommon_some {lo hi : Nat} (h : lo ≤ min hi 2) (h1 : 1 ≤ min hi 2) : abnelCommon lo hi = some (min hi 2) := if_pos ⟨h, h1⟩
theorem abnelCommon_none {lo hi : Nat} (h : ¬ (lo ≤ min hi 2 ∧ 1 ≤ min hi 2)) : abnelCommon lo hi = none := if_neg h

/-- A channel that has trained with version v. -/
def State.trained (s : State) (c v : Nat) : State :=
  ((s.modChan c (fun x => { x with state := .active, trying := false })).putLink (s.linkOf c)
    { s.link (s.linkOf c) with version := v }).settleChan c

theorem State.trained_spec (s : State) (c v : Nat) : ((s.trained c v).chan c).state = .active ∧
    ((s.trained c v).chan c).trying = false ∧ ((s.trained c v).link (s.linkOf c)).version = v := by
  have hset := State.settles_settleChan ((s.modChan c (fun x => { x with state := .active, trying := false })).putLink (s.linkOf c)
    { s.link (s.linkOf c) with version := v }) c
  have hfollow := hset.chan c
  have hchan : ((s.modChan c (fun x => { x with state := .active, trying := false })).putLink (s.linkOf c)
      { s.link (s.linkOf c) with version := v }).chan c = { s.chan c with state := .active, trying := false } := by
    refine Eq.trans (b := (s.modChan c (fun x => { x with state := .active, trying := false })).chan c) rfl ?_
    rw [State.chan_modChan, if_pos rfl]
  rw [hchan] at hfollow
  refine ⟨hfollow.active rfl, hfollow.keeps.2.2.2.2.2.2, ?_⟩
  rw [State.trained, hset.version, State.link_putLink, if_pos rfl]

/-- Training ends (R408, R471). -/
def State.trainingEnds (s : State) (c lo hi : Nat) : State := (abnelCommon lo hi).elim s (s.trained c)

theorem exec_channelTrainingComplete (s : State) (c lo hi : Nat) : exec (.channelTrainingComplete ⟨c, lo, hi⟩) s =
    whenever ((s.chan c).trying && s.lit c && !s.opticsHeld) s (s.trainingEnds c lo hi) := by
  have hrun : exec (.channelTrainingComplete ⟨c, lo, hi⟩) s = execChannelTrainingComplete ⟨c, lo, hi⟩ s := rfl
  rw [hrun, execChannelTrainingComplete, State.trainingEnds]
  dsimp only
  cases abnelCommon lo hi <;> rfl

theorem State.tryChan_spec {c : Nat} (hd : (s.chan c).state = .down) (ht : (s.chan c).tried = false)
    (hf : (s.pair (pairOfChan c)).fab = false) : s.tryChan c = s.putChan c { s.chan c with trying := true, tried := true } := by
  rw [State.tryChan]
  dsimp only
  rw [if_pos (by simp [hd, ht, hf])]

/-- A training that times out (R471). -/
theorem State.timeout_spec (s : State) (c : Nat) :
    let t := (s.modChan c (fun x => { x with trying := false, wfail := true })).setEvt (pairOfChan c)
    (t.chan c).state = (s.chan c).state ∧ (t.chan c).trying = false ∧ (t.chan c).wfail = true ∧ (t.pair (pairOfChan c)).evt = true := by
  intro t
  have hchan : t.chan c = { s.chan c with trying := false, wfail := true } := by
    show (State.setEvt _ _).chan c = _
    rw [State.chan_setEvt, State.chan_modChan, if_pos rfl]
  have hpair : t.pair (pairOfChan c) = { s.pair (pairOfChan c) with evt := true } := by
    show (State.setEvt _ _).pair _ = _
    rw [State.pair_setEvt, if_pos rfl]
    rfl
  rw [hchan, hpair]
  exact ⟨rfl, rfl, rfl, rfl⟩

/-- The counters of an array after a save (R452). -/
def Array_.saved (x : Array_) (h : AgedHours) (donates : Bool) : Array_ :=
  { lifeh := x.lifeh + BitVec.ofNat 32 h.powered,
    penh := x.penh + BitVec.ofNat 32 (10 * h.powered +
      8 * (if !x.gave then 0 else if !x.rested then h.powered else min h.given h.powered)), gave := donates, rested := !donates }

theorem exec_ageingCounterSave (s : State) (e : Nat) (h : AgedHours) :
    exec (.ageingCounterSave e h) s = .next (s.putArray e ((s.array e).saved h (s.donates e))) := rfl

theorem Array_.saved_spec (x : Array_) (hours given : Nat) (b : Bool) :
    (x.gave = false → (x.saved ⟨hours, given⟩ b).penh = x.penh + BitVec.ofNat 32 (10 * hours)) ∧
    (x.gave = true → x.rested = false → (x.saved ⟨hours, given⟩ b).penh = x.penh + BitVec.ofNat 32 (18 * hours)) ∧
    (x.gave = true → x.rested = true → given ≤ hours →
      (x.saved ⟨hours, given⟩ b).penh = x.penh + BitVec.ofNat 32 (10 * (hours - given) + 18 * given)) := by
  refine ⟨fun hg => ?_, fun hg hr => ?_, fun hg hr hle => ?_⟩
  · simp [Array_.saved, hg]
  · simp only [Array_.saved, hg, hr, Bool.not_true, Bool.not_false, Bool.false_eq_true, if_true, if_false]
    congr 2
    omega
  · simp only [Array_.saved, hg, hr, Bool.not_true, Bool.false_eq_true, if_false, Nat.min_eq_left hle]
    congr 2
    omega

theorem State.donates_iff (s : State) (e : Nat) : s.donates e = true ↔ ∃ lam < 16, (s.line e lam).donor = true := by
  simp [State.donates]

end

/-! ### The events -/

theorem gives_sample {s : State} {c : Nat} {cer : BitVec 16} {margin : BitVec 8} {P : State → Prop} (h : P (s.sample (c, cer, margin))) :
    Gives (.monitorSample [(c, cer, margin)]) s P := ⟨_, rfl, h⟩

section
variable {s : State} {c : Nat}

theorem gives_ringLock {locked : Bool} {P : State → Prop} (hsw : (s.chan c).swap = none) (hh : s.wakeHeld c = false)
    (h : P (s.ringLock c locked)) : Gives (.spareRingLock c locked) s P :=
  gives_whenever (by rfl) (by rw [hsw, hh]; rfl) h

theorem gives_wakeEnd {locked : Bool} {P : State → Prop} (hs : (s.chan c).state = .waking) (ht : (s.chan c).tuning = none)
    (hh : s.wakeHeld c = false) (h : P (s.wakeEnd c locked)) : Gives (.channelWakeComplete c locked) s P :=
  gives_whenever (by rfl) (by rw [hs, ht, hh]; rfl) h

theorem State.wakeHeld_false (hr : (s.link (s.linkOf c)).state ≠ .retraining ∧ s.asleep = false ∨ (s.chan c).state ≠ .waking) :
    s.wakeHeld c = false := by
  rw [Bool.eq_false_iff, Ne, State.wakeHeld_iff]
  rintro ⟨hw, h | h⟩ <;> rcases hr with ⟨h1, h2⟩ | hr
  · exact h1 h
  · exact hr hw
  · rw [h] at h2; cases h2
  · exact hr hw

/-- A sample, clause by clause (R437, R438, R445). -/
theorem State.sample_spec (ha : (s.chan c).state = .active) (cer : BitVec 16) (margin : BitVec 8) :
    let x := s.chan c
    let f := pairOfChan c
    let t := s.sample (c, cer, margin)
    let bad := s.weakCer.toNat < cer.toNat ∨ margin.toNat < s.weakMrg.toNat
    ((t.chan c).weak = true ↔ x.weak = true ∨ bad) ∧
    (¬ bad ∨ (x.weak = true ∧ x.owes = false) ∨ s.assistedPair f 1 = true → (t.chan c).tuning = x.tuning) ∧
    (bad → x.weak = false ∨ x.owes = true → s.assistedPair f 1 = false → x.tuning = none → x.swap = none →
      ((s.pair f).spuse.getLsbD 0 = false → (t.chan c).tuning = some (0, false) ∧ (t.pair f).spuse.getLsbD 0 = true) ∧
      ((s.pair f).spuse.getLsbD 0 = true → (s.pair f).spuse.getLsbD 1 = false → s.plannedHolder f 0 = none →
        (t.chan c).tuning = some (1, false) ∧ (t.pair f).spuse.getLsbD 1 = true) ∧
      (∀ d, s.plannedHolder f 0 = some d → (t.chan c).tuning = some (0, false) ∧ (t.chan d).tuning = none ∧
        ∀ n < 16, ∀ r, (s.part n).planRun = some r → movesChan d r = true → (t.part n).planStatus = 3)) ∧
    (∀ m, bad → x.weak = false ∨ x.owes = true → s.assistedPair f 1 = false → x.tuning = some (m, true) → m < 2 →
      (∃ m', (t.chan c).tuning = some (m', false)) ∧
        ∀ n < 16, ∀ r, (s.part n).planRun = some r → movesChan c r = true → (t.part n).planStatus = 3) := by
  intro x f t bad
  have hbad : s.badSample cer margin = true ↔ bad := s.badSample_iff cer margin
  obtain ⟨-, -, hweak, -⟩ := s.sample_claims cer margin ha
  refine ⟨?_, fun h => ?_, fun hb hw has ht hsw => ⟨fun h0 => ?_, fun h0 h1 hp => ?_, fun d hd => ?_⟩, fun m hb hw has ht hm => ?_⟩
  · show (State.chan t c).weak = true ↔ _
    rw [hweak, Bool.or_eq_true, hbad]
  · refine (State.sample_idle ha ?_).1
    rcases h with h | h | h
    · exact .inl (Bool.eq_false_iff.mpr (fun h' => h (hbad.mp h')))
    · exact .inr (.inl h)
    · exact .inr (.inr (.inl h))
  · obtain ⟨h1, h2, -⟩ := State.sample_takes ha (hbad.mpr hb) hw has (.inl ht) (State.spareSite_first (.inl h0))
    exact ⟨h1, h2⟩
  · obtain ⟨h1, h2, -⟩ := State.sample_takes ha (hbad.mpr hb) hw has (.inl ht) (State.spareSite_second h0 hp (.inl h1))
    exact ⟨h1, h2⟩
  · have hdc : d ≠ c := by
      rintro rfl
      exact absurd ((State.tuning_of_planned hd).symm.trans ht) (by simp)
    obtain ⟨h1, -, h3, h4⟩ := State.sample_takes ha (hbad.mpr hb) hw has (.inl ht) (State.spareSite_first (.inr (by rw [hd]; rfl)))
    exact ⟨h1, h3 d hdc hd, h4 d (.inl hd)⟩
  · have hholder := State.planned_of_tuning ht
    have hsite : ∃ n, s.spareSite f = some n := by
      rw [← Option.isSome_iff_exists, State.spareSite, List.find?_isSome]
      refine ⟨m, ?_, by rw [hholder, Bool.or_true]⟩
      simp only [List.mem_cons, List.not_mem_nil, or_false]
      omega
    obtain ⟨n, hn⟩ := hsite
    obtain ⟨h1, -, -, h4⟩ := State.sample_takes ha (hbad.mpr hb) hw has (.inr ⟨m, ht⟩) hn
    exact ⟨⟨n, h1⟩, h4 c (.inr ⟨rfl, by rw [ht]; rfl⟩)⟩

end

/-- Settles O57: what becomes of channels and lines, event by event. -/
theorem opticalChannelsRecover : Obligations.OpticalChannelsRecover := by
  unfold Obligations.OpticalChannelsRecover
  intro s c
  dsimp only
  refine ⟨fun cer margin => ⟨fun hs => ?_, fun ha => ?_⟩, fun site planned hsw ht => ⟨fun hw h => ?_, fun hw hr hz => ⟨?_, ?_⟩,
      fun hw => ⟨fun hl hc => ?_, fun h => ?_, ?_⟩⟩,
    fun e lam hl hlost hd => ?_, fun hw ht h ok => ?_,
    fun hw ht hr hz => ⟨?_, fun has h0 => ?_, fun d has h0 h1 hp => ?_, fun h => ?_⟩, fun hp => ?_,
    fun hd ht hf hph hcur => ?_, fun ht hh => ⟨fun lo hi => ?_, ?_⟩,
    fun ht hh => ⟨fun lo hi hl => ?_, fun lo hi => ⟨fun hl h h1 => ?_, fun h => ?_⟩, ?_⟩,
    fun e lam bias power => ⟨_, rfl, rfl⟩, fun e hours given => ?_⟩
  · refine gives_sample ?_
    rw [State.sample]
    exact if_pos (by simpa using hs)
  · obtain ⟨h1, h2, h3, h4⟩ := State.sample_spec ha cer margin
    obtain ⟨hcer, hmargin, -, hstate⟩ := s.sample_claims cer margin ha
    exact gives_sample ⟨hcer, hmargin, h1, hstate, h2,
      fun m hm => State.sample_idle ha (.inr (.inr (.inr (Chan.sparing_of_tuning hm)))), h3,
      fun m hb hw has ht hm _ => h4 m hb hw has ht hm⟩
  · exact gives_refused (by rfl) (by rw [(s.wakeHeld_iff c).mpr ⟨hw, h⟩]; simp)
  · refine gives_ringLock hsw (State.wakeHeld_false (.inl ⟨hr, hz⟩)) ?_
    obtain ⟨hopt, hchan, -, -⟩ := s.switchRing_spec c site
    obtain ⟨hstate, hspare⟩ := (s.switchRing c site).comeUp_spec c
    rw [(State.ringLock_waking ht hw).1]
    refine ⟨hstate.trans ?_, hspare.trans ?_⟩
    · rfl
    · rw [hchan, if_pos rfl]
  · refine gives_ringLock hsw (State.wakeHeld_false (.inl ⟨hr, hz⟩)) ?_
    rw [(State.ringLock_waking ht hw).2]
    exact s.wakeFail_spec c
  · refine gives_ringLock hsw (State.wakeHeld_false (.inr hw)) ?_
    rw [(State.ringLock_still ht hw).1, if_pos (by simp [hl, hc])]
  · refine gives_ringLock hsw (State.wakeHeld_false (.inr hw)) ?_
    rw [(State.ringLock_still ht hw).1, if_neg (by rcases h with h | h <;> simp [h]), State.remapDone_spec]
    exact ⟨rfl, rfl, rfl⟩
  · refine gives_ringLock hsw (State.wakeHeld_false (.inr hw)) ?_
    rw [State.ringLock_lost ht hw]
    exact ⟨rfl, rfl, rfl⟩
  · exact gives_whenever (by rfl) (by rw [hlost]; rfl) (State.loseLine_spec hd)
  · exact gives_refused (by rfl) (by rw [(s.wakeHeld_iff c).mpr ⟨hw, h⟩]; simp)
  · refine gives_wakeEnd hw ht (State.wakeHeld_false (.inl ⟨hr, hz⟩)) ?_
    rw [State.wakeEnd_locked]
    exact (s.comeUp_spec c).1
  · refine gives_wakeEnd hw ht (State.wakeHeld_false (.inl ⟨hr, hz⟩)) ?_
    obtain ⟨-, hclaims, htune, -⟩ := State.takeSite_spec (State.spareSite_first (.inl h0))
    rw [State.wakeEnd_spared has (State.spareSite_first (.inl h0))]
    exact ⟨(congrArg Chan.state hclaims).trans hw, htune⟩
  · refine gives_wakeEnd hw ht (State.wakeHeld_false (.inl ⟨hr, hz⟩)) ?_
    have hsite : s.spareSite (pairOfChan c) = some 0 := State.spareSite_first (.inr (by rw [hp]; rfl))
    have hdc : d ≠ c := by
      rintro rfl
      exact absurd ((State.tuning_of_planned hp).symm.trans ht) (by simp)
    obtain ⟨-, hclaims, htune, -, hfree, hplans⟩ := State.takeSite_spec hsite
    rw [State.wakeEnd_spared has hsite]
    exact ⟨(congrArg Chan.state hclaims).trans hw, htune, hfree d hdc hp, hplans d (.inl hp)⟩
  · refine gives_wakeEnd hw ht (State.wakeHeld_false (.inl ⟨hr, hz⟩)) ?_
    rw [State.wakeEnd_failed ht (h.imp id (fun ⟨h0, h1, hp0, hp1⟩ => State.spareSite_none h0 h1 hp0 hp1))]
    exact s.wakeFail_spec c
  · exact gives_whenever (by rfl) hp (s.parkEnd_spec c)
  · refine gives_whenever (by rfl) (by rcases hph with h | h <;> rcases hcur with h' | ⟨h', h2⟩ <;> simp [*]) ?_
    exact State.tryChan_spec (s := { s with house := { s.house with polled := true } }) hd ht hf
  · exact gives_refused (exec_channelTrainingComplete s c lo hi) (by rw [hh, Bool.not_true, Bool.and_false])
  · exact gives_refused (by rfl) (by rw [hh, Bool.not_true, Bool.and_false])
  · exact gives_refused (exec_channelTrainingComplete s c lo hi) (by rw [hl, Bool.and_false, Bool.false_and])
  · refine gives_whenever (exec_channelTrainingComplete s c lo hi) (by rw [ht, hl, hh]; rfl) ?_
    rw [State.trainingEnds, abnelCommon_some h h1]
    exact s.trained_spec c _
  · refine gives_idle (exec_channelTrainingComplete s c lo hi) ?_
    rw [State.trainingEnds, abnelCommon_none h]
    rfl
  · exact gives_whenever (by rfl) (by rw [ht, hh]; rfl) (s.timeout_spec c)
  · refine ⟨_, exec_ageingCounterSave s e ⟨hours, given⟩, rfl, ?_⟩
    have harr : Tbl.get Array_.reset (s.putArray e ((s.array e).saved ⟨hours, given⟩ (s.donates e))).arrays e =
        (s.array e).saved ⟨hours, given⟩ (s.donates e) := Tbl.get_set_same _ _ _ _
    obtain ⟨h1, h2, h3⟩ := (s.array e).saved_spec hours given (s.donates e)
    rw [harr]
    exact ⟨rfl, s.donates_iff e, rfl, h1, h2, h3⟩

end Sys2Proof.Machine
end

section
/-! PROOFS. Requests of the vault performed (R204, R220-R222, R430). -/

namespace Sys2Proof.Machine

section
variable {s t u : State} {r : VaultReq}

/-! ### What a write applied leaves -/

theorem State.breakReserve_shape (s : State) (gr : Nat) (a : Actor) : ∃ gs, s.breakReserve gr a = { s with gangs := gs } :=
  List.foldlRecOn (listed s.gangs) _ (motive := fun v : State => ∃ gs, v = { s with gangs := gs }) ⟨s.gangs, rfl⟩ (fun v hv e _ => by
    obtain ⟨gs, rfl⟩ := hv
    dsimp only
    split
    · exact ⟨gs, rfl⟩
    · exact ⟨_, rfl⟩)

theorem State.applyAt_shape (s : State) (a : Actor) (pa size v : Nat) (stamp : List (BitVec 16)) : ∃ av gs bw,
    s.applyAt a pa size v stamp = { s with vault := Memory.writeNat s.vault pa size v, av := av, gangs := gs, badWords := bw } :=
  List.foldlRecOn (granulesOf pa size) _ (motive := fun u : State => ∃ av gs bw,
      u = { s with vault := Memory.writeNat s.vault pa size v, av := av, gangs := gs, badWords := bw })
    ⟨s.av, s.gangs, _, rfl⟩ (fun u hu g _ => by
      obtain ⟨av, gs, bw, rfl⟩ := hu
      obtain ⟨gs', h⟩ := State.breakReserve_shape _ g a
      exact ⟨_, gs', bw, h⟩)

/-- No lane but the actor has reserved a granule of the request. -/
def VaultReq.brokeAll (r : VaultReq) (t : State) : Prop :=
  ∀ id g, t.gang? id = some g → ∀ l, r.actor ≠ .lane id l → ∀ x, r.pa ≤ x → x < r.pa + r.size → g.reserved l ≠ some (granuleOf x)

theorem VaultReq.brokeAll_applyAt (r : VaultReq) (u : State) (v : Nat) (stamp : List (BitVec 16)) :
    r.brokeAll (u.applyAt r.actor r.pa r.size v stamp) := by
  intro id g' hg' l hl x h1 h2
  obtain ⟨hnone, hsome⟩ := u.broke_applyAt r.actor r.pa r.size v stamp id
  cases hg : u.gang? id with
  | none => rw [hnone hg] at hg'; cases hg'
  | some g =>
    obtain ⟨g1, hg1, -, hb⟩ := hsome g hg
    rw [hg'] at hg1
    cases hg1
    exact hb.lost l _ ⟨by unfold granuleOf; omega, by unfold granuleOf; omega⟩ hl

/-- No gang of t has reserved what it had not in u. -/
def State.reservesLess (u t : State) : Prop :=
  ∀ id g', t.gang? id = some g' → ∃ g, u.gang? id = some g ∧ ∀ l gr, g'.reserved l = some gr → g.reserved l = some gr

theorem VaultReq.brokeAll_of (h : r.brokeAll u) (hl : u.reservesLess t) : r.brokeAll t := by
  intro id g' hg' l hne x h1 h2 hres
  obtain ⟨g, hg, hless⟩ := hl id g' hg'
  exact h id g hg l hne x h1 h2 (hless l _ hres)

theorem State.reservesLess.trans {w : State} (h : u.reservesLess t) (h' : t.reservesLess w) : u.reservesLess w := by
  intro id g' hg'
  obtain ⟨g1, hg1, h1⟩ := h' id g' hg'
  obtain ⟨g, hg, h2⟩ := h id g1 hg1
  exact ⟨g, hg, fun l gr he => h2 l gr (h1 l gr he)⟩

theorem State.reservesLess_same (h : t.gangs = u.gangs) : u.reservesLess t := fun id g' hg' =>
  ⟨g', (congrArg (fun gs => Tbl.get none gs id) h).symm.trans hg', fun _ _ h => h⟩

theorem State.reservesLess_modGang (u : State) (id : Nat) {f : Gang → Gang}
    (h : ∀ g l gr, (f g).reserved l = some gr → g.reserved l = some gr) : u.reservesLess (u.modGang id f) := by
  intro n g' hg'
  cases hg : u.gang? id with
  | none => rw [State.modGang, hg] at hg'; exact ⟨g', hg', fun _ _ h => h⟩
  | some g =>
    rw [State.modGang_some hg] at hg'
    by_cases hn : n = id
    · subst hn
      rw [State.gang?_putGang_same] at hg'
      cases hg'
      exact ⟨g, hg, h g⟩
    · rw [State.gang?_putGang_other _ _ hn] at hg'
      exact ⟨g', hg', fun _ _ h => h⟩

/-! ### Answers -/

/-- A gang whose lane has its answer. -/
def Gang.received (g : Gang) (n : Nat) (ws : List (RegElem × Word)) : Gang :=
  Gang.writeNow { g with awaits := g.awaits.filter (fun a => a.kind != AwaitKind.vault n) } ws

theorem Gang.rest_received (g : Gang) (n : Nat) (ws : List (RegElem × Word)) : (g.received n ws).reserve = g.reserve ∧
    (g.received n ws).awaits = g.awaits.filter (fun a => a.kind != AwaitKind.vault n) := by
  have h := Gang.rest_writeNow { g with awaits := g.awaits.filter (fun a => a.kind != AwaitKind.vault n) } ws
  exact ⟨(congrArg Gang.reserve h :), (congrArg Gang.awaits h :)⟩

theorem Gang.settled_received (g : Gang) (n : Nat) (ws : List (RegElem × Word)) (e : RegElem) :
    (g.received n ws).settled e = overwritten ws g.settled e := by
  rw [Gang.received, Gang.settled_writeNow]
  exact congrArg (fun f => overwritten _ f e) (funext fun e => g.settled_with_awaits _ e)

/-- The lane of a request has its answer. -/
def VaultReq.delivered (r : VaultReq) (s t : State) (v : Nat) : Prop :=
  ∀ id l g, r.actor = .lane id l → s.gang? id = some g → ∃ g', t.gang? id = some g' ∧
    (∀ e, r.dst = [e] → (∀ i j, e ≠ .p i j) → g'.settled e = BitVec.ofNat 32 v) ∧
    (∀ e f, r.dst = [e, f] → e ≠ f → (∀ i j, e ≠ .p i j) → (∀ i j, f ≠ .p i j) →
      g'.settled e = BitVec.ofNat 32 v ∧ g'.settled f = BitVec.ofNat 32 (v / 2 ^ 32)) ∧
    (∀ e, e ∉ r.dst → g'.settled e = g.settled e) ∧ (∀ w ∈ g'.awaits, w.kind ≠ .vault r.id)

theorem State.answer_lane {id l : Nat} (ha : r.actor = .lane id l) (u : State) (ws : List (RegElem × Word)) :
    u.answer r ws = u.modGang id (fun g => g.received r.id ws) := by
  rw [State.answer, ha]; rfl

/-- An answer changes the gang of its lane alone. -/
theorem State.answer_shape (u : State) (r : VaultReq) (ws : List (RegElem × Word)) : ∃ gs, u.answer r ws = { u with gangs := gs } := by
  unfold State.answer
  split
  · exact ⟨u.gangs, rfl⟩
  · unfold State.modGang
    split
    · exact ⟨_, rfl⟩
    · exact ⟨u.gangs, rfl⟩

/-- The request has left the list. -/
def VaultReq.gone (r : VaultReq) (t : State) : Prop := ∀ q ∈ t.vreqs, q.id ≠ r.id

theorem VaultReq.gone_dropVreq (s : State) (r : VaultReq) : r.gone (s.dropVreq r) := fun q hq => by
  have := (List.mem_filter.mp hq).2
  simpa using this

theorem VaultReq.gone_merge (h : r.gone u) : r.gone (u.merge r) := by
  intro q hq
  obtain ⟨w, hw, rfl⟩ := List.mem_map.mp hq
  have := h w hw
  split <;> exact this

/-- A request answered and merged. -/
theorem State.answered_spec (u : State) (r : VaultReq) (ws : List (RegElem × Word)) :
    let t := (u.answer r ws).merge r
    t.vault = u.vault ∧ t.holds = u.holds ∧ (r.gone u → r.gone t) ∧ u.reservesLess t ∧
    ∀ id l g, r.actor = .lane id l → u.gang? id = some g → t.gang? id = some (g.received r.id ws) := by
  intro t
  obtain ⟨gs, h⟩ := u.answer_shape r ws
  refine ⟨?_, ?_, fun hg => VaultReq.gone_merge (u := u.answer r ws) (by rw [h]; exact hg), ?_, fun id l g ha hg => ?_⟩
  · show ((u.answer r ws).merge r).vault = _
    rw [h]; rfl
  · show ((u.answer r ws).merge r).holds = _
    rw [h]; rfl
  · refine State.reservesLess.trans (t := u.answer r ws) ?_ (State.reservesLess_same rfl)
    unfold State.answer
    split
    · exact State.reservesLess_same rfl
    · refine u.reservesLess_modGang _ (fun g l gr hgr => ?_)
      have hres : (g.received r.id ws).reserve = g.reserve := (g.rest_received r.id ws).1
      rw [Gang.reserved] at hgr ⊢
      rw [← hres]
      exact hgr
  · show (u.answer r ws).gang? id = _
    rw [State.answer_lane ha, State.modGang_some hg, State.gang?_putGang_same]

/-- A gang that differs in its reservations from that of s has its answer. -/
theorem VaultReq.delivered_answered {t : State} (et v : Nat)
    (hu : ∀ id l g, r.actor = .lane id l → s.gang? id = some g → ∃ g1, u.gang? id = some g1 ∧ ∀ e, g1.settled e = g.settled e)
    (ht : t = (u.answer r (elemWords et v r.dst)).merge r) : r.delivered s t (elemOut et v) := by
  intro id l g ha hg
  obtain ⟨g1, hg1, hset⟩ := hu id l g ha hg
  obtain ⟨-, -, -, -, hrec⟩ := u.answered_spec r (elemWords et v r.dst)
  obtain ⟨one, two, other⟩ := overwritten_elemWords et v r.dst g1.settled
  refine ⟨_, by rw [ht]; exact hrec id l g1 ha hg1, ?_⟩
  simp only [Gang.settled_received]
  refine ⟨one, two, fun e he => (other e he).trans (hset e), fun w hw => ?_⟩
  rw [(g1.rest_received _ _).2] at hw
  simpa using (List.mem_filter.mp hw).2

/-- Gangs that a write leaves but for reservations. -/
theorem State.settled_of_broke {hits : Nat → Prop} {a : Actor} (h : State.broke hits a s u) {id : Nat} {g : Gang} (hg : s.gang? id = some g) :
    ∃ g1, u.gang? id = some g1 ∧ ∀ e, g1.settled e = g.settled e := by
  obtain ⟨g1, hg1, he, -⟩ := (h id).2 g hg
  exact ⟨g1, hg1, (Gang.of_unreserved he).2.2⟩

/-! ### Writes -/

/-- The IOD agent's next store changes no byte, no gang and no word sent; a new request has a number of its own. -/
theorem State.iodNext_spec (u : State) : u.iodNext.vault = u.vault ∧ u.iodNext.gangs = u.gangs ∧ u.iodNext.out = u.out ∧
    ∀ q ∈ u.iodNext.vreqs, q ∈ u.vreqs ∨ q.id = u.next := by
  unfold State.iodNext
  split
  · split
    · exact ⟨rfl, rfl, rfl, fun _ h => .inl h⟩
    · refine ⟨rfl, rfl, rfl, fun q hq => ?_⟩
      rcases List.mem_append.mp hq with h | h
      · exact .inl h
      · rw [List.mem_singleton.mp h]
        exact .inr rfl
  · exact ⟨rfl, rfl, rfl, fun _ h => .inl h⟩

/-- A store performed. -/
theorem State.performWrite_write {v : Nat} (hk : r.kind = .write v) (hn : r.id < s.next) :
    let t := s.performWrite r
    t.vault = Memory.writeNat s.vault r.pa r.size v ∧ r.gone t ∧ r.brokeAll t ∧ ∀ x ∈ r.after, x ∈ t.out := by
  intro t
  obtain ⟨av, gs, bw, h⟩ := (s.dropVreq r).applyAt_shape r.actor r.pa r.size v r.stamp
  have hbroke := r.brokeAll_applyAt (s.dropVreq r) v r.stamp
  have ht : t = ({ (s.dropVreq r).applyAt r.actor r.pa r.size v r.stamp with out := (s.dropVreq r).out ++ r.after } : State).iodNext := by
    show s.performWrite r = _
    rw [State.performWrite, hk]
  rw [ht]
  generalize (s.dropVreq r).applyAt r.actor r.pa r.size v r.stamp = u at h hbroke ⊢
  obtain ⟨h1, h2, h3, h4⟩ := ({ u with out := (s.dropVreq r).out ++ r.after } : State).iodNext_spec
  refine ⟨h1.trans ?_, fun q hq => ?_, VaultReq.brokeAll_of hbroke (State.reservesLess_same h2), fun x hx => ?_⟩
  · show u.vault = _
    rw [h]; rfl
  · rcases h4 q hq with hin | hnew
    · have hin : q ∈ u.vreqs := hin
      rw [h] at hin
      exact r.gone_dropVreq s q hin
    · have hnew : q.id = u.next := hnew
      rw [hnew, h]
      exact hn.ne'
  · rw [h3]
    exact List.mem_append.mpr (.inr hx)

/-- An atomic performed. -/
theorem State.performWrite_atom {op : Nat} {et : BitVec 4} {sat : Bool} {x new : DWord} (hk : r.kind = .atom op et sat x new) :
    let t := s.performWrite r
    let old := Memory.readNat s.vault r.pa r.size
    let v := atomNew op et.toNat sat old x.toNat new.toNat
    t.vault = (v.elim s.vault (Memory.writeNat s.vault r.pa r.size)) ∧ r.gone t ∧ r.delivered s t (elemOut r.etype.toNat old) ∧
      (v.isSome = true → r.brokeAll t) := by
  intro t old v
  have ht : t = ((v.elim ((s.dropVreq r).touchAt r.pa r.stamp) (fun v => (s.dropVreq r).applyAt r.actor r.pa r.size v r.stamp)).answer r
      (elemWords r.etype.toNat old r.dst)).merge r := by
    show s.performWrite r = _
    rw [State.performWrite, hk]
    dsimp only
    congr 2
    show _ = (atomNew op et.toNat sat (Memory.readNat s.vault r.pa r.size) x.toNat new.toNat).elim _ _
    cases atomNew op et.toNat sat (Memory.readNat s.vault r.pa r.size) x.toNat new.toNat <;> rfl
  cases hv : v with
  | none =>
    rw [hv] at ht
    obtain ⟨h1, -, h3, h4, -⟩ := ((s.dropVreq r).touchAt r.pa r.stamp).answered_spec r (elemWords r.etype.toNat old r.dst)
    refine ⟨by rw [ht]; exact h1, by rw [ht]; exact h3 (r.gone_dropVreq s), ?_, fun h => nomatch h⟩
    exact VaultReq.delivered_answered (u := (s.dropVreq r).touchAt r.pa r.stamp) _ _ (fun id l g _ hg => ⟨g, hg, fun _ => rfl⟩) ht
  | some w =>
    rw [hv] at ht
    have hbroke := r.brokeAll_applyAt (s.dropVreq r) w r.stamp
    have hgangs := (s.dropVreq r).broke_applyAt r.actor r.pa r.size w r.stamp
    obtain ⟨av, gs, bw, h⟩ := (s.dropVreq r).applyAt_shape r.actor r.pa r.size w r.stamp
    obtain ⟨h1, -, h3, h4, -⟩ := ((s.dropVreq r).applyAt r.actor r.pa r.size w r.stamp).answered_spec r (elemWords r.etype.toNat old r.dst)
    refine ⟨by rw [ht]; exact h1.trans (by rw [h]; rfl), by rw [ht]; exact h3 (by rw [h]; exact r.gone_dropVreq s), ?_, fun _ => ?_⟩
    · exact VaultReq.delivered_answered _ _ (fun id l g _ hg => State.settled_of_broke (s := s.dropVreq r) hgangs hg) ht
    · rw [ht]
      exact VaultReq.brokeAll_of hbroke h4

/-- An SC performed: its lane holds the granule or not (R221). -/
theorem State.performWrite_sc {v : DWord} {id l : Nat} {g : Gang} (hk : r.kind = .sc v) (ha : r.actor = .lane id l)
    (hg : s.gang? id = some g) :
    let t := s.performWrite r
    let held := g.reserved l == some (granuleOf r.pa)
    t.vault = (if held = true then Memory.writeNat s.vault r.pa r.size v.toNat else s.vault) ∧ r.gone t ∧
      r.delivered s t (if held = true then 0 else 1) ∧ (held = true → r.brokeAll t) ∧
      ∃ g', t.gang? id = some g' ∧ g'.reserved l = none := by
  intro t held
  let u : State := if held = true then (s.dropVreq r).applyAt r.actor r.pa r.size v.toNat r.stamp else (s.dropVreq r).touchAt r.pa r.stamp
  let w : State := (u.modGang id (fun g => g.setReserve l none)).dropHold id l
  have hw : t = (w.answer r (elemWords 5 (if held = true then 0 else 1) r.dst)).merge r := by
    show s.performWrite r = _
    rw [State.performWrite, hk, ha]
    dsimp only
    rw [show (s.dropVreq r).gang? id = some g from hg]
    dsimp only
    rw [← ha]
  have hu : u.vault = (if held = true then Memory.writeNat s.vault r.pa r.size v.toNat else s.vault) ∧ r.gone u ∧
      (held = true → r.brokeAll u) ∧ ∃ g1, u.gang? id = some g1 ∧ ∀ e, g1.settled e = g.settled e := by
    by_cases hh : held = true
    · obtain ⟨av, gs, bw, h⟩ := (s.dropVreq r).applyAt_shape r.actor r.pa r.size v.toNat r.stamp
      have hgangs := (s.dropVreq r).broke_applyAt r.actor r.pa r.size v.toNat r.stamp
      simp only [u, if_pos hh]
      exact ⟨by rw [h]; rfl, by rw [h]; exact r.gone_dropVreq s, fun _ => r.brokeAll_applyAt _ _ _,
        State.settled_of_broke (s := s.dropVreq r) hgangs hg⟩
    · simp only [u, if_neg hh]
      exact ⟨rfl, r.gone_dropVreq s, fun h => absurd h hh, g, hg, fun _ => rfl⟩
  clear_value u held
  obtain ⟨huv, hug, hub, g1, hg1, hset⟩ := hu
  have hless : u.reservesLess w := by
    refine State.reservesLess.trans (u.reservesLess_modGang id (fun g m gr h => ?_)) (State.reservesLess_same rfl)
    rw [Gang.reserved_setReserve] at h
    split at h
    · cases h
    · exact h
  have hg2 : w.gang? id = some (g1.setReserve l none) := by
    show (u.modGang id _).gang? id = _
    rw [State.modGang_some hg1, State.gang?_putGang_same]
  have hshape : w.vault = u.vault ∧ w.vreqs = u.vreqs := by
    show (u.modGang id _).vault = _ ∧ (u.modGang id _).vreqs = _
    rw [State.modGang_some hg1]
    exact ⟨rfl, rfl⟩
  obtain ⟨h1, -, h3, h4, h5⟩ := w.answered_spec r (elemWords 5 (if held = true then 0 else 1) r.dst)
  have hout : elemOut 5 (if held = true then 0 else 1) = if held = true then 0 else 1 := by split <;> decide
  rw [hw]
  refine ⟨h1.trans (hshape.1.trans huv), h3 (fun q hq => hug q (hshape.2 ▸ hq)), ?_, fun hh =>
    VaultReq.brokeAll_of (hub hh) (hless.trans h4), _, h5 id l _ ha hg2, ?_⟩
  · refine Eq.mp (congrArg (r.delivered s _) hout)
      (VaultReq.delivered_answered (u := w) 5 (if held = true then 0 else 1) (fun id' l' g' ha' hg' => ?_) rfl)
    rw [ha] at ha'
    cases ha'
    rw [hg] at hg'
    cases hg'
    exact ⟨_, hg2, fun e => (Gang.settled_congr (by rfl) (by rfl) (by rfl) (by rfl) e).trans (hset e)⟩
  · rw [Gang.reserved, (Gang.rest_received _ _ _).1]
    exact (g1.reserved_setReserve l l none).trans (if_pos rfl)

/-- An SC of no lane that stands updates nothing. -/
theorem State.performWrite_sc_lost {v : DWord} (hk : r.kind = .sc v) (h : ∀ id l, r.actor = .lane id l → s.gang? id = none) :
    (s.performWrite r).vault = s.vault ∧ r.gone (s.performWrite r) := by
  cases ha : r.actor with
  | lane id l =>
    have hnone : ∀ t : State, t.gangs = s.gangs → ∀ f, t.modGang id f = t := by
      intro t ht f
      have : t.gang? id = none := (congrArg (fun gs => Tbl.get none gs id) ht :).trans (h id l ha)
      rw [State.modGang, this]
    have hw : s.performWrite r = (((s.dropVreq r).touchAt r.pa r.stamp).dropHold id l).merge r := by
      rw [State.performWrite, hk, ha]
      dsimp only
      rw [show (s.dropVreq r).gang? id = none from h id l ha, if_neg Bool.false_ne_true,
        hnone ((s.dropVreq r).touchAt r.pa r.stamp) rfl, State.answer_lane ha,
        hnone (((s.dropVreq r).touchAt r.pa r.stamp).dropHold id l) rfl]
    rw [hw]
    exact ⟨rfl, VaultReq.gone_merge (u := ((s.dropVreq r).touchAt r.pa r.stamp).dropHold id l) (r.gone_dropVreq s)⟩
  | engine c =>
    have hw : s.performWrite r = s.dropVreq r := by rw [State.performWrite, hk, ha]
    rw [hw]
    exact ⟨rfl, r.gone_dropVreq s⟩
  | iod =>
    have hw : s.performWrite r = s.dropVreq r := by rw [State.performWrite, hk, ha]
    rw [hw]
    exact ⟨rfl, r.gone_dropVreq s⟩

/-- What is kept of the vault by any write performed. -/
theorem State.performWrite_silent (hk : r.kind.writes = true) (hn : r.id < s.next) : r.gone (s.performWrite r) ∧
    ∀ x, (x < r.pa ∨ r.pa + r.size ≤ x) → Memory.readByte (s.performWrite r).vault x = Memory.readByte s.vault x := by
  have hother : ∀ v x, (x < r.pa ∨ r.pa + r.size ≤ x) →
      Memory.readByte (Memory.writeNat s.vault r.pa r.size v) x = Memory.readByte s.vault x :=
    fun v x hx => (Memory.writeNat_spec s.vault r.pa r.size (some v) _ rfl).1 x hx
  cases hk' : r.kind with
  | write v =>
    obtain ⟨hv, hgone, -, -⟩ := State.performWrite_write hk' hn
    exact ⟨hgone, by rw [hv]; exact hother v⟩
  | atom op et sat x new =>
    obtain ⟨hv, hgone, -, -⟩ := State.performWrite_atom (s := s) hk'
    refine ⟨hgone, ?_⟩
    rw [hv]
    cases atomNew op et.toNat sat (Memory.readNat s.vault r.pa r.size) x.toNat new.toNat with
    | none => exact fun _ _ => rfl
    | some v => exact hother v
  | sc v =>
    by_cases hstands : ∃ id l g, r.actor = .lane id l ∧ s.gang? id = some g
    · obtain ⟨id, l, g, ha, hg⟩ := hstands
      obtain ⟨hv, hgone, -, -⟩ := State.performWrite_sc hk' ha hg
      refine ⟨hgone, ?_⟩
      rw [hv]
      split
      · exact hother _
      · exact fun _ _ => rfl
    · obtain ⟨hv, hgone⟩ := State.performWrite_sc_lost (s := s) hk' (fun id l ha => by
        cases hg : s.gang? id with
        | none => rfl
        | some g => exact absurd ⟨id, l, g, ha, hg⟩ hstands)
      exact ⟨hgone, by rw [hv]; exact fun _ _ => rfl⟩
  | read => rw [hk'] at hk; cases hk
  | lr => rw [hk'] at hk; cases hk
  | booked => rw [hk'] at hk; cases hk

/-! ### Reads -/

/-- A read or an LR answered (R220, R222). -/
theorem State.performRead_spec (s : State) (r : VaultReq) :
    let t := s.performRead r
    t.vault = s.vault ∧ r.gone t ∧ r.delivered s t (elemOut r.etype.toNat (Memory.readNat s.vault r.pa r.size)) ∧
    ∀ id l g, r.kind = .lr → r.actor = .lane id l → s.gang? id = some g → ∃ g', t.gang? id = some g' ∧
      g'.reserved l = some (granuleOf r.pa) ∧ ∃ h ∈ t.holds, h.granule = granuleOf r.pa := by
  intro t
  let w : State := match r.kind, r.actor with
    | .lr, .lane gid l =>
      let s1 := ((s.dropVreq r).dropHold gid l).modGang gid (fun g => g.setReserve l (some (granuleOf r.pa)))
      if s1.holds.any (fun h => s.inForce h && h.granule == granuleOf r.pa) then s1
      else { s1 with holds := s1.holds ++ [LrHold.mk r.id r.batch gid l (granuleOf r.pa) (s.now + 256) true] }
    | _, _ => s.dropVreq r
  have ht : t = (w.answer r (elemWords r.etype.toNat (Memory.readNat s.vault r.pa r.size) r.dst)).merge r := rfl
  have hlr : ∀ gid l g, r.kind = .lr → r.actor = .lane gid l → s.gang? gid = some g →
      w.gang? gid = some (g.setReserve l (some (granuleOf r.pa))) ∧ ∃ h ∈ w.holds, h.granule = granuleOf r.pa := by
    intro gid l g hk ha hg
    have hw : ∃ hs, w = { ((s.dropVreq r).dropHold gid l).putGang gid (g.setReserve l (some (granuleOf r.pa))) with holds := hs } ∧
        ∃ h ∈ hs, h.granule = granuleOf r.pa := by
      simp only [w, hk, ha]
      rw [State.modGang_some (s := (s.dropVreq r).dropHold gid l) hg]
      split
      · next hany =>
        obtain ⟨h, hmem, hh⟩ := List.any_eq_true.mp hany
        simp only [Bool.and_eq_true, beq_iff_eq] at hh
        exact ⟨_, rfl, h, hmem, hh.2⟩
      · exact ⟨_, rfl, _, List.mem_append.mpr (.inr (.head _)), rfl⟩
    obtain ⟨hs, hw, hmem⟩ := hw
    rw [hw]
    exact ⟨State.gang?_putGang_same _ _ _, hmem⟩
  have hbase : w.vault = s.vault ∧ r.gone w ∧ ∀ id l g, r.actor = .lane id l → s.gang? id = some g →
      ∃ g1, w.gang? id = some g1 ∧ ∀ e, g1.settled e = g.settled e := by
    by_cases hlane : ∃ gid l, r.kind = .lr ∧ r.actor = .lane gid l
    · obtain ⟨gid, l, hk, ha⟩ := hlane
      have hw : ∃ hs, w = { ((s.dropVreq r).dropHold gid l).modGang gid (fun g => g.setReserve l (some (granuleOf r.pa))) with holds := hs } := by
        simp only [w, hk, ha]
        split
        · exact ⟨_, rfl⟩
        · exact ⟨_, rfl⟩
      obtain ⟨hs, hw⟩ := hw
      have hmod : ∀ f, (((s.dropVreq r).dropHold gid l).modGang gid f).vault = s.vault ∧
          (((s.dropVreq r).dropHold gid l).modGang gid f).vreqs = (s.dropVreq r).vreqs := by
        intro f
        unfold State.modGang
        split <;> exact ⟨rfl, rfl⟩
      refine ⟨by rw [hw]; exact (hmod _).1, fun q hq => ?_, fun id l' g ha' hg => ?_⟩
      · rw [hw] at hq
        exact r.gone_dropVreq s q ((hmod _).2 ▸ hq)
      · rw [ha] at ha'
        cases ha'
        exact ⟨_, (hlr _ _ g hk ha hg).1, Gang.settled_congr (by rfl) (by rfl) (by rfl) (by rfl)⟩
    · have hw : w = s.dropVreq r := by
        simp only [w]
        split
        · next hk ha => exact absurd ⟨_, _, hk, ha⟩ hlane
        · rfl
      rw [hw]
      exact ⟨rfl, r.gone_dropVreq s, fun id l g _ hg => ⟨g, hg, fun _ => rfl⟩⟩
  obtain ⟨hv, hgone, hgang⟩ := hbase
  obtain ⟨h1, h2, h3, -, h5⟩ := w.answered_spec r (elemWords r.etype.toNat (Memory.readNat s.vault r.pa r.size) r.dst)
  rw [ht]
  refine ⟨h1.trans hv, h3 hgone, VaultReq.delivered_answered _ _ hgang rfl, fun id l g hk ha hg => ?_⟩
  obtain ⟨hwg, hold⟩ := hlr id l g hk ha hg
  refine ⟨_, h5 id l _ ha hwg, ?_, by rw [h2]; exact hold⟩
  rw [Gang.reserved, (Gang.rest_received _ _ _).1]
  exact (g.reserved_setReserve l l _).trans (if_pos rfl)

/-! ### Words that cannot be corrected (R430) -/

/-- The requests of the instruction of r in the lane of r. -/
def State.batchOf (s : State) (r : VaultReq) (id l : Nat) : List VaultReq :=
  s.vreqs.filter (fun q => q.batch == r.batch && [l].any (fun l => q.actor == Actor.lane id l))

theorem State.mem_batchOf {id l : Nat} (ha : r.actor = .lane id l) {q : VaultReq} :
    q ∈ s.batchOf r id l ↔ q ∈ s.vreqs ∧ q.batch = r.batch ∧ q.actor = r.actor := by
  simp [State.batchOf, ha]

/-- The gang without what these requests were to answer. -/
def Gang.unawaited (g : Gang) (hit : List VaultReq) : Gang :=
  { g with awaits := g.awaits.filter (fun a => !(hit.any (fun r => a.kind == AwaitKind.vault r.id))) }

theorem State.suppress_shape (s : State) {id : Nat} {g : Gang} (hg : s.gang? id = some g) (hit : List VaultReq) : ∃ av,
    s.suppress id hit = ({ s with vreqs := s.vreqs.filter (fun r => !hit.contains r), av := av } : State).putGang id (g.unawaited hit) := by
  have hfold : ∀ (l : List VaultReq) (u : State), ∃ av,
      l.foldl (fun acc r => if r.kind.writes then acc.touchAt r.pa r.stamp else acc) u = { u with av := av } := by
    intro l
    induction l with
    | nil => exact fun u => ⟨u.av, rfl⟩
    | cons q l ih =>
      intro u
      rw [List.foldl_cons]
      split
      · obtain ⟨av, h⟩ := ih (u.touchAt q.pa q.stamp)
        exact ⟨av, h⟩
      · exact ih u
  obtain ⟨av, h⟩ := hfold hit { s with vreqs := s.vreqs.filter (fun r => !hit.contains r) }
  refine ⟨av, ?_⟩
  rw [State.suppress, h]
  exact State.modGang_some (s := { s with vreqs := s.vreqs.filter (fun r => !hit.contains r), av := av }) hg _

/-- The record of a word that cannot be corrected. -/
def VaultReq.eccRecord (r : VaultReq) : LaneRecord :=
  { addr := BitVec.ofNat 64 r.va, cause := Cause.permission, flags := 5, more := 0, detail := 0 }

/-- Another lane of the instruction has still to be answered. -/
def State.othersWait (s : State) (r : VaultReq) : Prop :=
  ∃ q ∈ s.vreqs, q.batch = r.batch ∧ ¬ (q.batch = r.batch ∧ q.actor = r.actor) ∧ q.kind.loads = true

/-- A group that awaits the answers of the other lanes. -/
def VaultReq.faulting (r : VaultReq) (l n : Nat) (y : Group) : Group :=
  { y with park := some (.faulting r.batch r.opc [(l, r.eccRecord)]), since := n }

section
variable {id l : Nat} {g : Gang} {x : Group}
  (ha : r.actor = .lane id l) (hg : s.gang? id = some g)
  (hx : g.groups.find? (fun y => y.slices.getLsbD (sliceOf l)) = some x) (hp : x.park = none)

include ha in
theorem State.mem_suppressed {q : VaultReq} : q ∈ s.vreqs.filter (fun w => !(s.batchOf r id l).contains w) ↔
    q ∈ s.vreqs ∧ ¬ (q.batch = r.batch ∧ q.actor = r.actor) := by
  rw [List.mem_filter, Bool.not_eq_true', ← Bool.not_eq_true, List.contains_iff_mem, State.mem_batchOf ha]
  exact ⟨fun ⟨h1, h2⟩ => ⟨h1, fun h => h2 ⟨h1, h⟩⟩, fun ⟨h1, h2⟩ => ⟨h1, fun h => h2 h.2⟩⟩

include ha hg hx hp in
/-- What comes of a word that a lane's request cannot correct. -/
theorem State.eccFound_shape : ∃ av,
    let s1 := ({ s with vreqs := s.vreqs.filter (fun w => !(s.batchOf r id l).contains w), av := av } : State).putGang id
      (g.unawaited (s.batchOf r id l))
    (s.othersWait r → s.eccFound id r [l] r.va = ({ s1 with next := s.next + 1 } : State).modGang id (fun g =>
      (g.givesTurn x.slices).modGroup x.slices (r.faulting l s.next))) ∧
    (¬ s.othersWait r → s.eccFound id r [l] r.va = s1.faultsDue id x.slices x.pc r.opc [(l, r.eccRecord)]) := by
  obtain ⟨av, hs⟩ := s.suppress_shape hg (s.batchOf r id l)
  refine ⟨av, ?_⟩
  intro s1
  have hs1 : s.suppress id (s.batchOf r id l) = s1 := hs
  have hfind : (s1.gang? id).bind (fun g => g.groups.find? (fun x => [l].any (fun l => x.slices.getLsbD (sliceOf l)))) = some x := by
    rw [show s1.gang? id = some (g.unawaited (s.batchOf r id l)) from State.gang?_putGang_same _ _ _, Option.bind_some]
    show g.groups.find? _ = some x
    simpa using hx
  have hwaits : s1.vreqs.any (fun q => q.batch == r.batch && q.kind.loads) = true ↔ s.othersWait r := by
    rw [List.any_eq_true]
    constructor
    · rintro ⟨q, hq, hc⟩
      obtain ⟨hmem, hno⟩ := (State.mem_suppressed ha).mp hq
      simp only [Bool.and_eq_true, beq_iff_eq] at hc
      exact ⟨q, hmem, hc.1, hno, hc.2⟩
    · rintro ⟨q, hmem, hb, hno, hl⟩
      exact ⟨q, (State.mem_suppressed ha).mpr ⟨hmem, hno⟩, by simp [hb, hl]⟩
  have hfound : s.eccFound id r [l] r.va = s1.faultsFound id x r.batch r.opc [(l, r.eccRecord)] := by
    unfold State.eccFound
    dsimp only
    rw [show s.vreqs.filter (fun q => q.batch == r.batch && [l].any (fun l => q.actor == Actor.lane id l)) = s.batchOf r id l from rfl,
      hs1, hfind]
    rfl
  have hall : ([(l, r.eccRecord)] : List (Nat × LaneRecord)).sortedBy (fun a b => decide (a.1 ≤ b.1)) = [(l, r.eccRecord)] := rfl
  rw [hfound]
  unfold State.faultsFound
  rw [hp]
  dsimp only
  rw [List.nil_append, hall]
  refine ⟨fun h => ?_, fun h => ?_⟩
  · rw [hwaits.mpr h, if_pos (by rfl)]
    rfl
  · rw [if_neg (by rw [Bool.and_true]; exact fun h' => h (hwaits.mp h'))]

theorem Gang.settled_waits (g : Gang) (m : SliceMask) (f : Group → Group) (e : RegElem) :
    ((g.givesTurn m).modGroup m f).settled e = g.settled e := by
  refine (Gang.settled_congr (by rfl) (by rfl) (by rfl) (by rfl) e).trans (b := (g.givesTurn m).settled e) ?_
  unfold Gang.givesTurn
  split
  · exact Gang.settled_congr (by rfl) (by rfl) (by rfl) (by rfl) e
  · rfl

include ha hg hx hp in
/-- While other lanes of the instruction wait, the group does (R430). -/
theorem State.eccFound_waits (ho : s.othersWait r) :
    let t := s.eccFound id r [l] r.va
    t.vault = s.vault ∧ t.badWords = s.badWords ∧ (∀ q ∈ t.vreqs, ¬ (q.batch = r.batch ∧ q.actor = r.actor)) ∧
    ∃ g', t.gang? id = some g' ∧ (∀ e, g'.settled e = g.settled e) ∧ ∃ y ∈ g'.groups, y.slices = x.slices ∧
      y.pc = x.pc ∧ y.park = some (.faulting r.batch r.opc [(l, r.eccRecord)]) := by
  intro t
  obtain ⟨av, hwait, -⟩ := State.eccFound_shape ha hg hx hp
  let s0 : State := { s with vreqs := s.vreqs.filter (fun w => !(s.batchOf r id l).contains w), av := av }
  let g1 : Gang := g.unawaited (s.batchOf r id l)
  let g2 : Gang := (g1.givesTurn x.slices).modGroup x.slices (r.faulting l s.next)
  have ht : t = ({ s0.putGang id g1 with next := s.next + 1 } : State).putGang id g2 := by
    show s.eccFound id r [l] r.va = _
    rw [hwait ho]
    exact State.modGang_some (s := { s0.putGang id g1 with next := s.next + 1 }) (State.gang?_putGang_same _ _ _) _
  have hgroups : (g1.givesTurn x.slices).groups = g.groups := by
    unfold Gang.givesTurn
    split <;> rfl
  rw [ht]
  refine ⟨rfl, rfl, fun q hq => ((State.mem_suppressed ha).mp hq).2, g2, State.gang?_putGang_same _ _ _, fun e => ?_, r.faulting l s.next x, ?_,
    rfl, rfl, rfl⟩
  · exact (g1.settled_waits _ _ e).trans (g.settled_with_awaits _ e)
  · refine List.mem_map.mpr ⟨x, ?_, by rw [if_pos (by simp)]⟩
    rw [hgroups]
    exact List.mem_of_find?_eq_some hx

include ha hg hx hp in
/-- The last lane's word: the trap (R410, R430). -/
theorem State.eccFound_traps (ho : ¬ s.othersWait r) (hin : g.inh = false) (hth : (s.part (s.teamPart g.team)).then_ = true) :
    let t := s.eccFound id r [l] r.va
    t.vault = s.vault ∧ t.badWords = s.badWords ∧ (∀ q ∈ t.vreqs, ¬ (q.batch = r.batch ∧ q.actor = r.actor)) ∧
    ∃ g', t.gang? id = some g' ∧ g'.inh = true ∧ g'.trap.cause = Cause.permission ∧ g'.trap.tpc = x.pc ∧ g'.trap.opc = r.opc ∧
      g'.laneRecord l = r.eccRecord ∧ ∀ e, g'.elem e = g.settled e := by
  intro t
  obtain ⟨av, -, hnow⟩ := State.eccFound_shape ha hg hx hp
  let s0 : State := { s with vreqs := s.vreqs.filter (fun w => !(s.batchOf r id l).contains w), av := av }
  let g1 : Gang := g.unawaited (s.batchOf r id l)
  let g2 : Gang := g1.modGroup x.slices Group.faultOver
  let s2 : State := (s0.putGang id g1).putGang id g2
  let info : TrapInfo := { g1.followInfo x.slices x.pc r.opc with
    cause := Cause.permission, after := x.pc, defer := false, records := [(l, r.eccRecord)] }
  have hg1 : (s0.putGang id g1).gang? id = some g1 := State.gang?_putGang_same _ _ _
  have hg2 : s2.gang? id = some g2 := State.gang?_putGang_same _ _ _
  have ht : t = s2.takeTrap id info := by
    show s.eccFound id r [l] r.va = _
    rw [hnow ho]
    show (s0.putGang id g1).faultsDue _ _ _ _ _ = _
    unfold State.faultsDue
    rw [hg1]
    dsimp only
    rw [State.modGang_some hg1]
    rfl
  have hteam : s2.part (s2.teamPart g2.team) = s.part (s.teamPart g.team) := rfl
  rw [ht, State.takeTrap_handler_shape info hg2 hin (by rw [hteam]; exact hth)]
  refine ⟨rfl, rfl, fun q hq => ?_, (g2.trapped s2.now).enterHandler (s2.part (s2.teamPart g2.team)).th info,
    Tbl.get_set_same none s2.gangs id (some _), rfl, rfl, rfl, rfl, ?_, fun e => ?_⟩
  · obtain ⟨w, hw, rfl⟩ := List.mem_map.mp hq
    have hno := ((State.mem_suppressed ha).mp hw).2
    split <;> exact hno
  · exact Tbl.get_set_same _ _ _ _
  · exact (Gang.settled_congr (by rfl) (by rfl) (by rfl) (by rfl) e).trans (b := g1.settled e) (g.settled_with_awaits _ e)

end

end

/-- A request performed, its word in order. -/
theorem State.performReq_good {s : State} {r : VaultReq} (h : ∀ id l, r.actor = .lane id l → s.findsError r = false) :
    s.performReq r = if r.kind.writes then s.performWrite r else s.performRead r := by
  unfold State.performReq
  split
  · next id l ha he => rw [h id l ha] at he; cases he
  · rfl

theorem State.performReq_bad {s : State} {r : VaultReq} {id l : Nat} (ha : r.actor = .lane id l) (h : s.findsError r = true) :
    s.performReq r = s.eccFound id r [l] r.va := by
  rw [State.performReq, ha, h]

theorem exec_vaultWriteApply {s : State} {n : Nat} {r : VaultReq} (h : s.vreqs.find? (fun q => q.id == n) = some r) :
    exec (.vaultWriteApply n) s = whenever (r.kind.writes && s.reqReady r) s (s.performReq r) := by
  have hrun : exec (.vaultWriteApply n) s = execVaultWriteApply n s := rfl
  rw [hrun, execVaultWriteApply, h]

theorem exec_vaultReadReply {s : State} {n : Nat} {r : VaultReq} (h : s.vreqs.find? (fun q => q.id == n) = some r) :
    exec (.vaultReadReply n) s = whenever (!r.kind.writes && r.kind.loads && s.reqReady r) s (s.performReq r) := by
  have hrun : exec (.vaultReadReply n) s = execVaultReadReply n s := rfl
  rw [hrun, execVaultReadReply, h]

/-- The step that performs a request of a lane whose word cannot be corrected. -/
theorem gives_ecc {s : State} {n : Nat} {r : VaultReq} {id l : Nat} {P : State → Prop}
    (h : s.vreqs.find? (fun q => q.id == n) = some r) (hr : s.reqReady r = true) (ha : r.actor = .lane id l)
    (he : s.findsError r = true) (hP : P (s.eccFound id r [l] r.va)) :
    Gives (if r.kind.writes = true then Instr.vaultWriteApply n else Instr.vaultReadReply n) s P := by
  rw [← State.performReq_bad ha he] at hP
  by_cases hw : r.kind.writes = true
  · rw [if_pos hw]
    exact gives_whenever (exec_vaultWriteApply h) (by rw [hw, hr]; rfl) hP
  · rw [if_neg hw]
    have hreads : r.readsWord = true := (Bool.and_eq_true_iff.mp he).1
    have hl : r.kind.loads = true := by
      rw [VaultReq.readsWord, Bool.eq_false_iff.mpr hw, Bool.false_and, Bool.or_false] at hreads
      exact hreads
    exact gives_whenever (exec_vaultReadReply h) (by rw [Bool.eq_false_iff.mpr hw, hl, hr]; rfl) hP

/-- Settles O34: writes, reads, and words that cannot be corrected. -/
theorem vaultRequestsArePerformed : Obligations.VaultRequestsArePerformed := by
  unfold Obligations.VaultRequestsArePerformed
  intro s n r hfind hready hsize hnext
  have hid : r.id = n := by simpa using List.find?_some hfind
  dsimp only
  refine ⟨fun hw hgood => ?_, fun hw hl hgood => ?_, fun id l g x ha he hg hx hp => ⟨fun ho => ?_, fun ho hin hth => ?_⟩⟩
  · refine gives_whenever (exec_vaultWriteApply hfind) (by rw [hw, hready]; rfl) ?_
    rw [State.performReq_good hgood, if_pos hw]
    obtain ⟨hgone, hsilent⟩ := State.performWrite_silent (s := s) hw (hid ▸ hnext)
    refine ⟨hsilent, hgone, fun v hk => ?_, fun op et sat x new hk => ?_, fun v id l g hk ha hg => ?_⟩
    · obtain ⟨hv, -, hbroke, hafter⟩ := State.performWrite_write (s := s) hk (hid ▸ hnext)
      exact ⟨by rw [hv, Memory.readNat_writeNat], hbroke, hafter⟩
    · obtain ⟨hv, -, hres, hbroke⟩ := State.performWrite_atom (s := s) hk
      refine ⟨hres, ?_⟩
      cases hnew : atomNew op et.toNat sat (Memory.readNat s.vault r.pa r.size) x.toNat new.toNat with
      | none => rw [hnew] at hv; exact hv
      | some v =>
        rw [hnew] at hv hbroke
        exact ⟨by rw [hv]; exact Memory.readNat_writeNat _ _ _ _, hbroke rfl⟩
    · obtain ⟨hv, -, hres, hbroke, hfree⟩ := State.performWrite_sc hk ha hg
      refine ⟨fun hr => ?_, fun hr => ?_, hfree⟩
      · have hheld : (g.reserved l == some (granuleOf r.pa)) = true := by rw [hr]; exact beq_self_eq_true _
        rw [hheld] at hv hres
        exact ⟨by rw [hv]; exact Memory.readNat_writeNat _ _ _ _, hbroke hheld, hres⟩
      · have hheld : (g.reserved l == some (granuleOf r.pa)) = false := by simpa using hr
        rw [hheld] at hv hres
        exact ⟨hv, hres⟩
  · refine gives_whenever (exec_vaultReadReply hfind) (by rw [hw, hl, hready]; rfl) ?_
    rw [State.performReq_good hgood, hw, if_neg Bool.false_ne_true]
    exact s.performRead_spec r
  · exact gives_ecc hfind hready ha he (State.eccFound_waits ha hg hx hp ho)
  · exact gives_ecc hfind hready ha he (State.eccFound_traps ha hg hx hp ho hin hth)

end Sys2Proof.Machine
end

section
/-! PROOFS. A result written to p63, which keeps reading 1. -/

namespace Sys2Proof.Machine

/-- The word's gang in the small machine. -/
def psetCtx : Ctx := ctxOf aGang { slices := 0xFF, pc := 0x10000, park := none, since := 0 }

theorem psetCtx_issuing : (machineOf aGang).issuing = some psetCtx :=
  machineOf_issuing (x := { slices := 0xFF, pc := 0x10000, park := none, since := 0 }) (by decide +kernel)

/-- The word has executed, and no result is on its way. -/
def wentIdle (g : Gang) : Bool := decide (g.groups = psetCtx.groupsAt (psetCtx.pc + 4)) && g.pend.isEmpty

/-- A word leaves a gang that satisfies f. -/
def leavesGang (i : Instr) (s : State) (f : Gang → Bool) : Bool := match exec i s with
  | .next t => match t.gang? 3 with
    | some g => f g
    | none => false
  | _ => false

theorem leavesGang_pset : leavesGang (.pset 63 0) (machineOf aGang) wentIdle = true := by decide +kernel

theorem exists_of_leavesGang {i : Instr} {s : State} {f : Gang → Bool} (h : leavesGang i s f = true) :
    ∃ t g, exec i s = .next t ∧ t.gang? 3 = some g ∧ f g = true := by
  unfold leavesGang at h
  split at h
  · next t ht =>
    split at h
    · next g hg => exact ⟨t, g, ht, hg, h⟩
    · cases h
  · cases h

/-- Refutes O7: the destination of a PSET of p63 is said to have a result on its way. p63 reads 1 whatever is written to it
(R38), and the model keeps no result for it: PSET p63, 0 in every lane of a gang leaves none on its way. -/
theorem not_resultsAppearAtTheirLatency : ¬ Obligations.ResultsAppearAtTheirLatency := by
  unfold Obligations.ResultsAppearAtTheirLatency
  rintro ⟨-, h⟩
  obtain ⟨t, g, ht, hg, hf⟩ := exists_of_leavesGang leavesGang_pset
  obtain ⟨hgroups, hpend⟩ : g.groups = psetCtx.groupsAt (psetCtx.pc + 4) ∧ g.pend = [] := by
    simpa [wentIdle] using hf
  have hpset := (h (machineOf aGang) psetCtx 0 0 0 63 0 0 0 0 0 0 psetCtx_issuing (2, _) (.head _)
    (.pset 63 0, psetCtx.takers.map (fun l => RegElem.p 63 l)) (List.mem_of_getElem? (i := 13) rfl) t ht g hg).2 hgroups (by decide +kernel) (.p 63 0) (by decide +kernel)
  obtain ⟨x, hx, -⟩ := hpset.1
  rw [hpend] at hx
  exact absurd hx List.not_mem_nil

end Sys2Proof.Machine
end
section
/-! PROOFS. O43: a request of one run at its module. The checks and reads of `FarReq.work` for one run, what the folds of
`Module.readPieces`, `writePieces` and `redPieces` leave in a module's bytes, and the steps that answer a request. -/

namespace Sys2Proof.Machine

/-! ### One run -/

theorem Module.refusedPages_one (m : Module) (pkg part : Nat) (need : Need) (p : Piece) :
    m.refusedPages pkg part need [p] = if m.acceptsPage pkg part need [p] p then [] else [p.page] := by
  cases h : m.acceptsPage pkg part need [p] p <;> simp [Module.refusedPages, h]

/-- The checks pass one run that a window accepts, and the source run, if there is one. -/
structure FarReq.Passes (r : FarReq) (pkg part id_ : Nat) (m : Module) (p : Piece) (src : List Piece) : Prop where
  on : r.on id_ = [p]
  srcOn : r.srcOn id_ = src
  accepts : m.acceptsPage pkg part r.kind.need [p] p = true
  srcAccepts : m.refusedPages pkg part Need.load src = []

theorem badBytes_none (ps : List Piece) : badBytes [] ps = [] := by simp [badBytes]

theorem dropChunks_none (base : Nat) (t : Tbl (Option Byte)) : dropChunks base [] t = t := by simp [dropChunks]

/-- The bytes that a request has been sent, or reads from its runs ps and its source runs src. -/
def FarReq.input (r : FarReq) (m : Module) (ps src : List Piece) : Tbl (Option Byte) := match r.kind with
  | .get _ | .mcast _ _ _ _ _ => m.readPieces ps
  | .copy _ _ _ | .red _ _ _ _ => m.readPieces src
  | .fill _ len pat => fillBytes pat len
  | _ => r.src

/-- What a request that passes its checks works on: its run, with the bytes that its kind reads. -/
theorem FarReq.work_passes {r : FarReq} {pkg part id_ : Nat} {m : Module} {p : Piece} {src : List Piece}
    (h : r.Passes pkg part id_ m p src) : r.work pkg part id_ m [] = ⟨[], [p], r.input m [p] src⟩ := by
  obtain ⟨hon, hsrc, hacc, hsacc⟩ := h
  have hpages : m.refusedPages pkg part r.kind.need [p] = [] := by simp [Module.refusedPages_one, hacc]
  unfold FarReq.work FarReq.input
  rw [hon, hsrc]
  cases hc : r.kind <;> rw [hc] at hpages <;>
    simp [hpages, hsacc, refusals, badBytes_none, dropChunks_none, eccFails]

/-- One run that no window accepts: its first byte is a PERMISSION failure, and nothing is worked on. -/
theorem FarReq.work_refused {r : FarReq} {pkg part id_ : Nat} {m : Module} {p : Piece} (hon : r.on id_ = [p])
    (hsrc : r.srcOn id_ = []) (hacc : m.acceptsPage pkg part r.kind.need [p] p = false) {b : BoxDesc}
    (hk : r.kind = .get b ∨ r.kind = .put b) :
    (r.work pkg part id_ m []).fails = [(moduleKey p.local_, ⟨Cause.permission, p.far, false, 0⟩)] ∧
    (r.work pkg part id_ m []).ok = [] := by
  unfold FarReq.work
  rw [hon, hsrc]
  obtain hk | hk := hk <;>
    rw [hk] at hacc ⊢ <;>
    simp [Module.refusedPages_one, hacc, refusals, badBytes_none, eccFails]

/-! ### Bytes of runs -/

theorem bytesFrom_cons (off : Nat) (b : Byte) (bs : List Byte) :
    bytesFrom off (b :: bs) = (off, some b) :: bytesFrom (off + 1) bs := by
  simp [bytesFrom, List.zipIdx_succ, Nat.add_left_comm, Nat.add_comm]

/-- Bytes put into a table from an offset on. -/
theorem get_putBytes_bytesFrom (bs : List Byte) (off : Nat) (t : Tbl (Option Byte)) (k : Nat) :
    Tbl.get none (putBytes t (bytesFrom off bs)) k =
      if off ≤ k ∧ k < off + bs.length then bs[k - off]? else Tbl.get none t k := by
  induction bs generalizing off t with
  | nil => rw [if_neg (by simp)]; rfl
  | cons b bs ih =>
    have hput : putBytes t (bytesFrom off (b :: bs)) = putBytes (Tbl.set none t off (some b)) (bytesFrom (off + 1) bs) := by
      rw [bytesFrom_cons]; rfl
    rw [hput, ih, Tbl.get_set]
    obtain hk | rfl | hk := Nat.lt_trichotomy k off
    · rw [if_neg (by omega), if_neg (by omega), if_neg (by omega)]
    · rw [if_neg (by omega), if_pos rfl, if_pos (by simp)]
      simp
    · obtain ⟨d, rfl⟩ : ∃ d, k = off + (d + 1) := ⟨k - off - 1, by omega⟩
      rw [if_neg (by omega : off + (d + 1) ≠ off), Nat.add_sub_cancel_left, List.getElem?_cons_succ,
        show off + (d + 1) - (off + 1) = d by omega]
      exact if_congr (by simp; omega) rfl rfl

theorem wf_putBytes {t xs : Tbl (Option Byte)} (h : Tbl.wf none t = true) : Tbl.wf none (putBytes t xs) = true := by
  induction xs generalizing t with
  | nil => exact h
  | cons x xs ih => exact ih (Tbl.wf_set h)

theorem get_putBytes_of_mem {t xs : Tbl (Option Byte)} {k : Nat} {v : Option Byte}
    (hone : ∀ e ∈ xs, e.1 = k → e.2 = v) (hin : (∃ e ∈ xs, e.1 = k) ∨ Tbl.get none t k = v) :
    Tbl.get none (putBytes t xs) k = v := by
  induction xs generalizing t with
  | nil => exact hin.resolve_left (by simp)
  | cons x xs ih =>
    refine ih (fun e he => hone e (by simp [he])) ?_
    by_cases hx : x.1 = k
    · right
      subst hx
      exact (Tbl.get_set_same ..).trans (hone x (by simp) rfl)
    · refine Or.imp_right (fun h => (Tbl.get_set_other _ _ _ (Ne.symm hx)).trans h) ?_
      simpa [hx] using hin

/-- What a table in canonical form holds is in the table into which its entries are put. -/
theorem get_putBytes_of_get {t xs : Tbl (Option Byte)} (hx : Tbl.wf none xs = true) {k : Nat} {b : Byte}
    (h : Tbl.get none xs k = some b) : Tbl.get none (putBytes t xs) k = some b := by
  refine get_putBytes_of_mem (fun e he hk => ?_) (.inl ⟨(k, some b), Tbl.mem_get h (by simp), rfl⟩)
  obtain ⟨k', v⟩ := e
  subst hk
  exact (Tbl.get_of_mem_wf hx he).symm.trans h

theorem Memory.readBytes_eq_map (m : Memory) (a n : Nat) :
    Memory.readBytes m a n = (List.range n).map (fun j => Memory.readByte m (a + j)) := by
  induction n generalizing a with
  | zero => rfl
  | succ n ih => simp [Memory.readBytes, ih, List.range_succ_eq_map, Nat.add_assoc, Nat.add_comm 1]

/-- The bytes of one run, by local offset. -/
theorem Module.get_readPieces_one (m : Module) (p : Piece) {i : Nat} (hi : i < p.len) :
    Tbl.get none (m.readPieces [p]) (p.local_ + i) = some (Memory.readByte m.mem (p.offset + i)) := by
  have hbytes := get_putBytes_bytesFrom (Memory.readBytes m.mem p.offset p.len) p.local_ [] (p.local_ + i)
  rw [Memory.readBytes_length, if_pos (by omega), Nat.add_sub_cancel_left] at hbytes
  exact hbytes.trans (by rw [Memory.readBytes_eq_map]; simp [hi])

theorem Module.wf_readPieces_one (m : Module) (p : Piece) : Tbl.wf none (m.readPieces [p]) = true :=
  wf_putBytes rfl

theorem Tbl.get_map_keys {α : Type} (d : α) (g : Nat → α) (ks : List Nat) (k : Nat) :
    Tbl.get d (ks.map (fun i => (i, g i))) k = if k ∈ ks then g k else d := by
  induction ks with
  | nil => rfl
  | cons j ks ih =>
    by_cases hj : j = k
    · simp [Tbl.get, hj]
    · simp [Tbl.get, hj, Ne.symm hj, ih]

/-- The pattern of FFILL at a local offset. -/
theorem get_fillBytes (pat : DWord) {len i : Nat} (hi : i < len) :
    Tbl.get none (fillBytes pat len) i = some (pat.extractLsb' (8 * (i % 8)) 8) :=
  (Tbl.get_map_keys none _ _ _).trans (if_pos (List.mem_range.mpr hi))

/-- A run takes the bytes that the source holds, and no other byte changes. -/
theorem Module.readByte_writePieces_one (m : Module) (src : Tbl (Option Byte)) (p : Piece) (x : Nat) :
    Memory.readByte (m.writePieces src [p]).mem x =
      if p.offset ≤ x ∧ x < p.offset + p.len then
        (Tbl.get none src (p.local_ + (x - p.offset))).getD (Memory.readByte m.mem x)
      else Memory.readByte m.mem x := by
  unfold Module.writePieces
  simp only [List.foldl_cons, List.foldl_nil]
  generalize p.len = n
  induction n with
  | zero => rw [if_neg (by omega)]; rfl
  | succ n ih =>
    rw [List.range_succ, List.foldl_append]
    simp only [List.foldl_cons, List.foldl_nil]
    by_cases hx : x = p.offset + n
    · subst hx
      cases hb : Tbl.get none src (p.local_ + n) <;> simp_all
    · have hin : (p.offset ≤ x ∧ x < p.offset + (n + 1)) ↔ (p.offset ≤ x ∧ x < p.offset + n) := by omega
      cases hb : Tbl.get none src (p.local_ + n) with
      | none => simpa only [hin] using ih
      | some b => simpa only [hin, Memory.readByte_writeByte_other _ _ hx] using ih

/-! ### Reductions -/

/-- One element of a reduction: the source bytes, where all of them are there, added to those at its place. -/
def redElem (fmt : Nat) (src : Tbl (Option Byte)) (p : Piece) (n : Nat) (mem : Memory) (i : Nat) : Memory :=
  let ys := (List.range n).map (fun j => Tbl.get none src (p.local_ + n * i + j))
  if ys.all Option.isSome then
    let y := leNat (ys.map (fun b => b.getD 0))
    let a := p.offset + n * i
    Memory.writeNat mem a n (redAdd fmt (Memory.readNat mem a n) y)
  else mem

theorem Module.redPieces_one (m : Module) (fmt : Nat) (src : Tbl (Option Byte)) (p : Piece) :
    (m.redPieces fmt src [p]).mem = (List.range (p.len / (if fmt = 0 then 2 else 4))).foldl
      (redElem fmt src p (if fmt = 0 then 2 else 4)) m.mem := rfl

/-- The sum at an element whose source bytes are those of a run of a memory. -/
theorem redElem_of_bytes {fmt n i so : Nat} {src : Tbl (Option Byte)} {p : Piece} {from_ : Memory} (mem : Memory)
    (hsrc : ∀ j < n, Tbl.get none src (p.local_ + n * i + j) = some (Memory.readByte from_ (so + n * i + j))) :
    redElem fmt src p n mem i = Memory.writeNat mem (p.offset + n * i) n
      (redAdd fmt (Memory.readNat mem (p.offset + n * i) n) (Memory.readNat from_ (so + n * i) n)) := by
  have hys : (List.range n).map (fun j => Tbl.get none src (p.local_ + n * i + j)) =
      (Memory.readBytes from_ (so + n * i) n).map some := by
    rw [Memory.readBytes_eq_map, List.map_map]
    exact List.map_congr_left (fun j hj => hsrc j (List.mem_range.mp hj))
  unfold redElem
  rw [hys]
  simp [Memory.readNat, List.map_map, Function.comp_def]

/-- After the first k elements: each of them is the sum, and every byte outside them is as before. -/
theorem foldl_redElem {fmt n so k : Nat} {src : Tbl (Option Byte)} {p : Piece} {mem : Memory}
    (hsrc : ∀ i < k, ∀ j < n, Tbl.get none src (p.local_ + n * i + j) = some (Memory.readByte mem (so + n * i + j))) :
    let after := (List.range k).foldl (redElem fmt src p n) mem
    (∀ x, (x < p.offset ∨ p.offset + n * k ≤ x) → Memory.readByte after x = Memory.readByte mem x) ∧
    ∀ i < k, Memory.readNat after (p.offset + n * i) n =
      redAdd fmt (Memory.readNat mem (p.offset + n * i) n) (Memory.readNat mem (so + n * i) n) % 256 ^ n := by
  induction k with
  | zero => exact ⟨fun x _ => rfl, fun i hi => absurd hi (by omega)⟩
  | succ k ih =>
    obtain ⟨hout, hin⟩ := ih (fun i hi => hsrc i (by omega))
    rw [List.range_succ, List.foldl_append]
    generalize (List.range k).foldl (redElem fmt src p n) mem = mid at hout hin ⊢
    simp only [List.foldl_cons, List.foldl_nil]
    have helem : redElem fmt src p n mid k = Memory.writeNat mid (p.offset + n * k) n
        (redAdd fmt (Memory.readNat mid (p.offset + n * k) n) (Memory.readNat mem (so + n * k) n)) :=
      redElem_of_bytes mid (fun j hj => hsrc k (by omega) j hj)
    have hkeep : Memory.readNat mid (p.offset + n * k) n = Memory.readNat mem (p.offset + n * k) n :=
      congrArg leNat (Memory.readBytes_congr (fun x _ _ => hout x (by omega)))
    rw [helem, hkeep]
    refine ⟨fun x hx => ?_, fun i hi => ?_⟩
    · have hsucc : n * (k + 1) = n * k + n := Nat.mul_succ ..
      rw [← hout x (by omega)]
      exact Memory.readByte_writeBytes_other _ _ _ _ (by rw [leBytes_length]; omega)
    · obtain rfl | hlt : i = k ∨ i < k := by omega
      · exact Memory.readNat_writeNat ..
      · have hstep : n * i + n ≤ n * k := by
          have := Nat.mul_le_mul_left n hlt
          rwa [Nat.mul_succ] at this
        rw [← hin i hlt]
        exact Memory.readNat_writeNat_apart _ (by omega)

/-! ### The steps -/

/-- No engine of the module is at work on a request that self-refresh holds back. -/
def State.Quiet (s : State) (modid : Nat) : Prop :=
  ∀ j q, s.req? j = some q → q.kind.paused = true → s.atWork j q modid = false

/-- A forced self-refresh stops every engine of the module that is at work on a request. -/
def State.stopEngines (modid : Nat) (acc : State) (r : Nat × FarReq) : State :=
  if r.2.kind.paused && acc.atWork r.1 r.2 modid then (acc.stopAt r.1 modid).1 else acc

theorem exec_forcedSelfRefresh (modid : Nat) (s : State) : exec (.forcedSelfRefresh modid) s =
    .next (((listed s.reqs).foldl (State.stopEngines modid) s).modModule modid (fun m => { m with refresh := true })) := rfl

/-- With no engine at work none is stopped. -/
theorem State.foldl_stopEngines_of_quiet {s : State} {modid : Nat} (h : s.Quiet modid) {rs : List (Nat × FarReq)}
    (hrs : ∀ e ∈ rs, e ∈ listed s.reqs) : rs.foldl (State.stopEngines modid) s = s := by
  induction rs with
  | nil => rfl
  | cons e rs ih =>
    have hidle : (e.2.kind.paused && s.atWork e.1 e.2 modid) = false := by
      cases hp : e.2.kind.paused with
      | false => rfl
      | true => exact h e.1 e.2 (mem_listed (hrs e (by simp))) hp
    have hstep : State.stopEngines modid s e = s := by simp [State.stopEngines, hidle]
    rw [List.foldl_cons, hstep]
    exact ih (fun e he => hrs e (by simp [he]))

theorem gives_forcedSelfRefresh (s : State) (modid : Nat) : Gives (.forcedSelfRefresh modid) s (fun t =>
    (t.module modid).refresh = true ∧
    (s.Quiet modid → t = s.putModule modid { s.module modid with refresh := true })) := by
  refine ⟨_, exec_forcedSelfRefresh modid s, ?_, fun hq => ?_⟩
  · simp [State.modModule]
  · rw [State.foldl_stopEngines_of_quiet hq (fun e he => he)]
    rfl

/-- A reduction is at work at the module. -/
def State.summing (s : State) (modid : Nat) : Bool :=
  (listed s.reqs).any (fun r => (match r.2.kind with
    | .red _ _ _ _ => true
    | _ => false) && s.atWork r.1 r.2 modid)

theorem execRefreshGrant_eq (modid : Nat) (s : State) : execRefreshGrant modid s =
    whenever ((s.module modid).asked && !s.summing modid) s
      (s.modModule modid (fun m => { m with asked := false, refresh := true })) := rfl

theorem State.summing_of_red {s : State} {id modid : Nat} {r : FarReq} (hr : s.req? id = some r) {f d a l : Nat}
    (hk : r.kind = .red f d a l) (hw : s.atWork id r modid = true) : s.summing modid = true := by
  refine List.any_eq_true.mpr ⟨(id, r), mem_listed_of_get hr, ?_⟩
  simp [hk, hw]

theorem State.summing_of_quiet {s : State} {modid : Nat} (h : s.Quiet modid) : s.summing modid = false := by
  refine List.any_eq_false.mpr fun e he => ?_
  cases hk : e.2.kind <;> simp
  exact h e.1 e.2 (mem_listed he) (by rw [hk]; rfl)

/-- A request may be performed at the module in this cycle. -/
def State.arrives (s : State) (id modid : Nat) (r : FarReq) : Bool :=
  r.sent && !r.held && r.modules.contains modid && !r.arrived.contains modid && s.firstAt id r modid &&
    s.reachesModule modid && !s.reqHalted r && !((s.module modid).refresh && r.kind.paused)

/-- A page refused under FLUSHREQ is among those that the module refuses. -/
def State.refusesStale (s : State) (modid : Nat) (r : FarReq) : Bool :=
  match r.kind with
  | .walk => false
  | _ => (s.module modid).flushRefused s.pkg (s.teamPart r.team) r.kind.need (r.on modid) ||
      (s.module modid).flushRefused s.pkg (s.teamPart r.team) Need.load (r.srcOn modid)

/-- The state in which the module has performed a request. -/
def State.performedAt (s : State) (id modid : Nat) (r : FarReq) : State :=
  let done := r.perform s.pkg (s.teamPart r.team) modid (s.module modid) []
  ((s.putReq id done.1.walkEnded).putModule modid done.2).staleRefusal (s.teamPart r.team) (s.refusesStale modid r)

theorem exec_moduleRequestArrival {s : State} {id modid : Nat} {r : FarReq} (hr : s.req? id = some r) :
    exec (.moduleRequestArrival id modid []) s = whenever (s.arrives id modid r) s (s.performedAt id modid r) := by
  show execModuleRequestArrival id modid [] s = _
  unfold execModuleRequestArrival
  rw [hr]
  rfl

theorem State.module_staleRefusal (s : State) (part : Nat) (hit : Bool) (n : Nat) :
    (s.staleRefusal part hit).module n = s.module n := by cases hit <;> rfl

theorem State.req_staleRefusal (s : State) (part : Nat) (hit : Bool) (n : Nat) :
    (s.staleRefusal part hit).req? n = s.req? n := by cases hit <;> rfl

/-- A request without a walk keeps its kind and its tag, is performed at one module more, and has the failures of the work. -/
theorem FarReq.perform_kept (r : FarReq) (pkg part id_ : Nat) (m : Module) (hleft : r.left = []) (hwalk : r.walk = none) :
    let done := (r.perform pkg part id_ m []).1
    done.walkEnded = done ∧ done.arrived = r.arrived ++ [id_] ∧ done.kind = r.kind ∧ done.tag = r.tag ∧
      done.fails = r.fails ++ (r.work pkg part id_ m []).fails := by
  have hwork : r.workLeft pkg part id_ m [] = r.work pkg part id_ m [] := by simp [FarReq.workLeft, hleft]
  unfold FarReq.perform FarReq.walkEnded
  rw [hwork]
  cases hk : r.kind <;> simp [hwalk]

theorem gives_performed {s : State} {id modid : Nat} {r : FarReq} {P : State → FarReq → Prop} (hr : s.req? id = some r)
    (hgo : s.arrives id modid r = true) (harr : r.arrived = []) (hleft : r.left = []) (hwalk : r.walk = none)
    (h : ∀ t : State, t.module modid = (r.perform s.pkg (s.teamPart r.team) modid (s.module modid) []).2 →
      P t (r.perform s.pkg (s.teamPart r.team) modid (s.module modid) []).1) :
    Gives (.moduleRequestArrival id modid []) s (fun t =>
      ∃ r', t.req? id = some r' ∧ r'.arrived = [modid] ∧ r'.kind = r.kind ∧ r'.tag = r.tag ∧ P t r') := by
  obtain ⟨hended, harrived, hkind, htag, -⟩ := r.perform_kept s.pkg (s.teamPart r.team) modid (s.module modid) hleft hwalk
  refine gives_whenever (exec_moduleRequestArrival hr) hgo ⟨_, ?_, by simpa [harr] using harrived, hkind, htag, h _ ?_⟩
  · rw [State.performedAt, State.req_staleRefusal, hended]
    exact Tbl.get_set_same none s.reqs id (some _)
  · rw [State.performedAt, State.module_staleRefusal]
    exact State.module_putModule_same ..

section Kinds

variable {s : State} {id modid : Nat} {r : FarReq} {p : Piece} {src : List Piece} {P : State → FarReq → Prop}
  (hr : s.req? id = some r) (hgo : s.arrives id modid r = true) (harr : r.arrived = []) (hleft : r.left = [])
  (hwalk : r.walk = none)
include hr hgo harr hleft hwalk

/-- A run that no window accepts is written nowhere and records its failure. -/
theorem gives_run_refused {b : BoxDesc} (hk : r.kind = .get b ∨ r.kind = .put b) (hon : r.on modid = [p])
    (hsrc : r.srcOn modid = [])
    (hacc : (s.module modid).acceptsPage s.pkg (s.teamPart r.team) r.kind.need [p] p = false) :
    Gives (.moduleRequestArrival id modid []) s (fun t =>
      ∃ r', t.req? id = some r' ∧ r'.arrived = [modid] ∧ r'.kind = r.kind ∧ r'.tag = r.tag ∧
        (t.module modid).mem = (s.module modid).mem ∧
        r'.fails = r.fails ++ [(moduleKey p.local_, ⟨Cause.permission, p.far, false, 0⟩)]) := by
  obtain ⟨hfails, hok⟩ := FarReq.work_refused hon hsrc hacc hk
  refine gives_performed (P := fun t r' => (t.module modid).mem = (s.module modid).mem ∧
    r'.fails = r.fails ++ [(moduleKey p.local_, ⟨Cause.permission, p.far, false, 0⟩)]) hr hgo harr hleft hwalk
    (fun t ht => ⟨?_, ?_⟩)
  · rw [ht]
    unfold FarReq.perform FarReq.workLeft
    obtain hk | hk := hk <;> simp [hk, hleft, hok, FarKind.writeTo, Module.writePieces]
  · obtain ⟨-, -, -, -, hfailed⟩ := r.perform_kept s.pkg (s.teamPart r.team) modid (s.module modid) hleft hwalk
    rw [hfailed, hfails]

variable (hpass : r.Passes s.pkg (s.teamPart r.team) modid (s.module modid) p src)
include hpass

/-- A request that passes records no failure. -/
theorem gives_run_passed
    (h : ∀ t : State, t.module modid = (r.perform s.pkg (s.teamPart r.team) modid (s.module modid) []).2 →
      P t (r.perform s.pkg (s.teamPart r.team) modid (s.module modid) []).1) :
    Gives (.moduleRequestArrival id modid []) s (fun t =>
      ∃ r', t.req? id = some r' ∧ r'.arrived = [modid] ∧ r'.kind = r.kind ∧ r'.tag = r.tag ∧
        r'.fails = r.fails ∧ P t r') := by
  refine gives_performed (P := fun t r' => r'.fails = r.fails ∧ P t r') hr hgo harr hleft hwalk (fun t ht => ⟨?_, h t ht⟩)
  obtain ⟨-, -, -, -, hfailed⟩ := r.perform_kept s.pkg (s.teamPart r.team) modid (s.module modid) hleft hwalk
  rw [hfailed, FarReq.work_passes hpass]
  simp

/-- A request that writes its run takes its bytes from what it has been sent or reads. -/
theorem gives_run_written (hk : (∃ b, r.kind = .put b) ∨ (∃ d a l, r.kind = .copy d a l) ∨ ∃ d l v, r.kind = .fill d l v)
    {byteAt : Nat → Byte}
    (hbytes : ∀ i < p.len, (Tbl.get none (r.input (s.module modid) [p] src) (p.local_ + i)).getD
      (Memory.readByte (s.module modid).mem (p.offset + i)) = byteAt i) :
    Gives (.moduleRequestArrival id modid []) s (fun t =>
      ∃ r', t.req? id = some r' ∧ r'.arrived = [modid] ∧ r'.kind = r.kind ∧ r'.tag = r.tag ∧ r'.fails = r.fails ∧
        (∀ x, (x < p.offset ∨ p.offset + p.len ≤ x) →
          Memory.readByte (t.module modid).mem x = Memory.readByte (s.module modid).mem x) ∧
        ∀ i < p.len, Memory.readByte (t.module modid).mem (p.offset + i) = byteAt i) := by
  refine gives_run_passed hr hgo harr hleft hwalk hpass (P := fun t _ => (∀ x, (x < p.offset ∨ p.offset + p.len ≤ x) →
          Memory.readByte (t.module modid).mem x = Memory.readByte (s.module modid).mem x) ∧
        ∀ i < p.len, Memory.readByte (t.module modid).mem (p.offset + i) = byteAt i) (fun t ht => ?_)
  have hmem : t.module modid = (s.module modid).writePieces (r.input (s.module modid) [p] src) [p] := by
    rw [ht]
    unfold FarReq.perform FarReq.workLeft
    rw [hleft, FarReq.work_passes hpass]
    obtain ⟨b, hk⟩ | ⟨d, a, l, hk⟩ | ⟨d, l, v, hk⟩ := hk <;> simp [hk, FarKind.writeTo]
  rw [hmem]
  refine ⟨fun x hx => ?_, fun i hi => ?_⟩
  · rw [Module.readByte_writePieces_one, if_neg (by omega)]
  · rw [Module.readByte_writePieces_one, if_pos (by omega), Nat.add_sub_cancel_left]
    exact hbytes i hi

end Kinds

/-- One run passes the checks of a request without a source, or whose source is one accepted run of the same module. -/
theorem FarReq.passes_of_pieces {r : FarReq} {pkg part modid : Nat} {m : Module} {p : Piece} (hps : r.pieces = [p])
    (hp : p.modid = modid) (hacc : m.acceptsPage pkg part r.kind.need [p] p = true) :
    (r.srcPieces = [] → r.Passes pkg part modid m p []) ∧
    ∀ q, r.srcPieces = [q] → q.modid = modid → m.acceptsPage pkg part Need.load [q] q = true →
      r.Passes pkg part modid m p [q] := by
  have hon : r.on modid = [p] := by simp [FarReq.on, hps, hp]
  refine ⟨fun hsrc => ⟨hon, by simp [FarReq.srcOn, hsrc], hacc, by simp [Module.refusedPages]⟩, fun q hsrc hq hqacc => ?_⟩
  exact ⟨hon, by simp [FarReq.srcOn, hsrc, hq], hacc, by simp [Module.refusedPages_one, hqacc]⟩

/-- The request arrives where every condition of an arrival stands. -/
theorem State.arrives_of {s : State} {id modid : Nat} {r : FarReq} {p : Piece} (hsent : r.sent = true)
    (hheld : r.held = false) (hps : r.pieces = [p]) (hp : p.modid = modid) (harr : r.arrived = [])
    (hfirst : s.firstAt id r modid = true) (hreach : s.reachesModule modid = true) (hhalt : s.reqHalted r = false)
    (hawake : (s.module modid).refresh = false ∨ r.kind.paused = false) : s.arrives id modid r = true := by
  have hmod : modid ∈ r.modules := by simp [FarReq.modules, hps, hp]
  obtain h | h := hawake <;> simp [State.arrives, hsent, hheld, hmod, harr, hfirst, hreach, hhalt, h]

/-! ### What the kinds leave -/

section Effects

variable {s : State} {id modid : Nat} {r : FarReq} {p : Piece} {src : List Piece}
  (hr : s.req? id = some r) (hgo : s.arrives id modid r = true) (harr : r.arrived = []) (hleft : r.left = [])
  (hwalk : r.walk = none)
include hr hgo harr hleft hwalk

/-- FGET holds the bytes of its run and leaves the module (R243). -/
theorem gives_run_read (hpass : r.Passes s.pkg (s.teamPart r.team) modid (s.module modid) p src) {b : BoxDesc}
    (hk : r.kind = .get b) : Gives (.moduleRequestArrival id modid []) s (fun t =>
      ∃ r', t.req? id = some r' ∧ r'.arrived = [modid] ∧ r'.kind = r.kind ∧ r'.tag = r.tag ∧
        t.module modid = s.module modid ∧ r'.fails = r.fails ∧
        ∀ i < p.len, Tbl.get none r'.src (p.local_ + i) = some (Memory.readByte (s.module modid).mem (p.offset + i))) := by
  obtain ⟨t, he, r', hreq, harr', hkind, htag, hfails, hmod, hsrc⟩ := gives_run_passed hr hgo harr hleft hwalk hpass
    (P := fun t r' => t.module modid = s.module modid ∧ ∀ i < p.len,
      Tbl.get none r'.src (p.local_ + i) = some (Memory.readByte (s.module modid).mem (p.offset + i))) (fun t ht => by
      refine ⟨ht.trans (by simp [FarReq.perform, hk]), fun i hi => ?_⟩
      have hread : (r.perform s.pkg (s.teamPart r.team) modid (s.module modid) []).1.src =
          putBytes r.src ((s.module modid).readPieces [p]) := by
        unfold FarReq.perform FarReq.workLeft
        rw [hleft, FarReq.work_passes hpass]
        simp [hk, FarReq.input]
      rw [hread]
      exact get_putBytes_of_get (Module.wf_readPieces_one _ _) (Module.get_readPieces_one _ _ hi))
  exact ⟨t, he, r', hreq, harr', hkind, htag, hmod, hfails, hsrc⟩

/-- FRULE installs its words in the partition's program slot (R246). -/
theorem gives_run_rule (hpass : r.Passes s.pkg (s.teamPart r.team) modid (s.module modid) p src) {prog mva : Nat}
    {words : List Word} (hk : r.kind = .rule prog words mva) : Gives (.moduleRequestArrival id modid []) s (fun t =>
      ∃ r', t.req? id = some r' ∧ r'.arrived = [modid] ∧ r'.kind = r.kind ∧ r'.tag = r.tag ∧ r'.fails = r.fails ∧
        t.module modid = { s.module modid with programs := (t.module modid).programs } ∧
        ∀ j, Tbl.get [] (t.module modid).programs j =
          if j = 16 * s.teamPart r.team + prog then words else Tbl.get [] (s.module modid).programs j) := by
  refine gives_run_passed hr hgo harr hleft hwalk hpass
    (P := fun t _ => t.module modid = { s.module modid with programs := (t.module modid).programs } ∧
      ∀ j, Tbl.get [] (t.module modid).programs j =
        if j = 16 * s.teamPart r.team + prog then words else Tbl.get [] (s.module modid).programs j) (fun t ht => ?_)
  have hmod : t.module modid = { s.module modid with
      programs := Tbl.set [] (s.module modid).programs (16 * s.teamPart r.team + prog) words } := by
    rw [ht]
    unfold FarReq.perform FarReq.workLeft
    rw [hleft, FarReq.work_passes hpass]
    simp [hk]
  rw [hmod]
  exact ⟨rfl, fun j => Tbl.get_set ..⟩

/-- FRED adds to each element the source element at the same offset (R244). -/
theorem gives_run_reduced {q : Piece}
    (hpass : r.Passes s.pkg (s.teamPart r.team) modid (s.module modid) p [q]) {fmt d a l : Nat}
    (hk : r.kind = .red fmt d a l) (hlocal : q.local_ = p.local_) (hlen : q.len = p.len) {n : Nat}
    (hn : n = if fmt = 0 then 2 else 4) : Gives (.moduleRequestArrival id modid []) s (fun t =>
      ∃ r', t.req? id = some r' ∧ r'.arrived = [modid] ∧ r'.kind = r.kind ∧ r'.tag = r.tag ∧ r'.fails = r.fails ∧
        (∀ x, (x < p.offset ∨ p.offset + p.len ≤ x) →
          Memory.readByte (t.module modid).mem x = Memory.readByte (s.module modid).mem x) ∧
        ∀ i < p.len / n, Memory.readNat (t.module modid).mem (p.offset + n * i) n =
          redAdd fmt (Memory.readNat (s.module modid).mem (p.offset + n * i) n)
            (Memory.readNat (s.module modid).mem (q.offset + n * i) n) % 256 ^ n) := by
  refine gives_run_passed hr hgo harr hleft hwalk hpass
    (P := fun t _ => (∀ x, (x < p.offset ∨ p.offset + p.len ≤ x) →
          Memory.readByte (t.module modid).mem x = Memory.readByte (s.module modid).mem x) ∧
        ∀ i < p.len / n, Memory.readNat (t.module modid).mem (p.offset + n * i) n =
          redAdd fmt (Memory.readNat (s.module modid).mem (p.offset + n * i) n)
            (Memory.readNat (s.module modid).mem (q.offset + n * i) n) % 256 ^ n) (fun t ht => ?_)
  have hmem : (t.module modid).mem = (List.range (p.len / n)).foldl
      (redElem fmt ((s.module modid).readPieces [q]) p n) (s.module modid).mem := by
    rw [ht, hn, ← Module.redPieces_one]
    unfold FarReq.perform FarReq.workLeft
    rw [hleft, FarReq.work_passes hpass]
    simp [hk, FarReq.input, FarKind.writeTo]
  have hcover : n * (p.len / n) ≤ p.len := Nat.mul_div_le ..
  have hsrc : ∀ i < p.len / n, ∀ j < n, Tbl.get none ((s.module modid).readPieces [q]) (p.local_ + n * i + j) =
      some (Memory.readByte (s.module modid).mem (q.offset + n * i + j)) := fun i hi j hj => by
    have hstep : n * i + n ≤ n * (p.len / n) := by
      have := Nat.mul_le_mul_left n hi
      rwa [Nat.mul_succ] at this
    rw [← hlocal, Nat.add_assoc, Nat.add_assoc]
    exact Module.get_readPieces_one _ _ (by omega)
  obtain ⟨hout, hin⟩ := foldl_redElem (fmt := fmt) hsrc
  rw [hmem]
  exact ⟨fun x hx => hout x (by omega), hin⟩

end Effects

/-- The sum of FRED as its bytes hold it (R244). -/
theorem redAdd_mod (fmt x y : Nat) : redAdd fmt x y % 256 ^ (if fmt = 0 then 2 else 4) =
    (if fmt = 0 then (Fmt.bf16.add RndEnv.rne x y).1
      else if fmt = 1 then (Fmt.f32.add RndEnv.rne x y).1 else x + y) % 256 ^ (if fmt = 0 then 2 else 4) := by
  match fmt with
  | 0 => rfl
  | 1 => rfl
  | fmt + 2 =>
    rw [if_neg (by omega), if_neg (by omega), if_neg (by omega)]
    exact Nat.mod_mod_of_dvd _ (by decide)

/-- Settles O43: one request of one run goes through `FarReq.work` and `FarReq.perform` at its module. -/
theorem modulesPerformTheirRuns : Obligations.ModulesPerformTheirRuns := by
  unfold Obligations.ModulesPerformTheirRuns
  intro s id modid r p hr m part byte outside
  refine ⟨gives_forcedSelfRefresh s modid, ⟨_, rfl, rfl⟩, rfl, fun hasked hquiet => ?_, fun f d a l hk hwork => ?_,
    fun hrefresh hpaused => ?_, fun hreach => ?_, ?_⟩
  · rw [execRefreshGrant_eq, State.summing_of_quiet hquiet]
    simp only [show (s.module modid).asked = true from hasked]
    rfl
  · rw [execRefreshGrant_eq, State.summing_of_red hr hk hwork, Bool.not_true, Bool.and_false]
    rfl
  · refine ⟨_, exec_moduleRequestArrival hr, if_neg ?_⟩
    simp [State.arrives, show (s.module modid).refresh = true from hrefresh, hpaused]
  · refine ⟨_, exec_moduleRequestArrival hr, if_neg ?_⟩
    simp [State.arrives, hreach]
  intro hsent hheld hps hp harr hleft hwalk hfirst hreach hhalt hawake gives
  have hgo := State.arrives_of hsent hheld hps hp harr hfirst hreach hhalt hawake
  refine ⟨fun b hk hsrc hacc => ?_, fun hacc => ?_⟩
  · exact gives_run_refused hr hgo harr hleft hwalk hk (by simp [FarReq.on, hps, hp]) (by simp [FarReq.srcOn, hsrc]) hacc
  obtain ⟨hbare, hwith⟩ := FarReq.passes_of_pieces hps hp hacc
  refine ⟨fun b hk hsrc => ?_, fun b hk hsrc => ?_, fun dst len pat hk hsrc hlen => ?_,
    fun dst from_ len q hk hsrc hq hqacc hlocal hlen => ?_, ?_,
    fun prog words mva hk hsrc => ?_⟩
  · exact gives_run_read hr hgo harr hleft hwalk (hbare hsrc) hk
  · exact gives_run_written hr hgo harr hleft hwalk (hbare hsrc) (.inl ⟨b, hk⟩) (fun i hi => by simp [FarReq.input, hk]; rfl)
  · refine gives_run_written hr hgo harr hleft hwalk (hbare hsrc) (.inr (.inr ⟨dst, len, pat, hk⟩)) (fun i hi => ?_)
    simp only [FarReq.input, hk]
    rw [get_fillBytes pat (by omega)]
    rfl
  · refine gives_run_written hr hgo harr hleft hwalk (hwith q hsrc hq hqacc) (.inr (.inl ⟨dst, from_, len, hk⟩))
      (fun i hi => ?_)
    simp only [FarReq.input, hk]
    rw [← hlocal, Module.get_readPieces_one _ _ (by omega)]
    rfl
  · intro fmt dst from_ len q hk hsrc hq hqacc hlocal hlen n sum
    have hred := gives_run_reduced hr hgo harr hleft hwalk (hwith q hsrc hq hqacc) hk hlocal hlen (rfl : n = _)
    simp only [show ∀ x y, redAdd fmt x y % 256 ^ n = sum x y % 256 ^ n from redAdd_mod fmt] at hred
    exact hred
  · exact gives_run_rule hr hgo harr hleft hwalk (hbare hsrc) hk

end Sys2Proof.Machine
end
section
/-! PROOFS. O44, its pure part: what each rule word of a walk does (R248-R251, Table 8.9), its runs and its ends (R252, R253,
Table 8.10), and the check of a pointer (R252, R398). -/

namespace Sys2Proof.Machine

/-! ### Operands -/

/-- The field of n bits at bit lo of a word. -/
def wordField (x lo n : Nat) : Nat := x / 2 ^ lo % 2 ^ n

/-- A number of n bits sign-extended to 64. -/
def signed64 (v n : Nat) : Nat := if v < 2 ^ (n - 1) then v else v + 2 ^ 64 - 2 ^ n

theorem sext64_eq {n v : Nat} (hn : 1 ≤ n) (hn' : n ≤ 64) (hv : v < 2 ^ n) : sext64 n v = signed64 v n := by
  have hhalf : 2 ^ n = 2 * 2 ^ (n - 1) := by rw [← pow_succ']; congr 1; omega
  have htop : 2 ^ n ≤ 2 ^ 64 := Nat.pow_le_pow_right (by norm_num) hn'
  unfold sext64 asInt signed64
  rw [Nat.mod_eq_of_lt hv]
  by_cases h : v < 2 ^ (n - 1)
  · simp only [Bool.true_and, Nat.not_le.mpr h, decide_false, Bool.false_eq_true, if_false, if_pos h]
    omega
  · simp only [Bool.true_and, Nat.not_lt.mp h, decide_true, if_true, if_neg h]
    omega

theorem Walk.reg_lt (k : Walk) (i : Nat) : k.reg i < 2 ^ 64 := (Tbl.get 0 k.w i).isLt

theorem asInt_eq_toInt (v : Nat) : asInt true 64 v = (BitVec.ofNat 64 v).toInt := by
  rw [BitVec.toInt_eq_toNat_cond, BitVec.toNat_ofNat]
  unfold asInt
  simp only [Bool.true_and, decide_eq_true_eq]
  split_ifs <;> omega

/-! ### Steps of a walk -/

/-- A walk that writes one register and goes on at the next rule. -/
def Walk.Sets (k k' : Walk) (i v : Nat) : Prop :=
  k' = { k with rule := k.rule + 1, w := k'.w } ∧ ∀ j, k'.reg j = if j = i then v % 2 ^ 64 else k.reg j

theorem Walk.sets_putReg (k : Walk) (i v : Nat) : k.Sets (k.putReg i v).nextRule i v := by
  refine ⟨rfl, fun j => ?_⟩
  show (Tbl.get 0 (Tbl.set 0 k.w i (BitVec.ofNat 64 v)) j).toNat = _
  rw [Tbl.get_set]
  split_ifs
  · exact BitVec.toNat_ofNat ..
  · rfl

/-- A walk that has counted one step, if the limit allows it (R251). -/
def Walk.stepped (k : Walk) : Walk := { k with steps := k.steps + 1, run := 0 }

theorem Walk.step_past {k : Walk} (h : k.limit < k.steps + 1) (f : Walk → Walk) : k.step f = k.finish 3 0 k.rule k.p :=
  if_pos h

theorem Walk.step_within {k : Walk} (h : k.steps + 1 ≤ k.limit) (f : Walk → Walk) : k.step f = f k.stepped :=
  if_neg (by omega)

/-- A walk whose pointer takes p (R251, R252). -/
def Walk.Moves (m : Module) (pkg part : Nat) (k k' : Walk) (p : Nat) : Prop :=
  (k.limit < k.steps + 1 → k' = k.finish 3 0 k.rule k.p) ∧
  (k.steps + 1 ≤ k.limit →
    (∀ o, m.translate pkg part k.mseq true p 1 = .ok o → k' = { k.stepped with p := p, rule := k.rule + 1 }) ∧
    (∀ e, m.translate pkg part k.mseq true p 1 = .error e → k' = { k.stepped with p := p }.fails e p))

theorem Walk.moves_step (m : Module) (pkg part : Nat) (k : Walk) (p : Walk → Nat) {q : Nat} (hp : p k.stepped = q) :
    Walk.Moves m pkg part k (k.step (fun k => Walk.move m pkg part k (p k))) q := by
  refine ⟨fun h => Walk.step_past h _, fun h => ⟨fun o ho => ?_, fun e he => ?_⟩⟩
  · rw [Walk.step_within h, hp, Walk.move, show k.stepped.mseq = k.mseq from rfl, ho]
    rfl
  · rw [Walk.step_within h, hp, Walk.move, show k.stepped.mseq = k.mseq from rfl, he]
    rfl

/-- A walk that begins again at its first rule (R251). -/
def Walk.Retries (k k' : Walk) : Prop :=
  (k.limit < k.steps + 1 → k' = k.finish 3 0 k.rule k.p) ∧
  (k.steps + 1 ≤ k.limit →
    k' = { k.stepped with p := k.start, w := k'.w, staged := [], rule := 0, retries := min (k.retries + 1) 255 } ∧
    ∀ j, k'.reg j = if j = 0 then k.start % 2 ^ 64 else 0)

theorem Walk.retries_retry (k : Walk) : k.Retries k.retry := by
  refine ⟨fun h => Walk.step_past h _, fun h => ?_⟩
  rw [Walk.retry, Walk.step_within h]
  refine ⟨rfl, fun j => ?_⟩
  show (Tbl.get 0 (Tbl.set 0 [] 0 (BitVec.ofNat 64 k.start)) j).toNat = _
  rw [Tbl.get_set]
  split_ifs
  · exact BitVec.toNat_ofNat ..
  · rfl

/-! ### Rule words -/

section Words

variable (m : Module) (pkg part : Nat) (k : Walk) (x : Nat)

/-- The second operand of a branch, and of the other I-forms (R249). -/
def Walk.branchOperand : Nat := if wordField x 21 1 = 1 then signed64 (wordField x 6 15) 15 else k.reg (wordField x 22 3)
def Walk.operand (imm : Nat) : Nat := if wordField x 21 1 = 1 then imm else k.reg (wordField x 18 3)

theorem bit_iff (n : Nat) : bit x n = true ↔ wordField x n 1 = 1 := by simp [bit, wordField]

theorem Walk.branchOperand_eq : (if bit x 21 then sext64 15 (bits x 20 6) else k.reg (bits x 24 22)) = k.branchOperand x :=
  if_congr (bit_iff x 21) (sext64_eq (by omega) (by omega) (Nat.mod_lt _ (by norm_num))) rfl

theorem Walk.branchOperand_lt : k.branchOperand x < 2 ^ 64 := by
  have hfield : wordField x 6 15 < 2 ^ 15 := Nat.mod_lt _ (by norm_num)
  have hreg := k.reg_lt (wordField x 22 3)
  unfold branchOperand signed64
  split_ifs <;> omega

theorem Walk.second_add : k.second 8 x = k.operand x (signed64 (wordField x 0 16) 16) :=
  if_congr (bit_iff x 21) (sext64_eq (by omega) (by omega) (Nat.mod_lt _ (by norm_num))) rfl

theorem Walk.second_and : k.second 9 x = k.operand x (wordField x 0 16) := if_congr (bit_iff x 21) rfl rfl

theorem Walk.second_shift : k.second 10 x = k.operand x (wordField x 0 6) := if_congr (bit_iff x 21) rfl rfl

theorem toInt_lt_iff {v w : Nat} : asInt true 64 v < asInt true 64 w ↔
    (BitVec.ofNat 64 v).toInt < (BitVec.ofNat 64 w).toInt := by rw [asInt_eq_toInt, asInt_eq_toInt]

/-- Where a branch goes on. -/
def Walk.branch (c : Bool) : Walk := if c then { k with rule := wordField x 0 6 } else { k with rule := k.rule + 1 }

/-- A branch: rule words 2, 3 and 4 (Table 8.9). -/
theorem Walk.plain_branch :
    (wordField x 28 4 = 2 → Walk.plain m pkg part k x = k.branch x (k.reg (wordField x 25 3) == k.branchOperand x)) ∧
    (wordField x 28 4 = 3 → Walk.plain m pkg part k x = k.branch x (k.reg (wordField x 25 3) != k.branchOperand x)) ∧
    (wordField x 28 4 = 4 → Walk.plain m pkg part k x = k.branch x (decide ((BitVec.ofNat 64 (k.reg (wordField x 25 3))).toInt <
      (BitVec.ofNat 64 (k.branchOperand x)).toInt))) := by
  refine ⟨fun h => ?_, fun h => ?_, fun h => ?_⟩ <;> unfold Walk.plain <;> rw [show bits x 31 28 = _ from h]
  · simp only [Walk.branchOperand_eq]
    rfl
  · simp only [Walk.branchOperand_eq]
    rfl
  · simp only [Walk.branchOperand_eq, toInt_lt_iff]
    rfl

/-- A move of the pointer: rule words 5 and 6. -/
theorem Walk.plain_move :
    (wordField x 28 4 = 5 → Walk.Moves m pkg part k (Walk.plain m pkg part k x) (k.reg (wordField x 25 3))) ∧
    (wordField x 28 4 = 6 → Walk.Moves m pkg part k (Walk.plain m pkg part k x)
      ((k.reg (wordField x 22 3) + k.reg (wordField x 25 3) % 2 ^ wordField x 16 6 * 2 ^ wordField x 12 4) % 2 ^ 64)) := by
  refine ⟨fun h => ?_, fun h => ?_⟩ <;> unfold Walk.plain <;> rw [show bits x 31 28 = _ from h]
  · exact Walk.moves_step m pkg part k (fun k => k.reg (bits x 27 25)) rfl
  · exact Walk.moves_step m pkg part k
      (fun k => (k.reg (bits x 24 22) + k.reg (bits x 27 25) % 2 ^ bits x 21 16 * 2 ^ bits x 15 12) % 2 ^ 64) rfl

/-- A result in a register: rule words 7 to 10. -/
theorem Walk.plain_sets :
    (wordField x 28 4 = 7 → k.Sets (Walk.plain m pkg part k x) (wordField x 25 3)
      (k.key.foldl (fun h b => (h ^^^ b.toNat) * 0x100000001B3 % 2 ^ 64) (k.reg (wordField x 22 3)))) ∧
    (wordField x 28 4 = 8 → k.Sets (Walk.plain m pkg part k x) (wordField x 25 3)
      (k.reg (wordField x 22 3) + k.operand x (signed64 (wordField x 0 16) 16))) ∧
    (wordField x 28 4 = 9 → k.Sets (Walk.plain m pkg part k x) (wordField x 25 3)
      (k.reg (wordField x 22 3) &&& k.operand x (wordField x 0 16))) ∧
    (wordField x 28 4 = 10 → k.Sets (Walk.plain m pkg part k x) (wordField x 25 3)
      (k.reg (wordField x 22 3) / 2 ^ (k.operand x (wordField x 0 6) % 64))) := by
  refine ⟨fun h => ?_, fun h => ?_, fun h => ?_, fun h => ?_⟩ <;> unfold Walk.plain <;> rw [show bits x 31 28 = _ from h]
  · exact k.sets_putReg _ _
  · rw [← Walk.second_add]
    exact k.sets_putReg _ _
  · rw [← Walk.second_and]
    exact k.sets_putReg _ _
  · rw [← Walk.second_shift]
    exact k.sets_putReg _ _

/-- A retry, and the ends that a word names: rule words 12 to 14. -/
theorem Walk.plain_ends :
    (wordField x 28 4 = 12 → k.Retries (Walk.plain m pkg part k x)) ∧
    (wordField x 28 4 = 13 → Walk.plain m pkg part k x =
      if wordField x 27 1 = 1 then k.finish 1 0 k.rule k.p else { k with rule := k.rule + 1 }) ∧
    (wordField x 28 4 = 14 → Walk.plain m pkg part k x = k.finish 2 0 k.rule k.p) := by
  refine ⟨fun h => ?_, fun h => ?_, fun h => ?_⟩ <;> unfold Walk.plain <;> rw [show bits x 31 28 = _ from h]
  · exact k.retries_retry
  · exact if_congr (bit_iff x 27) rfl rfl
  · rfl

/-- A word whose read has returned bytes (Table 8.9). -/
theorem Walk.gotBytes_spec (bs : List Byte) :
    (wordField x 28 4 = 0 → k.Sets (k.gotBytes x bs) (wordField x 25 3) (leNat bs)) ∧
    (wordField x 28 4 = 1 → k.Sets (k.gotBytes x bs) (wordField x 25 3)
      (if leNat (k.key.take bs.length) = leNat bs then 0
        else if leNat bs < leNat (k.key.take bs.length) then 1 else 2 ^ 64 - 1)) ∧
    (wordField x 28 4 = 11 →
      (leNat bs ≠ k.reg (wordField x 25 3) ∨ leNat bs % 2 = 1 → k.Retries (k.gotBytes x bs)) ∧
      (leNat bs = k.reg (wordField x 25 3) → leNat bs % 2 = 0 → k.gotBytes x bs = { k with rule := k.rule + 1 })) ∧
    (wordField x 28 4 = 13 → k.gotBytes x bs = if wordField x 27 1 = 1 then
      { k with staged := bs }.finish 1 0 k.rule k.p else { k with rule := k.rule + 1, staged := bs }) := by
  refine ⟨fun h => ?_, fun h => ?_, fun h => ?_, fun h => ?_⟩ <;> unfold Walk.gotBytes <;>
    simp only [show bits x 31 28 = _ from h]
  · exact k.sets_putReg _ _
  · exact k.sets_putReg _ _
  · refine ⟨fun hbad => ?_, fun hsame heven => ?_⟩
    · rw [if_pos (by exact hbad)]
      exact k.retries_retry
    · exact if_neg (by rintro (hne | hodd); exacts [hne hsame, by omega])
  · exact if_congr (bit_iff x 27) rfl rfl

/-- The read that a rule word asks for (Table 8.9). -/
theorem ruleRead_eq : ruleRead x = (if wordField x 28 4 = 0 ∨ wordField x 28 4 = 11 then some (8, true)
    else if wordField x 28 4 = 1 then some (wordField x 20 5 + 1, false)
    else if wordField x 28 4 = 13 ∧ wordField x 16 9 ≠ 0 then some (wordField x 16 9, false) else none) := by
  unfold ruleRead
  rw [show bits x 31 28 = wordField x 28 4 from rfl, show bits x 24 16 = wordField x 16 9 from rfl,
    show bits x 24 20 = wordField x 20 5 from rfl]
  have hop : wordField x 28 4 < 16 := Nat.mod_lt _ (by norm_num)
  generalize wordField x 28 4 = op at hop ⊢
  interval_cases op <;> simp

end Words

/-! ### Runs and ends -/

/-- One word of a run, or the end of the program (R248). -/
theorem Walk.runGo_succ (m : Module) (pkg part : Nat) (k : Walk) (n : Nat) :
    (k.words[k.rule]? = none → Walk.runGo m pkg part (n + 1) k = k.finish 5 0 k.words.length k.p) ∧
    (∀ w, k.words[k.rule]? = some w →
      (k.run = 64 → Walk.runGo m pkg part (n + 1) k = k.finish 3 0 k.rule k.p) ∧
      (k.run ≠ 64 → ∀ len al, ruleRead w.toNat = some (len, al) →
        (∀ o, m.translate pkg part k.mseq al ((k.p + w.toNat % 2 ^ 16) % 2 ^ 64) len = .ok o →
          Walk.runGo m pkg part (n + 1) k = { k with run := k.run + 1, wait := some (o, len) }) ∧
        (∀ e, m.translate pkg part k.mseq al ((k.p + w.toNat % 2 ^ 16) % 2 ^ 64) len = .error e →
          Walk.runGo m pkg part (n + 1) k = { k with run := k.run + 1 }.fails e ((k.p + w.toNat % 2 ^ 16) % 2 ^ 64))) ∧
      (k.run ≠ 64 → ruleRead w.toNat = none → Walk.runGo m pkg part (n + 1) k =
        if (Walk.plain m pkg part { k with run := k.run + 1 } w.toNat).result.isSome then
          Walk.plain m pkg part { k with run := k.run + 1 } w.toNat
        else Walk.runGo m pkg part n (Walk.plain m pkg part { k with run := k.run + 1 } w.toNat))) := by
  have hbits : ∀ y, bits y 15 0 = y % 2 ^ 16 := fun y => by simp [bits]
  rw [Walk.runGo]
  refine ⟨fun hw => by rw [hw]; rfl, fun w hw => ?_⟩
  simp only [hw]
  refine ⟨fun hrun => by rw [if_pos hrun]; rfl, fun hrun len al hread => ?_, fun hrun hread => ?_⟩
  · simp only [if_neg hrun, hread, hbits]
    exact ⟨fun o ho => by rw [ho], fun e he => by rw [he]⟩
  · simp only [if_neg hrun, hread]

/-- The bytes that a walk with this status returns: what it has staged, if it is a hit. -/
def Walk.record (k : Walk) (code : Nat) : List Byte := if code = 1 then k.staged else []

/-- The status of a walk that ends (Table 8.10). -/
def Walk.status (k : Walk) (code fdet rule lastp : Nat) : List Byte :=
  leBytes 1 code ++ leBytes 1 fdet ++ leBytes 2 k.steps ++ leBytes 2 (k.record code).length ++ leBytes 1 rule ++
    leBytes 1 k.retries ++ leBytes 8 lastp

theorem Walk.finish_result (k : Walk) (code fdet rule lastp : Nat) : (k.finish code fdet rule lastp).result =
    some (k.record code ++ List.replicate (256 - (k.record code).length) 0 ++ k.status code fdet rule lastp) := rfl

/-- A number in the status, by what stands before it and behind it. -/
theorem Walk.status_field {body st rest : List Byte} (hbody : body.length = 256) {o n x : Nat}
    (h : st.drop o = leBytes n x ++ rest) : leNat (((body ++ st).drop (256 + o)).take n) = x % 256 ^ n := by
  rw [← List.drop_drop, List.drop_left' hbody, h]
  exact leNat_take_leBytes n x rest

/-- The 272 bytes with which a walk ends (R253). -/
theorem Walk.finish_spec (k : Walk) (code fdet rule lastp : Nat) (hstaged : k.staged.length ≤ 256) :
    ∃ bs, (k.finish code fdet rule lastp).result = some bs ∧
      bs.length = 272 ∧ (∀ i < 256, bs.getD i 0 = if code = 1 then k.staged.getD i 0 else 0) ∧
      let at_ := fun o n => leNat ((bs.drop (256 + o)).take n)
      at_ 0 1 = code % 2 ^ 8 ∧ at_ 1 1 = fdet % 2 ^ 8 ∧ at_ 2 2 = k.steps % 2 ^ 16 ∧
      at_ 4 2 = (if code = 1 then k.staged.length else 0) ∧ at_ 6 1 = rule % 2 ^ 8 ∧ at_ 7 1 = k.retries % 2 ^ 8 ∧
      at_ 8 8 = lastp % 2 ^ 64 := by
  have hlen : (k.record code).length ≤ 256 := by
    unfold Walk.record
    split_ifs
    · exact hstaged
    · simp
  have hbody : (k.record code ++ List.replicate (256 - (k.record code).length) (0 : Byte)).length = 256 := by simp; omega
  have hstat : (k.status code fdet rule lastp).length = 16 := by simp [Walk.status, leBytes_length]
  refine ⟨_, k.finish_result code fdet rule lastp, by rw [List.length_append, hbody, hstat], fun i hi => ?_,
    Walk.status_field hbody (o := 0) rfl, Walk.status_field hbody (o := 1) rfl, Walk.status_field hbody (o := 2) rfl, ?_,
    Walk.status_field hbody (o := 6) rfl, Walk.status_field hbody (o := 7) rfl,
    Walk.status_field hbody (o := 8) (rest := []) (by rw [List.append_nil]; rfl)⟩
  · rw [List.getD_append _ _ _ _ (by omega)]
    have hrec : (k.record code).getD i 0 = if code = 1 then k.staged.getD i 0 else 0 := by
      unfold Walk.record
      split_ifs <;> simp
    rw [← hrec]
    by_cases hin : i < (k.record code).length
    · rw [List.getD_append _ _ _ _ hin]
    · rw [List.getD_append_right _ _ _ _ (by omega), List.getD_eq_default (l := k.record code) _ (by omega)]
      simp
  · refine (Walk.status_field hbody (o := 4) (n := 2) rfl).trans ?_
    rw [Nat.mod_eq_of_lt (by omega)]
    unfold Walk.record
    split_ifs <;> rfl

/-! ### Pointers -/

/-- A window of a partition that holds a virtual address. -/
def windowCovers (w : Window) (pkg part p : Nat) : Prop :=
  w.pkg = pkg ∧ w.part = part ∧ w.vbase * 65536 ≤ p ∧ p < (w.vbase + w.len) * 65536

theorem Module.windowAt_none {m : Module} {pkg part p : Nat} (h : ∀ w ∈ m.windows, ¬ windowCovers w pkg part p) :
    m.windowAt pkg part p = none := by
  refine List.find?_eq_none.mpr fun w hw hc => h w hw ?_
  simpa [windowCovers, and_assoc] using hc

theorem Module.windowAt_some {m : Module} {pkg part p : Nat} {w : Window} (hw : w ∈ m.windows) (hc : windowCovers w pkg part p)
    (hone : ∀ v ∈ m.windows, windowCovers v pkg part p → v = w) : m.windowAt pkg part p = some w := by
  cases hfind : m.windowAt pkg part p with
  | none =>
    refine absurd (List.find?_eq_none.mp hfind w hw) ?_
    simpa [windowCovers, and_assoc] using hc
  | some v =>
    have hv := List.find?_some hfind
    rw [hone v (List.mem_of_find?_eq_some hfind) (by simpa [windowCovers, and_assoc] using hv)]

/-- The check of a run at a virtual address (R252, R398). -/
theorem Module.translate_spec (m : Module) (pkg part : Nat) (mseq : BitVec 16) (al : Bool) (p len : Nat) :
    (2 ^ 56 ≤ p ∨ (al = true ∧ p % 8 ≠ 0) → m.translate pkg part mseq al p len = .error 1) ∧
    (p < 2 ^ 56 → (al = true → p % 8 = 0) →
      ((∀ w ∈ m.windows, ¬ windowCovers w pkg part p) → m.translate pkg part mseq al p len = .error 2) ∧
      (∀ w ∈ m.windows, windowCovers w pkg part p → (∀ v ∈ m.windows, windowCovers v pkg part p → v = w) →
        let o := w.obase * 65536 + p - w.vbase * 65536
        let refused := w.rd = false ∨ w.flushReq = true ∨ atLeast mseq w.minSeq = false ∨ 0x6000000000 < o + len
        ((w.vbase + w.len) * 65536 < p + len → m.translate pkg part mseq al p len = .error 2) ∧
        (p + len ≤ (w.vbase + w.len) * 65536 → (refused → m.translate pkg part mseq al p len = .error 3) ∧
          (¬ refused → m.translate pkg part mseq al p len = .ok o)))) := by
  refine ⟨fun h => if_pos h, fun htop hal => ?_⟩
  have hgo : ¬ (2 ^ 56 ≤ p ∨ (al = true ∧ p % 8 ≠ 0)) := by
    rintro (h | ⟨h, hodd⟩)
    exacts [absurd htop (by omega), hodd (hal h)]
  unfold Module.translate
  rw [if_neg hgo]
  refine ⟨fun hnone => by rw [Module.windowAt_none hnone], fun w hw hc hone => ?_⟩
  rw [Module.windowAt_some hw hc hone]
  refine ⟨fun hlong => if_pos hlong, fun hfits => ?_⟩
  have hin : ¬ (w.vbase + w.len) * 65536 < p + len := by omega
  have haccepts : (winAccepts w Need.load mseq &&
      decide (w.obase * 65536 + p - w.vbase * 65536 + len ≤ moduleTop)) = true ↔
      ¬ (w.rd = false ∨ w.flushReq = true ∨ atLeast mseq w.minSeq = false ∨
        0x6000000000 < w.obase * 65536 + p - w.vbase * 65536 + len) := by
    rw [Bool.and_eq_true, decide_eq_true_eq]
    simp [winAccepts, Need.load, moduleTop, and_assoc]
  exact ⟨fun hr => (if_neg hin).trans (if_neg (fun h => haccepts.mp h hr)),
    fun hr => (if_neg hin).trans (if_pos (haccepts.mpr hr))⟩

end Sys2Proof.Machine
end
section
/-! PROOFS. O44, the landing of a chunk of an FGET (R232-R234): its bytes in a scratchpad or in the slots of the team, and what
the marks and the failures that follow leave as it is. -/

namespace Sys2Proof.Machine

/-! ### What a landing step leaves -/

/-- Every byte of every scratchpad and of every slot is as before. -/
structure State.SameLocal (s t : State) : Prop where
  pads : ∀ team n x, t.padRead team n x 1 = s.padRead team n x 1
  slots : ∀ n, (t.core n).slots = (s.core n).slots

theorem State.SameLocal.refl (s : State) : s.SameLocal s := ⟨fun _ _ _ => rfl, fun _ => rfl⟩

theorem State.SameLocal.trans {s t u : State} (h : s.SameLocal t) (h' : t.SameLocal u) : s.SameLocal u :=
  ⟨fun team n x => (h'.pads team n x).trans (h.pads team n x), fun n => (h'.slots n).trans (h.slots n)⟩

theorem State.SameLocal.of_same {s t : State} (ht : t.teams = s.teams) (hc : t.cores = s.cores) : s.SameLocal t :=
  ⟨fun team n x => by unfold State.padRead State.team?; rw [ht], fun n => by unfold State.core; rw [hc]⟩

theorem State.sameLocal_putReq (s : State) (id : Nat) (r : FarReq) : s.SameLocal (s.putReq id r) := .of_same rfl rfl

theorem State.sameLocal_modGang (s : State) (id : Nat) (f : Gang → Gang) : s.SameLocal (s.modGang id f) :=
  .of_same (by simp) (by simp)

/-- A change of the marks of a team's core leaves its scratchpad. -/
theorem State.sameLocal_modTeam {s : State} {team : Nat} {f : Team → Team} (hf : ∀ t, (f t).alloc = t.alloc ∧
    ∀ n, ((f t).onCore n).map TeamCore.scratch = (t.onCore n).map TeamCore.scratch) : s.SameLocal (s.modTeam team f) := by
  refine ⟨fun tm n x => ?_, fun n => by simp [State.core]⟩
  unfold State.modTeam
  cases ht : s.team? team with
  | none => rfl
  | some t =>
    by_cases hj : tm = team
    · subst hj
      obtain ⟨halloc, hscratch⟩ := hf t
      unfold State.padRead
      rw [State.team?_putTeam_same, ht]
      dsimp only
      rw [halloc]
      have := hscratch n
      cases h1 : (f t).onCore n <;> cases h2 : t.onCore n <;> simp_all
    · unfold State.padRead
      rw [State.team?_putTeam_other _ _ hj]

theorem State.sameLocal_chunkIn (s : State) (team core : Nat) (l : Landing) (c : Nat) (failed : Bool) :
    s.SameLocal (s.chunkIn team core l c failed) := by
  have hcore : ∀ (k : TeamCore) b c f, (k.chunkIn b c f).core = k.core ∧ (k.chunkIn b c f).scratch = k.scratch := fun k b c f => by
    unfold TeamCore.chunkIn
    split_ifs <;> exact ⟨rfl, rfl⟩
  refine State.sameLocal_modTeam fun t => ?_
  split_ifs
  · refine ⟨rfl, fun n => ?_⟩
    rw [Team.onCore_modCore _ _ (fun k => (hcore k _ _ _).1)]
    cases t.onCore n with
    | none => rfl
    | some k =>
      simp only [Option.map_some]
      split_ifs
      · rw [(hcore k _ _ _).2]
      · rfl
  · exact ⟨rfl, fun n => rfl⟩

theorem State.sameLocal_postFail (s : State) (id : Nat) : s.SameLocal (s.postFail id) := by
  unfold State.postFail
  split
  · exact .refl s
  · split
    · exact .refl s
    · split_ifs
      · exact s.sameLocal_modGang _ _
      · exact (s.sameLocal_putReq _ _).trans (State.sameLocal_modGang _ _ _)

/-- A posted failure leaves the request's chunks. -/
theorem State.req_postFail {s : State} {id : Nat} {r : FarReq} (h : s.req? id = some r) :
    ∃ r', (s.postFail id).req? id = some r' ∧ r'.chunks = r.chunks := by
  unfold State.postFail
  rw [h]
  dsimp only
  split
  · exact ⟨r, h, rfl⟩
  · split_ifs
    · exact ⟨r, by rw [← h]; unfold State.req?; rw [State.modGang_reqs], rfl⟩
    · exact ⟨{ r with posted := true }, by unfold State.req?; rw [State.modGang_reqs]; exact State.req?_putReq_same .., rfl⟩

/-! ### Bytes that land -/

/-- The byte of a fetch at local offset o lands, if it is there. -/
def State.landOne (r : FarReq) (l : Landing) (s : State) (o : Nat) : State := match Tbl.get none r.src o with
  | some b => s.landByte r l o b
  | none => s

/-- The bytes from lo on, n of them, land. -/
def State.landRun (s : State) (r : FarReq) (l : Landing) (lo n : Nat) : State :=
  (List.range n).foldl (fun s i => State.landOne r l s (lo + i)) s

theorem State.landRun_succ (s : State) (r : FarReq) (l : Landing) (lo n : Nat) :
    s.landRun r l lo (n + 1) = State.landOne r l (s.landRun r l lo n) (lo + n) := by
  unfold State.landRun
  rw [List.range_succ, List.foldl_append]
  rfl

/-- One byte of a chunk lands, where it is there. -/
def State.landPair (r : FarReq) (l : Landing) (s : State) (x : Nat × Option Byte) : State := match x.2 with
  | some b => s.landByte r l x.1 b
  | none => s

theorem State.foldl_landPair {s : State} {r : FarReq} {l : Landing} {lo hi : Nat} {b : BoxDesc} (hk : r.kind = .get b) :
    (s.landingBytes r lo hi).foldl (State.landPair r l) s = s.landRun r l lo (hi - lo) := by
  unfold State.landingBytes State.landRun
  rw [hk, List.foldl_map]
  rfl

/-- A byte that lands in a scratchpad is a write of one byte, wrapped into the allocation (R192). -/
theorem State.landOne_pad {s : State} {r : FarReq} {l : Landing} {o : Nat} {b : Byte} {tm : Team} (hl : l.loc = 0)
    (ht : s.team? r.team = some tm) (hb : Tbl.get none r.src o = some b) :
    State.landOne r l s o = s.padWrite r.team r.core ((l.base + o) % tm.alloc) 1 b.toNat := by
  unfold State.landOne State.landByte State.padWriteRun
  rw [hb]
  dsimp only
  rw [if_pos hl, ht, State.padWrite_eq ht]
  simp [Memory.writeNat, leBytes, Memory.writeBytes]

/-- After n bytes: those are in the scratchpad, and no other byte of a scratchpad has changed. -/
theorem State.landRun_pad {s : State} {r : FarReq} {l : Landing} {lo n : Nat} {tm : Team} (hl : l.loc = 0)
    (ht : s.team? r.team = some tm) (hc : tm.onCore r.core ≠ none) (hpos : tm.alloc ≠ 0)
    (hsrc : ∀ i < n, (Tbl.get none r.src (lo + i)).isSome = true)
    (hapart : ∀ i < n, ∀ j < n, (l.base + (lo + i)) % tm.alloc = (l.base + (lo + j)) % tm.alloc → i = j) :
    let t := s.landRun r l lo n
    (∃ tm', t.team? r.team = some tm' ∧ tm'.alloc = tm.alloc ∧ tm'.onCore r.core ≠ none) ∧
    (∀ i < n, t.padRead r.team r.core ((l.base + (lo + i)) % tm.alloc) 1 = ((Tbl.get none r.src (lo + i)).getD 0).toNat) ∧
    ∀ team k x, (team ≠ r.team ∨ k ≠ r.core ∨ ∀ i < n, (l.base + (lo + i)) % tm.alloc ≠ x) →
      t.padRead team k x 1 = s.padRead team k x 1 := by
  induction n with
  | zero => exact ⟨⟨tm, ht, rfl, hc⟩, fun i hi => absurd hi (by omega), fun _ _ _ _ => rfl⟩
  | succ n ih =>
    obtain ⟨⟨tm', ht', halloc, hc'⟩, hin, hout⟩ := ih (fun i hi => hsrc i (by omega))
      (fun i hi j hj => hapart i (by omega) j (by omega))
    obtain ⟨b, hb⟩ := Option.isSome_iff_exists.mp (hsrc n (by omega))
    intro t
    have hstep : t = (s.landRun r l lo n).padWrite r.team r.core ((l.base + (lo + n)) % tm.alloc) 1 b.toNat := by
      rw [← halloc, ← State.landOne_pad hl ht' hb, ← State.landRun_succ]
    refine ⟨?_, fun i hi => ?_, fun team k x hx => ?_⟩
    · rw [hstep, State.padWrite_eq ht', if_neg (by omega)]
      refine ⟨_, State.team?_putTeam_same .., halloc, ?_⟩
      rw [Team.onCore_modCore _ _ (by intro _; rfl)]
      simpa using hc'
    · obtain rfl | hlt : i = n ∨ i < n := by omega
      · rw [hstep, State.padRead_padWrite_same ht' _ _ _ _ (by omega) hc', hb]
        exact Nat.mod_eq_of_lt b.isLt
      · rw [hstep, State.padRead_padWrite_other ht' _ _ _ _, hin i hlt]
        intro _
        have := mt (hapart i hi n (by omega)) (by omega)
        omega
    · rw [hstep]
      by_cases hteam : team = r.team
      · subst hteam
        rw [State.padRead_padWrite_other ht' _ _ _ _, hout]
        · exact hx.imp_right (Or.imp_right fun h i hi => h i (by omega))
        · intro hk
          have := (hx.resolve_left (by simp)).resolve_left (by simpa using hk) n (by omega)
          omega
      · rw [← hout team k x (.inl hteam), State.padRead, State.padWrite_others ht' _ _ _ _ hteam]
        rfl

/-- A byte that lands in a slot of the team. -/
theorem State.landOne_slot {s : State} {r : FarReq} {l : Landing} {o : Nat} {b : Byte} (hl : l.loc ≠ 0)
    (hb : Tbl.get none r.src o = some b) (hheld : (s.core r.core).slotHolder ((l.base + o) / 16384) = some r.team) :
    State.landOne r l s o =
      s.modCore r.core (fun k => { k with slots := Memory.writeByte k.slots (l.base + o) b }) := by
  unfold State.landOne State.landByte
  rw [hb]
  dsimp only
  rw [if_neg hl, if_pos hheld]

/-- After n bytes: those are in the slots, which the team still holds, and no other byte of the core's slots has changed. -/
theorem State.landRun_slot {s : State} {r : FarReq} {l : Landing} {lo n : Nat} (hl : l.loc ≠ 0)
    (hsrc : ∀ i < n, (Tbl.get none r.src (lo + i)).isSome = true)
    (hheld : ∀ i < n, (s.core r.core).slotHolder ((l.base + (lo + i)) / 16384) = some r.team) :
    let t := s.landRun r l lo n
    (t.core r.core).slotOwner = (s.core r.core).slotOwner ∧
    (∀ i < n, Memory.readByte (t.core r.core).slots (l.base + (lo + i)) = (Tbl.get none r.src (lo + i)).getD 0) ∧
    ∀ x, (x < l.base + lo ∨ l.base + lo + n ≤ x) →
      Memory.readByte (t.core r.core).slots x = Memory.readByte (s.core r.core).slots x := by
  induction n with
  | zero => exact ⟨rfl, fun i hi => absurd hi (by omega), fun _ _ => rfl⟩
  | succ n ih =>
    obtain ⟨howner, hin, hout⟩ := ih (fun i hi => hsrc i (by omega)) (fun i hi => hheld i (by omega))
    obtain ⟨b, hb⟩ := Option.isSome_iff_exists.mp (hsrc n (by omega))
    have hholder : ((s.landRun r l lo n).core r.core).slotHolder ((l.base + (lo + n)) / 16384) = some r.team := by
      rw [← hheld n (by omega)]
      exact congrArg (fun o => Tbl.get none o _) howner
    intro t
    have hstep : t.core r.core = { (s.landRun r l lo n).core r.core with
        slots := Memory.writeByte ((s.landRun r l lo n).core r.core).slots (l.base + (lo + n)) b } := by
      rw [show t = _ from State.landRun_succ s r l lo n, State.landOne_slot hl hb hholder]
      exact State.core_modCore_same ..
    rw [hstep]
    refine ⟨howner, fun i hi => ?_, fun x hx => ?_⟩
    · obtain rfl | hlt : i = n ∨ i < n := by omega
      · rw [hb]
        exact Memory.readByte_writeByte_same ..
      · exact (Memory.readByte_writeByte_other _ _ (by omega)).trans (hin i hlt)
    · exact (Memory.readByte_writeByte_other _ _ (by omega)).trans (hout x (by omega))

/-! ### The chunk -/

theorem State.writing_none (s : State) (actor : Actor) (agent : Nat) (effect : State → State) :
    s.writing actor agent [] false effect = effect s := by
  unfold State.writing
  rw [if_pos (by simp [State.runsReady])]
  congr 1
  unfold State.unbook
  simp

/-- A chunk of an FGET that lands on the core, in the step of its landing. -/
theorem exec_chunkLand_get {s : State} {id k : Nat} {r : FarReq} {b : BoxDesc} (hr : s.req? id = some r)
    (hk : r.kind = .get b) (hloc : b.loc ≠ 2) (hsaved : s.isSaved r.team = false) (himage : s.imageReady r.team = true) :
    exec (.chunkLand id k) s = whenever (r.chunks.contains k && s.chunkReady r (b.landing.bounds k).1 (b.landing.bounds k).2 &&
      !s.reqHalted r) s (s.landChunk id r b.landing k) := by
  show execChunkLand id k s = _
  have hl : s.landingOf r = some b.landing := by unfold State.landingOf; rw [hk]
  have hruns : s.landRuns r b.landing (b.landing.bounds k).1 (b.landing.bounds k).2 = [] :=
    if_pos (by simpa [BoxDesc.landing] using hloc)
  unfold execChunkLand
  rw [hr]
  dsimp only
  rw [hl]
  dsimp only
  unfold State.onImage
  rw [if_pos himage]
  dsimp only
  rw [hruns, State.writing_none]
  unfold State.throughImage
  rw [hsaved]
  rfl

theorem State.drained_get {s : State} {r : FarReq} {b : BoxDesc} (hk : r.kind = .get b) : s.drained r = s := by
  unfold State.drained
  rw [hk]

/-- The request without chunk k, of which n bytes have landed. -/
def FarReq.without (r : FarReq) (s : State) (l : Landing) (k n : Nat) (fs : List (Nat × FarFail)) (failed : Bool) : FarReq :=
  let mc := match s.team? r.team with
    | some t => l.mapChunk t.alloc k
    | none => 0
  { r with chunks := r.chunks.filter (· != k), landed := r.landed + n, fails := r.fails ++ fs,
           badChunks := if failed && l.loc != 2 then r.badChunks ++ [(l.loc == 1, mc)] else r.badChunks }

/-- What follows the bytes of a chunk: w, the state with the bytes, how many there are, and the failures of the vault. -/
def State.landRest (s : State) (id : Nat) (r : FarReq) (l : Landing) (k : Nat) (w : State × Nat × List (Nat × FarFail))
    (failed : Bool) : State :=
  let r1 := r.without s l k w.2.1 w.2.2 failed
  let s2 := (w.1.putReq id r1).chunkIn r.team r.core l k failed
  let s3 := match r.kind with
    | .get b => match b.bar with
      | some x => s2.creditBarrier r.team x w.2.1
      | none => s2
    | _ => s2
  let s4 := if failed then s3.postFail id else s3
  if (r.chunks.filter (· != k)).isEmpty then s4.drained r1 else s4

theorem State.landChunk_eq (s : State) (id : Nat) (r : FarReq) (l : Landing) (k : Nat) : s.landChunk id r l k =
    let bs := s.landingBytes r (l.bounds k).1 (l.bounds k).2
    let w := if l.loc = 2 then s.landVault r l (l.bounds k).1 bs
      else (bs.foldl (State.landPair r l) s, (bs.filter (fun x => x.2.isSome)).length, [])
    s.landRest id r l k w (bs.any (fun x => x.2.isNone) || !w.2.2.isEmpty || (r.walk.isSome && !r.fails.isEmpty)) := rfl

/-- A chunk of an FGET without a barrier leaves its bytes as they landed, and the request without it. -/
theorem State.landRest_get {s : State} {id k : Nat} {r : FarReq} {b : BoxDesc} {l : Landing} (hk : r.kind = .get b)
    (hbar : b.bar = none) (w : State × Nat × List (Nat × FarFail)) (failed : Bool) :
    (∃ r', (s.landRest id r l k w failed).req? id = some r' ∧ k ∉ r'.chunks) ∧
      w.1.SameLocal (s.landRest id r l k w failed) := by
  have hgone : k ∉ (r.without s l k w.2.1 w.2.2 failed).chunks := by simp [FarReq.without]
  have hkind : (r.without s l k w.2.1 w.2.2 failed).kind = .get b := hk
  unfold State.landRest
  simp only [hk, hbar]
  generalize r.without s l k w.2.1 w.2.2 failed = r1 at hgone hkind ⊢
  rw [State.drained_get hkind, ite_self]
  have hreq : ((w.1.putReq id r1).chunkIn r.team r.core l k failed).req? id = some r1 := by
    unfold State.req? State.chunkIn
    rw [State.modTeam_reqs]
    exact State.req?_putReq_same ..
  have hlocal := (w.1.sameLocal_putReq id r1).trans (State.sameLocal_chunkIn _ r.team r.core l k failed)
  split_ifs
  · obtain ⟨r', hr', hc⟩ := State.req_postFail hreq
    exact ⟨⟨r', hr', by rwa [hc]⟩, hlocal.trans (State.sameLocal_postFail _ id)⟩
  · exact ⟨⟨r1, hreq, hgone⟩, hlocal⟩

theorem State.landChunk_get {s : State} {id k : Nat} {r : FarReq} {b : BoxDesc} {l : Landing} (hk : r.kind = .get b)
    (hbar : b.bar = none) (hloc : l.loc ≠ 2) :
    (∃ r', (s.landChunk id r l k).req? id = some r' ∧ k ∉ r'.chunks) ∧
      (s.landRun r l (l.bounds k).1 ((l.bounds k).2 - (l.bounds k).1)).SameLocal (s.landChunk id r l k) := by
  rw [State.landChunk_eq]
  dsimp only
  rw [if_neg hloc, State.foldl_landPair hk]
  exact State.landRest_get hk hbar _ _

/-- The bytes of a chunk lie within 512 bytes of the place where it begins. -/
theorem Landing.bounds_span (l : Landing) (k i : Nat) (hi : (l.bounds k).1 + i < (l.bounds k).2) :
    (l.base / 512 + k) * 512 ≤ l.base + ((l.bounds k).1 + i) ∧
    l.base + ((l.bounds k).1 + i) < (l.base / 512 + k) * 512 + 512 := by
  unfold Landing.bounds at hi ⊢
  dsimp only at hi ⊢
  omega

theorem mod_inj_of_near {x y c n : Nat} (hx : c ≤ x) (hx' : x < c + 512) (hy : c ≤ y) (hy' : y < c + 512) (hn : 512 ≤ n)
    (h : x % n = y % n) : x = y := by
  obtain hle | hle := Nat.le_total x y
  · have := Nat.eq_zero_of_dvd_of_lt ((Nat.modEq_iff_dvd' hle).mp h) (by omega)
    omega
  · have := Nat.eq_zero_of_dvd_of_lt ((Nat.modEq_iff_dvd' hle).mp h.symm) (by omega)
    omega

section Chunk

variable {s : State} {id k : Nat} {r : FarReq} {b : BoxDesc} (hr : s.req? id = some r) (hk : r.kind = .get b)
  (hbar : b.bar = none) (hin : k ∈ r.chunks) (hready : s.chunkReady r (b.landing.bounds k).1 (b.landing.bounds k).2 = true)
  (hhalt : s.reqHalted r = false) (hsaved : s.isSaved r.team = false) (himage : s.imageReady r.team = true)
  (hsrc : ∀ o, (b.landing.bounds k).1 ≤ o → o < (b.landing.bounds k).2 → (Tbl.get none r.src o).isSome = true)
include hr hk hbar hin hready hhalt hsaved himage hsrc

/-- A chunk of an FGET lands in the scratchpad (R232). -/
theorem gives_chunkLand_pad {tm : Team} {tc : TeamCore} (ht : s.team? r.team = some tm) (hc : tm.onCore r.core = some tc)
    (hloc : b.loc = 0) (halloc : 512 ≤ tm.alloc) : Gives (.chunkLand id k) s (fun t =>
      (∃ r', t.req? id = some r' ∧ k ∉ r'.chunks) ∧
      (∀ o, (b.landing.bounds k).1 ≤ o → o < (b.landing.bounds k).2 →
        t.padRead r.team r.core ((b.laddr + o) % tm.alloc) 1 = ((Tbl.get none r.src o).getD 0).toNat) ∧
      ∀ team n x, (team ≠ r.team ∨ n ≠ r.core ∨ ∀ o, (b.landing.bounds k).1 ≤ o → o < (b.landing.bounds k).2 →
          (b.laddr + o) % tm.alloc ≠ x) → t.padRead team n x 1 = s.padRead team n x 1) := by
  refine gives_whenever (exec_chunkLand_get hr hk (by omega) hsaved himage) (by simp [hin, hready, hhalt]) ?_
  obtain ⟨hreq, hlocal⟩ := State.landChunk_get (s := s) (id := id) (k := k) (l := b.landing) hk hbar
    (by show b.loc ≠ 2; omega)
  have hspan := b.landing.bounds_span k
  generalize (b.landing.bounds k).1 = lo at hsrc hlocal hspan ⊢
  generalize (b.landing.bounds k).2 = hi at hsrc hlocal hspan ⊢
  obtain ⟨-, hbytes, hout⟩ := State.landRun_pad (s := s) (l := b.landing) (lo := lo) (n := hi - lo) hloc ht (by simp [hc])
    (by omega) (fun i hi' => hsrc _ (by omega) (by omega)) (fun i hi' j hj heq => by
      have := mod_inj_of_near (hspan i (by omega)).1 (hspan i (by omega)).2 (hspan j (by omega)).1
        (hspan j (by omega)).2 halloc heq
      omega)
  refine ⟨hreq, fun o hlo hhi => ?_, fun team n x hx => ?_⟩
  · have hb := hbytes (o - lo) (by omega)
    rw [Nat.add_sub_cancel' hlo] at hb
    exact (hlocal.pads ..).trans hb
  · refine (hlocal.pads ..).trans (hout team n x (hx.imp_right (Or.imp_right fun h i hi' => ?_)))
    exact h (lo + i) (by omega) (by omega)

/-- A chunk of an FGET lands in the slots of the team (R176). -/
theorem gives_chunkLand_slots (hloc : b.loc = 1) (hheld : ∀ o, (b.landing.bounds k).1 ≤ o → o < (b.landing.bounds k).2 →
      (s.core r.core).slotHolder ((b.laddr + o) / 16384) = some r.team) : Gives (.chunkLand id k) s (fun t =>
      (∃ r', t.req? id = some r' ∧ k ∉ r'.chunks) ∧
      (∀ o, (b.landing.bounds k).1 ≤ o → o < (b.landing.bounds k).2 →
        Memory.readByte (t.core r.core).slots (b.laddr + o) = (Tbl.get none r.src o).getD 0) ∧
      ∀ x, (x < b.laddr + (b.landing.bounds k).1 ∨ b.laddr + (b.landing.bounds k).2 ≤ x) →
        Memory.readByte (t.core r.core).slots x = Memory.readByte (s.core r.core).slots x) := by
  refine gives_whenever (exec_chunkLand_get hr hk (by omega) hsaved himage) (by simp [hin, hready, hhalt]) ?_
  obtain ⟨hreq, hlocal⟩ := State.landChunk_get (s := s) (id := id) (k := k) (l := b.landing) hk hbar
    (by show b.loc ≠ 2; omega)
  generalize (b.landing.bounds k).1 = lo at hsrc hlocal hheld ⊢
  generalize (b.landing.bounds k).2 = hi at hsrc hlocal hheld ⊢
  obtain ⟨-, hbytes, hout⟩ := State.landRun_slot (s := s) (l := b.landing) (lo := lo) (n := hi - lo)
    (by show b.loc ≠ 0; omega) (fun i hi' => hsrc _ (by omega) (by omega)) (fun i hi' => hheld _ (by omega) (by omega))
  rw [hlocal.slots]
  refine ⟨hreq, fun o hlo hhi => ?_, fun x hx => hout x ?_⟩
  · have hb := hbytes (o - lo) (by omega)
    rwa [Nat.add_sub_cancel' hlo] at hb
  · show x < b.laddr + lo ∨ b.laddr + lo + (hi - lo) ≤ x
    omega

end Chunk

end Sys2Proof.Machine
end
section
/-! PROOFS. O44, the end of a request under its tag (R176, R227, R229, R233): the tag, the failure posted, the barrier credited and
the counter of a follow-on that was not performed. -/

namespace Sys2Proof.Machine

/-! ### The parts of an end -/

/-- The posted failures of a request take its marks. -/
def FarReq.markPosted (r : FarReq) (id : Nat) (g : Gang) : Gang :=
  { g with posted := g.posted.map (fun p => if p.req == id then { p with chunks := r.badChunks } else p) }

/-- The bytes of a fetch that never landed are credited. -/
def State.creditEnd (s : State) (r : FarReq) : State := match r.kind with
  | .get b => match b.bar with
    | some x => if r.landed < b.size then s.creditBarrier r.team x (b.size - r.landed) else s
    | none => s
  | _ => s

/-- A follow-on that was not performed is dropped. -/
def State.followEnd (s : State) (r : FarReq) : State := match r.follow with
  | some (k, _) => if r.performed then s else s.dropFollow r k
  | none => s

/-- A request without chunks on their way has none that fail. -/
theorem State.failChunks_done {s : State} {id : Nat} {r : FarReq} (h : r.chunks = []) :
    s.failChunks id r = s ∨ s.failChunks id r = s.putReq id r := by
  unfold State.failChunks
  split
  · exact .inl rfl
  · right
    obtain ⟨⟩ := r
    simp only at h
    subst h
    simp only [List.foldl_nil, List.map_nil, ite_self]
    congr 2
    split <;> simp

theorem State.endRequest_eq {s : State} {id : Nat} {r : FarReq} (hr : s.req? id = some r)
    (h : s.failChunks id r = s ∨ s.failChunks id r = s.putReq id r) :
    ∃ s0, (s0 = s ∨ s0 = s.putReq id r) ∧ s.endRequest id =
      (((((s0.postFail id).modGang r.gang (r.markPosted id)).creditEnd r).followEnd r).finishTag r
        ((firstFail r.fails).map (fun f => f.cause))).dropReq id := by
  refine ⟨s.failChunks id r, h, ?_⟩
  have hr0 : (s.failChunks id r).req? id = some r := by
    obtain h0 | h0 := h
    · rw [h0]
      exact hr
    · rw [h0]
      exact State.req?_putReq_same ..
  unfold State.endRequest
  rw [hr]
  dsimp only
  rw [hr0]
  rfl

/-! ### What the parts keep -/

theorem State.postFail_teams (s : State) (id : Nat) : (s.postFail id).teams = s.teams := by
  unfold State.postFail
  split
  · rfl
  · split
    · rfl
    · split_ifs
      · exact State.modGang_teams ..
      · exact State.modGang_teams ..

theorem State.postFail_cores (s : State) (id : Nat) : (s.postFail id).cores = s.cores := by
  unfold State.postFail
  split
  · rfl
  · split
    · rfl
    · split_ifs
      · exact State.modGang_cores ..
      · exact State.modGang_cores ..

theorem State.creditBarrier_frame (s : State) (team b n : Nat) : (s.creditBarrier team b n).cores = s.cores ∧
    (s.creditBarrier team b n).gangs = s.gangs ∧ ∀ j, (s.creditBarrier team b n).isSaved j = s.isSaved j := by
  unfold State.creditBarrier
  cases ht : s.team? team with
  | none => exact ⟨rfl, rfl, fun _ => rfl⟩
  | some t =>
    refine ⟨State.modTeam_cores .., State.modTeam_gangs .., fun j => ?_⟩
    unfold State.isSaved State.putBarrier State.modTeam
    rw [ht]
    dsimp only
    by_cases hj : j = team
    · subst hj
      rw [State.team?_putTeam_same, ht]
      rfl
    · rw [State.team?_putTeam_other _ _ hj]

theorem State.creditEnd_frame (s : State) (r : FarReq) : (s.creditEnd r).cores = s.cores ∧
    (s.creditEnd r).gangs = s.gangs ∧ ∀ j, (s.creditEnd r).isSaved j = s.isSaved j := by
  unfold State.creditEnd
  split
  · split
    · split_ifs
      · exact State.creditBarrier_frame ..
      · exact ⟨rfl, rfl, fun _ => rfl⟩
    · exact ⟨rfl, rfl, fun _ => rfl⟩
  · exact ⟨rfl, rfl, fun _ => rfl⟩

theorem State.followEnd_frame (s : State) (r : FarReq) : (s.followEnd r).cores = s.cores ∧ (s.followEnd r).teams = s.teams := by
  unfold State.followEnd
  split
  · split_ifs
    · exact ⟨rfl, rfl⟩
    · simp [State.dropFollow, State.sweepTokens]
  · exact ⟨rfl, rfl⟩

theorem State.isSaved_congr {s t : State} (h : t.teams = s.teams) (j : Nat) : t.isSaved j = s.isSaved j := by
  unfold State.isSaved State.team?
  rw [h]

/-- The tag of a request whose team is not saved hears of its end on its core (R227). -/
theorem State.finishTag_here {s : State} {r : FarReq} (htag : r.tag < 64) (hsaved : s.isSaved r.team = false)
    (failed : Option Byte) :
    s.finishTag r failed = s.modCore r.core (fun c => c.putTag r.tag ((c.tag r.tag).finish failed)) := by
  unfold State.finishTag
  cases ht : s.team? r.team with
  | none => rfl
  | some t =>
    have hstatus : (t.status == TeamStatus.saved) = false := by rwa [State.isSaved, ht] at hsaved
    simp [noTag, htag, hstatus]

/-! ### The tag -/

/-- A tag of which one request has ended (R227, R229). -/
theorem Tag.finish_eq (g : Tag) (f : Option FarFail) : g.finish (f.map (fun x => x.cause)) =
    { g with
      pend := g.pend - 1
      state := if g.pend ≤ 1 then .ready else g.state
      err := g.err || f.isSome
      cause := match f with
        | some x => if g.err = true then g.cause else x.cause
        | none => g.cause } := by
  cases f with
  | none => simp [Tag.finish]
  | some x => cases h : g.err <;> simp [Tag.finish, h]

section End

variable {s : State} {id : Nat} {r : FarReq} (hr : s.req? id = some r) 
  (hch : s.failChunks id r = s ∨ s.failChunks id r = s.putReq id r) (htag : r.tag < 64)
  (hsaved : s.isSaved r.team = false)
include hr hch htag hsaved

/-- The state before the tag hears of the end, and the state after it. -/
theorem State.endRequest_here : ∃ s0, (s0 = s ∨ s0 = s.putReq id r) ∧ s.endRequest id =
    (((((s0.postFail id).modGang r.gang (r.markPosted id)).creditEnd r).followEnd r).modCore r.core
      (fun c => c.putTag r.tag ((c.tag r.tag).finish ((firstFail r.fails).map (fun f => f.cause))))).dropReq id := by
  obtain ⟨s0, hs0, h⟩ := State.endRequest_eq hr hch
  refine ⟨s0, hs0, ?_⟩
  rw [h, State.finishTag_here htag]
  rw [State.isSaved_congr (State.followEnd_frame _ r).2, (State.creditEnd_frame _ r).2.2,
    State.isSaved_congr (State.modGang_teams ..), State.isSaved_congr (State.postFail_teams ..)]
  obtain rfl | rfl := hs0 <;> exact hsaved

/-- The tag of a request that ends, and that the request is gone. -/
theorem State.endRequest_tag : (s.endRequest id).req? id = none ∧ ((s.endRequest id).core r.core).tag r.tag =
    ((s.core r.core).tag r.tag).finish ((firstFail r.fails).map (fun f => f.cause)) := by
  obtain ⟨s0, hs0, h⟩ := State.endRequest_here hr hch htag hsaved
  refine ⟨by rw [h]; exact State.req?_dropReq_same .., ?_⟩
  have hcores : ((((s0.postFail id).modGang r.gang (r.markPosted id)).creditEnd r).followEnd r).core r.core = s.core r.core := by
    unfold State.core
    rw [(State.followEnd_frame _ r).1, (State.creditEnd_frame _ r).1, State.modGang_cores, State.postFail_cores]
    obtain rfl | rfl := hs0 <;> rfl
  rw [h]
  generalize (((s0.postFail id).modGang r.gang (r.markPosted id)).creditEnd r).followEnd r = s4 at hcores ⊢
  have hdrop : ∀ u : State, (u.dropReq id).core r.core = u.core r.core := fun _ => rfl
  rw [hdrop, State.core_modCore_same, Core.tag_putTag_same, hcores]

/-- The barrier of a fetch that ends (R233). -/
theorem State.endRequest_barrier {b : BoxDesc} {x : Nat} {tm : Team} (hk : r.kind = .get b) (hbar : b.bar = some x)
    (ht : s.team? r.team = some tm) : ∃ tm', (s.endRequest id).team? r.team = some tm' ∧
      tm'.barrier x = if r.landed < b.size then (tm.barrier x).credit (b.size - r.landed) (tm.barrier x).phase else tm.barrier x := by
  obtain ⟨s0, hs0, h⟩ := State.endRequest_here hr hch htag hsaved
  have hteams : ((s0.postFail id).modGang r.gang (r.markPosted id)).team? r.team = some tm := by
    unfold State.team?
    rw [State.modGang_teams, State.postFail_teams]
    obtain rfl | rfl := hs0 <;> exact ht
  have hafter : (s.endRequest id).team? r.team =
      (((s0.postFail id).modGang r.gang (r.markPosted id)).creditEnd r).team? r.team := by
    rw [h]
    generalize ((s0.postFail id).modGang r.gang (r.markPosted id)).creditEnd r = s3
    exact congrArg (fun ts => Tbl.get none ts r.team) (s3.followEnd_frame r).2
  rw [hafter]
  generalize (s0.postFail id).modGang r.gang (r.markPosted id) = s2 at hteams
  unfold State.creditEnd
  simp only [hk, hbar]
  split_ifs
  · unfold State.creditBarrier State.putBarrier State.modTeam
    rw [hteams]
    dsimp only
    exact ⟨_, State.team?_putTeam_same .., Team.barrier_putBarrier_same ..⟩
  · exact ⟨tm, hteams, rfl⟩

/-! ### The gang -/

omit hch htag hsaved in
/-- A gang to which a failure may be posted. -/
theorem State.postFail_gang {g : Gang} (hg : s.gang? r.gang = some g) : ∃ P,
    (s.postFail id).gang? r.gang = some { g with posted := P } ∧
    ∀ x, firstFail r.fails = some x → r.posted = false → g.ended = false → P = g.posted ++ [r.fault id x] := by
  unfold State.postFail
  rw [hr]
  dsimp only
  cases hf : firstFail r.fails with
  | none => exact ⟨g.posted, hg, fun x hx => by cases hx⟩
  | some f =>
    dsimp only
    by_cases hp : r.posted = true
    · rw [if_pos hp, State.gang?_modGang, if_pos rfl, hg]
      exact ⟨_, rfl, fun x _ hn => by simp [hp] at hn⟩
    · rw [if_neg hp, State.gang?_modGang, if_pos rfl, show (s.putReq id { r with posted := true }).gang? r.gang = some g from hg]
      by_cases he : g.ended = true
      · exact ⟨g.posted, by simp only [Option.map_some, if_pos he], fun x _ _ hn => by simp [he] at hn⟩
      · refine ⟨_, by simp only [Option.map_some, if_neg he]; rfl, fun x hx _ _ => ?_⟩
        cases hx
        rfl

end End

theorem sweepGo_posted (held : Nat → Bool) (ts : List (Nat × Nat)) (g : Gang) : (sweepGo held ts g).posted = g.posted := by
  induction ts generalizing g with
  | nil => rfl
  | cons t ts ih =>
    unfold sweepGo
    split_ifs
    · rfl
    · exact ih _

/-- A gang whose follow-on may be dropped. -/
theorem State.followEnd_gang {s : State} {r : FarReq} {g : Gang} (hg : s.gang? r.gang = some g) :
    ∃ g', (s.followEnd r).gang? r.gang = some g' ∧ g'.posted = g.posted ∧ ∀ k ws, r.follow = some (k, ws) → g.tokens = [] →
      g'.counter k = (if r.performed = true then g.counter k else g.counter k - 1) ∧
      ∀ j, j ≠ k → g'.counter j = g.counter j := by
  unfold State.followEnd
  cases hf : r.follow with
  | none => exact ⟨g, hg, rfl, fun k ws h => by cases h⟩
  | some kws =>
    obtain ⟨k, ws⟩ := kws
    dsimp only
    by_cases hp : r.performed = true
    · rw [if_pos hp]
      refine ⟨g, hg, rfl, fun k' ws' h _ => ?_⟩
      simp [hp]
    · rw [if_neg hp, State.dropFollow, State.sweepTokens, State.gang?_modGang, if_pos rfl, State.gang?_modGang, if_pos rfl, hg]
      refine ⟨_, rfl, by rw [sweepGo_posted]; rfl, fun k' ws' h htok => ?_⟩
      cases h
      have hnil : (g.putCounter k (g.counter k - 1)).tokens = [] := htok
      dsimp only
      rw [hnil, if_neg hp]
      exact ⟨Tbl.get_set_same 0 g.k k _, fun j hj => Tbl.get_set_other 0 g.k _ hj⟩

section End

variable {s : State} {id : Nat} {r : FarReq} (hr : s.req? id = some r) 
  (hch : s.failChunks id r = s ∨ s.failChunks id r = s.putReq id r) (htag : r.tag < 64)
  (hsaved : s.isSaved r.team = false)
include hr hch htag hsaved

/-- The gang of a request that ends: its failure posted, the counter of its follow-on. -/
theorem State.endRequest_gang {g : Gang} (hg : s.gang? r.gang = some g) : ∃ g', (s.endRequest id).gang? r.gang = some g' ∧
    (∀ x, firstFail r.fails = some x → r.posted = false → g.ended = false →
      ∃ q ∈ g'.posted, q.at_ = .tag r.tag ∧ q.cause = x.cause ∧ q.addr = x.addr ∧ q.opc = r.opc) ∧
    ∀ k ws, r.follow = some (k, ws) → g.tokens = [] →
      g'.counter k = (if r.performed = true then g.counter k else g.counter k - 1) ∧
      ∀ j, j ≠ k → g'.counter j = g.counter j := by
  obtain ⟨s0, hs0, h⟩ := State.endRequest_here hr hch htag hsaved
  have hr0 : s0.req? id = some r := by
    obtain rfl | rfl := hs0
    · exact hr
    · exact State.req?_putReq_same ..
  have hg0 : s0.gang? r.gang = some g := by obtain rfl | rfl := hs0 <;> exact hg
  obtain ⟨P, hP, hpost⟩ := State.postFail_gang hr0 hg0
  have hmark : ((s0.postFail id).modGang r.gang (r.markPosted id)).gang? r.gang =
      some (r.markPosted id { g with posted := P }) := by rw [State.gang?_modGang, if_pos rfl, hP]; rfl
  have hcredit : (((s0.postFail id).modGang r.gang (r.markPosted id)).creditEnd r).gang? r.gang =
      some (r.markPosted id { g with posted := P }) := by
    rw [← hmark]
    exact congrArg (fun gs => Tbl.get none gs r.gang) (State.creditEnd_frame _ r).2.1
  obtain ⟨g', hg', hposted, hcount⟩ := State.followEnd_gang hcredit
  refine ⟨g', ?_, fun x hx hnp hlive => ?_, hcount⟩
  · rw [h]
    exact hg'
  · rw [hposted, FarReq.markPosted, hpost x hx hnp hlive]
    refine ⟨{ r.fault id x with chunks := r.badChunks }, ?_, rfl, rfl, rfl, rfl⟩
    rw [List.map_append, List.mem_append]
    right
    simp [FarReq.fault]

end End

/-! ### The step -/

theorem exec_farRequestEnd {s : State} {id : Nat} {r : FarReq} (hr : s.req? id = some r) : exec (.farRequestEnd id) s =
    whenever (r.over && s.reported r && !s.reqHalted r && !s.isSaved r.team) s (s.endRequest id) := by
  show execFarRequestEnd id s = _
  unfold execFarRequestEnd
  rw [hr]

/-- The credit of a barrier in its phase, early bytes held for the next (R233, R320). -/
theorem Barrier.credit_phase (old : Barrier) (n : Nat) : old.credit n old.phase =
    let sum := old.bytes + n
    let early := old.ebytes + (sum - min sum old.expb)
    { old with bytes := min sum old.expb, ebytes := min early old.expb, ovb := old.ovb || decide (old.expb < early) } := by
  unfold Barrier.credit
  dsimp only
  rw [if_pos rfl]
  dsimp only
  split_ifs with h
  · simp [Nat.min_eq_right h.le, h]
  · simp [Nat.min_eq_left (Nat.not_lt.mp h), h]

end Sys2Proof.Machine
end
section
/-! PROOFS. O44, what follows a request: the follow-on MMA (R176, R188), a Corbel slot filled (R241, R242), the read of a walk that
returns (R249), and a request presented again to the Lintel (R236); and the statement. -/

namespace Sys2Proof.Machine

/-! ### The follow-on MMA -/

/-- The state in which a follow-on has passed from its request to the core. -/
def State.followed (s : State) (id : Nat) (r : FarReq) : State :=
  { s.putReq id { r with performed := true } with next := s.next + 1 }

theorem exec_followOn {s : State} {id : Nat} {r : FarReq} (hr : s.req? id = some r) {k : Nat} {ws : List Word}
    (hf : r.follow = some (k, ws)) : exec (.followOnMmaAccept id) s = whenever r.followDue s
      (if s.frozen r.core || s.frozenBefore r.core s.next then
        (s.followed id r).modCore r.core (fun c => { c with heldMma := c.heldMma ++ [(s.next, r.followOp id k ws)] })
      else (s.followed id r).acceptFollow r.core (r.followOp id k ws)) := by
  show execFollowOnMmaAccept id s = _
  unfold execFollowOnMmaAccept
  rw [hr]
  dsimp only
  rw [hf]
  rfl

theorem FarReq.followDue_of {r : FarReq} (hsent : r.sent = true) (hch : r.chunks = []) (hfails : r.fails = [])
    (hperf : r.performed = false) : r.followDue = true := by simp [FarReq.followDue, hsent, hch, hfails, hperf]

theorem State.req_followed (s : State) (id : Nat) (r : FarReq) :
    (s.followed id r).req? id = some { r with performed := true } := Tbl.get_set_same none s.reqs id (some _)

/-- A follow-on whose rows or slots the team no longer holds, as its gang takes it. -/
def EngineOp.gapTaken (o : EngineOp) (a : Nat) (g : Gang) : Gang :=
  (g.postAll [o.fault Cause.slotState a]).putCounter o.k (g.counter o.k - 1)

section Accept

variable {s : State} {o : EngineOp} {core : Nat} {ws : List Word} {rows : List Nat} (hk : o.kind = .mma false ws rows)
include hk

theorem State.acceptFollow_free (hgap : (s.core core).mmaGap o.team (MDesc.of ws) = none) : s.acceptFollow core o =
    ({ s with next := s.next + 1 } : State).modCore core
      (fun c => { c with engine := c.engine ++ [{ o with id := s.next }] }) := by
  unfold State.acceptFollow
  rw [hk]
  dsimp only
  rw [hgap, ← hk]

theorem State.acceptFollow_gap {a : Nat} (hgap : (s.core core).mmaGap o.team (MDesc.of ws) = some a) :
    s.acceptFollow core o = (({ s with next := s.next + 1 } : State).modGang o.gang
      ({ o with id := s.next }.gapTaken a)).sweepTokens o.gang := by
  unfold State.acceptFollow
  rw [hk]
  dsimp only
  rw [hgap, ← hk]
  rfl

end Accept

theorem mem_insertPosted (p : Posted) (ps : List Posted) : p ∈ insertPosted p ps := by
  induction ps with
  | nil => simp [insertPosted]
  | cons q qs ih =>
    unfold insertPosted
    split_ifs <;> simp [ih]

section Follow

variable {s : State} {id : Nat} {r : FarReq} (hr : s.req? id = some r) {k : Nat} {ws : List Word}
  (hf : r.follow = some (k, ws)) (hsent : r.sent = true) (hch : r.chunks = []) (hfails : r.fails = [])
  (hperf : r.performed = false)
include hr hf hsent hch hfails hperf

/-- A follow-on joins the engine (R176). -/
theorem gives_followOn_accepted (hfree : s.frozen r.core = false) (hlater : s.frozenBefore r.core s.next = false)
    (hgap : (s.core r.core).mmaGap r.team (MDesc.of ws) = none) : Gives (.followOnMmaAccept id) s (fun t =>
      t.req? id = some { r with performed := true } ∧
      ∃ o, t.core r.core = { s.core r.core with engine := (s.core r.core).engine ++ [o] } ∧ o.gang = r.gang ∧
        o.team = r.team ∧ o.k = k ∧ o.opc = r.opc ∧ o.kind = .mma false ws [(MDesc.of ws).m]) := by
  refine gives_whenever (exec_followOn hr hf) (FarReq.followDue_of hsent hch hfails hperf) ?_
  rw [hfree, hlater, Bool.or_false, if_neg (by decide)]
  rw [State.acceptFollow_free (s := s.followed id r) (o := r.followOp id k ws) rfl hgap]
  exact ⟨s.req_followed id r, _, State.core_modCore_same .., rfl, rfl, rfl, rfl, rfl⟩

/-- A freeze holds the follow-on (R188). -/
theorem gives_followOn_held (hfrozen : s.frozen r.core = true ∨ s.frozenBefore r.core s.next = true) :
    Gives (.followOnMmaAccept id) s (fun t => t.req? id = some { r with performed := true } ∧
      ∃ o, t.core r.core = { s.core r.core with heldMma := (s.core r.core).heldMma ++ [(s.next, o)] } ∧ o.gang = r.gang ∧
        o.team = r.team ∧ o.k = k ∧ o.opc = r.opc ∧ o.kind = .mma false ws [(MDesc.of ws).m]) := by
  refine gives_whenever (exec_followOn hr hf) (FarReq.followDue_of hsent hch hfails hperf) ?_
  rw [if_pos (by simpa using hfrozen)]
  exact ⟨s.req_followed id r, _, State.core_modCore_same .., rfl, rfl, rfl, rfl, rfl⟩

/-- A follow-on whose team no longer holds its slots and rows posts SLOT_STATE and gives its counter back (R176). -/
theorem gives_followOn_dropped {a : Nat} {g : Gang} (hfree : s.frozen r.core = false)
    (hlater : s.frozenBefore r.core s.next = false) (hgap : (s.core r.core).mmaGap r.team (MDesc.of ws) = some a)
    (hg : s.gang? r.gang = some g) (hlive : g.ended = false) (htok : g.tokens = []) : Gives (.followOnMmaAccept id) s (fun t =>
      t.req? id = some { r with performed := true } ∧ t.core r.core = s.core r.core ∧
      ∃ g' q, t.gang? r.gang = some g' ∧ g'.counter k = g.counter k - 1 ∧ (∀ j, j ≠ k → g'.counter j = g.counter j) ∧
        q ∈ g'.posted ∧ q.at_ = .counter k ∧ q.cause = Cause.slotState ∧ q.addr = a ∧ q.opc = r.opc) := by
  refine gives_whenever (exec_followOn hr hf) (FarReq.followDue_of hsent hch hfails hperf) ?_
  rw [hfree, hlater, Bool.or_false, if_neg (by decide)]
  rw [State.acceptFollow_gap (s := s.followed id r) (o := r.followOp id k ws) rfl hgap]
  generalize ho : ({ r.followOp id k ws with id := (s.followed id r).next } : EngineOp) = o
  have hgang : (r.followOp id k ws).gang = r.gang := rfl
  have hg1 : ({ s.followed id r with next := (s.followed id r).next + 1 } : State).gang? r.gang = some g := hg
  have hreq := s.req_followed id r
  have hcore : ({ s.followed id r with next := (s.followed id r).next + 1 } : State).core r.core = s.core r.core := rfl
  generalize hs1 : ({ s.followed id r with next := (s.followed id r).next + 1 } : State) = s1 at hg1 hcore ⊢
  have hreq1 : s1.req? id = some { r with performed := true } := by rw [← hs1]; exact hreq
  rw [hgang]
  refine ⟨?_, ?_, ?_⟩
  · unfold State.req? State.sweepTokens
    rw [State.modGang_reqs, State.modGang_reqs]
    exact hreq1
  · unfold State.core State.sweepTokens
    rw [State.modGang_cores, State.modGang_cores]
    exact hcore
  · have hk : o.k = k := by rw [← ho]; rfl
    have htaken : (o.gapTaken a g).tokens = [] := by
      unfold EngineOp.gapTaken Gang.postAll
      rw [hlive]
      exact htok
    have hposted : o.fault Cause.slotState a ∈ (o.gapTaken a g).posted := by
      unfold EngineOp.gapTaken Gang.postAll
      rw [hlive]
      exact mem_insertPosted _ _
    refine ⟨sweepGo ((s1.modGang r.gang (o.gapTaken a)).countedBefore r.gang (o.gapTaken a g)) (o.gapTaken a g).tokens
      (o.gapTaken a g), o.fault Cause.slotState a, ?_, ?_, ?_, ?_, congrArg PostedAt.counter hk, rfl, rfl, by rw [← ho]; rfl⟩
    · rw [State.sweepTokens, State.gang?_modGang, if_pos rfl, State.gang?_modGang, if_pos rfl, hg1]
      rfl
    · rw [htaken, ← hk]
      have hkeep : (g.postAll [o.fault Cause.slotState a]).k = g.k := by unfold Gang.postAll; rw [hlive]; rfl
      exact Tbl.get_set_same 0 _ o.k _
    · intro j hj
      rw [htaken]
      have hkeep : (g.postAll [o.fault Cause.slotState a]).k = g.k := by unfold Gang.postAll; rw [hlive]; rfl
      refine (Tbl.get_set_other 0 _ _ (by rwa [hk])).trans ?_
      rw [hkeep]
      rfl
    · rw [sweepGo_posted]
      exact hposted

end Follow

/-! ### Claims of a Corbel slot -/

/-- What claims of Corbel slots leave: the cores, whether a team is saved, what the slots hold, and request id but for the
chunks that it has marked. -/
structure State.ClaimsOnly (id : Nat) (s t : State) : Prop where
  cores : t.cores = s.cores
  saved : ∀ j, t.isSaved j = s.isSaved j
  slots : ∀ cl n, t.corbelSlot cl n = { s.corbelSlot cl n with claimed := (t.corbelSlot cl n).claimed }
  req : ∀ r, s.req? id = some r → ∃ marks, t.req? id = some { r with badChunks := marks }

theorem State.ClaimsOnly.refl (id : Nat) (s : State) : State.ClaimsOnly id s s :=
  ⟨rfl, fun _ => rfl, fun _ _ => rfl, fun r h => ⟨r.badChunks, h⟩⟩

theorem State.ClaimsOnly.trans {id : Nat} {s t u : State} (h : State.ClaimsOnly id s t) (h' : State.ClaimsOnly id t u) :
    State.ClaimsOnly id s u := by
  refine ⟨h'.cores.trans h.cores, fun j => (h'.saved j).trans (h.saved j), fun cl n => ?_, fun r hr => ?_⟩
  · rw [h'.slots, h.slots]
  · obtain ⟨m, hm⟩ := h.req r hr
    obtain ⟨m', hm'⟩ := h'.req _ hm
    exact ⟨m', hm'⟩

theorem State.ClaimsOnly.foldl {id : Nat} {α : Type} {f : State → α → State} {xs : List α}
    (h : ∀ s, ∀ x ∈ xs, State.ClaimsOnly id s (f s x)) (s : State) : State.ClaimsOnly id s (xs.foldl f s) := by
  induction xs generalizing s with
  | nil => exact .refl id s
  | cons x xs ih => exact (h s x (by simp)).trans (ih (fun s y hy => h s y (by simp [hy])) _)

theorem State.ClaimsOnly.of_same {id : Nat} {s t : State} (hc : t.cores = s.cores) (ht : t.teams = s.teams)
    (hb : t.corbel = s.corbel) (hq : t.req? id = s.req? id) : State.ClaimsOnly id s t :=
  ⟨hc, State.isSaved_congr ht, fun cl n => by unfold State.corbelSlot; rw [hb],
    fun r hr => ⟨r.badChunks, by rw [hq]; exact hr⟩⟩

/-- A change of a team that keeps its status. -/
theorem State.claimsOnly_modTeam (id : Nat) (s : State) (team : Nat) {f : Team → Team} (hf : ∀ t, (f t).status = t.status) :
    State.ClaimsOnly id s (s.modTeam team f) := by
  refine ⟨by simp, fun j => ?_, fun cl n => by unfold State.corbelSlot; simp, fun r hr => ⟨r.badChunks, ?_⟩⟩
  · unfold State.modTeam
    cases ht : s.team? team with
    | none => rfl
    | some t =>
      unfold State.isSaved
      dsimp only
      by_cases hj : j = team
      · subst hj
        rw [State.team?_putTeam_same, ht]
        dsimp only
        rw [hf]
      · rw [State.team?_putTeam_other _ _ hj]
  · unfold State.req?
    rw [State.modTeam_reqs]
    exact hr

theorem State.claimsOnly_chunkIn (id : Nat) (s : State) (team core : Nat) (l : Landing) (c : Nat) (failed : Bool) :
    State.ClaimsOnly id s (s.chunkIn team core l c failed) :=
  s.claimsOnly_modTeam id team (fun t => by split_ifs <;> rfl)

/-- A gang, and a request, that forget their marks of some chunks. -/
def State.forgetGang (team core : Nat) (f : Bool × Nat → Bool) (s : State) (e : Nat × Gang) : State :=
  if e.2.team = team ∧ e.2.core = core ∧ e.2.posted.any (fun p => p.chunks.any f) then
    s.putGang e.1 { e.2 with posted := e.2.posted.map (fun p => { p with chunks := p.chunks.filter (fun x => !f x) }) }
  else s
def State.forgetReq (team core : Nat) (f : Bool × Nat → Bool) (s : State) (e : Nat × FarReq) : State :=
  if e.2.team = team ∧ e.2.core = core ∧ e.2.badChunks.any f then
    s.putReq e.1 { e.2 with badChunks := e.2.badChunks.filter (fun x => !f x) }
  else s

theorem State.forgetChunks_eq (s : State) (team core : Nat) (f : Bool × Nat → Bool) : s.forgetChunks team core f =
    (listed ((listed s.gangs).foldl (State.forgetGang team core f) s).reqs).foldl (State.forgetReq team core f)
      ((listed s.gangs).foldl (State.forgetGang team core f) s) := rfl

theorem State.claimsOnly_forgetGang (id : Nat) (team core : Nat) (f : Bool × Nat → Bool) (s : State) (e : Nat × Gang) :
    State.ClaimsOnly id s (s.forgetGang team core f e) := by
  unfold State.forgetGang
  split_ifs
  · exact .of_same rfl rfl rfl rfl
  · exact .refl id s

/-- Requests of a state forget their marks. -/
theorem State.claimsOnly_forgetReqs {id team core : Nat} {f : Bool × Nat → Bool} {s acc : State} {es : List (Nat × FarReq)}
    (hes : ∀ e ∈ es, s.req? e.1 = some e.2) (h : State.ClaimsOnly id s acc) :
    State.ClaimsOnly id s (es.foldl (State.forgetReq team core f) acc) := by
  induction es generalizing acc with
  | nil => exact h
  | cons e es ih =>
    refine ih (fun e he => hes e (by simp [he])) ?_
    unfold State.forgetReq
    split_ifs
    · refine ⟨h.cores, h.saved, h.slots, fun r hr => ?_⟩
      by_cases he : e.1 = id
      · have hsame : e.2 = r := Option.some.inj ((hes e (by simp)).symm.trans (by rw [he, hr]))
        subst hsame
        rw [← he]
        exact ⟨_, State.req?_putReq_same ..⟩
      · rw [State.req?_putReq_other _ _ (Ne.symm he)]
        exact h.req r hr
    · exact h

theorem State.claimsOnly_forgetChunks (id : Nat) (s : State) (team core : Nat) (f : Bool × Nat → Bool) :
    State.ClaimsOnly id s (s.forgetChunks team core f) := by
  rw [State.forgetChunks_eq]
  have h : State.ClaimsOnly id s ((listed s.gangs).foldl (State.forgetGang team core f) s) :=
    .foldl (fun s x _ => s.claimsOnly_forgetGang id team core f x) s
  exact h.trans (State.claimsOnly_forgetReqs (fun e he => mem_listed he) (.refl id _))

theorem State.claimsOnly_marksOut (id : Nat) (s : State) (team core : Nat) (l : Landing) :
    State.ClaimsOnly id s (s.marksOut team core l) := by
  unfold State.marksOut
  split
  · exact .refl id s
  · split_ifs
    · exact (s.claimsOnly_modTeam id team (fun t => by split_ifs <;> rfl)).trans (State.claimsOnly_forgetChunks ..)
    · exact .refl id s

theorem State.corbelSlot_putCorbel (s : State) (a b : Nat) (c : CorbelSlot) (cl n : Nat) :
    (s.putCorbel a b c).corbelSlot cl n = if 8 * cl + n = 8 * a + b then c else s.corbelSlot cl n :=
  Tbl.get_set CorbelSlot.reset s.corbel (8 * a + b) (8 * cl + n) c

theorem State.claimsOnly_putCorbel (id : Nat) (s : State) (a b : Nat) (l : List Nat) :
    State.ClaimsOnly id s (s.putCorbel a b { s.corbelSlot a b with claimed := l }) := by
  refine ⟨rfl, fun _ => rfl, fun cl n => ?_, fun q hq => ⟨q.badChunks, hq⟩⟩
  rw [State.corbelSlot_putCorbel]
  split_ifs with h
  · unfold State.corbelSlot
    rw [h]
  · rfl

/-- A claim of another request than id. -/
theorem State.claimsOnly_claimSlot {id j : Nat} (hj : j ≠ id) (s : State) (r : FarReq) (chan dest n : Nat) :
    State.ClaimsOnly id s (s.claimSlot j r chan dest n) := by
  unfold State.claimSlot
  dsimp only
  refine State.ClaimsOnly.trans ?_ (State.ClaimsOnly.foldl (fun s k _ => s.claimsOnly_chunkIn id ..) _)
  refine State.ClaimsOnly.trans ?_ (State.claimsOnly_marksOut ..)
  refine (s.claimsOnly_putCorbel id _ _ _).trans (.of_same rfl rfl rfl ?_)
  exact State.req?_putReq_other _ _ (Ne.symm hj)

/-- A request that is no unclaimed MCRECV claims nothing. -/
theorem State.tryClaim_other {s : State} {id : Nat} {r : FarReq} {cl n src len : Nat} {b : Bool} (h : r.kind = .mcast cl n b src len) :
    s.tryClaim id r = s := by
  unfold State.tryClaim
  rw [h]

theorem State.claimsOnly_tryClaim {id j : Nat} (hj : j ≠ id) (s : State) (r : FarReq) :
    State.ClaimsOnly id s (s.tryClaim j r) := by
  unfold State.tryClaim
  split
  · split_ifs
    · split
      · exact s.claimsOnly_claimSlot hj ..
      · exact .refl id s
    · exact .refl id s
  · exact .refl id s

theorem State.claimsOnly_claimAll {s : State} {id : Nat} {r : FarReq} (hr : s.req? id = some r) {cl n src len : Nat} {b : Bool}
    (hk : r.kind = .mcast cl n b src len) (cluster : Nat) : State.ClaimsOnly id s (s.claimAll cluster) := by
  unfold State.claimAll
  refine .foldl (fun acc e he => ?_) s
  split_ifs
  · by_cases hj : e.1 = id
    · have hsame : e.2 = r := Option.some.inj ((mem_listed he).symm.trans (by rw [hj]; exact hr))
      rw [State.tryClaim_other (by rw [hsame]; exact hk)]
      exact .refl id acc
    · exact acc.claimsOnly_tryClaim hj e.2
  · exact .refl id acc

/-! ### A slot filled -/

/-- The bytes of a slot that is filled. -/
def FarReq.tile (r : FarReq) (c : CorbelSlot) : List Byte := (List.range c.len).map (fun i => (Tbl.get none r.src i).getD 0)

/-- The state in which the request's tile is in its slot. -/
def State.filled (s : State) (cl n id : Nat) (r : FarReq) : State :=
  let c := s.corbelSlot cl n
  (s.putCorbel cl n (if c.used && c.order == id then { c with full := true, data := r.tile c } else c)).putReq id
    { r with performed := true }

theorem exec_corbelSlotFilled {s : State} {cl n id : Nat} {r : FarReq}
    (hfind : (listed s.reqs).find? (fun e => e.2.fills cl n) = some (id, r)) : exec (.corbelSlotFilled cl n) s =
    whenever (r.sent && r.allArrived && r.modules.all s.reachesModule && r.fails.isEmpty && !s.reqHalted r) s
      (((s.filled cl n id r).claimAll cl).endRequest id) := by
  show execCorbelSlotFilled cl n s = _
  unfold execCorbelSlotFilled
  rw [hfind]
  rfl

/-- The only request that fills a slot is found. -/
theorem State.find_fills {s : State} {id cl n src len : Nat} {r : FarReq} {b : Bool} (hr : s.req? id = some r)
    (hk : r.kind = .mcast cl n b src len) (hperf : r.performed = false)
    (hone : ∀ j q, s.req? j = some q → q.fills cl n = true → j = id) :
    (listed s.reqs).find? (fun e => e.2.fills cl n) = some (id, r) := by
  have hfills : r.fills cl n = true := by simp [FarReq.fills, hk, hperf]
  cases hfind : (listed s.reqs).find? (fun e => e.2.fills cl n) with
  | none => exact absurd hfills (List.find?_eq_none.mp hfind (id, r) (mem_listed_of_get hr))
  | some e =>
    obtain ⟨j, q⟩ := e
    have hq := mem_listed (List.mem_of_find?_eq_some hfind)
    have hj := hone j q hq (List.find?_some (p := fun e : Nat × FarReq => e.2.fills cl n) hfind)
    subst hj
    rw [show q = r from Option.some.inj (hq.symm.trans hr)]

theorem State.postFail_corbel (s : State) (id : Nat) : (s.postFail id).corbel = s.corbel := by
  unfold State.postFail
  split
  · rfl
  · split
    · rfl
    · split_ifs
      · exact State.modGang_corbel ..
      · exact State.modGang_corbel ..

/-- The end of a multicast leaves the slots. -/
theorem State.endRequest_corbel {s : State} {id cl n src len : Nat} {r : FarReq} {b : Bool} (hr : s.req? id = some r)
    (hk : r.kind = .mcast cl n b src len) (htag : r.tag < 64) (hsaved : s.isSaved r.team = false)
    (hdone : s.failChunks id r = s ∨ s.failChunks id r = s.putReq id r) : (s.endRequest id).corbel = s.corbel := by
  obtain ⟨s0, hs0, h⟩ := State.endRequest_here hr hdone htag hsaved
  have hcredit : ∀ u : State, u.creditEnd r = u := fun u => by unfold State.creditEnd; rw [hk]
  have hfollow : ∀ u : State, u.followEnd r = u := fun u => by
    unfold State.followEnd
    rw [show r.follow = none by unfold FarReq.follow; rw [hk]]
  rw [h, hcredit, hfollow]
  show ((s0.postFail id).modGang r.gang (r.markPosted id)).corbel = _
  rw [State.modGang_corbel, State.postFail_corbel]
  obtain rfl | rfl := hs0 <;> rfl

section Filled

variable {s : State} {id cl n src len : Nat} {r : FarReq} {b : Bool} (hr : s.req? id = some r)
  (hk : r.kind = .mcast cl n b src len) (hperf : r.performed = false) (hfails : r.fails = []) (htag : r.tag < 64)
  (hsaved : s.isSaved r.team = false)
include hr hk hperf hfails htag hsaved

/-- A slot that is filled holds its tile, and its request has ended without a failure (R241). -/
theorem gives_corbelSlotFilled (hsent : r.sent = true) (hall : r.allArrived = true)
    (hreach : r.modules.all s.reachesModule = true) (hhalt : s.reqHalted r = false)
    (hone : ∀ j q, s.req? j = some q → q.fills cl n = true → j = id)
    (hused : (s.corbelSlot cl n).used = true) (horder : (s.corbelSlot cl n).order = id) :
    Gives (.corbelSlotFilled cl n) s (fun t => t.req? id = none ∧
      (t.core r.core).tag r.tag = ((s.core r.core).tag r.tag).finish none ∧
      let e := t.corbelSlot cl n
      e.full = true ∧ e.used = true ∧ e.data.length = e.len ∧ e.len = (s.corbelSlot cl n).len ∧
        ∀ i < e.len, e.data[i]? = some ((Tbl.get none r.src i).getD 0)) := by
  refine gives_whenever (exec_corbelSlotFilled (State.find_fills hr hk hperf hone))
    (by simp [hsent, hall, hfails, hhalt]; simpa using hreach) ?_
  have hreq : (s.filled cl n id r).req? id = some { r with performed := true } := State.req?_putReq_same ..
  have hclaims := State.claimsOnly_claimAll (s := s.filled cl n id r) hreq hk cl
  obtain ⟨marks, hreq'⟩ := hclaims.req _ hreq
  have hdone : ((s.filled cl n id r).claimAll cl).failChunks id { r with performed := true, badChunks := marks } =
      (s.filled cl n id r).claimAll cl := by
    unfold State.failChunks
    rw [show State.landingOf _ _ = none by unfold State.landingOf; rw [show FarReq.kind _ = _ from hk]]
  have hsaved' : ((s.filled cl n id r).claimAll cl).isSaved r.team = false := (hclaims.saved _).trans hsaved
  obtain ⟨hgone, htagged⟩ := State.endRequest_tag hreq' (.inl hdone) htag hsaved'
  have hcorbel := State.endRequest_corbel hreq' hk htag hsaved' (.inl hdone)
  refine ⟨hgone, ?_, ?_⟩
  · refine htagged.trans ?_
    show ((((s.filled cl n id r).claimAll cl).core r.core).tag r.tag).finish ((firstFail r.fails).map _) = _
    rw [hfails, show ((s.filled cl n id r).claimAll cl).core r.core = s.core r.core from
      congrArg (fun cs => Tbl.get Core.reset cs r.core) hclaims.cores]
    rfl
  · have hslot : (((s.filled cl n id r).claimAll cl).endRequest id).corbelSlot cl n =
        { s.corbelSlot cl n with
          full := true
          data := r.tile (s.corbelSlot cl n)
          claimed := (((s.filled cl n id r).claimAll cl).corbelSlot cl n).claimed } := by
      unfold State.corbelSlot
      rw [hcorbel]
      refine (hclaims.slots cl n).trans ?_
      have hfilled : (s.filled cl n id r).corbelSlot cl n =
          { s.corbelSlot cl n with full := true, data := r.tile (s.corbelSlot cl n) } := by
        refine (State.corbelSlot_putCorbel s cl n _ cl n).trans ?_
        rw [if_pos rfl, if_pos (by simp [hused, horder])]
      rw [hfilled]
      rfl
    intro e
    rw [show e = _ from hslot]
    refine ⟨rfl, hused, by simp [FarReq.tile], rfl, fun i hi => ?_⟩
    show (r.tile (s.corbelSlot cl n))[i]? = some ((Tbl.get none r.src i).getD 0)
    have hlen : i < (s.corbelSlot cl n).len := hi
    rw [FarReq.tile, List.getElem?_map, List.getElem?_range hlen]
    rfl

end Filled

/-! ### Walks and the Lintel -/

theorem exec_cairnReadReturn {s : State} {id : Nat} {r : FarReq} {k : Walk} (hr : s.req? id = some r)
    (hw : r.walk = some k) (dram : Bool) : exec (.cairnReadReturn id dram) s =
    whenever (k.wait.isSome && k.result.isNone && !s.reqHalted r) s (s.putReq id (FarReq.walkEnded
      { r with walk := some (k.returned (s.module k.modid) s.pkg (s.teamPart r.team) dram) })) := by
  show execCairnReadReturn id dram s = _
  unfold execCairnReadReturn
  rw [hr]
  dsimp only
  rw [hw]

theorem gives_cairnReadReturn {s : State} {id : Nat} {r : FarReq} {k : Walk} (hr : s.req? id = some r)
    (hw : r.walk = some k) (dram : Bool) (hwait : k.wait.isSome = true) (hres : k.result = none)
    (hhalt : s.reqHalted r = false) : Gives (.cairnReadReturn id dram) s (fun t =>
      ∃ r' k', t.req? id = some r' ∧ r'.walk = some k' ∧ r'.kind = r.kind ∧
        k' = k.returned (s.module k.modid) s.pkg (s.teamPart r.team) dram) :=
  gives_whenever (exec_cairnReadReturn hr hw dram) (by simp [hwait, hres, hhalt])
    ⟨_, _, State.req?_putReq_same .., rfl, rfl, rfl⟩

/-- A group that is presented again. -/
def Group.presented (y : Group) : Group := match y.park with
  | some (.lintel c p _) => { y with park := some (.lintel c p true) }
  | _ => y

theorem exec_lintelAdmit (n : Nat) (s : State) : exec (.lintelAdmit n) s = match (s.toPool n).lintelNext n with
    | none => .next (s.toPool n)
    | some (id, x) => .next ((s.toPool n).modGang id (fun g => g.modGroup x.slices Group.presented)) := by
  show execLintelAdmit n s = _
  unfold execLintelAdmit
  dsimp only
  cases (s.toPool n).lintelNext n <;> rfl

theorem Group.presented_slices (y : Group) : y.presented.slices = y.slices := by
  unfold Group.presented
  split <;> rfl

theorem Group.presented_park (y : Group) {q : Nat} {p d : Bool} (h : y.presented.park = some (.lintel q p d)) : d = true := by
  unfold Group.presented at h
  split at h <;> simp_all

section Lintel

variable {s : State} {n j ch : Nat} {g : Gang} {x : Group} (hpark : s.lintelParked n = [(j, x)]) (hg : s.gang? j = some g)
  (hx : x.park = some (.lintel ch true false))
include hpark hg hx

omit hg in
/-- The only request parked for the Lintel stands in the pool's row already. -/
theorem State.toPool_one : s.toPool n = s := by
  unfold State.toPool
  rw [hpark]
  simp only [List.foldl_cons, List.foldl_nil, hx]

theorem State.lintelNext_one (hallowed : s.allowed j g ch = true) (hroom : s.pool n + ch ≤ 16384)
    (hfirst : s.poolWaits n x.since = false) : s.lintelNext n = some (j, x) := by
  unfold State.lintelNext
  rw [hpark]
  simp [hx, hg, hallowed, hroom, hfirst]

/-- The only request parked for the Lintel is presented again (R236). -/
theorem gives_lintelAdmit (hallowed : s.allowed j g ch = true) (hroom : s.pool n + ch ≤ 16384)
    (hfirst : s.poolWaits n x.since = false) : Gives (.lintelAdmit n) s (fun t => ∃ g', t = s.putGang j g' ∧
      g'.rest = g.rest ∧ (∀ e, g'.elem e = g.elem e) ∧
      ∀ y ∈ g'.groups, y.slices = x.slices → ∀ q p d, y.park = some (.lintel q p d) → d = true) := by
  refine ⟨s.modGang j (fun g => g.modGroup x.slices Group.presented), ?_, g.modGroup x.slices Group.presented,
    State.modGang_some hg _, rfl, fun e => rfl, fun y hy hslices q p d hd => ?_⟩
  · rw [exec_lintelAdmit, State.toPool_one hpark hx, State.lintelNext_one hpark hg hx hallowed hroom hfirst]
  · obtain ⟨y0, -, rfl⟩ := List.mem_map.mp hy
    by_cases h : (y0.slices == x.slices) = true
    · rw [if_pos h] at hd
      exact Group.presented_park _ hd
    · rw [if_neg h] at hslices
      simp [hslices] at h

end Lintel

/-! ### The statement -/

/-- Settles O44: the landing, the end and what follows are the lemmas above, and a walk's words, runs, ends and pointers those
before them. -/
theorem farRequestsLandAndEnd : Obligations.FarRequestsLandAndEnd := by
  unfold Obligations.FarRequestsLandAndEnd
  refine ⟨fun s id r hr => ?_, fun m pkg part k x hx => ?_, Module.translate_spec⟩
  · intro core tag finished
    refine ⟨fun b k tm tc hk hbar ht hc => ?_, fun hover hreported htag hch hhalt hsaved => ?_,
      fun k ws hf hsent hch hfails hperf hfree hlater hgap =>
        gives_followOn_accepted hr hf hsent hch hfails hperf hfree hlater hgap,
      fun k ws hf hsent hch hfails hperf => ⟨gives_followOn_held hr hf hsent hch hfails hperf,
        fun a g hfree hlater hgap hg hlive htok =>
          gives_followOn_dropped hr hf hsent hch hfails hperf hfree hlater hgap hg hlive htok⟩,
      fun cl n b src len hk hperf hsent hall hreach htag hfails hhalt hsaved hone hused horder => ?_,
      fun k dram hw hwait hres hhalt => gives_cairnReadReturn hr hw dram hwait hres hhalt,
      fun n j g x ch hpark hg hx hallowed hroom hfirst => gives_lintelAdmit hpark hg hx hallowed hroom hfirst⟩
    · intro lo hi hin hready hhalt hsaved himage hsrc
      exact ⟨gives_chunkLand_pad hr hk hbar hin hready hhalt hsaved himage hsrc ht hc,
        gives_chunkLand_slots hr hk hbar hin hready hhalt hsaved himage hsrc⟩
    · have hdone := State.failChunks_done (s := s) (id := id) hch
      have hgo : (r.over && s.reported r && !s.reqHalted r && !s.isSaved r.team) = true := by
        simp [hover, hreported, hhalt, hsaved]
      obtain ⟨hgone, htagged⟩ := State.endRequest_tag hr hdone htag hsaved
      refine ⟨gives_whenever (exec_farRequestEnd hr) hgo ⟨hgone, htagged.trans (Tag.finish_eq _ _), fun x g hf hnp hg hlive => ?_⟩,
        fun b x tm hk hbar ht => gives_whenever (exec_farRequestEnd hr) hgo ?_,
        fun b k ws g hk hfmma hg htok => gives_whenever (exec_farRequestEnd hr) hgo ?_⟩
      · obtain ⟨g', hg', hpost, -⟩ := State.endRequest_gang hr hdone htag hsaved hg
        obtain ⟨q, hq, hfields⟩ := hpost x hf hnp hlive
        exact ⟨g', q, hg', hq, hfields⟩
      · obtain ⟨tm', ht', hb⟩ := State.endRequest_barrier hr hdone htag hsaved hk hbar ht
        rw [Barrier.credit_phase] at hb
        exact ⟨tm', ht', hb⟩
      · obtain ⟨g', hg', -, hcount⟩ := State.endRequest_gang hr hdone htag hsaved hg
        have hfollow : r.follow = some (k, ws) := by unfold FarReq.follow; rw [hk]; exact hfmma
        exact ⟨g', hg', hcount k ws hfollow htok⟩
    · obtain ⟨t, he, hgone, htagged, hslot⟩ := gives_corbelSlotFilled hr hk hperf hfails htag hsaved hsent hall hreach hhalt
        hone hused horder
      exact ⟨t, he, hgone, htagged.trans (Tag.finish_eq _ none), hslot⟩
  · obtain ⟨h2, h3, h4⟩ := Walk.plain_branch m pkg part k x
    obtain ⟨h5, h6⟩ := Walk.plain_move m pkg part k x
    obtain ⟨h7, h8, h9, h10⟩ := Walk.plain_sets m pkg part k x
    obtain ⟨h12, h13, h14⟩ := Walk.plain_ends m pkg part k x
    exact ⟨h2, h3, h4, h5, h6, h7, h8, h9, h10, h12, h13, h14, Walk.gotBytes_spec k x, ruleRead_eq x,
      Walk.runGo_succ m pkg part k, fun e a => rfl, fun code fdet rule lastp => k.finish_spec code fdet rule lastp⟩

end Sys2Proof.Machine
end
section
/-! PROOFS. O56, what a link sends at a flit boundary (R362, R363, R370, R373, R430, R434). -/

namespace Sys2Proof.Machine

/-! ### A flit of a message -/

/-- A message that takes its number changes the numbers alone. -/
theorem State.numbered_state (s : State) (peer : Nat) (m : NetMsg) : ∃ q, (s.numbered peer m).1 = { s with sentSeq := q } := by
  unfold State.numbered
  split
  · exact ⟨s.sentSeq, rfl⟩
  · exact ⟨_, rfl⟩

theorem State.numbered_msg {s t : State} (h : t.sentSeq = s.sentSeq) (peer : Nat) (m : NetMsg) :
    (t.numbered peer m).2 = (s.numbered peer m).2 := by
  unfold State.numbered
  rw [h]
  cases msgStream peer m with
  | none => rfl
  | some x => rfl

/-- The flit in which a link sends a message: the next in sequence. -/
def State.flitOf (s : State) (k peer : Nat) (m : NetMsg) : Flit :=
  { bareFlit .data (s.link k).fseq ((s.link k).expect - 1) peer with msg := some (s.numbered peer m).2 }

/-- The link that has sent a flit in sequence. -/
def Link.sending (x : Link) (f : Flit) : Link := { x with fseq := x.fseq + 1, sent := x.sent ++ [f] }

/-- A flit as the link sends it. -/
def sentBy (f : Flit) (x : Link) : Flit := { f with fseq := x.fseq, aseq := x.expect - 1 }

theorem State.sendSeq_eq (s : State) (k : Nat) (f : Flit) : s.sendSeq k f =
    (s.putLink k ((s.link k).sending (sentBy f (s.link k)))).emit (.flit k (sentBy f (s.link k))) := rfl

theorem State.sendMsg_eq (s : State) (k peer : Nat) (m : NetMsg) : ∃ q, s.sendMsg k peer m =
    (({ s with sentSeq := q } : State).putLink k ((s.link k).sending (s.flitOf k peer m))).emit (.flit k (s.flitOf k peer m)) := by
  obtain ⟨q, hq⟩ := s.numbered_state peer m
  refine ⟨q, ?_⟩
  have hsend : s.sendMsg k peer m =
      (s.numbered peer m).1.sendSeq k { bareFlit .data 0 0 peer with msg := some (s.numbered peer m).2 } := rfl
  rw [hsend, hq]
  rfl

/-- The link on which a message has been sent: its flit is the last of those not acknowledged. -/
structure State.Sends (s : State) (k peer : Nat) (m : NetMsg) (t : State) : Prop where
  link : t.link k = (s.link k).sending (s.flitOf k peer m)
  out : t.out = s.out ++ [.flit k (s.flitOf k peer m)]

theorem State.sends_sendMsg (s : State) (k peer : Nat) (m : NetMsg) : s.Sends k peer m (s.sendMsg k peer m) := by
  obtain ⟨q, hq⟩ := s.sendMsg_eq k peer m
  rw [hq]
  exact ⟨State.link_putLink_same _ k _, rfl⟩

/-- What a message sent leaves: partitions, requests, turns and the messages owed. -/
theorem State.sendMsg_frame (s : State) (k peer : Nat) (m : NetMsg) : (s.sendMsg k peer m).parts = s.parts ∧
    (s.sendMsg k peer m).reqs = s.reqs ∧ (s.sendMsg k peer m).dealt = s.dealt ∧ (s.sendMsg k peer m).netq = s.netq := by
  obtain ⟨q, hq⟩ := s.sendMsg_eq k peer m
  rw [hq]
  exact ⟨rfl, rfl, rfl, rfl⟩

/-! ### The boundary of a link whose port holds a circuit -/

theorem exec_flitSend (k : Nat) (s : State) : exec (.flitSend k) s =
    whenever (decide (k < 128) && (s.link k).carries) s (s.flitBoundary k) := rfl

section Boundary

variable {s : State} {k peer : Nat} (hk : k < 128) (hx : (s.link k).carries = true) (hpeer : s.linkPeer k = some peer)
include hk hx hpeer

theorem gives_flitSend {P : State → Prop} (h : P (s.sendTo k peer)) : Gives (.flitSend k) s P := by
  refine gives_whenever (exec_flitSend k s) (by simp [hk, hx]) ?_
  unfold State.flitBoundary
  rw [hpeer]
  exact h

/-- A NAK goes first (R363). -/
theorem gives_flitSend_nak (hnak : (s.link k).nakOwed = true) : Gives (.flitSend k) s (fun t => (t.link k).nakOwed = false ∧
    ∃ f : Flit, t.out = s.out ++ [.flit k f] ∧ f.type = .nak ∧ f.fseq = (s.link k).expect) := by
  refine gives_flitSend hk hx hpeer ?_
  unfold State.sendTo
  rw [if_pos hnak]
  refine ⟨?_, _, rfl, rfl, rfl⟩
  show ((s.putLink k _).link k).nakOwed = false
  rw [State.link_putLink_same]

/-- Then replay of the peer's flits (R363). -/
theorem gives_flitSend_replay {f : Flit} (hnak : (s.link k).nakOwed = false)
    (hf : (s.link k).again.find? (fun y => y.peer == peer) = some f) : Gives (.flitSend k) s (fun t =>
      (t.link k).again = (s.link k).again.erase f ∧
      t.out = s.out ++ [.flit k { f with aseq := (s.link k).expect - 1 }]) := by
  refine gives_flitSend hk hx hpeer ?_
  unfold State.sendTo
  dsimp only
  rw [if_neg (by simp [hnak]), hf]
  refine ⟨?_, rfl⟩
  show ((s.putLink k _).link k).again = _
  rw [State.link_putLink_same]

/-- An idle flit changes nothing of the link. -/
def IdleFrom (s : State) (k : Nat) (t : State) : Prop :=
  t = { s with out := t.out } ∧ ∃ f : Flit, t.out = s.out ++ [.flit k f] ∧ f.type = .idle

omit hk hx hpeer in
theorem State.idle_sendBare : IdleFrom s k (s.sendBare k peer .idle 0) := ⟨rfl, _, rfl, rfl⟩

omit hk hx hpeer in
theorem List.find_peer_none {fs : List Flit} (h : ∀ f ∈ fs, f.peer ≠ peer) : fs.find? (fun y => y.peer == peer) = none :=
  List.find?_eq_none.mpr (fun f hf => by simpa using h f hf)

/-- A full replay buffer sends nothing new (R434). -/
theorem gives_flitSend_full (hnak : (s.link k).nakOwed = false) (hother : ∀ f ∈ (s.link k).again, f.peer ≠ peer)
    (hfull : (s.link k).full = true) : Gives (.flitSend k) s (IdleFrom s k) := by
  refine gives_flitSend hk hx hpeer ?_
  unfold State.sendTo
  dsimp only
  rw [if_neg (by simp [hnak]), List.find_peer_none hother]
  dsimp only
  rw [if_pos (by simp [hfull])]
  exact State.idle_sendBare

/-- With no replay and no link control, new traffic is what the turns give. -/
theorem gives_flitSend_dealt {P : State → Prop} (hnak : (s.link k).nakOwed = false)
    (hother : ∀ f ∈ (s.link k).again, f.peer ≠ peer) (hroom : (s.link k).full = false) (hremap : (s.link k).remap = none)
    (hwidth : (s.link k).nextWidth = none) (hswap : s.swapDue k = none) (hctl : (s.link k).ctlOwed = false)
    (h : P (s.sendDealt k peer)) : Gives (.flitSend k) s P := by
  refine gives_flitSend hk hx hpeer ?_
  unfold State.sendTo
  dsimp only
  rw [if_neg (by simp [hnak]), List.find_peer_none hother]
  dsimp only
  rw [if_neg (by simp [hroom, hremap]), hwidth]
  dsimp only
  rw [hswap]
  dsimp only
  rw [if_neg (by simp [hctl])]
  exact h

omit hk hx hpeer in
/-- A link whose turn it is not sends none (R17, R362). -/
theorem State.sendDealt_other (hturn : s.dealtTo peer ≠ some k) : IdleFrom s k (s.sendDealt k peer) := by
  unfold State.sendDealt
  rw [if_pos hturn]
  exact State.idle_sendBare

end Boundary

/-! ### Turns -/

theorem State.takesNew_iff (s : State) (peer k : Nat) : s.takesNew peer k = true ↔ (s.link k).carries = true ∧
    s.linkPeer k = some peer ∧ (s.link k).nakOwed = false ∧ (∀ f ∈ (s.link k).again, f.peer ≠ peer) ∧
    (s.link k).full = false ∧ (s.link k).remap = none ∧ (s.link k).nextWidth = none ∧ s.swapDue k = none ∧
    (s.link k).ctlOwed = false := by
  simp [State.takesNew, and_assoc]

/-- The link whose turn it is: of those that can take the flit, the first from the one after the last. -/
theorem State.dealtTo_spec {s : State} {peer j : Nat} (h : s.dealtTo peer = some j) : j < 128 ∧ s.takesNew peer j = true ∧
    ∀ i < 128, s.takesNew peer i = true → (j + 128 - Tbl.get 0 s.dealt peer % 128) % 128 ≤
      (i + 128 - Tbl.get 0 s.dealt peer % 128) % 128 := by
  unfold State.dealtTo at h
  generalize Tbl.get 0 s.dealt peer = d at h ⊢
  obtain ⟨htakes, n, hn, hj, hbefore⟩ := List.find?_eq_some_iff_getElem.mp h
  simp only [List.length_map, List.length_range, List.getElem_map, List.getElem_range] at hn hj hbefore
  subst hj
  refine ⟨Nat.mod_lt _ (by norm_num), htakes, fun i hi hit => ?_⟩
  by_contra hlt
  have hearly : (i + 128 - d % 128) % 128 < n := by omega
  have hno := hbefore _ hearly
  rw [show (d + (i + 128 - d % 128) % 128) % 128 = i by omega, hit] at hno
  cases hno

section Turn

variable {s : State} {k peer : Nat} (hturn : s.dealtTo peer = some k)
include hturn

/-- The link whose turn it is sends what is owed, and the turn passes to the next. -/
theorem gives_flitSend_turn {t : State} {P : State → Prop} (hnew : s.sendNew k peer = some t)
    (h : P { t with dealt := Tbl.set 0 t.dealt peer (k + 1) }) : Gives (.flitSend k) s P := by
  obtain ⟨hk, htakes, -⟩ := State.dealtTo_spec hturn
  obtain ⟨hx, hpeer, hnak, hother, hroom, hremap, hwidth, hswap, hctl⟩ := (s.takesNew_iff peer k).mp htakes
  refine gives_flitSend_dealt hk hx hpeer hnak hother hroom hremap hwidth hswap hctl ?_
  unfold State.sendDealt
  rw [if_neg (by simp [hturn]), hnew]
  exact h

/-- The turn has passed to the link after k. -/
def TurnedFrom (s : State) (k peer : Nat) (t : State) : Prop :=
  Tbl.get 0 t.dealt peer = k + 1 ∧ ∀ p, p ≠ peer → Tbl.get 0 t.dealt p = Tbl.get 0 s.dealt p

omit hturn in
theorem turnedFrom_set {t : State} (h : t.dealt = s.dealt) :
    TurnedFrom s k peer { t with dealt := Tbl.set 0 t.dealt peer (k + 1) } := by
  refine ⟨Tbl.get_set_same 0 t.dealt peer (k + 1), fun p hp => ?_⟩
  exact (Tbl.get_set_other 0 t.dealt (k + 1) hp).trans (by rw [h])

/-- A message has been sent in a flit of its own, and the turn has passed. -/
def SendsNew (s : State) (k peer : Nat) (m : NetMsg) (t : State) : Prop :=
  ∃ f : Flit, f.type = .data ∧ f.msg = some (s.numbered peer m).2 ∧ f.fseq = (s.link k).fseq ∧
    f.aseq = (s.link k).expect - 1 ∧ t.out = s.out ++ [.flit k f] ∧ (t.link k).sent = (s.link k).sent ++ [f] ∧
    (t.link k).fseq = (s.link k).fseq + 1 ∧ TurnedFrom s k peer t

omit hturn in
/-- A message sent from a state that agrees with s on the link, the numbers and the turns. -/
theorem sendsNew_sendMsg {u : State} {q : Nat} (hlink : u.link k = { s.link k with qturn := q }) (hseq : u.sentSeq = s.sentSeq)
    (hout : u.out = s.out) (hdealt : u.dealt = s.dealt) (m : NetMsg) :
    SendsNew s k peer m { u.sendMsg k peer m with dealt := Tbl.set 0 (u.sendMsg k peer m).dealt peer (k + 1) } := by
  have hsent := u.sends_sendMsg k peer m
  have hd : (u.sendMsg k peer m).dealt = s.dealt := (u.sendMsg_frame k peer m).2.2.1.trans hdealt
  have hl : (u.sendMsg k peer m).link k = { s.link k with
      qturn := q, fseq := (s.link k).fseq + 1, sent := (s.link k).sent ++ [u.flitOf k peer m] } := by
    rw [hsent.link, hlink]
    rfl
  refine ⟨u.flitOf k peer m, rfl, ?_, ?_, ?_, ?_, ?_, ?_, turnedFrom_set hd⟩
  · rw [← State.numbered_msg hseq]
    rfl
  · show (u.link k).fseq = _
    rw [hlink]
  · show (u.link k).expect - 1 = _
    rw [hlink]
  · rw [← hout]
    exact hsent.out
  · exact congrArg Link.sent hl
  · exact congrArg Link.fseq hl

/-- A message that is owed (R363). -/
theorem gives_flitSend_message {m : NetMsg} (hfree : s.strandedLink peer = none) (hm : s.nextMsg peer = some m) :
    Gives (.flitSend k) s (fun t => SendsNew s k peer m t ∧ t.netq = s.netq.erase (peer, m)) := by
  have hnew : s.sendNew k peer = some ((s.takeMsg peer m).sendMsg k peer m) := by
    unfold State.sendNew
    rw [hfree]
    dsimp only
    rw [hm]
  refine gives_flitSend_turn hturn hnew ⟨sendsNew_sendMsg (s := s) (u := s.takeMsg peer m) (q := (s.link k).qturn) rfl rfl rfl rfl m, ?_⟩
  exact ((s.takeMsg peer m).sendMsg_frame k peer m).2.2.2

/-- A flit that another link has kept for the peer (R362, R371, R442). -/
theorem gives_flitSend_stranded {j : Nat} {f : Flit} (hj : s.strandedLink peer = some j)
    (hf : (s.link j).owed.find? (fun y => y.peer == peer) = some f) : Gives (.flitSend k) s (fun t =>
      (t.link j).owed = (s.link j).owed.erase f ∧ (t.link k).fseq = (s.link k).fseq + 1 ∧ t.netq = s.netq ∧
      t.out = s.out ++ [.flit k { f with fseq := (s.link k).fseq, aseq := (s.link k).expect - 1 }] ∧
      TurnedFrom s k peer t) := by
  have hnew : s.sendNew k peer =
      some ((s.putLink j { s.link j with owed := (s.link j).owed.erase f }).sendSeq k f) := by
    unfold State.sendNew
    rw [hj]
    dsimp only
    rw [hf]
    rfl
  refine gives_flitSend_turn hturn hnew ?_
  have hlink : ∃ o, (s.putLink j { s.link j with owed := (s.link j).owed.erase f }).link k = { s.link k with owed := o } ∧
      (j = k → o = (s.link j).owed.erase f) := by
    rw [State.link_putLink]
    split_ifs with h
    · subst h
      exact ⟨_, rfl, fun _ => rfl⟩
    · exact ⟨(s.link k).owed, rfl, fun hjk => absurd hjk.symm h⟩
  obtain ⟨o, ho, hsame⟩ := hlink
  have hjlink : (s.putLink j { s.link j with owed := (s.link j).owed.erase f }).link j =
      { s.link j with owed := (s.link j).owed.erase f } := State.link_putLink_same ..
  rw [State.sendSeq_eq, ho]
  have hdealt : (s.putLink j { s.link j with owed := (s.link j).owed.erase f }).dealt = s.dealt := rfl
  have hout : (s.putLink j { s.link j with owed := (s.link j).owed.erase f }).out = s.out := rfl
  have hnetq : (s.putLink j { s.link j with owed := (s.link j).owed.erase f }).netq = s.netq := rfl
  generalize s.putLink j { s.link j with owed := (s.link j).owed.erase f } = u at hjlink hdealt hout hnetq ⊢
  refine ⟨?_, ?_, hnetq, ?_, turnedFrom_set hdealt⟩
  · show ((u.putLink k _).link j).owed = _
    rw [State.link_putLink]
    split_ifs with h
    · exact hsame h
    · rw [hjlink]
  · show ((u.putLink k _).link k).fseq = _
    rw [State.link_putLink_same]
    rfl
  · rw [← hout]
    rfl

section Data

variable {n : Nat} {d : QDesc} {rest : List QDesc} (hfree : s.strandedLink peer = none) (hnone : s.nextMsg peer = none)
  (hn : (qturnOrder (s.link k).qturn).find? (fun n => s.dataReady n peer) = some n)
  (hq : (s.part n).sendQueue peer = d :: rest)
include hfree hnone hn hq

omit hturn in
theorem State.sendNew_data : s.sendNew k peer = some (s.sendData k n peer d) := by
  unfold State.sendNew
  rw [hfree]
  dsimp only
  rw [hnone]
  dsimp only
  rw [hn]
  dsimp only [Option.bind]
  rw [hq]
  rfl

end Data

/-- The message of the next flit of a queue. -/
def QDesc.flitMsg (d : QDesc) (pkg part : Nat) (bs : List Byte) (note : Bool) : NetMsg := .qdata
  { ident := d.req, srcPkg := pkg, srcPart := part, seq := 0, part := d.part, dst := d.dst + d.sent, data := bs,
    last := decide (d.len ≤ d.sent + d.take), total := d.len, note := note, nva := d.nva }

/-- The queue after its next flit. -/
def QDesc.after (d : QDesc) (rest : List QDesc) : List QDesc :=
  if decide (d.len ≤ d.sent + d.take) = true then rest else { d with sent := d.sent + d.take } :: rest

/-- The state in which the flit is formed: the queue and the turn have moved, the source is read. -/
def State.formed (s s0 : State) (k n peer : Nat) (d : QDesc) (rest : List QDesc) : State :=
  ((s0.modPart n (fun p => p.putSendQueue peer (d.after rest))).putLink k { s.link k with qturn := n }).mergeRuns 4 d.places

/-- The QSEND fails where a word of its source cannot be corrected. -/
def State.sourceChecked (s : State) (d : QDesc) : State := match s.firstBad d.places 0 with
  | some off => s.sourceFails d off
  | none => s

omit hturn in
theorem State.sendData_eq {n : Nat} {d : QDesc} {rest : List QDesc} (hq : (s.part n).sendQueue peer = d :: rest) :
    s.sendData k n peer d = (s.formed (s.sourceChecked d) k n peer d rest).sendMsg k peer (d.flitMsg s.pkg n
      (if (s.firstBad d.places 0).isSome then [] else s.readRuns d.places)
      (d.note && !(s.sourceChecked d).sourceFailed d)) := by
  unfold State.sendData State.formed QDesc.after
  rw [hq]
  rfl

omit hturn in
/-- What forming a flit leaves: the link, the numbers, the turns and the queue. -/
theorem State.formed_spec {s0 : State} {n : Nat} {d : QDesc} {rest : List QDesc} :
    (s.formed s0 k n peer d rest).link k = { s.link k with qturn := n } ∧
    (s.formed s0 k n peer d rest).sentSeq = s0.sentSeq ∧ (s.formed s0 k n peer d rest).out = s0.out ∧
    (s.formed s0 k n peer d rest).dealt = s0.dealt ∧ (s.formed s0 k n peer d rest).reqs = s0.reqs ∧
    ((s.formed s0 k n peer d rest).part n).sendQueue peer = d.after rest := by
  refine ⟨State.link_putLink_same _ k _, rfl, rfl, rfl, rfl, ?_⟩
  show ((s0.modPart n (fun p => p.putSendQueue peer (d.after rest))).part n).sendQueue peer = _
  rw [State.part_modPart_same]
  exact Tbl.get_set_same [] _ peer _

/-- The next flit of a queue (R370, R373): the state before it, s0, has the failure of the source, if there is one. -/
theorem gives_flitSend_data {n : Nat} {d : QDesc} {rest : List QDesc} {bs : List Byte} {note : Bool} {P : State → Prop}
    (hfree : s.strandedLink peer = none) (hnone : s.nextMsg peer = none)
    (hn : (qturnOrder (s.link k).qturn).find? (fun n => s.dataReady n peer) = some n)
    (hq : (s.part n).sendQueue peer = d :: rest)
    (hbs : (if (s.firstBad d.places 0).isSome then [] else s.readRuns d.places) = bs)
    (hnote : (d.note && !(s.sourceChecked d).sourceFailed d) = note)
    (hsame : (s.sourceChecked d).sentSeq = s.sentSeq ∧ (s.sourceChecked d).out = s.out ∧
      (s.sourceChecked d).dealt = s.dealt)
    (h : ∀ t : State, t.reqs = (s.sourceChecked d).reqs → P t) : Gives (.flitSend k) s (fun t =>
      SendsNew s k peer (d.flitMsg s.pkg n bs note) t ∧
      ((t.part n).sendQueue peer = d.after rest ∧ (t.link k).qturn = n) ∧ P t) := by
  obtain ⟨hseq, hout, hdealt⟩ := hsame
  obtain ⟨flink, fseq, fout, fdealt, freqs, fqueue⟩ := State.formed_spec (s := s) (s0 := s.sourceChecked d) (k := k) (n := n)
    (peer := peer) (d := d) (rest := rest)
  have hnew := State.sendNew_data hfree hnone hn hq
  rw [State.sendData_eq hq, hbs, hnote] at hnew
  generalize s.formed (s.sourceChecked d) k n peer d rest = u at flink fseq fout fdealt freqs fqueue hnew
  generalize d.flitMsg s.pkg n bs note = m at hnew ⊢
  obtain ⟨hparts, hreqs, -, -⟩ := u.sendMsg_frame k peer m
  have hturned : ((u.sendMsg k peer m).link k).qturn = n := by
    rw [(u.sends_sendMsg k peer m).link, flink]
    rfl
  refine gives_flitSend_turn hturn hnew
    ⟨sendsNew_sendMsg flink (fseq.trans hseq) (fout.trans hout) (fdealt.trans hdealt) m, ⟨?_, hturned⟩, h _ (hreqs.trans freqs)⟩
  rw [← fqueue]
  exact congrArg (fun ps => (Tbl.get Partition.reset ps n).sendQueue peer) hparts

/-- A flit of a queue whose bytes can be read. -/
theorem gives_flitSend_bytes {n : Nat} {d : QDesc} {rest : List QDesc}
    (hfree : s.strandedLink peer = none) (hnone : s.nextMsg peer = none)
    (hn : (qturnOrder (s.link k).qturn).find? (fun n => s.dataReady n peer) = some n)
    (hq : (s.part n).sendQueue peer = d :: rest) (hgood : s.firstBad d.places 0 = none) : Gives (.flitSend k) s (fun t =>
      SendsNew s k peer (d.flitMsg s.pkg n (s.readRuns d.places) (d.note && !s.sourceFailed d)) t ∧
      ((t.part n).sendQueue peer = d.after rest ∧ (t.link k).qturn = n) ∧ t.reqs = s.reqs) := by
  have hs : s.sourceChecked d = s := by unfold State.sourceChecked; rw [hgood]
  exact gives_flitSend_data hturn hfree hnone hn hq (by rw [hgood]; rfl) (by rw [hs]) (by rw [hs]; exact ⟨rfl, rfl, rfl⟩)
    (fun t ht => by rw [ht, hs])

/-- A flit of a queue with a word that cannot be corrected (R430). -/
theorem gives_flitSend_failed {n off : Nat} {d : QDesc} {rest : List QDesc} {r : FarReq}
    (hfree : s.strandedLink peer = none) (hnone : s.nextMsg peer = none)
    (hn : (qturnOrder (s.link k).qturn).find? (fun n => s.dataReady n peer) = some n)
    (hq : (s.part n).sendQueue peer = d :: rest) (hbad : s.firstBad d.places 0 = some off) (hr : s.req? d.req = some r) :
    Gives (.flitSend k) s (fun t => SendsNew s k peer (d.flitMsg s.pkg n [] false) t ∧
      ((t.part n).sendQueue peer = d.after rest ∧ (t.link k).qturn = n) ∧ t.req? d.req = some { r with
        fails := r.fails ++ [(localKey 0, ⟨Cause.permission, d.va + d.sent + off, true, 0⟩)] }) := by
  have hs : s.sourceChecked d = s.putReq d.req { r with
      fails := r.fails ++ [(localKey 0, ⟨Cause.permission, d.va + d.sent + off, true, 0⟩)] } := by
    unfold State.sourceChecked
    rw [hbad]
    dsimp only
    unfold State.sourceFails State.modReq
    rw [hr]
  refine gives_flitSend_data hturn hfree hnone hn hq (by rw [hbad]; rfl) ?_ (by rw [hs]; exact ⟨rfl, rfl, rfl⟩) (fun t ht => ?_)
  · rw [hs]
    unfold State.sourceFailed
    rw [State.req?_putReq_same]
    simp
  · unfold State.req?
    rw [ht, hs]
    exact State.req?_putReq_same ..

end Turn

end Sys2Proof.Machine
end
section
/-! PROOFS. O56, what a link does with flits that arrive (R433, R434, R446), and retraining (R436, R442, R443). -/

namespace Sys2Proof.Machine

/-! ### Links that must retrain -/

/-- A site given up leaves a link but for its remap. -/
theorem State.link_dropSite (s : State) (c k : Nat) : ∃ r, (s.dropSite c).link k = { s.link k with remap := r } := by
  have hvoid : ∀ u : State, ∃ r, (u.voidRemap c).link k = { u.link k with remap := r } := fun u => by
    unfold State.voidRemap
    dsimp only
    split
    · split_ifs
      · rw [State.link_putLink]
        split_ifs with h
        · subst h
          exact ⟨_, rfl⟩
        · exact ⟨_, rfl⟩
      · exact ⟨_, rfl⟩
    · exact ⟨_, rfl⟩
  unfold State.dropSite
  dsimp only
  split
  · split_ifs
    · exact hvoid _
    · exact hvoid s
  · exact ⟨_, rfl⟩

/-- A channel that goes DOWN leaves a link but for its remap. -/
theorem State.link_chanDown (s : State) (c k : Nat) : ∃ r, (s.chanDown c).link k = { s.link k with remap := r } := by
  unfold State.chanDown
  dsimp only
  rw [State.link_setEvt, State.link_shareDone, State.link_endPlans]
  exact s.link_dropSite c k

/-- A link that retrains (R442). -/
theorem State.link_retrain (s : State) (k : Nat) : (s.retrain k).link k =
    { (s.link k).fall with state := .retraining, curw := (s.link k).curw, retrains := min 65535 ((s.link k).retrains + 1) } :=
  State.link_putLink_same ..

theorem State.linkDown_down (s : State) (k : Nat) : ((s.linkDown k).link k).state = .down := by
  unfold State.linkDown State.fallLink
  rw [State.link_endPlans, State.link_putLink_same]
  rfl

/-- A link that meets R436 retrains, or is left DOWN in the host-assisted mode. -/
theorem State.mustRetrain_spec (s : State) (k : Nat) :
    (s.assistedPair (pairOfLink k) 2 = false → ((s.mustRetrain k).link k).state = .retraining ∧
      ((s.mustRetrain k).link k).sent = [] ∧
      ((s.mustRetrain k).link k).owed = (s.link k).owed ++ (s.link k).sent.filter (fun f => f.msg.isSome) ∧
      ((s.mustRetrain k).link k).retrains = min 65535 ((s.link k).retrains + 1)) ∧
    (s.assistedPair (pairOfLink k) 2 = true → ((s.mustRetrain k).link k).state = .down) := by
  unfold State.mustRetrain
  refine ⟨fun h => ?_, fun h => ?_⟩
  · rw [if_neg (by simp [h]), State.link_retrain, State.link_putLink_same]
    exact ⟨rfl, rfl, rfl, rfl⟩
  · rw [if_pos h]
    exact s.linkDown_down k

/-- What a step that retrains a link gives. -/
theorem gives_mustRetrain {i : Instr} {s : State} {k : Nat} {p : Bool} (he : exec i s = whenever p s (s.mustRetrain k))
    (hp : p = true) :
    (s.assistedPair (pairOfLink k) 2 = false → Gives i s (fun t => (t.link k).state = .retraining ∧ (t.link k).sent = [] ∧
      (t.link k).owed = (s.link k).owed ++ (s.link k).sent.filter (fun f => f.msg.isSome) ∧
      (t.link k).retrains = min 65535 ((s.link k).retrains + 1))) ∧
    (s.assistedPair (pairOfLink k) 2 = true → Gives i s (fun t => (t.link k).state = .down)) :=
  ⟨fun h => gives_whenever he hp ((s.mustRetrain_spec k).1 h), fun h => gives_whenever he hp ((s.mustRetrain_spec k).2 h)⟩

theorem exec_ackTimeout (k : Nat) (s : State) : exec (.ackTimeout k) s =
    whenever ((s.link k).carries && !(s.link k).sent.isEmpty) s (s.mustRetrain k) := rfl

theorem exec_clockRecoveryLoss (c : Nat) (s : State) : exec (.clockRecoveryLoss c) s =
    whenever ((s.link (s.linkOf c)).carries &&
      ((s.activeChans (s.linkOf c)).take (s.link (s.linkOf c)).curw).contains c) s (s.mustRetrain (s.linkOf c)) := rfl

/-! ### Flits that arrive -/

/-- A link of which flits up to n are acknowledged. -/
def Link.acked (x : Link) (n : BitVec 12) : Link :=
  { x with sent := dropAcked n x.sent, again := dropAcked n x.again,
           nakRun := if (dropAcked n x.sent).length < x.sent.length then 0 else x.nakRun }

theorem State.acknowledge_eq {s : State} {k : Nat} (h : (s.link k).remap = none) (n : BitVec 12) :
    s.acknowledge k n = s.putLink k ((s.link k).acked n) := by
  unfold State.acknowledge
  dsimp only
  split
  · next hr => exact absurd (h.symm.trans hr) (by simp)
  · rfl

/-- A link that has taken a flit in order. -/
def Link.taken (x : Link) : Link := { x with
  expect := x.expect + 1
  discarding := false
  rxw := match x.rxNext with
    | some (w, n) => if n == x.expect then w else x.rxw
    | none => x.rxw
  rxNext := match x.rxNext with
    | some (w, n) => if n == x.expect then none else some (w, n)
    | none => none }

theorem State.takeFlit_eq (s : State) (k : Nat) (f : Flit) :
    (∀ m, f.type = .data → f.msg = some m → s.takeFlit k f = (s.putLink k (s.link k).taken).arrive m) ∧
    (∀ w, f.type = .width w → s.takeFlit k f = s.putLink k (if f.switchAt == (s.link k).expect + 1
      then { (s.link k).taken with rxw := w } else { (s.link k).taken with rxNext := some (w, f.switchAt) })) ∧
    (∀ site ch, f.type = .remap site ch → s.takeFlit k f = s.putLink k (s.link k).taken) := by
  refine ⟨fun m ht hm => ?_, fun w ht => ?_, fun site ch ht => ?_⟩ <;> unfold State.takeFlit <;> dsimp only <;> rw [ht]
  · rw [hm]
    rfl
  · rfl
  · rfl

theorem State.arrive_link (s : State) (m : NetMsg) (k : Nat) : (s.arrive m).link k = s.link k := by
  unfold State.arrive
  split_ifs <;> rfl

theorem State.arrive_inbound {s : State} {m : NetMsg} (h : s.isDue m = true) : m ∈ (s.arrive m).inbound := by
  unfold State.arrive
  split_ifs with hc
  · simpa [h] using hc
  · simp

section Receive

variable {s : State} {k : Nat}

/-- A flit that is discarded (R433). -/
def DiscardsFrom (s : State) (k : Nat) (nak : Bool) (t : State) : Prop :=
  (t.link k).expect = (s.link k).expect ∧ (t.link k).discarding = true ∧
    (t.link k).nakOwed = ((s.link k).nakOwed || nak) ∧ (t.link k).sent = (s.link k).sent ∧ t.inbound = s.inbound

theorem State.discards_failFlit (nak : Bool) : DiscardsFrom s k nak (s.failFlit k nak) := by
  unfold DiscardsFrom State.failFlit
  rw [State.link_putLink_same]
  exact ⟨rfl, rfl, rfl, rfl, rfl⟩

theorem State.receiveFlit_bad {f : Flit} (h : f.ok = false ∨ f.type = .other) : s.receiveFlit k f = s.failFlit k true := by
  unfold State.receiveFlit
  obtain h | h := h
  · rw [if_pos (by simp [h])]
  · split_ifs
    · rfl
    · rw [h]

/-- A sequenced flit is taken in order, or discarded. -/
theorem State.receiveFlit_sequenced {f : Flit} (hok : f.ok = true) (hseq : sequenced f.type = true) : s.receiveFlit k f =
    if f.fseq = (s.link k).expect then (s.acknowledge k f.aseq).takeFlit k f else s.failFlit k (!(s.link k).discarding) := by
  unfold State.receiveFlit
  rw [if_neg (by simp [hok])]
  cases ht : f.type <;> simp [ht, sequenced] at hseq ⊢

variable (hx : (s.link k).carries = true) (hremap : (s.link k).remap = none)
include hx hremap

omit hremap in
theorem gives_discarded {f : Flit} (h : f.ok = false ∨ f.type = .other) :
    Gives (.dataFlitReceive k f) s (DiscardsFrom s k true) := by
  refine gives_whenever (show exec (.dataFlitReceive k f) s = whenever (s.link k).carries s (s.receiveFlit k f) from rfl) hx ?_
  rw [State.receiveFlit_bad h]
  exact State.discards_failFlit true

/-- A data flit (R433). -/
theorem gives_dataFlit {f : Flit} {m : NetMsg} (hok : f.ok = true) (ht : f.type = .data) (hm : f.msg = some m) :
    (f.fseq = (s.link k).expect → Gives (.dataFlitReceive k f) s (fun t => (t.link k).expect = (s.link k).expect + 1 ∧
      (t.link k).discarding = false ∧ (t.link k).sent = dropAcked f.aseq (s.link k).sent ∧
      (s.isDue m = true → m ∈ t.inbound))) ∧
    (f.fseq ≠ (s.link k).expect → Gives (.dataFlitReceive k f) s (DiscardsFrom s k (!(s.link k).discarding))) := by
  have he : exec (.dataFlitReceive k f) s = whenever (s.link k).carries s (s.receiveFlit k f) := rfl
  have hrecv := State.receiveFlit_sequenced (s := s) (k := k) hok (by rw [ht]; rfl)
  refine ⟨fun hin => gives_whenever he hx ?_, fun hout => gives_whenever he hx ?_⟩
  · rw [hrecv, if_pos hin, State.acknowledge_eq hremap, (State.takeFlit_eq _ k f).1 m ht hm]
    refine ⟨?_, ?_, ?_, fun hdue => State.arrive_inbound hdue⟩ <;>
      rw [State.arrive_link, State.link_putLink_same, State.link_putLink_same] <;> rfl
  · rw [hrecv, if_neg hout]
    exact State.discards_failFlit _

/-- A width flit in order (R446). -/
theorem gives_widthFlit {f : Flit} {w : Nat} (hok : f.ok = true) (ht : f.type = .width w) (hin : f.fseq = (s.link k).expect) :
    Gives (.widthChangeFlit k f) s (fun t => (t.link k).expect = (s.link k).expect + 1 ∧
      (f.switchAt = (s.link k).expect + 1 → (t.link k).rxw = w) ∧
      (f.switchAt ≠ (s.link k).expect + 1 → (t.link k).rxNext = some (w, f.switchAt))) := by
  have he : exec (.widthChangeFlit k f) s = whenever ((s.link k).carries && match f.type with
      | .width _ => true
      | _ => false) s (s.receiveFlit k f) := rfl
  refine gives_whenever he (by rw [hx, ht]; rfl) ?_
  rw [State.receiveFlit_sequenced hok (by rw [ht]; rfl), if_pos hin, State.acknowledge_eq hremap,
    (State.takeFlit_eq _ k f).2.1 w ht, State.link_putLink_same, State.link_putLink_same]
  have hexpect : ((s.link k).acked f.aseq).expect = (s.link k).expect := rfl
  rw [hexpect]
  refine ⟨?_, fun h => ?_, fun h => ?_⟩
  · split_ifs <;> rfl
  · rw [if_pos (by simpa using h)]
  · rw [if_neg (by simpa using h)]

/-- A remap flit in order (R438). -/
theorem gives_remapFlit {f : Flit} {site ch : Nat} (hok : f.ok = true) (ht : f.type = .remap site ch)
    (hin : f.fseq = (s.link k).expect) : Gives (.remapFlit k f) s (fun t => (t.link k).expect = (s.link k).expect + 1) := by
  have he : exec (.remapFlit k f) s = whenever ((s.link k).carries && match f.type with
      | .remap _ _ => true
      | _ => false) s (s.receiveFlit k f) := rfl
  refine gives_whenever he (by rw [hx, ht]; rfl) ?_
  rw [State.receiveFlit_sequenced hok (by rw [ht]; rfl), if_pos hin, State.acknowledge_eq hremap,
    (State.takeFlit_eq _ k f).2.2 site ch ht, State.link_putLink_same, State.link_putLink_same]
  rfl

end Receive

/-! ### NAKs -/

theorem State.assistedPair_putLink (s : State) (k : Nat) (x : Link) (f n : Nat) :
    (s.putLink k x).assistedPair f n = s.assistedPair f n := rfl

section Nak

variable {s : State} {k : Nat} (hx : (s.link k).carries = true) (hremap : (s.link k).remap = none)
include hx hremap

omit hx in
/-- A NAK that arrives: the flits before it are acknowledged, and the others are sent again (R434, R436). -/
theorem State.receiveFlit_nak (n : BitVec 12) : s.receiveFlit k (bareFlit .nak n (n - 1) 0) =
    if 8 ≤ (((s.link k).acked (n - 1)).replay n).nakRun then
      ((s.putLink k ((s.link k).acked (n - 1))).putLink k (((s.link k).acked (n - 1)).replay n)).mustRetrain k
    else (s.putLink k ((s.link k).acked (n - 1))).putLink k (((s.link k).acked (n - 1)).replay n) := by
  have hrecv : s.receiveFlit k (bareFlit .nak n (n - 1) 0) =
      if 8 ≤ (((s.acknowledge k (n - 1)).link k).replay n).nakRun then
        ((s.acknowledge k (n - 1)).putLink k (((s.acknowledge k (n - 1)).link k).replay n)).mustRetrain k
      else (s.acknowledge k (n - 1)).putLink k (((s.acknowledge k (n - 1)).link k).replay n) := rfl
  rw [hrecv, State.acknowledge_eq hremap, State.link_putLink_same]

theorem gives_nak_first {n : BitVec 12} (h : (s.link k).nakLast ≠ n) : Gives (.nakFlitReceive k n) s (fun t =>
    (t.link k).again = (dropAcked (n - 1) (s.link k).sent).dropWhile (fun g => g.fseq != n) ∧ (t.link k).nakRun = 1) := by
  have he : exec (.nakFlitReceive k n) s =
      whenever (s.link k).carries s (s.receiveFlit k (bareFlit .nak n (n - 1) 0)) := rfl
  have hrun : (((s.link k).acked (n - 1)).replay n).nakRun = 1 :=
    if_neg (by rw [beq_iff_eq]; exact h)
  refine gives_whenever he hx ?_
  rw [State.receiveFlit_nak hremap, hrun, if_neg (by decide), State.link_putLink_same]
  exact ⟨rfl, hrun⟩

/-- The eighth NAK in a row that names one FSEQ (R436). -/
theorem gives_nak_eighth {n : BitVec 12} (h : (s.link k).nakLast = n) (hrun : 7 ≤ (s.link k).nakRun)
    (hsame : dropAcked (n - 1) (s.link k).sent = (s.link k).sent) :
    (s.assistedPair (pairOfLink k) 2 = false → Gives (.nakFlitReceive k n) s (fun t => (t.link k).state = .retraining)) ∧
    (s.assistedPair (pairOfLink k) 2 = true → Gives (.nakFlitReceive k n) s (fun t => (t.link k).state = .down)) := by
  have hcount : (((s.link k).acked (n - 1)).replay n).nakRun = (s.link k).nakRun + 1 := by
    have hlast : (((s.link k).acked (n - 1)).nakLast == n) = true := by simpa [Link.acked] using h
    have hkept : ((s.link k).acked (n - 1)).nakRun = (s.link k).nakRun := if_neg (by rw [hsame]; omega)
    unfold Link.replay
    dsimp only
    rw [if_pos hlast, hkept]
  have he : exec (.nakFlitReceive k n) s =
      whenever (s.link k).carries s (((s.putLink k ((s.link k).acked (n - 1))).putLink k
        (((s.link k).acked (n - 1)).replay n)).mustRetrain k) := by
    rw [show exec (.nakFlitReceive k n) s =
      whenever (s.link k).carries s (s.receiveFlit k (bareFlit .nak n (n - 1) 0)) from rfl,
      State.receiveFlit_nak hremap, if_pos (by omega)]
  generalize ((s.link k).acked (n - 1)).replay n = y at he
  generalize (s.link k).acked (n - 1) = x at he
  have hspec := State.mustRetrain_spec ((s.putLink k x).putLink k y) k
  rw [State.assistedPair_putLink, State.assistedPair_putLink] at hspec
  exact ⟨fun ha => gives_whenever he hx (hspec.1 ha).1, fun ha => gives_whenever he hx (hspec.2 ha)⟩

end Nak

/-! ### A retraining that ends -/

/-- A channel as a retraining leaves it: up where it works and has light, else DOWN (R442, R449). -/
def State.retrainChan (works : List Nat) (acc : State) (c : Nat) : State :=
  if (acc.chan c).state == .parked then acc
  else if works.contains c && acc.lit c then
    acc.putChan c { acc.chan c with state := .active, trying := false, tried := true, ps1 := false }
  else if (acc.chan c).state == .down then acc
  else acc.chanDown c

/-- What a fold over channels keeps of a state s: the lines, whether channels not yet met are as they were, and a link but for
its remap. -/
structure State.RetrainKeeps (s t : State) : Prop where
  optical : s.Optical t
  link : ∀ k, ∃ r, (t.link k) = { s.link k with remap := r }

theorem State.RetrainKeeps.trans {s t u : State} (h : s.RetrainKeeps t) (h' : t.RetrainKeeps u) : s.RetrainKeeps u := by
  refine ⟨h.optical.trans h'.optical, fun k => ?_⟩
  obtain ⟨r, hr⟩ := h.link k
  obtain ⟨r', hr'⟩ := h'.link k
  exact ⟨r', by rw [hr', hr]⟩

/-- One channel of a retraining: the others stay, and it is up or DOWN, unless it is parked. -/
theorem State.retrainChan_spec (works : List Nat) (s : State) (c : Nat) : s.RetrainKeeps (s.retrainChan works c) ∧
    (∀ d, d ≠ c → (s.retrainChan works c).chan d = s.chan d) ∧
    ((s.chan c).state = .parked → (s.retrainChan works c).chan c = s.chan c) ∧
    ((s.chan c).state ≠ .parked → ((s.retrainChan works c).chan c).state =
      if c ∈ works ∧ s.lit c = true then .active else .down) := by
  have hrefl : s.RetrainKeeps s := ⟨.refl s, fun k => ⟨_, rfl⟩⟩
  unfold State.retrainChan
  by_cases hpark : (s.chan c).state = .parked
  · rw [if_pos (by simp [hpark])]
    exact ⟨hrefl, fun _ _ => rfl, fun _ => rfl, fun h => absurd hpark h⟩
  rw [if_neg (by simpa using hpark)]
  by_cases hup : c ∈ works ∧ s.lit c = true
  · rw [if_pos (by simpa using hup)]
    refine ⟨⟨s.optical_putChan _ _, fun k => ⟨_, rfl⟩⟩, fun d hd => State.chan_putChan_other _ _ hd,
      fun h => absurd h hpark, fun _ => ?_⟩
    rw [State.chan_putChan_same, if_pos hup]
  rw [if_neg (by simpa using hup)]
  by_cases hdown : (s.chan c).state = .down
  · rw [if_pos (by simp [hdown])]
    exact ⟨hrefl, fun _ _ => rfl, fun _ => rfl, fun _ => by rw [if_neg hup, hdown]⟩
  rw [if_neg (by simpa using hdown)]
  obtain ⟨hopt, hother, hstate, -⟩ := s.chanDown_spec c
  exact ⟨⟨hopt, s.link_chanDown c⟩, hother, fun h => absurd h hpark, fun _ => by rw [if_neg hup]; exact hstate⟩

theorem State.Optical.lit {s t : State} (h : s.Optical t) (c : Nat) : t.lit c = s.lit c := by
  unfold State.lit
  rw [h.line]

/-- The channels of a retraining, in turn. -/
theorem State.retrainChans_spec (works : List Nat) (cs : List Nat) (s : State) :
    s.RetrainKeeps (cs.foldl (State.retrainChan works) s) ∧
    (∀ d, d ∉ cs → (cs.foldl (State.retrainChan works) s).chan d = s.chan d) ∧
    (∀ d ∈ cs, (s.chan d).state = .parked → (cs.foldl (State.retrainChan works) s).chan d = s.chan d) ∧
    ∀ d ∈ cs, (s.chan d).state ≠ .parked → ((cs.foldl (State.retrainChan works) s).chan d).state =
      if d ∈ works ∧ s.lit d = true then .active else .down := by
  induction cs generalizing s with
  | nil => exact ⟨⟨.refl s, fun k => ⟨_, rfl⟩⟩, fun _ _ => rfl, by simp, by simp⟩
  | cons c cs ih =>
    obtain ⟨hkeep, hother, hparked, hstate⟩ := s.retrainChan_spec works c
    obtain ⟨ikeep, iother, iparked, istate⟩ := ih (s.retrainChan works c)
    rw [List.foldl_cons]
    refine ⟨hkeep.trans ikeep, fun d hd => ?_, fun d hd hp => ?_, fun d hd hp => ?_⟩
    · rw [iother d (fun h => hd (by simp [h])), hother d (fun h => hd (by simp [h]))]
    · have hsame : (s.retrainChan works c).chan d = s.chan d := by
        by_cases h : d = c
        · rw [h]
          exact hparked (by rwa [← h])
        · exact hother d h
      by_cases hin : d ∈ cs
      · rw [iparked d hin (by rwa [hsame]), hsame]
      · rw [iother d hin, hsame]
    · have hstep : ((s.retrainChan works c).chan d).state ≠ .parked := by
        by_cases h : d = c
        · rw [h, hstate (by rwa [← h])]
          split_ifs <;> simp
        · rwa [hother d h]
      by_cases hin : d ∈ cs
      · rw [istate d hin hstep, hkeep.optical.lit]
      · have h : d = c := by simpa [hin] using hd
        rw [iother d hin, h, hstate (by rwa [← h])]

/-- The end of a retraining that has brought up channels: the link rises with width w (R442, R443). -/
def State.raised (s1 : State) (k w : Nat) (r : Retrained) : State :=
  let x := { (s1.link k).rise w with failures := 0, version := (abnelCommon r.lo r.hi).getD (s1.link k).version }
  let s2 := ((s1.putLink k x).settleLink k).setEvt (pairOfLink k)
  (linkChans k).foldl State.shareDone (s2.endPlans (retrainsLink k) 2)

/-- The channels that a retraining finds working, if the ends have a version in common. -/
def commonWorks (r : Retrained) : List Nat := if (abnelCommon r.lo r.hi).isSome then r.works else []

theorem State.retrainUp_eq (s : State) (k : Nat) (r : Retrained) : s.retrainUp k r =
    if ((linkChans k).foldl (State.retrainChan (commonWorks r)) s).widthFor k = 0 then (linkChans k).foldl (State.retrainChan (commonWorks r)) s
    else ((linkChans k).foldl (State.retrainChan (commonWorks r)) s).raised k
      (((linkChans k).foldl (State.retrainChan (commonWorks r)) s).widthFor k) r := rfl

/-! ### A link that rises -/

/-- A channel counts for the width of its link. -/
def Chan.counts (x : Chan) : Bool := x.state == .active && !x.parking

theorem State.wakeChan_counts (s : State) (k c d : Nat) : ((s.wakeChan k c).chan d).counts = (s.chan d).counts ∧
    ∀ j, (s.wakeChan k c).link j = s.link j := by
  unfold State.wakeChan
  dsimp only
  split_ifs with h
  · refine ⟨?_, fun _ => rfl⟩
    rw [State.chan_putChan]
    split_ifs with hd
    · subst hd
      simp only [Bool.and_eq_true, beq_iff_eq] at h
      simp only [Chan.counts, h.1.1.1]
      rfl
    · rfl
  · exact ⟨rfl, fun _ => rfl⟩

theorem State.wakeChans_counts (k : Nat) (cs : List Nat) (s : State) :
    (∀ d, ((cs.foldl (fun acc c => acc.wakeChan k c) s).chan d).counts = (s.chan d).counts) ∧
    ∀ j, (cs.foldl (fun acc c => acc.wakeChan k c) s).link j = s.link j := by
  induction cs generalizing s with
  | nil => exact ⟨fun _ => rfl, fun _ => rfl⟩
  | cons c cs ih =>
    obtain ⟨hcount, hlink⟩ := ih (s.wakeChan k c)
    exact ⟨fun d => (hcount d).trans (s.wakeChan_counts k c d).1, fun j => (hlink j).trans ((s.wakeChan_counts k c 0).2 j)⟩

theorem State.link_parkChans (k : Nat) (cs : List Nat) (s : State) (j : Nat) :
    (cs.foldl (fun acc c => acc.parkChan k c) s).link j = s.link j := by
  induction cs generalizing s with
  | nil => rfl
  | cons c cs ih =>
    rw [List.foldl_cons, ih]
    unfold State.parkChan
    dsimp only
    split_ifs <;> rfl

/-- The width of a link is that of the channels that count and of the width asked for. -/
theorem State.widthFor_congr {s t : State} {k : Nat} (hc : ∀ d, (t.chan d).counts = (s.chan d).counts)
    (hl : t.link k = s.link k) : t.widthFor k = s.widthFor k := by
  have hactive : t.activeChans k = s.activeChans k := List.filter_congr (fun d _ => hc d)
  unfold State.widthFor State.targetOf
  rw [hactive, hl]

/-- A link that is up at its width stays up. -/
theorem State.settleLink_up {s : State} {k : Nat} (hup : (s.link k).state = .up) (hw : (s.link k).curw = s.widthFor k)
    (hpos : s.widthFor k ≠ 0) : ((s.settleLink k).link k).state = .up ∧
      ((s.settleLink k).link k).failures = (s.link k).failures := by
  obtain ⟨hcount, hlink⟩ := State.wakeChans_counts k (linkChans k) s
  unfold State.settleLink
  rw [if_neg (by simp [hup])]
  generalize (linkChans k).foldl (fun acc c => acc.wakeChan k c) s = s1 at hcount hlink
  have hwidth : s1.widthFor k = s.widthFor k := State.widthFor_congr hcount (hlink k)
  dsimp only
  rw [hwidth, hlink k, hup]
  dsimp only
  rw [if_neg hpos]
  split_ifs with hcairn
  · rw [State.link_parkChans, hlink k]
    exact ⟨hup, rfl⟩
  · rw [State.link_parkChans, State.link_putLink_same]
    exact ⟨rfl, rfl⟩
  · next hne => exact absurd hw.symm hne

/-- A link that has risen after its retraining (R408, R442). -/
theorem State.raised_spec {s1 : State} {k w : Nat} {r : Retrained} (hw : s1.widthFor k = w) (hpos : w ≠ 0) {v : Nat}
    (hv : abnelCommon r.lo r.hi = some v) : ((s1.raised k w r).link k).state = .up ∧
      ((s1.raised k w r).link k).failures = 0 ∧ ((s1.raised k w r).link k).version = v ∧
      ∀ d, (s1.chan d).Follows ((s1.raised k w r).chan d) := by
  have hends : ∀ (cs : List Nat) (u : State), (cs.foldl State.shareDone u).link k = u.link k ∧
      ∀ d, (cs.foldl State.shareDone u).chan d = u.chan d := fun cs u =>
    List.foldlRecOn cs _ (motive := fun t : State => t.link k = u.link k ∧ ∀ d, t.chan d = u.chan d) ⟨rfl, fun _ => rfl⟩
      (fun t ht c _ => ⟨(t.link_shareDone c k).trans ht.1, fun d => (t.chan_shareDone c d).trans (ht.2 d)⟩)
  unfold State.raised
  dsimp only
  obtain ⟨hlink, hchan⟩ := hends (linkChans k) ((((s1.putLink k { (s1.link k).rise w with
    failures := 0, version := (abnelCommon r.lo r.hi).getD (s1.link k).version }).settleLink k).setEvt (pairOfLink k)).endPlans
      (retrainsLink k) 2)
  rw [hlink, State.link_endPlans, State.link_setEvt]
  rw [hv] at *
  dsimp only [Option.getD] at *
  generalize hx : ({ (s1.link k).rise w with failures := 0, version := v } : Link) = x at *
  have hxk : (s1.putLink k x).link k = x := State.link_putLink_same ..
  have hwidth : (s1.putLink k x).widthFor k = w := by
    rw [← hw]
    have htarget : (s1.putLink k x).targetOf k = s1.targetOf k := by
      unfold State.targetOf
      rw [hxk, ← hx]
      rfl
    unfold State.widthFor
    rw [htarget]
    rfl
  obtain ⟨hup, hfail⟩ := State.settleLink_up (s := s1.putLink k x) (k := k) (by rw [hxk, ← hx]; rfl)
    (by rw [hxk, hwidth, ← hx]; rfl) (by rw [hwidth]; exact hpos)
  have hset := (s1.putLink k x).settles_settleLink k
  refine ⟨hup, ?_, ?_, fun d => ?_⟩
  · rw [hfail, hxk, ← hx]
  · rw [hset.version, hxk, ← hx]
  · rw [hchan, State.chan_endPlans, State.chan_setEvt]
    exact hset.chan d

theorem exec_retrainComplete (k : Nat) (e : Retrained) (s : State) : exec (.retrainComplete k e) s =
    whenever ((s.link k).state == .retraining && !s.opticsHeld) s
      (if ((s.retrainUp k e).link k).state != .retraining then s.retrainUp k e
       else if 2 ≤ (s.link k).failures then s.linkDown k
       else (s.putLink k { s.link k with failures := (s.link k).failures + 1 }).retrain k) := rfl

section Retraining

variable {s : State} {k : Nat} (hstate : (s.link k).state = .retraining)
include hstate

/-- With no width the link still retrains. -/
theorem State.retrainUp_none {e : Retrained}
    (h : ((linkChans k).foldl (State.retrainChan (commonWorks e)) s).widthFor k = 0) :
    ((s.retrainUp k e).link k).state = .retraining := by
  rw [State.retrainUp_eq, if_pos h]
  obtain ⟨⟨-, hlink⟩, -⟩ := State.retrainChans_spec (commonWorks e) (linkChans k) s
  obtain ⟨r, hr⟩ := hlink k
  rw [hr]
  exact hstate

/-- With no channel that works no width is left (R442). -/
theorem State.retrainUp_dark {e : Retrained} (h : commonWorks e = []) : ((s.retrainUp k e).link k).state = .retraining := by
  refine State.retrainUp_none hstate ?_
  rw [h]
  obtain ⟨-, -, hparked, hdown⟩ := State.retrainChans_spec [] (linkChans k) s
  generalize (linkChans k).foldl (State.retrainChan []) s = s1 at hparked hdown
  have hactive : s1.activeChans k = [] := by
    refine List.filter_eq_nil_iff.mpr fun c hc => ?_
    by_cases hp : (s.chan c).state = .parked
    · rw [hparked c hc hp, hp]
      simp
    · rw [hdown c hc hp]
      simp
  unfold State.widthFor
  rw [hactive]
  simp [widthAtMost]

variable (hawake : s.opticsHeld = false)
include hawake

/-- A retraining that succeeds (R408, R442). -/
theorem gives_retrained_up {e : Retrained} (hlo : e.lo ≤ min e.hi 2) (hone : 1 ≤ min e.hi 2)
    (hup : ((s.retrainUp k e).link k).state ≠ .retraining) : Gives (.retrainComplete k e) s (fun t =>
      (t.link k).state = .up ∧ (t.link k).failures = 0 ∧ (t.link k).version = min e.hi 2 ∧
      ∀ c ∈ linkChans k, (s.chan c).state ≠ .parked →
        (c ∈ e.works → s.lit c = true → (t.chan c).state = .active) ∧ (c ∉ e.works → (t.chan c).state = .down)) := by
  refine gives_whenever (exec_retrainComplete k e s) (by simp [hstate, hawake]) ?_
  rw [if_pos (by simpa using hup)]
  have hv := abnelCommon_some hlo hone
  have hworks : commonWorks e = e.works := by unfold commonWorks; rw [hv]; rfl
  have hwidth : ((linkChans k).foldl (State.retrainChan (commonWorks e)) s).widthFor k ≠ 0 :=
    fun h => hup (State.retrainUp_none hstate h)
  rw [State.retrainUp_eq, if_neg hwidth]
  obtain ⟨-, -, -, hchan⟩ := State.retrainChans_spec (commonWorks e) (linkChans k) s
  rw [hworks] at hchan hwidth ⊢
  obtain ⟨hs, hf, hver, hfollow⟩ := State.raised_spec (r := e) rfl hwidth hv
  refine ⟨hs, hf, hver, fun c hc hp => ⟨fun hin hlit => ?_, fun hout => ?_⟩⟩
  · exact (hfollow c).active (by rw [hchan c hc hp, if_pos ⟨hin, hlit⟩])
  · have hdown := hchan c hc hp
    rw [if_neg (fun h => hout h.1)] at hdown
    rw [(hfollow c).still (.inl (by simp [hdown])) (by simp [hdown]), hdown]

/-- A retraining without a common version, or with no channel that works (R436, R442). -/
theorem gives_retrained_none {e : Retrained} (h : e.works = [] ∨ ¬ (e.lo ≤ min e.hi 2 ∧ 1 ≤ min e.hi 2)) :
    ((s.link k).failures < 2 → Gives (.retrainComplete k e) s (fun t => (t.link k).state = .retraining ∧
      (t.link k).failures = (s.link k).failures + 1)) ∧
    (2 ≤ (s.link k).failures → Gives (.retrainComplete k e) s (fun t => (t.link k).state = .down)) := by
  have hworks : commonWorks e = [] := by
    unfold commonWorks
    obtain h | h := h
    · rw [h, ite_self]
    · rw [abnelCommon_none h]
      rfl
  have hdark := State.retrainUp_dark hstate hworks
  have hgo : ((s.link k).state == .retraining && !s.opticsHeld) = true := by simp [hstate, hawake]
  refine ⟨fun hfew => gives_whenever (exec_retrainComplete k e s) hgo ?_,
    fun hmany => gives_whenever (exec_retrainComplete k e s) hgo ?_⟩
  · rw [if_neg (by simp [hdark]), if_neg (by omega), State.link_retrain, State.link_putLink_same]
    exact ⟨rfl, rfl⟩
  · rw [if_neg (by simp [hdark]), if_pos hmany]
    exact s.linkDown_down k

end Retraining

/-! ### The statement -/

/-- Settles O56, by what a link sends, what it does with a flit that arrives, and how a retraining ends. -/
theorem linksCarryFlitsInOrder : Obligations.LinksCarryFlitsInOrder := by
  unfold Obligations.LinksCarryFlitsInOrder
  intro s k x mine retrains
  refine ⟨fun hpeer => ?_, fun peer hk hx hpeer => ?_, fun peer j hj => State.dealtTo_spec hj, fun peer op => rfl,
    fun f hx hremap => ?_, fun n hx hremap hlast hrun hsame => gives_nak_eighth hx hremap hlast hrun hsame,
    fun hx hsent => gives_mustRetrain (exec_ackTimeout k s) ?_, fun c hc hx hin => ?_, fun hstate hheld e => ?_,
    fun hstate hawake e => ?_⟩
  · refine ⟨_, exec_flitSend k s, ?_⟩
    unfold State.flitBoundary
    rw [hpeer, ite_self]
  · refine ⟨gives_flitSend_nak hk hx hpeer, fun f hnak hf => gives_flitSend_replay hk hx hpeer hnak hf,
      fun hnak hother hfull => gives_flitSend_full hk hx hpeer hnak hother hfull,
      fun hnak hother hroom hremap hwidth hswap hctl hturn => gives_flitSend_dealt hk hx hpeer hnak hother hroom hremap hwidth
        hswap hctl (State.sendDealt_other hturn), fun hturn => ?_⟩
    refine ⟨fun m hfree hm => gives_flitSend_message hturn hfree hm, fun j f hj hf => gives_flitSend_stranded hturn hj hf,
      fun n d rest hfree hnone hn hq => ?_⟩
    exact ⟨gives_flitSend_bytes hturn hfree hnone hn hq, fun off r hbad hr =>
      gives_flitSend_failed hturn hfree hnone hn hq hbad hr⟩
  · exact ⟨fun h => gives_discarded hx h, fun m hok ht hm => gives_dataFlit hx hremap hok ht hm,
      fun w hok ht hin => gives_widthFlit hx hremap hok ht hin, fun site ch hok ht hin => gives_remapFlit hx hremap hok ht hin,
      fun n h => gives_nak_first hx hremap h⟩
  · simp only [show (s.link k).carries = true from hx, Bool.true_and]
    simpa using hsent
  · subst hc
    exact gives_mustRetrain (exec_clockRecoveryLoss c s)
      (by simp only [show (s.link (s.linkOf c)).carries = true from hx, Bool.true_and]; simpa using hin)
  · refine ⟨_, exec_retrainComplete k e s, if_neg ?_⟩
    simp [hheld]
  · intro common
    exact ⟨fun hcommon hup => gives_retrained_up hstate hawake hcommon.1 hcommon.2 hup,
      fun h => gives_retrained_none hstate hawake h⟩

end Sys2Proof.Machine
end
section
/-! PROOFS. O40, who may read and write which register, and what a read, a write and the host's accesses do (R389, R391, R393,
R402). -/

namespace Sys2Proof.Machine

/-! ### The words -/

theorem exec_sysrd {c : Ctx} (hs : c.s.issuing = some c) (d : RegField) (addr : BitVec 16) : exec (.sysrd d addr) c.s =
    c.run (c.onceStop (scalarDst d) true (c.mayRead addr.toNat) [] [] [] (regsOf d false))
      (c.onceDo ((c.scalarResult d (BitVec.ofNat 32 (c.sysReg addr.toNat))).afterRead false c.part addr.toNat)) :=
  withIssue_some hs _

theorem exec_syswr {c : Ctx} (hs : c.s.issuing = some c) (d : RegField) (addr : BitVec 16) : exec (.syswr d addr) c.s =
    c.run (c.onceStop (scalarOk d) true (c.mayWrite addr.toNat) [] [] (regsOf d false) [])
      (c.onceDo (c.writeSys addr.toNat (c.readS d))) := withIssue_some hs _

theorem exec_registerWrite (src : Source) (part a : Nat) (v : Word) (s : State) : exec (.registerWrite src part a v) s =
    whenever (s.hostReaches (src == .pf) a && s.hostMayWrite (src == .pf) part a) s (s.writeShared (src == .pf) part a v) := rfl

section Privilege

variable (c : Ctx)

theorem Ctx.mayRead_iff (n : Nat) : c.mayRead n = true ↔ ((0x1000 ≤ n ∧ n < 0x1800 → c.privileged = true) ∧
    (0x1800 ≤ n ∧ n < 0x1900 → c.privileged = true ∨ c.g.inh = true)) := by
  unfold Ctx.mayRead
  split_ifs with h1 h2
  · simp [h1, show ¬ (0x1800 ≤ n ∧ n < 0x1900) by omega]
  · simp [h1, h2]
  · simp [h1, h2]

theorem Ctx.mayWrite_iff (n : Nat) : c.mayWrite n = true ↔ ((0x1000 ≤ n ∧ n < 0x1800 → c.privileged = true) ∧
    (0x1800 ≤ n ∧ n < 0x18C0 → c.privileged = true ∨ c.g.inh = true) ∧
    (0x18C0 ≤ n ∧ n < 0x1900 → c.privileged = true) ∧
    (0x4000 ≤ n ∧ n < 0x5800 → c.privileged = true ∧ c.s.ownsSome c.part = true)) := by
  unfold Ctx.mayWrite
  split_ifs with h1 h2 h3 h4
  · simp [h1, show ¬ (0x1800 ≤ n ∧ n < 0x18C0) by omega, show ¬ (0x18C0 ≤ n ∧ n < 0x1900) by omega,
      show ¬ (0x4000 ≤ n ∧ n < 0x5800) by omega]
  · simp [h1, h2, show ¬ (0x18C0 ≤ n ∧ n < 0x1900) by omega, show ¬ (0x4000 ≤ n ∧ n < 0x5800) by omega]
  · simp [h1, h2, h3, show ¬ (0x4000 ≤ n ∧ n < 0x5800) by omega]
  · simp [h1, h2, h3, h4]
  · simp [h1, h2, h3, h4]

/-- A word without the privilege that it asks for (R389). -/
theorem Ctx.run_unprivileged {fields : Bool} {d writes : List RegRef} {t : State} (hf : fields = true)
    (hi : c.interlock (d ++ c.guardRegs ++ writes) = none) :
    c.run (c.onceStop fields true false [] [] d writes) t = .next (c.raise Cause.privileged) := by
  have hchecks : c.onceChecks fields true false [] [] d writes = some (.trap Cause.privileged) := by
    unfold Ctx.onceChecks
    rw [List.nil_append, List.nil_append, hi, hf]
    rfl
  rw [Ctx.onceStop, hchecks]
  rfl

end Privilege

/-! ### Reads and writes of the issuing gang -/

/-- What a read clears stands outside the gangs. -/
theorem State.afterRead_putGang (s : State) (pf : Bool) (part a id : Nat) (g : Gang) :
    (s.putGang id g).afterRead pf part a = (s.afterRead pf part a).putGang id g := by
  unfold State.afterRead
  simp only [apply_ite (fun t : State => t.putGang id g)]
  rfl

section Issuing

variable {c : Ctx} (hs : c.s.issuing = some c) (d : RegField) (addr : BitVec 16)
include hs

/-- SYSRD of a register that may be read: its value, and what reading clears (R6, R391). -/
theorem gives_sysrd (hstop : c.onceStop (isSreg d) true (c.mayRead addr.toNat) [] [] [] (regsOf d false) = none) :
    (c.once = false → Gives (.sysrd d addr) c.s (c.wrote c.g.settled)) ∧
    (c.once = true → Gives (.sysrd d addr) c.s (c.went (c.s.afterRead false c.part addr.toNat) c.g (c.pc + 4)
      (fun e => if e = .s (d.toNat - 0xC0) then BitVec.ofNat 32 (c.sysReg addr.toNat) else c.g.settled e))) := by
  refine ⟨fun off => gives_run (exec_sysrd hs d addr) hstop (Ctx.wrote_onceDo off _),
    fun on => gives_run (exec_sysrd hs d addr) hstop ?_⟩
  rw [Ctx.onceDo_true on]
  obtain ⟨g', hput, hrest, hgroups, helem⟩ := Ctx.wroteAt_scalarResult on d (BitVec.ofNat 32 (c.sysReg addr.toNat))
  rw [hput, State.afterRead_putGang]
  refine ⟨g', rfl, hrest, hgroups, fun e => (helem e).trans ?_⟩
  by_cases he : e = .s (d.toNat - 0xC0)
  · subst he
    simp
  · simp [he, Ne.symm he]

/-- SYSWR of a register that may be written (R391). -/
theorem gives_syswr (hstop : c.onceStop (scalarOk d) true (c.mayWrite addr.toNat) [] [] (regsOf d false) [] = none) :
    (c.once = false → Gives (.syswr d addr) c.s (c.wrote c.g.settled)) ∧
    (c.once = true → exec (.syswr d addr) c.s = .next (c.writeSys addr.toNat (c.readS d))) := by
  refine ⟨fun off => gives_run (exec_syswr hs d addr) hstop (Ctx.wrote_onceDo off _), fun on => ?_⟩
  rw [exec_syswr hs, hstop, Ctx.onceDo_true on]
  rfl

end Issuing

section Written

variable (c : Ctx) (n : Nat) (v : Word)

theorem Ctx.writeSys_plumb (h : n < 0x200) :
    c.went c.s (c.g.writePlumb n v) (c.pc + 4) c.g.settled (c.writeSys n v) := by
  have hgroups : (c.g.writePlumb n v).groups = c.g.groups := by unfold Gang.writePlumb; split_ifs <;> rfl
  have hset : ∀ e, (c.g.writePlumb n v).settled e = c.g.settled e := fun e => by
    unfold Gang.writePlumb
    split_ifs
    · exact Gang.settled_congr (by rfl) (by rfl) (by rfl) (by rfl) e
    · exact Gang.settled_congr (by rfl) (by rfl) (by rfl) (by rfl) e
    · exact Gang.settled_congr (by rfl) (by rfl) (by rfl) (by rfl) e
    · rfl
  rw [Ctx.writeSys, if_pos h]
  exact Ctx.went_congr rfl hset (went_next c c.s _ hgroups)

theorem Ctx.writeSys_trap (h1 : 0x1800 ≤ n) (h2 : n < 0x18C0) :
    c.went c.s (c.g.writeTrap n v) (c.pc + 4) c.g.settled (c.writeSys n v) := by
  have hgroups : (c.g.writeTrap n v).groups = c.g.groups := by unfold Gang.writeTrap; dsimp only; split_ifs <;> rfl
  have hset : ∀ e, (c.g.writeTrap n v).settled e = c.g.settled e := fun e => by
    unfold Gang.writeTrap
    dsimp only
    split_ifs
    · exact Gang.settled_congr (by rfl) (by rfl) (by rfl) (by rfl) e
    · exact Gang.settled_congr (by rfl) (by rfl) (by rfl) (by rfl) e
    · exact Gang.settled_congr (by rfl) (by rfl) (by rfl) (by rfl) e
    · rfl
  rw [Ctx.writeSys, if_neg (by omega), if_pos ⟨h1, h2⟩]
  exact Ctx.went_congr rfl hset (went_next c c.s _ hgroups)

theorem Ctx.writeSys_wr (h1 : 0x1200 ≤ n) (h2 : n < 0x1280) (h3 : n % 4 = 3) :
    c.writeSys n v = c.skip.releaseToIod.writeShared false c.part n v := by
  rw [Ctx.writeSys, if_neg (by omega), if_neg (by omega), if_pos ⟨h1, h2, h3⟩]

theorem Ctx.writeSys_shared (h1 : 0x200 ≤ n) (h2 : ¬ (0x1800 ≤ n ∧ n < 0x18C0))
    (h3 : ¬ (0x1200 ≤ n ∧ n < 0x1280 ∧ n % 4 = 3)) : c.writeSys n v = c.skip.writeShared false c.part n v := by
  rw [Ctx.writeSys, if_neg (by omega), if_neg h2, if_neg h3]

end Written

/-! ### The host -/

/-- Before the package is READY only the physical function reaches a register (R469). -/
theorem State.hostReaches_unready {s : State} (h : s.house.phase ≠ 5) (a : Nat) : s.hostReaches false a = false := by
  have hready : s.isReady = false := by simpa [State.isReady] using h
  simp [State.hostReaches, hready]

/-- What a read clears stands in the partitions and the links. -/
theorem State.afterRead_shape (s : State) (pf : Bool) (part a : Nat) : ∃ ps ls,
    s.afterRead pf part a = { s with parts := ps, links := ls } := by
  unfold State.afterRead
  dsimp only
  split_ifs <;> exact ⟨_, _, rfl⟩

/-- The counters that a read clears (Tables 16.3 and 17.7). -/
theorem State.afterRead_clears (s : State) (pf : Bool) (part : Nat) :
    ((s.afterRead pf part 0x100F).part part).fqlost = 0 ∧ ((s.afterRead pf part 0x18C7).part part).stopLost = 0 ∧
    ((s.afterRead pf part 0x18C8).part part).sece = 0 ∧ ((s.afterRead pf part 0x18C9).part part).seue = 0 := by
  simp [State.afterRead]

/-- A host's read (R389, R390, R393). -/
theorem State.hostRegister_spec (s : State) (src : Source) (part a : Nat) :
    (s.hostReaches (src == .pf) a = false → s.hostRegister src part a = s) ∧
    (s.hostReaches (src == .pf) a = true →
      (s.hostRegister src part a).out =
        s.out ++ [.hostRegister src part a (BitVec.ofNat 32 (s.sharedReg (src == .pf) part a))] ∧
      (s.hostRegister src part a).gangs = s.gangs ∧ (s.hostRegister src part a).vault = s.vault ∧
      (a = 0x100F → ((s.hostRegister src part a).part part).fqlost = 0) ∧
      (a = 0x18C7 → ((s.hostRegister src part a).part part).stopLost = 0) ∧
      (a = 0x18C8 → ((s.hostRegister src part a).part part).sece = 0) ∧
      (a = 0x18C9 → ((s.hostRegister src part a).part part).seue = 0)) := by
  refine ⟨fun h => if_neg (by simp [h]), fun h => ?_⟩
  have hread : s.hostRegister src part a =
      (s.emit (.hostRegister src part a (BitVec.ofNat 32 (s.sharedReg (src == .pf) part a)))).afterRead (src == .pf) part a :=
    if_pos h
  rw [hread]
  generalize Out.hostRegister src part a (BitVec.ofNat 32 (s.sharedReg (src == .pf) part a)) = o
  obtain ⟨ps, ls, hshape⟩ := (s.emit o).afterRead_shape (src == .pf) part a
  obtain ⟨hlost, hstop, hce, hue⟩ := (s.emit o).afterRead_clears (src == .pf) part
  refine ⟨by rw [hshape]; rfl, by rw [hshape]; rfl, by rw [hshape]; rfl, fun ha => ?_, fun ha => ?_, fun ha => ?_, fun ha => ?_⟩
  · rw [ha]; exact hlost
  · rw [ha]; exact hstop
  · rw [ha]; exact hce
  · rw [ha]; exact hue

/-- The first half of the statement: privilege, what the words do, and the host. -/
theorem registersAskForPrivilege {s : State} {c : Ctx} (d : RegField) (addr : BitVec 16) (src : Source) (part a : Nat) (v : Word)
    (hs : s.issuing = some c) :
    let n := addr.toNat
    (c.mayRead n = true ↔ ((0x1000 ≤ n ∧ n < 0x1800 → c.privileged = true) ∧
      (0x1800 ≤ n ∧ n < 0x1900 → c.privileged = true ∨ c.g.inh = true))) ∧
    (c.mayWrite n = true ↔ ((0x1000 ≤ n ∧ n < 0x1800 → c.privileged = true) ∧
      (0x1800 ≤ n ∧ n < 0x18C0 → c.privileged = true ∨ c.g.inh = true) ∧ (0x18C0 ≤ n ∧ n < 0x1900 → c.privileged = true) ∧
      (0x4000 ≤ n ∧ n < 0x5800 → c.privileged = true ∧ s.ownsSome c.part = true))) ∧
    (isSreg d = true → c.interlock (c.guardRegs ++ regsOf d false) = none → c.mayRead n = false →
      exec (.sysrd d addr) s = .next (c.raise Cause.privileged)) ∧
    (scalarOk d = true → c.interlock (regsOf d false ++ c.guardRegs) = none → c.mayWrite n = false →
      exec (.syswr d addr) s = .next (c.raise Cause.privileged)) ∧
    (c.onceStop (isSreg d) true (c.mayRead n) [] [] [] (regsOf d false) = none →
      (c.once = false → Gives (.sysrd d addr) s (c.wrote c.g.settled)) ∧
      (c.once = true → Gives (.sysrd d addr) s (c.went (s.afterRead false c.part n) c.g (c.pc + 4)
        (fun e => if e = .s (d.toNat - 0xC0) then BitVec.ofNat 32 (c.sysReg n) else c.g.settled e)))) ∧
    (c.onceStop (scalarOk d) true (c.mayWrite n) [] [] (regsOf d false) [] = none →
      (c.once = false → Gives (.syswr d addr) s (c.wrote c.g.settled)) ∧
      (c.once = true → n < 0x200 → Gives (.syswr d addr) s
        (c.went s (c.g.writePlumb n (c.readS d)) (c.pc + 4) c.g.settled)) ∧
      (c.once = true → 0x1800 ≤ n → n < 0x18C0 → Gives (.syswr d addr) s
        (c.went s (c.g.writeTrap n (c.readS d)) (c.pc + 4) c.g.settled)) ∧
      (c.once = true → 0x1200 ≤ n → n < 0x1280 → n % 4 = 3 →
        exec (.syswr d addr) s = .next (c.skip.releaseToIod.writeShared false c.part n (c.readS d))) ∧
      (c.once = true → 0x200 ≤ n → ¬ (0x1800 ≤ n ∧ n < 0x18C0) → ¬ (0x1200 ≤ n ∧ n < 0x1280 ∧ n % 4 = 3) →
        exec (.syswr d addr) s = .next (c.skip.writeShared false c.part n (c.readS d)))) ∧
    (s.hostReaches (src == .pf) a = true → s.hostMayWrite (src == .pf) part a = true →
      exec (.registerWrite src part a v) s = .next (s.writeShared (src == .pf) part a v)) ∧
    (s.house.phase ≠ 5 → src ≠ .pf → exec (.registerWrite src part a v) s = .next s) ∧
    (src = .pf → 0x5000 ≤ a → a < 0x5800 → exec (.registerWrite src part a v) s = .next s) ∧
    (0x18C0 ≤ a → a < 0x1900 → s.hostMayWrite true part a = false ∧ s.hostMayWrite false part a = true) := by
  obtain rfl := State.issuing_state hs
  intro n
  refine ⟨c.mayRead_iff n, c.mayWrite_iff n, fun hd hi hno => ?_, fun hd hi hno => ?_, gives_sysrd hs d addr, fun hstop => ?_,
    fun hr hw => ?_, fun hphase hsrc => ?_, fun hsrc h1 h2 => ?_, fun h1 h2 => ?_⟩
  · rw [exec_sysrd hs, show c.mayRead addr.toNat = false from hno]
    exact Ctx.run_unprivileged c hd hi
  · rw [exec_syswr hs, show c.mayWrite addr.toNat = false from hno]
    exact Ctx.run_unprivileged c hd (by rwa [List.append_nil])
  · obtain ⟨hoff, hon⟩ := gives_syswr hs d addr hstop
    exact ⟨hoff, fun on h => ⟨_, hon on, c.writeSys_plumb n _ h⟩, fun on h1 h2 => ⟨_, hon on, c.writeSys_trap n _ h1 h2⟩,
      fun on h1 h2 h3 => (hon on).trans (by rw [c.writeSys_wr _ _ h1 h2 h3]),
      fun on h1 h2 h3 => (hon on).trans (by rw [c.writeSys_shared _ _ h1 h2 h3])⟩
  · rw [exec_registerWrite, hr, hw]
    rfl
  · rw [exec_registerWrite, show (src == Source.pf) = false by simpa using hsrc, State.hostReaches_unready hphase]
    rfl
  · have hno : c.s.hostMayWrite true part a = false := by simp [State.hostMayWrite, h1, h2]
    rw [exec_registerWrite, hsrc, show (Source.pf == Source.pf) = true from rfl, hno, Bool.and_false]
    rfl
  · have hlow : ¬ (0x5000 ≤ a ∧ a < 0x5800) := by omega
    simp [State.hostMayWrite, hlow, h1, h2]

end Sys2Proof.Machine
end
section
/-! PROOFS. O40, the value of every register, field by field. -/

namespace Sys2Proof.Machine

/-! ### Fields of a number -/

/-- Bit i of a field of k bits that stands at bit lo. -/
theorem bit_of_field {lo k i L w h : Nat} (hL : L < 2 ^ lo) (hi : i < k) :
    (L + 2 ^ lo * (w + 2 ^ k * h)) / 2 ^ (lo + i) % 2 ^ 1 = w / 2 ^ i % 2 := by
  obtain ⟨m, rfl⟩ : ∃ m, k = i + (m + 1) := ⟨k - i - 1, by omega⟩
  have hsplit : w + 2 ^ (i + (m + 1)) * h = w + 2 ^ i * (2 * (2 ^ m * h)) := by rw [pow_add, pow_succ]; ring
  rw [hsplit, pow_add, ← Nat.div_div_eq_div_mul, Nat.add_mul_div_left _ _ (by positivity), Nat.div_eq_of_lt hL, Nat.zero_add,
    Nat.add_mul_div_left _ _ (by positivity)]
  omega

/-- A bit of a number as a fraction. -/
theorem div_mod_two_eq_one_iff {n : Nat} (v : BitVec n) (i : Nat) : v.toNat / 2 ^ i % 2 = 1 ↔ v.getLsbD i = true := by
  rw [BitVec.getLsbD, Nat.testBit_eq_decide_div_mod_eq, decide_eq_true_eq]

/-- Bit i of a mask field. -/
theorem maskBit_of_field {lo k i L h : Nat} (w : BitVec k) (hL : L < 2 ^ lo) (hi : i < k) :
    (L + 2 ^ lo * (w.toNat + 2 ^ k * h)) / 2 ^ (lo + i) % 2 ^ 1 = 1 ↔ w.getLsbD i = true := by
  rw [bit_of_field hL hi, div_mod_two_eq_one_iff]

/-- A field of a register as a gang reads it. -/
def Ctx.field (c : Ctx) (a lo n : Nat) : Nat := c.sysReg a / 2 ^ lo % 2 ^ n

/-! ### Where each register stands (Table 16.2) -/

section Ranges

variable (c : Ctx) (a : Nat)

theorem Ctx.sysReg_gang (h : a < 0x200) : c.sysReg a = c.gangReg a := if_pos h

theorem Ctx.sysReg_shared (h1 : 0x200 ≤ a) (h2 : ¬ (0x1800 ≤ a ∧ a < 0x18C0)) : c.sysReg a = c.s.sharedReg false c.part a := by
  rw [Ctx.sysReg, if_neg (by omega), if_neg h2]

theorem Ctx.sysReg_partition (h : 0x1000 ≤ a ∧ a < 0x1200) : c.sysReg a = c.s.partReg c.part a := by
  rw [c.sysReg_shared a (by omega) (by omega), State.sharedReg, if_pos h]

theorem Ctx.sysReg_queue {a q k : Nat} (ha : a = 0x1200 + 4 * q + k) (hq : q < 32) (hk : k < 4) :
    c.sysReg a = ((c.s.part c.part).queue q).reg k := by
  rw [c.sysReg_shared a (by omega) (by omega), State.sharedReg, if_neg (by omega), if_pos (by omega),
    show (a - 0x1200) / 4 = q by omega, show (a - 0x1200) % 4 = k by omega]

theorem Ctx.sysReg_laneRecord {a l k : Nat} (ha : a = 0x1820 + 4 * l + k) (hl : l < 32) (hk : k < 4) :
    c.sysReg a = leNat (((c.g.laneRecord l).bytes.drop (4 * k)).take 4) := by
  rw [Ctx.sysReg, if_neg (by omega), if_pos (by omega), Gang.trapReg, if_neg (by omega), if_pos (by omega),
    show (a - 0x1820) / 4 = l by omega, show (a - 0x1820) % 4 = k by omega]

theorem Ctx.sysReg_optic (h : 0x4000 ≤ a ∧ a < 0x5000) : c.sysReg a = c.s.opticReg false c.part a := by
  rw [c.sysReg_shared a (by omega) (by omega), State.sharedReg, if_neg (by omega), if_neg (by omega), if_neg (by omega),
    if_neg (by omega), if_pos h]

theorem Ctx.sysReg_circuit (h : 0x5000 ≤ a ∧ a < 0x5800) : c.sysReg a = c.s.circuitReg false c.part a := by
  rw [c.sysReg_shared a (by omega) (by omega), State.sharedReg, if_neg (by omega), if_neg (by omega), if_neg (by omega),
    if_neg (by omega), if_neg (by omega), if_pos h]

/-- An address of no range reads zero (R389). -/
theorem Ctx.sysReg_none (h : (0x40 ≤ a ∧ a < 0x180) ∨ (0x200 ≤ a ∧ a < 0x1000) ∨ (0x1280 ≤ a ∧ a < 0x1700) ∨
    (0x1704 ≤ a ∧ a < 0x1800) ∨ (0x1900 ≤ a ∧ a < 0x4000) ∨ 0x5800 ≤ a) : c.sysReg a = 0 := by
  by_cases hgang : a < 0x200
  · rw [c.sysReg_gang a hgang]
    unfold Ctx.gangReg
    repeat rw [if_neg (by omega)]
  · rw [c.sysReg_shared a (by omega) (by omega)]
    unfold State.sharedReg
    repeat rw [if_neg (by omega)]

end Ranges

/-! ### The gang's own registers (Tables 2.4, 3.10, 3.11, 8.5, 11.8) -/

theorem getLsbD_foldl_atRegang (xs : List Group) (m : SliceMask) (i : Nat) :
    (xs.foldl (fun m x => if x.atRegang then m ||| x.slices else m) m).getLsbD i = true ↔
      m.getLsbD i = true ∨ ∃ x ∈ xs, x.atRegang = true ∧ x.slices.getLsbD i = true := by
  induction xs generalizing m with
  | nil => simp
  | cons x xs ih =>
    rw [List.foldl_cons, ih]
    by_cases hx : x.atRegang = true <;> simp [hx, or_assoc]

section GangRegisters

variable (c : Ctx)

theorem Ctx.gstate_fields : c.field 0 0 8 = c.g.live.toNat ∧ c.field 0 8 8 = c.slices.toNat ∧
    c.field 0 24 4 = c.g.groups.length % 16 ∧ c.field 0 28 4 = c.g.parted.toNat ∧
    ∀ i < 8, c.field 0 (16 + i) 1 = 1 ↔ ∃ x ∈ c.g.groups, x.atRegang = true ∧ x.slices.getLsbD i = true := by
  have hwait := getLsbD_foldl_atRegang c.g.groups 0
  have hword : c.sysReg 0 = c.g.live.toNat + 256 * c.slices.toNat +
      65536 * (c.g.groups.foldl (fun m x => if x.atRegang then m ||| x.slices else m) (0 : SliceMask)).toNat +
      2 ^ 24 * (c.g.groups.length % 16) + 2 ^ 28 * c.g.parted.toNat := rfl
  generalize c.g.groups.foldl _ (0 : SliceMask) = w at hwait hword
  have hlive := c.g.live.isLt
  have hslices := c.slices.isLt
  have hw := w.isLt
  have hparted := c.g.parted.toNat_le
  simp only [Ctx.field, hword]
  refine ⟨by omega, by omega, by omega, by omega, fun i hi => ?_⟩
  have hform : c.g.live.toNat + 256 * c.slices.toNat + 65536 * w.toNat + 2 ^ 24 * (c.g.groups.length % 16) +
      2 ^ 28 * c.g.parted.toNat = (c.g.live.toNat + 256 * c.slices.toNat) +
        2 ^ 16 * (w.toNat + 2 ^ 8 * (c.g.groups.length % 16 + 16 * c.g.parted.toNat)) := by ring
  rw [hform, maskBit_of_field w (by omega) hi, hwait i]
  simp

theorem Ctx.activeLanes_bit {l : Nat} (h : l < 32) : c.field 1 l 1 = 1 ↔ c.g.exited.getLsbD l = false := by
  have hword : c.sysReg 1 = (~~~c.g.exited).toNat := rfl
  rw [Ctx.field, hword, pow_one, div_mod_two_eq_one_iff, BitVec.getLsbD_not]
  simp [h]

/-- The mailboxes' bits of the event word as a mask above the edge events. -/
theorem Gang.eventWord_toNat (g : Gang) : g.eventWord.toNat =
    g.evpend.toNat + 2 ^ 19 * ((maskOf 8 fun m => (g.mailbox m).isSome).toNat + 2 ^ 8 * (if g.deadline = 0 then 0 else 1)) := by
  have hmask := foldl_two_pow_lt (fun m => (g.mailbox m).isSome) 8
  have hshift : ∀ (xs : List Nat) (acc : Nat),
      xs.foldl (fun acc m => if (g.mailbox m).isSome then acc + 2 ^ (19 + m) else acc) (2 ^ 19 * acc) =
        2 ^ 19 * xs.foldl (fun acc m => if (g.mailbox m).isSome then acc + 2 ^ m else acc) acc := by
    intro xs
    induction xs with
    | nil => intro acc; rfl
    | cons x xs ih =>
      intro acc
      rw [List.foldl_cons, List.foldl_cons, ← ih]
      congr 1
      split_ifs
      · ring
      · rfl
  have hmail := hshift (List.range 8) 0
  rw [Nat.mul_zero] at hmail
  rw [Gang.eventWord, hmail, maskOf, BitVec.toNat_ofNat, BitVec.toNat_ofNat]
  generalize (List.range 8).foldl _ 0 = m at hmask
  have hpend := g.evpend.isLt
  split_ifs <;> omega

/-- Table 11.8. -/
theorem Ctx.event_bits : (∀ i < 19, c.field 2 i 1 = 1 ↔ c.g.evpend.getLsbD i = true) ∧
    (∀ i < 8, c.field 2 (19 + i) 1 = 1 ↔ (c.g.mailbox i).isSome = true) ∧ (c.field 2 27 1 = 1 ↔ c.g.deadline ≠ 0) := by
  have hword : c.sysReg 2 = c.g.eventWord.toNat := rfl
  have hpend := c.g.evpend.isLt
  have hmail := (maskOf 8 fun m => (c.g.mailbox m).isSome).isLt
  refine ⟨fun i hi => ?_, fun i hi => ?_, ?_⟩
  · rw [Ctx.field, hword, Gang.eventWord_toNat]
    generalize (maskOf 8 _).toNat + _ = h
    have hlow := maskBit_of_field (lo := 0) (L := 0) (h := h) c.g.evpend (by norm_num) hi
    simpa using hlow
  · rw [Ctx.field, hword, Gang.eventWord_toNat, maskBit_of_field _ hpend hi, getLsbD_maskOf _ hi]
  · rw [Ctx.field, hword, Gang.eventWord_toNat]
    split_ifs with h
    · exact iff_of_false (by omega) (not_not.mpr h)
    · exact iff_of_true (by omega) h

/-- Table 8.5. -/
theorem Ctx.lntst_fields : c.field 0x10 0 15 = c.s.allowance c.g % 2 ^ 15 ∧ c.field 0x10 15 1 = c.g.fixedAllow.isSome.toNat ∧
    c.field 0x10 16 16 = c.s.outstanding c.id % 2 ^ 16 := by
  have hword : c.sysReg 0x10 = c.s.allowance c.g % 32768 + 32768 * c.g.fixedAllow.isSome.toNat +
      65536 * (c.s.outstanding c.id % 65536) := rfl
  have hfixed := c.g.fixedAllow.isSome.toNat_le
  simp only [Ctx.field, hword]
  refine ⟨by omega, by omega, by omega⟩

theorem Ctx.barrier_words {n : Nat} (h : n < 16) : c.sysReg (0x20 + n) = (c.barrierOf n).bytes % 2 ^ 32 ∧
    c.sysReg (0x30 + n) = (c.barrierOf n).ebytes % 2 ^ 32 := by
  rw [c.sysReg_gang _ (by omega), c.sysReg_gang _ (by omega)]
  unfold Ctx.gangReg
  constructor
  · iterate 6 rw [if_neg (by omega)]
    rw [if_pos (by omega), show 0x20 + n - 0x20 = n by omega]
  · iterate 7 rw [if_neg (by omega)]
    rw [if_pos (by omega), show 0x30 + n - 0x30 = n by omega]

/-! ### The trap state and the lane records (Tables 17.2 and 17.3) -/

theorem Ctx.trap_cause_fields (r : TrapState) (hr : c.g.trap = r) :
    c.field 0x1800 0 8 = r.cause.toNat ∧ c.field 0x1800 8 2 = r.laneClass.toNat ∧ c.field 0x1800 10 1 = r.known.toNat ∧
      c.field 0x1800 11 1 = r.defer.toNat ∧ c.field 0x1800 12 1 = r.badblk.toNat ∧ c.field 0x1800 13 3 = r.loaded.toNat ∧
      c.field 0x1800 16 16 = r.imm.toNat := by
  subst hr
  have hword : c.sysReg 0x1800 = c.g.trap.cause.toNat + 256 * (c.g.trap.laneClass.toNat + 4 * c.g.trap.known.toNat +
      8 * c.g.trap.defer.toNat + 16 * c.g.trap.badblk.toNat + 32 * c.g.trap.loaded.toNat) + 65536 * c.g.trap.imm.toNat := rfl
  have hcause := c.g.trap.cause.isLt
  have himm := c.g.trap.imm.isLt
  have hclass := c.g.trap.laneClass.toNat_le
  have hknown := c.g.trap.known.toNat_le
  have hdefer := c.g.trap.defer.toNat_le
  have hbad := c.g.trap.badblk.toNat_le
  have hloaded := c.g.trap.loaded.toNat_le
  simp only [Ctx.field, hword]
  refine ⟨by omega, by omega, by omega, by omega, by omega, by omega, by omega⟩

theorem Ctx.trap_addresses (r : TrapState) (hr : c.g.trap = r) :
    c.sysReg 0x1801 + 2 ^ 32 * c.sysReg 0x1802 = r.tpc.toNat ∧ c.sysReg 0x1803 = r.tmask.toNat ∧
      c.sysReg 0x1804 = r.tlanes.toNat ∧ c.sysReg 0x1805 + 2 ^ 32 * c.sysReg 0x1806 = r.rpc.toNat ∧
      c.sysReg 0x1807 + 2 ^ 32 * c.sysReg 0x1808 = r.opc.toNat := by
  subst hr
  exact ⟨Nat.mod_add_div _ _, rfl, rfl, Nat.mod_add_div _ _, Nat.mod_add_div _ _⟩

theorem Ctx.trap_group_fields (r : TrapState) (hr : c.g.trap = r) :
    c.field 0x1809 0 8 = r.group.toNat ∧ c.field 0x1809 8 8 = r.live.toNat ∧ c.field 0x1809 16 4 = r.ngrp % 16 ∧
      c.field 0x1809 20 12 = c.g.inh.toNat := by
  subst hr
  have hword : c.sysReg 0x1809 = c.g.trap.group.toNat + 256 * c.g.trap.live.toNat + 65536 * (c.g.trap.ngrp % 16) +
      2 ^ 20 * c.g.inh.toNat := rfl
  have hgroup := c.g.trap.group.isLt
  have hlive := c.g.trap.live.isLt
  have hinh := c.g.inh.toNat_le
  simp only [Ctx.field, hword]
  refine ⟨by omega, by omega, by omega, by omega⟩

/-- The words of a lane record. -/
theorem LaneRecord.words (x : LaneRecord) :
    leNat ((x.bytes.drop 0).take 4) = x.addr.toNat % 2 ^ 32 ∧ leNat ((x.bytes.drop 4).take 4) = x.addr.toNat / 2 ^ 32 ∧
    leNat ((x.bytes.drop 8).take 4) = x.cause.toNat + 2 ^ 8 * x.flags.toNat + 2 ^ 16 * x.more.toNat ∧
    leNat ((x.bytes.drop 12).take 4) = x.detail.toNat := by
  have haddr := x.addr.isLt
  have hmore := x.more.isLt
  have hdetail := x.detail.isLt
  simp only [LaneRecord.bytes, leBytes, List.cons_append, List.nil_append, List.drop_succ_cons, List.drop_zero,
    List.take_succ_cons, List.take_zero, leNat, BitVec.toNat_ofNat]
  refine ⟨by omega, by omega, by omega, by omega⟩

theorem Ctx.laneRecord_words {l : Nat} (hl : l < 32) (x : LaneRecord) (hx : c.g.laneRecord l = x) :
    c.sysReg (0x1820 + 4 * l) + 2 ^ 32 * c.sysReg (0x1821 + 4 * l) = x.addr.toNat ∧
      c.field (0x1822 + 4 * l) 0 8 = x.cause.toNat ∧ c.field (0x1822 + 4 * l) 8 8 = x.flags.toNat ∧
      c.field (0x1822 + 4 * l) 16 16 = x.more.toNat ∧ c.sysReg (0x1823 + 4 * l) = x.detail.toNat := by
  obtain ⟨h0, h1, h2, h3⟩ := x.words
  have hcause := x.cause.isLt
  have hflags := x.flags.isLt
  have hmore := x.more.isLt
  simp only [Ctx.field, c.sysReg_laneRecord (a := 0x1820 + 4 * l) (l := l) (k := 0) (by omega) hl (by omega),
    c.sysReg_laneRecord (a := 0x1821 + 4 * l) (l := l) (k := 1) (by omega) hl (by omega),
    c.sysReg_laneRecord (a := 0x1822 + 4 * l) (l := l) (k := 2) (by omega) hl (by omega),
    c.sysReg_laneRecord (a := 0x1823 + 4 * l) (l := l) (k := 3) (by omega) hl (by omega), hx, Nat.mul_zero, Nat.mul_one,
    Nat.reduceMul, h0, h1, h2, h3]
  refine ⟨Nat.mod_add_div _ _, by omega, by omega, by omega, trivial⟩

/-! ### The partition and its launch queues (Tables 10.1 and 16.3) -/

/-- The modes of a partition, of which bit 3 is the host's of the rotation. -/
theorem modes_bit (m : BitVec 6) (b : Bool) : (∀ i < 6, i ≠ 3 →
    (((m &&& 0x37#6).toNat + 8 * b.toNat) / 2 ^ i % 2 ^ 1 = 1 ↔ m.getLsbD i = true)) ∧
    ((m &&& 0x37#6).toNat + 8 * b.toNat) / 2 ^ 3 % 2 ^ 1 = b.toNat := by
  revert m b
  decide +kernel

theorem Ctx.identity_fields (p : Partition) (hp : c.s.part c.part = p) :
    c.field 0x1000 0 4 = c.part % 16 ∧ c.field 0x1000 4 28 = c.s.pkg % 1024 ∧ c.sysReg 0x1001 = p.privq.toNat ∧
      (∀ i < 6, i ≠ 3 → (c.field 0x1002 i 1 = 1 ↔ p.modes.getLsbD i = true)) ∧ c.field 0x1002 3 1 = c.s.rot.hostm.toNat ∧
      c.sysReg 0x1003 = p.vbase ∧ c.sysReg 0x1004 = p.vsize ∧
      c.sysReg 0x1005 + 2 ^ 32 * c.sysReg 0x1006 = p.clusters.toNat ∧
      (p.ptbase < 2 ^ 21 → c.field 0x1007 0 21 = p.ptbase ∧ c.sysReg 0x1007 / 2 ^ 21 = p.topbits) := by
  subst hp
  have hid : c.sysReg 0x1000 = c.part % 16 + 16 * (c.s.pkg % 1024) := rfl
  have hpt : c.sysReg 0x1007 = (c.s.part c.part).ptbase + 2 ^ 21 * (c.s.part c.part).topbits := rfl
  obtain ⟨hmodes, hhostm⟩ := modes_bit (c.s.part c.part).modes c.s.rot.hostm
  simp only [Ctx.field, hid, hpt]
  exact ⟨by omega, by omega, rfl, hmodes, hhostm, rfl, rfl, Nat.mod_add_div _ _, fun h => ⟨by omega, by omega⟩⟩

theorem Ctx.memory_fields (p : Partition) (hp : c.s.part c.part = p) :
    c.field 0x1008 0 16 = p.seq.toNat ∧ c.field 0x1008 16 16 = p.stale.toNat ∧ c.field 0x1009 0 17 = p.nseq.toNat ∧
      c.field 0x1009 17 15 = p.shootBusy.toNat ∧ c.sysReg 0x100A = p.dombase ∧ c.sysReg 0x100B = p.commbase ∧
      (p.fqbase < 2 ^ 16 → c.field 0x100C 0 16 = p.fqbase ∧ c.sysReg 0x100C / 2 ^ 16 = p.fqlog2n) ∧
      c.field 0x100D 0 16 = p.fqwr.toNat ∧ c.field 0x100D 16 16 = p.fqrd.toNat ∧ c.sysReg 0x100E = 0 ∧
      c.sysReg 0x100F = p.fqlost := by
  subst hp
  have hseq : c.sysReg 0x1008 = (c.s.part c.part).seq.toNat + 65536 * (c.s.part c.part).stale.toNat := rfl
  have hnseq : c.sysReg 0x1009 = (c.s.part c.part).nseq.toNat + 2 ^ 17 * (c.s.part c.part).shootBusy.toNat := rfl
  have hfq : c.sysReg 0x100C = (c.s.part c.part).fqbase + 65536 * (c.s.part c.part).fqlog2n := rfl
  have hfqptr : c.sysReg 0x100D = (c.s.part c.part).fqwr.toNat + 65536 * (c.s.part c.part).fqrd.toNat := rfl
  have h1 := (c.s.part c.part).seq.isLt
  have h2 := (c.s.part c.part).stale.toNat_le
  have h3 := (c.s.part c.part).nseq.isLt
  have h4 := (c.s.part c.part).shootBusy.toNat_le
  have h5 := (c.s.part c.part).fqwr.isLt
  have h6 := (c.s.part c.part).fqrd.isLt
  simp only [Ctx.field, hseq, hnseq, hfq, hfqptr]
  exact ⟨by omega, by omega, by omega, by omega, rfl, rfl, fun h => ⟨by omega, by omega⟩, by omega, by omega, rfl, rfl⟩

theorem Ctx.trust_fields (p : Partition) (hp : c.s.part c.part = p) :
    c.field 0x1010 0 8 = p.fqvec.toNat ∧ c.field 0x1010 8 8 = p.shvec.toNat ∧ c.field 0x1010 16 8 = p.atvec.toNat ∧
      c.field 0x1010 24 8 = p.stvec.toNat ∧ (p.modid < 2 ^ 12 → c.field 0x1020 0 16 = p.modid ∧
        c.sysReg 0x1020 / 2 ^ 16 = Tbl.get 0 p.trust p.modid) ∧ c.sysReg 0x1040 = p.attaddr ∧
      c.field 0x1041 0 1 = 0 ∧ c.field 0x1041 1 1 = p.abusy.toNat ∧ c.field 0x1041 2 30 = p.aerr.toNat := by
  subst hp
  have hvec : c.sysReg 0x1010 = (c.s.part c.part).fqvec.toNat + 256 * (c.s.part c.part).shvec.toNat +
      65536 * (c.s.part c.part).atvec.toNat + 2 ^ 24 * (c.s.part c.part).stvec.toNat := rfl
  have hmod : c.sysReg 0x1020 = (c.s.part c.part).modid +
      65536 * Tbl.get 0 (c.s.part c.part).trust (c.s.part c.part).modid := rfl
  have hatt : c.sysReg 0x1041 = 2 * (c.s.part c.part).abusy.toNat + 4 * (c.s.part c.part).aerr.toNat := rfl
  have h1 := (c.s.part c.part).fqvec.isLt
  have h2 := (c.s.part c.part).shvec.isLt
  have h3 := (c.s.part c.part).atvec.isLt
  have h4 := (c.s.part c.part).stvec.isLt
  have h5 := (c.s.part c.part).abusy.toNat_le
  have h6 := (c.s.part c.part).aerr.toNat_le
  simp only [Ctx.field, hvec, hmod, hatt]
  exact ⟨by omega, by omega, by omega, by omega, fun h => ⟨by omega, by omega⟩, rfl, by omega, by omega, by omega⟩

/-- The registers of the measurements (R405). -/
theorem State.partReg_measurement (s : State) (part : Nat) {a : Nat} (h : 0x1080 ≤ a ∧ a < 0x1100) :
    s.partReg part a = leNat (((s.meas? ((a - 0x1080) / 16)).drop (4 * ((a - 0x1080) % 16))).take 4) := by
  unfold State.partReg
  dsimp only
  split
  case h_21 => exact if_pos h
  all_goals omega

theorem Ctx.measurement_words {n k : Nat} (hn : n < 8) (hk : k < 16) (hlen : (c.s.meas? n).length = 64) :
    leBytes 4 (c.sysReg (0x1080 + 16 * n + k)) = ((c.s.meas? n).drop (4 * k)).take 4 := by
  have hfour : (((c.s.meas? n).drop (4 * k)).take 4).length = 4 := by
    rw [List.length_take, List.length_drop, hlen]
    omega
  rw [c.sysReg_partition _ (by omega), State.partReg_measurement _ _ (by omega),
    show (0x1080 + 16 * n + k - 0x1080) / 16 = n by omega, show (0x1080 + 16 * n + k - 0x1080) % 16 = k by omega]
  have hbytes := leBytes_leNat (((c.s.meas? n).drop (4 * k)).take 4)
  rwa [hfour] at hbytes

theorem Ctx.queue_fields {q : Nat} (hq : q < 32) (x : LaunchQueue) (hx : (c.s.part c.part).queue q = x) :
    c.sysReg (0x1200 + 4 * q) + 2 ^ 32 * c.sysReg (0x1201 + 4 * q) = x.base % 2 ^ 56 ∧
      c.field (0x1202 + 4 * q) 0 1 = x.en.toNat ∧ c.field (0x1202 + 4 * q) 1 7 = x.log2n % 16 ∧
      c.field (0x1202 + 4 * q) 8 24 = x.ref.toNat ∧ c.field (0x1203 + 4 * q) 0 16 = x.wr.toNat ∧
      c.field (0x1203 + 4 * q) 16 16 = x.rd.toNat := by
  have hen := x.en.toNat_le
  have href := x.ref.toNat_le
  have hwr := x.wr.isLt
  have hrd := x.rd.isLt
  simp only [Ctx.field, c.sysReg_queue (a := 0x1200 + 4 * q) (q := q) (k := 0) (by omega) hq (by omega),
    c.sysReg_queue (a := 0x1201 + 4 * q) (q := q) (k := 1) (by omega) hq (by omega),
    c.sysReg_queue (a := 0x1202 + 4 * q) (q := q) (k := 2) (by omega) hq (by omega),
    c.sysReg_queue (a := 0x1203 + 4 * q) (q := q) (k := 3) (by omega) hq (by omega), hx, LaunchQueue.reg]
  refine ⟨by omega, by omega, by omega, by omega, by omega, by omega⟩

/-! ### Start-up and power, and recovery (Tables 17.7 and 21.3) -/

theorem Ctx.house_fields (h : House) (hh : c.s.house = h) :
    c.field 0x1700 0 3 = h.phase % 8 ∧ c.field 0x1700 3 1 = h.meshDown.toNat ∧ c.field 0x1700 4 1 = h.hot.toNat ∧
      c.field 0x1700 5 11 = h.err % 8 ∧ c.field 0x1700 16 16 = h.fwver.toNat ∧ c.field 0x1701 0 2 = h.req.toNat ∧
      c.field 0x1701 2 2 = h.cur.toNat ∧ c.field 0x1701 4 28 = h.ref.toNat ∧ c.field 0x1702 0 10 = h.tmax.toNat ∧
      c.field 0x1702 10 6 = h.tdie.toNat ∧ c.field 0x1702 16 16 = h.pwr.toNat ∧ c.field 0x1703 0 12 = h.pcap.toNat ∧
      c.field 0x1703 12 4 = h.pcx.toNat ∧ c.field 0x1703 16 16 = h.pcvec.toNat := by
  subst hh
  have h0 : c.sysReg 0x1700 = c.s.house.phase % 8 + 8 * c.s.house.meshDown.toNat + 16 * c.s.house.hot.toNat +
      32 * (c.s.house.err % 8) + 65536 * c.s.house.fwver.toNat := rfl
  have h1 : c.sysReg 0x1701 = c.s.house.req.toNat + 4 * c.s.house.cur.toNat + 16 * c.s.house.ref.toNat := rfl
  have h2 : c.sysReg 0x1702 = c.s.house.tmax.toNat + 1024 * c.s.house.tdie.toNat + 65536 * c.s.house.pwr.toNat := rfl
  have h3 : c.sysReg 0x1703 = c.s.house.pcap.toNat + 4096 * c.s.house.pcx.toNat + 65536 * c.s.house.pcvec.toNat := rfl
  have hmesh := c.s.house.meshDown.toNat_le
  have hhot := c.s.house.hot.toNat_le
  have hfw := c.s.house.fwver.isLt
  have hreq := c.s.house.req.isLt
  have hcur := c.s.house.cur.isLt
  have href := c.s.house.ref.toNat_le
  have htmax := c.s.house.tmax.isLt
  have htdie := c.s.house.tdie.isLt
  have hpwr := c.s.house.pwr.isLt
  have hpcap := c.s.house.pcap.isLt
  have hpcx := c.s.house.pcx.toNat_le
  have hpcvec := c.s.house.pcvec.isLt
  simp only [Ctx.field, h0, h1, h2, h3]
  refine ⟨by omega, by omega, by omega, by omega, by omega, by omega, by omega, by omega, by omega, by omega, by omega,
    by omega, by omega, by omega⟩

theorem Ctx.recovery_fields (p : Partition) (hp : c.s.part c.part = p) :
    c.sysReg 0x18C0 + 2 ^ 32 * c.field 0x18C1 0 24 = p.th.toNat ∧ c.field 0x18C1 24 8 = p.then_.toNat ∧
      c.sysReg 0x18C2 = p.ctxbase ∧ c.sysReg 0x18C3 = p.ctxsize ∧ c.sysReg 0x18C4 = p.stopbase ∧
      c.field 0x18C5 0 1 = p.halted.toNat ∧ c.field 0x18C5 1 7 = p.fatal.toNat ∧ c.field 0x18C5 8 8 = p.first.toNat ∧
      c.field 0x18C5 16 16 = p.hseq.toNat ∧ c.sysReg 0x18C6 = 0 ∧ c.sysReg 0x18C7 = p.stopLost ∧
      c.sysReg 0x18C8 = p.sece ∧ c.sysReg 0x18C9 = p.seue ∧ c.sysReg 0x18CA = p.noroom.toNat := by
  subst hp
  have h0 : c.sysReg 0x18C0 = (c.s.part c.part).th.toNat % 2 ^ 32 := rfl
  have h1 : c.sysReg 0x18C1 = (c.s.part c.part).th.toNat / 2 ^ 32 + 2 ^ 24 * (c.s.part c.part).then_.toNat := rfl
  have h5 : c.sysReg 0x18C5 = (c.s.part c.part).halted.toNat + 2 * (c.s.part c.part).fatal.toNat +
      256 * (c.s.part c.part).first.toNat + 65536 * (c.s.part c.part).hseq.toNat := rfl
  have hth := (c.s.part c.part).th.isLt
  have hthen := (c.s.part c.part).then_.toNat_le
  have hhalted := (c.s.part c.part).halted.toNat_le
  have hfatal := (c.s.part c.part).fatal.toNat_le
  have hfirst := (c.s.part c.part).first.isLt
  have hseq := (c.s.part c.part).hseq.isLt
  simp only [Ctx.field, h0, h1, h5]
  exact ⟨by omega, by omega, rfl, rfl, rfl, by omega, by omega, by omega, by omega, rfl, rfl, rfl, rfl, rfl⟩

end GangRegisters

end Sys2Proof.Machine
end
section
/-! PROOFS. O40, the registers of optics and circuits, and the statement (R389, R390). -/

namespace Sys2Proof.Machine

theorem shown_eq (b : Bool) (n : Nat) : (b = false → shown b n = 0) ∧ (b = true → shown b n = n) :=
  ⟨fun h => by simp [shown, h], fun h => by simp [shown, h]⟩

section OpticRegisters

variable (c : Ctx)

/-! ### Optics (Tables 18.5 to 18.8) -/

theorem Ctx.optic_fields (p : Partition) (hp : c.s.part c.part = p) :
    c.field 0x4000 0 8 = p.optvec.toNat ∧ c.field 0x4000 8 24 = p.opten.toNat ∧ c.field 0x4002 0 8 = c.s.weakMrg.toNat ∧
      c.field 0x4002 8 16 = c.s.weakCer.toNat ∧ c.field 0x4002 24 8 = c.s.period.toNat ∧
      c.field 0x4010 0 4 = p.planCmd.toNat ∧ c.field 0x4010 4 10 = p.planTgt % 1024 ∧
      c.field 0x4010 14 6 = p.planRing.toNat ∧ c.sysReg 0x4010 / 2 ^ 20 = p.planStatus := by
  subst hp
  have h0 : c.sysReg 0x4000 = (c.s.part c.part).optvec.toNat + 256 * (c.s.part c.part).opten.toNat := rfl
  have h1 : c.sysReg 0x4002 = c.s.weakMrg.toNat + 256 * c.s.weakCer.toNat + 2 ^ 24 * c.s.period.toNat := rfl
  have h2 : c.sysReg 0x4010 = (c.s.part c.part).planCmd.toNat + 16 * ((c.s.part c.part).planTgt % 1024) +
      16384 * (c.s.part c.part).planRing.toNat + 2 ^ 20 * (c.s.part c.part).planStatus := rfl
  have hvec := (c.s.part c.part).optvec.isLt
  have hen := (c.s.part c.part).opten.toNat_le
  have hmrg := c.s.weakMrg.isLt
  have hcer := c.s.weakCer.isLt
  have hper := c.s.period.isLt
  have hcmd := (c.s.part c.part).planCmd.isLt
  have hring := (c.s.part c.part).planRing.toNat_le
  simp only [Ctx.field, h0, h1, h2]
  refine ⟨by omega, by omega, by omega, by omega, by omega, by omega, by omega, by omega, by omega⟩

theorem Ctx.sysReg_pair {n : Nat} (h : n < 64) :
    c.sysReg (0x4040 + n) = shown (c.s.ownsPair c.part n) (c.s.pairWord n) ∧
    c.sysReg (0x5040 + n) = shown (c.s.ownsPair c.part n) ((c.s.pair n).plane % 8 + 8 * (c.s.pair n).fab.toNat) := by
  constructor
  · rw [c.sysReg_optic _ (by omega), State.opticReg]
    iterate 3 rw [if_neg (by omega)]
    rw [if_pos (by omega), show 0x4040 + n - 0x4040 = n by omega, Bool.false_or]
  · rw [c.sysReg_circuit _ (by omega), State.circuitReg]
    iterate 4 rw [if_neg (by omega)]
    rw [if_pos (by omega), show 0x5040 + n - 0x5040 = n by omega, Bool.false_or]

theorem Ctx.pair_fields {n : Nat} (h : n < 64) (x : Pair) (hx : c.s.pair n = x) :
    (c.s.ownsPair c.part n = false → c.sysReg (0x4040 + n) = 0 ∧ c.sysReg (0x5040 + n) = 0) ∧
    (c.s.ownsPair c.part n = true →
      c.field (0x4040 + n) 0 4 = x.owner % 16 ∧ c.field (0x4040 + n) 4 1 = x.ownv.toNat ∧
      c.field (0x4040 + n) 5 1 = x.fabreq.toNat ∧ c.field (0x4040 + n) 6 1 = x.fab.toNat ∧
      c.field (0x4040 + n) 7 1 = x.ref.toNat ∧ c.field (0x4040 + n) 8 2 = x.spuse.toNat ∧
      c.field (0x4040 + n) 10 22 = x.evt.toNat ∧ c.field (0x5040 + n) 0 3 = x.plane % 8 ∧
      c.field (0x5040 + n) 3 29 = x.fab.toNat) := by
  obtain ⟨hword, hplane⟩ := c.sysReg_pair h
  constructor
  · intro ho
    rw [hword, hplane, ho]
    exact ⟨rfl, rfl⟩
  · intro ho
    rw [ho, (shown_eq _ _).2 rfl] at hword hplane
    have hown := x.ownv.toNat_le
    have hreq := x.fabreq.toNat_le
    have hfab := x.fab.toNat_le
    have href := x.ref.toNat_le
    have huse := x.spuse.isLt
    have hevt := x.evt.toNat_le
    simp only [Ctx.field, hword, hplane, State.pairWord, hx]
    refine ⟨by omega, by omega, by omega, by omega, by omega, by omega, by omega, by omega, by omega⟩

theorem Ctx.sysReg_link {k : Nat} (h : k < 128) :
    c.sysReg (0x4100 + k) = shown (c.s.ownsPair c.part (pairOfLink k)) (c.s.linkWord k) ∧
    c.sysReg (0x4180 + k) = shown (c.s.ownsPair c.part (pairOfLink k)) (c.s.countWord k) := by
  constructor
  · rw [c.sysReg_optic _ (by omega), State.opticReg]
    iterate 4 rw [if_neg (by omega)]
    rw [if_pos (by omega), show 0x4100 + k - 0x4100 = k by omega, Bool.false_or]
  · rw [c.sysReg_optic _ (by omega), State.opticReg]
    iterate 5 rw [if_neg (by omega)]
    rw [if_pos (by omega), show 0x4180 + k - 0x4180 = k by omega, Bool.false_or]

theorem Ctx.link_fields {k : Nat} (h : k < 128) (x : Link) (hx : c.s.link k = x) :
    (¬ (c.s.ownsPair c.part (pairOfLink k) = true ∧ (c.s.pair (pairOfLink k)).fab = true) →
      c.sysReg (0x4100 + k) = 0 ∧ c.sysReg (0x4180 + k) = 0) ∧
    (c.s.ownsPair c.part (pairOfLink k) = true ∧ (c.s.pair (pairOfLink k)).fab = true →
      c.field (0x4100 + k) 0 4 = x.tgtw % 16 ∧ c.field (0x4100 + k) 4 4 = x.curw % 16 ∧
      c.field (0x4100 + k) 8 24 = linkCode x.state ∧
      c.field (0x4180 + k) 0 16 = x.replays % 2 ^ 16 ∧ c.field (0x4180 + k) 16 16 = x.retrains % 2 ^ 16) := by
  obtain ⟨hword, hcount⟩ := c.sysReg_link h
  constructor
  · intro hno
    rw [hword, hcount, State.linkWord, State.countWord]
    by_cases ho : c.s.ownsPair c.part (pairOfLink k) = true
    · have hfab : ¬ (c.s.pair (pairOfLink k)).fab = true := fun hf => hno ⟨ho, hf⟩
      simp [shown, hfab]
    · simp [shown, ho]
  · rintro ⟨ho, hfab⟩
    rw [ho, (shown_eq _ _).2 rfl] at hword hcount
    have hcode : linkCode x.state ≤ 3 := by cases x.state <;> decide
    simp only [Ctx.field, hword, hcount, State.linkWord, State.countWord, hx, if_pos hfab]
    refine ⟨by omega, by omega, by omega, by omega, by omega⟩

theorem Ctx.sysReg_chan {n : Nat} (h : n < 1024) :
    c.sysReg (0x4400 + n) = shown (c.s.ownsPair c.part (pairOfChan n)) (c.s.chanWord n) := by
  rw [c.sysReg_optic _ (by omega), State.opticReg]
  iterate 6 rw [if_neg (by omega)]
  rw [if_pos (by omega), show 0x4400 + n - 0x4400 = n by omega, Bool.false_or]

theorem Ctx.chan_fields {n : Nat} (h : n < 1024) (x : Chan) (hx : c.s.chan n = x) :
    (c.s.ownsPair c.part (pairOfChan n) = false → c.sysReg (0x4400 + n) = 0) ∧
    (c.s.ownsPair c.part (pairOfChan n) = true →
      c.field (0x4400 + n) 0 2 = chanCode x.state ∧
      ((c.s.pair (pairOfChan n)).fab = false → c.field (0x4400 + n) 2 1 = x.park.toNat) ∧
      ((c.s.pair (pairOfChan n)).fab = true → c.field (0x4400 + n) 2 1 = (!c.s.within (n / 8) n).toNat) ∧
      c.field (0x4400 + n) 3 2 = x.spare % 4 ∧ c.field (0x4400 + n) 5 1 = x.weak.toNat ∧
      c.field (0x4400 + n) 6 2 = x.wfail.toNat ∧ c.field (0x4400 + n) 8 8 = x.margin.toNat ∧
      c.field (0x4400 + n) 16 16 = x.cer.toNat) := by
  have hword := c.sysReg_chan h
  constructor
  · intro ho
    rw [hword, ho]
    rfl
  · intro ho
    rw [ho, (shown_eq _ _).2 rfl, State.chanWord, hx] at hword
    have hcode : chanCode x.state ≤ 3 := by cases x.state <;> decide
    have hpark : ∀ b : Bool, b.toNat ≤ 1 := Bool.toNat_le
    have hown := x.park.toNat_le
    have hweak := x.weak.toNat_le
    have hwfail := x.wfail.toNat_le
    have hmargin := x.margin.isLt
    have hcer := x.cer.isLt
    have hin := hpark (!c.s.within (n / 8) n)
    cases hfab : (c.s.pair (pairOfChan n)).fab
    · simp only [hfab, Bool.false_eq_true, if_false] at hword
      simp only [Ctx.field, hword]
      exact ⟨by omega, fun _ => by omega, nofun, by omega, by omega, by omega, by omega, by omega⟩
    · simp only [hfab, if_true] at hword
      simp only [Ctx.field, hword]
      exact ⟨by omega, nofun, fun _ => by omega, by omega, by omega, by omega, by omega, by omega⟩

theorem Ctx.sysReg_line {e i : Nat} (he : e < 16) (hi : i < 16) :
    c.sysReg (0x4800 + 16 * e + i) = shown (c.s.seesArray c.part e) (c.s.line e i).word := by
  rw [c.sysReg_optic _ (by omega), State.opticReg]
  iterate 7 rw [if_neg (by omega)]
  rw [if_pos (by omega), show (0x4800 + 16 * e + i - 0x4800) / 16 = e by omega,
    show (0x4800 + 16 * e + i - 0x4800) % 16 = i by omega, Bool.false_or]

theorem Ctx.sysReg_array {a e i : Nat} (ha : a = 0x4900 + 4 * e + i) (he : e < 16) (hi : i < 4) :
    c.sysReg a = shown (c.s.seesArray c.part e) (c.s.arrayWord e i) := by
  rw [c.sysReg_optic _ (by omega), State.opticReg]
  iterate 8 rw [if_neg (by omega)]
  rw [if_pos (by omega), show (a - 0x4900) / 4 = e by omega, show (a - 0x4900) % 4 = i by omega, Bool.false_or]

/-- The masks of the lines that feed and that are fed. -/
theorem Ctx.array_masks {e i : Nat} (he : e < 16) (hi : i < 16) (hsees : c.s.seesArray c.part e = true) :
    (c.field (0x4902 + 4 * e) i 1 = 1 ↔ (c.s.line e i).donor = true) ∧
    (c.field (0x4902 + 4 * e) (16 + i) 1 = 1 ↔ (c.s.line e i).fed = true) := by
  have hword : c.sysReg (0x4902 + 4 * e) = (maskOf 16 fun lam => (c.s.line e lam).donor).toNat +
      2 ^ 16 * ((maskOf 16 fun lam => (c.s.line e lam).fed).toNat + 2 ^ 16 * 0) := by
    rw [c.sysReg_array (a := 0x4902 + 4 * e) (e := e) (i := 2) (by omega) he (by omega), (shown_eq _ _).2 hsees]
    rfl
  rw [Ctx.field, Ctx.field, hword, maskBit_of_field _ (maskOf 16 _).isLt hi, getLsbD_maskOf _ hi]
  have hlow := maskBit_of_field (lo := 0) (L := 0) (h := (maskOf 16 fun lam => (c.s.line e lam).fed).toNat + 2 ^ 16 * 0)
    (maskOf 16 fun lam => (c.s.line e lam).donor) (by norm_num) hi
  rw [getLsbD_maskOf _ hi] at hlow
  exact ⟨by simpa using hlow, Iff.rfl⟩

theorem Ctx.line_fields {e i : Nat} (he : e < 16) (hi : i < 16) (hsees : c.s.seesArray c.part e = true) (x : Line)
    (hx : c.s.line e i = x) :
    c.field (0x4800 + 16 * e + i) 0 12 = x.bias.toNat ∧ c.field (0x4800 + 16 * e + i) 12 12 = x.power.toNat ∧
      c.field (0x4800 + 16 * e + i) 24 8 = x.stateCode ∧
      (c.field (0x4902 + 4 * e) i 1 = 1 ↔ x.donor = true) ∧ (c.field (0x4902 + 4 * e) (16 + i) 1 = 1 ↔ x.fed = true) := by
  have hmasks := c.array_masks he hi hsees
  have hword := c.sysReg_line he hi
  rw [(shown_eq _ _).2 hsees, hx, Line.word] at hword
  rw [hx] at hmasks
  have hbias := x.bias.isLt
  have hpower := x.power.isLt
  have hcode : x.stateCode ≤ 3 := by
    unfold Line.stateCode
    split_ifs <;> omega
  simp only [Ctx.field, hword]
  exact ⟨by omega, by omega, by omega, hmasks⟩

/-! ### Circuits (Tables 14.1 to 14.6) -/

theorem Ctx.rotation_fields (r : Rotation) (hr : c.s.rot = r) :
    (c.s.seesTiming c.part = false → c.sysReg 0x5000 = 0 ∧ c.sysReg 0x5001 = 0 ∧ c.sysReg 0x5002 = 0) ∧
    (c.s.seesTiming c.part = true → c.field 0x5000 0 1 = r.en.toNat ∧ c.field 0x5000 1 7 = r.nslot1 % 64 ∧
      c.field 0x5000 8 16 = r.slotlen % 2 ^ 16 ∧ c.field 0x5000 24 8 = r.hostm.toNat ∧ c.field 0x5001 0 6 = r.slot % 64 ∧
      c.field 0x5001 6 1 = r.guard.toNat ∧ c.field 0x5001 7 1 = r.sync.toNat ∧ c.field 0x5001 8 8 = r.held.isSome.toNat ∧
      c.field 0x5001 16 1 = r.miss.toNat ∧ c.field 0x5001 17 15 = r.resync.toNat ∧ c.sysReg 0x5002 = r.rot.toNat) := by
  subst hr
  have h0 : c.sysReg 0x5000 = shown (c.s.seesTiming c.part) c.s.rot.ctl := rfl
  have h1 : c.sysReg 0x5001 = shown (c.s.seesTiming c.part) c.s.rot.status := rfl
  have h2 : c.sysReg 0x5002 = shown (c.s.seesTiming c.part) c.s.rot.rot.toNat := rfl
  constructor
  · intro hno
    rw [h0, h1, h2, hno]
    exact ⟨rfl, rfl, rfl⟩
  · intro hsees
    rw [hsees, (shown_eq _ _).2 rfl] at h0 h1 h2
    have hen := c.s.rot.en.toNat_le
    have hhostm := c.s.rot.hostm.toNat_le
    have hguard := c.s.rot.guard.toNat_le
    have hsync := c.s.rot.sync.toNat_le
    have hheld := c.s.rot.held.isSome.toNat_le
    have hmiss := c.s.rot.miss.toNat_le
    have hresync := c.s.rot.resync.toNat_le
    simp only [Ctx.field, h0, h1, Rotation.ctl, Rotation.status, Rotation.low]
    exact ⟨by omega, by omega, by omega, by omega, by omega, by omega, by omega, by omega, by omega, by omega, h2⟩

theorem circCode_le (x : CircState) : circCode x ≤ 3 := by cases x <;> decide

theorem Ctx.sysReg_port {n : Nat} (h : n < 8) :
    c.sysReg (0x5008 + n) = shown (c.s.seesPort c.part n) (c.s.portWord n) := by
  rw [c.sysReg_circuit _ (by omega), State.circuitReg]
  iterate 3 rw [if_neg (by omega)]
  rw [if_pos (by omega), show 0x5008 + n - 0x5008 = n by omega, Bool.false_or]

theorem Ctx.sysReg_entry {j n : Nat} (hj : j < 64) (hn : n < 8) :
    c.sysReg (0x5100 + 8 * j + n) = shown (c.s.seesPort c.part n) (c.s.entry j n).word := by
  rw [c.sysReg_circuit _ (by omega), State.circuitReg]
  iterate 5 rw [if_neg (by omega)]
  rw [if_pos (by omega), show (0x5100 + 8 * j + n - 0x5100) % 8 = n by omega,
    show (0x5100 + 8 * j + n - 0x5100) / 8 = j by omega, Bool.false_or]

theorem Ctx.port_fields {n : Nat} (h : n < 8) (hsees : c.s.seesPort c.part n = true) (x : Port) (hx : c.s.port n = x) :
    c.field (0x5008 + n) 0 2 = x.mode % 4 ∧ c.field (0x5008 + n) 2 12 = x.circ.peer % 1024 ∧
      c.field (0x5008 + n) 14 2 = circCode x.circ.state ∧ c.field (0x5008 + n) 16 5 = x.circ.naks % 32 ∧
      c.field (0x5008 + n) 21 3 = x.circ.cause % 8 ∧ c.field (0x5008 + n) 24 8 = min 255 (c.s.portLinks n).length := by
  have hword := c.sysReg_port h
  rw [(shown_eq _ _).2 hsees, State.portWord, hx] at hword
  have hcode := circCode_le x.circ.state
  simp only [Ctx.field, hword, Circ.tail]
  refine ⟨by omega, by omega, by omega, by omega, by omega, by omega⟩

theorem Ctx.entry_fields {j n : Nat} (hj : j < 64) (hn : n < 8) (hsees : c.s.seesPort c.part n = true) (x : Circ)
    (hx : c.s.entry j n = x) :
    c.field (0x5100 + 8 * j + n) 0 10 = x.peer % 1024 ∧ c.field (0x5100 + 8 * j + n) 10 3 = x.valid.toNat ∧
      c.field (0x5100 + 8 * j + n) 13 2 = circCode x.state ∧ c.field (0x5100 + 8 * j + n) 15 5 = x.naks % 32 ∧
      c.field (0x5100 + 8 * j + n) 20 12 = x.cause % 8 := by
  have hword := c.sysReg_entry hj hn
  rw [(shown_eq _ _).2 hsees, hx, Circ.word, Circ.tail] at hword
  have hcode := circCode_le x.state
  have hvalid := x.valid.toNat_le
  simp only [Ctx.field, hword]
  refine ⟨by omega, by omega, by omega, by omega, by omega⟩

end OpticRegisters

/-- Settles O40: privilege by the ranges of Table 16.2, the words by their checks, each register by its word. -/
theorem systemRegistersAskForPrivilege : Obligations.SystemRegistersAskForPrivilege := by
  unfold Obligations.SystemRegistersAskForPrivilege
  constructor
  · intro s c d addr src part a v hs
    obtain ⟨h1, h2, h3, h4, h5, h6, h7, h8, h9, h10⟩ := registersAskForPrivilege d addr src part a v hs
    exact ⟨h1, h2, h3, h4, h5, h6, h7, h8, h9, s.hostRegister_spec src part a, h10⟩
  · intro c
    obtain ⟨hedge, hmail, hdeadline⟩ := c.event_bits
    refine ⟨c.gstate_fields, fun l hl => c.activeLanes_bit hl, hedge, hmail, hdeadline, rfl, rfl,
      c.lntst_fields, fun n hn => c.barrier_words hn, rfl, rfl, c.trap_cause_fields _ rfl, c.trap_addresses _ rfl,
      c.trap_group_fields _ rfl, fun l hl => c.laneRecord_words hl _ rfl, ?_, fun q hq => c.queue_fields hq _ rfl,
      c.house_fields _ rfl, c.recovery_fields _ rfl, c.optic_fields _ rfl, fun n hn => c.pair_fields hn _ rfl,
      fun k hk => c.link_fields hk _ rfl, fun n hn => c.chan_fields hn _ rfl, fun e he => ⟨fun hno => ⟨fun i hi => ?_, fun i hi => ?_⟩,
        fun hsees => ⟨fun i hi => c.line_fields he hi hsees _ rfl, ?_, ?_⟩⟩, c.rotation_fields _ rfl,
      fun n hn => ⟨fun hno => ⟨?_, fun j hj => ?_⟩, fun hsees => ⟨c.port_fields hn hsees _ rfl, fun j hj =>
        c.entry_fields hj hn hsees _ rfl⟩⟩, c.sysReg_none⟩
    · obtain ⟨h1, h2, h3, h4, h5, h6, h7, h8, h9⟩ := c.identity_fields _ rfl
      obtain ⟨m1, m2, m3, m4, m5, m6, m7, m8, m9, m10, m11⟩ := c.memory_fields _ rfl
      obtain ⟨t1, t2, t3, t4, t5, t6, t7, t8, t9⟩ := c.trust_fields _ rfl
      exact ⟨h1, h2, h3, h4, h5, h6, h7, h8, h9, m1, m2, m3, m4, m5, m6, m7, m8, m9, m10, m11, t1, t2, t3, t4, t5, t6, t7, t8,
        t9, fun n hn k hk hlen => c.measurement_words hn hk hlen⟩
    · exact (c.sysReg_line he hi).trans ((shown_eq _ _).1 hno)
    · exact (c.sysReg_array rfl he hi).trans ((shown_eq _ _).1 hno)
    · exact (c.sysReg_array (i := 0) rfl he (by omega)).trans ((shown_eq _ _).2 hsees)
    · exact (c.sysReg_array (i := 1) (by omega) he (by omega)).trans ((shown_eq _ _).2 hsees)
    · exact (c.sysReg_port hn).trans ((shown_eq _ _).1 hno)
    · exact (c.sysReg_entry hj hn).trans ((shown_eq _ _).1 hno)

end Sys2Proof.Machine
end
section
/-! PROOFS. O54, new teams, pre-emption and saving (R297, R298, R304, R305, R424). -/

namespace Sys2Proof.Machine

/-! ### The turn -/

theorem exec_teamPlace {s : State} {part id : Nat} {l : Launch} {cores : List Nat} (hon : s.distributorOn = true)
    (hup : (s.part part).halted = false) (hnext : (s.endNotices part).nextPlace part = some (id, l, cores)) :
    exec (.teamPlace part) s = .next ((s.endNotices part).placeTeam id l cores) := by
  show execTeamPlace part s = _
  unfold execTeamPlace
  dsimp only
  rw [hnext]
  exact if_pos (by simp [hon, hup])

theorem mem_turnOrder {served : Nat} {ls : List (Nat × Launch)} {e : Nat × Launch} (h : e ∈ turnOrder served ls) : e ∈ ls := by
  unfold turnOrder at h
  dsimp only at h
  simp only [List.mem_append, List.mem_filter, List.mem_sortedBy] at h
  tauto

/-- The launch whose turn it is is one of the partition. -/
theorem State.part_of_nextPlace {s : State} {part id : Nat} {l : Launch} {cores : List Nat}
    (h : s.nextPlace part = some (id, l, cores)) : l.part = part := by
  obtain ⟨p, -, hp⟩ := List.exists_of_findSome?_eq_some h
  obtain ⟨e, he, hfit⟩ := List.exists_of_findSome?_eq_some hp
  obtain ⟨cs, -, hcs⟩ := Option.map_eq_some_iff.1 hfit
  have hl : e.2 = l := congrArg (fun x => x.2.1) hcs
  have hmem := (List.mem_filter.1 (List.mem_filter.1 (mem_turnOrder he)).1).1
  have hpart := (List.mem_filter.1 hmem).2
  rw [← hl]
  exact beq_iff_eq.1 hpart

/-! ### A new team -/

/-- The arguments of a launch as a gang's scalar registers. -/
theorem get_foldl_zipIdx (xs : List Word) (n i : Nat) (t : Tbl Word) :
    Tbl.get 0 ((xs.zipIdx n).foldl (fun t x => Tbl.set 0 t x.2 x.1) t) i =
      if n ≤ i ∧ i < n + xs.length then xs.getD (i - n) 0 else Tbl.get 0 t i := by
  induction xs generalizing n t with
  | nil => simp
  | cons x xs ih =>
    rw [List.zipIdx_cons, List.foldl_cons, ih, Tbl.get_set]
    rcases Nat.lt_trichotomy i n with h | rfl | h
    · simp [show ¬ (n + 1 ≤ i) by omega, show ¬ (n ≤ i) by omega, show i ≠ n by omega]
    · simp
    · obtain ⟨k, rfl⟩ : ∃ k, i = n + k + 1 := ⟨i - n - 1, by omega⟩
      simp only [List.length_cons, show n + 1 ≤ n + k + 1 by omega, show n ≤ n + k + 1 by omega, true_and,
        show n + k + 1 ≠ n by omega, if_false, show n + k + 1 - (n + 1) = k by omega, show n + k + 1 - n = k + 1 by omega,
        List.getD_cons_succ, show n + k + 1 < n + 1 + xs.length ↔ n + k + 1 < n + (xs.length + 1) by omega]

/-- The scalar registers of a gang at its start (Table 2.2). -/
theorem Gang.elem_start (l : Launch) (team index rank core slot now : Nat) :
    (∀ i < l.args.length, (Gang.start l team index rank core slot now).elem (.s i) = l.args.getD i 0) ∧
    ∀ i, l.args.length ≤ i → (Gang.start l team index rank core slot now).elem (.s i) = 0 := by
  have hget := fun i => get_foldl_zipIdx l.args 0 i []
  exact ⟨fun i hi => (hget i).trans (by rw [if_pos (by omega), Nat.sub_zero]),
    fun i hi => (hget i).trans (by rw [if_neg (by omega)]; rfl)⟩

/-- The gangs of a new team stand one after another from the next number on. -/
theorem State.gang?_startGangs (l : Launch) (team : Nat) (cores : List Nat) (gs : List Nat) (s : State) :
    (∀ j < s.next, (State.startGangs l team cores gs s).gang? j = s.gang? j) ∧
    (∃ n tbl, State.startGangs l team cores gs s = { s with next := n, gangs := tbl }) ∧
    ∀ (i : Nat) (hi : i < gs.length), ∃ rank core slot now,
      (State.startGangs l team cores gs s).gang? (s.next + i) = some (Gang.start l team gs[i] rank core slot now) := by
  induction gs generalizing s with
  | nil => exact ⟨fun _ _ => rfl, ⟨_, _, rfl⟩, fun i hi => absurd hi (Nat.not_lt_zero i)⟩
  | cons g gs ih =>
    obtain ⟨rank, core, slot, now, hstep⟩ : ∃ rank core slot now, State.startGangs l team cores (g :: gs) s =
        State.startGangs l team cores gs
          (State.putGang { s with next := s.next + 1 } s.next (Gang.start l team g rank core slot now)) := ⟨_, _, _, _, rfl⟩
    obtain ⟨hold, ⟨n, tbl, hshape⟩, hnew⟩ :=
      ih (State.putGang { s with next := s.next + 1 } s.next (Gang.start l team g rank core slot now))
    rw [hstep]
    refine ⟨fun j hj => ?_, ⟨n, tbl, hshape⟩, fun i hi => ?_⟩
    · rw [hold j (Nat.lt_succ_of_lt hj)]
      exact State.gang?_putGang_other _ _ hj.ne
    · cases i with
      | zero =>
        refine ⟨rank, core, slot, now, (hold s.next (Nat.lt_succ_self _)).trans ?_⟩
        exact State.gang?_putGang_same _ _ _
      | succ i =>
        obtain ⟨rank', core', slot', now', h⟩ := hnew i (Nat.lt_of_succ_lt_succ hi)
        refine ⟨rank', core', slot', now', ?_⟩
        rw [show s.next + (i + 1) = s.next + 1 + i by omega]
        exact h

theorem State.team?_putLaunch (s : State) (id : Nat) (l : Launch) (k : Nat) : (s.putLaunch id l).team? k = s.team? k := rfl

/-- A new team, of a launch without a saved one (R298). -/
theorem gives_new_team {s : State} {part id : Nat} {l : Launch} {cores : List Nat} (hon : s.distributorOn = true)
    (hup : (s.part part).halted = false) (hnext : (s.endNotices part).nextPlace part = some (id, l, cores))
    (hnew : (s.endNotices part).lowestVictim id = none) :
    Gives (.teamPlace part) s (fun t => (∃ l', t.launch? id = some l' ∧ l'.nextTid = l.nextTid + 1) ∧
      (∃ tm, t.team? s.next = some tm ∧ tm.launch = id ∧ tm.tid = l.nextTid ∧ tm.status = .running ∧ tm.priv = l.priv ∧
        tm.cores.map TeamCore.core = cores ∧ tm.alloc = padSize l.scratch) ∧
      ∀ n < l.gangs, ∃ g, t.gang? (s.next + 1 + n) = some g ∧ g.team = s.next ∧ g.index = n ∧ g.alloc = l.vregs ∧
        g.groups = [{ slices := 0xFF#8, pc := l.entry, park := none, since := 0 }] ∧ g.exited = 0 ∧
        g.emask = 0xFFFFFFFF#32 ∧ g.acr = 0 ∧ g.inh = false ∧
        (∀ i < l.args.length, g.elem (.s i) = l.args.getD i 0) ∧ (∀ i, l.args.length ≤ i → g.elem (.s i) = 0) ∧
        ∀ r k, g.elem (.v r k) = 0) := by
  refine ⟨_, exec_teamPlace hon hup hnext, ?_⟩
  rw [State.placeTeam, hnew]
  dsimp only
  have hfirst : ((s.endNotices part).modPart l.part fun p => { p with served := Tbl.set 0 p.served l.prio l.readyAt }).next =
      s.next := rfl
  generalize (s.endNotices part).modPart l.part _ = u at hfirst
  rw [State.placeNew, hfirst]
  dsimp only
  generalize hw : State.putLaunch _ id _ = w
  have hlaunch : ∃ l', w.launch? id = some l' ∧ l'.nextTid = l.nextTid + 1 :=
    ⟨_, by rw [← hw]; exact State.launch?_putLaunch_same _ _ _, rfl⟩
  have hteam : ∃ tm, w.team? s.next = some tm ∧ tm.launch = id ∧ tm.tid = l.nextTid ∧ tm.status = .running ∧ tm.priv = l.priv ∧
      tm.cores.map TeamCore.core = cores ∧ tm.alloc = padSize l.scratch := by
    rw [← hw, State.team?_putLaunch]
    exact ⟨_, State.team?_putTeam_same _ s.next _, rfl, rfl, rfl, rfl, (List.map_map ..).trans (List.map_id _), rfl⟩
  have hnum : w.next = s.next + 1 := by rw [← hw]; rfl
  clear hw
  obtain ⟨-, ⟨n, tbl, hshape⟩, hgangs⟩ :=
    State.gang?_startGangs { l with blocking := false } s.next cores (List.range l.gangs) w
  generalize State.startGangs { l with blocking := false } s.next cores (List.range l.gangs) w = v at hshape hgangs
  refine ⟨by rw [hshape]; exact hlaunch, by rw [hshape]; exact hteam, fun k hk => ?_⟩
  obtain ⟨rank, core, slot, now, hg⟩ := hgangs k (by rwa [List.length_range])
  rw [List.getElem_range, hnum] at hg
  obtain ⟨hargs, hzero⟩ := Gang.elem_start { l with blocking := false } s.next k rank core slot now
  exact ⟨_, hg, rfl, rfl, rfl, rfl, rfl, rfl, rfl, rfl, hargs, hzero, fun _ _ => rfl⟩

/-! ### Pre-emption -/

theorem State.team?_modTeam (s : State) (id : Nat) (f : Team → Team) (k : Nat) :
    (s.modTeam id f).team? k = (s.team? k).map (fun t => if k = id then f t else t) := by
  unfold State.modTeam
  cases h : s.team? id with
  | none =>
    by_cases hk : k = id
    · rw [hk, h]; rfl
    · simp [hk]
  | some t =>
    by_cases hk : k = id
    · subst hk
      rw [h, Option.map_some, if_pos rfl]
      exact State.team?_putTeam_same _ _ _
    · simp [hk]

/-- A team taken as a victim: it is marked, and its gangs latch event 17 (R304, R305). -/
def State.takeVictim (s : State) (team : Nat) : State :=
  (s.modTeam team (fun x => { x with victim := true })).modTeamGangs team (fun g => if g.ended then g else g.latch 17)

theorem State.parts_takeVictim (s : State) (team : Nat) : (s.takeVictim team).parts = s.parts := by
  obtain ⟨gs, h⟩ := (s.modTeam team fun x => { x with victim := true }).modTeamGangs_with team
    (fun g => if g.ended then g else g.latch 17)
  rw [State.takeVictim, h, State.modTeam]
  split <;> rfl

theorem State.team?_takeVictim (s : State) (team k : Nat) :
    (s.takeVictim team).team? k = (s.team? k).map (fun t => if k = team then { t with victim := true } else t) := by
  rw [State.takeVictim, State.modTeamGangs_team?, State.team?_modTeam]

theorem State.gang?_takeVictim (s : State) (team j : Nat) : (s.takeVictim team).gang? j =
    (s.gang? j).map (fun g => if g.team = team then (if g.ended then g else g.latch 17) else g) := by
  rw [State.takeVictim, State.gang?_modTeamGangs_eq]
  congr 1
  unfold State.modTeam
  split <;> rfl

/-- What becomes of victims taken one after another. -/
theorem State.takeVictims_spec (vs : List Nat) (s : State) :
    (vs.foldl State.takeVictim s).parts = s.parts ∧
    (∀ k tm, s.team? k = some tm → ∃ tm', (vs.foldl State.takeVictim s).team? k = some tm' ∧
      (tm.victim = true ∨ k ∈ vs → tm'.victim = true)) ∧
    ∀ j g, (vs.foldl State.takeVictim s).gang? j = some g → ∃ g0, s.gang? j = some g0 ∧ g.team = g0.team ∧ g.ended = g0.ended ∧
      (g0.evpend.getLsbD 17 = true ∨ (g0.team ∈ vs ∧ g0.ended = false) → g.evpend.getLsbD 17 = true) := by
  induction vs generalizing s with
  | nil => exact ⟨rfl, fun k tm h => ⟨tm, h, by simp⟩, fun j g h => ⟨g, h, rfl, rfl, by simp⟩⟩
  | cons v vs ih =>
    obtain ⟨hparts, hteams, hgangs⟩ := ih (s.takeVictim v)
    rw [List.foldl_cons]
    refine ⟨hparts.trans (s.parts_takeVictim v), fun k tm h => ?_, fun j g h => ?_⟩
    · have hk := s.team?_takeVictim v k
      rw [h, Option.map_some] at hk
      obtain ⟨tm', htm', hvictim⟩ := hteams k _ hk
      refine ⟨tm', htm', fun hv => hvictim ?_⟩
      by_cases hkv : k = v
      · simp [hkv]
      · simpa [hkv] using hv
    · obtain ⟨g1, hg1, hteam, hended, hlatch⟩ := hgangs j g h
      rw [s.gang?_takeVictim v j] at hg1
      obtain ⟨g0, hg0, hsame⟩ := Option.map_eq_some_iff.1 hg1
      have hkeep : g1.team = g0.team ∧ g1.ended = g0.ended := by
        rw [← hsame]
        split_ifs <;> exact ⟨rfl, rfl⟩
      refine ⟨g0, hg0, hteam.trans hkeep.1, hended.trans hkeep.2, fun hlater => hlatch ?_⟩
      by_cases hv : g0.team = v ∧ g0.ended = false
      · left
        rw [← hsame, if_pos hv.1, if_neg (by simp [hv.2]), Gang.getLsbD_evpend_latch (by omega)]
        simp
      · rcases hlater with hbit | ⟨hin, hend⟩
        · left
          rw [← hsame]
          split_ifs
          · exact hbit
          · rw [Gang.getLsbD_evpend_latch (by omega), hbit, Bool.true_or]
          · exact hbit
        · right
          rw [hkeep.1, hkeep.2]
          exact ⟨(List.mem_cons.1 hin).resolve_left fun h => hv ⟨h, hend⟩, hend⟩

theorem exists_of_mem_takeVictims {n v : Nat} {cs : List (Nat × Team)} (h : v ∈ takeVictims n cs) : ∃ t, (v, t) ∈ cs := by
  induction cs generalizing n with
  | nil => simp [takeVictims] at h
  | cons c cs ih =>
    rw [takeVictims] at h
    split_ifs at h
    · simp at h
    · rcases List.mem_cons.1 h with rfl | h
      · exact ⟨c.2, List.mem_cons_self⟩
      · obtain ⟨t, ht⟩ := ih h
        exact ⟨t, List.mem_cons_of_mem _ ht⟩

/-- A candidate stands (R304). -/
theorem State.team?_of_candidates {s : State} {part q : Nat} {named : Option Nat} {v : Nat} {t : Team}
    (h : (v, t) ∈ s.candidates part q named) : s.team? v = some t := by
  obtain ⟨e, -, he⟩ := List.mem_flatMap.1 h
  have hmem := (List.mem_filter.1 (List.mem_filter.1 (List.mem_sortedBy.1 he)).1).1
  exact mem_listed hmem

theorem State.preempt_spec (s : State) (part n q : Nat) (named : Option Nat) :
    let vs := takeVictims n (s.candidates part q named)
    ((s.preempt part n q named).part part).notices =
      (s.part part).notices ++ [{ victims := vs, prio := q, expired := false, vacated := [] }] ∧
    (∀ v ∈ vs, ∃ tm, (s.preempt part n q named).team? v = some tm ∧ tm.victim = true) ∧
    ∀ j g, (s.preempt part n q named).gang? j = some g → g.team ∈ vs → g.ended = false → g.evpend.getLsbD 17 = true := by
  intro vs
  have hshape : s.preempt part n q named = (vs.foldl State.takeVictim s).modPart part
      (fun p => { p with notices := p.notices ++ [{ victims := vs, prio := q, expired := false, vacated := [] }] }) := rfl
  obtain ⟨hparts, hteams, hgangs⟩ := State.takeVictims_spec vs s
  rw [hshape]
  generalize vs.foldl State.takeVictim s = u at hparts hteams hgangs
  refine ⟨?_, fun v hv => ?_, fun j g hg hin hend => ?_⟩
  · rw [State.part_modPart, State.part, State.part, hparts]
  · obtain ⟨t, ht⟩ := exists_of_mem_takeVictims hv
    obtain ⟨tm, htm, hvictim⟩ := hteams v t (State.team?_of_candidates ht)
    exact ⟨tm, htm, hvictim (.inr hv)⟩
  · obtain ⟨g0, -, hteam, hended, hlatch⟩ := hgangs j g hg
    exact hlatch (.inr ⟨hteam ▸ hin, hended ▸ hend⟩)

theorem exec_preemptRequest (part n q : Nat) (named : Option Nat) (s : State) : exec (.preemptRequest part n q named) s =
    whenever (s.isReady && decide (1 ≤ n) && decide (n ≤ 160) && decide (1 ≤ q) && decide (q ≤ 3) &&
      named.isSome == (s.part part).modes.getLsbD 4) s (s.preempt part n q named) := rfl

theorem exec_hwPreemptTrigger {s : State} {launch : Nat} {l : Launch} (hl : s.launch? launch = some l) (part : Nat) :
    exec (.hwPreemptTrigger part launch) s =
      whenever (l.part == part && l.blocking && s.wantsPlace launch l && decide (1 ≤ l.prio) &&
        !(s.part part).modes.getLsbD 4) s
        (State.preempt { s with free := s.free + 1 } part (1 + Config.freeCores s.free % 160) l.prio none) := by
  show execHwPreemptTrigger part launch s = _
  unfold execHwPreemptTrigger
  rw [hl]

/-! ### The end of a notice -/

theorem State.sameBulk_freezeCore (s : State) (core : Nat) : s.sameBulk (s.freezeCore core) :=
  State.sameBulk_trans (t := State.modCore { s with free := s.free + 1 } core (fun c => c.freeze (Config.freeFreezeRows s.free)))
    ⟨rfl, rfl, rfl⟩ (State.sameBulk_foldl _ (fun v _ => v.sameBulk_modGang _ _) _)

theorem State.sameBulk_loseReserves (s : State) (gang : Nat) : s.sameBulk (s.loseReserves gang) :=
  s.sameBulk_modGang gang _

/-- The beginning of a save marks its team, where it runs, and changes no other team and no partition. -/
theorem State.beginSave_spec (s : State) (team : Nat) : (s.beginSave team).parts = s.parts ∧ ∀ k tm, s.team? k = some tm →
    ∃ tm', (s.beginSave team).team? k = some tm' ∧ tm'.status = tm.status ∧
      (tm.saving = true ∨ (k = team ∧ tm.status = .running) → tm'.saving = true) := by
  have hidle : s.parts = s.parts ∧ ∀ k tm, s.team? k = some tm → ∃ tm', s.team? k = some tm' ∧ tm'.status = tm.status ∧
      (tm.saving = true → tm'.saving = true) := ⟨rfl, fun k tm h => ⟨tm, h, rfl, id⟩⟩
  unfold State.beginSave
  cases ht : s.team? team with
  | none =>
    refine ⟨rfl, fun k tm h => ⟨tm, h, rfl, fun hs => hs.resolve_right fun hk => ?_⟩⟩
    rw [hk.1, ht] at h
    exact absurd h nofun
  | some t =>
    dsimp only
    by_cases hrun : (t.status == .running && !t.saving) = true
    · rw [if_pos hrun]
      have hfreeze : s.sameBulk (t.cores.foldl (fun acc c => if acc.frozen c.core then acc else acc.freezeCore c.core) s) :=
        State.sameBulk_foldl _ (fun v c => by
          split_ifs
          · exact ⟨rfl, rfl, rfl⟩
          · exact v.sameBulk_freezeCore _) s
      generalize t.cores.foldl _ s = u at hfreeze
      obtain ⟨tbl, hgangs⟩ := (u.putTeam team { t with saving := true }).modTeamGangs_with team Gang.stopForSave
      rw [hgangs]
      have hlose : State.sameBulk { u.putTeam team { t with saving := true } with gangs := tbl }
          (((State.teamGangs { u.putTeam team { t with saving := true } with gangs := tbl } team).map (fun e => e.1)).foldl
            (fun acc i => acc.loseReserves i) { u.putTeam team { t with saving := true } with gangs := tbl }) :=
        State.sameBulk_foldl _ (fun v i => v.sameBulk_loseReserves i) _
      refine ⟨hlose.2.1.trans hfreeze.2.1, fun k tm h => ?_⟩
      have hteam : ∀ w : State, State.sameBulk { u.putTeam team { t with saving := true } with gangs := tbl } w →
          w.team? k = if k = team then some { t with saving := true } else s.team? k := fun w hw => by
        rw [State.team?, hw.1]
        show Tbl.get none (Tbl.set none u.teams team (some { t with saving := true })) k = _
        rw [Tbl.get_set, hfreeze.1]
        rfl
      rw [hteam _ hlose]
      by_cases hk : k = team
      · have htm : tm = t := Option.some.inj (h.symm.trans (by rw [hk]; exact ht))
        exact ⟨_, if_pos hk, by rw [htm], fun _ => rfl⟩
      · exact ⟨tm, by rw [if_neg hk, h], rfl, fun hs => hs.resolve_right fun e => hk e.1⟩
    · rw [if_neg hrun]
      refine ⟨rfl, fun k tm h => ⟨tm, h, rfl, fun hs => ?_⟩⟩
      rcases hs with hs | ⟨hk, hs⟩
      · exact hs
      · have htm : tm = t := Option.some.inj (h.symm.trans (by rw [hk]; exact ht))
        simpa [← htm, hs] using hrun

theorem State.beginSaves_spec (vs : List Nat) (s : State) : (vs.foldl State.beginSave s).parts = s.parts ∧
    ∀ k tm, s.team? k = some tm → ∃ tm', (vs.foldl State.beginSave s).team? k = some tm' ∧
      (tm.saving = true ∨ (k ∈ vs ∧ tm.status = .running) → tm'.saving = true) := by
  induction vs generalizing s with
  | nil => exact ⟨rfl, fun k tm h => ⟨tm, h, by simp⟩⟩
  | cons v vs ih =>
    obtain ⟨hparts, hteams⟩ := ih (s.beginSave v)
    obtain ⟨hparts', hteams'⟩ := s.beginSave_spec v
    rw [List.foldl_cons]
    refine ⟨hparts.trans hparts', fun k tm h => ?_⟩
    obtain ⟨tm1, h1, hstatus, hsave⟩ := hteams' k tm h
    obtain ⟨tm2, h2, hsave'⟩ := hteams k tm1 h1
    refine ⟨tm2, h2, fun hs => hsave' ?_⟩
    rcases hs with hs | ⟨hk, hs⟩
    · exact .inl (hsave (.inl hs))
    · rcases List.mem_cons.1 hk with rfl | hk
      · exact .inl (hsave (.inr ⟨rfl, hs⟩))
      · exact .inr ⟨hk, hstatus.trans hs⟩

theorem exec_preemptNoticeExpiry {s : State} {part : Nat} {n : Notice} {rest : List Notice}
    (hn : (s.part part).notices = n :: rest) (hexp : n.expired = false) : exec (.preemptNoticeExpiry part) s =
    .next (n.victims.foldl State.beginSave
      (s.putPart part { s.part part with notices := { n with expired := true } :: rest })) := by
  show execPreemptNoticeExpiry part s = _
  unfold execPreemptNoticeExpiry
  dsimp only
  rw [hn, List.find?_cons_of_pos (by simp [hexp]), List.takeWhile_cons_of_neg (by simp [hexp]),
    List.dropWhile_cons_of_neg (by simp [hexp])]
  rfl

theorem gives_preemptNoticeExpiry {s : State} {part : Nat} {n : Notice} {rest : List Notice}
    (hn : (s.part part).notices = n :: rest) (hexp : n.expired = false) :
    Gives (.preemptNoticeExpiry part) s (fun t => (t.part part).notices = { n with expired := true } :: rest ∧
      ∀ v ∈ n.victims, ∀ tm, s.team? v = some tm → tm.status = .running → ∃ tm', t.team? v = some tm' ∧ tm'.saving = true) := by
  refine ⟨_, exec_preemptNoticeExpiry hn hexp, ?_⟩
  obtain ⟨hparts, hteams⟩ := State.beginSaves_spec n.victims
    (s.putPart part { s.part part with notices := { n with expired := true } :: rest })
  generalize n.victims.foldl State.beginSave _ = t at hparts hteams
  refine ⟨?_, fun v hv tm htm hrun => ?_⟩
  · rw [State.part, hparts, ← State.part, State.part_putPart, if_pos rfl]
  · obtain ⟨tm', htm', hsave⟩ := hteams v tm htm
    exact ⟨tm', htm', hsave (.inr ⟨hv, hrun⟩)⟩

/-! ### Saving -/

/-- The launch ID in a team's image. -/
def State.lidOf (s : State) (launch : Nat) : Nat := match s.launch? launch with
  | some l => l.lid.toNat
  | none => 0

/-- What the cores of a team give up of it, and the team's image with that (R424). -/
def State.heldOf (s : State) (team : Nat) (tm : Team) : List SavedCore := tm.cores.map (fun c => ((s.core c.core).takeTeam team).1)
def State.savedImage (s : State) (team : Nat) (tm : Team) : List Byte :=
  s.teamImage team { tm with saved := s.heldOf team tm } (s.lidOf tm.launch) (s.part tm.part).hseq.toNat

/-- The image bs of a team written in n units from unit u on, and what the team held released. -/
def State.savedAt (s : State) (team : Nat) (tm : Team) (held : List SavedCore) (bs : List Byte) (u n : Nat) : State :=
  (((tm.cores.foldl (fun acc c => acc.modCore c.core (fun k => (k.takeTeam team).2)) (s.writeAtOnce .iod 4 (u * 65536) bs)).putTeam
    team { tm with status := .saved, victim := true, saving := false, image := some (u * 65536), saved := held }).vacate team
      tm).modPart tm.part (fun p => { p with ctxUsed := p.ctxUsed ++ [(u, n)] })

theorem exec_contextSave {s : State} {team : Nat} {tm : Team} (ht : s.team? team = some tm) :
    exec (.contextSave team) s = whenever (s.saveReady team tm) s
      (match (s.part tm.part).roomFor (((s.savedImage team tm).length + 65535) / 65536) with
        | none => s.noRoom team tm
        | some u => (s.releaseToIod).writing .iod 4 [(u * 65536, (s.savedImage team tm).length)] false fun v =>
          v.savedAt team tm (s.heldOf team tm) (s.savedImage team tm) u (((s.savedImage team tm).length + 65535) / 65536)) := by
  show execContextSave team s = _
  unfold execContextSave
  rw [ht]
  rfl

/-- A team whose image finds no room goes on (R424). -/
theorem gives_contextSave_full {s : State} {team : Nat} {tm : Team} (ht : s.team? team = some tm)
    (hready : s.saveReady team tm = true)
    (hroom : (s.part tm.part).roomFor (((s.savedImage team tm).length + 65535) / 65536) = none) :
    Gives (.contextSave team) s (fun t => t.team? team = some { tm with saving := false, victim := false } ∧
      (t.part tm.part).noroom = true ∧ t.vault = s.vault) := by
  have hexec := exec_contextSave ht
  rw [hroom] at hexec
  refine gives_whenever hexec hready ?_
  obtain ⟨tbl, hgangs⟩ := (s.putTeam team { tm with saving := false, victim := false }).modTeamGangs_with team
    (fun g => { g with ctxsv := false })
  rw [State.noRoom, hgangs]
  dsimp only
  refine ⟨State.team?_putTeam_same s team _, ?_, rfl⟩
  rw [State.part_modPart]

/-- A team whose image finds room is saved there (R424, R425). -/
theorem gives_contextSave_room {s : State} {team : Nat} {tm : Team} (ht : s.team? team = some tm)
    (hready : s.saveReady team tm = true) {u : Nat}
    (hroom : (s.part tm.part).roomFor (((s.savedImage team tm).length + 65535) / 65536) = some u)
    (hruns : s.releaseToIod.runsReady 4 [(u * 65536, (s.savedImage team tm).length)] false = true) :
    Gives (.contextSave team) s (fun t =>
      Memory.readBytes t.vault (u * 65536) (s.savedImage team tm).length = s.savedImage team tm ∧
      (∃ tm', t.team? team = some tm' ∧ tm'.status = .saved ∧ tm'.image = some (u * 65536) ∧ tm'.victim = true) ∧
      (u, ((s.savedImage team tm).length + 65535) / 65536) ∈ (t.part tm.part).ctxUsed) := by
  have hexec := exec_contextSave ht
  rw [hroom] at hexec
  refine gives_whenever hexec hready ?_
  dsimp only
  rw [State.writing, if_pos hruns]
  generalize s.savedImage team tm = bs
  generalize s.releaseToIod.unbook 4 _ = v
  have hcores : ∀ w : State, ∃ cs, tm.cores.foldl (fun acc c => acc.modCore c.core (fun k => (k.takeTeam team).2)) w =
      { w with cores := cs } := fun w =>
    List.foldlRecOn tm.cores _ (motive := fun x : State => ∃ cs, x = { w with cores := cs }) ⟨_, rfl⟩
      (fun x ⟨cs, hx⟩ c _ => by rw [hx]; exact ⟨_, rfl⟩)
  obtain ⟨cs, hcs⟩ := hcores (v.writeAtOnce .iod 4 (u * 65536) bs)
  rw [State.savedAt, hcs]
  have hvault := v.vault_writeAtOnce .iod 4 (u * 65536) bs
  generalize v.writeAtOnce .iod 4 (u * 65536) bs = w at hvault
  refine ⟨?_, ⟨_, State.team?_putTeam_same { w with cores := cs } team _, rfl, rfl, rfl⟩, ?_⟩
  · show Memory.readBytes w.vault _ _ = _
    rw [hvault, Memory.readBytes_writeBytes]
  · rw [State.part_modPart]
    exact List.mem_append_right _ List.mem_cons_self

end Sys2Proof.Machine
end
section
/-! PROOFS. O54, a gang as its image has it (R426, Table 17.8). -/

namespace Sys2Proof.Machine

/-! ### Numbers in an image -/

theorem imageNat_readBytes (m : Memory) {a len o n : Nat} (h : o + n ≤ len) :
    imageNat (Memory.readBytes m a len) o n = Memory.readNat m (a + o) n := by
  rw [imageNat, Memory.drop_readBytes, Memory.take_readBytes _ _ (by omega), Memory.readNat]

theorem Memory.readNat_one (m : Memory) (a : Nat) : Memory.readNat m a 1 = (Memory.readByte m a).toNat := by
  simp [Memory.readNat, Memory.readBytes, leNat]

/-! ### Elements written one after another -/

/-- Elements with the values that they take. -/
def Gang.putElems (g : Gang) (ws : List (RegElem × Word)) : Gang := ws.foldl (fun g w => g.putElem w.1 w.2) g

/-- The element that was written holds what was written to it. -/
theorem Gang.elem_putElems {ws : List (RegElem × Word)} {F : RegElem → Word} (hF : ∀ w ∈ ws, w.2 = F w.1) (g : Gang) (e : RegElem) :
    (g.putElems ws).elem e = if e ∈ ws.map Prod.fst then e.holds (F e) else g.elem e := by
  induction ws generalizing g with
  | nil => simp [Gang.putElems]
  | cons w ws ih =>
    have hstep := ih (fun x hx => hF x (List.mem_cons_of_mem _ hx)) (g.putElem w.1 w.2)
    rw [Gang.putElems, List.foldl_cons, ← Gang.putElems, hstep]
    by_cases hin : e ∈ ws.map Prod.fst
    · rw [if_pos hin, if_pos (by rw [List.map_cons]; exact List.mem_cons_of_mem _ hin)]
    · by_cases he : e = w.1
      · rw [if_neg hin, if_pos (by simp [he]), he, Gang.elem_putElem_same, hF w List.mem_cons_self]
      · rw [if_neg hin, if_neg (by rw [List.map_cons, List.mem_cons]; tauto), Gang.elem_putElem_other _ _ he]

/-- Only elements change. -/
theorem Gang.putElems_shape (ws : List (RegElem × Word)) (g : Gang) :
    ∃ v s p, g.putElems ws = { g with v := v, s := s, p := p } := by
  induction ws generalizing g with
  | nil => exact ⟨_, _, _, rfl⟩
  | cons w ws ih =>
    obtain ⟨v, s, p, h⟩ := ih (g.putElem w.1 w.2)
    have hstep : ∃ v s p, g.putElem w.1 w.2 = { g with v := v, s := s, p := p } := by
      unfold Gang.putElem
      split
      · exact ⟨_, _, _, rfl⟩
      · exact ⟨_, _, _, rfl⟩
      · split_ifs <;> exact ⟨_, _, _, rfl⟩
    obtain ⟨v', s', p', h'⟩ := hstep
    rw [h'] at h
    exact ⟨v, s, p, by rw [Gang.putElems, List.foldl_cons, h']; exact h⟩

/-! ### The registers of an image -/

/-- The value of an element in an image. -/
def imageElem (bs : List Byte) : RegElem → Word
  | .s i => BitVec.ofNat 32 (imageNat bs (0x200 + 4 * i) 4)
  | .p i l => if bit (imageNat bs (0x300 + 4 * i) 4) l then 1 else 0
  | .v r l => BitVec.ofNat 32 (imageNat bs (0x600 + 128 * r + 4 * l) 4)

/-- The elements that an image has, for a gang of n vector registers. -/
def imageElems (bs : List Byte) (n : Nat) : List (RegElem × Word) :=
  ((List.range 56).map RegElem.s ++
    (List.range 64).flatMap (fun i => allLanes.map (RegElem.p i)) ++
    (List.range n).flatMap (fun r => allLanes.map (RegElem.v r))).map (fun e => (e, imageElem bs e))

theorem Gang.putElems_imageElems (g : Gang) (bs : List Byte) (n : Nat) : g.putElems (imageElems bs n) =
    (List.range n).foldl (fun g r => allLanes.foldl (fun g l => g.putElem (.v r l) (imageElem bs (.v r l))) g)
      ((List.range 64).foldl (fun g i => allLanes.foldl (fun g l => g.putElem (.p i l) (imageElem bs (.p i l))) g)
        ((List.range 56).foldl (fun g i => g.putElem (.s i) (imageElem bs (.s i))) g)) := by
  rw [imageElems, List.map_append, List.map_append, List.map_map, Gang.putElems, List.foldl_append, List.foldl_append,
    List.map_flatMap, List.map_flatMap, List.foldl_flatMap, List.foldl_flatMap, List.foldl_map]
  simp only [List.map_map, List.foldl_map]
  rfl

/-- A gang read from an image: its elements, then its group structure, on what else the image has. -/
theorem Gang.fromImage_eq (g : Gang) (bs : List Byte) (tid : Nat) :
    ∃ g1 : Gang, g.fromImage bs tid = (g1.putElems (imageElems bs g.alloc)).takeBlock bs tid ∧ g1.index = g.index ∧
      g1.groups = g.groups ∧ g1.inh = bit (imageNat bs 3 1) 0 ∧ g1.exited = ~~~BitVec.ofNat 32 (imageNat bs 0x64 4) ∧
      g1.emask = BitVec.ofNat 32 (imageNat bs 0x60 4) &&& ~~~g1.exited ∧
      g1.k = (List.range 8).foldl (fun t i => Tbl.set 0 t i (imageNat bs (0x80 + 4 * i) 4 % 4096)) [] :=
  ⟨_, (congrArg (fun x : Gang => x.takeBlock bs tid) (Gang.putElems_imageElems _ bs g.alloc)).symm, rfl, rfl, rfl, rfl, rfl, rfl⟩

/-- Every element of an image is read. -/
theorem Gang.elem_putElems_image (g : Gang) (bs : List Byte) (n : Nat) (e : RegElem)
    (h : e ∈ (List.range 56).map RegElem.s ++ (List.range 64).flatMap (fun i => allLanes.map (RegElem.p i)) ++
      (List.range n).flatMap (fun r => allLanes.map (RegElem.v r))) :
    (g.putElems (imageElems bs n)).elem e = e.holds (imageElem bs e) := by
  have hF : ∀ w ∈ imageElems bs n, w.2 = imageElem bs w.1 := fun w hw => by
    obtain ⟨e, -, rfl⟩ := List.mem_map.1 hw
    rfl
  have hkeys : (imageElems bs n).map Prod.fst = (List.range 56).map RegElem.s ++
      (List.range 64).flatMap (fun i => allLanes.map (RegElem.p i)) ++
      (List.range n).flatMap (fun r => allLanes.map (RegElem.v r)) := (List.map_map ..).trans (List.map_id _)
  rw [Gang.elem_putElems hF, if_pos (hkeys ▸ h)]

/-! ### The group structure -/

/-- The bytes of a group tell its slices and its PC. -/
theorem Group.of_blockBytes {x y : Group} (h : x.blockBytes = y.blockBytes) : (x.slices, x.pc) = (y.slices, y.pc) := by
  have hpark : ∀ z : Group, ∃ b m : Byte, z.blockBytes = BitVec.ofNat 8 z.slices.toNat :: b :: m :: leBytes 7 z.pc.toNat := by
    intro z
    unfold Group.blockBytes
    split
    · exact ⟨_, _, rfl⟩
    · exact ⟨_, _, rfl⟩
  obtain ⟨b, m, hx⟩ := hpark x
  obtain ⟨b', m', hy⟩ := hpark y
  rw [hx, hy] at h
  obtain ⟨hs, -, -, hpc⟩ : _ ∧ _ ∧ _ ∧ _ := by simpa only [List.cons.injEq] using h
  have hs' := congrArg BitVec.toNat hs
  have hpc' := congrArg leNat hpc
  rw [leNat_leBytes, leNat_leBytes] at hpc'
  have h1 := x.slices.isLt
  have h2 := y.slices.isLt
  have h3 := x.pc.isLt
  have h4 := y.pc.isLt
  simp only [BitVec.toNat_ofNat] at hs'
  exact congrArg₂ Prod.mk (BitVec.eq_of_toNat_eq (by omega)) (BitVec.eq_of_toNat_eq (by omega))

theorem map_regroup (old new : List Group) :
    (regroup old new).map (fun x => (x.slices, x.pc)) = new.map (fun x => (x.slices, x.pc)) := by
  rw [regroup, List.map_map]
  refine List.map_congr_left fun x _ => ?_
  cases h : old.find? (fun y => y.blockBytes == x.blockBytes) with
  | none => simp [h]
  | some y =>
    have hy : y.blockBytes = x.blockBytes := by simpa using List.find?_some h
    simpa [h] using Group.of_blockBytes hy

/-- What takeBlock changes. -/
theorem Gang.takeBlock_shape (g : Gang) (bs : List Byte) (tid : Nat) :
    (∃ gs b, g.takeBlock bs tid = { g with groups := gs, block := b }) ∧
    ∀ b, Block.ofBytes ((bs.drop 0x100).take 128) g.index tid g.live = some b → g.inh = false →
      (g.takeBlock bs tid).groups.map (fun x => (x.slices, x.pc)) = b.groups.map (fun x => (x.slices, x.pc)) := by
  unfold Gang.takeBlock
  constructor
  · split
    · exact ⟨_, _, rfl⟩
    · split_ifs <;> exact ⟨_, _, rfl⟩
  · intro b hb hinh
    rw [hb]
    dsimp only
    rw [if_neg (by simp [hinh])]
    exact map_regroup _ _

theorem Gang.elem_takeBlock (g : Gang) (bs : List Byte) (tid : Nat) (e : RegElem) : (g.takeBlock bs tid).elem e = g.elem e := by
  obtain ⟨⟨gs, b, h⟩, -⟩ := g.takeBlock_shape bs tid
  rw [h]
  cases e <;> rfl

/-! ### A gang read back -/

theorem get_foldl_set_range {α : Type} [DecidableEq α] (d : α) (F : Nat → α) (n i : Nat) (h : i < n) :
    Tbl.get d ((List.range n).foldl (fun t i => Tbl.set d t i (F i)) []) i = F i := by
  induction n with
  | zero => omega
  | succ n ih =>
    rw [List.range_succ, List.foldl_append, List.foldl_cons, List.foldl_nil, Tbl.get_set]
    by_cases hi : i = n
    · rw [if_pos hi, hi]
    · rw [if_neg hi, ih (by omega)]

/-- A gang as the image at a has it. -/
structure Gang.AsImaged (m : Memory) (a tid : Nat) (g g' : Gang) : Prop where
  inh : g'.inh = true ↔ (Memory.readByte m (a + 3)).getLsbD 0 = true
  exited : g'.exited = ~~~(BitVec.ofNat 32 (Memory.readNat m (a + 0x64) 4))
  emask : g'.emask = BitVec.ofNat 32 (Memory.readNat m (a + 0x60) 4) &&& ~~~g'.exited
  counter : ∀ i < 8, g'.counter i = Memory.readNat m (a + (0x80 + 4 * i)) 4 % 4096
  scalar : ∀ i < 56, g'.elem (.s i) = BitVec.ofNat 32 (Memory.readNat m (a + (0x200 + 4 * i)) 4)
  predicate : ∀ i < 63, ∀ k < 32,
    g'.elem (.p i k) = if bit (Memory.readNat m (a + (0x300 + 4 * i)) 4) k = true then 1 else 0
  vector : ∀ r < g.alloc, ∀ k < 32, g'.elem (.v r k) = BitVec.ofNat 32 (Memory.readNat m (a + (0x600 + 128 * r + 4 * k)) 4)
  groups : ∀ b, Block.ofBytes (Memory.readBytes m (a + 0x100) 128) g.index tid g'.live = some b → g'.inh = false →
    g'.groups.map (fun x => (x.slices, x.pc)) = b.groups.map (fun x => (x.slices, x.pc))

/-- What stands in an image stands in a gang that agrees with one read from it. -/
theorem Gang.AsImaged.congr {m : Memory} {a tid : Nat} {g x y : Gang} (h : Gang.AsImaged m a tid g x) (hinh : y.inh = x.inh)
    (hexited : y.exited = x.exited) (hemask : y.emask = x.emask) (hk : y.k = x.k) (helem : y.elem = x.elem)
    (hgroups : y.groups = x.groups) : Gang.AsImaged m a tid g y where
  inh := by rw [hinh]; exact h.inh
  exited := hexited.trans h.exited
  emask := by rw [hemask, hexited]; exact h.emask
  counter i hi := by rw [Gang.counter, hk]; exact h.counter i hi
  scalar i hi := by rw [helem]; exact h.scalar i hi
  predicate i hi k hlane := by rw [helem]; exact h.predicate i hi k hlane
  vector r hr k hlane := by rw [helem]; exact h.vector r hr k hlane
  groups b hb hin := by
    have hlive : y.live = x.live := by rw [Gang.live, Gang.live, show y.sliceLive = x.sliceLive from by
      funext i; rw [Gang.sliceLive, Gang.sliceLive, hexited]]
    rw [hgroups]
    exact h.groups b (hlive ▸ hb) (hinh.symm.trans hin)

theorem Gang.asImaged_fromImage (m : Memory) (a tid : Nat) (g : Gang) :
    Gang.AsImaged m a tid g (g.fromImage (Memory.readBytes m a g.imageSize) tid) := by
  have hnum : ∀ {o n : Nat}, o + n ≤ g.imageSize → imageNat (Memory.readBytes m a g.imageSize) o n = Memory.readNat m (a + o) n :=
    imageNat_readBytes m
  have hsize : g.imageSize = 0x600 + 128 * g.alloc := rfl
  have hblock : ((Memory.readBytes m a g.imageSize).drop 0x100).take 128 = Memory.readBytes m (a + 0x100) 128 := by
    rw [Memory.drop_readBytes, Memory.take_readBytes _ _ (by omega)]
  generalize hbs : Memory.readBytes m a g.imageSize = bs at hnum hblock
  obtain ⟨g1, heq, hindex, -, hinh, hexited, hemask, hk⟩ := g.fromImage_eq bs tid
  obtain ⟨v, s, p, helems⟩ := Gang.putElems_shape (imageElems bs g.alloc) g1
  have helem := Gang.elem_putElems_image g1 bs g.alloc
  generalize hg2 : g1.putElems (imageElems bs g.alloc) = g2 at heq helems helem
  obtain ⟨⟨gs, b, hshape⟩, hgroups⟩ := g2.takeBlock_shape bs tid
  have hreg : ∀ e, (g.fromImage bs tid).elem e = g2.elem e := fun e => by rw [heq]; exact g2.elem_takeBlock bs tid e
  have h1 : g2.inh = g1.inh := by rw [helems]
  have h2 : g2.exited = g1.exited := by rw [helems]
  have h3 : g2.emask = g1.emask := by rw [helems]
  have h4 : g2.k = g1.k := by rw [helems]
  have h5 : g2.index = g1.index := by rw [helems]
  have h6 : (g.fromImage bs tid).inh = g2.inh := by rw [heq, hshape]
  have h7 : (g.fromImage bs tid).exited = g2.exited := by rw [heq, hshape]
  have h8 : (g.fromImage bs tid).emask = g2.emask := by rw [heq, hshape]
  have h9 : (g.fromImage bs tid).k = g2.k := by rw [heq, hshape]
  have h10 : (g.fromImage bs tid).live = g2.live := by rw [heq, hshape]; rfl
  refine ⟨?_, ?_, ?_, fun i hi => ?_, fun i hi => ?_, fun i hi k hk' => ?_, fun r hr k hk' => ?_, fun x hx hin => ?_⟩
  · rw [h6, h1, hinh, hnum (by omega), Memory.readNat_one, bit_getLsbD]
  · rw [h7, h2, hexited, hnum (by omega)]
  · rw [h8, h3, hemask, h7, h2, hnum (by omega)]
  · rw [Gang.counter, h9, h4, hk, get_foldl_set_range 0 _ 8 i hi, hnum (by omega)]
  · have hs := List.mem_append_left ((List.range g.alloc).flatMap fun r => allLanes.map (RegElem.v r))
      (List.mem_append_left ((List.range 64).flatMap fun i => allLanes.map (RegElem.p i))
        (List.mem_map_of_mem (f := RegElem.s) (List.mem_range.2 hi)))
    rw [hreg, helem _ hs, ← hnum (by omega)]
    rfl
  · have hp := List.mem_append_left ((List.range g.alloc).flatMap fun r => allLanes.map (RegElem.v r))
      (List.mem_append_right ((List.range 56).map RegElem.s) (List.mem_flatMap.2 (⟨i, List.mem_range.2 (show i < 64 by omega),
        List.mem_map_of_mem (f := RegElem.p i) (show k ∈ allLanes from List.mem_range.2 hk')⟩ :
          ∃ i' ∈ List.range 64, RegElem.p i k ∈ allLanes.map (RegElem.p i'))))
    rw [hreg, helem _ hp, ← hnum (by omega), RegElem.holds, if_neg (by omega), imageElem]
    generalize bit _ k = x
    cases x <;> rfl
  · have hv := List.mem_append_right ((List.range 56).map RegElem.s ++ (List.range 64).flatMap fun i => allLanes.map (RegElem.p i))
      (List.mem_flatMap.2 (⟨r, List.mem_range.2 hr, List.mem_map_of_mem (f := RegElem.v r)
        (show k ∈ allLanes from List.mem_range.2 hk')⟩ : ∃ r' ∈ List.range g.alloc, RegElem.v r k ∈ allLanes.map (RegElem.v r')))
    rw [hreg, helem _ hv, ← hnum (by omega)]
    rfl
  · rw [heq]
    refine hgroups x ?_ (h6.symm.trans hin)
    rw [hblock, h5, hindex, ← h10]
    exact hx

end Sys2Proof.Machine
end
section
/-! PROOFS. O54, what a core takes back of a saved team (R426, Table 17.9). -/

namespace Sys2Proof.Machine

theorem members_nodup {w : Nat} (m : BitVec w) : (members m).Nodup := List.nodup_range.filter _

theorem ite_mem_cons {α : Type} {n k : Nat} {ks : List Nat} {x d : α} :
    (if n ∈ ks then x else if n = k then x else d) = if n ∈ k :: ks then x else d := by
  by_cases h : n ∈ ks <;> by_cases h' : n = k <;> simp [h, h']

/-! ### Rows -/

/-- Chunks of four bytes, one after another, are the bytes. -/
theorem flatMap_chunks (bs : List Byte) {n : Nat} (h : bs.length = 4 * n) :
    (List.range n).flatMap (fun c => (bs.drop (4 * c)).take 4) = bs := by
  induction n generalizing bs with
  | zero => rw [List.eq_nil_of_length_eq_zero h]; rfl
  | succ n ih =>
    rw [List.range_succ_eq_map, List.flatMap_cons, List.flatMap_map]
    have hrest := ih (bs.drop 4) (by rw [List.length_drop]; omega)
    have hshift : (fun c => ((bs.drop 4).drop (4 * c)).take 4) = fun c => (bs.drop (4 * (c + 1))).take 4 := by
      funext c
      rw [List.drop_drop]
      congr 2
      omega
    rw [hshift] at hrest
    show (bs.drop 0).take 4 ++ _ = _
    rw [hrest, List.drop_zero, List.take_append_drop]

theorem Core.col_putPoison (k : Core) (row : Nat) (b : Bool) (r j : Nat) : (k.putPoison row b).col r j = k.col r j := rfl

theorem Core.rowBytes_congr {k k' : Core} (h : k.acc = k'.acc) : k.rowBytes = k'.rowBytes := by
  funext r
  unfold Core.rowBytes Core.col
  rw [h]

/-- A row written reads as the bytes written; the other rows are as they were. -/
theorem Core.col_putRow (k : Core) (row : Nat) (bs : List Byte) (r : Nat) {j : Nat} (hj : j < 128) : (k.putRow row bs).col r j =
    if r = row then BitVec.ofNat 32 (leNat ((bs.drop (4 * j)).take 4)) else k.col r j := by
  have hcols : ∀ n ≤ 128, ((List.range n).foldl (fun acc c =>
      acc.putCol row c (BitVec.ofNat 32 (leNat ((bs.drop (4 * c)).take 4)))) k).col r j =
      if r = row ∧ j < n then BitVec.ofNat 32 (leNat ((bs.drop (4 * j)).take 4)) else k.col r j := by
    intro n hn
    induction n with
    | zero => simp
    | succ n ih =>
      rw [List.range_succ, List.foldl_append, List.foldl_cons, List.foldl_nil, Core.col_putCol _ _ (by omega) hj, ih (by omega)]
      by_cases hr : r = row
      · rcases Nat.lt_trichotomy j n with h | rfl | h
        · simp [hr, h.ne, h, Nat.lt_succ_of_lt h]
        · simp [hr]
        · simp [hr, h.ne', show ¬ j < n by omega, show ¬ j < n + 1 by omega]
      · simp [hr]
  rw [Core.putRow, Core.col_putPoison, hcols 128 (Nat.le_refl _)]
  simp [hj]

theorem Core.putRow_shape (k : Core) (row : Nat) (bs : List Byte) : ∃ a p, k.putRow row bs = { k with acc := a, poison := p } := by
  have hcols : ∀ ns : List Nat, ∀ k : Core, ∃ a, ns.foldl (fun acc c =>
      acc.putCol row c (BitVec.ofNat 32 (leNat ((bs.drop (4 * c)).take 4)))) k = { k with acc := a } := by
    intro ns
    induction ns with
    | nil => exact fun k => ⟨_, rfl⟩
    | cons n ns ih => exact fun k => (ih _).imp fun a h => h
  obtain ⟨a, h⟩ := hcols (List.range 128) k
  exact ⟨a, Tbl.set false k.poison row false, by rw [Core.putRow, h]; rfl⟩

theorem Core.rowBytes_putRow (k : Core) (row : Nat) {bs : List Byte} (h : bs.length = 512) (r : Nat) :
    (k.putRow row bs).rowBytes r = if r = row then bs else k.rowBytes r := by
  have hchunk : ∀ c < 128, leBytes 4 (BitVec.ofNat 32 (leNat ((bs.drop (4 * c)).take 4))).toNat = (bs.drop (4 * c)).take 4 := by
    intro c hc
    have hlen : ((bs.drop (4 * c)).take 4).length = 4 := by rw [List.length_take, List.length_drop]; omega
    have hbytes := leBytes_leNat ((bs.drop (4 * c)).take 4)
    rw [hlen] at hbytes
    have hlt : leNat ((bs.drop (4 * c)).take 4) < 2 ^ 32 := by
      rw [← hbytes, leNat_leBytes]
      exact Nat.mod_lt _ (by norm_num)
    rw [BitVec.toNat_ofNat, Nat.mod_eq_of_lt hlt, hbytes]
  unfold Core.rowBytes
  by_cases hr : r = row
  · rw [if_pos hr]
    refine Eq.trans ?_ (flatMap_chunks bs (n := 128) h)
    refine List.flatMap_congr fun c hc => ?_
    rw [Core.col_putRow _ _ _ _ (List.mem_range.1 hc), if_pos hr, hchunk c (List.mem_range.1 hc)]
  · rw [if_neg hr]
    refine List.flatMap_congr fun c hc => ?_
    rw [Core.col_putRow _ _ _ _ (List.mem_range.1 hc), if_neg hr]

/-! ### Slots -/

/-- A slot given to a team with its bytes. -/
def Core.slotBack (team : Nat) (bs : List Byte) (c : Core) (x : Nat × Nat) : Core :=
  { c with slotOwner := Tbl.set none c.slotOwner x.1 (some team),
           slots := Memory.writeBytes c.slots (16384 * x.1) ((bs.drop (16384 * x.2)).take 16384) }

/-- Slots given back: each named one is held and holds its bytes, and no byte of another changes. -/
theorem Core.slotBack_foldl (team : Nat) (bs : List Byte) (xs : List (Nat × Nat)) (hnd : (xs.map Prod.fst).Nodup) (c : Core) :
    let c' := xs.foldl (Core.slotBack team bs) c
    (∃ so sl, c' = { c with slotOwner := so, slots := sl }) ∧
    (∀ n, c'.slotHolder n = if n ∈ xs.map Prod.fst then some team else c.slotHolder n) ∧
    (∀ n, n ∉ xs.map Prod.fst → ∀ y < 16384, Memory.readByte c'.slots (16384 * n + y) = Memory.readByte c.slots (16384 * n + y)) ∧
    ∀ x ∈ xs, ∀ (y : Nat) (hy : y < ((bs.drop (16384 * x.2)).take 16384).length),
      Memory.readByte c'.slots (16384 * x.1 + y) = ((bs.drop (16384 * x.2)).take 16384)[y] := by
  induction xs generalizing c with
  | nil => exact ⟨⟨_, _, rfl⟩, fun n => by simp, fun _ _ _ _ => rfl, fun x hx => absurd hx List.not_mem_nil⟩
  | cons x xs ih =>
    rw [List.map_cons, List.nodup_cons] at hnd
    obtain ⟨⟨so, sl, hshape⟩, hholder, hother, hbytes⟩ := ih hnd.2 (c.slotBack team bs x)
    have hlen : ((bs.drop (16384 * x.2)).take 16384).length ≤ 16384 := by rw [List.length_take]; omega
    intro c'
    refine ⟨⟨so, sl, hshape⟩, fun n => ?_, fun n hn y hy => ?_, fun z hz y hy => ?_⟩
    · refine (hholder n).trans ?_
      have hget : (c.slotBack team bs x).slotHolder n = if n = x.1 then some team else c.slotHolder n :=
        Tbl.get_set none c.slotOwner x.1 n (some team)
      rw [hget]
      exact ite_mem_cons
    · rw [List.map_cons, List.mem_cons, not_or] at hn
      refine (hother n hn.2 y hy).trans (Memory.readByte_writeBytes_other _ _ _ _ ?_)
      have := hn.1
      omega
    · rcases List.mem_cons.1 hz with rfl | hz
      · have hy' : y < 16384 := lt_of_lt_of_le hy hlen
        exact (hother z.1 hnd.1 y hy').trans (Memory.readByte_writeBytes_same _ _ _ _ hy)
      · exact hbytes z hz y hy

/-! ### Blocks -/

/-- A row block given to a team with its rows; m: slots before the blocks. -/
def Core.blockBack (team m : Nat) (bs : List Byte) (c : Core) (x : Nat × Nat) : Core :=
  (List.range 32).foldl (fun c r => c.putRow (32 * x.1 + r) ((bs.drop (16384 * (m + x.2) + 512 * r)).take 512))
    { c with blockOwner := Tbl.set none c.blockOwner x.1 (some team) }

/-- The rows of one block. -/
theorem Core.rows_foldl (f : Nat → List Byte) (b n : Nat) (hf : ∀ r < n, (f r).length = 512) (c : Core) :
    let c' := (List.range n).foldl (fun c r => c.putRow (b + r) (f r)) c
    (∃ a p, c' = { c with acc := a, poison := p }) ∧
    ∀ r, c'.rowBytes r = if b ≤ r ∧ r < b + n then f (r - b) else c.rowBytes r := by
  induction n with
  | zero => exact ⟨⟨_, _, rfl⟩, fun r => by rw [if_neg (by omega)]; rfl⟩
  | succ n ih =>
    obtain ⟨⟨a, p, hshape⟩, hrows⟩ := ih fun r hr => hf r (Nat.lt_succ_of_lt hr)
    intro c'
    have hc' : c' = ((List.range n).foldl (fun c r => c.putRow (b + r) (f r)) c).putRow (b + n) (f n) := by
      show (List.range (n + 1)).foldl _ c = _
      rw [List.range_succ, List.foldl_append]
      rfl
    rw [hc']
    constructor
    · obtain ⟨a', p', h'⟩ := Core.putRow_shape ((List.range n).foldl (fun c r => c.putRow (b + r) (f r)) c) (b + n) (f n)
      rw [h', hshape]
      exact ⟨_, _, rfl⟩
    · intro r
      rw [Core.rowBytes_putRow _ _ (hf n (Nat.lt_succ_self n)), hrows]
      by_cases h : r = b + n
      · rw [if_pos h, if_pos (by omega), h, Nat.add_sub_cancel_left]
      · rw [if_neg h]
        exact if_congr (by omega) rfl rfl

/-- Blocks given back. -/
theorem Core.blockBack_foldl (team m : Nat) (bs : List Byte) (xs : List (Nat × Nat)) (hnd : (xs.map Prod.fst).Nodup)
    (hlen : ∀ x ∈ xs, 16384 * (m + x.2) + 16384 ≤ bs.length) {c c' : Core} (hc' : xs.foldl (Core.blockBack team m bs) c = c') :
    (∃ bo a p, c' = { c with blockOwner := bo, acc := a, poison := p }) ∧
    (∀ n, c'.blockHolder n = if n ∈ xs.map Prod.fst then some team else c.blockHolder n) ∧
    (∀ r, r / 32 ∉ xs.map Prod.fst → c'.rowBytes r = c.rowBytes r) ∧
    ∀ x ∈ xs, ∀ q < 32, c'.rowBytes (32 * x.1 + q) = (bs.drop (16384 * (m + x.2) + 512 * q)).take 512 := by
  induction xs generalizing c with
  | nil =>
    subst hc'
    exact ⟨⟨_, _, _, rfl⟩, fun n => by simp, fun _ _ => rfl, fun x hx => absurd hx List.not_mem_nil⟩
  | cons x xs ih =>
    rw [List.map_cons, List.nodup_cons] at hnd
    obtain ⟨⟨bo, a, p, hshape⟩, hholder, hother, hrows⟩ :=
      ih hnd.2 (fun z hz => hlen z (List.mem_cons_of_mem _ hz)) (List.foldl_cons .. ▸ hc')
    have hx := hlen x List.mem_cons_self
    have hpieces : ∀ r < 32, ((bs.drop (16384 * (m + x.2) + 512 * r)).take 512).length = 512 := fun r hr => by
      rw [List.length_take, List.length_drop]
      omega
    obtain ⟨⟨a', p', hshape'⟩, hrows'⟩ := Core.rows_foldl (fun r => (bs.drop (16384 * (m + x.2) + 512 * r)).take 512) (32 * x.1)
      32 hpieces { c with blockOwner := Tbl.set none c.blockOwner x.1 (some team) }
    have hback : c.blockBack team m bs x =
        { c with blockOwner := Tbl.set none c.blockOwner x.1 (some team), acc := a', poison := p' } := hshape'
    have hown : ∀ r, (c.blockBack team m bs x).rowBytes r =
        if 32 * x.1 ≤ r ∧ r < 32 * x.1 + 32 then (bs.drop (16384 * (m + x.2) + 512 * (r - 32 * x.1))).take 512
        else c.rowBytes r := fun r => by
      rw [Core.blockBack, hrows' r]
      exact if_congr Iff.rfl rfl (congrFun (Core.rowBytes_congr rfl) r)
    refine ⟨⟨bo, a, p, by rw [hshape, hback]⟩, fun n => ?_, fun r hr => ?_, fun z hz q hq => ?_⟩
    · refine (hholder n).trans ?_
      have hget : (c.blockBack team m bs x).blockHolder n = if n = x.1 then some team else c.blockHolder n := by
        rw [hback]
        exact Tbl.get_set none c.blockOwner x.1 n (some team)
      rw [hget]
      exact ite_mem_cons
    · rw [List.map_cons, List.mem_cons, not_or] at hr
      refine (hother r hr.2).trans ((hown r).trans (if_neg ?_))
      have := hr.1
      omega
    · rcases List.mem_cons.1 hz with rfl | hz
      · have hdiv : (32 * z.1 + q) / 32 = z.1 := by omega
        refine (hother _ (hdiv.symm ▸ hnd.1)).trans ((hown _).trans ?_)
        rw [if_pos (by omega), Nat.add_sub_cancel_left]
      · exact hrows z hz q hq

/-! ### A core -/

theorem Core.putPoison_foldl (rs : List Nat) (c : Core) : ∃ p, rs.foldl (fun c r => c.putPoison r true) c = { c with poison := p } := by
  induction rs generalizing c with
  | nil => exact ⟨_, rfl⟩
  | cons r rs ih => exact (ih _).imp fun p h => h

theorem map_fst_zipIdx {α : Type} (xs : List α) : xs.zipIdx.map Prod.fst = xs := List.zipIdx_map_fst 0 xs

/-- A core that takes back a saved rank whose slots and blocks stand in memory at a: the team holds them with those contents. -/
theorem Core.restore_spec (c : Core) (team : Nat) (k : SavedCore) (m : Memory) (a : Nat) :
    let c' := c.restore team k (Memory.readBytes m a k.heldSize)
    (∀ i n, (members k.slots)[i]? = some n → c'.slotHolder n = some team ∧
      ∀ x < 16384, Memory.readByte c'.slots (16384 * n + x) = Memory.readByte m (a + 16384 * i + x)) ∧
    (∀ i n, (members k.blocks)[i]? = some n → c'.blockHolder n = some team ∧
      ∀ q < 32, c'.rowBytes (32 * n + q) = Memory.readBytes m (a + 16384 * ((members k.slots).length + i) + 512 * q) 512) := by
  have hsize : k.heldSize = 16384 * ((members k.slots).length + (members k.blocks).length) := rfl
  have hpiece : ∀ {o n : Nat}, o + n ≤ k.heldSize →
      ((Memory.readBytes m a k.heldSize).drop o).take n = Memory.readBytes m (a + o) n := fun h => by
    rw [Memory.drop_readBytes, Memory.take_readBytes _ _ (by omega)]
  have hlen : (Memory.readBytes m a k.heldSize).length = k.heldSize := Memory.readBytes_length ..
  have hidx : ∀ {xs : List Nat} {i n : Nat}, xs[i]? = some n → (n, i) ∈ xs.zipIdx ∧ i < xs.length := fun h =>
    ⟨List.mem_zipIdx_iff_getElem?.2 h, (List.getElem?_eq_some_iff.1 h).1⟩
  generalize Memory.readBytes m a k.heldSize = bs at hpiece hlen
  obtain ⟨⟨so, sl, hslots⟩, hslot, -, hbytes⟩ := Core.slotBack_foldl team bs (members k.slots).zipIdx
    (by rw [map_fst_zipIdx]; exact members_nodup _) c
  generalize hc1 : (members k.slots).zipIdx.foldl (Core.slotBack team bs) c = c1 at hslots hslot hbytes
  generalize hc2 : (members k.blocks).zipIdx.foldl (Core.blockBack team (members k.slots).length bs) c1 = c2
  obtain ⟨⟨bo, ac, p, hblocks⟩, hblock, -, hrows⟩ := Core.blockBack_foldl team (members k.slots).length bs (members k.blocks).zipIdx
    (by rw [map_fst_zipIdx]; exact members_nodup _) (fun x hx => by
      have := List.snd_lt_of_mem_zipIdx hx
      omega) hc2
  obtain ⟨p', hpoison⟩ := Core.putPoison_foldl k.poison c2
  have hc' : c.restore team k bs = { k.poison.foldl (fun c r => c.putPoison r true) c2 with
      tags := k.tags.foldl (fun t e => Tbl.set Tag.reset t e.1 e.2) (k.poison.foldl (fun c r => c.putPoison r true) c2).tags,
      engine := k.ops ++ (k.poison.foldl (fun c r => c.putPoison r true) c2).engine,
      heldMma := (k.poison.foldl (fun c r => c.putPoison r true) c2).heldMma ++ k.held } := by
    rw [← hc2, ← hc1]
    rfl
  rw [hpoison] at hc'
  intro c'
  have hholders : ∀ n, c'.slotHolder n = c1.slotHolder n ∧ c'.blockHolder n = c2.blockHolder n := fun n => by
    show (c.restore team k bs).slotHolder n = _ ∧ (c.restore team k bs).blockHolder n = _
    rw [hc', hblocks]
    exact ⟨rfl, rfl⟩
  have hsl : c'.slots = c1.slots := by
    show (c.restore team k bs).slots = _
    rw [hc', hblocks]
  have hrb : ∀ r, c'.rowBytes r = c2.rowBytes r := fun r => by
    show (c.restore team k bs).rowBytes r = _
    rw [hc']
    rfl
  refine ⟨fun i n hi => ⟨?_, fun x hx => ?_⟩, fun i n hi => ⟨?_, fun q hq => ?_⟩⟩
  · rw [(hholders n).1, hslot, map_fst_zipIdx, if_pos (List.mem_of_getElem? hi)]
  · obtain ⟨hmem, hlt⟩ := hidx hi
    have hread : (bs.drop (16384 * i)).take 16384 = Memory.readBytes m (a + 16384 * i) 16384 := hpiece (by omega)
    have hb := hbytes (n, i) hmem x (by rw [hread, Memory.readBytes_length]; exact hx)
    rw [hsl, hb]
    simp only [hread, Memory.readBytes_eq_map, List.getElem_map, List.getElem_range]
  · rw [(hholders n).2, hblock, map_fst_zipIdx, if_pos (List.mem_of_getElem? hi)]
  · obtain ⟨hmem, hlt⟩ := hidx hi
    rw [hrb, hrows (n, i) hmem q hq, hpiece (by omega)]
    congr 1
    omega

end Sys2Proof.Machine
end
section
/-! PROOFS. O54, a saved team placed again (R306, R426), and the statement. -/

namespace Sys2Proof.Machine

/-! ### What a claim of a slot leaves -/

/-- A gang but for its posted faults, and a team but for the marks of its cores. -/
def Gang.unposted (g : Gang) : Gang := { g with posted := [] }
def TeamCore.unmarked (k : TeamCore) : TeamCore := { k with spadWriters := [], slotWriters := [], spadErr := [], slotErr := [] }
def Team.unmarked (t : Team) : Team := { t with cores := t.cores.map TeamCore.unmarked }

/-- t differs from s in marks of chunks and posted faults, and in what a claim of a slot changes. -/
structure State.MarksOnly (s t : State) : Prop where
  vault : t.vault = s.vault
  parts : t.parts = s.parts
  cores : t.cores = s.cores
  gang : ∀ j, (t.gang? j).map Gang.unposted = (s.gang? j).map Gang.unposted
  team : ∀ j, (t.team? j).map Team.unmarked = (s.team? j).map Team.unmarked

section
variable {s t u : State}

theorem State.MarksOnly.refl (s : State) : s.MarksOnly s := ⟨rfl, rfl, rfl, fun _ => rfl, fun _ => rfl⟩

theorem State.MarksOnly.trans (h : s.MarksOnly t) (h' : t.MarksOnly u) : s.MarksOnly u :=
  ⟨h'.vault.trans h.vault, h'.parts.trans h.parts, h'.cores.trans h.cores, fun j => (h'.gang j).trans (h.gang j),
    fun j => (h'.team j).trans (h.team j)⟩

theorem State.MarksOnly.foldl {α : Type} {f : State → α → State} (h : ∀ (v : State) x, v.MarksOnly (f v x)) (xs : List α) (s : State) :
    s.MarksOnly (xs.foldl f s) :=
  List.foldlRecOn xs f (motive := fun v => s.MarksOnly v) (.refl s) (fun _ hv x _ => hv.trans (h _ x))

theorem State.marksOnly_modTeam (s : State) (team : Nat) {f : Team → Team} (hf : ∀ t, (f t).unmarked = t.unmarked) :
    s.MarksOnly (s.modTeam team f) := by
  refine ⟨by simp, by simp, by simp, fun j => ?_, fun j => ?_⟩
  · unfold State.modTeam
    split <;> rfl
  · rw [State.team?_modTeam, Option.map_map]
    congr 1
    funext t
    by_cases hj : j = team
    · simp [hj, hf]
    · simp [hj]

theorem TeamCore.unmarked_chunkIn (k : TeamCore) (slots : Bool) (c : Nat) (failed : Bool) :
    (k.chunkIn slots c failed).unmarked = k.unmarked := by
  unfold TeamCore.chunkIn
  split_ifs <;> rfl

theorem TeamCore.unmarked_chunkClean (k : TeamCore) (slots : Bool) (c : Nat) : (k.chunkClean slots c).unmarked = k.unmarked := by
  unfold TeamCore.chunkClean
  split_ifs <;> rfl

theorem Team.unmarked_modCore (t : Team) (core : Nat) {f : TeamCore → TeamCore} (hf : ∀ k, (f k).unmarked = k.unmarked) :
    (t.modCore core f).unmarked = t.unmarked := by
  unfold Team.unmarked Team.modCore
  dsimp only
  rw [List.map_map]
  congr 2
  funext k
  show (if (k.core == core) = true then f k else k).unmarked = k.unmarked
  split_ifs
  · exact hf k
  · rfl

theorem State.marksOnly_chunkIn (s : State) (team core : Nat) (l : Landing) (c : Nat) (failed : Bool) :
    s.MarksOnly (s.chunkIn team core l c failed) :=
  s.marksOnly_modTeam team fun t => by
    split_ifs
    · exact t.unmarked_modCore core fun k => k.unmarked_chunkIn ..
    · rfl

theorem State.marksOnly_atChunks (s : State) (team core : Nat) (l : Landing) :
    s.MarksOnly (s.atChunks team core l (fun slots c k => k.chunkClean slots c)) :=
  s.marksOnly_modTeam team fun t => by
    split_ifs
    · refine t.unmarked_modCore core fun k => ?_
      exact List.foldlRecOn l.chunks _ (motive := fun k' : TeamCore => k'.unmarked = k.unmarked) rfl
        (fun k' hk c _ => (k'.unmarked_chunkClean ..).trans hk)
    · rfl

theorem State.marksOnly_forgetChunks (s : State) (team core : Nat) (f : Bool × Nat → Bool) :
    s.MarksOnly (s.forgetChunks team core f) := by
  rw [State.forgetChunks_eq]
  have hreqs : ∀ (v : State) (e : Nat × FarReq), v.MarksOnly (v.forgetReq team core f e) := fun v e => by
    unfold State.forgetReq
    split_ifs
    · exact ⟨rfl, rfl, rfl, fun _ => rfl, fun _ => rfl⟩
    · exact .refl v
  refine State.MarksOnly.trans ?_ (.foldl hreqs _ _)
  refine List.foldlRecOn (listed s.gangs) _ (motive := fun v => s.MarksOnly v) (.refl s) (fun v hv e he => ?_)
  unfold State.forgetGang
  split_ifs
  · refine ⟨hv.vault, hv.parts, hv.cores, fun j => ?_, hv.team⟩
    by_cases hj : j = e.1
    · have hg : s.gang? e.1 = some e.2 := mem_listed he
      rw [hj, State.gang?_putGang_same, hg]
      rfl
    · rw [State.gang?_putGang_other _ _ hj, hv.gang]
  · exact hv

theorem State.marksOnly_claimAll (s : State) (cluster : Nat) : s.MarksOnly (s.claimAll cluster) := by
  refine .foldl (fun v e => ?_) _ s
  split_ifs
  · unfold State.tryClaim
    split
    · split_ifs
      · split
        · unfold State.claimSlot
          dsimp only
          refine State.MarksOnly.trans ?_ (.foldl (fun w c => w.marksOnly_chunkIn ..) _ _)
          generalize hw : State.putReq _ _ _ = w
          have hput : v.MarksOnly w := by rw [← hw]; exact ⟨rfl, rfl, rfl, fun _ => rfl, fun _ => rfl⟩
          refine hput.trans ?_
          unfold State.marksOut
          split
          · exact .refl w
          · split_ifs
            · exact (w.marksOnly_atChunks ..).trans (State.marksOnly_forgetChunks ..)
            · exact .refl w
        · exact .refl v
      · exact .refl v
    · exact .refl v
  · exact .refl v

end

/-! ### Gangs by number -/

theorem List.perm_insertBy {α : Type} (le : α → α → Bool) (x : α) (l : List α) : (List.insertBy le x l).Perm (x :: l) := by
  induction l with
  | nil => exact .refl _
  | cons y l ih =>
    rw [List.insertBy]
    split
    · exact .refl _
    · exact (ih.cons y).trans (.swap x y l)

theorem List.perm_sortedBy {α : Type} (le : α → α → Bool) (l : List α) : (l.sortedBy le).Perm l := by
  induction l with
  | nil => exact .refl _
  | cons x l ih =>
    rw [List.sortedBy, List.foldr_cons, ← List.sortedBy]
    exact (List.perm_insertBy le x _).trans (ih.cons x)

/-- A table in its form lists no number twice. -/
theorem keys_nodup {α : Type} [DecidableEq α] {d : α} {t : Tbl α} (h : Tbl.wf d t = true) : (t.map Prod.fst).Nodup := by
  have hsorted : Tbl.sorted none t = true := (Bool.and_eq_true_iff.mp h).1
  clear h
  suffices ∀ b, Tbl.sorted b t = true → (t.map Prod.fst).Nodup ∧ ∀ k ∈ t.map Prod.fst, Tbl.above b k = true from
    (this none hsorted).1
  clear hsorted
  induction t with
  | nil => exact fun _ _ => ⟨List.nodup_nil, fun _ h => absurd h List.not_mem_nil⟩
  | cons e t ih =>
    obtain ⟨j, w⟩ := e
    intro b hb
    rw [Tbl.sorted_cons, Bool.and_eq_true] at hb
    obtain ⟨hnd, habove⟩ := ih (some j) hb.2
    have hlt : ∀ k ∈ t.map Prod.fst, j < k := fun k hk => by simpa [Tbl.above] using habove k hk
    refine ⟨List.nodup_cons.2 ⟨fun hj => (hlt j hj).ne rfl, hnd⟩, fun k hk => ?_⟩
    rcases List.mem_cons.1 hk with rfl | hk
    · exact hb.1
    · have := hlt k hk
      cases b with
      | none => rfl
      | some b => have := hb.1; simp only [Tbl.above, decide_eq_true_eq] at this ⊢; omega

theorem listed_keys_nodup {α : Type} [DecidableEq α] {t : Tbl (Option α)} (h : Tbl.wf none t = true) :
    ((listed t).map Prod.fst).Nodup := by
  refine List.Nodup.sublist ?_ (keys_nodup h)
  have hsub : ∀ xs : Tbl (Option α), ((xs.filterMap (fun e => (Tbl.get none t e.1).map (fun v => (e.1, v)))).map Prod.fst).Sublist
      (xs.map Prod.fst) := by
    intro xs
    induction xs with
    | nil => exact .slnil
    | cons e xs ih =>
      rw [List.filterMap_cons, List.map_cons]
      cases Tbl.get none t e.1 with
      | none => exact ih.cons e.1
      | some v => exact ih.cons_cons e.1
  exact hsub t

theorem State.gangsInOrder_nodup {s : State} (h : Tbl.wf none s.gangs = true) (team : Nat) :
    ((s.gangsInOrder team).map Prod.fst).Nodup :=
  ((List.perm_sortedBy _ _).map Prod.fst).nodup_iff.2 (((List.filter_sublist).map Prod.fst).nodup (listed_keys_nodup h))

theorem map_fst_imageOffsets (gs : List (Nat × Gang)) (o : Nat) : (imageOffsets gs o).map Prod.fst = gs.map Prod.fst := by
  induction gs generalizing o with
  | nil => rfl
  | cons g gs ih => rw [imageOffsets, List.map_cons, List.map_cons, ih]

theorem mem_of_mem_imageOffsets {gs : List (Nat × Gang)} {o j a : Nat} {g : Gang} (h : (j, g, a) ∈ imageOffsets gs o) :
    (j, g) ∈ gs := by
  induction gs generalizing o with
  | nil => exact absurd h List.not_mem_nil
  | cons x gs ih =>
    rw [imageOffsets] at h
    rcases List.mem_cons.1 h with heq | h
    · injection heq with h1 h2
      injection h2 with h2 h3
      rw [h1, h2]
      exact List.mem_cons_self
    · exact List.mem_cons_of_mem _ (ih h)

/-- Gangs put one after another under different numbers. -/
theorem State.gang?_foldl_putGang {β : Type} (key : β → Nat) (f : β → Gang) (xs : List β) (hnd : (xs.map key).Nodup) (s : State) :
    (∃ tbl, xs.foldl (fun acc x => acc.putGang (key x) (f x)) s = { s with gangs := tbl }) ∧
    (∀ j, j ∉ xs.map key → (xs.foldl (fun acc x => acc.putGang (key x) (f x)) s).gang? j = s.gang? j) ∧
    ∀ x ∈ xs, (xs.foldl (fun acc x => acc.putGang (key x) (f x)) s).gang? (key x) = some (f x) := by
  induction xs generalizing s with
  | nil => exact ⟨⟨_, rfl⟩, fun _ _ => rfl, fun _ h => absurd h List.not_mem_nil⟩
  | cons y xs ih =>
    rw [List.map_cons, List.nodup_cons] at hnd
    obtain ⟨⟨tbl, hshape⟩, hother, hin⟩ := ih hnd.2 (s.putGang (key y) (f y))
    rw [List.foldl_cons]
    refine ⟨⟨tbl, hshape⟩, fun j hj => ?_, fun x hx => ?_⟩
    · rw [List.map_cons, List.mem_cons, not_or] at hj
      rw [hother j hj.2, State.gang?_putGang_other _ _ hj.1]
    · rcases List.mem_cons.1 hx with rfl | hx
      · rw [hother _ hnd.1, State.gang?_putGang_same]
      · exact hin x hx

/-- The gangs of a restored team on their new cores. -/
theorem State.reseatGangs_spec (cores : List Nat) (per : Nat) (es : List (Nat × Gang)) (hnd : (es.map Prod.fst).Nodup)
    (given : List (Nat × Nat)) (s : State) :
    (∃ tbl, State.reseatGangs cores per es given s = { s with gangs := tbl }) ∧
    (∀ j, j ∉ es.map Prod.fst → (State.reseatGangs cores per es given s).gang? j = s.gang? j) ∧
    ∀ e ∈ es, ∀ g, s.gang? e.1 = some g → ∃ slot now, (State.reseatGangs cores per es given s).gang? e.1 =
      some { g.yieldTurn with core := cores.getD e.2.rank 0, slot := slot, ctxsv := false, waitFrom := now } := by
  induction es generalizing given s with
  | nil => exact ⟨⟨_, rfl⟩, fun _ _ => rfl, fun _ h => absurd h List.not_mem_nil⟩
  | cons x es ih =>
    rw [List.map_cons, List.nodup_cons] at hnd
    obtain ⟨slot, given', hstep⟩ : ∃ slot given', State.reseatGangs cores per (x :: es) given s =
        State.reseatGangs cores per es given' (s.modGang x.1 (fun g =>
          { g.yieldTurn with core := cores.getD x.2.rank 0, slot := slot, ctxsv := false, waitFrom := s.now })) := ⟨_, _, rfl⟩
    obtain ⟨⟨tbl, hshape⟩, hother, hin⟩ := ih hnd.2 given' (s.modGang x.1 (fun g =>
          { g.yieldTurn with core := cores.getD x.2.rank 0, slot := slot, ctxsv := false, waitFrom := s.now }))
    rw [hstep]
    refine ⟨?_, fun j hj => ?_, fun e he g hg => ?_⟩
    · rw [hshape]
      unfold State.modGang
      split <;> exact ⟨_, rfl⟩
    · rw [List.map_cons, List.mem_cons, not_or] at hj
      rw [hother j hj.2, State.gang?_modGang, if_neg hj.1]
    · rcases List.mem_cons.1 he with rfl | he
      · rw [hother _ hnd.1, State.gang?_modGang, if_pos rfl, hg]
        exact ⟨_, _, rfl⟩
      · refine hin e he g ?_
        have hne : e.1 ≠ x.1 := fun h => hnd.1 (h ▸ List.mem_map_of_mem he)
        rw [State.gang?_modGang, if_neg hne, hg]

/-! ### The steps of a restore -/

/-- The team, its gangs in order and nothing else as the image has them. -/
theorem State.readImages_spec {s : State} {team base : Nat} {t : Team} (ht : s.team? team = some t) (himg : t.image = some base)
    (hwf : Tbl.wf none s.gangs = true) :
    (∃ tbl, s.readImages team = { s.putTeam team (s.readTeam team t base) with gangs := tbl }) ∧
    ∀ j g a, (j, g, a) ∈ imageOffsets (s.gangsInOrder team) (t.gangsAt base) → ∃ g', (s.readImages team).gang? j = some g' ∧
      Gang.AsImaged s.vault a t.tid g g' := by
  have hread : s.readImages team = (imageOffsets (s.gangsInOrder team) (t.gangsAt base)).foldl (fun acc x => acc.putGang x.1
      { (x.2.1.fromImage (s.imageBytes x.2.2 x.2.1.imageSize) t.tid) with
        fixedAllow := s.readAllow team t base x.1 x.2.1 }) (s.putTeam team (s.readTeam team t base)) := by
    unfold State.readImages
    rw [ht]
    dsimp only
    rw [himg]
  obtain ⟨hshape, -, hin⟩ := State.gang?_foldl_putGang Prod.fst (fun x : Nat × Gang × Nat =>
    { (x.2.1.fromImage (s.imageBytes x.2.2 x.2.1.imageSize) t.tid) with
      fixedAllow := s.readAllow team t base x.1 x.2.1 }) (imageOffsets (s.gangsInOrder team) (t.gangsAt base))
    (by rw [map_fst_imageOffsets]; exact State.gangsInOrder_nodup hwf team) (s.putTeam team (s.readTeam team t base))
  rw [hread]
  refine ⟨hshape, fun j g a h => ⟨_, hin (j, g, a) h, ?_⟩⟩
  exact (Gang.asImaged_fromImage s.vault a t.tid g).congr rfl rfl rfl rfl (by funext e; cases e <;> rfl) rfl

/-- A rank's core takes back what the team held there. -/
def State.coreBack (vault : Memory) (team : Nat) (t : Team) (base : Nat) (acc : State) (x : (TeamCore × Nat) × Nat) : State :=
  match t.saved[x.2]? with
  | some k => acc.modCore x.1.2 (fun c => c.restore team k (Memory.readBytes vault (t.heldAt base x.2) k.heldSize))
  | none => acc

/-- A rank's requests move to its new core. -/
def State.reqsBack (team : Nat) (ranks : List ((TeamCore × Nat) × Nat)) (acc : State) (x : (TeamCore × Nat) × Nat) : State :=
  (listed acc.reqs).foldl (fun a r =>
    if r.2.team = team ∧ r.2.core = x.1.1.core ∧ ¬ (ranks.any (fun y => decide (y.2 < x.2) && y.1.2 == r.2.core)) then
      a.putReq r.1 { r.2 with core := x.1.2 } else a) acc

/-- A rank with its scratchpad on its new core. -/
def Team.rankOn (t : Team) (vault : Memory) (base : Nat) (x : (TeamCore × Nat) × Nat) : TeamCore :=
  { x.1.1 with
    core := x.1.2
    scratch := Memory.writeBytes [] 0 (Memory.readBytes vault (t.padAt base x.2) t.alloc) }

/-- A team with its scratchpads on its new cores. -/
def Team.placedOn (t : Team) (vault : Memory) (base : Nat) (ranks : List ((TeamCore × Nat) × Nat)) : Team :=
  { t with cores := ranks.map (t.rankOn vault base), status := .running, victim := false, image := none, saved := [] }

/-- A team restored, up to the claims that follow. -/
def State.backOn (s : State) (part per team : Nat) (t : Team) (base : Nat) (cores : List Nat) : State :=
  let ranks := (t.cores.zip cores).zipIdx
  (((State.reseatGangs cores per (s.gangsInOrder team) [] (ranks.foldl (State.reqsBack team ranks)
    (ranks.foldl (State.coreBack s.vault team t base) (s.readImages team)))).putTeam team (t.placedOn s.vault base ranks)).modPart
      part (fun p => { p with ctxUsed := p.ctxUsed.filter (fun u => u.1 * 65536 != base) })).acquireFromIod
        (dieOf (cores.getD 0 0))

theorem State.restoreTeam_eq {s : State} {l : Launch} {team base : Nat} {t : Team} {cores : List Nat} (himg : t.image = some base)
    (hok : s.imageOk team t l.lid.toNat base = true) (hbad : s.badIn base (t.imageSize s team) = [])
    {t' : Team} (hread : (s.readImages team).team? team = some t') :
    s.restoreTeam l team t cores =
      (s.backOn l.part (l.gangs / l.cores) team t' base cores).claimAll (clusterOf (cores.getD 0 0)) := by
  unfold State.restoreTeam
  rw [himg]
  dsimp only
  rw [hok, hbad, if_neg (by simp), hread]
  rfl

theorem State.restoreTeam_refused {s : State} {l : Launch} {team base : Nat} {t : Team} {cores : List Nat}
    (himg : t.image = some base)
    (hno : s.imageOk team t l.lid.toNat base = false ∨ s.badIn base (t.imageSize s team) ≠ []) :
    s.restoreTeam l team t cores = s.raiseHalt l.part true (some ⟨cores.getD 0 0, 255, Cause.contextFatal, 0⟩) := by
  unfold State.restoreTeam
  rw [himg]
  dsimp only
  rw [if_pos]
  rcases hno with h | h
  · simp [h]
  · simp [h]

/-! ### The cores of a restored team -/

theorem State.coreBack_shape (vault : Memory) (team : Nat) (t : Team) (base : Nat) (xs : List ((TeamCore × Nat) × Nat)) (s : State) :
    ∃ cs, xs.foldl (State.coreBack vault team t base) s = { s with cores := cs } := by
  induction xs generalizing s with
  | nil => exact ⟨_, rfl⟩
  | cons x xs ih =>
    obtain ⟨cs, h⟩ := ih (s.coreBack vault team t base x)
    rw [List.foldl_cons, h]
    unfold State.coreBack
    split <;> exact ⟨_, rfl⟩

theorem State.reqsBack_shape (team : Nat) (ranks xs : List ((TeamCore × Nat) × Nat)) (s : State) :
    ∃ rs, xs.foldl (State.reqsBack team ranks) s = { s with reqs := rs } := by
  have hone : ∀ (es : List (Nat × FarReq)) (x : (TeamCore × Nat) × Nat) (s : State), ∃ rs, es.foldl (fun a r =>
      if r.2.team = team ∧ r.2.core = x.1.1.core ∧ ¬ (ranks.any (fun y => decide (y.2 < x.2) && y.1.2 == r.2.core)) then
        a.putReq r.1 { r.2 with core := x.1.2 } else a) s = { s with reqs := rs } := by
    intro es x
    induction es with
    | nil => exact fun s => ⟨_, rfl⟩
    | cons e es ih =>
      intro s
      rw [List.foldl_cons]
      split_ifs
      · exact (ih _).imp fun _ h => h
      · exact ih s
  induction xs generalizing s with
  | nil => exact ⟨_, rfl⟩
  | cons x xs ih =>
    obtain ⟨rs, h⟩ := ih (s.reqsBack team ranks x)
    obtain ⟨rs', h'⟩ := hone (listed s.reqs) x s
    rw [List.foldl_cons, h, State.reqsBack, h']
    exact ⟨_, rfl⟩

/-- Each rank's core has what its rank held. -/
theorem State.core_coreBack (vault : Memory) (team : Nat) (t : Team) (base : Nat) (xs : List ((TeamCore × Nat) × Nat))
    (hnd : (xs.map (fun x => x.1.2)).Nodup) (s : State) :
    (∀ n, n ∉ xs.map (fun x => x.1.2) → (xs.foldl (State.coreBack vault team t base) s).core n = s.core n) ∧
    ∀ x ∈ xs, ∀ k, t.saved[x.2]? = some k → (xs.foldl (State.coreBack vault team t base) s).core x.1.2 =
      (s.core x.1.2).restore team k (Memory.readBytes vault (t.heldAt base x.2) k.heldSize) := by
  induction xs generalizing s with
  | nil => exact ⟨fun _ _ => rfl, fun _ h => absurd h List.not_mem_nil⟩
  | cons y xs ih =>
    rw [List.map_cons, List.nodup_cons] at hnd
    obtain ⟨hother, hin⟩ := ih hnd.2 (s.coreBack vault team t base y)
    have hstep : ∀ n, n ≠ y.1.2 → (s.coreBack vault team t base y).core n = s.core n := fun n hn => by
      unfold State.coreBack
      split
      · exact State.core_modCore_other _ _ hn
      · rfl
    rw [List.foldl_cons]
    refine ⟨fun n hn => ?_, fun x hx k hk => ?_⟩
    · rw [List.map_cons, List.mem_cons, not_or] at hn
      rw [hother n hn.2, hstep n hn.1]
    · rcases List.mem_cons.1 hx with rfl | hx
      · rw [hother _ hnd.1, State.coreBack, hk]
        exact State.core_modCore_same _ _ _
      · have hne : x.1.2 ≠ y.1.2 := fun h => hnd.1 (h ▸ List.mem_map_of_mem (f := fun x : (TeamCore × Nat) × Nat => x.1.2) hx)
        rw [hin x hx k hk, hstep _ hne]

/-! ### The restored team -/

theorem find?_key {α : Type} (key : α → Nat) {xs : List α} (hnd : (xs.map key).Nodup) {x : α} (hx : x ∈ xs) :
    xs.find? (fun y => key y == key x) = some x := by
  induction xs with
  | nil => exact absurd hx List.not_mem_nil
  | cons y xs ih =>
    rw [List.map_cons, List.nodup_cons] at hnd
    rcases List.mem_cons.1 hx with rfl | hx
    · exact List.find?_cons_of_pos (by simp)
    · have hne : key y ≠ key x := fun h => hnd.1 (h ▸ List.mem_map_of_mem hx)
      rw [List.find?_cons_of_neg (by simpa using hne), ih hnd.2 hx]

/-- The ranks of a team on new cores. -/
theorem map_core_ranks {ks : List TeamCore} {cores : List Nat} (h : cores.length = ks.length) :
    ((ks.zip cores).zipIdx).map (fun x => x.1.2) = cores := by
  have hsnd : ((ks.zip cores).zipIdx).map (fun x => x.1.2) = (((ks.zip cores).zipIdx).map Prod.fst).map Prod.snd :=
    (List.map_map ..).symm
  rw [hsnd, map_fst_zipIdx, List.map_snd_zip h.le]

theorem mem_ranks {ks : List TeamCore} {cores : List Nat} (h : cores.length = ks.length) {r : Nat} (hr : r < cores.length) :
    ((ks[r], cores[r]), r) ∈ (ks.zip cores).zipIdx := by
  rw [List.mem_zipIdx_iff_getElem?, List.getElem?_eq_getElem (by rw [List.length_zip]; omega), List.getElem_zip]

/-- Where a team's held units stand depends on what each rank held alone. -/
theorem State.readTeam_places (s : State) (team : Nat) (t : Team) (base : Nat) :
    (s.readTeam team t base).cores.length = t.cores.length ∧
    (∀ r, (s.readTeam team t base).padAt base r = t.padAt base r) ∧ ∀ r k, t.saved[r]? = some k → ∃ k',
      (s.readTeam team t base).saved[r]? = some k' ∧ k'.slots = k.slots ∧ k'.blocks = k.blocks ∧
      (s.readTeam team t base).heldAt base r = t.heldAt base r := by
  have hlen : (s.readTeam team t base).cores.length = t.cores.length := by simp [State.readTeam]
  have hpad : ∀ r, (s.readTeam team t base).padAt base r = t.padAt base r := fun r => by
    unfold Team.padAt
    rw [hlen]
    rfl
  have hsizes : (s.readTeam team t base).saved.map SavedCore.heldSize = t.saved.map SavedCore.heldSize := by
    show (t.saved.zipIdx.map _).map SavedCore.heldSize = _
    rw [List.map_map]
    conv_rhs => rw [← map_fst_zipIdx t.saved, List.map_map]
    rfl
  refine ⟨hlen, hpad, fun r k hk => ⟨{ (k.ofTail t.alloc (s.imageBytes (t.padAt base r + t.alloc) 512)) with
      tags := (List.range 64).foldl (fun tb n => Tbl.set Tag.reset tb n
        (Tag.ofWord (imageNat (s.imageBytes (base + 8192 + 1024 * r + 16 * n) 4) 0 4) team)) [] }, ?_, rfl, rfl, ?_⟩⟩
  · simp [State.readTeam, List.getElem?_zipIdx, hk]
  · have hsum : ∀ ks : List SavedCore, (ks.take r).map (fun k => (k.heldSize + 4095) / 4096 * 4096) =
        ((ks.map SavedCore.heldSize).take r).map (fun n => (n + 4095) / 4096 * 4096) := fun ks => by
      rw [← List.map_take, List.map_map]
      rfl
    rw [Team.heldAt, Team.heldAt, hlen, hpad, hsum, hsum, hsizes]

theorem State.part_acquireFromIod (s : State) (a n : Nat) : (s.acquireFromIod a).part n = s.part n := rfl

/-- A restored team before the claims that follow. -/
theorem State.backOn_spec {s : State} {part per team base : Nat} {tm : Team} {cores : List Nat} (ht : s.team? team = some tm)
    (himg : tm.image = some base) (hwf : Tbl.wf none s.gangs = true) (hnd : cores.Nodup)
    (hlen : cores.length = tm.cores.length) :
    let t := s.readTeam team tm base
    let u := s.backOn part per team t base cores
    u.vault = s.vault ∧ (∀ x ∈ (u.part part).ctxUsed, x.1 * 65536 ≠ base) ∧
    u.team? team = some (t.placedOn s.vault base (t.cores.zip cores).zipIdx) ∧
    (∀ r k, r < cores.length → t.saved[r]? = some k → u.core (cores.getD r 0) =
      (s.core (cores.getD r 0)).restore team k (Memory.readBytes s.vault (t.heldAt base r) k.heldSize)) ∧
    ∀ j g a, (j, g, a) ∈ imageOffsets (s.gangsInOrder team) (tm.gangsAt base) → ∃ g', u.gang? j = some g' ∧
      g'.core = cores.getD g.rank 0 ∧ Gang.AsImaged s.vault a tm.tid g g' := by
  obtain ⟨⟨tbl, hread⟩, hgangs⟩ := State.readImages_spec ht himg hwf
  obtain ⟨hcores, -, -⟩ := s.readTeam_places team tm base
  intro t u
  have hranks : ((t.cores.zip cores).zipIdx).map (fun x => x.1.2) = cores := map_core_ranks (hlen.trans hcores.symm)
  have hmem : ∀ r (hr : r < cores.length), ((t.cores[r]'(by show r < (s.readTeam team tm base).cores.length; omega), cores[r]), r) ∈ (t.cores.zip cores).zipIdx :=
    fun r hr => mem_ranks (hlen.trans hcores.symm) hr
  have hu : u = s.backOn part per team t base cores := rfl
  clear_value u
  unfold State.backOn at hu
  dsimp only at hu
  generalize (t.cores.zip cores).zipIdx = ranks at hranks hmem hu
  obtain ⟨cs, hcs⟩ := State.coreBack_shape s.vault team t base ranks (s.readImages team)
  obtain ⟨-, hcore⟩ := State.core_coreBack s.vault team t base ranks (by rw [hranks]; exact hnd) (s.readImages team)
  generalize ranks.foldl (State.coreBack s.vault team t base) (s.readImages team) = v at hcs hcore hu
  obtain ⟨rs, hrs⟩ := State.reqsBack_shape team ranks ranks v
  generalize ranks.foldl (State.reqsBack team ranks) v = w at hrs hu
  obtain ⟨⟨tbl', hseat⟩, -, hin⟩ := State.reseatGangs_spec cores per (s.gangsInOrder team) (State.gangsInOrder_nodup hwf team) [] w
  generalize State.reseatGangs cores per (s.gangsInOrder team) [] w = x at hseat hin hu
  have hwgang : ∀ j, w.gang? j = (s.readImages team).gang? j := fun j => by rw [hrs, hcs]; rfl
  have hucore : ∀ n, u.core n = v.core n := fun n => by rw [hu, hseat, hrs]; rfl
  have hvault : u.vault = s.vault := by rw [hu, hseat, hrs, hcs, hread]; rfl
  have hscore : ∀ n, (s.readImages team).core n = s.core n := fun n => by rw [hread]; rfl
  refine ⟨hvault, fun y hy => ?_, ?_, fun r k hr hk => ?_, fun j g a hj => ?_⟩
  · have hpart : (u.part part).ctxUsed = (x.part part).ctxUsed.filter (fun e => e.1 * 65536 != base) := by
      rw [hu]
      rw [State.part_acquireFromIod, State.part_modPart]
      rfl
    rw [hpart] at hy
    simpa using (List.mem_filter.1 hy).2
  · rw [hu]
    exact State.team?_putTeam_same x team _
  · have hget : cores.getD r 0 = cores[r] := by simp [hr]
    rw [hget, hucore, ← hscore]
    exact hcore _ (hmem r hr) k hk
  · obtain ⟨g', hg', himaged⟩ := hgangs j g a hj
    obtain ⟨slot, now, hseated⟩ := hin (j, g) (mem_of_mem_imageOffsets hj) g' ((hwgang j).trans hg')
    have hug : u.gang? j = x.gang? j := by rw [hu]; rfl
    exact ⟨_, hug.trans hseated, rfl, himaged.congr rfl rfl rfl rfl (by funext e; cases e <;> rfl) rfl⟩

/-! ### The statement -/

theorem Team.onCore_unmarked (t : Team) (core : Nat) : t.unmarked.onCore core = (t.onCore core).map TeamCore.unmarked :=
  List.find?_map ..

theorem Team.map_core_unmarked (t : Team) : t.unmarked.cores.map TeamCore.core = t.cores.map TeamCore.core := List.map_map ..

theorem Gang.elem_unposted (g : Gang) : g.unposted.elem = g.elem := by
  funext e
  cases e <;> rfl

/-- A byte of a scratchpad of a team that is on its new cores, but for marks. -/
theorem State.padRead_placed {s : State} {team base : Nat} {vault : Memory} {t tm : Team} {cores : List Nat}
    (ht : s.team? team = some tm) (hmarks : tm.unmarked = (t.placedOn vault base (t.cores.zip cores).zipIdx).unmarked)
    (hnd : cores.Nodup) (hlen : cores.length = t.cores.length) {r x : Nat} (hr : r < cores.length) (hx : x < t.alloc) :
    s.padRead team (cores.getD r 0) x 1 = (Memory.readByte vault (t.padAt base r + x)).toNat := by
  have hget : cores.getD r 0 = cores[r] := by simp [hr]
  have hmem := mem_ranks hlen hr
  have hkeys := map_core_ranks hlen
  generalize (t.cores.zip cores).zipIdx = ranks at hmem hkeys hmarks
  have hfind : (t.placedOn vault base ranks).onCore cores[r] =
      some (t.rankOn vault base ((t.cores[r]'(hlen ▸ hr), cores[r]), r)) := by
    have hnodup : ((ranks.map (t.rankOn vault base)).map TeamCore.core).Nodup := by
      rw [List.map_map]
      exact hkeys.symm ▸ hnd
    exact find?_key TeamCore.core hnodup (List.mem_map_of_mem hmem)
  have hon := (tm.onCore_unmarked cores[r]).symm.trans ((congrArg (fun u : Team => u.onCore cores[r]) hmarks).trans
    ((t.placedOn vault base ranks).onCore_unmarked cores[r]))
  rw [hfind, Option.map_some] at hon
  obtain ⟨k, hk, hsame⟩ := Option.map_eq_some_iff.1 hon
  have hscratch : k.scratch = Memory.writeBytes [] 0 (Memory.readBytes vault (t.padAt base r) t.alloc) :=
    (congrArg TeamCore.scratch hsame :)
  have halloc : tm.alloc = t.alloc := (congrArg Team.alloc hmarks :)
  have hbyte := Memory.readByte_writeBytes_same [] 0 x (Memory.readBytes vault (t.padAt base r) t.alloc)
    (by rw [Memory.readBytes_length]; exact hx)
  rw [State.padRead, ht, hget]
  dsimp only
  rw [if_neg (by omega), hk]
  dsimp only
  rw [Memory.readNat_one, hscratch, ← Nat.zero_add x, hbyte]
  simp only [Memory.readBytes_eq_map, List.getElem_map, List.getElem_range, Nat.zero_add]

theorem State.team?_of_lowestVictim {s : State} {id team : Nat} {tm : Team} (h : s.lowestVictim id = some (team, tm)) :
    s.team? team = some tm := by
  have hnone : ∀ e : Nat × Team, none = some e → e ∈ listed s.teams := fun _ he => nomatch he
  have hbest : ∀ e, s.lowestVictim id = some e → e ∈ listed s.teams := by
    refine List.foldlRecOn ((s.launchTeams id).filter (fun e => e.2.status == .saved)) _
      (motive := fun b : Option (Nat × Team) => ∀ e, b = some e → e ∈ listed s.teams) hnone (fun b hb e he => ?_)
    have hin : e ∈ listed s.teams := (List.mem_filter.1 (List.mem_filter.1 he).1).1
    rintro x hx
    split at hx
    · split_ifs at hx
      · exact Option.some.inj hx ▸ hin
      · exact hb x hx
    · exact Option.some.inj hx ▸ hin
  exact mem_listed (hbest _ h)

/-- The state in which a saved team of the launch is to be placed. -/
def State.placing (s : State) (id : Nat) (l : Launch) : State :=
  (s.modPart l.part (fun p => { p with served := Tbl.set 0 p.served l.prio l.readyAt })).putLaunch id { l with blocking := false }

theorem State.team?_placing (s : State) (id : Nat) (l : Launch) (k : Nat) : (s.placing id l).team? k = s.team? k := rfl

theorem State.part_putLaunch (s : State) (id : Nat) (l : Launch) (n : Nat) : (s.putLaunch id l).part n = s.part n := rfl

theorem State.part_placing (s : State) (id : Nat) (l : Launch) : (s.placing id l).part l.part =
    { s.part l.part with served := Tbl.set 0 (s.part l.part).served l.prio l.readyAt } := by
  rw [State.placing, State.part_putLaunch, State.part_modPart]

theorem State.halted_endNotices (s : State) (part : Nat) : ((s.endNotices part).part part).halted = (s.part part).halted := by
  rw [State.endNotices]
  dsimp only
  rw [State.part_putPart, if_pos rfl]

theorem State.placing_same (s : State) (id : Nat) (l : Launch) (team : Nat) : (s.placing id l).vault = s.vault ∧
    (s.placing id l).gangs = s.gangs ∧ (s.placing id l).gangsInOrder team = s.gangsInOrder team := ⟨rfl, rfl, rfl⟩

theorem State.endNotices_same (s : State) (part : Nat) : (s.endNotices part).vault = s.vault ∧
    (s.endNotices part).gangs = s.gangs := ⟨rfl, rfl⟩

theorem State.imageOk_placing (s : State) (id : Nat) (l : Launch) (team : Nat) (t : Team) (lid base : Nat) :
    (s.placing id l).imageOk team t lid base = s.imageOk team t lid base := rfl

theorem State.badIn_placing (s : State) (id : Nat) (l : Launch) (team : Nat) (t : Team) (base : Nat) :
    (s.placing id l).badIn base (t.imageSize (s.placing id l) team) = s.badIn base (t.imageSize s team) := rfl

theorem exec_teamPlace_saved {s : State} {part id : Nat} {l : Launch} {cores : List Nat} {team : Nat} {tm : Team}
    (hon : s.distributorOn = true) (hup : (s.part part).halted = false)
    (hnext : (s.endNotices part).nextPlace part = some (id, l, cores))
    (hsaved : (s.endNotices part).lowestVictim id = some (team, tm)) (hready : (s.endNotices part).imageReady team = true) :
    exec (.teamPlace part) s =
      .next (((s.endNotices part).placing id l).restoreTeam { l with blocking := false } team tm cores) := by
  rw [exec_teamPlace hon hup hnext, State.placeTeam, hsaved]
  dsimp only
  rw [if_pos hready]
  rfl

/-- A saved team whose image is another's halts the partition (R426, step 1). -/
theorem gives_foreign_image {s : State} {part id : Nat} {l : Launch} {cores : List Nat} {team base : Nat} {tm : Team}
    (hup : (s.part part).halted = false) (hnext : (s.endNotices part).nextPlace part = some (id, l, cores))
    (hsaved : (s.endNotices part).lowestVictim id = some (team, tm)) (himg : tm.image = some base)
    (hexec : exec (.teamPlace part) s =
      .next (((s.endNotices part).placing id l).restoreTeam { l with blocking := false } team tm cores))
    (hno : (s.endNotices part).imageOk team tm l.lid.toNat base = false ∨
      (s.endNotices part).badIn base (tm.imageSize (s.endNotices part) team) ≠ []) :
    Gives (.teamPlace part) s (fun t => (t.part part).halted = true ∧ (t.part part).fatal = true ∧ t.team? team = some tm) := by
  refine ⟨_, hexec, ?_⟩
  have hpart : l.part = part := State.part_of_nextPlace hnext
  have hdown : (((s.endNotices part).placing id l).part part).halted = false := by
    rw [← hpart, State.part_placing]
    dsimp only
    rw [hpart, State.halted_endNotices]
    exact hup
  have hteam := ((s.endNotices part).team?_placing id l team).trans (State.team?_of_lowestVictim hsaved)
  rw [← State.imageOk_placing _ id l, ← State.badIn_placing _ id l] at hno
  generalize (s.endNotices part).placing id l = u at hdown hteam hno
  rw [State.restoreTeam_refused (l := { l with blocking := false }) himg hno]
  dsimp only
  rw [hpart]
  obtain ⟨hhalted, hfatal⟩ := u.raiseHalt_fatal part (some ⟨cores.getD 0 0, 255, Cause.contextFatal, 0⟩)
  obtain ⟨hteams, -⟩ := State.raiseHalt_down hdown true (some ⟨cores.getD 0 0, 255, Cause.contextFatal, 0⟩)
  exact ⟨hhalted, hfatal, by rw [State.team?, hteams]; exact hteam⟩

/-- A saved team whose image is its own is placed as the image has it (R426). -/
theorem gives_restored {s : State} {part id : Nat} {l : Launch} {cores : List Nat} {team base : Nat} {tm : Team}
    (hnext : (s.endNotices part).nextPlace part = some (id, l, cores))
    (hsaved : (s.endNotices part).lowestVictim id = some (team, tm)) (himg : tm.image = some base)
    (hexec : exec (.teamPlace part) s =
      .next (((s.endNotices part).placing id l).restoreTeam { l with blocking := false } team tm cores))
    (hok : (s.endNotices part).imageOk team tm l.lid.toNat base = true)
    (hbad : (s.endNotices part).badIn base (tm.imageSize (s.endNotices part) team) = []) (hnd : cores.Nodup)
    (hlen : cores.length = tm.cores.length) (hwf : Tbl.wf none s.gangs = true) :
    Gives (.teamPlace part) s (fun t => t.vault = s.vault ∧
      (∃ tm', t.team? team = some tm' ∧ tm'.status = .running ∧ tm'.image = none ∧ tm'.victim = false ∧ tm'.saved = [] ∧
        tm'.order = tm.order ∧ tm'.cores.map TeamCore.core = cores) ∧
      (∀ u ∈ (t.part part).ctxUsed, u.1 * 65536 ≠ base) ∧
      (∀ r < cores.length, ∀ x < tm.alloc, t.padRead team (cores.getD r 0) x 1 =
        (Memory.readByte s.vault (tm.padAt base r + x)).toNat) ∧
      (∀ r k, r < cores.length → tm.saved[r]? = some k →
        (∀ i n, (members k.slots)[i]? = some n → (t.core (cores.getD r 0)).slotHolder n = some team ∧
          ∀ x < 16384, Memory.readByte (t.core (cores.getD r 0)).slots (16384 * n + x) =
            Memory.readByte s.vault (tm.heldAt base r + 16384 * i + x)) ∧
        (∀ i n, (members k.blocks)[i]? = some n → (t.core (cores.getD r 0)).blockHolder n = some team ∧
          ∀ q < 32, (t.core (cores.getD r 0)).rowBytes (32 * n + q) =
            Memory.readBytes s.vault (tm.heldAt base r + 16384 * ((members k.slots).length + i) + 512 * q) 512)) ∧
      ∀ j g a, (j, g, a) ∈ imageOffsets ((s.endNotices part).gangsInOrder team) (tm.gangsAt base) → ∃ g', t.gang? j = some g' ∧
        g'.core = cores.getD g.rank 0 ∧ Gang.AsImaged s.vault a tm.tid g g') := by
  refine ⟨_, hexec, ?_⟩
  have hpart : l.part = part := State.part_of_nextPlace hnext
  have hteam := ((s.endNotices part).team?_placing id l team).trans (State.team?_of_lowestVictim hsaved)
  rw [← State.imageOk_placing _ id l] at hok
  rw [← State.badIn_placing _ id l] at hbad
  obtain ⟨hvault, hgangs, horder⟩ := (s.endNotices part).placing_same id l team
  obtain ⟨hvault', hgangs'⟩ := s.endNotices_same part
  rw [hvault'] at hvault
  rw [hgangs'] at hgangs
  generalize (s.endNotices part).placing id l = u at hteam hok hbad hvault hgangs horder
  rw [← horder, ← hvault]
  obtain ⟨⟨tbl, hread⟩, -⟩ := State.readImages_spec hteam himg (by rw [hgangs]; exact hwf)
  have hteam' : (u.readImages team).team? team = some (u.readTeam team tm base) := by
    rw [hread]
    exact State.team?_putTeam_same u team _
  rw [State.restoreTeam_eq (l := { l with blocking := false }) himg hok hbad hteam']
  dsimp only
  rw [hpart]
  obtain ⟨hcores, hpad, hplaces⟩ := u.readTeam_places team tm base
  obtain ⟨hv, hused, htm, hcore, hg⟩ := State.backOn_spec (s := u) (part := part) (per := l.gangs / l.cores) hteam himg
    (by rw [hgangs]; exact hwf) hnd hlen
  generalize u.backOn part (l.gangs / l.cores) team (u.readTeam team tm base) base cores = w at hv hused htm hcore hg
  obtain ⟨mvault, mparts, mcores, mgang, mteam⟩ := w.marksOnly_claimAll (clusterOf (cores.getD 0 0))
  generalize w.claimAll (clusterOf (cores.getD 0 0)) = t at mvault mparts mcores mgang mteam
  have hteams := mteam team
  rw [htm, Option.map_some] at hteams
  obtain ⟨tm', htm', hmarks⟩ := Option.map_eq_some_iff.1 hteams
  have hlen' : cores.length = (u.readTeam team tm base).cores.length := hlen.trans hcores.symm
  have htcore : ∀ n, t.core n = w.core n := fun n => by rw [State.core, mcores]; rfl
  refine ⟨mvault.trans hv, ⟨tm', htm', (congrArg Team.status hmarks :), (congrArg Team.image hmarks :),
    (congrArg Team.victim hmarks :), (congrArg Team.saved hmarks :), (congrArg Team.order hmarks :), ?_⟩, ?_,
    fun r hr x hx => ?_, fun r k hr hk => ?_, fun j g a hj => ?_⟩
  · rw [← Team.map_core_unmarked, hmarks, Team.map_core_unmarked]
    exact (List.map_map ..).trans (map_core_ranks hlen')
  · rw [State.part, mparts]
    exact hused
  · rw [State.padRead_placed htm' hmarks hnd hlen' hr hx, hpad]
  · obtain ⟨k', hk', hslots, hblocks, hat⟩ := hplaces r k hk
    rw [htcore, hcore r k' hr hk', hat, ← hslots, ← hblocks]
    exact Core.restore_spec _ team k' u.vault (tm.heldAt base r)
  · obtain ⟨g', hg', hseat, himaged⟩ := hg j g a hj
    have hsame := mgang j
    rw [hg', Option.map_some] at hsame
    obtain ⟨g2, hg2, hposted⟩ := Option.map_eq_some_iff.1 hsame
    have helem : g2.elem = g'.elem := by rw [← Gang.elem_unposted g2, hposted, Gang.elem_unposted]
    exact ⟨g2, hg2, (congrArg Gang.core hposted :).trans hseat, himaged.congr (congrArg Gang.inh hposted :)
      (congrArg Gang.exited hposted :) (congrArg Gang.emask hposted :) (congrArg Gang.k hposted :) helem
      (congrArg Gang.groups hposted :)⟩

/-- Settles O54: a new team, a saved one refused or placed again, the two requests, the end of a notice, and a save. -/
theorem teamsArePlacedAndSaved : Obligations.TeamsArePlacedAndSaved := by
  unfold Obligations.TeamsArePlacedAndSaved
  intro s part p
  refine ⟨fun id l cores hon hup hnext hnew => gives_new_team hon hup hnext hnew,
    fun id l cores team tm base hon hup hnext hsaved himg hready => ?_,
    fun n q named hphase h1 h2 h3 h4 hnamed => ?_, fun launch l hl hpart hblock hwants hprio hmode => ?_,
    fun n rest hn hexp => gives_preemptNoticeExpiry hn hexp, fun team tm ht hpart hready => ?_⟩
  · have hexec := exec_teamPlace_saved hon hup hnext hsaved hready
    refine ⟨fun hno => gives_foreign_image hup hnext hsaved himg hexec hno, fun hok hbad hnd hlen hwf => ?_⟩
    obtain ⟨t, he, hvault, hteam, hused, hpad, hheld, hgangs⟩ := gives_restored hnext hsaved himg hexec hok hbad hnd hlen hwf
    refine ⟨t, he, hvault, hteam, hused, hpad, hheld, fun j g a hj => ?_⟩
    obtain ⟨g', hg', hcore, himaged⟩ := hgangs j g a hj
    exact ⟨g', hg', hcore, himaged.inh, himaged.exited, himaged.emask, himaged.counter, himaged.scalar, himaged.predicate,
      himaged.vector, himaged.groups⟩
  · exact gives_whenever (exec_preemptRequest part n q named s)
      (by simp [State.isReady, hphase, h1, h2, h3, h4, hnamed, p]) (s.preempt_spec part n q named)
  · have hmode' : (s.part part).modes.getLsbD 4 = false := hmode
    refine gives_whenever (exec_hwPreemptTrigger hl part) (by rw [hmode']; simp [hpart, hblock, hwants, hprio]) ?_
    obtain ⟨hnotices, hvictims, -⟩ := State.preempt_spec { s with free := s.free + 1 } part
      (1 + Config.freeCores s.free % 160) l.prio none
    exact ⟨_, hnotices, rfl, rfl, hvictims⟩
  · subst hpart
    exact ⟨fun hroom => gives_contextSave_full ht hready hroom, fun u hroom hruns => gives_contextSave_room ht hready hroom hruns⟩

end Sys2Proof.Machine
end

section
/-! PROOFS. The sound forms (R2, R472): a vault in canonical form and power states of Table 21.2. -/

namespace Sys2Proof.Machine

/-- The sound forms of O5, of what holds them. -/
def SoundForms (v : Memory) (h : House) : Prop := Memory.wf v = true ∧ h.cur ≠ 3 ∧ h.entering ≠ some 3

/-- A state whose vault is canonical and whose power states are states of Table 21.2. -/
def State.Sound (s : State) : Prop := SoundForms s.vault s.house

/-- What a step answers is sound. -/
def SoundAnswer (o : Host.Outcome State Fault Refusal) : Prop := ∀ t, o = .next t → t.Sound

@[simp] theorem State.soundForms_iff (s : State) : SoundForms s.vault s.house ↔ s.Sound := Iff.rfl

/-- Nothing but the vault and the power states bears on the sound forms. -/
@[simp] theorem State.sound_mk (pkg : Nat) (gangs : Tbl (Option Gang)) (teams : Tbl (Option Team)) (cores : Tbl Core)
    (corbel : Tbl CorbelSlot) (vault : Memory) (vc av : Tbl (List (BitVec 16))) (vreqs : List VaultReq) (preqs : List PadReq)
    (iodq : List IodStore) (badWords : List Nat) (holds : List LrHold) (tlb : List CachedPage) (parts : Tbl Partition)
    (launches : Tbl (Option Launch)) (reqs : Tbl (Option FarReq)) (modules : Tbl Module) (wiring : Tbl Nat)
    (remotes : Tbl (Option RemoteOut)) (inbound : List NetMsg) (qbad : List (Nat × Nat × QFault)) (caps : Tbl (BitVec 7))
    (netq : List (Nat × NetMsg)) (sentSeq rcvdSeq dealt : Tbl Nat) (rot : Rotation) (ports : Tbl Port) (entries : Tbl Circ)
    (pairs : Tbl Pair) (links : Tbl Link) (chans : Tbl Chan) (weakMrg : Byte) (weakCer : BitVec 16) (period : Byte)
    (lines : Tbl Line) (arrays : Tbl Array_) (attests : List Nat) (house : House) (meas : Tbl (List Byte)) (out : List Out)
    (now : Nat) (issueFrom : Tbl Nat) (risen : List Risen) (next free : Nat) (cur : Option Issue) (agenda : List Stimulus) :
    State.Sound ⟨pkg, gangs, teams, cores, corbel, vault, vc, av, vreqs, preqs, iodq, badWords, holds, tlb, parts, launches, reqs,
      modules, wiring, remotes, inbound, qbad, caps, netq, sentSeq, rcvdSeq, dealt, rot, ports, entries, pairs, links, chans,
      weakMrg, weakCer, period, lines, arrays, attests, house, meas, out, now, issueFrom, risen, next, free, cur, agenda⟩ ↔
    SoundForms vault house := Iff.rfl

section
variable {s : State}

@[simp] theorem State.sound_ite {p : Prop} [Decidable p] {a b : State} :
    (if p then a else b).Sound ↔ if p then a.Sound else b.Sound := by split <;> rfl

@[simp] theorem State.sound_foldl {α : Type} {f : State → α → State} (hf : ∀ v a, (f v a).Sound ↔ v.Sound) (l : List α) :
    (l.foldl f s).Sound ↔ s.Sound :=
  List.foldlRecOn l f (motive := fun v => v.Sound ↔ s.Sound) Iff.rfl (fun v hv a _ => (hf v a).trans hv)

theorem State.Sound.foldl {α : Type} (h : s.Sound) {f : State → α → State} (l : List α)
    (hf : ∀ (v : State) (a : α), v.Sound → (f v a).Sound) : (l.foldl f s).Sound :=
  List.foldlRecOn l f h (fun v hv a _ => hf v a hv)

theorem State.Sound.calm {t : State} (h : s.Sound) (hc : s.Calm t) : t.Sound := by
  obtain ⟨hv, hp⟩ := h
  exact ⟨hc.vault hv, hc.power hp⟩

@[simp] theorem soundAnswer_next : SoundAnswer (.next s) ↔ s.Sound := ⟨fun h => h s rfl, fun h t ht => by cases ht; exact h⟩

@[simp] theorem soundAnswer_refused {r : Refusal} : SoundAnswer (.refused r) := fun t h => by cases h

@[simp] theorem soundAnswer_fault {f : Fault} : SoundAnswer (.fault f) := fun t h => by cases h

end

end Sys2Proof.Machine
end

section
/-! PROOFS. Traps and the results of words keep the sound forms (R2, R472). -/

namespace Sys2Proof.Machine

@[simp] theorem State.sound_putPart (s : State) (n : Nat) (p : Partition) : (s.putPart n p).Sound ↔ s.Sound := Iff.rfl

@[simp] theorem State.sound_modPart (s : State) (n : Nat) (f : Partition → Partition) :
    (s.modPart n f).Sound ↔ s.Sound := Iff.rfl

@[simp] theorem State.sound_putReq (s : State) (id : Nat) (r : FarReq) : (s.putReq id r).Sound ↔ s.Sound := Iff.rfl

@[simp] theorem State.sound_holdRequests (s : State) (core : Nat) : (s.holdRequests core).Sound ↔ s.Sound := by
  unfold State.holdRequests
  split <;> simp

@[simp] theorem State.sound_putCore (s : State) (n : Nat) (c : Core) : (s.putCore n c).Sound ↔ s.Sound := Iff.rfl

@[simp] theorem State.sound_modCore (s : State) (n : Nat) (f : Core → Core) : (s.modCore n f).Sound ↔ s.Sound :=
  Iff.rfl

@[simp] theorem State.sound_putGang (s : State) (id : Nat) (g : Gang) : (s.putGang id g).Sound ↔ s.Sound := Iff.rfl

@[simp] theorem State.sound_modGang (s : State) (id : Nat) (f : Gang → Gang) : (s.modGang id f).Sound ↔ s.Sound := by
  unfold State.modGang
  split <;> simp

@[simp] theorem State.sound_freezeCore (s : State) (core : Nat) : (s.freezeCore core).Sound ↔ s.Sound := by
  unfold State.freezeCore
  simp

@[simp] theorem State.sound_freeSkid (s : State) : (s.freeSkid).2.Sound ↔ s.Sound := Iff.rfl

@[simp] theorem State.sound_stampWrite (s : State) (a : Nat) : (s.stampWrite a).2.Sound ↔ s.Sound := Iff.rfl

@[simp] theorem State.sound_fresh (s : State) : (s.fresh).2.Sound ↔ s.Sound := Iff.rfl

@[simp] theorem State.sound_pushWriteThen (s : State) (batch : Nat) (actor : Actor) (agent pa size : Nat)
    (k : VaultKind) (etype : BitVec 4) (dst : List RegElem) (after : List Out) :
    (s.pushWriteThen batch actor agent pa size k etype dst after).Sound ↔ s.Sound := Iff.rfl

@[simp] theorem State.sound_pushStore (s : State) (actor : Actor) (agent pa : Nat) (bs : List Byte)
    (after : List Out) : (s.pushStore actor agent pa bs after).Sound ↔ s.Sound := Iff.rfl

@[simp] theorem State.sound_iodStore (s : State) (pa : Nat) (bs : List Byte) (after : List Out) :
    (s.iodStore pa bs after).Sound ↔ s.Sound := by
  unfold State.iodStore
  simp

@[simp] theorem State.sound_putStopRecord (s : State) (part n : Nat) (bs : List Byte) :
    (s.putStopRecord part n bs).Sound ↔ s.Sound := by
  unfold State.putStopRecord
  simp

@[simp] theorem State.sound_stopCore (s : State) (part hseq : Nat) (c : Option Culprit) (core : Nat) :
    (s.stopCore part hseq c core).Sound ↔ s.Sound := by
  unfold State.stopCore
  simp

@[simp] theorem State.sound_putModuleRecord (s : State) (part hseq modid : Nat) (r : FarReq) (done reached : Nat) :
    (s.putModuleRecord part hseq modid r done reached).Sound ↔ s.Sound := by
  unfold State.putModuleRecord
  simp

@[simp] theorem State.sound_putModule (s : State) (n : Nat) (m : Module) : (s.putModule n m).Sound ↔ s.Sound :=
  Iff.rfl

@[simp] theorem State.sound_stopAt (s : State) (id m : Nat) : (s.stopAt id m).1.Sound ↔ s.Sound := by
  unfold State.stopAt
  dsimp only
  (repeat' split) <;> simp

@[simp] theorem State.sound_stopRequest (s : State) (part hseq : Nat) (id : Nat) (r : FarReq) (m : Nat) :
    (s.stopRequest part hseq id r m).Sound ↔ s.Sound := by
  unfold State.stopRequest
  split
  · have h := s.sound_stopAt id m
    split <;> simp_all
  · rfl

@[simp] theorem State.sound_stopModules (s : State) (part hseq : Nat) : (s.stopModules part hseq).Sound ↔ s.Sound := by
  unfold State.stopModules
  refine State.sound_foldl (fun v a => ?_) _
  (repeat' split) <;> simp

@[simp] theorem State.sound_raiseHalt (s : State) (part : Nat) (fatal : Bool) (c : Option Culprit) :
    (s.raiseHalt part fatal c).Sound ↔ s.Sound := by
  unfold State.raiseHalt
  simp

@[simp] theorem State.sound_contextFatal (s : State) (id : Nat) (cause : Byte) (pc : VAddr) :
    (s.contextFatal id cause pc).Sound ↔ s.Sound := by
  unfold State.contextFatal
  split <;> simp

@[simp] theorem State.sound_dropHolds (s : State) (gang : Nat) : (s.dropHolds gang).Sound ↔ s.Sound := Iff.rfl

@[simp] theorem State.sound_loseReserves (s : State) (gang : Nat) : (s.loseReserves gang).Sound ↔ s.Sound := by
  unfold State.loseReserves
  simp

@[simp] theorem State.sound_putLaunch (s : State) (id : Nat) (l : Launch) : (s.putLaunch id l).Sound ↔ s.Sound :=
  Iff.rfl

@[simp] theorem State.sound_modLaunch (s : State) (id : Nat) (f : Launch → Launch) :
    (s.modLaunch id f).Sound ↔ s.Sound := by
  unfold State.modLaunch
  split <;> simp

@[simp] theorem State.sound_releaseToIod (s : State) : s.releaseToIod.Sound ↔ s.Sound := by
  unfold State.releaseToIod
  simp

@[simp] theorem State.sound_teamGone (s : State) (t : Team) (counted stopped : Bool) :
    (s.teamGone t counted stopped).Sound ↔ s.Sound := by
  unfold State.teamGone
  simp

@[simp] theorem State.sound_modTeamGangs (s : State) (team : Nat) (f : Gang → Gang) :
    (s.modTeamGangs team f).Sound ↔ s.Sound := by
  unfold State.modTeamGangs
  simp

@[simp] theorem State.sound_vacate (s : State) (team : Nat) (t : Team) : (s.vacate team t).Sound ↔ s.Sound := Iff.rfl

@[simp] theorem State.sound_putTeam (s : State) (id : Nat) (t : Team) : (s.putTeam id t).Sound ↔ s.Sound := Iff.rfl

@[simp] theorem State.sound_dropGang (s : State) (id : Nat) : (s.dropGang id).Sound ↔ s.Sound := Iff.rfl

@[simp] theorem State.sound_endAll (s : State) (team : Nat) (t : Team) : (s.endAll team t).Sound ↔ s.Sound := by
  unfold State.endAll
  simp

@[simp] theorem State.sound_stopTeam (s : State) (team : Nat) : (s.stopTeam team).Sound ↔ s.Sound := by
  unfold State.stopTeam
  split <;> simp

@[simp] theorem State.sound_takeTrap (s : State) (id : Nat) (t : TrapInfo) : (s.takeTrap id t).Sound ↔ s.Sound := by
  unfold State.takeTrap
  split <;> simp

@[simp] theorem Ctx.sound_raise (c : Ctx) (cause : Byte) : (c.raise cause).Sound ↔ c.s.Sound := by
  unfold Ctx.raise
  simp

@[simp] theorem State.sound_deliver (s : State) (id : Nat) (p : Posted) (lane : Nat) (t : TrapInfo) :
    (s.deliver id p lane t).Sound ↔ s.Sound := by
  unfold State.deliver
  split <;> simp

@[simp] theorem Ctx.sound_stopped (c : Ctx) (x0 : Stop) : (c.stopped x0).Sound ↔ c.s.Sound := by
  unfold Ctx.stopped
  split <;> simp

@[simp] theorem Ctx.sound_nextAt (c : Ctx) (s : State) (g : Gang) (pc : VAddr) : (c.nextAt s g pc).Sound ↔ s.Sound :=
  Iff.rfl

@[simp] theorem Ctx.sound_next (c : Ctx) (s : State) (g : Gang) : (c.next s g).Sound ↔ s.Sound := Iff.rfl

@[simp] theorem Ctx.sound_skip (c : Ctx) : c.skip.Sound ↔ c.s.Sound := Iff.rfl

@[simp] theorem Ctx.sound_goTo (c : Ctx) (pc : VAddr) : (c.goTo pc).Sound ↔ c.s.Sound := Iff.rfl

@[simp] theorem Ctx.sound_branch (c : Ctx) (take : SliceMask) (target : VAddr) :
    (c.branch take target).Sound ↔ c.s.Sound := by
  unfold Ctx.branch
  simp

@[simp] theorem State.sound_endTeamIfDone (s : State) (team : Nat) : (s.endTeamIfDone team).Sound ↔ s.Sound := by
  unfold State.endTeamIfDone
  split <;> simp

@[simp] theorem State.sound_endGangIfDone (s : State) (id : Nat) : (s.endGangIfDone id).Sound ↔ s.Sound := by
  unfold State.endGangIfDone
  split <;> simp

@[simp] theorem Ctx.sound_parkIn (c : Ctx) (s : State) (p : Park) : (c.parkIn s p).Sound ↔ s.Sound := by
  unfold Ctx.parkIn
  simp

@[simp] theorem Ctx.sound_park (c : Ctx) (p : Park) : (c.park p).Sound ↔ c.s.Sound := by
  unfold Ctx.park
  simp

@[simp] theorem Ctx.sound_setEmask (c : Ctx) (f : Nat → Bool) : (c.setEmask f).Sound ↔ c.s.Sound := Iff.rfl

@[simp] theorem Ctx.sound_data (c : Ctx) (lat : Nat) (d : RegField) (dWide srd : Bool) (f : Nat → Nat × Flags) :
    (c.data lat d dWide srd f).Sound ↔ c.s.Sound := Iff.rfl

@[simp] theorem Ctx.sound_predData (c : Ctx) (d : PredField) (f : Nat → Bool × Flags) :
    (c.predData d f).Sound ↔ c.s.Sound := Iff.rfl

@[simp] theorem Ctx.sound_nextIn (c : Ctx) (s : State) : (c.nextIn s).Sound ↔ s.Sound := by
  unfold Ctx.nextIn
  split <;> simp

@[simp] theorem State.sound_await (s : State) (id : Nat) (dst : List RegElem) : (s.await id dst).Sound ↔ s.Sound := by
  unfold State.await
  simp

@[simp] theorem Ctx.sound_sendPad (c : Ctx) (own : Bool) (kind : VaultKind) (dst : List RegElem) (x : Nat × Nat)
    (s : State) : (c.sendPad own kind dst x s).Sound ↔ s.Sound := by
  unfold Ctx.sendPad
  simp

@[simp] theorem Ctx.sound_padLoad (c : Ctx) (own : Bool) (lanes : List Nat) (d : RegField) (at_ : Nat → Nat × Nat) :
    (c.padLoad own lanes d at_).Sound ↔ c.s.Sound := by
  unfold Ctx.padLoad
  simp

@[simp] theorem Ctx.sound_padStore (c : Ctx) (own : Bool) (lanes : List Nat) (d : RegField) (at_ : Nat → Nat × Nat) :
    (c.padStore own lanes d at_).Sound ↔ c.s.Sound := by
  unfold Ctx.padStore
  simp

end Sys2Proof.Machine
end

section
/-! PROOFS. Far, remote, barrier and vault operations of words keep the sound forms (R2, R472). -/

namespace Sys2Proof.Machine

@[simp] theorem State.sound_emit (s : State) (o : Out) : (s.emit o).Sound ↔ s.Sound := Iff.rfl

@[simp] theorem State.sound_queueFault (s : State) (part : Nat) (rec_ : List Byte) :
    (s.queueFault part rec_).Sound ↔ s.Sound := by
  unfold State.queueFault
  simp

@[simp] theorem Ctx.sound_parkFault (c : Ctx) (xs : List LaneAccess) : (c.parkFault xs).Sound ↔ c.s.Sound := by
  unfold Ctx.parkFault
  simp

@[simp] theorem State.sound_cache (s : State) (part va : Nat) : (s.cache part va).Sound ↔ s.Sound := by
  unfold State.cache
  (repeat' split) <;> simp

@[simp] theorem Ctx.sound_laneTrap (c : Ctx) (s : State) (fs : List LaneFault) : (c.laneTrap s fs).Sound ↔ s.Sound := by
  unfold Ctx.laneTrap
  split <;> simp

@[simp] theorem Ctx.sound_vaultTrap (c : Ctx) (s : State) (batch : Nat) (fs : List LaneFault) :
    (c.vaultTrap s batch fs).Sound ↔ s.Sound := by
  unfold Ctx.vaultTrap
  simp

@[simp] theorem Ctx.sound_vaultDo (c : Ctx) (lanes : List Nat) (addr : Nat → Nat) (size : Nat) (need : Need)
    (perform : Nat → Nat → State → State) (suppressed : Nat → State → State)
    (hp : ∀ l pa (s : State), (perform l pa s).Sound ↔ s.Sound) (hs : ∀ l (s : State), (suppressed l s).Sound ↔ s.Sound) :
    (c.vaultDo lanes addr size need perform suppressed).Sound ↔ c.s.Sound := by
  unfold Ctx.vaultDo
  dsimp only
  split
  · simp
  · rw [c.sound_vaultTrap, c.sound_nextIn, State.sound_mk, State.soundForms_iff,
      State.sound_foldl (fun v a => by split <;> simp [hp, hs]), State.sound_foldl (fun v a => by simp)]

@[simp] theorem State.sound_pushRead (s : State) (batch : Nat) (actor : Actor) (agent pa size : Nat) (k : VaultKind)
    (etype : BitVec 4) (dst : List RegElem) : (s.pushRead batch actor agent pa size k etype dst).Sound ↔ s.Sound :=
  Iff.rfl

@[simp] theorem Ctx.sound_sendRead (c : Ctx) (k : VaultKind) (dst : List RegElem) (l pa : Nat) (s : State) :
    (c.sendRead k dst l pa s).Sound ↔ s.Sound := by
  unfold Ctx.sendRead
  simp

@[simp] theorem Ctx.sound_vaultLoad (c : Ctx) (d a b : RegField) : (c.vaultLoad d a b).Sound ↔ c.s.Sound := by
  unfold Ctx.vaultLoad
  simp

@[simp] theorem Ctx.sound_waitHere (c : Ctx) : c.waitHere.Sound ↔ c.s.Sound := by
  unfold Ctx.waitHere
  simp

@[simp] theorem Ctx.sound_bounded (c : Ctx) (n : Nat) (effect : State) (hc : c.s.Sound) (heffect : effect.Sound) :
    (c.bounded n effect).Sound := by
  unfold Ctx.bounded
  simp [hc, heffect]

@[simp] theorem State.sound_pushWrite (s : State) (batch : Nat) (actor : Actor) (agent pa size : Nat) (k : VaultKind)
    (etype : BitVec 4) (dst : List RegElem) : (s.pushWrite batch actor agent pa size k etype dst).Sound ↔ s.Sound :=
  Iff.rfl

@[simp] theorem Ctx.sound_sendWrite (c : Ctx) (k : VaultKind) (dst : List RegElem) (l pa : Nat) (s : State) :
    (c.sendWrite k dst l pa s).Sound ↔ s.Sound := by
  unfold Ctx.sendWrite
  simp

@[simp] theorem Ctx.sound_vaultStore (c : Ctx) (perLane : Bool) (d a b : RegField) (hc : c.s.Sound) :
    (c.vaultStore perLane d a b).Sound := by
  unfold Ctx.vaultStore
  simp [hc]

@[simp] theorem State.sound_dropHold (s : State) (gang lane : Nat) : (s.dropHold gang lane).Sound ↔ s.Sound := Iff.rfl

@[simp] theorem Ctx.sound_padAtom (c : Ctx) (op : Nat) (d a : RegField) (imm : ByteField) :
    (c.padAtom op d a imm).Sound ↔ c.s.Sound := by
  unfold Ctx.padAtom
  simp

@[simp] theorem Ctx.sound_vaultAtom (c : Ctx) (op : Nat) (d a b : RegField) (hc : c.s.Sound) :
    (c.vaultAtom op d a b).Sound := by
  unfold Ctx.vaultAtom
  simp [hc]

@[simp] theorem Ctx.sound_onceDo (c : Ctx) (s : State) (hc : c.s.Sound) (h : s.Sound) : (c.onceDo s).Sound := by
  unfold Ctx.onceDo
  simp [hc, h]

@[simp] theorem Ctx.sound_onceFault (c : Ctx) (cause : Byte) (addr : Nat) (ecc : Bool := false) :
    (c.onceFault cause addr ecc).Sound ↔ c.s.Sound := by
  unfold Ctx.onceFault
  simp

@[simp] theorem Ctx.sound_parkLintel (c : Ctx) (charge : Nat) : (c.parkLintel charge).Sound ↔ c.s.Sound := by
  unfold Ctx.parkLintel
  simp

@[simp] theorem Ctx.sound_present (c : Ctx) (f : FarCall) (corbel : Option State) (accept : State) (hc : c.s.Sound)
    (hcorbel : ∀ v ∈ corbel, v.Sound) (haccept : accept.Sound) : (c.present f corbel accept).Sound := by
  unfold Ctx.present
  (repeat' split) <;> simp +contextual [hc, hcorbel, haccept]

@[simp] theorem State.sound_modTeam (s : State) (id : Nat) (f : Team → Team) : (s.modTeam id f).Sound ↔ s.Sound := by
  unfold State.modTeam
  split <;> simp

@[simp] theorem State.sound_atChunks (s : State) (team core : Nat) (l : Landing)
    (f : Bool → Nat → TeamCore → TeamCore) : (s.atChunks team core l f).Sound ↔ s.Sound := by
  unfold State.atChunks
  simp

@[simp] theorem State.sound_bitsOut (s : State) (team core : Nat) (l : Landing) :
    (s.bitsOut team core l).Sound ↔ s.Sound := by
  unfold State.bitsOut
  simp

@[simp] theorem State.sound_forgetChunks (s : State) (team core : Nat) (f : Bool × Nat → Bool) :
    (s.forgetChunks team core f).Sound ↔ s.Sound := by
  unfold State.forgetChunks
  simp

@[simp] theorem State.sound_marksOut (s : State) (team core : Nat) (l : Landing) :
    (s.marksOut team core l).Sound ↔ s.Sound := by
  unfold State.marksOut
  split <;> simp

@[simp] theorem State.sound_chunksOut (s : State) (team core : Nat) (l : Landing) :
    (s.chunksOut team core l).Sound ↔ s.Sound := by
  unfold State.chunksOut
  simp

@[simp] theorem Ctx.sound_acceptIn (c : Ctx) (s : State) (f : FarCall) (g : Gang) : (c.acceptIn s f g).Sound ↔ s.Sound := by
  unfold Ctx.acceptIn
  split <;> simp

@[simp] theorem State.sound_mergeRuns (s : State) (agent : Nat) (runs : List (Nat × Nat)) :
    (s.mergeRuns agent runs).Sound ↔ s.Sound := by
  unfold State.mergeRuns
  simp

@[simp] theorem Ctx.sound_parkCorbel (c : Ctx) : c.parkCorbel.Sound ↔ c.s.Sound := by
  unfold Ctx.parkCorbel
  simp

@[simp] theorem State.sound_putCorbel (s : State) (cluster n : Nat) (c : CorbelSlot) :
    (s.putCorbel cluster n c).Sound ↔ s.Sound := Iff.rfl

@[simp] theorem State.sound_chunkIn (s : State) (team core : Nat) (l : Landing) (c : Nat) (failed : Bool) :
    (s.chunkIn team core l c failed).Sound ↔ s.Sound := by
  unfold State.chunkIn
  simp

@[simp] theorem State.sound_claimSlot (s : State) (id : Nat) (r : FarReq) (chan dest n : Nat) :
    (s.claimSlot id r chan dest n).Sound ↔ s.Sound := by
  unfold State.claimSlot
  simp

@[simp] theorem State.sound_tryClaim (s : State) (id : Nat) (r : FarReq) : (s.tryClaim id r).Sound ↔ s.Sound := by
  unfold State.tryClaim
  (repeat' split) <;> simp

@[simp] theorem State.sound_claimAll (s : State) (cluster : Nat) : (s.claimAll cluster).Sound ↔ s.Sound := by
  unfold State.claimAll
  simp

@[simp] theorem State.sound_represent (s : State) (id : Nat) (m : SliceMask) : (s.represent id m).Sound ↔ s.Sound := by
  unfold State.represent
  simp

@[simp] theorem State.sound_deliverAt (s : State) (id : Nat) (m : SliceMask) (pc : VAddr) (p : Posted) :
    (s.deliverAt id m pc p).Sound ↔ s.Sound := by
  unfold State.deliverAt
  split <;> simp

@[simp] theorem State.sound_wake (s : State) (id : Nat) (m : SliceMask) (pc : VAddr) :
    (s.wake id m pc).Sound ↔ s.Sound := by
  unfold State.wake
  simp

@[simp] theorem State.sound_tagwaitReturns (s : State) (id : Nat) (m : SliceMask) (pc : VAddr) (mask : DWord) :
    (s.tagwaitReturns id m pc mask).Sound ↔ s.Sound := by
  unfold State.tagwaitReturns
  (repeat' split) <;> simp

@[simp] theorem Ctx.sound_scalarResult (c : Ctx) (d : RegField) (v : Word) : (c.scalarResult d v).Sound ↔ c.s.Sound := by
  unfold Ctx.scalarResult
  simp

@[simp] theorem State.sound_tagrelDone (s : State) (id : Nat) (m : SliceMask) (pc : VAddr) (mask : DWord) :
    (s.tagrelDone id m pc mask).Sound ↔ s.Sound := by
  unfold State.tagrelDone
  (repeat' split) <;> simp

@[simp] theorem State.sound_putRemote (s : State) (id : Nat) (r : RemoteOut) : (s.putRemote id r).Sound ↔ s.Sound :=
  Iff.rfl

@[simp] theorem State.sound_numbered (s : State) (peer : Nat) (m : NetMsg) : (s.numbered peer m).1.Sound ↔ s.Sound := by
  unfold State.numbered
  split <;> simp

@[simp] theorem State.sound_arrive (s : State) (m : NetMsg) : (s.arrive m).Sound ↔ s.Sound := by
  unfold State.arrive
  simp

@[simp] theorem State.sound_owe (s : State) (pkg : Nat) (m : NetMsg) : (s.owe pkg m).Sound ↔ s.Sound := Iff.rfl

@[simp] theorem State.sound_dispatchRemote (s : State) (peer : Nat) (op : RemoteOp) :
    (s.dispatchRemote peer op).Sound ↔ s.Sound := by
  unfold State.dispatchRemote
  simp

@[simp] theorem Ctx.sound_sendRemote (c : Ctx) (k : RemoteKind) (d b : RegField) (w : List Word) :
    (c.sendRemote k d b w).Sound ↔ c.s.Sound := by
  unfold Ctx.sendRemote
  simp

@[simp] theorem State.sound_modReq (s : State) (id : Nat) (f : FarReq → FarReq) : (s.modReq id f).Sound ↔ s.Sound := by
  unfold State.modReq
  split <;> simp

@[simp] theorem State.sound_endColl (s : State) (part comm : Nat) (c : Comm) (w : CollLocal) (mismatch : Bool) :
    (s.endColl part comm c w mismatch).Sound ↔ s.Sound := by
  unfold State.endColl
  simp

@[simp] theorem State.sound_unbook (s : State) (agent : Nat) (runs : List (Nat × Nat)) :
    (s.unbook agent runs).Sound ↔ s.Sound := Iff.rfl

@[simp] theorem State.sound_bookRun (s : State) (actor : Actor) (agent : Nat) (r : Nat × Nat) :
    (s.bookRun actor agent r).Sound ↔ s.Sound := by
  unfold State.bookRun
  simp

@[simp] theorem State.sound_bookRuns (s : State) (actor : Actor) (agent : Nat) (runs : List (Nat × Nat)) :
    (s.bookRuns actor agent runs).Sound ↔ s.Sound := by
  unfold State.bookRuns
  simp

@[simp] theorem State.sound_writing (s : State) (actor : Actor) (agent : Nat) (runs : List (Nat × Nat))
    (release : Bool) (effect : State → State) (h : s.Sound) (heffect : ∀ (y0 : State), y0.Sound → (effect y0).Sound) :
    (s.writing actor agent runs release effect).Sound := by
  unfold State.writing
  simp [h, heffect]

@[simp] theorem State.sound_breakReserve (s : State) (gr : Nat) (a : Actor) : (s.breakReserve gr a).Sound ↔ s.Sound := by
  unfold State.breakReserve
  simp

theorem State.Sound.written {s : State} (h : s.Sound) (pa size v : Nat) (bad : List Nat) :
    State.Sound { s with vault := Memory.writeNat s.vault pa size v, badWords := bad } := ⟨Memory.wf_writeNat h.1, h.2⟩

@[simp] theorem State.sound_applyAt (s : State) (actor : Actor) (pa size v : Nat) (stamp : List (BitVec 16)) (h : s.Sound) :
    (s.applyAt actor pa size v stamp).Sound := by
  unfold State.applyAt
  exact (State.sound_foldl (fun v a => by simp) _).2 (h.written pa size v _)

@[simp] theorem State.sound_writeAtOnce (s : State) (actor : Actor) (agent pa : Nat) (bs : List Byte) (h : s.Sound) :
    (s.writeAtOnce actor agent pa bs).Sound := by
  unfold State.writeAtOnce
  simp [h]

@[simp] theorem State.sound_writeRuns (actor : Actor) (agent : Nat) (rs : List (Nat × Nat)) : ∀ (bs : List Byte) (s : State),
    s.Sound → (State.writeRuns actor agent rs bs s).Sound := by
  induction rs with
  | nil => exact fun _ _ h => h
  | cons r rs ih => exact fun bs s h => ih _ _ (s.sound_writeAtOnce actor agent r.1 _ h)

@[simp] theorem State.sound_collProgress (s : State) (part comm : Nat) (h : s.Sound) :
    (s.collProgress part comm).Sound := by
  unfold State.collProgress
  dsimp only
  split
  · exact h
  · split
    · exact h
    · split
      · simp [h]
      · exact State.sound_writing _ _ _ _ _ _ h (fun v hv => by simp [hv])

@[simp] theorem Ctx.sound_joinColl (c : Ctx) (f : FarCall) (w : List Word) (e : CommEntry)
    (send recv : List (Nat × Nat)) (hc : c.s.Sound) : (c.joinColl f w e send recv).Sound := by
  unfold Ctx.joinColl
  simp [hc]

@[simp] theorem Ctx.sound_enqueue (c : Ctx) (f : FarCall) (w : List Word) (src : List (Nat × Nat)) :
    (c.enqueue f w src).Sound ↔ c.s.Sound := by
  unfold Ctx.enqueue
  simp

@[simp] theorem Ctx.sound_parkFrozen (c : Ctx) : c.parkFrozen.Sound ↔ c.s.Sound := by
  unfold Ctx.parkFrozen
  simp

@[simp] theorem Ctx.sound_engineDo (c : Ctx) (effect : State) (hc : c.s.Sound) (heffect : effect.Sound) :
    (c.engineDo effect).Sound := by
  unfold Ctx.engineDo
  simp [hc, heffect]

@[simp] theorem State.sound_flushed (s : State) (core : Nat) : (s.flushed core).Sound ↔ s.Sound := by
  unfold State.flushed
  simp

@[simp] theorem State.sound_grantClaim (s : State) (core team : Nat) (slots blocks : Word) :
    (s.grantClaim core team slots blocks).Sound ↔ s.Sound := by
  unfold State.grantClaim
  simp

@[simp] theorem State.sound_giveBack (s : State) (core team : Nat) (slots blocks : Word) :
    (s.giveBack core team slots blocks).Sound ↔ s.Sound := by
  unfold State.giveBack
  simp

@[simp] theorem Ctx.sound_engineOnce (c : Ctx) (gap : Option Nat) (effect : State) (hc : c.s.Sound)
    (heffect : effect.Sound) : (c.engineOnce gap effect).Sound := by
  unfold Ctx.engineOnce
  split <;> simp [hc, heffect]

@[simp] theorem Ctx.sound_acceptOp (c : Ctx) (k : Nat) (o : EngineOp) : (c.acceptOp k o).Sound ↔ c.s.Sound := by
  unfold Ctx.acceptOp
  simp

@[simp] theorem State.sound_putBarrier (s : State) (team b : Nat) (x : Barrier) :
    (s.putBarrier team b x).Sound ↔ s.Sound := by
  unfold State.putBarrier
  simp

@[simp] theorem State.sound_follow (s : State) (id : Nat) (m : SliceMask) (tpc opc : VAddr) (f : Posted → Bool) :
    (s.follow id m tpc opc f).Sound ↔ s.Sound := by
  unfold State.follow
  dsimp only
  (repeat' split) <;> simp

@[simp] theorem State.sound_barwaitReturns (s : State) (id : Nat) (m : SliceMask) (pc : VAddr) (n : Nat) :
    (s.barwaitReturns id m pc n).Sound ↔ s.Sound := by
  unfold State.barwaitReturns
  simp

@[simp] theorem State.sound_wanyTakes (s : State) (id : Nat) (m : SliceMask) (pc : VAddr) (d k : Nat) (e : Word) :
    (s.wanyTakes id m pc d k e).Sound ↔ s.Sound := by
  unfold State.wanyTakes
  simp

@[simp] theorem State.sound_sweepTokens (s : State) (id : Nat) : (s.sweepTokens id).Sound ↔ s.Sound := by
  unfold State.sweepTokens
  simp

@[simp] theorem State.sound_padWriteBytes (s : State) (team core off : Nat) (bs : List Byte) :
    (s.padWriteBytes team core off bs).Sound ↔ s.Sound := by
  unfold State.padWriteBytes
  split <;> simp

@[simp] theorem Ctx.sound_post (c : Ctx) (q pa : Nat) (bs : List Byte) (hc : c.s.Sound) : (c.post q pa bs).Sound := by
  unfold Ctx.post
  simp [hc]

@[simp] theorem Ctx.sound_launchFrom (c : Ctx) (q : Nat) (rs : List (Nat × Nat)) (hc : c.s.Sound) :
    (c.launchFrom q rs).Sound := by
  unfold Ctx.launchFrom
  dsimp only
  (repeat' split) <;> simp [hc]

@[simp] theorem State.sound_dropVictim (s : State) (team : Nat) : (s.dropVictim team).Sound ↔ s.Sound := by
  unfold State.dropVictim
  split <;> simp

@[simp] theorem State.sound_cancelLaunch (s : State) (id : Nat) : (s.cancelLaunch id).Sound ↔ s.Sound := by
  unfold State.cancelLaunch
  split <;> simp

@[simp] theorem State.sound_acquireFromIod (s : State) (a : Nat) : (s.acquireFromIod a).Sound ↔ s.Sound := Iff.rfl

@[simp] theorem State.sound_putLink (s : State) (k : Nat) (x : Link) : (s.putLink k x).Sound ↔ s.Sound := Iff.rfl

@[simp] theorem State.sound_afterRead (s : State) (pf : Bool) (part a : Nat) : (s.afterRead pf part a).Sound ↔ s.Sound := by
  unfold State.afterRead
  simp

@[simp] theorem State.sound_assignPart (s : State) (part addr : Nat) (v : Word) :
    (s.assignPart part addr v).Sound ↔ s.Sound := by
  unfold State.assignPart
  simp

@[simp] theorem State.sound_dropPages (s : State) (part : Nat) (va : Option Nat) :
    (s.dropPages part va).Sound ↔ s.Sound := Iff.rfl

@[simp] theorem State.sound_shoot (s : State) (part : Nat) (nseq : BitVec 16) (go : Bool) :
    (s.shoot part nseq go).Sound ↔ s.Sound := by
  unfold State.shoot
  simp

@[simp] theorem State.sound_faultAck (s : State) (part : Nat) (v : Word) : (s.faultAck part v).Sound ↔ s.Sound := by
  unfold State.faultAck
  simp

@[simp] theorem State.sound_attestModule (s : State) (part : Nat) : (s.attestModule part).Sound ↔ s.Sound := Iff.rfl

end Sys2Proof.Machine
end

section
/-! PROOFS. Writes to registers, discards, links and circuits keep the sound forms (R2, R472). -/

namespace Sys2Proof.Machine

@[simp] theorem State.sound_askReport (s : State) (part : Nat) : (s.askReport part).Sound ↔ s.Sound := by
  unfold State.askReport
  simp

@[simp] theorem State.sound_writePart (s : State) (pf : Bool) (part a : Nat) (v : Word) :
    (s.writePart pf part a v).Sound ↔ s.Sound := by
  unfold State.writePart
  split <;> simp

@[simp] theorem State.sound_writeWr (s : State) (part q : Nat) (wr : BitVec 16) : (s.writeWr part q wr).Sound ↔ s.Sound := by
  unfold State.writeWr
  dsimp only
  split <;> rfl

@[simp] theorem State.sound_writeQueue (s : State) (part q k : Nat) (v : Word) :
    (s.writeQueue part q k v).Sound ↔ s.Sound := by
  unfold State.writeQueue
  split <;> simp

@[simp] theorem State.sound_putChan (s : State) (c : Nat) (x : Chan) : (s.putChan c x).Sound ↔ s.Sound := Iff.rfl

@[simp] theorem State.sound_modChan (s : State) (c : Nat) (f : Chan → Chan) : (s.modChan c f).Sound ↔ s.Sound :=
  Iff.rfl

@[simp] theorem State.sound_beginWake (s : State) : s.beginWake.Sound ↔ s.Sound := by
  unfold State.beginWake
  split
  · rfl
  · exact (State.sound_foldl (fun v a => by split <;> simp) _).trans Iff.rfl

/-- A request for the value 3 is discarded (Table 21.3), so that no other reaches the power states. -/
@[simp] theorem State.sound_askPower (s : State) (req : BitVec 2) (h : s.Sound) : (s.askPower req).Sound := by
  unfold State.askPower
  split
  · exact h
  · next hreq =>
    obtain ⟨hv, hcur, hent⟩ := h
    have h1 : State.Sound { s with house := { s.house with req := req } } := ⟨hv, hcur, hent⟩
    dsimp only
    split
    · exact (State.sound_beginWake _).2 h1
    · split
      · exact ⟨hv, hcur, hent⟩
      · split
        · exact h1
        · exact ⟨hv, hcur, fun he => hreq (Option.some.inj he)⟩

@[simp] theorem State.sound_writeHouse (s : State) (a : Nat) (v : Word) (h : s.Sound) : (s.writeHouse a v).Sound := by
  unfold State.writeHouse
  split
  · exact h
  · exact State.sound_askPower _ _ h
  · exact h
  · exact h

@[simp] theorem State.sound_dropTeam (s : State) (id : Nat) : (s.dropTeam id).Sound ↔ s.Sound := Iff.rfl

@[simp] theorem State.sound_reapTeams (s : State) : s.reapTeams.Sound ↔ s.Sound := by
  unfold State.reapTeams
  simp

@[simp] theorem State.sound_freeCorbels (s : State) (launch : Nat) : (s.freeCorbels launch).Sound ↔ s.Sound := by
  unfold State.freeCorbels
  simp

@[simp] theorem State.sound_dropLaunch (s : State) (id : Nat) : (s.dropLaunch id).Sound ↔ s.Sound := Iff.rfl

@[simp] theorem State.sound_queueNotice (s : State) (part : Nat) (rec_ : List Byte) :
    (s.queueNotice part rec_).Sound ↔ s.Sound := by
  unfold State.queueNotice
  simp

@[simp] theorem State.sound_writeCompletion (s : State) (part cpla lid : Nat) (rec_ : List Byte) (after : List Out) :
    (s.writeCompletion part cpla lid rec_ after).Sound ↔ s.Sound := by
  unfold State.writeCompletion
  (repeat' split) <;> simp

@[simp] theorem State.sound_releaseSuccessor (s : State) (done : Nat) (status : Nat) (e : Nat × Launch) :
    (s.releaseSuccessor done status e).Sound ↔ s.Sound := by
  unfold State.releaseSuccessor
  simp

@[simp] theorem State.sound_completeLaunch (s : State) (id : Nat) (l : Launch) :
    (s.completeLaunch id l).Sound ↔ s.Sound := by
  unfold State.completeLaunch
  simp

@[simp] theorem State.sound_discardLaunches (s : State) (part : Nat) : (s.discardLaunches part).Sound ↔ s.Sound := by
  unfold State.discardLaunches
  refine State.sound_foldl (fun v a => ?_) _
  (repeat' split) <;> simp

@[simp] theorem State.sound_discardTeams (s : State) (part : Nat) : (s.discardTeams part).Sound ↔ s.Sound := by
  unfold State.discardTeams
  simp

@[simp] theorem State.sound_dropReq (s : State) (id : Nat) : (s.dropReq id).Sound ↔ s.Sound := Iff.rfl

@[simp] theorem State.sound_discardWork (s : State) (part : Nat) : (s.discardWork part).Sound ↔ s.Sound := by
  unfold State.discardWork
  simp

@[simp] theorem State.sound_discard (s : State) (part : Nat) : (s.discard part).Sound ↔ s.Sound := by
  unfold State.discard
  simp

@[simp] theorem State.sound_acceptFollow (s : State) (core : Nat) (o : EngineOp) :
    (s.acceptFollow core o).Sound ↔ s.Sound := by
  unfold State.acceptFollow
  (repeat' split) <;> simp

@[simp] theorem State.sound_acceptHeld (s : State) (core : Nat) : (s.acceptHeld core).Sound ↔ s.Sound := by
  unfold State.acceptHeld
  simp

@[simp] theorem State.sound_unfreeze (s : State) (core : Nat) : (s.unfreeze core).Sound ↔ s.Sound := by
  unfold State.unfreeze
  dsimp only
  (repeat' split) <;> simp

@[simp] theorem State.sound_unfreezeAll (s : State) (part : Nat) : (s.unfreezeAll part).Sound ↔ s.Sound := by
  unfold State.unfreezeAll
  simp

@[simp] theorem State.sound_sendHeld (s : State) (part : Nat) : (s.sendHeld part).Sound ↔ s.Sound := by
  unfold State.sendHeld
  simp

@[simp] theorem State.sound_resume (s : State) (part : Nat) : (s.resume part).Sound ↔ s.Sound := by
  unfold State.resume
  simp

@[simp] theorem State.sound_writeRecovery (s : State) (part a : Nat) (v : Word) :
    (s.writeRecovery part a v).Sound ↔ s.Sound := by
  unfold State.writeRecovery
  split <;> simp

@[simp] theorem State.sound_endPlan (s : State) (part st : Nat) : (s.endPlan part st).Sound ↔ s.Sound := Iff.rfl

@[simp] theorem State.sound_rise (s : State) (b : Risen) : (s.rise b).Sound ↔ s.Sound := by
  unfold State.rise
  simp

@[simp] theorem State.sound_putPair (s : State) (f : Nat) (x : Pair) : (s.putPair f x).Sound ↔ s.Sound := Iff.rfl

@[simp] theorem State.sound_setEvt (s : State) (f : Nat) : (s.setEvt f).Sound ↔ s.Sound := by
  unfold State.setEvt
  dsimp only
  (repeat' split) <;> simp

@[simp] theorem State.sound_claimSite (s : State) (c n : Nat) (planned : Bool) :
    (s.claimSite c n planned).Sound ↔ s.Sound := by
  unfold State.claimSite
  simp

@[simp] theorem State.sound_planSpare (s : State) (part c n : Nat) : (s.planSpare part c n).Sound ↔ s.Sound := by
  unfold State.planSpare
  simp

@[simp] theorem State.sound_switchRing (s : State) (c site : Nat) : (s.switchRing c site).Sound ↔ s.Sound := by
  unfold State.switchRing
  simp

@[simp] theorem State.sound_planRelease (s : State) (part c : Nat) : (s.planRelease part c).Sound ↔ s.Sound := by
  unfold State.planRelease
  simp

@[simp] theorem State.sound_voidRemap (s : State) (c : Nat) : (s.voidRemap c).Sound ↔ s.Sound := by
  unfold State.voidRemap
  dsimp only
  (repeat' split) <;> simp

@[simp] theorem State.sound_dropSite (s : State) (c : Nat) : (s.dropSite c).Sound ↔ s.Sound := by
  unfold State.dropSite
  split <;> simp

@[simp] theorem State.sound_retrain (s : State) (k : Nat) : (s.retrain k).Sound ↔ s.Sound := by
  unfold State.retrain
  simp

@[simp] theorem State.sound_askRetrain (s : State) (k : Nat) : (s.askRetrain k).Sound ↔ s.Sound := by
  unfold State.askRetrain
  simp

@[simp] theorem State.sound_planRetrain (s : State) (part k : Nat) : (s.planRetrain part k).Sound ↔ s.Sound := by
  unfold State.planRetrain
  simp

@[simp] theorem State.sound_endPlans (s : State) (f : Nat × Nat → Bool) (st : Nat) : (s.endPlans f st).Sound ↔ s.Sound := by
  unfold State.endPlans
  refine State.sound_foldl (fun v a => ?_) _
  (repeat' split) <;> simp

@[simp] theorem State.sound_shareDone (s : State) (c : Nat) : (s.shareDone c).Sound ↔ s.Sound := by
  unfold State.shareDone
  simp

@[simp] theorem State.sound_putLine (s : State) (e lam : Nat) (x : Line) : (s.putLine e lam x).Sound ↔ s.Sound :=
  Iff.rfl

@[simp] theorem State.sound_putArray (s : State) (e : Nat) (x : Array_) : (s.putArray e x).Sound ↔ s.Sound := Iff.rfl

@[simp] theorem State.sound_setDonor (s : State) (e lam : Nat) (b : Bool) : (s.setDonor e lam b).Sound ↔ s.Sound :=
  Iff.rfl

@[simp] theorem State.sound_shiftMargin (s : State) (cs : List Nat) (f : Nat → Nat) :
    (s.shiftMargin cs f).Sound ↔ s.Sound := by
  unfold State.shiftMargin
  simp

@[simp] theorem State.sound_wakeDark (s : State) (cs : List Nat) : (s.wakeDark cs).Sound ↔ s.Sound := by
  unfold State.wakeDark
  simp

@[simp] theorem State.sound_share (s : State) (e lam : Nat) : (s.share e lam).Sound ↔ s.Sound := by
  unfold State.share
  simp

@[simp] theorem State.sound_planShare (s : State) (part t : Nat) : (s.planShare part t).Sound ↔ s.Sound := by
  unfold State.planShare
  simp

@[simp] theorem State.sound_planGo (s : State) (part cmd tgt : Nat) (ring : Bool) :
    (s.planGo part cmd tgt ring).Sound ↔ s.Sound := by
  unfold State.planGo
  (repeat' split) <;> simp

@[simp] theorem State.sound_writePlan (s : State) (part : Nat) (v : Nat) : (s.writePlan part v).Sound ↔ s.Sound := by
  unfold State.writePlan
  simp

@[simp] theorem State.sound_fallLink (s : State) (k : Nat) (stuck : Bool) : (s.fallLink k stuck).Sound ↔ s.Sound := by
  unfold State.fallLink
  simp

@[simp] theorem State.sound_extend (s : State) (n : Nat) (d : List Byte) : (s.extend n d).Sound ↔ s.Sound := Iff.rfl

@[simp] theorem State.sound_moveFabric (s : State) (f : Nat) (peer : Bool) : (s.moveFabric f peer).Sound ↔ s.Sound := by
  unfold State.moveFabric
  simp

@[simp] theorem State.sound_writeFabreq (s : State) (f : Nat) (peer : Bool) : (s.writeFabreq f peer).Sound ↔ s.Sound := by
  unfold State.writeFabreq
  simp

@[simp] theorem State.sound_writePair (s : State) (pf : Bool) (f : Nat) (v : Word) :
    (s.writePair pf f v).Sound ↔ s.Sound := by
  unfold State.writePair
  simp

@[simp] theorem State.sound_wakeChan (s : State) (k c : Nat) : (s.wakeChan k c).Sound ↔ s.Sound := by
  unfold State.wakeChan
  simp

@[simp] theorem State.sound_parkChan (s : State) (k c : Nat) : (s.parkChan k c).Sound ↔ s.Sound := by
  unfold State.parkChan
  simp

@[simp] theorem State.sound_settleLink (s : State) (k : Nat) : (s.settleLink k).Sound ↔ s.Sound := by
  unfold State.settleLink
  dsimp only
  (repeat' split) <;> simp

@[simp] theorem State.sound_writeTgtw (s : State) (k w : Nat) : (s.writeTgtw k w).Sound ↔ s.Sound := by
  unfold State.writeTgtw
  simp

@[simp] theorem State.sound_settleChan (s : State) (c : Nat) : (s.settleChan c).Sound ↔ s.Sound := by
  unfold State.settleChan
  simp

@[simp] theorem State.sound_writePark (s : State) (c : Nat) (park : Bool) : (s.writePark c park).Sound ↔ s.Sound := by
  unfold State.writePark
  simp

@[simp] theorem State.sound_writeOptic (s : State) (pf : Bool) (part a : Nat) (v : Word) :
    (s.writeOptic pf part a v).Sound ↔ s.Sound := by
  unfold State.writeOptic
  simp

@[simp] theorem State.sound_putPort (s : State) (p : Nat) (x : Port) : (s.putPort p x).Sound ↔ s.Sound := Iff.rfl

@[simp] theorem State.sound_trainPair (s : State) (f : Nat) : (s.trainPair f).Sound ↔ s.Sound := by
  unfold State.trainPair
  simp

@[simp] theorem State.sound_trainPort (s : State) (p : Nat) : (s.trainPort p).Sound ↔ s.Sound := by
  unfold State.trainPort
  simp

@[simp] theorem State.sound_putEntry (s : State) (j p : Nat) (c : Circ) : (s.putEntry j p c).Sound ↔ s.Sound :=
  Iff.rfl

@[simp] theorem State.sound_putCirc (s : State) (c : Circuit) (x : Circ) : (s.putCirc c x).Sound ↔ s.Sound := by
  unfold State.putCirc
  split <;> simp

@[simp] theorem State.sound_sendSetup (s : State) (c : Circuit) (x : Circ) (peer : Nat) :
    (s.sendSetup c x peer).Sound ↔ s.Sound := by
  unfold State.sendSetup
  simp

@[simp] theorem State.sound_circSetup (s : State) (c : Circuit) : (s.circSetup c).Sound ↔ s.Sound := by
  unfold State.circSetup
  split <;> simp

@[simp] theorem State.sound_leaveSlot (s : State) (c : Circuit) : (s.leaveSlot c).Sound ↔ s.Sound := by
  unfold State.leaveSlot
  split <;> simp

@[simp] theorem State.sound_circTdown (s : State) (c : Circuit) : (s.circTdown c).Sound ↔ s.Sound := by
  unfold State.circTdown
  dsimp only
  (repeat' split) <;> simp

@[simp] theorem State.sound_writePort (s : State) (p : Nat) (v : Word) : (s.writePort p v).Sound ↔ s.Sound := by
  unfold State.writePort
  simp

@[simp] theorem State.sound_writePlane (s : State) (f : Nat) (v : Word) : (s.writePlane f v).Sound ↔ s.Sound := by
  unfold State.writePlane
  simp

@[simp] theorem State.sound_writeEntry (s : State) (j p : Nat) (v : Word) : (s.writeEntry j p v).Sound ↔ s.Sound := by
  unfold State.writeEntry
  simp

@[simp] theorem State.sound_writeCircuit (s : State) (part a : Nat) (v : Word) :
    (s.writeCircuit part a v).Sound ↔ s.Sound := by
  unfold State.writeCircuit
  simp

@[simp] theorem State.sound_writeShared (s : State) (pf : Bool) (part a : Nat) (v : Word) (h : s.Sound) :
    (s.writeShared pf part a v).Sound := by
  unfold State.writeShared
  simp [h]

@[simp] theorem Ctx.sound_writeSys (c : Ctx) (a : Nat) (v : Word) (hc : c.s.Sound) : (c.writeSys a v).Sound := by
  unfold Ctx.writeSys
  simp [hc]

end Sys2Proof.Machine
end

section
/-! PROOFS. Requests that are performed, follow-on work, teams that are placed and flits keep the sound forms (R2, R472). -/

namespace Sys2Proof.Machine

@[simp] theorem State.sound_pushRuns (actor : Actor) (agent : Nat) (rs : List (Nat × Nat)) : ∀ (bs : List Byte) (s : State),
    (State.pushRuns actor agent rs bs s).Sound ↔ s.Sound := by
  induction rs with
  | nil => exact fun _ _ => Iff.rfl
  | cons r rs ih => exact fun bs s => (ih _ _).trans (s.sound_pushStore actor agent r.1 _ [])

@[simp] theorem State.sound_touchAt (s : State) (pa : Nat) (stamp : List (BitVec 16)) :
    (s.touchAt pa stamp).Sound ↔ s.Sound := Iff.rfl

@[simp] theorem State.sound_suppress (s : State) (id : Nat) (hit : List VaultReq) :
    (s.suppress id hit).Sound ↔ s.Sound := by
  unfold State.suppress
  simp

@[simp] theorem State.sound_faultsDue (s : State) (id : Nat) (m : SliceMask) (pc opc : VAddr)
    (rs : List (Nat × LaneRecord)) : (s.faultsDue id m pc opc rs).Sound ↔ s.Sound := by
  unfold State.faultsDue
  split <;> simp

@[simp] theorem State.sound_faultsFound (s : State) (id : Nat) (x : Group) (n : Nat) (opc : VAddr)
    (rs : List (Nat × LaneRecord)) : (s.faultsFound id x n opc rs).Sound ↔ s.Sound := by
  unfold State.faultsFound
  simp

@[simp] theorem State.sound_eccFound (s : State) (id : Nat) (q : VaultReq) (ls : List Nat) (addr : Nat) :
    (s.eccFound id q ls addr).Sound ↔ s.Sound := by
  unfold State.eccFound
  dsimp only
  (repeat' split) <;> simp

@[simp] theorem State.sound_dropVreq (s : State) (r : VaultReq) : (s.dropVreq r).Sound ↔ s.Sound := Iff.rfl

@[simp] theorem State.sound_iodNext (s : State) : s.iodNext.Sound ↔ s.Sound := by
  unfold State.iodNext
  split <;> simp

@[simp] theorem State.sound_merge (s : State) (r : VaultReq) : (s.merge r).Sound ↔ s.Sound := Iff.rfl

@[simp] theorem State.sound_answer (s : State) (r : VaultReq) (ws : List (RegElem × Word)) :
    (s.answer r ws).Sound ↔ s.Sound := by
  unfold State.answer
  split <;> simp

@[simp] theorem State.sound_performWrite (s : State) (r : VaultReq) (h : s.Sound) : (s.performWrite r).Sound := by
  unfold State.performWrite
  dsimp only
  (repeat' split) <;> simp [h]

@[simp] theorem State.sound_performRead (s : State) (r : VaultReq) : (s.performRead r).Sound ↔ s.Sound := by
  unfold State.performRead
  split <;> simp

@[simp] theorem State.sound_performReq (s : State) (r : VaultReq) (h : s.Sound) : (s.performReq r).Sound := by
  unfold State.performReq
  split <;> simp [h]

@[simp] theorem State.sound_draining (s : State) (core : Nat) (o : EngineOp) (effect : State → State) (h : s.Sound)
    (heffect : ∀ (y0 : State), y0.Sound → (effect y0).Sound) : (s.draining core o effect).Sound := by
  unfold State.draining
  (repeat' split) <;> simp +contextual [h, heffect]

@[simp] theorem State.sound_padWriteRun (s : State) (team core off : Nat) (bs : List Byte) :
    (s.padWriteRun team core off bs).Sound ↔ s.Sound := by
  unfold State.padWriteRun
  split <;> simp

@[simp] theorem State.sound_drainOut (s : State) (core : Nat) (o : EngineOp) (h : s.Sound) :
    (s.drainOut core o).1.Sound := by
  unfold State.drainOut
  split
  · refine State.Sound.foldl h _ (fun v a hv => ?_)
    split <;> simp [hv]
  · exact (State.sound_foldl (fun v k => v.sound_chunkIn _ _ _ _ _) _).2 (by simp [h])
  · exact h

@[simp] theorem State.sound_completeOp (s : State) (core : Nat) (o : EngineOp) (h : s.Sound) :
    (s.completeOp core o).Sound := by
  unfold State.completeOp
  simp [h]

@[simp] theorem State.sound_onImage (s : State) (team : Nat) (act : State → State) (h : s.Sound)
    (hact : ∀ (y0 : State), y0.Sound → (act y0).Sound) : (s.onImage team act).Sound := by
  unfold State.onImage
  simp [h, hact]

@[simp] theorem State.sound_writeImages (s : State) (team : Nat) (h : s.Sound) : (s.writeImages team).Sound := by
  unfold State.writeImages
  split
  · split
    · exact State.Sound.foldl h _ (fun v x hv => v.sound_writeAtOnce _ _ _ _ hv)
    · exact h
  · exact h

@[simp] theorem State.sound_readImages (s : State) (team : Nat) : (s.readImages team).Sound ↔ s.Sound := by
  unfold State.readImages
  (repeat' split) <;> simp

@[simp] theorem State.sound_throughImage (s : State) (team : Nat) (f : State → State) (h : s.Sound)
    (hf : ∀ (y0 : State), y0.Sound → (f y0).Sound) : (s.throughImage team f).Sound := by
  unfold State.throughImage
  simp [h, hf]

@[simp] theorem State.sound_landVault (s : State) (r : FarReq) (l : Landing) (lo : Nat)
    (bs : List (Nat × Option Byte)) (h : s.Sound) : (s.landVault r l lo bs).1.Sound := by
  unfold State.landVault
  dsimp only
  split
  · exact h
  · split
    · simp [h]
    · have h0 := (s.sound_cache (s.teamPart r.team) (l.base + lo)).2 h
      dsimp only
      split
      · exact State.sound_writeAtOnce _ _ _ _ _ h0
      · exact State.Sound.foldl h0 _ (fun v x hv => v.sound_writeAtOnce _ _ _ _ hv)

@[simp] theorem State.sound_landByte (s : State) (r : FarReq) (l : Landing) (o : Nat) (b : Byte) :
    (s.landByte r l o b).Sound ↔ s.Sound := by
  unfold State.landByte
  simp

@[simp] theorem State.sound_creditBarrier (s : State) (team b n : Nat) : (s.creditBarrier team b n).Sound ↔ s.Sound := by
  unfold State.creditBarrier
  split <;> simp

@[simp] theorem State.sound_postFail (s : State) (id : Nat) : (s.postFail id).Sound ↔ s.Sound := by
  unfold State.postFail
  (repeat' split) <;> simp

@[simp] theorem State.sound_drained (s : State) (r : FarReq) : (s.drained r).Sound ↔ s.Sound := by
  unfold State.drained
  split <;> simp

/-- What landChunk does to the state once the bytes stand. -/
theorem State.sound_landed {s1 : State} (h1 : s1.Sound) (id : Nat) (r r1 : FarReq) (l : Landing) (k n : Nat) (failed fin : Bool) :
    (let s2 := (s1.putReq id r1).chunkIn r.team r.core l k failed
     let s3 := match r.kind with
       | .get b => match b.bar with
         | some x => s2.creditBarrier r.team x n
         | none => s2
       | _ => s2
     let s4 := if failed then s3.postFail id else s3
     if fin then s4.drained r1 else s4).Sound := by
  dsimp only
  have h3 : (match r.kind with
       | .get b => match b.bar with
         | some x => ((s1.putReq id r1).chunkIn r.team r.core l k failed).creditBarrier r.team x n
         | none => (s1.putReq id r1).chunkIn r.team r.core l k failed
       | _ => (s1.putReq id r1).chunkIn r.team r.core l k failed).Sound := by
    split
    · split <;> simp [h1]
    · simp [h1]
  split <;> split <;> simp [h3]

@[simp] theorem State.sound_landChunk (s : State) (id : Nat) (r : FarReq) (l : Landing) (k : Nat) (h : s.Sound) :
    (s.landChunk id r l k).Sound := by
  unfold State.landChunk
  by_cases h2 : l.loc = 2
  · simp only [if_pos h2]
    exact State.sound_landed (s.sound_landVault r l _ _ h) id r _ l k _ _ _
  · simp only [if_neg h2]
    exact State.sound_landed ((State.sound_foldl (fun v x => by split <;> simp) _).2 h) id r _ l k _ _ _

@[simp] theorem State.sound_failChunks (s : State) (id : Nat) (r : FarReq) : (s.failChunks id r).Sound ↔ s.Sound := by
  unfold State.failChunks
  split <;> simp

@[simp] theorem State.sound_dropFollow (s : State) (r : FarReq) (k : Nat) : (s.dropFollow r k).Sound ↔ s.Sound := by
  unfold State.dropFollow
  simp

@[simp] theorem State.sound_finishTag (s : State) (r : FarReq) (failed : Option Byte) :
    (s.finishTag r failed).Sound ↔ s.Sound := by
  unfold State.finishTag
  split <;> simp

@[simp] theorem State.sound_endRequest (s : State) (id : Nat) : (s.endRequest id).Sound ↔ s.Sound := by
  unfold State.endRequest
  dsimp only
  (repeat' split) <;> simp

@[simp] theorem Ctx.sound_joinPool (c : Ctx) (charge : Nat) : (c.joinPool charge).Sound ↔ c.s.Sound := by
  unfold Ctx.joinPool
  simp

@[simp] theorem State.sound_toPool (s : State) (core : Nat) : (s.toPool core).Sound ↔ s.Sound := by
  unfold State.toPool
  refine State.sound_foldl (fun v a => ?_) _
  (repeat' split) <;> simp

@[simp] theorem State.sound_staleRefusal (s : State) (part : Nat) (hit : Bool) :
    (s.staleRefusal part hit).Sound ↔ s.Sound := by
  unfold State.staleRefusal
  simp

@[simp] theorem State.sound_modModule (s : State) (n : Nat) (f : Module → Module) : (s.modModule n f).Sound ↔ s.Sound :=
  Iff.rfl

@[simp] theorem State.sound_dropRemote (s : State) (id : Nat) : (s.dropRemote id).Sound ↔ s.Sound := Iff.rfl

@[simp] theorem State.sound_answered (s : State) (ident : Nat) (r : RemoteOut) : (s.answered ident r).Sound ↔ s.Sound := by
  unfold State.answered
  (repeat' split) <;> simp

@[simp] theorem State.sound_plainReply (s : State) (r : RemoteOut) (x : RemoteReply) :
    (s.plainReply r x).Sound ↔ s.Sound := by
  unfold State.plainReply
  simp

@[simp] theorem State.sound_ratomReply (s : State) (r : RemoteOut) (x : RemoteReply) :
    (s.ratomReply r x).Sound ↔ s.Sound := by
  unfold State.ratomReply
  dsimp only
  (repeat' split) <;> simp

@[simp] theorem State.sound_reply (s : State) (x : RemoteReply) : (s.reply x).Sound ↔ s.Sound := by
  unfold State.reply
  (repeat' split) <;> simp

@[simp] theorem State.sound_performed (s : State) (m : NetMsg) : (s.performed m).Sound ↔ s.Sound := by
  unfold State.performed
  split <;> simp

@[simp] theorem State.sound_onReply (s : State) (op : RemoteOp) (act : State → State) (h : s.Sound)
    (hact : ∀ (y0 : State), y0.Sound → (act y0).Sound) : (s.onReply op act).Sound := by
  unfold State.onReply
  (repeat' split) <;> simp +contextual [h, hact]

@[simp] theorem State.sound_mergeIod (s : State) (pa : Nat) : (s.mergeIod pa).Sound ↔ s.Sound := Iff.rfl

@[simp] theorem State.sound_remoteLane (s : State) (op : RemoteOp) (l : RemoteLane)
    (access : Except (Byte × Bool) Nat) (h : s.Sound) : (s.remoteLane op l access).1.Sound := by
  unfold State.remoteLane
  dsimp only
  (repeat' split) <;> simp [h]

@[simp] theorem State.sound_remoteLanes (s : State) (op : RemoteOp) (h : s.Sound) : (s.remoteLanes op).1.Sound := by
  unfold State.remoteLanes
  exact List.foldlRecOn (motive := fun acc : State × List LaneReply => acc.1.Sound) _ _ h
    (fun acc hacc x _ => acc.1.sound_remoteLane op x.1 x.2 hacc)

@[simp] theorem State.sound_replyAnywhere (s : State) (x : RemoteReply) (h : s.Sound) : (s.replyAnywhere x).Sound := by
  unfold State.replyAnywhere
  (repeat' split) <;> simp [h]

@[simp] theorem State.sound_performRemote (s : State) (op : RemoteOp) (h : s.Sound) : (s.performRemote op).Sound := by
  unfold State.performRemote
  simp [h]

@[simp] theorem State.sound_qFail (s : State) (d : QData) (x : QFault) : (s.qFail d x).Sound ↔ s.Sound := by
  unfold State.qFail
  simp

@[simp] theorem State.sound_qWrite (s : State) (d : QData) (h : s.Sound) : (s.qWrite d).Sound := by
  unfold State.qWrite
  refine State.Sound.foldl ?_ _ (fun v a hv => ?_)
  · simp [h]
  · (repeat' split) <;> simp [hv]

@[simp] theorem State.sound_qNotify (s : State) (d : QData) (h : s.Sound) : (s.qNotify d).Sound := by
  unfold State.qNotify
  (repeat' split) <;> simp [h]

@[simp] theorem State.sound_qLast (s : State) (d : QData) (h : s.Sound) : (s.qLast d).Sound := by
  unfold State.qLast
  simp [h]

@[simp] theorem State.sound_qTake (s : State) (d : QData) (h : s.Sound) : (s.qTake d).Sound := by
  unfold State.qTake
  simp [h]

@[simp] theorem State.sound_endQsend (s : State) (req : Nat) (r : FarReq) (kc : Option Nat) (failed : Option QFault) :
    (s.endQsend req r kc failed).Sound ↔ s.Sound := by
  unfold State.endQsend
  (repeat' split) <;> simp

@[simp] theorem State.sound_takePacket (s : State) (part q : Nat) (bs : List Byte) :
    (s.takePacket part q bs).Sound ↔ s.Sound := by
  unfold State.takePacket
  split <;> simp

@[simp] theorem State.sound_endNotices (s : State) (part : Nat) : (s.endNotices part).Sound ↔ s.Sound := by
  unfold State.endNotices
  simp

@[simp] theorem State.sound_reseatGangs (cores : List Nat) (per : Nat) (es : List (Nat × Gang)) :
    ∀ (given : List (Nat × Nat)) (s : State), (State.reseatGangs cores per es given s).Sound ↔ s.Sound := by
  induction es with
  | nil => exact fun _ _ => Iff.rfl
  | cons e es ih => exact fun given s => (ih _ _).trans (s.sound_modGang e.1 _)

@[simp] theorem State.sound_restoreTeam (s : State) (l : Launch) (team : Nat) (t : Team) (cores : List Nat) :
    (s.restoreTeam l team t cores).Sound ↔ s.Sound := by
  unfold State.restoreTeam
  split
  · rfl
  · dsimp only
    split
    · simp
    · rw [State.sound_claimAll, State.sound_acquireFromIod, State.sound_modPart, State.sound_putTeam,
        State.sound_reseatGangs, State.sound_foldl (fun v x => State.sound_foldl (fun u y => by split <;> simp) _),
        State.sound_foldl (fun v x => by split <;> simp), State.sound_readImages]

@[simp] theorem State.sound_startGangs (l : Launch) (team : Nat) (cores gs : List Nat) : ∀ s : State,
    (State.startGangs l team cores gs s).Sound ↔ s.Sound := by
  induction gs with
  | nil => exact fun _ => Iff.rfl
  | cons g gs ih => exact fun s => (ih _).trans Iff.rfl

@[simp] theorem State.sound_placeNew (s : State) (id : Nat) (l : Launch) (cores : List Nat) :
    (s.placeNew id l cores).Sound ↔ s.Sound := by
  unfold State.placeNew
  simp

@[simp] theorem State.sound_placeTeam (s : State) (id : Nat) (l : Launch) (cores : List Nat) :
    (s.placeTeam id l cores).Sound ↔ s.Sound := by
  unfold State.placeTeam
  split <;> simp

theorem State.sound_takeWorkget {s : State} {gang : Nat} {x : Nat × Nat × Nat × State} (h : s.Sound)
    (hx : s.takeWorkget gang = some x) : x.2.2.2.Sound := by
  unfold State.takeWorkget at hx
  split at hx
  · obtain ⟨off, -, rfl⟩ := Option.map_eq_some_iff.mp hx
    exact h
  · obtain ⟨e, -, he⟩ := List.exists_of_findSome?_eq_some hx
    obtain ⟨w, -, hw⟩ := Option.bind_eq_some_iff.mp he
    obtain ⟨c, -, rfl⟩ := Option.map_eq_some_iff.mp hw
    exact h

@[simp] theorem State.sound_preempt (s : State) (part n q : Nat) (named : Option Nat) :
    (s.preempt part n q named).Sound ↔ s.Sound := by
  unfold State.preempt
  simp

@[simp] theorem State.sound_beginSave (s : State) (team : Nat) : (s.beginSave team).Sound ↔ s.Sound := by
  unfold State.beginSave
  split <;> simp

@[simp] theorem State.sound_noRoom (s : State) (team : Nat) (t : Team) : (s.noRoom team t).Sound ↔ s.Sound := by
  unfold State.noRoom
  simp

@[simp] theorem State.sound_fatalAt (s : State) (core slot : Nat) : (s.fatalAt core slot).Sound ↔ s.Sound := by
  unfold State.fatalAt
  split <;> simp

@[simp] theorem State.sound_eccLanes (s : State) (core slot : Nat) (lanes : LaneMask) (addr : Nat) :
    (s.eccLanes core slot lanes addr).Sound ↔ s.Sound := by
  unfold State.eccLanes
  dsimp only
  (repeat' split) <;> simp

@[simp] theorem State.sound_uncorrectable (s : State) (x0 : ErrorPlace) : (s.uncorrectable x0).Sound ↔ s.Sound := by
  unfold State.uncorrectable
  (repeat' split) <;> simp

@[simp] theorem State.sound_setPorts (s : State) (f : Nat → Option Nat) : (s.setPorts f).Sound ↔ s.Sound := by
  unfold State.setPorts
  simp

@[simp] theorem State.sound_marker (s : State) (j : Nat) : (s.marker j).Sound ↔ s.Sound := by
  unfold State.marker
  simp

@[simp] theorem State.sound_recordPeer (s : State) (c : Circuit) (peer : Nat) (caps : BitVec 7) (version : Nat) :
    (s.recordPeer c peer caps version).Sound ↔ s.Sound := by
  unfold State.recordPeer
  simp

@[simp] theorem State.sound_circReceive (s : State) (r : SetupRef) (peer : Nat) (caps : BitVec 7) (lo hi : Nat) :
    (s.circReceive r peer caps lo hi).Sound ↔ s.Sound := by
  unfold State.circReceive
  split <;> simp

@[simp] theorem State.sound_circAck (s : State) (r : SetupRef) (caps : BitVec 7) (version : Nat) :
    (s.circAck r caps version).Sound ↔ s.Sound := by
  unfold State.circAck
  dsimp only
  (repeat' split) <;> simp

@[simp] theorem State.sound_circNak (s : State) (r : SetupRef) (cause : NakCause) :
    (s.circNak r cause).Sound ↔ s.Sound := by
  unfold State.circNak
  split <;> simp

@[simp] theorem State.sound_sendBare (s : State) (k peer : Nat) (t : FlitType) (fseq : BitVec 12) :
    (s.sendBare k peer t fseq).Sound ↔ s.Sound := Iff.rfl

@[simp] theorem State.sound_sendSeq (s : State) (k : Nat) (f : Flit) : (s.sendSeq k f).Sound ↔ s.Sound := Iff.rfl

@[simp] theorem State.sound_sendMsg (s : State) (k peer : Nat) (m : NetMsg) : (s.sendMsg k peer m).Sound ↔ s.Sound := by
  unfold State.sendMsg
  simp

@[simp] theorem State.sound_takeMsg (s : State) (peer : Nat) (m : NetMsg) : (s.takeMsg peer m).Sound ↔ s.Sound :=
  Iff.rfl

@[simp] theorem State.sound_sourceFails (s : State) (d : QDesc) (off : Nat) : (s.sourceFails d off).Sound ↔ s.Sound := by
  unfold State.sourceFails
  simp

@[simp] theorem State.sound_sendData (s : State) (k part peer : Nat) (d : QDesc) :
    (s.sendData k part peer d).Sound ↔ s.Sound := by
  unfold State.sendData
  dsimp only
  (repeat' split) <;> simp

theorem State.sound_sendNew {s t : State} {k peer : Nat} (h : s.Sound) (ht : s.sendNew k peer = some t) : t.Sound := by
  unfold State.sendNew at ht
  split at ht
  · obtain ⟨f, -, rfl⟩ := Option.map_eq_some_iff.mp ht
    simp [h]
  · split at ht
    · cases ht
      simp [h]
    · obtain ⟨n, -, hn⟩ := Option.bind_eq_some_iff.mp ht
      obtain ⟨q, -, rfl⟩ := Option.map_eq_some_iff.mp hn
      simp [h]

@[simp] theorem State.sound_sendDealt (s : State) (k peer : Nat) (h : s.Sound) : (s.sendDealt k peer).Sound := by
  unfold State.sendDealt
  split
  · simp [h]
  · split
    · simp [h]
    · next t ht => exact (State.sound_sendNew h ht :)

@[simp] theorem State.sound_sendTo (s : State) (k peer : Nat) (h : s.Sound) : (s.sendTo k peer).Sound := by
  unfold State.sendTo
  dsimp only
  (repeat' split) <;> simp [h]

@[simp] theorem State.sound_flitBoundary (s : State) (k : Nat) (h : s.Sound) : (s.flitBoundary k).Sound := by
  unfold State.flitBoundary
  split <;> simp [h]

@[simp] theorem State.sound_failFlit (s : State) (k : Nat) (nak : Bool) : (s.failFlit k nak).Sound ↔ s.Sound :=
  Iff.rfl

end Sys2Proof.Machine
end

section
/-! PROOFS. Start-up, landings and the parts of a cycle keep the sound forms (R2, R472). -/

namespace Sys2Proof.Machine

@[simp] theorem State.sound_remapDone (s : State) (c site : Nat) : (s.remapDone c site).Sound ↔ s.Sound := by
  unfold State.remapDone
  simp

@[simp] theorem State.sound_finishSwap (s : State) (c site : Nat) : (s.finishSwap c site).Sound ↔ s.Sound := by
  unfold State.finishSwap
  simp

@[simp] theorem State.sound_acknowledge (s : State) (k : Nat) (n : BitVec 12) : (s.acknowledge k n).Sound ↔ s.Sound := by
  unfold State.acknowledge
  dsimp only
  (repeat' split) <;> simp

@[simp] theorem State.sound_chanDown (s : State) (c : Nat) : (s.chanDown c).Sound ↔ s.Sound := by
  unfold State.chanDown
  simp

@[simp] theorem State.sound_linkDown (s : State) (k : Nat) : (s.linkDown k).Sound ↔ s.Sound := by
  unfold State.linkDown
  simp

@[simp] theorem State.sound_mustRetrain (s : State) (k : Nat) : (s.mustRetrain k).Sound ↔ s.Sound := by
  unfold State.mustRetrain
  simp

@[simp] theorem State.sound_takeFlit (s : State) (k : Nat) (f : Flit) : (s.takeFlit k f).Sound ↔ s.Sound := by
  unfold State.takeFlit
  (repeat' split) <;> simp

@[simp] theorem State.sound_receiveFlit (s : State) (k : Nat) (f : Flit) : (s.receiveFlit k f).Sound ↔ s.Sound := by
  unfold State.receiveFlit
  dsimp only
  split
  · simp
  · split
    · simp
    · split <;> simp
    · simp
    all_goals simp

@[simp] theorem State.sound_retrainUp (s : State) (k : Nat) (r : Retrained) : (s.retrainUp k r).Sound ↔ s.Sound := by
  unfold State.retrainUp
  simp

@[simp] theorem State.sound_giveWay (s : State) (c : Nat) : (s.giveWay c).Sound ↔ s.Sound := by
  unfold State.giveWay
  split <;> simp

@[simp] theorem State.sound_takeSite (s : State) (c : Nat) : (s.takeSite c).Sound ↔ s.Sound := by
  unfold State.takeSite
  dsimp only
  (repeat' split) <;> simp

@[simp] theorem State.sound_spareNow (s : State) (c : Nat) : (s.spareNow c).Sound ↔ s.Sound := by
  unfold State.spareNow
  simp

@[simp] theorem State.sound_sample (s : State) (x : Nat × BitVec 16 × BitVec 8) : (s.sample x).Sound ↔ s.Sound := by
  unfold State.sample
  simp

@[simp] theorem State.sound_settleChans (s : State) (cs : List Nat) : (s.settleChans cs).Sound ↔ s.Sound := by
  unfold State.settleChans
  simp

@[simp] theorem State.sound_setDarkEvt (s : State) (cs : List Nat) : (s.setDarkEvt cs).Sound ↔ s.Sound := by
  unfold State.setDarkEvt
  simp

@[simp] theorem State.sound_loseLine (s : State) (e lam : Nat) : (s.loseLine e lam).Sound ↔ s.Sound := by
  unfold State.loseLine
  simp

@[simp] theorem State.sound_comeUp (s : State) (c : Nat) : (s.comeUp c).Sound ↔ s.Sound := by
  unfold State.comeUp
  simp

@[simp] theorem State.sound_wakeFail (s : State) (c : Nat) : (s.wakeFail c).Sound ↔ s.Sound := by
  unfold State.wakeFail
  simp

@[simp] theorem State.sound_wakeEnd (s : State) (c : Nat) (locked : Bool) : (s.wakeEnd c locked).Sound ↔ s.Sound := by
  unfold State.wakeEnd
  simp

@[simp] theorem State.sound_breakOff (s : State) (c : Nat) : (s.breakOff c).Sound ↔ s.Sound := by
  unfold State.breakOff
  split <;> simp

@[simp] theorem State.sound_planUnshare (s : State) (part t : Nat) (recovered : Bool) :
    (s.planUnshare part t recovered).Sound ↔ s.Sound := by
  unfold State.planUnshare
  simp

@[simp] theorem State.sound_iodBytes (n : Nat) : ∀ (s : State) (pa : Nat) (bs : List Byte),
    (State.iodBytes n s pa bs).Sound ↔ s.Sound := by
  induction n with
  | zero => exact fun _ _ _ => Iff.rfl
  | succ n ih =>
    intro s pa bs
    unfold State.iodBytes
    split
    · rfl
    · exact (ih _ _ _).trans (s.sound_iodStore _ _ _)

theorem State.sound_reset : State.reset.Sound := ⟨by decide, by decide, by decide⟩

@[simp] theorem State.sound_powerCycle (s : State) : s.powerCycle.Sound := State.sound_reset

@[simp] theorem State.sound_recovery (s : State) (err : Nat) : (s.recovery err).Sound ↔ s.Sound := Iff.rfl

@[simp] theorem State.sound_tryChan (s : State) (c : Nat) : (s.tryChan c).Sound ↔ s.Sound := by
  unfold State.tryChan
  simp

@[simp] theorem State.sound_enterStandby (s : State) : s.enterStandby.Sound ↔ s.Sound := by
  unfold State.enterStandby
  simp

@[simp] theorem State.sound_enterSleep (s : State) : s.enterSleep.Sound ↔ s.Sound := by
  unfold State.enterSleep
  simp

@[simp] theorem State.sound_ringLock (s : State) (c : Nat) (locked : Bool) : (s.ringLock c locked).Sound ↔ s.Sound := by
  unfold State.ringLock
  dsimp only
  (repeat' split) <;> simp

@[simp] theorem State.sound_leaveLoop (s : State) (id : Nat) (m : SliceMask) (pc : VAddr) :
    (s.leaveLoop id m pc).Sound ↔ s.Sound := Iff.rfl

@[simp] theorem State.sound_beginIssue (s : State) (id : Nat) (m : SliceMask) : (s.beginIssue id m).Sound ↔ s.Sound := by
  unfold State.beginIssue
  simp

@[simp] theorem State.sound_holdIssue (s : State) (id : Nat) : (s.holdIssue id).Sound ↔ s.Sound := by
  unfold State.holdIssue
  split <;> simp

@[simp] theorem State.sound_endIssue (s t : State) (id : Nat) (m : SliceMask) : (s.endIssue t id m).Sound ↔ t.Sound := by
  unfold State.endIssue
  dsimp only
  (repeat' split) <;> simp

@[simp] theorem State.sound_waits (s : State) (id : Nat) (ms : List SliceMask) : (s.waits id ms).Sound ↔ s.Sound := by
  unfold State.waits
  refine State.sound_foldl (fun v a => ?_) _
  (repeat' split) <;> simp

@[simp] theorem State.sound_surveyGang (s : State) (id : Nat) (g : Gang) : (s.surveyGang id g).Sound ↔ s.Sound := by
  unfold State.surveyGang
  simp

@[simp] theorem State.sound_survey (s : State) : s.survey.Sound ↔ s.Sound := by
  unfold State.survey
  simp

@[simp] theorem State.sound_settleTokens (s : State) : s.settleTokens.Sound ↔ s.Sound := by
  unfold State.settleTokens
  simp

@[simp] theorem Ctx.sound_again (c : Ctx) : c.again.Sound ↔ c.s.Sound := by
  unfold Ctx.again
  simp

@[simp] theorem Ctx.sound_goOn (c : Ctx) (s : State) : (c.goOn s).Sound ↔ s.Sound := by
  unfold Ctx.goOn
  simp

@[simp] theorem Ctx.sound_sendReturns (c : Ctx) (x m : Nat) (v : DWord) : (c.sendReturns x m v).Sound ↔ c.s.Sound := by
  unfold Ctx.sendReturns
  split <;> simp

@[simp] theorem Ctx.sound_recvReturns (c : Ctx) (d m : Nat) : (c.recvReturns d m).Sound ↔ c.s.Sound := by
  unfold Ctx.recvReturns
  split <;> simp

@[simp] theorem Ctx.sound_faultQueued (c : Ctx) (va : Nat) (lanes : LaneMask) :
    (c.faultQueued va lanes).Sound ↔ c.s.Sound := by
  unfold Ctx.faultQueued
  simp

@[simp] theorem Ctx.sound_launchReturns (c : Ctx) (q : Nat) (bs : List Byte) (hc : c.s.Sound) :
    (c.launchReturns q bs).Sound := by
  unfold Ctx.launchReturns
  dsimp only
  split
  · exact hc
  · split
    · simp [hc]
    · exact State.sound_writing _ _ _ _ _ _ hc (fun v hv => Ctx.sound_post _ _ _ _ hv)

@[simp] theorem Ctx.sound_unpark (c : Ctx) (x0 : Park) (hc : c.s.Sound) : (c.unpark x0).Sound := by
  unfold Ctx.unpark
  (repeat' split) <;> simp [hc]

@[simp] theorem State.sound_settleGroup (s : State) (id : Nat) (m : SliceMask) (h : s.Sound) :
    (s.settleGroup id m).Sound := by
  unfold State.settleGroup
  (repeat' split) <;> simp [h]

@[simp] theorem State.sound_settleGroups (s : State) (h : s.Sound) : s.settleGroups.Sound := by
  unfold State.settleGroups
  exact State.Sound.foldl h _ (fun v e hv => v.sound_settleGroup _ _ hv)

@[simp] theorem State.sound_after {s : State} {f : State → Host.Outcome State Fault Refusal} (h : s.Sound) (hf : SoundAnswer (f s)) :
    (s.after f).Sound := by
  unfold State.after
  split
  · next t ht => exact hf t ht
  · exact h

@[simp] theorem State.sound_settlePower (s : State) : s.settlePower.Sound ↔ s.Sound := by
  unfold State.settlePower
  simp

@[simp] theorem State.sound_settleBooked (s : State) : s.settleBooked.Sound ↔ s.Sound := Iff.rfl

@[simp] theorem State.sound_settleComms (s : State) (h : s.Sound) : s.settleComms.Sound := by
  unfold State.settleComms
  exact State.Sound.foldl h _ (fun v p hv => State.Sound.foldl hv _ (fun u c hu => by simp [hu]))

@[simp] theorem State.sound_settleSaves (s : State) : s.settleSaves.Sound ↔ s.Sound := by
  unfold State.settleSaves
  simp

@[simp] theorem State.sound_modGangs (s : State) (f : Gang → Gang) : (s.modGangs f).Sound ↔ s.Sound := by
  unfold State.modGangs
  simp

@[simp] theorem State.sound_clockOn (s : State) (n : Nat) : (s.clockOn n).Sound ↔ s.Sound := by
  unfold State.clockOn
  simp

@[simp] theorem State.sound_deadlinesFall (s : State) (n : Nat) : (s.deadlinesFall n).Sound ↔ s.Sound := by
  unfold State.deadlinesFall
  simp

@[simp] theorem State.sound_flipBarrier (s : State) (team b : Nat) (x : Barrier) :
    (s.flipBarrier team b x).Sound ↔ s.Sound := by
  unfold State.flipBarrier
  simp

@[simp] theorem State.sound_flipComplete (s : State) (team : Nat) (t : Team) : (s.flipComplete team t).Sound ↔ s.Sound := by
  unfold State.flipComplete
  simp

@[simp] theorem State.sound_updateSaved (s : State) (h : s.Sound) : s.updateSaved.Sound := by
  unfold State.updateSaved
  refine State.Sound.foldl h _ (fun v a hv => ?_)
  split
  · simp +contextual [hv]
  · exact hv

@[simp] theorem State.sound_updateBarriers (s : State) (h : s.Sound) : s.updateBarriers.Sound := by
  unfold State.updateBarriers
  simp [h]

@[simp] theorem State.sound_barrierCycle (s : State) (h : s.Sound) : s.barrierCycle.Sound := by
  unfold State.barrierCycle
  simp [h]

@[simp] theorem State.sound_padWrite (s : State) (team core off size v : Nat) :
    (s.padWrite team core off size v).Sound ↔ s.Sound := by
  unfold State.padWrite
  simp

@[simp] theorem State.sound_performPad (s : State) (r : PadReq) : (s.performPad r).Sound ↔ s.Sound := by
  unfold State.performPad
  dsimp only
  (repeat' split) <;> simp

@[simp] theorem State.sound_askRefresh (s : State) (modid : Nat) : (s.askRefresh modid).Sound ↔ s.Sound := Iff.rfl

@[simp] theorem State.sound_hostRegister (s : State) (src : Source) (part addr : Nat) (h : s.Sound) :
    (s.hostRegister src part addr).Sound := by
  unfold State.hostRegister
  simp [h]

end Sys2Proof.Machine
end

section
/-! PROOFS. What words and events answer, told by their parts (R2, R472). -/

namespace Sys2Proof.Machine

/-- A change of the house that leaves its power states. -/
theorem State.Sound.house {s : State} {x : House} (h : s.Sound) (hc : x.cur = s.house.cur) (he : x.entering = s.house.entering) :
    State.Sound { s with house := x } := by
  obtain ⟨hv, hcur, hent⟩ := h
  exact ⟨hv, fun e => hcur (hc ▸ e), fun e => hent (he ▸ e)⟩

theorem soundAnswer_withIssue {s : State} {f : Ctx → Host.Outcome State Fault Refusal} (h : s.Sound)
    (hf : ∀ c : Ctx, c.s.Sound → SoundAnswer (f c)) : SoundAnswer (withIssue s f) := by
  unfold withIssue
  split
  · next c hc => exact hf c (by rwa [State.issuing_state hc])
  · exact soundAnswer_refused

@[simp] theorem Ctx.soundAnswer_run {c : Ctx} {stop : Option Stop} {effect : State} (hc : c.s.Sound) (he : effect.Sound) :
    SoundAnswer (c.run stop effect) := by
  unfold Ctx.run
  split <;> simp [hc, he]

@[simp] theorem soundAnswer_whenever {p : Bool} {s effect : State} (h : s.Sound) (he : effect.Sound) :
    SoundAnswer (whenever p s effect) := by
  unfold whenever
  simp [h, he]

end Sys2Proof.Machine
end

section
/-! PROOFS. The words keep the sound forms (R2, R472). -/

namespace Sys2Proof.Machine

@[simp] theorem sound_execNop (s : State) (h : s.Sound) : SoundAnswer (execNop s) :=
  soundAnswer_withIssue h (fun c hc => by simp [hc])

@[simp] theorem sound_execMode (payload : BitVec 24) (s : State) (h : s.Sound) : SoundAnswer (execMode payload s) :=
  soundAnswer_withIssue h (fun c hc => by simp [hc])

@[simp] theorem sound_execBraAny (i : BitVec 24) (s : State) (h : s.Sound) : SoundAnswer (execBraAny i s) :=
  soundAnswer_withIssue h (fun c hc => by simp [hc])

@[simp] theorem sound_execBraAll (i : BitVec 24) (s : State) (h : s.Sound) : SoundAnswer (execBraAll i s) :=
  soundAnswer_withIssue h (fun c hc => by simp [hc])

@[simp] theorem sound_execBraz (i : BitVec 24) (s : State) (h : s.Sound) : SoundAnswer (execBraz i s) :=
  soundAnswer_withIssue h (fun c hc => by simp [hc])

@[simp] theorem sound_execBrx (a : RegField) (s : State) (h : s.Sound) : SoundAnswer (execBrx a s) :=
  soundAnswer_withIssue h (fun c hc => by simp [hc])

@[simp] theorem sound_execCall (i : BitVec 24) (s : State) (h : s.Sound) : SoundAnswer (execCall i s) :=
  soundAnswer_withIssue h (fun c hc => by simp [hc])

@[simp] theorem sound_execRet (s : State) (h : s.Sound) : SoundAnswer (execRet s) :=
  soundAnswer_withIssue h (fun c hc => by simp [hc])

@[simp] theorem sound_execExit (s : State) (h : s.Sound) : SoundAnswer (execExit s) :=
  soundAnswer_withIssue h (fun c hc => by simp [hc])

@[simp] theorem sound_execRegang (a : RegField) (s : State) (h : s.Sound) : SoundAnswer (execRegang a s) :=
  soundAnswer_withIssue h (fun c hc => by simp [hc])

@[simp] theorem sound_execYield (s : State) (h : s.Sound) : SoundAnswer (execYield s) :=
  soundAnswer_withIssue h (fun c hc => by simp [hc])

@[simp] theorem sound_execMand (a : PredField) (s : State) (h : s.Sound) : SoundAnswer (execMand a s) :=
  soundAnswer_withIssue h (fun c hc => by simp [hc])

@[simp] theorem sound_execMrestore (a : RegField) (s : State) (h : s.Sound) : SoundAnswer (execMrestore a s) :=
  soundAnswer_withIssue h (fun c hc => by simp [hc])

@[simp] theorem sound_execMsave (d : RegField) (s : State) (h : s.Sound) : SoundAnswer (execMsave d s) :=
  soundAnswer_withIssue h (fun c hc => by simp [hc])

@[simp] theorem sound_execMandn (a : PredField) (s : State) (h : s.Sound) : SoundAnswer (execMandn a s) :=
  soundAnswer_withIssue h (fun c hc => by simp [hc])

@[simp] theorem sound_execBrk (imm : BitVec 16) (s : State) (h : s.Sound) : SoundAnswer (execBrk imm s) :=
  soundAnswer_withIssue h (fun c hc => by simp [hc])

@[simp] theorem Ctx.sound_binInt (c : Ctx) (d a b : RegField) (f : Nat → Bool → Nat → Nat → Nat) (hc : c.s.Sound) :
    SoundAnswer (c.binInt d a b f) := by
  unfold Ctx.binInt
  simp [hc]

@[simp] theorem sound_execAdd (d a b : RegField) (s : State) (h : s.Sound) : SoundAnswer (execAdd d a b s) :=
  soundAnswer_withIssue h (fun c hc => by simp [hc])

@[simp] theorem sound_execSub (d a b : RegField) (s : State) (h : s.Sound) : SoundAnswer (execSub d a b s) :=
  soundAnswer_withIssue h (fun c hc => by simp [hc])

@[simp] theorem sound_execMul (d a b : RegField) (s : State) (h : s.Sound) : SoundAnswer (execMul d a b s) :=
  soundAnswer_withIssue h (fun c hc => by simp [hc])

@[simp] theorem sound_execMulh (d a b : RegField) (s : State) (h : s.Sound) : SoundAnswer (execMulh d a b s) :=
  soundAnswer_withIssue h (fun c hc => by simp [hc])

@[simp] theorem sound_execMad (d a b : RegField) (s : State) (h : s.Sound) : SoundAnswer (execMad d a b s) :=
  soundAnswer_withIssue h (fun c hc => by simp [hc])

@[simp] theorem sound_execAbsd (d a b : RegField) (s : State) (h : s.Sound) : SoundAnswer (execAbsd d a b s) :=
  soundAnswer_withIssue h (fun c hc => by simp [hc])

@[simp] theorem sound_execMin (d a b : RegField) (s : State) (h : s.Sound) : SoundAnswer (execMin d a b s) :=
  soundAnswer_withIssue h (fun c hc => by simp [hc])

@[simp] theorem sound_execMax (d a b : RegField) (s : State) (h : s.Sound) : SoundAnswer (execMax d a b s) :=
  soundAnswer_withIssue h (fun c hc => by simp [hc])

@[simp] theorem sound_execAnd (d a b : RegField) (s : State) (h : s.Sound) : SoundAnswer (execAnd d a b s) :=
  soundAnswer_withIssue h (fun c hc => by simp [hc])

@[simp] theorem sound_execOr (d a b : RegField) (s : State) (h : s.Sound) : SoundAnswer (execOr d a b s) :=
  soundAnswer_withIssue h (fun c hc => by simp [hc])

@[simp] theorem sound_execXor (d a b : RegField) (s : State) (h : s.Sound) : SoundAnswer (execXor d a b s) :=
  soundAnswer_withIssue h (fun c hc => by simp [hc])

@[simp] theorem sound_execAndn (d a b : RegField) (s : State) (h : s.Sound) : SoundAnswer (execAndn d a b s) :=
  soundAnswer_withIssue h (fun c hc => by simp [hc])

@[simp] theorem Ctx.sound_shiftInt (c : Ctx) (d a b : RegField) (f : Nat → Nat → Nat → Nat) (hc : c.s.Sound) :
    SoundAnswer (c.shiftInt d a b f) := by
  unfold Ctx.shiftInt
  simp [hc]

@[simp] theorem sound_execShl (d a b : RegField) (s : State) (h : s.Sound) : SoundAnswer (execShl d a b s) :=
  soundAnswer_withIssue h (fun c hc => by simp [hc])

@[simp] theorem sound_execShr (d a b : RegField) (s : State) (h : s.Sound) : SoundAnswer (execShr d a b s) :=
  soundAnswer_withIssue h (fun c hc => by simp [hc])

@[simp] theorem sound_execSar (d a b : RegField) (s : State) (h : s.Sound) : SoundAnswer (execSar d a b s) :=
  soundAnswer_withIssue h (fun c hc => by simp [hc])

@[simp] theorem sound_execRotl (d a b : RegField) (s : State) (h : s.Sound) : SoundAnswer (execRotl d a b s) :=
  soundAnswer_withIssue h (fun c hc => by simp [hc])

@[simp] theorem Ctx.sound_unInt (c : Ctx) (d a : RegField) (f : Nat → Bool → Nat → Nat) (hc : c.s.Sound) :
    SoundAnswer (c.unInt d a f) := by
  unfold Ctx.unInt
  simp [hc]

@[simp] theorem sound_execAddi (d a : RegField) (imm : ByteField) (s : State) (h : s.Sound) :
    SoundAnswer (execAddi d a imm s) := soundAnswer_withIssue h (fun c hc => by simp [hc])

@[simp] theorem sound_execShli (d a : RegField) (imm : ByteField) (s : State) (h : s.Sound) :
    SoundAnswer (execShli d a imm s) := soundAnswer_withIssue h (fun c hc => by simp [hc])

@[simp] theorem sound_execShri (d a : RegField) (imm : ByteField) (s : State) (h : s.Sound) :
    SoundAnswer (execShri d a imm s) := soundAnswer_withIssue h (fun c hc => by simp [hc])

@[simp] theorem sound_execSari (d a : RegField) (imm : ByteField) (s : State) (h : s.Sound) :
    SoundAnswer (execSari d a imm s) := soundAnswer_withIssue h (fun c hc => by simp [hc])

@[simp] theorem sound_execAndi (d a : RegField) (imm : ByteField) (s : State) (h : s.Sound) :
    SoundAnswer (execAndi d a imm s) := soundAnswer_withIssue h (fun c hc => by simp [hc])

@[simp] theorem sound_execOri (d a : RegField) (imm : ByteField) (s : State) (h : s.Sound) :
    SoundAnswer (execOri d a imm s) := soundAnswer_withIssue h (fun c hc => by simp [hc])

@[simp] theorem sound_execLi (d : RegField) (imm : BitVec 16) (s : State) (h : s.Sound) : SoundAnswer (execLi d imm s) :=
  soundAnswer_withIssue h (fun c hc => by simp [hc])

@[simp] theorem sound_execLih (d : RegField) (imm : BitVec 16) (s : State) (h : s.Sound) :
    SoundAnswer (execLih d imm s) := soundAnswer_withIssue h (fun c hc => by simp [hc])

@[simp] theorem sound_execClz (d a : RegField) (s : State) (h : s.Sound) : SoundAnswer (execClz d a s) :=
  soundAnswer_withIssue h (fun c hc => by simp [hc])

@[simp] theorem sound_execPopc (d a : RegField) (s : State) (h : s.Sound) : SoundAnswer (execPopc d a s) :=
  soundAnswer_withIssue h (fun c hc => by simp [hc])

@[simp] theorem sound_execBrev (d a : RegField) (s : State) (h : s.Sound) : SoundAnswer (execBrev d a s) :=
  soundAnswer_withIssue h (fun c hc => by simp [hc])

@[simp] theorem Ctx.sound_bitField (c : Ctx) (dRead : Bool) (d a b : RegField) (f : Nat → Nat → Nat → Nat → Nat → Nat)
    (hc : c.s.Sound) : SoundAnswer (c.bitField dRead d a b f) := by
  unfold Ctx.bitField
  simp [hc]

@[simp] theorem sound_execBfe (d a b : RegField) (s : State) (h : s.Sound) : SoundAnswer (execBfe d a b s) :=
  soundAnswer_withIssue h (fun c hc => by simp [hc])

@[simp] theorem sound_execBfi (d a b : RegField) (s : State) (h : s.Sound) : SoundAnswer (execBfi d a b s) :=
  soundAnswer_withIssue h (fun c hc => by simp [hc])

@[simp] theorem sound_execMov (d a : RegField) (s : State) (h : s.Sound) : SoundAnswer (execMov d a s) :=
  soundAnswer_withIssue h (fun c hc => by simp [hc])

@[simp] theorem sound_execNeg (d a : RegField) (s : State) (h : s.Sound) : SoundAnswer (execNeg d a s) :=
  soundAnswer_withIssue h (fun c hc => by simp [hc])

@[simp] theorem sound_execAbs (d a : RegField) (s : State) (h : s.Sound) : SoundAnswer (execAbs d a s) :=
  soundAnswer_withIssue h (fun c hc => by simp [hc])

@[simp] theorem Ctx.sound_compare (c : Ctx) (d : PredField) (a b : RegField) (onInt : Int → Int → Bool)
    (onVal : Val → Val → Bool) (unordered quiet : Bool) (hc : c.s.Sound) :
    SoundAnswer (c.compare d a b onInt onVal unordered quiet) := by
  unfold Ctx.compare
  simp [hc]

@[simp] theorem sound_execCmpEq (d : PredField) (a b : RegField) (s : State) (h : s.Sound) :
    SoundAnswer (execCmpEq d a b s) := soundAnswer_withIssue h (fun c hc => by simp [hc])

@[simp] theorem sound_execCmpNe (d : PredField) (a b : RegField) (s : State) (h : s.Sound) :
    SoundAnswer (execCmpNe d a b s) := soundAnswer_withIssue h (fun c hc => by simp [hc])

@[simp] theorem sound_execCmpLt (d : PredField) (a b : RegField) (s : State) (h : s.Sound) :
    SoundAnswer (execCmpLt d a b s) := soundAnswer_withIssue h (fun c hc => by simp [hc])

@[simp] theorem sound_execCmpLe (d : PredField) (a b : RegField) (s : State) (h : s.Sound) :
    SoundAnswer (execCmpLe d a b s) := soundAnswer_withIssue h (fun c hc => by simp [hc])

@[simp] theorem sound_execCmpGt (d : PredField) (a b : RegField) (s : State) (h : s.Sound) :
    SoundAnswer (execCmpGt d a b s) := soundAnswer_withIssue h (fun c hc => by simp [hc])

@[simp] theorem sound_execCmpGe (d : PredField) (a b : RegField) (s : State) (h : s.Sound) :
    SoundAnswer (execCmpGe d a b s) := soundAnswer_withIssue h (fun c hc => by simp [hc])

@[simp] theorem sound_execCmpUn (d : PredField) (a b : RegField) (s : State) (h : s.Sound) :
    SoundAnswer (execCmpUn d a b s) := soundAnswer_withIssue h (fun c hc => by simp [hc])

@[simp] theorem sound_execCmpi (cond : BitVec 2) (d : PredField) (a : RegField) (imm : ByteField) (s : State)
    (h : s.Sound) : SoundAnswer (execCmpi cond d a imm s) := soundAnswer_withIssue h (fun c hc => by simp [hc])

@[simp] theorem sound_execPand (d a b : PredField) (s : State) (h : s.Sound) : SoundAnswer (execPand d a b s) :=
  soundAnswer_withIssue h (fun c hc => by simp [hc])

@[simp] theorem sound_execPor (d a b : PredField) (s : State) (h : s.Sound) : SoundAnswer (execPor d a b s) :=
  soundAnswer_withIssue h (fun c hc => by simp [hc])

@[simp] theorem sound_execPxor (d a b : PredField) (s : State) (h : s.Sound) : SoundAnswer (execPxor d a b s) :=
  soundAnswer_withIssue h (fun c hc => by simp [hc])

@[simp] theorem sound_execPnot (d a : PredField) (s : State) (h : s.Sound) : SoundAnswer (execPnot d a s) :=
  soundAnswer_withIssue h (fun c hc => by simp [hc])

@[simp] theorem sound_execPmov (d a : PredField) (s : State) (h : s.Sound) : SoundAnswer (execPmov d a s) :=
  soundAnswer_withIssue h (fun c hc => by simp [hc])

@[simp] theorem sound_execPset (d : PredField) (code : ByteField) (s : State) (h : s.Sound) :
    SoundAnswer (execPset d code s) := soundAnswer_withIssue h (fun c hc => by simp [hc])

@[simp] theorem sound_execVote (d : RegField) (a : PredField) (code : ByteField) (s : State) (h : s.Sound) :
    SoundAnswer (execVote d a code s) := soundAnswer_withIssue h (fun c hc => by simp [hc])

@[simp] theorem sound_execPfrom (d : PredField) (a : RegField) (s : State) (h : s.Sound) :
    SoundAnswer (execPfrom d a s) := soundAnswer_withIssue h (fun c hc => by simp [hc])

@[simp] theorem Ctx.sound_floatOp (c : Ctx) (typeOk : Nat → Bool) (lat : Nat) (rounds dRead hasB : Bool)
    (d a b : RegField) (f : Fmt → RndEnv → Nat → Nat → Nat → Nat × Flags) (hc : c.s.Sound) :
    SoundAnswer (c.floatOp typeOk lat rounds dRead hasB d a b f) := by
  unfold Ctx.floatOp
  simp [hc]

@[simp] theorem sound_execFadd (d a b : RegField) (s : State) (h : s.Sound) : SoundAnswer (execFadd d a b s) :=
  soundAnswer_withIssue h (fun c hc => by simp [hc])

@[simp] theorem sound_execFsub (d a b : RegField) (s : State) (h : s.Sound) : SoundAnswer (execFsub d a b s) :=
  soundAnswer_withIssue h (fun c hc => by simp [hc])

@[simp] theorem sound_execFmul (d a b : RegField) (s : State) (h : s.Sound) : SoundAnswer (execFmul d a b s) :=
  soundAnswer_withIssue h (fun c hc => by simp [hc])

@[simp] theorem sound_execFma (d a b : RegField) (s : State) (h : s.Sound) : SoundAnswer (execFma d a b s) :=
  soundAnswer_withIssue h (fun c hc => by simp [hc])

@[simp] theorem sound_execFms (d a b : RegField) (s : State) (h : s.Sound) : SoundAnswer (execFms d a b s) :=
  soundAnswer_withIssue h (fun c hc => by simp [hc])

@[simp] theorem sound_execFmin (d a b : RegField) (s : State) (h : s.Sound) : SoundAnswer (execFmin d a b s) :=
  soundAnswer_withIssue h (fun c hc => by simp [hc])

@[simp] theorem sound_execFmax (d a b : RegField) (s : State) (h : s.Sound) : SoundAnswer (execFmax d a b s) :=
  soundAnswer_withIssue h (fun c hc => by simp [hc])

@[simp] theorem sound_execFminnm (d a b : RegField) (s : State) (h : s.Sound) : SoundAnswer (execFminnm d a b s) :=
  soundAnswer_withIssue h (fun c hc => by simp [hc])

@[simp] theorem sound_execFmaxnm (d a b : RegField) (s : State) (h : s.Sound) : SoundAnswer (execFmaxnm d a b s) :=
  soundAnswer_withIssue h (fun c hc => by simp [hc])

@[simp] theorem Ctx.sound_signOp (c : Ctx) (d a : RegField) (f : Bool → Bool) (hc : c.s.Sound) :
    SoundAnswer (c.signOp d a f) := by
  unfold Ctx.signOp
  simp [hc]

@[simp] theorem sound_execFabs (d a : RegField) (s : State) (h : s.Sound) : SoundAnswer (execFabs d a s) :=
  soundAnswer_withIssue h (fun c hc => by simp [hc])

@[simp] theorem sound_execFneg (d a : RegField) (s : State) (h : s.Sound) : SoundAnswer (execFneg d a s) :=
  soundAnswer_withIssue h (fun c hc => by simp [hc])

@[simp] theorem sound_execFrcp (d a : RegField) (s : State) (h : s.Sound) : SoundAnswer (execFrcp d a s) :=
  soundAnswer_withIssue h (fun c hc => by simp [hc])

@[simp] theorem sound_execFrsq (d a : RegField) (s : State) (h : s.Sound) : SoundAnswer (execFrsq d a s) :=
  soundAnswer_withIssue h (fun c hc => by simp [hc])

@[simp] theorem sound_execFsqrt (d a : RegField) (s : State) (h : s.Sound) : SoundAnswer (execFsqrt d a s) :=
  soundAnswer_withIssue h (fun c hc => by simp [hc])

@[simp] theorem sound_execFdiv (d a b : RegField) (s : State) (h : s.Sound) : SoundAnswer (execFdiv d a b s) :=
  soundAnswer_withIssue h (fun c hc => by simp [hc])

@[simp] theorem sound_execFexp2 (d a : RegField) (s : State) (h : s.Sound) : SoundAnswer (execFexp2 d a s) :=
  soundAnswer_withIssue h (fun c hc => by simp [hc])

@[simp] theorem sound_execFlog2 (d a : RegField) (s : State) (h : s.Sound) : SoundAnswer (execFlog2 d a s) :=
  soundAnswer_withIssue h (fun c hc => by simp [hc])

@[simp] theorem sound_execFsin (d a : RegField) (s : State) (h : s.Sound) : SoundAnswer (execFsin d a s) :=
  soundAnswer_withIssue h (fun c hc => by simp [hc])

@[simp] theorem sound_execFcos (d a : RegField) (s : State) (h : s.Sound) : SoundAnswer (execFcos d a s) :=
  soundAnswer_withIssue h (fun c hc => by simp [hc])

@[simp] theorem sound_execFscale (d a b : RegField) (s : State) (h : s.Sound) : SoundAnswer (execFscale d a b s) :=
  soundAnswer_withIssue h (fun c hc => by simp [hc])

@[simp] theorem sound_execFrnd (d a : RegField) (s : State) (h : s.Sound) : SoundAnswer (execFrnd d a s) :=
  soundAnswer_withIssue h (fun c hc => by simp [hc])

@[simp] theorem sound_execFclass (d a : RegField) (s : State) (h : s.Sound) : SoundAnswer (execFclass d a s) :=
  soundAnswer_withIssue h (fun c hc => by simp [hc])

@[simp] theorem sound_execFtanh (d a : RegField) (s : State) (h : s.Sound) : SoundAnswer (execFtanh d a s) :=
  soundAnswer_withIssue h (fun c hc => by simp [hc])

@[simp] theorem sound_execFsigm (d a : RegField) (s : State) (h : s.Sound) : SoundAnswer (execFsigm d a s) :=
  soundAnswer_withIssue h (fun c hc => by simp [hc])

@[simp] theorem sound_execCvt (d a : RegField) (code : ByteField) (s : State) (h : s.Sound) :
    SoundAnswer (execCvt d a code s) := soundAnswer_withIssue h (fun c hc => by simp [hc])

@[simp] theorem sound_execCvtb (d a b : RegField) (s : State) (h : s.Sound) : SoundAnswer (execCvtb d a b s) :=
  soundAnswer_withIssue h (fun c hc => by simp [hc])

@[simp] theorem sound_execPack (d a b : RegField) (s : State) (h : s.Sound) : SoundAnswer (execPack d a b s) :=
  soundAnswer_withIssue h (fun c hc => by simp [hc])

@[simp] theorem sound_execUnpack (d a : RegField) (code : ByteField) (s : State) (h : s.Sound) :
    SoundAnswer (execUnpack d a code s) := soundAnswer_withIssue h (fun c hc => by simp [hc])

@[simp] theorem Ctx.sound_dot (c : Ctx) (typeOk : Nat → Bool) (d a b : RegField) (hc : c.s.Sound) :
    SoundAnswer (c.dot typeOk d a b) := by
  unfold Ctx.dot
  simp [hc]

@[simp] theorem sound_execDot2 (d a b : RegField) (s : State) (h : s.Sound) : SoundAnswer (execDot2 d a b s) :=
  soundAnswer_withIssue h (fun c hc => by simp [hc])

@[simp] theorem sound_execDot4 (d a b : RegField) (s : State) (h : s.Sound) : SoundAnswer (execDot4 d a b s) :=
  soundAnswer_withIssue h (fun c hc => by simp [hc])

@[simp] theorem sound_execFcmpx (d a b : RegField) (s : State) (h : s.Sound) : SoundAnswer (execFcmpx d a b s) :=
  soundAnswer_withIssue h (fun c hc => by simp [hc])

@[simp] theorem Ctx.sound_laneMove (c : Ctx) (bScalar : Bool) (d a b : RegField) (j : Nat → Nat → Nat)
    (hc : c.s.Sound) : SoundAnswer (c.laneMove bScalar d a b j) := by
  unfold Ctx.laneMove
  simp [hc]

@[simp] theorem sound_execPerm (d a b : RegField) (s : State) (h : s.Sound) : SoundAnswer (execPerm d a b s) :=
  soundAnswer_withIssue h (fun c hc => by simp [hc])

@[simp] theorem sound_execShflXor (d a b : RegField) (s : State) (h : s.Sound) : SoundAnswer (execShflXor d a b s) :=
  soundAnswer_withIssue h (fun c hc => by simp [hc])

@[simp] theorem sound_execShflUp (d a b : RegField) (s : State) (h : s.Sound) : SoundAnswer (execShflUp d a b s) :=
  soundAnswer_withIssue h (fun c hc => by simp [hc])

@[simp] theorem sound_execShflDown (d a b : RegField) (s : State) (h : s.Sound) : SoundAnswer (execShflDown d a b s) :=
  soundAnswer_withIssue h (fun c hc => by simp [hc])

@[simp] theorem sound_execGred (d a : RegField) (code : ByteField) (s : State) (h : s.Sound) :
    SoundAnswer (execGred d a code s) := soundAnswer_withIssue h (fun c hc => by simp [hc])

@[simp] theorem sound_execGscan (d a : RegField) (code : ByteField) (s : State) (h : s.Sound) :
    SoundAnswer (execGscan d a code s) := soundAnswer_withIssue h (fun c hc => by simp [hc])

@[simp] theorem sound_execBcast (d a b : RegField) (s : State) (h : s.Sound) : SoundAnswer (execBcast d a b s) :=
  soundAnswer_withIssue h (fun c hc => by simp [hc])

@[simp] theorem sound_execLd (d a : RegField) (imm : ByteField) (s : State) (h : s.Sound) :
    SoundAnswer (execLd d a imm s) := soundAnswer_withIssue h (fun c hc => by simp [hc])

@[simp] theorem sound_execSt (d a : RegField) (imm : ByteField) (s : State) (h : s.Sound) :
    SoundAnswer (execSt d a imm s) := soundAnswer_withIssue h (fun c hc => by simp [hc])

@[simp] theorem sound_execLdv (d a b : RegField) (s : State) (h : s.Sound) : SoundAnswer (execLdv d a b s) :=
  soundAnswer_withIssue h (fun c hc => by simp [hc])

@[simp] theorem sound_execStv (d a b : RegField) (s : State) (h : s.Sound) : SoundAnswer (execStv d a b s) :=
  soundAnswer_withIssue h (fun c hc => by simp [hc])

@[simp] theorem sound_execLr (d a b : RegField) (s : State) (h : s.Sound) : SoundAnswer (execLr d a b s) :=
  soundAnswer_withIssue h (fun c hc => by simp [hc])

@[simp] theorem sound_execSc (d a b : RegField) (s : State) (h : s.Sound) : SoundAnswer (execSc d a b s) := by
  unfold execSc
  refine soundAnswer_withIssue h (fun c hc => Ctx.soundAnswer_run hc ?_)
  simp [hc]

@[simp] theorem Ctx.sound_atom (c : Ctx) (op : Nat) (d a : RegField) (b : ByteField) (hc : c.s.Sound) :
    SoundAnswer (c.atom op d a b) := by
  unfold Ctx.atom
  simp [hc]

@[simp] theorem sound_execAtomAdd (d a : RegField) (b : ByteField) (s : State) (h : s.Sound) :
    SoundAnswer (execAtomAdd d a b s) := soundAnswer_withIssue h (fun c hc => by simp [hc])

@[simp] theorem sound_execAtomMin (d a : RegField) (b : ByteField) (s : State) (h : s.Sound) :
    SoundAnswer (execAtomMin d a b s) := soundAnswer_withIssue h (fun c hc => by simp [hc])

@[simp] theorem sound_execAtomMax (d a : RegField) (b : ByteField) (s : State) (h : s.Sound) :
    SoundAnswer (execAtomMax d a b s) := soundAnswer_withIssue h (fun c hc => by simp [hc])

@[simp] theorem sound_execAtomAnd (d a : RegField) (b : ByteField) (s : State) (h : s.Sound) :
    SoundAnswer (execAtomAnd d a b s) := soundAnswer_withIssue h (fun c hc => by simp [hc])

@[simp] theorem sound_execAtomOr (d a : RegField) (b : ByteField) (s : State) (h : s.Sound) :
    SoundAnswer (execAtomOr d a b s) := soundAnswer_withIssue h (fun c hc => by simp [hc])

@[simp] theorem sound_execAtomXor (d a : RegField) (b : ByteField) (s : State) (h : s.Sound) :
    SoundAnswer (execAtomXor d a b s) := soundAnswer_withIssue h (fun c hc => by simp [hc])

@[simp] theorem sound_execAtomExch (d a : RegField) (b : ByteField) (s : State) (h : s.Sound) :
    SoundAnswer (execAtomExch d a b s) := soundAnswer_withIssue h (fun c hc => by simp [hc])

@[simp] theorem sound_execAtomCas (d a : RegField) (b : ByteField) (s : State) (h : s.Sound) :
    SoundAnswer (execAtomCas d a b s) := soundAnswer_withIssue h (fun c hc => by simp [hc])

@[simp] theorem sound_execAtomFadd (d a : RegField) (b : ByteField) (s : State) (h : s.Sound) :
    SoundAnswer (execAtomFadd d a b s) := soundAnswer_withIssue h (fun c hc => by simp [hc])

@[simp] theorem sound_execFence (code : ByteField) (s : State) (h : s.Sound) : SoundAnswer (execFence code s) :=
  soundAnswer_withIssue h (fun c hc => by simp [hc])

@[simp] theorem sound_execLdt (d a b : RegField) (s : State) (h : s.Sound) : SoundAnswer (execLdt d a b s) :=
  soundAnswer_withIssue h (fun c hc => by simp [h, hc])

@[simp] theorem sound_execTagset (d a b : RegField) (s : State) (h : s.Sound) : SoundAnswer (execTagset d a b s) :=
  soundAnswer_withIssue h (fun c hc => by simp [hc])

@[simp] theorem sound_execTaginv (a : RegField) (s : State) (h : s.Sound) : SoundAnswer (execTaginv a s) :=
  soundAnswer_withIssue h (fun c hc => by simp [hc])

@[simp] theorem sound_execLdvs (d a b : RegField) (s : State) (h : s.Sound) : SoundAnswer (execLdvs d a b s) :=
  soundAnswer_withIssue h (fun c hc => by simp [hc])

@[simp] theorem sound_execStvs (d a b : RegField) (s : State) (h : s.Sound) : SoundAnswer (execStvs d a b s) :=
  soundAnswer_withIssue h (fun c hc => by simp [hc])

@[simp] theorem sound_execLdp (d a b : RegField) (s : State) (h : s.Sound) : SoundAnswer (execLdp d a b s) :=
  soundAnswer_withIssue h (fun c hc => by simp [hc])

@[simp] theorem sound_execStp (d a b : RegField) (s : State) (h : s.Sound) : SoundAnswer (execStp d a b s) :=
  soundAnswer_withIssue h (fun c hc => by simp [hc])

@[simp] theorem sound_execFget (a : RegField) (t : ByteField) (s : State) (h : s.Sound) : SoundAnswer (execFget a t s) := by
  unfold execFget
  refine soundAnswer_withIssue h (fun c hc => Ctx.soundAnswer_run hc (Ctx.sound_onceDo _ _ hc ?_))
  split <;> simp [h, hc]

@[simp] theorem sound_execFput (a : RegField) (t : ByteField) (s : State) (h : s.Sound) : SoundAnswer (execFput a t s) := by
  unfold execFput
  refine soundAnswer_withIssue h (fun c hc => Ctx.soundAnswer_run hc ?_)
  simp [h, hc]

@[simp] theorem sound_execFcopy (a : RegField) (t : ByteField) (s : State) (h : s.Sound) :
    SoundAnswer (execFcopy a t s) := by
  unfold execFcopy
  refine soundAnswer_withIssue h (fun c hc => Ctx.soundAnswer_run hc ?_)
  simp [h, hc]

@[simp] theorem sound_execFred (a : RegField) (t : ByteField) (s : State) (h : s.Sound) : SoundAnswer (execFred a t s) := by
  unfold execFred
  refine soundAnswer_withIssue h (fun c hc => Ctx.soundAnswer_run hc ?_)
  simp [h, hc]

@[simp] theorem sound_execFfill (a : RegField) (t : ByteField) (s : State) (h : s.Sound) :
    SoundAnswer (execFfill a t s) := by
  unfold execFfill
  refine soundAnswer_withIssue h (fun c hc => Ctx.soundAnswer_run hc ?_)
  simp [h, hc]

@[simp] theorem sound_execFwalk (a : RegField) (t : ByteField) (s : State) (h : s.Sound) :
    SoundAnswer (execFwalk a t s) := by
  unfold execFwalk
  refine soundAnswer_withIssue h (fun c hc => Ctx.soundAnswer_run hc ?_)
  simp [h, hc]

@[simp] theorem sound_execFrule (a : RegField) (t : ByteField) (s : State) (h : s.Sound) :
    SoundAnswer (execFrule a t s) := by
  unfold execFrule
  refine soundAnswer_withIssue h (fun c hc => Ctx.soundAnswer_run hc (Ctx.sound_onceDo _ _ hc ?_))
  split <;> simp [h, hc]

@[simp] theorem sound_execFmcast (a : RegField) (t : ByteField) (s : State) (h : s.Sound) :
    SoundAnswer (execFmcast a t s) := by
  unfold execFmcast
  refine soundAnswer_withIssue h (fun c hc => Ctx.soundAnswer_run hc ?_)
  simp [h, hc]

@[simp] theorem sound_execMcrecv (a : RegField) (t : ByteField) (s : State) (h : s.Sound) :
    SoundAnswer (execMcrecv a t s) := by
  unfold execMcrecv
  refine soundAnswer_withIssue h (fun c hc => Ctx.soundAnswer_run hc ?_)
  simp [h, hc]

@[simp] theorem Ctx.sound_tagwait (c : Ctx) (all : Bool) (a : RegField) (hc : c.s.Sound) :
    SoundAnswer (c.tagwait all a) := by
  unfold Ctx.tagwait
  dsimp only
  (repeat' split) <;> simp [hc]

@[simp] theorem sound_execTagwaitAny (a : RegField) (s : State) (h : s.Sound) : SoundAnswer (execTagwaitAny a s) :=
  soundAnswer_withIssue h (fun c hc => by simp [hc])

@[simp] theorem sound_execTagwaitAll (a : RegField) (s : State) (h : s.Sound) : SoundAnswer (execTagwaitAll a s) :=
  soundAnswer_withIssue h (fun c hc => by simp [hc])

@[simp] theorem sound_execTagff (d a : RegField) (s : State) (h : s.Sound) : SoundAnswer (execTagff d a s) := by
  unfold execTagff
  refine soundAnswer_withIssue h (fun c hc => Ctx.soundAnswer_run hc (Ctx.sound_onceDo _ _ hc ?_))
  (repeat' split) <;> simp [hc]

@[simp] theorem sound_execTagrel (a : RegField) (s : State) (h : s.Sound) : SoundAnswer (execTagrel a s) := by
  unfold execTagrel
  refine soundAnswer_withIssue h (fun c hc => Ctx.soundAnswer_run hc (Ctx.sound_onceDo _ _ hc ?_))
  split <;> simp [h, hc]

@[simp] theorem sound_execChunkt (d a b : RegField) (s : State) (h : s.Sound) : SoundAnswer (execChunkt d a b s) :=
  soundAnswer_withIssue h (fun c hc => by simp [hc])

@[simp] theorem sound_execWinset (a b : RegField) (s : State) (h : s.Sound) : SoundAnswer (execWinset a b s) := by
  unfold execWinset
  refine soundAnswer_withIssue h (fun c hc => Ctx.soundAnswer_run hc (Ctx.sound_onceDo _ _ hc ?_))
  split <;> simp [hc]

@[simp] theorem sound_execFstat (d a : RegField) (code : ByteField) (s : State) (h : s.Sound) :
    SoundAnswer (execFstat d a code s) := soundAnswer_withIssue h (fun c hc => by simp [hc])

@[simp] theorem Ctx.sound_remote (c : Ctx) (k : RemoteKind) (d a b : RegField) (hc : c.s.Sound) :
    SoundAnswer (c.remote k d a b) := by
  unfold Ctx.remote
  simp [hc]

@[simp] theorem sound_execRld (d a b : RegField) (s : State) (h : s.Sound) : SoundAnswer (execRld d a b s) :=
  soundAnswer_withIssue h (fun c hc => by simp [hc])

@[simp] theorem sound_execRst (d a b : RegField) (s : State) (h : s.Sound) : SoundAnswer (execRst d a b s) :=
  soundAnswer_withIssue h (fun c hc => by simp [hc])

@[simp] theorem sound_execRatomAdd (d a b : RegField) (s : State) (h : s.Sound) : SoundAnswer (execRatomAdd d a b s) :=
  soundAnswer_withIssue h (fun c hc => by simp [hc])

@[simp] theorem sound_execRatomCas (d a b : RegField) (s : State) (h : s.Sound) : SoundAnswer (execRatomCas d a b s) :=
  soundAnswer_withIssue h (fun c hc => by simp [hc])

@[simp] theorem sound_execRatomFadd (d a b : RegField) (s : State) (h : s.Sound) : SoundAnswer (execRatomFadd d a b s) :=
  soundAnswer_withIssue h (fun c hc => by simp [hc])

@[simp] theorem sound_execRfence (code : ByteField) (s : State) (h : s.Sound) : SoundAnswer (execRfence code s) :=
  soundAnswer_withIssue h (fun c hc => by simp [hc])

@[simp] theorem sound_execColl (a : RegField) (t : ByteField) (s : State) (h : s.Sound) : SoundAnswer (execColl a t s) := by
  unfold execColl
  refine soundAnswer_withIssue h (fun c hc => Ctx.soundAnswer_run hc (Ctx.sound_onceDo _ _ hc ?_))
  split <;> simp [hc]

@[simp] theorem sound_execCollq (d a : RegField) (s : State) (h : s.Sound) : SoundAnswer (execCollq d a s) :=
  soundAnswer_withIssue h (fun c hc => by simp [hc])

@[simp] theorem sound_execQsend (a : RegField) (t : ByteField) (s : State) (h : s.Sound) :
    SoundAnswer (execQsend a t s) := by
  unfold execQsend
  refine soundAnswer_withIssue h (fun c hc => Ctx.soundAnswer_run hc (Ctx.sound_onceDo _ _ hc ?_))
  (repeat' split) <;> simp [hc]

@[simp] theorem sound_execQstat (d a : RegField) (s : State) (h : s.Sound) : SoundAnswer (execQstat d a s) :=
  soundAnswer_withIssue h (fun c hc => by simp [hc])

@[simp] theorem sound_execCslot (d : RegField) (s : State) (h : s.Sound) : SoundAnswer (execCslot d s) :=
  soundAnswer_withIssue h (fun c hc => by simp [h, hc])

@[simp] theorem sound_execMclaim (a : RegField) (s : State) (h : s.Sound) : SoundAnswer (execMclaim a s) := by
  unfold execMclaim
  refine soundAnswer_withIssue h (fun c hc => Ctx.soundAnswer_run hc ?_)
  simp [h, hc]

@[simp] theorem sound_execMrel (a : RegField) (s : State) (h : s.Sound) : SoundAnswer (execMrel a s) := by
  unfold execMrel
  refine soundAnswer_withIssue h (fun c hc => Ctx.soundAnswer_run hc ?_)
  simp [h, hc]

@[simp] theorem sound_execMload (d a b : RegField) (s : State) (h : s.Sound) : SoundAnswer (execMload d a b s) := by
  unfold execMload
  refine soundAnswer_withIssue h (fun c hc => Ctx.soundAnswer_run hc ?_)
  simp [h, hc]

@[simp] theorem Ctx.sound_mma (c : Ctx) (mmag : Bool) (a : RegField) (k : ByteField) (hc : c.s.Sound) :
    SoundAnswer (c.mma mmag a k) := by
  unfold Ctx.mma
  exact Ctx.soundAnswer_run hc (Ctx.sound_onceDo _ _ hc (by simp [hc]))

@[simp] theorem sound_execMma (a : RegField) (k : ByteField) (s : State) (h : s.Sound) : SoundAnswer (execMma a k s) :=
  soundAnswer_withIssue h (fun c hc => by simp [hc])

@[simp] theorem sound_execMmag (a : RegField) (k : ByteField) (s : State) (h : s.Sound) : SoundAnswer (execMmag a k s) :=
  soundAnswer_withIssue h (fun c hc => by simp [hc])

@[simp] theorem sound_execMzero (a : RegField) (s : State) (h : s.Sound) : SoundAnswer (execMzero a s) := by
  unfold execMzero
  refine soundAnswer_withIssue h (fun c hc => Ctx.soundAnswer_run hc ?_)
  simp [h, hc]

@[simp] theorem sound_execMrd (d a b : RegField) (s : State) (h : s.Sound) : SoundAnswer (execMrd d a b s) :=
  soundAnswer_withIssue h (fun c hc => by simp [h, hc])

@[simp] theorem sound_execMwr (d a b : RegField) (s : State) (h : s.Sound) : SoundAnswer (execMwr d a b s) :=
  soundAnswer_withIssue h (fun c hc => by simp [h, hc])

@[simp] theorem sound_execMrowscl (d a : RegField) (code : ByteField) (s : State) (h : s.Sound) :
    SoundAnswer (execMrowscl d a code s) := soundAnswer_withIssue h (fun c hc => by simp [h, hc])

@[simp] theorem sound_execMcvt (d a : RegField) (code : ByteField) (s : State) (h : s.Sound) :
    SoundAnswer (execMcvt d a code s) := by
  unfold execMcvt
  refine soundAnswer_withIssue h (fun c hc => Ctx.soundAnswer_run hc ?_)
  simp [hc]

@[simp] theorem sound_execMdrain (d a : RegField) (code : ByteField) (s : State) (h : s.Sound) :
    SoundAnswer (execMdrain d a code s) := by
  unfold execMdrain
  refine soundAnswer_withIssue h (fun c hc => Ctx.soundAnswer_run hc (Ctx.sound_onceDo _ _ hc ?_))
  split <;> simp [hc]

@[simp] theorem sound_execMfill (d a b : RegField) (s : State) (h : s.Sound) : SoundAnswer (execMfill d a b s) := by
  unfold execMfill
  refine soundAnswer_withIssue h (fun c hc => Ctx.soundAnswer_run hc (Ctx.sound_onceDo _ _ hc ?_))
  split <;> simp [h, hc]

@[simp] theorem sound_execMstat (d a : RegField) (s : State) (h : s.Sound) : SoundAnswer (execMstat d a s) :=
  soundAnswer_withIssue h (fun c hc => by simp [h, hc])

@[simp] theorem sound_execMrowred (d a : RegField) (code : ByteField) (s : State) (h : s.Sound) :
    SoundAnswer (execMrowred d a code s) := soundAnswer_withIssue h (fun c hc => by simp [h, hc])

@[simp] theorem sound_execBarinit (n : ByteField) (a b : RegField) (s : State) (h : s.Sound) :
    SoundAnswer (execBarinit n a b s) := soundAnswer_withIssue h (fun c hc => by simp [hc])

@[simp] theorem sound_execBararr (n : ByteField) (a : RegField) (s : State) (h : s.Sound) :
    SoundAnswer (execBararr n a s) := soundAnswer_withIssue h (fun c hc => by simp [hc])

@[simp] theorem sound_execBarwait (n : ByteField) (a : RegField) (s : State) (h : s.Sound) :
    SoundAnswer (execBarwait n a s) := soundAnswer_withIssue h (fun c hc => by simp [h, hc])

@[simp] theorem sound_execBartest (d : RegField) (n : ByteField) (s : State) (h : s.Sound) :
    SoundAnswer (execBartest d n s) := soundAnswer_withIssue h (fun c hc => by simp [hc])

@[simp] theorem sound_execBarbytes (n : ByteField) (a : RegField) (s : State) (h : s.Sound) :
    SoundAnswer (execBarbytes n a s) := soundAnswer_withIssue h (fun c hc => by simp [hc])

@[simp] theorem sound_execWany (d a : RegField) (n : ByteField) (s : State) (h : s.Sound) :
    SoundAnswer (execWany d a n s) := by
  unfold execWany
  refine soundAnswer_withIssue h (fun c hc => Ctx.soundAnswer_run hc ?_)
  split <;> simp [h, hc]

@[simp] theorem sound_execEvmask (a : RegField) (s : State) (h : s.Sound) : SoundAnswer (execEvmask a s) :=
  soundAnswer_withIssue h (fun c hc => by simp [h, hc])

@[simp] theorem sound_execEvclr (a : RegField) (s : State) (h : s.Sound) : SoundAnswer (execEvclr a s) :=
  soundAnswer_withIssue h (fun c hc => by simp [h, hc])

@[simp] theorem sound_execEvget (d : RegField) (s : State) (h : s.Sound) : SoundAnswer (execEvget d s) :=
  soundAnswer_withIssue h (fun c hc => by simp [hc])

@[simp] theorem sound_execMbsend (n : ByteField) (a b : RegField) (s : State) (h : s.Sound) :
    SoundAnswer (execMbsend n a b s) := by
  unfold execMbsend
  refine soundAnswer_withIssue h (fun c hc => Ctx.soundAnswer_run hc (Ctx.sound_onceDo _ _ hc ?_))
  split <;> simp [hc]

@[simp] theorem sound_execMbrecv (d : RegField) (n : ByteField) (s : State) (h : s.Sound) :
    SoundAnswer (execMbrecv d n s) := by
  unfold execMbrecv
  refine soundAnswer_withIssue h (fun c hc => Ctx.soundAnswer_run hc (Ctx.sound_onceDo _ _ hc ?_))
  split <;> simp [h, hc]

@[simp] theorem sound_execKinc (n : ByteField) (s : State) (h : s.Sound) : SoundAnswer (execKinc n s) :=
  soundAnswer_withIssue h (fun c hc => by simp [h, hc])

@[simp] theorem sound_execKwaitle (n : ByteField) (a : RegField) (s : State) (h : s.Sound) :
    SoundAnswer (execKwaitle n a s) := soundAnswer_withIssue h (fun c hc => by simp [hc])

@[simp] theorem sound_execKrd (d : RegField) (n : ByteField) (s : State) (h : s.Sound) : SoundAnswer (execKrd d n s) :=
  soundAnswer_withIssue h (fun c hc => by simp [hc])

@[simp] theorem sound_execDeadl (a : RegField) (s : State) (h : s.Sound) : SoundAnswer (execDeadl a s) :=
  soundAnswer_withIssue h (fun c hc => by simp [h, hc])

@[simp] theorem sound_execWorkget (a : RegField) (s : State) (h : s.Sound) : SoundAnswer (execWorkget a s) :=
  soundAnswer_withIssue h (fun c hc => by simp [h, hc])

@[simp] theorem sound_execLaunch (a : RegField) (s : State) (h : s.Sound) : SoundAnswer (execLaunch a s) := by
  unfold execLaunch
  refine soundAnswer_withIssue h (fun c hc => Ctx.soundAnswer_run hc (Ctx.sound_onceDo _ _ hc ?_))
  split <;> simp [hc]

@[simp] theorem sound_execCancel (a : RegField) (code : ByteField) (s : State) (h : s.Sound) :
    SoundAnswer (execCancel a code s) := by
  unfold execCancel
  refine soundAnswer_withIssue h (fun c hc => Ctx.soundAnswer_run hc ?_)
  simp [hc]

@[simp] theorem sound_execCntrd (d a : RegField) (code : ByteField) (s : State) (h : s.Sound) :
    SoundAnswer (execCntrd d a code s) := soundAnswer_withIssue h (fun c hc => by simp [hc])

@[simp] theorem sound_execSysrd (d : RegField) (addr : BitVec 16) (s : State) (h : s.Sound) :
    SoundAnswer (execSysrd d addr s) := soundAnswer_withIssue h (fun c hc => by simp [hc])

@[simp] theorem sound_execSyswr (d : RegField) (addr : BitVec 16) (s : State) (h : s.Sound) :
    SoundAnswer (execSyswr d addr s) := by
  unfold execSyswr
  refine soundAnswer_withIssue h (fun c hc => Ctx.soundAnswer_run hc ?_)
  simp [hc]

@[simp] theorem sound_execTrap (imm : BitVec 16) (s : State) (h : s.Sound) : SoundAnswer (execTrap imm s) :=
  soundAnswer_withIssue h (fun c hc => by simp [hc])

@[simp] theorem sound_execTret (s : State) (h : s.Sound) : SoundAnswer (execTret s) := by
  unfold execTret
  refine soundAnswer_withIssue h (fun c hc => Ctx.soundAnswer_run hc ?_)
  split <;> simp [hc]

@[simp] theorem sound_execTsave (a : RegField) (s : State) (h : s.Sound) : SoundAnswer (execTsave a s) := by
  unfold execTsave
  refine soundAnswer_withIssue h (fun c hc => Ctx.soundAnswer_run hc (Ctx.sound_onceDo _ _ hc ?_))
  split <;> simp [h, hc]

@[simp] theorem sound_execTload (a : RegField) (s : State) (h : s.Sound) : SoundAnswer (execTload a s) := by
  unfold execTload
  refine soundAnswer_withIssue h (fun c hc => Ctx.soundAnswer_run hc (Ctx.sound_onceDo _ _ hc ?_))
  (repeat' split) <;> simp [h]

@[simp] theorem sound_execAcrrd (d : RegField) (s : State) (h : s.Sound) : SoundAnswer (execAcrrd d s) :=
  soundAnswer_withIssue h (fun c hc => by simp [hc])

@[simp] theorem sound_execAcrwr (a : RegField) (s : State) (h : s.Sound) : SoundAnswer (execAcrwr a s) :=
  soundAnswer_withIssue h (fun c hc => by simp [h, hc])

@[simp] theorem sound_execHalt (s : State) (h : s.Sound) : SoundAnswer (execHalt s) :=
  soundAnswer_withIssue h (fun c hc => by simp [hc])

@[simp] theorem sound_execCtxsv (a : RegField) (s : State) (h : s.Sound) : SoundAnswer (execCtxsv a s) :=
  soundAnswer_withIssue h (fun c hc => by simp [hc])

@[simp] theorem sound_execTlbinv (a : RegField) (s : State) (h : s.Sound) : SoundAnswer (execTlbinv a s) :=
  soundAnswer_withIssue h (fun c hc => by simp [hc])

end Sys2Proof.Machine
end

section
/-! PROOFS. What happens of itself or from outside keeps the sound forms (R2, R472). -/

namespace Sys2Proof.Machine

@[simp] theorem sound_execIllegalOpcode (_w : BitVec 32) (s : State) (h : s.Sound) :
    SoundAnswer (execIllegalOpcode _w s) := soundAnswer_withIssue h (fun c hc => by simp [hc])

@[simp] theorem sound_execFetchFault (s : State) (h : s.Sound) : SoundAnswer (execFetchFault s) := by
  unfold execFetchFault
  refine soundAnswer_withIssue h (fun c hc => ?_)
  split <;> simp [h]

@[simp] theorem sound_execGroupTurnSwitch (core slot : Nat) (s : State) (h : s.Sound) :
    SoundAnswer (execGroupTurnSwitch core slot s) := by
  unfold execGroupTurnSwitch
  split <;> simp [h]

@[simp] theorem sound_execVaultWriteApply (n : Nat) (s : State) (h : s.Sound) : SoundAnswer (execVaultWriteApply n s) := by
  unfold execVaultWriteApply
  split <;> simp [h]

@[simp] theorem sound_execVaultReadReply (n : Nat) (s : State) (h : s.Sound) : SoundAnswer (execVaultReadReply n s) := by
  unfold execVaultReadReply
  split <;> simp [h]

@[simp] theorem sound_execLrHoldExpiry (n : Nat) (s : State) (h : s.Sound) : SoundAnswer (execLrHoldExpiry n s) := by
  unfold execLrHoldExpiry
  simp [h]

@[simp] theorem sound_execEngineOpComplete (core : Nat) (s : State) (h : s.Sound) :
    SoundAnswer (execEngineOpComplete core s) := by
  unfold execEngineOpComplete
  (repeat' split) <;> simp +contextual [h]

@[simp] theorem sound_execMclaimGrant (core : Nat) (s : State) (h : s.Sound) : SoundAnswer (execMclaimGrant core s) := by
  unfold execMclaimGrant
  dsimp only
  (repeat' split) <;> simp [h]

@[simp] theorem sound_execMrelRelease (core : Nat) (s : State) (h : s.Sound) : SoundAnswer (execMrelRelease core s) := by
  unfold execMrelRelease
  dsimp only
  (repeat' split) <;> simp [h]

@[simp] theorem sound_execFollowOnMmaAccept (req : Nat) (s : State) (h : s.Sound) :
    SoundAnswer (execFollowOnMmaAccept req s) := by
  unfold execFollowOnMmaAccept
  (repeat' split) <;> simp [h]

@[simp] theorem sound_execChunkLand (req chunk : Nat) (s : State) (h : s.Sound) :
    SoundAnswer (execChunkLand req chunk s) := by
  unfold execChunkLand
  split
  · simp [h]
  · split
    · simp [h]
    · exact soundAnswer_whenever h (State.sound_onImage _ _ _ h (fun v hv => State.sound_writing _ _ _ _ _ _ hv
        (fun u hu => State.sound_throughImage _ _ _ hu (fun w hw => by simp [hw]))))

@[simp] theorem sound_execFarRequestEnd (req : Nat) (s : State) (h : s.Sound) : SoundAnswer (execFarRequestEnd req s) := by
  unfold execFarRequestEnd
  split <;> simp [h]

@[simp] theorem sound_execLintelAdmit (core : Nat) (s : State) (h : s.Sound) : SoundAnswer (execLintelAdmit core s) := by
  unfold execLintelAdmit
  dsimp only
  (repeat' split) <;> simp [h]

@[simp] theorem sound_execModuleRequestArrival (req modid : Nat) (badOffsets : List Nat) (s : State) (h : s.Sound) :
    SoundAnswer (execModuleRequestArrival req modid badOffsets s) := by
  unfold execModuleRequestArrival
  split <;> simp [h]

@[simp] theorem sound_execForcedSelfRefresh (modid : Nat) (s : State) (h : s.Sound) :
    SoundAnswer (execForcedSelfRefresh modid s) := by
  unfold execForcedSelfRefresh
  simp [h]

@[simp] theorem sound_execSelfRefreshExit (modid : Nat) (s : State) (h : s.Sound) :
    SoundAnswer (execSelfRefreshExit modid s) := by
  unfold execSelfRefreshExit
  simp [h]

@[simp] theorem sound_execCairnReadReturn (req : Nat) (dramError : Bool) (s : State) (h : s.Sound) :
    SoundAnswer (execCairnReadReturn req dramError s) := by
  unfold execCairnReadReturn
  (repeat' split) <;> simp [h]

@[simp] theorem sound_execCorbelSlotFilled (cluster slot : Nat) (s : State) (h : s.Sound) :
    SoundAnswer (execCorbelSlotFilled cluster slot s) := by
  unfold execCorbelSlotFilled
  split <;> simp [h]

@[simp] theorem sound_execRldReply (r : RemoteReply) (s : State) (h : s.Sound) : SoundAnswer (execRldReply r s) := by
  unfold execRldReply
  simp [h]

@[simp] theorem sound_execRstAck (r : RemoteReply) (s : State) (h : s.Sound) : SoundAnswer (execRstAck r s) := by
  unfold execRstAck
  simp [h]

@[simp] theorem sound_execRatomResponse (r : RemoteReply) (s : State) (h : s.Sound) :
    SoundAnswer (execRatomResponse r s) := by
  unfold execRatomResponse
  simp [h]

@[simp] theorem sound_execRemoteOpArrival (op : RemoteOp) (s : State) (h : s.Sound) :
    SoundAnswer (execRemoteOpArrival op s) := by
  unfold execRemoteOpArrival
  exact soundAnswer_whenever (by simp [h]) (State.sound_onReply _ _ _ (by simp [h])
    (fun v hv => State.sound_writing _ _ _ _ _ _ hv (fun u hu => by simp [hu])))

@[simp] theorem sound_execCollMessageArrival (m : CollMsg) (s : State) (h : s.Sound) :
    SoundAnswer (execCollMessageArrival m s) := by
  unfold execCollMessageArrival
  simp [h]

@[simp] theorem sound_execQsendDataArrival (d : QData) (s : State) (h : s.Sound) :
    SoundAnswer (execQsendDataArrival d s) := by
  unfold execQsendDataArrival
  exact soundAnswer_whenever (by simp [h]) (State.sound_writing _ _ _ _ _ _ (by simp [h]) (fun v hv => v.sound_qTake d hv))

@[simp] theorem sound_execQsendCompletionReport (req : Nat) (failed : Option QFault) (s : State) (h : s.Sound) :
    SoundAnswer (execQsendCompletionReport req failed s) := by
  unfold execQsendCompletionReport
  split
  · simp [h]
  · split
    · exact soundAnswer_whenever h (State.sound_onImage _ _ _ h
        (fun v hv => State.sound_throughImage _ _ _ hv (fun u hu => by simp [hu])))
    · simp [h]

@[simp] theorem sound_whenReady (s effect : State) (h : s.Sound) (heffect : effect.Sound) :
    SoundAnswer (whenReady s effect) := by
  unfold whenReady
  simp [h, heffect]

@[simp] theorem sound_execLqWrWrite (part q : Nat) (wr : BitVec 16) (s : State) (h : s.Sound) :
    SoundAnswer (execLqWrWrite part q wr s) := by
  unfold execLqWrWrite
  simp [h]

@[simp] theorem sound_execLaunchPacketRead (part q : Nat) (s : State) (h : s.Sound) :
    SoundAnswer (execLaunchPacketRead part q s) := by
  unfold execLaunchPacketRead
  dsimp only
  (repeat' split) <;> simp [h]

@[simp] theorem sound_execTeamPlace (part : Nat) (s : State) (h : s.Sound) : SoundAnswer (execTeamPlace part s) := by
  unfold execTeamPlace
  dsimp only
  (repeat' split) <;> simp [h]

@[simp] theorem sound_execLaunchBlocking (part launch : Nat) (s : State) (h : s.Sound) :
    SoundAnswer (execLaunchBlocking part launch s) := by
  unfold execLaunchBlocking
  split <;> simp [h]

@[simp] theorem sound_execLaunchComplete (launch : Nat) (s : State) (h : s.Sound) :
    SoundAnswer (execLaunchComplete launch s) := by
  unfold execLaunchComplete
  split <;> simp [h]

@[simp] theorem sound_execGangSlotRelease (gang : Nat) (s : State) (h : s.Sound) :
    SoundAnswer (execGangSlotRelease gang s) := by
  unfold execGangSlotRelease
  (repeat' split) <;> simp [h]

@[simp] theorem sound_execCancelStop (team : Nat) (s : State) (h : s.Sound) : SoundAnswer (execCancelStop team s) := by
  unfold execCancelStop
  split <;> simp [h]

@[simp] theorem sound_execWorkgetReply (gang : Nat) (s : State) (h : s.Sound) : SoundAnswer (execWorkgetReply gang s) := by
  unfold execWorkgetReply
  split
  · simp [h]
  · next team core off s1 hs1 =>
    have h1 : s1.Sound := State.sound_takeWorkget h hs1
    split
    · simp [h]
    · refine soundAnswer_whenever h ?_
      (repeat' split) <;> simp [h1]

@[simp] theorem sound_execPreemptRequest (part n q : Nat) (launch : Option Nat) (s : State) (h : s.Sound) :
    SoundAnswer (execPreemptRequest part n q launch s) := by
  unfold execPreemptRequest
  simp [h]

@[simp] theorem sound_execHwPreemptTrigger (part launch : Nat) (s : State) (h : s.Sound) :
    SoundAnswer (execHwPreemptTrigger part launch s) := by
  unfold execHwPreemptTrigger
  split <;> simp [h]

@[simp] theorem sound_execPreemptNoticeExpiry (part : Nat) (s : State) (h : s.Sound) :
    SoundAnswer (execPreemptNoticeExpiry part s) := by
  unfold execPreemptNoticeExpiry
  dsimp only
  (repeat' split) <;> simp [h]

@[simp] theorem sound_execContextSave (team : Nat) (s : State) (h : s.Sound) : SoundAnswer (execContextSave team s) := by
  unfold execContextSave
  split
  · simp [h]
  · refine soundAnswer_whenever h ?_
    split
    · simp [h]
    · exact State.sound_writing _ _ _ _ _ _ (by simp [h]) (fun v hv => by simp [hv])

@[simp] theorem sound_execSavedTeamArrival (team : Nat) (a : SavedArrival) (s : State) (h : s.Sound) :
    SoundAnswer (execSavedTeamArrival team a s) := by
  have himage : ∀ team (f : State → State), (∀ v : State, v.Sound → (f v).Sound) →
      (s.onImage team (fun s => s.throughImage team f)).Sound := fun team f hf =>
    State.sound_onImage _ _ _ h (fun v hv => State.sound_throughImage _ _ _ hv hf)
  unfold execSavedTeamArrival
  split
  · exact soundAnswer_whenever h (State.sound_onImage _ _ _ h (fun v hv => by simp [hv]))
  · split
    · simp [h]
    · exact soundAnswer_whenever h (himage _ _ (fun v hv => by simp [hv]))
  · split
    · simp [h]
    · exact soundAnswer_whenever h (himage _ _ (fun v hv => by simp [hv]))
  · exact soundAnswer_whenever h (himage _ _ (fun v hv => by simp [hv]))

@[simp] theorem sound_execRegangDeadlock (gang : Nat) (s : State) (h : s.Sound) :
    SoundAnswer (execRegangDeadlock gang s) := by
  unfold execRegangDeadlock
  (repeat' split) <;> simp [h]

@[simp] theorem sound_execDeadlineExpiry (gang : Nat) (s : State) (h : s.Sound) :
    SoundAnswer (execDeadlineExpiry gang s) := by
  unfold execDeadlineExpiry
  split <;> simp [h]

@[simp] theorem sound_execTrapEntry (gang : Nat) (s : State) (h : s.Sound) : SoundAnswer (execTrapEntry gang s) := by
  unfold execTrapEntry
  (repeat' split) <;> simp [h]

@[simp] theorem sound_execHctlResume (part : Nat) (s : State) (h : s.Sound) : SoundAnswer (execHctlResume part s) := by
  unfold execHctlResume
  simp [h]

@[simp] theorem sound_execHctlDiscard (part : Nat) (s : State) (h : s.Sound) : SoundAnswer (execHctlDiscard part s) := by
  unfold execHctlDiscard
  simp [h]

@[simp] theorem sound_execSingleBitError (part : Nat) (s : State) (h : s.Sound) :
    SoundAnswer (execSingleBitError part s) := by
  unfold execSingleBitError
  simp [h]

@[simp] theorem sound_execUncorrectableError (part : Nat) (place : ErrorPlace) (s : State) (h : s.Sound) :
    SoundAnswer (execUncorrectableError part place s) := by
  unfold execUncorrectableError
  simp [h]

@[simp] theorem sound_execScrub (s : State) (h : s.Sound) : SoundAnswer (execScrub s) := by
  unfold execScrub
  simp [h]

@[simp] theorem sound_execSlotMarker (j : Nat) (s : State) (h : s.Sound) : SoundAnswer (execSlotMarker j s) := by
  unfold execSlotMarker
  simp [h]

@[simp] theorem sound_execGuardEnd (s : State) (h : s.Sound) : SoundAnswer (execGuardEnd s) := by
  unfold execGuardEnd
  simp [h]

@[simp] theorem sound_execSlotWindowClose (nextMarker : Bool) (s : State) (h : s.Sound) :
    SoundAnswer (execSlotWindowClose nextMarker s) := by
  unfold execSlotWindowClose
  simp [h]

@[simp] theorem sound_execCirctlWrite (src : Source) (part : Nat) (v : Word) (s : State) (h : s.Sound) :
    SoundAnswer (execCirctlWrite src part v s) := by
  unfold execCirctlWrite
  simp [h]

@[simp] theorem sound_execSlotSetup (j p : Nat) (s : State) (h : s.Sound) : SoundAnswer (execSlotSetup j p s) := by
  unfold execSlotSetup
  simp [h]

@[simp] theorem sound_execSlotTdown (j p : Nat) (s : State) (h : s.Sound) : SoundAnswer (execSlotTdown j p s) := by
  unfold execSlotTdown
  simp [h]

@[simp] theorem sound_execPortSetup (p : Nat) (s : State) (h : s.Sound) : SoundAnswer (execPortSetup p s) := by
  unfold execPortSetup
  simp [h]

@[simp] theorem sound_execPortTdown (p : Nat) (s : State) (h : s.Sound) : SoundAnswer (execPortTdown p s) := by
  unfold execPortTdown
  simp [h]

@[simp] theorem sound_execSetup (c : SetupRef) (peer : Nat) (caps : BitVec 7) (version : Nat × Nat) (s : State)
    (h : s.Sound) : SoundAnswer (execSetup c peer caps version s) := by
  unfold execSetup
  simp [h]

@[simp] theorem sound_execAck (c : SetupRef) (caps : BitVec 7) (version : Nat) (s : State) (h : s.Sound) :
    SoundAnswer (execAck c caps version s) := by
  unfold execAck
  simp [h]

@[simp] theorem sound_execNak (c : SetupRef) (cause : NakCause) (s : State) (h : s.Sound) :
    SoundAnswer (execNak c cause s) := by
  unfold execNak
  simp [h]

@[simp] theorem sound_execTeardown (c : Circuit) (s : State) (h : s.Sound) : SoundAnswer (execTeardown c s) := by
  unfold execTeardown
  simp [h]

@[simp] theorem sound_execSetupTimeout (c : Circuit) (s : State) (h : s.Sound) : SoundAnswer (execSetupTimeout c s) := by
  unfold execSetupTimeout
  simp [h]

@[simp] theorem sound_execSetupRetry (c : Circuit) (s : State) (h : s.Sound) : SoundAnswer (execSetupRetry c s) := by
  unfold execSetupRetry
  simp [h]

@[simp] theorem sound_execFlitSend (link : Nat) (s : State) (h : s.Sound) : SoundAnswer (execFlitSend link s) := by
  unfold execFlitSend
  simp [h]

@[simp] theorem sound_execDataFlitReceive (link : Nat) (f : Flit) (s : State) (h : s.Sound) :
    SoundAnswer (execDataFlitReceive link f s) := by
  unfold execDataFlitReceive
  simp [h]

@[simp] theorem sound_execNakFlitReceive (link : Nat) (fseq : BitVec 12) (s : State) (h : s.Sound) :
    SoundAnswer (execNakFlitReceive link fseq s) := by
  unfold execNakFlitReceive
  simp [h]

@[simp] theorem sound_execWidthChangeFlit (link : Nat) (f : Flit) (s : State) (h : s.Sound) :
    SoundAnswer (execWidthChangeFlit link f s) := by
  unfold execWidthChangeFlit
  simp [h]

@[simp] theorem sound_execRemapFlit (link : Nat) (f : Flit) (s : State) (h : s.Sound) :
    SoundAnswer (execRemapFlit link f s) := by
  unfold execRemapFlit
  simp [h]

@[simp] theorem sound_execAckTimeout (link : Nat) (s : State) (h : s.Sound) : SoundAnswer (execAckTimeout link s) := by
  unfold execAckTimeout
  simp [h]

@[simp] theorem sound_execClockRecoveryLoss (chan : Nat) (s : State) (h : s.Sound) :
    SoundAnswer (execClockRecoveryLoss chan s) := by
  unfold execClockRecoveryLoss
  simp [h]

@[simp] theorem sound_execRetrainComplete (link : Nat) (end_ : Retrained) (s : State) (h : s.Sound) :
    SoundAnswer (execRetrainComplete link end_ s) := by
  unfold execRetrainComplete
  simp [h]

@[simp] theorem sound_execMonitorSample (samples : List (Nat × BitVec 16 × BitVec 8)) (s : State) (h : s.Sound) :
    SoundAnswer (execMonitorSample samples s) := by
  unfold execMonitorSample
  simp [h]

@[simp] theorem sound_execLaserLineLoss (array lam : Nat) (s : State) (h : s.Sound) :
    SoundAnswer (execLaserLineLoss array lam s) := by
  unfold execLaserLineLoss
  simp [h]

@[simp] theorem sound_execChannelWakeComplete (chan : Nat) (locked : Bool) (s : State) (h : s.Sound) :
    SoundAnswer (execChannelWakeComplete chan locked s) := by
  unfold execChannelWakeComplete
  simp [h]

@[simp] theorem sound_execChannelParkComplete (chan : Nat) (s : State) (h : s.Sound) :
    SoundAnswer (execChannelParkComplete chan s) := by
  unfold execChannelParkComplete
  simp [h]

@[simp] theorem sound_execLinkTgtwWrite (src : Source) (part link : Nat) (w : BitVec 4) (s : State) (h : s.Sound) :
    SoundAnswer (execLinkTgtwWrite src part link w s) := by
  unfold execLinkTgtwWrite
  simp [h]

@[simp] theorem sound_execLinkRetrain (src : Source) (part link : Nat) (s : State) (h : s.Sound) :
    SoundAnswer (execLinkRetrain src part link s) := by
  unfold execLinkRetrain
  simp [h]

@[simp] theorem sound_execChanParkWrite (src : Source) (part chan : Nat) (park : Bool) (s : State) (h : s.Sound) :
    SoundAnswer (execChanParkWrite src part chan park s) := by
  unfold execChanParkWrite
  simp [h]

@[simp] theorem sound_execPairFabreqWrite (src : Source) (part pair : Nat) (peer : Bool) (s : State) (h : s.Sound) :
    SoundAnswer (execPairFabreqWrite src part pair peer s) := by
  unfold execPairFabreqWrite
  simp [h]

@[simp] theorem sound_execPlanSpare (part chan : Nat) (ring : Bool) (s : State) (h : s.Sound) :
    SoundAnswer (execPlanSpare part chan ring s) := by
  unfold execPlanSpare
  simp [h]

@[simp] theorem sound_execPlanRelease (part chan : Nat) (s : State) (h : s.Sound) :
    SoundAnswer (execPlanRelease part chan s) := by
  unfold execPlanRelease
  simp [h]

@[simp] theorem sound_execPlanRetrain (part link : Nat) (s : State) (h : s.Sound) :
    SoundAnswer (execPlanRetrain part link s) := by
  unfold execPlanRetrain
  simp [h]

@[simp] theorem sound_execPlanShare (part target : Nat) (s : State) (h : s.Sound) :
    SoundAnswer (execPlanShare part target s) := by
  unfold execPlanShare
  simp [h]

@[simp] theorem sound_execPlanUnshare (part target : Nat) (recovered : Bool) (s : State) (h : s.Sound) :
    SoundAnswer (execPlanUnshare part target recovered s) := by
  unfold execPlanUnshare
  simp [h]

@[simp] theorem sound_execLaserSample (array lam : Nat) (bias power : BitVec 12) (s : State) (h : s.Sound) :
    SoundAnswer (execLaserSample array lam bias power s) := by
  unfold execLaserSample
  simp [h]

@[simp] theorem sound_execAgeingCounterSave (array : Nat) (hours : AgedHours) (s : State) (h : s.Sound) :
    SoundAnswer (execAgeingCounterSave array hours s) := by
  unfold execAgeingCounterSave
  simp [h]

@[simp] theorem sound_execPartitionResourceWrite (part addr : Nat) (v : Word) (s : State) (h : s.Sound) :
    SoundAnswer (execPartitionResourceWrite part addr v s) := by
  unfold execPartitionResourceWrite
  simp [h]

@[simp] theorem sound_execShootdown (part : Nat) (nseq : BitVec 16) (s : State) (h : s.Sound) :
    SoundAnswer (execShootdown part nseq s) := by
  unfold execShootdown
  simp [h]

@[simp] theorem sound_execShootdownComplete (part : Nat) (s : State) (h : s.Sound) :
    SoundAnswer (execShootdownComplete part s) := by
  unfold execShootdownComplete
  simp [h]

@[simp] theorem sound_execFlushed (modid pkg part : Nat) (seq : BitVec 16) (s : State) (h : s.Sound) :
    SoundAnswer (execFlushed modid pkg part seq s) := by
  unfold execFlushed
  simp [h]

@[simp] theorem sound_execFaultQueueAck (part : Nat) (v : Word) (s : State) (h : s.Sound) :
    SoundAnswer (execFaultQueueAck part v s) := by
  unfold execFaultQueueAck
  simp [h]

@[simp] theorem sound_execModuleAttest (part : Nat) (s : State) (h : s.Sound) : SoundAnswer (execModuleAttest part s) := by
  unfold execModuleAttest
  simp [h]

@[simp] theorem sound_execAttestReportReceive (modid part : Nat) (m : AttestMsg) (s : State) (h : s.Sound) :
    SoundAnswer (execAttestReportReceive modid part m s) := by
  unfold execAttestReportReceive
  split <;> simp [h]

@[simp] theorem sound_execModuleControllerRestart (modid : Nat) (s : State) (h : s.Sound) :
    SoundAnswer (execModuleControllerRestart modid s) := by
  unfold execModuleControllerRestart
  simp [h]

@[simp] theorem sound_execAttestReportRequest (part : Nat) (s : State) (h : s.Sound) :
    SoundAnswer (execAttestReportRequest part s) := by
  unfold execAttestReportRequest
  simp [h]

@[simp] theorem sound_execAttestReportWritten (part : Nat) (s : State) (h : s.Sound) :
    SoundAnswer (execAttestReportWritten part s) := by
  unfold execAttestReportWritten
  refine soundAnswer_whenever h ?_
  split
  · simp [h]
  · exact State.sound_writing _ _ _ _ _ _ h (fun v hv => by simp [hv])

@[simp] theorem sound_execHostBar2Access (part offset len : Nat) (write : Option (List Byte)) (s : State)
    (h : s.Sound) : SoundAnswer (execHostBar2Access part offset len write s) := by
  unfold execHostBar2Access
  split <;> simp [h]

@[simp] theorem sound_execPowerOnReset (boot : BootResult) (s : State) : SoundAnswer (execPowerOnReset boot s) := by
  unfold execPowerOnReset
  rw [soundAnswer_next]
  split
  · next image main fuses version =>
    exact State.Sound.house (s := ((s.powerCycle.extend 0 image).extend 1 main).extend 2 fuses) (by simp) rfl rfl
  all_goals simp

theorem House.tryReady_power (x : House) : x.tryReady.cur = x.cur ∧ x.tryReady.entering = x.entering := by
  unfold House.tryReady
  (repeat' split) <;> exact ⟨rfl, rfl⟩

@[simp] theorem sound_execLinkPhaseTimeout (s : State) (h : s.Sound) : SoundAnswer (execLinkPhaseTimeout s) := by
  obtain ⟨hc, he⟩ := House.tryReady_power { s.house with late := true }
  exact soundAnswer_whenever h (h.house hc he)

@[simp] theorem sound_execPcieTrained (s : State) (h : s.Sound) : SoundAnswer (execPcieTrained s) := by
  obtain ⟨hc, he⟩ := House.tryReady_power { s.house with pcie := true }
  exact soundAnswer_whenever h (h.house hc he)

@[simp] theorem sound_execMeshPortUp (port : Nat) (s : State) (h : s.Sound) : SoundAnswer (execMeshPortUp port s) := by
  obtain ⟨hc, he⟩ := House.tryReady_power (if port = 0 then { s.house with mesh0 := true } else { s.house with mesh1 := true })
  refine soundAnswer_whenever h (h.house (hc.trans ?_) (he.trans ?_)) <;> split <;> rfl

@[simp] theorem sound_execOpticalLightPoll (chans : List Nat) (s : State) (h : s.Sound) :
    SoundAnswer (execOpticalLightPoll chans s) := by
  unfold execOpticalLightPoll
  exact soundAnswer_whenever h ((State.sound_foldl (fun v c => v.sound_tryChan c) _).2 (h.house rfl rfl))

@[simp] theorem sound_execChannelTrainTimeout (chan : Nat) (s : State) (h : s.Sound) :
    SoundAnswer (execChannelTrainTimeout chan s) := by
  unfold execChannelTrainTimeout
  simp [h]

@[simp] theorem sound_execPowerStateRequest (req : BitVec 2) (s : State) (h : s.Sound) :
    SoundAnswer (execPowerStateRequest req s) := by
  unfold execPowerStateRequest
  simp [h]

@[simp] theorem sound_execThermalSample (temps : List (BitVec 10)) (watts : BitVec 12) (s : State) (h : s.Sound) :
    SoundAnswer (execThermalSample temps watts s) := by
  have hall : ∀ (p : Bool) (v : State), v.Sound →
      (if p then (List.range 16).foldl (fun acc n => State.raiseHalt acc n false none) v else v).Sound := fun p v hv => by
    split
    · exact (State.sound_foldl (fun u n => u.sound_raiseHalt _ _ _) _).2 hv
    · exact hv
  unfold execThermalSample
  rw [soundAnswer_next]
  refine State.sound_ite.2 ?_
  split
  · exact (State.sound_emit _ _).2 (hall _ _ (h.house rfl rfl))
  · exact hall _ _ (h.house rfl rfl)

@[simp] theorem sound_execRegisterWrite (src : Source) (part addr : Nat) (v : Word) (s : State) (h : s.Sound) :
    SoundAnswer (execRegisterWrite src part addr v s) := by
  unfold execRegisterWrite
  simp [h]

@[simp] theorem sound_execControlMeshPortDown (port : Nat) (s : State) (h : s.Sound) :
    SoundAnswer (execControlMeshPortDown port s) := by
  obtain ⟨hc, he⟩ := House.tryReady_power (if port = 0 then { s.house with mesh0 := false } else { s.house with mesh1 := false })
  refine soundAnswer_next.2 (h.house (hc.trans ?_) (he.trans ?_)) <;> split <;> rfl

@[simp] theorem sound_execWindowTableLoad (modid : Nat) (ws : List Window) (s : State) (h : s.Sound) :
    SoundAnswer (execWindowTableLoad modid ws s) := by
  unfold execWindowTableLoad
  simp [h]

@[simp] theorem sound_execClockRampComplete (s : State) (h : s.Sound) : SoundAnswer (execClockRampComplete s) := by
  obtain ⟨hv, hcur, hent⟩ := h
  unfold execClockRampComplete
  split
  · next r hr =>
    have h1 : State.Sound { s with house := { s.house with entering := none, cur := r } } :=
      ⟨hv, fun e => hent (e ▸ hr), nofun⟩
    rw [soundAnswer_next]
    dsimp only
    split
    · exact (State.sound_enterStandby _).2 h1
    · exact (State.sound_enterSleep _).2 (h1.house rfl rfl)
  · exact soundAnswer_whenever ⟨hv, hcur, hent⟩ ⟨hv, (by decide : (0 : BitVec 2) ≠ 3), hent⟩

@[simp] theorem sound_execSpareRingLock (chan : Nat) (locked : Bool) (s : State) (h : s.Sound) :
    SoundAnswer (execSpareRingLock chan locked s) := by
  unfold execSpareRingLock
  simp [h]

@[simp] theorem sound_execChannelTrainingComplete (chan : TrainedChan) (s : State) (h : s.Sound) :
    SoundAnswer (execChannelTrainingComplete chan s) := by
  unfold execChannelTrainingComplete
  split <;> simp [h]

@[simp] theorem sound_execRefreshGrant (modid : Nat) (s : State) (h : s.Sound) :
    SoundAnswer (execRefreshGrant modid s) := by
  unfold execRefreshGrant
  simp [h]

end Sys2Proof.Machine
end

section
/-! PROOFS. Every step keeps the vault canonical and the power mode legal (R2, R472). -/

namespace Sys2Proof.Machine

@[simp] theorem soundAnswer_exec (i : Instr) (s : State) (h : s.Sound) : SoundAnswer (exec i s) := by
  cases i <;> simp [exec, h]

@[simp] theorem State.soundAnswer_execWord (s : State) (w : BitVec 32) (h : s.Sound) : SoundAnswer (s.execWord w) := by
  unfold State.execWord
  split
  · simp [h]
  · simp [h]
  · exact soundAnswer_withIssue h (fun c hc => by simp [hc])

@[simp] theorem State.soundAnswer_present (s : State) (id : Nat) (m : SliceMask) (h : s.Sound) :
    SoundAnswer (s.present id m) := by
  have hw : SoundAnswer (s.beginIssue id m).execNext := by
    refine soundAnswer_withIssue (by simp [h]) (fun c hc => ?_)
    split <;> simp [h]
  unfold State.present
  split
  · next t ht => simp [hw t ht]
  · simp
  · simp

@[simp] theorem State.sound_tries (s : State) (id : Nat) (m : SliceMask) (h : s.Sound) : (s.tries id m).1.Sound := by
  unfold State.tries
  split
  · next t ht => exact s.soundAnswer_present id m h t ht
  · exact h

/-! ### The parts of a cycle -/

@[simp] theorem State.sound_issuePick (s : State) (p : Nat × SliceMask × Nat) (h : s.Sound) : (s.issuePick p).Sound := by
  unfold State.issuePick
  split
  · dsimp only
    split
    · simp [h]
    · exact s.sound_tries _ _ h
  · exact h

@[simp] theorem State.sound_issuePart (s : State) (n : Nat) (ps : List (Nat × SliceMask × Nat)) (h : s.Sound) :
    (s.issuePart n ps).Sound :=
  State.Sound.foldl h _ (fun v p hv => v.sound_issuePick p hv)

@[simp] theorem State.sound_settleLandings (s : State) (h : s.Sound) : s.settleLandings.Sound := by
  unfold State.settleLandings
  refine State.Sound.foldl h _ (fun v e hv => ?_)
  have h1 : (if e.2.followDue then v.after (execFollowOnMmaAccept e.1) else v).Sound := by
    split
    · exact State.sound_after hv (sound_execFollowOnMmaAccept _ _ hv)
    · exact hv
  dsimp only
  generalize (if e.2.followDue then v.after (execFollowOnMmaAccept e.1) else v) = u at h1 ⊢
  split
  · split
    · refine State.sound_after h1 ?_
      split
      · exact sound_execSavedTeamArrival _ _ _ h1
      · exact sound_execFarRequestEnd _ _ h1
    · exact h1
  · exact h1

@[simp] theorem State.sound_settle (s : State) (h : s.Sound) : s.settle.Sound := by
  have h1 : s.settleLandings.settleGroups.settleTokens.Sound := by simp [h]
  have h2 := (State.sound_foldl (fun v n => v.sound_unfreeze n) s.settleLandings.settleGroups.settleTokens.heldCores).2 h1
  unfold State.settle
  exact (State.sound_settlePower _).2 ((State.sound_reapTeams _).2 ((State.sound_settleBooked _).2
    (State.sound_settleComms _ (by simp [h2]))))

@[simp] theorem State.sound_evening (s : State) (h : s.Sound) : s.evening.Sound := by
  unfold State.evening
  simp [h]

@[simp] theorem State.sound_words (s : State) (subs : List Nat) (h : s.Sound) : (s.words subs).Sound := by
  unfold State.words
  refine State.sound_issuePart _ _ _ (State.sound_evening _ (State.sound_issuePart _ _ _ (State.sound_barrierCycle _ ?_)))
  simp [h]

@[simp] theorem State.sound_cycle (s : State) (subs : State → List Nat) (h : s.Sound) : (s.cycle subs).Sound := by
  have h0 : s.begun.Sound := by
    unfold State.begun
    simp [h]
  unfold State.cycle
  simp [h0]

@[simp] theorem State.sound_ticks (n : Nat) : ∀ s : State, s.Sound → (s.ticks n).Sound := by
  induction n with
  | zero => exact fun _ h => h
  | succ n ih =>
    intro s h
    have h1 := ih (s.cycle (fun _ => [])) (by simp [h])
    unfold State.ticks
    exact h1

/-! ### The steps of the agenda, and the machine's own -/

@[simp] theorem soundAnswer_execPad (n : Nat) (s : State) (h : s.Sound) : SoundAnswer (execPad n s) := by
  unfold execPad
  split <;> simp [h]

theorem State.soundAnswer_happen (s : State) (x : Stimulus) (h : s.Sound) : SoundAnswer (s.happen x) := by
  cases x with
  | event i =>
    unfold State.happen
    dsimp only
    split <;> simp [h]
  | _ => simp [State.happen, h]

/-- The moves of the list answer sound states in sound states. -/
def MovesSound (fs : List Move) : Prop := ∀ f ∈ fs, ∀ s : State, s.Sound → SoundAnswer (f s)

section
variable {α : Type}

@[simp] theorem movesSound_nil : MovesSound [] := fun _ h => nomatch h

@[simp] theorem movesSound_cons {f : Move} {fs : List Move} :
    MovesSound (f :: fs) ↔ (∀ s : State, s.Sound → SoundAnswer (f s)) ∧ MovesSound fs := List.forall_mem_cons

@[simp] theorem movesSound_append {fs gs : List Move} : MovesSound (fs ++ gs) ↔ MovesSound fs ∧ MovesSound gs :=
  List.forall_mem_append

@[simp] theorem movesSound_map {l : List α} {f : α → Move} :
    MovesSound (l.map f) ↔ ∀ a ∈ l, ∀ s : State, s.Sound → SoundAnswer (f a s) := List.forall_mem_map

@[simp] theorem movesSound_flatMap {l : List α} {f : α → List Move} :
    MovesSound (l.flatMap f) ↔ ∀ a ∈ l, MovesSound (f a) := by
  simp only [MovesSound, List.mem_flatMap]
  exact ⟨fun h a ha g hg => h g ⟨a, ha, hg⟩, fun h g ⟨a, ha, hg⟩ => h a ha g hg⟩

@[simp] theorem movesSound_ite {p : Prop} [Decidable p] {fs gs : List Move} :
    MovesSound (if p then fs else gs) ↔ (p → MovesSound fs) ∧ (¬p → MovesSound gs) := by
  split <;> simp [*]

end

theorem State.movesSound_gangSteps (s : State) : MovesSound s.gangSteps := by
  unfold State.gangSteps
  simp +contextual

theorem State.movesSound_vaultSteps (s : State) : MovesSound s.vaultSteps := by
  have hv : ∀ (r : VaultReq) (t : State), t.Sound →
      SoundAnswer ((if r.kind.writes then execVaultWriteApply r.id else execVaultReadReply r.id) t) := fun r t ht => by
    split <;> simp [ht]
  unfold State.vaultSteps
  simp +contextual [hv]

theorem State.movesSound_coreSteps (s : State) : MovesSound s.coreSteps := by
  unfold State.coreSteps
  simp +contextual

theorem State.movesSound_requestSteps (s : State) (id : Nat) (r : FarReq) : MovesSound (s.requestSteps id r) := by
  unfold State.requestSteps
  cases r.kind <;> simp +contextual

theorem State.movesSound_messageSteps (s : State) (m : NetMsg) : MovesSound (s.messageSteps m) := by
  unfold State.messageSteps
  (repeat' split) <;> simp +contextual

theorem State.movesSound_partSteps (s : State) (n : Nat) (p : Partition) : MovesSound (s.partSteps n p) := by
  unfold State.partSteps
  simp +contextual

theorem State.movesSound_ownSteps (s : State) : MovesSound s.ownSteps := by
  unfold State.ownSteps State.teamSteps
  simp +contextual [s.movesSound_gangSteps, s.movesSound_vaultSteps, s.movesSound_coreSteps, s.movesSound_requestSteps,
    s.movesSound_messageSteps, s.movesSound_partSteps]

theorem State.sound_firstStep {s t : State} (h : s.Sound) (fs : List Move) (hfs : MovesSound fs)
    (ht : s.firstStep fs = some t) : t.Sound := by
  induction fs with
  | nil => cases ht
  | cons f fs ih =>
    obtain ⟨hf, hrest⟩ := movesSound_cons.1 hfs
    unfold State.firstStep at ht
    split at ht
    · next u hu =>
      split at ht
      · exact ih hrest ht
      · exact Option.some.inj ht ▸ hf s h u hu
    · exact ih hrest ht

theorem State.sound_default (s : State) (h : s.Sound) : s.default.Sound := by
  unfold State.default
  split
  · next t ht => exact State.sound_firstStep h _ s.movesSound_ownSteps ht
  · exact s.sound_cycle _ h

theorem soundAnswer_step (s : State) (h : s.Sound) : SoundAnswer (step s) := by
  unfold step
  split
  · exact State.soundAnswer_happen _ _ h
  · exact soundAnswer_next.2 (s.sound_default h)

/-! ### The statement -/

/-- Settles O5: the vault is written through operations that keep its canonical form alone, and what asks for a power state
discards a request for the value 3. -/
theorem stepsKeepTheSoundForms : Obligations.StepsKeepTheSoundForms := by
  intro s t hv hp ht
  obtain ⟨hv', hp'⟩ := soundAnswer_step s ⟨hv, hp⟩ t ht
  exact ⟨hv', hp'⟩

end Sys2Proof.Machine
end
